-- ==== Sys2Proof/Word.lean ====
section
/-! DEFINITION. The word types of the model and their plainest arithmetic. Bit vectors stand for what software reads as
bits: bytes, register words, encoded values. Quantities, indices, addresses and times are natural numbers. -/

namespace Sys2Proof

/-- One byte. -/
abbrev Byte := BitVec 8

/-- One 32-bit word: a management register (R398), a lane of a vector register (R168), a field of a header. -/
abbrev Word := BitVec 32

/-- A module address (48 bits, R6) or a management address (32 bits, R8), as a number. -/
abbrev Addr := Nat

/-- A time of the local counter in ns (R321). -/
abbrev Time := Nat

/-- A sparse table: (index, entry) pairs with strictly rising indices and no entry equal to what an unlisted index
holds. -/
abbrev Table (α : Type) := List (Nat × α)

end Sys2Proof
end

