-- ==== Sys2Proof/Syntax.lean ====
section
/-! DEFINITION. The commands of the block: one constructor of `Instr` per row of spec/opcode_table.json. The table gives
a row no operands; the operands here are what the row's rule names, what the outside world supplies with it (a frame, a
voltage, an error found by a check) and the choices that the rule leaves to the module's own engines (log entry 1). -/

namespace Sys2Proof

/-! ## Units -/

/-- Core `core` of seam `seam` (R1, R6). -/
structure CoreId where
  seam : Fin 16
  core : Fin 32
deriving DecidableEq, Repr

/-- Array `array` of a core (R153). -/
structure ArrayId where
  core : CoreId
  array : Fin 4
deriving DecidableEq, Repr

/-- Task slot `slot` of a core (R161). -/
structure SlotId where
  core : CoreId
  slot : Fin 4
deriving DecidableEq, Repr

/-- Adit unit `unit` of a seam (R133). -/
structure AditId where
  seam : Fin 16
  unit : Fin 4
deriving DecidableEq, Repr

/-- Queue `queue` of hoist `hoist` of a seam (R214). -/
structure QueueId where
  seam : Fin 16
  hoist : Fin 8
  queue : Fin 18
deriving DecidableEq, Repr

/-- A DRAM channel of a seam (R202). -/
structure ChanId where
  seam : Fin 16
  chan : Fin 32
deriving DecidableEq, Repr

/-- A chute endpoint: of a core or of the hub (R226). -/
inductive EndpointId where
  | core (c : CoreId) (e : Fin 8)
  | hub (i : Fin 2048)
deriving DecidableEq, Repr

/-- The four clock domains of a seam (R309). -/
inductive SeamDomain where
  | aclk | kclk | fclk | mclk
deriving DecidableEq, Repr

/-- A clock domain that can stop or be reset alone (R309, R316). DCLK has rows of its own. -/
inductive DomainId where
  | seam (s : Fin 16) (d : SeamDomain)
  | pclk
  | hubFclk
deriving DecidableEq, Repr

/-! ## Lot commands -/

/-- What a lot command carries beside its payload (R244, R247): the session and LSN of its lot, its index in the lot,
its CMD_TAG and the acceptance time of the lot (R296). The commands of a session that SHUT has closed are told from
those of a later session with its index by a multiple of `2^32` added to theirs. -/
structure CmdCtx where
  session : Fin 2048
  lsn : Word
  index : Nat
  tag : Word
  tAccept : Time
deriving DecidableEq, Repr

/-! ## Work -/

/-- Who makes a fetch-and-add (R269). -/
inductive Requester where
  | core (c : Fin 32)
  | adit (u : Fin 4)
deriving DecidableEq, Repr

/-- The seam sequencer's choices at a node start (R258 to R260, R269): the split, the task count of a scatter division,
the block shape and loop order of a product, and per seam of its group the work counter to bind and the group's size. -/
structure NodePlan where
  split : Nat
  scatterTasks : Nat
  blockM : Nat
  blockN : Nat
  kOuter : Bool
  seams : List (Fin 16 × Fin 64 × Nat)
deriving DecidableEq, Repr

/-- The unit a task command goes to (R159). -/
inductive UnitKind where
  | array | vector | jig | fabric | adit
deriving DecidableEq, Repr

/-- Where the rows of a vector operator's run of 64 rows lie in the scratch of its core (R254, R268): the rows of operand
slots 0, 1 and 3 and of the output, one after another in storage units. -/
structure OpRun where
  in0 : Nat
  in1 : Nat
  in3 : Nat
  out : Nat
deriving DecidableEq, Repr

/-- What a command of a task's stream does, as far as the sequencer looks at it (R159, R254): the charges of output tile
(`rt`, `ct`), full or assay, against weight tile `kt`, one for each of its parts (R75); a run of a vector operator; or work
that has rows of its own in the table. -/
inductive CmdWork where
  | charge (rt ct kt : Nat) (assay : Bool)
  | operator (o : OpRun)
  | other
deriving DecidableEq, Repr

/-- One command of a task's stream (R159, R160, R218, R272): its unit, the commands, by place in the stream, it depends
on, its work, the pieces of data it needs present, those it brings into scratch (through a chute or not) and those whose
scratch it releases. Pieces are numbered by the plan. -/
structure TaskCmd where
  unit : UnitKind
  deps : List Nat
  work : CmdWork
  needs : List Nat
  brings : List Nat
  chute : Bool
  releases : List Nat
deriving DecidableEq, Repr

/-- What the seam sequencer loads with a task (R161, R166): the work counter and index it came from, the bytes of its
save area and of its working scratch, their scratch offset, its dry time, the outstanding limit that the placement sets
for its hoist queue (R216), and its command stream. -/
structure TaskSpec where
  counter : Fin 64
  index : Nat
  saveBytes : Nat
  workBytes : Nat
  base : Nat
  dry : Option Time
  maxOut : Fin 128
  cmds : List TaskCmd
deriving DecidableEq, Repr

/-- Why a core switches tasks (R162): the running task had no ready command for so many KCLK cycles, or an earlier dry
time. -/
inductive SwitchCause where
  | wait (cycles : Nat)
  | dry
deriving DecidableEq, Repr

/-! ## Arrays and vats -/

/-- The modes of a weight tile (R57). -/
inductive ArrayMode where
  | mac | mac2 | absdiff | xorcount | gtcount
deriving DecidableEq, Repr

/-- The initial value of a vat tile (R97): zero, or the LOAD tensor's tile at output row tile `rt` and column tile
`ct`. -/
inductive TileInit where
  | zero
  | load (desc : Nat) (rt ct : Nat)
deriving DecidableEq, Repr

/-- A disturbance of a drain integer by a fault: half, column (64 is the tally column) and the error added. -/
structure Upset where
  half : Fin 2
  col : Fin 65
  error : Int
deriving DecidableEq, Repr

/-! ## Scratch -/

/-- The requesters of a scratch bank, in the order of R156. -/
inductive ScrRequester where
  | fabricWrite | feeder | loader | vector | jig | vat | fabricRead | mgmt
deriving DecidableEq, Repr

/-- What a check of stored bits found. -/
inductive EccFinding where
  | clean | corrected | uncorrectable
deriving DecidableEq, Repr

/-- One request to a bank (R155, R157): window offset of the first byte, the bytes written (none for a read) and what
the check bits show on a read. -/
structure ScrRequest where
  who : ScrRequester
  offset : Nat
  write : Option (List Byte)
  ecc : EccFinding
deriving DecidableEq, Repr

/-! ## Vector engine -/

/-- A vector register, v0 to v31 (R161). -/
abbrev VReg := Fin 32

/-- Formats of the arithmetic class (R170); BF16 and FP16 are packed, two to a lane (R168). -/
inductive VeFormat where
  | fp32 | int32 | bf16 | fp16
deriving DecidableEq, Repr

/-- Rounding modifiers (R169). -/
inductive Rounding where
  | rne | rtz | rup | rdn
deriving DecidableEq, Repr

/-- Relations of CMP (R170). -/
inductive CmpRel where
  | eq | ne | lt | le | gt | ge | unord
deriving DecidableEq, Repr

/-- Operands of an arithmetic instruction with two sources. -/
structure VeBin where
  at_ : SlotId
  fmt : VeFormat
  rnd : Rounding
  dst : VReg
  a : VReg
  b : VReg
deriving DecidableEq, Repr

/-- Operands of an arithmetic instruction with one source. -/
structure VeUn where
  at_ : SlotId
  fmt : VeFormat
  rnd : Rounding
  dst : VReg
  a : VReg
deriving DecidableEq, Repr

/-- Operands of an instruction over INT32 lanes with two sources. -/
structure VeLogic where
  at_ : SlotId
  dst : VReg
  a : VReg
  b : VReg
deriving DecidableEq, Repr

/-- Operands of a special-class instruction (R171). -/
structure VeSpecial where
  at_ : SlotId
  rnd : Rounding
  dst : VReg
  a : VReg
deriving DecidableEq, Repr

/-- CVT modifiers (R28): RND is RTZ, OVF is INF, SCL is OCP. -/
structure CvtMod where
  rtz : Bool
  inf : Bool
  ocp : Bool
deriving DecidableEq, Repr

/-- Source of a CVT (R168, R170): the 64 lanes of a vector register in a scalar format; row `row` of the closed vat tile
at granule `tile`; or 64 elements of a bundle in scratch, blocks `2 * pair` and `2 * pair + 1`. -/
inductive CvtSrc where
  | reg (v : VReg) (fmt : Nat)
  | vat (tile : Nat) (row : Nat)
  | bundle (offset : Nat) (fmt : Nat) (pair : Fin 4)
deriving DecidableEq, Repr

/-- Target of a CVT: a vector register in a scalar format, or two blocks of a bundle in scratch. -/
inductive CvtDst where
  | reg (v : VReg) (fmt : Nat)
  | bundle (offset : Nat) (fmt : Nat) (pair : Fin 4)
deriving DecidableEq, Repr

/-- Which of a CVT's 64 positions are columns that are not live (R414) and which are padding (R17). -/
structure CvtCover where
  dead : List Nat
  padded : List Nat
deriving DecidableEq, Repr

/-- Operands of an indexed instruction (R173): index register, data register, region of scratch (offset and number of
elements) and fill value. -/
structure VeIndexed where
  at_ : SlotId
  data : VReg
  index : VReg
  region : Nat
  count : Nat
  fill : Word
deriving DecidableEq, Repr

/-- Operands of MERGE (R86, R88): the row of A and the column of B, K, and the scratch offset of the result element. The
tensors are those of the task's node. -/
structure MergeSpec where
  at_ : SlotId
  row : Nat
  col : Nat
  lenK : Nat
  dst : Nat
deriving DecidableEq, Repr

/-! ## Adit -/

/-- A disturbance of a sum of an adit unit's lanes (R139): the row of the operation and the weight tile whose sum it falls
into, and where in it. -/
structure AditUpset where
  row : Nat
  kt : Nat
  at_ : Upset
deriving DecidableEq, Repr

/-! ## Hoists, DRAM, links -/

/-- The padding of a storage unit that a run writes (R17, R67): its layout and format, how many indices of dimension 0 in it
are not padding, and how far into the unit the run begins. -/
structure UnitPad where
  layout : Nat
  format : Nat
  live : Nat
  skip : Nat
deriving DecidableEq, Repr

/-- One run of a transfer (R206): source and destination module addresses and length; a fill run (R190) carries its
bytes and has no source; the last unit of a padded row is a run of its own. -/
structure MoveRun where
  src : Addr
  dst : Addr
  len : Nat
  fill : Option (List Byte)
  pad : Option UnitPad := none
deriving DecidableEq, Repr

/-- A car of a train that a TRAM_FEED command feeds (R237, R238): first and last keeping position, scratch offset, train, and
the module address and length of its payload. -/
structure CarSpec where
  firstZ : Nat
  lastZ : Nat
  offset : Nat
  train : Nat
  src : Addr
  len : Nat
deriving DecidableEq, Repr

/-- A hoist command (R214): its runs, its dry time (R217), the commands of its task's stream that it waits for (R218),
whether it moves at the reduced rate (R196), and the train that it feeds, which a TRAM_FEED command has in place of runs
(R238). -/
structure HoistCmd where
  runs : List MoveRun
  dry : Option Time
  deps : List Nat
  slow : Bool
  train : List CarSpec := []
deriving DecidableEq, Repr

/-- A tram car in the chain (R237): first and last keeping position, scratch offset, train and payload words of 64 B. -/
structure Car where
  firstZ : Nat
  lastZ : Nat
  offset : Nat
  train : Nat
  payload : List Byte
  poisoned : Bool
deriving DecidableEq, Repr

/-- The three traffic classes (R209). -/
inductive DramClass where
  | read | write | remote
deriving DecidableEq, Repr

/-- A link direction of a seam, in the order of R243. -/
inductive LinkDir where
  | east | west | south | north | hub
deriving DecidableEq, Repr

/-- The classes of words on a link (R224). -/
inductive LinkClass where
  | hoist | chute | tram
deriving DecidableEq, Repr

/-! ## Chutes -/

/-- A packet as it arrives at an endpoint (R228, R230): its 32-bit header, its bytes, whether a word or the header was
uncorrectable, and how many single-bit errors were corrected. -/
structure Packet where
  header : Word
  data : List Byte
  bad : Bool
  fixed : Nat
deriving DecidableEq, Repr

/-! ## Port -/

/-- Who a frame says it is for and from, and what its layers hold, as far as R280 and R281 look at it; how many of its FEC
codewords were corrected and how many were uncorrectable (R280, R308), and whether it ends in the same PCLK cycle as the frame
before it (R292). -/
structure RxFrame where
  size : Nat
  fcsOk : Bool
  dstMac : Nat
  srcMac : Nat
  vids : List Nat
  etherType : Nat
  ipOk : Bool
  ipProto : Nat
  hopLimit : Nat
  dstIp : Nat
  srcIp : Nat
  udpOk : Bool
  srcPort : Nat
  dstPort : Nat
  fecFixed : Nat := 0
  fecBad : Nat := 0
  sameCycle : Bool := false
deriving DecidableEq, Repr

/-- An ILT packet (R288): the header fields, the payload and the CRC32C trailer. -/
structure IltPacket where
  ver : Byte
  type : Byte
  session : BitVec 16
  token : Word
  psn : Word
  lsn : Word
  chdr : Word
  plen : BitVec 16
  flags : Byte
  rsvd : Byte
  arg0 : Word
  arg1 : Word
  payload : List Byte
  crc : Word
deriving DecidableEq, Repr

/-- The 16 B header of a management frame (R305). -/
structure MgmtHeader where
  ver : Byte
  op : Byte
  status : BitVec 16
  session : BitVec 16
  rsvd : BitVec 16
  token : Word
  reqId : Word
deriving DecidableEq, Repr

/-- A management frame: the frame that carried it, its header and its body. -/
structure MgmtFrame where
  frame : RxFrame
  header : MgmtHeader
  body : List Byte
deriving DecidableEq, Repr

/-- Whether each part of a signature verifies: Ed25519 and ML-DSA-65 (R369). Their standards are named and not given, so
the verdict comes with the command that has the signature checked (log entry 16). -/
structure SigVerdict where
  ed : Bool
  mldsa : Bool
deriving DecidableEq, Repr

/-- What the checks of an image find that rest on named standards (R370): SFDP readable and within R367, the named key
set's digest, the two signatures, and the digests of STAGE1, the factory section and STAGE2. -/
structure ImageVerdict where
  sfdp : Bool
  keyDigest : Bool
  sig : SigVerdict
  stage1 : Bool
  factory : Bool
  stage2 : Bool
deriving DecidableEq, Repr

/-- The answer to an OPEN that this module sent (R287): its status and, when OK, session, token and grants. -/
structure OpenAnswer where
  status : Nat
  session : Fin 2048
  token : Word
  grants : Word
deriving DecidableEq, Repr

/-! ## Journal and faults -/

/-- Kinds of journal write (R345, R354). -/
inductive RecordKind where
  | lot | response | table | commit | retire
deriving DecidableEq, Repr

/-- A mirrored journal write as the twin receives it (R354). -/
structure MirrorRecord where
  lsn : Word
  kind : RecordKind
  key : Nat
  bytes : List Byte
deriving DecidableEq, Repr

/-- A report to the deputy (R333), by the unit and the finding. -/
inductive FaultReport where
  | corrected
  | arrayMismatch (a : ArrayId)
  | arrayTest (a : ArrayId)
  | repeatFail (a : ArrayId)
  | auditFail (a : ArrayId)
  | aditResidue (u : AditId)
  | scratchUe (c : CoreId)
  | dramUe (c : ChanId) (offset : Nat)
  | dramController (s : Fin 16)
  | translation (q : QueueId)
  | seamPll (s : Fin 16)
  | sequencer (s : Fin 16)
  | fabric (s : Fin 16)
  | hubUe
  | hubPll
  | thermalTrip
  | journalCopy (second : Bool)
deriving DecidableEq, Repr

/-- What the start-up test of an array finds (R128): its failing cells (physical row and column), and the column of a
failing drain or chain register. -/
structure ArrayFinding where
  array : ArrayId
  cells : List (Fin 65 × Fin 65)
  chain : Option (Fin 65)
  retestOk : Bool
deriving DecidableEq, Repr

/-- What a step of the start sequence finds (R378): the image verdicts of step 3 and 7, whether the owner's signature over
the user section verifies (step 4), how many bonds of a channel fail training (step 6), array findings, failing adit units and
LIGHT entries in mV by seam (step 8). -/
structure StartFindings where
  imageA : ImageVerdict
  imageB : ImageVerdict
  userSig : SigVerdict
  trained : List (ChanId × Nat)
  arrays : List ArrayFinding
  badAdits : List AditId
  light : List (Fin 16 × Nat)
deriving DecidableEq, Repr

/-- Causes of a warm reset (R352), with START_KIND (R387). -/
inductive WarmCause where
  | pin | depCtrl | lockstep | dclk | release
deriving DecidableEq, Repr

/-- Temperatures of one sample (R365), in °C: seam dies, DRAM stacks, hub. -/
structure Temperatures where
  logic : List Nat
  dram : List Nat
  hub : Nat
deriving DecidableEq, Repr

/-! ## The commands -/

/-- The 190 rows of the table of operations and events, in its order. -/
inductive Instr where
  -- lot commands
  | alloc (ctx : CmdCtx) (seam : Byte) (size : Nat)
  | free (ctx : CmdCtx) (base : Addr)
  | allocationRelease (base : Addr)
  | descCreate (ctx : CmdCtx) (record : List Byte)
  | descDestroy (ctx : CmdCtx) (handle : Word)
  | descriptorDestroyed (index : Nat)
  | put (ctx : CmdCtx) (addr : Addr) (data : List Byte)
  | get (ctx : CmdCtx) (addr : Addr) (len : Nat)
  | graphLoad (ctx : CmdCtx) (addr : Addr) (len : Nat)
  | graphUnload (ctx : CmdCtx) (handle : Word)
  | run (ctx : CmdCtx) (handle : Word) (jobId : Word) (record : Addr)
  | cancel (ctx : CmdCtx) (jobId : Word)
  -- jobs and tasks
  | jobStart (job : Nat)
  | nodeStart (job : Nat) (node : Nat) (plan : NodePlan)
  | jobComplete (job : Nat)
  | fetchAndAdd (seam : Fin 16) (counter : Fin 64) (who : Requester)
  | taskComplete (seam : Fin 16) (counter : Fin 64) (index : Nat) (slot : Option SlotId)
  | taskLoad (slot : SlotId) (spec : TaskSpec)
  | commandIssue (slot : SlotId) (unit : UnitKind) (completed : List Nat)
  | taskSwitch (core : CoreId) (cause : SwitchCause)
  | taskAbort (slot : SlotId)
  -- arrays
  | chargeStart (array : ArrayId) (slot : Fin 4) (cmd : Nat)
  | weightTileLoad (array : ArrayId) (slot : Fin 4) (cmd : Nat) (image : Nat)
  | vectorSchedule (array : ArrayId) (record : Nat)
  | idleSlot (array : ArrayId)
  | arrayFreeze (array : ArrayId)
  | drainPartial (array : ArrayId) (upsets : List Upset)
  -- vats
  | vatAccept (array : ArrayId)
  | x64Shift (array : ArrayId)
  | x64Loss (array : ArrayId)
  | tileOpen (slot : SlotId) (rt ct : Nat) (assay : Bool)
  | tileInitDone (core : CoreId) (tile : Nat)
  | tileClose (core : CoreId) (tile : Nat)
  | partCombine (core : CoreId) (left : Nat) (right : Addr)
  | vatSave (core : CoreId) (tile : Nat) (offset : Nat)
  | vatRestore (slot : SlotId) (rt ct : Nat) (assay : Bool) (offset : Nat)
  -- scratch
  | scratchAccess (core : CoreId) (requests : List ScrRequest)
  | scratchStarvePromote (core : CoreId) (bank : Fin 32) (who : ScrRequester)
  -- vector engine
  | veAdd (o : VeBin)
  | veSub (o : VeBin)
  | veMul (o : VeBin)
  | veFma (o : VeBin) (c : VReg)
  | veMin (o : VeBin)
  | veMax (o : VeBin)
  | veAbs (o : VeUn)
  | veNeg (o : VeUn)
  | veDot4 (o : VeLogic)
  | veAnd (o : VeLogic)
  | veOr (o : VeLogic)
  | veXor (o : VeLogic)
  | veNot (o : VeLogic)
  | veShl (o : VeLogic)
  | veShr (o : VeLogic)
  | veSar (o : VeLogic)
  | veCmp (o : VeBin) (rel : CmpRel)
  | veSel (o : VeBin) (c : VReg)
  | veRcp (o : VeSpecial)
  | veRsqrt (o : VeSpecial)
  | veSqrt (o : VeSpecial)
  | veDiv (o : VeBin)
  | veExp2 (o : VeSpecial)
  | veLog2 (o : VeSpecial)
  | veTanh (o : VeSpecial)
  | veErf (o : VeSpecial)
  | veRedsum (o : VeUn)
  | veRedmax (o : VeUn)
  | veRedmin (o : VeUn)
  | veCvt (at_ : SlotId) (src : CvtSrc) (dst : CvtDst) (mods : CvtMod) (cover : CvtCover)
  | veLd (at_ : SlotId) (dst : VReg) (offset : Nat)
  | veSt (at_ : SlotId) (src : VReg) (offset : Nat)
  | veGather (o : VeIndexed)
  | veScatter (o : VeIndexed)
  | veScatterAdd (o : VeIndexed)
  | merge (m : MergeSpec)
  -- adit and assay
  | aditColumnGroup (unit : AditId) (counter : Fin 64) (index : Nat) (core : CoreId) (upsets : List AditUpset)
      (untranslated : Bool)
  | aditProbe (graph : Fin 256) (node : Nat)
  | assayPass (array : ArrayId) (record : Nat)
  | assayBound (slot : SlotId) (rt ct : Nat)
  | assayAudit (slot : SlotId) (rt ct : Nat) (row : Fin 64)
  | assaySumsRecompute (core : CoreId) (table : Addr)
  -- hoists
  | hoistCommand (queue : QueueId) (cmd : HoistCmd)
  | copy (queue : QueueId) (src : Nat) (dst : Nat) (perm : List Nat) (dry : Option Time)
  | hoistGather (queue : QueueId) (src : Nat) (idx : Nat) (dst : Nat) (dim : Nat) (dry : Option Time)
  | hoistScatter (queue : QueueId) (src : Nat) (idx : Nat) (dst : Nat) (dim : Nat) (dry : Option Time)
  | hoistScatterAdd (queue : QueueId) (job : Nat) (node : Nat) (task : Nat) (src : Nat) (idx : Nat) (dst : Nat) (dim : Nat) (first : Nat) (count : Nat)
  | scatterAddCommit (job : Nat) (node : Nat) (task : Nat)
  | broadcast (queue : QueueId) (cars : List CarSpec)
  | segmentIssue (seam : Fin 16) (hoist : Fin 8) (untranslated : List Addr)
  | segmentComplete (queue : QueueId) (segment : Nat) (poisoned : Bool)
  | descriptorBatchFetch (queue : QueueId) (cmds : List HoistCmd)
  | doorbell (queue : QueueId) (cmds : List HoistCmd)
  | descriptorRefetchTimeout (queue : QueueId) (cmds : List HoistCmd)
  -- DRAM and links
  | dramSlot (chan : ChanId) (errors : List (Nat × Nat))
  | scrub (chan : ChanId)
  | refresh (chan : ChanId)
  | linkWord (seam : Fin 16) (dir : LinkDir) (waiting : List LinkClass) (ecc : EccFinding)
  -- chutes and the tram
  | packetCommit (ep : EndpointId) (packet : Packet)
  | commitReceived (ep : EndpointId)
  | rewoundReceived (ep : EndpointId)
  | grantReceived (ep : EndpointId)
  | consumerRead (ep : EndpointId) (addr : Addr) (len : Nat) (poisoned : Bool)
  | closeMark (ep : EndpointId)
  | fillTimerExpiry (ep : EndpointId)
  | tailNotice (ep : EndpointId)
  | readTimerExpiry (ep : EndpointId)
  | chuteReset (ep : EndpointId)
  | carHop (core : CoreId) (car : Car) (injected : Bool) (ecc : EccFinding)
  | tramStall (core : CoreId)
  -- management
  | hello (req : MgmtFrame)
  | openSession (req : MgmtFrame) (sig : SigVerdict)
  | shut (req : MgmtFrame)
  | mgmtFrameReceive (req : MgmtFrame)
  | read (req : MgmtFrame)
  | write (req : MgmtFrame) (sig : SigVerdict)
  | abort (req : MgmtFrame)
  | announce
  | hqCfgWrite (queue : QueueId) (value : Word)
  | chCtrlReset (ep : EndpointId) (value : Word)
  | depCtrlWarm (value : Word)
  | depCtrlRestoreSkip (value : Word)
  | program (value : Word)
  | verify (value : Word)
  | imgProgDone (ok : Bool) (errCode : Fin 8) (verdict : ImageVerdict)
  | enrol (value : Word) (sig : SigVerdict)
  | release (value : Word) (signed : Bool)
  | ownerOpDone
  | go (value : Word)
  | attestationReady
  -- port
  | rxFrameError (frame : RxFrame)
  | data (frame : RxFrame) (p : IltPacket)
  | ack (frame : RxFrame) (p : IltPacket)
  | nak (frame : RxFrame) (p : IltPacket)
  | tail (frame : RxFrame) (p : IltPacket)
  | close (frame : RxFrame) (p : IltPacket)
  | reset (frame : RxFrame) (p : IltPacket)
  | chuteResetRetry (session : Fin 2048)
  | lotAccept (session : Fin 2048)
  | responseSend (session : Fin 2048)
  | retransmitTimeout (session : Fin 2048)
  | nakRepeat (session : Fin 2048)
  | resyncNak (session : Fin 2048)
  | frameTransmit
  | arpRequest (frame : RxFrame) (target : Nat)
  | neighborSolicitation (frame : RxFrame) (target : Nat)
  | pfcFrame (frame : RxFrame) (opcode : Nat) (enable : Byte) (times : List Nat)
  | pauseExpiry (priority : Fin 8)
  | pauseFrame (frame : RxFrame)
  | linkUp (mode : Fin 8)
  | linkDown
  -- journal and mirror
  | journalWriteDone (id : Nat) (ok0 : Bool) (ok8 : Bool)
  | mirrorAck (lsn : Word)
  | mirrorRecord (r : MirrorRecord)
  | mirrorReopen
  | journalRestore (records : List MirrorRecord)
  | restoreRetry
  | journalReplay
  -- faults, tests, resets, power
  | faultEvent (r : FaultReport)
  | heldJobResume (job : Nat)
  | coreStallTimeout (core : CoreId)
  | arrayTestPeriodic (array : ArrayId)
  | lockstepMismatch
  | warmReset (cause : WarmCause)
  | powerOn
  | startStepDone (f : StartFindings)
  | resetNAssert (ns : Nat)
  | resetNRelease
  | inputVoltageEvent (centivolts : Nat)
  | shutdown (centivolts : Nat) (centiamps : Nat) (ns : Nat)
  | mateRemoval
  | temperatureSample (t : Temperatures)
  | tripLatchClear
  | refClockLost
  | pllUnlock (seam : Fin 16) (domain : SeamDomain) (dropped : Nat)
  | hubPllUnlock (fclk : Bool) (dropped : Nat)
  | hubPllRestart (fclk : Bool) (locks : Bool)
  | dclkUnlock
  | dclkLockTimeout
  | domainStop (d : DomainId) (dropped : Nat)
  | domainStart (d : DomainId)
  | domainResetAssert (d : DomainId) (dropped : Nat)
  | domainResetRelease (d : DomainId)
  | replicaCompare (replica : Fin 34) (reading : Time)
  -- calibration
  | calWindow (seam : Fin 16) (load : Nat) (margin : Nat)
  | calDescentStep (seam : Fin 16) (held : Bool)
  | seamIdle (seam : Fin 16)
  | seamWake (seam : Fin 16)
  -- later rows of the table
  | arrayTestDone (array : ArrayId) (failing : Bool)
  | openResponse (out : Nat) (answer : OpenAnswer)
  | helloResponse (out : Nat) (nonce : BitVec 128)
  | refClockRestored
deriving DecidableEq, Repr

end Sys2Proof
end

