-- ==== Sys2Proof/Machine/Bytes.lean ====
section
/-! DEFINITION. Byte order, bit fields, signed readings and CRC32C. Memory is little-endian in bytes and bits; headers of
frames and ILT packets are in network order (R5). -/

namespace Sys2Proof.Machine

/-- The number that bytes spell, least significant byte first (R5). -/
def leNat (bs : List Byte) : Nat :=
  bs.foldr (fun b n => b.toNat + 256 * n) 0

/-- The `n` bytes of a number, least significant first. -/
def leBytes (n v : Nat) : List Byte :=
  (List.range n).map fun i => BitVec.ofNat 8 (v / 256 ^ i)

/-- The number that bytes spell in network order (R5). -/
def beNat (bs : List Byte) : Nat :=
  bs.foldl (fun n b => 256 * n + b.toNat) 0

/-- The `n` bytes of a number in network order. -/
def beBytes (n v : Nat) : List Byte :=
  (leBytes n v).reverse

/-- `n` bytes of a list from offset `off`, 0 where the list ends before. -/
def sliceBytes (bs : List Byte) (off n : Nat) : List Byte :=
  (List.range n).map fun i => bs.getD (off + i) 0

/-- The little-endian number in `n` bytes at offset `off`. -/
def leAt (bs : List Byte) (off n : Nat) : Nat :=
  leNat (sliceBytes bs off n)

/-- The network-order number in `n` bytes at offset `off`. -/
def beAt (bs : List Byte) (off n : Nat) : Nat :=
  beNat (sliceBytes bs off n)

/-- Bits [hi:lo] of a number. -/
def bitField (v hi lo : Nat) : Nat :=
  v / 2 ^ lo % 2 ^ (hi + 1 - lo)

/-- Bit `i` of a number. -/
def bitAt (v i : Nat) : Bool :=
  v / 2 ^ i % 2 == 1

/-- The two's complement reading of the low `w` bits of a number. -/
def signedOf (w v : Nat) : Int :=
  if v % 2 ^ w < 2 ^ (w - 1) then (v % 2 ^ w : Nat) else (v % 2 ^ w : Nat) - (2 ^ w : Nat)

/-- The two's complement pattern of an integer in `w` bits. -/
def unsignedOf (w : Nat) (v : Int) : Nat :=
  (v % (2 ^ w : Nat)).toNat

/-- A Boolean as a bit. -/
def bitOf (b : Bool) : Nat :=
  if b then 1 else 0

/-- A number whose bits are the numbers of a list. -/
def maskOf (l : List Nat) : Nat :=
  l.eraseDups.foldl (fun n i => n + 2 ^ i) 0

/-- The smallest multiple of `m` not below `n`. -/
def roundUp (n m : Nat) : Nat :=
  (n + m - 1) / m * m

/-- The bits of bytes, each byte from its least significant bit (R5). -/
def bitsOf (bs : List Byte) : List Bool :=
  bs.flatMap fun b => (List.range 8).map fun i => b.getLsbD i

/-- The little-endian words of bytes. -/
def leWords (bs : List Byte) : List Word :=
  (List.range (bs.length / 4)).map fun i => BitVec.ofNat 32 (leAt bs (4 * i) 4)

/-- The bytes of words, little-endian. -/
def wordBytes (ws : List Word) : List Byte :=
  ws.flatMap fun w => leBytes 4 w.toNat

/-! ## CRC32C -/

/-- One bit of CRC32C, reflected polynomial 0x82F6_3B78 (log entry 18). -/
def crcBit (c : Word) : Word :=
  if c.getLsbD 0 then (c >>> 1) ^^^ 0x82F63B78 else c >>> 1

/-- One byte of CRC32C. -/
def crcByte (c : Word) (b : Byte) : Word :=
  Nat.repeat crcBit 8 (c ^^^ b.setWidth 32)

/-- CRC32C of bytes (log entry 18). -/
def crc32c (bs : List Byte) : Word :=
  ~~~(bs.foldl crcByte 0xFFFFFFFF)

end Sys2Proof.Machine
end

