-- ==== Sys2Proof/Config.lean ====
section
/-! DEFINITION. What is fixed for the module and what its manual leaves open. The open values are opaque constants:
nothing in Lean can evaluate them, so a statement about them holds for every choice (log entry 3). -/

namespace Sys2Proof.Config

/-! ## Figures of the manual -/

/-- Bytes of populated DRAM in a seam, 24 GiB (R6). -/
def dramBytes : Nat := 0x600000000

/-- Size of one seam's window (R6). -/
def seamWindow : Nat := 0x800000000

/-- First address of the core windows (R6). -/
def coreBase : Nat := 0x10000000000

/-- Host-allocatable bytes of seam `s` (R7). -/
def hostBytes (s : Nat) : Nat :=
  if s = 0 ∨ s = 8 then 0x5EC000000 else 0x5FC000000

/-- Entries of the descriptor table (R177). -/
def descSlots : Nat := 262144

/-- Loaded graphs (R246). -/
def graphSlots : Nat := 256

/-- Bytes of NOR that are used (R367). -/
def norBytes : Nat := 0x4000000

/-- The key of DEP_CTRL (R358) and OWNER_CTRL (R387). -/
def key : Nat := 0xA5C3

/-! ## Values the manual leaves open

Each is applied to what it may depend on; where it may differ from one use to the next, to the model's own counter
`State.freeCount` as well. -/

/-- A value of the implementation's choice, the `n`th such value of a run: the place of an allocation (R245), a session
token (R286), a nonce (R286, R375). -/
opaque choice : Nat → Nat

/-- What an INT32 operation gives when the exact result lies outside the format (R170 states none), by operation number
and operands. -/
opaque intOverflow : Nat → Word → Word → Word → Word

/-- What MIN or MAX gives for a NaN operand, or for zeros of opposite sign (R170 states none), by operation number and
operands. -/
opaque minMaxOpen : Nat → Nat → Nat → Nat

/-- What SHL, SHR and SAR give for a count of 32 or more (R170 states none), by operation number and operands. -/
opaque shiftOpen : Nat → Word → Word → Word

/-- The word CMP writes for true (R170 states none). -/
opaque cmpTrue : Word

/-- A candidate for the word CMP writes for false; `cmpWord` keeps it apart from `cmpTrue`. -/
opaque cmpFalse : Word

/-- Which way SEL goes on an element that is neither of the words CMP writes (R170 states none): true for its first
value operand. -/
opaque selOpen : Word → Bool

/-- Which of the results allowed by the bounds of R171 a special function takes, by function, rounding and operand. -/
opaque specialPick : Nat → Nat → Word → Nat

/-- The result of a special function at a point where the exact function has no value (R171 states none), by function
and operand. -/
opaque specialOpen : Nat → Word → Word

/-- What the address `a` of the module gives, which R6 leaves unpopulated, reserved or unassigned (no rule states it). -/
opaque unbacked : Nat → Byte

/-- What a word of scratch that is marked as poisoned gives the unit that reads it (R158 states none), by the `n`th such
read and offset. -/
opaque poisonByte : Nat → Nat → Byte

/-- The lane of softmax's first step, (x − max) × log2 e, which FMA forms (R173; the operands of the FMA are not stated),
from x and the maximum. -/
opaque softmaxArg : Word → Word → Word

/-- The lane of LAYER normalisation whose squares are summed (R254; the sequence is not stated), from the number of
elements, their sum and x. -/
opaque normCentre : Nat → Word → Word → Word

/-- The operand of the RSQRT of RMS (0) or LAYER (1) normalisation (R254; how it is formed is not stated), from the number
of elements, the sum of squares and eps. -/
opaque normArg : Nat → Nat → Word → Word → Word

/-- The lane that RMS (0) or LAYER (1) normalisation gives (R254; the sequence after RSQRT is not stated), from the element
(centred for LAYER), the result of RSQRT, gain and bias. -/
opaque normLane : Nat → Word → Word → Word → Word → Word

/-- What a task takes from an operand at a place that its shape has and the operand's own does not (R199), by the `n`th
such use and the place. -/
opaque shapeOpen : Nat → Nat → Word

/-- The element a merge gives whose streams break order (R90: unpredictable), by the `n`th use. -/
opaque mergeOpen : Nat → Word

/-- The X64 entry of a LOAD from a tensor that is not INT32, which only a DYNAMIC list can name (R97 and R264 state none),
by place in the tile and stored bits. -/
opaque loadOpen : Nat → Nat → BitVec 64

/-- The bank and the row of its channel in which granule `g` of a seam's DRAM lies (R203 states no numbering). -/
opaque dramPlace : Nat → Nat × Nat

/-- Which 16 KiB of the deputy area of a seam's DRAM hold the descriptor ring of a hoist (R220 states no place), by the hoist's
number in the module. -/
opaque ringPlace : Nat → Nat

/-- The byte that remains where two unordered writes meet (R157, R188, R199), by the `n`th use. -/
opaque raceByte : Nat → Byte

/-- SHA-512 of a byte string: the standard is named by R369 and not given. -/
opaque sha512 : List Byte → List Byte

/-- The device's Ed25519 and ML-DSA-65 signatures over a digest (R382): the standards are named and not given. -/
opaque deviceSign : Nat → List Byte → List Byte

/-- The low 32 bits of a task's identifier (R174; how it is formed is not stated), by job, stage, work counter and
index. -/
opaque taskIdent : Nat → Nat → Nat → Nat → Word

/-- The bytes of the identity window behind the MAC address: the device's public keys and its certificate, from
manufacturing (R381). -/
opaque deviceCert : Nat → Byte

/-- The words CMP writes: two different words (log entry 15). -/
def cmpWord (b : Bool) : Word :=
  if b then cmpTrue else if cmpFalse = cmpTrue then ~~~cmpTrue else cmpFalse

end Sys2Proof.Config
end

