-- ==== Sys2Proof/Machine/Float.lean ====
section
/-! DEFINITION. Exact values and their rounding into the floating formats: FP32, BF16, FP16 (R10), A40 (R18) and the
element formats of *MX element encodings* (R12). Every operation forms its exact result and rounds once (R169). -/

namespace Sys2Proof.Machine

/-! ## Exact values -/

/-- A value: NaN, an infinity with its sign, or the finite value `(-1)^neg * m * 2^e`, where a zero keeps its sign. -/
inductive FVal where
  | nan
  | inf (neg : Bool)
  | fin (neg : Bool) (m : Nat) (e : Int)
deriving DecidableEq, Repr

/-- `2^n` for a natural part of an integer exponent; 1 for a negative one. -/
def pow2 (n : Int) : Nat :=
  2 ^ n.toNat

/-- The exact value `n * 2^e` of an integer. A zero is positive. -/
def fvalOfInt (n e : Int) : FVal :=
  .fin (n < 0) n.natAbs e

/-- The integer `± m * 2^(e - lo)` that a finite value is on the grid `2^lo`, for `lo ≤ e`. -/
def onGrid (neg : Bool) (m : Nat) (e lo : Int) : Int :=
  if neg then -((m * pow2 (e - lo) : Nat) : Int) else ((m * pow2 (e - lo) : Nat) : Int)

/-- `floor(log2 (m * 2^e))` for a nonzero `m`. -/
def magOf (m : Nat) (e : Int) : Int :=
  (Nat.log2 m : Int) + e

/-- Whether `m1 * 2^e1 ≤ m2 * 2^e2`. -/
def leMag (m1 : Nat) (e1 : Int) (m2 : Nat) (e2 : Int) : Bool :=
  m1 * pow2 (e1 - e2) ≤ m2 * pow2 (e2 - e1)

/-- Order of finite values, signed zeros being equal. -/
def finLt (n1 : Bool) (m1 : Nat) (e1 : Int) (n2 : Bool) (m2 : Nat) (e2 : Int) : Bool :=
  let lo := min e1 e2
  onGrid n1 m1 e1 lo < onGrid n2 m2 e2 lo

/-! ## Rounding -/

/-- `m * 2^e`, with `sticky` for a further nonzero part below it, as a whole number of steps `2^q`, rounded (R169). -/
def roundStep (rnd : Rounding) (neg : Bool) (m : Nat) (e : Int) (sticky : Bool) (q : Int) : Nat :=
  let num := m * pow2 (e - q)
  let sh := (q - e).toNat
  let base := num / 2 ^ sh
  let rest := num % 2 ^ sh
  let inexact := rest != 0 || sticky
  let up :=
    match rnd with
    | .rne =>
      if sh = 0 then false
      else if 2 * rest = 2 ^ sh then sticky || base % 2 == 1
      else decide (2 ^ sh < 2 * rest)
    | .rtz => false
    | .rup => !neg && inexact
    | .rdn => neg && inexact
  if up then base + 1 else base

/-- A binary floating format: exponent width, fraction width, bias, and which codes of the greatest exponent are
special. -/
structure FFormat where
  ebits : Nat
  fbits : Nat
  bias : Int
  /-- The greatest exponent holds infinities and NaNs as in IEEE 754. -/
  ieee : Bool
  /-- Every code of the greatest exponent but the last is finite, the last being NaN (E4M3). -/
  lastNan : Bool
deriving DecidableEq, Repr

def fp32 : FFormat := ⟨8, 23, 127, true, false⟩
def bf16 : FFormat := ⟨8, 7, 127, true, false⟩
def fp16 : FFormat := ⟨5, 10, 15, true, false⟩
def a40 : FFormat := ⟨8, 31, 127, true, false⟩
def e4m3 : FFormat := ⟨4, 3, 7, false, true⟩
def e5m2 : FFormat := ⟨5, 2, 15, true, false⟩
def e3m2 : FFormat := ⟨3, 2, 3, false, false⟩
def e2m3 : FFormat := ⟨2, 3, 1, false, false⟩
def e2m1 : FFormat := ⟨2, 1, 1, false, false⟩

/-- Exponent of the grid of subnormals: the format's smallest step. -/
def lsbExp (f : FFormat) : Int :=
  1 - f.bias - f.fbits

/-- The code of the greatest finite magnitude. -/
def maxCode (f : FFormat) : Nat :=
  if f.ieee then (2 ^ f.ebits - 1) * 2 ^ f.fbits - 1
  else if f.lastNan then 2 ^ (f.ebits + f.fbits) - 2
  else 2 ^ (f.ebits + f.fbits) - 1

/-- The code of positive infinity in an IEEE-like format. -/
def infCode (f : FFormat) : Nat :=
  (2 ^ f.ebits - 1) * 2 ^ f.fbits

/-- The code of the format's NaN: canonical for the formats of R11 and R18, 0x7F for E4M3 and 0x7E for E5M2 (R31). -/
def nanCode (f : FFormat) : Nat :=
  if f.ieee then infCode f + 2 ^ (f.fbits - 1) else 2 ^ (f.ebits + f.fbits) - 1

/-- A code with its sign bit. -/
def withSign (f : FFormat) (neg : Bool) (c : Nat) : Nat :=
  if neg then 2 ^ (f.ebits + f.fbits) + c else c

/-- Magnitude (mantissa and exponent) of the finite code `c` without sign. -/
def codeMag (f : FFormat) (c : Nat) : Nat × Int :=
  let ex := c / 2 ^ f.fbits
  let fr := c % 2 ^ f.fbits
  if ex = 0 then (fr, lsbExp f) else (2 ^ f.fbits + fr, lsbExp f + ((ex : Int) - 1))

/-- The value of a code (R10, R12, R18). -/
def decodeF (f : FFormat) (bits : Nat) : FVal :=
  let c := bits % 2 ^ (f.ebits + f.fbits)
  let neg := bits / 2 ^ (f.ebits + f.fbits) % 2 == 1
  if c ≤ maxCode f then .fin neg (codeMag f c).1 (codeMag f c).2
  else if f.ieee && c == infCode f then .inf neg
  else .nan

/-- The code of the magnitude `n * 2^q` where `n * 2^q` is on the format's grid, as if exponents had no upper bound. -/
def encodeMag (f : FFormat) (n : Nat) (q : Int) : Nat :=
  if n = 0 then 0
  else if magOf n q < 1 - f.bias then n * pow2 (q - lsbExp f)
  else
    let ex := magOf n q + f.bias
    let fr := n * pow2 ((f.fbits : Int) - Nat.log2 n) / pow2 ((Nat.log2 n : Int) - f.fbits) % 2 ^ f.fbits
    ex.toNat * 2 ^ f.fbits + fr

/-- The step to which a magnitude rounds: the significand's width, but no finer than the subnormal grid. -/
def stepOf (f : FFormat) (m : Nat) (e : Int) : Int :=
  max (lsbExp f) (magOf m e - f.fbits)

/-- The magnitude `m * 2^e` (and a sticky part) rounded to the format's significand width, as a code without sign;
a code above `maxCode` is beyond the range (R28). -/
def roundCode (f : FFormat) (rnd : Rounding) (neg : Bool) (m : Nat) (e : Int) (sticky : Bool) : Nat :=
  if m = 0 then 0
  else
    let q := stepOf f m e
    encodeMag f (roundStep rnd neg m e sticky q) q

/-- The code that overflow gives under IEEE 754 rounding: infinity, or the greatest finite value where the modifier
rounds toward zero (log entry 19). -/
def overflowCode (f : FFormat) (rnd : Rounding) (neg : Bool) : Nat :=
  match rnd, neg with
  | .rne, _ => infCode f
  | .rtz, _ => maxCode f
  | .rup, true => maxCode f
  | .rup, false => infCode f
  | .rdn, true => infCode f
  | .rdn, false => maxCode f

/-- A value rounded into an IEEE-like format: the canonical NaN, the infinities, gradual underflow and overflow. -/
def encodeF (f : FFormat) (rnd : Rounding) (v : FVal) (sticky : Bool := false) : Nat :=
  match v with
  | .nan => nanCode f
  | .inf neg => withSign f neg (infCode f)
  | .fin neg m e =>
    let c := roundCode f rnd neg m e sticky
    withSign f neg (if c ≤ maxCode f then c else overflowCode f rnd neg)

/-! ## Exact arithmetic -/

/-- The sign of an exact sum that is zero: the common sign of two zeros of one sign, else negative only under RDN (R101
for A40, IEEE 754 otherwise: log entry 19). -/
def zeroSign (rnd : Rounding) (n1 : Bool) (z1 : Bool) (n2 : Bool) (z2 : Bool) : Bool :=
  if z1 && z2 && n1 == n2 then n1 else rnd == .rdn

/-- The exact sum of two values (R101; IEEE 754 for the vector engine). -/
def addF (rnd : Rounding) (a b : FVal) : FVal :=
  match a, b with
  | .nan, _ => .nan
  | _, .nan => .nan
  | .inf x, .inf y => if x = y then .inf x else .nan
  | .inf x, .fin .. => .inf x
  | .fin .., .inf y => .inf y
  | .fin n1 m1 e1, .fin n2 m2 e2 =>
    let lo := min e1 e2
    let t := onGrid n1 m1 e1 lo + onGrid n2 m2 e2 lo
    if t = 0 then .fin (zeroSign rnd n1 (m1 == 0) n2 (m2 == 0)) 0 lo
    else .fin (t < 0) t.natAbs lo

/-- A value with its sign changed. -/
def negF : FVal → FVal
  | .nan => .nan
  | .inf n => .inf (!n)
  | .fin n m e => .fin (!n) m e

/-- The magnitude of a value. -/
def absF : FVal → FVal
  | .nan => .nan
  | .inf _ => .inf false
  | .fin _ m e => .fin false m e

/-- The exact product of two values. -/
def mulF (a b : FVal) : FVal :=
  match a, b with
  | .nan, _ => .nan
  | _, .nan => .nan
  | .inf x, .inf y => .inf (x != y)
  | .inf x, .fin y m _ => if m = 0 then .nan else .inf (x != y)
  | .fin y m _, .inf x => if m = 0 then .nan else .inf (x != y)
  | .fin x m1 e1, .fin y m2 e2 => .fin (x != y) (m1 * m2) (e1 + e2)

/-- A quotient to more bits than any format holds, with a sticky part. -/
def divF (a b : FVal) : FVal × Bool :=
  match a, b with
  | .nan, _ => (.nan, false)
  | _, .nan => (.nan, false)
  | .inf _, .inf _ => (.nan, false)
  | .inf x, .fin y _ _ => (.inf (x != y), false)
  | .fin x _ _, .inf y => (.fin (x != y) 0 0, false)
  | .fin x m1 e1, .fin y m2 e2 =>
    if m2 = 0 then (if m1 = 0 then .nan else .inf (x != y), false)
    else
      let k := 64 + Nat.log2 m2
      let num := m1 * 2 ^ k
      (.fin (x != y) (num / m2) (e1 - e2 - k), num % m2 != 0)

/-- One bit of an integer square root, from bit `2 * i` of the operand. -/
def isqrtBits (n : Nat) : Nat → Nat → Nat
  | 0, r => r
  | i + 1, r =>
    let t := r + 2 ^ i
    isqrtBits n i (if t * t ≤ n then t else r)

/-- The integer square root. -/
def isqrt (n : Nat) : Nat :=
  isqrtBits n (Nat.log2 n / 2 + 1) 0

/-- A square root to more bits than any format holds, with a sticky part. -/
def sqrtF (a : FVal) : FVal × Bool :=
  match a with
  | .nan => (.nan, false)
  | .inf n => (if n then .nan else .inf false, false)
  | .fin n m e =>
    if m = 0 then (.fin n 0 0, false)
    else if n then (.nan, false)
    else
      let odd := e % 2 == 1
      let num := (if odd then 2 * m else m) * 2 ^ 128
      let r := isqrt num
      (.fin false r ((if odd then e - 1 else e) / 2 - 64), r * r != num)

/-! ## Relations -/

/-- The relations of CMP on values; with a NaN only NE and UNORD hold (IEEE 754, log entry 19). -/
def relF (r : CmpRel) (a b : FVal) : Bool :=
  let lt (x y : FVal) : Bool :=
    match x, y with
    | .fin n1 m1 e1, .fin n2 m2 e2 => finLt n1 m1 e1 n2 m2 e2
    | .inf n1, .inf n2 => n1 && !n2
    | .inf n1, .fin .. => n1
    | .fin .., .inf n2 => !n2
    | _, _ => false
  if a = .nan || b = .nan then r == .ne || r == .unord
  else
    match r with
    | .eq => !lt a b && !lt b a
    | .ne => lt a b || lt b a
    | .lt => lt a b
    | .le => !lt b a
    | .gt => lt b a
    | .ge => !lt a b
    | .unord => false

/-- The relations of CMP on integers. -/
def relI (r : CmpRel) (a b : Int) : Bool :=
  match r with
  | .eq => a == b
  | .ne => a != b
  | .lt => a < b
  | .le => a ≤ b
  | .gt => b < a
  | .ge => b ≤ a
  | .unord => false

/-! ## The A40 adder -/

/-- What an A40 addition or conversion counts (R99, R101, R113). -/
structure A40Count where
  ovf : Bool := false
  nan : Bool := false
  ufl : Bool := false
deriving DecidableEq, Repr

/-- The A40 value of `n * 2^e`, with what it counts: overflow to infinity, and for a nonzero integer a result that is
zero or subnormal (R19, R99). A zero keeps the sign `neg`. -/
def a40Of (neg : Bool) (m : Nat) (e : Int) : Nat × A40Count :=
  let c := roundCode a40 .rne neg m e false
  if maxCode a40 < c then (withSign a40 neg (infCode a40), { ovf := true })
  else (withSign a40 neg c, { ufl := m != 0 && c < 2 ^ a40.fbits })

/-- `vat_add` of R101 on A40 codes, with what it counts. -/
def vatAdd (c x : Nat) : Nat × A40Count :=
  match decodeF a40 c, decodeF a40 x with
  | .nan, _ => (nanCode a40, {})
  | _, .nan => (nanCode a40, {})
  | .inf n1, .inf n2 => if n1 = n2 then (withSign a40 n1 (infCode a40), {}) else (nanCode a40, { nan := true })
  | .inf n1, .fin .. => (withSign a40 n1 (infCode a40), {})
  | .fin .., .inf n2 => (withSign a40 n2 (infCode a40), {})
  | .fin n1 m1 e1, .fin n2 m2 e2 =>
    match addF .rne (.fin n1 m1 e1) (.fin n2 m2 e2) with
    | .fin n m e =>
      let k := roundCode a40 .rne n m e false
      if maxCode a40 < k then (withSign a40 n (infCode a40), { ovf := true }) else (withSign a40 n k, {})
    | _ => (nanCode a40, {})

end Sys2Proof.Machine
end

