-- ==== Sys2Proof/Machine/State.lean ====
section
/-! DEFINITION. The state of the block, as plain data, and the state after reset. INVENTORY.md lists every field with
the rule that names it. Units that the module has many of are tables from the unit's number to its state; a unit that a
table does not list is in its reset state. A register that reports other state has no field of its own. -/

namespace Sys2Proof.Machine

/-! ## Time and clocks -/

/-- One clock domain (R316, R317). -/
structure Domain where
  running : Bool := false
  locked : Bool := false
  inReset : Bool := true
  live : Bool := false
deriving DecidableEq, Repr

/-- A replica of the local counter (R322): its value, and whether it is held until the counter passes it. -/
structure Replica where
  value : Time := 0
  held : Bool := false
deriving DecidableEq, Repr

/-- The local counter (R321, R331) and the clock domains. -/
structure Clocks where
  now : Time := 0
  tickThree : Bool := false
  hiLatch : Word := 0
  replicas : Table Replica := []
  doms : Table Domain := []
  dclkLocked : Bool := false
  dclkDead : Bool := false
  pclkTries : Nat := 0
  fclkTries : Nat := 0
deriving DecidableEq, Repr

/-! ## Power, start-up, identity -/

/-- Where the module is between power removal and service (R378). -/
inductive Phase where
  | off
  | step (n : Nat)
  | running
deriving DecidableEq, Repr

/-- The configuration fields with their factory values (R371). -/
structure ImageConfig where
  portMode : Nat := 1
  bringupOk : Bool := true
  vlanId : Nat := 0
  pcpData : Nat := 3
  pcpCtrl : Nat := 5
  pcpMgmt : Nat := 6
  family : Nat := 1
  iltPort : Nat := 28160
  mgmtPort : Nat := 28161
  iltRto : Nat := 200
  fieldBase : Nat := 0
  side : Nat := 0
  twin : Bool := false
  ipv6Prefix : Nat := 0xfd0000000000000000000000
  ipv4Base : Nat := 0x057F
  nextHopMac : Nat := 0
  announceAddr : Nat := 0
  announcePort : Nat := 0
  tallyWindow : Nat := 60
  arrayTestInterval : Nat := 900
  aditThreshold : Nat := 8
  aditAdapt : Bool := true
  switchWait : Nat := 16
  preemptGap : Nat := 200
  slack : Nat := 10000
  tapAllow : Bool := false
  tapUnlock : List Nat := []
  calFactory : List Nat := []
deriving DecidableEq, Repr

/-- An owner slot of the fuses (R374). -/
structure OwnerSlot where
  digest : List Byte
  released : Bool
deriving DecidableEq, Repr

/-- A PROGRAM or VERIFY in progress (R373). -/
structure ImgOp where
  verify : Bool
  targetB : Bool
  chunk : Nat
deriving DecidableEq, Repr

/-- An ENROL or RELEASE in progress (R375, R376), with the outcome its checks gave, 0 for success, and the staged keys. -/
structure OwnerOp where
  release : Bool
  failCode : Nat
  keys : List Byte := []
deriving DecidableEq, Repr

/-- An attestation report in progress (R382): the nonce and the time latched at GO. -/
structure AttOp where
  nonce : List Word
  time : Time
deriving DecidableEq, Repr

/-- Power, board signals, start sequence, image, owner and identity (R359 to R382, R393 to R395). -/
structure Power where
  phase : Phase := .off
  warm : Bool := false
  startKind : Nat := 0
  warmCount : Nat := 0
  tService : Time := 0
  resetN : Bool := false
  refOk : Bool := true
  refAlert : Bool := false
  tripLatch : Bool := false
  railsUp : Bool := false
  pwrGood : Bool := false
  mated : Bool := true
  straps : Nat := 0
  strapsRead : Nat := 0
  idRead : Bool := false
  mac : Nat := 0
  serial : Nat := 0
  config : ImageConfig := {}
  norA : List Host.Cell := []
  norB : List Host.Cell := []
  secFloor : Nat := 0
  keySet0Revoked : Bool := false
  ownerSlots : List OwnerSlot := []
  slotB : Bool := false
  rescue : Bool := false
  aFailed : Bool := false
  aReason : Nat := 0
  userApplied : Bool := false
  userRejected : Bool := false
  userReason : Nat := 0
  tapOpen : Bool := false
  ownerLost : Bool := false
  imgOp : Option ImgOp := none
  imgErr : Nat := 0
  imgReason : Nat := 0
  ownerOp : Option OwnerOp := none
  ownerFail : Nat := 0
  enrolNonce : BitVec 128 := 0
  enrolNonceAt : Option Time := none
  att : Option AttOp := none
  attReady : Bool := false
  attReport : List Byte := []
  tempLogic : List Nat := []
  tempDram : List Nat := []
  tempHub : Nat := 0
  announced : Nat := 0
  announceStop : Bool := false
deriving DecidableEq, Repr

/-! ## Deputy tables -/

/-- A host allocation (R245, R185). -/
structure Allocation where
  base : Addr
  size : Nat
  freePending : Bool := false
deriving DecidableEq, Repr

/-- The sharding of one dimension (R197). -/
structure Shard where
  kind : Nat := 0
  axis : Nat := 0
  n : Nat := 0
  c : Nat := 0
deriving DecidableEq, Repr

/-- A tensor descriptor as created (R175, R176). -/
structure Desc where
  base : Addr := 0
  format : Nat := 0
  layout : Nat := 0
  lparam : Nat := 0
  rank : Nat := 0
  sharded : Bool := false
  extent : List Nat := []
  stride : List Int := []
  fillElem : Word := 0
  fillScale : Byte := 0
  shard : List Shard := []
deriving DecidableEq, Repr

/-- A slot of the descriptor table (R177, R185). A generation of 0 has not been used yet. -/
structure DescSlot where
  gen : Nat := 0
  live : Option Desc := none
  destroyPending : Bool := false
deriving DecidableEq, Repr

/-- A node of a loaded graph (R251). An operand reference is kept as its 32-bit word. -/
structure Node where
  op : Nat := 0
  variant : Nat := 0
  planes : Nat := 0
  wwidth : Nat := 0
  flags : Word := 0
  split : Nat := 0
  loop : Nat := 0
  cvtMod : Nat := 0
  place : List Nat := []
  operand : List Word := []
  lenIdx : List Word := []
  thresh : Word := 0
  fill0 : Word := 0
  scatterTasks : Nat := 0
  budget : Nat := 0
  eps : Word := 0
  perm : List Nat := []
  reservedZero : Bool := true
deriving DecidableEq, Repr

/-- An edge of a loaded graph (R251). -/
structure Edge where
  producer : Nat
  consumer : Nat
  kind : Nat
  slot : Nat
  tag : Nat
  tail : Nat
  reservedZero : Bool := true
deriving DecidableEq, Repr

/-- A list of a loaded graph (R262). -/
structure GList where
  count : Nat
  kind : Nat
  use : Nat
  entries : List Nat
  reservedZero : Bool := true
deriving DecidableEq, Repr

/-- The decoded work graph image (R250). -/
structure Image where
  nodes : List Node
  pool : List Word
  edges : List Edge
  lists : List GList
  grid : List Nat
  spillBase : Addr
  spillLen : Nat
  reservedZero : Bool := true
deriving DecidableEq, Repr

/-- A slot of the graph table (R246): generation, image, the endpoints its chutes are bound to (edge, endpoint), a
pending GRAPH_UNLOAD, and the image's bytes as they were loaded. -/
structure GraphSlot where
  gen : Nat := 0
  live : Option Image := none
  unloading : Bool := false
  chutes : List (Nat × EndpointId) := []
  raw : List Byte := []
deriving DecidableEq, Repr

/-- One run of a stage on a path (R141): whether on the adit path, M, and the cost in ns per 10^6 lane products. -/
structure PathCost where
  adit : Bool
  rows : Nat
  cost : Nat
deriving DecidableEq, Repr

/-- What the module keeps for a stage between runs (R92, R140, R141, R149, R325): T_s, the costs of its last runs by path
and M, the last first, the ratio that rescales its cost estimates, runs made, probes, runs without the assay pass left and
made, and the times of the last tasks with their seams, the last first. -/
structure Stage where
  threshold : Nat := 0
  costs : List PathCost := []
  measured : Nat := 1
  estimated : Nat := 1
  runs : Nat := 0
  probeUp : Bool := false
  probeDue : Bool := false
  assayOff : Nat := 0
  offRuns : Nat := 0
  taskTimes : List (Nat × Nat) := []
deriving DecidableEq, Repr

/-- One task of a node (R260, R268): batch element, first row tile, first column tile, part (with its segment, `segment *
split + part`), cost, and how many row tiles and column tiles its block has. -/
structure TaskDef where
  elem : Nat
  rowTile : Nat
  colTile : Nat
  part : Nat
  cost : Nat
  blockM : Nat := 1
  blockN : Nat := 1
deriving DecidableEq, Repr

/-- The parts of an output tile that have been combined (R106): batch element, row tile, column tile, segment, first part
and how many parts, or how many segments once all parts of the segment are in. -/
structure CombinedSpan where
  elem : Nat
  rowTile : Nat
  colTile : Nat
  segment : Nat
  part : Nat
  parts : Nat
  segments : Nat
deriving DecidableEq, Repr

/-- The run of one node in a job (R260, R265, R275): what was read when it began (lengths, the descriptors that its operands
name by element and slot, the masked rows, reduction positions and columns), and what it does. -/
structure NodeRun where
  started : Bool := false
  startedAt : Time := 0
  elems : List Nat := []
  names : List (Nat × Nat × Nat) := []
  maskM : List Nat := []
  maskK : List Nat := []
  maskN : List Nat := []
  kOuter : Bool := false
  threshold : Nat := 0
  paths : List (Nat × Bool) := []
  probed : Bool := false
  estimate : Nat := 0
  spans : List CombinedSpan := []
  inactive : List (Nat × Nat × Nat × Nat) := []
  lens : List (Nat × Nat × Nat × Nat) := []
  skipped : List Nat := []
  split : Nat := 0
  segs : Nat := 0
  splitCut : Bool := false
  adit : Bool := false
  arrays : Bool := false
  total : Nat := 0
  doneTasks : Nat := 0
  dups : Nat := 0
  committed : Nat := 0
  lastDone : Time := 0
  counts : Table Nat := []
  discardMax : Word := 0
  auditOff : Bool := false
deriving DecidableEq, Repr

/-- States of a job (R246, R249, R340). -/
inductive JobState where
  | queued | running | held
deriving DecidableEq, Repr

/-- A job (R256): the RUN it answers, its graph slot and generation, its record address, its node runs and counters. A held
job keeps its cause: 1 void granules, 2 the abort limit, 3 no place for a node (R336, R339, R340), 4 a reset after which
its RUN has not executed again (R353). -/
structure Job where
  key : Nat
  ctx : CmdCtx
  jobId : Word
  graph : Nat
  gen : Nat
  record : Addr
  state : JobState := .queued
  holdCause : Nat := 0
  ending : Option Nat := none
  nodes : Table NodeRun := []
  counts : Table Nat := []
deriving DecidableEq, Repr

/-- A CANCEL or GRAPH_UNLOAD that waits for jobs to end (R249). -/
structure Wait where
  ctx : CmdCtx
  opcode : Nat
  jobs : List Nat
  graph : Option Nat
deriving DecidableEq, Repr

/-- A void granule (R340, R341): granule number (address / 4 KiB), its new home, and the parts of it that writes in several
pieces have written: the write, the first byte and the length. -/
structure VoidGranule where
  gran : Nat
  void : Bool
  home : Option Nat
  parts : List (Nat × Nat × Nat) := []
deriving DecidableEq, Repr

/-- An entry of the loss report (R342). -/
structure LossEntry where
  addr : Addr := 0
  count : Nat := 0
  valid : Bool := false
  rehomed : Bool := false
  unhomed : Bool := false
  resupplied : Bool := false
deriving DecidableEq, Repr

/-- A task on a re-run list (R338): work counter (seam and number) and index. -/
structure Rerun where
  seam : Nat
  counter : Nat
  index : Nat
deriving DecidableEq, Repr

/-- The fences (R334): numbers of the fenced units of each level. -/
structure Fences where
  arrays : List Nat := []
  adits : List Nat := []
  cores : List Nat := []
  chans : List Nat := []
  drams : List Nat := []
  seams : List Nat := []
deriving DecidableEq, Repr

/-- What the deputy keeps (R332 to R342, R357). -/
structure Deputy where
  out : Bool := false
  service : Bool := false
  recovery : Bool := false
  restoreSkip : Bool := false
  replayed : Bool := false
  allocs : List Allocation := []
  descs : Table DescSlot := []
  graphs : Table GraphSlot := []
  stages : Table Stage := []
  jobs : List Job := []
  nextJob : Nat := 0
  waits : List Wait := []
  fences : Fences := {}
  voids : List VoidGranule := []
  losses : Table LossEntry := []
  mismatches : Table (List Time) := []
  residues : Table (List Time) := []
  scratchUes : Table (List Time) := []
  dramUes : Table (List Time) := []
  reruns : List Rerun := []
  rerunning : List Rerun := []
  abortCounts : List (Nat × Nat × Nat × Nat) := []
deriving DecidableEq, Repr

/-! ## Journal -/

/-- An accepted lot or a commit piece in the lot ring (R344, R347, R349): its session and LSN, the PSN after it, its
acceptance time, its space in granules, how many commands it has and which are done, whether it has retired, its bytes,
the job, node, task and number of a commit piece, whether a lot is accepted, and the number of a closed session. -/
structure LotRecord where
  session : Nat
  lsn : Word
  psnAfter : Word
  tAccept : Time
  granules : Nat
  commands : Nat
  done : List Nat
  retired : Bool := false
  bytes : List Byte := []
  piece : Option (Nat × Nat × Nat × Nat) := none
  accepted : Bool := false
  dead : Nat := 0
deriving DecidableEq, Repr

/-- A response in the response log (R345, R347): its bytes and the PSN of its first packet. -/
structure Response where
  ctx : CmdCtx
  bytes : List Byte
  psn : Word
  written : Bool := false
  left : Bool := false
deriving DecidableEq, Repr

/-- What a journal write that has completed lets the deputy do (R345). For a commit, the number is twice the piece's for
its record and one more for its done mark; the task's own mark has twice the number of pieces (R349). -/
inductive WriteUse where
  | lot (session : Nat) (lsn : Word)
  | response (session : Nat) (lsn : Word) (index : Nat)
  | piece (job : Nat) (node : Nat) (task : Nat) (piece : Nat)
deriving DecidableEq, Repr

/-- A journal write in progress (R345). -/
structure PendingWrite where
  id : Nat
  use : WriteUse
  local_ : Bool := false
  mirrorLsn : Option Word := none
deriving DecidableEq, Repr

/-- States of the mirror (R358). -/
inductive MirrorState where
  | single | up | lost | restoring
deriving DecidableEq, Repr

/-- The journal of this module and the store it keeps for its twin (R343 to R356). -/
structure Journal where
  copy0 : Bool := true
  copy8 : Bool := true
  lotRing : List LotRecord := []
  respLog : List Response := []
  tableUsed : Nat := 0
  pendingWrites : List PendingWrite := []
  nextId : Nat := 0
  mirror : MirrorState := .single
  mirrorLsn : Word := 0
  unmirrored : List MirrorRecord := []
  mirrorStore : List MirrorRecord := []
deriving DecidableEq, Repr

/-! ## Port, sessions and management -/

/-- Kinds of session (R285). -/
inductive SessionKind where
  | free | lot | chute | mirror
deriving DecidableEq, Repr

/-- A parsed lot command (R244, R248): a well-formed command, or the status a malformed one is skipped with. -/
inductive LotBody where
  | alloc (seam : Byte) (size : Nat)
  | free (base : Addr)
  | descCreate (record : List Byte)
  | descDestroy (handle : Word)
  | put (addr : Addr) (data : List Byte)
  | get (addr : Addr) (len : Nat)
  | graphLoad (addr : Addr) (len : Nat)
  | graphUnload (handle : Word)
  | run (handle : Word) (jobId : Word) (record : Addr)
  | cancel (jobId : Word)
  | malformed (opcode : Nat) (status : Nat)
deriving DecidableEq, Repr

/-- A command of an accepted lot that has not executed yet. -/
structure LotCommand where
  ctx : CmdCtx
  body : LotBody
deriving DecidableEq, Repr

/-- A lot whose last packet has committed and that is not accepted yet (R296). -/
structure PendingLot where
  lsn : Word
  bytes : List Byte
  psnAfter : Word
  write : Nat
  stored : Bool := false
deriving DecidableEq, Repr

/-- One DATA or CLOSE packet that this module has sent or will send (R297, R299, R300): its PSN, LSN, place in its
message, the message's length, its CHDR and payload, and how often it has been sent. -/
structure TxData where
  psn : Word
  lsn : Word
  index : Nat
  first : Bool
  last : Bool
  total : Nat
  bytes : List Byte
  chdr : Word := 0
  close : Bool := false
  sends : Nat := 0
deriving DecidableEq, Repr

/-- A session (R285 to R301): `txPsn` is the PSN of the next packet of a response formed, `sendPsn` that of the next one
sent for the first time. -/
structure Session where
  kind : SessionKind := .free
  token : Word := 0
  peerMac : Nat := 0
  peerIp : Nat := 0
  peerPort : Nat := 0
  respWindow : Nat := 0
  peerModule : Nat := 0
  peerSide : Nat := 0
  edge : Nat := 0
  expPsn : Word := 0
  accLsn : Word := 0
  accPsn : Word := 0
  grants : Word := 0
  nakAt : Option Time := none
  nakReason : Nat := 0
  rxLsn : Word := 0
  rxLen : Nat := 0
  rxBytes : List Byte := []
  rxOpen : Bool := false
  rxBad : Bool := false
  lots : List PendingLot := []
  backlog : List LotCommand := []
  txPsn : Word := 0
  sendPsn : Word := 0
  unacked : List TxData := []
  resyncs : Nat := 0
  resync : Bool := false
  resetSent : Nat := 0
  resetSeen : Bool := false
deriving DecidableEq, Repr

/-- Stages of an OPEN that this module makes as the sender (R286, R287, R355). -/
inductive OutStage where
  | hello | opening | open_ | failed
deriving DecidableEq, Repr

/-- A session that this module opens as the sender: a CHUTE's first leg or the MIRROR (R285, R286, R299), with its grants
received and started, the free words of its current bank (R229), and its packets waiting for credit and not
acknowledged. -/
structure OutSession where
  kind : SessionKind
  graph : Nat
  edge : Nat
  stage : OutStage := .hello
  peer : Nat
  nonce : BitVec 128 := 0
  status : Nat := 0
  session : Nat := 0
  token : Word := 0
  grants : Word := 0
  started : Word := 0
  room : Nat := 0
  txPsn : Word := 0
  waiting : List TxData := []
  unacked : List TxData := []
  resetSent : Nat := 0
  resetSeen : Bool := false
deriving DecidableEq, Repr

/-- A management access that holds on a stopped domain (R320, R401): the request, the address held on and the words read
before it. -/
structure HeldAccess where
  req : MgmtFrame
  at_ : Nat
  words : List Word
deriving DecidableEq, Repr

/-- The classes of transmitted frames (R302). -/
inductive TxClass where
  | control | management | data
deriving DecidableEq, Repr

/-- What a frame of the module carries above UDP. -/
inductive TxBody where
  | ilt (type : Nat) (session : Nat) (token psn lsn chdr arg0 arg1 : Word) (flags : Nat) (payload : List Byte)
  | mgmt (op : Nat) (status : Nat) (session : Nat) (reqId : Word) (body : List Byte)
  | arp (target : Nat)
  | neighbor (target : Nat)
deriving DecidableEq, Repr

/-- A frame waiting for the transmitter, with its destination, priority code and dry time (R302, R327). -/
structure TxFrame where
  cls : TxClass
  dstMac : Nat
  dstIp : Nat
  dstPort : Nat
  pcp : Nat
  dry : Time
  body : TxBody
deriving DecidableEq, Repr

/-- A management session (R305, R306): its TOKEN, whether its OPEN was signed, and the last request executed with its
response. -/
structure MgmtSession where
  token : Word
  signed : Bool
  lastReq : Option Word := none
  lastAnswer : Option TxFrame := none
deriving DecidableEq, Repr

/-- The port (R278 to R308). -/
structure Port where
  linkUp : Bool := false
  mode : Nat := 0
  inService : Bool := false
  paused : Table Nat := []
  txQueue : List TxFrame := []
  lastTx : Option TxFrame := none
  nonces : List (BitVec 128 × Time) := []
  sessions : Table Session := []
  outs : List OutSession := []
  orphans : List (List LotCommand) := []
  mgmt : Table (Option MgmtSession) := []
  mgmtQueue : List MgmtFrame := []
  held : Option HeldAccess := none
deriving DecidableEq, Repr

/-! ## Arrays -/

/-- A block tag (R26): B_EFF, SPECIAL and ZERO. -/
structure BlockTag where
  beff : Int := 0
  special : Nat := 0
  zero : Bool := true
deriving DecidableEq, Repr

/-- A weight tile as the cells hold it (R34, R81, R114): mode, line mode, width, ROW_OFF bits and masked columns, the
weight and position code of each logical row and column, the weight block tags by column and half, the tally weights,
the weight height, its place in the reduction, whose tile it is (job, node, batch element, column tile, weight tile and
part) and the events of its load (R275). -/
structure WeightTile where
  mode : ArrayMode
  line : Nat
  width : Nat
  part : Nat
  parts : Nat
  rowOff : List Nat
  colMask : List Nat
  weights : List (List Int)
  codes : List (List Nat)
  tags : List (BlockTag × BlockTag)
  tally : List Int
  height : Nat
  kt : Nat := 0
  key : List Nat := []
  counts : Table Nat := []
deriving DecidableEq, Repr

/-- A vector inside the array (R36): the aligned integers by activation line, the two block tags, the slots' plane count,
the output row, whether it is the tally vector, the weight tile it meets, the task slot, stream command and vat tile of its
charge, and whether it is its charge's last. -/
structure Flight where
  elems : List Int
  upper : BlockTag
  lower : BlockTag
  planes : Nat
  row : Nat
  tally : Bool
  weights : WeightTile
  slot : Fin 4 := 0
  cmd : Nat := 0
  tile : Nat := 0
  last : Bool := false
deriving DecidableEq, Repr

/-- One slot in the row queues of an array's feeder (R48, R71): by logical row the bits that the row receives, and the
slot's marks: top plane, swap, the high pass of MAC2 and the emission phase of a distance mode. -/
structure FeedSlot where
  bits : List (List Bool)
  top : Bool
  swap : Bool
  high : Bool
  emission : Bool
deriving DecidableEq, Repr

/-- What GTCOUNT's comparison has found so far (R61). -/
inductive CellOrder where
  | eq | gt | lt
deriving DecidableEq, Repr

/-- The working registers of a cell in the distance modes (R34, R59, R61). -/
structure CellWork where
  borrow : Bool := false
  d : List Bool := []
  neg : Bool := false
  seen : Bool := false
  order : CellOrder := .eq
deriving DecidableEq, Repr

/-- What a drain hands over for one half-column (R43, R98, R108): an A40 value, a forced one, the integer and exponent of
X64, or X64's NaN. Null partials are not listed. -/
inductive Partial where
  | a40 (bits : BitVec 40)
  | forced (bits : BitVec 40)
  | exact (acc : Int) (e : Int)
  | nan
deriving DecidableEq, Repr

/-- The partials of one vector in the output queue (R45): the vat tile they go to, the output row and, in the order of
R100, column and partial. -/
structure DrainOut where
  tile : Nat
  row : Nat
  parts : List (Nat × Partial)
deriving DecidableEq, Repr

/-- A row of activations to stream (R36, R49): descriptor slot, row, weight tile number, plane count, and the extent and
run-time length of K and its masked positions. -/
structure RowSrc where
  desc : Nat
  row : Nat
  kt : Nat
  planes : Nat
  extK : Nat
  lenK : Nat
  maskK : List Nat
deriving DecidableEq, Repr

/-- The charge that an array's feeder streams (R159): its task slot and stream command, its vat tile, the weight tile and
part with the tile's key, whether it is an assay charge, where its activations come from (with the first row of its row
tile), the rows of the tile still to schedule, the next sub-vector of the first of them (R77), and whether its first vector
has been scheduled. A charge whose part has been discarded has no vat tile: `tile` is 80, which no tile has. -/
structure Charge where
  slot : Fin 4
  cmd : Nat
  tile : Nat
  key : List Nat
  assay : Bool
  src : RowSrc
  rows : List Nat
  sub : Nat := 0
  begun : Bool := false
deriving DecidableEq, Repr

/-- One array (R34, R40, R45, R48, R117, R120, R127, R128): `sel` is the register that its cells have active, W1 when set;
`queue` holds the slots of the last vector scheduled that are in the row queues, `work` the working registers of the cells
by row and column after the last vector of a distance mode. -/
structure ArrayState where
  active : Option WeightTile := none
  shadow : Option WeightTile := none
  sel : Bool := false
  work : List (List CellWork) := []
  queue : List FeedSlot := []
  flights : List Flight := []
  charge : Option Charge := none
  tallySum : List Int := []
  totals : List (Int × Int) := []
  out : List DrainOut := []
  frozen : Bool := false
  slotsLast : Nat := 0
  latency : Nat := 134
  badRow : Option Nat := none
  spareBad : Bool := false
  testResult : Nat := 0
  badCol : Option Nat := none
  fenceTally : Bool := false
  fenceTest : Bool := false
  testing : Bool := false
deriving DecidableEq, Repr

/-! ## Cores -/

/-- A vat tile (R94 to R97, R108, R111). `base` is its first granule. Entries not listed are zero. `tiles` are the weight
tiles of its reduction range that run, in order, and `stop` the first one after the range (R85, R105); `assay` marks the
tile of an assay pass (R145). `counts` holds the events of its part so far, which a discarded part leaves out (R275);
`failedOn` is the array on which its part failed a tally check (R124). -/
structure VatTile where
  base : Nat
  x64 : Bool
  isOpen : Bool := true
  lost : Bool := false
  expSet : Bool := false
  eRef : Int := 0
  eTop : Int := 0
  forced : Bool := false
  entries : Table (BitVec 64) := []
  part : Nat := 0
  split : Nat := 1
  segment : Nat := 0
  segments : Nat := 1
  nextTile : Nat := 0
  nextPart : Nat := 0
  nextSub : Nat := 0
  added : Nat := 0
  rowTile : Nat := 0
  colTile : Nat := 0
  assay : Bool := false
  tiles : List Nat := []
  stop : Nat := 0
  slot : Fin 4 := 0
  array : Option (Fin 4) := none
  ready : Bool := false
  init : TileInit := .zero
  checked : Bool := true
  counts : Table Nat := []
  failedOn : Option (Fin 4) := none
deriving DecidableEq, Repr

/-- States of a task slot (R161). -/
inductive SlotState where
  | empty | ready | running | waiting | aborting
deriving DecidableEq, Repr

/-- A command of a resident task and how far it has come (R159). -/
structure SlotCmd where
  cmd : TaskCmd
  issued : Bool := false
  done : Bool := false
deriving DecidableEq, Repr

/-- A save record of a task (R111, R166, R273): where it lies in scratch, whether it is a spill, whether a hoist has taken
it to the graph's spill region, and what the sequencer knows of its tile, without the entries. -/
structure SaveRecord where
  offset : Nat
  spill : Bool := false
  inDram : Bool := false
  kept : VatTile
deriving DecidableEq, Repr

/-- A task slot (R161, R166): `rowMasks` are the rows that an assay pass masked in the full pass of an output tile (row
tile, column tile, rows), `auditRows` those of them that run all the same (R148, R151). Vector and scalar registers not
listed hold zeros (log entry 12). -/
structure TaskSlot where
  state : SlotState := .empty
  counter : Nat := 0
  index : Nat := 0
  job : Nat := 0
  stage : Nat := 0
  started : Bool := false
  startedAt : Time := 0
  dry : Option Time := none
  base : Nat := 0
  saveBytes : Nat := 0
  workBytes : Nat := 0
  saved : List SaveRecord := []
  cmds : List SlotCmd := []
  vregs : Table (List Word) := []
  sregs : Table Word := []
  counts : Table Nat := []
  rowMasks : List (Nat × Nat × List Nat) := []
  auditRows : List (Nat × Nat × Nat) := []
  discardMax : Word := 0
deriving DecidableEq, Repr

/-- A core (R153): `refusals` counts, by bank and requester, the last cycles in a row that refused it (R156), `halfWrites` are
the writes of less than a word that have had the first of their two grants, by requester and offset (R158). -/
structure CoreState where
  tiles : List VatTile := []
  slots : Table TaskSlot := []
  refusals : Table Nat := []
  promoted : List (Nat × Nat) := []
  poisonedWords : List Nat := []
  halfWrites : List (Nat × Nat) := []
  audits : Table Nat := []
deriving DecidableEq, Repr

/-- A table of assay sums (R146): the weight descriptors with their columns, in column order, the byte ranges of their
tensors, where the table lies, its segments per column, its columns, K, the weight width, its write generation and whether
it is stale. -/
structure AssayTable where
  slices : List (Nat × Nat)
  ranges : List (Addr × Nat)
  addr : Addr
  segs : Nat
  cols : Nat
  extK : Nat
  width : Nat
  stale : Bool
  generation : Nat
deriving DecidableEq, Repr

/-- The operation that an adit unit works on (R136, R152): its work counter and batch element, M, its format, whether it is
worked in chunks, the vector buffer (each vector of the last chunk with its row, its aligned integers and its block tags),
and the column group begun last, since when, and whether it is open. -/
structure AditOp where
  counter : Nat
  elem : Nat
  rows : Nat
  x64 : Bool
  chunked : Bool
  buffer : List (Nat × List Int × BlockTag × BlockTag)
  group : Nat
  since : Time
  isOpen : Bool
deriving DecidableEq, Repr

/-- A column group that an adit unit has finished and that has not completed as a task (R137, R270): work counter, index,
its events and when it began. -/
structure AditDone where
  counter : Nat
  index : Nat
  counts : Table Nat
  startedAt : Time
deriving DecidableEq, Repr

/-- An adit unit (R133, R136, R152): its open operation, the groups finished, and the bytes read below 4 KiB and the lane
products below 1,024 that its counters have not counted yet. A column group is open from the step that begins it to the one
in which an attempt passes its residue check. -/
structure AditState where
  op : Option AditOp := none
  finished : List AditDone := []
  readRest : Nat := 0
  prodRest : Nat := 0
deriving DecidableEq, Repr

/-! ## Hoists, DRAM, tram, calibration -/

/-- A run of a segment (R206, R213, R215): what it moves, the length of the whole run that it is a piece of and where in that
it begins, its bytes in the hoist's staging buffer once they have been read, the 64 B words of its source that were
delivered poisoned (R204), and whether its writes have been given to the DRAM controllers. -/
structure RunMove where
  run : MoveRun
  whole : Nat
  at_ : Nat := 0
  data : Option (List Byte) := none
  bad : List Nat := []
  entered : Bool := false
deriving DecidableEq, Repr

/-- A scatter with accumulation that a command makes (R194): job, node and task, the descriptor slots of source, index and
destination, the indexed dimension, and which indices of the stream. -/
structure AddOp where
  job : Nat
  node : Nat
  task : Nat
  src : Nat
  idx : Nat
  dst : Nat
  dim : Nat
  first : Nat
  count : Nat
deriving DecidableEq, Repr

/-- Where the runs of a command land: at their destination addresses, in the accumulation buffer of a scatter (R194), or in
the cars of a train (R238). -/
inductive Sink where
  | memory
  | accumulation (o : AddOp)
  | tram
deriving DecidableEq, Repr

/-- A segment (R215): its number and its command's, its runs, how many of the layout's runs shorter than 4,096 B begin in
it, its dry time, when it was queued, what its command waits for, whether it moves at the reduced rate, whether it writes
DRAM or another seam, and where its runs land. -/
structure Segment where
  id : Nat
  cmd : Nat
  runs : List RunMove
  small : Nat
  dry : Option Time
  enqueued : Time
  deps : List Nat
  slow : Bool
  write : Bool
  sink : Sink := .memory
deriving DecidableEq, Repr

/-- A car of a train that a queue is reading (R238): the position where its train enters the chain, the car, and the bytes
of its payload that have not landed. -/
structure LoadingCar where
  entry : Nat
  car : Car
  left : Nat
deriving DecidableEq, Repr

/-- A hoist queue (R214 to R221): its segments, the descriptors of a privileged queue that it holds locally, its place
in the ring, the bytes it has landed, and landed at 1/8 rate, modulo 4,096, and the cars of a TRAM_FEED queue that have not
entered the chain, in order, with the number of the first of them (R238). -/
structure HoistQueue where
  ready : List Segment := []
  issued : List Segment := []
  local_ : List HoistCmd := []
  ring : Nat := 0
  nextId : Nat := 0
  halted : Bool := false
  landed : Nat := 0
  slow : Nat := 0
  cars : List LoadingCar := []
  firstCar : Nat := 0
deriving DecidableEq, Repr

/-- The accumulation buffer of a SCATTER_ADD task (R194, R349): its entries by index and element of the slice, in the order in
which they were first written, each with the address of its destination element and an FP32 word; destination format, the
image of the commit, and the pieces marked done. -/
structure ScatterBuffer where
  job : Nat
  node : Nat
  task : Nat
  format : Nat
  entries : List ((Nat × List Nat) × Addr × Word)
  image : List (Addr × Nat)
  recorded : Nat := 0
  done : Nat := 0
  committed : Bool := false
deriving DecidableEq, Repr

/-- Who made a request to a DRAM controller (R209): a run of a segment of a hoist queue, a fetch from a queue's descriptor
ring, an adit unit, or the scrub. -/
inductive ReqOrigin where
  | hoist (queue : QueueId) (segment run : Nat)
  | ring (queue : QueueId)
  | adit (unit : AditId)
  | scrub
deriving DecidableEq, Repr

/-- A request that waits at a DRAM channel (R206 to R211): its class, its offset in the seam's window and its bytes within
one granule, the bytes of a write, its dry time, who made it, its activation slots and partial words, and the slots it
still takes, none of them served while `fresh`. -/
structure ChanRequest where
  cls : DramClass
  offset : Nat
  bytes : Nat
  write : Option (List Byte)
  dry : Time
  origin : ReqOrigin
  act : Nat
  rmw : Nat
  left : Nat
  fresh : Bool := true
deriving DecidableEq, Repr

/-- A DRAM channel (R204, R205, R210, R211): the slots of the window that each class has had and those left idle, the requests
that wait in order of arrival, the open row of each bank, the corrected words to be written back, spare bonds in use, and
the refresh and scrub positions. -/
structure ChanState where
  rd : Nat := 0
  wr : Nat := 0
  rm : Nat := 0
  idle : Nat := 0
  queue : List ChanRequest := []
  openRows : Table (Option Nat) := []
  fixes : List Nat := []
  spares : Nat := 0
  refreshes : Nat := 0
  scrubbed : Nat := 0
deriving DecidableEq, Repr

/-- A link of a seam (R224, R243): whether it is trained and in service, and which class was granted a slot last. -/
structure LinkState where
  up : Bool := false
  last : LinkClass := .tram
deriving DecidableEq, Repr

/-- A tram hop stage (R239, R242): lines of its ingress buffer, whether it is stalled, the cars that have come from
upstream, those that a feed injects there, and which of the two went last. -/
structure HopState where
  lines : Nat := 0
  stalled : Bool := false
  arriving : List Car := []
  feeding : List Car := []
  lastInjected : Bool := false
deriving DecidableEq, Repr

/-- A work counter (R269, R270). -/
structure WorkCounter where
  next : Nat := 0
  limit : Nat := 0
  node : Nat := 0
  job : Nat := 0
  group : Nat := 0
  active : Bool := false
  bits : List Nat := []
  tasks : List TaskDef := []
  given : List (Nat × Nat) := []
  received : Option Nat := none
deriving DecidableEq, Repr

/-- Which entry a descent gathers (R385). -/
inductive Descent where
  | light | full
deriving DecidableEq, Repr

/-- A seam's calibration (R383 to R386), voltages in mV: `heldMv` is the last step of the running descent that held, 0 for
none, and `steps` how many steps it has taken. -/
structure CalState where
  vset : Nat := 0
  guard : Bool := false
  idle : Bool := false
  waking : Bool := false
  descent : Option Descent := none
  heldMv : Nat := 0
  steps : Nat := 0
  full : Table Nat := []
  light : Table Nat := []
  band : Nat := 0
  load : Nat := 0
  margin : Nat := 0
  highWindows : Nat := 0
  lastCharge : Time := 0
deriving DecidableEq, Repr

/-! ## Chutes -/

/-- States of a bank (R229). -/
inductive BankState where
  | empty | filling | closed | visible
deriving DecidableEq, Repr

/-- A bank: its state, the committed words, the words read and the packets not read yet (R229, R231). -/
structure Bank where
  state : BankState := .empty
  words : Nat := 0
  read : Nat := 0
  packets : List Packet := []
deriving DecidableEq, Repr

/-- Answers of an endpoint on their way to the producer (R230). -/
inductive ChuteAnswer where
  | commit | rewound
deriving DecidableEq, Repr

/-- A chute endpoint with its producer's count (R226 to R234): configuration, banks, reject state, timers, the answers,
grants and tail notice on their way to the producer, whether a close mark on its way answers a tail notice, and the
producer's count: grants not started, free words of its current bank, packets sent and not answered, and whether its
next packet carries RESEND. For a hub receive endpoint `grantsSent` counts the grants of released banks that the module
still withholds (R346, R347, R355). -/
structure Endpoint where
  active : Bool := false
  tail : Nat := 1000
  producer : Nat := 0
  bank0 : Bank := {}
  bank1 : Bank := {}
  reject : Bool := false
  fillTimer : Option Time := none
  readTimer : Option Time := none
  answers : List ChuteAnswer := []
  grantsSent : Nat := 0
  notice : Bool := false
  tailPending : Bool := false
  heldGrants : Nat := 0
  room : Nat := 0
  unacked : List Packet := []
  resend : Bool := false
deriving DecidableEq, Repr

/-! ## The whole -/

/-- The state of the block. -/
structure State where
  pending : List Instr := []
  freeCount : Nat := 0
  mem : List Host.Cell := []
  regs : Table Word := []
  clk : Clocks := {}
  pwr : Power := {}
  dep : Deputy := {}
  jnl : Journal := {}
  port : Port := {}
  arrays : Table ArrayState := []
  cores : Table CoreState := []
  adits : Table AditState := []
  hoists : Table HoistQueue := []
  scatters : List ScatterBuffer := []
  assays : List AssayTable := []
  chans : Table ChanState := []
  links : Table LinkState := []
  chutes : Table Endpoint := []
  hops : Table HopState := []
  counters : Table WorkCounter := []
  cals : Table CalState := []
deriving DecidableEq, Repr

/-- The faults of the model: none, for the spec gives every command an effect on every operand (log entry 122). -/
inductive Fault
deriving DecidableEq, Repr

/-- Reasons for a refusal. -/
inductive Refusal where
  /-- The command has no meaning in the model yet. Safe. -/
  | notModelled (mnemonic : String)
deriving DecidableEq, Repr

/-- The block before power is applied: every register field at the value its table gives for reset (R407), the domains
stopped and in reset, memory and queues empty (log entry 2). -/
def State.reset : State := {}

end Sys2Proof.Machine
end

