-- ==== Sys2Proof/Machine/Formats.lean ====
section
/-! DEFINITION. Tensor formats: codes and widths (R9), elements and scales (R10 to R17), aligned integers (R21 to R26)
and the conversions of CVT (R28 to R32). -/

namespace Sys2Proof.Machine

/-! ## Codes -/

/-- Format codes (R9). -/
def fmtFp32 : Nat := 0x01
def fmtBf16 : Nat := 0x02
def fmtFp16 : Nat := 0x03
def fmtInt8 : Nat := 0x04
def fmtInt32 : Nat := 0x05
def fmtMxInt8 : Nat := 0x15
def fmtA40 : Nat := 0x40
def fmtX64 : Nat := 0x41

/-- Whether a code names VWB-w (R9). -/
def isVwb (f : Nat) : Bool :=
  0x20 ≤ f && f ≤ 0x2F

/-- Whether a code names a block format (R9). -/
def isBlock (f : Nat) : Bool :=
  (0x10 ≤ f && f ≤ 0x15) || isVwb f

/-- Whether a code names a format (R9). -/
def isFormat (f : Nat) : Bool :=
  (0x01 ≤ f && f ≤ 0x05) || isBlock f || f == fmtA40 || f == fmtX64

/-- Element width in bits (R9). -/
def elemWidth (f : Nat) : Nat :=
  if isVwb f then f - 0x1F
  else if f = 0x01 ∨ f = 0x05 then 32
  else if f = 0x02 ∨ f = 0x03 then 16
  else if f = 0x12 ∨ f = 0x13 then 6
  else if f = 0x14 then 4
  else if f = fmtA40 then 40
  else if f = fmtX64 then 64
  else 8

/-- Size of the storage unit (R9): a bundle of 256 elements for a block format, else one element. -/
def unitBytes (f : Nat) : Nat :=
  if isBlock f then 8 * (1 + 4 * elemWidth f) else elemWidth f / 8

/-- Elements in a storage unit. -/
def unitElems (f : Nat) : Nat :=
  if isBlock f then 256 else 1

/-- The floating format of a code's elements, if they are floating. -/
def floatOf (f : Nat) : Option FFormat :=
  if f = 0x01 then some fp32
  else if f = 0x02 then some bf16
  else if f = 0x03 then some fp16
  else if f = 0x10 then some e4m3
  else if f = 0x11 then some e5m2
  else if f = 0x12 then some e3m2
  else if f = 0x13 then some e2m3
  else if f = 0x14 then some e2m1
  else if f = fmtA40 then some a40
  else none

/-- Exponent of the step of an integer element, before the scale: `2^-6` for MXINT8, else 1 (R14, R15). -/
def intStep (f : Nat) : Int :=
  if f = fmtMxInt8 then -6 else 0

/-- Whether a code is an integer array source (R23). -/
def isIntSource (f : Nat) : Bool :=
  f == fmtInt8 || f == fmtMxInt8 || isVwb f

/-- Whether a code is a floating array source (R21). -/
def isFloatSource (f : Nat) : Bool :=
  (0x10 ≤ f && f ≤ 0x14) || f == fmtBf16 || f == fmtFp16

/-- The stored integer of an integer element. -/
def intElem (f raw : Nat) : Int :=
  signedOf (elemWidth f) raw

/-- The value of an element before the block's scale (R10 to R15, R18). -/
def elemVal (f raw : Nat) : FVal :=
  match floatOf f with
  | some ff => decodeF ff raw
  | none => fvalOfInt (intElem f raw) (intStep f)

/-- A value under a scale byte (R13). -/
def scaleVal (x : Nat) (v : FVal) : FVal :=
  if x = 0xFF then .nan
  else
    match v with
    | .fin n m e => .fin n m (e + (x : Int) - 127)
    | w => w

/-! ## Elements in storage -/

/-- Bits [off + w - 1 : off] of a little-endian payload, as a number. -/
def payloadBits (bs : List Byte) (off w : Nat) : Nat :=
  leAt bs (off / 8) ((off % 8 + w + 7) / 8) / 2 ^ (off % 8) % 2 ^ w

/-- The scale byte of block `b` of a bundle (R16). -/
def bundleScale (bs : List Byte) (b : Nat) : Nat :=
  (bs.getD b 0).toNat

/-- The bits of element `i` of a bundle (R16). -/
def bundleElem (f : Nat) (bs : List Byte) (i : Nat) : Nat :=
  let w := elemWidth f
  payloadBits bs (8 * (8 + 4 * w * (i / 32)) + i % 32 * w) w

/-- The number whose `i`th field of `w` bits is the `i`th of a list. -/
def packNat (w : Nat) (l : List Nat) : Nat :=
  l.foldr (fun x n => x % 2 ^ w + 2 ^ w * n) 0

/-- The `4 w` bytes of a block's payload (R16). -/
def packBlock (w : Nat) (l : List Nat) : List Byte :=
  leBytes (4 * w) (packNat w l)

/-! ## Aligned integers -/

/-- Whether a value is a live element (R22). -/
def isLive : FVal → Bool
  | .fin _ m _ => m != 0
  | _ => false

/-- The special code of a block (R22, R25). -/
def specialOf (nan : Bool) (vals : List FVal) : Nat :=
  let anyNan := nan || vals.any (· == .nan)
  let pinf := vals.any (· == .inf false)
  let ninf := vals.any (· == .inf true)
  if anyNan || (pinf && ninf) then 3 else if pinf then 1 else if ninf then 2 else 0

/-- The greatest `floor(log2 |v|)` over the live elements, if any. -/
def maxMag (vals : List FVal) : Option Int :=
  vals.foldl (fun acc v =>
    match v with
    | .fin _ m e =>
      if m = 0 then acc
      else some (match acc with | none => magOf m e | some a => max a (magOf m e))
    | _ => acc) none

/-- `floor (v / 2^k)` of a live element, 0 otherwise (R22). -/
def floorStep (k : Int) : FVal → Int
  | .fin n m e =>
    let x : Int := (m * pow2 (e - k) : Nat)
    (if n then -x else x) / (pow2 (k - e) : Int)
  | _ => 0

/-- The aligned integers and the tag of a block of a floating source (R22): elements before the scale, scale byte,
aligned width. -/
def alignFloat (vals : List FVal) (x pw : Nat) : List Int × BlockTag :=
  let sp := specialOf (x == 0xFF) vals
  match (if x = 0xFF then none else maxMag vals) with
  | none => (vals.map fun _ => 0, ⟨0, sp, true⟩)
  | some em =>
    let k := em - pw + 2
    (vals.map (floorStep k), ⟨(x : Int) - 127 + k, sp, false⟩)

/-- The effective exponent of a block of an integer source (R21, R23). -/
def intBeff (f x : Nat) : Int :=
  if f = fmtInt8 then 0 else if f = fmtMxInt8 then (x : Int) - 133 else (x : Int) - 127

/-- The aligned integers and the tag of a block of an integer source (R23). -/
def alignInt (f : Nat) (ints : List Int) (x : Nat) : List Int × BlockTag :=
  let nan := f != fmtInt8 && x == 0xFF
  (ints, ⟨intBeff f x, if nan then 3 else 0, ints.all (· == 0) || nan⟩)

/-- The aligned integers and the tag of a block (R22, R23, R55). `elems` are the stored bits, none for a masked or padding
position, which counts as +0; the scale byte counts only when a position remains. For BF16 and FP16 the scale byte is
127. -/
def alignBlock (f : Nat) (elems : List (Option Nat)) (scale pw : Nat) : List Int × BlockTag :=
  let some_ := elems.any Option.isSome
  if isIntSource f then
    let r := alignInt f (elems.map fun o => match o with | some v => intElem f v | none => 0) scale
    if some_ then r else (r.1, ⟨r.2.beff, 0, true⟩)
  else
    let x := if isBlock f then scale else 127
    let vals := elems.map fun o => match o with | some v => elemVal f v | none => .fin false 0 0
    if some_ then alignFloat vals x pw else (vals.map fun _ => 0, ⟨0, 0, true⟩)

/-! ## CVT -/

/-- Counts of the conversion events (R32): SAT, INF, CLAMP, NANBLK, NANINT, INF2NAN. -/
structure CvtCounts where
  sat : Nat := 0
  inf : Nat := 0
  clamp : Nat := 0
  nanBlk : Nat := 0
  nanInt : Nat := 0
  inf2nan : Nat := 0
deriving DecidableEq, Repr

/-- The sum of two counts. -/
def CvtCounts.add (a b : CvtCounts) : CvtCounts :=
  ⟨a.sat + b.sat, a.inf + b.inf, a.clamp + b.clamp, a.nanBlk + b.nanBlk, a.nanInt + b.nanInt, a.inf2nan + b.inf2nan⟩

/-- The rounding of a CVT (R28). -/
def cvtRnd (m : CvtMod) : Rounding :=
  if m.rtz then .rtz else .rne

/-- A value as an integer number of steps `2^q`, rounded. -/
def roundInt (rnd : Rounding) (neg : Bool) (m : Nat) (e q : Int) : Int :=
  if neg then -(roundStep rnd neg m e false q : Int) else (roundStep rnd neg m e false q : Int)

/-- The limits of a `w`-bit integer. -/
def intMin (w : Nat) : Int := -(2 ^ (w - 1) : Nat)
def intMax (w : Nat) : Int := (2 ^ (w - 1) : Nat) - 1

/-- Conversion into an integer scalar of `w` bits (R30, R31). -/
def cvtToInt (w : Nat) (mods : CvtMod) : FVal → Nat × CvtCounts
  | .nan => (0, { nanInt := 1 })
  | .inf n => (unsignedOf w (if n then intMin w else intMax w), { sat := 1 })
  | .fin n m e =>
    let i := roundInt (cvtRnd mods) n m e 0
    if i < intMin w then (unsignedOf w (intMin w), { sat := 1 })
    else if intMax w < i then (unsignedOf w (intMax w), { sat := 1 })
    else (unsignedOf w i, {})

/-- Conversion into a floating scalar (R30, R31). -/
def cvtToFloat (f : FFormat) (mods : CvtMod) : FVal → Nat × CvtCounts
  | .nan => (nanCode f, {})
  | .inf n => (withSign f n (infCode f), {})
  | .fin n m e =>
    let c := roundCode f (cvtRnd mods) n m e false
    if c ≤ maxCode f then (withSign f n c, {})
    else if mods.inf then (withSign f n (infCode f), { inf := 1 })
    else (withSign f n (maxCode f), { sat := 1 })

/-- Conversion into a scalar format. -/
def cvtScalar (f : Nat) (mods : CvtMod) (v : FVal) : Nat × CvtCounts :=
  match floatOf f with
  | some ff => cvtToFloat ff mods v
  | none => cvtToInt (elemWidth f) mods v

/-- Whether a finite value, divided by the scale `2^(x - 127)` and rounded, lies within the element format's finite range
(R29); at scale 0xFE this says that it is not beyond the range of the target (R28). -/
def fitsAt (f : Nat) (rnd : Rounding) (x : Nat) (n : Bool) (m : Nat) (e : Int) : Bool :=
  let s := (x : Int) - 127
  match floatOf f with
  | some ff => roundCode ff rnd n m (e - s) false ≤ maxCode ff
  | none =>
    let i := roundInt rnd n m (e - s) (intStep f)
    intMin (elemWidth f) ≤ i && i ≤ intMax (elemWidth f)

/-- Whether every finite value of a block fits at a scale. -/
def allFit (f : Nat) (rnd : Rounding) (x : Nat) (vals : List FVal) : Bool :=
  vals.all fun v => match v with | .fin n m e => fitsAt f rnd x n m e | _ => true

/-- `e_top` of R29. -/
def eTop (f : Nat) : Int :=
  if f = 0x10 then 8 else if f = 0x11 then 15 else if f = 0x12 then 4
  else if f = 0x13 ∨ f = 0x14 then 2 else if f = fmtMxInt8 then 0 else (elemWidth f : Int) - 2

/-- The scale byte limited to 0x00 to 0xFE. -/
def clampScale (x : Int) : Nat :=
  (min 0xFE (max 0 x)).toNat

/-- The scale byte of a block (R29). Under FIT the least fitting scale is never below the second scale under OCP's, so
the search starts there. -/
def chooseScale (f : Nat) (mods : CvtMod) (vals : List FVal) : Nat :=
  match maxMag vals with
  | none => 0
  | some em =>
    let ocp := em - eTop f + 127
    if mods.ocp then clampScale ocp
    else
      match ((List.range 5).map fun (k : Nat) => clampScale (ocp - 2 + k)).find? fun x => allFit f (cvtRnd mods) x vals with
      | some x => x
      | none => 0xFE

/-- Whether an element format holds NaN (R31). -/
def hasNan (f : Nat) : Bool :=
  f == 0x10 || f == 0x11

/-- An element of a block target at the chosen scale (R29, R31). -/
def cvtElem (f : Nat) (mods : CvtMod) (x : Nat) (v : FVal) : Nat × CvtCounts :=
  let rnd := cvtRnd mods
  let s := (x : Int) - 127
  match v with
  | .nan => if f = 0x10 then (0x7F, {}) else (0x7E, {})
  | .inf n => if f = 0x10 then (0x7F, { inf2nan := 1 }) else (withSign e5m2 n (infCode e5m2), {})
  | .fin n m e =>
    let beyond := !fitsAt f rnd 0xFE n m e
    match floatOf f with
    | some ff =>
      let c := roundCode ff rnd n m (e - s) false
      if beyond then
        if mods.inf && f == 0x11 then (withSign ff n (infCode ff), { inf := 1 })
        else (withSign ff n (maxCode ff), { sat := 1 })
      else if c ≤ maxCode ff then (withSign ff n c, {})
      else (withSign ff n (maxCode ff), { clamp := 1 })
    | none =>
      let w := elemWidth f
      let i := roundInt rnd n m (e - s) (intStep f)
      let lim := if n then intMin w else intMax w
      if beyond then (unsignedOf w lim, { sat := 1 })
      else if intMin w ≤ i && i ≤ intMax w then (unsignedOf w i, {})
      else (unsignedOf w lim, { clamp := 1 })

/-- A block of 32 values converted to a block format (R29 to R31): scale byte, element bits and counts. A position that
is none is written as a positive zero and takes no part in the scale (R17, R414). -/
def cvtBlock (f : Nat) (mods : CvtMod) (vals : List (Option FVal)) : Nat × List Nat × CvtCounts :=
  let live := vals.filterMap id
  if !hasNan f && live.any (fun v => match v with | .fin .. => false | _ => true) then
    (0xFF, vals.map fun _ => 0, { nanBlk := 1 })
  else
    let x := chooseScale f mods live
    let els := vals.map fun o => match o with | some v => cvtElem f mods x v | none => (0, {})
    (x, els.map (·.1), els.foldl (fun c e => c.add e.2) {})

end Sys2Proof.Machine
end

