-- ==== Sys2Proof/Machine/Special.lean ====
section
/-! DEFINITION. The special class of R171: RCP, RSQRT, EXP2, LOG2, TANH and ERF. The manual bounds their results and
leaves the choice within the bound open, so each is enclosed between two fixed-point numbers and the result is a free
pick among the FP32 values that the bound allows (log entry 20). Fixed-point numbers here count steps of `2^-320`. -/

namespace Sys2Proof.Machine

/-- Fraction bits of the fixed-point numbers. -/
def fxBits : Nat := 320

/-- One in fixed point. -/
def fxOne : Nat := 2 ^ fxBits

/-- ln 2, to within one step. -/
def fxLn2 : Nat := 0xb17217f7d1cf79abc9e3b39803f2f6af40f343267298b62d8a0d175b8baafa2be7b876206debac98

/-- π, to within one step. -/
def fxPi : Nat := 0x3243f6a8885a308d313198a2e03707344a4093822299f31d0082efa98ec4e6c89452821e638d01377

/-- Product of fixed-point numbers. -/
def fxMul (a b : Nat) : Nat :=
  a * b / fxOne

/-- Quotient of fixed-point numbers. -/
def fxDiv (a b : Nat) : Nat :=
  a * fxOne / b

/-- `e^z` for `z` in [0, 1), by its series. -/
def fxExp (z : Nat) : Nat :=
  ((List.range 90).foldl (fun (acc : Nat × Nat) k => (acc.1 + acc.2, fxMul acc.2 z / (k + 1))) (0, fxOne)).1

/-- `2^f` for `f` in [0, 1). -/
def fxExp2 (f : Nat) : Nat :=
  fxExp (fxMul f fxLn2)

/-- `ln f` for `f` in [1, 2), by the series of the inverse hyperbolic tangent. -/
def fxLn (f : Nat) : Nat :=
  let z := fxDiv (f - fxOne) (f + fxOne)
  let z2 := fxMul z z
  2 * ((List.range 110).foldl (fun (acc : Nat × Nat) k => (acc.1 + acc.2 / (2 * k + 1), fxMul acc.2 z2)) (0, z)).1

/-- `e^(-y)` for `y ≥ 0` in fixed point; 0 where it is below the fixed-point step. -/
def fxExpNeg (y : Nat) : Nat :=
  let t := fxDiv y fxLn2
  let n := t / fxOne
  let r := t % fxOne
  if 320 < n then 0
  else if r = 0 then fxOne / 2 ^ n
  else fxExp2 (fxOne - r) / 2 ^ (n + 1)

/-- An enclosure of an exact result: it lies strictly between the two bounds, or is both when they are equal. The bounds
are in steps of `2^unit`. -/
structure Enclosure where
  lo : Int
  hi : Int
  unit : Int
deriving DecidableEq, Repr

/-- The enclosure of a fixed-point number whose error is below `2^-256`. -/
def encloseFx (neg : Bool) (v : Nat) (unit : Int) : Enclosure :=
  let d : Int := 2 ^ 64
  let x : Int := if neg then -(v : Int) else v
  ⟨x - d, x + d, unit⟩

/-- The enclosure of a result of TANH or ERF, whose magnitude is below 1: `v` is in steps of `2^-320` and its error is
below `2^b` steps. -/
def encloseUnit (neg : Bool) (v b : Nat) : Enclosure :=
  let lo : Int := (v : Int) - 2 ^ b
  let hi : Int := min ((v : Int) + 2 ^ b) fxOne
  if neg then ⟨-hi, -lo, -(fxBits : Int)⟩ else ⟨lo, hi, -(fxBits : Int)⟩

/-- The enclosure of an exact value. -/
def encloseExact (n unit : Int) : Enclosure :=
  ⟨n, n, unit⟩

/-- `m * 2^e` in fixed point, rounded down. -/
def toFx (m : Nat) (e : Int) : Nat :=
  m * pow2 (e + fxBits) / pow2 (-(e + fxBits))

/-- Whether `m * 2^e` is a power of two. -/
def isPow2 (m : Nat) : Bool :=
  m == 2 ^ Nat.log2 m

/-- Functions of the special class whose results are bounded, not fixed. -/
inductive SpecialFn where
  | rcp | rsqrt | exp2 | log2 | tanh | erf
deriving DecidableEq, Repr

/-- Number of a function, the argument of `Config.specialPick`. -/
def SpecialFn.num : SpecialFn → Nat
  | .rcp => 0
  | .rsqrt => 1
  | .exp2 => 2
  | .log2 => 3
  | .tanh => 4
  | .erf => 5

/-- The greatest error of a function, in ulp (R171). -/
def SpecialFn.bound : SpecialFn → Nat
  | .rcp | .rsqrt => 1
  | _ => 2

/-- `1 / (m * 2^e)`. -/
def encloseRcp (neg : Bool) (m : Nat) (e : Int) : Enclosure :=
  if isPow2 m then encloseExact (if neg then -1 else 1) (-magOf m e)
  else
    let q := fxOne * 2 ^ Nat.log2 m / m
    let x : Int := if neg then -((q : Int) + 1) else q
    ⟨x, x + 1, -(fxBits : Int) - magOf m e⟩

/-- `1 / sqrt (m * 2^e)`: with an even exponent, `sqrt (2^640 / m)` steps. -/
def encloseRsqrt (m : Nat) (e : Int) : Enclosure :=
  let odd := e % 2 == 1
  let m' := if odd then 2 * m else m
  let e' := if odd then e - 1 else e
  let n := 2 ^ 640 / m'
  let r := isqrt n
  let unit := -(320 : Int) - e' / 2
  if r * r * m' = 2 ^ 640 then encloseExact r unit else ⟨r, r + 1, unit⟩

/-- `2^x`. -/
def encloseExp2 (neg : Bool) (m : Nat) (e : Int) : Enclosure :=
  let t := onGrid neg m (max e (-320)) (-320)
  let n := t / (fxOne : Int)
  let r := (t % (fxOne : Int)).toNat
  if r = 0 then encloseExact 1 n else encloseFx false (fxExp2 r) (n - fxBits)

/-- `log2 (m * 2^e)`. -/
def encloseLog2 (m : Nat) (e : Int) : Enclosure :=
  if isPow2 m then encloseExact (magOf m e) 0
  else
    let f := m * fxOne / 2 ^ Nat.log2 m
    let v : Int := magOf m e * (fxOne : Int) + fxDiv (fxLn f) fxLn2
    ⟨v - 2 ^ 64, v + 2 ^ 64, -(fxBits : Int)⟩

/-- `tanh x`: `(1 - q) / (1 + q)` with `q = e^(-2 |x|)`. -/
def encloseTanh (neg : Bool) (m : Nat) (e : Int) : Enclosure :=
  if m = 0 then encloseExact 0 0
  else if 8 ≤ magOf m e then encloseUnit neg fxOne 64
  else
    let q := fxExpNeg (2 * toFx m e)
    encloseUnit neg (fxDiv (fxOne - q) (fxOne + q)) 64

/-- `erf x`: `2/sqrt π * e^(-x^2) * Σ 2^k x^(2k+1) / (2k+1)!!`. -/
def encloseErf (neg : Bool) (m : Nat) (e : Int) : Enclosure :=
  if m = 0 then encloseExact 0 0
  else if 3 ≤ magOf m e then encloseUnit neg fxOne 230
  else
    let x := toFx m e
    let x2 := fxMul x x
    let sum := ((List.range 700).foldl
      (fun (acc : Nat × Nat) k => (acc.1 + acc.2, 2 * fxMul acc.2 x2 / (2 * k + 3))) (0, x)).1
    encloseUnit neg (fxDiv (2 * fxMul (fxExpNeg x2) sum) (isqrt (fxPi * fxOne))) 110

/-- The FP32 codes as integers in the order of their values: both zeros at 0. -/
def codeOfIndex (i : Int) : Nat :=
  if i < 0 then 2 ^ 31 + i.natAbs else i.toNat

/-- `n * 2^u ≤ m * 2^v`, and strictly so if asked. -/
def cmpScaled (strict : Bool) (n u m v : Int) : Bool :=
  let lo := min u v
  let a := n * pow2 (u - lo)
  let b := m * pow2 (v - lo)
  if strict then decide (a < b) else decide (a ≤ b)

/-- Whether the FP32 value of index `i` is within `bound` ulp of what an enclosure holds, and on the side that the
rounding modifier asks for (R171). -/
def withinUlp (rnd : Rounding) (bound : Nat) (x : Enclosure) (i : Int) : Bool :=
  let exact := x.lo == x.hi
  let mag := if x.lo.natAbs ≤ x.hi.natAbs then x.lo.natAbs else x.hi.natAbs
  let ulp := if mag = 0 then lsbExp fp32 else stepOf fp32 mag x.unit
  let c := codeMag fp32 i.natAbs
  let y := onGrid (i < 0) c.1 c.2 (-149)
  let lo := min (min x.unit ulp) (-149)
  let yv := y * pow2 (-149 - lo)
  let u := (bound : Int) * pow2 (ulp - lo)
  cmpScaled (!exact) (yv - u) lo x.hi x.unit &&
  cmpScaled (!exact) x.lo x.unit (yv + u) lo &&
  (rnd != .rup || cmpScaled (!exact) x.lo x.unit yv lo) &&
  (rnd != .rdn || cmpScaled (!exact) yv lo x.hi x.unit)

/-- The index of the FP32 value at or below the lower bound of an enclosure, limited to the finite values. -/
def indexNear (x : Enclosure) : Int :=
  let c : Int := min (roundCode fp32 .rtz false x.lo.natAbs x.unit false) (maxCode fp32)
  if x.lo < 0 then -c else c

/-- The indices of the FP32 values that R171 allows for an enclosed result. -/
def allowedIndices (rnd : Rounding) (bound : Nat) (x : Enclosure) : List Int :=
  ((List.range 13).map fun (k : Nat) => indexNear x + (k : Int) - 6).filter fun i =>
    i.natAbs ≤ maxCode fp32 && withinUlp rnd bound x i

/-- Number of a rounding modifier, the argument of `Config.specialPick`. -/
def roundNum : Rounding → Nat
  | .rne => 0
  | .rtz => 1
  | .rup => 2
  | .rdn => 3

/-- The result for an enclosed value: a free pick among the allowed ones, a zero with an open sign; where no finite FP32
value lies within the bound, the overflow or underflow result of the rounding modifier. -/
def pickSpecial (fn : SpecialFn) (rnd : Rounding) (bits : Word) (x : Enclosure) : Word :=
  let l := allowedIndices rnd fn.bound x
  if l.isEmpty then BitVec.ofNat 32 (encodeF fp32 rnd (.fin (x.lo < 0) x.lo.natAbs x.unit))
  else
    let n := Config.specialPick fn.num (roundNum rnd) bits
    let i := l.getD (n % l.length) 0
    BitVec.ofNat 32 (if i = 0 ∧ n / l.length % 2 = 1 then 2 ^ 31 else codeOfIndex i)

/-- The enclosure of a function at a finite operand, if the exact function has a value there. -/
def encloseSpecial (fn : SpecialFn) (neg : Bool) (m : Nat) (e : Int) : Option Enclosure :=
  match fn with
  | .rcp => if m = 0 then none else some (encloseRcp neg m e)
  | .rsqrt => if m = 0 || neg then none else some (encloseRsqrt m e)
  | .exp2 =>
    if m = 0 then some (encloseExact 1 0)
    else if 8 ≤ magOf m e then some (encloseExact 1 (if neg then -400 else 400))
    else some (encloseExp2 neg m e)
  | .log2 => if m = 0 || neg then none else some (encloseLog2 m e)
  | .tanh => some (encloseTanh neg m e)
  | .erf => some (encloseErf neg m e)

/-- An FP32 word with every NaN made the canonical one (R11). -/
def canonNan (w : Word) : Word :=
  if decodeF fp32 w.toNat = .nan then BitVec.ofNat 32 (nanCode fp32) else w

/-- The enclosure of a function at an infinite operand, where it has a finite limit there (R171). -/
def encloseInf (fn : SpecialFn) (neg : Bool) : Option Enclosure :=
  match fn with
  | .rcp => some (encloseExact 0 0)
  | .rsqrt => if neg then none else some (encloseExact 0 0)
  | .exp2 => if neg then some (encloseExact 0 0) else none
  | .log2 => none
  | .tanh | .erf => some (encloseExact (if neg then -1 else 1) 0)

/-- Whether a function grows to +∞ at +∞. -/
def growsToInf : SpecialFn → Bool
  | .exp2 | .log2 => true
  | _ => false

/-- A special function of one FP32 lane (R171): the canonical NaN for a NaN (R11), at an infinite operand the limit where
there is one, a free value where the exact function has no value. -/
def specialF (fn : SpecialFn) (rnd : Rounding) (bits : Word) : Word :=
  match decodeF fp32 bits.toNat with
  | .nan => BitVec.ofNat 32 (nanCode fp32)
  | .inf neg =>
    match encloseInf fn neg with
    | some x => pickSpecial fn rnd bits x
    | none => if growsToInf fn && !neg then bits else canonNan (Config.specialOpen fn.num bits)
  | .fin neg m e =>
    match encloseSpecial fn neg m e with
    | some x => pickSpecial fn rnd bits x
    | none => canonNan (Config.specialOpen fn.num bits)

end Sys2Proof.Machine
end

