-- ==== Sys2Proof/Machine/RegTable.lean ====
section
/-! DEFINITION. The register map of the module: the rows of every register table of the manual (R404 to R413), written
out block by block from the spec's tables, and where each block lies (R409 to R411). A register is one 32-bit word; its
masks say which of its bits are W1C, RW, WO and RC, every other bit being RO. -/

namespace Sys2Proof.Machine

/-- The kinds of register block (R409 to R411, R174). -/
inductive RegBlock where
  | arr | sp | vat | aditCfg | adit | assay | core | slot | desc | hoistCfg | hoist | hq | dram | ch | tram | link | wc | port | sess | seamClk | hubClk | dep | loss | img | start | cal | ident | seamStat | staging | attWindow | idWindow
deriving DecidableEq, Repr

/-- One register of a block: offset, the masks of its W1C, RW, WO and RC bits, and its reset value (R404, R407). A reset
value that the tables take from the image, fuses, straps or manufacturing is read from `State.pwr`, not from here. -/
structure RegDef where
  off : Nat
  w1c : Word
  rw : Word
  wo : Word
  rc : Word
  reset : Word
deriving DecidableEq, Repr

/-- A counter: 32 bits, clear on read (R406). -/
def counterReg (off : Nat) : RegDef := ⟨off, 0, 0, 0, 0xFFFFFFFF, 0⟩

/-- A word of status flags, `n` of them from bit 0 (R405). -/
def flagReg (off n : Nat) : RegDef := ⟨off, BitVec.ofNat 32 (2 ^ n - 1), 0, 0, 0, 0⟩

/-- A read-only word with its reset value. -/
def statusReg (off : Nat) (reset : Word) : RegDef := ⟨off, 0, 0, 0, 0, reset⟩

/-- Registers of the block `arr` (R63, R132), part 0. -/
def regsArr0 : List RegDef := [
  statusReg 0x0 0x8600,  -- MODE, STREAMING, FROZEN, SPARE_IN_USE, FENCED, LATENCY, SLOTS_LAST
  flagReg 0x4 4,  -- FROZE, DRAIN_BACKUP, SCALE_MISMATCH, WLOAD_WAIT
  counterReg 0x8,  -- ARR_FREEZE_CNT
  counterReg 0xC,  -- ARR_DRAIN_FREEZE_CNT
  counterReg 0x10,  -- ARR_VEC_CNT
  counterReg 0x14,  -- ARR_PLANE_CNT
  counterReg 0x18,  -- ARR_TRIM_CNT
  counterReg 0x1C,  -- ARR_SKIP_CNT
  counterReg 0x20,  -- ARR_IDLE_CNT
  counterReg 0x24,  -- ARR_WLOAD_WAIT_CNT
  counterReg 0x28,  -- ARR_SCALE_MISMATCH_CNT
  statusReg 0x2C 0x1FC7F   -- BAD_ROW, SPARE_BAD, TEST_RESULT, BAD_COL, FENCE_TALLY, FENCE_TEST
  ]

/-- Registers of the block `arr` (R63, R132), part 1. -/
def regsArr1 : List RegDef := [
  flagReg 0x30 4,  -- ROW_FAIL, COL_FAIL, REPEAT_FAIL, TEST_FAIL
  counterReg 0x34,  -- TLY_MISMATCH_CNT
  counterReg 0x38,  -- TLY_CHECK_CNT
  counterReg 0x3C   -- ARR_TEST_CNT
  ]

/-- The registers of the block `arr` (R63, R132). -/
def regsArr : List RegDef := regsArr0 ++ regsArr1

/-- Registers of the block `sp` (R93). -/
def regsSp : List RegDef := [
  counterReg 0x0,  -- SP_MD_DROP_CNT
  counterReg 0x4,  -- SP_DUP_POS_CNT
  counterReg 0x8,  -- SP_IDX_OOB_CNT
  counterReg 0xC,  -- SP_ORDER_BREAK_CNT
  counterReg 0x10,  -- SP_SPLIT_CNT
  counterReg 0x14,  -- SP_SPAN_SPLIT_CNT
  counterReg 0x18,  -- SP_BLK_SKIP_CNT
  counterReg 0x1C,  -- JIG_MATCH_CNT
  counterReg 0x20,  -- JIG_BUSY_CNT
  flagReg 0x24 5   -- MD_DROP, DUP_POS, IDX_OOB, ORDER_BREAK, SPLIT
  ]

/-- Registers of the block `vat` (R113). -/
def regsVat : List RegDef := [
  statusReg 0x0 0x0,  -- GRAN_USED, TILES_OPEN, TILES_X64
  flagReg 0x4 7,  -- OVF, NAN, SPECIAL, EXACT_LOST, OPEN_WRITE, LONG_SUM, RESTORE_FAIL
  counterReg 0x8,  -- VAT_ADD_CNT
  counterReg 0xC,  -- VAT_OVF_CNT
  counterReg 0x10,  -- VAT_NAN_CNT
  counterReg 0x14,  -- VAT_SPECIAL_CNT
  counterReg 0x18,  -- VAT_UFL_CNT
  counterReg 0x1C,  -- VAT_SHIFT_CNT
  counterReg 0x20,  -- VAT_X64_LOST_CNT
  counterReg 0x24,  -- VAT_SAVE_CNT
  counterReg 0x28,  -- VAT_RESTORE_CNT
  counterReg 0x2C   -- VAT_OPEN_WRITE_CNT
  ]

/-- Registers of the block `aditCfg` (R152). -/
def regsAditCfg : List RegDef := [
  statusReg 0x0 0x1F8   -- THRESH_DEFAULT, ADAPT, UNITS_LIVE
  ]

/-- Registers of the block `adit` (R152). -/
def regsAdit : List RegDef := [
  statusReg 0x0 0x0,  -- BUSY, FENCED, ROWS, X64, CHUNKED
  flagReg 0x4 2,  -- RESIDUE_FAIL, DRAM_WAIT
  counterReg 0x8,  -- ADIT_OP_CNT
  counterReg 0xC,  -- ADIT_READ_CNT
  counterReg 0x10,  -- ADIT_PROD_CNT
  counterReg 0x14,  -- ADIT_BUSY_CNT
  counterReg 0x18,  -- ADIT_WAIT_CNT
  counterReg 0x1C   -- ADIT_RESIDUE_CNT
  ]

/-- Registers of the block `assay` (R152). -/
def regsAssay : List RegDef := [
  flagReg 0x0 4,  -- AUDIT_FAIL, STALE_SUMS, OFF, MARGIN
  counterReg 0x4,  -- ASSAY_TILE_CNT
  counterReg 0x8,  -- ASSAY_ROW_SKIP_CNT
  counterReg 0xC,  -- ASSAY_OUT_SKIP_CNT
  counterReg 0x10,  -- ASSAY_UNDECIDED_CNT
  counterReg 0x14,  -- ASSAY_AUDIT_CNT
  counterReg 0x18,  -- ASSAY_AUDIT_FAIL_CNT
  counterReg 0x1C   -- ASSAY_DISCARD_MAX
  ]

/-- Registers of the block `core` (R174), part 0. -/
def regsCore0 : List RegDef := [
  statusReg 0x0 0x1780,  -- RUN_SLOT, RUN_VALID, SLOTS_USED, ARRAYS_LIVE, SAVE_BUSY, ACLK_LIVE, FENCED
  flagReg 0x4 4,  -- SWITCH, PREEMPT, ABORT, ARRAY_LOST
  statusReg 0x8 0xC810,  -- SWITCH_WAIT, PREEMPT_GAP
  counterReg 0x50,  -- CORE_SWITCH_CNT
  counterReg 0x54,  -- CORE_PREEMPT_CNT
  counterReg 0x58,  -- CORE_SAVE_CYC_CNT
  counterReg 0x5C,  -- CORE_RESTORE_CYC_CNT
  counterReg 0x60,  -- CORE_NOREADY_CNT
  counterReg 0x64,  -- CORE_ABORT_CNT
  counterReg 0x100,  -- SCR_CE_CNT
  counterReg 0x104,  -- SCR_UE_CNT
  counterReg 0x108   -- SCR_CONFLICT_CNT
  ]

/-- Registers of the block `core` (R174), part 1. -/
def regsCore1 : List RegDef := [
  counterReg 0x10C,  -- SCR_STARVE_CNT
  flagReg 0x110 2,  -- CE, UE
  counterReg 0x200,  -- VE_BUSY_CNT
  counterReg 0x204,  -- VE_INSN_CNT
  counterReg 0x208,  -- VE_IDX_OOB_CNT
  flagReg 0x20C 2,  -- IDX_OOB, CVT
  counterReg 0x210,  -- CVT_SAT
  counterReg 0x214,  -- CVT_INF
  counterReg 0x218,  -- CVT_CLAMP
  counterReg 0x21C,  -- CVT_NANBLK
  counterReg 0x220,  -- CVT_NANINT
  counterReg 0x224   -- CVT_INF2NAN
  ]

/-- The registers of the block `core` (R174). -/
def regsCore : List RegDef := regsCore0 ++ regsCore1

/-- Registers of the block `slot` (R174). -/
def regsSlot : List RegDef := [
  statusReg 0x0 0x0,  -- STATE, TILES_SAVED, GRAN_HELD, STAGE
  statusReg 0x4 0x0,  -- TASK_ID
  statusReg 0x8 0xFFFFFFFF,  -- DRY_LO
  statusReg 0xC 0xFFFFFFFF   -- DRY_HI
  ]

/-- Registers of the block `desc` (R201). -/
def regsDesc : List RegDef := [
  statusReg 0x0 0x0,  -- DT_IN_USE
  flagReg 0x4 2,  -- CREATE_FAIL, FULL
  counterReg 0x8,  -- DT_FAIL_CNT
  statusReg 0xC 0x0,  -- LAST_STATUS, LAST_SEQ
  statusReg 0x10 0x0   -- DT_PENDING
  ]

/-- Registers of the block `hoistCfg` (R222). -/
def regsHoistCfg : List RegDef := [
  statusReg 0x0 0x2710   -- SLACK
  ]

/-- Registers of the block `hoist` (R222). -/
def regsHoist : List RegDef := [
  statusReg 0x0 0x0,  -- Q_ACTIVE, XLATE_ON
  flagReg 0x4 3,  -- XLATE_FAULT, IDX_OOB, DISCARD
  counterReg 0x8,  -- HOIST_BYTES_CNT
  counterReg 0xC,  -- HOIST_SEG_CNT
  counterReg 0x10,  -- HOIST_SMALL_CNT
  counterReg 0x14,  -- HOIST_SLOW_CNT
  counterReg 0x18,  -- HOIST_IDX_OOB_CNT
  counterReg 0x1C,  -- HOIST_DISCARD_CNT
  counterReg 0x20,  -- HOIST_XLATE_CNT
  counterReg 0x24,  -- HOIST_BATCH_CNT
  statusReg 0x28 0x0,  -- HOIST_FAULT_LO
  statusReg 0x2C 0x0   -- HOIST_FAULT_HI, FAULT_QUEUE
  ]

/-- Registers of the block `hq` (R222). -/
def regsHq : List RegDef := [
  ⟨0x0, 0x0, 0x7F, 0x0, 0x0, 0x10⟩,  -- HQ_CFG.MAX_OUT
  statusReg 0x4 0x0   -- HQ_STATUS.OUTSTANDING, HQ_STATUS.STOPPED, HQ_STATUS.LOCAL_DESC
  ]

/-- Registers of the block `dram` (R222). -/
def regsDram : List RegDef := [
  statusReg 0x0 0xFFFFFFFF,  -- DRAM_STATUS.CH_LIVE
  flagReg 0x4 3,  -- CE, UE, HOT
  counterReg 0x8,  -- DRAM_CE_CNT
  counterReg 0xC,  -- DRAM_UE_CNT
  counterReg 0x10,  -- DRAM_RD_SLOT_CNT
  counterReg 0x14,  -- DRAM_WR_SLOT_CNT
  counterReg 0x18,  -- DRAM_RM_SLOT_CNT
  counterReg 0x1C,  -- DRAM_IDLE_SLOT_CNT
  counterReg 0x20,  -- DRAM_ACT_SLOT_CNT
  counterReg 0x24,  -- DRAM_RMW_CNT
  statusReg 0x28 0x0   -- DRAM_TEMP
  ]

/-- Registers of the block `ch` (R243), part 0. -/
def regsCh0 : List RegDef := [
  statusReg 0x0 0x3E8,  -- TAIL, ACTIVE, PRODUCER
  statusReg 0x4 0x0,  -- BANK0, BANK1, WPTR, RPTR, REJECT, IN_PACKET
  flagReg 0x8 7,  -- CH_EVENT.CE, CH_EVENT.UE, CH_EVENT.REWIND, CH_EVENT.TAIL, CH_EVENT.STALE, CH_EVENT.OVERCREDIT, CH_EVENT.RESET
  ⟨0xC, 0x0, 0x0, 0x1, 0x0, 0x0⟩,  -- CH_CTRL.RESET
  counterReg 0x10,  -- CH_PKT_CNT
  counterReg 0x14,  -- CH_WORD_CNT
  counterReg 0x18,  -- CH_CE_CNT
  counterReg 0x1C,  -- CH_UE_CNT
  counterReg 0x20,  -- CH_REWIND_CNT
  counterReg 0x24,  -- CH_TAIL_CNT
  counterReg 0x28,  -- CH_STALE_CNT
  counterReg 0x2C   -- CH_OVERCREDIT_CNT
  ]

/-- Registers of the block `ch` (R243), part 1. -/
def regsCh1 : List RegDef := [
  counterReg 0x30,  -- CH_RESET_DROP_CNT
  counterReg 0x34   -- CH_ABANDON_CNT
  ]

/-- The registers of the block `ch` (R243). -/
def regsCh : List RegDef := regsCh0 ++ regsCh1

/-- Registers of the block `tram` (R243). -/
def regsTram : List RegDef := [
  statusReg 0x0 0x0,  -- BUF_LINES, STALLED, KEEP_OFF
  flagReg 0x4 2,  -- CE, UE
  counterReg 0x8,  -- TRAM_KEEP_CNT
  counterReg 0xC,  -- TRAM_FWD_CNT
  counterReg 0x10,  -- TRAM_STALL_CNT
  counterReg 0x14,  -- TRAM_CE_CNT
  counterReg 0x18,  -- TRAM_UE_CNT
  statusReg 0x1C 0x0   -- 
  ]

/-- Registers of the block `link` (R243). -/
def regsLink : List RegDef := [
  statusReg 0x0 0x0,  -- PRESENT, UP
  counterReg 0x4,  -- LINK_CE_CNT
  counterReg 0x8,  -- LINK_UE_CNT
  counterReg 0xC   -- LINK_BUSY_CNT
  ]

/-- Registers of the block `wc` (R277). -/
def regsWc : List RegDef := [
  statusReg 0x0 0x0,  -- WC_NEXT
  statusReg 0x4 0x0,  -- WC_LIMIT
  statusReg 0x8 0x0,  -- WC_NODE, ACTIVE
  statusReg 0xC 0x0,  -- WC_DONE
  counterReg 0x10,  -- WC_DUP_CNT
  flagReg 0x14 2   -- DUP, RESTART
  ]

/-- Registers of the block `port` (R308), part 0. -/
def regsPort0 : List RegDef := [
  statusReg 0x0 0x0,  -- LINK_UP, MODE, IN_SERVICE, PAUSED, LOT_SESSIONS
  flagReg 0x4 10,  -- LINK_DOWN, FEC_UNCORR, CRC32C_ERR, SEQ_GAP, OVERCREDIT, DUP_LOT, LOT_ERR, RESP_DROP, PFC_RX, MG_DROP
  statusReg 0x8 0x0,  -- MAC_LO
  statusReg 0xC 0x0,  -- MAC_HI
  statusReg 0x10 0x0,  -- MODULE_NUM, SIDE, STRAPS
  statusReg 0x14 0x7AB000,  -- VLAN_ID, PCP_DATA, PCP_CTRL, PCP_MGMT, FAMILY, BRINGUP_OK
  statusReg 0x18 0x6E016E00,  -- ILT_PORT, MGMT_PORT
  statusReg 0x1C 0xC8,  -- ILT_RTO
  counterReg 0x40,  -- PORT_RX_FRAME_CNT
  counterReg 0x44,  -- PORT_TX_FRAME_CNT
  counterReg 0x48,  -- PORT_FCS_ERR_CNT
  counterReg 0x4C   -- PORT_FEC_CORR_CNT
  ]

/-- Registers of the block `port` (R308), part 1. -/
def regsPort1 : List RegDef := [
  counterReg 0x50,  -- PORT_FEC_UNCORR_CNT
  counterReg 0x54,  -- PORT_SIZE_ERR_CNT
  counterReg 0x58,  -- PORT_FILTER_DROP_CNT
  counterReg 0x5C,  -- PORT_CRC32C_ERR_CNT
  counterReg 0x60,  -- PORT_SEQ_GAP_CNT
  counterReg 0x64,  -- PORT_DUP_PKT_CNT
  counterReg 0x68,  -- PORT_DUP_LOT_CNT
  counterReg 0x6C,  -- PORT_LOT_ERR_CNT
  counterReg 0x70,  -- PORT_OVERCREDIT_CNT
  counterReg 0x74,  -- PORT_NAK_TX_CNT
  counterReg 0x78,  -- PORT_RETX_CNT
  counterReg 0x7C   -- PORT_RESP_DROP_CNT
  ]

/-- Registers of the block `port` (R308), part 2. -/
def regsPort2 : List RegDef := [
  counterReg 0x80,  -- PORT_PFC_RX_CNT
  counterReg 0x84,  -- PORT_PAUSE_DROP_CNT
  counterReg 0x88,  -- PORT_TWO_END_CNT
  counterReg 0x8C   -- PORT_MG_DROP_CNT
  ]

/-- The registers of the block `port` (R308). -/
def regsPort : List RegDef := regsPort0 ++ regsPort1 ++ regsPort2

/-- Registers of the block `sess` (R308). -/
def regsSess : List RegDef := [
  statusReg 0x0 0x0,  -- KIND, NAK_PENDING, PEER_MODULE, PEER_SIDE
  statusReg 0x4 0x0,  -- EXP_PSN
  statusReg 0x8 0x0,  -- ACC_LSN
  statusReg 0xC 0x0   -- GRANTS
  ]

/-- Registers of the block `seamClk` (R331). -/
def regsSeamClk : List RegDef := [
  statusReg 0x0 0xF00,  -- ACLK_LIVE, KCLK_LIVE, FCLK_LIVE, MCLK_LIVE, LOCK, IN_RESET
  flagReg 0x4 5,  -- UNLOCK, FLUSH
  counterReg 0x8,  -- XING_RESET_CNT
  counterReg 0xC   -- XING_DROP_CNT
  ]

/-- Registers of the block `hubClk` (R331). -/
def regsHubClk : List RegDef := [
  statusReg 0x0 0x0,  -- LOCAL_TIME_LO
  statusReg 0x4 0x0,  -- LOCAL_TIME_HI
  statusReg 0x8 0x0,  -- PCLK_LIVE, HUB_FCLK_LIVE, PCLK_LOCK, HUB_FCLK_LOCK
  flagReg 0xC 3,  -- UNLOCK, TIME_SLIP, FLUSH
  counterReg 0x10,  -- XING_RESET_CNT
  counterReg 0x14,  -- XING_DROP_CNT
  flagReg 0x18 3,  -- MISS, STALE, LATE_START
  counterReg 0x1C,  -- DL_MISS_CNT
  counterReg 0x20,  -- DL_LATE_START_CNT
  counterReg 0x24,  -- DL_STALE_CNT
  statusReg 0x28 0x0   -- DL_STALE_WHERE.SEAM, DL_STALE_WHERE.CORE, DL_STALE_WHERE.EP, DL_STALE_WHERE.HUB, DL_STALE_WHERE.HUB_EP
  ]

/-- Registers of the block `dep` (R358), part 0. -/
def regsDep0 : List RegDef := [
  statusReg 0x0 0xC,  -- STATE, JNL_COPIES, MIRROR, GRANTS_HELD
  flagReg 0x4 9,  -- FENCE, HELD, VOID, JNL_SINGLE, MIRROR_LOST, WARM_RESET, ABORT_LIMIT, JNL_DISCARDED, LOSS_OVERFLOW
  statusReg 0x8 0x0,  -- SEAM_FENCE.SEAM_FENCED, SEAM_FENCE.DRAM_FENCED
  statusReg 0xC 0x0,  -- CORES_FENCED
  statusReg 0x10 0x0,  -- JNL_LOT_USED, JNL_RESP_USED
  statusReg 0x14 0x0,  -- JNL_TABLE_USED
  statusReg 0x18 0x0,  -- VOID_GRAN
  statusReg 0x1C 0x0,  -- HELD_JOBS
  counterReg 0x20,  -- DEP_ABORT_CNT
  counterReg 0x24,  -- DEP_REPLAY_CNT
  counterReg 0x28,  -- DEP_CONTAINED_CNT
  counterReg 0x2C   -- DEP_HELD_CNT
  ]

/-- Registers of the block `dep` (R358), part 1. -/
def regsDep1 : List RegDef := [
  counterReg 0x30,  -- DEP_REDO_CNT
  counterReg 0x34,  -- DEP_CORRECTED_CNT
  statusReg 0x38 0x0,  -- LOG_CLASS, LOG_LEVEL, LOG_SEAM, LOG_CORE, LOG_UNIT
  statusReg 0x3C 0x0,  -- LOG_TIME_LO
  statusReg 0x40 0x0,  -- LOG_TIME_HI
  ⟨0x44, 0x0, 0x0, 0x3FFFF, 0x0, 0x0⟩   -- DEP_CTRL.KEY, DEP_CTRL.WARM, DEP_CTRL.RESTORE_SKIP
  ]

/-- The registers of the block `dep` (R358). -/
def regsDep : List RegDef := regsDep0 ++ regsDep1

/-- Registers of the block `loss` (R358). -/
def regsLoss : List RegDef := [
  statusReg 0x0 0x0,  -- LR_ADDR_LO
  statusReg 0x4 0x0,  -- LR_ADDR_HI
  statusReg 0x8 0x0,  -- LR_COUNT
  statusReg 0xC 0x0   -- VALID, REHOMED, UNHOMED, RESUPPLIED
  ]

/-- Registers of the block `img` (R387), part 0. -/
def regsImg0 : List RegDef := [
  statusReg 0x0 0x0,  -- IMG_STATUS.SLOT, RESCUE, A_FAILED, A_REASON, USER_APPLIED, USER_REJECTED, USER_REASON, ENROLLED, OWNER_LOST, TAP_OPEN
  statusReg 0x4 0x0,  -- FW_VERSION
  statusReg 0x8 0x0,  -- SEC_VERSION, SEC_FLOOR, SLOTS_USED
  ⟨0xC, 0x0, 0x0, 0x3FF7, 0x0, 0x0⟩,  -- IMG_CTRL.CMD, TARGET, CHUNK
  ⟨0x10, 0x6, 0x0, 0x0, 0x0, 0x0⟩,  -- IMG_PROG.BUSY, DONE, ERROR, ERR_CODE, VERIFY_REASON
  statusReg 0x14 0x0,  -- ENROL_NONCE0 to 3
  statusReg 0x18 0x0,  -- ENROL_NONCE0 to 3
  statusReg 0x1C 0x0,  -- ENROL_NONCE0 to 3
  statusReg 0x20 0x0,  -- ENROL_NONCE0 to 3
  ⟨0x24, 0x0, 0x0, 0x3FFFF, 0x0, 0x0⟩,  -- OWNER_CTRL.KEY, ENROL, RELEASE
  ⟨0x28, 0x6, 0x0, 0x0, 0x0, 0x0⟩,  -- OWNER_STATUS.BUSY, DONE, FAIL, FAIL_CODE
  ⟨0x30, 0x0, 0xFFFFFFFF, 0x0, 0x0, 0x0⟩   -- ATT_NONCE0 to 7
  ]

/-- Registers of the block `img` (R387), part 1. -/
def regsImg1 : List RegDef := [
  ⟨0x34, 0x0, 0xFFFFFFFF, 0x0, 0x0, 0x0⟩,  -- ATT_NONCE0 to 7
  ⟨0x38, 0x0, 0xFFFFFFFF, 0x0, 0x0, 0x0⟩,  -- ATT_NONCE0 to 7
  ⟨0x3C, 0x0, 0xFFFFFFFF, 0x0, 0x0, 0x0⟩,  -- ATT_NONCE0 to 7
  ⟨0x40, 0x0, 0xFFFFFFFF, 0x0, 0x0, 0x0⟩,  -- ATT_NONCE0 to 7
  ⟨0x44, 0x0, 0xFFFFFFFF, 0x0, 0x0, 0x0⟩,  -- ATT_NONCE0 to 7
  ⟨0x48, 0x0, 0xFFFFFFFF, 0x0, 0x0, 0x0⟩,  -- ATT_NONCE0 to 7
  ⟨0x4C, 0x0, 0xFFFFFFFF, 0x0, 0x0, 0x0⟩,  -- ATT_NONCE0 to 7
  ⟨0x50, 0x0, 0x0, 0x1, 0x0, 0x0⟩,  -- ATT_CTRL.GO
  statusReg 0x54 0x0,  -- ATT_STATUS.BUSY, READY
  statusReg 0x60 0x0,  -- PWR_VIN, PWR_IIN
  statusReg 0x64 0x0,  -- PWR_PIN
  flagReg 0x68 4   -- PWR_EVENT.UNDERVOLT, OVERVOLT, THERM_WARN, CAL_AT_MAX
  ]

/-- Registers of the block `img` (R387), part 2. -/
def regsImg2 : List RegDef := [
  statusReg 0x6C 0x0,  -- HOT_TEMP, HOT_WHERE, HOT_HUB
  ⟨0x70, 0x0, 0x0, 0x0, 0xFFF, 0x0⟩   -- PWR_PEAK
  ]

/-- The registers of the block `img` (R387). -/
def regsImg : List RegDef := regsImg0 ++ regsImg1 ++ regsImg2

/-- Registers of the block `start` (R387), part 0. -/
def regsStart0 : List RegDef := [
  statusReg 0x0 0x0,  -- START_KIND
  statusReg 0x4 0x0,  -- WARM_COUNT
  statusReg 0x8 0x0,  -- T_SERVICE_LO
  statusReg 0xC 0x0,  -- T_SERVICE_HI
  statusReg 0x10 0x0,  -- ARR_REPAIRED, ARR_FENCED, ADIT_FENCED, CH_FENCED, BONDS_REPAIRED
  statusReg 0x14 0x0,  -- ARR_REPAIRED, ARR_FENCED, ADIT_FENCED, CH_FENCED, BONDS_REPAIRED
  statusReg 0x18 0x0,  -- ARR_REPAIRED, ARR_FENCED, ADIT_FENCED, CH_FENCED, BONDS_REPAIRED
  statusReg 0x1C 0x0,  -- ARR_REPAIRED, ARR_FENCED, ADIT_FENCED, CH_FENCED, BONDS_REPAIRED
  statusReg 0x20 0x0,  -- ARR_REPAIRED, ARR_FENCED, ADIT_FENCED, CH_FENCED, BONDS_REPAIRED
  statusReg 0x24 0x0,  -- ARR_REPAIRED, ARR_FENCED, ADIT_FENCED, CH_FENCED, BONDS_REPAIRED
  statusReg 0x28 0x0,  -- ARR_REPAIRED, ARR_FENCED, ADIT_FENCED, CH_FENCED, BONDS_REPAIRED
  statusReg 0x2C 0x0   -- ARR_REPAIRED, ARR_FENCED, ADIT_FENCED, CH_FENCED, BONDS_REPAIRED
  ]

/-- Registers of the block `start` (R387), part 1. -/
def regsStart1 : List RegDef := [
  statusReg 0x30 0x0,  -- ARR_REPAIRED, ARR_FENCED, ADIT_FENCED, CH_FENCED, BONDS_REPAIRED
  statusReg 0x34 0x0,  -- ARR_REPAIRED, ARR_FENCED, ADIT_FENCED, CH_FENCED, BONDS_REPAIRED
  statusReg 0x38 0x0,  -- ARR_REPAIRED, ARR_FENCED, ADIT_FENCED, CH_FENCED, BONDS_REPAIRED
  statusReg 0x3C 0x0,  -- ARR_REPAIRED, ARR_FENCED, ADIT_FENCED, CH_FENCED, BONDS_REPAIRED
  statusReg 0x40 0x0,  -- ARR_REPAIRED, ARR_FENCED, ADIT_FENCED, CH_FENCED, BONDS_REPAIRED
  statusReg 0x44 0x0,  -- ARR_REPAIRED, ARR_FENCED, ADIT_FENCED, CH_FENCED, BONDS_REPAIRED
  statusReg 0x48 0x0,  -- ARR_REPAIRED, ARR_FENCED, ADIT_FENCED, CH_FENCED, BONDS_REPAIRED
  statusReg 0x4C 0x0   -- ARR_REPAIRED, ARR_FENCED, ADIT_FENCED, CH_FENCED, BONDS_REPAIRED
  ]

/-- The registers of the block `start` (R387). -/
def regsStart : List RegDef := regsStart0 ++ regsStart1

/-- Registers of the block `cal` (R387). -/
def regsCal : List RegDef := [
  statusReg 0x0 0x0,  -- CAL_STATUS.VSET, GUARD, IDLE, DESCENT, FULL_BANDS, LIGHT_BANDS
  statusReg 0x4 0x0,  -- BAND, LOAD, MARGIN, TEMP
  flagReg 0x8 3,  -- CAL_EVENT.MARGIN_LOW, FULL_DONE, AT_MAX
  counterReg 0xC,  -- CAL_LOW_CNT
  counterReg 0x10   -- CAL_WAKE_CNT
  ]

/-- Registers of the block `ident` (R412). -/
def regsIdent : List RegDef := [
  statusReg 0x0 0x4D161A58,  -- DEV_ID.VENDOR, DEV_ID.PART
  statusReg 0x4 0x110,  -- STEPPING, MAP_VERSION
  statusReg 0x8 0x0,  -- SERIAL_LO
  statusReg 0xC 0x0,  -- SERIAL_HI
  statusReg 0x10 0x18042010,  -- CAPS.SEAMS, CAPS.CORES, CAPS.ARRAYS, CAPS.DRAM_GIB
  statusReg 0x14 0x0,  -- MG_QUEUED, MG_SESSIONS
  flagReg 0x18 2,  -- MG_EVENT.BAD_REQUEST, ABANDONED
  counterReg 0x1C,  -- MG_REQ_CNT
  counterReg 0x20,  -- MG_BADREQ_CNT
  counterReg 0x24   -- MG_ABANDON_CNT
  ]

/-- Registers of the block `seamStat` (R413). -/
def regsSeamStat : List RegDef := [
  statusReg 0x0 0x0,  -- SEAM_INFO.SEAM, COL, ROW, TRAM_PLACE
  statusReg 0x4 0xF00,  -- SEAM_STATE.FENCED, DRAM_FENCED, CORES_FENCED, ADIT_LIVE
  statusReg 0x8 0x0,  -- CORE_FENCE
  statusReg 0xC 0x0   -- ARRAYS_FENCED
  ]

/-- The registers of a block. -/
def RegBlock.regs : RegBlock → List RegDef
  | .arr => regsArr
  | .sp => regsSp
  | .vat => regsVat
  | .aditCfg => regsAditCfg
  | .adit => regsAdit
  | .assay => regsAssay
  | .core => regsCore
  | .slot => regsSlot
  | .desc => regsDesc
  | .hoistCfg => regsHoistCfg
  | .hoist => regsHoist
  | .hq => regsHq
  | .dram => regsDram
  | .ch => regsCh
  | .tram => regsTram
  | .link => regsLink
  | .wc => regsWc
  | .port => regsPort
  | .sess => regsSess
  | .seamClk => regsSeamClk
  | .hubClk => regsHubClk
  | .dep => regsDep
  | .loss => regsLoss
  | .img => regsImg
  | .start => regsStart
  | .cal => regsCal
  | .ident => regsIdent
  | .seamStat => regsSeamStat
  | .staging | .attWindow | .idWindow => []

/-- First and last offsets of the rows marked reserved, which count as registers (R408). Of a core these are the rows of
*Core register blocks* that no other block's registers fill (log entry 17). -/
def RegBlock.reserved : RegBlock → List (Nat × Nat)
  | .arr => []
  | .sp => [(0x28, 0x3C)]
  | .vat => [(0x30, 0x3C)]
  | .aditCfg => []
  | .adit => [(0x20, 0xFC)]
  | .assay => [(0x20, 0x3C)]
  | .core => [(0x0, 0x3FC), (0x740, 0x1FFC)]
  | .slot => []
  | .desc => [(0x14, 0x3C)]
  | .hoistCfg => []
  | .hoist => [(0x30, 0xFC)]
  | .hq => []
  | .dram => [(0x2C, 0x3C)]
  | .ch => [(0x38, 0x3C)]
  | .tram => []
  | .link => []
  | .wc => [(0x18, 0x1C)]
  | .port => [(0x90, 0xFC)]
  | .sess => [(0x10, 0x1C)]
  | .seamClk => [(0x10, 0x3C)]
  | .hubClk => [(0x2C, 0x3C)]
  | .dep => [(0x48, 0x7C)]
  | .loss => []
  | .img => []
  | .start => []
  | .cal => [(0x14, 0x3C)]
  | .ident => [(0x28, 0x3C)]
  | .seamStat => []
  | .staging | .attWindow | .idWindow => []

/-! ## Names of the counters (offsets in their blocks) and of the status flags (offset and bit) -/

/-- ARR_FREEZE_CNT, block `arr`. -/
def Ctr.ARR_FREEZE_CNT : Nat := 0x8
/-- ARR_DRAIN_FREEZE_CNT, block `arr`. -/
def Ctr.ARR_DRAIN_FREEZE_CNT : Nat := 0xC
/-- ARR_VEC_CNT, block `arr`. -/
def Ctr.ARR_VEC_CNT : Nat := 0x10
/-- ARR_PLANE_CNT, block `arr`. -/
def Ctr.ARR_PLANE_CNT : Nat := 0x14
/-- ARR_TRIM_CNT, block `arr`. -/
def Ctr.ARR_TRIM_CNT : Nat := 0x18
/-- ARR_SKIP_CNT, block `arr`. -/
def Ctr.ARR_SKIP_CNT : Nat := 0x1C
/-- ARR_IDLE_CNT, block `arr`. -/
def Ctr.ARR_IDLE_CNT : Nat := 0x20
/-- ARR_WLOAD_WAIT_CNT, block `arr`. -/
def Ctr.ARR_WLOAD_WAIT_CNT : Nat := 0x24
/-- ARR_SCALE_MISMATCH_CNT, block `arr`. -/
def Ctr.ARR_SCALE_MISMATCH_CNT : Nat := 0x28
/-- TLY_MISMATCH_CNT, block `arr`. -/
def Ctr.TLY_MISMATCH_CNT : Nat := 0x34
/-- TLY_CHECK_CNT, block `arr`. -/
def Ctr.TLY_CHECK_CNT : Nat := 0x38
/-- ARR_TEST_CNT, block `arr`. -/
def Ctr.ARR_TEST_CNT : Nat := 0x3C
/-- SP_MD_DROP_CNT, block `sp`. -/
def Ctr.SP_MD_DROP_CNT : Nat := 0x0
/-- SP_DUP_POS_CNT, block `sp`. -/
def Ctr.SP_DUP_POS_CNT : Nat := 0x4
/-- SP_IDX_OOB_CNT, block `sp`. -/
def Ctr.SP_IDX_OOB_CNT : Nat := 0x8
/-- SP_ORDER_BREAK_CNT, block `sp`. -/
def Ctr.SP_ORDER_BREAK_CNT : Nat := 0xC
/-- SP_SPLIT_CNT, block `sp`. -/
def Ctr.SP_SPLIT_CNT : Nat := 0x10
/-- SP_SPAN_SPLIT_CNT, block `sp`. -/
def Ctr.SP_SPAN_SPLIT_CNT : Nat := 0x14
/-- SP_BLK_SKIP_CNT, block `sp`. -/
def Ctr.SP_BLK_SKIP_CNT : Nat := 0x18
/-- JIG_MATCH_CNT, block `sp`. -/
def Ctr.JIG_MATCH_CNT : Nat := 0x1C
/-- JIG_BUSY_CNT, block `sp`. -/
def Ctr.JIG_BUSY_CNT : Nat := 0x20
/-- VAT_ADD_CNT, block `vat`. -/
def Ctr.VAT_ADD_CNT : Nat := 0x8
/-- VAT_OVF_CNT, block `vat`. -/
def Ctr.VAT_OVF_CNT : Nat := 0xC
/-- VAT_NAN_CNT, block `vat`. -/
def Ctr.VAT_NAN_CNT : Nat := 0x10
/-- VAT_SPECIAL_CNT, block `vat`. -/
def Ctr.VAT_SPECIAL_CNT : Nat := 0x14
/-- VAT_UFL_CNT, block `vat`. -/
def Ctr.VAT_UFL_CNT : Nat := 0x18
/-- VAT_SHIFT_CNT, block `vat`. -/
def Ctr.VAT_SHIFT_CNT : Nat := 0x1C
/-- VAT_X64_LOST_CNT, block `vat`. -/
def Ctr.VAT_X64_LOST_CNT : Nat := 0x20
/-- VAT_SAVE_CNT, block `vat`. -/
def Ctr.VAT_SAVE_CNT : Nat := 0x24
/-- VAT_RESTORE_CNT, block `vat`. -/
def Ctr.VAT_RESTORE_CNT : Nat := 0x28
/-- VAT_OPEN_WRITE_CNT, block `vat`. -/
def Ctr.VAT_OPEN_WRITE_CNT : Nat := 0x2C
/-- ADIT_OP_CNT, block `adit`. -/
def Ctr.ADIT_OP_CNT : Nat := 0x8
/-- ADIT_READ_CNT, block `adit`. -/
def Ctr.ADIT_READ_CNT : Nat := 0xC
/-- ADIT_PROD_CNT, block `adit`. -/
def Ctr.ADIT_PROD_CNT : Nat := 0x10
/-- ADIT_BUSY_CNT, block `adit`. -/
def Ctr.ADIT_BUSY_CNT : Nat := 0x14
/-- ADIT_WAIT_CNT, block `adit`. -/
def Ctr.ADIT_WAIT_CNT : Nat := 0x18
/-- ADIT_RESIDUE_CNT, block `adit`. -/
def Ctr.ADIT_RESIDUE_CNT : Nat := 0x1C
/-- ASSAY_TILE_CNT, block `assay`. -/
def Ctr.ASSAY_TILE_CNT : Nat := 0x4
/-- ASSAY_ROW_SKIP_CNT, block `assay`. -/
def Ctr.ASSAY_ROW_SKIP_CNT : Nat := 0x8
/-- ASSAY_OUT_SKIP_CNT, block `assay`. -/
def Ctr.ASSAY_OUT_SKIP_CNT : Nat := 0xC
/-- ASSAY_UNDECIDED_CNT, block `assay`. -/
def Ctr.ASSAY_UNDECIDED_CNT : Nat := 0x10
/-- ASSAY_AUDIT_CNT, block `assay`. -/
def Ctr.ASSAY_AUDIT_CNT : Nat := 0x14
/-- ASSAY_AUDIT_FAIL_CNT, block `assay`. -/
def Ctr.ASSAY_AUDIT_FAIL_CNT : Nat := 0x18
/-- ASSAY_DISCARD_MAX, block `assay`. -/
def Ctr.ASSAY_DISCARD_MAX : Nat := 0x1C
/-- CORE_SWITCH_CNT, block `core`. -/
def Ctr.CORE_SWITCH_CNT : Nat := 0x50
/-- CORE_PREEMPT_CNT, block `core`. -/
def Ctr.CORE_PREEMPT_CNT : Nat := 0x54
/-- CORE_SAVE_CYC_CNT, block `core`. -/
def Ctr.CORE_SAVE_CYC_CNT : Nat := 0x58
/-- CORE_RESTORE_CYC_CNT, block `core`. -/
def Ctr.CORE_RESTORE_CYC_CNT : Nat := 0x5C
/-- CORE_NOREADY_CNT, block `core`. -/
def Ctr.CORE_NOREADY_CNT : Nat := 0x60
/-- CORE_ABORT_CNT, block `core`. -/
def Ctr.CORE_ABORT_CNT : Nat := 0x64
/-- SCR_CE_CNT, block `core`. -/
def Ctr.SCR_CE_CNT : Nat := 0x100
/-- SCR_UE_CNT, block `core`. -/
def Ctr.SCR_UE_CNT : Nat := 0x104
/-- SCR_CONFLICT_CNT, block `core`. -/
def Ctr.SCR_CONFLICT_CNT : Nat := 0x108
/-- SCR_STARVE_CNT, block `core`. -/
def Ctr.SCR_STARVE_CNT : Nat := 0x10C
/-- VE_BUSY_CNT, block `core`. -/
def Ctr.VE_BUSY_CNT : Nat := 0x200
/-- VE_INSN_CNT, block `core`. -/
def Ctr.VE_INSN_CNT : Nat := 0x204
/-- VE_IDX_OOB_CNT, block `core`. -/
def Ctr.VE_IDX_OOB_CNT : Nat := 0x208
/-- CVT_SAT, block `core`. -/
def Ctr.CVT_SAT : Nat := 0x210
/-- CVT_INF, block `core`. -/
def Ctr.CVT_INF : Nat := 0x214
/-- CVT_CLAMP, block `core`. -/
def Ctr.CVT_CLAMP : Nat := 0x218
/-- CVT_NANBLK, block `core`. -/
def Ctr.CVT_NANBLK : Nat := 0x21C
/-- CVT_NANINT, block `core`. -/
def Ctr.CVT_NANINT : Nat := 0x220
/-- CVT_INF2NAN, block `core`. -/
def Ctr.CVT_INF2NAN : Nat := 0x224
/-- DT_FAIL_CNT, block `desc`. -/
def Ctr.DT_FAIL_CNT : Nat := 0x8
/-- HOIST_BYTES_CNT, block `hoist`. -/
def Ctr.HOIST_BYTES_CNT : Nat := 0x8
/-- HOIST_SEG_CNT, block `hoist`. -/
def Ctr.HOIST_SEG_CNT : Nat := 0xC
/-- HOIST_SMALL_CNT, block `hoist`. -/
def Ctr.HOIST_SMALL_CNT : Nat := 0x10
/-- HOIST_SLOW_CNT, block `hoist`. -/
def Ctr.HOIST_SLOW_CNT : Nat := 0x14
/-- HOIST_IDX_OOB_CNT, block `hoist`. -/
def Ctr.HOIST_IDX_OOB_CNT : Nat := 0x18
/-- HOIST_DISCARD_CNT, block `hoist`. -/
def Ctr.HOIST_DISCARD_CNT : Nat := 0x1C
/-- HOIST_XLATE_CNT, block `hoist`. -/
def Ctr.HOIST_XLATE_CNT : Nat := 0x20
/-- HOIST_BATCH_CNT, block `hoist`. -/
def Ctr.HOIST_BATCH_CNT : Nat := 0x24
/-- DRAM_CE_CNT, block `dram`. -/
def Ctr.DRAM_CE_CNT : Nat := 0x8
/-- DRAM_UE_CNT, block `dram`. -/
def Ctr.DRAM_UE_CNT : Nat := 0xC
/-- DRAM_RD_SLOT_CNT, block `dram`. -/
def Ctr.DRAM_RD_SLOT_CNT : Nat := 0x10
/-- DRAM_WR_SLOT_CNT, block `dram`. -/
def Ctr.DRAM_WR_SLOT_CNT : Nat := 0x14
/-- DRAM_RM_SLOT_CNT, block `dram`. -/
def Ctr.DRAM_RM_SLOT_CNT : Nat := 0x18
/-- DRAM_IDLE_SLOT_CNT, block `dram`. -/
def Ctr.DRAM_IDLE_SLOT_CNT : Nat := 0x1C
/-- DRAM_ACT_SLOT_CNT, block `dram`. -/
def Ctr.DRAM_ACT_SLOT_CNT : Nat := 0x20
/-- DRAM_RMW_CNT, block `dram`. -/
def Ctr.DRAM_RMW_CNT : Nat := 0x24
/-- CH_PKT_CNT, block `ch`. -/
def Ctr.CH_PKT_CNT : Nat := 0x10
/-- CH_WORD_CNT, block `ch`. -/
def Ctr.CH_WORD_CNT : Nat := 0x14
/-- CH_CE_CNT, block `ch`. -/
def Ctr.CH_CE_CNT : Nat := 0x18
/-- CH_UE_CNT, block `ch`. -/
def Ctr.CH_UE_CNT : Nat := 0x1C
/-- CH_REWIND_CNT, block `ch`. -/
def Ctr.CH_REWIND_CNT : Nat := 0x20
/-- CH_TAIL_CNT, block `ch`. -/
def Ctr.CH_TAIL_CNT : Nat := 0x24
/-- CH_STALE_CNT, block `ch`. -/
def Ctr.CH_STALE_CNT : Nat := 0x28
/-- CH_OVERCREDIT_CNT, block `ch`. -/
def Ctr.CH_OVERCREDIT_CNT : Nat := 0x2C
/-- CH_RESET_DROP_CNT, block `ch`. -/
def Ctr.CH_RESET_DROP_CNT : Nat := 0x30
/-- CH_ABANDON_CNT, block `ch`. -/
def Ctr.CH_ABANDON_CNT : Nat := 0x34
/-- TRAM_KEEP_CNT, block `tram`. -/
def Ctr.TRAM_KEEP_CNT : Nat := 0x8
/-- TRAM_FWD_CNT, block `tram`. -/
def Ctr.TRAM_FWD_CNT : Nat := 0xC
/-- TRAM_STALL_CNT, block `tram`. -/
def Ctr.TRAM_STALL_CNT : Nat := 0x10
/-- TRAM_CE_CNT, block `tram`. -/
def Ctr.TRAM_CE_CNT : Nat := 0x14
/-- TRAM_UE_CNT, block `tram`. -/
def Ctr.TRAM_UE_CNT : Nat := 0x18
/-- LINK_CE_CNT, block `link`. -/
def Ctr.LINK_CE_CNT : Nat := 0x4
/-- LINK_UE_CNT, block `link`. -/
def Ctr.LINK_UE_CNT : Nat := 0x8
/-- LINK_BUSY_CNT, block `link`. -/
def Ctr.LINK_BUSY_CNT : Nat := 0xC
/-- WC_DUP_CNT, block `wc`. -/
def Ctr.WC_DUP_CNT : Nat := 0x10
/-- PORT_RX_FRAME_CNT, block `port`. -/
def Ctr.PORT_RX_FRAME_CNT : Nat := 0x40
/-- PORT_TX_FRAME_CNT, block `port`. -/
def Ctr.PORT_TX_FRAME_CNT : Nat := 0x44
/-- PORT_FCS_ERR_CNT, block `port`. -/
def Ctr.PORT_FCS_ERR_CNT : Nat := 0x48
/-- PORT_FEC_CORR_CNT, block `port`. -/
def Ctr.PORT_FEC_CORR_CNT : Nat := 0x4C
/-- PORT_FEC_UNCORR_CNT, block `port`. -/
def Ctr.PORT_FEC_UNCORR_CNT : Nat := 0x50
/-- PORT_SIZE_ERR_CNT, block `port`. -/
def Ctr.PORT_SIZE_ERR_CNT : Nat := 0x54
/-- PORT_FILTER_DROP_CNT, block `port`. -/
def Ctr.PORT_FILTER_DROP_CNT : Nat := 0x58
/-- PORT_CRC32C_ERR_CNT, block `port`. -/
def Ctr.PORT_CRC32C_ERR_CNT : Nat := 0x5C
/-- PORT_SEQ_GAP_CNT, block `port`. -/
def Ctr.PORT_SEQ_GAP_CNT : Nat := 0x60
/-- PORT_DUP_PKT_CNT, block `port`. -/
def Ctr.PORT_DUP_PKT_CNT : Nat := 0x64
/-- PORT_DUP_LOT_CNT, block `port`. -/
def Ctr.PORT_DUP_LOT_CNT : Nat := 0x68
/-- PORT_LOT_ERR_CNT, block `port`. -/
def Ctr.PORT_LOT_ERR_CNT : Nat := 0x6C
/-- PORT_OVERCREDIT_CNT, block `port`. -/
def Ctr.PORT_OVERCREDIT_CNT : Nat := 0x70
/-- PORT_NAK_TX_CNT, block `port`. -/
def Ctr.PORT_NAK_TX_CNT : Nat := 0x74
/-- PORT_RETX_CNT, block `port`. -/
def Ctr.PORT_RETX_CNT : Nat := 0x78
/-- PORT_RESP_DROP_CNT, block `port`. -/
def Ctr.PORT_RESP_DROP_CNT : Nat := 0x7C
/-- PORT_PFC_RX_CNT, block `port`. -/
def Ctr.PORT_PFC_RX_CNT : Nat := 0x80
/-- PORT_PAUSE_DROP_CNT, block `port`. -/
def Ctr.PORT_PAUSE_DROP_CNT : Nat := 0x84
/-- PORT_TWO_END_CNT, block `port`. -/
def Ctr.PORT_TWO_END_CNT : Nat := 0x88
/-- PORT_MG_DROP_CNT, block `port`. -/
def Ctr.PORT_MG_DROP_CNT : Nat := 0x8C
/-- XING_RESET_CNT, block `seamClk`. -/
def Ctr.seamClk_XING_RESET_CNT : Nat := 0x8
/-- XING_DROP_CNT, block `seamClk`. -/
def Ctr.seamClk_XING_DROP_CNT : Nat := 0xC
/-- XING_RESET_CNT, block `hubClk`. -/
def Ctr.hubClk_XING_RESET_CNT : Nat := 0x10
/-- XING_DROP_CNT, block `hubClk`. -/
def Ctr.hubClk_XING_DROP_CNT : Nat := 0x14
/-- DL_MISS_CNT, block `hubClk`. -/
def Ctr.DL_MISS_CNT : Nat := 0x1C
/-- DL_LATE_START_CNT, block `hubClk`. -/
def Ctr.DL_LATE_START_CNT : Nat := 0x20
/-- DL_STALE_CNT, block `hubClk`. -/
def Ctr.DL_STALE_CNT : Nat := 0x24
/-- DEP_ABORT_CNT, block `dep`. -/
def Ctr.DEP_ABORT_CNT : Nat := 0x20
/-- DEP_REPLAY_CNT, block `dep`. -/
def Ctr.DEP_REPLAY_CNT : Nat := 0x24
/-- DEP_CONTAINED_CNT, block `dep`. -/
def Ctr.DEP_CONTAINED_CNT : Nat := 0x28
/-- DEP_HELD_CNT, block `dep`. -/
def Ctr.DEP_HELD_CNT : Nat := 0x2C
/-- DEP_REDO_CNT, block `dep`. -/
def Ctr.DEP_REDO_CNT : Nat := 0x30
/-- DEP_CORRECTED_CNT, block `dep`. -/
def Ctr.DEP_CORRECTED_CNT : Nat := 0x34
/-- PWR_PEAK, block `img`. -/
def Ctr.PWR_PEAK : Nat := 0x70
/-- CAL_LOW_CNT, block `cal`. -/
def Ctr.CAL_LOW_CNT : Nat := 0xC
/-- CAL_WAKE_CNT, block `cal`. -/
def Ctr.CAL_WAKE_CNT : Nat := 0x10
/-- MG_REQ_CNT, block `ident`. -/
def Ctr.MG_REQ_CNT : Nat := 0x1C
/-- MG_BADREQ_CNT, block `ident`. -/
def Ctr.MG_BADREQ_CNT : Nat := 0x20
/-- MG_ABANDON_CNT, block `ident`. -/
def Ctr.MG_ABANDON_CNT : Nat := 0x24

/-- FROZE of block `arr`. -/
def Flag.arr_FROZE : Nat × Nat := (0x4, 0)
/-- DRAIN_BACKUP of block `arr`. -/
def Flag.arr_DRAIN_BACKUP : Nat × Nat := (0x4, 1)
/-- SCALE_MISMATCH of block `arr`. -/
def Flag.arr_SCALE_MISMATCH : Nat × Nat := (0x4, 2)
/-- WLOAD_WAIT of block `arr`. -/
def Flag.arr_WLOAD_WAIT : Nat × Nat := (0x4, 3)
/-- ROW_FAIL of block `arr`. -/
def Flag.arr_ROW_FAIL : Nat × Nat := (0x30, 0)
/-- COL_FAIL of block `arr`. -/
def Flag.arr_COL_FAIL : Nat × Nat := (0x30, 1)
/-- REPEAT_FAIL of block `arr`. -/
def Flag.arr_REPEAT_FAIL : Nat × Nat := (0x30, 2)
/-- TEST_FAIL of block `arr`. -/
def Flag.arr_TEST_FAIL : Nat × Nat := (0x30, 3)
/-- MD_DROP of block `sp`. -/
def Flag.sp_MD_DROP : Nat × Nat := (0x24, 0)
/-- DUP_POS of block `sp`. -/
def Flag.sp_DUP_POS : Nat × Nat := (0x24, 1)
/-- IDX_OOB of block `sp`. -/
def Flag.sp_IDX_OOB : Nat × Nat := (0x24, 2)
/-- ORDER_BREAK of block `sp`. -/
def Flag.sp_ORDER_BREAK : Nat × Nat := (0x24, 3)
/-- SPLIT of block `sp`. -/
def Flag.sp_SPLIT : Nat × Nat := (0x24, 4)
/-- OVF of block `vat`. -/
def Flag.vat_OVF : Nat × Nat := (0x4, 0)
/-- NAN of block `vat`. -/
def Flag.vat_NAN : Nat × Nat := (0x4, 1)
/-- SPECIAL of block `vat`. -/
def Flag.vat_SPECIAL : Nat × Nat := (0x4, 2)
/-- EXACT_LOST of block `vat`. -/
def Flag.vat_EXACT_LOST : Nat × Nat := (0x4, 3)
/-- OPEN_WRITE of block `vat`. -/
def Flag.vat_OPEN_WRITE : Nat × Nat := (0x4, 4)
/-- LONG_SUM of block `vat`. -/
def Flag.vat_LONG_SUM : Nat × Nat := (0x4, 5)
/-- RESTORE_FAIL of block `vat`. -/
def Flag.vat_RESTORE_FAIL : Nat × Nat := (0x4, 6)
/-- RESIDUE_FAIL of block `adit`. -/
def Flag.adit_RESIDUE_FAIL : Nat × Nat := (0x4, 0)
/-- DRAM_WAIT of block `adit`. -/
def Flag.adit_DRAM_WAIT : Nat × Nat := (0x4, 1)
/-- AUDIT_FAIL of block `assay`. -/
def Flag.assay_AUDIT_FAIL : Nat × Nat := (0x0, 0)
/-- STALE_SUMS of block `assay`. -/
def Flag.assay_STALE_SUMS : Nat × Nat := (0x0, 1)
/-- OFF of block `assay`. -/
def Flag.assay_OFF : Nat × Nat := (0x0, 2)
/-- MARGIN of block `assay`. -/
def Flag.assay_MARGIN : Nat × Nat := (0x0, 3)
/-- SWITCH of block `core`. -/
def Flag.core_SWITCH : Nat × Nat := (0x4, 0)
/-- PREEMPT of block `core`. -/
def Flag.core_PREEMPT : Nat × Nat := (0x4, 1)
/-- ABORT of block `core`. -/
def Flag.core_ABORT : Nat × Nat := (0x4, 2)
/-- ARRAY_LOST of block `core`. -/
def Flag.core_ARRAY_LOST : Nat × Nat := (0x4, 3)
/-- CE of block `core`. -/
def Flag.core_CE : Nat × Nat := (0x110, 0)
/-- UE of block `core`. -/
def Flag.core_UE : Nat × Nat := (0x110, 1)
/-- IDX_OOB of block `core`. -/
def Flag.core_IDX_OOB : Nat × Nat := (0x20C, 0)
/-- CVT of block `core`. -/
def Flag.core_CVT : Nat × Nat := (0x20C, 1)
/-- CREATE_FAIL of block `desc`. -/
def Flag.desc_CREATE_FAIL : Nat × Nat := (0x4, 0)
/-- FULL of block `desc`. -/
def Flag.desc_FULL : Nat × Nat := (0x4, 1)
/-- XLATE_FAULT of block `hoist`. -/
def Flag.hoist_XLATE_FAULT : Nat × Nat := (0x4, 0)
/-- IDX_OOB of block `hoist`. -/
def Flag.hoist_IDX_OOB : Nat × Nat := (0x4, 1)
/-- DISCARD of block `hoist`. -/
def Flag.hoist_DISCARD : Nat × Nat := (0x4, 2)
/-- CE of block `dram`. -/
def Flag.dram_CE : Nat × Nat := (0x4, 0)
/-- UE of block `dram`. -/
def Flag.dram_UE : Nat × Nat := (0x4, 1)
/-- HOT of block `dram`. -/
def Flag.dram_HOT : Nat × Nat := (0x4, 2)
/-- CE of block `ch`. -/
def Flag.ch_CE : Nat × Nat := (0x8, 0)
/-- UE of block `ch`. -/
def Flag.ch_UE : Nat × Nat := (0x8, 1)
/-- REWIND of block `ch`. -/
def Flag.ch_REWIND : Nat × Nat := (0x8, 2)
/-- TAIL of block `ch`. -/
def Flag.ch_TAIL : Nat × Nat := (0x8, 3)
/-- STALE of block `ch`. -/
def Flag.ch_STALE : Nat × Nat := (0x8, 4)
/-- OVERCREDIT of block `ch`. -/
def Flag.ch_OVERCREDIT : Nat × Nat := (0x8, 5)
/-- RESET of block `ch`. -/
def Flag.ch_RESET : Nat × Nat := (0x8, 6)
/-- CE of block `tram`. -/
def Flag.tram_CE : Nat × Nat := (0x4, 0)
/-- UE of block `tram`. -/
def Flag.tram_UE : Nat × Nat := (0x4, 1)
/-- DUP of block `wc`. -/
def Flag.wc_DUP : Nat × Nat := (0x14, 0)
/-- RESTART of block `wc`. -/
def Flag.wc_RESTART : Nat × Nat := (0x14, 1)
/-- LINK_DOWN of block `port`. -/
def Flag.port_LINK_DOWN : Nat × Nat := (0x4, 0)
/-- FEC_UNCORR of block `port`. -/
def Flag.port_FEC_UNCORR : Nat × Nat := (0x4, 1)
/-- CRC32C_ERR of block `port`. -/
def Flag.port_CRC32C_ERR : Nat × Nat := (0x4, 2)
/-- SEQ_GAP of block `port`. -/
def Flag.port_SEQ_GAP : Nat × Nat := (0x4, 3)
/-- OVERCREDIT of block `port`. -/
def Flag.port_OVERCREDIT : Nat × Nat := (0x4, 4)
/-- DUP_LOT of block `port`. -/
def Flag.port_DUP_LOT : Nat × Nat := (0x4, 5)
/-- LOT_ERR of block `port`. -/
def Flag.port_LOT_ERR : Nat × Nat := (0x4, 6)
/-- RESP_DROP of block `port`. -/
def Flag.port_RESP_DROP : Nat × Nat := (0x4, 7)
/-- PFC_RX of block `port`. -/
def Flag.port_PFC_RX : Nat × Nat := (0x4, 8)
/-- MG_DROP of block `port`. -/
def Flag.port_MG_DROP : Nat × Nat := (0x4, 9)
/-- UNLOCK of block `seamClk`. -/
def Flag.seamClk_UNLOCK : Nat × Nat := (0x4, 0)
/-- FLUSH of block `seamClk`. -/
def Flag.seamClk_FLUSH : Nat × Nat := (0x4, 4)
/-- UNLOCK of block `hubClk`. -/
def Flag.hubClk_UNLOCK : Nat × Nat := (0xC, 0)
/-- TIME_SLIP of block `hubClk`. -/
def Flag.hubClk_TIME_SLIP : Nat × Nat := (0xC, 1)
/-- FLUSH of block `hubClk`. -/
def Flag.hubClk_FLUSH : Nat × Nat := (0xC, 2)
/-- MISS of block `hubClk`. -/
def Flag.hubClk_MISS : Nat × Nat := (0x18, 0)
/-- STALE of block `hubClk`. -/
def Flag.hubClk_STALE : Nat × Nat := (0x18, 1)
/-- LATE_START of block `hubClk`. -/
def Flag.hubClk_LATE_START : Nat × Nat := (0x18, 2)
/-- FENCE of block `dep`. -/
def Flag.dep_FENCE : Nat × Nat := (0x4, 0)
/-- HELD of block `dep`. -/
def Flag.dep_HELD : Nat × Nat := (0x4, 1)
/-- VOID of block `dep`. -/
def Flag.dep_VOID : Nat × Nat := (0x4, 2)
/-- JNL_SINGLE of block `dep`. -/
def Flag.dep_JNL_SINGLE : Nat × Nat := (0x4, 3)
/-- MIRROR_LOST of block `dep`. -/
def Flag.dep_MIRROR_LOST : Nat × Nat := (0x4, 4)
/-- WARM_RESET of block `dep`. -/
def Flag.dep_WARM_RESET : Nat × Nat := (0x4, 5)
/-- ABORT_LIMIT of block `dep`. -/
def Flag.dep_ABORT_LIMIT : Nat × Nat := (0x4, 6)
/-- JNL_DISCARDED of block `dep`. -/
def Flag.dep_JNL_DISCARDED : Nat × Nat := (0x4, 7)
/-- LOSS_OVERFLOW of block `dep`. -/
def Flag.dep_LOSS_OVERFLOW : Nat × Nat := (0x4, 8)
/-- DONE of block `img`. -/
def Flag.img_DONE : Nat × Nat := (0x10, 1)
/-- ERROR of block `img`. -/
def Flag.img_ERROR : Nat × Nat := (0x10, 2)
/-- DONE of block `img`. -/
def Flag.img_OWNER_DONE : Nat × Nat := (0x28, 1)
/-- FAIL of block `img`. -/
def Flag.img_FAIL : Nat × Nat := (0x28, 2)
/-- UNDERVOLT of block `img`. -/
def Flag.img_UNDERVOLT : Nat × Nat := (0x68, 0)
/-- OVERVOLT of block `img`. -/
def Flag.img_OVERVOLT : Nat × Nat := (0x68, 1)
/-- THERM_WARN of block `img`. -/
def Flag.img_THERM_WARN : Nat × Nat := (0x68, 2)
/-- CAL_AT_MAX of block `img`. -/
def Flag.img_CAL_AT_MAX : Nat × Nat := (0x68, 3)
/-- MARGIN_LOW of block `cal`. -/
def Flag.cal_MARGIN_LOW : Nat × Nat := (0x8, 0)
/-- FULL_DONE of block `cal`. -/
def Flag.cal_FULL_DONE : Nat × Nat := (0x8, 1)
/-- AT_MAX of block `cal`. -/
def Flag.cal_AT_MAX : Nat × Nat := (0x8, 2)
/-- BAD_REQUEST of block `ident`. -/
def Flag.ident_BAD_REQUEST : Nat × Nat := (0x18, 0)
/-- ABANDONED of block `ident`. -/
def Flag.ident_ABANDONED : Nat × Nat := (0x18, 1)

end Sys2Proof.Machine
end

