-- ==== Sys2Proof/Machine/Store.lean ====
section
/-! DEFINITION. Sparse tables and byte stores. A table lists only the entries that differ from the default, in rising
order of index, so that equal contents are equal data; a memory is such a table of bytes. -/

namespace Sys2Proof.Machine

/-- The entry of a table at an index, `d` where it lists none. -/
def tget {α : Type} (t : Table α) (d : α) (i : Nat) : α :=
  match t with
  | [] => d
  | (j, x) :: r => if j = i then x else tget r d i

/-- A table without its entry at `i`. -/
def terase {α : Type} (t : Table α) (i : Nat) : Table α :=
  t.filter fun e => e.1 != i

/-- A table with the entry `x` put at `i`, which it does not list. -/
def tinsert {α : Type} (t : Table α) (i : Nat) (x : α) : Table α :=
  match t with
  | [] => [(i, x)]
  | (j, y) :: r => if i < j then (i, x) :: (j, y) :: r else (j, y) :: tinsert r i x

/-- A table with `x` at `i`; an entry equal to the default `d` is not listed. -/
def tset {α : Type} [DecidableEq α] (t : Table α) (d : α) (i : Nat) (x : α) : Table α :=
  if x = d then terase t i else tinsert (terase t i) i x

/-- A table with its entry at `i` changed by `f`. -/
def tupd {α : Type} [DecidableEq α] (t : Table α) (d : α) (i : Nat) (f : α → α) : Table α :=
  tset t d i (f (tget t d i))

/-- The canonical form: indices strictly rising, no entry equal to the default. -/
abbrev TableOk {α : Type} [DecidableEq α] (t : Table α) (d : α) : Prop :=
  t.Pairwise (fun a b => a.1 < b.1) ∧ ∀ e ∈ t, e.2 ≠ d

/-! ## Byte stores -/

/-- The canonical form of a memory whose unlisted bytes read as `d`. -/
abbrev Memory.wfFill (d : Byte) (m : List Host.Cell) : Prop :=
  TableOk m d

/-- The canonical form of the module memory: unlisted bytes read as 0 (log entry 4). -/
abbrev Memory.wf (m : List Host.Cell) : Prop :=
  Memory.wfFill 0 m

/-- The byte at an address of a memory whose unlisted bytes read as `d`. -/
def loadByteFill (d : Byte) (m : List Host.Cell) (a : Addr) : Byte :=
  tget m d a

/-- A memory with one byte written. -/
def storeByteFill (d : Byte) (m : List Host.Cell) (a : Addr) (b : Byte) : List Host.Cell :=
  tset m d a b

/-- The byte of module memory at an address (R6, log entry 4). -/
def loadByte (m : List Host.Cell) (a : Addr) : Byte :=
  loadByteFill 0 m a

/-- Module memory with one byte written. -/
def storeByte (m : List Host.Cell) (a : Addr) (b : Byte) : List Host.Cell :=
  storeByteFill 0 m a b

/-- The `n` bytes from address `a` upward. -/
def loadBytes (m : List Host.Cell) (a : Addr) (n : Nat) : List Byte :=
  (List.range n).map fun i => loadByte m (a + i)

/-- Module memory with the bytes `bs` written from address `a` upward. -/
def storeBytes (m : List Host.Cell) (a : Addr) (bs : List Byte) : List Host.Cell :=
  match bs with
  | [] => m
  | b :: r => storeBytes (storeByte m a b) (a + 1) r

/-- The `n` bytes of a NOR image from offset `a` upward; an erased byte reads as 0xFF (log entry 5). -/
def norBytes (m : List Host.Cell) (a n : Nat) : List Byte :=
  (List.range n).map fun i => loadByteFill 0xFF m (a + i)

/-- A NOR image with bytes written from offset `a` upward. -/
def norStore (m : List Host.Cell) (a : Nat) (bs : List Byte) : List Host.Cell :=
  match bs with
  | [] => m
  | b :: r => norStore (storeByteFill 0xFF m a b) (a + 1) r

end Sys2Proof.Machine
end

