-- ==== Sys2Proof/Machine/Units.lean ====
section
/-! DEFINITION. Numbers of units, the register blocks' addresses (R8, R409 to R411) and the state of one unit. -/

namespace Sys2Proof.Machine

/-! ## Numbers of units -/

/-- Number of a core in the module. -/
def coreKey (c : CoreId) : Nat :=
  32 * c.seam.val + c.core.val

/-- Number of an array in the module. -/
def arrayKey (a : ArrayId) : Nat :=
  4 * coreKey a.core + a.array.val

/-- Number of an adit unit in the module. -/
def aditKey (u : AditId) : Nat :=
  4 * u.seam.val + u.unit.val

/-- Number of a hoist in the module. -/
def hoistKey (s : Fin 16) (h : Fin 8) : Nat :=
  8 * s.val + h.val

/-- Number of a hoist queue in the module. -/
def queueKey (q : QueueId) : Nat :=
  18 * hoistKey q.seam q.hoist + q.queue.val

/-- Number of a DRAM channel in the module. -/
def chanKey (c : ChanId) : Nat :=
  32 * c.seam.val + c.chan.val

/-- Number of a chute endpoint: the core endpoints, then the hub's. -/
def epKey : EndpointId → Nat
  | .core c e => 8 * coreKey c + e.val
  | .hub i => 4096 + i.val

/-- Number of a work counter in the module. -/
def counterKey (s : Nat) (k : Nat) : Nat :=
  64 * s + k

/-- Place of a seam domain in the registers of R331. -/
def seamDomBit : SeamDomain → Nat
  | .aclk => 0
  | .kclk => 1
  | .fclk => 2
  | .mclk => 3

/-- Number of a clock domain. -/
def domKey : DomainId → Nat
  | .seam s d => 4 * s.val + seamDomBit d
  | .pclk => 64
  | .hubFclk => 65

/-- Place of a link direction (R243). -/
def linkNum : LinkDir → Nat
  | .east => 0
  | .west => 1
  | .south => 2
  | .north => 3
  | .hub => 4

/-- The core of a core number. -/
def coreOfKey (k : Nat) : CoreId :=
  ⟨Fin.ofNat 16 (k / 32), Fin.ofNat 32 k⟩

/-- The array of an array number. -/
def arrayOfKey (k : Nat) : ArrayId :=
  ⟨coreOfKey (k / 4), Fin.ofNat 4 k⟩

/-- The cores of a seam. -/
def coresOfSeam (s : Fin 16) : List CoreId :=
  (List.finRange 32).map fun c => ⟨s, c⟩

/-- The arrays of a core. -/
def arraysOfCore (c : CoreId) : List ArrayId :=
  (List.finRange 4).map fun a => ⟨c, a⟩

/-- The slots of a core. -/
def slotsOfCore (c : CoreId) : List SlotId :=
  (List.finRange 4).map fun a => ⟨c, a⟩

/-! ## Register addresses -/

/-- Base of the register block of a seam (R8). -/
def seamRegBase (s : Nat) : Nat :=
  0x01000000 + s * 0x00100000

/-- Base of the register block of a core (R8). -/
def coreRegBase (c : CoreId) : Nat :=
  seamRegBase c.seam.val + 0x00080000 + c.core.val * 0x2000

/-- Base of the registers of an array (R174). -/
def arrRegBase (a : ArrayId) : Nat :=
  coreRegBase a.core + 0x400 + a.array.val * 0x40

/-- Base of the sparsity registers of a core (R174). -/
def spRegBase (c : CoreId) : Nat :=
  coreRegBase c + 0x500

/-- Base of the vat registers of a core (R174). -/
def vatRegBase (c : CoreId) : Nat :=
  coreRegBase c + 0x600

/-- Base of the assay registers of a core (R174). -/
def assayRegBase (c : CoreId) : Nat :=
  coreRegBase c + 0x700

/-- Base of the registers of an adit unit (R411). -/
def aditRegBase (u : AditId) : Nat :=
  seamRegBase u.seam.val + 0x40000 + u.unit.val * 0x100

/-- Base of the registers of a hoist (R411). -/
def hoistRegBase (s : Fin 16) (h : Fin 8) : Nat :=
  seamRegBase s.val + 0x20000 + h.val * 0x400

/-- Base of the registers of a hoist queue (R222). -/
def queueRegBase (q : QueueId) : Nat :=
  hoistRegBase q.seam q.hoist + 0x100 + q.queue.val * 8

/-- Base of the registers of a seam's DRAM controller (R411). -/
def dramRegBase (s : Nat) : Nat :=
  seamRegBase s + 0x30000

/-- Base of the registers of a chute endpoint (R410, R411). -/
def epRegBase : EndpointId → Nat
  | .core c e => seamRegBase c.seam.val + 0x50000 + (8 * c.core.val + e.val) * 0x40
  | .hub i => 0x180000 + i.val * 0x40

/-- Base of the tram registers of a core (R411). -/
def tramRegBase (c : CoreId) : Nat :=
  seamRegBase c.seam.val + 0x58000 + c.core.val * 0x20

/-- Base of the link registers of a seam (R411). -/
def linkRegBase (s : Fin 16) (d : LinkDir) : Nat :=
  seamRegBase s.val + 0x5C000 + linkNum d * 0x10

/-- Base of the registers of a work counter (R411). -/
def wcRegBase (s k : Nat) : Nat :=
  seamRegBase s + 0x60000 + k * 0x20

/-- Base of the clock registers of a seam (R411). -/
def seamClkBase (s : Nat) : Nat :=
  seamRegBase s + 0x70000

/-- Base of the calibration registers of a seam (R411). -/
def calRegBase (s : Nat) : Nat :=
  seamRegBase s + 0x71000

/-- Base of the hub clock, time and deadline registers (R409). -/
def hubClkBase : Nat := 0x1000

/-- Base of the containment, journal and fault-log registers (R409). -/
def depBase : Nat := 0x2000

/-- Base of the descriptor table registers (R409). -/
def descBase : Nat := 0x3000

/-- Base of the image, owner, attestation and power registers (R409). -/
def imgBase : Nat := 0x4000

/-- Base of the start report (R409). -/
def startBase : Nat := 0x5000

/-- Base of the loss report (R409). -/
def lossBase : Nat := 0x10000

/-- Base of the staging window (R409). -/
def stagingBase : Nat := 0x80000

/-- Base of the attestation report window (R409). -/
def attBase : Nat := 0x90000

/-- Base of the identity window (R409). -/
def idWinBase : Nat := 0x91000

/-- Base of the port registers (R410). -/
def portBase : Nat := 0x100000

/-- Base of the registers of a session (R410). -/
def sessRegBase (i : Nat) : Nat :=
  0x140000 + i * 0x20

/-! ## Where an address lies -/

/-- Where an address of the management space lies: block, number of the block's unit in the module, offset in the block,
and the clock domain it answers from; none is DCLK (R409 to R411, R153). -/
structure RegLoc where
  block : RegBlock
  unit : Nat
  off : Nat
  dom : Option DomainId
deriving DecidableEq, Repr

/-- Where an offset of a core's block lies (R174). -/
def locateCore (s : Fin 16) (c o : Nat) : Option RegLoc :=
  if 0x10 ≤ o ∧ o < 0x50 then
    some ⟨.slot, 4 * (32 * s.val + c) + (o - 0x10) / 0x10, o % 0x10, some (.seam s .kclk)⟩
  else if 0x400 ≤ o ∧ o < 0x500 then
    some ⟨.arr, 4 * (32 * s.val + c) + (o - 0x400) / 0x40, o % 0x40, some (.seam s .aclk)⟩
  else if 0x500 ≤ o ∧ o < 0x540 then some ⟨.sp, 32 * s.val + c, o - 0x500, some (.seam s .kclk)⟩
  else if 0x600 ≤ o ∧ o < 0x640 then some ⟨.vat, 32 * s.val + c, o - 0x600, some (.seam s .kclk)⟩
  else if 0x700 ≤ o ∧ o < 0x740 then some ⟨.assay, 32 * s.val + c, o - 0x700, some (.seam s .kclk)⟩
  else if o < 0x400 ∨ 0x740 ≤ o then some ⟨.core, 32 * s.val + c, o, some (.seam s .kclk)⟩
  else none

/-- Where an offset of a seam's block lies (R411). -/
def locateSeam (s : Fin 16) (o : Nat) : Option RegLoc :=
  if o < 0x10 then some ⟨.seamStat, s.val, o, none⟩
  else if 0x20000 ≤ o ∧ o < 0x22000 then
    let h := (o - 0x20000) / 0x400
    let r := (o - 0x20000) % 0x400
    if r < 0x100 then some ⟨.hoist, 8 * s.val + h, r, some (.seam s .fclk)⟩
    else if r < 0x190 then
      some ⟨.hq, 18 * (8 * s.val + h) + (r - 0x100) / 8, r % 8, some (.seam s .fclk)⟩
    else none
  else if 0x22000 ≤ o ∧ o < 0x22004 then some ⟨.hoistCfg, s.val, o - 0x22000, some (.seam s .fclk)⟩
  else if 0x30000 ≤ o ∧ o < 0x30040 then some ⟨.dram, s.val, o - 0x30000, some (.seam s .mclk)⟩
  else if 0x40000 ≤ o ∧ o < 0x40400 then
    some ⟨.adit, 4 * s.val + (o - 0x40000) / 0x100, o % 0x100, some (.seam s .kclk)⟩
  else if 0x40400 ≤ o ∧ o < 0x40404 then some ⟨.aditCfg, s.val, o - 0x40400, some (.seam s .kclk)⟩
  else if 0x50000 ≤ o ∧ o < 0x54000 then
    some ⟨.ch, 256 * s.val + (o - 0x50000) / 0x40, o % 0x40, some (.seam s .fclk)⟩
  else if 0x58000 ≤ o ∧ o < 0x58400 then
    some ⟨.tram, 32 * s.val + (o - 0x58000) / 0x20, o % 0x20, some (.seam s .fclk)⟩
  else if 0x5C000 ≤ o ∧ o < 0x5C050 then
    some ⟨.link, 5 * s.val + (o - 0x5C000) / 0x10, o % 0x10, some (.seam s .fclk)⟩
  else if 0x60000 ≤ o ∧ o < 0x60800 then
    some ⟨.wc, 64 * s.val + (o - 0x60000) / 0x20, o % 0x20, some (.seam s .fclk)⟩
  else if 0x70000 ≤ o ∧ o < 0x70040 then some ⟨.seamClk, s.val, o - 0x70000, none⟩
  else if 0x71000 ≤ o ∧ o < 0x71040 then some ⟨.cal, s.val, o - 0x71000, none⟩
  else if 0x80000 ≤ o ∧ o < 0xC0000 then locateCore s ((o - 0x80000) / 0x2000) (o % 0x2000)
  else none

/-- Where an offset of the deputy's block lies (R409). -/
def locateDeputy (a : Nat) : Option RegLoc :=
  if a < 0x40 then some ⟨.ident, 0, a, none⟩
  else if 0x1000 ≤ a ∧ a < 0x1040 then some ⟨.hubClk, 0, a - 0x1000, none⟩
  else if 0x2000 ≤ a ∧ a < 0x2080 then some ⟨.dep, 0, a - 0x2000, none⟩
  else if 0x3000 ≤ a ∧ a < 0x3040 then some ⟨.desc, 0, a - 0x3000, none⟩
  else if 0x4000 ≤ a ∧ a < 0x4074 then some ⟨.img, 0, a - 0x4000, none⟩
  else if 0x5000 ≤ a ∧ a < 0x5050 then some ⟨.start, 0, a - 0x5000, none⟩
  else if 0x10000 ≤ a ∧ a < 0x20000 then some ⟨.loss, (a - 0x10000) / 0x10, a % 0x10, none⟩
  else if 0x80000 ≤ a ∧ a < 0x90000 then some ⟨.staging, 0, a - 0x80000, none⟩
  else if 0x90000 ≤ a ∧ a < 0x90E70 then some ⟨.attWindow, 0, a - 0x90000, none⟩
  else if 0x91000 ≤ a ∧ a < 0x924FD then some ⟨.idWindow, 0, a - 0x91000, none⟩
  else none

/-- Where an offset of the hub and port block lies (R410). -/
def locateHub (a : Nat) : Option RegLoc :=
  if 0x100000 ≤ a ∧ a < 0x100100 then some ⟨.port, 0, a - 0x100000, some .pclk⟩
  else if 0x140000 ≤ a ∧ a < 0x150000 then
    some ⟨.sess, (a - 0x140000) / 0x20, a % 0x20, some .pclk⟩
  else if 0x180000 ≤ a ∧ a < 0x1A0000 then
    some ⟨.ch, 4096 + (a - 0x180000) / 0x40, a % 0x40, some .pclk⟩
  else none

/-- The block in which an address lies, whether it holds a register or not. -/
def locateBlock (a : Nat) : Option RegLoc :=
  if a < 0x100000 then locateDeputy a
  else if a < 0x200000 then locateHub a
  else if 0x01000000 ≤ a ∧ a < 0x02000000 then
    locateSeam (Fin.ofNat 16 ((a - 0x01000000) / 0x100000)) (a % 0x100000)
  else none

/-- The definition of the register at an offset of a block. -/
def regDefAt (b : RegBlock) (off : Nat) : Option RegDef :=
  b.regs.find? fun r => r.off == off

/-- Whether an offset of a block lies in a row of the block's table (R408). -/
def rowAt (b : RegBlock) (off : Nat) : Bool :=
  match b with
  | .staging | .attWindow | .idWindow => true
  | _ => (regDefAt b off).isSome || b.reserved.any fun r => r.1 ≤ off && off ≤ r.2

/-- Where a register lies: an address that is a multiple of 4 and holds a register (R398, R408). -/
def locate (a : Nat) : Option RegLoc :=
  if a % 4 = 0 then
    match locateBlock a with
    | some l => if rowAt l.block l.off then some l else none
    | none => none
  else none

/-- The masks and reset value of the register at a place; a reserved row has none, and the staging window is RW. -/
def regDefOf (l : RegLoc) : RegDef :=
  match l.block with
  | .staging => ⟨l.off, 0, 0xFFFFFFFF, 0, 0, 0⟩
  | b => (regDefAt b l.off).getD ⟨l.off, 0, 0, 0, 0, 0⟩

/-- The reset value of the register at an address (R407). -/
def regReset (a : Nat) : Word :=
  match locate a with
  | some l => (regDefOf l).reset
  | none => 0

/-! ## Stored register words -/

/-- The stored word of a register. -/
def rawReg (s : State) (a : Nat) : Word :=
  tget s.regs (regReset a) a

/-- A stored word put in place. -/
def setRawReg (s : State) (a : Nat) (v : Word) : State :=
  { s with regs := tset s.regs (regReset a) a v }

/-- `n` added to a count that stays at 0xFFFF_FFFF (R406). -/
def satAdd (v : Word) (n : Nat) : Word :=
  BitVec.ofNat 32 (min (v.toNat + n) 0xFFFFFFFF)

/-- `n` events counted in the counter at offset `off` of the block at `base` (R406). -/
def count (s : State) (base off n : Nat) : State :=
  setRawReg s (base + off) (satAdd (rawReg s (base + off)) n)

/-- The status flag `f` (offset and bit) of the block at `base` set (R405). -/
def raise (s : State) (base : Nat) (f : Nat × Nat) : State :=
  setRawReg s (base + f.1) (rawReg s (base + f.1) ||| BitVec.ofNat 32 (2 ^ f.2))

/-- A flag raised when a condition holds. -/
def raiseIf (c : Bool) (s : State) (base : Nat) (f : Nat × Nat) : State :=
  if c then raise s base f else s

/-- The bits [hi:lo] of a stored word replaced. -/
def setRawField (s : State) (a hi lo v : Nat) : State :=
  let old := (rawReg s a).toNat
  setRawReg s a (BitVec.ofNat 32
    (old - bitField old hi lo * 2 ^ lo + v % 2 ^ (hi + 1 - lo) * 2 ^ lo))

/-! ## State of one unit -/

/-- An array. -/
def getArray (s : State) (a : ArrayId) : ArrayState :=
  tget s.arrays {} (arrayKey a)

/-- An array put in place. -/
def setArray (s : State) (a : ArrayId) (x : ArrayState) : State :=
  { s with arrays := tset s.arrays {} (arrayKey a) x }

/-- A core. -/
def getCore (s : State) (c : CoreId) : CoreState :=
  tget s.cores {} (coreKey c)

/-- A core put in place. -/
def setCore (s : State) (c : CoreId) (x : CoreState) : State :=
  { s with cores := tset s.cores {} (coreKey c) x }

/-- A task slot. -/
def getSlot (s : State) (t : SlotId) : TaskSlot :=
  tget (getCore s t.core).slots {} t.slot.val

/-- A task slot put in place. -/
def setSlot (s : State) (t : SlotId) (x : TaskSlot) : State :=
  let c := getCore s t.core
  setCore s t.core { c with slots := tset c.slots {} t.slot.val x }

/-- An adit unit. -/
def getAdit (s : State) (u : AditId) : AditState :=
  tget s.adits {} (aditKey u)

/-- An adit unit put in place. -/
def setAdit (s : State) (u : AditId) (x : AditState) : State :=
  { s with adits := tset s.adits {} (aditKey u) x }

/-- A hoist queue. -/
def getQueue (s : State) (q : QueueId) : HoistQueue :=
  tget s.hoists {} (queueKey q)

/-- A hoist queue put in place. -/
def setQueue (s : State) (q : QueueId) (x : HoistQueue) : State :=
  { s with hoists := tset s.hoists {} (queueKey q) x }

/-- A DRAM channel. -/
def getChan (s : State) (c : ChanId) : ChanState :=
  tget s.chans {} (chanKey c)

/-- A DRAM channel put in place. -/
def setChan (s : State) (c : ChanId) (x : ChanState) : State :=
  { s with chans := tset s.chans {} (chanKey c) x }

/-- A chute endpoint. -/
def getEp (s : State) (e : EndpointId) : Endpoint :=
  tget s.chutes {} (epKey e)

/-- A chute endpoint put in place. -/
def setEp (s : State) (e : EndpointId) (x : Endpoint) : State :=
  { s with chutes := tset s.chutes {} (epKey e) x }

/-- A tram hop stage. -/
def getHop (s : State) (c : CoreId) : HopState :=
  tget s.hops {} (coreKey c)

/-- A tram hop stage put in place. -/
def setHop (s : State) (c : CoreId) (x : HopState) : State :=
  { s with hops := tset s.hops {} (coreKey c) x }

/-- A work counter. -/
def getCounter (s : State) (seam k : Nat) : WorkCounter :=
  tget s.counters {} (counterKey seam k)

/-- A work counter put in place. -/
def setCounter (s : State) (seam k : Nat) (x : WorkCounter) : State :=
  { s with counters := tset s.counters {} (counterKey seam k) x }

/-- A seam's calibration. -/
def getCal (s : State) (seam : Nat) : CalState :=
  tget s.cals {} seam

/-- A seam's calibration put in place. -/
def setCal (s : State) (seam : Nat) (x : CalState) : State :=
  { s with cals := tset s.cals {} seam x }

/-- A clock domain. -/
def getDom (s : State) (d : DomainId) : Domain :=
  tget s.clk.doms {} (domKey d)

/-- A clock domain put in place. -/
def setDom (s : State) (d : DomainId) (x : Domain) : State :=
  { s with clk := { s.clk with doms := tset s.clk.doms {} (domKey d) x } }

/-- A session. -/
def getSession (s : State) (i : Nat) : Session :=
  tget s.port.sessions {} i

/-- A session put in place. -/
def setSession (s : State) (i : Nat) (x : Session) : State :=
  { s with port := { s.port with sessions := tset s.port.sessions {} i x } }

/-- A stage's records (R140, R149, R325), by graph slot and node. -/
def getStage (s : State) (graph node : Nat) : Stage :=
  tget s.dep.stages {} (65536 * graph + node)

/-- A stage's records put in place. -/
def setStage (s : State) (graph node : Nat) (x : Stage) : State :=
  { s with dep := { s.dep with stages := tset s.dep.stages {} (65536 * graph + node) x } }

/-- A job that the deputy keeps. -/
def getJob (s : State) (key : Nat) : Option Job :=
  s.dep.jobs.find? fun j => j.key == key

/-- A job changed by `f`. -/
def updJob (s : State) (key : Nat) (f : Job → Job) : State :=
  { s with dep := { s.dep with jobs := s.dep.jobs.map fun j => if j.key = key then f j else j } }

/-- A slot of the descriptor table. -/
def getDescSlot (s : State) (i : Nat) : DescSlot :=
  tget s.dep.descs {} i

/-- A slot of the descriptor table put in place. -/
def setDescSlot (s : State) (i : Nat) (x : DescSlot) : State :=
  { s with dep := { s.dep with descs := tset s.dep.descs {} i x } }

/-- A slot of the graph table. -/
def getGraphSlot (s : State) (i : Nat) : GraphSlot :=
  tget s.dep.graphs {} i

/-- A slot of the graph table put in place. -/
def setGraphSlot (s : State) (i : Nat) (x : GraphSlot) : State :=
  { s with dep := { s.dep with graphs := tset s.dep.graphs {} i x } }

/-- The next value of the implementation's choice, and the state in which it is used up (log entry 3). -/
def drawChoice (s : State) : Nat × State :=
  (Config.choice s.freeCount, { s with freeCount := s.freeCount + 1 })

end Sys2Proof.Machine
end

