-- ==== Sys2Proof/Machine/Lanes.lean ====
section
/-! DEFINITION. The vector engine's registers and lanes (R161, R168 to R173), and a core's scratch. -/

namespace Sys2Proof.Machine

/-! ## Registers and scratch -/

/-- Lanes of a vector register. -/
def laneCount : Nat := 64

/-- A vector register of zeros. -/
def zeroLanes : List Word :=
  List.replicate laneCount 0

/-- The 64 lanes of a vector register of a slot (R161). -/
def getLanes (s : State) (t : SlotId) (v : VReg) : List Word :=
  (List.range laneCount).map fun i => (tget (getSlot s t).vregs zeroLanes v.val).getD i 0

/-- A task slot with one vector register written. -/
def slotWithLanes (x : TaskSlot) (v : VReg) (lanes : List Word) : TaskSlot :=
  { x with vregs := tset x.vregs zeroLanes v.val lanes }

/-- A vector register of a slot written. -/
def setLanes (s : State) (t : SlotId) (v : VReg) (lanes : List Word) : State :=
  setSlot s t (slotWithLanes (getSlot s t) v lanes)

/-- The address of a scratch offset of a core (R6). -/
def scratchAddr (c : CoreId) (off : Nat) : Addr :=
  Config.coreBase + c.seam.val * 0x4000000 + c.core.val * 0x200000 + off

/-- Bytes of a core's scratch. -/
def readScratch (s : State) (c : CoreId) (off n : Nat) : List Byte :=
  loadBytes s.mem (scratchAddr c off) n

/-- The marks of poisoned words of scratch that a write of `n` bytes at `off` leaves: those of the words it does not
cover whole. -/
def unpoison (l : List Nat) (off n : Nat) : List Nat :=
  l.filter fun w => !(off ≤ 8 * w && 8 * w + 8 ≤ off + n)

/-- Bytes of a core's scratch written; the words covered are no longer poisoned. -/
def writeScratch (s : State) (c : CoreId) (off : Nat) (bs : List Byte) : State :=
  let x := getCore s c
  let s := if x.poisonedWords = [] then s
    else setCore s c { x with poisonedWords := unpoison x.poisonedWords off bs.length }
  { s with mem := storeBytes s.mem (scratchAddr c off) bs }

/-- Whether `n` bytes at offset `off` lie in scratch (R6, R155). -/
def inScratch (off n : Nat) : Bool :=
  off + n ≤ 0x100000

/-- An instruction that has worked for `cycles` KCLK cycles counted (R174). -/
def veDone (s : State) (c : CoreId) (cycles : Nat) : State :=
  count (count s (coreRegBase c) Ctr.VE_BUSY_CNT cycles) (coreRegBase c) Ctr.VE_INSN_CNT 1

/-- The result of an instruction written to its vector register and counted. -/
def veResult (s : State) (t : SlotId) (dst : VReg) (lanes : List Word) (cycles : Nat) : State :=
  veDone (setLanes s t dst lanes) t.core cycles

/-! ## One lane -/

/-- The floating format of an instruction's format, none for INT32. -/
def veFloat : VeFormat → Option FFormat
  | .fp32 => some fp32
  | .int32 => none
  | .bf16 => some bf16
  | .fp16 => some fp16

/-- Whether a format is packed, two elements to a lane (R168). -/
def vePacked : VeFormat → Bool
  | .bf16 | .fp16 => true
  | _ => false

/-- A function of elements applied to a lane: once, or to each half of a packed lane (R168). -/
def lane2 (fmt : VeFormat) (f : Nat → Nat → Nat) (a b : Word) : Word :=
  if vePacked fmt then
    BitVec.ofNat 32 (f (a.toNat % 65536) (b.toNat % 65536) % 65536
      + 65536 * (f (a.toNat / 65536) (b.toNat / 65536) % 65536))
  else BitVec.ofNat 32 (f a.toNat b.toNat)

/-- A function of two registers applied lane by lane. -/
def lanes2 (f : Word → Word → Word) (a b : List Word) : List Word :=
  List.zipWith f a b

/-- A function of three registers applied lane by lane. -/
def lanes3 (f : Word → Word → Word → Word) (a b c : List Word) : List Word :=
  List.zipWith (fun (x : Word × Word) z => f x.1 x.2 z) (a.zip b) c

/-- An exact INT32 result, or a free value when it lies outside the format (log entry 3). -/
def intResult (op : Nat) (a b c : Word) (v : Int) : Word :=
  if intMin 32 ≤ v ∧ v ≤ intMax 32 then BitVec.ofInt 32 v else Config.intOverflow op a b c

/-- A floating operation with two operands on codes. -/
def fop2 (f : FFormat) (rnd : Rounding) (op : FVal → FVal → FVal) (a b : Nat) : Nat :=
  encodeF f rnd (op (decodeF f a) (decodeF f b))

/-- ADD of one lane (R169, R170). -/
def addLane (fmt : VeFormat) (rnd : Rounding) (a b : Word) : Word :=
  match veFloat fmt with
  | some f => lane2 fmt (fop2 f rnd (addF rnd)) a b
  | none => intResult 0 a b 0 (a.toInt + b.toInt)

/-- SUB of one lane: `a - b`. -/
def subLane (fmt : VeFormat) (rnd : Rounding) (a b : Word) : Word :=
  match veFloat fmt with
  | some f => lane2 fmt (fop2 f rnd fun x y => addF rnd x (negF y)) a b
  | none => intResult 1 a b 0 (a.toInt - b.toInt)

/-- MUL of one lane. -/
def mulLane (fmt : VeFormat) (rnd : Rounding) (a b : Word) : Word :=
  match veFloat fmt with
  | some f => lane2 fmt (fop2 f rnd mulF) a b
  | none => intResult 2 a b 0 (a.toInt * b.toInt)

/-- FMA of floating codes: `a * b + c`, rounded once (R169). -/
def fmaF (f : FFormat) (rnd : Rounding) (a b c : Nat) : Nat :=
  encodeF f rnd (addF rnd (mulF (decodeF f a) (decodeF f b)) (decodeF f c))

/-- FMA of one lane. -/
def fmaLane (fmt : VeFormat) (rnd : Rounding) (a b c : Word) : Word :=
  match veFloat fmt with
  | some f =>
    if vePacked fmt then
      BitVec.ofNat 32 (fmaF f rnd (a.toNat % 65536) (b.toNat % 65536) (c.toNat % 65536)
        + 65536 * fmaF f rnd (a.toNat / 65536) (b.toNat / 65536) (c.toNat / 65536))
    else BitVec.ofNat 32 (fmaF f rnd a.toNat b.toNat c.toNat)
  | none => intResult 3 a b c (a.toInt * b.toInt + c.toInt)

/-- Whether a value is a zero. -/
def isZeroF : FVal → Bool
  | .fin _ m _ => m == 0
  | _ => false

/-- MIN (`op` 4) or MAX (`op` 5) of floating codes; for a NaN operand, and between zeros of opposite sign, the result is
open (log entry 3), a NaN being canonical (R11). -/
def minMaxF (f : FFormat) (op a b : Nat) : Nat :=
  let x := decodeF f a
  let y := decodeF f b
  if x = .nan || y = .nan then
    let r := Config.minMaxOpen op a b % 2 ^ (f.ebits + f.fbits + 1)
    if decodeF f r = .nan then nanCode f else r
  else if isZeroF x && isZeroF y then (if a = b || Config.minMaxOpen op a b % 2 = 0 then a else b)
  else if relF .lt x y == (op == 4) then a else b

/-- MIN or MAX of one lane. -/
def minMaxLane (op : Nat) (fmt : VeFormat) (a b : Word) : Word :=
  match veFloat fmt with
  | some f => lane2 fmt (minMaxF f op) a b
  | none => if (decide (a.toInt < b.toInt)) == (op == 4) then a else b

/-- ABS or NEG of one lane: `neg` says which. -/
def absNegLane (neg : Bool) (fmt : VeFormat) (a : Word) : Word :=
  match veFloat fmt with
  | some f =>
    lane2 fmt (fun x _ =>
      encodeF f .rne (if neg then negF (decodeF f x) else absF (decodeF f x))) a a
  | none =>
    if neg then intResult 7 a 0 0 (-a.toInt) else intResult 6 a 0 0 (if a.toInt < 0 then -a.toInt else a.toInt)

/-- Byte `i` of a lane as a signed integer. -/
def byteOf (w : Word) (i : Nat) : Int :=
  signedOf 8 (w.toNat / 256 ^ i)

/-- DOT4 of one lane: four INT8 products added to the INT32 accumulator in the destination (R168, log entry 21). -/
def dot4Lane (acc a b : Word) : Word :=
  intResult 8 a b acc (acc.toInt + byteOf a 0 * byteOf b 0 + byteOf a 1 * byteOf b 1
    + byteOf a 2 * byteOf b 2 + byteOf a 3 * byteOf b 3)

/-- The shifts: 0 SHL, 1 SHR, 2 SAR. A count of 32 or more gives a free value (log entry 3). -/
def shiftLane (op : Nat) (a b : Word) : Word :=
  if 32 ≤ b.toNat then Config.shiftOpen op a b
  else
    match op with
    | 0 => a <<< b.toNat
    | 1 => a >>> b.toNat
    | _ => a.sshiftRight b.toNat

/-- The 16-bit words that CMP writes for packed elements: the low halves of its words, kept apart. -/
def cmpHalf (b : Bool) : Nat :=
  let t := (Config.cmpWord true).toNat % 65536
  let f := (Config.cmpWord false).toNat % 65536
  if b then t else if f = t then (t + 1) % 65536 else f

/-- CMP of one lane (R170): the word for true or for false (log entry 15). -/
def cmpLane (fmt : VeFormat) (rel : CmpRel) (a b : Word) : Word :=
  match veFloat fmt with
  | some f =>
    if vePacked fmt then lane2 fmt (fun x y => cmpHalf (relF rel (decodeF f x) (decodeF f y))) a b
    else Config.cmpWord (relF rel (decodeF f a.toNat) (decodeF f b.toNat))
  | none => Config.cmpWord (relI rel a.toInt b.toInt)

/-- A selected element of a floating format: a NaN is the canonical one (R11). -/
def canonF (f : FFormat) (x : Nat) : Nat :=
  if decodeF f x = .nan then nanCode f else x

/-- SEL of one lane: `a` where the element of `c` is CMP's word for true, `b` where it is its word for false; any other
word goes a way that is left open (log entry 15). -/
def selLane (fmt : VeFormat) (a b c : Word) : Word :=
  if vePacked fmt then
    let f := (veFloat fmt).getD fp32
    let pick (x y z : Nat) : Nat :=
      canonF f (if z = cmpHalf true then x else if z = cmpHalf false then y
        else if Config.selOpen (BitVec.ofNat 32 z) then x else y)
    BitVec.ofNat 32 (pick (a.toNat % 65536) (b.toNat % 65536) (c.toNat % 65536)
      + 65536 * pick (a.toNat / 65536) (b.toNat / 65536) (c.toNat / 65536))
  else
    let w := if c = Config.cmpWord true then a
      else if c = Config.cmpWord false then b
      else if Config.selOpen c then a else b
    match veFloat fmt with
    | some f => BitVec.ofNat 32 (canonF f w.toNat)
    | none => w

/-- DIV of one lane of FP32 (R171); the other formats of its operand record are divided in their own format. -/
def divLane (fmt : VeFormat) (rnd : Rounding) (a b : Word) : Word :=
  let f := (veFloat fmt).getD fp32
  let d (x y : Nat) : Nat :=
    let q := divF (decodeF f x) (decodeF f y)
    encodeF f rnd q.1 q.2
  lane2 fmt d a b

/-- SQRT of one lane (R171). -/
def sqrtLane (rnd : Rounding) (a : Word) : Word :=
  let r := sqrtF (decodeF fp32 a.toNat)
  BitVec.ofNat 32 (encodeF fp32 rnd r.1 r.2)

/-! ## Reductions -/

/-- The left-aligned tree of R106 over a list whose length is at most `2^n`: the left part takes the greatest power of
two below the length. -/
def treeFold {α : Type} (f : α → α → α) : Nat → List α → Option α
  | 0, l => l.head?
  | n + 1, l =>
    if l.length ≤ 2 ^ n then treeFold f n l
    else
      match treeFold f n (l.take (2 ^ n)), treeFold f n (l.drop (2 ^ n)) with
      | some a, some b => some (f a b)
      | a, _ => a

/-- Every lane the reduction of 64 lanes by the tree of R172 (log entry 22). -/
def reduceLanes (f : Word → Word → Word) (l : List Word) : List Word :=
  List.replicate laneCount ((treeFold f 6 l).getD 0)

/-- REDMAX (`max` true) or REDMIN of two FP32 codes (R172): NaN if either is, and +0 over -0 for REDMAX, -0 over +0 for
REDMIN. -/
def redF (max : Bool) (a b : Word) : Word :=
  let x := decodeF fp32 a.toNat
  let y := decodeF fp32 b.toNat
  if x = .nan || y = .nan then BitVec.ofNat 32 (nanCode fp32)
  else if isZeroF x && isZeroF y then (if (a.toNat < 2 ^ 31) == max then a else b)
  else if relF .lt x y == max then b else a

/-- REDMAX or REDMIN of two lanes. -/
def redLane (max : Bool) (fmt : VeFormat) (a b : Word) : Word :=
  match veFloat fmt with
  | some _ => redF max a b
  | none => if (decide (a.toInt < b.toInt)) == max then b else a

/-! ## Events and entries -/

/-- Indices outside a region counted, in the engine and for the job (R173, R190). -/
def veOob (s : State) (t : SlotId) (n : Nat) : State :=
  if n = 0 then s
  else
    let s := raise (count s (coreRegBase t.core) Ctr.VE_IDX_OOB_CNT n) (coreRegBase t.core) Flag.core_IDX_OOB
    let x := getSlot s t
    setSlot s t { x with counts := tupd x.counts 0 2 (· + n) }

/-- How many of the indices lie outside a region. -/
def oobCount (idx : List Word) (n : Nat) : Nat :=
  (idx.filter fun i => n ≤ i.toNat).length

/-- Numbers of the counts a job's completion record carries (R275). -/
def cntSat : Nat := 6

/-- Conversion events counted in a core's registers, with the flag CVT (R32, R174). -/
def cvtCountRegs (s : State) (core : CoreId) (c : CvtCounts) : State :=
  if c = {} then s
  else
    let b := coreRegBase core
    let s := count s b Ctr.CVT_SAT c.sat
    let s := count s b Ctr.CVT_INF c.inf
    let s := count s b Ctr.CVT_CLAMP c.clamp
    let s := count s b Ctr.CVT_NANBLK c.nanBlk
    let s := count s b Ctr.CVT_NANINT c.nanInt
    let s := count s b Ctr.CVT_INF2NAN c.inf2nan
    raise s b Flag.core_CVT

/-- Conversion events in a table of counts (R32, R275). -/
def cvtTable (c : CvtCounts) (m : Table Nat) : Table Nat :=
  let add (k n : Nat) (m : Table Nat) : Table Nat := tupd m 0 k (· + n)
  add 9 c.nanBlk (add 10 c.nanInt (add 11 c.inf2nan (add 6 c.sat (add 7 c.inf (add 8 c.clamp m)))))

/-- Conversion events counted in the core's registers and in the task's counts (R32, R174). -/
def cvtCountCore (s : State) (t : SlotId) (c : CvtCounts) : State :=
  if c = {} then s
  else
    let s := cvtCountRegs s t.core c
    let x := getSlot s t
    setSlot s t { x with counts := cvtTable c x.counts }

/-- Element `i` of a vector register taken as packed elements of a scalar format (R168). -/
def regElem (f : Nat) (lanes : List Word) (i : Nat) : Nat :=
  payloadBits (wordBytes lanes) (i * elemWidth f) (elemWidth f)

/-- The value of an entry of a vat tile (R20, R95): A40, or `a * 2^E_REF`. -/
def vatEntryVal (x : VatTile) (i : Nat) : FVal :=
  let v := (tget x.entries 0 i).toNat
  if x.x64 && !x.lost then (if v = 2 ^ 63 then .nan else fvalOfInt (signedOf 64 v) x.eRef)
  else decodeF a40 v

/-- The tile of a core at a base granule. -/
def findTile (s : State) (c : CoreId) (base : Nat) : Option VatTile :=
  (getCore s c).tiles.find? fun t => t.base == base

end Sys2Proof.Machine
end

