-- ==== Sys2Proof/Machine/Access.lean ====
section
/-! DEFINITION. Accesses to the module's address space (R6): DRAM, scratch and vat windows, allocations, void granules
and the tables of assay sums that a write makes stale. -/

namespace Sys2Proof.Machine

/-! ## Where an address lies -/

/-- What an address of the module's space belongs to (R6). -/
inductive Place where
  | dram (seam : Nat) (off : Nat)
  | scratch (core : CoreId) (off : Nat)
  | vat (core : CoreId) (off : Nat)
  | none
deriving DecidableEq, Repr

/-- The place of an address (R6). -/
def placeOf (a : Addr) : Place :=
  if a < Config.coreBase / 2 then
    let s := a / Config.seamWindow
    let o := a % Config.seamWindow
    if s < 16 ∧ o < Config.dramBytes then .dram s o else .none
  else if Config.coreBase ≤ a ∧ a < Config.coreBase + 0x40000000 then
    let r := a - Config.coreBase
    let c : CoreId := ⟨Fin.ofNat 16 (r / 0x4000000), Fin.ofNat 32 (r % 0x4000000 / 0x200000)⟩
    let o := r % 0x200000
    if o < 0x100000 then .scratch c o
    else if o < 0x150000 then .vat c (o - 0x100000)
    else .none
  else .none

/-- The base address of a seam's DRAM. -/
def seamDram (s : Nat) : Addr :=
  s * Config.seamWindow

/-- The seam in whose DRAM an address lies. -/
def dramSeam (a : Addr) : Option Nat :=
  match placeOf a with
  | .dram s _ => some s
  | _ => none

/-- The channel of an offset of a seam's DRAM (R203). -/
def chanOf (off : Nat) : Nat :=
  (bitField off 16 12 ^^^ bitField off 21 17 ^^^ bitField off 26 22 ^^^ bitField off 31 27) % 32

/-! ## Allocations -/

/-- Whether a range lies wholly within one of the owner's allocations that are live for commands (R185). -/
def inAllocation (s : State) (a : Addr) (n : Nat) : Bool :=
  s.dep.allocs.any fun x => !x.freePending && x.base ≤ a && a + n ≤ x.base + x.size

/-- The allocation that holds an address. -/
def allocationOf (s : State) (a : Addr) : Option Allocation :=
  s.dep.allocs.find? fun x => x.base ≤ a && a < x.base + x.size

/-! ## Void granules -/

/-- The granule of an address (R203). -/
def granOf (a : Addr) : Nat :=
  a / 4096

/-- Whether a granule is void (R340). -/
def isVoid (s : State) (g : Nat) : Bool :=
  s.dep.voids.any fun v => v.gran == g && v.void

/-- Whether a granule is void and has no backing (R341). -/
def isUnhomed (s : State) (g : Nat) : Bool :=
  s.dep.voids.any fun v => v.gran == g && v.void && v.home.isNone

/-- Where an address is backed: an address of a rehomed granule in the granule's home (R341). -/
def backing (s : State) (a : Addr) : Addr :=
  match s.dep.voids.find? fun v => v.gran == granOf a with
  | some v => match v.home with | some h => 4096 * h + a % 4096 | none => a
  | none => a

/-- The granule whose contents a granule of DRAM holds: the one that it is the home of, or itself (R341). -/
def granuleHeld (s : State) (p : Nat) : Nat :=
  ((s.dep.voids.find? fun v => v.home == some p).map (·.gran)).getD p

/-- Granules of a range. -/
def granRange (a : Addr) (n : Nat) : List Nat :=
  (List.range ((a + n - 1) / 4096 + 1 - a / 4096)).map (a / 4096 + ·)

/-- Whether a range touches a void granule. -/
def touchesVoid (s : State) (a : Addr) (n : Nat) : Bool :=
  s.dep.voids.any fun v => v.void && v.gran * 4096 < a + n && a < v.gran * 4096 + 4096

/-- Whether a range touches an unhomed granule. -/
def touchesUnhomed (s : State) (a : Addr) (n : Nat) : Bool :=
  s.dep.voids.any fun v => v.void && v.home.isNone && v.gran * 4096 < a + n && a < v.gran * 4096 + 4096

/-- Loss entries brought up to date with the granules that are still void: an entry none of whose granules is void is
resupplied (R342). -/
def updateLosses (voids : List VoidGranule) (l : Table LossEntry) : Table LossEntry :=
  l.map fun e => (e.1,
    { e.2 with resupplied := e.2.valid && !(voids.any fun v =>
        v.void && e.2.addr ≤ v.gran * 4096 && v.gran * 4096 < e.2.addr + e.2.count * 4096) })

/-- A write of a range: every void granule with backing that it covers whole is valid again (R341). A granule that is
rehomed keeps its home until the next start. -/
def revalidate (s : State) (a : Addr) (n : Nat) : State :=
  if s.dep.voids.any (fun v => v.void && v.home.isSome && a ≤ v.gran * 4096 && v.gran * 4096 + 4096 ≤ a + n) then
    let voids := s.dep.voids.map fun v =>
      if v.void && v.home.isSome && a ≤ v.gran * 4096 && v.gran * 4096 + 4096 ≤ a + n then { v with void := false } else v
    { s with dep := { s.dep with voids := voids, losses := updateLosses voids s.dep.losses } }
  else s

/-- Whether the parts of a granule that write `w` has written are all of it. -/
def allCovered (parts : List (Nat × Nat × Nat)) (w : Nat) : Bool :=
  (List.range 4096).all fun i => parts.any fun p => p.1 == w && decide (p.2.1 ≤ i) && decide (i < p.2.1 + p.2.2)

/-- A void granule with backing after write `w` has written a range. -/
def coverGranule (w : Nat) (a n : Nat) (v : VoidGranule) : VoidGranule :=
  if v.void && v.home.isSome && v.gran * 4096 < a + n && a < v.gran * 4096 + 4096 then
    let lo := max a (v.gran * 4096)
    let parts := (w, lo - v.gran * 4096, min (a + n) (v.gran * 4096 + 4096) - lo) :: v.parts
    if allCovered parts w then { v with void := false, parts := [] } else { v with parts := parts }
  else v

/-- A piece of write `w`, which may come in several (R341): a void granule that the pieces have covered whole is valid
again. -/
def coverPart (s : State) (w : Nat) (a n : Nat) : State :=
  if touchesVoid s a n then
    let voids := s.dep.voids.map (coverGranule w a n)
    { s with dep := { s.dep with voids := voids, losses := updateLosses voids s.dep.losses } }
  else s

/-! ## The vat window -/

/-- Granules of a tile (R94). -/
def tileGranules (x64 : Bool) : Nat :=
  if x64 then 8 else 5

/-- The tile that holds a granule of a vat. -/
def tileAt (c : CoreState) (g : Nat) : Option VatTile :=
  c.tiles.find? fun t => t.base ≤ g && g < t.base + tileGranules t.x64

/-- Bytes of an entry in the window (R95). -/
def entryBytes (x64 : Bool) : Nat :=
  if x64 then 8 else 5

/-- The byte at an offset of the vat window; granules that no tile holds read as zero (R94, R95). -/
def vatByte (c : CoreState) (off : Nat) : Byte :=
  match tileAt c (off / 4096) with
  | some t =>
    let r := off - t.base * 4096
    let w := entryBytes t.x64
    if r / w < 4096 then BitVec.ofNat 8 ((tget t.entries 0 (r / w)).toNat / 256 ^ (r % w)) else 0
  | none => 0

/-- A tile with one byte of its window written. -/
def tileSetByte (t : VatTile) (off : Nat) (b : Byte) : VatTile :=
  let r := off - t.base * 4096
  let w := entryBytes t.x64
  if r / w < 4096 then
    let old := (tget t.entries 0 (r / w)).toNat
    let k := 256 ^ (r % w)
    let v := old - old / k % 256 * k + b.toNat * k
    { t with entries := tset t.entries 0 (r / w) (BitVec.ofNat 64 v) }
  else t

/-- Whether a write of `n` bytes at a vat offset meets an open tile (R96). -/
def hitsOpen (c : CoreState) (off n : Nat) : Bool :=
  c.tiles.any fun t =>
    t.isOpen && t.base * 4096 < off + n && off < (t.base + tileGranules t.x64) * 4096

/-- A core whose closed tiles take the bytes of a write through the window; open tiles and free granules do not. -/
def vatWrite (c : CoreState) (off : Nat) (bs : List Byte) : CoreState :=
  match bs with
  | [] => c
  | b :: r =>
    let g := off / 4096
    let tiles := c.tiles.map fun t =>
      if !t.isOpen && t.base ≤ g && g < t.base + tileGranules t.x64 then tileSetByte t off b else t
    vatWrite { c with tiles := tiles } (off + 1) r

/-- A write through the vat window: discarded, counted and flagged where the tile is open (R96). -/
def writeVat (s : State) (c : CoreId) (off : Nat) (bs : List Byte) : State :=
  let x := getCore s c
  let s := setCore s c (vatWrite x off bs)
  if hitsOpen x off bs.length then
    raise (count s (vatRegBase c) Ctr.VAT_OPEN_WRITE_CNT 1) (vatRegBase c) Flag.vat_OPEN_WRITE
  else s

/-! ## Assay sums -/

/-- Whether two ranges share a byte. -/
def overlap (a n b m : Nat) : Bool :=
  a < b + m && b < a + n

/-- Tables of assay sums whose weight tensor a write reaches are stale (R146). -/
def staleAssays (s : State) (a : Addr) (n : Nat) : State :=
  let hit (t : AssayTable) : Bool := t.ranges.any fun r => overlap a n r.1 r.2
  if s.assays.any hit then
    { s with assays := s.assays.map fun t =>
        if hit t then { t with stale := true, generation := t.generation + 1 } else t }
  else s

/-! ## Reads and writes -/

/-- Bytes of the module's address space; what an address that nothing backs gives is open (log entry 122). -/
def readModule (s : State) (a : Addr) (n : Nat) : List Byte :=
  match placeOf a with
  | .vat c off => (List.range n).map fun i => vatByte (getCore s c) (off + i)
  | .none => (List.range n).map fun i => Config.unbacked (a + i)
  | _ => loadBytes s.mem a n

/-- Bytes written into the module's address space by an engine of the module: DRAM and scratch take them, the vat window
takes them under R96, and an address that nothing backs drops them. -/
def writeModule (s : State) (a : Addr) (bs : List Byte) : State :=
  match placeOf a with
  | .dram _ _ => staleAssays (revalidate { s with mem := storeBytes s.mem a bs } a bs.length) a bs.length
  | .scratch c off => writeScratch s c off bs
  | .vat c off => writeVat s c off bs
  | .none => s

/-- A piece of a hoist's or a commit's write `w` (R341). -/
def writePart (s : State) (w : Nat) (a : Addr) (bs : List Byte) : State :=
  coverPart (writeModule s a bs) w a bs.length

end Sys2Proof.Machine
end

