-- ==== Sys2Proof/Machine/Desc.lean ====
section
/-! DEFINITION. Tensor descriptors (R175 to R198): the record, its checks, and where its storage units lie. -/

namespace Sys2Proof.Machine

/-! ## Layouts -/

/-- Layout codes (R178). -/
def layStrided : Nat := 0x00
def layWl64 : Nat := 0x30
def layPi64 : Nat := 0x31

/-- Whether a code is a fixed-count selector layout, or SEL-V8 (R64). -/
def isSelFixed (l : Nat) : Bool := 0x20 ≤ l && l ≤ 0x23
def isSelV8 (l : Nat) : Bool := 0x24 ≤ l && l ≤ 0x2B

/-- Whether a layout code is known (R178). -/
def isLayout (l : Nat) : Bool :=
  l == layStrided || isSelFixed l || isSelV8 l || l == layWl64 || l == layPi64

/-- Entries per group and group size of a fixed-count layout (R64). -/
def selN (l : Nat) : Nat := if l = 0x20 then 1 else if l = 0x23 then 4 else 2
def selM (l : Nat) : Nat := if l ≤ 0x21 then 4 else 8

/-- The declared maximum of a SEL-V8 layout (R64). -/
def v8N (l : Nat) : Nat := l - 0x23

/-- Gain of a line mode code (R69): L1, L4, L2X4, L4X8. -/
def lineGain (code : Nat) : Nat :=
  match code with
  | 0 => 1
  | 1 => 4
  | _ => 2

/-- Line mode code and weight width of a WL64 descriptor (R178). -/
def wlLine (lparam : Nat) : Nat := bitField lparam 2 1
def wlWidth (lparam : Nat) : Nat := if bitAt lparam 0 then 16 else 8

/-- Size of a layout's storage unit (R178). -/
def unitSize (layout fmt lparam : Nat) : Nat :=
  let w := elemWidth fmt
  if layout = layWl64 then (if wlWidth lparam = 16 then 9792 else 5696)
  else if layout = layPi64 then 8 * (1 + lparam)
  else if isSelV8 layout then 20 + 12 * v8N layout + 4 * v8N layout * w
  else if isSelFixed layout then (if selM layout = 4 then 8 * (9 + 4 * w) else 8 * (13 + 4 * w))
  else unitBytes fmt

/-- Indices of dimension 0 in a storage unit, U (R178). -/
def unitIndices (layout fmt lparam : Nat) : Nat :=
  if layout = layWl64 then 64 * lineGain (wlLine lparam)
  else if layout = layPi64 then 64
  else if isSelV8 layout then 256
  else if isSelFixed layout then 256 / selN layout * selM layout
  else unitElems fmt

/-- The alignment unit: the greatest power of two that divides the access width (R183). -/
def alignUnit (n : Nat) : Nat :=
  ((List.range 16).foldl (fun a k => if n % 2 ^ k = 0 then 2 ^ k else a) 1)

/-! ## The record -/

/-- A descriptor as its record gives it (R175, R176): the fields of dimensions from RANK up are stored as extent 1 and
zeros. -/
def parseDesc (r : List Byte) : Desc :=
  let rank := leAt r 0x0B 1
  let live (d : Nat) : Bool := d < rank
  { base := leAt r 0 8, format := leAt r 8 1, layout := leAt r 9 1, lparam := leAt r 0x0A 1, rank := rank,
    sharded := bitAt (leAt r 0x0C 4) 0,
    extent := (List.range 5).map fun d => if live d then leAt r (0x10 + 4 * d) 4 else 1,
    stride := (List.range 5).map fun d => if live d then signedOf 48 (leAt r (0x28 + 8 * d) 8) else 0,
    fillElem := BitVec.ofNat 32 (leAt r 0x50 4), fillScale := BitVec.ofNat 8 (leAt r 0x54 1),
    shard := (List.range 5).map fun d =>
      if live d then ⟨leAt r (0x60 + 12 * d) 1, leAt r (0x61 + 12 * d) 1, leAt r (0x64 + 12 * d) 4, leAt r (0x68 + 12 * d) 4⟩
      else {} }

/-- Extent and stride of a dimension. -/
def extentOf (d : Desc) (k : Nat) : Nat := d.extent.getD k 1
def strideOf (d : Desc) (k : Nat) : Int := d.stride.getD k 0

/-- Size and length of a descriptor's storage unit. -/
def descUnit (d : Desc) : Nat := unitSize d.layout d.format d.lparam
def descU (d : Desc) : Nat := unitIndices d.layout d.format d.lparam

/-! ## Ranges -/

/-- Storage units along a dimension for an extent (R184). -/
def unitsAlong (d : Desc) (ext : List Nat) (k : Nat) : Nat :=
  let e := ext.getD k 1
  if k = 0 then (e + descU d - 1) / descU d
  else if k = 1 ∧ d.layout = layWl64 then (e + 63) / 64
  else e

/-- Lowest and highest byte of a descriptor with the given extents (R184). -/
def descRange (d : Desc) (ext : List Nat) : Int × Int :=
  let step (k : Nat) : Int := ((unitsAlong d ext k : Int) - 1) * strideOf d k
  ((d.base : Int) + ((List.range 5).map fun k => min 0 (step k)).sum,
   (d.base : Int) + ((List.range 5).map fun k => max 0 (step k)).sum + descUnit d - 1)

/-- Whether the lowest and highest bytes of a descriptor lie in the allocation that holds its base (R184). -/
def rangeOk (s : State) (d : Desc) (ext : List Nat) : Bool :=
  match allocationOf s d.base with
  | some a =>
    let r := descRange d ext
    (a.base : Int) ≤ r.1 && r.2 < (a.base + a.size : Nat)
  | none => false

/-! ## Sharding -/

/-- Local extent of a dimension on part `j` of a sharding (R197). -/
def localExtent (sh : Shard) (e j : Nat) : Nat :=
  match sh.kind with
  | 1 =>
    let b := (e + sh.n - 1) / sh.n
    min b (e - j * b)
  | 2 =>
    let whole := e / (sh.c * sh.n)
    let rest := e % (sh.c * sh.n)
    whole * sh.c + min sh.c (rest - j * sh.c)
  | _ => e

/-- A module's coordinate on a grid axis: its number in mixed radix, axis 0 fastest, an undeclared axis counting as 1
(R250). -/
def gridCoord (grid : List Nat) (module axis : Nat) : Nat :=
  let ext (k : Nat) : Nat := max 1 (grid.getD k 0)
  module / ((List.range axis).map ext).prod % ext axis

/-- The extents that hold on this module (R198). -/
def localExtents (d : Desc) (grid : List Nat) (module : Nat) : List Nat :=
  if d.sharded then
    (List.range 5).map fun k =>
      let sh := d.shard.getD k {}
      localExtent sh (extentOf d k) (gridCoord grid module sh.axis)
  else d.extent

/-! ## Creation checks (R182) -/

/-- DS_RESERVED. -/
def badReserved (r : List Byte) : Bool :=
  leAt r 0x24 4 != 0 || leAt r 0x58 8 != 0 || leAt r 0x9C 4 != 0 || leAt r 6 2 != 0 || leAt r 0x0C 4 / 2 != 0

/-- DS_RANK: SEL, SEL-V8 and WL64 need rank 2 or more (R178). -/
def badRank (d : Desc) : Bool :=
  let low := if isSelFixed d.layout || isSelV8 d.layout || d.layout == layWl64 then 2 else 1
  d.rank < low || 5 < d.rank

/-- DS_FORMAT. -/
def badFormat (d : Desc) : Bool :=
  !isFormat d.format || d.format == fmtA40 || d.format == fmtX64

/-- The width that an integer weight source fixes (R21), none for a floating source. -/
def fixedWidth (f : Nat) : Option Nat :=
  if f = fmtInt8 ∨ f = fmtMxInt8 then some 8
  else if isVwb f then some (if elemWidth f ≤ 8 then 8 else 16)
  else none

/-- The aligned width that an integer activation source fixes (R21). -/
def fixedPlanes (f : Nat) : Option Nat :=
  if isIntSource f then some (elemWidth f) else none

/-- Whether a format is an array source (R21). -/
def isArraySource (f : Nat) : Bool :=
  isIntSource f || isFloatSource f

/-- DS_LAYOUT (R178). -/
def badLayout (d : Desc) : Bool :=
  if d.layout = layStrided then d.lparam != 0
  else if isSelFixed d.layout || isSelV8 d.layout then d.lparam != 0 || !isBlock d.format
  else if d.layout = layWl64 then
    !isArraySource d.format || d.lparam / 8 != 0 || (fixedWidth d.format).any (· != wlWidth d.lparam)
  else if d.layout = layPi64 then
    !isArraySource d.format || d.lparam == 0 || 16 < d.lparam || (fixedPlanes d.format).any (· != d.lparam)
  else true

/-- DS_EXTENT. -/
def badExtent (d : Desc) : Bool :=
  (List.range d.rank).any fun k => extentOf d k == 0 || extentOf d k == 0xFFFFFFFF

/-- DS_FILL (R189). -/
def badFill (d : Desc) (r : List Byte) : Bool :=
  let v := leAt r 0x50 8
  if d.layout != layStrided then v != 0
  else
    leAt r 0x55 3 != 0 || leAt r 0x50 4 / 2 ^ elemWidth d.format != 0 ||
    (!isBlock d.format && leAt r 0x54 1 != 0)

/-- Whether a dimension's sharding breaks the checks of R197 made at creation. -/
def badShardDim (d : Desc) (r : List Byte) (k : Nat) : Bool :=
  let sh := d.shard.getD k {}
  let real := sh.kind == 1 || sh.kind == 2
  2 < sh.kind || (real && 3 < sh.axis) || (real && sh.n == 0) ||
  (real && (List.range k).any fun j =>
    let o := d.shard.getD j {}
    (o.kind == 1 || o.kind == 2) && o.axis == sh.axis) ||
  (sh.kind == 2 && sh.c == 0) || (sh.kind != 2 && sh.c != 0) || leAt r (0x62 + 12 * k) 2 != 0 ||
  (real && k == 0 && (isBlock d.format || isSelFixed d.layout || isSelV8 d.layout) &&
    (d.layout == layStrided || isSelFixed d.layout || isSelV8 d.layout) &&
    (if sh.kind = 1 then (extentOf d 0 + sh.n - 1) / sh.n % descU d != 0 else sh.c % descU d != 0)) ||
  (real && k ≤ 1 && (d.layout == layWl64 || d.layout == layPi64))

/-- DS_SHARD. -/
def badShard (d : Desc) (r : List Byte) : Bool :=
  d.sharded && (List.range d.rank).any (badShardDim d r)

/-- DS_ALIGN (R176, R183). -/
def badAlign (d : Desc) (r : List Byte) : Bool :=
  let u := alignUnit (descUnit d)
  d.base % u != 0 || (List.range d.rank).any fun k =>
    let v := leAt r (0x28 + 8 * k) 8
    (v / 2 ^ 47 != 0 && v / 2 ^ 47 != 2 ^ 17 - 1) || strideOf d k % (u : Int) != 0

/-- DS_RANGE (R184, R185, R197): the allocation must be live for commands. -/
def badRange (s : State) (d : Desc) : Bool :=
  (match allocationOf s d.base with | some a => a.freePending | none => true) ||
  (!d.sharded && !rangeOk s d d.extent)

/-- The creation status of a record, without DS_FULL (R182). -/
def descStatus (s : State) (r : List Byte) : Nat :=
  let d := parseDesc r
  if badReserved r then 0xA
  else if badRank d then 4
  else if badFormat d then 5
  else if badLayout d then 6
  else if badExtent d then 3
  else if badFill d r then 7
  else if badShard d r then 8
  else if badAlign d r then 1
  else if badRange s d then 2
  else 0

/-! ## Handles -/

/-- The handle of a slot (R177). -/
def handleOf (slot gen : Nat) : Nat := slot + 2 ^ 18 * gen
def handleSlot (h : Nat) : Nat := h % 2 ^ 18
def handleGen (h : Nat) : Nat := h / 2 ^ 18 % 2 ^ 14

/-- The generation after the one given (R177). -/
def nextGen (g : Nat) : Nat := if g = 16383 then 1 else g + 1

/-- The lowest slot of a list of used slots that is free. -/
def lowestFree (used : List Nat) (limit : Nat) : Option Nat :=
  -- among the first `length + 1` slots one is free
  (List.range (min limit (used.length + 1))).find? fun i => !used.contains i

/-- The slots of the descriptor table that hold a descriptor. -/
def usedDescs (s : State) : List Nat :=
  (s.dep.descs.filter fun e => e.2.live.isSome).map (·.1)

/-- The descriptor in a slot. -/
def descAt (s : State) (slot : Nat) : Option Desc :=
  (getDescSlot s slot).live

/-- A descriptor that a handle names for commands: live and not asked to be destroyed (R185). -/
def liveHandle (s : State) (h : Nat) : Bool :=
  let x := getDescSlot s (handleSlot h)
  x.live.isSome && x.gen == handleGen h && !x.destroyPending

/-- The byte range of a descriptor as addresses. -/
def descSpan (d : Desc) : Addr × Nat :=
  let r := descRange d d.extent
  (r.1.toNat, (r.2 - r.1 + 1).toNat)

/-! ## Storage units -/

/-- The address of the unit that holds index `idx` (R178). -/
def unitAddr (d : Desc) (idx : List Nat) : Addr :=
  let at_ (k : Nat) : Nat :=
    let i := idx.getD k 0
    if k = 0 then i / descU d else if k = 1 ∧ d.layout = layWl64 then i / 64 else i
  ((d.base : Int) + ((List.range 5).map fun k => (at_ k : Int) * strideOf d k).sum).toNat

/-- The bytes of the unit that holds index `idx`. -/
def readUnit (s : State) (d : Desc) (idx : List Nat) : List Byte :=
  readModule s (unitAddr d idx) (descUnit d)

/-- The bits of an element of a STRIDED tensor. -/
def elemBits (s : State) (d : Desc) (idx : List Nat) : Nat :=
  let u := readUnit s d idx
  if isBlock d.format then bundleElem d.format u (idx.getD 0 0 % 256) else leNat u

/-- The scale byte over an element of a STRIDED tensor; 127 for a scalar format. -/
def elemScale (s : State) (d : Desc) (idx : List Nat) : Nat :=
  if isBlock d.format then bundleScale (readUnit s d idx) (idx.getD 0 0 % 256 / 32) else 127

/-- The value of an element of a STRIDED tensor (R10 to R15). -/
def elemValue (s : State) (d : Desc) (idx : List Nat) : FVal :=
  if isBlock d.format then scaleVal (elemScale s d idx) (elemVal d.format (elemBits s d idx))
  else elemVal d.format (elemBits s d idx)

/-- Element `i` of a rank 1 INT32 tensor, as a signed number. -/
def indexElem (s : State) (d : Desc) (i : Nat) : Int :=
  signedOf 32 (elemBits s d [i])

/-- Byte `i` of a rank 1 INT8 tensor read as a bitmap (R84, R261). -/
def bitmapBit (s : State) (d : Desc) (first i : Nat) : Bool :=
  bitAt (elemBits s d [first + i / 8]) (i % 8)

end Sys2Proof.Machine
end

