-- ==== Sys2Proof/Machine/HoistOps.lean ====
section
/-! DEFINITION. Hoist queues (R214 to R221): cutting a transfer into segments, the choice of the queue that issues, and
what a cancellation discards. -/

namespace Sys2Proof.Machine

/-! ## Tram positions -/

/-- The seams in snake order (R236). -/
def snakeSeams : List Nat := [0, 1, 2, 3, 7, 6, 5, 4, 8, 9, 10, 11, 15, 14, 13, 12]

/-- The tram position of a core (R236). -/
def tramPos (c : CoreId) : Nat :=
  32 * (snakeSeams.idxOf c.seam.val) + c.core.val

/-- The core at a tram position (R236). -/
def coreAtPos (z : Nat) : CoreId :=
  ⟨Fin.ofNat 16 (snakeSeams.getD (z / 32) 0), Fin.ofNat 32 z⟩

/-! ## Segments -/

/-- The rest of a run behind its first `n` bytes. -/
def runAfter (r : MoveRun) (n : Nat) : MoveRun :=
  { r with src := r.src + n, dst := r.dst + n, len := r.len - n, pad := r.pad.map fun p => { p with skip := p.skip + n } }

/-- The first piece of a run that lies within one 4 KiB aligned range of the source, and the rest (R215). -/
def cutRun (r : MoveRun) : MoveRun × Option MoveRun :=
  match r.fill with
  | some _ => (r, none)
  | none =>
    let n := 4096 - r.src % 4096
    if r.len ≤ n then (r, none) else ({ r with len := n }, some (runAfter r n))

/-- All pieces of a run with their places in it; `whole` is its length. -/
def cutAll (r : MoveRun) (whole : Nat) : Nat → Nat → List RunMove
  | 0, pos => [{ run := r, whole := whole, at_ := pos }]
  | k + 1, pos =>
    match cutRun r with
    | (a, some rest) => { run := a, whole := whole, at_ := pos } :: cutAll rest whole k (pos + a.len)
    | (a, none) => [{ run := a, whole := whole, at_ := pos }]

/-- The source range of a piece: its 4 KiB aligned range, or none for a fill. -/
def pieceRange (r : MoveRun) : Option Nat :=
  match r.fill with
  | some _ => none
  | none => some (r.src / 4096)

/-- Runs shorter than 4,096 B that begin with a piece, 1 or 0 (R206, R222). -/
def isSmall (r : RunMove) : Nat :=
  if r.at_ = 0 ∧ r.whole < 4096 then 1 else 0

/-- The pieces of a transfer grouped into segments: consecutive pieces of one source range (R215). -/
def groupPieces : List RunMove → List (List RunMove)
  | [] => []
  | r :: rest =>
    match groupPieces rest with
    | (q :: qs) :: gs =>
      if pieceRange r.run = pieceRange q.run ∧ (pieceRange r.run).isSome then (r :: q :: qs) :: gs else [r] :: (q :: qs) :: gs
    | gs => [r] :: gs

/-- The segments' runs of a transfer. -/
def segmentRuns (runs : List MoveRun) : List (List RunMove) :=
  groupPieces (runs.flatMap fun r => cutAll r r.len (r.len / 4096 + 1) 0)

/-- Whether a run writes DRAM or another seam (R219). -/
def isWrite (q : QueueId) (r : MoveRun) : Bool :=
  match placeOf r.dst with
  | .dram .. => true
  | .scratch c _ => c.seam != q.seam
  | .vat c _ => c.seam != q.seam
  | .none => false

/-- Whether a queue is a PORT_RX queue, or a TRAM_FEED queue (R214). -/
def isPortRx (q : QueueId) : Bool := q.queue.val == 16 && decide (q.hoist.val < 4)
def isTramFeed (q : QueueId) : Bool := q.queue.val == 16 && decide (4 ≤ q.hoist.val)

/-- The dry time that a command's segments carry from the start (R217): a PORT_RX queue's their arrival time plus 4 µs. -/
def commandDry (q : QueueId) (now : Time) (dry : Option Time) : Option Time :=
  if isPortRx q then some (now + 4000) else dry

/-- A command's segments, numbered from the queue's next number; an accumulation whose indices are all out of bounds has one
without a run. -/
def makeSegments (q : QueueId) (next : Nat) (now : Time) (cmd : HoistCmd) (sink : Sink) : List Segment :=
  let gs := segmentRuns cmd.runs
  let gs := if gs = [] ∧ sink ≠ .memory then [[]] else gs
  (List.range gs.length).map fun i =>
    let g := gs.getD i []
    { id := next + i, cmd := next, runs := g, small := (g.map isSmall).sum, dry := commandDry q now cmd.dry,
      enqueued := now, deps := cmd.deps, slow := cmd.slow, write := sink == .memory && g.any fun r => isWrite q r.run,
      sink := sink }

/-- A command given to its queue (R214, R215), with where its runs land. -/
def enqueueTo (s : State) (q : QueueId) (cmd : HoistCmd) (sink : Sink) : State :=
  let x := getQueue s q
  let segs := makeSegments q x.nextId s.clk.now cmd sink
  setQueue s q { x with ready := x.ready ++ segs, nextId := x.nextId + segs.length }

/-- A command given to its queue (R214, R215). -/
def enqueueCmd (s : State) (q : QueueId) (cmd : HoistCmd) : State :=
  enqueueTo s q cmd .memory

/-! ## Issue -/

/-- The task slot that owns a task queue (R214): queue `4 i + t` of hoist `h` serves slot `t` of core `8 i + h`. -/
def queueSlot (q : QueueId) : Option SlotId :=
  if q.queue.val < 16 then
    some ⟨⟨q.seam, Fin.ofNat 32 (8 * (q.queue.val / 4) + q.hoist.val)⟩, Fin.ofNat 4 q.queue.val⟩
  else none

/-- The queue of a task slot (R214). -/
def slotQueue (t : SlotId) : QueueId :=
  ⟨t.core.seam, Fin.ofNat 8 t.core.core.val, Fin.ofNat 18 (4 * (t.core.core.val / 8) + t.slot.val)⟩

/-- Whether the commands that a segment waits for have completed (R218). -/
def depsMet (s : State) (q : QueueId) (deps : List Nat) : Bool :=
  match queueSlot q with
  | some t => deps.all fun i => ((getSlot s t).cmds[i]?.map (·.done)).getD true
  | none => true

/-- The outstanding limit of a queue: 65 to 127 act as 64 (R216, R222). -/
def maxOut (s : State) (q : QueueId) : Nat :=
  min 64 (bitField (rawReg s (queueRegBase q)).toNat 6 0)

/-- The slack added to undated segments, in ns (R217, R222). -/
def slackNs (s : State) : Nat :=
  10 * s.pwr.config.slack

/-- The dry time that a segment carries (R217). -/
def segmentDry (s : State) (g : Segment) : Time :=
  g.dry.getD (g.enqueued + slackNs s)

/-- Bytes of a segment that pass through the staging buffer: those that go from DRAM to DRAM (R213). -/
def stagedBytes (g : Segment) : Nat :=
  if g.sink ≠ .memory then 0
  else ((g.runs.filter fun r => r.run.fill.isNone && (dramSeam r.run.src).isSome && (dramSeam r.run.dst).isSome).map
    (·.run.len)).sum

/-- Whether a hoist's staging buffer of 64 KiB has room for a segment beside those that are issued (R213). -/
def stagingRoom (s : State) (q : QueueId) (g : Segment) : Bool :=
  let held := ((List.finRange 18).flatMap fun n => (getQueue s { q with queue := n }).issued).map stagedBytes
  decide (stagedBytes g = 0) || decide (held.sum + stagedBytes g ≤ 65536)

/-- The head segment of a queue if it may issue: dependences met, queue not stopped, within its limit, with room in the
staging buffer (R213, R216, R218). -/
def issuable (s : State) (q : QueueId) : Option Segment :=
  let x := getQueue s q
  match x.ready with
  | g :: _ =>
    if !x.halted && x.issued.length < maxOut s q && depsMet s q g.deps && stagingRoom s q g then some g else none
  | [] => none

/-- Whether the queue on the left goes before the one on the right: the earlier dry time, then a privileged queue, then
the lower number (R217). -/
def queueBefore (s : State) (a b : Nat × Segment) : Bool :=
  let da := segmentDry s a.2
  let db := segmentDry s b.2
  if da = db then
    (if (16 ≤ a.1) == (16 ≤ b.1) then decide (a.1 < b.1) else decide (16 ≤ a.1))
  else decide (da < db)

/-- The queue that a hoist issues from (R217). -/
def chooseQueue (s : State) (seam : Fin 16) (h : Fin 8) : Option (Nat × Segment) :=
  let cands := (List.range 18).filterMap fun n =>
    (issuable s ⟨seam, h, Fin.ofNat 18 n⟩).map fun g => (n, g)
  cands.foldl (fun best c =>
    match best with
    | none => some c
    | some b => if queueBefore s c b then some c else some b) none

/-! ## Cancellation -/

/-- `n` segments counted as discarded on a queue's hoist (R219, R222). -/
def countDiscard (s : State) (q : QueueId) (n : Nat) : State :=
  if n = 0 then s
  else
    let b := hoistRegBase q.seam q.hoist
    raise (count s b Ctr.HOIST_DISCARD_CNT n) b Flag.hoist_DISCARD

/-- A queue's work cancelled (R219): queued and unissued segments discarded, issued reads discarded on completion, issued
writes left to complete. -/
def cancelQueue (s : State) (q : QueueId) : State :=
  let x := getQueue s q
  let writes := x.issued.filter (·.write)
  let n := x.ready.length + (x.issued.length - writes.length)
  countDiscard (setQueue s q { x with ready := [], issued := writes, halted := false }) q n

end Sys2Proof.Machine
end

