-- ==== Sys2Proof/Machine/Chute.lean ====
section
/-! DEFINITION. Chute endpoints (R226 to R234): banks, packets, answers and timers, as functions of one endpoint, and the
counters and flags of R243. -/

namespace Sys2Proof.Machine

/-! ## Banks -/

/-- The packet's length in words and its flags (R228). -/
def packetLen (p : Packet) : Nat := bitField p.header.toNat 5 0 + 1
def packetPush (p : Packet) : Bool := bitAt p.header.toNat 6
def packetResend (p : Packet) : Bool := bitAt p.header.toNat 7

/-- An endpoint as the load of a chute leaves it: one bank FILLING, the other EMPTY, the producer with two grants, one of
them for the bank it fills (R229). -/
def freshEndpoint (tail producer : Nat) : Endpoint :=
  { active := true, tail := tail, producer := producer, bank0 := { state := .filling }, heldGrants := 1, room := 128 }

/-- A bank of an endpoint by number. -/
def bankOf (e : Endpoint) (one : Bool) : Bank :=
  if one then e.bank1 else e.bank0

/-- An endpoint with one bank replaced. -/
def setBank (e : Endpoint) (one : Bool) (b : Bank) : Endpoint :=
  if one then { e with bank1 := b } else { e with bank0 := b }

/-- The number of the bank in a state. -/
def bankIn (e : Endpoint) (st : BankState) : Option Bool :=
  if e.bank0.state = st then some false else if e.bank1.state = st then some true else none

/-- How many banks are EMPTY. -/
def emptyBanks (e : Endpoint) : Nat :=
  (if e.bank0.state = .empty then 1 else 0) + (if e.bank1.state = .empty then 1 else 0)

/-- The swap of R231: a CLOSED bank beside an EMPTY one becomes VISIBLE and the empty one FILLING; the read timer
starts. -/
def swapBanks (e : Endpoint) (now : Time) : Endpoint :=
  match bankIn e .closed with
  | some one =>
    if (bankOf e (!one)).state = .empty then
      let e := setBank e one { bankOf e one with state := .visible }
      let e := setBank e (!one) { state := .filling }
      { e with readTimer := some now }
    else e
  | none => e

/-- The FILLING bank closed (R229), its free words abandoned; the fill timer stops. Answers the words abandoned. -/
def closeBank (e : Endpoint) (now : Time) : Endpoint × Nat :=
  match bankIn e .filling with
  | some one =>
    let b := bankOf e one
    let e := setBank e one { b with state := .closed }
    (swapBanks { e with fillTimer := none } now, 128 - b.words)
  | none => (e, 0)

/-- The producer's count after it sends a packet of `n` words (R229). -/
def producerSend (e : Endpoint) (n : Nat) (push : Bool) : Endpoint :=
  if n ≤ e.room then { e with room := if push then 0 else e.room - n }
  else { e with room := if push then 0 else 128 - n, heldGrants := e.heldGrants - 1 }

/-- The producer's count rolled back to what the endpoint has committed (R230): the free words of the FILLING bank and
the EMPTY banks, less the grants still on their way. -/
def producerRollback (e : Endpoint) : Endpoint :=
  let free := match bankIn e .filling with | some one => 128 - (bankOf e one).words | none => 0
  let e := { e with unacked := [], resend := true }
  if e.grantsSent ≤ emptyBanks e then { e with room := free, heldGrants := emptyBanks e - e.grantsSent }
  else { e with room := 0, heldGrants := 0 }

/-- Whether a packet of `n` words lies within the producer's credit (R229): it fits the producer's current bank, or the
producer holds a grant that it has not started. -/
def inCredit (e : Endpoint) (n : Nat) : Bool :=
  decide (n ≤ e.room) || decide (0 < e.heldGrants)

/-- What an arrival counts. -/
structure ArrivalCounts where
  committed : Bool := false
  rewound : Bool := false
  overcredit : Bool := false
  abandoned : Nat := 0
  resendFailed : Bool := false
deriving DecidableEq, Repr

/-- A packet written into the FILLING bank, which has room for it (R230, R231). -/
def writePacket (e : Endpoint) (p : Packet) (now : Time) : Endpoint × Nat :=
  match bankIn e .filling with
  | some one =>
    let b := bankOf e one
    let b' : Bank := { b with words := b.words + packetLen p, packets := b.packets ++ [p] }
    let e := setBank e one b'
    let e := if b.words = 0 then { e with fillTimer := some now } else e
    if b'.words = 128 ∨ packetPush p = true then closeBank e now else (e, 0)
  | none => (e, 0)

/-- The producer's count after a packet that was rewound at a hub receive endpoint: the packet counts for nothing, but
a bank that it closed stays closed (R230, R294). -/
def rewoundCount (before e : Endpoint) (spill : Bool) : Endpoint :=
  if spill then { e with room := 128, heldGrants := before.heldGrants - 1 }
  else { e with room := before.room, heldGrants := before.heldGrants }

/-- The last word of a packet arrives (R230): it commits, or is rewound, or is dropped in the reject state. `hub` is set
for a hub receive endpoint, whose recovery is ILT's. -/
def arrive (e0 : Endpoint) (p : Packet) (hub : Bool) (now : Time) : Endpoint × ArrivalCounts :=
  let n := packetLen p
  let keep := if hub then [] else e0.unacked ++ [p]
  let e := producerSend { e0 with resend := false, unacked := keep } n (packetPush p)
  if e.reject && !packetResend p then (e, {})
  else
    let e := { e with reject := false }
    let good := !p.bad && p.data.length == 64 * n && bitField p.header.toNat 31 24 == 0
    let credit := inCredit e0 n
    -- a packet that exceeds the free words closes the bank first; that close stands (R230)
    let spill := credit && (match bankIn e .filling with
      | some one => decide (128 < (bankOf e one).words + n)
      | none => false)
    let (e, ab) := if spill then closeBank e now else (e, 0)
    if good && credit && (bankIn e .filling).isSome then
      let (e, ab2) := writePacket e p now
      let e := if hub then e else { e with answers := e.answers ++ [.commit] }
      (e, { committed := true, abandoned := ab + ab2 })
    else
      let e := if hub then rewoundCount e0 e spill else { e with reject := true, answers := e.answers ++ [.rewound] }
      (e, { rewound := true, overcredit := !credit, abandoned := ab, resendFailed := packetResend p })

/-- The packets that a read of `len` bytes removes from a bank: whole packets in commit order while the next one fits
(R231). Answers the bytes read and the packets left. -/
def takePackets (ps : List Packet) (len : Nat) : List Packet × List Packet :=
  match ps with
  | [] => ([], [])
  | p :: r =>
    if 64 * packetLen p ≤ len then
      let (a, b) := takePackets r (len - 64 * packetLen p)
      (p :: a, b)
    else ([], p :: r)

/-- A read of the VISIBLE bank (R231): the packets removed; the bank is EMPTY and a grant goes to the producer after its
last packet, and a CLOSED bank then swaps in the same cycle. -/
def readBank (e : Endpoint) (len : Nat) (now : Time) : Endpoint × List Packet :=
  match bankIn e .visible with
  | none => (e, [])
  | some one =>
    let b := bankOf e one
    let (got, left) := takePackets b.packets len
    let n := (got.map packetLen).sum
    if got = [] then (e, [])
    else if left = [] then
      let e := setBank e one {}
      (swapBanks { e with readTimer := none, grantsSent := e.grantsSent + 1 } now, got)
    else
      ({ setBank e one { b with read := b.read + n, packets := left } with readTimer := some now }, got)

/-- Committed words of an endpoint that have not been read. -/
def unreadWords (e : Endpoint) : Nat :=
  (e.bank0.words - e.bank0.read) + (e.bank1.words - e.bank1.read)

/-- An endpoint after a reset (R234): both banks EMPTY, the reject state and the timers cleared, and the producer with two
grants and nothing held. The first bank is the one the producer's first grant fills. -/
def resetEndpoint (e : Endpoint) : Endpoint :=
  if e.active then freshEndpoint e.tail e.producer else e

/-! ## Endpoints in the state -/

/-- Whether an endpoint is the hub's. -/
def isHub : EndpointId → Bool
  | .hub _ => true
  | _ => false

/-- The counters and flags of an arrival (R230, R243). -/
def countArrival (s : State) (ep : EndpointId) (p : Packet) (c : ArrivalCounts) : State :=
  let b := epRegBase ep
  let s := if p.fixed = 0 then s
    else count (raise (count s b Ctr.CH_CE_CNT p.fixed) b Flag.ch_CE) depBase Ctr.DEP_CORRECTED_CNT p.fixed
  let s := if p.bad then raise (count s b Ctr.CH_UE_CNT 1) b Flag.ch_UE else s
  let s := if c.committed then count s b Ctr.CH_PKT_CNT 1 else s
  let s := if c.rewound then raise (count s b Ctr.CH_REWIND_CNT 1) b Flag.ch_REWIND else s
  let s := if c.overcredit then raise (count s b Ctr.CH_OVERCREDIT_CNT 1) b Flag.ch_OVERCREDIT else s
  if c.abandoned = 0 then s else count s b Ctr.CH_ABANDON_CNT c.abandoned

/-- A packet's arrival at an endpoint (R230). -/
def packetArrive (s : State) (ep : EndpointId) (p : Packet) : State × ArrivalCounts :=
  let (e, c) := arrive (getEp s ep) p (isHub ep) s.clk.now
  (countArrival (setEp s ep e) ep p c, c)

/-- A close mark arrives (R229, R232): it closes a FILLING bank that holds a packet, and an empty one ignores it. -/
def closeMarkAt (s : State) (ep : EndpointId) : State :=
  let e := getEp s ep
  let answered := e.tailPending
  let e := { e with tailPending := false }
  let nonempty := match bankIn e .filling with | some one => (bankOf e one).words != 0 | none => false
  if nonempty then
    let (e, ab) := closeBank e s.clk.now
    let s := setEp s ep { e with room := 0 }
    let b := epRegBase ep
    let s := if ab = 0 then s else count s b Ctr.CH_ABANDON_CNT ab
    if answered then raise (count s b Ctr.CH_TAIL_CNT 1) b Flag.ch_TAIL else s
  else setEp s ep e

/-- One endpoint reset, without its tasks (R234). -/
def resetChuteOnly (s : State) (ep : EndpointId) : State :=
  let e := getEp s ep
  let b := epRegBase ep
  let drop := unreadWords e
  let s := setEp s ep (resetEndpoint e)
  let s := if drop = 0 then s else count s b Ctr.CH_RESET_DROP_CNT drop
  raise s b Flag.ch_RESET

end Sys2Proof.Machine
end

