-- ==== Sys2Proof/Machine/PortOps.lean ====
section
/-! DEFINITION. Shared operations of the port and the journal: frames queued for the transmitter (R289, R302), ACK, NAK and
grants (R294, R295), responses and their journal writes (R247, R297, R345, R347). -/

namespace Sys2Proof.Machine

/-! ## Frames -/

/-- A frame queued for the transmitter. -/
def pushTx (s : State) (f : TxFrame) : State :=
  { s with port := { s.port with txQueue := s.port.txQueue ++ [f] } }

/-- ILT packet types (R289). -/
def iltData : Nat := 1
def iltAck : Nat := 2
def iltNak : Nat := 3
def iltTail : Nat := 4
def iltClose : Nat := 6
def iltReset : Nat := 8

/-- A control packet of a session to its peer (R289). -/
def iltControl (s : State) (i type : Nat) (psn arg0 arg1 : Word) : TxFrame :=
  let x := getSession s i
  { cls := .control, dstMac := x.peerMac, dstIp := x.peerIp, dstPort := x.peerPort, pcp := s.pwr.config.pcpCtrl,
    dry := s.clk.now, body := .ilt type i x.token psn 0 0 arg0 arg1 0 [] }

/-- Whether a queued frame is an ACK of a session. -/
def isAckOf (i : Nat) (f : TxFrame) : Bool :=
  match f.body with
  | .ilt t j _ _ _ _ _ _ _ _ => t == iltAck && j == i
  | _ => false

/-- The highest accepted LSN that an ACK carries: LOT and MIRROR only (R289). -/
def ackLsn (x : Session) : Word :=
  if x.kind = .lot ∨ x.kind = .mirror then x.accLsn else 0

/-- An ACK queued for a session; it takes the place of one that has not gone out (R295, log entry 23). -/
def sendAck (s : State) (i : Nat) : State :=
  let x := getSession s i
  let q := s.port.txQueue.filter fun f => !isAckOf i f
  pushTx { s with port := { s.port with txQueue := q } } (iltControl s i iltAck x.expPsn x.grants (ackLsn x))

/-- A NAK queued now, whatever was sent before; it starts the 10 µs of R294. -/
def sendNakNow (s : State) (i reason : Nat) : State :=
  let x := getSession s i
  let s := setSession s i { x with nakAt := some s.clk.now, nakReason := reason }
  count (pushTx s (iltControl s i iltNak x.expPsn x.grants (BitVec.ofNat 32 reason))) portBase Ctr.PORT_NAK_TX_CNT 1

/-- A NAK for a session, unless one is outstanding (R294). -/
def sendNak (s : State) (i reason : Nat) : State :=
  match (getSession s i).nakAt with
  | some _ => s
  | none => sendNakNow s i reason

/-! ## Addresses of modules -/

/-- The module number (R284). -/
def moduleNum (s : State) : Nat :=
  (s.pwr.config.fieldBase + s.pwr.strapsRead) % 65536

/-- The address of the module with a number on a side, in the family used between modules (R284). -/
def moduleIp (s : State) (num side : Nat) : Nat :=
  let low := side * 65536 + num
  if s.pwr.config.family = 1 then s.pwr.config.ipv6Prefix * 2 ^ 32 + low else s.pwr.config.ipv4Base * 2 ^ 17 + low

/-- A packet of a session in which this module is the sender (R285), to the module `peer`. -/
def outFrame (s : State) (o : OutSession) (cls : TxClass) (type : Nat) (psn lsn chdr arg0 : Word) (flags : Nat)
    (payload : List Byte) (dry : Time) : TxFrame :=
  let side := if o.kind = .mirror then 1 - s.pwr.config.side else s.pwr.config.side
  { cls := cls, dstMac := s.pwr.config.nextHopMac, dstIp := moduleIp s o.peer side, dstPort := s.pwr.config.iltPort,
    pcp := if cls = .control then s.pwr.config.pcpCtrl else s.pwr.config.pcpData, dry := dry,
    body := .ilt type o.session o.token psn lsn chdr arg0 0 flags payload }

/-! ## Data that this module sends -/

/-- The dry time of data without a deadline (R327): now plus SLACK. -/
def undatedDry (s : State) : Time :=
  s.clk.now + 10 * s.pwr.config.slack

/-- FLAGS of a DATA packet (R288). -/
def txFlags (d : TxData) : Nat :=
  bitOf d.first + 2 * bitOf d.last

/-- CHDR of a DATA packet of a message (R288): the word count minus 1. -/
def wordsChdr (n : Nat) : Word :=
  BitVec.ofNat 32 (n / 64 - 1)

/-- The DATA packets of a message (R290, R297): runs of at most 4,096 B, the last padded to whole words. -/
def chunkMessage (lsn psn : Word) (index : Nat) (bytes : List Byte) : List TxData :=
  let n := max 1 ((bytes.length + 4095) / 4096)
  (List.range n).map fun i =>
    let part := (bytes.drop (4096 * i)).take 4096
    let pad := part ++ List.replicate (max 64 (roundUp part.length 64) - part.length) 0
    { psn := psn + BitVec.ofNat 32 i, lsn := lsn, index := index, first := i == 0, last := i + 1 == n,
      total := bytes.length, bytes := pad, chdr := wordsChdr pad.length }

/-- A frame of a DATA or CLOSE packet of a session in which this module is the sender. -/
def outData (s : State) (o : OutSession) (dry : Time) (d : TxData) : TxFrame :=
  if d.close then outFrame s o .data iltClose d.psn 0 0 0 0 [] dry
  else outFrame s o .data iltData d.psn d.lsn d.chdr (if d.first then BitVec.ofNat 32 d.total else 0) (txFlags d) d.bytes dry

/-- Whether the sender's credit covers a packet (R229): it fits the current bank, or a grant not started is held. A CLOSE
costs none (R232). -/
def outCredit (o : OutSession) (d : TxData) : Bool :=
  d.close || decide (d.bytes.length / 64 ≤ o.room) || o.started != o.grants

/-- The sender's count after a packet (R229): LOT_LAST and PUSH close the bank, and so does a CLOSE. -/
def outSend (o : OutSession) (d : TxData) : OutSession :=
  let n := d.bytes.length / 64
  let shut := d.close || (d.last && o.kind == .mirror) || bitAt d.chdr.toNat 6
  let o := if d.close || n ≤ o.room then { o with room := o.room - n }
    else { o with room := 128 - n, started := o.started + 1 }
  { o with room := if shut then 0 else o.room, unacked := o.unacked ++ [{ d with sends := 1 }] }

/-- The packets of a session sent that wait and that its credit covers, in order. -/
def pumpList (s : State) (dry : Time) : List TxData → OutSession → OutSession × List TxFrame
  | [], o => ({ o with waiting := [] }, [])
  | d :: rest, o =>
    if outCredit o d then
      let r := pumpList s dry rest (outSend o d)
      (r.1, outData s o dry d :: r.2)
    else ({ o with waiting := d :: rest }, [])

/-- A sending session pumped. -/
def pumpOut (s : State) (k : Nat) : State :=
  match s.port.outs[k]? with
  | some o =>
    if o.stage = .open_ ∧ o.resetSent = 0 then
      let r := pumpList s (undatedDry s) o.waiting o
      { s with port := { s.port with outs := s.port.outs.set k r.1, txQueue := s.port.txQueue ++ r.2 } }
    else s
  | none => s

/-- Packets put behind those that wait in a sending session. -/
def sendOut (s : State) (k : Nat) (ds : List TxData) : State :=
  match s.port.outs[k]? with
  | some o =>
    let o := { o with waiting := o.waiting ++ ds, txPsn := o.txPsn + BitVec.ofNat 32 ds.length }
    pumpOut { s with port := { s.port with outs := s.port.outs.set k o } } k
  | none => s

/-- A mirror record sent as a lot of the MIRROR session (R354). -/
def sendMirror (s : State) (r : MirrorRecord) : State :=
  match s.port.outs.findIdx? fun o => o.kind == .mirror && o.stage == .open_ with
  | some k => sendOut s k (chunkMessage r.lsn ((s.port.outs[k]?.map (·.txPsn)).getD 0) 0 r.bytes)
  | none => s

/-! ## The journal's space -/

/-- Granules of the lot ring (R343). -/
def lotRingSize (s : State) : Nat :=
  if s.pwr.config.twin then 20480 else 40960

/-- Granules of the response log (R343). -/
def respLogSize (s : State) : Nat :=
  if s.pwr.config.twin then 4096 else 8192

/-- Granules of the table log (R343). -/
def tableLogSize (s : State) : Nat :=
  if s.pwr.config.twin then 8192 else 16384

/-- Whole granules of a number of bytes (R344). -/
def granulesOf (n : Nat) : Nat :=
  (n + 4095) / 4096

/-- Space of the lot ring not yet reclaimed (R347). -/
def lotUsed (s : State) : Nat :=
  (s.jnl.lotRing.map (·.granules)).sum

/-- Space of the response log not yet reclaimed (R347). -/
def respUsed (s : State) : Nat :=
  (s.jnl.respLog.map fun r => granulesOf r.bytes.length).sum

/-- The lot ring after reclaiming in ring order (R347). -/
def reclaimLots (l : List LotRecord) : List LotRecord :=
  l.dropWhile (·.retired)

/-- The response log after reclaiming in ring order (R347). -/
def reclaimResps (l : List Response) : List Response :=
  l.dropWhile (·.left)

/-- Whether grants to LOT sessions are withheld: out of service (R350), one journal copy in a single field (R346), no room
for a record of the largest size in the lot ring or for any response in the log (R347), or a lost mirror (R355). -/
def grantsHeld (s : State) : Bool :=
  s.dep.out || (!s.pwr.config.twin && !(s.jnl.copy0 && s.jnl.copy8)) ||
  decide (lotRingSize s < lotUsed s + 257) || decide (respLogSize s ≤ respUsed s) ||
  s.jnl.mirror == .lost

/-! ## Grants -/

/-- The grants that a session's endpoint is owed, issued unless they are withheld (R229, R295, R346, R347), for a LOT session
also before step 11 of the start (R378). A grant of a CHUTE or MIRROR session is withheld only out of service. -/
def issueGrants (s : State) (i : Nat) : State :=
  let x := getSession s i
  let e := getEp s (.hub (Fin.ofNat 2048 i))
  let hold := if x.kind = .lot then grantsHeld s || !s.port.inService else s.dep.out
  if hold || e.grantsSent == 0 then s
  else
    let s := setSession s i { x with grants := x.grants + BitVec.ofNat 32 e.grantsSent }
    let s := setEp s (.hub (Fin.ofNat 2048 i))
      { e with heldGrants := e.heldGrants + e.grantsSent, grantsSent := 0 }
    sendAck s i

/-- The grants owed to every session issued, after a condition that withheld them has ended. -/
def releaseGrants (s : State) : State :=
  if grantsHeld s then s
  else (s.port.sessions.map (·.1)).foldl issueGrants s

/-! ## Journal writes -/

/-- Whether a write of the journal waits for the twin (R345, R354). -/
def mirrored (s : State) : Bool :=
  s.pwr.config.twin

/-- A journal write started: it is acted on when both copies hold it and, in a twin field, the twin has acknowledged its
mirror record (R345, R354). -/
def startWrite (s : State) (use : WriteUse) (kind : RecordKind) (key : Nat) (bytes : List Byte) : State :=
  let lsn := s.jnl.mirrorLsn + 1
  let w : PendingWrite :=
    { id := s.jnl.nextId, use := use, mirrorLsn := if mirrored s then some lsn else none }
  let j := { s.jnl with pendingWrites := s.jnl.pendingWrites ++ [w], nextId := s.jnl.nextId + 1 }
  let j := if mirrored s then
      { j with mirrorLsn := lsn, unmirrored := j.unmirrored ++ [⟨lsn, kind, key, bytes⟩] } else j
  let s := { s with jnl := j }
  if mirrored s then sendMirror s ⟨lsn, kind, key, bytes⟩ else s

/-- A mirror record that nothing waits for: a retirement or a freed response (R354). -/
def mirrorNote (s : State) (kind : RecordKind) (key : Nat) (bytes : List Byte) : State :=
  if mirrored s then
    let lsn := s.jnl.mirrorLsn + 1
    let r : MirrorRecord := ⟨lsn, kind, key, bytes⟩
    sendMirror { s with jnl := { s.jnl with mirrorLsn := lsn, unmirrored := s.jnl.unmirrored ++ [r] } } r
  else s

/-! ## Responses -/

/-- The bytes of a response (R247). -/
def responseBytes (ctx : CmdCtx) (opcode status : Nat) (result : List Byte) : List Byte :=
  leBytes 2 opcode ++ leBytes 2 status ++ leBytes 4 ctx.tag.toNat ++ leBytes 4 ctx.lsn.toNat ++
  leBytes 2 ctx.index ++ leBytes 2 0 ++ leBytes 4 result.length ++ leBytes 4 0 ++ result

/-- DATA packets of a message of `n` bytes: at most 4,096 B each (R288). -/
def packetsOf (n : Nat) : Nat :=
  max 1 ((n + 4095) / 4096)

/-- The number of a command's session among those closed: 0 while its session is open. -/
def deadNum (index : Nat) : Nat :=
  index / 2 ^ 32

/-- The key of a lot or a response in mirror records: session, LSN and index. -/
def recordKey (session : Nat) (lsn : Word) (index : Nat) : Nat :=
  (session * 2 ^ 32 + lsn.toNat) * 2 ^ 64 + index

/-- A command marked done in its lot's record; the record retires when every command of it has had its response
written (R347). -/
def lotCommandDone (l : List LotRecord) (session : Nat) (lsn : Word) (index : Nat) : List LotRecord :=
  l.map fun r =>
    if r.piece = none ∧ r.session = session ∧ r.lsn = lsn ∧ r.dead = deadNum index ∧
        !r.done.contains (index % 2 ^ 32) then
      { r with done := (index % 2 ^ 32) :: r.done, retired := r.commands ≤ r.done.length + 1 }
    else r

/-- The key of a lot's own record among those of its responses. -/
def lotKey (session : Nat) (lsn : Word) : Nat :=
  recordKey session lsn (2 ^ 63)

/-- Whether two response identities are the same command's. -/
def sameCmd (a : CmdCtx) (session : Nat) (lsn : Word) (index : Nat) : Bool :=
  a.session.val == session && a.lsn == lsn && a.index == index

/-- A response whose journal write is complete: it is in the log, and its command's record knows it (R345, R347); a lot
that so retires is noted to the twin (R354). -/
def responseWritten (s : State) (session : Nat) (lsn : Word) (index : Nat) : State :=
  let log := s.jnl.respLog.map fun r => if sameCmd r.ctx session lsn index then { r with written := true } else r
  let lots := lotCommandDone s.jnl.lotRing session lsn index
  let retires := lots.any fun r => r.retired && r.session == session && r.lsn == lsn && r.dead == deadNum index &&
    r.piece.isNone && !s.jnl.lotRing.contains r
  let s := { s with jnl := { s.jnl with respLog := reclaimResps log, lotRing := reclaimLots lots } }
  releaseGrants (if retires then mirrorNote s .retire (lotKey session lsn) [] else s)

/-- A response put into the log; a command that runs again after a reset keeps the PSNs that the log holds for it
(R297, R353). -/
def logResponse (s : State) (ctx : CmdCtx) (bytes : List Byte) : State × Word :=
  let same (r : Response) : Bool := sameCmd r.ctx ctx.session.val ctx.lsn ctx.index && !r.left
  match s.jnl.respLog.find? same with
  | some r =>
    ({ s with jnl := { s.jnl with respLog := s.jnl.respLog.map fun x => if same x then { x with bytes := bytes } else x } },
     r.psn)
  | none =>
    let i := ctx.session.val
    let x := getSession s i
    let s := setSession s i { x with txPsn := x.txPsn + BitVec.ofNat 32 (packetsOf bytes.length) }
    ({ s with jnl := { s.jnl with respLog := s.jnl.respLog ++ [{ ctx := ctx, bytes := bytes, psn := x.txPsn }] } }, x.txPsn)

/-- A response formed (R247, R297, R345): it takes its PSNs in the log and is written. Of a session closed by SHUT it
leaves the log as it is formed (R347). A command that changes the tables has its response and its table-log entry in
one write, complete with the command (R348); its `entry` is not empty. -/
def respondWith (s : State) (ctx : CmdCtx) (opcode status : Nat) (result entry : List Byte) : State :=
  let i := ctx.session.val
  if deadNum ctx.index ≠ 0 then responseWritten s i ctx.lsn ctx.index
  else
    let bytes := responseBytes ctx opcode status result
    let (s, psn) := logResponse s ctx bytes
    if entry ≠ [] ∧ mirrored s = false then responseWritten s i ctx.lsn ctx.index
    else
      startWrite s (.response i ctx.lsn ctx.index) (if entry = [] then .response else .table)
        (recordKey i ctx.lsn ctx.index) (leBytes 4 entry.length ++ entry ++ leBytes 4 psn.toNat ++ bytes)

/-- The response of a command that changes no table. -/
def respond (s : State) (ctx : CmdCtx) (opcode status : Nat) (result : List Byte) : State :=
  respondWith s ctx opcode status result []

end Sys2Proof.Machine
end

