-- ==== Sys2Proof/Machine/Abort.lean ====
section
/-! DEFINITION. Aborting tasks (R338, R339): the tasks and chutes that an abort reaches (R234), what it discards, and the
re-run lists. -/

namespace Sys2Proof.Machine

/-! ## Fault log and held jobs -/

/-- A fault put into the fault log (R358): class, level, seam, core or channel, unit. -/
def logFault (s : State) (cls level seam core unit : Nat) : State :=
  let s := setRawReg s (depBase + 0x38)
    (BitVec.ofNat 32 (cls + 4 * level + 32 * seam + 512 * core + 16384 * unit))
  let s := setRawReg s (depBase + 0x3C) (BitVec.ofNat 32 s.clk.now)
  let s := setRawReg s (depBase + 0x40) (BitVec.ofNat 32 (s.clk.now / 2 ^ 32))
  if cls = 1 then count s depBase Ctr.DEP_CONTAINED_CNT 1 else s

/-- A job held (R336, R339, R340). -/
def holdJob (s : State) (key cause : Nat) : State :=
  match getJob s key with
  | some j =>
    if j.state = .held then s
    else
      let s := updJob s key fun j => { j with state := .held, holdCause := cause }
      raise (count s depBase Ctr.DEP_HELD_CNT 1) depBase Flag.dep_HELD
  | none => s

/-! ## Tasks and the chutes at their ends -/

/-- The slots that hold a task. -/
def residentSlots (s : State) : List SlotId :=
  s.cores.flatMap fun e => e.2.slots.filterMap fun x =>
    if x.2.state = .empty then none else some ⟨coreOfKey e.1, Fin.ofNat 4 x.1⟩

/-- The graph slot of a resident task. -/
def slotGraph (s : State) (t : SlotId) : Option Nat :=
  (getJob s (getSlot s t).job).map (·.graph)

/-- An edge of a loaded graph. -/
def edgeOf (s : State) (r : Nat × Nat) : Option Edge :=
  (getGraphSlot s r.1).live.bind fun g => g.edges[r.2]?

/-- The endpoints bound to an edge of a graph. -/
def endpointsOf (s : State) (r : Nat × Nat) : List EndpointId :=
  ((getGraphSlot s r.1).chutes.filter fun c => c.1 == r.2).map (·.2)

/-- The chutes of the module: (graph slot, edge) pairs with an endpoint or a first leg here. -/
def allChutes (s : State) : List (Nat × Nat) :=
  (s.dep.graphs.flatMap fun g => g.2.chutes.map fun c => (g.1, c.1)) ++
  (s.port.outs.filter fun o => o.kind == .chute).map fun o => (o.graph, o.edge)

/-- Whether a task lies at an end of a chute (R226, R227). -/
def atEnd (s : State) (r : Nat × Nat) (t : SlotId) : Bool :=
  match edgeOf s r with
  | none => false
  | some e =>
    let x := getSlot s t
    let eps := endpointsOf s r
    let consumes := eps.any fun ep => match ep with | .core c _ => c == t.core | .hub _ => false
    let produces := eps.any (fun ep => match ep with
        | .core _ _ => (getEp s ep).producer == coreKey t.core
        | .hub _ => false) ||
      s.port.outs.any fun o => o.kind == .chute && o.graph == r.1 && o.edge == r.2
    slotGraph s t == some r.1 && ((x.stage == e.consumer && consumes) || (x.stage == e.producer && produces))

/-- One round of the reach of an abort: the chutes at the ends of the tasks, and the tasks at the ends of the chutes
(R234). -/
def growAbort (s : State) (p : List SlotId × List (Nat × Nat)) : List SlotId × List (Nat × Nat) :=
  let chutes := (allChutes s).filter fun r => p.2.contains r || p.1.any (atEnd s r)
  let tasks := (residentSlots s).filter fun t => p.1.contains t || chutes.any fun r => atEnd s r t
  (tasks.eraseDups, chutes.eraseDups)

/-- The tasks and chutes that an abort of tasks and a reset of chutes reach. -/
def abortReach (s : State) (tasks : List SlotId) (chutes : List (Nat × Nat)) : List SlotId × List (Nat × Nat) :=
  Nat.repeat (growAbort s) ((residentSlots s).length + 1) (tasks, chutes)

/-! ## Resetting chutes -/

/-- A CHUTE session reset at this end: RESET goes to the other module (R300). -/
def resetHubSession (s : State) (i : Nat) : State :=
  let x := getSession s i
  if x.kind = .chute then
    let s := setSession s i { x with resetSent := 1, resetSeen := false, rxOpen := false, rxBytes := [], nakAt := none }
    pushTx s (iltControl s i iltReset 0 0 0)
  else s

/-- The first legs of a chute reset at this end (R300). -/
def resetOuts (s : State) (r : Nat × Nat) : State :=
  let hit (o : OutSession) : Bool := o.kind == .chute && o.graph == r.1 && o.edge == r.2 && o.stage == .open_
  let frames := (s.port.outs.filter hit).map fun o => outFrame s o .control iltReset 0 0 0 0 0 [] s.clk.now
  let outs := s.port.outs.map fun o =>
    if hit o then { o with resetSent := 1, resetSeen := false, waiting := [], unacked := [] } else o
  { s with port := { s.port with outs := outs, txQueue := s.port.txQueue ++ frames } }

/-- A chute reset, without its tasks (R234). -/
def resetChute (s : State) (r : Nat × Nat) : State :=
  let s := (endpointsOf s r).foldl (fun s ep =>
    match ep with
    | .core _ _ => resetChuteOnly s ep
    | .hub i => resetHubSession (resetChuteOnly s ep) i.val) s
  resetOuts s r

/-! ## Aborting one task -/

/-- The task of a scatter division that a slot runs, by its place in the division (R195). -/
def divisionTask (s : State) (t : SlotId) : Nat :=
  let x := getSlot s t
  match (getCounter s t.core.seam.val x.counter).tasks[x.index]? with
  | some d => d.part
  | none => x.index

/-- The accumulation buffer of an aborted task is lost; the pieces marked done stay done (R349). -/
def dropScatter (s : State) (t : SlotId) : State :=
  let x := getSlot s t
  let n := divisionTask s t
  { s with scatters := s.scatters.map fun b =>
      if b.job = x.job ∧ b.node = x.stage ∧ b.task = n ∧ !b.committed then
        { b with entries := [], image := [] } else b }

/-- The base that no vat tile has: work that goes there is discarded. -/
def noTile : Nat := 80

/-- The work of an array whose vat tile `drop` names: what has started runs on, and what it gives is discarded (R338);
partials that wait for the tile are gone, and so is a charge without a vector yet. -/
def voidWork (x : ArrayState) (drop : Nat → Bool) : ArrayState :=
  { x with
    out := x.out.filter fun o => !drop o.tile
    flights := x.flights.map fun f => if drop f.tile then { f with tile := noTile } else f
    charge := x.charge.bind fun ch =>
      if !drop ch.tile then some ch else if ch.begun then some { ch with tile := noTile } else none }

/-- The arrays' work for a slot: charges that have started run on, and what they give is discarded (R338). -/
def dropCharges (s : State) (t : SlotId) : State :=
  let tiles := (getCore s t.core).tiles
  (arraysOfCore t.core).foldl (fun s a =>
    setArray s a (voidWork (getArray s a) fun b => tiles.any fun v => v.slot == t.slot && v.base == b)) s

/-- The number of aborts of a task so far. -/
def abortsOf (s : State) (job key index : Nat) : Nat :=
  ((s.dep.abortCounts.find? fun e => e.1 == job && e.2.1 == key && e.2.2.1 == index).map (·.2.2.2)).getD 0

/-- An abort noted against a task of a work counter: the counters, the job's TASK_ABORT, and its place on the re-run list, or
the limit of R339; `unit` and `sub` say in the fault log where it ran. -/
def noteIndexAbort (s : State) (seam counter index job unit sub : Nat) : State :=
  let key := counterKey seam counter
  let n := abortsOf s job key index + 1
  let s := count s depBase Ctr.DEP_ABORT_CNT 1
  let s := updJob s job fun j => { j with counts := tupd j.counts 0 17 (· + 1) }
  let e : Rerun := ⟨seam, counter, index⟩
  let counts := (job, key, index, n) ::
    s.dep.abortCounts.filter fun a => !(a.1 == job && a.2.1 == key && a.2.2.1 == index)
  let running := s.dep.rerunning.filter (· != e)
  if 16 ≤ n then
    let s := { s with dep := { s.dep with abortCounts := counts, rerunning := running } }
    let s := raise s depBase Flag.dep_ABORT_LIMIT
    holdJob (logFault s 2 7 seam unit sub) job 2
  else
    { s with dep := { s.dep with abortCounts := counts, rerunning := running, reruns := s.dep.reruns ++ [e] } }

/-- An abort noted against the task of a slot, which its core counts (R174). -/
def noteAbort (s : State) (t : SlotId) : State :=
  let x := getSlot s t
  let b := coreRegBase t.core
  let s := raise (count s b Ctr.CORE_ABORT_CNT 1) b Flag.core_ABORT
  noteIndexAbort s t.core.seam.val x.counter x.index x.job t.core.core.val t.slot.val

/-- One task aborted, its chutes apart (R338): segments cancelled, tiles, save records and registers discarded, the slot
EMPTY. -/
def dropTask (s : State) (t : SlotId) : State :=
  let s := dropCharges (dropScatter s t) t
  let s := cancelQueue s (slotQueue t)
  let s := noteAbort s t
  let c := getCore s t.core
  let s := setCore s t.core { c with tiles := c.tiles.filter fun v => v.slot != t.slot }
  setSlot s t {}

/-- Tasks aborted and chutes reset, with every task and chute that this reaches (R234, R338). -/
def abortWork (s : State) (tasks : List SlotId) (chutes : List (Nat × Nat)) : State :=
  let r := abortReach s tasks chutes
  let s := r.2.foldl resetChute s
  (r.1.filter fun t => (getSlot s t).state != .empty).foldl dropTask s

/-- One resident task aborted (R338). -/
def abortTask (s : State) (t : SlotId) : State :=
  if (getSlot s t).state = .empty then s else abortWork s [t] []

/-! ## The end of recovery -/

/-- Recovery mode ends when every task that a fault aborted has completed its re-run (R357). -/
def endRecovery (s : State) : State :=
  if s.dep.recovery && s.dep.reruns == [] && s.dep.rerunning == [] then
    { s with dep := { s.dep with recovery := false } }
  else s

end Sys2Proof.Machine
end

