-- ==== Sys2Proof/Machine/Containment.lean ====
section
/-! DEFINITION. Containment: resets of clock domains (R314 to R317), fences (R334 to R336), void granules (R340 to R342),
the journal's copies (R346) and what the deputy does with a report (R333). -/

namespace Sys2Proof.Machine

/-! ## Out of service -/

/-- A fault of class MODULE (R333, R350). -/
def moduleOut (s : State) : State :=
  let s := logFault s 3 6 0 0 0
  { s with dep := { s.dep with out := true } }

/-- Recovery mode begins with a fault, and ends at once where the fault has aborted no task (R357). -/
def enterRecovery (s : State) : State :=
  endRecovery { s with dep := { s.dep with recovery := true } }

/-! ## Units in service -/

/-- Whether a core is unfenced: neither it nor its seam is fenced (R334). -/
def coreUp (s : State) (c : CoreId) : Bool :=
  !s.dep.fences.cores.contains (coreKey c) && !s.dep.fences.seams.contains c.seam.val

/-- Whether an array is fenced (R334). -/
def arrayFenced (s : State) (a : ArrayId) : Bool :=
  s.dep.fences.arrays.contains (arrayKey a)

/-- The arrays of a core that take charges (R167). -/
def liveArrays (s : State) (c : CoreId) : List ArrayId :=
  (arraysOfCore c).filter fun a => !arrayFenced s a && coreUp s c

/-- All cores of the module. -/
def allCores : List CoreId :=
  (List.range 512).map coreOfKey

/-- The unfenced cores of the module. -/
def upCores (s : State) : List CoreId :=
  allCores.filter (coreUp s)

/-- Whether a core endpoint is free to be bound: no chute has it. -/
def endpointFree (s : State) (ep : EndpointId) : Bool :=
  !(getEp s ep).active && !(s.dep.graphs.any fun g => g.2.chutes.any fun c => c.2 == ep)

/-- The core endpoints that are free on unfenced cores. -/
def freeCoreEndpoints (s : State) : List EndpointId :=
  (upCores s).flatMap fun c => ((List.finRange 8).map fun e => EndpointId.core c e).filter (endpointFree s)

/-- An element of a list by the implementation's choice (log entry 3). -/
def chooseOf {α : Type} (s : State) (l : List α) : Option α × State :=
  let d := drawChoice s
  (l[d.1 % l.length]?, d.2)

/-! ## Clock domains -/

/-- The links of a seam whose state a reset of its FCLK clears: its own, and the neighbours' that face it (R243). -/
def neighbour (s : Nat) : LinkDir → Option (Nat × LinkDir)
  | .east => if s % 4 < 3 then some (s + 1, .west) else none
  | .west => if 0 < s % 4 then some (s - 1, .east) else none
  | .south => if s / 4 < 3 then some (s + 4, .north) else none
  | .north => if 0 < s / 4 then some (s - 4, .south) else none
  | .hub => none

/-- The five directions. -/
def linkDirs : List LinkDir := [.east, .west, .south, .north, .hub]

/-- Whether a seam has a link in a direction (R243, R411). -/
def linkPresent (s : Nat) (d : LinkDir) : Bool :=
  match d with
  | .hub => s == 5 || s == 6 || s == 9 || s == 10
  | d => (neighbour s d).isSome

/-- The links that go down with a seam's FCLK. -/
def linksOfSeam (s : Nat) : List Nat :=
  linkDirs.flatMap fun d =>
    (5 * s + linkNum d) :: (match neighbour s d with | some (t, e) => [5 * t + linkNum e] | none => [])

/-- The tasks with state in a domain (R315). -/
def domainTasks (s : State) : DomainId → List SlotId
  | .seam m .mclk => (residentSlots s).filter fun t =>
      (getQueue s (slotQueue t)).issued.any fun g => g.runs.any fun r =>
        (r.run.fill.isNone && dramSeam r.run.src == some m.val) || (g.sink == .memory && dramSeam r.run.dst == some m.val)
  | .seam m _ => (residentSlots s).filter fun t => t.core.seam == m
  | _ => []

/-- Whether an endpoint crosses the boundary of a domain (R315). -/
def crosses (s : State) (d : DomainId) (ep : EndpointId) : Bool :=
  match d, ep with
  | .seam m .fclk, .core c _ => c.seam == m || (getEp s ep).producer / 32 == m.val
  | .pclk, .hub _ => true
  | .hubFclk, .hub _ => true
  | .pclk, .core _ _ => (getEp s ep).producer == 0x3FF
  | .hubFclk, .core _ _ => (getEp s ep).producer == 0x3FF
  | _, _ => false

/-- The chutes that cross the boundary of a domain. -/
def domainChutes (s : State) (d : DomainId) : List (Nat × Nat) :=
  (allChutes s).filter fun r => (endpointsOf s r).any (crosses s d) ||
    (match d with
     | .pclk | .hubFclk => s.port.outs.any fun o => o.graph == r.1 && o.edge == r.2
     | _ => false)

/-- The registers of a domain put to their reset values (log entry 24). -/
def clearDomainRegs (s : State) (d : DomainId) : State :=
  { s with regs := s.regs.filter fun e =>
      match locate e.1 with
      | some l => l.dom != some d
      | none => true }

/-- What an array keeps through a reset of its domain: the repair map (R131) and its fence causes. -/
def keepRepair (x : ArrayState) : ArrayState :=
  { latency := x.latency, badRow := x.badRow, spareBad := x.spareBad, testResult := x.testResult,
    badCol := x.badCol, fenceTally := x.fenceTally, fenceTest := x.fenceTest }

/-- A work counter after its sequencer restarts (R271): NEXT is the lowest index whose bit is clear. -/
def restartCounter (c : WorkCounter) : WorkCounter :=
  if c.active then
    { c with next := ((List.range c.limit).find? fun i => !c.bits.contains i).getD c.limit, given := [] }
  else c

/-- The seam sequencer restarts (R271). -/
def restartSequencer (s : State) (m : Nat) : State :=
  let keys := (s.counters.filter fun e => e.1 / 64 == m && e.2.active).map (·.1)
  keys.foldl (fun s k =>
    let s := setCounter s m (k % 64) (restartCounter (getCounter s m (k % 64)))
    raise s (wcRegBase m (k % 64)) Flag.wc_RESTART) s

/-- The receive side of a LOT or MIRROR session after its endpoint is lost (R301, R318): the packets of lots not yet
accepted are forgotten and its banks are empty. -/
def dropReceive (s : State) (i : Nat) : State :=
  let x := getSession s i
  if x.kind = .lot ∨ x.kind = .mirror then
    let s := setSession s i { x with
      expPsn := x.accPsn, rxOpen := false, rxBytes := [], rxLen := 0, rxLsn := 0, rxBad := false, lots := [],
      nakAt := none, nakReason := 0 }
    setEp s (.hub (Fin.ofNat 2048 i)) (freshEndpoint 1000 0x3FF)
  else s

/-- Every LOT and MIRROR session without its receive side. -/
def dropAllReceive (s : State) : State :=
  (s.port.sessions.map (·.1)).foldl dropReceive s

/-- The state that lies in a domain lost (R315). -/
def clearDomain (s : State) (d : DomainId) : State :=
  let s := clearDomainRegs s d
  match d with
  | .seam m .aclk =>
    { s with arrays := s.arrays.filterMap fun e =>
        if e.1 / 128 = m.val then
          (if keepRepair e.2 = {} then none else some (e.1, keepRepair e.2))
        else some e }
  | .seam m .kclk =>
    { s with
      cores := s.cores.filter fun e => e.1 / 32 != m.val
      adits := s.adits.filter fun e => e.1 / 4 != m.val }
  | .seam m .fclk =>
    let s := { s with
      hoists := s.hoists.filter fun e => e.1 / 144 != m.val
      hops := s.hops.filter fun e => e.1 / 32 != m.val
      links := (linksOfSeam m.val).foldl (fun l k => tset l {} k {}) s.links }
    restartSequencer s m.val
  | .seam m .mclk =>
    { s with chans := s.chans.filterMap fun e =>
        if e.1 / 32 = m.val then
          (if e.2.spares = 0 then none else some (e.1, { spares := e.2.spares }))
        else some e }
  | .pclk | .hubFclk => dropAllReceive s

/-- Base of the clock registers that count a domain's resets (R315, R331), and whether it is a seam's. -/
def domainRegs : DomainId → Nat × Bool
  | .seam m _ => (seamClkBase m.val, true)
  | _ => (hubClkBase, false)

/-- The counts and the flag of a domain reset, with the entries that its crossings flushed (R314, R315). -/
def countReset (s : State) (d : DomainId) (dropped : Nat) : State :=
  let r := domainRegs d
  let s := count s r.1 (if r.2 then Ctr.seamClk_XING_RESET_CNT else Ctr.hubClk_XING_RESET_CNT) 1
  let s := count s r.1 (if r.2 then Ctr.seamClk_XING_DROP_CNT else Ctr.hubClk_XING_DROP_CNT) dropped
  raise s r.1 (if r.2 then Flag.seamClk_FLUSH else Flag.hubClk_FLUSH)

/-- What waits in the port at a reset of a hub domain, and the link, which comes up again afterwards (R312, R318). -/
def flushPort (s : State) : DomainId → State
  | .seam _ _ => s
  | _ =>
    let p := { s.port with linkUp := false, mode := 0, paused := [], txQueue := [], lastTx := none }
    { s with port := p }

/-- A domain goes into reset (R314, R315): its work is lost, the tasks and chutes that had state in it go with it. -/
def domainReset (s : State) (d : DomainId) (dropped : Nat) : State :=
  let s := flushPort (setDom s d { getDom s d with inReset := true, live := false }) d
  let s := abortWork s (domainTasks s d) (domainChutes s d)
  countReset (clearDomain s d) d dropped

/-- A domain stopped (R317): live bit, reset, then the clock and its PLL. -/
def domainHalt (s : State) (d : DomainId) (dropped : Nat) : State :=
  let s := domainReset s d dropped
  setDom s d { running := false, locked := false, inReset := true, live := false }

/-- A domain stopped where its clock runs. -/
def haltIf (s : State) (d : DomainId) (dropped : Nat) : State :=
  if (getDom s d).running then domainHalt s d dropped else s

/-- Whether a domain is live (R316). -/
def isLiveDom (s : State) (d : DomainId) : Bool :=
  (getDom s d).live

/-! ## The journal's copies -/

/-- A journal copy lost (R346). -/
def loseCopy (s : State) (second : Bool) : State :=
  if (if second then s.jnl.copy8 else s.jnl.copy0) then
    let j := if second then { s.jnl with copy8 := false } else { s.jnl with copy0 := false }
    let s := raise { s with jnl := j } depBase Flag.dep_JNL_SINGLE
    if j.copy0 || j.copy8 then s else moduleOut s
  else s

/-! ## Void granules -/

/-- Whether a granule is free to back a rehomed one: host-allocatable DRAM of a live channel, in no allocation, backing
nothing else, not void (R341). -/
def granuleFree (s : State) (g : Nat) : Bool :=
  let seam := g * 4096 / Config.seamWindow
  let off := g * 4096 % Config.seamWindow
  decide (seam < 16) && decide (off + 4096 ≤ Config.hostBytes seam) &&
  !s.dep.fences.drams.contains seam && !s.dep.fences.chans.contains (32 * seam + chanOf off) &&
  (allocationOf s (g * 4096)).isNone && !(s.dep.voids.any fun v => v.home == some g || (v.gran == g && v.void))

/-- The lowest free granule of a seam (R341, log entry 25): the start of the seam, or just behind an allocation, a
granule in use or a void one, or behind a run of fenced channels. -/
def freeGranule (s : State) (seam : Nat) : Option Nat :=
  let base := seamDram seam / 4096
  let starts := base :: ((s.dep.allocs.map fun a => (a.base + a.size) / 4096) ++
    s.dep.voids.flatMap fun v => (v.gran + 1) :: (match v.home with | some h => [h + 1] | none => []))
  let cands := (starts.flatMap fun g => (List.range 32).map (g + ·)).filter fun g =>
    g / (Config.seamWindow / 4096) == seam && granuleFree s g
  cands.foldl (fun best g => match best with | none => some g | some b => some (min b g)) none

/-- The new home of a void granule: the first free granule of another seam, in ascending order (R341). -/
def findHome (s : State) (g : Nat) : Option Nat :=
  ((List.range 16).filter fun m => m != g * 4096 / Config.seamWindow).findSome? (freeGranule s)

/-- A free place of the loss report: an unused entry, or one that is resupplied (R342). -/
def freeLoss (s : State) : Option Nat :=
  let used := (s.dep.losses.filter fun e => e.2.valid && !e.2.resupplied).map (·.1)
  lowestFree used 4096

/-- A loss written into the report (R342): it lengthens the entry that ends where it begins, of the same allocation and
kind, or takes a new one; a full report sets LOSS_OVERFLOW. -/
def reportLoss (s : State) (g : Nat) (homed : Bool) : State :=
  let a := allocationOf s (g * 4096)
  let fits (e : Nat × LossEntry) : Bool :=
    e.2.valid && !e.2.resupplied && e.2.addr + e.2.count * 4096 == g * 4096 && e.2.rehomed == homed &&
    allocationOf s e.2.addr == a
  match s.dep.losses.find? fits with
  | some e =>
    { s with dep := { s.dep with losses := tset s.dep.losses {} e.1 { e.2 with count := e.2.count + 1 } } }
  | none =>
    match freeLoss s with
    | some i =>
      let e : LossEntry := { addr := g * 4096, count := 1, valid := true, rehomed := homed, unhomed := !homed }
      { s with dep := { s.dep with losses := tset s.dep.losses {} i e } }
    | none => raise s depBase Flag.dep_LOSS_OVERFLOW

/-- Whether the DRAM that a granule number names is fenced. -/
def granFenced (s : State) (p : Nat) : Bool :=
  let seam := p * 4096 / Config.seamWindow
  s.dep.fences.drams.contains seam || s.dep.fences.chans.contains (32 * seam + chanOf (p * 4096 % Config.seamWindow))

/-- The granule of DRAM that backs a granule of the address space (R341). -/
def backGran (s : State) (g : Nat) : Nat :=
  backing s (g * 4096) / 4096

/-- Whether a granule is void already, and its backing is not lost. -/
def staysVoid (s : State) (g : Nat) : Bool :=
  isVoid s g && !(s.dep.voids.any fun v => v.gran == g && (match v.home with | some h => granFenced s h | none => false))

/-- One granule of a host allocation void and rehomed (R340, R341); its old home is not taken again. -/
def voidOne (s : State) (g : Nat) : State :=
  if staysVoid s g then s
  else
    let rest := s.dep.voids.filter fun v => v.gran != g
    let home := findHome { s with dep := { s.dep with voids := { gran := g, void := true, home := none } :: s.dep.voids } } g
    let first := !isVoid s g
    let s := { s with dep := { s.dep with voids := { gran := g, void := true, home := home } :: rest } }
    raise (if first then reportLoss s g home.isSome else s) depBase Flag.dep_VOID

/-- The descriptor slots of the operands that a node reads (R251, R262): every operand but the output, and a SCATTER_ADD's
destination. -/
def nodeReads (g : Image) (n : Node) : List Nat :=
  let poolSlot (i : Nat) : List Nat := match g.pool[i]? with | some h => [handleSlot h.toNat] | none => []
  (List.range 8).flatMap fun k =>
    let w := (n.operand.getD k 0xFFFFFFFF).toNat
    if w = 0xFFFFFFFF ∨ (k = 2 ∧ n.op ≠ 0x23) then []
    else if w < 2 ^ 31 then poolSlot w
    else
      match g.lists[w - 2 ^ 31]? with
      | some l => if l.kind = 0 then l.entries.flatMap poolSlot
          else l.entries.flatMap poolSlot ++ (List.range g.pool.length).flatMap poolSlot
      | none => []

/-- Whether a descriptor's bytes on this module touch a granule. -/
def descTouches (s : State) (grid : List Nat) (slot g : Nat) : Bool :=
  match descAt s slot with
  | some d =>
    let r := descRange d (localExtents d grid (moduleNum s))
    decide (r.1 < (g * 4096 + 4096 : Nat)) && decide ((g * 4096 : Nat) ≤ r.2)
  | none => false

/-- The nodes of a running job that still read a granule: node numbers. -/
def readers (s : State) (j : Job) (g : Nat) : List Nat :=
  match (getGraphSlot s j.graph).live with
  | some im => (List.range im.nodes.length).filter fun i =>
      let r := tget j.nodes {} i
      !(r.started && r.doneTasks == r.total) &&
      (nodeReads im (im.nodes.getD i {})).any fun d => descTouches s im.grid d g
  | none => []

/-- The jobs that need a void granule held, their tasks that read it aborted (R340). -/
def holdReaders (s : State) (g : Nat) : State :=
  let hit := (s.dep.jobs.filter fun j => j.state == .running).filterMap fun j =>
    match readers s j g with | [] => none | l => some (j.key, l)
  let s := hit.foldl (fun s h => holdJob s h.1 1) s
  let tasks := (residentSlots s).filter fun t =>
    let x := getSlot s t
    hit.any fun h => h.1 == x.job && h.2.contains x.stage
  if tasks = [] then s else abortWork s tasks []

/-- Granules of host allocations void (R340 to R342). -/
def voidGranules (s : State) (gs : List Nat) : State :=
  gs.foldl (fun s g =>
    if (allocationOf s (g * 4096)).isSome && !staysVoid s g then enterRecovery (holdReaders (voidOne s g) g) else s) s

/-- The granules of host allocations with a property. -/
def allocatedGranules (s : State) (p : Nat → Bool) : List Nat :=
  s.dep.allocs.flatMap fun a =>
    ((List.range (a.size / 4096)).map (a.base / 4096 + ·)).filter p

/-- The granules of the allocation that holds `a` whose channel or DRAM is fenced: void as soon as they belong to an
allocation (R340). -/
def voidAtAlloc (s : State) (base size : Nat) : State :=
  if s.dep.fences.drams = [] ∧ s.dep.fences.chans = [] then s
  else voidGranules s (((List.range (size / 4096)).map (base / 4096 + ·)).filter (granFenced s))

/-- A single granule lost to an uncorrectable word (R340): a host granule is void, the journal loses the copy that holds it
(R346), and a granule of the deputy area takes the module out of service (R341, R350). -/
def loseGranule (s : State) (seam off : Nat) : State :=
  if off < Config.hostBytes seam then voidGranules s [granuleHeld s ((seamDram seam + off) / 4096)]
  else if off < 0x5FC000000 then loseCopy s (seam == 8)
  else moduleOut s

/-! ## Re-placing -/

/-- A counter's tasks whose bits are clear, dealt to a counter of another seam (R271): the source, the target seam and
counter. -/
def moveTasks (s : State) (m k t n : Nat) : State :=
  let a := getCounter s m k
  let b := getCounter s t n
  let idx := (List.range a.limit).filter fun i => !a.bits.contains i
  let b' : WorkCounter := { b with
    active := true, node := a.node, job := a.job, group := max b.group 1, limit := b.limit + idx.length,
    tasks := b.tasks ++ idx.filterMap fun i => a.tasks[i]? }
  let new (i : Nat) : Option Nat := (idx.findIdx? (· == i)).map (b.limit + ·)
  let s := setCounter (setCounter s m k { a with active := false, given := [] }) t n b'
  let moved (e : Rerun) : Bool := e.seam == m && e.counter == k
  let again := ((s.dep.reruns ++ s.dep.rerunning).filter moved).filterMap fun e =>
    (new e.index).map fun i => (⟨t, n, i⟩ : Rerun)
  { s with dep := { s.dep with
      reruns := s.dep.reruns.filter fun e => !moved e
      rerunning := s.dep.rerunning.filter (fun e => !moved e) ++ again
      abortCounts := s.dep.abortCounts.map fun e =>
        if e.2.1 = counterKey m k then
          (match new e.2.2.1 with | some i => (e.1, counterKey t n, i, e.2.2.2) | none => e)
        else e } }

/-- The counters of unfenced seams that can take a node's tasks: one that is bound to the node already, or a free one. -/
def takers (s : State) (job node : Nat) : List (Nat × Nat) :=
  let up := (List.range 16).filter fun m => !s.dep.fences.seams.contains m
  let same := up.flatMap fun m => ((List.range 64).filter fun k =>
    let c := getCounter s m k
    c.active && c.job == job && c.node == node).map fun k => (m, k)
  if same ≠ [] then same
  else up.filterMap fun m => ((List.range 64).find? fun k => !(getCounter s m k).active).map fun k => (m, k)

/-- The tasks of a fenced seam dealt to other seams (R271, R336); a node that no seam can take has its job held. -/
def dealSeam (s : State) (m : Nat) : State :=
  let keys := (s.counters.filter fun e => e.1 / 64 == m && e.2.active).map fun e => e.1 % 64
  keys.foldl (fun s k =>
    let c := getCounter s m k
    match chooseOf s (takers s c.job c.node) with
    | (some t, s) => moveTasks s m k t.1 t.2
    | (none, s) => holdJob s c.job 3) s

/-- A chute bound to an endpoint of a fenced core bound to another core's endpoint (R336); none is free when the result
is false. -/
def rebindChute (s : State) (g : Nat) (c : Nat × EndpointId) : State × Bool :=
  match c.2 with
  | .core id _ =>
    if coreUp s id then (s, true)
    else
      let old := getEp s c.2
      match chooseOf s (freeCoreEndpoints s) with
      | (some ep, s) =>
        let x := getGraphSlot s g
        let s := setGraphSlot s g { x with chutes := x.chutes.map fun d => if d = c then (c.1, ep) else d }
        (setEp (setEp s c.2 {}) ep (freshEndpoint old.tail old.producer), true)
      | (none, s) => (s, false)
  | .hub _ => (s, true)

/-- A chute whose producer's core is fenced given a producer on an unfenced core (R336). -/
def moveProducer (s : State) (ep : EndpointId) : State :=
  let e := getEp s ep
  if e.active && e.producer < 512 && !coreUp s (coreOfKey e.producer) then
    match chooseOf s (upCores s) with
    | (some c, s) => setEp s ep { e with producer := coreKey c }
    | (none, s) => s
  else s

/-- The running jobs of a graph held. -/
def holdGraph (s : State) (g cause : Nat) : State :=
  ((s.dep.jobs.filter fun j => j.graph == g && j.state != .held).map (·.key)).foldl (fun s k => holdJob s k cause) s

/-- The nodes that had work in a fenced unit re-placed over what remains (R336). -/
def replaceNodes (s : State) : State :=
  let s := (s.dep.graphs.flatMap fun g => g.2.chutes.map fun c => (g.1, c)).foldl (fun s p =>
    match rebindChute s p.1 p.2 with
    | (s, true) => s
    | (s, false) => holdGraph s p.1 3) s
  let s := (s.dep.graphs.flatMap fun g => g.2.chutes.map (·.2)).foldl moveProducer s
  if (upCores s).isEmpty then
    (s.dep.jobs.map (·.key)).foldl (fun s k => holdJob s k 3) s
  else s

/-! ## Fences -/

/-- The end of a fence: logged, flagged, in recovery (R335, R357). -/
def fenceDone (s : State) (cls level seam core unit : Nat) : State :=
  enterRecovery (raise (logFault s cls level seam core unit) depBase Flag.dep_FENCE)

/-- The first weight tile of a vat tile's reduction range that runs; the end of the range where none does. -/
def firstTile (t : VatTile) : Nat :=
  t.tiles.headD t.stop

/-- A vat tile returned to its initial value (R97, R122): its entries are void until it is cleared or loaded again, and its
reduction starts over. -/
def resetTile (t : VatTile) : VatTile :=
  { t with isOpen := true, lost := false, expSet := false, eRef := 0, eTop := 0, forced := false, entries := [],
           nextTile := firstTile t, nextPart := 0, nextSub := 0, added := 0, array := none, ready := false, checked := true,
           counts := [] }

/-- Whether a command is a charge into a vat tile. -/
def chargesInto (t : VatTile) (c : TaskCmd) : Bool :=
  match c.work with
  | .charge rt ct _ assay => rt == t.rowTile && ct == t.colTile && assay == t.assay
  | _ => false

/-- The charges of a part in its task's stream, to be issued and run again (R122). -/
def reissuePart (s : State) (c : CoreId) (t : VatTile) : State :=
  let id : SlotId := ⟨c, t.slot⟩
  let x := getSlot s id
  if x.state = .empty then s
  else
    let again (k : SlotCmd) : SlotCmd := if chargesInto t k.cmd then { k with issued := false, done := false } else k
    setSlot s id { x with cmds := x.cmds.map again }

/-- The open tiles bound to an array returned to their initial values, their parts to be run again (R125). -/
def resetTilesOf (s : State) (a : ArrayId) : State :=
  let c := getCore s a.core
  let mine (t : VatTile) : Bool := t.isOpen && t.array == some a.array
  let s := setCore s a.core { c with tiles := c.tiles.map fun t => if mine t then resetTile t else t }
  (c.tiles.filter mine).foldl (fun s t => reissuePart s a.core t) s

/-- The slots that have an open tile bound to an array. -/
def slotsOnArray (s : State) (a : ArrayId) : List SlotId :=
  let c := getCore s a.core
  (slotsOfCore a.core).filter fun t => c.tiles.any fun v => v.isOpen && v.array == some a.array && v.slot == t.slot

/-- An array fenced (R125, R127, R167, R335): it takes no new vector; open tiles bound to it return to their initial value
and their parts run again on the core's other arrays, or, where none is left, their tasks are aborted. -/
def fenceArray (s : State) (a : ArrayId) (test : Bool) : State :=
  if arrayFenced s a then s
  else
    let slots := slotsOnArray s a
    let x := getArray s a
    let x := if test then { x with fenceTest := true } else { x with fenceTally := true }
    let s := setArray s a { voidWork x (fun _ => true) with charge := none }
    let s := { s with dep := { s.dep with fences := { s.dep.fences with arrays := arrayKey a :: s.dep.fences.arrays } } }
    let s := resetTilesOf s a
    let s := if (liveArrays s a.core).isEmpty then abortWork s slots [] else s
    let s := raise s (coreRegBase a.core) Flag.core_ARRAY_LOST
    fenceDone s 1 0 a.core.seam.val a.core.core.val a.array.val

/-- The column groups that a counter has given to an adit unit and that the unit has not finished. -/
def openGroups (s : State) (u : AditId) (k : Nat) (c : WorkCounter) : List Nat :=
  (c.given.filter fun e => e.2 == 32 + u.unit.val && !c.bits.contains e.1 &&
    !(getAdit s u).finished.any fun d => d.counter == k && d.index == e.1).map (·.1)

/-- The column groups of a fenced adit unit put on the re-run list, for the other units of the seam (R139). -/
def returnGroups (s : State) (u : AditId) : State :=
  let m := u.seam.val
  (List.range 64).foldl (fun s k =>
    let c := getCounter s m k
    let l := openGroups s u k c
    if l = [] then s
    else
      let s := setCounter s m k { c with given := c.given.filter fun e => !l.contains e.1 }
      let new := l.map fun i => (⟨m, k, i⟩ : Rerun)
      let old := s.dep.rerunning.filter fun e => !new.contains e
      { s with dep := { s.dep with reruns := s.dep.reruns ++ new, rerunning := old } }) s

/-- An adit unit fenced (R139): the other units of its seam take its groups. -/
def fenceAdit (s : State) (u : AditId) : State :=
  if s.dep.fences.adits.contains (aditKey u) then s
  else
    let s := { s with dep := { s.dep with fences := { s.dep.fences with adits := aditKey u :: s.dep.fences.adits } } }
    let s := returnGroups s u
    fenceDone (setAdit s u { getAdit s u with op := none }) 1 1 u.seam.val 0 u.unit.val

/-- The chutes with a core endpoint on one of the cores, or a producer there. -/
def chutesOn (s : State) (p : CoreId → Bool) : List (Nat × Nat) :=
  (allChutes s).filter fun r => (endpointsOf s r).any fun ep =>
    match ep with
    | .core c _ => p c || ((getEp s ep).producer < 512 && p (coreOfKey (getEp s ep).producer))
    | .hub _ => false

/-- A seam fenced (R334, R316, R271): ACLK and KCLK stop, its tasks are aborted and dealt to other seams. -/
def fenceSeam (s : State) (m : Fin 16) : State :=
  if s.dep.fences.seams.contains m.val then s
  else
    let s := { s with dep := { s.dep with fences := { s.dep.fences with seams := m.val :: s.dep.fences.seams } } }
    let tasks := (residentSlots s).filter fun t => t.core.seam == m
    let s := abortWork s tasks (chutesOn s fun c => c.seam == m)
    let s := haltIf s (.seam m .aclk) 0
    let s := haltIf s (.seam m .kclk) 0
    let s := dealSeam s m.val
    fenceDone (replaceNodes s) 1 5 m.val 0 0

/-- The fenced cores of a seam. -/
def fencedCores (s : State) (m : Nat) : Nat :=
  (s.dep.fences.cores.filter fun k => k / 32 == m).length

/-- A core fenced (R334, R335). -/
def fenceCore (s : State) (c : CoreId) : State :=
  if s.dep.fences.cores.contains (coreKey c) then s
  else
    let s := { s with dep := { s.dep with fences := { s.dep.fences with cores := coreKey c :: s.dep.fences.cores } } }
    let tasks := (residentSlots s).filter fun t => t.core == c
    let s := abortWork s tasks (chutesOn s (· == c))
    let s := fenceDone (replaceNodes s) 1 2 c.seam.val c.core.val 0
    if 16 ≤ fencedCores s c.seam.val then fenceSeam s c.seam else s

/-- Whether a seam holds a journal copy, and that copy is lost with part of its DRAM (R346). -/
def loseSeamCopy (s : State) (m : Nat) : State :=
  if m = 0 then loseCopy s false else if m = 8 then loseCopy s true else s

/-- A seam's DRAM fenced (R334): MCLK stops, every granule is void, and the seam is fenced as well. -/
def fenceDram (s : State) (m : Fin 16) : State :=
  if s.dep.fences.drams.contains m.val then s
  else
    let s := { s with dep := { s.dep with fences := { s.dep.fences with drams := m.val :: s.dep.fences.drams } } }
    let s := haltIf s (.seam m .mclk) 0
    let s := voidGranules s (allocatedGranules s fun g => backGran s g * 4096 / Config.seamWindow == m.val)
    let s := loseSeamCopy s m.val
    fenceSeam (fenceDone s 2 4 m.val 0 0) m

/-- The fenced channels of a seam. -/
def fencedChans (s : State) (m : Nat) : Nat :=
  (s.dep.fences.chans.filter fun k => k / 32 == m).length

/-- A DRAM channel fenced (R334, R340); with four of them the seam's DRAM is fenced. -/
def fenceChan (s : State) (c : ChanId) : State :=
  if s.dep.fences.chans.contains (chanKey c) then s
  else
    let s := { s with dep := { s.dep with fences := { s.dep.fences with chans := chanKey c :: s.dep.fences.chans } } }
    let s := voidGranules s (allocatedGranules s fun g =>
      let p := backGran s g * 4096
      p / Config.seamWindow == c.seam.val && chanOf (p % Config.seamWindow) == c.chan.val)
    let s := loseSeamCopy s c.seam.val
    let s := fenceDone s 2 3 c.seam.val c.chan.val 0
    if 4 ≤ fencedChans s c.seam.val then fenceDram s c.seam else s

/-! ## Events in a window -/

/-- The tally window in ns (R125). -/
def tallyNs (s : State) : Nat :=
  1000000000 * s.pwr.config.tallyWindow

/-- The times of a unit's events with one more now; those outside the tally window are dropped. -/
def addEvent (s : State) (l : List Time) : List Time :=
  s.clk.now :: l.filter fun t => decide (s.clk.now ≤ t + tallyNs s)

/-- A tally mismatch of an array (R122, R125). -/
def arrayMismatch (s : State) (a : ArrayId) : State :=
  let l := addEvent s (tget s.dep.mismatches [] (arrayKey a))
  let s := { s with dep := { s.dep with mismatches := tset s.dep.mismatches [] (arrayKey a) l } }
  if 3 ≤ l.length then fenceArray s a false else s

/-- A residue failure of an adit unit (R139). -/
def aditResidue (s : State) (u : AditId) : State :=
  let l := addEvent s (tget s.dep.residues [] (aditKey u))
  let s := { s with dep := { s.dep with residues := tset s.dep.residues [] (aditKey u) l } }
  if 3 ≤ l.length then fenceAdit s u else s

/-- An uncorrectable scratch word of a core (R158, R334). -/
def scratchUe (s : State) (c : CoreId) : State :=
  let l := addEvent s (tget s.dep.scratchUes [] (coreKey c))
  let s := { s with dep := { s.dep with scratchUes := tset s.dep.scratchUes [] (coreKey c) l } }
  if 3 ≤ l.length then fenceCore s c else s

/-- An uncorrectable DRAM word (R204, R334, R340). -/
def dramUe (s : State) (c : ChanId) (off : Nat) : State :=
  let l := addEvent s (tget s.dep.dramUes [] (chanKey c))
  let s := { s with dep := { s.dep with dramUes := tset s.dep.dramUes [] (chanKey c) l } }
  let s := logFault s 2 3 c.seam.val c.chan.val 0
  let s := loseGranule s c.seam.val off
  if 3 ≤ l.length then fenceChan s c else s

/-! ## Reports -/

/-- What the deputy does with a report (R333, R334). -/
def reportFault (s : State) : FaultReport → State
  | .corrected => count s depBase Ctr.DEP_CORRECTED_CNT 1
  | .arrayMismatch a => arrayMismatch s a
  | .arrayTest a => fenceArray s a true
  | .repeatFail a => fenceCore s a.core
  | .auditFail a => logFault s 1 0 a.core.seam.val a.core.core.val a.array.val
  | .aditResidue u => aditResidue s u
  | .scratchUe c => scratchUe s c
  | .dramUe c off => dramUe s c off
  | .dramController m => fenceDram s m
  | .translation q => fenceSeam s q.seam
  | .seamPll m => fenceSeam s m
  | .sequencer m => fenceSeam (restartSequencer s m.val) m
  | .fabric _ => moduleOut s
  | .hubUe => moduleOut s
  | .hubPll => moduleOut s
  | .thermalTrip => moduleOut s
  | .journalCopy second => loseCopy s second

end Sys2Proof.Machine
end

