-- ==== Sys2Proof/Machine/Channels.lean ====
section
/-! DEFINITION. Requests to the DRAM channels (R203, R206, R207, R209): where a range lies, what it costs and how requests
arrive. -/

namespace Sys2Proof.Machine

/-! ## Where a range lies -/

/-- The channel that a DRAM address lies in (R203). -/
def chanIdOf (a : Addr) : ChanId :=
  ⟨Fin.ofNat 16 (a / Config.seamWindow), Fin.ofNat 32 (chanOf (a % Config.seamWindow))⟩

/-- Whether a channel is fenced, alone or with its seam's DRAM (R334). -/
def chanFenced (s : State) (k : Nat) : Bool :=
  s.dep.fences.chans.contains k || s.dep.fences.drams.contains (k / 32)

/-- Whether a channel serves requests: its domain is live, neither it nor its seam's DRAM is fenced (R205, R316). -/
def chanLive (s : State) (c : ChanId) : Bool :=
  isLiveDom s (.seam c.seam .mclk) && !chanFenced s (chanKey c)

/-- The granules of a range, each with where its part of the range begins in it and how long that is. -/
def granulePieces (a : Addr) (n : Nat) : List (Nat × Nat) :=
  if n = 0 then []
  else (granRange a n).map fun g =>
    let lo := max a (4096 * g)
    (lo - a, min (a + n) (4096 * g + 4096) - lo)

/-! ## Costs -/

/-- The 512 B blocks that a range touches (R206). -/
def blocksTouched (off n : Nat) : Nat :=
  if n = 0 then 0 else (off + n - 1) / 512 + 1 - off / 512

/-- Partial 64 B words that a write begins or ends with (R207). -/
def partialWords (off n : Nat) (begins ends : Bool) : Nat :=
  let head := begins && off % 64 != 0
  let tail := ends && (off + n) % 64 != 0
  if head && tail && off / 64 == (off + n) / 64 then 1 else bitOf head + bitOf tail

/-- A request for one piece of a run of `whole` bytes, `n` bytes at backing address `a`; `at_` is where in the run it begins.
A run shorter than 4,096 B takes an activation slot in each granule, and a piece does not pay again for the block, the
granule or the word that the piece before it ended in (R206, R207; log entry 132). -/
def mkRequest (cls : DramClass) (dry : Time) (origin : ReqOrigin) (a : Addr) (n at_ whole : Nat)
    (write : Option (List Byte)) : ChanRequest :=
  let off := a % Config.seamWindow
  let begins := at_ == 0
  let act := if whole < 4096 ∧ (begins = true ∨ off % 4096 = 0) then 1 else 0
  let rmw := if write.isSome then partialWords off n begins (at_ + n == whole) else 0
  let blocks := blocksTouched off n - (if !begins && off % 512 != 0 then 1 else 0)
  { cls := cls, offset := off, bytes := n, write := write, dry := dry, origin := origin, act := act, rmw := rmw,
    left := max 1 (blocks + act + rmw) }

/-! ## Classes -/

/-- The class of a read of DRAM seam `m` by a unit of seam `own` (R209). -/
def readClass (own m : Nat) : DramClass :=
  if own = m then .read else .remote

/-- The class of a write into DRAM seam `m` by a queue (R209): WRITE where the queue is the seam's own and the data comes from
the seam's own DRAM or scratch; a fill, which the hoist forms itself, counts as its own, while a DEPUTY queue's bytes without
a source are records of the deputy (log entry 136). -/
def writeClass (q : QueueId) (m : Nat) (src : Option Addr) : DramClass :=
  if q.seam.val ≠ m ∨ isPortRx q = true then .remote
  else
    match src.map placeOf with
    | none => if q.queue.val = 17 then .remote else .write
    | some (.dram k _) => if k = m then .write else .remote
    | some (.scratch c _) => if c.seam.val = m then .write else .remote
    | some (.vat c _) => if c.seam.val = m then .write else .remote
    | some .none => .remote

/-- Place of a class among requests that arrive in one cycle (R211). -/
def arrivalRank : DramClass → Nat
  | .read => 0
  | .write => 1
  | .remote => 2

/-! ## Arrival -/

/-- A request at the end of its channel's queue; one to a channel that is fenced is lost. -/
def pushReq (s : State) (r : ChanId × ChanRequest) : State :=
  if chanLive s r.1 then
    let x := getChan s r.1
    setChan s r.1 { x with queue := x.queue ++ [r.2] }
  else s

/-- Requests that arrive together, in the order READ, WRITE, REMOTE (R211). -/
def pushReqs (s : State) (l : List (ChanId × ChanRequest)) : State :=
  ([0, 1, 2].flatMap fun k => l.filter fun r => arrivalRank r.2.cls == k).foldl pushReq s

/-- The read requests of `n` bytes at an address, a piece of a run (R206, R341). -/
def readReqs (s : State) (own : Nat) (dry : Time) (origin : ReqOrigin) (a : Addr) (n at_ whole : Nat) :
    List (ChanId × ChanRequest) :=
  (granulePieces a n).map fun p =>
    let b := backing s (a + p.1)
    (chanIdOf b, mkRequest (readClass own (b / Config.seamWindow)) dry origin b p.2 (at_ + p.1) whole none)

/-- The write requests of a piece of a run to an address (R206, R207, R341). -/
def writeReqs (s : State) (q : QueueId) (src : Option Addr) (dry : Time) (origin : ReqOrigin) (a : Addr) (bs : List Byte)
    (at_ whole : Nat) : List (ChanId × ChanRequest) :=
  (granulePieces a bs.length).map fun p =>
    let b := backing s (a + p.1)
    (chanIdOf b, mkRequest (writeClass q (b / Config.seamWindow) src) dry origin b p.2 (at_ + p.1) whole
      (some ((bs.drop p.1).take p.2)))

/-- Whether requests of a kind still wait at channels in service. -/
def waitsFor (s : State) (p : ReqOrigin → Bool) : Bool :=
  s.chans.any fun e => !chanFenced s e.1 && e.2.queue.any fun r => p r.origin

/-- Whether requests of a segment still wait. -/
def segmentWaits (s : State) (q : QueueId) (id : Nat) : Bool :=
  waitsFor s fun o => match o with
    | .hoist p k _ => p == q && k == id
    | _ => false

/-- Whether requests of an adit unit still wait. -/
def aditWaits (s : State) (u : AditId) : Bool :=
  waitsFor s (· == .adit u)

end Sys2Proof.Machine
end

