-- ==== Sys2Proof/Machine/Weights.lean ====
section
/-! DEFINITION. Weight tiles (R40, R55 to R58, R64 to R83, R115): from a descriptor's storage to what the cells of an array
hold. -/

namespace Sys2Proof.Machine

/-! ## What is loaded -/

/-- A weight tile to load (R41, R178): its number along the reduction, the descriptor slot and the local column that each of
its 64 columns takes (a SLICE_N operand has several, R263), mode, weight width, the part of a split tile (R75), the extent
and the run-time length of K on this module and the masked reduction positions, and the masked columns of the tile (R55,
R56). -/
structure TileSrc where
  kt : Nat
  cols : List (Option (Nat × Nat))
  mode : ArrayMode
  width : Nat
  part : Nat
  extK : Nat
  lenK : Nat
  maskK : List Nat
  dead : List Nat
deriving DecidableEq, Repr

/-- The descriptor slot and local column of each column of column tile `ct` of a weight operand, by its slices in column
order: descriptor slot and columns (R263). -/
def sliceCols (slices : List (Nat × Nat)) (ct : Nat) : List (Option (Nat × Nat)) :=
  let all := slices.flatMap fun x => (List.range x.2).map fun c => (x.1, c)
  (List.range 64).map fun n => all[64 * ct + n]?

/-- The descriptor and local column of column `n` of a tile. -/
def srcCol (s : State) (src : TileSrc) (n : Nat) : Option (Desc × Nat) :=
  match src.cols.getD n none with
  | some c => (descAt s c.1).map fun d => (d, c.2)
  | none => none

/-! ## Lines -/

/-- The line mode of a layout (R70): 0 L1, 1 L4, 2 L2X4, 3 L4X8. -/
def lineOfLayout (d : Desc) : Nat :=
  if d.layout = 0x20 then 1
  else if d.layout = 0x21 then 2
  else if isSelFixed d.layout then 3
  else if isSelV8 d.layout then (if v8N d.layout ≤ 4 then 3 else 0)
  else if d.layout = layWl64 then wlLine d.lparam
  else 0

/-- Dense reduction positions of a half-column in a line mode of gain `G`. -/
def spanOf (line : Nat) : Nat :=
  32 * lineGain line

/-- The activation line that row `r` selects with code `c` (R69). -/
def lineSel (line r c : Nat) : Nat :=
  match line with
  | 0 => r
  | 1 => 4 * r + c
  | 2 => 4 * (r / 2) + c
  | _ => 8 * (r / 4) + (2 * (r % 4) + c) % 8

/-! ## Entries of a column -/

/-- A stored entry of a selector column: its group in the tile, position in the group, bits of the element, and scale
unit (block or chunk) of the tile it lies in. -/
structure SelEntry where
  group : Nat
  pos : Nat
  bits : Nat
  unit : Nat
deriving DecidableEq, Repr

/-- What reading a column's metadata counts (R83). -/
structure MdCounts where
  drop : Nat := 0
  dup : Nat := 0
  oob : Nat := 0
deriving DecidableEq, Repr

/-- The sum of two counts. -/
def MdCounts.add (a b : MdCounts) : MdCounts :=
  ⟨a.drop + b.drop, a.dup + b.dup, a.oob + b.oob⟩

/-- Groups of a tile and positions of a group. -/
def tileGroups (d : Desc) : Nat :=
  let m := if isSelV8 d.layout then 8 else selM d.layout
  64 * lineGain (lineOfLayout d) / m

/-- The position code of entry `i` of block `b` of a selector bundle (R65). -/
def selCode (layout w : Nat) (u : List Byte) (b i : Nat) : Nat :=
  if selM layout = 4 then payloadBits u (8 * (8 + 32 * w + 8 * b) + 2 * i) 2
  else payloadBits u (8 * (8 + 32 * w + 12 * b) + 3 * i) 3

/-- The entries of a column of a fixed-count layout in tile `kt` (R65), with the scale byte of each scale unit. -/
def fixedEntries (s : State) (d : Desc) (kt col : Nat) : List SelEntry × List Nat :=
  let gs := tileGroups d
  let m := selM d.layout
  let n := selN d.layout
  let dense := kt * gs * m
  let u := readUnit s d [dense, col]
  let first := dense % descU d / m * n
  let w := elemWidth d.format
  let es := (List.range (gs * n)).map fun j =>
    let e := first + j
    { group := j / n, pos := selCode d.layout w u (e / 32) (e % 32), bits := bundleElem d.format u e, unit := j / 32 }
  (es, (List.range ((gs * n + 31) / 32)).map fun b => bundleScale u (first / 32 + b))

/-- The entries of one chunk of a V8 bundle by the compact storage of R66, with the count of those dropped by the cases of
R83: slots 8N or beyond, and entries beyond the declared maximum. Groups at or beyond `live` are padding. -/
def chunkEntries (d : Desc) (u : List Byte) (c unit live : Nat) : List SelEntry × Nat :=
  let n := v8N d.layout
  let w := elemWidth d.format
  let cnt (g : Nat) : Nat := leAt u (4 + 4 * c) 4 / 16 ^ g % 16
  let start (g : Nat) : Nat := ((List.range g).map cnt).sum
  let pos (i : Nat) : Nat := payloadBits u (8 * (20 + 3 * n * c) + 3 * i) 3
  let bits (i : Nat) : Nat := payloadBits u (8 * (20 + 12 * n + n * w * c) + i * w) w
  let all := (List.range (min 8 live)).flatMap fun g => (List.range (cnt g)).map fun j => (g, j, start g + j)
  let kept := all.filter fun e => e.2.2 < 8 * n && e.2.1 < n
  (kept.map fun e => ⟨8 * unit + e.1, pos e.2.2, bits e.2.2, unit⟩, all.length - kept.length)

/-- The entries of a column of a SEL-V8 tensor in tile `kt` (R66). -/
def v8Entries (s : State) (d : Desc) (kt col k : Nat) : List SelEntry × List Nat × Nat :=
  let gs := tileGroups d
  let dense := kt * gs * 8
  let u := readUnit s d [dense, col]
  let c0 := dense % 256 / 64
  -- groups lying wholly at or beyond K are padding
  let liveGroups := (k + 7) / 8 - kt * gs
  let cs := (List.range (gs / 8)).map fun i => chunkEntries d u (c0 + i) i (liveGroups - 8 * i)
  (cs.flatMap (·.1), (List.range (gs / 8)).map fun i => bundleScale u (c0 + i), (cs.map (·.2)).sum)

/-- The kept entries of a column with the scales and counts (R83): positions at or beyond K are dropped, repeated positions
counted. `k` is K on this module (R198). -/
def columnEntries (s : State) (d : Desc) (kt col k : Nat) : List SelEntry × List Nat × MdCounts :=
  let m := if isSelV8 d.layout then 8 else selM d.layout
  let first := kt * tileGroups d
  let raw := if isSelV8 d.layout then v8Entries s d kt col k
    else let r := fixedEntries s d kt col; (r.1, r.2, 0)
  let inGroup := raw.1.filter fun e => (first + e.group) * m < k
  let kept := inGroup.filter fun e => (first + e.group) * m + e.pos < k
  let distinct := (kept.map fun e => (e.group, e.pos)).eraseDups
  (kept, raw.2.1, ⟨raw.2.2, kept.length - distinct.length, inGroup.length - kept.length⟩)

/-! ## Placement -/

/-- Whether slot `k` of a group in L4X8 sees position `c`, and with which code (R69). -/
def slotSees (k c : Nat) : Option Nat :=
  let i := (c + 8 - 2 * k) % 8
  if i < 4 then some i else none

/-- A placement of positions on the free slots of an L4X8 group: for each position its slot (R73). -/
def placeX8 : List Nat → List Nat → Option (List Nat)
  | [], _ => some []
  | c :: r, used =>
    (List.range 4).findSome? fun k =>
      if used.contains k || (slotSees k c).isNone then none
      else (placeX8 r (k :: used)).map (k :: ·)

/-- The entries of a group. -/
def groupOf (es : List SelEntry) (g : Nat) : List SelEntry :=
  es.filter fun e => e.group == g

/-- The part of a split tile in which an entry runs (R75): in L4X8 the first two of its group, then the rest; in L1 its
rank among the entries at its position. -/
def partOf (line : Nat) (es : List SelEntry) (i : Nat) : Nat :=
  match es[i]? with
  | none => 0
  | some e =>
    let before := es.take i
    if line = 3 then (if (before.filter fun x => x.group == e.group).length < 2 then 0 else 1)
    else (before.filter fun x => x.group == e.group && x.pos == e.pos).length

/-- The parts that a column needs (R74, R75): one when every group can be placed. -/
def columnParts (line groups : Nat) (es : List SelEntry) : Nat :=
  if line = 3 then
    if (List.range groups).all fun g => (placeX8 ((groupOf es g).map (·.pos)) []).isSome then 1 else 2
  else if line = 0 then
    1 + ((List.range es.length).map (partOf 0 es)).foldl max 0
  else 1

/-- Row and code of an entry, `j` the place of the entry among those of its group that run in the part (R73). -/
def rowCode (line : Nat) (group : List SelEntry) (j : Nat) : Nat × Nat :=
  match group[j]? with
  | none => (0, 0)
  | some e =>
    match line with
    | 0 => (8 * e.group + e.pos, 0)
    | 1 => (e.group, e.pos)
    | 2 => (2 * e.group + j, e.pos)
    | _ =>
      let slots := (placeX8 (group.map (·.pos)) []).getD []
      let k := slots.getD j 0
      (4 * e.group + k, (slotSees k e.pos).getD 0)

/-! ## Columns -/

/-- A column of a weight tile: weights and codes by row, and the two block tags. -/
structure TileColumn where
  weights : List Int
  codes : List Nat
  upper : BlockTag
  lower : BlockTag
deriving DecidableEq, Repr

/-- A column that is masked (R56). -/
def maskedColumn : TileColumn :=
  ⟨List.replicate 64 0, List.replicate 64 0, {}, {}⟩

/-- A column of a dense weight tile (R55, R68): masked positions are taken as +0 before the blocks are aligned. A block that
lies wholly at or beyond K, `k` on this module, has no stored scale; its scale byte counts as 127 (log entry 105). -/
def denseColumn (s : State) (d : Desc) (kt col width k : Nat) (off : List Nat) : TileColumn :=
  let half (h : Nat) : List Int × BlockTag :=
    let k0 := 64 * kt + 32 * h
    let el (i : Nat) : Option Nat :=
      if off.contains (32 * h + i) then none else some (elemBits s d [k0 + i, col])
    let scale := if k0 < k then elemScale s d [k0, col] else 127
    alignBlock d.format ((List.range 32).map el) scale width
  let u := half 0
  let l := half 1
  ⟨u.1 ++ l.1, List.replicate 64 0, u.2, l.2⟩

/-- A column of a selector tile, part `part` of `parts` (R68, R73, R75). `off` are the masked positions of the tile. -/
def selColumn (d : Desc) (es : List SelEntry) (scales : List Nat) (part parts width : Nat) (off : List Nat) : TileColumn :=
  let line := lineOfLayout d
  let m := if isSelV8 d.layout then 8 else selM d.layout
  -- the weights under one scale byte are aligned together
  let units := (List.range scales.length).map fun u =>
    let mine := es.filter fun e => e.unit == u
    alignBlock d.format
      (mine.map fun e => if off.contains (e.group * m + e.pos) then none else some e.bits) (scales.getD u 127) width
  let valueOf (i : Nat) : Int :=
    match es[i]? with
    | none => 0
    | some e =>
      let rank := ((es.take i).filter fun x => x.unit == e.unit).length
      (units.getD e.unit ([], {})).1.getD rank 0
  let placed := (List.range (tileGroups d)).flatMap fun g =>
    let idx := (List.range es.length).filter fun i =>
      (match es[i]? with | some e => e.group == g | none => false) && (parts == 1 || partOf line es i == part)
    let group := idx.filterMap fun i => es[i]?
    (List.range idx.length).map fun j => (rowCode line group j, valueOf (idx.getD j 0))
  let at_ (r : Nat) : Option ((Nat × Nat) × Int) := placed.find? fun p => p.1.1 == r
  let tag (h : Nat) : BlockTag := (units.getD (if scales.length = 1 then 0 else h) ([], {})).2
  ⟨(List.range 64).map fun r => ((at_ r).map (·.2)).getD 0,
   (List.range 64).map fun r => ((at_ r).map (·.1.2)).getD 0, tag 0, tag 1⟩

/-! ## Tally and height -/

/-- Rows of a tile from its columns. -/
def rowsOf {α : Type} (d : α) (cols : List (List α)) : List (List α) :=
  (List.range 64).map fun r => cols.map fun c => c.getD r d

/-- The tally weights (R115, R116): the row sums, modulo 2^32; zeros in a selector line mode. -/
def tallyOf (line : Nat) (weights : List (List Int)) : List Int :=
  if line = 0 then weights.map fun r => r.sum % (2 ^ 32 : Nat) else List.replicate 64 0

/-- The planes in which an integer fits as two's complement. -/
def planesOf (v : Int) : Nat :=
  let m := if v < 0 then -v - 1 else v
  1 + (if m = 0 then 0 else m.toNat.log2 + 1)

/-- The weight height (R58). -/
def heightOf (weights : List (List Int)) : Nat :=
  weights.foldl (fun a r => r.foldl (fun b v => max b (planesOf v)) a) 1

/-! ## WL64 -/

/-- The mode of a code of ARR_STATUS.MODE (R63). -/
def modeOfCode : Nat → Option ArrayMode
  | 1 => some .mac
  | 2 => some .mac2
  | 3 => some .absdiff
  | 4 => some .xorcount
  | 5 => some .gtcount
  | _ => none

/-- The code of a mode. -/
def codeOfMode : ArrayMode → Nat
  | .mac => 1
  | .mac2 => 2
  | .absdiff => 3
  | .xorcount => 4
  | .gtcount => 5

/-- Whether a mode is a distance mode. -/
def isDistance : ArrayMode → Bool
  | .mac | .mac2 => false
  | _ => true

/-- A block tag from its 16 bits (R26). -/
def tagOf (v : Nat) : BlockTag :=
  ⟨signedOf 10 v, bitField v 11 10, bitAt v 12⟩

/-- The 16 bits of a block tag. -/
def tagBits (t : BlockTag) : Nat :=
  unsignedOf 10 t.beff + 1024 * t.special + 4096 * bitOf t.zero

/-- A wholly masked tile (R82). -/
def maskedTile (mode : ArrayMode) (line width : Nat) : WeightTile :=
  { mode := mode, line := line, width := width, part := 0, parts := 1, rowOff := List.range 64, colMask := List.range 64,
    weights := List.replicate 64 (List.replicate 64 0), codes := List.replicate 64 (List.replicate 64 0),
    tags := List.replicate 64 ({}, {}), tally := List.replicate 64 0, height := 1 }

/-- The tag of a block of which `live` tells whether an element is neither masked nor beyond the extent: a block with none
has SPECIAL 0b00 and ZERO 1 and the B_EFF that R22 or R23 gives such a block (R55): 0 of a floating source, the stored one
of an integer source. -/
def liveTag (fmt : Nat) (live : Bool) (t : BlockTag) : BlockTag :=
  if live then t else ⟨if isIntSource fmt then t.beff else 0, 0, true⟩

/-- The row of a WL64 tile's bytes at which row `r` begins, and its length (R81). -/
def wlRow (width r : Nat) : Nat := 0x140 + (if width = 16 then 144 else 80) * r
def wlRowSize (width : Nat) : Nat := if width = 16 then 144 else 80

/-- The position code of cell (r, n) in the bytes of a WL64 tile; in L1 the codes are ignored (R82). -/
def wlCode (u : List Byte) (width line r n : Nat) : Nat :=
  if line = 0 then 0 else payloadBits u (8 * (wlRow width r + wlRowSize width - 16) + 2 * n) 2

/-- The weight of cell (r, n) in the bytes of a WL64 tile (R81). -/
def wlWeight (u : List Byte) (width r n : Nat) : Int :=
  if width = 16 then signedOf 16 (leAt u (wlRow width r + n) 1 + 256 * leAt u (wlRow width r + 64 + n) 1)
  else signedOf 8 (leAt u (wlRow width r + n) 1)

/-- The rows or columns whose bits are set in an 8 B bitmap of a WL64 tile. -/
def wlBits (u : List Byte) (at_ : Nat) : List Nat :=
  (List.range 64).filter fun i => bitAt (leAt u at_ 8) i

/-- A tile that host software stored in WL64 (R81, R82): none when its header names a reserved code or disagrees with
LPARAM. `off` are the masked positions, `mask` the masked columns. A SLICE_N operand's tile is taken from the slice of its
first column (log entry 106). -/
def wl64Tile (s : State) (d : Desc) (col : Nat) (src : TileSrc) (off mask : List Nat) : Option WeightTile :=
  let u := readUnit s d [64 * lineGain (wlLine d.lparam) * src.kt, col]
  let b (i : Nat) : Nat := leAt u i 1
  let width := wlWidth d.lparam
  match modeOfCode (b 0) with
  | none => none
  | some mode =>
    if b 1 != wlLine d.lparam || b 2 != width then none
    else
      let line := if isDistance mode then 0 else b 1
      let rowOff := (wlBits u 0x008 ++ (if line = 0 then (List.range 64).filter off.contains else [])).eraseDups
      let colMask := (wlBits u 0x010 ++ mask).eraseDups
      let alive (r n : Nat) : Bool :=
        !rowOff.contains r && !colMask.contains n && !off.contains (lineSel line r (wlCode u width line r n))
      let weight (r n : Nat) : Int := if alive r n then wlWeight u width r n else 0
      let half (n h : Nat) : BlockTag :=
        liveTag d.format ((List.range 32).any fun i => alive (32 * h + i) n) (tagOf (leAt u (0x40 + 4 * n + 2 * h) 2))
      let ws := (List.range 64).map fun r => (List.range 64).map (weight r)
      some { mode := mode, line := line, width := width, part := b 3 / 2, parts := 1, rowOff := rowOff,
             colMask := colMask, weights := ws,
             codes := (List.range 64).map fun r => (List.range 64).map (wlCode u width line r),
             tags := (List.range 64).map fun n => (half n 0, half n 1),
             tally := if isDistance mode then List.replicate 64 0 else tallyOf line ws, height := b 4 }

/-- A 64-bit bitmap. -/
def bitmap64 (l : List Nat) : Nat :=
  ((List.range 64).map fun i => if l.contains i then 2 ^ i else 0).sum

/-- The bytes of a tile in the WL64 layout, with its tally field, as the loader writes them into scratch (R81, R82, R115). -/
def wl64Image (t : WeightTile) : List Byte :=
  let codes (r : Nat) : Nat := ((List.range 64).map fun n => 4 ^ n * ((t.codes.getD r []).getD n 0 % 4)).sum
  let w (r n : Nat) : Nat := unsignedOf 16 ((t.weights.getD r []).getD n 0)
  let row (r : Nat) : List Byte :=
    (List.range 64).flatMap (fun n => leBytes 1 (w r n % 256)) ++
    (if t.width = 16 then (List.range 64).flatMap fun n => leBytes 1 (w r n / 256) else []) ++ leBytes 16 (codes r)
  leBytes 1 (codeOfMode t.mode) ++ leBytes 1 t.line ++ leBytes 1 t.width ++
  leBytes 1 (bitOf (decide (0 < t.part)) + 2 * (t.part % 8)) ++ leBytes 1 t.height ++ List.replicate 3 0 ++
  leBytes 8 (bitmap64 t.rowOff) ++ leBytes 8 (bitmap64 t.colMask) ++ List.replicate 40 0 ++
  ((List.range 64).flatMap fun n =>
    let g := t.tags.getD n ({}, {})
    leBytes 2 (tagBits g.1) ++ leBytes 2 (tagBits g.2)) ++
  (List.range 64).flatMap row ++
  (List.range 64).flatMap fun r => leBytes 4 (unsignedOf 32 (t.tally.getD r 0))

/-! ## The tile -/

/-- Masked positions of tile `kt` (R55, R181, R267): those of the job's K bitmap, at or beyond the run-time length or the
extent, as offsets in the tile. -/
def tileOff (line : Nat) (src : TileSrc) : List Nat :=
  let g := 64 * lineGain line
  (List.range g).filter fun i =>
    let k := g * src.kt + i
    decide (min src.lenK src.extK ≤ k) || src.maskK.contains k

/-- Masked columns of a tile (R56, R181, R267): those of the job, and those that no descriptor holds. -/
def tileMask (src : TileSrc) : List Nat :=
  (List.range 64).filter fun n => src.dead.contains n || (src.cols.getD n none).isNone

/-- What a load of a weight tile gives: the tile, the metadata counts, and whether its stored WL64 header was refused. -/
structure TileLoad where
  tile : WeightTile
  md : MdCounts := {}
  badWl64 : Bool := false
deriving DecidableEq, Repr

/-- A tile from its columns; `rowOff` are the rows that ROW_OFF takes out. -/
def tileOfColumns (mode : ArrayMode) (line width part parts : Nat) (rowOff mask : List Nat) (tcs : List TileColumn) :
    WeightTile :=
  let ws := rowsOf 0 (tcs.map (·.weights))
  { mode := mode, line := line, width := width, part := part, parts := parts, rowOff := rowOff, colMask := mask,
    weights := ws, codes := rowsOf 0 (tcs.map (·.codes)), tags := tcs.map fun c => (c.upper, c.lower),
    tally := if isDistance mode then List.replicate 64 0 else tallyOf line ws, height := heightOf ws }

/-- The first column of a tile that a descriptor holds: the descriptor tells the layout, which all slices share (R252). -/
def srcHead (s : State) (src : TileSrc) : Option (Desc × Nat) :=
  (List.range 64).findSome? (srcCol s src)

/-- A weight tile built from its stored layout (R41, R68 to R75, R81 to R83). A distance mode loads in L1 (R72). -/
def buildTile (s : State) (d : Desc) (col : Nat) (src : TileSrc) : TileLoad :=
  let line := if isDistance src.mode then 0 else lineOfLayout d
  let off := tileOff (lineOfLayout d) src
  let mask := tileMask src
  let rows := if line = 0 then (List.range 64).filter off.contains else []
  if d.layout = layWl64 then
    match wl64Tile s d (col / 64 * 64) src off mask with
    | some t => { tile := t }
    | none => { tile := maskedTile src.mode (wlLine d.lparam) (wlWidth d.lparam), badWl64 := true }
  else if isSelFixed d.layout || isSelV8 d.layout then
    let cols := (List.range 64).map fun n =>
      match srcCol s src n with
      | some c => if mask.contains n then ([], [], ({} : MdCounts)) else columnEntries s c.1 src.kt c.2 src.extK
      | none => ([], [], {})
    let parts := (cols.map fun c => columnParts line (tileGroups d) c.1).foldl max 1
    let tcs := (List.range 64).map fun n =>
      match srcCol s src n with
      | some w =>
        if mask.contains n then maskedColumn
        else
          let c := cols.getD n ([], [], {})
          selColumn w.1 c.1 c.2.1 src.part parts src.width off
      | none => maskedColumn
    { tile := tileOfColumns src.mode line src.width src.part parts rows mask tcs,
      md := cols.foldl (fun a c => a.add c.2.2) {} }
  else
    let tcs := (List.range 64).map fun n =>
      match srcCol s src n with
      | some w => if mask.contains n then maskedColumn else denseColumn s w.1 src.kt w.2 src.width src.extK off
      | none => maskedColumn
    { tile := tileOfColumns src.mode 0 src.width 0 1 rows mask tcs }

/-- The number of a WL64 image's bytes. -/
def wl64Size (width : Nat) : Nat := if width = 16 then 9792 else 5696

end Sys2Proof.Machine
end

