-- ==== Sys2Proof/Machine/Feeder.lean ====
section
/-! DEFINITION. Activation vectors (R36, R46, R47, R55, R76 to R78, R117, R145, R179, R180): from a descriptor's storage to
the aligned integers, tags and plane counts that enter an array. -/

namespace Sys2Proof.Machine

/-! ## Vectors -/

/-- An aligned vector: its integers by activation line, the tags of its two spans and its plane count. -/
structure Vector64 where
  elems : List Int
  upper : BlockTag
  lower : BlockTag
  planes : Nat
deriving DecidableEq, Repr

/-- What the alignment of a row gives: the vectors to send (one, or the G sub-vectors of R77), how many of the row's stored
PI64 records are malformed, the scale bytes of its source blocks, and whether its spans were aligned as units (R76, R77). -/
structure RowLoad where
  vectors : List Vector64
  malformed : Nat := 0
  scales : List Nat := []
  spans : Bool := false
deriving DecidableEq, Repr

/-- The plane count of R46: the smallest `q` from 1 to `p` in which every element fits. -/
def trimPlanes (elems : List Int) (p : Nat) : Nat :=
  min p (elems.foldl (fun a v => max a (planesOf v)) 1)

/-- The masked positions of a vector: those of the K bitmap, at or beyond the run-time length or the extent (R55, R181). -/
def rowOff (g : Nat) (src : RowSrc) : List Nat :=
  (List.range g).filter fun i =>
    let k := g * src.kt + i
    decide (min src.lenK src.extK ≤ k) || src.maskK.contains k

/-- The source blocks of a STRIDED row: for each 32 elements the scale byte and the bits, none where masked. A block that
lies wholly at or beyond K has no stored scale; its scale byte counts as 127 (log entry 105). -/
def sourceBlocks (s : State) (d : Desc) (g : Nat) (src : RowSrc) : List (Nat × List (Option Nat)) :=
  let off := rowOff g src
  (List.range (g / 32)).map fun b =>
    let k0 := g * src.kt + 32 * b
    let scale := if k0 < src.extK then elemScale s d [k0, src.row] else 127
    (scale, (List.range 32).map fun i =>
      if off.contains (32 * b + i) then none else some (elemBits s d [k0 + i, src.row]))

/-- A span of a floating source aligned as a unit (R76). -/
def floatSpan (f p : Nat) (blocks : List (Nat × List (Option Nat))) : List Int × BlockTag :=
  let vals := blocks.flatMap fun b => b.2.map fun o =>
    match o with
    | some v => if isBlock f then scaleVal b.1 (elemVal f v) else elemVal f v
    | none => .fin false 0 0
  if blocks.any fun b => b.2.any Option.isSome then alignFloat vals 127 p
  else (vals.map fun _ => 0, {})

/-- The least or greatest B_EFF of the nonzero blocks of a span (R77). -/
def beffOf (pick : Int → Int → Int) (bs : List (List Int × BlockTag)) : Option Int :=
  (bs.filter fun b => !b.2.zero).foldl (fun a b =>
    match a with | none => some b.2.beff | some v => some (pick v b.2.beff)) none

/-- Whether a span of integer blocks of aligned width `w` fits in `p` planes (R77). -/
def spanFits (w p : Nat) (bs : List (List Int × BlockTag)) : Bool :=
  match beffOf min bs, beffOf max bs with
  | some lo, some hi => decide ((w : Int) + (hi - lo) ≤ p)
  | _, _ => true

/-- The special code of a span from its blocks' (R25, R78). -/
def joinSpecial (l : List Nat) : Nat :=
  if l.contains 3 || (l.contains 1 && l.contains 2) then 3
  else if l.contains 1 then 1 else if l.contains 2 then 2 else 0

/-- A span of integer blocks at its least exponent (R77). -/
def intSpan (bs : List (List Int × BlockTag)) : List Int × BlockTag :=
  let lo := (beffOf min bs).getD ((bs.head?.map (·.2.beff)).getD 0)
  (bs.flatMap fun b => if b.2.zero then b.1 else b.1.map fun v => v * (2 : Int) ^ (b.2.beff - lo).toNat,
   ⟨lo, joinSpecial (bs.map (·.2.special)), bs.all (·.2.zero)⟩)

/-- The vectors of a row of integer blocks (R77): one vector when both spans fit, else one for each of the `G` block
positions. -/
def intVectors (w p : Nat) (blocks : List (List Int × BlockTag)) : List Vector64 :=
  let g := blocks.length / 2
  let up := blocks.take g
  let low := blocks.drop g
  if spanFits w p up && spanFits w p low then
    let u := intSpan up
    let l := intSpan low
    let e := u.1 ++ l.1
    [⟨e, u.2, l.2, trimPlanes e (max p w)⟩]
  else
    (List.range g).map fun b =>
      let only (bs : List (List Int × BlockTag)) : List Int :=
        (List.range g).flatMap fun i => if i = b then (bs.getD i ([], {})).1 else List.replicate 32 0
      let e := only up ++ only low
      ⟨e, (up.getD b ([], {})).2, (low.getD b ([], {})).2, trimPlanes e (max p w)⟩

/-! ## PI64 -/

/-- Whether a PI64 record is malformed (R180). -/
def badRecord (P : Nat) (u : List Byte) : Bool :=
  let q := leAt u 6 1
  let tagBad (v : Nat) : Bool :=
    v / 2 ^ 13 != 0 || decide (signedOf 10 v < -157) || decide (143 < signedOf 10 v)
  q == 0 || decide (P < q) || leAt u 7 1 / 4 != 0 || tagBad (leAt u 2 2) || tagBad (leAt u 4 2)

/-- Element `i` of a PI64 record: the two's complement number in planes 0 to q - 1 (R179). -/
def recordElem (u : List Byte) (i : Nat) : Int :=
  let q := leAt u 6 1
  signedOf q ((List.range q).foldl (fun n j => n + 2 ^ j * bitOf (bitAt (leAt u (8 + 8 * j) 8) i)) 0)

/-- The vector that a malformed record is fed as (R180). -/
def badVector (g : Nat) : Vector64 :=
  ⟨List.replicate g 0, ⟨0, 3, false⟩, ⟨0, 3, false⟩, 1⟩

/-- The records of a row stored in PI64 that a vector takes: those that begin at or beyond K do not exist and count as
zeros (R181, R200). -/
def rowRecords (s : State) (d : Desc) (g : Nat) (src : RowSrc) : List (Option (List Byte)) :=
  (List.range (g / 64)).map fun j =>
    let k := g * src.kt + 64 * j
    if k < src.extK then some (readUnit s d [k, src.row]) else none

/-- Block `b` of a row stored in PI64: its aligned integers with the masked ones 0, and its tag (R55, R179). -/
def recordBlock (d : Desc) (off : List Nat) (recs : List (Option (List Byte))) (b : Nat) : List Int × BlockTag :=
  match recs.getD (b / 2) none with
  | none => (List.replicate 32 0, {})
  | some u =>
    ((List.range 32).map fun i => if off.contains (32 * b + i) then 0 else recordElem u (32 * (b % 2) + i),
     liveTag d.format ((List.range 32).any fun i => !off.contains (32 * b + i)) (tagOf (leAt u (2 + 2 * (b % 2)) 2)))

/-- The vectors of a row stored in PI64 (R71, R180). In a selector line mode a span of records that the host stored already
aligned as a unit has equal tags, and R77 leaves it as it is. -/
def pi64Row (s : State) (d : Desc) (g : Nat) (src : RowSrc) : RowLoad :=
  let recs := rowRecords s d g src
  let bad := (recs.filterMap id).filter (badRecord d.lparam)
  if bad != [] then { vectors := [badVector g], malformed := bad.length }
  else
    let blocks := (List.range (g / 32)).map (recordBlock d (rowOff g src) recs)
    if g = 64 then
      let e := blocks.flatMap (·.1)
      let q := ((recs.getD 0 none).map fun u => leAt u 6 1).getD 1
      { vectors := [⟨e, (blocks.getD 0 ([], {})).2, (blocks.getD 1 ([], {})).2, q⟩] }
    else { vectors := intVectors d.lparam src.planes blocks }

/-! ## Rows -/

/-- The vectors of an activation row for a tile of gain `G`, `g = 64 G` (R36, R76, R77). -/
def buildRow (s : State) (d : Desc) (g : Nat) (src : RowSrc) : RowLoad :=
  if d.layout = layPi64 then pi64Row s d g src
  else
    let blocks := sourceBlocks s d g src
    let scales := blocks.map (·.1)
    if isIntSource d.format then
      let vs := intVectors (elemWidth d.format) src.planes
        (blocks.map fun b => alignBlock d.format b.2 b.1 src.planes)
      { vectors := vs, scales := scales, spans := decide (g ≠ 64) && vs.length == 1 }
    else
      let span (l : List (Nat × List (Option Nat))) : List Int × BlockTag :=
        if g = 64 then alignBlock d.format ((l.head?.map (·.2)).getD []) ((l.head?.map (·.1)).getD 127) src.planes
        else floatSpan d.format src.planes l
      let u := span (blocks.take (g / 64))
      let l := span (blocks.drop (g / 64))
      let e := u.1 ++ l.1
      { vectors := [⟨e, u.2, l.2, trimPlanes e src.planes⟩], scales := scales, spans := decide (g ≠ 64) }

/-- The PI64 records that the aligner writes into scratch for a vector (R179, R180): record `j` holds lines 64 j to
64 j + 63. In L1 its two blocks are the vector's halves; in a selector line mode each record lies in one half, whose tag
both its blocks carry (log entry 107). `P` plane words are written, those from `q` upward sign extension. -/
def vectorRecords (v : Vector64) (P : Nat) (scales : List Nat) (tally spans : Bool) : List Byte :=
  let n := v.elems.length / 64
  (List.range n).flatMap fun j =>
    let tag (b : Nat) : BlockTag := if 2 * (64 * j + 32 * b) < v.elems.length then v.upper else v.lower
    let el (i : Nat) : Int := v.elems.getD (64 * j + i) 0
    leBytes 1 (scales.getD (2 * j) 127) ++ leBytes 1 (scales.getD (2 * j + 1) 127) ++
    leBytes 2 (tagBits (tag 0)) ++ leBytes 2 (tagBits (tag 1)) ++ leBytes 1 v.planes ++
    leBytes 1 (bitOf tally + 2 * bitOf spans) ++
    (List.range P).flatMap fun p =>
      leBytes 8 ((List.range 64).map fun i => 2 ^ i * bitOf (bitAt (unsignedOf 64 (el i)) p)).sum

/-- The assay vector of a trimmed vector (R145): its top two planes, at exponent B_EFF + q - 2. -/
def assayVector (v : Vector64) : Vector64 :=
  if v.planes ≤ 2 then v
  else
    let k := v.planes - 2
    let up (t : BlockTag) : BlockTag := { t with beff := t.beff + k }
    ⟨v.elems.map fun a => a / (2 ^ k : Nat), up v.upper, up v.lower, 2⟩

/-- Whether R47 skips a vector. -/
def skipVector (mode : ArrayMode) (v : Vector64) : Bool :=
  !isDistance mode && v.elems.all (· == 0) && v.upper.special == 0 && v.lower.special == 0

/-- Compare planes of a distance mode (R58). -/
def comparePlanes (mode : ArrayMode) (q h : Nat) : Nat :=
  match mode with
  | .absdiff => max q h + 1
  | .xorcount => 1
  | _ => max q h

/-- The slots that a vector of `q` planes occupies (R39, R42, R58). -/
def slotsOf (t : WeightTile) (q : Nat) : Nat :=
  match t.mode with
  | .mac => q
  | .mac2 => 2 * q
  | .absdiff => 2 * comparePlanes .absdiff q t.height - 1
  | .xorcount => 1
  | .gtcount => comparePlanes .gtcount q t.height + 1

/-- The planes that trimming removes from a vector (R46), once for each pass. -/
def trimmedPlanes (t : WeightTile) (p q : Nat) : Nat :=
  (if t.mode = .mac2 then 2 else 1) * (p - q)

/-- An integer reduced to 16-bit two's complement (R117). -/
def wrap16 (v : Int) : Int :=
  signedOf 16 (unsignedOf 16 v)

/-- The tally vector of a sum of vectors (R117, R118): trimmed with 16 in place of p, block tags 0x0000. -/
def tallyVector (sum : List Int) : Vector64 :=
  let e := sum.map wrap16
  ⟨e, ⟨0, 0, false⟩, ⟨0, 0, false⟩, trimPlanes e 16⟩

end Sys2Proof.Machine
end

