-- ==== Sys2Proof/Machine/AssaySums.lean ====
section
/-! DEFINITION. The tables of assay sums (R146): what they hold, where they lie, and when they are stale. -/

namespace Sys2Proof.Machine

/-- The sum of numbers `m * 2^e` as one number, exact. -/
def sumScaled (l : List (Int × Int)) : Int × Int :=
  let lo := l.foldl (fun a p => min a p.2) (match l with | p :: _ => p.2 | [] => 0)
  ((l.map fun p => p.1 * (2 : Int) ^ (p.2 - lo).toNat).sum, lo)

/-- A number `m * 2^e` as FP32, rounded toward +∞ (R146). -/
def fp32Up (p : Int × Int) : Word :=
  BitVec.ofNat 32 (encodeF fp32 .rup (fvalOfInt p.1 p.2))

/-- Segments of assay sums for a reduction of `k` positions (R146). -/
def assaySegs (k : Nat) : Nat :=
  (k + 2047) / 2048

/-- The positive and the negative weights of column `n` of a tile, each with its block exponent (R146). -/
def columnSums (t : WeightTile) (n : Nat) : List (Int × Int) × List (Int × Int) :=
  let tags := t.tags.getD n ({}, {})
  let ws := (List.range 64).map fun r =>
    ((t.weights.getD r []).getD n 0, if r < 32 then tags.1.beff else tags.2.beff)
  (ws.filterMap fun w => if 0 < w.1 then some w else none,
   ws.filterMap fun w => if w.1 < 0 then some (-w.1, w.2) else none)

/-- The tiles and parts of a weight tile position. -/
def tileParts (s : State) (d : Desc) (col : Nat) (src : TileSrc) : List WeightTile :=
  let first := (buildTile s d col src).tile
  first :: (List.range (first.parts - 1)).map fun j => (buildTile s d col { src with part := j + 1 }).tile

/-- P and Q of column `col` and segment `seg` (R146): over the stored weights, none masked. -/
def assayEntry (s : State) (t : AssayTable) (col seg : Nat) : Word × Word :=
  let src : TileSrc :=
    { kt := 0, cols := sliceCols t.slices (col / 64), mode := if t.width = 16 then .mac2 else .mac, width := t.width,
      part := 0, extK := t.extK, lenK := t.extK, maskK := [], dead := [] }
  match srcHead s src with
  | none => (0, 0)
  | some w =>
    let g := lineGain (lineOfLayout w.1)
    let kts := (List.range (32 / g)).map (32 / g * seg + ·)
    let tiles := (kts.filter fun kt => 64 * g * kt < t.extK).flatMap fun kt => tileParts s w.1 w.2 { src with kt := kt }
    let sums := tiles.map fun x => columnSums x (col % 64)
    (fp32Up (sumScaled (sums.flatMap (·.1))), fp32Up (sumScaled (sums.flatMap (·.2))))

/-- The bytes of a table of assay sums with its 64 B trailer: CRC32C, then the write generation (R146). -/
def assayBytes (s : State) (t : AssayTable) : List Byte :=
  let body := (List.range t.cols).flatMap fun n => (List.range t.segs).flatMap fun g =>
    let e := assayEntry s t n g
    wordBytes [e.1, e.2]
  body ++ leBytes 4 (crc32c body).toNat ++ leBytes 4 t.generation ++ List.replicate 56 0

/-- A table for weights: their descriptor slots with their columns, K, the width and where it lies (R146). -/
def newAssay (s : State) (slices : List (Nat × Nat)) (extK width : Nat) (table : Addr) : AssayTable :=
  { slices := slices, ranges := slices.filterMap fun x => (descAt s x.1).map descSpan, addr := table,
    segs := assaySegs extK, cols := (slices.map (·.2)).sum, extK := extK, width := width, stale := true,
    generation := ((s.assays.find? fun t => t.addr == table).map (·.generation)).getD 0 }

/-- A table computed and written where it lies (R146). -/
def writeAssay (s : State) (t : AssayTable) : State :=
  let s := writeModule s t.addr (assayBytes s t)
  { s with assays := { t with stale := false } :: s.assays.filter fun x => x.addr != t.addr }

/-- Whether the CRC32C of a table of assay sums fails (R146). -/
def assayCrcBad (s : State) (t : AssayTable) : Bool :=
  let n := 8 * t.cols * t.segs
  crc32c (readModule s t.addr n) != BitVec.ofNat 32 (leNat (readModule s (t.addr + n) 4))

end Sys2Proof.Machine
end

