-- ==== Sys2Proof/Machine/GraphImage.lean ====
section
/-! DEFINITION. The work graph image (R250 to R265): its layout, and the checks of GRAPH_LOAD in the order of *Load
status* (R252). -/

namespace Sys2Proof.Machine

/-! ## Layout -/

/-- A node record (R251). -/
def parseNode (r : List Byte) : Node :=
  { op := leAt r 0 1, variant := leAt r 1 1, planes := leAt r 2 1, wwidth := leAt r 3 1,
    flags := BitVec.ofNat 32 (leAt r 4 4), split := leAt r 8 2, loop := leAt r 0xA 1, cvtMod := leAt r 0xB 1,
    place := (List.range 4).map fun k => leAt r (0xC + k) 1,
    operand := (List.range 8).map fun k => BitVec.ofNat 32 (leAt r (0x10 + 4 * k) 4),
    lenIdx := (List.range 3).map fun k => BitVec.ofNat 32 (leAt r (0x30 + 4 * k) 4),
    thresh := BitVec.ofNat 32 (leAt r 0x3C 4), fill0 := BitVec.ofNat 32 (leAt r 0x40 4),
    scatterTasks := leAt r 0x44 4, budget := leAt r 0x48 8, eps := BitVec.ofNat 32 (leAt r 0x50 4),
    perm := (List.range 8).map fun k => leAt r (0x54 + k) 1, reservedZero := leAt r 0x5C 36 == 0 }

/-- An edge record (R251). -/
def parseEdge (r : List Byte) : Edge :=
  { producer := leAt r 0 2, consumer := leAt r 2 2, kind := leAt r 4 1, slot := leAt r 5 1, tag := leAt r 6 2,
    tail := leAt r 8 4, reservedZero := leAt r 0xC 4 == 0 }

/-- Entries that a list holds in the image: `B` indices, or one for a DYNAMIC list (R262). -/
def listEntries (count kind : Nat) : Nat :=
  if kind = 0 then count else 1

/-- The list at offset `pos`, and the offset behind it. -/
def parseList (b : List Byte) (pos : Nat) : GList × Nat :=
  let count := leAt b pos 4
  let kind := leAt b (pos + 4) 1
  let n := min (listEntries count kind) b.length
  ({ count := count, kind := kind, use := leAt b (pos + 5) 1,
     entries := (List.range n).map fun k => leAt b (pos + 8 + 4 * k) 4, reservedZero := leAt b (pos + 6) 2 == 0 },
   pos + 8 + 4 * listEntries count kind)

/-- `n` lists from offset `pos`, and the offset behind them; reading stops behind the image. -/
def parseLists (b : List Byte) : Nat → Nat → List GList × Nat
  | 0, pos => ([], pos)
  | n + 1, pos =>
    if b.length < pos then ([], pos)
    else
      let l := parseList b pos
      let rest := parseLists b n l.2
      (l.1 :: rest.1, rest.2)

/-- The counts of an image's header: nodes, pool, edges, lists (R250). -/
def imageCounts (b : List Byte) : Nat × Nat × Nat × Nat :=
  (leAt b 6 2, leAt b 8 4, leAt b 0xC 4, leAt b 0x10 4)

/-- Whether the counts of an image lie in their ranges (R250). -/
def countsOk (b : List Byte) : Bool :=
  let (n, p, e, l) := imageCounts b
  1 ≤ n && n ≤ 4096 && p ≤ 65536 && e ≤ 65536 && l ≤ 4096 && 0x44 + 128 * n + 4 * p + 16 * e ≤ b.length

/-- An image by its header's counts (R250). Answers the offset behind its last list. -/
def parseImage (b : List Byte) : Image × Nat :=
  let (n, p, e, l) := imageCounts b
  let pool := 0x40 + 128 * n
  let edges := pool + 4 * p
  let lists := parseLists b l (edges + 16 * e)
  ({ nodes := (List.range n).map fun i => parseNode (sliceBytes b (0x40 + 128 * i) 128),
     pool := (List.range p).map fun i => BitVec.ofNat 32 (leAt b (pool + 4 * i) 4),
     edges := (List.range e).map fun i => parseEdge (sliceBytes b (edges + 16 * i) 16),
     lists := lists.1, grid := (List.range 4).map fun k => leAt b (0x14 + k) 1,
     spillBase := leAt b 0x18 8, spillLen := leAt b 0x20 8, reservedZero := leAt b 0x28 24 == 0 }, lists.2)

/-! ## WG_IMAGE -/

/-- The greatest VARIANT of an operator, and the least (R253); none for a code outside the catalogue. -/
def variants (op : Nat) : Option (Nat × Nat) :=
  match op with
  | 0x01 | 0x03 | 0x13 | 0x15 | 0x20 | 0x24 => some (0, 0)
  | 0x02 => some (3, 5)
  | 0x10 => some (0, 7)
  | 0x11 => some (0, 4)
  | 0x12 => some (0, 1)
  | 0x14 => some (0, 2)
  | 0x21 | 0x22 | 0x23 => some (0, 4)
  | _ => none

/-- FLAGS of a node (R251). -/
def nodeX64 (n : Node) : Bool := bitAt n.flags.toNat 0
def nodeLoad (n : Node) : Bool := bitAt n.flags.toNat 1
def nodeAssay (n : Node) : Bool := bitAt n.flags.toNat 2
def nodeMargin (n : Node) : Bool := bitAt n.flags.toNat 3
def nodePath (n : Node) : Nat := bitField n.flags.toNat 5 4
def splitPinned (n : Node) : Bool := bitAt n.flags.toNat 6
def scatterPinned (n : Node) : Bool := bitAt n.flags.toNat 7

/-- Whether a node is a vector operator (R253). -/
def isVectorOp (n : Node) : Bool :=
  decide (0x10 ≤ n.op) && decide (n.op ≤ 0x15)

/-- Whether a node record holds only defined codes (R252). -/
def nodeCodesOk (n : Node) : Bool :=
  (match variants n.op with | some v => v.1 ≤ n.variant && n.variant ≤ v.2 | none => false) &&
  nodePath n != 3 && n.loop ≤ 2 && n.cvtMod < 8 && n.flags.toNat < 256 && n.reservedZero

/-- Whether an edge record holds only defined codes (R252). -/
def edgeCodesOk (e : Edge) : Bool :=
  e.kind ≤ 1 && (e.kind == 0 || e.slot ≤ 7) && e.reservedZero

/-- Whether a list record holds only defined codes (R262). -/
def listCodesOk (l : GList) : Bool :=
  1 ≤ l.count && l.count ≤ 65536 && l.kind ≤ 1 && l.use ≤ 1 && l.reservedZero

/-- WG_IMAGE (R252). -/
def badImage (b : List Byte) : Bool :=
  if leAt b 0 4 != 0x47575849 || leAt b 4 2 != 1 || !countsOk b then true
  else
    let (g, endAt) := parseImage b
    endAt + 4 != b.length || crc32c (b.take (b.length - 4)) != BitVec.ofNat 32 (leAt b (b.length - 4) 4) ||
    !g.reservedZero || !g.nodes.all nodeCodesOk || !g.edges.all edgeCodesOk || !g.lists.all listCodesOk

/-! ## WG_HANDLE -/

/-- An operand that is absent (R251). -/
def refAbsent : Word := 0xFFFFFFFF

/-- The operand reference in a slot. -/
def operandRef (n : Node) (k : Nat) : Word :=
  n.operand.getD k refAbsent

/-- Whether a reference lies within the pool or the lists (R252). -/
def refOk (g : Image) (w : Word) : Bool :=
  w == refAbsent ||
  (if w.toNat < 2 ^ 31 then w.toNat < g.pool.length else w.toNat - 2 ^ 31 < g.lists.length)

/-- WG_HANDLE (R185, R252). -/
def badHandles (s : State) (g : Image) : Bool :=
  !(g.pool.all fun h => liveHandle s h.toNat) ||
  !(g.nodes.all fun n => n.operand.all (refOk g)) ||
  !(g.lists.all fun l => l.entries.all (· < g.pool.length))

/-! ## Operands -/

/-- What an operand reference names (R251, R262): one descriptor slot, or a list. -/
inductive Operand where
  | absent
  | desc (slot : Nat)
  | list (l : GList)
deriving DecidableEq, Repr

/-- The operand in a slot of a node. -/
def operandOf (g : Image) (n : Node) (k : Nat) : Operand :=
  let w := operandRef n k
  if w = refAbsent then .absent
  else if w.toNat < 2 ^ 31 then
    match g.pool[w.toNat]? with
    | some h => .desc (handleSlot h.toNat)
    | none => .absent
  else
    match g.lists[w.toNat - 2 ^ 31]? with
    | some l => .list l
    | none => .absent

/-- The descriptor slot of a pool entry. -/
def poolSlot (g : Image) (i : Nat) : Option Nat :=
  g.pool[i]?.map fun h => handleSlot h.toNat

/-- The descriptor slots that an operand names, as far as they are known at load: those of a DYNAMIC list are read when the
node's run begins (R265, log entry 112). -/
def operandSlots (g : Image) : Operand → List Nat
  | .absent => []
  | .desc d => [d]
  | .list l => if l.kind = 0 then l.entries.filterMap (poolSlot g) else []

/-- The descriptors that an operand names. -/
def operandDescs (s : State) (g : Image) (o : Operand) : List Desc :=
  (operandSlots g o).filterMap (descAt s)

/-- The first descriptor of an operand, whose FORMAT, LAYOUT and RANK all members share. -/
def operandDesc (s : State) (g : Image) (n : Node) (k : Nat) : Option Desc :=
  (operandDescs s g (operandOf g n k)).head?

/-- The lists of a node. -/
def nodeLists (g : Image) (n : Node) : List GList :=
  (List.range 8).filterMap fun k => match operandOf g n k with | .list l => some l | _ => none

/-- Whether a node is a product with batch lists (R262): the lists of a MERGE are its operands' parts. -/
def batchLists (g : Image) (n : Node) : List GList :=
  if n.op = 0x03 then [] else (nodeLists g n).filter (·.use == 0)

/-- The batch elements of a node (R262). -/
def batchCount (g : Image) (n : Node) : Nat :=
  match batchLists g n with
  | l :: _ => l.count
  | [] => 1

/-! ## WG_OPERAND -/

/-- Operand slots that an operator needs, and those that it may have beside slots 6 and 7 (R253). -/
def operandRoles (n : Node) : List Nat × List Nat :=
  match n.op with
  | 0x01 => ([0, 1, 2] ++ (if nodeLoad n then [3] else []) ++ (if nodeAssay n then [5] else []), [3, 4, 5])
  | 0x02 | 0x03 | 0x11 => ([0, 1, 2], [])
  | 0x12 => if n.variant = 1 then ([0, 1, 2, 3], []) else ([0, 1, 2], [])
  | 0x21 | 0x22 | 0x23 => ([0, 1, 2], [])
  | _ => ([0, 2], [])

/-- Whether a CHUTE edge feeds a slot of a node, or, for the output, takes it (R251). -/
def chuteServes (g : Image) (i k : Nat) : Bool :=
  g.edges.any fun e => e.kind == 1 && ((e.consumer == i && e.slot == k) || (k == 2 && e.producer == i))

/-- Operands missing or present against the catalogue (R252, R253). -/
def badRoles (g : Image) (i : Nat) (n : Node) : Bool :=
  let (need, may) := operandRoles n
  let have_ (k : Nat) : Bool := operandRef n k != refAbsent
  (need.any fun k => !have_ k && !chuteServes g i k) ||
  ((List.range 6).any fun k => have_ k && !need.contains k && !may.contains k) ||
  (n.lenIdx.any (· != refAbsent) && !have_ 6) ||
  (n.op == 0x02 && nodeLoad n)

/-- Whether a list holds the pointers, indices and values of a MERGE operand, whose formats R86 gives. -/
def mergeList (g : Image) (l : GList) : Bool :=
  g.nodes.any fun n => n.op == 0x03 && (List.range 2).any fun k => operandOf g n k == .list l

/-- A list whose members differ in FORMAT, LAYOUT or RANK, or a DYNAMIC list without an INT32 tensor of `B` indices
(R252, R262). The three members of a MERGE operand have the formats of R86 (log entry 114). -/
def badList (s : State) (g : Image) (l : GList) : Bool :=
  let ds := (l.entries.filterMap (poolSlot g)).filterMap (descAt s)
  match ds with
  | [] => true
  | d :: rest =>
    if l.kind = 0 then
      rest.any fun x => (x.format != d.format && !mergeList g l) || x.layout != d.layout || x.rank != d.rank
    else d.format != fmtInt32 || d.layout != layStrided || extentOf d 0 < l.count

/-- The reduction length, rows and columns of a product by its static extents (R178, R263): K, M and N. -/
def staticShape (s : State) (g : Image) (n : Node) : Nat × Nat × Nat :=
  let a := operandDesc s g n 0
  let w := operandDesc s g n 1
  let k := ((w.map (extentOf · 0)).getD ((a.map (extentOf · 0)).getD 0))
  let m := (a.map (extentOf · 1)).getD 1
  let cols := match operandOf g n 1 with
    | .list l => if l.use = 1 then (operandDescs s g (.list l)).map (extentOf · 1) else (w.map (extentOf · 1)).toList
    | _ => (w.map (extentOf · 1)).toList
  (k, m, cols.sum)

/-- The plane count of a product (R257). -/
def planeCount (d : Desc) (n : Node) : Nat :=
  if n.planes ≠ 0 then n.planes else (fixedPlanes d.format).getD 8

/-- The weight width of a product (R257). A WL64 tensor holds weights of its own width, which WWIDTH 0 takes (log entry 133). -/
def weightWidth (d : Desc) (n : Node) : Nat :=
  if n.wwidth ≠ 0 then n.wwidth
  else if d.layout = layWl64 then wlWidth d.lparam
  else (fixedWidth d.format).getD 8

/-- PLANES and WWIDTH that R257 refuses. -/
def badWidths (s : State) (g : Image) (n : Node) : Bool :=
  16 < n.planes ||
  (match operandDesc s g n 0 with
   | some a => (n.planes != 0 && (fixedPlanes a.format).any fun p => n.planes < p) ||
       (a.layout == layPi64 && a.lparam != planeCount a n)
   | none => false) ||
  (n.wwidth != 0 && n.wwidth != 8 && n.wwidth != 16) ||
  (match operandDesc s g n 1 with
   | some w => n.wwidth != 0 && (fixedWidth w.format).any (· != n.wwidth)
   | none => false)

/-- A BLK64 bitmap, a mask operand or a length operand too short (R84, R261, R265). -/
def badSizes (s : State) (g : Image) (n : Node) : Bool :=
  let (k, m, c) := staticShape s g n
  let gain := match operandDesc s g n 1 with | some w => lineGain (lineOfLayout w) | none => 1
  let bits (x : Nat) : Nat := (x + 7) / 8
  let tooShort (slot fmt need : Nat) : Bool := match operandDesc s g n slot with
    | some d => d.format != fmt || d.layout != layStrided || extentOf d 0 < need
    | none => false
  let tiles := (k + 64 * gain - 1) / (64 * gain) * ((c + 63) / 64)
  (n.op == 0x01 && tooShort 4 fmtInt8 (bits tiles)) ||
  tooShort 7 fmtInt8 (bits m + bits k + bits c) ||
  (let idx := (n.lenIdx.filter (· != refAbsent)).map (·.toNat)
   tooShort 6 fmtInt32 ((idx.map (· + batchCount g n)).foldl max 0))

/-- Formats that a LOAD does not take (R97): in A40 a format outside the rule's list fails the load as one in X64 does (log
entry 115). -/
def badLoad (s : State) (g : Image) (n : Node) : Bool :=
  match operandDesc s g n 3 with
  | some d => nodeLoad n &&
      (if nodeX64 n then d.format != fmtInt32
       else d.format != fmtFp32 && d.format != fmtBf16 && d.format != fmtFp16 && d.format != fmtInt32 &&
         d.format != fmtA40)
  | none => false

/-- X64 with a source that is no integer source, or in a distance mode (R108). -/
def badX64 (s : State) (g : Image) (n : Node) : Bool :=
  nodeX64 n && (n.op == 0x02 ||
    ((List.range 2).any fun k => (operandDescs s g (operandOf g n k)).any fun d => !isIntSource d.format))

/-- A source that the arrays do not take (R21, R58): FP32 or INT32, a weight layout as activations or the reverse, and for
a distance mode other than INT8, MXINT8 or VWB-w with w up to 8, of which XORCOUNT takes VWB-1 alone (log entry 113). -/
def badSources (s : State) (g : Image) (n : Node) : Bool :=
  let dist (f : Nat) : Bool :=
    if n.variant = 4 then f == 0x20 else f == fmtInt8 || f == fmtMxInt8 || (isVwb f && elemWidth f ≤ 8)
  let ok (f : Nat) : Bool := isArraySource f && (n.op != 0x02 || dist f)
  ((operandDescs s g (operandOf g n 0)).any fun d => !ok d.format || (d.layout != layStrided && d.layout != layPi64)) ||
  (operandDescs s g (operandOf g n 1)).any fun d => !ok d.format || d.layout == layPi64

/-- A merge that is not two lists of three, or that mixes floating values and INT8 (R86, R253). -/
def badMerge (s : State) (g : Image) (n : Node) : Bool :=
  let vals (k : Nat) : Option Nat := match operandOf g n k with
    | .list l => if l.kind = 0 ∧ l.count = 3 then ((l.entries[2]?.bind (poolSlot g)).bind (descAt s)).map (·.format) else none
    | _ => none
  match vals 0, vals 1 with
  | some a, some b => (a == fmtInt8) != (b == fmtInt8)
  | _, _ => true

/-- An indexed dimension that gathers and scatters do not take (R192, R194). -/
def badIndexed (s : State) (g : Image) (n : Node) : Bool :=
  let bad (d : Desc) : Bool := d.layout != layStrided || (isBlock d.format && n.variant == 0) || d.rank ≤ n.variant
  let floats (d : Desc) : Bool := d.format == fmtFp32 || d.format == fmtBf16 || d.format == fmtFp16
  let ends := (operandDesc s g n 0).toList ++ (operandDesc s g n 2).toList
  ends.any bad || (n.op == 0x23 && !ends.all floats) ||
  (operandDesc s g n 1).any fun d => d.format != fmtInt32

/-- A permutation that the hoists do not make (R196), or one that is none of the source's dimensions. -/
def badPerm (s : State) (g : Image) (n : Node) : Bool :=
  match operandDesc s g n 0 with
  | some d =>
    let p := n.perm.take d.rank
    !((List.range d.rank).all p.contains) || ((isBlock d.format || d.layout != layStrided) && p.getD 0 0 != 0)
  | none => false

/-- VWB-1, which no conversion has as its target (R29). -/
def badTarget (s : State) (g : Image) (n : Node) : Bool :=
  (n.op ≤ 0x03 || isVectorOp n) &&
  (operandDescs s g (operandOf g n 2)).any fun d => d.format == 0x20

/-- Whether a descriptor's local extents fail R184 on this module (R198); one that holds no part here does not. -/
def badLocal (s : State) (g : Image) (d : Desc) : Bool :=
  d.sharded &&
  (let ext := localExtents d g.grid (moduleNum s)
   (ext.take d.rank).all (0 < ·) && !rangeOk s d ext)

/-- WG_OPERAND for one node (R252). -/
def badNode (s : State) (g : Image) (i : Nat) (n : Node) : Bool :=
  let product := n.op == 0x01 || n.op == 0x02
  badRoles g i n || badTarget s g n ||
  ((batchLists g n).any fun l => l.count != batchCount g n) || badSizes s g n ||
  (product && (badSources s g n || badWidths s g n || badLoad s g n || badX64 s g n)) ||
  (splitPinned n && product && (n.split == 0 || 256 < n.split)) ||
  (n.op == 0x03 && badMerge s g n) ||
  (0x21 ≤ n.op && n.op ≤ 0x23 && badIndexed s g n) ||
  (n.op == 0x20 && badPerm s g n)

/-- WG_OPERAND (R252). -/
def badOperands (s : State) (g : Image) : Bool :=
  ((List.range g.nodes.length).any fun i => badNode s g i (g.nodes.getD i {})) ||
  g.lists.any (badList s g) ||
  g.pool.any fun h => match descAt s (handleSlot h.toNat) with | some d => badLocal s g d | none => false

/-! ## WG_GRAPH -/

/-- The nodes that reach no cycle, after `fuel` rounds of taking away nodes without a producer left. -/
def acyclic (edges : List (Nat × Nat)) : Nat → List Nat → Bool
  | 0, left => left.isEmpty
  | fuel + 1, left =>
    let keep := left.filter fun n => edges.any fun e => e.2 == n && left.contains e.1
    acyclic edges fuel keep

/-- WG_GRAPH (R252). -/
def badGraph (g : Image) : Bool :=
  (g.edges.any fun e => g.nodes.length ≤ e.producer || g.nodes.length ≤ e.consumer) ||
  !acyclic (g.edges.map fun e => (e.producer, e.consumer)) g.nodes.length (List.range g.nodes.length) ||
  (let into := (g.edges.filter (·.kind == 1)).map fun e => (e.consumer, e.slot)
   into.eraseDups.length != into.length)

/-! ## WG_GRID -/

/-- Extent of a grid axis, 1 for one that is not declared (R250). -/
def axisExtent (g : Image) (k : Nat) : Nat :=
  max 1 (g.grid.getD k 0)

/-- WG_GRID (R197, R250, R252): a field has 65,536 modules (R284). -/
def badGrid (s : State) (g : Image) : Bool :=
  (g.nodes.any fun n => (List.range 4).any fun k =>
    n.place.getD k 0xFF != 0xFF && axisExtent g k ≤ n.place.getD k 0xFF) ||
  65536 < ((List.range 4).map (axisExtent g)).prod ||
  g.pool.any fun h => match descAt s (handleSlot h.toNat) with
    | some d => d.sharded && (d.shard.take d.rank).any fun sh =>
        (sh.kind == 1 || sh.kind == 2) && (g.grid.getD sh.axis 0 == 0 || g.grid.getD sh.axis 0 != sh.n)
    | none => false

/-! ## WG_PLACE -/

/-- Whether a node runs on a module (R250, R251). -/
def runsOn (g : Image) (module : Nat) (n : Node) : Bool :=
  (List.range 4).all fun k =>
    n.place.getD k 0xFF == 0xFF || n.place.getD k 0xFF == gridCoord g.grid module k

/-- Whether a node of the image runs on this module. -/
def runsHere (s : State) (g : Image) (i : Nat) : Bool :=
  match g.nodes[i]? with
  | some n => runsOn g (moduleNum s) n
  | none => false

/-- The modules that a grid names, and those among them that run a node. -/
def modulesOf (g : Image) (i : Nat) : List Nat :=
  match g.nodes[i]? with
  | some n => (List.range ((List.range 4).map (axisExtent g)).prod).filter fun m => runsOn g m n
  | none => []

/-- The module that consumes what this module's node produces over an edge: this one where it runs the consumer, else the
lowest that does (R227, log entry 28). -/
def consumerModule (s : State) (g : Image) (e : Edge) : Option Nat :=
  if runsHere s g e.consumer then none else (modulesOf g e.consumer).head?

/-- The chutes of an image that need a core endpoint here (R259): edge numbers. -/
def chutesHere (s : State) (g : Image) : List Nat :=
  (List.range g.edges.length).filter fun i => match g.edges[i]? with
    | some e => e.kind == 1 && runsHere s g e.consumer
    | none => false

/-- The chutes of an image whose first leg leaves here (R227, R259), with the consuming module. -/
def legsHere (s : State) (g : Image) : List (Nat × Nat) :=
  (List.range g.edges.length).filterMap fun i => match g.edges[i]? with
    | some e => if e.kind == 1 && runsHere s g e.producer then (consumerModule s g e).map fun m => (i, m) else none
    | none => none

/-- Whether a chute-fed product's smallest block fits (R260, R273): its activation stream in scratch, or the save records
of the tiles beyond those that stay resident, in scratch or in the spill region. -/
def blockFits (s : State) (g : Image) (i : Nat) (n : Node) : Bool :=
  if (n.op == 0x01 || n.op == 0x02) && g.edges.any (fun e => e.kind == 1 && e.consumer == i && e.slot == 0) then
    let (k, _, c) := staticShape s g n
    let p := match operandDesc s g n 0 with | some a => planeCount a n | none => 8
    let stream := (k + 63) / 64 * 64 * (8 * (1 + p))
    let tiles := (c + 63) / 64
    let free := if nodeX64 n then 10 else 16
    let records := (tiles - (free - 2)) * (if nodeX64 n then 32832 else 20544)
    let room := 0x100000 - 2 * 9792
    decide (stream ≤ room) || decide (tiles ≤ free) || decide (records ≤ room) || decide (records ≤ g.spillLen)
  else true

/-- The extent of a dimension on this module (R198). -/
def extentHere (s : State) (g : Image) (d : Desc) (k : Nat) : Nat :=
  (localExtents d g.grid (moduleNum s)).getD k 1

/-- WG_PLACE (R252, R259). -/
def badPlace (s : State) (g : Image) : Bool :=
  let here := (List.range g.nodes.length).filter (runsHere s g)
  (!here.isEmpty && (upCores s).isEmpty) ||
  decide ((freeCoreEndpoints s).length < (chutesHere s g).length) ||
  decide (2048 < (s.port.outs.filter (·.kind == .chute)).length + (legsHere s g).length) ||
  here.any fun i => !blockFits s g i (g.nodes.getD i {})

/-! ## The check -/

/-- The status of GRAPH_LOAD for an image, without WG_FULL (R252). -/
def loadStatus (s : State) (b : List Byte) : Nat :=
  if badImage b then 1
  else
    let g := (parseImage b).1
    if badHandles s g then 2
    else if badOperands s g then 3
    else if badGraph g then 4
    else if badGrid s g then 5
    else if badPlace s g then 6
    else 0

end Sys2Proof.Machine
end

