-- ==== Sys2Proof/Machine/VatOps.lean ====
section
/-! DEFINITION. Operations on vat tiles (R94 to R112, R164, R166): placement, additions, exact accumulation and its loss,
save records. -/

namespace Sys2Proof.Machine

/-! ## Numbers of a task's counts

The first nineteen are the counters of R275 in order; the others feed flags, node entries and estimates (R92). -/

def cntMdDrop : Nat := 0
def cntDupPos : Nat := 1
def cntIdxOob : Nat := 2
def cntOrderBreak : Nat := 3
def cntVatOvf : Nat := 12
def cntVatNan : Nat := 13
def cntVatSpecial : Nat := 14
def cntVatUfl : Nat := 15
def cntMismatch : Nat := 16
def cntSlow : Nat := 18
def cntLongSum : Nat := 19
def cntExactLost : Nat := 20
def cntAssaySkips : Nat := 21
def cntSpillTiles : Nat := 22
def cntSpillDram : Nat := 23
def cntSpillCyc : Nat := 24
def cntAssayIgnored : Nat := 25
def cntAssayMargin : Nat := 26
def cntAssaySpent : Nat := 27
def cntAssaySaved : Nat := 28
def cntSlots : Nat := 29
def cntMarginSeen : Nat := 30

/-- `n` added to entry `k` of a table of counts. -/
def addCount (m : Table Nat) (k n : Nat) : Table Nat :=
  if n = 0 then m else tupd m 0 k (· + n)

/-- The entries of one table of counts added to another. -/
def mergeCounts (a b : Table Nat) : Table Nat :=
  b.foldl (fun m e => addCount m e.1 e.2) a

/-- `n` events added to a task's counts. -/
def slotCount (s : State) (t : SlotId) (k n : Nat) : State :=
  let x := getSlot s t
  if n = 0 ∨ x.state = .empty then s else setSlot s t { x with counts := addCount x.counts k n }

/-! ## Tiles of a core -/

/-- The slot of a tile of a core. -/
def tileSlot (c : CoreId) (t : VatTile) : SlotId :=
  ⟨c, t.slot⟩

/-- A tile of a core put in place of the one at its base. -/
def putTile (s : State) (c : CoreId) (t : VatTile) : State :=
  let x := getCore s c
  setCore s c { x with tiles := x.tiles.map fun v => if v.base = t.base then t else v }

/-- A tile added to a core. -/
def addTile (s : State) (c : CoreId) (t : VatTile) : State :=
  let x := getCore s c
  setCore s c { x with tiles := x.tiles ++ [t] }

/-- The tile at a base taken from a core. -/
def dropTile (s : State) (c : CoreId) (base : Nat) : State :=
  let x := getCore s c
  setCore s c { x with tiles := x.tiles.filter fun v => v.base != base }

/-- The first granules of the positions of a format (R164). -/
def positions (x64 : Bool) : List Nat :=
  if x64 then (List.range 10).map (8 * ·) else (List.range 16).map (5 * ·)

/-- The tiles in the way of a position. -/
def inTheWay (c : CoreState) (x64 : Bool) (base : Nat) : List VatTile :=
  c.tiles.filter fun t => decide (t.base < base + tileGranules x64) && decide (base < t.base + tileGranules t.x64)

/-- The position of a new tile, if there is one (R164): the lowest free one, else the lowest that only tiles of tasks that
are not RUNNING hold. -/
def choosePosition (c : CoreState) (x64 : Bool) : Option Nat :=
  match (positions x64).find? fun b => (inTheWay c x64 b).isEmpty with
  | some b => some b
  | none => (positions x64).find? fun b => (inTheWay c x64 b).all fun t =>
      (tget c.slots {} t.slot.val).state != .running

/-! ## A40 additions -/

/-- What additions and conversions count (R99, R101, R109). -/
structure VatCounts where
  added : Nat := 0
  ovf : Nat := 0
  nan : Nat := 0
  shifts : Nat := 0
  lost : Nat := 0
  ufl : Nat := 0
deriving DecidableEq, Repr

/-- The sum of two counts. -/
def VatCounts.add (a b : VatCounts) : VatCounts :=
  ⟨a.added + b.added, a.ovf + b.ovf, a.nan + b.nan, a.shifts + b.shifts, a.lost + b.lost, a.ufl + b.ufl⟩

/-- The counts of one A40 addition. -/
def ofA40 (k : A40Count) : VatCounts :=
  { ovf := bitOf k.ovf, nan := bitOf k.nan }

/-- An A40 code of a finite product of an integer and a power of two (R19). -/
def a40Int (v : Int) (e : Int) : Nat × A40Count :=
  a40Of (decide (v < 0)) v.natAbs e

/-- One A40 addition into an entry (R101). -/
def addA40 (t : VatTile) (i x : Nat) : VatTile × VatCounts :=
  let r := vatAdd (tget t.entries 0 i).toNat x
  ({ t with entries := tset t.entries 0 i (BitVec.ofNat 64 r.1) }, { ofA40 r.2 with added := 1 })

/-! ## X64 -/

/-- The NaN code of X64 (R20). -/
def x64Nan : Nat := 2 ^ 63

/-- Whether an exact integer fits X64 (R20). -/
def fitsX64 (v : Int) : Bool :=
  decide (-(2 ^ 63 - 1) ≤ v) && decide (v ≤ 2 ^ 63 - 1)

/-- An X64 entry converted to A40 (R109): the code, and whether a finite value became infinity. -/
def x64ToA40 (code : Nat) (e : Int) : Nat × Bool :=
  if code = x64Nan then (nanCode a40, false)
  else
    let r := a40Int (signedOf 64 code) e
    (r.1, r.2.ovf)

/-- A tile that is lost (R109): every entry converted to A40. -/
def loseTile (t : VatTile) : VatTile × VatCounts :=
  let cs := t.entries.map fun e => (e.1, x64ToA40 e.2.toNat t.eRef)
  ({ t with lost := true,
            entries := (cs.map fun e => (e.1, BitVec.ofNat 64 e.2.1)).filter fun e => e.2 != 0 },
   { lost := 1, ovf := (cs.filter fun e => e.2.2).length })

/-- The entries of a tile shifted left by `k`; none when a magnitude leaves the format (R108, R109). -/
def shiftEntries (t : VatTile) (k : Nat) : Option (Table (BitVec 64)) :=
  if t.entries.all fun e => e.2.toNat == x64Nan || fitsX64 (signedOf 64 e.2.toNat * 2 ^ k) then
    some (t.entries.map fun e =>
      if e.2.toNat = x64Nan then e else (e.1, BitVec.ofInt 64 (signedOf 64 e.2.toNat * 2 ^ k)))
  else none

/-- The reference of a tile lowered to `e` (R108); the tile is lost when a shift overflows. -/
def lowerRef (t : VatTile) (e : Int) : VatTile × VatCounts :=
  if t.lost || !t.expSet || decide (t.eRef ≤ e) then (t, {})
  else
    match shiftEntries t (t.eRef - e).toNat with
    | some l => ({ t with entries := l, eRef := e }, { shifts := 1 })
    | none => loseTile t

/-- An exact partial added to a tile that is lost: converted as the drain would convert it (R99, R109). -/
def addLost (t : VatTile) (i : Nat) (acc e : Int) : VatTile × VatCounts :=
  let x := a40Int acc e
  let r := addA40 t i x.1
  (r.1, { r.2 with ovf := r.2.ovf + bitOf x.2.ovf, ufl := r.2.ufl + bitOf x.2.ufl })

/-- An exact partial added to an X64 tile (R108, R109). -/
def addExact (t : VatTile) (i : Nat) (acc e : Int) : VatTile × VatCounts :=
  if t.lost then addLost t i acc e
  else if (tget t.entries 0 i).toNat = x64Nan then (t, { added := 1 })
  else
    let t := if t.expSet then t else { t with expSet := true, eRef := e, eTop := e }
    if 33 < max t.eTop e - min t.eRef e then
      let l := loseTile t
      let r := addLost l.1 i acc e
      (r.1, l.2.add r.2)
    else
      let l := lowerRef t e
      if l.1.lost then
        let r := addLost l.1 i acc e
        (r.1, l.2.add r.2)
      else
        let t := { l.1 with eTop := max l.1.eTop e }
        let v := signedOf 64 (tget t.entries 0 i).toNat + acc * 2 ^ (e - t.eRef).toNat
        if fitsX64 v then
          ({ t with entries := tset t.entries 0 i (BitVec.ofInt 64 v) }, l.2.add { added := 1 })
        else
          let k := loseTile t
          let r := addLost k.1 i acc e
          (r.1, (l.2.add k.2).add r.2)

/-- A partial added to its entry (R100, R101, R108). -/
def addPartial (t : VatTile) (i : Nat) : Partial → VatTile × VatCounts
  | .a40 b => addA40 t i b.toNat
  | .forced b =>
    let r := addA40 t i b.toNat
    ({ r.1 with forced := true }, r.2)
  | .exact acc e => addExact t i acc e
  | .nan =>
    if t.x64 && !t.lost then
      ({ t with forced := true, entries := tset t.entries 0 i (BitVec.ofNat 64 x64Nan) }, { added := 1 })
    else
      let r := addA40 t i (nanCode a40)
      ({ r.1 with forced := true }, r.2)

/-- The partials of one vector added to a tile, in their order (R100); `row` is the output row within the tile (R95). -/
def addOut (t : VatTile) (o : DrainOut) : VatTile × VatCounts :=
  let r := o.parts.foldl (fun (p : VatTile × VatCounts) x =>
    let q := addPartial p.1 (64 * o.row + x.1) x.2
    (q.1, p.2.add q.2)) (t, {})
  ({ r.1 with added := min 0xFFFFFFFF (r.1.added + r.2.added) }, r.2)

/-! ## Counting -/

/-- The counters and flags of a core's vat (R113). -/
def countVat (s : State) (c : CoreId) (k : VatCounts) : State :=
  let b := vatRegBase c
  let s := if k.added = 0 then s else count s b Ctr.VAT_ADD_CNT k.added
  let s := if k.ovf = 0 then s else raise (count s b Ctr.VAT_OVF_CNT k.ovf) b Flag.vat_OVF
  let s := if k.nan = 0 then s else raise (count s b Ctr.VAT_NAN_CNT k.nan) b Flag.vat_NAN
  let s := if k.shifts = 0 then s else count s b Ctr.VAT_SHIFT_CNT k.shifts
  let s := if k.ufl = 0 then s else count s b Ctr.VAT_UFL_CNT k.ufl
  if k.lost = 0 then s else raise (count s b Ctr.VAT_X64_LOST_CNT k.lost) b Flag.vat_EXACT_LOST

/-- A tile with the events of an operation added to those of its part. -/
def noteVat (t : VatTile) (k : VatCounts) : VatTile :=
  let m := addCount (addCount t.counts cntVatOvf k.ovf) cntVatNan k.nan
  { t with counts := addCount (addCount m cntVatUfl k.ufl) cntExactLost k.lost }

/-- A tile operation applied to a tile of a core, with its counts. -/
def onTile (s : State) (c : CoreId) (base : Nat) (f : VatTile → VatTile × VatCounts) : State :=
  match findTile s c base with
  | some t =>
    let r := f t
    countVat (putTile s c (noteVat r.1 r.2)) c r.2
  | none => s

/-! ## Save records -/

/-- Size of a save record (R111). -/
def recordSize (x64 : Bool) : Nat :=
  if x64 then 32832 else 20544

/-- The 60 bytes of a save record's header that its CRC covers (R111). A lost X64 tile keeps the code, the entry width and
the exponents of X64; its entries hold A40 codes (log entry 108). -/
def recordHeader (t : VatTile) : List Byte :=
  leBytes 1 (if t.x64 then fmtX64 else fmtA40) ++
  leBytes 1 (bitOf t.isOpen + 2 * bitOf t.lost + 4 * bitOf t.expSet + 8 * bitOf t.forced) ++
  leBytes 2 (if t.x64 then unsignedOf 16 t.eRef else 0) ++ leBytes 2 (if t.x64 then unsignedOf 16 t.eTop else 0) ++
  leBytes 2 t.part ++ leBytes 2 t.split ++ leBytes 2 t.segment ++ leBytes 4 t.nextTile ++
  leBytes 4 (t.nextPart % 16 + 16 * (t.nextSub % 16)) ++ leBytes 4 t.added ++ leBytes 4 t.rowTile ++
  leBytes 4 t.colTile ++ leBytes 1 t.slot.val ++ List.replicate 27 0

/-- The bytes of a tile's entries (R95). -/
def entryList (t : VatTile) : List Byte :=
  (List.range 4096).flatMap fun i => leBytes (entryBytes t.x64) (tget t.entries 0 i).toNat

/-- The save record of a tile (R111). -/
def saveRecord (t : VatTile) : List Byte :=
  let h := recordHeader t
  let e := entryList t
  h ++ leBytes 4 (crc32c (h ++ e)).toNat ++ e

/-- Entries of a record's bytes. -/
def parseEntries (w : Nat) (bs : List Byte) : Table (BitVec 64) :=
  ((List.range 4096).map fun i => (i, BitVec.ofNat 64 (leAt bs (w * i) w))).filter fun e => e.2 != 0

/-- The tile that a save record holds, placed at `base`; none when its CRC32C or format code fails (R112). -/
def parseRecord (bs : List Byte) (base : Nat) : Option VatTile :=
  let f := leAt bs 0 1
  let x64 := f == fmtX64
  let body := (bs.drop 64).take (recordSize x64 - 64)
  if (f != fmtA40 && f != fmtX64) || leAt bs 0x3C 4 != (crc32c (bs.take 0x3C ++ body)).toNat then none
  else
    let b := leAt bs 1 1
    some { base := base, x64 := x64, isOpen := bitAt b 0, lost := bitAt b 1, expSet := bitAt b 2, forced := bitAt b 3,
           eRef := signedOf 16 (leAt bs 2 2), eTop := signedOf 16 (leAt bs 4 2), part := leAt bs 6 2,
           split := leAt bs 8 2, segment := leAt bs 0xA 2, nextTile := leAt bs 0xC 4,
           nextPart := leAt bs 0x10 4 % 16, nextSub := leAt bs 0x10 4 / 16 % 16, added := leAt bs 0x14 4,
           rowTile := leAt bs 0x18 4, colTile := leAt bs 0x1C 4, slot := Fin.ofNat 4 (leAt bs 0x20 1),
           entries := parseEntries (entryBytes x64) body, ready := true }

/-- What the sequencer keeps of a tile that is saved. -/
def keptOf (t : VatTile) : VatTile :=
  { t with base := 0, entries := [] }

/-- A tile saved at an offset of scratch (R111, R112, R164 to R166, R273): its granules are free, its record belongs to its
task. -/
def saveTile (s : State) (c : CoreId) (t : VatTile) (off : Nat) (spill : Bool) : State :=
  let s := writeScratch s c off (saveRecord t)
  let s := dropTile s c t.base
  let id := tileSlot c t
  let x := getSlot s id
  let s := setSlot s id { x with saved := x.saved ++ [{ offset := off, spill := spill, kept := keptOf t }] }
  let s := count s (vatRegBase c) Ctr.VAT_SAVE_CNT 1
  count s (coreRegBase c) Ctr.CORE_SAVE_CYC_CNT (recordSize t.x64 / 64)

/-- Whether `n` bytes at an offset of scratch meet no save record of a task that lies in scratch. -/
def clearOfRecords (x : TaskSlot) (o n : Nat) : Bool :=
  x.saved.all fun r => r.inDram || o + n ≤ r.offset || r.offset + recordSize r.kept.x64 ≤ o

/-- The place of a record in a task's save area: the lowest in it that no record of the task overlaps (R166). -/
def saveOffset (x : TaskSlot) (x64 : Bool) : Option Nat :=
  let n := recordSize x64
  let cands := (x.base :: x.saved.map fun r => r.offset + recordSize r.kept.x64).filter fun o =>
    x.base ≤ o && o + n ≤ x.base + x.saveBytes && clearOfRecords x o n
  cands.min?

/-- Tiles saved one after another into their tasks' save areas, in ascending order of granule (R164); none when a save area
has no room, which the sizes that a task is loaded with exclude (R166). -/
def saveAll (s : State) (c : CoreId) (ts : List VatTile) : Option State :=
  (ts.mergeSort fun a b => decide (a.base ≤ b.base)).foldl (fun o t =>
    o.bind fun s => (saveOffset (getSlot s (tileSlot c t)) t.x64).map fun off => saveTile s c t off false) (some s)

/-- Whether partials of a tile are still on their way, or a charge into it is open. -/
def tileBusy (s : State) (c : CoreId) (base : Nat) : Bool :=
  (arraysOfCore c).any fun a =>
    let x := getArray s a
    (match x.charge with | some ch => ch.tile == base | none => false) || x.flights.any (fun f => f.tile == base) ||
    x.out.any fun o => o.tile == base

/-- Room made at the position of R164; the base of the tile that goes there. None while a tile in the way still takes
partials, since no partial reaches a tile that is being saved (R163, R165). -/
def makeRoom (s : State) (c : CoreId) (x64 : Bool) : State × Option Nat :=
  let x := getCore s c
  match choosePosition x x64 with
  | some b =>
    let ts := inTheWay x x64 b
    if ts.any fun t => tileBusy s c t.base then (s, none)
    else
      match saveAll s c ts with
      | some s' => (s', some b)
      | none => (s, none)
  | none => (s, none)

/-! ## Combination -/

/-- The value of an entry of a tile as an A40 code, with what a conversion counts (R110). -/
def entryA40 (t : VatTile) (i : Nat) : Nat × Bool :=
  let v := (tget t.entries 0 i).toNat
  if t.x64 && !t.lost then x64ToA40 v t.eRef else (v, false)

/-- Two tiles combined in A40, entry by entry (R106, R110). -/
def combineA40 (l r : VatTile) : Table (BitVec 64) × VatCounts :=
  let rs := (List.range 4096).map fun i =>
    let a := entryA40 l i
    let b := entryA40 r i
    let v := vatAdd a.1 b.1
    (i, v.1, VatCounts.add (ofA40 v.2) { ovf := bitOf a.2 + bitOf b.2 })
  ((rs.map fun e => (e.1, BitVec.ofNat 64 e.2.1)).filter fun e => e.2 != 0,
   rs.foldl (fun k e => k.add e.2.2) {})

/-- Two X64 tiles combined exactly at the lower reference; none when a magnitude leaves the format (R110). -/
def combineExact (l r : VatTile) (ref : Int) : Option (Table (BitVec 64)) :=
  let at_ (t : VatTile) (i : Nat) : Option Int :=
    let v := (tget t.entries 0 i).toNat
    if v = x64Nan then none else some (signedOf 64 v * 2 ^ (if t.expSet then (t.eRef - ref).toNat else 0))
  let rs := (List.range 4096).map fun i => (i, at_ l i, at_ r i)
  let fits (o : Option Int) : Bool := match o with | some v => fitsX64 v | none => true
  let sum (a b : Option Int) : Option Int := match a, b with | some x, some y => some (x + y) | _, _ => none
  if rs.all fun e => fits e.2.1 && fits e.2.2 && fits (sum e.2.1 e.2.2) then
    some ((rs.map fun e => match sum e.2.1 e.2.2 with
      | some c => (e.1, BitVec.ofInt 64 c)
      | none => (e.1, BitVec.ofNat 64 x64Nan)).filter fun e => e.2 != 0)
  else none

/-- The left operand of a combination after it took in the right one (R106, R110). Its part, split and segment fields stay
its own, and its count of partials becomes the saturating sum (log entry 109). -/
def combineTiles (l r : VatTile) : VatTile × VatCounts :=
  let exact := l.x64 && !l.lost && r.x64 && !r.lost
  let l' := { l with forced := l.forced || r.forced, added := min 0xFFFFFFFF (l.added + r.added) }
  if exact then
    let ref := if l.expSet && r.expSet then min l.eRef r.eRef else if l.expSet then l.eRef else r.eRef
    let top := if l.expSet && r.expSet then max l.eTop r.eTop else if l.expSet then l.eTop else r.eTop
    let spread := decide (33 < top - ref)
    match (if spread then none else combineExact l r ref) with
    | some es => ({ l' with entries := es, expSet := l.expSet || r.expSet, eRef := ref, eTop := top }, {})
    | none =>
      let c := combineA40 l r
      ({ l' with entries := c.1, lost := true }, { c.2 with lost := 1 })
  else
    let c := combineA40 l r
    ({ l' with entries := c.1, lost := l.x64 }, c.2)

/-! ## Initial values -/

/-- The element of a LOAD tensor for row `m` and column `n` of a tile, none outside its extents, where the entry starts from
zero (log entry 110). -/
def loadElem (d : Desc) (rt ct m n : Nat) : Option (List Nat) :=
  let row := 64 * rt + m
  let col := 64 * ct + n
  if col < extentOf d 0 ∧ row < extentOf d 1 then some [col, row] else none

/-- The entry of a LOAD element (R97): its exact A40 value, or an INT32 value as an X64 integer; an X64 entry from another
format, which only a DYNAMIC list can name, is open (log entry 112). -/
def loadEntry (d : Desc) (x64 : Bool) (i bits : Nat) (v : FVal) : BitVec 64 :=
  if !x64 then BitVec.ofNat 64 (encodeF a40 .rne v)
  else if d.format = fmtInt32 then BitVec.ofInt 64 (signedOf 32 bits)
  else Config.loadOpen i bits

/-- The entries of a LOAD tile (R97). -/
def loadEntries (s : State) (d : Desc) (x64 : Bool) (rt ct : Nat) : Table (BitVec 64) :=
  ((List.range 4096).map fun i =>
    match loadElem d rt ct (i / 64) (i % 64) with
    | some idx => (i, loadEntry d x64 i (elemBits s d idx) (elemValue s d idx))
    | none => (i, 0)).filter fun e => e.2 != 0

/-- A tile with its initial value (R97, R108): cleared, or loaded in part 0 of segment 0. -/
def initTile (s : State) (t : VatTile) : VatTile :=
  let t := { t with ready := true }
  match t.init with
  | .zero => { t with entries := [] }
  | .load desc rt ct =>
    if t.part ≠ 0 ∨ t.segment ≠ 0 then { t with entries := [] }
    else
      match descAt s desc with
      | some d =>
        let es := loadEntries s d t.x64 rt ct
        { t with entries := es, expSet := t.x64 && es != [] }
      | none => { t with entries := [] }

end Sys2Proof.Machine
end

