-- ==== Sys2Proof/Machine/Tasks.lean ====
section
/-! DEFINITION. Tasks (R161, R268 to R270, R325): start marks, starts, readiness of commands. -/

namespace Sys2Proof.Machine

/-! ## Nodes -/

/-- The image of a job's graph. -/
def jobImage (s : State) (j : Job) : Option Image :=
  (getGraphSlot s j.graph).live

/-- A node of a job's graph. -/
def jobNode (s : State) (j : Job) (n : Nat) : Option Node :=
  (jobImage s j).bind fun g => g.nodes[n]?

/-- A job's node run changed. -/
def updRun (s : State) (job node : Nat) (f : NodeRun → NodeRun) : State :=
  updJob s job fun j => { j with nodes := tupd j.nodes {} node f }

/-- The deadline of a node's run (R324). -/
def deadline (s : State) (j : Job) (node : Nat) : Option Time :=
  match jobNode s j node with
  | some n => if n.budget = 0 then none else some (j.ctx.tAccept + n.budget)
  | none => none

/-- The mean duration of a task as a fraction (R325): of the node's last 16 tasks in the seam, or the cost estimate of R91
with an ACLK slot as 5/18 ns and a KCLK cycle as 4/7 ns. -/
def meanTask (s : State) (j : Job) (node seam cost : Nat) : Nat × Nat :=
  let times := ((getStage s j.graph node).taskTimes.filter fun t => t.1 == seam).map (·.2)
  if 16 ≤ times.length then ((times.take 16).sum, 16)
  else
    match jobNode s j node with
    | some n => if n.op = 0x01 ∨ n.op = 0x02 then (5 * cost, 18) else (4 * cost, 7)
    | none => (4 * cost, 7)

/-- The start mark of task `i` of a work counter (R325), rounded down to a whole ns as a dry time is (R326). -/
def startMark (s : State) (seam : Nat) (c : WorkCounter) (i : Nat) : Option Int :=
  match getJob s c.job with
  | none => none
  | some j =>
    match deadline s j c.node with
    | none => none
    | some d =>
      let m := meanTask s j c.node seam ((c.tasks[i]?.map (·.cost)).getD 0)
      let rounds := (c.limit - i + c.group - 1) / max 1 c.group
      some (((d : Int) * m.2 - rounds * m.1) / (m.2 : Int))

/-- A task starts (R325, R329): a start after its start mark is counted. -/
def markStarted (s : State) (t : SlotId) : State :=
  let x := getSlot s t
  if x.started ∨ x.state = .empty then s
  else
    let late := match startMark s t.core.seam.val (getCounter s t.core.seam.val x.counter) x.index with
      | some m => decide (m < (s.clk.now : Int))
      | none => false
    let s := setSlot s t { x with started := true, startedAt := s.clk.now }
    if late then raise (count s hubClkBase Ctr.DL_LATE_START_CNT 1) hubClkBase Flag.hubClk_LATE_START else s

/-! ## Readiness -/

/-- The commands of a unit that are not issued yet, in stream order (R159). -/
def nextCmd (x : TaskSlot) (u : UnitKind) : Option Nat :=
  (List.range x.cmds.length).find? fun i =>
    match x.cmds[i]? with
    | some c => c.cmd.unit == u && !c.issued
    | none => false

/-- Whether a piece of data is present: a command that has completed brought it, and none that has completed released it
(R124, R160). -/
def piecePresent (x : TaskSlot) (p : Nat) : Bool :=
  x.cmds.any (fun c => c.done && c.cmd.brings.contains p) &&
  !x.cmds.any fun c => c.done && c.cmd.releases.contains p

/-- Whether a command is ready: the commands that it names have completed and its operands are present (R159, R160). -/
def cmdReady (x : TaskSlot) (i : Nat) : Bool :=
  match x.cmds[i]? with
  | some c => !c.issued && c.cmd.deps.all (fun d => ((x.cmds[d]?).map (·.done)).getD true) &&
      c.cmd.needs.all (piecePresent x)
  | none => false

/-- Whether a unit of the core works on a command of a task: one that is issued and has not completed (R159, R163). -/
def unitActive (x : TaskSlot) (u : UnitKind) : Bool :=
  x.cmds.any fun c => c.cmd.unit == u && c.issued && !c.done

/-- The units of a core. -/
def unitKinds : List UnitKind := [.array, .vector, .jig, .fabric, .adit]

/-- Whether a task has a ready command (R160, R161). A charge whose vat tile alone is missing counts as ready: the tile is
placed or restored when the task runs (R164, log entry 111). -/
def hasReady (x : TaskSlot) : Bool :=
  unitKinds.any fun u => match nextCmd x u with | some i => cmdReady x i | none => false

/-- The state of a resident task that is not RUNNING (R161). -/
def idleState (x : TaskSlot) : SlotState :=
  if hasReady x then .ready else .waiting

/-- Every slot of a core with its state brought up to date (R161). -/
def refreshSlots (s : State) (c : CoreId) : State :=
  (slotsOfCore c).foldl (fun s t =>
    let x := getSlot s t
    match x.state with
    | .ready | .waiting => setSlot s t { x with state := idleState x }
    | _ => s) s

/-- The dry time of a resident task (R326, R327): its start mark until it starts, afterwards that of its buffers (log entry
140). -/
def slotDry (s : State) (t : SlotId) : Option Time :=
  let x := getSlot s t
  if x.state = .empty then none
  else if x.started then x.dry
  else (startMark s t.core.seam.val (getCounter s t.core.seam.val x.counter) x.index).map Int.toNat

/-- Whether a task's dry time is before another's: a task without one counts as latest (R162). -/
def dryBefore (a b : Option Time) : Bool :=
  match a, b with
  | some x, some y => decide (x < y)
  | some _, none => true
  | none, _ => false

/-- The READY slot with the earliest dry time, the lowest slot among equals (R162). -/
def bestReady (s : State) (c : CoreId) : Option SlotId :=
  (slotsOfCore c).foldl (fun best t =>
    let x := getSlot s t
    if x.state = .ready then
      match best with
      | none => some t
      | some b => if dryBefore (slotDry s t) (slotDry s b) then some t else best
    else best) none

/-- The RUNNING slot of a core. -/
def runningSlot (s : State) (c : CoreId) : Option SlotId :=
  (slotsOfCore c).find? fun t => (getSlot s t).state == .running

/-- The RUNNING slot of a core that has none: the best READY one (R161, R162). -/
def ensureRunning (s : State) (c : CoreId) : State :=
  match runningSlot s c with
  | some _ => s
  | none =>
    match bestReady s c with
    | some t => setSlot s t { getSlot s t with state := .running }
    | none => s

end Sys2Proof.Machine
end

