-- ==== Sys2Proof/Machine/JobRecord.lean ====
section
/-! DEFINITION. Completion records (R275, R276), the end of a job, and what an unload releases (R249). -/

namespace Sys2Proof.Machine

/-! ## Counters of a job -/

/-- The counters of the record header, in the order of R275, by the model's count numbers. -/
def recordCounters : List Nat := List.range 19

/-- A counter of a job: its own events and those of its nodes, saturating (R275). -/
def jobCount (j : Job) (k : Nat) : Nat :=
  min 0xFFFFFFFF (tget j.counts 0 k + (j.nodes.map fun n => tget n.2.counts 0 k).sum)

/-- A number as a saturated 32-bit field. -/
def sat32 (n : Nat) : Nat :=
  min 0xFFFFFFFF n

/-! ## Node entries -/

/-- Time from the acceptance to a node's last completion (R275). -/
def stepNs (j : Job) (r : NodeRun) : Nat :=
  sat32 (r.lastDone - j.ctx.tAccept)

/-- Whether a node's run is over its budget (R276, R329). -/
def overBudget (j : Job) (n : Node) (r : NodeRun) : Bool :=
  n.budget != 0 && decide (n.budget < stepNs j r)

/-- PATH of a node (R275). -/
def nodePathCode (n : Node) (r : NodeRun) : Nat :=
  if n.op != 0x01 && n.op != 0x02 then 3
  else match r.arrays, r.adit with
    | true, false => 0
    | false, true => 1
    | true, true => 2
    | false, false => 3

/-- NFLAGS of a node. -/
def nodeFlags (j : Job) (n : Node) (r : NodeRun) : Nat :=
  bitOf (tget r.counts 0 cntLongSum != 0) + 2 * bitOf (tget r.counts 0 cntExactLost != 0) +
  4 * bitOf (tget r.counts 0 cntAssayIgnored != 0) + 8 * bitOf (overBudget j n r) + 16 * bitOf r.splitCut

/-- The 64 B entry of a node (R275, R276). In a record that is not COMPLETE, a node without a completed task reports PATH 3
and zeros. -/
def nodeEntry (j : Job) (status i : Nat) (n : Node) (r : NodeRun) (g : Stage) : List Byte :=
  if status ≠ 0 ∧ r.doneTasks = 0 then leBytes 2 i ++ leBytes 1 3 ++ leBytes 61 0
  else
    let path := nodePathCode n r
    let product := path != 3
    let fld (k v : Nat) : List Byte := leBytes k v
    fld 2 i ++ fld 1 path ++ fld 1 (if product then (if nodeX64 n then 0x41 else 0x40) else 0) ++
    fld 2 (if product then max 1 r.split else 0) ++ fld 2 (if product then max 1 r.segs else 0) ++
    fld 1 r.threshold ++ fld 1 (nodeFlags j n r) ++ fld 2 (min 0xFFFF g.offRuns) ++
    fld 4 (if n.op = 0x23 then sat32 r.total else 0) ++ fld 4 (sat32 (tget r.counts 0 cntAssaySkips)) ++
    fld 4 r.discardMax.toNat ++ fld 4 (sat32 (tget r.counts 0 cntSpillTiles)) ++
    fld 4 (sat32 (tget r.counts 0 cntSpillDram)) ++ fld 4 (sat32 (tget r.counts 0 cntSpillCyc)) ++
    fld 4 (stepNs j r) ++ fld 4 (sat32 r.doneTasks) ++ fld 4 (sat32 r.dups) ++ fld 16 0

/-! ## The record -/

/-- The nodes of a job that run on this module, in ascending order. -/
def jobNodes (s : State) (j : Job) : List (Nat × Node) :=
  match jobImage s j with
  | some g => (List.range g.nodes.length).filterMap fun i =>
      if runsHere s g i then g.nodes[i]?.map fun n => (i, n) else none
  | none => []

/-- FLAGS of the record header (R275). -/
def recordFlags (s : State) (j : Job) : Nat :=
  let any (k : Nat) : Bool := jobCount j k != 0
  bitOf (any cntLongSum) + 2 * bitOf (any cntExactLost) + 4 * bitOf (any cntAssayIgnored) +
  8 * bitOf ((jobNodes s j).any fun n => overBudget j n.2 (tget j.nodes {} n.1)) + 16 * bitOf (any cntAssayMargin) +
  32 * bitOf (any 5) + 64 * bitOf (any cntSpillTiles)

/-- The completion record of a job with a status: 0 COMPLETE, 1 CANCELLED, 2 ABANDONED (R275). -/
def recordBytes (s : State) (j : Job) (status : Nat) : List Byte :=
  let nodes := jobNodes s j
  let entries := nodes.flatMap fun n =>
    nodeEntry j status n.1 n.2 (tget j.nodes {} n.1) (getStage s j.graph n.1)
  let head := leBytes 4 (128 + 64 * nodes.length) ++ leBytes 4 j.jobId.toNat ++ leBytes 4 (handleOf j.graph j.gen) ++
    leBytes 2 status ++ leBytes 2 nodes.length ++ leBytes 8 j.ctx.tAccept ++ leBytes 8 s.clk.now ++
    leBytes 4 (recordFlags s j) ++ (recordCounters.flatMap fun k => leBytes 4 (jobCount j k)) ++ leBytes 12 0
  head ++ leBytes 4 (crc32c (head ++ entries)).toNat ++ entries

/-! ## The table log -/

/-- Bytes of the live state of the tables (R348): 160 B for each descriptor, and the image of each loaded graph. -/
def liveTable (s : State) : Nat :=
  160 * (usedDescs s).length + (s.dep.graphs.map (·.2.raw.length)).sum

/-- A table-log entry of `n` bytes (R348): above 3/4 of its part, the log is written afresh as its live state. -/
def logTable (s : State) (n : Nat) : State :=
  let used := s.jnl.tableUsed + granulesOf n
  let used := if 3 * tableLogSize s < 4 * used then granulesOf (liveTable s) else used
  { s with jnl := { s.jnl with tableUsed := used } }

/-! ## Releasing -/

/-- The work counters of a job freed (R249, R269). -/
def dropCounters (s : State) (job : Nat) : State :=
  { s with counters := s.counters.filter fun e => !(e.2.active && e.2.job == job) }

/-- The re-run entries of a job forgotten. -/
def dropReruns (s : State) (job : Nat) : State :=
  let mine (r : Rerun) : Bool :=
    let c := getCounter s r.seam r.counter
    c.active && c.job == job
  { s with dep := { s.dep with
      reruns := s.dep.reruns.filter fun r => !mine r
      rerunning := s.dep.rerunning.filter fun r => !mine r
      abortCounts := s.dep.abortCounts.filter fun e => e.1 != job } }

/-- A task discarded that has not started, or whose job has ended (R219, R276). -/
def discardTask (s : State) (t : SlotId) : State :=
  let s := cancelQueue (dropCharges s t) (slotQueue t)
  let c := getCore s t.core
  let s := setCore s t.core { c with tiles := c.tiles.filter fun v => v.slot != t.slot }
  setSlot s t {}

/-- The resident tasks of a job. -/
def jobSlots (s : State) (job : Nat) : List SlotId :=
  (residentSlots s).filter fun t => (getSlot s t).job == job

/-- The resident tasks of a job that have not started discarded, and its counters closed (R276). -/
def discardUnstarted (s : State) (job : Nat) : State :=
  let s := ((jobSlots s job).filter fun t => !(getSlot s t).started).foldl discardTask s
  { s with counters := s.counters.map fun e =>
      if e.2.active && e.2.job == job then (e.1, { e.2 with next := e.2.limit }) else e }

/-- A chute of an unloaded graph: reset (R234), its endpoints, session and first leg released (R249). -/
def releaseChute (s : State) (r : Nat × Nat) : State :=
  let s := resetChute s r
  let s := (endpointsOf s r).foldl (fun s ep =>
    let s := match ep with
      | .hub i => setSession s i.val {}
      | .core _ _ => s
    setEp s ep {}) s
  { s with port := { s.port with
      outs := s.port.outs.filter fun o => !(o.kind == .chute && o.graph == r.1 && o.edge == r.2) } }

/-- A graph unloaded (R249): chutes, stages and tables released; the descriptors it named lose a holder (R185). -/
def releaseGraph (s : State) (slot : Nat) : State :=
  let s := ((allChutes s).filter fun r => r.1 == slot).eraseDups.foldl releaseChute s
  let x := getGraphSlot s slot
  let s := setGraphSlot s slot { gen := x.gen }
  { s with dep := { s.dep with stages := s.dep.stages.filter fun e => e.1 / 65536 != slot } }

/-! ## The end of a job -/

/-- The waits of CANCEL and GRAPH_UNLOAD that a job's end satisfies: the graph is released and OK is answered (R249). -/
def finishWait (s : State) (w : Wait) : State :=
  if w.jobs.all (fun k => (getJob s k).isNone) then
    let s := { s with dep := { s.dep with waits := s.dep.waits.filter (· != w) } }
    match w.graph with
    | some g => respondWith (logTable (releaseGraph s g) 5) w.ctx w.opcode 0 [] (leBytes 1 8 ++ leBytes 4 g)
    | none => respond s w.ctx w.opcode 0 []
  else s

/-- Every wait looked at. -/
def finishWaits (s : State) : State :=
  s.dep.waits.foldl finishWait s

/-- The misses of a job's deadlines counted (R329). -/
def countMisses (s : State) (j : Job) : State :=
  ((jobNodes s j).filter fun n => overBudget j n.2 (tget j.nodes {} n.1)).foldl
    (fun s _ => raise (count s hubClkBase Ctr.DL_MISS_CNT 1) hubClkBase Flag.hubClk_MISS) s

/-- ASSAY_EVENT.OFF set on the unfenced cores of the seams that ran a node (R149, log entry 29). -/
def raiseOff (s : State) (job node : Nat) : State :=
  let seams := (s.counters.filter fun e => e.2.active && e.2.job == job && e.2.node == node).map fun e => e.1 / 64
  ((upCores s).filter fun c => seams.contains c.seam.val).foldl
    (fun s c => raise s (assayRegBase c) Flag.assay_OFF) s

/-- The rows of a node's run, where all its elements have as many (R141). -/
def runRows (r : NodeRun) : Option Nat :=
  match r.lens with
  | e :: rest => if rest.all fun x => x.2.1 == e.2.1 then some e.2.1 else none
  | [] => none

/-- The lane products of a node's run: two for each product with a weight of 9 to 16 bits (R133). -/
def runProducts (r : NodeRun) (lanes : Nat) : Nat :=
  lanes * (r.lens.map fun e => e.2.1 * e.2.2.1 * e.2.2.2).sum

/-- A stage with the cost of a run that took one path (R141): the last 16 of its path and M are kept. -/
def noteCost (g : Stage) (r : NodeRun) (lanes : Nat) : Stage :=
  match runRows r with
  | some m =>
    let p := runProducts r lanes
    if r.arrays == r.adit || p = 0 || m = 0 || 8 < m then g
    else
      let c : PathCost := ⟨r.adit, m, (r.lastDone - r.startedAt) * 1000000 / p⟩
      let same (x : PathCost) : Bool := x.adit == c.adit && x.rows == c.rows
      { g with costs := (c :: g.costs.filter same).take 16 ++ g.costs.filter fun x => !same x }
  | none => g

/-- A stage with the measured and the estimated slots of its last run (R92). -/
def noteSlots (g : Stage) (r : NodeRun) : Stage :=
  let n := tget r.counts 0 cntSlots
  if n = 0 ∨ r.estimate = 0 then g else { g with measured := n, estimated := r.estimate }

/-- What a run of a stage leaves for the next ones (R92, R141): its slots, its cost, and a probe due after every 64 runs. -/
def afterRun (g : Stage) (r : NodeRun) (lanes : Nat) : Stage :=
  let g := { g with runs := g.runs + 1, probeDue := g.probeDue || (g.runs + 1) % 64 == 0 }
  if r.doneTasks = r.total then noteCost (noteSlots g r) r lanes else g

/-- Lanes that a weight of a node takes (R133). -/
def nodeLanes (s : State) (j : Job) (n : Node) : Nat :=
  match (jobImage s j).bind fun g => operandDesc s g n 1 with
  | some d => if weightWidth d n = 16 then 2 else 1
  | none => 1

/-- A stage's run counted (R92, R141, R149); in EXACT mode, a pass that saved less than it spent is switched off for 16
runs. -/
def countRun (s : State) (j : Job) (i : Nat) (n : Node) : State :=
  let r := tget j.nodes {} i
  if r.started then
    let g := afterRun (getStage s j.graph i) r (nodeLanes s j n)
    if nodeAssay n && !nodeMargin n then
      if 0 < g.assayOff then setStage s j.graph i { g with assayOff := g.assayOff - 1, offRuns := g.offRuns + 1 }
      else if tget r.counts 0 cntAssaySaved < tget r.counts 0 cntAssaySpent then
        raiseOff (setStage s j.graph i { g with assayOff := 16 }) j.key i
      else setStage s j.graph i g
    else setStage s j.graph i g
  else s

/-- A job ended with a status (R249, R275): its record is formed, written and sent as the response to its RUN. -/
def endJob (s : State) (key status : Nat) : State :=
  match getJob s key with
  | none => s
  | some j =>
    let s := (jobSlots s key).foldl discardTask s
    let s := (jobNodes s j).foldl (fun s n => countRun s j n.1 n.2) s
    let bytes := recordBytes s j status
    let s := countMisses s j
    let s := if j.record = 0 then s else writeModule s j.record bytes
    let s := dropCounters (dropReruns s key) key
    let s := { s with
      scatters := s.scatters.filter fun b => b.job != key
      dep := { s.dep with jobs := s.dep.jobs.filter fun x => x.key != key } }
    endRecovery (finishWaits (respond s j.ctx 0x09 0 bytes))

/-- A job that a CANCEL or GRAPH_UNLOAD ends, at task boundaries (R249, R276): it ends at once when no started task of it
is left. -/
def stopJob (s : State) (key status : Nat) : State :=
  let s := updJob s key fun j => { j with ending := some (j.ending.getD status) }
  let s := discardUnstarted s key
  if jobSlots s key = [] then endJob s key status else s

end Sys2Proof.Machine
end

