-- ==== Sys2Proof/Machine/Lots.lean ====
section
/-! DEFINITION. Lot commands (R244 to R249): allocations, descriptors, data, graphs and jobs. -/

namespace Sys2Proof.Machine

/-! ## Responses of table-changing commands -/

/-- Whether `n` more bytes bring the live state above 7/8 of its part (R348). -/
def tableFull (s : State) (n : Nat) : Bool :=
  7 * 4096 * tableLogSize s < 8 * (liveTable s + n)

/-- The response of a command that changes the tables, in one journal write with its entry (R348). -/
def tableRespond (s : State) (ctx : CmdCtx) (opcode status : Nat) (result entry : List Byte) : State :=
  let e := leBytes 1 opcode ++ entry
  respondWith (logTable s (e.length + 24 + result.length)) ctx opcode status result e

/-- A failed command's response: no result and no effect (R247, R248). -/
def failCmd (s : State) (ctx : CmdCtx) (opcode status : Nat) : State :=
  respond s ctx opcode status []

/-- What a command of an accepted lot does: nothing while the module is out of service (R350). -/
def inService (s t : State) : State :=
  if s.dep.out then s else t

/-! ## ALLOC and FREE -/

/-- Whether a range of whole granules lies in a seam's host-allocatable DRAM, in no allocation, and backs nothing else. -/
def rangeFree (s : State) (seam base size : Nat) : Bool :=
  seamDram seam ≤ base && base + size ≤ seamDram seam + Config.hostBytes seam && base % 4096 == 0 &&
  !(s.dep.allocs.any fun a => a.base < base + size && base < a.base + a.size) &&
  !(s.dep.voids.any fun v => match v.home with
    | some h => decide (h * 4096 < base + size) && decide (base < h * 4096 + 4096)
    | none => false)

/-- The lowest free range of a size: it begins at the seam's start, or behind an allocation or a granule in use. -/
def lowestRange (s : State) (seam size : Nat) : Option Nat :=
  let starts := s.dep.allocs.map (fun a => a.base + a.size) ++
    (s.dep.voids.filterMap fun v => v.home.map fun h => h * 4096 + 4096) ++ [seamDram seam]
  (starts.filter fun b => rangeFree s seam b size).foldl
    (fun best b => match best with | none => some b | some c => some (min b c)) none

/-- A granule of a seam's host-allocatable DRAM, by a number. -/
def granuleAt (seam n : Nat) : Addr :=
  seamDram seam + 4096 * (n % (Config.hostBytes seam / 4096))

/-- The place of an allocation: any free range, by the implementation's choice (R245, log entry 3). -/
def placeAlloc (s : State) (seam size : Nat) : Option Nat × State :=
  match lowestRange s seam size with
  | none => (none, s)
  | some low =>
    let d := drawChoice s
    let base := granuleAt seam d.1
    (some (if rangeFree s seam base size then base else low), d.2)

/-- ALLOC (R245, R248). -/
def allocCmd (s : State) (ctx : CmdCtx) (seam : Nat) (size : Nat) : State :=
  if 15 < seam then failCmd s ctx 0x01 0x0302
  else if size = 0 ∨ Config.hostBytes seam < size then failCmd s ctx 0x01 0x0303
  else
    match placeAlloc s seam (roundUp size 4096) with
    | (none, s) => failCmd s ctx 0x01 0x0300
    | (some base, s) =>
      let s := { s with dep := { s.dep with allocs := { base := base, size := roundUp size 4096 } :: s.dep.allocs } }
      let s := voidAtAlloc s base (roundUp size 4096)
      tableRespond s ctx 0x01 0 (leBytes 8 base) (leBytes 8 base ++ leBytes 8 (roundUp size 4096))

/-- Whether a descriptor remains against an allocation (R185). -/
def allocationPinned (s : State) (a : Allocation) : Bool :=
  s.dep.descs.any fun e => match e.2.live with
    | some d => a.base ≤ d.base && d.base < a.base + a.size
    | none => false

/-- An allocation gone, with what its granules were void for (R185, R341). -/
def dropAllocation (s : State) (a : Allocation) : State :=
  let voids := s.dep.voids.filter fun v => !(decide (a.base ≤ v.gran * 4096) && decide (v.gran * 4096 < a.base + a.size))
  { s with dep := { s.dep with
      allocs := s.dep.allocs.filter (·.base != a.base)
      voids := voids
      losses := updateLosses voids s.dep.losses } }

/-- A FREE of an allocation that still has descriptors is pending (R185). -/
def pendFree (s : State) (base : Addr) : State :=
  let pend (x : Allocation) : Allocation := if x.base = base then { x with freePending := true } else x
  { s with dep := { s.dep with allocs := s.dep.allocs.map pend } }

/-- FREE (R185, R248). -/
def freeCmd (s : State) (ctx : CmdCtx) (base : Addr) : State :=
  match s.dep.allocs.find? fun a => a.base == base && !a.freePending with
  | none => failCmd s ctx 0x02 0x0304
  | some a =>
    let s :=
      if allocationPinned s a then pendFree s base else dropAllocation s a
    tableRespond s ctx 0x02 0 [] (leBytes 8 base)

/-- ALLOCATION_RELEASE (R185): a free that was pending takes effect. -/
def releaseAllocation (s : State) (base : Addr) : State :=
  match s.dep.allocs.find? fun a => a.base == base && a.freePending with
  | none => s
  | some a => if allocationPinned s a then s else logTable (dropAllocation s a) 8

def execAlloc (ctx : CmdCtx) (seam : Byte) (size : Nat) (s : State) : Host.Outcome State Fault Refusal :=
  .next (inService s (allocCmd s ctx seam.toNat size))

def execFree (ctx : CmdCtx) (base : Addr) (s : State) : Host.Outcome State Fault Refusal :=
  .next (inService s (freeCmd s ctx base))

def execAllocationRelease (base : Addr) (s : State) : Host.Outcome State Fault Refusal :=
  .next (inService s (releaseAllocation s base))

/-! ## Descriptors -/

/-- A failed creation in the registers of R201. -/
def noteDescFail (s : State) (ctx : CmdCtx) (status : Nat) : State :=
  let s := raise (count s descBase Ctr.DT_FAIL_CNT 1) descBase Flag.desc_CREATE_FAIL
  let s := raiseIf (status == 9) s descBase Flag.desc_FULL
  setRawReg s (descBase + 0xC) (BitVec.ofNat 32 (status + 256 * (ctx.lsn.toNat % 2 ^ 24)))

/-- DESC_CREATE (R177, R182, R348). -/
def descCreateCmd (s : State) (ctx : CmdCtx) (record : List Byte) : State :=
  if record.length ≠ 160 then failCmd s ctx 0x03 0x0401
  else
    let used := usedDescs s
    let status := descStatus s record
    let status := if status = 0 ∧ (Config.descSlots ≤ used.length ∨ tableFull s 160 = true) then 9 else status
    if status ≠ 0 then failCmd (noteDescFail s ctx status) ctx 0x03 (0x0100 + status)
    else
      match lowestFree used Config.descSlots with
      | none => failCmd (noteDescFail s ctx 9) ctx 0x03 0x0109
      | some i =>
        let g := nextGen (getDescSlot s i).gen
        let s := setDescSlot s i { gen := g, live := some (parseDesc record) }
        tableRespond s ctx 0x03 0 (leBytes 4 (handleOf i g)) (leBytes 4 i ++ leBytes 4 g ++ record)

/-- Whether a loaded graph names a descriptor (R185). -/
def descHeld (s : State) (slot : Nat) : Bool :=
  s.dep.graphs.any fun e => match e.2.live with
    | some g => g.pool.any fun h => handleSlot h.toNat == slot
    | none => false

/-- A descriptor gone; its slot keeps its generation (R177, R185). -/
def dropDesc (s : State) (slot : Nat) : State :=
  setDescSlot s slot { gen := (getDescSlot s slot).gen }

/-- DESC_DESTROY (R185, R248). -/
def descDestroyCmd (s : State) (ctx : CmdCtx) (handle : Nat) : State :=
  if !liveHandle s handle then failCmd s ctx 0x04 0x0402
  else
    let i := handleSlot handle
    let s := if descHeld s i then setDescSlot s i { getDescSlot s i with destroyPending := true } else dropDesc s i
    tableRespond s ctx 0x04 0 [] (leBytes 4 i)

/-- DESCRIPTOR_DESTROYED (R185): a destroy that was pending takes effect. -/
def destroyPendingDesc (s : State) (slot : Nat) : State :=
  if (getDescSlot s slot).destroyPending && !descHeld s slot then logTable (dropDesc s slot) 4 else s

def execDescCreate (ctx : CmdCtx) (record : List Byte) (s : State) : Host.Outcome State Fault Refusal :=
  .next (inService s (descCreateCmd s ctx record))

def execDescDestroy (ctx : CmdCtx) (handle : Word) (s : State) : Host.Outcome State Fault Refusal :=
  .next (inService s (descDestroyCmd s ctx handle.toNat))

def execDescriptorDestroyed (index : Nat) (s : State) : Host.Outcome State Fault Refusal :=
  .next (inService s (destroyPendingDesc s index))

/-! ## PUT and GET -/

/-- PUT (R245, R341). -/
def putCmd (s : State) (ctx : CmdCtx) (addr : Addr) (data : List Byte) : State :=
  if data.length = 0 ∨ 65536 < data.length then failCmd s ctx 0x05 0x0401
  else if !inAllocation s addr data.length || touchesUnhomed s addr data.length then failCmd s ctx 0x05 0x0301
  else respond (writeModule s addr data) ctx 0x05 0 []

/-- GET (R245): the bytes; none of a range that touches a void granule (R340, log entry 30). -/
def getCmd (s : State) (ctx : CmdCtx) (addr : Addr) (len : Nat) : State :=
  if len = 0 ∨ 65536 < len then failCmd s ctx 0x06 0x0303
  else if !inAllocation s addr len || touchesVoid s addr len then failCmd s ctx 0x06 0x0301
  else respond s ctx 0x06 0 (readModule s addr len)

def execPut (ctx : CmdCtx) (addr : Addr) (data : List Byte) (s : State) : Host.Outcome State Fault Refusal :=
  .next (inService s (putCmd s ctx addr data))

def execGet (ctx : CmdCtx) (addr : Addr) (len : Nat) (s : State) : Host.Outcome State Fault Refusal :=
  .next (inService s (getCmd s ctx addr len))

/-! ## GRAPH_LOAD and GRAPH_UNLOAD -/

/-- The slots of the graph table in use. -/
def usedGraphs (s : State) : List Nat :=
  (s.dep.graphs.filter fun e => e.2.live.isSome).map (·.1)

/-- A HELLO to a module's MGMT_PORT, with which it opens a session (R286, R305). -/
def helloFrame (s : State) (peer side : Nat) : TxFrame :=
  { cls := .management, dstMac := s.pwr.config.nextHopMac, dstIp := moduleIp s peer side,
    dstPort := s.pwr.config.mgmtPort, pcp := s.pwr.config.pcpMgmt, dry := s.clk.now, body := .mgmt 1 0 0 0 [] }

/-- A session that this module opens: it begins with a HELLO (R286). -/
def openOut (s : State) (kind : SessionKind) (graph edge peer side : Nat) : State :=
  let o : OutSession := { kind := kind, graph := graph, edge := edge, peer := peer }
  pushTx { s with port := { s.port with outs := s.port.outs ++ [o] } } (helloFrame s peer side)

/-- A chute of a graph bound to a core endpoint; its producer is a core that runs the producing node, or a PORT_RX hoist
queue (R226, R259). -/
def bindChute (slot : Nat) (g : Image) (s : State) (i : Nat) : State :=
  match g.edges[i]?, chooseOf s (freeCoreEndpoints s) with
  | some e, (some ep, s) =>
    let (producer, s) :=
      if runsHere s g e.producer then
        match chooseOf s (upCores s) with
        | (some c, s) => (coreKey c, s)
        | (none, s) => (0x3FF, s)
      else (0x3FF, s)
    let x := getGraphSlot s slot
    setEp (setGraphSlot s slot { x with chutes := x.chutes ++ [(i, ep)] }) ep (freshEndpoint e.tail producer)
  | _, (_, s) => s

/-- The weight descriptors that an operand names at load for element `b`, with their columns on this module: those of a
SLICE_N list in column order, or one (R262, R263). -/
def loadSlices (s : State) (g : Image) (n : Node) (b : Nat) : List (Nat × Nat) :=
  let slots := match operandOf g n 1 with
    | .list l => if l.use = 1 then operandSlots g (.list l) else (operandSlots g (.list l))[b]?.toList
    | o => operandSlots g o
  slots.filterMap fun k => (descAt s k).map fun d => (k, extentHere s g d 1)

/-- The tables of assay sums of a node that asks for the pass (R144, R146), one for each batch element that has a place for
its own. -/
def loadAssay (g : Image) (s : State) (n : Node) : State :=
  if nodeAssay n then
    let tables := operandDescs s g (operandOf g n 5)
    (List.range tables.length).foldl (fun s b =>
      let ws := loadSlices s g n b
      match tables[b]?, (ws.head?.map (·.1)).bind (descAt s) with
      | some t, some w => writeAssay s (newAssay s ws (extentHere s g w 0) (weightWidth w n) t.base)
      | _, _ => s) s
  else s

/-- What a load sets up (R140, R146, R226, R259): stages, chutes, first legs and assay sums. -/
def placeGraph (s : State) (slot : Nat) (g : Image) : State :=
  let s := (List.range g.nodes.length).foldl (fun s i =>
    setStage s slot i { threshold := s.pwr.config.aditThreshold }) s
  let s := (chutesHere s g).foldl (bindChute slot g) s
  let s := (legsHere s g).foldl (fun s l => openOut s .chute slot l.1 l.2 s.pwr.config.side) s
  (g.nodes.filter fun n => n.op == 0x01).foldl (loadAssay g) s

/-- GRAPH_LOAD (R246, R252, R348). -/
def graphLoadCmd (s : State) (ctx : CmdCtx) (addr : Addr) (len : Nat) : State :=
  if len = 0 then failCmd s ctx 0x07 0x0303
  else if !inAllocation s addr len || touchesVoid s addr len then failCmd s ctx 0x07 0x0301
  else
    let b := readModule s addr len
    let status := loadStatus s b
    if status ≠ 0 then failCmd s ctx 0x07 (0x0200 + status)
    else if Config.graphSlots ≤ (usedGraphs s).length || tableFull s len then failCmd s ctx 0x07 0x0207
    else
      match lowestFree (usedGraphs s) Config.graphSlots with
      | none => failCmd s ctx 0x07 0x0207
      | some i =>
        let g := (parseImage b).1
        let gen := nextGen (getGraphSlot s i).gen
        let s := setGraphSlot s i { gen := gen, live := some g, raw := b }
        tableRespond (placeGraph s i g) ctx 0x07 0 (leBytes 4 (handleOf i gen)) (leBytes 4 i ++ leBytes 4 gen ++ b)

/-- Whether a graph handle names a loaded graph that is not being unloaded (R248). -/
def liveGraph (s : State) (h : Nat) : Bool :=
  let x := getGraphSlot s (handleSlot h)
  x.live.isSome && x.gen == handleGen h && !x.unloading

/-- A command that waits for jobs to end; it answers at once when none is left (R249). -/
def waitFor (s : State) (ctx : CmdCtx) (opcode : Nat) (jobs : List Nat) (graph : Option Nat) : State :=
  let w : Wait := ⟨ctx, opcode, jobs, graph⟩
  finishWait { s with dep := { s.dep with waits := s.dep.waits ++ [w] } } w

/-- GRAPH_UNLOAD (R249): queued runs end CANCELLED, a running job is cancelled at task boundaries, a held one is
ABANDONED. -/
def graphUnloadCmd (s : State) (ctx : CmdCtx) (handle : Nat) : State :=
  if !liveGraph s handle then failCmd s ctx 0x08 0x0402
  else
    let i := handleSlot handle
    let s := setGraphSlot s i { getGraphSlot s i with unloading := true }
    let jobs := s.dep.jobs.filter (·.graph == i)
    let s := jobs.foldl (fun s j => stopJob s j.key (if j.state = .held then 2 else 1)) s
    waitFor s ctx 0x08 (jobs.map (·.key)) (some i)

def execGraphLoad (ctx : CmdCtx) (addr : Addr) (len : Nat) (s : State) : Host.Outcome State Fault Refusal :=
  .next (inService s (graphLoadCmd s ctx addr len))

def execGraphUnload (ctx : CmdCtx) (handle : Word) (s : State) : Host.Outcome State Fault Refusal :=
  .next (inService s (graphUnloadCmd s ctx handle.toNat))

/-! ## RUN and CANCEL -/

/-- RUN (R246, R249): a job queued behind the graph's earlier runs. A RUN that a replay executes again starts its job from
the start under the number it had (R353). -/
def runCmd (s : State) (ctx : CmdCtx) (handle : Nat) (jobId : Word) (record : Addr) : State :=
  let slot := handleSlot handle
  match (getGraphSlot s slot).live with
  | none => failCmd s ctx 0x09 0x0402
  | some g =>
    if !liveGraph s handle then failCmd s ctx 0x09 0x0402
    else if record ≠ 0 ∧ inAllocation s record (128 + 64 * g.nodes.length) = false then failCmd s ctx 0x09 0x0301
    else
      let same (j : Job) : Bool := sameCmd j.ctx ctx.session.val ctx.lsn ctx.index
      let key := ((s.dep.jobs.find? same).map (·.key)).getD s.dep.nextJob
      let j : Job := { key := key, ctx := ctx, jobId := jobId, graph := slot, gen := handleGen handle, record := record }
      { s with dep := { s.dep with
        jobs := s.dep.jobs.filter (fun j => !same j) ++ [j], nextJob := max s.dep.nextJob (key + 1) } }

/-- CANCEL (R249): every job with the JOB_ID ends CANCELLED, at task boundaries (R276). -/
def cancelCmd (s : State) (ctx : CmdCtx) (jobId : Word) : State :=
  let jobs := s.dep.jobs.filter (·.jobId == jobId)
  if jobs = [] then failCmd s ctx 0x0A 0x0403
  else waitFor (jobs.foldl (fun s j => stopJob s j.key 1) s) ctx 0x0A (jobs.map (·.key)) none

def execRun (ctx : CmdCtx) (handle : Word) (jobId : Word) (record : Addr) (s : State) : Host.Outcome State Fault Refusal :=
  .next (inService s (runCmd s ctx handle.toNat jobId record))

def execCancel (ctx : CmdCtx) (jobId : Word) (s : State) : Host.Outcome State Fault Refusal :=
  .next (inService s (cancelCmd s ctx jobId))

/-! ## Lots -/

/-- A parsed command's body by opcode and payload (R244, R248). -/
def parseBody (op : Nat) (p : List Byte) : LotBody :=
  let exact (n : Nat) (b : LotBody) : LotBody := if p.length = n then b else .malformed op 0x0401
  match op with
  | 0x01 => exact 9 (.alloc (p.getD 0 0) (leAt p 1 8))
  | 0x02 => exact 8 (.free (leAt p 0 8))
  | 0x03 => exact 160 (.descCreate p)
  | 0x04 => exact 4 (.descDestroy (BitVec.ofNat 32 (leAt p 0 4)))
  | 0x05 => if 9 ≤ p.length ∧ p.length ≤ 65544 then .put (leAt p 0 8) (p.drop 8) else .malformed op 0x0401
  | 0x06 => exact 12 (.get (leAt p 0 8) (leAt p 8 4))
  | 0x07 => exact 16 (.graphLoad (leAt p 0 8) (leAt p 8 8))
  | 0x08 => exact 4 (.graphUnload (BitVec.ofNat 32 (leAt p 0 4)))
  | 0x09 => exact 16 (.run (BitVec.ofNat 32 (leAt p 0 4)) (BitVec.ofNat 32 (leAt p 4 4)) (leAt p 8 8))
  | 0x0A => exact 4 (.cancel (BitVec.ofNat 32 (leAt p 0 4)))
  | _ => .malformed op 0x0400

/-- The commands of a lot's bytes (R244, R248), from index `i`. -/
def parseLot (session : Fin 2048) (lsn : Word) (tAccept : Time) : Nat → Nat → List Byte → List LotCommand
  | 0, _, _ => []
  | fuel + 1, i, b =>
    if b.length < 8 then []
    else
      let op := leAt b 0 1
      let len := leAt b 1 3
      let ctx : CmdCtx := ⟨session, lsn, i, BitVec.ofNat 32 (leAt b 4 4), tAccept⟩
      let rest := b.drop 8
      if rest.length < len then [⟨ctx, .malformed op 0x0401⟩]
      else ⟨ctx, parseBody op (rest.take len)⟩ :: parseLot session lsn tAccept fuel (i + 1) (rest.drop len)

/-- The commands of a lot. -/
def lotCommands (session : Fin 2048) (lsn : Word) (tAccept : Time) (b : List Byte) : List LotCommand :=
  parseLot session lsn tAccept (b.length / 8 + 1) 0 b

/-- The effect of one command of a lot. -/
def lotCommand (s : State) (c : LotCommand) : State :=
  match c.body with
  | .alloc seam size => allocCmd s c.ctx seam.toNat size
  | .free base => freeCmd s c.ctx base
  | .descCreate r => descCreateCmd s c.ctx r
  | .descDestroy h => descDestroyCmd s c.ctx h.toNat
  | .put a d => putCmd s c.ctx a d
  | .get a n => getCmd s c.ctx a n
  | .graphLoad a n => graphLoadCmd s c.ctx a n
  | .graphUnload h => graphUnloadCmd s c.ctx h.toNat
  | .run h j r => runCmd s c.ctx h.toNat j r
  | .cancel j => cancelCmd s c.ctx j
  | .malformed op status => failCmd s c.ctx op status

/-- Granules that a command's response takes in the log at most (R344, R347). -/
def responseRoom : LotBody → Nat
  | .get _ n => granulesOf (24 + min n 65536)
  | _ => 1

/-- Whether the next command of a session may execute (R249, R347, R350): no earlier command of it waits for jobs, the
response log has room, and the module is in service. -/
def mayExecute (s : State) (i : Nat) (c : LotCommand) : Bool :=
  !s.dep.out &&
  !(s.dep.waits.any fun w => w.ctx.session.val == i && deadNum w.ctx.index == deadNum c.ctx.index) &&
  respUsed s + responseRoom c.body ≤ respLogSize s

/-- The waiting commands of a session, executed in order as far as they may (R244, R296). -/
def drainSession (i : Nat) : Nat → State → State
  | 0, s => s
  | fuel + 1, s =>
    let x := getSession s i
    match x.backlog with
    | [] => s
    | c :: rest =>
      if mayExecute s i c then drainSession i fuel (lotCommand (setSession s i { x with backlog := rest }) c) else s

/-- The waiting commands of a closed session, executed in order as far as they may; those left. -/
def drainOrphans : List LotCommand → State → List LotCommand × State
  | [], s => ([], s)
  | c :: rest, s =>
    if mayExecute s c.ctx.session.val c then drainOrphans rest (lotCommand s c) else (c :: rest, s)

/-- Every session's waiting commands, those of closed sessions first. -/
def drainAll (s : State) : State :=
  let r := s.port.orphans.foldl (fun (p : List (List LotCommand) × State) l =>
    let q := drainOrphans l p.2
    (if q.1 = [] then p.1 else p.1 ++ [q.1], q.2)) ([], s)
  let s := { r.2 with port := { r.2.port with orphans := r.1 } }
  (s.port.sessions.map (·.1)).foldl (fun s i => drainSession i (getSession s i).backlog.length s) s

end Sys2Proof.Machine
end

