-- ==== Sys2Proof/Machine/NodeStart.lean ====
section
/-! DEFINITION. JOB_START and NODE_START: run-time lengths, lists, masks, the path, the split, and the tasks of a node and
how they are dealt (R91, R92, R104, R105, R134, R140, R144, R246, R261 to R269). -/

namespace Sys2Proof.Machine

/-! ## JOB_START -/

/-- JOB_START (R246): the first job of its graph starts. -/
def startJob (s : State) (key : Nat) : State :=
  match getJob s key with
  | none => s
  | some j =>
    let first := (s.dep.jobs.find? fun x => x.graph == j.graph).map (·.key)
    if !s.dep.out && j.state = .queued && first = some key then updJob s key fun j => { j with state := .running }
    else s

def execJobStart (job : Nat) (s : State) : Host.Outcome State Fault Refusal :=
  .next (startJob s job)

/-! ## Batch elements -/

/-- The descriptor slot that element `b` of an operand names (R262, R264); none for an absent operand or an index out of
bounds. -/
def elemSlot (s : State) (g : Image) (o : Operand) (b : Nat) : Option Nat :=
  match o with
  | .absent => none
  | .desc d => some d
  | .list l =>
    if l.kind = 0 then (l.entries[b]?).bind (poolSlot g)
    else
      match (l.entries[0]?).bind (poolSlot g) with
      | some t => match descAt s t with
        | some d =>
          let v := indexElem s d b
          if 0 ≤ v ∧ v < (g.pool.length : Nat) then poolSlot g v.toNat else none
        | none => none
      | none => none

/-- Whether a DYNAMIC list of a node gives an index out of bounds for element `b` (R264). -/
def elemSkipped (s : State) (g : Image) (n : Node) (b : Nat) : Bool :=
  (batchLists g n).any fun l => l.kind == 1 && (elemSlot s g (.list l) b).isNone

/-- The descriptor of element `b` of a slot. -/
def elemDesc (s : State) (g : Image) (n : Node) (k b : Nat) : Option Desc :=
  (elemSlot s g (operandOf g n k) b).bind (descAt s)

/-- The weight descriptor slots of element `b` of a product, in column order (R262, R263). -/
def weightSlots (s : State) (g : Image) (n : Node) (b : Nat) : List Nat :=
  match operandOf g n 1 with
  | .list l => if l.use = 1 then operandSlots g (.list l) else (elemSlot s g (.list l) b).toList
  | o => (elemSlot s g o b).toList

/-- The weight descriptors of element `b` of a product, in column order. -/
def weightDescs (s : State) (g : Image) (n : Node) (b : Nat) : List Desc :=
  (weightSlots s g n b).filterMap (descAt s)

/-- M, K and N of element `b` by its extents on this module. -/
def elemShape (s : State) (g : Image) (n : Node) (b : Nat) : Nat × Nat × Nat :=
  let ws := weightDescs s g n b
  let m := ((elemDesc s g n 0 b).map fun d => extentHere s g d 1).getD 1
  let k := (ws.head?.map fun d => extentHere s g d 0).getD 0
  (m, k, (ws.map fun d => extentHere s g d 1).sum)

/-! ## Run-time lengths -/

/-- A run-time length clamped to its static extent, with the number of clamps (R266). -/
def clampLen (v : Int) (ext : Nat) : Nat × Nat :=
  if v < 0 then (0, 1) else if (ext : Int) < v then (ext, 1) else (v.toNat, 0)

/-- The length in force of a dimension (R265, R266): 0 for M, 1 for K, 2 for N. -/
def lenOf (s : State) (g : Image) (n : Node) (b dim ext : Nat) : Nat × Nat :=
  let i := n.lenIdx.getD dim refAbsent
  if i = refAbsent then (ext, 0)
  else
    match operandDesc s g n 6 with
    | some d => clampLen (indexElem s d (i.toNat + b)) ext
    | none => (ext, 0)

/-- L_M, L_K and L_N of element `b`, with the clamps (R265, R266). -/
def lengths (s : State) (g : Image) (n : Node) (b : Nat) : (Nat × Nat × Nat) × Nat :=
  let sh := elemShape s g n b
  let m := lenOf s g n b 0 sh.1
  let k := lenOf s g n b 1 sh.2.1
  let c := lenOf s g n b 2 sh.2.2
  ((m.1, k.1, c.1), m.2 + k.2 + c.2)

/-- The set bits of the mask operand's bitmap that begins at byte `first` and has `len` bits (R261). -/
def maskBits (s : State) (g : Image) (n : Node) (first len : Nat) : List Nat :=
  match operandDesc s g n 7 with
  | some d => (List.range len).filter (bitmapBit s d first)
  | none => []

/-- The masked rows, reduction positions and columns of a product, as its run reads them (R261, R265). -/
def readMasks (s : State) (g : Image) (n : Node) : List Nat × List Nat × List Nat :=
  let (k, m, c) := staticShape s g n
  (maskBits s g n 0 m, maskBits s g n ((m + 7) / 8) k, maskBits s g n ((m + 7) / 8 + (k + 7) / 8) c)

/-! ## The split -/

/-- Segments of a reduction (R104). -/
def segCount (k : Nat) : Nat :=
  (k - 1) / 2 ^ 24 + 1

/-- Weight tiles along a reduction of `k` positions. -/
def weightTiles (gain k : Nat) : Nat :=
  (k + 64 * gain - 1) / (64 * gain)

/-- First tile of part `i` of `n` over `t` tiles (R104, R105). -/
def partStart (i t n : Nat) : Nat :=
  i * t / n

/-- The weight tiles of segment `j`, part `i` (R104, R105). -/
def partTiles (t segs split j i : Nat) : List Nat :=
  let a := partStart j t segs
  let n := partStart (j + 1) t segs - a
  (List.range (partStart (i + 1) n split - partStart i n split)).map fun x => a + partStart i n split + x

/-- The split used (R105, R267): within the tiles of the shortest segment, 1 for none. -/
def splitUsed (want t segs : Nat) : Nat :=
  let short := (List.range segs).foldl (fun a j => min a (partStart (j + 1) t segs - partStart j t segs)) t
  max 1 (min (max 1 want) short)

/-! ## The path -/

/-- Whether a descriptor's bytes touch a rehomed granule (R134). -/
def touchesHome (s : State) (d : Desc) : Bool :=
  let r := descSpan d
  s.dep.voids.any fun v => v.home.isSome && decide (v.gran * 4096 < r.1 + r.2) && decide (r.1 < v.gran * 4096 + 4096)

/-- The seam whose DRAM holds the whole reduction run of a column of a weight tensor with `k` positions (R134). -/
def columnSeam (d : Desc) (k c : Nat) : Option Nat :=
  let a := unitAddr d [0, c]
  let z := unitAddr d [k - 1, c]
  match dramSeam (min a z), dramSeam (max a z + descUnit d - 1) with
  | some x, some y => if x = y then some x else none
  | _, _ => none

/-- Whether a seam has an adit unit that is not fenced (R139). -/
def seamHasAdit (s : State) (m : Nat) : Bool :=
  (List.range 4).any fun u => !s.dep.fences.adits.contains (4 * m + u)

/-- Whether a weight tensor may be read by the adit units (R134, R139): its layout is one that the loader accepts, each
column's reduction run lies in one seam, which has a unit in service, and none of its granules is rehomed. -/
def aditWeights (s : State) (g : Image) (d : Desc) : Bool :=
  isArraySource d.format && d.layout != layPi64 && !touchesHome s d &&
  (List.range (extentHere s g d 1)).all fun c =>
    match columnSeam d (extentHere s g d 0) c with
    | some m => seamHasAdit s m
    | none => false

/-- Whether element `b` of a MATMUL with `m` rows may run on the adit path (R134). -/
def aditEligible (s : State) (g : Image) (n : Node) (b m : Nat) : Bool :=
  n.op == 0x01 && 1 ≤ m && m ≤ 8 && (weightDescs s g n b).all (aditWeights s g)

/-- Whether a probe that is due takes an operation of `m` rows (R141): the next one with M = T_s, or, upward, with
M = T_s + 1. -/
def probeTakes (s : State) (n : Node) (st : Stage) (m : Nat) : Bool :=
  nodePath n == 0 && st.probeDue && s.pwr.config.aditAdapt &&
  (if st.probeUp then st.threshold < 8 && m == st.threshold + 1 else m == st.threshold)

/-- The path of an element (R140, R141): true for the adit path; a probe takes the other path. -/
def takesAdit (s : State) (g : Image) (n : Node) (st : Stage) (b m : Nat) : Bool :=
  aditEligible s g n b m &&
  match nodePath n with
  | 1 => true
  | 2 => false
  | _ => decide (m ≤ st.threshold) != probeTakes s n st m

/-- The activation that every output of a node feeds, if it feeds one (R144). -/
def actOf (g : Image) (i : Nat) : Option Node :=
  match (g.edges.filter fun e => e.producer == i).map (·.consumer) with
  | c :: rest => if rest.all (· == c) then
      match g.nodes[c]? with | some n => if n.op = 0x10 then some n else none | none => none
    else none
  | [] => none

/-- Whether an activation is constant on (−∞, t] (R255). -/
def constantBelow (a : Node) (t : Word) : Bool :=
  let v := decodeF fp32 t.toNat
  match a.variant with
  | 1 | 2 => relF .le v (.fin false 0 0)
  | 3 => relF .le v (decodeF fp32 a.thresh.toNat)
  | _ => false

/-- Whether a requested assay pass does not run for an element, so that the record says so (R144). -/
def assayIgnored (s : State) (g : Image) (i : Nat) (n : Node) (b k : Nat) (adit : Bool) : Bool :=
  nodeAssay n &&
  (adit || 2 ^ 24 < k ||
   (match elemDesc s g n 0 b with | some a => decide (planeCount a n < 4) | none => false) ||
   (match actOf g i with | some a => !nodeMargin n && !constantBelow a n.thresh | none => true))

/-! ## Tasks -/

/-- Live, unmasked rows of row tile `rt`. -/
def liveRows (maskM : List Nat) (rt m : Nat) : Nat :=
  ((List.range 64).filter fun r => 64 * rt + r < m && !maskM.contains (64 * rt + r)).length

/-- Whether the BLK64 bit of weight tile (kt, nt) is set (R84). -/
def blkBit (s : State) (g : Image) (n : Node) (cols kt nt : Nat) : Bool :=
  match operandDesc s g n 4 with
  | some d => n.op == 0x01 && bitmapBit s d 0 (kt * ((cols + 63) / 64) + nt)
  | none => false

/-- The weight tiles of part `i` of segment `j` that run in column tile `ct` (R85, R104, R105). -/
def runTiles (s : State) (g : Image) (n : Node) (cols t segs split j i ct : Nat) : List Nat :=
  (partTiles t segs split j i).filter fun kt => !blkBit s g n cols kt ct

/-- r_t of R91: 2 for MAC2. -/
def passCount (n : Node) (w : Option Desc) : Nat :=
  if n.op = 0x01 ∧ (w.map fun d => weightWidth d n).getD 8 = 16 then 2 else 1

/-- The array-path tasks of element `b`: one block and one part each (R260, R268), with the cost of R91. A block is cut at
the edge of the output (R267). -/
def arrayTasks (s : State) (g : Image) (n : Node) (p : NodePlan) (b : Nat) (len : Nat × Nat × Nat) (split : Nat) :
    List TaskDef :=
  let (m, k, c) := len
  let sh := elemShape s g n b
  let ws := weightDescs s g n b
  let gain := if n.op = 0x02 then 1 else (ws.head?.map fun d => lineGain (lineOfLayout d)).getD 1
  let t := weightTiles gain k
  let segs := segCount k
  let pc := ((elemDesc s g n 0 b).map fun a => planeCount a n).getD 8
  let rt := passCount n ws.head?
  let masks := (readMasks s g n).1
  let rts := (m + 63) / 64
  let cts := (c + 63) / 64
  let bm := max 1 p.blockM
  let bn := max 1 p.blockN
  (List.range ((rts + bm - 1) / bm)).flatMap fun r => (List.range ((cts + bn - 1) / bn)).flatMap fun ct =>
    let hm := min bm (rts - bm * r)
    let hn := min bn (cts - bn * ct)
    (List.range segs).flatMap fun j => (List.range split).map fun i =>
      let cost := ((List.range hm).flatMap fun x => (List.range hn).map fun y =>
        (runTiles s g n sh.2.2 t segs split j i (bn * ct + y)).length *
          max 66 ((liveRows masks (bm * r + x) m + 1) * pc * rt)).sum
      { elem := b, rowTile := bm * r, colTile := bn * ct, part := j * split + i, cost := cost,
        blockM := hm, blockN := hn }

/-- The adit-path tasks of element `b`: one column group each (R137). -/
def aditTasks (b : Nat) (len : Nat × Nat × Nat) : List TaskDef :=
  (List.range ((len.2.2 + 63) / 64)).map fun ct => { elem := b, rowTile := 0, colTile := ct, part := 0, cost := len.2.1 }

/-- Rows of a vector operator's tensor: the product of its extents above dimension 0. -/
def vectorRows (s : State) (g : Image) (d : Desc) : Nat :=
  ((List.range (d.rank - 1)).map fun k => extentHere s g d (k + 1)).prod

/-- Entries of rows (or columns) `first` to `first + 63` by a merge operand's pointers, as ceil(entries / 8) summed (R91). -/
def pointerCost (s : State) (d : Desc) (first : Nat) : Nat :=
  ((List.range 64).map fun i =>
    if first + i + 1 < extentOf d 0 then
      (elemBits s d [first + i + 1] - elemBits s d [first + i] + 7) / 8
    else 0).sum

/-- The tasks of a MERGE: one output tile each (R88, R91). -/
def mergeTasks (s : State) (g : Image) (n : Node) : List TaskDef :=
  let part (k i : Nat) : Option Desc := match operandOf g n k with
    | .list l => ((l.entries[i]?).bind (poolSlot g)).bind (descAt s)
    | _ => none
  match part 0 0, part 1 0 with
  | some a, some b =>
    (List.range ((extentOf a 0 - 1 + 63) / 64)).flatMap fun r => (List.range ((extentOf b 0 - 1 + 63) / 64)).map fun c =>
      { elem := 0, rowTile := r, colTile := c, part := 0,
        cost := 64 * pointerCost s a (64 * r) + 64 * pointerCost s b (64 * c) }
  | _, _ => []

/-- The tasks of an operator that is no product (R268): runs of 64 rows, or commands. -/
def otherTasks (s : State) (g : Image) (n : Node) (b scatter : Nat) : List TaskDef :=
  if n.op = 0x03 then mergeTasks s g n
  else if n.op = 0x23 then
    (List.range (max 1 scatter)).map fun i =>
      { elem := b, rowTile := 0, colTile := 0, part := b * max 1 scatter + i, cost := 1 }
  else if isVectorOp n then
    match elemDesc s g n 0 b with
    | some d => (List.range ((vectorRows s g d + 63) / 64)).map fun r =>
        { elem := b, rowTile := r, colTile := 0, part := 0, cost := 1 }
    | none => [{ elem := b, rowTile := 0, colTile := 0, part := 0, cost := 1 }]
  else [{ elem := b, rowTile := 0, colTile := 0, part := 0, cost := 1 }]

/-! ## Dealing -/

/-- A task put before the first one that is cheaper: descending cost, ties in the order of the tiles (R92). -/
def insertTask (t : TaskDef) : List TaskDef → List TaskDef
  | [] => [t]
  | x :: r => if x.cost < t.cost then t :: x :: r else x :: insertTask t r

/-- Tasks sorted for dealing (R92). -/
def sortTasks (l : List TaskDef) : List TaskDef :=
  l.foldl (fun acc t => insertTask t acc) []

/-- The place of the `i`th task in snake order over `n` seams (R92). -/
def snake (n i : Nat) : Nat :=
  let r := i % (2 * n)
  if r < n then r else 2 * n - 1 - r

/-- The tasks of each of `n` seams, in dealing order: an adit task goes to the seam that holds its weights, which the plan
includes (R92, R137, R259). -/
def deal (n : Nat) (own : TaskDef → Option Nat) (l : List TaskDef) : List (List TaskDef) :=
  let placed := (List.range l.length).filterMap fun i => l[i]?.map fun t => ((own t).getD (snake n i), t)
  (List.range n).map fun k => (placed.filter fun p => p.1 == k).map (·.2)

/-! ## NODE_START -/

/-- Whether every DEP edge into a node is satisfied (R251, R265): a producer that runs here has completed its tasks. -/
def depsSatisfied (s : State) (g : Image) (j : Job) (i : Nat) : Bool :=
  g.edges.all fun e =>
    !(e.kind == 0 && e.consumer == i && runsHere s g e.producer) ||
    (let r := tget j.nodes {} e.producer
     r.started && r.doneTasks == r.total)

/-- Whether the seams and counters of a plan can be bound (R259, R269): unfenced seams in ascending order, free counters. -/
def planOk (s : State) (p : NodePlan) : Bool :=
  p.seams != [] && (p.seams.map (·.1.val)).Pairwise (· < ·) &&
  p.seams.all fun x => !s.dep.fences.seams.contains x.1.val && !(getCounter s x.1.val x.2.1.val).active && 0 < x.2.2

/-- What NODE_START finds for one batch element. -/
structure ElemPlan where
  len : Nat × Nat × Nat
  clamps : Nat
  skipped : Bool
  adit : Bool
  split : Nat
  segs : Nat
  tiles : Bool
  ignored : Bool
  tasks : List TaskDef
deriving DecidableEq, Repr

/-- One batch element of a node read, clamped and cut into tasks (R264 to R268). -/
def planElem (s : State) (g : Image) (i : Nat) (n : Node) (st : Stage) (p : NodePlan) (b : Nat) : ElemPlan :=
  if elemSkipped s g n b then ⟨(0, 0, 0), 0, true, false, 0, 0, false, false, []⟩
  else if n.op = 0x01 ∨ n.op = 0x02 then
    let (len, clamps) := lengths s g n b
    let (m, k, c) := len
    let adit := takesAdit s g n st b m
    let gain := if n.op = 0x02 then 1 else ((weightDescs s g n b).head?.map fun d => lineGain (lineOfLayout d)).getD 1
    let want := if splitPinned n then n.split else max 1 (min 256 p.split)
    let split := splitUsed want (weightTiles gain k) (segCount k)
    let tiles := 0 < m && 0 < c
    ⟨len, clamps, false, adit, split, segCount k, tiles, tiles && assayIgnored s g i n b k adit,
     if !tiles then [] else if adit then aditTasks b len else arrayTasks s g n p b len split⟩
  else
    let count := if scatterPinned n then n.scatterTasks else p.scatterTasks
    ⟨(0, 0, 0), 0, false, false, 0, 0, false, false, otherTasks s g n b count⟩

/-- The descriptors that a node's operands name, by element and operand slot (R262, R264, R265). -/
def readNames (s : State) (g : Image) (n : Node) : List (Nat × Nat × Nat) :=
  (List.range (batchCount g n)).flatMap fun b => (List.range 6).filterMap fun k =>
    (elemSlot s g (operandOf g n k) b).map fun d => (b, k, d)

/-- The run of a node from what was read and what its elements gave (R260, R265, R266, R275). -/
def makeRun (s : State) (g : Image) (n : Node) (st : Stage) (p : NodePlan) (es : List ElemPlan) : NodeRun :=
  let live := es.filter fun e => !e.skipped
  let split := (live.map (·.split)).foldl max 0
  let counts := addCount (addCount (addCount [] 4 (es.map (·.clamps)).sum) cntIdxOob (es.length - live.length))
    cntAssayIgnored (bitOf (es.any (·.ignored)))
  let masks := readMasks s g n
  { started := true
    startedAt := s.clk.now
    elems := List.range es.length
    names := readNames s g n
    maskM := masks.1
    maskK := masks.2.1
    maskN := masks.2.2
    kOuter := p.kOuter
    threshold := st.threshold
    paths := (List.range es.length).filterMap fun i => es[i]?.map fun e => (i, e.adit)
    probed := live.any fun e => e.tiles && probeTakes s n st e.len.1
    estimate := ((es.flatMap (·.tasks)).map (·.cost)).sum
    lens := (List.range es.length).filterMap fun i => es[i]?.map fun e => (i, e.len.1, e.len.2.1, e.len.2.2)
    skipped := (List.range es.length).filter fun i => (es[i]?.map (·.skipped)).getD false
    split := split
    segs := (live.map (·.segs)).foldl max 0
    splitCut := splitPinned n && live.any fun e => e.tiles && e.split < n.split
    adit := live.any fun e => e.tiles && e.adit
    arrays := live.any fun e => e.tiles && !e.adit
    total := (es.map (·.tasks.length)).sum
    counts := if live.any (fun e => 1 < e.segs) then addCount counts cntLongSum 1 else counts }

/-- The seam that holds the weights of an adit task's column group (R137, R263). -/
def groupSeam (s : State) (g : Image) (n : Node) (t : TaskDef) : Option Nat :=
  let slots := weightSlots s g n t.elem
  let slices := slots.filterMap fun k => (descAt s k).map fun d => (k, extentHere s g d 1)
  match (sliceCols slices t.colTile).head?.join with
  | some c => (descAt s c.1).bind fun d => columnSeam d (extentHere s g d 0) c.2
  | none => none

/-- The seam of a task that has one of its own, as a place in the plan; none for a task that any seam may take. -/
def ownSeam (s : State) (g : Image) (n : Node) (es : List ElemPlan) (p : NodePlan) (t : TaskDef) : Option Nat :=
  match es[t.elem]? with
  | some e => if e.adit then (groupSeam s g n t).bind fun m => p.seams.findIdx? fun x => x.1.val == m else none
  | none => none

/-- Whether a plan has the seams of all of a node's column groups (R137, R259). -/
def seamsCover (s : State) (g : Image) (n : Node) (es : List ElemPlan) (p : NodePlan) : Bool :=
  es.all fun e => !e.adit || e.tasks.all fun t => (ownSeam s g n es p t).isSome

/-- The seams in which the weights of a MATMUL lie. -/
def weightSeams (s : State) (g : Image) (n : Node) : List Nat :=
  if n.op = 0x01 then
    ((List.range (batchCount g n)).flatMap fun b => (weightDescs s g n b).filterMap fun d => dramSeam d.base).eraseDups
  else []

/-- Whether a plan's group has cores of every seam in service in which a MATMUL's weights lie, where they lie in several
(R259). -/
def groupCovers (s : State) (g : Image) (n : Node) (p : NodePlan) : Bool :=
  let l := weightSeams s g n
  decide (l.length ≤ 1) ||
  l.all fun m => p.seams.any (fun x => x.1.val == m) || (upCores s).all fun c => c.seam.val != m

/-- A task with its cost estimate rescaled by the ratio of measured to estimated slots of the stage's last run (R92, log
entry 148). -/
def rescale (st : Stage) (t : TaskDef) : TaskDef :=
  { t with cost := t.cost * st.measured / max 1 st.estimated }

/-- A work counter bound to a node with its tasks (R269). -/
def bindCounter (job node : Nat) (s : State) (x : (Fin 16 × Fin 64 × Nat) × List TaskDef) : State :=
  setCounter s x.1.1.val x.1.2.1.val
    { limit := x.2.length, node := node, job := job, group := x.1.2.2, active := true, tasks := x.2 }

/-- Whether a node of a job reads a void granule (R340). -/
def readsVoid (s : State) (g : Image) (n : Node) : Bool :=
  s.dep.voids.any fun v => v.void && (nodeReads g n).any fun d => descTouches s g.grid d v.gran

/-- NODE_START (R265): the node of a running job is read, cut and dealt; a node that reads a void granule has its job
held (R340). -/
def startNode (s : State) (key i : Nat) (p : NodePlan) : State :=
  match getJob s key with
  | none => s
  | some j =>
    match jobImage s j with
    | none => s
    | some g =>
      match g.nodes[i]? with
      | none => s
      | some n =>
        if s.dep.out || j.state != .running || j.ending.isSome || !runsHere s g i || (tget j.nodes {} i).started ||
            !depsSatisfied s g j i || !planOk s p then s
        else if readsVoid s g n then holdJob s key 1
        else
          let st := getStage s j.graph i
          let es := (List.range (batchCount g n)).map (planElem s g i n st p)
          if !seamsCover s g n es p || !groupCovers s g n p then s
          else
            let run := makeRun s g n st p es
            let lists := deal p.seams.length (ownSeam s g n es p) (sortTasks ((es.flatMap (·.tasks)).map (rescale st)))
            let s := updRun s key i fun _ => run
            let s := if run.probed then setStage s j.graph i { st with probeDue := false, probeUp := !st.probeUp } else s
            (p.seams.zip lists).foldl (bindCounter key i) s

def execNodeStart (job : Nat) (node : Nat) (plan : NodePlan) (s : State) : Host.Outcome State Fault Refusal :=
  .next (startNode s job node plan)

end Sys2Proof.Machine
end

