-- ==== Sys2Proof/Machine/Work.lean ====
section
/-! DEFINITION. What the sequencers take from a task (R256, R265, R268): its operands, weight tiles, rows, columns and output
tiles, by what its node's run has read. -/

namespace Sys2Proof.Machine

/-! ## The task -/

/-- A task with its node's run: job, stage, graph image, node, run and definition. -/
structure TaskCtx where
  job : Nat
  stage : Nat
  graph : Nat
  image : Image
  node : Node
  run : NodeRun
  task : TaskDef
deriving DecidableEq, Repr

/-- Task `i` of a work counter. -/
def counterCtx (s : State) (c : WorkCounter) (i : Nat) : Option TaskCtx :=
  match getJob s c.job, c.tasks[i]? with
  | some j, some d =>
    match jobImage s j, jobNode s j c.node with
    | some g, some n => some ⟨c.job, c.node, j.graph, g, n, tget j.nodes {} c.node, d⟩
    | _, _ => none
  | _, _ => none

/-- The task of a slot. -/
def taskCtx (s : State) (t : SlotId) : Option TaskCtx :=
  let x := getSlot s t
  if x.state = .empty then none else counterCtx s (getCounter s t.core.seam.val x.counter) x.index

/-! ## Operands -/

/-- The descriptor slot that operand slot `k` names for the task's element, as the run read it (R264, R265). -/
def ctxSlot (c : TaskCtx) (k : Nat) : Option Nat :=
  (c.run.names.find? fun e => e.1 == c.task.elem && e.2.1 == k).map (·.2.2)

/-- The descriptor of an operand of the task. -/
def ctxDesc (s : State) (c : TaskCtx) (k : Nat) : Option Desc :=
  (ctxSlot c k).bind (descAt s)

/-- L_M, L_K and L_N of the task's element (R265, R266). -/
def ctxLens (c : TaskCtx) : Nat × Nat × Nat :=
  match c.run.lens.find? fun e => e.1 == c.task.elem with
  | some e => e.2
  | none => (0, 0, 0)

/-- The weight descriptors of the task with their columns on this module, in column order (R198, R263). -/
def ctxSlices (s : State) (c : TaskCtx) : List (Nat × Nat) :=
  let slots := match operandOf c.image c.node 1 with
    | .list l => if l.use = 1 then operandSlots c.image (.list l) else (ctxSlot c 1).toList
    | _ => (ctxSlot c 1).toList
  slots.filterMap fun k => (descAt s k).map fun d => (k, extentHere s c.image d 1)

/-- The first weight descriptor of the task, whose layout and format all slices share. -/
def ctxWeight (s : State) (c : TaskCtx) : Option Desc :=
  ((ctxSlices s c).head?.map (·.1)).bind (descAt s)

/-- The weight width of the task (R257). -/
def ctxWidth (s : State) (c : TaskCtx) : Nat :=
  ((ctxWeight s c).map fun d => weightWidth d c.node).getD 8

/-- The plane count of the task (R257). -/
def ctxPlanes (s : State) (c : TaskCtx) : Nat :=
  ((ctxDesc s c 0).map fun d => planeCount d c.node).getD 8

/-- The mode of the task's weight tiles (R42, R57, R253). -/
def ctxMode (s : State) (c : TaskCtx) : ArrayMode :=
  if c.node.op = 0x02 then (modeOfCode c.node.variant).getD .absdiff
  else if ctxWidth s c = 16 then .mac2 else .mac

/-- The gain of the task's line mode (R70, R72). -/
def ctxGain (s : State) (c : TaskCtx) : Nat :=
  if c.node.op = 0x02 then 1 else ((ctxWeight s c).map fun d => lineGain (lineOfLayout d)).getD 1

/-! ## Tiles, rows and columns -/

/-- The masked columns of column tile `ct`: those of the job and those at or beyond L_N (R56, R267). -/
def deadCols (c : TaskCtx) (ct : Nat) : List Nat :=
  (List.range 64).filter fun n => decide ((ctxLens c).2.2 ≤ 64 * ct + n) || c.run.maskN.contains (64 * ct + n)

/-- The live rows of row tile `rt`: within L_M and not masked (R54, R267, R414). -/
def rowsOfTile (c : TaskCtx) (rt : Nat) : List Nat :=
  (List.range 64).filter fun m => decide (64 * rt + m < (ctxLens c).1) && !c.run.maskM.contains (64 * rt + m)

/-- Part `part` of weight tile (kt, ct) of the task. -/
def tileSrcOf (s : State) (c : TaskCtx) (ct kt part : Nat) : TileSrc :=
  { kt := kt, cols := sliceCols (ctxSlices s c) ct, mode := ctxMode s c, width := ctxWidth s c, part := part,
    extK := ((ctxWeight s c).map fun d => extentHere s c.image d 0).getD 0, lenK := (ctxLens c).2.1,
    maskK := c.run.maskK, dead := deadCols c ct }

/-- Part `part` of weight tile (kt, ct) of the task, loaded. -/
def loadOf (s : State) (c : TaskCtx) (ct kt part : Nat) : Option TileLoad :=
  let src := tileSrcOf s c ct kt part
  (srcHead s src).map fun w => buildTile s w.1 w.2 src

/-- The parts of weight tile (kt, ct) of the task (R75). -/
def partsOf (s : State) (c : TaskCtx) (ct kt : Nat) : Nat :=
  ((loadOf s c ct kt 0).map (·.tile.parts)).getD 1

/-- Whose tile a weight tile is (log entry 116). -/
def weightKey (c : TaskCtx) (ct kt part : Nat) : List Nat :=
  [c.job, c.stage, c.task.elem, ct, kt, part]

/-- Where the activations of row tile `rt` against weight tile `kt` come from. -/
def rowSrcOf (s : State) (c : TaskCtx) (rt kt : Nat) : Option RowSrc :=
  match ctxSlot c 0, ctxDesc s c 0 with
  | some k, some d =>
    some { desc := k, row := 64 * rt, kt := kt, planes := ctxPlanes s c, extK := extentHere s c.image d 0,
           lenK := (ctxLens c).2.1, maskK := c.run.maskK }
  | _, _ => none

/-- The aligned vectors of row `m` of row tile `rt` against weight tile `kt` (R36, R46, R76, R77). -/
def ctxRow (s : State) (c : TaskCtx) (rt kt m : Nat) : RowLoad :=
  match rowSrcOf s c rt kt, ctxDesc s c 0 with
  | some src, some d => buildRow s d (64 * ctxGain s c) { src with row := src.row + m }
  | _, _ => { vectors := [] }

/-- Weight tiles along K, segments and split of the task (R104, R105, R267). -/
def ctxCut (s : State) (c : TaskCtx) : Nat × Nat × Nat :=
  let k := (ctxLens c).2.1
  let t := weightTiles (ctxGain s c) k
  (t, segCount k, splitUsed c.run.split t (segCount k))

/-- Segment and part of the task. -/
def ctxPart (s : State) (c : TaskCtx) : Nat × Nat :=
  let split := (ctxCut s c).2.2
  (c.task.part / max 1 split, c.task.part % max 1 split)

/-- Columns of the whole output on this module. -/
def ctxCols (s : State) (c : TaskCtx) : Nat :=
  ((ctxSlices s c).map (·.2)).sum

/-- The weight tiles that the task runs in column tile `ct`, in reduction order, and the first one after its range (R85,
R100, R105). An assay tile takes the whole reduction, for its bounds are those of the whole entry (log entry 117). -/
def ctxTiles (s : State) (c : TaskCtx) (ct : Nat) (assay : Bool) : List Nat × Nat :=
  let (t, segs, split) := ctxCut s c
  let (j, i) := ctxPart s c
  let all := if assay then List.range t else partTiles t segs split j i
  (all.filter fun kt => !blkBit s c.image c.node (ctxCols s c) kt ct, ((all.getLast?).map (· + 1)).getD 0)

/-- Whether an output tile lies in the task's block (R260). -/
def inTaskBlock (c : TaskCtx) (rt ct : Nat) : Bool :=
  decide (c.task.rowTile ≤ rt) && decide (rt < c.task.rowTile + c.task.blockM) &&
  decide (c.task.colTile ≤ ct) && decide (ct < c.task.colTile + c.task.blockN)

/-- Whether the task runs on the arrays (R140, R268). -/
def onArrays (c : TaskCtx) : Bool :=
  (c.node.op == 0x01 || c.node.op == 0x02) &&
  !((c.run.paths.find? fun e => e.1 == c.task.elem).map (·.2)).getD false

/-- Whether the assay pass runs for the task (R144, R149, R151): requested, not ignored for its element, and not off. -/
def assayOn (s : State) (c : TaskCtx) : Bool :=
  nodeAssay c.node && onArrays c && !c.run.auditOff && (getStage s c.graph c.stage).assayOff == 0 &&
  !assayIgnored s c.image c.stage c.node c.task.elem (ctxLens c).2.1 false

/-- The table of assay sums of the task's weights, where it may be used: not stale, and its CRC32C holds (R146). -/
def freshTable (s : State) (c : TaskCtx) : Option AssayTable :=
  s.assays.find? fun t => t.slices == ctxSlices s c && !t.stale && !assayCrcBad s t

/-! ## Vat tiles of a task -/

/-- The vat tile of an output tile of a slot's task. -/
def findPart (s : State) (t : SlotId) (rt ct : Nat) (assay : Bool) : Option VatTile :=
  (getCore s t.core).tiles.find? fun v => v.slot == t.slot && v.rowTile == rt && v.colTile == ct && v.assay == assay

/-- The save record of an output tile of a slot's task. -/
def findSaved (x : TaskSlot) (rt ct : Nat) (assay : Bool) : Option SaveRecord :=
  x.saved.find? fun r => r.kept.rowTile == rt && r.kept.colTile == ct && r.kept.assay == assay

/-- The rows that an assay pass has masked in an output tile, once it has been bounded (R148). -/
def maskedRows (x : TaskSlot) (rt ct : Nat) : Option (List Nat) :=
  (x.rowMasks.find? fun e => e.1 == rt && e.2.1 == ct).map (·.2.2)

/-- The rows that the charges of an output tile stream: the live ones, in the full pass without those that the assay pass
masked, audited ones apart (R54, R148, R151). -/
def chargeRows (c : TaskCtx) (x : TaskSlot) (rt ct : Nat) (assay : Bool) : List Nat :=
  let off := if assay then [] else (maskedRows x rt ct).getD []
  (rowsOfTile c rt).filter fun m => !off.contains m || x.auditRows.contains (rt, ct, m)

/-- Whether the full pass of an output tile does not run: every row of it is masked by the assay pass (R148). -/
def fullyMasked (c : TaskCtx) (x : TaskSlot) (rt ct : Nat) : Bool :=
  (maskedRows x rt ct).isSome && chargeRows c x rt ct false == []

/-- Whether an output tile of a task is done with (log entry 127): its charges have completed, and so has every command that
waits for one of them, its write-back among them; no audit of it is to come. -/
def tileSpent (x : TaskSlot) (rt ct : Nat) : Bool :=
  let into (k : SlotCmd) : Bool := match k.cmd.work with
    | .charge r c _ assay => r == rt && c == ct && !assay
    | _ => false
  let ids := (List.range x.cmds.length).filter fun i => ((x.cmds[i]?).map into).getD false
  let users := x.cmds.filter fun k => !into k && k.cmd.deps.any ids.contains
  users != [] && users.all (·.done) && x.cmds.all (fun k => !into k || k.done) &&
  !x.auditRows.any fun e => e.1 == rt && e.2.1 == ct

/-- The weight tile after `kt` in a vat tile's range. -/
def tileAfter (v : VatTile) (kt : Nat) : Nat :=
  (v.tiles.find? fun k => decide (kt < k)).getD v.stop

/-- Whether `n` bytes at an offset lie in a task's working scratch, which its save area precedes (R166). -/
def inWork (x : TaskSlot) (off n : Nat) : Bool :=
  decide (x.base + x.saveBytes ≤ off) && decide (off + n ≤ x.base + x.saveBytes + x.workBytes)

end Sys2Proof.Machine
end

