-- ==== Sys2Proof/Machine/Array.lean ====
section
/-! DEFINITION. The bit-serial array (R33 to R63) with its tallies (R114 to R125) and the steps of its vat (R94 to R112). -/

namespace Sys2Proof.Machine

/-! ## Commands of a stream -/

/-- The charge that command `i` of a task asks for (R159): row tile, column tile, weight tile, and whether it is an assay
charge. -/
def chargeOf (x : TaskSlot) (i : Nat) : Option (Nat × Nat × Nat × Bool) :=
  match x.cmds[i]? with
  | some c =>
    match c.cmd.work with
    | .charge rt ct kt assay =>
      if c.cmd.unit == .array && c.issued && !c.done then some (rt, ct, kt, assay) else none
    | _ => none
  | none => none

/-- The slots of a core brought up to date, one of them RUNNING where one is READY (R161, R162). -/
def settle (s : State) (c : CoreId) : State :=
  ensureRunning (refreshSlots s c) c

/-- A command of a task marked as completed (R159). -/
def finishCmd (s : State) (t : SlotId) (i : Nat) : State :=
  let x := getSlot s t
  settle (setSlot s t { x with cmds := x.cmds.modify i fun c => { c with done := true } }) t.core

/-! ## Charges -/

/-- The vat tile that a charge of a slot goes to (R160, R164, R167, R319): the array is free and takes charges, the task
runs, and the tile is placed, initialised, not another array's, and has come to this weight tile. -/
def chargeTile (s : State) (a : ArrayId) (slot : Fin 4) (w : Nat × Nat × Nat × Bool) : Option VatTile :=
  let x := getArray s a
  let t : SlotId := ⟨a.core, slot⟩
  let (rt, ct, kt, assay) := w
  if arrayFenced s a || !coreUp s a.core || x.testing || x.charge.isSome || !isLiveDom s (.seam a.core.seam .aclk) ||
      (getSlot s t).state != .running then none
  else (findPart s t rt ct assay).filter fun v =>
    v.isOpen && v.ready && (v.array.isNone || v.array == some a.array) && v.failedOn != some a.array && v.nextTile == kt

/-- Whether the rows that an output tile's charges stream are known: an assay pass that runs has bounded the tile (R145,
R148). -/
def rowsKnown (s : State) (c : TaskCtx) (x : TaskSlot) (rt ct : Nat) (assay : Bool) : Bool :=
  assay || !assayOn s c || (maskedRows x rt ct).isSome

/-- The vat tile as a charge of one part of weight tile `kt` leaves it for the next: the next part, or the first part of
the next weight tile (R100, R111). -/
def advance (v : VatTile) (kt parts : Nat) : VatTile :=
  if v.nextPart + 1 < parts then { v with nextPart := v.nextPart + 1 }
  else { v with nextTile := tileAfter v kt, nextPart := 0 }

/-- A charge begun on an array: rows, in ascending order (log entry 93), tally sum and vat tile. One of a distance mode
without a row is complete at once (R62). -/
def beginCharge (s : State) (a : ArrayId) (c : TaskCtx) (slot : Fin 4) (cmd : Nat) (w : Nat × Nat × Nat × Bool) (v : VatTile)
    (src : RowSrc) : State :=
  let (rt, ct, kt, assay) := w
  let t : SlotId := ⟨a.core, slot⟩
  let rows := chargeRows c (getSlot s t) rt ct assay
  let next := advance v kt (partsOf s c ct kt)
  let none := rows == [] && isDistance (ctxMode s c)
  let s := setCal s a.core.seam.val { getCal s a.core.seam.val with lastCharge := s.clk.now }
  let s := markStarted s t
  if none then finishCmd (putTile s a.core { next with array := some a.array }) t cmd
  else
    let ch : Charge :=
      { slot := slot, cmd := cmd, tile := v.base, key := weightKey c ct kt v.nextPart, assay := assay, src := src,
        rows := rows }
    let s := setArray s a { getArray s a with charge := some ch, tallySum := [] }
    putTile s a.core { next with array := some a.array, checked := false }

/-- CHARGE_START (R160): a ready charge starts on a free array. A seam that is idle is woken first (R384). -/
def startCharge (s : State) (a : ArrayId) (slot : Fin 4) (cmd : Nat) : State :=
  let t : SlotId := ⟨a.core, slot⟩
  match chargeOf (getSlot s t) cmd, taskCtx s t with
  | some w, some c =>
    match chargeTile s a slot w, rowSrcOf s c w.1 w.2.2.1 with
    | some v, some src =>
      if !rowsKnown s c (getSlot s t) w.1 w.2.1 w.2.2.2 then s
      else
        let m := a.core.seam.val
        let k := getCal s m
        if !k.idle then beginCharge s a c slot cmd w v src
        else if k.waking then s
        else setCal (count s (calRegBase m) Ctr.CAL_WAKE_CNT 1) m { k with waking := true }
    | _, _ => s
  | _, _ => s

def execChargeStart (array : ArrayId) (slot : Fin 4) (cmd : Nat) (s : State) : Host.Outcome State Fault Refusal :=
  .next (startCharge s array slot cmd)

/-! ## Weight tiles -/

/-- The counters of metadata faults (R83, R93). -/
def countMd (s : State) (c : CoreId) (k : MdCounts) : State :=
  let b := spRegBase c
  let s := if k.drop = 0 then s else raise (count s b Ctr.SP_MD_DROP_CNT k.drop) b Flag.sp_MD_DROP
  let s := if k.dup = 0 then s else raise (count s b Ctr.SP_DUP_POS_CNT k.dup) b Flag.sp_DUP_POS
  if k.oob = 0 then s else raise (count s b Ctr.SP_IDX_OOB_CNT k.oob) b Flag.sp_IDX_OOB

/-- What a load counts: the metadata of a split tile with its first part only (R75, R83, log entry 27). -/
def loadCounts (l : TileLoad) (part : Nat) : MdCounts :=
  if l.badWl64 then { oob := 1 } else if part = 0 then l.md else {}

/-- Whether a tile of a mode takes both weight registers of an array, or the active one does (R42). -/
def takesBoth (x : ArrayState) (mode : ArrayMode) : Bool :=
  mode == .mac2 || x.active.any (·.mode == .mac2)

/-- Whether the charge of an array waits for the tile in its shadow registers (R40). -/
def shadowAwaited (x : ArrayState) : Bool :=
  x.charge.any fun ch => !ch.begun && x.shadow.any (ch.key == ·.key)

/-- The array with room for a new weight tile (R40 to R42): a shadow that no charge waits for; with MAC2 on either side both
registers are taken, so the array has drained and no charge of the old tile is under way. -/
def roomFor (s : State) (a : ArrayId) (mode : ArrayMode) : Option ArrayState :=
  let x := getArray s a
  if arrayFenced s a || x.testing || shadowAwaited x then none
  else if !takesBoth x mode then some x
  else if x.flights == [] && !x.charge.any (·.begun) then some { x with active := none } else none

/-- The part of weight tile `kt` that the array needs for a command (R75): that of the charge that waits for it, else the
part that its vat tile has come to. -/
def partToLoad (s : State) (a : ArrayId) (slot : Fin 4) (cmd : Nat) (w : Nat × Nat × Nat × Bool) : Nat :=
  let (rt, ct, kt, assay) := w
  let waiting := (getArray s a).charge.bind fun ch =>
    if ch.slot == slot && ch.cmd == cmd && !ch.begun then ch.key.getLast? else none
  waiting.getD (((findPart s ⟨a.core, slot⟩ rt ct assay).bind fun v =>
    if v.nextTile = kt then some v.nextPart else none).getD 0)

/-- The WL64 image of a weight tile that a descriptor stores in another layout, written into the task's working scratch, 64 B
aligned (R41, R81, R82, R115); none where it has no place there. -/
def placeImage (s : State) (t : SlotId) (stored : Bool) (off : Nat) (w : WeightTile) : Option State :=
  if stored then some s
  else if off % 64 = 0 ∧ inWork (getSlot s t) off (wl64Size w.width) = true then
    some (writeScratch s t.core off (wl64Image w))
  else none

/-- WEIGHT_TILE_LOAD (R41): the weight tile of a charge command written into the shadow registers. -/
def loadWeights (s : State) (a : ArrayId) (slot : Fin 4) (cmd image : Nat) : State :=
  let t : SlotId := ⟨a.core, slot⟩
  match chargeOf (getSlot s t) cmd, taskCtx s t with
  | some w, some c =>
    let part := partToLoad s a slot cmd w
    match loadOf s c w.2.1 w.2.2.1 part with
    | none => s
    | some l =>
      match roomFor s a l.tile.mode,
          placeImage s t ((ctxWeight s c).any fun d => d.layout == layWl64) image l.tile with
      | some x, some s =>
        let k := loadCounts l part
        let b := spRegBase a.core
        let s := countMd s a.core k
        let s := if 1 < l.tile.parts ∧ part = 0 then raise (count s b Ctr.SP_SPLIT_CNT 1) b Flag.sp_SPLIT else s
        let counts := addCount (addCount (addCount [] cntMdDrop k.drop) cntDupPos k.dup) cntIdxOob k.oob
        setArray s a { x with
          shadow := some { l.tile with kt := w.2.2.1, key := weightKey c w.2.1 w.2.2.1 part, counts := counts } }
      | _, _ => s
  | _, _ => s

def execWeightTileLoad (array : ArrayId) (slot : Fin 4) (cmd : Nat) (image : Nat) (s : State) :
    Host.Outcome State Fault Refusal :=
  .next (loadWeights s array slot cmd image)

/-! ## The feeder -/

/-- Bit `j` of an integer in two's complement. -/
def bitOfInt (v : Int) (j : Nat) : Bool :=
  v / (2 : Int) ^ j % 2 == 1

/-- The activation lines that a row receives (R71). -/
def rowLines (line r : Nat) : List Nat :=
  if line = 0 then [r] else (List.range 4).map (lineSel line r)

/-- The slots of a vector in the row queues, with their marks (R36, R42, R48, R58): the planes of each pass, in a distance
mode the compare planes and then the emission slots, which carry no bits. -/
def feedSlots (t : WeightTile) (v : Vector64) (swap : Bool) : List FeedSlot :=
  let plane (q : Nat) (high : Bool) (j : Nat) : FeedSlot :=
    { bits := (List.range 64).map fun r => (rowLines t.line r).map fun l => bitOfInt (v.elems.getD l 0) j
      top := j + 1 == q, swap := swap && !high && j == 0, high := high, emission := t.mode == .xorcount }
  let emission : FeedSlot := { bits := [], top := false, swap := false, high := false, emission := true }
  let planes (q : Nat) (high : Bool) : List FeedSlot := (List.range q).map (plane q high)
  match t.mode with
  | .mac => planes v.planes false
  | .mac2 => planes v.planes false ++ planes v.planes true
  | m =>
    let qc := comparePlanes m v.planes t.height
    planes qc false ++ List.replicate (slotsOf t v.planes - qc) emission

/-- An event of a charge's part counted with its vat tile (R275). -/
def tileCount (s : State) (c : CoreId) (base k n : Nat) : State :=
  match findTile s c base with
  | some t => if n = 0 then s else putTile s c { t with counts := addCount t.counts k n }
  | none => s

/-- The events of a table counted with a vat tile (R275). -/
def tileCounts (s : State) (c : CoreId) (base : Nat) (m : Table Nat) : State :=
  match findTile s c base with
  | some t => putTile s c { t with counts := mergeCounts t.counts m }
  | none => s

/-- The array as a vector of a charge finds it: where the active tile is not the charge's, the shadow becomes active, which
the swap mark does (R40). None while that vector has no weights. -/
def swapped (x : ArrayState) (ch : Charge) : Option (ArrayState × WeightTile) :=
  match x.active with
  | some t => if t.key == ch.key then some (x, t) else takeShadow
  | none => takeShadow
where
  /-- The shadow tile made active. -/
  takeShadow : Option (ArrayState × WeightTile) :=
    match x.shadow with
    | some t => if t.key == ch.key then some ({ x with active := some t, shadow := none, sel := !x.sel }, t) else none
    | none => none

/-- What the feeder sends into an array: the vector, the plane count that trimming starts from, its row in the tile, and
whether it is the tally vector and its charge's last. -/
structure Feed where
  vec : Vector64
  from_ : Nat
  row : Nat
  tally : Bool
  last : Bool
  swap : Bool
deriving DecidableEq, Repr

/-- A vector enters the array (R36, R46, R48, R51, R117, R149). -/
def enterVector (s : State) (a : ArrayId) (x : ArrayState) (t : WeightTile) (ch : Charge) (f : Feed) : State :=
  let b := arrRegBase a
  let n := slotsOf t f.vec.planes
  let sum := if f.tally then x.tallySum
    else if x.tallySum = [] then f.vec.elems else List.zipWith (· + ·) x.tallySum f.vec.elems
  let fl : Flight :=
    { elems := f.vec.elems, upper := f.vec.upper, lower := f.vec.lower, planes := f.vec.planes, row := f.row,
      tally := f.tally, weights := t, slot := ch.slot, cmd := ch.cmd, tile := ch.tile, last := f.last }
  let s := setArray s a { x with
    flights := x.flights ++ [fl], queue := feedSlots t f.vec f.swap, tallySum := sum, slotsLast := n, frozen := false,
    charge := if f.last then none else some ch }
  let s := count s b Ctr.ARR_VEC_CNT 1
  let s := count s b Ctr.ARR_PLANE_CNT n
  let s := count s b Ctr.ARR_TRIM_CNT (trimmedPlanes t f.from_ f.vec.planes)
  if ch.tile = noTile then s
  else
    let s := slotCount s ⟨a.core, ch.slot⟩ cntSlots n
    if ch.assay then slotCount s ⟨a.core, ch.slot⟩ cntAssaySpent n else s

/-- The PI64 records of a vector, for an activation source that is not stored in PI64, written into the task's working
scratch (R179, R180); none where they have no place there. The work of a discarded part has no scratch any more. -/
def placeRecords (s : State) (a : ArrayId) (ch : Charge) (stored : Bool) (off : Nat) (bs : List Byte) : Option State :=
  if stored ∨ ch.tile = noTile then some s
  else if off % 8 = 0 ∧ inWork (getSlot s ⟨a.core, ch.slot⟩) off bs.length = true then
    some (writeScratch s a.core off bs)
  else none

/-- The activations of a charge. A descriptor that is gone, which only discarded work meets, gives the empty one. -/
def chargeDesc (s : State) (ch : Charge) : Desc :=
  (descAt s ch.src.desc).getD {}

/-- What a row gives that counts once: malformed records (R180) and a vector split into sub-vectors (R77). -/
def countRow (s : State) (a : ArrayId) (ch : Charge) (l : RowLoad) : State :=
  let b := spRegBase a.core
  let s := if l.malformed = 0 ∨ ch.sub ≠ 0 then s
    else tileCount (raise (count s b Ctr.SP_IDX_OOB_CNT l.malformed) b Flag.sp_IDX_OOB) a.core ch.tile cntIdxOob l.malformed
  if 1 < l.vectors.length ∧ ch.sub = 0 then raise (count s b Ctr.SP_SPAN_SPLIT_CNT 1) b Flag.sp_SPLIT else s

/-- The next row of a charge, or the next sub-vector of it, scheduled (R47, R49, R77, R145, R180). A vector that R47 skips
makes the swap all the same (log entry 118). -/
def scheduleRow (s : State) (a : ArrayId) (x : ArrayState) (t : WeightTile) (ch : Charge) (swap : Bool) (record m : Nat)
    (rest : List Nat) : State :=
  let d := chargeDesc s ch
  let l := buildRow s d (64 * lineGain t.line) { ch.src with row := ch.src.row + m }
  let v0 := l.vectors.getD ch.sub (badVector (64 * lineGain t.line))
  match placeRecords s a ch (d.layout == layPi64) record (vectorRecords v0 ch.src.planes l.scales false l.spans) with
  | none => s
  | some s =>
    let v := if ch.assay then assayVector v0 else v0
    let s := countRow s a ch l
    let done := decide (l.vectors.length ≤ ch.sub + 1)
    let next : Charge :=
      if done then { ch with rows := rest, sub := 0, begun := true } else { ch with sub := ch.sub + 1, begun := true }
    if skipVector t.mode v then
      count (setArray s a { x with charge := some next }) (arrRegBase a) Ctr.ARR_SKIP_CNT 1
    else
      let full := max ch.src.planes v0.planes
      let s := if ch.assay then count s (arrRegBase a) Ctr.ARR_TRIM_CNT (trimmedPlanes t full v0.planes) else s
      enterVector s a x t next
        { vec := v, from_ := if ch.assay then min 2 v0.planes else full, row := m, tally := false,
          last := isDistance t.mode && done && rest == [], swap := swap }

/-- The tally vector, which ends a charge (R117, R118). -/
def scheduleTally (s : State) (a : ArrayId) (x : ArrayState) (t : WeightTile) (ch : Charge) (swap : Bool) (record : Nat) :
    State :=
  let sum := if x.tallySum = [] then List.replicate (64 * lineGain t.line) 0 else x.tallySum
  let v := tallyVector sum
  match placeRecords s a ch false record (vectorRecords v 16 [] true false) with
  | none => s
  | some s =>
    enterVector s a x t { ch with begun := true }
      { vec := v, from_ := 16, row := 0, tally := true, last := true, swap := swap }

/-- VECTOR_SCHEDULE (R49, R117): the next vector of an array's charge, in the order of R100. The events of a load join the
vat tile of the charge that the load was for (R275). -/
def scheduleVector (s : State) (a : ArrayId) (record : Nat) : State :=
  let x0 := getArray s a
  match x0.charge with
  | none => s
  | some ch =>
    match swapped x0 ch with
    | none => s
    | some (x, t) =>
      let swap := x0.sel != x.sel
      let y := match ch.rows with
        | m :: rest => scheduleRow s a x t ch swap record m rest
        | [] => scheduleTally s a x t ch swap record
      if swap && (getArray y a).sel != x0.sel then tileCounts y a.core ch.tile t.counts else y

def execVectorSchedule (array : ArrayId) (record : Nat) (s : State) : Host.Outcome State Fault Refusal :=
  .next (scheduleVector s array record)

/-- Whether a first vector waits for its weight tile (R41): the charge has begun no vector, and neither register holds its
tile. -/
def waitsForWeights (x : ArrayState) : Bool :=
  match x.charge with
  | some ch => !ch.begun && (swapped x ch).isNone
  | none => false

/-- IDLE_SLOT (R41, R49, R51): an idle slot, counted where the array holds an active tile (log entry 119); where a first
vector waits for its weights, as a weight-load wait as well. -/
def idleSlot (s : State) (a : ArrayId) : State :=
  let x := getArray s a
  let b := arrRegBase a
  let s := setArray s a { x with frozen := false, queue := [] }
  let s := if x.active.isSome then count s b Ctr.ARR_IDLE_CNT 1 else s
  if waitsForWeights x then raise (count s b Ctr.ARR_WLOAD_WAIT_CNT 1) b Flag.arr_WLOAD_WAIT else s

def execIdleSlot (array : ArrayId) (s : State) : Host.Outcome State Fault Refusal :=
  .next (idleSlot s array)

/-- Whether a drain that has a vector ready finds the output queue full (R45). -/
def drainBlocked (x : ArrayState) : Bool :=
  decide (8 ≤ x.out.length) && x.flights != []

/-- ARRAY_FREEZE (R50, R51): one frozen cycle, where a scheduled vector is in progress or a drain finds the output queue full;
with the queue full it counts as a drain freeze as well. -/
def freezeArray (s : State) (a : ArrayId) : State :=
  let x := getArray s a
  if x.queue == [] && !drainBlocked x then s
  else
    let b := arrRegBase a
    let s := setArray s a { x with frozen := true }
    let s := raise (if x.active.isSome then count s b Ctr.ARR_FREEZE_CNT 1 else s) b Flag.arr_FROZE
    if 8 ≤ x.out.length then raise (count s b Ctr.ARR_DRAIN_FREEZE_CNT 1) b Flag.arr_DRAIN_BACKUP else s

def execArrayFreeze (array : ArrayId) (s : State) : Host.Outcome State Fault Refusal :=
  .next (freezeArray s array)

/-! ## Drains -/

/-- The logical row that stands on physical row `p` (R33, R129): with physical row `f` repaired, the rows behind it have
moved one place on and row `f` takes none; the spare row, 64, is in use with a repair only. -/
def logicalRow (f : Option Nat) (p : Nat) : Option Nat :=
  match f with
  | none => if p < 64 then some p else none
  | some f => if p < f then some p else if p = f then none else some (p - 1)

/-- The physical row of a logical one (R129). -/
def physRow (f : Option Nat) (r : Nat) : Nat :=
  match f with
  | none => r
  | some f => if r < f then r else r + 1

/-- The logical rows that the sum chain of half `h` adds, from its first physical row down: the chain passes a repaired row
by, and the boundary between the halves lies behind logical row 31 (R38, R129). -/
def halfRows (f : Option Nat) (h : Nat) : List Nat :=
  ((List.range 65).filterMap (logicalRow f)).filter fun r => r / 32 == h

/-- The activation that a cell selects (R35, R69). -/
def lineElem (t : WeightTile) (f : Flight) (r n : Nat) : Int :=
  f.elems.getD (lineSel t.line r ((t.codes.getD r []).getD n 0)) 0

/-- The weight of a cell; ROW_OFF makes it contribute 0 (R35). -/
def cellWeight (t : WeightTile) (r n : Nat) : Int :=
  if t.rowOff.contains r then 0 else (t.weights.getD r []).getD n 0

/-- The drain integer of a half-column in MAC, or of one pass of MAC2 (R42, R43): `w` picks the part of the weight, `b` is
the repaired row. -/
def drainSum (t : WeightTile) (f : Flight) (b : Option Nat) (w : Int → Int) (n h : Nat) : Int :=
  ((halfRows b h).map fun r => lineElem t f r n * w (cellWeight t r n)).sum

/-- The low and high parts of a 16-bit weight (R42). -/
def lowPart (w : Int) : Int := w % 256
def highPart (w : Int) : Int := w / 256

/-- A cell's working registers after the compare slots of ABSDIFF over `qc` planes (R59). -/
def absCompare (qc : Nat) (a w : Int) : CellWork :=
  let r := (List.range qc).foldl (fun (c : CellWork) j =>
    let x := bitOfInt a j
    let y := bitOfInt w j
    { c with d := c.d ++ [x != (y != c.borrow)], borrow := (!x && (y || c.borrow)) || (y && c.borrow) }) {}
  { r with neg := r.d.getD (qc - 1) false }

/-- One emission slot of ABSDIFF (R59): the bit emitted, and the working registers after it. -/
def absEmit (c : CellWork) (e : Nat) : Bool × CellWork :=
  let d := c.d.getD e false
  if c.neg then (d != c.seen, { c with seen := c.seen || d }) else (d, c)

/-- A cell's working registers after the compare slots of GTCOUNT over `qc` planes (R61). -/
def gtCompare (qc : Nat) (a w : Int) : CellWork :=
  (List.range qc).foldl (fun (c : CellWork) j =>
    let x := bitOfInt a j
    if x == bitOfInt w j then c
    else { c with order := if x != (j == qc - 1) then .gt else .lt }) {}

/-- What a cell does with a vector in a distance mode (R59 to R61): its working registers after the last slot, and the bits
it emits, the lowest first. -/
def cellRun (mode : ArrayMode) (qc : Nat) (a w : Int) : CellWork × List Bool :=
  match mode with
  | .absdiff =>
    (List.range (qc - 1)).foldl (fun (p : CellWork × List Bool) e =>
      let r := absEmit p.1 e
      (r.2, p.2 ++ [r.1])) (absCompare qc a w, [])
  | .xorcount => ({}, [bitOfInt a 0 != bitOfInt w 0])
  | _ =>
    let c := gtCompare qc a w
    (c, [c.order == .gt])

/-- What a cell gives in a distance mode, over `qc` planes: emission plane `e` has weight `2 ^ e` (R58). -/
def cellDistance (mode : ArrayMode) (qc : Nat) (a w : Int) : Int :=
  (cellRun mode qc a w).2.foldr (fun b n => bitOf b + 2 * n) 0

/-- The drain integer of a half-column in a distance mode (R58). -/
def distanceSum (t : WeightTile) (f : Flight) (b : Option Nat) (n h : Nat) : Int :=
  let qc := comparePlanes t.mode f.planes t.height
  ((halfRows b h).map fun r =>
    if t.rowOff.contains r then 0
    else cellDistance t.mode qc (f.elems.getD r 0) ((t.weights.getD r []).getD n 0)).sum

/-- The working registers of the cells after a vector of a distance mode, by logical row and column (R34). -/
def cellsAfter (t : WeightTile) (f : Flight) : List (List CellWork) :=
  let qc := comparePlanes t.mode f.planes t.height
  (List.range 64).map fun r => (List.range 64).map fun n =>
    (cellRun t.mode qc (f.elems.getD r 0) ((t.weights.getD r []).getD n 0)).1

/-- The error that a disturbance adds to a half-column (65 columns). -/
def upsetOf (us : List Upset) (n h : Nat) : Int :=
  ((us.filter fun u => u.col.val == n && u.half.val == h).map (·.error)).sum

/-- The tally column's drain integer of a half (R114, R115). -/
def tallySumOf (t : WeightTile) (f : Flight) (b : Option Nat) (h : Nat) : Int :=
  ((halfRows b h).map fun r =>
    if t.rowOff.contains r then 0 else f.elems.getD r 0 * t.tally.getD r 0).sum

/-- The forced partial of a pair of special codes (R98), none for a pair that forces nothing. -/
def forcedPartial (sa sw : Nat) : Option Nat :=
  if sa = 3 ∨ sw = 3 then some (nanCode a40)
  else if sa = 0 ∧ sw = 0 then none
  else
    -- two infinities multiply their signs; one infinity keeps its own
    let neg := (sa == 2) != (sw == 2)
    some (withSign a40 neg (infCode a40))

/-- A partial with what it counts: forced, overflow and underflow at the hand-over, and unequal scales (R58, R98, R99). -/
structure PartialOut where
  out : Option Partial
  special : Nat := 0
  ovf : Nat := 0
  ufl : Nat := 0
  mismatch : Nat := 0
deriving DecidableEq, Repr

/-- The partial of a half-column or of a pass (R43): integer, exponent, special codes, whether X64. -/
def drainPartial (x64 : Bool) (acc e : Int) (sa sw : Nat) : PartialOut :=
  match forcedPartial sa sw with
  | some b => { out := some (if x64 then .nan else .forced (BitVec.ofNat 40 b)), special := 1 }
  | none =>
    if acc = 0 then { out := none }
    else if x64 then { out := some (.exact acc e) }
    else
      let r := a40Int acc e
      { out := some (.a40 (BitVec.ofNat 40 r.1)), ovf := bitOf r.2.ovf, ufl := bitOf r.2.ufl }

/-- The block tags of a half: activation and weight. -/
def halfTags (t : WeightTile) (f : Flight) (n h : Nat) : BlockTag × BlockTag :=
  let w := t.tags.getD n ({}, {})
  if h = 0 then (f.upper, w.1) else (f.lower, w.2)

/-- The partial of a half-column in a distance mode (R25, R58, R60, R98): a special code forces it whatever the exponents;
unequal exponents count and make it NaN (log entry 151). -/
def distancePartial (mode : ArrayMode) (acc : Int) (g : BlockTag × BlockTag) : PartialOut :=
  let p := drainPartial false acc (if mode = .absdiff then g.1.beff else 0) g.1.special g.2.special
  if g.1.beff = g.2.beff then p
  else if p.special ≠ 0 then { p with mismatch := 1 }
  else { out := some (.a40 (BitVec.ofNat 40 (nanCode a40))), mismatch := 1 }

/-- The partials of one vector in the order of R100: in MAC2 the low pass before the high pass, and in a column the upper
half before the lower. `b` is the repaired row. -/
def vectorPartials (t : WeightTile) (f : Flight) (b : Option Nat) (x64 : Bool) (us : List Upset) :
    List (Nat × PartialOut) :=
  let passes : List ((Int → Int) × Int) := if t.mode = .mac2 then [(lowPart, 0), (highPart, 8)] else [(id, 0)]
  passes.flatMap fun p => (List.range 64).flatMap fun n =>
    if t.colMask.contains n then []
    else (List.range 2).map fun h =>
      let g := halfTags t f n h
      -- a disturbance falls into the first pass
      let err := if p.2 = 0 then upsetOf us n h else 0
      (n,
        if isDistance t.mode then distancePartial t.mode (distanceSum t f b n h + err) g
        else drainPartial x64 (drainSum t f b p.1 n h + err) (g.1.beff + g.2.beff + p.2) g.1.special g.2.special)

/-- The column value `c(v, n, h)` of R119 and R120: the drain integer, of both passes together in MAC2. -/
def columnValue (t : WeightTile) (f : Flight) (b : Option Nat) (us : List Upset) (n h : Nat) : Int :=
  drainSum t f b id n h + upsetOf us n h

/-- Whether the row check of a vector holds (R119); selector line modes have none (R79). -/
def rowCheck (t : WeightTile) (f : Flight) (b : Option Nat) (us : List Upset) : Bool :=
  t.line != 0 || (List.range 2).all fun h =>
    let m : Nat := if f.tally then 2 ^ 16 else 2 ^ 32
    (tallySumOf t f b h + upsetOf us 64 h - ((List.range 64).map fun n => columnValue t f b us n h).sum) % (m : Int) == 0

/-- The column values of a vector by column, both halves. -/
def columnValues (t : WeightTile) (f : Flight) (b : Option Nat) (us : List Upset) : List (Int × Int) :=
  (List.range 64).map fun n => (columnValue t f b us n 0, columnValue t f b us n 1)

/-- The running totals with one vector more (R120). -/
def addTotals (l vs : List (Int × Int)) : List (Int × Int) :=
  if l = [] then vs.map fun v => (v.1 % 65536, v.2 % 65536)
  else List.zipWith (fun a b => ((a.1 + b.1) % 65536, (a.2 + b.2) % 65536)) l vs

/-- Whether the column check of the tally vector holds (R120). -/
def columnCheck (totals vs : List (Int × Int)) : Bool :=
  (List.range 64).all fun n =>
    let a := totals.getD n (0, 0)
    let b := vs.getD n (0, 0)
    (a.1 - b.1) % 65536 == 0 && (a.2 - b.2) % 65536 == 0

/-! ## Mismatches -/

/-- Whether an activation operand of a part came through a chute and its scratch has been released (R124). -/
def operandGone (x : TaskSlot) (t : VatTile) : Bool :=
  x.cmds.any fun k => chargesInto t k.cmd && k.cmd.needs.any fun p => !piecePresent x p &&
    x.cmds.any fun c => c.done && c.cmd.chute && c.cmd.brings.contains p

/-- A failed check (R122, R124, R125): the part is discarded and runs again on another array; a second failure in succession
is a fault of the core; a task whose core has no other array, or whose operands are gone, is aborted (log entry 147). -/
def mismatch (s : State) (a : ArrayId) (base : Nat) : State :=
  match findTile s a.core base with
  | none => s
  | some t =>
    let id : SlotId := ⟨a.core, t.slot⟩
    let x := getSlot s id
    let s := count s (arrRegBase a) Ctr.TLY_MISMATCH_CNT 1
    let s := updJob s x.job fun j => { j with counts := addCount j.counts cntMismatch 1 }
    let s := setArray s a (voidWork (getArray s a) (· == base))
    let s := putTile s a.core { resetTile t with failedOn := some a.array }
    let s := settle (reissuePart s a.core t) a.core
    let s := arrayMismatch s a
    match t.failedOn with
    | some b =>
      reportFault (raise s (arrRegBase ⟨a.core, b⟩) Flag.arr_REPEAT_FAIL) (.repeatFail a)
    | none =>
      if operandGone x t || (liveArrays s a.core).all (· == a) then abortTask s id else s

/-! ## DRAIN_PARTIAL -/

/-- The end of a charge: its checks have passed, and its command has completed with the last part (R111, R123). -/
def endCharge (s : State) (a : ArrayId) (f : Flight) : State :=
  match findTile s a.core f.tile with
  | some v =>
    let s := putTile s a.core { v with checked := true }
    if f.weights.part + 1 < f.weights.parts then s else finishCmd s ⟨a.core, f.slot⟩ f.cmd
  | none => s

/-- The counts of a vector's partials (R58, R98, R99); those of a discarded part reach no vat. -/
def countPartials (s : State) (a : ArrayId) (base : Nat) (ps : List PartialOut) : State :=
  let special := (ps.map (·.special)).sum
  let ovf := (ps.map (·.ovf)).sum
  let ufl := (ps.map (·.ufl)).sum
  let bad := (ps.map (·.mismatch)).sum
  let b := vatRegBase a.core
  let s := if bad = 0 then s
    else raise (count s (arrRegBase a) Ctr.ARR_SCALE_MISMATCH_CNT bad) (arrRegBase a) Flag.arr_SCALE_MISMATCH
  if base = noTile then s
  else
    let s := if special = 0 then s else raise (count s b Ctr.VAT_SPECIAL_CNT special) b Flag.vat_SPECIAL
    let s := if ovf = 0 then s else raise (count s b Ctr.VAT_OVF_CNT ovf) b Flag.vat_OVF
    let s := if ufl = 0 then s else count s b Ctr.VAT_UFL_CNT ufl
    tileCount (tileCount (tileCount s a.core base cntVatSpecial special) a.core base cntVatOvf ovf) a.core base cntVatUfl ufl

/-- A vector's partials handed to the output queue (R45, R100); those of a discarded part are not. -/
def handOver (s : State) (a : ArrayId) (f : Flight) (us : List Upset) : State :=
  let x := getArray s a
  let x64 := match findTile s a.core f.tile with | some v => v.x64 | none => false
  let ps := vectorPartials f.weights f x.badRow x64 us
  let out : DrainOut := ⟨f.tile, f.row, ps.filterMap fun p => p.2.out.map fun o => (p.1, o)⟩
  let s := if f.tile = noTile then s else setArray s a { x with out := x.out ++ [out] }
  countPartials s a f.tile (ps.map (·.2))

/-- The tally checks of a vector (R119, R120): whether both hold, with what they count and flag. -/
def tallyChecks (s : State) (a : ArrayId) (f : Flight) (totals : List (Int × Int)) (us : List Upset) : State × Bool :=
  let x := getArray s a
  let row := rowCheck f.weights f x.badRow us
  let col := !f.tally || columnCheck totals (columnValues f.weights f x.badRow us)
  let b := arrRegBase a
  let s := if f.tally then count s b Ctr.TLY_CHECK_CNT 1 else s
  let s := if row then s else raise s b Flag.arr_ROW_FAIL
  (if col then s else raise s b Flag.arr_COL_FAIL, row && col)

/-- DRAIN_PARTIAL (R43, R45, R119, R120): the oldest vector leaves the array. Every vector of a charge is checked, whether its
part has been discarded or not. A full output queue holds a tally vector as well (log entry 120). -/
def drainVector (s : State) (a : ArrayId) (us : List Upset) : State :=
  let x := getArray s a
  match x.flights with
  | [] => s
  | f :: rest =>
    if 8 ≤ x.out.length then s
    else
      let t := f.weights
      let x := { x with flights := rest, frozen := false, queue := if rest == [] then [] else x.queue }
      if isDistance t.mode then
        let s := handOver (setArray s a { x with work := cellsAfter t f }) a f us
        if f.last then endCharge s a f else s
      else
        let totals := if f.tally then [] else addTotals x.totals (columnValues t f x.badRow us)
        let r := tallyChecks (setArray s a { x with totals := totals }) a f x.totals us
        if !r.2 then mismatch r.1 a f.tile
        else if f.tally then endCharge r.1 a f
        else handOver r.1 a f us

def execDrainPartial (array : ArrayId) (upsets : List Upset) (s : State) : Host.Outcome State Fault Refusal :=
  .next (drainVector s array upsets)

/-! ## Vats -/

/-- The partials of one vector added to their tile, if it still takes them from this array (R100, R163, R165). -/
def acceptOut (s : State) (a : ArrayId) (o : DrainOut) : State :=
  onTile s a.core o.tile fun t => if t.isOpen && t.array == some a.array then addOut t o else (t, {})

/-- VAT_ACCEPT (R45, R100, R108): the partials of at most two vectors leave the output queue and are added in order. -/
def acceptVectors (s : State) (a : ArrayId) : State :=
  let x := getArray s a
  (x.out.take 2).foldl (fun s o => acceptOut s a o) (setArray s a { x with out := x.out.drop 2 })

def execVatAccept (array : ArrayId) (s : State) : Host.Outcome State Fault Refusal :=
  .next (acceptVectors s array)

/-- The exact partial that an array hands over next to an entry that is no NaN, and its vat tile (R108). -/
def headExact (s : State) (a : ArrayId) : Option (VatTile × Nat × Int × Int) :=
  match (getArray s a).out with
  | o :: _ =>
    match o.parts.head?, findTile s a.core o.tile with
    | some (n, .exact acc e), some t =>
      if t.x64 && !t.lost && t.isOpen && (tget t.entries 0 (64 * o.row + n)).toNat != x64Nan then
        some (t, 64 * o.row + n, acc, e)
      else none
    | _, _ => none
  | [] => none

/-- X64_SHIFT (R108): the reference of an X64 tile lowered to that of the partial that comes next, where the exponents'
spread allows it (log entry 152). -/
def shiftTile (s : State) (a : ArrayId) : State :=
  match headExact s a with
  | some (t, i, acc, e) =>
    if (addExact t i acc e).1.lost then s else onTile s a.core t.base fun t => lowerRef t e
  | none => s

def execX64Shift (array : ArrayId) (s : State) : Host.Outcome State Fault Refusal :=
  .next (shiftTile s array)

/-- X64_LOSS (R109): an X64 tile lost, where the partial that comes next cannot be added exactly. -/
def lossTile (s : State) (a : ArrayId) : State :=
  match headExact s a with
  | some (t, i, acc, e) => if (addExact t i acc e).1.lost then onTile s a.core t.base loseTile else s
  | none => s

def execX64Loss (array : ArrayId) (s : State) : Host.Outcome State Fault Refusal :=
  .next (lossTile s array)

/-- The initial value of a task's output tiles (R97). -/
def ctxInit (s : State) (c : TaskCtx) (rt ct : Nat) : TileInit :=
  match nodeLoad c.node, ctxSlot c 3 with
  | true, some k => if (descAt s k).isSome then .load k rt ct else .zero
  | _, _ => .zero

/-- An output tile of a task as it is opened (R85, R94, R97, R104, R105, R111, R145): its part, its weight tiles, none where
every row is masked (R148), and the first of them. An assay tile holds the whole reduction, as one part. -/
def newTile (s : State) (t : SlotId) (c : TaskCtx) (rt ct : Nat) (assay : Bool) : VatTile :=
  let cut := ctxCut s c
  let p := ctxPart s c
  let w := ctxTiles s c ct assay
  let tiles := if !assay && fullyMasked c (getSlot s t) rt ct then [] else w.1
  { base := 0, x64 := nodeX64 c.node, init := ctxInit s c rt ct, part := if assay then 0 else p.2,
    split := if assay then 1 else cut.2.2, segment := if assay then 0 else p.1, segments := if assay then 1 else cut.2.1,
    nextTile := tiles.headD w.2, rowTile := rt, colTile := ct, assay := assay, tiles := tiles, stop := w.2, slot := t.slot }

/-- Whether a task may open an output tile (R145, R146, R163, R260): it runs, the tile is one of its block, not there and not
done with, and in K_INNER the task has fewer open tiles than its core has arrays. An assay tile opens before its bound, with
a fresh table of sums; a full tile behind it. -/
def mayOpen (s : State) (t : SlotId) (c : TaskCtx) (rt ct : Nat) (assay : Bool) : Bool :=
  let x := getSlot s t
  let opened := ((getCore s t.core).tiles.filter fun v => v.slot == t.slot && v.isOpen).length
  x.state == .running && onArrays c && inTaskBlock c rt ct && (findPart s t rt ct assay).isNone &&
  (findSaved x rt ct assay).isNone && rowsKnown s c x rt ct assay &&
  (if assay then assayOn s c && (maskedRows x rt ct).isNone && (freshTable s c).isSome else !tileSpent x rt ct) &&
  (c.run.kOuter || decide (opened < (liveArrays s t.core).length))

/-- The closed tiles of a task that it has done with released (log entry 127). -/
def releaseSpent (s : State) (t : SlotId) : State :=
  let c := getCore s t.core
  let x := getSlot s t
  setCore s t.core { c with tiles := c.tiles.filter fun v =>
    !(v.slot == t.slot && !v.isOpen && !v.assay && tileSpent x v.rowTile v.colTile) }

/-- TILE_OPEN (R94, R97, R164): a tile placed, what is in its way saved. -/
def openTile (s : State) (t : SlotId) (rt ct : Nat) (assay : Bool) : State :=
  match taskCtx s t with
  | none => s
  | some c =>
    if !mayOpen s t c rt ct assay then s
    else
      let v := newTile s t c rt ct assay
      match makeRoom (releaseSpent s t) t.core v.x64 with
      | (s, some b) => addTile s t.core { v with base := b }
      | (_, none) => s

def execTileOpen (slot : SlotId) (rt ct : Nat) (assay : Bool) (s : State) : Host.Outcome State Fault Refusal :=
  .next (openTile s slot rt ct assay)

/-- TILE_INIT_DONE (R97): the clear or load of a tile is complete. -/
def execTileInitDone (core : CoreId) (tile : Nat) (s : State) : Host.Outcome State Fault Refusal :=
  .next (match findTile s core tile with
    | some t => if t.isOpen && !t.ready then putTile s core (initTile s t) else s
    | none => s)

/-- Whether a tile has taken the last partial of its range (R96, R123): its last weight tile and part have been streamed,
their checks have passed, and no partial is on its way. -/
def tileComplete (s : State) (c : CoreId) (t : VatTile) : Bool :=
  t.isOpen && t.ready && t.checked && t.nextTile == t.stop && t.nextPart == 0 && !tileBusy s c t.base

/-- The span of a tile that closes forgotten, where an earlier run of its task had combined it (R106, R338). -/
def forgetSpan (s : State) (t : SlotId) (v : VatTile) : State :=
  match taskCtx s t with
  | some c =>
    let same (e : CombinedSpan) : Bool :=
      e.elem == c.task.elem && e.rowTile == v.rowTile && e.colTile == v.colTile && e.segment == v.segment && e.part == v.part
    updRun s c.job c.stage fun r => { r with spans := r.spans.filter fun e => !same e }
  | none => s

/-- TILE_CLOSE (R96, R104, R123): a tile that has taken the last partial of its range. It keeps the number of the array that
fed it, for an audit that fails (R151). -/
def closeTile (s : State) (c : CoreId) (base : Nat) : State :=
  match findTile s c base with
  | some t =>
    if tileComplete s c t then
      let s := putTile s c { t with isOpen := false, failedOn := none, counts := [] }
      let id := tileSlot c t
      let s := if t.assay then s else forgetSpan s id t
      let x := getSlot s id
      let long := decide (1 < t.segments)
      let s := setSlot s id { x with counts := addCount (mergeCounts x.counts t.counts) cntLongSum (bitOf long) }
      raiseIf long s (vatRegBase c) Flag.vat_LONG_SUM
    else s
  | none => s

def execTileClose (core : CoreId) (tile : Nat) (s : State) : Host.Outcome State Fault Refusal :=
  .next (closeTile s core tile)

/-! ## Combining -/

/-- The span of parts and segments that a closed tile of a task covers (R106): its own part and segment, until others have
been combined into it. -/
def spanOfTile (c : TaskCtx) (v : VatTile) : CombinedSpan :=
  (c.run.spans.find? fun e => e.elem == c.task.elem && e.rowTile == v.rowTile && e.colTile == v.colTile &&
    e.segment == v.segment && e.part == v.part).getD
    { elem := c.task.elem, rowTile := v.rowTile, colTile := v.colTile, segment := v.segment, part := v.part, parts := 1,
      segments := if v.split ≤ 1 then 1 else 0 }

/-- The span that the tree of R106 gives operand `l` with operand `r` over `n` leaves, by first leaf and width; none where the
tree does not combine the two. -/
def treeJoin (n l wl r wr : Nat) : Option Nat :=
  if wl = 2 ^ wl.log2 ∧ l % (2 * wl) = 0 ∧ r = l + wl ∧ r < n ∧ wr = min wl (n - r) then some (wl + wr) else none

/-- The combined span of a left and a right operand (R106): parts of one segment first, then whole segments. -/
def joinSpan (l r : CombinedSpan) (split segs : Nat) : Option CombinedSpan :=
  if l.segments = 0 then
    if r.segment = l.segment ∧ r.segments = 0 then
      (treeJoin split l.part l.parts r.part r.parts).map fun w =>
        { l with parts := w, segments := if w = split then 1 else 0 }
    else none
  else if r.segments = 0 then none
  else (treeJoin segs l.segment l.segments r.segment r.segments).map fun w => { l with segments := w }

/-- A span noted in a node's run, in place of its operands'. -/
def noteSpan (s : State) (c : TaskCtx) (n : CombinedSpan) : State :=
  let same (e : CombinedSpan) : Bool :=
    e.elem == n.elem && e.rowTile == n.rowTile && e.colTile == n.colTile && e.segment == n.segment && e.part == n.part
  updRun s c.job c.stage fun r => { r with spans := n :: r.spans.filter fun e => !same e }

/-- PART_COMBINE (R106, R110): the core that holds the left operand adds the right one, which a hoist brought as a save
record, where the tree combines the two. -/
def combineParts (s : State) (c : CoreId) (left : Nat) (right : Addr) : State :=
  let fmt := leNat (readModule s right 1)
  match findTile s c left, parseRecord (readModule s right (recordSize (fmt == fmtX64))) 0 with
  | some l, some r =>
    let id := tileSlot c l
    match taskCtx s id with
    | none => s
    | some x =>
      let (_, segs, split) := ctxCut s x
      let span := if l.isOpen || r.isOpen || l.assay || r.rowTile != l.rowTile || r.colTile != l.colTile ||
          r.split != l.split || r.x64 != l.x64 then none
        else joinSpan (spanOfTile x l) (spanOfTile x r) split segs
      match span with
      | none => s
      | some n =>
        let k := combineTiles l r
        let lost := l.x64 && k.1.lost && !l.lost && !r.lost
        let s := countVat (putTile s c k.1) c k.2
        let s := slotCount (slotCount (slotCount s id cntVatOvf k.2.ovf) id cntVatNan k.2.nan) id cntExactLost (bitOf lost)
        noteSpan s x n
  | _, _ => s

def execPartCombine (core : CoreId) (left : Nat) (right : Addr) (s : State) : Host.Outcome State Fault Refusal :=
  .next (combineParts s core left right)

/-! ## Saves and restores -/

/-- Vat tiles free to a task (R164, R273): the positions of its format that no other tile holds, or that tiles of its own
do. -/
def freeTiles (s : State) (t : SlotId) (x64 : Bool) : Nat :=
  ((positions x64).filter fun b => (inTheWay (getCore s t.core) x64 b).all fun v => v.slot == t.slot).length

/-- Whether the block of a task spills (R273): it runs in K_OUTER and needs more vat tiles than are free to it. -/
def blockSpills (s : State) (t : SlotId) (c : TaskCtx) : Bool :=
  c.run.kOuter && decide (freeTiles s t (nodeX64 c.node) < c.task.blockM * c.task.blockN)

/-- Whether a tile of a block that spills is one of those that do (R273): with `F` tiles free, the first `F - 2` of the block
stay, counted row tile by row tile (log entry 121). -/
def tileSpills (s : State) (t : SlotId) (c : TaskCtx) (v : VatTile) : Bool :=
  blockSpills s t c &&
  decide (freeTiles s t (nodeX64 c.node) - 2 ≤ (v.rowTile - c.task.rowTile) * c.task.blockN + (v.colTile - c.task.colTile))

/-- A spill of a RUNNING task's tile to a place of its working scratch (R111, R273, R274). -/
def spillTile (s : State) (c : CoreId) (v : VatTile) (off : Nat) : State :=
  let id := tileSlot c v
  let x := getSlot s id
  if off % 64 = 0 ∧ inWork x off (recordSize v.x64) = true ∧ clearOfRecords x off (recordSize v.x64) = true then
    let s := saveTile s c v off true
    slotCount (slotCount s id cntSpillTiles 1) id cntSpillCyc (recordSize v.x64 / 64)
  else s

/-- Whether a task waits for an output tile that is not in the vat: a command that has not completed charges into it. -/
def lacksTile (s : State) (t : SlotId) : Bool :=
  (getSlot s t).cmds.any fun c => !c.done && match c.cmd.work with
    | .charge rt ct _ assay => (findPart s t rt ct assay).isNone
    | _ => false

/-- Whether the RUNNING task needs the granules of a tile: it waits for one of its own, whose position this one is in the way
of (R164). -/
def inNeed (s : State) (c : CoreId) (v : VatTile) : Bool :=
  match (runningSlot s c).bind fun t => if lacksTile s t then taskCtx s t else none with
  | some k =>
    let x64 := nodeX64 k.node
    match choosePosition (getCore s c) x64 with
    | some b => (inTheWay (getCore s c) x64 b).any (·.base == v.base)
    | none => false
  | none => false

/-- VAT_SAVE (R111, R112, R164, R165, R273): a tile of a task that does not run is saved where the RUNNING task needs its
granules; a tile of the RUNNING task where its block spills. A tile that an array still feeds is not saved. -/
def saveVat (s : State) (c : CoreId) (base off : Nat) : State :=
  match findTile s c base with
  | none => s
  | some v =>
    let id := tileSlot c v
    let x := getSlot s id
    if tileBusy s c base || !v.ready then s
    else if x.state == .running then
      match taskCtx s id with
      | some k => if v.isOpen && tileSpills s id k v then spillTile s c v off else s
      | none => s
    else if inNeed s c v then
      match saveOffset x v.x64 with
      | some o => saveTile s c v o false
      | none => s
    else s

def execVatSave (core : CoreId) (tile : Nat) (offset : Nat) (s : State) : Host.Outcome State Fault Refusal :=
  .next (saveVat s core tile offset)

/-- The tile of a record that has passed its check, with what the sequencer kept of it. A tile that is open and bound to an
array that has been fenced since returns to its initial value (R125). -/
def restoredTile (s : State) (t : SlotId) (k v : VatTile) (base : Nat) : VatTile :=
  let v := { k with
    base := base, slot := t.slot, entries := v.entries, x64 := v.x64, isOpen := v.isOpen, lost := v.lost,
    expSet := v.expSet, forced := v.forced, eRef := v.eRef, eTop := v.eTop, part := v.part, split := v.split,
    segment := v.segment, nextTile := v.nextTile, nextPart := v.nextPart, nextSub := v.nextSub, added := v.added }
  match k.array with
  | some a => if v.isOpen && arrayFenced s ⟨t.core, a⟩ then resetTile v else v
  | none => v

/-- Whether a command of a task that has not completed needs a saved tile (R164): a charge into it, or, once it is closed, any
command. -/
def tileNeeded (x : TaskSlot) (k : VatTile) : Bool :=
  x.cmds.any fun c => !c.done && (!k.isOpen || chargesInto k c.cmd)

/-- A record that is restored: its place, and whether it was a spill (R112, R164, R165, R273). -/
def placeRestored (s : State) (t : SlotId) (r : SaveRecord) (v : VatTile) : State :=
  match makeRoom s t.core v.x64 with
  | (s, some b) =>
    let x := getSlot s t
    let s := setSlot s t { x with saved := x.saved.erase r }
    let s := addTile s t.core (restoredTile s t r.kept v b)
    let s := count s (vatRegBase t.core) Ctr.VAT_RESTORE_CNT 1
    let s := count s (coreRegBase t.core) Ctr.CORE_RESTORE_CYC_CNT (recordSize v.x64 / 64)
    if r.spill then slotCount s t cntSpillCyc (recordSize v.x64 / 64) else s
  | (_, none) => s

/-- VAT_RESTORE (R112, R164): the record of an output tile of the RUNNING task is checked and placed; a record that fails
aborts its task. A record that lies in DRAM has been brought to `off` of the task's working scratch (R273). -/
def restoreTile (s : State) (t : SlotId) (rt ct : Nat) (assay : Bool) (off : Nat) : State :=
  let x := getSlot s t
  match findSaved x rt ct assay with
  | none => s
  | some r =>
    let n := recordSize r.kept.x64
    if x.state != .running || !tileNeeded x r.kept || !(if r.inDram then inWork x off n else off == r.offset) then s
    else
      match parseRecord (readScratch s t.core off n) 0 with
      | none => abortTask (raise s (vatRegBase t.core) Flag.vat_RESTORE_FAIL) t
      | some v => placeRestored s t r v

def execVatRestore (slot : SlotId) (rt ct : Nat) (assay : Bool) (offset : Nat) (s : State) : Host.Outcome State Fault Refusal :=
  .next (restoreTile s slot rt ct assay offset)

end Sys2Proof.Machine
end

