-- ==== Sys2Proof/Machine/Activations.lean ====
section
/-! DEFINITION. The activations (R255) as sequences of vector engine instructions (R254, log entry 125). -/

namespace Sys2Proof.Machine

/-! ## Constants in FP32 -/

def oneWord : Word := 0x3F800000
def halfWord : Word := 0x3F000000
def sixWord : Word := 0x40C00000

/-- -log2 e. -/
def negLog2e : Word := 0xBFB8AA3B

/-- 1/√2. -/
def invSqrt2 : Word := 0x3F3504F3

/-! ## Lanes -/

/-- 1 + e^-x of a lane, from EXP2. -/
def onePlusExpNeg (x : Word) : Word :=
  addLane .fp32 .rne oneWord (specialF .exp2 .rne (mulLane .fp32 .rne x negLog2e))

/-- Φ(x) of a lane, from ERF (R255). -/
def phiLane (x : Word) : Word :=
  mulLane .fp32 .rne halfWord (addLane .fp32 .rne oneWord (specialF .erf .rne (mulLane .fp32 .rne x invSqrt2)))

/-- An activation of one FP32 lane (R255): `rnd` is the modifier of the last instruction, `theta` the θ of THRESH. -/
def actLane (rnd : Rounding) (code : Nat) (theta x : Word) : Word :=
  match code with
  | 0 => canonNan x
  | 1 => minMaxLane 5 .fp32 x 0
  | 2 => minMaxLane 4 .fp32 (minMaxLane 5 .fp32 x 0) sixWord
  | 3 => if relF .gt (decodeF fp32 x.toNat) (decodeF fp32 theta.toNat) then x else 0
  | 4 => mulLane .fp32 rnd x (phiLane x)
  | 5 => divLane .fp32 rnd x (onePlusExpNeg x)
  | 6 => specialF .rcp rnd (onePlusExpNeg x)
  | _ => specialF .tanh rnd x

end Sys2Proof.Machine
end

