-- ==== Sys2Proof/Machine/Output.lean ====
section
/-! DEFINITION. Values written into tensors (R17, R28, R29, R188, R200, R414): elements, blocks and rows, and writes of one
operation that meet. -/

namespace Sys2Proof.Machine

/-! ## Writes that meet -/

/-- Whether two members of a list write the same byte; `span` gives a member's address and length. -/
def aliasedBy {α : Type} (span : α → Addr × Nat) : List α → Bool
  | [] => false
  | x :: rest => rest.any (fun y => overlap (span x).1 (span x).2 (span y).1 (span y).2) || aliasedBy span rest

/-- A member put at its place by key. -/
def insertKeyed {α : Type} (x : Nat × α) : List (Nat × α) → List (Nat × α)
  | [] => [x]
  | y :: r => if x.1 < y.1 then x :: y :: r else y :: insertKeyed x r

/-- Writes of one operation of which some meet, in an order of the implementation's choice (R188, log entry 3). -/
def freeOrderBy {α : Type} (span : α → Addr × Nat) (s : State) (l : List α) : List α × State :=
  if aliasedBy span l then
    let keyed := (List.range l.length).filterMap fun i => l[i]?.map fun x => (Config.choice (s.freeCount + i), x)
    ((keyed.foldr insertKeyed []).map (·.2), { s with freeCount := s.freeCount + l.length })
  else (l, s)

/-- Byte strings written at their addresses (R188). -/
def applyWrites (s : State) (ws : List (Addr × List Byte)) : State :=
  let r := freeOrderBy (fun w => (w.1, w.2.length)) s ws
  r.1.foldl (fun s w => writeModule s w.1 w.2) r.2

/-! ## Elements and blocks -/

/-- What a row writes: byte strings with their addresses, and the events of the conversions. -/
abbrev RowWrites := List (Addr × List Byte) × CvtCounts

/-- The writes of two pieces of a row. -/
def RowWrites.append (a b : RowWrites) : RowWrites :=
  (a.1 ++ b.1, a.2.add b.2)

/-- One element of a scalar output (R28). -/
def elemWrites (d : Desc) (mods : CvtMod) (idx : List Nat) (v : FVal) : RowWrites :=
  let r := cvtScalar d.format mods v
  ([(unitAddr d idx, leBytes (unitBytes d.format) r.1)], r.2)

/-- The scale byte and the payload of a block of a bundle, as writes. -/
def blockBytes (d : Desc) (idx : List Nat) (scale : Byte) (payload : List Byte) : List (Addr × List Byte) :=
  let w := elemWidth d.format
  let blk := idx.getD 0 0 % 256 / 32
  let a := unitAddr d idx
  [(a + blk, [scale]), (a + 8 + 4 * w * blk, payload)]

/-- One block of a block-format output: whole where a column is live, else not at all (R29, R414). -/
def blockWrites (d : Desc) (mods : CvtMod) (idx : List Nat) (vals : List (Option FVal)) : RowWrites :=
  if vals.all Option.isNone then ([], {})
  else
    let r := cvtBlock d.format mods vals
    (blockBytes d idx (BitVec.ofNat 8 r.1) (packBlock (elemWidth d.format) r.2.1), r.2.2)

/-- A block made wholly of padding: zeros and scale 0x00 (R17). -/
def padWrites (d : Desc) (idx : List Nat) : RowWrites :=
  (blockBytes d idx 0 (List.replicate (4 * elemWidth d.format) 0), {})

/-! ## Padding of storage units -/

/-- Bit positions of a list of fields (position and length). -/
def fieldBits (l : List (Nat × Nat)) : List Nat :=
  l.flatMap fun f => (List.range f.2).map (f.1 + ·)

/-- The fields of a bundle of a dense block format that are padding where `live` elements are not (R17). -/
def densePad (w live : Nat) : List (Nat × Nat) :=
  ((List.range 8).filterMap fun b => if live ≤ 32 * b then some (8 * b, 8) else none) ++
  (List.range 256).filterMap fun j => if live ≤ j then some (64 + w * j, w) else none

/-- The same of a bundle of a fixed-count selector layout (R65, R67): a group is padding where it lies wholly at or beyond the
extent. -/
def selPad (layout w live : Nat) : List (Nat × Nat) :=
  let n := selN layout
  let m := selM layout
  let dead (j : Nat) : Bool := decide (live ≤ j / n * m)
  let code := if m = 4 then 2 else 3
  ((List.range 8).filterMap fun b => if dead (32 * b) then some (8 * b, 8) else none) ++
  (List.range 256).flatMap fun j =>
    if dead j then [(64 + w * j, w), (8 * (8 + 32 * w) + 32 * code * (j / 32) + code * (j % 32), code)] else []

/-- The same of a bundle of a SEL-V8 layout (R66, R67), `u` its bytes: the count nibbles of the groups that are padding, and in
each chunk the slots behind those of its other groups. -/
def v8Pad (layout w live : Nat) (u : List Byte) : List (Nat × Nat) :=
  let n := v8N layout
  (List.range 4).flatMap fun c =>
    let dead (g : Nat) : Bool := decide (live ≤ 64 * c + 8 * g)
    let cnt (g : Nat) : Nat := leAt u (4 + 4 * c) 4 / 16 ^ g % 16
    let used := (((List.range 8).filter fun g => !dead g).map cnt).sum
    if live ≥ 64 * c + 64 then []
    else (if dead 0 then [(8 * c, 8)] else []) ++
      ((List.range 8).filterMap fun g => if dead g then some (8 * (4 + 4 * c) + 4 * g, 4) else none) ++
      (List.range (8 * n)).flatMap fun i =>
        if used ≤ i then [(8 * (20 + 3 * n * c) + 3 * i, 3), (8 * (20 + 12 * n + n * w * c) + w * i, w)] else []

/-- The bits of a storage unit that are padding (R17, R67). -/
def padBits (p : UnitPad) (u : List Byte) : List Nat :=
  let w := elemWidth p.format
  if isSelV8 p.layout then fieldBits (v8Pad p.layout w p.live u)
  else if isSelFixed p.layout then fieldBits (selPad p.layout w p.live)
  else if p.layout = layStrided ∧ isBlock p.format = true then fieldBits (densePad w p.live)
  else []

/-- Bytes of a storage unit from offset `skip` on, with the unit's padding zeroed; `u` are the unit's bytes. -/
def padBytes (p : UnitPad) (u bs : List Byte) : List Byte :=
  let dead := padBits p u
  (List.range bs.length).map fun i =>
    (List.range 8).foldl (fun v k => if dead.contains (8 * (p.skip + i) + k) then v - (v &&& BitVec.ofNat 8 (2 ^ k)) else v)
      (bs.getD i 0)

/-- The padding of the storage unit that begins at index `first` of dimension 0 of a tensor with `ext` indices there; none
where the unit has none (R17, R67). -/
def unitPad (d : Desc) (first ext : Nat) : Option UnitPad :=
  let padded := (d.layout == layStrided && isBlock d.format) || isSelFixed d.layout || isSelV8 d.layout
  if padded ∧ ext < first + descU d then some ⟨d.layout, d.format, ext - first, 0⟩ else none

/-! ## Rows -/

/-- The pieces of a list joined. -/
def joinWrites (l : List RowWrites) : RowWrites :=
  l.foldl RowWrites.append ([], {})

/-- Columns `first` to `first + n - 1` of row `m` of an output with `ext` columns, as the write-back of a product writes them:
`val` gives the value of a live column (R200, R414). -/
def rowWrites (d : Desc) (mods : CvtMod) (m first n ext : Nat) (val : Nat → Option FVal) : RowWrites :=
  let live (c : Nat) : Option FVal := if first ≤ c ∧ c < first + n ∧ c < ext then val c else none
  if isBlock d.format then
    joinWrites ((List.range (n / 32)).map fun b =>
      blockWrites d mods [first + 32 * b, m] ((List.range 32).map fun i => live (first + 32 * b + i)))
  else
    joinWrites ((List.range n).filterMap fun i => (live (first + i)).map fun v => elemWrites d mods [first + i, m] v)

/-- The whole of row `m` of an output with `ext` columns: where it is bundled, its padding as well (R17). Columns without a
value are not written, apart from those of a block that has one. -/
def wholeRowWrites (d : Desc) (mods : CvtMod) (m ext : Nat) (vals : List FVal) : RowWrites :=
  if isBlock d.format then
    joinWrites ((List.range (8 * ((ext + 255) / 256))).map fun b =>
      if ext ≤ 32 * b then padWrites d [32 * b, m]
      else blockWrites d mods [32 * b, m] ((List.range 32).map fun i =>
        if 32 * b + i < ext then vals[32 * b + i]? else none))
  else
    joinWrites ((List.range (min ext vals.length)).filterMap fun c =>
      vals[c]?.map fun v => elemWrites d mods [c, m] v)

end Sys2Proof.Machine
end

