-- ==== Sys2Proof/Machine/Scratch.lean ====
section
/-! DEFINITION. Scratch: banks (R155 to R158) and the core window as the core's own units see it (R6, R96). -/

namespace Sys2Proof.Machine

/-! ## Banks -/

/-- The bank of a scratch offset (R155). -/
def bankOfOffset (off : Nat) : Nat :=
  let l := off / 32 % 32768
  (l % 32 + l / 32 % 32) % 32

/-- The row of a scratch offset in its bank (R155). -/
def rowOfOffset (off : Nat) : Nat :=
  off / 32 % 32768 / 32

/-- The place of a requester in *Scratch priority* (R156). -/
def scrOrder : ScrRequester → Nat
  | .fabricWrite => 0
  | .feeder => 1
  | .loader => 2
  | .vector => 3
  | .jig => 4
  | .vat => 5
  | .fabricRead => 6
  | .mgmt => 7

/-- The number of a requester at a bank in the tables of refusals. -/
def refusalKey (bank : Nat) (w : ScrRequester) : Nat :=
  8 * bank + scrOrder w

/-- Whether one request goes before another at a bank: those promoted first, then by the table (R156). -/
def scrBefore (x : CoreState) (bank : Nat) (a b : ScrRequest) : Bool :=
  let pa := x.promoted.contains (bank, scrOrder a.who)
  let pb := x.promoted.contains (bank, scrOrder b.who)
  if pa == pb then decide (scrOrder a.who < scrOrder b.who) else pa

/-- The request that a bank grants, by its place among those of the cycle (R156). -/
def grantOf (x : CoreState) (bank : Nat) (rs : List (ScrRequest × Nat)) : Option (ScrRequest × Nat) :=
  rs.foldl (fun best r =>
    match best with
    | none => some r
    | some b => if scrBefore x bank r.1 b.1 then some r else some b) none

/-- The task whose scratch holds an offset (R166). -/
def ownerOf (s : State) (c : CoreId) (off : Nat) : Option SlotId :=
  (slotsOfCore c).find? fun t =>
    let x := getSlot s t
    x.state != .empty && x.base ≤ off && off < x.base + x.saveBytes + x.workBytes

/-- The words of a range of scratch that are marked as poisoned. -/
def poisonedIn (s : State) (c : CoreId) (off n : Nat) : List Nat :=
  (getCore s c).poisonedWords.filter fun w => decide (8 * w < off + n) && decide (off < 8 * w + 8)

/-- An uncorrectable word read (R158): counted and flagged, its task aborted, or its line zeroed where no task owns it. -/
def scratchPoison (s : State) (c : CoreId) (off : Nat) : State :=
  let b := coreRegBase c
  let s := raise (count s b Ctr.SCR_UE_CNT 1) b Flag.core_UE
  let s := match ownerOf s c off with
    | some t => abortTask s t
    | none => writeScratch s c (off / 32 * 32) (List.replicate 32 0)
  reportFault s (.scratchUe c)

/-- The check of what a bank reads at an offset (R158): the words of its line. -/
def readCheck (s : State) (c : CoreId) (off : Nat) (ecc : EccFinding) : State :=
  let b := coreRegBase c
  match poisonedIn s c (off / 32 * 32) 32 with
  | w :: _ => scratchPoison s c (8 * w)
  | [] =>
    match ecc with
    | .uncorrectable => scratchPoison s c off
    | .corrected => count (raise (count s b Ctr.SCR_CE_CNT 1) b Flag.core_CE) depBase Ctr.DEP_CORRECTED_CNT 1
    | .clean => s

/-- Whether a write covers whole 8 B words (R158). -/
def wholeWords (off n : Nat) : Bool :=
  off % 8 == 0 && n % 8 == 0

/-- A granted access (R157, R158). A write of less than a whole word takes two grants: the first reads the word, the second
writes it. -/
def scratchGrant (s : State) (c : CoreId) (r : ScrRequest) : State :=
  match r.write with
  | none => readCheck s c r.offset r.ecc
  | some bs =>
    let bs := bs.take (32 - r.offset % 32)
    let key := (scrOrder r.who, r.offset)
    let x := getCore s c
    if wholeWords r.offset bs.length then writeScratch s c r.offset bs
    else if x.halfWrites.contains key then
      writeScratch (setCore s c { x with halfWrites := x.halfWrites.erase key }) c r.offset bs
    else readCheck (setCore s c { x with halfWrites := key :: x.halfWrites }) c r.offset r.ecc

/-- A line of a tram ingress buffer that goes into scratch frees its place; the hop stage goes on (R239). -/
def drainLine (s : State) (c : CoreId) (who : ScrRequester) : State :=
  if who = .fabricWrite then
    let h := getHop s c
    setHop s c { h with lines := h.lines - 1, stalled := false }
  else s

/-- The requests of a cycle to a bank, with their places. -/
def requestsAt (rs : List ScrRequest) (bank : Nat) : List (ScrRequest × Nat) :=
  rs.zipIdx.filter fun r => decide (r.1.offset < 0x100000) && bankOfOffset r.1.offset == bank

/-- The grants of one cycle: at each bank one request (R156). -/
def cycleGrants (x : CoreState) (rs : List ScrRequest) : List (Nat × ScrRequest × Nat) :=
  (List.range 32).filterMap fun b => (grantOf x b (requestsAt rs b)).map fun g => (b, g)

/-- The requesters that a bank refuses in a cycle: those that request it and are not granted (R156). -/
def refusedAt (rs : List ScrRequest) (g : Nat × ScrRequest × Nat) : List ScrRequester :=
  ((requestsAt rs g.1).map (·.1.who)).eraseDups.filter (· != g.2.1.who)

/-- A core's refusals and promotions after the grants of a cycle (R156): a requester that a bank does not refuse, for it is
granted or asks for nothing, starts from 0 again. -/
def afterCycle (x : CoreState) (rs : List ScrRequest) (gs : List (Nat × ScrRequest × Nat)) : CoreState :=
  let keys := gs.flatMap fun g => (refusedAt rs g).map (refusalKey g.1)
  let granted := gs.map fun g => (g.1, scrOrder g.2.1.who)
  { x with
    refusals := keys.foldl (fun t k => tset t 0 k (tget x.refusals 0 k + 1)) []
    promoted := x.promoted.filter fun p => !granted.contains p }

/-- SCRATCH_ACCESS (R96, R156, R157): the requests of one KCLK cycle; every request that its bank refuses is counted, and
writes above scratch go to the vat window. -/
def scratchAccess (s : State) (c : CoreId) (rs : List ScrRequest) : State :=
  let x := getCore s c
  let gs := cycleGrants x rs
  let refused := (gs.map fun g => (requestsAt rs g.1).length - 1).sum
  let s := setCore s c (afterCycle x rs gs)
  let s := if refused = 0 then s else count s (coreRegBase c) Ctr.SCR_CONFLICT_CNT refused
  let s := gs.foldl (fun s g => scratchGrant (drainLine s c g.2.1.who) c g.2.1) s
  (rs.filter fun r => 0x100000 ≤ r.offset).foldl (fun s r =>
    match r.write with
    | some bs => writeVat s c (r.offset - 0x100000) bs
    | none => s) s

def execScratchAccess (core : CoreId) (requests : List ScrRequest) (s : State) : Host.Outcome State Fault Refusal :=
  .next (scratchAccess s core requests)

/-- SCRATCH_STARVE_PROMOTE (R156): a requester refused in 8 consecutive cycles takes the first place. -/
def promoteRequester (s : State) (c : CoreId) (bank : Nat) (w : ScrRequester) : State :=
  let x := getCore s c
  if 8 ≤ tget x.refusals 0 (refusalKey bank w) ∧ x.promoted.contains (bank, scrOrder w) = false then
    count (setCore s c { x with promoted := (bank, scrOrder w) :: x.promoted }) (coreRegBase c) Ctr.SCR_STARVE_CNT 1
  else s

def execScratchStarvePromote (core : CoreId) (bank : Fin 32) (who : ScrRequester) (s : State) :
    Host.Outcome State Fault Refusal :=
  .next (promoteRequester s core bank.val who)

/-! ## The core window -/

/-- The byte at an offset of the core window (R6, R94). -/
def windowByte (s : State) (c : CoreId) (off : Nat) : Byte :=
  if off < 0x100000 then (readScratch s c off 1).headD 0
  else if off < 0x150000 then vatByte (getCore s c) (off - 0x100000)
  else Config.unbacked (scratchAddr c off)

/-- `n` bytes of the core window as a unit of the core reads them. -/
def readWindow (s : State) (c : CoreId) (off n : Nat) : List Byte :=
  if inScratch off n then readScratch s c off n else (List.range n).map fun i => windowByte s c (off + i)

/-- Bytes written into the core window by a unit of the core: scratch takes them, the vat under R96, and what lies above is
reserved and takes none. -/
def writeWindow (s : State) (c : CoreId) (off : Nat) (bs : List Byte) : State :=
  if inScratch off bs.length then writeScratch s c off bs
  else
    let low := bs.take (0x100000 - off)
    let s := if low = [] then s else writeScratch s c off low
    let start := max off 0x100000
    let high := (bs.drop (0x100000 - off)).take (0x150000 - start)
    if high = [] then s else writeVat s c (start - 0x100000) high

/-- The poisoned words that reads of scratch meet, one after another (R158, log entry 139). -/
def meetPoison (s : State) (c : CoreId) (ws : List Nat) : State :=
  if ws = [] then s
  else ws.foldl (fun s w => scratchPoison s c (8 * w)) { s with freeCount := s.freeCount + 1 }

/-- What a unit reads of the core window: of a poisoned word it gets open bytes (R158). -/
def takeWindow (s : State) (c : CoreId) (off n : Nat) : List Byte :=
  let bs := readWindow s c off n
  let bad := poisonedIn s c off n
  if bad = [] then bs
  else (List.range n).map fun i =>
    if bad.contains ((off + i) / 8) then Config.poisonByte s.freeCount (off + i) else bs.getD i 0

/-- The poisoned words that a write covers in part, for which it reads them (R158). -/
def partialPoison (s : State) (c : CoreId) (off n : Nat) : List Nat :=
  (poisonedIn s c off n).filter fun w => !(decide (off ≤ 8 * w) && decide (8 * w + 8 ≤ off + n))

/-- What an instruction of a task does once the poisoned words it reads have been met: nothing more where that aborted its
task (R158, R338). -/
def afterPoison (s : State) (t : SlotId) (ws : List Nat) (f : State → State) : State :=
  if ws = [] then f s
  else
    let s := meetPoison s t.core ws
    if (getSlot s t).state = .empty then s else f s

/-- The effect of an instruction of a unit, where the unit works on a command of the task (R159, R163). -/
def onUnit (u : UnitKind) (t : SlotId) (f : State → State) (s : State) : Host.Outcome State Fault Refusal :=
  .next (if unitActive (getSlot s t) u then f s else s)

/-- Whether the tables hold a range of the core window for a task (R94, R166, R186): it ends below the reserved part, and no
byte of it is another task's scratch (log entry 142). -/
def heldFor (s : State) (t : SlotId) (off n : Nat) : Bool :=
  decide (off + n ≤ 0x150000) &&
  !((slotsOfCore t.core).any fun u =>
    let x := getSlot s u
    u != t && x.state != .empty && decide (x.base < off + n) && decide (off < x.base + x.saveBytes + x.workBytes))

/-- Whether the ranges that the vector engine accesses for a task pass translation and protection, through which they go
during start-up, test and recovery only (R186). -/
def accessAllowed (s : State) (t : SlotId) (ranges : List (Nat × Nat)) : Bool :=
  (decide (s.pwr.phase = .running) && !s.dep.recovery) || ranges.all fun r => heldFor s t r.1 r.2

/-- The effect of an instruction of the vector engine that accesses ranges of the core window; an access that fails translation
aborts the whole task (R186). -/
def onWindow (t : SlotId) (ranges : State → List (Nat × Nat)) (f : State → State) (s : State) :
    Host.Outcome State Fault Refusal :=
  onUnit .vector t (fun s => if accessAllowed s t (ranges s) then f s else abortTask s t) s

end Sys2Proof.Machine
end

