-- ==== Sys2Proof/Machine/Operator.lean ====
section
/-! DEFINITION. The vector operators (R253 to R255, R268): what a task's run of 64 rows does in the scratch of its core. The
lanes are FP32, or INT32 where every tensor is INT32 (log entry 126). -/

namespace Sys2Proof.Machine

/-! ## Rows in scratch -/

/-- A tensor's rows as a run holds them at an offset of a core's scratch: `n` elements a row, one row after another in storage
units. -/
def scratchRows (c : CoreId) (off : Nat) (d : Desc) (n rows : Nat) : Desc :=
  let per : Nat := (n + descU d - 1) / descU d * descUnit d
  { d with
    base := scratchAddr c off, rank := 2, sharded := false, extent := [n, rows, 1, 1, 1]
    stride := [(descUnit d : Int), (per : Int), 0, 0, 0] }

/-- Bytes that such rows take. -/
def rowsBytes (d : Desc) (n rows : Nat) : Nat :=
  (n + descU d - 1) / descU d * descUnit d * rows

/-- A run of a vector operator: its operands as they lie in scratch, none for one that is absent, with the elements of a row
on this module, and the rows of the run. -/
structure OpTensors where
  in0 : Desc
  in1 : Option Desc
  in3 : Option Desc
  out : Desc
  rows : Nat
deriving DecidableEq, Repr

/-- The operands of a task's run (R253, R268). NORM's gain and bias are one row each. -/
def opTensors (s : State) (t : SlotId) (c : TaskCtx) (o : OpRun) : Option OpTensors :=
  match ctxDesc s c 0, ctxDesc s c 2 with
  | some a, some d =>
    let rows := min 64 (vectorRows s c.image a - 64 * c.task.rowTile)
    let here (x : Desc) : Nat := extentHere s c.image x 0
    let one (k off : Nat) : Option Desc :=
      (ctxDesc s c k).map fun x => scratchRows t.core off x (here x) (if c.node.op = 0x12 then 1 else rows)
    some { in0 := scratchRows t.core o.in0 a (here a) rows, in1 := one 1 o.in1, in3 := one 3 o.in3,
           out := scratchRows t.core o.out d (here d) rows, rows := rows }
  | _, _ => none

/-- The lane format of a run (log entry 126). -/
def opFormat (n : Node) (x : OpTensors) : VeFormat :=
  let int (d : Desc) : Bool := d.format == fmtInt32
  if (n.op == 0x11 || n.op == 0x14) && int x.in0 && int x.out && x.in1.all int then .int32 else .fp32

/-- Element `i` of row `m` of a run's operand as a lane. -/
def rowLane (s : State) (fmt : VeFormat) (d : Desc) (m i : Nat) : Word :=
  if i < extentOf d 0 then
    if fmt = .int32 then BitVec.ofNat 32 (elemBits s d [i, m])
    else BitVec.ofNat 32 (encodeF fp32 .rne (elemValue s d [i, m]))
  else Config.shapeOpen s.freeCount i

/-- The first `n` lanes of row `m` of a run's operand; zeros where the node has none. -/
def rowLanes (s : State) (fmt : VeFormat) (d : Option Desc) (m n : Nat) : List Word :=
  match d with
  | some d => (List.range n).map (rowLane s fmt d m)
  | none => List.replicate n 0

/-- A lane as a value. -/
def laneValue (fmt : VeFormat) (w : Word) : FVal :=
  if fmt = .int32 then fvalOfInt w.toInt 0 else decodeF fp32 w.toNat

/-! ## Reductions over a row -/

/-- The runs of 64 consecutive values, the last one filled up (R254). -/
def runsOf (fill : Word) (l : List Word) : List (List Word) :=
  (List.range ((l.length + 63) / 64)).map fun j => (List.range 64).map fun i => l.getD (64 * j + i) fill

/-- Values combined along a dimension (R254): each run of 64 by the lane tree of R172, the runs by the tree of R106. -/
def combineRow (f : Word → Word → Word) (fill : Word) (l : List Word) : Word :=
  (treeFold f 26 ((runsOf fill l).map fun r => (treeFold f 6 r).getD fill)).getD fill

/-- The sum of a row (R254). -/
def sumRow (fmt : VeFormat) (l : List Word) : Word :=
  combineRow (addLane fmt .rne) 0 l

/-- The greatest (`max`) or the least value of a row (R254). -/
def extremeRow (max : Bool) (fmt : VeFormat) (l : List Word) : Word :=
  let fill : Word := if fmt = .int32 then (if max then 0x80000000 else 0x7FFFFFFF)
    else if max then 0xFF800000 else 0x7F800000
  combineRow (redLane max fmt) fill l

/-! ## The operators -/

/-- EWISE of two lanes (R253). -/
def ewiseLane (variant : Nat) (fmt : VeFormat) (a b : Word) : Word :=
  match variant with
  | 0 => addLane fmt .rne a b
  | 1 => subLane fmt .rne a b
  | 2 => mulLane fmt .rne a b
  | 3 => minMaxLane 5 fmt a b
  | _ => minMaxLane 4 fmt a b

/-- SOFTMAX of a row (R173, R254). -/
def softmaxRow (x : List Word) : List Word :=
  let top := extremeRow true .fp32 x
  let e := x.map fun v => specialF .exp2 .rne (Config.softmaxArg v top)
  let r := specialF .rcp .rne (sumRow .fp32 e)
  e.map fun v => mulLane .fp32 .rne v r

/-- NORM of a row (R173, R254): the sum of squares from FMA lanes, RSQRT, gain and bias. -/
def normRow (variant : Nat) (eps : Word) (x gain bias : List Word) : List Word :=
  let v := if variant = 1 then x.map (Config.normCentre x.length (sumRow .fp32 x)) else x
  let squares := sumRow .fp32 (v.map fun a => fmaLane .fp32 .rne a a 0)
  let r := specialF .rsqrt .rne (Config.normArg variant x.length squares eps)
  (List.range v.length).map fun i =>
    Config.normLane variant (v.getD i 0) r (gain.getD i 0) (bias.getD i 0)

/-- The fill values of the inactive outputs that a row of an activation takes (R144, R148, R151), by column; none for an
output that is not inactive. -/
def fillOf (s : State) (c : TaskCtx) (m n : Nat) : Option Word :=
  let producers := (List.range c.image.nodes.length).filter fun p =>
    c.image.edges.any fun e => e.producer == p && e.consumer == c.stage
  producers.findSome? fun p =>
    match c.image.nodes[p]?, getJob s c.job with
    | some q, some j =>
      if nodeAssay q && (tget j.nodes {} p).inactive.contains (c.task.elem, m / 64, n / 64, m % 64) then
        some (if nodeMargin q then q.fill0 else 0)
      else none
    | _, _ => none

/-- Row `m` of a run's result (R253 to R255); an activation takes f_0 where its input is inactive (R148). -/
def opRow (s : State) (c : TaskCtx) (x : OpTensors) (m : Nat) : List FVal :=
  let fmt := opFormat c.node x
  let n := extentOf x.in0 0
  let a := rowLanes s fmt (some x.in0) m n
  let lanes : List Word :=
    match c.node.op with
    | 0x10 => (List.range n).map fun i =>
        (fillOf s c (64 * c.task.rowTile + m) i).getD (actLane .rne c.node.variant c.node.thresh (a.getD i 0))
    | 0x11 => List.zipWith (ewiseLane c.node.variant fmt) a (rowLanes s fmt x.in1 m n)
    | 0x12 => normRow c.node.variant c.node.eps a (rowLanes s fmt x.in1 0 n) (rowLanes s fmt x.in3 0 n)
    | 0x13 => softmaxRow a
    | 0x14 =>
      [match c.node.variant with
        | 0 => sumRow fmt a
        | 1 => extremeRow true fmt a
        | _ => extremeRow false fmt a]
    | _ => []
  if c.node.op = 0x15 then (List.range n).map fun i => elemValue s x.in0 [i, m] else lanes.map (laneValue fmt)

/-- The CVT modifiers of a node's results (R28, R251). -/
def nodeMods (n : Node) : CvtMod :=
  ⟨bitAt n.cvtMod 0, bitAt n.cvtMod 1, bitAt n.cvtMod 2⟩

/-- The ranges of scratch that a run reads, and the one it writes: offset and bytes. -/
def opRanges (x : OpTensors) (o : OpRun) : List (Nat × Nat) × (Nat × Nat) :=
  let size (d : Desc) : Nat := rowsBytes d (extentOf d 0) (extentOf d 1)
  ((o.in0, size x.in0) :: ((x.in1.map fun d => (o.in1, size d)).toList ++ (x.in3.map fun d => (o.in3, size d)).toList),
   (o.out, size x.out))

/-- A run of a vector operator whose operands lie in the task's working scratch. -/
def opReady (s : State) (t : SlotId) (o : OpRun) : Option (TaskCtx × OpTensors) :=
  (taskCtx s t).bind fun c => (opTensors s t c o).bind fun x =>
    let r := opRanges x o
    if isVectorOp c.node = true ∧ (r.2 :: r.1).all (fun p => inWork (getSlot s t) p.1 p.2) = true then
      some (c, x)
    else none

/-- The rows of a run written, with the instructions and cycles that they took, whose numbers no rule gives (R174, log entry
126). -/
def runOperator (s : State) (t : SlotId) (o : OpRun) (c : TaskCtx) (x : OpTensors) : State :=
  let w := joinWrites ((List.range x.rows).map fun m =>
    wholeRowWrites x.out (nodeMods c.node) m (extentOf x.out 0) (opRow s c x m))
  let bad := ((opRanges x o).1.flatMap fun p => poisonedIn s t.core p.1 p.2).eraseDups
  afterPoison s t bad fun s =>
    let s := { s with freeCount := s.freeCount + 1 }
    let (insns, s) := drawChoice s
    let (cycles, s) := drawChoice s
    let b := coreRegBase t.core
    let s := count (count s b Ctr.VE_INSN_CNT insns) b Ctr.VE_BUSY_CNT cycles
    cvtCountCore (applyWrites s w.1) t w.2

end Sys2Proof.Machine
end

