-- ==== Sys2Proof/Machine/Jobs.lean ====
section
/-! DEFINITION. Jobs and tasks: the end of a job (R275), work counters (R269 to R271), and the task slots of a core (R159
to R163, R338). -/

namespace Sys2Proof.Machine

/-! ## JOB_COMPLETE -/

/-- Whether every task of every node of a job that runs here has completed, with its commits (R275). -/
def jobDone (s : State) (j : Job) : Bool :=
  (jobNodes s j).all (fun n =>
    let r := tget j.nodes {} n.1
    r.started && r.doneTasks == r.total) &&
  s.scatters.all fun b => b.job != j.key || b.committed

/-- JOB_COMPLETE (R275, R276): a job whose tasks have all completed ends COMPLETE; one that is being ended ends when no
started task of it is left. -/
def completeJob (s : State) (key : Nat) : State :=
  match getJob s key with
  | none => s
  | some j =>
    match j.ending with
    | some status => if jobSlots s key = [] then drainAll (endJob s key status) else s
    | none => if j.state = .running && jobDone s j then drainAll (endJob s key 0) else s

def execJobComplete (job : Nat) (s : State) : Host.Outcome State Fault Refusal :=
  .next (completeJob s job)

/-! ## FETCH_AND_ADD -/

/-- The number of a requester within its seam: cores, then adit units (R269). -/
def requesterNum : Requester → Nat
  | .core c => c.val
  | .adit u => 32 + u.val

/-- Whether a requester is in service (R334). -/
def requesterUp (s : State) (seam : Fin 16) : Requester → Bool
  | .core c => coreUp s ⟨seam, c⟩
  | .adit u => !s.dep.fences.adits.contains (aditKey ⟨seam, u⟩) && !s.dep.fences.seams.contains seam.val

/-- Whether a counter's job may be given tasks: it runs, and nothing ends or holds it. -/
def mayServe (s : State) (c : WorkCounter) : Bool :=
  c.active && match getJob s c.job with
    | some j => j.state == .running && j.ending.isNone
    | none => false

/-- Whether a task is a column group of the adit path (R137, R140). -/
def onAdit (c : TaskCtx) : Bool :=
  c.node.op == 0x01 && ((c.run.paths.find? fun e => e.1 == c.task.elem).map (·.2)).getD false

/-- Whether a requester takes a task of a counter (R137, R167): an adit unit a column group whose weights lie in its seam, a
core any other, and array work only with an array in service. -/
def fitsRequester (s : State) (seam : Fin 16) (who : Requester) (c : WorkCounter) (i : Nat) : Bool :=
  match counterCtx s c i with
  | none => true
  | some x =>
    match who with
    | .adit _ => onAdit x && groupSeam s x.image x.node x.task == some seam.val
    | .core k => !onAdit x && (!onArrays x || liveArrays s ⟨seam, k⟩ != [])

/-- The head of a seam's re-run list that may run and that the requester takes (R338). -/
def headRerun (s : State) (seam : Fin 16) (who : Requester) : Option Rerun :=
  s.dep.reruns.find? fun r => r.seam == seam.val && mayServe s (getCounter s r.seam r.counter) &&
    fitsRequester s seam who (getCounter s r.seam r.counter) r.index

/-- A task index given to a requester. -/
def giveIndex (s : State) (seam k v : Nat) (c : WorkCounter) (who : Requester) : State :=
  setCounter s seam k { c with
    given := (v, requesterNum who) :: c.given.filter (fun e => e.1 != v), received := some v }

/-- Whether a counter's next task waits for a requester. -/
def offers (s : State) (seam : Fin 16) (k : Nat) (who : Requester) : Bool :=
  let c := getCounter s seam.val k
  mayServe s c && decide (c.next < c.limit) && fitsRequester s seam who c c.next

/-- The dry time of a counter's next task, its start mark (R327). -/
def nextDry (s : State) (seam : Fin 16) (k : Nat) : Option Time :=
  let c := getCounter s seam.val k
  (startMark s seam.val c c.next).map Int.toNat

/-- Whether an adit unit may turn to a counter: none of the others that offer it a group has an earlier dry time (R137, log
entry 150). -/
def earliestFor (s : State) (seam : Fin 16) (k : Nat) : Requester → Bool
  | .core _ => true
  | .adit u => (List.range 64).all fun j =>
      !(offers s seam j (.adit u) && dryBefore (nextDry s seam j) (nextDry s seam k))

/-- The units of a seam that have finished a column group (R137, R270). -/
def finishers (s : State) (seam : Fin 16) (k v : Nat) : List AditId :=
  ((List.finRange 4).map fun u => (⟨seam, u⟩ : AditId)).filter fun u =>
    (getAdit s u).finished.any fun d => d.counter == k && d.index == v

/-- Whether a task that was to run on the adit path has to leave it: its weights lie in a seam whose adit units are all fenced,
or hold a rehomed granule (R134, R139). -/
def mustLeave (s : State) (c : TaskCtx) : Bool :=
  onAdit c && !(weightDescs s c.image c.node c.task.elem).all (aditWeights s c.image)

/-- The tasks of a batch element in a counter that no adit unit has finished and that have not completed. -/
def openTasks (s : State) (seam : Fin 16) (k elem : Nat) : List Nat :=
  let w := getCounter s seam.val k
  (List.range w.limit).filter fun i => !w.bits.contains i && finishers s seam k i == [] &&
    (w.tasks[i]?).any fun t => t.elem == elem

/-- The further tasks that a column group becomes on the arrays: a task there is one part of one segment (R104, R105). -/
def furtherParts (s : State) (c : TaskCtx) : List TaskDef :=
  let (_, segs, split) := ctxCut s c
  (List.range (segs * split - 1)).map fun p => { c.task with part := p + 1 }

/-- The open column groups of a batch element in one counter made array tasks; those given to adit units run again. -/
def leaveCounter (s : State) (seam : Fin 16) (k elem : Nat) : State :=
  let w := getCounter s seam.val k
  let idx := openTasks s seam k elem
  let new := (idx.filterMap (counterCtx s w)).flatMap (furtherParts s)
  let moved := idx.filter fun i => w.given.any fun g => g.1 == i && decide (32 ≤ g.2)
  let s := setCounter s seam.val k { w with
    tasks := w.tasks ++ new, limit := w.limit + new.length, given := w.given.filter fun g => !moved.contains g.1 }
  let s := { s with dep := { s.dep with
    reruns := s.dep.reruns ++ moved.map fun i => ⟨seam.val, k, i⟩
    rerunning := s.dep.rerunning.filter fun e => !(e.seam == seam.val && e.counter == k && moved.contains e.index) } }
  updRun s w.job w.node fun r => { r with total := r.total + new.length }

/-- A batch element of a node put on the arrays in every seam (R134, R139, log entry 149). -/
def leaveElem (s : State) (job node elem : Nat) : State :=
  let keys := (s.counters.filter fun e => e.2.active && e.2.job == job && e.2.node == node).map (·.1)
  let s := keys.foldl (fun s e => leaveCounter s (Fin.ofNat 16 (e / 64)) (e % 64) elem) s
  updRun s job node fun r => { r with
    arrays := true, paths := r.paths.map fun p => if p.1 = elem then (elem, false) else p }

/-- The elements of a counter that have to leave the adit path put on the arrays. -/
def leaveAdit (s : State) (seam : Fin 16) (k : Nat) : State :=
  let w := getCounter s seam.val k
  let elems := (((List.range w.limit).filterMap (counterCtx s w)).filter (mustLeave s)).map (·.task.elem)
  elems.eraseDups.foldl (fun s b => leaveElem s w.job w.node b) s

/-- FETCH_AND_ADD (R137, R269, R338): the head of the seam's re-run list, else the counter's next index, else none. -/
def fetchAdd (s : State) (seam : Fin 16) (k : Fin 64) (who : Requester) : State :=
  if s.dep.out || !requesterUp s seam who then s
  else
    let s := leaveAdit s seam k.val
    match headRerun s seam who with
    | some r =>
      let s := { s with dep := { s.dep with
        reruns := s.dep.reruns.filter (· != r), rerunning := s.dep.rerunning ++ [r] } }
      giveIndex s r.seam r.counter r.index (getCounter s r.seam r.counter) who
    | none =>
      let c := getCounter s seam.val k.val
      if !mayServe s c || !earliestFor s seam k.val who then s
      else if offers s seam k.val who then giveIndex s seam.val k.val c.next { c with next := c.next + 1 } who
      else setCounter s seam.val k.val { c with received := none }

def execFetchAndAdd (seam : Fin 16) (counter : Fin 64) (who : Requester) (s : State) : Host.Outcome State Fault Refusal :=
  .next (fetchAdd s seam counter who)

/-! ## TASK_COMPLETE -/

/-- Whether a task's writes have all landed (R270): its commands are done, its queue is empty, and a SCATTER_ADD's commit
is journaled. -/
def taskLanded (s : State) (t : SlotId) : Bool :=
  let x := getSlot s t
  let q := getQueue s (slotQueue t)
  x.cmds.all (·.done) && q.ready == [] && q.issued == [] &&
  s.scatters.all fun b => !(b.job == x.job && b.node == x.stage && b.task == divisionTask s t) || b.committed

/-- The slot of a completed task freed: its tiles, save records and scratch are released. -/
def freeSlot (s : State) (t : SlotId) : State :=
  let c := getCore s t.core
  let s := setCore s t.core { c with tiles := c.tiles.filter fun v => v.slot != t.slot }
  ensureRunning (setSlot s t {}) t.core

/-- A column group that an adit unit has finished. -/
def finishedGroup (s : State) (seam : Fin 16) (k v : Nat) : Option AditDone :=
  ((finishers s seam k v).head?).bind fun u =>
    (getAdit s u).finished.find? fun d => d.counter == k && d.index == v

/-- The events, the time and the largest discarded magnitude of a completed task (R150, R275, R325). -/
def taskTotals (s : State) (seam : Fin 16) (k v : Nat) (slot : Option SlotId) : Table Nat × Nat × Word :=
  match slot with
  | some t =>
    let x := getSlot s t
    (x.counts, s.clk.now - x.startedAt, x.discardMax)
  | none =>
    match finishedGroup s seam k v with
    | some d => (d.counts, s.clk.now - d.startedAt, 0)
    | none => ([], 0, 0)

/-- A finished column group taken off its unit. -/
def forgetGroup (s : State) (seam : Fin 16) (k v : Nat) : State :=
  (finishers s seam k v).foldl (fun s u =>
    let x := getAdit s u
    setAdit s u { x with finished := x.finished.filter fun d => !(d.counter == k && d.index == v) }) s

/-- The greater of two FP32 words that are not negative. -/
def maxWord (a b : Word) : Word :=
  if a.toNat < b.toNat then b else a

/-- The times of a node's last tasks in a seam with one more (R325). -/
def noteTime (g : Stage) (seam time : Nat) : Stage :=
  let mine := ((seam, time) :: g.taskTimes.filter fun e => e.1 == seam).take 16
  { g with taskTimes := mine ++ g.taskTimes.filter fun e => e.1 != seam }

/-- A first completion: the bit is set, the events are summed into the node (R270, R275). -/
def firstCompletion (s : State) (seam : Fin 16) (k v : Nat) (c : WorkCounter) (slot : Option SlotId) : State :=
  let tot := taskTotals s seam k v slot
  let s := setCounter s seam.val k { c with bits := v :: c.bits, given := c.given.filter fun e => e.1 != v }
  let s := updRun s c.job c.node fun r => { r with
    doneTasks := r.doneTasks + 1, lastDone := max r.lastDone s.clk.now, counts := mergeCounts r.counts tot.1,
    discardMax := maxWord r.discardMax tot.2.2 }
  match getJob s c.job with
  | some j => setStage s j.graph c.node (noteTime (getStage s j.graph c.node) seam.val tot.2.1)
  | none => s

/-- A second completion discarded (R270). -/
def dupCompletion (s : State) (seam k : Nat) (c : WorkCounter) : State :=
  let b := wcRegBase seam k
  let s := raise (count s b Ctr.WC_DUP_CNT 1) b Flag.wc_DUP
  let s := updJob s c.job fun j => { j with counts := addCount j.counts 5 1 }
  updRun s c.job c.node fun r => { r with dups := r.dups + 1 }

/-- Whether the work of a task is there to complete: the named slot holds it, or, for a column group, an adit unit of the seam
has finished it (R137, R270). -/
def workDone (s : State) (seam : Fin 16) (k v : Nat) : Option SlotId → Bool
  | some t =>
    let x := getSlot s t
    x.state != .empty && x.counter == k && x.index == v && t.core.seam.val == seam.val && taskLanded s t
  | none => finishers s seam k v != []

/-- TASK_COMPLETE (R270, R357): recovery ends with the last re-run. -/
def completeTask (s : State) (seam : Fin 16) (k : Fin 64) (v : Nat) (slot : Option SlotId) : State :=
  let c := getCounter s seam.val k.val
  if !c.active || c.limit ≤ v || !workDone s seam k.val v slot then s
  else
    let s := if c.bits.contains v then dupCompletion s seam.val k.val c else firstCompletion s seam k.val v c slot
    let e : Rerun := ⟨seam.val, k.val, v⟩
    let s := { s with dep := { s.dep with
      reruns := s.dep.reruns.filter (· != e), rerunning := s.dep.rerunning.filter (· != e) } }
    endRecovery (match slot with | some t => freeSlot s t | none => forgetGroup s seam k.val v)

def execTaskComplete (seam : Fin 16) (counter : Fin 64) (index : Nat) (slot : Option SlotId) (s : State) :
    Host.Outcome State Fault Refusal :=
  .next (completeTask s seam counter index slot)

/-! ## TASK_LOAD -/

/-- Whether the scratch of a task fits beside that of the core's other resident tasks (R166): save area and working scratch
lie one behind the other in scratch, in 64 B units, apart from theirs. -/
def scratchFits (s : State) (c : CoreId) (p : TaskSpec) : Bool :=
  p.base % 64 == 0 && decide (p.base + p.saveBytes + p.workBytes ≤ 0x100000) &&
  (slotsOfCore c).all fun t =>
    let x := getSlot s t
    !overlap p.base (p.saveBytes + p.workBytes) x.base (x.saveBytes + x.workBytes)

/-- The vat tiles that a task can hold at once (R166, R260): the tiles of its block, with their assay tiles, within the
positions of its format. -/
def tilesAtOnce (s : State) (c : TaskCtx) : Nat :=
  if onArrays c then
    min (positions (nodeX64 c.node)).length (c.task.blockM * c.task.blockN * (if assayOn s c then 2 else 1))
  else 0

/-- Whether a core may run a task (R137, R166, R167): its save area holds a record for every vat tile that it can hold at
once, and array work finds an array in service. -/
def suitsCore (s : State) (core : CoreId) (c : TaskCtx) (p : TaskSpec) : Bool :=
  !onAdit c && decide (tilesAtOnce s c * recordSize (nodeX64 c.node) ≤ p.saveBytes) &&
  (!onArrays c || liveArrays s core != [])

/-- The output tiles and weight tiles of a stream's charges, in stream order. -/
def streamCharges (p : TaskSpec) (assay : Bool) : List (Nat × Nat × Nat) :=
  p.cmds.filterMap fun k => match k.work with
    | .charge rt ct kt a => if a = assay then some (rt, ct, kt) else none
    | _ => none

/-- The output tiles of a task's block (R260). -/
def blockTiles (c : TaskCtx) : List (Nat × Nat) :=
  (List.range c.task.blockM).flatMap fun i => (List.range c.task.blockN).map fun j => (c.task.rowTile + i, c.task.colTile + j)

/-- Whether charges are those of a block: every weight tile of the range for each of its output tiles, in reduction order,
and in K_INNER those of one output tile behind one another (R100, R260). A weight tile that BLK64 takes out has its charge
removed at issue (R85). -/
def chargesFit (s : State) (c : TaskCtx) (l : List (Nat × Nat × Nat)) (assay : Bool) : Bool :=
  let (t, segs, split) := ctxCut s c
  let (j, i) := ctxPart s c
  let kts := if assay then List.range t else partTiles t segs split j i
  let tiles := blockTiles c
  let order := (l.map fun e => (e.1, e.2.1)).eraseDups
  l.all (fun e => tiles.contains (e.1, e.2.1)) &&
  tiles.all (fun v => (l.filter fun e => e.1 == v.1 && e.2.1 == v.2).map (·.2.2) == kts) &&
  (c.run.kOuter || l == order.flatMap fun v => kts.map fun k => (v.1, v.2, k))

/-- Whether a command stream is one that the sequencer builds for a task (R144, R254, R260): the charges of its block, with
those of the assay pass where it runs, or one run of a vector operator (log entry 143). -/
def streamOk (s : State) (c : TaskCtx) (p : TaskSpec) : Bool :=
  if onArrays c then
    chargesFit s c (streamCharges p false) false && (!assayOn s c || chargesFit s c (streamCharges p true) true)
  else
    streamCharges p false == [] && streamCharges p true == [] &&
    (!isVectorOp c.node || (p.cmds.filter fun k => match k.work with | .operator _ => true | _ => false).length == 1)

/-- Whether a task may be loaded into a slot (R161, R166, R269): the slot is empty, the core was given the index, and save
area and working scratch fit. -/
def canLoadTask (s : State) (t : SlotId) (p : TaskSpec) : Bool :=
  let c := getCounter s t.core.seam.val p.counter.val
  (getSlot s t).state == .empty && coreUp s t.core && mayServe s c && c.given.contains (p.index, t.core.core.val) &&
  scratchFits s t.core p &&
  match counterCtx s c p.index with | some x => suitsCore s t.core x p && streamOk s x p | none => true

/-- The outputs that an earlier run of a task found inactive forgotten: the task starts afresh (R148, R338). -/
def forgetInactive (s : State) (c : TaskCtx) : State :=
  updRun s c.job c.stage fun r => { r with
    inactive := r.inactive.filter fun e => !(e.1 == c.task.elem && inTaskBlock c e.2.1 e.2.2.1) }

/-- The outstanding limit of a queue put in its register (R216). -/
def setMaxOut (s : State) (q : QueueId) (n : Nat) : State :=
  setRawField s (queueRegBase q) 6 0 n

/-- TASK_LOAD (R161, R216): the task becomes READY or WAITING, and RUNNING where no task of the core runs; the limit of its
hoist queue is set. -/
def loadTask (s : State) (t : SlotId) (p : TaskSpec) : State :=
  if s.dep.out || !canLoadTask s t p then s
  else
    let c := getCounter s t.core.seam.val p.counter.val
    let x : TaskSlot :=
      { counter := p.counter.val, index := p.index, job := c.job, stage := c.node, dry := p.dry, base := p.base,
        saveBytes := p.saveBytes, workBytes := p.workBytes, cmds := p.cmds.map fun d => { cmd := d } }
    let s := setMaxOut s (slotQueue t) p.maxOut.val
    let s := ensureRunning (setSlot s t { x with state := idleState x }) t.core
    match counterCtx s c p.index with
    | some y => forgetInactive s y
    | none => s

def execTaskLoad (slot : SlotId) (spec : TaskSpec) (s : State) : Host.Outcome State Fault Refusal :=
  .next (loadTask s slot spec)

/-! ## COMMAND_ISSUE -/

/-- The domain that a unit's commands enter (R309, R319). -/
def unitDomain (seam : Fin 16) : UnitKind → DomainId
  | .array => .seam seam .aclk
  | .fabric => .seam seam .fclk
  | _ => .seam seam .kclk

/-- Commands of a slot that have completed marked (R159). A charge completes with its last vector, a vector operator with its
run. -/
def markDone (x : TaskSlot) (done : List Nat) : TaskSlot :=
  { x with cmds := (List.range x.cmds.length).filterMap fun i =>
      x.cmds[i]?.map fun c =>
        if c.issued && done.contains i && c.cmd.work == .other then { c with done := true } else c }

/-- A command of a slot marked as issued, and as done where that is all it does. -/
def setIssued (s : State) (t : SlotId) (i : Nat) (done : Bool) : State :=
  let x := getSlot s t
  setSlot s t { x with cmds := x.cmds.modify i fun c => { c with issued := true, done := done } }

/-- A charge command as it is issued (R85, R144, R148, R159): it waits until the rows of its tile are known; the charge of a
weight tile whose BLK64 bit is set, of a tile whose rows are all masked or of an assay pass that does not run is removed.
None where it is not issued. -/
def issueCharge (s : State) (t : SlotId) (i : Nat) (w : Nat × Nat × Nat × Bool) : Option State :=
  let (rt, ct, kt, assay) := w
  match taskCtx s t with
  | none => none
  | some c =>
    if !onArrays c || !inTaskBlock c rt ct || !rowsKnown s c (getSlot s t) rt ct assay then none
    else if (assay && !assayOn s c) || (!assay && fullyMasked c (getSlot s t) rt ct) then some (setIssued s t i true)
    else if (ctxTiles s c ct assay).1.contains kt then some (setIssued s t i false)
    else if blkBit s c.image c.node (ctxCols s c) kt ct then
      some (count (setIssued s t i true) (spRegBase t.core) Ctr.SP_BLK_SKIP_CNT 1)
    else none

/-- The work of a command of a stream. -/
def workOf (x : TaskSlot) (i : Nat) : Option CmdWork :=
  (x.cmds[i]?).map fun (c : SlotCmd) => c.cmd.work

/-- What the sequencer does with a command that is ready (R159, R254); none where it is not issued. -/
def issueWork (s : State) (t : SlotId) (i : Nat) : Option State :=
  match workOf (getSlot s t) i with
  | some (.charge rt ct kt assay) => issueCharge s t i (rt, ct, kt, assay)
  | some (.operator o) => (opReady s t o).map fun r => runOperator (setIssued s t i true) t o r.1 r.2
  | some .other => some (setIssued s t i false)
  | none => none

/-- COMMAND_ISSUE (R159, R160, R319): the next command of a unit, in stream order, once it is ready. -/
def issueCommand (s : State) (t : SlotId) (u : UnitKind) (completed : List Nat) : State :=
  let x := markDone (getSlot s t) completed
  let s := setSlot s t x
  let s :=
    match nextCmd x u with
    | some i =>
      if x.state = .running && !s.dep.out && cmdReady x i && coreUp s t.core &&
          isLiveDom s (unitDomain t.core.seam u) then
        (issueWork (markStarted s t) t i).getD s
      else s
    | none => s
  settle s t.core

def execCommandIssue (slot : SlotId) (unit : UnitKind) (completed : List Nat) (s : State) : Host.Outcome State Fault Refusal :=
  .next (issueCommand s slot unit completed)

/-! ## TASK_SWITCH -/

/-- Whether the running task is later than another by more than PREEMPT_GAP (R162); a gap of 0 disables the switch. -/
def dryGap (s : State) (running ready : Option Time) : Bool :=
  s.pwr.config.preemptGap != 0 &&
  match ready, running with
  | some r, some x => decide (r + 10 * s.pwr.config.preemptGap < x)
  | some _, none => true
  | none, _ => false

/-- The switch from one slot to another (R162, R163). -/
def switchTo (s : State) (c : CoreId) (old new : SlotId) (dry : Bool) : State :=
  let x := getSlot s old
  let s := setSlot s old { x with state := idleState x }
  let s := setSlot s new { getSlot s new with state := .running }
  let b := coreRegBase c
  let s := raise (count s b Ctr.CORE_SWITCH_CNT 1) b Flag.core_SWITCH
  if dry then raise (count s b Ctr.CORE_PREEMPT_CNT 1) b Flag.core_PREEMPT else s

/-- TASK_SWITCH (R162, R163). Cycles in which no resident task has a ready command are counted (R174, log entry 141). -/
def switchTask (s : State) (c : CoreId) (cause : SwitchCause) : State :=
  let s := refreshSlots s c
  match runningSlot s c with
  | none =>
    let s := ensureRunning s c
    match cause, runningSlot s c with
    | .wait n, none => count s (coreRegBase c) Ctr.CORE_NOREADY_CNT n
    | _, _ => s
  | some old =>
    let x := getSlot s old
    match cause, bestReady s c with
    | .wait n, some new =>
      if !hasReady x && s.pwr.config.switchWait ≤ n then switchTo s c old new false else s
    | .wait n, none => if hasReady x then s else count s (coreRegBase c) Ctr.CORE_NOREADY_CNT n
    | .dry, some new => if dryGap s (slotDry s old) (slotDry s new) then switchTo s c old new true else s
    | .dry, none => s

def execTaskSwitch (core : CoreId) (cause : SwitchCause) (s : State) : Host.Outcome State Fault Refusal :=
  .next (switchTask s core cause)

/-! ## TASK_ABORT -/

def execTaskAbort (slot : SlotId) (s : State) : Host.Outcome State Fault Refusal :=
  .next (abortTask s slot)

end Sys2Proof.Machine
end

