-- ==== Sys2Proof/Machine/Adit.lean ====
section
/-! DEFINITION. The adit path (R133 to R141): column groups with their residue checks, and probes. -/

namespace Sys2Proof.Machine

/-! ## Partials -/

/-- What a part of a column group gives: its tile, the vat's counts, the metadata's, the forced, overflowed and underflowed
partials, the weight tiles split (R75) and skipped (R85), the vectors split (R77), and whether its residue checks hold. -/
structure AditPart where
  tile : VatTile
  vat : VatCounts := {}
  md : MdCounts := {}
  special : Nat := 0
  ovf : Nat := 0
  ufl : Nat := 0
  splits : Nat := 0
  skips : Nat := 0
  spans : Nat := 0
  residueOk : Bool := true
deriving DecidableEq, Repr

/-- Two parts with a tile for both. -/
def AditPart.join (l r : AditPart) (tile : VatTile) (extra : VatCounts) : AditPart :=
  { tile := tile, vat := (l.vat.add r.vat).add extra, md := l.md.add r.md, special := l.special + r.special,
    ovf := l.ovf + r.ovf, ufl := l.ufl + r.ufl, splits := l.splits + r.splits, skips := l.skips + r.skips,
    spans := l.spans + r.spans, residueOk := l.residueOk && r.residueOk }

/-- A residue modulo 7, 0 to 6 (R139). -/
def res7 (v : Int) : Nat :=
  (v % 7).toNat

/-- The residue check of a half-column: the sum, as the lanes give it, against the residues of its operands (R139). -/
def residueHolds (t : WeightTile) (f : Flight) (w : Int → Int) (err : Int) (n h : Nat) : Bool :=
  res7 (drainSum t f none w n h + err) ==
    ((halfRows none h).map fun r => res7 (lineElem t f r n) * res7 (w (cellWeight t r n))).sum % 7

/-- Whether every residue check of a vector holds (R139). A disturbance falls into the first pass. -/
def vectorResidues (t : WeightTile) (f : Flight) (us : List Upset) : Bool :=
  let passes : List ((Int → Int) × Bool) := if t.mode = .mac2 then [(lowPart, true), (highPart, false)] else [(id, true)]
  passes.all fun p => (List.range 64).all fun n => t.colMask.contains n ||
    (List.range 2).all fun h => residueHolds t f p.1 (if p.2 then upsetOf us n h else 0) n h

/-- The partials of one vector of row `m` added as the drain and the vat would (R43, R98, R100, R135). -/
def aditVector (t : WeightTile) (m : Nat) (us : List Upset) (x : AditPart) (v : Vector64) : AditPart :=
  let f : Flight :=
    { elems := v.elems, upper := v.upper, lower := v.lower, planes := v.planes, row := m, tally := false, weights := t }
  let ps := vectorPartials t f none x.tile.x64 us
  let r := addOut x.tile ⟨x.tile.base, m, ps.filterMap fun q => q.2.out.map fun o => (q.1, o)⟩
  { x with
    tile := r.1, vat := x.vat.add r.2, special := x.special + (ps.map (·.2.special)).sum,
    ovf := x.ovf + (ps.map (·.2.ovf)).sum, ufl := x.ufl + (ps.map (·.2.ufl)).sum,
    residueOk := x.residueOk && vectorResidues t f us }

/-! ## Column groups -/

/-- The disturbances of a row against a weight tile; they fall into the first vector of the first part. -/
def upsetsAt (us : List AditUpset) (m kt part : Nat) : List Upset :=
  if part = 0 then (us.filter fun u => u.row == m && u.kt == kt).map (·.at_) else []

/-- One row against one part of a weight tile. -/
def aditRow (s : State) (c : TaskCtx) (t : WeightTile) (us : List AditUpset) (kt part : Nat) (x : AditPart) (m : Nat) :
    AditPart :=
  let l := ctxRow s c 0 kt m
  let x := if part = 0 then
      { x with md := x.md.add { oob := l.malformed }, spans := x.spans + bitOf (decide (1 < l.vectors.length)) }
    else x
  match l.vectors with
  | [] => x
  | v :: rest => rest.foldl (aditVector t m []) (aditVector t m (upsetsAt us m kt part) x v)

/-- One weight tile against every row, part by part (R75, R83, R100); a tile whose BLK64 bit is set is skipped (R85). -/
def aditTile (s : State) (c : TaskCtx) (us : List AditUpset) (x : AditPart) (kt : Nat) : AditPart :=
  let ct := c.task.colTile
  if blkBit s c.image c.node (ctxCols s c) kt ct then { x with skips := x.skips + 1 }
  else
    match loadOf s c ct kt 0 with
    | none => x
    | some first =>
      let parts := first.tile.parts
      let x := { x with md := x.md.add (loadCounts first 0), splits := x.splits + bitOf (decide (1 < parts)) }
      (List.range parts).foldl (fun x j =>
        let t := ((loadOf s c ct kt j).getD first).tile
        (rowsOfTile c 0).foldl (aditRow s c t us kt j) x) x

/-- Part `i` of segment `j` of a column group (R97, R104, R105, R135). -/
def aditPart (s : State) (c : TaskCtx) (us : List AditUpset) (j i : Nat) : AditPart :=
  let (t, segs, split) := ctxCut s c
  let tile : VatTile :=
    { base := 0, x64 := nodeX64 c.node, init := ctxInit s c 0 c.task.colTile, part := i, split := split, segment := j,
      segments := segs }
  (partTiles t segs split j i).foldl (aditTile s c us) { tile := initTile s tile }

/-- Two parts combined (R106, R110). -/
def joinParts (l r : AditPart) : AditPart :=
  let k := combineTiles l.tile r.tile
  l.join r k.1 k.2

/-- The entries of a column group: its parts by the tree of R106 within each segment, then the segments by the tree. -/
def aditGroup (s : State) (c : TaskCtx) (us : List AditUpset) : Option AditPart :=
  let (_, segs, split) := ctxCut s c
  let seg (j : Nat) : Option AditPart := treeFold joinParts 8 ((List.range split).map (aditPart s c us j))
  treeFold joinParts 16 ((List.range segs).filterMap seg)

/-! ## The vector buffer -/

/-- Positions of a chunk of an operation of `m` rows (R136). -/
def chunkLen (m : Nat) : Nat :=
  131072 / max 1 m / 2048 * 2048

/-- Whether an operation is worked in chunks (R136). -/
def isChunked (c : TaskCtx) : Bool :=
  decide (131072 < (ctxLens c).1 * (ctxLens c).2.1)

/-- The weight tiles of the last chunk of an operation (R136). -/
def lastChunk (s : State) (c : TaskCtx) : List Nat :=
  let g := 64 * ctxGain s c
  let (m, k, _) := ctxLens c
  let first := if isChunked c then (k - 1) / chunkLen m * chunkLen m else 0
  (List.range (ctxCut s c).1).filter fun kt => decide (first ≤ g * kt)

/-- What the vector buffer holds once an operation has been worked through: the last chunk's vectors (R136). -/
def aditBuffer (s : State) (c : TaskCtx) : List (Nat × List Int × BlockTag × BlockTag) :=
  (rowsOfTile c 0).flatMap fun m => (lastChunk s c).flatMap fun kt =>
    (ctxRow s c 0 kt m).vectors.map fun v => (m, v.elems, v.upper, v.lower)

/-! ## Writing back -/

/-- The rows of a column group as its core writes them to the output, under the node's CVT modifiers (R135, R200, R414). -/
def groupWrites (s : State) (c : TaskCtx) (d : Desc) (t : VatTile) : RowWrites :=
  let ct := c.task.colTile
  let dead := deadCols c ct
  joinWrites (((rowsOfTile c 0).filter fun m => decide (m < extentHere s c.image d 1)).map fun m =>
    rowWrites d (nodeMods c.node) m (64 * ct) 64 (extentHere s c.image d 0) fun n =>
      if dead.contains (n - 64 * ct) then none else some (vatEntryVal t (64 * m + (n - 64 * ct))))

/-! ## Counting -/

/-- `n` added to a counter that counts in units of `unit`, with what is left over. -/
def countUnits (s : State) (base off unit rest n : Nat) : State × Nat :=
  let total := rest + n
  (if total / unit = 0 then s else count s base off (total / unit), total % unit)

/-- Positions of weight tile `kt` that the weights have. -/
def tilePositions (g extK kt : Nat) : Nat :=
  min (64 * g) (extK - 64 * g * kt)

/-- The weight tiles of a column group that are read (R85). -/
def groupTiles (s : State) (c : TaskCtx) : List Nat :=
  (List.range (ctxCut s c).1).filter fun kt => !blkBit s c.image c.node (ctxCols s c) kt c.task.colTile

/-- Columns of a column group that the weights have. -/
def groupCols (s : State) (c : TaskCtx) : Nat :=
  ((sliceCols (ctxSlices s c) c.task.colTile).filter Option.isSome).length

/-- Stored bytes of a column group (R138): those of its weight tiles, in whole bytes a column and tile. -/
def groupBytes (s : State) (c : TaskCtx) : Nat :=
  match ctxWeight s c with
  | some w =>
    let g := ctxGain s c
    let k := extentHere s c.image w 0
    ((groupTiles s c).map fun kt =>
      if w.layout = layWl64 then descUnit w
      else groupCols s c * ((descUnit w * tilePositions g k kt + descU w - 1) / descU w)).sum
  | none => 0

/-- Lane products of a column group (R133, R138): rows by stored entries, two lanes for a wide weight. -/
def groupProducts (s : State) (c : TaskCtx) : Nat :=
  match ctxWeight s c with
  | some w =>
    let g := ctxGain s c
    let k := extentHere s c.image w 0
    let entries := ((groupTiles s c).map fun kt =>
      groupCols s c * partsOf s c c.task.colTile kt * ((tilePositions g k kt + g - 1) / g)).sum
    (rowsOfTile c 0).length * entries * (if ctxWidth s c = 16 then 2 else 1)
  | none => 0

/-- The counters of an attempt at a column group (R152): every attempt reads its weights and forms its products, and the
lanes work ceil(products / 1,024) cycles; the cycles that they wait for weights are open (log entry 128). -/
def countWork (s : State) (u : AditId) (bytes products : Nat) : State :=
  let b := aditRegBase u
  let x := getAdit s u
  let r := countUnits s b Ctr.ADIT_READ_CNT 4096 x.readRest bytes
  let q := countUnits r.1 b Ctr.ADIT_PROD_CNT 1024 x.prodRest products
  let s := count q.1 b Ctr.ADIT_BUSY_CNT ((products + 1023) / 1024)
  let (wait, s) := drawChoice s
  let s := if wait = 0 then s else raise (count s b Ctr.ADIT_WAIT_CNT wait) b Flag.adit_DRAM_WAIT
  setAdit s u { x with readRest := r.2, prodRest := q.2 }

/-- The events of a column group for its job's record (R83, R113, R135, R275). -/
def groupTable (x : AditPart) (c : CvtCounts) : Table Nat :=
  let add (k n : Nat) (m : Table Nat) : Table Nat := addCount m k n
  let m := add cntMdDrop x.md.drop (add cntDupPos x.md.dup (add cntIdxOob x.md.oob []))
  let m := add cntVatOvf (x.vat.ovf + x.ovf) (add cntVatNan x.vat.nan (add cntVatSpecial x.special m))
  cvtTable c (add cntVatUfl (x.vat.ufl + x.ufl) (add cntExactLost x.vat.lost m))

/-- The selector counters of a column group, in the core that holds its vectors (R77, R83, R93). -/
def countSelector (s : State) (core : CoreId) (x : AditPart) : State :=
  let b := spRegBase core
  let s := countMd s core x.md
  let s := raiseIf (decide (0 < x.splits)) (count s b Ctr.SP_SPLIT_CNT x.splits) b Flag.sp_SPLIT
  let s := raiseIf (decide (0 < x.spans)) (count s b Ctr.SP_SPAN_SPLIT_CNT x.spans) b Flag.sp_SPLIT
  count s b Ctr.SP_BLK_SKIP_CNT x.skips

/-! ## ADIT_COLUMN_GROUP -/

/-- The task of a column group that an adit unit may work on (R133, R134, R137, R139, R269, R319): the unit was given the
index and is in service, its seam holds the weights, and the seam's DRAM and clocks run. -/
def groupCtx (s : State) (u : AditId) (k i : Nat) : Option TaskCtx :=
  let w := getCounter s u.seam.val k
  if s.dep.out || !mayServe s w || !w.given.contains (i, requesterNum (.adit u.unit)) ||
      s.dep.fences.adits.contains (aditKey u) || s.dep.fences.seams.contains u.seam.val ||
      s.dep.fences.drams.contains u.seam.val || !isLiveDom s (.seam u.seam .kclk) || !isLiveDom s (.seam u.seam .mclk) ||
      (getAdit s u).finished.any (fun d => d.counter == k && d.index == i) then none
  else (counterCtx s w i).filter fun c => onAdit c && groupSeam s c.image c.node c.task == some u.seam.val

/-- The storage units of weight column `w` that weight tile `kt` takes, as ranges. -/
def columnUnits (s : State) (c : TaskCtx) (kt : Nat) (w : Nat × Nat) : List (Addr × Nat) :=
  match descAt s w.1 with
  | some d =>
    let g := 64 * ctxGain s c
    let last := min (g * kt + g) (extentHere s c.image d 0)
    let first := g * kt / descU d
    (List.range ((last + descU d - 1) / descU d - first)).map fun i => (unitAddr d [(first + i) * descU d, w.2], descUnit d)
  | none => []

/-- Ranges that continue one another joined (R206). -/
def joinSpans : List (Addr × Nat) → List (Addr × Nat)
  | [] => []
  | x :: rest =>
    match joinSpans rest with
    | y :: r => if x.1 + x.2 = y.1 then (x.1, x.2 + y.2) :: r else x :: y :: r
    | [] => [x]

/-- The contiguous runs of a column group's weights, column by column (R138, R206). -/
def groupRuns (s : State) (c : TaskCtx) : List (Addr × Nat) :=
  ((sliceCols (ctxSlices s c) c.task.colTile).filterMap id).flatMap fun w =>
    joinSpans ((groupTiles s c).flatMap fun kt => columnUnits s c kt w).eraseDups

/-- The dry time that a column group's reads carry: its task's start mark (R327). -/
def groupDry (s : State) (u : AditId) (k i : Nat) : Time :=
  match startMark s u.seam.val (getCounter s u.seam.val k) i with
  | some m => m.toNat
  | none => undatedDry s

/-- The reads of a column group's weights given to the controllers, in the READ class (R133, R209). -/
def requestGroup (s : State) (u : AditId) (k i : Nat) (c : TaskCtx) : State :=
  let dry := groupDry s u k i
  pushReqs s ((groupRuns s c).eraseDups.flatMap fun r => readReqs s u.seam.val dry (.adit u) r.1 r.2 0 r.2)

/-- Whether an adit unit works on a column group. -/
def worksOn (s : State) (u : AditId) (k i : Nat) : Bool :=
  match (getAdit s u).op with
  | some o => o.isOpen && o.counter == k && o.group == i
  | none => false

/-- A column group begun (R136, R325, R329): a new operation has its rows broadcast into the vector buffer, a start after the
start mark is counted, and the unit asks for the group's weights. -/
def beginGroup (s : State) (u : AditId) (k i : Nat) (c : TaskCtx) : State :=
  let x := getAdit s u
  let buffer := match x.op with
    | some o => if o.counter = k ∧ o.elem = c.task.elem then o.buffer else aditBuffer s c
    | none => aditBuffer s c
  let late := match startMark s u.seam.val (getCounter s u.seam.val k) i with
    | some m => decide (m < (s.clk.now : Int))
    | none => false
  let op : AditOp :=
    { counter := k, elem := c.task.elem, rows := (ctxLens c).1, x64 := nodeX64 c.node, chunked := isChunked c,
      buffer := buffer, group := i, since := s.clk.now, isOpen := true }
  let s := setAdit s u { x with op := some op }
  let s := if late then raise (count s hubClkBase Ctr.DL_LATE_START_CNT 1) hubClkBase Flag.hubClk_LATE_START else s
  requestGroup s u k i c

/-- Whether a work counter has a group of a batch element left after index `i`. -/
def moreGroups (w : WorkCounter) (elem i : Nat) : Bool :=
  (w.tasks.drop (i + 1)).any fun t => t.elem == elem

/-- A column group finished (R137, R152): its events wait for its completion as a task; the operation stays open while the
counter has groups of it. -/
def finishGroup (s : State) (u : AditId) (k i : Nat) (c : TaskCtx) (m : Table Nat) : State :=
  let s := count s (aditRegBase u) Ctr.ADIT_OP_CNT 1
  let x := getAdit s u
  let since := (x.op.map (·.since)).getD s.clk.now
  let more := moreGroups (getCounter s u.seam.val k) c.task.elem i
  setAdit s u { x with
    op := if more then x.op.map fun o => { o with isOpen := false } else none
    finished := x.finished ++ [⟨k, i, m, since⟩] }

/-- A failed residue check (R139): counted once; the group's entries return to their start, and it runs again. -/
def residueFailed (s : State) (u : AditId) : State :=
  let b := aditRegBase u
  reportFault (raise (count s b Ctr.ADIT_RESIDUE_CNT 1) b Flag.adit_RESIDUE_FAIL) (.aditResidue u)

/-- A translation fault of an adit unit (R186): the group's task is aborted and runs again from its start. -/
def abortGroup (s : State) (u : AditId) (k i : Nat) (c : TaskCtx) : State :=
  let x := getAdit s u
  let s := setAdit s u { x with op := none }
  let w := getCounter s u.seam.val k
  let s := setCounter s u.seam.val k { w with given := w.given.filter fun e => e.1 != i }
  noteIndexAbort s u.seam.val k i c.job (requesterNum (.adit u.unit)) 0

/-- Whether an address of a column group's weights is translated (R186, R357). -/
def groupTranslates (s : State) : Bool :=
  s.pwr.phase != .running || s.dep.recovery

/-- A column group whose residue check fails (R139): unless a fence took it from the unit, its reads are made again. -/
def repeatGroup (s : State) (u : AditId) (k i : Nat) (c : TaskCtx) : State :=
  let t := residueFailed s u
  if worksOn t u k i then requestGroup t u k i c else t

/-- A column group whose residue check holds (R135, R136): its results go to the output. -/
def landGroup (s : State) (u : AditId) (k i : Nat) (core : CoreId) (c : TaskCtx) (x : AditPart) (d : Desc) : State :=
  let w := groupWrites s c d x.tile
  let t := cvtCountRegs (applyWrites s w.1) core w.2
  finishGroup (countSelector t core x) u k i c (groupTable x w.2)

/-- A column group worked through, once its weights have come (R135 to R139). -/
def runGroup (s : State) (u : AditId) (k i : Nat) (core : CoreId) (us : List AditUpset) (c : TaskCtx) : State :=
  match aditGroup s c us, ctxDesc s c 2 with
  | some x, some d =>
    let t := countWork s u (groupBytes s c) (groupProducts s c)
    if x.residueOk then landGroup t u k i core c x d else repeatGroup t u k i c
  | _, _ => s

/-- ADIT_COLUMN_GROUP (R135 to R139): a column group is begun, and worked through once its weights have come; `core` is the one
whose scratch holds the rows. An access that fails translation, which only start-up, test and recovery make, aborts the task
(R186). -/
def columnGroup (s : State) (u : AditId) (k i : Nat) (core : CoreId) (us : List AditUpset) (untranslated : Bool) : State :=
  match groupCtx s u k i with
  | none => s
  | some c =>
    if !coreUp s core then s
    else if untranslated && groupTranslates s then abortGroup s u k i c
    else if !worksOn s u k i then beginGroup s u k i c
    else if aditWaits s u then s
    else runGroup s u k i core us c

def execAditColumnGroup (unit : AditId) (counter : Fin 64) (index : Nat) (core : CoreId) (upsets : List AditUpset)
    (untranslated : Bool) (s : State) : Host.Outcome State Fault Refusal :=
  .next (columnGroup s unit counter.val index core upsets untranslated)

/-! ## ADIT_PROBE -/

/-- The moving average of a path's cost at `m` rows (R141); none before its first run. -/
def meanCost (g : Stage) (adit : Bool) (m : Nat) : Option Nat :=
  let l := (g.costs.filter fun c => c.adit == adit && c.rows == m).map (·.cost)
  if l = [] then none else some (l.sum / l.length)

/-- Whether one path beats the other at `m` rows by more than 5 % (R141). -/
def beats (g : Stage) (adit : Bool) (m : Nat) : Bool :=
  match meanCost g adit m, meanCost g (!adit) m with
  | some x, some y => decide (100 * x < 95 * y)
  | _, _ => false

/-- T_s after an adaptation (R141). -/
def adapted (g : Stage) : Nat :=
  if 0 < g.threshold ∧ beats g false g.threshold = true then g.threshold - 1
  else if g.threshold < 8 ∧ beats g true (g.threshold + 1) = true then g.threshold + 1
  else g.threshold

/-- ADIT_PROBE (R140, R141): T_s adapts to the averages that the runs and probes of a stage have left; not under a pin. -/
def probe (s : State) (graph node : Nat) : State :=
  match (getGraphSlot s graph).live.bind fun g => g.nodes[node]? with
  | some n =>
    let g := getStage s graph node
    if nodePath n != 0 || !s.pwr.config.aditAdapt then s else setStage s graph node { g with threshold := adapted g }
  | none => s

def execAditProbe (graph : Fin 256) (node : Nat) (s : State) : Host.Outcome State Fault Refusal :=
  .next (probe s graph.val node)

end Sys2Proof.Machine
end

