-- ==== Sys2Proof/Machine/Assay.lean ====
section
/-! DEFINITION. The assay pass (R144 to R151): the pass, the bounds, the discarded magnitudes, the audits, and the tables of
sums. -/

namespace Sys2Proof.Machine

/-! ## ASSAY_PASS -/

/-- The vectors of an array's assay charge scheduled one after another, their PI64 records `stride` bytes apart. -/
def passVectors (a : ArrayId) (stride : Nat) : Nat → Nat → State → State
  | 0, _, s => s
  | n + 1, record, s =>
    match (getArray s a).charge with
    | some ch => if ch.assay then passVectors a stride n (record + stride) (scheduleVector s a record) else s
    | none => s

/-- Bytes of the PI64 records of one vector of a task (R179). -/
def recordStride (s : State) (c : TaskCtx) : Nat :=
  ctxGain s c * (8 + 8 * ctxPlanes s c)

/-- ASSAY_PASS (R145): the assay vectors of an array's assay charge stream into its tile, the tally vector last. -/
def assayPass (s : State) (a : ArrayId) (record : Nat) : State :=
  match (getArray s a).charge with
  | none => s
  | some ch =>
    match taskCtx s ⟨a.core, ch.slot⟩ with
    | some c => passVectors a (recordStride s c) (4 * ch.rows.length + 1) record s
    | none => s

def execAssayPass (array : ArrayId) (record : Nat) (s : State) : Host.Outcome State Fault Refusal :=
  .next (assayPass s array record)

/-! ## Bounds -/

/-- FP32 operations that round toward +∞ and toward −∞ (R147). -/
def rnd32 (r : Rounding) (v : FVal) : FVal := decodeF fp32 (encodeF fp32 r v)
def upAdd (a b : FVal) : FVal := rnd32 .rup (addF .rup a b)
def upMul (a b : FVal) : FVal := rnd32 .rup (mulF a b)
def dnSub (a b : FVal) : FVal := rnd32 .rdn (addF .rdn a (negF b))

/-- A power of two. -/
def twoTo (e : Int) : FVal := .fin false 1 e

/-- `up(2 * gamma(n))` (R103, R147). -/
def gammaUp (n : Nat) : FVal :=
  let q := divF (.fin false (2 * n) 0) (.fin false (2 ^ 32 - n) 0)
  decodeF fp32 (encodeF fp32 .rup q.1 q.2)

/-- The sums of one column over the segments with a live block (R147): hi, lo and mass. -/
def boundSums (pq : List (FVal × FVal × Option Int)) : FVal × FVal × FVal :=
  let z : FVal := .fin false 0 0
  pq.foldl (fun (a : FVal × FVal × FVal) e =>
    match e.2.2 with
    | none => a
    | some ea =>
      (upAdd a.1 (upMul (twoTo ea) e.1), upAdd a.2.1 (upMul (twoTo ea) e.2.1),
       upAdd a.2.2 (upMul (twoTo ea) (upAdd e.1 e.2.1)))) (z, z, z)

/-- The bounds l and u of an output (R147). -/
def bounds (y : FVal) (q nMax : Nat) (pq : List (FVal × FVal × Option Int)) : FVal × FVal :=
  let (hi, lo, mass) := boundSums pq
  let dz : FVal := .fin false (if 3 ≤ q then 2 ^ (q - 2) - 1 else 0) 0
  let rnd := upMul (gammaUp nMax) (upMul (twoTo ((q : Int) - 1)) mass)
  (dnSub (rnd32 .rdn y) (upAdd (upMul dz lo) rnd), upAdd (rnd32 .rup y) (upAdd (upMul dz hi) rnd))

/-- P and Q of a column, by segment, from the table of assay sums, with the row's exponents. -/
def tableEntries (s : State) (t : AssayTable) (col : Nat) (ea : List (Option Int)) : List (FVal × FVal × Option Int) :=
  (List.range t.segs).map fun g =>
    let a := t.addr + 8 * (col * t.segs + g)
    (decodeF fp32 (leNat (readModule s a 4)), decodeF fp32 (leNat (readModule s (a + 4) 4)), (ea.getD g none))

/-- n_max of R147 for a reduction of `k` positions. -/
def nMaxOf (mode : ArrayMode) (k : Nat) : Nat :=
  if mode = .mac2 then (k + 15) / 16 + 1 else (k + 31) / 32 + 1

/-- The vectors of row `m` of row tile `rt` against every weight tile, with the tile's number. -/
def rowVectors (s : State) (c : TaskCtx) (rt m : Nat) : List (Nat × Vector64) :=
  (List.range (ctxCut s c).1).flatMap fun kt => (ctxRow s c rt kt m).vectors.map fun v => (kt, v)

/-- The plane count q of a row: the greatest of its vectors' (R147, log entry 129). -/
def rowPlanes (vs : List (Nat × Vector64)) : Nat :=
  vs.foldl (fun q v => max q v.2.planes) 1

/-- The greatest of a list of exponents, none of an empty one. -/
def greatest (l : List Int) : Option Int :=
  l.foldl (fun a e => some (match a with | some x => max x e | none => e)) none

/-- `ea` of R147: the greatest B_EFF of a row's nonzero blocks or spans in each segment of 2,048 positions. -/
def rowExps (gain segs : Nat) (vs : List (Nat × Vector64)) : List (Option Int) :=
  (List.range segs).map fun g =>
    greatest ((vs.filter fun v => 64 * gain * v.1 / 2048 == g).flatMap fun v =>
      ([v.2.upper, v.2.lower].filter fun b => !b.zero).map (·.beff))

/-- The columns of an output tile that are not masked (R56, R148). -/
def liveCols (c : TaskCtx) (ct : Nat) : List Nat :=
  (List.range 64).filter fun n => !(deadCols c ct).contains n

/-- The outputs of row `m` of an assay tile: the entry y and the bounds l and u, by unmasked column. -/
def rowBounds (s : State) (c : TaskCtx) (v : VatTile) (t : AssayTable) (m : Nat) : List (FVal × FVal × FVal) :=
  let vs := rowVectors s c v.rowTile m
  let q := rowPlanes vs
  let ea := rowExps (ctxGain s c) t.segs vs
  (liveCols c v.colTile).map fun n =>
    let y := vatEntryVal v (64 * m + n)
    let b := bounds y q (nMaxOf (ctxMode s c) (ctxLens c).2.1) (tableEntries s t (64 * v.colTile + n) ea)
    (y, b.1, b.2)

/-- Whether an output is undecided (R147): y not finite, u NaN or +∞. -/
def undecided (b : FVal × FVal × FVal) : Bool :=
  (match b.1 with | .fin .. => false | _ => true) ||
  (match b.2.2 with | .nan | .inf false => true | _ => false)

/-- Whether an output is inactive at threshold `t` (R148). -/
def inactive (t : Word) (b : FVal × FVal × FVal) : Bool :=
  !undecided b && relF .le b.2.2 (decodeF fp32 t.toNat)

/-! ## Discarded magnitudes -/

/-- f_0 of an assayed node (R144): the fill of MARGIN; the constant of an EXACT activation is 0. -/
def fillZero (n : Node) : Word :=
  if nodeMargin n then n.fill0 else 0

/-- The turning points that the catalogue lists for an activation (R255). -/
def turningPoints (code : Nat) (theta : Word) : List Word :=
  match code with
  | 3 => [theta]
  | 4 => [0xBF40754F]
  | 5 => [0xBFA3A494]
  | _ => []

/-- d of R150, as an FP32 word: |f − f_0| at l, at u and at the turning points between them, each value rounded toward
+∞. -/
def discard (a : Node) (f0 : Word) (l u : FVal) : Word :=
  let word (r : Rounding) (v : FVal) : Word := BitVec.ofNat 32 (encodeF fp32 r v)
  let inside := (turningPoints a.variant a.thresh).filter fun x =>
    relF .le l (decodeF fp32 x.toNat) && relF .le (decodeF fp32 x.toNat) u
  let vals := (word .rup l :: word .rup u :: inside).map (actLane .rup a.variant a.thresh)
  vals.foldl (fun m v =>
    maxWord m (word .rup (absF (addF .rup (decodeF fp32 v.toNat) (negF (decodeF fp32 f0.toNat)))))) 0

/-- The greatest discarded magnitude of a list of skipped outputs (R150); 0 in EXACT mode, which discards nothing. -/
def discardOf (c : TaskCtx) (outs : List (FVal × FVal × FVal)) : Word :=
  match actOf c.image c.stage with
  | some a =>
    if nodeMargin c.node then outs.foldl (fun m b => maxWord m (discard a (fillZero c.node) b.2.1 b.2.2)) 0 else 0
  | none => 0

/-! ## ASSAY_BOUND -/

/-- The masked rows of a tile that are audited (R151): every 4,096th masked row segment of a stage on a core since the start
of the job; `before` is how many there have been. -/
def auditRowsOf (before : Nat) (rows : List Nat) : List Nat :=
  (List.range rows.length).filterMap fun i => if (before + i + 1) % 4096 = 0 then rows[i]? else none

/-- The slots of the full pass of a task that masked rows of an output tile save (R149). -/
def savedSlots (s : State) (c : TaskCtx) (rt ct : Nat) (masked : List Nat) : Nat :=
  (masked.flatMap fun m => (ctxTiles s c ct false).1.map fun kt =>
    partsOf s c ct kt * (if ctxMode s c = .mac2 then 2 else 1) *
      (((ctxRow s c rt kt m).vectors.filter fun v => !skipVector (ctxMode s c) v).map (·.planes)).sum).sum

/-- What the bounds of a closed assay tile give: per live row of the tile its outputs. -/
def tileBounds (s : State) (c : TaskCtx) (v : VatTile) (t : AssayTable) : List (Nat × List (FVal × FVal × FVal)) :=
  (rowsOfTile c v.rowTile).map fun m => (m, rowBounds s c v t m)

/-- The rows of a tile whose outputs are all inactive, with the outputs (R148). -/
def inactiveRows (c : TaskCtx) (bs : List (Nat × List (FVal × FVal × FVal))) :
    List (Nat × List (FVal × FVal × FVal)) :=
  bs.filter fun r => r.2 != [] && r.2.all (inactive c.node.thresh)

/-- The counters and flags of a bounded tile (R148, R150, R152): rows masked, outputs skipped, outputs undecided and the
greatest magnitude discarded. -/
def countBound (s : State) (t : SlotId) (c : TaskCtx) (rows outs und : Nat) (d : Word) : State :=
  let b := assayRegBase t.core
  let s := count s b Ctr.ASSAY_TILE_CNT 1
  let s := count (count s b Ctr.ASSAY_ROW_SKIP_CNT rows) b Ctr.ASSAY_OUT_SKIP_CNT outs
  let s := count s b Ctr.ASSAY_UNDECIDED_CNT und
  if !nodeMargin c.node || outs == 0 then s
  else
    let s := setRawReg s (b + Ctr.ASSAY_DISCARD_MAX) (maxWord (rawReg s (b + Ctr.ASSAY_DISCARD_MAX)) d)
    let first := match getJob s c.job with | some j => tget j.counts 0 cntMarginSeen == 0 | none => false
    let s := raiseIf first s b Flag.assay_MARGIN
    let s := updJob s c.job fun j => { j with counts := tset j.counts 0 cntMarginSeen 1 }
    slotCount s t cntAssayMargin 1

/-- The masked rows of a bounded tile noted (R148, R151): in the task for its charges, in the node's run for the activation,
in the core for the audits. A row of a split product is not audited (log entry 117). -/
def noteMasked (s : State) (t : SlotId) (c : TaskCtx) (v : VatTile) (masked : List Nat) (d : Word) : State :=
  let k := getCore s t.core
  let key := 65536 * c.job + c.stage
  let before := tget k.audits 0 key
  let cut := ctxCut s c
  let audit := if cut.2.1 = 1 ∧ cut.2.2 = 1 then auditRowsOf before masked else []
  let s := setCore s t.core { k with audits := tset k.audits 0 key (before + masked.length) }
  let x := getSlot s t
  let x := { x with
    rowMasks := (v.rowTile, v.colTile, masked) :: x.rowMasks
    auditRows := audit.map (fun m => (v.rowTile, v.colTile, m)) ++ x.auditRows
    discardMax := maxWord x.discardMax d }
  let s := setSlot s t x
  updRun s c.job c.stage fun r => { r with
    inactive := r.inactive ++ masked.map fun m => (c.task.elem, v.rowTile, v.colTile, m) }

/-- An assay tile dropped once nothing needs it: it has been bounded, and no audit of it is to come. -/
def dropAssayTile (s : State) (t : SlotId) (v : VatTile) : State :=
  if (getSlot s t).auditRows.any fun e => e.1 == v.rowTile && e.2.1 == v.colTile then s else dropTile s t.core v.base

/-- ASSAY_BOUND (R147 to R151): the bounds of a closed assay tile; the rows whose outputs are all inactive are masked in
the full pass. The record counts a split product's tile once, in its first part. -/
def boundTile (s : State) (t : SlotId) (c : TaskCtx) (v : VatTile) (table : AssayTable) : State :=
  let bs := tileBounds s c v table
  let hit := inactiveRows c bs
  let masked := hit.map (·.1)
  let outs := (hit.map (·.2.length)).sum
  let und := (bs.map fun r => (r.2.filter undecided).length).sum
  let d := discardOf c (hit.flatMap (·.2))
  let s := noteMasked s t c v masked d
  let s := countBound s t c masked.length outs und d
  let s := if ctxPart s c = (0, 0) then slotCount s t cntAssaySkips outs else s
  let kept := (getSlot s t).auditRows
  let saved := savedSlots s c v.rowTile v.colTile (masked.filter fun m => !kept.contains (v.rowTile, v.colTile, m))
  settle (dropAssayTile (slotCount s t cntAssaySaved saved) t v) t.core

/-- The closed assay tile of an output tile of a task that has not been bounded yet, with its table. -/
def boundReady (s : State) (t : SlotId) (rt ct : Nat) : Option (TaskCtx × VatTile × AssayTable) :=
  match taskCtx s t, findPart s t rt ct true with
  | some c, some v =>
    if v.isOpen || (maskedRows (getSlot s t) rt ct).isSome || !assayOn s c then none
    else (freshTable s c).map fun table => (c, v, table)
  | _, _ => none

def assayBound (s : State) (t : SlotId) (rt ct : Nat) : State :=
  match boundReady s t rt ct with
  | some (c, v, table) => boundTile s t c v table
  | none => s

def execAssayBound (slot : SlotId) (rt ct : Nat) (s : State) : Host.Outcome State Fault Refusal :=
  .next (assayBound s slot rt ct)

/-! ## ASSAY_AUDIT -/

/-- Whether every output of an audited row lies within its bounds (R151). -/
def auditHolds (s : State) (c : TaskCtx) (v full : VatTile) (table : AssayTable) (m : Nat) : Bool :=
  ((liveCols c v.colTile).zip (rowBounds s c v table m)).all fun e =>
    let y := vatEntryVal full (64 * m + e.1)
    relF .le e.2.2.1 y && relF .le y e.2.2.2

/-- A failed audit (R151): counted, the pass off for the stage's run, the task aborted, the arrays that fed the two tiles
reported. -/
def auditFail (s : State) (t : SlotId) (c : TaskCtx) (v full : VatTile) : State :=
  let b := assayRegBase t.core
  let s := raise (count s b Ctr.ASSAY_AUDIT_FAIL_CNT 1) b Flag.assay_AUDIT_FAIL
  let s := updRun (forgetInactive s c) c.job c.stage fun r => { r with auditOff := true }
  let s := abortTask s t
  ([v, full].filterMap (·.array)).eraseDups.foldl (fun s a => reportFault s (.auditFail ⟨t.core, a⟩)) s

/-- An audit that is due: the assay tile, the closed full tile and the table. -/
def auditReady (s : State) (t : SlotId) (rt ct m : Nat) : Option (TaskCtx × VatTile × VatTile × AssayTable) :=
  match taskCtx s t, findPart s t rt ct true, findPart s t rt ct false with
  | some c, some v, some full =>
    if v.isOpen || full.isOpen || !(getSlot s t).auditRows.contains (rt, ct, m) then none
    else (freshTable s c).map fun table => (c, v, full, table)
  | _, _, _ => none

/-- ASSAY_AUDIT (R151): an audited row's outputs in the full tile checked against their bounds; the results used stay
f_0. -/
def assayAudit (s : State) (t : SlotId) (rt ct m : Nat) : State :=
  match auditReady s t rt ct m with
  | none => s
  | some (c, v, full, table) =>
    let x := getSlot s t
    let ok := auditHolds s c v full table m
    let s := setSlot s t { x with auditRows := x.auditRows.filter (· != (rt, ct, m)) }
    let s := count s (assayRegBase t.core) Ctr.ASSAY_AUDIT_CNT 1
    if ok then dropAssayTile s t v else auditFail s t c v full

def execAssayAudit (slot : SlotId) (rt ct : Nat) (row : Fin 64) (s : State) : Host.Outcome State Fault Refusal :=
  .next (assayAudit s slot rt ct row.val)

/-! ## ASSAY_SUMS_RECOMPUTE -/

/-- ASSAY_SUMS_RECOMPUTE (R146): a stale table, or one whose CRC32C fails, is computed again. -/
def recomputeSums (s : State) (c : CoreId) (table : Addr) : State :=
  match s.assays.find? fun t => t.addr == table with
  | some t =>
    if t.stale || assayCrcBad s t then raise (writeAssay s t) (assayRegBase c) Flag.assay_STALE_SUMS else s
  | none => s

def execAssaySumsRecompute (core : CoreId) (table : Addr) (s : State) : Host.Outcome State Fault Refusal :=
  .next (recomputeSums s core table)

end Sys2Proof.Machine
end

