-- ==== Sys2Proof/Machine/Calibration.lean ====
section
/-! DEFINITION. Calibration of VSEAM (R383 to R386). -/

namespace Sys2Proof.Machine

/-! ## Temperatures and bands -/

/-- The hottest die of a seam, in °C: its logic die or a die of its DRAM stack (R365, R383). -/
def seamTemp (s : State) (m : Nat) : Nat :=
  max (s.pwr.tempLogic.getD m 0) (s.pwr.tempDram.getD m 0)

/-- The band of a temperature without regard to the band before (R383): bands 0 to 8 from 20 °C to 110 °C. -/
def plainBand (t : Nat) : Nat :=
  min 8 ((t - 20) / 10)

/-- The band after a reading (R383): it changes only when the temperature passes the band's edge by 2 °C. -/
def nextBand (b t : Nat) : Nat :=
  let up := min 8 ((t - 22) / 10)
  let down := min 8 ((t - 19) / 10)
  if b < up then up else if down < b then down else b

/-! ## Setpoints -/

/-- CAL_FACTORY of a seam and a band, in mV (R371). -/
def calFactory (s : State) (m b : Nat) : Nat :=
  s.pwr.config.calFactory.getD (9 * m + b) 0

/-- The LIGHT and FULL entries of the current band; 0 is none. -/
def lightEntry (c : CalState) : Nat := tget c.light 0 c.band
def fullEntry (c : CalState) : Nat := tget c.full 0 c.band

/-- The setpoint at the IDLE point (R384). -/
def idleSet (s : State) (m : Nat) (c : CalState) : Nat :=
  if lightEntry c = 0 then calFactory s m c.band else lightEntry c

/-- The setpoint at the ACTIVE point without a FULL entry (R384): the guard band of 6 mV applies. -/
def guardSet (s : State) (m : Nat) (c : CalState) : Nat :=
  max (calFactory s m c.band) (lightEntry c) + 6

/-- A seam's setpoint and guard by the rule of R384, with no descent running. -/
def setpoint (s : State) (m : Nat) (c : CalState) : CalState :=
  if c.idle then { c with vset := idleSet s m c, guard := false }
  else if fullEntry c = 0 then { c with vset := guardSet s m c, guard := true }
  else { c with vset := fullEntry c, guard := false }

/-- A descent given up. -/
def noDescent (c : CalState) : CalState :=
  { c with descent := none, heldMv := 0, steps := 0 }

/-- The first step of a descent (R385): from CAL_FACTORY for a LIGHT entry, from the guarded setpoint for a FULL one. -/
def beginDescent (s : State) (m : Nat) (c : CalState) (d : Descent) : CalState :=
  let top := match d with
    | .light => calFactory s m c.band
    | .full => guardSet s m c
  { c with descent := some d, heldMv := 0, steps := 1, vset := top - 2 }

/-- A seam at the IDLE point whose band has no LIGHT entry begins to gather one (R385). -/
def seekLight (s : State) (m : Nat) (c : CalState) : CalState :=
  if c.idle && c.descent.isNone && lightEntry c == 0 then beginDescent s m c .light else c

/-- The end of a descent (R385): the entry is the last step that held, if one did. -/
def fixDescent (s : State) (m : Nat) (c : CalState) : CalState × Bool :=
  let c' := match c.descent with
    | some .light => if c.heldMv = 0 then c else { c with light := tset c.light 0 c.band c.heldMv }
    | some .full => if c.heldMv = 0 then c else { c with full := tset c.full 0 c.band c.heldMv }
    | none => c
  let done := decide (c.descent = some .full) && c.heldMv != 0
  (setpoint s m { noDescent c' with highWindows := 0 }, done)

/-- A seam with its descent ended; a FULL entry gathered sets FULL_DONE. -/
def endDescent (s : State) (m : Nat) (c : CalState) : State :=
  let r := fixDescent s m c
  raiseIf r.2 (setCal s m r.1) (calRegBase m) Flag.cal_FULL_DONE

/-- A seam after a temperature reading (R383, R385): a change of band abandons a descent and takes the new band's
setpoint. -/
def updateBand (s : State) (m : Nat) : State :=
  let c := getCal s m
  let b := nextBand c.band (seamTemp s m)
  if b = c.band then s
  else
    let c := { noDescent c with band := b, highWindows := 0 }
    setCal s m (seekLight s m (setpoint s m c))

/-! ## Windows -/

/-- The highest setpoint, 0.85 V, and the lowest, 0.65 V (R361, R386). -/
def vMax : Nat := 850
def vMin : Nat := 650

/-- A window below the floor (R386): VSEAM rises by 10 mV at once, as far as it can; the band's FULL entry is void, and
gathering starts again. -/
def raiseVset (s : State) (m : Nat) (c : CalState) : State :=
  let c := { noDescent c with
    vset := min vMax (c.vset + 10), full := tset c.full 0 c.band 0, guard := c.guard || !c.idle, highWindows := 0 }
  let b := calRegBase m
  let s := raise (count (setCal s m c) b Ctr.CAL_LOW_CNT 1) b Flag.cal_MARGIN_LOW
  if c.vset = vMax then raise (raise s b Flag.cal_AT_MAX) imgBase Flag.img_CAL_AT_MAX else s

/-- Windows of 10 µs in 1 s (R385). -/
def windowsPerSecond : Nat := 100000

/-- Whether a seam's ACLK runs, so that its canaries report (R383). -/
def calRuns (s : State) (m : Nat) : Bool :=
  (getDom s (.seam (Fin.ofNat 16 m) .aclk)).live

/-- CAL_WINDOW (R383, R385, R386): the load in percent and the worst margin in taps of a window. -/
def calWindow (s : State) (m load margin : Nat) : State :=
  if calRuns s m then
    let c := getCal s m
    let load := min 100 load
    let margin := min 31 margin
    let high := decide (75 ≤ load)
    let c := { c with load := load, margin := margin, highWindows := if high then c.highWindows + 1 else 0 }
    if margin < 4 then raiseVset s m c
    else
      match c.descent with
      | some .full => if high && decide (margin < 8) then endDescent s m c else setCal s m c
      | some .light => if decide (load ≤ 25) && decide (margin < 8) then endDescent s m c else setCal s m c
      | none =>
        if !c.idle && fullEntry c == 0 && decide (windowsPerSecond ≤ c.highWindows) then
          setCal s m (beginDescent s m c .full)
        else setCal s m c
  else s

def execCalWindow (seam : Fin 16) (load margin : Nat) (s : State) : Host.Outcome State Fault Refusal :=
  .next (calWindow s seam.val load margin)

/-- CAL_DESCENT_STEP (R385): the hold of a step is complete; the next step is 2 mV lower, unless the step did not hold, it
was the 16th of a FULL entry, or VSEAM goes no lower. A FULL descent pauses while the seam is idle. -/
def descentStep (s : State) (m : Nat) (held : Bool) : State :=
  let c := getCal s m
  match c.descent with
  | none => s
  | some d =>
    if decide (d = .full) && c.idle then s
    else if !held then endDescent s m c
    else
      let c := { c with heldMv := c.vset }
      if (decide (d = .full) && decide (16 ≤ c.steps)) || decide (c.vset < vMin + 2) then endDescent s m c
      else setCal s m { c with vset := c.vset - 2, steps := c.steps + 1 }

def execCalDescentStep (seam : Fin 16) (held : Bool) (s : State) : Host.Outcome State Fault Refusal :=
  .next (descentStep s seam.val held)

/-! ## IDLE and ACTIVE -/

/-- Whether an array of a seam has a charge. -/
def seamCharging (s : State) (m : Nat) : Bool :=
  s.arrays.any fun e => e.1 / 128 == m && e.2.charge.isSome

/-- SEAM_IDLE (R384): 100 µs without a charge on any of the seam's arrays. A FULL descent pauses (R385). -/
def seamIdle (s : State) (m : Nat) : State :=
  let c := getCal s m
  if c.idle || seamCharging s m || !calRuns s m then s
  else setCal s m (seekLight s m { c with idle := true, waking := false, vset := idleSet s m c, guard := false })

def execSeamIdle (seam : Fin 16) (s : State) : Host.Outcome State Fault Refusal :=
  .next (seamIdle s seam.val)

/-- The ACTIVE setpoint that a seam wakes to: the step of a FULL descent that was paused, or that of R384. A LIGHT descent
is given up (R385). -/
def wakeSet (s : State) (m : Nat) (c : CalState) : CalState :=
  let c := { c with idle := false, waking := false }
  match c.descent with
  | some .full => { c with vset := guardSet s m c - 2 * c.steps, guard := true }
  | _ => setpoint s m (noDescent c)

/-- SEAM_WAKE (R384): VSEAM has reached the ACTIVE setpoint, and the first charge may start. A hold that CHARGE_START has
not counted is counted here. -/
def seamWake (s : State) (m : Nat) : State :=
  let c := getCal s m
  if c.idle then
    let s := if c.waking then s else count s (calRegBase m) Ctr.CAL_WAKE_CNT 1
    setCal s m (wakeSet s m c)
  else s

def execSeamWake (seam : Fin 16) (s : State) : Host.Outcome State Fault Refusal :=
  .next (seamWake s seam.val)

end Sys2Proof.Machine
end

