-- ==== Sys2Proof/Machine/Moves.lean ====
section
/-! DEFINITION. What hoists move (R17, R67, R188 to R199, R214): the commands entered into their queues and the transfers of
whole tensors, gathers and scatters. -/

namespace Sys2Proof.Machine

/-! ## Entering a command -/

/-- Whether a hoist takes commands for a queue: its domain is live (R319), and the owner of a task queue is a task whose
stream has a command issued to the fabric (R159, R214, R218). -/
def queueTakes (s : State) (q : QueueId) : Bool :=
  isLiveDom s (.seam q.seam .fclk) &&
  match queueSlot q with
  | some t =>
    let x := getSlot s t
    x.state != .empty && x.state != .aborting && unitActive x .fabric && !s.dep.out
  | none => true

/-- A command entered into its queue (R214, R215). A PORT_RX queue takes the descriptor of its ring that it holds first
(R220); a TRAM_FEED queue takes trains and no transfers (R238). -/
def enterCommand (s : State) (q : QueueId) (cmd : HoistCmd) : State :=
  if !queueTakes s q || isTramFeed q then s
  else if isPortRx q then
    let x := getQueue s q
    match x.local_ with
    | c :: rest => if c = cmd then enqueueCmd (setQueue s q { x with local_ := rest }) q cmd else s
    | [] => s
  else enqueueCmd s q cmd

def execHoistCommand (queue : QueueId) (cmd : HoistCmd) (s : State) : Host.Outcome State Fault Refusal :=
  .next (enterCommand s queue cmd)

/-! ## Storage units -/

/-- The grid of the graph whose task owns a queue (R250). -/
def queueGrid (s : State) (q : QueueId) : List Nat :=
  match queueSlot q with
  | some t => (((getJob s (getSlot s t).job).bind fun j => (getGraphSlot s j.graph).live).map (·.grid)).getD []
  | none => []

/-- Extents of a tensor on this module (R198). -/
def extHere (s : State) (q : QueueId) (d : Desc) : List Nat :=
  localExtents d (queueGrid s q) (moduleNum s)

/-- Storage units of a tensor on this module, by dimension (R198). -/
def unitsHere (s : State) (q : QueueId) (d : Desc) : List Nat :=
  (List.range 5).map (unitsAlong d (extHere s q d))

/-- All index tuples below the extents, the first index fastest. -/
def tuples : List Nat → List (List Nat)
  | [] => [[]]
  | e :: r => (tuples r).flatMap fun t => (List.range e).map (· :: t)

/-- The address of the storage unit at unit coordinates. -/
def unitAt (d : Desc) (v : List Nat) : Addr :=
  ((d.base : Int) + ((List.range 5).map fun k => (v.getD k 0 : Int) * strideOf d k).sum).toNat

/-- The bytes of one storage unit of fill (R189, R190): fill elements, at the fill scale in a block format. -/
def fillUnit (d : Desc) : List Byte :=
  let w := elemWidth d.format
  if isBlock d.format then
    List.replicate 8 d.fillScale ++
      (List.range 8).flatMap fun _ => packBlock w (List.replicate 32 d.fillElem.toNat)
  else leBytes (unitBytes d.format) d.fillElem.toNat

/-- The padding of the storage unit at unit coordinates of a tensor that is written (R17, R67). -/
def padAt (s : State) (q : QueueId) (d : Desc) (v : List Nat) : Option UnitPad :=
  unitPad d (v.getD 0 0 * descU d) ((extHere s q d).getD 0 1)

/-- Whether unit coordinates lie within a tensor's units. -/
def withinUnits (u v : List Nat) : Bool :=
  (List.range 5).all fun k => decide (v.getD k 0 < u.getD k 1)

/-- Open bytes for a place that a source does not have (R199), by the number of the use and the place. -/
def openBytes (n : Nat) (a : Addr) (len : Nat) : List Byte :=
  (List.range len).map fun i => BitVec.ofNat 8 (Config.shapeOpen n (a + i)).toNat

/-- The move of one storage unit of destination `b` at `v` from the unit of source `a` at `w`. Where `a` has no such unit, or
its units are not of one size with `b`'s, the shapes disagree and what lands is open (R199, log entry 138). -/
def unitMove (s : State) (q : QueueId) (a b : Desc) (w v : List Nat) : MoveRun :=
  let len := descUnit b
  let fits := descUnit a = len ∧ withinUnits (unitsHere s q a) w = true
  { src := if fits then unitAt a w else 0, dst := unitAt b v, len := len,
    fill := if fits then none else some (openBytes s.freeCount (unitAt b v) len), pad := padAt s q b v }

/-- A state in which an open value of moves of disagreeing shapes is used up. -/
def spendOpen (s : State) (ms : List MoveRun) : State :=
  if ms.any fun m => m.fill.isSome then { s with freeCount := s.freeCount + 1 } else s

/-- Moves that continue one another at both ends joined (R206); units with padding stay apart. -/
def joinRuns : List MoveRun → List MoveRun
  | [] => []
  | r :: rest =>
    match joinRuns rest with
    | [] => [r]
    | q :: qs =>
      if r.dst + r.len = q.dst ∧ r.fill = none ∧ q.fill = none ∧ r.src + r.len = q.src ∧ r.pad = none ∧ q.pad = none then
        { r with len := r.len + q.len } :: qs
      else
        match r.fill, q.fill with
        | some a, some b =>
          if r.dst + r.len = q.dst ∧ r.pad = none ∧ q.pad = none then
            { r with len := r.len + q.len, fill := some (a ++ b) } :: qs
          else r :: q :: qs
        | _, _ => r :: q :: qs

/-- Moves of which some write the same bytes, in an order of the implementation's choice (R188, log entry 3). -/
def freeOrder (s : State) (ms : List MoveRun) : List MoveRun × State :=
  freeOrderBy (fun m => (m.dst, m.len)) s ms

/-! ## Sharding -/

/-- The part that holds global index `i` of a dimension of extent `e`, and the index there (R197). -/
def shardPlace (sh : Shard) (e i : Nat) : Option Nat × Nat :=
  match sh.kind with
  | 1 =>
    let b := (e + sh.n - 1) / sh.n
    (some (i / b), i - i / b * b)
  | 2 => (some (i / sh.c % sh.n), i / (sh.c * sh.n) * sh.c + i % sh.c)
  | _ => (none, i)

/-- Whether a part of a dimension is the one on this module: its coordinate on the named grid axis (R197, R250). -/
def holdsPart (grid : List Nat) (module : Nat) (sh : Shard) : Option Nat → Bool
  | none => true
  | some j => j == gridCoord grid module sh.axis

/-- The local index of global index `i` of dimension `k` of a tensor; none where another module holds it (R197, R198). -/
def localIndex (s : State) (q : QueueId) (d : Desc) (k i : Nat) : Option Nat :=
  if d.sharded then
    let sh := d.shard.getD k {}
    let p := shardPlace sh (extentOf d k) i
    if holdsPart (queueGrid s q) (moduleNum s) sh p.1 then some p.2 else none
  else some i

/-! ## COPY -/

/-- The source coordinates of destination coordinates under a permutation: dimension `d` of the destination is dimension
`perm[d]` of the source (R196). -/
def permuted (perm v : List Nat) : List Nat :=
  (List.range 5).map fun k => match perm.idxOf? k with | some d => v.getD d 0 | none => 0

/-- Whether a permutation moves at 1/8 of the full rate (R196, *Permutation rates*). -/
def slowPerm (d : Desc) (perm : List Nat) : Bool :=
  let rank := perm.length
  let first := perm.head? == some 0 || perm == []
  let swap := perm == [1, 0] ++ (List.range rank).drop 2
  !first && !swap && !isBlock d.format

/-- The moves of a copy (R196), one for each storage unit of the destination (log entry 130). -/
def copyMoves (s : State) (q : QueueId) (a b : Desc) (perm : List Nat) : List MoveRun :=
  (tuples (unitsHere s q b)).map fun v => unitMove s q a b (permuted perm v) v

/-- COPY (R196): a transfer of the whole tensor; an empty permutation is none. -/
def copyTensor (s : State) (q : QueueId) (src dst : Nat) (perm : List Nat) (dry : Option Time) : State :=
  match descAt s src, descAt s dst with
  | some a, some b =>
    if !queueTakes s q || isTramFeed q then s
    else
      let perm := if perm = [] then List.range a.rank else perm
      let ms := copyMoves s q a b perm
      let (ms, s) := freeOrder (spendOpen s ms) ms
      enterCommand s q { runs := joinRuns ms, dry := dry, deps := [], slow := slowPerm a perm }
  | _, _ => s

def execCopy (queue : QueueId) (src dst : Nat) (perm : List Nat) (dry : Option Time) (s : State) :
    Host.Outcome State Fault Refusal :=
  .next (copyTensor s queue src dst perm dry)

/-! ## Gathers and scatters -/

/-- The index stream of an INT32 tensor, its first dimension fastest (R190, R193). -/
def indexStream (s : State) (q : QueueId) (d : Desc) : List Int :=
  (tuples (unitsHere s q d)).map fun v => signedOf 32 (leNat (readModule s (unitAt d v) 4))

/-- Whether an index is in bounds of a dimension of `n` indices (R190). -/
def inBounds (x : Int) (n : Nat) : Bool :=
  decide (0 ≤ x) && decide (x < n)

/-- The unit coordinates of a slice: dimension `dim` at `x`. -/
def sliceTuples (ext : List Nat) (dim x : Nat) : List (List Nat) :=
  (tuples (ext.set dim 1)).map fun v => v.set dim x

/-- Out-of-bounds indices counted in a hoist, in its flag and in its task's counts (R190). -/
def countOob (s : State) (q : QueueId) (n : Nat) : State :=
  if n = 0 then s
  else
    let b := hoistRegBase q.seam q.hoist
    let s := raise (count s b Ctr.HOIST_IDX_OOB_CNT n) b Flag.hoist_IDX_OOB
    match queueSlot q with
    | some t => slotCount s t cntIdxOob n
    | none => s

/-- The indices of a stream that are out of bounds. -/
def oobOf (xs : List Int) (n : Nat) : Nat :=
  (xs.filter fun x => !inBounds x n).length

/-- The move of a unit of a slice that is filled (R190). -/
def fillMove (s : State) (q : QueueId) (a b : Desc) (v : List Nat) : MoveRun :=
  { src := 0, dst := unitAt b v, len := descUnit b, fill := some ((fillUnit a).take (descUnit b)), pad := padAt s q b v }

/-- The moves of a gather (R190, R193, R197): slice `i` of the destination is the source's slice `xs[i]`, or fill; a slice that
another module holds is not moved here (log entry 131). -/
def gatherMoves (s : State) (q : QueueId) (a b : Desc) (xs : List Int) (dim : Nat) : List (List MoveRun) :=
  let ub := unitsHere s q b
  (List.range (min xs.length (ub.getD dim 1))).map fun i =>
    let x := xs.getD i 0
    if inBounds x (extentOf a dim) then
      match localIndex s q a dim x.toNat with
      | some l => (sliceTuples ub dim i).map fun v => unitMove s q a b (v.set dim l) v
      | none => []
    else (sliceTuples ub dim i).map (fillMove s q a b)

/-- HOIST_GATHER (R190, R193): one run or more for each slice, never joined across slices (R208). -/
def gatherTensor (s : State) (q : QueueId) (src idx dst dim : Nat) (dry : Option Time) : State :=
  match descAt s src, descAt s idx, descAt s dst with
  | some a, some ix, some b =>
    if !queueTakes s q || isTramFeed q then s
    else
      let xs := (indexStream s q ix).take ((unitsHere s q b).getD dim 1)
      let slices := gatherMoves s q a b xs dim
      let (ms, s) := freeOrder (spendOpen s slices.flatten) (slices.flatMap joinRuns)
      let s := countOob s q (oobOf xs (extentOf a dim))
      enterCommand s q { runs := ms, dry := dry, deps := [], slow := false }
  | _, _, _ => s

def execHoistGather (queue : QueueId) (src idx dst dim : Nat) (dry : Option Time) (s : State) :
    Host.Outcome State Fault Refusal :=
  .next (gatherTensor s queue src idx dst dim dry)

/-- The moves of a scatter: the destination's slice `xs[i]` is slice `i` of the source; an index out of bounds drops its slice
(R190), and a slice that another module holds is not written here (log entry 131). -/
def scatterMoves (s : State) (q : QueueId) (a b : Desc) (xs : List Int) (dim : Nat) : List (List MoveRun) :=
  (List.range (min xs.length ((unitsHere s q a).getD dim 1))).filterMap fun i =>
    let x := xs.getD i 0
    if inBounds x (extentOf b dim) then
      (localIndex s q b dim x.toNat).map fun l =>
        (sliceTuples (unitsHere s q b) dim l).map fun v => unitMove s q a b (v.set dim i) v
    else none

/-- The moves of one slice in the order in which they land (R188). -/
def orderSlice (p : List MoveRun × State) (ms : List MoveRun) : List MoveRun × State :=
  let r := freeOrder p.2 (joinRuns ms)
  (p.1 ++ r.1, r.2)

/-- HOIST_SCATTER (R190, R193): slices in the order of the index stream. -/
def scatterTensor (s : State) (q : QueueId) (src idx dst dim : Nat) (dry : Option Time) : State :=
  match descAt s src, descAt s idx, descAt s dst with
  | some a, some ix, some b =>
    if !queueTakes s q || isTramFeed q then s
    else
      let xs := (indexStream s q ix).take ((unitsHere s q a).getD dim 1)
      let slices := scatterMoves s q a b xs dim
      let (ms, s) := slices.foldl orderSlice ([], spendOpen s slices.flatten)
      let s := countOob s q (oobOf xs (extentOf b dim))
      enterCommand s q { runs := ms, dry := dry, deps := [], slow := false }
  | _, _, _ => s

def execHoistScatter (queue : QueueId) (src idx dst dim : Nat) (dry : Option Time) (s : State) :
    Host.Outcome State Fault Refusal :=
  .next (scatterTensor s queue src idx dst dim dry)

/-! ## Scatters with accumulation -/

/-- The accumulation buffer of a task of a scatter division. -/
def findScatter (s : State) (job node task : Nat) : Option ScatterBuffer :=
  s.scatters.find? fun b => b.job == job && b.node == node && b.task == task

/-- A buffer put in place of the one of its task. -/
def putScatter (s : State) (b : ScatterBuffer) : State :=
  let same (x : ScatterBuffer) : Bool := x.job == b.job && x.node == b.node && x.task == b.task
  { s with scatters := if s.scatters.any same then s.scatters.map fun x => if same x then b else x else s.scatters ++ [b] }

/-- The buffer that a task accumulates into, empty where it has none yet. -/
def bufferOf (s : State) (job node task format : Nat) : ScatterBuffer :=
  (findScatter s job node task).getD { job := job, node := node, task := task, format := format, entries := [], image := [] }

/-- An FP32 value added to the entry of an element (R194): the first contribution is taken as it is, later ones are added and
rounded. -/
def addEntry (l : List ((Nat × List Nat) × Addr × Word)) (k : Nat × List Nat) (a : Addr) (v : Word) :
    List ((Nat × List Nat) × Addr × Word) :=
  if l.any (·.1 == k) then
    l.map fun e => if e.1 = k then
      (k, a, BitVec.ofNat 32 (encodeF fp32 .rne (addF .rne (decodeF fp32 e.2.2.toNat) (decodeF fp32 v.toNat)))) else e
  else l ++ [(k, a, v)]

/-- A source element as FP32: every source format converts exactly (R194). An element that the source does not have is open
(R199). -/
def sourceWord (s : State) (q : QueueId) (d : Desc) (v : List Nat) : Word :=
  if withinUnits (unitsHere s q d) v then
    BitVec.ofNat 32 (encodeF fp32 .rne (elemVal d.format (leNat (readModule s (unitAt d v) (unitBytes d.format)))))
  else Config.shapeOpen s.freeCount (unitAt d v)

/-- Whether a format takes part in SCATTER.ADD (R194). -/
def scatterFormat (f : Nat) : Bool :=
  f == fmtFp32 || f == fmtBf16 || f == fmtFp16

/-- One slice of the index stream, slice `i` of the source, added into a buffer (R194). -/
def addSlice (s : State) (q : QueueId) (a b : Desc) (dim : Nat) (l : List ((Nat × List Nat) × Addr × Word)) (e : Nat × Int) :
    List ((Nat × List Nat) × Addr × Word) :=
  match (if inBounds e.2 (extentOf b dim) then localIndex s q b dim e.2.toNat else none) with
  | some x => (sliceTuples (unitsHere s q b) dim x).foldl (fun l v =>
      addEntry l (e.2.toNat, v.set dim 0) (unitAt b v) (sourceWord s q a (v.set dim e.1))) l
  | none => l

/-- The slices of the index stream that an accumulation takes: their places in the stream and their indices. -/
def addStream (s : State) (q : QueueId) (a ix : Desc) (o : AddOp) : List (Nat × Int) :=
  let all := (indexStream s q ix).take ((unitsHere s q a).getD o.dim 1)
  (List.range all.length).filterMap fun i =>
    if o.first ≤ i ∧ i < o.first + o.count then some (i, all.getD i 0) else none

/-- The source runs of an accumulation: those of each slice by themselves (R208). -/
def addRuns (s : State) (q : QueueId) (a b : Desc) (xs : List (Nat × Int)) (dim : Nat) : List MoveRun :=
  xs.flatMap fun e =>
    if inBounds e.2 (extentOf b dim) ∧ (localIndex s q b dim e.2.toNat).isSome then
      let units := (sliceTuples (unitsHere s q a) dim e.1).map fun v => unitAt a v
      joinRuns ((List.range units.length).map fun i =>
        { src := units.getD i 0, dst := i * descUnit a, len := descUnit a, fill := none })
    else []

/-- HOIST_SCATTER_ADD (R190, R194, R214): `count` indices of the stream from `first` on, entered into the queue; what they
select is added into the task's buffer when the command completes. -/
def scatterAdd (s : State) (q : QueueId) (o : AddOp) : State :=
  match descAt s o.src, descAt s o.idx, descAt s o.dst with
  | some a, some ix, some b =>
    let buf := bufferOf s o.job o.node o.task b.format
    if !queueTakes s q || 16 ≤ q.queue.val || !scatterFormat a.format || !scatterFormat b.format || buf.committed then s
    else
      let xs := addStream s q a ix o
      let s := countOob s q (oobOf (xs.map (·.2)) (extentOf b o.dim))
      enqueueTo (putScatter s buf) q { runs := addRuns s q a b xs o.dim, dry := none, deps := [], slow := false } (.accumulation o)
  | _, _, _ => s

def execHoistScatterAdd (queue : QueueId) (job node task src idx dst dim first count : Nat) (s : State) :
    Host.Outcome State Fault Refusal :=
  .next (scatterAdd s queue ⟨job, node, task, src, idx, dst, dim, first, count⟩)

/-- The slices of an accumulation added into its task's buffer, in stream order (R194). -/
def accumulate (s : State) (q : QueueId) (o : AddOp) : State :=
  match descAt s o.src, descAt s o.idx, descAt s o.dst with
  | some a, some ix, some b =>
    let buf := bufferOf s o.job o.node o.task b.format
    let xs := addStream s q a ix o
    { putScatter s { buf with entries := xs.foldl (addSlice s q a b o.dim) buf.entries } with freeCount := s.freeCount + 1 }
  | _, _, _ => s

end Sys2Proof.Machine
end

