-- ==== Sys2Proof/Machine/Hoist.lean ====
section
/-! DEFINITION. Hoists at work (R204, R213 to R221): the issue of segments, the transfer of their runs, their completion, and
the descriptor rings. -/

namespace Sys2Proof.Machine

/-! ## Where runs lie -/

/-- The domain that an address lies in: none where nothing backs it. -/
def placeDomain (a : Addr) : Option DomainId :=
  match placeOf a with
  | .dram m _ => some (.seam (Fin.ofNat 16 m) .mclk)
  | .scratch c _ => some (.seam c.seam .kclk)
  | .vat c _ => some (.seam c.seam .kclk)
  | .none => none

/-- Whether the domain of an address is live (R319). -/
def placeLive (s : State) (a : Addr) : Bool :=
  match placeDomain a with
  | some d => isLiveDom s d
  | none => true

/-- Whether a hoist may issue a run of a segment: the domains at its ends are live (R319). -/
def runLive (s : State) (g : Segment) (r : MoveRun) : Bool :=
  (r.fill.isSome || placeLive s r.src) && (g.sink != .memory || placeLive s r.dst)

/-- Whether an address is translated (R186, R357): everything during start-up, test and recovery, else the rehomed
granules. -/
def translates (s : State) (a : Addr) : Bool :=
  s.pwr.phase != .running || s.dep.recovery || s.dep.voids.any fun v => v.home.isSome && v.gran == granOf a

/-- The first address of a segment whose translation fails (R221). -/
def badAddress (s : State) (g : Segment) (untranslated : List Addr) : Option Addr :=
  g.runs.findSome? fun r =>
    if r.run.fill.isNone && untranslated.contains r.run.src && translates s r.run.src then some r.run.src
    else if g.sink == .memory && untranslated.contains r.run.dst && translates s r.run.dst then some r.run.dst
    else none

/-- A translation fault (R221): counted, latched unless the flag is set; the queue halts, and the task is aborted or, on a
DEPUTY queue, the seam is reported. -/
def xlateFault (s : State) (q : QueueId) (a : Addr) : State :=
  let b := hoistRegBase q.seam q.hoist
  let s := count s b Ctr.HOIST_XLATE_CNT 1
  let s :=
    if bitAt (rawReg s (b + Flag.hoist_XLATE_FAULT.1)).toNat Flag.hoist_XLATE_FAULT.2 then s
    else
      let s := setRawReg s (b + 0x28) (BitVec.ofNat 32 a)
      let s := setRawReg s (b + 0x2C) (BitVec.ofNat 32 (a / 2 ^ 32 % 65536 + 65536 * q.queue.val))
      raise s b Flag.hoist_XLATE_FAULT
  let s := setQueue s q { getQueue s q with halted := true }
  match queueSlot q with
  | some t => abortTask s t
  | none => if q.queue.val = 17 then reportFault s (.translation q) else s

/-- Whether a run's bytes go to DRAM through the controllers. -/
def toDram (g : Segment) (r : RunMove) : Bool :=
  g.sink == .memory && (dramSeam r.run.dst).isSome

/-! ## What a run carries -/

/-- A run as it is issued: a fill has its bytes, and scratch and vats give theirs at once (of a poisoned word open ones,
R158); a read of a void granule delivers nothing (R340). A run whose source is DRAM waits for its controller. -/
def fetchRun (s : State) (r : RunMove) : RunMove :=
  match r.run.fill with
  | some bs => { r with data := some (bs.take r.run.len) }
  | none =>
    match placeOf r.run.src with
    | .dram _ _ => if touchesVoid s r.run.src r.run.len then { r with data := some [], entered := true } else r
    | .scratch c off => { r with data := some (takeWindow s c off r.run.len) }
    | _ => { r with data := some (readModule s r.run.src r.run.len) }

/-- The poisoned words of scratch that a run reads (R158). -/
def sourcePoison (s : State) (r : RunMove) : List (CoreId × Nat) :=
  match r.run.fill, placeOf r.run.src with
  | none, .scratch c off => (poisonedIn s c off r.run.len).map fun w => (c, w)
  | _, _ => []

/-- The bytes that a run writes: those it has read, with the padding of a storage unit zeroed (R17, R67). -/
def runBytes (s : State) (r : RunMove) (bs : List Byte) : List Byte :=
  match r.run.pad with
  | none => bs
  | some p =>
    let unit := match r.run.fill with
      | some f => f
      | none => readModule s (r.run.src - p.skip) (p.skip + r.run.len)
    padBytes p unit bs

/-- Whether a segment's runs are accumulated (R194). -/
def isAdd (g : Segment) : Bool :=
  match g.sink with
  | .accumulation _ => true
  | _ => false

/-! ## Writes to DRAM -/

/-- A run of a segment of a queue changed by `f`. -/
def updRunMove (x : HoistQueue) (id i : Nat) (f : RunMove → RunMove) : HoistQueue :=
  { x with issued := x.issued.map fun g => if g.id = id then { g with runs := g.runs.modify i f } else g }

/-- Whether a run waits for an earlier run of its command that writes a byte of its own and has not gone to the controllers
(R193). -/
def blockedRun (x : HoistQueue) (g : Segment) (i : Nat) (r : RunMove) : Bool :=
  x.issued.any fun h => h.cmd == g.cmd && (List.range h.runs.length).any fun j =>
    (decide (h.id < g.id) || (h.id == g.id && decide (j < i))) &&
    match h.runs[j]? with
    | some a => toDram h a && !a.entered && overlap a.run.dst a.run.len r.run.dst r.run.len
    | none => false

/-- The write of one run given to the controllers, once its bytes are in the staging buffer (R207, R209, R211, R213). -/
def enterRun (q : QueueId) (s : State) (p : Nat × Nat) : State :=
  let x := getQueue s q
  match (x.issued.find? (·.id == p.1)).bind fun g => (g.runs[p.2]?).map fun r => (g, r) with
  | some (g, r) =>
    match r.data with
    | some bs =>
      if !toDram g r || r.entered || blockedRun x g p.2 r then s
      else
        let src := if r.run.fill.isSome then none else some r.run.src
        let l := writeReqs s q src (segmentDry s g) (.hoist q g.id p.2) r.run.dst (runBytes s r bs) r.at_ r.whole
        pushReqs (setQueue s q (updRunMove x g.id p.2 fun r => { r with entered := true })) l
    | none => s
  | none => s

/-- The writes of a queue's issued segments given to the controllers, in order. -/
def enterWrites (s : State) (q : QueueId) : State :=
  ((getQueue s q).issued.flatMap fun g => (List.range g.runs.length).map fun i => (g.id, i)).foldl (enterRun q) s

/-! ## SEGMENT_ISSUE -/

/-- The read requests of a segment's runs that DRAM still has to deliver (R209, R217). -/
def segmentReads (s : State) (q : QueueId) (g : Segment) : List (ChanId × ChanRequest) :=
  (List.range g.runs.length).flatMap fun i =>
    match g.runs[i]? with
    | some r =>
      if r.data.isSome then []
      else readReqs s q.seam.val (segmentDry s g) (.hoist q g.id i) r.run.src r.run.len r.at_ r.whole
    | none => []

/-- A segment issued (R213 to R216): its reads go to the controllers, and so do the writes that have their bytes; the short
runs that begin in it are counted (R222). -/
def issueSegment (s : State) (q : QueueId) (g : Segment) : State :=
  let x := getQueue s q
  let bad := g.runs.flatMap (sourcePoison s)
  let g := { g with runs := g.runs.map (fetchRun s) }
  let s := setQueue s q { x with ready := x.ready.drop 1, issued := x.issued ++ [g] }
  let s := count s (hoistRegBase q.seam q.hoist) Ctr.HOIST_SMALL_CNT g.small
  let s := bad.foldl (fun s p => meetPoison s p.1 [p.2]) s
  enterWrites (pushReqs s (segmentReads s q g)) q

/-- SEGMENT_ISSUE (R216 to R218, R221): at most one segment of a hoist, by dry time. -/
def issueOne (s : State) (seam : Fin 16) (h : Fin 8) (untranslated : List Addr) : State :=
  if !isLiveDom s (.seam seam .fclk) then s
  else
    match chooseQueue s seam h with
    | none => s
    | some (n, g) =>
      let q : QueueId := ⟨seam, h, Fin.ofNat 18 n⟩
      if !g.runs.all (fun r => runLive s g r.run) then s
      else
        match badAddress s g untranslated with
        | some a => xlateFault s q a
        | none => issueSegment s q g

def execSegmentIssue (seam : Fin 16) (hoist : Fin 8) (untranslated : List Addr) (s : State) :
    Host.Outcome State Fault Refusal :=
  .next (issueOne s seam hoist untranslated)

/-! ## Delivery from DRAM -/

/-- The bytes of a run delivered by the controller (R204, R213), with its poisoned 64 B words. A poisoned word that is to go
into DRAM, into another seam or into an accumulation is not written, and aborts the task that takes it; one that goes into
the seam's own scratch or into a car carries its mark there (R158, R224, R241). A segment that has been cancelled takes
nothing (R219). -/
def deliverRead (s : State) (q : QueueId) (id i : Nat) (bs : List Byte) (bad : List Nat) : State :=
  let x := getQueue s q
  match (x.issued.find? (·.id == id)).bind fun g => (g.runs[i]?).map fun r => (g, r) with
  | none => s
  | some (g, r) =>
    if bad != [] && (isAdd g || (g.sink == .memory && isWrite q r.run)) then
      let s := setQueue s q (updRunMove x id i fun r => { r with data := some [], bad := bad, entered := true })
      match queueSlot q with
      | some t => abortTask s t
      | none => s
    else enterWrites (setQueue s q (updRunMove x id i fun r => { r with data := some bs, bad := bad })) q

/-! ## SEGMENT_COMPLETE -/

/-- The words of scratch that a range covers marked as poisoned (R158, R204). -/
def poisonAt (s : State) (a : Addr) (n : Nat) : State :=
  match placeOf a with
  | .scratch c off =>
    let x := getCore s c
    let words := (List.range ((off + n + 7) / 8 - off / 8)).map (off / 8 + ·)
    setCore s c { x with poisonedWords := (x.poisonedWords ++ words).eraseDups }
  | _ => s

/-- The part of a run's destination that a 64 B word of its source fills: its address and length. -/
def wordDst (r : MoveRun) (w : Nat) : Addr × Nat :=
  let lo := max r.src (64 * w)
  (r.dst + (lo - r.src), min (r.src + r.len) (64 * w + 64) - lo)

/-- A run landed in scratch or a vat; what goes to DRAM has been written by its controller. `poisoned` says that the links
have delivered it poisoned (R224). -/
def landRun (g : Segment) (poisoned : Bool) (s : State) (r : RunMove) : State :=
  match r.data with
  | none => s
  | some bs =>
    if bs = [] ∨ toDram g r = true then s
    else
      let s := writeModule s r.run.dst (runBytes s r bs)
      if poisoned then poisonAt s r.run.dst r.run.len
      else r.bad.foldl (fun s w => poisonAt s (wordDst r.run w).1 (wordDst r.run w).2) s

/-- A piece of a car's payload that has been read (R238): the run's destination is its place, 4 KiB for every car by number. -/
def fillCar (poisoned : Bool) (x : HoistQueue) (r : RunMove) : HoistQueue :=
  match r.data with
  | none => x
  | some bs =>
    let at_ := r.run.dst % 4096
    let put (c : LoadingCar) : LoadingCar :=
      let bytes := c.car.payload.take at_ ++ bs ++ c.car.payload.drop (at_ + bs.length)
      let bad := c.car.poisoned || poisoned || r.bad != [] || bs.isEmpty
      { c with car := { c.car with payload := bytes, poisoned := bad }, left := c.left - r.run.len }
    { x with cars := x.cars.modify (r.run.dst / 4096 - x.firstCar) put }

/-- The cars at the head of a queue's train whose payloads are whole enter the chain at the hop stage of their core (R238). -/
def releaseCars (s : State) (q : QueueId) : State :=
  let x := getQueue s q
  let out := x.cars.takeWhile fun c => c.left == 0
  let s := setQueue s q { x with cars := x.cars.drop out.length, firstCar := x.firstCar + out.length }
  out.foldl (fun s c =>
    let h := getHop s (coreAtPos c.entry)
    setHop s (coreAtPos c.entry) { h with feeding := h.feeding ++ [c.car] }) s

/-- What a segment has read landed where its command's runs go. -/
def landSegment (s : State) (q : QueueId) (g : Segment) (poisoned : Bool) : State :=
  match g.sink with
  | .memory => g.runs.foldl (landRun g poisoned) s
  | .accumulation _ => s
  | .tram => releaseCars (setQueue s q (g.runs.foldl (fillCar poisoned) (getQueue s q))) q

/-- Bytes landed counted in units of 4 KiB (R222, R275). -/
def landBytes (s : State) (q : QueueId) (n : Nat) (slow : Bool) : State :=
  let x := getQueue s q
  let b := hoistRegBase q.seam q.hoist
  let s := count s b Ctr.HOIST_BYTES_CNT ((x.landed + n) / 4096)
  let s := setQueue s q { x with landed := (x.landed + n) % 4096, slow := if slow then (x.slow + n) % 4096 else x.slow }
  if slow then
    let s := count s b Ctr.HOIST_SLOW_CNT ((x.slow + n) / 4096)
    match queueSlot q with
    | some t => slotCount s t cntSlow ((x.slow + n) / 4096)
    | none => s
  else s

/-- Whether an earlier segment of the same command, still on its way, writes a byte that this one writes. -/
def behindOverlap (x : HoistQueue) (g : Segment) : Bool :=
  x.issued.any fun h => h.cmd == g.cmd && decide (h.id < g.id) && g.sink == .memory &&
    h.runs.any fun a => g.runs.any fun b => overlap a.run.dst a.run.len b.run.dst b.run.len

/-- Whether an accumulation that was queued before a segment's is still on its way (R194, R214). -/
def behindAdd (x : HoistQueue) (g : Segment) : Bool :=
  isAdd g && (x.ready ++ x.issued).any fun h => isAdd h && decide (h.cmd < g.cmd)

/-- Whether every write of a segment to DRAM has gone to its controller. -/
def allEntered (g : Segment) : Bool :=
  g.runs.all fun r => !toDram g r || r.entered || r.data.isNone

/-- The task that takes poisoned data in DRAM or another core's memory is aborted at once; scratch words carry their mark
to their reader (R158, R204, R224). -/
def poisonTask (s : State) (q : QueueId) (g : Segment) : State :=
  match queueSlot q with
  | some t => if g.write || isAdd g then abortTask s t else s
  | none => s

/-- The last segment of an accumulation's command complete: its slices are added (R194). -/
def finishAdd (s : State) (q : QueueId) (g : Segment) : State :=
  let x := getQueue s q
  match g.sink with
  | .accumulation o => if (x.ready ++ x.issued).any (fun h => h.cmd == g.cmd) then s else accumulate s q o
  | _ => s

/-- SEGMENT_COMPLETE (R193, R204, R215): a segment completes when all its bytes have landed: its reads have come, its writes
to DRAM have been served, and the rest lands now; writes to the same bytes keep the order of their command. Bytes that a
fenced channel held never come. -/
def completeSegment (s : State) (q : QueueId) (id : Nat) (poisoned : Bool) : State :=
  let x := getQueue s q
  match x.issued.find? (·.id == id) with
  | none => s
  | some g =>
    if segmentWaits s q id || !allEntered g || behindOverlap x g || behindAdd x g then s
    else
      let s := setQueue s q { x with issued := x.issued.filter (·.id != id) }
      let s := landSegment s q g poisoned
      let s := landBytes s q (g.runs.map (·.run.len)).sum g.slow
      let s := count s (hoistRegBase q.seam q.hoist) Ctr.HOIST_SEG_CNT 1
      if poisoned then poisonTask s q g else finishAdd s q g

def execSegmentComplete (queue : QueueId) (segment : Nat) (poisoned : Bool) (s : State) :
    Host.Outcome State Fault Refusal :=
  .next (completeSegment s queue segment poisoned)

/-! ## Descriptor rings -/

/-- The address of an entry of a queue's descriptor ring: 256 entries of 64 B in its seam's deputy area (R7, R220, log entry
135). -/
def ringAddr (q : QueueId) (entry : Nat) : Addr :=
  seamDram q.seam.val + 0x5FC000000 + Config.ringPlace (hoistKey q.seam q.hoist) % 4096 * 0x4000 + 64 * entry

/-- A batch fetched (R220): one read of 16 entries, 1,024 B, from the 16-aligned entry that holds the queue's next
descriptor; the leading run of valid entries is kept. -/
def fetchBatch (s : State) (q : QueueId) (cmds : List HoistCmd) : State :=
  let x := getQueue s q
  if q.queue.val ≠ 16 ∨ 16 < x.local_.length ∨ isLiveDom s (.seam q.seam .fclk) = false then s
  else
    let got := cmds.take (16 - x.ring % 16)
    let s := setQueue s q { x with local_ := x.local_ ++ got, ring := (x.ring + got.length) % 256 }
    let dry := s.clk.now + slackNs s
    let s := pushReqs s (readReqs s q.seam.val dry (.ring q) (ringAddr q (x.ring / 16 * 16)) 1024 0 1024)
    count s (hoistRegBase q.seam q.hoist) Ctr.HOIST_BATCH_CNT 1

def execDescriptorBatchFetch (queue : QueueId) (cmds : List HoistCmd) (s : State) : Host.Outcome State Fault Refusal :=
  .next (fetchBatch s queue cmds)

def execDoorbell (queue : QueueId) (cmds : List HoistCmd) (s : State) : Host.Outcome State Fault Refusal :=
  .next (fetchBatch s queue cmds)

def execDescriptorRefetchTimeout (queue : QueueId) (cmds : List HoistCmd) (s : State) :
    Host.Outcome State Fault Refusal :=
  .next (fetchBatch s queue cmds)

end Sys2Proof.Machine
end

