-- ==== Sys2Proof/Machine/Chutes.lean ====
section
/-! DEFINITION. The commands of chute endpoints (R229 to R234). -/

namespace Sys2Proof.Machine

/-! ## Endpoints and chutes -/

/-- The domain of an endpoint (R243, R293). -/
def epDomain : EndpointId → DomainId
  | .core c _ => .seam c.seam .fclk
  | .hub _ => .pclk

/-- Whether an endpoint works: a chute or session is loaded on it and its domain is live. -/
def epWorks (s : State) (ep : EndpointId) : Bool :=
  (getEp s ep).active && isLiveDom s (epDomain ep)

/-- The chutes bound to an endpoint: (graph slot, edge) pairs. -/
def chutesAt (s : State) (ep : EndpointId) : List (Nat × Nat) :=
  s.dep.graphs.flatMap fun g => (g.2.chutes.filter fun c => c.2 == ep).map fun c => (g.1, c.1)

/-- The tasks that consume from an endpoint. -/
def consumersOf (s : State) (ep : EndpointId) : List SlotId :=
  match ep with
  | .core c _ => (residentSlots s).filter fun t => t.core == c && (chutesAt s ep).any fun r =>
      (edgeOf s r).any fun e => e.consumer == (getSlot s t).stage && slotGraph s t == some r.1
  | .hub _ => []

/-- A chute reset, with the tasks at its ends (R234); an endpoint that no chute of a graph has is reset alone. -/
def resetAt (s : State) (ep : EndpointId) : State :=
  match chutesAt s ep with
  | [] => if (getEp s ep).active then resetChuteOnly s ep else s
  | l => abortWork s [] l

/-! ## The producer's side -/

/-- A packet's last word arrives at an endpoint (R229, R230): a packet that is rewound though it carries RESEND has its
producing task aborted, and so the chute reset (R234). -/
def packetCommit (s : State) (ep : EndpointId) (p : Packet) : State :=
  if epWorks s ep then
    let r := packetArrive s ep p
    if r.2.rewound && r.2.resendFailed && !isHub ep then resetAt r.1 ep else r.1
  else s

/-- COMMIT_RECEIVED (R230): the producer releases the scratch source of its oldest packet. -/
def commitReceived (s : State) (ep : EndpointId) : State :=
  let e := getEp s ep
  match e.answers with
  | .commit :: rest => setEp s ep { e with answers := rest, unacked := e.unacked.drop 1 }
  | _ => s

def execCommitReceived (ep : EndpointId) (s : State) : Host.Outcome State Fault Refusal :=
  .next (commitReceived s ep)

/-- REWOUND_RECEIVED (R230): the producer rolls its count back and resends with RESEND set. -/
def rewoundReceived (s : State) (ep : EndpointId) : State :=
  let e := getEp s ep
  match e.answers with
  | .rewound :: rest => setEp s ep (producerRollback { e with answers := rest })
  | _ => s

def execRewoundReceived (ep : EndpointId) (s : State) : Host.Outcome State Fault Refusal :=
  .next (rewoundReceived s ep)

/-- GRANT_RECEIVED (R229): a grant on its way reaches the producer; a session's grants travel in ILT (R289). -/
def grantReceived (s : State) (ep : EndpointId) : State :=
  match ep with
  | .core _ _ =>
    let e := getEp s ep
    if e.grantsSent = 0 then s
    else setEp s ep { e with grantsSent := e.grantsSent - 1, heldGrants := e.heldGrants + 1 }
  | .hub i => issueGrants s i.val

def execGrantReceived (ep : EndpointId) (s : State) : Host.Outcome State Fault Refusal :=
  .next (grantReceived s ep)

/-! ## The consumer's side -/

/-- Whether a read may name a buffer (R231): for a core endpoint, scratch of its core. -/
def bufferOk (ep : EndpointId) (addr : Addr) (len : Nat) : Bool :=
  match ep, placeOf addr with
  | .core c _, .scratch d off => c == d && inScratch off len
  | .hub _, .scratch _ off => inScratch off len
  | .hub _, .dram _ off => off + len ≤ Config.dramBytes
  | _, _ => false

/-- CONSUMER_READ (R231, R233): whole packets of the VISIBLE bank moved into a buffer; a poisoned word is delivered marked
and the consuming task is aborted. -/
def consumerRead (s : State) (ep : EndpointId) (addr : Addr) (len : Nat) (poisoned : Bool) : State :=
  if epWorks s ep && bufferOk ep addr len then
    let (e, got) := readBank (getEp s ep) len s.clk.now
    if got = [] then s
    else
      let b := epRegBase ep
      let words := (got.map packetLen).sum
      let data := got.flatMap (·.data)
      let s := setEp s ep e
      let s := count (writeModule s addr data) b Ctr.CH_WORD_CNT words
      let s := match ep with
        | .hub i => issueGrants s i.val
        | .core _ _ => s
      if poisoned then
        let s := raise (count (poisonAt s addr data.length) b Ctr.CH_UE_CNT 1) b Flag.ch_UE
        abortWork s (consumersOf s ep) []
      else s
  else s

def execConsumerRead (ep : EndpointId) (addr : Addr) (len : Nat) (poisoned : Bool) (s : State) :
    Host.Outcome State Fault Refusal :=
  .next (consumerRead s ep addr len poisoned)

/-! ## Tails -/

/-- CLOSE_MARK (R229, R232). -/
def closeMarkCmd (s : State) (ep : EndpointId) : State :=
  if epWorks s ep then closeMarkAt s ep else s

def execCloseMark (ep : EndpointId) (s : State) : Host.Outcome State Fault Refusal :=
  .next (closeMarkCmd s ep)

/-- FILL_TIMER_EXPIRY (R232, R300): a tail notice to the producer; a hub receive endpoint's is a TAIL packet, repeated for
as long as the bank stays open. -/
def fillTimerExpiry (s : State) (ep : EndpointId) : State :=
  let e := getEp s ep
  if epWorks s ep && e.fillTimer.isSome then
    match ep with
    | .core _ _ => setEp s ep { e with fillTimer := none, notice := true }
    | .hub i =>
      let s := setEp s ep { e with fillTimer := some s.clk.now, tailPending := true }
      pushTx s (iltControl s i.val iltTail 0 (getSession s i.val).grants 0)
  else s

def execFillTimerExpiry (ep : EndpointId) (s : State) : Host.Outcome State Fault Refusal :=
  .next (fillTimerExpiry s ep)

/-- TAIL_NOTICE (R232): the producer's fabric port answers with a close mark. -/
def tailNotice (s : State) (ep : EndpointId) : State :=
  let e := getEp s ep
  if e.notice then setEp s ep { e with notice := false, tailPending := true } else s

def execTailNotice (ep : EndpointId) (s : State) : Host.Outcome State Fault Refusal :=
  .next (tailNotice s ep)

/-- DL_STALE_WHERE of an endpoint (R330, R331). -/
def staleWhere : EndpointId → Word
  | .core c e => BitVec.ofNat 32 (c.seam.val + 16 * c.core.val + 512 * e.val)
  | .hub i => BitVec.ofNat 32 (4096 + 8192 * i.val)

/-- READ_TIMER_EXPIRY (R232, R330): STALE is set and counted, and the deputy records where. -/
def readTimerExpiry (s : State) (ep : EndpointId) : State :=
  let e := getEp s ep
  if epWorks s ep && e.readTimer.isSome then
    let b := epRegBase ep
    let s := setEp s ep { e with readTimer := none }
    let s := raise (count s b Ctr.CH_STALE_CNT 1) b Flag.ch_STALE
    let s := raise (count s hubClkBase Ctr.DL_STALE_CNT 1) hubClkBase Flag.hubClk_STALE
    setRawReg s (hubClkBase + 0x28) (staleWhere ep)
  else s

def execReadTimerExpiry (ep : EndpointId) (s : State) : Host.Outcome State Fault Refusal :=
  .next (readTimerExpiry s ep)

/-! ## CHUTE_RESET -/

def execChuteReset (ep : EndpointId) (s : State) : Host.Outcome State Fault Refusal :=
  .next (resetAt s ep)

end Sys2Proof.Machine
end

