-- ==== Sys2Proof/Machine/Frames.lean ====
section
/-! DEFINITION. Frames at the port: the receive filters (R280, R281), the frames that are answered or honoured below UDP
(R282, R303, R304), the transmitter (R302) and the link (R278, R279). -/

namespace Sys2Proof.Machine

/-! ## Addresses -/

/-- The module's IPv6 address (R284). -/
def ownIp6 (s : State) : Nat :=
  s.pwr.config.ipv6Prefix * 2 ^ 32 + s.pwr.config.side * 65536 + moduleNum s

/-- The module's IPv4 address (R284). -/
def ownIp4 (s : State) : Nat :=
  s.pwr.config.ipv4Base * 2 ^ 17 + s.pwr.config.side * 65536 + moduleNum s

/-- The broadcast MAC address, and that of MAC control frames (R281). -/
def macBroadcast : Nat := 0xFFFFFFFFFFFF
def macControl : Nat := 0x0180C2000001

/-- The solicited-node multicast addresses of the module's IPv6 address: MAC and IPv6 (R281; log entry 32). -/
def solicitedMac (s : State) : Nat := 0x3333FF000000 + ownIp6 s % 2 ^ 24
def solicitedIp (s : State) : Nat := 0xFF0200000000000000000001FF000000 + ownIp6 s % 2 ^ 24

/-- EtherTypes (R281). -/
def etIpv6 : Nat := 0x86DD
def etIpv4 : Nat := 0x0800
def etArp : Nat := 0x0806
def etControl : Nat := 0x8808

/-! ## The receive filters -/

/-- Whether the port receives: the link is up and PCLK runs (R280). -/
def portLive (s : State) : Bool :=
  s.port.linkUp && isLiveDom s .pclk

/-- A frame's VLAN tags pass (R281). -/
def vlanOk (s : State) (f : RxFrame) : Bool :=
  f.vids == [] || f.vids == [s.pwr.config.vlanId]

/-- A frame's destination MAC passes for its EtherType (R281). -/
def macOk (s : State) (f : RxFrame) : Bool :=
  f.dstMac == s.pwr.mac || (f.dstMac == macBroadcast && f.etherType == etArp) ||
  (f.dstMac == solicitedMac s && f.etherType == etIpv6 && f.ipProto == 58) ||
  (f.dstMac == macControl && f.etherType == etControl)

/-- A UDP frame to a port passes the filters (R281). -/
def udpTo (s : State) (f : RxFrame) (port : Nat) : Bool :=
  f.dstMac == s.pwr.mac && vlanOk s f && f.ipOk && f.ipProto == 17 && f.udpOk && f.dstPort == port &&
  ((f.etherType == etIpv6 && f.dstIp == ownIp6 s) || (f.etherType == etIpv4 && f.dstIp == ownIp4 s))

/-- A frame passes the filters as any of the kinds that R281 keeps; an ICMPv6 frame's target is looked at by
NEIGHBOR_SOLICITATION. -/
def frameKept (s : State) (f : RxFrame) : Bool :=
  udpTo s f s.pwr.config.iltPort || udpTo s f s.pwr.config.mgmtPort ||
  (macOk s f && vlanOk s f && (f.etherType == etArp || f.etherType == etControl ||
    (f.etherType == etIpv6 && f.ipOk && f.ipProto == 58 && f.hopLimit == 255 &&
      (f.dstIp == ownIp6 s || f.dstIp == solicitedIp s))))

/-- Whether a frame's size lies in the range that is received (R280). -/
def sizeOk (f : RxFrame) : Bool :=
  decide (64 ≤ f.size) && decide (f.size ≤ 9216)

/-- A port counter. -/
def portCount (s : State) (off : Nat) : State :=
  count s portBase off 1

/-- Whether a frame passes its FCS: one with an uncorrectable FEC codeword fails it (R280). -/
def fcsGood (f : RxFrame) : Bool :=
  f.fcsOk && f.fecBad == 0

/-- What the end of a frame counts whatever it holds: FEC codewords, and a second end in one PCLK cycle (R292, R308). -/
def frameEnds (s : State) (f : RxFrame) : State :=
  let s := if f.fecFixed = 0 then s else count s portBase Ctr.PORT_FEC_CORR_CNT f.fecFixed
  let s := if f.fecBad = 0 then s
    else raise (count s portBase Ctr.PORT_FEC_UNCORR_CNT f.fecBad) portBase Flag.port_FEC_UNCORR
  if f.sameCycle then portCount s Ctr.PORT_TWO_END_CNT else s

/-- A frame received by size and FCS (R280), then by a filter: it is counted where it fails. Answers whether it is kept. -/
def receiveFrame (s : State) (f : RxFrame) (kept : Bool) : State × Bool :=
  if !portLive s then (s, false)
  else
    let s := frameEnds s f
    if !sizeOk f then (portCount s Ctr.PORT_SIZE_ERR_CNT, false)
    else if !fcsGood f then (portCount s Ctr.PORT_FCS_ERR_CNT, false)
    else
      let s := portCount s Ctr.PORT_RX_FRAME_CNT
      if kept then (s, true) else (portCount s Ctr.PORT_FILTER_DROP_CNT, false)

/-- RX_FRAME_ERROR (R280, R281): the errors of a frame that does not reach a higher layer. A frame without any is no error
and is left to the row of its kind. -/
def rxFrameError (s : State) (f : RxFrame) : State :=
  if sizeOk f && fcsGood f && frameKept s f then s else (receiveFrame s f (frameKept s f)).1

def execRxFrameError (frame : RxFrame) (s : State) : Host.Outcome State Fault Refusal :=
  .next (rxFrameError s frame)

/-! ## ARP, Neighbor Solicitation, flow control -/

/-- The destination MAC of an answer (R282). -/
def answerMac (s : State) (f : RxFrame) : Nat :=
  if s.pwr.config.nextHopMac = 0 then f.srcMac else s.pwr.config.nextHopMac

/-- An answer to an address request (R282, R302). -/
def addressAnswer (s : State) (f : RxFrame) (body : TxBody) : TxFrame :=
  { cls := .control, dstMac := answerMac s f, dstIp := f.srcIp, dstPort := 0, pcp := s.pwr.config.pcpCtrl,
    dry := s.clk.now, body := body }

/-- ARP_REQUEST (R281, R282). -/
def arpRequest (s : State) (f : RxFrame) (target : Nat) : State :=
  match receiveFrame s f (macOk s f && vlanOk s f && f.etherType == etArp) with
  | (s, true) => if target = ownIp4 s then pushTx s (addressAnswer s f (.arp target)) else s
  | (s, false) => s

def execArpRequest (frame : RxFrame) (target : Nat) (s : State) : Host.Outcome State Fault Refusal :=
  .next (arpRequest s frame target)

/-- NEIGHBOR_SOLICITATION (R281, R282). -/
def neighborSolicitation (s : State) (f : RxFrame) (target : Nat) : State :=
  let ok := macOk s f && vlanOk s f && f.etherType == etIpv6 && f.ipOk && f.ipProto == 58 && f.hopLimit == 255 &&
    target == ownIp6 s && (f.dstIp == ownIp6 s || f.dstIp == solicitedIp s)
  match receiveFrame s f ok with
  | (s, true) => pushTx s (addressAnswer s f (.neighbor target))
  | (s, false) => s

def execNeighborSolicitation (frame : RxFrame) (target : Nat) (s : State) : Host.Outcome State Fault Refusal :=
  .next (neighborSolicitation s frame target)

/-- The priorities that a PFC frame enables get its times; a time of 0 ends the pause (R303). -/
def setPauses (p : Table Nat) (enable : Nat) (times : List Nat) : Table Nat :=
  (List.range 8).foldl (fun p k => if bitAt enable k then tset p 0 k (times.getD k 0 % 65536) else p) p

/-- PFC_FRAME (R303). -/
def pfcFrame (s : State) (f : RxFrame) (opcode : Nat) (enable : Byte) (times : List Nat) : State :=
  match receiveFrame s f (macOk s f && vlanOk s f && f.etherType == etControl) with
  | (s, true) =>
    if opcode = 0x0101 ∧ enable ≠ 0 then
      let s := { s with port := { s.port with paused := setPauses s.port.paused enable.toNat times } }
      raise (portCount s Ctr.PORT_PFC_RX_CNT) portBase Flag.port_PFC_RX
    else s
  | (s, false) => s

def execPfcFrame (frame : RxFrame) (opcode : Nat) (enable : Byte) (times : List Nat) (s : State) :
    Host.Outcome State Fault Refusal :=
  .next (pfcFrame s frame opcode enable times)

/-- PAUSE_EXPIRY (R303). -/
def pauseExpiry (s : State) (k : Nat) : State :=
  { s with port := { s.port with paused := tset s.port.paused 0 k 0 } }

def execPauseExpiry (priority : Fin 8) (s : State) : Host.Outcome State Fault Refusal :=
  .next (pauseExpiry s priority.val)

/-- PAUSE_FRAME (R304): discarded, in exactly one of the two counters. -/
def pauseFrame (s : State) (f : RxFrame) : State :=
  match receiveFrame s f (f.etherType == etControl && vlanOk s f && (f.dstMac == macControl || f.dstMac == s.pwr.mac)) with
  | (s, true) => portCount s Ctr.PORT_PAUSE_DROP_CNT
  | (s, false) => s

def execPauseFrame (frame : RxFrame) (s : State) : Host.Outcome State Fault Refusal :=
  .next (pauseFrame s frame)

/-! ## The transmitter -/

/-- Place of a class at the transmitter (R302). -/
def classRank : TxClass → Nat
  | .control => 0
  | .management => 1
  | .data => 2

/-- The session of a data frame. -/
def frameSession (f : TxFrame) : Nat :=
  match f.body with
  | .ilt _ i _ _ _ _ _ _ _ _ => i
  | .mgmt _ _ i _ _ => i
  | _ => 0

/-- Whether one frame goes before an earlier queued one (R302): by class, and among data frames by dry time and session;
packets of one session keep their order. -/
def txBefore (a b : TxFrame) : Bool :=
  if a.cls = b.cls then
    a.cls == .data && frameSession a != frameSession b &&
      (decide (a.dry < b.dry) || (a.dry == b.dry && decide (frameSession a < frameSession b)))
  else decide (classRank a.cls < classRank b.cls)

/-- Whether a frame's priority is paused (R303). -/
def framePaused (s : State) (f : TxFrame) : Bool :=
  tget s.port.paused 0 f.pcp != 0

/-- The next frame (R302): among data frames only the head of each session stands for choice. -/
def nextFrame (s : State) : Option Nat :=
  let q := s.port.txQueue
  (List.range q.length).foldl (fun best i =>
    match q[i]? with
    | none => best
    | some f =>
      if framePaused s f then best
      else if f.cls = .data ∧ (q.take i).any (fun g => g.cls == .data && frameSession g == frameSession f) = true then best
      else match best with
        | none => some i
        | some j => match q[j]? with
          | some g => if txBefore f g then some i else some j
          | none => some i) none

/-- FRAME_TRANSMIT (R302, R303). -/
def frameTransmit (s : State) : State :=
  if !portLive s then s
  else
    match nextFrame s with
    | some i =>
      let f := s.port.txQueue[i]?
      portCount { s with port := { s.port with txQueue := s.port.txQueue.eraseIdx i, lastTx := f } } Ctr.PORT_TX_FRAME_CNT
    | none => s

def execFrameTransmit (s : State) : Host.Outcome State Fault Refusal :=
  .next (frameTransmit s)

/-! ## The link -/

/-- Whether the start has come to step 9, in which the port links (R378). -/
def linkPhase (s : State) : Bool :=
  match s.pwr.phase with
  | .off => false
  | .step n => decide (9 ≤ n)
  | .running => true

/-- Whether the link may come up in a mode (R278, R279): the image's mode, or the 800 Gb/s mode of the same medium where
auto-negotiation may choose it; in rescue an 800 Gb/s mode with auto-negotiation (R372). -/
def modeAllowed (s : State) (m : Nat) : Bool :=
  let p := s.pwr.config.portMode
  if s.pwr.rescue then m == 4 || m == 5
  else m == p || (s.pwr.config.bringupOk && ((p == 1 && m == 4) || (p == 2 && m == 5)))

/-- LINK_UP (R279). -/
def linkComesUp (s : State) (m : Nat) : State :=
  if !s.port.linkUp && linkPhase s && isLiveDom s .pclk && 1 ≤ m && m ≤ 6 && modeAllowed s m then
    { s with port := { s.port with linkUp := true, mode := m } }
  else s

def execLinkUp (mode : Fin 8) (s : State) : Host.Outcome State Fault Refusal :=
  .next (linkComesUp s mode.val)

/-- LINK_DOWN (R308). -/
def linkGoesDown (s : State) : State :=
  if s.port.linkUp then
    raise { s with port := { s.port with linkUp := false, mode := 0 } } portBase Flag.port_LINK_DOWN
  else s

def execLinkDown (s : State) : Host.Outcome State Fault Refusal :=
  .next (linkGoesDown s)

end Sys2Proof.Machine
end

