-- ==== Sys2Proof/Machine/Answers.lean ====
section
/-! DEFINITION. Management responses and the queue of requests (R305, R306, R399, R401). -/

namespace Sys2Proof.Machine

/-! ## Operations and answers -/

/-- Operation codes (R305, R379). -/
def opHello : Nat := 0x01
def opOpen : Nat := 0x02
def opShut : Nat := 0x03
def opRead : Nat := 0x10
def opWrite : Nat := 0x11
def opAbort : Nat := 0x12
def opAnnounce : Nat := 0x20

/-- STATUS values of a response (R305). -/
def stOk : Nat := 0
def stAuth : Nat := 1
def stNoSession : Nat := 2
def stBusy : Nat := 3
def stAbandoned : Nat := 4
def stBadRequest : Nat := 5

/-- The response frame to a request (R302, R305): to the requester's address and port, repeating OP, session and REQ_ID. -/
def mgmtAnswer (s : State) (r : MgmtFrame) (status : Nat) (body : List Byte) : TxFrame :=
  { cls := .management, dstMac := answerMac s r.frame, dstIp := r.frame.srcIp, dstPort := r.frame.srcPort,
    pcp := s.pwr.config.pcpMgmt, dry := s.clk.now,
    body := .mgmt r.header.op.toNat status r.header.session.toNat r.header.reqId body }

/-- An open management session. -/
def getMgmt (s : State) (i : Nat) : Option MgmtSession :=
  tget s.port.mgmt none i

/-- A management session changed. -/
def setMgmt (s : State) (i : Nat) (x : Option MgmtSession) : State :=
  { s with port := { s.port with mgmt := tset s.port.mgmt none i x } }

/-- A request answered: a BAD_REQUEST is counted (R412). -/
def answerMgmt (s : State) (r : MgmtFrame) (status : Nat) (body : List Byte) : State :=
  let s := pushTx s (mgmtAnswer s r status body)
  if status = stBadRequest then raise (count s 0 Ctr.MG_BADREQ_CNT 1) 0 Flag.ident_BAD_REQUEST else s

/-- A request of a session executed and answered: its response is kept for a repetition (R306). A session that the request
has closed keeps nothing. -/
def finishMgmt (s : State) (r : MgmtFrame) (status : Nat) (body : List Byte) : State :=
  let i := r.header.session.toNat
  let s' := answerMgmt s r status body
  match getMgmt s' i with
  | some x => setMgmt s' i (some { x with lastReq := some r.header.reqId, lastAnswer := some (mgmtAnswer s r status body) })
  | none => s'

/-! ## The queue -/

/-- The operations that a request may name (R305). -/
def knownOp (op : Nat) : Bool :=
  op == opHello || op == opOpen || op == opShut || op == opRead || op == opWrite || op == opAbort

/-- Requests at the front of the queue that name no operation, answered BAD_REQUEST; those left. -/
def answerUnknown : List MgmtFrame → State → List MgmtFrame × State
  | [], s => ([], s)
  | r :: rest, s =>
    if knownOp r.header.op.toNat then (r :: rest, s) else answerUnknown rest (answerMgmt s r stBadRequest [])

/-- The queue moved on (R306): a request that names no operation needs no execution; nothing moves behind a held one. -/
def settleQueue (s : State) : State :=
  if s.port.held.isSome then s
  else
    let r := answerUnknown s.port.mgmtQueue s
    { r.2 with port := { r.2.port with mgmtQueue := r.1 } }

/-! ## Held accesses -/

/-- The body of the response to a READ or WRITE (R399, R401). -/
def accessBody (r : MgmtFrame) (n : Nat) (got : List Word) : List Byte :=
  beBytes 4 (beAt r.body 0 4) ++ beBytes 2 n ++ beBytes 2 0 ++ got.flatMap fun w => beBytes 4 w.toNat

/-- A held access abandoned (R306, R401). -/
def abandonHeld (s : State) (h : HeldAccess) : State :=
  let s := { s with port := { s.port with held := none } }
  let s := raise (count s 0 Ctr.MG_ABANDON_CNT 1) 0 Flag.ident_ABANDONED
  finishMgmt s h.req stAbandoned (accessBody h.req h.at_ h.words)

end Sys2Proof.Machine
end

