-- ==== Sys2Proof/Machine/ScatterAdd.lean ====
section
/-! DEFINITION. The journaled commit of SCATTER.ADD (R194, R195, R349). -/

namespace Sys2Proof.Machine

/-! ## The image -/

/-- An entry put at its place by address. -/
def insertEntry (x : Addr × Word) : List (Addr × Word) → List (Addr × Word)
  | [] => [x]
  | y :: r => if x.1 < y.1 then x :: y :: r else y :: insertEntry x r

/-- Entries of a piece: 64 MiB at 12 B an entry (R349, log entry 31). -/
def pieceEntries : Nat := 0x4000000 / 12

/-- Pieces of a buffer's image. -/
def pieceCount (b : ScatterBuffer) : Nat :=
  (b.entries.length + pieceEntries - 1) / pieceEntries

/-- The new value of a destination element and what its conversion counts (R194). -/
def newValue (s : State) (format : Nat) (e : Addr × Word) : (Addr × Nat) × CvtCounts :=
  let old := elemVal format (leNat (readModule s e.1 (unitBytes format)))
  let sum := encodeF fp32 .rne (addF .rne old (decodeF fp32 e.2.toNat))
  let r := cvtScalar format { rtz := false, inf := false, ocp := false } (decodeF fp32 sum)
  ((e.1, r.1), r.2)

/-- The conversion counts of a commit in the counts of its node (R28, R275). -/
def countConversions (s : State) (job node : Nat) (c : CvtCounts) : State :=
  updRun s job node fun r => { r with
    counts := addCount (addCount (addCount (addCount (addCount (addCount r.counts 6 c.sat) 7 c.inf) 8 c.clamp)
      9 c.nanBlk) 10 c.nanInt) 11 c.inf2nan }

/-- The image of the pieces not recorded yet, in address order (R349); it is formed once. -/
def formImage (s : State) (b : ScatterBuffer) : ScatterBuffer × State :=
  if b.image = [] then
    let todo := (((b.entries.map (·.2)).foldr insertEntry []).drop (b.recorded * pieceEntries)).map (newValue s b.format)
    ({ b with image := todo.map (·.1) },
     countConversions s b.job b.node ((todo.map (·.2)).foldl CvtCounts.add {}))
  else (b, s)

/-- The bytes of a piece in its commit record: for each entry its address and its value. -/
def pieceBytes (l : List (Addr × Nat)) : List Byte :=
  l.flatMap fun e => leBytes 8 e.1 ++ leBytes 4 e.2

/-- The entries that a commit record's bytes spell. -/
def parsePiece (bs : List Byte) : List (Addr × Nat) :=
  (List.range (bs.length / 12)).map fun i => (leAt bs (12 * i) 8, leAt bs (12 * i + 8) 4)

/-- The number of the write that a task's commit is (R341). -/
def commitWriteNum (b : ScatterBuffer) : Nat :=
  2 * ((b.job * 65536 + b.node) * 2 ^ 32 + b.task) + 1

/-- A piece's values copied into the destination (R188, R341, R349). -/
def copyPiece (s : State) (b : ScatterBuffer) (l : List (Addr × Nat)) : State :=
  let ws := l.map fun e => (e.1, leBytes (unitBytes b.format) e.2)
  ws.foldl (fun s w => coverPart s (commitWriteNum b) w.1 w.2.length) (applyWrites s ws)

/-! ## SCATTER_ADD_COMMIT -/

/-- Whether every lower task of a task's scatter has committed (R195). -/
def lowerCommitted (s : State) (job node task : Nat) : Bool :=
  s.counters.all fun e => !(e.2.active && e.2.job == job && e.2.node == node) ||
    e.2.tasks.all fun t => task ≤ t.part || (findScatter s job node t.part).any (·.committed)

/-- Whether a journal write of a task's commit is on its way. -/
def commitPending (s : State) (job node task : Nat) : Bool :=
  s.jnl.pendingWrites.any fun w => match w.use with
    | .piece j n t _ => j == job && n == node && t == task
    | _ => false

/-- The key under which a commit's mirror records travel. -/
def pieceKey (job node task k : Nat) : Nat :=
  2 ^ 256 + ((job * 65536 + node) * 2 ^ 32 + task) * 2 ^ 32 + k

/-- The bytes of a commit's journal write: the RUN that made the job, the job, node and task, the number of the write, the
destination's format, and the piece. -/
def commitBytes (s : State) (job node task k format : Nat) (piece : List Byte) : List Byte :=
  let c := (getJob s job).map (·.ctx)
  leBytes 2 ((c.map (·.session.val)).getD 0) ++ leBytes 4 ((c.map (·.lsn.toNat)).getD 0) ++
  leBytes 8 ((c.map (·.index)).getD 0) ++ leBytes 8 job ++ leBytes 4 node ++ leBytes 4 task ++ leBytes 4 k ++
  leBytes 1 format ++ piece

/-- A journal write of a commit started (R345, R349). -/
def commitWrite (s : State) (job node task k format : Nat) (piece : List Byte) : State :=
  startWrite s (.piece job node task k) .commit (pieceKey job node task k) (commitBytes s job node task k format piece)

/-- The commit record of a task's next piece written (R349); it waits for space in the lot ring (R347). -/
def writePiece (s : State) (b : ScatterBuffer) : State :=
  let bytes := pieceBytes (b.image.take pieceEntries)
  let n := granulesOf bytes.length
  if lotRingSize s < lotUsed s + n then putScatter s b
  else
    let r : LotRecord :=
      { session := 0, lsn := 0, psnAfter := 0, tAccept := s.clk.now, granules := n, commands := 0, done := [],
        bytes := bytes, piece := some (b.job, b.node, b.task, b.recorded) }
    let s := putScatter s b
    let s := { s with jnl := { s.jnl with lotRing := s.jnl.lotRing ++ [r] } }
    commitWrite s b.job b.node b.task (2 * b.recorded) b.format bytes

/-- Whether a task of a scatter division is resident and has made its last contribution: its commands are done. -/
def contributed (s : State) (job node task : Nat) : Bool :=
  (residentSlots s).any fun t =>
    let x := getSlot s t
    x.job == job && x.stage == node && divisionTask s t == task && x.cmds.all (·.done)

/-- SCATTER_ADD_COMMIT (R194, R195, R349): the next journal write of a task's commit, once every lower task has committed. -/
def commitScatter (s : State) (job node task : Nat) : State :=
  match findScatter s job node task with
  | none => s
  | some b =>
    if b.committed || s.dep.out || commitPending s job node task || !lowerCommitted s job node task ||
        !contributed s job node task then s
    else if b.recorded < pieceCount b then
      let (b, s) := formImage s b
      writePiece s b
    else commitWrite s job node task (2 * pieceCount b) b.format []

def execScatterAddCommit (job node task : Nat) (s : State) : Host.Outcome State Fault Refusal :=
  .next (commitScatter s job node task)

/-- A commit record no longer needed: its piece is marked done (R349, R347). -/
def retirePiece (s : State) (p : Nat × Nat × Nat × Nat) : State :=
  let l := s.jnl.lotRing.map fun r => if r.piece = some p then { r with retired := true } else r
  { s with jnl := { s.jnl with lotRing := reclaimLots l } }

/-- A journal write of a commit complete (R349): a piece's record, after which its values are copied and its done mark is
written; the done mark; or the task's own mark. -/
def pieceWritten (s : State) (job node task k : Nat) : State :=
  match findScatter s job node task with
  | none => s
  | some b =>
    if k % 2 = 1 then
      mirrorNote (retirePiece (putScatter s { b with done := k / 2 + 1 }) (job, node, task, k / 2)) .retire
        (pieceKey job node task (k - 1)) []
    else
      match s.jnl.lotRing.find? fun r => r.piece == some (job, node, task, k / 2) with
      | some r =>
        let s := copyPiece s b (parsePiece r.bytes)
        let s := putScatter s { b with recorded := k / 2 + 1, image := b.image.drop pieceEntries }
        commitWrite s job node task (k + 1) b.format []
      | none => putScatter s { b with committed := true }

/-- A journal write of a commit that failed (R345): the record is not acted on, and its space is free; the piece is
written again. -/
def pieceFailed (s : State) (job node task k : Nat) : State :=
  if k % 2 = 0 then retirePiece s (job, node, task, k / 2)
  else commitWrite s job node task k 0 []

end Sys2Proof.Machine
end

