-- ==== Sys2Proof/Machine/Ilt.lean ====
section
/-! DEFINITION. ILT (R285 to R301): the receive decision, sequence and credit, lots, and the module's own DATA. -/

namespace Sys2Proof.Machine

/-! ## Headers -/

/-- The 32 header bytes of an ILT packet (R288). -/
def iltHeader (p : IltPacket) : List Byte :=
  [p.ver, p.type] ++ beBytes 2 p.session.toNat ++ beBytes 4 p.token.toNat ++ beBytes 4 p.psn.toNat ++
  beBytes 4 p.lsn.toNat ++ beBytes 4 p.chdr.toNat ++ beBytes 2 p.plen.toNat ++ [p.flags, p.rsvd] ++
  beBytes 4 p.arg0.toNat ++ beBytes 4 p.arg1.toNat

/-- Whether the CRC32C of a packet is right (R288). -/
def iltCrcOk (p : IltPacket) : Bool :=
  crc32c (iltHeader p ++ p.payload) == p.crc

/-- LOT_FIRST and LOT_LAST (R288). -/
def lotFirst (p : IltPacket) : Bool := p.flags.getLsbD 0
def lotLast (p : IltPacket) : Bool := p.flags.getLsbD 1

/-- Whether the version and the reserved bits of a packet are as R288 and R289 want them; `lots` is set where DATA
belongs to a LOT or MIRROR session. -/
def headerOk (p : IltPacket) (lots : Bool) : Bool :=
  p.ver == 1 && p.rsvd == 0 && p.flags.toNat < 4 &&
  if p.type.toNat = iltData then
    (if lots then p.chdr.toNat < 64 else p.lsn == 0 && p.flags == 0)
  else p.lsn == 0 && p.chdr == 0 && p.flags == 0

/-- Whether PLEN agrees with CHDR and with the payload that the UDP length gives (R291). -/
def lengthOk (p : IltPacket) : Bool :=
  p.payload.length == p.plen.toNat &&
  p.plen.toNat == (if p.type.toNat = iltData then 64 * (p.chdr.toNat % 64 + 1) else 0)

/-- How a PSN lies to the expected one (R294). -/
def psnOld (p exp : Word) : Bool :=
  2 ^ 31 ≤ (p - exp).toNat

/-- A packet in a UDP frame to ILT_PORT, past the filters; a packet without its TYPE in it belongs to another row. -/
def iltFrame (s : State) (f : RxFrame) (p : IltPacket) (type : Nat) : State × Bool :=
  match receiveFrame s f (udpTo s f s.pwr.config.iltPort) with
  | (s, true) => if p.type.toNat = type then (s, true) else (portCount s Ctr.PORT_FILTER_DROP_CNT, false)
  | (s, false) => (s, false)

/-- A packet dropped for its session, TOKEN, version, type or reserved bits (R289, R308). -/
def dropPacket (s : State) : State :=
  portCount s Ctr.PORT_FILTER_DROP_CNT

/-- A bad CRC32C counted (R291, R308). -/
def crcError (s : State) : State :=
  raise (portCount s Ctr.PORT_CRC32C_ERR_CNT) portBase Flag.port_CRC32C_ERR

/-! ## Lots -/

/-- A lot that breaks R296 discarded. -/
def lotError (s : State) : State :=
  raise (portCount s Ctr.PORT_LOT_ERR_CNT) portBase Flag.port_LOT_ERR

/-- The record of a lot (R344). -/
def lotRecordBytes (s : State) (i : Nat) (lsn psnAfter : Word) (bytes : List Byte) : List Byte :=
  let head := leBytes 4 0x4C4F544A ++ leBytes 2 i ++ leBytes 2 1 ++ leBytes 4 lsn.toNat ++ leBytes 4 psnAfter.toNat ++
    leBytes 4 bytes.length ++ leBytes 4 (granulesOf (64 + bytes.length)) ++ leBytes 8 s.clk.now ++ leBytes 28 0
  head ++ leBytes 4 (crc32c (head ++ bytes)).toNat ++ bytes

/-- A lot whose last packet has committed goes to the journal (R296, R345); the records of a MIRROR session wait for
MIRROR_RECORD. -/
def storeLot (s : State) (i : Nat) (lsn psnAfter : Word) (bytes : List Byte) : State :=
  let x := getSession s i
  let s := setSession s i { x with lots := x.lots ++ [{ lsn := lsn, bytes := bytes, psnAfter := psnAfter, write := s.jnl.nextId }] }
  if x.kind = .lot then
    let r : LotRecord :=
      { session := i, lsn := lsn, psnAfter := psnAfter, tAccept := 0, granules := granulesOf (64 + bytes.length),
        commands := 0, done := [], bytes := bytes }
    let s := { s with jnl := { s.jnl with lotRing := s.jnl.lotRing ++ [r] } }
    startWrite s (.lot i lsn) .lot (lotKey i lsn) (lotRecordBytes s i lsn psnAfter bytes)
  else s

/-- A lot complete in its bank (R296): a duplicate, an error, or a lot to be stored. -/
def lotDone (s : State) (i : Nat) (lsn : Word) (len : Nat) (bytes : List Byte) (psnAfter : Word) : State :=
  let x := getSession s i
  let last := x.accLsn + BitVec.ofNat 32 x.lots.length
  if (last - lsn).toNat < 2 ^ 31 then
    sendAck (raise (portCount s Ctr.PORT_DUP_LOT_CNT) portBase Flag.port_DUP_LOT) i
  else if lsn ≠ last + 1 ∨ len < 8 ∨ (x.kind = .lot ∧ 2 ^ 20 < len) ∨ bytes.length < len then lotError s
  else storeLot s i lsn psnAfter (bytes.take len)

/-- A committed DATA packet of a LOT or MIRROR session put to its lot (R290, R296). -/
def lotPacket (s : State) (i : Nat) (p : IltPacket) : State :=
  let x := getSession s i
  if lotFirst p then
    let s := if x.rxOpen then lotError s else s
    if lotLast p then
      let s := setSession s i { getSession s i with rxOpen := false, rxBytes := [] }
      lotDone s i p.lsn p.arg0.toNat p.payload (p.psn + 1)
    else
      setSession s i { getSession s i with
        rxOpen := true, rxLsn := p.lsn, rxLen := p.arg0.toNat, rxBytes := p.payload, rxBad := false }
  else if x.rxOpen then
    let bad := x.rxBad || p.lsn != x.rxLsn
    let bytes := x.rxBytes ++ p.payload
    if lotLast p then
      let s := setSession s i { x with rxOpen := false, rxBytes := [] }
      if bad then lotError s else lotDone s i x.rxLsn x.rxLen bytes (p.psn + 1)
    else setSession s i { x with rxBytes := bytes, rxBad := bad }
  else if lotLast p then lotError s
  else s

/-! ## DATA and CLOSE -/

/-- The packet that a session's endpoint sees (R290, R300): CHDR is its header; LOT_LAST closes its bank as PUSH does. -/
def bankPacket (x : Session) (p : IltPacket) : Packet :=
  let push : Word := if x.kind ≠ .chute ∧ lotLast p then 64 else 0
  { header := p.chdr ||| push, data := p.payload, bad := false, fixed := 0 }

/-- The expected PSN has committed (R294, R301): the next one is expected, and NAKs end. -/
def psnCommitted (s : State) (i : Nat) : State :=
  let x := getSession s i
  setSession s i { x with expPsn := x.expPsn + 1, nakAt := none, nakReason := 0, resync := false, resyncs := 0 }

/-- A packet beyond credit (R295). -/
def overCredit (s : State) (i : Nat) : State :=
  sendNak (raise (portCount s Ctr.PORT_OVERCREDIT_CNT) portBase Flag.port_OVERCREDIT) i 3

/-- DATA in sequence (R230, R291, R295). DATA of a LOT session before the module is in service is handled as beyond
credit (R378). -/
def dataInSequence (s : State) (i : Nat) (p : IltPacket) : State :=
  let x := getSession s i
  let ep : EndpointId := .hub (Fin.ofNat 2048 i)
  if x.kind = .lot ∧ s.port.inService = false then
    let b := epRegBase ep
    let s := raise (count s b Ctr.CH_REWIND_CNT 1) b Flag.ch_REWIND
    overCredit (raise (count s b Ctr.CH_OVERCREDIT_CNT 1) b Flag.ch_OVERCREDIT) i
  else
    let r := packetArrive s ep (bankPacket x p)
    if r.2.committed then
      let s := psnCommitted r.1 i
      let s := if x.kind = .chute then s else lotPacket s i p
      sendAck s i
    else if r.2.overcredit then overCredit r.1 i
    else sendNak r.1 i 2

/-- A packet of a receiving session by its PSN (R294). -/
def bySequence (s : State) (i : Nat) (psn : Word) (inSeq : State → State) : State :=
  let x := getSession s i
  if psn = x.expPsn then inSeq s
  else if psnOld psn x.expPsn then sendAck (portCount s Ctr.PORT_DUP_PKT_CNT) i
  else sendNak (raise (portCount s Ctr.PORT_SEQ_GAP_CNT) portBase Flag.port_SEQ_GAP) i 1

/-- A DATA frame rewound before its sequence is looked at; in sequence it is answered with a NAK (R291, R294). -/
def rewindFrame (s : State) (i : Nat) (p : IltPacket) (data : Bool) : State :=
  if p.psn = (getSession s i).expPsn then
    let b := epRegBase (.hub (Fin.ofNat 2048 i))
    let s := if data then raise (count s b Ctr.CH_REWIND_CNT 1) b Flag.ch_REWIND else s
    sendNak s i 2
  else s

/-- The index of the receiving session that a packet names, open and with its TOKEN (R285, R291). -/
def rxSession (s : State) (p : IltPacket) : Option Nat :=
  let i := p.session.toNat
  if i < 2048 ∧ (getSession s i).kind ≠ .free ∧ (getSession s i).token = p.token then some i else none

/-- DATA or CLOSE past the filters (R291). -/
def rxInOrder (s : State) (p : IltPacket) (data : Bool) (inSeq : Nat → State → State) : State :=
  match rxSession s p with
  | none => dropPacket s
  | some i =>
    if !iltCrcOk p then rewindFrame (crcError s) i p data
    else if !headerOk p ((getSession s i).kind != .chute) then rewindFrame (dropPacket s) i p data
    else if !lengthOk p then rewindFrame s i p data
    else bySequence s i p.psn (inSeq i)

/-- DATA (R290, R291, R294 to R296). -/
def dataPacket (s : State) (f : RxFrame) (p : IltPacket) : State :=
  match iltFrame s f p iltData with
  | (s, true) => rxInOrder s p true fun i s => dataInSequence s i p
  | (s, false) => s

def execData (frame : RxFrame) (p : IltPacket) (s : State) : Host.Outcome State Fault Refusal :=
  .next (dataPacket s frame p)

/-- CLOSE in sequence (R300): a close mark at the session's endpoint. -/
def closeInSequence (s : State) (i : Nat) : State :=
  sendAck (psnCommitted (closeMarkAt s (.hub (Fin.ofNat 2048 i))) i) i

/-- CLOSE (R300). -/
def closePacket (s : State) (f : RxFrame) (p : IltPacket) : State :=
  match iltFrame s f p iltClose with
  | (s, true) => rxInOrder s p false fun i s => closeInSequence s i
  | (s, false) => s

def execClose (frame : RxFrame) (p : IltPacket) (s : State) : Host.Outcome State Fault Refusal :=
  .next (closePacket s frame p)

/-! ## The module's own DATA: responses -/

/-- Whether a PSN is acknowledged by a next PSN expected. -/
def ackedBy (next psn : Word) : Bool :=
  psnOld psn next

/-- Packets not acknowledged by `next`; nothing that has not been sent can be. -/
def keepUnacked (l : List TxData) (next : Word) : List TxData :=
  l.dropWhile fun d => ackedBy next d.psn

/-- Responses whose packets have all been acknowledged leave the log (R347). -/
def leaveLog (s : State) (i : Nat) : State :=
  let x := getSession s i
  let first := (x.unacked.head?.map (·.psn)).getD x.sendPsn
  let gone (r : Response) : Bool :=
    r.ctx.session.val == i && deadNum r.ctx.index == 0 && r.written && !r.left &&
    (psnOld (r.psn + BitVec.ofNat 32 (packetsOf r.bytes.length)) first ||
      r.psn + BitVec.ofNat 32 (packetsOf r.bytes.length) == first)
  let freed := s.jnl.respLog.filter gone
  let log := s.jnl.respLog.map fun r => if gone r then { r with left := true } else r
  let s := { s with jnl := { s.jnl with respLog := reclaimResps log } }
  freed.foldl (fun s r => mirrorNote s .retire (recordKey i r.ctx.lsn r.ctx.index) []) s

/-- A frame of a packet of a response. -/
def responseFrame (s : State) (i : Nat) (d : TxData) : TxFrame :=
  let x := getSession s i
  { cls := .data, dstMac := x.peerMac, dstIp := x.peerIp, dstPort := x.peerPort, pcp := s.pwr.config.pcpData,
    dry := undatedDry s,
    body := .ilt iltData i x.token d.psn d.lsn d.chdr (if d.first then BitVec.ofNat 32 d.total else 0) 0 (txFlags d) d.bytes }

/-- Whether a queued frame is DATA of a session. -/
def isDataOf (i : Nat) (f : TxFrame) : Bool :=
  f.cls == .data && frameSession f == i

/-- One more transmission noted at every packet from a PSN on. -/
def countSends (l : List TxData) (psn : Word) : List TxData :=
  l.map fun d => if psnOld d.psn psn then d else { d with sends := d.sends + 1 }

/-- The unacknowledged packets of a session sent again from a PSN (R294, R299): go-back-N. -/
def resendFrom (s : State) (i : Nat) (psn : Word) : State :=
  let x := getSession s i
  let again := x.unacked.filter fun d => !psnOld d.psn psn
  let s := setSession s i { x with unacked := countSends x.unacked psn }
  let q := s.port.txQueue.filter fun f => !isDataOf i f
  let s := { s with port := { s.port with txQueue := q ++ again.map (responseFrame s i) } }
  count s portBase Ctr.PORT_RETX_CNT again.length

/-- The response messages of a session behind a discarded one take PSNs from `psn` on (R299). -/
def renumber (i : Nat) (log : List Response) (psn : Word) : List Response × Word :=
  match log with
  | [] => ([], psn)
  | r :: rest =>
    if r.ctx.session.val = i ∧ deadNum r.ctx.index = 0 ∧ r.left = false then
      let q := renumber i rest (psn + BitVec.ofNat 32 (packetsOf r.bytes.length))
      ({ r with psn := psn } :: q.1, q.2)
    else
      let q := renumber i rest psn
      (r :: q.1, q.2)

/-- The response that holds a PSN of a session. -/
def holdsPsn (i : Nat) (psn : Word) (r : Response) : Bool :=
  r.ctx.session.val == i && deadNum r.ctx.index == 0 && !r.left &&
  decide ((psn - r.psn).toNat < packetsOf r.bytes.length)

/-- A response discarded after 16 transmissions of its packet (R299). -/
def dropResponse (s : State) (i : Nat) (psn : Word) : State :=
  let s := raise (portCount s Ctr.PORT_RESP_DROP_CNT) portBase Flag.port_RESP_DROP
  let before := s.jnl.respLog.takeWhile fun r => !holdsPsn i psn r
  let rest := s.jnl.respLog.dropWhile fun r => !holdsPsn i psn r
  match rest with
  | [] => s
  | r :: later =>
    let q := renumber i later psn
    let s := { s with jnl := { s.jnl with respLog := reclaimResps (before ++ { r with left := true } :: q.1) } }
    let s := setSession s i { getSession s i with unacked := [], sendPsn := psn, txPsn := q.2 }
    let s := { s with port := { s.port with txQueue := s.port.txQueue.filter fun f => !isDataOf i f } }
    drainAll (releaseGrants (mirrorNote s .retire (recordKey i r.ctx.lsn r.ctx.index) []))

/-- The packets of a session that have been sent 16 times: go-back-N again, or the end of the response (R299). -/
def retransmit (s : State) (i : Nat) (psn : Word) : State :=
  let x := getSession s i
  match x.unacked.find? fun d => !psnOld d.psn psn with
  | none => s
  | some d =>
    if 16 ≤ d.sends then dropResponse s i ((x.unacked.head?.map (·.psn)).getD psn)
    else resendFrom s i psn

/-- An acknowledgement of responses up to a next PSN (R297). -/
def ackResponses (s : State) (i : Nat) (next : Word) : State :=
  let x := getSession s i
  let s := setSession s i { x with unacked := keepUnacked x.unacked next }
  drainAll (releaseGrants (leaveLog s i))

/-- Unacknowledged bytes of a session (R297). -/
def unackedBytes (x : Session) : Nat :=
  (x.unacked.map (·.bytes.length)).sum

/-- The response whose packets a session sends next (R297): written, with its first packet not sent at `sendPsn` or
before. -/
def nextResponse (s : State) (i : Nat) : Option Response :=
  let x := getSession s i
  s.jnl.respLog.find? fun r => r.written && holdsPsn i x.sendPsn r

/-- The packets of a response from a PSN on sent while RESP_WINDOW has room (R297). -/
def sendPackets (i : Nat) : List TxData → State → State
  | [], s => s
  | d :: rest, s =>
    let x := getSession s i
    if unackedBytes x + d.bytes.length ≤ x.respWindow then
      let s := pushTx s (responseFrame s i d)
      sendPackets i rest (setSession s i { x with
        unacked := x.unacked ++ [{ d with sends := 1 }], sendPsn := x.sendPsn + 1 })
    else s

/-- RESPONSE_SEND (R297). -/
def responseSend (s : State) (i : Nat) : State :=
  if (getSession s i).kind = .lot then
    match nextResponse s i with
    | some r =>
      let k := ((getSession s i).sendPsn - r.psn).toNat
      sendPackets i ((chunkMessage r.ctx.lsn r.psn r.ctx.index r.bytes).drop k) s
    | none => s
  else s

def execResponseSend (session : Fin 2048) (s : State) : Host.Outcome State Fault Refusal :=
  .next (responseSend s session.val)

/-! ## The module as the sender of a session -/

/-- The module number and side that an address of the family between modules spells (R284). -/
def peerOfIp (s : State) (ip : Nat) : Option (Nat × Nat) :=
  let base := if s.pwr.config.family = 1 then s.pwr.config.ipv6Prefix * 2 ^ 32 else s.pwr.config.ipv4Base * 2 ^ 17
  if base ≤ ip ∧ ip < base + 2 ^ 17 then some ((ip - base) % 65536, (ip - base) / 65536) else none

/-- The sending session that a packet belongs to, by source address and index (R285). -/
def outSession (s : State) (f : RxFrame) (p : IltPacket) : Option Nat :=
  s.port.outs.findIdx? fun o =>
    o.stage == .open_ && o.session == p.session.toNat && o.token == p.token &&
    f.srcIp == moduleIp s o.peer (if o.kind = .mirror then 1 - s.pwr.config.side else s.pwr.config.side)

/-- A sending session changed. -/
def updOut (s : State) (k : Nat) (g : OutSession → OutSession) : State :=
  match s.port.outs[k]? with
  | some o => { s with port := { s.port with outs := s.port.outs.set k (g o) } }
  | none => s

/-- The packets of a sending session sent again from a PSN (R299). -/
def resendOut (s : State) (k : Nat) (psn : Word) : State :=
  match s.port.outs[k]? with
  | some o =>
    let again := o.unacked.filter fun d => !psnOld d.psn psn
    let s := updOut s k fun o => { o with unacked := countSends o.unacked psn }
    let frames := again.map (outData s o (undatedDry s))
    count { s with port := { s.port with txQueue := s.port.txQueue ++ frames } } portBase Ctr.PORT_RETX_CNT again.length
  | none => s

/-- A mirror record that has been sent 16 times (R355). -/
def mirrorFails (s : State) : State :=
  raise { s with jnl := { s.jnl with mirror := .lost } } depBase Flag.dep_MIRROR_LOST

/-- A sending session's packets sent again, or, after 16 transmissions of one, its end by kind (R299). -/
def retransmitOut (s : State) (k : Nat) (psn : Word) : State :=
  match s.port.outs[k]? with
  | some o =>
    match o.unacked.find? fun d => !psnOld d.psn psn with
    | none => s
    | some d =>
      if d.sends < 16 then resendOut s k psn
      else if o.kind = .mirror then mirrorFails s
      else abortWork s [] [(o.graph, o.edge)]
  | none => s

/-- Acknowledgement and GRANTS of a sending session (R289, R295). -/
def ackOut (s : State) (k : Nat) (next grants : Word) : State :=
  pumpOut (updOut s k fun o => { o with unacked := keepUnacked o.unacked next, grants := grants }) k

/-! ## ACK, NAK, TAIL, RESET -/

/-- A journal write complete, with whatever it needs of the twin (R345): what the deputy does then. -/
def actWrite (s : State) : WriteUse → State
  | .lot i lsn =>
    let x := getSession s i
    setSession s i { x with lots := x.lots.map fun l => if l.lsn = lsn then { l with stored := true } else l }
  | .response i lsn index => drainAll (responseWritten s i lsn index)
  | .piece job node task k => pieceWritten s job node task k

/-- The writes whose copies hold them and that wait for no mirror record any more acted on (R345, R354). -/
def actWrites (s : State) : State :=
  let ready := s.jnl.pendingWrites.filter fun w => w.local_ && w.mirrorLsn.isNone
  let s := { s with jnl := { s.jnl with pendingWrites := s.jnl.pendingWrites.filter fun w => !(w.local_ && w.mirrorLsn.isNone) } }
  ready.foldl (fun s w => actWrite s w.use) s

/-- The twin's acknowledgement of every mirror record up to an LSN (R354). -/
def mirrorAcked (s : State) (lsn : Word) : State :=
  let covered (l : Word) : Bool := (lsn - l).toNat < 2 ^ 31
  let writes := s.jnl.pendingWrites.map fun w =>
    match w.mirrorLsn with
    | some l => if covered l then { w with mirrorLsn := none } else w
    | none => w
  let s := { s with jnl := { s.jnl with
    pendingWrites := writes, unmirrored := s.jnl.unmirrored.filter fun r => !covered r.lsn } }
  actWrites s

/-- Where an ACK, NAK or TAIL goes (R285): a LOT session's responses, or a session in which this module is the sender. -/
def forSender (s : State) (f : RxFrame) (p : IltPacket) (lot : Nat → State → State) (out : Nat → State → State) : State :=
  match outSession s f p with
  | some k =>
    if !iltCrcOk p then crcError s
    else if !headerOk p true || !lengthOk p then dropPacket s
    else out k s
  | none =>
    match rxSession s p with
    | some i =>
      if (getSession s i).kind = .lot ∧ f.srcIp = (getSession s i).peerIp then
        (if !iltCrcOk p then crcError s
         else if !headerOk p true || !lengthOk p then dropPacket s
         else lot i s)
      else dropPacket s
    | none => dropPacket s

/-- ACK (R289, R297, R354). -/
def ackPacket (s : State) (f : RxFrame) (p : IltPacket) : State :=
  match iltFrame s f p iltAck with
  | (s, true) =>
    forSender s f p (fun i s => ackResponses s i p.psn) fun k s =>
      let s := ackOut s k p.psn p.arg0
      if (s.port.outs[k]?.map (·.kind)) = some .mirror then mirrorAcked s p.arg1 else s
  | (s, false) => s

def execAck (frame : RxFrame) (p : IltPacket) (s : State) : Host.Outcome State Fault Refusal :=
  .next (ackPacket s frame p)

/-- NAK (R294, R297, R299): every lower PSN is acknowledged; the rest is sent again. -/
def nakPacket (s : State) (f : RxFrame) (p : IltPacket) : State :=
  match iltFrame s f p iltNak with
  | (s, true) =>
    forSender s f p (fun i s => retransmit (ackResponses s i p.psn) i p.psn) fun k s =>
      retransmitOut (ackOut s k p.psn p.arg0) k p.psn
  | (s, false) => s

def execNak (frame : RxFrame) (p : IltPacket) (s : State) : Host.Outcome State Fault Refusal :=
  .next (nakPacket s frame p)

/-- A CLOSE in sequence with a session's DATA (R300). -/
def closeData (o : OutSession) : TxData :=
  { psn := o.txPsn, lsn := 0, index := 0, first := false, last := false, total := 0, bytes := [], close := true }

/-- TAIL (R289, R300): answered with a CLOSE. Only a session in which this module is the sender takes one. -/
def tailPacket (s : State) (f : RxFrame) (p : IltPacket) : State :=
  match iltFrame s f p iltTail with
  | (s, true) =>
    forSender s f p (fun _ s => dropPacket s) fun k s =>
      let s := updOut s k fun o => { o with grants := p.arg0 }
      match s.port.outs[k]? with
      | some o => sendOut s k [closeData o]
      | none => s
  | (s, false) => s

def execTail (frame : RxFrame) (p : IltPacket) (s : State) : Host.Outcome State Fault Refusal :=
  .next (tailPacket s frame p)

/-- A CHUTE session resumes once this module has sent and received RESET (R300): PSN 0 in each direction, GRANTS 2. -/
def resumeSession (s : State) (i : Nat) : State :=
  let x := getSession s i
  if 0 < x.resetSent ∧ x.resetSeen = true then
    let s := setSession s i { x with resetSent := 0, resetSeen := false, expPsn := 0, grants := 2, nakAt := none, nakReason := 0 }
    let ep : EndpointId := .hub (Fin.ofNat 2048 i)
    setEp s ep (resetEndpoint (getEp s ep))
  else s

/-- A sending CHUTE session resumes (R300). -/
def resumeOut (o : OutSession) : OutSession :=
  if 0 < o.resetSent ∧ o.resetSeen = true then
    { o with resetSent := 0, resetSeen := false, txPsn := 0, grants := 2, started := 0, room := 0, waiting := [], unacked := [] }
  else o

/-- RESET at the receiving end of a CHUTE session (R300). -/
def resetReceived (s : State) (i : Nat) : State :=
  let ep : EndpointId := .hub (Fin.ofNat 2048 i)
  let s := if (getSession s i).resetSent = 0 then
      (match chutesAt s ep with
       | [] => resetHubSession (resetChuteOnly s ep) i
       | l => abortWork s [] l)
    else s
  resumeSession (setSession s i { getSession s i with resetSeen := true }) i

/-- RESET at the sending end (R300). -/
def resetOutReceived (s : State) (k : Nat) : State :=
  match s.port.outs[k]? with
  | some o =>
    let s := if o.resetSent = 0 then abortWork s [] [(o.graph, o.edge)] else s
    updOut s k fun o => resumeOut { o with resetSeen := true }
  | none => s

/-- RESET (R300): CHUTE sessions only. -/
def resetPacket (s : State) (f : RxFrame) (p : IltPacket) : State :=
  match iltFrame s f p iltReset with
  | (s, true) =>
    match outSession s f p with
    | some k =>
      if !iltCrcOk p then crcError s
      else if !headerOk p true || !lengthOk p || (s.port.outs[k]?.map (·.kind)) != some .chute then dropPacket s
      else resetOutReceived s k
    | none =>
      match rxSession s p with
      | some i =>
        if (getSession s i).kind ≠ .chute then dropPacket s
        else if !iltCrcOk p then crcError s
        else if !headerOk p true || !lengthOk p then dropPacket s
        else resetReceived s i
      | none => dropPacket s
  | (s, false) => s

def execReset (frame : RxFrame) (p : IltPacket) (s : State) : Host.Outcome State Fault Refusal :=
  .next (resetPacket s frame p)

/-! ## Timers -/

/-- RESET sent again by a sending session (R300). -/
def resetRetryOut (s : State) (k : Nat) : State :=
  match s.port.outs[k]? with
  | some o =>
    if 0 < o.resetSent ∧ o.resetSent < 16 ∧ o.resetSeen = false then
      pushTx (updOut s k fun o => { o with resetSent := o.resetSent + 1 })
        (outFrame s o .control iltReset 0 0 0 0 0 [] s.clk.now)
    else s
  | none => s

/-- CHUTE_RESET_RETRY (R300): of the receiving session with the index, and of sending ones. -/
def chuteResetRetry (s : State) (i : Nat) : State :=
  let x := getSession s i
  let s := if x.kind = .chute ∧ 0 < x.resetSent ∧ x.resetSent < 16 ∧ x.resetSeen = false then
      pushTx (setSession s i { x with resetSent := x.resetSent + 1 }) (iltControl s i iltReset 0 0 0)
    else s
  ((List.range s.port.outs.length).filter fun k => (s.port.outs[k]?.map (·.session)) == some i).foldl resetRetryOut s

def execChuteResetRetry (session : Fin 2048) (s : State) : Host.Outcome State Fault Refusal :=
  .next (chuteResetRetry s session.val)

/-- RETRANSMIT_TIMEOUT (R299): of a LOT session's responses, and of sending sessions with the index. -/
def retransmitTimeout (s : State) (i : Nat) : State :=
  let x := getSession s i
  let s := if x.kind = .lot then
      (match x.unacked with | d :: _ => retransmit s i d.psn | [] => s)
    else s
  ((List.range s.port.outs.length).filter fun k => (s.port.outs[k]?.map (·.session)) == some i).foldl (fun s k =>
    match s.port.outs[k]?.bind (·.unacked.head?) with
    | some d => retransmitOut s k d.psn
    | none => s) s

def execRetransmitTimeout (session : Fin 2048) (s : State) : Host.Outcome State Fault Refusal :=
  .next (retransmitTimeout s session.val)

/-- NAK_REPEAT (R294). -/
def nakRepeat (s : State) (i : Nat) : State :=
  let x := getSession s i
  if x.kind ≠ .free ∧ x.nakAt.isSome = true ∧ x.resync = false then sendNakNow s i x.nakReason else s

def execNakRepeat (session : Fin 2048) (s : State) : Host.Outcome State Fault Refusal :=
  .next (nakRepeat s session.val)

/-- RESYNC_NAK (R301): reason 4, up to 16 times, until the PSN arrives. -/
def resyncNak (s : State) (i : Nat) : State :=
  let x := getSession s i
  if x.kind = .lot ∧ x.resync = true ∧ x.resyncs < 16 then
    sendNakNow (setSession s i { x with resyncs := x.resyncs + 1 }) i 4
  else s

def execResyncNak (session : Fin 2048) (s : State) : Host.Outcome State Fault Refusal :=
  .next (resyncNak s session.val)

/-! ## LOT_ACCEPT -/

/-- The record of a lot marked ACCEPTED (R345). -/
def acceptRecord (s : State) (i : Nat) (lsn : Word) (n : Nat) : State :=
  let l := s.jnl.lotRing.map fun r =>
    if r.piece = none ∧ r.session = i ∧ r.lsn = lsn ∧ r.dead = 0 then
      { r with accepted := true, tAccept := s.clk.now, commands := n, retired := n == 0 } else r
  { s with jnl := { s.jnl with lotRing := reclaimLots l } }

/-- LOT_ACCEPT (R296): the oldest lot of a session, once the journal and the twin hold it; its commands execute (R244). -/
def lotAccept (s : State) (session : Fin 2048) : State :=
  let i := session.val
  let x := getSession s i
  match x.lots with
  | l :: rest =>
    if x.kind = .lot ∧ l.stored = true then
      let cmds := lotCommands session l.lsn s.clk.now l.bytes
      let s := setSession s i { x with
        lots := rest, accLsn := l.lsn, accPsn := l.psnAfter, backlog := x.backlog ++ cmds }
      drainAll (sendAck (acceptRecord s i l.lsn cmds.length) i)
    else s
  | [] => s

def execLotAccept (session : Fin 2048) (s : State) : Host.Outcome State Fault Refusal :=
  .next (lotAccept s session)

/-! ## First legs -/

/-- A packet of a producing task at a hub send endpoint (R226, R227, R290): DATA of the first leg's session. -/
def legSend (s : State) (k : Nat) (p : Packet) : State :=
  match s.port.outs[k]? with
  | some o =>
    let n := packetLen p
    let d : TxData :=
      { psn := o.txPsn, lsn := 0, index := 0, first := false, last := false, total := 0, bytes := p.data, chdr := p.header &&& 0xFFFFFF7F }
    if o.kind = .chute ∧ o.stage = .open_ ∧ o.resetSent = 0 ∧ p.data.length = 64 * n then sendOut s k [d] else s
  | none => s

/-- PACKET_COMMIT (R230): at a core endpoint; the hub's own endpoint of the row is the send endpoint of a first leg, since
a packet at a hub receive endpoint arrives as DATA (log entry 33). -/
def commitAt (s : State) (ep : EndpointId) (p : Packet) : State :=
  match ep with
  | .core _ _ => packetCommit s ep p
  | .hub i => legSend s i.val p

def execPacketCommit (ep : EndpointId) (packet : Packet) (s : State) : Host.Outcome State Fault Refusal :=
  .next (commitAt s ep packet)

end Sys2Proof.Machine
end

