-- ==== Sys2Proof/Machine/Journal.lean ====
section
/-! DEFINITION. The journal and its mirror (R343 to R356): completion of journal writes, the MIRROR session, restore and
replay; and the sessions that this module opens (R286, R287). -/

namespace Sys2Proof.Machine

/-! ## JOURNAL_WRITE_DONE and MIRROR_ACK -/

/-- Whether every live copy holds a write (R345, R346). -/
def copiesHold (s : State) (ok0 ok8 : Bool) : Bool :=
  (ok0 || !s.jnl.copy0) && (ok8 || !s.jnl.copy8) && (s.jnl.copy0 || s.jnl.copy8)

/-- A journal write that a copy does not hold (R345): it is not acted on. A lot is not accepted, nor are those behind it; a
response and a commit step are written again. -/
def failedWrite (s : State) (w : PendingWrite) : State :=
  match w.use with
  | .lot i lsn =>
    let x := getSession s i
    let kept := x.lots.takeWhile fun l => l.lsn != lsn
    let gone := x.lots.dropWhile fun l => l.lsn != lsn
    let s := setSession s i { x with lots := kept }
    let ring := s.jnl.lotRing.map fun r =>
      if r.session == i && r.piece.isNone && r.dead == 0 && !r.accepted && gone.any (·.lsn == r.lsn) then
        { r with retired := true } else r
    { s with jnl := { s.jnl with lotRing := reclaimLots ring } }
  | .response i lsn index =>
    match s.jnl.respLog.find? fun r => sameCmd r.ctx i lsn index && !r.left with
    | some r => startWrite s w.use .response (recordKey i lsn index) (leBytes 4 0 ++ leBytes 4 r.psn.toNat ++ r.bytes)
    | none => s
  | .piece job node task k => pieceFailed s job node task k

/-- JOURNAL_WRITE_DONE (R345): both copies hold a write, or it has failed. -/
def journalWriteDone (s : State) (id : Nat) (ok0 ok8 : Bool) : State :=
  match s.jnl.pendingWrites.find? (·.id == id) with
  | none => s
  | some w =>
    if copiesHold s ok0 ok8 then
      let writes := s.jnl.pendingWrites.map fun x => if x.id = id then { x with local_ := true } else x
      actWrites { s with jnl := { s.jnl with pendingWrites := writes } }
    else
      let writes := s.jnl.pendingWrites.filter (·.id != id)
      failedWrite { s with jnl := { s.jnl with pendingWrites := writes } } w

def execJournalWriteDone (id : Nat) (ok0 ok8 : Bool) (s : State) : Host.Outcome State Fault Refusal :=
  .next (journalWriteDone s id ok0 ok8)

/-- MIRROR_ACK (R354): the twin's acknowledgement with an LSN. -/
def mirrorAckCmd (s : State) (lsn : Word) : State :=
  if mirrored s then mirrorAcked s lsn else s

def execMirrorAck (lsn : Word) (s : State) : Host.Outcome State Fault Refusal :=
  .next (mirrorAckCmd s lsn)

/-! ## The twin's side -/

/-- The index of the MIRROR session that this module receives. -/
def mirrorSession (s : State) : Option Nat :=
  (s.port.sessions.find? fun e => e.2.kind == .mirror).map (·.1)

/-- The store of the twin's writes with one more record (R354): a retirement frees the record it names and stays as the
mark of a command done, until its lot retires. Table-log entries stay. -/
def storeMirror (l : List MirrorRecord) (r : MirrorRecord) : List MirrorRecord :=
  if r.kind = .retire then
    if r.key % 2 ^ 64 = 2 ^ 63 ∧ r.key < 2 ^ 256 then
      l.filter fun x => !(x.key / 2 ^ 64 == r.key / 2 ^ 64 && x.kind != .table)
    else (l.filter fun x => !(x.key == r.key && x.kind != .table)) ++ [r]
  else l ++ [r]

/-- MIRROR_RECORD (R354): the oldest lot of the MIRROR session stored in both copies of the mirror store and
acknowledged; nothing of it is executed. -/
def mirrorRecordCmd (s : State) (r : MirrorRecord) : State :=
  match mirrorSession s with
  | none => s
  | some i =>
    let x := getSession s i
    match x.lots with
    | l :: rest =>
      if l.lsn = r.lsn then
        let s := setSession s i { x with lots := rest, accLsn := r.lsn, accPsn := l.psnAfter }
        sendAck { s with jnl := { s.jnl with mirrorStore := storeMirror s.jnl.mirrorStore r } } i
      else s
    | [] => s

def execMirrorRecord (r : MirrorRecord) (s : State) : Host.Outcome State Fault Refusal :=
  .next (mirrorRecordCmd s r)

/-! ## Sessions that this module opens -/

/-- The frame of a management request to a sending session's peer (R305). -/
def outMgmt (s : State) (o : OutSession) (op : Nat) (body : List Byte) : TxFrame :=
  let side := if o.kind = .mirror then 1 - s.pwr.config.side else s.pwr.config.side
  { cls := .management, dstMac := s.pwr.config.nextHopMac, dstIp := moduleIp s o.peer side,
    dstPort := s.pwr.config.mgmtPort, pcp := s.pwr.config.pcpMgmt, dry := s.clk.now, body := .mgmt op 0 0 0 body }

/-- The body of an unsigned OPEN (R286, R287). -/
def openBody (s : State) (o : OutSession) (nonce : BitVec 128) : List Byte :=
  let kind : Nat := if o.kind = .mirror then 3 else 2
  let digest := if o.kind = .mirror then List.replicate 64 0
    else sliceBytes (Config.sha512 (getGraphSlot s o.graph).raw) 0 64
  beBytes 1 kind ++ beBytes 1 0 ++ beBytes 2 s.pwr.config.iltPort ++ beBytes 4 0 ++ beBytes 16 nonce.toNat ++ digest ++
  beBytes 4 (if o.kind = .mirror then 0 else o.edge) ++ beBytes 4 0

/-- HELLO_RESPONSE (R286, R287): the nonce is taken up and OPEN is sent. -/
def helloResponse (s : State) (k : Nat) (nonce : BitVec 128) : State :=
  match s.port.outs[k]? with
  | some o =>
    if o.stage = .hello then
      pushTx (updOut s k fun o => { o with stage := .opening, nonce := nonce }) (outMgmt s o 2 (openBody s o nonce))
    else s
  | none => s

def execHelloResponse (out : Nat) (nonce : BitVec 128) (s : State) : Host.Outcome State Fault Refusal :=
  .next (helloResponse s out nonce)

/-- Every mirror record not acknowledged sent again, in LSN order (R355). -/
def resendMirror (s : State) : State :=
  s.jnl.unmirrored.foldl sendMirror s

/-- OPEN_RESPONSE (R287): index, TOKEN and grants, or the status of a failure. The two initial grants of a MIRROR session
count like any session's (R289, log entry 34). With the MIRROR open, a lost mirror is up again (R355). -/
def openResponse (s : State) (k : Nat) (a : OpenAnswer) : State :=
  match s.port.outs[k]? with
  | some o =>
    if o.stage = .opening then
      if a.status = 0 then
        let s := updOut s k fun o => { o with
          stage := .open_, status := 0, session := a.session.val, token := a.token, grants := 2, started := 0, room := 0,
          txPsn := 0, waiting := [], unacked := [], resetSent := 0, resetSeen := false }
        if o.kind = .mirror then
          let m := if s.jnl.mirror = .restoring then .restoring else .up
          releaseGrants (resendMirror { s with jnl := { s.jnl with mirror := m } })
        else s
      else updOut s k fun o => { o with stage := .failed, status := a.status }
    else s
  | none => s

def execOpenResponse (out : Nat) (answer : OpenAnswer) (s : State) : Host.Outcome State Fault Refusal :=
  .next (openResponse s out answer)

/-- The MIRROR session opened again from its HELLO (R355, R356). -/
def reopenMirror (s : State) : State :=
  match s.port.outs.findIdx? fun o => o.kind == .mirror with
  | some k =>
    let side := 1 - s.pwr.config.side
    pushTx (updOut s k fun o => { o with stage := .hello, waiting := [], unacked := [] }) (helloFrame s (moduleNum s) side)
  | none => openOut s .mirror 0 0 (moduleNum s) (1 - s.pwr.config.side)

/-- MIRROR_REOPEN (R355). -/
def mirrorReopen (s : State) : State :=
  if s.jnl.mirror = .lost then reopenMirror s else s

def execMirrorReopen (s : State) : Host.Outcome State Fault Refusal :=
  .next (mirrorReopen s)

/-- RESTORE_RETRY (R356). -/
def restoreRetry (s : State) : State :=
  if s.jnl.mirror = .restoring then reopenMirror s else s

def execRestoreRetry (s : State) : Host.Outcome State Fault Refusal :=
  .next (restoreRetry s)

/-! ## Restore -/

/-- The session, LSN and index of a record's key. -/
def keyParts (key : Nat) : Nat × Word × Nat :=
  (key / 2 ^ 96, BitVec.ofNat 32 (key / 2 ^ 64), key % 2 ^ 64)

/-- A table-log entry applied (R348, R356). -/
def restoreEntry (s : State) (e : List Byte) : State :=
  let b := e.drop 1
  match leAt e 0 1 with
  | 0x01 =>
    let a : Allocation := { base := leAt b 0 8, size := leAt b 8 8 }
    { s with dep := { s.dep with allocs := a :: s.dep.allocs } }
  | 0x02 =>
    match s.dep.allocs.find? fun a => a.base == leAt b 0 8 with
    | some a =>
      if allocationPinned s a then pendFree s a.base else dropAllocation s a
    | none => s
  | 0x03 => setDescSlot s (leAt b 0 4) { gen := leAt b 4 4, live := some (parseDesc (b.drop 8)) }
  | 0x04 =>
    let i := leAt b 0 4
    if descHeld s i then setDescSlot s i { getDescSlot s i with destroyPending := true } else dropDesc s i
  | 0x07 => setGraphSlot s (leAt b 0 4) { gen := leAt b 4 4, live := some (parseImage (b.drop 8)).1, raw := b.drop 8 }
  | 0x08 => setGraphSlot s (leAt b 0 4) { gen := (getGraphSlot s (leAt b 0 4)).gen }
  | 0x10 =>
    let x : Session :=
      { kind := .lot, token := BitVec.ofNat 32 (leAt b 2 4), peerMac := leAt b 6 6, peerIp := leAt b 12 16,
        peerPort := leAt b 28 2, respWindow := leAt b 30 4, grants := 2 }
    setEp (setSession s (leAt b 0 2) x) (.hub (Fin.ofNat 2048 (leAt b 0 2))) (freshEndpoint 1000 0x3FF)
  | 0x11 => setSession s (leAt b 0 2) {}
  | _ => s

/-- A response of the log restored, with its PSNs (R356). -/
def restoreResponse (s : State) (key : Nat) (psn : Word) (bytes : List Byte) : State :=
  let k := keyParts key
  let ctx : CmdCtx := ⟨Fin.ofNat 2048 k.1, k.2.1, k.2.2, BitVec.ofNat 32 (leAt bytes 4 4), 0⟩
  let x := getSession s k.1
  let s := setSession s k.1 { x with txPsn := psn + BitVec.ofNat 32 (packetsOf bytes.length) }
  { s with jnl := { s.jnl with
    respLog := s.jnl.respLog ++ [{ ctx := ctx, bytes := bytes, psn := psn, written := true }]
    lotRing := lotCommandDone s.jnl.lotRing k.1 k.2.1 k.2.2 } }

/-- A lot's record restored as ACCEPTED (R344, R356). -/
def restoreLot (s : State) (b : List Byte) : State :=
  let i := leAt b 4 2
  let lsn : Word := BitVec.ofNat 32 (leAt b 8 4)
  let psn : Word := BitVec.ofNat 32 (leAt b 12 4)
  let t := leAt b 24 8
  let bytes := b.drop 64
  let r : LotRecord :=
    { session := i, lsn := lsn, psnAfter := psn, tAccept := t, granules := granulesOf b.length,
      commands := (lotCommands (Fin.ofNat 2048 i) lsn t bytes).length, done := [], bytes := bytes, accepted := true }
  let s := setSession s i { getSession s i with accLsn := lsn, accPsn := psn, expPsn := psn }
  { s with jnl := { s.jnl with lotRing := s.jnl.lotRing ++ [r] } }

/-- A commit's journal write restored (R349): the job of its RUN keeps its number. -/
def restoreCommit (s : State) (b : List Byte) : State :=
  let ctx : CmdCtx := ⟨Fin.ofNat 2048 (leAt b 0 2), BitVec.ofNat 32 (leAt b 2 4), leAt b 6 8, 0, 0⟩
  let job := leAt b 14 8
  let node := leAt b 22 4
  let task := leAt b 26 4
  let k := leAt b 30 4
  let piece := b.drop 35
  let s := if (getJob s job).isSome then s
    else { s with dep := { s.dep with
      jobs := s.dep.jobs ++ [{ key := job, ctx := ctx, jobId := 0, graph := 0, gen := 0, record := 0 }]
      nextJob := max s.dep.nextJob (job + 1) } }
  let buf := bufferOf s job node task (leAt b 34 1)
  if k % 2 = 1 then retirePiece (putScatter s { buf with done := k / 2 + 1 }) (job, node, task, k / 2)
  else if piece = [] then putScatter s { buf with committed := true }
  else
    let r : LotRecord :=
      { session := 0, lsn := 0, psnAfter := 0, tAccept := 0, granules := granulesOf piece.length, commands := 0, done := [],
        bytes := piece, piece := some (job, node, task, k / 2) }
    let s := putScatter s { buf with recorded := k / 2 + 1 }
    { s with jnl := { s.jnl with lotRing := s.jnl.lotRing ++ [r] } }

/-- One record of the twin's store taken in (R356). -/
def restoreRecord (s : State) (r : MirrorRecord) : State :=
  let s := { s with jnl := { s.jnl with mirrorLsn := r.lsn } }
  match r.kind with
  | .lot => restoreLot s r.bytes
  | .response | .table =>
    let n := leAt r.bytes 0 4
    let entry := (r.bytes.drop 4).take n
    let rest := r.bytes.drop (4 + n)
    let s := if entry = [] then s else restoreEntry (logTable s n) entry
    if rest.length ≤ 4 then s else restoreResponse s r.key (BitVec.ofNat 32 (leAt rest 0 4)) (rest.drop 4)
  | .commit => restoreCommit s r.bytes
  | .retire =>
    let k := keyParts r.key
    let leave (x : Response) : Response := if sameCmd x.ctx k.1 k.2.1 k.2.2 then { x with left := true } else x
    { s with jnl := { s.jnl with
      respLog := reclaimResps (s.jnl.respLog.map leave)
      lotRing := lotCommandDone s.jnl.lotRing k.1 k.2.1 k.2.2 } }

/-- JOURNAL_RESTORE (R356): the twin's store written into both copies, the tables rebuilt, and every granule of every host
allocation void. -/
def journalRestore (s : State) (records : List MirrorRecord) : State :=
  if s.jnl.mirror = .restoring then
    let s := records.foldl restoreRecord s
    let s := { s with jnl := { s.jnl with lotRing := reclaimLots s.jnl.lotRing, mirror := .up } }
    voidGranules s (allocatedGranules s fun _ => true)
  else s

def execJournalRestore (records : List MirrorRecord) (s : State) : Host.Outcome State Fault Refusal :=
  .next (journalRestore s records)

/-! ## Replay -/

/-- The pieces recorded and not marked done copied again (R349, R353). -/
def redoPieces (s : State) : State :=
  s.jnl.lotRing.foldl (fun s r =>
    match r.piece with
    | some (job, node, task, p) =>
      if r.retired then s
      else
        let buf := (findScatter s job node task).getD (bufferOf s job node task fmtFp32)
        let s := count (copyPiece s buf (parsePiece r.bytes)) depBase Ctr.DEP_REDO_CNT 1
        commitWrite s job node task (2 * p + 1) buf.format []
    | none => s) s

/-- Every loaded graph placed again, its chutes and CHUTE sessions anew (R353). -/
def replaceGraphs (s : State) : State :=
  s.dep.graphs.foldl (fun s e =>
    match e.2.live with
    | some g => placeGraph (setGraphSlot s e.1 { getGraphSlot s e.1 with chutes := [], unloading := false }) e.1 g
    | none => s) s

/-- The commands of an accepted record that are not done and have no response in the log, in order (R353). -/
def undone (s : State) (r : LotRecord) : List LotCommand :=
  if r.accepted && r.piece.isNone && !r.retired then
    ((lotCommands (Fin.ofNat 2048 r.session) r.lsn r.tAccept r.bytes).filter fun c =>
      !r.done.contains c.ctx.index && !(s.jnl.respLog.any fun x =>
        sameCmd x.ctx r.session r.lsn (c.ctx.index + 2 ^ 32 * r.dead) && x.written)).map fun c =>
      { c with ctx := { c.ctx with index := c.ctx.index + 2 ^ 32 * r.dead } }
  else []

/-- The commands of a record put to execute again, counted (R353). -/
def replayRecord (s : State) (r : LotRecord) : State :=
  let cs := undone s r
  let s := count s depBase Ctr.DEP_REPLAY_CNT cs.length
  if r.dead = 0 then
    let x := getSession s r.session
    setSession s r.session { x with backlog := x.backlog ++ cs }
  else if cs = [] then s
  else { s with port := { s.port with orphans := s.port.orphans ++ [cs] } }

/-- The jobs that the reset cut short wait for their RUN to execute again; the others are gone (R353). -/
def restartJobs (s : State) : State :=
  let runs := s.jnl.lotRing.flatMap (undone s)
  let mine (j : Job) : Bool := runs.any fun c => sameCmd j.ctx c.ctx.session.val c.ctx.lsn c.ctx.index
  let wait (j : Job) : Job :=
    { key := j.key, ctx := j.ctx, jobId := j.jobId, graph := j.graph, gen := j.gen, record := j.record,
      state := .held, holdCause := 4 }
  { s with dep := { s.dep with jobs := (s.dep.jobs.filter mine).map wait } }

/-- The first NAK of R301 for a LOT session, and its responses from the oldest in the log on (R353). -/
def resyncSession (s : State) (i : Nat) : State :=
  let x := getSession s i
  if x.kind = .lot then
    let first := s.jnl.respLog.find? fun r => r.ctx.session.val == i && deadNum r.ctx.index == 0 && !r.left
    let send := (first.map (·.psn)).getD x.txPsn
    sendNakNow (setSession s i { x with
      expPsn := x.accPsn, sendPsn := send, unacked := [], resync := true, resyncs := 1 }) i 4
  else s

/-- JOURNAL_REPLAY (R353): at step 10 of a warm start, or of a cold start that has restored its journal. -/
def journalReplay (s : State) : State :=
  if s.pwr.phase = .step 10 ∧ s.dep.replayed = false ∧ s.jnl.mirror ≠ .restoring then
    let s := replaceGraphs (redoPieces s)
    let s := restartJobs s
    let s := s.jnl.lotRing.foldl replayRecord s
    let s := (s.port.sessions.map (·.1)).foldl resyncSession s
    let s := { s with dep := { s.dep with replayed := true } }
    let s := if s.pwr.warm then raise s depBase Flag.dep_WARM_RESET else s
    drainAll s
  else s

def execJournalReplay (s : State) : Host.Outcome State Fault Refusal :=
  .next (journalReplay s)

end Sys2Proof.Machine
end

