-- ==== Sys2Proof/Machine/Image.lean ====
section
/-! DEFINITION. The NOR images (R367 to R371): the ROM's checks, the configuration fields, and the owner block (R374). -/

namespace Sys2Proof.Machine

/-! ## The devices -/

/-- The contents of device A or B. -/
def norOf (s : State) (b : Bool) : List Host.Cell :=
  if b then s.pwr.norB else s.pwr.norA

/-- A device's contents put in place. -/
def setNor (s : State) (b : Bool) (m : List Host.Cell) : State :=
  if b then { s with pwr := { s.pwr with norB := m } } else { s with pwr := { s.pwr with norA := m } }

/-- Offsets of the NOR device layout (R368). -/
def offFactory : Nat := 0x1000000
def offUser : Nat := 0x1010000
def offOwner : Nat := 0x3F00000

/-- Size of a section of a device (R368). -/
def sectionBytes : Nat := 65536

/-- The image header of a device (R368). -/
def headerOf (m : List Host.Cell) : List Byte :=
  norBytes m 0 8192

/-! ## Configuration fields -/

/-- The entries of a list: field ID and value (R371). The list of a user section has its length; that of a factory section
ends at its first erased ID (0xFFFF). Answers none where an entry runs behind the list. -/
def parseFields : Nat → List Byte → Option (List (Nat × List Byte))
  | 0, _ => some []
  | fuel + 1, b =>
    if b = [] ∨ leAt b 0 2 = 0xFFFF then some []
    else
      let n := leAt b 2 2
      if b.length < 4 + n then none
      else (parseFields fuel (b.drop (4 + n))).map ((leAt b 0 2, (b.drop 4).take n) :: ·)

/-- Whether a configuration field is factory only (R371). -/
def factoryOnly (id : Nat) : Bool :=
  id == 0x0100 || id == 0x0101

/-- Whether an ID is one of the configuration fields. -/
def fieldKnown (id : Nat) : Bool :=
  (1 ≤ id && id ≤ 0x15) || factoryOnly id

/-- Bytes of a configuration field; TAP_UNLOCK has a multiple of 8 up to 4,096. -/
def fieldLengthOk (id n : Nat) : Bool :=
  match id with
  | 0x0100 => n ≤ 4096 && n % 8 == 0
  | 0x0101 => n == 288
  | 0x0003 | 0x0007 | 0x0008 | 0x000C | 0x0011 | 0x0013 | 0x0014 => n == 2
  | 0x0004 => n == 3
  | 0x0006 | 0x000F | 0x0010 => n == 4
  | 0x000B => n == 12
  | 0x000D => n == 6
  | 0x000E => n == 18
  | _ => n == 1

/-- Whether a field's value lies in its range (R371). -/
def fieldRangeOk (id : Nat) (b : List Byte) : Bool :=
  let v := leNat b
  match id with
  | 0x0001 => 1 ≤ v && v ≤ 6
  | 0x0003 => v ≤ 4094
  | 0x0004 => leAt b 0 1 ≤ 7 && leAt b 1 1 ≤ 7 && leAt b 2 1 ≤ 7
  | 0x0006 => 1024 ≤ leAt b 0 2 && 1024 ≤ leAt b 2 2 && leAt b 0 2 != leAt b 2 2
  | 0x0007 => 10 ≤ v && v ≤ 10000
  | 0x0008 => v % 16 == 0
  | 0x0002 | 0x0005 | 0x0009 | 0x000A | 0x0015 => v ≤ 1
  | 0x000C => v < 0x8000
  | 0x000E => leAt b 16 2 == 0 || 1024 ≤ leAt b 16 2
  | 0x000F => 1 ≤ v && v ≤ 86400
  | 0x0010 => 60 ≤ v && v ≤ 86400
  | 0x0011 => leAt b 0 1 ≤ 8 && leAt b 1 1 ≤ 1
  | 0x0012 => 1 ≤ v
  | 0x0013 => v ≤ 4095
  | 0x0014 => 1 ≤ v
  | _ => true

/-- Little-endian numbers of `n` bytes each. -/
def leNumbers (n : Nat) (b : List Byte) : List Nat :=
  (List.range (b.length / n)).map fun i => leAt b (n * i) n

/-- A field's value taken into the configuration. -/
def applyField (c : ImageConfig) (f : Nat × List Byte) : ImageConfig :=
  let b := f.2
  let v := leNat b
  match f.1 with
  | 0x0001 => { c with portMode := v }
  | 0x0002 => { c with bringupOk := v == 1 }
  | 0x0003 => { c with vlanId := v }
  | 0x0004 => { c with pcpData := leAt b 0 1, pcpCtrl := leAt b 1 1, pcpMgmt := leAt b 2 1 }
  | 0x0005 => { c with family := v }
  | 0x0006 => { c with iltPort := leAt b 0 2, mgmtPort := leAt b 2 2 }
  | 0x0007 => { c with iltRto := v }
  | 0x0008 => { c with fieldBase := v }
  | 0x0009 => { c with side := v }
  | 0x000A => { c with twin := v == 1 }
  | 0x000B => { c with ipv6Prefix := v }
  | 0x000C => { c with ipv4Base := v }
  | 0x000D => { c with nextHopMac := v }
  | 0x000E => { c with announceAddr := leAt b 0 16, announcePort := leAt b 16 2 }
  | 0x000F => { c with tallyWindow := v }
  | 0x0010 => { c with arrayTestInterval := v }
  | 0x0011 => { c with aditThreshold := leAt b 0 1, aditAdapt := leAt b 1 1 == 1 }
  | 0x0012 => { c with switchWait := v }
  | 0x0013 => { c with preemptGap := v }
  | 0x0014 => { c with slack := v }
  | 0x0015 => { c with tapAllow := v == 1 }
  | 0x0100 => { c with tapUnlock := leNumbers 8 b }
  | 0x0101 => { c with calFactory := leNumbers 2 b }
  | _ => c

/-- Whether the fields of a section are all known, of their lengths and in their ranges. -/
def fieldsOk (l : List (Nat × List Byte)) : Bool :=
  l.all fun f => fieldKnown f.1 && fieldLengthOk f.1 f.2.length && fieldRangeOk f.1 f.2

/-- The fields of a device's factory section. -/
def factoryFields (m : List Host.Cell) : Option (List (Nat × List Byte)) :=
  parseFields sectionBytes (norBytes m offFactory sectionBytes)

/-! ## The ROM's checks -/

/-- STAGE1 and STAGE2 lengths, key set, SEC_VERSION, RAISE_FLOOR and firmware version of a header (R368). -/
def hdrStage1 (h : List Byte) : Nat := leAt h 0x0C 4
def hdrStage2 (h : List Byte) : Nat := leAt h 0x10 4
def hdrKeySet (h : List Byte) : Bool := bitAt (leAt h 0x07 1) 1
def hdrRaise (h : List Byte) : Bool := bitAt (leAt h 0x07 1) 0
def hdrSec (h : List Byte) : Nat := leAt h 0x06 1
def hdrVersion (h : List Byte) : Nat := leAt h 0x08 4

/-- Check 2 of R370: the magic, the header's CRC32C and the lengths. -/
def imageHeaderOk (h : List Byte) : Bool :=
  leAt h 0 4 == 0x36314D49 && leAt h 0x1FFC 4 == (crc32c (h.take 0x1FFC)).toNat &&
  hdrStage1 h ≤ 0x100000 && hdrStage2 h ≤ 0xE00000

/-- The first of checks 1 to 8 of R370 that a device's image fails, 0 for none. -/
def checkImage (s : State) (m : List Host.Cell) (v : ImageVerdict) : Nat :=
  let h := headerOf m
  if !v.sfdp then 1
  else if !imageHeaderOk h then 2
  else if (!hdrKeySet h && s.pwr.keySet0Revoked) || !v.keyDigest then 3
  else if !v.sig.ed then 4
  else if !v.sig.mldsa then 5
  else if hdrSec h < s.pwr.secFloor then 6
  else if !v.stage1 then 7
  else
    match factoryFields m with
    | some l => if v.factory && fieldsOk l then 0 else 8
    | none => 8

/-- Checks 1 to 9 of R370. -/
def checkAll (s : State) (m : List Host.Cell) (v : ImageVerdict) : Nat :=
  let c := checkImage s m v
  if c = 0 ∧ v.stage2 = false then 9 else c

/-! ## Owner -/

/-- The owner slot last burned, with its number (R374). -/
def lastSlot (s : State) : Option (Nat × OwnerSlot) :=
  s.pwr.ownerSlots.getLast?.map fun x => (s.pwr.ownerSlots.length - 1, x)

/-- Whether the module is enrolled (R374). -/
def enrolled (s : State) : Bool :=
  match lastSlot s with
  | some x => !x.2.released
  | none => false

/-- The digest that an owner slot holds of a pair of public keys (R374). -/
def keysDigest (keys : List Byte) : List Byte :=
  (Config.sha512 keys).take 32

/-- Bytes of the two public keys: Ed25519, then ML-DSA-65 (R374). -/
def keyBytes : Nat := 1984

/-- The keys in an owner block. -/
def blockKeys (b : List Byte) : List Byte :=
  sliceBytes b 8 keyBytes

/-- An owner block of a slot's keys (R374); what its layout does not name is erased. -/
def ownerBlock (slot : Nat) (keys : List Byte) : List Byte :=
  let head := leBytes 4 0x524E574F ++ leBytes 4 slot ++ sliceBytes keys 0 keyBytes
  head ++ List.replicate (0xFFFC - head.length) 0xFF ++ leBytes 4 (crc32c head).toNat

/-- The owner block of a device, where it is valid and its keys match the last slot (R374). -/
def validOwner (s : State) (b : Bool) : Option (List Byte) :=
  let x := norBytes (norOf s b) offOwner sectionBytes
  match lastSlot s with
  | some (n, slot) =>
    if leAt x 0 4 = 0x524E574F ∧ leAt x 0xFFFC 4 = (crc32c (x.take 0x7C8)).toNat ∧ leAt x 4 4 = n ∧
        keysDigest (blockKeys x) = slot.digest then some x else none
  | none => none

/-- The owner block in use. -/
def ownerBlockOf (s : State) : Option (List Byte) :=
  match validOwner s false with
  | some b => some b
  | none => validOwner s true

/-- The owner block written into both devices. -/
def writeOwner (s : State) (b : List Byte) : State :=
  let s := setNor s false (norStore (norOf s false) offOwner b)
  setNor s true (norStore (norOf s true) offOwner b)

/-- The check of the owner block at a start (R374): an enrolled module without a valid block is OWNER_LOST; a valid block is
rewritten into the device whose copy differs. -/
def checkOwner (s : State) : State :=
  if enrolled s then
    match ownerBlockOf s with
    | some b => { writeOwner s b with pwr := { (writeOwner s b).pwr with ownerLost := false } }
    | none => { s with pwr := { s.pwr with ownerLost := true } }
  else { s with pwr := { s.pwr with ownerLost := false } }

/-! ## The user section -/

/-- What the deputy makes of a user section (R371): absent, rejected with a code, or its fields. -/
inductive UserSection where
  | absent
  | rejected (code : Nat)
  | fields (l : List (Nat × List Byte))
deriving DecidableEq, Repr

/-- The first of codes 3 to 6 for the fields of a user section over a configuration, else the fields. -/
def judgeFields (c : ImageConfig) (l : List (Nat × List Byte)) : UserSection :=
  if l.any fun f => !fieldKnown f.1 || factoryOnly f.1 then .rejected 3
  else if l.any fun f => !fieldLengthOk f.1 f.2.length then .rejected 4
  else if l.any fun f => !fieldRangeOk f.1 f.2 then .rejected 5
  else
    let c := l.foldl applyField c
    if c.side = 1 ∧ c.twin = false then .rejected 6 else .fields l

/-- The user section of a device (R371), over the factory configuration; where several codes apply it takes the first. -/
def userSection (s : State) (m : List Host.Cell) (c : ImageConfig) (sig : SigVerdict) : UserSection :=
  let b := norBytes m offUser sectionBytes
  let n := leAt b 4 4
  if leAt b 0 4 = 0xFFFFFFFF then .absent
  else if enrolled s && !(sig.ed && sig.mldsa) then .rejected 1
  else if leAt b 0xFFFC 4 ≠ (crc32c (b.take 0xFFFC)).toNat ∨ leAt b 0 4 ≠ 0x52535549 then .rejected 2
  else if 0xE000 < 8 + n then .rejected 4
  else
    match parseFields sectionBytes ((b.drop 8).take n) with
    | none => .rejected 4
    | some l => judgeFields c l

/-! ## Applying the configuration -/

/-- The factory configuration of an image: the values of the table, and over them those of its factory section. -/
def factoryConfig (m : List Host.Cell) : ImageConfig :=
  ((factoryFields m).getD []).foldl applyField {}

/-- The test access port's decision (R377), given whether the user section sets TAP_ALLOW. -/
def tapDecision (s : State) (c : ImageConfig) (allow : Bool) : Bool :=
  c.tapUnlock.contains s.pwr.serial && (!enrolled s || allow)

/-- A user section's status bits (R371, R387). -/
def noteUser (s : State) (applied : Bool) (code : Nat) : State :=
  { s with pwr := { s.pwr with userApplied := applied, userRejected := code != 0, userReason := code } }

/-- The configuration applied (R371), with the straps read (R284) and the port decided on (R377). In rescue every field has
the value of the table (R372). -/
def applyConfig (s : State) (sig : SigVerdict) : State :=
  let s := { s with pwr := { s.pwr with strapsRead := s.pwr.straps % 16, idRead := true } }
  if s.pwr.rescue then
    let s := noteUser s false 0
    { s with pwr := { s.pwr with config := {}, tapOpen := false } }
  else
    let m := norOf s s.pwr.slotB
    let c := factoryConfig m
    match userSection s m c sig with
    | .absent =>
      let s := noteUser s false 0
      { s with pwr := { s.pwr with config := c, tapOpen := tapDecision s c false } }
    | .rejected code =>
      let s := noteUser s false code
      { s with pwr := { s.pwr with config := c, tapOpen := tapDecision s c false } }
    | .fields l =>
      let c := l.foldl applyField c
      let s := noteUser s true 0
      { s with pwr := { s.pwr with config := c, tapOpen := tapDecision s c (c.tapAllow && l.any fun f => f.1 == 0x15) } }

/-! ## Status -/

/-- IMG_STATUS (R387). -/
def imgStatus (s : State) : Word :=
  let p := s.pwr
  BitVec.ofNat 32 (bitOf p.slotB + 2 * bitOf p.rescue + 4 * bitOf p.aFailed + 8 * (p.aReason % 16) +
    128 * bitOf p.userApplied + 256 * bitOf p.userRejected + 512 * (p.userReason % 8) + 4096 * bitOf (enrolled s) +
    8192 * bitOf p.ownerLost + 16384 * bitOf p.tapOpen)

end Sys2Proof.Machine
end

