-- ==== Sys2Proof/Machine/Reset.lean ====
section
/-! DEFINITION. Removal of power (R359) and the warm reset (R352), with the domains' start (R317) and the replicas of the
local counter (R322). -/

namespace Sys2Proof.Machine

/-! ## Domains -/

/-- Every clock domain but DCLK (R309). -/
def allDomains : List DomainId :=
  ((List.finRange 16).flatMap fun m => [.seam m .aclk, .seam m .kclk, .seam m .fclk, .seam m .mclk]) ++ [.pclk, .hubFclk]

/-- The number of a domain's replica of the local counter (R322): FCLK of seam n, 16 + KCLK of seam n, the hub's FCLK and
PCLK. -/
def replicaKey : DomainId → Option Nat
  | .seam m .fclk => some m.val
  | .seam m .kclk => some (16 + m.val)
  | .seam _ _ => none
  | .hubFclk => some 32
  | .pclk => some 33

/-- The domain of a replica. -/
def replicaDomain (k : Nat) : DomainId :=
  if k < 16 then .seam (Fin.ofNat 16 k) .fclk
  else if k < 32 then .seam (Fin.ofNat 16 k) .kclk
  else if k = 32 then .hubFclk else .pclk

/-- A domain's replica loaded from the counter as it leaves reset (R322). -/
def loadReplica (s : State) (d : DomainId) : State :=
  match replicaKey d with
  | some k =>
    { s with clk := { s.clk with replicas := tset s.clk.replicas {} k { value := s.clk.now, held := false } } }
  | none => s

/-- A domain whose clock runs released from reset, its live bit set last (R314, R317). -/
def releaseDomain (s : State) (d : DomainId) : State :=
  let x := getDom s d
  if x.running && x.inReset then
    loadReplica (setDom s d { x with inReset := false, live := true }) d
  else s

/-- A domain started: clock, lock, reset, live bit (R317). -/
def startDomain (s : State) (d : DomainId) : State :=
  let x := getDom s d
  if x.running then releaseDomain s d
  else releaseDomain (setDom s d { running := true, locked := true, inReset := true, live := false }) d

/-! ## Removal of power -/

/-- The module without power (R359): what stays is in the NOR devices, the fuses and the key store, or lies outside it.
DRAM and the local counter are lost. -/
def powerOff (s : State) : State :=
  let p := s.pwr
  let kept : Power :=
    { resetN := p.resetN, refOk := p.refOk, refAlert := p.refAlert, tripLatch := p.tripLatch, mated := p.mated,
      straps := p.straps, mac := p.mac, serial := p.serial, norA := p.norA, norB := p.norB, secFloor := p.secFloor,
      keySet0Revoked := p.keySet0Revoked, ownerSlots := p.ownerSlots }
  { pending := s.pending, freeCount := s.freeCount, pwr := kept }

/-! ## Warm reset -/

/-- START_KIND of a warm reset (R387); for the one that ends a release (R376) none is stated, and it is the
implementation's choice (log entry 3). -/
def startKindOf (s : State) : WarmCause → Nat × State
  | .pin => (1, s)
  | .depCtrl => (2, s)
  | .lockstep => (3, s)
  | .dclk => (3, s)
  | .release => let r := drawChoice s; (r.1 % 4, r.2)

/-- Registers of the DCLK domain keep their values through a warm reset; all others take their reset values (R407). -/
def keepDclkRegs (s : State) : State :=
  { s with regs := s.regs.filter fun e =>
      match locate e.1 with
      | some l => l.dom.isNone
      | none => true }

/-- The journal through a warm reset (R345, R352): journal writes that have not completed are gone, and with them the lots not
yet accepted; responses formed keep their PSNs. A copy that was lost is made again from the other; with both lost, the
journal is empty (R350). -/
def warmJournal (j : Journal) : Journal :=
  let alive := j.copy0 || j.copy8
  let ring := reclaimLots (j.lotRing.map fun r => if r.accepted || r.piece.isSome then r else { r with retired := true })
  { j with
    copy0 := true
    copy8 := true
    lotRing := if alive then ring else []
    respLog := if alive then j.respLog else []
    pendingWrites := [] }

/-- A session through a warm reset (R301, R352): LOT and MIRROR sessions keep what the journal and the deputy area hold of
them; the others are gone. -/
def warmSession (x : Session) : Session :=
  if x.kind = .lot ∨ x.kind = .mirror then
    { x with
      expPsn := x.accPsn, nakAt := none, nakReason := 0, rxLsn := 0, rxLen := 0, rxBytes := [], rxOpen := false,
      rxBad := false, lots := [], backlog := [], unacked := [], resyncs := 0, resync := false }
  else {}

/-- The port through a warm reset: the link goes down, and what waits in it is lost. -/
def warmPort (p : Port) : Port :=
  { sessions := (p.sessions.map fun e => (e.1, warmSession e.2)).filter fun e => e.2 != {}
    outs := p.outs.filter fun o => o.kind == .mirror }

/-- The receive endpoints of the sessions kept, empty (R301). -/
def warmEndpoints (p : Port) : Table Endpoint :=
  p.sessions.map fun e => (epKey (.hub (Fin.ofNat 2048 e.1)), freshEndpoint 1000 0x3FF)

/-- Void granules through a warm reset (R352): they stay void, and a rehomed one loses its contents with its backing. -/
def warmVoids (l : List VoidGranule) : List VoidGranule :=
  (l.filter fun v => v.void || v.home.isSome).map fun v => { v with void := true, home := none }

/-- The deputy's tables through a warm reset (R352): allocations, descriptors, graphs, jobs and losses are kept; chutes, the
fences, the re-run lists and what the stages' records held are not. -/
def warmDeputy (d : Deputy) : Deputy :=
  { allocs := d.allocs, descs := d.descs, jobs := d.jobs, nextJob := d.nextJob, voids := warmVoids d.voids,
    losses := d.losses, graphs := d.graphs.map fun g => (g.1, { g.2 with chutes := [] }) }

/-- Power and identity through a warm reset: the rails stay up, the deputy restarts from ROM at step 2, and a command that
was running is cut short (R373, R378). -/
def warmPower (p : Power) (kind : Nat) : Power :=
  { p with
    phase := .step 2, warm := true, startKind := kind, warmCount := p.warmCount + 1, rescue := false, aFailed := false,
    aReason := 0, imgOp := none, ownerOp := none, att := none }

/-- Each reset of a domain counts (R315). -/
def countResets (s : State) : State :=
  (allDomains.filter fun d => !(getDom s d).inReset).foldl (fun s d => countReset s d 0) s

/-- The accumulation buffers through a warm reset: what the journal holds of a commit stays (R349). -/
def warmScatters (l : List ScatterBuffer) : List ScatterBuffer :=
  l.map fun b => if b.committed then b else { b with entries := [], image := [] }

/-- A warm reset (R352): every domain but DCLK is reset, DRAM is held in self-refresh, and the start runs from step 2. -/
def warmReset (s : State) (cause : WarmCause) : State :=
  let r := startKindOf s cause
  let s := keepDclkRegs (countResets r.2)
  let s := raiseIf (s.dep.voids.any fun v => !v.void && v.home.isSome) s depBase Flag.dep_VOID
  let clk := { s.clk with replicas := [], doms := [], dclkDead := false, pclkTries := 0, fclkTries := 0 }
  let port := warmPort s.port
  { pending := s.pending, freeCount := s.freeCount, mem := s.mem.filter fun c => c.1 < Config.coreBase, regs := s.regs,
    clk := clk, pwr := warmPower s.pwr r.1, dep := warmDeputy s.dep, jnl := warmJournal s.jnl, port := port,
    scatters := warmScatters s.scatters, chutes := warmEndpoints port }

/-- Whether a start or the service can be reset warm: power is on and step 1 is over (R366, R378). -/
def canReset (s : State) : Bool :=
  match s.pwr.phase with
  | .off => false
  | .step n => decide (2 ≤ n) && !s.clk.dclkDead
  | .running => true

/-- A warm reset where there can be one. -/
def warmIf (s : State) (cause : WarmCause) : State :=
  if canReset s then warmReset s cause else s

/-! ## Pins -/

/-- alert_n is asserted (R318, R366, R386). -/
def alertAsserted (s : State) : Bool :=
  s.pwr.rescue || s.pwr.ownerLost || s.dep.out || rawReg s (imgBase + 0x68) != 0 || s.pwr.refAlert || s.clk.dclkDead

end Sys2Proof.Machine
end

