-- ==== Sys2Proof/Machine/ClockCmds.lean ====
section
/-! DEFINITION. The commands of clocks, PLLs and domains (R314 to R322). -/

namespace Sys2Proof.Machine

/-! ## Stopping, starting, resetting -/

/-- Whether the word that a held management access waits for lies in a domain (R320, R401). -/
def heldIn (d : DomainId) (h : HeldAccess) : Bool :=
  match locate (beAt h.req.body 0 4 + 4 * h.at_) with
  | some l => l.dom == some d
  | none => false

/-- A management access in progress on a domain that goes into reset is abandoned and answered so (R314, R315). -/
def abandonIn (s : State) (d : DomainId) : State :=
  match s.port.held with
  | some h => if heldIn d h then settleQueue (abandonHeld s h) else s
  | none => s

/-- DOMAIN_STOP (R317): live bit, 1 µs, reset, clock. -/
def execDomainStop (d : DomainId) (dropped : Nat) (s : State) : Host.Outcome State Fault Refusal :=
  .next (if (getDom s d).running then abandonIn (domainHalt s d dropped) d else s)

/-- Whether a domain may be started: the rails are up, and no fence keeps its clock stopped until the next start (R316). In
rescue only PCLK and the hub's FCLK start (R372). -/
def mayStart (s : State) : DomainId → Bool
  | .seam m .mclk => s.pwr.railsUp && !s.pwr.rescue && !s.dep.fences.drams.contains m.val
  | .seam m _ => s.pwr.railsUp && !s.pwr.rescue && !s.dep.fences.seams.contains m.val
  | _ => s.pwr.railsUp

/-- DOMAIN_START (R317): clock, lock, reset, live bit. -/
def domainStart (s : State) (d : DomainId) : State :=
  if mayStart s d then startDomain s d else s

def execDomainStart (d : DomainId) (s : State) : Host.Outcome State Fault Refusal :=
  .next (domainStart s d)

/-- DOMAIN_RESET_ASSERT (R314, R315): the neighbours flush their crossings, `dropped` entries in all. -/
def domainResetAssert (s : State) (d : DomainId) (dropped : Nat) : State :=
  if (getDom s d).inReset then s else abandonIn (domainReset s d dropped) d

def execDomainResetAssert (d : DomainId) (dropped : Nat) (s : State) : Host.Outcome State Fault Refusal :=
  .next (domainResetAssert s d dropped)

/-- DOMAIN_RESET_RELEASE (R314, R317, R322). -/
def execDomainResetRelease (d : DomainId) (s : State) : Host.Outcome State Fault Refusal :=
  .next (releaseDomain s d)

/-! ## PLLs -/

/-- A PLL that loses lock stops its clock at once, and its domain is reset (R317). -/
def pllLost (s : State) (d : DomainId) (dropped : Nat) : State :=
  abandonIn (domainHalt s d dropped) d

/-- PLL_UNLOCK (R317, R334): the seam is fenced; without MCLK its DRAM cannot be reached either, and the DRAM is fenced with
it. -/
def pllUnlock (s : State) (m : Fin 16) (d : SeamDomain) (dropped : Nat) : State :=
  if (getDom s (.seam m d)).locked then
    let s := pllLost s (.seam m d) dropped
    let s := raise s (seamClkBase m.val) (Flag.seamClk_UNLOCK.1, seamDomBit d)
    endRecovery (reportFault s (if d = .mclk then .dramController m else .seamPll m))
  else s

def execPllUnlock (seam : Fin 16) (domain : SeamDomain) (dropped : Nat) (s : State) :
    Host.Outcome State Fault Refusal :=
  .next (pllUnlock s seam domain dropped)

/-- The hub domain of a command: FCLK or PCLK. -/
def hubDomain (fclk : Bool) : DomainId :=
  if fclk then .hubFclk else .pclk

/-- The restarts made of a hub PLL since it lost lock (R318). -/
def hubTries (s : State) (fclk : Bool) : Nat :=
  if fclk then s.clk.fclkTries else s.clk.pclkTries

/-- The restarts made of a hub PLL put in place. -/
def setTries (s : State) (fclk : Bool) (n : Nat) : State :=
  if fclk then { s with clk := { s.clk with fclkTries := n } } else { s with clk := { s.clk with pclkTries := n } }

/-- HUB_PLL_UNLOCK (R318): the domain stops and is reset; the fault is of class CONTAINED at the module level. -/
def hubPllUnlock (s : State) (fclk : Bool) (dropped : Nat) : State :=
  let d := hubDomain fclk
  if (getDom s d).locked then
    let s := pllLost s d dropped
    let s := raise (setTries s fclk 0) hubClkBase Flag.hubClk_UNLOCK
    logFault s 1 6 0 0 0
  else s

def execHubPllUnlock (fclk : Bool) (dropped : Nat) (s : State) : Host.Outcome State Fault Refusal :=
  .next (hubPllUnlock s fclk dropped)

/-- HUB_PLL_RESTART (R318): one of up to three attempts. With lock the domain is released and every LOT session is
resynchronised; the third failure is of class MODULE. -/
def hubPllRestart (s : State) (fclk locks : Bool) : State :=
  let d := hubDomain fclk
  if (getDom s d).running || !s.pwr.railsUp || decide (3 ≤ hubTries s fclk) then s
  else if locks then
    let s := startDomain (setTries s fclk 0) d
    (s.port.sessions.map (·.1)).foldl resyncSession s
  else
    let n := hubTries s fclk + 1
    let s := setTries s fclk n
    if n = 3 then reportFault s .hubPll else s

def execHubPllRestart (fclk locks : Bool) (s : State) : Host.Outcome State Fault Refusal :=
  .next (hubPllRestart s fclk locks)

/-! ## DCLK -/

/-- DCLK_UNLOCK (R318): the local counter holds, and the clock supervisor starts a warm reset. A start that has not yet
locked DCLK has none to lose. -/
def dclkUnlock (s : State) : State :=
  if s.clk.dclkLocked then warmIf { s with clk := { s.clk with dclkLocked := false } } .dclk else s

def execDclkUnlock (s : State) : Host.Outcome State Fault Refusal :=
  .next (dclkUnlock s)

/-- DCLK_LOCK_TIMEOUT (R318): not locked within 10 ms, DCLK keeps the module in reset until power is cycled. -/
def dclkTimeout (s : State) : State :=
  if !s.clk.dclkLocked && s.pwr.warm && decide (s.pwr.phase = .step 2) then
    { s with clk := { s.clk with dclkDead := true } }
  else s

def execDclkLockTimeout (s : State) : Host.Outcome State Fault Refusal :=
  .next (dclkTimeout s)

/-! ## Replicas -/

/-- The distance of two times. -/
def timeGap (a b : Time) : Nat :=
  (a - b) + (b - a)

/-- REPLICA_COMPARE (R322): a replica more than 8 ns from the counter is reloaded; where that would move it backward, it is
held at its value until the counter passes it. -/
def replicaCompare (s : State) (k : Nat) (reading : Time) : State :=
  if s.clk.dclkLocked && isLiveDom s (replicaDomain k) then
    let put (s : State) (r : Replica) : State := { s with clk := { s.clk with replicas := tset s.clk.replicas {} k r } }
    if timeGap reading s.clk.now ≤ 8 then put s { value := reading, held := false }
    else
      let r : Replica := if reading ≤ s.clk.now then { value := s.clk.now } else { value := reading, held := true }
      raise (put s r) hubClkBase Flag.hubClk_TIME_SLIP
  else s

def execReplicaCompare (replica : Fin 34) (reading : Time) (s : State) : Host.Outcome State Fault Refusal :=
  .next (replicaCompare s replica.val reading)

end Sys2Proof.Machine
end

