-- ==== Sys2Proof/Machine/Dram.lean ====
section
/-! DEFINITION. The DRAM controllers (R202 to R211) and the links (R224). -/

namespace Sys2Proof.Machine

/-! ## Banks and rows -/

/-- Bank and row of an offset of a seam's DRAM: a granule lies in one row of one bank (R203, log entry 134). -/
def rowOf (off : Nat) : Nat × Nat :=
  let p := Config.dramPlace (off / 4096)
  (p.1 % 32, p.2)

/-- Whether a request hits an open row (R211). -/
def hitsRow (x : ChanState) (r : ChanRequest) : Bool :=
  tget x.openRows none (rowOf r.offset).1 == some (rowOf r.offset).2

/-! ## The class split -/

/-- The share of a class in a window of 160 slots (R210). -/
def classShare : DramClass → Nat
  | .read => 88
  | .write => 48
  | .remote => 24

/-- Slots that a class has had in the window. -/
def classUsed (x : ChanState) : DramClass → Nat
  | .read => x.rd
  | .write => x.wr
  | .remote => x.rm

/-- A window with one more slot, of a class or idle; a full window ends (R210). -/
def useSlot (x : ChanState) (c : Option DramClass) : ChanState :=
  let y := match c with
    | some .read => { x with rd := x.rd + 1 }
    | some .write => { x with wr := x.wr + 1 }
    | some .remote => { x with rm := x.rm + 1 }
    | none => { x with idle := x.idle + 1 }
  if 160 ≤ y.rd + y.wr + y.rm + y.idle then { y with rd := 0, wr := 0, rm := 0, idle := 0 } else y

/-- Whether two requests touch the same 64 B word (R211). -/
def sharesWord (a b : ChanRequest) : Bool :=
  overlap (a.offset / 64 * 64) (a.offset % 64 + a.bytes) (b.offset / 64 * 64) (b.offset % 64 + b.bytes)

/-- The places of the requests that may be served now: none that arrived earlier touches a word of theirs (R211). -/
def servable (x : ChanState) : List (Nat × ChanRequest) :=
  (List.range x.queue.length).filterMap fun i =>
    match x.queue[i]? with
    | some r => if (x.queue.take i).any (sharesWord r) then none else some (i, r)
    | none => none

/-- The servable requests of a class. A scrub read ranks lowest in READ (R205). -/
def classQueue (x : ChanState) (c : DramClass) : List (Nat × ChanRequest) :=
  let l := (servable x).filter fun r => r.2.cls == c
  let real := l.filter fun r => r.2.origin != .scrub
  if real = [] then l else real

/-- Whether a class has less of its share than another (R210). -/
def lessServed (x : ChanState) (a b : DramClass) : Bool :=
  decide (classUsed x a * classShare b < classUsed x b * classShare a)

/-- The class that has the least of its share among some. -/
def leastServed (x : ChanState) : List DramClass → Option DramClass
  | [] => none
  | c :: rest =>
    match leastServed x rest with
    | none => some c
    | some d => if lessServed x d c then some d else some c

/-- The class that a slot goes to (R210): one of the waiting classes with slots of its share left in the window, in an order
that limits turnarounds and that the controller chooses; where none has, the waiting one that has least of its share. -/
def grantClass (s : State) (x : ChanState) : Option DramClass × State :=
  let waiting := [DramClass.read, .write, .remote].filter fun c => classQueue x c != []
  let due := waiting.filter fun c => classUsed x c < classShare c
  if due = [] then (leastServed x waiting, s) else chooseOf s due

/-- The earlier of two requests by dry time; of equal ones the first. -/
def earlierOf (best : Option (Nat × ChanRequest)) (r : Nat × ChanRequest) : Option (Nat × ChanRequest) :=
  match best with
  | none => some r
  | some b => if r.2.dry < b.2.dry then some r else some b

/-- The request of a class that is served (R211): among those whose dry times lie within 1 µs of the earliest, one that hits
an open row is preferred; then the earliest dry time, then the earliest arrival. -/
def pickRequest (x : ChanState) (c : DramClass) : Option (Nat × ChanRequest) :=
  let l := classQueue x c
  match l.foldl earlierOf none with
  | none => none
  | some first =>
    let hits := l.filter fun r => decide (r.2.dry ≤ first.2.dry + 1000) && hitsRow x r.2
    if hits = [] then some first else hits.foldl earlierOf none

/-! ## Check words -/

/-- The slot counter of a class (R210, R222). -/
def classCtr : DramClass → Nat
  | .read => Ctr.DRAM_RD_SLOT_CNT
  | .write => Ctr.DRAM_WR_SLOT_CNT
  | .remote => Ctr.DRAM_RM_SLOT_CNT

/-- The 64 B words that a request reads (R204, R207): all of a read's, the partial ones of a write. -/
def wordsRead (r : ChanRequest) : List Nat :=
  let all := (List.range ((r.offset + r.bytes + 63) / 64 - r.offset / 64)).map (r.offset / 64 + ·)
  match r.write with
  | none => all
  | some _ => if r.rmw = 0 then [] else all.filter fun w => w == r.offset / 64 || w == (r.offset + r.bytes) / 64

/-- The errors of the words that a request reads, by word and bad symbols. -/
def errorsIn (r : ChanRequest) (errors : List (Nat × Nat)) : List (Nat × Nat) :=
  errors.filter fun e => (wordsRead r).contains e.1 && e.2 != 0

/-- What the check bytes of a word that is read show (R204): up to 3 bad symbols are corrected, and the word waits for a free
slot to be written back; more are uncorrectable and reported. -/
def checkWord (c : ChanId) (s : State) (e : Nat × Nat) : State :=
  let b := dramRegBase c.seam.val
  if e.2 ≤ 3 then
    let x := getChan s c
    let s := setChan s c { x with fixes := x.fixes ++ [e.1] }
    count (raise (count s b Ctr.DRAM_CE_CNT 1) b Flag.dram_CE) depBase Ctr.DEP_CORRECTED_CNT 1
  else reportFault (raise (count s b Ctr.DRAM_UE_CNT 1) b Flag.dram_UE) (.dramUe c (64 * e.1))

/-! ## A request served -/

/-- The module address of the bytes of a request: the granule that its granule of DRAM holds (R341). -/
def requestAddr (s : State) (c : ChanId) (r : ChanRequest) : Addr :=
  let a := seamDram c.seam.val + r.offset
  4096 * granuleHeld s (granOf a) + a % 4096

/-- The number of the write that a hoist command is (R341). -/
def hoistWriteNum (s : State) (q : QueueId) (id : Nat) : Nat :=
  let cmd := (((getQueue s q).issued.find? (·.id == id)).map (·.cmd)).getD id
  2 * (2 ^ 64 * queueKey q + cmd)

/-- The words of a run's source that a request delivered poisoned, numbered in the address space. -/
def badWords (a off : Nat) (bad : List (Nat × Nat)) : List Nat :=
  bad.map fun e => a / 64 + e.1 - off / 64

/-- An adit unit's read that delivered a poisoned word: the task of its open group is aborted (R204, R338). -/
def poisonGroup (s : State) (u : AditId) : State :=
  match (getAdit s u).op with
  | some o =>
    match groupCtx s u o.counter o.group with
    | some c => if o.isOpen then abortGroup s u o.counter o.group c else s
    | none => s
  | none => s

/-- A request whose last slot has been served: a read is delivered to who made it, a write is in DRAM. -/
def finishRequest (s : State) (c : ChanId) (r : ChanRequest) (bad : List (Nat × Nat)) : State :=
  let a := requestAddr s c r
  match r.origin, r.write with
  | .hoist q id _, some bs => writePart s (hoistWriteNum s q id) a bs
  | .hoist q id i, none => deliverRead s q id i (loadBytes s.mem a r.bytes) (badWords a r.offset bad)
  | .adit u, _ => if bad = [] then s else poisonGroup s u
  | .ring _, _ => s
  | .scrub, _ => s

/-- One slot of a request (R206, R207, R210): its row is open, and the slot counts for its class; the activation slots and
partial words count with the first. With the last, the check bytes are looked at and the request is done. -/
def serveSlot (s : State) (c : ChanId) (errors : List (Nat × Nat)) (i : Nat) (r : ChanRequest) : State :=
  let b := dramRegBase c.seam.val
  let x := getChan s c
  let more := decide (1 < r.left)
  let queue := if more then x.queue.modify i fun r => { r with left := r.left - 1, fresh := false } else x.queue.eraseIdx i
  let row := rowOf r.offset
  let x := useSlot { x with queue := queue, openRows := tset x.openRows none row.1 (some row.2) } (some r.cls)
  let s := count (setChan s c x) b (classCtr r.cls) 1
  let s := if r.fresh then count (count s b Ctr.DRAM_ACT_SLOT_CNT r.act) b Ctr.DRAM_RMW_CNT r.rmw else s
  if more then s
  else
    let errs := errorsIn r errors
    let bad := errs.filter fun e => decide (3 < e.2)
    errs.foldl (checkWord c) (finishRequest s c r bad)

/-- An idle slot (R204, R210): a corrected word may be written back in it. -/
def idleSlotOf (s : State) (c : ChanId) : State :=
  let x := getChan s c
  count (setChan s c (useSlot { x with fixes := x.fixes.drop 1 } none)) (dramRegBase c.seam.val) Ctr.DRAM_IDLE_SLOT_CNT 1

/-- DRAM_SLOT (R204 to R211): one slot of a channel; `errors` are the words found bad when a request's last slot is served, by
their number in the seam's window, with how many of their symbols are bad. -/
def dramGrant (s : State) (c : ChanId) (errors : List (Nat × Nat)) : State :=
  if !chanLive s c then s
  else
    let x := getChan s c
    let g := grantClass s x
    match g.1.bind (pickRequest x) with
    | some p => serveSlot g.2 c errors p.1 p.2
    | none => idleSlotOf s c

def execDramSlot (chan : ChanId) (errors : List (Nat × Nat)) (s : State) : Host.Outcome State Fault Refusal :=
  .next (dramGrant s chan errors)

/-! ## Scrub and refresh -/

/-- The offset of word `i` of a channel: its granules in ascending order of address (R203). -/
def scrubOffset (c : ChanId) (i : Nat) : Nat :=
  let block := i / 64 % 0x30000
  let high := block * 32 * 4096
  let low := (List.range 32).find? fun k => chanOf (high + k * 4096) == c.chan.val
  high + low.getD 0 * 4096 + 64 * (i % 64)

/-- SCRUB (R205): the channel's next word asked for as a READ request of the lowest rank. -/
def scrubWord (s : State) (c : ChanId) : State :=
  if !chanLive s c then s
  else
    let x := getChan s c
    let r := mkRequest .read (s.clk.now + slackNs s) .scrub (seamDram c.seam.val + scrubOffset c x.scrubbed) 64 0 64 none
    setChan s c { x with queue := x.queue ++ [r], scrubbed := (x.scrubbed + 1) % 0xC00000 }

def execScrub (chan : ChanId) (s : State) : Host.Outcome State Fault Refusal :=
  .next (scrubWord s chan)

/-- REFRESH (R205): the channel's next bank refreshed, which closes its row; a channel has 32 banks (R202). -/
def refreshBank (s : State) (c : ChanId) : State :=
  if !chanLive s c then s
  else
    let x := getChan s c
    setChan s c { x with refreshes := (x.refreshes + 1) % 32, openRows := tset x.openRows none x.refreshes none }

def execRefresh (chan : ChanId) (s : State) : Host.Outcome State Fault Refusal :=
  .next (refreshBank s chan)

/-! ## Links -/

/-- Whether a link is up (R243). -/
def linkUp (s : State) (seam : Fin 16) (d : LinkDir) : Bool :=
  linkPresent seam.val d && (tget s.links {} (5 * seam.val + linkNum d)).up

/-- The end of a link that a word of `seam` in direction `d` reaches: the neighbour's; the hub has no registers for its
end, and a word on a hub link counts at the seam's (R243). -/
def farEnd (seam : Fin 16) (d : LinkDir) : Fin 16 × LinkDir :=
  match neighbour seam.val d with
  | some (t, e) => (Fin.ofNat 16 t, e)
  | none => (seam, d)

/-- The class that a link grants its slot to (R224): the next one that waits, in round-robin order (log entry 144). -/
def nextClass (last : LinkClass) (waiting : List LinkClass) : Option LinkClass :=
  let order : List LinkClass := match last with
    | .hoist => [.chute, .tram, .hoist]
    | .chute => [.tram, .hoist, .chute]
    | .tram => [.hoist, .chute, .tram]
  order.find? waiting.contains

/-- A link's slot granted to a class: one FCLK cycle with an outbound word (R224, R243). -/
def grantLink (s : State) (seam : Fin 16) (d : LinkDir) (c : LinkClass) : State :=
  let k := 5 * seam.val + linkNum d
  let s := { s with links := tset s.links {} k { tget s.links {} k with last := c } }
  count s (linkRegBase seam d) Ctr.LINK_BUSY_CNT 1

/-- LINK_WORD (R224): of the classes that wait at the link of a seam in a direction, the next one's word crosses; its check
bits are looked at where it arrives. -/
def crossLink (s : State) (seam : Fin 16) (d : LinkDir) (waiting : List LinkClass) (ecc : EccFinding) : State :=
  let c := nextClass (tget s.links {} (5 * seam.val + linkNum d)).last waiting
  if !linkUp s seam d || c.isNone then s
  else
    let s := grantLink s seam d (c.getD .hoist)
    let f := farEnd seam d
    let b := linkRegBase f.1 f.2
    match ecc with
    | .clean => s
    | .corrected => count (count s b Ctr.LINK_CE_CNT 1) depBase Ctr.DEP_CORRECTED_CNT 1
    | .uncorrectable => count s b Ctr.LINK_UE_CNT 1

def execLinkWord (seam : Fin 16) (dir : LinkDir) (waiting : List LinkClass) (ecc : EccFinding) (s : State) :
    Host.Outcome State Fault Refusal :=
  .next (crossLink s seam dir waiting ecc)

end Sys2Proof.Machine
end

