-- ==== Sys2Proof/Machine/FaultCmds.lean ====
section
/-! DEFINITION. Reports to the deputy (R333), held jobs (R340), stalled cores (R334) and periodic array tests (R127). -/

namespace Sys2Proof.Machine

/-- FAULT_EVENT (R333, R334). Without power the deputy hears nothing. -/
def faultEvent (s : State) (r : FaultReport) : State :=
  if s.pwr.phase = .off then s else reportFault s r

def execFaultEvent (r : FaultReport) (s : State) : Host.Outcome State Fault Refusal :=
  .next (faultEvent s r)

/-- Whether a job's tasks read no void granule (R340). -/
def readsValid (s : State) (j : Job) : Bool :=
  s.dep.voids.all fun v => !v.void || readers s j v.gran == []

/-- HELD_JOB_RESUME (R340): a job held for void granules resumes when every granule that its tasks read is valid again. A job
held at the abort limit, or for want of a place, waits for the host (R336, R339), and one that a reset cut short for its
RUN (R353). -/
def heldJobResume (s : State) (key : Nat) : State :=
  match getJob s key with
  | some j =>
    if j.state = .held ∧ j.holdCause = 1 ∧ readsValid s j = true then
      updJob s key fun j => { j with state := .running, holdCause := 0 }
    else s
  | none => s

def execHeldJobResume (job : Nat) (s : State) : Host.Outcome State Fault Refusal :=
  .next (heldJobResume s job)

/-- Whether the running task of a core has a ready command that is not issued (R159, R160, R334). -/
def stalled (s : State) (c : CoreId) : Bool :=
  (slotsOfCore c).any fun t =>
    let x := getSlot s t
    decide (x.state = .running) && hasReady x

/-- CORE_STALL_TIMEOUT (R334): 100 µs without the issue of a ready command fence the core. -/
def coreStallTimeout (s : State) (c : CoreId) : State :=
  if stalled s c then fenceCore s c else s

def execCoreStallTimeout (core : CoreId) (s : State) : Host.Outcome State Fault Refusal :=
  .next (coreStallTimeout s core)

/-- Whether a periodic test of an array may begin (R127): in service, the array unfenced and idle, no open vat tile bound
to it, and no other array of its core under test. -/
def canTest (s : State) (a : ArrayId) : Bool :=
  let x := getArray s a
  decide (s.pwr.phase = .running) && !arrayFenced s a && coreUp s a.core && isLiveDom s (.seam a.core.seam .aclk) &&
  x.charge.isNone && x.flights == [] && x.out == [] && (slotsOnArray s a).isEmpty &&
  !((arraysOfCore a.core).any fun b => (getArray s b).testing)

/-- ARRAY_TEST_PERIODIC (R127): the array is unscheduled while it is tested, and its weight registers hold test tiles
afterwards: neither is a tile of a task. -/
def arrayTestPeriodic (s : State) (a : ArrayId) : State :=
  if canTest s a then setArray s a { getArray s a with testing := true, active := none, shadow := none } else s

def execArrayTestPeriodic (array : ArrayId) (s : State) : Host.Outcome State Fault Refusal :=
  .next (arrayTestPeriodic s array)

/-- ARRAY_TEST_DONE (R127, R132): counted; a failing cell fences the array. -/
def arrayTestDone (s : State) (a : ArrayId) (failing : Bool) : State :=
  let x := getArray s a
  if x.testing then
    let b := arrRegBase a
    let s := count (setArray s a { x with testing := false }) b Ctr.ARR_TEST_CNT 1
    if failing then reportFault (raise s b Flag.arr_TEST_FAIL) (.arrayTest a) else s
  else s

def execArrayTestDone (array : ArrayId) (failing : Bool) (s : State) : Host.Outcome State Fault Refusal :=
  .next (arrayTestDone s array failing)

end Sys2Proof.Machine
end

