-- ==== Sys2Proof/Machine/Start.lean ====
section
/-! DEFINITION. The start sequence (R378) and the events of power, pins and temperature (R359, R365, R366, R393, R395). -/

namespace Sys2Proof.Machine

/-! ## Power -/

/-- POWER_ON (R359, R378): the input reaches 42 V, the module being mated and its trip latch clear (R365, R393, R395). -/
def powerOn (s : State) : State :=
  if s.pwr.phase = .off ∧ s.pwr.tripLatch = false then
    setRawReg { s with pwr := { s.pwr with phase := .step 1, mated := true } } (imgBase + 0x60) 4200
  else s

def execPowerOn (s : State) : Host.Outcome State Fault Refusal :=
  .next (powerOn s)

/-- Whether the module has power. -/
def powered (s : State) : Bool :=
  decide (s.pwr.phase ≠ .off)

/-- INPUT_VOLTAGE_EVENT (R359): below 44 V or above 56 V the module runs on with a flag set; PWR_VIN is in units of 10 mV. -/
def inputVoltage (s : State) (cv : Nat) : State :=
  if powered s then
    let s := setRawField s (imgBase + 0x60) 15 0 cv
    let s := raiseIf (decide (cv < 4400)) s imgBase Flag.img_UNDERVOLT
    raiseIf (decide (5600 < cv)) s imgBase Flag.img_OVERVOLT
  else s

def execInputVoltageEvent (centivolts : Nat) (s : State) : Host.Outcome State Fault Refusal :=
  .next (inputVoltage s centivolts)

/-- The shutdown conditions of R359: voltage in units of 10 mV, current of 10 mA, and how long they have lasted in ns. -/
def shutdownDue (cv ca ns : Nat) : Bool :=
  (decide (cv < 4100) && decide (20000 ≤ ns)) || (decide (5800 < cv) && decide (1000 ≤ ns)) ||
  (decide (5500 < ca) && decide (100000 ≤ ns))

/-- SHUTDOWN (R359): every rail goes, as at power removal. -/
def shutdown (s : State) (cv ca ns : Nat) : State :=
  if powered s && shutdownDue cv ca ns then powerOff s else s

def execShutdown (centivolts centiamps ns : Nat) (s : State) : Host.Outcome State Fault Refusal :=
  .next (shutdown s centivolts centiamps ns)

/-- MATE_REMOVAL (R395): mate_n goes high, and the removal of the input that follows is power removal. -/
def mateRemoval (s : State) : State :=
  let t := powerOff s
  { t with pwr := { t.pwr with mated := false } }

def execMateRemoval (s : State) : Host.Outcome State Fault Refusal :=
  .next (mateRemoval s)

/-! ## Temperature -/

/-- A die past its trip limit (R365). -/
def tripDue (t : Temperatures) : Bool :=
  t.logic.any (110 < ·) || t.dram.any (100 < ·) || decide (110 < t.hub)

/-- A die past a warning limit (R365); a DRAM stack has two, 85 °C and 95 °C. -/
def warnDue (t : Temperatures) : Bool :=
  t.logic.any (95 < ·) || t.dram.any (85 < ·) || decide (95 < t.hub)

/-- A DRAM stack above 85 °C (R205, R222). -/
def noteHot (t : Temperatures) (s : State) (m : Nat) : State :=
  raiseIf (decide (85 < t.dram.getD m 0) && (getDom s (.seam (Fin.ofNat 16 m) .mclk)).live) s (dramRegBase m) Flag.dram_HOT

/-- TEMPERATURE_SAMPLE (R365, R383): temperatures, warnings, bands; a trip takes every rail and holds the latch. -/
def temperatureSample (s : State) (t : Temperatures) : State :=
  if !powered s then s
  else if tripDue t then powerOff { s with pwr := { s.pwr with tripLatch := true } }
  else
    let s := { s with pwr := { s.pwr with tempLogic := t.logic, tempDram := t.dram, tempHub := t.hub } }
    let s := raiseIf (warnDue t) s imgBase Flag.img_THERM_WARN
    let s := (List.range 16).foldl (noteHot t) s
    (List.range 16).foldl updateBand s

def execTemperatureSample (t : Temperatures) (s : State) : Host.Outcome State Fault Refusal :=
  .next (temperatureSample s t)

/-- TRIP_LATCH_CLEAR (R365, R393): the input has been below 20 V for 1 s, so the module is without power. -/
def tripLatchClear (s : State) : State :=
  if powered s then s else { s with pwr := { s.pwr with tripLatch := false } }

def execTripLatchClear (s : State) : Host.Outcome State Fault Refusal :=
  .next (tripLatchClear s)

/-! ## Reference and reset_n -/

/-- REF_CLOCK_LOST (R366): absent for 100 ms. -/
def execRefClockLost (s : State) : Host.Outcome State Fault Refusal :=
  .next { s with pwr := { s.pwr with refOk := false, refAlert := true } }

/-- REF_CLOCK_RESTORED (R366, R378). -/
def execRefClockRestored (s : State) : Host.Outcome State Fault Refusal :=
  .next { s with pwr := { s.pwr with refOk := true, refAlert := false } }

/-- RESET_N_ASSERT (R366, R393): low for 5 µs or more. After step 1 it starts a warm reset, in a warm start again. -/
def resetNAssert (s : State) (ns : Nat) : State :=
  if 5000 ≤ ns then warmIf { s with pwr := { s.pwr with resetN := true } } .pin else s

def execResetNAssert (ns : Nat) (s : State) : Host.Outcome State Fault Refusal :=
  .next (resetNAssert s ns)

/-- RESET_N_RELEASE (R393). -/
def execResetNRelease (s : State) : Host.Outcome State Fault Refusal :=
  .next { s with pwr := { s.pwr with resetN := false } }

/-- LOCKSTEP_MISMATCH (R332). -/
def execLockstepMismatch (s : State) : Host.Outcome State Fault Refusal :=
  .next (warmIf s .lockstep)

/-- WARM_RESET (R352). -/
def execWarmReset (cause : WarmCause) (s : State) : Host.Outcome State Fault Refusal :=
  .next (warmIf s cause)

/-! ## The start sequence -/

/-- The next step of the start. -/
def toStep (s : State) (n : Nat) : State :=
  { s with pwr := { s.pwr with phase := .step n } }

/-- Rescue (R370, R372): steps 4 and 5 with the values of the table. -/
def toRescue (s : State) : State :=
  toStep { s with pwr := { s.pwr with rescue := true } } 4

/-- Step 2 (R321, R378): DCLK locks, with the reference present and reset_n released. -/
def startStep2 (s : State) : State :=
  if s.pwr.refOk && !s.pwr.resetN && !s.clk.dclkDead then
    toStep { s with clk := { s.clk with dclkLocked := true } } 3
  else s

/-- Step 3 (R370): image A, then B. After a failure at check 9 the other image is tried. -/
def startStep3 (s : State) (f : StartFindings) : State :=
  let a := if s.pwr.aFailed then s.pwr.aReason else checkImage s s.pwr.norA f.imageA
  if a = 0 then toStep { s with pwr := { s.pwr with slotB := false } } 4
  else
    let s := { s with pwr := { s.pwr with aFailed := true, aReason := a } }
    if checkImage s s.pwr.norB f.imageB = 0 then toStep { s with pwr := { s.pwr with slotB := true } } 4
    else toRescue s

/-- The mirror of a module as its field stands (R354): a field that is no twin field has none. -/
def settleMirror (s : State) : State :=
  if !s.pwr.config.twin then { s with jnl := { s.jnl with mirror := .single, unmirrored := [] } }
  else if s.pwr.warm && decide (s.jnl.mirror = .single) then { s with jnl := { s.jnl with mirror := .lost } }
  else s

/-- Step 4 (R371, R374, R377): owner block, configuration, straps and test access port; an OWNER_LOST module starts in
rescue (R375). -/
def startStep4 (s : State) (f : StartFindings) : State :=
  let s := checkOwner s
  let s := if s.pwr.ownerLost then { s with pwr := { s.pwr with rescue := true } } else s
  toStep (settleMirror (applyConfig s f.userSig)) 5

/-- The seams' setpoints as their rails rise (R384). -/
def initCal (s : State) (m : Nat) : State :=
  setCal s m (setpoint s m { band := plainBand (seamTemp s m) })

/-- Step 5 (R317, R322, R366): rails, pwr_good, PLLs and replicas; in rescue only the hub's (R372). -/
def startStep5 (s : State) : State :=
  let s := { s with pwr := { s.pwr with railsUp := true, pwrGood := true } }
  if s.pwr.rescue then
    let s := (allDomains.filter fun d => d != .pclk && d != .hubFclk).foldl (fun s d => haltIf s d 0) s
    toStep (startDomain (startDomain s .pclk) .hubFclk) 9
  else
    let s := allDomains.foldl domainStart s
    toStep ((List.range 16).foldl initCal s) 6

/-- A list of numbers in rising order. -/
def sortNat (l : List Nat) : List Nat :=
  l.foldr (fun x r => r.takeWhile (· < x) ++ x :: r.dropWhile (· < x)) []

/-- The void granules rehomed at a start (R352), each with its new backing in the loss report. -/
def rehomeAll (s : State) : State :=
  let gs := (s.dep.voids.filter (·.void)).map (·.gran)
  let s := gs.foldl (fun s g =>
    let home := findHome s g
    { s with dep := { s.dep with
      voids := s.dep.voids.map fun v => if v.gran = g ∧ v.void = true then { v with home := home } else v } }) s
  let s := { s with dep := { s.dep with losses := s.dep.losses.filter fun e => e.2.resupplied } }
  (sortNat gs).foldl (fun s g =>
    if (allocationOf s (g * 4096)).isSome then
      reportLoss s g (s.dep.voids.any fun v => v.gran == g && v.home.isSome)
    else s) s

/-- A channel trained (R202, R205): its 8 spare bonds replace bonds that fail; with more than 8 it cannot be repaired and is
fenced. -/
def trainChannel (s : State) (t : ChanId × Nat) : State :=
  if 8 < t.2 then fenceChan s t.1 else setChan s t.1 { getChan s t.1 with spares := t.2 }

/-- Step 6 (R205, R334, R352): DRAM trained, channels that cannot be repaired fenced; on a cold start DRAM holds zeros, on a
warm one rehomed granules take new homes. -/
def startStep6 (s : State) (f : StartFindings) : State :=
  let s := if s.pwr.warm then s else { s with mem := [] }
  let s := f.trained.foldl trainChannel { s with chans := [] }
  toStep (endRecovery (if s.pwr.warm then rehomeAll s else s)) 7

/-- The links trained before step 8 (R243). -/
def trainLinks (s : State) : State :=
  let keys := (List.range 16).flatMap fun m => (linkDirs.filter (linkPresent m)).map fun d => 5 * m + linkNum d
  { s with links := keys.foldl (fun l k => tset l {} k { up := true }) s.links }

/-- Step 7 (R370): check 9; where it fails, the deputy starts again from ROM with the other image, or in rescue. -/
def startStep7 (s : State) (f : StartFindings) : State :=
  let v := if s.pwr.slotB then f.imageB else f.imageA
  if v.stage2 then toStep (trainLinks s) 8
  else if s.pwr.slotB then toRescue s
  else toStep { s with pwr := { s.pwr with aFailed := true, aReason := 9 } } 3

/-- What the start-up test decides of an array (R128): TEST_RESULT, the row to replace, a bad spare row and the failing
column. -/
structure TestDecision where
  result : Nat
  row : Option Nat := none
  spareBad : Bool := false
  col : Option Nat := none
deriving DecidableEq, Repr

/-- The start-up test decisions (R128). -/
def decideTest (f : ArrayFinding) : TestDecision :=
  let spare := f.cells.any fun c => c.1.val == 64
  let rows := ((f.cells.filter fun c => c.1.val != 64).map (·.1.val)).eraseDups
  let cols := (f.cells.map (·.2.val)).eraseDups
  match f.chain, rows, cols with
  | some c, _, _ => { result := 3, spareBad := spare, col := some c.val }
  | none, [], _ => { result := 0, spareBad := spare }
  | none, [r], _ =>
    if spare then { result := 2, spareBad := true }
    else if f.retestOk then { result := 1, row := some r }
    else { result := 2 }
  | none, _, [c] => { result := 3, spareBad := spare, col := some c }
  | none, _, _ => { result := 2, spareBad := spare }

/-- An array as its start-up test leaves it (R128 to R131): a repaired one has a latency of 135 cycles. -/
def applyTest (s : State) (f : ArrayFinding) : State :=
  let d := decideTest f
  let x : ArrayState :=
    { testResult := d.result, badRow := d.row, spareBad := d.spareBad, badCol := d.col,
      latency := if d.row.isSome then 135 else 134 }
  let s := setArray s f.array x
  if d.result < 2 then s
  else
    let s := { s with dep := { s.dep with fences := { s.dep.fences with
      arrays := arrayKey f.array :: s.dep.fences.arrays.filter (· != arrayKey f.array) } } }
    let s := raise s (coreRegBase f.array.core) Flag.core_ARRAY_LOST
    fenceDone s 1 0 f.array.core.seam.val f.array.core.core.val f.array.array.val

/-- A LIGHT entry of the starting band (R385). -/
def applyLight (s : State) (e : Fin 16 × Nat) : State :=
  let c := getCal s e.1.val
  setCal s e.1.val { c with light := tset c.light 0 c.band e.2 }

/-- Step 8 (R126, R128, R385): array tests and repair map, adit units, light calibration. The seams are then idle. -/
def startStep8 (s : State) (f : StartFindings) : State :=
  let s := f.arrays.foldl applyTest s
  let s := f.badAdits.foldl fenceAdit s
  let s := f.light.foldl applyLight s
  let s := (List.range 16).foldl (fun s m => setCal s m (setpoint s m { getCal s m with idle := true })) s
  toStep (endRecovery s) 9

/-- The restore given up (R356): the module starts with an empty journal. -/
def skipRestore (s : State) : State :=
  let up := s.port.outs.any fun o => o.kind == .mirror && o.stage == .open_
  raise { s with jnl := { s.jnl with mirror := if up then .up else .lost } } depBase Flag.dep_JNL_DISCARDED

/-- Step 9 (R278, R356): the port has linked. A cold start in a twin field then opens MIRROR to restore its journal. -/
def startStep9 (s : State) : State :=
  if s.port.linkUp && !s.pwr.rescue then
    let s := toStep s 10
    if s.pwr.config.twin && !s.pwr.warm then
      if s.dep.restoreSkip then skipRestore s
      else openOut { s with jnl := { s.jnl with mirror := .restoring } } .mirror 0 0 (moduleNum s) (1 - s.pwr.config.side)
    else s
  else s

/-- Step 10 (R353, R356): restored or skipped, and, after a warm reset or a restore, replayed. -/
def startStep10 (s : State) : State :=
  let fresh := !s.pwr.warm && (!s.pwr.config.twin || s.dep.restoreSkip)
  if decide (s.jnl.mirror ≠ .restoring) && (s.dep.replayed || fresh) then toStep s 11 else s

/-- The start report's word of a seam (R387), with the spare bonds that step 6 took. -/
def reportWord (s : State) (m : Nat) : Word :=
  let inSeam (k : Nat) : Bool := k / 128 == m
  let repaired := (s.arrays.filter fun e => inSeam e.1 && e.2.testResult == 1).length
  let fenced := (s.arrays.filter fun e => inSeam e.1 && decide (2 ≤ e.2.testResult)).length
  let adits := (s.dep.fences.adits.filter fun k => k / 4 == m).length
  let chans := (s.dep.fences.chans.filter fun k => k / 32 == m).length
  let bonds := ((s.chans.filter fun e => e.1 / 32 == m).map (·.2.spares)).sum
  BitVec.ofNat 32 (repaired + 256 * fenced + 65536 * (adits % 8) + 2 ^ 19 * (chans % 64) + 2 ^ 25 * min 127 bonds)

/-- The start report (R380, R387). -/
def startReport (s : State) : State :=
  let s := setRawReg s startBase (BitVec.ofNat 32 s.pwr.startKind)
  let s := setRawReg s (startBase + 4) (BitVec.ofNat 32 s.pwr.warmCount)
  let s := setRawReg s (startBase + 8) (BitVec.ofNat 32 s.clk.now)
  let s := setRawReg s (startBase + 12) (BitVec.ofNat 32 (s.clk.now / 2 ^ 32))
  (List.range 16).foldl (fun s m => setRawReg s (startBase + 16 + 4 * m) (reportWord s m)) s

/-- SEC_FLOOR raised after the service begins (R370). -/
def raiseFloor (s : State) : State :=
  let h := headerOf (norOf s s.pwr.slotB)
  if hdrRaise h && decide (s.pwr.secFloor < hdrSec h) then { s with pwr := { s.pwr with secFloor := hdrSec h } } else s

/-- Step 11 (R378, R380): service. -/
def startStep11 (s : State) : State :=
  let s := startReport s
  let s := { s with
    pwr := { s.pwr with phase := .running, tService := s.clk.now, announced := 0, announceStop := false }
    dep := { s.dep with service := true }
    port := { s.port with inService := true } }
  releaseGrants (raiseFloor s)

/-- START_STEP_DONE (R378): the step in progress completes where its conditions hold, and the next one begins. -/
def startStepDone (s : State) (f : StartFindings) : State :=
  match s.pwr.phase with
  | .step 1 => if s.pwr.resetN then s else toStep s 2
  | .step 2 => startStep2 s
  | .step 3 => startStep3 s f
  | .step 4 => startStep4 s f
  | .step 5 => startStep5 s
  | .step 6 => startStep6 s f
  | .step 7 => startStep7 s f
  | .step 8 => startStep8 s f
  | .step 9 => startStep9 s
  | .step 10 => startStep10 s
  | .step 11 => startStep11 s
  | _ => s

def execStartStepDone (f : StartFindings) (s : State) : Host.Outcome State Fault Refusal :=
  .next (startStepDone s f)

end Sys2Proof.Machine
end

