-- ==== Sys2Proof/Machine/OwnerCmds.lean ====
section
/-! DEFINITION. Programming of images (R373), owner enrolment and release (R375, R376) and attestation (R382). -/

namespace Sys2Proof.Machine

/-- DEP_STATUS.STATE (R358): START, SERVICE, RECOVERY or OUT. -/
def depState (s : State) : Nat :=
  if s.dep.out then 3 else if !s.dep.service then 0 else if s.dep.recovery then 2 else 1

/-- Whether the deputy's firmware runs: from step 3 of the start on. -/
def deputyRuns (s : State) : Bool :=
  s.clk.dclkLocked && match s.pwr.phase with
    | .off => false
    | .step n => decide (3 ≤ n)
    | .running => true

/-- The bytes of the staging window from an offset (R373, R409). -/
def stagingBytes (s : State) (off n : Nat) : List Byte :=
  sliceBytes (wordBytes ((List.range ((off % 4 + n + 3) / 4)).map fun i => rawReg s (stagingBase + off / 4 * 4 + 4 * i)))
    (off % 4) n

/-! ## Images -/

/-- A command of IMG_CTRL that fails (R373, R387). -/
def imgFail (s : State) (code reason : Nat) : State :=
  let s := setRawField s (imgBase + 0x10) 5 3 code
  raise (setRawField s (imgBase + 0x10) 9 6 reason) imgBase Flag.img_ERROR

/-- A PROGRAM or VERIFY begins (R373): nothing while one runs; the device that the module started from is refused except in
rescue, and so is a PROGRAM of the owner block. -/
def beginImg (s : State) (op : ImgOp) : State :=
  if s.pwr.imgOp.isSome || !deputyRuns s then s
  else if (op.targetB == s.pwr.slotB && !s.pwr.rescue) || (!op.verify && op.chunk == offOwner / sectionBytes) then
    imgFail s 1 0
  else { s with pwr := { s.pwr with imgOp := some op } }

/-- The command that a word of IMG_CTRL carries (R387). -/
def imgOpOf (v : Word) : Option ImgOp :=
  let n := v.toNat
  if bitField n 1 0 = 1 then some ⟨false, bitAt n 2, bitField n 13 4⟩
  else if bitField n 1 0 = 2 then some ⟨true, bitAt n 2, bitField n 13 4⟩
  else none

/-- A write of IMG_CTRL. -/
def writeImgCtrl (s : State) (v : Word) : State :=
  match imgOpOf v with
  | some op => beginImg s op
  | none => s

/-- PROGRAM (R373). -/
def execProgram (value : Word) (s : State) : Host.Outcome State Fault Refusal :=
  .next (if bitField value.toNat 1 0 = 1 then writeImgCtrl s value else s)

/-- VERIFY (R373). -/
def execVerify (value : Word) (s : State) : Host.Outcome State Fault Refusal :=
  .next (if bitField value.toNat 1 0 = 2 then writeImgCtrl s value else s)

/-- The bytes of a block whose erasure or programming failed, or whose read-back differs: any (log entry 3). -/
def openBlock (s : State) : List Byte × State :=
  ((List.range sectionBytes).map fun i => Config.raceByte (s.freeCount + i), { s with freeCount := s.freeCount + sectionBytes })

/-- IMG_PROG_DONE (R373): a PROGRAM has erased, programmed and read back its block, or failed with ERR_CODE 2 or 3; a VERIFY
has run checks 1 to 9. -/
def imgProgDone (s : State) (ok : Bool) (errCode : Nat) (v : ImageVerdict) : State :=
  match s.pwr.imgOp with
  | none => s
  | some op =>
    let s := { s with pwr := { s.pwr with imgOp := none } }
    if op.verify then
      let c := checkAll s (norOf s op.targetB) v
      if c = 0 then raise s imgBase Flag.img_DONE else imgFail s 4 c
    else
      let at_ := op.chunk * sectionBytes
      if ok then
        raise (setNor s op.targetB (norStore (norOf s op.targetB) at_ (stagingBytes s 0 sectionBytes))) imgBase Flag.img_DONE
      else
        let r := openBlock s
        imgFail (setNor r.2 op.targetB (norStore (norOf r.2 op.targetB) at_ r.1)) (if errCode = 3 then 3 else 2) 0

def execImgProgDone (ok : Bool) (errCode : Fin 8) (verdict : ImageVerdict) (s : State) :
    Host.Outcome State Fault Refusal :=
  .next (imgProgDone s ok errCode.val verdict)

/-! ## Owner -/

/-- KEY of OWNER_CTRL and DEP_CTRL is right (R358, R387). -/
def keyed (v : Word) : Bool :=
  bitField v.toNat 15 0 == Config.key

/-- Ten seconds in ns (R286, R375). -/
def tenSeconds : Nat := 10000000000

/-- The outcome of ENROL's checks, in the order of their codes (R375): 0 for success. -/
def enrolCode (s : State) (sig : SigVerdict) (keys : List Byte) : Nat :=
  let fresh := match s.pwr.enrolNonceAt with
    | some t => decide (s.clk.now ≤ t + tenSeconds)
    | none => false
  if !(sig.ed && sig.mldsa) then 2
  else if enrolled s && !s.pwr.ownerLost then 3
  else if s.pwr.ownerLost && (lastSlot s).any fun x => x.2.digest != keysDigest keys then 4
  else if !s.pwr.ownerLost && decide (64 ≤ s.pwr.ownerSlots.length) then 5
  else if !fresh then 6
  else 0

/-- The module answers an OWNER_CTRL write (R387): the key is right, no operation runs, and not both bits are set (R376). -/
def ownerCmd (s : State) (v : Word) (bit : Nat) : Bool :=
  keyed v && bitAt v.toNat bit && bitAt v.toNat 16 != bitAt v.toNat 17 && s.pwr.ownerOp.isNone && deputyRuns s

/-- ENROL begins (R375). -/
def beginEnrol (s : State) (v : Word) (sig : SigVerdict) : State :=
  if ownerCmd s v 16 then
    let keys := stagingBytes s 0 keyBytes
    let op : OwnerOp := { release := false, failCode := enrolCode s sig keys, keys := keys }
    { s with pwr := { s.pwr with ownerOp := some op } }
  else s

def execEnrol (value : Word) (sig : SigVerdict) (s : State) : Host.Outcome State Fault Refusal :=
  .next (beginEnrol s value sig)

/-- Accepted work and sessions discarded by a release (R376): jobs, lots, graphs and their chutes. -/
def discardWork (s : State) : State :=
  let s := abortWork s (residentSlots s) (allChutes s)
  let dep := { s.dep with
    jobs := [], waits := [], allocs := [], descs := [], graphs := [], stages := [], voids := [], reruns := [],
    rerunning := [], abortCounts := [], losses := [] }
  let jnl := { s.jnl with lotRing := [], respLog := [], tableUsed := 0, pendingWrites := [], unmirrored := [], mirrorStore := [] }
  let port := { s.port with
    sessions := [], outs := [], orphans := [], mgmt := [], mgmtQueue := [], held := none, nonces := [], inService := false }
  { s with
    dep := dep, jnl := jnl, port := port, scatters := [], assays := [], counters := []
    chutes := s.chutes.filter fun e => e.1 < 4096 && !e.2.active }

/-- RELEASE begins (R376), written through an owner-signed session of an enrolled module: grants are withheld, sessions are
closed and all accepted work is discarded. -/
def beginRelease (s : State) (v : Word) (signed : Bool) : State :=
  if ownerCmd s v 17 && signed && enrolled s then
    let s := discardWork s
    { s with pwr := { s.pwr with ownerOp := some { release := true, failCode := 0 } } }
  else s

def execRelease (value : Word) (signed : Bool) (s : State) : Host.Outcome State Fault Refusal :=
  .next (beginRelease s value signed)

/-- Every management session closed (R375). -/
def closeMgmt (s : State) : State :=
  { s with port := { s.port with mgmt := [], held := none } }

/-- A successful enrolment (R375): an unenrolled module burns its next slot, an OWNER_LOST one none; the owner block is
written into both devices and every management session is closed. -/
def completeEnrol (s : State) (keys : List Byte) : State :=
  let slot : OwnerSlot := { digest := keysDigest keys, released := false }
  let slots := if s.pwr.ownerLost then s.pwr.ownerSlots else s.pwr.ownerSlots ++ [slot]
  let s := { s with pwr := { s.pwr with ownerSlots := slots, ownerLost := false } }
  closeMgmt (writeOwner s (ownerBlock (slots.length - 1) keys))

/-- The end of a release (R376): DRAM is zero, the slot is released, the owner blocks are erased, and a warm reset begins. -/
def completeRelease (s : State) : State :=
  let slots := match lastSlot s with
    | some x => s.pwr.ownerSlots.set x.1 { x.2 with released := true }
    | none => s.pwr.ownerSlots
  let s := { s with mem := s.mem.filter fun c => Config.coreBase ≤ c.1, pwr := { s.pwr with ownerSlots := slots } }
  warmReset (writeOwner s (List.replicate sectionBytes 0xFF)) .release

/-- OWNER_OP_DONE (R375, R376, R387). -/
def ownerOpDone (s : State) : State :=
  match s.pwr.ownerOp with
  | none => s
  | some op =>
    let s := { s with pwr := { s.pwr with ownerOp := none } }
    if op.release then completeRelease (raise s imgBase Flag.img_OWNER_DONE)
    else if op.failCode = 0 then raise (completeEnrol s op.keys) imgBase Flag.img_OWNER_DONE
    else raise (setRawField s (imgBase + 0x28) 5 3 op.failCode) imgBase Flag.img_FAIL

def execOwnerOpDone (s : State) : Host.Outcome State Fault Refusal :=
  .next (ownerOpDone s)

/-! ## Attestation -/

/-- GO (R382): the nonce and the time are latched, and READY is cleared; nothing while a report is being formed. -/
def beginAttest (s : State) (v : Word) : State :=
  if bitAt v.toNat 0 && s.pwr.att.isNone && deputyRuns s then
    let nonce := (List.range 8).map fun i => rawReg s (imgBase + 0x30 + 4 * i)
    { s with pwr := { s.pwr with att := some { nonce := nonce, time := s.clk.now }, attReady := false } }
  else s

def execGo (value : Word) (s : State) : Host.Outcome State Fault Refusal :=
  .next (beginAttest s value)

/-- The attestation report's signed part, 0x000 to 0x13F (R382). -/
def attBody (s : State) (op : AttOp) : List Byte :=
  let m := norOf s s.pwr.slotB
  let h := headerOf m
  let slot := if enrolled s then s.pwr.ownerSlots.length - 1 else 0
  let user := if s.pwr.userApplied then sliceBytes (Config.sha512 (norBytes m offUser sectionBytes)) 0 64 else leBytes 64 0
  let owner := match ownerBlockOf s with
    | some b => sliceBytes (Config.sha512 (blockKeys b)) 0 64
    | none => leBytes 64 0
  leBytes 4 0x54535441 ++ leBytes 2 1 ++ leBytes 2 3696 ++ leBytes 8 s.pwr.serial ++ leBytes 8 s.pwr.mac ++
  leBytes 4 (imgStatus s).toNat ++ leBytes 4 (hdrVersion h) ++
  leBytes 4 (hdrSec h + 256 * s.pwr.secFloor + 65536 * depState s + 2 ^ 18 * (slot % 64) + 2 ^ 24 * s.pwr.startKind) ++
  leBytes 4 s.pwr.warmCount ++ leBytes 8 op.time ++ leBytes 16 0 ++ sliceBytes (Config.sha512 h) 0 64 ++ user ++ owner ++
  wordBytes op.nonce ++ leBytes 32 0

/-- The attestation report (R382), with both signatures over the digest of its first part (R369). -/
def attReport (s : State) (op : AttOp) : List Byte :=
  let b := attBody s op
  let d := Config.sha512 b
  b ++ sliceBytes (Config.deviceSign 0 d) 0 64 ++ sliceBytes (Config.deviceSign 1 d) 0 3309 ++ leBytes 3 0

/-- ATTESTATION_READY (R382). -/
def attestationReady (s : State) : State :=
  match s.pwr.att with
  | some op => { s with pwr := { s.pwr with att := none, attReady := true, attReport := attReport s op } }
  | none => s

def execAttestationReady (s : State) : Host.Outcome State Fault Refusal :=
  .next (attestationReady s)

end Sys2Proof.Machine
end

