-- ==== Sys2Proof/Machine/Tram.lean ====
section
/-! DEFINITION. The tram (R236 to R242). -/

namespace Sys2Proof.Machine

/-! ## BROADCAST -/

/-- Whether cars make a train that a queue may feed (R237, R238): a TRAM_FEED queue of the entry core's seam, cars of 1 to
64 payload words, and none that names a position before the entry. -/
def trainOk (s : State) (q : QueueId) (cars : List CarSpec) : Bool :=
  match cars with
  | [] => false
  | c :: _ =>
    isTramFeed q && isLiveDom s (.seam q.seam .fclk) && (coreAtPos c.firstZ).seam == q.seam &&
    cars.all fun d => decide (c.firstZ ≤ d.firstZ) && decide (d.firstZ ≤ d.lastZ) && decide (d.lastZ ≤ 511) &&
      decide (64 ≤ d.len) && decide (d.len ≤ 4096) && d.len % 64 == 0

/-- The earliest dry time among the tasks of the cores that keep a car of a train (R217). -/
def trainDry (s : State) (cars : List CarSpec) : Option Time :=
  let cores := (List.range 512).filter fun z => cars.any fun c => decide (c.firstZ ≤ z) && decide (z ≤ c.lastZ)
  let dry := cores.flatMap fun z => (List.finRange 4).filterMap fun t => (getSlot s ⟨coreAtPos z, t⟩).dry
  dry.min?

/-- A train's cars, still to be read, and the runs that read them: a run's destination is its car's place, 4 KiB for every
car by number. -/
def loadingCars (cars : List CarSpec) : List LoadingCar :=
  cars.map fun c =>
    let car : Car := { firstZ := c.firstZ, lastZ := c.lastZ, offset := c.offset, train := c.train,
                       payload := List.replicate c.len 0, poisoned := false }
    { entry := (cars.head?.map (·.firstZ)).getD 0, car := car, left := c.len }

def carRuns (first : Nat) (cars : List CarSpec) : List MoveRun :=
  (List.range cars.length).filterMap fun i => cars[i]?.map fun c =>
    { src := c.src, dst := 4096 * (first + i), len := c.len, fill := none }

/-- BROADCAST (R220, R237, R238): the train of the descriptor that a TRAM_FEED queue holds first; the queue reads its
payloads, and each car enters the chain at the entry core, in order (log entry 145). -/
def feedTrain (s : State) (q : QueueId) (cars : List CarSpec) : State :=
  let x := getQueue s q
  match x.local_ with
  | c :: rest =>
    if c.train = cars ∧ trainOk s q cars = true then
      let s := setQueue s q { x with local_ := rest, cars := x.cars ++ loadingCars cars }
      let runs := carRuns (x.firstCar + x.cars.length) cars
      enqueueTo s q { runs := runs, dry := trainDry s cars, deps := [], slow := false } .tram
    else s
  | [] => s

def execBroadcast (queue : QueueId) (cars : List CarSpec) (s : State) : Host.Outcome State Fault Refusal :=
  .next (feedTrain s queue cars)

/-! ## CAR_HOP -/

/-- Whether a core keeps a car (R237, R242): its position lies in the keeping range, it is not fenced, its KCLK domain is
live (R319), and the plan's offset lies in scratch. -/
def keepsCar (s : State) (c : CoreId) (car : Car) : Bool :=
  decide (car.firstZ ≤ tramPos c) && decide (tramPos c ≤ car.lastZ) && coreUp s c && isLiveDom s (.seam c.seam .kclk) &&
  inScratch car.offset car.payload.length

/-- Whether the car at the head of a list may go next (R239): the two sources alternate when both wait. -/
def mayGo (h : HopState) (injected : Bool) (car : Car) : Bool :=
  (if injected then h.feeding else h.arriving).head? == some car &&
  (h.arriving == [] || h.feeding == [] || h.lastInjected != injected)

/-- A kept car (R237, R239, R241): its payload goes through the ingress buffer into scratch. -/
def keepCar (s : State) (c : CoreId) (car : Car) : State :=
  let b := tramRegBase c
  let h := getHop s c
  let s := setHop s c { h with lines := min 32 (h.lines + car.payload.length / 32) }
  let s := count (writeScratch s c car.offset car.payload) b Ctr.TRAM_KEEP_CNT 1
  if car.poisoned then
    raise (count (poisonAt s (scratchAddr c car.offset) car.payload.length) b Ctr.TRAM_UE_CNT 1) b Flag.tram_UE
  else s

/-- Whether a car goes on from a position (R236), and the next stage takes it (R319). -/
def nextStageLive (s : State) (z : Nat) : Bool :=
  isLiveDom s (.seam (coreAtPos (z + 1)).seam .fclk)

/-- CAR_HOP (R236, R239, R241): the car at the head of one of a hop stage's two sources kept where it is named, and passed
to the next position. A full ingress buffer holds it back. -/
def hopCar (s : State) (c : CoreId) (car : Car) (injected : Bool) (ecc : EccFinding) : State :=
  let h := getHop s c
  let z := tramPos c
  let on := decide (z < 511) && decide (z < car.lastZ)
  let keeps := keepsCar s c car
  if !isLiveDom s (.seam c.seam .fclk) || !mayGo h injected car || (on && !nextStageLive s z) ||
      h.stalled || (keeps && decide (32 ≤ h.lines)) then s
  else
    let b := tramRegBase c
    let h := if injected then { h with feeding := h.feeding.drop 1 } else { h with arriving := h.arriving.drop 1 }
    let s := setHop s c { h with lastInjected := injected }
    let s := if ecc = .corrected then
        count (raise (count s b Ctr.TRAM_CE_CNT 1) b Flag.tram_CE) depBase Ctr.DEP_CORRECTED_CNT 1
      else s
    let car := { car with poisoned := car.poisoned || ecc == .uncorrectable }
    let s := if keeps then keepCar s c car else s
    if on then
      let n := coreAtPos (z + 1)
      let hn := getHop s n
      count (setHop s n { hn with arriving := hn.arriving ++ [car] }) b Ctr.TRAM_FWD_CNT 1
    else s

def execCarHop (core : CoreId) (car : Car) (injected : Bool) (ecc : EccFinding) (s : State) :
    Host.Outcome State Fault Refusal :=
  .next (hopCar s core car injected ecc)

/-- TRAM_STALL (R239): one FCLK cycle in which the hop stage stalls on its full ingress buffer. -/
def stallTram (s : State) (c : CoreId) : State :=
  let h := getHop s c
  if 32 ≤ h.lines then count (setHop s c { h with stalled := true }) (tramRegBase c) Ctr.TRAM_STALL_CNT 1 else s

def execTramStall (core : CoreId) (s : State) : Host.Outcome State Fault Refusal :=
  .next (stallTram s core)

end Sys2Proof.Machine
end

