-- ==== Sys2Proof/Machine/RegViews.lean ====
section
/-! DEFINITION. The register words that report other state: for each block, what a read of such a word gives. Every other
register has a stored word of its own. -/

namespace Sys2Proof.Machine

/-- A word of fields: value and lowest bit of each. -/
def fields (l : List (Nat × Nat)) : Word :=
  BitVec.ofNat 32 ((l.map fun f => f.1 * 2 ^ f.2).sum)

/-- How many of a list's numbers satisfy a condition. -/
def countIn (l : List Nat) (p : Nat → Bool) : Nat :=
  (l.filter p).length

/-! ## Cores -/

/-- Registers of an array (R63, R132). -/
def viewArr (s : State) (k off : Nat) : Option Word :=
  let a := arrayOfKey k
  let x := getArray s a
  if off = 0x00 then
    some (fields [(match x.active with | some t => codeOfMode t.mode | none => 0, 0), (bitOf (x.flights != []), 3),
      (bitOf x.frozen, 4), (bitOf x.badRow.isSome, 5), (bitOf (arrayFenced s a), 6), (x.latency % 256, 8),
      (x.slotsLast % 64, 16)])
  else if off = 0x2C then
    some (fields [(x.badRow.getD 0x7F, 0), (bitOf x.spareBad, 7), (x.testResult % 4, 8), (x.badCol.getD 0x7F, 10),
      (bitOf x.fenceTally, 17), (bitOf x.fenceTest, 18)])
  else none

/-- VAT_STATUS of a core (R113). -/
def viewVat (s : State) (k off : Nat) : Option Word :=
  let tiles := (getCore s (coreOfKey k)).tiles
  if off = 0x00 then
    some (fields [((tiles.map fun t => tileGranules t.x64).sum % 128, 0), ((tiles.filter (·.isOpen)).length % 32, 8),
      ((tiles.filter (·.x64)).length % 32, 16)])
  else none

/-- CORE_STATUS and CORE_CFG (R174). Saves and restores are one step, so SAVE_BUSY reads 0. -/
def viewCore (s : State) (k off : Nat) : Option Word :=
  let c := coreOfKey k
  let running := (List.finRange 4).find? fun t => decide ((getSlot s ⟨c, t⟩).state = .running)
  if off = 0x00 then
    let used := maskOf ((List.range 4).filter fun t => decide ((getSlot s ⟨c, Fin.ofNat 4 t⟩).state ≠ .empty))
    let live := maskOf ((List.range 4).filter fun a => !arrayFenced s ⟨c, Fin.ofNat 4 a⟩)
    some (fields [((running.map (·.val)).getD 0, 0), (bitOf running.isSome, 2), (used, 3), (live, 7),
      (bitOf (isLiveDom s (.seam c.seam .aclk)), 12), (bitOf (s.dep.fences.cores.contains k), 13)])
  else if off = 0x08 then some (fields [(s.pwr.config.switchWait % 256, 0), (s.pwr.config.preemptGap % 4096, 8)])
  else none

/-- The code of a task slot's state (R161). -/
def slotCode : SlotState → Nat
  | .empty => 0
  | .ready => 1
  | .running => 2
  | .waiting => 3
  | .aborting => 4

/-- The words of a task slot (R174). The dry time of a slot without one reads as all ones. -/
def viewSlot (s : State) (k off : Nat) : Option Word :=
  let c := coreOfKey (k / 4)
  let t : SlotId := ⟨c, Fin.ofNat 4 k⟩
  let x := getSlot s t
  let held := ((getCore s c).tiles.filter fun v => v.slot == t.slot).map fun v => tileGranules v.x64
  let dry := (slotDry s t).getD (2 ^ 64 - 1)
  if off = 0x0 then
    some (fields [(slotCode x.state, 0), (x.saved.length % 32, 3), (held.sum % 128, 8), (x.stage % 65536, 16)])
  else if off = 0x4 then
    some (if x.state = .empty then 0 else Config.taskIdent x.job x.stage x.counter x.index)
  else if off = 0x8 then some (BitVec.ofNat 32 dry)
  else some (BitVec.ofNat 32 (dry / 2 ^ 32))

/-! ## Seams -/

/-- The adit units of a seam that are not fenced, as bits (R152). -/
def aditsLive (s : State) (m : Nat) : Nat :=
  maskOf ((List.range 4).filter fun u => !s.dep.fences.adits.contains (4 * m + u))

/-- ADIT_CFG (R152). -/
def viewAditCfg (s : State) (m : Nat) : Option Word :=
  some (fields [(s.pwr.config.aditThreshold % 16, 0), (bitOf s.pwr.config.aditAdapt, 4), (aditsLive s m, 5)])

/-- ADIT_STATUS (R152): the operation that the unit works on, BUSY while a column group of it is open. -/
def viewAdit (s : State) (k off : Nat) : Option Word :=
  let fenced := (bitOf (s.dep.fences.adits.contains k), 1)
  if off = 0x00 then
    match (tget s.adits {} k).op with
    | some o => some (fields [(bitOf o.isOpen, 0), fenced, (o.rows % 16, 2), (bitOf o.x64, 6), (bitOf o.chunked, 7)])
    | none => some (fields [fenced])
  else none

/-- The queue of a queue number. -/
def queueOfKey (k : Nat) : QueueId :=
  ⟨Fin.ofNat 16 (k / 144), Fin.ofNat 8 (k / 18), Fin.ofNat 18 k⟩

/-- HOIST_STATUS (R222): the runs of a hoist are translated outside service, in recovery, and where a granule is rehomed
(R221, R357). -/
def viewHoist (s : State) (k off : Nat) : Option Word :=
  let active := maskOf ((List.range 18).filter fun q =>
    let x := tget s.hoists {} (18 * k + q)
    x.ready != [] || x.issued != [])
  let xlate := s.pwr.phase != .running || s.dep.recovery || s.dep.voids.any fun v => v.home.isSome
  if off = 0x000 then some (fields [(active, 0), (bitOf xlate, 18)]) else none

/-- HQ_STATUS (R222). -/
def viewHq (s : State) (k off : Nat) : Option Word :=
  let q := queueOfKey k
  let x := getQueue s q
  let stopped := match x.ready with
    | g :: _ => !depsMet s q g.deps
    | [] => false
  if off = 0x4 then
    some (fields [(x.issued.length % 128, 0), (bitOf stopped, 7), (x.local_.length % 64, 8)])
  else none

/-- DRAM_STATUS and DRAM_TEMP (R222). -/
def viewDram (s : State) (m off : Nat) : Option Word :=
  if off = 0x00 then
    some (BitVec.ofNat 32 (maskOf ((List.range 32).filter fun c =>
      !s.dep.fences.chans.contains (32 * m + c) && !s.dep.fences.drams.contains m)))
  else if off = 0x28 then some (fields [(min 255 (s.pwr.tempDram.getD m 0), 0)])
  else none

/-- The endpoint of an endpoint number. -/
def epOfKey (k : Nat) : EndpointId :=
  if k < 4096 then .core (coreOfKey (k / 8)) (Fin.ofNat 8 k) else .hub (Fin.ofNat 2048 (k - 4096))

/-- The code of a bank's state (R243). -/
def bankCode : BankState → Nat
  | .empty => 0
  | .filling => 1
  | .closed => 2
  | .visible => 3

/-- CH_CFG and CH_STATUS (R243). A packet arrives in one step, so IN_PACKET reads 0. -/
def viewCh (s : State) (k off : Nat) : Option Word :=
  let e := getEp s (epOfKey k)
  let wptr := match bankIn e .filling with | some one => (bankOf e one).words | none => 0
  let rptr := match bankIn e .visible with | some one => (bankOf e one).read | none => 0
  if off = 0x00 then some (fields [(e.tail % 2 ^ 20, 0), (bitOf e.active, 20), (e.producer % 1024, 21)])
  else if off = 0x04 then
    some (fields [(bankCode e.bank0.state, 0), (bankCode e.bank1.state, 2), (wptr % 256, 4), (rptr % 256, 12),
      (bitOf e.reject, 20)])
  else none

/-- The first word of a core's tram registers (R243). -/
def viewTram (s : State) (k off : Nat) : Option Word :=
  let h := tget s.hops {} k
  if off = 0x00 then
    some (fields [(h.lines % 64, 0), (bitOf h.stalled, 6), (bitOf (s.dep.fences.cores.contains k), 7)])
  else none

/-- The link direction of a number. -/
def linkOfNum (n : Nat) : LinkDir :=
  match n % 5 with
  | 0 => .east
  | 1 => .west
  | 2 => .south
  | 3 => .north
  | _ => .hub

/-- PRESENT and UP of a link (R243). -/
def viewLink (s : State) (k off : Nat) : Option Word :=
  if off = 0x0 then some (fields [(bitOf (linkPresent (k / 5) (linkOfNum k)), 0), (bitOf (tget s.links {} k).up, 1)])
  else none

/-- The words of a work counter (R277). -/
def viewWc (s : State) (k off : Nat) : Option Word :=
  let c := tget s.counters {} k
  if off = 0x00 then some (BitVec.ofNat 32 c.next)
  else if off = 0x04 then some (BitVec.ofNat 32 c.limit)
  else if off = 0x08 then some (fields [(c.node % 4096, 0), (bitOf c.active, 12)])
  else if off = 0x0C then some (BitVec.ofNat 32 c.bits.length)
  else none

/-- The clock status of a seam (R331). -/
def viewSeamClk (s : State) (m off : Nat) : Option Word :=
  let d (k : SeamDomain) : Domain := getDom s (.seam (Fin.ofNat 16 m) k)
  let bits (f : Domain → Bool) : Nat :=
    bitOf (f (d .aclk)) + 2 * bitOf (f (d .kclk)) + 4 * bitOf (f (d .fclk)) + 8 * bitOf (f (d .mclk))
  if off = 0x00 then some (fields [(bits (·.live), 0), (bits (·.locked), 4), (bits (·.inReset), 8)]) else none

/-- CAL_STATUS and the word behind it (R387). -/
def viewCal (s : State) (m off : Nat) : Option Word :=
  let c := getCal s m
  let has (t : Table Nat) : Nat := maskOf ((t.map (·.1)).filter (· < 9))
  if off = 0x00 then
    some (fields [(c.vset % 1024, 0), (bitOf c.guard, 10), (bitOf c.idle, 11), (bitOf c.descent.isSome, 12),
      (has c.full, 13), (has c.light, 22)])
  else if off = 0x04 then
    some (fields [(c.band % 16, 0), (min 127 c.load, 4), (min 31 c.margin, 11), (min 255 (seamTemp s m), 16)])
  else none

/-- The seam status registers (R413). -/
def viewSeamStat (s : State) (m off : Nat) : Option Word :=
  let cores := s.dep.fences.cores.filter fun k => k / 32 == m
  if off = 0x00 then some (fields [(m, 0), (m % 4, 4), (m / 4, 6), (snakeSeams.idxOf m, 8)])
  else if off = 0x04 then
    some (fields [(bitOf (s.dep.fences.seams.contains m), 0), (bitOf (s.dep.fences.drams.contains m), 1),
      (cores.length % 64, 2), (aditsLive s m, 8)])
  else if off = 0x08 then some (BitVec.ofNat 32 (maskOf (cores.map (· % 32))))
  else some (fields [(min 255 (countIn s.dep.fences.arrays fun k => k / 128 == m), 0)])

/-! ## Hub and port -/

/-- PORT_STATUS, identity and configuration (R308). -/
def viewPort (s : State) (off : Nat) : Option Word :=
  let c := s.pwr.config
  let lots := (s.port.sessions.filter fun e => e.2.kind == .lot).length
  let paused := maskOf ((s.port.paused.map (·.1)).filter (· < 8))
  if off = 0x000 then
    some (fields [(bitOf s.port.linkUp, 0), (s.port.mode % 8, 1), (bitOf s.port.inService, 4), (paused, 5),
      (lots % 2048, 13)])
  else if off = 0x008 then some (BitVec.ofNat 32 (if s.pwr.idRead then s.pwr.mac else 0))
  else if off = 0x00C then some (BitVec.ofNat 32 (if s.pwr.idRead then s.pwr.mac / 2 ^ 32 % 65536 else 0))
  else if off = 0x010 then
    some (fields [(moduleNum s, 0), (c.side % 2, 16), (s.pwr.strapsRead % 16, 17)])
  else if off = 0x014 then
    some (fields [(c.vlanId % 4096, 0), (c.pcpData % 8, 12), (c.pcpCtrl % 8, 15), (c.pcpMgmt % 8, 18), (c.family % 2, 21),
      (bitOf c.bringupOk, 22)])
  else if off = 0x018 then some (fields [(c.iltPort % 65536, 0), (c.mgmtPort % 65536, 16)])
  else if off = 0x01C then some (fields [(c.iltRto % 65536, 0)])
  else none

/-- The code of a session's kind (R285, R308). -/
def kindCode : SessionKind → Nat
  | .free => 0
  | .lot => 1
  | .chute => 2
  | .mirror => 3

/-- The registers of a session (R308). -/
def viewSess (s : State) (i off : Nat) : Option Word :=
  let x := getSession s i
  let peer := x.kind == .chute || x.kind == .mirror
  if off = 0x00 then
    some (fields [(kindCode x.kind, 0), (bitOf x.nakAt.isSome, 2), (if peer then x.peerModule % 65536 else 0, 3),
      (if peer then x.peerSide % 2 else 0, 19)])
  else if off = 0x04 then some x.expPsn
  else if off = 0x08 then some x.accLsn
  else if off = 0x0C then some x.grants
  else none

/-- The local counter and the hub's clock status (R331). -/
def viewHubClk (s : State) (off : Nat) : Option Word :=
  let p := getDom s .pclk
  let f := getDom s .hubFclk
  if off = 0x00 then some (BitVec.ofNat 32 s.clk.now)
  else if off = 0x04 then some s.clk.hiLatch
  else if off = 0x08 then some (fields [(bitOf p.live, 0), (bitOf f.live, 1), (bitOf p.locked, 2), (bitOf f.locked, 3)])
  else none

/-! ## Deputy -/

/-- The code of the mirror's state (R358). -/
def mirrorCode : MirrorState → Nat
  | .single => 0
  | .up => 1
  | .lost => 2
  | .restoring => 3

/-- Whether GRANTS_HELD reads 1: grants to LOT sessions withheld under R346, R347 or R355. -/
def grantsHeldFlag (s : State) : Bool :=
  grantsHeld { s with dep := { s.dep with out := false } }

/-- DEP_STATUS and the fence, journal and loss state (R358). -/
def viewDep (s : State) (off : Nat) : Option Word :=
  if off = 0x00 then
    some (fields [(depState s, 0), (bitOf s.jnl.copy0, 2), (bitOf s.jnl.copy8, 3), (mirrorCode s.jnl.mirror, 4),
      (bitOf (grantsHeldFlag s), 6)])
  else if off = 0x08 then some (fields [(maskOf s.dep.fences.seams, 0), (maskOf s.dep.fences.drams, 16)])
  else if off = 0x0C then some (fields [(s.dep.fences.cores.length % 1024, 0)])
  else if off = 0x10 then some (fields [(min 65535 (lotUsed s), 0), (min 65535 (respUsed s), 16)])
  else if off = 0x14 then some (fields [(s.jnl.tableUsed % 32768, 0)])
  else if off = 0x18 then some (BitVec.ofNat 32 (s.dep.voids.filter (·.void)).length)
  else if off = 0x1C then some (fields [((s.dep.jobs.filter fun j => decide (j.state = .held)).length % 65536, 0)])
  else none

/-- An entry of the loss report (R342, R358). -/
def viewLoss (s : State) (e off : Nat) : Option Word :=
  let x := tget s.dep.losses {} e
  if off = 0x0 then some (BitVec.ofNat 32 x.addr)
  else if off = 0x4 then some (BitVec.ofNat 32 (x.addr / 2 ^ 32 % 65536))
  else if off = 0x8 then some (BitVec.ofNat 32 x.count)
  else some (fields [(bitOf x.valid, 0), (bitOf x.rehomed, 1), (bitOf x.unhomed, 2), (bitOf x.resupplied, 3)])

/-- DT_IN_USE and DT_PENDING (R201). -/
def viewDesc (s : State) (off : Nat) : Option Word :=
  let used := (s.dep.descs.filter fun e => e.2.live.isSome).length
  let wait := (s.dep.descs.filter fun e => e.2.destroyPending).length + (s.dep.allocs.filter (·.freePending)).length
  if off = 0x00 then some (BitVec.ofNat 32 used)
  else if off = 0x10 then some (BitVec.ofNat 32 wait)
  else none

/-- Whether an image is in use, from step 4 of the start on and not in rescue. -/
def imageRead (s : State) : Bool :=
  s.pwr.idRead && !s.pwr.rescue

/-- The hottest die (R365, R387): its temperature, its number, and whether it is the hub; the first of equals in the order of
the numbers, the hub last. -/
def hottest (s : State) : Nat × Nat × Bool :=
  let dies := (List.range 16).map (fun m => (s.pwr.tempLogic.getD m 0, m)) ++
    (List.range 16).map fun m => (s.pwr.tempDram.getD m 0, 16 + m)
  let b := dies.foldl (fun b d => if b.1 < d.1 then d else b) (0, 0)
  if b.1 < s.pwr.tempHub then (s.pwr.tempHub, 0, true) else (b.1, b.2, false)

/-- The image, owner and power registers that report other state (R387). -/
def viewImg (s : State) (off : Nat) : Option Word :=
  let h := headerOf (norOf s s.pwr.slotB)
  let raw := rawReg s (imgBase + off)
  if off = 0x00 then some (imgStatus s)
  else if off = 0x04 then some (if imageRead s then BitVec.ofNat 32 (hdrVersion h) else 0)
  else if off = 0x08 then
    some (fields [(if imageRead s then hdrSec h else 0, 0), (s.pwr.secFloor % 256, 8), (min 64 s.pwr.ownerSlots.length, 16)])
  else if off = 0x10 then some (raw ||| BitVec.ofNat 32 (bitOf s.pwr.imgOp.isSome))
  else if off = 0x28 then some (raw ||| BitVec.ofNat 32 (bitOf s.pwr.ownerOp.isSome))
  else if 0x14 ≤ off ∧ off ≤ 0x20 then some (BitVec.ofNat 32 (s.pwr.enrolNonce.toNat / 2 ^ (8 * (off - 0x14))))
  else if off = 0x54 then some (fields [(bitOf s.pwr.att.isSome, 0), (bitOf s.pwr.attReady, 1)])
  else if off = 0x6C then
    let t := hottest s
    some (fields [(min 255 t.1, 0), (t.2.1, 8), (bitOf t.2.2, 13)])
  else none

/-- The identity registers (R412). -/
def viewIdent (s : State) (off : Nat) : Option Word :=
  let open_ := (s.port.mgmt.filter fun e => e.2.isSome).length
  if off = 0x08 then some (BitVec.ofNat 32 (if s.pwr.idRead then s.pwr.serial else 0))
  else if off = 0x0C then some (BitVec.ofNat 32 (if s.pwr.idRead then s.pwr.serial / 2 ^ 32 else 0))
  else if off = 0x14 then some (fields [((s.port.mgmtQueue.length + bitOf s.port.held.isSome) % 128, 0), (open_ % 8, 7)])
  else none

/-- A byte of the identity window (R381). -/
def idByte (s : State) (i : Nat) : Byte :=
  if i < 8 then BitVec.ofNat 8 (s.pwr.serial / 256 ^ i)
  else if i < 16 then BitVec.ofNat 8 (s.pwr.mac / 256 ^ (i - 8))
  else if i < 5373 then Config.deviceCert i else 0

/-- A word of four bytes. -/
def wordOf (b : Nat → Byte) (off : Nat) : Word :=
  BitVec.ofNat 32 (leNat ((List.range 4).map fun i => b (off + i)))

/-! ## All blocks -/

/-- What a register that reports other state reads as; none for a register with a stored word. -/
def viewReg (s : State) (l : RegLoc) : Option Word :=
  match l.block with
  | .arr => viewArr s l.unit l.off
  | .vat => viewVat s l.unit l.off
  | .core => viewCore s l.unit l.off
  | .slot => viewSlot s l.unit l.off
  | .aditCfg => viewAditCfg s l.unit
  | .adit => viewAdit s l.unit l.off
  | .desc => viewDesc s l.off
  | .hoistCfg => some (fields [(s.pwr.config.slack % 65536, 0)])
  | .hoist => viewHoist s l.unit l.off
  | .hq => viewHq s l.unit l.off
  | .dram => viewDram s l.unit l.off
  | .ch => viewCh s l.unit l.off
  | .tram => viewTram s l.unit l.off
  | .link => viewLink s l.unit l.off
  | .wc => viewWc s l.unit l.off
  | .port => viewPort s l.off
  | .sess => viewSess s l.unit l.off
  | .seamClk => viewSeamClk s l.unit l.off
  | .hubClk => viewHubClk s l.off
  | .dep => viewDep s l.off
  | .loss => viewLoss s l.unit l.off
  | .img => viewImg s l.off
  | .cal => viewCal s l.unit l.off
  | .ident => viewIdent s l.off
  | .seamStat => viewSeamStat s l.unit l.off
  | .attWindow => some (wordOf (fun i => s.pwr.attReport.getD i 0) l.off)
  | .idWindow => some (wordOf (idByte s) l.off)
  | .sp | .assay | .start | .staging => none

end Sys2Proof.Machine
end

