-- ==== Sys2Proof/Machine/Registers.lean ====
section
/-! DEFINITION. Reads and writes of one register word (R404 to R406) with what they set going, and the rows of the table that
are such a write. -/

namespace Sys2Proof.Machine

/-! ## Reads -/

/-- The power registers that no command gives a value for (R387): input current, input power and its peak. Each read samples
them, by the implementation's choice (log entry 3); a peak lies at or above the powers read since it was cleared. -/
def samplePower (s : State) (off : Nat) : State :=
  let r := drawChoice s
  if off = 0x60 then setRawField r.2 (imgBase + 0x60) 31 16 (r.1 % 65536)
  else if off = 0x64 then
    let p := r.1 % 4096
    let s := setRawReg r.2 (imgBase + 0x64) (BitVec.ofNat 32 p)
    setRawReg s (imgBase + 0x70) (BitVec.ofNat 32 (max p (rawReg s (imgBase + 0x70)).toNat))
  else if off = 0x70 then
    setRawReg r.2 (imgBase + 0x70) (BitVec.ofNat 32 (max (r.1 % 4096) (rawReg r.2 (imgBase + 0x70)).toNat))
  else s

/-- What a read does before its word is taken: LOCAL_TIME_LO latches the upper word (R331), ENROL_NONCE0 draws a nonce
(R375), and power readings are sampled. -/
def beforeRead (s : State) (l : RegLoc) : State :=
  if l.block = .hubClk ∧ l.off = 0 then { s with clk := { s.clk with hiLatch := BitVec.ofNat 32 (s.clk.now / 2 ^ 32) } }
  else if l.block = .img ∧ l.off = 0x14 then
    let r := drawChoice s
    { r.2 with pwr := { r.2.pwr with enrolNonce := BitVec.ofNat 128 r.1, enrolNonceAt := some s.clk.now } }
  else if l.block = .img then samplePower s l.off
  else s

/-- The word that a register reads as: WO fields read as 0 (R404). -/
def regValue (s : State) (addr : Nat) (l : RegLoc) : Word :=
  ((viewReg s l).getD (rawReg s addr)) &&& ~~~(regDefOf l).wo

/-- A read of one word (R404, R406): the value, and the state in which RC bits are clear. -/
def readReg (s : State) (addr : Nat) (l : RegLoc) : Word × State :=
  let s := beforeRead s l
  let v := regValue s addr l
  let rc := (regDefOf l).rc
  (v, if rc = 0 then s else setRawReg s addr (rawReg s addr &&& ~~~rc))

/-! ## Writes -/

/-- A write of RESTORE_SKIP (R356): in a cold start of a twin field, during the restore or before it. -/
def restoreSkip (s : State) : State :=
  if s.pwr.config.twin && !s.pwr.warm && !s.dep.service && deputyRuns s then
    let s := { s with dep := { s.dep with restoreSkip := true } }
    if s.jnl.mirror = .restoring then skipRestore s else s
  else s

/-- A write of DEP_CTRL (R358): without the key it has no effect. -/
def writeDepCtrl (s : State) (v : Word) : State :=
  if keyed v then
    let s := if bitAt v.toNat 17 then restoreSkip s else s
    if bitAt v.toNat 16 then warmIf s .depCtrl else s
  else s

/-- A write of CH_CTRL (R234, R243). -/
def writeChCtrl (s : State) (ep : EndpointId) (v : Word) : State :=
  if bitAt v.toNat 0 then resetAt s ep else s

/-- What a write sets going beside the stored word: WO fields (R404). -/
def writeAction (s : State) (l : RegLoc) (v : Word) (sig : SigVerdict) (signed : Bool) : State :=
  if l.block = .ch ∧ l.off = 0x0C then writeChCtrl s (epOfKey l.unit) v
  else if l.block = .dep ∧ l.off = 0x44 then writeDepCtrl s v
  else if l.block = .img ∧ l.off = 0x0C then writeImgCtrl s v
  else if l.block = .img ∧ l.off = 0x24 then beginRelease (beginEnrol s v sig) v signed
  else if l.block = .img ∧ l.off = 0x50 then beginAttest s v
  else s

/-- The stored word of a register after a write (R404, R405). -/
def writtenWord (d : RegDef) (old v : Word) : Word :=
  (old &&& ~~~(d.rw ||| (v &&& d.w1c))) ||| (v &&& d.rw)

/-- A write of one word (R404): RW bits take the value, W1C bits written as 1 are cleared, WO bits act; all others stay. -/
def writeReg (s : State) (addr : Nat) (l : RegLoc) (v : Word) (sig : SigVerdict) (signed : Bool) : State :=
  let d := regDefOf l
  writeAction (setRawReg s addr (writtenWord d (rawReg s addr) v)) l v sig signed

/-! ## Rows of the table that are a write -/

/-- Whether a register of a domain answers (R320). -/
def answers (s : State) (d : Option DomainId) : Bool :=
  match d with
  | some d => isLiveDom s d
  | none => true

/-- HQ_CFG_WRITE (R216): the outstanding limit of a queue. -/
def hqCfgWrite (s : State) (q : QueueId) (v : Word) : State :=
  if isLiveDom s (.seam q.seam .fclk) then setRawField s (queueRegBase q) 6 0 (bitField v.toNat 6 0) else s

def execHqCfgWrite (queue : QueueId) (value : Word) (s : State) : Host.Outcome State Fault Refusal :=
  .next (hqCfgWrite s queue value)

/-- CH_CTRL_RESET (R234, R243). -/
def chCtrlReset (s : State) (ep : EndpointId) (v : Word) : State :=
  if isLiveDom s (epDomain ep) then writeChCtrl s ep v else s

def execChCtrlReset (ep : EndpointId) (value : Word) (s : State) : Host.Outcome State Fault Refusal :=
  .next (chCtrlReset s ep value)

/-- DEP_CTRL_WARM (R352, R358). -/
def execDepCtrlWarm (value : Word) (s : State) : Host.Outcome State Fault Refusal :=
  .next (if keyed value && bitAt value.toNat 16 then warmIf s .depCtrl else s)

/-- DEP_CTRL_RESTORE_SKIP (R356, R358). -/
def execDepCtrlRestoreSkip (value : Word) (s : State) : Host.Outcome State Fault Refusal :=
  .next (if keyed value && bitAt value.toNat 17 then restoreSkip s else s)

end Sys2Proof.Machine
end

