-- ==== Sys2Proof/Machine/Management.lean ====
section
/-! DEFINITION. The management frames (R305, R306, R398 to R401): their queue, HELLO, OPEN and SHUT (R286, R287), READ, WRITE
and ABORT, and the announcement (R379). -/

namespace Sys2Proof.Machine

/-- Whether a header is that of a request (R305): VER 1, STATUS and the reserved bytes zero. -/
def requestOk (h : MgmtHeader) : Bool :=
  h.ver == 1 && h.status == 0 && h.rsvd == 0

/-- A request of an open session executed (R305, R306): without an open session it answers NO_SESSION, with another TOKEN
AUTH, and one with the REQ_ID executed last gets the stored response again. -/
def inMgmt (s : State) (r : MgmtFrame) (f : MgmtSession → State) : State :=
  if !requestOk r.header then answerMgmt s r stBadRequest []
  else
    match getMgmt s r.header.session.toNat with
    | none => answerMgmt s r stNoSession []
    | some x =>
      if x.token ≠ r.header.token then answerMgmt s r stAuth []
      else if x.lastReq = some r.header.reqId then
        match x.lastAnswer with
        | some a => pushTx s a
        | none => s
      else f x

/-! ## The queue -/

/-- Requests in the queue or held (R306). -/
def mgmtWaiting (s : State) : Nat :=
  s.port.mgmtQueue.length + bitOf s.port.held.isSome

/-- A frame put into the queue (R306): ABORT ahead of all but other ABORTs, any other behind the last of 64. -/
def enqueueMgmt (s : State) (r : MgmtFrame) : State :=
  let q := s.port.mgmtQueue
  let isAbort (x : MgmtFrame) : Bool := x.header.op.toNat == opAbort
  if isAbort r then
    { s with port := { s.port with mgmtQueue := q.takeWhile isAbort ++ [r] ++ q.dropWhile isAbort } }
  else if 64 ≤ mgmtWaiting s then raise (portCount s Ctr.PORT_MG_DROP_CNT) portBase Flag.port_MG_DROP
  else { s with port := { s.port with mgmtQueue := q ++ [r] } }

/-- Whether a frame is a management frame to this module (R281). -/
def mgmtKept (s : State) (f : RxFrame) : Bool :=
  udpTo s f s.pwr.config.mgmtPort

/-- MGMT_FRAME_RECEIVE (R306). -/
def mgmtFrameReceive (s : State) (r : MgmtFrame) : State :=
  match receiveFrame s r.frame (mgmtKept s r.frame) with
  | (s, true) => settleQueue (enqueueMgmt s r)
  | (s, false) => s

def execMgmtFrameReceive (req : MgmtFrame) (s : State) : Host.Outcome State Fault Refusal :=
  .next (mgmtFrameReceive s req)

/-- Whether nothing stands before a request: none waits and none is held, or an ABORT, which is taken ahead (R306). -/
def takenAtOnce (s : State) (r : MgmtFrame) : Bool :=
  (s.port.mgmtQueue.isEmpty && s.port.held.isNone) || r.header.op.toNat == opAbort

/-- A request taken for execution (R306): the one at the front of the queue, unless another is held; a frame that arrives
with nothing before it executes at once, any other is queued. -/
def takeMgmt (s : State) (r : MgmtFrame) (f : State → State) : State :=
  let s := settleQueue s
  if s.port.mgmtQueue.head? = some r then
    if s.port.held.isSome && r.header.op.toNat != opAbort then s
    else settleQueue (f { s with port := { s.port with mgmtQueue := s.port.mgmtQueue.tail } })
  else if takenAtOnce s r then
    match receiveFrame s r.frame (mgmtKept s r.frame) with
    | (s, true) => settleQueue (f s)
    | (s, false) => s
  else mgmtFrameReceive s r

/-- A command that carries a request of its own operation; another operation's is none of it. -/
def ofOp (op : Nat) (s : State) (r : MgmtFrame) (f : State → State) : State :=
  if r.header.op.toNat = op then takeMgmt s r f else s

/-! ## HELLO -/

/-- Whether an address is that of ANNOUNCE_ADDR (R379): an IPv4 address is compared with the mapped one. -/
def isAnnounceAddr (s : State) (f : RxFrame) : Bool :=
  let a := s.pwr.config.announceAddr
  a != 0 && (f.srcIp == a || (f.etherType == etIpv4 && f.srcIp + 0xFFFF00000000 == a))

/-- The body of a HELLO response (R287). -/
def helloBody (s : State) (nonce : BitVec 128) : List Byte :=
  beBytes 2 (moduleNum s) ++ beBytes 1 s.pwr.config.side ++
  beBytes 1 (bitOf (enrolled s) + 2 * bitOf s.port.inService) ++ beBytes 6 s.pwr.mac ++ beBytes 2 0 ++
  beBytes 16 nonce.toNat

/-- The nonces with a new one; a HELLO beyond 16 replaces the oldest (R287). -/
def addNonce (l : List (BitVec 128 × Time)) (n : BitVec 128) (t : Time) : List (BitVec 128 × Time) :=
  (if 16 ≤ l.length then l.drop (l.length - 15) else l) ++ [(n, t)]

/-- Whether a header is that of a HELLO or OPEN (R287): session and TOKEN are zero. -/
def openingOk (h : MgmtHeader) : Bool :=
  requestOk h && h.session == 0 && h.token == 0

/-- HELLO executed (R286, R287). One from ANNOUNCE_ADDR ends the announcement (R379). -/
def helloRun (r : MgmtFrame) (s : State) : State :=
  if !openingOk r.header || r.body != [] then answerMgmt s r stBadRequest []
  else
    let d := drawChoice s
    let nonce := BitVec.ofNat 128 d.1
    let s := d.2
    let s := { s with
      port := { s.port with nonces := addNonce s.port.nonces nonce s.clk.now }
      pwr := { s.pwr with announceStop := s.pwr.announceStop || isAnnounceAddr s r.frame } }
    answerMgmt s r stOk (helloBody s nonce)

def execHello (req : MgmtFrame) (s : State) : Host.Outcome State Fault Refusal :=
  .next (ofOp opHello s req (helloRun req))

/-! ## OPEN -/

/-- The fields of an OPEN body (R287). -/
structure OpenReq where
  kind : Nat
  zero1 : Nat
  port : Nat
  window : Nat
  nonce : BitVec 128
  digest : List Byte
  edge : Nat
  zero2 : Nat
  signed : Bool
deriving DecidableEq, Repr

/-- An OPEN body (R287): 96 B unsigned, 3,469 B signed. -/
def parseOpen (b : List Byte) : Option OpenReq :=
  if b.length = 0x60 ∨ b.length = 3469 then
    some { kind := beAt b 0 1, zero1 := beAt b 1 1, port := beAt b 2 2, window := beAt b 4 4,
           nonce := BitVec.ofNat 128 (beAt b 8 16), digest := sliceBytes b 0x18 64, edge := beAt b 0x58 4,
           zero2 := beAt b 0x5C 4, signed := b.length == 3469 }
  else none

/-- Whether a nonce stands and is at most 10 s old (R286, R287). -/
def nonceFresh (s : State) (n : BitVec 128) : Bool :=
  s.port.nonces.any fun x => x.1 == n && decide (s.clk.now ≤ x.2 + tenSeconds)

/-- A nonce used up by an OPEN (R286). -/
def useNonce (s : State) (n : BitVec 128) : State :=
  { s with port := { s.port with nonces := s.port.nonces.filter fun x => x.1 != n } }

/-- The module that the OPEN of a chute comes from, where it is accepted (R286): a loaded graph has the digest, and the
source is a module on which the graph places the producing node. Answers the graph slot and the module. -/
def chuteOpener (s : State) (f : RxFrame) (q : OpenReq) : Option (Nat × Nat) :=
  s.dep.graphs.findSome? fun e =>
    match e.2.live with
    | none => none
    | some g =>
      if sliceBytes (Config.sha512 e.2.raw) 0 64 = q.digest then
        match g.edges[q.edge]? with
        | some d =>
          if d.kind = 1 then
            ((modulesOf g d.producer).find? fun m => moduleIp s m s.pwr.config.side == f.srcIp).map fun m => (e.1, m)
          else none
        | none => none
      else none

/-- Management sessions open. -/
def mgmtOpen (s : State) : List Nat :=
  (s.port.mgmt.filter fun e => e.2.isSome).map (·.1)

/-- Whether R286 and R375 allow the OPEN by its signatures and source. An OWNER_LOST module takes one unsigned management
session. -/
def openAllowed (s : State) (f : RxFrame) (q : OpenReq) (sig : SigVerdict) : Bool :=
  let owner := q.signed && sig.ed && sig.mldsa
  if q.kind = 0 then
    if s.pwr.ownerLost then !q.signed && (mgmtOpen s).isEmpty
    else !enrolled s || owner
  else if q.kind = 1 then enrolled s && !s.pwr.ownerLost && owner
  else if q.kind = 2 then (chuteOpener s f q).isSome
  else s.pwr.config.twin && f.srcIp == moduleIp s (moduleNum s) (1 - s.pwr.config.side)

/-- Whether the other fields of the body keep to the table (R286, R287). -/
def openFieldsOk (q : OpenReq) : Bool :=
  q.zero1 == 0 && q.zero2 == 0 && q.port != 0 &&
  (if q.kind = 1 then decide (16384 ≤ q.window) && decide (q.window ≤ 1048576) && q.window % 4096 == 0 else q.window == 0) &&
  (q.kind == 2 || (q.edge == 0 && q.digest == List.replicate 64 0))

/-- The indices that sessions hold. -/
def usedSessions (s : State) : List Nat :=
  (s.port.sessions.filter fun e => e.2.kind != .free).map (·.1)

/-- LOT sessions open. -/
def lotSessions (s : State) : Nat :=
  (s.port.sessions.filter fun e => e.2.kind == .lot).length

/-- The index that an OPEN gets (R285, R287, R305, R372, R378): the lowest free one of its range, or none where its limit is
reached, or for a LOT session before step 11. -/
def openIndex (s : State) (q : OpenReq) : Option Nat :=
  if q.kind = 0 then lowestFree (mgmtOpen s) 4
  else if q.kind = 1 ∧ (s.port.inService = false ∨ 1024 ≤ lotSessions s) then none
  else lowestFree (usedSessions s) 2048

/-- A table-log entry of a session (R301, R348), and its mirror record (R354). -/
def logSession (s : State) (i : Nat) (entry : List Byte) : State :=
  mirrorNote (logTable s entry.length) .table (recordKey i 0 (2 ^ 63)) (leBytes 4 entry.length ++ entry ++ leBytes 4 0)

/-- The table-log entry of a LOT session opened (R301). -/
def openEntry (i : Nat) (x : Session) : List Byte :=
  leBytes 1 0x10 ++ leBytes 2 i ++ leBytes 4 x.token.toNat ++ leBytes 6 x.peerMac ++ leBytes 16 x.peerIp ++
  leBytes 2 x.peerPort ++ leBytes 4 x.respWindow

/-- A session put into its index with its hub receive endpoint (R285, R300). -/
def bindSession (s : State) (i : Nat) (x : Session) (tail : Nat) : State :=
  setEp (setSession s i x) (.hub (Fin.ofNat 2048 i)) (freshEndpoint tail 0x3FF)

/-- The session that an OPEN makes (R285 to R287), at an index: with its TOKEN drawn. -/
def openSessionAt (s : State) (f : RxFrame) (q : OpenReq) (signed : Bool) (i : Nat) (token : Word) : State :=
  let x : Session := { token := token, peerMac := answerMac s f, peerIp := f.srcIp, peerPort := q.port, grants := 2 }
  if q.kind = 0 then setMgmt s i (some { token := token, signed := signed })
  else if q.kind = 1 then
    let x := { x with kind := .lot, respWindow := q.window }
    logSession (bindSession s i x 1000) i (openEntry i x)
  else if q.kind = 2 then
    match chuteOpener s f q with
    | some (slot, m) =>
      let g := getGraphSlot s slot
      let tail := (g.live.bind fun g => g.edges[q.edge]?.map (·.tail)).getD 1000
      let x := { x with kind := .chute, peerModule := m, peerSide := s.pwr.config.side, edge := q.edge }
      let s := bindSession s i x tail
      setGraphSlot s slot { g with chutes := g.chutes ++ [(q.edge, .hub (Fin.ofNat 2048 i))] }
    | none => s
  else
    let x := { x with kind := .mirror, peerModule := moduleNum s, peerSide := 1 - s.pwr.config.side }
    bindSession s i x 1000

/-- A MIRROR session that the twin opens again takes the place of the one before (R355). -/
def closeMirror (s : State) (q : OpenReq) : State :=
  match mirrorSession s with
  | some i =>
    if q.kind = 3 then setEp (setSession s i {}) (.hub (Fin.ofNat 2048 i)) {} else s
  | none => s

/-- The body of an OPEN response (R287). -/
def openAnswer (q : OpenReq) (i : Nat) (token : Word) : List Byte :=
  beBytes 2 i ++ beBytes 2 0 ++ beBytes 4 token.toNat ++ beBytes 4 0 ++ beBytes 4 0 ++
  beBytes 4 (if q.kind = 1 ∨ q.kind = 2 then 2 else 0) ++ beBytes 4 0

/-- OPEN executed (R286, R287). -/
def openRun (r : MgmtFrame) (sig : SigVerdict) (s : State) : State :=
  match parseOpen r.body with
  | none => answerMgmt s r stBadRequest []
  | some q =>
    if !openingOk r.header || decide (3 < q.kind) then answerMgmt s r stBadRequest []
    else
      let fresh := nonceFresh s q.nonce
      let s := useNonce s q.nonce
      if !fresh || !openAllowed s r.frame q sig then answerMgmt s r stAuth []
      else if !openFieldsOk q then answerMgmt s r stBadRequest []
      else
        let s := closeMirror s q
        match openIndex s q with
        | none => answerMgmt s r stBusy []
        | some i =>
          let d := drawChoice s
          let token := BitVec.ofNat 32 d.1
          let signed := q.signed && sig.ed && sig.mldsa && enrolled s
          answerMgmt (openSessionAt d.2 r.frame q signed i token) r stOk (openAnswer q i token)

def execOpenSession (req : MgmtFrame) (sig : SigVerdict) (s : State) : Host.Outcome State Fault Refusal :=
  .next (ofOp opOpen s req (openRun req sig))

/-! ## SHUT -/

/-- A number that no closed session of an index has yet. -/
def freshDead (s : State) : Nat :=
  1 + (((s.jnl.lotRing.map (·.dead)) ++ (s.jnl.respLog.map fun r => deadNum r.ctx.index) ++
    (s.dep.jobs.map fun j => deadNum j.ctx.index) ++ (s.dep.waits.map fun w => deadNum w.ctx.index) ++
    s.port.orphans.flatMap fun l => l.map fun c => deadNum c.ctx.index).foldl max 0)

/-- A command's context after its session has closed. -/
def deadCtx (i k : Nat) (c : CmdCtx) : CmdCtx :=
  if c.session.val = i ∧ deadNum c.index = 0 then { c with index := c.index + k * 2 ^ 32 } else c

/-- A journal write in progress after a session has closed: none for a lot not accepted. -/
def deadWrite (i k : Nat) (w : PendingWrite) : Option PendingWrite :=
  match w.use with
  | .lot j _ => if j = i then none else some w
  | .response j lsn index =>
    if j = i ∧ deadNum index = 0 then some { w with use := .response j lsn (index + k * 2 ^ 32) } else some w
  | .piece _ _ _ _ => some w

/-- The records of the lots of a closed session (R305, R347): accepted ones proceed, others are free. -/
def deadRecord (i k : Nat) (r : LotRecord) : LotRecord :=
  if r.session = i ∧ r.dead = 0 ∧ r.piece = none then { r with dead := k, retired := r.retired || !r.accepted } else r

/-- The journal after a session has closed (R305, R347). -/
def deadJournal (i k : Nat) (j : Journal) : Journal :=
  let mine (r : Response) : Bool := r.ctx.session.val == i && deadNum r.ctx.index == 0
  let log := j.respLog.map fun r => if mine r then { r with ctx := deadCtx i k r.ctx, left := true } else r
  { j with
    lotRing := reclaimLots (j.lotRing.map (deadRecord i k))
    respLog := reclaimResps log
    pendingWrites := j.pendingWrites.filterMap (deadWrite i k) }

/-- A LOT session closed (R305): what is accepted proceeds, the rest is discarded and its endpoint reset. -/
def shutLot (s : State) (i : Nat) : State :=
  let k := freshDead s
  let x := getSession s i
  let left := x.backlog.map fun c => { c with ctx := deadCtx i k c.ctx }
  let dep := { s.dep with
    jobs := s.dep.jobs.map fun j => { j with ctx := deadCtx i k j.ctx }
    waits := s.dep.waits.map fun w => { w with ctx := deadCtx i k w.ctx } }
  let port := { s.port with orphans := if left = [] then s.port.orphans else s.port.orphans ++ [left] }
  let s := { s with dep := dep, jnl := deadJournal i k s.jnl, port := port }
  let s := resetChuteOnly s (.hub (Fin.ofNat 2048 i))
  let s := setEp (setSession s i {}) (.hub (Fin.ofNat 2048 i)) {}
  releaseGrants (logSession s i (leBytes 1 0x11 ++ leBytes 2 i))

/-- SHUT executed (R287, R305): a CHUTE or MIRROR session cannot be named. -/
def shutRun (r : MgmtFrame) (s : State) : State :=
  inMgmt s r fun _ =>
    let b := r.body
    let i := beAt b 2 2
    if b.length ≠ 4 ∨ 1 < beAt b 0 1 ∨ beAt b 1 1 ≠ 0 then finishMgmt s r stBadRequest []
    else if beAt b 0 1 = 0 then
      if (getMgmt s i).isSome then finishMgmt (setMgmt s i none) r stOk [] else finishMgmt s r stNoSession []
    else if i < 2048 ∧ (getSession s i).kind = .lot then finishMgmt (shutLot s i) r stOk []
    else if i < 2048 ∧ (getSession s i).kind ≠ .free then finishMgmt s r stBadRequest []
    else finishMgmt s r stNoSession []

def execShut (req : MgmtFrame) (s : State) : Host.Outcome State Fault Refusal :=
  .next (ofOp opShut s req (shutRun req))

/-! ## READ and WRITE -/

/-- The words of a request, with their addresses (R399, R400); a READ has none to write. None where the body breaks its
table, COUNT lies outside 1 to 64, or an address is no register's. -/
def accessPlan (r : MgmtFrame) (write : Bool) : Option (List (Nat × Word)) :=
  let b := r.body
  let addr := beAt b 0 4
  let n := beAt b 4 2
  if 8 ≤ b.length ∧ beAt b 6 2 = 0 ∧ 1 ≤ n ∧ n ≤ 64 ∧ b.length = (if write then 8 + 4 * n else 8) then
    let l := (List.range n).map fun i => (addr + 4 * i, (BitVec.ofNat 32 (if write then beAt b (8 + 4 * i) 4 else 0) : Word))
    if l.all fun p => decide (p.1 < 2 ^ 32) && (locate p.1).isSome then some l else none
  else none

/-- How the accesses of a request end (R320, R401): all made, held on a stopped domain, met by a domain in reset, or cut off
by the end of the session. -/
inductive AccessEnd where
  | done | held | reset | gone
deriving DecidableEq, Repr

/-- Whether a domain's clock runs (R320). -/
def domRuns (s : State) (d : Option DomainId) : Bool :=
  match d with
  | some d => (getDom s d).running
  | none => true

/-- The words of a request accessed one at a time in ascending order (R400). Answers how it ended, the number accessed, the
words read and the state. -/
def accessWords (r : MgmtFrame) (write : Bool) (sig : SigVerdict) :
    List (Nat × Word) → Nat → List Word → State → AccessEnd × Nat × List Word × State
  | [], n, got, s => (.done, n, got, s)
  | (a, v) :: rest, n, got, s =>
    match getMgmt s r.header.session.toNat, locate a with
    | some x, some l =>
      if answers s l.dom then
        if write then accessWords r write sig rest (n + 1) got (writeReg s a l v sig x.signed)
        else
          let w := readReg s a l
          accessWords r write sig rest (n + 1) (got ++ [w.1]) w.2
      else if domRuns s l.dom then (.reset, n, got, s)
      else (.held, n, got, s)
    | _, _ => (.gone, n, got, s)

/-- READ or WRITE executed (R320, R399 to R401, R412). -/
def accessRun (r : MgmtFrame) (write : Bool) (sig : SigVerdict) (s : State) : State :=
  inMgmt s r fun _ =>
    match accessPlan r write with
    | none => finishMgmt s r stBadRequest []
    | some l =>
      match accessWords r write sig l 0 [] s with
      | (.done, n, got, s) =>
        if (getMgmt s r.header.session.toNat).isSome then
          count (finishMgmt s r stOk (accessBody r n got)) 0 Ctr.MG_REQ_CNT 1
        else s
      | (.reset, n, got, s) => finishMgmt s r stBusy (accessBody r n got)
      | (.held, n, got, s) => { s with port := { s.port with held := some { req := r, at_ := n, words := got } } }
      | (.gone, _, _, s) => s

def execRead (req : MgmtFrame) (s : State) : Host.Outcome State Fault Refusal :=
  .next (ofOp opRead s req (accessRun req false ⟨false, false⟩))

def execWrite (req : MgmtFrame) (sig : SigVerdict) (s : State) : Host.Outcome State Fault Refusal :=
  .next (ofOp opWrite s req (accessRun req true sig))

/-! ## ABORT -/

/-- ABORT executed (R306, R399, R401). -/
def abortRun (r : MgmtFrame) (s : State) : State :=
  inMgmt s r fun _ =>
    match s.port.held with
    | some h =>
      if r.body.length = 4 ∧ beNat r.body = h.req.header.reqId.toNat then abandonHeld (finishMgmt s r stOk r.body) h
      else finishMgmt s r stBadRequest []
    | none => finishMgmt s r stBadRequest []

def execAbort (req : MgmtFrame) (s : State) : Host.Outcome State Fault Refusal :=
  .next (ofOp opAbort s req (abortRun req))

/-! ## ANNOUNCE -/

/-- The body of an ANNOUNCE (R379). -/
def announceBody (s : State) : List Byte :=
  beBytes 2 (moduleNum s) ++ beBytes 1 s.pwr.config.side ++ beBytes 1 s.pwr.startKind ++ beBytes 6 s.pwr.mac ++
  beBytes 2 0 ++ beBytes 4 (imgStatus s).toNat ++ beBytes 8 s.clk.now

/-- The address that a configured one stands for: an IPv4-mapped one is the IPv4 address in its low bits (R371). -/
def unmapIp (a : Nat) : Nat :=
  if a / 2 ^ 32 = 0xFFFF then a % 2 ^ 32 else a

/-- ANNOUNCE (R379): in service, with both fields set, up to 60 times, until a HELLO has come from that address. -/
def announce (s : State) : State :=
  let c := s.pwr.config
  if s.port.inService && c.announcePort != 0 && c.nextHopMac != 0 && !s.pwr.announceStop && decide (s.pwr.announced < 60) then
    let f : TxFrame :=
      { cls := .management, dstMac := c.nextHopMac, dstIp := unmapIp c.announceAddr, dstPort := c.announcePort,
        pcp := c.pcpMgmt, dry := s.clk.now, body := .mgmt opAnnounce 0 0 0 (announceBody s) }
    pushTx { s with pwr := { s.pwr with announced := s.pwr.announced + 1 } } f
  else s

def execAnnounce (s : State) : Host.Outcome State Fault Refusal :=
  .next (announce s)

end Sys2Proof.Machine
end

