-- ==== Sys2Proof/Machine/Merge.lean ====
section
/-! DEFINITION. The jig's merges (R86 to R90). -/

namespace Sys2Proof.Machine

/-! ## Streams -/

/-- A sparse row or column as the jig reads it (R86, R90): indices with the places of their values, and what its pointers
and indices break. -/
structure Stream where
  entries : List (Nat × Nat)
  read : Nat
  oob : Nat := 0
  breaks : Nat := 0
  descends : Bool := false
deriving DecidableEq, Repr

/-- How many indices of a stream are not greater than the one before (R90). -/
def descents : List (Nat × Nat) → Nat
  | a :: b :: r => (if a.1 < b.1 then 0 else 1) + descents (b :: r)
  | _ => 0

/-- The pointers, indices and values of a sparse operand (R86), each with its entries on this module (R198). -/
structure SparseOp where
  ptr : Desc
  idx : Desc
  val : Desc
  ptrs : Nat
  idxs : Nat
  vals : Nat
deriving DecidableEq, Repr

/-- Pointer `j` of a sparse operand; 0 beyond its tensor. -/
def pointerAt (s : State) (o : SparseOp) (j : Nat) : Nat :=
  if j < o.ptrs then elemBits s o.ptr [j] else 0

/-- Row (or column) `i` of a sparse operand (R86, R90). A reversed pointer pair makes it empty whatever lies beyond the
tensors, and counts once (log entry 123). -/
def readStream (s : State) (o : SparseOp) (i k : Nat) : Stream :=
  let a := pointerAt s o i
  let b := pointerAt s o (i + 1)
  if b < a then { entries := [], read := 0, breaks := 1 }
  else
    let cap := min o.idxs o.vals
    let cut := cap < b
    let raw := (List.range (min b cap - a)).map fun j => (elemBits s o.idx [a + j], a + j)
    let n := descents raw
    { entries := raw.filter fun e => e.1 < k, read := raw.length,
      oob := (raw.filter fun e => k ≤ e.1).length + bitOf cut, breaks := n, descends := n != 0 }

/-! ## Products and sums -/

/-- The matched pairs of two streams in ascending order of index: places of the values (R88). -/
def matchPairs : Nat → List (Nat × Nat) → List (Nat × Nat) → List (Nat × Nat)
  | 0, _, _ => []
  | _, [], _ => []
  | _, _, [] => []
  | fuel + 1, a :: as, b :: bs =>
    if a.1 = b.1 then (a.2, b.2) :: matchPairs fuel as bs
    else if a.1 < b.1 then matchPairs fuel as (b :: bs)
    else matchPairs fuel (a :: as) bs

/-- One lane of the merge order of additions over FP32 values (R88). -/
def mergeLane (f : Word → Word → Word) (zero : Word) (prods : List Word) (lane : Nat) : Word :=
  ((List.range prods.length).filter fun m => m % 8 == lane).foldl (fun acc m => f acc (prods.getD m 0)) zero

/-- The sum of the eight lanes (R88). -/
def mergeSum (f : Word → Word → Word) (zero : Word) (prods : List Word) : Word :=
  let l := mergeLane f zero prods
  f (f (f (l 0) (l 1)) (f (l 2) (l 3))) (f (f (l 4) (l 5)) (f (l 6) (l 7)))

/-- The product of a matched pair (R88): FP32, or the exact 32-bit product of INT8 values. -/
def pairProduct (s : State) (a b : Desc) (p : Nat × Nat) : Word :=
  if a.format = fmtInt8 then
    BitVec.ofInt 32 (signedOf 8 (elemBits s a [p.1]) * signedOf 8 (elemBits s b [p.2]))
  else BitVec.ofNat 32 (encodeF fp32 .rne (mulF (elemValue s a [p.1]) (elemValue s b [p.2])))

/-- The addition of the merge order (R88): FP32 to nearest even, INT32 modulo 2^32. -/
def mergeAdd (int : Bool) (a b : Word) : Word :=
  if int then a + b else addLane .fp32 .rne a b

/-- The element of C for a row and a column (R87, R88). -/
def mergeElement (s : State) (a b : Desc) (x y : Stream) : Word :=
  mergeSum (mergeAdd (a.format == fmtInt8)) 0
    ((matchPairs (x.entries.length + y.entries.length) x.entries y.entries).map (pairProduct s a b))

/-! ## MERGE -/

/-- The counters of a merge (R89, R90, R170, R174): matches, faults, and busy cycles within the bounds of R89, in which the
merge holds a lane group of the vector engine (R168, log entry 124). -/
def countMerge (s : State) (t : SlotId) (x y : Stream) (pairs : Nat) : State :=
  let b := spRegBase t.core
  let s := count s b Ctr.JIG_MATCH_CNT pairs
  let lo := (max x.read y.read + 7) / 8
  let hi := (x.read + 7) / 8 + (y.read + 7) / 8
  let (n, s) := drawChoice s
  let cycles := lo + n % (hi - lo + 1)
  let s := veDone (count s b Ctr.JIG_BUSY_CNT cycles) t.core cycles
  let oob := x.oob + y.oob
  let brk := x.breaks + y.breaks
  let s := if oob = 0 then s else slotCount (raise (count s b Ctr.SP_IDX_OOB_CNT oob) b Flag.sp_IDX_OOB) t cntIdxOob oob
  if brk = 0 then s
  else slotCount (raise (count s b Ctr.SP_ORDER_BREAK_CNT brk) b Flag.sp_ORDER_BREAK) t cntOrderBreak brk

/-- Operand `k` of a MERGE task: the three tensors of its list (R86). -/
def sparseOp (s : State) (c : TaskCtx) (k : Nat) : Option SparseOp :=
  match (operandSlots c.image (operandOf c.image c.node k)).map (descAt s) with
  | [some p, some i, some v] =>
    let here (d : Desc) : Nat := extentHere s c.image d 0
    some ⟨p, i, v, here p, here i, here v⟩
  | _ => none

/-- The operands of a MERGE whose element lies in the output tile of its task (R86, R268). -/
def mergeOps (s : State) (m : MergeSpec) : Option (SparseOp × SparseOp) :=
  match taskCtx s m.at_ with
  | some c =>
    if c.node.op = 0x03 ∧ m.row / 64 = c.task.rowTile ∧ m.col / 64 = c.task.colTile then
      match sparseOp s c 0, sparseOp s c 1 with
      | some a, some b => if m.row + 1 < a.ptrs ∧ m.col + 1 < b.ptrs then some (a, b) else none
      | _, _ => none
    else none
  | none => none

/-- MERGE (R86 to R90): one output element into scratch; an element of a stream that breaks order is open. -/
def mergeCmd (s : State) (m : MergeSpec) (a b : SparseOp) : State :=
  let x := readStream s a m.row m.lenK
  let y := readStream s b m.col m.lenK
  let pairs := matchPairs (x.entries.length + y.entries.length) x.entries y.entries
  let open_ := x.descends || y.descends
  let v := if open_ then Config.mergeOpen s.freeCount else mergeElement s a.val b.val x y
  let s := if open_ then { s with freeCount := s.freeCount + 1 } else s
  afterPoison s m.at_ (partialPoison s m.at_.core m.dst 4) fun s =>
    writeWindow (countMerge s m.at_ x y pairs.length) m.at_.core m.dst (wordBytes [v])

def execMerge (m : MergeSpec) (s : State) : Host.Outcome State Fault Refusal :=
  onUnit .jig m.at_ (fun s =>
    match mergeOps s m with
    | some (a, b) => mergeCmd s m a b
    | none => s) s

end Sys2Proof.Machine
end

