-- ==== Sys2Proof/Machine/Vector.lean ====
section
/-! DEFINITION. The vector engine (R168 to R173): one meaning per instruction. An instruction acts while the engine works on a
command of its task (R159, R163). -/

namespace Sys2Proof.Machine

/-! ## Meanings: arithmetic, logic, compare, special, reduction -/

/-- The result of an instruction that works on lanes: `lanes` of the state go to register `dst` (R159, R161, R174). -/
def veLanes (t : SlotId) (dst : VReg) (lanes : State → List Word) (cycles : Nat) (s : State) :
    Host.Outcome State Fault Refusal :=
  onUnit .vector t (fun s => veResult s t dst (lanes s) cycles) s

/-- The result of an instruction with two sources. -/
def veBin (o : VeBin) (f : Word → Word → Word) (cycles : Nat) (s : State) : Host.Outcome State Fault Refusal :=
  veLanes o.at_ o.dst (fun s => lanes2 f (getLanes s o.at_ o.a) (getLanes s o.at_ o.b)) cycles s

/-- The result of an instruction with one source. -/
def veUn (o : VeUn) (f : Word → Word) (cycles : Nat) (s : State) : Host.Outcome State Fault Refusal :=
  veLanes o.at_ o.dst (fun s => (getLanes s o.at_ o.a).map f) cycles s

/-- The result of an instruction over INT32 lanes. -/
def veLogic (o : VeLogic) (f : Word → Word → Word) (s : State) : Host.Outcome State Fault Refusal :=
  veLanes o.at_ o.dst (fun s => lanes2 f (getLanes s o.at_ o.a) (getLanes s o.at_ o.b)) 1 s

/-- The result of a special instruction, 16 lanes per KCLK cycle (R170). -/
def veSpecial (o : VeSpecial) (f : Word → Word) (s : State) : Host.Outcome State Fault Refusal :=
  veLanes o.at_ o.dst (fun s => (getLanes s o.at_ o.a).map f) 4 s

/-- The result of a reduction, 8 KCLK cycles (R170). -/
def veReduce (o : VeUn) (f : Word → Word → Word) (s : State) : Host.Outcome State Fault Refusal :=
  veLanes o.at_ o.dst (fun s => reduceLanes f (getLanes s o.at_ o.a)) 8 s

/-- KCLK cycles of CMP and SEL, 64 elements each (R170): a packed register holds 128 (R168). -/
def compareCycles (fmt : VeFormat) : Nat :=
  if vePacked fmt then 2 else 1

/-- ADD (R169, R170). -/
def execVeAdd (o : VeBin) (s : State) : Host.Outcome State Fault Refusal :=
  veBin o (addLane o.fmt o.rnd) 1 s

/-- SUB (R169, R170). -/
def execVeSub (o : VeBin) (s : State) : Host.Outcome State Fault Refusal :=
  veBin o (subLane o.fmt o.rnd) 1 s

/-- MUL (R169, R170). -/
def execVeMul (o : VeBin) (s : State) : Host.Outcome State Fault Refusal :=
  veBin o (mulLane o.fmt o.rnd) 1 s

/-- FMA (R169, R170). -/
def execVeFma (o : VeBin) (c : VReg) (s : State) : Host.Outcome State Fault Refusal :=
  veLanes o.at_ o.dst
    (fun s => lanes3 (fmaLane o.fmt o.rnd) (getLanes s o.at_ o.a) (getLanes s o.at_ o.b) (getLanes s o.at_ c)) 1 s

/-- MIN (R170). -/
def execVeMin (o : VeBin) (s : State) : Host.Outcome State Fault Refusal :=
  veBin o (minMaxLane 4 o.fmt) 1 s

/-- MAX (R170). -/
def execVeMax (o : VeBin) (s : State) : Host.Outcome State Fault Refusal :=
  veBin o (minMaxLane 5 o.fmt) 1 s

/-- ABS (R170). -/
def execVeAbs (o : VeUn) (s : State) : Host.Outcome State Fault Refusal :=
  veUn o (absNegLane false o.fmt) 1 s

/-- NEG (R170). -/
def execVeNeg (o : VeUn) (s : State) : Host.Outcome State Fault Refusal :=
  veUn o (absNegLane true o.fmt) 1 s

/-- DOT4 (R168, R170). -/
def execVeDot4 (o : VeLogic) (s : State) : Host.Outcome State Fault Refusal :=
  veLanes o.at_ o.dst
    (fun s => lanes3 dot4Lane (getLanes s o.at_ o.dst) (getLanes s o.at_ o.a) (getLanes s o.at_ o.b)) 1 s

/-- AND (R170). -/
def execVeAnd (o : VeLogic) (s : State) : Host.Outcome State Fault Refusal :=
  veLogic o (fun a b => a &&& b) s

/-- OR (R170). -/
def execVeOr (o : VeLogic) (s : State) : Host.Outcome State Fault Refusal :=
  veLogic o (fun a b => a ||| b) s

/-- XOR (R170). -/
def execVeXor (o : VeLogic) (s : State) : Host.Outcome State Fault Refusal :=
  veLogic o (fun a b => a ^^^ b) s

/-- NOT (R170); its second source is not used. -/
def execVeNot (o : VeLogic) (s : State) : Host.Outcome State Fault Refusal :=
  veLogic o (fun a _ => ~~~a) s

/-- SHL (R170). -/
def execVeShl (o : VeLogic) (s : State) : Host.Outcome State Fault Refusal :=
  veLogic o (shiftLane 0) s

/-- SHR (R170). -/
def execVeShr (o : VeLogic) (s : State) : Host.Outcome State Fault Refusal :=
  veLogic o (shiftLane 1) s

/-- SAR (R170). -/
def execVeSar (o : VeLogic) (s : State) : Host.Outcome State Fault Refusal :=
  veLogic o (shiftLane 2) s

/-- CMP (R170). -/
def execVeCmp (o : VeBin) (rel : CmpRel) (s : State) : Host.Outcome State Fault Refusal :=
  veBin o (cmpLane o.fmt rel) (compareCycles o.fmt) s

/-- SEL (R170). -/
def execVeSel (o : VeBin) (c : VReg) (s : State) : Host.Outcome State Fault Refusal :=
  veLanes o.at_ o.dst
    (fun s => lanes3 (selLane o.fmt) (getLanes s o.at_ o.a) (getLanes s o.at_ o.b) (getLanes s o.at_ c))
    (compareCycles o.fmt) s

/-- RCP (R171). -/
def execVeRcp (o : VeSpecial) (s : State) : Host.Outcome State Fault Refusal :=
  veSpecial o (specialF .rcp o.rnd) s

/-- RSQRT (R171). -/
def execVeRsqrt (o : VeSpecial) (s : State) : Host.Outcome State Fault Refusal :=
  veSpecial o (specialF .rsqrt o.rnd) s

/-- SQRT (R171). -/
def execVeSqrt (o : VeSpecial) (s : State) : Host.Outcome State Fault Refusal :=
  veSpecial o (sqrtLane o.rnd) s

/-- DIV (R171). -/
def execVeDiv (o : VeBin) (s : State) : Host.Outcome State Fault Refusal :=
  veBin o (divLane o.fmt o.rnd) 4 s

/-- EXP2 (R171). -/
def execVeExp2 (o : VeSpecial) (s : State) : Host.Outcome State Fault Refusal :=
  veSpecial o (specialF .exp2 o.rnd) s

/-- LOG2 (R171). -/
def execVeLog2 (o : VeSpecial) (s : State) : Host.Outcome State Fault Refusal :=
  veSpecial o (specialF .log2 o.rnd) s

/-- TANH (R171). -/
def execVeTanh (o : VeSpecial) (s : State) : Host.Outcome State Fault Refusal :=
  veSpecial o (specialF .tanh o.rnd) s

/-- ERF (R171). -/
def execVeErf (o : VeSpecial) (s : State) : Host.Outcome State Fault Refusal :=
  veSpecial o (specialF .erf o.rnd) s

/-- REDSUM (R172). -/
def execVeRedsum (o : VeUn) (s : State) : Host.Outcome State Fault Refusal :=
  veReduce o (addLane o.fmt o.rnd) s

/-- REDMAX (R172). -/
def execVeRedmax (o : VeUn) (s : State) : Host.Outcome State Fault Refusal :=
  veReduce o (redLane true o.fmt) s

/-- REDMIN (R172). -/
def execVeRedmin (o : VeUn) (s : State) : Host.Outcome State Fault Refusal :=
  veReduce o (redLane false o.fmt) s

/-! ## Meanings: scratch and indexed -/

/-- LD: 64 lanes from eight lines of scratch (R158, R168, R170). -/
def execVeLd (t : SlotId) (dst : VReg) (offset : Nat) (s : State) : Host.Outcome State Fault Refusal :=
  onWindow t (fun _ => [(offset, 256)]) (fun s =>
    let bs := takeWindow s t.core offset 256
    afterPoison s t (poisonedIn s t.core offset 256) fun s => veResult s t dst (leWords bs) 1) s

/-- ST: 64 lanes into eight lines of scratch (R158, R168, R170); a write to an open vat tile is discarded (R96). -/
def execVeSt (t : SlotId) (src : VReg) (offset : Nat) (s : State) : Host.Outcome State Fault Refusal :=
  onWindow t (fun _ => [(offset, 256)]) (fun s =>
    let bs := wordBytes (getLanes s t src)
    afterPoison s t (partialPoison s t.core offset 256) fun s =>
      veDone (writeWindow s t.core offset bs) t.core 1) s

/-- KCLK cycles of an indexed instruction: at most one line per bank per cycle (R155, R170). -/
def indexedCycles (idx : List Word) (region n : Nat) : Nat :=
  let lines := ((idx.filter fun i => i.toNat < n).map fun i => (region + 4 * i.toNat) / 32).eraseDups
  let banks := lines.map fun l => (l + l / 32) % 32
  max 1 ((List.range 32).foldl (fun m b => max m (banks.count b)) 0)

/-- The poisoned words among the elements that indices name in a region. -/
def indexedPoison (s : State) (c : CoreId) (idx : List Word) (region n : Nat) : List Nat :=
  ((idx.filter fun i => i.toNat < n).flatMap fun i => poisonedIn s c (region + 4 * i.toNat) 4).eraseDups

/-- The elements of its region that an indexed instruction accesses, as ranges of the core window. -/
def indexedRanges (o : VeIndexed) (s : State) : List (Nat × Nat) :=
  ((getLanes s o.at_ o.index).filter fun i => i.toNat < o.count).map fun i => (o.region + 4 * i.toNat, 4)

/-- GATHER (R158, R173): element `index` of the region, or the fill value. -/
def execVeGather (o : VeIndexed) (s : State) : Host.Outcome State Fault Refusal :=
  onWindow o.at_ (indexedRanges o) (fun s =>
    let c := o.at_.core
    let idx := getLanes s o.at_ o.index
    let lanes := idx.map fun i =>
      if i.toNat < o.count then BitVec.ofNat 32 (leNat (takeWindow s c (o.region + 4 * i.toNat) 4)) else o.fill
    afterPoison s o.at_ (indexedPoison s c idx o.region o.count) fun s =>
      veOob (veResult s o.at_ o.data lanes (indexedCycles idx o.region o.count)) o.at_ (oobCount idx o.count)) s

/-- The writes of SCATTER in ascending lane order (R173). -/
def scatterLanes (s : State) (c : CoreId) (region n : Nat) (f : Word → Word → Word) :
    List (Word × Word) → State
  | [] => s
  | (i, v) :: r =>
    if i.toNat < n then
      let off := region + 4 * i.toNat
      let old := BitVec.ofNat 32 (leNat (readWindow s c off 4))
      scatterLanes (writeWindow s c off (leBytes 4 (f old v).toNat)) c region n f r
    else scatterLanes s c region n f r

/-- A scatter with the function that joins the stored element and the lane. An element is half a word, which is read to be
written (R158). -/
def veScatterWith (f : Word → Word → Word) (o : VeIndexed) (s : State) : Host.Outcome State Fault Refusal :=
  onWindow o.at_ (indexedRanges o) (fun s =>
    let c := o.at_.core
    let idx := getLanes s o.at_ o.index
    let data := getLanes s o.at_ o.data
    afterPoison s o.at_ (indexedPoison s c idx o.region o.count) fun s =>
      let t := scatterLanes s c o.region o.count f (idx.zip data)
      veOob (veDone t c (indexedCycles idx o.region o.count)) o.at_ (oobCount idx o.count)) s

/-- SCATTER (R173): the highest of the lanes that name one element wins. -/
def execVeScatter (o : VeIndexed) (s : State) : Host.Outcome State Fault Refusal :=
  veScatterWith (fun _ v => v) o s

/-- SCATTER.ADD (R173): FP32, RNE, in ascending lane order. -/
def execVeScatterAdd (o : VeIndexed) (s : State) : Host.Outcome State Fault Refusal :=
  veScatterWith (fun old v => addLane .fp32 .rne old v) o s

/-! ## Meanings: CVT -/

/-- The value of element `k` of a bundle (R12 to R15). -/
def bundleValue (f : Nat) (bs : List Byte) (k : Nat) : FVal :=
  scaleVal (bundleScale bs (k / 32)) (elemVal f (bundleElem f bs k))

/-- The 64 values of a CVT's source; none while a vat tile is absent or not closed (R96). The padding of a bundle is zero,
whatever its bits and its scale (R17). -/
def cvtSource (s : State) (t : SlotId) (padded : List Nat) : CvtSrc → Option (List FVal)
  | .reg v f =>
    let lanes := getLanes s t v
    some ((List.range 64).map fun i => elemVal f (regElem f lanes i))
  | .vat tile row =>
    match findTile s t.core tile with
    | some x => if x.isOpen then none else some ((List.range 64).map fun n => vatEntryVal x (64 * row + n))
    | none => none
  | .bundle off f pair =>
    let bs := takeWindow s t.core off (unitBytes f)
    some ((List.range 64).map fun i =>
      if padded.contains i then .fin false 0 0 else bundleValue f bs (64 * pair.val + i))

/-- The poisoned words that a CVT's source reads. -/
def cvtPoison (s : State) (t : SlotId) : CvtSrc → List Nat
  | .bundle off f _ => poisonedIn s t.core off (unitBytes f)
  | _ => []

/-- A block of a CVT into a bundle written: none of its bytes when no position of it is live (R414), zeros and scale 0x00
when all are padding (R17). -/
def cvtStoreBlock (s : State) (t : SlotId) (off f blk : Nat) (mods : CvtMod) (vals : List FVal)
    (dead padded : List Nat) : State :=
  let w := elemWidth f
  let opts := (List.range 32).map fun i =>
    if dead.contains i || padded.contains i then none else some (vals.getD i .nan)
  if (List.range 32).all padded.contains then
    writeWindow (writeWindow s t.core (off + blk) [0]) t.core (off + 8 + 4 * w * blk) (List.replicate (4 * w) 0)
  else if opts.all Option.isNone then s
  else
    let r := cvtBlock f mods opts
    let s := writeWindow s t.core (off + blk) [BitVec.ofNat 8 r.1]
    cvtCountCore (writeWindow s t.core (off + 8 + 4 * w * blk) (packBlock w r.2.1)) t r.2.2

/-- The register a CVT into a scalar format leaves: live elements converted, padding zero (R17), the other bits as before. -/
def cvtLanes (f : Nat) (mods : CvtMod) (vals : List FVal) (old : List Word) (cover : CvtCover) :
    List Word × CvtCounts :=
  let w := elemWidth f
  let rs := (List.range 64).map fun i =>
    if cover.padded.contains i then (0, ({} : CvtCounts))
    else if cover.dead.contains i then (regElem f old i, {})
    else cvtScalar f mods (vals.getD i .nan)
  let low := leBytes (64 * w / 8) (packNat w (rs.map (·.1)))
  (leWords (low ++ (wordBytes old).drop (64 * w / 8)), rs.foldl (fun c r => c.add r.2) {})

/-- Offsets in 0 to 31 of the positions of a list that lie in block `b`. -/
def inBlock (l : List Nat) (b : Nat) : List Nat :=
  (l.filter fun i => i / 32 == b).map (· % 32)

/-- The result of a CVT stored: one KCLK cycle for 64 elements (R170). -/
def cvtStore (s : State) (t : SlotId) (dst : CvtDst) (mods : CvtMod) (cover : CvtCover) (vals : List FVal) : State :=
  match dst with
  | .reg v f =>
    let r := cvtLanes f mods vals (getLanes s t v) cover
    cvtCountCore (veResult s t v r.1 1) t r.2
  | .bundle off f pair =>
    let b := 2 * pair.val
    let s := cvtStoreBlock s t off f b mods (vals.take 32) (inBlock cover.dead 0) (inBlock cover.padded 0)
    let s := cvtStoreBlock s t off f (b + 1) mods (vals.drop 32) (inBlock cover.dead 1) (inBlock cover.padded 1)
    veDone s t.core 1

/-- The bundles that a CVT reads and writes, as ranges of the core window. -/
def cvtRanges (src : CvtSrc) (dst : CvtDst) : List (Nat × Nat) :=
  (match src with | .bundle off f _ => [(off, unitBytes f)] | _ => []) ++
  (match dst with | .bundle off f _ => [(off, unitBytes f)] | .reg _ _ => [])

/-- CVT (R17, R27 to R32, R158, R168, R170). -/
def execVeCvt (t : SlotId) (src : CvtSrc) (dst : CvtDst) (mods : CvtMod) (cover : CvtCover) (s : State) :
    Host.Outcome State Fault Refusal :=
  onWindow t (fun _ => cvtRanges src dst) (fun s =>
    match cvtSource s t cover.padded src with
    | none => s
    | some vals =>
      afterPoison s t (cvtPoison s t src) fun s => cvtStore s t dst mods cover vals) s

end Sys2Proof.Machine
end

