-- ==== Sys2Proof/Machine/Dispatch.lean ====
section
/-! DEFINITION. One arm per command: a direct call of its meaning. -/

namespace Sys2Proof.Machine

/-- The effect of a command on everything but the queue. -/
def exec (i : Instr) (s : State) : Host.Outcome State Fault Refusal :=
  match i with
  | .alloc ctx seam size => Sys2Proof.Machine.execAlloc ctx seam size s
  | .free ctx base => Sys2Proof.Machine.execFree ctx base s
  | .allocationRelease base => Sys2Proof.Machine.execAllocationRelease base s
  | .descCreate ctx record => Sys2Proof.Machine.execDescCreate ctx record s
  | .descDestroy ctx handle => Sys2Proof.Machine.execDescDestroy ctx handle s
  | .descriptorDestroyed index => Sys2Proof.Machine.execDescriptorDestroyed index s
  | .put ctx addr data => Sys2Proof.Machine.execPut ctx addr data s
  | .get ctx addr len => Sys2Proof.Machine.execGet ctx addr len s
  | .graphLoad ctx addr len => Sys2Proof.Machine.execGraphLoad ctx addr len s
  | .graphUnload ctx handle => Sys2Proof.Machine.execGraphUnload ctx handle s
  | .run ctx handle jobId record => Sys2Proof.Machine.execRun ctx handle jobId record s
  | .cancel ctx jobId => Sys2Proof.Machine.execCancel ctx jobId s
  | .jobStart job => Sys2Proof.Machine.execJobStart job s
  | .nodeStart job node plan => Sys2Proof.Machine.execNodeStart job node plan s
  | .jobComplete job => Sys2Proof.Machine.execJobComplete job s
  | .fetchAndAdd seam counter who => Sys2Proof.Machine.execFetchAndAdd seam counter who s
  | .taskComplete seam counter index slot => Sys2Proof.Machine.execTaskComplete seam counter index slot s
  | .taskLoad slot spec => Sys2Proof.Machine.execTaskLoad slot spec s
  | .commandIssue slot unit completed => Sys2Proof.Machine.execCommandIssue slot unit completed s
  | .taskSwitch core cause => Sys2Proof.Machine.execTaskSwitch core cause s
  | .taskAbort slot => Sys2Proof.Machine.execTaskAbort slot s
  | .chargeStart array slot cmd => Sys2Proof.Machine.execChargeStart array slot cmd s
  | .weightTileLoad array slot cmd image => Sys2Proof.Machine.execWeightTileLoad array slot cmd image s
  | .vectorSchedule array record => Sys2Proof.Machine.execVectorSchedule array record s
  | .idleSlot array => Sys2Proof.Machine.execIdleSlot array s
  | .arrayFreeze array => Sys2Proof.Machine.execArrayFreeze array s
  | .drainPartial array upsets => Sys2Proof.Machine.execDrainPartial array upsets s
  | .vatAccept array => Sys2Proof.Machine.execVatAccept array s
  | .x64Shift array => Sys2Proof.Machine.execX64Shift array s
  | .x64Loss array => Sys2Proof.Machine.execX64Loss array s
  | .tileOpen slot rt ct assay => Sys2Proof.Machine.execTileOpen slot rt ct assay s
  | .tileInitDone core tile => Sys2Proof.Machine.execTileInitDone core tile s
  | .tileClose core tile => Sys2Proof.Machine.execTileClose core tile s
  | .partCombine core left right => Sys2Proof.Machine.execPartCombine core left right s
  | .vatSave core tile offset => Sys2Proof.Machine.execVatSave core tile offset s
  | .vatRestore slot rt ct assay offset => Sys2Proof.Machine.execVatRestore slot rt ct assay offset s
  | .scratchAccess core requests => Sys2Proof.Machine.execScratchAccess core requests s
  | .scratchStarvePromote core bank who => Sys2Proof.Machine.execScratchStarvePromote core bank who s
  | .veAdd o => Sys2Proof.Machine.execVeAdd o s
  | .veSub o => Sys2Proof.Machine.execVeSub o s
  | .veMul o => Sys2Proof.Machine.execVeMul o s
  | .veFma o c => Sys2Proof.Machine.execVeFma o c s
  | .veMin o => Sys2Proof.Machine.execVeMin o s
  | .veMax o => Sys2Proof.Machine.execVeMax o s
  | .veAbs o => Sys2Proof.Machine.execVeAbs o s
  | .veNeg o => Sys2Proof.Machine.execVeNeg o s
  | .veDot4 o => Sys2Proof.Machine.execVeDot4 o s
  | .veAnd o => Sys2Proof.Machine.execVeAnd o s
  | .veOr o => Sys2Proof.Machine.execVeOr o s
  | .veXor o => Sys2Proof.Machine.execVeXor o s
  | .veNot o => Sys2Proof.Machine.execVeNot o s
  | .veShl o => Sys2Proof.Machine.execVeShl o s
  | .veShr o => Sys2Proof.Machine.execVeShr o s
  | .veSar o => Sys2Proof.Machine.execVeSar o s
  | .veCmp o rel => Sys2Proof.Machine.execVeCmp o rel s
  | .veSel o c => Sys2Proof.Machine.execVeSel o c s
  | .veRcp o => Sys2Proof.Machine.execVeRcp o s
  | .veRsqrt o => Sys2Proof.Machine.execVeRsqrt o s
  | .veSqrt o => Sys2Proof.Machine.execVeSqrt o s
  | .veDiv o => Sys2Proof.Machine.execVeDiv o s
  | .veExp2 o => Sys2Proof.Machine.execVeExp2 o s
  | .veLog2 o => Sys2Proof.Machine.execVeLog2 o s
  | .veTanh o => Sys2Proof.Machine.execVeTanh o s
  | .veErf o => Sys2Proof.Machine.execVeErf o s
  | .veRedsum o => Sys2Proof.Machine.execVeRedsum o s
  | .veRedmax o => Sys2Proof.Machine.execVeRedmax o s
  | .veRedmin o => Sys2Proof.Machine.execVeRedmin o s
  | .veCvt at_ src dst mods cover => Sys2Proof.Machine.execVeCvt at_ src dst mods cover s
  | .veLd at_ dst offset => Sys2Proof.Machine.execVeLd at_ dst offset s
  | .veSt at_ src offset => Sys2Proof.Machine.execVeSt at_ src offset s
  | .veGather o => Sys2Proof.Machine.execVeGather o s
  | .veScatter o => Sys2Proof.Machine.execVeScatter o s
  | .veScatterAdd o => Sys2Proof.Machine.execVeScatterAdd o s
  | .merge m => Sys2Proof.Machine.execMerge m s
  | .aditColumnGroup unit counter index core upsets untranslated => Sys2Proof.Machine.execAditColumnGroup unit counter index core upsets untranslated s
  | .aditProbe graph node => Sys2Proof.Machine.execAditProbe graph node s
  | .assayPass array record => Sys2Proof.Machine.execAssayPass array record s
  | .assayBound slot rt ct => Sys2Proof.Machine.execAssayBound slot rt ct s
  | .assayAudit slot rt ct row => Sys2Proof.Machine.execAssayAudit slot rt ct row s
  | .assaySumsRecompute core table => Sys2Proof.Machine.execAssaySumsRecompute core table s
  | .hoistCommand queue cmd => Sys2Proof.Machine.execHoistCommand queue cmd s
  | .copy queue src dst perm dry => Sys2Proof.Machine.execCopy queue src dst perm dry s
  | .hoistGather queue src idx dst dim dry => Sys2Proof.Machine.execHoistGather queue src idx dst dim dry s
  | .hoistScatter queue src idx dst dim dry => Sys2Proof.Machine.execHoistScatter queue src idx dst dim dry s
  | .hoistScatterAdd queue job node task src idx dst dim first count => Sys2Proof.Machine.execHoistScatterAdd queue job node task src idx dst dim first count s
  | .scatterAddCommit job node task => Sys2Proof.Machine.execScatterAddCommit job node task s
  | .broadcast queue cars => Sys2Proof.Machine.execBroadcast queue cars s
  | .segmentIssue seam hoist untranslated => Sys2Proof.Machine.execSegmentIssue seam hoist untranslated s
  | .segmentComplete queue segment poisoned => Sys2Proof.Machine.execSegmentComplete queue segment poisoned s
  | .descriptorBatchFetch queue cmds => Sys2Proof.Machine.execDescriptorBatchFetch queue cmds s
  | .doorbell queue cmds => Sys2Proof.Machine.execDoorbell queue cmds s
  | .descriptorRefetchTimeout queue cmds => Sys2Proof.Machine.execDescriptorRefetchTimeout queue cmds s
  | .dramSlot chan errors => Sys2Proof.Machine.execDramSlot chan errors s
  | .scrub chan => Sys2Proof.Machine.execScrub chan s
  | .refresh chan => Sys2Proof.Machine.execRefresh chan s
  | .linkWord seam dir waiting ecc => Sys2Proof.Machine.execLinkWord seam dir waiting ecc s
  | .packetCommit ep packet => Sys2Proof.Machine.execPacketCommit ep packet s
  | .commitReceived ep => Sys2Proof.Machine.execCommitReceived ep s
  | .rewoundReceived ep => Sys2Proof.Machine.execRewoundReceived ep s
  | .grantReceived ep => Sys2Proof.Machine.execGrantReceived ep s
  | .consumerRead ep addr len poisoned => Sys2Proof.Machine.execConsumerRead ep addr len poisoned s
  | .closeMark ep => Sys2Proof.Machine.execCloseMark ep s
  | .fillTimerExpiry ep => Sys2Proof.Machine.execFillTimerExpiry ep s
  | .tailNotice ep => Sys2Proof.Machine.execTailNotice ep s
  | .readTimerExpiry ep => Sys2Proof.Machine.execReadTimerExpiry ep s
  | .chuteReset ep => Sys2Proof.Machine.execChuteReset ep s
  | .carHop core car injected ecc => Sys2Proof.Machine.execCarHop core car injected ecc s
  | .tramStall core => Sys2Proof.Machine.execTramStall core s
  | .hello req => Sys2Proof.Machine.execHello req s
  | .openSession req sig => Sys2Proof.Machine.execOpenSession req sig s
  | .shut req => Sys2Proof.Machine.execShut req s
  | .mgmtFrameReceive req => Sys2Proof.Machine.execMgmtFrameReceive req s
  | .read req => Sys2Proof.Machine.execRead req s
  | .write req sig => Sys2Proof.Machine.execWrite req sig s
  | .abort req => Sys2Proof.Machine.execAbort req s
  | .announce => Sys2Proof.Machine.execAnnounce s
  | .hqCfgWrite queue value => Sys2Proof.Machine.execHqCfgWrite queue value s
  | .chCtrlReset ep value => Sys2Proof.Machine.execChCtrlReset ep value s
  | .depCtrlWarm value => Sys2Proof.Machine.execDepCtrlWarm value s
  | .depCtrlRestoreSkip value => Sys2Proof.Machine.execDepCtrlRestoreSkip value s
  | .program value => Sys2Proof.Machine.execProgram value s
  | .verify value => Sys2Proof.Machine.execVerify value s
  | .imgProgDone ok errCode verdict => Sys2Proof.Machine.execImgProgDone ok errCode verdict s
  | .enrol value sig => Sys2Proof.Machine.execEnrol value sig s
  | .release value signed => Sys2Proof.Machine.execRelease value signed s
  | .ownerOpDone => Sys2Proof.Machine.execOwnerOpDone s
  | .go value => Sys2Proof.Machine.execGo value s
  | .attestationReady => Sys2Proof.Machine.execAttestationReady s
  | .rxFrameError frame => Sys2Proof.Machine.execRxFrameError frame s
  | .data frame p => Sys2Proof.Machine.execData frame p s
  | .ack frame p => Sys2Proof.Machine.execAck frame p s
  | .nak frame p => Sys2Proof.Machine.execNak frame p s
  | .tail frame p => Sys2Proof.Machine.execTail frame p s
  | .close frame p => Sys2Proof.Machine.execClose frame p s
  | .reset frame p => Sys2Proof.Machine.execReset frame p s
  | .chuteResetRetry session => Sys2Proof.Machine.execChuteResetRetry session s
  | .lotAccept session => Sys2Proof.Machine.execLotAccept session s
  | .responseSend session => Sys2Proof.Machine.execResponseSend session s
  | .retransmitTimeout session => Sys2Proof.Machine.execRetransmitTimeout session s
  | .nakRepeat session => Sys2Proof.Machine.execNakRepeat session s
  | .resyncNak session => Sys2Proof.Machine.execResyncNak session s
  | .frameTransmit => Sys2Proof.Machine.execFrameTransmit s
  | .arpRequest frame target => Sys2Proof.Machine.execArpRequest frame target s
  | .neighborSolicitation frame target => Sys2Proof.Machine.execNeighborSolicitation frame target s
  | .pfcFrame frame opcode enable times => Sys2Proof.Machine.execPfcFrame frame opcode enable times s
  | .pauseExpiry priority => Sys2Proof.Machine.execPauseExpiry priority s
  | .pauseFrame frame => Sys2Proof.Machine.execPauseFrame frame s
  | .linkUp mode => Sys2Proof.Machine.execLinkUp mode s
  | .linkDown => Sys2Proof.Machine.execLinkDown s
  | .journalWriteDone id ok0 ok8 => Sys2Proof.Machine.execJournalWriteDone id ok0 ok8 s
  | .mirrorAck lsn => Sys2Proof.Machine.execMirrorAck lsn s
  | .mirrorRecord r => Sys2Proof.Machine.execMirrorRecord r s
  | .mirrorReopen => Sys2Proof.Machine.execMirrorReopen s
  | .journalRestore records => Sys2Proof.Machine.execJournalRestore records s
  | .restoreRetry => Sys2Proof.Machine.execRestoreRetry s
  | .journalReplay => Sys2Proof.Machine.execJournalReplay s
  | .faultEvent r => Sys2Proof.Machine.execFaultEvent r s
  | .heldJobResume job => Sys2Proof.Machine.execHeldJobResume job s
  | .coreStallTimeout core => Sys2Proof.Machine.execCoreStallTimeout core s
  | .arrayTestPeriodic array => Sys2Proof.Machine.execArrayTestPeriodic array s
  | .lockstepMismatch => Sys2Proof.Machine.execLockstepMismatch s
  | .warmReset cause => Sys2Proof.Machine.execWarmReset cause s
  | .powerOn => Sys2Proof.Machine.execPowerOn s
  | .startStepDone f => Sys2Proof.Machine.execStartStepDone f s
  | .resetNAssert ns => Sys2Proof.Machine.execResetNAssert ns s
  | .resetNRelease => Sys2Proof.Machine.execResetNRelease s
  | .inputVoltageEvent centivolts => Sys2Proof.Machine.execInputVoltageEvent centivolts s
  | .shutdown centivolts centiamps ns => Sys2Proof.Machine.execShutdown centivolts centiamps ns s
  | .mateRemoval => Sys2Proof.Machine.execMateRemoval s
  | .temperatureSample t => Sys2Proof.Machine.execTemperatureSample t s
  | .tripLatchClear => Sys2Proof.Machine.execTripLatchClear s
  | .refClockLost => Sys2Proof.Machine.execRefClockLost s
  | .pllUnlock seam domain dropped => Sys2Proof.Machine.execPllUnlock seam domain dropped s
  | .hubPllUnlock fclk dropped => Sys2Proof.Machine.execHubPllUnlock fclk dropped s
  | .hubPllRestart fclk locks => Sys2Proof.Machine.execHubPllRestart fclk locks s
  | .dclkUnlock => Sys2Proof.Machine.execDclkUnlock s
  | .dclkLockTimeout => Sys2Proof.Machine.execDclkLockTimeout s
  | .domainStop d dropped => Sys2Proof.Machine.execDomainStop d dropped s
  | .domainStart d => Sys2Proof.Machine.execDomainStart d s
  | .domainResetAssert d dropped => Sys2Proof.Machine.execDomainResetAssert d dropped s
  | .domainResetRelease d => Sys2Proof.Machine.execDomainResetRelease d s
  | .replicaCompare replica reading => Sys2Proof.Machine.execReplicaCompare replica reading s
  | .calWindow seam load margin => Sys2Proof.Machine.execCalWindow seam load margin s
  | .calDescentStep seam held => Sys2Proof.Machine.execCalDescentStep seam held s
  | .seamIdle seam => Sys2Proof.Machine.execSeamIdle seam s
  | .seamWake seam => Sys2Proof.Machine.execSeamWake seam s
  | .arrayTestDone array failing => Sys2Proof.Machine.execArrayTestDone array failing s
  | .openResponse out answer => Sys2Proof.Machine.execOpenResponse out answer s
  | .helloResponse out nonce => Sys2Proof.Machine.execHelloResponse out nonce s
  | .refClockRestored => Sys2Proof.Machine.execRefClockRestored s

end Sys2Proof.Machine
end

