-- ==== Sys2Proof/Machine/Tick.lean ====
section
/-! DEFINITION. The local counter (R321) and its replicas (R322). -/

namespace Sys2Proof.Machine

/-- A replica as the counter reaches `now`, `d` ns on (R322): it advances by as much; one that a reload would have moved
backward holds its value until the counter passes it. -/
def advanceReplica (now : Time) (d : Nat) (r : Replica) : Replica :=
  if r.held then (if r.value < now then { value := now } else r) else { r with value := r.value + d }

/-- The replicas of the live domains advanced (R322); one in a domain that is in reset or without a clock stands still. -/
def advanceReplicas (s : State) (now : Time) (d : Nat) : Table Replica :=
  s.clk.replicas.map fun e => if isLiveDom s (replicaDomain e.1) then (e.1, advanceReplica now d e.2) else e

/-- One cycle of DCLK, 2.5 ns: the local counter steps by 2 and 3 ns in turn while DCLK runs, and stands still while it
does not; the replicas follow it (R321, R322, log entry 6). -/
def dclkCycle (s : State) : State :=
  if s.clk.dclkLocked then
    let d := if s.clk.tickThree then 3 else 2
    { s with clk := { s.clk with
        now := s.clk.now + d
        replicas := advanceReplicas s (s.clk.now + d) d
        tickThree := !s.clk.tickThree } }
  else s

end Sys2Proof.Machine
end

