-- ==== Sys2Proof/Safety.lean ====
section
/-! DEFINITION. What holds in every state that a run can reach from a state in which it holds, what no run takes back, and
what a safe step is. -/

-- one theorem after the other: proofs side by side would need more memory than the check allows
set_option Elab.async false

namespace Sys2Proof.Safety

open Sys2Proof.Machine

/-- The invariant of the block: the module memory and the two NOR images have their canonical form, at most 16 nonces
are held (R287), and no start has been announced more than 60 times (R379). -/
structure Inv (s : State) : Prop where
  mem : Memory.wf s.mem
  norA : Memory.wfFill 0xFF s.pwr.norA
  norB : Memory.wfFill 0xFF s.pwr.norB
  nonces : s.port.nonces.length ≤ 16
  announced : s.pwr.announced ≤ 60

/-- What `t` keeps of the manufacturing data and fuses of `z`: the identity (R284, R381), the fuse of key set 0 (R369), the
security floor, which only rises (R370), and every owner slot that is burned, with its RELEASED fuse (R374). -/
structure Fixed (z t : Power) : Prop where
  mac : t.mac = z.mac
  serial : t.serial = z.serial
  revoked : t.keySet0Revoked = z.keySet0Revoked
  floor : z.secFloor ≤ t.secFloor
  slots : ∀ (i : Nat) (x : OwnerSlot), z.ownerSlots[i]? = some x →
    ∃ y : OwnerSlot, t.ownerSlots[i]? = some y ∧ y.digest = x.digest ∧ (x.released = true → y.released = true)

/-! ## What statements say of two states -/

/-- The parts of the state beside the queue: the fields of the deputy, the journal, the port, the clocks and the power state
that are told apart, each with a part for what is left of it. -/
inductive Part where
  | freeCount | mem | regs | doms | time | clk | nor | owner | image | att | temps | pwr | allocs | descs | graphs | stages
  | jobs | waits | fences | voids | dep | respLog | lotRing | jnl | txQueue | sessions | outs | orphans | nonces
  | mgmt | port | arrays | cores | adits | hoists | scatters | assays | chans | links | chutes | hops | counters
  | cals
deriving DecidableEq, Repr

/-- A part of `t` is that of `s`. -/
def Part.same (p : Part) (s t : State) : Prop :=
  match p with
  | .freeCount => t.freeCount = s.freeCount
  | .mem => t.mem = s.mem
  | .regs => t.regs = s.regs
  | .doms => t.clk.doms = s.clk.doms
  | .time => (t.clk.now, t.clk.tickThree) = (s.clk.now, s.clk.tickThree)
  | .clk => { t.clk with doms := [], now := 0, tickThree := false } = { s.clk with doms := [], now := 0, tickThree := false }
  | .nor => (t.pwr.norA, t.pwr.norB) = (s.pwr.norA, s.pwr.norB)
  | .owner =>
    (t.pwr.ownerSlots, t.pwr.ownerLost, t.pwr.ownerOp, t.pwr.ownerFail, t.pwr.enrolNonce, t.pwr.enrolNonceAt) =
      (s.pwr.ownerSlots, s.pwr.ownerLost, s.pwr.ownerOp, s.pwr.ownerFail, s.pwr.enrolNonce, s.pwr.enrolNonceAt)
  | .image => (t.pwr.imgOp, t.pwr.imgErr, t.pwr.imgReason) = (s.pwr.imgOp, s.pwr.imgErr, s.pwr.imgReason)
  | .att => (t.pwr.att, t.pwr.attReady, t.pwr.attReport) = (s.pwr.att, s.pwr.attReady, s.pwr.attReport)
  | .temps => (t.pwr.tempLogic, t.pwr.tempDram, t.pwr.tempHub) = (s.pwr.tempLogic, s.pwr.tempDram, s.pwr.tempHub)
  | .pwr =>
    { t.pwr with
        norA := [], norB := [], ownerSlots := [], ownerLost := false, ownerOp := none, ownerFail := 0,
        enrolNonce := 0, enrolNonceAt := none, imgOp := none, imgErr := 0, imgReason := 0, att := none,
        attReady := false, attReport := [], tempLogic := [], tempDram := [], tempHub := 0 } =
      { s.pwr with
        norA := [], norB := [], ownerSlots := [], ownerLost := false, ownerOp := none, ownerFail := 0,
        enrolNonce := 0, enrolNonceAt := none, imgOp := none, imgErr := 0, imgReason := 0, att := none,
        attReady := false, attReport := [], tempLogic := [], tempDram := [], tempHub := 0 }
  | .allocs => t.dep.allocs = s.dep.allocs
  | .descs => t.dep.descs = s.dep.descs
  | .graphs => t.dep.graphs = s.dep.graphs
  | .stages => t.dep.stages = s.dep.stages
  | .jobs => t.dep.jobs = s.dep.jobs
  | .waits => t.dep.waits = s.dep.waits
  | .fences => t.dep.fences = s.dep.fences
  | .voids => t.dep.voids = s.dep.voids
  | .dep =>
    { t.dep with
        allocs := [], descs := [], graphs := [], stages := [], jobs := [], waits := [], fences := {},
        voids := [] } =
      { s.dep with
        allocs := [], descs := [], graphs := [], stages := [], jobs := [], waits := [], fences := {},
        voids := [] }
  | .respLog => t.jnl.respLog = s.jnl.respLog
  | .lotRing => t.jnl.lotRing = s.jnl.lotRing
  | .jnl => { t.jnl with respLog := [], lotRing := [] } = { s.jnl with respLog := [], lotRing := [] }
  | .txQueue => t.port.txQueue = s.port.txQueue
  | .sessions => t.port.sessions = s.port.sessions
  | .outs => t.port.outs = s.port.outs
  | .orphans => t.port.orphans = s.port.orphans
  | .nonces => t.port.nonces = s.port.nonces
  | .mgmt => (t.port.mgmt, t.port.mgmtQueue, t.port.held) = (s.port.mgmt, s.port.mgmtQueue, s.port.held)
  | .port =>
    { t.port with
        txQueue := [], sessions := [], outs := [], orphans := [], nonces := [], mgmt := [],
        mgmtQueue := [], held := none } =
      { s.port with
        txQueue := [], sessions := [], outs := [], orphans := [], nonces := [], mgmt := [],
        mgmtQueue := [], held := none }
  | .arrays => t.arrays = s.arrays
  | .cores => t.cores = s.cores
  | .adits => t.adits = s.adits
  | .hoists => t.hoists = s.hoists
  | .scatters => t.scatters = s.scatters
  | .assays => t.assays = s.assays
  | .chans => t.chans = s.chans
  | .links => t.links = s.links
  | .chutes => t.chutes = s.chutes
  | .hops => t.hops = s.hops
  | .counters => t.counters = s.counters
  | .cals => t.cals = s.cals

/-- `t` differs from `s` in nothing but the parts listed; the queue is as it was. -/
def SameBut (ps : List Part) (s t : State) : Prop :=
  t.pending = s.pending ∧ ∀ p, p ∈ ps ∨ p.same s t

/-- The parts of the state that a command may change. -/
def touches : Instr → List Part
  | .alloc .. =>
    [.freeCount, .regs, .allocs, .jobs, .voids, .dep, .respLog, .lotRing, .jnl, .txQueue, .sessions, .outs, .arrays,
      .cores, .hoists, .scatters, .chutes]
  | .free .. =>
    [.allocs, .voids, .dep, .respLog, .lotRing, .jnl, .txQueue, .sessions, .outs, .chutes]
  | .allocationRelease .. =>
    [.allocs, .voids, .dep, .jnl]
  | .descCreate .. =>
    [.regs, .descs, .respLog, .lotRing, .jnl, .txQueue, .sessions, .outs, .chutes]
  | .descDestroy .. =>
    [.descs, .respLog, .lotRing, .jnl, .txQueue, .sessions, .outs, .chutes]
  | .descriptorDestroyed .. =>
    [.descs, .jnl]
  | .put .. =>
    [.mem, .regs, .voids, .dep, .respLog, .lotRing, .jnl, .txQueue, .sessions, .outs, .cores, .assays, .chutes]
  | .get .. =>
    [.respLog, .lotRing, .jnl, .txQueue, .sessions, .outs, .chutes]
  | .graphLoad .. =>
    [.freeCount, .mem, .regs, .graphs, .stages, .voids, .dep, .respLog, .lotRing, .jnl, .txQueue, .sessions, .outs,
      .cores, .assays, .chutes]
  | .graphUnload .. | .cancel .. =>
    [.mem, .regs, .graphs, .stages, .jobs, .waits, .voids, .dep, .respLog, .lotRing, .jnl, .txQueue, .sessions, .outs,
      .arrays, .cores, .hoists, .scatters, .assays, .chutes, .counters]
  | .run .. =>
    [.jobs, .dep, .respLog, .lotRing, .jnl, .txQueue, .sessions, .outs, .chutes]
  | .jobStart .. | .heldJobResume .. =>
    [.jobs]
  | .nodeStart .. =>
    [.regs, .stages, .jobs, .counters]
  | .jobComplete .. | .ack .. | .nak .. | .lotAccept .. | .retransmitTimeout .. | .journalWriteDone ..
  | .mirrorAck .. | .journalReplay =>
    [.freeCount, .mem, .regs, .allocs, .descs, .graphs, .stages, .jobs, .waits, .voids, .dep, .respLog, .lotRing, .jnl,
      .txQueue, .sessions, .outs, .orphans, .arrays, .cores, .hoists, .scatters, .assays, .chutes, .counters]
  | .fetchAndAdd .. =>
    [.jobs, .dep, .counters]
  | .taskComplete .. =>
    [.regs, .stages, .jobs, .dep, .cores, .adits, .counters]
  | .taskLoad .. | .tileClose .. | .partCombine .. | .assayBound .. =>
    [.regs, .jobs, .cores]
  | .commandIssue .. | .aditColumnGroup .. | .dramSlot .. =>
    [.freeCount, .mem, .regs, .doms, .graphs, .jobs, .fences, .voids, .dep, .jnl, .txQueue, .sessions, .outs, .port,
      .arrays, .cores, .adits, .hoists, .scatters, .assays, .chans, .links, .chutes, .hops, .counters]
  | .taskSwitch .. | .x64Shift .. | .x64Loss .. | .scratchStarvePromote .. | .veAdd .. | .veSub .. | .veMul ..
  | .veFma .. | .veMin .. | .veMax .. | .veAbs .. | .veNeg .. | .veDot4 .. | .veAnd .. | .veOr .. | .veXor ..
  | .veNot .. | .veShl .. | .veShr .. | .veSar .. | .veCmp .. | .veSel .. | .veRcp .. | .veRsqrt .. | .veSqrt ..
  | .veDiv .. | .veExp2 .. | .veLog2 .. | .veTanh .. | .veErf .. | .veRedsum .. | .veRedmax .. | .veRedmin .. =>
    [.regs, .cores]
  | .taskAbort .. | .packetCommit .. | .chuteReset .. | .chCtrlReset .. | .reset .. =>
    [.regs, .jobs, .dep, .txQueue, .sessions, .outs, .arrays, .cores, .hoists, .scatters, .chutes]
  | .chargeStart .. =>
    [.regs, .arrays, .cores, .cals]
  | .weightTileLoad .. | .vectorSchedule .. | .assayPass .. =>
    [.mem, .regs, .arrays, .cores]
  | .idleSlot .. | .arrayFreeze .. =>
    [.regs, .arrays]
  | .drainPartial .. | .assayAudit .. | .faultEvent .. | .arrayTestDone .. =>
    [.freeCount, .regs, .doms, .graphs, .jobs, .fences, .voids, .dep, .jnl, .txQueue, .sessions, .outs, .port, .arrays,
      .cores, .adits, .hoists, .scatters, .chans, .links, .chutes, .hops, .counters]
  | .vatAccept .. =>
    [.regs, .arrays, .cores]
  | .tileOpen .. | .vatSave .. =>
    [.mem, .regs, .cores]
  | .tileInitDone .. =>
    [.cores]
  | .vatRestore .. =>
    [.mem, .regs, .jobs, .dep, .txQueue, .sessions, .outs, .arrays, .cores, .hoists, .scatters, .chutes]
  | .scratchAccess .. | .veCvt .. | .veLd .. | .veSt .. | .veGather .. | .veScatter .. | .veScatterAdd ..
  | .merge .. | .segmentIssue .. =>
    [.freeCount, .mem, .regs, .doms, .graphs, .jobs, .fences, .voids, .dep, .jnl, .txQueue, .sessions, .outs, .port,
      .arrays, .cores, .adits, .hoists, .scatters, .chans, .links, .chutes, .hops, .counters]
  | .aditProbe .. =>
    [.stages]
  | .assaySumsRecompute .. =>
    [.mem, .regs, .voids, .dep, .cores, .assays]
  | .hoistCommand .. | .broadcast .. =>
    [.hoists]
  | .copy .. =>
    [.freeCount, .hoists]
  | .hoistGather .. | .hoistScatter .. =>
    [.freeCount, .regs, .cores, .hoists]
  | .hoistScatterAdd .. =>
    [.regs, .cores, .hoists, .scatters]
  | .scatterAddCommit .. =>
    [.jobs, .lotRing, .jnl, .txQueue, .outs, .scatters]
  | .segmentComplete .. =>
    [.freeCount, .mem, .regs, .jobs, .voids, .dep, .txQueue, .sessions, .outs, .arrays, .cores, .hoists, .scatters,
      .assays, .chutes, .hops]
  | .descriptorBatchFetch .. | .doorbell .. | .descriptorRefetchTimeout .. =>
    [.regs, .hoists, .chans]
  | .scrub .. | .refresh .. =>
    [.chans]
  | .linkWord .. =>
    [.regs, .links]
  | .commitReceived .. | .rewoundReceived .. | .tailNotice .. =>
    [.chutes]
  | .grantReceived .. =>
    [.txQueue, .sessions, .chutes]
  | .consumerRead .. =>
    [.mem, .regs, .jobs, .voids, .dep, .txQueue, .sessions, .outs, .arrays, .cores, .hoists, .scatters, .assays,
      .chutes]
  | .closeMark .. | .readTimerExpiry .. =>
    [.regs, .chutes]
  | .fillTimerExpiry .. =>
    [.txQueue, .chutes]
  | .carHop .. =>
    [.mem, .regs, .cores, .hops]
  | .tramStall .. =>
    [.regs, .hops]
  | .hello .. =>
    [.freeCount, .regs, .pwr, .txQueue, .nonces, .mgmt]
  | .openSession .. =>
    [.freeCount, .regs, .graphs, .jnl, .txQueue, .sessions, .outs, .nonces, .mgmt, .chutes]
  | .shut .. =>
    [.regs, .jobs, .waits, .respLog, .lotRing, .jnl, .txQueue, .sessions, .outs, .orphans, .mgmt, .chutes]
  | .mgmtFrameReceive .. | .abort .. =>
    [.regs, .txQueue, .mgmt]
  | .read .. | .write .. | .depCtrlWarm .. | .ownerOpDone | .lockstepMismatch | .warmReset .. | .resetNAssert ..
  | .dclkUnlock =>
    [.freeCount, .mem, .regs, .doms, .clk, .nor, .owner, .image, .att, .temps, .pwr, .allocs, .descs, .graphs, .stages,
      .jobs, .waits, .fences, .voids, .dep, .respLog, .lotRing, .jnl, .txQueue, .sessions, .outs, .orphans, .nonces,
      .mgmt, .port, .arrays, .cores, .adits, .hoists, .scatters, .assays, .chans, .links, .chutes, .hops, .counters,
      .cals]
  | .announce =>
    [.pwr, .txQueue]
  | .hqCfgWrite .. | .rxFrameError .. | .pauseFrame .. | .inputVoltageEvent .. =>
    [.regs]
  | .depCtrlRestoreSkip .. =>
    [.regs, .dep, .jnl]
  | .program .. | .verify .. =>
    [.regs, .image]
  | .imgProgDone .. =>
    [.freeCount, .regs, .nor, .image]
  | .enrol .. =>
    [.owner]
  | .release .. =>
    [.regs, .owner, .allocs, .descs, .graphs, .stages, .jobs, .waits, .voids, .dep, .respLog, .lotRing, .jnl, .txQueue,
      .sessions, .outs, .orphans, .nonces, .mgmt, .port, .arrays, .cores, .hoists, .scatters, .assays, .chutes,
      .counters]
  | .go .. | .attestationReady =>
    [.att]
  | .data .. =>
    [.regs, .lotRing, .jnl, .txQueue, .sessions, .outs, .chutes]
  | .tail .. =>
    [.regs, .txQueue, .outs]
  | .close .. =>
    [.regs, .txQueue, .sessions, .chutes]
  | .chuteResetRetry .. =>
    [.txQueue, .sessions, .outs]
  | .responseSend .. =>
    [.txQueue, .sessions]
  | .nakRepeat .. | .resyncNak .. =>
    [.regs, .txQueue, .sessions]
  | .frameTransmit =>
    [.regs, .txQueue, .port]
  | .arpRequest .. | .neighborSolicitation .. =>
    [.regs, .txQueue]
  | .pfcFrame .. | .linkDown =>
    [.regs, .port]
  | .pauseExpiry .. | .linkUp .. =>
    [.port]
  | .mirrorRecord .. =>
    [.jnl, .txQueue, .sessions]
  | .mirrorReopen | .restoreRetry | .helloResponse .. =>
    [.txQueue, .outs]
  | .journalRestore .. =>
    [.regs, .allocs, .descs, .graphs, .jobs, .voids, .dep, .respLog, .lotRing, .jnl, .txQueue, .sessions, .outs,
      .arrays, .cores, .hoists, .scatters, .chutes]
  | .coreStallTimeout .. =>
    [.freeCount, .regs, .doms, .graphs, .jobs, .fences, .dep, .txQueue, .sessions, .outs, .port, .arrays, .cores,
      .adits, .hoists, .scatters, .chans, .links, .chutes, .hops, .counters]
  | .arrayTestPeriodic .. =>
    [.arrays]
  | .powerOn =>
    [.regs, .pwr]
  | .startStepDone .. =>
    [.freeCount, .mem, .regs, .doms, .clk, .nor, .owner, .pwr, .graphs, .jobs, .fences, .voids, .dep, .jnl, .txQueue,
      .sessions, .outs, .port, .arrays, .cores, .adits, .hoists, .scatters, .chans, .links, .chutes, .hops, .counters,
      .cals]
  | .resetNRelease | .tripLatchClear | .refClockLost | .refClockRestored =>
    [.pwr]
  | .shutdown .. | .mateRemoval | .temperatureSample .. =>
    [.mem, .regs, .doms, .time, .clk, .owner, .image, .att, .temps, .pwr, .allocs, .descs, .graphs, .stages, .jobs,
      .waits, .fences, .voids, .dep, .respLog, .lotRing, .jnl, .txQueue, .sessions, .outs, .orphans, .nonces, .mgmt,
      .port, .arrays, .cores, .adits, .hoists, .scatters, .assays, .chans, .links, .chutes, .hops, .counters, .cals]
  | .pllUnlock .. =>
    [.freeCount, .regs, .doms, .graphs, .jobs, .fences, .voids, .dep, .jnl, .txQueue, .sessions, .outs, .mgmt, .port,
      .arrays, .cores, .adits, .hoists, .scatters, .chans, .links, .chutes, .hops, .counters]
  | .hubPllUnlock .. =>
    [.regs, .doms, .clk, .jobs, .dep, .txQueue, .sessions, .outs, .mgmt, .port, .arrays, .cores, .adits, .hoists,
      .scatters, .chans, .links, .chutes, .hops, .counters]
  | .hubPllRestart .. =>
    [.freeCount, .regs, .doms, .clk, .graphs, .jobs, .fences, .voids, .dep, .jnl, .txQueue, .sessions, .outs, .port,
      .arrays, .cores, .adits, .hoists, .scatters, .chans, .links, .chutes, .hops, .counters]
  | .dclkLockTimeout =>
    [.clk]
  | .domainStop .. | .domainResetAssert .. =>
    [.regs, .doms, .jobs, .dep, .txQueue, .sessions, .outs, .mgmt, .port, .arrays, .cores, .adits, .hoists, .scatters,
      .chans, .links, .chutes, .hops, .counters]
  | .domainStart .. | .domainResetRelease .. =>
    [.doms, .clk]
  | .replicaCompare .. =>
    [.regs, .clk]
  | .calWindow .. | .calDescentStep .. | .seamWake .. =>
    [.regs, .cals]
  | .seamIdle .. =>
    [.cals]
  | .openResponse .. =>
    [.jnl, .txQueue, .sessions, .outs, .chutes]

/-- Every stored register word of `t` is that of `s`, but at the addresses listed. -/
def RegsBut (as : List Nat) (s t : State) : Prop :=
  ∀ a, a ∈ as ∨ rawReg t a = rawReg s a

/-- The counter at `a` has counted `n` events, saturating (R406). -/
def Counted (a n : Nat) (s t : State) : Prop :=
  rawReg t a = satAdd (rawReg s a) n

/-- Every byte of module memory of `t` is that of `s`, but the `n` bytes from `a`. -/
def BytesBut (a n : Nat) (s t : State) : Prop :=
  ∀ x, x < a ∨ a + n ≤ x → loadByte t.mem x = loadByte s.mem x

/-- A step from `s` completes. -/
def Completes (s : State) : Prop :=
  ∃ t, step s = .next t

/-! ## The vector engine -/

/-- Lane `i` of a vector register of a slot. -/
def lane (s : State) (u : SlotId) (v : VReg) (i : Nat) : Word :=
  (getLanes s u v).getD i 0

/-- An instruction of the vector engine of core `c` has been counted with its cycles (R174). -/
def VeCounted (c : CoreId) (cycles : Nat) (s t : State) : Prop :=
  Counted (coreRegBase c + Ctr.VE_BUSY_CNT) cycles s t ∧ Counted (coreRegBase c + Ctr.VE_INSN_CNT) 1 s t

/-- The registers that `VeCounted` names. -/
def veRegs (c : CoreId) : List Nat :=
  [coreRegBase c + Ctr.VE_BUSY_CNT, coreRegBase c + Ctr.VE_INSN_CNT]

/-- The cores are as they were but for the vector registers and the counts of slot `u`. -/
structure CoresBut (u : SlotId) (s t : State) : Prop where
  others : ∀ v, v ≠ u → getSlot t v = getSlot s v
  cores : ∀ c, { getCore t c with slots := [] } = { getCore s c with slots := [] }
  rest : { getSlot t u with vregs := [], counts := [] } = { getSlot s u with vregs := [], counts := [] }

/-- Register `dst` of slot `u` holds the lanes `f`, and the slot's other registers and counts are as they were. -/
structure LanesSet (u : SlotId) (dst : VReg) (f : Nat → Word) (s t : State) : Prop where
  lanes : ∀ i, i < 64 → lane t u dst i = f i
  others : ∀ v, v ≠ dst → getLanes t u v = getLanes s u v

/-- An instruction of slot `u` has worked for `cycles` cycles and written the lanes `f` to register `dst`, and nothing
else has changed. -/
structure VeWrote (u : SlotId) (dst : VReg) (cycles : Nat) (f : Nat → Word) (s t : State) : Prop where
  set : LanesSet u dst f s t
  cores : CoresBut u s t
  counts : (getSlot t u).counts = (getSlot s u).counts
  counted : VeCounted u.core cycles s t
  regs : RegsBut (veRegs u.core) s t
  rest : SameBut [.regs, .cores] s t

/-- The vector engine works on a command of a slot's task: one that is issued and not done (R159, R163). -/
def VeWorks (s : State) (u : SlotId) : Prop :=
  ∃ c ∈ (getSlot s u).cmds, c.cmd.unit = .vector ∧ c.issued = true ∧ c.done = false

/-- The integers that an INT32 lane can hold. -/
def InInt32 (v : Int) : Prop :=
  -2 ^ 31 ≤ v ∧ v < 2 ^ 31

/-- A command takes slot `u` to a state in which it has written the lanes `f` to register `dst` in `cycles` cycles. -/
def VeGives (i : Instr) (u : SlotId) (dst : VReg) (cycles : Nat) (f : Nat → Word) (s : State) : Prop :=
  ∃ t, exec i s = .next t ∧ VeWrote u dst cycles f s t

/-- The lanes of an INT32 instruction: the exact integer where the lane can hold it, anything else where it cannot. -/
def VeInteger (i : Instr) (u : SlotId) (dst : VReg) (exact : Nat → Int) (s : State) : Prop :=
  ∃ f, VeGives i u dst 1 f s ∧ ∀ k, k < 64 → InInt32 (exact k) → (f k).toInt = exact k

/-- Byte `j` of a word as a signed integer. -/
def signedByte (w : Word) (j : Nat) : Int :=
  (BitVec.ofNat 8 (w.toNat / 256 ^ j)).toInt

/-- The canonical NaN of a vector engine format (R11). -/
def nanOf : VeFormat → Nat
  | .fp32 => 0x7FC00000
  | .bf16 => 0x7FC0
  | .fp16 => 0x7E00
  | .int32 => 0

/-- A code of a floating format of the vector engine is a NaN: the greatest exponent and a fraction that is not 0 (R10). -/
def IsNan (fmt : VeFormat) (c : Nat) : Prop :=
  match fmt with
  | .fp32 => c % 2 ^ 31 > 0x7F800000
  | .bf16 => c % 2 ^ 15 > 0x7F80
  | .fp16 => c % 2 ^ 15 > 0x7C00
  | .int32 => False

/-- The elements of a lane: one, or two of 16 bits (R168). -/
def elemsOf (fmt : VeFormat) (w : Word) : List Nat :=
  match fmt with
  | .fp32 | .int32 => [w.toNat]
  | .bf16 | .fp16 => [w.toNat % 65536, w.toNat / 65536]

/-- Every NaN among the elements of a lane is the canonical one (R11). -/
def NanCanonical (fmt : VeFormat) (w : Word) : Prop :=
  ∀ c ∈ elemsOf fmt w, IsNan fmt c → c = nanOf fmt

/-- An element of the result is a NaN wherever one of the source lanes holds a NaN in that place. -/
def NanCarried (fmt : VeFormat) (srcs : List Word) (w : Word) : Prop :=
  ∀ x ∈ srcs, ∀ j, IsNan fmt ((elemsOf fmt x).getD j 0) → (elemsOf fmt w)[j]? = some (nanOf fmt)

/-- A function of lanes whose results' NaNs are canonical, and which answers NaN for a NaN among the sources `srcs`. -/
def NanRight (fmt : VeFormat) (srcs : List Word) (w : Word) : Prop :=
  NanCanonical fmt w ∧ NanCarried fmt srcs w

/-- The instructions of two and three sources with their cycles and what they make of the lanes x, y and z (R169, R170). -/
def laneRows (o : VeBin) (c : VReg) (rel : CmpRel) : List (Instr × Nat × (Word → Word → Word → Word)) :=
  let packed := if o.fmt = .bf16 ∨ o.fmt = .fp16 then 2 else 1
  [(.veAdd o, 1, fun x y _ => addLane o.fmt o.rnd x y), (.veSub o, 1, fun x y _ => subLane o.fmt o.rnd x y),
    (.veMul o, 1, fun x y _ => mulLane o.fmt o.rnd x y), (.veFma o c, 1, fun x y z => fmaLane o.fmt o.rnd x y z),
    (.veMin o, 1, fun x y _ => minMaxLane 4 o.fmt x y), (.veMax o, 1, fun x y _ => minMaxLane 5 o.fmt x y),
    (.veDiv o, 4, fun x y _ => divLane o.fmt o.rnd x y), (.veCmp o rel, packed, fun x y _ => cmpLane o.fmt rel x y),
    (.veSel o c, packed, fun x y z => selLane o.fmt x y z)]

/-- The instructions of one source (R170). -/
def signRows (p : VeUn) : List (Instr × (Word → Word)) :=
  [(.veAbs p, absNegLane false p.fmt), (.veNeg p, absNegLane true p.fmt)]

/-- The reductions (R170, R172). -/
def reduceRows (p : VeUn) : List (Instr × (Word → Word → Word)) :=
  [(.veRedsum p, addLane p.fmt p.rnd), (.veRedmax p, redLane true p.fmt), (.veRedmin p, redLane false p.fmt)]

/-- The special instructions (R171). -/
def specialRows (q : VeSpecial) : List (Instr × (Word → Word)) :=
  [(.veRcp q, specialF .rcp q.rnd), (.veRsqrt q, specialF .rsqrt q.rnd), (.veSqrt q, sqrtLane q.rnd),
    (.veExp2 q, specialF .exp2 q.rnd), (.veLog2 q, specialF .log2 q.rnd), (.veTanh q, specialF .tanh q.rnd),
    (.veErf q, specialF .erf q.rnd)]

/-- The relation of CMP between two INT32 lanes (R170). -/
def IntRel (r : CmpRel) (x y : Int) : Prop :=
  match r with
  | .eq => x = y
  | .ne => x ≠ y
  | .lt => x < y
  | .le => x ≤ y
  | .gt => x > y
  | .ge => x ≥ y
  | .unord => False

/-- Adjacent pairs of a list joined, the first two first (R106, R172). -/
def joinPairs (f : Word → Word → Word) : List Word → List Word
  | a :: b :: r => f a b :: joinPairs f r
  | l => l

/-- The 64 lanes of a register joined in six rounds of adjacent pairs. -/
def joinAll (f : Word → Word → Word) (l : List Word) : Word :=
  (joinPairs f (joinPairs f (joinPairs f (joinPairs f (joinPairs f (joinPairs f l)))))).getD 0 0

/-- The 32-bit word that four bytes of module memory spell from address `a` (R5). -/
def memWord (m : List Host.Cell) (a : Nat) : Word :=
  loadByte m (a + 3) ++ loadByte m (a + 2) ++ loadByte m (a + 1) ++ loadByte m a

/-- Element `j` of a region of a core's scratch. -/
def elemAt (s : State) (c : CoreId) (region j : Nat) : Word :=
  memWord s.mem (scratchAddr c region + 4 * j)

/-- The cores are as they were, but for the marks of poisoned words of core `c`. -/
structure PoisonBut (c : CoreId) (s t : State) : Prop where
  others : ∀ d, d ≠ c → getCore t d = getCore s d
  rest : { getCore t c with poisonedWords := [] } = { getCore s c with poisonedWords := [] }

/-- An indexed instruction may act: the engine works on a command of the task, the elements pass protection, and no word of the
core's scratch is poisoned (R158, R159, R186). -/
structure MayIndex (s : State) (o : VeIndexed) : Prop where
  works : VeWorks s o.at_
  allowed : accessAllowed s o.at_ (indexedRanges o s) = true
  clean : (getCore s o.at_.core).poisonedWords = []

/-- Lanes of an index register that lie outside a region of `n` elements. -/
def oobLanes (s : State) (o : VeIndexed) : Nat :=
  ((List.range 64).filter fun k => o.count ≤ (lane s o.at_ o.index k).toNat).length

/-- The value of the counters of an indexed instruction with `n` indices outside its region (R173, R190): the engine's
counter, its flag and the task's count. -/
structure OobNoted (u : SlotId) (n : Nat) (s t : State) : Prop where
  counter : Counted (coreRegBase u.core + Ctr.VE_IDX_OOB_CNT) n s t
  flag : 0 < n → (rawReg t (coreRegBase u.core + Flag.core_IDX_OOB.1)).getLsbD Flag.core_IDX_OOB.2 = true
  flags : ∀ b, b ≠ Flag.core_IDX_OOB.2 → (rawReg t (coreRegBase u.core + Flag.core_IDX_OOB.1)).getLsbD b =
    (rawReg s (coreRegBase u.core + Flag.core_IDX_OOB.1)).getLsbD b
  task : tget (getSlot t u).counts 0 cntIdxOob = tget (getSlot s u).counts 0 cntIdxOob + n

/-- The registers that an indexed instruction changes. -/
def indexedRegs (c : CoreId) : List Nat :=
  [coreRegBase c + Ctr.VE_BUSY_CNT, coreRegBase c + Ctr.VE_INSN_CNT, coreRegBase c + Ctr.VE_IDX_OOB_CNT,
    coreRegBase c + Flag.core_IDX_OOB.1]

/-- What an indexed instruction leaves as it was: every task slot but its own counts and vector registers, every register
but its own, and all else. -/
structure IndexedKept (u : SlotId) (ps : List Part) (s t : State) : Prop where
  slots : ∀ v, v ≠ u → getSlot t v = getSlot s v
  slot : { getSlot t u with vregs := [], counts := [] } = { getSlot s u with vregs := [], counts := [] }
  cores : ∀ c, { getCore t c with slots := [], poisonedWords := [] } = { getCore s c with slots := [], poisonedWords := [] }
  regs : RegsBut (indexedRegs u.core) s t
  rest : SameBut ps s t

/-! ## CVT -/

/-- The registers that a CVT changes (R32, R174). -/
def cvtRegs (c : CoreId) : List Nat :=
  [coreRegBase c + Ctr.VE_BUSY_CNT, coreRegBase c + Ctr.VE_INSN_CNT, coreRegBase c + Ctr.CVT_SAT,
    coreRegBase c + Ctr.CVT_INF, coreRegBase c + Ctr.CVT_CLAMP, coreRegBase c + Ctr.CVT_NANBLK,
    coreRegBase c + Ctr.CVT_NANINT, coreRegBase c + Ctr.CVT_INF2NAN, coreRegBase c + Flag.core_CVT.1]

/-- What a CVT leaves as it was beside its target. -/
structure CvtKept (u : SlotId) (ps : List Part) (s t : State) : Prop where
  slots : ∀ v, v ≠ u → getSlot t v = getSlot s v
  slot : { getSlot t u with vregs := [], counts := [] } = { getSlot s u with vregs := [], counts := [] }
  cores : ∀ c, { getCore t c with slots := [], poisonedWords := [] } = { getCore s c with slots := [], poisonedWords := [] }
  regs : RegsBut (cvtRegs u.core) s t
  rest : SameBut ps s t

/-- What a CVT reads and writes is there for it: no word of its core's scratch is poisoned, and its bundles pass protection
(R158, R186). -/
def CvtMay (s : State) (u : SlotId) (src : CvtSrc) (dst : CvtDst) : Prop :=
  (getCore s u.core).poisonedWords = [] ∧ accessAllowed s u (cvtRanges src dst) = true

/-- The 32 values of block `b` of a CVT that go into its target: none for a position that is dead or padding. -/
def cvtLive (vals : List FVal) (cover : CvtCover) (b : Nat) : List (Option FVal) :=
  (List.range 32).map fun i =>
    if 32 * b + i ∈ cover.dead ∨ 32 * b + i ∈ cover.padded then none else some (vals.getD (32 * b + i) .nan)

/-- A CVT between vector registers of 32-bit scalar formats: the live lanes become `f`, padding becomes zero (R17), the others
stay. -/
def CvtGives (u : SlotId) (v dst : VReg) (from_ into : Nat) (mods : CvtMod) (cover : CvtCover) (f : Nat → Word → Prop)
    (s : State) : Prop :=
  ∃ t, exec (.veCvt u (.reg v from_) (.reg dst into) mods cover) s = .next t ∧
    (∀ k, k < 64 → if k ∈ cover.padded then lane t u dst k = 0 else
      if k ∈ cover.dead then lane t u dst k = lane s u dst k else f k (lane t u dst k)) ∧
    (∀ w, w ≠ dst → getLanes t u w = getLanes s u w) ∧ CvtKept u [.regs, .cores] s t

/-! ## Scratch banks -/

/-- A request that writes whole bytes within its line of scratch. -/
def LineWrite (r : ScrRequest) (bs : List Byte) : Prop :=
  r.write = some bs ∧ r.offset < 0x100000 ∧ r.offset % 32 + bs.length ≤ 32

/-- The bytes are whole words of 8 bytes (R158). -/
def WholeWords (r : ScrRequest) (bs : List Byte) : Prop :=
  r.offset % 8 = 0 ∧ bs.length % 8 = 0

/-- No word of the line of an offset is poisoned. -/
def CleanLine (s : State) (c : CoreId) (off : Nat) : Prop :=
  ∀ w ∈ (getCore s c).poisonedWords, w / 4 ≠ off / 32

/-- How many cycles in a row a requester has been refused a bank. -/
def refusedTimes (s : State) (c : CoreId) (bank : Nat) (w : ScrRequester) : Nat :=
  tget (getCore s c).refusals 0 (refusalKey bank w)

/-! ## Merges -/

/-- The registers that a merge changes (R89, R90, R174). -/
def mergeRegs (c : CoreId) : List Nat :=
  [spRegBase c + Ctr.JIG_MATCH_CNT, spRegBase c + Ctr.JIG_BUSY_CNT, spRegBase c + Ctr.SP_IDX_OOB_CNT,
    spRegBase c + Ctr.SP_ORDER_BREAK_CNT, spRegBase c + Flag.sp_IDX_OOB.1, spRegBase c + Flag.sp_ORDER_BREAK.1,
    coreRegBase c + Ctr.VE_BUSY_CNT, coreRegBase c + Ctr.VE_INSN_CNT]

/-- A merge may act on operands a and b: the jig works on a command of the task (R159), whose node is a MERGE with these
operands, and the element lies in the task's output tile (R86, R268). -/
structure MayMerge (s : State) (m : MergeSpec) (a b : SparseOp) : Prop where
  works : ∃ c ∈ (getSlot s m.at_).cmds, c.cmd.unit = .jig ∧ c.issued = true ∧ c.done = false
  ops : mergeOps s m = some (a, b)

/-- The sum over matched pairs of the products of INT8 values, as an integer. -/
def int8Sum (s : State) (a b : Desc) (pairs : List (Nat × Nat)) : Int :=
  pairs.foldl (fun n p => n + signedOf 8 (elemBits s a [p.1]) * signedOf 8 (elemBits s b [p.2])) 0

/-! ## Lot commands -/

/-- The bytes of a response: the fields of Command response in little-endian order, and the result behind them (R247). -/
structure ResponseIs (ctx : CmdCtx) (opcode status : Nat) (result bs : List Byte) : Prop where
  opcode : leAt bs 0x00 2 = opcode % 2 ^ 16
  status : leAt bs 0x02 2 = status % 2 ^ 16
  tag : leAt bs 0x04 4 = ctx.tag.toNat
  lsn : leAt bs 0x08 4 = ctx.lsn.toNat
  index : leAt bs 0x0C 2 = ctx.index % 2 ^ 16
  zero : leAt bs 0x0E 2 = 0 ∧ leAt bs 0x14 4 = 0
  length : leAt bs 0x10 4 = result.length % 2 ^ 32 ∧ bs.length = 24 + result.length
  result : bs.drop 0x18 = result

/-- The response log holds a response to the command of `ctx`, with its opcode, status and result (R247), and it has not
left the log. -/
def Answered (ctx : CmdCtx) (opcode status : Nat) (result : List Byte) (t : State) : Prop :=
  ∃ r ∈ t.jnl.respLog, sameCmd r.ctx ctx.session.val ctx.lsn ctx.index = true ∧ r.left = false ∧
    ResponseIs ctx opcode status result r.bytes

/-- What a command's response changes beside its effect: the response log and the record of its lot, the journal's writes,
and what the journal and the grants send (R247, R345, R347). -/
def answerParts : List Part :=
  [.respLog, .lotRing, .jnl, .txQueue, .sessions, .outs, .chutes]

/-- A command of an open session's lot, executed while the module is in service (R244, R350). -/
def LiveCmd (ctx : CmdCtx) (s : State) : Prop :=
  s.dep.out = false ∧ ctx.index < 2 ^ 32

/-- A command of a lot fails: it is answered with an error and no result, and has no other effect (R248). -/
def Fails (i : Instr) (ctx : CmdCtx) (opcode status : Nat) (s : State) : Prop :=
  ∃ t, exec i s = .next t ∧ Answered ctx opcode status [] t ∧ SameBut answerParts s t

/-- `n` bytes of whole granules from `b` lie in the host-allocatable DRAM of a seam, and no allocation and no granule that
stands for another overlaps them (R245, R341). -/
structure FreeRange (s : State) (seam b n : Nat) : Prop where
  low : seamDram seam ≤ b
  high : b + n ≤ seamDram seam + Config.hostBytes seam
  aligned : b % 4096 = 0
  allocs : ∀ a ∈ s.dep.allocs, b + n ≤ a.base ∨ a.base + a.size ≤ b
  homes : ∀ v ∈ s.dep.voids, ∀ h, v.home = some h → b + n ≤ h * 4096 ∨ h * 4096 + 4096 ≤ b

/-- Every allocation is of whole granules (R245). -/
def WholeAllocs (s : State) : Prop :=
  ∀ a ∈ s.dep.allocs, a.base % 4096 = 0 ∧ a.size % 4096 = 0

/-- A descriptor remains against an allocation (R185). -/
def Pinned (s : State) (a : Allocation) : Prop :=
  ∃ e ∈ s.dep.descs, ∃ d, e.2.live = some d ∧ a.base ≤ d.base ∧ d.base < a.base + a.size

/-- The allocation at `base`: the one that begins there. -/
def AllocAt (s : State) (base : Addr) (a : Allocation) : Prop :=
  a ∈ s.dep.allocs ∧ a.base = base ∧ ∀ x ∈ s.dep.allocs, x.base = base → x = a

/-- The allocations with the one at `base` awaiting its release. -/
def pendingAt (base : Addr) (l : List Allocation) : List Allocation :=
  l.map fun x => if x.base = base then { x with freePending := true } else x

/-- The register words of `t` are those of `u`: those of an earlier state with the counts and flags that `u` names. -/
def RegsAs (u t : State) : Prop :=
  t.regs = u.regs

/-- A slot of a table is the lowest that is not in use (R177, R246). -/
def LowestFree (used : List Nat) (limit i : Nat) : Prop :=
  i < limit ∧ i ∉ used ∧ ∀ j, j < i → j ∈ used

/-- The descriptor table of `t` is that of `s` but for slot `i`, which holds `x`. -/
def DescSet (i : Nat) (x : DescSlot) (s t : State) : Prop :=
  getDescSlot t i = x ∧ ∀ j, j ≠ i → getDescSlot t j = getDescSlot s j

/-- A handle names a slot of the descriptor table that is live for commands (R177, R185). -/
def NamesDesc (s : State) (handle i : Nat) : Prop :=
  i = handle % 2 ^ 18 ∧ (getDescSlot s i).live.isSome = true ∧ (getDescSlot s i).gen = handle / 2 ^ 18 % 2 ^ 14 ∧
    (getDescSlot s i).destroyPending = false

/-- A loaded graph names a slot of the descriptor table (R185). -/
def HeldByGraph (s : State) (i : Nat) : Prop :=
  ∃ e ∈ s.dep.graphs, ∃ g, e.2.live = some g ∧ ∃ h ∈ g.pool, h.toNat % 2 ^ 18 = i

/-- The first code of a list of checks that a value fails, in their order; 0 where it fails none. -/
def firstFailing (l : List (Nat × Bool)) : Nat :=
  ((l.find? (·.2)).map (·.1)).getD 0

/-- The checks of a descriptor record in the order of R182, with their codes. -/
def descChecks (s : State) (r : List Byte) : List (Nat × Bool) :=
  let d := parseDesc r
  [(0xA, badReserved r), (4, badRank d), (5, badFormat d), (6, badLayout d), (3, badExtent d), (7, badFill d r),
    (8, badShard d r), (1, badAlign d r), (2, badRange s d)]

/-- A range lies wholly within one of the owner's allocations whose free has not been requested (R185, R245). -/
def InLive (s : State) (a : Addr) (n : Nat) : Prop :=
  ∃ x ∈ s.dep.allocs, x.freePending = false ∧ x.base ≤ a ∧ a + n ≤ x.base + x.size

/-- A range touches a void granule that has no home (R341). -/
def TouchesUnhomed (s : State) (a : Addr) (n : Nat) : Prop :=
  ∃ v ∈ s.dep.voids, v.void = true ∧ v.home = none ∧ v.gran * 4096 < a + n ∧ a < v.gran * 4096 + 4096

/-- A range touches a void granule (R340). -/
def TouchesVoid (s : State) (a : Addr) (n : Nat) : Prop :=
  ∃ v ∈ s.dep.voids, v.void = true ∧ v.gran * 4096 < a + n ∧ a < v.gran * 4096 + 4096

/-- An address lies in a seam's DRAM (R6). -/
def InDram (a : Addr) : Prop :=
  ∃ m o, placeOf a = .dram m o

/-- A handle names no descriptor that is live for commands. -/
def DeadDesc (s : State) (handle : Nat) : Prop :=
  ∀ i, ¬ NamesDesc s handle i

/-- A handle names a loaded graph that is not being unloaded (R246, R248). -/
def NamesGraph (s : State) (handle i : Nat) : Prop :=
  i = handle % 2 ^ 18 ∧ (getGraphSlot s i).live.isSome = true ∧ (getGraphSlot s i).gen = handle / 2 ^ 18 % 2 ^ 14 ∧
    (getGraphSlot s i).unloading = false

/-- Two commands of lots are different ones: they differ in session, LSN or index. -/
def OtherCmd (a b : CmdCtx) : Prop :=
  ¬ (a.session = b.session ∧ a.lsn = b.lsn ∧ a.index = b.index)

/-- The header of a completion record (R275): JOB_ID, graph handle and STATUS. -/
structure RecordIs (j : Job) (status : Nat) (bs : List Byte) : Prop where
  jobId : leAt bs 4 4 = j.jobId.toNat
  handle : leAt bs 8 4 = (j.graph + 2 ^ 18 * j.gen) % 2 ^ 32
  status : leAt bs 12 2 = status
  accepted : leAt bs 16 8 = j.ctx.tAccept % 2 ^ 64

/-- The one job of a JOB_ID. -/
def OnlyJob (s : State) (id : Word) (j : Job) : Prop :=
  s.dep.jobs.filter (·.jobId == id) = [j] ∧ ∀ x ∈ s.dep.jobs, x.key = j.key → x = j

/-- Slot `i` of the graph table has come to hold an image with its bytes and generation, and no other slot has changed. -/
structure GraphHeld (i gen : Nat) (g : Image) (raw : List Byte) (s t : State) : Prop where
  gen : (getGraphSlot t i).gen = gen
  live : (getGraphSlot t i).live = some g
  stays : (getGraphSlot t i).unloading = false
  raw : (getGraphSlot t i).raw = raw
  others : ∀ j, j ≠ i → getGraphSlot t j = getGraphSlot s j

/-- A wait of CANCEL or GRAPH_UNLOAD is over: none of its jobs is left (R249). -/
def WaitOver (s : State) (w : Wait) : Prop :=
  ∀ k ∈ w.jobs, getJob s k = none

/-! ## Jobs and tasks -/

/-- Job `key` of `t` is that of `s` changed by `f`, and no other job has changed. -/
def JobChanged (key : Nat) (f : Job → Job) (s t : State) : Prop :=
  t.dep.jobs = s.dep.jobs.map fun j => if j.key = key then f j else j

/-- Job `j` is the first of its graph among the jobs in acceptance order. -/
def FirstOfGraph (s : State) (j : Job) : Prop :=
  ∃ a b, s.dep.jobs = a ++ j :: b ∧ ∀ x ∈ a, x.graph ≠ j.graph ∧ x.key ≠ j.key

/-- A void granule that the tasks of a job still read (R340). -/
def NeedsVoid (s : State) (j : Job) : Prop :=
  ∃ v ∈ s.dep.voids, v.void = true ∧ readers s j v.gran ≠ []

/-- The run of node `i` in a job. -/
def runOf (j : Job) (i : Nat) : NodeRun :=
  tget j.nodes {} i

/-- Every task of node `i` has completed in a job. -/
def NodeDone (j : Job) (i : Nat) : Prop :=
  (runOf j i).started = true ∧ (runOf j i).doneTasks = (runOf j i).total

/-- Node `i` of job `key` may start by plan `p`: the job runs, every DEP edge into the node is satisfied, and the plan binds
free counters of unfenced seams, each seam once in ascending order (R259, R265, R269). -/
structure NodeReady (s : State) (key i : Nat) (p : NodePlan) (j : Job) (g : Image) (n : Node) : Prop where
  job : getJob s key = some j
  image : (getGraphSlot s j.graph).live = some g
  node : g.nodes[i]? = some n
  service : s.dep.out = false
  running : j.state = .running
  going : j.ending = none
  here : runsHere s g i = true
  fresh : (runOf j i).started = false
  deps : ∀ e ∈ g.edges, e.kind = 0 → e.consumer = i → runsHere s g e.producer = true → NodeDone j e.producer
  some_ : p.seams ≠ []
  order : (p.seams.map (·.1.val)).Pairwise (· < ·)
  free : ∀ x ∈ p.seams, x.1.val ∉ s.dep.fences.seams ∧ (getCounter s x.1.val x.2.1.val).active = false ∧ 0 < x.2.2

/-- A node reads a void granule (R340). -/
def ReadsVoid (s : State) (g : Image) (n : Node) : Prop :=
  ∃ v ∈ s.dep.voids, v.void = true ∧ ∃ d ∈ nodeReads g n, descTouches s g.grid d v.gran = true

/-- What a plan gives for the batch elements of a node (R264 to R268). -/
def elemPlans (s : State) (i : Nat) (p : NodePlan) (j : Job) (g : Image) (n : Node) : List ElemPlan :=
  (List.range (batchCount g n)).map (planElem s g i n (getStage s j.graph i) p)

/-- A plan has the seam of every column group of a node's adit elements, and cores of every seam in service in which the
weights lie, where they lie in several (R137, R259). -/
def PlanCovers (s : State) (i : Nat) (p : NodePlan) (j : Job) (g : Image) (n : Node) : Prop :=
  (∀ e ∈ elemPlans s i p j g n, e.adit = true → ∀ d ∈ e.tasks, ∃ m, groupSeam s g n d = some m ∧ ∃ x ∈ p.seams, x.1.val = m) ∧
  ((weightSeams s g n).length ≤ 1 ∨ ∀ m ∈ weightSeams s g n,
    (∃ x ∈ p.seams, x.1.val = m) ∨ ∀ c ∈ upCores s, c.seam.val ≠ m)

/-- A work counter as a node start binds it: its tasks from the first on, none given and none completed (R269, R270). -/
structure CounterBound (key i group : Nat) (c : WorkCounter) : Prop where
  active : c.active = true
  job : c.job = key
  node : c.node = i
  group : c.group = group
  next : c.next = 0
  limit : c.limit = c.tasks.length
  bits : c.bits = []
  given : c.given = []

/-- A work counter's job may be given tasks: it runs, and nothing ends or holds it. -/
def Serves (s : State) (c : WorkCounter) : Prop :=
  c.active = true ∧ ∃ j, getJob s c.job = some j ∧ j.state = .running ∧ j.ending = none

/-- A requester is in service (R334). -/
def RequesterUp (s : State) (seam : Fin 16) : Requester → Prop
  | .core c => coreUp s ⟨seam, c⟩ = true
  | .adit u => aditKey ⟨seam, u⟩ ∉ s.dep.fences.adits ∧ seam.val ∉ s.dep.fences.seams

/-- A requester takes task `i` of a counter (R137, R167): an adit unit a column group whose weights lie in its seam, a core any
other, and array work only with an array in service. -/
def TakesTask (s : State) (seam : Fin 16) (who : Requester) (c : WorkCounter) (i : Nat) : Prop :=
  ∀ x, counterCtx s c i = some x →
    match who with
    | .adit _ => onAdit x = true ∧ groupSeam s x.image x.node x.task = some seam.val
    | .core k => onAdit x = false ∧ (onArrays x = true → ∃ a : ArrayId, a.core = ⟨seam, k⟩ ∧ arrayFenced s a = false)

/-- Entry `r` is the head of a seam's re-run list that may run and that the requester takes (R338). -/
def HeadRerun (s : State) (seam : Fin 16) (who : Requester) (r : Rerun) : Prop :=
  let may (x : Rerun) : Prop := x.seam = seam.val ∧ Serves s (getCounter s x.seam x.counter) ∧
    TakesTask s seam who (getCounter s x.seam x.counter) x.index
  ∃ a b, s.dep.reruns = a ++ r :: b ∧ may r ∧ ∀ x ∈ a, ¬ may x

/-- No entry of a seam's re-run list may run for the requester. -/
def NoRerun (s : State) (seam : Fin 16) (who : Requester) : Prop :=
  ∀ r, ¬ HeadRerun s seam who r

/-- The next task of a counter waits for a requester (R269). -/
def Offers (s : State) (seam : Fin 16) (k : Nat) (who : Requester) : Prop :=
  let c := getCounter s seam.val k
  Serves s c ∧ c.next < c.limit ∧ TakesTask s seam who c c.next

/-- An adit unit may turn to a counter: no other that offers it a group has an earlier dry time (R137). -/
def TurnsTo (s : State) (seam : Fin 16) (k : Nat) (who : Requester) : Prop :=
  ∀ u, who = .adit u → ∀ j, j < 64 → Offers s seam j who → dryBefore (nextDry s seam j) (nextDry s seam k) = false

/-- No task of a counter has to leave the adit path: the weights of its column groups lie in seams with an adit unit in service,
and none of their granules is rehomed (R134, R139). -/
def NoneLeaves (s : State) (seam : Fin 16) (k : Nat) : Prop :=
  let c := getCounter s seam.val k
  ∀ i, i < c.limit → ∀ x, counterCtx s c i = some x → onAdit x = true →
    ∀ d ∈ weightDescs s x.image x.node x.task.elem, aditWeights s x.image d = true

/-- The work counters of `t` are those of `s` but for one, which is `c`. -/
def CounterSet (seam k : Nat) (c : WorkCounter) (s t : State) : Prop :=
  getCounter t seam k = c ∧ ∀ m j, counterKey m j ≠ counterKey seam k → getCounter t m j = getCounter s m j

/-- A counter with task `v` given to a requester: it received `v` (R269). -/
def givenTo (who : Requester) (v : Nat) (c : WorkCounter) : WorkCounter :=
  { c with given := (v, requesterNum who) :: c.given.filter (fun e => e.1 != v), received := some v }

/-- Task `v` of a work counter stands in slot `u`, and all of its writes have landed: its commands are done, its hoist queue
is empty, and a SCATTER_ADD's commit is journaled (R270). -/
structure LandedIn (s : State) (seam : Fin 16) (k v : Nat) (u : SlotId) : Prop where
  seam : u.core.seam = seam
  busy : (getSlot s u).state ≠ .empty
  counter : (getSlot s u).counter = k
  index : (getSlot s u).index = v
  done : ∀ c ∈ (getSlot s u).cmds, c.done = true
  queue : (getQueue s (slotQueue u)).ready = [] ∧ (getQueue s (slotQueue u)).issued = []
  commit : ∀ b ∈ s.scatters, b.job = (getSlot s u).job → b.node = (getSlot s u).stage →
    b.task = divisionTask s u → b.committed = true

/-- The events that a completed task has counted: those of its slot, or of the adit unit that has finished it (R275). -/
def doneCounts (s : State) (seam : Fin 16) (k v : Nat) : Option SlotId → Table Nat
  | some u => (getSlot s u).counts
  | none => ((finishedGroup s seam k v).map (·.counts)).getD []

/-- The dry time of a task in slot `u` (R326, R327): its start mark until it starts, afterwards that of its buffers. -/
def dryOf (z : State) (u : SlotId) (x : TaskSlot) : Option Time :=
  if x.state = .empty then none
  else if x.started = true then x.dry
  else (startMark z u.core.seam.val (getCounter z u.core.seam.val x.counter) x.index).map Int.toNat

/-- The READY slot of the slots `f` of core `c` that comes to run: none has an earlier dry time, a task without one counting
as latest, and among equals it is the lowest (R162). -/
def ComesToRun (c : CoreId) (f : SlotId → TaskSlot) (z : State) (u : SlotId) : Prop :=
  u.core = c ∧ (f u).state = .ready ∧ ∀ v, v.core = c → (f v).state = .ready →
    dryBefore (dryOf z v (f v)) (dryOf z u (f u)) = false ∧
    (v.slot < u.slot → dryBefore (dryOf z u (f u)) (dryOf z v (f v)) = true)

/-- The slots of `t` are `f`, but that a READY slot of core `c` has come to run where none of its slots ran (R161, R162). -/
structure SlotsRun (c : CoreId) (f : SlotId → TaskSlot) (t : State) : Prop where
  each : ∀ u, getSlot t u = f u ∨ (ComesToRun c f t u ∧ (∀ v, v.core = c → (f v).state ≠ .running) ∧
    getSlot t u = { f u with state := .running })
  one : (∃ u, u.core = c ∧ (f u).state = .ready) → ∃ u, u.core = c ∧ (getSlot t u).state = .running

/-- Every core is as it was but for its task slots; of core `c` only the vat tiles outside slot `k`, if one is named, are
left. -/
def TilesFreed (c : CoreId) (k : Option (Fin 4)) (s t : State) : Prop :=
  ∀ d, { getCore t d with slots := [] } = { getCore s d with
    slots := [], tiles := if d = c then (getCore s d).tiles.filter (fun v => some v.slot != k) else (getCore s d).tiles }

/-- A resident task that does not run is READY with a ready command and WAITING without one (R161). -/
def freshState (x : TaskSlot) : TaskSlot :=
  if x.state = .ready ∨ x.state = .waiting then { x with state := idleState x } else x

/-- The state of a slot `x`, which stands in place `u`, once core `c` has been brought up to date. -/
def freshOf (c : CoreId) (u : SlotId) (x : TaskSlot) : TaskSlot :=
  if u.core = c then freshState x else x

/-- The slots of a state with the states of core `c` brought up to date. -/
def freshSlots (s : State) (c : CoreId) (u : SlotId) : TaskSlot :=
  if u.core = c then freshState (getSlot s u) else getSlot s u

/-- A core may run a task, and its command stream is one that the sequencer builds for it: its save area holds a record for
every vat tile that it can hold at once, and array work finds an array in service (R144, R166, R167, R254, R260). -/
structure SuitsTask (s : State) (c : CoreId) (x : TaskCtx) (p : TaskSpec) : Prop where
  path : onAdit x = false
  area : tilesAtOnce s x * (if nodeX64 x.node then 32832 else 20544) ≤ p.saveBytes
  arrays : onArrays x = true → ∃ a : ArrayId, a.core = c ∧ arrayFenced s a = false
  stream : streamOk s x p = true

/-- A task may be loaded into a slot: the slot is EMPTY, its core in service, the core was given the task's index of a
counter that serves, its save area and working scratch lie apart from those of the core's other tasks, and the core suits it
(R161, R166, R269). -/
structure MayLoad (s : State) (u : SlotId) (p : TaskSpec) : Prop where
  service : s.dep.out = false
  empty : (getSlot s u).state = .empty
  up : coreUp s u.core = true
  serves : Serves s (getCounter s u.core.seam.val p.counter.val)
  given : (p.index, u.core.core.val) ∈ (getCounter s u.core.seam.val p.counter.val).given
  place : p.base % 64 = 0 ∧ p.base + p.saveBytes + p.workBytes ≤ 0x100000
  apart : ∀ k, overlap p.base (p.saveBytes + p.workBytes) (getSlot s ⟨u.core, k⟩).base
    ((getSlot s ⟨u.core, k⟩).saveBytes + (getSlot s ⟨u.core, k⟩).workBytes) = false
  suits : ∀ x, counterCtx s (getCounter s u.core.seam.val p.counter.val) p.index = some x → SuitsTask s u.core x p

/-- The slot of a task as it is loaded: none of its commands issued. -/
def loadedSlot (s : State) (u : SlotId) (p : TaskSpec) : TaskSlot :=
  let c := getCounter s u.core.seam.val p.counter.val
  let x : TaskSlot :=
    { counter := p.counter.val, index := p.index, job := c.job, stage := c.node, dry := p.dry, base := p.base,
      saveBytes := p.saveBytes, workBytes := p.workBytes, cmds := p.cmds.map fun d => { cmd := d } }
  { x with state := idleState x }

/-- The commands of a slot with those issued among `l` done (R159); a charge completes with its last vector instead, a vector
operator with its run. -/
def withDone (l : List Nat) (x : TaskSlot) : TaskSlot :=
  { x with cmds := x.cmds.mapIdx fun i c =>
      if c.issued && l.contains i && c.cmd.work == .other then { c with done := true } else c }

/-- Command `i` of a slot issued, and done where that is all it does; its task has started by `now` (R159, R325). -/
def withIssued (i : Nat) (done : Bool) (now : Time) (x : TaskSlot) : TaskSlot :=
  let y := { x with cmds := x.cmds.mapIdx fun k c => if k = i then { c with issued := true, done := done } else c }
  if x.started then y else { y with started := true, startedAt := now }

/-- Command `i` may issue to a unit: the sequencer issues the slot's commands, `i` is the next of the unit in stream order,
the commands it names have completed, its operands are present, and core and unit are in service (R159, R160, R319). -/
structure MayIssue (s : State) (u : SlotId) (x : TaskSlot) (unit : UnitKind) (i : Nat) : Prop where
  running : x.state = .running
  service : s.dep.out = false
  next : nextCmd x unit = some i
  ready : ∃ c, x.cmds[i]? = some c ∧ (∀ d ∈ c.cmd.deps, ∀ e, x.cmds[d]? = some e → e.done = true) ∧
    ∀ p ∈ c.cmd.needs, (∃ e ∈ x.cmds, e.done = true ∧ p ∈ e.cmd.brings) ∧ ∀ e ∈ x.cmds, e.done = true → p ∉ e.cmd.releases
  up : coreUp s u.core = true
  live : isLiveDom s (unitDomain u.core.seam unit) = true

/-- What becomes of a command that may issue (R85, R144, R148, R159): it is issued, it is issued and done at once, or it waits.
A charge waits until the rows of its tile are known; it is removed where its tile has no row left, where its assay pass does
not run, and where the BLK64 bit of its weight tile is set, which counts. -/
inductive Issue (s : State) (u : SlotId) : CmdWork → Option Bool → Bool → Prop where
  | other : Issue s u .other (some false) false
  | begun (c : TaskCtx) (rt ct kt : Nat) (assay : Bool) : taskCtx s u = some c → onArrays c = true →
      inTaskBlock c rt ct = true → rowsKnown s c (getSlot s u) rt ct assay = true → (assay = true → assayOn s c = true) →
      (assay = false → fullyMasked c (getSlot s u) rt ct = false) → kt ∈ (ctxTiles s c ct assay).1 →
      Issue s u (.charge rt ct kt assay) (some false) false
  | empty (c : TaskCtx) (rt ct kt : Nat) (assay : Bool) : taskCtx s u = some c → onArrays c = true →
      inTaskBlock c rt ct = true → rowsKnown s c (getSlot s u) rt ct assay = true →
      (assay = true ∧ assayOn s c = false) ∨ (assay = false ∧ fullyMasked c (getSlot s u) rt ct = true) →
      Issue s u (.charge rt ct kt assay) (some true) false
  | skipped (c : TaskCtx) (rt ct kt : Nat) (assay : Bool) : taskCtx s u = some c → onArrays c = true →
      inTaskBlock c rt ct = true → rowsKnown s c (getSlot s u) rt ct assay = true → (assay = true → assayOn s c = true) →
      (assay = false → fullyMasked c (getSlot s u) rt ct = false) → kt ∉ (ctxTiles s c ct assay).1 →
      blkBit s c.image c.node (ctxCols s c) kt ct = true → Issue s u (.charge rt ct kt assay) (some true) true
  | unknown (c : TaskCtx) (rt ct kt : Nat) (assay : Bool) : taskCtx s u = some c →
      rowsKnown s c (getSlot s u) rt ct assay = false → Issue s u (.charge rt ct kt assay) none false

/-- The registers after a command has been issued: a late start, and a charge that its BLK64 bit removes (R85, R329). -/
def issueNoted (s : State) (u : SlotId) (late skipped : Bool) : State :=
  let z := if late then raise (count s hubClkBase Ctr.DL_LATE_START_CNT 1) hubClkBase Flag.hubClk_LATE_START else s
  if skipped then count z (spRegBase u.core) Ctr.SP_BLK_SKIP_CNT 1 else z

/-- A task in slot `u` starts after its start mark (R325, R329). -/
def LateStart (s : State) (u : SlotId) (x : TaskSlot) : Prop :=
  x.started = false ∧
    ∃ m, startMark s u.core.seam.val (getCounter s u.core.seam.val x.counter) x.index = some m ∧ m < (s.clk.now : Int)

/-- The slots of `t` are those of `f` with the RUNNING slot `old` set down and `new` RUNNING (R162, R163). -/
def Switched (f : SlotId → TaskSlot) (old new : SlotId) (t : State) : Prop :=
  ∀ u, getSlot t u = if u = new then { f u with state := .running } else
    if u = old then { f u with state := idleState (f u) } else f u

/-- A READY task's dry time is earlier than the running task's by more than PREEMPT_GAP, in units of 10 ns; a gap of 0
disables the switch, and a task without a dry time counts as latest (R162). -/
def DryGap (s : State) (running ready : Option Time) : Prop :=
  s.pwr.config.preemptGap ≠ 0 ∧ ∃ r, ready = some r ∧ ∀ x, running = some x → r + 10 * s.pwr.config.preemptGap < x

/-- The tasks that an abort of slot `u` reaches: `u`, and every task at an end of a chute at whose other end stands a task
reached (R234). -/
inductive Reached (s : State) (u : SlotId) : SlotId → Prop where
  | self : Reached s u u
  | chute {v w : SlotId} (r : Nat × Nat) : Reached s u v → r ∈ allChutes s → atEnd s r v = true →
      w ∈ residentSlots s → atEnd s r w = true → Reached s u w

/-- The vat tiles of a task slot. -/
def tilesOf (s : State) (u : SlotId) : List VatTile :=
  (getCore s u.core).tiles.filter fun x => x.slot == u.slot

/-- A task of `s` that has been aborted in `t` (R219, R338): its slot is EMPTY, its vat tiles are gone, of its hoist queue
only the issued writes are left, and its index is on the re-run list, unless its job is held. -/
structure Aborted (u : SlotId) (s t : State) : Prop where
  slot : getSlot t u = {}
  tiles : tilesOf t u = []
  ready : (getQueue t (slotQueue u)).ready = []
  issued : (getQueue t (slotQueue u)).issued = (getQueue s (slotQueue u)).issued.filter (·.write)
  again : ⟨u.core.seam.val, (getSlot s u).counter, (getSlot s u).index⟩ ∈ t.dep.reruns ∨
    ∀ j, getJob t (getSlot s u).job = some j → j.state = .held

/-- A task slot is in `t` as it was in `s`, with its vat tiles and its hoist queue. -/
structure Spared (u : SlotId) (s t : State) : Prop where
  slot : getSlot t u = getSlot s u
  tiles : tilesOf t u = tilesOf s u
  queue : getQueue t (slotQueue u) = getQueue s (slotQueue u)

/-- The aborts of a task so far, this one among them (R339). -/
def abortCount (s : State) (u : SlotId) : Nat :=
  abortsOf s (getSlot s u).job (counterKey u.core.seam.val (getSlot s u).counter) (getSlot s u).index + 1

/-! ## Arrays -/

/-- The arrays of `t` are those of `s`, but for array `a`, which is `x`. -/
def ArrayIs (a : ArrayId) (x : ArrayState) (s t : State) : Prop :=
  getArray t a = x ∧ ∀ b, b ≠ a → getArray t b = getArray s b

/-- The vat tiles of core `c` are those of `s`, the one at `base` changed by `f`, and the other cores have theirs. -/
def TilesChanged (c : CoreId) (base : Nat) (f : VatTile → VatTile) (s t : State) : Prop :=
  (getCore t c).tiles = (getCore s c).tiles.map (fun v => if v.base = base then f v else v) ∧
    ∀ d, d ≠ c → getCore t d = getCore s d

/-- The task slots of `t` are those of `s`, but that the task of slot `u` has started by now (R325). -/
def SlotStarted (u : SlotId) (s t : State) : Prop :=
  getSlot t u = (if (getSlot s u).started then getSlot s u else { getSlot s u with started := true, startedAt := s.clk.now }) ∧
    ∀ v, v ≠ u → getSlot t v = getSlot s v

/-- The vat tile at a base of a core. -/
def TileAt (s : State) (c : CoreId) (base : Nat) (v : VatTile) : Prop :=
  findTile s c base = some v

/-- A charge command of a slot may start on an array (R124, R160, R163, R164, R167, R319): it is issued and not done; the array
is free, in service and its clock live; the task runs; the rows of the charge's tile are known; and the vat tile is placed,
open and ready, has come to this weight tile, and is bound to no other array and has not failed on this one. -/
structure MayCharge (s : State) (a : ArrayId) (slot : Fin 4) (cmd rt ct kt : Nat) (assay : Bool) (c : TaskCtx) (src : RowSrc)
    (v : VatTile) : Prop where
  asked : chargeOf (getSlot s ⟨a.core, slot⟩) cmd = some (rt, ct, kt, assay)
  task : taskCtx s ⟨a.core, slot⟩ = some c
  acts : rowSrcOf s c rt kt = some src
  rows : rowsKnown s c (getSlot s ⟨a.core, slot⟩) rt ct assay = true
  fenced : arrayFenced s a = false
  up : coreUp s a.core = true
  testing : (getArray s a).testing = false
  charge : (getArray s a).charge = none
  live : isLiveDom s (.seam a.core.seam .aclk) = true
  running : (getSlot s ⟨a.core, slot⟩).state = .running
  tile : findPart s ⟨a.core, slot⟩ rt ct assay = some v
  isOpen : v.isOpen = true
  ready : v.ready = true
  bound : v.array = none ∨ v.array = some a.array
  sound : v.failedOn ≠ some a.array
  come : v.nextTile = kt

/-- A vat tile with a charge of one of `parts` parts of its next weight tile begun: it has come to the next part, or to the
first part of the next weight tile of its range (R100, R111). -/
def advanced (v : VatTile) (parts : Nat) : VatTile :=
  if v.nextPart + 1 < parts then { v with nextPart := v.nextPart + 1 }
  else { v with nextTile := ((v.tiles.find? fun k => v.nextTile < k).getD v.stop), nextPart := 0 }

/-- A tile of either mode of a 16-bit weight takes both weight registers of an array (R42). -/
def TakesBoth (x : ArrayState) (mode : ArrayMode) : Prop :=
  mode = .mac2 ∨ ∃ t, x.active = some t ∧ t.mode = .mac2

/-- An array has room for a weight tile of a mode: it is in service, no charge waits for what its shadow registers hold, and
with MAC2 on either side it has drained and no charge is in progress (R40, R42). -/
structure MayLoadWeights (s : State) (a : ArrayId) (mode : ArrayMode) : Prop where
  fenced : arrayFenced s a = false
  testing : (getArray s a).testing = false
  free : ∀ ch t, (getArray s a).charge = some ch → (getArray s a).shadow = some t → ch.begun = true ∨ ch.key ≠ t.key
  drained : TakesBoth (getArray s a) mode →
    (getArray s a).flights = [] ∧ ∀ ch, (getArray s a).charge = some ch → ch.begun = false

/-- The active tile is that of a charge. -/
def ActiveFor (x : ArrayState) (ch : Charge) (w : WeightTile) : Prop :=
  x.active = some w ∧ w.key = ch.key

/-- The array that a charge's next vector finds: where the active tile is not the charge's, the shadow tile has become active
(R40). -/
inductive Swapped (x : ArrayState) : ArrayState → WeightTile → Charge → Prop where
  | kept (t : WeightTile) (ch : Charge) : x.charge = some ch → ActiveFor x ch t → Swapped x x t ch
  | swap (t : WeightTile) (ch : Charge) : x.charge = some ch → (∀ w, ¬ ActiveFor x ch w) → x.shadow = some t →
      t.key = ch.key → Swapped x { x with active := some t, shadow := none, sel := !x.sel } t ch

/-- The first vector of an array's charge waits for its weight tile (R41). -/
def WeightsWait (x : ArrayState) : Prop :=
  ∃ ch, x.charge = some ch ∧ ch.begun = false ∧ ∀ y w, ¬ Swapped x y w ch

/-- Bytes that belong into a task's working scratch are stored there (R41, R180): they have a place in it, or need none. -/
inductive Placed (s : State) (u : SlotId) (off unit n : Nat) (bs : List Byte) : Bool → State → Prop where
  | stored (t : State) : t.mem = s.mem → Placed s u off unit n bs true t
  | written (t : State) : off % unit = 0 → inWork (getSlot s u) off n = true →
      t.mem = storeBytes s.mem (scratchAddr u.core off) bs → Placed s u off unit n bs false t

/-- `n` bytes that belong into a task's working scratch have no place there. -/
def NoPlace (s : State) (u : SlotId) (off unit n : Nat) (stored : Bool) : Prop :=
  stored = false ∧ ¬ (off % unit = 0 ∧ inWork (getSlot s u) off n = true)

/-- What a loaded weight tile reports: metadata faults, and a split with its first part (R75, R83, R93). -/
def loadNoted (s : State) (c : CoreId) (k : MdCounts) (split : Bool) : State :=
  let u := countMd s c k
  if split then raise (count u (spRegBase c) Ctr.SP_SPLIT_CNT 1) (spRegBase c) Flag.sp_SPLIT else u

/-- What a scheduled row reports: malformed records of its own, and a row sent as sub-vectors (R77, R93). -/
def rowNoted (s : State) (c : CoreId) (bad : Nat) (split : Bool) : State :=
  let u := if bad = 0 then s else raise (count s (spRegBase c) Ctr.SP_IDX_OOB_CNT bad) (spRegBase c) Flag.sp_IDX_OOB
  if split then raise (count u (spRegBase c) Ctr.SP_SPAN_SPLIT_CNT 1) (spRegBase c) Flag.sp_SPLIT else u

/-- The records of a row's next vector (R179). -/
def nextRecords (s : State) (ch : Charge) (w : WeightTile) (m : Nat) : List Byte :=
  let l := buildRow s (chargeDesc s ch) (64 * lineGain w.line) { ch.src with row := ch.src.row + m }
  vectorRecords (l.vectors.getD ch.sub (badVector (64 * lineGain w.line))) ch.src.planes l.scales false l.spans

/-- The counts of a vector that has entered an array: one vector, its slots, and the planes trimmed away (R46, R51). -/
def vectorCounted (s : State) (a : ArrayId) (slots trimmed : Nat) : State :=
  count (count (count s (arrRegBase a) Ctr.ARR_VEC_CNT 1) (arrRegBase a) Ctr.ARR_PLANE_CNT slots)
    (arrRegBase a) Ctr.ARR_TRIM_CNT trimmed

/-- The partials that a vector hands to the output queue (R43, R44, R100); `b` is the array's repaired row. -/
def handedOver (w : WeightTile) (f : Flight) (b : Option Nat) (x64 : Bool) (us : List Upset) : List (Nat × Partial) :=
  (vectorPartials w f b x64 us).filterMap fun p => p.2.out.map fun o => (p.1, o)

/-- No partial of a vector is forced by a special code, overflows or underflows, or meets unequal scales (R58, R98, R99). -/
def PlainPartials (w : WeightTile) (f : Flight) (b : Option Nat) (x64 : Bool) (us : List Upset) : Prop :=
  ∀ p ∈ vectorPartials w f b x64 us, p.2.special = 0 ∧ p.2.ovf = 0 ∧ p.2.ufl = 0 ∧ p.2.mismatch = 0

/-- The oldest vector in an array that has room for its partials. -/
structure Oldest (x : ArrayState) (f : Flight) (rest : List Flight) : Prop where
  flights : x.flights = f :: rest
  room : x.out.length < 8

/-- The array with its oldest vector drained. -/
def leftArray (x : ArrayState) (rest : List Flight) : ArrayState :=
  { x with flights := rest, frozen := false, queue := if rest = [] then [] else x.queue }

/-- The array with what it holds for the vat tile at `base` discarded (R122): partials that wait are gone, vectors inside give
nothing any more, and a charge runs on without a tile, or is gone if it has sent no vector. -/
def voided (x : ArrayState) (base : Nat) : ArrayState :=
  { x with
    out := x.out.filter fun o => !(o.tile == base)
    flights := x.flights.map fun f => if f.tile == base then { f with tile := 80 } else f
    charge := x.charge.bind fun ch =>
      if !(ch.tile == base) then some ch else if ch.begun then some { ch with tile := 80 } else none }

/-- The commands of a slot whose charges go into a tile put back, to be issued and run again (R122). -/
def reissued (v : VatTile) (x : TaskSlot) : TaskSlot :=
  { x with cmds := x.cmds.map fun k =>
      match k.cmd.work with
      | .charge rt ct _ assay =>
        if rt = v.rowTile ∧ ct = v.colTile ∧ assay = v.assay then { k with issued := false, done := false } else k
      | _ => k }

/-- A slot with command `i` done. -/
def cmdDone (i : Nat) (x : TaskSlot) : TaskSlot :=
  { x with cmds := x.cmds.modify i fun c => { c with done := true } }

/-- The slots of core `c` brought up to date with slot `u` changed by `f` (R161, R162). -/
def SlotChanged (u : SlotId) (f : TaskSlot → TaskSlot) (s t : State) : Prop :=
  SlotsRun u.core (fun w => freshOf u.core w (if w = u then f (getSlot s w) else getSlot s w)) t

/-- What the checks of a vector report: the tally vector's pair of checks counts, and each check that fails has its flag. -/
def checksNoted (s : State) (a : ArrayId) (tally row col : Bool) : State :=
  let u := if tally then count s (arrRegBase a) Ctr.TLY_CHECK_CNT 1 else s
  let u := if row then u else raise u (arrRegBase a) Flag.arr_ROW_FAIL
  if col then u else raise u (arrRegBase a) Flag.arr_COL_FAIL

/-- The tally weights of a multiply-add tile are its row sums modulo 2^32 (R115). -/
def TallyOfTile (w : WeightTile) : Prop :=
  w.line = 0 ∧ w.tally.length = 64 ∧
    ∀ r, r < 64 → (w.weights.getD r []).length = 64 ∧ w.tally.getD r 0 = (w.weights.getD r []).sum % (2 ^ 32 : Nat)

/-! ## Vats -/

/-- The exact integer that an X64 tile's entry holds, in units of 2^E_REF (R20, R108). -/
def exactCode (t : VatTile) (j : Nat) : Int :=
  signedOf 64 (tget t.entries 0 j).toNat

/-- An X64 tile's entry holds the NaN code of R20. -/
def IsNan64 (t : VatTile) (j : Nat) : Prop :=
  (tget t.entries 0 j).toNat = 2 ^ 63

/-- An X64 tile that still holds exact sums: its exponents span at most 33, and one that has none yet holds no nonzero number
(R97, R108). -/
structure Exact (t : VatTile) : Prop where
  x64 : t.x64 = true
  lost : t.lost = false
  span : t.expSet = true → t.eRef ≤ t.eTop ∧ t.eTop - t.eRef ≤ 33
  unset : t.expSet = false → ∀ j, exactCode t j = 0 ∨ IsNan64 t j

/-- The reference of a tile, or the exponent that a first partial sets (R108). -/
def refOr (t : VatTile) (e : Int) : Int :=
  if t.expSet then t.eRef else e

/-- A magnitude of X64 (R20, R109). -/
def Fits64 (v : Int) : Prop :=
  -(2 ^ 63 - 1) ≤ v ∧ v ≤ 2 ^ 63 - 1

/-- The vat tile of a core after the partials of vectors that array `a` has drained, in their order (R100): it takes them while
it is open and bound to that array. -/
def tileTaking (a : ArrayId) (v : VatTile) (l : List DrainOut) : VatTile :=
  l.foldl (fun v o => if v.isOpen && v.array == some a.array then noteVat (addOut v o).1 (addOut v o).2 else v) v

/-- The exact partial that an array hands over next, and the open X64 tile that takes it into an entry that is no NaN (R108). -/
structure NextExact (s : State) (a : ArrayId) (v : VatTile) (i : Nat) (acc e : Int) : Prop where
  head : ∃ o rest n, (getArray s a).out = o :: rest ∧ o.parts.head? = some (n, .exact acc e) ∧ i = 64 * o.row + n ∧
    TileAt s a.core o.tile v
  tile : v.x64 = true ∧ v.lost = false ∧ v.isOpen = true ∧ ¬ IsNan64 v i

/-- A position of R164: the granule `k z` at which a tile of `z` granules may lie, with the tiles in its way. -/
def Position (x64 : Bool) (b : Nat) : Prop :=
  if x64 then ∃ k, k < 10 ∧ b = 8 * k else ∃ k, k < 16 ∧ b = 5 * k

/-- The lowest position that satisfies `p` (R164). -/
def LowestAt (x64 : Bool) (p : Nat → Prop) (b : Nat) : Prop :=
  Position x64 b ∧ p b ∧ ∀ d, Position x64 d → d < b → ¬ p d

/-- No tile of the core lies in the way of a position. -/
def FreeAt (s : State) (c : CoreId) (x64 : Bool) (b : Nat) : Prop :=
  inTheWay (getCore s c) x64 b = []

/-- Every tile in the way of a position belongs to a task that is not RUNNING (R164). -/
def YieldsAt (s : State) (c : CoreId) (x64 : Bool) (b : Nat) : Prop :=
  ∀ v ∈ inTheWay (getCore s c) x64 b, (getSlot s (tileSlot c v)).state ≠ .running

/-- A task may open an output tile (R145, R146, R163, R260): it runs on the arrays, the tile is one of its block, not there and
not done with, and in K_INNER the task has fewer open tiles than its core has arrays. An assay tile opens before its bound,
with a fresh table of sums; a full tile behind it. -/
structure MayOpenTile (s : State) (u : SlotId) (c : TaskCtx) (rt ct : Nat) (assay : Bool) : Prop where
  task : taskCtx s u = some c
  running : (getSlot s u).state = .running
  path : onArrays c = true
  block : inTaskBlock c rt ct = true
  fresh : findPart s u rt ct assay = none ∧ findSaved (getSlot s u) rt ct assay = none
  rows : rowsKnown s c (getSlot s u) rt ct assay = true
  full : assay = false → tileSpent (getSlot s u) rt ct = false
  assayed : assay = true → assayOn s c = true ∧ maskedRows (getSlot s u) rt ct = none ∧ freshTable s c ≠ none
  room : c.run.kOuter = true ∨
    ((getCore s u.core).tiles.filter fun v => v.slot == u.slot && v.isOpen).length < (liveArrays s u.core).length

/-- The tiles of a core without the closed ones of slot `u` that its task has done with (log entry 127). -/
def keptTiles (s : State) (u : SlotId) : List VatTile :=
  (getCore s u.core).tiles.filter fun v =>
    !(v.slot == u.slot && !v.isOpen && !v.assay && tileSpent (getSlot s u) v.rowTile v.colTile)

/-- The state with those tiles gone. -/
def tilesReleased (s : State) (u : SlotId) : State :=
  setCore s u.core { getCore s u.core with tiles := keptTiles s u }

/-- A span of leaves, by its first and its width, is a node of the left-aligned tree of R106 over `n` leaves: a node of more than
one leaf is cut at the greatest power of two below its width. -/
inductive TreeNode (n : Nat) : Nat → Nat → Prop where
  | root : 0 < n → TreeNode n 0 n
  | left {l w : Nat} (k : Nat) : TreeNode n l w → 2 ^ k < w → w ≤ 2 ^ (k + 1) → TreeNode n l (2 ^ k)
  | right {l w : Nat} (k : Nat) : TreeNode n l w → 2 ^ k < w → w ≤ 2 ^ (k + 1) → TreeNode n (l + 2 ^ k) (w - 2 ^ k)

/-- A saved part may be added into a tile (R106): both are closed, of one output tile, split and format, and the tree combines
their spans into `n`. -/
structure MayCombine (s : State) (c : CoreId) (l r : VatTile) (x : TaskCtx) (n : CombinedSpan) : Prop where
  task : taskCtx s (tileSlot c l) = some x
  closed : l.isOpen = false ∧ r.isOpen = false ∧ l.assay = false
  tile : r.rowTile = l.rowTile ∧ r.colTile = l.colTile ∧ r.split = l.split ∧ r.x64 = l.x64
  span : joinSpan (spanOfTile x l) (spanOfTile x r) (ctxCut s x).2.2 (ctxCut s x).2.1 = some n

/-- The tiles of core `c` become `l`; its other parts apart from the slots and its poisoned words stay, as do the other
cores. -/
def TilesAre (c : CoreId) (l : List VatTile) (s t : State) : Prop :=
  (getCore t c).tiles = l ∧ ∀ d, d ≠ c → getCore t d = getCore s d

/-- The fields of a tile fit the save record (R95, R111). -/
structure Savable (v : VatTile) : Prop where
  eRef : -2 ^ 15 ≤ v.eRef ∧ v.eRef < 2 ^ 15 ∧ (v.x64 = false → v.eRef = 0)
  eTop : -2 ^ 15 ≤ v.eTop ∧ v.eTop < 2 ^ 15 ∧ (v.x64 = false → v.eTop = 0)
  part : v.part < 2 ^ 16
  split : v.split < 2 ^ 16
  segment : v.segment < 2 ^ 16
  nextTile : v.nextTile < 2 ^ 32
  nextPart : v.nextPart < 16
  nextSub : v.nextSub < 16
  added : v.added < 2 ^ 32
  rowTile : v.rowTile < 2 ^ 32
  colTile : v.colTile < 2 ^ 32
  entries : ∀ j, (tget v.entries 0 j).toNat < (if v.x64 then 2 ^ 64 else 2 ^ 40) ∧ (4096 ≤ j → tget v.entries 0 j = 0)

/-- Two tiles hold the same entries, bit for bit. -/
def SameEntries (u v : VatTile) : Prop :=
  ∀ j, tget u.entries 0 j = tget v.entries 0 j

/-! ## The adits and the assay -/

/-- An adit unit may work on column group `i` of counter `k` (R133, R134, R137, R139, R269, R319): it was given the index, it has
not finished it, its seam holds the weights, and the unit, its seam, its DRAM and its clocks are in service. -/
structure MayGroup (s : State) (u : AditId) (k i : Nat) (c : TaskCtx) : Prop where
  module : s.dep.out = false
  serves : Serves s (getCounter s u.seam.val k)
  given : (i, 32 + u.unit.val) ∈ (getCounter s u.seam.val k).given
  unit : aditKey u ∉ s.dep.fences.adits
  seam : u.seam.val ∉ s.dep.fences.seams
  dram : u.seam.val ∉ s.dep.fences.drams
  kclk : isLiveDom s (.seam u.seam .kclk) = true
  mclk : isLiveDom s (.seam u.seam .mclk) = true
  open_ : ∀ d ∈ (getAdit s u).finished, ¬ (d.counter = k ∧ d.index = i)
  task : counterCtx s (getCounter s u.seam.val k) i = some c
  path : onAdit c = true ∧ groupSeam s c.image c.node c.task = some u.seam.val

/-- Accesses go through translation: during start-up, test and recovery only (R186). -/
def Translates (s : State) : Prop :=
  s.pwr.phase ≠ .running ∨ s.dep.recovery = true

/-- The closed assay tile of an output tile of a task that runs the assay pass and has not bounded the tile yet, with the fresh
table of assay sums of its weights (R144, R146, R147). -/
structure AssayReady (s : State) (u : SlotId) (rt ct : Nat) (c : TaskCtx) (v : VatTile) (t : AssayTable) : Prop where
  task : taskCtx s u = some c
  tile : findPart s u rt ct true = some v
  closed : v.isOpen = false
  on : assayOn s c = true
  first : maskedRows (getSlot s u) rt ct = none
  table : freshTable s c = some t

/-- The outputs of the live rows of a closed assay tile with their bounds: row number, and per output its entry y, l and u
(R147). -/
def assayedRows (s : State) (c : TaskCtx) (v : VatTile) (t : AssayTable) : List (Nat × List (FVal × FVal × FVal)) :=
  (rowsOfTile c v.rowTile).map fun m => (m, rowBounds s c v t m)

/-- The rows that the full pass masks: those whose outputs are all inactive (R148). -/
def assayMasked (s : State) (c : TaskCtx) (v : VatTile) (t : AssayTable) : List Nat :=
  ((assayedRows s c v t).filter fun r => r.2 != [] && r.2.all (inactive c.node.thresh)).map (·.1)

/-- An audit that is due (R151): its row is to be audited, both of its tiles are closed, and the table is fresh. -/
structure AuditDue (s : State) (u : SlotId) (rt ct m : Nat) (c : TaskCtx) (v f : VatTile) (t : AssayTable) : Prop where
  task : taskCtx s u = some c
  assay : findPart s u rt ct true = some v ∧ v.isOpen = false
  full : findPart s u rt ct false = some f ∧ f.isOpen = false
  row : (rt, ct, m) ∈ (getSlot s u).auditRows
  table : freshTable s c = some t

/-- Every output of an audited row of the full tile lies within its bounds (R151). -/
def WithinBounds (s : State) (c : TaskCtx) (v f : VatTile) (t : AssayTable) (m : Nat) : Prop :=
  ∀ (i n : Nat) (b : FVal × FVal × FVal), (liveCols c v.colTile)[i]? = some n → (rowBounds s c v t m)[i]? = some b →
    relF .le b.2.1 (vatEntryVal f (64 * m + n)) = true ∧ relF .le (vatEntryVal f (64 * m + n)) b.2.2 = true

/-- An audit counted, its row no longer to be audited (R151). -/
def auditTaken (s : State) (u : SlotId) (rt ct m : Nat) : State :=
  count (setSlot s u { getSlot s u with auditRows := (getSlot s u).auditRows.filter (· != (rt, ct, m)) })
    (assayRegBase u.core) Ctr.ASSAY_AUDIT_CNT 1

/-- The cores of `t` are those of `s`, but that the vat tile at `base` of core `c` has gone if `gone`. -/
def TileGone (c : CoreId) (base : Nat) (gone : Prop) (s t : State) : Prop :=
  (gone → (getCore t c).tiles = (getCore s c).tiles.filter fun v => v.base != base) ∧
  (¬ gone → (getCore t c).tiles = (getCore s c).tiles) ∧ ∀ d, d ≠ c → getCore t d = getCore s d

/-! ## Hoists -/

/-- A hoist takes commands for a queue: its domain is live, and the owner of a task queue holds its slot and has a command of
its stream at work in the fabric (R159, R214, R319). -/
structure QueueTakes (s : State) (q : QueueId) : Prop where
  live : isLiveDom s (.seam q.seam .fclk) = true
  owner : ∀ u, queueSlot q = some u →
    (getSlot s u).state ≠ .empty ∧ (getSlot s u).state ≠ .aborting ∧ unitActive (getSlot s u) .fabric = true ∧ s.dep.out = false

/-- The TRAM_FEED queue of a hoist, which takes trains, and the PORT_RX queue of a hoist, which takes its ring's descriptors
(R214). -/
def FeedsTram (q : QueueId) : Prop :=
  q.queue.val = 16 ∧ 4 ≤ q.hoist.val

def ReceivesPort (q : QueueId) : Prop :=
  q.queue.val = 16 ∧ q.hoist.val < 4

/-- The hoist queues of `t` are those of `s`, but for queue `q`, which is `x`. -/
def QueueIs (q : QueueId) (x : HoistQueue) (s t : State) : Prop :=
  getQueue t q = x ∧ ∀ p, p ≠ q → getQueue t p = getQueue s p

/-- The source bytes of a segment lie within one 4 KiB aligned range; a fill is a segment of its own (R215). -/
def InOneRange (runs : List MoveRun) : Prop :=
  (∃ r, runs = [r] ∧ r.fill.isSome) ∨
    ∃ k, ∀ r ∈ runs, r.fill = none ∧ r.src / 4096 = k ∧ r.len + r.src % 4096 ≤ 4096

/-- What a list of runs moves, in order: each destination byte with the address of its source byte, or its fill byte. -/
def movedBytes (ms : List MoveRun) : List (Nat × (Nat ⊕ Byte)) :=
  ms.flatMap fun r => (List.range r.len).map fun i =>
    (r.dst + i, match r.fill with | none => .inl (r.src + i) | some bs => .inr (bs.getD i 0))

/-- Some moves of a list write the same byte (R188). -/
def Clash (ms : List MoveRun) : Prop :=
  aliasedBy (fun m : MoveRun => (m.dst, m.len)) ms = true

/-- The bytes of every fill of a list are as many as it fills. -/
def FillsWhole (ms : List MoveRun) : Prop :=
  ∀ r ∈ ms, ∀ bs, r.fill = some bs → bs.length = r.len

/-- Storage unit coordinates within a tensor's units on this module (R198). -/
def WithinUnits (s : State) (q : QueueId) (d : Desc) (v : List Nat) : Prop :=
  ∀ k, k < 5 → v.getD k 0 < (unitsHere s q d).getD k 1

/-- A move of the storage unit of `b` at `v` from the unit of `a` at `w`; open bytes land where `a` has no such unit or units
of another size (R196, R199), and padding is zeroed on the way (R17, R67). -/
structure MovesUnit (s : State) (q : QueueId) (a b : Desc) (w v : List Nat) (m : MoveRun) : Prop where
  dst : m.dst = unitAt b v
  len : m.len = descUnit b
  pad : m.pad = padAt s q b v
  fits : descUnit a = descUnit b → withinUnits (unitsHere s q a) w = true → m.fill = none ∧ m.src = unitAt a w
  open_ : ¬ (descUnit a = descUnit b ∧ withinUnits (unitsHere s q a) w = true) →
    ∃ bs, m.fill = some bs ∧ bs.length = descUnit b

/-- An index in bounds of dimension `k` of a tensor (R190). -/
def IndexWithin (d : Desc) (k : Nat) (x : Int) : Prop :=
  0 ≤ x ∧ x < (extentOf d k : Int)

/-- The three tensors of an indexed transfer, by its descriptors. -/
structure IndexedTensors (s : State) (src idx dst : Nat) (a ix b : Desc) : Prop where
  src : descAt s src = some a
  idx : descAt s idx = some ix
  dst : descAt s dst = some b

/-- A command given to a queue has become its segments, behind those that the queue holds (R214, R215). -/
def Queued (q : QueueId) (cmd : HoistCmd) (sink : Sink) (s t : State) : Prop :=
  let x := getQueue s q
  let segs := makeSegments q x.nextId s.clk.now cmd sink
  QueueIs q { x with ready := x.ready ++ segs, nextId := x.nextId + segs.length } s t

/-- A transfer is the command `cmd` of its queue, given in state `z`; where the queue takes it, its segments are queued. -/
def GivesCommand (i : Instr) (q : QueueId) (cmd : HoistCmd) (s z : State) : Prop :=
  exec i s = exec (.hoistCommand q cmd) z ∧
    (QueueTakes s q → q.queue.val ≠ 16 → ∃ t, exec i s = .next t ∧ Queued q cmd .memory s t ∧ SameBut [.hoists] z t)

/-- Segment `g` of queue `n` goes before segment `k` of queue `m`: the earlier dry time, then the privileged queue, then the
lower queue number (R217). -/
def GoesBefore (s : State) (n : Nat) (g : Segment) (m : Nat) (k : Segment) : Prop :=
  segmentDry s g < segmentDry s k ∨
    (segmentDry s g = segmentDry s k ∧ ((16 ≤ n ∧ m < 16) ∨ ((16 ≤ n ↔ 16 ≤ m) ∧ n < m)))

/-- A queue may issue its head segment: it is not stopped, it is within its outstanding limit, the commands that the segment
waits for have completed, and its hoist's staging buffer has room (R213, R216, R218). -/
structure MayIssueSegment (s : State) (q : QueueId) (g : Segment) : Prop where
  head : ∃ rest, (getQueue s q).ready = g :: rest
  running : (getQueue s q).halted = false
  room : (getQueue s q).issued.length < maxOut s q
  met : depsMet s q g.deps = true
  staging : stagingRoom s q g = true

/-- The queue that a hoist issues from, with the segment (R217). -/
def Issues (s : State) (seam : Fin 16) (h : Fin 8) (n : Fin 18) (g : Segment) : Prop :=
  MayIssueSegment s ⟨seam, h, n⟩ g ∧
    ∀ (m : Fin 18) (k : Segment), m ≠ n → MayIssueSegment s ⟨seam, h, m⟩ k → GoesBefore s n.val g m.val k

/-- A queue with a translation fault (R221): counted, latched with its flag unless the flag is set, the queue halted. -/
def faultNoted (s : State) (q : QueueId) (a : Addr) : State :=
  let b := hoistRegBase q.seam q.hoist
  let s := count s b Ctr.HOIST_XLATE_CNT 1
  let s :=
    if bitAt (rawReg s (b + Flag.hoist_XLATE_FAULT.1)).toNat Flag.hoist_XLATE_FAULT.2 then s
    else raise (setRawReg (setRawReg s (b + 0x28) (BitVec.ofNat 32 a)) (b + 0x2C)
      (BitVec.ofNat 32 (a / 2 ^ 32 % 65536 + 65536 * q.queue.val))) b Flag.hoist_XLATE_FAULT
  setQueue s q { getQueue s q with halted := true }

/-- A segment without what has been read for it and noted of its writes. -/
def plainSegment (g : Segment) : Segment :=
  { g with runs := g.runs.map fun r => { run := r.run, whole := r.whole, at_ := r.at_ } }

/-- An issued segment that may complete: what it asked of the DRAM controllers has been served and its writes have gone to
them; no earlier segment of its command, still on its way, writes a byte that it writes; and no accumulation of an earlier
command is on its way before an accumulation (R193, R194, R214). -/
structure MayLand (s : State) (q : QueueId) (g : Segment) : Prop where
  served : segmentWaits s q g.id = false
  gone : ∀ r ∈ g.runs, toDram g r = true → r.entered = true ∨ r.data = none
  order : g.sink = .memory → ∀ h ∈ (getQueue s q).issued, h.cmd = g.cmd → h.id < g.id →
    ∀ a ∈ h.runs, ∀ b ∈ g.runs, overlap a.run.dst a.run.len b.run.dst b.run.len = false
  adds : isAdd g = true → ∀ h ∈ (getQueue s q).ready ++ (getQueue s q).issued, isAdd h = true → g.cmd ≤ h.cmd

/-- The bytes of a segment counted as landed, with those moved at 1/8 rate, and the segment counted (R222). -/
def landedNoted (s : State) (q : QueueId) (n : Nat) (slow : Bool) : State :=
  count (landBytes s q n slow) (hoistRegBase q.seam q.hoist) Ctr.HOIST_SEG_CNT 1

/-! ## Scatter-add, the DRAM controllers and the links -/

/-- What SCATTER.ADD needs: the queue is a task's and takes commands, both tensors are of FP32, BF16 or FP16, and the task has
not committed (R194). -/
structure MayAccumulate (s : State) (q : QueueId) (a b : Desc) (buf : ScatterBuffer) : Prop where
  takes : QueueTakes s q
  task : q.queue.val < 16
  src : a.format = fmtFp32 ∨ a.format = fmtBf16 ∨ a.format = fmtFp16
  dst : b.format = fmtFp32 ∨ b.format = fmtBf16 ∨ b.format = fmtFp16
  going : buf.committed = false

/-- The indices of an accumulation's part of the index stream, with their places. -/
def streamPart (s : State) (q : QueueId) (a ix : Desc) (o : AddOp) : List (Nat × Int) :=
  let all := (indexStream s q ix).take ((unitsHere s q a).getD o.dim 1)
  (List.range all.length).filterMap fun i => if o.first ≤ i ∧ i < o.first + o.count then some (i, all.getD i 0) else none

/-- What an accumulation adds: for each destination element, named by its index and its place in the slice, its address and the
FP32 value of a contribution. -/
abbrev Contribution := (Nat × List Nat) × Addr × Word

/-- The contributions of a part of an index stream, in order: for each index in bounds that this module holds, each element of
its slice (R194, R197). -/
def contributions (s : State) (q : QueueId) (a b : Desc) (dim : Nat) (xs : List (Nat × Int)) : List Contribution :=
  xs.flatMap fun e =>
    match (if (0 : Int) ≤ e.2 ∧ e.2 < (extentOf b dim : Int) then localIndex s q b dim e.2.toNat else none) with
    | some x => (sliceTuples (unitsHere s q b) dim x).map fun v =>
        ((e.2.toNat, v.set dim 0), unitAt b v, sourceWord s q a (v.set dim e.1))
    | none => []

/-- The value of an element in an accumulation buffer. -/
def entryOf (l : List Contribution) (k : Nat × List Nat) : Option Word :=
  (l.find? fun e => e.1 == k).map (·.2.2)

/-- FP32 addition of two FP32 words, rounded to nearest even (R194). -/
def fp32Sum (a b : Word) : Word :=
  BitVec.ofNat 32 (encodeF fp32 .rne (addF .rne (decodeF fp32 a.toNat) (decodeF fp32 b.toNat)))

/-- A task's commit may proceed: the deputy is in service, the task has made its last contribution, no journal write of its
commit is on its way, and every lower task of the scatter has committed (R195, R349). -/
structure MayCommit (s : State) (job node task : Nat) (b : ScatterBuffer) : Prop where
  buffer : findScatter s job node task = some b
  going : b.committed = false
  deputy : s.dep.out = false
  idle : commitPending s job node task = false
  lower : ∀ e ∈ s.counters, e.2.active = true → e.2.job = job → e.2.node = node → ∀ t ∈ e.2.tasks, t.part < task →
    ∃ c, findScatter s job node t.part = some c ∧ c.committed = true
  last : contributed s job node task = true

/-- A DRAM channel serves requests: its domain is live, and neither it nor its seam's DRAM is fenced (R205, R319). -/
structure ChanServes (s : State) (c : ChanId) : Prop where
  live : isLiveDom s (.seam c.seam .mclk) = true
  chan : chanKey c ∉ s.dep.fences.chans
  seam : c.seam.val ∉ s.dep.fences.drams

/-- A request that waits at a channel may be served: none that arrived before it touches one of its 64 B words (R211). -/
def MayServe (x : ChanState) (i : Nat) (r : ChanRequest) : Prop :=
  x.queue[i]? = some r ∧ ∀ j p, j < i → x.queue[j]? = some p → sharesWord r p = false

/-- A class may be granted a slot: it has a request that may be served, and it has slots of its share left in the window; or no
such class has, and none has had less of its share (R210). -/
def MayGrant (x : ChanState) (k : DramClass) : Prop :=
  (∃ i r, MayServe x i r ∧ r.cls = k) ∧ (classUsed x k < classShare k ∨
    ∀ i r, MayServe x i r → classShare r.cls ≤ classUsed x r.cls ∧
      classUsed x k * classShare r.cls ≤ classUsed x r.cls * classShare k)

/-- Request `r` at place `i` is served before request `o` at place `j` of its class (R205, R211): within 1 µs of the earliest dry
time one that hits an open row goes first, then the earlier dry time, then the earlier arrival; a scrub read goes last. -/
structure ServedBefore (x : ChanState) (i : Nat) (r : ChanRequest) (j : Nat) (o : ChanRequest) : Prop where
  window : r.dry ≤ o.dry + 1000
  hit : hitsRow x r = true → hitsRow x o = true → r.dry ≤ o.dry
  miss : hitsRow x r = false → r.dry ≤ o.dry ∧ (hitsRow x o = true → r.dry + 1000 < o.dry)
  arrival : hitsRow x o = hitsRow x r → o.dry = r.dry → i ≤ j

/-- The request that a channel serves next, of its class (R205, R211). -/
structure Served (x : ChanState) (i : Nat) (r : ChanRequest) : Prop where
  may : MayServe x i r
  grant : MayGrant x r.cls
  before : ∀ j o, MayServe x j o → o.cls = r.cls → (o.origin = .scrub → r.origin = .scrub) → ServedBefore x i r j o
  last : r.origin = .scrub → ∀ j o, MayServe x j o → o.cls = r.cls → o.origin = .scrub

/-- A channel after one slot of a request: the row is open, and with the last slot the request no longer waits. -/
def slotUsed (x : ChanState) (i : Nat) (r : ChanRequest) : ChanState :=
  useSlot { x with
    queue := if 1 < r.left then x.queue.modify i fun r => { r with left := r.left - 1, fresh := false } else x.queue.eraseIdx i
    openRows := tset x.openRows none (rowOf r.offset).1 (some (rowOf r.offset).2) } (some r.cls)

/-- A slot counted for its class; with a request's first one, its activation slots and partial words as well (R206, R207,
R210). -/
def slotNoted (s : State) (c : ChanId) (r : ChanRequest) : State :=
  let b := dramRegBase c.seam.val
  let s := count s b (classCtr r.cls) 1
  if r.fresh then count (count s b Ctr.DRAM_ACT_SLOT_CNT r.act) b Ctr.DRAM_RMW_CNT r.rmw else s

/-- Turns until a class is the next one of the round robin, after the class `last` (R224). -/
def turnsTo (last c : LinkClass) : Nat :=
  let rank : LinkClass → Nat := fun | .hoist => 0 | .chute => 1 | .tram => 2
  (rank c + 2 - rank last) % 3

/-- The channels of `t` are those of `s`, but for channel `c`, which is `x`. -/
def ChanIs (c : ChanId) (x : ChanState) (s t : State) : Prop :=
  getChan t c = x ∧ ∀ d, d ≠ c → getChan t d = getChan s d

/-! ## Chutes -/

/-- The chute endpoints of `t` are those of `s`, but for endpoint `ep`, which is `e`. -/
def EpIs (ep : EndpointId) (e : Endpoint) (s t : State) : Prop :=
  getEp t ep = e ∧ ∀ x, x ≠ ep → getEp t x = getEp s x

/-- A packet is sound (R230): as many words as its header says, no uncorrectable word or header, reserved bits zero. -/
structure SoundPacket (p : Packet) : Prop where
  words : p.data.length = 64 * packetLen p
  clean : p.bad = false
  reserved : bitField p.header.toNat 31 24 = 0

/-- A packet of `n` words fits the free words of the FILLING bank (R229). -/
def FitsBank (e : Endpoint) (n : Nat) : Prop :=
  ∃ one, bankIn e .filling = some one ∧ (bankOf e one).words + n ≤ 128

/-! ## The tram -/

/-- The hop stages of `t` are those of `s`, but for those of core `c` and, if given, of core `d`. -/
def HopsBut (c : CoreId) (d : Option CoreId) (s t : State) : Prop :=
  ∀ e, e ≠ c → some e ≠ d → getHop t e = getHop s e

/-- A TRAM_FEED queue may feed these cars as one train (R237, R238): queue 16 of one of hoists 4 to 7 of the seam in which the
train enters, its FCLK domain live; cars of 1 to 64 payload words that no position before the entry keeps. -/
structure MayFeed (s : State) (q : QueueId) (first : CarSpec) (rest : List CarSpec) : Prop where
  queue : FeedsTram q
  live : isLiveDom s (.seam q.seam .fclk) = true
  seam : (coreAtPos first.firstZ).seam = q.seam
  cars : ∀ d ∈ first :: rest, first.firstZ ≤ d.firstZ ∧ d.firstZ ≤ d.lastZ ∧ d.lastZ ≤ 511 ∧
    ∃ n, 1 ≤ n ∧ n ≤ 64 ∧ d.len = 64 * n

/-- A core keeps a car (R237, R242, R319). -/
def KeepsCar (s : State) (c : CoreId) (car : Car) : Prop :=
  (car.firstZ ≤ tramPos c ∧ tramPos c ≤ car.lastZ) ∧ coreUp s c = true ∧ isLiveDom s (.seam c.seam .kclk) = true ∧
    car.offset + car.payload.length ≤ 0x100000

/-- A car goes on past a core (R236). -/
def GoesOn (c : CoreId) (car : Car) : Prop :=
  tramPos c < 511 ∧ tramPos c < car.lastZ

/-- A car may hop (R238, R239, R319): it is the next of its source, the sources take turns, the stage and the next one are
live, and a full ingress buffer holds it back. -/
structure MayHop (s : State) (c : CoreId) (car : Car) (injected : Bool) : Prop where
  live : isLiveDom s (.seam c.seam .fclk) = true
  head : (if injected then (getHop s c).feeding else (getHop s c).arriving).head? = some car
  turn : (getHop s c).arriving = [] ∨ (getHop s c).feeding = [] ∨ (getHop s c).lastInjected ≠ injected
  next : GoesOn c car → isLiveDom s (.seam (coreAtPos (tramPos c + 1)).seam .fclk) = true
  moving : (getHop s c).stalled = false
  room : KeepsCar s c car → (getHop s c).lines < 32

/-- The car that leaves a stage, poisoned if a word of it was found uncorrectable there (R241). -/
def carAfter (car : Car) (ecc : EccFinding) : Car :=
  { car with poisoned := car.poisoned || ecc == .uncorrectable }

/-- The registers of core `c`'s tram block after a hop (R239, R241). -/
def hopNoted (s : State) (c : CoreId) (keeps on poisoned : Bool) (ecc : EccFinding) : State :=
  let b := tramRegBase c
  let s := if ecc = .corrected then count (raise (count s b Ctr.TRAM_CE_CNT 1) b Flag.tram_CE) depBase Ctr.DEP_CORRECTED_CNT 1 else s
  let s := if keeps then count s b Ctr.TRAM_KEEP_CNT 1 else s
  let s := if keeps && poisoned then raise (count s b Ctr.TRAM_UE_CNT 1) b Flag.tram_UE else s
  if on then count s b Ctr.TRAM_FWD_CNT 1 else s

/-! ## Calibration -/

/-- The calibration of every seam of `t` is that of `s`, but seam `m`'s, which is `x`. -/
def CalIs (m : Nat) (x : CalState) (s t : State) : Prop :=
  getCal t m = x ∧ ∀ j, j ≠ m → getCal t j = getCal s j

/-- A command leaves seam `m` with the calibration `x`, and nothing else changed. -/
def GivesCal (i : Instr) (m : Nat) (x : CalState) (s : State) : Prop :=
  ∃ t, exec i s = .next t ∧ CalIs m x s t ∧ SameBut [.cals] s t

/-- A command ends seam `m`'s descent, with the calibration `c` (R385). -/
def EndsDescent (i : Instr) (m : Nat) (c : CalState) (s : State) : Prop :=
  ∃ t, exec i s = .next t ∧ CalIs m (fixDescent s m c).1 s t ∧
    RegsAs (if (fixDescent s m c).2 then raise s (calRegBase m) Flag.cal_FULL_DONE else s) t ∧ SameBut [.regs, .cals] s t

/-- The calibration of a seam after a window's load and margin have been noted (R383). -/
def windowNoted (c : CalState) (load margin : Nat) : CalState :=
  { c with
    load := min 100 load
    margin := min 31 margin
    highWindows := if 75 ≤ min 100 load then c.highWindows + 1 else 0 }

/-! ## Faults and fences -/

/-- Bit `k` of the register at `a` is set. -/
def BitSet (a k : Nat) (t : State) : Prop :=
  (rawReg t a).getLsbD k = true

/-- The last entry of the fault log (R358): class, level, seam, core or channel, unit, and the time. -/
structure FaultLogged (cls level seam core unit : Nat) (s t : State) : Prop where
  what : rawReg t (depBase + 0x38) = BitVec.ofNat 32 (cls + 4 * level + 32 * seam + 512 * core + 16384 * unit)
  low : rawReg t (depBase + 0x3C) = BitVec.ofNat 32 s.clk.now
  high : rawReg t (depBase + 0x40) = BitVec.ofNat 32 (s.clk.now / 2 ^ 32)

/-- A unit has been fenced (R334, R335): the fences are `f`, the fence is the fault log's last entry, and FENCE is set. -/
structure Fenced (f : Fences) (cls level seam core unit : Nat) (s t : State) : Prop where
  fences : t.dep.fences = f
  log : FaultLogged cls level seam core unit s t
  flag : BitSet (depBase + Flag.dep_FENCE.1) Flag.dep_FENCE.2 t

/-- A domain of seam `m` stopped, if it was running (R316, R317). -/
def DomStopped (d : DomainId) (s t : State) : Prop :=
  getDom t d = if (getDom s d).running then { running := false, locked := false, inReset := true, live := false } else getDom s d

/-- What a fence may change: no fence touches module memory, the journal, allocations, descriptors or calibration. -/
def fenceParts : List Part :=
  [.freeCount, .regs, .doms, .graphs, .jobs, .fences, .dep, .txQueue, .sessions, .outs, .port, .arrays, .cores, .adits,
    .hoists, .scatters, .chans, .links, .chutes, .hops, .counters]

/-- The events of a unit in the tally window, this one the latest (R125). -/
def recentEvents (s : State) (l : List Time) : List Time :=
  s.clk.now :: l.filter fun t => decide (s.clk.now ≤ t + 1000000000 * s.pwr.config.tallyWindow)

/-! ## Clocks and domains -/

/-- Replica `k` after the counter has advanced by `d` (R322): it stands still in a domain that is in reset or has no clock, and
one that is held waits until the counter passes it. -/
def replicaAfter (s : State) (d k : Nat) (r : Replica) : Replica :=
  if isLiveDom s (replicaDomain k) = false then r
  else if r.held = false then { r with value := r.value + d }
  else if r.value < s.clk.now + d then { value := s.clk.now + d, held := false }
  else r

/-- The clock domains of `t` are those of `s`, but domain `d`, which is `x`. -/
def DomIs (d : DomainId) (x : Domain) (s t : State) : Prop :=
  getDom t d = x ∧ ∀ e, e ≠ d → getDom t e = getDom s e

/-- A domain that is stopped and in reset. -/
def heldDomain : Domain :=
  { running := false, locked := false, inReset := true, live := false }

/-- A domain after a start (R317). -/
def startedDomain (x : Domain) : Domain :=
  if x.running then (if x.inReset then { x with inReset := false, live := true } else x)
  else { running := true, locked := true, inReset := false, live := true }

/-- The replica of domain `d`, if it has one, has been loaded from the counter, and the others are as they were (R322). -/
def ReplicaLoaded (d : DomainId) (s t : State) : Prop :=
  t.clk.replicas = match replicaKey d with
    | some k => tset s.clk.replicas {} k { value := s.clk.now, held := false }
    | none => s.clk.replicas

/-- A reset of domain `d` (R314, R315): its registers and units are cleared, with the work in it aborted and the chutes that
cross it reset. -/
def afterReset (s : State) (d : DomainId) : State :=
  let z := flushPort (setDom s d { getDom s d with inReset := true, live := false }) d
  clearDomain (abortWork z (domainTasks z d) (domainChutes z d)) d

/-- What a domain's reset may change. -/
def resetParts : List Part :=
  [.regs, .doms, .jobs, .dep, .txQueue, .sessions, .outs, .port, .arrays, .cores, .adits, .hoists, .scatters, .chans,
    .links, .chutes, .hops, .counters]

/-! ## Power and start -/

/-- Power has been removed (R359): only the NOR devices, the fuses, the key store and what lies outside the module stay. -/
structure Unpowered (s t : State) : Prop where
  pending : t.pending = s.pending
  phase : t.pwr.phase = .off ∧ t.pwr.railsUp = false ∧ t.pwr.pwrGood = false
  clock : t.clk = {}
  nor : t.pwr.norA = s.pwr.norA ∧ t.pwr.norB = s.pwr.norB
  fuses : t.pwr.ownerSlots = s.pwr.ownerSlots ∧ t.pwr.secFloor = s.pwr.secFloor ∧ t.pwr.keySet0Revoked = s.pwr.keySet0Revoked
  board : t.pwr.straps = s.pwr.straps ∧ t.pwr.resetN = s.pwr.resetN ∧ t.pwr.refOk = s.pwr.refOk
  memory : t.mem = [] ∧ t.regs = []
  deputy : t.dep = {} ∧ t.jnl = {} ∧ t.port = {}
  units : t.arrays = [] ∧ t.cores = [] ∧ t.adits = [] ∧ t.hoists = [] ∧ t.chans = [] ∧ t.chutes = [] ∧ t.counters = []

/-- The shutdown conditions of *Input voltage thresholds* (R359): 10 mV, 10 mA and ns. -/
def ShutdownDue (cv ca ns : Nat) : Prop :=
  (cv < 4100 ∧ 20000 ≤ ns) ∨ (5800 < cv ∧ 1000 ≤ ns) ∨ (5500 < ca ∧ 100000 ≤ ns)

/-- A die past its trip limit of *Temperature limits* (R365). -/
def TripDue (t : Temperatures) : Prop :=
  (∃ x ∈ t.logic, 110 < x) ∨ (∃ x ∈ t.dram, 100 < x) ∨ 110 < t.hub

/-- What a warm reset leaves (R352, R407): DRAM, allocations, descriptors and jobs are kept, with the local counter and the
LOT and MIRROR sessions; every domain but DCLK is in reset, and fences, re-run lists and the units' state are gone. -/
structure WarmStarted (kind : Nat) (s t : State) : Prop where
  start : t.pwr.phase = .step 2 ∧ t.pwr.warm = true ∧ t.pwr.startKind = kind ∧ t.pwr.warmCount = s.pwr.warmCount + 1
  time : t.clk.now = s.clk.now ∧ t.clk.dclkLocked = s.clk.dclkLocked
  domains : ∀ d, getDom t d = {}
  dram : ∀ a, a < Config.coreBase → loadByte t.mem a = loadByte s.mem a
  scratch : ∀ a, Config.coreBase ≤ a → loadByte t.mem a = loadByte [] a
  tables : t.dep.allocs = s.dep.allocs ∧ t.dep.descs = s.dep.descs ∧ t.dep.jobs = s.dep.jobs
  fences : t.dep.fences = {} ∧ t.dep.reruns = [] ∧ t.dep.rerunning = []
  sessions : ∀ x ∈ t.port.sessions, x.2.kind = .lot ∨ x.2.kind = .mirror
  units : t.arrays = [] ∧ t.cores = [] ∧ t.adits = [] ∧ t.hoists = [] ∧ t.chans = [] ∧ t.links = [] ∧ t.hops = [] ∧ t.counters = []
  regs : ∀ a l, locate a = some l → l.dom ≠ none → rawReg t a = regReset a

/-- A start has moved on to step `n`. -/
def ToStep (f : StartFindings) (n : Nat) (s t : State) : Prop :=
  exec (.startStepDone f) s = .next t ∧ t.pwr.phase = .step n

/-- What a fence of DRAM may change besides. -/
def fencePartsAll : List Part :=
  .voids :: .jnl :: fenceParts

/-! ## Integer blocks and the vat window -/

/-- A value is an integer times a power of two. -/
def IsInt (a : Int) (e : Int) (v : FVal) : Prop :=
  ∃ n m, v = .fin n m e ∧ (if n then -(m : Int) else (m : Int)) = a

/-! ## The management queue -/

/-- A frame that the port receives and keeps as a management frame: the link and its clock are up, size, FEC and FCS are good, and
it is addressed to the module's management port (R280, R281). -/
structure Arrives (s : State) (f : RxFrame) : Prop where
  live : portLive s = true
  size : sizeOk f = true
  fcs : f.fcsOk = true
  fec : f.fecBad = 0
  kept : udpTo s f s.pwr.config.mgmtPort = true

/-- The state with another management queue. -/
def withQueue (s : State) (q : List MgmtFrame) : State :=
  { s with port := { s.port with mgmtQueue := q } }

/-- Requests of which the first, if any, names an operation (R305). -/
def FrontKnown (q : List MgmtFrame) : Prop :=
  ∀ r, q.head? = some r → knownOp r.header.op.toNat = true

/-- A request of an operation stands at the front of the queue, none is held, and the request behind it names an operation
(R306). -/
structure AtFront (r : MgmtFrame) (op : Nat) (s : State) : Prop where
  op : r.header.op.toNat = op
  free : s.port.held = none
  front : s.port.mgmtQueue.head? = some r
  next : FrontKnown s.port.mgmtQueue.tail

/-- The state in which the request at the front is executed: it has left the queue. -/
def dequeue (s : State) : State :=
  withQueue s s.port.mgmtQueue.tail

/-- The rows of the operations of R305, each with its code. -/
def mgmtRows (r : MgmtFrame) (sig : SigVerdict) : List (Nat × Instr) :=
  [(1, .hello r), (2, .openSession r sig), (3, .shut r), (16, .read r), (17, .write r sig), (18, .abort r)]

/-- A command leads to a response without a body to the request at the front, and to nothing else. -/
def AnswersOnly (c : Instr) (r : MgmtFrame) (status : Nat) (s : State) : Prop :=
  ∃ t, exec c s = .next t ∧ SameBut [.txQueue, .mgmt] s t ∧ t.port = { (dequeue s).port with
    txQueue := s.port.txQueue ++ [mgmtAnswer s r status []] }

/-- A command leads to BAD_REQUEST for the request at the front, which is counted (R305, R412). -/
def BadRequest (c : Instr) (r : MgmtFrame) (s : State) : Prop :=
  ∃ t, exec c s = .next t ∧ Counted Ctr.MG_BADREQ_CNT 1 s t ∧
    BitSet Flag.ident_BAD_REQUEST.1 Flag.ident_BAD_REQUEST.2 t ∧ RegsBut [Ctr.MG_BADREQ_CNT, Flag.ident_BAD_REQUEST.1] s t ∧
    SameBut [.regs, .txQueue, .mgmt] s t ∧ t.port = { (dequeue s).port with
      txQueue := s.port.txQueue ++ [mgmtAnswer s r 5 []] }

/-! ## Management requests -/

/-- The response to a request sent, and for a request of a session kept for a repetition; a BAD_REQUEST is counted (R305,
R306, R412). `z` is the state in which the request is answered. -/
structure Finished (r : MgmtFrame) (status : Nat) (body : List Byte) (z t : State) : Prop where
  port : t.port = { z.port with
    txQueue := z.port.txQueue ++ [mgmtAnswer z r status body]
    mgmt := match getMgmt z r.header.session.toNat with
      | some x => tset z.port.mgmt none r.header.session.toNat
          (some { x with lastReq := some r.header.reqId, lastAnswer := some (mgmtAnswer z r status body) })
      | none => z.port.mgmt }
  good : status ≠ 5 → t.regs = z.regs
  bad : status = 5 → Counted Ctr.MG_BADREQ_CNT 1 z t ∧ BitSet Flag.ident_BAD_REQUEST.1 Flag.ident_BAD_REQUEST.2 t ∧
    RegsBut [Ctr.MG_BADREQ_CNT, Flag.ident_BAD_REQUEST.1] z t
  frame : SameBut [.regs, .txQueue, .mgmt] z t

/-- A request of an open session, with its TOKEN and another REQ_ID than the one executed last (R305, R306). -/
structure InSession (r : MgmtFrame) (s : State) : Prop where
  header : requestOk r.header = true
  open_ : ∃ x, getMgmt s r.header.session.toNat = some x ∧ x.token = r.header.token ∧ x.lastReq ≠ some r.header.reqId

/-- The signatures of an owner's OPEN: it is signed and both signatures verify (R286). -/
def OwnerSigned (q : OpenReq) (sig : SigVerdict) : Prop :=
  q.signed = true ∧ sig.ed = true ∧ sig.mldsa = true

/-- Whose OPEN is accepted, by the kind of the session (R286, R375). -/
def MayOpen (s : State) (f : RxFrame) (q : OpenReq) (sig : SigVerdict) : Prop :=
  (q.kind = 0 ∧ s.pwr.ownerLost = true ∧ q.signed = false ∧ mgmtOpen s = []) ∨
  (q.kind = 0 ∧ s.pwr.ownerLost = false ∧ (enrolled s = false ∨ OwnerSigned q sig)) ∨
  (q.kind = 1 ∧ enrolled s = true ∧ s.pwr.ownerLost = false ∧ OwnerSigned q sig) ∨
  (q.kind = 2 ∧ ∃ slot m, chuteOpener s f q = some (slot, m)) ∨
  (q.kind = 3 ∧ s.pwr.config.twin = true ∧ f.srcIp = moduleIp s (moduleNum s) (1 - s.pwr.config.side))

/-- The state in which an OPEN is executed, its nonce used up (R286), and the MIRROR session that it replaces closed (R355). -/
def opening (s : State) (q : OpenReq) : State :=
  let z := withQueue { s with port := { s.port with nonces := s.port.nonces.filter fun x => x.1 != q.nonce } }
    s.port.mgmtQueue.tail
  match mirrorSession s with
  | some k => if q.kind = 3 then setEp (setSession z k {}) (.hub (Fin.ofNat 2048 k)) {} else z
  | none => z

/-- A session of the requester of an OPEN, with its TOKEN and two grants (R285 to R287). -/
def peerSession (s : State) (r : MgmtFrame) (q : OpenReq) (token : Word) : Session :=
  { token := token, peerMac := answerMac s r.frame, peerIp := r.frame.srcIp, peerPort := q.port, grants := 2 }

/-- A session opened at an index, with its hub receive endpoint, and the response to its OPEN sent (R285 to R287, R300). -/
structure Opened (r : MgmtFrame) (q : OpenReq) (i : Nat) (token : Word) (x : Session) (tail : Nat) (z t : State) : Prop where
  here : getSession t i = x
  others : ∀ j, j ≠ i → getSession t j = getSession z j
  endpoint : getEp t (.hub (Fin.ofNat 2048 i)) = freshEndpoint tail 0x3FF
  endpoints : ∀ e, e ≠ .hub (Fin.ofNat 2048 i) → getEp t e = getEp z e
  answer : ∃ pre, t.port.txQueue = pre ++ [mgmtAnswer z r 0 (openAnswer q i token)] ∧
    (q.kind ≠ 1 ∨ z.pwr.config.twin = false → pre = z.port.txQueue)
  frame : SameBut [.freeCount, .graphs, .jnl, .txQueue, .sessions, .outs, .chutes] z t

/-- A LOT session closed (R305, R347): it and its endpoint are gone, what was accepted of it goes on without it. -/
structure LotShut (i : Nat) (s z : State) : Prop where
  gone : getSession z i = {}
  endpoint : getEp z (.hub (Fin.ofNat 2048 i)) = {}
  work : ∃ k, 0 < k ∧ z.dep.jobs = s.dep.jobs.map (fun j => { j with ctx := deadCtx i k j.ctx }) ∧
    z.dep.waits = s.dep.waits.map (fun w => { w with ctx := deadCtx i k w.ctx }) ∧
    z.jnl.lotRing = reclaimLots (s.jnl.lotRing.map (deadRecord i k)) ∧
    z.port.orphans = s.port.orphans ++
      (if (getSession s i).backlog = [] then [] else [(getSession s i).backlog.map fun c => { c with ctx := deadCtx i k c.ctx }])
  frame : SameBut [.regs, .jobs, .waits, .respLog, .lotRing, .jnl, .txQueue, .sessions, .outs, .orphans, .chutes] s z

/-- The state with a management session closed. -/
def mgmtClosed (s : State) (i : Nat) : State :=
  { s with port := { s.port with mgmt := tset s.port.mgmt none i none } }

/-- Registers read one at a time, in order: the words and the state after them (R400, R404). -/
def ReadsWords : List Nat → List Word → State → State → Prop
  | [], ws, s, t => ws = [] ∧ t = s
  | a :: l, ws, s, t => ∃ x w, locate a = some x ∧ answers s x.dom = true ∧ ws = (readReg s a x).1 :: w ∧
      ReadsWords l w (readReg s a x).2 t

/-- Registers written one at a time, in order, within an open management session (R400, R404). -/
def WritesWords (i : Nat) (sig : SigVerdict) : List (Nat × Word) → State → State → Prop
  | [], s, t => t = s
  | p :: l, s, t => ∃ x m, locate p.1 = some x ∧ answers s x.dom = true ∧ getMgmt s i = some m ∧
      WritesWords i sig l (writeReg s p.1 x p.2 sig m.signed) t

/-- An address is that of a register of a domain that answers (R320). -/
def AddrAnswers (s : State) (a : Nat) : Prop :=
  ∃ x, locate a = some x ∧ answers s x.dom = true

/-- A register whose write sets something going beside the stored word: CH_CTRL, DEP_CTRL, IMG_CTRL, the owner's and the
attestation's control (R234, R358, R369, R375, R376). -/
def Acts (x : RegLoc) : Prop :=
  (x.block = .ch ∧ x.off = 0x0C) ∨ (x.block = .dep ∧ x.off = 0x44) ∨
  (x.block = .img ∧ (x.off = 0x0C ∨ x.off = 0x24 ∨ x.off = 0x50))

/-- An access that is held at its `n`-th word, with the words read (R306, R401). -/
def holding (s : State) (r : MgmtFrame) (n : Nat) (ws : List Word) : State :=
  { s with port := { s.port with held := some { req := r, at_ := n, words := ws } } }

/-- A READ or WRITE answered OK, and counted (R399, R401, R412). -/
def AccessDone (r : MgmtFrame) (n : Nat) (ws : List Word) (y t : State) : Prop :=
  ∃ u, Finished r 0 (accessBody r n ws) y u ∧ Counted Ctr.MG_REQ_CNT 1 u t ∧ RegsBut [Ctr.MG_REQ_CNT] u t ∧ SameBut [.regs] u t

/-- An ABORT at the front of the queue, that a held access waits for (R306). -/
structure AbortFront (r : MgmtFrame) (h : HeldAccess) (s : State) : Prop where
  op : r.header.op.toNat = 18
  held : s.port.held = some h
  front : s.port.mgmtQueue.head? = some r
  next : FrontKnown s.port.mgmtQueue.tail

/-! ## Images, owner, attestation and register rows -/

/-- The bits [hi:lo] of the register at `a` have the value `v`, its other bits are as they were, and so is every other
register. -/
def FieldSet (a hi lo v : Nat) (s t : State) : Prop :=
  bitField (rawReg t a).toNat hi lo = v ∧ (rawReg t a).toNat % 2 ^ lo = (rawReg s a).toNat % 2 ^ lo ∧
  (rawReg t a).toNat / 2 ^ (hi + 1) = (rawReg s a).toNat / 2 ^ (hi + 1) ∧ RegsBut [a] s t

/-- IMG_STAT reports an error (R373, R387): ERROR is set, with the code and the number of the check that failed. -/
def ImgFailed (code reason : Nat) (s t : State) : Prop :=
  BitSet (imgBase + Flag.img_ERROR.1) Flag.img_ERROR.2 t ∧ bitField (rawReg t (imgBase + 0x10)).toNat 5 3 = code ∧
  bitField (rawReg t (imgBase + 0x10)).toNat 9 6 = reason ∧ RegsBut [imgBase + 0x10] s t

/-- Outside the `n` bytes from `a` of one device, both devices are as they were. -/
def NorBut (b : Bool) (a n : Nat) (s t : State) : Prop :=
  norOf t (!b) = norOf s (!b) ∧ ∀ x, x < a ∨ a + n ≤ x → loadByteFill 0xFF (norOf t b) x = loadByteFill 0xFF (norOf s b) x

/-- A device holds the bytes `bs` from offset `a`. -/
def NorHolds (b : Bool) (a : Nat) (bs : List Byte) (t : State) : Prop :=
  ∀ i (h : i < bs.length), loadByteFill 0xFF (norOf t b) (a + i) = bs[i]

/-- The rows that write IMG_CTRL, each with its COMMAND (R373, R387). -/
def imgRows (v : Word) : List (Nat × Instr) :=
  [(1, .program v), (2, .verify v)]

/-- What an enrolment needs (R375): both signatures, a module that is not enrolled or has lost its owner block, then with the
keys of its last slot, else with a free slot, and a nonce at most 10 s old. -/
structure MayEnrol (s : State) (sig : SigVerdict) (keys : List Byte) : Prop where
  signed : sig.ed = true ∧ sig.mldsa = true
  free : enrolled s = false ∨ s.pwr.ownerLost = true
  same : s.pwr.ownerLost = true → ∀ x, lastSlot s = some x → x.2.digest = keysDigest keys
  slot : s.pwr.ownerLost = false → s.pwr.ownerSlots.length < 64
  fresh : ∃ t, s.pwr.enrolNonceAt = some t ∧ s.clk.now ≤ t + 10000000000

/-! ## Frames at the port -/

/-- Counters at the addresses `l` have counted one event, the flags `fl` are set, and no other register and nothing else has
changed (R405, R406). -/
structure Counts (l : List Nat) (fl : List (Nat × Nat)) (s t : State) : Prop where
  counted : ∀ a ∈ l, Counted a 1 s t
  flags : ∀ f ∈ fl, BitSet f.1 f.2 t
  others : RegsBut (l ++ fl.map (·.1)) s t
  frame : SameBut [.regs] s t

/-- The address of a counter of the port. -/
def pc (c : Nat) : Nat := portBase + c

/-- The place of a flag of the port. -/
def pf (f : Nat × Nat) : Nat × Nat := (portBase + f.1, f.2)

/-- The frame that a row receives, and whether the port's filters keep it as one of the row's kind (R281). -/
def frameOf (s : State) : Instr → Option (RxFrame × Bool)
  | .rxFrameError f => some (f, frameKept s f)
  | .arpRequest f _ => some (f, macOk s f && vlanOk s f && f.etherType == 0x0806)
  | .neighborSolicitation f a => some (f, macOk s f && vlanOk s f && f.etherType == 0x86DD && f.ipOk && f.ipProto == 58 &&
      f.hopLimit == 255 && a == ownIp6 s && (f.dstIp == ownIp6 s || f.dstIp == solicitedIp s))
  | .pfcFrame f _ _ _ => some (f, macOk s f && vlanOk s f && f.etherType == 0x8808)
  | .pauseFrame f => some (f, f.etherType == 0x8808 && vlanOk s f && (f.dstMac == 0x0180C2000001 || f.dstMac == s.pwr.mac))
  | .mgmtFrameReceive r => some (r.frame, udpTo s r.frame s.pwr.config.mgmtPort)
  | .data f _ | .close f _ | .ack f _ | .nak f _ | .tail f _ | .reset f _ => some (f, udpTo s f s.pwr.config.iltPort)
  | _ => none

/-- A frame that the port receives, of a good size and FCS and without an uncorrectable codeword (R280). -/
def Received (s : State) (f : RxFrame) : Prop :=
  portLive s = true ∧ 64 ≤ f.size ∧ f.size ≤ 9216 ∧ f.fcsOk = true ∧ f.fecBad = 0

/-- The frame at place `i` of the transmitter's queue may go: its priority is not paused, and no DATA of its session stands
before it (R302, R303). -/
def MaySend (s : State) (i : Nat) (f : TxFrame) : Prop :=
  s.port.txQueue[i]? = some f ∧ framePaused s f = false ∧
  ¬(f.cls = .data ∧ ∃ j g, j < i ∧ s.port.txQueue[j]? = some g ∧ g.cls = .data ∧ frameSession g = frameSession f)

/-! ## The inter-module link's packets -/

/-- A frame that the port keeps as an ILT packet of a type (R280, R281, R289). -/
structure IltArrives (s : State) (f : RxFrame) (p : IltPacket) (type : Nat) : Prop where
  received : Received s f
  kept : udpTo s f s.pwr.config.iltPort = true
  type : p.type.toNat = type

/-- The state in which a frame that arrived is counted, with what its end counts (R280, R308). -/
def arrived (s : State) (f : RxFrame) : State :=
  count (frameEnds s f) portBase Ctr.PORT_RX_FRAME_CNT 1

/-- A packet whose CRC32C, header and length are right (R288, R289, R291). -/
def SoundIlt (p : IltPacket) (lots : Bool) : Prop :=
  iltCrcOk p = true ∧ headerOk p lots = true ∧ lengthOk p = true

/-- Session `i` has become `x`, and nothing else has changed. -/
def SessionIs (i : Nat) (x : Session) (s t : State) : Prop :=
  getSession t i = x ∧ (∀ j, j ≠ i → getSession t j = getSession s j) ∧ SameBut [.sessions] s t

/-- A control packet of a session, to its peer (R289). -/
def controlOf (s : State) (i type : Nat) (arg0 arg1 : Word) : TxFrame :=
  let x := getSession s i
  { cls := .control, dstMac := x.peerMac, dstIp := x.peerIp, dstPort := x.peerPort, pcp := s.pwr.config.pcpCtrl,
    dry := s.clk.now, body := .ilt type i x.token (if type = 8 then 0 else x.expPsn) 0 0 arg0 arg1 0 [] }

/-- An ACK is queued for a session, in place of one that had not gone out (R289, R295). -/
def AckSent (i : Nat) (s t : State) : Prop :=
  let x := getSession s i
  t.port.txQueue = (s.port.txQueue.filter fun f => !isAckOf i f) ++
    [controlOf s i 2 x.grants (if x.kind = .lot ∨ x.kind = .mirror then x.accLsn else 0)] ∧ SameBut [.txQueue] s t

/-- A NAK is queued for a session, and one is outstanding from now on (R294). -/
structure NakSent (i reason : Nat) (s t : State) : Prop where
  session : getSession t i = { getSession s i with
    nakAt := some s.clk.now
    nakReason := reason }
  others : ∀ j, j ≠ i → getSession t j = getSession s j
  queue : t.port.txQueue = s.port.txQueue ++ [controlOf s i 3 (getSession s i).grants (BitVec.ofNat 32 reason)]
  counted : Counted (pc Ctr.PORT_NAK_TX_CNT) 1 s t ∧ RegsBut [pc Ctr.PORT_NAK_TX_CNT] s t
  frame : SameBut [.regs, .txQueue, .sessions] s t

/-- A NAK is queued unless one is outstanding (R294). -/
def NakUnless (i reason : Nat) (s t : State) : Prop :=
  ((getSession s i).nakAt = none → NakSent i reason s t) ∧ ((getSession s i).nakAt ≠ none → t = s)

/-- The expected PSN of a session has committed (R294, R301). -/
def committedPsn (x : Session) : Session :=
  { x with
    expPsn := x.expPsn + 1
    nakAt := none
    nakReason := 0
    resync := false
    resyncs := 0 }

/-- The rows of packets that are received in order. -/
def seqRows (f : RxFrame) (p : IltPacket) : List (Nat × Instr) :=
  [(1, .data f p), (6, .close f p)]

/-- The rows of all ILT packets, each with its TYPE (R289). -/
def iltRows (f : RxFrame) (p : IltPacket) : List (Nat × Instr) :=
  [(1, .data f p), (6, .close f p), (2, .ack f p), (3, .nak f p), (4, .tail f p), (8, .reset f p)]

/-- The place of a counter of a hub receive endpoint. -/
def hc (i c : Nat) : Nat := epRegBase (.hub (Fin.ofNat 2048 i)) + c

/-- The state with one sending session replaced. -/
def withOut (s : State) (k : Nat) (o : OutSession) : State :=
  { s with port := { s.port with outs := s.port.outs.set k o } }

/-- The rows of packets that go to a sender, each with its TYPE (R289). -/
def sendRows (f : RxFrame) (p : IltPacket) : List (Nat × Instr) :=
  [(2, .ack f p), (3, .nak f p), (4, .tail f p)]

/-- A packet comes from the peer of the open LOT session that it names (R285). -/
def FromPeer (s : State) (f : RxFrame) (p : IltPacket) (i : Nat) : Prop :=
  rxSession s p = some i ∧ (getSession s i).kind = .lot ∧ f.srcIp = (getSession s i).peerIp

/-- No session that this module sends in has the index `i`. -/
def NoneSends (s : State) (i : Nat) : Prop :=
  ∀ o ∈ s.port.outs, o.session ≠ i

/-- Sending session `k` is the only one with the index `i`. -/
def OnlySends (s : State) (i k : Nat) (o : OutSession) : Prop :=
  s.port.outs[k]? = some o ∧ o.session = i ∧ ∀ j u, s.port.outs[j]? = some u → u.session = i → j = k

/-- A session that resumes after both ends have sent and received RESET (R300). -/
def resumed (x : Session) : Session :=
  { x with
    resetSent := 0
    resetSeen := false
    expPsn := 0
    grants := 2
    nakAt := none
    nakReason := 0 }

/-- A sending session that resumes (R300). -/
def resumedOut (o : OutSession) : OutSession :=
  { o with
    resetSent := 0
    resetSeen := false
    txPsn := 0
    grants := 2
    started := 0
    room := 0
    waiting := []
    unacked := [] }

/-- The DATA packet that a first leg's packet becomes: the chute header without its debit bit (R290, R229). -/
def legData (o : OutSession) (p : Packet) : TxData :=
  { psn := o.txPsn
    lsn := 0
    index := 0
    first := false
    last := false
    total := 0
    bytes := p.data
    chdr := p.header &&& 0xFFFFFF7F }

/-! ## Session requests -/

/-- The fields of an OPEN that do not say who may open keep to their table (R286, R287). -/
structure OpenFields (q : OpenReq) : Prop where
  zero : q.zero1 = 0 ∧ q.zero2 = 0
  port : q.port ≠ 0
  window : if q.kind = 1 then 16384 ≤ q.window ∧ q.window ≤ 1048576 ∧ q.window % 4096 = 0 else q.window = 0
  chute : q.kind ≠ 2 → q.edge = 0 ∧ q.digest = List.replicate 64 0

/-- The nonce of an OPEN stands and is at most 10 s old (R286, R287). -/
def NonceStands (s : State) (q : OpenReq) : Prop :=
  ∃ t, (q.nonce, t) ∈ s.port.nonces ∧ s.clk.now ≤ t + 10000000000

/-- Whether an index of the kind's range is free for an OPEN, and which (R285, R287, R305, R378). -/
def OpenPlace (z : State) (q : OpenReq) (i : Nat) : Prop :=
  (q.kind = 0 ∧ LowestFree (mgmtOpen z) 4 i) ∨
  (q.kind = 1 ∧ z.port.inService = true ∧ lotSessions z < 1024 ∧ LowestFree (usedSessions z) 2048 i) ∨
  ((q.kind = 2 ∨ q.kind = 3) ∧ LowestFree (usedSessions z) 2048 i)

/-! ## Register rows -/

/-- The words of a READ or WRITE: their addresses, and the values that a WRITE carries (R399, R400). -/
def accessList (r : MgmtFrame) (write : Bool) : List (Nat × Word) :=
  (List.range (beAt r.body 4 2)).map fun i =>
    (beAt r.body 0 4 + 4 * i, BitVec.ofNat 32 (if write then beAt r.body (8 + 4 * i) 4 else 0))

/-- A READ or WRITE whose body keeps to its table: 1 to 64 words, each at the address of a register (R399, R400). -/
structure AccessFields (r : MgmtFrame) (write : Bool) : Prop where
  count : 1 ≤ beAt r.body 4 2 ∧ beAt r.body 4 2 ≤ 64
  length : r.body.length = if write then 8 + 4 * beAt r.body 4 2 else 8
  zero : beAt r.body 6 2 = 0
  registers : ∀ p ∈ accessList r write, p.1 < 2 ^ 32 ∧ locate p.1 ≠ none

/-- The row of a READ or WRITE. -/
def accessRow (r : MgmtFrame) (sig : SigVerdict) (write : Bool) : Instr :=
  if write then .write r sig else .read r

/-- An access that meets a domain that does not answer at its `n`-th word: it ends with BUSY in a domain in reset, and is held
while the domain's clock is stopped (R320, R401). -/
def AccessStops (c : Instr) (r : MgmtFrame) (n : Nat) (ws : List Word) (x : RegLoc) (s z : State) : Prop :=
  (domRuns s x.dom = true → ∃ t, exec c s = .next t ∧ Finished r 3 (accessBody r n ws) z t) ∧
  (domRuns s x.dom = false → exec c s = .next (holding z r n ws))

/-! ## Images and the owner -/

/-- A write of OWNER_CTRL that begins the operation of one of its bits: the KEY is right, the other bit is clear, no operation
runs, and the deputy does (R375, R376, R387). -/
def OwnerWrite (v : Word) (bit other : Nat) (s : State) : Prop :=
  v.toNat % 2 ^ 16 = Config.key ∧ v.getLsbD bit = true ∧ v.getLsbD other = false ∧ s.pwr.ownerOp = none ∧ deputyRuns s = true

/-- Both devices hold the bytes `bs` as their owner section, and are outside it as they were (R374). -/
def OwnerSections (bs : List Byte) (s t : State) : Prop :=
  ∀ b, NorHolds b offOwner bs t ∧ ∀ x, x < offOwner ∨ offOwner + sectionBytes ≤ x → loadByteFill 0xFF (norOf t b) x = loadByteFill 0xFF (norOf s b) x

/-- The outcome that ENROL's checks give, in the order of their codes (R375). -/
structure EnrolOutcome (s : State) (sig : SigVerdict) (keys : List Byte) (code : Nat) : Prop where
  passes : code = 0 ↔ MayEnrol s sig keys
  signature : ¬ (sig.ed = true ∧ sig.mldsa = true) → code = 2
  enrolled : sig.ed = true → sig.mldsa = true → enrolled s = true → s.pwr.ownerLost = false → code = 3
  range : code = 0 ∨ 2 ≤ code ∧ code ≤ 6

/-! ## Frames -/

/-- A frame received and answered: it is counted, and the answer queued (R280, R282). -/
def Answers (a : TxFrame) (s t : State) : Prop :=
  t.port.txQueue = s.port.txQueue ++ [a] ∧ Counted (pc Ctr.PORT_RX_FRAME_CNT) 1 s t ∧ RegsBut [pc Ctr.PORT_RX_FRAME_CNT] s t ∧
  SameBut [.regs, .txQueue] s t

/-- The frame `f` at place `i` goes before `g` at place `j` (R302): control frames first, then management, then data by dry time
and session; others in their order. -/
def SentBefore (f g : TxFrame) (i j : Nat) : Prop :=
  classRank f.cls < classRank g.cls ∨ (f.cls = g.cls ∧
    if f.cls = .data then f.dry < g.dry ∨ (f.dry = g.dry ∧ frameSession f < frameSession g) else i < j)

/-- The modes that the link may come up in (R278, R279, R372). -/
def ModeFits (s : State) (m : Nat) : Prop :=
  let p := s.pwr.config.portMode
  1 ≤ m ∧ m ≤ 6 ∧ ((s.pwr.rescue = true ∧ (m = 4 ∨ m = 5)) ∨ (s.pwr.rescue = false ∧
    (m = p ∨ (s.pwr.config.bringupOk = true ∧ ((p = 1 ∧ m = 4) ∨ (p = 2 ∧ m = 5))))))

/-! ## Packets of the inter-module link -/

/-- A packet that is received, counted and dropped (R289, R308). -/
def PacketDrops (c : Instr) (f : RxFrame) (s : State) : Prop :=
  ∃ t, exec c s = .next t ∧ Counts [pc Ctr.PORT_RX_FRAME_CNT, pc Ctr.PORT_FILTER_DROP_CNT] [] (frameEnds s f) t

/-- A packet that is received and fails its CRC32C (R291, R308). -/
def CrcCounts (f : RxFrame) (s t : State) : Prop :=
  Counts [pc Ctr.PORT_RX_FRAME_CNT, pc Ctr.PORT_CRC32C_ERR_CNT] [pf Flag.port_CRC32C_ERR] (frameEnds s f) t

/-- A damaged DATA or CLOSE packet: one in sequence leads to a NAK, and DATA counts as rewound (R291, R294). -/
def Rewound (i : Nat) (p : IltPacket) (data : Bool) (y t : State) : Prop :=
  (p.psn ≠ (getSession y i).expPsn → t = y) ∧
  (p.psn = (getSession y i).expPsn → data = false → NakUnless i 2 y t) ∧
  (p.psn = (getSession y i).expPsn → data = true →
    ∃ u, Counts [hc i Ctr.CH_REWIND_CNT] [(hc i Flag.ch_REWIND.1, Flag.ch_REWIND.2)] y u ∧ NakUnless i 2 u t)

/-- A lot that its last packet completes (R290, R296). -/
structure LotEnd (x : Session) (p : IltPacket) (lsn : Word) (len : Nat) (bytes : List Byte) (bad : Bool) : Prop where
  last : lotLast p = true
  whole : (lotFirst p = true ∧ x.rxOpen = false ∧ lsn = p.lsn ∧ len = p.arg0.toNat ∧ bytes = p.payload ∧ bad = false) ∨
    (lotFirst p = false ∧ x.rxOpen = true ∧ lsn = x.rxLsn ∧ len = x.rxLen ∧ bytes = x.rxBytes ++ p.payload ∧
      bad = (x.rxBad || p.lsn != x.rxLsn))

/-- A lot in sequence with a length in its range (R296). -/
structure LotGood (x : Session) (lsn : Word) (len : Nat) (bytes : List Byte) : Prop where
  next : lsn = x.accLsn + BitVec.ofNat 32 x.lots.length + 1
  length : 8 ≤ len ∧ len ≤ bytes.length ∧ (x.kind = .lot → len ≤ 2 ^ 20)

/-- The record of a lot that is complete and not yet accepted (R344). -/
def lotRecordOf (i : Nat) (lsn psnAfter : Word) (bytes : List Byte) : LotRecord :=
  { session := i, lsn := lsn, psnAfter := psnAfter, tAccept := 0, granules := granulesOf (64 + bytes.length), commands := 0,
    done := [], bytes := bytes }

/-- A journal write begun for a lot that is complete (R344, R345). -/
structure LotWritten (i : Nat) (lsn psnAfter : Word) (bytes : List Byte) (s t : State) : Prop where
  record : t.jnl.lotRing = s.jnl.lotRing ++ [lotRecordOf i lsn psnAfter bytes]
  write : ∃ w : PendingWrite, t.jnl.pendingWrites = s.jnl.pendingWrites ++ [w] ∧ w.id = s.jnl.nextId ∧ w.use = .lot i lsn ∧
    w.local_ = false ∧ w.mirrorLsn.isSome = s.pwr.config.twin
  frame : SameBut [.lotRing, .jnl, .txQueue, .outs] s t

/-- The packets of a session up to a next PSN are acknowledged, and those from it on are left (R294, R297). -/
def Acked (next : Word) (l rest : List TxData) : Prop :=
  ∃ acked, l = acked ++ rest ∧ (∀ d ∈ acked, 2 ^ 31 ≤ (d.psn - next).toNat) ∧
    ∀ d w, rest = d :: w → (d.psn - next).toNat < 2 ^ 31

/-- The packets of a session from a PSN on are sent again (R294, R299). -/
structure Resent (i : Nat) (psn : Word) (s t : State) : Prop where
  session : getSession t i = { getSession s i with unacked := countSends (getSession s i).unacked psn }
  others : ∀ j, j ≠ i → getSession t j = getSession s j
  queue : t.port.txQueue = (s.port.txQueue.filter fun f => !isDataOf i f) ++
    ((getSession s i).unacked.filter fun d => !psnOld d.psn psn).map (responseFrame s i)
  counted : Counted (pc Ctr.PORT_RETX_CNT) ((getSession s i).unacked.filter fun d => !psnOld d.psn psn).length s t
  frame : SameBut [.regs, .txQueue, .sessions] s t

/-- The packets of a session in which this module is the sender are sent again from a PSN (R299). -/
structure OutResent (k : Nat) (psn : Word) (o : OutSession) (s t : State) : Prop where
  outs : t.port.outs = s.port.outs.set k { o with unacked := countSends o.unacked psn }
  queue : t.port.txQueue = s.port.txQueue ++ (o.unacked.filter fun d => !psnOld d.psn psn).map (outData s o (undatedDry s))
  counted : Counted (pc Ctr.PORT_RETX_CNT) (o.unacked.filter fun d => !psnOld d.psn psn).length s t
  frame : SameBut [.regs, .txQueue, .outs] s t

/-- The CLOSE that answers a TAIL (R300). -/
def closeOf (o : OutSession) : TxData :=
  { psn := o.txPsn, lsn := 0, index := 0, first := false, last := false, total := 0, bytes := [], close := true }

/-- A receiving CHUTE session has resumed as `x` (R300): its endpoint is reset. -/
structure Resumes (i : Nat) (x : Session) (s t : State) : Prop where
  session : getSession t i = resumed x
  others : ∀ j, j ≠ i → getSession t j = getSession s j
  endpoint : EpIs (.hub (Fin.ofNat 2048 i)) (resetEndpoint (getEp s (.hub (Fin.ofNat 2048 i)))) s t

/-! ## The journal and its mirror -/

/-- Every live journal copy holds a write, and there is one (R345, R346). -/
def CopiesHold (s : State) (ok0 ok8 : Bool) : Prop :=
  (s.jnl.copy0 = true → ok0 = true) ∧ (s.jnl.copy8 = true → ok8 = true) ∧ (s.jnl.copy0 = true ∨ s.jnl.copy8 = true)

/-- The state with other journal writes under way. -/
def withWrites (s : State) (l : List PendingWrite) : State :=
  { s with jnl := { s.jnl with pendingWrites := l } }

/-- A journal write that its copies hold and that waits for no mirror record (R345, R354). -/
def ActsNow (w : PendingWrite) : Bool :=
  w.local_ && w.mirrorLsn.isNone

/-- A lot of the ring that is not accepted since its write, or one before it, has failed (R345). -/
def unwritten (i : Nat) (gone : List PendingLot) (r : LotRecord) : Bool :=
  r.session == i && r.piece.isNone && r.dead == 0 && !r.accepted && gone.any (·.lsn == r.lsn)

/-- A session that this module has opened, and the twin or the next module has granted (R287, R289). -/
def openedOut (o : OutSession) (a : OpenAnswer) : OutSession :=
  { o with
    stage := .open_
    status := 0
    session := a.session.val
    token := a.token
    grants := 2
    started := 0
    room := 0
    txPsn := 0
    waiting := []
    unacked := []
    resetSent := 0
    resetSeen := false }

/-- The MIRROR session of this module begins again with its HELLO, or anew (R355, R356). -/
def MirrorBegins (s t : State) : Prop :=
  let side := 1 - s.pwr.config.side
  t.port.txQueue = s.port.txQueue ++ [helloFrame s (moduleNum s) side] ∧ SameBut [.txQueue, .outs] s t ∧
  (∀ k o, s.port.outs[k]? = some o → o.kind = .mirror → (∀ j u, j < k → s.port.outs[j]? = some u → u.kind ≠ .mirror) →
    t.port.outs = s.port.outs.set k { o with
      stage := .hello
      waiting := []
      unacked := [] }) ∧
  ((∀ o ∈ s.port.outs, o.kind ≠ .mirror) → t.port.outs = s.port.outs ++ [{ kind := .mirror, graph := 0, edge := 0, peer := moduleNum s }])

/-- A LOT session that waits for its host to begin again where the journal ends (R301, R353). -/
def Resyncs (x : Session) : Prop :=
  x.expPsn = x.accPsn ∧ x.unacked = [] ∧ x.resync = true ∧ x.resyncs = 1 ∧ x.nakAt ≠ none ∧ x.nakReason = 4

end Sys2Proof.Safety
end

