-- ==== Sys2Proof/Certificates/Slice0/Obligations.lean ====
section
/-! DEFINITION. The statements for the provers. Each says what the commands of one family do to the state, for every state and
every operand: the next state, what of it changes and how, and what stays. -/

-- one theorem after the other: proofs side by side would need more memory than the check allows
set_option Elab.async false

open Sys2Proof Sys2Proof.Machine Sys2Proof.Safety

/-- A step takes the command at the front of the queue and answers what that command does on the state with the queue's
rest. -/
def Obligations.StepRunsFront : Prop :=
  ∀ (s : State) (c : Instr) (rest : List Instr), s.pending = c :: rest → step s = exec c { s with pending := rest }

/-- With no command waiting, a step is one cycle of DCLK (the model's choice, log entry 6): the local counter advances by 2
and 3 on alternate cycles and stands still while DCLK has lost lock (R321). The replicas of the live domains advance with
it, one that a reload would have moved backward holding its value until the counter passes it (R322); nothing else changes.
No command moves the local counter: warm reset, fencing and every other reset leave it as it is, and it is cleared only
when power is removed (R321). -/
def Obligations.LocalCounter : Prop :=
  (∀ s : State, s.pending = [] →
    (s.clk.dclkLocked = false → step s = .next s) ∧
    (s.clk.dclkLocked = true → ∃ t, step s = .next t ∧ SameBut [.time, .clk] s t ∧
      let d := if s.clk.tickThree then 3 else 2
      t.clk = { s.clk with
        now := s.clk.now + d
        tickThree := !s.clk.tickThree
        replicas := s.clk.replicas.map fun e => (e.1, replicaAfter s d e.1 e.2) })) ∧
  (∀ (i : Instr) (s t : State), exec i s = .next t →
    (t.clk.now = s.clk.now ∧ t.clk.tickThree = s.clk.tickThree) ∨ (t.clk.now = 0 ∧ t.pwr.phase = .off))

/-- The block before power is applied: nothing waits, the module is off, every register word stands at the value of its
table, and no memory, allocation, descriptor, graph, job, session or response is held. -/
def Obligations.ResetValues : Prop :=
  let r := State.reset
  (∀ a, rawReg r a = regReset a) ∧
  regReset 0x01080400 = 0x8600 ∧ regReset 0x0108042C = 0x1FC7F ∧ regReset 0x01020100 = 0x10 ∧
  (∀ a, loadByte r.mem a = 0) ∧
  r.pending = [] ∧ r.pwr.phase = .off ∧ r.clk.now = 0 ∧ r.dep.allocs = [] ∧ r.dep.descs = [] ∧ r.dep.graphs = [] ∧
  r.dep.jobs = [] ∧ r.jnl.lotRing = [] ∧ r.jnl.respLog = [] ∧ r.port.sessions = [] ∧ r.port.outs = [] ∧
  r.port.txQueue = [] ∧ r.port.linkUp = false

/-- The state before power is applied has the invariant. -/
def Obligations.InvAtReset : Prop :=
  Inv State.reset

/-- Every step keeps the invariant: the module memory and both NOR images keep their canonical form, at most 16 nonces are
held (R287), and no start announces itself more than 60 times (R379). -/
def Obligations.InvKept : Prop :=
  ∀ s t : State, Inv s → step s = .next t → Inv t

/-- Every step takes exactly the front command off the queue, and takes back nothing that is burned: the MAC address and the
serial number stay, the fuse of key set 0 stays, SEC_FLOOR never falls (R370), and an owner slot once burned keeps its
digest and its RELEASED fuse (R374). -/
def Obligations.FusesKept : Prop :=
  ∀ s t : State, step s = .next t → t.pending = s.pending.tail ∧ Fixed s.pwr t.pwr

/-- Every command completes, in every state and with all operands: none ends in a fault or a refusal; it leaves the queue
and every part of the state that it does not touch as they were. -/
def Obligations.CommandFrame : Prop :=
  ∀ (i : Instr) (s : State), ∃ t, exec i s = .next t ∧ SameBut (touches i) s t

/-- ALLOC places whole granules anywhere free in the named seam's host-allocatable DRAM, in no other allocation, and answers
the base address; memory stays as it was, and where no range is free it answers AL_NOSPACE. FREE and its deferral: an
allocation goes at once when no descriptor remains against it, and otherwise when the last has gone (R185, R245, R248). -/
def Obligations.Allocations : Prop :=
  ∀ (s : State) (ctx : CmdCtx), LiveCmd ctx s →
    (∀ (seam : Byte) (size : Nat), seam.toNat ≤ 15 → 0 < size → size ≤ Config.hostBytes seam.toNat → WholeAllocs s →
      let n := roundUp size 4096
      (∀ b, FreeRange s seam.toNat b n →
        ∃ t b, exec (.alloc ctx seam size) s = .next t ∧ FreeRange s seam.toNat b n ∧ t.mem = s.mem ∧
          t.dep.allocs = { base := b, size := n } :: s.dep.allocs ∧ Answered ctx 0x01 0 (leBytes 8 b) t) ∧
      ((∀ b, ¬ FreeRange s seam.toNat b n) → Fails (.alloc ctx seam size) ctx 0x01 0x0300 s)) ∧
    (∀ (base : Addr) (a : Allocation), AllocAt s base a →
      (a.freePending = false → ∃ t, exec (.free ctx base) s = .next t ∧ Answered ctx 0x02 0 [] t ∧
        (Pinned s a → t.dep.allocs = pendingAt base s.dep.allocs ∧ t.dep.voids = s.dep.voids) ∧
        (¬ Pinned s a → t.dep.allocs = s.dep.allocs.filter (·.base != base))) ∧
      (a.freePending = true → Fails (.free ctx base) ctx 0x02 0x0304 s ∧
        ∃ t, exec (.allocationRelease base) s = .next t ∧
          (Pinned s a → t = s) ∧
          (¬ Pinned s a → t.dep.allocs = s.dep.allocs.filter (·.base != base) ∧ t.dep.descs = s.dep.descs))) ∧
    (∀ base : Addr, (∀ a ∈ s.dep.allocs, a.base ≠ base) →
      Fails (.free ctx base) ctx 0x02 0x0304 s ∧ exec (.allocationRelease base) s = .next s)

/-- DESC_CREATE makes the checks of R182 in their order and answers the first code that applies, counted and kept in the
registers of R201, with no descriptor and no handle consumed; a record that passes takes the lowest free slot with the
next generation, and its handle is answered (R177). DESC_DESTROY and its deferral: a descriptor goes at once when no loaded
graph names it, and otherwise when none does any more; its slot keeps its generation (R185). -/
def Obligations.Descriptors : Prop :=
  ∀ (s : State) (ctx : CmdCtx), LiveCmd ctx s →
    (∀ record : List Byte, record.length = 160 →
      let c := firstFailing (descChecks s record)
      let full := Config.descSlots ≤ (usedDescs s).length ∨ tableFull s 160 = true
      ((c ≠ 0 ∨ full) → ∃ t, exec (.descCreate ctx record) s = .next t ∧
        let n := if c = 0 then 9 else c
        Answered ctx 0x03 (0x0100 + n) [] t ∧
        RegsAs (setRawReg (raiseIf (n == 9) (raise (count s descBase Ctr.DT_FAIL_CNT 1) descBase Flag.desc_CREATE_FAIL)
          descBase Flag.desc_FULL) (descBase + 0xC) (BitVec.ofNat 32 (n + 256 * (ctx.lsn.toNat % 2 ^ 24)))) t ∧
        SameBut (.regs :: answerParts) s t) ∧
      (c = 0 → ¬ full → ∀ i, LowestFree (usedDescs s) Config.descSlots i →
        let g := if (getDescSlot s i).gen = 16383 then 1 else (getDescSlot s i).gen + 1
        ∃ t, exec (.descCreate ctx record) s = .next t ∧ Answered ctx 0x03 0 (leBytes 4 (i + 2 ^ 18 * g)) t ∧
          DescSet i { gen := g, live := some (parseDesc record) } s t ∧ SameBut (.descs :: answerParts) s t)) ∧
    (∀ (handle : Word) (i : Nat), NamesDesc s handle.toNat i →
      ∃ t, exec (.descDestroy ctx handle) s = .next t ∧ Answered ctx 0x04 0 [] t ∧
        (HeldByGraph s i → DescSet i { getDescSlot s i with destroyPending := true } s t) ∧
        (¬ HeldByGraph s i → DescSet i { gen := (getDescSlot s i).gen } s t) ∧ SameBut (.descs :: answerParts) s t) ∧
    (∀ i : Nat, ∃ t, exec (.descriptorDestroyed i) s = .next t ∧
      (((getDescSlot s i).destroyPending = true ∧ ¬ HeldByGraph s i) →
        DescSet i { gen := (getDescSlot s i).gen } s t ∧ SameBut [.descs, .jnl] s t) ∧
      (¬ ((getDescSlot s i).destroyPending = true ∧ ¬ HeldByGraph s i) → t = s))

/-- Lot commands that fail: each answers its code of Command status with no result, and nothing else changes (R248, R249).
Out of service, no command of a lot is executed (R350).
PUT writes its bytes to DRAM, and no others, makes the tables of assay sums over the range stale, and answers OK; GET
answers the bytes as they stand and changes no byte (R245). -/
def Obligations.LotData : Prop :=
  (∀ (s : State) (ctx : CmdCtx), LiveCmd ctx s →
    (∀ seam size, 15 < seam.toNat → Fails (.alloc ctx seam size) ctx 0x01 0x0302 s) ∧
    (∀ seam size, seam.toNat ≤ 15 → size = 0 ∨ Config.hostBytes seam.toNat < size →
      Fails (.alloc ctx seam size) ctx 0x01 0x0303 s) ∧
    (∀ record, record.length ≠ 160 → Fails (.descCreate ctx record) ctx 0x03 0x0401 s) ∧
    (∀ handle : Word, DeadDesc s handle.toNat → Fails (.descDestroy ctx handle) ctx 0x04 0x0402 s) ∧
    (∀ addr data, data.length = 0 ∨ 65536 < data.length → Fails (.put ctx addr data) ctx 0x05 0x0401 s) ∧
    (∀ addr data, 0 < data.length → data.length ≤ 65536 → ¬ InLive s addr data.length ∨ TouchesUnhomed s addr data.length →
      Fails (.put ctx addr data) ctx 0x05 0x0301 s) ∧
    (∀ addr n, n = 0 ∨ 65536 < n → Fails (.get ctx addr n) ctx 0x06 0x0303 s) ∧
    (∀ addr n, 0 < n → n ≤ 65536 → ¬ InLive s addr n ∨ TouchesVoid s addr n → Fails (.get ctx addr n) ctx 0x06 0x0301 s) ∧
    (∀ addr, Fails (.graphLoad ctx addr 0) ctx 0x07 0x0303 s) ∧
    (∀ addr n, 0 < n → ¬ InLive s addr n ∨ TouchesVoid s addr n → Fails (.graphLoad ctx addr n) ctx 0x07 0x0301 s) ∧
    (∀ handle : Word, (∀ i, ¬ NamesGraph s handle.toNat i) →
      Fails (.graphUnload ctx handle) ctx 0x08 0x0402 s ∧
      ∀ job record, Fails (.run ctx handle job record) ctx 0x09 0x0402 s) ∧
    (∀ (handle job : Word) record i g, NamesGraph s handle.toNat i → (getGraphSlot s i).live = some g → record ≠ 0 →
      ¬ InLive s record (128 + 64 * g.nodes.length) → Fails (.run ctx handle job record) ctx 0x09 0x0301 s) ∧
    (∀ job, (∀ j ∈ s.dep.jobs, j.jobId ≠ job) → Fails (.cancel ctx job) ctx 0x0A 0x0403 s) ∧
    (∀ seam size base record handle job addr data n, ∀ i ∈ [Instr.alloc ctx seam size, .free ctx base,
        .descCreate ctx record, .descDestroy ctx handle, .put ctx addr data, .get ctx addr n, .graphLoad ctx addr n,
        .graphUnload ctx handle, .run ctx handle job addr, .cancel ctx job],
      ∀ d : Deputy, d.out = true → exec i { s with dep := d } = .next { s with dep := d })) ∧
  (∀ (s : State) (ctx : CmdCtx), LiveCmd ctx s →
    (∀ addr data, 0 < data.length → data.length ≤ 65536 → InLive s addr data.length → ¬ TouchesUnhomed s addr data.length →
      InDram addr →
      ∃ t, exec (.put ctx addr data) s = .next t ∧ Answered ctx 0x05 0 [] t ∧
        (∀ k (h : k < data.length), loadByte t.mem (addr + k) = data[k]) ∧ BytesBut addr data.length s t ∧
        t.dep.allocs = s.dep.allocs ∧ t.regs = s.regs ∧ t.cores = s.cores ∧
        ∀ x ∈ t.assays, (∃ r ∈ x.ranges, overlap addr data.length r.1 r.2 = true) → x.stale = true) ∧
    (∀ addr n, 0 < n → n ≤ 65536 → InLive s addr n → ¬ TouchesVoid s addr n → InDram addr →
      ∃ t bs, exec (.get ctx addr n) s = .next t ∧ Answered ctx 0x06 0 bs t ∧ bs.length = n ∧
        (∀ k (h : k < bs.length), bs[k] = loadByte s.mem (addr + k)) ∧ SameBut answerParts s t))

/-- RUN queues a job behind the graph's earlier runs and answers nothing yet; CANCEL of a job none of whose tasks is resident
ends it at once: the job is gone, its record with STATUS CANCELLED is written to its record address and answers its RUN, and
CANCEL answers OK. A job all of whose resident tasks have started runs on to its task boundaries, marked CANCELLED, and
CANCEL answers nothing yet (R246, R249, R276). -/
def Obligations.RunAndCancel : Prop :=
  ∀ (s : State) (ctx : CmdCtx), LiveCmd ctx s →
    (∀ (handle id : Word) (record : Addr) (i : Nat) (g : Image), NamesGraph s handle.toNat i →
      (getGraphSlot s i).live = some g → record = 0 ∨ InLive s record (128 + 64 * g.nodes.length) →
      (∀ j ∈ s.dep.jobs, OtherCmd j.ctx ctx) →
      ∃ t, exec (.run ctx handle id record) s = .next t ∧
        t.dep.jobs = s.dep.jobs ++ [⟨s.dep.nextJob, ctx, id, i, handle.toNat / 2 ^ 18 % 2 ^ 14, record, .queued, 0, none, [], []⟩] ∧
        t.dep.nextJob = s.dep.nextJob + 1 ∧ SameBut [.jobs, .dep] s t) ∧
    (∀ (id : Word) (j : Job), OnlyJob s id j → s.dep.waits = [] → OtherCmd j.ctx ctx → j.ctx.index < 2 ^ 32 →
      (jobSlots s j.key = [] → j.record = 0 ∨ InDram j.record → j.ending = none →
        ∃ t bs, exec (.cancel ctx id) s = .next t ∧ t.dep.jobs = s.dep.jobs.filter (·.key != j.key) ∧ t.dep.waits = [] ∧
          Answered ctx 0x0A 0 [] t ∧ Answered j.ctx 0x09 0 bs t ∧ RecordIs j 1 bs ∧
          (j.record ≠ 0 → ∀ k (h : k < bs.length), loadByte t.mem (j.record + k) = bs[k]) ∧
          (j.record = 0 → t.mem = s.mem) ∧ (j.record ≠ 0 → BytesBut j.record bs.length s t)) ∧
      (jobSlots s j.key ≠ [] → (∀ u ∈ jobSlots s j.key, (getSlot s u).started = true) →
        ∃ t, exec (.cancel ctx id) s = .next t ∧
          t.dep.jobs = s.dep.jobs.map (fun x => if x.key = j.key then { x with ending := some (x.ending.getD 1) } else x) ∧
          t.dep.waits = [{ ctx := ctx, opcode := 0x0A, jobs := [j.key], graph := none }] ∧
          SameBut [.jobs, .waits, .counters] s t))

/-- GRAPH_LOAD reads the image from DRAM and answers WG_ and the code of its first failing check; an image that passes takes
the lowest free slot of the graph table with the next generation, each of its stages begins with the T_s of the image
configuration, and the handle is answered (R140, R246, R252). GRAPH_UNLOAD of a graph without jobs and without chutes frees
the slot, which keeps its generation, forgets its stages and answers OK (R249). -/
def Obligations.Graphs : Prop :=
  ∀ (s : State) (ctx : CmdCtx), LiveCmd ctx s →
    (∀ (addr : Addr) (n : Nat), 0 < n → InLive s addr n → ¬ TouchesVoid s addr n → InDram addr →
      let b := loadBytes s.mem addr n
      let full := Config.graphSlots ≤ (usedGraphs s).length ∨ tableFull s n = true
      (loadStatus s b ≠ 0 → Fails (.graphLoad ctx addr n) ctx 0x07 (0x0200 + loadStatus s b) s) ∧
      (loadStatus s b = 0 → full → Fails (.graphLoad ctx addr n) ctx 0x07 0x0207 s) ∧
      (loadStatus s b = 0 → ¬ full → ∀ i, LowestFree (usedGraphs s) Config.graphSlots i →
        let g := if (getGraphSlot s i).gen = 16383 then 1 else (getGraphSlot s i).gen + 1
        ∃ t, exec (.graphLoad ctx addr n) s = .next t ∧ Answered ctx 0x07 0 (leBytes 4 (i + 2 ^ 18 * g)) t ∧
          GraphHeld i g (parseImage b).1 b s t ∧
          (∀ k, k < (parseImage b).1.nodes.length →
            getStage t i k = { threshold := s.pwr.config.aditThreshold }) ∧
          t.dep.jobs = s.dep.jobs ∧ t.dep.descs = s.dep.descs ∧ t.dep.allocs = s.dep.allocs)) ∧
    (∀ (handle : Word) (i : Nat), NamesGraph s handle.toNat i → (∀ j ∈ s.dep.jobs, j.graph ≠ i) → s.dep.waits = [] →
      (∀ r ∈ allChutes s, r.1 ≠ i) →
      ∃ t, exec (.graphUnload ctx handle) s = .next t ∧ Answered ctx 0x08 0 [] t ∧
        getGraphSlot t i = { gen := (getGraphSlot s i).gen } ∧ (∀ j, j ≠ i → getGraphSlot t j = getGraphSlot s j) ∧
        t.dep.stages = s.dep.stages.filter (fun e => e.1 / 65536 != i) ∧ t.dep.waits = [] ∧
        SameBut (.graphs :: .stages :: answerParts) s t)

/-- JOB_START starts the first job of its graph and leaves one behind an earlier run of the graph queued (R246).
HELD_JOB_RESUME resumes a job held for void granules when none that its tasks read is left, and no job held for another
cause (R336, R339, R340). JOB_COMPLETE of a running job forms its record when every task of every node has completed and
every commit has been applied, and of one being ended when no task of it is resident; the record is written to the record
address and answers RUN, and the job is gone. The sessions' waiting commands are executed after it (R249, R275, R276). -/
def Obligations.JobsStartAndEnd : Prop :=
  (∀ (s : State) (key : Nat) (j : Job), getJob s key = some j →
    (s.dep.out = false → j.state = .queued → FirstOfGraph s j →
      ∃ t, exec (.jobStart key) s = .next t ∧ JobChanged key (fun x => { x with state := .running }) s t ∧ SameBut [.jobs] s t) ∧
    ((∃ a b, s.dep.jobs = a ++ j :: b ∧ ∃ x ∈ a, x.graph = j.graph ∧ ∀ y ∈ a, y.key ≠ key) →
      exec (.jobStart key) s = .next s) ∧
    (j.state = .held → j.holdCause = 1 → ¬ NeedsVoid s j →
      ∃ t, exec (.heldJobResume key) s = .next t ∧
        JobChanged key (fun x => { x with state := .running, holdCause := 0 }) s t ∧ SameBut [.jobs] s t) ∧
    (j.state ≠ .held ∨ j.holdCause ≠ 1 ∨ NeedsVoid s j → exec (.heldJobResume key) s = .next s)) ∧
  (∀ (s : State) (key : Nat) (j : Job), getJob s key = some j → j.ctx.index < 2 ^ 32 → j.record = 0 ∨ InDram j.record →
    (∀ w ∈ s.dep.waits, w.ctx.index < 2 ^ 32 ∧ OtherCmd j.ctx w.ctx) →
    s.dep.waits.Pairwise (fun a b => OtherCmd a.ctx b.ctx) → ∀ status,
    ((j.ending = none ∧ status = 0 ∧ j.state = .running ∧ (∀ n ∈ jobNodes s j, NodeDone j n.1) ∧
        ∀ b ∈ s.scatters, b.job = key → b.committed = true) ∨
      (j.ending = some status ∧ status ≤ 2 ∧ jobSlots s key = [])) →
    ∃ u bs, exec (.jobComplete key) s = .next (drainAll u) ∧ RecordIs j status bs ∧ Answered j.ctx 0x09 0 bs u ∧
      u.dep.jobs = s.dep.jobs.filter (·.key != key) ∧
      (∀ w, w ∈ u.dep.waits ↔ w ∈ s.dep.waits ∧ ¬ WaitOver u w) ∧
      (∀ w ∈ s.dep.waits, WaitOver u w → Answered w.ctx w.opcode 0 [] u) ∧
      (j.record = 0 → u.mem = s.mem) ∧
      (j.record ≠ 0 → (∀ k (h : k < bs.length), loadByte u.mem (j.record + k) = bs[k]) ∧ BytesBut j.record bs.length s u))

/-- NODE_START of a node that reads a void granule has its job held (R340). Any other node that is ready starts where its plan
has the seams in which its weights lie (R137, R259): it is cut into tasks, which are dealt to the seams of its plan in
descending order of cost, each task to one seam, and each seam's work counter is bound with its tasks from the first; a
run-time length is at most its static extent (R92, R265, R266, R268, R269). -/
def Obligations.NodeStart : Prop :=
  ∀ (s : State) (key i : Nat) (p : NodePlan) (j : Job) (g : Image) (n : Node), NodeReady s key i p j g n →
    (ReadsVoid s g n →
      ∃ t, exec (.nodeStart key i p) s = .next t ∧ JobChanged key (fun x => { x with state := .held, holdCause := 1 }) s t ∧
        RegsAs (raise (count s depBase Ctr.DEP_HELD_CNT 1) depBase Flag.dep_HELD) t ∧ SameBut [.regs, .jobs] s t) ∧
    (¬ ReadsVoid s g n → ¬ PlanCovers s i p j g n → exec (.nodeStart key i p) s = .next s) ∧
    (¬ ReadsVoid s g n → PlanCovers s i p j g n →
      ∃ t r, exec (.nodeStart key i p) s = .next t ∧
        JobChanged key (fun x => { x with nodes := tset x.nodes {} i r }) s t ∧
        r.started = true ∧ r.doneTasks = 0 ∧ r.elems = List.range (batchCount g n) ∧
        (∀ e ∈ r.lens, e.2.1 ≤ (elemShape s g n e.1).1 ∧ e.2.2.1 ≤ (elemShape s g n e.1).2.1 ∧
          e.2.2.2 ≤ (elemShape s g n e.1).2.2) ∧
        (∀ x ∈ p.seams, let c := getCounter t x.1.val x.2.1.val
          CounterBound key i x.2.2 c ∧ c.tasks.Pairwise fun a b => b.cost ≤ a.cost) ∧
        (p.seams.map fun x => (getCounter t x.1.val x.2.1.val).limit).sum = r.total ∧
        (∀ (m : Fin 16) (k : Fin 64), (∀ x ∈ p.seams, ¬ (x.1 = m ∧ x.2.1 = k)) →
          getCounter t m.val k.val = getCounter s m.val k.val) ∧
        SameBut [.stages, .jobs, .counters] s t)

/-- FETCH_AND_ADD gives a requester in service the head of its seam's re-run list that may run and that it takes; with none, it
receives v = NEXT and NEXT becomes v + 1 when v < LIMIT, and otherwise none, with NEXT as it was (R269, R338). A core takes
no column group, and array work only with an array in service (R167); an adit unit takes column groups of its own seam, those
with the earliest dry time first (R137); where a column group has to leave the adit path, it does so before anything is given
(R134, R139).
TASK_COMPLETE of a task whose writes have all landed sets its completion bit and sums its events, its time and its
largest discarded magnitude into the node; a second completion is discarded: it counts in WC_DUP_CNT and as
DUP_COMPLETION, and its events are not summed. Either way the slot named is freed with its vat tiles, the task leaves the
re-run lists, and recovery ends with the last of them (R270, R275, R357). A task that has not landed does not complete. -/
def Obligations.WorkCounters : Prop :=
  (∀ (s : State) (seam : Fin 16) (k : Fin 64) (who : Requester), s.dep.out = false → RequesterUp s seam who →
    let c := getCounter s seam.val k.val
    (NoneLeaves s seam k.val →
      (∀ r, HeadRerun s seam who r → ∃ t, exec (.fetchAndAdd seam k who) s = .next t ∧
        t.dep.reruns = s.dep.reruns.filter (· != r) ∧ t.dep.rerunning = s.dep.rerunning ++ [r] ∧
        CounterSet r.seam r.counter (givenTo who r.index (getCounter s r.seam r.counter)) s t ∧ SameBut [.dep, .counters] s t) ∧
      (NoRerun s seam who → Serves s c → TurnsTo s seam k.val who →
        (Offers s seam k.val who → ∃ t, exec (.fetchAndAdd seam k who) s = .next t ∧
          CounterSet seam.val k.val (givenTo who c.next { c with next := c.next + 1 }) s t ∧ SameBut [.counters] s t) ∧
        (¬ Offers s seam k.val who → ∃ t, exec (.fetchAndAdd seam k who) s = .next t ∧
          CounterSet seam.val k.val { c with received := none } s t ∧ SameBut [.counters] s t)) ∧
      (NoRerun s seam who → ¬ (Serves s c ∧ TurnsTo s seam k.val who) → exec (.fetchAndAdd seam k who) s = .next s)) ∧
    (∃ z, exec (.fetchAndAdd seam k who) s = exec (.fetchAndAdd seam k who) z ∧ NoneLeaves z seam k.val ∧
      SameBut [.jobs, .dep, .counters] s z)) ∧
  (∀ (s : State) (seam : Fin 16) (k : Fin 64) (v : Nat), let c := getCounter s seam.val k.val
    (∀ u, ¬ LandedIn s seam k.val v u → exec (.taskComplete seam k v (some u)) s = .next s) ∧
    (finishers s seam k.val v = [] → exec (.taskComplete seam k v none) s = .next s) ∧
    (c.active = true → v < c.limit → ∀ slot : Option SlotId,
      (slot = none → finishers s seam k.val v ≠ []) → (∀ u, slot = some u → LandedIn s seam k.val v u) →
    ∃ t, exec (.taskComplete seam k v slot) s = .next t ∧
      (slot = none → t.cores = s.cores ∧ finishers t seam k.val v = []) ∧
      (∀ u, slot = some u → t.adits = s.adits ∧ SlotsRun u.core (fun w => if w = u then {} else getSlot s w) t ∧
        TilesFreed u.core (some u.slot) s t) ∧
      t.dep.reruns = s.dep.reruns.filter (· != ⟨seam.val, k.val, v⟩) ∧
      t.dep.rerunning = s.dep.rerunning.filter (· != ⟨seam.val, k.val, v⟩) ∧
      (t.dep.recovery = true ↔ s.dep.recovery = true ∧ ¬ (t.dep.reruns = [] ∧ t.dep.rerunning = [])) ∧
      (v ∉ c.bits →
        CounterSet seam.val k.val { c with bits := v :: c.bits, given := c.given.filter fun e => e.1 != v } s t ∧
        JobChanged c.job (fun j => { j with nodes := tset j.nodes {} c.node { runOf j c.node with
          doneTasks := (runOf j c.node).doneTasks + 1
          lastDone := max (runOf j c.node).lastDone s.clk.now
          counts := mergeCounts (runOf j c.node).counts (doneCounts s seam k.val v slot)
          discardMax := maxWord (runOf j c.node).discardMax ((slot.map fun u => (getSlot s u).discardMax).getD 0) } }) s t ∧
        SameBut [.stages, .jobs, .dep, .cores, .adits, .counters] s t) ∧
      (v ∈ c.bits →
        RegsAs (raise (count s (wcRegBase seam.val k.val) Ctr.WC_DUP_CNT 1) (wcRegBase seam.val k.val) Flag.wc_DUP) t ∧
        JobChanged c.job (fun j => { j with
          counts := addCount j.counts 5 1
          nodes := tset j.nodes {} c.node { runOf j c.node with dups := (runOf j c.node).dups + 1 } }) s t ∧
        SameBut [.regs, .jobs, .dep, .cores, .adits] s t)))

/-- TASK_LOAD puts a task that the core was given, and that it suits, into an EMPTY slot, READY or WAITING by its first commands,
with the outstanding limit of its hoist queue in the queue's register, and RUNNING where none of the core runs; it loads no
other (R161, R166, R167, R216, R269). A task that runs again starts afresh: no output of its block counts as inactive any more
(R148, R338).
COMMAND_ISSUE marks the completed commands of a slot done and issues the next command of a unit, in stream order, once it
is ready; a charge that has nothing to do is removed; a task that has not started starts, and a start after its start mark is
counted (R85, R148, R159, R160, R325, R329). The run of a vector operator is done as it is issued (log entry 126). -/
def Obligations.TaskStreams : Prop :=
  (∀ (s : State) (u : SlotId) (p : TaskSpec), let c := getCounter s u.core.seam.val p.counter.val
    (MayLoad s u p → ∃ t, exec (.taskLoad u p) s = .next t ∧
      SlotsRun u.core (fun w => if w = u then loadedSlot s u p else getSlot s w) t ∧ TilesFreed u.core none s t ∧
      (let a := queueRegBase (slotQueue u)
       RegsAs (setRawReg s a (BitVec.ofNat 32 ((rawReg s a).toNat / 128 * 128 + p.maxOut.val))) t) ∧
      (counterCtx s c p.index = none → t.dep.jobs = s.dep.jobs) ∧
      (∀ x, counterCtx s c p.index = some x → JobChanged x.job (fun j => { j with
        nodes := tset j.nodes {} x.stage { runOf j x.stage with
          inactive := (runOf j x.stage).inactive.filter fun e =>
            !(e.1 == x.task.elem && inTaskBlock x e.2.1 e.2.2.1) } }) s t) ∧
      SameBut [.regs, .jobs, .cores] s t) ∧
    (¬ MayLoad s u p → exec (.taskLoad u p) s = .next s)) ∧
  (∀ (s : State) (u : SlotId) (unit : UnitKind) (completed : List Nat),
    let x := withDone completed (getSlot s u)
    let z := setSlot s u x
    (∀ i c, MayIssue s u x unit i → x.cmds[i]? = some c →
      (∀ done skipped, Issue z u c.cmd.work (some done) skipped → ∃ t, exec (.commandIssue u unit completed) s = .next t ∧
        SlotsRun u.core (fun w => freshOf u.core w (if w = u then withIssued i done s.clk.now x else getSlot s w)) t ∧
        TilesFreed u.core none s t ∧ SameBut [.regs, .cores] s t ∧
        (LateStart s u x → RegsAs (issueNoted s u true skipped) t) ∧
        (¬ LateStart s u x → RegsAs (issueNoted s u false skipped) t)) ∧
      (Issue z u c.cmd.work none false → ∃ t, exec (.commandIssue u unit completed) s = .next t ∧
        SlotsRun u.core (fun w => freshOf u.core w (if w = u then x else getSlot s w)) t ∧
        TilesFreed u.core none s t ∧ SameBut [.cores] s t) ∧
      (∀ o y, c.cmd.work = .operator o → opReady z u o = some y → (getCore s u.core).poisonedWords = [] →
        ∃ t, exec (.commandIssue u unit completed) s = .next t ∧
          (getSlot t u).cmds = (withIssued i true s.clk.now x).cmds ∧ (getSlot t u).started = true ∧
          (∀ v, v.core ≠ u.core → getSlot t v = getSlot s v))) ∧
    ((∀ i, ¬ MayIssue s u x unit i) → ∃ t, exec (.commandIssue u unit completed) s = .next t ∧
      SlotsRun u.core (fun w => freshOf u.core w (if w = u then x else getSlot s w)) t ∧
      TilesFreed u.core none s t ∧ SameBut [.cores] s t))

/-- TASK_SWITCH: a core none of whose tasks runs takes its READY task with the earliest dry time. A RUNNING task without a
ready command for SWITCH_WAIT cycles gives way to that task, and any RUNNING task to one whose dry time is earlier by more
than PREEMPT_GAP; it becomes WAITING without a ready command and READY otherwise. A wait switch counts in CORE_SWITCH_CNT
and a dry-time switch in CORE_PREEMPT_CNT as well; cycles without any ready command are counted (R162, R163, R174).
TASK_ABORT aborts the task of a slot and every task that this reaches along chutes, and no other: its queued work is
discarded, its slot becomes EMPTY, and its index goes to the re-run list. A task at no chute is aborted alone; its abort
counts in CORE_ABORT_CNT, in DEP_ABORT_CNT and in the job's TASK_ABORT, and the 16th holds the job instead (R219, R234,
R338, R339). -/
def Obligations.TaskSwitches : Prop :=
  (∀ (s : State) (c : CoreId), let f := freshSlots s c
    let counted := raise (count s (coreRegBase c) Ctr.CORE_SWITCH_CNT 1) (coreRegBase c) Flag.core_SWITCH
    ((∀ u, u.core = c → (f u).state ≠ .running) →
      ((∃ u, u.core = c ∧ (f u).state = .ready) → ∀ cause,
        ∃ t, exec (.taskSwitch c cause) s = .next t ∧ SlotsRun c f t ∧ TilesFreed c none s t ∧ SameBut [.cores] s t) ∧
      ((∀ u, u.core = c → (f u).state ≠ .ready) → ∀ cause,
        ∃ t, exec (.taskSwitch c cause) s = .next t ∧ (∀ u, getSlot t u = f u) ∧ TilesFreed c none s t ∧
          (∀ n, cause = .wait n → RegsAs (count s (coreRegBase c) Ctr.CORE_NOREADY_CNT n) t) ∧
          (cause = .dry → RegsAs s t) ∧ SameBut [.regs, .cores] s t)) ∧
    (∀ old, old.core = c → (f old).state = .running → (∀ u, u.core = c → (f u).state = .running → u = old) →
      (∀ new, ComesToRun c f s new →
        (∀ n, hasReady (f old) = false → s.pwr.config.switchWait ≤ n → ∃ t, exec (.taskSwitch c (.wait n)) s = .next t ∧
          Switched f old new t ∧ TilesFreed c none s t ∧ RegsAs counted t ∧ SameBut [.regs, .cores] s t) ∧
        (∀ n, hasReady (f old) = true ∨ n < s.pwr.config.switchWait → ∃ t, exec (.taskSwitch c (.wait n)) s = .next t ∧
          (∀ u, getSlot t u = f u) ∧ TilesFreed c none s t ∧ SameBut [.cores] s t) ∧
        (DryGap s (dryOf s old (f old)) (dryOf s new (f new)) → ∃ t, exec (.taskSwitch c .dry) s = .next t ∧
          Switched f old new t ∧ TilesFreed c none s t ∧ SameBut [.regs, .cores] s t ∧
          RegsAs (raise (count counted (coreRegBase c) Ctr.CORE_PREEMPT_CNT 1) (coreRegBase c) Flag.core_PREEMPT) t) ∧
        (¬ DryGap s (dryOf s old (f old)) (dryOf s new (f new)) → ∃ t, exec (.taskSwitch c .dry) s = .next t ∧
          (∀ u, getSlot t u = f u) ∧ TilesFreed c none s t ∧ SameBut [.cores] s t)) ∧
      ((∀ u, u.core = c → (f u).state ≠ .ready) →
        (∀ n, hasReady (f old) = false → ∃ t, exec (.taskSwitch c (.wait n)) s = .next t ∧ (∀ u, getSlot t u = f u) ∧
          TilesFreed c none s t ∧ RegsAs (count s (coreRegBase c) Ctr.CORE_NOREADY_CNT n) t ∧ SameBut [.regs, .cores] s t) ∧
        (∀ cause, (∀ n, cause = .wait n → hasReady (f old) = true) → ∃ t, exec (.taskSwitch c cause) s = .next t ∧
          (∀ u, getSlot t u = f u) ∧ TilesFreed c none s t ∧ SameBut [.cores] s t)))) ∧
  (∀ (s : State) (u : SlotId), ((getSlot s u).state = .empty → exec (.taskAbort u) s = .next s) ∧
    ((getSlot s u).state ≠ .empty → ∃ t, exec (.taskAbort u) s = .next t ∧
      (∀ v, Reached s u v → (getSlot s v).state ≠ .empty → Aborted v s t) ∧
      (∀ v, ¬ (Reached s u v ∧ (getSlot s v).state ≠ .empty) → Spared v s t) ∧
      ((∀ r ∈ allChutes s, atEnd s r u = false) →
        SameBut [.regs, .jobs, .dep, .arrays, .cores, .hoists, .scatters] s t ∧
        Counted (coreRegBase u.core + Ctr.CORE_ABORT_CNT) 1 s t ∧ Counted (depBase + Ctr.DEP_ABORT_CNT) 1 s t ∧
        (abortCount s u < 16 →
          t.dep.reruns = s.dep.reruns ++ [⟨u.core.seam.val, (getSlot s u).counter, (getSlot s u).index⟩] ∧
          JobChanged (getSlot s u).job (fun j => { j with counts := addCount j.counts 17 1 }) s t) ∧
        (16 ≤ abortCount s u → t.dep.reruns = s.dep.reruns ∧
          ∀ j, getJob s (getSlot s u).job = some j → j.state ≠ .held →
            JobChanged (getSlot s u).job (fun j => { j with
              counts := addCount j.counts 17 1, state := .held, holdCause := 2 }) s t))))

/-- CHARGE_START: a ready charge starts on a free array in service, which binds its vat tile; a task that has not started
starts with it, and in an idle seam the charge wakes the seam first (R160, R325, R384). The charge has the rows of its row
tile that are live and not masked, in ascending order; one of a distance mode without a row is done at once (R54, R62, R148).
WEIGHT_TILE_LOAD writes the tile built from its stored layout into the shadow registers of an array in service, and its WL64
image into scratch where the tensor is stored in another layout (R41, R81). VECTOR_SCHEDULE brings the next row of the array's
charge, or after the last its tally vector, into the array behind the vectors already in flight, with its PI64 records in
scratch where the source is stored in another layout (R180); the first makes the shadow tile active where the active tile is
not its charge's (R40). A row of a multiply-add mode whose elements and special codes are all zero is skipped and counted in
ARR_SKIP_CNT; one that enters adds its elements to the tally sum (R36, R47, R49, R117).
IDLE_SLOT counts an idle slot of an array with an active tile (log entry 119), and a wait for weights where the first vector
of a charge has none (R41, R51). ARRAY_FREEZE counts a frozen cycle where a vector is in progress or a drain finds the output
queue full, and a drain freeze with the queue full (R49, R50, R51). -/
def Obligations.ArrayStreams : Prop :=
  (∀ (s : State) (a : ArrayId) (slot : Fin 4) (cmd : Nat), let m := a.core.seam.val
    let u : SlotId := ⟨a.core, slot⟩
    ((∀ rt ct kt assay c src v, ¬ MayCharge s a slot cmd rt ct kt assay c src v) →
      exec (.chargeStart a slot cmd) s = .next s) ∧
    (∀ rt ct kt assay c src v, MayCharge s a slot cmd rt ct kt assay c src v →
      ((getCal s m).idle = true → (getCal s m).waking = true → exec (.chargeStart a slot cmd) s = .next s) ∧
      ((getCal s m).idle = true → (getCal s m).waking = false → ∃ t, exec (.chargeStart a slot cmd) s = .next t ∧
        getCal t m = { getCal s m with waking := true } ∧ (∀ k, k ≠ m → getCal t k = getCal s k) ∧
        RegsAs (count s (calRegBase m) Ctr.CAL_WAKE_CNT 1) t ∧ SameBut [.regs, .cals] s t) ∧
      ((getCal s m).idle = false → ∃ t, exec (.chargeStart a slot cmd) s = .next t ∧
        (let rows := chargeRows c (getSlot s u) rt ct assay
         let next := advanced v (partsOf s c ct kt)
         (rows ≠ [] ∨ isDistance (ctxMode s c) = false →
          ArrayIs a { getArray s a with
            charge := some { slot := slot, cmd := cmd, tile := v.base, key := weightKey c ct kt v.nextPart, assay := assay,
                             src := src, rows := rows }
            tallySum := [] } s t ∧
          TilesChanged a.core v.base (fun _ => { next with array := some a.array, checked := false }) s t ∧
          SlotStarted u s t) ∧
         (rows = [] → isDistance (ctxMode s c) = true → t.arrays = s.arrays ∧
          TilesChanged a.core v.base (fun _ => { next with array := some a.array }) s t ∧
          SlotChanged u (fun x => cmdDone cmd (if x.started then x else { x with started := true, startedAt := s.clk.now })) s t)) ∧
        getCal t m = { getCal s m with lastCharge := s.clk.now } ∧ (∀ k, k ≠ m → getCal t k = getCal s k) ∧
        (LateStart s u (getSlot s u) →
          RegsAs (raise (count s hubClkBase Ctr.DL_LATE_START_CNT 1) hubClkBase Flag.hubClk_LATE_START) t) ∧
        (¬ LateStart s u (getSlot s u) → RegsAs s t) ∧
        SameBut [.regs, .arrays, .cores, .cals] s t))) ∧
  ((∀ (s : State) (a : ArrayId) (slot : Fin 4) (cmd image rt ct kt : Nat) (assay : Bool) (c : TaskCtx) (l : TileLoad),
    let u : SlotId := ⟨a.core, slot⟩
    let part := partToLoad s a slot cmd (rt, ct, kt, assay)
    chargeOf (getSlot s u) cmd = some (rt, ct, kt, assay) → taskCtx s u = some c → loadOf s c ct kt part = some l →
    let k := loadCounts l part
    let stored := (ctxWeight s c).any fun d => d.layout == layWl64
    (MayLoadWeights s a l.tile.mode → ¬ NoPlace s u image 64 (wl64Size l.tile.width) stored →
      ∃ t, exec (.weightTileLoad a slot cmd image) s = .next t ∧
        (∃ y, (TakesBoth (getArray s a) l.tile.mode → y = { getArray s a with active := none }) ∧
          (¬ TakesBoth (getArray s a) l.tile.mode → y = getArray s a) ∧
          ArrayIs a { y with shadow := some { l.tile with
            kt := kt
            key := weightKey c ct kt part
            counts := addCount (addCount (addCount [] cntMdDrop k.drop) cntDupPos k.dup) cntIdxOob k.oob } } s t) ∧
        Placed s u image 64 (wl64Size l.tile.width) (wl64Image l.tile) stored t ∧
        RegsAs (loadNoted s a.core k (decide (1 < l.tile.parts ∧ part = 0))) t ∧
        SameBut [.mem, .regs, .arrays, .cores] s t) ∧
    (¬ MayLoadWeights s a l.tile.mode ∨ NoPlace s u image 64 (wl64Size l.tile.width) stored →
      exec (.weightTileLoad a slot cmd image) s = .next s)) ∧
  (∀ (s : State) (a : ArrayId) (x : ArrayState) (w : WeightTile) (ch : Charge) (record : Nat), Swapped (getArray s a) x w ch →
    let u : SlotId := ⟨a.core, ch.slot⟩
    (∀ m rest, ch.rows = m :: rest →
      let l := buildRow s (chargeDesc s ch) (64 * lineGain w.line) { ch.src with row := ch.src.row + m }
      let v0 := l.vectors.getD ch.sub (badVector (64 * lineGain w.line))
      let v := if ch.assay then assayVector v0 else v0
      let z := rowNoted s a.core (if ch.sub = 0 then l.malformed else 0) (decide (1 < l.vectors.length ∧ ch.sub = 0))
      let next : Charge := if l.vectors.length ≤ ch.sub + 1 then { ch with rows := rest, sub := 0, begun := true }
        else { ch with sub := ch.sub + 1, begun := true }
      let last := isDistance w.mode ∧ l.vectors.length ≤ ch.sub + 1 ∧ rest = []
      let stored := decide ((chargeDesc s ch).layout = layPi64 ∨ ch.tile = 80)
      (NoPlace s u record 8 (nextRecords s ch w m).length stored → exec (.vectorSchedule a record) s = .next s) ∧
      (¬ NoPlace s u record 8 (nextRecords s ch w m).length stored →
        (skipVector w.mode v = true → ∃ t, exec (.vectorSchedule a record) s = .next t ∧
          ArrayIs a { x with charge := some next } s t ∧ RegsAs (count z (arrRegBase a) Ctr.ARR_SKIP_CNT 1) t ∧
          Placed s u record 8 (nextRecords s ch w m).length (nextRecords s ch w m) stored t ∧ SameBut [.mem, .regs, .arrays, .cores] s t) ∧
        (skipVector w.mode v = false → ∃ t, exec (.vectorSchedule a record) s = .next t ∧
          ArrayIs a { x with
            charge := if last then none else some next
            flights := x.flights ++ [{ elems := v.elems, upper := v.upper, lower := v.lower, planes := v.planes, row := m,
                                       tally := false, weights := w, slot := ch.slot, cmd := ch.cmd, tile := ch.tile,
                                       last := decide last }]
            queue := feedSlots w v ((getArray s a).sel != x.sel)
            tallySum := if x.tallySum = [] then v.elems else List.zipWith (· + ·) x.tallySum v.elems
            slotsLast := slotsOf w v.planes
            frozen := false } s t ∧
          (ch.assay = false →
            RegsAs (vectorCounted z a (slotsOf w v.planes) (trimmedPlanes w (max ch.src.planes v.planes) v.planes)) t) ∧
          Placed s u record 8 (nextRecords s ch w m).length (nextRecords s ch w m) stored t ∧ SameBut [.mem, .regs, .arrays, .cores] s t))) ∧
    (ch.rows = [] →
      let sum := if x.tallySum = [] then List.replicate (64 * lineGain w.line) 0 else x.tallySum
      let v := tallyVector sum
      let bs := vectorRecords v 16 [] true false
      let stored := decide (ch.tile = 80)
      v.elems = sum.map (fun e => signedOf 16 (unsignedOf 16 e)) ∧
      (NoPlace s u record 8 bs.length stored → exec (.vectorSchedule a record) s = .next s) ∧
      (¬ NoPlace s u record 8 bs.length stored → ∃ t, exec (.vectorSchedule a record) s = .next t ∧
        ArrayIs a { x with
          charge := none
          flights := x.flights ++ [{ elems := v.elems, upper := ⟨0, 0, false⟩, lower := ⟨0, 0, false⟩, planes := v.planes,
                                     row := 0, tally := true, weights := w, slot := ch.slot, cmd := ch.cmd, tile := ch.tile,
                                     last := true }]
          queue := feedSlots w v ((getArray s a).sel != x.sel)
          slotsLast := slotsOf w v.planes
          frozen := false } s t ∧
        RegsAs (vectorCounted s a (slotsOf w v.planes) (trimmedPlanes w 16 v.planes)) t ∧
        Placed s u record 8 bs.length bs stored t ∧ SameBut [.mem, .regs, .arrays, .cores] s t)))) ∧
  (∀ (s : State) (a : ArrayId), let x := getArray s a
    let b := arrRegBase a
    (∃ t z, exec (.idleSlot a) s = .next t ∧ ArrayIs a { x with frozen := false, queue := [] } s t ∧
      (x.active = none → z = s) ∧ (x.active ≠ none → z = count s b Ctr.ARR_IDLE_CNT 1) ∧
      (¬ WeightsWait x → RegsAs z t) ∧
      (WeightsWait x → RegsAs (raise (count z b Ctr.ARR_WLOAD_WAIT_CNT 1) b Flag.arr_WLOAD_WAIT) t) ∧
      SameBut [.regs, .arrays] s t) ∧
    (x.queue ≠ [] ∨ (8 ≤ x.out.length ∧ x.flights ≠ []) →
      ∃ t z, exec (.arrayFreeze a) s = .next t ∧ ArrayIs a { x with frozen := true } s t ∧
        (x.active = none → z = raise s b Flag.arr_FROZE) ∧
        (x.active ≠ none → z = raise (count s b Ctr.ARR_FREEZE_CNT 1) b Flag.arr_FROZE) ∧
        RegsAs (if 8 ≤ x.out.length then raise (count z b Ctr.ARR_DRAIN_FREEZE_CNT 1) b Flag.arr_DRAIN_BACKUP else z) t ∧
        SameBut [.regs, .arrays] s t) ∧
    (x.queue = [] → (x.out.length < 8 ∨ x.flights = []) → exec (.arrayFreeze a) s = .next s))

/-- DRAIN_PARTIAL: the oldest vector leaves its array while the output queue has room. In the multiply-add modes a vector
that passes its row check hands its partials to the queue and joins the running totals; the tally vector, which passes both
checks, hands over nothing: the part has passed, and with the last part of its weight tile the charge's command is done. A
vector of a discarded part is checked and gives nothing (R122). In MAC each column gives one partial per half that is not
masked: the sum of activation times weight over its 32 logical rows, wherever a repair has put them (R129), at the sum of the
two blocks' exponents, unless the sum is zero (R35, R43, R44, R45, R111, R119, R120, R121, R123). -/
def Obligations.DrainVector : Prop :=
  (∀ (s : State) (a : ArrayId) (us : List Upset), let x := getArray s a
    (8 ≤ x.out.length ∨ x.flights = [] → exec (.drainPartial a us) s = .next s) ∧
    (∀ f rest, Oldest x f rest → isDistance f.weights.mode = false → rowCheck f.weights f x.badRow us = true →
      let w := f.weights
      let sums := columnValues w f x.badRow us
      (f.tally = false → f.tile = 80 → ∃ t, exec (.drainPartial a us) s = .next t ∧
        ArrayIs a { leftArray x rest with totals := addTotals x.totals sums } s t ∧ SameBut [.regs, .arrays] s t) ∧
      (∀ v, f.tile ≠ 80 → TileAt s a.core f.tile v →
        (f.tally = false → ∃ t, exec (.drainPartial a us) s = .next t ∧
          ArrayIs a { leftArray x rest with
            totals := addTotals x.totals sums
            out := x.out ++ [⟨f.tile, f.row, handedOver w f x.badRow v.x64 us⟩] } s t ∧
          (PlainPartials w f x.badRow v.x64 us → RegsAs s t ∧ SameBut [.arrays] s t) ∧ SameBut [.regs, .arrays, .cores] s t) ∧
        (f.tally = true → columnCheck x.totals sums = true →
          ∃ t, exec (.drainPartial a us) s = .next t ∧ ArrayIs a { leftArray x rest with totals := [] } s t ∧
            TilesChanged a.core f.tile (fun _ => { v with checked := true }) s t ∧
            (w.part + 1 < w.parts → ∀ u, getSlot t u = getSlot s u) ∧
            (w.parts ≤ w.part + 1 → SlotChanged ⟨a.core, f.slot⟩ (cmdDone f.cmd) s t) ∧
            RegsAs (count s (arrRegBase a) Ctr.TLY_CHECK_CNT 1) t ∧ SameBut [.regs, .arrays, .cores] s t)))) ∧
  (∀ (w : WeightTile) (f : Flight) (b : Option Nat), w.mode = .mac → (∀ r, b = some r → r ≤ 64) →
    (∀ n h, (halfTags w f n h).1.special = 0 ∧ (halfTags w f n h).2.special = 0) →
    ∀ n p, (n, p) ∈ handedOver w f b true [] ↔ n < 64 ∧ n ∉ w.colMask ∧ ∃ h acc, h < 2 ∧ acc ≠ 0 ∧
      acc = ((List.range 32).map fun i => lineElem w f (32 * h + i) n * cellWeight w (32 * h + i) n).sum ∧
      p = .exact acc ((halfTags w f n h).1.beff + (halfTags w f n h).2.beff))

/-- The row check of R119 in a tile of normal lines whose tally weights are its row sums: a vector that nothing disturbed
passes, and one with a single disturbed drain integer, of a column or of the tally column, passes exactly when the error
is a multiple of 2^32 (2^16 for the tally vector) (R115, R119); a repaired row changes nothing of it (R129). A failed
check: TLY_MISMATCH_CNT counts it once, the partials of its vat tile that wait are dropped and what the array still works
on for it gives nothing, and the tile returns to its initial value with this array marked; the part's charges are to be
issued again, so that it runs from its first weight tile on another array. The first mismatch of a part, on an array with
fewer than two others in the tally window and not the core's only one, whose operands are all there, does nothing more
(R122, R124, R125). -/
def Obligations.ArrayChecks : Prop :=
  (∀ (w : WeightTile) (f : Flight) (b : Option Nat), TallyOfTile w → (∀ r, b = some r → r ≤ 64) →
    rowCheck w f b [] = true ∧
    ∀ u : Upset, rowCheck w f b [u] = true ↔ u.error % ((if f.tally then 2 ^ 16 else 2 ^ 32 : Nat) : Int) = 0) ∧
  (∀ (s : State) (a : ArrayId) (us : List Upset) (f : Flight) (rest : List Flight) (v : VatTile),
    let x := getArray s a
    let w := f.weights
    let sums := columnValues w f x.badRow us
    let u : SlotId := ⟨a.core, v.slot⟩
    Oldest x f rest → isDistance w.mode = false → TileAt s a.core f.tile v →
    let col := !f.tally || columnCheck x.totals sums
    rowCheck w f x.badRow us = false ∨ col = false →
    v.failedOn = none → (addEvent s (tget s.dep.mismatches [] (arrayKey a))).length < 3 →
    operandGone (getSlot s u) v = false → (∃ b ∈ liveArrays s a.core, b ≠ a) →
    ∃ t, exec (.drainPartial a us) s = .next t ∧
      ArrayIs a (voided { leftArray x rest with totals := if f.tally then [] else addTotals x.totals sums } f.tile) s t ∧
      TilesChanged a.core f.tile (fun _ => { resetTile v with failedOn := some a.array }) s t ∧
      ((getSlot s u).state ≠ .empty → SlotChanged u (reissued v) s t) ∧
      RegsAs (count (checksNoted s a f.tally (rowCheck w f x.badRow us) col) (arrRegBase a) Ctr.TLY_MISMATCH_CNT 1) t ∧
      t.dep.mismatches = tset s.dep.mismatches [] (arrayKey a) (addEvent s (tget s.dep.mismatches [] (arrayKey a))) ∧
      JobChanged (getSlot s u).job (fun j => { j with counts := addCount j.counts cntMismatch 1 }) s t ∧
      SameBut [.regs, .jobs, .dep, .arrays, .cores] s t)

/-- An exact partial added to an X64 tile that holds exact sums (R108, R109): a NaN entry stays NaN and nothing changes;
otherwise either the tile is lost, because its exponents would span more than 33 or a shift or the sum leaves the format, or
every entry keeps its exact value at the new reference, the least exponent so far, and the partial's entry has the partial
added to it. A NaN partial makes its entry NaN and leaves the others. -/
def Obligations.ExactSums : Prop :=
  ∀ (t : VatTile) (i : Nat), Exact t → i < 4096 →
    (∀ acc e, let r := (addPartial t i (.exact acc e)).1
      (IsNan64 t i → r = t) ∧
      (¬ IsNan64 t i → r.lost = false →
        Exact r ∧ r.expSet = true ∧ r.eRef = min (refOr t e) e ∧
        (∀ j, IsNan64 r j ↔ IsNan64 t j) ∧
        ∀ j, ¬ IsNan64 t j → exactCode r j = exactCode t j * 2 ^ (refOr t e - r.eRef).toNat +
          if j = i then acc * 2 ^ (e - r.eRef).toNat else 0) ∧
      (¬ IsNan64 t i → r.lost = true →
        33 < max (if t.expSet then t.eTop else e) e - min (refOr t e) e ∨
        (∃ x ∈ t.entries, ¬ Fits64 (signedOf 64 x.2.toNat * 2 ^ (refOr t e - e).toNat)) ∨
        ¬ Fits64 (exactCode t i * 2 ^ (refOr t e - min (refOr t e) e).toNat + acc * 2 ^ (e - min (refOr t e) e).toNat))) ∧
    ∀ r, r = (addPartial t i .nan).1 →
      IsNan64 r i ∧ (∀ j, j ≠ i → tget r.entries 0 j = tget t.entries 0 j) ∧ r.eRef = t.eRef ∧ r.lost = false

/-- VAT_ACCEPT: the vat takes the partials of at most two vectors from an array's output queue and adds them to their open
tiles in the order in which they were drained; no other tile changes (R45, R96, R100). X64_SHIFT lowers the reference of
the open X64 tile that takes the array's next partial to that partial's exponent, where the exponents' spread and every
magnitude allow it: every entry is shifted left, which VAT_SHIFT_CNT counts. X64_LOSS converts every entry of that tile to
A40 and marks it lost where the partial cannot be added exactly, which VAT_X64_LOST_CNT counts, with VAT_OVF_CNT for each
entry that becomes infinity (R108, R109). -/
def Obligations.VatAccept : Prop :=
  (∀ (s : State) (a : ArrayId), let x := getArray s a
    ∃ t, exec (.vatAccept a) s = .next t ∧ ArrayIs a { x with out := x.out.drop 2 } s t ∧
      (∀ b v, TileAt s a.core b v → TileAt t a.core b (tileTaking a v ((x.out.take 2).filter (·.tile == b)))) ∧
      (∀ d, d ≠ a.core → getCore t d = getCore s d) ∧ SameBut [.regs, .arrays, .cores] s t) ∧
  (∀ (s : State) (a : ArrayId) (v : VatTile) (i : Nat) (acc e : Int), NextExact s a v i acc e → TableOk v.entries 0 →
    let c := a.core
    let fails := (addPartial v i (.exact acc e)).1.lost
    let infs := (v.entries.filter fun e => (x64ToA40 e.2.toNat v.eRef).2).length
    (fails = true → exec (.x64Shift a) s = .next s ∧
      ∃ t w, exec (.x64Loss a) s = .next t ∧ TilesChanged c v.base (fun _ => w) s t ∧ w.lost = true ∧
        (∀ j, tget w.entries 0 j = BitVec.ofNat 64 (x64ToA40 (tget v.entries 0 j).toNat v.eRef).1) ∧
        RegsAs (countVat s c { lost := 1, ovf := infs }) t ∧ SameBut [.regs, .cores] s t) ∧
    (fails = false → exec (.x64Loss a) s = .next s ∧
      (v.expSet = true → e < v.eRef →
        ∃ t w, exec (.x64Shift a) s = .next t ∧ TilesChanged c v.base (fun _ => w) s t ∧ w.eRef = e ∧ w.lost = false ∧
          (∀ j, (IsNan64 w j ↔ IsNan64 v j) ∧ (¬ IsNan64 v j → exactCode w j = exactCode v j * 2 ^ (v.eRef - e).toNat)) ∧
          RegsAs (count s (vatRegBase c) Ctr.VAT_SHIFT_CNT 1) t ∧ SameBut [.regs, .cores] s t))) ∧
  (∀ (s : State) (a : ArrayId), (∀ v i acc e, ¬ NextExact s a v i acc e) →
    exec (.x64Shift a) s = .next s ∧ exec (.x64Loss a) s = .next s)

/-- TILE_OPEN places an output tile of a running task's block at the lowest position whose granules are all free, once the
closed tiles that the task has done with are gone (log entry 127); with none free, at the lowest that only tiles of tasks
that are not RUNNING hold, which are saved and leave the vat. TILE_INIT_DONE gives an open tile its initial value: zero,
or in part 0 of segment 0 the elements of its LOAD tensor. TILE_CLOSE closes a tile that has taken the last partial of its
range and whose last checks have passed, and its events join its task's (R96, R97, R104, R123, R164, R275). PART_COMBINE
adds the tile of a save record into a closed tile, entry by entry, where both are parts of one output tile that the
left-aligned tree of R106 combines. Two X64 tiles that hold exact sums combine exactly at the lower of their references
unless that loses them, a NaN in either gives NaN; two A40 tiles combine by vat_add (R101, R106, R110). -/
def Obligations.TileLife : Prop :=
  ((∀ (s : State) (u : SlotId) (rt ct : Nat) (assay : Bool),
    ((∀ c, ¬ MayOpenTile s u c rt ct assay) → exec (.tileOpen u rt ct assay) s = .next s) ∧
    (∀ c, MayOpenTile s u c rt ct assay → let l := keptTiles s u
      let z := tilesReleased s u
      let x64 := nodeX64 c.node
      let new (b : Nat) : VatTile := { newTile s u c rt ct assay with base := b }
      (∀ b, (new b).entries = [] ∧ (new b).isOpen = true ∧ (new b).ready = false ∧ (new b).x64 = x64 ∧ (new b).slot = u.slot ∧
        (new b).rowTile = rt ∧ (new b).colTile = ct ∧ (new b).assay = assay ∧
        ∀ k ∈ (new b).tiles, blkBit s c.image c.node (ctxCols s c) k ct = false) ∧
      (∀ b, LowestAt x64 (FreeAt z u.core x64) b →
        ∃ t, exec (.tileOpen u rt ct assay) s = .next t ∧ TilesAre u.core (l ++ [new b]) s t ∧ SameBut [.cores] s t) ∧
      (∀ b, (∀ d, Position x64 d → ¬ FreeAt z u.core x64 d) → LowestAt x64 (YieldsAt z u.core x64) b →
        let way := inTheWay (getCore z u.core) x64 b
        ((∃ v ∈ way, tileBusy s u.core v.base = true) ∨ saveAll z u.core way = none →
          exec (.tileOpen u rt ct assay) s = .next s) ∧
        ((∀ v ∈ way, tileBusy s u.core v.base = false) → saveAll z u.core way ≠ none →
          (∀ v ∈ l, ∀ w ∈ l, v.base = w.base → v = w) →
          ∃ t, exec (.tileOpen u rt ct assay) s = .next t ∧
            TilesAre u.core ((l.filter fun v => v ∉ way) ++ [new b]) s t ∧
            (∀ v ∈ way, ∃ off, ({ offset := off, kept := keptOf v } : SaveRecord) ∈ (getSlot t (tileSlot u.core v)).saved) ∧
            SameBut [.mem, .regs, .cores] s t)))) ∧
  (∀ (s : State) (c : CoreId) (b : Nat) (v : VatTile), TileAt s c b v → v.isOpen = true →
    (v.ready = false → ∃ t w, exec (.tileInitDone c b) s = .next t ∧ TilesChanged c b (fun _ => w) s t ∧
      SameBut [.cores] s t ∧ w.ready = true ∧
      (v.init = .zero ∨ v.part ≠ 0 ∨ v.segment ≠ 0 → w = { v with ready := true, entries := [] }) ∧
      (∀ desc rt ct d, v.init = .load desc rt ct → v.part = 0 → v.segment = 0 → descAt s desc = some d →
        v.x64 = false ∨ d.format = fmtInt32 →
        ∀ m n, m < 64 → n < 64 → tget w.entries 0 (64 * m + n) =
          match loadElem d rt ct m n with
          | some i => BitVec.ofNat 64 (if v.x64 then unsignedOf 64 (signedOf 32 (elemBits s d i))
              else encodeF a40 .rne (elemValue s d i))
          | none => 0)) ∧
    (let done := v.ready = true ∧ v.checked = true ∧ v.nextTile = v.stop ∧ v.nextPart = 0 ∧ tileBusy s c b = false
     (done → ∃ t, exec (.tileClose c b) s = .next t ∧
        TilesChanged c b (fun _ => { v with isOpen := false, failedOn := none, counts := [] }) s t ∧
        (getSlot t (tileSlot c v)).counts =
          addCount (mergeCounts (getSlot s (tileSlot c v)).counts v.counts) cntLongSum (if 1 < v.segments then 1 else 0) ∧
        RegsAs (if 1 < v.segments then raise s (vatRegBase c) Flag.vat_LONG_SUM else s) t ∧ SameBut [.regs, .jobs, .cores] s t) ∧
     (¬ done → exec (.tileClose c b) s = .next s)))) ∧
  ((∀ (s : State) (c : CoreId) (b : Nat) (a : Addr) (l r : VatTile), TileAt s c b l →
    parseRecord (readModule s a (recordSize (leNat (readModule s a 1) == fmtX64))) 0 = some r →
    ((∀ x n, ¬ MayCombine s c l r x n) → exec (.partCombine c b a) s = .next s) ∧
    (∀ x n, MayCombine s c l r x n → ∃ t, exec (.partCombine c b a) s = .next t ∧
      TilesChanged c b (fun _ => (combineTiles l r).1) s t ∧ RegsAs (countVat s c (combineTiles l r).2) t ∧
      (∀ j, getJob t x.job = some j → n ∈ (runOf j x.stage).spans) ∧ SameBut [.regs, .jobs, .cores] s t)) ∧
  (∀ n l wl r wr w, treeJoin n l wl r wr = some w ↔
    TreeNode n l w ∧ ∃ k, 2 ^ k < w ∧ w ≤ 2 ^ (k + 1) ∧ wl = 2 ^ k ∧ r = l + 2 ^ k ∧ wr = w - 2 ^ k) ∧
  (∀ l r, Exact l → Exact r → let k := (combineTiles l r).1
    let ref (t : VatTile) : Int := if t.expSet then t.eRef else k.eRef
    k.lost = false → ∀ i, i < 4096 → (IsNan64 k i ↔ IsNan64 l i ∨ IsNan64 r i) ∧
      (¬ IsNan64 k i → k.eRef ≤ ref l ∧ k.eRef ≤ ref r ∧
        exactCode k i = exactCode l i * 2 ^ (ref l - k.eRef).toNat + exactCode r i * 2 ^ (ref r - k.eRef).toNat)) ∧
  (∀ l r, l.x64 = false → r.x64 = false → ∀ i, i < 4096 →
    tget (combineTiles l r).1.entries 0 i = BitVec.ofNat 64 (vatAdd (tget l.entries 0 i).toNat (tget r.entries 0 i).toNat).1))

/-- A save record holds every bit of a tile: reading it back gives the tile's fields and entries. VAT_SAVE writes the record
of a tile that no array feeds into its core's scratch and frees its granules: that of a task that does not run at the
lowest place of its save area, where the RUNNING task needs its granules, and that of the RUNNING task, where its block
spills, at a place of its working scratch. VAT_RESTORE places the tile of a sound record of the RUNNING task at the lowest
free position, and aborts the task of a record whose CRC32C or format code fails (R111, R112, R164, R166, R273). -/
def Obligations.SaveRecords : Prop :=
  (∀ (v : VatTile) (b : Nat), Savable v → ∃ u, parseRecord (saveRecord v) b = some u ∧ SameEntries u v ∧
    u = { base := b, x64 := v.x64, isOpen := v.isOpen, lost := v.lost, expSet := v.expSet, forced := v.forced,
          eRef := v.eRef, eTop := v.eTop, part := v.part, split := v.split, segment := v.segment, nextTile := v.nextTile,
          nextPart := v.nextPart, nextSub := v.nextSub, added := v.added, rowTile := v.rowTile, colTile := v.colTile,
          slot := v.slot, entries := u.entries, ready := true }) ∧
  (∀ (s : State) (c : CoreId) (b off o : Nat) (v : VatTile) (spill : Bool), TileAt s c b v → v.ready = true →
    tileBusy s c b = false → o + (saveRecord v).length ≤ 2 ^ 20 →
    let u := tileSlot c v
    (spill = false ∧ (getSlot s u).state ≠ .running ∧ inNeed s c v = true ∧ saveOffset (getSlot s u) v.x64 = some o) ∨
    (spill = true ∧ (getSlot s u).state = .running ∧ v.isOpen = true ∧ o = off ∧ off % 64 = 0 ∧
      (∃ k, taskCtx s u = some k ∧ tileSpills s u k v = true) ∧
      inWork (getSlot s u) off (recordSize v.x64) = true ∧ clearOfRecords (getSlot s u) off (recordSize v.x64) = true) →
    ∃ t, exec (.vatSave c b off) s = .next t ∧ readScratch t c o (saveRecord v).length = saveRecord v ∧
      BytesBut (scratchAddr c o) (saveRecord v).length s t ∧
      TilesAre c ((getCore s c).tiles.filter fun w => w.base != b) s t ∧
      (getSlot t u).saved = (getSlot s u).saved ++ [{ offset := o, spill := spill, kept := keptOf v }] ∧
      RegsAs (count (count s (vatRegBase c) Ctr.VAT_SAVE_CNT 1) (coreRegBase c) Ctr.CORE_SAVE_CYC_CNT
        ((saveRecord v).length / 64)) t ∧
      SameBut [.mem, .regs, .cores] s t) ∧
  (∀ (s : State) (u : SlotId) (rt ct off : Nat) (assay : Bool) (r : SaveRecord),
    findSaved (getSlot s u) rt ct assay = some r → (getSlot s u).state = .running →
    tileNeeded (getSlot s u) r.kept = true →
    (r.inDram = false → off = r.offset) → (r.inDram = true → inWork (getSlot s u) off (recordSize r.kept.x64) = true) →
    let bs := readScratch s u.core off (recordSize r.kept.x64)
    (parseRecord bs 0 = none →
      exec (.vatRestore u rt ct assay off) s = .next (abortTask (raise s (vatRegBase u.core) Flag.vat_RESTORE_FAIL) u)) ∧
    (∀ v b, parseRecord bs 0 = some v → LowestAt v.x64 (FreeAt s u.core v.x64) b →
      ∃ t, exec (.vatRestore u rt ct assay off) s = .next t ∧
        TilesAre u.core ((getCore s u.core).tiles ++ [restoredTile s u r.kept v b]) s t ∧
        (getSlot t u).saved = (getSlot s u).saved.erase r ∧
        RegsAs (count (count s (vatRegBase u.core) Ctr.VAT_RESTORE_CNT 1) (coreRegBase u.core) Ctr.CORE_RESTORE_CYC_CNT
          (recordSize v.x64 / 64)) t ∧
        SameBut [.regs, .cores] s t))

/-- Two requesters meet at a bank of scratch (R155, R156): the one higher in the table is granted and its bytes stored, unless
the other has been promoted there and it has not; the one refused stores nothing and is counted. A write that comes from
the fabric frees its line of the ingress buffer (R239).
A requester refused in 8 cycles in a row is promoted at that bank and counted (R156).
A write of less than a word takes two grants: the first, whose read is checked, stores nothing, the second stores it (R158). -/
def Obligations.ScratchBanks : Prop :=
  (∀ (s : State) (c : CoreId) (r q : ScrRequest) (bs cs : List Byte), LineWrite r bs → WholeWords r bs → LineWrite q cs →
    bankOfOffset r.offset = bankOfOffset q.offset → r.who ≠ q.who →
    let b := bankOfOffset r.offset
    let rp := (b, scrOrder r.who) ∈ (getCore s c).promoted
    let qp := (b, scrOrder q.who) ∈ (getCore s c).promoted
    (rp ∧ ¬ qp ∨ ((rp ↔ qp) ∧ scrOrder r.who < scrOrder q.who)) →
    ∀ l, l = [r, q] ∨ l = [q, r] →
    ∃ t, exec (.scratchAccess c l) s = .next t ∧
      (∀ i (h : i < bs.length), loadByte t.mem (scratchAddr c r.offset + i) = bs[i]) ∧
      BytesBut (scratchAddr c r.offset) bs.length s t ∧
      refusedTimes t c b q.who = refusedTimes s c b q.who + 1 ∧ refusedTimes t c b r.who = 0 ∧
      Counted (coreRegBase c + Ctr.SCR_CONFLICT_CNT) 1 s t ∧ RegsBut [coreRegBase c + Ctr.SCR_CONFLICT_CNT] s t ∧
      (∀ d, d ≠ c → getCore t d = getCore s d) ∧ (∀ u, getSlot t u = getSlot s u) ∧
      getHop t c = (if r.who = .fabricWrite then { getHop s c with lines := (getHop s c).lines - 1, stalled := false }
        else getHop s c) ∧ (∀ d, d ≠ c → getHop t d = getHop s d) ∧
      SameBut [.mem, .regs, .cores, .hops] s t) ∧
  (∀ (s : State) (c : CoreId) (bank : Fin 32) (w : ScrRequester), 8 ≤ refusedTimes s c bank.val w →
    (bank.val, scrOrder w) ∉ (getCore s c).promoted →
    ∃ t, exec (.scratchStarvePromote c bank w) s = .next t ∧
      getCore t c = { getCore s c with promoted := (bank.val, scrOrder w) :: (getCore s c).promoted } ∧
      (∀ d, d ≠ c → getCore t d = getCore s d) ∧
      Counted (coreRegBase c + Ctr.SCR_STARVE_CNT) 1 s t ∧ RegsBut [coreRegBase c + Ctr.SCR_STARVE_CNT] s t ∧
      SameBut [.regs, .cores] s t) ∧
  (∀ (s : State) (c : CoreId) (r : ScrRequest) (bs : List Byte), LineWrite r bs → ¬ WholeWords r bs → r.ecc = .clean →
    CleanLine s c r.offset →
    let key := (scrOrder r.who, r.offset)
    (key ∉ (getCore s c).halfWrites → ∃ t, exec (.scratchAccess c [r]) s = .next t ∧ t.mem = s.mem ∧
      (getCore t c).halfWrites = key :: (getCore s c).halfWrites ∧ SameBut [.cores, .hops] s t) ∧
    (key ∈ (getCore s c).halfWrites → ∃ t, exec (.scratchAccess c [r]) s = .next t ∧
      (∀ i (h : i < bs.length), loadByte t.mem (scratchAddr c r.offset + i) = bs[i]) ∧
      BytesBut (scratchAddr c r.offset) bs.length s t ∧
      (getCore t c).halfWrites = (getCore s c).halfWrites.erase key ∧ SameBut [.mem, .cores, .hops] s t))

/-- INT32 arithmetic is exact where the result fits (R168, R170), while the engine works on a command of the slot's task (R159);
otherwise an instruction does nothing.
Logic and shifts, lane by lane (R170); a shift by 32 or more writes an open value and changes nothing else. -/
def Obligations.VeIntegers : Prop :=
  (∀ (s : State) (o : VeBin) (c : VReg) (p : VeUn) (d : VeLogic), o.fmt = .int32 → p.fmt = .int32 →
    VeWorks s o.at_ → VeWorks s p.at_ → VeWorks s d.at_ →
    let x := fun k => (lane s o.at_ o.a k).toInt
    let y := fun k => (lane s o.at_ o.b k).toInt
    let z := fun k => (lane s o.at_ c k).toInt
    let n := fun k => (lane s p.at_ p.a k).toInt
    let dot := fun k =>
      let a := lane s d.at_ d.a k
      let b := lane s d.at_ d.b k
      (lane s d.at_ d.dst k).toInt + signedByte a 0 * signedByte b 0 + signedByte a 1 * signedByte b 1 +
        signedByte a 2 * signedByte b 2 + signedByte a 3 * signedByte b 3
    VeInteger (.veAdd o) o.at_ o.dst (fun k => x k + y k) s ∧
    VeInteger (.veSub o) o.at_ o.dst (fun k => x k - y k) s ∧
    VeInteger (.veMul o) o.at_ o.dst (fun k => x k * y k) s ∧
    VeInteger (.veFma o c) o.at_ o.dst (fun k => x k * y k + z k) s ∧
    VeInteger (.veMin o) o.at_ o.dst (fun k => min (x k) (y k)) s ∧
    VeInteger (.veMax o) o.at_ o.dst (fun k => max (x k) (y k)) s ∧
    VeInteger (.veAbs p) p.at_ p.dst (fun k => ((n k).natAbs : Int)) s ∧
    VeInteger (.veNeg p) p.at_ p.dst (fun k => - n k) s ∧
    VeInteger (.veDot4 d) d.at_ d.dst dot s) ∧
  (∀ (s : State) (o : VeLogic), (¬ VeWorks s o.at_ →
      ∀ i ∈ [Instr.veDot4 o, .veAnd o, .veOr o, .veXor o, .veNot o, .veShl o, .veShr o, .veSar o], exec i s = .next s) ∧
   (VeWorks s o.at_ →
    let x := lane s o.at_ o.a
    let y := lane s o.at_ o.b
    VeGives (.veAnd o) o.at_ o.dst 1 (fun k => x k &&& y k) s ∧
    VeGives (.veOr o) o.at_ o.dst 1 (fun k => x k ||| y k) s ∧
    VeGives (.veXor o) o.at_ o.dst 1 (fun k => x k ^^^ y k) s ∧
    VeGives (.veNot o) o.at_ o.dst 1 (fun k => ~~~ x k) s ∧
    (∃ f, VeGives (.veShl o) o.at_ o.dst 1 f s ∧
      ∀ k, k < 64 → (y k).toNat < 32 → (f k).toNat = (x k).toNat * 2 ^ (y k).toNat % 2 ^ 32) ∧
    (∃ f, VeGives (.veShr o) o.at_ o.dst 1 f s ∧
      ∀ k, k < 64 → (y k).toNat < 32 → (f k).toNat = (x k).toNat / 2 ^ (y k).toNat) ∧
    (∃ f, VeGives (.veSar o) o.at_ o.dst 1 f s ∧
      ∀ k, k < 64 → (y k).toNat < 32 → (f k).toInt = (x k).toInt / (2 ^ (y k).toNat : Nat))))

/-- The arithmetic, compare and special instructions of the vector engine and its reductions, in every format: while the engine
works on a command of the slot's task (R159), each writes to every lane of its destination what its function gives for the
lanes of its sources, is counted with its cycles, and changes nothing else (R168 to R172, R174); otherwise it does nothing.
Floating functions: every NaN produced is the canonical one, and a NaN operand gives it (R11). -/
def Obligations.VeFloatNan : Prop :=
  (∀ (s : State) (o : VeBin) (c : VReg) (rel : CmpRel), ∀ r ∈ laneRows o c rel,
    (VeWorks s o.at_ → ∃ t, exec r.1 s = .next t ∧ VeWrote o.at_ o.dst r.2.1
      (fun k => r.2.2 (lane s o.at_ o.a k) (lane s o.at_ o.b k) (lane s o.at_ c k)) s t) ∧
    (¬ VeWorks s o.at_ → exec r.1 s = .next s)) ∧
  (∀ (s : State) (p : VeUn),
    (VeWorks s p.at_ →
      (∀ r ∈ signRows p, ∃ t, exec r.1 s = .next t ∧ VeWrote p.at_ p.dst 1 (fun k => r.2 (lane s p.at_ p.a k)) s t) ∧
      (∀ r ∈ reduceRows p, ∃ t, exec r.1 s = .next t ∧
        VeWrote p.at_ p.dst 8 (fun _ => joinAll r.2 (getLanes s p.at_ p.a)) s t)) ∧
    (¬ VeWorks s p.at_ → (∀ r ∈ signRows p, exec r.1 s = .next s) ∧ ∀ r ∈ reduceRows p, exec r.1 s = .next s)) ∧
  (∀ (s : State) (q : VeSpecial), ∀ r ∈ specialRows q,
    (VeWorks s q.at_ → ∃ t, exec r.1 s = .next t ∧ VeWrote q.at_ q.dst 4 (fun k => r.2 (lane s q.at_ q.a k)) s t) ∧
    (¬ VeWorks s q.at_ → exec r.1 s = .next s)) ∧
  (∀ (fmt : VeFormat) (rnd : Rounding) (x y z : Word), fmt ≠ .int32 →
    NanRight fmt [x, y] (addLane fmt rnd x y) ∧ NanRight fmt [x, y] (subLane fmt rnd x y) ∧
    NanRight fmt [x, y] (mulLane fmt rnd x y) ∧ NanRight fmt [x, y, z] (fmaLane fmt rnd x y z) ∧
    NanRight fmt [x, y] (divLane fmt rnd x y) ∧ NanCanonical fmt (minMaxLane 4 fmt x y) ∧
    NanCanonical fmt (minMaxLane 5 fmt x y) ∧ NanRight fmt [x] (absNegLane false fmt x) ∧
    NanRight fmt [x] (absNegLane true fmt x) ∧ NanCanonical fmt (selLane fmt x y z)) ∧
  (∀ (rnd : Rounding) (fn : SpecialFn) (x : Word), NanRight .fp32 [x] (sqrtLane rnd x) ∧ NanRight .fp32 [x] (specialF fn rnd x))

/-- CMP writes one of two words, and SEL on the register it wrote takes its first operand where the relation held and its
second where it did not (R170; that each word has this meaning is log entry 15).
Reductions join the 64 lanes by rounds of adjacent pairs (R172), every lane taking the result (log entry 22). REDMAX
and REDMIN of INT32 lanes give the greatest and the least of them, of FP32 lanes NaN if any lane is NaN. -/
def Obligations.VeCompareReduce : Prop :=
  (∀ (s : State) (o : VeBin) (rel : CmpRel) (p : VeBin) (c : VReg), o.fmt = .int32 → p.fmt = .int32 → VeWorks s o.at_ →
    ∃ f, VeGives (.veCmp o rel) o.at_ o.dst 1 f s ∧
      ∀ z, VeWorks z p.at_ → ∃ g, VeGives (.veSel p c) p.at_ p.dst 1 g z ∧
        ∀ k j, k < 64 → j < 64 → lane z p.at_ c j = f k →
          (IntRel rel (lane s o.at_ o.a k).toInt (lane s o.at_ o.b k).toInt → g j = lane z p.at_ p.a j) ∧
          (¬ IntRel rel (lane s o.at_ o.a k).toInt (lane s o.at_ o.b k).toInt → g j = lane z p.at_ p.b j)) ∧
  (∀ (s : State) (o : VeUn), VeWorks s o.at_ →
    (∃ r, VeGives (.veRedsum o) o.at_ o.dst 8 (fun _ => r) s ∧
      r = joinAll (addLane o.fmt o.rnd) (getLanes s o.at_ o.a)) ∧
    (o.fmt = .int32 → ∃ r, VeGives (.veRedmax o) o.at_ o.dst 8 (fun _ => r) s ∧
      (∃ j, j < 64 ∧ r = lane s o.at_ o.a j) ∧ ∀ j, j < 64 → (lane s o.at_ o.a j).toInt ≤ r.toInt) ∧
    (o.fmt = .int32 → ∃ r, VeGives (.veRedmin o) o.at_ o.dst 8 (fun _ => r) s ∧
      (∃ j, j < 64 ∧ r = lane s o.at_ o.a j) ∧ ∀ j, j < 64 → r.toInt ≤ (lane s o.at_ o.a j).toInt) ∧
    (o.fmt = .fp32 → ∃ r q, VeGives (.veRedmax o) o.at_ o.dst 8 (fun _ => r) s ∧
      VeGives (.veRedmin o) o.at_ o.dst 8 (fun _ => q) s ∧
      ∀ j, j < 64 → IsNan .fp32 (lane s o.at_ o.a j).toNat → r = 0x7FC00000 ∧ q = 0x7FC00000))

/-- CVT of any source that is there, a vector register, a row of a closed vat tile or half a bundle, while the engine works on
a command of the slot's task: into a register, every live position converted, padding zero and the rest as it was; into a
bundle in scratch, each of its two blocks that has a live position gets the scale and the payload of its conversion, one
wholly of padding zeros, and no byte outside the bundle changes (R17, R28 to R31, R414). With a vat tile that is absent or
not closed it does nothing (R96). CVT between vector registers: FP32 to FP32 and INT32 to INT32 are exact; FP32 to INT32
gives 0 for a NaN and the limits for the infinities (R28, R30, R31). -/
def Obligations.VeConvert : Prop :=
  (∀ (s : State) (u : SlotId) (src : CvtSrc) (dst : CvtDst) (mods : CvtMod) (cover : CvtCover),
    (¬ VeWorks s u → exec (.veCvt u src dst mods cover) s = .next s) ∧
    (VeWorks s u → CvtMay s u src dst →
      (cvtSource s u cover.padded src = none → exec (.veCvt u src dst mods cover) s = .next s) ∧
      (∀ vals, cvtSource s u cover.padded src = some vals →
        (∀ v f, dst = .reg v f → ∃ t, exec (.veCvt u src dst mods cover) s = .next t ∧
          (∀ k, k < 64 → lane t u v k = (cvtLanes f mods vals (getLanes s u v) cover).1.getD k 0) ∧
          (∀ w, w ≠ v → getLanes t u w = getLanes s u w) ∧ CvtKept u [.regs, .cores] s t) ∧
        (∀ off f pair, dst = .bundle off f pair → isBlock f = true → off + unitBytes f ≤ 0x100000 →
          ∃ t, exec (.veCvt u src dst mods cover) s = .next t ∧
            (∀ b, b < 2 → let blk := 2 * pair.val + b
              let live := cvtLive vals cover b
              ((∃ x ∈ live, x ≠ none) →
                loadByte t.mem (scratchAddr u.core (off + blk)) = BitVec.ofNat 8 (cvtBlock f mods live).1 ∧
                loadBytes t.mem (scratchAddr u.core (off + 8 + 4 * elemWidth f * blk)) (4 * elemWidth f) =
                  packBlock (elemWidth f) (cvtBlock f mods live).2.1) ∧
              ((∀ i, i < 32 → 32 * b + i ∈ cover.padded) →
                loadByte t.mem (scratchAddr u.core (off + blk)) = 0 ∧
                loadBytes t.mem (scratchAddr u.core (off + 8 + 4 * elemWidth f * blk)) (4 * elemWidth f) =
                  List.replicate (4 * elemWidth f) 0)) ∧
            BytesBut (scratchAddr u.core off) (unitBytes f) s t ∧ (∀ w, getLanes t u w = getLanes s u w) ∧
            CvtKept u [.mem, .regs, .cores] s t)))) ∧
  (∀ (s : State) (u : SlotId) (v dst : VReg) (mods : CvtMod) (cover : CvtCover), VeWorks s u →
    CvtGives u v dst 0x01 0x01 mods cover (fun k w =>
      (IsNan .fp32 (lane s u v k).toNat → w = 0x7FC00000) ∧ (¬ IsNan .fp32 (lane s u v k).toNat → w = lane s u v k)) s ∧
    CvtGives u v dst 0x05 0x05 mods cover (fun k w => w = lane s u v k) s ∧
    CvtGives u v dst 0x01 0x05 mods cover (fun k w =>
      (IsNan .fp32 (lane s u v k).toNat → w = 0) ∧ (lane s u v k = 0x7F800000 → w = 0x7FFFFFFF) ∧
      (lane s u v k = 0xFF800000 → w = 0x80000000)) s)

/-- LD reads 64 words of eight lines and ST writes them, while the engine works on a command of the slot's task and nothing of
them is poisoned (R158, R159, R168, R170). A store into the reserved part of the core window stores nothing, and one into the
vat's reaches no byte of memory (R6, R96). An access that fails protection, which it passes through during start-up, test and
recovery only, aborts the task (R186). -/
def Obligations.VeLoadStore : Prop :=
  ∀ (s : State) (u : SlotId) (v : VReg) (off : Nat),
    (¬ VeWorks s u → exec (.veLd u v off) s = .next s ∧ exec (.veSt u v off) s = .next s) ∧
    (VeWorks s u → accessAllowed s u [(off, 256)] = false →
      exec (.veLd u v off) s = .next (abortTask s u) ∧ exec (.veSt u v off) s = .next (abortTask s u)) ∧
    (VeWorks s u → accessAllowed s u [(off, 256)] = true → (getCore s u.core).poisonedWords = [] →
      (off + 256 ≤ 0x100000 →
        (∃ t, exec (.veLd u v off) s = .next t ∧ VeWrote u v 1 (elemAt s u.core off) s t) ∧
        ∃ t, exec (.veSt u v off) s = .next t ∧
          (∀ k, k < 64 → elemAt t u.core off k = lane s u v k) ∧
          BytesBut (scratchAddr u.core off) 256 s t ∧ PoisonBut u.core s t ∧
          VeCounted u.core 1 s t ∧ RegsBut (veRegs u.core) s t ∧ SameBut [.mem, .regs, .cores] s t) ∧
      (0x100000 ≤ off →
        (∃ t, exec (.veLd u v off) s = .next t ∧ VeWrote u v 1 (fun k =>
          windowByte s u.core (off + 4 * k + 3) ++ windowByte s u.core (off + 4 * k + 2) ++
            windowByte s u.core (off + 4 * k + 1) ++ windowByte s u.core (off + 4 * k)) s t) ∧
        ∃ t, exec (.veSt u v off) s = .next t ∧ t.mem = s.mem ∧
          (0x150000 ≤ off → (getCore t u.core).tiles = (getCore s u.core).tiles ∧ VeCounted u.core 1 s t)))

/-- GATHER reads the element that each index names, or the fill value for one outside the region, which is counted (R173).
SCATTER and SCATTER.ADD write the elements that their indices name, in ascending order of lanes: the last of the lanes
that name an element wins, or all of them are added to it one after the other (R173). Without a command of the slot's task
that the engine works on they do nothing (R159), and an access that fails protection aborts the task (R186). -/
def Obligations.IndexedAccess : Prop :=
  (∀ (s : State) (o : VeIndexed), o.region + 4 * o.count ≤ 0x100000 → MayIndex s o →
    ∃ t, exec (.veGather o) s = .next t ∧
      (∀ k, k < 64 → lane t o.at_ o.data k =
        if (lane s o.at_ o.index k).toNat < o.count
        then elemAt s o.at_.core o.region (lane s o.at_ o.index k).toNat else o.fill) ∧
      (∀ v, v ≠ o.data → getLanes t o.at_ v = getLanes s o.at_ v) ∧
      OobNoted o.at_ (oobLanes s o) s t ∧ IndexedKept o.at_ [.regs, .cores] s t) ∧
  (∀ (s : State) (o : VeIndexed), o.region + 4 * o.count ≤ 0x100000 → MayIndex s o →
    let idx := fun k => (lane s o.at_ o.index k).toNat
    let val := fun k => lane s o.at_ o.data k
    (∃ t, exec (.veScatter o) s = .next t ∧
      (∀ k, k < 64 → idx k < o.count → (∀ l, k < l → l < 64 → idx l ≠ idx k) →
        elemAt t o.at_.core o.region (idx k) = val k) ∧
      (∀ j, j < o.count → (∀ k, k < 64 → idx k ≠ j) → elemAt t o.at_.core o.region j = elemAt s o.at_.core o.region j) ∧
      BytesBut (scratchAddr o.at_.core o.region) (4 * o.count) s t ∧
      OobNoted o.at_ (oobLanes s o) s t ∧ (∀ v, getLanes t o.at_ v = getLanes s o.at_ v) ∧
      IndexedKept o.at_ [.mem, .regs, .cores] s t) ∧
    (∃ t, exec (.veScatterAdd o) s = .next t ∧
      (∀ j, j < o.count → elemAt t o.at_.core o.region j =
        ((List.range 64).filter fun k => idx k = j).foldl (fun acc k => addLane .fp32 .rne acc (val k))
          (elemAt s o.at_.core o.region j)) ∧
      BytesBut (scratchAddr o.at_.core o.region) (4 * o.count) s t ∧
      OobNoted o.at_ (oobLanes s o) s t ∧ (∀ v, getLanes t o.at_ v = getLanes s o.at_ v) ∧
      IndexedKept o.at_ [.mem, .regs, .cores] s t)) ∧
  (∀ (s : State) (o : VeIndexed), ∀ i ∈ [Instr.veGather o, .veScatter o, .veScatterAdd o],
    (¬ VeWorks s o.at_ → exec i s = .next s) ∧
    (VeWorks s o.at_ → accessAllowed s o.at_ (indexedRanges o s) = false → exec i s = .next (abortTask s o.at_)))

/-- MERGE writes one element of its task's output tile while the jig works on a command of the task: the matched pairs are the
places whose indices both streams hold, in ascending order (R88); the element is the sum in the merge order of additions,
which for INT8 values is their sum modulo `2^32`; the pairs and the busy cycles, within the bounds of R89, are counted,
the cycles in the vector engine as well (log entry 124). Streams that break order give an open element and are counted
(R90). -/
def Obligations.Merge : Prop :=
  (∀ (s : State) (m : MergeSpec), (∀ a b, ¬ MayMerge s m a b) → exec (.merge m) s = .next s) ∧
  ∀ (s : State) (m : MergeSpec) (a b : SparseOp), MayMerge s m a b → m.dst + 4 ≤ 0x100000 →
    (getCore s m.at_.core).poisonedWords = [] →
    let av := a.val
    let bv := b.val
    let x := readStream s a m.row m.lenK
    let y := readStream s b m.col m.lenK
    let pairs := matchPairs (x.entries.length + y.entries.length) x.entries y.entries
    ∃ t n, exec (.merge m) s = .next t ∧
      (x.descends = false → y.descends = false →
        (∀ p q, (p, q) ∈ pairs ↔ ∃ j, (j, p) ∈ x.entries ∧ (j, q) ∈ y.entries) ∧
        memWord t.mem (scratchAddr m.at_.core m.dst) = mergeElement s av bv x y ∧
        (av.format = fmtInt8 → mergeElement s av bv x y = BitVec.ofInt 32 (int8Sum s av bv pairs))) ∧
      Counted (spRegBase m.at_.core + Ctr.JIG_MATCH_CNT) pairs.length s t ∧
      (max x.read y.read + 7) / 8 ≤ n ∧ n ≤ (x.read + 7) / 8 + (y.read + 7) / 8 ∧
      Counted (spRegBase m.at_.core + Ctr.JIG_BUSY_CNT) n s t ∧ VeCounted m.at_.core n s t ∧
      Counted (spRegBase m.at_.core + Ctr.SP_IDX_OOB_CNT) (x.oob + y.oob) s t ∧
      Counted (spRegBase m.at_.core + Ctr.SP_ORDER_BREAK_CNT) (x.breaks + y.breaks) s t ∧
      BytesBut (scratchAddr m.at_.core m.dst) 4 s t ∧ RegsBut (mergeRegs m.at_.core) s t ∧
      (∀ v, v ≠ m.at_ → getSlot t v = getSlot s v) ∧
      { getSlot t m.at_ with counts := [] } = { getSlot s m.at_ with counts := [] } ∧
      (∀ c, { getCore t c with slots := [], poisonedWords := [] } =
        { getCore s c with slots := [], poisonedWords := [] }) ∧
      SameBut [.freeCount, .mem, .regs, .cores] s t

/-- ADIT_COLUMN_GROUP: a unit that was given a column group begins it, with the operation's rows in its vector buffer and its
reads of the weights at the DRAM channels, and waits for these; then it forms the entries of the group and writes them to
the output under the node's conversion, and the remainders of its counters of 4,096 bytes read and of 1,024 lane products
carry over. A residue failure instead returns the group to its start, is counted once, and with the third in the tally
window the unit is fenced. What it writes are the converted entries of the live rows and columns (R135 to R139, R152,
R414). A translation fault, in start-up, test or recovery only, aborts the group's task (R186). ADIT_PROBE moves the adit
threshold of a stage under AUTO with adaptation enabled by the averages that its runs have left: down by one, to 0 at
least, where the arrays beat the adit path by more than 5 % at T_s rows, else up by one, to 8 at most, where the adit path
beats the arrays so at T_s + 1 rows; anything else leaves all as it is (R140, R141). -/
def Obligations.AditUnits : Prop :=
  ((∀ (s : State) (u : AditId) (k : Fin 64) (i : Nat) (core : CoreId) (us : List AditUpset) (bad : Bool),
    let go (t : State) : Prop := exec (.aditColumnGroup u k i core us bad) s = .next t
    ((∀ c, ¬ MayGroup s u k.val i c) ∨ coreUp s core = false → go s) ∧
    (∀ c, MayGroup s u k.val i c → coreUp s core = true →
      (bad = true → Translates s → ∃ t, go t ∧ (getAdit t u).op = none ∧
        (let w := getCounter s u.seam.val k.val
         CounterSet u.seam.val k.val { w with given := w.given.filter fun e => e.1 != i } s t) ∧
        Counted (depBase + Ctr.DEP_ABORT_CNT) 1 s t ∧ SameBut [.regs, .jobs, .dep, .adits, .counters] s t) ∧
      (bad = false ∨ ¬ Translates s →
        (worksOn s u k.val i = false → ∃ t o, go t ∧ (getAdit t u).op = some o ∧ o.counter = k.val ∧ o.group = i ∧
          o.elem = c.task.elem ∧ o.rows = (ctxLens c).1 ∧ o.isOpen = true ∧ (getAdit t u).finished = (getAdit s u).finished ∧
          (∀ v, v ≠ u → getAdit t v = getAdit s v) ∧ SameBut [.regs, .adits, .chans] s t) ∧
        (worksOn s u k.val i = true → aditWaits s u = true → go s) ∧
        (worksOn s u k.val i = true → aditWaits s u = false → ∀ x d, aditGroup s c us = some x → ctxDesc s c 2 = some d →
          (x.residueOk = true → ∃ t z, go t ∧ SameBut [.freeCount, .regs, .adits] s z ∧
            t.mem = (applyWrites z (groupWrites s c d x.tile).1).mem ∧
            (getAdit t u).readRest = ((getAdit s u).readRest + groupBytes s c) % 4096 ∧
            (getAdit t u).prodRest = ((getAdit s u).prodRest + groupProducts s c) % 1024 ∧
            (∃ e, (getAdit t u).finished = (getAdit s u).finished ++ [e] ∧ e.counter = k.val ∧ e.index = i) ∧
            (∀ v, v ≠ u → getAdit t v = getAdit s v)) ∧
          (x.residueOk = false → let b := aditRegBase u
            let times := addEvent s (tget s.dep.residues [] (aditKey u))
            ∃ t, go t ∧ t.mem = s.mem ∧
              (times.length < 3 → t.dep.residues = tset s.dep.residues [] (aditKey u) times ∧
                Counted (b + Ctr.ADIT_RESIDUE_CNT) 1 s t ∧ BitSet (b + Flag.adit_RESIDUE_FAIL.1) Flag.adit_RESIDUE_FAIL.2 t ∧
                worksOn t u k.val i = true ∧ SameBut [.freeCount, .regs, .dep, .adits, .chans] s t) ∧
              (3 ≤ times.length → aditKey u ∈ t.dep.fences.adits))))))) ∧
  (∀ (s : State) (c : TaskCtx) (d : Desc) (v : VatTile), isBlock d.format = false →
    ∀ a bs, (a, bs) ∈ (groupWrites s c d v).1 ↔ ∃ m n, m < 64 ∧ n < 64 ∧ m < (ctxLens c).1 ∧ m ∉ c.run.maskM ∧
      m < extentHere s c.image d 1 ∧ 64 * c.task.colTile + n < extentHere s c.image d 0 ∧
      64 * c.task.colTile + n < (ctxLens c).2.2 ∧ 64 * c.task.colTile + n ∉ c.run.maskN ∧
      a = unitAddr d [64 * c.task.colTile + n, m] ∧
      bs = leBytes (unitBytes d.format) (cvtScalar d.format (nodeMods c.node) (vatEntryVal v (64 * m + n))).1) ∧
  (∀ (s : State) (g : Fin 256) (node : Nat), let st := getStage s g.val node
    let auto := ∃ i n, (getGraphSlot s g.val).live = some i ∧ i.nodes[node]? = some n ∧ nodePath n = 0 ∧
      s.pwr.config.aditAdapt = true
    let beats (adit : Bool) (m : Nat) := ∃ x y, meanCost st adit m = some x ∧ meanCost st (!adit) m = some y ∧ 100 * x < 95 * y
    let lower := 0 < st.threshold ∧ beats false st.threshold
    let raised := st.threshold < 8 ∧ beats true (st.threshold + 1)
    let goes (n : Nat) := ∃ t, exec (.aditProbe g node) s = .next t ∧ getStage t g.val node = { st with threshold := n } ∧
      (∀ k j, (k, j) ≠ (g.val, node) → j < 65536 → node < 65536 → getStage t k j = getStage s k j) ∧ SameBut [.stages] s t
    (auto → (lower → goes (st.threshold - 1)) ∧ (¬ lower → raised → goes (st.threshold + 1)) ∧
      (¬ lower → ¬ raised → goes st.threshold)) ∧
    (¬ auto → exec (.aditProbe g node) s = .next s))

/-- The assay vector of a trimmed vector: for three planes or more each element is its top two planes, floor of the element
over 2^(q-2), which lies in -2 to 1, at an exponent higher by q - 2; a vector of one or two planes goes unchanged. What is
discarded is never negative and less than 2^(q-2) (R145). ASSAY_PASS streams the vectors of an array's assay charge, one
scheduled after another, the tally vector last, and changes nothing of what no charge's vector changes; without an assay
charge it does nothing. ASSAY_BOUND of a closed assay tile masks in the full pass the rows whose outputs are all inactive,
every 4,096th of them an audit where the product is not split (log entry 117); ASSAY_AUDIT of an audited row checks each
output of the full tile against its bounds, and a failure counts, switches the pass off for the stage's run and aborts the
task; ASSAY_SUMS_RECOMPUTE computes a stale table, or one whose CRC32C fails, again (R145 to R151). -/
def Obligations.AssayPass : Prop :=
  (∀ v : Vector64, let q := v.planes
    (q ≤ 2 → assayVector v = v) ∧
    (3 ≤ q → (∀ e ∈ v.elems, -(2 : Int) ^ (q - 1) ≤ e ∧ e < (2 : Int) ^ (q - 1)) →
      (assayVector v).planes = 2 ∧ (assayVector v).upper.beff = v.upper.beff + (q - 2 : Nat) ∧
      (assayVector v).lower.beff = v.lower.beff + (q - 2 : Nat) ∧ (assayVector v).elems.length = v.elems.length ∧
      ∀ (i : Nat) (e : Int), v.elems[i]? = some e → ∃ x : Int, (assayVector v).elems[i]? = some x ∧ -2 ≤ x ∧ x ≤ 1 ∧
        0 ≤ e - 2 ^ (q - 2) * x ∧ e - 2 ^ (q - 2) * x < 2 ^ (q - 2))) ∧
  ((∀ (s : State) (a : ArrayId) (record : Nat),
    ((∀ ch, (getArray s a).charge = some ch → ch.assay = false) → exec (.assayPass a record) s = .next s) ∧
    (∀ ch c, (getArray s a).charge = some ch → ch.assay = true → taskCtx s ⟨a.core, ch.slot⟩ = some c →
      ∃ t, exec (.assayPass a record) s = .next t ∧
        (∃ l : List Nat, t = l.foldl (fun z r => scheduleVector z a r) s ∧ 1 ≤ l.length ∧ l.length ≤ 4 * ch.rows.length + 1 ∧
          ∀ i r, l[i]? = some r → r = record + i * recordStride s c) ∧
        (∀ b, b ≠ a → getArray t b = getArray s b) ∧ SameBut [.mem, .regs, .arrays, .cores] s t)) ∧
  (∀ (s : State) (u : SlotId) (rt ct : Nat),
    ((∀ c v t, ¬ AssayReady s u rt ct c v t) → exec (.assayBound u rt ct) s = .next s) ∧
    (∀ c v t, AssayReady s u rt ct c v t →
      let masked := assayMasked s c v t
      let key := 65536 * c.job + c.stage
      let before := tget (getCore s u.core).audits 0 key
      let whole := (ctxCut s c).2.1 = 1 ∧ (ctxCut s c).2.2 = 1
      ∃ z, exec (.assayBound u rt ct) s = .next z ∧ maskedRows (getSlot z u) v.rowTile v.colTile = some masked ∧
        (∀ m, (v.rowTile, v.colTile, m) ∈ (getSlot z u).auditRows ↔ (v.rowTile, v.colTile, m) ∈ (getSlot s u).auditRows ∨
          (whole ∧ ∃ i, masked[i]? = some m ∧ (before + i + 1) % 4096 = 0)) ∧
        tget (getCore z u.core).audits 0 key = before + masked.length ∧
        Counted (assayRegBase u.core + Ctr.ASSAY_TILE_CNT) 1 s z ∧
        Counted (assayRegBase u.core + Ctr.ASSAY_ROW_SKIP_CNT) masked.length s z ∧
        SameBut [.regs, .jobs, .cores] s z)) ∧
  (∀ (s : State) (u : SlotId) (rt ct : Nat) (m : Fin 64),
    ((∀ c v f t, ¬ AuditDue s u rt ct m.val c v f t) → exec (.assayAudit u rt ct m) s = .next s) ∧
    (∀ c v f t, AuditDue s u rt ct m.val c v f t → let y := auditTaken s u rt ct m.val
      (WithinBounds s c v f t m.val → ∃ z, exec (.assayAudit u rt ct m) s = .next z ∧
        TileGone u.core v.base (∀ e ∈ (getSlot y u).auditRows, ¬ (e.1 = v.rowTile ∧ e.2.1 = v.colTile)) y z ∧
        RegsAs y z ∧ SameBut [.regs, .cores] s z) ∧
      (¬ WithinBounds s c v f t m.val → ∃ z, exec (.assayAudit u rt ct m) s = .next z ∧
        Counted (assayRegBase u.core + Ctr.ASSAY_AUDIT_FAIL_CNT) 1 y z ∧
        (∃ j, getJob z c.job = some j ∧ (runOf j c.stage).auditOff = true) ∧ Aborted u s z))) ∧
  (∀ (s : State) (c : CoreId) (table : Addr),
    ((∀ t ∈ s.assays, t.addr ≠ table) → exec (.assaySumsRecompute c table) s = .next s) ∧
    (∀ t, (s.assays.find? fun t => t.addr == table) = some t →
      (t.stale = false → assayCrcBad s t = false → exec (.assaySumsRecompute c table) s = .next s) ∧
      (t.stale = true ∨ assayCrcBad s t = true →
        ∃ u x, exec (.assaySumsRecompute c table) s = .next u ∧ x ∈ u.assays ∧ x.addr = table ∧ x.slices = t.slices ∧
          x.stale = false ∧ x.segs = t.segs ∧ x.cols = t.cols ∧
          RegsAs (raise s (assayRegBase c) Flag.assay_STALE_SUMS) u ∧ SameBut [.mem, .regs, .voids, .dep, .cores, .assays] s u))))

/-- HOIST_COMMAND: a queue whose hoist is clocked, and whose owner holds its slot with a command at work in the fabric, cuts
the command into segments behind those it holds, all of the command's dependences and enqueue time and of its dry time,
which on a PORT_RX queue is 4 µs after the command comes; a PORT_RX queue takes only the descriptor that it holds first,
and a TRAM_FEED queue none. The segments carry every byte of the transfer in order, and the source bytes of each lie
within one 4 KiB range (R159, R214, R215, R217, R220, R319). COPY, HOIST_GATHER and HOIST_SCATTER become commands of their
queue. A copy moves each storage unit of the destination from the source unit that the permutation names; slice `i` of a
gather is the source's slice `xs[i]`, or fill where that index is out of bounds; a scatter writes its slices in the order
of the index stream and drops those out of bounds; a slice of a sharded tensor that another module holds is not moved here
(log entry 131). A unit that the source does not have lands as open bytes. Every index out of bounds counts once. Moves
that continue one another are joined, but for padded units, which moves the same bytes; moves of one operation, or of one
slice of a scatter, that write the same bytes land in an order that nothing fixes (R17, R188, R190, R193, R196, R197,
R199). -/
def Obligations.HoistQueues : Prop :=
  ((∀ (s : State) (q : QueueId) (cmd : HoistCmd),
    (¬ QueueTakes s q ∨ FeedsTram q → exec (.hoistCommand q cmd) s = .next s) ∧
    (QueueTakes s q → q.queue.val ≠ 16 →
      ∃ t, exec (.hoistCommand q cmd) s = .next t ∧ Queued q cmd .memory s t ∧ SameBut [.hoists] s t) ∧
    (QueueTakes s q → ReceivesPort q → (getQueue s q).local_.head? ≠ some cmd → exec (.hoistCommand q cmd) s = .next s) ∧
    (QueueTakes s q → ReceivesPort q → ∀ rest, (getQueue s q).local_ = cmd :: rest →
      ∃ t, exec (.hoistCommand q cmd) s = .next t ∧
        Queued q cmd .memory (setQueue s q { getQueue s q with local_ := rest }) t ∧ SameBut [.hoists] s t)) ∧
  (∀ (q : QueueId) (next : Nat) (now : Time) (cmd : HoistCmd), let segs := makeSegments q next now cmd .memory
    (∀ (i : Nat) (g : Segment), segs[i]? = some g → g.id = next + i ∧ g.cmd = next ∧ g.deps = cmd.deps ∧ g.slow = cmd.slow ∧
      g.enqueued = now ∧ (¬ ReceivesPort q → g.dry = cmd.dry) ∧ (ReceivesPort q → g.dry = some (now + 4000)) ∧
      InOneRange (g.runs.map (·.run))) ∧
    movedBytes ((segs.flatMap (·.runs)).map (·.run)) = movedBytes cmd.runs)) ∧
  ((∀ (s : State) (q : QueueId) (src dst : Nat) (perm : List Nat) (dry : Option Time) (a b : Desc),
    descAt s src = some a → descAt s dst = some b → let p := if perm = [] then List.range a.rank else perm
    let moves := copyMoves s q a b p
    (¬ QueueTakes s q ∨ FeedsTram q → exec (.copy q src dst perm dry) s = .next s) ∧
    (QueueTakes s q → ¬ FeedsTram q → ∃ ms z, ms.Perm moves ∧ (¬ Clash moves → ms = moves) ∧ SameBut [.freeCount] s z ∧
      GivesCommand (.copy q src dst perm dry) q { runs := joinRuns ms, dry := dry, deps := [], slow := slowPerm a p } s z)) ∧
  (∀ (s : State) (q : QueueId) (a b : Desc) (perm : List Nat),
    (∀ m ∈ copyMoves s q a b perm, ∃ v, WithinUnits s q b v ∧ MovesUnit s q a b (permuted perm v) v m) ∧
    (∀ v : List Nat, v.length = 5 → WithinUnits s q b v →
      ∃ m ∈ copyMoves s q a b perm, MovesUnit s q a b (permuted perm v) v m)) ∧
  (∀ (s : State) (q : QueueId) (src idx dst dim : Nat) (dry : Option Time) (a ix b : Desc),
    IndexedTensors s src idx dst a ix b → let xs := (indexStream s q ix).take ((unitsHere s q b).getD dim 1)
    let runs := (gatherMoves s q a b xs dim).flatMap joinRuns
    (¬ QueueTakes s q ∨ FeedsTram q → exec (.hoistGather q src idx dst dim dry) s = .next s) ∧
    (QueueTakes s q → ¬ FeedsTram q → ∃ ms z, ms.Perm runs ∧ (¬ Clash runs → ms = runs) ∧ SameBut [.freeCount] s z ∧
      GivesCommand (.hoistGather q src idx dst dim dry) q { runs := ms, dry := dry, deps := [], slow := false } s
        (countOob z q (oobOf xs (extentOf a dim)))) ∧
    (∀ (i : Nat) (x : Int) (l : List MoveRun), xs[i]? = some x → (gatherMoves s q a b xs dim)[i]? = some l → ∀ m ∈ l,
      ∃ v : List Nat, (dim < 5 → v.getD dim 0 = i) ∧
        (IndexWithin a dim x → ∃ lx, localIndex s q a dim x.toNat = some lx ∧ MovesUnit s q a b (v.set dim lx) v m) ∧
        (¬ IndexWithin a dim x → m.fill = some ((fillUnit a).take (descUnit b)) ∧ m.dst = unitAt b v ∧
          m.len = descUnit b ∧ m.pad = padAt s q b v))) ∧
  (∀ (s : State) (q : QueueId) (src idx dst dim : Nat) (dry : Option Time) (a ix b : Desc),
    IndexedTensors s src idx dst a ix b → let xs := (indexStream s q ix).take ((unitsHere s q a).getD dim 1)
    let slices := scatterMoves s q a b xs dim
    (¬ QueueTakes s q ∨ FeedsTram q → exec (.hoistScatter q src idx dst dim dry) s = .next s) ∧
    (QueueTakes s q → ¬ FeedsTram q → ∃ (ls : List (List MoveRun)) (z : State), ls.length = slices.length ∧
      (∀ (i : Nat) (x y : List MoveRun), slices[i]? = some x → ls[i]? = some y → y.Perm (joinRuns x) ∧ (¬ Clash (joinRuns x) → y = joinRuns x)) ∧
      SameBut [.freeCount] s z ∧
      GivesCommand (.hoistScatter q src idx dst dim dry) q { runs := ls.flatten, dry := dry, deps := [], slow := false } s
        (countOob z q (oobOf xs (extentOf b dim)))) ∧
    (∀ l ∈ slices, ∃ (i : Nat) (x : Int) (lx : Nat), xs[i]? = some x ∧ IndexWithin b dim x ∧
      localIndex s q b dim x.toNat = some lx ∧
      ∀ m ∈ l, ∃ v : List Nat, (dim < 5 → v.getD dim 0 = lx) ∧ MovesUnit s q a b (v.set dim i) v m)) ∧
  (∀ (s : State) (q : QueueId) (d : Desc) (k i : Nat), let sh := d.shard.getD k {}
    let own := gridCoord (queueGrid s q) (moduleNum s) sh.axis
    let part := (extentOf d k + sh.n - 1) / sh.n
    (d.sharded = false ∨ (sh.kind ≠ 1 ∧ sh.kind ≠ 2) → localIndex s q d k i = some i) ∧
    (d.sharded = true → sh.kind = 1 → localIndex s q d k i = if i / part = own then some (i % part) else none) ∧
    (d.sharded = true → sh.kind = 2 → localIndex s q d k i =
      if i / sh.c % sh.n = own then some (i / (sh.c * sh.n) * sh.c + i % sh.c) else none)) ∧
  (∀ (s : State) (q : QueueId) (n : Nat), let b := hoistRegBase q.seam q.hoist
    0 < n → Counted (b + Ctr.HOIST_IDX_OOB_CNT) n s (countOob s q n) ∧
      rawReg (countOob s q n) (b + Flag.hoist_IDX_OOB.1) =
        rawReg s (b + Flag.hoist_IDX_OOB.1) ||| BitVec.ofNat 32 (2 ^ Flag.hoist_IDX_OOB.2) ∧
      SameBut [.regs, .cores] s (countOob s q n)) ∧
  (∀ ms : List MoveRun, (FillsWhole ms → movedBytes (joinRuns ms) = movedBytes ms) ∧
    ∀ r ∈ joinRuns ms, r.pad ≠ none → r ∈ ms))

/-- SEGMENT_ISSUE: of its queues that may issue, a hoist takes the one whose head segment carries the earliest dry time, and
issues that segment, where its domains are clocked and its addresses translate; it issues one segment at most, and
otherwise nothing. What the segment reads from DRAM is asked of the channels. A failing translation is counted and
latched, halts the queue, and aborts the task whose queue it is (R209, R213 to R218, R221, R319). SEGMENT_COMPLETE: an
issued segment whose reads have come and whose writes to DRAM have gone to their controllers completes, once no earlier
segment of its command that writes the same bytes is on its way: what goes to scratch or a vat lands where its runs say,
it is no longer outstanding, and the bytes and the segment are counted. A poisoned segment that writes DRAM or another
seam, or is accumulated, aborts its task (R193, R204, R215, R222, R224). DESCRIPTOR_BATCH_FETCH, DOORBELL and
DESCRIPTOR_REFETCH_TIMEOUT: a ring queue with 16 local places free keeps the leading valid descriptors of one aligned
batch of 16, which begins with the entry that holds its next descriptor, asks for its 1,024 B and counts it; no other
queue fetches (R220). -/
def Obligations.HoistSegments : Prop :=
  (∀ (s : State) (seam : Fin 16) (h : Fin 8) (l : List Addr),
    (isLiveDom s (.seam seam .fclk) = false → exec (.segmentIssue seam h l) s = .next s) ∧
    ((∀ n g, ¬ MayIssueSegment s ⟨seam, h, n⟩ g) → exec (.segmentIssue seam h l) s = .next s) ∧
    (∀ n g, isLiveDom s (.seam seam .fclk) = true → Issues s seam h n g → let q : QueueId := ⟨seam, h, n⟩
      let b := hoistRegBase seam h
      ((∃ r ∈ g.runs, runLive s g r.run = false) → exec (.segmentIssue seam h l) s = .next s) ∧
      ((∀ r ∈ g.runs, runLive s g r.run = true) → badAddress s g l = none → (∀ r ∈ g.runs, sourcePoison s r = []) →
        ∃ t, exec (.segmentIssue seam h l) s = .next t ∧ (getQueue t q).ready = (getQueue s q).ready.tail ∧
          (getQueue t q).issued.map plainSegment = (getQueue s q).issued.map plainSegment ++ [plainSegment g] ∧
          (∀ p, p ≠ q → getQueue t p = getQueue s p) ∧
          (∀ c, ∃ l, (getChan t c).queue = (getChan s c).queue ++ l) ∧
          (∀ r ∈ segmentReads s q { g with runs := g.runs.map (fetchRun s) }, chanLive s r.1 = true →
            r.2 ∈ (getChan t r.1).queue) ∧
          RegsAs (count s b Ctr.HOIST_SMALL_CNT g.small) t ∧ SameBut [.regs, .hoists, .chans] s t) ∧
      (∀ a, (∀ r ∈ g.runs, runLive s g r.run = true) → badAddress s g l = some a →
        (∀ u, queueSlot q = some u → exec (.segmentIssue seam h l) s = exec (.taskAbort u) (faultNoted s q a)) ∧
        (n.val = 16 → exec (.segmentIssue seam h l) s = .next (faultNoted s q a)) ∧
        (n.val = 17 → exec (.segmentIssue seam h l) s = .next (reportFault (faultNoted s q a) (.translation q)))))) ∧
  ((∀ (s : State) (q : QueueId) (id : Nat) (poisoned : Bool),
    ((∀ g ∈ (getQueue s q).issued, g.id ≠ id) → exec (.segmentComplete q id poisoned) s = .next s) ∧
    (∀ g, (getQueue s q).issued.find? (·.id == id) = some g →
      (¬ MayLand s q g → exec (.segmentComplete q id poisoned) s = .next s) ∧
      (MayLand s q g →
        let z := landSegment (setQueue s q { getQueue s q with issued := (getQueue s q).issued.filter (·.id != id) }) q g poisoned
        let y := landedNoted z q (g.runs.map (·.run.len)).sum g.slow
        let taken := g.write = true ∨ isAdd g = true
        (poisoned = false → isAdd g = false → exec (.segmentComplete q id poisoned) s = .next y) ∧
        (poisoned = true → (¬ taken ∨ queueSlot q = none) → exec (.segmentComplete q id poisoned) s = .next y) ∧
        (poisoned = true → taken → ∀ u, queueSlot q = some u →
          exec (.segmentComplete q id poisoned) s = exec (.taskAbort u) y)))) ∧
  (∀ (s : State) (g : Segment) (r : RunMove) (bs : List Byte), r.data = some bs → bs ≠ [] → r.bad = [] → r.run.pad = none →
    (toDram g r = true → landRun g false s r = s) ∧
    (toDram g r = false → landRun g false s r = writeModule s r.run.dst bs)) ∧
  (∀ (s : State) (r : RunMove), (∀ bs, r.run.fill = some bs → (fetchRun s r).data = some (bs.take r.run.len)) ∧
    (r.run.fill = none → InDram r.run.src → touchesVoid s r.run.src r.run.len = false → fetchRun s r = r) ∧
    (∀ c off, r.run.fill = none → placeOf r.run.src = .scratch c off →
      (fetchRun s r).data = some (takeWindow s c off r.run.len))) ∧
  (∀ (s : State) (q : QueueId) (n : Nat) (slow : Bool), let b := hoistRegBase q.seam q.hoist
    Counted (b + Ctr.HOIST_BYTES_CNT) (((getQueue s q).landed + n) / 4096) s (landedNoted s q n slow) ∧
    Counted (b + Ctr.HOIST_SEG_CNT) 1 s (landedNoted s q n slow) ∧
    Counted (b + Ctr.HOIST_SLOW_CNT) (if slow then ((getQueue s q).slow + n) / 4096 else 0) s (landedNoted s q n slow) ∧
    QueueIs q { getQueue s q with
      landed := ((getQueue s q).landed + n) % 4096
      slow := if slow then ((getQueue s q).slow + n) % 4096 else (getQueue s q).slow } s (landedNoted s q n slow) ∧
    SameBut [.regs, .hoists, .cores] s (landedNoted s q n slow))) ∧
  (∀ (s : State) (q : QueueId) (cmds : List HoistCmd), ∀ i ∈ [Instr.descriptorBatchFetch q cmds, .doorbell q cmds, .descriptorRefetchTimeout q cmds],
    let x := getQueue s q
    let got := cmds.take (16 - x.ring % 16)
    let may := q.queue.val = 16 ∧ x.local_.length ≤ 16 ∧ isLiveDom s (.seam q.seam .fclk) = true
    (¬ may → exec i s = .next s) ∧
    (may → ∃ t, exec i s = .next t ∧
      QueueIs q { x with
        local_ := x.local_ ++ got
        ring := (x.ring + got.length) % 256 } s t ∧
      (∀ c, ∃ l, (getChan t c).queue = (getChan s c).queue ++ l ∧ ∀ r ∈ l, r.origin = .ring q ∧ r.write = none) ∧
      RegsAs (count s (hoistRegBase q.seam q.hoist) Ctr.HOIST_BATCH_CNT 1) t ∧ SameBut [.regs, .hoists, .chans] s t))

/-- HOIST_SCATTER_ADD enters a task's queue behind the commands that it holds, and its indices out of bounds count. When the
last segment of the command completes, the task's accumulation buffer takes the contributions of its part of the index
stream in stream order: an element's first contribution as it is, later ones added in FP32 and rounded to nearest even;
other elements keep their entries. The destination is not written, and no other task's buffer changes (R190, R194, R214).
SCATTER_ADD_COMMIT: once every lower task of the scatter has committed, a task's image is formed, in address order, each
new value being the destination's value plus the entry, rounded in FP32 and converted to the destination's format; the
next piece's commit record enters the lot ring, where it has room, and its journal write starts; with every piece recorded
the task's own mark is written. The destination is not written before the record is in the journal (R194, R195, R345,
R347, R349). -/
def Obligations.ScatterAdds : Prop :=
  ((∀ (s : State) (q : QueueId) (o : AddOp) (a ix b : Desc),
    IndexedTensors s o.src o.idx o.dst a ix b → let buf := bufferOf s o.job o.node o.task b.format
    let i := Instr.hoistScatterAdd q o.job o.node o.task o.src o.idx o.dst o.dim o.first o.count
    (¬ MayAccumulate s q a b buf → exec i s = .next s) ∧
    (MayAccumulate s q a b buf → let xs := streamPart s q a ix o
      ∃ t, exec i s = .next t ∧ findScatter t o.job o.node o.task = some buf ∧
        (∀ j n k, (j, n, k) ≠ (o.job, o.node, o.task) → findScatter t j n k = findScatter s j n k) ∧
        Queued q { runs := addRuns s q a b xs o.dim, dry := none, deps := [], slow := false } (.accumulation o) s t ∧
        Counted (hoistRegBase q.seam q.hoist + Ctr.HOIST_IDX_OOB_CNT) (oobOf (xs.map (·.2)) (extentOf b o.dim)) s t ∧
        SameBut [.regs, .cores, .hoists, .scatters] s t)) ∧
  (∀ (s : State) (q : QueueId) (id : Nat) (g : Segment) (o : AddOp) (a ix b : Desc),
    IndexedTensors s o.src o.idx o.dst a ix b → (getQueue s q).issued.find? (·.id == id) = some g →
    g.sink = .accumulation o → MayLand s q g →
    (∀ h ∈ (getQueue s q).ready, h.cmd ≠ g.cmd) → (∀ h ∈ (getQueue s q).issued, h.cmd = g.cmd → h.id = id) →
    let buf := bufferOf s o.job o.node o.task b.format
    ∃ t, exec (.segmentComplete q id false) s = .next t ∧ t.mem = s.mem ∧
      findScatter t o.job o.node o.task = some { buf with
        entries := (contributions s q a b o.dim (streamPart s q a ix o)).foldl
          (fun l c => addEntry l c.1 c.2.1 c.2.2) buf.entries } ∧
      (∀ j n k, (j, n, k) ≠ (o.job, o.node, o.task) → findScatter t j n k = findScatter s j n k)) ∧
  (∀ (l : List Contribution) (k : Nat × List Nat) (a : Addr) (v : Word),
    entryOf (addEntry l k a v) k = some (match entryOf l k with | none => v | some w => fp32Sum w v) ∧
    ∀ j, j ≠ k → entryOf (addEntry l k a v) j = entryOf l j)) ∧
  ((∀ (s : State) (job node task : Nat), let i := Instr.scatterAddCommit job node task
    ((∀ b, ¬ MayCommit s job node task b) → exec i s = .next s) ∧
    (∀ b, MayCommit s job node task b →
      (pieceCount b ≤ b.recorded → exec i s = .next (commitWrite s job node task (2 * pieceCount b) b.format [])) ∧
      (b.recorded < pieceCount b → ∃ t, exec i s = .next t ∧ t.mem = s.mem ∧
        findScatter t job node task = some (formImage s b).1 ∧
        let bytes := pieceBytes ((formImage s b).1.image.take pieceEntries)
        let n := granulesOf bytes.length
        (lotRingSize s < lotUsed s + n → t.jnl = s.jnl ∧ SameBut [.jobs, .scatters] s t) ∧
        (lotUsed s + n ≤ lotRingSize s → ∃ r, t.jnl.lotRing = s.jnl.lotRing ++ [r] ∧ r.bytes = bytes ∧ r.granules = n ∧
          r.piece = some (job, node, task, b.recorded) ∧
          (∃ w, t.jnl.pendingWrites = s.jnl.pendingWrites ++ [w] ∧ w.use = .piece job node task (2 * b.recorded)) ∧
          SameBut [.jobs, .lotRing, .jnl, .txQueue, .outs, .scatters] s t)))) ∧
  (∀ (s : State) (b : ScatterBuffer), b.image = [] → (formImage s b).1.image =
    (((b.entries.map (·.2)).foldr insertEntry []).drop (b.recorded * pieceEntries)).map fun e =>
      let old := elemVal b.format (leNat (readModule s e.1 (unitBytes b.format)))
      let sum := encodeF fp32 .rne (addF .rne old (decodeF fp32 e.2.toNat))
      (e.1, (cvtScalar b.format { rtz := false, inf := false, ocp := false } (decodeF fp32 sum)).1)))

/-- DRAM_SLOT: a channel in service gives its slot to one of the requests that wait there: of a class that has slots of its
share left in the window of 160, where any waiting class has, else of one that has had the least of its share; of the
class the one with the earliest dry time, but that an open row goes first within 1 µs of it, and then arrival; none
overtakes an earlier one that touches a word of its own. With its last slot a read is delivered and a write is in DRAM,
and the check bytes of the words that it read are looked at. With nothing waiting the slot is idle. A request costs a slot
for each 512 B block that it touches, an activation slot for each granule of a run shorter than 4,096 B, and a slot for
each partial 64 B word of a write (R204, R206, R207, R210, R211). SCRUB asks for the channel's next word as a read of the
lowest rank, and REFRESH moves to the channel's next bank and closes its row; a word read with up to 3 bad symbols is
corrected and counted, one with more is counted and reported as uncorrectable. A channel out of service does nothing
(R204, R205). LINK_WORD: of the classes that wait at a link that is up, the next one's word crosses, in round-robin order;
it is counted as busy at the sending end, and an error that its check bits show at the receiving end, which is the
neighbouring seam's, or the seam's own for a hub link; a link that is down carries nothing (R224, R243). -/
def Obligations.DramAndLinks : Prop :=
  ((∀ (s : State) (c : ChanId) (l : List (Nat × Nat)), ¬ ChanServes s c →
    exec (.dramSlot c l) s = .next s ∧ exec (.scrub c) s = .next s ∧ exec (.refresh c) s = .next s) ∧
  (∀ (s : State) (c : ChanId) (l : List (Nat × Nat)), ChanServes s c → (getChan s c).queue = [] →
    ∃ t, exec (.dramSlot c l) s = .next t ∧
      ChanIs c (useSlot { getChan s c with fixes := (getChan s c).fixes.drop 1 } none) s t ∧
      RegsAs (count s (dramRegBase c.seam.val) Ctr.DRAM_IDLE_SLOT_CNT 1) t ∧ SameBut [.freeCount, .regs, .chans] s t) ∧
  (∀ (s : State) (c : ChanId) (l : List (Nat × Nat)), ChanServes s c → (getChan s c).queue ≠ [] →
    ∃ i r z, Served (getChan s c) i r ∧ ChanIs c (slotUsed (getChan s c) i r) s z ∧ RegsAs (slotNoted s c r) z ∧
      SameBut [.freeCount, .regs, .chans] s z ∧ exec (.dramSlot c l) s = .next (if 1 < r.left then z else
        let errs := errorsIn r l
        errs.foldl (checkWord c) (finishRequest z c r (errs.filter fun e => decide (3 < e.2))))) ∧
  (∀ (s : State) (c : ChanId) (r : ChanRequest) (q : QueueId) (id i : Nat), r.origin = .hoist q id i →
    (∀ v ∈ s.dep.voids, v.home = none) → let a := seamDram c.seam.val + r.offset
    (∀ bs, r.write = some bs → InDram a → loadBytes (finishRequest s c r []).mem a bs.length = bs ∧
      BytesBut a bs.length s (finishRequest s c r []) ∧ SameBut [.mem, .voids, .dep, .cores, .assays] s (finishRequest s c r [])) ∧
    (∀ g m, r.write = none → (getQueue s q).issued.find? (·.id == id) = some g → g.runs[i]? = some m →
      ∃ k n, (getQueue (finishRequest s c r []) q).issued.find? (·.id == id) = some k ∧ plainSegment k = plainSegment g ∧
        k.runs[i]? = some n ∧ n.data = some (loadBytes s.mem a r.bytes) ∧
        SameBut [.hoists, .chans] s (finishRequest s c r []))) ∧
  (∀ (cls : DramClass) (dry : Time) (o : ReqOrigin) (a : Addr) (n at_ whole : Nat) (w : Option (List Byte)), 0 < n →
    let r := mkRequest cls dry o a n at_ whole w
    (at_ = 0 → r.left = ((r.offset + n - 1) / 512 + 1 - r.offset / 512) + r.act + r.rmw) ∧
    r.act = (if whole < 4096 ∧ (at_ = 0 ∨ r.offset % 4096 = 0) then 1 else 0) ∧ (w = none → r.rmw = 0) ∧
    (r.offset % 64 = 0 → (r.offset + n) % 64 = 0 → r.rmw = 0) ∧ r.rmw ≤ 2) ∧
  (∀ (s : State) (c : ChanId), ChanServes s c → ∃ t r, exec (.scrub c) s = .next t ∧ r.cls = .read ∧ r.bytes = 64 ∧
    r.write = none ∧ r.origin = .scrub ∧ chanOf r.offset = c.chan.val ∧
    ChanIs c { getChan s c with
      queue := (getChan s c).queue ++ [r]
      scrubbed := ((getChan s c).scrubbed + 1) % 0xC00000 } s t ∧ SameBut [.chans] s t) ∧
  (∀ (s : State) (c : ChanId), ChanServes s c → ∃ t, exec (.refresh c) s = .next t ∧
    ChanIs c { getChan s c with
      refreshes := ((getChan s c).refreshes + 1) % 32
      openRows := tset (getChan s c).openRows none (getChan s c).refreshes none } s t ∧ SameBut [.chans] s t) ∧
  (∀ (s : State) (c : ChanId) (w bad : Nat), let b := dramRegBase c.seam.val
    (bad ≤ 3 → ChanIs c { getChan s c with fixes := (getChan s c).fixes ++ [w] } s (checkWord c s (w, bad)) ∧
      RegsAs (count (raise (count s b Ctr.DRAM_CE_CNT 1) b Flag.dram_CE) depBase Ctr.DEP_CORRECTED_CNT 1)
        (checkWord c s (w, bad)) ∧ SameBut [.regs, .chans] s (checkWord c s (w, bad))) ∧
    (4 ≤ bad → checkWord c s (w, bad) =
      reportFault (raise (count s b Ctr.DRAM_UE_CNT 1) b Flag.dram_UE) (.dramUe c (64 * w))))) ∧
  (∀ (s : State) (seam : Fin 16) (d : LinkDir) (l : List LinkClass), let b := linkRegBase seam d
    let f := linkRegBase (farEnd seam d).1 (farEnd seam d).2
    let k := 5 * seam.val + linkNum d
    (linkUp s seam d = false ∨ l = [] → ∀ e, exec (.linkWord seam d l e) s = .next s) ∧
    (linkUp s seam d = true → l ≠ [] → ∃ c ∈ l, (∀ w ∈ l, turnsTo (tget s.links {} k).last c ≤ turnsTo (tget s.links {} k).last w) ∧
      ∃ z, z.links = tset s.links {} k { tget s.links {} k with last := c } ∧ RegsAs (count s b Ctr.LINK_BUSY_CNT 1) z ∧
        SameBut [.regs, .links] s z ∧ exec (.linkWord seam d l .clean) s = .next z ∧
        exec (.linkWord seam d l .corrected) s = .next (count (count z f Ctr.LINK_CE_CNT 1) depBase Ctr.DEP_CORRECTED_CNT 1) ∧
        exec (.linkWord seam d l .uncorrectable) s = .next (count z f Ctr.LINK_UE_CNT 1)) ∧
    (∀ t e, neighbour seam.val d = some (t, e) → (farEnd seam d).1.val = t ∧ (farEnd seam d).2 = e ∧
      neighbour t e = some (seam.val, d)))

/-- PACKET_COMMIT at a core endpoint that a chute is loaded on and that is clocked. A sound packet within credit that fits the
FILLING bank is written there, answered with COMMIT and counted; with the 128th word or PUSH the bank closes. In the reject
state a packet without RESEND is dropped. Any other packet is rewound: no word of it is kept, the endpoint answers REWOUND and
enters the reject state, and the rewind counts; a rewound packet that carries RESEND aborts the producing task (R229, R230).
COMMIT_RECEIVED, REWOUND_RECEIVED and GRANT_RECEIVED at a core endpoint: the producer lets go of its oldest unanswered
packet; or takes its count back to what the endpoint has committed and resends with RESEND; or holds one grant more. An
answer or grant that is not on its way changes nothing. At a hub receive endpoint grants travel in ILT (R229, R230). -/
def Obligations.ChutePackets : Prop :=
  ((∀ (s : State) (c : CoreId) (k : Fin 8) (p : Packet), let ep : EndpointId := .core c k
    let e := getEp s ep
    let r := arrive e p false s.clk.now
    (epWorks s ep = false → exec (.packetCommit ep p) s = .next s) ∧
    (epWorks s ep = true → ∃ z, EpIs ep r.1 s z ∧ RegsAs (countArrival s ep p r.2) z ∧ SameBut [.regs, .chutes] s z ∧
      (r.2.rewound = false ∨ packetResend p = false → exec (.packetCommit ep p) s = .next z) ∧
      (r.2.rewound = true → packetResend p = true → exec (.packetCommit ep p) s = exec (.chuteReset ep) z))) ∧
  (∀ (e : Endpoint) (p : Packet) (now : Time), let n := packetLen p
    let r := arrive e p false now
    (e.reject = true → packetResend p = false → r.2 = {} ∧ r.1.bank0 = e.bank0 ∧ r.1.bank1 = e.bank1 ∧ r.1.answers = e.answers) ∧
    (e.reject = false ∨ packetResend p = true → SoundPacket p → inCredit e n = true → FitsBank e n →
      r.2.committed = true ∧ r.2.rewound = false ∧ r.1.answers = e.answers ++ [.commit] ∧ r.1.reject = false ∧
      ∀ one, bankIn e .filling = some one → (bankOf e one).words + n < 128 → packetPush p = false →
        bankOf r.1 one = { bankOf e one with
          words := (bankOf e one).words + n
          packets := (bankOf e one).packets ++ [p] } ∧ bankOf r.1 (!one) = bankOf e (!one)) ∧
    (e.reject = false ∨ packetResend p = true → ¬ (SoundPacket p ∧ inCredit e n = true) →
      r.2.committed = false ∧ r.2.rewound = true ∧ (r.2.overcredit = true ↔ inCredit e n = false) ∧ r.1.reject = true ∧
      r.1.answers = e.answers ++ [.rewound])) ∧
  (∀ (s : State) (ep : EndpointId) (p : Packet) (k : ArrivalCounts), let b := epRegBase ep
    Counted (b + Ctr.CH_PKT_CNT) (if k.committed then 1 else 0) s (countArrival s ep p k) ∧
    Counted (b + Ctr.CH_REWIND_CNT) (if k.rewound then 1 else 0) s (countArrival s ep p k) ∧
    Counted (b + Ctr.CH_OVERCREDIT_CNT) (if k.overcredit then 1 else 0) s (countArrival s ep p k) ∧
    Counted (b + Ctr.CH_ABANDON_CNT) k.abandoned s (countArrival s ep p k))) ∧
  (∀ (s : State) (ep : EndpointId), let e := getEp s ep
    (∀ rest, e.answers = .commit :: rest → ∃ t, exec (.commitReceived ep) s = .next t ∧
      EpIs ep { e with
        answers := rest
        unacked := e.unacked.tail } s t ∧ SameBut [.chutes] s t) ∧
    (∀ rest, e.answers = .rewound :: rest → ∃ t, exec (.rewoundReceived ep) s = .next t ∧
      EpIs ep (producerRollback { e with answers := rest }) s t ∧ SameBut [.chutes] s t) ∧
    (e.answers.head? ≠ some .commit → exec (.commitReceived ep) s = .next s) ∧
    (e.answers.head? ≠ some .rewound → exec (.rewoundReceived ep) s = .next s) ∧
    (isHub ep = false → e.grantsSent = 0 → exec (.grantReceived ep) s = .next s) ∧
    (isHub ep = false → 0 < e.grantsSent → ∃ t, exec (.grantReceived ep) s = .next t ∧
      EpIs ep { e with
        grantsSent := e.grantsSent - 1
        heldGrants := e.heldGrants + 1 } s t ∧ SameBut [.chutes] s t) ∧
    (∀ i, ep = .hub i → exec (.grantReceived ep) s = .next (issueGrants s i.val)) ∧
    (∀ f : Endpoint, let r := producerRollback f
      r.unacked = [] ∧ r.resend = true ∧ r.bank0 = f.bank0 ∧ r.bank1 = f.bank1 ∧
      (f.grantsSent ≤ emptyBanks f → (∀ one, bankIn f .filling = some one → r.room = 128 - (bankOf f one).words) ∧
        r.heldGrants + f.grantsSent = emptyBanks f)))

/-- CONSUMER_READ moves whole packets of the VISIBLE bank in commit order into its buffer, while the next one fits; with the
last packet the bank becomes EMPTY, a grant goes to the producer, and a CLOSED bank swaps in. A read at an endpoint that no
chute is loaded on, of a buffer the endpoint's consumer does not have, or with nothing to read, changes nothing; a poisoned
word aborts the consuming task (R231, R233).
CLOSE_MARK, FILL_TIMER_EXPIRY, TAIL_NOTICE, READ_TIMER_EXPIRY and CHUTE_RESET. A close mark closes a FILLING bank that holds
a packet, its free words counted as abandoned, and leaves an empty one alone; one that answers a tail notice counts so. The
fill timer's firing sends a tail notice, which the producer's port answers with a close mark. The read timer's firing moves
nothing: STALE is set and counted and the deputy records the endpoint. A reset returns both banks to EMPTY and the producer to
two grants, counts the words it drops, and aborts the tasks at the chute's ends. A timer that does not run does nothing (R229,
R232, R234, R330). -/
def Obligations.ChuteReads : Prop :=
  ((∀ (s : State) (ep : EndpointId) (a : Addr) (n : Nat) (poisoned : Bool), let r := readBank (getEp s ep) n s.clk.now
    (epWorks s ep = false ∨ bufferOk ep a n = false ∨ r.2 = [] → exec (.consumerRead ep a n poisoned) s = .next s) ∧
    (epWorks s ep = true → bufferOk ep a n = true → r.2 ≠ [] → let data := r.2.flatMap (·.data)
      let z := count (writeModule (setEp s ep r.1) a data) (epRegBase ep) Ctr.CH_WORD_CNT (r.2.map packetLen).sum
      let y := match ep with | .hub i => issueGrants z i.val | .core _ _ => z
      (poisoned = false → exec (.consumerRead ep a n poisoned) s = .next y) ∧
      (poisoned = true → exec (.consumerRead ep a n poisoned) s = .next (abortWork
        (raise (count (poisonAt y a data.length) (epRegBase ep) Ctr.CH_UE_CNT 1) (epRegBase ep) Flag.ch_UE)
        (consumersOf (raise (count (poisonAt y a data.length) (epRegBase ep) Ctr.CH_UE_CNT 1) (epRegBase ep) Flag.ch_UE) ep) [])))) ∧
  (∀ (e : Endpoint) (n : Nat) (now : Time), (bankIn e .visible = none → (readBank e n now).2 = []) ∧
    (∀ one, bankIn e .visible = some one → let r := readBank e n now
      ∃ left, (bankOf e one).packets = r.2 ++ left ∧ 64 * (r.2.map packetLen).sum ≤ n ∧
        (∀ q rest, left = q :: rest → n < 64 * (r.2.map packetLen).sum + 64 * packetLen q) ∧
        (r.2 ≠ [] → left = [] → r.1.grantsSent = e.grantsSent + 1) ∧
        (r.2 ≠ [] → left ≠ [] → r.1.grantsSent = e.grantsSent ∧ (bankOf r.1 one).state = (bankOf e one).state ∧
          (bankOf r.1 one).packets = left ∧ r.1.readTimer = some now)))) ∧
  (∀ (s : State) (ep : EndpointId), let e := getEp s ep
    let b := epRegBase ep
    (epWorks s ep = false → exec (.closeMark ep) s = .next s ∧ exec (.fillTimerExpiry ep) s = .next s ∧
      exec (.readTimerExpiry ep) s = .next s) ∧
    (epWorks s ep = true → (∀ one, bankIn e .filling = some one → (bankOf e one).words = 0) →
      ∃ t, exec (.closeMark ep) s = .next t ∧ EpIs ep { e with tailPending := false } s t ∧ SameBut [.chutes] s t) ∧
    (epWorks s ep = true → ∀ one, bankIn e .filling = some one → (bankOf e one).words ≠ 0 →
      ∃ t, exec (.closeMark ep) s = .next t ∧ EpIs ep { (closeBank { e with tailPending := false } s.clk.now).1 with room := 0 } s t ∧
        Counted (b + Ctr.CH_ABANDON_CNT) (128 - (bankOf e one).words) s t ∧
        Counted (b + Ctr.CH_TAIL_CNT) (if e.tailPending then 1 else 0) s t ∧ SameBut [.regs, .chutes] s t) ∧
    (∀ (f : Endpoint) (now : Time) (one : Bool), bankIn f .filling = some one → (bankOf f (!one)).state = .empty →
      bankOf (closeBank f now).1 one = { bankOf f one with state := .visible } ∧
      bankOf (closeBank f now).1 (!one) = { state := .filling } ∧ (closeBank f now).1.fillTimer = none ∧
      (closeBank f now).1.readTimer = some now) ∧
    (∀ (f : Endpoint) (now : Time) (one : Bool), bankIn f .filling = some one → (bankOf f (!one)).state = .visible →
      bankOf (closeBank f now).1 one = { bankOf f one with state := .closed } ∧
      bankOf (closeBank f now).1 (!one) = bankOf f (!one) ∧ (closeBank f now).1.fillTimer = none) ∧
    (epWorks s ep = true → e.fillTimer = none → exec (.fillTimerExpiry ep) s = .next s) ∧
    (epWorks s ep = true → e.fillTimer.isSome = true → isHub ep = false → ∃ t, exec (.fillTimerExpiry ep) s = .next t ∧
      EpIs ep { e with
        fillTimer := none
        notice := true } s t ∧ SameBut [.chutes] s t) ∧
    (epWorks s ep = true → e.fillTimer.isSome = true → ∀ i, ep = .hub i → ∃ t, exec (.fillTimerExpiry ep) s = .next t ∧
      EpIs ep { e with
        fillTimer := some s.clk.now
        tailPending := true } s t ∧ SameBut [.chutes, .txQueue, .sessions] s t) ∧
    (e.notice = false → exec (.tailNotice ep) s = .next s) ∧
    (e.notice = true → ∃ t, exec (.tailNotice ep) s = .next t ∧
      EpIs ep { e with
        notice := false
        tailPending := true } s t ∧ SameBut [.chutes] s t) ∧
    (epWorks s ep = true → e.readTimer = none → exec (.readTimerExpiry ep) s = .next s) ∧
    (epWorks s ep = true → e.readTimer.isSome = true → ∃ t, exec (.readTimerExpiry ep) s = .next t ∧
      EpIs ep { e with readTimer := none } s t ∧ Counted (b + Ctr.CH_STALE_CNT) 1 s t ∧
      RegsAs (setRawReg (raise (count (raise (count s b Ctr.CH_STALE_CNT 1) b Flag.ch_STALE) hubClkBase Ctr.DL_STALE_CNT 1)
        hubClkBase Flag.hubClk_STALE) (hubClkBase + 0x28) (staleWhere ep)) t ∧ SameBut [.regs, .chutes] s t) ∧
    (chutesAt s ep = [] → e.active = false → exec (.chuteReset ep) s = .next s) ∧
    (chutesAt s ep = [] → e.active = true → ∃ t, exec (.chuteReset ep) s = .next t ∧ EpIs ep (freshEndpoint e.tail e.producer) s t ∧
      Counted (b + Ctr.CH_RESET_DROP_CNT) (unreadWords e) s t ∧ SameBut [.regs, .chutes] s t) ∧
    (chutesAt s ep ≠ [] → exec (.chuteReset ep) s = .next (abortWork s [] (chutesAt s ep))))

/-- The tram's positions: every core has one of the 512, core numbers rise within a seam, and a position and the next lie in
one seam or in neighbouring seams of the 4 by 4 mesh (R236). -/
def Obligations.TramOrder : Prop :=
  (∀ c, tramPos c < 512 ∧ coreAtPos (tramPos c) = c) ∧
  (∀ z, z < 512 → tramPos (coreAtPos z) = z) ∧
  (∀ z, z < 511 → let a := (coreAtPos z).seam.val
    let b := (coreAtPos (z + 1)).seam.val
    a = b ∨ (a / 4 = b / 4 ∧ (a + 1 = b ∨ b + 1 = a)) ∨ a + 4 = b ∨ b + 4 = a)

/-- BROADCAST of the train of the descriptor that a TRAM_FEED queue holds first: the queue reads the payloads of its cars, and
the cars wait there; cars that make no train change nothing. Each car enters the hop stage of the core at the entry
position, in order, once its payload is whole (R220, R237, R238). CAR_HOP: the next car of a source is kept where its
position is named and the core keeps cars, its payload at the same scratch offset, and passed to the next position up to
its last. A car with an uncorrectable word goes on poisoned. A hop the stage cannot make changes nothing (R236, R237,
R239, R241, R242). TRAM_STALL: a hop stage whose ingress buffer of 32 lines is full stalls for a cycle, and counts it;
another does not (R239). -/
def Obligations.TramCars : Prop :=
  ((∀ (s : State) (q : QueueId) (cars : List CarSpec),
    ((∀ first rest, cars = first :: rest → ¬ MayFeed s q first rest) → exec (.broadcast q cars) s = .next s) ∧
    ((getQueue s q).local_.head?.map (·.train) ≠ some cars → exec (.broadcast q cars) s = .next s) ∧
    (∀ first rest d more, cars = first :: rest → MayFeed s q first rest → (getQueue s q).local_ = d :: more → d.train = cars →
      let x := getQueue s q
      let cmd : HoistCmd := { runs := carRuns (x.firstCar + x.cars.length) cars, dry := trainDry s cars, deps := [], slow := false }
      let segs := makeSegments q x.nextId s.clk.now cmd .tram
      ∃ t, exec (.broadcast q cars) s = .next t ∧ SameBut [.hoists] s t ∧
        QueueIs q { x with
          local_ := more
          cars := x.cars ++ loadingCars cars
          ready := x.ready ++ segs
          nextId := x.nextId + segs.length } s t)) ∧
  (∀ (s : State) (q : QueueId), let whole := (getQueue s q).cars.takeWhile fun c => c.left == 0
    (getQueue (releaseCars s q) q).cars = (getQueue s q).cars.drop whole.length ∧
    (∀ c, (getHop (releaseCars s q) c).feeding =
      (getHop s c).feeding ++ (whole.filter fun d => coreAtPos d.entry == c).map (·.car)) ∧
    SameBut [.hoists, .hops] s (releaseCars s q)) ∧
  (∀ (x : HoistQueue) (r : RunMove) (bs : List Byte) (k : Nat) (d : LoadingCar), r.data = some bs → bs ≠ [] → r.bad = [] →
    x.firstCar ≤ r.run.dst / 4096 → k = r.run.dst / 4096 - x.firstCar → x.cars[k]? = some d →
    r.run.dst % 4096 + bs.length ≤ d.car.payload.length →
    ∃ e, (fillCar false x r).cars[k]? = some e ∧ e.left = d.left - r.run.len ∧ e.car.poisoned = d.car.poisoned ∧
      e.car.payload.length = d.car.payload.length ∧
      (∀ i, i < bs.length → e.car.payload[r.run.dst % 4096 + i]? = bs[i]?) ∧
      (∀ i, i < r.run.dst % 4096 ∨ r.run.dst % 4096 + bs.length ≤ i → e.car.payload[i]? = d.car.payload[i]?) ∧
      ∀ j, j ≠ k → (fillCar false x r).cars[j]? = x.cars[j]?)) ∧
  (∀ (s : State) (c : CoreId) (car : Car) (injected : Bool) (ecc : EccFinding), let h := getHop s c
    let n := coreAtPos (tramPos c + 1)
    (¬ MayHop s c car injected → exec (.carHop c car injected ecc) s = .next s) ∧
    (MayHop s c car injected → ∃ t, exec (.carHop c car injected ecc) s = .next t ∧
      (∀ keeps on : Bool, (keeps = true ↔ KeepsCar s c car) → (on = true ↔ GoesOn c car) →
        RegsAs (hopNoted s c keeps on (carAfter car ecc).poisoned ecc) t ∧
        getHop t c = { h with
          arriving := if injected then h.arriving else h.arriving.tail
          feeding := if injected then h.feeding.tail else h.feeding
          lastInjected := injected
          lines := if keeps then min 32 (h.lines + car.payload.length / 32) else h.lines } ∧
        (on = true → getHop t n = { getHop s n with arriving := (getHop s n).arriving ++ [carAfter car ecc] }) ∧
        HopsBut c (if on then some n else none) s t) ∧
      (KeepsCar s c car → (∀ k (hk : k < car.payload.length), loadByte t.mem (scratchAddr c car.offset + k) = car.payload[k]) ∧
        BytesBut (scratchAddr c car.offset) car.payload.length s t ∧ PoisonBut c s t) ∧
      (¬ KeepsCar s c car → t.mem = s.mem ∧ t.cores = s.cores) ∧
      SameBut [.mem, .regs, .cores, .hops] s t)) ∧
  (∀ (s : State) (c : CoreId),
    ((getHop s c).lines < 32 → exec (.tramStall c) s = .next s) ∧
    (32 ≤ (getHop s c).lines → ∃ t, exec (.tramStall c) s = .next t ∧ getHop t c = { getHop s c with stalled := true } ∧
      HopsBut c none s t ∧ Counted (tramRegBase c + Ctr.TRAM_STALL_CNT) 1 s t ∧ RegsBut [tramRegBase c + Ctr.TRAM_STALL_CNT] s t ∧
      SameBut [.regs, .hops] s t))

/-- CAL_WINDOW: a window below the floor of 4 taps raises VSEAM by 10 mV, up to 0.85 V, voids the band's FULL entry, ends any
descent and counts; at 0.85 V AT_MAX is set. A window below the target margin of 8 taps ends a FULL descent whose load counts
and a LIGHT one; 1 s of windows at load 75 % or more begins a FULL descent 2 mV below the guarded setpoint. A seam whose ACLK
does not run reports nothing (R383, R385, R386).
CAL_DESCENT_STEP, SEAM_IDLE and SEAM_WAKE, and the setpoint's rule: at the IDLE point the band's LIGHT entry, or
CAL_FACTORY; at the ACTIVE point the FULL entry, or else the larger of the two plus 6 mV, with GUARD. A step that held is
followed by one 2 mV lower, but for a FULL descent's sixteenth; one that did not hold ends the descent, and the entry is the
last step that held. An idle seam without a LIGHT entry gathers one; a wake gives up a LIGHT descent and counts its hold once
(R384, R385). -/
def Obligations.Calibration : Prop :=
  (∀ (s : State) (seam : Fin 16) (load margin : Nat), let m := seam.val
    let b := calRegBase m
    let c := windowNoted (getCal s m) load margin
    (calRuns s m = false → exec (.calWindow seam load margin) s = .next s) ∧
    (calRuns s m = true → c.margin < 4 → let v := min 850 (c.vset + 10)
      ∃ t, exec (.calWindow seam load margin) s = .next t ∧
        CalIs m { c with
          descent := none
          heldMv := 0
          steps := 0
          vset := v
          full := tset c.full 0 c.band 0
          guard := c.guard || !c.idle
          highWindows := 0 } s t ∧
        Counted (b + Ctr.CAL_LOW_CNT) 1 s t ∧
        RegsAs (let z := raise (count s b Ctr.CAL_LOW_CNT 1) b Flag.cal_MARGIN_LOW
          if v = 850 then raise (raise z b Flag.cal_AT_MAX) imgBase Flag.img_CAL_AT_MAX else z) t ∧ SameBut [.regs, .cals] s t) ∧
    (calRuns s m = true → 4 ≤ c.margin → c.margin < 8 →
      (c.descent = some .full → 75 ≤ c.load → EndsDescent (.calWindow seam load margin) m c s) ∧
      (c.descent = some .light → c.load ≤ 25 → EndsDescent (.calWindow seam load margin) m c s)) ∧
    (calRuns s m = true → 4 ≤ c.margin →
      (∀ d, c.descent = some d → 8 ≤ c.margin ∨ (d = .full ∧ c.load < 75) ∨ (d = .light ∧ 25 < c.load) →
        GivesCal (.calWindow seam load margin) m c s) ∧
      (c.descent = none → let full := c.idle = false ∧ fullEntry c = 0 ∧ 100000 ≤ c.highWindows
        (¬ full → GivesCal (.calWindow seam load margin) m c s) ∧
        (full → GivesCal (.calWindow seam load margin) m { c with
          descent := some .full
          heldMv := 0
          steps := 1
          vset := max (calFactory s m c.band) (lightEntry c) + 6 - 2 } s)))) ∧
  (∀ (s : State) (seam : Fin 16), let m := seam.val
    let c := getCal s m
    (∀ x : CalState,
      (x.idle = true → (setpoint s m x).vset = (if lightEntry x = 0 then calFactory s m x.band else lightEntry x) ∧
        (setpoint s m x).guard = false) ∧
      (x.idle = false → fullEntry x ≠ 0 → (setpoint s m x).vset = fullEntry x ∧ (setpoint s m x).guard = false) ∧
      (x.idle = false → fullEntry x = 0 → (setpoint s m x).vset = max (calFactory s m x.band) (lightEntry x) + 6 ∧
        (setpoint s m x).guard = true)) ∧
    (∀ x : CalState, let r := fixDescent s m x
      r.1.descent = none ∧ r.1.highWindows = 0 ∧
      (∀ j, j ≠ x.band → tget r.1.full 0 j = tget x.full 0 j ∧ tget r.1.light 0 j = tget x.light 0 j) ∧
      fullEntry r.1 = (if x.descent = some .full ∧ x.heldMv ≠ 0 then x.heldMv else fullEntry x) ∧
      lightEntry r.1 = (if x.descent = some .light ∧ x.heldMv ≠ 0 then x.heldMv else lightEntry x) ∧
      (r.2 = true ↔ x.descent = some .full ∧ x.heldMv ≠ 0)) ∧
    (∀ held, c.descent = none ∨ (c.descent = some .full ∧ c.idle = true) → exec (.calDescentStep seam held) s = .next s) ∧
    (∀ d, c.descent = some d → ¬ (d = .full ∧ c.idle = true) →
      EndsDescent (.calDescentStep seam false) m c s ∧
      ((d = .full ∧ 16 ≤ c.steps) ∨ c.vset < 652 → EndsDescent (.calDescentStep seam true) m { c with heldMv := c.vset } s) ∧
      (¬ ((d = .full ∧ 16 ≤ c.steps) ∨ c.vset < 652) → GivesCal (.calDescentStep seam true) m { c with
          heldMv := c.vset
          vset := c.vset - 2
          steps := c.steps + 1 } s)) ∧
    (c.idle = true ∨ seamCharging s m = true ∨ calRuns s m = false → exec (.seamIdle seam) s = .next s) ∧
    (c.idle = false → seamCharging s m = false → calRuns s m = true →
      (lightEntry c ≠ 0 ∨ c.descent ≠ none → GivesCal (.seamIdle seam) m { c with
        idle := true
        waking := false
        vset := idleSet s m c
        guard := false } s) ∧
      (lightEntry c = 0 → c.descent = none → GivesCal (.seamIdle seam) m { c with
        idle := true
        waking := false
        guard := false
        descent := some .light
        heldMv := 0
        steps := 1
        vset := calFactory s m c.band - 2 } s)) ∧
    (c.idle = false → exec (.seamWake seam) s = .next s) ∧
    (c.idle = true → ∃ t, exec (.seamWake seam) s = .next t ∧
      Counted (calRegBase m + Ctr.CAL_WAKE_CNT) (if c.waking then 0 else 1) s t ∧ RegsBut [calRegBase m + Ctr.CAL_WAKE_CNT] s t ∧
      CalIs m (if c.descent = some .full then { c with
          idle := false
          waking := false
          vset := max (calFactory s m c.band) (lightEntry c) + 6 - 2 * c.steps
          guard := true }
        else setpoint s m { c with
          idle := false
          waking := false
          descent := none
          heldMv := 0
          steps := 0 }) s t ∧ SameBut [.regs, .cals] s t))

/-- What the fences do. An array, a core or a seam that is fenced is so listed, with the fence in the fault log and FENCE set;
a core's and a seam's tasks are gone from their slots, and a seam's ACLK and KCLK stop. A unit fenced already is left alone
(R334, R335, R316). -/
def Obligations.Fences : Prop :=
  ∀ s : State, s.pwr.phase ≠ .off → let f := s.dep.fences
    (∀ a : ArrayId, arrayFenced s a = true → exec (.faultEvent (.arrayTest a)) s = .next s) ∧
    (∀ a : ArrayId, arrayFenced s a = false → ∃ t, exec (.faultEvent (.arrayTest a)) s = .next t ∧
      Fenced { f with arrays := arrayKey a :: f.arrays } 1 0 a.core.seam.val a.core.core.val a.array.val s t ∧
      (∀ x ∈ (getCore t a.core).tiles, x.isOpen = true → x.array ≠ some a.array) ∧ SameBut fenceParts s t) ∧
    (∀ a : ArrayId, f.cores.contains (coreKey a.core) = true → exec (.faultEvent (.repeatFail a)) s = .next s) ∧
    (∀ a : ArrayId, let c := a.core
      f.cores.contains (coreKey c) = false → fencedCores s c.seam.val < 15 → ∃ t, exec (.faultEvent (.repeatFail a)) s = .next t ∧
        Fenced { f with cores := coreKey c :: f.cores } 1 2 c.seam.val c.core.val 0 s t ∧
        (∀ u : SlotId, u.core = c → (getSlot t u).state = .empty) ∧ SameBut fenceParts s t) ∧
    (∀ m : Fin 16, f.seams.contains m.val = true → exec (.faultEvent (.seamPll m)) s = .next s) ∧
    (∀ m : Fin 16, f.seams.contains m.val = false → ∃ t, exec (.faultEvent (.seamPll m)) s = .next t ∧
      Fenced { f with seams := m.val :: f.seams } 1 5 m.val 0 0 s t ∧
      DomStopped (.seam m .aclk) s t ∧ DomStopped (.seam m .kclk) s t ∧
      (∀ d, d ≠ .seam m .aclk → d ≠ .seam m .kclk → getDom t d = getDom s d) ∧
      (∀ u : SlotId, u.core.seam = m → (getSlot t u).state = .empty) ∧ SameBut fenceParts s t) ∧
    (∀ q : QueueId, exec (.faultEvent (.translation q)) s = exec (.faultEvent (.seamPll q.seam)) s) ∧
    (∀ m : Fin 16, f.drams.contains m.val = false → ∃ t, exec (.faultEvent (.dramController m)) s = .next t ∧
      m.val ∈ t.dep.fences.drams ∧ m.val ∈ t.dep.fences.seams ∧ (getDom t (.seam m .mclk)).running = false) ∧
    (∀ m : Fin 16, f.drams.contains m.val = true → exec (.faultEvent (.dramController m)) s = .next s)

/-- FAULT_EVENT by class. A corrected error counts; the third event of an array, an adit unit or a core's scratch within the
tally window fences it, and an earlier one is only kept; an audit failure is logged; a fault of the fabric, an uncorrectable
error in the hub, a hub PLL that does not lock and a thermal trip take the module out of service, and so does the loss of
the second journal copy. Without power nothing is heard (R125, R333, R334, R350). -/
def Obligations.FaultReports : Prop :=
  ∀ s : State,
    (s.pwr.phase = .off → ∀ r, exec (.faultEvent r) s = .next s) ∧
    (s.pwr.phase ≠ .off →
      (∃ t, exec (.faultEvent .corrected) s = .next t ∧ Counted (depBase + Ctr.DEP_CORRECTED_CNT) 1 s t ∧
        RegsBut [depBase + Ctr.DEP_CORRECTED_CNT] s t ∧ SameBut [.regs] s t) ∧
      (∀ a : ArrayId, ∃ t, exec (.faultEvent (.auditFail a)) s = .next t ∧
        FaultLogged 1 0 a.core.seam.val a.core.core.val a.array.val s t ∧ Counted (depBase + Ctr.DEP_CONTAINED_CNT) 1 s t ∧
        SameBut [.regs] s t) ∧
      (∀ a : ArrayId, let k := arrayKey a
        let l := recentEvents s (tget s.dep.mismatches [] k)
        let z := { s with dep := { s.dep with mismatches := tset s.dep.mismatches [] k l } }
        (l.length < 3 → exec (.faultEvent (.arrayMismatch a)) s = .next z) ∧
        (3 ≤ l.length → exec (.faultEvent (.arrayMismatch a)) s = .next (fenceArray z a false))) ∧
      (∀ u : AditId, let k := aditKey u
        let l := recentEvents s (tget s.dep.residues [] k)
        let z := { s with dep := { s.dep with residues := tset s.dep.residues [] k l } }
        (l.length < 3 → exec (.faultEvent (.aditResidue u)) s = .next z) ∧
        (3 ≤ l.length → exec (.faultEvent (.aditResidue u)) s = .next (fenceAdit z u))) ∧
      (∀ c : CoreId, let k := coreKey c
        let l := recentEvents s (tget s.dep.scratchUes [] k)
        let z := { s with dep := { s.dep with scratchUes := tset s.dep.scratchUes [] k l } }
        (l.length < 3 → exec (.faultEvent (.scratchUe c)) s = .next z) ∧
        (3 ≤ l.length → exec (.faultEvent (.scratchUe c)) s = .next (fenceCore z c))) ∧
      (∀ (c : ChanId) (off : Nat), off < Config.hostBytes c.seam.val → let k := chanKey c
        let l := recentEvents s (tget s.dep.dramUes [] k)
        let z := voidGranules (logFault { s with dep := { s.dep with dramUes := tset s.dep.dramUes [] k l } } 2 3 c.seam.val c.chan.val 0)
          [granuleHeld s ((seamDram c.seam.val + off) / 4096)]
        (l.length < 3 → exec (.faultEvent (.dramUe c off)) s = .next z) ∧
        (3 ≤ l.length → exec (.faultEvent (.dramUe c off)) s = .next (fenceChan z c))) ∧
      (∀ m : Fin 16, exec (.faultEvent (.sequencer m)) s = exec (.faultEvent (.seamPll m)) (restartSequencer s m.val)) ∧
      (∀ r, (∃ m, r = .fabric m) ∨ r = .hubUe ∨ r = .hubPll ∨ r = .thermalTrip → ∃ t, exec (.faultEvent r) s = .next t ∧
        t.dep = { s.dep with out := true } ∧ FaultLogged 3 6 0 0 0 s t ∧ SameBut [.regs, .dep] s t) ∧
      (∀ second : Bool, let has := if second then s.jnl.copy8 else s.jnl.copy0
        let other := if second then s.jnl.copy0 else s.jnl.copy8
        (has = false → exec (.faultEvent (.journalCopy second)) s = .next s) ∧
        (has = true → ∃ t, exec (.faultEvent (.journalCopy second)) s = .next t ∧
          t.jnl = (if second then { s.jnl with copy8 := false } else { s.jnl with copy0 := false }) ∧
          BitSet (depBase + Flag.dep_JNL_SINGLE.1) Flag.dep_JNL_SINGLE.2 t ∧
          t.dep = { s.dep with out := s.dep.out || !other } ∧ SameBut [.regs, .dep, .jnl] s t)))

/-- CORE_STALL_TIMEOUT, ARRAY_TEST_PERIODIC and ARRAY_TEST_DONE. A running task with a ready command that is not issued, the
next of its unit, has its core fenced; an idle array in service is taken off for its test, its weight tiles gone; a test
done counts, and a failing one fences the array (R127, R159, R334). -/
def Obligations.CoreAndArrayTests : Prop :=
  (∀ (s : State) (c : CoreId),
    (stalled s c = true ↔ ∃ u : SlotId, u.core = c ∧ (getSlot s u).state = .running ∧ ∃ (i : Nat) (d : SlotCmd),
      (getSlot s u).cmds[i]? = some d ∧ d.issued = false ∧ (∀ (j : Nat) (e : SlotCmd), j < i → (getSlot s u).cmds[j]? = some e → e.cmd.unit = d.cmd.unit → e.issued = true) ∧
      (∀ k ∈ d.cmd.deps, ∀ e : SlotCmd, (getSlot s u).cmds[k]? = some e → e.done = true) ∧
      ∀ p ∈ d.cmd.needs, piecePresent (getSlot s u) p = true) ∧
    (stalled s c = false → exec (.coreStallTimeout c) s = .next s) ∧
    (stalled s c = true → exec (.coreStallTimeout c) s = .next (fenceCore s c))) ∧
  (∀ (s : State) (a : ArrayId), let x := getArray s a
    (canTest s a = false → exec (.arrayTestPeriodic a) s = .next s) ∧
    (canTest s a = true → ∃ t, exec (.arrayTestPeriodic a) s = .next t ∧ ArrayIs a { x with
      testing := true
      active := none
      shadow := none } s t ∧ SameBut [.arrays] s t) ∧
    (x.testing = false → ∀ failing, exec (.arrayTestDone a failing) s = .next s) ∧
    (x.testing = true → ∃ t, ArrayIs a { x with testing := false } s t ∧ Counted (arrRegBase a + Ctr.ARR_TEST_CNT) 1 s t ∧
      RegsBut [arrRegBase a + Ctr.ARR_TEST_CNT] s t ∧ SameBut [.regs, .arrays] s t ∧
      exec (.arrayTestDone a false) s = .next t ∧
      exec (.arrayTestDone a true) s = .next (fenceArray (raise t (arrRegBase a) Flag.arr_TEST_FAIL) a true)))

/-- DOMAIN_STOP, DOMAIN_START, DOMAIN_RESET_ASSERT and DOMAIN_RESET_RELEASE. A stop clears the live bit, resets the domain and
stops its clock and PLL; a reset counts itself and the entries its neighbours flushed, returns the domain's registers to
their reset values and leaves no other domain's; a management access held on a word of the domain is abandoned and
answered so; a start ends with the live bit, and a domain that leaves reset loads its replica of the local counter (R314
to R317, R320, R322, R401). REPLICA_COMPARE, DCLK_UNLOCK and DCLK_LOCK_TIMEOUT. A replica within 8 ns of the counter keeps
its reading; one farther off is reloaded, or held at its value where that would move it backward, and TIME_SLIP is set.
The loss of DCLK holds the local counter and resets the module warm, and a DCLK that does not lock again keeps it in reset
(R318, R322). -/
def Obligations.DomainControl : Prop :=
  ((∀ (s : State) (d : DomainId) (n : Nat), let x := getDom s d
    (x.running = false → exec (.domainStop d n) s = .next s) ∧
    (x.running = true → ∃ z, exec (.domainStop d n) s = .next (abandonIn z d) ∧ DomIs d heldDomain s z ∧
      RegsAs (countReset (afterReset s d) d n) z ∧ SameBut resetParts s z) ∧
    (x.inReset = true → exec (.domainResetAssert d n) s = .next s) ∧
    (x.inReset = false → ∃ z, exec (.domainResetAssert d n) s = .next (abandonIn z d) ∧
      DomIs d { x with inReset := true, live := false } s z ∧ RegsAs (countReset (afterReset s d) d n) z ∧ SameBut resetParts s z) ∧
    (mayStart s d = false → exec (.domainStart d) s = .next s) ∧
    (mayStart s d = true → ∃ t, exec (.domainStart d) s = .next t ∧ DomIs d (startedDomain x) s t ∧
      (x.running = false ∨ x.inReset = true → ReplicaLoaded d s t) ∧ SameBut [.doms, .clk] s t) ∧
    (x.running = false ∨ x.inReset = false → exec (.domainResetRelease d) s = .next s) ∧
    (x.running = true → x.inReset = true → ∃ t, exec (.domainResetRelease d) s = .next t ∧
      DomIs d { x with inReset := false, live := true } s t ∧ ReplicaLoaded d s t ∧ SameBut [.doms, .clk] s t)) ∧
  (∀ (s : State) (d : DomainId) (n : Nat), let b := (domainRegs d).1
    let seam := (domainRegs d).2
    Counted (b + if seam then Ctr.seamClk_XING_RESET_CNT else Ctr.hubClk_XING_RESET_CNT) 1 s (countReset s d n) ∧
    Counted (b + if seam then Ctr.seamClk_XING_DROP_CNT else Ctr.hubClk_XING_DROP_CNT) n s (countReset s d n)) ∧
  (∀ (s : State) (d : DomainId) (a : Nat) (l : RegLoc), locate a = some l → rawReg (clearDomainRegs s d) a =
    if l.dom = some d then regReset a else rawReg s a) ∧
  (∀ (s : State) (d : DomainId), let t := abandonIn s d
    ((∀ h, s.port.held = some h → heldIn d h = false) → t = s) ∧
    (∀ h, s.port.held = some h → heldIn d h = true → t.port.held = none ∧ Counted Ctr.MG_ABANDON_CNT 1 s t ∧
      BitSet Flag.ident_ABANDONED.1 Flag.ident_ABANDONED.2 t ∧
      (∃ l, t.port.txQueue = s.port.txQueue ++ mgmtAnswer s h.req 4 (accessBody h.req h.at_ h.words) :: l) ∧
      FrontKnown t.port.mgmtQueue ∧ SameBut [.regs, .txQueue, .mgmt] s t))) ∧
  (∀ s : State,
    (∀ (k : Fin 34) (r : Time), let works := s.clk.dclkLocked = true ∧ isLiveDom s (replicaDomain k.val) = true
      let near := (if r ≤ s.clk.now then s.clk.now - r else r - s.clk.now) ≤ 8
      (¬ works → exec (.replicaCompare k r) s = .next s) ∧
      (works → near → ∃ t, exec (.replicaCompare k r) s = .next t ∧
        t.clk = { s.clk with replicas := tset s.clk.replicas {} k.val { value := r, held := false } } ∧ SameBut [.clk] s t) ∧
      (works → ¬ near → ∃ t, exec (.replicaCompare k r) s = .next t ∧
        t.clk = { s.clk with replicas := tset s.clk.replicas {} k.val (if r ≤ s.clk.now then { value := s.clk.now, held := false }
          else { value := r, held := true }) } ∧
        RegsAs (raise s hubClkBase Flag.hubClk_TIME_SLIP) t ∧ SameBut [.regs, .clk] s t)) ∧
    (s.clk.dclkLocked = false → exec .dclkUnlock s = .next s) ∧
    (s.clk.dclkLocked = true → ∃ z, z.clk = { s.clk with dclkLocked := false } ∧ SameBut [.clk] s z ∧
      exec .dclkUnlock s = .next (if canReset s then warmReset z .dclk else z)) ∧
    (s.clk.dclkLocked = false ∧ s.pwr.warm = true ∧ s.pwr.phase = .step 2 → ∃ t, exec .dclkLockTimeout s = .next t ∧
      t.clk = { s.clk with dclkDead := true } ∧ SameBut [.clk] s t) ∧
    (¬ (s.clk.dclkLocked = false ∧ s.pwr.warm = true ∧ s.pwr.phase = .step 2) → exec .dclkLockTimeout s = .next s))

/-- The loss of a PLL's lock. A seam PLL's stops its domain, sets UNLOCK and fences the seam, with its DRAM for MCLK; a hub
PLL's stops the domain, logs a fault of class CONTAINED at the module level, and is restarted up to three times: lock
releases the domain, and the third failure takes the module out of service (R317, R318). -/
def Obligations.PllLoss : Prop :=
  ∀ (s : State) (n : Nat),
    (∀ (m : Fin 16) (x : SeamDomain), let d : DomainId := .seam m x
      ((getDom s d).locked = false → exec (.pllUnlock m x n) s = .next s) ∧
      ((getDom s d).locked = true → ∃ z, DomIs d heldDomain s z ∧ RegsAs (countReset (afterReset s d) d n) z ∧ SameBut resetParts s z ∧
        let y := raise (abandonIn z d) (seamClkBase m.val) (Flag.seamClk_UNLOCK.1, seamDomBit x)
        exec (.pllUnlock m x n) s = .next (endRecovery (if x = .mclk then fenceDram y m else fenceSeam y m)))) ∧
    (∀ fclk : Bool, let d := hubDomain fclk
      ((getDom s d).locked = false → exec (.hubPllUnlock fclk n) s = .next s) ∧
      ((getDom s d).locked = true → ∃ z, DomIs d heldDomain s z ∧ RegsAs (countReset (afterReset s d) d n) z ∧ SameBut resetParts s z ∧
        exec (.hubPllUnlock fclk n) s =
          .next (logFault (raise (setTries (abandonIn z d) fclk 0) hubClkBase Flag.hubClk_UNLOCK) 1 6 0 0 0))) ∧
    (∀ fclk locks : Bool, let d := hubDomain fclk
      ((getDom s d).running = true ∨ s.pwr.railsUp = false ∨ 3 ≤ hubTries s fclk → exec (.hubPllRestart fclk locks) s = .next s) ∧
      ((getDom s d).running = false → s.pwr.railsUp = true → hubTries s fclk < 3 →
        (∃ z, DomIs d { running := true, locked := true, inReset := false, live := true } s z ∧ hubTries z fclk = 0 ∧ SameBut [.doms, .clk] s z ∧
          exec (.hubPllRestart fclk true) s = .next ((z.port.sessions.map (·.1)).foldl resyncSession z)) ∧
        (∃ z, hubTries z fclk = hubTries s fclk + 1 ∧ SameBut [.clk] s z ∧
          exec (.hubPllRestart fclk false) s = .next (if hubTries s fclk = 2 then moduleOut z else z))))

/-- POWER_ON, INPUT_VOLTAGE_EVENT, SHUTDOWN, MATE_REMOVAL, TRIP_LATCH_CLEAR, the reference and RESET_N_RELEASE. The module starts
from step 1 where its trip latch is clear; a voltage out of the service range sets its flag; a shutdown's condition and the
removal take all power, and the latch clears while there is none (R359, R365, R366, R393, R395).
TEMPERATURE_SAMPLE: a die past its trip limit takes all power and sets the latch; below it the readings are noted, a die
past a warning limit sets THERM_WARN, and a seam's band moves only when the temperature has passed its edge by 2 °C (R365,
R383). -/
def Obligations.PowerEvents : Prop :=
  (∀ s : State,
    (s.pwr.phase = .off ∧ s.pwr.tripLatch = false → ∃ t, exec .powerOn s = .next t ∧
      t.pwr = { s.pwr with phase := .step 1, mated := true } ∧ RegsBut [imgBase + 0x60] s t ∧ SameBut [.regs, .pwr] s t) ∧
    (¬ (s.pwr.phase = .off ∧ s.pwr.tripLatch = false) → exec .powerOn s = .next s) ∧
    (∀ cv, s.pwr.phase = .off → exec (.inputVoltageEvent cv) s = .next s) ∧
    (∀ cv, s.pwr.phase ≠ .off → ∃ t, exec (.inputVoltageEvent cv) s = .next t ∧
      (cv < 4400 → BitSet (imgBase + Flag.img_UNDERVOLT.1) Flag.img_UNDERVOLT.2 t) ∧
      (5600 < cv → BitSet (imgBase + Flag.img_OVERVOLT.1) Flag.img_OVERVOLT.2 t) ∧
      (4400 ≤ cv → cv ≤ 5600 → RegsBut [imgBase + 0x60] s t) ∧
      RegsBut [imgBase + 0x60, imgBase + Flag.img_UNDERVOLT.1] s t ∧ SameBut [.regs] s t) ∧
    (∀ cv ca ns, s.pwr.phase ≠ .off → ShutdownDue cv ca ns → ∃ t, exec (.shutdown cv ca ns) s = .next t ∧ Unpowered s t ∧
      t.pwr.tripLatch = s.pwr.tripLatch) ∧
    (∀ cv ca ns, ¬ (s.pwr.phase ≠ .off ∧ ShutdownDue cv ca ns) → exec (.shutdown cv ca ns) s = .next s) ∧
    (∃ t, exec .mateRemoval s = .next t ∧ Unpowered s t ∧ t.pwr.mated = false ∧ t.pwr.tripLatch = s.pwr.tripLatch) ∧
    (s.pwr.phase ≠ .off → exec .tripLatchClear s = .next s) ∧
    (s.pwr.phase = .off → ∃ t, exec .tripLatchClear s = .next t ∧ t.pwr = { s.pwr with tripLatch := false } ∧ SameBut [.pwr] s t) ∧
    (∃ t, exec .refClockLost s = .next t ∧ t.pwr = { s.pwr with refOk := false, refAlert := true } ∧ SameBut [.pwr] s t) ∧
    (∃ t, exec .refClockRestored s = .next t ∧ t.pwr = { s.pwr with refOk := true, refAlert := false } ∧ SameBut [.pwr] s t) ∧
    (∃ t, exec .resetNRelease s = .next t ∧ t.pwr = { s.pwr with resetN := false } ∧ SameBut [.pwr] s t)) ∧
  ((∀ (s : State) (f : Temperatures),
    (s.pwr.phase = .off → exec (.temperatureSample f) s = .next s) ∧
    (s.pwr.phase ≠ .off → TripDue f → ∃ t, exec (.temperatureSample f) s = .next t ∧ Unpowered s t ∧ t.pwr.tripLatch = true) ∧
    (s.pwr.phase ≠ .off → ¬ TripDue f → ∃ t, exec (.temperatureSample f) s = .next t ∧
      t.pwr.tempLogic = f.logic ∧ t.pwr.tempDram = f.dram ∧ t.pwr.tempHub = f.hub ∧
      ((∃ x ∈ f.logic, 95 < x) ∨ (∃ x ∈ f.dram, 85 < x) ∨ 95 < f.hub → BitSet (imgBase + Flag.img_THERM_WARN.1) Flag.img_THERM_WARN.2 t) ∧
      SameBut [.regs, .temps, .cals] s t)) ∧
  (∀ b x, b ≤ 8 → let n := nextBand b x
    n ≤ 8 ∧
    (n = b ↔ (b = 8 ∨ x < 10 * b + 32) ∧ (b = 0 ∨ 10 * b + 19 ≤ x)) ∧
    (b < n → 10 * n + 22 ≤ x) ∧ (n < b → x < 10 * (n + 1) + 19)))

/-- WARM_RESET, LOCKSTEP_MISMATCH and RESET_N_ASSERT: with power and step 1 over, each of the causes resets the module warm, with
its START_KIND; a low of less than 5 µs on reset_n is ignored (R332, R352, R366, R387, R393, R407). -/
def Obligations.WarmResets : Prop :=
  ∀ s : State,
    (canReset s = true ↔ s.pwr.phase = .running ∨ ∃ n, s.pwr.phase = .step n ∧ 2 ≤ n ∧ s.clk.dclkDead = false) ∧
    (canReset s = false → (∀ c, exec (.warmReset c) s = .next s) ∧ exec .lockstepMismatch s = .next s) ∧
    (canReset s = true →
      (∃ t, exec (.warmReset .pin) s = .next t ∧ WarmStarted 1 s t) ∧
      (∃ t, exec (.warmReset .depCtrl) s = .next t ∧ WarmStarted 2 s t) ∧
      (∃ t, exec (.warmReset .lockstep) s = .next t ∧ WarmStarted 3 s t) ∧
      (∃ t, exec (.warmReset .dclk) s = .next t ∧ WarmStarted 3 s t) ∧
      (∃ t kind, exec (.warmReset .release) s = .next t ∧ kind < 4 ∧ WarmStarted kind s t) ∧
      exec .lockstepMismatch s = exec (.warmReset .lockstep) s) ∧
    (∀ ns, ns < 5000 → exec (.resetNAssert ns) s = .next s) ∧
    (∀ ns, 5000 ≤ ns → ∃ z, z.pwr = { s.pwr with resetN := true } ∧ SameBut [.pwr] s z ∧
      exec (.resetNAssert ns) s = exec (.warmReset .pin) z)

/-- START_STEP_DONE, steps 1 to 5: step 1 ends once reset_n is released; step 2 locks DCLK with the reference present; step 3
takes image A, then B, then rescue; step 4 reads the configuration; step 5 raises the rails and starts every domain, in
rescue only the hub's (R366, R370, R372, R378).
START_STEP_DONE, steps 6 to 11: a cold start fills DRAM with zeros and a warm one keeps it; check 9 passes to step 8 with
the links trained or tries the other image, then rescue; the array tests fence what *Start-up test decisions* fences, and the
seams are then idle; the port must have linked, and step 11 puts the module in service and writes the start report (R128,
R243, R370, R378, R380, R384). -/
def Obligations.StartSequence : Prop :=
  (∀ (s : State) (f : StartFindings),
    ((s.pwr.phase = .off ∨ s.pwr.phase = .running) → exec (.startStepDone f) s = .next s) ∧
    (s.pwr.phase = .step 1 → (s.pwr.resetN = true → exec (.startStepDone f) s = .next s) ∧
      (s.pwr.resetN = false → ∃ t, ToStep f 2 s t ∧ t.pwr = { s.pwr with phase := .step 2 } ∧ SameBut [.pwr] s t)) ∧
    (s.pwr.phase = .step 2 → let ready := s.pwr.refOk = true ∧ s.pwr.resetN = false ∧ s.clk.dclkDead = false
      (¬ ready → exec (.startStepDone f) s = .next s) ∧
      (ready → ∃ t, ToStep f 3 s t ∧ t.clk = { s.clk with dclkLocked := true } ∧ t.pwr = { s.pwr with phase := .step 3 } ∧
        SameBut [.clk, .pwr] s t)) ∧
    (s.pwr.phase = .step 3 → let a := if s.pwr.aFailed then s.pwr.aReason else checkImage s s.pwr.norA f.imageA
      (a = 0 → ∃ t, ToStep f 4 s t ∧ t.pwr = { s.pwr with phase := .step 4, slotB := false } ∧ SameBut [.pwr] s t) ∧
      (a ≠ 0 → checkImage s s.pwr.norB f.imageB = 0 → ∃ t, ToStep f 4 s t ∧
        t.pwr = { s.pwr with phase := .step 4, slotB := true, aFailed := true, aReason := a } ∧ SameBut [.pwr] s t) ∧
      (a ≠ 0 → checkImage s s.pwr.norB f.imageB ≠ 0 → ∃ t, ToStep f 4 s t ∧
        t.pwr = { s.pwr with phase := .step 4, rescue := true, aFailed := true, aReason := a } ∧ SameBut [.pwr] s t)) ∧
    (s.pwr.phase = .step 4 → ∃ t, ToStep f 5 s t ∧
      (enrolled s = false → t.pwr.ownerLost = false) ∧
      (enrolled s = true → (t.pwr.ownerLost = true ↔ ownerBlockOf s = none)) ∧
      (enrolled s = true → ownerBlockOf s = none → t.pwr.rescue = true)) ∧
    (s.pwr.phase = .step 5 → ∃ t, exec (.startStepDone f) s = .next t ∧ t.pwr.railsUp = true ∧ t.pwr.pwrGood = true ∧
      (s.pwr.rescue = false → t.pwr.phase = .step 6 ∧ ∀ d, (getDom s d).running = false → s.dep.fences = {} → (getDom t d).live = true) ∧
      (s.pwr.rescue = true → t.pwr.phase = .step 9 ∧ ∀ m x, (getDom t (.seam m x)).running = false))) ∧
  (∀ (s : State) (f : StartFindings),
    (s.pwr.phase = .step 6 → ∃ t, ToStep f 7 s t ∧ t.mem = (if s.pwr.warm then s.mem else []) ∧
      (∀ x ∈ f.trained, 8 < x.2 → chanKey x.1 ∈ t.dep.fences.chans)) ∧
    (s.pwr.phase = .step 7 → let v := if s.pwr.slotB then f.imageB else f.imageA
      (v.stage2 = true → ∃ t, ToStep f 8 s t ∧ t.pwr = { s.pwr with phase := .step 8 } ∧ SameBut [.links, .pwr] s t ∧
        ∀ m < 16, ∀ d ∈ linkDirs, linkPresent m d = true → (tget t.links {} (5 * m + linkNum d)).up = true) ∧
      (v.stage2 = false → s.pwr.slotB = true → ∃ t, ToStep f 4 s t ∧ t.pwr = { s.pwr with phase := .step 4, rescue := true } ∧
        SameBut [.pwr] s t) ∧
      (v.stage2 = false → s.pwr.slotB = false → ∃ t, ToStep f 3 s t ∧
        t.pwr = { s.pwr with phase := .step 3, aFailed := true, aReason := 9 } ∧ SameBut [.pwr] s t)) ∧
    (s.pwr.phase = .step 8 → ∃ t, ToStep f 9 s t ∧ (∀ m < 16, (getCal t m).idle = true)) ∧
    (∀ x : ArrayFinding, let d := decideTest x
      let rows := ((x.cells.filter fun c => c.1.val != 64).map (·.1.val)).eraseDups
      let spare := x.cells.any fun c => c.1.val == 64
      (x.chain ≠ none → d.result = 3) ∧
      (x.chain = none → rows = [] → d.result = 0 ∧ d.spareBad = spare) ∧
      (∀ r, x.chain = none → rows = [r] → d.result = (if spare = false ∧ x.retestOk = true then 1 else 2) ∧
        (d.result = 1 → d.row = some r)) ∧
      (x.chain = none → 2 ≤ rows.length → (d.result = 3 ↔ ∃ c, (x.cells.map (·.2.val)).eraseDups = [c]) ∧ (d.result ≠ 3 → d.result = 2)) ∧
      (2 ≤ d.result → arrayKey x.array ∈ (applyTest s x).dep.fences.arrays ∧ (getArray (applyTest s x) x.array).testResult = d.result) ∧
      (d.result < 2 → (applyTest s x).dep = s.dep ∧ (getArray (applyTest s x) x.array).latency = (if d.result = 1 then 135 else 134))) ∧
    (s.pwr.phase = .step 9 → (s.port.linkUp = false ∨ s.pwr.rescue = true → exec (.startStepDone f) s = .next s) ∧
      (s.port.linkUp = true → s.pwr.rescue = false → ∃ t, ToStep f 10 s t ∧
        (s.pwr.config.twin = false ∨ s.pwr.warm = true → t.pwr = { s.pwr with phase := .step 10 } ∧ SameBut [.pwr] s t) ∧
        (s.pwr.config.twin = true → s.pwr.warm = false → s.dep.restoreSkip = false → t.jnl.mirror = .restoring) ∧
        (s.pwr.config.twin = true → s.pwr.warm = false → s.dep.restoreSkip = true → t.jnl.mirror ≠ .restoring))) ∧
    (s.pwr.phase = .step 10 → let ready := s.jnl.mirror ≠ .restoring ∧
        (s.dep.replayed = true ∨ (s.pwr.warm = false ∧ (s.pwr.config.twin = false ∨ s.dep.restoreSkip = true)))
      (¬ ready → exec (.startStepDone f) s = .next s) ∧
      (ready → ∃ t, ToStep f 11 s t ∧ t.pwr = { s.pwr with phase := .step 11 } ∧ SameBut [.pwr] s t)) ∧
    (s.pwr.phase = .step 11 → ∃ t, exec (.startStepDone f) s = .next t ∧ t.pwr.phase = .running ∧ t.dep.service = true ∧
      t.port.inService = true ∧ t.pwr.tService = s.clk.now ∧
      rawReg t startBase = BitVec.ofNat 32 s.pwr.startKind ∧ rawReg t (startBase + 4) = BitVec.ofNat 32 s.pwr.warmCount))

/-- Block scales and integer elements. The scale byte X stands for 2^(X - 127), and X = 0xFF makes every element of the block
NaN (R13). An MXINT8 element holds an integer a of 8 bits and its value is a × 2^-6 × 2^(X - 127); the code 0x80 is -2.0
(R14). A VWB-w element holds an integer of w bits in two's complement, w from 1 to 16, and its value is a × 2^(X - 127);
VWB-1 holds only -1 and 0 (R15). -/
def Obligations.IntegerBlocks : Prop :=
  (∀ v, scaleVal 0xFF v = .nan) ∧
  (∀ x n m e, x < 0xFF → scaleVal x (.fin n m e) = .fin n m (e + ((x : Int) - 127))) ∧
  (∀ x raw : Nat, x < 0xFF → raw < 2 ^ 8 →
    IsInt (if raw < 2 ^ 7 then (raw : Int) else raw - 2 ^ 8) (-6 + ((x : Int) - 127)) (scaleVal x (elemVal 0x15 raw))) ∧
  elemVal 0x15 0x80 = .fin true 128 (-6) ∧
  (∀ w x raw : Nat, 1 ≤ w → w ≤ 16 → x < 0xFF → raw < 2 ^ w → ∃ a : Int,
    a = (if raw < 2 ^ (w - 1) then (raw : Int) else raw - 2 ^ w) ∧ -(2 : Int) ^ (w - 1) ≤ a ∧ a ≤ 2 ^ (w - 1) - 1 ∧
    IsInt a ((x : Int) - 127) (scaleVal x (elemVal (0x1F + w) raw)) ∧ (w = 1 → a = -1 ∨ a = 0))

/-- The vat window. Entry (m, n) of an output tile lies at tile base + 5 × (64m + n) in A40 and at tile base + 8 × (64m + n) in
X64, least significant byte first; the exponent reference of an X64 tile changes no byte of the window (R95). -/
def Obligations.VatWindow : Prop :=
  ∀ (c : CoreState) (t : VatTile), let w := if t.x64 then 8 else 5
    (∀ g, t.base ≤ g → g < t.base + w → tileAt c g = some t) →
    (∀ m n k, m < 64 → n < 64 → k < w → vatByte c (4096 * t.base + w * (64 * m + n) + k) =
      BitVec.ofNat 8 ((tget t.entries 0 (64 * m + n)).toNat / 256 ^ k)) ∧
    (∀ e off, vatByte { c with tiles := [{ t with eRef := e }] } off = vatByte { c with tiles := [t] } off)

/-- MGMT_FRAME_RECEIVE: a management frame that the port keeps joins the queue of 64: an ABORT ahead of all but other ABORTs, any
other behind the last; one that arrives while the queue is full is discarded and counted; one that names no operation is
answered BAD_REQUEST as soon as it stands at the front (R305, R306).
The rows of R305: a row executes the request at the front of the queue, and while an access is held only ABORT; a request that
arrives with nothing before it executes at once, and any other joins the queue. A request with a header that breaks R305
answers BAD_REQUEST; without an open session NO_SESSION; with another TOKEN AUTH; and with the REQ_ID executed last the stored
response is sent again and nothing is executed (R305, R306). -/
def Obligations.ManagementQueue : Prop :=
  (∀ (s : State) (r : MgmtFrame), Arrives s r.frame → let z := arrived s r.frame
    let q := s.port.mgmtQueue
    let isAbort (x : MgmtFrame) : Bool := x.header.op.toNat == 18
    let waiting := q.length + (if s.port.held = none then 0 else 1)
    Counts [pc Ctr.PORT_RX_FRAME_CNT] [] (frameEnds s r.frame) z ∧
    (r.header.op.toNat = 18 → exec (.mgmtFrameReceive r) s = .next (withQueue z (q.takeWhile isAbort ++ r :: q.dropWhile isAbort))) ∧
    (r.header.op.toNat ≠ 18 → waiting < 64 → s.port.held ≠ none ∨ FrontKnown (q ++ [r]) →
      exec (.mgmtFrameReceive r) s = .next (withQueue z (q ++ [r]))) ∧
    (s.port.held = none → q = [] → knownOp r.header.op.toNat = false → ∃ t, exec (.mgmtFrameReceive r) s = .next t ∧
      t.port = { s.port with txQueue := s.port.txQueue ++ [mgmtAnswer s r 5 []] } ∧ Counted Ctr.MG_BADREQ_CNT 1 s t ∧
      BitSet Flag.ident_BAD_REQUEST.1 Flag.ident_BAD_REQUEST.2 t ∧ SameBut [.regs, .txQueue, .mgmt] s t) ∧
    (r.header.op.toNat ≠ 18 → 64 ≤ waiting → s.port.held ≠ none ∨ FrontKnown q → ∃ t, exec (.mgmtFrameReceive r) s = .next t ∧
      Counts [pc Ctr.PORT_RX_FRAME_CNT, pc Ctr.PORT_MG_DROP_CNT] [pf Flag.port_MG_DROP] (frameEnds s r.frame) t)) ∧
  (∀ (s : State) (r : MgmtFrame) (sig : SigVerdict), ∀ c ∈ mgmtRows r sig,
    (r.header.op.toNat ≠ c.1 → exec c.2 s = .next s) ∧
    (r.header.op.toNat = c.1 → s.port.held ≠ none → s.port.mgmtQueue.head? = some r → c.1 ≠ 18 → exec c.2 s = .next s) ∧
    (r.header.op.toNat = c.1 → s.port.mgmtQueue.head? ≠ some r → s.port.held ≠ none ∨ FrontKnown s.port.mgmtQueue →
      let first := c.1 = 18 ∨ (s.port.held = none ∧ s.port.mgmtQueue = [])
      (first → Arrives s r.frame → exec c.2 s = exec c.2 (withQueue (arrived s r.frame) (r :: s.port.mgmtQueue))) ∧
      (¬ first → exec c.2 s = exec (.mgmtFrameReceive r) s))) ∧
  (∀ (s : State) (r : MgmtFrame) (sig : SigVerdict), ∀ c ∈ (mgmtRows r sig).drop 2, AtFront r c.1 s →
    (requestOk r.header = false → BadRequest c.2 r s) ∧
    (requestOk r.header = true → getMgmt s r.header.session.toNat = none → AnswersOnly c.2 r 2 s) ∧
    (requestOk r.header = true → ∀ x, getMgmt s r.header.session.toNat = some x →
      (x.token ≠ r.header.token → AnswersOnly c.2 r 1 s) ∧
      (x.token = r.header.token → x.lastReq = some r.header.reqId → ∀ a, x.lastAnswer = some a →
        ∃ t, exec c.2 s = .next t ∧ t.port = { (dequeue s).port with txQueue := s.port.txQueue ++ [a] } ∧
          SameBut [.txQueue, .mgmt] s t)))

/-- HELLO answers with the module's identity and a nonce, of which the 16 newest are held; one from ANNOUNCE_ADDR ends the
announcement (R286, R287, R379). OPEN uses its nonce up and answers AUTH where the nonce does not stand or the kind's
condition of R286 fails, BAD_REQUEST where its body breaks the table, BUSY where the kind's limit is reached, and
otherwise opens a session at the lowest free index of the kind's range, with a TOKEN that is the implementation's choice
and with two grants. SHUT closes a management session or a LOT session, what is accepted in the lot session proceeds, and
any other kind answers BAD_REQUEST (R287, R305). ANNOUNCE sends one announcement, up to 60, until a HELLO has come (R379). -/
def Obligations.SessionRequests : Prop :=
  (∀ (s : State) (r : MgmtFrame), AtFront r 1 s →
    (¬ (openingOk r.header = true ∧ r.body = []) → BadRequest (.hello r) r s) ∧
    (openingOk r.header = true → r.body = [] → ∃ t nonce, exec (.hello r) s = .next t ∧
      t.port = { (dequeue s).port with
        nonces := s.port.nonces.drop (s.port.nonces.length - 15) ++ [(nonce, s.clk.now)]
        txQueue := s.port.txQueue ++ [mgmtAnswer s r 0 (helloBody s nonce)] } ∧
      t.pwr = { s.pwr with announceStop := s.pwr.announceStop || isAnnounceAddr s r.frame } ∧
      SameBut [.freeCount, .pwr, .txQueue, .nonces, .mgmt] s t)) ∧
  (∀ (s : State) (r : MgmtFrame) (sig : SigVerdict), AtFront r 2 s → let c := Instr.openSession r sig
    ((parseOpen r.body = none ∨ openingOk r.header = false ∨ ∃ q, parseOpen r.body = some q ∧ 3 < q.kind) → BadRequest c r s) ∧
    ∀ q, parseOpen r.body = some q → openingOk r.header = true → q.kind ≤ 3 → let y := useNonce (dequeue s) q.nonce
      let z := opening s q
      let may := NonceStands s q ∧ MayOpen s r.frame q sig
      (¬ may → ∃ t, exec c s = .next t ∧ t.port = { y.port with txQueue := s.port.txQueue ++ [mgmtAnswer s r 1 []] } ∧
        SameBut [.txQueue, .nonces, .mgmt] s t) ∧
      (may → ¬ OpenFields q → ∃ t, exec c s = .next t ∧
        t.port = { y.port with txQueue := s.port.txQueue ++ [mgmtAnswer s r 5 []] } ∧ Counted Ctr.MG_BADREQ_CNT 1 s t ∧
        BitSet Flag.ident_BAD_REQUEST.1 Flag.ident_BAD_REQUEST.2 t ∧ SameBut [.regs, .txQueue, .nonces, .mgmt] s t) ∧
      (may → OpenFields q → (∀ i, ¬ OpenPlace z q i) → ∃ t, exec c s = .next t ∧
        t.port = { z.port with txQueue := s.port.txQueue ++ [mgmtAnswer s r 3 []] } ∧ SameBut [.txQueue] z t) ∧
      (may → OpenFields q → ∀ i, OpenPlace z q i → ∃ t token, exec c s = .next t ∧ let x := peerSession s r q token
        (q.kind = 0 → getMgmt t i = some { token := token, signed := q.signed && sig.ed && sig.mldsa && enrolled s } ∧
          (∀ j, j ≠ i → getMgmt t j = getMgmt s j) ∧ t.port.txQueue = s.port.txQueue ++ [mgmtAnswer s r 0 (openAnswer q i token)] ∧
          SameBut [.freeCount, .txQueue, .nonces, .mgmt] s t) ∧
        (q.kind = 1 → Opened r q i token { x with kind := .lot, respWindow := q.window } 1000 z t) ∧
        (q.kind = 2 → ∀ slot m g d, chuteOpener s r.frame q = some (slot, m) → (getGraphSlot s slot).live = some g →
          g.edges[q.edge]? = some d →
          Opened r q i token { x with kind := .chute, peerModule := m, peerSide := s.pwr.config.side, edge := q.edge } d.tail z t ∧
          (getGraphSlot t slot).chutes = (getGraphSlot s slot).chutes ++ [(q.edge, .hub (Fin.ofNat 2048 i))]) ∧
        (q.kind = 3 →
          Opened r q i token { x with kind := .mirror, peerModule := moduleNum s, peerSide := 1 - s.pwr.config.side } 1000 z t))) ∧
  (∀ (s : State) (r : MgmtFrame), AtFront r 3 s → InSession r s → let y := dequeue s
    let kind := beAt r.body 0 1
    let i := beAt r.body 2 2
    let good := r.body.length = 4 ∧ kind ≤ 1 ∧ beAt r.body 1 1 = 0
    (¬ good → ∃ t, exec (.shut r) s = .next t ∧ Finished r 5 [] y t) ∧
    (good → kind = 0 → getMgmt s i ≠ none → ∃ t, exec (.shut r) s = .next t ∧ Finished r 0 [] (mgmtClosed y i) t) ∧
    (good → kind = 0 → getMgmt s i = none → ∃ t, exec (.shut r) s = .next t ∧ Finished r 2 [] y t) ∧
    (good → kind = 1 → i < 2048 → (getSession s i).kind = .lot → ∃ t z, exec (.shut r) s = .next t ∧ LotShut i y z ∧
      Finished r 0 [] z t) ∧
    (good → kind = 1 → i < 2048 → (getSession s i).kind = .chute ∨ (getSession s i).kind = .mirror →
      ∃ t, exec (.shut r) s = .next t ∧ Finished r 5 [] y t) ∧
    (good → kind = 1 → 2048 ≤ i ∨ (getSession s i).kind = .free → ∃ t, exec (.shut r) s = .next t ∧ Finished r 2 [] y t)) ∧
  (∀ s : State, let c := s.pwr.config
    let may := s.port.inService = true ∧ c.announcePort ≠ 0 ∧ c.nextHopMac ≠ 0 ∧ s.pwr.announceStop = false ∧ s.pwr.announced < 60
    (¬ may → exec .announce s = .next s) ∧
    (may → ∃ t f, exec .announce s = .next t ∧ t.port = { s.port with txQueue := s.port.txQueue ++ [f] } ∧
      f.cls = .management ∧ f.dstMac = c.nextHopMac ∧ f.dstIp = unmapIp c.announceAddr ∧ f.dstPort = c.announcePort ∧
      f.body = .mgmt 0x20 0 0 0 (announceBody s) ∧ t.pwr = { s.pwr with announced := s.pwr.announced + 1 } ∧
      SameBut [.pwr, .txQueue] s t))

/-- READ and WRITE access their words one at a time in ascending order and answer OK with what was read, counted; a request
whose body breaks its table answers BAD_REQUEST and accesses nothing; at a domain in reset the access ends with BUSY and
the words before it, at a stopped one it is held (R320, R399 to R401, R412). A read answers the word with WO bits as 0 and
clears RC bits; a write sets RW bits, clears W1C bits written as 1 and leaves all others (R404, R406). ABORT of the held
access answers OK, and the held one ABANDONED; any other ABORT answers BAD_REQUEST (R306). HQ_CFG_WRITE sets a queue's
limit, CH_CTRL_RESET resets a chute, and DEP_CTRL acts with its key only: WARM resets the module, RESTORE_SKIP gives the
restore up (R216, R234, R356, R358). -/
def Obligations.RegisterAccess : Prop :=
  (∀ (s : State) (r : MgmtFrame) (sig : SigVerdict) (write : Bool), AtFront r (if write then 17 else 16) s → InSession r s →
    let c := accessRow r sig write
    let y := dequeue s
    let l := accessList r write
    let i := r.header.session.toNat
    (¬ AccessFields r write → ∃ t, exec c s = .next t ∧ Finished r 5 [] y t) ∧
    (AccessFields r write → write = false →
      ((∀ p ∈ l, AddrAnswers s p.1) → ∃ t z ws, exec c s = .next t ∧ ReadsWords (l.map (·.1)) ws y z ∧ ws.length = l.length ∧
        AccessDone r l.length ws z t) ∧
      (∀ d p e x, l = d ++ p :: e → (∀ q ∈ d, AddrAnswers s q.1) → locate p.1 = some x → answers s x.dom = false →
        ∃ z ws, ReadsWords (d.map (·.1)) ws y z ∧ AccessStops c r d.length ws x s z)) ∧
    (AccessFields r write → write = true →
      ((∀ p ∈ l, ∃ x, locate p.1 = some x ∧ answers s x.dom = true ∧ ¬ Acts x) → ∃ t z, exec c s = .next t ∧
        WritesWords i sig l y z ∧ RegsBut (l.map (·.1)) y z ∧ SameBut [.regs] y z ∧ AccessDone r l.length [] z t) ∧
      (∀ z, WritesWords i sig l y z → getMgmt z i ≠ none → z.port.mgmtQueue = s.port.mgmtQueue.tail →
        ∃ t, exec c s = .next t ∧ AccessDone r l.length [] z t) ∧
      (∀ d p e x, l = d ++ p :: e → (∀ q ∈ d, ∃ x, locate q.1 = some x ∧ answers s x.dom = true ∧ ¬ Acts x) → locate p.1 = some x →
        answers s x.dom = false → ∃ z, WritesWords i sig d y z ∧ AccessStops c r d.length [] x s z))) ∧
  (∀ (s : State) (a : Nat) (x : RegLoc), beforeRead s x = s → let t := (readReg s a x).2
    (readReg s a x).1 = ((viewReg s x).getD (rawReg s a)) &&& ~~~(regDefOf x).wo ∧
    rawReg t a = rawReg s a &&& ~~~(regDefOf x).rc ∧ RegsBut [a] s t ∧ SameBut [.regs] s t) ∧
  (∀ (s : State) (a : Nat) (x : RegLoc) (v : Word) (sig : SigVerdict) (signed : Bool), ¬ Acts x →
    let t := writeReg s a x v sig signed
    let d := regDefOf x
    (∀ k < 32, (rawReg t a).getLsbD k = if d.rw.getLsbD k then v.getLsbD k else (rawReg s a).getLsbD k && !(d.w1c.getLsbD k && v.getLsbD k)) ∧
    RegsBut [a] s t ∧ SameBut [.regs] s t) ∧
  (∀ (s : State) (r : MgmtFrame), InSession r s → let y := dequeue s
    (AtFront r 18 s → ∃ t, exec (.abort r) s = .next t ∧ Finished r 5 [] y t) ∧
    (∀ h, AbortFront r h s → let mine := r.body.length = 4 ∧ beNat r.body = h.req.header.reqId.toNat
      (¬ mine → ∃ t, exec (.abort r) s = .next t ∧ Finished r 5 [] y t) ∧
      (mine → ∃ t u v, exec (.abort r) s = .next t ∧ Finished r 0 r.body y u ∧ v.port = { u.port with held := none } ∧
        Counted Ctr.MG_ABANDON_CNT 1 u v ∧ BitSet Flag.ident_ABANDONED.1 Flag.ident_ABANDONED.2 v ∧
        RegsBut [Ctr.MG_ABANDON_CNT, Flag.ident_ABANDONED.1] u v ∧ SameBut [.regs, .mgmt] u v ∧
        Finished h.req 4 (accessBody h.req h.at_ h.words) v t))) ∧
  (∀ (s : State) (v : Word),
    (∀ q : QueueId, let live := isLiveDom s (.seam q.seam .fclk) = true
      (live → ∃ t, exec (.hqCfgWrite q v) s = .next t ∧ FieldSet (queueRegBase q) 6 0 (v.toNat % 128) s t ∧ SameBut [.regs] s t) ∧
      (¬ live → exec (.hqCfgWrite q v) s = .next s)) ∧
    (∀ ep : EndpointId, let act := v.getLsbD 0 = true ∧ isLiveDom s (epDomain ep) = true
      (act → exec (.chCtrlReset ep v) s = exec (.chuteReset ep) s) ∧ (¬ act → exec (.chCtrlReset ep v) s = .next s)) ∧
    (let act := v.toNat % 2 ^ 16 = Config.key ∧ v.getLsbD 16 = true;
      (act → exec (.depCtrlWarm v) s = exec (.warmReset .depCtrl) s) ∧ (¬ act → exec (.depCtrlWarm v) s = .next s)) ∧
    (let act := v.toNat % 2 ^ 16 = Config.key ∧ v.getLsbD 17 = true ∧ s.pwr.config.twin = true ∧ s.pwr.warm = false ∧
        s.dep.service = false ∧ deputyRuns s = true;
      (¬ act → exec (.depCtrlRestoreSkip v) s = .next s) ∧
      (act → ∃ t, exec (.depCtrlRestoreSkip v) s = .next t ∧ t.dep = { s.dep with restoreSkip := true } ∧
        (s.jnl.mirror ≠ .restoring → SameBut [.dep] s t) ∧
        (s.jnl.mirror = .restoring → t.jnl.mirror ≠ .restoring ∧ BitSet (depBase + Flag.dep_JNL_DISCARDED.1) Flag.dep_JNL_DISCARDED.2 t ∧
          RegsBut [depBase + Flag.dep_JNL_DISCARDED.1] s t ∧ SameBut [.regs, .dep, .jnl] s t))))

/-- PROGRAM and VERIFY begin where no command runs; the device that the module started from is refused except in rescue, and a
PROGRAM of the owner block always. IMG_PROG_DONE ends the command: a block that is programmed holds the staging window,
one that failed holds what the device left in it, and nothing outside the block changes; a VERIFY changes neither device
(R373, R387). ENROL takes the keys staged and judges them; RELEASE, from an owner-signed session of an enrolled module,
discards accepted work and sessions at once. OWNER_OP_DONE ends an enrolment with the slot burned and the owner block in
both devices, or sets FAIL with its code; a release leaves DRAM zero, the slot released and the owner sections erased, and
resets the module warm (R374 to R376). GO latches the nonce and the time, and nothing while a report is being formed; the
report is of 3,696 B (R382). -/
def Obligations.ImagesAndOwner : Prop :=
  (∀ (s : State) (v : Word), ∀ c ∈ imgRows v, let op : ImgOp := ⟨decide (c.1 = 2), v.getLsbD 2, v.toNat / 16 % 1024⟩
    let refused := (op.targetB = s.pwr.slotB ∧ s.pwr.rescue = false) ∨ (c.1 = 1 ∧ op.chunk = 1008)
    (v.toNat % 4 ≠ c.1 ∨ s.pwr.imgOp ≠ none ∨ deputyRuns s = false → exec c.2 s = .next s) ∧
    (v.toNat % 4 = c.1 → s.pwr.imgOp = none → deputyRuns s = true →
      (refused → ∃ t, exec c.2 s = .next t ∧ ImgFailed 1 0 s t ∧ SameBut [.regs] s t) ∧
      (¬ refused → exec c.2 s = .next { s with pwr := { s.pwr with imgOp := some op } }))) ∧
  (∀ (s : State) (ok : Bool) (e : Fin 8) (v : ImageVerdict), let done := imgBase + Flag.img_DONE.1
    (s.pwr.imgOp = none → exec (.imgProgDone ok e v) s = .next s) ∧
    ∀ op, s.pwr.imgOp = some op → let n := checkAll s (norOf s op.targetB) v
      let a := op.chunk * sectionBytes
      ∃ t, exec (.imgProgDone ok e v) s = .next t ∧ t.pwr.imgOp = none ∧
        (op.verify = true → SameBut [.regs, .image] s t ∧
          (n = 0 → BitSet done Flag.img_DONE.2 t ∧ RegsBut [done] s t) ∧ (n ≠ 0 → ImgFailed 4 n s t)) ∧
        (op.verify = false → NorBut op.targetB a sectionBytes s t ∧
          (ok = true → NorHolds op.targetB a (stagingBytes s 0 sectionBytes) t ∧ BitSet done Flag.img_DONE.2 t ∧ RegsBut [done] s t ∧
            SameBut [.regs, .nor, .image] s t) ∧
          (ok = false → ImgFailed (if e.val = 3 then 3 else 2) 0 s t ∧ SameBut [.freeCount, .regs, .nor, .image] s t))) ∧
  (∀ (s : State) (v : Word) (sig : SigVerdict), let keys := stagingBytes s 0 keyBytes
    (¬ OwnerWrite v 16 17 s → exec (.enrol v sig) s = .next s) ∧
    (OwnerWrite v 16 17 s → ∃ code, EnrolOutcome s sig keys code ∧
      exec (.enrol v sig) s = .next { s with pwr := { s.pwr with ownerOp := some { release := false, failCode := code, keys := keys } } })) ∧
  (∀ (s : State) (v : Word) (signed : Bool), let may := OwnerWrite v 17 16 s ∧ signed = true ∧ enrolled s = true
    (¬ may → exec (.release v signed) s = .next s) ∧
    (may → ∃ t, exec (.release v signed) s = .next t ∧ t.pwr = { s.pwr with ownerOp := some { release := true, failCode := 0 } } ∧
      t.mem = s.mem ∧ (t.dep.jobs = [] ∧ t.dep.waits = [] ∧ t.dep.allocs = [] ∧ t.dep.descs = [] ∧ t.dep.graphs = []) ∧
      (t.jnl.lotRing = [] ∧ t.jnl.respLog = []) ∧ t.port.sessions = [] ∧ t.port.outs = [] ∧ t.port.mgmt = [] ∧
      t.port.mgmtQueue = [] ∧ t.port.inService = false)) ∧
  (∀ s : State,
    (s.pwr.ownerOp = none → exec .ownerOpDone s = .next s) ∧
    ∀ op, s.pwr.ownerOp = some op →
      (op.release = false → op.failCode = 0 → ∃ t slots, exec .ownerOpDone s = .next t ∧
        slots = (if s.pwr.ownerLost then s.pwr.ownerSlots else s.pwr.ownerSlots ++ [{ digest := keysDigest op.keys, released := false }]) ∧
        t.pwr.ownerSlots = slots ∧ t.pwr.ownerLost = false ∧ t.pwr.ownerOp = none ∧
        OwnerSections (ownerBlock (slots.length - 1) op.keys) s t ∧ t.port = { s.port with mgmt := [], held := none } ∧
        BitSet (imgBase + Flag.img_OWNER_DONE.1) Flag.img_OWNER_DONE.2 t ∧ RegsBut [imgBase + Flag.img_OWNER_DONE.1] s t ∧
        SameBut [.regs, .nor, .owner, .mgmt] s t) ∧
      (op.release = false → op.failCode ≠ 0 → ∃ t, exec .ownerOpDone s = .next t ∧ t.pwr = { s.pwr with ownerOp := none } ∧
        BitSet (imgBase + Flag.img_FAIL.1) Flag.img_FAIL.2 t ∧ bitField (rawReg t (imgBase + 0x28)).toNat 5 3 = op.failCode % 8 ∧
        RegsBut [imgBase + 0x28, imgBase + Flag.img_FAIL.1] s t ∧ SameBut [.regs, .owner] s t) ∧
      (op.release = true → ∃ t z kind, exec .ownerOpDone s = .next t ∧ WarmStarted kind z t ∧ kind < 4 ∧
        SameBut [.regs, .mem, .nor, .owner] s z ∧ (∀ a, a < Config.coreBase → loadByte t.mem a = loadByte [] a) ∧
        (∀ b, NorHolds b offOwner (List.replicate sectionBytes 0xFF) t) ∧
        (∀ x, s.pwr.ownerSlots.getLast? = some x → t.pwr.ownerSlots = s.pwr.ownerSlots.dropLast ++ [{ x with released := true }]))) ∧
  (∀ (s : State) (v : Word), let may := v.getLsbD 0 = true ∧ s.pwr.att = none ∧ deputyRuns s = true
    (¬ may → exec (.go v) s = .next s) ∧
    (may → ∃ nonce, nonce.length = 8 ∧ (∀ i < 8, nonce[i]? = some (rawReg s (imgBase + 0x30 + 4 * i))) ∧ exec (.go v) s =
      .next { s with pwr := { s.pwr with att := some { nonce := nonce, time := s.clk.now }, attReady := false } }) ∧
    (s.pwr.att = none → exec .attestationReady s = .next s) ∧
    (∀ op, s.pwr.att = some op → ∃ report, (op.nonce.length = 8 → report.length = 3696) ∧
      (op.nonce.length = 8 → sliceBytes report 0x100 32 = wordBytes op.nonce) ∧ leAt report 0 4 = 0x54535441 ∧
      exec .attestationReady s = .next { s with pwr := { s.pwr with att := none, attReady := true, attReport := report } }))

/-- The receive filters of every row that carries a frame, and RX_FRAME_ERROR: nothing is received without the link and its
clock; a frame of a wrong size, a wrong FCS or an uncorrectable codeword, or one that no filter keeps is counted and
discarded, and so are the codewords that FEC corrected or could not, and a second end of a frame in one cycle (R280, R281,
R292). ARP_REQUEST and NEIGHBOR_SOLICITATION for the module's address are answered (R282); PFC_FRAME sets the pauses of
the priorities it enables, and PAUSE_EXPIRY ends one (R303); PAUSE_FRAME is discarded and counted (R304). FRAME_TRANSMIT
sends the first of the frames that may go: by class, and among data by dry time and session (R302). LINK_UP takes a mode
that the image allows, from step 9 on, and LINK_DOWN sets its flag (R278, R279, R308). -/
def Obligations.Frames : Prop :=
  (∀ (s : State) (c : Instr) (f : RxFrame) (kept : Bool), frameOf s c = some (f, kept) →
    (portLive s = false → exec c s = .next s) ∧
    (portLive s = true → ¬ (64 ≤ f.size ∧ f.size ≤ 9216) → ∃ t, exec c s = .next t ∧ Counts [pc Ctr.PORT_SIZE_ERR_CNT] [] (frameEnds s f) t) ∧
    (portLive s = true → 64 ≤ f.size → f.size ≤ 9216 → f.fcsOk = false ∨ f.fecBad ≠ 0 →
      ∃ t, exec c s = .next t ∧ Counts [pc Ctr.PORT_FCS_ERR_CNT] [] (frameEnds s f) t) ∧
    (Received s f → kept = false → ∃ t, exec c s = .next t ∧ Counts [pc Ctr.PORT_RX_FRAME_CNT, pc Ctr.PORT_FILTER_DROP_CNT] [] (frameEnds s f) t) ∧
    (Received s f → kept = true → c = .rxFrameError f → exec c s = .next s)) ∧
  (∀ (s : State) (f : RxFrame), let t := frameEnds s f
    Counted (pc Ctr.PORT_FEC_CORR_CNT) f.fecFixed s t ∧ Counted (pc Ctr.PORT_FEC_UNCORR_CNT) f.fecBad s t ∧
    Counted (pc Ctr.PORT_TWO_END_CNT) (if f.sameCycle then 1 else 0) s t ∧
    (0 < f.fecBad → BitSet (pf Flag.port_FEC_UNCORR).1 (pf Flag.port_FEC_UNCORR).2 t) ∧
    RegsBut [pc Ctr.PORT_FEC_CORR_CNT, pc Ctr.PORT_FEC_UNCORR_CNT, pc Ctr.PORT_TWO_END_CNT, (pf Flag.port_FEC_UNCORR).1] s t ∧
    SameBut [.regs] s t) ∧
  (∀ (s : State) (f : RxFrame) (a : Nat), Received s f →
    (frameOf s (.arpRequest f a) = some (f, true) →
      (a = ownIp4 s → ∃ t, exec (.arpRequest f a) s = .next t ∧ Answers (addressAnswer s f (.arp a)) (frameEnds s f) t) ∧
      (a ≠ ownIp4 s → ∃ t, exec (.arpRequest f a) s = .next t ∧ Counts [pc Ctr.PORT_RX_FRAME_CNT] [] (frameEnds s f) t)) ∧
    (frameOf s (.neighborSolicitation f a) = some (f, true) → ∃ t, exec (.neighborSolicitation f a) s = .next t ∧
      Answers (addressAnswer s f (.neighbor a)) (frameEnds s f) t) ∧
    (frameOf s (.pauseFrame f) = some (f, true) → ∃ t, exec (.pauseFrame f) s = .next t ∧
      Counts [pc Ctr.PORT_RX_FRAME_CNT, pc Ctr.PORT_PAUSE_DROP_CNT] [] (frameEnds s f) t) ∧
    (∀ (op : Nat) (enable : Byte) (times : List Nat), frameOf s (.pfcFrame f op enable times) = some (f, true) →
      let c := Instr.pfcFrame f op enable times
      (op = 0x0101 ∧ enable ≠ 0 → ∃ t z, exec c s = .next t ∧ SameBut [.port] (frameEnds s f) z ∧
        (∀ k < 8, tget z.port.paused 0 k = if enable.getLsbD k then times.getD k 0 % 65536 else tget s.port.paused 0 k) ∧
        Counts [pc Ctr.PORT_RX_FRAME_CNT, pc Ctr.PORT_PFC_RX_CNT] [pf Flag.port_PFC_RX] z t) ∧
      (¬ (op = 0x0101 ∧ enable ≠ 0) → ∃ t, exec c s = .next t ∧ Counts [pc Ctr.PORT_RX_FRAME_CNT] [] (frameEnds s f) t))) ∧
  (∀ s : State,
    (∀ k : Fin 8, ∃ t, exec (.pauseExpiry k) s = .next t ∧ tget t.port.paused 0 k.val = 0 ∧
      (∀ j, j ≠ k.val → tget t.port.paused 0 j = tget s.port.paused 0 j) ∧ SameBut [.port] s t) ∧
    (portLive s = false ∨ (∀ i f, ¬ MaySend s i f) → exec .frameTransmit s = .next s) ∧
    (portLive s = true → (∃ i f, MaySend s i f) → ∃ t i f, exec .frameTransmit s = .next t ∧ MaySend s i f ∧
      (∀ j g, MaySend s j g → j ≠ i → SentBefore f g i j) ∧
      t.port = { s.port with txQueue := s.port.txQueue.eraseIdx i, lastTx := some f } ∧ Counted (pc Ctr.PORT_TX_FRAME_CNT) 1 s t ∧
      RegsBut [pc Ctr.PORT_TX_FRAME_CNT] s t ∧ SameBut [.regs, .txQueue, .port] s t)) ∧
  (∀ s : State,
    (∀ m : Fin 8, let may := s.port.linkUp = false ∧ linkPhase s = true ∧ isLiveDom s .pclk = true ∧ ModeFits s m.val
      (¬ may → exec (.linkUp m) s = .next s) ∧
      (may → exec (.linkUp m) s = .next { s with port := { s.port with linkUp := true, mode := m.val } })) ∧
    (s.port.linkUp = false → exec .linkDown s = .next s) ∧
    (s.port.linkUp = true → ∃ t, exec .linkDown s = .next t ∧ t.port = { s.port with linkUp := false, mode := 0 } ∧
      BitSet (pf Flag.port_LINK_DOWN).1 (pf Flag.port_LINK_DOWN).2 t ∧ RegsBut [(pf Flag.port_LINK_DOWN).1] s t ∧
      SameBut [.regs, .port] s t))

/-- The packets of the inter-module link. A packet of another type than its row's, or of no session of its sender, is counted
and dropped; one whose CRC32C fails is counted, and DATA or CLOSE in sequence is rewound and leads to a NAK; a PSN behind
is counted as a duplicate and acknowledged, one ahead is a gap and leads to a NAK (R289, R291, R294, R295). DATA in
sequence completes lots, whose journal writes begin, or goes to its chute, and CLOSE marks it (R290, R292, R296). ACK and
NAK acknowledge the packets before their PSN and bring grants; a NAK, RETRANSMIT_TIMEOUT or a packet's 16th sending leads
to what R299 says; TAIL closes; RESET restarts a CHUTE session once both ends have sent and received it (R297 to R300).
LOT_ACCEPT accepts the oldest stored lot and acknowledges it, RESPONSE_SEND sends what the peer's window covers, and
NAK_REPEAT, RESYNC_NAK and CHUTE_RESET_RETRY repeat theirs (R294, R296, R297, R300, R301). -/
def Obligations.IltPackets : Prop :=
  (∀ (s : State) (f : RxFrame) (p : IltPacket), Received s f → udpTo s f s.pwr.config.iltPort = true →
    ∀ c ∈ iltRows f p, p.type.toNat ≠ c.1 → PacketDrops c.2 f s) ∧
  (∀ (s : State) (f : RxFrame) (p : IltPacket), ∀ c ∈ seqRows f p, IltArrives s f p c.1 → let z := arrived s f
    (rxSession s p = none → PacketDrops c.2 f s) ∧
    ∀ i, rxSession s p = some i → let x := getSession s i
      let lots := x.kind != .chute
      let data := decide (c.1 = 1)
      (iltCrcOk p = false → ∃ t y, exec c.2 s = .next t ∧ CrcCounts f s y ∧ Rewound i p data y t) ∧
      (iltCrcOk p = true → headerOk p lots = false → ∃ t y, exec c.2 s = .next t ∧
        Counts [pc Ctr.PORT_RX_FRAME_CNT, pc Ctr.PORT_FILTER_DROP_CNT] [] (frameEnds s f) y ∧ Rewound i p data y t) ∧
      (iltCrcOk p = true → headerOk p lots = true → lengthOk p = false → ∃ t, exec c.2 s = .next t ∧ Rewound i p data z t) ∧
      (SoundIlt p lots → p.psn ≠ x.expPsn → 2 ^ 31 ≤ (p.psn - x.expPsn).toNat → ∃ t y, exec c.2 s = .next t ∧
        Counts [pc Ctr.PORT_RX_FRAME_CNT, pc Ctr.PORT_DUP_PKT_CNT] [] (frameEnds s f) y ∧ AckSent i y t) ∧
      (SoundIlt p lots → p.psn ≠ x.expPsn → (p.psn - x.expPsn).toNat < 2 ^ 31 → ∃ t y, exec c.2 s = .next t ∧
        Counts [pc Ctr.PORT_RX_FRAME_CNT, pc Ctr.PORT_SEQ_GAP_CNT] [pf Flag.port_SEQ_GAP] (frameEnds s f) y ∧ NakUnless i 1 y t)) ∧
  (∀ (s : State) (f : RxFrame) (p : IltPacket) (i : Nat), rxSession s p = some i → let x := getSession s i
    let z := arrived s f
    let ep : EndpointId := .hub (Fin.ofNat 2048 i)
    SoundIlt p (x.kind != .chute) → p.psn = x.expPsn →
    (IltArrives s f p 6 → ∃ t y u, exec (.close f p) s = .next t ∧ (epWorks z ep = true → exec (.closeMark ep) z = .next y) ∧
      SameBut [.regs, .chutes] z y ∧ SessionIs i (committedPsn x) y u ∧ AckSent i u t) ∧
    (IltArrives s f p 1 → x.kind = .lot → s.port.inService = false → ∃ t u v w, exec (.data f p) s = .next t ∧
      Counts [hc i Ctr.CH_REWIND_CNT] [(hc i Flag.ch_REWIND.1, Flag.ch_REWIND.2)] z u ∧
      Counts [hc i Ctr.CH_OVERCREDIT_CNT] [(hc i Flag.ch_OVERCREDIT.1, Flag.ch_OVERCREDIT.2)] u v ∧
      Counts [pc Ctr.PORT_OVERCREDIT_CNT] [pf Flag.port_OVERCREDIT] v w ∧ NakUnless i 3 w t) ∧
    (IltArrives s f p 1 → x.kind ≠ .lot ∨ s.port.inService = true → let q := bankPacket x p
      let r := arrive (getEp s ep) q true s.clk.now
      ∃ y, EpIs ep r.1 z y ∧ RegsAs (countArrival z ep q r.2) y ∧ SameBut [.regs, .chutes] z y ∧
        (r.2.committed = true → ∃ t u v, exec (.data f p) s = .next t ∧ SessionIs i (committedPsn x) y u ∧
          v = (if x.kind = .chute then u else lotPacket u i p) ∧ AckSent i v t) ∧
        (r.2.committed = false → r.2.overcredit = true → ∃ t v, exec (.data f p) s = .next t ∧
          Counts [pc Ctr.PORT_OVERCREDIT_CNT] [pf Flag.port_OVERCREDIT] y v ∧ NakUnless i 3 v t) ∧
        (r.2.committed = false → r.2.overcredit = false → ∃ t, exec (.data f p) s = .next t ∧ NakUnless i 2 y t))) ∧
  (∀ (s : State) (i : Nat) (p : IltPacket), let x := getSession s i
    let t := lotPacket s i p
    let err := fun y u => Counts [pc Ctr.PORT_LOT_ERR_CNT] [pf Flag.port_LOT_ERR] y u
    (lotFirst p = true → lotLast p = false → x.rxOpen = false → SessionIs i { x with
      rxOpen := true, rxLsn := p.lsn, rxLen := p.arg0.toNat, rxBytes := p.payload, rxBad := false } s t) ∧
    (lotFirst p = false → lotLast p = false → x.rxOpen = true →
      SessionIs i { x with rxBytes := x.rxBytes ++ p.payload, rxBad := x.rxBad || p.lsn != x.rxLsn } s t) ∧
    (lotFirst p = false → x.rxOpen = false → (lotLast p = false → t = s) ∧ (lotLast p = true → err s t)) ∧
    (∀ lsn len bytes bad, LotEnd x p lsn len bytes bad → let w := { x with rxOpen := false, rxBytes := [] }
      let again := (x.accLsn + BitVec.ofNat 32 x.lots.length - lsn).toNat < 2 ^ 31
      (bad = true → ∃ y, SessionIs i w s y ∧ err y t) ∧
      (bad = false → again → ∃ y v, SessionIs i w s y ∧ Counts [pc Ctr.PORT_DUP_LOT_CNT] [pf Flag.port_DUP_LOT] y v ∧ AckSent i v t) ∧
      (bad = false → ¬ again → ¬ LotGood x lsn len bytes → ∃ y, SessionIs i w s y ∧ err y t) ∧
      (bad = false → LotGood x lsn len bytes → let b := bytes.take len
        ∃ y, SessionIs i { w with lots := x.lots ++ [{ lsn := lsn, bytes := b, psnAfter := p.psn + 1, write := s.jnl.nextId }] } s y ∧
          (x.kind ≠ .lot → t = y) ∧ (x.kind = .lot → LotWritten i lsn (p.psn + 1) b y t)))) ∧
  (∀ (s : State) (f : RxFrame) (p : IltPacket), ∀ c ∈ sendRows f p, IltArrives s f p c.1 →
    let mine := outSession s f p ≠ none ∨ ∃ i, FromPeer s f p i
    (¬ mine → PacketDrops c.2 f s) ∧
    (mine → iltCrcOk p = false → ∃ t, exec c.2 s = .next t ∧ CrcCounts f s t) ∧
    (mine → iltCrcOk p = true → ¬ (headerOk p true = true ∧ lengthOk p = true) → PacketDrops c.2 f s)) ∧
  (∀ (s : State) (f : RxFrame) (p : IltPacket) (i : Nat), outSession s f p = none → FromPeer s f p i → SoundIlt p true →
    let z := arrived s f
    let x := getSession s i
    ∃ y rest, Acked p.psn x.unacked rest ∧ SessionIs i { x with unacked := rest } z y ∧
      let w := drainAll (releaseGrants (leaveLog y i))
      (IltArrives s f p 2 → exec (.ack f p) s = .next w) ∧ (IltArrives s f p 3 → exec (.nak f p) s = .next (retransmit w i p.psn)) ∧
      (IltArrives s f p 4 → PacketDrops (.tail f p) f s)) ∧
  (∀ (s : State) (f : RxFrame) (p : IltPacket) (k : Nat) (o : OutSession), outSession s f p = some k → s.port.outs[k]? = some o →
    SoundIlt p true → let z := arrived s f
    (∃ rest, Acked p.psn o.unacked rest ∧ let y := pumpOut (withOut z k { o with unacked := rest, grants := p.arg0 }) k
      (IltArrives s f p 2 → exec (.ack f p) s = .next (if o.kind = .mirror then mirrorAcked y p.arg1 else y)) ∧
      (IltArrives s f p 3 → exec (.nak f p) s = .next (retransmitOut y k p.psn))) ∧
    (IltArrives s f p 4 → exec (.tail f p) s = .next (pumpOut (withOut z k { o with
      grants := p.arg0
      waiting := o.waiting ++ [closeOf o]
      txPsn := o.txPsn + 1 }) k))) ∧
  (∀ (s : State) (k : Nat) (o : OutSession), s.port.outs[k]? = some o →
    (¬ (o.stage = .open_ ∧ o.resetSent = 0) → pumpOut s k = s) ∧
    (o.stage = .open_ → o.resetSent = 0 → ∃ sent rest, o.waiting = sent ++ rest ∧
      (∀ d w, rest = d :: w → outCredit (sent.foldl outSend o) d = false) ∧
      (sent.foldl outSend o).unacked = o.unacked ++ sent.map (fun d => { d with sends := 1 }) ∧
      (pumpOut s k).port = { s.port with
        outs := s.port.outs.set k { sent.foldl outSend o with waiting := rest }
        txQueue := s.port.txQueue ++ sent.map (outData s o (undatedDry s)) } ∧ SameBut [.txQueue, .outs] s (pumpOut s k)) ∧
    (∀ psn, ((∀ d ∈ o.unacked, psnOld d.psn psn = true) → retransmitOut s k psn = s) ∧
      (∀ d w, o.unacked.filter (fun d => !psnOld d.psn psn) = d :: w →
        (d.sends < 16 → OutResent k psn o s (retransmitOut s k psn)) ∧
        (16 ≤ d.sends → o.kind = .mirror → let t := retransmitOut s k psn
          t.jnl = { s.jnl with mirror := .lost } ∧ BitSet (depBase + Flag.dep_MIRROR_LOST.1) Flag.dep_MIRROR_LOST.2 t ∧
          SameBut [.regs, .jnl] s t) ∧
        (16 ≤ d.sends → o.kind ≠ .mirror → retransmitOut s k psn = abortWork s [] [(o.graph, o.edge)])))) ∧
  (∀ (s : State) (i : Nat) (psn : Word), let x := getSession s i
    ((∀ d ∈ x.unacked, psnOld d.psn psn = true) → retransmit s i psn = s) ∧
    (∀ d w, x.unacked.filter (fun d => !psnOld d.psn psn) = d :: w → d.sends < 16 → Resent i psn s (retransmit s i psn))) ∧
  (∀ (s : State) (f : RxFrame) (p : IltPacket), IltArrives s f p 8 → let c := Instr.reset f p
    let z := arrived s f
    (outSession s f p = none → (∀ i, rxSession s p = some i → (getSession s i).kind ≠ .chute) → PacketDrops c f s) ∧
    (∀ i, outSession s f p = none → rxSession s p = some i → (getSession s i).kind = .chute → let x := getSession s i
      let ep : EndpointId := .hub (Fin.ofNat 2048 i)
      (iltCrcOk p = false → ∃ t, exec c s = .next t ∧ CrcCounts f s t) ∧
      (iltCrcOk p = true → ¬ (headerOk p true = true ∧ lengthOk p = true) → PacketDrops c f s) ∧
      (SoundIlt p true → 0 < x.resetSent → ∃ t, exec c s = .next t ∧ Resumes i x s t ∧ SameBut [.sessions, .chutes] z t) ∧
      (SoundIlt p true → x.resetSent = 0 → chutesAt s ep = [] → ∃ t, exec c s = .next t ∧
        getSession t i = resumed { x with rxOpen := false, rxBytes := [] } ∧ (∀ j, j ≠ i → getSession t j = getSession s j) ∧
        EpIs ep (resetEndpoint (resetEndpoint (getEp s ep))) s t ∧ t.port.txQueue = s.port.txQueue ++ [controlOf s i 8 0 0] ∧
        SameBut [.regs, .txQueue, .sessions, .chutes] s t) ∧
      (SoundIlt p true → x.resetSent = 0 → chutesAt s ep ≠ [] → ∃ y, y = abortWork z [] (chutesAt s ep) ∧
        exec c s = .next (resumeSession (setSession y i { getSession y i with resetSeen := true }) i))) ∧
    (∀ k o, outSession s f p = some k → s.port.outs[k]? = some o →
      (iltCrcOk p = false → ∃ t, exec c s = .next t ∧ CrcCounts f s t) ∧
      (iltCrcOk p = true → ¬ (headerOk p true = true ∧ lengthOk p = true ∧ o.kind = .chute) → PacketDrops c f s) ∧
      (SoundIlt p true → o.kind = .chute → 0 < o.resetSent → exec c s = .next (withOut z k (resumedOut o))) ∧
      (SoundIlt p true → o.kind = .chute → o.resetSent = 0 → exec c s =
        .next (updOut (abortWork z [] [(o.graph, o.edge)]) k fun o => resumeOut { o with resetSeen := true })))) ∧
  (∀ (s : State) (n : Fin 2048), let i := n.val
    let x := getSession s i
    (∀ l rest, x.lots = l :: rest → x.kind = .lot → l.stored = true → let cmds := lotCommands n l.lsn s.clk.now l.bytes
      ∃ y u v, SessionIs i { x with lots := rest, accLsn := l.lsn, accPsn := l.psnAfter, backlog := x.backlog ++ cmds } s y ∧
        u.jnl.lotRing = reclaimLots (s.jnl.lotRing.map fun r =>
          if r.piece = none ∧ r.session = i ∧ r.lsn = l.lsn ∧ r.dead = 0 then
            { r with accepted := true, tAccept := s.clk.now, commands := cmds.length, retired := cmds.length == 0 } else r) ∧
        SameBut [.lotRing] y u ∧ AckSent i u v ∧ exec (.lotAccept n) s = .next (drainAll v)) ∧
    (x.lots = [] ∨ x.kind ≠ .lot ∨ (∃ l rest, x.lots = l :: rest ∧ l.stored = false) → exec (.lotAccept n) s = .next s) ∧
    (x.kind ≠ .lot ∨ nextResponse s i = none → exec (.responseSend n) s = .next s) ∧
    (∀ r, x.kind = .lot → nextResponse s i = some r →
      let l := (chunkMessage r.ctx.lsn r.psn r.ctx.index r.bytes).drop (x.sendPsn - r.psn).toNat
      ∃ t m, exec (.responseSend n) s = .next t ∧ m ≤ l.length ∧
        t.port.txQueue = s.port.txQueue ++ (l.take m).map (responseFrame s i) ∧
        getSession t i = { x with
          unacked := x.unacked ++ (l.take m).map (fun d => { d with sends := 1 })
          sendPsn := x.sendPsn + BitVec.ofNat 32 m } ∧ (∀ j, j ≠ i → getSession t j = getSession s j) ∧
        (m ≠ 0 → unackedBytes (getSession t i) ≤ x.respWindow) ∧
        (∀ d, l[m]? = some d → x.respWindow < unackedBytes (getSession t i) + d.bytes.length) ∧ SameBut [.txQueue, .sessions] s t) ∧
    (∀ d w, NoneSends s i → x.kind = .lot → x.unacked = d :: w → d.sends < 16 →
      ∃ t, exec (.retransmitTimeout n) s = .next t ∧ Resent i d.psn s t) ∧
    (NoneSends s i → x.kind ≠ .lot ∨ x.unacked = [] → exec (.retransmitTimeout n) s = .next s) ∧
    (∀ k o, OnlySends s i k o → x.kind ≠ .lot →
      (∀ d w, o.unacked = d :: w → exec (.retransmitTimeout n) s = .next (retransmitOut s k d.psn)) ∧
      (o.unacked = [] → exec (.retransmitTimeout n) s = .next s)) ∧
    (let due := x.kind ≠ .free ∧ x.nakAt ≠ none ∧ x.resync = false;
      (due → ∃ t, exec (.nakRepeat n) s = .next t ∧ NakSent i x.nakReason s t) ∧ (¬ due → exec (.nakRepeat n) s = .next s)) ∧
    (let due := x.kind = .lot ∧ x.resync = true ∧ x.resyncs < 16;
      (due → ∃ t y, exec (.resyncNak n) s = .next t ∧ SessionIs i { x with resyncs := x.resyncs + 1 } s y ∧ NakSent i 4 y t) ∧
      (¬ due → exec (.resyncNak n) s = .next s)) ∧
    (let due := x.kind = .chute ∧ 0 < x.resetSent ∧ x.resetSent < 16 ∧ x.resetSeen = false;
      (NoneSends s i → due → ∃ t y, exec (.chuteResetRetry n) s = .next t ∧
        SessionIs i { x with resetSent := x.resetSent + 1 } s y ∧ t.port.txQueue = s.port.txQueue ++ [controlOf s i 8 0 0] ∧
        SameBut [.txQueue] y t) ∧
      (NoneSends s i → ¬ due → exec (.chuteResetRetry n) s = .next s) ∧
      (∀ k o, OnlySends s i k o → ¬ due → let again := 0 < o.resetSent ∧ o.resetSent < 16 ∧ o.resetSeen = false
        (again → exec (.chuteResetRetry n) s = .next (pushTx (withOut s k { o with resetSent := o.resetSent + 1 })
          (outFrame s o .control 8 0 0 0 0 0 [] s.clk.now))) ∧
        (¬ again → exec (.chuteResetRetry n) s = .next s))))

/-- JOURNAL_WRITE_DONE: a write that every live copy holds is acted on, in a twin field only once the twin has acknowledged
it; of one that failed, a lot and those behind it are not accepted, a response and a commit step are written again (R345,
R354). MIRROR_ACK acknowledges every record up to its LSN, MIRROR_RECORD stores the oldest lot of the MIRROR session and
acknowledges it, and a retirement frees what it names (R354). HELLO_RESPONSE and OPEN_RESPONSE carry a session that the
module opens on to its OPEN and to its grants or failure, MIRROR_REOPEN and RESTORE_RETRY begin the MIRROR session again
(R286, R287, R355, R356). JOURNAL_RESTORE takes the twin's records in and leaves every granule of every host allocation
void (R356). JOURNAL_REPLAY applies pieces again, executes again the commands that are not done and have no response in
the log, and sends the first NAK of each LOT session (R301, R353). That the two initial grants of a MIRROR session count
like any session's is the model's reading (log entry 34). -/
def Obligations.JournalAndMirror : Prop :=
  (∀ (s : State) (id : Nat) (ok0 ok8 : Bool), let c := Instr.journalWriteDone id ok0 ok8
    ((∀ w ∈ s.jnl.pendingWrites, w.id ≠ id) → exec c s = .next s) ∧
    (∀ w, s.jnl.pendingWrites.find? (fun w => w.id == id) = some w →
      let z := withWrites s (s.jnl.pendingWrites.filter fun x => x.id != id)
      (CopiesHold s ok0 ok8 →
        exec c s = .next (actWrites (withWrites s (s.jnl.pendingWrites.map fun x => if x.id = id then { x with local_ := true } else x)))) ∧
      (∀ i lsn, ¬ CopiesHold s ok0 ok8 → w.use = .lot i lsn → let x := getSession s i
        ∃ t y, exec c s = .next t ∧ SessionIs i { x with lots := x.lots.takeWhile fun l => l.lsn != lsn } z y ∧ SameBut [.lotRing] y t ∧
          t.jnl.lotRing = reclaimLots (s.jnl.lotRing.map fun r =>
            if unwritten i (x.lots.dropWhile fun l => l.lsn != lsn) r then { r with retired := true } else r)) ∧
      (∀ i lsn index, ¬ CopiesHold s ok0 ok8 → w.use = .response i lsn index →
        let mine := fun r : Response => sameCmd r.ctx i lsn index && !r.left;
        (∀ r, s.jnl.respLog.find? mine = some r → ∃ t v, exec c s = .next t ∧ t.jnl.pendingWrites = z.jnl.pendingWrites ++ [v] ∧
          v.id = s.jnl.nextId ∧ v.use = w.use ∧ v.local_ = false ∧ v.mirrorLsn.isSome = s.pwr.config.twin ∧
          SameBut [.jnl, .txQueue, .outs] s t) ∧
        ((∀ r ∈ s.jnl.respLog, mine r = false) → exec c s = .next z)) ∧
      (∀ job node task k, ¬ CopiesHold s ok0 ok8 → w.use = .piece job node task k →
        exec c s = .next (if k % 2 = 0 then retirePiece z (job, node, task, k / 2) else commitWrite z job node task k 0 [])))) ∧
  (∀ y : State,
    ((∀ w ∈ y.jnl.pendingWrites, ActsNow w = false) → actWrites y = y) ∧
    (∀ w, y.jnl.pendingWrites.filter ActsNow = [w] → let z := withWrites y (y.jnl.pendingWrites.filter fun x => !ActsNow x)
      let t := actWrites y
      (∀ i lsn, w.use = .lot i lsn → let x := getSession y i
        SessionIs i { x with lots := x.lots.map fun l => if l.lsn = lsn then { l with stored := true } else l } z t) ∧
      (∀ i lsn index, w.use = .response i lsn index → t = drainAll (responseWritten z i lsn index)) ∧
      (∀ job node task k, w.use = .piece job node task k → (findScatter y job node task = none → t = z) ∧
        ∀ b, findScatter y job node task = some b → k % 2 = 1 →
          t = mirrorNote (retirePiece (putScatter z { b with done := k / 2 + 1 }) (job, node, task, k / 2)) .retire
            (pieceKey job node task (k - 1)) []))) ∧
  (∀ (s : State) (lsn : Word), (s.pwr.config.twin = false → exec (.mirrorAck lsn) s = .next s) ∧
    (s.pwr.config.twin = true → ∃ y, exec (.mirrorAck lsn) s = .next (actWrites y) ∧
      y = { s with jnl := { s.jnl with
        pendingWrites := s.jnl.pendingWrites.map fun w =>
          if ∃ l, w.mirrorLsn = some l ∧ (lsn - l).toNat < 2 ^ 31 then { w with mirrorLsn := none } else w
        unmirrored := s.jnl.unmirrored.filter fun r => decide (2 ^ 31 ≤ (lsn - r.lsn).toNat) } })) ∧
  (∀ (s : State) (r : MirrorRecord), let c := Instr.mirrorRecord r
    ((∀ e ∈ s.port.sessions, e.2.kind ≠ .mirror) → exec c s = .next s) ∧
    (∀ i, mirrorSession s = some i → let x := getSession s i
      ((∀ l, x.lots.head? = some l → l.lsn ≠ r.lsn) → exec c s = .next s) ∧
      (∀ l rest, x.lots = l :: rest → l.lsn = r.lsn → ∃ t y u, exec c s = .next t ∧
        SessionIs i { x with
          lots := rest
          accLsn := r.lsn
          accPsn := l.psnAfter } s y ∧ SameBut [.jnl] y u ∧ AckSent i u t ∧
        (r.kind ≠ .retire → u.jnl.mirrorStore = s.jnl.mirrorStore ++ [r]) ∧
        (r.kind = .retire → let lot := r.key % 2 ^ 64 = 2 ^ 63 ∧ r.key < 2 ^ 256
          (lot → u.jnl.mirrorStore = s.jnl.mirrorStore.filter fun q => q.kind == .table || q.key / 2 ^ 64 != r.key / 2 ^ 64) ∧
          (¬ lot → u.jnl.mirrorStore = (s.jnl.mirrorStore.filter fun q => q.kind == .table || q.key != r.key) ++ [r]))))) ∧
  (∀ (s : State) (k : Nat) (nonce : BitVec 128),
    ((∀ o, s.port.outs[k]? = some o → o.stage ≠ .hello) → exec (.helloResponse k nonce) s = .next s) ∧
    (∀ o, s.port.outs[k]? = some o → o.stage = .hello → ∃ t, exec (.helloResponse k nonce) s = .next t ∧
      t.port.outs = s.port.outs.set k { o with
        stage := .opening
        nonce := nonce } ∧
      t.port.txQueue = s.port.txQueue ++ [outMgmt s o 2 (openBody s o nonce)] ∧ SameBut [.txQueue, .outs] s t)) ∧
  (∀ (s : State) (k : Nat) (a : OpenAnswer), let c := Instr.openResponse k a
    ((∀ o, s.port.outs[k]? = some o → o.stage ≠ .opening) → exec c s = .next s) ∧
    (∀ o, s.port.outs[k]? = some o → o.stage = .opening →
      (a.status ≠ 0 → exec c s = .next (withOut s k { o with
        stage := .failed
        status := a.status })) ∧
      (a.status = 0 → o.kind ≠ .mirror → exec c s = .next (withOut s k (openedOut o a))) ∧
      (a.status = 0 → o.kind = .mirror → ∃ y, y.jnl = { s.jnl with
          mirror := if s.jnl.mirror = .restoring then .restoring else .up } ∧ y.port = { s.port with
          outs := s.port.outs.set k (openedOut o a) } ∧ SameBut [.jnl, .outs] s y ∧
        exec c s = .next (releaseGrants (y.jnl.unmirrored.foldl sendMirror y))))) ∧
  (∀ s : State, (s.jnl.mirror = .lost → ∃ t, exec .mirrorReopen s = .next t ∧ MirrorBegins s t) ∧
    (s.jnl.mirror ≠ .lost → exec .mirrorReopen s = .next s) ∧
    (s.jnl.mirror = .restoring → ∃ t, exec .restoreRetry s = .next t ∧ MirrorBegins s t) ∧
    (s.jnl.mirror ≠ .restoring → exec .restoreRetry s = .next s)) ∧
  (∀ (s : State) (l : List MirrorRecord), let c := Instr.journalRestore l
    (s.jnl.mirror ≠ .restoring → exec c s = .next s) ∧
    (s.jnl.mirror = .restoring → ∃ t, exec c s = .next t ∧ t.jnl.mirror = .up ∧
      (∀ a ∈ t.dep.allocs, a.base % 4096 = 0 → ∀ k, k < a.size / 4096 → isVoid t (a.base / 4096 + k) = true) ∧
      (l = [] → t.jnl.lotRing = reclaimLots s.jnl.lotRing ∧ t.jnl.respLog = s.jnl.respLog ∧ t.dep.allocs = s.dep.allocs ∧
        t.dep.descs = s.dep.descs ∧ t.dep.graphs = s.dep.graphs) ∧
      SameBut [.regs, .allocs, .descs, .graphs, .jobs, .voids, .dep, .respLog, .lotRing, .jnl, .txQueue, .sessions, .outs, .arrays,
        .cores, .hoists, .scatters, .chutes] s t)) ∧
  (∀ (s : State) (r : MirrorRecord), r.kind = .lot → let i := leAt r.bytes 4 2
    let t := restoreRecord s r
    let lsn : Word := BitVec.ofNat 32 (leAt r.bytes 8 4)
    let psn : Word := BitVec.ofNat 32 (leAt r.bytes 12 4)
    t.jnl.mirrorLsn = r.lsn ∧ getSession t i = { getSession s i with
      accLsn := lsn
      accPsn := psn
      expPsn := psn } ∧ (∀ j, j ≠ i → getSession t j = getSession s j) ∧
    (∃ q, t.jnl.lotRing = s.jnl.lotRing ++ [q] ∧ q.session = i ∧ q.lsn = lsn ∧ q.psnAfter = psn ∧ q.tAccept = leAt r.bytes 24 8 ∧
      q.bytes = r.bytes.drop 64 ∧ q.accepted = true ∧ q.retired = false ∧ q.done = []) ∧ SameBut [.lotRing, .jnl, .sessions] s t) ∧
  (∀ s : State, let due := s.pwr.phase = .step 10 ∧ s.dep.replayed = false ∧ s.jnl.mirror ≠ .restoring
    (¬ due → exec .journalReplay s = .next s) ∧
    (due → ∃ z u y, z = restartJobs (replaceGraphs (redoPieces s)) ∧ u = z.jnl.lotRing.foldl replayRecord z ∧
      exec .journalReplay s = .next (drainAll y) ∧ y.dep.replayed = true ∧ (s.pwr.warm = true → BitSet (depBase + Flag.dep_WARM_RESET.1) Flag.dep_WARM_RESET.2 y) ∧
      (∀ j ∈ y.dep.jobs, j.state = .held ∧ j.holdCause = 4) ∧ y.jnl = z.jnl ∧
      (∀ i, (getSession y i).kind = (getSession u i).kind ∧ (getSession y i).accPsn = (getSession u i).accPsn ∧
        (getSession y i).backlog = (getSession u i).backlog) ∧
      (∀ i, (getSession y i).kind = .lot → Resyncs (getSession y i)))) ∧
  (∀ (s : State) (r : LotRecord), let cs := undone s r
    (r.dead = 0 → ∃ y, Counted (depBase + Ctr.DEP_REPLAY_CNT) cs.length s y ∧ SameBut [.regs] s y ∧
      SessionIs r.session { getSession s r.session with backlog := (getSession s r.session).backlog ++ cs } y (replayRecord s r)) ∧
    (r.accepted = false ∨ r.piece ≠ none ∨ r.retired = true → cs = []) ∧
    (r.accepted = true → r.piece = none → r.retired = false → r.dead = 0 → ∀ c, c ∈ cs ↔
      c ∈ lotCommands (Fin.ofNat 2048 r.session) r.lsn r.tAccept r.bytes ∧ c.ctx.index ∉ r.done ∧
      ∀ x ∈ s.jnl.respLog, sameCmd x.ctx r.session r.lsn c.ctx.index = true → x.written = false))
end

