-- ==== Sys2Proof/Laws/Bytes.lean ====
section
/-! SUPPORT. Numbers laid out as bytes read back as themselves, at their offset in a longer run of bytes. -/

-- one theorem after the other: proofs side by side would need more memory than the check allows
set_option Elab.async false

namespace Sys2Proof.Machine

@[simp] theorem leBytes_length (n v : Nat) : (leBytes n v).length = n := by
  simp [leBytes]

@[simp] theorem beBytes_length (n v : Nat) : (beBytes n v).length = n := by
  simp [beBytes]

theorem leBytes_succ (n v : Nat) : leBytes (n + 1) v = BitVec.ofNat 8 v :: leBytes n (v / 256) := by
  simp only [leBytes, List.range_succ_eq_map, List.map_cons, List.map_map, Nat.pow_zero, Nat.div_one, List.cons.injEq,
    true_and]
  refine List.map_congr_left fun i _ => ?_
  simp only [Function.comp_apply, Nat.succ_eq_add_one]
  rw [Nat.pow_succ, Nat.mul_comm, ← Nat.div_div_eq_div_mul]

theorem leNat_leBytes (n v : Nat) : leNat (leBytes n v) = v % 256 ^ n := by
  induction n generalizing v with
  | zero => simp [leBytes, leNat, Nat.mod_one]
  | succ n ih =>
    rw [leBytes_succ]
    have e : leNat (BitVec.ofNat 8 v :: leBytes n (v / 256)) = v % 256 + 256 * leNat (leBytes n (v / 256)) := rfl
    rw [e, ih, Nat.pow_succ, Nat.mul_comm (256 ^ n) 256, Nat.mod_mul]

theorem beNat_append (a b : List Byte) : beNat (a ++ b) = beNat a * 256 ^ b.length + beNat b := by
  have h : ∀ (l : List Byte) (n : Nat), l.foldl (fun n b => 256 * n + b.toNat) n = n * 256 ^ l.length + beNat l := by
    intro l
    induction l with
    | nil => intro n; simp [beNat]
    | cons x r ih =>
      intro n
      have e : beNat (x :: r) = r.foldl (fun n b => 256 * n + b.toNat) (256 * 0 + x.toNat) := rfl
      rw [List.foldl_cons, ih, e, ih, List.length_cons, Nat.pow_succ, Nat.add_mul, Nat.mul_comm 256 n, Nat.mul_assoc,
        Nat.mul_comm (256 ^ r.length) 256, Nat.mul_zero, Nat.zero_add, Nat.add_assoc]
  rw [beNat, List.foldl_append, h]
  rfl

theorem beNat_reverse (l : List Byte) : beNat l.reverse = leNat l := by
  induction l with
  | nil => rfl
  | cons x r ih =>
    rw [List.reverse_cons, beNat_append, ih]
    have e : leNat (x :: r) = x.toNat + 256 * leNat r := rfl
    have e2 : beNat [x] = x.toNat := by simp [beNat]
    rw [e, e2, List.length_singleton, Nat.pow_one, Nat.mul_comm, Nat.add_comm]

theorem beNat_beBytes (n v : Nat) : beNat (beBytes n v) = v % 256 ^ n := by
  rw [beBytes, beNat_reverse, leNat_leBytes]

theorem sliceBytes_left {a b : List Byte} {off n : Nat} (h : off + n ≤ a.length) :
    sliceBytes (a ++ b) off n = sliceBytes a off n := by
  refine List.map_congr_left fun i hi => ?_
  have := List.mem_range.mp hi
  simp only [List.getD, List.getElem?_append_left (show off + i < a.length by omega)]

theorem sliceBytes_right {a b : List Byte} {off n : Nat} (h : a.length ≤ off) :
    sliceBytes (a ++ b) off n = sliceBytes b (off - a.length) n := by
  refine List.map_congr_left fun i _ => ?_
  simp only [List.getD, List.getElem?_append_right (show a.length ≤ off + i by omega)]
  rw [show off + i - a.length = off - a.length + i by omega]

theorem sliceBytes_all (a : List Byte) : sliceBytes a 0 a.length = a := by
  refine List.ext_getElem (by simp [sliceBytes]) fun i h1 h2 => ?_
  simp [sliceBytes, List.getD, h2]

theorem leAt_left {a b : List Byte} {off n : Nat} (h : off + n ≤ a.length) : leAt (a ++ b) off n = leAt a off n := by
  rw [leAt, sliceBytes_left h, leAt]

theorem leAt_right {a b : List Byte} {off n : Nat} (h : a.length ≤ off) :
    leAt (a ++ b) off n = leAt b (off - a.length) n := by
  rw [leAt, sliceBytes_right h, leAt]

theorem beAt_left {a b : List Byte} {off n : Nat} (h : off + n ≤ a.length) : beAt (a ++ b) off n = beAt a off n := by
  rw [beAt, sliceBytes_left h, beAt]

theorem beAt_right {a b : List Byte} {off n : Nat} (h : a.length ≤ off) :
    beAt (a ++ b) off n = beAt b (off - a.length) n := by
  rw [beAt, sliceBytes_right h, beAt]

theorem leAt_self (n v : Nat) : leAt (leBytes n v) 0 n = v % 256 ^ n := by
  have := sliceBytes_all (leBytes n v)
  rw [leBytes_length] at this
  rw [leAt, this, leNat_leBytes]

theorem beAt_self (n v : Nat) : beAt (beBytes n v) 0 n = v % 256 ^ n := by
  have := sliceBytes_all (beBytes n v)
  rw [beBytes_length] at this
  rw [beAt, this, beNat_beBytes]

/-- A number read behind the `k` bytes of another. -/
theorem leAt_skip {b : List Byte} {k v off n : Nat} (h : k ≤ off) : leAt (leBytes k v ++ b) off n = leAt b (off - k) n := by
  rw [leAt_right (by simpa using h), leBytes_length]

/-- A number read where it stands first. -/
theorem leAt_first {b : List Byte} {n v : Nat} : leAt (leBytes n v ++ b) 0 n = v % 256 ^ n := by
  rw [leAt_left (by simp), leAt_self]

/-- What follows a number. -/
theorem drop_le {b : List Byte} {k v n : Nat} (h : k ≤ n) : (leBytes k v ++ b).drop n = b.drop (n - k) := by
  rw [List.drop_append, List.drop_eq_nil_of_le (by simpa using h), List.nil_append, leBytes_length]

/-- What follows a number in network order. -/
theorem drop_be {b : List Byte} {k v n : Nat} (h : k ≤ n) : (beBytes k v ++ b).drop n = b.drop (n - k) := by
  rw [List.drop_append, List.drop_eq_nil_of_le (by simpa using h), List.nil_append, beBytes_length]

/-- A number in network order read behind the `k` bytes of another. -/
theorem beAt_skip {b : List Byte} {k v off n : Nat} (h : k ≤ off) : beAt (beBytes k v ++ b) off n = beAt b (off - k) n := by
  rw [beAt_right (by simpa using h), beBytes_length]

/-- A number in network order read where it stands first. -/
theorem beAt_first {b : List Byte} {n v : Nat} : beAt (beBytes n v ++ b) 0 n = v % 256 ^ n := by
  rw [beAt_left (by simp), beAt_self]

end Sys2Proof.Machine
end

