-- ==== Sys2Proof/Laws/State.lean ====
section
/-! SUPPORT. What each update of the state leaves as it was: one lemma per field and update, so that no proof unfolds a
record. -/

-- one theorem after the other: proofs side by side would need more memory than the check allows
set_option Elab.async false

namespace Sys2Proof.Machine

/-! ## `setRawReg` -/

@[simp] theorem setRawReg_pending (s : State) (a : Nat) (v : Word) : (setRawReg s a v).pending = s.pending := (rfl)
@[simp] theorem setRawReg_freeCount (s : State) (a : Nat) (v : Word) : (setRawReg s a v).freeCount = s.freeCount := (rfl)
@[simp] theorem setRawReg_mem (s : State) (a : Nat) (v : Word) : (setRawReg s a v).mem = s.mem := (rfl)
@[simp] theorem setRawReg_clk (s : State) (a : Nat) (v : Word) : (setRawReg s a v).clk = s.clk := (rfl)
@[simp] theorem setRawReg_pwr (s : State) (a : Nat) (v : Word) : (setRawReg s a v).pwr = s.pwr := (rfl)
@[simp] theorem setRawReg_dep (s : State) (a : Nat) (v : Word) : (setRawReg s a v).dep = s.dep := (rfl)
@[simp] theorem setRawReg_jnl (s : State) (a : Nat) (v : Word) : (setRawReg s a v).jnl = s.jnl := (rfl)
@[simp] theorem setRawReg_port (s : State) (a : Nat) (v : Word) : (setRawReg s a v).port = s.port := (rfl)
@[simp] theorem setRawReg_arrays (s : State) (a : Nat) (v : Word) : (setRawReg s a v).arrays = s.arrays := (rfl)
@[simp] theorem setRawReg_cores (s : State) (a : Nat) (v : Word) : (setRawReg s a v).cores = s.cores := (rfl)
@[simp] theorem setRawReg_adits (s : State) (a : Nat) (v : Word) : (setRawReg s a v).adits = s.adits := (rfl)
@[simp] theorem setRawReg_hoists (s : State) (a : Nat) (v : Word) : (setRawReg s a v).hoists = s.hoists := (rfl)
@[simp] theorem setRawReg_scatters (s : State) (a : Nat) (v : Word) : (setRawReg s a v).scatters = s.scatters := (rfl)
@[simp] theorem setRawReg_assays (s : State) (a : Nat) (v : Word) : (setRawReg s a v).assays = s.assays := (rfl)
@[simp] theorem setRawReg_chans (s : State) (a : Nat) (v : Word) : (setRawReg s a v).chans = s.chans := (rfl)
@[simp] theorem setRawReg_links (s : State) (a : Nat) (v : Word) : (setRawReg s a v).links = s.links := (rfl)
@[simp] theorem setRawReg_chutes (s : State) (a : Nat) (v : Word) : (setRawReg s a v).chutes = s.chutes := (rfl)
@[simp] theorem setRawReg_hops (s : State) (a : Nat) (v : Word) : (setRawReg s a v).hops = s.hops := (rfl)
@[simp] theorem setRawReg_counters (s : State) (a : Nat) (v : Word) : (setRawReg s a v).counters = s.counters := (rfl)
@[simp] theorem setRawReg_cals (s : State) (a : Nat) (v : Word) : (setRawReg s a v).cals = s.cals := (rfl)

/-! ## `count` -/

@[simp] theorem count_pending (s : State) (b o n : Nat) : (count s b o n).pending = s.pending := (rfl)
@[simp] theorem count_freeCount (s : State) (b o n : Nat) : (count s b o n).freeCount = s.freeCount := (rfl)
@[simp] theorem count_mem (s : State) (b o n : Nat) : (count s b o n).mem = s.mem := (rfl)
@[simp] theorem count_clk (s : State) (b o n : Nat) : (count s b o n).clk = s.clk := (rfl)
@[simp] theorem count_pwr (s : State) (b o n : Nat) : (count s b o n).pwr = s.pwr := (rfl)
@[simp] theorem count_dep (s : State) (b o n : Nat) : (count s b o n).dep = s.dep := (rfl)
@[simp] theorem count_jnl (s : State) (b o n : Nat) : (count s b o n).jnl = s.jnl := (rfl)
@[simp] theorem count_port (s : State) (b o n : Nat) : (count s b o n).port = s.port := (rfl)
@[simp] theorem count_arrays (s : State) (b o n : Nat) : (count s b o n).arrays = s.arrays := (rfl)
@[simp] theorem count_cores (s : State) (b o n : Nat) : (count s b o n).cores = s.cores := (rfl)
@[simp] theorem count_adits (s : State) (b o n : Nat) : (count s b o n).adits = s.adits := (rfl)
@[simp] theorem count_hoists (s : State) (b o n : Nat) : (count s b o n).hoists = s.hoists := (rfl)
@[simp] theorem count_scatters (s : State) (b o n : Nat) : (count s b o n).scatters = s.scatters := (rfl)
@[simp] theorem count_assays (s : State) (b o n : Nat) : (count s b o n).assays = s.assays := (rfl)
@[simp] theorem count_chans (s : State) (b o n : Nat) : (count s b o n).chans = s.chans := (rfl)
@[simp] theorem count_links (s : State) (b o n : Nat) : (count s b o n).links = s.links := (rfl)
@[simp] theorem count_chutes (s : State) (b o n : Nat) : (count s b o n).chutes = s.chutes := (rfl)
@[simp] theorem count_hops (s : State) (b o n : Nat) : (count s b o n).hops = s.hops := (rfl)
@[simp] theorem count_counters (s : State) (b o n : Nat) : (count s b o n).counters = s.counters := (rfl)
@[simp] theorem count_cals (s : State) (b o n : Nat) : (count s b o n).cals = s.cals := (rfl)

/-! ## `raise` -/

@[simp] theorem raise_pending (s : State) (b : Nat) (f : Nat × Nat) : (raise s b f).pending = s.pending := (rfl)
@[simp] theorem raise_freeCount (s : State) (b : Nat) (f : Nat × Nat) : (raise s b f).freeCount = s.freeCount := (rfl)
@[simp] theorem raise_mem (s : State) (b : Nat) (f : Nat × Nat) : (raise s b f).mem = s.mem := (rfl)
@[simp] theorem raise_clk (s : State) (b : Nat) (f : Nat × Nat) : (raise s b f).clk = s.clk := (rfl)
@[simp] theorem raise_pwr (s : State) (b : Nat) (f : Nat × Nat) : (raise s b f).pwr = s.pwr := (rfl)
@[simp] theorem raise_dep (s : State) (b : Nat) (f : Nat × Nat) : (raise s b f).dep = s.dep := (rfl)
@[simp] theorem raise_jnl (s : State) (b : Nat) (f : Nat × Nat) : (raise s b f).jnl = s.jnl := (rfl)
@[simp] theorem raise_port (s : State) (b : Nat) (f : Nat × Nat) : (raise s b f).port = s.port := (rfl)
@[simp] theorem raise_arrays (s : State) (b : Nat) (f : Nat × Nat) : (raise s b f).arrays = s.arrays := (rfl)
@[simp] theorem raise_cores (s : State) (b : Nat) (f : Nat × Nat) : (raise s b f).cores = s.cores := (rfl)
@[simp] theorem raise_adits (s : State) (b : Nat) (f : Nat × Nat) : (raise s b f).adits = s.adits := (rfl)
@[simp] theorem raise_hoists (s : State) (b : Nat) (f : Nat × Nat) : (raise s b f).hoists = s.hoists := (rfl)
@[simp] theorem raise_scatters (s : State) (b : Nat) (f : Nat × Nat) : (raise s b f).scatters = s.scatters := (rfl)
@[simp] theorem raise_assays (s : State) (b : Nat) (f : Nat × Nat) : (raise s b f).assays = s.assays := (rfl)
@[simp] theorem raise_chans (s : State) (b : Nat) (f : Nat × Nat) : (raise s b f).chans = s.chans := (rfl)
@[simp] theorem raise_links (s : State) (b : Nat) (f : Nat × Nat) : (raise s b f).links = s.links := (rfl)
@[simp] theorem raise_chutes (s : State) (b : Nat) (f : Nat × Nat) : (raise s b f).chutes = s.chutes := (rfl)
@[simp] theorem raise_hops (s : State) (b : Nat) (f : Nat × Nat) : (raise s b f).hops = s.hops := (rfl)
@[simp] theorem raise_counters (s : State) (b : Nat) (f : Nat × Nat) : (raise s b f).counters = s.counters := (rfl)
@[simp] theorem raise_cals (s : State) (b : Nat) (f : Nat × Nat) : (raise s b f).cals = s.cals := (rfl)

/-! ## `raiseIf` -/

@[simp] theorem raiseIf_pending (c : Bool) (s : State) (b : Nat) (f : Nat × Nat) : (raiseIf c s b f).pending = s.pending := by
  cases c <;> rfl
@[simp] theorem raiseIf_freeCount (c : Bool) (s : State) (b : Nat) (f : Nat × Nat) : (raiseIf c s b f).freeCount = s.freeCount := by
  cases c <;> rfl
@[simp] theorem raiseIf_mem (c : Bool) (s : State) (b : Nat) (f : Nat × Nat) : (raiseIf c s b f).mem = s.mem := by
  cases c <;> rfl
@[simp] theorem raiseIf_clk (c : Bool) (s : State) (b : Nat) (f : Nat × Nat) : (raiseIf c s b f).clk = s.clk := by
  cases c <;> rfl
@[simp] theorem raiseIf_pwr (c : Bool) (s : State) (b : Nat) (f : Nat × Nat) : (raiseIf c s b f).pwr = s.pwr := by
  cases c <;> rfl
@[simp] theorem raiseIf_dep (c : Bool) (s : State) (b : Nat) (f : Nat × Nat) : (raiseIf c s b f).dep = s.dep := by
  cases c <;> rfl
@[simp] theorem raiseIf_jnl (c : Bool) (s : State) (b : Nat) (f : Nat × Nat) : (raiseIf c s b f).jnl = s.jnl := by
  cases c <;> rfl
@[simp] theorem raiseIf_port (c : Bool) (s : State) (b : Nat) (f : Nat × Nat) : (raiseIf c s b f).port = s.port := by
  cases c <;> rfl
@[simp] theorem raiseIf_arrays (c : Bool) (s : State) (b : Nat) (f : Nat × Nat) : (raiseIf c s b f).arrays = s.arrays := by
  cases c <;> rfl
@[simp] theorem raiseIf_cores (c : Bool) (s : State) (b : Nat) (f : Nat × Nat) : (raiseIf c s b f).cores = s.cores := by
  cases c <;> rfl
@[simp] theorem raiseIf_adits (c : Bool) (s : State) (b : Nat) (f : Nat × Nat) : (raiseIf c s b f).adits = s.adits := by
  cases c <;> rfl
@[simp] theorem raiseIf_hoists (c : Bool) (s : State) (b : Nat) (f : Nat × Nat) : (raiseIf c s b f).hoists = s.hoists := by
  cases c <;> rfl
@[simp] theorem raiseIf_scatters (c : Bool) (s : State) (b : Nat) (f : Nat × Nat) : (raiseIf c s b f).scatters = s.scatters := by
  cases c <;> rfl
@[simp] theorem raiseIf_assays (c : Bool) (s : State) (b : Nat) (f : Nat × Nat) : (raiseIf c s b f).assays = s.assays := by
  cases c <;> rfl
@[simp] theorem raiseIf_chans (c : Bool) (s : State) (b : Nat) (f : Nat × Nat) : (raiseIf c s b f).chans = s.chans := by
  cases c <;> rfl
@[simp] theorem raiseIf_links (c : Bool) (s : State) (b : Nat) (f : Nat × Nat) : (raiseIf c s b f).links = s.links := by
  cases c <;> rfl
@[simp] theorem raiseIf_chutes (c : Bool) (s : State) (b : Nat) (f : Nat × Nat) : (raiseIf c s b f).chutes = s.chutes := by
  cases c <;> rfl
@[simp] theorem raiseIf_hops (c : Bool) (s : State) (b : Nat) (f : Nat × Nat) : (raiseIf c s b f).hops = s.hops := by
  cases c <;> rfl
@[simp] theorem raiseIf_counters (c : Bool) (s : State) (b : Nat) (f : Nat × Nat) : (raiseIf c s b f).counters = s.counters := by
  cases c <;> rfl
@[simp] theorem raiseIf_cals (c : Bool) (s : State) (b : Nat) (f : Nat × Nat) : (raiseIf c s b f).cals = s.cals := by
  cases c <;> rfl

/-! ## `setRawField` -/

@[simp] theorem setRawField_pending (s : State) (a hi lo v : Nat) : (setRawField s a hi lo v).pending = s.pending := (rfl)
@[simp] theorem setRawField_freeCount (s : State) (a hi lo v : Nat) : (setRawField s a hi lo v).freeCount = s.freeCount := (rfl)
@[simp] theorem setRawField_mem (s : State) (a hi lo v : Nat) : (setRawField s a hi lo v).mem = s.mem := (rfl)
@[simp] theorem setRawField_clk (s : State) (a hi lo v : Nat) : (setRawField s a hi lo v).clk = s.clk := (rfl)
@[simp] theorem setRawField_pwr (s : State) (a hi lo v : Nat) : (setRawField s a hi lo v).pwr = s.pwr := (rfl)
@[simp] theorem setRawField_dep (s : State) (a hi lo v : Nat) : (setRawField s a hi lo v).dep = s.dep := (rfl)
@[simp] theorem setRawField_jnl (s : State) (a hi lo v : Nat) : (setRawField s a hi lo v).jnl = s.jnl := (rfl)
@[simp] theorem setRawField_port (s : State) (a hi lo v : Nat) : (setRawField s a hi lo v).port = s.port := (rfl)
@[simp] theorem setRawField_arrays (s : State) (a hi lo v : Nat) : (setRawField s a hi lo v).arrays = s.arrays := (rfl)
@[simp] theorem setRawField_cores (s : State) (a hi lo v : Nat) : (setRawField s a hi lo v).cores = s.cores := (rfl)
@[simp] theorem setRawField_adits (s : State) (a hi lo v : Nat) : (setRawField s a hi lo v).adits = s.adits := (rfl)
@[simp] theorem setRawField_hoists (s : State) (a hi lo v : Nat) : (setRawField s a hi lo v).hoists = s.hoists := (rfl)
@[simp] theorem setRawField_scatters (s : State) (a hi lo v : Nat) : (setRawField s a hi lo v).scatters = s.scatters := (rfl)
@[simp] theorem setRawField_assays (s : State) (a hi lo v : Nat) : (setRawField s a hi lo v).assays = s.assays := (rfl)
@[simp] theorem setRawField_chans (s : State) (a hi lo v : Nat) : (setRawField s a hi lo v).chans = s.chans := (rfl)
@[simp] theorem setRawField_links (s : State) (a hi lo v : Nat) : (setRawField s a hi lo v).links = s.links := (rfl)
@[simp] theorem setRawField_chutes (s : State) (a hi lo v : Nat) : (setRawField s a hi lo v).chutes = s.chutes := (rfl)
@[simp] theorem setRawField_hops (s : State) (a hi lo v : Nat) : (setRawField s a hi lo v).hops = s.hops := (rfl)
@[simp] theorem setRawField_counters (s : State) (a hi lo v : Nat) : (setRawField s a hi lo v).counters = s.counters := (rfl)
@[simp] theorem setRawField_cals (s : State) (a hi lo v : Nat) : (setRawField s a hi lo v).cals = s.cals := (rfl)

/-! ## `setArray` -/

@[simp] theorem setArray_pending (s : State) (a : ArrayId) (x : ArrayState) : (setArray s a x).pending = s.pending := (rfl)
@[simp] theorem setArray_freeCount (s : State) (a : ArrayId) (x : ArrayState) : (setArray s a x).freeCount = s.freeCount := (rfl)
@[simp] theorem setArray_mem (s : State) (a : ArrayId) (x : ArrayState) : (setArray s a x).mem = s.mem := (rfl)
@[simp] theorem setArray_regs (s : State) (a : ArrayId) (x : ArrayState) : (setArray s a x).regs = s.regs := (rfl)
@[simp] theorem setArray_clk (s : State) (a : ArrayId) (x : ArrayState) : (setArray s a x).clk = s.clk := (rfl)
@[simp] theorem setArray_pwr (s : State) (a : ArrayId) (x : ArrayState) : (setArray s a x).pwr = s.pwr := (rfl)
@[simp] theorem setArray_dep (s : State) (a : ArrayId) (x : ArrayState) : (setArray s a x).dep = s.dep := (rfl)
@[simp] theorem setArray_jnl (s : State) (a : ArrayId) (x : ArrayState) : (setArray s a x).jnl = s.jnl := (rfl)
@[simp] theorem setArray_port (s : State) (a : ArrayId) (x : ArrayState) : (setArray s a x).port = s.port := (rfl)
@[simp] theorem setArray_cores (s : State) (a : ArrayId) (x : ArrayState) : (setArray s a x).cores = s.cores := (rfl)
@[simp] theorem setArray_adits (s : State) (a : ArrayId) (x : ArrayState) : (setArray s a x).adits = s.adits := (rfl)
@[simp] theorem setArray_hoists (s : State) (a : ArrayId) (x : ArrayState) : (setArray s a x).hoists = s.hoists := (rfl)
@[simp] theorem setArray_scatters (s : State) (a : ArrayId) (x : ArrayState) : (setArray s a x).scatters = s.scatters := (rfl)
@[simp] theorem setArray_assays (s : State) (a : ArrayId) (x : ArrayState) : (setArray s a x).assays = s.assays := (rfl)
@[simp] theorem setArray_chans (s : State) (a : ArrayId) (x : ArrayState) : (setArray s a x).chans = s.chans := (rfl)
@[simp] theorem setArray_links (s : State) (a : ArrayId) (x : ArrayState) : (setArray s a x).links = s.links := (rfl)
@[simp] theorem setArray_chutes (s : State) (a : ArrayId) (x : ArrayState) : (setArray s a x).chutes = s.chutes := (rfl)
@[simp] theorem setArray_hops (s : State) (a : ArrayId) (x : ArrayState) : (setArray s a x).hops = s.hops := (rfl)
@[simp] theorem setArray_counters (s : State) (a : ArrayId) (x : ArrayState) : (setArray s a x).counters = s.counters := (rfl)
@[simp] theorem setArray_cals (s : State) (a : ArrayId) (x : ArrayState) : (setArray s a x).cals = s.cals := (rfl)

/-! ## `setCore` -/

@[simp] theorem setCore_pending (s : State) (c : CoreId) (x : CoreState) : (setCore s c x).pending = s.pending := (rfl)
@[simp] theorem setCore_freeCount (s : State) (c : CoreId) (x : CoreState) : (setCore s c x).freeCount = s.freeCount := (rfl)
@[simp] theorem setCore_mem (s : State) (c : CoreId) (x : CoreState) : (setCore s c x).mem = s.mem := (rfl)
@[simp] theorem setCore_regs (s : State) (c : CoreId) (x : CoreState) : (setCore s c x).regs = s.regs := (rfl)
@[simp] theorem setCore_clk (s : State) (c : CoreId) (x : CoreState) : (setCore s c x).clk = s.clk := (rfl)
@[simp] theorem setCore_pwr (s : State) (c : CoreId) (x : CoreState) : (setCore s c x).pwr = s.pwr := (rfl)
@[simp] theorem setCore_dep (s : State) (c : CoreId) (x : CoreState) : (setCore s c x).dep = s.dep := (rfl)
@[simp] theorem setCore_jnl (s : State) (c : CoreId) (x : CoreState) : (setCore s c x).jnl = s.jnl := (rfl)
@[simp] theorem setCore_port (s : State) (c : CoreId) (x : CoreState) : (setCore s c x).port = s.port := (rfl)
@[simp] theorem setCore_arrays (s : State) (c : CoreId) (x : CoreState) : (setCore s c x).arrays = s.arrays := (rfl)
@[simp] theorem setCore_adits (s : State) (c : CoreId) (x : CoreState) : (setCore s c x).adits = s.adits := (rfl)
@[simp] theorem setCore_hoists (s : State) (c : CoreId) (x : CoreState) : (setCore s c x).hoists = s.hoists := (rfl)
@[simp] theorem setCore_scatters (s : State) (c : CoreId) (x : CoreState) : (setCore s c x).scatters = s.scatters := (rfl)
@[simp] theorem setCore_assays (s : State) (c : CoreId) (x : CoreState) : (setCore s c x).assays = s.assays := (rfl)
@[simp] theorem setCore_chans (s : State) (c : CoreId) (x : CoreState) : (setCore s c x).chans = s.chans := (rfl)
@[simp] theorem setCore_links (s : State) (c : CoreId) (x : CoreState) : (setCore s c x).links = s.links := (rfl)
@[simp] theorem setCore_chutes (s : State) (c : CoreId) (x : CoreState) : (setCore s c x).chutes = s.chutes := (rfl)
@[simp] theorem setCore_hops (s : State) (c : CoreId) (x : CoreState) : (setCore s c x).hops = s.hops := (rfl)
@[simp] theorem setCore_counters (s : State) (c : CoreId) (x : CoreState) : (setCore s c x).counters = s.counters := (rfl)
@[simp] theorem setCore_cals (s : State) (c : CoreId) (x : CoreState) : (setCore s c x).cals = s.cals := (rfl)

/-! ## `setSlot` -/

@[simp] theorem setSlot_pending (s : State) (t : SlotId) (x : TaskSlot) : (setSlot s t x).pending = s.pending := (rfl)
@[simp] theorem setSlot_freeCount (s : State) (t : SlotId) (x : TaskSlot) : (setSlot s t x).freeCount = s.freeCount := (rfl)
@[simp] theorem setSlot_mem (s : State) (t : SlotId) (x : TaskSlot) : (setSlot s t x).mem = s.mem := (rfl)
@[simp] theorem setSlot_regs (s : State) (t : SlotId) (x : TaskSlot) : (setSlot s t x).regs = s.regs := (rfl)
@[simp] theorem setSlot_clk (s : State) (t : SlotId) (x : TaskSlot) : (setSlot s t x).clk = s.clk := (rfl)
@[simp] theorem setSlot_pwr (s : State) (t : SlotId) (x : TaskSlot) : (setSlot s t x).pwr = s.pwr := (rfl)
@[simp] theorem setSlot_dep (s : State) (t : SlotId) (x : TaskSlot) : (setSlot s t x).dep = s.dep := (rfl)
@[simp] theorem setSlot_jnl (s : State) (t : SlotId) (x : TaskSlot) : (setSlot s t x).jnl = s.jnl := (rfl)
@[simp] theorem setSlot_port (s : State) (t : SlotId) (x : TaskSlot) : (setSlot s t x).port = s.port := (rfl)
@[simp] theorem setSlot_arrays (s : State) (t : SlotId) (x : TaskSlot) : (setSlot s t x).arrays = s.arrays := (rfl)
@[simp] theorem setSlot_adits (s : State) (t : SlotId) (x : TaskSlot) : (setSlot s t x).adits = s.adits := (rfl)
@[simp] theorem setSlot_hoists (s : State) (t : SlotId) (x : TaskSlot) : (setSlot s t x).hoists = s.hoists := (rfl)
@[simp] theorem setSlot_scatters (s : State) (t : SlotId) (x : TaskSlot) : (setSlot s t x).scatters = s.scatters := (rfl)
@[simp] theorem setSlot_assays (s : State) (t : SlotId) (x : TaskSlot) : (setSlot s t x).assays = s.assays := (rfl)
@[simp] theorem setSlot_chans (s : State) (t : SlotId) (x : TaskSlot) : (setSlot s t x).chans = s.chans := (rfl)
@[simp] theorem setSlot_links (s : State) (t : SlotId) (x : TaskSlot) : (setSlot s t x).links = s.links := (rfl)
@[simp] theorem setSlot_chutes (s : State) (t : SlotId) (x : TaskSlot) : (setSlot s t x).chutes = s.chutes := (rfl)
@[simp] theorem setSlot_hops (s : State) (t : SlotId) (x : TaskSlot) : (setSlot s t x).hops = s.hops := (rfl)
@[simp] theorem setSlot_counters (s : State) (t : SlotId) (x : TaskSlot) : (setSlot s t x).counters = s.counters := (rfl)
@[simp] theorem setSlot_cals (s : State) (t : SlotId) (x : TaskSlot) : (setSlot s t x).cals = s.cals := (rfl)

/-! ## `setAdit` -/

@[simp] theorem setAdit_pending (s : State) (u : AditId) (x : AditState) : (setAdit s u x).pending = s.pending := (rfl)
@[simp] theorem setAdit_freeCount (s : State) (u : AditId) (x : AditState) : (setAdit s u x).freeCount = s.freeCount := (rfl)
@[simp] theorem setAdit_mem (s : State) (u : AditId) (x : AditState) : (setAdit s u x).mem = s.mem := (rfl)
@[simp] theorem setAdit_regs (s : State) (u : AditId) (x : AditState) : (setAdit s u x).regs = s.regs := (rfl)
@[simp] theorem setAdit_clk (s : State) (u : AditId) (x : AditState) : (setAdit s u x).clk = s.clk := (rfl)
@[simp] theorem setAdit_pwr (s : State) (u : AditId) (x : AditState) : (setAdit s u x).pwr = s.pwr := (rfl)
@[simp] theorem setAdit_dep (s : State) (u : AditId) (x : AditState) : (setAdit s u x).dep = s.dep := (rfl)
@[simp] theorem setAdit_jnl (s : State) (u : AditId) (x : AditState) : (setAdit s u x).jnl = s.jnl := (rfl)
@[simp] theorem setAdit_port (s : State) (u : AditId) (x : AditState) : (setAdit s u x).port = s.port := (rfl)
@[simp] theorem setAdit_arrays (s : State) (u : AditId) (x : AditState) : (setAdit s u x).arrays = s.arrays := (rfl)
@[simp] theorem setAdit_cores (s : State) (u : AditId) (x : AditState) : (setAdit s u x).cores = s.cores := (rfl)
@[simp] theorem setAdit_hoists (s : State) (u : AditId) (x : AditState) : (setAdit s u x).hoists = s.hoists := (rfl)
@[simp] theorem setAdit_scatters (s : State) (u : AditId) (x : AditState) : (setAdit s u x).scatters = s.scatters := (rfl)
@[simp] theorem setAdit_assays (s : State) (u : AditId) (x : AditState) : (setAdit s u x).assays = s.assays := (rfl)
@[simp] theorem setAdit_chans (s : State) (u : AditId) (x : AditState) : (setAdit s u x).chans = s.chans := (rfl)
@[simp] theorem setAdit_links (s : State) (u : AditId) (x : AditState) : (setAdit s u x).links = s.links := (rfl)
@[simp] theorem setAdit_chutes (s : State) (u : AditId) (x : AditState) : (setAdit s u x).chutes = s.chutes := (rfl)
@[simp] theorem setAdit_hops (s : State) (u : AditId) (x : AditState) : (setAdit s u x).hops = s.hops := (rfl)
@[simp] theorem setAdit_counters (s : State) (u : AditId) (x : AditState) : (setAdit s u x).counters = s.counters := (rfl)
@[simp] theorem setAdit_cals (s : State) (u : AditId) (x : AditState) : (setAdit s u x).cals = s.cals := (rfl)

/-! ## `setQueue` -/

@[simp] theorem setQueue_pending (s : State) (q : QueueId) (x : HoistQueue) : (setQueue s q x).pending = s.pending := (rfl)
@[simp] theorem setQueue_freeCount (s : State) (q : QueueId) (x : HoistQueue) : (setQueue s q x).freeCount = s.freeCount := (rfl)
@[simp] theorem setQueue_mem (s : State) (q : QueueId) (x : HoistQueue) : (setQueue s q x).mem = s.mem := (rfl)
@[simp] theorem setQueue_regs (s : State) (q : QueueId) (x : HoistQueue) : (setQueue s q x).regs = s.regs := (rfl)
@[simp] theorem setQueue_clk (s : State) (q : QueueId) (x : HoistQueue) : (setQueue s q x).clk = s.clk := (rfl)
@[simp] theorem setQueue_pwr (s : State) (q : QueueId) (x : HoistQueue) : (setQueue s q x).pwr = s.pwr := (rfl)
@[simp] theorem setQueue_dep (s : State) (q : QueueId) (x : HoistQueue) : (setQueue s q x).dep = s.dep := (rfl)
@[simp] theorem setQueue_jnl (s : State) (q : QueueId) (x : HoistQueue) : (setQueue s q x).jnl = s.jnl := (rfl)
@[simp] theorem setQueue_port (s : State) (q : QueueId) (x : HoistQueue) : (setQueue s q x).port = s.port := (rfl)
@[simp] theorem setQueue_arrays (s : State) (q : QueueId) (x : HoistQueue) : (setQueue s q x).arrays = s.arrays := (rfl)
@[simp] theorem setQueue_cores (s : State) (q : QueueId) (x : HoistQueue) : (setQueue s q x).cores = s.cores := (rfl)
@[simp] theorem setQueue_adits (s : State) (q : QueueId) (x : HoistQueue) : (setQueue s q x).adits = s.adits := (rfl)
@[simp] theorem setQueue_scatters (s : State) (q : QueueId) (x : HoistQueue) : (setQueue s q x).scatters = s.scatters := (rfl)
@[simp] theorem setQueue_assays (s : State) (q : QueueId) (x : HoistQueue) : (setQueue s q x).assays = s.assays := (rfl)
@[simp] theorem setQueue_chans (s : State) (q : QueueId) (x : HoistQueue) : (setQueue s q x).chans = s.chans := (rfl)
@[simp] theorem setQueue_links (s : State) (q : QueueId) (x : HoistQueue) : (setQueue s q x).links = s.links := (rfl)
@[simp] theorem setQueue_chutes (s : State) (q : QueueId) (x : HoistQueue) : (setQueue s q x).chutes = s.chutes := (rfl)
@[simp] theorem setQueue_hops (s : State) (q : QueueId) (x : HoistQueue) : (setQueue s q x).hops = s.hops := (rfl)
@[simp] theorem setQueue_counters (s : State) (q : QueueId) (x : HoistQueue) : (setQueue s q x).counters = s.counters := (rfl)
@[simp] theorem setQueue_cals (s : State) (q : QueueId) (x : HoistQueue) : (setQueue s q x).cals = s.cals := (rfl)

/-! ## `setChan` -/

@[simp] theorem setChan_pending (s : State) (c : ChanId) (x : ChanState) : (setChan s c x).pending = s.pending := (rfl)
@[simp] theorem setChan_freeCount (s : State) (c : ChanId) (x : ChanState) : (setChan s c x).freeCount = s.freeCount := (rfl)
@[simp] theorem setChan_mem (s : State) (c : ChanId) (x : ChanState) : (setChan s c x).mem = s.mem := (rfl)
@[simp] theorem setChan_regs (s : State) (c : ChanId) (x : ChanState) : (setChan s c x).regs = s.regs := (rfl)
@[simp] theorem setChan_clk (s : State) (c : ChanId) (x : ChanState) : (setChan s c x).clk = s.clk := (rfl)
@[simp] theorem setChan_pwr (s : State) (c : ChanId) (x : ChanState) : (setChan s c x).pwr = s.pwr := (rfl)
@[simp] theorem setChan_dep (s : State) (c : ChanId) (x : ChanState) : (setChan s c x).dep = s.dep := (rfl)
@[simp] theorem setChan_jnl (s : State) (c : ChanId) (x : ChanState) : (setChan s c x).jnl = s.jnl := (rfl)
@[simp] theorem setChan_port (s : State) (c : ChanId) (x : ChanState) : (setChan s c x).port = s.port := (rfl)
@[simp] theorem setChan_arrays (s : State) (c : ChanId) (x : ChanState) : (setChan s c x).arrays = s.arrays := (rfl)
@[simp] theorem setChan_cores (s : State) (c : ChanId) (x : ChanState) : (setChan s c x).cores = s.cores := (rfl)
@[simp] theorem setChan_adits (s : State) (c : ChanId) (x : ChanState) : (setChan s c x).adits = s.adits := (rfl)
@[simp] theorem setChan_hoists (s : State) (c : ChanId) (x : ChanState) : (setChan s c x).hoists = s.hoists := (rfl)
@[simp] theorem setChan_scatters (s : State) (c : ChanId) (x : ChanState) : (setChan s c x).scatters = s.scatters := (rfl)
@[simp] theorem setChan_assays (s : State) (c : ChanId) (x : ChanState) : (setChan s c x).assays = s.assays := (rfl)
@[simp] theorem setChan_links (s : State) (c : ChanId) (x : ChanState) : (setChan s c x).links = s.links := (rfl)
@[simp] theorem setChan_chutes (s : State) (c : ChanId) (x : ChanState) : (setChan s c x).chutes = s.chutes := (rfl)
@[simp] theorem setChan_hops (s : State) (c : ChanId) (x : ChanState) : (setChan s c x).hops = s.hops := (rfl)
@[simp] theorem setChan_counters (s : State) (c : ChanId) (x : ChanState) : (setChan s c x).counters = s.counters := (rfl)
@[simp] theorem setChan_cals (s : State) (c : ChanId) (x : ChanState) : (setChan s c x).cals = s.cals := (rfl)

/-! ## `setEp` -/

@[simp] theorem setEp_pending (s : State) (e : EndpointId) (x : Endpoint) : (setEp s e x).pending = s.pending := (rfl)
@[simp] theorem setEp_freeCount (s : State) (e : EndpointId) (x : Endpoint) : (setEp s e x).freeCount = s.freeCount := (rfl)
@[simp] theorem setEp_mem (s : State) (e : EndpointId) (x : Endpoint) : (setEp s e x).mem = s.mem := (rfl)
@[simp] theorem setEp_regs (s : State) (e : EndpointId) (x : Endpoint) : (setEp s e x).regs = s.regs := (rfl)
@[simp] theorem setEp_clk (s : State) (e : EndpointId) (x : Endpoint) : (setEp s e x).clk = s.clk := (rfl)
@[simp] theorem setEp_pwr (s : State) (e : EndpointId) (x : Endpoint) : (setEp s e x).pwr = s.pwr := (rfl)
@[simp] theorem setEp_dep (s : State) (e : EndpointId) (x : Endpoint) : (setEp s e x).dep = s.dep := (rfl)
@[simp] theorem setEp_jnl (s : State) (e : EndpointId) (x : Endpoint) : (setEp s e x).jnl = s.jnl := (rfl)
@[simp] theorem setEp_port (s : State) (e : EndpointId) (x : Endpoint) : (setEp s e x).port = s.port := (rfl)
@[simp] theorem setEp_arrays (s : State) (e : EndpointId) (x : Endpoint) : (setEp s e x).arrays = s.arrays := (rfl)
@[simp] theorem setEp_cores (s : State) (e : EndpointId) (x : Endpoint) : (setEp s e x).cores = s.cores := (rfl)
@[simp] theorem setEp_adits (s : State) (e : EndpointId) (x : Endpoint) : (setEp s e x).adits = s.adits := (rfl)
@[simp] theorem setEp_hoists (s : State) (e : EndpointId) (x : Endpoint) : (setEp s e x).hoists = s.hoists := (rfl)
@[simp] theorem setEp_scatters (s : State) (e : EndpointId) (x : Endpoint) : (setEp s e x).scatters = s.scatters := (rfl)
@[simp] theorem setEp_assays (s : State) (e : EndpointId) (x : Endpoint) : (setEp s e x).assays = s.assays := (rfl)
@[simp] theorem setEp_chans (s : State) (e : EndpointId) (x : Endpoint) : (setEp s e x).chans = s.chans := (rfl)
@[simp] theorem setEp_links (s : State) (e : EndpointId) (x : Endpoint) : (setEp s e x).links = s.links := (rfl)
@[simp] theorem setEp_hops (s : State) (e : EndpointId) (x : Endpoint) : (setEp s e x).hops = s.hops := (rfl)
@[simp] theorem setEp_counters (s : State) (e : EndpointId) (x : Endpoint) : (setEp s e x).counters = s.counters := (rfl)
@[simp] theorem setEp_cals (s : State) (e : EndpointId) (x : Endpoint) : (setEp s e x).cals = s.cals := (rfl)

/-! ## `setHop` -/

@[simp] theorem setHop_pending (s : State) (c : CoreId) (x : HopState) : (setHop s c x).pending = s.pending := (rfl)
@[simp] theorem setHop_freeCount (s : State) (c : CoreId) (x : HopState) : (setHop s c x).freeCount = s.freeCount := (rfl)
@[simp] theorem setHop_mem (s : State) (c : CoreId) (x : HopState) : (setHop s c x).mem = s.mem := (rfl)
@[simp] theorem setHop_regs (s : State) (c : CoreId) (x : HopState) : (setHop s c x).regs = s.regs := (rfl)
@[simp] theorem setHop_clk (s : State) (c : CoreId) (x : HopState) : (setHop s c x).clk = s.clk := (rfl)
@[simp] theorem setHop_pwr (s : State) (c : CoreId) (x : HopState) : (setHop s c x).pwr = s.pwr := (rfl)
@[simp] theorem setHop_dep (s : State) (c : CoreId) (x : HopState) : (setHop s c x).dep = s.dep := (rfl)
@[simp] theorem setHop_jnl (s : State) (c : CoreId) (x : HopState) : (setHop s c x).jnl = s.jnl := (rfl)
@[simp] theorem setHop_port (s : State) (c : CoreId) (x : HopState) : (setHop s c x).port = s.port := (rfl)
@[simp] theorem setHop_arrays (s : State) (c : CoreId) (x : HopState) : (setHop s c x).arrays = s.arrays := (rfl)
@[simp] theorem setHop_cores (s : State) (c : CoreId) (x : HopState) : (setHop s c x).cores = s.cores := (rfl)
@[simp] theorem setHop_adits (s : State) (c : CoreId) (x : HopState) : (setHop s c x).adits = s.adits := (rfl)
@[simp] theorem setHop_hoists (s : State) (c : CoreId) (x : HopState) : (setHop s c x).hoists = s.hoists := (rfl)
@[simp] theorem setHop_scatters (s : State) (c : CoreId) (x : HopState) : (setHop s c x).scatters = s.scatters := (rfl)
@[simp] theorem setHop_assays (s : State) (c : CoreId) (x : HopState) : (setHop s c x).assays = s.assays := (rfl)
@[simp] theorem setHop_chans (s : State) (c : CoreId) (x : HopState) : (setHop s c x).chans = s.chans := (rfl)
@[simp] theorem setHop_links (s : State) (c : CoreId) (x : HopState) : (setHop s c x).links = s.links := (rfl)
@[simp] theorem setHop_chutes (s : State) (c : CoreId) (x : HopState) : (setHop s c x).chutes = s.chutes := (rfl)
@[simp] theorem setHop_counters (s : State) (c : CoreId) (x : HopState) : (setHop s c x).counters = s.counters := (rfl)
@[simp] theorem setHop_cals (s : State) (c : CoreId) (x : HopState) : (setHop s c x).cals = s.cals := (rfl)

/-! ## `setCounter` -/

@[simp] theorem setCounter_pending (s : State) (m k : Nat) (x : WorkCounter) : (setCounter s m k x).pending = s.pending := (rfl)
@[simp] theorem setCounter_freeCount (s : State) (m k : Nat) (x : WorkCounter) : (setCounter s m k x).freeCount = s.freeCount := (rfl)
@[simp] theorem setCounter_mem (s : State) (m k : Nat) (x : WorkCounter) : (setCounter s m k x).mem = s.mem := (rfl)
@[simp] theorem setCounter_regs (s : State) (m k : Nat) (x : WorkCounter) : (setCounter s m k x).regs = s.regs := (rfl)
@[simp] theorem setCounter_clk (s : State) (m k : Nat) (x : WorkCounter) : (setCounter s m k x).clk = s.clk := (rfl)
@[simp] theorem setCounter_pwr (s : State) (m k : Nat) (x : WorkCounter) : (setCounter s m k x).pwr = s.pwr := (rfl)
@[simp] theorem setCounter_dep (s : State) (m k : Nat) (x : WorkCounter) : (setCounter s m k x).dep = s.dep := (rfl)
@[simp] theorem setCounter_jnl (s : State) (m k : Nat) (x : WorkCounter) : (setCounter s m k x).jnl = s.jnl := (rfl)
@[simp] theorem setCounter_port (s : State) (m k : Nat) (x : WorkCounter) : (setCounter s m k x).port = s.port := (rfl)
@[simp] theorem setCounter_arrays (s : State) (m k : Nat) (x : WorkCounter) : (setCounter s m k x).arrays = s.arrays := (rfl)
@[simp] theorem setCounter_cores (s : State) (m k : Nat) (x : WorkCounter) : (setCounter s m k x).cores = s.cores := (rfl)
@[simp] theorem setCounter_adits (s : State) (m k : Nat) (x : WorkCounter) : (setCounter s m k x).adits = s.adits := (rfl)
@[simp] theorem setCounter_hoists (s : State) (m k : Nat) (x : WorkCounter) : (setCounter s m k x).hoists = s.hoists := (rfl)
@[simp] theorem setCounter_scatters (s : State) (m k : Nat) (x : WorkCounter) : (setCounter s m k x).scatters = s.scatters := (rfl)
@[simp] theorem setCounter_assays (s : State) (m k : Nat) (x : WorkCounter) : (setCounter s m k x).assays = s.assays := (rfl)
@[simp] theorem setCounter_chans (s : State) (m k : Nat) (x : WorkCounter) : (setCounter s m k x).chans = s.chans := (rfl)
@[simp] theorem setCounter_links (s : State) (m k : Nat) (x : WorkCounter) : (setCounter s m k x).links = s.links := (rfl)
@[simp] theorem setCounter_chutes (s : State) (m k : Nat) (x : WorkCounter) : (setCounter s m k x).chutes = s.chutes := (rfl)
@[simp] theorem setCounter_hops (s : State) (m k : Nat) (x : WorkCounter) : (setCounter s m k x).hops = s.hops := (rfl)
@[simp] theorem setCounter_cals (s : State) (m k : Nat) (x : WorkCounter) : (setCounter s m k x).cals = s.cals := (rfl)

/-! ## `setCal` -/

@[simp] theorem setCal_pending (s : State) (m : Nat) (x : CalState) : (setCal s m x).pending = s.pending := (rfl)
@[simp] theorem setCal_freeCount (s : State) (m : Nat) (x : CalState) : (setCal s m x).freeCount = s.freeCount := (rfl)
@[simp] theorem setCal_mem (s : State) (m : Nat) (x : CalState) : (setCal s m x).mem = s.mem := (rfl)
@[simp] theorem setCal_regs (s : State) (m : Nat) (x : CalState) : (setCal s m x).regs = s.regs := (rfl)
@[simp] theorem setCal_clk (s : State) (m : Nat) (x : CalState) : (setCal s m x).clk = s.clk := (rfl)
@[simp] theorem setCal_pwr (s : State) (m : Nat) (x : CalState) : (setCal s m x).pwr = s.pwr := (rfl)
@[simp] theorem setCal_dep (s : State) (m : Nat) (x : CalState) : (setCal s m x).dep = s.dep := (rfl)
@[simp] theorem setCal_jnl (s : State) (m : Nat) (x : CalState) : (setCal s m x).jnl = s.jnl := (rfl)
@[simp] theorem setCal_port (s : State) (m : Nat) (x : CalState) : (setCal s m x).port = s.port := (rfl)
@[simp] theorem setCal_arrays (s : State) (m : Nat) (x : CalState) : (setCal s m x).arrays = s.arrays := (rfl)
@[simp] theorem setCal_cores (s : State) (m : Nat) (x : CalState) : (setCal s m x).cores = s.cores := (rfl)
@[simp] theorem setCal_adits (s : State) (m : Nat) (x : CalState) : (setCal s m x).adits = s.adits := (rfl)
@[simp] theorem setCal_hoists (s : State) (m : Nat) (x : CalState) : (setCal s m x).hoists = s.hoists := (rfl)
@[simp] theorem setCal_scatters (s : State) (m : Nat) (x : CalState) : (setCal s m x).scatters = s.scatters := (rfl)
@[simp] theorem setCal_assays (s : State) (m : Nat) (x : CalState) : (setCal s m x).assays = s.assays := (rfl)
@[simp] theorem setCal_chans (s : State) (m : Nat) (x : CalState) : (setCal s m x).chans = s.chans := (rfl)
@[simp] theorem setCal_links (s : State) (m : Nat) (x : CalState) : (setCal s m x).links = s.links := (rfl)
@[simp] theorem setCal_chutes (s : State) (m : Nat) (x : CalState) : (setCal s m x).chutes = s.chutes := (rfl)
@[simp] theorem setCal_hops (s : State) (m : Nat) (x : CalState) : (setCal s m x).hops = s.hops := (rfl)
@[simp] theorem setCal_counters (s : State) (m : Nat) (x : CalState) : (setCal s m x).counters = s.counters := (rfl)

/-! ## `setDom` -/

@[simp] theorem setDom_pending (s : State) (d : DomainId) (x : Domain) : (setDom s d x).pending = s.pending := (rfl)
@[simp] theorem setDom_freeCount (s : State) (d : DomainId) (x : Domain) : (setDom s d x).freeCount = s.freeCount := (rfl)
@[simp] theorem setDom_mem (s : State) (d : DomainId) (x : Domain) : (setDom s d x).mem = s.mem := (rfl)
@[simp] theorem setDom_regs (s : State) (d : DomainId) (x : Domain) : (setDom s d x).regs = s.regs := (rfl)
@[simp] theorem setDom_pwr (s : State) (d : DomainId) (x : Domain) : (setDom s d x).pwr = s.pwr := (rfl)
@[simp] theorem setDom_dep (s : State) (d : DomainId) (x : Domain) : (setDom s d x).dep = s.dep := (rfl)
@[simp] theorem setDom_jnl (s : State) (d : DomainId) (x : Domain) : (setDom s d x).jnl = s.jnl := (rfl)
@[simp] theorem setDom_port (s : State) (d : DomainId) (x : Domain) : (setDom s d x).port = s.port := (rfl)
@[simp] theorem setDom_arrays (s : State) (d : DomainId) (x : Domain) : (setDom s d x).arrays = s.arrays := (rfl)
@[simp] theorem setDom_cores (s : State) (d : DomainId) (x : Domain) : (setDom s d x).cores = s.cores := (rfl)
@[simp] theorem setDom_adits (s : State) (d : DomainId) (x : Domain) : (setDom s d x).adits = s.adits := (rfl)
@[simp] theorem setDom_hoists (s : State) (d : DomainId) (x : Domain) : (setDom s d x).hoists = s.hoists := (rfl)
@[simp] theorem setDom_scatters (s : State) (d : DomainId) (x : Domain) : (setDom s d x).scatters = s.scatters := (rfl)
@[simp] theorem setDom_assays (s : State) (d : DomainId) (x : Domain) : (setDom s d x).assays = s.assays := (rfl)
@[simp] theorem setDom_chans (s : State) (d : DomainId) (x : Domain) : (setDom s d x).chans = s.chans := (rfl)
@[simp] theorem setDom_links (s : State) (d : DomainId) (x : Domain) : (setDom s d x).links = s.links := (rfl)
@[simp] theorem setDom_chutes (s : State) (d : DomainId) (x : Domain) : (setDom s d x).chutes = s.chutes := (rfl)
@[simp] theorem setDom_hops (s : State) (d : DomainId) (x : Domain) : (setDom s d x).hops = s.hops := (rfl)
@[simp] theorem setDom_counters (s : State) (d : DomainId) (x : Domain) : (setDom s d x).counters = s.counters := (rfl)
@[simp] theorem setDom_cals (s : State) (d : DomainId) (x : Domain) : (setDom s d x).cals = s.cals := (rfl)

/-! ## `setSession` -/

@[simp] theorem setSession_pending (s : State) (i : Nat) (x : Session) : (setSession s i x).pending = s.pending := (rfl)
@[simp] theorem setSession_freeCount (s : State) (i : Nat) (x : Session) : (setSession s i x).freeCount = s.freeCount := (rfl)
@[simp] theorem setSession_mem (s : State) (i : Nat) (x : Session) : (setSession s i x).mem = s.mem := (rfl)
@[simp] theorem setSession_regs (s : State) (i : Nat) (x : Session) : (setSession s i x).regs = s.regs := (rfl)
@[simp] theorem setSession_clk (s : State) (i : Nat) (x : Session) : (setSession s i x).clk = s.clk := (rfl)
@[simp] theorem setSession_pwr (s : State) (i : Nat) (x : Session) : (setSession s i x).pwr = s.pwr := (rfl)
@[simp] theorem setSession_dep (s : State) (i : Nat) (x : Session) : (setSession s i x).dep = s.dep := (rfl)
@[simp] theorem setSession_jnl (s : State) (i : Nat) (x : Session) : (setSession s i x).jnl = s.jnl := (rfl)
@[simp] theorem setSession_arrays (s : State) (i : Nat) (x : Session) : (setSession s i x).arrays = s.arrays := (rfl)
@[simp] theorem setSession_cores (s : State) (i : Nat) (x : Session) : (setSession s i x).cores = s.cores := (rfl)
@[simp] theorem setSession_adits (s : State) (i : Nat) (x : Session) : (setSession s i x).adits = s.adits := (rfl)
@[simp] theorem setSession_hoists (s : State) (i : Nat) (x : Session) : (setSession s i x).hoists = s.hoists := (rfl)
@[simp] theorem setSession_scatters (s : State) (i : Nat) (x : Session) : (setSession s i x).scatters = s.scatters := (rfl)
@[simp] theorem setSession_assays (s : State) (i : Nat) (x : Session) : (setSession s i x).assays = s.assays := (rfl)
@[simp] theorem setSession_chans (s : State) (i : Nat) (x : Session) : (setSession s i x).chans = s.chans := (rfl)
@[simp] theorem setSession_links (s : State) (i : Nat) (x : Session) : (setSession s i x).links = s.links := (rfl)
@[simp] theorem setSession_chutes (s : State) (i : Nat) (x : Session) : (setSession s i x).chutes = s.chutes := (rfl)
@[simp] theorem setSession_hops (s : State) (i : Nat) (x : Session) : (setSession s i x).hops = s.hops := (rfl)
@[simp] theorem setSession_counters (s : State) (i : Nat) (x : Session) : (setSession s i x).counters = s.counters := (rfl)
@[simp] theorem setSession_cals (s : State) (i : Nat) (x : Session) : (setSession s i x).cals = s.cals := (rfl)

/-! ## `setStage` -/

@[simp] theorem setStage_pending (s : State) (g n : Nat) (x : Stage) : (setStage s g n x).pending = s.pending := (rfl)
@[simp] theorem setStage_freeCount (s : State) (g n : Nat) (x : Stage) : (setStage s g n x).freeCount = s.freeCount := (rfl)
@[simp] theorem setStage_mem (s : State) (g n : Nat) (x : Stage) : (setStage s g n x).mem = s.mem := (rfl)
@[simp] theorem setStage_regs (s : State) (g n : Nat) (x : Stage) : (setStage s g n x).regs = s.regs := (rfl)
@[simp] theorem setStage_clk (s : State) (g n : Nat) (x : Stage) : (setStage s g n x).clk = s.clk := (rfl)
@[simp] theorem setStage_pwr (s : State) (g n : Nat) (x : Stage) : (setStage s g n x).pwr = s.pwr := (rfl)
@[simp] theorem setStage_jnl (s : State) (g n : Nat) (x : Stage) : (setStage s g n x).jnl = s.jnl := (rfl)
@[simp] theorem setStage_port (s : State) (g n : Nat) (x : Stage) : (setStage s g n x).port = s.port := (rfl)
@[simp] theorem setStage_arrays (s : State) (g n : Nat) (x : Stage) : (setStage s g n x).arrays = s.arrays := (rfl)
@[simp] theorem setStage_cores (s : State) (g n : Nat) (x : Stage) : (setStage s g n x).cores = s.cores := (rfl)
@[simp] theorem setStage_adits (s : State) (g n : Nat) (x : Stage) : (setStage s g n x).adits = s.adits := (rfl)
@[simp] theorem setStage_hoists (s : State) (g n : Nat) (x : Stage) : (setStage s g n x).hoists = s.hoists := (rfl)
@[simp] theorem setStage_scatters (s : State) (g n : Nat) (x : Stage) : (setStage s g n x).scatters = s.scatters := (rfl)
@[simp] theorem setStage_assays (s : State) (g n : Nat) (x : Stage) : (setStage s g n x).assays = s.assays := (rfl)
@[simp] theorem setStage_chans (s : State) (g n : Nat) (x : Stage) : (setStage s g n x).chans = s.chans := (rfl)
@[simp] theorem setStage_links (s : State) (g n : Nat) (x : Stage) : (setStage s g n x).links = s.links := (rfl)
@[simp] theorem setStage_chutes (s : State) (g n : Nat) (x : Stage) : (setStage s g n x).chutes = s.chutes := (rfl)
@[simp] theorem setStage_hops (s : State) (g n : Nat) (x : Stage) : (setStage s g n x).hops = s.hops := (rfl)
@[simp] theorem setStage_counters (s : State) (g n : Nat) (x : Stage) : (setStage s g n x).counters = s.counters := (rfl)
@[simp] theorem setStage_cals (s : State) (g n : Nat) (x : Stage) : (setStage s g n x).cals = s.cals := (rfl)

/-! ## `updJob` -/

@[simp] theorem updJob_pending (s : State) (k : Nat) (f : Job → Job) : (updJob s k f).pending = s.pending := (rfl)
@[simp] theorem updJob_freeCount (s : State) (k : Nat) (f : Job → Job) : (updJob s k f).freeCount = s.freeCount := (rfl)
@[simp] theorem updJob_mem (s : State) (k : Nat) (f : Job → Job) : (updJob s k f).mem = s.mem := (rfl)
@[simp] theorem updJob_regs (s : State) (k : Nat) (f : Job → Job) : (updJob s k f).regs = s.regs := (rfl)
@[simp] theorem updJob_clk (s : State) (k : Nat) (f : Job → Job) : (updJob s k f).clk = s.clk := (rfl)
@[simp] theorem updJob_pwr (s : State) (k : Nat) (f : Job → Job) : (updJob s k f).pwr = s.pwr := (rfl)
@[simp] theorem updJob_jnl (s : State) (k : Nat) (f : Job → Job) : (updJob s k f).jnl = s.jnl := (rfl)
@[simp] theorem updJob_port (s : State) (k : Nat) (f : Job → Job) : (updJob s k f).port = s.port := (rfl)
@[simp] theorem updJob_arrays (s : State) (k : Nat) (f : Job → Job) : (updJob s k f).arrays = s.arrays := (rfl)
@[simp] theorem updJob_cores (s : State) (k : Nat) (f : Job → Job) : (updJob s k f).cores = s.cores := (rfl)
@[simp] theorem updJob_adits (s : State) (k : Nat) (f : Job → Job) : (updJob s k f).adits = s.adits := (rfl)
@[simp] theorem updJob_hoists (s : State) (k : Nat) (f : Job → Job) : (updJob s k f).hoists = s.hoists := (rfl)
@[simp] theorem updJob_scatters (s : State) (k : Nat) (f : Job → Job) : (updJob s k f).scatters = s.scatters := (rfl)
@[simp] theorem updJob_assays (s : State) (k : Nat) (f : Job → Job) : (updJob s k f).assays = s.assays := (rfl)
@[simp] theorem updJob_chans (s : State) (k : Nat) (f : Job → Job) : (updJob s k f).chans = s.chans := (rfl)
@[simp] theorem updJob_links (s : State) (k : Nat) (f : Job → Job) : (updJob s k f).links = s.links := (rfl)
@[simp] theorem updJob_chutes (s : State) (k : Nat) (f : Job → Job) : (updJob s k f).chutes = s.chutes := (rfl)
@[simp] theorem updJob_hops (s : State) (k : Nat) (f : Job → Job) : (updJob s k f).hops = s.hops := (rfl)
@[simp] theorem updJob_counters (s : State) (k : Nat) (f : Job → Job) : (updJob s k f).counters = s.counters := (rfl)
@[simp] theorem updJob_cals (s : State) (k : Nat) (f : Job → Job) : (updJob s k f).cals = s.cals := (rfl)

/-! ## `setDescSlot` -/

@[simp] theorem setDescSlot_pending (s : State) (i : Nat) (x : DescSlot) : (setDescSlot s i x).pending = s.pending := (rfl)
@[simp] theorem setDescSlot_freeCount (s : State) (i : Nat) (x : DescSlot) : (setDescSlot s i x).freeCount = s.freeCount := (rfl)
@[simp] theorem setDescSlot_mem (s : State) (i : Nat) (x : DescSlot) : (setDescSlot s i x).mem = s.mem := (rfl)
@[simp] theorem setDescSlot_regs (s : State) (i : Nat) (x : DescSlot) : (setDescSlot s i x).regs = s.regs := (rfl)
@[simp] theorem setDescSlot_clk (s : State) (i : Nat) (x : DescSlot) : (setDescSlot s i x).clk = s.clk := (rfl)
@[simp] theorem setDescSlot_pwr (s : State) (i : Nat) (x : DescSlot) : (setDescSlot s i x).pwr = s.pwr := (rfl)
@[simp] theorem setDescSlot_jnl (s : State) (i : Nat) (x : DescSlot) : (setDescSlot s i x).jnl = s.jnl := (rfl)
@[simp] theorem setDescSlot_port (s : State) (i : Nat) (x : DescSlot) : (setDescSlot s i x).port = s.port := (rfl)
@[simp] theorem setDescSlot_arrays (s : State) (i : Nat) (x : DescSlot) : (setDescSlot s i x).arrays = s.arrays := (rfl)
@[simp] theorem setDescSlot_cores (s : State) (i : Nat) (x : DescSlot) : (setDescSlot s i x).cores = s.cores := (rfl)
@[simp] theorem setDescSlot_adits (s : State) (i : Nat) (x : DescSlot) : (setDescSlot s i x).adits = s.adits := (rfl)
@[simp] theorem setDescSlot_hoists (s : State) (i : Nat) (x : DescSlot) : (setDescSlot s i x).hoists = s.hoists := (rfl)
@[simp] theorem setDescSlot_scatters (s : State) (i : Nat) (x : DescSlot) : (setDescSlot s i x).scatters = s.scatters := (rfl)
@[simp] theorem setDescSlot_assays (s : State) (i : Nat) (x : DescSlot) : (setDescSlot s i x).assays = s.assays := (rfl)
@[simp] theorem setDescSlot_chans (s : State) (i : Nat) (x : DescSlot) : (setDescSlot s i x).chans = s.chans := (rfl)
@[simp] theorem setDescSlot_links (s : State) (i : Nat) (x : DescSlot) : (setDescSlot s i x).links = s.links := (rfl)
@[simp] theorem setDescSlot_chutes (s : State) (i : Nat) (x : DescSlot) : (setDescSlot s i x).chutes = s.chutes := (rfl)
@[simp] theorem setDescSlot_hops (s : State) (i : Nat) (x : DescSlot) : (setDescSlot s i x).hops = s.hops := (rfl)
@[simp] theorem setDescSlot_counters (s : State) (i : Nat) (x : DescSlot) : (setDescSlot s i x).counters = s.counters := (rfl)
@[simp] theorem setDescSlot_cals (s : State) (i : Nat) (x : DescSlot) : (setDescSlot s i x).cals = s.cals := (rfl)

/-! ## `setGraphSlot` -/

@[simp] theorem setGraphSlot_pending (s : State) (i : Nat) (x : GraphSlot) : (setGraphSlot s i x).pending = s.pending := (rfl)
@[simp] theorem setGraphSlot_freeCount (s : State) (i : Nat) (x : GraphSlot) : (setGraphSlot s i x).freeCount = s.freeCount := (rfl)
@[simp] theorem setGraphSlot_mem (s : State) (i : Nat) (x : GraphSlot) : (setGraphSlot s i x).mem = s.mem := (rfl)
@[simp] theorem setGraphSlot_regs (s : State) (i : Nat) (x : GraphSlot) : (setGraphSlot s i x).regs = s.regs := (rfl)
@[simp] theorem setGraphSlot_clk (s : State) (i : Nat) (x : GraphSlot) : (setGraphSlot s i x).clk = s.clk := (rfl)
@[simp] theorem setGraphSlot_pwr (s : State) (i : Nat) (x : GraphSlot) : (setGraphSlot s i x).pwr = s.pwr := (rfl)
@[simp] theorem setGraphSlot_jnl (s : State) (i : Nat) (x : GraphSlot) : (setGraphSlot s i x).jnl = s.jnl := (rfl)
@[simp] theorem setGraphSlot_port (s : State) (i : Nat) (x : GraphSlot) : (setGraphSlot s i x).port = s.port := (rfl)
@[simp] theorem setGraphSlot_arrays (s : State) (i : Nat) (x : GraphSlot) : (setGraphSlot s i x).arrays = s.arrays := (rfl)
@[simp] theorem setGraphSlot_cores (s : State) (i : Nat) (x : GraphSlot) : (setGraphSlot s i x).cores = s.cores := (rfl)
@[simp] theorem setGraphSlot_adits (s : State) (i : Nat) (x : GraphSlot) : (setGraphSlot s i x).adits = s.adits := (rfl)
@[simp] theorem setGraphSlot_hoists (s : State) (i : Nat) (x : GraphSlot) : (setGraphSlot s i x).hoists = s.hoists := (rfl)
@[simp] theorem setGraphSlot_scatters (s : State) (i : Nat) (x : GraphSlot) : (setGraphSlot s i x).scatters = s.scatters := (rfl)
@[simp] theorem setGraphSlot_assays (s : State) (i : Nat) (x : GraphSlot) : (setGraphSlot s i x).assays = s.assays := (rfl)
@[simp] theorem setGraphSlot_chans (s : State) (i : Nat) (x : GraphSlot) : (setGraphSlot s i x).chans = s.chans := (rfl)
@[simp] theorem setGraphSlot_links (s : State) (i : Nat) (x : GraphSlot) : (setGraphSlot s i x).links = s.links := (rfl)
@[simp] theorem setGraphSlot_chutes (s : State) (i : Nat) (x : GraphSlot) : (setGraphSlot s i x).chutes = s.chutes := (rfl)
@[simp] theorem setGraphSlot_hops (s : State) (i : Nat) (x : GraphSlot) : (setGraphSlot s i x).hops = s.hops := (rfl)
@[simp] theorem setGraphSlot_counters (s : State) (i : Nat) (x : GraphSlot) : (setGraphSlot s i x).counters = s.counters := (rfl)
@[simp] theorem setGraphSlot_cals (s : State) (i : Nat) (x : GraphSlot) : (setGraphSlot s i x).cals = s.cals := (rfl)

/-! ## `pushTx` -/

@[simp] theorem pushTx_pending (s : State) (f : TxFrame) : (pushTx s f).pending = s.pending := (rfl)
@[simp] theorem pushTx_freeCount (s : State) (f : TxFrame) : (pushTx s f).freeCount = s.freeCount := (rfl)
@[simp] theorem pushTx_mem (s : State) (f : TxFrame) : (pushTx s f).mem = s.mem := (rfl)
@[simp] theorem pushTx_regs (s : State) (f : TxFrame) : (pushTx s f).regs = s.regs := (rfl)
@[simp] theorem pushTx_clk (s : State) (f : TxFrame) : (pushTx s f).clk = s.clk := (rfl)
@[simp] theorem pushTx_pwr (s : State) (f : TxFrame) : (pushTx s f).pwr = s.pwr := (rfl)
@[simp] theorem pushTx_dep (s : State) (f : TxFrame) : (pushTx s f).dep = s.dep := (rfl)
@[simp] theorem pushTx_jnl (s : State) (f : TxFrame) : (pushTx s f).jnl = s.jnl := (rfl)
@[simp] theorem pushTx_arrays (s : State) (f : TxFrame) : (pushTx s f).arrays = s.arrays := (rfl)
@[simp] theorem pushTx_cores (s : State) (f : TxFrame) : (pushTx s f).cores = s.cores := (rfl)
@[simp] theorem pushTx_adits (s : State) (f : TxFrame) : (pushTx s f).adits = s.adits := (rfl)
@[simp] theorem pushTx_hoists (s : State) (f : TxFrame) : (pushTx s f).hoists = s.hoists := (rfl)
@[simp] theorem pushTx_scatters (s : State) (f : TxFrame) : (pushTx s f).scatters = s.scatters := (rfl)
@[simp] theorem pushTx_assays (s : State) (f : TxFrame) : (pushTx s f).assays = s.assays := (rfl)
@[simp] theorem pushTx_chans (s : State) (f : TxFrame) : (pushTx s f).chans = s.chans := (rfl)
@[simp] theorem pushTx_links (s : State) (f : TxFrame) : (pushTx s f).links = s.links := (rfl)
@[simp] theorem pushTx_chutes (s : State) (f : TxFrame) : (pushTx s f).chutes = s.chutes := (rfl)
@[simp] theorem pushTx_hops (s : State) (f : TxFrame) : (pushTx s f).hops = s.hops := (rfl)
@[simp] theorem pushTx_counters (s : State) (f : TxFrame) : (pushTx s f).counters = s.counters := (rfl)
@[simp] theorem pushTx_cals (s : State) (f : TxFrame) : (pushTx s f).cals = s.cals := (rfl)

/-! ## `drawChoice` -/

@[simp] theorem drawChoice_pending (s : State) : (drawChoice s).2.pending = s.pending := (rfl)
@[simp] theorem drawChoice_mem (s : State) : (drawChoice s).2.mem = s.mem := (rfl)
@[simp] theorem drawChoice_regs (s : State) : (drawChoice s).2.regs = s.regs := (rfl)
@[simp] theorem drawChoice_clk (s : State) : (drawChoice s).2.clk = s.clk := (rfl)
@[simp] theorem drawChoice_pwr (s : State) : (drawChoice s).2.pwr = s.pwr := (rfl)
@[simp] theorem drawChoice_dep (s : State) : (drawChoice s).2.dep = s.dep := (rfl)
@[simp] theorem drawChoice_jnl (s : State) : (drawChoice s).2.jnl = s.jnl := (rfl)
@[simp] theorem drawChoice_port (s : State) : (drawChoice s).2.port = s.port := (rfl)
@[simp] theorem drawChoice_arrays (s : State) : (drawChoice s).2.arrays = s.arrays := (rfl)
@[simp] theorem drawChoice_cores (s : State) : (drawChoice s).2.cores = s.cores := (rfl)
@[simp] theorem drawChoice_adits (s : State) : (drawChoice s).2.adits = s.adits := (rfl)
@[simp] theorem drawChoice_hoists (s : State) : (drawChoice s).2.hoists = s.hoists := (rfl)
@[simp] theorem drawChoice_scatters (s : State) : (drawChoice s).2.scatters = s.scatters := (rfl)
@[simp] theorem drawChoice_assays (s : State) : (drawChoice s).2.assays = s.assays := (rfl)
@[simp] theorem drawChoice_chans (s : State) : (drawChoice s).2.chans = s.chans := (rfl)
@[simp] theorem drawChoice_links (s : State) : (drawChoice s).2.links = s.links := (rfl)
@[simp] theorem drawChoice_chutes (s : State) : (drawChoice s).2.chutes = s.chutes := (rfl)
@[simp] theorem drawChoice_hops (s : State) : (drawChoice s).2.hops = s.hops := (rfl)
@[simp] theorem drawChoice_counters (s : State) : (drawChoice s).2.counters = s.counters := (rfl)
@[simp] theorem drawChoice_cals (s : State) : (drawChoice s).2.cals = s.cals := (rfl)
@[simp] theorem drawChoice_freeCount (s : State) : (drawChoice s).2.freeCount = s.freeCount + 1 := (rfl)

end Sys2Proof.Machine
end

