-- ==== Sys2Proof/Laws/Store.lean ====
section
/-! SUPPORT. The laws of sparse tables and byte stores: what is read after a write, and that every write keeps the canonical
form. -/

-- one theorem after the other: proofs side by side would need more memory than the check allows
set_option Elab.async false

namespace Sys2Proof.Machine

section Tables
variable {α : Type}

theorem tget_terase_self (t : Table α) (d : α) (i : Nat) : tget (terase t i) d i = d := by
  induction t with
  | nil => rfl
  | cons e r ih =>
    by_cases h : e.1 = i
    · simp [terase, h] at ih ⊢
      exact ih
    · simp [terase, h, tget] at ih ⊢
      exact ih

theorem tget_terase_other (t : Table α) (d : α) {i j : Nat} (h : j ≠ i) : tget (terase t i) d j = tget t d j := by
  induction t with
  | nil => rfl
  | cons e r ih =>
    by_cases h1 : e.1 = i
    · have h2 : ¬ e.1 = j := by omega
      simp [terase, h1, tget] at ih ⊢
      rw [ih]
      have h3 : ¬ i = j := by omega
      simp [h3]
    · simp [terase, h1, tget] at ih ⊢
      rw [ih]

theorem tget_tinsert_self (t : Table α) (d : α) (i : Nat) (x : α) (h : ∀ e ∈ t, e.1 ≠ i) :
    tget (tinsert t i x) d i = x := by
  induction t with
  | nil => simp [tinsert, tget]
  | cons e r ih =>
    have he : e.1 ≠ i := h e (by simp)
    have hr := ih fun e he' => h e (by simp [he'])
    unfold tinsert
    split
    · simp [tget]
    · simp [tget, he, hr]

theorem tget_tinsert_other (t : Table α) (d : α) {i j : Nat} (x : α) (h : j ≠ i) :
    tget (tinsert t i x) d j = tget t d j := by
  induction t with
  | nil =>
    have h' : ¬ i = j := by omega
    simp [tinsert, tget, h']
  | cons e r ih =>
    have h' : ¬ i = j := by omega
    unfold tinsert
    split
    · simp [tget, h']
    · simp [tget, ih]

theorem terase_ne (t : Table α) (i : Nat) : ∀ e ∈ terase t i, e.1 ≠ i := by
  intro e he
  simp [terase] at he
  exact he.2

/-- A read of the entry just written gives what was written. -/
@[simp] theorem tget_tset_self [DecidableEq α] (t : Table α) (d : α) (i : Nat) (x : α) : tget (tset t d i x) d i = x := by
  unfold tset
  split
  · rw [tget_terase_self]
    exact Eq.symm ‹_›
  · exact tget_tinsert_self _ _ _ _ (terase_ne t i)

/-- A write leaves every other entry as it was. -/
theorem tget_tset_other [DecidableEq α] (t : Table α) (d : α) {i j : Nat} (x : α) (h : j ≠ i) :
    tget (tset t d i x) d j = tget t d j := by
  unfold tset
  split
  · exact tget_terase_other t d h
  · rw [tget_tinsert_other _ _ _ h, tget_terase_other _ _ h]

/-- A read after a write. -/
theorem tget_tset [DecidableEq α] (t : Table α) (d : α) (i j : Nat) (x : α) :
    tget (tset t d i x) d j = if j = i then x else tget t d j := by
  split
  · subst_vars
    exact tget_tset_self ..
  · exact tget_tset_other _ _ _ ‹_›

@[simp] theorem tget_nil (d : α) (i : Nat) : tget ([] : Table α) d i = d := rfl

theorem terase_ok [DecidableEq α] {t : Table α} {d : α} (i : Nat) (h : TableOk t d) : TableOk (terase t i) d :=
  ⟨h.1.filter _, fun e he => h.2 e (List.mem_filter.mp he).1⟩

theorem tinsert_mem (t : Table α) (i : Nat) (x : α) (e : Nat × α) (h : e ∈ tinsert t i x) : e = (i, x) ∨ e ∈ t := by
  induction t with
  | nil => simpa [tinsert] using h
  | cons c r ih =>
    unfold tinsert at h
    split at h
    · simpa using h
    · rcases List.mem_cons.mp h with h | h
      · exact .inr (by simp [h])
      · exact (ih h).imp_right (List.mem_cons_of_mem _)

/-- What a table gives at an index is listed in it, or is the default. -/
theorem tget_mem (t : Table α) (d : α) (i : Nat) : (i, tget t d i) ∈ t ∨ tget t d i = d := by
  induction t with
  | nil => exact .inr rfl
  | cons e r ih =>
    obtain ⟨j, x⟩ := e
    by_cases h : j = i
    · subst h
      left
      simp [tget]
    · simp only [tget, if_neg h]
      exact ih.imp (List.mem_cons_of_mem _) id

/-- What a table lists after one entry has been put in place. -/
theorem tset_mem [DecidableEq α] (t : Table α) (d : α) (i : Nat) (x : α) (e : Nat × α) (h : e ∈ tset t d i x) :
    e = (i, x) ∨ e ∈ t := by
  unfold tset at h
  split at h
  · exact .inr (List.mem_filter.mp h).1
  · exact (tinsert_mem _ _ _ _ h).imp id fun k => (List.mem_filter.mp k).1

theorem tinsert_ok [DecidableEq α] {t : Table α} {d : α} (i : Nat) (x : α) (hx : x ≠ d) (hi : ∀ e ∈ t, e.1 ≠ i) (h : TableOk t d) :
    TableOk (tinsert t i x) d := by
  refine ⟨?_, fun e he => ?_⟩
  · induction t with
    | nil => simp [tinsert]
    | cons c r ih =>
      have hc := List.pairwise_cons.mp h.1
      have hr : TableOk r d := ⟨hc.2, fun e he => h.2 e (by simp [he])⟩
      have hci : c.1 ≠ i := hi c (by simp)
      unfold tinsert
      split
      · refine List.pairwise_cons.mpr ⟨fun e he => ?_, h.1⟩
        rcases List.mem_cons.mp he with rfl | he
        · assumption
        · have := hc.1 e he
          omega
      · refine List.pairwise_cons.mpr ⟨fun e he => ?_, ih (fun e he => hi e (by simp [he])) hr⟩
        rcases tinsert_mem _ _ _ _ he with rfl | he
        · omega
        · exact hc.1 e he
  · rcases tinsert_mem _ _ _ _ he with rfl | he
    · exact hx
    · exact h.2 e he

/-- A write keeps the canonical form. -/
theorem tset_ok [DecidableEq α] {t : Table α} {d : α} (i : Nat) (x : α) (h : TableOk t d) : TableOk (tset t d i x) d := by
  unfold tset
  split
  · exact terase_ok i h
  · exact tinsert_ok i x ‹_› (terase_ne t i) (terase_ok i h)

end Tables

/-! ## Module memory -/

@[simp] theorem loadByte_storeByte_self (m : List Host.Cell) (a : Nat) (b : Byte) : loadByte (storeByte m a b) a = b :=
  tget_tset_self m 0 a b

theorem loadByte_storeByte_other (m : List Host.Cell) {a c : Nat} (b : Byte) (h : c ≠ a) :
    loadByte (storeByte m a b) c = loadByte m c :=
  tget_tset_other m 0 b h

/-- Bytes outside a stored range read as before. -/
theorem loadByte_storeBytes_other (m : List Host.Cell) (a c : Nat) (bs : List Byte) (h : c < a ∨ a + bs.length ≤ c) :
    loadByte (storeBytes m a bs) c = loadByte m c := by
  induction bs generalizing m a with
  | nil => rfl
  | cons b r ih =>
    simp only [List.length_cons] at h
    rw [storeBytes, ih _ _ (by omega), loadByte_storeByte_other _ _ (by omega)]

/-- A byte of a stored range reads as stored. -/
theorem loadByte_storeBytes_self (m : List Host.Cell) (a : Nat) (bs : List Byte) (i : Nat) (h : i < bs.length) :
    loadByte (storeBytes m a bs) (a + i) = bs[i] := by
  induction bs generalizing m a i with
  | nil => simp at h
  | cons b r ih =>
    cases i with
    | zero =>
      rw [storeBytes, loadByte_storeBytes_other _ _ _ _ (by omega)]
      simp
    | succ k =>
      have := ih (storeByte m a b) (a + 1) k (by simpa using h)
      rw [storeBytes]
      have hk : a + (k + 1) = a + 1 + k := by omega
      rw [hk]
      simpa using this

/-- Writing one byte keeps the canonical form. -/
theorem storeByte_wf {m : List Host.Cell} (a : Nat) (b : Byte) (h : Memory.wf m) : Memory.wf (storeByte m a b) :=
  tset_ok a b h

/-- Writing bytes keeps the canonical form. -/
theorem storeBytes_wf {m : List Host.Cell} (a : Nat) (bs : List Byte) (h : Memory.wf m) :
    Memory.wf (storeBytes m a bs) := by
  induction bs generalizing m a with
  | nil => exact h
  | cons b r ih => exact ih (a + 1) (storeByte_wf a b h)

/-- Losing the bytes of a range keeps the canonical form. -/
theorem filter_wf {m : List Host.Cell} (p : Host.Cell → Bool) (h : Memory.wf m) : Memory.wf (m.filter p) :=
  ⟨h.1.filter p, fun e he => h.2 e (List.mem_filter.mp he).1⟩

@[simp] theorem nil_wf : Memory.wf [] := ⟨.nil, by simp⟩

/-- Writing a NOR image keeps its canonical form. -/
theorem norStore_wf {m : List Host.Cell} (a : Nat) (bs : List Byte) (h : Memory.wfFill 0xFF m) :
    Memory.wfFill 0xFF (norStore m a bs) := by
  induction bs generalizing m a with
  | nil => exact h
  | cons b r ih => exact ih (a + 1) (tset_ok a b h)

end Sys2Proof.Machine
end

