-- ==== Sys2Proof/Laws/Keeps.lean ====
section
/-! SUPPORT. What every command does to the whole: it leaves the queue as it is, keeps the invariant and takes back no fuse.
`Keeps z t` says so of a state `t` that comes from `z`; it is carried through the operations one by one. -/

-- one theorem after the other: proofs side by side would need more memory than the check allows
set_option Elab.async false

namespace Sys2Proof.Machine

open Sys2Proof.Safety

theorem fixed_refl (p : Power) : Fixed p p :=
  ⟨rfl, rfl, rfl, Nat.le_refl _, fun _ x h => ⟨x, h, rfl, id⟩⟩

theorem fixed_trans {p q r : Power} (h : Fixed p q) (k : Fixed q r) : Fixed p r := by
  refine ⟨k.mac.trans h.mac, k.serial.trans h.serial, k.revoked.trans h.revoked, Nat.le_trans h.floor k.floor,
    fun i x e => ?_⟩
  obtain ⟨y, e1, d1, r1⟩ := h.slots i x e
  obtain ⟨w, e2, d2, r2⟩ := k.slots i y e1
  exact ⟨w, e2, d2.trans d1, fun e => r2 (r1 e)⟩

/-- A power state with the same identity and fuses. -/
theorem fixed_same {z p q : Power} (h : Fixed z p)
    (e : (q.mac, q.serial, q.keySet0Revoked, q.secFloor, q.ownerSlots) =
      (p.mac, p.serial, p.keySet0Revoked, p.secFloor, p.ownerSlots)) : Fixed z q := by
  simp only [Prod.mk.injEq] at e
  obtain ⟨h1, h2, h3, h4, h5⟩ := e
  exact ⟨h1.trans h.mac, h2.trans h.serial, h3.trans h.revoked, h4 ▸ h.floor, h5 ▸ h.slots⟩

/-- The parts listed are among those that may change. -/
def Can (l : List Part) (P : Part → Prop) : Prop :=
  ∀ p ∈ l, P p

theorem Can.mem {l : List Part} {P : Part → Prop} {p : Part} (c : Can l P) (h : p ∈ l) : P p :=
  c p h

theorem Can.sub {l m : List Part} {P : Part → Prop} (c : Can l P) (h : ∀ p ∈ m, p ∈ l) : Can m P :=
  fun p e => c p (h p e)

/-- All the parts listed may change where they are what may change. -/
theorem Can.all (l : List Part) : Can l (· ∈ l) :=
  fun _ h => h

theorem same_refl (p : Part) (s : State) : p.same s s := by
  cases p <;> rfl

theorem same_trans {p : Part} {r s t : State} (h : p.same r s) (k : p.same s t) : p.same r t := by
  cases p <;> exact Eq.trans k h

/-- `t` has the queue of `z`, the invariant if `z` has it, the fuses of `z`, and every part of `z` but those in `P`. -/
structure Keeps (P : Part → Prop) (z t : State) : Prop where
  pending : t.pending = z.pending
  inv : Inv z → Inv t
  fixed : Fixed z.pwr t.pwr
  parts : ∀ p, P p ∨ p.same z t

theorem Keeps.refl {P : Part → Prop} (s : State) : Keeps P s s :=
  ⟨rfl, id, fixed_refl _, fun p => .inr (same_refl p s)⟩

theorem Keeps.trans {P : Part → Prop} {r s t : State} (h : Keeps P r s) (k : Keeps P s t) : Keeps P r t :=
  ⟨k.pending.trans h.pending, fun i => k.inv (h.inv i), fixed_trans h.fixed k.fixed, fun p =>
    (h.parts p).elim .inl fun e => (k.parts p).elim .inl fun f => .inr (same_trans e f)⟩

/-- What keeps all but some parts keeps all but more. -/
theorem Keeps.mono {l m : List Part} {s t : State} (h : Keeps (· ∈ l) s t) (i : ∀ p ∈ l, p ∈ m := by decide) :
    Keeps (· ∈ m) s t :=
  ⟨h.pending, h.inv, h.fixed, fun p => (h.parts p).imp (i p) id⟩

/-- What keeps everything but some parts has the rest as it was. -/
theorem Keeps.sameBut {l : List Part} {s t : State} (h : Keeps (· ∈ l) s t) : SameBut l s t :=
  ⟨h.pending, h.parts⟩

/-- The parts of a state that differs from one that keeps in some parts only. -/
theorem Keeps.step {P : Part → Prop} {z s t : State} (h : Keeps P z s) (k : ∀ p, P p ∨ p.same s t) :
    ∀ p, P p ∨ p.same z t :=
  fun p => (h.parts p).elim .inl fun e => (k p).elim .inl fun f => .inr (same_trans e f)

/-- The fields of the power state that `Keeps` names. -/
abbrev powerKey (p : Power) : List Host.Cell × List Host.Cell × Nat × Nat × Nat × Bool × Nat × List OwnerSlot :=
  (p.norA, p.norB, p.announced, p.mac, p.serial, p.keySet0Revoked, p.secFloor, p.ownerSlots)

/-- A state that differs in nothing that the invariant and the fuses name. -/
theorem Keeps.same {P : Part → Prop} {z s t : State} (h : Keeps P z s) (hp : t.pending = s.pending) (hm : t.mem = s.mem)
    (hk : powerKey t.pwr = powerKey s.pwr) (hn : t.port.nonces = s.port.nonces)
    (k : ∀ p, P p ∨ p.same s t := by
      intro p
      cases p <;> first
        | exact .inl (Can.mem (by assumption) (by decide))
        | exact .inr (by with_unfolding_all rfl)) :
    Keeps P z t := by
  obtain ⟨ha, hb, hc, h1, h2, h3, h4, h5⟩ : t.pwr.norA = s.pwr.norA ∧ t.pwr.norB = s.pwr.norB ∧
      t.pwr.announced = s.pwr.announced ∧ t.pwr.mac = s.pwr.mac ∧ t.pwr.serial = s.pwr.serial ∧
      t.pwr.keySet0Revoked = s.pwr.keySet0Revoked ∧ t.pwr.secFloor = s.pwr.secFloor ∧
      t.pwr.ownerSlots = s.pwr.ownerSlots := by
    simpa [powerKey] using hk
  refine ⟨hp.trans h.pending, fun i => ?_, ?_, h.step k⟩
  · have j := h.inv i
    exact ⟨hm ▸ j.mem, ha ▸ j.norA, hb ▸ j.norB, hn ▸ j.nonces, hc ▸ j.announced⟩
  · exact ⟨h1.trans h.fixed.mac, h2.trans h.fixed.serial, h3.trans h.fixed.revoked, h4 ▸ h.fixed.floor,
      h5 ▸ h.fixed.slots⟩

/-- A state whose invariant follows from that of one that keeps, with no fuse taken back. -/
theorem Keeps.of {P : Part → Prop} {z s t : State} (h : Keeps P z s) (hp : t.pending = s.pending) (i : Inv s → Inv t)
    (f : Fixed s.pwr t.pwr)
    (k : ∀ p, P p ∨ p.same s t := by
      intro p
      cases p <;> first
        | exact .inl (Can.mem (by assumption) (by decide))
        | exact .inr (by with_unfolding_all rfl)) :
    Keeps P z t :=
  ⟨hp.trans h.pending, fun e => i (h.inv e), fixed_trans h.fixed f, h.step k⟩

/-- An update of a state that changes nothing that the invariant and the fuses name. -/
theorem Keeps.upd {P : Part → Prop} {z s : State} {n : Nat} {m : List Host.Cell} {r : Table Word} {c : Clocks} {p : Power}
    {d : Deputy} {j : Journal} {o : Port} {ar : Table ArrayState} {co : Table CoreState} {ad : Table AditState}
    {ho : Table HoistQueue} {sc : List ScatterBuffer} {ay : List AssayTable} {ch : Table ChanState} {l : Table LinkState}
    {cu : Table Endpoint} {hp : Table HopState} {ct : Table WorkCounter} {ca : Table CalState} (h : Keeps P z s)
    (hm : m = s.mem) (hk : powerKey p = powerKey s.pwr) (hn : o.nonces = s.port.nonces)
    (k : ∀ q, P q ∨ q.same s ⟨s.pending, n, m, r, c, p, d, j, o, ar, co, ad, ho, sc, ay, ch, l, cu, hp, ct, ca⟩ := by
      intro p
      cases p <;> first
        | exact .inl (Can.mem (by assumption) (by decide))
        | exact .inr (by simp only [Part.same] <;> with_reducible rfl)) :
    Keeps P z ⟨s.pending, n, m, r, c, p, d, j, o, ar, co, ad, ho, sc, ay, ch, l, cu, hp, ct, ca⟩ :=
  h.same rfl hm hk hn k

/-- A fold of an operation that keeps. -/
theorem Keeps.foldl {P : Part → Prop} {α : Type} {z s : State} {f : State → α → State} (h : Keeps P z s) (l : List α)
    (hf : ∀ s x, Keeps P z s → Keeps P z (f s x)) : Keeps P z (l.foldl f s) := by
  induction l generalizing s with
  | nil => exact h
  | cons x r ih => exact ih (hf s x h)

/-- A fold that carries something beside the state. -/
theorem Keeps.foldl_snd {P : Part → Prop} {α β : Type} {z : State} {p : β × State} {f : β × State → α → β × State} (h : Keeps P z p.2)
    (l : List α) (hf : ∀ p x, Keeps P z p.2 → Keeps P z (f p x).2) : Keeps P z (l.foldl f p).2 := by
  induction l generalizing p with
  | nil => exact h
  | cons x r ih => exact ih (hf p x h)

/-- A fold that carries something beside the state. -/
theorem Keeps.foldl_fst {P : Part → Prop} {α β : Type} {z : State} {p : State × β} {f : State × β → α → State × β} (h : Keeps P z p.1)
    (l : List α) (hf : ∀ p x, Keeps P z p.1 → Keeps P z (f p x).1) : Keeps P z (l.foldl f p).1 := by
  induction l generalizing p with
  | nil => exact h
  | cons x r ih => exact ih (hf p x h)

/-- A choice whose branches keep; the branch that is left as it is serves the other. -/
theorem Keeps.ite {P : Part → Prop} {z a b : State} {c : Prop} [Decidable c] (h : Keeps P z b) (k : Keeps P z b → Keeps P z a) :
    Keeps P z (if c then a else b) := by
  split
  · exact k h
  · exact h

theorem Keeps.of_snd {P : Part → Prop} {β : Type} {z t : State} {p : β × State} {b : β} (e : p = (b, t)) (h : Keeps P z p.2) : Keeps P z t := by
  rw [e] at h
  exact h

theorem Keeps.of_fst {P : Part → Prop} {β : Type} {z t : State} {p : State × β} {b : β} (e : p = (t, b)) (h : Keeps P z p.1) : Keeps P z t := by
  rw [e] at h
  exact h

end Sys2Proof.Machine
end

