-- ==== Sys2Proof/Laws/KeepsOps.lean ====
section
/-! SUPPORT. One lemma for each operation over the whole state: what it gives keeps the queue, the invariant and the fuses. -/

namespace Sys2Proof.Machine

open Sys2Proof.Safety

-- one theorem after the other: proofs side by side would need more memory than the check allows
set_option Elab.async false

theorem setRawReg_keeps {P : Part → Prop} {z s : State} (h : Keeps P z s) (a) (v)
    (can : Can [.regs] P := by exact Can.sub (by assumption) (by decide)) : Keeps P z (setRawReg s a v) :=
  h.same rfl rfl rfl rfl

theorem count_keeps {P : Part → Prop} {z s : State} (h : Keeps P z s) (base) (off) (n)
    (can : Can [.regs] P := by exact Can.sub (by assumption) (by decide)) : Keeps P z (count s base off n) := by
  unfold count
  with_reducible repeat' first | assumption | apply setRawReg_keeps

theorem raise_keeps {P : Part → Prop} {z s : State} (h : Keeps P z s) (base) (f)
    (can : Can [.regs] P := by exact Can.sub (by assumption) (by decide)) : Keeps P z (raise s base f) := by
  unfold raise
  with_reducible repeat' first | assumption | apply setRawReg_keeps

theorem raiseIf_keeps {P : Part → Prop} {z s : State} (h : Keeps P z s) (c) (base) (f)
    (can : Can [.regs] P := by exact Can.sub (by assumption) (by decide)) : Keeps P z (raiseIf c s base f) := by
  unfold raiseIf
  with_reducible repeat' first | assumption | apply raise_keeps | refine Keeps.ite ?_ (fun _ => ?_)

theorem setRawField_keeps {P : Part → Prop} {z s : State} (h : Keeps P z s) (a) (hi) (lo) (v)
    (can : Can [.regs] P := by exact Can.sub (by assumption) (by decide)) : Keeps P z (setRawField s a hi lo v) := by
  unfold setRawField
  with_reducible repeat' first | assumption | apply setRawReg_keeps

theorem setArray_keeps {P : Part → Prop} {z s : State} (h : Keeps P z s) (a) (x)
    (can : Can [.arrays] P := by exact Can.sub (by assumption) (by decide)) : Keeps P z (setArray s a x) :=
  h.same rfl rfl rfl rfl

theorem setCore_keeps {P : Part → Prop} {z s : State} (h : Keeps P z s) (c) (x)
    (can : Can [.cores] P := by exact Can.sub (by assumption) (by decide)) : Keeps P z (setCore s c x) :=
  h.same rfl rfl rfl rfl

theorem setSlot_keeps {P : Part → Prop} {z s : State} (h : Keeps P z s) (t) (x)
    (can : Can [.cores] P := by exact Can.sub (by assumption) (by decide)) : Keeps P z (setSlot s t x) := by
  unfold setSlot
  with_reducible repeat' first | assumption | apply setCore_keeps

theorem setAdit_keeps {P : Part → Prop} {z s : State} (h : Keeps P z s) (u) (x)
    (can : Can [.adits] P := by exact Can.sub (by assumption) (by decide)) : Keeps P z (setAdit s u x) :=
  h.same rfl rfl rfl rfl

theorem setQueue_keeps {P : Part → Prop} {z s : State} (h : Keeps P z s) (q) (x)
    (can : Can [.hoists] P := by exact Can.sub (by assumption) (by decide)) : Keeps P z (setQueue s q x) :=
  h.same rfl rfl rfl rfl

theorem setChan_keeps {P : Part → Prop} {z s : State} (h : Keeps P z s) (c) (x)
    (can : Can [.chans] P := by exact Can.sub (by assumption) (by decide)) : Keeps P z (setChan s c x) :=
  h.same rfl rfl rfl rfl

theorem setEp_keeps {P : Part → Prop} {z s : State} (h : Keeps P z s) (e) (x)
    (can : Can [.chutes] P := by exact Can.sub (by assumption) (by decide)) : Keeps P z (setEp s e x) :=
  h.same rfl rfl rfl rfl

theorem setHop_keeps {P : Part → Prop} {z s : State} (h : Keeps P z s) (c) (x)
    (can : Can [.hops] P := by exact Can.sub (by assumption) (by decide)) : Keeps P z (setHop s c x) :=
  h.same rfl rfl rfl rfl

theorem setCounter_keeps {P : Part → Prop} {z s : State} (h : Keeps P z s) (seam) (k) (x)
    (can : Can [.counters] P := by exact Can.sub (by assumption) (by decide)) : Keeps P z (setCounter s seam k x) :=
  h.same rfl rfl rfl rfl

theorem setCal_keeps {P : Part → Prop} {z s : State} (h : Keeps P z s) (seam) (x)
    (can : Can [.cals] P := by exact Can.sub (by assumption) (by decide)) : Keeps P z (setCal s seam x) :=
  h.same rfl rfl rfl rfl

theorem setDom_keeps {P : Part → Prop} {z s : State} (h : Keeps P z s) (d) (x)
    (can : Can [.doms] P := by exact Can.sub (by assumption) (by decide)) : Keeps P z (setDom s d x) :=
  h.same rfl rfl rfl rfl

theorem setSession_keeps {P : Part → Prop} {z s : State} (h : Keeps P z s) (i) (x)
    (can : Can [.sessions] P := by exact Can.sub (by assumption) (by decide)) : Keeps P z (setSession s i x) :=
  h.same rfl rfl rfl rfl

theorem setStage_keeps {P : Part → Prop} {z s : State} (h : Keeps P z s) (graph) (node) (x)
    (can : Can [.stages] P := by exact Can.sub (by assumption) (by decide)) : Keeps P z (setStage s graph node x) :=
  h.same rfl rfl rfl rfl

theorem updJob_keeps {P : Part → Prop} {z s : State} (h : Keeps P z s) (key) (f)
    (can : Can [.jobs] P := by exact Can.sub (by assumption) (by decide)) : Keeps P z (updJob s key f) :=
  h.same rfl rfl rfl rfl

theorem setDescSlot_keeps {P : Part → Prop} {z s : State} (h : Keeps P z s) (i) (x)
    (can : Can [.descs] P := by exact Can.sub (by assumption) (by decide)) : Keeps P z (setDescSlot s i x) :=
  h.same rfl rfl rfl rfl

theorem setGraphSlot_keeps {P : Part → Prop} {z s : State} (h : Keeps P z s) (i) (x)
    (can : Can [.graphs] P := by exact Can.sub (by assumption) (by decide)) : Keeps P z (setGraphSlot s i x) :=
  h.same rfl rfl rfl rfl

theorem drawChoice_keeps {P : Part → Prop} {z s : State} (h : Keeps P z s)
    (can : Can [.freeCount] P := by exact Can.sub (by assumption) (by decide)) : Keeps P z (drawChoice s).2 :=
  h.same rfl rfl rfl rfl

theorem setLanes_keeps {P : Part → Prop} {z s : State} (h : Keeps P z s) (t) (v) (lanes)
    (can : Can [.cores] P := by exact Can.sub (by assumption) (by decide)) : Keeps P z (setLanes s t v lanes) := by
  unfold setLanes
  with_reducible repeat' first | assumption | apply setSlot_keeps

theorem writeScratch_keeps {P : Part → Prop} {z s : State} (h : Keeps P z s) (c) (off) (bs)
    (can : Can [.mem, .cores] P := by exact Can.sub (by assumption) (by decide)) :
    Keeps P z (writeScratch s c off bs) := by
  unfold writeScratch
  extract_lets x t
  have k : Keeps P z t := Keeps.ite (setCore_keeps h ..) fun _ => h
  exact k.of rfl (fun i => { i with mem := storeBytes_wf _ _ i.mem }) (fixed_refl _)

theorem veDone_keeps {P : Part → Prop} {z s : State} (h : Keeps P z s) (c) (cycles)
    (can : Can [.regs] P := by exact Can.sub (by assumption) (by decide)) : Keeps P z (veDone s c cycles) := by
  unfold veDone
  with_reducible repeat' first | assumption | apply count_keeps

theorem veResult_keeps {P : Part → Prop} {z s : State} (h : Keeps P z s) (t) (dst) (lanes) (cycles)
    (can : Can [.regs, .cores] P := by exact Can.sub (by assumption) (by decide)) :
    Keeps P z (veResult s t dst lanes cycles) := by
  unfold veResult
  with_reducible repeat' first
    | assumption | exact Can.sub (by assumption) (by decide) | apply veDone_keeps | apply setLanes_keeps

theorem veOob_keeps {P : Part → Prop} {z s : State} (h : Keeps P z s) (t) (n)
    (can : Can [.regs, .cores] P := by exact Can.sub (by assumption) (by decide)) : Keeps P z (veOob s t n) := by
  unfold veOob
  with_reducible repeat' first
    | assumption | exact Can.sub (by assumption) (by decide) | apply raise_keeps | apply count_keeps
      | apply setSlot_keeps | refine Keeps.ite ?_ (fun _ => ?_)

theorem cvtCountRegs_keeps {P : Part → Prop} {z s : State} (h : Keeps P z s) (core) (c)
    (can : Can [.regs] P := by exact Can.sub (by assumption) (by decide)) : Keeps P z (cvtCountRegs s core c) := by
  unfold cvtCountRegs
  with_reducible repeat' first
    | assumption | exact Can.sub (by assumption) (by decide) | apply count_keeps | apply raise_keeps | refine Keeps.ite ?_ (fun _ => ?_) | split | intro _ _ _ | intro _ _ | apply Keeps.foldl | extract_lets

theorem cvtCountCore_keeps {P : Part → Prop} {z s : State} (h : Keeps P z s) (t) (c)
    (can : Can [.regs, .cores] P := by exact Can.sub (by assumption) (by decide)) : Keeps P z (cvtCountCore s t c) := by
  unfold cvtCountCore
  with_reducible repeat' first
    | assumption | exact Can.sub (by assumption) (by decide) | apply cvtCountRegs_keeps | apply setSlot_keeps | refine Keeps.ite ?_ (fun _ => ?_) | split | intro _ _ _ | intro _ _ | apply Keeps.foldl | extract_lets

theorem revalidate_keeps {P : Part → Prop} {z s : State} (h : Keeps P z s) (a) (n)
    (can : Can [.voids, .dep] P := by exact Can.sub (by assumption) (by decide)) : Keeps P z (revalidate s a n) := by
  unfold revalidate
  with_reducible repeat' first
    | assumption | refine Keeps.ite ?_ (fun _ => ?_) | (refine Keeps.upd ?_ rfl rfl rfl; assumption)

theorem coverPart_keeps {P : Part → Prop} {z s : State} (h : Keeps P z s) (w) (a) (n)
    (can : Can [.voids, .dep] P := by exact Can.sub (by assumption) (by decide)) : Keeps P z (coverPart s w a n) := by
  unfold coverPart
  with_reducible repeat' first
    | assumption | exact Can.sub (by assumption) (by decide) | refine Keeps.ite ?_ (fun _ => ?_) | split | intro _ _ _ | intro _ _ | apply Keeps.foldl | (refine Keeps.upd ?_ rfl rfl rfl) | extract_lets

theorem writeVat_keeps {P : Part → Prop} {z s : State} (h : Keeps P z s) (c) (off) (bs)
    (can : Can [.regs, .cores] P := by exact Can.sub (by assumption) (by decide)) :
    Keeps P z (writeVat s c off bs) := by
  unfold writeVat
  with_reducible repeat' first
    | assumption | exact Can.sub (by assumption) (by decide) | apply setCore_keeps | apply raise_keeps
      | apply count_keeps | refine Keeps.ite ?_ (fun _ => ?_)

theorem staleAssays_keeps {P : Part → Prop} {z s : State} (h : Keeps P z s) (a) (n)
    (can : Can [.assays] P := by exact Can.sub (by assumption) (by decide)) : Keeps P z (staleAssays s a n) := by
  unfold staleAssays
  with_reducible repeat' first
    | assumption | refine Keeps.ite ?_ (fun _ => ?_) | (refine Keeps.upd ?_ rfl rfl rfl; assumption)

theorem writeModule_keeps {P : Part → Prop} {z s : State} (h : Keeps P z s) (a) (bs)
    (can : Can [.mem, .regs, .voids, .dep, .cores, .assays] P := by exact Can.sub (by assumption) (by decide)) :
    Keeps P z (writeModule s a bs) := by
  unfold writeModule
  split
  · refine staleAssays_keeps (revalidate_keeps ?_ ..) ..
    exact h.of rfl (fun i => { i with mem := storeBytes_wf _ _ i.mem }) (fixed_refl _)
  · exact writeScratch_keeps h ..
  · exact writeVat_keeps h ..
  · exact h

theorem writePart_keeps {P : Part → Prop} {z s : State} (h : Keeps P z s) (w) (a) (bs)
    (can : Can [.mem, .regs, .voids, .dep, .cores, .assays] P := by exact Can.sub (by assumption) (by decide)) : Keeps P z (writePart s w a bs) := by
  unfold writePart
  with_reducible repeat' first
    | assumption | exact Can.sub (by assumption) (by decide) | apply coverPart_keeps | apply writeModule_keeps | refine Keeps.ite ?_ (fun _ => ?_) | split | intro _ _ _ | intro _ _ | apply Keeps.foldl | extract_lets

theorem enqueueTo_keeps {P : Part → Prop} {z s : State} (h : Keeps P z s) (q) (cmd) (sink)
    (can : Can [.hoists] P := by exact Can.sub (by assumption) (by decide)) : Keeps P z (enqueueTo s q cmd sink) := by
  unfold enqueueTo
  with_reducible repeat' first
    | assumption | exact Can.sub (by assumption) (by decide) | apply setQueue_keeps | refine Keeps.ite ?_ (fun _ => ?_) | split | intro _ _ _ | intro _ _ | apply Keeps.foldl | extract_lets

theorem enqueueCmd_keeps {P : Part → Prop} {z s : State} (h : Keeps P z s) (q) (cmd)
    (can : Can [.hoists] P := by exact Can.sub (by assumption) (by decide)) : Keeps P z (enqueueCmd s q cmd) := by
  unfold enqueueCmd
  with_reducible repeat' first
    | assumption | exact Can.sub (by assumption) (by decide) | apply enqueueTo_keeps | refine Keeps.ite ?_ (fun _ => ?_) | split | intro _ _ _ | intro _ _ | apply Keeps.foldl | extract_lets

theorem countDiscard_keeps {P : Part → Prop} {z s : State} (h : Keeps P z s) (q) (n)
    (can : Can [.regs] P := by exact Can.sub (by assumption) (by decide)) : Keeps P z (countDiscard s q n) := by
  unfold countDiscard
  with_reducible repeat' first
    | assumption | apply raise_keeps | apply count_keeps | refine Keeps.ite ?_ (fun _ => ?_)

theorem cancelQueue_keeps {P : Part → Prop} {z s : State} (h : Keeps P z s) (q)
    (can : Can [.regs, .hoists] P := by exact Can.sub (by assumption) (by decide)) : Keeps P z (cancelQueue s q) := by
  unfold cancelQueue
  with_reducible repeat' first
    | assumption | exact Can.sub (by assumption) (by decide) | apply countDiscard_keeps | apply setQueue_keeps

theorem countArrival_keeps {P : Part → Prop} {z s : State} (h : Keeps P z s) (ep) (p) (c)
    (can : Can [.regs] P := by exact Can.sub (by assumption) (by decide)) : Keeps P z (countArrival s ep p c) := by
  unfold countArrival
  with_reducible repeat' first
    | assumption | apply count_keeps | apply raise_keeps | refine Keeps.ite ?_ (fun _ => ?_)

theorem packetArrive_keeps {P : Part → Prop} {z s : State} (h : Keeps P z s) (ep) (p)
    (can : Can [.regs, .chutes] P := by exact Can.sub (by assumption) (by decide)) :
    Keeps P z (packetArrive s ep p).1 := by
  unfold packetArrive
  with_reducible repeat' first
    | assumption | exact Can.sub (by assumption) (by decide) | apply countArrival_keeps | apply setEp_keeps

theorem closeMarkAt_keeps {P : Part → Prop} {z s : State} (h : Keeps P z s) (ep)
    (can : Can [.regs, .chutes] P := by exact Can.sub (by assumption) (by decide)) :
    Keeps P z (closeMarkAt s ep) := by
  unfold closeMarkAt
  with_reducible repeat' first
    | assumption | exact Can.sub (by assumption) (by decide) | apply setEp_keeps | apply count_keeps
      | apply raise_keeps | refine Keeps.ite ?_ (fun _ => ?_)

theorem resetChuteOnly_keeps {P : Part → Prop} {z s : State} (h : Keeps P z s) (ep)
    (can : Can [.regs, .chutes] P := by exact Can.sub (by assumption) (by decide)) :
    Keeps P z (resetChuteOnly s ep) := by
  unfold resetChuteOnly
  with_reducible repeat' first
    | assumption | exact Can.sub (by assumption) (by decide) | apply setEp_keeps | apply count_keeps
      | apply raise_keeps | refine Keeps.ite ?_ (fun _ => ?_)

theorem pushTx_keeps {P : Part → Prop} {z s : State} (h : Keeps P z s) (f)
    (can : Can [.txQueue] P := by exact Can.sub (by assumption) (by decide)) : Keeps P z (pushTx s f) :=
  h.same rfl rfl rfl rfl

theorem sendAck_keeps {P : Part → Prop} {z s : State} (h : Keeps P z s) (i)
    (can : Can [.txQueue] P := by exact Can.sub (by assumption) (by decide)) : Keeps P z (sendAck s i) := by
  unfold sendAck
  with_reducible repeat' first | assumption | apply pushTx_keeps | (refine Keeps.upd ?_ rfl rfl rfl; assumption)

theorem sendNakNow_keeps {P : Part → Prop} {z s : State} (h : Keeps P z s) (i) (reason)
    (can : Can [.regs, .txQueue, .sessions] P := by exact Can.sub (by assumption) (by decide)) :
    Keeps P z (sendNakNow s i reason) := by
  unfold sendNakNow
  with_reducible repeat' first
    | assumption | exact Can.sub (by assumption) (by decide) | apply setSession_keeps | apply count_keeps
      | apply pushTx_keeps

theorem sendNak_keeps {P : Part → Prop} {z s : State} (h : Keeps P z s) (i) (reason)
    (can : Can [.regs, .txQueue, .sessions] P := by exact Can.sub (by assumption) (by decide)) :
    Keeps P z (sendNak s i reason) := by
  unfold sendNak
  with_reducible repeat' first | assumption | apply sendNakNow_keeps | split

theorem pumpOut_keeps {P : Part → Prop} {z s : State} (h : Keeps P z s) (k)
    (can : Can [.txQueue, .outs] P := by exact Can.sub (by assumption) (by decide)) : Keeps P z (pumpOut s k) := by
  unfold pumpOut
  with_reducible repeat' first
    | assumption | refine Keeps.ite ?_ (fun _ => ?_) | split | (refine Keeps.upd ?_ rfl rfl rfl; assumption)

theorem sendOut_keeps {P : Part → Prop} {z s : State} (h : Keeps P z s) (k) (ds)
    (can : Can [.txQueue, .outs] P := by exact Can.sub (by assumption) (by decide)) : Keeps P z (sendOut s k ds) := by
  unfold sendOut
  with_reducible repeat' first
    | assumption | apply pumpOut_keeps | split | (refine Keeps.upd ?_ rfl rfl rfl; assumption)

theorem sendMirror_keeps {P : Part → Prop} {z s : State} (h : Keeps P z s) (r)
    (can : Can [.txQueue, .outs] P := by exact Can.sub (by assumption) (by decide)) : Keeps P z (sendMirror s r) := by
  unfold sendMirror
  with_reducible repeat' first | assumption | apply sendOut_keeps | split

theorem issueGrants_keeps {P : Part → Prop} {z s : State} (h : Keeps P z s) (i)
    (can : Can [.txQueue, .sessions, .chutes] P := by exact Can.sub (by assumption) (by decide)) :
    Keeps P z (issueGrants s i) := by
  unfold issueGrants
  with_reducible repeat' first
    | assumption | exact Can.sub (by assumption) (by decide) | apply setSession_keeps | apply setEp_keeps
      | apply sendAck_keeps | refine Keeps.ite ?_ (fun _ => ?_)

theorem releaseGrants_keeps {P : Part → Prop} {z s : State} (h : Keeps P z s)
    (can : Can [.txQueue, .sessions, .chutes] P := by exact Can.sub (by assumption) (by decide)) :
    Keeps P z (releaseGrants s) := by
  unfold releaseGrants
  with_reducible repeat' first
    | assumption | apply issueGrants_keeps | refine Keeps.ite ?_ (fun _ => ?_) | intro _ _ _ | apply Keeps.foldl

theorem startWrite_keeps {P : Part → Prop} {z s : State} (h : Keeps P z s) (use) (kind) (key) (bytes)
    (can : Can [.jnl, .txQueue, .outs] P := by exact Can.sub (by assumption) (by decide)) :
    Keeps P z (startWrite s use kind key bytes) := by
  unfold startWrite
  with_reducible repeat' first
    | assumption | exact Can.sub (by assumption) (by decide) | apply sendMirror_keeps
      | refine Keeps.ite ?_ (fun _ => ?_) | split | (refine Keeps.upd ?_ rfl rfl rfl; assumption)

theorem mirrorNote_keeps {P : Part → Prop} {z s : State} (h : Keeps P z s) (kind) (key) (bytes)
    (can : Can [.jnl, .txQueue, .outs] P := by exact Can.sub (by assumption) (by decide)) :
    Keeps P z (mirrorNote s kind key bytes) := by
  unfold mirrorNote
  with_reducible repeat' first
    | assumption | exact Can.sub (by assumption) (by decide) | apply sendMirror_keeps
      | refine Keeps.ite ?_ (fun _ => ?_) | (refine Keeps.upd ?_ rfl rfl rfl; assumption)

theorem responseWritten_keeps {P : Part → Prop} {z s : State} (h : Keeps P z s) (session) (lsn) (index)
    (can : Can [.respLog, .lotRing, .jnl, .txQueue, .sessions, .outs, .chutes] P
      := by exact Can.sub (by assumption) (by decide)) :
    Keeps P z (responseWritten s session lsn index) := by
  unfold responseWritten
  with_reducible repeat' first
    | assumption | exact Can.sub (by assumption) (by decide) | apply releaseGrants_keeps | apply mirrorNote_keeps
      | refine Keeps.ite ?_ (fun _ => ?_) | (refine Keeps.upd ?_ rfl rfl rfl; assumption)

theorem logResponse_keeps {P : Part → Prop} {z s : State} (h : Keeps P z s) (ctx) (bytes)
    (can : Can [.respLog, .sessions] P := by exact Can.sub (by assumption) (by decide)) :
    Keeps P z (logResponse s ctx bytes).1 := by
  unfold logResponse
  with_reducible repeat' first
    | assumption | exact Can.sub (by assumption) (by decide) | split
      | (refine Keeps.upd ?_ rfl rfl rfl; first | assumption | apply setSession_keeps | refine Keeps.ite ?_ (fun _ => ?_) | apply Keeps.foldl)
      | extract_lets

theorem respondWith_keeps {P : Part → Prop} {z s : State} (h : Keeps P z s) (ctx) (opcode) (status) (result) (entry)
    (can : Can [.respLog, .lotRing, .jnl, .txQueue, .sessions, .outs, .chutes] P
      := by exact Can.sub (by assumption) (by decide)) :
    Keeps P z (respondWith s ctx opcode status result entry) := by
  unfold respondWith
  with_reducible repeat' first
    | assumption | exact Can.sub (by assumption) (by decide) | apply responseWritten_keeps | apply logResponse_keeps
      | apply startWrite_keeps | refine Keeps.ite ?_ (fun _ => ?_)

theorem respond_keeps {P : Part → Prop} {z s : State} (h : Keeps P z s) (ctx) (opcode) (status) (result)
    (can : Can [.respLog, .lotRing, .jnl, .txQueue, .sessions, .outs, .chutes] P
      := by exact Can.sub (by assumption) (by decide)) :
    Keeps P z (respond s ctx opcode status result) := by
  unfold respond
  with_reducible repeat' first | assumption | apply respondWith_keeps

theorem logFault_keeps {P : Part → Prop} {z s : State} (h : Keeps P z s) (cls) (level) (seam) (core) (unit)
    (can : Can [.regs] P := by exact Can.sub (by assumption) (by decide)) :
    Keeps P z (logFault s cls level seam core unit) := by
  unfold logFault
  with_reducible repeat' first
    | assumption | apply setRawReg_keeps | apply count_keeps | refine Keeps.ite ?_ (fun _ => ?_)

theorem holdJob_keeps {P : Part → Prop} {z s : State} (h : Keeps P z s) (key) (cause)
    (can : Can [.regs, .jobs] P := by exact Can.sub (by assumption) (by decide)) :
    Keeps P z (holdJob s key cause) := by
  unfold holdJob
  with_reducible repeat' first
    | assumption | exact Can.sub (by assumption) (by decide) | apply updJob_keeps | apply raise_keeps
      | apply count_keeps | refine Keeps.ite ?_ (fun _ => ?_) | split

theorem resetHubSession_keeps {P : Part → Prop} {z s : State} (h : Keeps P z s) (i)
    (can : Can [.txQueue, .sessions] P := by exact Can.sub (by assumption) (by decide)) :
    Keeps P z (resetHubSession s i) := by
  unfold resetHubSession
  with_reducible repeat' first
    | assumption | exact Can.sub (by assumption) (by decide) | apply setSession_keeps | apply pushTx_keeps
      | refine Keeps.ite ?_ (fun _ => ?_)

theorem resetOuts_keeps {P : Part → Prop} {z s : State} (h : Keeps P z s) (r)
    (can : Can [.txQueue, .outs] P := by exact Can.sub (by assumption) (by decide)) : Keeps P z (resetOuts s r) :=
  h.same rfl rfl rfl rfl

theorem resetChute_keeps {P : Part → Prop} {z s : State} (h : Keeps P z s) (r)
    (can : Can [.regs, .txQueue, .sessions, .outs, .chutes] P := by exact Can.sub (by assumption) (by decide)) :
    Keeps P z (resetChute s r) := by
  unfold resetChute
  with_reducible repeat' first
    | assumption | exact Can.sub (by assumption) (by decide) | apply resetChuteOnly_keeps
      | apply resetHubSession_keeps | apply resetOuts_keeps | split | intro _ _ _ | apply Keeps.foldl

theorem dropScatter_keeps {P : Part → Prop} {z s : State} (h : Keeps P z s) (t)
    (can : Can [.scatters] P := by exact Can.sub (by assumption) (by decide)) : Keeps P z (dropScatter s t) :=
  h.same rfl rfl rfl rfl

theorem dropCharges_keeps {P : Part → Prop} {z s : State} (h : Keeps P z s) (t)
    (can : Can [.arrays] P := by exact Can.sub (by assumption) (by decide)) : Keeps P z (dropCharges s t) := by
  unfold dropCharges
  with_reducible repeat' first
    | assumption | apply setArray_keeps | refine Keeps.ite ?_ (fun _ => ?_) | split | intro _ _ _ | apply Keeps.foldl

theorem noteIndexAbort_keeps {P : Part → Prop} {z s : State} (h : Keeps P z s) (seam) (counter) (index) (job) (unit) (sub)
    (can : Can [.regs, .jobs, .dep] P := by exact Can.sub (by assumption) (by decide)) : Keeps P z (noteIndexAbort s seam counter index job unit sub) := by
  unfold noteIndexAbort
  with_reducible repeat' first
    | assumption | exact Can.sub (by assumption) (by decide) | apply count_keeps | apply updJob_keeps | apply raise_keeps | apply holdJob_keeps | apply logFault_keeps | refine Keeps.ite ?_ (fun _ => ?_) | split | intro _ _ _ | intro _ _ | apply Keeps.foldl | (refine Keeps.upd ?_ rfl rfl rfl) | extract_lets

theorem noteAbort_keeps {P : Part → Prop} {z s : State} (h : Keeps P z s) (t)
    (can : Can [.regs, .jobs, .dep] P := by exact Can.sub (by assumption) (by decide)) : Keeps P z (noteAbort s t) := by
  unfold noteAbort
  with_reducible repeat' first
    | assumption | exact Can.sub (by assumption) (by decide) | apply raise_keeps | apply count_keeps | apply noteIndexAbort_keeps | refine Keeps.ite ?_ (fun _ => ?_) | split | intro _ _ _ | intro _ _ | apply Keeps.foldl | extract_lets

theorem dropTask_keeps {P : Part → Prop} {z s : State} (h : Keeps P z s) (t)
    (can : Can [.regs, .jobs, .dep, .arrays, .cores, .hoists, .scatters] P
      := by exact Can.sub (by assumption) (by decide)) :
    Keeps P z (dropTask s t) := by
  unfold dropTask
  with_reducible repeat' first
    | assumption | exact Can.sub (by assumption) (by decide) | apply dropCharges_keeps | apply dropScatter_keeps
      | apply cancelQueue_keeps | apply noteAbort_keeps | apply setCore_keeps | apply setSlot_keeps

theorem abortWork_keeps {P : Part → Prop} {z s : State} (h : Keeps P z s) (tasks) (chutes)
    (can : Can [.regs, .jobs, .dep, .txQueue, .sessions, .outs, .arrays, .cores, .hoists, .scatters, .chutes] P
      := by exact Can.sub (by assumption) (by decide)) :
    Keeps P z (abortWork s tasks chutes) := by
  unfold abortWork
  with_reducible repeat' first
    | assumption | exact Can.sub (by assumption) (by decide) | apply resetChute_keeps | apply dropTask_keeps
      | intro _ _ _ | apply Keeps.foldl

theorem abortTask_keeps {P : Part → Prop} {z s : State} (h : Keeps P z s) (t)
    (can : Can [.regs, .jobs, .dep, .txQueue, .sessions, .outs, .arrays, .cores, .hoists, .scatters, .chutes] P
      := by exact Can.sub (by assumption) (by decide)) :
    Keeps P z (abortTask s t) := by
  unfold abortTask
  with_reducible repeat' first | assumption | apply abortWork_keeps | refine Keeps.ite ?_ (fun _ => ?_)

theorem endRecovery_keeps {P : Part → Prop} {z s : State} (h : Keeps P z s)
    (can : Can [.dep] P := by exact Can.sub (by assumption) (by decide)) : Keeps P z (endRecovery s) := by
  unfold endRecovery
  with_reducible repeat' first
    | assumption | refine Keeps.ite ?_ (fun _ => ?_) | (refine Keeps.upd ?_ rfl rfl rfl; assumption)

theorem moduleOut_keeps {P : Part → Prop} {z s : State} (h : Keeps P z s)
    (can : Can [.regs, .dep] P := by exact Can.sub (by assumption) (by decide)) : Keeps P z (moduleOut s) := by
  unfold moduleOut
  with_reducible repeat' first
    | assumption | exact Can.sub (by assumption) (by decide)
      | (refine Keeps.upd ?_ rfl rfl rfl; first | assumption | apply logFault_keeps)

theorem enterRecovery_keeps {P : Part → Prop} {z s : State} (h : Keeps P z s)
    (can : Can [.dep] P := by exact Can.sub (by assumption) (by decide)) : Keeps P z (enterRecovery s) := by
  unfold enterRecovery
  with_reducible repeat' first | assumption | apply endRecovery_keeps | (refine Keeps.upd ?_ rfl rfl rfl; assumption)

theorem chooseOf_keeps {P : Part → Prop} {α : Type} {z s : State} (h : Keeps P z s) (l : List α)
    (can : Can [.freeCount] P := by exact Can.sub (by assumption) (by decide)) : Keeps P z (chooseOf s l).2 :=
  drawChoice_keeps h

theorem clearDomainRegs_keeps {P : Part → Prop} {z s : State} (h : Keeps P z s) (d)
    (can : Can [.regs] P := by exact Can.sub (by assumption) (by decide)) : Keeps P z (clearDomainRegs s d) :=
  h.same rfl rfl rfl rfl

theorem restartSequencer_keeps {P : Part → Prop} {z s : State} (h : Keeps P z s) (m)
    (can : Can [.regs, .counters] P := by exact Can.sub (by assumption) (by decide)) :
    Keeps P z (restartSequencer s m) := by
  unfold restartSequencer
  with_reducible repeat' first
    | assumption | exact Can.sub (by assumption) (by decide) | apply setCounter_keeps | apply raise_keeps
      | intro _ _ _ | apply Keeps.foldl

theorem dropReceive_keeps {P : Part → Prop} {z s : State} (h : Keeps P z s) (i)
    (can : Can [.sessions, .chutes] P := by exact Can.sub (by assumption) (by decide)) :
    Keeps P z (dropReceive s i) := by
  unfold dropReceive
  with_reducible repeat' first
    | assumption | exact Can.sub (by assumption) (by decide) | apply setSession_keeps | apply setEp_keeps
      | refine Keeps.ite ?_ (fun _ => ?_)

theorem dropAllReceive_keeps {P : Part → Prop} {z s : State} (h : Keeps P z s)
    (can : Can [.sessions, .chutes] P := by exact Can.sub (by assumption) (by decide)) :
    Keeps P z (dropAllReceive s) := by
  unfold dropAllReceive
  with_reducible repeat' first | assumption | apply dropReceive_keeps | intro _ _ _ | apply Keeps.foldl

theorem clearDomain_keeps {P : Part → Prop} {z s : State} (h : Keeps P z s) (d)
    (can : Can [.regs, .sessions, .arrays, .cores, .adits, .hoists, .chans, .links, .chutes, .hops, .counters] P
      := by exact Can.sub (by assumption) (by decide)) :
    Keeps P z (clearDomain s d) := by
  unfold clearDomain
  with_reducible repeat' first
    | assumption | exact Can.sub (by assumption) (by decide) | apply clearDomainRegs_keeps
      | apply restartSequencer_keeps | apply dropAllReceive_keeps | split
      | (refine Keeps.upd ?_ rfl rfl rfl; first | assumption | apply clearDomainRegs_keeps)

theorem countReset_keeps {P : Part → Prop} {z s : State} (h : Keeps P z s) (d) (dropped)
    (can : Can [.regs] P := by exact Can.sub (by assumption) (by decide)) : Keeps P z (countReset s d dropped) := by
  unfold countReset
  with_reducible repeat' first | assumption | apply count_keeps | apply raise_keeps

theorem flushPort_keeps {P : Part → Prop} {z s : State} (h : Keeps P z s) (a1)
    (can : Can [.txQueue, .port] P := by exact Can.sub (by assumption) (by decide)) : Keeps P z (flushPort s a1) := by
  unfold flushPort
  with_reducible repeat' first | assumption | split | (refine Keeps.upd ?_ rfl rfl rfl; assumption)

theorem domainReset_keeps {P : Part → Prop} {z s : State} (h : Keeps P z s) (d) (dropped)
    (can : Can [.regs, .doms, .jobs, .dep, .txQueue, .sessions, .outs, .port, .arrays, .cores, .adits, .hoists,
      .scatters, .chans, .links, .chutes, .hops, .counters] P := by exact Can.sub (by assumption) (by decide)) :
    Keeps P z (domainReset s d dropped) := by
  unfold domainReset
  with_reducible repeat' first
    | assumption | exact Can.sub (by assumption) (by decide) | apply flushPort_keeps | apply setDom_keeps
      | apply abortWork_keeps | apply countReset_keeps | apply clearDomain_keeps

theorem domainHalt_keeps {P : Part → Prop} {z s : State} (h : Keeps P z s) (d) (dropped)
    (can : Can [.regs, .doms, .jobs, .dep, .txQueue, .sessions, .outs, .port, .arrays, .cores, .adits, .hoists,
      .scatters, .chans, .links, .chutes, .hops, .counters] P := by exact Can.sub (by assumption) (by decide)) :
    Keeps P z (domainHalt s d dropped) := by
  unfold domainHalt
  with_reducible repeat' first
    | assumption | exact Can.sub (by assumption) (by decide) | apply domainReset_keeps | apply setDom_keeps

theorem haltIf_keeps {P : Part → Prop} {z s : State} (h : Keeps P z s) (d) (dropped)
    (can : Can [.regs, .doms, .jobs, .dep, .txQueue, .sessions, .outs, .port, .arrays, .cores, .adits, .hoists,
      .scatters, .chans, .links, .chutes, .hops, .counters] P := by exact Can.sub (by assumption) (by decide)) :
    Keeps P z (haltIf s d dropped) := by
  unfold haltIf
  with_reducible repeat' first | assumption | apply domainHalt_keeps | refine Keeps.ite ?_ (fun _ => ?_)

theorem loseCopy_keeps {P : Part → Prop} {z s : State} (h : Keeps P z s) (second)
    (can : Can [.regs, .dep, .jnl] P := by exact Can.sub (by assumption) (by decide)) :
    Keeps P z (loseCopy s second) := by
  unfold loseCopy
  with_reducible repeat' first
    | assumption | exact Can.sub (by assumption) (by decide) | apply raise_keeps | apply moduleOut_keeps
      | refine Keeps.ite ?_ (fun _ => ?_) | split | (refine Keeps.upd ?_ rfl rfl rfl; assumption)

theorem reportLoss_keeps {P : Part → Prop} {z s : State} (h : Keeps P z s) (g) (homed)
    (can : Can [.regs, .dep] P := by exact Can.sub (by assumption) (by decide)) :
    Keeps P z (reportLoss s g homed) := by
  unfold reportLoss
  with_reducible repeat' first
    | assumption | exact Can.sub (by assumption) (by decide) | apply raise_keeps | split
      | (refine Keeps.upd ?_ rfl rfl rfl; assumption) | extract_lets

theorem voidOne_keeps {P : Part → Prop} {z s : State} (h : Keeps P z s) (g)
    (can : Can [.regs, .voids, .dep] P := by exact Can.sub (by assumption) (by decide)) : Keeps P z (voidOne s g) := by
  unfold voidOne
  with_reducible repeat' first
    | assumption | exact Can.sub (by assumption) (by decide) | apply raise_keeps | apply reportLoss_keeps | refine Keeps.ite ?_ (fun _ => ?_) | split | intro _ _ _ | intro _ _ | apply Keeps.foldl | (refine Keeps.upd ?_ rfl rfl rfl) | extract_lets

theorem holdReaders_keeps {P : Part → Prop} {z s : State} (h : Keeps P z s) (g)
    (can : Can [.regs, .jobs, .dep, .txQueue, .sessions, .outs, .arrays, .cores, .hoists, .scatters, .chutes] P
      := by exact Can.sub (by assumption) (by decide)) :
    Keeps P z (holdReaders s g) := by
  unfold holdReaders
  with_reducible repeat' first
    | assumption | exact Can.sub (by assumption) (by decide) | apply holdJob_keeps | apply abortWork_keeps
      | refine Keeps.ite ?_ (fun _ => ?_) | intro _ _ _ | apply Keeps.foldl

theorem voidGranules_keeps {P : Part → Prop} {z s : State} (h : Keeps P z s) (gs)
    (can : Can [.regs, .jobs, .voids, .dep, .txQueue, .sessions, .outs, .arrays, .cores, .hoists, .scatters,
      .chutes] P := by exact Can.sub (by assumption) (by decide)) :
    Keeps P z (voidGranules s gs) := by
  unfold voidGranules
  with_reducible repeat' first
    | assumption | exact Can.sub (by assumption) (by decide) | apply enterRecovery_keeps | apply holdReaders_keeps
      | apply voidOne_keeps | refine Keeps.ite ?_ (fun _ => ?_) | intro _ _ _ | apply Keeps.foldl

theorem voidAtAlloc_keeps {P : Part → Prop} {z s : State} (h : Keeps P z s) (base) (size)
    (can : Can [.regs, .jobs, .voids, .dep, .txQueue, .sessions, .outs, .arrays, .cores, .hoists, .scatters,
      .chutes] P := by exact Can.sub (by assumption) (by decide)) :
    Keeps P z (voidAtAlloc s base size) := by
  unfold voidAtAlloc
  with_reducible repeat' first | assumption | apply voidGranules_keeps | refine Keeps.ite ?_ (fun _ => ?_)

theorem loseGranule_keeps {P : Part → Prop} {z s : State} (h : Keeps P z s) (seam) (off)
    (can : Can [.regs, .jobs, .voids, .dep, .jnl, .txQueue, .sessions, .outs, .arrays, .cores, .hoists, .scatters,
      .chutes] P := by exact Can.sub (by assumption) (by decide)) :
    Keeps P z (loseGranule s seam off) := by
  unfold loseGranule
  with_reducible repeat' first
    | assumption | exact Can.sub (by assumption) (by decide) | apply voidGranules_keeps | apply loseCopy_keeps
      | apply moduleOut_keeps | refine Keeps.ite ?_ (fun _ => ?_)

theorem moveTasks_keeps {P : Part → Prop} {z s : State} (h : Keeps P z s) (m) (k) (t) (n)
    (can : Can [.dep, .counters] P := by exact Can.sub (by assumption) (by decide)) :
    Keeps P z (moveTasks s m k t n) := by
  unfold moveTasks
  with_reducible repeat' first
    | assumption | exact Can.sub (by assumption) (by decide) | apply setCounter_keeps
      | (refine Keeps.upd ?_ rfl rfl rfl; first | assumption | apply setCounter_keeps)

theorem dealSeam_keeps {P : Part → Prop} {z s : State} (h : Keeps P z s) (m)
    (can : Can [.freeCount, .regs, .jobs, .dep, .counters] P := by exact Can.sub (by assumption) (by decide)) :
    Keeps P z (dealSeam s m) := by
  unfold dealSeam
  with_reducible repeat' first
    | assumption | exact Can.sub (by assumption) (by decide) | apply chooseOf_keeps | apply moveTasks_keeps
      | apply holdJob_keeps | split | intro _ _ _ | apply Keeps.foldl | extract_lets
      | (refine Keeps.of_snd (by assumption) ?_)

theorem rebindChute_keeps {P : Part → Prop} {z s : State} (h : Keeps P z s) (g) (c)
    (can : Can [.freeCount, .graphs, .chutes] P := by exact Can.sub (by assumption) (by decide)) :
    Keeps P z (rebindChute s g c).1 := by
  unfold rebindChute
  with_reducible repeat' first
    | assumption | exact Can.sub (by assumption) (by decide) | apply chooseOf_keeps | apply setGraphSlot_keeps
      | apply setEp_keeps | split | extract_lets | (refine Keeps.of_snd (by assumption) ?_)

theorem moveProducer_keeps {P : Part → Prop} {z s : State} (h : Keeps P z s) (ep)
    (can : Can [.freeCount, .chutes] P := by exact Can.sub (by assumption) (by decide)) :
    Keeps P z (moveProducer s ep) := by
  unfold moveProducer
  with_reducible repeat' first
    | assumption | exact Can.sub (by assumption) (by decide) | apply chooseOf_keeps | apply setEp_keeps
      | refine Keeps.ite ?_ (fun _ => ?_) | split | extract_lets | (refine Keeps.of_snd (by assumption) ?_)

theorem holdGraph_keeps {P : Part → Prop} {z s : State} (h : Keeps P z s) (g) (cause)
    (can : Can [.regs, .jobs] P := by exact Can.sub (by assumption) (by decide)) :
    Keeps P z (holdGraph s g cause) := by
  unfold holdGraph
  with_reducible repeat' first | assumption | apply holdJob_keeps | intro _ _ _ | apply Keeps.foldl

theorem replaceNodes_keeps {P : Part → Prop} {z s : State} (h : Keeps P z s)
    (can : Can [.freeCount, .regs, .graphs, .jobs, .chutes] P := by exact Can.sub (by assumption) (by decide)) :
    Keeps P z (replaceNodes s) := by
  unfold replaceNodes
  with_reducible repeat' first
    | assumption | exact Can.sub (by assumption) (by decide) | apply rebindChute_keeps | apply holdGraph_keeps
      | apply moveProducer_keeps | apply holdJob_keeps | refine Keeps.ite ?_ (fun _ => ?_) | split | intro _ _ _
      | apply Keeps.foldl | extract_lets | (refine Keeps.of_fst (by assumption) ?_)

theorem fenceDone_keeps {P : Part → Prop} {z s : State} (h : Keeps P z s) (cls) (level) (seam) (core) (unit)
    (can : Can [.regs, .dep] P := by exact Can.sub (by assumption) (by decide)) :
    Keeps P z (fenceDone s cls level seam core unit) := by
  unfold fenceDone
  with_reducible repeat' first
    | assumption | exact Can.sub (by assumption) (by decide) | apply enterRecovery_keeps | apply raise_keeps
      | apply logFault_keeps

theorem reissuePart_keeps {P : Part → Prop} {z s : State} (h : Keeps P z s) (c) (t)
    (can : Can [.cores] P := by exact Can.sub (by assumption) (by decide)) : Keeps P z (reissuePart s c t) := by
  unfold reissuePart
  with_reducible repeat' first
    | assumption | exact Can.sub (by assumption) (by decide) | apply setSlot_keeps | refine Keeps.ite ?_ (fun _ => ?_) | split | intro _ _ _ | intro _ _ | apply Keeps.foldl | extract_lets

theorem resetTilesOf_keeps {P : Part → Prop} {z s : State} (h : Keeps P z s) (a)
    (can : Can [.cores] P := by exact Can.sub (by assumption) (by decide)) : Keeps P z (resetTilesOf s a) := by
  unfold resetTilesOf
  with_reducible repeat' first
    | assumption | exact Can.sub (by assumption) (by decide) | apply setCore_keeps | apply reissuePart_keeps | refine Keeps.ite ?_ (fun _ => ?_) | split | intro _ _ _ | intro _ _ | apply Keeps.foldl | extract_lets

theorem fenceArray_keeps {P : Part → Prop} {z s : State} (h : Keeps P z s) (a) (test)
    (can : Can [.regs, .jobs, .fences, .dep, .txQueue, .sessions, .outs, .arrays, .cores, .hoists, .scatters,
      .chutes] P := by exact Can.sub (by assumption) (by decide)) :
    Keeps P z (fenceArray s a test) := by
  unfold fenceArray
  with_reducible repeat' first
    | assumption | exact Can.sub (by assumption) (by decide) | apply resetTilesOf_keeps | apply abortWork_keeps
      | apply raise_keeps | apply fenceDone_keeps | refine Keeps.ite ?_ (fun _ => ?_) | split
      | (refine Keeps.upd ?_ rfl rfl rfl; first | assumption | apply setArray_keeps)

theorem returnGroups_keeps {P : Part → Prop} {z s : State} (h : Keeps P z s) (u)
    (can : Can [.dep, .counters] P := by exact Can.sub (by assumption) (by decide)) : Keeps P z (returnGroups s u) := by
  unfold returnGroups
  with_reducible repeat' first
    | assumption | exact Can.sub (by assumption) (by decide) | apply setCounter_keeps | refine Keeps.ite ?_ (fun _ => ?_) | split | intro _ _ _ | intro _ _ | apply Keeps.foldl | (refine Keeps.upd ?_ rfl rfl rfl) | extract_lets

theorem fenceAdit_keeps {P : Part → Prop} {z s : State} (h : Keeps P z s) (u)
    (can : Can [.regs, .fences, .dep, .adits, .counters] P := by exact Can.sub (by assumption) (by decide)) : Keeps P z (fenceAdit s u) := by
  unfold fenceAdit
  with_reducible repeat' first
    | assumption | exact Can.sub (by assumption) (by decide) | apply returnGroups_keeps | apply fenceDone_keeps | apply setAdit_keeps | refine Keeps.ite ?_ (fun _ => ?_) | split | intro _ _ _ | intro _ _ | apply Keeps.foldl | (refine Keeps.upd ?_ rfl rfl rfl) | extract_lets

theorem fenceSeam_keeps {P : Part → Prop} {z s : State} (h : Keeps P z s) (m)
    (can : Can [.freeCount, .regs, .doms, .graphs, .jobs, .fences, .dep, .txQueue, .sessions, .outs, .port, .arrays,
      .cores, .adits, .hoists, .scatters, .chans, .links, .chutes, .hops, .counters] P
      := by exact Can.sub (by assumption) (by decide)) :
    Keeps P z (fenceSeam s m) := by
  unfold fenceSeam
  with_reducible repeat' first
    | assumption | exact Can.sub (by assumption) (by decide) | apply abortWork_keeps | apply haltIf_keeps
      | apply dealSeam_keeps | apply fenceDone_keeps | apply replaceNodes_keeps | refine Keeps.ite ?_ (fun _ => ?_)
      | (refine Keeps.upd ?_ rfl rfl rfl; assumption)

theorem fenceCore_keeps {P : Part → Prop} {z s : State} (h : Keeps P z s) (c)
    (can : Can [.freeCount, .regs, .doms, .graphs, .jobs, .fences, .dep, .txQueue, .sessions, .outs, .port, .arrays,
      .cores, .adits, .hoists, .scatters, .chans, .links, .chutes, .hops, .counters] P
      := by exact Can.sub (by assumption) (by decide)) :
    Keeps P z (fenceCore s c) := by
  unfold fenceCore
  with_reducible repeat' first
    | assumption | exact Can.sub (by assumption) (by decide) | apply abortWork_keeps | apply fenceDone_keeps
      | apply replaceNodes_keeps | apply fenceSeam_keeps | refine Keeps.ite ?_ (fun _ => ?_)
      | (refine Keeps.upd ?_ rfl rfl rfl; assumption)

theorem loseSeamCopy_keeps {P : Part → Prop} {z s : State} (h : Keeps P z s) (m)
    (can : Can [.regs, .dep, .jnl] P := by exact Can.sub (by assumption) (by decide)) :
    Keeps P z (loseSeamCopy s m) := by
  unfold loseSeamCopy
  with_reducible repeat' first | assumption | apply loseCopy_keeps | refine Keeps.ite ?_ (fun _ => ?_)

theorem fenceDram_keeps {P : Part → Prop} {z s : State} (h : Keeps P z s) (m)
    (can : Can [.freeCount, .regs, .doms, .graphs, .jobs, .fences, .voids, .dep, .jnl, .txQueue, .sessions, .outs,
      .port, .arrays, .cores, .adits, .hoists, .scatters, .chans, .links, .chutes, .hops, .counters] P
      := by exact Can.sub (by assumption) (by decide)) :
    Keeps P z (fenceDram s m) := by
  unfold fenceDram
  with_reducible repeat' first
    | assumption | exact Can.sub (by assumption) (by decide) | apply haltIf_keeps | apply voidGranules_keeps
      | apply loseSeamCopy_keeps | apply fenceSeam_keeps | apply fenceDone_keeps | refine Keeps.ite ?_ (fun _ => ?_)
      | (refine Keeps.upd ?_ rfl rfl rfl; assumption)

theorem fenceChan_keeps {P : Part → Prop} {z s : State} (h : Keeps P z s) (c)
    (can : Can [.freeCount, .regs, .doms, .graphs, .jobs, .fences, .voids, .dep, .jnl, .txQueue, .sessions, .outs,
      .port, .arrays, .cores, .adits, .hoists, .scatters, .chans, .links, .chutes, .hops, .counters] P
      := by exact Can.sub (by assumption) (by decide)) :
    Keeps P z (fenceChan s c) := by
  unfold fenceChan
  with_reducible repeat' first
    | assumption | exact Can.sub (by assumption) (by decide) | apply voidGranules_keeps | apply loseSeamCopy_keeps
      | apply fenceDone_keeps | apply fenceDram_keeps | refine Keeps.ite ?_ (fun _ => ?_)
      | (refine Keeps.upd ?_ rfl rfl rfl; assumption)

theorem arrayMismatch_keeps {P : Part → Prop} {z s : State} (h : Keeps P z s) (a)
    (can : Can [.regs, .jobs, .fences, .dep, .txQueue, .sessions, .outs, .arrays, .cores, .hoists, .scatters,
      .chutes] P := by exact Can.sub (by assumption) (by decide)) :
    Keeps P z (arrayMismatch s a) := by
  unfold arrayMismatch
  with_reducible repeat' first
    | assumption | apply fenceArray_keeps | refine Keeps.ite ?_ (fun _ => ?_)
      | (refine Keeps.upd ?_ rfl rfl rfl; assumption)

theorem aditResidue_keeps {P : Part → Prop} {z s : State} (h : Keeps P z s) (u)
    (can : Can [.regs, .fences, .dep, .adits, .counters] P := by exact Can.sub (by assumption) (by decide)) : Keeps P z (aditResidue s u) := by
  unfold aditResidue
  with_reducible repeat' first
    | assumption | exact Can.sub (by assumption) (by decide) | apply fenceAdit_keeps | refine Keeps.ite ?_ (fun _ => ?_) | split | intro _ _ _ | intro _ _ | apply Keeps.foldl | (refine Keeps.upd ?_ rfl rfl rfl) | extract_lets

theorem scratchUe_keeps {P : Part → Prop} {z s : State} (h : Keeps P z s) (c)
    (can : Can [.freeCount, .regs, .doms, .graphs, .jobs, .fences, .dep, .txQueue, .sessions, .outs, .port, .arrays,
      .cores, .adits, .hoists, .scatters, .chans, .links, .chutes, .hops, .counters] P
      := by exact Can.sub (by assumption) (by decide)) :
    Keeps P z (scratchUe s c) := by
  unfold scratchUe
  with_reducible repeat' first
    | assumption | apply fenceCore_keeps | refine Keeps.ite ?_ (fun _ => ?_)
      | (refine Keeps.upd ?_ rfl rfl rfl; assumption)

theorem dramUe_keeps {P : Part → Prop} {z s : State} (h : Keeps P z s) (c) (off)
    (can : Can [.freeCount, .regs, .doms, .graphs, .jobs, .fences, .voids, .dep, .jnl, .txQueue, .sessions, .outs,
      .port, .arrays, .cores, .adits, .hoists, .scatters, .chans, .links, .chutes, .hops, .counters] P
      := by exact Can.sub (by assumption) (by decide)) :
    Keeps P z (dramUe s c off) := by
  unfold dramUe
  with_reducible repeat' first
    | assumption | exact Can.sub (by assumption) (by decide) | apply logFault_keeps | apply loseGranule_keeps
      | apply fenceChan_keeps | refine Keeps.ite ?_ (fun _ => ?_) | (refine Keeps.upd ?_ rfl rfl rfl; assumption)

theorem reportFault_keeps {P : Part → Prop} {z s : State} (h : Keeps P z s) (a1)
    (can : Can [.freeCount, .regs, .doms, .graphs, .jobs, .fences, .voids, .dep, .jnl, .txQueue, .sessions, .outs,
      .port, .arrays, .cores, .adits, .hoists, .scatters, .chans, .links, .chutes, .hops, .counters] P
      := by exact Can.sub (by assumption) (by decide)) :
    Keeps P z (reportFault s a1) := by
  unfold reportFault
  with_reducible repeat' first
    | assumption | exact Can.sub (by assumption) (by decide) | apply count_keeps | apply arrayMismatch_keeps
      | apply fenceArray_keeps | apply fenceCore_keeps | apply logFault_keeps | apply aditResidue_keeps
      | apply scratchUe_keeps | apply dramUe_keeps | apply fenceDram_keeps | apply fenceSeam_keeps
      | apply restartSequencer_keeps | apply moduleOut_keeps | apply loseCopy_keeps | split

theorem pushReq_keeps {P : Part → Prop} {z s : State} (h : Keeps P z s) (r)
    (can : Can [.chans] P := by exact Can.sub (by assumption) (by decide)) : Keeps P z (pushReq s r) := by
  unfold pushReq
  with_reducible repeat' first
    | assumption | exact Can.sub (by assumption) (by decide) | apply setChan_keeps | refine Keeps.ite ?_ (fun _ => ?_) | split | intro _ _ _ | intro _ _ | apply Keeps.foldl | extract_lets

theorem pushReqs_keeps {P : Part → Prop} {z s : State} (h : Keeps P z s) (l)
    (can : Can [.chans] P := by exact Can.sub (by assumption) (by decide)) : Keeps P z (pushReqs s l) := by
  unfold pushReqs
  with_reducible repeat' first
    | assumption | exact Can.sub (by assumption) (by decide) | apply pushReq_keeps | refine Keeps.ite ?_ (fun _ => ?_) | split | intro _ _ _ | intro _ _ | apply Keeps.foldl | extract_lets

theorem writeAssay_keeps {P : Part → Prop} {z s : State} (h : Keeps P z s) (t)
    (can : Can [.mem, .regs, .voids, .dep, .cores, .assays] P := by exact Can.sub (by assumption) (by decide)) : Keeps P z (writeAssay s t) := by
  unfold writeAssay
  with_reducible repeat' first
    | assumption | exact Can.sub (by assumption) (by decide) | apply writeModule_keeps | refine Keeps.ite ?_ (fun _ => ?_) | split | intro _ _ _ | intro _ _ | apply Keeps.foldl | (refine Keeps.upd ?_ rfl rfl rfl) | extract_lets

theorem slotCount_keeps {P : Part → Prop} {z s : State} (h : Keeps P z s) (t) (k) (n)
    (can : Can [.cores] P := by exact Can.sub (by assumption) (by decide)) : Keeps P z (slotCount s t k n) := by
  unfold slotCount
  with_reducible repeat' first | assumption | apply setSlot_keeps | refine Keeps.ite ?_ (fun _ => ?_)

theorem putTile_keeps {P : Part → Prop} {z s : State} (h : Keeps P z s) (c) (t)
    (can : Can [.cores] P := by exact Can.sub (by assumption) (by decide)) : Keeps P z (putTile s c t) := by
  unfold putTile
  with_reducible repeat' first | assumption | apply setCore_keeps

theorem addTile_keeps {P : Part → Prop} {z s : State} (h : Keeps P z s) (c) (t)
    (can : Can [.cores] P := by exact Can.sub (by assumption) (by decide)) : Keeps P z (addTile s c t) := by
  unfold addTile
  with_reducible repeat' first | assumption | apply setCore_keeps

theorem dropTile_keeps {P : Part → Prop} {z s : State} (h : Keeps P z s) (c) (base)
    (can : Can [.cores] P := by exact Can.sub (by assumption) (by decide)) : Keeps P z (dropTile s c base) := by
  unfold dropTile
  with_reducible repeat' first | assumption | apply setCore_keeps

theorem countVat_keeps {P : Part → Prop} {z s : State} (h : Keeps P z s) (c) (k)
    (can : Can [.regs] P := by exact Can.sub (by assumption) (by decide)) : Keeps P z (countVat s c k) := by
  unfold countVat
  with_reducible repeat' first
    | assumption | apply count_keeps | apply raise_keeps | refine Keeps.ite ?_ (fun _ => ?_)

theorem onTile_keeps {P : Part → Prop} {z s : State} (h : Keeps P z s) (c) (base) (f)
    (can : Can [.regs, .cores] P := by exact Can.sub (by assumption) (by decide)) :
    Keeps P z (onTile s c base f) := by
  unfold onTile
  with_reducible repeat' first
    | assumption | exact Can.sub (by assumption) (by decide) | apply countVat_keeps | apply putTile_keeps | split

theorem saveTile_keeps {P : Part → Prop} {z s : State} (h : Keeps P z s) (c) (t) (off) (spill)
    (can : Can [.mem, .regs, .cores] P := by exact Can.sub (by assumption) (by decide)) : Keeps P z (saveTile s c t off spill) := by
  unfold saveTile
  with_reducible repeat' first
    | assumption | exact Can.sub (by assumption) (by decide) | apply writeScratch_keeps | apply dropTile_keeps | apply setSlot_keeps | apply count_keeps | refine Keeps.ite ?_ (fun _ => ?_) | split | intro _ _ _ | intro _ _ | apply Keeps.foldl | extract_lets

theorem saveAll_keeps {P : Part → Prop} {z s t : State} (h : Keeps P z s) {c} {ts} (e : saveAll s c ts = some t)
    (can : Can [.mem, .regs, .cores] P := by exact Can.sub (by assumption) (by decide)) : Keeps P z t := by
  unfold saveAll at e
  revert e
  generalize ts.mergeSort _ = l
  suffices g : ∀ o : Option State, (∀ u, o = some u → Keeps P z u) → (l.foldl (fun o t =>
      o.bind fun s => (saveOffset (getSlot s (tileSlot c t)) t.x64).map fun off => saveTile s c t off false) o) = some t →
      Keeps P z t from g (some s) (fun u e => by cases e; exact h)
  induction l with
  | nil => exact fun o k => k t
  | cons v r ih =>
    refine fun o k => ih _ fun u e => ?_
    cases o with
    | none => cases e
    | some s =>
      simp only [Option.bind_some, Option.map_eq_some_iff] at e
      obtain ⟨off, -, rfl⟩ := e
      exact saveTile_keeps (k s rfl) ..

theorem makeRoom_keeps {P : Part → Prop} {z s : State} (h : Keeps P z s) (c) (x64)
    (can : Can [.mem, .regs, .cores] P := by exact Can.sub (by assumption) (by decide)) : Keeps P z (makeRoom s c x64).1 := by
  unfold makeRoom
  extract_lets x
  split
  · extract_lets ts
    split
    · exact h
    · split
      · exact saveAll_keeps h (by assumption)
      · exact h
  · exact h

theorem updRun_keeps {P : Part → Prop} {z s : State} (h : Keeps P z s) (job) (node) (f)
    (can : Can [.jobs] P := by exact Can.sub (by assumption) (by decide)) : Keeps P z (updRun s job node f) := by
  unfold updRun
  with_reducible repeat' first | assumption | apply updJob_keeps

theorem markStarted_keeps {P : Part → Prop} {z s : State} (h : Keeps P z s) (t)
    (can : Can [.regs, .cores] P := by exact Can.sub (by assumption) (by decide)) : Keeps P z (markStarted s t) := by
  unfold markStarted
  with_reducible repeat' first
    | assumption | exact Can.sub (by assumption) (by decide) | apply setSlot_keeps | apply raise_keeps
      | apply count_keeps | refine Keeps.ite ?_ (fun _ => ?_)

theorem refreshSlots_keeps {P : Part → Prop} {z s : State} (h : Keeps P z s) (c)
    (can : Can [.cores] P := by exact Can.sub (by assumption) (by decide)) : Keeps P z (refreshSlots s c) := by
  unfold refreshSlots
  with_reducible repeat' first
    | assumption | apply setSlot_keeps | split | intro _ _ _ | apply Keeps.foldl | extract_lets

theorem ensureRunning_keeps {P : Part → Prop} {z s : State} (h : Keeps P z s) (c)
    (can : Can [.cores] P := by exact Can.sub (by assumption) (by decide)) : Keeps P z (ensureRunning s c) := by
  unfold ensureRunning
  with_reducible repeat' first | assumption | apply setSlot_keeps | split

theorem logTable_keeps {P : Part → Prop} {z s : State} (h : Keeps P z s) (n)
    (can : Can [.jnl] P := by exact Can.sub (by assumption) (by decide)) : Keeps P z (logTable s n) := by
  unfold logTable
  with_reducible repeat' first | (refine Keeps.upd ?_ rfl rfl rfl; assumption)

theorem dropCounters_keeps {P : Part → Prop} {z s : State} (h : Keeps P z s) (job)
    (can : Can [.counters] P := by exact Can.sub (by assumption) (by decide)) : Keeps P z (dropCounters s job) :=
  h.same rfl rfl rfl rfl

theorem dropReruns_keeps {P : Part → Prop} {z s : State} (h : Keeps P z s) (job)
    (can : Can [.dep] P := by exact Can.sub (by assumption) (by decide)) : Keeps P z (dropReruns s job) :=
  h.same rfl rfl rfl rfl

theorem discardTask_keeps {P : Part → Prop} {z s : State} (h : Keeps P z s) (t)
    (can : Can [.regs, .arrays, .cores, .hoists] P := by exact Can.sub (by assumption) (by decide)) :
    Keeps P z (discardTask s t) := by
  unfold discardTask
  with_reducible repeat' first
    | assumption | exact Can.sub (by assumption) (by decide) | apply cancelQueue_keeps | apply dropCharges_keeps
      | apply setCore_keeps | apply setSlot_keeps

theorem discardUnstarted_keeps {P : Part → Prop} {z s : State} (h : Keeps P z s) (job)
    (can : Can [.regs, .arrays, .cores, .hoists, .counters] P := by exact Can.sub (by assumption) (by decide)) :
    Keeps P z (discardUnstarted s job) := by
  unfold discardUnstarted
  with_reducible repeat' first
    | assumption | exact Can.sub (by assumption) (by decide) | apply discardTask_keeps | intro _ _ _
      | (refine Keeps.upd ?_ rfl rfl rfl; first | assumption | apply discardTask_keeps | refine Keeps.ite ?_ (fun _ => ?_) | apply Keeps.foldl)

theorem releaseChute_keeps {P : Part → Prop} {z s : State} (h : Keeps P z s) (r)
    (can : Can [.regs, .txQueue, .sessions, .outs, .chutes] P := by exact Can.sub (by assumption) (by decide)) :
    Keeps P z (releaseChute s r) := by
  unfold releaseChute
  with_reducible repeat' first
    | assumption | exact Can.sub (by assumption) (by decide) | apply resetChute_keeps | apply setSession_keeps
      | apply setEp_keeps | split | intro _ _ _
      | (refine Keeps.upd ?_ rfl rfl rfl; first | assumption | apply resetChute_keeps | apply setSession_keeps | apply setEp_keeps | refine Keeps.ite ?_ (fun _ => ?_) | apply Keeps.foldl)

theorem releaseGraph_keeps {P : Part → Prop} {z s : State} (h : Keeps P z s) (slot)
    (can : Can [.regs, .graphs, .stages, .txQueue, .sessions, .outs, .chutes] P
      := by exact Can.sub (by assumption) (by decide)) :
    Keeps P z (releaseGraph s slot) := by
  unfold releaseGraph
  with_reducible repeat' first
    | assumption | exact Can.sub (by assumption) (by decide) | apply releaseChute_keeps | intro _ _ _
      | apply Keeps.foldl
      | (refine Keeps.upd ?_ rfl rfl rfl; first | assumption | apply releaseChute_keeps | apply setGraphSlot_keeps)

theorem finishWait_keeps {P : Part → Prop} {z s : State} (h : Keeps P z s) (w)
    (can : Can [.regs, .graphs, .stages, .waits, .respLog, .lotRing, .jnl, .txQueue, .sessions, .outs, .chutes] P
      := by exact Can.sub (by assumption) (by decide)) :
    Keeps P z (finishWait s w) := by
  unfold finishWait
  with_reducible repeat' first
    | assumption | exact Can.sub (by assumption) (by decide) | apply respondWith_keeps | apply logTable_keeps
      | apply releaseGraph_keeps | apply respond_keeps | refine Keeps.ite ?_ (fun _ => ?_) | split
      | (refine Keeps.upd ?_ rfl rfl rfl; assumption)

theorem finishWaits_keeps {P : Part → Prop} {z s : State} (h : Keeps P z s)
    (can : Can [.regs, .graphs, .stages, .waits, .respLog, .lotRing, .jnl, .txQueue, .sessions, .outs, .chutes] P
      := by exact Can.sub (by assumption) (by decide)) :
    Keeps P z (finishWaits s) := by
  unfold finishWaits
  with_reducible repeat' first | assumption | apply finishWait_keeps | intro _ _ _ | apply Keeps.foldl

theorem countMisses_keeps {P : Part → Prop} {z s : State} (h : Keeps P z s) (j)
    (can : Can [.regs] P := by exact Can.sub (by assumption) (by decide)) : Keeps P z (countMisses s j) := by
  unfold countMisses
  with_reducible repeat' first | assumption | apply raise_keeps | apply count_keeps | intro _ _ _ | apply Keeps.foldl

theorem raiseOff_keeps {P : Part → Prop} {z s : State} (h : Keeps P z s) (job) (node)
    (can : Can [.regs] P := by exact Can.sub (by assumption) (by decide)) : Keeps P z (raiseOff s job node) := by
  unfold raiseOff
  with_reducible repeat' first | assumption | apply raise_keeps | intro _ _ _ | apply Keeps.foldl

theorem countRun_keeps {P : Part → Prop} {z s : State} (h : Keeps P z s) (j) (i) (n)
    (can : Can [.regs, .stages] P := by exact Can.sub (by assumption) (by decide)) :
    Keeps P z (countRun s j i n) := by
  unfold countRun
  with_reducible repeat' first
    | assumption | exact Can.sub (by assumption) (by decide) | apply setStage_keeps | apply raiseOff_keeps
      | refine Keeps.ite ?_ (fun _ => ?_)

theorem endJob_keeps {P : Part → Prop} {z s : State} (h : Keeps P z s) (key) (status)
    (can : Can [.mem, .regs, .graphs, .stages, .jobs, .waits, .voids, .dep, .respLog, .lotRing, .jnl, .txQueue,
      .sessions, .outs, .arrays, .cores, .hoists, .scatters, .assays, .chutes, .counters] P
      := by exact Can.sub (by assumption) (by decide)) :
    Keeps P z (endJob s key status) := by
  unfold endJob
  with_reducible repeat' first
    | assumption | exact Can.sub (by assumption) (by decide) | apply discardTask_keeps | apply countRun_keeps
      | apply countMisses_keeps | apply writeModule_keeps | apply dropReruns_keeps | apply endRecovery_keeps
      | apply finishWaits_keeps | apply respond_keeps | split | intro _ _ _ | apply Keeps.foldl
      | (refine Keeps.upd ?_ rfl rfl rfl; first | assumption | apply discardTask_keeps | apply countRun_keeps | apply countMisses_keeps | apply writeModule_keeps | apply dropCounters_keeps)

theorem stopJob_keeps {P : Part → Prop} {z s : State} (h : Keeps P z s) (key) (status)
    (can : Can [.mem, .regs, .graphs, .stages, .jobs, .waits, .voids, .dep, .respLog, .lotRing, .jnl, .txQueue,
      .sessions, .outs, .arrays, .cores, .hoists, .scatters, .assays, .chutes, .counters] P
      := by exact Can.sub (by assumption) (by decide)) :
    Keeps P z (stopJob s key status) := by
  unfold stopJob
  with_reducible repeat' first
    | assumption | exact Can.sub (by assumption) (by decide) | apply updJob_keeps | apply discardUnstarted_keeps
      | apply endJob_keeps | refine Keeps.ite ?_ (fun _ => ?_)

theorem tableRespond_keeps {P : Part → Prop} {z s : State} (h : Keeps P z s) (ctx) (opcode) (status) (result) (entry)
    (can : Can [.respLog, .lotRing, .jnl, .txQueue, .sessions, .outs, .chutes] P
      := by exact Can.sub (by assumption) (by decide)) :
    Keeps P z (tableRespond s ctx opcode status result entry) := by
  unfold tableRespond
  with_reducible repeat' first
    | assumption | exact Can.sub (by assumption) (by decide) | apply respondWith_keeps | apply logTable_keeps

theorem failCmd_keeps {P : Part → Prop} {z s : State} (h : Keeps P z s) (ctx) (opcode) (status)
    (can : Can [.respLog, .lotRing, .jnl, .txQueue, .sessions, .outs, .chutes] P
      := by exact Can.sub (by assumption) (by decide)) :
    Keeps P z (failCmd s ctx opcode status) := by
  unfold failCmd
  with_reducible repeat' first | assumption | apply respond_keeps

theorem inService_keeps {P : Part → Prop} {z s t : State} (h : Keeps P z s) (h2 : Keeps P z t) : Keeps P z (inService s t) := by
  unfold inService
  with_reducible repeat' first | assumption | refine Keeps.ite ?_ (fun _ => ?_)

theorem placeAlloc_keeps {P : Part → Prop} {z s : State} (h : Keeps P z s) (seam) (size)
    (can : Can [.freeCount] P := by exact Can.sub (by assumption) (by decide)) :
    Keeps P z (placeAlloc s seam size).2 := by
  unfold placeAlloc
  split
  · exact h
  · exact drawChoice_keeps h

theorem allocCmd_keeps {P : Part → Prop} {z s : State} (h : Keeps P z s) (ctx) (seam) (size)
    (can : Can [.freeCount, .regs, .allocs, .jobs, .voids, .dep, .respLog, .lotRing, .jnl, .txQueue, .sessions,
      .outs, .arrays, .cores, .hoists, .scatters, .chutes] P := by exact Can.sub (by assumption) (by decide)) :
    Keeps P z (allocCmd s ctx seam size) := by
  unfold allocCmd
  split
  · exact failCmd_keeps h ..
  split
  · exact failCmd_keeps h ..
  split
  · exact failCmd_keeps (.of_snd (by assumption) (placeAlloc_keeps h ..)) ..
  · have k := Keeps.of_snd (by assumption) (placeAlloc_keeps h seam (roundUp size 4096))
    refine tableRespond_keeps ?_ ..
    refine voidAtAlloc_keeps ?_ ..
    exact Keeps.upd k rfl rfl rfl

theorem dropAllocation_keeps {P : Part → Prop} {z s : State} (h : Keeps P z s) (a)
    (can : Can [.allocs, .voids, .dep] P := by exact Can.sub (by assumption) (by decide)) :
    Keeps P z (dropAllocation s a) :=
  h.same rfl rfl rfl rfl

theorem pendFree_keeps {P : Part → Prop} {z s : State} (h : Keeps P z s) (base)
    (can : Can [.allocs] P := by exact Can.sub (by assumption) (by decide)) : Keeps P z (pendFree s base) :=
  h.same rfl rfl rfl rfl

theorem freeCmd_keeps {P : Part → Prop} {z s : State} (h : Keeps P z s) (ctx) (base)
    (can : Can [.allocs, .voids, .dep, .respLog, .lotRing, .jnl, .txQueue, .sessions, .outs, .chutes] P
      := by exact Can.sub (by assumption) (by decide)) :
    Keeps P z (freeCmd s ctx base) := by
  unfold freeCmd
  with_reducible repeat' first
    | assumption | exact Can.sub (by assumption) (by decide) | apply failCmd_keeps | apply pendFree_keeps
      | apply dropAllocation_keeps | apply tableRespond_keeps | refine Keeps.ite ?_ (fun _ => ?_) | split

theorem releaseAllocation_keeps {P : Part → Prop} {z s : State} (h : Keeps P z s) (base)
    (can : Can [.allocs, .voids, .dep, .jnl] P := by exact Can.sub (by assumption) (by decide)) :
    Keeps P z (releaseAllocation s base) := by
  unfold releaseAllocation
  with_reducible repeat' first
    | assumption | exact Can.sub (by assumption) (by decide) | apply logTable_keeps | apply dropAllocation_keeps
      | refine Keeps.ite ?_ (fun _ => ?_) | split

theorem noteDescFail_keeps {P : Part → Prop} {z s : State} (h : Keeps P z s) (ctx) (status)
    (can : Can [.regs] P := by exact Can.sub (by assumption) (by decide)) :
    Keeps P z (noteDescFail s ctx status) := by
  unfold noteDescFail
  with_reducible repeat' first
    | assumption | apply raise_keeps | apply count_keeps | apply raiseIf_keeps | apply setRawReg_keeps

theorem descCreateCmd_keeps {P : Part → Prop} {z s : State} (h : Keeps P z s) (ctx) (record)
    (can : Can [.regs, .descs, .respLog, .lotRing, .jnl, .txQueue, .sessions, .outs, .chutes] P
      := by exact Can.sub (by assumption) (by decide)) :
    Keeps P z (descCreateCmd s ctx record) := by
  unfold descCreateCmd
  with_reducible repeat' first
    | assumption | exact Can.sub (by assumption) (by decide) | apply failCmd_keeps | apply noteDescFail_keeps
      | apply setDescSlot_keeps | apply tableRespond_keeps | refine Keeps.ite ?_ (fun _ => ?_) | split

theorem dropDesc_keeps {P : Part → Prop} {z s : State} (h : Keeps P z s) (slot)
    (can : Can [.descs] P := by exact Can.sub (by assumption) (by decide)) : Keeps P z (dropDesc s slot) := by
  unfold dropDesc
  with_reducible repeat' first | assumption | apply setDescSlot_keeps

theorem descDestroyCmd_keeps {P : Part → Prop} {z s : State} (h : Keeps P z s) (ctx) (handle)
    (can : Can [.descs, .respLog, .lotRing, .jnl, .txQueue, .sessions, .outs, .chutes] P
      := by exact Can.sub (by assumption) (by decide)) :
    Keeps P z (descDestroyCmd s ctx handle) := by
  unfold descDestroyCmd
  with_reducible repeat' first
    | assumption | exact Can.sub (by assumption) (by decide) | apply failCmd_keeps | apply setDescSlot_keeps
      | apply dropDesc_keeps | apply tableRespond_keeps | refine Keeps.ite ?_ (fun _ => ?_)

theorem destroyPendingDesc_keeps {P : Part → Prop} {z s : State} (h : Keeps P z s) (slot)
    (can : Can [.descs, .jnl] P := by exact Can.sub (by assumption) (by decide)) :
    Keeps P z (destroyPendingDesc s slot) := by
  unfold destroyPendingDesc
  with_reducible repeat' first
    | assumption | exact Can.sub (by assumption) (by decide) | apply logTable_keeps | apply dropDesc_keeps
      | refine Keeps.ite ?_ (fun _ => ?_)

theorem putCmd_keeps {P : Part → Prop} {z s : State} (h : Keeps P z s) (ctx) (addr) (data)
    (can : Can [.mem, .regs, .voids, .dep, .respLog, .lotRing, .jnl, .txQueue, .sessions, .outs, .cores, .assays,
      .chutes] P := by exact Can.sub (by assumption) (by decide)) :
    Keeps P z (putCmd s ctx addr data) := by
  unfold putCmd
  with_reducible repeat' first
    | assumption | exact Can.sub (by assumption) (by decide) | apply failCmd_keeps | apply respond_keeps
      | apply writeModule_keeps | refine Keeps.ite ?_ (fun _ => ?_)

theorem getCmd_keeps {P : Part → Prop} {z s : State} (h : Keeps P z s) (ctx) (addr) (len)
    (can : Can [.respLog, .lotRing, .jnl, .txQueue, .sessions, .outs, .chutes] P
      := by exact Can.sub (by assumption) (by decide)) :
    Keeps P z (getCmd s ctx addr len) := by
  unfold getCmd
  with_reducible repeat' first
    | assumption | apply failCmd_keeps | apply respond_keeps | refine Keeps.ite ?_ (fun _ => ?_)

theorem openOut_keeps {P : Part → Prop} {z s : State} (h : Keeps P z s) (kind) (graph) (edge) (peer) (side)
    (can : Can [.txQueue, .outs] P := by exact Can.sub (by assumption) (by decide)) :
    Keeps P z (openOut s kind graph edge peer side) := by
  unfold openOut
  with_reducible repeat' first
    | exact Can.sub (by assumption) (by decide) | apply pushTx_keeps | (refine Keeps.upd ?_ rfl rfl rfl; assumption)

theorem bindChute_keeps {P : Part → Prop} {z s : State} (h : Keeps P z s) (slot) (g) (i)
    (can : Can [.freeCount, .graphs, .chutes] P := by exact Can.sub (by assumption) (by decide)) :
    Keeps P z (bindChute slot g s i) := by
  unfold bindChute
  with_reducible repeat' first
    | assumption | exact Can.sub (by assumption) (by decide) | apply chooseOf_keeps | apply setEp_keeps
      | apply setGraphSlot_keeps | split | extract_lets | (refine Keeps.of_snd (by assumption) ?_)

theorem loadAssay_keeps {P : Part → Prop} {z s : State} (h : Keeps P z s) (g) (n)
    (can : Can [.mem, .regs, .voids, .dep, .cores, .assays] P := by exact Can.sub (by assumption) (by decide)) : Keeps P z (loadAssay g s n) := by
  unfold loadAssay
  with_reducible repeat' first
    | assumption | exact Can.sub (by assumption) (by decide) | apply writeAssay_keeps | refine Keeps.ite ?_ (fun _ => ?_) | split | intro _ _ _ | intro _ _ | apply Keeps.foldl | extract_lets

theorem placeGraph_keeps {P : Part → Prop} {z s : State} (h : Keeps P z s) (slot) (g)
    (can : Can [.freeCount, .mem, .regs, .graphs, .stages, .voids, .dep, .txQueue, .outs, .cores, .assays,
      .chutes] P := by exact Can.sub (by assumption) (by decide)) :
    Keeps P z (placeGraph s slot g) := by
  unfold placeGraph
  with_reducible repeat' first
    | assumption | exact Can.sub (by assumption) (by decide) | apply setStage_keeps | apply bindChute_keeps
      | apply openOut_keeps | apply loadAssay_keeps | intro _ _ _ | apply Keeps.foldl

theorem graphLoadCmd_keeps {P : Part → Prop} {z s : State} (h : Keeps P z s) (ctx) (addr) (len)
    (can : Can [.freeCount, .mem, .regs, .graphs, .stages, .voids, .dep, .respLog, .lotRing, .jnl, .txQueue,
      .sessions, .outs, .cores, .assays, .chutes] P := by exact Can.sub (by assumption) (by decide)) :
    Keeps P z (graphLoadCmd s ctx addr len) := by
  unfold graphLoadCmd
  with_reducible repeat' first
    | assumption | exact Can.sub (by assumption) (by decide) | apply failCmd_keeps | apply setGraphSlot_keeps
      | apply tableRespond_keeps | apply placeGraph_keeps | refine Keeps.ite ?_ (fun _ => ?_) | split

theorem waitFor_keeps {P : Part → Prop} {z s : State} (h : Keeps P z s) (ctx) (opcode) (jobs) (graph)
    (can : Can [.regs, .graphs, .stages, .waits, .respLog, .lotRing, .jnl, .txQueue, .sessions, .outs, .chutes] P
      := by exact Can.sub (by assumption) (by decide)) :
    Keeps P z (waitFor s ctx opcode jobs graph) := by
  unfold waitFor
  with_reducible repeat' first | assumption | apply finishWait_keeps | (refine Keeps.upd ?_ rfl rfl rfl; assumption)

theorem graphUnloadCmd_keeps {P : Part → Prop} {z s : State} (h : Keeps P z s) (ctx) (handle)
    (can : Can [.mem, .regs, .graphs, .stages, .jobs, .waits, .voids, .dep, .respLog, .lotRing, .jnl, .txQueue,
      .sessions, .outs, .arrays, .cores, .hoists, .scatters, .assays, .chutes, .counters] P
      := by exact Can.sub (by assumption) (by decide)) :
    Keeps P z (graphUnloadCmd s ctx handle) := by
  unfold graphUnloadCmd
  with_reducible repeat' first
    | assumption | exact Can.sub (by assumption) (by decide) | apply failCmd_keeps | apply setGraphSlot_keeps
      | apply stopJob_keeps | apply waitFor_keeps | refine Keeps.ite ?_ (fun _ => ?_) | intro _ _ _
      | apply Keeps.foldl

theorem runCmd_keeps {P : Part → Prop} {z s : State} (h : Keeps P z s) (ctx) (handle) (jobId) (record)
    (can : Can [.jobs, .dep, .respLog, .lotRing, .jnl, .txQueue, .sessions, .outs, .chutes] P
      := by exact Can.sub (by assumption) (by decide)) :
    Keeps P z (runCmd s ctx handle jobId record) := by
  unfold runCmd
  with_reducible repeat' first
    | assumption | exact Can.sub (by assumption) (by decide) | apply failCmd_keeps | refine Keeps.ite ?_ (fun _ => ?_)
      | split | (refine Keeps.upd ?_ rfl rfl rfl; assumption) | extract_lets

theorem cancelCmd_keeps {P : Part → Prop} {z s : State} (h : Keeps P z s) (ctx) (jobId)
    (can : Can [.mem, .regs, .graphs, .stages, .jobs, .waits, .voids, .dep, .respLog, .lotRing, .jnl, .txQueue,
      .sessions, .outs, .arrays, .cores, .hoists, .scatters, .assays, .chutes, .counters] P
      := by exact Can.sub (by assumption) (by decide)) :
    Keeps P z (cancelCmd s ctx jobId) := by
  unfold cancelCmd
  with_reducible repeat' first
    | assumption | exact Can.sub (by assumption) (by decide) | apply failCmd_keeps | apply waitFor_keeps
      | apply stopJob_keeps | refine Keeps.ite ?_ (fun _ => ?_) | intro _ _ _ | apply Keeps.foldl

theorem lotCommand_keeps {P : Part → Prop} {z s : State} (h : Keeps P z s) (c)
    (can : Can [.freeCount, .mem, .regs, .allocs, .descs, .graphs, .stages, .jobs, .waits, .voids, .dep, .respLog,
      .lotRing, .jnl, .txQueue, .sessions, .outs, .arrays, .cores, .hoists, .scatters, .assays, .chutes,
      .counters] P := by exact Can.sub (by assumption) (by decide)) :
    Keeps P z (lotCommand s c) := by
  unfold lotCommand
  with_reducible repeat' first
    | assumption | exact Can.sub (by assumption) (by decide) | apply allocCmd_keeps | apply freeCmd_keeps
      | apply descCreateCmd_keeps | apply descDestroyCmd_keeps | apply putCmd_keeps | apply getCmd_keeps
      | apply graphLoadCmd_keeps | apply graphUnloadCmd_keeps | apply runCmd_keeps | apply cancelCmd_keeps
      | apply failCmd_keeps | split

theorem drainSession_keeps {P : Part → Prop} {z s : State} (h : Keeps P z s) (i) (n)
    (can : Can [.freeCount, .mem, .regs, .allocs, .descs, .graphs, .stages, .jobs, .waits, .voids, .dep, .respLog,
      .lotRing, .jnl, .txQueue, .sessions, .outs, .arrays, .cores, .hoists, .scatters, .assays, .chutes,
      .counters] P := by exact Can.sub (by assumption) (by decide)) :
    Keeps P z (drainSession i n s) := by
  induction n generalizing s with
  | zero => exact h
  | succ n ih =>
    unfold drainSession
    extract_lets x
    split
    · exact h
    · split
      · exact ih (lotCommand_keeps (setSession_keeps h ..) ..)
      · exact h

theorem drainOrphans_keeps {P : Part → Prop} {z s : State} (h : Keeps P z s) (l)
    (can : Can [.freeCount, .mem, .regs, .allocs, .descs, .graphs, .stages, .jobs, .waits, .voids, .dep, .respLog,
      .lotRing, .jnl, .txQueue, .sessions, .outs, .arrays, .cores, .hoists, .scatters, .assays, .chutes,
      .counters] P := by exact Can.sub (by assumption) (by decide)) :
    Keeps P z (drainOrphans l s).2 := by
  induction l generalizing s with
  | nil => exact h
  | cons c r ih =>
    unfold drainOrphans
    split
    · exact ih (lotCommand_keeps h ..)
    · exact h

theorem drainAll_keeps {P : Part → Prop} {z s : State} (h : Keeps P z s)
    (can : Can [.freeCount, .mem, .regs, .allocs, .descs, .graphs, .stages, .jobs, .waits, .voids, .dep, .respLog,
      .lotRing, .jnl, .txQueue, .sessions, .outs, .orphans, .arrays, .cores, .hoists, .scatters, .assays, .chutes,
      .counters] P := by exact Can.sub (by assumption) (by decide)) :
    Keeps P z (drainAll s) := by
  unfold drainAll
  extract_lets r _ _ t
  have k : Keeps P z r.2 := Keeps.foldl_snd (p := ([], s)) h _ fun p x k => drainOrphans_keeps k x
  have k : Keeps P z t := k.same rfl rfl rfl rfl
  refine Keeps.foldl k _ fun s i k => ?_
  exact drainSession_keeps k ..

theorem startJob_keeps {P : Part → Prop} {z s : State} (h : Keeps P z s) (key)
    (can : Can [.jobs] P := by exact Can.sub (by assumption) (by decide)) : Keeps P z (startJob s key) := by
  unfold startJob
  with_reducible repeat' first | assumption | apply updJob_keeps | refine Keeps.ite ?_ (fun _ => ?_) | split

theorem bindCounter_keeps {P : Part → Prop} {z s : State} (h : Keeps P z s) (job) (node) (x)
    (can : Can [.counters] P := by exact Can.sub (by assumption) (by decide)) :
    Keeps P z (bindCounter job node s x) := by
  unfold bindCounter
  with_reducible repeat' first | assumption | apply setCounter_keeps

theorem startNode_keeps {P : Part → Prop} {z s : State} (h : Keeps P z s) (key) (i) (p)
    (can : Can [.regs, .stages, .jobs, .counters] P := by exact Can.sub (by assumption) (by decide)) :
    Keeps P z (startNode s key i p) := by
  unfold startNode
  with_reducible repeat' first
    | assumption | exact Can.sub (by assumption) (by decide) | apply holdJob_keeps | apply updRun_keeps
      | apply setStage_keeps | apply bindCounter_keeps | refine Keeps.ite ?_ (fun _ => ?_) | split | intro _ _ _
      | apply Keeps.foldl

theorem settle_keeps {P : Part → Prop} {z s : State} (h : Keeps P z s) (c)
    (can : Can [.cores] P := by exact Can.sub (by assumption) (by decide)) : Keeps P z (settle s c) := by
  unfold settle
  with_reducible repeat' first
    | assumption | exact Can.sub (by assumption) (by decide) | apply ensureRunning_keeps | apply refreshSlots_keeps | refine Keeps.ite ?_ (fun _ => ?_) | split | intro _ _ _ | intro _ _ | apply Keeps.foldl | extract_lets

theorem finishCmd_keeps {P : Part → Prop} {z s : State} (h : Keeps P z s) (t) (i)
    (can : Can [.cores] P := by exact Can.sub (by assumption) (by decide)) : Keeps P z (finishCmd s t i) := by
  unfold finishCmd
  with_reducible repeat' first
    | assumption | exact Can.sub (by assumption) (by decide) | apply settle_keeps | apply setSlot_keeps | refine Keeps.ite ?_ (fun _ => ?_) | split | intro _ _ _ | intro _ _ | apply Keeps.foldl | extract_lets

theorem beginCharge_keeps {P : Part → Prop} {z s : State} (h : Keeps P z s) (a) (c) (slot) (cmd) (w) (v) (src)
    (can : Can [.regs, .arrays, .cores, .cals] P := by exact Can.sub (by assumption) (by decide)) : Keeps P z (beginCharge s a c slot cmd w v src) := by
  unfold beginCharge
  with_reducible repeat' first
    | assumption | exact Can.sub (by assumption) (by decide) | apply setCal_keeps | apply markStarted_keeps | apply finishCmd_keeps | apply putTile_keeps | apply setArray_keeps | refine Keeps.ite ?_ (fun _ => ?_) | split | intro _ _ _ | intro _ _ | apply Keeps.foldl | extract_lets | (refine Keeps.of_snd (by assumption) ?_) | (refine Keeps.of_fst (by assumption) ?_)

theorem startCharge_keeps {P : Part → Prop} {z s : State} (h : Keeps P z s) (a) (slot) (cmd)
    (can : Can [.regs, .arrays, .cores, .cals] P := by exact Can.sub (by assumption) (by decide)) : Keeps P z (startCharge s a slot cmd) := by
  unfold startCharge
  with_reducible repeat' first
    | assumption | exact Can.sub (by assumption) (by decide) | apply beginCharge_keeps | apply setCal_keeps | apply count_keeps | refine Keeps.ite ?_ (fun _ => ?_) | split | intro _ _ _ | intro _ _ | apply Keeps.foldl | extract_lets

theorem countMd_keeps {P : Part → Prop} {z s : State} (h : Keeps P z s) (c) (k)
    (can : Can [.regs] P := by exact Can.sub (by assumption) (by decide)) : Keeps P z (countMd s c k) := by
  unfold countMd
  with_reducible repeat' first
    | assumption | apply raise_keeps | apply count_keeps | refine Keeps.ite ?_ (fun _ => ?_)

theorem placeImage_keeps {P : Part → Prop} {z s t' : State} (h : Keeps P z s) {t st off w} (e : placeImage s t st off w = some t')
    (can : Can [.mem, .cores] P := by exact Can.sub (by assumption) (by decide)) : Keeps P z t' := by
  unfold placeImage at e
  split at e
  · cases e
    exact h
  · split at e
    · cases e
      exact writeScratch_keeps h ..
    · cases e

theorem loadWeights_keeps {P : Part → Prop} {z s : State} (h : Keeps P z s) (a) (slot) (cmd) (image)
    (can : Can [.mem, .regs, .arrays, .cores] P := by exact Can.sub (by assumption) (by decide)) : Keeps P z (loadWeights s a slot cmd image) := by
  unfold loadWeights
  extract_lets t
  split
  · extract_lets part
    split
    · exact h
    · split
      · have k := placeImage_keeps h (by assumption)
        extract_lets k1 b s1 s2
        refine setArray_keeps (Keeps.ite ?_ fun k => ?_) ..
        · exact countMd_keeps k ..
        · exact raise_keeps (count_keeps (countMd_keeps (by assumption) ..) ..) ..
      · exact h
  · exact h

theorem tileCount_keeps {P : Part → Prop} {z s : State} (h : Keeps P z s) (c) (base) (k) (n)
    (can : Can [.cores] P := by exact Can.sub (by assumption) (by decide)) : Keeps P z (tileCount s c base k n) := by
  unfold tileCount
  with_reducible repeat' first | assumption | apply putTile_keeps | refine Keeps.ite ?_ (fun _ => ?_) | split

theorem tileCounts_keeps {P : Part → Prop} {z s : State} (h : Keeps P z s) (c) (base) (m)
    (can : Can [.cores] P := by exact Can.sub (by assumption) (by decide)) : Keeps P z (tileCounts s c base m) := by
  unfold tileCounts
  with_reducible repeat' first
    | assumption | exact Can.sub (by assumption) (by decide) | apply putTile_keeps | refine Keeps.ite ?_ (fun _ => ?_) | split | intro _ _ _ | intro _ _ | apply Keeps.foldl | extract_lets

theorem enterVector_keeps {P : Part → Prop} {z s : State} (h : Keeps P z s) (a) (x) (t) (ch) (f)
    (can : Can [.regs, .arrays, .cores] P := by exact Can.sub (by assumption) (by decide)) : Keeps P z (enterVector s a x t ch f) := by
  unfold enterVector
  with_reducible repeat' first
    | assumption | exact Can.sub (by assumption) (by decide) | apply setArray_keeps | apply count_keeps | apply slotCount_keeps | refine Keeps.ite ?_ (fun _ => ?_) | split | intro _ _ _ | intro _ _ | apply Keeps.foldl | extract_lets

theorem placeRecords_keeps {P : Part → Prop} {z s t' : State} (h : Keeps P z s) {a ch st off bs} (e : placeRecords s a ch st off bs = some t')
    (can : Can [.mem, .cores] P := by exact Can.sub (by assumption) (by decide)) : Keeps P z t' := by
  unfold placeRecords at e
  split at e
  · cases e
    exact h
  · split at e
    · cases e
      exact writeScratch_keeps h ..
    · cases e

theorem countRow_keeps {P : Part → Prop} {z s : State} (h : Keeps P z s) (a) (ch) (l)
    (can : Can [.regs, .cores] P := by exact Can.sub (by assumption) (by decide)) : Keeps P z (countRow s a ch l) := by
  unfold countRow
  with_reducible repeat' first
    | assumption | exact Can.sub (by assumption) (by decide) | apply tileCount_keeps | apply raise_keeps | apply count_keeps | refine Keeps.ite ?_ (fun _ => ?_) | split | intro _ _ _ | intro _ _ | apply Keeps.foldl | extract_lets

theorem scheduleRow_keeps {P : Part → Prop} {z s : State} (h : Keeps P z s) (a) (x) (t) (ch) (swap) (record) (m) (rest)
    (can : Can [.mem, .regs, .arrays, .cores] P := by exact Can.sub (by assumption) (by decide)) : Keeps P z (scheduleRow s a x t ch swap record m rest) := by
  unfold scheduleRow
  dsimp only
  split
  · exact h
  · have k := placeRecords_keeps h (by assumption)
    with_reducible repeat' first
      | assumption | exact Can.sub (by assumption) (by decide) | apply enterVector_keeps | apply setArray_keeps
      | apply countRow_keeps | apply count_keeps | refine Keeps.ite ?_ (fun _ => ?_) | split

theorem scheduleTally_keeps {P : Part → Prop} {z s : State} (h : Keeps P z s) (a) (x) (t) (ch) (swap) (record)
    (can : Can [.mem, .regs, .arrays, .cores] P := by exact Can.sub (by assumption) (by decide)) : Keeps P z (scheduleTally s a x t ch swap record) := by
  unfold scheduleTally
  extract_lets sum v
  split
  · exact h
  · exact enterVector_keeps (placeRecords_keeps h (by assumption)) ..

theorem scheduleVector_keeps {P : Part → Prop} {z s : State} (h : Keeps P z s) (a) (record)
    (can : Can [.mem, .regs, .arrays, .cores] P := by exact Can.sub (by assumption) (by decide)) : Keeps P z (scheduleVector s a record) := by
  unfold scheduleVector
  extract_lets x0
  split
  · exact h
  · split
    · exact h
    · extract_lets swap y
      have k : Keeps P z y := by
        unfold y
        split
        · exact scheduleRow_keeps h ..
        · exact scheduleTally_keeps h ..
      exact Keeps.ite k fun k => tileCounts_keeps k ..

theorem idleSlot_keeps {P : Part → Prop} {z s : State} (h : Keeps P z s) (a)
    (can : Can [.regs, .arrays] P := by exact Can.sub (by assumption) (by decide)) : Keeps P z (idleSlot s a) := by
  unfold idleSlot
  with_reducible repeat' first
    | assumption | exact Can.sub (by assumption) (by decide) | apply setArray_keeps | apply count_keeps | apply raise_keeps | refine Keeps.ite ?_ (fun _ => ?_) | split | intro _ _ _ | intro _ _ | apply Keeps.foldl | extract_lets

theorem freezeArray_keeps {P : Part → Prop} {z s : State} (h : Keeps P z s) (a)
    (can : Can [.regs, .arrays] P := by exact Can.sub (by assumption) (by decide)) : Keeps P z (freezeArray s a) := by
  unfold freezeArray
  with_reducible repeat' first
    | assumption | exact Can.sub (by assumption) (by decide) | apply raise_keeps | apply count_keeps
      | apply setArray_keeps | refine Keeps.ite ?_ (fun _ => ?_)

theorem mismatch_keeps {P : Part → Prop} {z s : State} (h : Keeps P z s) (a) (base)
    (can : Can [.freeCount, .regs, .doms, .graphs, .jobs, .fences, .voids, .dep, .jnl, .txQueue, .sessions, .outs, .port, .arrays, .cores, .adits, .hoists, .scatters, .chans, .links, .chutes, .hops, .counters] P := by exact Can.sub (by assumption) (by decide)) : Keeps P z (mismatch s a base) := by
  unfold mismatch
  with_reducible repeat' first
    | assumption | exact Can.sub (by assumption) (by decide) | apply count_keeps | apply updJob_keeps | apply setArray_keeps | apply putTile_keeps | apply settle_keeps | apply reissuePart_keeps | apply arrayMismatch_keeps | apply reportFault_keeps | apply raise_keeps | apply abortTask_keeps | refine Keeps.ite ?_ (fun _ => ?_) | split | intro _ _ _ | intro _ _ | apply Keeps.foldl | extract_lets

theorem endCharge_keeps {P : Part → Prop} {z s : State} (h : Keeps P z s) (a) (f)
    (can : Can [.cores] P := by exact Can.sub (by assumption) (by decide)) : Keeps P z (endCharge s a f) := by
  unfold endCharge
  with_reducible repeat' first
    | assumption | exact Can.sub (by assumption) (by decide) | apply putTile_keeps | apply finishCmd_keeps | refine Keeps.ite ?_ (fun _ => ?_) | split | intro _ _ _ | intro _ _ | apply Keeps.foldl | extract_lets

theorem countPartials_keeps {P : Part → Prop} {z s : State} (h : Keeps P z s) (a) (base) (ps)
    (can : Can [.regs, .cores] P := by exact Can.sub (by assumption) (by decide)) :
    Keeps P z (countPartials s a base ps) := by
  unfold countPartials
  with_reducible repeat' first
    | assumption | exact Can.sub (by assumption) (by decide) | apply raise_keeps | apply count_keeps
      | apply tileCount_keeps | refine Keeps.ite ?_ (fun _ => ?_)

theorem handOver_keeps {P : Part → Prop} {z s : State} (h : Keeps P z s) (a) (f) (us)
    (can : Can [.regs, .arrays, .cores] P := by exact Can.sub (by assumption) (by decide)) : Keeps P z (handOver s a f us) := by
  unfold handOver
  with_reducible repeat' first
    | assumption | exact Can.sub (by assumption) (by decide) | apply setArray_keeps | apply countPartials_keeps | refine Keeps.ite ?_ (fun _ => ?_) | split | intro _ _ _ | intro _ _ | apply Keeps.foldl | extract_lets

theorem tallyChecks_keeps {P : Part → Prop} {z s : State} (h : Keeps P z s) (a) (f) (totals) (us)
    (can : Can [.regs] P := by exact Can.sub (by assumption) (by decide)) : Keeps P z (tallyChecks s a f totals us).1 := by
  unfold tallyChecks
  with_reducible repeat' first
    | assumption | exact Can.sub (by assumption) (by decide) | apply count_keeps | apply raise_keeps | refine Keeps.ite ?_ (fun _ => ?_) | split | intro _ _ _ | intro _ _ | apply Keeps.foldl | extract_lets

theorem drainVector_keeps {P : Part → Prop} {z s : State} (h : Keeps P z s) (a) (us)
    (can : Can [.freeCount, .regs, .doms, .graphs, .jobs, .fences, .voids, .dep, .jnl, .txQueue, .sessions, .outs, .port, .arrays, .cores, .adits, .hoists, .scatters, .chans, .links, .chutes, .hops, .counters] P := by exact Can.sub (by assumption) (by decide)) : Keeps P z (drainVector s a us) := by
  unfold drainVector
  with_reducible repeat' first
    | assumption | exact Can.sub (by assumption) (by decide) | apply handOver_keeps | apply setArray_keeps | apply endCharge_keeps | apply tallyChecks_keeps | apply mismatch_keeps | refine Keeps.ite ?_ (fun _ => ?_) | split | intro _ _ _ | intro _ _ | apply Keeps.foldl | extract_lets

theorem acceptOut_keeps {P : Part → Prop} {z s : State} (h : Keeps P z s) (a) (o)
    (can : Can [.regs, .cores] P := by exact Can.sub (by assumption) (by decide)) : Keeps P z (acceptOut s a o) := by
  unfold acceptOut
  with_reducible repeat' first
    | assumption | exact Can.sub (by assumption) (by decide) | apply onTile_keeps | refine Keeps.ite ?_ (fun _ => ?_) | split | intro _ _ _ | intro _ _ | apply Keeps.foldl | extract_lets

theorem acceptVectors_keeps {P : Part → Prop} {z s : State} (h : Keeps P z s) (a)
    (can : Can [.regs, .arrays, .cores] P := by exact Can.sub (by assumption) (by decide)) : Keeps P z (acceptVectors s a) := by
  unfold acceptVectors
  with_reducible repeat' first
    | assumption | exact Can.sub (by assumption) (by decide) | apply acceptOut_keeps | apply setArray_keeps | refine Keeps.ite ?_ (fun _ => ?_) | split | intro _ _ _ | intro _ _ | apply Keeps.foldl | extract_lets

theorem shiftTile_keeps {P : Part → Prop} {z s : State} (h : Keeps P z s) (a)
    (can : Can [.regs, .cores] P := by exact Can.sub (by assumption) (by decide)) : Keeps P z (shiftTile s a) := by
  unfold shiftTile
  with_reducible repeat' first
    | assumption | exact Can.sub (by assumption) (by decide) | apply onTile_keeps | refine Keeps.ite ?_ (fun _ => ?_) | split | intro _ _ _ | intro _ _ | apply Keeps.foldl | extract_lets

theorem lossTile_keeps {P : Part → Prop} {z s : State} (h : Keeps P z s) (a)
    (can : Can [.regs, .cores] P := by exact Can.sub (by assumption) (by decide)) : Keeps P z (lossTile s a) := by
  unfold lossTile
  with_reducible repeat' first
    | assumption | exact Can.sub (by assumption) (by decide) | apply onTile_keeps | refine Keeps.ite ?_ (fun _ => ?_) | split | intro _ _ _ | intro _ _ | apply Keeps.foldl | extract_lets

theorem releaseSpent_keeps {P : Part → Prop} {z s : State} (h : Keeps P z s) (t)
    (can : Can [.cores] P := by exact Can.sub (by assumption) (by decide)) : Keeps P z (releaseSpent s t) := by
  unfold releaseSpent
  with_reducible repeat' first
    | assumption | exact Can.sub (by assumption) (by decide) | apply setCore_keeps | refine Keeps.ite ?_ (fun _ => ?_) | split | intro _ _ _ | intro _ _ | apply Keeps.foldl | extract_lets

theorem openTile_keeps {P : Part → Prop} {z s : State} (h : Keeps P z s) (t) (rt) (ct) (assay)
    (can : Can [.mem, .regs, .cores] P := by exact Can.sub (by assumption) (by decide)) : Keeps P z (openTile s t rt ct assay) := by
  unfold openTile
  split
  · exact h
  · split
    · exact h
    · extract_lets v
      split
      · exact addTile_keeps (.of_fst (by assumption) (makeRoom_keeps (releaseSpent_keeps h ..) ..)) ..
      · exact h

theorem forgetSpan_keeps {P : Part → Prop} {z s : State} (h : Keeps P z s) (t) (v)
    (can : Can [.jobs] P := by exact Can.sub (by assumption) (by decide)) : Keeps P z (forgetSpan s t v) := by
  unfold forgetSpan
  with_reducible repeat' first
    | assumption | exact Can.sub (by assumption) (by decide) | apply updRun_keeps | refine Keeps.ite ?_ (fun _ => ?_) | split | intro _ _ _ | intro _ _ | apply Keeps.foldl | extract_lets

theorem closeTile_keeps {P : Part → Prop} {z s : State} (h : Keeps P z s) (c) (base)
    (can : Can [.regs, .jobs, .cores] P := by exact Can.sub (by assumption) (by decide)) : Keeps P z (closeTile s c base) := by
  unfold closeTile
  with_reducible repeat' first
    | assumption | exact Can.sub (by assumption) (by decide) | apply putTile_keeps | apply forgetSpan_keeps | apply setSlot_keeps | apply raiseIf_keeps | refine Keeps.ite ?_ (fun _ => ?_) | split | intro _ _ _ | intro _ _ | apply Keeps.foldl | extract_lets

theorem noteSpan_keeps {P : Part → Prop} {z s : State} (h : Keeps P z s) (c) (n)
    (can : Can [.jobs] P := by exact Can.sub (by assumption) (by decide)) : Keeps P z (noteSpan s c n) := by
  unfold noteSpan
  with_reducible repeat' first
    | assumption | exact Can.sub (by assumption) (by decide) | apply updRun_keeps | refine Keeps.ite ?_ (fun _ => ?_) | split | intro _ _ _ | intro _ _ | apply Keeps.foldl | extract_lets

theorem combineParts_keeps {P : Part → Prop} {z s : State} (h : Keeps P z s) (c) (left) (right)
    (can : Can [.regs, .jobs, .cores] P := by exact Can.sub (by assumption) (by decide)) : Keeps P z (combineParts s c left right) := by
  unfold combineParts
  dsimp only
  with_reducible repeat' first
    | assumption | exact Can.sub (by assumption) (by decide) | apply noteSpan_keeps | apply slotCount_keeps
    | apply countVat_keeps | apply putTile_keeps | split

theorem spillTile_keeps {P : Part → Prop} {z s : State} (h : Keeps P z s) (c) (v) (off)
    (can : Can [.mem, .regs, .cores] P := by exact Can.sub (by assumption) (by decide)) : Keeps P z (spillTile s c v off) := by
  unfold spillTile
  with_reducible repeat' first
    | assumption | exact Can.sub (by assumption) (by decide) | apply saveTile_keeps | apply slotCount_keeps | refine Keeps.ite ?_ (fun _ => ?_) | split | intro _ _ _ | intro _ _ | apply Keeps.foldl | extract_lets

theorem saveVat_keeps {P : Part → Prop} {z s : State} (h : Keeps P z s) (c) (base) (off)
    (can : Can [.mem, .regs, .cores] P := by exact Can.sub (by assumption) (by decide)) : Keeps P z (saveVat s c base off) := by
  unfold saveVat
  with_reducible repeat' first
    | assumption | exact Can.sub (by assumption) (by decide) | apply spillTile_keeps | apply saveTile_keeps | refine Keeps.ite ?_ (fun _ => ?_) | split | intro _ _ _ | intro _ _ | apply Keeps.foldl | extract_lets

theorem placeRestored_keeps {P : Part → Prop} {z s : State} (h : Keeps P z s) (t) (r) (v)
    (can : Can [.mem, .regs, .cores] P := by exact Can.sub (by assumption) (by decide)) : Keeps P z (placeRestored s t r v) := by
  unfold placeRestored
  split
  · have k := Keeps.of_fst (by assumption) (makeRoom_keeps h t.core v.x64)
    with_reducible repeat' first
      | assumption | exact Can.sub (by assumption) (by decide) | apply count_keeps | apply addTile_keeps | apply setSlot_keeps
      | apply slotCount_keeps | refine Keeps.ite ?_ (fun _ => ?_) | extract_lets
  · exact h

theorem restoreTile_keeps {P : Part → Prop} {z s : State} (h : Keeps P z s) (t) (rt) (ct) (assay) (off)
    (can : Can [.mem, .regs, .jobs, .dep, .txQueue, .sessions, .outs, .arrays, .cores, .hoists, .scatters, .chutes] P := by exact Can.sub (by assumption) (by decide)) : Keeps P z (restoreTile s t rt ct assay off) := by
  unfold restoreTile
  with_reducible repeat' first
    | assumption | exact Can.sub (by assumption) (by decide) | apply abortTask_keeps | apply raise_keeps | apply placeRestored_keeps | refine Keeps.ite ?_ (fun _ => ?_) | split | intro _ _ _ | intro _ _ | apply Keeps.foldl | extract_lets

theorem freeOrderBy_keeps {P : Part → Prop} {z s : State} {α : Type} (h : Keeps P z s) (span : α → Addr × Nat) (l)
    (can : Can [.freeCount] P := by exact Can.sub (by assumption) (by decide)) : Keeps P z (freeOrderBy span s l).2 := by
  unfold freeOrderBy
  split
  · exact h.same rfl rfl rfl rfl
  · exact h

theorem applyWrites_keeps {P : Part → Prop} {z s : State} (h : Keeps P z s) (ws)
    (can : Can [.freeCount, .mem, .regs, .voids, .dep, .cores, .assays] P := by exact Can.sub (by assumption) (by decide)) : Keeps P z (applyWrites s ws) := by
  unfold applyWrites
  exact Keeps.foldl (freeOrderBy_keeps h ..) _ fun s w k => writeModule_keeps k ..

theorem scratchPoison_keeps {P : Part → Prop} {z s : State} (h : Keeps P z s) (c) (off)
    (can : Can [.freeCount, .mem, .regs, .doms, .graphs, .jobs, .fences, .voids, .dep, .jnl, .txQueue, .sessions,
      .outs, .port, .arrays, .cores, .adits, .hoists, .scatters, .chans, .links, .chutes, .hops, .counters] P
      := by exact Can.sub (by assumption) (by decide)) :
    Keeps P z (scratchPoison s c off) := by
  unfold scratchPoison
  with_reducible repeat' first
    | assumption | exact Can.sub (by assumption) (by decide) | apply raise_keeps | apply count_keeps
      | apply abortTask_keeps | apply writeScratch_keeps | apply reportFault_keeps | split

theorem readCheck_keeps {P : Part → Prop} {z s : State} (h : Keeps P z s) (c) (off) (ecc)
    (can : Can [.freeCount, .mem, .regs, .doms, .graphs, .jobs, .fences, .voids, .dep, .jnl, .txQueue, .sessions, .outs, .port, .arrays, .cores, .adits, .hoists, .scatters, .chans, .links, .chutes, .hops, .counters] P := by exact Can.sub (by assumption) (by decide)) : Keeps P z (readCheck s c off ecc) := by
  unfold readCheck
  with_reducible repeat' first
    | assumption | exact Can.sub (by assumption) (by decide) | apply scratchPoison_keeps | apply count_keeps | apply raise_keeps | refine Keeps.ite ?_ (fun _ => ?_) | split | intro _ _ _ | intro _ _ | apply Keeps.foldl | extract_lets

theorem scratchGrant_keeps {P : Part → Prop} {z s : State} (h : Keeps P z s) (c) (r)
    (can : Can [.freeCount, .mem, .regs, .doms, .graphs, .jobs, .fences, .voids, .dep, .jnl, .txQueue, .sessions, .outs, .port, .arrays, .cores, .adits, .hoists, .scatters, .chans, .links, .chutes, .hops, .counters] P := by exact Can.sub (by assumption) (by decide)) : Keeps P z (scratchGrant s c r) := by
  unfold scratchGrant
  with_reducible repeat' first
    | assumption | exact Can.sub (by assumption) (by decide) | apply readCheck_keeps | apply writeScratch_keeps | apply setCore_keeps | refine Keeps.ite ?_ (fun _ => ?_) | split | intro _ _ _ | intro _ _ | apply Keeps.foldl | extract_lets

theorem drainLine_keeps {P : Part → Prop} {z s : State} (h : Keeps P z s) (c) (who)
    (can : Can [.hops] P := by exact Can.sub (by assumption) (by decide)) : Keeps P z (drainLine s c who) := by
  unfold drainLine
  with_reducible repeat' first | assumption | apply setHop_keeps | refine Keeps.ite ?_ (fun _ => ?_)

theorem scratchAccess_keeps {P : Part → Prop} {z s : State} (h : Keeps P z s) (c) (rs)
    (can : Can [.freeCount, .mem, .regs, .doms, .graphs, .jobs, .fences, .voids, .dep, .jnl, .txQueue, .sessions, .outs, .port, .arrays, .cores, .adits, .hoists, .scatters, .chans, .links, .chutes, .hops, .counters] P := by exact Can.sub (by assumption) (by decide)) : Keeps P z (scratchAccess s c rs) := by
  unfold scratchAccess
  with_reducible repeat' first
    | assumption | exact Can.sub (by assumption) (by decide) | apply setCore_keeps | apply count_keeps | apply scratchGrant_keeps | apply drainLine_keeps | apply writeVat_keeps | refine Keeps.ite ?_ (fun _ => ?_) | split | intro _ _ _ | intro _ _ | apply Keeps.foldl | extract_lets

theorem promoteRequester_keeps {P : Part → Prop} {z s : State} (h : Keeps P z s) (c) (bank) (w)
    (can : Can [.regs, .cores] P := by exact Can.sub (by assumption) (by decide)) :
    Keeps P z (promoteRequester s c bank w) := by
  unfold promoteRequester
  with_reducible repeat' first
    | assumption | exact Can.sub (by assumption) (by decide) | apply count_keeps | apply setCore_keeps
      | refine Keeps.ite ?_ (fun _ => ?_)

theorem writeWindow_keeps {P : Part → Prop} {z s : State} (h : Keeps P z s) (c) (off) (bs)
    (can : Can [.mem, .regs, .cores] P := by exact Can.sub (by assumption) (by decide)) : Keeps P z (writeWindow s c off bs) := by
  unfold writeWindow
  with_reducible repeat' first
    | assumption | exact Can.sub (by assumption) (by decide) | apply writeScratch_keeps | apply writeVat_keeps | refine Keeps.ite ?_ (fun _ => ?_) | split | intro _ _ _ | intro _ _ | apply Keeps.foldl | extract_lets

theorem meetPoison_keeps {P : Part → Prop} {z s : State} (h : Keeps P z s) (c) (ws)
    (can : Can [.freeCount, .mem, .regs, .doms, .graphs, .jobs, .fences, .voids, .dep, .jnl, .txQueue, .sessions, .outs, .port, .arrays, .cores, .adits, .hoists, .scatters, .chans, .links, .chutes, .hops, .counters] P := by exact Can.sub (by assumption) (by decide)) : Keeps P z (meetPoison s c ws) := by
  unfold meetPoison
  with_reducible repeat' first
    | assumption | exact Can.sub (by assumption) (by decide) | apply scratchPoison_keeps | refine Keeps.ite ?_ (fun _ => ?_) | split | intro _ _ _ | intro _ _ | apply Keeps.foldl | (refine Keeps.upd ?_ rfl rfl rfl) | extract_lets

theorem afterPoison_keeps {P : Part → Prop} {z s : State} (h : Keeps P z s) (t) (ws) (f) (hf : ∀ s, Keeps P z s → Keeps P z (f s))
(can : Can [.freeCount, .mem, .regs, .doms, .graphs, .jobs, .fences, .voids, .dep, .jnl, .txQueue, .sessions, .outs, .port, .arrays, .cores, .adits, .hoists, .scatters, .chans, .links, .chutes, .hops, .counters] P := by exact Can.sub (by assumption) (by decide)) : Keeps P z (afterPoison s t ws f) := by
  unfold afterPoison
  split
  · exact hf s h
  · have k := meetPoison_keeps h t.core ws
    exact Keeps.ite (hf _ k) fun _ => k

theorem runOperator_keeps {P : Part → Prop} {z s : State} (h : Keeps P z s) (t) (o) (c) (x)
    (can : Can [.freeCount, .mem, .regs, .doms, .graphs, .jobs, .fences, .voids, .dep, .jnl, .txQueue, .sessions, .outs, .port, .arrays, .cores, .adits, .hoists, .scatters, .assays, .chans, .links, .chutes, .hops, .counters] P := by exact Can.sub (by assumption) (by decide)) : Keeps P z (runOperator s t o c x) := by
  unfold runOperator
  with_reducible repeat' first
    | assumption | exact Can.sub (by assumption) (by decide) | apply afterPoison_keeps | apply drawChoice_keeps | apply count_keeps | apply cvtCountCore_keeps | apply applyWrites_keeps | refine Keeps.ite ?_ (fun _ => ?_) | split | intro _ _ _ | intro _ _ | apply Keeps.foldl | (refine Keeps.upd ?_ rfl rfl rfl) | extract_lets | (refine Keeps.of_snd (by assumption) ?_) | (refine Keeps.of_fst (by assumption) ?_)

theorem completeJob_keeps {P : Part → Prop} {z s : State} (h : Keeps P z s) (key)
    (can : Can [.freeCount, .mem, .regs, .allocs, .descs, .graphs, .stages, .jobs, .waits, .voids, .dep, .respLog,
      .lotRing, .jnl, .txQueue, .sessions, .outs, .orphans, .arrays, .cores, .hoists, .scatters, .assays, .chutes,
      .counters] P := by exact Can.sub (by assumption) (by decide)) :
    Keeps P z (completeJob s key) := by
  unfold completeJob
  with_reducible repeat' first
    | assumption | exact Can.sub (by assumption) (by decide) | apply drainAll_keeps | apply endJob_keeps
      | refine Keeps.ite ?_ (fun _ => ?_) | split

theorem giveIndex_keeps {P : Part → Prop} {z s : State} (h : Keeps P z s) (seam) (k) (v) (c) (who)
    (can : Can [.counters] P := by exact Can.sub (by assumption) (by decide)) :
    Keeps P z (giveIndex s seam k v c who) := by
  unfold giveIndex
  with_reducible repeat' first | assumption | apply setCounter_keeps

theorem leaveCounter_keeps {P : Part → Prop} {z s : State} (h : Keeps P z s) (seam) (k) (elem)
    (can : Can [.jobs, .dep, .counters] P := by exact Can.sub (by assumption) (by decide)) : Keeps P z (leaveCounter s seam k elem) := by
  unfold leaveCounter
  with_reducible repeat' first
    | assumption | exact Can.sub (by assumption) (by decide) | apply setCounter_keeps | apply updRun_keeps | refine Keeps.ite ?_ (fun _ => ?_) | split | intro _ _ _ | intro _ _ | apply Keeps.foldl | (refine Keeps.upd ?_ rfl rfl rfl) | extract_lets

theorem leaveElem_keeps {P : Part → Prop} {z s : State} (h : Keeps P z s) (job) (node) (elem)
    (can : Can [.jobs, .dep, .counters] P := by exact Can.sub (by assumption) (by decide)) : Keeps P z (leaveElem s job node elem) := by
  unfold leaveElem
  with_reducible repeat' first
    | assumption | exact Can.sub (by assumption) (by decide) | apply leaveCounter_keeps | apply updRun_keeps | refine Keeps.ite ?_ (fun _ => ?_) | split | intro _ _ _ | intro _ _ | apply Keeps.foldl | extract_lets

theorem leaveAdit_keeps {P : Part → Prop} {z s : State} (h : Keeps P z s) (seam) (k)
    (can : Can [.jobs, .dep, .counters] P := by exact Can.sub (by assumption) (by decide)) : Keeps P z (leaveAdit s seam k) := by
  unfold leaveAdit
  with_reducible repeat' first
    | assumption | exact Can.sub (by assumption) (by decide) | apply leaveElem_keeps | refine Keeps.ite ?_ (fun _ => ?_) | split | intro _ _ _ | intro _ _ | apply Keeps.foldl | extract_lets

theorem fetchAdd_keeps {P : Part → Prop} {z s : State} (h : Keeps P z s) (seam) (k) (who)
    (can : Can [.jobs, .dep, .counters] P := by exact Can.sub (by assumption) (by decide)) : Keeps P z (fetchAdd s seam k who) := by
  unfold fetchAdd
  with_reducible repeat' first
    | assumption | exact Can.sub (by assumption) (by decide) | apply leaveAdit_keeps | apply giveIndex_keeps | apply setCounter_keeps | refine Keeps.ite ?_ (fun _ => ?_) | split | intro _ _ _ | intro _ _ | apply Keeps.foldl | (refine Keeps.upd ?_ rfl rfl rfl) | extract_lets

theorem freeSlot_keeps {P : Part → Prop} {z s : State} (h : Keeps P z s) (t)
    (can : Can [.cores] P := by exact Can.sub (by assumption) (by decide)) : Keeps P z (freeSlot s t) := by
  unfold freeSlot
  with_reducible repeat' first | assumption | apply setCore_keeps | apply ensureRunning_keeps | apply setSlot_keeps

theorem forgetGroup_keeps {P : Part → Prop} {z s : State} (h : Keeps P z s) (seam) (k) (v)
    (can : Can [.adits] P := by exact Can.sub (by assumption) (by decide)) : Keeps P z (forgetGroup s seam k v) := by
  unfold forgetGroup
  with_reducible repeat' first
    | assumption | exact Can.sub (by assumption) (by decide) | apply setAdit_keeps | refine Keeps.ite ?_ (fun _ => ?_) | split | intro _ _ _ | intro _ _ | apply Keeps.foldl | extract_lets

theorem firstCompletion_keeps {P : Part → Prop} {z s : State} (h : Keeps P z s) (seam) (k) (v) (c) (slot)
    (can : Can [.stages, .jobs, .counters] P := by exact Can.sub (by assumption) (by decide)) :
    Keeps P z (firstCompletion s seam k v c slot) := by
  unfold firstCompletion
  with_reducible repeat' first
    | assumption | exact Can.sub (by assumption) (by decide) | apply setCounter_keeps | apply updRun_keeps
      | apply setStage_keeps | split | extract_lets

theorem dupCompletion_keeps {P : Part → Prop} {z s : State} (h : Keeps P z s) (seam) (k) (c)
    (can : Can [.regs, .jobs] P := by exact Can.sub (by assumption) (by decide)) :
    Keeps P z (dupCompletion s seam k c) := by
  unfold dupCompletion
  with_reducible repeat' first
    | assumption | exact Can.sub (by assumption) (by decide) | apply raise_keeps | apply count_keeps
      | apply updJob_keeps | apply updRun_keeps

theorem completeTask_keeps {P : Part → Prop} {z s : State} (h : Keeps P z s) (seam) (k) (v) (slot)
    (can : Can [.regs, .stages, .jobs, .dep, .cores, .adits, .counters] P := by exact Can.sub (by assumption) (by decide)) : Keeps P z (completeTask s seam k v slot) := by
  unfold completeTask
  with_reducible repeat' first
    | assumption | exact Can.sub (by assumption) (by decide) | apply dupCompletion_keeps | apply firstCompletion_keeps | apply endRecovery_keeps | apply freeSlot_keeps | apply forgetGroup_keeps | refine Keeps.ite ?_ (fun _ => ?_) | split | intro _ _ _ | intro _ _ | apply Keeps.foldl | (refine Keeps.upd ?_ rfl rfl rfl) | extract_lets

theorem forgetInactive_keeps {P : Part → Prop} {z s : State} (h : Keeps P z s) (c)
    (can : Can [.jobs] P := by exact Can.sub (by assumption) (by decide)) : Keeps P z (forgetInactive s c) := by
  unfold forgetInactive
  with_reducible repeat' first
    | assumption | exact Can.sub (by assumption) (by decide) | apply updRun_keeps | refine Keeps.ite ?_ (fun _ => ?_) | split | intro _ _ _ | intro _ _ | apply Keeps.foldl | extract_lets

theorem setMaxOut_keeps {P : Part → Prop} {z s : State} (h : Keeps P z s) (q) (n)
    (can : Can [.regs] P := by exact Can.sub (by assumption) (by decide)) : Keeps P z (setMaxOut s q n) := by
  unfold setMaxOut
  with_reducible repeat' first | assumption | apply setRawField_keeps

theorem loadTask_keeps {P : Part → Prop} {z s : State} (h : Keeps P z s) (t) (p)
    (can : Can [.regs, .jobs, .cores] P := by exact Can.sub (by assumption) (by decide)) : Keeps P z (loadTask s t p) := by
  unfold loadTask
  with_reducible repeat' first
    | assumption | exact Can.sub (by assumption) (by decide) | apply setMaxOut_keeps | apply ensureRunning_keeps | apply setSlot_keeps | apply forgetInactive_keeps | refine Keeps.ite ?_ (fun _ => ?_) | split | intro _ _ _ | intro _ _ | apply Keeps.foldl | extract_lets

theorem setIssued_keeps {P : Part → Prop} {z s : State} (h : Keeps P z s) (t) (i) (done)
    (can : Can [.cores] P := by exact Can.sub (by assumption) (by decide)) : Keeps P z (setIssued s t i done) := by
  unfold setIssued
  with_reducible repeat' first
    | assumption | exact Can.sub (by assumption) (by decide) | apply setSlot_keeps | refine Keeps.ite ?_ (fun _ => ?_) | split | intro _ _ _ | intro _ _ | apply Keeps.foldl | extract_lets

theorem issueCharge_keeps {P : Part → Prop} {z s t' : State} (h : Keeps P z s) {t i w} (e : issueCharge s t i w = some t')
    (can : Can [.regs, .cores] P := by exact Can.sub (by assumption) (by decide)) : Keeps P z t' := by
  unfold issueCharge at e
  repeat' (first | contradiction | split at e)
  all_goals cases e
  all_goals first | exact setIssued_keeps h .. | exact count_keeps (setIssued_keeps h ..) ..

theorem issueWork_keeps {P : Part → Prop} {z s t' : State} (h : Keeps P z s) {t i} (e : issueWork s t i = some t')
    (can : Can [.freeCount, .mem, .regs, .doms, .graphs, .jobs, .fences, .voids, .dep, .jnl, .txQueue, .sessions, .outs, .port, .arrays, .cores, .adits, .hoists, .scatters, .assays, .chans, .links, .chutes, .hops, .counters] P := by exact Can.sub (by assumption) (by decide)) : Keeps P z t' := by
  unfold issueWork at e
  split at e
  · exact issueCharge_keeps h e
  · simp only [Option.map_eq_some_iff] at e
    obtain ⟨r, -, rfl⟩ := e
    exact runOperator_keeps (setIssued_keeps h ..) ..
  · cases e
    exact setIssued_keeps h ..
  · cases e

theorem issueCommand_keeps {P : Part → Prop} {z s : State} (h : Keeps P z s) (t) (u) (completed)
    (can : Can [.freeCount, .mem, .regs, .doms, .graphs, .jobs, .fences, .voids, .dep, .jnl, .txQueue, .sessions, .outs, .port, .arrays, .cores, .adits, .hoists, .scatters, .assays, .chans, .links, .chutes, .hops, .counters] P := by exact Can.sub (by assumption) (by decide)) : Keeps P z (issueCommand s t u completed) := by
  unfold issueCommand
  extract_lets x s1 s2
  refine settle_keeps ?_ ..
  have k : Keeps P z s1 := setSlot_keeps h ..
  unfold s2
  split
  · refine Keeps.ite k fun _ => ?_
    cases e : issueWork (markStarted s1 t) t _ with
    | none => exact k
    | some s3 => exact issueWork_keeps (markStarted_keeps k ..) e
  · exact k

theorem switchTo_keeps {P : Part → Prop} {z s : State} (h : Keeps P z s) (c) (old) (new) (dry)
    (can : Can [.regs, .cores] P := by exact Can.sub (by assumption) (by decide)) :
    Keeps P z (switchTo s c old new dry) := by
  unfold switchTo
  with_reducible repeat' first
    | assumption | exact Can.sub (by assumption) (by decide) | apply setSlot_keeps | apply raise_keeps
      | apply count_keeps | refine Keeps.ite ?_ (fun _ => ?_)

theorem switchTask_keeps {P : Part → Prop} {z s : State} (h : Keeps P z s) (c) (cause)
    (can : Can [.regs, .cores] P := by exact Can.sub (by assumption) (by decide)) :
    Keeps P z (switchTask s c cause) := by
  unfold switchTask
  with_reducible repeat' first
    | assumption | exact Can.sub (by assumption) (by decide) | apply refreshSlots_keeps | apply ensureRunning_keeps
      | apply switchTo_keeps | apply count_keeps | refine Keeps.ite ?_ (fun _ => ?_) | split | extract_lets

theorem countUnits_keeps {P : Part → Prop} {z s : State} (h : Keeps P z s) (base) (off) (unit) (rest) (n)
    (can : Can [.regs] P := by exact Can.sub (by assumption) (by decide)) :
    Keeps P z (countUnits s base off unit rest n).1 := by
  unfold countUnits
  with_reducible repeat' first | assumption | apply count_keeps | refine Keeps.ite ?_ (fun _ => ?_)

theorem countWork_keeps {P : Part → Prop} {z s : State} (h : Keeps P z s) (u) (bytes) (products)
    (can : Can [.freeCount, .regs, .adits] P := by exact Can.sub (by assumption) (by decide)) : Keeps P z (countWork s u bytes products) := by
  unfold countWork
  with_reducible repeat' first
    | assumption | exact Can.sub (by assumption) (by decide) | apply countUnits_keeps | apply count_keeps | apply drawChoice_keeps | apply raise_keeps | apply setAdit_keeps | refine Keeps.ite ?_ (fun _ => ?_) | split | intro _ _ _ | intro _ _ | apply Keeps.foldl | extract_lets | (refine Keeps.of_snd (by assumption) ?_) | (refine Keeps.of_fst (by assumption) ?_)

theorem countSelector_keeps {P : Part → Prop} {z s : State} (h : Keeps P z s) (core) (x)
    (can : Can [.regs] P := by exact Can.sub (by assumption) (by decide)) : Keeps P z (countSelector s core x) := by
  unfold countSelector
  with_reducible repeat' first
    | assumption | exact Can.sub (by assumption) (by decide) | apply countMd_keeps | apply raiseIf_keeps | apply count_keeps | refine Keeps.ite ?_ (fun _ => ?_) | split | intro _ _ _ | intro _ _ | apply Keeps.foldl | extract_lets

theorem requestGroup_keeps {P : Part → Prop} {z s : State} (h : Keeps P z s) (u) (k) (i) (c)
    (can : Can [.chans] P := by exact Can.sub (by assumption) (by decide)) : Keeps P z (requestGroup s u k i c) := by
  unfold requestGroup
  with_reducible repeat' first
    | assumption | exact Can.sub (by assumption) (by decide) | apply pushReqs_keeps | refine Keeps.ite ?_ (fun _ => ?_) | split | intro _ _ _ | intro _ _ | apply Keeps.foldl | extract_lets

theorem beginGroup_keeps {P : Part → Prop} {z s : State} (h : Keeps P z s) (u) (k) (i) (c)
    (can : Can [.regs, .adits, .chans] P := by exact Can.sub (by assumption) (by decide)) : Keeps P z (beginGroup s u k i c) := by
  unfold beginGroup
  with_reducible repeat' first
    | assumption | exact Can.sub (by assumption) (by decide) | apply setAdit_keeps | apply raise_keeps | apply count_keeps | apply requestGroup_keeps | refine Keeps.ite ?_ (fun _ => ?_) | split | intro _ _ _ | intro _ _ | apply Keeps.foldl | extract_lets

theorem finishGroup_keeps {P : Part → Prop} {z s : State} (h : Keeps P z s) (u) (k) (i) (c) (m)
    (can : Can [.regs, .adits] P := by exact Can.sub (by assumption) (by decide)) : Keeps P z (finishGroup s u k i c m) := by
  unfold finishGroup
  with_reducible repeat' first
    | assumption | exact Can.sub (by assumption) (by decide) | apply count_keeps | apply setAdit_keeps | refine Keeps.ite ?_ (fun _ => ?_) | split | intro _ _ _ | intro _ _ | apply Keeps.foldl | extract_lets

theorem residueFailed_keeps {P : Part → Prop} {z s : State} (h : Keeps P z s) (u)
    (can : Can [.regs, .fences, .dep, .adits, .counters] P := by exact Can.sub (by assumption) (by decide)) : Keeps P z (residueFailed s u) := by
  unfold residueFailed
  exact aditResidue_keeps (raise_keeps (count_keeps h ..) ..) ..

theorem abortGroup_keeps {P : Part → Prop} {z s : State} (h : Keeps P z s) (u) (k) (i) (c)
    (can : Can [.regs, .jobs, .dep, .adits, .counters] P := by exact Can.sub (by assumption) (by decide)) : Keeps P z (abortGroup s u k i c) := by
  unfold abortGroup
  with_reducible repeat' first
    | assumption | exact Can.sub (by assumption) (by decide) | apply setAdit_keeps | apply setCounter_keeps | apply noteIndexAbort_keeps | refine Keeps.ite ?_ (fun _ => ?_) | split | intro _ _ _ | intro _ _ | apply Keeps.foldl | extract_lets

theorem repeatGroup_keeps {P : Part → Prop} {z s : State} (h : Keeps P z s) (u) (k) (i) (c)
    (can : Can [.regs, .fences, .dep, .adits, .chans, .counters] P := by exact Can.sub (by assumption) (by decide)) : Keeps P z (repeatGroup s u k i c) := by
  unfold repeatGroup
  with_reducible repeat' first
    | assumption | exact Can.sub (by assumption) (by decide) | apply residueFailed_keeps | apply requestGroup_keeps | refine Keeps.ite ?_ (fun _ => ?_) | split | intro _ _ _ | intro _ _ | apply Keeps.foldl | extract_lets

theorem landGroup_keeps {P : Part → Prop} {z s : State} (h : Keeps P z s) (u) (k) (i) (core) (c) (x) (d)
    (can : Can [.freeCount, .mem, .regs, .voids, .dep, .cores, .adits, .assays] P := by exact Can.sub (by assumption) (by decide)) : Keeps P z (landGroup s u k i core c x d) := by
  unfold landGroup
  with_reducible repeat' first
    | assumption | exact Can.sub (by assumption) (by decide) | apply cvtCountRegs_keeps | apply applyWrites_keeps | apply finishGroup_keeps | apply countSelector_keeps | refine Keeps.ite ?_ (fun _ => ?_) | split | intro _ _ _ | intro _ _ | apply Keeps.foldl | extract_lets

theorem runGroup_keeps {P : Part → Prop} {z s : State} (h : Keeps P z s) (u) (k) (i) (core) (us) (c)
    (can : Can [.freeCount, .mem, .regs, .doms, .graphs, .jobs, .fences, .voids, .dep, .jnl, .txQueue, .sessions, .outs, .port, .arrays, .cores, .adits, .hoists, .scatters, .assays, .chans, .links, .chutes, .hops, .counters] P := by exact Can.sub (by assumption) (by decide)) : Keeps P z (runGroup s u k i core us c) := by
  unfold runGroup
  split
  · have k1 := countWork_keeps h u (groupBytes s c) (groupProducts s c)
    exact Keeps.ite (repeatGroup_keeps k1 ..) fun _ => landGroup_keeps k1 ..
  · exact h

theorem columnGroup_keeps {P : Part → Prop} {z s : State} (h : Keeps P z s) (u) (k) (i) (core) (us) (untranslated)
    (can : Can [.freeCount, .mem, .regs, .doms, .graphs, .jobs, .fences, .voids, .dep, .jnl, .txQueue, .sessions, .outs, .port, .arrays, .cores, .adits, .hoists, .scatters, .assays, .chans, .links, .chutes, .hops, .counters] P := by exact Can.sub (by assumption) (by decide)) : Keeps P z (columnGroup s u k i core us untranslated) := by
  unfold columnGroup
  with_reducible repeat' first
    | assumption | exact Can.sub (by assumption) (by decide) | apply abortGroup_keeps | apply beginGroup_keeps | apply runGroup_keeps | refine Keeps.ite ?_ (fun _ => ?_) | split | intro _ _ _ | intro _ _ | apply Keeps.foldl | extract_lets

theorem probe_keeps {P : Part → Prop} {z s : State} (h : Keeps P z s) (graph) (node)
    (can : Can [.stages] P := by exact Can.sub (by assumption) (by decide)) : Keeps P z (probe s graph node) := by
  unfold probe
  with_reducible repeat' first
    | assumption | exact Can.sub (by assumption) (by decide) | apply setStage_keeps | refine Keeps.ite ?_ (fun _ => ?_) | split | intro _ _ _ | intro _ _ | apply Keeps.foldl | extract_lets

theorem passVectors_keeps {P : Part → Prop} {z s : State} (h : Keeps P z s) (a) (stride) (n) (record)
    (can : Can [.mem, .regs, .arrays, .cores] P := by exact Can.sub (by assumption) (by decide)) : Keeps P z (passVectors a stride n record s) := by
  induction n generalizing record s with
  | zero => exact h
  | succ n ih =>
    unfold passVectors
    split
    · exact Keeps.ite h fun _ => ih (scheduleVector_keeps h ..) _
    · exact h

theorem assayPass_keeps {P : Part → Prop} {z s : State} (h : Keeps P z s) (a) (record)
    (can : Can [.mem, .regs, .arrays, .cores] P := by exact Can.sub (by assumption) (by decide)) : Keeps P z (assayPass s a record) := by
  unfold assayPass
  with_reducible repeat' first | assumption | apply passVectors_keeps | split

theorem countBound_keeps {P : Part → Prop} {z s : State} (h : Keeps P z s) (t) (c) (rows) (outs) (und) (d)
    (can : Can [.regs, .jobs, .cores] P := by exact Can.sub (by assumption) (by decide)) : Keeps P z (countBound s t c rows outs und d) := by
  unfold countBound
  with_reducible repeat' first
    | assumption | exact Can.sub (by assumption) (by decide) | apply count_keeps | apply setRawReg_keeps | apply raiseIf_keeps | apply updJob_keeps | apply slotCount_keeps | refine Keeps.ite ?_ (fun _ => ?_) | split | intro _ _ _ | intro _ _ | apply Keeps.foldl | extract_lets

theorem noteMasked_keeps {P : Part → Prop} {z s : State} (h : Keeps P z s) (t) (c) (v) (masked) (d)
    (can : Can [.jobs, .cores] P := by exact Can.sub (by assumption) (by decide)) : Keeps P z (noteMasked s t c v masked d) := by
  unfold noteMasked
  with_reducible repeat' first
    | assumption | exact Can.sub (by assumption) (by decide) | apply setCore_keeps | apply setSlot_keeps | apply updRun_keeps | refine Keeps.ite ?_ (fun _ => ?_) | split | intro _ _ _ | intro _ _ | apply Keeps.foldl | extract_lets

theorem dropAssayTile_keeps {P : Part → Prop} {z s : State} (h : Keeps P z s) (t) (v)
    (can : Can [.cores] P := by exact Can.sub (by assumption) (by decide)) : Keeps P z (dropAssayTile s t v) := by
  unfold dropAssayTile
  with_reducible repeat' first
    | assumption | exact Can.sub (by assumption) (by decide) | apply dropTile_keeps | refine Keeps.ite ?_ (fun _ => ?_) | split | intro _ _ _ | intro _ _ | apply Keeps.foldl | extract_lets

theorem boundTile_keeps {P : Part → Prop} {z s : State} (h : Keeps P z s) (t) (c) (v) (table)
    (can : Can [.regs, .jobs, .cores] P := by exact Can.sub (by assumption) (by decide)) : Keeps P z (boundTile s t c v table) := by
  unfold boundTile
  with_reducible repeat' first
    | assumption | exact Can.sub (by assumption) (by decide) | apply noteMasked_keeps | apply countBound_keeps | apply slotCount_keeps | apply settle_keeps | apply dropAssayTile_keeps | refine Keeps.ite ?_ (fun _ => ?_) | split | intro _ _ _ | intro _ _ | apply Keeps.foldl | extract_lets

theorem assayBound_keeps {P : Part → Prop} {z s : State} (h : Keeps P z s) (t) (rt) (ct)
    (can : Can [.regs, .jobs, .cores] P := by exact Can.sub (by assumption) (by decide)) : Keeps P z (assayBound s t rt ct) := by
  unfold assayBound
  with_reducible repeat' first
    | assumption | exact Can.sub (by assumption) (by decide) | apply boundTile_keeps | refine Keeps.ite ?_ (fun _ => ?_) | split | intro _ _ _ | intro _ _ | apply Keeps.foldl | extract_lets

theorem auditFail_keeps {P : Part → Prop} {z s : State} (h : Keeps P z s) (t) (c) (v) (full)
    (can : Can [.freeCount, .regs, .doms, .graphs, .jobs, .fences, .voids, .dep, .jnl, .txQueue, .sessions, .outs, .port, .arrays, .cores, .adits, .hoists, .scatters, .chans, .links, .chutes, .hops, .counters] P := by exact Can.sub (by assumption) (by decide)) : Keeps P z (auditFail s t c v full) := by
  unfold auditFail
  with_reducible repeat' first
    | assumption | exact Can.sub (by assumption) (by decide) | apply raise_keeps | apply count_keeps | apply updRun_keeps | apply forgetInactive_keeps | apply abortTask_keeps | apply reportFault_keeps | refine Keeps.ite ?_ (fun _ => ?_) | split | intro _ _ _ | intro _ _ | apply Keeps.foldl | extract_lets

theorem assayAudit_keeps {P : Part → Prop} {z s : State} (h : Keeps P z s) (t) (rt) (ct) (m)
    (can : Can [.freeCount, .regs, .doms, .graphs, .jobs, .fences, .voids, .dep, .jnl, .txQueue, .sessions, .outs, .port, .arrays, .cores, .adits, .hoists, .scatters, .chans, .links, .chutes, .hops, .counters] P := by exact Can.sub (by assumption) (by decide)) : Keeps P z (assayAudit s t rt ct m) := by
  unfold assayAudit
  with_reducible repeat' first
    | assumption | exact Can.sub (by assumption) (by decide) | apply setSlot_keeps | apply count_keeps | apply dropAssayTile_keeps | apply auditFail_keeps | refine Keeps.ite ?_ (fun _ => ?_) | split | intro _ _ _ | intro _ _ | apply Keeps.foldl | extract_lets

theorem recomputeSums_keeps {P : Part → Prop} {z s : State} (h : Keeps P z s) (c) (table)
    (can : Can [.mem, .regs, .voids, .dep, .cores, .assays] P := by exact Can.sub (by assumption) (by decide)) : Keeps P z (recomputeSums s c table) := by
  unfold recomputeSums
  with_reducible repeat' first
    | assumption | exact Can.sub (by assumption) (by decide) | apply raise_keeps | apply writeAssay_keeps | refine Keeps.ite ?_ (fun _ => ?_) | split | intro _ _ _ | intro _ _ | apply Keeps.foldl | extract_lets

theorem endDescent_keeps {P : Part → Prop} {z s : State} (h : Keeps P z s) (m) (c)
    (can : Can [.regs, .cals] P := by exact Can.sub (by assumption) (by decide)) : Keeps P z (endDescent s m c) := by
  unfold endDescent
  with_reducible repeat' first
    | assumption | exact Can.sub (by assumption) (by decide) | apply raiseIf_keeps | apply setCal_keeps

theorem updateBand_keeps {P : Part → Prop} {z s : State} (h : Keeps P z s) (m)
    (can : Can [.cals] P := by exact Can.sub (by assumption) (by decide)) : Keeps P z (updateBand s m) := by
  unfold updateBand
  with_reducible repeat' first | assumption | apply setCal_keeps | refine Keeps.ite ?_ (fun _ => ?_)

theorem raiseVset_keeps {P : Part → Prop} {z s : State} (h : Keeps P z s) (m) (c)
    (can : Can [.regs, .cals] P := by exact Can.sub (by assumption) (by decide)) : Keeps P z (raiseVset s m c) := by
  unfold raiseVset
  with_reducible repeat' first
    | assumption | exact Can.sub (by assumption) (by decide) | apply raise_keeps | apply count_keeps
      | apply setCal_keeps | refine Keeps.ite ?_ (fun _ => ?_)

theorem calWindow_keeps {P : Part → Prop} {z s : State} (h : Keeps P z s) (m) (load) (margin)
    (can : Can [.regs, .cals] P := by exact Can.sub (by assumption) (by decide)) :
    Keeps P z (calWindow s m load margin) := by
  unfold calWindow
  with_reducible repeat' first
    | assumption | exact Can.sub (by assumption) (by decide) | apply raiseVset_keeps | apply endDescent_keeps
      | apply setCal_keeps | refine Keeps.ite ?_ (fun _ => ?_) | split

theorem descentStep_keeps {P : Part → Prop} {z s : State} (h : Keeps P z s) (m) (held)
    (can : Can [.regs, .cals] P := by exact Can.sub (by assumption) (by decide)) :
    Keeps P z (descentStep s m held) := by
  unfold descentStep
  with_reducible repeat' first
    | assumption | exact Can.sub (by assumption) (by decide) | apply endDescent_keeps | apply setCal_keeps
      | refine Keeps.ite ?_ (fun _ => ?_) | split | extract_lets

theorem seamIdle_keeps {P : Part → Prop} {z s : State} (h : Keeps P z s) (m)
    (can : Can [.cals] P := by exact Can.sub (by assumption) (by decide)) : Keeps P z (seamIdle s m) := by
  unfold seamIdle
  with_reducible repeat' first | assumption | apply setCal_keeps | refine Keeps.ite ?_ (fun _ => ?_)

theorem seamWake_keeps {P : Part → Prop} {z s : State} (h : Keeps P z s) (m)
    (can : Can [.regs, .cals] P := by exact Can.sub (by assumption) (by decide)) : Keeps P z (seamWake s m) := by
  unfold seamWake
  with_reducible repeat' first
    | assumption | exact Can.sub (by assumption) (by decide) | apply count_keeps | apply setCal_keeps
      | refine Keeps.ite ?_ (fun _ => ?_)

theorem enterCommand_keeps {P : Part → Prop} {z s : State} (h : Keeps P z s) (q) (cmd)
    (can : Can [.hoists] P := by exact Can.sub (by assumption) (by decide)) : Keeps P z (enterCommand s q cmd) := by
  unfold enterCommand
  with_reducible repeat' first
    | assumption | apply enqueueCmd_keeps | apply setQueue_keeps | refine Keeps.ite ?_ (fun _ => ?_) | split
      | extract_lets

theorem spendOpen_keeps {P : Part → Prop} {z s : State} (h : Keeps P z s) (ms)
    (can : Can [.freeCount] P := by exact Can.sub (by assumption) (by decide)) : Keeps P z (spendOpen s ms) := by
  unfold spendOpen
  with_reducible repeat' first
    | assumption | exact Can.sub (by assumption) (by decide) | refine Keeps.ite ?_ (fun _ => ?_) | split | intro _ _ _ | intro _ _ | apply Keeps.foldl | (refine Keeps.upd ?_ rfl rfl rfl) | extract_lets

theorem freeOrder_keeps {P : Part → Prop} {z s : State} (h : Keeps P z s) (ms)
    (can : Can [.freeCount] P := by exact Can.sub (by assumption) (by decide)) : Keeps P z (freeOrder s ms).2 :=
  freeOrderBy_keeps h ..

theorem copyTensor_keeps {P : Part → Prop} {z s : State} (h : Keeps P z s) (q) (src) (dst) (perm) (dry)
    (can : Can [.freeCount, .hoists] P := by exact Can.sub (by assumption) (by decide)) : Keeps P z (copyTensor s q src dst perm dry) := by
  unfold copyTensor
  with_reducible repeat' first
    | assumption | exact Can.sub (by assumption) (by decide) | apply freeOrder_keeps | apply spendOpen_keeps | apply enterCommand_keeps | refine Keeps.ite ?_ (fun _ => ?_) | split | intro _ _ _ | intro _ _ | apply Keeps.foldl | extract_lets | (refine Keeps.of_snd (by assumption) ?_) | (refine Keeps.of_fst (by assumption) ?_)

theorem countOob_keeps {P : Part → Prop} {z s : State} (h : Keeps P z s) (q) (n)
    (can : Can [.regs, .cores] P := by exact Can.sub (by assumption) (by decide)) : Keeps P z (countOob s q n) := by
  unfold countOob
  with_reducible repeat' first
    | assumption | exact Can.sub (by assumption) (by decide) | apply raise_keeps | apply count_keeps
      | apply slotCount_keeps | refine Keeps.ite ?_ (fun _ => ?_) | split

theorem gatherTensor_keeps {P : Part → Prop} {z s : State} (h : Keeps P z s) (q) (src) (idx) (dst) (dim) (dry)
    (can : Can [.freeCount, .regs, .cores, .hoists] P := by exact Can.sub (by assumption) (by decide)) : Keeps P z (gatherTensor s q src idx dst dim dry) := by
  unfold gatherTensor
  with_reducible repeat' first
    | assumption | exact Can.sub (by assumption) (by decide) | apply freeOrder_keeps | apply spendOpen_keeps | apply countOob_keeps | apply enterCommand_keeps | refine Keeps.ite ?_ (fun _ => ?_) | split | intro _ _ _ | intro _ _ | apply Keeps.foldl | extract_lets | (refine Keeps.of_snd (by assumption) ?_) | (refine Keeps.of_fst (by assumption) ?_)

theorem orderSlice_keeps {P : Part → Prop} {z : State} {p : List MoveRun × State} (h : Keeps P z p.2) (ms)
    (can : Can [.freeCount] P := by exact Can.sub (by assumption) (by decide)) : Keeps P z (orderSlice p ms).2 :=
  freeOrder_keeps h ..

theorem scatterTensor_keeps {P : Part → Prop} {z s : State} (h : Keeps P z s) (q) (src) (idx) (dst) (dim) (dry)
    (can : Can [.freeCount, .regs, .cores, .hoists] P := by exact Can.sub (by assumption) (by decide)) : Keeps P z (scatterTensor s q src idx dst dim dry) := by
  unfold scatterTensor
  split
  · split
    · exact h
    · extract_lets xs slices
      split
      rename_i ms s1 e
      refine enterCommand_keeps (countOob_keeps (.of_snd e ?_) ..) ..
      exact Keeps.foldl_snd (p := ([], spendOpen s slices.flatten)) (spendOpen_keeps h ..) _ fun p x k => orderSlice_keeps k ..
  · exact h

theorem putScatter_keeps {P : Part → Prop} {z s : State} (h : Keeps P z s) (b)
    (can : Can [.scatters] P := by exact Can.sub (by assumption) (by decide)) : Keeps P z (putScatter s b) :=
  h.same rfl rfl rfl rfl

theorem scatterAdd_keeps {P : Part → Prop} {z s : State} (h : Keeps P z s) (q) (o)
    (can : Can [.regs, .cores, .hoists, .scatters] P := by exact Can.sub (by assumption) (by decide)) : Keeps P z (scatterAdd s q o) := by
  unfold scatterAdd
  with_reducible repeat' first
    | assumption | exact Can.sub (by assumption) (by decide) | apply countOob_keeps | apply enqueueTo_keeps | apply putScatter_keeps | refine Keeps.ite ?_ (fun _ => ?_) | split | intro _ _ _ | intro _ _ | apply Keeps.foldl | extract_lets

theorem accumulate_keeps {P : Part → Prop} {z s : State} (h : Keeps P z s) (q) (o)
    (can : Can [.freeCount, .scatters] P := by exact Can.sub (by assumption) (by decide)) : Keeps P z (accumulate s q o) := by
  unfold accumulate
  split
  · extract_lets buf xs
    exact h.same rfl rfl rfl rfl
  · exact h

theorem xlateFault_keeps {P : Part → Prop} {z s : State} (h : Keeps P z s) (q) (a)
    (can : Can [.freeCount, .regs, .doms, .graphs, .jobs, .fences, .voids, .dep, .jnl, .txQueue, .sessions, .outs,
      .port, .arrays, .cores, .adits, .hoists, .scatters, .chans, .links, .chutes, .hops, .counters] P
      := by exact Can.sub (by assumption) (by decide)) :
    Keeps P z (xlateFault s q a) := by
  unfold xlateFault
  with_reducible repeat' first
    | assumption | exact Can.sub (by assumption) (by decide) | apply count_keeps | apply setRawReg_keeps
      | apply raise_keeps | apply setQueue_keeps | apply abortTask_keeps | apply reportFault_keeps
      | refine Keeps.ite ?_ (fun _ => ?_) | split

theorem enterRun_keeps {P : Part → Prop} {z s : State} (h : Keeps P z s) (q) (p)
    (can : Can [.hoists, .chans] P := by exact Can.sub (by assumption) (by decide)) : Keeps P z (enterRun q s p) := by
  unfold enterRun
  with_reducible repeat' first
    | assumption | exact Can.sub (by assumption) (by decide) | apply pushReqs_keeps | apply setQueue_keeps | refine Keeps.ite ?_ (fun _ => ?_) | split | intro _ _ _ | intro _ _ | apply Keeps.foldl | extract_lets

theorem enterWrites_keeps {P : Part → Prop} {z s : State} (h : Keeps P z s) (q)
    (can : Can [.hoists, .chans] P := by exact Can.sub (by assumption) (by decide)) : Keeps P z (enterWrites s q) := by
  unfold enterWrites
  with_reducible repeat' first
    | assumption | exact Can.sub (by assumption) (by decide) | apply enterRun_keeps | refine Keeps.ite ?_ (fun _ => ?_) | split | intro _ _ _ | intro _ _ | apply Keeps.foldl | extract_lets

theorem issueSegment_keeps {P : Part → Prop} {z s : State} (h : Keeps P z s) (q) (g)
    (can : Can [.freeCount, .mem, .regs, .doms, .graphs, .jobs, .fences, .voids, .dep, .jnl, .txQueue, .sessions, .outs, .port, .arrays, .cores, .adits, .hoists, .scatters, .chans, .links, .chutes, .hops, .counters] P := by exact Can.sub (by assumption) (by decide)) : Keeps P z (issueSegment s q g) := by
  unfold issueSegment
  with_reducible repeat' first
    | assumption | exact Can.sub (by assumption) (by decide) | apply setQueue_keeps | apply count_keeps | apply meetPoison_keeps | apply enterWrites_keeps | apply pushReqs_keeps | refine Keeps.ite ?_ (fun _ => ?_) | split | intro _ _ _ | intro _ _ | apply Keeps.foldl | extract_lets

theorem issueOne_keeps {P : Part → Prop} {z s : State} (h : Keeps P z s) (seam) (h') (untranslated)
    (can : Can [.freeCount, .mem, .regs, .doms, .graphs, .jobs, .fences, .voids, .dep, .jnl, .txQueue, .sessions, .outs, .port, .arrays, .cores, .adits, .hoists, .scatters, .chans, .links, .chutes, .hops, .counters] P := by exact Can.sub (by assumption) (by decide)) : Keeps P z (issueOne s seam h' untranslated) := by
  unfold issueOne
  with_reducible repeat' first
    | assumption | exact Can.sub (by assumption) (by decide) | apply xlateFault_keeps | apply issueSegment_keeps | refine Keeps.ite ?_ (fun _ => ?_) | split | intro _ _ _ | intro _ _ | apply Keeps.foldl | extract_lets

theorem deliverRead_keeps {P : Part → Prop} {z s : State} (h : Keeps P z s) (q) (id) (i) (bs) (bad)
    (can : Can [.regs, .jobs, .dep, .txQueue, .sessions, .outs, .arrays, .cores, .hoists, .scatters, .chans, .chutes] P := by exact Can.sub (by assumption) (by decide)) : Keeps P z (deliverRead s q id i bs bad) := by
  unfold deliverRead
  with_reducible repeat' first
    | assumption | exact Can.sub (by assumption) (by decide) | apply setQueue_keeps | apply abortTask_keeps | apply enterWrites_keeps | refine Keeps.ite ?_ (fun _ => ?_) | split | intro _ _ _ | intro _ _ | apply Keeps.foldl | extract_lets

theorem poisonAt_keeps {P : Part → Prop} {z s : State} (h : Keeps P z s) (a) (n)
    (can : Can [.cores] P := by exact Can.sub (by assumption) (by decide)) : Keeps P z (poisonAt s a n) := by
  unfold poisonAt
  with_reducible repeat' first | assumption | apply setCore_keeps | split

theorem landRun_keeps {P : Part → Prop} {z s : State} (h : Keeps P z s) (g) (poisoned) (r)
    (can : Can [.mem, .regs, .voids, .dep, .cores, .assays] P := by exact Can.sub (by assumption) (by decide)) : Keeps P z (landRun g poisoned s r) := by
  unfold landRun
  with_reducible repeat' first
    | assumption | exact Can.sub (by assumption) (by decide) | apply writeModule_keeps | apply poisonAt_keeps | refine Keeps.ite ?_ (fun _ => ?_) | split | intro _ _ _ | intro _ _ | apply Keeps.foldl | extract_lets

theorem releaseCars_keeps {P : Part → Prop} {z s : State} (h : Keeps P z s) (q)
    (can : Can [.hoists, .hops] P := by exact Can.sub (by assumption) (by decide)) : Keeps P z (releaseCars s q) := by
  unfold releaseCars
  with_reducible repeat' first
    | assumption | exact Can.sub (by assumption) (by decide) | apply setQueue_keeps | apply setHop_keeps | refine Keeps.ite ?_ (fun _ => ?_) | split | intro _ _ _ | intro _ _ | apply Keeps.foldl | extract_lets

theorem landSegment_keeps {P : Part → Prop} {z s : State} (h : Keeps P z s) (q) (g) (poisoned)
    (can : Can [.mem, .regs, .voids, .dep, .cores, .hoists, .assays, .hops] P := by exact Can.sub (by assumption) (by decide)) : Keeps P z (landSegment s q g poisoned) := by
  unfold landSegment
  with_reducible repeat' first
    | assumption | exact Can.sub (by assumption) (by decide) | apply landRun_keeps | apply releaseCars_keeps | apply setQueue_keeps | refine Keeps.ite ?_ (fun _ => ?_) | split | intro _ _ _ | intro _ _ | apply Keeps.foldl | extract_lets

theorem landBytes_keeps {P : Part → Prop} {z s : State} (h : Keeps P z s) (q) (n) (slow)
    (can : Can [.regs, .cores, .hoists] P := by exact Can.sub (by assumption) (by decide)) :
    Keeps P z (landBytes s q n slow) := by
  unfold landBytes
  with_reducible repeat' first
    | assumption | exact Can.sub (by assumption) (by decide) | apply count_keeps | apply setQueue_keeps
      | apply slotCount_keeps | refine Keeps.ite ?_ (fun _ => ?_) | split

theorem poisonTask_keeps {P : Part → Prop} {z s : State} (h : Keeps P z s) (q) (g)
    (can : Can [.regs, .jobs, .dep, .txQueue, .sessions, .outs, .arrays, .cores, .hoists, .scatters, .chutes] P
      := by exact Can.sub (by assumption) (by decide)) :
    Keeps P z (poisonTask s q g) := by
  unfold poisonTask
  with_reducible repeat' first | assumption | apply abortTask_keeps | refine Keeps.ite ?_ (fun _ => ?_) | split

theorem finishAdd_keeps {P : Part → Prop} {z s : State} (h : Keeps P z s) (q) (g)
    (can : Can [.freeCount, .scatters] P := by exact Can.sub (by assumption) (by decide)) : Keeps P z (finishAdd s q g) := by
  unfold finishAdd
  with_reducible repeat' first
    | assumption | exact Can.sub (by assumption) (by decide) | apply accumulate_keeps | refine Keeps.ite ?_ (fun _ => ?_) | split | intro _ _ _ | intro _ _ | apply Keeps.foldl | extract_lets

theorem completeSegment_keeps {P : Part → Prop} {z s : State} (h : Keeps P z s) (q) (id) (poisoned)
    (can : Can [.freeCount, .mem, .regs, .jobs, .voids, .dep, .txQueue, .sessions, .outs, .arrays, .cores, .hoists, .scatters, .assays, .chutes, .hops] P := by exact Can.sub (by assumption) (by decide)) : Keeps P z (completeSegment s q id poisoned) := by
  unfold completeSegment
  with_reducible repeat' first
    | assumption | exact Can.sub (by assumption) (by decide) | apply setQueue_keeps | apply landSegment_keeps | apply landBytes_keeps | apply count_keeps | apply poisonTask_keeps | apply finishAdd_keeps | refine Keeps.ite ?_ (fun _ => ?_) | split | intro _ _ _ | intro _ _ | apply Keeps.foldl | extract_lets

theorem fetchBatch_keeps {P : Part → Prop} {z s : State} (h : Keeps P z s) (q) (cmds)
    (can : Can [.regs, .hoists, .chans] P := by exact Can.sub (by assumption) (by decide)) : Keeps P z (fetchBatch s q cmds) := by
  unfold fetchBatch
  with_reducible repeat' first
    | assumption | exact Can.sub (by assumption) (by decide) | apply setQueue_keeps | apply pushReqs_keeps | apply count_keeps | refine Keeps.ite ?_ (fun _ => ?_) | split | intro _ _ _ | intro _ _ | apply Keeps.foldl | extract_lets

theorem resetAt_keeps {P : Part → Prop} {z s : State} (h : Keeps P z s) (ep)
    (can : Can [.regs, .jobs, .dep, .txQueue, .sessions, .outs, .arrays, .cores, .hoists, .scatters, .chutes] P
      := by exact Can.sub (by assumption) (by decide)) :
    Keeps P z (resetAt s ep) := by
  unfold resetAt
  with_reducible repeat' first
    | assumption | exact Can.sub (by assumption) (by decide) | apply resetChuteOnly_keeps | apply abortWork_keeps
      | refine Keeps.ite ?_ (fun _ => ?_) | split

theorem packetCommit_keeps {P : Part → Prop} {z s : State} (h : Keeps P z s) (ep) (p)
    (can : Can [.regs, .jobs, .dep, .txQueue, .sessions, .outs, .arrays, .cores, .hoists, .scatters, .chutes] P
      := by exact Can.sub (by assumption) (by decide)) :
    Keeps P z (packetCommit s ep p) := by
  unfold packetCommit
  with_reducible repeat' first
    | assumption | exact Can.sub (by assumption) (by decide) | apply packetArrive_keeps | apply resetAt_keeps
      | refine Keeps.ite ?_ (fun _ => ?_)

theorem commitReceived_keeps {P : Part → Prop} {z s : State} (h : Keeps P z s) (ep)
    (can : Can [.chutes] P := by exact Can.sub (by assumption) (by decide)) : Keeps P z (commitReceived s ep) := by
  unfold commitReceived
  with_reducible repeat' first | assumption | apply setEp_keeps | split | extract_lets

theorem rewoundReceived_keeps {P : Part → Prop} {z s : State} (h : Keeps P z s) (ep)
    (can : Can [.chutes] P := by exact Can.sub (by assumption) (by decide)) : Keeps P z (rewoundReceived s ep) := by
  unfold rewoundReceived
  with_reducible repeat' first | assumption | apply setEp_keeps | split | extract_lets

theorem grantReceived_keeps {P : Part → Prop} {z s : State} (h : Keeps P z s) (ep)
    (can : Can [.txQueue, .sessions, .chutes] P := by exact Can.sub (by assumption) (by decide)) :
    Keeps P z (grantReceived s ep) := by
  unfold grantReceived
  with_reducible repeat' first
    | assumption | exact Can.sub (by assumption) (by decide) | apply setEp_keeps | apply issueGrants_keeps
      | refine Keeps.ite ?_ (fun _ => ?_) | split

theorem consumerRead_keeps {P : Part → Prop} {z s : State} (h : Keeps P z s) (ep) (addr) (len) (poisoned)
    (can : Can [.mem, .regs, .jobs, .voids, .dep, .txQueue, .sessions, .outs, .arrays, .cores, .hoists, .scatters,
      .assays, .chutes] P := by exact Can.sub (by assumption) (by decide)) :
    Keeps P z (consumerRead s ep addr len poisoned) := by
  unfold consumerRead
  with_reducible repeat' first
    | assumption | exact Can.sub (by assumption) (by decide) | apply setEp_keeps | apply count_keeps
      | apply writeModule_keeps | apply issueGrants_keeps | apply raise_keeps | apply poisonAt_keeps
      | apply abortWork_keeps | refine Keeps.ite ?_ (fun _ => ?_) | split

theorem closeMarkCmd_keeps {P : Part → Prop} {z s : State} (h : Keeps P z s) (ep)
    (can : Can [.regs, .chutes] P := by exact Can.sub (by assumption) (by decide)) :
    Keeps P z (closeMarkCmd s ep) := by
  unfold closeMarkCmd
  with_reducible repeat' first | assumption | apply closeMarkAt_keeps | refine Keeps.ite ?_ (fun _ => ?_)

theorem fillTimerExpiry_keeps {P : Part → Prop} {z s : State} (h : Keeps P z s) (ep)
    (can : Can [.txQueue, .chutes] P := by exact Can.sub (by assumption) (by decide)) :
    Keeps P z (fillTimerExpiry s ep) := by
  unfold fillTimerExpiry
  with_reducible repeat' first
    | assumption | exact Can.sub (by assumption) (by decide) | apply setEp_keeps | apply pushTx_keeps
      | refine Keeps.ite ?_ (fun _ => ?_) | split

theorem tailNotice_keeps {P : Part → Prop} {z s : State} (h : Keeps P z s) (ep)
    (can : Can [.chutes] P := by exact Can.sub (by assumption) (by decide)) : Keeps P z (tailNotice s ep) := by
  unfold tailNotice
  with_reducible repeat' first | assumption | apply setEp_keeps | refine Keeps.ite ?_ (fun _ => ?_)

theorem readTimerExpiry_keeps {P : Part → Prop} {z s : State} (h : Keeps P z s) (ep)
    (can : Can [.regs, .chutes] P := by exact Can.sub (by assumption) (by decide)) :
    Keeps P z (readTimerExpiry s ep) := by
  unfold readTimerExpiry
  with_reducible repeat' first
    | assumption | exact Can.sub (by assumption) (by decide) | apply setEp_keeps | apply raise_keeps
      | apply count_keeps | apply setRawReg_keeps | refine Keeps.ite ?_ (fun _ => ?_)

theorem portCount_keeps {P : Part → Prop} {z s : State} (h : Keeps P z s) (off)
    (can : Can [.regs] P := by exact Can.sub (by assumption) (by decide)) : Keeps P z (portCount s off) := by
  unfold portCount
  with_reducible repeat' first | assumption | apply count_keeps

theorem frameEnds_keeps {P : Part → Prop} {z s : State} (h : Keeps P z s) (f)
    (can : Can [.regs] P := by exact Can.sub (by assumption) (by decide)) : Keeps P z (frameEnds s f) := by
  unfold frameEnds
  with_reducible repeat' first
    | assumption | exact Can.sub (by assumption) (by decide) | apply count_keeps | apply raise_keeps | apply portCount_keeps | refine Keeps.ite ?_ (fun _ => ?_) | split | intro _ _ _ | intro _ _ | apply Keeps.foldl | extract_lets

theorem receiveFrame_keeps {P : Part → Prop} {z s : State} (h : Keeps P z s) (f) (kept)
    (can : Can [.regs] P := by exact Can.sub (by assumption) (by decide)) : Keeps P z (receiveFrame s f kept).1 := by
  unfold receiveFrame
  with_reducible repeat' first
    | assumption | exact Can.sub (by assumption) (by decide) | apply frameEnds_keeps | apply portCount_keeps | refine Keeps.ite ?_ (fun _ => ?_) | split | intro _ _ _ | intro _ _ | apply Keeps.foldl | extract_lets

theorem rxFrameError_keeps {P : Part → Prop} {z s : State} (h : Keeps P z s) (f)
    (can : Can [.regs] P := by exact Can.sub (by assumption) (by decide)) : Keeps P z (rxFrameError s f) := by
  unfold rxFrameError
  with_reducible repeat' first | assumption | apply receiveFrame_keeps | refine Keeps.ite ?_ (fun _ => ?_)

theorem arpRequest_keeps {P : Part → Prop} {z s : State} (h : Keeps P z s) (f) (target)
    (can : Can [.regs, .txQueue] P := by exact Can.sub (by assumption) (by decide)) :
    Keeps P z (arpRequest s f target) := by
  unfold arpRequest
  with_reducible repeat' first
    | assumption | exact Can.sub (by assumption) (by decide) | apply receiveFrame_keeps | apply pushTx_keeps
      | refine Keeps.ite ?_ (fun _ => ?_) | split | extract_lets | (refine Keeps.of_fst (by assumption) ?_)

theorem neighborSolicitation_keeps {P : Part → Prop} {z s : State} (h : Keeps P z s) (f) (target)
    (can : Can [.regs, .txQueue] P := by exact Can.sub (by assumption) (by decide)) :
    Keeps P z (neighborSolicitation s f target) := by
  unfold neighborSolicitation
  with_reducible repeat' first
    | assumption | exact Can.sub (by assumption) (by decide) | apply receiveFrame_keeps | apply pushTx_keeps | split
      | extract_lets | (refine Keeps.of_fst (by assumption) ?_)

theorem pfcFrame_keeps {P : Part → Prop} {z s : State} (h : Keeps P z s) (f) (opcode) (enable) (times)
    (can : Can [.regs, .port] P := by exact Can.sub (by assumption) (by decide)) :
    Keeps P z (pfcFrame s f opcode enable times) := by
  unfold pfcFrame
  with_reducible repeat' first
    | assumption | exact Can.sub (by assumption) (by decide) | apply receiveFrame_keeps | apply raise_keeps
      | apply portCount_keeps | refine Keeps.ite ?_ (fun _ => ?_) | split
      | (refine Keeps.upd ?_ rfl rfl rfl; assumption) | extract_lets | (refine Keeps.of_fst (by assumption) ?_)

theorem pauseExpiry_keeps {P : Part → Prop} {z s : State} (h : Keeps P z s) (k)
    (can : Can [.port] P := by exact Can.sub (by assumption) (by decide)) : Keeps P z (pauseExpiry s k) :=
  h.same rfl rfl rfl rfl

theorem pauseFrame_keeps {P : Part → Prop} {z s : State} (h : Keeps P z s) (f)
    (can : Can [.regs] P := by exact Can.sub (by assumption) (by decide)) : Keeps P z (pauseFrame s f) := by
  unfold pauseFrame
  with_reducible repeat' first
    | assumption | apply receiveFrame_keeps | apply portCount_keeps | split | extract_lets
      | (refine Keeps.of_fst (by assumption) ?_)

theorem frameTransmit_keeps {P : Part → Prop} {z s : State} (h : Keeps P z s)
    (can : Can [.regs, .txQueue, .port] P := by exact Can.sub (by assumption) (by decide)) :
    Keeps P z (frameTransmit s) := by
  unfold frameTransmit
  with_reducible repeat' first
    | assumption | exact Can.sub (by assumption) (by decide) | apply portCount_keeps
      | refine Keeps.ite ?_ (fun _ => ?_) | split | (refine Keeps.upd ?_ rfl rfl rfl; assumption)

theorem linkComesUp_keeps {P : Part → Prop} {z s : State} (h : Keeps P z s) (m)
    (can : Can [.port] P := by exact Can.sub (by assumption) (by decide)) : Keeps P z (linkComesUp s m) := by
  unfold linkComesUp
  with_reducible repeat' first
    | assumption | refine Keeps.ite ?_ (fun _ => ?_) | (refine Keeps.upd ?_ rfl rfl rfl; assumption)

theorem linkGoesDown_keeps {P : Part → Prop} {z s : State} (h : Keeps P z s)
    (can : Can [.regs, .port] P := by exact Can.sub (by assumption) (by decide)) : Keeps P z (linkGoesDown s) := by
  unfold linkGoesDown
  with_reducible repeat' first
    | assumption | exact Can.sub (by assumption) (by decide) | apply raise_keeps | refine Keeps.ite ?_ (fun _ => ?_)
      | (refine Keeps.upd ?_ rfl rfl rfl; assumption)

theorem setMgmt_keeps {P : Part → Prop} {z s : State} (h : Keeps P z s) (i) (x)
    (can : Can [.mgmt] P := by exact Can.sub (by assumption) (by decide)) : Keeps P z (setMgmt s i x) :=
  h.same rfl rfl rfl rfl

theorem answerMgmt_keeps {P : Part → Prop} {z s : State} (h : Keeps P z s) (r) (status) (body)
    (can : Can [.regs, .txQueue] P := by exact Can.sub (by assumption) (by decide)) :
    Keeps P z (answerMgmt s r status body) := by
  unfold answerMgmt
  with_reducible repeat' first
    | assumption | exact Can.sub (by assumption) (by decide) | apply pushTx_keeps | apply raise_keeps
      | apply count_keeps | refine Keeps.ite ?_ (fun _ => ?_)

theorem finishMgmt_keeps {P : Part → Prop} {z s : State} (h : Keeps P z s) (r) (status) (body)
    (can : Can [.regs, .txQueue, .mgmt] P := by exact Can.sub (by assumption) (by decide)) :
    Keeps P z (finishMgmt s r status body) := by
  unfold finishMgmt
  with_reducible repeat' first
    | assumption | exact Can.sub (by assumption) (by decide) | apply answerMgmt_keeps | apply setMgmt_keeps | split
      | extract_lets

theorem answerUnknown_keeps {P : Part → Prop} {z s : State} (h : Keeps P z s) (l)
    (can : Can [.regs, .txQueue] P := by exact Can.sub (by assumption) (by decide)) :
    Keeps P z (answerUnknown l s).2 := by
  induction l generalizing s with
  | nil => exact h
  | cons r l ih =>
    unfold answerUnknown
    split
    · exact h
    · exact ih (answerMgmt_keeps h ..)

theorem settleQueue_keeps {P : Part → Prop} {z s : State} (h : Keeps P z s)
    (can : Can [.regs, .txQueue, .mgmt] P := by exact Can.sub (by assumption) (by decide)) :
    Keeps P z (settleQueue s) := by
  unfold settleQueue
  with_reducible repeat' first
    | assumption | exact Can.sub (by assumption) (by decide) | refine Keeps.ite ?_ (fun _ => ?_)
      | (refine Keeps.upd ?_ rfl rfl rfl; first | assumption | apply answerUnknown_keeps)

theorem abandonHeld_keeps {P : Part → Prop} {z s : State} (h : Keeps P z s) (h1)
    (can : Can [.regs, .txQueue, .mgmt] P := by exact Can.sub (by assumption) (by decide)) :
    Keeps P z (abandonHeld s h1) := by
  unfold abandonHeld
  with_reducible repeat' first
    | assumption | exact Can.sub (by assumption) (by decide) | apply raise_keeps | apply count_keeps
      | apply finishMgmt_keeps | (refine Keeps.upd ?_ rfl rfl rfl; assumption)

theorem countConversions_keeps {P : Part → Prop} {z s : State} (h : Keeps P z s) (job) (node) (c)
    (can : Can [.jobs] P := by exact Can.sub (by assumption) (by decide)) :
    Keeps P z (countConversions s job node c) := by
  unfold countConversions
  with_reducible repeat' first | assumption | apply updRun_keeps

theorem formImage_keeps {P : Part → Prop} {z s : State} (h : Keeps P z s) (b)
    (can : Can [.jobs] P := by exact Can.sub (by assumption) (by decide)) : Keeps P z (formImage s b).2 := by
  unfold formImage
  with_reducible repeat' first | assumption | apply countConversions_keeps | split

theorem copyPiece_keeps {P : Part → Prop} {z s : State} (h : Keeps P z s) (b) (l)
    (can : Can [.freeCount, .mem, .regs, .voids, .dep, .cores, .assays] P := by exact Can.sub (by assumption) (by decide)) : Keeps P z (copyPiece s b l) := by
  unfold copyPiece
  with_reducible repeat' first
    | assumption | exact Can.sub (by assumption) (by decide) | apply coverPart_keeps | apply applyWrites_keeps | refine Keeps.ite ?_ (fun _ => ?_) | split | intro _ _ _ | intro _ _ | apply Keeps.foldl | extract_lets

theorem commitWrite_keeps {P : Part → Prop} {z s : State} (h : Keeps P z s) (job) (node) (task) (k) (format) (piece)
    (can : Can [.jnl, .txQueue, .outs] P := by exact Can.sub (by assumption) (by decide)) :
    Keeps P z (commitWrite s job node task k format piece) := by
  unfold commitWrite
  with_reducible repeat' first | assumption | apply startWrite_keeps

theorem writePiece_keeps {P : Part → Prop} {z s : State} (h : Keeps P z s) (b)
    (can : Can [.lotRing, .jnl, .txQueue, .outs, .scatters] P := by exact Can.sub (by assumption) (by decide)) :
    Keeps P z (writePiece s b) := by
  unfold writePiece
  with_reducible repeat' first
    | assumption | exact Can.sub (by assumption) (by decide) | apply putScatter_keeps | apply commitWrite_keeps
      | refine Keeps.ite ?_ (fun _ => ?_)
      | (refine Keeps.upd ?_ rfl rfl rfl; first | assumption | apply putScatter_keeps)

theorem commitScatter_keeps {P : Part → Prop} {z s : State} (h : Keeps P z s) (job) (node) (task)
    (can : Can [.jobs, .lotRing, .jnl, .txQueue, .outs, .scatters] P
      := by exact Can.sub (by assumption) (by decide)) :
    Keeps P z (commitScatter s job node task) := by
  unfold commitScatter
  with_reducible repeat' first
    | assumption | exact Can.sub (by assumption) (by decide) | apply formImage_keeps | apply writePiece_keeps
      | apply commitWrite_keeps | refine Keeps.ite ?_ (fun _ => ?_) | split

theorem retirePiece_keeps {P : Part → Prop} {z s : State} (h : Keeps P z s) (p)
    (can : Can [.lotRing] P := by exact Can.sub (by assumption) (by decide)) : Keeps P z (retirePiece s p) :=
  h.same rfl rfl rfl rfl

theorem pieceWritten_keeps {P : Part → Prop} {z s : State} (h : Keeps P z s) (job) (node) (task) (k)
    (can : Can [.freeCount, .mem, .regs, .voids, .dep, .lotRing, .jnl, .txQueue, .outs, .cores, .scatters, .assays] P := by exact Can.sub (by assumption) (by decide)) : Keeps P z (pieceWritten s job node task k) := by
  unfold pieceWritten
  with_reducible repeat' first
    | assumption | exact Can.sub (by assumption) (by decide) | apply mirrorNote_keeps | apply retirePiece_keeps | apply putScatter_keeps | apply copyPiece_keeps | apply commitWrite_keeps | refine Keeps.ite ?_ (fun _ => ?_) | split | intro _ _ _ | intro _ _ | apply Keeps.foldl | extract_lets

theorem pieceFailed_keeps {P : Part → Prop} {z s : State} (h : Keeps P z s) (job) (node) (task) (k)
    (can : Can [.lotRing, .jnl, .txQueue, .outs] P := by exact Can.sub (by assumption) (by decide)) :
    Keeps P z (pieceFailed s job node task k) := by
  unfold pieceFailed
  with_reducible repeat' first
    | assumption | exact Can.sub (by assumption) (by decide) | apply retirePiece_keeps | apply commitWrite_keeps
      | refine Keeps.ite ?_ (fun _ => ?_)

theorem iltFrame_keeps {P : Part → Prop} {z s : State} (h : Keeps P z s) (f) (p) (type)
    (can : Can [.regs] P := by exact Can.sub (by assumption) (by decide)) : Keeps P z (iltFrame s f p type).1 := by
  unfold iltFrame
  with_reducible repeat' first
    | assumption | apply receiveFrame_keeps | apply portCount_keeps | split | extract_lets
      | (refine Keeps.of_fst (by assumption) ?_)

theorem dropPacket_keeps {P : Part → Prop} {z s : State} (h : Keeps P z s)
    (can : Can [.regs] P := by exact Can.sub (by assumption) (by decide)) : Keeps P z (dropPacket s) := by
  unfold dropPacket
  with_reducible repeat' first | assumption | apply portCount_keeps

theorem crcError_keeps {P : Part → Prop} {z s : State} (h : Keeps P z s)
    (can : Can [.regs] P := by exact Can.sub (by assumption) (by decide)) : Keeps P z (crcError s) := by
  unfold crcError
  with_reducible repeat' first | assumption | apply raise_keeps | apply portCount_keeps

theorem lotError_keeps {P : Part → Prop} {z s : State} (h : Keeps P z s)
    (can : Can [.regs] P := by exact Can.sub (by assumption) (by decide)) : Keeps P z (lotError s) := by
  unfold lotError
  with_reducible repeat' first | assumption | apply raise_keeps | apply portCount_keeps

theorem storeLot_keeps {P : Part → Prop} {z s : State} (h : Keeps P z s) (i) (lsn) (psnAfter) (bytes)
    (can : Can [.lotRing, .jnl, .txQueue, .sessions, .outs] P := by exact Can.sub (by assumption) (by decide)) :
    Keeps P z (storeLot s i lsn psnAfter bytes) := by
  unfold storeLot
  with_reducible repeat' first
    | assumption | exact Can.sub (by assumption) (by decide) | apply setSession_keeps | apply startWrite_keeps
      | refine Keeps.ite ?_ (fun _ => ?_) | (refine Keeps.upd ?_ rfl rfl rfl; assumption)

theorem lotDone_keeps {P : Part → Prop} {z s : State} (h : Keeps P z s) (i) (lsn) (len) (bytes) (psnAfter)
    (can : Can [.regs, .lotRing, .jnl, .txQueue, .sessions, .outs] P
      := by exact Can.sub (by assumption) (by decide)) :
    Keeps P z (lotDone s i lsn len bytes psnAfter) := by
  unfold lotDone
  with_reducible repeat' first
    | assumption | exact Can.sub (by assumption) (by decide) | apply sendAck_keeps | apply raise_keeps
      | apply portCount_keeps | apply lotError_keeps | apply storeLot_keeps | refine Keeps.ite ?_ (fun _ => ?_)

theorem lotPacket_keeps {P : Part → Prop} {z s : State} (h : Keeps P z s) (i) (p)
    (can : Can [.regs, .lotRing, .jnl, .txQueue, .sessions, .outs] P
      := by exact Can.sub (by assumption) (by decide)) :
    Keeps P z (lotPacket s i p) := by
  unfold lotPacket
  with_reducible repeat' first
    | assumption | exact Can.sub (by assumption) (by decide) | apply lotError_keeps | apply setSession_keeps
      | apply lotDone_keeps | refine Keeps.ite ?_ (fun _ => ?_)

theorem psnCommitted_keeps {P : Part → Prop} {z s : State} (h : Keeps P z s) (i)
    (can : Can [.sessions] P := by exact Can.sub (by assumption) (by decide)) : Keeps P z (psnCommitted s i) := by
  unfold psnCommitted
  with_reducible repeat' first | assumption | apply setSession_keeps

theorem overCredit_keeps {P : Part → Prop} {z s : State} (h : Keeps P z s) (i)
    (can : Can [.regs, .txQueue, .sessions] P := by exact Can.sub (by assumption) (by decide)) :
    Keeps P z (overCredit s i) := by
  unfold overCredit
  with_reducible repeat' first
    | assumption | exact Can.sub (by assumption) (by decide) | apply sendNak_keeps | apply raise_keeps
      | apply portCount_keeps

theorem dataInSequence_keeps {P : Part → Prop} {z s : State} (h : Keeps P z s) (i) (p)
    (can : Can [.regs, .lotRing, .jnl, .txQueue, .sessions, .outs, .chutes] P
      := by exact Can.sub (by assumption) (by decide)) :
    Keeps P z (dataInSequence s i p) := by
  unfold dataInSequence
  with_reducible repeat' first
    | assumption | exact Can.sub (by assumption) (by decide) | apply raise_keeps | apply count_keeps
      | apply overCredit_keeps | apply packetArrive_keeps | apply psnCommitted_keeps | apply lotPacket_keeps
      | apply sendAck_keeps | apply sendNak_keeps | refine Keeps.ite ?_ (fun _ => ?_)

theorem bySequence_keeps {P : Part → Prop} {z s : State} {inSeq : State → State} (h : Keeps P z s) (kinSeq : ∀ s,
    Keeps P z s → Keeps P z (inSeq s)) (i) (psn)
    (can : Can [.regs, .txQueue, .sessions] P := by exact Can.sub (by assumption) (by decide)) :
    Keeps P z (bySequence s i psn inSeq) := by
  unfold bySequence
  with_reducible repeat' first
    | assumption | exact Can.sub (by assumption) (by decide) | apply kinSeq | apply sendAck_keeps
      | apply portCount_keeps | apply sendNak_keeps | apply raise_keeps | refine Keeps.ite ?_ (fun _ => ?_)

theorem rewindFrame_keeps {P : Part → Prop} {z s : State} (h : Keeps P z s) (i) (p) (data)
    (can : Can [.regs, .txQueue, .sessions] P := by exact Can.sub (by assumption) (by decide)) :
    Keeps P z (rewindFrame s i p data) := by
  unfold rewindFrame
  with_reducible repeat' first
    | assumption | exact Can.sub (by assumption) (by decide) | apply raise_keeps | apply count_keeps
      | apply sendNak_keeps | refine Keeps.ite ?_ (fun _ => ?_)

theorem rxInOrder_keeps {P : Part → Prop} {z s : State} {inSeq : Nat → State → State} (h : Keeps P z s) (kinSeq : ∀ i
    s, Keeps P z s → Keeps P z (inSeq i s)) (p) (data)
    (can : Can [.regs, .txQueue, .sessions] P := by exact Can.sub (by assumption) (by decide)) :
    Keeps P z (rxInOrder s p data inSeq) := by
  unfold rxInOrder
  with_reducible repeat' first
    | assumption | exact Can.sub (by assumption) (by decide) | apply kinSeq | apply dropPacket_keeps
      | apply rewindFrame_keeps | apply crcError_keeps | apply bySequence_keeps | refine Keeps.ite ?_ (fun _ => ?_)
      | split

theorem dataPacket_keeps {P : Part → Prop} {z s : State} (h : Keeps P z s) (f) (p)
    (can : Can [.regs, .lotRing, .jnl, .txQueue, .sessions, .outs, .chutes] P
      := by exact Can.sub (by assumption) (by decide)) :
    Keeps P z (dataPacket s f p) := by
  unfold dataPacket
  with_reducible repeat' first
    | assumption | exact Can.sub (by assumption) (by decide) | apply iltFrame_keeps | apply rxInOrder_keeps
      | apply dataInSequence_keeps | split | intro _ _ _ | extract_lets | (refine Keeps.of_fst (by assumption) ?_)

theorem closeInSequence_keeps {P : Part → Prop} {z s : State} (h : Keeps P z s) (i)
    (can : Can [.regs, .txQueue, .sessions, .chutes] P := by exact Can.sub (by assumption) (by decide)) :
    Keeps P z (closeInSequence s i) := by
  unfold closeInSequence
  with_reducible repeat' first
    | assumption | exact Can.sub (by assumption) (by decide) | apply sendAck_keeps | apply psnCommitted_keeps
      | apply closeMarkAt_keeps

theorem closePacket_keeps {P : Part → Prop} {z s : State} (h : Keeps P z s) (f) (p)
    (can : Can [.regs, .txQueue, .sessions, .chutes] P := by exact Can.sub (by assumption) (by decide)) :
    Keeps P z (closePacket s f p) := by
  unfold closePacket
  with_reducible repeat' first
    | assumption | exact Can.sub (by assumption) (by decide) | apply iltFrame_keeps | apply rxInOrder_keeps
      | apply closeInSequence_keeps | split | intro _ _ _ | extract_lets | (refine Keeps.of_fst (by assumption) ?_)

theorem leaveLog_keeps {P : Part → Prop} {z s : State} (h : Keeps P z s) (i)
    (can : Can [.respLog, .jnl, .txQueue, .outs] P := by exact Can.sub (by assumption) (by decide)) :
    Keeps P z (leaveLog s i) := by
  unfold leaveLog
  with_reducible repeat' first
    | assumption | exact Can.sub (by assumption) (by decide) | apply mirrorNote_keeps | intro _ _ _
      | apply Keeps.foldl | (refine Keeps.upd ?_ rfl rfl rfl; assumption)

theorem resendFrom_keeps {P : Part → Prop} {z s : State} (h : Keeps P z s) (i) (psn)
    (can : Can [.regs, .txQueue, .sessions] P := by exact Can.sub (by assumption) (by decide)) :
    Keeps P z (resendFrom s i psn) := by
  unfold resendFrom
  with_reducible repeat' first
    | assumption | exact Can.sub (by assumption) (by decide) | apply count_keeps
      | (refine Keeps.upd ?_ rfl rfl rfl; first | assumption | apply setSession_keeps)

theorem dropResponse_keeps {P : Part → Prop} {z s : State} (h : Keeps P z s) (i) (psn)
    (can : Can [.freeCount, .mem, .regs, .allocs, .descs, .graphs, .stages, .jobs, .waits, .voids, .dep, .respLog,
      .lotRing, .jnl, .txQueue, .sessions, .outs, .orphans, .arrays, .cores, .hoists, .scatters, .assays, .chutes,
      .counters] P := by exact Can.sub (by assumption) (by decide)) :
    Keeps P z (dropResponse s i psn) := by
  unfold dropResponse
  extract_lets t before rest
  clear_value rest before
  have k : Keeps P z t := raise_keeps (portCount_keeps h ..) ..
  split
  · exact k
  · refine drainAll_keeps (releaseGrants_keeps (mirrorNote_keeps ?_ ..))
    exact Keeps.upd (setSession_keeps (Keeps.upd k rfl rfl rfl) ..) rfl rfl rfl

theorem retransmit_keeps {P : Part → Prop} {z s : State} (h : Keeps P z s) (i) (psn)
    (can : Can [.freeCount, .mem, .regs, .allocs, .descs, .graphs, .stages, .jobs, .waits, .voids, .dep, .respLog,
      .lotRing, .jnl, .txQueue, .sessions, .outs, .orphans, .arrays, .cores, .hoists, .scatters, .assays, .chutes,
      .counters] P := by exact Can.sub (by assumption) (by decide)) :
    Keeps P z (retransmit s i psn) := by
  unfold retransmit
  with_reducible repeat' first
    | assumption | exact Can.sub (by assumption) (by decide) | apply dropResponse_keeps | apply resendFrom_keeps
      | refine Keeps.ite ?_ (fun _ => ?_) | split | extract_lets

theorem ackResponses_keeps {P : Part → Prop} {z s : State} (h : Keeps P z s) (i) (next)
    (can : Can [.freeCount, .mem, .regs, .allocs, .descs, .graphs, .stages, .jobs, .waits, .voids, .dep, .respLog,
      .lotRing, .jnl, .txQueue, .sessions, .outs, .orphans, .arrays, .cores, .hoists, .scatters, .assays, .chutes,
      .counters] P := by exact Can.sub (by assumption) (by decide)) :
    Keeps P z (ackResponses s i next) := by
  unfold ackResponses
  with_reducible repeat' first
    | assumption | exact Can.sub (by assumption) (by decide) | apply setSession_keeps | apply drainAll_keeps
      | apply releaseGrants_keeps | apply leaveLog_keeps

theorem sendPackets_keeps {P : Part → Prop} {z s : State} (h : Keeps P z s) (i) (l)
    (can : Can [.txQueue, .sessions] P := by exact Can.sub (by assumption) (by decide)) :
    Keeps P z (sendPackets i l s) := by
  induction l generalizing s with
  | nil => exact h
  | cons d r ih =>
    unfold sendPackets
    extract_lets x t
    split
    · exact ih (setSession_keeps (pushTx_keeps h ..) ..)
    · exact h

theorem responseSend_keeps {P : Part → Prop} {z s : State} (h : Keeps P z s) (i)
    (can : Can [.txQueue, .sessions] P := by exact Can.sub (by assumption) (by decide)) :
    Keeps P z (responseSend s i) := by
  unfold responseSend
  with_reducible repeat' first | assumption | apply sendPackets_keeps | refine Keeps.ite ?_ (fun _ => ?_) | split

theorem updOut_keeps {P : Part → Prop} {z s : State} (h : Keeps P z s) (k) (g)
    (can : Can [.outs] P := by exact Can.sub (by assumption) (by decide)) : Keeps P z (updOut s k g) := by
  unfold updOut
  with_reducible repeat' first | assumption | split | (refine Keeps.upd ?_ rfl rfl rfl; assumption)

theorem resendOut_keeps {P : Part → Prop} {z s : State} (h : Keeps P z s) (k) (psn)
    (can : Can [.regs, .txQueue, .outs] P := by exact Can.sub (by assumption) (by decide)) :
    Keeps P z (resendOut s k psn) := by
  unfold resendOut
  with_reducible repeat' first
    | assumption | exact Can.sub (by assumption) (by decide) | apply count_keeps | split
      | (refine Keeps.upd ?_ rfl rfl rfl; first | assumption | apply updOut_keeps)

theorem mirrorFails_keeps {P : Part → Prop} {z s : State} (h : Keeps P z s)
    (can : Can [.regs, .jnl] P := by exact Can.sub (by assumption) (by decide)) : Keeps P z (mirrorFails s) := by
  unfold mirrorFails
  with_reducible repeat' first
    | exact Can.sub (by assumption) (by decide) | apply raise_keeps | (refine Keeps.upd ?_ rfl rfl rfl; assumption)

theorem retransmitOut_keeps {P : Part → Prop} {z s : State} (h : Keeps P z s) (k) (psn)
    (can : Can [.regs, .jobs, .dep, .jnl, .txQueue, .sessions, .outs, .arrays, .cores, .hoists, .scatters,
      .chutes] P := by exact Can.sub (by assumption) (by decide)) :
    Keeps P z (retransmitOut s k psn) := by
  unfold retransmitOut
  with_reducible repeat' first
    | assumption | exact Can.sub (by assumption) (by decide) | apply resendOut_keeps | apply mirrorFails_keeps
      | apply abortWork_keeps | refine Keeps.ite ?_ (fun _ => ?_) | split

theorem ackOut_keeps {P : Part → Prop} {z s : State} (h : Keeps P z s) (k) (next) (grants)
    (can : Can [.txQueue, .outs] P := by exact Can.sub (by assumption) (by decide)) :
    Keeps P z (ackOut s k next grants) := by
  unfold ackOut
  with_reducible repeat' first
    | assumption | exact Can.sub (by assumption) (by decide) | apply pumpOut_keeps | apply updOut_keeps

theorem actWrite_keeps {P : Part → Prop} {z s : State} (h : Keeps P z s) (a1)
    (can : Can [.freeCount, .mem, .regs, .allocs, .descs, .graphs, .stages, .jobs, .waits, .voids, .dep, .respLog,
      .lotRing, .jnl, .txQueue, .sessions, .outs, .orphans, .arrays, .cores, .hoists, .scatters, .assays, .chutes,
      .counters] P := by exact Can.sub (by assumption) (by decide)) :
    Keeps P z (actWrite s a1) := by
  unfold actWrite
  with_reducible repeat' first
    | assumption | exact Can.sub (by assumption) (by decide) | apply setSession_keeps | apply drainAll_keeps
      | apply responseWritten_keeps | apply pieceWritten_keeps | split

theorem actWrites_keeps {P : Part → Prop} {z s : State} (h : Keeps P z s)
    (can : Can [.freeCount, .mem, .regs, .allocs, .descs, .graphs, .stages, .jobs, .waits, .voids, .dep, .respLog,
      .lotRing, .jnl, .txQueue, .sessions, .outs, .orphans, .arrays, .cores, .hoists, .scatters, .assays, .chutes,
      .counters] P := by exact Can.sub (by assumption) (by decide)) :
    Keeps P z (actWrites s) := by
  unfold actWrites
  with_reducible repeat' first
    | assumption | apply actWrite_keeps | intro _ _ _ | apply Keeps.foldl
      | (refine Keeps.upd ?_ rfl rfl rfl; assumption)

theorem mirrorAcked_keeps {P : Part → Prop} {z s : State} (h : Keeps P z s) (lsn)
    (can : Can [.freeCount, .mem, .regs, .allocs, .descs, .graphs, .stages, .jobs, .waits, .voids, .dep, .respLog,
      .lotRing, .jnl, .txQueue, .sessions, .outs, .orphans, .arrays, .cores, .hoists, .scatters, .assays, .chutes,
      .counters] P := by exact Can.sub (by assumption) (by decide)) :
    Keeps P z (mirrorAcked s lsn) := by
  unfold mirrorAcked
  with_reducible repeat' first | assumption | apply actWrites_keeps | (refine Keeps.upd ?_ rfl rfl rfl; assumption)

theorem forSender_keeps {P : Part → Prop} {z s : State} {lot : Nat → State → State} {out : Nat → State → State} (h :
    Keeps P z s) (klot : ∀ i s, Keeps P z s → Keeps P z (lot i s)) (kout : ∀ i s, Keeps P z s → Keeps P z (out i s))
    (f) (p)
    (can : Can [.regs] P := by exact Can.sub (by assumption) (by decide)) : Keeps P z (forSender s f p lot out) := by
  unfold forSender
  with_reducible repeat' first
    | assumption | apply klot | apply kout | apply crcError_keeps | apply dropPacket_keeps
      | refine Keeps.ite ?_ (fun _ => ?_) | split

theorem ackPacket_keeps {P : Part → Prop} {z s : State} (h : Keeps P z s) (f) (p)
    (can : Can [.freeCount, .mem, .regs, .allocs, .descs, .graphs, .stages, .jobs, .waits, .voids, .dep, .respLog,
      .lotRing, .jnl, .txQueue, .sessions, .outs, .orphans, .arrays, .cores, .hoists, .scatters, .assays, .chutes,
      .counters] P := by exact Can.sub (by assumption) (by decide)) :
    Keeps P z (ackPacket s f p) := by
  unfold ackPacket
  with_reducible repeat' first
    | assumption | exact Can.sub (by assumption) (by decide) | apply iltFrame_keeps | apply forSender_keeps
      | apply ackResponses_keeps | apply ackOut_keeps | apply mirrorAcked_keeps | refine Keeps.ite ?_ (fun _ => ?_)
      | split | intro _ _ _ | extract_lets | (refine Keeps.of_fst (by assumption) ?_)

theorem nakPacket_keeps {P : Part → Prop} {z s : State} (h : Keeps P z s) (f) (p)
    (can : Can [.freeCount, .mem, .regs, .allocs, .descs, .graphs, .stages, .jobs, .waits, .voids, .dep, .respLog,
      .lotRing, .jnl, .txQueue, .sessions, .outs, .orphans, .arrays, .cores, .hoists, .scatters, .assays, .chutes,
      .counters] P := by exact Can.sub (by assumption) (by decide)) :
    Keeps P z (nakPacket s f p) := by
  unfold nakPacket
  with_reducible repeat' first
    | assumption | exact Can.sub (by assumption) (by decide) | apply iltFrame_keeps | apply forSender_keeps
      | apply retransmit_keeps | apply ackResponses_keeps | apply retransmitOut_keeps | apply ackOut_keeps | split
      | intro _ _ _ | extract_lets | (refine Keeps.of_fst (by assumption) ?_)

theorem tailPacket_keeps {P : Part → Prop} {z s : State} (h : Keeps P z s) (f) (p)
    (can : Can [.regs, .txQueue, .outs] P := by exact Can.sub (by assumption) (by decide)) :
    Keeps P z (tailPacket s f p) := by
  unfold tailPacket
  with_reducible repeat' first
    | assumption | exact Can.sub (by assumption) (by decide) | apply iltFrame_keeps | apply forSender_keeps
      | apply dropPacket_keeps | apply updOut_keeps | apply sendOut_keeps | split | intro _ _ _ | extract_lets
      | (refine Keeps.of_fst (by assumption) ?_)

theorem resumeSession_keeps {P : Part → Prop} {z s : State} (h : Keeps P z s) (i)
    (can : Can [.sessions, .chutes] P := by exact Can.sub (by assumption) (by decide)) :
    Keeps P z (resumeSession s i) := by
  unfold resumeSession
  with_reducible repeat' first
    | assumption | exact Can.sub (by assumption) (by decide) | apply setSession_keeps | apply setEp_keeps
      | refine Keeps.ite ?_ (fun _ => ?_)

theorem resetReceived_keeps {P : Part → Prop} {z s : State} (h : Keeps P z s) (i)
    (can : Can [.regs, .jobs, .dep, .txQueue, .sessions, .outs, .arrays, .cores, .hoists, .scatters, .chutes] P
      := by exact Can.sub (by assumption) (by decide)) :
    Keeps P z (resetReceived s i) := by
  unfold resetReceived
  with_reducible repeat' first
    | assumption | exact Can.sub (by assumption) (by decide) | apply resetHubSession_keeps
      | apply resetChuteOnly_keeps | apply abortWork_keeps | apply resumeSession_keeps | apply setSession_keeps
      | refine Keeps.ite ?_ (fun _ => ?_) | split

theorem resetOutReceived_keeps {P : Part → Prop} {z s : State} (h : Keeps P z s) (k)
    (can : Can [.regs, .jobs, .dep, .txQueue, .sessions, .outs, .arrays, .cores, .hoists, .scatters, .chutes] P
      := by exact Can.sub (by assumption) (by decide)) :
    Keeps P z (resetOutReceived s k) := by
  unfold resetOutReceived
  with_reducible repeat' first
    | assumption | exact Can.sub (by assumption) (by decide) | apply abortWork_keeps | apply updOut_keeps
      | refine Keeps.ite ?_ (fun _ => ?_) | split

theorem resetPacket_keeps {P : Part → Prop} {z s : State} (h : Keeps P z s) (f) (p)
    (can : Can [.regs, .jobs, .dep, .txQueue, .sessions, .outs, .arrays, .cores, .hoists, .scatters, .chutes] P
      := by exact Can.sub (by assumption) (by decide)) :
    Keeps P z (resetPacket s f p) := by
  unfold resetPacket
  with_reducible repeat' first
    | assumption | exact Can.sub (by assumption) (by decide) | apply iltFrame_keeps | apply crcError_keeps
      | apply dropPacket_keeps | apply resetOutReceived_keeps | apply resetReceived_keeps
      | refine Keeps.ite ?_ (fun _ => ?_) | split | extract_lets | (refine Keeps.of_fst (by assumption) ?_)

theorem resetRetryOut_keeps {P : Part → Prop} {z s : State} (h : Keeps P z s) (k)
    (can : Can [.txQueue, .outs] P := by exact Can.sub (by assumption) (by decide)) :
    Keeps P z (resetRetryOut s k) := by
  unfold resetRetryOut
  with_reducible repeat' first
    | assumption | exact Can.sub (by assumption) (by decide) | apply pushTx_keeps | apply updOut_keeps
      | refine Keeps.ite ?_ (fun _ => ?_) | split

theorem chuteResetRetry_keeps {P : Part → Prop} {z s : State} (h : Keeps P z s) (i)
    (can : Can [.txQueue, .sessions, .outs] P := by exact Can.sub (by assumption) (by decide)) :
    Keeps P z (chuteResetRetry s i) := by
  unfold chuteResetRetry
  with_reducible repeat' first
    | assumption | exact Can.sub (by assumption) (by decide) | apply pushTx_keeps | apply setSession_keeps
      | apply resetRetryOut_keeps | refine Keeps.ite ?_ (fun _ => ?_) | intro _ _ _ | apply Keeps.foldl

theorem retransmitTimeout_keeps {P : Part → Prop} {z s : State} (h : Keeps P z s) (i)
    (can : Can [.freeCount, .mem, .regs, .allocs, .descs, .graphs, .stages, .jobs, .waits, .voids, .dep, .respLog,
      .lotRing, .jnl, .txQueue, .sessions, .outs, .orphans, .arrays, .cores, .hoists, .scatters, .assays, .chutes,
      .counters] P := by exact Can.sub (by assumption) (by decide)) :
    Keeps P z (retransmitTimeout s i) := by
  unfold retransmitTimeout
  with_reducible repeat' first
    | assumption | exact Can.sub (by assumption) (by decide) | apply retransmit_keeps | apply retransmitOut_keeps
      | refine Keeps.ite ?_ (fun _ => ?_) | split | intro _ _ _ | apply Keeps.foldl

theorem nakRepeat_keeps {P : Part → Prop} {z s : State} (h : Keeps P z s) (i)
    (can : Can [.regs, .txQueue, .sessions] P := by exact Can.sub (by assumption) (by decide)) :
    Keeps P z (nakRepeat s i) := by
  unfold nakRepeat
  with_reducible repeat' first | assumption | apply sendNakNow_keeps | refine Keeps.ite ?_ (fun _ => ?_)

theorem resyncNak_keeps {P : Part → Prop} {z s : State} (h : Keeps P z s) (i)
    (can : Can [.regs, .txQueue, .sessions] P := by exact Can.sub (by assumption) (by decide)) :
    Keeps P z (resyncNak s i) := by
  unfold resyncNak
  with_reducible repeat' first
    | assumption | exact Can.sub (by assumption) (by decide) | apply sendNakNow_keeps | apply setSession_keeps
      | refine Keeps.ite ?_ (fun _ => ?_)

theorem acceptRecord_keeps {P : Part → Prop} {z s : State} (h : Keeps P z s) (i) (lsn) (n)
    (can : Can [.lotRing] P := by exact Can.sub (by assumption) (by decide)) : Keeps P z (acceptRecord s i lsn n) :=
  h.same rfl rfl rfl rfl

theorem lotAccept_keeps {P : Part → Prop} {z s : State} (h : Keeps P z s) (session)
    (can : Can [.freeCount, .mem, .regs, .allocs, .descs, .graphs, .stages, .jobs, .waits, .voids, .dep, .respLog,
      .lotRing, .jnl, .txQueue, .sessions, .outs, .orphans, .arrays, .cores, .hoists, .scatters, .assays, .chutes,
      .counters] P := by exact Can.sub (by assumption) (by decide)) :
    Keeps P z (lotAccept s session) := by
  unfold lotAccept
  with_reducible repeat' first
    | assumption | exact Can.sub (by assumption) (by decide) | apply setSession_keeps | apply drainAll_keeps
      | apply sendAck_keeps | apply acceptRecord_keeps | refine Keeps.ite ?_ (fun _ => ?_) | split | extract_lets

theorem legSend_keeps {P : Part → Prop} {z s : State} (h : Keeps P z s) (k) (p)
    (can : Can [.txQueue, .outs] P := by exact Can.sub (by assumption) (by decide)) : Keeps P z (legSend s k p) := by
  unfold legSend
  with_reducible repeat' first | assumption | apply sendOut_keeps | refine Keeps.ite ?_ (fun _ => ?_) | split

theorem commitAt_keeps {P : Part → Prop} {z s : State} (h : Keeps P z s) (ep) (p)
    (can : Can [.regs, .jobs, .dep, .txQueue, .sessions, .outs, .arrays, .cores, .hoists, .scatters, .chutes] P
      := by exact Can.sub (by assumption) (by decide)) :
    Keeps P z (commitAt s ep p) := by
  unfold commitAt
  with_reducible repeat' first
    | assumption | exact Can.sub (by assumption) (by decide) | apply packetCommit_keeps | apply legSend_keeps | split

theorem failedWrite_keeps {P : Part → Prop} {z s : State} (h : Keeps P z s) (w)
    (can : Can [.lotRing, .jnl, .txQueue, .sessions, .outs] P := by exact Can.sub (by assumption) (by decide)) :
    Keeps P z (failedWrite s w) := by
  unfold failedWrite
  with_reducible repeat' first
    | assumption | exact Can.sub (by assumption) (by decide) | apply startWrite_keeps | apply pieceFailed_keeps
      | split
      | (refine Keeps.upd ?_ rfl rfl rfl; first | assumption | apply setSession_keeps)

theorem journalWriteDone_keeps {P : Part → Prop} {z s : State} (h : Keeps P z s) (id) (ok0) (ok8)
    (can : Can [.freeCount, .mem, .regs, .allocs, .descs, .graphs, .stages, .jobs, .waits, .voids, .dep, .respLog,
      .lotRing, .jnl, .txQueue, .sessions, .outs, .orphans, .arrays, .cores, .hoists, .scatters, .assays, .chutes,
      .counters] P := by exact Can.sub (by assumption) (by decide)) :
    Keeps P z (journalWriteDone s id ok0 ok8) := by
  unfold journalWriteDone
  with_reducible repeat' first
    | assumption | exact Can.sub (by assumption) (by decide) | apply actWrites_keeps | apply failedWrite_keeps
      | refine Keeps.ite ?_ (fun _ => ?_) | split | (refine Keeps.upd ?_ rfl rfl rfl; assumption)

theorem mirrorAckCmd_keeps {P : Part → Prop} {z s : State} (h : Keeps P z s) (lsn)
    (can : Can [.freeCount, .mem, .regs, .allocs, .descs, .graphs, .stages, .jobs, .waits, .voids, .dep, .respLog,
      .lotRing, .jnl, .txQueue, .sessions, .outs, .orphans, .arrays, .cores, .hoists, .scatters, .assays, .chutes,
      .counters] P := by exact Can.sub (by assumption) (by decide)) :
    Keeps P z (mirrorAckCmd s lsn) := by
  unfold mirrorAckCmd
  with_reducible repeat' first | assumption | apply mirrorAcked_keeps | refine Keeps.ite ?_ (fun _ => ?_)

theorem mirrorRecordCmd_keeps {P : Part → Prop} {z s : State} (h : Keeps P z s) (r)
    (can : Can [.jnl, .txQueue, .sessions] P := by exact Can.sub (by assumption) (by decide)) :
    Keeps P z (mirrorRecordCmd s r) := by
  unfold mirrorRecordCmd
  with_reducible repeat' first
    | assumption | exact Can.sub (by assumption) (by decide) | apply sendAck_keeps | refine Keeps.ite ?_ (fun _ => ?_)
      | split
      | (refine Keeps.upd ?_ rfl rfl rfl; first | assumption | apply setSession_keeps | apply sendAck_keeps | refine Keeps.ite ?_ (fun _ => ?_) | apply Keeps.foldl)
      | extract_lets

theorem helloResponse_keeps {P : Part → Prop} {z s : State} (h : Keeps P z s) (k) (nonce)
    (can : Can [.txQueue, .outs] P := by exact Can.sub (by assumption) (by decide)) :
    Keeps P z (helloResponse s k nonce) := by
  unfold helloResponse
  with_reducible repeat' first
    | assumption | exact Can.sub (by assumption) (by decide) | apply pushTx_keeps | apply updOut_keeps
      | refine Keeps.ite ?_ (fun _ => ?_) | split

theorem resendMirror_keeps {P : Part → Prop} {z s : State} (h : Keeps P z s)
    (can : Can [.txQueue, .outs] P := by exact Can.sub (by assumption) (by decide)) : Keeps P z (resendMirror s) := by
  unfold resendMirror
  with_reducible repeat' first | assumption | apply sendMirror_keeps | intro _ _ _ | apply Keeps.foldl

theorem openResponse_keeps {P : Part → Prop} {z s : State} (h : Keeps P z s) (k) (a)
    (can : Can [.jnl, .txQueue, .sessions, .outs, .chutes] P := by exact Can.sub (by assumption) (by decide)) :
    Keeps P z (openResponse s k a) := by
  unfold openResponse
  with_reducible repeat' first
    | assumption | exact Can.sub (by assumption) (by decide) | apply updOut_keeps | apply releaseGrants_keeps
      | apply resendMirror_keeps | refine Keeps.ite ?_ (fun _ => ?_) | split
      | (refine Keeps.upd ?_ rfl rfl rfl; assumption)

theorem reopenMirror_keeps {P : Part → Prop} {z s : State} (h : Keeps P z s)
    (can : Can [.txQueue, .outs] P := by exact Can.sub (by assumption) (by decide)) : Keeps P z (reopenMirror s) := by
  unfold reopenMirror
  with_reducible repeat' first
    | assumption | exact Can.sub (by assumption) (by decide) | apply pushTx_keeps | apply updOut_keeps
      | apply openOut_keeps | split

theorem mirrorReopen_keeps {P : Part → Prop} {z s : State} (h : Keeps P z s)
    (can : Can [.txQueue, .outs] P := by exact Can.sub (by assumption) (by decide)) : Keeps P z (mirrorReopen s) := by
  unfold mirrorReopen
  with_reducible repeat' first | assumption | apply reopenMirror_keeps | refine Keeps.ite ?_ (fun _ => ?_)

theorem restoreRetry_keeps {P : Part → Prop} {z s : State} (h : Keeps P z s)
    (can : Can [.txQueue, .outs] P := by exact Can.sub (by assumption) (by decide)) : Keeps P z (restoreRetry s) := by
  unfold restoreRetry
  with_reducible repeat' first | assumption | apply reopenMirror_keeps | refine Keeps.ite ?_ (fun _ => ?_)

theorem restoreEntry_keeps {P : Part → Prop} {z s : State} (h : Keeps P z s) (e)
    (can : Can [.allocs, .descs, .graphs, .voids, .dep, .sessions, .chutes] P
      := by exact Can.sub (by assumption) (by decide)) :
    Keeps P z (restoreEntry s e) := by
  unfold restoreEntry
  with_reducible repeat' first
    | assumption | exact Can.sub (by assumption) (by decide) | apply pendFree_keeps | apply dropAllocation_keeps
      | apply setDescSlot_keeps | apply dropDesc_keeps | apply setGraphSlot_keeps | apply setEp_keeps
      | apply setSession_keeps | refine Keeps.ite ?_ (fun _ => ?_) | split
      | (refine Keeps.upd ?_ rfl rfl rfl; assumption) | extract_lets

theorem restoreResponse_keeps {P : Part → Prop} {z s : State} (h : Keeps P z s) (key) (psn) (bytes)
    (can : Can [.respLog, .lotRing, .sessions] P := by exact Can.sub (by assumption) (by decide)) :
    Keeps P z (restoreResponse s key psn bytes) := by
  unfold restoreResponse
  with_reducible repeat' first
    | assumption | exact Can.sub (by assumption) (by decide)
      | (refine Keeps.upd ?_ rfl rfl rfl; first | assumption | apply setSession_keeps)

theorem restoreLot_keeps {P : Part → Prop} {z s : State} (h : Keeps P z s) (b)
    (can : Can [.lotRing, .sessions] P := by exact Can.sub (by assumption) (by decide)) :
    Keeps P z (restoreLot s b) := by
  unfold restoreLot
  with_reducible repeat' first
    | assumption | exact Can.sub (by assumption) (by decide)
      | (refine Keeps.upd ?_ rfl rfl rfl; first | assumption | apply setSession_keeps)

theorem restoreCommit_keeps {P : Part → Prop} {z s : State} (h : Keeps P z s) (b)
    (can : Can [.jobs, .dep, .lotRing, .scatters] P := by exact Can.sub (by assumption) (by decide)) :
    Keeps P z (restoreCommit s b) := by
  unfold restoreCommit
  with_reducible repeat' first
    | assumption | exact Can.sub (by assumption) (by decide) | apply retirePiece_keeps | apply putScatter_keeps
      | refine Keeps.ite ?_ (fun _ => ?_) | split
      | (refine Keeps.upd ?_ rfl rfl rfl; first | assumption | apply retirePiece_keeps | apply putScatter_keeps)

theorem restoreRecord_keeps {P : Part → Prop} {z s : State} (h : Keeps P z s) (r)
    (can : Can [.allocs, .descs, .graphs, .jobs, .voids, .dep, .respLog, .lotRing, .jnl, .sessions, .scatters,
      .chutes] P := by exact Can.sub (by assumption) (by decide)) :
    Keeps P z (restoreRecord s r) := by
  unfold restoreRecord
  extract_lets _ t
  have k : Keeps P z t := h.same rfl rfl rfl rfl
  have resp : ∀ (u : State), Keeps P z u → ∀ (key : Nat) (psn : Word) (b : List Byte) (c : Prop) [Decidable c],
      Keeps P z (if c then u else restoreResponse u key psn b) :=
    fun u k key psn b c _ => Keeps.ite (restoreResponse_keeps k ..) fun _ => k
  split
  · exact restoreLot_keeps k ..
  · exact resp _ (Keeps.ite (restoreEntry_keeps (logTable_keeps k ..) ..) fun _ => k) ..
  · exact resp _ (Keeps.ite (restoreEntry_keeps (logTable_keeps k ..) ..) fun _ => k) ..
  · exact restoreCommit_keeps k ..
  · exact k.same rfl rfl rfl rfl

theorem journalRestore_keeps {P : Part → Prop} {z s : State} (h : Keeps P z s) (records)
    (can : Can [.regs, .allocs, .descs, .graphs, .jobs, .voids, .dep, .respLog, .lotRing, .jnl, .txQueue, .sessions,
      .outs, .arrays, .cores, .hoists, .scatters, .chutes] P := by exact Can.sub (by assumption) (by decide)) :
    Keeps P z (journalRestore s records) := by
  unfold journalRestore
  with_reducible repeat' first
    | assumption | exact Can.sub (by assumption) (by decide) | apply restoreRecord_keeps | apply voidGranules_keeps
      | refine Keeps.ite ?_ (fun _ => ?_) | intro _ _ _
      | (refine Keeps.upd ?_ rfl rfl rfl; first | assumption | apply restoreRecord_keeps | apply voidGranules_keeps | refine Keeps.ite ?_ (fun _ => ?_) | apply Keeps.foldl)

theorem redoPieces_keeps {P : Part → Prop} {z s : State} (h : Keeps P z s) 
    (can : Can [.freeCount, .mem, .regs, .voids, .dep, .jnl, .txQueue, .outs, .cores, .assays] P := by exact Can.sub (by assumption) (by decide)) : Keeps P z (redoPieces s) := by
  unfold redoPieces
  with_reducible repeat' first
    | assumption | exact Can.sub (by assumption) (by decide) | apply count_keeps | apply copyPiece_keeps | apply commitWrite_keeps | refine Keeps.ite ?_ (fun _ => ?_) | split | intro _ _ _ | intro _ _ | apply Keeps.foldl | extract_lets

theorem replaceGraphs_keeps {P : Part → Prop} {z s : State} (h : Keeps P z s)
    (can : Can [.freeCount, .mem, .regs, .graphs, .stages, .voids, .dep, .txQueue, .outs, .cores, .assays,
      .chutes] P := by exact Can.sub (by assumption) (by decide)) :
    Keeps P z (replaceGraphs s) := by
  unfold replaceGraphs
  with_reducible repeat' first
    | assumption | exact Can.sub (by assumption) (by decide) | apply placeGraph_keeps | apply setGraphSlot_keeps
      | split | intro _ _ _ | apply Keeps.foldl

theorem replayRecord_keeps {P : Part → Prop} {z s : State} (h : Keeps P z s) (r)
    (can : Can [.regs, .sessions, .orphans] P := by exact Can.sub (by assumption) (by decide)) :
    Keeps P z (replayRecord s r) := by
  unfold replayRecord
  with_reducible repeat' first
    | assumption | exact Can.sub (by assumption) (by decide) | apply count_keeps | apply setSession_keeps
      | refine Keeps.ite ?_ (fun _ => ?_)
      | (refine Keeps.upd ?_ rfl rfl rfl; first | assumption | apply count_keeps)

theorem restartJobs_keeps {P : Part → Prop} {z s : State} (h : Keeps P z s)
    (can : Can [.jobs] P := by exact Can.sub (by assumption) (by decide)) : Keeps P z (restartJobs s) :=
  h.same rfl rfl rfl rfl

theorem resyncSession_keeps {P : Part → Prop} {z s : State} (h : Keeps P z s) (i)
    (can : Can [.regs, .txQueue, .sessions] P := by exact Can.sub (by assumption) (by decide)) :
    Keeps P z (resyncSession s i) := by
  unfold resyncSession
  with_reducible repeat' first
    | assumption | exact Can.sub (by assumption) (by decide) | apply sendNakNow_keeps | apply setSession_keeps
      | refine Keeps.ite ?_ (fun _ => ?_)

theorem journalReplay_keeps {P : Part → Prop} {z s : State} (h : Keeps P z s)
    (can : Can [.freeCount, .mem, .regs, .allocs, .descs, .graphs, .stages, .jobs, .waits, .voids, .dep, .respLog,
      .lotRing, .jnl, .txQueue, .sessions, .outs, .orphans, .arrays, .cores, .hoists, .scatters, .assays, .chutes,
      .counters] P := by exact Can.sub (by assumption) (by decide)) :
    Keeps P z (journalReplay s) := by
  unfold journalReplay
  with_reducible repeat' first
    | assumption | exact Can.sub (by assumption) (by decide) | apply replaceGraphs_keeps | apply redoPieces_keeps
      | apply restartJobs_keeps | apply replayRecord_keeps | apply resyncSession_keeps | apply raise_keeps
      | apply drainAll_keeps | refine Keeps.ite ?_ (fun _ => ?_) | intro _ _ _ | apply Keeps.foldl
      | (refine Keeps.upd ?_ rfl rfl rfl; first | assumption | apply replaceGraphs_keeps | apply redoPieces_keeps | apply restartJobs_keeps | apply replayRecord_keeps | apply resyncSession_keeps | apply raise_keeps | apply drainAll_keeps | refine Keeps.ite ?_ (fun _ => ?_) | apply Keeps.foldl)

theorem setNor_keeps {P : Part → Prop} {z s : State} (h : Keeps P z s) (b) (a) (bs)
    (can : Can [.nor] P := by exact Can.sub (by assumption) (by decide)) :
    Keeps P z (setNor s b (norStore (norOf s b) a bs)) := by
  cases b
  · exact h.of rfl (fun i => { i with norA := norStore_wf _ _ i.norA }) (fixed_same (fixed_refl _) rfl)
  · exact h.of rfl (fun i => { i with norB := norStore_wf _ _ i.norB }) (fixed_same (fixed_refl _) rfl)

theorem writeOwner_keeps {P : Part → Prop} {z s : State} (h : Keeps P z s) (b)
    (can : Can [.nor] P := by exact Can.sub (by assumption) (by decide)) : Keeps P z (writeOwner s b) :=
  setNor_keeps (setNor_keeps h ..) ..

theorem checkOwner_keeps {P : Part → Prop} {z s : State} (h : Keeps P z s)
    (can : Can [.nor, .owner] P := by exact Can.sub (by assumption) (by decide)) : Keeps P z (checkOwner s) := by
  unfold checkOwner
  with_reducible repeat' first
    | assumption | exact Can.sub (by assumption) (by decide) | refine Keeps.ite ?_ (fun _ => ?_) | split
      | (refine Keeps.upd ?_ rfl rfl rfl; first | assumption | apply writeOwner_keeps)

theorem noteUser_keeps {P : Part → Prop} {z s : State} (h : Keeps P z s) (applied) (code)
    (can : Can [.pwr] P := by exact Can.sub (by assumption) (by decide)) : Keeps P z (noteUser s applied code) :=
  h.same rfl rfl rfl rfl

theorem applyConfig_keeps {P : Part → Prop} {z s : State} (h : Keeps P z s) (sig)
    (can : Can [.pwr] P := by exact Can.sub (by assumption) (by decide)) : Keeps P z (applyConfig s sig) := by
  unfold applyConfig
  with_reducible repeat' first
    | assumption | refine Keeps.ite ?_ (fun _ => ?_) | split
      | (refine Keeps.upd ?_ rfl rfl rfl; first | assumption | apply noteUser_keeps | refine Keeps.ite ?_ (fun _ => ?_) | apply Keeps.foldl)
      | extract_lets

theorem loadReplica_keeps {P : Part → Prop} {z s : State} (h : Keeps P z s) (d)
    (can : Can [.clk] P := by exact Can.sub (by assumption) (by decide)) : Keeps P z (loadReplica s d) := by
  unfold loadReplica
  with_reducible repeat' first | assumption | split | (refine Keeps.upd ?_ rfl rfl rfl; assumption)

theorem releaseDomain_keeps {P : Part → Prop} {z s : State} (h : Keeps P z s) (d)
    (can : Can [.doms, .clk] P := by exact Can.sub (by assumption) (by decide)) : Keeps P z (releaseDomain s d) := by
  unfold releaseDomain
  with_reducible repeat' first
    | assumption | exact Can.sub (by assumption) (by decide) | apply loadReplica_keeps | apply setDom_keeps
      | refine Keeps.ite ?_ (fun _ => ?_)

theorem startDomain_keeps {P : Part → Prop} {z s : State} (h : Keeps P z s) (d)
    (can : Can [.doms, .clk] P := by exact Can.sub (by assumption) (by decide)) : Keeps P z (startDomain s d) := by
  unfold startDomain
  with_reducible repeat' first
    | assumption | exact Can.sub (by assumption) (by decide) | apply releaseDomain_keeps | apply setDom_keeps
      | refine Keeps.ite ?_ (fun _ => ?_)

theorem powerOff_keeps {P : Part → Prop} {z s : State} (h : Keeps P z s)
    (can : Can [.mem, .regs, .doms, .time, .clk, .owner, .image, .att, .temps, .pwr, .allocs, .descs, .graphs,
      .stages, .jobs, .waits, .fences, .voids, .dep, .respLog, .lotRing, .jnl, .txQueue, .sessions, .outs, .orphans,
      .nonces, .mgmt, .port, .arrays, .cores, .adits, .hoists, .scatters, .assays, .chans, .links, .chutes, .hops,
      .counters, .cals] P := by exact Can.sub (by assumption) (by decide)) :
    Keeps P z (powerOff s) :=
  h.of rfl (fun i => ⟨nil_wf, i.norA, i.norB, Nat.zero_le _, Nat.zero_le _⟩) (fixed_same (fixed_refl _) rfl)

theorem startKindOf_keeps {P : Part → Prop} {z s : State} (h : Keeps P z s) (a1)
    (can : Can [.freeCount] P := by exact Can.sub (by assumption) (by decide)) : Keeps P z (startKindOf s a1).2 := by
  unfold startKindOf
  with_reducible repeat' first | assumption | apply drawChoice_keeps | split

theorem keepDclkRegs_keeps {P : Part → Prop} {z s : State} (h : Keeps P z s)
    (can : Can [.regs] P := by exact Can.sub (by assumption) (by decide)) : Keeps P z (keepDclkRegs s) :=
  h.same rfl rfl rfl rfl

theorem countResets_keeps {P : Part → Prop} {z s : State} (h : Keeps P z s)
    (can : Can [.regs] P := by exact Can.sub (by assumption) (by decide)) : Keeps P z (countResets s) := by
  unfold countResets
  with_reducible repeat' first | assumption | apply countReset_keeps | intro _ _ _ | apply Keeps.foldl

theorem warmReset_keeps {P : Part → Prop} {z s : State} (h : Keeps P z s) (cause)
    (can : Can [.freeCount, .mem, .regs, .doms, .clk, .nor, .owner, .image, .att, .temps, .pwr, .allocs, .descs,
      .graphs, .stages, .jobs, .waits, .fences, .voids, .dep, .respLog, .lotRing, .jnl, .txQueue, .sessions, .outs,
      .orphans, .nonces, .mgmt, .port, .arrays, .cores, .adits, .hoists, .scatters, .assays, .chans, .links,
      .chutes, .hops, .counters, .cals] P := by exact Can.sub (by assumption) (by decide)) :
    Keeps P z (warmReset s cause) := by
  unfold warmReset
  extract_lets r t u clk port
  have k : Keeps P z t := keepDclkRegs_keeps (countResets_keeps (startKindOf_keeps h cause))
  have k : Keeps P z u := raiseIf_keeps k ..
  exact k.of rfl (fun i => ⟨filter_wf _ i.mem, i.norA, i.norB, Nat.zero_le _, i.announced⟩) (fixed_same (fixed_refl _) rfl)

theorem warmIf_keeps {P : Part → Prop} {z s : State} (h : Keeps P z s) (cause)
    (can : Can [.freeCount, .mem, .regs, .doms, .clk, .nor, .owner, .image, .att, .temps, .pwr, .allocs, .descs,
      .graphs, .stages, .jobs, .waits, .fences, .voids, .dep, .respLog, .lotRing, .jnl, .txQueue, .sessions, .outs,
      .orphans, .nonces, .mgmt, .port, .arrays, .cores, .adits, .hoists, .scatters, .assays, .chans, .links,
      .chutes, .hops, .counters, .cals] P := by exact Can.sub (by assumption) (by decide)) :
    Keeps P z (warmIf s cause) := by
  unfold warmIf
  with_reducible repeat' first | assumption | apply warmReset_keeps | refine Keeps.ite ?_ (fun _ => ?_)

theorem abandonIn_keeps {P : Part → Prop} {z s : State} (h : Keeps P z s) (d)
    (can : Can [.regs, .txQueue, .mgmt] P := by exact Can.sub (by assumption) (by decide)) : Keeps P z (abandonIn s d) := by
  unfold abandonIn
  with_reducible repeat' first
    | assumption | exact Can.sub (by assumption) (by decide) | apply settleQueue_keeps | apply abandonHeld_keeps | refine Keeps.ite ?_ (fun _ => ?_) | split | intro _ _ _ | intro _ _ | apply Keeps.foldl | extract_lets

theorem domainStart_keeps {P : Part → Prop} {z s : State} (h : Keeps P z s) (d)
    (can : Can [.doms, .clk] P := by exact Can.sub (by assumption) (by decide)) : Keeps P z (domainStart s d) := by
  unfold domainStart
  with_reducible repeat' first | assumption | apply startDomain_keeps | refine Keeps.ite ?_ (fun _ => ?_)

theorem domainResetAssert_keeps {P : Part → Prop} {z s : State} (h : Keeps P z s) (d) (dropped)
    (can : Can [.regs, .doms, .jobs, .dep, .txQueue, .sessions, .outs, .mgmt, .port, .arrays, .cores, .adits, .hoists, .scatters, .chans, .links, .chutes, .hops, .counters] P := by exact Can.sub (by assumption) (by decide)) : Keeps P z (domainResetAssert s d dropped) := by
  unfold domainResetAssert
  with_reducible repeat' first
    | assumption | exact Can.sub (by assumption) (by decide) | apply abandonIn_keeps | apply domainReset_keeps | refine Keeps.ite ?_ (fun _ => ?_) | split | intro _ _ _ | intro _ _ | apply Keeps.foldl | extract_lets

theorem pllLost_keeps {P : Part → Prop} {z s : State} (h : Keeps P z s) (d) (dropped)
    (can : Can [.regs, .doms, .jobs, .dep, .txQueue, .sessions, .outs, .mgmt, .port, .arrays, .cores, .adits, .hoists, .scatters, .chans, .links, .chutes, .hops, .counters] P := by exact Can.sub (by assumption) (by decide)) : Keeps P z (pllLost s d dropped) := by
  unfold pllLost
  with_reducible repeat' first
    | assumption | exact Can.sub (by assumption) (by decide) | apply abandonIn_keeps | apply domainHalt_keeps | refine Keeps.ite ?_ (fun _ => ?_) | split | intro _ _ _ | intro _ _ | apply Keeps.foldl | extract_lets

theorem pllUnlock_keeps {P : Part → Prop} {z s : State} (h : Keeps P z s) (m) (d) (dropped)
    (can : Can [.freeCount, .regs, .doms, .graphs, .jobs, .fences, .voids, .dep, .jnl, .txQueue, .sessions, .outs, .mgmt, .port, .arrays, .cores, .adits, .hoists, .scatters, .chans, .links, .chutes, .hops, .counters] P := by exact Can.sub (by assumption) (by decide)) : Keeps P z (pllUnlock s m d dropped) := by
  unfold pllUnlock
  with_reducible repeat' first
    | assumption | exact Can.sub (by assumption) (by decide) | apply pllLost_keeps | apply raise_keeps | apply endRecovery_keeps | apply reportFault_keeps | refine Keeps.ite ?_ (fun _ => ?_) | split | intro _ _ _ | intro _ _ | apply Keeps.foldl | extract_lets

theorem setTries_keeps {P : Part → Prop} {z s : State} (h : Keeps P z s) (fclk) (n)
    (can : Can [.clk] P := by exact Can.sub (by assumption) (by decide)) : Keeps P z (setTries s fclk n) := by
  unfold setTries
  with_reducible repeat' first | refine Keeps.ite ?_ (fun _ => ?_) | (refine Keeps.upd ?_ rfl rfl rfl; assumption)

theorem hubPllUnlock_keeps {P : Part → Prop} {z s : State} (h : Keeps P z s) (fclk) (dropped)
    (can : Can [.regs, .clk, .doms, .jobs, .dep, .txQueue, .sessions, .outs, .mgmt, .port, .arrays, .cores, .adits, .hoists, .scatters, .chans, .links, .chutes, .hops, .counters] P := by exact Can.sub (by assumption) (by decide)) : Keeps P z (hubPllUnlock s fclk dropped) := by
  unfold hubPllUnlock
  with_reducible repeat' first
    | assumption | exact Can.sub (by assumption) (by decide) | apply pllLost_keeps | apply raise_keeps | apply setTries_keeps | apply logFault_keeps | refine Keeps.ite ?_ (fun _ => ?_) | split | intro _ _ _ | intro _ _ | apply Keeps.foldl | extract_lets

theorem hubPllRestart_keeps {P : Part → Prop} {z s : State} (h : Keeps P z s) (fclk) (locks)
    (can : Can [.freeCount, .regs, .doms, .clk, .graphs, .jobs, .fences, .voids, .dep, .jnl, .txQueue, .sessions,
      .outs, .port, .arrays, .cores, .adits, .hoists, .scatters, .chans, .links, .chutes, .hops, .counters] P
      := by exact Can.sub (by assumption) (by decide)) :
    Keeps P z (hubPllRestart s fclk locks) := by
  unfold hubPllRestart
  with_reducible repeat' first
    | assumption | exact Can.sub (by assumption) (by decide) | apply startDomain_keeps | apply setTries_keeps
      | apply resyncSession_keeps | apply reportFault_keeps | refine Keeps.ite ?_ (fun _ => ?_) | intro _ _ _
      | apply Keeps.foldl

theorem dclkUnlock_keeps {P : Part → Prop} {z s : State} (h : Keeps P z s)
    (can : Can [.freeCount, .mem, .regs, .doms, .clk, .nor, .owner, .image, .att, .temps, .pwr, .allocs, .descs,
      .graphs, .stages, .jobs, .waits, .fences, .voids, .dep, .respLog, .lotRing, .jnl, .txQueue, .sessions, .outs,
      .orphans, .nonces, .mgmt, .port, .arrays, .cores, .adits, .hoists, .scatters, .assays, .chans, .links,
      .chutes, .hops, .counters, .cals] P := by exact Can.sub (by assumption) (by decide)) :
    Keeps P z (dclkUnlock s) := by
  unfold dclkUnlock
  with_reducible repeat' first
    | assumption | apply warmIf_keeps | refine Keeps.ite ?_ (fun _ => ?_)
      | (refine Keeps.upd ?_ rfl rfl rfl; assumption)

theorem dclkTimeout_keeps {P : Part → Prop} {z s : State} (h : Keeps P z s)
    (can : Can [.clk] P := by exact Can.sub (by assumption) (by decide)) : Keeps P z (dclkTimeout s) := by
  unfold dclkTimeout
  with_reducible repeat' first
    | assumption | refine Keeps.ite ?_ (fun _ => ?_) | (refine Keeps.upd ?_ rfl rfl rfl; assumption)

theorem replicaCompare_keeps {P : Part → Prop} {z s : State} (h : Keeps P z s) (k) (reading)
    (can : Can [.regs, .clk] P := by exact Can.sub (by assumption) (by decide)) :
    Keeps P z (replicaCompare s k reading) := by
  unfold replicaCompare
  with_reducible repeat' first
    | assumption | exact Can.sub (by assumption) (by decide) | apply raise_keeps | refine Keeps.ite ?_ (fun _ => ?_)
      | split | (refine Keeps.upd ?_ rfl rfl rfl; assumption)

theorem grantClass_keeps {P : Part → Prop} {z s : State} (h : Keeps P z s) (x)
    (can : Can [.freeCount] P := by exact Can.sub (by assumption) (by decide)) : Keeps P z (grantClass s x).2 := by
  unfold grantClass
  extract_lets waiting due
  split
  · exact h
  · exact chooseOf_keeps h ..

theorem checkWord_keeps {P : Part → Prop} {z s : State} (h : Keeps P z s) (c) (e)
    (can : Can [.freeCount, .regs, .doms, .graphs, .jobs, .fences, .voids, .dep, .jnl, .txQueue, .sessions, .outs, .port, .arrays, .cores, .adits, .hoists, .scatters, .chans, .links, .chutes, .hops, .counters] P := by exact Can.sub (by assumption) (by decide)) : Keeps P z (checkWord c s e) := by
  unfold checkWord
  with_reducible repeat' first
    | assumption | exact Can.sub (by assumption) (by decide) | apply setChan_keeps | apply count_keeps | apply raise_keeps | apply reportFault_keeps | apply dramUe_keeps | refine Keeps.ite ?_ (fun _ => ?_) | split | intro _ _ _ | intro _ _ | apply Keeps.foldl | extract_lets

theorem poisonGroup_keeps {P : Part → Prop} {z s : State} (h : Keeps P z s) (u)
    (can : Can [.regs, .jobs, .dep, .adits, .counters] P := by exact Can.sub (by assumption) (by decide)) : Keeps P z (poisonGroup s u) := by
  unfold poisonGroup
  with_reducible repeat' first
    | assumption | exact Can.sub (by assumption) (by decide) | apply abortGroup_keeps | refine Keeps.ite ?_ (fun _ => ?_) | split | intro _ _ _ | intro _ _ | apply Keeps.foldl | extract_lets

theorem finishRequest_keeps {P : Part → Prop} {z s : State} (h : Keeps P z s) (c) (r) (bad)
    (can : Can [.mem, .regs, .jobs, .voids, .dep, .txQueue, .sessions, .outs, .arrays, .cores, .adits, .hoists, .scatters, .assays, .chans, .chutes, .counters] P := by exact Can.sub (by assumption) (by decide)) : Keeps P z (finishRequest s c r bad) := by
  unfold finishRequest
  with_reducible repeat' first
    | assumption | exact Can.sub (by assumption) (by decide) | apply writePart_keeps | apply deliverRead_keeps | apply poisonGroup_keeps | refine Keeps.ite ?_ (fun _ => ?_) | split | intro _ _ _ | intro _ _ | apply Keeps.foldl | extract_lets

theorem serveSlot_keeps {P : Part → Prop} {z s : State} (h : Keeps P z s) (c) (errors) (i) (r)
    (can : Can [.freeCount, .mem, .regs, .doms, .graphs, .jobs, .fences, .voids, .dep, .jnl, .txQueue, .sessions, .outs, .port, .arrays, .cores, .adits, .hoists, .scatters, .assays, .chans, .links, .chutes, .hops, .counters] P := by exact Can.sub (by assumption) (by decide)) : Keeps P z (serveSlot s c errors i r) := by
  unfold serveSlot
  with_reducible repeat' first
    | assumption | exact Can.sub (by assumption) (by decide) | apply count_keeps | apply setChan_keeps | apply checkWord_keeps | apply finishRequest_keeps | refine Keeps.ite ?_ (fun _ => ?_) | split | intro _ _ _ | intro _ _ | apply Keeps.foldl | extract_lets

theorem idleSlotOf_keeps {P : Part → Prop} {z s : State} (h : Keeps P z s) (c)
    (can : Can [.regs, .chans] P := by exact Can.sub (by assumption) (by decide)) : Keeps P z (idleSlotOf s c) := by
  unfold idleSlotOf
  with_reducible repeat' first
    | assumption | exact Can.sub (by assumption) (by decide) | apply count_keeps | apply setChan_keeps | refine Keeps.ite ?_ (fun _ => ?_) | split | intro _ _ _ | intro _ _ | apply Keeps.foldl | extract_lets

theorem dramGrant_keeps {P : Part → Prop} {z s : State} (h : Keeps P z s) (c) (errors)
    (can : Can [.freeCount, .mem, .regs, .doms, .graphs, .jobs, .fences, .voids, .dep, .jnl, .txQueue, .sessions, .outs, .port, .arrays, .cores, .adits, .hoists, .scatters, .assays, .chans, .links, .chutes, .hops, .counters] P := by exact Can.sub (by assumption) (by decide)) : Keeps P z (dramGrant s c errors) := by
  unfold dramGrant
  with_reducible repeat' first
    | assumption | exact Can.sub (by assumption) (by decide) | apply grantClass_keeps | apply serveSlot_keeps | apply idleSlotOf_keeps | refine Keeps.ite ?_ (fun _ => ?_) | split | intro _ _ _ | intro _ _ | apply Keeps.foldl | extract_lets

theorem scrubWord_keeps {P : Part → Prop} {z s : State} (h : Keeps P z s) (c)
    (can : Can [.chans] P := by exact Can.sub (by assumption) (by decide)) : Keeps P z (scrubWord s c) := by
  unfold scrubWord
  with_reducible repeat' first
    | assumption | exact Can.sub (by assumption) (by decide) | apply setChan_keeps | refine Keeps.ite ?_ (fun _ => ?_) | split | intro _ _ _ | intro _ _ | apply Keeps.foldl | extract_lets

theorem refreshBank_keeps {P : Part → Prop} {z s : State} (h : Keeps P z s) (c)
    (can : Can [.chans] P := by exact Can.sub (by assumption) (by decide)) : Keeps P z (refreshBank s c) := by
  unfold refreshBank
  with_reducible repeat' first | assumption | apply setChan_keeps | refine Keeps.ite ?_ (fun _ => ?_)

theorem grantLink_keeps {P : Part → Prop} {z s : State} (h : Keeps P z s) (seam) (d) (c)
    (can : Can [.regs, .links] P := by exact Can.sub (by assumption) (by decide)) : Keeps P z (grantLink s seam d c) := by
  unfold grantLink
  with_reducible repeat' first
    | assumption | exact Can.sub (by assumption) (by decide) | apply count_keeps | refine Keeps.ite ?_ (fun _ => ?_) | split | intro _ _ _ | intro _ _ | apply Keeps.foldl | (refine Keeps.upd ?_ rfl rfl rfl) | extract_lets

theorem crossLink_keeps {P : Part → Prop} {z s : State} (h : Keeps P z s) (seam) (d) (waiting) (ecc)
    (can : Can [.regs, .links] P := by exact Can.sub (by assumption) (by decide)) : Keeps P z (crossLink s seam d waiting ecc) := by
  unfold crossLink
  with_reducible repeat' first
    | assumption | exact Can.sub (by assumption) (by decide) | apply grantLink_keeps | apply count_keeps | refine Keeps.ite ?_ (fun _ => ?_) | split | intro _ _ _ | intro _ _ | apply Keeps.foldl | extract_lets

theorem faultEvent_keeps {P : Part → Prop} {z s : State} (h : Keeps P z s) (r)
    (can : Can [.freeCount, .regs, .doms, .graphs, .jobs, .fences, .voids, .dep, .jnl, .txQueue, .sessions, .outs,
      .port, .arrays, .cores, .adits, .hoists, .scatters, .chans, .links, .chutes, .hops, .counters] P
      := by exact Can.sub (by assumption) (by decide)) :
    Keeps P z (faultEvent s r) := by
  unfold faultEvent
  with_reducible repeat' first | assumption | apply reportFault_keeps | refine Keeps.ite ?_ (fun _ => ?_)

theorem heldJobResume_keeps {P : Part → Prop} {z s : State} (h : Keeps P z s) (key)
    (can : Can [.jobs] P := by exact Can.sub (by assumption) (by decide)) : Keeps P z (heldJobResume s key) := by
  unfold heldJobResume
  with_reducible repeat' first | assumption | apply updJob_keeps | refine Keeps.ite ?_ (fun _ => ?_) | split

theorem coreStallTimeout_keeps {P : Part → Prop} {z s : State} (h : Keeps P z s) (c)
    (can : Can [.freeCount, .regs, .doms, .graphs, .jobs, .fences, .dep, .txQueue, .sessions, .outs, .port, .arrays,
      .cores, .adits, .hoists, .scatters, .chans, .links, .chutes, .hops, .counters] P
      := by exact Can.sub (by assumption) (by decide)) :
    Keeps P z (coreStallTimeout s c) := by
  unfold coreStallTimeout
  with_reducible repeat' first | assumption | apply fenceCore_keeps | refine Keeps.ite ?_ (fun _ => ?_)

theorem arrayTestPeriodic_keeps {P : Part → Prop} {z s : State} (h : Keeps P z s) (a)
    (can : Can [.arrays] P := by exact Can.sub (by assumption) (by decide)) : Keeps P z (arrayTestPeriodic s a) := by
  unfold arrayTestPeriodic
  with_reducible repeat' first | assumption | apply setArray_keeps | refine Keeps.ite ?_ (fun _ => ?_)

theorem arrayTestDone_keeps {P : Part → Prop} {z s : State} (h : Keeps P z s) (a) (failing)
    (can : Can [.freeCount, .regs, .doms, .graphs, .jobs, .fences, .voids, .dep, .jnl, .txQueue, .sessions, .outs,
      .port, .arrays, .cores, .adits, .hoists, .scatters, .chans, .links, .chutes, .hops, .counters] P
      := by exact Can.sub (by assumption) (by decide)) :
    Keeps P z (arrayTestDone s a failing) := by
  unfold arrayTestDone
  with_reducible repeat' first
    | assumption | exact Can.sub (by assumption) (by decide) | apply count_keeps | apply setArray_keeps
      | apply reportFault_keeps | apply raise_keeps | refine Keeps.ite ?_ (fun _ => ?_)

theorem powerOn_keeps {P : Part → Prop} {z s : State} (h : Keeps P z s)
    (can : Can [.regs, .pwr] P := by exact Can.sub (by assumption) (by decide)) : Keeps P z (powerOn s) := by
  unfold powerOn
  with_reducible repeat' first
    | assumption | exact Can.sub (by assumption) (by decide) | apply setRawReg_keeps
      | refine Keeps.ite ?_ (fun _ => ?_) | (refine Keeps.upd ?_ rfl rfl rfl; assumption)

theorem inputVoltage_keeps {P : Part → Prop} {z s : State} (h : Keeps P z s) (cv)
    (can : Can [.regs] P := by exact Can.sub (by assumption) (by decide)) : Keeps P z (inputVoltage s cv) := by
  unfold inputVoltage
  with_reducible repeat' first
    | assumption | apply setRawField_keeps | apply raiseIf_keeps | refine Keeps.ite ?_ (fun _ => ?_)

theorem shutdown_keeps {P : Part → Prop} {z s : State} (h : Keeps P z s) (cv) (ca) (ns)
    (can : Can [.mem, .regs, .doms, .time, .clk, .owner, .image, .att, .temps, .pwr, .allocs, .descs, .graphs,
      .stages, .jobs, .waits, .fences, .voids, .dep, .respLog, .lotRing, .jnl, .txQueue, .sessions, .outs, .orphans,
      .nonces, .mgmt, .port, .arrays, .cores, .adits, .hoists, .scatters, .assays, .chans, .links, .chutes, .hops,
      .counters, .cals] P := by exact Can.sub (by assumption) (by decide)) :
    Keeps P z (shutdown s cv ca ns) := by
  unfold shutdown
  with_reducible repeat' first | assumption | apply powerOff_keeps | refine Keeps.ite ?_ (fun _ => ?_)

theorem mateRemoval_keeps {P : Part → Prop} {z s : State} (h : Keeps P z s)
    (can : Can [.mem, .regs, .doms, .time, .clk, .owner, .image, .att, .temps, .pwr, .allocs, .descs, .graphs,
      .stages, .jobs, .waits, .fences, .voids, .dep, .respLog, .lotRing, .jnl, .txQueue, .sessions, .outs, .orphans,
      .nonces, .mgmt, .port, .arrays, .cores, .adits, .hoists, .scatters, .assays, .chans, .links, .chutes, .hops,
      .counters, .cals] P := by exact Can.sub (by assumption) (by decide)) :
    Keeps P z (mateRemoval s) := by
  unfold mateRemoval
  with_reducible repeat' first
    | assumption
      | (refine Keeps.upd ?_ rfl rfl rfl; first | assumption | apply powerOff_keeps)

theorem noteHot_keeps {P : Part → Prop} {z s : State} (h : Keeps P z s) (t) (m)
    (can : Can [.regs] P := by exact Can.sub (by assumption) (by decide)) : Keeps P z (noteHot t s m) := by
  unfold noteHot
  with_reducible repeat' first | assumption | apply raiseIf_keeps

theorem temperatureSample_keeps {P : Part → Prop} {z s : State} (h : Keeps P z s) (t)
    (can : Can [.mem, .regs, .doms, .time, .clk, .owner, .image, .att, .temps, .pwr, .allocs, .descs, .graphs,
      .stages, .jobs, .waits, .fences, .voids, .dep, .respLog, .lotRing, .jnl, .txQueue, .sessions, .outs, .orphans,
      .nonces, .mgmt, .port, .arrays, .cores, .adits, .hoists, .scatters, .assays, .chans, .links, .chutes, .hops,
      .counters, .cals] P := by exact Can.sub (by assumption) (by decide)) :
    Keeps P z (temperatureSample s t) := by
  unfold temperatureSample
  with_reducible repeat' first
    | assumption | exact Can.sub (by assumption) (by decide) | apply powerOff_keeps | apply raiseIf_keeps
      | apply noteHot_keeps | apply updateBand_keeps | refine Keeps.ite ?_ (fun _ => ?_) | intro _ _ _
      | apply Keeps.foldl | (refine Keeps.upd ?_ rfl rfl rfl; assumption)

theorem tripLatchClear_keeps {P : Part → Prop} {z s : State} (h : Keeps P z s)
    (can : Can [.pwr] P := by exact Can.sub (by assumption) (by decide)) : Keeps P z (tripLatchClear s) := by
  unfold tripLatchClear
  with_reducible repeat' first
    | assumption | refine Keeps.ite ?_ (fun _ => ?_) | (refine Keeps.upd ?_ rfl rfl rfl; assumption)

theorem resetNAssert_keeps {P : Part → Prop} {z s : State} (h : Keeps P z s) (ns)
    (can : Can [.freeCount, .mem, .regs, .doms, .clk, .nor, .owner, .image, .att, .temps, .pwr, .allocs, .descs,
      .graphs, .stages, .jobs, .waits, .fences, .voids, .dep, .respLog, .lotRing, .jnl, .txQueue, .sessions, .outs,
      .orphans, .nonces, .mgmt, .port, .arrays, .cores, .adits, .hoists, .scatters, .assays, .chans, .links,
      .chutes, .hops, .counters, .cals] P := by exact Can.sub (by assumption) (by decide)) :
    Keeps P z (resetNAssert s ns) := by
  unfold resetNAssert
  with_reducible repeat' first
    | assumption | apply warmIf_keeps | refine Keeps.ite ?_ (fun _ => ?_)
      | (refine Keeps.upd ?_ rfl rfl rfl; assumption)

theorem toStep_keeps {P : Part → Prop} {z s : State} (h : Keeps P z s) (n)
    (can : Can [.pwr] P := by exact Can.sub (by assumption) (by decide)) : Keeps P z (toStep s n) :=
  h.same rfl rfl rfl rfl

theorem toRescue_keeps {P : Part → Prop} {z s : State} (h : Keeps P z s)
    (can : Can [.pwr] P := by exact Can.sub (by assumption) (by decide)) : Keeps P z (toRescue s) := by
  unfold toRescue
  with_reducible repeat' first | assumption | apply toStep_keeps | (refine Keeps.upd ?_ rfl rfl rfl; assumption)

theorem startStep2_keeps {P : Part → Prop} {z s : State} (h : Keeps P z s)
    (can : Can [.clk, .pwr] P := by exact Can.sub (by assumption) (by decide)) : Keeps P z (startStep2 s) := by
  unfold startStep2
  with_reducible repeat' first
    | assumption | exact Can.sub (by assumption) (by decide) | apply toStep_keeps | refine Keeps.ite ?_ (fun _ => ?_)
      | (refine Keeps.upd ?_ rfl rfl rfl; assumption)

theorem startStep3_keeps {P : Part → Prop} {z s : State} (h : Keeps P z s) (f)
    (can : Can [.pwr] P := by exact Can.sub (by assumption) (by decide)) : Keeps P z (startStep3 s f) := by
  unfold startStep3
  extract_lets a _ t
  have k : Keeps P z t := h.same rfl rfl rfl rfl
  split
  · refine toStep_keeps ?_ ..
    exact h.same rfl rfl rfl rfl
  split
  · refine toStep_keeps ?_ ..
    exact k.same rfl rfl rfl rfl
  · exact toRescue_keeps k

theorem settleMirror_keeps {P : Part → Prop} {z s : State} (h : Keeps P z s)
    (can : Can [.jnl] P := by exact Can.sub (by assumption) (by decide)) : Keeps P z (settleMirror s) := by
  unfold settleMirror
  with_reducible repeat' first
    | assumption | refine Keeps.ite ?_ (fun _ => ?_) | (refine Keeps.upd ?_ rfl rfl rfl; assumption)

theorem startStep4_keeps {P : Part → Prop} {z s : State} (h : Keeps P z s) (f)
    (can : Can [.nor, .owner, .pwr, .jnl] P := by exact Can.sub (by assumption) (by decide)) :
    Keeps P z (startStep4 s f) := by
  unfold startStep4
  with_reducible repeat' first
    | assumption | exact Can.sub (by assumption) (by decide) | apply checkOwner_keeps | apply toStep_keeps
      | apply settleMirror_keeps | apply applyConfig_keeps | refine Keeps.ite ?_ (fun _ => ?_)
      | (refine Keeps.upd ?_ rfl rfl rfl; assumption)

theorem initCal_keeps {P : Part → Prop} {z s : State} (h : Keeps P z s) (m)
    (can : Can [.cals] P := by exact Can.sub (by assumption) (by decide)) : Keeps P z (initCal s m) := by
  unfold initCal
  with_reducible repeat' first | assumption | apply setCal_keeps

theorem startStep5_keeps {P : Part → Prop} {z s : State} (h : Keeps P z s)
    (can : Can [.regs, .doms, .clk, .pwr, .jobs, .dep, .txQueue, .sessions, .outs, .port, .arrays, .cores, .adits,
      .hoists, .scatters, .chans, .links, .chutes, .hops, .counters, .cals] P
      := by exact Can.sub (by assumption) (by decide)) :
    Keeps P z (startStep5 s) := by
  unfold startStep5
  with_reducible repeat' first
    | assumption | exact Can.sub (by assumption) (by decide) | apply haltIf_keeps | apply toStep_keeps
      | apply startDomain_keeps | apply domainStart_keeps | apply initCal_keeps | refine Keeps.ite ?_ (fun _ => ?_)
      | intro _ _ _ | apply Keeps.foldl | (refine Keeps.upd ?_ rfl rfl rfl; assumption)

theorem rehomeAll_keeps {P : Part → Prop} {z s : State} (h : Keeps P z s)
    (can : Can [.regs, .voids, .dep] P := by exact Can.sub (by assumption) (by decide)) :
    Keeps P z (rehomeAll s) := by
  unfold rehomeAll
  with_reducible repeat' first
    | assumption | exact Can.sub (by assumption) (by decide) | apply reportLoss_keeps
      | refine Keeps.ite ?_ (fun _ => ?_) | intro _ _ _ | apply Keeps.foldl
      | (refine Keeps.upd ?_ rfl rfl rfl; first | assumption | apply reportLoss_keeps | refine Keeps.ite ?_ (fun _ => ?_) | apply Keeps.foldl)

theorem trainChannel_keeps {P : Part → Prop} {z s : State} (h : Keeps P z s) (t)
    (can : Can [.freeCount, .regs, .doms, .graphs, .jobs, .fences, .voids, .dep, .jnl, .txQueue, .sessions, .outs, .port, .arrays, .cores, .adits, .hoists, .scatters, .chans, .links, .chutes, .hops, .counters] P := by exact Can.sub (by assumption) (by decide)) : Keeps P z (trainChannel s t) := by
  unfold trainChannel
  with_reducible repeat' first
    | assumption | exact Can.sub (by assumption) (by decide) | apply fenceChan_keeps | apply setChan_keeps | refine Keeps.ite ?_ (fun _ => ?_) | split | intro _ _ _ | intro _ _ | apply Keeps.foldl | extract_lets

theorem startStep6_keeps {P : Part → Prop} {z s : State} (h : Keeps P z s) (f)
    (can : Can [.freeCount, .mem, .regs, .doms, .pwr, .graphs, .jobs, .fences, .voids, .dep, .jnl, .txQueue, .sessions, .outs, .port, .arrays, .cores, .adits, .hoists, .scatters, .chans, .links, .chutes, .hops, .counters] P := by exact Can.sub (by assumption) (by decide)) : Keeps P z (startStep6 s f) := by
  unfold startStep6
  extract_lets t u
  have k : Keeps P z t := Keeps.ite (h.of rfl (fun i => { i with mem := nil_wf }) (fixed_refl _)) fun _ => h
  have k : Keeps P z u := by
    refine Keeps.foldl ?_ _ fun s c k => trainChannel_keeps k ..
    exact k.same rfl rfl rfl rfl
  exact toStep_keeps (endRecovery_keeps (Keeps.ite k fun _ => rehomeAll_keeps k)) ..

theorem trainLinks_keeps {P : Part → Prop} {z s : State} (h : Keeps P z s)
    (can : Can [.links] P := by exact Can.sub (by assumption) (by decide)) : Keeps P z (trainLinks s) := by
  unfold trainLinks
  with_reducible repeat' first | (refine Keeps.upd ?_ rfl rfl rfl; assumption)

theorem startStep7_keeps {P : Part → Prop} {z s : State} (h : Keeps P z s) (f)
    (can : Can [.pwr, .links] P := by exact Can.sub (by assumption) (by decide)) : Keeps P z (startStep7 s f) := by
  unfold startStep7
  with_reducible repeat' first
    | assumption | exact Can.sub (by assumption) (by decide) | apply toStep_keeps | apply trainLinks_keeps
      | apply toRescue_keeps | refine Keeps.ite ?_ (fun _ => ?_)
      | (refine Keeps.upd ?_ rfl rfl rfl; first | assumption)

theorem applyTest_keeps {P : Part → Prop} {z s : State} (h : Keeps P z s) (f)
    (can : Can [.regs, .fences, .dep, .arrays] P := by exact Can.sub (by assumption) (by decide)) :
    Keeps P z (applyTest s f) := by
  unfold applyTest
  with_reducible repeat' first
    | assumption | exact Can.sub (by assumption) (by decide) | apply setArray_keeps | apply raise_keeps
      | apply fenceDone_keeps | refine Keeps.ite ?_ (fun _ => ?_) | split
      | (refine Keeps.upd ?_ rfl rfl rfl; first | assumption | apply setArray_keeps)

theorem applyLight_keeps {P : Part → Prop} {z s : State} (h : Keeps P z s) (e)
    (can : Can [.cals] P := by exact Can.sub (by assumption) (by decide)) : Keeps P z (applyLight s e) := by
  unfold applyLight
  with_reducible repeat' first | assumption | apply setCal_keeps

theorem startStep8_keeps {P : Part → Prop} {z s : State} (h : Keeps P z s) (f)
    (can : Can [.regs, .pwr, .fences, .dep, .arrays, .adits, .counters, .cals] P := by exact Can.sub (by assumption) (by decide)) : Keeps P z (startStep8 s f) := by
  unfold startStep8
  with_reducible repeat' first
    | assumption | exact Can.sub (by assumption) (by decide) | apply applyTest_keeps | apply fenceAdit_keeps | apply applyLight_keeps | apply setCal_keeps | apply toStep_keeps | apply endRecovery_keeps | refine Keeps.ite ?_ (fun _ => ?_) | split | intro _ _ _ | intro _ _ | apply Keeps.foldl | extract_lets

theorem skipRestore_keeps {P : Part → Prop} {z s : State} (h : Keeps P z s)
    (can : Can [.regs, .jnl] P := by exact Can.sub (by assumption) (by decide)) : Keeps P z (skipRestore s) := by
  unfold skipRestore
  with_reducible repeat' first
    | exact Can.sub (by assumption) (by decide) | apply raise_keeps | split
      | (refine Keeps.upd ?_ rfl rfl rfl; assumption)

theorem startStep9_keeps {P : Part → Prop} {z s : State} (h : Keeps P z s)
    (can : Can [.regs, .pwr, .jnl, .txQueue, .outs] P := by exact Can.sub (by assumption) (by decide)) :
    Keeps P z (startStep9 s) := by
  unfold startStep9
  with_reducible repeat' first
    | assumption | exact Can.sub (by assumption) (by decide) | apply toStep_keeps | apply skipRestore_keeps
      | apply openOut_keeps | refine Keeps.ite ?_ (fun _ => ?_) | (refine Keeps.upd ?_ rfl rfl rfl; assumption)

theorem startStep10_keeps {P : Part → Prop} {z s : State} (h : Keeps P z s)
    (can : Can [.pwr] P := by exact Can.sub (by assumption) (by decide)) : Keeps P z (startStep10 s) := by
  unfold startStep10
  with_reducible repeat' first | assumption | apply toStep_keeps | refine Keeps.ite ?_ (fun _ => ?_)

theorem startReport_keeps {P : Part → Prop} {z s : State} (h : Keeps P z s) 
    (can : Can [.regs] P := by exact Can.sub (by assumption) (by decide)) : Keeps P z (startReport s) := by
  unfold startReport
  with_reducible repeat' first
    | assumption | exact Can.sub (by assumption) (by decide) | apply setRawReg_keeps | refine Keeps.ite ?_ (fun _ => ?_) | split | intro _ _ _ | intro _ _ | apply Keeps.foldl | extract_lets

theorem raiseFloor_keeps {P : Part → Prop} {z s : State} (h : Keeps P z s)
    (can : Can [.pwr] P := by exact Can.sub (by assumption) (by decide)) : Keeps P z (raiseFloor s) := by
  unfold raiseFloor
  extract_lets x
  split
  · rename_i e
    simp only [Bool.and_eq_true, decide_eq_true_eq] at e
    exact h.of rfl (fun i => ⟨i.mem, i.norA, i.norB, i.nonces, i.announced⟩)
      ⟨rfl, rfl, rfl, Nat.le_of_lt e.2, (fixed_refl _).slots⟩
  · exact h

theorem startStep11_keeps {P : Part → Prop} {z s : State} (h : Keeps P z s) 
    (can : Can [.regs, .pwr, .dep, .txQueue, .sessions, .port, .chutes] P := by exact Can.sub (by assumption) (by decide)) : Keeps P z (startStep11 s) := by
  unfold startStep11
  extract_lets t _ _ _ u
  have k : Keeps P z t := startReport_keeps h ..
  clear_value t
  have k : Keeps P z u := by
    exact k.of rfl (fun j => ⟨j.mem, j.norA, j.norB, j.nonces, Nat.zero_le _⟩) (fixed_same (fixed_refl _) rfl)
  exact releaseGrants_keeps (raiseFloor_keeps k)

theorem startStepDone_keeps {P : Part → Prop} {z s : State} (h : Keeps P z s) (f)
    (can : Can [.freeCount, .mem, .regs, .doms, .clk, .nor, .owner, .pwr, .graphs, .jobs, .fences, .voids, .dep, .jnl, .txQueue, .sessions, .outs, .port, .arrays, .cores, .adits, .hoists, .scatters, .chans, .links, .chutes, .hops, .counters, .cals] P := by exact Can.sub (by assumption) (by decide)) : Keeps P z (startStepDone s f) := by
  unfold startStepDone
  with_reducible repeat' first
    | assumption | exact Can.sub (by assumption) (by decide) | apply toStep_keeps | apply startStep2_keeps
      | apply startStep3_keeps | apply startStep4_keeps | apply startStep5_keeps | apply startStep6_keeps
      | apply startStep7_keeps | apply startStep8_keeps | apply startStep9_keeps | apply startStep10_keeps
      | apply startStep11_keeps | refine Keeps.ite ?_ (fun _ => ?_) | split

theorem imgFail_keeps {P : Part → Prop} {z s : State} (h : Keeps P z s) (code) (reason)
    (can : Can [.regs] P := by exact Can.sub (by assumption) (by decide)) : Keeps P z (imgFail s code reason) := by
  unfold imgFail
  with_reducible repeat' first | assumption | apply setRawField_keeps | apply raise_keeps

theorem beginImg_keeps {P : Part → Prop} {z s : State} (h : Keeps P z s) (op)
    (can : Can [.regs, .image] P := by exact Can.sub (by assumption) (by decide)) : Keeps P z (beginImg s op) := by
  unfold beginImg
  with_reducible repeat' first
    | assumption | exact Can.sub (by assumption) (by decide) | apply imgFail_keeps | refine Keeps.ite ?_ (fun _ => ?_)
      | (refine Keeps.upd ?_ rfl rfl rfl; assumption)

theorem writeImgCtrl_keeps {P : Part → Prop} {z s : State} (h : Keeps P z s) (v)
    (can : Can [.regs, .image] P := by exact Can.sub (by assumption) (by decide)) : Keeps P z (writeImgCtrl s v) := by
  unfold writeImgCtrl
  with_reducible repeat' first | assumption | apply beginImg_keeps | split

theorem openBlock_keeps {P : Part → Prop} {z s : State} (h : Keeps P z s)
    (can : Can [.freeCount] P := by exact Can.sub (by assumption) (by decide)) : Keeps P z (openBlock s).2 :=
  h.same rfl rfl rfl rfl

theorem imgProgDone_keeps {P : Part → Prop} {z s : State} (h : Keeps P z s) (ok) (errCode) (v)
    (can : Can [.freeCount, .regs, .nor, .image] P := by exact Can.sub (by assumption) (by decide)) :
    Keeps P z (imgProgDone s ok errCode v) := by
  unfold imgProgDone
  split
  · exact h
  · extract_lets _ t
    have k : Keeps P z t := h.same rfl rfl rfl rfl
    split
    · split
      · exact raise_keeps k ..
      · exact imgFail_keeps k ..
    · split
      · exact raise_keeps (setNor_keeps k ..) ..
      · exact imgFail_keeps (setNor_keeps (openBlock_keeps k) ..) ..

theorem beginEnrol_keeps {P : Part → Prop} {z s : State} (h : Keeps P z s) (v) (sig)
    (can : Can [.owner] P := by exact Can.sub (by assumption) (by decide)) : Keeps P z (beginEnrol s v sig) := by
  unfold beginEnrol
  with_reducible repeat' first
    | assumption | refine Keeps.ite ?_ (fun _ => ?_) | (refine Keeps.upd ?_ rfl rfl rfl; assumption)

theorem discardWork_keeps {P : Part → Prop} {z s : State} (h : Keeps P z s)
    (can : Can [.regs, .allocs, .descs, .graphs, .stages, .jobs, .waits, .voids, .dep, .respLog, .lotRing, .jnl,
      .txQueue, .sessions, .outs, .orphans, .nonces, .mgmt, .port, .arrays, .cores, .hoists, .scatters, .assays,
      .chutes, .counters] P := by exact Can.sub (by assumption) (by decide)) :
    Keeps P z (discardWork s) := by
  unfold discardWork
  extract_lets t dep jnl port
  have k : Keeps P z t := abortWork_keeps h ..
  exact k.of rfl (fun i => ⟨i.mem, i.norA, i.norB, Nat.zero_le _, i.announced⟩) (fixed_same (fixed_refl _) rfl)

theorem beginRelease_keeps {P : Part → Prop} {z s : State} (h : Keeps P z s) (v) (signed)
    (can : Can [.regs, .owner, .allocs, .descs, .graphs, .stages, .jobs, .waits, .voids, .dep, .respLog, .lotRing,
      .jnl, .txQueue, .sessions, .outs, .orphans, .nonces, .mgmt, .port, .arrays, .cores, .hoists, .scatters,
      .assays, .chutes, .counters] P := by exact Can.sub (by assumption) (by decide)) :
    Keeps P z (beginRelease s v signed) := by
  unfold beginRelease
  with_reducible repeat' first
    | assumption | exact Can.sub (by assumption) (by decide) | refine Keeps.ite ?_ (fun _ => ?_)
      | (refine Keeps.upd ?_ rfl rfl rfl; first | assumption | apply discardWork_keeps)

theorem closeMgmt_keeps {P : Part → Prop} {z s : State} (h : Keeps P z s)
    (can : Can [.mgmt] P := by exact Can.sub (by assumption) (by decide)) : Keeps P z (closeMgmt s) :=
  h.same rfl rfl rfl rfl

theorem fixed_burn {p q : Power} (h : Fixed p q) (x : OwnerSlot) : Fixed p { q with ownerSlots := q.ownerSlots ++ [x] } := by
  refine fixed_trans h ⟨rfl, rfl, rfl, Nat.le_refl _, fun j y hy => ⟨y, ?_, rfl, id⟩⟩
  have := (List.getElem?_eq_some_iff.mp hy).1
  simp [List.getElem?_append_left this, hy]

theorem completeEnrol_keeps {P : Part → Prop} {z s : State} (h : Keeps P z s) (keys)
    (can : Can [.nor, .owner, .mgmt] P := by exact Can.sub (by assumption) (by decide)) :
    Keeps P z (completeEnrol s keys) := by
  unfold completeEnrol
  extract_lets slot slots _ t
  have hs : Fixed s.pwr { s.pwr with ownerSlots := slots, ownerLost := false } := by
    simp only [slots]
    split
    · exact fixed_same (fixed_refl _) rfl
    · exact fixed_same (fixed_burn (fixed_refl _) slot) rfl
  have k : Keeps P z t := h.of rfl (fun i => ⟨i.mem, i.norA, i.norB, i.nonces, i.announced⟩) hs
  exact closeMgmt_keeps (writeOwner_keeps k ..)


/-- A slot released takes no fuse back. -/

theorem fixed_release {p q : Power} (h : Fixed p q) (i : Nat) (x : OwnerSlot) (e : q.ownerSlots[i]? = some x) : Fixed p { q with ownerSlots := q.ownerSlots.set i { x with released := true } } := by
  refine fixed_trans h ⟨rfl, rfl, rfl, Nat.le_refl _, fun j y hy => ?_⟩
  by_cases hj : i = j
  · subst hj
    rw [e] at hy
    obtain rfl := Option.some.inj hy
    refine ⟨{ x with released := true }, ?_, rfl, fun _ => rfl⟩
    have := (List.getElem?_eq_some_iff.mp e).1
    simp [this]
  · exact ⟨y, by simp [hj, hy], rfl, id⟩

theorem lastSlot_get (s : State) (i : Nat) (x : OwnerSlot) (h : lastSlot s = some (i, x)) : s.pwr.ownerSlots[i]? = some x := by
  unfold lastSlot at h
  cases e : s.pwr.ownerSlots.getLast? with
  | none => simp [e] at h
  | some y =>
    simp [e] at h
    obtain ⟨rfl, rfl⟩ := h
    rw [List.getLast?_eq_getElem?] at e
    exact e

theorem completeRelease_keeps {P : Part → Prop} {z s : State} (h : Keeps P z s)
    (can : Can [.freeCount, .mem, .regs, .doms, .clk, .nor, .owner, .image, .att, .temps, .pwr, .allocs, .descs,
      .graphs, .stages, .jobs, .waits, .fences, .voids, .dep, .respLog, .lotRing, .jnl, .txQueue, .sessions, .outs,
      .orphans, .nonces, .mgmt, .port, .arrays, .cores, .adits, .hoists, .scatters, .assays, .chans, .links,
      .chutes, .hops, .counters, .cals] P := by exact Can.sub (by assumption) (by decide)) :
    Keeps P z (completeRelease s) := by
  unfold completeRelease
  extract_lets slots _ t
  have hs : Fixed s.pwr { s.pwr with ownerSlots := slots } := by
    simp only [slots]
    split
    · exact fixed_release (fixed_refl _) _ _ (lastSlot_get s _ _ (by assumption))
    · exact fixed_refl _
  have k : Keeps P z t := h.of rfl (fun i => ⟨filter_wf _ i.mem, i.norA, i.norB, i.nonces, i.announced⟩) hs
  exact warmReset_keeps (writeOwner_keeps k ..) ..

theorem ownerOpDone_keeps {P : Part → Prop} {z s : State} (h : Keeps P z s)
    (can : Can [.freeCount, .mem, .regs, .doms, .clk, .nor, .owner, .image, .att, .temps, .pwr, .allocs, .descs,
      .graphs, .stages, .jobs, .waits, .fences, .voids, .dep, .respLog, .lotRing, .jnl, .txQueue, .sessions, .outs,
      .orphans, .nonces, .mgmt, .port, .arrays, .cores, .adits, .hoists, .scatters, .assays, .chans, .links,
      .chutes, .hops, .counters, .cals] P := by exact Can.sub (by assumption) (by decide)) :
    Keeps P z (ownerOpDone s) := by
  unfold ownerOpDone
  with_reducible repeat' first
    | assumption | exact Can.sub (by assumption) (by decide) | apply completeRelease_keeps | apply raise_keeps
      | apply completeEnrol_keeps | apply setRawField_keeps | refine Keeps.ite ?_ (fun _ => ?_) | split
      | (refine Keeps.upd ?_ rfl rfl rfl; assumption)

theorem beginAttest_keeps {P : Part → Prop} {z s : State} (h : Keeps P z s) (v)
    (can : Can [.att] P := by exact Can.sub (by assumption) (by decide)) : Keeps P z (beginAttest s v) := by
  unfold beginAttest
  with_reducible repeat' first
    | assumption | refine Keeps.ite ?_ (fun _ => ?_) | (refine Keeps.upd ?_ rfl rfl rfl; assumption)

theorem attestationReady_keeps {P : Part → Prop} {z s : State} (h : Keeps P z s)
    (can : Can [.att] P := by exact Can.sub (by assumption) (by decide)) : Keeps P z (attestationReady s) := by
  unfold attestationReady
  with_reducible repeat' first | assumption | split | (refine Keeps.upd ?_ rfl rfl rfl; assumption)

theorem feedTrain_keeps {P : Part → Prop} {z s : State} (h : Keeps P z s) (q) (cars)
    (can : Can [.hoists] P := by exact Can.sub (by assumption) (by decide)) : Keeps P z (feedTrain s q cars) := by
  unfold feedTrain
  with_reducible repeat' first
    | assumption | exact Can.sub (by assumption) (by decide) | apply setQueue_keeps | apply enqueueTo_keeps | refine Keeps.ite ?_ (fun _ => ?_) | split | intro _ _ _ | intro _ _ | apply Keeps.foldl | extract_lets

theorem keepCar_keeps {P : Part → Prop} {z s : State} (h : Keeps P z s) (c) (car)
    (can : Can [.mem, .regs, .cores, .hops] P := by exact Can.sub (by assumption) (by decide)) :
    Keeps P z (keepCar s c car) := by
  unfold keepCar
  with_reducible repeat' first
    | assumption | exact Can.sub (by assumption) (by decide) | apply setHop_keeps | apply count_keeps
      | apply writeScratch_keeps | apply raise_keeps | apply poisonAt_keeps | refine Keeps.ite ?_ (fun _ => ?_)

theorem hopCar_keeps {P : Part → Prop} {z s : State} (h : Keeps P z s) (c) (car) (injected) (ecc)
    (can : Can [.mem, .regs, .cores, .hops] P := by exact Can.sub (by assumption) (by decide)) :
    Keeps P z (hopCar s c car injected ecc) := by
  unfold hopCar
  with_reducible repeat' first
    | assumption | exact Can.sub (by assumption) (by decide) | apply setHop_keeps | apply count_keeps
      | apply raise_keeps | apply keepCar_keeps | refine Keeps.ite ?_ (fun _ => ?_)

theorem stallTram_keeps {P : Part → Prop} {z s : State} (h : Keeps P z s) (c)
    (can : Can [.regs, .hops] P := by exact Can.sub (by assumption) (by decide)) : Keeps P z (stallTram s c) := by
  unfold stallTram
  with_reducible repeat' first
    | assumption | exact Can.sub (by assumption) (by decide) | apply count_keeps | apply setHop_keeps
      | refine Keeps.ite ?_ (fun _ => ?_)

theorem samplePower_keeps {P : Part → Prop} {z s : State} (h : Keeps P z s) (off)
    (can : Can [.freeCount, .regs] P := by exact Can.sub (by assumption) (by decide)) :
    Keeps P z (samplePower s off) := by
  unfold samplePower
  with_reducible repeat' first
    | assumption | exact Can.sub (by assumption) (by decide) | apply drawChoice_keeps | apply setRawField_keeps
      | apply setRawReg_keeps | refine Keeps.ite ?_ (fun _ => ?_)

theorem beforeRead_keeps {P : Part → Prop} {z s : State} (h : Keeps P z s) (l)
    (can : Can [.freeCount, .regs, .clk, .owner] P := by exact Can.sub (by assumption) (by decide)) :
    Keeps P z (beforeRead s l) := by
  unfold beforeRead
  with_reducible repeat' first
    | assumption | exact Can.sub (by assumption) (by decide) | apply samplePower_keeps
      | refine Keeps.ite ?_ (fun _ => ?_)
      | (refine Keeps.upd ?_ rfl rfl rfl; first | assumption | apply drawChoice_keeps)

theorem readReg_keeps {P : Part → Prop} {z s : State} (h : Keeps P z s) (addr) (l)
    (can : Can [.freeCount, .regs, .clk, .owner, .dep] P := by exact Can.sub (by assumption) (by decide)) :
    Keeps P z (readReg s addr l).2 := by
  unfold readReg
  with_reducible repeat' first
    | assumption | exact Can.sub (by assumption) (by decide) | apply beforeRead_keeps | apply setRawReg_keeps
      | refine Keeps.ite ?_ (fun _ => ?_)

theorem restoreSkip_keeps {P : Part → Prop} {z s : State} (h : Keeps P z s)
    (can : Can [.regs, .dep, .jnl] P := by exact Can.sub (by assumption) (by decide)) :
    Keeps P z (restoreSkip s) := by
  unfold restoreSkip
  with_reducible repeat' first
    | assumption | exact Can.sub (by assumption) (by decide) | apply skipRestore_keeps
      | refine Keeps.ite ?_ (fun _ => ?_) | (refine Keeps.upd ?_ rfl rfl rfl; assumption)

theorem writeDepCtrl_keeps {P : Part → Prop} {z s : State} (h : Keeps P z s) (v)
    (can : Can [.freeCount, .mem, .regs, .doms, .clk, .nor, .owner, .image, .att, .temps, .pwr, .allocs, .descs,
      .graphs, .stages, .jobs, .waits, .fences, .voids, .dep, .respLog, .lotRing, .jnl, .txQueue, .sessions, .outs,
      .orphans, .nonces, .mgmt, .port, .arrays, .cores, .adits, .hoists, .scatters, .assays, .chans, .links,
      .chutes, .hops, .counters, .cals] P := by exact Can.sub (by assumption) (by decide)) :
    Keeps P z (writeDepCtrl s v) := by
  unfold writeDepCtrl
  with_reducible repeat' first
    | assumption | exact Can.sub (by assumption) (by decide) | apply restoreSkip_keeps | apply warmIf_keeps
      | refine Keeps.ite ?_ (fun _ => ?_)

theorem writeChCtrl_keeps {P : Part → Prop} {z s : State} (h : Keeps P z s) (ep) (v)
    (can : Can [.regs, .jobs, .dep, .txQueue, .sessions, .outs, .arrays, .cores, .hoists, .scatters, .chutes] P
      := by exact Can.sub (by assumption) (by decide)) :
    Keeps P z (writeChCtrl s ep v) := by
  unfold writeChCtrl
  with_reducible repeat' first | assumption | apply resetAt_keeps | refine Keeps.ite ?_ (fun _ => ?_)

theorem writeAction_keeps {P : Part → Prop} {z s : State} (h : Keeps P z s) (l) (v) (sig) (signed)
    (can : Can [.freeCount, .mem, .regs, .doms, .clk, .nor, .owner, .image, .att, .temps, .pwr, .allocs, .descs,
      .graphs, .stages, .jobs, .waits, .fences, .voids, .dep, .respLog, .lotRing, .jnl, .txQueue, .sessions, .outs,
      .orphans, .nonces, .mgmt, .port, .arrays, .cores, .adits, .hoists, .scatters, .assays, .chans, .links,
      .chutes, .hops, .counters, .cals] P := by exact Can.sub (by assumption) (by decide)) :
    Keeps P z (writeAction s l v sig signed) := by
  unfold writeAction
  with_reducible repeat' first
    | assumption | exact Can.sub (by assumption) (by decide) | apply writeChCtrl_keeps | apply writeDepCtrl_keeps
      | apply writeImgCtrl_keeps | apply beginRelease_keeps | apply beginEnrol_keeps | apply beginAttest_keeps
      | refine Keeps.ite ?_ (fun _ => ?_)

theorem writeReg_keeps {P : Part → Prop} {z s : State} (h : Keeps P z s) (addr) (l) (v) (sig) (signed)
    (can : Can [.freeCount, .mem, .regs, .doms, .clk, .nor, .owner, .image, .att, .temps, .pwr, .allocs, .descs,
      .graphs, .stages, .jobs, .waits, .fences, .voids, .dep, .respLog, .lotRing, .jnl, .txQueue, .sessions, .outs,
      .orphans, .nonces, .mgmt, .port, .arrays, .cores, .adits, .hoists, .scatters, .assays, .chans, .links,
      .chutes, .hops, .counters, .cals] P := by exact Can.sub (by assumption) (by decide)) :
    Keeps P z (writeReg s addr l v sig signed) := by
  unfold writeReg
  with_reducible repeat' first
    | assumption | exact Can.sub (by assumption) (by decide) | apply writeAction_keeps | apply setRawReg_keeps

theorem hqCfgWrite_keeps {P : Part → Prop} {z s : State} (h : Keeps P z s) (q) (v)
    (can : Can [.regs] P := by exact Can.sub (by assumption) (by decide)) : Keeps P z (hqCfgWrite s q v) := by
  unfold hqCfgWrite
  with_reducible repeat' first | assumption | apply setRawField_keeps | refine Keeps.ite ?_ (fun _ => ?_)

theorem chCtrlReset_keeps {P : Part → Prop} {z s : State} (h : Keeps P z s) (ep) (v)
    (can : Can [.regs, .jobs, .dep, .txQueue, .sessions, .outs, .arrays, .cores, .hoists, .scatters, .chutes] P
      := by exact Can.sub (by assumption) (by decide)) :
    Keeps P z (chCtrlReset s ep v) := by
  unfold chCtrlReset
  with_reducible repeat' first | assumption | apply writeChCtrl_keeps | refine Keeps.ite ?_ (fun _ => ?_)

theorem inMgmt_keeps {P : Part → Prop} {z s : State} {f : MgmtSession → State} (h : Keeps P z s) (r) (k : ∀ x, Keeps P
    z (f x))
    (can : Can [.regs, .txQueue] P := by exact Can.sub (by assumption) (by decide)) : Keeps P z (inMgmt s r f) := by
  unfold inMgmt
  split
  · exact answerMgmt_keeps h ..
  split
  · exact answerMgmt_keeps h ..
  split
  · exact answerMgmt_keeps h ..
  split
  · split
    · exact pushTx_keeps h ..
    · exact h
  · exact k _

theorem enqueueMgmt_keeps {P : Part → Prop} {z s : State} (h : Keeps P z s) (r)
    (can : Can [.regs, .mgmt] P := by exact Can.sub (by assumption) (by decide)) : Keeps P z (enqueueMgmt s r) := by
  unfold enqueueMgmt
  with_reducible repeat' first
    | assumption | exact Can.sub (by assumption) (by decide) | apply raise_keeps | apply portCount_keeps
      | refine Keeps.ite ?_ (fun _ => ?_) | (refine Keeps.upd ?_ rfl rfl rfl; assumption)

theorem mgmtFrameReceive_keeps {P : Part → Prop} {z s : State} (h : Keeps P z s) (r)
    (can : Can [.regs, .txQueue, .mgmt] P := by exact Can.sub (by assumption) (by decide)) :
    Keeps P z (mgmtFrameReceive s r) := by
  unfold mgmtFrameReceive
  with_reducible repeat' first
    | assumption | exact Can.sub (by assumption) (by decide) | apply receiveFrame_keeps | apply settleQueue_keeps
      | apply enqueueMgmt_keeps | split | extract_lets | (refine Keeps.of_fst (by assumption) ?_)

theorem takeMgmt_keeps {P : Part → Prop} {z s : State} {f : State → State} (h : Keeps P z s) (kf : ∀ s, Keeps P z s →
    Keeps P z (f s)) (r)
    (can : Can [.regs, .txQueue, .mgmt] P := by exact Can.sub (by assumption) (by decide)) :
    Keeps P z (takeMgmt s r f) := by
  unfold takeMgmt
  have h : Keeps P z (settleQueue s) := settleQueue_keeps h
  generalize settleQueue s = s at h
  dsimp only
  with_reducible repeat' first
    | assumption | exact Can.sub (by assumption) (by decide) | apply kf | apply settleQueue_keeps
      | apply receiveFrame_keeps | apply mgmtFrameReceive_keeps | refine Keeps.ite ?_ (fun _ => ?_) | split
      | (refine Keeps.upd ?_ rfl rfl rfl; assumption) | extract_lets | (refine Keeps.of_fst (by assumption) ?_)

theorem ofOp_keeps {P : Part → Prop} {z s : State} {f : State → State} (h : Keeps P z s) (kf : ∀ s, Keeps P z s →
    Keeps P z (f s)) (op) (r)
    (can : Can [.regs, .txQueue, .mgmt] P := by exact Can.sub (by assumption) (by decide)) :
    Keeps P z (ofOp op s r f) := by
  unfold ofOp
  with_reducible repeat' first | assumption | apply takeMgmt_keeps | refine Keeps.ite ?_ (fun _ => ?_)

theorem addNonce_length (l : List (BitVec 128 × Time)) (n : BitVec 128) (t : Time) (h : l.length ≤ 16) : (addNonce l n t).length ≤ 16 := by
  unfold addNonce
  split <;> simp <;> omega

theorem helloRun_keeps {P : Part → Prop} {z s : State} (h : Keeps P z s) (r)
    (can : Can [.freeCount, .regs, .pwr, .txQueue, .nonces] P := by exact Can.sub (by assumption) (by decide)) :
    Keeps P z (helloRun r s) := by
  unfold helloRun
  split
  · exact answerMgmt_keeps h ..
  · extract_lets d nonce t _ _ u
    have k : Keeps P z t := drawChoice_keeps h
    have k : Keeps P z u := k.of rfl (fun i => ⟨i.mem, i.norA, i.norB, addNonce_length _ _ _ i.nonces, i.announced⟩)
      (fixed_same (fixed_refl _) rfl)
    exact answerMgmt_keeps k ..

theorem useNonce_keeps {P : Part → Prop} {z s : State} (h : Keeps P z s) (n)
    (can : Can [.nonces] P := by exact Can.sub (by assumption) (by decide)) : Keeps P z (useNonce s n) :=
  h.of rfl (fun i => { i with nonces := Nat.le_trans (List.length_filter_le _ _) i.nonces }) (fixed_refl _)

theorem logSession_keeps {P : Part → Prop} {z s : State} (h : Keeps P z s) (i) (entry)
    (can : Can [.jnl, .txQueue, .outs] P := by exact Can.sub (by assumption) (by decide)) :
    Keeps P z (logSession s i entry) := by
  unfold logSession
  with_reducible repeat' first
    | assumption | exact Can.sub (by assumption) (by decide) | apply mirrorNote_keeps | apply logTable_keeps

theorem bindSession_keeps {P : Part → Prop} {z s : State} (h : Keeps P z s) (i) (x) (tail)
    (can : Can [.sessions, .chutes] P := by exact Can.sub (by assumption) (by decide)) :
    Keeps P z (bindSession s i x tail) := by
  unfold bindSession
  with_reducible repeat' first
    | assumption | exact Can.sub (by assumption) (by decide) | apply setEp_keeps | apply setSession_keeps

theorem openSessionAt_keeps {P : Part → Prop} {z s : State} (h : Keeps P z s) (f) (q) (signed) (i) (token)
    (can : Can [.graphs, .jnl, .txQueue, .sessions, .outs, .mgmt, .chutes] P
      := by exact Can.sub (by assumption) (by decide)) :
    Keeps P z (openSessionAt s f q signed i token) := by
  unfold openSessionAt
  with_reducible repeat' first
    | assumption | exact Can.sub (by assumption) (by decide) | apply setMgmt_keeps | apply logSession_keeps
      | apply bindSession_keeps | apply setGraphSlot_keeps | refine Keeps.ite ?_ (fun _ => ?_) | split

theorem closeMirror_keeps {P : Part → Prop} {z s : State} (h : Keeps P z s) (q)
    (can : Can [.sessions, .chutes] P := by exact Can.sub (by assumption) (by decide)) :
    Keeps P z (closeMirror s q) := by
  unfold closeMirror
  with_reducible repeat' first
    | assumption | exact Can.sub (by assumption) (by decide) | apply setEp_keeps | apply setSession_keeps
      | refine Keeps.ite ?_ (fun _ => ?_) | split

theorem openRun_keeps {P : Part → Prop} {z s : State} (h : Keeps P z s) (r) (sig)
    (can : Can [.freeCount, .regs, .graphs, .jnl, .txQueue, .sessions, .outs, .nonces, .mgmt, .chutes] P
      := by exact Can.sub (by assumption) (by decide)) :
    Keeps P z (openRun r sig s) := by
  unfold openRun
  with_reducible repeat' first
    | assumption | exact Can.sub (by assumption) (by decide) | apply answerMgmt_keeps | apply useNonce_keeps
      | apply closeMirror_keeps | apply drawChoice_keeps | apply openSessionAt_keeps
      | refine Keeps.ite ?_ (fun _ => ?_) | split | extract_lets

theorem shutLot_keeps {P : Part → Prop} {z s : State} (h : Keeps P z s) (i)
    (can : Can [.regs, .jobs, .waits, .respLog, .lotRing, .jnl, .txQueue, .sessions, .outs, .orphans, .chutes] P
      := by exact Can.sub (by assumption) (by decide)) :
    Keeps P z (shutLot s i) := by
  unfold shutLot
  with_reducible repeat' first
    | exact Can.sub (by assumption) (by decide) | apply resetChuteOnly_keeps | apply setEp_keeps
      | apply setSession_keeps | apply releaseGrants_keeps | apply logSession_keeps | split
      | (refine Keeps.upd ?_ rfl rfl rfl; assumption)

theorem shutRun_keeps {P : Part → Prop} {z s : State} (h : Keeps P z s) (r)
    (can : Can [.regs, .jobs, .waits, .respLog, .lotRing, .jnl, .txQueue, .sessions, .outs, .orphans, .mgmt,
      .chutes] P := by exact Can.sub (by assumption) (by decide)) :
    Keeps P z (shutRun r s) := by
  refine inMgmt_keeps h _ fun _ => ?_
  extract_lets b i
  split
  · exact finishMgmt_keeps h ..
  split
  · split
    · exact finishMgmt_keeps (setMgmt_keeps h ..) ..
    · exact finishMgmt_keeps h ..
  split
  · exact finishMgmt_keeps (shutLot_keeps h ..) ..
  split
  · exact finishMgmt_keeps h ..
  · exact finishMgmt_keeps h ..

theorem accessWords_keeps {P : Part → Prop} {z s : State} (h : Keeps P z s) (r) (w) (sig) (l) (n) (got)
    (can : Can [.freeCount, .mem, .regs, .doms, .clk, .nor, .owner, .image, .att, .temps, .pwr, .allocs, .descs,
      .graphs, .stages, .jobs, .waits, .fences, .voids, .dep, .respLog, .lotRing, .jnl, .txQueue, .sessions, .outs,
      .orphans, .nonces, .mgmt, .port, .arrays, .cores, .adits, .hoists, .scatters, .assays, .chans, .links,
      .chutes, .hops, .counters, .cals] P := by exact Can.sub (by assumption) (by decide)) :
    Keeps P z (accessWords r w sig l n got s).2.2.2 := by
  induction l generalizing s n got with
  | nil => exact h
  | cons e l ih =>
    unfold accessWords
    split
    · split
      · split
        · exact ih (writeReg_keeps h ..) ..
        · exact ih (readReg_keeps h ..) ..
      · split <;> exact h
    · exact h

theorem accessRun_keeps {P : Part → Prop} {z s : State} (h : Keeps P z s) (r) (w) (sig)
    (can : Can [.freeCount, .mem, .regs, .doms, .clk, .nor, .owner, .image, .att, .temps, .pwr, .allocs, .descs,
      .graphs, .stages, .jobs, .waits, .fences, .voids, .dep, .respLog, .lotRing, .jnl, .txQueue, .sessions, .outs,
      .orphans, .nonces, .mgmt, .port, .arrays, .cores, .adits, .hoists, .scatters, .assays, .chans, .links,
      .chutes, .hops, .counters, .cals] P := by exact Can.sub (by assumption) (by decide)) :
    Keeps P z (accessRun r w sig s) := by
  refine inMgmt_keeps h _ fun _ => ?_
  split
  · exact finishMgmt_keeps h ..
  · rename_i l _
    have k := accessWords_keeps h r w sig l 0 []
    split <;> rename_i e <;> rw [e] at k
    · exact Keeps.ite k fun _ => count_keeps (finishMgmt_keeps k ..) ..
    · exact finishMgmt_keeps k ..
    · exact k.same rfl rfl rfl rfl
    · exact k

theorem abortRun_keeps {P : Part → Prop} {z s : State} (h : Keeps P z s) (r)
    (can : Can [.regs, .txQueue, .mgmt] P := by exact Can.sub (by assumption) (by decide)) :
    Keeps P z (abortRun r s) := by
  refine inMgmt_keeps h _ fun _ => ?_
  split
  · split
    · exact abandonHeld_keeps (finishMgmt_keeps h ..) ..
    · exact finishMgmt_keeps h ..
  · exact finishMgmt_keeps h ..

theorem announce_keeps {P : Part → Prop} {z s : State} (h : Keeps P z s)
    (can : Can [.pwr, .txQueue] P := by exact Can.sub (by assumption) (by decide)) : Keeps P z (announce s) := by
  unfold announce
  extract_lets c
  split
  · rename_i e
    refine pushTx_keeps ?_ ..
    simp only [Bool.and_eq_true, decide_eq_true_eq] at e
    exact h.of rfl (fun i => ⟨i.mem, i.norA, i.norB, i.nonces, e.2⟩) (fixed_same (fixed_refl _) rfl)
  · exact h

theorem countMerge_keeps {P : Part → Prop} {z s : State} (h : Keeps P z s) (t) (x) (y) (pairs)
    (can : Can [.freeCount, .regs, .cores] P := by exact Can.sub (by assumption) (by decide)) : Keeps P z (countMerge s t x y pairs) := by
  unfold countMerge
  with_reducible repeat' first
    | assumption | exact Can.sub (by assumption) (by decide) | apply count_keeps | apply drawChoice_keeps | apply veDone_keeps | apply slotCount_keeps | apply raise_keeps | refine Keeps.ite ?_ (fun _ => ?_) | split | intro _ _ _ | intro _ _ | apply Keeps.foldl | extract_lets | (refine Keeps.of_snd (by assumption) ?_) | (refine Keeps.of_fst (by assumption) ?_)

theorem mergeCmd_keeps {P : Part → Prop} {z s : State} (h : Keeps P z s) (m) (a) (b)
    (can : Can [.freeCount, .mem, .regs, .doms, .graphs, .jobs, .fences, .voids, .dep, .jnl, .txQueue, .sessions, .outs, .port, .arrays, .cores, .adits, .hoists, .scatters, .chans, .links, .chutes, .hops, .counters] P := by exact Can.sub (by assumption) (by decide)) : Keeps P z (mergeCmd s m a b) := by
  unfold mergeCmd
  with_reducible repeat' first
    | assumption | exact Can.sub (by assumption) (by decide) | apply afterPoison_keeps | apply writeWindow_keeps | apply countMerge_keeps | refine Keeps.ite ?_ (fun _ => ?_) | split | intro _ _ _ | intro _ _ | apply Keeps.foldl | (refine Keeps.upd ?_ rfl rfl rfl) | extract_lets

theorem scatterLanes_keeps {P : Part → Prop} {z s : State} (h : Keeps P z s) (c) (region) (n) (f) (l)
    (can : Can [.mem, .regs, .cores] P := by exact Can.sub (by assumption) (by decide)) : Keeps P z (scatterLanes s c region n f l) := by
  induction l generalizing s with
  | nil => exact h
  | cons e r ih =>
    unfold scatterLanes
    split
    · exact ih (writeWindow_keeps h ..)
    · exact ih h

theorem cvtStoreBlock_keeps {P : Part → Prop} {z s : State} (h : Keeps P z s) (t) (off) (f) (blk) (mods) (vals) (dead) (padded)
    (can : Can [.mem, .regs, .cores] P := by exact Can.sub (by assumption) (by decide)) : Keeps P z (cvtStoreBlock s t off f blk mods vals dead padded) := by
  unfold cvtStoreBlock
  with_reducible repeat' first
    | assumption | exact Can.sub (by assumption) (by decide) | apply writeWindow_keeps | apply cvtCountCore_keeps | refine Keeps.ite ?_ (fun _ => ?_) | split | intro _ _ _ | intro _ _ | apply Keeps.foldl | extract_lets

theorem cvtStore_keeps {P : Part → Prop} {z s : State} (h : Keeps P z s) (t) (dst) (mods) (cover) (vals)
    (can : Can [.mem, .regs, .cores] P := by exact Can.sub (by assumption) (by decide)) : Keeps P z (cvtStore s t dst mods cover vals) := by
  unfold cvtStore
  with_reducible repeat' first
    | assumption | exact Can.sub (by assumption) (by decide) | apply cvtCountCore_keeps | apply veResult_keeps | apply cvtStoreBlock_keeps | apply veDone_keeps | refine Keeps.ite ?_ (fun _ => ?_) | split | intro _ _ _ | intro _ _ | apply Keeps.foldl | extract_lets

theorem dclkCycle_keeps {P : Part → Prop} {z s : State} (h : Keeps P z s) 
    (can : Can [.time, .clk] P := by exact Can.sub (by assumption) (by decide)) : Keeps P z (dclkCycle s) := by
  unfold dclkCycle
  with_reducible repeat' first
    | assumption | refine Keeps.ite ?_ (fun _ => ?_) | split | (refine Keeps.upd ?_ rfl rfl rfl; assumption)

end Sys2Proof.Machine
end

