-- ==== Sys2Proof/Laws/KeepsExec.lean ====
section
/-! SUPPORT. One lemma for each command: the queue, the invariant and the fuses are kept, and no part of the state changes but
those listed. -/

namespace Sys2Proof.Machine

open Sys2Proof.Safety

-- one theorem after the other: proofs side by side would need more memory than the check allows
set_option Elab.async false

/-- What a unit's instruction does, the task's command in hand. -/
theorem onUnit_keeps {P : Part → Prop} {u : UnitKind} {x : SlotId} {f : State → State} {s t : State} (h : onUnit u x f s = .next t)
    (hf : Keeps P s (f s)) : Keeps P s t := by
  unfold onUnit at h
  cases h
  exact Keeps.ite (.refl _) fun _ => hf

/-- A register result of the vector engine. -/
theorem veLanes_keeps {P : Part → Prop} {x : SlotId} {d : VReg} {l : State → List Word} {n : Nat} {s t : State}
    (h : veLanes x d l n s = .next t)
    (can : Can [.regs, .cores] P := by exact Can.sub (by assumption) (by decide)) : Keeps P s t :=
  onUnit_keeps h (veResult_keeps (.refl _) ..)

/-- What an instruction that accesses the core window does. -/
theorem onWindow_keeps {P : Part → Prop} {x : SlotId} {r : State → List (Nat × Nat)} {f : State → State} {s t : State}
    (h : onWindow x r f s = .next t) (hf : Keeps P s (f s))
    (can : Can [.regs, .jobs, .dep, .txQueue, .sessions, .outs, .arrays, .cores, .hoists, .scatters, .chutes] P := by exact Can.sub (by assumption) (by decide)) : Keeps P s t :=
  onUnit_keeps h (Keeps.ite (abortTask_keeps (.refl _) ..) fun _ => hf)

/-- SCATTER and SCATTER.ADD. -/
theorem veScatterWith_keeps {P : Part → Prop} {f : Word → Word → Word} {o : VeIndexed} {s t : State}
    (h : veScatterWith f o s = .next t)
    (can : Can [.freeCount, .mem, .regs, .doms, .graphs, .jobs, .fences, .voids, .dep, .jnl, .txQueue, .sessions, .outs, .port, .arrays, .cores, .adits, .hoists, .scatters, .chans, .links, .chutes, .hops, .counters] P := by exact Can.sub (by assumption) (by decide)) : Keeps P s t := by
  unfold veScatterWith at h
  refine onWindow_keeps h ?_
  with_reducible repeat' first
    | exact .refl _ | assumption | exact Can.sub (by assumption) (by decide) | apply afterPoison_keeps | apply meetPoison_keeps
    | apply veOob_keeps | apply veDone_keeps | apply scatterLanes_keeps | intro _ _ | extract_lets

theorem execAlloc_keeps {P : Part → Prop} {s t : State} {ctx seam size} (h : execAlloc ctx seam size s = .next t)
    (can : Can [.freeCount, .regs, .allocs, .jobs, .voids, .dep, .respLog, .lotRing, .jnl, .txQueue, .sessions, .outs, .arrays, .cores, .hoists, .scatters, .chutes] P := by exact Can.sub (by assumption) (by decide)) : Keeps P s t := by
  unfold execAlloc at h
  cases h
  exact inService_keeps (.refl _) (allocCmd_keeps (.refl _) ..)

theorem execFree_keeps {P : Part → Prop} {s t : State} {ctx base} (h : execFree ctx base s = .next t)
    (can : Can [.allocs, .voids, .dep, .respLog, .lotRing, .jnl, .txQueue, .sessions, .outs, .chutes] P := by exact Can.sub (by assumption) (by decide)) : Keeps P s t := by
  unfold execFree at h
  cases h
  exact inService_keeps (.refl _) (freeCmd_keeps (.refl _) ..)

theorem execAllocationRelease_keeps {P : Part → Prop} {s t : State} {base} (h : execAllocationRelease base s = .next t)
    (can : Can [.allocs, .voids, .dep, .jnl] P := by exact Can.sub (by assumption) (by decide)) : Keeps P s t := by
  unfold execAllocationRelease at h
  cases h
  exact inService_keeps (.refl _) (releaseAllocation_keeps (.refl _) ..)

theorem execDescCreate_keeps {P : Part → Prop} {s t : State} {ctx record} (h : execDescCreate ctx record s = .next t)
    (can : Can [.regs, .descs, .respLog, .lotRing, .jnl, .txQueue, .sessions, .outs, .chutes] P := by exact Can.sub (by assumption) (by decide)) : Keeps P s t := by
  unfold execDescCreate at h
  cases h
  exact inService_keeps (.refl _) (descCreateCmd_keeps (.refl _) ..)

theorem execDescDestroy_keeps {P : Part → Prop} {s t : State} {ctx handle} (h : execDescDestroy ctx handle s = .next t)
    (can : Can [.descs, .respLog, .lotRing, .jnl, .txQueue, .sessions, .outs, .chutes] P := by exact Can.sub (by assumption) (by decide)) : Keeps P s t := by
  unfold execDescDestroy at h
  cases h
  exact inService_keeps (.refl _) (descDestroyCmd_keeps (.refl _) ..)

theorem execDescriptorDestroyed_keeps {P : Part → Prop} {s t : State} {index} (h : execDescriptorDestroyed index s = .next t)
    (can : Can [.descs, .jnl] P := by exact Can.sub (by assumption) (by decide)) : Keeps P s t := by
  unfold execDescriptorDestroyed at h
  cases h
  exact inService_keeps (.refl _) (destroyPendingDesc_keeps (.refl _) ..)

theorem execPut_keeps {P : Part → Prop} {s t : State} {ctx addr data} (h : execPut ctx addr data s = .next t)
    (can : Can [.mem, .regs, .voids, .dep, .respLog, .lotRing, .jnl, .txQueue, .sessions, .outs, .cores, .assays, .chutes] P := by exact Can.sub (by assumption) (by decide)) : Keeps P s t := by
  unfold execPut at h
  cases h
  exact inService_keeps (.refl _) (putCmd_keeps (.refl _) ..)

theorem execGet_keeps {P : Part → Prop} {s t : State} {ctx addr len} (h : execGet ctx addr len s = .next t)
    (can : Can [.respLog, .lotRing, .jnl, .txQueue, .sessions, .outs, .chutes] P := by exact Can.sub (by assumption) (by decide)) : Keeps P s t := by
  unfold execGet at h
  cases h
  exact inService_keeps (.refl _) (getCmd_keeps (.refl _) ..)

theorem execGraphLoad_keeps {P : Part → Prop} {s t : State} {ctx addr len} (h : execGraphLoad ctx addr len s = .next t)
    (can : Can [.freeCount, .mem, .regs, .graphs, .stages, .voids, .dep, .respLog, .lotRing, .jnl, .txQueue, .sessions, .outs, .cores, .assays, .chutes] P := by exact Can.sub (by assumption) (by decide)) : Keeps P s t := by
  unfold execGraphLoad at h
  cases h
  exact inService_keeps (.refl _) (graphLoadCmd_keeps (.refl _) ..)

theorem execGraphUnload_keeps {P : Part → Prop} {s t : State} {ctx handle} (h : execGraphUnload ctx handle s = .next t)
    (can : Can [.mem, .regs, .graphs, .stages, .jobs, .waits, .voids, .dep, .respLog, .lotRing, .jnl, .txQueue, .sessions, .outs, .arrays, .cores, .hoists, .scatters, .assays, .chutes, .counters] P := by exact Can.sub (by assumption) (by decide)) : Keeps P s t := by
  unfold execGraphUnload at h
  cases h
  exact inService_keeps (.refl _) (graphUnloadCmd_keeps (.refl _) ..)

theorem execRun_keeps {P : Part → Prop} {s t : State} {ctx handle jobId record} (h : execRun ctx handle jobId record s = .next t)
    (can : Can [.jobs, .dep, .respLog, .lotRing, .jnl, .txQueue, .sessions, .outs, .chutes] P := by exact Can.sub (by assumption) (by decide)) : Keeps P s t := by
  unfold execRun at h
  cases h
  exact inService_keeps (.refl _) (runCmd_keeps (.refl _) ..)

theorem execCancel_keeps {P : Part → Prop} {s t : State} {ctx jobId} (h : execCancel ctx jobId s = .next t)
    (can : Can [.mem, .regs, .graphs, .stages, .jobs, .waits, .voids, .dep, .respLog, .lotRing, .jnl, .txQueue, .sessions, .outs, .arrays, .cores, .hoists, .scatters, .assays, .chutes, .counters] P := by exact Can.sub (by assumption) (by decide)) : Keeps P s t := by
  unfold execCancel at h
  cases h
  exact inService_keeps (.refl _) (cancelCmd_keeps (.refl _) ..)

theorem execJobStart_keeps {P : Part → Prop} {s t : State} {job} (h : execJobStart job s = .next t)
    (can : Can [.jobs] P := by exact Can.sub (by assumption) (by decide)) : Keeps P s t := by
  unfold execJobStart at h
  cases h
  exact startJob_keeps (.refl _) ..

theorem execNodeStart_keeps {P : Part → Prop} {s t : State} {job node plan} (h : execNodeStart job node plan s = .next t)
    (can : Can [.regs, .stages, .jobs, .counters] P := by exact Can.sub (by assumption) (by decide)) : Keeps P s t := by
  unfold execNodeStart at h
  cases h
  exact startNode_keeps (.refl _) ..

theorem execJobComplete_keeps {P : Part → Prop} {s t : State} {job} (h : execJobComplete job s = .next t)
    (can : Can [.freeCount, .mem, .regs, .allocs, .descs, .graphs, .stages, .jobs, .waits, .voids, .dep, .respLog, .lotRing, .jnl, .txQueue, .sessions, .outs, .orphans, .arrays, .cores, .hoists, .scatters, .assays, .chutes, .counters] P := by exact Can.sub (by assumption) (by decide)) : Keeps P s t := by
  unfold execJobComplete at h
  cases h
  exact completeJob_keeps (.refl _) ..

theorem execFetchAndAdd_keeps {P : Part → Prop} {s t : State} {seam counter who} (h : execFetchAndAdd seam counter who s = .next t)
    (can : Can [.jobs, .dep, .counters] P := by exact Can.sub (by assumption) (by decide)) : Keeps P s t := by
  unfold execFetchAndAdd at h
  cases h
  exact fetchAdd_keeps (.refl _) ..

theorem execTaskComplete_keeps {P : Part → Prop} {s t : State} {seam counter index slot} (h : execTaskComplete seam counter index slot s = .next t)
    (can : Can [.regs, .stages, .jobs, .dep, .cores, .adits, .counters] P := by exact Can.sub (by assumption) (by decide)) : Keeps P s t := by
  unfold execTaskComplete at h
  cases h
  exact completeTask_keeps (.refl _) ..

theorem execTaskLoad_keeps {P : Part → Prop} {s t : State} {slot spec} (h : execTaskLoad slot spec s = .next t)
    (can : Can [.regs, .jobs, .cores] P := by exact Can.sub (by assumption) (by decide)) : Keeps P s t := by
  unfold execTaskLoad at h
  cases h
  exact loadTask_keeps (.refl _) ..

theorem execCommandIssue_keeps {P : Part → Prop} {s t : State} {slot unit completed} (h : execCommandIssue slot unit completed s = .next t)
    (can : Can [.freeCount, .mem, .regs, .doms, .graphs, .jobs, .fences, .voids, .dep, .jnl, .txQueue, .sessions, .outs, .port, .arrays, .cores, .adits, .hoists, .scatters, .assays, .chans, .links, .chutes, .hops, .counters] P := by exact Can.sub (by assumption) (by decide)) : Keeps P s t := by
  unfold execCommandIssue at h
  obtain rfl := Host.Outcome.next.inj h
  exact issueCommand_keeps (Keeps.refl s) slot unit completed can

theorem execTaskSwitch_keeps {P : Part → Prop} {s t : State} {core cause} (h : execTaskSwitch core cause s = .next t)
    (can : Can [.regs, .cores] P := by exact Can.sub (by assumption) (by decide)) : Keeps P s t := by
  unfold execTaskSwitch at h
  cases h
  exact switchTask_keeps (.refl _) ..

theorem execTaskAbort_keeps {P : Part → Prop} {s t : State} {slot} (h : execTaskAbort slot s = .next t)
    (can : Can [.regs, .jobs, .dep, .txQueue, .sessions, .outs, .arrays, .cores, .hoists, .scatters, .chutes] P := by exact Can.sub (by assumption) (by decide)) : Keeps P s t := by
  unfold execTaskAbort at h
  cases h
  exact abortTask_keeps (.refl _) ..

theorem execChargeStart_keeps {P : Part → Prop} {s t : State} {array slot cmd} (h : execChargeStart array slot cmd s = .next t)
    (can : Can [.regs, .arrays, .cores, .cals] P := by exact Can.sub (by assumption) (by decide)) : Keeps P s t := by
  unfold execChargeStart at h
  cases h
  exact startCharge_keeps (.refl _) ..

theorem execWeightTileLoad_keeps {P : Part → Prop} {s t : State} {array slot cmd image} (h : execWeightTileLoad array slot cmd image s = .next t)
    (can : Can [.mem, .regs, .arrays, .cores] P := by exact Can.sub (by assumption) (by decide)) : Keeps P s t := by
  unfold execWeightTileLoad at h
  cases h
  exact loadWeights_keeps (.refl _) ..

theorem execVectorSchedule_keeps {P : Part → Prop} {s t : State} {array record} (h : execVectorSchedule array record s = .next t)
    (can : Can [.mem, .regs, .arrays, .cores] P := by exact Can.sub (by assumption) (by decide)) : Keeps P s t := by
  unfold execVectorSchedule at h
  cases h
  exact scheduleVector_keeps (.refl _) ..

theorem execIdleSlot_keeps {P : Part → Prop} {s t : State} {array} (h : execIdleSlot array s = .next t)
    (can : Can [.regs, .arrays] P := by exact Can.sub (by assumption) (by decide)) : Keeps P s t := by
  unfold execIdleSlot at h
  cases h
  exact idleSlot_keeps (.refl _) ..

theorem execArrayFreeze_keeps {P : Part → Prop} {s t : State} {array} (h : execArrayFreeze array s = .next t)
    (can : Can [.regs, .arrays] P := by exact Can.sub (by assumption) (by decide)) : Keeps P s t := by
  unfold execArrayFreeze at h
  cases h
  exact freezeArray_keeps (.refl _) ..

theorem execDrainPartial_keeps {P : Part → Prop} {s t : State} {array upsets} (h : execDrainPartial array upsets s = .next t)
    (can : Can [.freeCount, .regs, .doms, .graphs, .jobs, .fences, .voids, .dep, .jnl, .txQueue, .sessions, .outs, .port, .arrays, .cores, .adits, .hoists, .scatters, .chans, .links, .chutes, .hops, .counters] P := by exact Can.sub (by assumption) (by decide)) : Keeps P s t := by
  unfold execDrainPartial at h
  cases h
  exact drainVector_keeps (.refl _) ..

theorem execVatAccept_keeps {P : Part → Prop} {s t : State} {array} (h : execVatAccept array s = .next t)
    (can : Can [.regs, .arrays, .cores] P := by exact Can.sub (by assumption) (by decide)) : Keeps P s t := by
  unfold execVatAccept at h
  cases h
  exact acceptVectors_keeps (.refl _) ..

theorem execX64Shift_keeps {P : Part → Prop} {s t : State} {array} (h : execX64Shift array s = .next t)
    (can : Can [.regs, .cores] P := by exact Can.sub (by assumption) (by decide)) : Keeps P s t := by
  unfold execX64Shift at h
  cases h
  exact shiftTile_keeps (.refl _) ..

theorem execX64Loss_keeps {P : Part → Prop} {s t : State} {array} (h : execX64Loss array s = .next t)
    (can : Can [.regs, .cores] P := by exact Can.sub (by assumption) (by decide)) : Keeps P s t := by
  unfold execX64Loss at h
  cases h
  exact lossTile_keeps (.refl _) ..

theorem execTileOpen_keeps {P : Part → Prop} {s t : State} {slot rt ct assay} (h : execTileOpen slot rt ct assay s = .next t)
    (can : Can [.mem, .regs, .cores] P := by exact Can.sub (by assumption) (by decide)) : Keeps P s t := by
  unfold execTileOpen at h
  cases h
  exact openTile_keeps (.refl _) ..

theorem execTileInitDone_keeps {P : Part → Prop} {s t : State} {core tile} (h : execTileInitDone core tile s = .next
    t)
    (can : Can [.cores] P := by exact Can.sub (by assumption) (by decide)) : Keeps P s t := by
  unfold execTileInitDone at h
  cases h
  with_reducible repeat' first
     | exact .refl _ | assumption | apply putTile_keeps | refine Keeps.ite ?_ (fun _ => ?_) | split

theorem execTileClose_keeps {P : Part → Prop} {s t : State} {core tile} (h : execTileClose core tile s = .next t)
    (can : Can [.regs, .jobs, .cores] P := by exact Can.sub (by assumption) (by decide)) : Keeps P s t := by
  unfold execTileClose at h
  cases h
  exact closeTile_keeps (.refl _) ..

theorem execPartCombine_keeps {P : Part → Prop} {s t : State} {core left right} (h : execPartCombine core left right s = .next t)
    (can : Can [.regs, .jobs, .cores] P := by exact Can.sub (by assumption) (by decide)) : Keeps P s t := by
  unfold execPartCombine at h
  cases h
  exact combineParts_keeps (.refl _) ..

theorem execVatSave_keeps {P : Part → Prop} {s t : State} {core tile offset} (h : execVatSave core tile offset s = .next t)
    (can : Can [.mem, .regs, .cores] P := by exact Can.sub (by assumption) (by decide)) : Keeps P s t := by
  unfold execVatSave at h
  cases h
  exact saveVat_keeps (.refl _) ..

theorem execVatRestore_keeps {P : Part → Prop} {s t : State} {slot rt ct assay offset} (h : execVatRestore slot rt ct assay offset s = .next t)
    (can : Can [.mem, .regs, .jobs, .dep, .txQueue, .sessions, .outs, .arrays, .cores, .hoists, .scatters, .chutes] P := by exact Can.sub (by assumption) (by decide)) : Keeps P s t := by
  unfold execVatRestore at h
  cases h
  exact restoreTile_keeps (.refl _) ..

theorem execScratchAccess_keeps {P : Part → Prop} {s t : State} {core requests} (h : execScratchAccess core requests s = .next t)
    (can : Can [.freeCount, .mem, .regs, .doms, .graphs, .jobs, .fences, .voids, .dep, .jnl, .txQueue, .sessions, .outs, .port, .arrays, .cores, .adits, .hoists, .scatters, .chans, .links, .chutes, .hops, .counters] P := by exact Can.sub (by assumption) (by decide)) : Keeps P s t := by
  unfold execScratchAccess at h
  cases h
  exact scratchAccess_keeps (.refl _) ..

theorem execScratchStarvePromote_keeps {P : Part → Prop} {s t : State} {core bank who} (h : execScratchStarvePromote core bank who s = .next t)
    (can : Can [.regs, .cores] P := by exact Can.sub (by assumption) (by decide)) : Keeps P s t := by
  unfold execScratchStarvePromote at h
  cases h
  exact promoteRequester_keeps (.refl _) ..

theorem execVeAdd_keeps {P : Part → Prop} {s t : State} {o} (h : execVeAdd o s = .next t)
    (can : Can [.regs, .cores] P := by exact Can.sub (by assumption) (by decide)) : Keeps P s t := by
  unfold execVeAdd veBin at h
  exact veLanes_keeps h

theorem execVeSub_keeps {P : Part → Prop} {s t : State} {o} (h : execVeSub o s = .next t)
    (can : Can [.regs, .cores] P := by exact Can.sub (by assumption) (by decide)) : Keeps P s t := by
  unfold execVeSub veBin at h
  exact veLanes_keeps h

theorem execVeMul_keeps {P : Part → Prop} {s t : State} {o} (h : execVeMul o s = .next t)
    (can : Can [.regs, .cores] P := by exact Can.sub (by assumption) (by decide)) : Keeps P s t := by
  unfold execVeMul veBin at h
  exact veLanes_keeps h

theorem execVeFma_keeps {P : Part → Prop} {s t : State} {o c} (h : execVeFma o c s = .next t)
    (can : Can [.regs, .cores] P := by exact Can.sub (by assumption) (by decide)) : Keeps P s t := by
  unfold execVeFma at h
  exact veLanes_keeps h

theorem execVeMin_keeps {P : Part → Prop} {s t : State} {o} (h : execVeMin o s = .next t)
    (can : Can [.regs, .cores] P := by exact Can.sub (by assumption) (by decide)) : Keeps P s t := by
  unfold execVeMin veBin at h
  exact veLanes_keeps h

theorem execVeMax_keeps {P : Part → Prop} {s t : State} {o} (h : execVeMax o s = .next t)
    (can : Can [.regs, .cores] P := by exact Can.sub (by assumption) (by decide)) : Keeps P s t := by
  unfold execVeMax veBin at h
  exact veLanes_keeps h

theorem execVeAbs_keeps {P : Part → Prop} {s t : State} {o} (h : execVeAbs o s = .next t)
    (can : Can [.regs, .cores] P := by exact Can.sub (by assumption) (by decide)) : Keeps P s t := by
  unfold execVeAbs veUn at h
  exact veLanes_keeps h

theorem execVeNeg_keeps {P : Part → Prop} {s t : State} {o} (h : execVeNeg o s = .next t)
    (can : Can [.regs, .cores] P := by exact Can.sub (by assumption) (by decide)) : Keeps P s t := by
  unfold execVeNeg veUn at h
  exact veLanes_keeps h

theorem execVeDot4_keeps {P : Part → Prop} {s t : State} {o} (h : execVeDot4 o s = .next t)
    (can : Can [.regs, .cores] P := by exact Can.sub (by assumption) (by decide)) : Keeps P s t := by
  unfold execVeDot4 at h
  exact veLanes_keeps h

theorem execVeAnd_keeps {P : Part → Prop} {s t : State} {o} (h : execVeAnd o s = .next t)
    (can : Can [.regs, .cores] P := by exact Can.sub (by assumption) (by decide)) : Keeps P s t := by
  unfold execVeAnd veLogic at h
  exact veLanes_keeps h

theorem execVeOr_keeps {P : Part → Prop} {s t : State} {o} (h : execVeOr o s = .next t)
    (can : Can [.regs, .cores] P := by exact Can.sub (by assumption) (by decide)) : Keeps P s t := by
  unfold execVeOr veLogic at h
  exact veLanes_keeps h

theorem execVeXor_keeps {P : Part → Prop} {s t : State} {o} (h : execVeXor o s = .next t)
    (can : Can [.regs, .cores] P := by exact Can.sub (by assumption) (by decide)) : Keeps P s t := by
  unfold execVeXor veLogic at h
  exact veLanes_keeps h

theorem execVeNot_keeps {P : Part → Prop} {s t : State} {o} (h : execVeNot o s = .next t)
    (can : Can [.regs, .cores] P := by exact Can.sub (by assumption) (by decide)) : Keeps P s t := by
  unfold execVeNot veLogic at h
  exact veLanes_keeps h

theorem execVeShl_keeps {P : Part → Prop} {s t : State} {o} (h : execVeShl o s = .next t)
    (can : Can [.regs, .cores] P := by exact Can.sub (by assumption) (by decide)) : Keeps P s t := by
  unfold execVeShl veLogic at h
  exact veLanes_keeps h

theorem execVeShr_keeps {P : Part → Prop} {s t : State} {o} (h : execVeShr o s = .next t)
    (can : Can [.regs, .cores] P := by exact Can.sub (by assumption) (by decide)) : Keeps P s t := by
  unfold execVeShr veLogic at h
  exact veLanes_keeps h

theorem execVeSar_keeps {P : Part → Prop} {s t : State} {o} (h : execVeSar o s = .next t)
    (can : Can [.regs, .cores] P := by exact Can.sub (by assumption) (by decide)) : Keeps P s t := by
  unfold execVeSar veLogic at h
  exact veLanes_keeps h

theorem execVeCmp_keeps {P : Part → Prop} {s t : State} {o rel} (h : execVeCmp o rel s = .next t)
    (can : Can [.regs, .cores] P := by exact Can.sub (by assumption) (by decide)) : Keeps P s t := by
  unfold execVeCmp veBin at h
  exact veLanes_keeps h

theorem execVeSel_keeps {P : Part → Prop} {s t : State} {o c} (h : execVeSel o c s = .next t)
    (can : Can [.regs, .cores] P := by exact Can.sub (by assumption) (by decide)) : Keeps P s t := by
  unfold execVeSel at h
  exact veLanes_keeps h

theorem execVeRcp_keeps {P : Part → Prop} {s t : State} {o} (h : execVeRcp o s = .next t)
    (can : Can [.regs, .cores] P := by exact Can.sub (by assumption) (by decide)) : Keeps P s t := by
  unfold execVeRcp veSpecial at h
  exact veLanes_keeps h

theorem execVeRsqrt_keeps {P : Part → Prop} {s t : State} {o} (h : execVeRsqrt o s = .next t)
    (can : Can [.regs, .cores] P := by exact Can.sub (by assumption) (by decide)) : Keeps P s t := by
  unfold execVeRsqrt veSpecial at h
  exact veLanes_keeps h

theorem execVeSqrt_keeps {P : Part → Prop} {s t : State} {o} (h : execVeSqrt o s = .next t)
    (can : Can [.regs, .cores] P := by exact Can.sub (by assumption) (by decide)) : Keeps P s t := by
  unfold execVeSqrt veSpecial at h
  exact veLanes_keeps h

theorem execVeDiv_keeps {P : Part → Prop} {s t : State} {o} (h : execVeDiv o s = .next t)
    (can : Can [.regs, .cores] P := by exact Can.sub (by assumption) (by decide)) : Keeps P s t := by
  unfold execVeDiv veBin at h
  exact veLanes_keeps h

theorem execVeExp2_keeps {P : Part → Prop} {s t : State} {o} (h : execVeExp2 o s = .next t)
    (can : Can [.regs, .cores] P := by exact Can.sub (by assumption) (by decide)) : Keeps P s t := by
  unfold execVeExp2 veSpecial at h
  exact veLanes_keeps h

theorem execVeLog2_keeps {P : Part → Prop} {s t : State} {o} (h : execVeLog2 o s = .next t)
    (can : Can [.regs, .cores] P := by exact Can.sub (by assumption) (by decide)) : Keeps P s t := by
  unfold execVeLog2 veSpecial at h
  exact veLanes_keeps h

theorem execVeTanh_keeps {P : Part → Prop} {s t : State} {o} (h : execVeTanh o s = .next t)
    (can : Can [.regs, .cores] P := by exact Can.sub (by assumption) (by decide)) : Keeps P s t := by
  unfold execVeTanh veSpecial at h
  exact veLanes_keeps h

theorem execVeErf_keeps {P : Part → Prop} {s t : State} {o} (h : execVeErf o s = .next t)
    (can : Can [.regs, .cores] P := by exact Can.sub (by assumption) (by decide)) : Keeps P s t := by
  unfold execVeErf veSpecial at h
  exact veLanes_keeps h

theorem execVeRedsum_keeps {P : Part → Prop} {s t : State} {o} (h : execVeRedsum o s = .next t)
    (can : Can [.regs, .cores] P := by exact Can.sub (by assumption) (by decide)) : Keeps P s t := by
  unfold execVeRedsum veReduce at h
  exact veLanes_keeps h

theorem execVeRedmax_keeps {P : Part → Prop} {s t : State} {o} (h : execVeRedmax o s = .next t)
    (can : Can [.regs, .cores] P := by exact Can.sub (by assumption) (by decide)) : Keeps P s t := by
  unfold execVeRedmax veReduce at h
  exact veLanes_keeps h

theorem execVeRedmin_keeps {P : Part → Prop} {s t : State} {o} (h : execVeRedmin o s = .next t)
    (can : Can [.regs, .cores] P := by exact Can.sub (by assumption) (by decide)) : Keeps P s t := by
  unfold execVeRedmin veReduce at h
  exact veLanes_keeps h

theorem execVeCvt_keeps {P : Part → Prop} {s t : State} {t' src dst mods cover} (h : execVeCvt t' src dst mods cover s = .next t)
    (can : Can [.freeCount, .mem, .regs, .doms, .graphs, .jobs, .fences, .voids, .dep, .jnl, .txQueue, .sessions, .outs, .port, .arrays, .cores, .adits, .hoists, .scatters, .chans, .links, .chutes, .hops, .counters] P := by exact Can.sub (by assumption) (by decide)) : Keeps P s t := by
  unfold execVeCvt at h
  refine onWindow_keeps h ?_
  with_reducible repeat' first
    | exact .refl _ | assumption | exact Can.sub (by assumption) (by decide) | apply afterPoison_keeps | apply meetPoison_keeps
    | apply cvtStore_keeps | split | intro _ _ | extract_lets

theorem execVeLd_keeps {P : Part → Prop} {s t : State} {t' dst offset} (h : execVeLd t' dst offset s = .next t)
    (can : Can [.freeCount, .mem, .regs, .doms, .graphs, .jobs, .fences, .voids, .dep, .jnl, .txQueue, .sessions, .outs, .port, .arrays, .cores, .adits, .hoists, .scatters, .chans, .links, .chutes, .hops, .counters] P := by exact Can.sub (by assumption) (by decide)) : Keeps P s t := by
  unfold execVeLd at h
  refine onWindow_keeps h ?_
  with_reducible repeat' first
    | exact .refl _ | assumption | exact Can.sub (by assumption) (by decide) | apply afterPoison_keeps | apply meetPoison_keeps
    | apply veResult_keeps | split | intro _ _ | extract_lets

theorem execVeSt_keeps {P : Part → Prop} {s t : State} {t' src offset} (h : execVeSt t' src offset s = .next t)
    (can : Can [.freeCount, .mem, .regs, .doms, .graphs, .jobs, .fences, .voids, .dep, .jnl, .txQueue, .sessions, .outs, .port, .arrays, .cores, .adits, .hoists, .scatters, .chans, .links, .chutes, .hops, .counters] P := by exact Can.sub (by assumption) (by decide)) : Keeps P s t := by
  unfold execVeSt at h
  refine onWindow_keeps h ?_
  with_reducible repeat' first
    | exact .refl _ | assumption | exact Can.sub (by assumption) (by decide) | apply afterPoison_keeps | apply meetPoison_keeps
    | apply veDone_keeps | apply writeWindow_keeps | split | intro _ _ | extract_lets

theorem execVeGather_keeps {P : Part → Prop} {s t : State} {o} (h : execVeGather o s = .next t)
    (can : Can [.freeCount, .mem, .regs, .doms, .graphs, .jobs, .fences, .voids, .dep, .jnl, .txQueue, .sessions, .outs, .port, .arrays, .cores, .adits, .hoists, .scatters, .chans, .links, .chutes, .hops, .counters] P := by exact Can.sub (by assumption) (by decide)) : Keeps P s t := by
  unfold execVeGather at h
  refine onWindow_keeps h ?_
  with_reducible repeat' first
    | exact .refl _ | assumption | exact Can.sub (by assumption) (by decide) | apply afterPoison_keeps | apply meetPoison_keeps
    | apply veOob_keeps | apply veResult_keeps | split | intro _ _ | extract_lets

theorem execVeScatter_keeps {P : Part → Prop} {s t : State} {o} (h : execVeScatter o s = .next t)
    (can : Can [.freeCount, .mem, .regs, .doms, .graphs, .jobs, .fences, .voids, .dep, .jnl, .txQueue, .sessions, .outs, .port, .arrays, .cores, .adits, .hoists, .scatters, .chans, .links, .chutes, .hops, .counters] P := by exact Can.sub (by assumption) (by decide)) : Keeps P s t := by
  unfold execVeScatter at h
  exact veScatterWith_keeps h

theorem execVeScatterAdd_keeps {P : Part → Prop} {s t : State} {o} (h : execVeScatterAdd o s = .next t)
    (can : Can [.freeCount, .mem, .regs, .doms, .graphs, .jobs, .fences, .voids, .dep, .jnl, .txQueue, .sessions, .outs, .port, .arrays, .cores, .adits, .hoists, .scatters, .chans, .links, .chutes, .hops, .counters] P := by exact Can.sub (by assumption) (by decide)) : Keeps P s t := by
  unfold execVeScatterAdd at h
  exact veScatterWith_keeps h

theorem execMerge_keeps {P : Part → Prop} {s t : State} {m} (h : execMerge m s = .next t)
    (can : Can [.freeCount, .mem, .regs, .doms, .graphs, .jobs, .fences, .voids, .dep, .jnl, .txQueue, .sessions, .outs, .port, .arrays, .cores, .adits, .hoists, .scatters, .chans, .links, .chutes, .hops, .counters] P := by exact Can.sub (by assumption) (by decide)) : Keeps P s t := by
  unfold execMerge at h
  refine onUnit_keeps h ?_
  split
  · exact mergeCmd_keeps (.refl _) ..
  · exact .refl _

theorem execAditColumnGroup_keeps {P : Part → Prop} {s t : State} {unit counter index core upsets untranslated} (h : execAditColumnGroup unit counter index core upsets untranslated s = .next t)
    (can : Can [.freeCount, .mem, .regs, .doms, .graphs, .jobs, .fences, .voids, .dep, .jnl, .txQueue, .sessions, .outs, .port, .arrays, .cores, .adits, .hoists, .scatters, .assays, .chans, .links, .chutes, .hops, .counters] P := by exact Can.sub (by assumption) (by decide)) : Keeps P s t := by
  unfold execAditColumnGroup at h
  cases h
  exact columnGroup_keeps (.refl _) ..

theorem execAditProbe_keeps {P : Part → Prop} {s t : State} {graph node} (h : execAditProbe graph node s = .next t)
    (can : Can [.stages] P := by exact Can.sub (by assumption) (by decide)) : Keeps P s t := by
  unfold execAditProbe at h
  cases h
  exact probe_keeps (.refl _) ..

theorem execAssayPass_keeps {P : Part → Prop} {s t : State} {array record} (h : execAssayPass array record s = .next t)
    (can : Can [.mem, .regs, .arrays, .cores] P := by exact Can.sub (by assumption) (by decide)) : Keeps P s t := by
  unfold execAssayPass at h
  cases h
  exact assayPass_keeps (.refl _) ..

theorem execAssayBound_keeps {P : Part → Prop} {s t : State} {slot rt ct} (h : execAssayBound slot rt ct s = .next t)
    (can : Can [.regs, .jobs, .cores] P := by exact Can.sub (by assumption) (by decide)) : Keeps P s t := by
  unfold execAssayBound at h
  cases h
  exact assayBound_keeps (.refl _) ..

theorem execAssayAudit_keeps {P : Part → Prop} {s t : State} {slot rt ct row} (h : execAssayAudit slot rt ct row s = .next t)
    (can : Can [.freeCount, .regs, .doms, .graphs, .jobs, .fences, .voids, .dep, .jnl, .txQueue, .sessions, .outs, .port, .arrays, .cores, .adits, .hoists, .scatters, .chans, .links, .chutes, .hops, .counters] P := by exact Can.sub (by assumption) (by decide)) : Keeps P s t := by
  unfold execAssayAudit at h
  cases h
  exact assayAudit_keeps (.refl _) ..

theorem execAssaySumsRecompute_keeps {P : Part → Prop} {s t : State} {core table} (h : execAssaySumsRecompute core table s = .next t)
    (can : Can [.mem, .regs, .voids, .dep, .cores, .assays] P := by exact Can.sub (by assumption) (by decide)) : Keeps P s t := by
  unfold execAssaySumsRecompute at h
  cases h
  exact recomputeSums_keeps (.refl _) ..

theorem execHoistCommand_keeps {P : Part → Prop} {s t : State} {queue cmd} (h : execHoistCommand queue cmd s = .next t)
    (can : Can [.hoists] P := by exact Can.sub (by assumption) (by decide)) : Keeps P s t := by
  unfold execHoistCommand at h
  cases h
  exact enterCommand_keeps (.refl _) ..

theorem execCopy_keeps {P : Part → Prop} {s t : State} {queue src dst perm dry} (h : execCopy queue src dst perm dry s = .next t)
    (can : Can [.freeCount, .hoists] P := by exact Can.sub (by assumption) (by decide)) : Keeps P s t := by
  unfold execCopy at h
  cases h
  exact copyTensor_keeps (.refl _) ..

theorem execHoistGather_keeps {P : Part → Prop} {s t : State} {queue src idx dst dim dry} (h : execHoistGather queue src idx dst dim dry s = .next t)
    (can : Can [.freeCount, .regs, .cores, .hoists] P := by exact Can.sub (by assumption) (by decide)) : Keeps P s t := by
  unfold execHoistGather at h
  cases h
  exact gatherTensor_keeps (.refl _) ..

theorem execHoistScatter_keeps {P : Part → Prop} {s t : State} {queue src idx dst dim dry} (h : execHoistScatter queue src idx dst dim dry s = .next t)
    (can : Can [.freeCount, .regs, .cores, .hoists] P := by exact Can.sub (by assumption) (by decide)) : Keeps P s t := by
  unfold execHoistScatter at h
  cases h
  exact scatterTensor_keeps (.refl _) ..

theorem execHoistScatterAdd_keeps {P : Part → Prop} {s t : State} {queue job node task src idx dst dim first count} (h : execHoistScatterAdd queue job node task src idx dst dim first count s = .next t)
    (can : Can [.regs, .cores, .hoists, .scatters] P := by exact Can.sub (by assumption) (by decide)) : Keeps P s t := by
  unfold execHoistScatterAdd at h
  cases h
  exact scatterAdd_keeps (.refl _) ..

theorem execScatterAddCommit_keeps {P : Part → Prop} {s t : State} {job node task} (h : execScatterAddCommit job node task s = .next t)
    (can : Can [.jobs, .lotRing, .jnl, .txQueue, .outs, .scatters] P := by exact Can.sub (by assumption) (by decide)) : Keeps P s t := by
  unfold execScatterAddCommit at h
  cases h
  exact commitScatter_keeps (.refl _) ..

theorem execBroadcast_keeps {P : Part → Prop} {s t : State} {queue cars} (h : execBroadcast queue cars s = .next t)
    (can : Can [.hoists] P := by exact Can.sub (by assumption) (by decide)) : Keeps P s t := by
  unfold execBroadcast at h
  cases h
  exact feedTrain_keeps (.refl _) ..

theorem execSegmentIssue_keeps {P : Part → Prop} {s t : State} {seam hoist untranslated} (h : execSegmentIssue seam hoist untranslated s = .next t)
    (can : Can [.freeCount, .mem, .regs, .doms, .graphs, .jobs, .fences, .voids, .dep, .jnl, .txQueue, .sessions, .outs, .port, .arrays, .cores, .adits, .hoists, .scatters, .chans, .links, .chutes, .hops, .counters] P := by exact Can.sub (by assumption) (by decide)) : Keeps P s t := by
  unfold execSegmentIssue at h
  cases h
  exact issueOne_keeps (.refl _) ..

theorem execSegmentComplete_keeps {P : Part → Prop} {s t : State} {queue segment poisoned} (h : execSegmentComplete queue segment poisoned s = .next t)
    (can : Can [.freeCount, .mem, .regs, .jobs, .voids, .dep, .txQueue, .sessions, .outs, .arrays, .cores, .hoists, .scatters, .assays, .chutes, .hops] P := by exact Can.sub (by assumption) (by decide)) : Keeps P s t := by
  unfold execSegmentComplete at h
  cases h
  exact completeSegment_keeps (.refl _) ..

theorem execDescriptorBatchFetch_keeps {P : Part → Prop} {s t : State} {queue cmds} (h : execDescriptorBatchFetch queue cmds s = .next t)
    (can : Can [.regs, .hoists, .chans] P := by exact Can.sub (by assumption) (by decide)) : Keeps P s t := by
  unfold execDescriptorBatchFetch at h
  cases h
  exact fetchBatch_keeps (.refl _) ..

theorem execDoorbell_keeps {P : Part → Prop} {s t : State} {queue cmds} (h : execDoorbell queue cmds s = .next t)
    (can : Can [.regs, .hoists, .chans] P := by exact Can.sub (by assumption) (by decide)) : Keeps P s t := by
  unfold execDoorbell at h
  cases h
  exact fetchBatch_keeps (.refl _) ..

theorem execDescriptorRefetchTimeout_keeps {P : Part → Prop} {s t : State} {queue cmds} (h : execDescriptorRefetchTimeout queue cmds s = .next t)
    (can : Can [.regs, .hoists, .chans] P := by exact Can.sub (by assumption) (by decide)) : Keeps P s t := by
  unfold execDescriptorRefetchTimeout at h
  cases h
  exact fetchBatch_keeps (.refl _) ..

theorem execDramSlot_keeps {P : Part → Prop} {s t : State} {chan errors} (h : execDramSlot chan errors s = .next t)
    (can : Can [.freeCount, .mem, .regs, .doms, .graphs, .jobs, .fences, .voids, .dep, .jnl, .txQueue, .sessions, .outs, .port, .arrays, .cores, .adits, .hoists, .scatters, .assays, .chans, .links, .chutes, .hops, .counters] P := by exact Can.sub (by assumption) (by decide)) : Keeps P s t := by
  unfold execDramSlot at h
  cases h
  exact dramGrant_keeps (.refl _) ..

theorem execScrub_keeps {P : Part → Prop} {s t : State} {chan} (h : execScrub chan s = .next t)
    (can : Can [.chans] P := by exact Can.sub (by assumption) (by decide)) : Keeps P s t := by
  unfold execScrub at h
  cases h
  exact scrubWord_keeps (.refl _) ..

theorem execRefresh_keeps {P : Part → Prop} {s t : State} {chan} (h : execRefresh chan s = .next t)
    (can : Can [.chans] P := by exact Can.sub (by assumption) (by decide)) : Keeps P s t := by
  unfold execRefresh at h
  cases h
  exact refreshBank_keeps (.refl _) ..

theorem execLinkWord_keeps {P : Part → Prop} {s t : State} {seam dir waiting ecc} (h : execLinkWord seam dir waiting ecc s = .next t)
    (can : Can [.regs, .links] P := by exact Can.sub (by assumption) (by decide)) : Keeps P s t := by
  unfold execLinkWord at h
  cases h
  exact crossLink_keeps (.refl _) ..

theorem execPacketCommit_keeps {P : Part → Prop} {s t : State} {ep packet} (h : execPacketCommit ep packet s = .next t)
    (can : Can [.regs, .jobs, .dep, .txQueue, .sessions, .outs, .arrays, .cores, .hoists, .scatters, .chutes] P := by exact Can.sub (by assumption) (by decide)) : Keeps P s t := by
  unfold execPacketCommit at h
  cases h
  exact commitAt_keeps (.refl _) ..

theorem execCommitReceived_keeps {P : Part → Prop} {s t : State} {ep} (h : execCommitReceived ep s = .next t)
    (can : Can [.chutes] P := by exact Can.sub (by assumption) (by decide)) : Keeps P s t := by
  unfold execCommitReceived at h
  cases h
  exact commitReceived_keeps (.refl _) ..

theorem execRewoundReceived_keeps {P : Part → Prop} {s t : State} {ep} (h : execRewoundReceived ep s = .next t)
    (can : Can [.chutes] P := by exact Can.sub (by assumption) (by decide)) : Keeps P s t := by
  unfold execRewoundReceived at h
  cases h
  exact rewoundReceived_keeps (.refl _) ..

theorem execGrantReceived_keeps {P : Part → Prop} {s t : State} {ep} (h : execGrantReceived ep s = .next t)
    (can : Can [.txQueue, .sessions, .chutes] P := by exact Can.sub (by assumption) (by decide)) : Keeps P s t := by
  unfold execGrantReceived at h
  cases h
  exact grantReceived_keeps (.refl _) ..

theorem execConsumerRead_keeps {P : Part → Prop} {s t : State} {ep addr len poisoned} (h : execConsumerRead ep addr len poisoned s = .next t)
    (can : Can [.mem, .regs, .jobs, .voids, .dep, .txQueue, .sessions, .outs, .arrays, .cores, .hoists, .scatters, .assays, .chutes] P := by exact Can.sub (by assumption) (by decide)) : Keeps P s t := by
  unfold execConsumerRead at h
  cases h
  exact consumerRead_keeps (.refl _) ..

theorem execCloseMark_keeps {P : Part → Prop} {s t : State} {ep} (h : execCloseMark ep s = .next t)
    (can : Can [.regs, .chutes] P := by exact Can.sub (by assumption) (by decide)) : Keeps P s t := by
  unfold execCloseMark at h
  cases h
  exact closeMarkCmd_keeps (.refl _) ..

theorem execFillTimerExpiry_keeps {P : Part → Prop} {s t : State} {ep} (h : execFillTimerExpiry ep s = .next t)
    (can : Can [.txQueue, .chutes] P := by exact Can.sub (by assumption) (by decide)) : Keeps P s t := by
  unfold execFillTimerExpiry at h
  cases h
  exact fillTimerExpiry_keeps (.refl _) ..

theorem execTailNotice_keeps {P : Part → Prop} {s t : State} {ep} (h : execTailNotice ep s = .next t)
    (can : Can [.chutes] P := by exact Can.sub (by assumption) (by decide)) : Keeps P s t := by
  unfold execTailNotice at h
  cases h
  exact tailNotice_keeps (.refl _) ..

theorem execReadTimerExpiry_keeps {P : Part → Prop} {s t : State} {ep} (h : execReadTimerExpiry ep s = .next t)
    (can : Can [.regs, .chutes] P := by exact Can.sub (by assumption) (by decide)) : Keeps P s t := by
  unfold execReadTimerExpiry at h
  cases h
  exact readTimerExpiry_keeps (.refl _) ..

theorem execChuteReset_keeps {P : Part → Prop} {s t : State} {ep} (h : execChuteReset ep s = .next t)
    (can : Can [.regs, .jobs, .dep, .txQueue, .sessions, .outs, .arrays, .cores, .hoists, .scatters, .chutes] P := by exact Can.sub (by assumption) (by decide)) : Keeps P s t := by
  unfold execChuteReset at h
  cases h
  exact resetAt_keeps (.refl _) ..

theorem execCarHop_keeps {P : Part → Prop} {s t : State} {core car injected ecc} (h : execCarHop core car injected ecc s = .next t)
    (can : Can [.mem, .regs, .cores, .hops] P := by exact Can.sub (by assumption) (by decide)) : Keeps P s t := by
  unfold execCarHop at h
  cases h
  exact hopCar_keeps (.refl _) ..

theorem execTramStall_keeps {P : Part → Prop} {s t : State} {core} (h : execTramStall core s = .next t)
    (can : Can [.regs, .hops] P := by exact Can.sub (by assumption) (by decide)) : Keeps P s t := by
  unfold execTramStall at h
  cases h
  exact stallTram_keeps (.refl _) ..

theorem execHello_keeps {P : Part → Prop} {s t : State} {req} (h : execHello req s = .next t)
    (can : Can [.freeCount, .regs, .pwr, .txQueue, .nonces, .mgmt] P
      := by exact Can.sub (by assumption) (by decide)) :
    Keeps P s t := by
  unfold execHello at h
  cases h
  with_reducible repeat' first
     | exact .refl _ | assumption | exact Can.sub (by assumption) (by decide) | apply ofOp_keeps
     | apply helloRun_keeps | intro _ _

theorem execOpenSession_keeps {P : Part → Prop} {s t : State} {req sig} (h : execOpenSession req sig s = .next t)
    (can : Can [.freeCount, .regs, .graphs, .jnl, .txQueue, .sessions, .outs, .nonces, .mgmt, .chutes] P
      := by exact Can.sub (by assumption) (by decide)) :
    Keeps P s t := by
  unfold execOpenSession at h
  cases h
  with_reducible repeat' first
     | exact .refl _ | assumption | exact Can.sub (by assumption) (by decide) | apply ofOp_keeps | apply openRun_keeps
     | intro _ _

theorem execShut_keeps {P : Part → Prop} {s t : State} {req} (h : execShut req s = .next t)
    (can : Can [.regs, .jobs, .waits, .respLog, .lotRing, .jnl, .txQueue, .sessions, .outs, .orphans, .mgmt,
      .chutes] P := by exact Can.sub (by assumption) (by decide)) :
    Keeps P s t := by
  unfold execShut at h
  cases h
  with_reducible repeat' first
     | exact .refl _ | assumption | exact Can.sub (by assumption) (by decide) | apply ofOp_keeps | apply shutRun_keeps
     | intro _ _

theorem execMgmtFrameReceive_keeps {P : Part → Prop} {s t : State} {req} (h : execMgmtFrameReceive req s = .next t)
    (can : Can [.regs, .txQueue, .mgmt] P := by exact Can.sub (by assumption) (by decide)) : Keeps P s t := by
  unfold execMgmtFrameReceive at h
  cases h
  exact mgmtFrameReceive_keeps (.refl _) ..

theorem execRead_keeps {P : Part → Prop} {s t : State} {req} (h : execRead req s = .next t)
    (can : Can [.freeCount, .mem, .regs, .doms, .clk, .nor, .owner, .image, .att, .temps, .pwr, .allocs, .descs,
      .graphs, .stages, .jobs, .waits, .fences, .voids, .dep, .respLog, .lotRing, .jnl, .txQueue, .sessions, .outs,
      .orphans, .nonces, .mgmt, .port, .arrays, .cores, .adits, .hoists, .scatters, .assays, .chans, .links,
      .chutes, .hops, .counters, .cals] P := by exact Can.sub (by assumption) (by decide)) :
    Keeps P s t := by
  unfold execRead at h
  cases h
  with_reducible repeat' first
     | exact .refl _ | assumption | exact Can.sub (by assumption) (by decide) | apply ofOp_keeps
     | apply accessRun_keeps | intro _ _

theorem execWrite_keeps {P : Part → Prop} {s t : State} {req sig} (h : execWrite req sig s = .next t)
    (can : Can [.freeCount, .mem, .regs, .doms, .clk, .nor, .owner, .image, .att, .temps, .pwr, .allocs, .descs,
      .graphs, .stages, .jobs, .waits, .fences, .voids, .dep, .respLog, .lotRing, .jnl, .txQueue, .sessions, .outs,
      .orphans, .nonces, .mgmt, .port, .arrays, .cores, .adits, .hoists, .scatters, .assays, .chans, .links,
      .chutes, .hops, .counters, .cals] P := by exact Can.sub (by assumption) (by decide)) :
    Keeps P s t := by
  unfold execWrite at h
  cases h
  with_reducible repeat' first
     | exact .refl _ | assumption | exact Can.sub (by assumption) (by decide) | apply ofOp_keeps
     | apply accessRun_keeps | intro _ _

theorem execAbort_keeps {P : Part → Prop} {s t : State} {req} (h : execAbort req s = .next t)
    (can : Can [.regs, .txQueue, .mgmt] P := by exact Can.sub (by assumption) (by decide)) : Keeps P s t := by
  unfold execAbort at h
  cases h
  with_reducible repeat' first | exact .refl _ | assumption | apply ofOp_keeps | apply abortRun_keeps | intro _ _

theorem execAnnounce_keeps {P : Part → Prop} {s t : State} (h : execAnnounce s = .next t)
    (can : Can [.pwr, .txQueue] P := by exact Can.sub (by assumption) (by decide)) : Keeps P s t := by
  unfold execAnnounce at h
  cases h
  exact announce_keeps (.refl _) ..

theorem execHqCfgWrite_keeps {P : Part → Prop} {s t : State} {queue value} (h : execHqCfgWrite queue value s = .next t)
    (can : Can [.regs] P := by exact Can.sub (by assumption) (by decide)) : Keeps P s t := by
  unfold execHqCfgWrite at h
  cases h
  exact hqCfgWrite_keeps (.refl _) ..

theorem execChCtrlReset_keeps {P : Part → Prop} {s t : State} {ep value} (h : execChCtrlReset ep value s = .next t)
    (can : Can [.regs, .jobs, .dep, .txQueue, .sessions, .outs, .arrays, .cores, .hoists, .scatters, .chutes] P := by exact Can.sub (by assumption) (by decide)) : Keeps P s t := by
  unfold execChCtrlReset at h
  cases h
  exact chCtrlReset_keeps (.refl _) ..

theorem execDepCtrlWarm_keeps {P : Part → Prop} {s t : State} {value} (h : execDepCtrlWarm value s = .next t)
    (can : Can [.freeCount, .mem, .regs, .doms, .clk, .nor, .owner, .image, .att, .temps, .pwr, .allocs, .descs,
      .graphs, .stages, .jobs, .waits, .fences, .voids, .dep, .respLog, .lotRing, .jnl, .txQueue, .sessions, .outs,
      .orphans, .nonces, .mgmt, .port, .arrays, .cores, .adits, .hoists, .scatters, .assays, .chans, .links,
      .chutes, .hops, .counters, .cals] P := by exact Can.sub (by assumption) (by decide)) :
    Keeps P s t := by
  unfold execDepCtrlWarm at h
  cases h
  with_reducible repeat' first | exact .refl _ | assumption | apply warmIf_keeps | refine Keeps.ite ?_ (fun _ => ?_)

theorem execDepCtrlRestoreSkip_keeps {P : Part → Prop} {s t : State} {value} (h : execDepCtrlRestoreSkip value s =
    .next t)
    (can : Can [.regs, .dep, .jnl] P := by exact Can.sub (by assumption) (by decide)) : Keeps P s t := by
  unfold execDepCtrlRestoreSkip at h
  cases h
  with_reducible repeat' first
     | exact .refl _ | assumption | apply restoreSkip_keeps | refine Keeps.ite ?_ (fun _ => ?_)

theorem execProgram_keeps {P : Part → Prop} {s t : State} {value} (h : execProgram value s = .next t)
    (can : Can [.regs, .image] P := by exact Can.sub (by assumption) (by decide)) : Keeps P s t := by
  unfold execProgram at h
  cases h
  with_reducible repeat' first
     | exact .refl _ | assumption | apply writeImgCtrl_keeps | refine Keeps.ite ?_ (fun _ => ?_)

theorem execVerify_keeps {P : Part → Prop} {s t : State} {value} (h : execVerify value s = .next t)
    (can : Can [.regs, .image] P := by exact Can.sub (by assumption) (by decide)) : Keeps P s t := by
  unfold execVerify at h
  cases h
  with_reducible repeat' first
     | exact .refl _ | assumption | apply writeImgCtrl_keeps | refine Keeps.ite ?_ (fun _ => ?_)

theorem execImgProgDone_keeps {P : Part → Prop} {s t : State} {ok errCode verdict} (h : execImgProgDone ok errCode verdict s = .next t)
    (can : Can [.freeCount, .regs, .nor, .image] P := by exact Can.sub (by assumption) (by decide)) : Keeps P s t := by
  unfold execImgProgDone at h
  cases h
  exact imgProgDone_keeps (.refl _) ..

theorem execEnrol_keeps {P : Part → Prop} {s t : State} {value sig} (h : execEnrol value sig s = .next t)
    (can : Can [.owner] P := by exact Can.sub (by assumption) (by decide)) : Keeps P s t := by
  unfold execEnrol at h
  cases h
  exact beginEnrol_keeps (.refl _) ..

theorem execRelease_keeps {P : Part → Prop} {s t : State} {value signed} (h : execRelease value signed s = .next t)
    (can : Can [.regs, .owner, .allocs, .descs, .graphs, .stages, .jobs, .waits, .voids, .dep, .respLog, .lotRing, .jnl, .txQueue, .sessions, .outs, .orphans, .nonces, .mgmt, .port, .arrays, .cores, .hoists, .scatters, .assays, .chutes, .counters] P := by exact Can.sub (by assumption) (by decide)) : Keeps P s t := by
  unfold execRelease at h
  cases h
  exact beginRelease_keeps (.refl _) ..

theorem execOwnerOpDone_keeps {P : Part → Prop} {s t : State} (h : execOwnerOpDone s = .next t)
    (can : Can [.freeCount, .mem, .regs, .doms, .clk, .nor, .owner, .image, .att, .temps, .pwr, .allocs, .descs, .graphs, .stages, .jobs, .waits, .fences, .voids, .dep, .respLog, .lotRing, .jnl, .txQueue, .sessions, .outs, .orphans, .nonces, .mgmt, .port, .arrays, .cores, .adits, .hoists, .scatters, .assays, .chans, .links, .chutes, .hops, .counters, .cals] P := by exact Can.sub (by assumption) (by decide)) : Keeps P s t := by
  unfold execOwnerOpDone at h
  cases h
  exact ownerOpDone_keeps (.refl _) ..

theorem execGo_keeps {P : Part → Prop} {s t : State} {value} (h : execGo value s = .next t)
    (can : Can [.att] P := by exact Can.sub (by assumption) (by decide)) : Keeps P s t := by
  unfold execGo at h
  cases h
  exact beginAttest_keeps (.refl _) ..

theorem execAttestationReady_keeps {P : Part → Prop} {s t : State} (h : execAttestationReady s = .next t)
    (can : Can [.att] P := by exact Can.sub (by assumption) (by decide)) : Keeps P s t := by
  unfold execAttestationReady at h
  cases h
  exact attestationReady_keeps (.refl _) ..

theorem execRxFrameError_keeps {P : Part → Prop} {s t : State} {frame} (h : execRxFrameError frame s = .next t)
    (can : Can [.regs] P := by exact Can.sub (by assumption) (by decide)) : Keeps P s t := by
  unfold execRxFrameError at h
  cases h
  exact rxFrameError_keeps (.refl _) ..

theorem execData_keeps {P : Part → Prop} {s t : State} {frame p} (h : execData frame p s = .next t)
    (can : Can [.regs, .lotRing, .jnl, .txQueue, .sessions, .outs, .chutes] P := by exact Can.sub (by assumption) (by decide)) : Keeps P s t := by
  unfold execData at h
  cases h
  exact dataPacket_keeps (.refl _) ..

theorem execAck_keeps {P : Part → Prop} {s t : State} {frame p} (h : execAck frame p s = .next t)
    (can : Can [.freeCount, .mem, .regs, .allocs, .descs, .graphs, .stages, .jobs, .waits, .voids, .dep, .respLog, .lotRing, .jnl, .txQueue, .sessions, .outs, .orphans, .arrays, .cores, .hoists, .scatters, .assays, .chutes, .counters] P := by exact Can.sub (by assumption) (by decide)) : Keeps P s t := by
  unfold execAck at h
  cases h
  exact ackPacket_keeps (.refl _) ..

theorem execNak_keeps {P : Part → Prop} {s t : State} {frame p} (h : execNak frame p s = .next t)
    (can : Can [.freeCount, .mem, .regs, .allocs, .descs, .graphs, .stages, .jobs, .waits, .voids, .dep, .respLog, .lotRing, .jnl, .txQueue, .sessions, .outs, .orphans, .arrays, .cores, .hoists, .scatters, .assays, .chutes, .counters] P := by exact Can.sub (by assumption) (by decide)) : Keeps P s t := by
  unfold execNak at h
  cases h
  exact nakPacket_keeps (.refl _) ..

theorem execTail_keeps {P : Part → Prop} {s t : State} {frame p} (h : execTail frame p s = .next t)
    (can : Can [.regs, .txQueue, .outs] P := by exact Can.sub (by assumption) (by decide)) : Keeps P s t := by
  unfold execTail at h
  cases h
  exact tailPacket_keeps (.refl _) ..

theorem execClose_keeps {P : Part → Prop} {s t : State} {frame p} (h : execClose frame p s = .next t)
    (can : Can [.regs, .txQueue, .sessions, .chutes] P := by exact Can.sub (by assumption) (by decide)) : Keeps P s t := by
  unfold execClose at h
  cases h
  exact closePacket_keeps (.refl _) ..

theorem execReset_keeps {P : Part → Prop} {s t : State} {frame p} (h : execReset frame p s = .next t)
    (can : Can [.regs, .jobs, .dep, .txQueue, .sessions, .outs, .arrays, .cores, .hoists, .scatters, .chutes] P := by exact Can.sub (by assumption) (by decide)) : Keeps P s t := by
  unfold execReset at h
  cases h
  exact resetPacket_keeps (.refl _) ..

theorem execChuteResetRetry_keeps {P : Part → Prop} {s t : State} {session} (h : execChuteResetRetry session s = .next t)
    (can : Can [.txQueue, .sessions, .outs] P := by exact Can.sub (by assumption) (by decide)) : Keeps P s t := by
  unfold execChuteResetRetry at h
  cases h
  exact chuteResetRetry_keeps (.refl _) ..

theorem execLotAccept_keeps {P : Part → Prop} {s t : State} {session} (h : execLotAccept session s = .next t)
    (can : Can [.freeCount, .mem, .regs, .allocs, .descs, .graphs, .stages, .jobs, .waits, .voids, .dep, .respLog, .lotRing, .jnl, .txQueue, .sessions, .outs, .orphans, .arrays, .cores, .hoists, .scatters, .assays, .chutes, .counters] P := by exact Can.sub (by assumption) (by decide)) : Keeps P s t := by
  unfold execLotAccept at h
  cases h
  exact lotAccept_keeps (.refl _) ..

theorem execResponseSend_keeps {P : Part → Prop} {s t : State} {session} (h : execResponseSend session s = .next t)
    (can : Can [.txQueue, .sessions] P := by exact Can.sub (by assumption) (by decide)) : Keeps P s t := by
  unfold execResponseSend at h
  cases h
  exact responseSend_keeps (.refl _) ..

theorem execRetransmitTimeout_keeps {P : Part → Prop} {s t : State} {session} (h : execRetransmitTimeout session s = .next t)
    (can : Can [.freeCount, .mem, .regs, .allocs, .descs, .graphs, .stages, .jobs, .waits, .voids, .dep, .respLog, .lotRing, .jnl, .txQueue, .sessions, .outs, .orphans, .arrays, .cores, .hoists, .scatters, .assays, .chutes, .counters] P := by exact Can.sub (by assumption) (by decide)) : Keeps P s t := by
  unfold execRetransmitTimeout at h
  cases h
  exact retransmitTimeout_keeps (.refl _) ..

theorem execNakRepeat_keeps {P : Part → Prop} {s t : State} {session} (h : execNakRepeat session s = .next t)
    (can : Can [.regs, .txQueue, .sessions] P := by exact Can.sub (by assumption) (by decide)) : Keeps P s t := by
  unfold execNakRepeat at h
  cases h
  exact nakRepeat_keeps (.refl _) ..

theorem execResyncNak_keeps {P : Part → Prop} {s t : State} {session} (h : execResyncNak session s = .next t)
    (can : Can [.regs, .txQueue, .sessions] P := by exact Can.sub (by assumption) (by decide)) : Keeps P s t := by
  unfold execResyncNak at h
  cases h
  exact resyncNak_keeps (.refl _) ..

theorem execFrameTransmit_keeps {P : Part → Prop} {s t : State} (h : execFrameTransmit s = .next t)
    (can : Can [.regs, .txQueue, .port] P := by exact Can.sub (by assumption) (by decide)) : Keeps P s t := by
  unfold execFrameTransmit at h
  cases h
  exact frameTransmit_keeps (.refl _) ..

theorem execArpRequest_keeps {P : Part → Prop} {s t : State} {frame target} (h : execArpRequest frame target s = .next t)
    (can : Can [.regs, .txQueue] P := by exact Can.sub (by assumption) (by decide)) : Keeps P s t := by
  unfold execArpRequest at h
  cases h
  exact arpRequest_keeps (.refl _) ..

theorem execNeighborSolicitation_keeps {P : Part → Prop} {s t : State} {frame target} (h : execNeighborSolicitation frame target s = .next t)
    (can : Can [.regs, .txQueue] P := by exact Can.sub (by assumption) (by decide)) : Keeps P s t := by
  unfold execNeighborSolicitation at h
  cases h
  exact neighborSolicitation_keeps (.refl _) ..

theorem execPfcFrame_keeps {P : Part → Prop} {s t : State} {frame opcode enable times} (h : execPfcFrame frame opcode enable times s = .next t)
    (can : Can [.regs, .port] P := by exact Can.sub (by assumption) (by decide)) : Keeps P s t := by
  unfold execPfcFrame at h
  cases h
  exact pfcFrame_keeps (.refl _) ..

theorem execPauseExpiry_keeps {P : Part → Prop} {s t : State} {priority} (h : execPauseExpiry priority s = .next t)
    (can : Can [.port] P := by exact Can.sub (by assumption) (by decide)) : Keeps P s t := by
  unfold execPauseExpiry at h
  cases h
  exact pauseExpiry_keeps (.refl _) ..

theorem execPauseFrame_keeps {P : Part → Prop} {s t : State} {frame} (h : execPauseFrame frame s = .next t)
    (can : Can [.regs] P := by exact Can.sub (by assumption) (by decide)) : Keeps P s t := by
  unfold execPauseFrame at h
  cases h
  exact pauseFrame_keeps (.refl _) ..

theorem execLinkUp_keeps {P : Part → Prop} {s t : State} {mode} (h : execLinkUp mode s = .next t)
    (can : Can [.port] P := by exact Can.sub (by assumption) (by decide)) : Keeps P s t := by
  unfold execLinkUp at h
  cases h
  exact linkComesUp_keeps (.refl _) ..

theorem execLinkDown_keeps {P : Part → Prop} {s t : State} (h : execLinkDown s = .next t)
    (can : Can [.regs, .port] P := by exact Can.sub (by assumption) (by decide)) : Keeps P s t := by
  unfold execLinkDown at h
  cases h
  exact linkGoesDown_keeps (.refl _) ..

theorem execJournalWriteDone_keeps {P : Part → Prop} {s t : State} {id ok0 ok8} (h : execJournalWriteDone id ok0 ok8 s = .next t)
    (can : Can [.freeCount, .mem, .regs, .allocs, .descs, .graphs, .stages, .jobs, .waits, .voids, .dep, .respLog, .lotRing, .jnl, .txQueue, .sessions, .outs, .orphans, .arrays, .cores, .hoists, .scatters, .assays, .chutes, .counters] P := by exact Can.sub (by assumption) (by decide)) : Keeps P s t := by
  unfold execJournalWriteDone at h
  cases h
  exact journalWriteDone_keeps (.refl _) ..

theorem execMirrorAck_keeps {P : Part → Prop} {s t : State} {lsn} (h : execMirrorAck lsn s = .next t)
    (can : Can [.freeCount, .mem, .regs, .allocs, .descs, .graphs, .stages, .jobs, .waits, .voids, .dep, .respLog, .lotRing, .jnl, .txQueue, .sessions, .outs, .orphans, .arrays, .cores, .hoists, .scatters, .assays, .chutes, .counters] P := by exact Can.sub (by assumption) (by decide)) : Keeps P s t := by
  unfold execMirrorAck at h
  cases h
  exact mirrorAckCmd_keeps (.refl _) ..

theorem execMirrorRecord_keeps {P : Part → Prop} {s t : State} {r} (h : execMirrorRecord r s = .next t)
    (can : Can [.jnl, .txQueue, .sessions] P := by exact Can.sub (by assumption) (by decide)) : Keeps P s t := by
  unfold execMirrorRecord at h
  cases h
  exact mirrorRecordCmd_keeps (.refl _) ..

theorem execMirrorReopen_keeps {P : Part → Prop} {s t : State} (h : execMirrorReopen s = .next t)
    (can : Can [.txQueue, .outs] P := by exact Can.sub (by assumption) (by decide)) : Keeps P s t := by
  unfold execMirrorReopen at h
  cases h
  exact mirrorReopen_keeps (.refl _) ..

theorem execJournalRestore_keeps {P : Part → Prop} {s t : State} {records} (h : execJournalRestore records s = .next t)
    (can : Can [.regs, .allocs, .descs, .graphs, .jobs, .voids, .dep, .respLog, .lotRing, .jnl, .txQueue, .sessions, .outs, .arrays, .cores, .hoists, .scatters, .chutes] P := by exact Can.sub (by assumption) (by decide)) : Keeps P s t := by
  unfold execJournalRestore at h
  cases h
  exact journalRestore_keeps (.refl _) ..

theorem execRestoreRetry_keeps {P : Part → Prop} {s t : State} (h : execRestoreRetry s = .next t)
    (can : Can [.txQueue, .outs] P := by exact Can.sub (by assumption) (by decide)) : Keeps P s t := by
  unfold execRestoreRetry at h
  cases h
  exact restoreRetry_keeps (.refl _) ..

theorem execJournalReplay_keeps {P : Part → Prop} {s t : State} (h : execJournalReplay s = .next t)
    (can : Can [.freeCount, .mem, .regs, .allocs, .descs, .graphs, .stages, .jobs, .waits, .voids, .dep, .respLog, .lotRing, .jnl, .txQueue, .sessions, .outs, .orphans, .arrays, .cores, .hoists, .scatters, .assays, .chutes, .counters] P := by exact Can.sub (by assumption) (by decide)) : Keeps P s t := by
  unfold execJournalReplay at h
  cases h
  exact journalReplay_keeps (.refl _) ..

theorem execFaultEvent_keeps {P : Part → Prop} {s t : State} {r} (h : execFaultEvent r s = .next t)
    (can : Can [.freeCount, .regs, .doms, .graphs, .jobs, .fences, .voids, .dep, .jnl, .txQueue, .sessions, .outs, .port, .arrays, .cores, .adits, .hoists, .scatters, .chans, .links, .chutes, .hops, .counters] P := by exact Can.sub (by assumption) (by decide)) : Keeps P s t := by
  unfold execFaultEvent at h
  cases h
  exact faultEvent_keeps (.refl _) ..

theorem execHeldJobResume_keeps {P : Part → Prop} {s t : State} {job} (h : execHeldJobResume job s = .next t)
    (can : Can [.jobs] P := by exact Can.sub (by assumption) (by decide)) : Keeps P s t := by
  unfold execHeldJobResume at h
  cases h
  exact heldJobResume_keeps (.refl _) ..

theorem execCoreStallTimeout_keeps {P : Part → Prop} {s t : State} {core} (h : execCoreStallTimeout core s = .next t)
    (can : Can [.freeCount, .regs, .doms, .graphs, .jobs, .fences, .dep, .txQueue, .sessions, .outs, .port, .arrays, .cores, .adits, .hoists, .scatters, .chans, .links, .chutes, .hops, .counters] P := by exact Can.sub (by assumption) (by decide)) : Keeps P s t := by
  unfold execCoreStallTimeout at h
  cases h
  exact coreStallTimeout_keeps (.refl _) ..

theorem execArrayTestPeriodic_keeps {P : Part → Prop} {s t : State} {array} (h : execArrayTestPeriodic array s = .next t)
    (can : Can [.arrays] P := by exact Can.sub (by assumption) (by decide)) : Keeps P s t := by
  unfold execArrayTestPeriodic at h
  cases h
  exact arrayTestPeriodic_keeps (.refl _) ..

theorem execLockstepMismatch_keeps {P : Part → Prop} {s t : State} (h : execLockstepMismatch s = .next t)
    (can : Can [.freeCount, .mem, .regs, .doms, .clk, .nor, .owner, .image, .att, .temps, .pwr, .allocs, .descs, .graphs, .stages, .jobs, .waits, .fences, .voids, .dep, .respLog, .lotRing, .jnl, .txQueue, .sessions, .outs, .orphans, .nonces, .mgmt, .port, .arrays, .cores, .adits, .hoists, .scatters, .assays, .chans, .links, .chutes, .hops, .counters, .cals] P := by exact Can.sub (by assumption) (by decide)) : Keeps P s t := by
  unfold execLockstepMismatch at h
  cases h
  exact warmIf_keeps (.refl _) ..

theorem execWarmReset_keeps {P : Part → Prop} {s t : State} {cause} (h : execWarmReset cause s = .next t)
    (can : Can [.freeCount, .mem, .regs, .doms, .clk, .nor, .owner, .image, .att, .temps, .pwr, .allocs, .descs, .graphs, .stages, .jobs, .waits, .fences, .voids, .dep, .respLog, .lotRing, .jnl, .txQueue, .sessions, .outs, .orphans, .nonces, .mgmt, .port, .arrays, .cores, .adits, .hoists, .scatters, .assays, .chans, .links, .chutes, .hops, .counters, .cals] P := by exact Can.sub (by assumption) (by decide)) : Keeps P s t := by
  unfold execWarmReset at h
  cases h
  exact warmIf_keeps (.refl _) ..

theorem execPowerOn_keeps {P : Part → Prop} {s t : State} (h : execPowerOn s = .next t)
    (can : Can [.regs, .pwr] P := by exact Can.sub (by assumption) (by decide)) : Keeps P s t := by
  unfold execPowerOn at h
  cases h
  exact powerOn_keeps (.refl _) ..

theorem execStartStepDone_keeps {P : Part → Prop} {s t : State} {f} (h : execStartStepDone f s = .next t)
    (can : Can [.freeCount, .mem, .regs, .doms, .clk, .nor, .owner, .pwr, .graphs, .jobs, .fences, .voids, .dep, .jnl, .txQueue, .sessions, .outs, .port, .arrays, .cores, .adits, .hoists, .scatters, .chans, .links, .chutes, .hops, .counters, .cals] P := by exact Can.sub (by assumption) (by decide)) : Keeps P s t := by
  unfold execStartStepDone at h
  cases h
  exact startStepDone_keeps (.refl _) ..

theorem execResetNAssert_keeps {P : Part → Prop} {s t : State} {ns} (h : execResetNAssert ns s = .next t)
    (can : Can [.freeCount, .mem, .regs, .doms, .clk, .nor, .owner, .image, .att, .temps, .pwr, .allocs, .descs, .graphs, .stages, .jobs, .waits, .fences, .voids, .dep, .respLog, .lotRing, .jnl, .txQueue, .sessions, .outs, .orphans, .nonces, .mgmt, .port, .arrays, .cores, .adits, .hoists, .scatters, .assays, .chans, .links, .chutes, .hops, .counters, .cals] P := by exact Can.sub (by assumption) (by decide)) : Keeps P s t := by
  unfold execResetNAssert at h
  cases h
  exact resetNAssert_keeps (.refl _) ..

theorem execResetNRelease_keeps {P : Part → Prop} {s t : State} (h : execResetNRelease s = .next t)
    (can : Can [.pwr] P := by exact Can.sub (by assumption) (by decide)) : Keeps P s t := by
  unfold execResetNRelease at h
  cases h
  with_reducible repeat' first | (refine Keeps.upd ?_ rfl rfl rfl; exact .refl _)

theorem execInputVoltageEvent_keeps {P : Part → Prop} {s t : State} {centivolts} (h : execInputVoltageEvent centivolts s = .next t)
    (can : Can [.regs] P := by exact Can.sub (by assumption) (by decide)) : Keeps P s t := by
  unfold execInputVoltageEvent at h
  cases h
  exact inputVoltage_keeps (.refl _) ..

theorem execShutdown_keeps {P : Part → Prop} {s t : State} {centivolts centiamps ns} (h : execShutdown centivolts centiamps ns s = .next t)
    (can : Can [.mem, .regs, .doms, .time, .clk, .owner, .image, .att, .temps, .pwr, .allocs, .descs, .graphs, .stages, .jobs, .waits, .fences, .voids, .dep, .respLog, .lotRing, .jnl, .txQueue, .sessions, .outs, .orphans, .nonces, .mgmt, .port, .arrays, .cores, .adits, .hoists, .scatters, .assays, .chans, .links, .chutes, .hops, .counters, .cals] P := by exact Can.sub (by assumption) (by decide)) : Keeps P s t := by
  unfold execShutdown at h
  cases h
  exact shutdown_keeps (.refl _) ..

theorem execMateRemoval_keeps {P : Part → Prop} {s t : State} (h : execMateRemoval s = .next t)
    (can : Can [.mem, .regs, .doms, .time, .clk, .owner, .image, .att, .temps, .pwr, .allocs, .descs, .graphs, .stages, .jobs, .waits, .fences, .voids, .dep, .respLog, .lotRing, .jnl, .txQueue, .sessions, .outs, .orphans, .nonces, .mgmt, .port, .arrays, .cores, .adits, .hoists, .scatters, .assays, .chans, .links, .chutes, .hops, .counters, .cals] P := by exact Can.sub (by assumption) (by decide)) : Keeps P s t := by
  unfold execMateRemoval at h
  cases h
  exact mateRemoval_keeps (.refl _) ..

theorem execTemperatureSample_keeps {P : Part → Prop} {s t : State} {t'} (h : execTemperatureSample t' s = .next t)
    (can : Can [.mem, .regs, .doms, .time, .clk, .owner, .image, .att, .temps, .pwr, .allocs, .descs, .graphs, .stages, .jobs, .waits, .fences, .voids, .dep, .respLog, .lotRing, .jnl, .txQueue, .sessions, .outs, .orphans, .nonces, .mgmt, .port, .arrays, .cores, .adits, .hoists, .scatters, .assays, .chans, .links, .chutes, .hops, .counters, .cals] P := by exact Can.sub (by assumption) (by decide)) : Keeps P s t := by
  unfold execTemperatureSample at h
  cases h
  exact temperatureSample_keeps (.refl _) ..

theorem execTripLatchClear_keeps {P : Part → Prop} {s t : State} (h : execTripLatchClear s = .next t)
    (can : Can [.pwr] P := by exact Can.sub (by assumption) (by decide)) : Keeps P s t := by
  unfold execTripLatchClear at h
  cases h
  exact tripLatchClear_keeps (.refl _) ..

theorem execRefClockLost_keeps {P : Part → Prop} {s t : State} (h : execRefClockLost s = .next t)
    (can : Can [.pwr] P := by exact Can.sub (by assumption) (by decide)) : Keeps P s t := by
  unfold execRefClockLost at h
  cases h
  with_reducible repeat' first | (refine Keeps.upd ?_ rfl rfl rfl; exact .refl _)

theorem execPllUnlock_keeps {P : Part → Prop} {s t : State} {seam domain dropped} (h : execPllUnlock seam domain dropped s = .next t)
    (can : Can [.freeCount, .regs, .doms, .graphs, .jobs, .fences, .voids, .dep, .jnl, .txQueue, .sessions, .outs, .mgmt, .port, .arrays, .cores, .adits, .hoists, .scatters, .chans, .links, .chutes, .hops, .counters] P := by exact Can.sub (by assumption) (by decide)) : Keeps P s t := by
  unfold execPllUnlock at h
  cases h
  exact pllUnlock_keeps (.refl _) ..

theorem execHubPllUnlock_keeps {P : Part → Prop} {s t : State} {fclk dropped} (h : execHubPllUnlock fclk dropped s = .next t)
    (can : Can [.regs, .doms, .clk, .jobs, .dep, .txQueue, .sessions, .outs, .mgmt, .port, .arrays, .cores, .adits, .hoists, .scatters, .chans, .links, .chutes, .hops, .counters] P := by exact Can.sub (by assumption) (by decide)) : Keeps P s t := by
  unfold execHubPllUnlock at h
  cases h
  exact hubPllUnlock_keeps (.refl _) ..

theorem execHubPllRestart_keeps {P : Part → Prop} {s t : State} {fclk locks} (h : execHubPllRestart fclk locks s = .next t)
    (can : Can [.freeCount, .regs, .doms, .clk, .graphs, .jobs, .fences, .voids, .dep, .jnl, .txQueue, .sessions, .outs, .port, .arrays, .cores, .adits, .hoists, .scatters, .chans, .links, .chutes, .hops, .counters] P := by exact Can.sub (by assumption) (by decide)) : Keeps P s t := by
  unfold execHubPllRestart at h
  cases h
  exact hubPllRestart_keeps (.refl _) ..

theorem execDclkUnlock_keeps {P : Part → Prop} {s t : State} (h : execDclkUnlock s = .next t)
    (can : Can [.freeCount, .mem, .regs, .doms, .clk, .nor, .owner, .image, .att, .temps, .pwr, .allocs, .descs, .graphs, .stages, .jobs, .waits, .fences, .voids, .dep, .respLog, .lotRing, .jnl, .txQueue, .sessions, .outs, .orphans, .nonces, .mgmt, .port, .arrays, .cores, .adits, .hoists, .scatters, .assays, .chans, .links, .chutes, .hops, .counters, .cals] P := by exact Can.sub (by assumption) (by decide)) : Keeps P s t := by
  unfold execDclkUnlock at h
  cases h
  exact dclkUnlock_keeps (.refl _) ..

theorem execDclkLockTimeout_keeps {P : Part → Prop} {s t : State} (h : execDclkLockTimeout s = .next t)
    (can : Can [.clk] P := by exact Can.sub (by assumption) (by decide)) : Keeps P s t := by
  unfold execDclkLockTimeout at h
  cases h
  exact dclkTimeout_keeps (.refl _) ..

theorem execDomainStop_keeps {P : Part → Prop} {s t : State} {d dropped} (h : execDomainStop d dropped s = .next t)
    (can : Can [.regs, .doms, .jobs, .dep, .txQueue, .sessions, .outs, .mgmt, .port, .arrays, .cores, .adits, .hoists, .scatters, .chans, .links, .chutes, .hops, .counters] P := by exact Can.sub (by assumption) (by decide)) : Keeps P s t := by
  unfold execDomainStop at h
  cases h
  exact Keeps.ite (.refl _) fun k => abandonIn_keeps (domainHalt_keeps k ..) ..

theorem execDomainStart_keeps {P : Part → Prop} {s t : State} {d} (h : execDomainStart d s = .next t)
    (can : Can [.doms, .clk] P := by exact Can.sub (by assumption) (by decide)) : Keeps P s t := by
  unfold execDomainStart at h
  cases h
  exact domainStart_keeps (.refl _) ..

theorem execDomainResetAssert_keeps {P : Part → Prop} {s t : State} {d dropped} (h : execDomainResetAssert d dropped s = .next t)
    (can : Can [.regs, .doms, .jobs, .dep, .txQueue, .sessions, .outs, .mgmt, .port, .arrays, .cores, .adits, .hoists, .scatters, .chans, .links, .chutes, .hops, .counters] P := by exact Can.sub (by assumption) (by decide)) : Keeps P s t := by
  unfold execDomainResetAssert at h
  cases h
  exact domainResetAssert_keeps (.refl _) ..

theorem execDomainResetRelease_keeps {P : Part → Prop} {s t : State} {d} (h : execDomainResetRelease d s = .next t)
    (can : Can [.doms, .clk] P := by exact Can.sub (by assumption) (by decide)) : Keeps P s t := by
  unfold execDomainResetRelease at h
  cases h
  exact releaseDomain_keeps (.refl _) ..

theorem execReplicaCompare_keeps {P : Part → Prop} {s t : State} {replica reading} (h : execReplicaCompare replica reading s = .next t)
    (can : Can [.regs, .clk] P := by exact Can.sub (by assumption) (by decide)) : Keeps P s t := by
  unfold execReplicaCompare at h
  cases h
  exact replicaCompare_keeps (.refl _) ..

theorem execCalWindow_keeps {P : Part → Prop} {s t : State} {seam load margin} (h : execCalWindow seam load margin s = .next t)
    (can : Can [.regs, .cals] P := by exact Can.sub (by assumption) (by decide)) : Keeps P s t := by
  unfold execCalWindow at h
  cases h
  exact calWindow_keeps (.refl _) ..

theorem execCalDescentStep_keeps {P : Part → Prop} {s t : State} {seam held} (h : execCalDescentStep seam held s = .next t)
    (can : Can [.regs, .cals] P := by exact Can.sub (by assumption) (by decide)) : Keeps P s t := by
  unfold execCalDescentStep at h
  cases h
  exact descentStep_keeps (.refl _) ..

theorem execSeamIdle_keeps {P : Part → Prop} {s t : State} {seam} (h : execSeamIdle seam s = .next t)
    (can : Can [.cals] P := by exact Can.sub (by assumption) (by decide)) : Keeps P s t := by
  unfold execSeamIdle at h
  cases h
  exact seamIdle_keeps (.refl _) ..

theorem execSeamWake_keeps {P : Part → Prop} {s t : State} {seam} (h : execSeamWake seam s = .next t)
    (can : Can [.regs, .cals] P := by exact Can.sub (by assumption) (by decide)) : Keeps P s t := by
  unfold execSeamWake at h
  cases h
  exact seamWake_keeps (.refl _) ..

theorem execArrayTestDone_keeps {P : Part → Prop} {s t : State} {array failing} (h : execArrayTestDone array failing s = .next t)
    (can : Can [.freeCount, .regs, .doms, .graphs, .jobs, .fences, .voids, .dep, .jnl, .txQueue, .sessions, .outs, .port, .arrays, .cores, .adits, .hoists, .scatters, .chans, .links, .chutes, .hops, .counters] P := by exact Can.sub (by assumption) (by decide)) : Keeps P s t := by
  unfold execArrayTestDone at h
  cases h
  exact arrayTestDone_keeps (.refl _) ..

theorem execOpenResponse_keeps {P : Part → Prop} {s t : State} {out answer} (h : execOpenResponse out answer s = .next t)
    (can : Can [.jnl, .txQueue, .sessions, .outs, .chutes] P := by exact Can.sub (by assumption) (by decide)) : Keeps P s t := by
  unfold execOpenResponse at h
  cases h
  exact openResponse_keeps (.refl _) ..

theorem execHelloResponse_keeps {P : Part → Prop} {s t : State} {out nonce} (h : execHelloResponse out nonce s = .next t)
    (can : Can [.txQueue, .outs] P := by exact Can.sub (by assumption) (by decide)) : Keeps P s t := by
  unfold execHelloResponse at h
  cases h
  exact helloResponse_keeps (.refl _) ..

theorem execRefClockRestored_keeps {P : Part → Prop} {s t : State} (h : execRefClockRestored s = .next t)
    (can : Can [.pwr] P := by exact Can.sub (by assumption) (by decide)) : Keeps P s t := by
  unfold execRefClockRestored at h
  cases h
  with_reducible repeat' first | (refine Keeps.upd ?_ rfl rfl rfl; exact .refl _)

/-- What every command does to the whole. -/
theorem exec_keeps {P : Part → Prop} {i : Instr} {s t : State} (h : exec i s = .next t) (can : Can (touches i) P) :
    Keeps P s t := by
  cases i with
  | alloc => exact execAlloc_keeps h can
  | free => exact execFree_keeps h can
  | allocationRelease => exact execAllocationRelease_keeps h can
  | descCreate => exact execDescCreate_keeps h can
  | descDestroy => exact execDescDestroy_keeps h can
  | descriptorDestroyed => exact execDescriptorDestroyed_keeps h can
  | put => exact execPut_keeps h can
  | get => exact execGet_keeps h can
  | graphLoad => exact execGraphLoad_keeps h can
  | graphUnload => exact execGraphUnload_keeps h can
  | run => exact execRun_keeps h can
  | cancel => exact execCancel_keeps h can
  | jobStart => exact execJobStart_keeps h can
  | nodeStart => exact execNodeStart_keeps h can
  | jobComplete => exact execJobComplete_keeps h can
  | fetchAndAdd => exact execFetchAndAdd_keeps h can
  | taskComplete => exact execTaskComplete_keeps h can
  | taskLoad => exact execTaskLoad_keeps h can
  | commandIssue => exact execCommandIssue_keeps h can
  | taskSwitch => exact execTaskSwitch_keeps h can
  | taskAbort => exact execTaskAbort_keeps h can
  | chargeStart => exact execChargeStart_keeps h can
  | weightTileLoad => exact execWeightTileLoad_keeps h can
  | vectorSchedule => exact execVectorSchedule_keeps h can
  | idleSlot => exact execIdleSlot_keeps h can
  | arrayFreeze => exact execArrayFreeze_keeps h can
  | drainPartial => exact execDrainPartial_keeps h can
  | vatAccept => exact execVatAccept_keeps h can
  | x64Shift => exact execX64Shift_keeps h can
  | x64Loss => exact execX64Loss_keeps h can
  | tileOpen => exact execTileOpen_keeps h can
  | tileInitDone => exact execTileInitDone_keeps h can
  | tileClose => exact execTileClose_keeps h can
  | partCombine => exact execPartCombine_keeps h can
  | vatSave => exact execVatSave_keeps h can
  | vatRestore => exact execVatRestore_keeps h can
  | scratchAccess => exact execScratchAccess_keeps h can
  | scratchStarvePromote => exact execScratchStarvePromote_keeps h can
  | veAdd => exact execVeAdd_keeps h can
  | veSub => exact execVeSub_keeps h can
  | veMul => exact execVeMul_keeps h can
  | veFma => exact execVeFma_keeps h can
  | veMin => exact execVeMin_keeps h can
  | veMax => exact execVeMax_keeps h can
  | veAbs => exact execVeAbs_keeps h can
  | veNeg => exact execVeNeg_keeps h can
  | veDot4 => exact execVeDot4_keeps h can
  | veAnd => exact execVeAnd_keeps h can
  | veOr => exact execVeOr_keeps h can
  | veXor => exact execVeXor_keeps h can
  | veNot => exact execVeNot_keeps h can
  | veShl => exact execVeShl_keeps h can
  | veShr => exact execVeShr_keeps h can
  | veSar => exact execVeSar_keeps h can
  | veCmp => exact execVeCmp_keeps h can
  | veSel => exact execVeSel_keeps h can
  | veRcp => exact execVeRcp_keeps h can
  | veRsqrt => exact execVeRsqrt_keeps h can
  | veSqrt => exact execVeSqrt_keeps h can
  | veDiv => exact execVeDiv_keeps h can
  | veExp2 => exact execVeExp2_keeps h can
  | veLog2 => exact execVeLog2_keeps h can
  | veTanh => exact execVeTanh_keeps h can
  | veErf => exact execVeErf_keeps h can
  | veRedsum => exact execVeRedsum_keeps h can
  | veRedmax => exact execVeRedmax_keeps h can
  | veRedmin => exact execVeRedmin_keeps h can
  | veCvt => exact execVeCvt_keeps h can
  | veLd => exact execVeLd_keeps h can
  | veSt => exact execVeSt_keeps h can
  | veGather => exact execVeGather_keeps h can
  | veScatter => exact execVeScatter_keeps h can
  | veScatterAdd => exact execVeScatterAdd_keeps h can
  | merge => exact execMerge_keeps h can
  | aditColumnGroup => exact execAditColumnGroup_keeps h can
  | aditProbe => exact execAditProbe_keeps h can
  | assayPass => exact execAssayPass_keeps h can
  | assayBound => exact execAssayBound_keeps h can
  | assayAudit => exact execAssayAudit_keeps h can
  | assaySumsRecompute => exact execAssaySumsRecompute_keeps h can
  | hoistCommand => exact execHoistCommand_keeps h can
  | copy => exact execCopy_keeps h can
  | hoistGather => exact execHoistGather_keeps h can
  | hoistScatter => exact execHoistScatter_keeps h can
  | hoistScatterAdd => exact execHoistScatterAdd_keeps h can
  | scatterAddCommit => exact execScatterAddCommit_keeps h can
  | broadcast => exact execBroadcast_keeps h can
  | segmentIssue => exact execSegmentIssue_keeps h can
  | segmentComplete => exact execSegmentComplete_keeps h can
  | descriptorBatchFetch => exact execDescriptorBatchFetch_keeps h can
  | doorbell => exact execDoorbell_keeps h can
  | descriptorRefetchTimeout => exact execDescriptorRefetchTimeout_keeps h can
  | dramSlot => exact execDramSlot_keeps h can
  | scrub => exact execScrub_keeps h can
  | refresh => exact execRefresh_keeps h can
  | linkWord => exact execLinkWord_keeps h can
  | packetCommit => exact execPacketCommit_keeps h can
  | commitReceived => exact execCommitReceived_keeps h can
  | rewoundReceived => exact execRewoundReceived_keeps h can
  | grantReceived => exact execGrantReceived_keeps h can
  | consumerRead => exact execConsumerRead_keeps h can
  | closeMark => exact execCloseMark_keeps h can
  | fillTimerExpiry => exact execFillTimerExpiry_keeps h can
  | tailNotice => exact execTailNotice_keeps h can
  | readTimerExpiry => exact execReadTimerExpiry_keeps h can
  | chuteReset => exact execChuteReset_keeps h can
  | carHop => exact execCarHop_keeps h can
  | tramStall => exact execTramStall_keeps h can
  | hello => exact execHello_keeps h can
  | openSession => exact execOpenSession_keeps h can
  | shut => exact execShut_keeps h can
  | mgmtFrameReceive => exact execMgmtFrameReceive_keeps h can
  | read => exact execRead_keeps h can
  | write => exact execWrite_keeps h can
  | abort => exact execAbort_keeps h can
  | announce => exact execAnnounce_keeps h can
  | hqCfgWrite => exact execHqCfgWrite_keeps h can
  | chCtrlReset => exact execChCtrlReset_keeps h can
  | depCtrlWarm => exact execDepCtrlWarm_keeps h can
  | depCtrlRestoreSkip => exact execDepCtrlRestoreSkip_keeps h can
  | program => exact execProgram_keeps h can
  | verify => exact execVerify_keeps h can
  | imgProgDone => exact execImgProgDone_keeps h can
  | enrol => exact execEnrol_keeps h can
  | release => exact execRelease_keeps h can
  | ownerOpDone => exact execOwnerOpDone_keeps h can
  | go => exact execGo_keeps h can
  | attestationReady => exact execAttestationReady_keeps h can
  | rxFrameError => exact execRxFrameError_keeps h can
  | data => exact execData_keeps h can
  | ack => exact execAck_keeps h can
  | nak => exact execNak_keeps h can
  | tail => exact execTail_keeps h can
  | close => exact execClose_keeps h can
  | reset => exact execReset_keeps h can
  | chuteResetRetry => exact execChuteResetRetry_keeps h can
  | lotAccept => exact execLotAccept_keeps h can
  | responseSend => exact execResponseSend_keeps h can
  | retransmitTimeout => exact execRetransmitTimeout_keeps h can
  | nakRepeat => exact execNakRepeat_keeps h can
  | resyncNak => exact execResyncNak_keeps h can
  | frameTransmit => exact execFrameTransmit_keeps h can
  | arpRequest => exact execArpRequest_keeps h can
  | neighborSolicitation => exact execNeighborSolicitation_keeps h can
  | pfcFrame => exact execPfcFrame_keeps h can
  | pauseExpiry => exact execPauseExpiry_keeps h can
  | pauseFrame => exact execPauseFrame_keeps h can
  | linkUp => exact execLinkUp_keeps h can
  | linkDown => exact execLinkDown_keeps h can
  | journalWriteDone => exact execJournalWriteDone_keeps h can
  | mirrorAck => exact execMirrorAck_keeps h can
  | mirrorRecord => exact execMirrorRecord_keeps h can
  | mirrorReopen => exact execMirrorReopen_keeps h can
  | journalRestore => exact execJournalRestore_keeps h can
  | restoreRetry => exact execRestoreRetry_keeps h can
  | journalReplay => exact execJournalReplay_keeps h can
  | faultEvent => exact execFaultEvent_keeps h can
  | heldJobResume => exact execHeldJobResume_keeps h can
  | coreStallTimeout => exact execCoreStallTimeout_keeps h can
  | arrayTestPeriodic => exact execArrayTestPeriodic_keeps h can
  | lockstepMismatch => exact execLockstepMismatch_keeps h can
  | warmReset => exact execWarmReset_keeps h can
  | powerOn => exact execPowerOn_keeps h can
  | startStepDone => exact execStartStepDone_keeps h can
  | resetNAssert => exact execResetNAssert_keeps h can
  | resetNRelease => exact execResetNRelease_keeps h can
  | inputVoltageEvent => exact execInputVoltageEvent_keeps h can
  | shutdown => exact execShutdown_keeps h can
  | mateRemoval => exact execMateRemoval_keeps h can
  | temperatureSample => exact execTemperatureSample_keeps h can
  | tripLatchClear => exact execTripLatchClear_keeps h can
  | refClockLost => exact execRefClockLost_keeps h can
  | pllUnlock => exact execPllUnlock_keeps h can
  | hubPllUnlock => exact execHubPllUnlock_keeps h can
  | hubPllRestart => exact execHubPllRestart_keeps h can
  | dclkUnlock => exact execDclkUnlock_keeps h can
  | dclkLockTimeout => exact execDclkLockTimeout_keeps h can
  | domainStop => exact execDomainStop_keeps h can
  | domainStart => exact execDomainStart_keeps h can
  | domainResetAssert => exact execDomainResetAssert_keeps h can
  | domainResetRelease => exact execDomainResetRelease_keeps h can
  | replicaCompare => exact execReplicaCompare_keeps h can
  | calWindow => exact execCalWindow_keeps h can
  | calDescentStep => exact execCalDescentStep_keeps h can
  | seamIdle => exact execSeamIdle_keeps h can
  | seamWake => exact execSeamWake_keeps h can
  | arrayTestDone => exact execArrayTestDone_keeps h can
  | openResponse => exact execOpenResponse_keeps h can
  | helloResponse => exact execHelloResponse_keeps h can
  | refClockRestored => exact execRefClockRestored_keeps h can

end Sys2Proof.Machine
end

