-- ==== Sys2Proof/Laws/Units.lean ====
section
/-! SUPPORT. Reads of one unit, and of one register, after a write: one law per pair, over numbers of units that tell the
units apart. -/

-- one theorem after the other: proofs side by side would need more memory than the check allows
set_option Elab.async false

namespace Sys2Proof.Machine

/-! ## Numbers of units tell units apart -/

theorem coreKey_inj {c d : CoreId} (h : coreKey c = coreKey d) : c = d := by
  obtain ⟨⟨a, ha⟩, b, hb⟩ := c
  obtain ⟨⟨e, he⟩, f, hf⟩ := d
  simp only [coreKey] at h
  have h1 : a = e := by omega
  have h2 : b = f := by omega
  simp [h1, h2]

theorem arrayKey_inj {a b : ArrayId} (h : arrayKey a = arrayKey b) : a = b := by
  obtain ⟨c, i, hi⟩ := a
  obtain ⟨d, j, hj⟩ := b
  simp only [arrayKey] at h
  have h1 : coreKey c = coreKey d := by omega
  have h2 : i = j := by omega
  simp [coreKey_inj h1, h2]

theorem aditKey_inj {u v : AditId} (h : aditKey u = aditKey v) : u = v := by
  obtain ⟨⟨a, ha⟩, b, hb⟩ := u
  obtain ⟨⟨e, he⟩, f, hf⟩ := v
  simp only [aditKey] at h
  have h1 : a = e := by omega
  have h2 : b = f := by omega
  simp [h1, h2]

theorem queueKey_inj {p q : QueueId} (h : queueKey p = queueKey q) : p = q := by
  obtain ⟨⟨a, ha⟩, ⟨b, hb⟩, c, hc⟩ := p
  obtain ⟨⟨d, hd⟩, ⟨e, he⟩, f, hf⟩ := q
  simp only [queueKey, hoistKey] at h
  have h1 : a = d := by omega
  have h2 : b = e := by omega
  have h3 : c = f := by omega
  simp [h1, h2, h3]

theorem chanKey_inj {c d : ChanId} (h : chanKey c = chanKey d) : c = d := by
  obtain ⟨⟨a, ha⟩, b, hb⟩ := c
  obtain ⟨⟨e, he⟩, f, hf⟩ := d
  simp only [chanKey] at h
  have h1 : a = e := by omega
  have h2 : b = f := by omega
  simp [h1, h2]

theorem epKey_inj {e f : EndpointId} (h : epKey e = epKey f) : e = f := by
  have hk : ∀ c : CoreId, coreKey c < 512 := fun c => by
    simp only [coreKey]
    omega
  cases e with
  | core c i =>
    have h1 := hk c
    cases f with
    | core d j =>
      have h2 := hk d
      simp only [epKey] at h
      have h3 : coreKey c = coreKey d := by omega
      have h4 : i = j := by omega
      simp [coreKey_inj h3, h4]
    | hub j =>
      simp only [epKey] at h
      omega
  | hub i =>
    cases f with
    | core d j =>
      have h2 := hk d
      simp only [epKey] at h
      omega
    | hub j =>
      simp only [epKey] at h
      have h4 : i = j := by omega
      simp [h4]

theorem domKey_inj {d e : DomainId} (h : domKey d = domKey e) : d = e := by
  have hb : ∀ x : SeamDomain, seamDomBit x < 4 := by intro x; cases x <;> decide
  cases d with
  | seam s x =>
    have h1 := hb x
    cases e with
    | seam r y =>
      have h2 := hb y
      simp only [domKey] at h
      have h3 : s = r := by omega
      have h4 : seamDomBit x = seamDomBit y := by omega
      have h5 : x = y := by
        revert h4
        cases x <;> cases y <;> simp [seamDomBit]
      simp [h3, h5]
    | pclk => simp only [domKey] at h; omega
    | hubFclk => simp only [domKey] at h; omega
  | pclk =>
    cases e with
    | seam r y => have h2 := hb y; simp only [domKey] at h; omega
    | pclk => rfl
    | hubFclk => simp [domKey] at h
  | hubFclk =>
    cases e with
    | seam r y => have h2 := hb y; simp only [domKey] at h; omega
    | pclk => simp [domKey] at h
    | hubFclk => rfl

/-! ## One unit after a write -/

@[simp] theorem getArray_setArray_self (s : State) (i : ArrayId) (x : ArrayState) : getArray (setArray s i x) i = x := by
  simp [getArray, setArray]

theorem getArray_setArray_other (s : State) {i j : ArrayId} (x : ArrayState) (h : j ≠ i) :
    getArray (setArray s i x) j = getArray s j :=
  tget_tset_other _ _ _ fun e => h (arrayKey_inj e)

theorem getArray_congr {s t : State} (h : t.arrays = s.arrays) (i : ArrayId) : getArray t i = getArray s i := by
  simp [getArray, h]

@[simp] theorem getCore_setCore_self (s : State) (i : CoreId) (x : CoreState) : getCore (setCore s i x) i = x := by
  simp [getCore, setCore]

theorem getCore_setCore_other (s : State) {i j : CoreId} (x : CoreState) (h : j ≠ i) :
    getCore (setCore s i x) j = getCore s j :=
  tget_tset_other _ _ _ fun e => h (coreKey_inj e)

theorem getCore_congr {s t : State} (h : t.cores = s.cores) (i : CoreId) : getCore t i = getCore s i := by
  simp [getCore, h]

@[simp] theorem getAdit_setAdit_self (s : State) (i : AditId) (x : AditState) : getAdit (setAdit s i x) i = x := by
  simp [getAdit, setAdit]

theorem getAdit_setAdit_other (s : State) {i j : AditId} (x : AditState) (h : j ≠ i) :
    getAdit (setAdit s i x) j = getAdit s j :=
  tget_tset_other _ _ _ fun e => h (aditKey_inj e)

theorem getAdit_congr {s t : State} (h : t.adits = s.adits) (i : AditId) : getAdit t i = getAdit s i := by
  simp [getAdit, h]

@[simp] theorem getQueue_setQueue_self (s : State) (i : QueueId) (x : HoistQueue) : getQueue (setQueue s i x) i = x := by
  simp [getQueue, setQueue]

theorem getQueue_setQueue_other (s : State) {i j : QueueId} (x : HoistQueue) (h : j ≠ i) :
    getQueue (setQueue s i x) j = getQueue s j :=
  tget_tset_other _ _ _ fun e => h (queueKey_inj e)

theorem getQueue_congr {s t : State} (h : t.hoists = s.hoists) (i : QueueId) : getQueue t i = getQueue s i := by
  simp [getQueue, h]

@[simp] theorem getChan_setChan_self (s : State) (i : ChanId) (x : ChanState) : getChan (setChan s i x) i = x := by
  simp [getChan, setChan]

theorem getChan_setChan_other (s : State) {i j : ChanId} (x : ChanState) (h : j ≠ i) :
    getChan (setChan s i x) j = getChan s j :=
  tget_tset_other _ _ _ fun e => h (chanKey_inj e)

theorem getChan_congr {s t : State} (h : t.chans = s.chans) (i : ChanId) : getChan t i = getChan s i := by
  simp [getChan, h]

@[simp] theorem getEp_setEp_self (s : State) (i : EndpointId) (x : Endpoint) : getEp (setEp s i x) i = x := by
  simp [getEp, setEp]

theorem getEp_setEp_other (s : State) {i j : EndpointId} (x : Endpoint) (h : j ≠ i) :
    getEp (setEp s i x) j = getEp s j :=
  tget_tset_other _ _ _ fun e => h (epKey_inj e)

theorem getEp_congr {s t : State} (h : t.chutes = s.chutes) (i : EndpointId) : getEp t i = getEp s i := by
  simp [getEp, h]

@[simp] theorem getHop_setHop_self (s : State) (i : CoreId) (x : HopState) : getHop (setHop s i x) i = x := by
  simp [getHop, setHop]

theorem getHop_setHop_other (s : State) {i j : CoreId} (x : HopState) (h : j ≠ i) :
    getHop (setHop s i x) j = getHop s j :=
  tget_tset_other _ _ _ fun e => h (coreKey_inj e)

theorem getHop_congr {s t : State} (h : t.hops = s.hops) (i : CoreId) : getHop t i = getHop s i := by
  simp [getHop, h]

@[simp] theorem getCounter_setCounter_self (s : State) (a k : Nat) (x : WorkCounter) :
    getCounter (setCounter s a k x) a k = x := by
  simp [getCounter, setCounter]

@[simp] theorem getCal_setCal_self (s : State) (i : Nat) (x : CalState) : getCal (setCal s i x) i = x := by
  simp [getCal, setCal]

theorem getCal_setCal_other (s : State) {i j : Nat} (x : CalState) (h : j ≠ i) :
    getCal (setCal s i x) j = getCal s j :=
  tget_tset_other _ _ _ h

@[simp] theorem getDom_setDom_self (s : State) (d : DomainId) (x : Domain) : getDom (setDom s d x) d = x := by
  simp [getDom, setDom]

theorem getDom_setDom_other (s : State) {d e : DomainId} (x : Domain) (h : e ≠ d) :
    getDom (setDom s d x) e = getDom s e :=
  tget_tset_other _ _ _ fun k => h (domKey_inj k)

/-! ## A task slot after a write -/

@[simp] theorem getSlot_setSlot_self (s : State) (t : SlotId) (x : TaskSlot) : getSlot (setSlot s t x) t = x := by
  simp [getSlot, setSlot]

theorem getSlot_setSlot_other (s : State) {t u : SlotId} (x : TaskSlot) (h : u ≠ t) :
    getSlot (setSlot s t x) u = getSlot s u := by
  simp only [getSlot, setSlot]
  by_cases hc : u.core = t.core
  · rw [hc, getCore_setCore_self]
    refine tget_tset_other _ _ _ fun e => h ?_
    obtain ⟨c, i⟩ := t
    obtain ⟨d, j⟩ := u
    simp only at hc e
    simp [hc, Fin.ext e]
  · rw [getCore_setCore_other _ _ hc]

/-- Writing a task slot leaves everything else of every core as it is. -/
theorem getCore_setSlot (s : State) (t : SlotId) (x : TaskSlot) (c : CoreId) :
    { getCore (setSlot s t x) c with slots := [] } = { getCore s c with slots := [] } := by
  by_cases hc : c = t.core
  · subst hc
    simp [setSlot]
  · simp [setSlot, getCore_setCore_other _ _ hc]

theorem getSlot_congr {s t : State} (h : t.cores = s.cores) (i : SlotId) : getSlot t i = getSlot s i := by
  simp [getSlot, getCore_congr h]

/-! ## A register after a write -/

@[simp] theorem rawReg_setRawReg_self (s : State) (a : Nat) (v : Word) : rawReg (setRawReg s a v) a = v := by
  simp [rawReg, setRawReg]

theorem rawReg_setRawReg_other (s : State) {a b : Nat} (v : Word) (h : b ≠ a) :
    rawReg (setRawReg s a v) b = rawReg s b := by
  simp only [rawReg, setRawReg, tset]
  split
  · exact tget_terase_other _ _ h
  · rw [tget_tinsert_other _ _ _ h, tget_terase_other _ _ h]

theorem rawReg_congr {s t : State} (h : t.regs = s.regs) (a : Nat) : rawReg t a = rawReg s a := by
  simp [rawReg, h]

/-- A count adds to its counter, saturating (R406). -/
@[simp] theorem rawReg_count_self (s : State) (b o n : Nat) :
    rawReg (count s b o n) (b + o) = satAdd (rawReg s (b + o)) n :=
  rawReg_setRawReg_self ..

theorem rawReg_count_other (s : State) {b o n a : Nat} (h : a ≠ b + o) : rawReg (count s b o n) a = rawReg s a :=
  rawReg_setRawReg_other _ _ h

/-- A flag raised is set and leaves the others of its register (R405). -/
@[simp] theorem rawReg_raise_self (s : State) (b : Nat) (f : Nat × Nat) :
    rawReg (raise s b f) (b + f.1) = rawReg s (b + f.1) ||| BitVec.ofNat 32 (2 ^ f.2) :=
  rawReg_setRawReg_self ..

theorem rawReg_raise_other (s : State) {b a : Nat} {f : Nat × Nat} (h : a ≠ b + f.1) :
    rawReg (raise s b f) a = rawReg s a :=
  rawReg_setRawReg_other _ _ h

end Sys2Proof.Machine
end

