-- ==== Sys2Proof/Laws/Lots.lean ====
section
/-! SUPPORT. Lot commands: what the operations do. -/

-- one theorem after the other: proofs side by side would need more memory than the check allows
set_option Elab.async false

namespace Sys2Proof.Machine

open Sys2Proof.Safety

theorem Keeps.field {P : Part → Prop} {s t : State} (h : Keeps P s t) (p : Part) (n : ¬ P p) : p.same s t :=
  (h.parts p).resolve_left n

theorem mem_dropWhile {α : Type} {p : α → Bool} {x : α} {l : List α} (h : x ∈ l) (n : p x = false) :
    x ∈ l.dropWhile p := by
  induction l with
  | nil => exact h
  | cons a r ih =>
    rw [List.dropWhile_cons]
    split
    · rcases List.mem_cons.mp h with e | e
      · subst e; simp_all
      · exact ih e
    · exact h

theorem answered_of_same {ctx : CmdCtx} {opcode status : Nat} {result : List Byte} {s t : State}
    (h : Answered ctx opcode status result s) (k : t.jnl.respLog = s.jnl.respLog) : Answered ctx opcode status result t := by
  unfold Answered
  rw [k]
  exact h

theorem responseBytes_is (ctx : CmdCtx) (opcode status : Nat) (result : List Byte) :
    ResponseIs ctx opcode status result (responseBytes ctx opcode status result) := by
  have ht := ctx.tag.isLt
  have hl := ctx.lsn.isLt
  refine ⟨?_, ?_, ?_, ?_, ?_, ⟨?_, ?_⟩, ⟨?_, ?_⟩, ?_⟩ <;>
    simp [responseBytes, leAt_skip, leAt_first, drop_le, Nat.mod_eq_of_lt ht, Nat.mod_eq_of_lt hl]
  omega

theorem logResponse_answers (s : State) (ctx : CmdCtx) (opcode status : Nat) (result : List Byte) :
    Answered ctx opcode status result (logResponse s ctx (responseBytes ctx opcode status result)).1 := by
  unfold logResponse Answered
  extract_lets same
  split
  · rename_i r e
    have hm := List.mem_of_find?_eq_some e
    have hs := List.find?_some e
    refine ⟨{ r with bytes := responseBytes ctx opcode status result }, ?_, ?_, ?_, responseBytes_is ..⟩
    · refine List.mem_map.mpr ⟨r, hm, ?_⟩
      simp [hs]
    · have := hs; simp only [same, Bool.and_eq_true] at this; exact this.1
    · have := hs; simp only [same, Bool.and_eq_true, Bool.not_eq_true'] at this; exact this.2
  · refine ⟨_, List.mem_append_right _ (List.mem_singleton.mpr rfl), ?_, rfl, responseBytes_is ..⟩
    simp [sameCmd]

theorem responseWritten_answers {ctx : CmdCtx} {opcode status : Nat} {result : List Byte} {s : State} (session : Nat)
    (lsn : Word) (index : Nat) (h : Answered ctx opcode status result s) :
    Answered ctx opcode status result (responseWritten s session lsn index) := by
  unfold responseWritten
  extract_lets log lots retires _ t
  have ht : Answered ctx opcode status result t := by
    obtain ⟨r, hm, hs, hl, hb⟩ := h
    refine ⟨if sameCmd r.ctx session lsn index then { r with written := true } else r, ?_, ?_, ?_, ?_⟩
    · refine mem_dropWhile (List.mem_map.mpr ⟨r, hm, rfl⟩) ?_
      split <;> exact hl
    · split <;> exact hs
    · split <;> exact hl
    · split <;> exact hb
  have k : Keeps (· ∈ answerParts.tail) t (releaseGrants (if retires = true then mirrorNote t .retire (lotKey session lsn) [] else t)) := by
    have can := Can.all answerParts.tail
    exact releaseGrants_keeps (Keeps.ite (.refl t) fun h => mirrorNote_keeps h ..)
  exact answered_of_same ht (k.field .respLog (by decide))

theorem respondWith_answers {ctx : CmdCtx} (s : State) (h : ctx.index < 2 ^ 32) (opcode status : Nat)
    (result entry : List Byte) : Answered ctx opcode status result (respondWith s ctx opcode status result entry) := by
  unfold respondWith
  extract_lets i bytes
  have hd : deadNum ctx.index = 0 := Nat.div_eq_of_lt h
  simp only [hd, ne_eq, not_true_eq_false, if_false]
  have k := logResponse_answers s ctx opcode status result
  split
  · exact responseWritten_answers _ _ _ k
  · refine answered_of_same k ?_
    have can := Can.all [.jnl, .txQueue, .outs]
    exact (startWrite_keeps (P := (· ∈ [.jnl, .txQueue, .outs])) (.refl _) ..).field .respLog (by decide)

theorem respond_answers {ctx : CmdCtx} (s : State) (h : ctx.index < 2 ^ 32) (opcode status : Nat) (result : List Byte) :
    Answered ctx opcode status result (respond s ctx opcode status result) :=
  respondWith_answers s h ..

theorem respondWith_same (s : State) (ctx : CmdCtx) (opcode status : Nat) (result entry : List Byte) :
    Keeps (· ∈ answerParts) s (respondWith s ctx opcode status result entry) :=
  respondWith_keeps (.refl s) _ _ _ _ _ (by exact Can.sub (Can.all answerParts) (by decide))

theorem failCmd_same (s : State) (ctx : CmdCtx) (opcode status : Nat) :
    Keeps (· ∈ answerParts) s (failCmd s ctx opcode status) :=
  respondWith_same ..

theorem failCmd_answers {ctx : CmdCtx} (s : State) (h : ctx.index < 2 ^ 32) (opcode status : Nat) :
    Answered ctx opcode status [] (failCmd s ctx opcode status) :=
  respond_answers s h ..

theorem rangeFree_iff (s : State) (seam b n : Nat) : rangeFree s seam b n = true ↔ FreeRange s seam b n := by
  simp only [rangeFree, Bool.and_eq_true, decide_eq_true_eq, beq_iff_eq, Bool.not_eq_true', List.any_eq_false,
    not_and, Nat.not_lt]
  constructor
  · rintro ⟨⟨⟨⟨h1, h2⟩, h3⟩, h4⟩, h5⟩
    refine ⟨h1, h2, h3, fun a ha => ?_, fun v hv h e => ?_⟩
    · have := h4 a ha; ((try simp only [Addr] at *); omega)
    · have := h5 v hv
      rw [e] at this
      simp only [Bool.and_eq_true, decide_eq_true_eq, not_and, Nat.not_lt] at this
      ((try simp only [Addr] at *); omega)
  · rintro ⟨h1, h2, h3, h4, h5⟩
    refine ⟨⟨⟨⟨h1, h2⟩, h3⟩, fun a ha => ?_⟩, fun v hv => ?_⟩
    · have := h4 a ha; ((try simp only [Addr] at *); omega)
    · have := h5 v hv
      cases e : v.home with
      | none => simp
      | some h =>
        have := this h e
        simp only [Bool.and_eq_true, decide_eq_true_eq, not_and, Nat.not_lt]
        ((try simp only [Addr] at *); omega)

/-- The starts among which the lowest free range is sought. -/
def rangeStarts (s : State) (seam : Nat) : List Nat :=
  s.dep.allocs.map (fun a => a.base + a.size) ++
    (s.dep.voids.filterMap fun v => v.home.map fun h => h * 4096 + 4096) ++ [seamDram seam]

theorem minOf_none (l : List Nat) (b : Option Nat) :
    l.foldl (fun best b => match best with | none => some b | some c => some (min b c)) b = none ↔ l = [] ∧ b = none := by
  induction l generalizing b with
  | nil => simp
  | cons x r ih =>
    simp only [List.foldl_cons, ih]
    cases b <;> simp

theorem minOf_mem (l : List Nat) (b : Option Nat) (c : Nat)
    (h : l.foldl (fun best b => match best with | none => some b | some c => some (min b c)) b = some c) :
    c ∈ l ∨ b = some c := by
  induction l generalizing b with
  | nil => exact .inr h
  | cons x r ih =>
    simp only [List.foldl_cons] at h
    rcases ih _ h with e | e
    · exact .inl (List.mem_cons_of_mem _ e)
    · cases b with
      | none => simp at e; simp [e]
      | some d =>
        simp only [Option.some.injEq] at e ⊢
        rcases Nat.le_total x d with k | k
        · rw [Nat.min_eq_left k] at e; simp [e]
        · rw [Nat.min_eq_right k] at e; simp [e]

theorem lowestRange_free {s : State} {seam n b : Nat} (h : lowestRange s seam n = some b) : FreeRange s seam b n := by
  unfold lowestRange at h
  rcases minOf_mem _ _ _ h with e | e
  · exact (rangeFree_iff ..).mp (List.mem_filter.mp e).2
  · cases e

theorem exists_greatest (l : List Nat) (b : Nat) (h : ∃ x ∈ l, x ≤ b) : ∃ x ∈ l, x ≤ b ∧ ∀ y ∈ l, y ≤ b → y ≤ x := by
  induction l with
  | nil => simp at h
  | cons a r ih =>
    by_cases k : ∃ x ∈ r, x ≤ b
    · obtain ⟨x, hx, hb, hm⟩ := ih k
      by_cases c : a ≤ b ∧ x < a
      · exact ⟨a, by simp, c.1, fun y hy e => by
          rcases List.mem_cons.mp hy with f | f
          · omega
          · have := hm y f e; omega⟩
      · exact ⟨x, by simp [hx], hb, fun y hy e => by
          rcases List.mem_cons.mp hy with f | f
          · omega
          · exact hm y f e⟩
    · obtain ⟨x, hx, hb⟩ := h
      rcases List.mem_cons.mp hx with f | f
      · exact ⟨x, hx, hb, fun y hy e => by
          rcases List.mem_cons.mp hy with g | g
          · omega
          · exact absurd ⟨y, g, e⟩ k⟩
      · exact absurd ⟨x, f, hb⟩ k

/-- A free range can be moved down to one of the starts. -/
theorem freeRange_start {s : State} {seam n b : Nat} (w : WholeAllocs s) (h : FreeRange s seam b n) :
    ∃ c ∈ rangeStarts s seam, FreeRange s seam c n := by
  obtain ⟨c, hc, hb, hm⟩ := exists_greatest (rangeStarts s seam) b ⟨seamDram seam, by simp [rangeStarts], h.low⟩
  have h0 : seamDram seam % 4096 = 0 := by
    have : (seam * Config.seamWindow : Nat) % 4096 = 0 := by simp only [Config.seamWindow]; omega
    exact this
  refine ⟨c, hc, ?_, ?_, ?_, fun a ha => ?_, fun v hv k e => ?_⟩
  · exact hm _ (by simp [rangeStarts]) h.low
  · exact Nat.le_trans (Nat.add_le_add_right hb n) h.high
  · simp only [rangeStarts, List.mem_append, List.mem_map, List.mem_filterMap, List.mem_singleton] at hc
    rcases hc with (⟨a, ha, e⟩ | ⟨v, hv, e⟩) | e
    · have := w a ha; ((try simp only [Addr] at *); omega)
    · cases k : v.home with
      | none => simp [k] at e
      | some x => simp [k] at e; ((try simp only [Addr] at *); omega)
    · ((try simp only [Addr] at *); omega)
  · rcases h.allocs a ha with k | k
    · left; ((try simp only [Addr] at *); omega)
    · right
      exact hm _ (by simp only [rangeStarts, List.mem_append, List.mem_map]; exact .inl (.inl ⟨a, ha, rfl⟩)) k
  · rcases h.homes v hv k e with j | j
    · left; ((try simp only [Addr] at *); omega)
    · right
      refine hm _ ?_ j
      simp only [rangeStarts, List.mem_append, List.mem_filterMap]
      exact .inl (.inr ⟨v, hv, by simp [e]⟩)

theorem lowestRange_none {s : State} {seam n : Nat} (w : WholeAllocs s) :
    lowestRange s seam n = none ↔ ∀ b, ¬ FreeRange s seam b n := by
  have e : lowestRange s seam n = ((rangeStarts s seam).filter fun b => rangeFree s seam b n).foldl
    (fun best b => match best with | none => some b | some c => some (min b c)) none := rfl
  rw [e, minOf_none]
  simp only [and_true, List.filter_eq_nil_iff, rangeFree_iff]
  constructor
  · intro h b hb
    obtain ⟨c, hc, hf⟩ := freeRange_start w hb
    exact h c hc hf
  · exact fun h c _ => h c

theorem tableRespond_same (s : State) (ctx : CmdCtx) (opcode status : Nat) (result entry : List Byte) :
    Keeps (· ∈ answerParts) s (tableRespond s ctx opcode status result entry) :=
  tableRespond_keeps (.refl s) _ _ _ _ _ (Can.sub (Can.all answerParts) (by decide))

theorem tableRespond_answers {ctx : CmdCtx} (s : State) (h : ctx.index < 2 ^ 32) (opcode status : Nat)
    (result entry : List Byte) : Answered ctx opcode status result (tableRespond s ctx opcode status result entry) :=
  respondWith_answers _ h ..

theorem fails_of {i : Instr} {ctx : CmdCtx} {opcode status : Nat} {s : State} (h : LiveCmd ctx s)
    (e : exec i s = .next (failCmd s ctx opcode status)) : Fails i ctx opcode status s :=
  ⟨_, e, failCmd_answers s h.2 .., (failCmd_same ..).sameBut⟩

theorem inService_live {ctx : CmdCtx} {s : State} (h : LiveCmd ctx s) (t : State) : inService s t = t := by
  simp [inService, h.1]

theorem pinned_iff (s : State) (a : Allocation) : allocationPinned s a = true ↔ Pinned s a := by
  simp only [allocationPinned, List.any_eq_true, Pinned]
  constructor
  · rintro ⟨e, he, h⟩
    cases k : e.2.live with
    | none => simp [k] at h
    | some d => simp [k] at h; exact ⟨e, he, d, k, h⟩
  · rintro ⟨e, he, d, k, h⟩
    exact ⟨e, he, by simp [k, h]⟩

theorem find?_unique {α : Type} {p : α → Bool} {a : α} {l : List α} (h : a ∈ l) (e : p a = true)
    (u : ∀ x ∈ l, p x = true → x = a) : l.find? p = some a := by
  cases k : l.find? p with
  | none => exact absurd e (by simpa using List.find?_eq_none.mp k a h)
  | some x => rw [u x (List.mem_of_find?_eq_some k) (List.find?_some k)]

theorem allocCmd_next {s : State} {ctx : CmdCtx} (live : LiveCmd ctx s) (seam : Byte) (size : Nat) :
    exec (.alloc ctx seam size) s = .next (allocCmd s ctx seam.toNat size) := by
  simp only [exec, execAlloc, inService_live live]

theorem freeCmd_next {s : State} {ctx : CmdCtx} (live : LiveCmd ctx s) (base : Addr) :
    exec (.free ctx base) s = .next (freeCmd s ctx base) := by
  simp only [exec, execFree, inService_live live]

theorem placeAlloc_some {s : State} {seam n low : Nat} (h : lowestRange s seam n = some low) :
    ∃ b, placeAlloc s seam n = (some b, (drawChoice s).2) ∧ FreeRange s seam b n := by
  unfold placeAlloc
  rw [h]
  dsimp only
  by_cases c : rangeFree s seam (granuleAt seam (drawChoice s).1) n = true
  · exact ⟨_, by rw [if_pos c], (rangeFree_iff ..).mp c⟩
  · exact ⟨_, by rw [if_neg c], lowestRange_free h⟩

theorem lowestFree_some {used : List Nat} {limit i : Nat} (h : LowestFree used limit i) : lowestFree used limit = some i := by
  unfold lowestFree
  rw [List.find?_range_eq_some]
  have hl : i ≤ used.length := by
    have := List.Nodup.length_le_of_subset (l₁ := List.range i) (l₂ := used) List.nodup_range
      fun j hj => h.2.2 j (List.mem_range.mp hj)
    simpa using this
  refine ⟨by simp [h.2.1], ?_, fun j hj => by simp [h.2.2 j hj]⟩
  have := h.1
  rw [List.mem_range]
  omega

theorem getDescSlot_congr {s t : State} (h : t.dep.descs = s.dep.descs) (i : Nat) : getDescSlot t i = getDescSlot s i := by
  simp only [getDescSlot, h]

theorem descSet_of (s t : State) (i : Nat) (x : DescSlot) (h : t.dep.descs = (setDescSlot s i x).dep.descs) :
    DescSet i x s t := by
  refine ⟨?_, fun j hj => ?_⟩
  · rw [getDescSlot_congr h]; simp [getDescSlot, setDescSlot]
  · rw [getDescSlot_congr h]; simp [getDescSlot, setDescSlot, tget_tset, hj]

theorem descStatus_first (s : State) (r : List Byte) : descStatus s r = firstFailing (descChecks s r) := by
  unfold descStatus firstFailing descChecks
  extract_lets d
  cases badReserved r <;> cases badRank d <;> cases badFormat d <;> cases badLayout d <;> cases badExtent d <;>
    cases badFill d r <;> cases badShard d r <;> cases badAlign d r <;> cases badRange s d <;> rfl

theorem descHeld_iff (s : State) (i : Nat) : descHeld s i = true ↔ HeldByGraph s i := by
  simp only [descHeld, List.any_eq_true, HeldByGraph]
  constructor
  · rintro ⟨e, he, h⟩
    cases k : e.2.live with
    | none => simp [k] at h
    | some g =>
      simp only [k, List.any_eq_true, beq_iff_eq] at h
      exact ⟨e, he, g, k, h⟩
  · rintro ⟨e, he, g, k, h⟩
    refine ⟨e, he, ?_⟩
    simp only [k, List.any_eq_true, beq_iff_eq]
    exact h

theorem descCreate_next {s : State} {ctx : CmdCtx} (live : LiveCmd ctx s) (r : List Byte) :
    exec (.descCreate ctx r) s = .next (descCreateCmd s ctx r) := by
  simp only [exec, execDescCreate, inService_live live]

theorem noteDescFail_dep (s : State) (ctx : CmdCtx) (n : Nat) :
    Keeps (· ∈ [.regs]) s (noteDescFail s ctx n) :=
  noteDescFail_keeps (.refl s) _ _ (Can.all _)

/-- The failure of a creation. -/
theorem descFail {s : State} {ctx : CmdCtx} (live : LiveCmd ctx s) {r : List Byte} {n k : Nat}
    (e : descCreateCmd s ctx r = failCmd (noteDescFail s ctx n) ctx 0x03 k) (h : k = 0x0100 + n) :
    ∃ t, exec (.descCreate ctx r) s = .next t ∧ Answered ctx 0x03 (0x0100 + n) [] t ∧
      RegsAs (setRawReg (raiseIf (n == 9) (raise (count s descBase Ctr.DT_FAIL_CNT 1) descBase Flag.desc_CREATE_FAIL)
        descBase Flag.desc_FULL) (descBase + 0xC) (BitVec.ofNat 32 (n + 256 * (ctx.lsn.toNat % 2 ^ 24)))) t ∧
      SameBut (.regs :: answerParts) s t := by
  subst h
  refine ⟨_, by rw [descCreate_next live, e], failCmd_answers _ live.2 .., ?_, ?_⟩
  · exact (failCmd_same ..).field .regs (by decide)
  · refine Keeps.sameBut (noteDescFail_keeps (.refl s) _ _ ?_ |>.trans (failCmd_keeps (.refl _) _ _ _ ?_))
    · exact Can.sub (Can.all _) (by decide)
    · exact Can.sub (Can.all _) (by decide)

theorem inAllocation_iff (s : State) (a : Addr) (n : Nat) : inAllocation s a n = true ↔ InLive s a n := by
  simp only [inAllocation, List.any_eq_true, InLive, Bool.and_eq_true, Bool.not_eq_true', decide_eq_true_eq, and_assoc]

theorem touchesUnhomed_iff (s : State) (a : Addr) (n : Nat) : touchesUnhomed s a n = true ↔ TouchesUnhomed s a n := by
  simp only [touchesUnhomed, List.any_eq_true, TouchesUnhomed, Bool.and_eq_true, Option.isNone_iff_eq_none, decide_eq_true_eq,
    and_assoc]

theorem touchesVoid_iff (s : State) (a : Addr) (n : Nat) : touchesVoid s a n = true ↔ TouchesVoid s a n := by
  simp only [touchesVoid, List.any_eq_true, TouchesVoid, Bool.and_eq_true, decide_eq_true_eq, and_assoc]

theorem badPut_iff (s : State) (a : Addr) (n : Nat) :
    (!inAllocation s a n || touchesUnhomed s a n) = true ↔ ¬ InLive s a n ∨ TouchesUnhomed s a n := by
  rw [Bool.or_eq_true, touchesUnhomed_iff, Bool.not_eq_true', ← inAllocation_iff, Bool.not_eq_true]

theorem badGet_iff (s : State) (a : Addr) (n : Nat) :
    (!inAllocation s a n || touchesVoid s a n) = true ↔ ¬ InLive s a n ∨ TouchesVoid s a n := by
  rw [Bool.or_eq_true, touchesVoid_iff, Bool.not_eq_true', ← inAllocation_iff, Bool.not_eq_true]

theorem liveHandle_iff (s : State) (h : Nat) : liveHandle s h = true ↔ ∃ i, NamesDesc s h i := by
  simp only [liveHandle, NamesDesc, handleSlot, handleGen, Bool.and_eq_true, beq_iff_eq, Bool.not_eq_true', and_assoc]
  exact ⟨fun k => ⟨_, rfl, k⟩, fun ⟨i, e, k⟩ => e ▸ k⟩

theorem liveGraph_iff (s : State) (h : Nat) : liveGraph s h = true ↔ ∃ i, NamesGraph s h i := by
  simp only [liveGraph, NamesGraph, handleSlot, handleGen, Bool.and_eq_true, beq_iff_eq, Bool.not_eq_true', and_assoc]
  exact ⟨fun k => ⟨_, rfl, k⟩, fun ⟨i, e, k⟩ => e ▸ k⟩

theorem answered_other {c ctx : CmdCtx} {op st : Nat} {r : List Byte} {s : State} (h : Answered c op st r s)
    (n : OtherCmd c ctx) (opcode status : Nat) (result entry : List Byte) :
    Answered c op st r (respondWith s ctx opcode status result entry) := by
  have hl : ∀ bytes, Answered c op st r (logResponse s ctx bytes).1 := by
    intro bytes
    obtain ⟨x, hx, hs, hl, hb⟩ := h
    have hn : sameCmd x.ctx ctx.session.val ctx.lsn ctx.index = false := by
      rw [Bool.eq_false_iff]
      intro e
      simp only [sameCmd, Bool.and_eq_true, beq_iff_eq] at e hs
      exact n ⟨Fin.ext (hs.1.1.symm.trans e.1.1), hs.1.2.symm.trans e.1.2, hs.2.symm.trans e.2⟩
    unfold logResponse
    extract_lets same
    split
    · refine ⟨x, List.mem_map.mpr ⟨x, hx, ?_⟩, hs, hl, hb⟩
      simp [same, hn]
    · exact ⟨x, List.mem_append_left _ hx, hs, hl, hb⟩
  unfold respondWith
  extract_lets i bytes
  split
  · exact responseWritten_answers _ _ _ h
  · have hu := hl bytes
    generalize logResponse s ctx bytes = p at hu
    obtain ⟨u, psn⟩ := p
    dsimp only at hu ⊢
    split
    · exact responseWritten_answers _ _ _ hu
    · refine answered_of_same hu ?_
      have can := Can.all [.jnl, .txQueue, .outs]
      exact (startWrite_keeps (P := (· ∈ [.jnl, .txQueue, .outs])) (.refl _) ..).field .respLog (by decide)

theorem recordBytes_is (s : State) (j : Job) (status : Nat) (h : status < 2 ^ 16) : RecordIs j status (recordBytes s j status) := by
  have hi := j.jobId.isLt
  refine ⟨?_, ?_, ?_, ?_⟩ <;>
    simp [recordBytes, handleOf, leAt_skip, leAt_first, Nat.mod_eq_of_lt h, Nat.mod_eq_of_lt hi] <;> omega

theorem jobSlots_congr {s t : State} (h : t.cores = s.cores) (k : Nat) : jobSlots t k = jobSlots s k := by
  have : ∀ u, getSlot t u = getSlot s u := fun u => getSlot_congr h u
  simp only [jobSlots, residentSlots, h, this]

theorem otherCmd_symm {a b : CmdCtx} (h : OtherCmd a b) : OtherCmd b a :=
  fun e => h ⟨e.1.symm, e.2.1.symm, e.2.2.symm⟩

theorem getJob_congr {s t : State} (h : t.dep.jobs = s.dep.jobs) (k : Nat) : getJob t k = getJob s k := by
  simp only [getJob, h]

/-- What a look at one wait does. -/
theorem finishWait_gives (s : State) (w : Wait) (hi : w.ctx.index < 2 ^ 32) :
    let t := finishWait s w
    t.dep.jobs = s.dep.jobs ∧ t.mem = s.mem ∧
      (WaitOver s w → t.dep.waits = s.dep.waits.filter (· != w) ∧ Answered w.ctx w.opcode 0 [] t) ∧
      (¬ WaitOver s w → t = s) ∧
      ∀ c op st r, Answered c op st r s → OtherCmd c w.ctx → Answered c op st r t := by
  intro t
  have k : Keeps (· ∈ [.regs, .graphs, .stages, .waits, .respLog, .lotRing, .jnl, .txQueue, .sessions, .outs, .chutes]) s t :=
    finishWait_keeps (.refl s) w (Can.all _)
  have hj : t.dep.jobs = s.dep.jobs := k.field .jobs (by decide)
  have hm : t.mem = s.mem := k.field .mem (by decide)
  have ho : w.jobs.all (fun k => (getJob s k).isNone) = true ↔ WaitOver s w := by
    simp only [List.all_eq_true, Option.isNone_iff_eq_none, WaitOver]
  refine ⟨hj, hm, fun h => ?_, fun h => ?_, fun c op st r ha hc => ?_⟩
  · simp only [t, finishWait, ho.mpr h, if_true]
    split
    · refine ⟨?_, respondWith_answers _ hi ..⟩
      have can := Can.all [.regs, .graphs, .stages, .respLog, .lotRing, .jnl, .txQueue, .sessions, .outs, .chutes]
      exact (respondWith_keeps (P := (· ∈ [.regs, .graphs, .stages, .respLog, .lotRing, .jnl, .txQueue, .sessions, .outs, .chutes]))
        (logTable_keeps (releaseGraph_keeps (.refl _) _) _) _ _ _ _ _).field .waits (by decide)
    · exact ⟨(respondWith_same _ _ _ _ _ []).field .waits (by decide), respond_answers _ hi ..⟩
  · have : ¬ w.jobs.all (fun k => (getJob s k).isNone) = true := fun e => h (ho.mp e)
    simp only [t, finishWait, this]
    rfl
  · simp only [t, finishWait]
    split
    · split
      · refine answered_other (answered_of_same ha ?_) hc ..
        have can := Can.all [.regs, .graphs, .stages, .jnl, .txQueue, .sessions, .outs, .chutes]
        exact (logTable_keeps (P := (· ∈ [.regs, .graphs, .stages, .jnl, .txQueue, .sessions, .outs, .chutes]))
          (releaseGraph_keeps (.refl _) _) _).field .respLog (by decide)
      · simp only [respond]
        refine answered_other ?_ hc ..
        exact answered_of_same ha rfl
    · exact ha

/-- What a look at every wait does. -/
theorem finishWaits_gives (s : State) (hi : ∀ w ∈ s.dep.waits, w.ctx.index < 2 ^ 32)
    (hp : s.dep.waits.Pairwise fun a b => OtherCmd a.ctx b.ctx) :
    let t := finishWaits s
    t.dep.jobs = s.dep.jobs ∧ t.mem = s.mem ∧ (∀ w, w ∈ t.dep.waits ↔ w ∈ s.dep.waits ∧ ¬ WaitOver s w) ∧
      (∀ w ∈ s.dep.waits, WaitOver s w → Answered w.ctx w.opcode 0 [] t) ∧
      ∀ c op st r, Answered c op st r s → (∀ w ∈ s.dep.waits, OtherCmd c w.ctx) → Answered c op st r t := by
  suffices key : ∀ (l : List Wait) (u : State), (∀ w ∈ l, w.ctx.index < 2 ^ 32) →
      l.Pairwise (fun a b => OtherCmd a.ctx b.ctx) →
      let t := l.foldl finishWait u
      t.dep.jobs = u.dep.jobs ∧ t.mem = u.mem ∧ (∀ w, w ∈ t.dep.waits ↔ w ∈ u.dep.waits ∧ ¬ (w ∈ l ∧ WaitOver u w)) ∧
        (∀ w ∈ l, WaitOver u w → Answered w.ctx w.opcode 0 [] t) ∧
        ∀ c op st r, Answered c op st r u → (∀ w ∈ l, OtherCmd c w.ctx) → Answered c op st r t by
    obtain ⟨h1, h2, h3, h4, h5⟩ := key s.dep.waits s hi hp
    refine ⟨h1, h2, fun w => (h3 w).trans ⟨fun ⟨a, b⟩ => ⟨a, fun c => b ⟨a, c⟩⟩, fun ⟨a, b⟩ => ⟨a, fun c => b c.2⟩⟩, h4, h5⟩
  intro l
  induction l with
  | nil => exact fun u _ _ => ⟨rfl, rfl, fun w => by simp, fun w h => by simp at h, fun _ _ _ _ h _ => h⟩
  | cons x r ih =>
    intro u hi hp
    obtain ⟨hx, hr⟩ := List.pairwise_cons.mp hp
    obtain ⟨f1, f2, f3, f4, f5⟩ := finishWait_gives u x (hi x (List.mem_cons_self ..))
    obtain ⟨g1, g2, g3, g4, g5⟩ := ih (finishWait u x) (fun w h => hi w (List.mem_cons_of_mem _ h)) hr
    have ov : ∀ w, WaitOver (finishWait u x) w ↔ WaitOver u w := fun w => by simp only [WaitOver, getJob_congr f1]
    refine ⟨g1.trans f1, g2.trans f2, fun w => ?_, fun w hw ho => ?_, fun c op st res ha hc => ?_⟩
    · simp only [List.foldl_cons]
      rw [g3 w, ov w]
      by_cases h : WaitOver u x
      · rw [(f3 h).1]
        simp only [List.mem_filter, bne_iff_ne, ne_eq, List.mem_cons]
        refine ⟨fun ⟨⟨a, b⟩, c⟩ => ⟨a, fun ⟨d, e⟩ => c ⟨d.resolve_left b, e⟩⟩,
          fun ⟨a, b⟩ => ⟨⟨a, fun e => b ⟨.inl e, e ▸ h⟩⟩, fun ⟨d, e⟩ => b ⟨.inr d, e⟩⟩⟩
      · rw [f4 h]
        simp only [List.mem_cons]
        refine ⟨fun ⟨a, b⟩ => ⟨a, fun ⟨d, e⟩ => d.elim (fun k => h (k ▸ e)) fun k => b ⟨k, e⟩⟩,
          fun ⟨a, b⟩ => ⟨a, fun ⟨d, e⟩ => b ⟨.inr d, e⟩⟩⟩
    · simp only [List.foldl_cons]
      rcases List.mem_cons.mp hw with e | e
      · subst e
        exact g5 _ _ _ _ (f3 ho).2 fun v hv => hx v hv
      · exact g4 w e ((ov w).mpr ho)
    · simp only [List.foldl_cons]
      exact g5 _ _ _ _ (f5 _ _ _ _ ha (hc x (List.mem_cons_self ..))) fun w hw => hc w (List.mem_cons_of_mem _ hw)

/-- A job ended: its record is formed, written and answered, and every wait that its end satisfies is answered. -/
theorem endJob_gives {s : State} {key : Nat} {j : Job} (hj : getJob s key = some j)
    (hi : j.ctx.index < 2 ^ 32) (hd : j.record = 0 ∨ InDram j.record) (status : Nat) (hs : status < 2 ^ 16)
    (hw : ∀ w ∈ s.dep.waits, w.ctx.index < 2 ^ 32 ∧ OtherCmd j.ctx w.ctx)
    (hp : s.dep.waits.Pairwise fun a b => OtherCmd a.ctx b.ctx) :
    let t := endJob s key status
    ∃ bs, RecordIs j status bs ∧ Answered j.ctx 0x09 0 bs t ∧ t.dep.jobs = s.dep.jobs.filter (·.key != key) ∧
      (∀ w, w ∈ t.dep.waits ↔ w ∈ s.dep.waits ∧ ¬ WaitOver t w) ∧
      (∀ w ∈ s.dep.waits, WaitOver t w → Answered w.ctx w.opcode 0 [] t) ∧
      (j.record ≠ 0 → t.mem = storeBytes s.mem j.record bs) ∧ (j.record = 0 → t.mem = s.mem) := by
  intro t
  have e : t = endJob s key status := rfl
  unfold endJob at e
  rw [hj] at e
  dsimp only at e
  generalize hs0 : (jobSlots s key).foldl discardTask s = s0 at e
  have k0 : Keeps (· ∈ [.regs, .stages, .arrays, .cores, .hoists]) s s0 := by
    subst hs0
    have can := Can.all [.regs, .stages, .arrays, .cores, .hoists]
    exact Keeps.foldl (.refl s) _ fun u n k => discardTask_keeps k ..
  generalize hs1 : (jobNodes s0 j).foldl (fun s n => countRun s j n.1 n.2) s0 = s1 at e
  have can := Can.all [.regs, .stages, .arrays, .cores, .hoists]
  have k1 : Keeps (· ∈ [.regs, .stages, .arrays, .cores, .hoists]) s s1 := by
    subst hs1
    exact Keeps.foldl k0 _ fun u n k => countRun_keeps k ..
  generalize hb : recordBytes s1 j status = bs at e
  have hr : RecordIs j status bs := hb ▸ recordBytes_is s1 j status hs
  have k2 : Keeps (· ∈ [.regs, .stages, .arrays, .cores, .hoists]) s (countMisses s1 j) := countMisses_keeps k1 ..
  generalize countMisses s1 j = s2 at e k2
  have hw3 : Keeps (· ∈ [.mem, .regs, .stages, .voids, .dep, .assays, .cores, .arrays, .hoists]) s
      (if j.record = 0 then s2 else writeModule s2 j.record bs) ∧
      (j.record ≠ 0 → (if j.record = 0 then s2 else writeModule s2 j.record bs).mem = storeBytes s.mem j.record bs) ∧
      (j.record = 0 → (if j.record = 0 then s2 else writeModule s2 j.record bs).mem = s.mem) := by
    have hm : s2.mem = s.mem := k2.field .mem (by decide)
    have can := Can.all [.mem, .regs, .stages, .voids, .dep, .assays, .cores, .arrays, .hoists]
    have k2' : Keeps (· ∈ [.mem, .regs, .stages, .voids, .dep, .assays, .cores, .arrays, .hoists]) s s2 := k2.mono
    split
    · exact ⟨k2', fun h => absurd ‹_› h, fun _ => hm⟩
    · refine ⟨writeModule_keeps k2' .., fun _ => ?_, fun h => absurd h ‹_›⟩
      obtain ⟨m, o, hp⟩ := hd.resolve_left ‹_›
      have hk : Keeps (· ∈ [.voids, .dep, .assays]) { s2 with mem := storeBytes s2.mem j.record bs } (writeModule s2 j.record bs) := by
        simp only [writeModule, hp]
        have can := Can.all [.voids, .dep, .assays]
        exact staleAssays_keeps (revalidate_keeps (.refl _) ..) ..
      rw [show (writeModule s2 j.record bs).mem = _ from hk.field .mem (by decide), hm]
  generalize (if j.record = 0 then s2 else writeModule s2 j.record bs) = s3 at e hw3
  obtain ⟨k3, hm1, hm0⟩ := hw3
  generalize hs4 : ({ dropCounters (dropReruns s3 key) key with
    scatters := _, dep := { (dropCounters (dropReruns s3 key) key).dep with jobs := _ } } : State) = s4 at e
  have h4 : s4.dep.jobs = s.dep.jobs.filter (·.key != key) ∧ s4.dep.waits = s.dep.waits ∧ s4.mem = s3.mem := by
    have kd : Keeps (· ∈ [.dep, .counters]) s3 (dropCounters (dropReruns s3 key) key) := by
      have can := Can.all [.dep, .counters]
      exact dropCounters_keeps (dropReruns_keeps (.refl _) ..) ..
    have hjb : (dropCounters (dropReruns s3 key) key).dep.jobs = s.dep.jobs :=
      (kd.field .jobs (by decide)).trans (k3.field .jobs (by decide))
    have hwt : (dropCounters (dropReruns s3 key) key).dep.waits = s.dep.waits :=
      (kd.field .waits (by decide)).trans (k3.field .waits (by decide))
    subst hs4
    refine ⟨by simp only [hjb], hwt, (kd.field .mem (by decide))⟩
  have kr : Keeps (· ∈ answerParts) s4 (respond s4 j.ctx 0x09 0 bs) := respondWith_same s4 j.ctx 0x09 0 bs []
  have ha : Answered j.ctx 0x09 0 bs (respond s4 j.ctx 0x09 0 bs) := respondWith_answers s4 hi ..
  generalize respond s4 j.ctx 0x09 0 bs = s5 at e kr ha
  have hw5 : s5.dep.waits = s.dep.waits := (kr.field .waits (by decide)).trans h4.2.1
  obtain ⟨f1, f2, f3, f4, f5⟩ := finishWaits_gives s5 (fun w h => (hw w (hw5 ▸ h)).1) (hw5 ▸ hp)
  have ke : Keeps (· ∈ [.dep]) (finishWaits s5) t := by
    rw [e]
    exact endRecovery_keeps (.refl _) (Can.all _)
  have tj : t.dep.jobs = s5.dep.jobs := (ke.field .jobs (by decide)).trans f1
  have tm : t.mem = s3.mem := ((ke.field .mem (by decide)).trans (f2.trans (kr.field .mem (by decide)))).trans h4.2.2
  have ov : ∀ w, WaitOver t w ↔ WaitOver s5 w := fun w => by simp only [WaitOver, getJob_congr tj]
  have tl : t.jnl.respLog = (finishWaits s5).jnl.respLog := ke.field .respLog (by decide)
  have tw : t.dep.waits = (finishWaits s5).dep.waits := ke.field .waits (by decide)
  refine ⟨bs, hr, answered_of_same (f5 _ _ _ _ ha fun w h => (hw w (hw5 ▸ h)).2) tl,
    tj.trans ((kr.field .jobs (by decide)).trans h4.1), fun w => ?_, fun w h o => ?_, fun h => tm.trans (hm1 h), fun h => tm.trans (hm0 h)⟩
  · rw [tw, f3 w, hw5, ov]
  · exact answered_of_same (f4 w (hw5.symm ▸ h) ((ov w).mp o)) tl

/-- A job that ends while nothing waits for it. -/
theorem endJob_of {s : State} {j : Job} (hj : getJob s j.key = some j) (hw : s.dep.waits = [])
    (hi : j.ctx.index < 2 ^ 32) (hd : j.record = 0 ∨ InDram j.record) (status : Nat) (hs : status < 2 ^ 16) :
    let t := endJob s j.key status
    ∃ bs, RecordIs j status bs ∧ Answered j.ctx 0x09 0 bs t ∧ t.dep.jobs = s.dep.jobs.filter (·.key != j.key) ∧
      t.dep.waits = [] ∧
      (j.record ≠ 0 → t.mem = storeBytes s.mem j.record bs) ∧ (j.record = 0 → t.mem = s.mem) := by
  intro t
  obtain ⟨bs, h1, h2, h3, h4, -, h5, h6⟩ := endJob_gives hj hi hd status hs
    (fun w h => by rw [hw] at h; cases h) (by rw [hw]; exact List.Pairwise.nil)
  refine ⟨bs, h1, h2, h3, List.eq_nil_iff_forall_not_mem.mpr fun w h => ?_, h5, h6⟩
  have := ((h4 w).mp h).1
  rw [hw] at this
  cases this

theorem find?_key {l : List Job} {j : Job} {k : Nat} (h : j ∈ l) (e : j.key = k) (u : ∀ x ∈ l, x.key = k → x = j) :
    l.find? (fun x => x.key == k) = some j :=
  find?_unique h (by simp [e]) fun x hx h => u x hx (by simpa using h)

/-- A job marked to end. -/
def endingJob (j : Job) (status : Nat) : Job :=
  { j with ending := some (j.ending.getD status) }

/-- The state in which a job that is stopped ends, when none of its tasks is resident. -/
def stopState (s : State) (key status : Nat) : State :=
  discardUnstarted (updJob s key (endingJob · status)) key

theorem discardUnstarted_none {s : State} {key : Nat} (h : (jobSlots s key).filter (fun t => !(getSlot s t).started) = []) :
    discardUnstarted s key = { s with counters := s.counters.map fun e =>
      if e.2.active && e.2.job == key then (e.1, { e.2 with next := e.2.limit }) else e } := by
  simp only [discardUnstarted, h, List.foldl_nil]

theorem stopState_keeps {s : State} {key status : Nat}
    (h : (jobSlots s key).filter (fun t => !(getSlot s t).started) = []) :
    Keeps (· ∈ [.jobs, .counters]) s (stopState s key status) ∧
    (stopState s key status).dep.jobs = s.dep.jobs.map (fun x => if x.key = key then endingJob x status else x) ∧
    jobSlots (stopState s key status) key = jobSlots s key := by
  have hc : (updJob s key (endingJob · status)).cores = s.cores := rfl
  have hs : jobSlots (updJob s key (endingJob · status)) key = jobSlots s key := jobSlots_congr hc key
  have hg : ∀ t, getSlot (updJob s key (endingJob · status)) t = getSlot s t := fun t => getSlot_congr hc t
  have e : stopState s key status = { updJob s key (endingJob · status) with
      counters := s.counters.map fun e => if e.2.active && e.2.job == key then (e.1, { e.2 with next := e.2.limit }) else e } := by
    rw [stopState, discardUnstarted_none (by simp only [hs, hg, h])]
    rfl
  have can := Can.all [.jobs, .counters]
  refine ⟨?_, by rw [e]; rfl, ?_⟩
  · rw [e]
    exact Keeps.same (s := updJob s key (endingJob · status)) (updJob_keeps (.refl s) ..) rfl rfl rfl rfl
  · rw [← hs]
    exact jobSlots_congr (by rw [e]) key

theorem stopState_get {s : State} {j : Job} {status : Nat} (hm : j ∈ s.dep.jobs) (hu : ∀ x ∈ s.dep.jobs, x.key = j.key → x = j)
    (h : (jobSlots s j.key).filter (fun t => !(getSlot s t).started) = []) :
    getJob (stopState s j.key status) j.key = some (endingJob j status) := by
  rw [getJob, (stopState_keeps h).2.1]
  refine find?_key (List.mem_map.mpr ⟨j, hm, by simp⟩) rfl fun x hx e => ?_
  obtain ⟨y, hy, rfl⟩ := List.mem_map.mp hx
  by_cases c : y.key = j.key
  · simp only [c, if_true] at e ⊢
    rw [hu y hy c]
  · simp only [c, if_false] at e

theorem filter_ending (l : List Job) (key status : Nat) :
    (l.map fun x => if x.key = key then endingJob x status else x).filter (·.key != key) = l.filter (·.key != key) := by
  induction l with
  | nil => rfl
  | cons x r ih =>
    by_cases c : x.key = key
    · have e : (endingJob x status).key = key := c
      simp only [List.map_cons, c, if_true, List.filter_cons, e, bne_self_eq_false, Bool.false_eq_true, if_false, ih]
    · simp [c, ih]

theorem stopJob_eq (s : State) (key status : Nat) : stopJob s key status =
    if jobSlots (stopState s key status) key = [] then endJob (stopState s key status) key status
    else stopState s key status := rfl

/-- A wait that nothing holds up is answered at once. -/
theorem waitFor_done {s : State} {ctx : CmdCtx} {op : Nat} {keys : List Nat} (hw : s.dep.waits = [])
    (h : ∀ k ∈ keys, getJob s k = none) :
    waitFor s ctx op keys none = respond s ctx op 0 [] := by
  have ha : keys.all (fun k => (getJob s k).isNone) = true := by
    rw [List.all_eq_true]
    exact fun k hk => by rw [h k hk]; rfl
  have hk : ∀ (w : List Wait) (k : Nat), getJob { s with dep := { s.dep with waits := w } } k = getJob s k := fun _ _ => rfl
  simp only [waitFor, finishWait, hk, ha, if_true, hw, List.nil_append]
  have e : [(⟨ctx, op, keys, none⟩ : Wait)].filter (· != ⟨ctx, op, keys, none⟩) = s.dep.waits := by
    rw [hw]
    simp
  rw [e]

theorem getGraphSlot_congr {s t : State} (h : t.dep.graphs = s.dep.graphs) (i : Nat) : getGraphSlot t i = getGraphSlot s i := by
  simp only [getGraphSlot, h]

theorem getGraphSlot_set (s : State) (i j : Nat) (x : GraphSlot) :
    getGraphSlot (setGraphSlot s i x) j = if j = i then x else getGraphSlot s j := by
  simp only [getGraphSlot, setGraphSlot, tget_tset]

theorem graphHeld_congr {i gen : Nat} {g : Image} {raw : List Byte} {s t u : State} (h : GraphHeld i gen g raw s t)
    (e : u.dep.graphs = t.dep.graphs) : GraphHeld i gen g raw s u := by
  have k := getGraphSlot_congr e
  exact ⟨by rw [k, h.gen], by rw [k, h.live], by rw [k, h.stays], by rw [k, h.raw], fun j hj => by rw [k, h.others j hj]⟩

theorem chooseOf_graphs {α : Type} {s u : State} {l : List α} {x : Option α} (h : chooseOf s l = (x, u)) :
    u.dep.graphs = s.dep.graphs := by
  have := congrArg (·.2.dep.graphs) h
  exact this.symm

theorem graphHeld_bound {i gen : Nat} {g : Image} {raw : List Byte} {s t : State} (h : GraphHeld i gen g raw s t)
    (l : List (Nat × EndpointId)) :
    GraphHeld i gen g raw s (setGraphSlot t i { getGraphSlot t i with chutes := l }) := by
  have e := getGraphSlot_set t i
  refine ⟨?_, ?_, ?_, ?_, fun j hj => ?_⟩
  · rw [e, if_pos rfl]; exact h.gen
  · rw [e, if_pos rfl]; exact h.live
  · rw [e, if_pos rfl]; exact h.stays
  · rw [e, if_pos rfl]; exact h.raw
  · rw [e, if_neg hj]; exact h.others j hj

theorem bindChute_held {i gen : Nat} {g g' : Image} {raw : List Byte} {s t : State} (h : GraphHeld i gen g raw s t) (k : Nat) :
    GraphHeld i gen g raw s (bindChute i g' t k) := by
  unfold bindChute
  split
  · rename_i e ep u h1 h2
    have hu := graphHeld_congr h (chooseOf_graphs h2)
    generalize hq : (if runsHere u g' e.producer = true then _ else _ : Nat × State) = p
    have hp : p.2.dep.graphs = u.dep.graphs := by
      rw [← hq]
      split
      · split
        · exact chooseOf_graphs (by assumption)
        · exact chooseOf_graphs (by assumption)
      · rfl
    exact graphHeld_congr (graphHeld_bound (graphHeld_congr hu hp) _) rfl
  · exact graphHeld_congr h (chooseOf_graphs (by assumption))

theorem setStages_get (l : List Nat) (i : Nat) (x : Stage) (s : State) (k : Nat) :
    getStage (l.foldl (fun s n => setStage s i n x) s) i k = if k ∈ l then x else getStage s i k := by
  induction l generalizing s with
  | nil => simp
  | cons a r ih =>
    rw [List.foldl_cons, ih]
    by_cases h : k ∈ r
    · simp [h]
    · by_cases e : k = a
      · subst e; simp [h, getStage, setStage]
      · simp [h, e, getStage, setStage, tget_tset]

theorem bindChutes_held {i gen : Nat} {g g' : Image} {raw : List Byte} {s : State} (l : List Nat) {t : State}
    (h : GraphHeld i gen g raw s t) : GraphHeld i gen g raw s (l.foldl (bindChute i g') t) := by
  induction l generalizing t with
  | nil => exact h
  | cons a r ih => exact ih (bindChute_held h a)

/-- What placing a graph leaves in the tables. -/
theorem placeGraph_held {i gen : Nat} {g : Image} {raw : List Byte} {s t : State} (h : GraphHeld i gen g raw s t) :
    GraphHeld i gen g raw s (placeGraph t i g) ∧
    (∀ k, k < g.nodes.length → getStage (placeGraph t i g) i k = { threshold := t.pwr.config.aditThreshold }) := by
  unfold placeGraph
  extract_lets t1 t2 t3
  have e1 : t1 = (List.range g.nodes.length).foldl (fun u n => setStage u i n { threshold := t.pwr.config.aditThreshold }) t := by
    simp only [t1]
    have : ∀ (l : List Nat) (u : State), u.pwr = t.pwr → l.foldl (fun s n => setStage s i n { threshold := s.pwr.config.aditThreshold }) u =
        l.foldl (fun u n => setStage u i n { threshold := t.pwr.config.aditThreshold }) u := by
      intro l
      induction l with
      | nil => exact fun _ _ => rfl
      | cons a r ih =>
        intro u hu
        simp only [List.foldl_cons, hu]
        exact ih _ (by simp [setStage, hu])
    exact this _ t rfl
  have can := Can.all [.stages]
  have k1 : Keeps (· ∈ [.stages]) t t1 := by
    rw [e1]
    exact Keeps.foldl (.refl t) _ fun u n k => setStage_keeps k ..
  have h2 : GraphHeld i gen g raw s t2 := bindChutes_held _ (graphHeld_congr h (k1.field .graphs (by decide)))
  have k2 : Keeps (· ∈ [.freeCount, .graphs, .chutes]) t1 t2 := by
    have can := Can.all [.freeCount, .graphs, .chutes]
    exact Keeps.foldl (.refl t1) _ fun u n k => bindChute_keeps k ..
  have k3 : Keeps (· ∈ [.txQueue, .outs]) t2 t3 := by
    have can := Can.all [.txQueue, .outs]
    exact Keeps.foldl (.refl t2) _ fun u n k => openOut_keeps k ..
  have k4 : Keeps (· ∈ [.mem, .regs, .voids, .dep, .cores, .assays]) t3
      ((g.nodes.filter fun n => n.op == 0x01).foldl (loadAssay g) t3) := by
    have can := Can.all [.mem, .regs, .voids, .dep, .cores, .assays]
    exact Keeps.foldl (.refl t3) _ fun u n k => loadAssay_keeps k ..
  refine ⟨graphHeld_congr h2 ((k4.field .graphs (by decide)).trans (k3.field .graphs (by decide))), fun k hk => ?_⟩
  have hs : ((g.nodes.filter fun n => n.op == 0x01).foldl (loadAssay g) t3).dep.stages = t1.dep.stages :=
    (k4.field .stages (by decide)).trans ((k3.field .stages (by decide)).trans (k2.field .stages (by decide)))
  have := setStages_get (List.range g.nodes.length) i { threshold := t.pwr.config.aditThreshold } t k
  rw [if_pos (List.mem_range.mpr hk), ← e1] at this
  simpa only [getStage, hs] using this

end Sys2Proof.Machine
end

