-- ==== Sys2Proof/Laws/Jobs.lean ====
section
/-! SUPPORT. Jobs and tasks: what the operations do. -/

-- one theorem after the other: proofs side by side would need more memory than the check allows
set_option Elab.async false

namespace Sys2Proof.Machine

open Sys2Proof.Safety

theorem counterKey_inj {a c : Fin 16} {b d : Fin 64} (h : counterKey a.val b.val = counterKey c.val d.val) : a = c ∧ b = d := by
  have := a.isLt; have := b.isLt; have := c.isLt; have := d.isLt
  simp only [counterKey] at h
  exact ⟨Fin.ext (by omega), Fin.ext (by omega)⟩

theorem insertTask_sorted (t : TaskDef) (l : List TaskDef) (h : l.Pairwise fun a b => b.cost ≤ a.cost) :
    (insertTask t l).Pairwise (fun a b => b.cost ≤ a.cost) ∧ ∀ x ∈ insertTask t l, x = t ∨ x ∈ l := by
  induction l with
  | nil => simp [insertTask]
  | cons x r ih =>
    obtain ⟨hx, hr⟩ := List.pairwise_cons.mp h
    unfold insertTask
    split
    · refine ⟨List.pairwise_cons.mpr ⟨fun y hy => ?_, h⟩, fun y hy => List.mem_cons.mp hy⟩
      rcases List.mem_cons.mp hy with e | e
      · subst e; omega
      · have := hx y e; omega
    · refine ⟨List.pairwise_cons.mpr ⟨fun y hy => ?_, (ih hr).1⟩, fun y hy => ?_⟩
      · rcases (ih hr).2 y hy with e | e
        · subst e; omega
        · exact hx y e
      · rcases List.mem_cons.mp hy with e | e
        · exact .inr (e ▸ List.mem_cons_self ..)
        · exact ((ih hr).2 y e).imp id (List.mem_cons_of_mem _)

theorem insertTask_length (t : TaskDef) (l : List TaskDef) : (insertTask t l).length = l.length + 1 := by
  induction l with
  | nil => rfl
  | cons x r ih =>
    unfold insertTask
    split <;> simp [*]

theorem sortTasks_sorted (l : List TaskDef) :
    (sortTasks l).Pairwise (fun a b => b.cost ≤ a.cost) ∧ (sortTasks l).length = l.length := by
  suffices key : ∀ (l acc : List TaskDef), acc.Pairwise (fun a b => b.cost ≤ a.cost) →
      (l.foldl (fun acc t => insertTask t acc) acc).Pairwise (fun a b => b.cost ≤ a.cost) ∧
      (l.foldl (fun acc t => insertTask t acc) acc).length = acc.length + l.length by
    have := key l [] List.Pairwise.nil
    simpa [sortTasks] using this
  intro l
  induction l with
  | nil => exact fun acc h => ⟨h, rfl⟩
  | cons x r ih =>
    intro acc h
    have := ih (insertTask x acc) (insertTask_sorted x acc h).1
    refine ⟨this.1, ?_⟩
    rw [List.foldl_cons, this.2, insertTask_length, List.length_cons]
    omega

theorem deal_sorted {n : Nat} {own : TaskDef → Option Nat} {l : List TaskDef}
    (h : l.Pairwise fun a b => b.cost ≤ a.cost) : ∀ x ∈ deal n own l, x.Pairwise fun a b => b.cost ≤ a.cost := by
  intro x hx
  simp only [deal, List.mem_map, List.mem_range] at hx
  obtain ⟨k, -, rfl⟩ := hx
  have hl : ((List.range l.length).filterMap fun i => l[i]?.map fun t => ((own t).getD (snake n i), t)).map (·.2) = l := by
    rw [List.map_filterMap]
    have : ∀ m, m ≤ l.length → (List.range m).filterMap
        (fun i => Option.map (fun x : Nat × TaskDef => x.2) (l[i]?.map fun t => ((own t).getD (snake n i), t))) = l.take m := by
      intro m
      induction m with
      | zero => intro; simp
      | succ m ih =>
        intro hm
        rw [List.range_succ, List.filterMap_append, ih (by omega), List.take_add_one]
        simp [List.getElem?_eq_getElem (show m < l.length by omega)]
    rw [this _ (Nat.le_refl _), List.take_length]
  rw [← hl] at h
  exact h.sublist (List.Sublist.map _ (List.filter_sublist))

theorem sum_filter_length {α : Type} (key : α → Nat) (l : List α) : ∀ n, (∀ x ∈ l, key x < n) →
    ((List.range n).map fun k => (l.filter fun x => key x == k).length).sum = l.length := by
  induction l with
  | nil =>
    intro n _
    induction n with
    | zero => rfl
    | succ n ih => rw [List.range_succ, List.map_append, List.sum_append]; simpa using ih
  | cons x r ih =>
    intro n h
    have hx := h x (List.mem_cons_self ..)
    have := ih n fun y hy => h y (List.mem_cons_of_mem _ hy)
    have split : ∀ m, ((List.range m).map fun k => ((x :: r).filter fun x => key x == k).length).sum =
        ((List.range m).map fun k => (r.filter fun x => key x == k).length).sum + (if key x < m then 1 else 0) := by
      intro m
      induction m with
      | zero => rfl
      | succ m ih2 =>
        rw [List.range_succ, List.map_append, List.map_append, List.sum_append, List.sum_append, ih2]
        simp only [List.map_cons, List.map_nil, List.sum_cons, List.sum_nil, List.filter_cons]
        by_cases e : key x = m
        · simp [e]; omega
        · have : (key x == m) = false := by simpa using e
          have : key x < m + 1 ↔ key x < m := by omega
          simp only [*, Bool.false_eq_true, if_false]
          omega
    rw [split, this, if_pos hx]
    rfl

theorem deal_total {n : Nat} {own : TaskDef → Option Nat} {l : List TaskDef} (hn : 0 < n)
    (ho : ∀ t k, own t = some k → k < n) : (deal n own l).length = n ∧ ((deal n own l).map List.length).sum = l.length := by
  refine ⟨by simp [deal], ?_⟩
  simp only [deal, List.map_map]
  generalize hp : ((List.range l.length).filterMap fun i => l[i]?.map fun t => ((own t).getD (snake n i), t)) = placed
  have hb : ∀ x ∈ placed, x.1 < n := by
    subst hp
    intro x hx
    simp only [List.mem_filterMap, List.mem_range, Option.map_eq_some_iff] at hx
    obtain ⟨i, -, t, -, rfl⟩ := hx
    cases ho' : own t with
    | some k => exact ho t k ho'
    | none =>
      simp only [Option.getD_none, snake]
      have := Nat.mod_lt i (show 0 < 2 * n by omega)
      split <;> omega
  have hl : placed.length = l.length := by
    subst hp
    have : ∀ m, m ≤ l.length → ((List.range m).filterMap
        (fun i => (l[i]?.map fun t => ((own t).getD (snake n i), t)))).length = m := by
      intro m
      induction m with
      | zero => intro; simp
      | succ m ih =>
        intro hm
        rw [List.range_succ, List.filterMap_append, List.length_append, ih (by omega)]
        simp [List.getElem?_eq_getElem (show m < l.length by omega)]
    exact this _ (Nat.le_refl _)
  rw [← hl, ← sum_filter_length (fun x : Nat × TaskDef => x.1) placed n hb]
  congr 1
  apply List.map_congr_left
  intro k _
  simp

theorem ownSeam_lt (s : State) (g : Image) (n : Node) (es : List ElemPlan) (p : NodePlan) (t : TaskDef) (k : Nat)
    (h : ownSeam s g n es p t = some k) : k < p.seams.length := by
  unfold ownSeam at h
  split at h
  · split at h
    · obtain ⟨m, -, hm⟩ := Option.bind_eq_some_iff.mp h
      exact (List.findIdx?_eq_some_iff_findIdx_eq.mp hm).1
    · cases h
  · cases h

/-- What binding the counters of a plan does. -/
theorem bindCounters_gives (key i : Nat) (l : List ((Fin 16 × Fin 64 × Nat) × List TaskDef)) (s : State)
    (hd : (l.map (·.1.1)).Nodup) :
    let t := l.foldl (bindCounter key i) s
    Keeps (· ∈ [.counters]) s t ∧
    (∀ x ∈ l, getCounter t x.1.1.val x.1.2.1.val =
      { limit := x.2.length, node := i, job := key, group := x.1.2.2, active := true, tasks := x.2 }) ∧
    (∀ (m : Fin 16) (k : Fin 64), (∀ x ∈ l, ¬ (x.1.1 = m ∧ x.1.2.1 = k)) → getCounter t m.val k.val = getCounter s m.val k.val) := by
  induction l generalizing s with
  | nil => exact ⟨.refl s, fun x h => by simp at h, fun _ _ _ => rfl⟩
  | cons x r ih =>
    obtain ⟨hx, hr⟩ := List.nodup_cons.mp hd
    obtain ⟨h1, h2, h3⟩ := ih (bindCounter key i s x) hr
    have hk : Keeps (· ∈ [.counters]) s (bindCounter key i s x) := bindCounter_keeps (.refl s) _ _ _ (Can.all _)
    refine ⟨hk.trans h1, fun y hy => ?_, fun m k h => ?_⟩
    · rcases List.mem_cons.mp hy with e | e
      · subst e
        rw [List.foldl_cons, h3 _ _ fun z hz e => hx (List.mem_map.mpr ⟨z, hz, e.1⟩)]
        simp only [bindCounter, getCounter, setCounter, tget_tset, if_true]
      · exact h2 y e
    · rw [List.foldl_cons, h3 m k fun z hz => h z (List.mem_cons_of_mem _ hz)]
      have := h x (List.mem_cons_self ..)
      simp only [bindCounter, getCounter, setCounter, tget_tset]
      rw [if_neg]
      intro e
      have := counterKey_inj e
      exact h x (List.mem_cons_self ..) ⟨this.1.symm, this.2.symm⟩

theorem depsSatisfied_of {s : State} {g : Image} {j : Job} {i : Nat}
    (h : ∀ e ∈ g.edges, e.kind = 0 → e.consumer = i → runsHere s g e.producer = true → NodeDone j e.producer) :
    depsSatisfied s g j i = true := by
  simp only [depsSatisfied, List.all_eq_true, Bool.or_eq_true, Bool.and_eq_true, Bool.not_eq_true', beq_iff_eq]
  intro e he
  by_cases c : (e.kind = 0 ∧ e.consumer = i) ∧ runsHere s g e.producer = true
  · exact .inr (h e he c.1.1 c.1.2 c.2)
  · left
    rw [Bool.eq_false_iff]
    intro k
    simp only [Bool.and_eq_true, beq_iff_eq] at k
    exact c k

theorem readsVoid_iff (s : State) (g : Image) (n : Node) : readsVoid s g n = true ↔ ReadsVoid s g n := by
  simp only [readsVoid, ReadsVoid, List.any_eq_true, Bool.and_eq_true]

theorem clampLen_le (v : Int) (ext : Nat) : (clampLen v ext).1 ≤ ext := by
  unfold clampLen
  split
  · exact Nat.zero_le _
  · split
    · exact Nat.le_refl _
    · show v.toNat ≤ ext
      omega

theorem lenOf_le (s : State) (g : Image) (n : Node) (b dim ext : Nat) : (lenOf s g n b dim ext).1 ≤ ext := by
  unfold lenOf
  extract_lets i
  split
  · exact Nat.le_refl _
  · split
    · exact clampLen_le ..
    · exact Nat.le_refl _

theorem planElem_len (s : State) (g : Image) (i : Nat) (n : Node) (st : Stage) (p : NodePlan) (b : Nat) :
    let e := planElem s g i n st p b
    e.len.1 ≤ (elemShape s g n b).1 ∧ e.len.2.1 ≤ (elemShape s g n b).2.1 ∧ e.len.2.2 ≤ (elemShape s g n b).2.2 := by
  intro e
  simp only [e, planElem]
  split
  · exact ⟨Nat.zero_le _, Nat.zero_le _, Nat.zero_le _⟩
  · split
    · simp only [lengths]
      exact ⟨lenOf_le .., lenOf_le .., lenOf_le ..⟩
    · exact ⟨Nat.zero_le _, Nat.zero_le _, Nat.zero_le _⟩

theorem makeRun_gives (s : State) (g : Image) (n : Node) (st : Stage) (p : NodePlan) (es : List ElemPlan) :
    let r := makeRun s g n st p es
    r.started = true ∧ r.doneTasks = 0 ∧ r.elems = List.range es.length ∧ r.total = (es.flatMap (·.tasks)).length ∧
    ∀ e ∈ r.lens, ∃ x, es[e.1]? = some x ∧ e.2 = x.len := by
  refine ⟨rfl, rfl, rfl, ?_, fun e h => ?_⟩
  · simp only [makeRun, List.length_flatMap]
  · simp only [makeRun, List.mem_filterMap, Option.map_eq_some_iff] at h
    obtain ⟨i, -, x, hx, rfl⟩ := h
    exact ⟨x, hx, rfl⟩

theorem dryBefore_trans {a b c : Option Time} (h : dryBefore a b = true) (k : dryBefore b c = true) : dryBefore a c = true := by
  cases a <;> cases b <;> cases c <;> simp_all only [dryBefore, decide_eq_true_eq, Bool.false_eq_true]
  exact Nat.lt_trans h k

theorem mem_slotsOfCore (c : CoreId) (u : SlotId) : u ∈ slotsOfCore c ↔ u.core = c := by
  simp only [slotsOfCore, List.mem_map]
  constructor
  · rintro ⟨k, -, rfl⟩
    rfl
  · rintro rfl
    exact ⟨u.slot, List.mem_finRange _, rfl⟩

theorem dryBefore_of_not {a b c : Option Time} (h : dryBefore a b = true) (k : dryBefore c b = false) : dryBefore a c = true := by
  cases a <;> cases b <;> cases c <;>
    simp_all only [dryBefore, decide_eq_true_eq, Bool.false_eq_true, decide_eq_false_iff_not, reduceCtorEq]
  exact Nat.lt_of_lt_of_le h (Nat.not_lt.mp k)

theorem slotsOfCore_order (c : CoreId) : (slotsOfCore c).Pairwise fun u v => u.slot < v.slot := by
  simp only [slotsOfCore, List.pairwise_map]
  decide

/-- The slot that a core's READY slots give. -/
theorem bestReady_gives (s : State) (c : CoreId) :
    (∀ u, bestReady s c = some u → ComesToRun c (getSlot s) s u) ∧
    (bestReady s c = none → ∀ u, u.core = c → (getSlot s u).state ≠ .ready) := by
  let Best (done : List SlotId) (u : SlotId) : Prop := u ∈ done ∧ (getSlot s u).state = .ready ∧
    ∀ v ∈ done, (getSlot s v).state = .ready → dryBefore (slotDry s v) (slotDry s u) = false ∧
      (v.slot < u.slot → dryBefore (slotDry s u) (slotDry s v) = true)
  suffices key : ∀ (l done : List SlotId) (b : Option SlotId), (done ++ l).Pairwise (fun u v => u.slot < v.slot) →
      (∀ u, b = some u → Best done u) → (b = none → ∀ v ∈ done, (getSlot s v).state ≠ .ready) →
      let r := l.foldl (fun best t =>
        let x := getSlot s t
        if x.state = .ready then
          match best with
          | none => some t
          | some b => if dryBefore (slotDry s t) (slotDry s b) then some t else best
        else best) b
      (∀ u, r = some u → Best (done ++ l) u) ∧ (r = none → ∀ v ∈ done ++ l, (getSlot s v).state ≠ .ready) by
    obtain ⟨h1, h2⟩ := key (slotsOfCore c) [] none (slotsOfCore_order c) (fun u h => by cases h) (fun _ v h => by simp at h)
    refine ⟨fun u h => ?_, fun h u hu => h2 h u (by simpa [mem_slotsOfCore] using hu)⟩
    obtain ⟨a, b, d⟩ := h1 u h
    exact ⟨(mem_slotsOfCore c u).mp (by simpa using a), b, fun v hv => d v (by simpa [mem_slotsOfCore] using hv)⟩
  intro l
  induction l with
  | nil => exact fun done b _ h1 h2 => ⟨by simpa using h1, by simpa using h2⟩
  | cons x r ih =>
    intro done b hp h1 h2
    have irrefl : ∀ d : Option Time, dryBefore d d = false := fun d => by cases d <;> simp [dryBefore]
    have before : ∀ v ∈ done, v.slot < x.slot := fun v hv =>
      (List.pairwise_append.mp hp).2.2 v hv x (List.mem_cons_self ..)
    rw [List.foldl_cons, show done ++ x :: r = (done ++ [x]) ++ r by simp]
    refine ih (done ++ [x]) _ (by simpa using hp) ?_ ?_
    · intro u hu
      dsimp only at hu
      split at hu
      · rename_i hx
        cases b with
        | none =>
          cases hu
          refine ⟨by simp, hx, fun v hv hr => ?_⟩
          rcases List.mem_append.mp hv with e | e
          · exact absurd hr (h2 rfl v e)
          · rw [List.mem_singleton.mp e]
            exact ⟨irrefl _, fun h => absurd h (by omega)⟩
        | some b =>
          obtain ⟨a1, a2, a3⟩ := h1 b rfl
          dsimp only at hu
          split at hu
          · rename_i hlt
            cases hu
            refine ⟨by simp, hx, fun v hv hr => ?_⟩
            rcases List.mem_append.mp hv with e | e
            · refine ⟨?_, fun _ => dryBefore_of_not hlt (a3 v e hr).1⟩
              rw [Bool.eq_false_iff]
              intro h
              have := (a3 v e hr).1
              rw [dryBefore_trans h hlt] at this
              cases this
            · rw [List.mem_singleton.mp e]
              exact ⟨irrefl _, fun h => absurd h (by omega)⟩
          · rename_i hlt
            cases hu
            refine ⟨List.mem_append_left _ a1, a2, fun v hv hr => ?_⟩
            rcases List.mem_append.mp hv with e | e
            · exact a3 v e hr
            · rw [List.mem_singleton.mp e]
              exact ⟨by simpa using hlt, fun h => absurd h (by have := before _ a1; omega)⟩
      · rename_i hx
        obtain ⟨a1, a2, a3⟩ := h1 u hu
        refine ⟨List.mem_append_left _ a1, a2, fun v hv hr => ?_⟩
        rcases List.mem_append.mp hv with e | e
        · exact a3 v e hr
        · rw [List.mem_singleton.mp e] at hr
          exact absurd hr hx
    · intro hu v hv
      dsimp only at hu
      split at hu
      · cases b with
        | none => cases hu
        | some b =>
          dsimp only at hu
          split at hu <;> cases hu
      · rename_i hx
        rcases List.mem_append.mp hv with e | e
        · exact h2 hu v e
        · rw [List.mem_singleton.mp e]
          exact hx

/-- The slot that comes to run is the one that the sequencer takes. -/
theorem bestReady_of {s : State} {c : CoreId} {u : SlotId} (h : ComesToRun c (getSlot s) s u) : bestReady s c = some u := by
  obtain ⟨h1, h2, h3⟩ := h
  cases hb : bestReady s c with
  | none => exact absurd h2 ((bestReady_gives s c).2 hb u h1)
  | some v =>
    obtain ⟨g1, g2, g3⟩ := (bestReady_gives s c).1 v hb
    rcases Nat.lt_trichotomy v.slot.val u.slot.val with e | e | e
    · have := (h3 v g1 g2).2 e
      rw [(g3 u h1 h2).1] at this
      cases this
    · obtain ⟨uc, us⟩ := u
      obtain ⟨vc, vs⟩ := v
      simp only at h1 g1 e
      rw [h1, g1, Fin.ext e]
    · have := (g3 u h1 h2).2 e
      rw [(h3 v g1 g2).1] at this
      cases this

theorem runningSlot_none {s : State} {c : CoreId} (h : runningSlot s c = none) (u : SlotId) (hu : u.core = c) :
    (getSlot s u).state ≠ .running := by
  have := List.find?_eq_none.mp h u ((mem_slotsOfCore c u).mpr hu)
  simpa using this

theorem runningSlot_some {s : State} {c : CoreId} {u : SlotId} (h : runningSlot s c = some u) :
    u.core = c ∧ (getSlot s u).state = .running :=
  ⟨(mem_slotsOfCore c u).mp (List.mem_of_find?_eq_some h), by simpa using List.find?_some h⟩

/-- The slots after a core without a RUNNING slot has taken its best READY one. -/
theorem ensureRunning_gives (s : State) (c : CoreId) : SlotsRun c (getSlot s) (ensureRunning s c) := by
  unfold ensureRunning
  cases hr : runningSlot s c with
  | some u => exact ⟨fun _ => .inl rfl, fun _ => ⟨u, runningSlot_some hr⟩⟩
  | none =>
    cases hb : bestReady s c with
    | none => exact ⟨fun _ => .inl rfl, fun ⟨u, hu, e⟩ => absurd e ((bestReady_gives s c).2 hb u hu)⟩
    | some u =>
      have hm := (bestReady_gives s c).1 u hb
      dsimp only
      refine ⟨fun v => ?_, fun _ => ⟨u, hm.1, by rw [getSlot_setSlot_self]⟩⟩
      by_cases e : v = u
      · subst e
        rw [getSlot_setSlot_self]
        exact .inr ⟨hm, runningSlot_none hr, rfl⟩
      · rw [getSlot_setSlot_other _ _ e]
        exact .inl rfl

theorem slotsRun_congr {c : CoreId} {f g : SlotId → TaskSlot} {t : State} (h : SlotsRun c f t) (e : ∀ u, f u = g u) :
    SlotsRun c g t :=
  (funext e : f = g) ▸ h

theorem ensureRunning_cores (s : State) (c d : CoreId) :
    { getCore (ensureRunning s c) d with slots := [] } = { getCore s d with slots := [] } := by
  unfold ensureRunning
  split
  · rfl
  · split
    · exact getCore_setSlot ..
    · rfl

theorem mayServe_iff (s : State) (c : WorkCounter) : mayServe s c = true ↔ Serves s c := by
  unfold mayServe Serves
  cases getJob s c.job with
  | none => simp
  | some j => simp

theorem requesterUp_iff (s : State) (seam : Fin 16) (who : Requester) : requesterUp s seam who = true ↔ RequesterUp s seam who := by
  cases who <;> simp [requesterUp, RequesterUp]

theorem counterSet_of {s t : State} {seam k : Nat} {c : WorkCounter} (h : t.counters = (setCounter s seam k c).counters) :
    CounterSet seam k c s t := by
  refine ⟨by simp [getCounter, h, setCounter], fun m j e => ?_⟩
  simp only [getCounter, h, setCounter]
  exact tget_tset_other _ _ _ e

theorem slotHolds_iff (s : State) (seam : Fin 16) (k v : Nat) (u : SlotId) :
    workDone s seam k v (some u) = true ↔ LandedIn s seam k v u := by
  simp only [workDone, taskLanded, Bool.and_eq_true, beq_iff_eq, bne_iff_ne, List.all_eq_true, Bool.or_eq_true,
    Bool.not_eq_true', and_assoc]
  have e : (∀ x ∈ s.scatters, ((x.job == (getSlot s u).job && (x.node == (getSlot s u).stage && x.task == divisionTask s u)) = false ∨
      x.committed = true)) ↔ ∀ b ∈ s.scatters, b.job = (getSlot s u).job → b.node = (getSlot s u).stage →
      b.task = divisionTask s u → b.committed = true := by
    refine forall_congr' fun b => imp_congr_right fun hb => ?_
    rw [Bool.eq_false_iff]
    simp only [ne_eq, Bool.and_eq_true, beq_iff_eq]
    exact ⟨fun h h1 h2 h3 => h.resolve_left (fun n => n ⟨h1, h2, h3⟩), fun h => Classical.or_iff_not_imp_left.mpr fun n =>
      have n := Classical.not_not.mp n
      h n.1 n.2.1 n.2.2⟩
  simp only [Bool.and_assoc] at e ⊢
  rw [e]
  exact ⟨fun ⟨h1, h2, h3, h4, h5, h6, h7, h8⟩ => ⟨Fin.ext h4, h1, h2, h3, h5, ⟨h6, h7⟩, h8⟩,
    fun ⟨h4, h1, h2, h3, h5, h6, h8⟩ => ⟨h1, h2, h3, congrArg _ h4, h5, h6.1, h6.2, h8⟩⟩

/-- A slot freed. -/
theorem freeSlot_gives (s : State) (u : SlotId) :
    SlotsRun u.core (fun w => if w = u then {} else getSlot s w) (freeSlot s u) ∧
    TilesFreed u.core (some u.slot) s (freeSlot s u) ∧ Keeps (· ∈ [.cores]) s (freeSlot s u) := by
  refine ⟨?_, fun d => ?_, freeSlot_keeps (.refl s) _ (Can.all _)⟩
  · unfold freeSlot
    refine slotsRun_congr (ensureRunning_gives _ _) fun w => ?_
    by_cases e : w = u
    · subst e
      simp
    · rw [getSlot_setSlot_other _ _ e, if_neg e]
      simp only [getSlot]
      by_cases c : w.core = u.core
      · rw [c, getCore_setCore_self]
      · rw [getCore_setCore_other _ _ c]
  · unfold freeSlot
    dsimp only
    rw [ensureRunning_cores, getCore_setSlot]
    by_cases c : d = u.core
    · subst c
      rw [getCore_setCore_self, if_pos rfl]
      congr 1
    · rw [getCore_setCore_other _ _ c, if_neg c]

theorem updRun_jobs (s : State) (job node : Nat) (f : NodeRun → NodeRun) : (updRun s job node f).dep.jobs =
    s.dep.jobs.map fun j => if j.key = job then { j with nodes := tset j.nodes {} node (f (runOf j node)) } else j := rfl

theorem firstCompletion_gives (s : State) (seam : Fin 16) (k v : Nat) (c : WorkCounter) (slot : Option SlotId) :
    let t := firstCompletion s seam k v c slot
    CounterSet seam.val k { c with bits := v :: c.bits, given := c.given.filter fun e => e.1 != v } s t ∧
    JobChanged c.job (fun j => { j with nodes := tset j.nodes {} c.node { runOf j c.node with
      doneTasks := (runOf j c.node).doneTasks + 1
      lastDone := max (runOf j c.node).lastDone s.clk.now
      counts := mergeCounts (runOf j c.node).counts (doneCounts s seam k v slot)
      discardMax := maxWord (runOf j c.node).discardMax ((slot.map fun u => (getSlot s u).discardMax).getD 0) } }) s t ∧
    Keeps (· ∈ [.stages, .jobs, .counters]) s t := by
  intro t
  have ht : ∃ u, Keeps (· ∈ [.stages]) u t ∧ u = updRun (setCounter s seam.val k
      { c with bits := v :: c.bits, given := c.given.filter fun e => e.1 != v }) c.job c.node fun r =>
        { r with
          doneTasks := r.doneTasks + 1
          lastDone := max r.lastDone s.clk.now
          counts := mergeCounts r.counts (taskTotals s seam k v slot).1
          discardMax := maxWord r.discardMax (taskTotals s seam k v slot).2.2 } := by
    refine ⟨_, ?_, rfl⟩
    simp only [t, firstCompletion]
    split
    · exact setStage_keeps (.refl _) _ _ _ (Can.all _)
    · exact .refl _
  obtain ⟨u, ku, rfl⟩ := ht
  refine ⟨counterSet_of (ku.field .counters (by decide)), (ku.field .jobs (by decide)).trans ?_, ?_⟩
  · have e : (taskTotals s seam k v slot).1 = doneCounts s seam k v slot ∧
        (taskTotals s seam k v slot).2.2 = (slot.map fun u => (getSlot s u).discardMax).getD 0 := by
      cases slot with
      | some u => exact ⟨rfl, rfl⟩
      | none =>
        simp only [taskTotals, doneCounts]
        cases finishedGroup s seam k v <;> exact ⟨rfl, rfl⟩
    rw [updRun_jobs, e.1, e.2]
    rfl
  · have can := Can.all [.stages, .jobs, .counters]
    exact Keeps.trans (updRun_keeps (setCounter_keeps (.refl s) ..) ..) ku.mono

theorem dupCompletion_fromRegs (s : State) (seam k : Nat) (c : WorkCounter) :
    Keeps (· ∈ [.jobs]) (raise (count s (wcRegBase seam k) Ctr.WC_DUP_CNT 1) (wcRegBase seam k) Flag.wc_DUP)
      (dupCompletion s seam k c) := by
    have can := Can.all [.jobs]
    unfold dupCompletion
    exact updRun_keeps (updJob_keeps (.refl _) ..) ..

theorem dupCompletion_regs (s : State) (seam k : Nat) (c : WorkCounter) :
    let t := dupCompletion s seam k c
    RegsAs (raise (count s (wcRegBase seam k) Ctr.WC_DUP_CNT 1) (wcRegBase seam k) Flag.wc_DUP) t := (dupCompletion_fromRegs s seam k c).field .regs (by decide)

theorem dupCompletion_jobs (s : State) (seam k : Nat) (c : WorkCounter) :
    let t := dupCompletion s seam k c
    JobChanged c.job (fun j => { j with
      counts := addCount j.counts 5 1
      nodes := tset j.nodes {} c.node { runOf j c.node with dups := (runOf j c.node).dups + 1 } }) s t := by
  unfold JobChanged dupCompletion
  intro t
  simp only [t]
  generalize hu : raise (count s (wcRegBase seam k) Ctr.WC_DUP_CNT 1) (wcRegBase seam k) Flag.wc_DUP = u
  have hd : u.dep.jobs = s.dep.jobs := by rw [← hu, raise_dep, count_dep]
  simp only [updRun_jobs, updJob, List.map_map, hd]
  refine List.map_congr_left fun j _ => ?_
  by_cases h : j.key = c.job
  · simp only [Function.comp, h, if_true, runOf]
  · simp only [Function.comp, h, if_false]

theorem dupCompletion_gives (s : State) (seam k : Nat) (c : WorkCounter) :
    let t := dupCompletion s seam k c
    RegsAs (raise (count s (wcRegBase seam k) Ctr.WC_DUP_CNT 1) (wcRegBase seam k) Flag.wc_DUP) t ∧
    JobChanged c.job (fun j => { j with
      counts := addCount j.counts 5 1
      nodes := tset j.nodes {} c.node { runOf j c.node with dups := (runOf j c.node).dups + 1 } }) s t ∧
    Keeps (· ∈ [.regs, .jobs]) s t :=
  ⟨dupCompletion_regs s seam k c, dupCompletion_jobs s seam k c, dupCompletion_keeps (.refl s) _ _ _ (Can.all _)⟩

theorem mapIdx_filterMap {α β : Type} (l : List α) (f : Nat → α → β) :
    (List.range l.length).filterMap (fun i => l[i]?.map (f i)) = l.mapIdx f := by
  have : ∀ m, m ≤ l.length → (List.range m).filterMap (fun i => l[i]?.map (f i)) = (l.mapIdx f).take m := by
    intro m
    induction m with
    | zero => intro; simp
    | succ m ih =>
      intro hm
      rw [List.range_succ, List.filterMap_append, ih (by omega), List.take_add_one]
      simp [List.getElem?_eq_getElem (show m < l.length by omega)]
  rw [this _ (Nat.le_refl _), List.take_of_length_le (by simp)]

theorem markDone_eq (x : TaskSlot) (l : List Nat) : markDone x l = withDone l x := by
  simp only [markDone, withDone, mapIdx_filterMap]

theorem getCore_eq {c d : CoreState} (h1 : { c with slots := [] } = ({ d with slots := [] } : CoreState)) (h2 : c.slots = d.slots) : c = d := by
  cases c; cases d; simp_all

theorem tilesFreed_of {c : CoreId} {s t : State}
    (h : ∀ d, { getCore t d with slots := [] } = ({ getCore s d with slots := [] } : CoreState)) : TilesFreed c none s t := by
  intro d
  have e := h d
  rw [CoreState.mk.injEq] at e
  simp only at e
  have : (getCore s d).tiles.filter (fun v => some v.slot != none) = (getCore s d).tiles :=
    List.filter_eq_self.mpr fun v _ => rfl
  rw [this, ite_self]
  exact h d

/-- The states of a core's tasks brought up to date. -/
theorem refreshSlots_gives (s : State) (c : CoreId) :
    (∀ u, getSlot (refreshSlots s c) u = freshSlots s c u) ∧
    (∀ d, { getCore (refreshSlots s c) d with slots := [] } = { getCore s d with slots := [] }) ∧
    Keeps (· ∈ [.cores]) s (refreshSlots s c) := by
  refine ⟨?_, ?_, refreshSlots_keeps (.refl s) _ (Can.all _)⟩
  · suffices key : ∀ (l : List SlotId), l.Nodup → ∀ (u : State) (w : SlotId),
        getSlot (l.foldl (fun s t =>
          let x := getSlot s t
          match x.state with
          | .ready | .waiting => setSlot s t { x with state := idleState x }
          | _ => s) u) w = if w ∈ l then freshState (getSlot u w) else getSlot u w by
      intro u
      have := key (slotsOfCore c) ((slotsOfCore_order c).imp fun h e => by subst e; exact absurd h (Nat.lt_irrefl _)) s u
      refine Eq.trans this ?_
      simp only [mem_slotsOfCore, freshSlots]
    intro l
    induction l with
    | nil => intro _ u w; simp
    | cons x r ih =>
      intro hn u w
      obtain ⟨hx, hr⟩ := List.nodup_cons.mp hn
      have step : ∀ v, getSlot (match (getSlot u x).state with
          | .ready | .waiting => setSlot u x { getSlot u x with state := idleState (getSlot u x) }
          | _ => u) v = if v = x then freshState (getSlot u x) else getSlot u v := by
        intro v
        by_cases e : v = x
        · subst e
          rw [if_pos rfl]
          unfold freshState
          cases h : (getSlot u v).state <;> simp
        · rw [if_neg e]
          split
          · exact getSlot_setSlot_other _ _ e
          · exact getSlot_setSlot_other _ _ e
          · rfl
      rw [List.foldl_cons, ih hr]
      dsimp only
      rw [step]
      by_cases e : w = x
      · subst e
        rw [if_neg hx, if_pos rfl, if_pos (List.mem_cons_self ..)]
      · rw [if_neg e]
        simp only [List.mem_cons, e, false_or]
  · suffices key : ∀ (l : List SlotId) (u : State) (d : CoreId),
        ({ getCore (l.foldl (fun s t =>
          let x := getSlot s t
          match x.state with
          | .ready | .waiting => setSlot s t { x with state := idleState x }
          | _ => s) u) d with slots := [] } : CoreState) = { getCore u d with slots := [] } by
      exact key (slotsOfCore c) s
    intro l
    induction l with
    | nil => intro u d; rfl
    | cons x r ih =>
      intro u d
      rw [List.foldl_cons, ih]
      dsimp only
      split
      · exact getCore_setSlot ..
      · exact getCore_setSlot ..
      · rfl

/-- A field replaced in a register word (R216). -/
theorem setMaxOut_eq (s : State) (q : QueueId) (n : Nat) (h : n < 128) : setMaxOut s q n =
    setRawReg s (queueRegBase q) (BitVec.ofNat 32 ((rawReg s (queueRegBase q)).toNat / 128 * 128 + n)) := by
  simp only [setMaxOut, setRawField, bitField]
  congr 2
  have : n % 2 ^ (6 + 1 - 0) * 2 ^ 0 = n := by
    simp only [Nat.pow_zero, Nat.mul_one]
    exact Nat.mod_eq_of_lt h
  rw [this]
  simp only [Nat.pow_zero, Nat.div_one, Nat.mul_one]
  have := Nat.div_add_mod (rawReg s (queueRegBase q)).toNat 128
  have e : (2 : Nat) ^ (6 + 1 - 0) = 128 := rfl
  rw [e]
  omega

theorem runningSlot_of {s : State} {c : CoreId} {u : SlotId} (hc : u.core = c) (hr : (getSlot s u).state = .running)
    (ho : ∀ v, v.core = c → (getSlot s v).state = .running → v = u) : runningSlot s c = some u := by
  cases h : runningSlot s c with
  | none => exact absurd hr (runningSlot_none h u hc)
  | some v => rw [ho v (runningSlot_some h).1 (runningSlot_some h).2]

theorem dryGap_iff (s : State) (a b : Option Time) : dryGap s a b = true ↔ DryGap s a b := by
  unfold dryGap DryGap
  cases a <;> cases b <;> simp

theorem count_regs_congr {a b : State} (h : a.regs = b.regs) (x o n : Nat) : (count a x o n).regs = (count b x o n).regs := by
  simp only [count, setRawReg, rawReg, h]

theorem raise_regs_congr {a b : State} (h : a.regs = b.regs) (x : Nat) (f : Nat × Nat) : (raise a x f).regs = (raise b x f).regs := by
  simp only [raise, setRawReg, rawReg, h]

/-- The switch of a core from one slot to another. -/
theorem switchTo_gives (s : State) (c : CoreId) (old new : SlotId) (dry : Bool) (hn : new ≠ old) :
    Switched (getSlot s) old new (switchTo s c old new dry) ∧
    (∀ d, { getCore (switchTo s c old new dry) d with slots := [] } = ({ getCore s d with slots := [] } : CoreState)) ∧
    (let u := raise (count s (coreRegBase c) Ctr.CORE_SWITCH_CNT 1) (coreRegBase c) Flag.core_SWITCH
     RegsAs (if dry then raise (count u (coreRegBase c) Ctr.CORE_PREEMPT_CNT 1) (coreRegBase c) Flag.core_PREEMPT else u)
      (switchTo s c old new dry)) := by
  let s1 := setSlot s old { getSlot s old with state := idleState (getSlot s old) }
  let s2 := setSlot s1 new { getSlot s1 new with state := .running }
  have h2 : (switchTo s c old new dry).cores = s2.cores := by
    cases dry <;> simp only [switchTo, Bool.false_eq_true, if_false, if_true, raise_cores, count_cores, s1, s2]
  have h3 : s2.regs = s.regs := by
    simp only [s1, s2, setSlot_regs]
  refine ⟨fun u => ?_, fun d => ?_, ?_⟩
  · rw [getSlot_congr h2]
    by_cases e : u = new
    · subst e
      rw [getSlot_setSlot_self, if_pos rfl, getSlot_setSlot_other _ _ hn]
    · rw [getSlot_setSlot_other _ _ e, if_neg e]
      by_cases e2 : u = old
      · subst e2
        rw [getSlot_setSlot_self, if_pos rfl]
      · rw [getSlot_setSlot_other _ _ e2, if_neg e2]
  · rw [getCore_congr h2, getCore_setSlot, getCore_setSlot]
  · have hu := raise_regs_congr (count_regs_congr h3 (coreRegBase c) Ctr.CORE_SWITCH_CNT 1) (coreRegBase c) Flag.core_SWITCH
    unfold RegsAs switchTo
    cases dry
    · simp only [Bool.false_eq_true, if_false]
      exact hu
    · simp only [if_true]
      exact raise_regs_congr (count_regs_congr hu _ _ _) _ _

/-! The reach of an abort -/

theorem repeat_succ {α : Type} (f : α → α) (n : Nat) (a : α) : Nat.repeat f (n + 1) a = f (Nat.repeat f n a) := rfl

theorem growAbort_tasks (s : State) (p : List SlotId × List (Nat × Nat)) (w : SlotId) : w ∈ (growAbort s p).1 ↔
    w ∈ residentSlots s ∧ (w ∈ p.1 ∨ ∃ r ∈ (growAbort s p).2, atEnd s r w = true) := by
  simp only [growAbort, List.mem_filter, Bool.or_eq_true, List.contains_iff_mem, List.any_eq_true, List.mem_eraseDups]

theorem growAbort_chutes (s : State) (p : List SlotId × List (Nat × Nat)) (r : Nat × Nat) : r ∈ (growAbort s p).2 ↔
    r ∈ allChutes s ∧ (r ∈ p.2 ∨ ∃ w ∈ p.1, atEnd s r w = true) := by
  simp only [growAbort, List.mem_filter, Bool.or_eq_true, List.contains_iff_mem, List.any_eq_true, List.mem_eraseDups]

theorem filter_length_eq {α : Type} {p q : α → Bool} (l : List α) (h : ∀ x ∈ l, p x = true → q x = true)
    (e : (l.filter p).length = (l.filter q).length) : ∀ x ∈ l, q x = true → p x = true := by
  induction l with
  | nil => intro x hx; cases hx
  | cons a r ih =>
    have hr := fun x hx => h x (List.mem_cons_of_mem _ hx)
    have le : (r.filter p).length ≤ (r.filter q).length := by
      rw [← List.countP_eq_length_filter, ← List.countP_eq_length_filter]
      exact List.countP_mono_left hr
    have ha := h a (List.mem_cons_self ..)
    intro x hx hq
    rw [List.filter_cons, List.filter_cons] at e
    by_cases p1 : p a = true
    · rw [if_pos p1, if_pos (ha p1)] at e
      rcases List.mem_cons.mp hx with k | k
      · exact k ▸ p1
      · exact ih hr (by simpa using e) x k hq
    · by_cases q1 : q a = true
      · rw [if_neg p1, if_pos q1] at e
        simp only [List.length_cons] at e
        omega
      · rw [if_neg p1, if_neg q1] at e
        rcases List.mem_cons.mp hx with k | k
        · exact absurd (k ▸ hq) q1
        · exact ih hr e x k hq

/-- The tasks that the rounds of an abort reach are those that stand on a chain of chutes from its slot. -/
theorem abortReach_iff (s : State) (u : SlotId) (hu : u ∈ residentSlots s) (v : SlotId) :
    v ∈ (abortReach s [u] []).1 ↔ Reached s u v := by
  let P (n : Nat) := Nat.repeat (growAbort s) n ([u], [])
  have sound : ∀ n, (∀ w ∈ (P n).1, Reached s u w) ∧
      ∀ r ∈ (P n).2, r ∈ allChutes s ∧ ∃ w, Reached s u w ∧ atEnd s r w = true := by
    intro n
    induction n with
    | zero => exact ⟨fun w h => by rw [List.mem_singleton.mp h]; exact .self, fun r h => by cases h⟩
    | succ n ih =>
      have hc : ∀ r ∈ (P (n + 1)).2, r ∈ allChutes s ∧ ∃ w, Reached s u w ∧ atEnd s r w = true := by
        intro r hr
        obtain ⟨h1, h2⟩ := (growAbort_chutes ..).mp hr
        rcases h2 with h2 | ⟨w, h2, h3⟩
        · exact ih.2 r h2
        · exact ⟨h1, w, ih.1 w h2, h3⟩
      refine ⟨fun w hw => ?_, hc⟩
      obtain ⟨h1, h2⟩ := (growAbort_tasks ..).mp hw
      rcases h2 with h2 | ⟨r, h2, h3⟩
      · exact ih.1 w h2
      · obtain ⟨k1, x, k2, k3⟩ := hc r h2
        exact .chute r k2 k1 k3 h1 h3
  have mono : ∀ n w, w ∈ residentSlots s → w ∈ (P n).1 → w ∈ (P (n + 1)).1 := fun n w h1 h2 =>
    (growAbort_tasks ..).mpr ⟨h1, .inl h2⟩
  have res : ∀ n w, w ∈ (P n).1 → w ∈ residentSlots s := by
    intro n w h
    cases n with
    | zero => rw [List.mem_singleton.mp h]; exact hu
    | succ n => exact ((growAbort_tasks ..).mp h).1
  have stable : ∀ n, (∀ w, w ∈ (P (n + 1)).1 → w ∈ (P n).1) → ∀ w, w ∈ (P (n + 2)).1 → w ∈ (P (n + 1)).1 := by
    intro n h w hw
    obtain ⟨h1, h2⟩ := (growAbort_tasks ..).mp hw
    rcases h2 with h2 | ⟨r, h2, h3⟩
    · exact h2
    · obtain ⟨k1, k2⟩ := (growAbort_chutes ..).mp h2
      rcases k2 with k2 | ⟨x, k2, k3⟩
      · exact (growAbort_tasks ..).mpr ⟨h1, .inr ⟨r, k2, h3⟩⟩
      · exact (growAbort_tasks ..).mpr ⟨h1, .inr ⟨r, (growAbort_chutes ..).mpr ⟨k1, .inr ⟨x, h x k2, k3⟩⟩, h3⟩⟩
  let len (n : Nat) := ((residentSlots s).filter fun w => (P n).1.contains w).length
  have le : ∀ n, len n ≤ len (n + 1) := by
    intro n
    show ((residentSlots s).filter _).length ≤ ((residentSlots s).filter _).length
    rw [← List.countP_eq_length_filter, ← List.countP_eq_length_filter]
    refine List.countP_mono_left fun w h k => ?_
    rw [List.contains_iff_mem] at k ⊢
    exact mono n w h k
  have bound : ∀ n, len n ≤ (residentSlots s).length := fun n => List.length_filter_le ..
  have fixed : ∃ k, k ≤ (residentSlots s).length ∧ len k = len (k + 1) := by
    refine Classical.byContradiction fun no => ?_
    have grow : ∀ k, k ≤ (residentSlots s).length + 1 → k ≤ len k := by
      intro k
      induction k with
      | zero => intro _; exact Nat.zero_le _
      | succ k ih =>
        intro hk
        have h1 := ih (by omega)
        have h2 := le k
        have h3 : len k ≠ len (k + 1) := fun e => no ⟨k, by omega, e⟩
        omega
    have := grow ((residentSlots s).length + 1) (Nat.le_refl _)
    have := bound ((residentSlots s).length + 1)
    omega
  obtain ⟨k, hk, he⟩ := fixed
  have st0 : ∀ w, w ∈ (P (k + 1)).1 → w ∈ (P k).1 := by
    intro w hw
    have := filter_length_eq (residentSlots s) (p := fun w => (P k).1.contains w) (q := fun w => (P (k + 1)).1.contains w)
      (fun w h e => by rw [List.contains_iff_mem] at e ⊢; exact mono k w h e) he w (res _ w hw)
      (by rw [List.contains_iff_mem]; exact hw)
    rwa [List.contains_iff_mem] at this
  have st : ∀ d w, w ∈ (P (k + d + 1)).1 → w ∈ (P (k + d)).1 := by
    intro d
    induction d with
    | zero => exact st0
    | succ d ih => exact stable (k + d) ih
  have last : ∀ w, w ∈ (P ((residentSlots s).length + 2)).1 → w ∈ (P ((residentSlots s).length + 1)).1 := by
    have := st ((residentSlots s).length + 1 - k)
    rwa [show k + ((residentSlots s).length + 1 - k) = (residentSlots s).length + 1 by omega] at this
  show v ∈ (P ((residentSlots s).length + 1)).1 ↔ _
  refine ⟨(sound _).1 v, fun h => ?_⟩
  induction h with
  | self =>
    have : ∀ n, u ∈ (P n).1 := by
      intro n
      induction n with
      | zero => exact List.mem_singleton.mpr rfl
      | succ n ih => exact mono n u hu ih
    exact this _
  | chute r _ h2 h3 h4 h5 ih =>
    exact last _ ((growAbort_tasks ..).mpr ⟨h4, .inr ⟨r, (growAbort_chutes ..).mpr ⟨h2, .inr ⟨_, ih, h3⟩⟩, h5⟩⟩)

theorem mem_residentSlots {s : State} {u : SlotId} (h : (getSlot s u).state ≠ .empty) : u ∈ residentSlots s := by
  have hc := tget_mem s.cores ({} : CoreState) (coreKey u.core)
  have hs := tget_mem (getCore s u.core).slots ({} : TaskSlot) u.slot.val
  rcases hs with hs | hs
  · rcases hc with hc | hc
    · simp only [residentSlots, List.mem_flatMap, List.mem_filterMap]
      refine ⟨_, hc, _, hs, ?_⟩
      have : ¬ (tget (getCore s u.core).slots {} u.slot.val).state = .empty := h
      rw [if_neg this]
      have e1 : coreOfKey (coreKey u.core) = u.core := by
        obtain ⟨⟨a, ha⟩, ⟨b, hb⟩⟩ := u.core
        simp only [coreOfKey, coreKey, CoreId.mk.injEq, Fin.ofNat, Fin.mk.injEq]
        omega
      rw [e1]
      have e2 : Fin.ofNat 4 u.slot.val = u.slot := Fin.ext (Nat.mod_eq_of_lt u.slot.isLt)
      rw [e2]
    · rw [getCore] at hs
      rw [hc] at hs
      cases hs
  · refine absurd ?_ h
    rw [getSlot, hs]

/-! One task aborted -/

theorem slotQueue_inj {u v : SlotId} (h : slotQueue u = slotQueue v) : u = v := by
  obtain ⟨⟨⟨a, ha⟩, ⟨b, hb⟩⟩, ⟨c, hc⟩⟩ := u
  obtain ⟨⟨⟨d, hd⟩, ⟨e, he⟩⟩, ⟨f, hf⟩⟩ := v
  simp only [slotQueue, QueueId.mk.injEq, Fin.ofNat, Fin.mk.injEq] at h
  rw [Nat.mod_eq_of_lt (show 4 * (b / 8) + c < 18 by omega), Nat.mod_eq_of_lt (show 4 * (e / 8) + f < 18 by omega)] at h
  simp only [SlotId.mk.injEq, CoreId.mk.injEq, Fin.mk.injEq]
  omega

theorem coreRegBase_pos (c : CoreId) : 0x01000000 ≤ coreRegBase c := by
  unfold coreRegBase seamRegBase
  omega

/-- Held stays held. -/
theorem holdJob_held (s : State) (key cause : Nat) :
    (∀ j, getJob (holdJob s key cause) key = some j → j.state = .held) ∧
    (∀ k, (∀ j, getJob s k = some j → j.state = .held) → ∀ j, getJob (holdJob s key cause) k = some j → j.state = .held) ∧
    (∀ j, getJob s key = some j → j.state ≠ .held →
      (holdJob s key cause).dep.jobs = s.dep.jobs.map fun j => if j.key = key then { j with state := .held, holdCause := cause } else j) := by
  have find : ∀ (l : List Job) (k : Nat), (l.map fun j : Job =>
        if j.key = key then { j with state := .held, holdCause := cause } else j).find? (fun j => j.key == k) =
      (l.find? fun j => j.key == k).map fun j => if j.key = key then { j with state := .held, holdCause := cause } else j := by
    intro l k
    rw [List.find?_map]
    congr 1
    congr 1
    funext j
    simp only [Function.comp]
    split <;> rfl
  have get : ∀ k, getJob (holdJob s key cause) k = getJob s k ∨
      getJob (holdJob s key cause) k = (getJob s k).map fun j => if j.key = key then { j with state := .held, holdCause := cause } else j := by
    intro k
    unfold holdJob
    split
    · split
      · exact .inl rfl
      · right
        rw [getJob_congr (s := updJob s key fun j => { j with state := .held, holdCause := cause }) (by rw [raise_dep, count_dep])]
        exact find _ _
    · exact .inl rfl
  refine ⟨fun j h => ?_, fun k hk j h => ?_, fun j hj hs => ?_⟩
  · unfold holdJob at h
    split at h
    · rename_i x hx
      split at h
      · rw [hx] at h
        cases h
        assumption
      · rw [getJob_congr (s := updJob s key fun j => { j with state := .held, holdCause := cause }) (by rw [raise_dep, count_dep])] at h
        have : getJob (updJob s key fun j => { j with state := .held, holdCause := cause }) key = _ := find s.dep.jobs key
        rw [this, show s.dep.jobs.find? (fun j => j.key == key) = some x from hx] at h
        simp only [Option.map_some, Option.some.injEq] at h
        rw [← h, if_pos (by simpa using List.find?_some hx)]
    · rw [‹getJob s key = none›] at h
      cases h
  · rcases get k with e | e
    · exact hk j (e ▸ h)
    · rw [e, Option.map_eq_some_iff] at h
      obtain ⟨x, h1, rfl⟩ := h
      split
      · rfl
      · exact hk x h1
  · unfold holdJob
    rw [hj]
    dsimp only
    rw [if_neg hs, raise_dep, count_dep]
    rfl

theorem logFault_dep (s : State) (a b c d e : Nat) : (logFault s a b c d e).dep = s.dep := by
  unfold logFault
  extract_lets s1 s2 s3
  have : s3.dep = s.dep := rfl
  split
  · rw [count_dep, this]
  · exact this

/-- What is noted against an aborted task of a work counter. -/
theorem noteIndexAbort_gives (s : State) (seam counter index job unit sub : Nat) :
    let t := noteIndexAbort s seam counter index job unit sub
    let e : Rerun := ⟨seam, counter, index⟩
    let n := abortsOf s job (counterKey seam counter) index + 1
    (e ∈ t.dep.reruns ∨ ∀ j, getJob t job = some j → j.state = .held) ∧
    (∀ r ∈ s.dep.reruns, r ∈ t.dep.reruns) ∧
    (∀ k, (∀ j, getJob s k = some j → j.state = .held) → ∀ j, getJob t k = some j → j.state = .held) ∧
    (n < 16 → t.dep.reruns = s.dep.reruns ++ [e] ∧
      JobChanged job (fun j => { j with counts := addCount j.counts 17 1 }) s t) ∧
    (16 ≤ n → t.dep.reruns = s.dep.reruns ∧
      ∀ j, getJob s job = some j → j.state ≠ .held →
        JobChanged job (fun j => { j with counts := addCount j.counts 17 1, state := .held, holdCause := 2 }) s t) := by
  intro t e n
  let s1 := count s depBase Ctr.DEP_ABORT_CNT 1
  have d1 : s1.dep = s.dep := by rw [count_dep]
  let f := fun j : Job => { j with counts := tupd j.counts 0 17 (· + 1) }
  let s2 := updJob s1 job f
  have j2 : s2.dep.jobs = s.dep.jobs.map fun j => if j.key = job then f j else j := by
    show s1.dep.jobs.map _ = _
    rw [d1]
  have r2 : s2.dep.reruns = s.dep.reruns := by show s1.dep.reruns = _; rw [d1]
  have find : ∀ k, (s.dep.jobs.map fun j => if j.key = job then f j else j).find? (fun j => j.key == k) =
      (s.dep.jobs.find? fun j => j.key == k).map fun j => if j.key = job then f j else j := by
    intro k
    rw [List.find?_map]
    congr 1
    congr 1
    funext j
    simp only [Function.comp]
    split <;> rfl
  have held2 : ∀ k, (∀ j, getJob s k = some j → j.state = .held) → ∀ j, getJob s2 k = some j → j.state = .held := by
    intro k hk j h
    rw [getJob, j2, find, Option.map_eq_some_iff] at h
    obtain ⟨x, h1, rfl⟩ := h
    have := hk x h1
    split <;> exact this
  by_cases hn : 16 ≤ n
  · obtain ⟨s3, ht, hj3, hr3⟩ : ∃ s3, t = holdJob s3 job 2 ∧ s3.dep.jobs = s2.dep.jobs ∧ s3.dep.reruns = s.dep.reruns := by
      let counts := (job, counterKey seam counter, index, n) ::
            s2.dep.abortCounts.filter fun a => !(a.1 == job && a.2.1 == counterKey seam counter && a.2.2.1 == index)
      let s4 : State := { s2 with dep := { s2.dep with abortCounts := counts, rerunning := s2.dep.rerunning.filter (· != e) } }
      have hj4 : s4.dep.jobs = s2.dep.jobs := rfl
      have hr4 : s4.dep.reruns = s2.dep.reruns := rfl
      refine ⟨logFault (raise s4 depBase Flag.dep_ABORT_LIMIT) 2 7 seam unit sub, if_pos hn, ?_, ?_⟩
      · rw [logFault_dep, raise_dep]
      · rw [logFault_dep, raise_dep, hr4, r2]
    have kr : t.dep.reruns = s.dep.reruns := by
      rw [ht, ← hr3]
      have := (holdJob_keeps (P := (· ∈ [.regs, .jobs])) (.refl s3) job 2 (Can.sub (Can.all _) (by decide))).field .dep (by decide)
      simp only [Part.same] at this
      have := congrArg Deputy.reruns this
      dsimp only at this
      exact this
    obtain ⟨h1, h2, h3⟩ := holdJob_held s3 job 2
    rw [← ht] at h1 h2 h3
    have g3 : ∀ k, getJob s3 k = getJob s2 k := fun k => getJob_congr hj3 k
    refine ⟨.inr h1, fun r h => kr ▸ h, fun k hk => h2 k fun j e => held2 k hk j (g3 k ▸ e), fun h => absurd h (by omega),
      fun _ => ⟨kr, fun j hj hs => ?_⟩⟩
    have hj3' : getJob s3 job = some (f j) := by
      rw [g3, getJob, j2, find, show s.dep.jobs.find? (fun x => x.key == job) = some j from hj]
      simp only [Option.map_some]
      rw [if_pos (by simpa using List.find?_some hj)]
    rw [JobChanged, h3 _ hj3' hs, hj3, j2, List.map_map]
    refine List.map_congr_left fun x _ => ?_
    by_cases c : x.key = job
    · simp only [Function.comp, if_pos c]
      rw [if_pos (show (f x).key = job from c)]
      rfl
    · simp only [Function.comp, if_neg c]
  · have ht : t.dep.reruns = s.dep.reruns ++ [e] ∧ t.dep.jobs = s2.dep.jobs := by
      have : t = { s2 with dep := { s2.dep with
          abortCounts := (job, counterKey seam counter, index, n) ::
            s2.dep.abortCounts.filter fun a => !(a.1 == job && a.2.1 == counterKey seam counter && a.2.2.1 == index)
          rerunning := s2.dep.rerunning.filter (· != e)
          reruns := s2.dep.reruns ++ [e] } } := if_neg hn
      rw [this]
      exact ⟨by rw [← r2], rfl⟩
    refine ⟨.inl (by rw [ht.1]; exact List.mem_append_right _ (List.mem_singleton.mpr rfl)),
      fun r h => by rw [ht.1]; exact List.mem_append_left _ h, fun k hk j h => held2 k hk j (by rwa [← getJob_congr ht.2]),
      fun _ => ⟨ht.1, ?_⟩, fun h => absurd h hn⟩
    rw [JobChanged, ht.2, j2]
    rfl

/-- What is noted against an aborted task. -/
theorem noteAbort_gives (s : State) (u : SlotId) :
    let t := noteAbort s u
    let e : Rerun := ⟨u.core.seam.val, (getSlot s u).counter, (getSlot s u).index⟩
    (e ∈ t.dep.reruns ∨ ∀ j, getJob t (getSlot s u).job = some j → j.state = .held) ∧
    (∀ r ∈ s.dep.reruns, r ∈ t.dep.reruns) ∧
    (∀ k, (∀ j, getJob s k = some j → j.state = .held) → ∀ j, getJob t k = some j → j.state = .held) ∧
    (abortCount s u < 16 → t.dep.reruns = s.dep.reruns ++ [e] ∧
      JobChanged (getSlot s u).job (fun j => { j with counts := addCount j.counts 17 1 }) s t) ∧
    (16 ≤ abortCount s u → t.dep.reruns = s.dep.reruns ∧
      ∀ j, getJob s (getSlot s u).job = some j → j.state ≠ .held →
        JobChanged (getSlot s u).job (fun j => { j with
          counts := addCount j.counts 17 1, state := .held, holdCause := 2 }) s t) := by
  have d1 : (raise (count s (coreRegBase u.core) Ctr.CORE_ABORT_CNT 1) (coreRegBase u.core) Flag.core_ABORT).dep = s.dep := by
    rw [raise_dep, count_dep]
  have g : ∀ k, getJob (raise (count s (coreRegBase u.core) Ctr.CORE_ABORT_CNT 1) (coreRegBase u.core) Flag.core_ABORT) k =
      getJob s k := fun k => by simp only [getJob, d1]
  have := noteIndexAbort_gives (raise (count s (coreRegBase u.core) Ctr.CORE_ABORT_CNT 1) (coreRegBase u.core) Flag.core_ABORT)
    u.core.seam.val (getSlot s u).counter (getSlot s u).index (getSlot s u).job u.core.core.val u.slot.val
  simp only [g, d1, abortsOf, JobChanged] at this
  exact this

theorem tilesOf_congr {s t : State} (h : t.cores = s.cores) (u : SlotId) : tilesOf t u = tilesOf s u := by
  simp only [tilesOf, getCore_congr h]

/-- The state in which a task's slot is about to be cleared. -/
def beforeClear (s : State) (u : SlotId) : State :=
  noteAbort (cancelQueue (dropCharges (dropScatter s u) u) (slotQueue u)) u

theorem beforeClear_gives (s : State) (u : SlotId) :
    Keeps (· ∈ [.regs, .jobs, .dep, .arrays, .hoists, .scatters]) s (beforeClear s u) ∧
    (getQueue (beforeClear s u) (slotQueue u)).ready = [] ∧
    (getQueue (beforeClear s u) (slotQueue u)).issued = (getQueue s (slotQueue u)).issued.filter (·.write) ∧
    ∀ q, q ≠ slotQueue u → getQueue (beforeClear s u) q = getQueue s q := by
  have can := Can.all [.regs, .jobs, .dep, .arrays, .hoists, .scatters]
  have k1 : Keeps (· ∈ [.arrays, .scatters]) s (dropCharges (dropScatter s u) u) := by
    have can := Can.all [.arrays, .scatters]
    exact dropCharges_keeps (dropScatter_keeps (.refl s) ..) ..
  have h1 : (dropCharges (dropScatter s u) u).hoists = s.hoists := k1.field .hoists (by decide)
  generalize hd : dropCharges (dropScatter s u) u = s1 at *
  have k2 : Keeps (· ∈ [.regs, .hoists]) s1 (cancelQueue s1 (slotQueue u)) := cancelQueue_keeps (.refl _) _ (Can.all _)
  let x := getQueue s1 (slotQueue u)
  have hq : (cancelQueue s1 (slotQueue u)).hoists =
      (setQueue s1 (slotQueue u) { x with ready := [], issued := x.issued.filter (·.write), halted := false }).hoists := by
    simp only [cancelQueue, countDiscard]
    split
    · rfl
    · rw [raise_hoists, count_hoists]
  have k3 : Keeps (· ∈ [.regs, .jobs, .dep]) (cancelQueue s1 (slotQueue u)) (beforeClear s u) := by
    have can := Can.all [.regs, .jobs, .dep]
    have := noteAbort_keeps (P := (· ∈ [.regs, .jobs, .dep])) (.refl (cancelQueue s1 (slotQueue u))) u
    simpa only [beforeClear, hd] using this
  have h3 : (beforeClear s u).hoists = _ := (k3.field .hoists (by decide)).trans hq
  refine ⟨(k1.mono.trans k2.mono).trans k3.mono, ?_, ?_, fun q hne => ?_⟩
  · rw [getQueue_congr h3, getQueue_setQueue_self]
  · rw [getQueue_congr h3, getQueue_setQueue_self]
    simp only [x, getQueue_congr h1]
  · rw [getQueue_congr h3, getQueue_setQueue_other _ _ hne, getQueue_congr h1]

theorem rawReg_holdJob (s : State) (key cause a : Nat) (h1 : a ≠ depBase + Ctr.DEP_HELD_CNT) (h2 : a ≠ depBase + Flag.dep_HELD.1) :
    rawReg (holdJob s key cause) a = rawReg s a := by
  unfold holdJob
  split
  · split
    · rfl
    · rw [rawReg_raise_other _ h2, rawReg_count_other _ h1]
      rfl
  · rfl

theorem rawReg_logFault (s : State) (level seam core unit a : Nat) (h : a < depBase + 0x38 ∨ depBase + 0x40 < a) :
    rawReg (logFault s 2 level seam core unit) a = rawReg s a := by
  unfold logFault
  extract_lets s1 s2 s3
  rw [if_neg (by decide), rawReg_setRawReg_other _ _ (by omega), rawReg_setRawReg_other _ _ (by omega),
    rawReg_setRawReg_other _ _ (by omega)]

/-- The registers that an abort counts in. -/
theorem rawReg_noteAbort (s : State) (u : SlotId) (a : Nat) (h1 : a ≠ depBase + 4) (h2 : a ≠ depBase + 0x2C)
    (h3 : a < depBase + 0x38 ∨ depBase + 0x40 < a) :
    rawReg (noteAbort s u) a = rawReg (count (raise (count s (coreRegBase u.core) Ctr.CORE_ABORT_CNT 1) (coreRegBase u.core)
      Flag.core_ABORT) depBase Ctr.DEP_ABORT_CNT 1) a := by
  unfold noteAbort noteIndexAbort
  dsimp only
  split
  · rw [rawReg_holdJob _ _ _ _ h2 h1, rawReg_logFault _ _ _ _ _ _ h3, rawReg_raise_other _ h1]
    exact rawReg_congr (by simp only [updJob_regs]) a
  · exact rawReg_congr (by simp only [updJob_regs]) a

theorem rawReg_cancelQueue (s : State) (q : QueueId) (a : Nat) (h1 : a ≠ hoistRegBase q.seam q.hoist + 4)
    (h2 : a ≠ hoistRegBase q.seam q.hoist + 0x1C) : rawReg (cancelQueue s q) a = rawReg s a := by
  unfold cancelQueue countDiscard
  extract_lets x writes n b
  split
  · rfl
  · rw [rawReg_raise_other _ (show a ≠ b + Flag.hoist_DISCARD.1 from h1),
      rawReg_count_other _ (show a ≠ b + Ctr.HOIST_DISCARD_CNT from h2)]
    exact rawReg_congr rfl a

theorem dropTask_eq (s : State) (u : SlotId) : dropTask s u =
    setSlot (setCore (beforeClear s u) u.core { getCore (beforeClear s u) u.core with
      tiles := (getCore (beforeClear s u) u.core).tiles.filter fun v => v.slot != u.slot }) u {} := rfl

theorem dropTask_fromClear (s : State) (u : SlotId) : Keeps (· ∈ [.cores]) (beforeClear s u) (dropTask s u) := by
  have can := Can.all [.cores]
  rw [dropTask_eq]
  exact setSlot_keeps (setCore_keeps (.refl _) ..) ..

/-- The slots and vat tiles after one task is dropped. -/
theorem dropTask_cores (s : State) (u : SlotId) :
    getSlot (dropTask s u) u = {} ∧ (∀ v, v ≠ u → getSlot (dropTask s u) v = getSlot s v) ∧
    ∀ v : SlotId, (getCore (dropTask s u) v.core).tiles = if v.core = u.core then
      (getCore s v.core).tiles.filter (fun x => x.slot != u.slot) else (getCore s v.core).tiles := by
  have hc : (beforeClear s u).cores = s.cores := (beforeClear_gives s u).1.field .cores (by decide)
  rw [dropTask_eq]
  generalize beforeClear s u = z at hc
  refine ⟨getSlot_setSlot_self .., fun v hv => ?_, fun v => ?_⟩
  · rw [getSlot_setSlot_other _ _ hv]
    simp only [getSlot]
    by_cases c : v.core = u.core
    · rw [c, getCore_setCore_self]
      simp only [getCore_congr hc]
    · rw [getCore_setCore_other _ _ c, getCore_congr hc]
  · have h := congrArg CoreState.tiles (getCore_setSlot (setCore z u.core { getCore z u.core with
      tiles := (getCore z u.core).tiles.filter fun v => v.slot != u.slot }) u {} v.core)
    dsimp only at h
    rw [h]
    by_cases c : v.core = u.core
    · rw [if_pos c, c, getCore_setCore_self]
      simp only [getCore_congr hc]
    · rw [if_neg c, getCore_setCore_other _ _ c, getCore_congr hc]

/-- The jobs and the re-run lists after one task is dropped. -/
theorem dropTask_dep (s : State) (u : SlotId) :
    let t := dropTask s u
    let e : Rerun := ⟨u.core.seam.val, (getSlot s u).counter, (getSlot s u).index⟩
    (e ∈ t.dep.reruns ∨ ∀ j, getJob t (getSlot s u).job = some j → j.state = .held) ∧
    (∀ r ∈ s.dep.reruns, r ∈ t.dep.reruns) ∧
    (∀ k, (∀ j, getJob s k = some j → j.state = .held) → ∀ j, getJob t k = some j → j.state = .held) ∧
    (abortCount s u < 16 → t.dep.reruns = s.dep.reruns ++ [e] ∧
      JobChanged (getSlot s u).job (fun j => { j with counts := addCount j.counts 17 1 }) s t) ∧
    (16 ≤ abortCount s u → t.dep.reruns = s.dep.reruns ∧
      ∀ j, getJob s (getSlot s u).job = some j → j.state ≠ .held →
        JobChanged (getSlot s u).job (fun j => { j with
          counts := addCount j.counts 17 1, state := .held, holdCause := 2 }) s t) := by
  intro t e
  have kt := dropTask_fromClear s u
  have k2 : Keeps (· ∈ [.regs, .arrays, .hoists, .scatters]) s
      (cancelQueue (dropCharges (dropScatter s u) u) (slotQueue u)) := by
    have can := Can.all [.regs, .arrays, .hoists, .scatters]
    exact cancelQueue_keeps (dropCharges_keeps (dropScatter_keeps (.refl s) ..) ..) ..
  have hb : beforeClear s u = noteAbort (cancelQueue (dropCharges (dropScatter s u) u) (slotQueue u)) u := rfl
  rw [hb] at kt
  generalize cancelQueue (dropCharges (dropScatter s u) u) (slotQueue u) = s2 at kt k2
  have d2 : s2.dep.jobs = s.dep.jobs := k2.field .jobs (by decide)
  have c2 : s2.cores = s.cores := k2.field .cores (by decide)
  have e2 : s2.dep.reruns = s.dep.reruns ∧ s2.dep.abortCounts = s.dep.abortCounts := by
    have h := k2.field .dep (by decide)
    simp only [Part.same] at h
    have h1 := congrArg Deputy.reruns h
    have h2 := congrArg Deputy.abortCounts h
    dsimp only at h1 h2
    exact ⟨h1, h2⟩
  have g2 : getSlot s2 u = getSlot s u := getSlot_congr c2 u
  have a2 : abortCount s2 u = abortCount s u := by
    simp only [abortCount, abortsOf, e2.2, g2]
  obtain ⟨n1, n2, n3, n4, n5⟩ := noteAbort_gives s2 u
  rw [g2] at n1 n4 n5
  rw [a2] at n4 n5
  generalize noteAbort s2 u = s3 at kt n1 n2 n3 n4 n5
  have tj : t.dep.jobs = s3.dep.jobs := kt.field .jobs (by decide)
  have tr : t.dep.reruns = s3.dep.reruns := by
    have h := kt.field .dep (by decide)
    simp only [Part.same] at h
    have h1 := congrArg Deputy.reruns h
    dsimp only at h1
    exact h1
  refine ⟨?_, fun r h => ?_, fun k hk j h => ?_, fun h => ?_, fun h => ?_⟩
  · rw [tr]
    exact n1.imp id fun h j hj => h j (by rwa [← getJob_congr tj])
  · rw [tr]
    exact n2 r (e2.1 ▸ h)
  · exact n3 k (fun j e => hk j (by rwa [← getJob_congr d2])) j (by rwa [← getJob_congr tj])
  · rw [tr, (n4 h).1, e2.1]
    refine ⟨rfl, ?_⟩
    have := (n4 h).2
    unfold JobChanged at this ⊢
    rw [tj, this, d2]
  · rw [tr, (n5 h).1, e2.1]
    refine ⟨rfl, fun j hj hs => ?_⟩
    have := (n5 h).2 j (by rw [getJob_congr d2]; exact hj) hs
    unfold JobChanged at this ⊢
    rw [tj, this, d2]

/-- One task dropped, with what the others keep. -/
theorem dropTask_gives (s : State) (u : SlotId) :
    Aborted u s (dropTask s u) ∧ (∀ v, v ≠ u → Spared v s (dropTask s u)) ∧
    Keeps (· ∈ [.regs, .jobs, .dep, .arrays, .cores, .hoists, .scatters]) s (dropTask s u) := by
  obtain ⟨kb, q1, q2, q3⟩ := beforeClear_gives s u
  have kt := dropTask_fromClear s u
  obtain ⟨c1, c2, c3⟩ := dropTask_cores s u
  have d1 := (dropTask_dep s u).1
  have th : (dropTask s u).hoists = (beforeClear s u).hoists := kt.field .hoists (by decide)
  refine ⟨⟨c1, ?_, by rw [getQueue_congr th, q1], by rw [getQueue_congr th, q2], d1⟩, fun v hv => ⟨c2 v hv, ?_, ?_⟩,
    kb.mono.trans kt.mono⟩
  · simp only [tilesOf, c3, if_true, List.filter_filter]
    refine List.filter_eq_nil_iff.mpr fun x _ h => ?_
    simp only [Bool.and_eq_true, beq_iff_eq, bne_iff_ne, ne_eq] at h
    exact h.2 h.1
  · simp only [tilesOf, c3]
    by_cases c : v.core = u.core
    · rw [if_pos c, List.filter_filter]
      refine List.filter_congr fun x _ => ?_
      have : v.slot ≠ u.slot := by
        intro e
        obtain ⟨vc, vs⟩ := v
        obtain ⟨uc, us⟩ := u
        simp only at c e
        exact hv (by rw [c, e])
      by_cases e : x.slot = v.slot
      · simp [e, this]
      · simp [e]
    · rw [if_neg c]
  · rw [getQueue_congr th, q3 _ fun e => hv (slotQueue_inj e)]

/-- A register that an abort does not write beside its counts. -/
theorem rawReg_dropTask (s : State) (u : SlotId) (a : Nat)
    (h1 : a ≠ hoistRegBase (slotQueue u).seam (slotQueue u).hoist + 4)
    (h2 : a ≠ hoistRegBase (slotQueue u).seam (slotQueue u).hoist + 0x1C) (h3 : a ≠ depBase + 4) (h4 : a ≠ depBase + 0x2C)
    (h5 : a < depBase + 0x38 ∨ depBase + 0x40 < a) :
    ∃ v : State, rawReg v a = rawReg s a ∧ rawReg (dropTask s u) a =
      rawReg (count (raise (count v (coreRegBase u.core) Ctr.CORE_ABORT_CNT 1) (coreRegBase u.core)
        Flag.core_ABORT) depBase Ctr.DEP_ABORT_CNT 1) a := by
  let v := cancelQueue (dropCharges (dropScatter s u) u) (slotQueue u)
  have k : Keeps (· ∈ [.arrays, .scatters]) s (dropCharges (dropScatter s u) u) := by
    have can := Can.all [.arrays, .scatters]
    exact dropCharges_keeps (dropScatter_keeps (.refl s) ..) ..
  have hr : (dropTask s u).regs = (noteAbort v u).regs := (dropTask_fromClear s u).field .regs (by decide)
  refine ⟨v, ?_, ?_⟩
  · rw [rawReg_cancelQueue _ _ _ h1 h2]
    exact rawReg_congr (k.field .regs (by decide)) a
  · rw [rawReg_congr hr, rawReg_noteAbort _ _ _ h3 h4 h5]

/-- A list of tasks dropped. -/
theorem dropTasks_gives (s : State) (l : List SlotId) : ∀ (done : List SlotId) (c : State),
    (∀ v ∈ done, Aborted v s c) → (∀ v, v ∉ done → Spared v s c) →
    (∀ v, v ∈ done ++ l → Aborted v s (l.foldl dropTask c)) ∧ (∀ v, v ∉ done ++ l → Spared v s (l.foldl dropTask c)) := by
  induction l with
  | nil => exact fun done c h1 h2 => ⟨by simpa using h1, by simpa using h2⟩
  | cons x r ih =>
    intro done c h1 h2
    obtain ⟨d1, d2, -⟩ := dropTask_gives c x
    obtain ⟨-, d3, d4, -⟩ := dropTask_dep c x
    have keep : ∀ v, Aborted v s c → v ≠ x → Aborted v s (dropTask c x) := fun v a n =>
      have p := d2 v n
      ⟨p.slot.trans a.slot, p.tiles.trans a.tiles, by rw [p.queue, a.ready], by rw [p.queue, a.issued],
        a.again.imp (d3 _) (d4 _)⟩
    have := ih (done ++ [x]) (dropTask c x) (fun v hv => ?_) (fun v hv => ?_)
    · simpa only [List.foldl_cons, List.append_assoc, List.singleton_append] using this
    · by_cases e : v = x
      · subst e
        by_cases m : v ∈ done
        · have a := h1 v m
          refine ⟨d1.slot, d1.tiles, d1.ready, by rw [d1.issued, a.issued, List.filter_filter]; simp only [Bool.and_self], ?_⟩
          exact a.again.imp (d3 _) (d4 _)
        · have a := h2 v m
          have g := d1.again
          rw [a.slot] at g
          exact ⟨d1.slot, d1.tiles, d1.ready, by rw [d1.issued, a.queue], g⟩
      · exact keep v (h1 v ((List.mem_append.mp hv).resolve_right (by simpa using e))) e
    · simp only [List.mem_append, List.mem_singleton, not_or] at hv
      have a := h2 v hv.1
      have p := d2 v hv.2
      exact ⟨p.slot.trans a.slot, p.tiles.trans a.tiles, p.queue.trans a.queue⟩

theorem eraseDups_single {u : SlotId} : ∀ (l : List SlotId), u ∈ l → (∀ x ∈ l, x = u) → l.eraseDups = [u] := by
  intro l hm hu
  cases l with
  | nil => cases hm
  | cons a r =>
    have ha := hu a (List.mem_cons_self ..)
    subst ha
    rw [List.eraseDups_cons]
    have : (r.filter fun b => !b == a) = [] := by
      refine List.filter_eq_nil_iff.mpr fun x hx => ?_
      rw [hu x (List.mem_cons_of_mem _ hx)]
      simp
    rw [this]
    rfl

end Sys2Proof.Machine
end

