-- ==== Sys2Proof/Laws/Vector.lean ====
section
/-! SUPPORT. The vector engine: what the operations do. -/

-- one theorem after the other: proofs side by side would need more memory than the check allows
set_option Elab.async false

namespace Sys2Proof.Machine

open Sys2Proof.Safety

@[simp] theorem getLanes_length (s : State) (u : SlotId) (v : VReg) : (getLanes s u v).length = 64 := by
  simp [getLanes, laneCount]

theorem getLanes_congr {s t : State} (u : SlotId) (h : (getSlot t u).vregs = (getSlot s u).vregs) (v : VReg) :
    getLanes t u v = getLanes s u v := by
  simp [getLanes, h]

theorem getLanes_ext {l : List Word} (h : l.length = 64) : ((List.range laneCount).map fun i => l.getD i 0) = l := by
  apply List.ext_getElem
  · simp [laneCount, h]
  · intro i h1 h2
    simp [List.getD, h2]

theorem getLanes_setLanes_self (s : State) (u : SlotId) (v : VReg) {l : List Word} (h : l.length = 64) :
    getLanes (setLanes s u v l) u v = l := by
  simp only [getLanes, setLanes, getSlot_setSlot_self, slotWithLanes, tget_tset_self]
  exact getLanes_ext h

theorem getLanes_setLanes_other (s : State) (u : SlotId) {v w : VReg} (l : List Word) (h : w ≠ v) :
    getLanes (setLanes s u v l) u w = getLanes s u w := by
  have hv : w.val ≠ v.val := fun e => h (Fin.ext e)
  simp only [getLanes, setLanes, getSlot_setSlot_self, slotWithLanes, tget_tset_other _ _ _ hv]

theorem satAdd_zero (v : Word) : satAdd v 0 = v := by
  simp only [satAdd, Nat.add_zero]
  have h := v.isLt
  rw [Nat.min_eq_left (by omega)]
  simp

theorem veCounted_veDone (s : State) (c : CoreId) (n : Nat) : VeCounted c n s (veDone s c n) := by
  constructor
  · rw [Counted, veDone, rawReg_count_other _ (by simp [Ctr.VE_BUSY_CNT, Ctr.VE_INSN_CNT]), rawReg_count_self]
  · rw [Counted, veDone, rawReg_count_self, rawReg_count_other _ (by simp [Ctr.VE_BUSY_CNT, Ctr.VE_INSN_CNT])]

theorem regsBut_veDone (s : State) (c : CoreId) (n : Nat) : RegsBut (veRegs c) s (veDone s c n) := by
  intro a
  simp only [veRegs, List.mem_cons, List.not_mem_nil, or_false]
  by_cases h1 : a = coreRegBase c + Ctr.VE_BUSY_CNT
  · exact .inl (.inl h1)
  by_cases h2 : a = coreRegBase c + Ctr.VE_INSN_CNT
  · exact .inl (.inr h2)
  exact .inr (by rw [veDone, rawReg_count_other _ h2, rawReg_count_other _ h1])

/-- What an instruction that writes a vector register does. -/
theorem veResult_wrote (s : State) (u : SlotId) (dst : VReg) {l : List Word} (h : l.length = 64) (n : Nat) :
    VeWrote u dst n (fun i => l.getD i 0) s (veResult s u dst l n) := by
  have e1 : (veResult s u dst l n).cores = (setLanes s u dst l).cores := by
    simp only [veResult, veDone, count_cores]
  have hs : ∀ v, getSlot (veResult s u dst l n) v = getSlot (setLanes s u dst l) v := getSlot_congr e1
  have hr : (setLanes s u dst l).regs = s.regs := by simp only [setLanes, setSlot_regs]
  refine ⟨⟨fun i hi => ?_, fun v hv => ?_⟩, ⟨fun v hv => ?_, fun c => ?_, ?_⟩, ?_, ?_, fun a => ?_, ?_, fun p => ?_⟩
  · rw [lane, getLanes_congr u (s := setLanes s u dst l) (by rw [hs]), getLanes_setLanes_self _ _ _ h]
  · rw [getLanes_congr u (s := setLanes s u dst l) (by rw [hs]), getLanes_setLanes_other _ _ _ hv]
  · rw [hs, setLanes, getSlot_setSlot_other _ _ hv]
  · rw [getCore_congr e1, setLanes, getCore_setSlot]
  · rw [hs, setLanes, getSlot_setSlot_self]
    rfl
  · rw [hs, setLanes, getSlot_setSlot_self]
    rfl
  · have h1 := veCounted_veDone (setLanes s u dst l) u.core n
    simp only [VeCounted, Counted, rawReg_congr hr] at h1
    exact h1
  · have h1 := regsBut_veDone (setLanes s u dst l) u.core n a
    rw [rawReg_congr hr] at h1
    exact h1
  · simp only [veResult, veDone, setLanes, count_pending, setSlot_pending]
  · cases p <;> simp [Part.same, veResult, veDone, setLanes]

theorem lanes2_getD (f : Word → Word → Word) {a b : List Word} (ha : a.length = 64) (hb : b.length = 64) {k : Nat}
    (h : k < 64) : (lanes2 f a b).getD k 0 = f (a.getD k 0) (b.getD k 0) := by
  simp [lanes2, List.getD, ha, hb, h]

theorem lanes3_getD (f : Word → Word → Word → Word) {a b c : List Word} (ha : a.length = 64) (hb : b.length = 64)
    (hc : c.length = 64) {k : Nat} (h : k < 64) :
    (lanes3 f a b c).getD k 0 = f (a.getD k 0) (b.getD k 0) (c.getD k 0) := by
  simp [lanes3, List.getD, ha, hb, hc, h]

theorem map_getD (f : Word → Word) {a : List Word} (ha : a.length = 64) {k : Nat} (h : k < 64) :
    (a.map f).getD k 0 = f (a.getD k 0) := by
  simp [List.getD, ha, h]

theorem veWrote_lanes {u : SlotId} {dst : VReg} {n : Nat} {f g : Nat → Word} {s t : State} (h : VeWrote u dst n f s t)
    (e : ∀ k, k < 64 → f k = g k) : VeWrote u dst n g s t :=
  ⟨⟨fun k hk => (h.set.lanes k hk).trans (e k hk), h.set.others⟩, h.cores, h.counts, h.counted, h.regs, h.rest⟩

/-- An instruction with two sources. -/
theorem veBin_gives (f : Word → Word → Word) (s : State) (u : SlotId) (dst a b : VReg) (n : Nat) :
    VeWrote u dst n (fun k => f (lane s u a k) (lane s u b k)) s
      (veResult s u dst (lanes2 f (getLanes s u a) (getLanes s u b)) n) :=
  veWrote_lanes (veResult_wrote s u dst (by simp [lanes2]) n) fun k hk => by
    rw [lanes2_getD _ (by simp) (by simp) hk]; rfl

/-- An instruction with three sources. -/
theorem veTri_gives (f : Word → Word → Word → Word) (s : State) (u : SlotId) (dst a b c : VReg) (n : Nat) :
    VeWrote u dst n (fun k => f (lane s u a k) (lane s u b k) (lane s u c k)) s
      (veResult s u dst (lanes3 f (getLanes s u a) (getLanes s u b) (getLanes s u c)) n) :=
  veWrote_lanes (veResult_wrote s u dst (by simp [lanes3]) n) fun k hk => by
    rw [lanes3_getD _ (by simp) (by simp) (by simp) hk]; rfl

/-- An instruction with one source. -/
theorem veUn_gives (f : Word → Word) (s : State) (u : SlotId) (dst a : VReg) (n : Nat) :
    VeWrote u dst n (fun k => f (lane s u a k)) s (veResult s u dst ((getLanes s u a).map f) n) :=
  veWrote_lanes (veResult_wrote s u dst (by simp) n) fun k hk => by
    rw [map_getD _ (by simp) hk]; rfl

theorem intResult_toInt (op : Nat) (a b c : Word) {v : Int} (h : InInt32 v) : (intResult op a b c v).toInt = v := by
  obtain ⟨h1, h2⟩ := h
  have : intMin 32 ≤ v ∧ v ≤ intMax 32 := by
    simp only [intMin, intMax]
    omega
  rw [intResult, if_pos this, BitVec.toInt_ofInt]
  apply Int.bmod_eq_of_le <;> omega

theorem signedOf_byte (w : Word) (j : Nat) : byteOf w j = signedByte w j := by
  have h : (BitVec.ofNat 8 (w.toNat / 256 ^ j)).toNat = w.toNat / 256 ^ j % 256 := by simp
  simp only [byteOf, signedByte, signedOf, BitVec.toInt_eq_toNat_cond, h]
  split <;> split <;> omega

theorem withSign_lt (f : FFormat) (n : Bool) {c : Nat} (h : c < 2 ^ (f.ebits + f.fbits)) :
    withSign f n c % 2 ^ (f.ebits + f.fbits) = c := by
  cases n
  · simp [withSign, Nat.mod_eq_of_lt h]
  · simp [withSign, Nat.mod_eq_of_lt h]

theorem fconst (fmt : VeFormat) (f : FFormat) (h : veFloat fmt = some f) :
    f = fp32 ∧ fmt = .fp32 ∨ f = bf16 ∧ fmt = .bf16 ∨ f = fp16 ∧ fmt = .fp16 := by
  cases fmt <;> simp_all [veFloat]

/-- A rounded code without its sign is finite or infinity. -/
theorem mag_le (f : FFormat) (h : f = fp32 ∨ f = bf16 ∨ f = fp16) (rnd : Rounding) (n : Bool) (c : Nat) :
    (if c ≤ maxCode f then c else overflowCode f rnd n) ≤ infCode f := by
  rcases h with rfl | rfl | rfl <;> cases rnd <;> cases n <;> simp [maxCode, infCode, overflowCode, fp32, bf16, fp16] <;>
    split <;> omega

/-- The code of a rounded value: its NaN is canonical, and it fits its width. -/
theorem encodeF_nan (f : FFormat) (h : f = fp32 ∨ f = bf16 ∨ f = fp16) (rnd : Rounding) (v : FVal) (st : Bool) :
    encodeF f rnd v st = nanCode f ∨ encodeF f rnd v st % 2 ^ (f.ebits + f.fbits) ≤ infCode f ∧
      encodeF f rnd v st < 2 ^ (f.ebits + f.fbits + 1) ∧ v ≠ .nan := by
  have hi : infCode f < 2 ^ (f.ebits + f.fbits) := by
    rcases h with rfl | rfl | rfl <;> decide
  have hw : ∀ (n : Bool) (c : Nat), c ≤ infCode f → withSign f n c % 2 ^ (f.ebits + f.fbits) ≤ infCode f ∧
      withSign f n c < 2 ^ (f.ebits + f.fbits + 1) := by
    intro n c hc
    rw [withSign_lt f n (by omega), Nat.pow_succ]
    refine ⟨hc, ?_⟩
    cases n <;> simp [withSign] <;> omega
  cases v with
  | nan => exact .inl rfl
  | inf n => exact .inr ⟨(hw n _ (Nat.le_refl _)).1, (hw n _ (Nat.le_refl _)).2, by simp⟩
  | fin n m e =>
    have := hw n _ (mag_le f h rnd n (roundCode f rnd n m e st))
    exact .inr ⟨this.1, this.2, by simp⟩

/-- Codes of a float format are below this. -/
def eWidth (fmt : VeFormat) : Nat :=
  if vePacked fmt then 2 ^ 16 else 2 ^ 32

/-- A code of a float format that fits its width and whose NaN is canonical. -/
def GoodCode (fmt : VeFormat) (c : Nat) : Prop :=
  c < eWidth fmt ∧ (IsNan fmt c → c = nanOf fmt)

theorem decode_nan {fmt : VeFormat} {f : FFormat} (h : veFloat fmt = some f) (a : Nat) :
    decodeF f a = .nan ↔ IsNan fmt a := by
  rcases fconst fmt f h with ⟨rfl, rfl⟩ | ⟨rfl, rfl⟩ | ⟨rfl, rfl⟩ <;>
    simp [decodeF, IsNan, maxCode, infCode, fp32, bf16, fp16] <;> repeat' split
  all_goals simp_all <;> omega

theorem encode_good {fmt : VeFormat} {f : FFormat} (h : veFloat fmt = some f) (rnd : Rounding) (v : FVal) (st : Bool) :
    GoodCode fmt (encodeF f rnd v st) := by
  have hf : f = fp32 ∨ f = bf16 ∨ f = fp16 := (fconst fmt f h).imp And.left (Or.imp And.left And.left)
  have hx := encodeF_nan f hf rnd v st
  generalize encodeF f rnd v st = c at hx
  rcases fconst fmt f h with ⟨rfl, rfl⟩ | ⟨rfl, rfl⟩ | ⟨rfl, rfl⟩ <;>
    simp [GoodCode, nanCode, infCode, fp32, bf16, fp16, eWidth, vePacked, nanOf, IsNan] at hx ⊢ <;> omega

theorem encode_nan {fmt : VeFormat} {f : FFormat} (h : veFloat fmt = some f) (rnd : Rounding) (st : Bool) :
    encodeF f rnd .nan st = nanOf fmt := by
  rcases fconst fmt f h with ⟨rfl, rfl⟩ | ⟨rfl, rfl⟩ | ⟨rfl, rfl⟩ <;> rfl

theorem elemsOf_ofNat {fmt : VeFormat} {x y : Nat} (hx : x < 65536) (hy : y < 65536) (h : vePacked fmt = true) :
    elemsOf fmt (BitVec.ofNat 32 (x + 65536 * y)) = [x, y] := by
  have : (BitVec.ofNat 32 (x + 65536 * y)).toNat = x + 65536 * y := by
    rw [BitVec.toNat_ofNat]; omega
  cases fmt <;> simp [vePacked] at h <;> simp only [elemsOf, this, List.cons.injEq, and_true] <;> omega

/-- The elements of a lane made element by element. -/
theorem elemsOf_lane2 {fmt : VeFormat} {f : FFormat} (h : veFloat fmt = some f) (g : Nat → Nat → Nat)
    (hg : ∀ a b, a < eWidth fmt → b < eWidth fmt → GoodCode fmt (g a b)) (a b : Word) :
    elemsOf fmt (lane2 fmt g a b) = List.zipWith g (elemsOf fmt a) (elemsOf fmt b) := by
  unfold lane2
  split
  · rename_i hp
    have k : ∀ x y, x < 65536 → y < 65536 → g x y < 65536 := fun x y hx hy => by
      have := (hg x y (by simp [eWidth, hp, hx]) (by simp [eWidth, hp, hy])).1
      simpa [eWidth, hp] using this
    have ka := k (a.toNat % 65536) (b.toNat % 65536) (by omega) (by omega)
    have kb := k (a.toNat / 65536) (b.toNat / 65536) (by omega) (by omega)
    rw [Nat.mod_eq_of_lt ka, Nat.mod_eq_of_lt kb, elemsOf_ofNat ka kb hp]
    cases fmt <;> simp [vePacked] at hp <;> rfl
  · rename_i hp
    have k := (hg a.toNat b.toNat (by simp [eWidth, hp]; omega) (by simp [eWidth, hp]; omega)).1
    rw [eWidth, if_neg hp] at k
    cases fmt <;> simp [vePacked, veFloat] at hp h
    simp [elemsOf]
    omega

theorem elemsOf_lt {fmt : VeFormat} {w : Word} {x : Nat} (h : x ∈ elemsOf fmt w) : x < eWidth fmt := by
  cases fmt <;> simp [elemsOf] at h <;> simp [eWidth, vePacked] <;> omega

theorem nanCanonical_lane2 {fmt : VeFormat} {f : FFormat} (h : veFloat fmt = some f) (g : Nat → Nat → Nat)
    (hg : ∀ a b, a < eWidth fmt → b < eWidth fmt → GoodCode fmt (g a b)) (a b : Word) : NanCanonical fmt (lane2 fmt g a b) := by
  intro c hc hn
  rw [elemsOf_lane2 h g hg] at hc
  obtain ⟨x, y, hx, hy, rfl⟩ : ∃ x y, x ∈ elemsOf fmt a ∧ y ∈ elemsOf fmt b ∧ g x y = c := by
    cases fmt <;> simp [elemsOf] at hc ⊢ <;> grind
  exact (hg _ _ (elemsOf_lt hx) (elemsOf_lt hy)).2 hn

theorem getElem_of_nan {fmt : VeFormat} {w : Word} {j : Nat} (h : IsNan fmt ((elemsOf fmt w).getD j 0)) :
    ∃ hj : j < (elemsOf fmt w).length, IsNan fmt (elemsOf fmt w)[j] := by
  have h0 : ¬ IsNan fmt 0 := by cases fmt <;> simp [IsNan]
  by_cases hj : j < (elemsOf fmt w).length
  · exact ⟨hj, by simpa [List.getD, hj] using h⟩
  · exfalso
    apply h0
    have : (elemsOf fmt w)[j]? = none := List.getElem?_eq_none (by omega)
    simpa [List.getD, this] using h

theorem nanCarried_left {fmt : VeFormat} {f : FFormat} (h : veFloat fmt = some f) (g : Nat → Nat → Nat)
    (hg : ∀ a b, a < eWidth fmt → b < eWidth fmt → GoodCode fmt (g a b)) (hn : ∀ a b, IsNan fmt a → g a b = nanOf fmt) (a b : Word) :
    NanCarried fmt [a] (lane2 fmt g a b) := by
  intro x hx j hj
  simp only [List.mem_cons, List.not_mem_nil, or_false] at hx
  subst hx
  obtain ⟨hl, hj⟩ := getElem_of_nan hj
  have hb : j < (elemsOf fmt b).length := by
    have : (elemsOf fmt b).length = (elemsOf fmt x).length := by cases fmt <;> rfl
    omega
  rw [elemsOf_lane2 h g hg, List.getElem?_eq_getElem (by simp; omega), List.getElem_zipWith, hn _ _ hj]

theorem nanCarried_right {fmt : VeFormat} {f : FFormat} (h : veFloat fmt = some f) (g : Nat → Nat → Nat)
    (hg : ∀ a b, a < eWidth fmt → b < eWidth fmt → GoodCode fmt (g a b)) (hn : ∀ a b, IsNan fmt b → g a b = nanOf fmt) (a b : Word) :
    NanCarried fmt [b] (lane2 fmt g a b) := by
  intro x hx j hj
  simp only [List.mem_cons, List.not_mem_nil, or_false] at hx
  subst hx
  obtain ⟨hl, hj⟩ := getElem_of_nan hj
  have hb : j < (elemsOf fmt a).length := by
    have : (elemsOf fmt a).length = (elemsOf fmt x).length := by cases fmt <;> rfl
    omega
  rw [elemsOf_lane2 h g hg, List.getElem?_eq_getElem (by simp; omega), List.getElem_zipWith, hn _ _ hj]

/-- What R11 says of an operation on the elements of two lanes. -/
theorem lane2_nan {fmt : VeFormat} {f : FFormat} (h : veFloat fmt = some f) (g : Nat → Nat → Nat)
    (hg : ∀ a b, a < eWidth fmt → b < eWidth fmt → GoodCode fmt (g a b)) (hn : ∀ a b, IsNan fmt a ∨ IsNan fmt b → g a b = nanOf fmt) (a b : Word) :
    NanCanonical fmt (lane2 fmt g a b) ∧ NanCarried fmt [a, b] (lane2 fmt g a b) := by
  refine ⟨nanCanonical_lane2 h g hg a b, fun x hx => ?_⟩
  simp only [List.mem_cons, List.not_mem_nil, or_false] at hx
  rcases hx with rfl | rfl
  · exact nanCarried_left h g hg (fun _ _ k => hn _ _ (.inl k)) x b x (by simp)
  · exact nanCarried_right h g hg (fun _ _ k => hn _ _ (.inr k)) a x x (by simp)

theorem addF_nan (rnd : Rounding) (x y : FVal) (h : x = .nan ∨ y = .nan) : addF rnd x y = .nan := by
  rcases h with rfl | rfl
  · rfl
  · cases x <;> rfl

theorem mulF_nan (x y : FVal) (h : x = .nan ∨ y = .nan) : mulF x y = .nan := by
  rcases h with rfl | rfl
  · rfl
  · cases x <;> rfl

theorem divF_nan (x y : FVal) (h : x = .nan ∨ y = .nan) : divF x y = (.nan, false) := by
  rcases h with rfl | rfl
  · rfl
  · cases x <;> rfl

theorem negF_nan (x : FVal) (h : x = .nan) : negF x = .nan := by rw [h]; rfl

theorem fop2_nan {fmt : VeFormat} {f : FFormat} (h : veFloat fmt = some f) (rnd : Rounding) (op : FVal → FVal → FVal)
    (hop : ∀ x y, x = .nan ∨ y = .nan → op x y = .nan) (a b : Word) :
    NanCanonical fmt (lane2 fmt (fop2 f rnd op) a b) ∧ NanCarried fmt [a, b] (lane2 fmt (fop2 f rnd op) a b) :=
  lane2_nan h _ (fun a b _ _ => encode_good h rnd _ _) (fun a b hn => by
    rw [hop _ _ (hn.imp (decode_nan h a).mpr (decode_nan h b).mpr)]
    exact encode_nan h rnd false) a b

theorem exists_float {fmt : VeFormat} (h : fmt ≠ .int32) : ∃ f, veFloat fmt = some f := by
  cases fmt <;> simp [veFloat] at h ⊢

theorem fmaLane_nan {fmt : VeFormat} {f : FFormat} (h : veFloat fmt = some f) (rnd : Rounding) (a b c : Word) :
    NanCanonical fmt (fmaLane fmt rnd a b c) ∧ NanCarried fmt [c, a, b] (fmaLane fmt rnd a b c) := by
  have hg : ∀ x y z, GoodCode fmt (fmaF f rnd x y z) := fun x y z => encode_good h rnd _ _
  have hn : ∀ x y z, IsNan fmt x ∨ IsNan fmt y ∨ IsNan fmt z → fmaF f rnd x y z = nanOf fmt := by
    intro x y z hx
    rw [← decode_nan h, ← decode_nan h, ← decode_nan h] at hx
    rw [fmaF, addF_nan]
    · exact encode_nan h rnd false
    · rcases hx with hx | hx | hx
      · exact .inl (mulF_nan _ _ (.inl hx))
      · exact .inl (mulF_nan _ _ (.inr hx))
      · exact .inr hx
  simp only [fmaLane, h]
  split
  · rename_i hp
    have k : ∀ x y z, fmaF f rnd x y z < 65536 := fun x y z => by simpa [eWidth, hp] using (hg x y z).1
    have e := elemsOf_ofNat (k (a.toNat % 65536) (b.toNat % 65536) (c.toNat % 65536))
      (k (a.toNat / 65536) (b.toNat / 65536) (c.toNat / 65536)) hp
    refine ⟨fun x hx hxn => ?_, fun x hx j hj => ?_⟩
    · rw [e] at hx
      simp only [List.mem_cons, List.not_mem_nil, or_false] at hx
      rcases hx with rfl | rfl <;> exact (hg _ _ _).2 hxn
    · rw [e]
      have h0 : ¬ IsNan fmt 0 := by cases fmt <;> simp [IsNan]
      have hx2 : elemsOf fmt x = [x.toNat % 65536, x.toNat / 65536] := by cases fmt <;> simp [vePacked] at hp <;> rfl
      rw [hx2] at hj
      simp only [List.mem_cons, List.not_mem_nil, or_false] at hx
      match j, hj with
      | 0, hj =>
        simp only [List.getD_cons_zero] at hj
        simp only [List.getElem?_cons_zero, Option.some.injEq]
        apply hn
        rcases hx with rfl | rfl | rfl <;> simp [hj]
      | 1, hj =>
        simp only [List.getD_cons_succ, List.getD_cons_zero] at hj
        simp only [List.getElem?_cons_succ, List.getElem?_cons_zero, Option.some.injEq]
        apply hn
        rcases hx with rfl | rfl | rfl <;> simp [hj]
      | j + 2, hj => simp at hj; exact absurd hj h0
  · rename_i hp
    have hfmt : fmt = .fp32 := by cases fmt <;> simp [vePacked, veFloat] at hp h ⊢
    subst hfmt
    have k := (hg a.toNat b.toNat c.toNat).1
    simp [eWidth, hp] at k
    have e : elemsOf .fp32 (BitVec.ofNat 32 (fmaF f rnd a.toNat b.toNat c.toNat)) = [fmaF f rnd a.toNat b.toNat c.toNat] := by
      simp [elemsOf]; omega
    refine ⟨fun x hx hxn => ?_, fun x hx j hj => ?_⟩
    · rw [e] at hx
      simp only [List.mem_cons, List.not_mem_nil, or_false] at hx
      subst hx
      exact (hg _ _ _).2 hxn
    · rw [e]
      have h0 : ¬ IsNan .fp32 0 := by simp [IsNan]
      simp only [List.mem_cons, List.not_mem_nil, or_false] at hx
      match j, hj with
      | 0, hj =>
        simp only [elemsOf, List.getD_cons_zero] at hj
        simp only [List.getElem?_cons_zero, Option.some.injEq]
        apply hn
        rcases hx with rfl | rfl | rfl <;> simp [hj]
      | j + 1, hj => simp [elemsOf] at hj; exact absurd hj h0

theorem nanCarried_nil (fmt : VeFormat) (w : Word) : NanCarried fmt [] w := fun x hx => by simp at hx

theorem absNeg_nan {fmt : VeFormat} {f : FFormat} (h : veFloat fmt = some f) (neg : Bool) (a : Word) :
    NanCanonical fmt (absNegLane neg fmt a) ∧ NanCarried fmt [a] (absNegLane neg fmt a) := by
  simp only [absNegLane, h]
  have hg := fun (x y : Nat) (_ : x < eWidth fmt) (_ : y < eWidth fmt) => encode_good h .rne (if neg = true then negF (decodeF f x) else absF (decodeF f x)) false
  refine ⟨nanCanonical_lane2 h _ hg a a, nanCarried_left h _ hg (fun x _ hn => ?_) a a⟩
  rw [(decode_nan h x).mpr hn]
  have : (if neg = true then negF .nan else absF .nan) = .nan := by cases neg <;> rfl
  rw [this]
  exact encode_nan h .rne false

theorem minMaxF_good {fmt : VeFormat} {f : FFormat} (h : veFloat fmt = some f) (op a b : Nat)
    (ha : a < eWidth fmt) (hb : b < eWidth fmt) :
    GoodCode fmt (minMaxF f op a b) := by
  have hw : 2 ^ (f.ebits + f.fbits + 1) = eWidth fmt := by
    rcases fconst fmt f h with ⟨rfl, rfl⟩ | ⟨rfl, rfl⟩ | ⟨rfl, rfl⟩ <;> rfl
  have hnan : GoodCode fmt (nanCode f) := encode_good h .rne .nan false
  unfold minMaxF
  simp only
  split
  · split
    · exact hnan
    · rename_i hd
      refine ⟨?_, fun hn => absurd ((decode_nan h _).mpr hn) hd⟩
      rw [← hw]
      exact Nat.mod_lt _ (Nat.two_pow_pos _)
  · rename_i hnn
    have h1 : ¬ IsNan fmt a := fun k => hnn (by simp [(decode_nan h a).mpr k])
    have h2 : ¬ IsNan fmt b := fun k => hnn (by simp [(decode_nan h b).mpr k])
    have ga : GoodCode fmt a := ⟨ha, fun k => absurd k h1⟩
    have gb : GoodCode fmt b := ⟨hb, fun k => absurd k h2⟩
    split <;> split <;> assumption

theorem canonNan_good (w : Word) : GoodCode .fp32 (canonNan w).toNat := by
  unfold canonNan
  split
  · exact encode_good (fmt := .fp32) rfl .rne .nan false
  · rename_i hd
    exact ⟨by simp [eWidth, vePacked]; omega, fun k => absurd ((decode_nan (fmt := .fp32) rfl _).mpr k) hd⟩

theorem codeOfIndex_good {i : Int} (h : i.natAbs ≤ maxCode fp32) : GoodCode .fp32 (codeOfIndex i) := by
  have hm : maxCode fp32 = 0x7F7FFFFF := by decide
  unfold codeOfIndex
  split <;> simp [GoodCode, eWidth, vePacked, IsNan, nanOf] <;> omega

theorem getD_mem {α : Type} {l : List α} {i : Nat} {d : α} (h : i < l.length) : l.getD i d ∈ l := by
  simp [List.getD, h]

theorem toNat_ofNat_good {c : Nat} (h : GoodCode .fp32 c) : GoodCode .fp32 (BitVec.ofNat 32 c).toNat := by
  have := h.1
  simp [eWidth, vePacked] at this
  rw [BitVec.toNat_ofNat, Nat.mod_eq_of_lt (by omega)]
  exact h

theorem pickSpecial_good (fn : SpecialFn) (rnd : Rounding) (b : Word) (x : Enclosure) :
    GoodCode .fp32 (pickSpecial fn rnd b x).toNat := by
  unfold pickSpecial
  simp only
  split
  · exact toNat_ofNat_good (encode_good (fmt := .fp32) rfl _ _ _)
  · rename_i hl
    apply toNat_ofNat_good
    split
    · simp [GoodCode, eWidth, vePacked, IsNan, nanOf]
    apply codeOfIndex_good
    have hne : 0 < (allowedIndices rnd fn.bound x).length := by
      rw [List.length_pos_iff]
      simpa using hl
    have hm := getD_mem (d := 0) (Nat.mod_lt (Config.specialPick fn.num (roundNum rnd) b) hne)
    have h2 := (List.mem_filter.mp (show _ ∈ List.filter _ _ from hm)).2
    simp only [Bool.and_eq_true, decide_eq_true_eq] at h2
    exact h2.1

theorem specialF_good (fn : SpecialFn) (rnd : Rounding) (b : Word) : GoodCode .fp32 (specialF fn rnd b).toNat := by
  unfold specialF
  split
  · exact toNat_ofNat_good (encode_good (fmt := .fp32) rfl .rne .nan false)
  · rename_i neg hd
    split
    · exact pickSpecial_good ..
    · split
      · exact ⟨b.isLt, fun hn => absurd ((decode_nan (fmt := .fp32) rfl b.toNat).mpr hn) (by rw [hd]; simp)⟩
      · exact canonNan_good _
  · split
    · exact pickSpecial_good ..
    · exact canonNan_good _

theorem specialF_nan (fn : SpecialFn) (rnd : Rounding) (b : Word) (h : IsNan .fp32 b.toNat) :
    (specialF fn rnd b).toNat = nanOf .fp32 := by
  rw [specialF, (decode_nan (fmt := .fp32) rfl _).mpr h]
  rfl

theorem sqrtLane_good (rnd : Rounding) (b : Word) : GoodCode .fp32 (sqrtLane rnd b).toNat :=
  toNat_ofNat_good (encode_good (fmt := .fp32) rfl _ _ _)

theorem sqrtLane_nan (rnd : Rounding) (b : Word) (h : IsNan .fp32 b.toNat) : (sqrtLane rnd b).toNat = nanOf .fp32 := by
  rw [sqrtLane, (decode_nan (fmt := .fp32) rfl _).mpr h]
  rfl

/-- A lane of one FP32 element. -/
theorem one_nan {a w : Word} (h : GoodCode .fp32 w.toNat) (hn : IsNan .fp32 a.toNat → w.toNat = nanOf .fp32) :
    NanCanonical .fp32 w ∧ NanCarried .fp32 [a] w := by
  refine ⟨fun c hc hx => ?_, fun x hx j hj => ?_⟩
  · simp only [elemsOf, List.mem_cons, List.not_mem_nil, or_false] at hc
    subst hc
    exact h.2 hx
  · simp only [List.mem_cons, List.not_mem_nil, or_false] at hx
    subst hx
    obtain ⟨hl, hj⟩ := getElem_of_nan hj
    have h0 : j = 0 := by simp [elemsOf] at hl; exact hl
    subst h0
    have := hn (by simpa [elemsOf] using hj)
    simp [elemsOf, this]

theorem cmpWord_ne : Config.cmpWord true ≠ Config.cmpWord false := by
  unfold Config.cmpWord
  simp only [if_true, Bool.false_eq_true, if_false]
  split
  · intro h
    have := congrArg (fun w : Word => w.getLsbD 0) h
    simp at this
  · rename_i h
    exact fun e => h e.symm

theorem relI_iff (r : CmpRel) (x y : Int) : relI r x y = true ↔ IntRel r x y := by
  cases r <;> simp [relI, IntRel]

theorem joinPairs_append (f : Word → Word → Word) : ∀ (n : Nat) (a b : List Word), a.length = 2 * n →
    joinPairs f (a ++ b) = joinPairs f a ++ joinPairs f b
  | 0, a, b, h => by
    have : a = [] := List.length_eq_zero_iff.mp (by omega)
    simp [this, joinPairs]
  | n + 1, x :: y :: r, b, h => by
    simp only [List.length_cons] at h
    simp [joinPairs, joinPairs_append f n r b (by omega)]
  | n + 1, [x], b, h => by simp at h; omega
  | n + 1, [], b, h => by simp at h

theorem joinPairs_length (f : Word → Word → Word) : ∀ (n : Nat) (a : List Word), a.length = 2 * n →
    (joinPairs f a).length = n
  | 0, a, h => by
    have : a = [] := List.length_eq_zero_iff.mp (by omega)
    simp [this, joinPairs]
  | n + 1, x :: y :: r, h => by
    simp only [List.length_cons] at h
    simp [joinPairs, joinPairs_length f n r (by omega)]
  | n + 1, [x], h => by simp at h; omega
  | n + 1, [], h => by simp at h

/-- The tree over twice as many values is the tree over the joined pairs. -/
theorem treeFold_joinPairs (f : Word → Word → Word) : ∀ (n : Nat) (l : List Word), l.length = 2 ^ (n + 1) →
    treeFold f (n + 1) l = treeFold f n (joinPairs f l)
  | 0, l, h => by
    match l, h with
    | [a, b], _ => rfl
  | n + 1, l, h => by
    have h2 : 2 ^ (n + 1 + 1) = 2 ^ (n + 1) + 2 ^ (n + 1) := by rw [Nat.pow_succ]; omega
    have h3 : 2 ^ (n + 1) = 2 ^ n + 2 ^ n := by rw [Nat.pow_succ]; omega
    have ht : (l.take (2 ^ (n + 1))).length = 2 ^ (n + 1) := by simp; omega
    have hd : (l.drop (2 ^ (n + 1))).length = 2 ^ (n + 1) := by simp; omega
    have e : joinPairs f l = joinPairs f (l.take (2 ^ (n + 1))) ++ joinPairs f (l.drop (2 ^ (n + 1))) := by
      rw [← joinPairs_append f (2 ^ n) _ _ (by omega), List.take_append_drop]
    have l1 := joinPairs_length f (2 ^ n) (l.take (2 ^ (n + 1))) (by rw [ht]; omega)
    have l2 := joinPairs_length f (2 ^ n) (l.drop (2 ^ (n + 1))) (by rw [hd]; omega)
    have hp := Nat.two_pow_pos n
    rw [treeFold, if_neg (show ¬ l.length ≤ 2 ^ (n + 1) by omega), treeFold_joinPairs f n _ ht, treeFold_joinPairs f n _ hd]
    conv => rhs; rw [treeFold, if_neg (by rw [e, List.length_append]; have := Nat.two_pow_pos n; omega)]
    rw [e, ← l1, List.take_left, List.drop_left]

theorem treeFold_all (f : Word → Word → Word) (l : List Word) (h : l.length = 64) :
    (treeFold f 6 l).getD 0 = joinAll f l := by
  have h1 := joinPairs_length f 32 l h
  have h2 := joinPairs_length f 16 _ h1
  have h3 := joinPairs_length f 8 _ h2
  have h4 := joinPairs_length f 4 _ h3
  have h5 := joinPairs_length f 2 _ h4
  rw [treeFold_joinPairs f 5 l h, treeFold_joinPairs f 4 _ h1, treeFold_joinPairs f 3 _ h2,
    treeFold_joinPairs f 2 _ h3, treeFold_joinPairs f 1 _ h4, treeFold_joinPairs f 0 _ h5]
  simp [treeFold, joinAll, List.head?_eq_getElem?]

/-- What the tree over a list keeps: a property of the values that the operation keeps. -/
theorem treeFold_ind {α : Type} (f : α → α → α) (P : List α → α → Prop) (h1 : ∀ a, P [a] a)
    (h2 : ∀ a b x y, P a x → P b y → P (a ++ b) (f x y)) : ∀ (n : Nat) (l : List α), 0 < l.length → l.length ≤ 2 ^ n →
    ∃ x, treeFold f n l = some x ∧ P l x
  | 0, l, h0, h => by
    match l, h0, h with
    | [a], _, _ => exact ⟨a, rfl, h1 a⟩
    | a :: b :: r, _, h => simp at h
  | n + 1, l, h0, h => by
    unfold treeFold
    split
    · exact treeFold_ind f P h1 h2 n l h0 ‹_›
    · rename_i hn
      rw [Nat.pow_succ] at h
      obtain ⟨x, e1, p1⟩ := treeFold_ind f P h1 h2 n (l.take (2 ^ n))
        (by rw [List.length_take]; have := Nat.two_pow_pos n; omega) (by rw [List.length_take]; omega)
      obtain ⟨y, e2, p2⟩ := treeFold_ind f P h1 h2 n (l.drop (2 ^ n))
        (by rw [List.length_drop]; omega) (by rw [List.length_drop]; omega)
      rw [e1, e2]
      exact ⟨_, rfl, by simpa using h2 _ _ _ _ p1 p2⟩

theorem reduce_gives (f : Word → Word → Word) (s : State) (o : VeUn) :
    VeWrote o.at_ o.dst 8 (fun _ => (treeFold f 6 (getLanes s o.at_ o.a)).getD 0) s
      (veResult s o.at_ o.dst (reduceLanes f (getLanes s o.at_ o.a)) 8) :=
  veWrote_lanes (veResult_wrote s o.at_ o.dst (by simp [reduceLanes, laneCount]) 8) fun k hk => by
    rw [reduceLanes, List.getD, List.getElem?_replicate, if_pos (by simpa [laneCount] using hk)]
    rfl

theorem mem_lane {s : State} {u : SlotId} {v : VReg} {x : Word} (h : x ∈ getLanes s u v) :
    ∃ j, j < 64 ∧ x = lane s u v j := by
  obtain ⟨j, hj, e⟩ := List.getElem_of_mem h
  have hj' : j < 64 := by simpa using hj
  exact ⟨j, hj', by simp [lane, List.getD, hj', e]⟩

theorem lane_mem {s : State} {u : SlotId} {v : VReg} {j : Nat} (h : j < 64) : lane s u v j ∈ getLanes s u v :=
  getD_mem (by simpa using h)

theorem redF_nan (m : Bool) (a b : Word) (h : IsNan .fp32 a.toNat ∨ IsNan .fp32 b.toNat) : redF m a b = 0x7FC00000 := by
  have := h.imp (decode_nan (fmt := .fp32) rfl _).mpr (decode_nan (fmt := .fp32) rfl _).mpr
  unfold redF
  simp only
  rw [if_pos (by simpa using this)]
  rfl

@[simp] theorem writeScratch_mem (s : State) (c : CoreId) (off : Nat) (bs : List Byte) :
    (writeScratch s c off bs).mem = storeBytes s.mem (scratchAddr c off) bs := by
  unfold writeScratch
  simp only
  split <;> rfl

@[simp] theorem writeScratch_regs (s : State) (c : CoreId) (off : Nat) (bs : List Byte) :
    (writeScratch s c off bs).regs = s.regs := by
  unfold writeScratch
  simp only
  split <;> rfl

theorem writeScratch_same (s : State) (c : CoreId) (off : Nat) (bs : List Byte) :
    SameBut [.mem, .cores] s (writeScratch s c off bs) := by
  refine ⟨?_, fun p => ?_⟩
  · unfold writeScratch
    simp only
    split <;> simp
  · unfold writeScratch
    simp only
    split <;> cases p <;> simp [Part.same]

theorem writeScratch_poison (s : State) (c : CoreId) (off : Nat) (bs : List Byte) :
    PoisonBut c s (writeScratch s c off bs) := by
  unfold writeScratch
  simp only
  split
  · exact ⟨fun _ _ => rfl, rfl⟩
  · refine ⟨fun d hd => ?_, ?_⟩
    · exact getCore_setCore_other s _ hd
    · exact congrArg (fun x : CoreState => { x with poisonedWords := [] }) (getCore_setCore_self s c _)

theorem PoisonBut_refl (c : CoreId) (s : State) : PoisonBut c s s := ⟨fun _ _ => rfl, rfl⟩

theorem poisonBut_trans {c : CoreId} {r s t : State} (h : PoisonBut c r s) (k : PoisonBut c s t) : PoisonBut c r t :=
  ⟨fun d hd => (k.others d hd).trans (h.others d hd), k.rest.trans h.rest⟩

theorem poisonBut_congr {c : CoreId} {s t u : State} (h : PoisonBut c s t) (e : u.cores = t.cores) : PoisonBut c s u :=
  ⟨fun d hd => (getCore_congr e d).trans (h.others d hd), by rw [getCore_congr e]; exact h.rest⟩

theorem poison_slots {c : CoreId} {s t : State} (h : PoisonBut c s t) (u : SlotId) : getSlot t u = getSlot s u := by
  unfold getSlot
  by_cases hc : u.core = c
  · rw [hc]
    have h2 := h.rest
    simp only [CoreState.mk.injEq] at h2
    rw [h2.2.1]
  · rw [h.others _ hc]

theorem poison_cores {c : CoreId} {s t : State} (h : PoisonBut c s t) (d : CoreId) :
    { getCore t d with slots := [], poisonedWords := [] } = { getCore s d with slots := [], poisonedWords := [] } := by
  by_cases hc : d = c
  · subst hc
    have h2 := h.rest
    simp only [CoreState.mk.injEq] at h2 ⊢
    simp [h2]
  · rw [h.others _ hc]

theorem sameBut_trans {ps qs : List Part} {r s t : State} (h : SameBut ps r s) (k : SameBut qs s t)
    (hs : ∀ p ∈ ps, p ∈ qs) : SameBut qs r t := by
  refine ⟨k.1.trans h.1, fun p => ?_⟩
  rcases k.2 p with hk | hk
  · exact .inl hk
  rcases h.2 p with hh | hh
  · exact .inl (hs p hh)
  · refine .inr ?_
    cases p <;> exact Eq.trans hk hh

theorem sameBut_mono {ps qs : List Part} {s t : State} (h : SameBut ps s t) (hs : ∀ p ∈ ps, p ∈ qs) : SameBut qs s t :=
  ⟨h.1, fun p => (h.2 p).imp (hs p) id⟩

theorem sameBut_refl (ps : List Part) (s : State) : SameBut ps s s := ⟨rfl, fun p => .inr (by cases p <;> rfl)⟩

theorem count_same (s : State) (b o n : Nat) : SameBut [.regs] s (count s b o n) :=
  ⟨by simp, fun p => by cases p <;> simp [Part.same]⟩

theorem raise_same (s : State) (b : Nat) (f : Nat × Nat) : SameBut [.regs] s (raise s b f) :=
  ⟨by simp, fun p => by cases p <;> simp [Part.same]⟩

theorem veDone_same (s : State) (c : CoreId) (n : Nat) : SameBut [.regs] s (veDone s c n) :=
  sameBut_trans (count_same s _ _ _) (count_same _ _ _ _) (by simp)

@[simp] theorem veDone_mem (s : State) (c : CoreId) (n : Nat) : (veDone s c n).mem = s.mem := by simp [veDone]

@[simp] theorem veDone_cores (s : State) (c : CoreId) (n : Nat) : (veDone s c n).cores = s.cores := by simp [veDone]

theorem leNat_range (l : List Byte) (i : Nat) : leNat (((List.range 4).map fun j => l.getD (4 * i + j) 0)) =
    (l.getD (4 * i) 0).toNat + 256 * ((l.getD (4 * i + 1) 0).toNat + 256 * ((l.getD (4 * i + 2) 0).toNat +
      256 * (l.getD (4 * i + 3) 0).toNat)) := by
  simp [leNat, List.range_succ]

theorem word_of_bytes (a b c d : Byte) :
    (d ++ c ++ b ++ a : BitVec 32) = BitVec.ofNat 32 (a.toNat + 256 * (b.toNat + 256 * (c.toNat + 256 * d.toNat))) := by
  apply BitVec.eq_of_toNat_eq
  have ha := a.isLt; have hb := b.isLt; have hc := c.isLt; have hd := d.isLt
  simp only [BitVec.toNat_append, BitVec.toNat_ofNat]
  rw [← Nat.shiftLeft_add_eq_or_of_lt hc, ← Nat.shiftLeft_add_eq_or_of_lt hb, ← Nat.shiftLeft_add_eq_or_of_lt ha]
  simp only [Nat.shiftLeft_eq]
  omega

/-- The word that four bytes of memory spell. -/
theorem memWord_eq (m : List Host.Cell) (a : Nat) : memWord m a = BitVec.ofNat 32 (leNat (loadBytes m a 4)) := by
  rw [memWord, word_of_bytes]
  simp [loadBytes, leNat, List.range_succ]

/-- The words of bytes that are loaded. -/
theorem leWords_load (m : List Host.Cell) (a n k : Nat) (h : k < n) :
    (leWords (loadBytes m a (4 * n))).getD k 0 = memWord m (a + 4 * k) := by
  have hl : (loadBytes m a (4 * n)).length = 4 * n := by simp [loadBytes]
  have hk : k < (loadBytes m a (4 * n)).length / 4 := by rw [hl]; omega
  have hg : ∀ i, i < 4 * n → (loadBytes m a (4 * n)).getD i 0 = loadByte m (a + i) := by
    intro i hi
    simp [loadBytes, List.getD, hi]
  have : (leWords (loadBytes m a (4 * n))).getD k 0 = BitVec.ofNat 32 (leAt (loadBytes m a (4 * n)) (4 * k) 4) := by
    simp [leWords, List.getD, hk]
  rw [this, leAt, sliceBytes, leNat_range, hg _ (by omega), hg _ (by omega), hg _ (by omega), hg _ (by omega), memWord,
    word_of_bytes]
  simp [Nat.add_assoc]

theorem leBytes_getD (n v i : Nat) (h : i < n) : (leBytes n v).getD i 0 = BitVec.ofNat 8 (v / 256 ^ i) := by
  simp [leBytes, List.getD, h]

/-- A word that has just been stored. -/
theorem memWord_store (m : List Host.Cell) (a : Nat) (w : Word) : memWord (storeBytes m a (leBytes 4 w.toNat)) a = w := by
  have hl : (leBytes 4 w.toNat).length = 4 := by simp [leBytes]
  have h : ∀ i, i < 4 → loadByte (storeBytes m a (leBytes 4 w.toNat)) (a + i) = BitVec.ofNat 8 (w.toNat / 256 ^ i) := by
    intro i hi
    rw [loadByte_storeBytes_self _ _ _ _ (by rw [hl]; exact hi)]
    simp [leBytes]
  have h0 := h 0 (by decide)
  rw [memWord, h 3 (by decide), h 2 (by decide), h 1 (by decide), show loadByte _ a = _ from h0, word_of_bytes]
  apply BitVec.eq_of_toNat_eq
  have := w.isLt
  simp only [BitVec.toNat_ofNat]
  omega

/-- A word elsewhere. -/
theorem memWord_store_other (m : List Host.Cell) (a b : Nat) (bs : List Byte) (h : b + 4 ≤ a ∨ a + bs.length ≤ b) :
    memWord (storeBytes m a bs) b = memWord m b := by
  have k : ∀ i : Nat, i < 4 → loadByte (storeBytes m a bs) (b + i) = loadByte m (b + i) := fun i hi =>
    loadByte_storeBytes_other _ _ _ _ (by omega)
  have k0 := k 0 (by omega)
  simp only [memWord]
  rw [k 3 (by omega), k 2 (by omega), k 1 (by omega), show loadByte _ b = _ from k0]
  rfl

theorem storeBytes_append (m : List Host.Cell) (a : Nat) (bs cs : List Byte) :
    storeBytes m a (bs ++ cs) = storeBytes (storeBytes m a bs) (a + bs.length) cs := by
  induction bs generalizing m a with
  | nil => rfl
  | cons b r ih =>
    simp only [List.cons_append, storeBytes, List.length_cons]
    rw [ih, Nat.add_right_comm, Nat.add_assoc]

theorem wordBytes_length (ws : List Word) : (wordBytes ws).length = 4 * ws.length := by
  induction ws with
  | nil => rfl
  | cons w r ih => simp [wordBytes, leBytes] at ih ⊢; omega

/-- The words of a list that has just been stored. -/
theorem memWord_storeWords (m : List Host.Cell) (a : Nat) (ws : List Word) (k : Nat) (h : k < ws.length) :
    memWord (storeBytes m a (wordBytes ws)) (a + 4 * k) = ws.getD k 0 := by
  induction ws generalizing m a k with
  | nil => simp at h
  | cons w r ih =>
    have e : wordBytes (w :: r) = leBytes 4 w.toNat ++ wordBytes r := by simp [wordBytes]
    have hl : (leBytes 4 w.toNat).length = 4 := by simp [leBytes]
    rw [e, storeBytes_append, hl]
    cases k with
    | zero =>
      rw [memWord_store_other _ _ _ _ (by omega)]
      simpa using memWord_store m a w
    | succ k =>
      have := ih (storeBytes m a (leBytes 4 w.toNat)) (a + 4) k (by simpa using h)
      rw [show a + 4 * (k + 1) = a + 4 + 4 * k from by omega, this]
      simp

theorem leWords_length (bs : List Byte) : (leWords bs).length = bs.length / 4 := by simp [leWords]

/-- What ST does. -/
theorem st_does (s : State) (u : SlotId) (v : VReg) (off : Nat) :
    let t := veDone (writeScratch s u.core off (wordBytes (getLanes s u v))) u.core 1
    (∀ k, k < 64 → elemAt t u.core off k = lane s u v k) ∧
      BytesBut (scratchAddr u.core off) 256 s t ∧ PoisonBut u.core s t ∧
      VeCounted u.core 1 s t ∧ RegsBut (veRegs u.core) s t ∧ SameBut [.mem, .regs, .cores] s t := by
  refine ⟨fun k hk => ?_, ?_, ?_, ?_, ?_, ?_⟩
  · have := memWord_storeWords s.mem (scratchAddr u.core off) (getLanes s u v) k (by simpa using hk)
    simp only [elemAt, veDone_mem, writeScratch_mem]
    exact this
  · intro x hx
    rw [veDone_mem, writeScratch_mem]
    exact loadByte_storeBytes_other _ _ _ _ (by rw [wordBytes_length, getLanes_length]; exact hx)
  · exact poisonBut_congr (writeScratch_poison ..) (veDone_cores ..)
  · have h1 := veCounted_veDone (writeScratch s u.core off (wordBytes (getLanes s u v))) u.core 1
    simp only [VeCounted, Counted, rawReg_congr (writeScratch_regs ..)] at h1
    exact h1
  · intro a
    have h1 := regsBut_veDone (writeScratch s u.core off (wordBytes (getLanes s u v))) u.core 1 a
    rw [rawReg_congr (writeScratch_regs ..)] at h1
    exact h1
  · exact sameBut_trans (sameBut_mono (writeScratch_same ..) (by simp : ∀ p ∈ [Part.mem, .cores], p ∈ [Part.mem, .regs, .cores]))
      (sameBut_mono (veDone_same ..) (by simp)) (by simp)

theorem foldl_range_filter {α : Type} (g : α → Nat → α) (p : Nat → Bool) (n : Nat) (a : α) :
    (List.range n).foldl (fun acc k => if p k then g acc k else acc) a = ((List.range n).filter p).foldl g a := by
  rw [List.foldl_filter]

/-- Within scratch the core window is scratch. -/
theorem writeWindow_inScratch (s : State) (c : CoreId) (off : Nat) (bs : List Byte) (h : off + bs.length ≤ 0x100000) :
    writeWindow s c off bs = writeScratch s c off bs := by
  simp [writeWindow, inScratch, h]

theorem readWindow_inScratch (s : State) (c : CoreId) (off n : Nat) (h : off + n ≤ 0x100000) :
    readWindow s c off n = readScratch s c off n := by
  simp [readWindow, inScratch, h]

/-- The memory after the writes of a scatter: each element has been joined with the lanes that name it, in order. -/
theorem scatterLanes_elem (c : CoreId) (region n : Nat) (f : Word → Word → Word) (l : List (Word × Word)) (s : State)
    (j : Nat) (hj : j < n) (hr : region + 4 * n ≤ 0x100000) : elemAt (scatterLanes s c region n f l) c region j =
      (l.filter fun e => e.1.toNat = j).foldl (fun acc e => f acc e.2) (elemAt s c region j) := by
  induction l generalizing s with
  | nil => rfl
  | cons e r ih =>
    obtain ⟨i, v⟩ := e
    unfold scatterLanes
    split
    · rename_i hi
      simp only
      rw [ih]
      have hb : scratchAddr c (region + 4 * i.toNat) = scratchAddr c region + 4 * i.toNat := by
        simp [scratchAddr, Nat.add_assoc]
      have hl : ∀ w : Word, (leBytes 4 w.toNat).length = 4 := fun w => by simp [leBytes]
      rw [readWindow_inScratch _ _ _ _ (by omega), writeWindow_inScratch _ _ _ _ (by rw [hl]; omega)]
      by_cases h : i.toNat = j
      · subst h
        simp only [elemAt, writeScratch_mem, hb, memWord_store, decide_true, List.filter_cons, if_true, List.foldl_cons]
        simp [readScratch, memWord_eq, hb]
      · have ho : elemAt (writeScratch s c (region + 4 * i.toNat) (leBytes 4
            (f (BitVec.ofNat 32 (leNat (readScratch s c (region + 4 * i.toNat) 4))) v).toNat)) c region j =
            elemAt s c region j := by
          simp only [elemAt, writeScratch_mem, hb]
          exact memWord_store_other _ _ _ _ (by rw [hl]; omega)
        rw [ho]
        simp [h]
    · rename_i hi
      have h : ¬ i.toNat = j := by omega
      rw [ih]
      simp [h]

theorem scatterLanes_kept (c : CoreId) (region n : Nat) (f : Word → Word → Word) (l : List (Word × Word)) (s : State)
    (hr : region + 4 * n ≤ 0x100000) :
    PoisonBut c s (scatterLanes s c region n f l) ∧ (scatterLanes s c region n f l).regs = s.regs ∧
    SameBut [.mem, .cores] s (scatterLanes s c region n f l) ∧
    BytesBut (scratchAddr c region) (4 * n) s (scatterLanes s c region n f l) := by
  induction l generalizing s with
  | nil => exact ⟨PoisonBut_refl _ _, rfl, sameBut_refl _ _, fun _ _ => rfl⟩
  | cons e r ih =>
    obtain ⟨i, v⟩ := e
    unfold scatterLanes
    split
    · rename_i hi
      simp only
      rw [readWindow_inScratch _ _ _ _ (by omega), writeWindow_inScratch _ _ _ _ (by simp [leBytes]; omega)]
      obtain ⟨h1, h2, h3, h4⟩ := ih (writeScratch s c (region + 4 * i.toNat) (leBytes 4
        (f (BitVec.ofNat 32 (leNat (readScratch s c (region + 4 * i.toNat) 4))) v).toNat))
      refine ⟨poisonBut_trans (writeScratch_poison ..) h1, h2.trans (writeScratch_regs ..),
        sameBut_trans (writeScratch_same ..) h3 (fun p hp => hp), fun x hx => ?_⟩
      rw [h4 x hx, writeScratch_mem]
      refine loadByte_storeBytes_other _ _ _ _ ?_
      have hl : ∀ w : Word, (leBytes 4 w.toNat).length = 4 := fun w => by simp [leBytes]
      rw [hl]
      simp only [scratchAddr] at hx ⊢
      omega
    · exact ih s

/-! ### indices outside the region -/

theorem oobCount_eq (s : State) (o : VeIndexed) : oobCount (getLanes s o.at_ o.index) o.count = oobLanes s o := by
  have h : getLanes s o.at_ o.index = (List.range 64).map (lane s o.at_ o.index) := by
    apply List.ext_getElem
    · simp
    · intro k h1 h2
      have hk : k < 64 := by simpa using h1
      simp [lane, List.getD, hk]
  rw [oobCount, h, List.filter_map, List.length_map]
  rfl

theorem satAdd_toNat (v : Word) (n : Nat) : (satAdd v n).toNat = min (v.toNat + n) 0xFFFFFFFF := by
  have := v.isLt
  rw [satAdd, BitVec.toNat_ofNat]
  omega

theorem veOob_regs (s : State) (u : SlotId) (n : Nat) (a : Nat) (h1 : a ≠ coreRegBase u.core + Ctr.VE_IDX_OOB_CNT)
    (h2 : a ≠ coreRegBase u.core + Flag.core_IDX_OOB.1) : rawReg (veOob s u n) a = rawReg s a := by
  unfold veOob
  split
  · rfl
  · simp only
    rw [rawReg_congr (setSlot_regs ..), rawReg_raise_other _ h2, rawReg_count_other _ h1]

theorem veOob_noted (s : State) (u : SlotId) (n : Nat) : OobNoted u n s (veOob s u n) := by
  unfold veOob
  split
  · rename_i h
    subst h
    exact ⟨by rw [Counted, satAdd_zero], fun h => absurd h (Nat.lt_irrefl 0), fun _ _ => rfl, rfl⟩
  · simp only
    have hne : coreRegBase u.core + Ctr.VE_IDX_OOB_CNT ≠ coreRegBase u.core + Flag.core_IDX_OOB.1 := by
      simp [Ctr.VE_IDX_OOB_CNT, Flag.core_IDX_OOB]
    have hb : Flag.core_IDX_OOB.2 < 32 := by decide
    have hbit : ∀ b, (BitVec.ofNat 32 (2 ^ Flag.core_IDX_OOB.2)).getLsbD b = decide (b = Flag.core_IDX_OOB.2) := by
      intro b
      rw [BitVec.getLsbD_ofNat, Nat.testBit_two_pow]
      by_cases h : Flag.core_IDX_OOB.2 = b
      · subst h; simp [hb]
      · simp [h, Ne.symm h]
    refine ⟨?_, fun _ => ?_, fun b h => ?_, ?_⟩
    · rw [Counted, rawReg_congr (setSlot_regs ..), rawReg_raise_other _ hne, rawReg_count_self]
    · rw [rawReg_congr (setSlot_regs ..), rawReg_raise_self, BitVec.getLsbD_or, hbit]
      simp
    · rw [rawReg_congr (setSlot_regs ..), rawReg_raise_self, BitVec.getLsbD_or, hbit,
        rawReg_count_other _ (Ne.symm hne)]
      simp [h]
    · rw [getSlot_setSlot_self]
      simp [tupd, cntIdxOob, getSlot_congr (raise_cores ..), getSlot_congr (count_cores ..)]

theorem veOob_slots (s : State) (u : SlotId) (n : Nat) :
    (∀ v, v ≠ u → getSlot (veOob s u n) v = getSlot s v) ∧
    { getSlot (veOob s u n) u with counts := [] } = { getSlot s u with counts := [] } ∧
    (∀ c, { getCore (veOob s u n) c with slots := [] } = { getCore s c with slots := [] }) ∧
    SameBut [.regs, .cores] s (veOob s u n) := by
  unfold veOob
  split
  · exact ⟨fun _ _ => rfl, rfl, fun _ => rfl, sameBut_refl _ _⟩
  · simp only
    have hc : ∀ v, getSlot (raise (count s (coreRegBase u.core) Ctr.VE_IDX_OOB_CNT n) (coreRegBase u.core)
      Flag.core_IDX_OOB) v = getSlot s v := fun v => by rw [getSlot_congr (raise_cores ..), getSlot_congr (count_cores ..)]
    refine ⟨fun v hv => ?_, ?_, fun c => ?_, by simp, fun p => by cases p <;> simp [Part.same]⟩
    · rw [getSlot_setSlot_other _ _ hv, hc]
    · rw [getSlot_setSlot_self, hc]
    · rw [getCore_setSlot, getCore_congr (raise_cores ..), getCore_congr (count_cores ..)]

theorem veOob_vregs (s : State) (u : SlotId) (n : Nat) (v : VReg) : getLanes (veOob s u n) u v = getLanes s u v := by
  apply getLanes_congr
  have h := (veOob_slots s u n).2.1
  simp only [TaskSlot.mk.injEq] at h
  simp [h]

theorem veOob_mem (s : State) (u : SlotId) (n : Nat) : (veOob s u n).mem = s.mem := by
  have := (veOob_slots s u n).2.2.2.2 .mem
  simpa [Part.same] using this

theorem noPoison_congr {x y : CoreState} (h : { x with slots := [] } = { y with slots := [] }) :
    { x with slots := [], poisonedWords := [] } = { y with slots := [], poisonedWords := [] } := by
  simp only [CoreState.mk.injEq] at h ⊢
  simp [h]

theorem indexedRegs_but {c : CoreId} {s t : State}
    (h : ∀ a, a ≠ coreRegBase c + Ctr.VE_BUSY_CNT → a ≠ coreRegBase c + Ctr.VE_INSN_CNT →
      a ≠ coreRegBase c + Ctr.VE_IDX_OOB_CNT → a ≠ coreRegBase c + Flag.core_IDX_OOB.1 → rawReg t a = rawReg s a) :
    RegsBut (indexedRegs c) s t := by
  intro a
  by_cases h1 : a = coreRegBase c + Ctr.VE_BUSY_CNT
  · exact .inl (by simp [indexedRegs, h1])
  by_cases h2 : a = coreRegBase c + Ctr.VE_INSN_CNT
  · exact .inl (by simp [indexedRegs, h2])
  by_cases h3 : a = coreRegBase c + Ctr.VE_IDX_OOB_CNT
  · exact .inl (by simp [indexedRegs, h3])
  by_cases h4 : a = coreRegBase c + Flag.core_IDX_OOB.1
  · exact .inl (by simp [indexedRegs, h4])
  exact .inr (h a h1 h2 h3 h4)

theorem veDone_reg (s : State) (c : CoreId) (n a : Nat) (h1 : a ≠ coreRegBase c + Ctr.VE_BUSY_CNT)
    (h2 : a ≠ coreRegBase c + Ctr.VE_INSN_CNT) : rawReg (veDone s c n) a = rawReg s a := by
  rw [veDone, rawReg_count_other _ h2, rawReg_count_other _ h1]

theorem oobNoted_from {u : SlotId} {n : Nat} {r s t : State} (h : OobNoted u n s t)
    (h1 : rawReg s (coreRegBase u.core + Ctr.VE_IDX_OOB_CNT) = rawReg r (coreRegBase u.core + Ctr.VE_IDX_OOB_CNT))
    (h2 : rawReg s (coreRegBase u.core + Flag.core_IDX_OOB.1) = rawReg r (coreRegBase u.core + Flag.core_IDX_OOB.1))
    (h3 : (getSlot s u).counts = (getSlot r u).counts) : OobNoted u n r t := by
  obtain ⟨a, b, c, d⟩ := h
  refine ⟨?_, b, ?_, ?_⟩
  · rw [Counted] at a ⊢
    rw [a, h1]
  · intro k hk
    rw [c k hk, h2]
  · rw [d, h3]

theorem zip_lanes (s : State) (u : SlotId) (a b : VReg) :
    (getLanes s u a).zip (getLanes s u b) = (List.range 64).map fun k => (lane s u a k, lane s u b k) := by
  apply List.ext_getElem
  · simp
  · intro k h1 h2
    have hk : k < 64 := by simpa using h2
    simp [lane, List.getD, hk]

/-- Nothing poisoned is met where no word is poisoned. -/
theorem meetPoison_nil (s : State) (c : CoreId) : meetPoison s c [] = s := rfl

theorem poisonedIn_clean {s : State} {c : CoreId} (h : (getCore s c).poisonedWords = []) (off n : Nat) :
    poisonedIn s c off n = [] := by
  simp [poisonedIn, h]

theorem takeWindow_clean {s : State} {c : CoreId} (h : (getCore s c).poisonedWords = []) (off n : Nat) :
    takeWindow s c off n = readWindow s c off n := by
  simp [takeWindow, poisonedIn_clean h]

/-- What an instruction does that the engine works on, with its accesses allowed and nothing poisoned met. -/
theorem onWindow_next {s : State} {u : SlotId} {r : State → List (Nat × Nat)} {f : State → State} (w : VeWorks s u)
    (a : accessAllowed s u (r s) = true) : onWindow u r f s = .next (f s) := by
  have h : unitActive (getSlot s u) .vector = true := by simpa [unitActive, VeWorks, and_assoc] using w
  simp [onWindow, onUnit, h, a]

/-- What both scatters do. -/
theorem scatter_does (f : Word → Word → Word) (s : State) (o : VeIndexed) (h : o.region + 4 * o.count ≤ 0x100000)
    (m : MayIndex s o) :
    ∃ t, veScatterWith f o s = .next t ∧
      (∀ j, j < o.count → elemAt t o.at_.core o.region j =
        ((List.range 64).filter fun k => (lane s o.at_ o.index k).toNat = j).foldl
          (fun acc k => f acc (lane s o.at_ o.data k)) (elemAt s o.at_.core o.region j)) ∧
      BytesBut (scratchAddr o.at_.core o.region) (4 * o.count) s t ∧
      OobNoted o.at_ (oobLanes s o) s t ∧ (∀ v, getLanes t o.at_ v = getLanes s o.at_ v) ∧
      IndexedKept o.at_ [.mem, .regs, .cores] s t := by
  let y := scatterLanes s o.at_.core o.region o.count f ((getLanes s o.at_ o.index).zip (getLanes s o.at_ o.data))
  obtain ⟨h1, h2, h3, h4⟩ := scatterLanes_kept o.at_.core o.region o.count f
    ((getLanes s o.at_ o.index).zip (getLanes s o.at_ o.data)) s h
  let n := indexedCycles (getLanes s o.at_ o.index) o.region o.count
  let z := veDone y o.at_.core n
  have hslot : ∀ v, getSlot z v = getSlot s v := fun v => (getSlot_congr (veDone_cores ..) v).trans (poison_slots h1 v)
  have hs := veOob_slots z o.at_ (oobCount (getLanes s o.at_ o.index) o.count)
  have hreg : ∀ a, a ≠ coreRegBase o.at_.core + Ctr.VE_BUSY_CNT → a ≠ coreRegBase o.at_.core + Ctr.VE_INSN_CNT →
      rawReg z a = rawReg s a := fun a k1 k2 => (veDone_reg _ _ _ _ k1 k2).trans (rawReg_congr h2 a)
  refine ⟨veOob z o.at_ (oobCount (getLanes s o.at_ o.index) o.count), ?_, fun j hj => ?_, fun x hx => ?_, ?_,
    fun v => ?_, ?_⟩
  · have e : indexedPoison s o.at_.core (getLanes s o.at_ o.index) o.region o.count = [] := by
      have e : (((getLanes s o.at_ o.index).filter fun i => i.toNat < o.count).flatMap fun i =>
          poisonedIn s o.at_.core (o.region + 4 * i.toNat) 4) = [] :=
        List.flatMap_eq_nil_iff.mpr fun _ _ => poisonedIn_clean m.clean ..
      rw [indexedPoison, e, List.eraseDups_nil]
    rw [veScatterWith, onWindow_next m.works m.allowed]
    simp only [afterPoison, e, if_true, n, z, y]
  · have e : (veOob z o.at_ (oobCount (getLanes s o.at_ o.index) o.count)).mem = y.mem := by
      rw [veOob_mem]; exact veDone_mem ..
    have := scatterLanes_elem o.at_.core o.region o.count f
      ((getLanes s o.at_ o.index).zip (getLanes s o.at_ o.data)) s j hj h
    rw [elemAt] at this ⊢
    rw [e, this, zip_lanes, List.filter_map, List.foldl_map]
    rfl
  · rw [veOob_mem]
    exact (congrArg (fun m => loadByte m x) (veDone_mem y o.at_.core n)).trans (h4 x hx)
  · rw [← oobCount_eq]
    refine oobNoted_from (veOob_noted ..) (hreg _ ?_ ?_) (hreg _ ?_ ?_) (by rw [hslot]) <;>
      simp [Ctr.VE_BUSY_CNT, Ctr.VE_INSN_CNT, Ctr.VE_IDX_OOB_CNT, Flag.core_IDX_OOB]
  · rw [veOob_vregs]
    exact getLanes_congr _ (by rw [hslot]) v
  · refine ⟨fun v hv => (hs.1 v hv).trans (hslot v), ?_, fun c => ?_, indexedRegs_but ?_, ?_⟩
    · have h5 := hs.2.1
      rw [hslot] at h5
      simp only [TaskSlot.mk.injEq] at h5 ⊢
      simp [h5]
    · refine (noPoison_congr (hs.2.2.1 c)).trans ?_
      rw [getCore_congr (veDone_cores ..)]
      exact poison_cores h1 c
    · intro a k1 k2 k3 k4
      rw [veOob_regs _ _ _ _ k3 k4, hreg a k1 k2]
    · exact sameBut_trans (sameBut_trans (qs := [.mem, .regs, .cores]) h3 (sameBut_mono (veDone_same ..) (by simp)) (by simp))
        (sameBut_mono hs.2.2.2 (by simp)) (fun p hp => hp)

theorem foldl_last (v : Nat → Word) : ∀ (l : List Nat) (a : Word), (∀ k ∈ l, l.Pairwise (· < ·) → True) →
    l.foldl (fun _ k => v k) a = match l.getLast? with | some k => v k | none => a
  | [], a, _ => rfl
  | k :: r, a, _ => by
    rw [List.foldl_cons, foldl_last v r (v k) (fun _ _ _ => trivial)]
    cases r with
    | nil => rfl
    | cons x y => simp [List.getLast?_cons]

end Sys2Proof.Machine
end

