-- ==== Sys2Proof/Laws/Merge.lean ====
section
/-! SUPPORT. Merges: what the operations do. -/

-- one theorem after the other: proofs side by side would need more memory than the check allows
set_option Elab.async false

namespace Sys2Proof.Machine

open Sys2Proof.Safety

theorem descents_zero : ∀ (l : List (Nat × Nat)), descents l = 0 → l.Pairwise (fun a b => a.1 < b.1)
  | [], _ => .nil
  | [a], _ => by simp
  | a :: b :: r, h => by
    simp only [descents] at h
    have h1 : a.1 < b.1 := by
      apply Classical.byContradiction
      intro hn
      rw [if_neg hn] at h
      omega
    have h2 := descents_zero (b :: r) (by omega)
    refine List.pairwise_cons.mpr ⟨fun e he => ?_, h2⟩
    rcases List.mem_cons.mp he with rfl | he
    · exact h1
    · exact Nat.lt_trans h1 ((List.pairwise_cons.mp h2).1 e he)

/-- The entries of a stream that does not break order ascend. -/
theorem readStream_ascends (s : State) (o : SparseOp) (r k : Nat) (h : (readStream s o r k).descends = false) :
    (readStream s o r k).entries.Pairwise (fun a b => a.1 < b.1) := by
  revert h
  unfold readStream
  simp only
  split
  · intro _
    simp
  · intro h
    exact (descents_zero _ (by simpa using h)).filter _

/-- The matched pairs of ascending streams are the places of the indices that both hold. -/
theorem matchPairs_mem : ∀ (n : Nat) (x y : List (Nat × Nat)), x.length + y.length ≤ n →
    x.Pairwise (fun a b => a.1 < b.1) → y.Pairwise (fun a b => a.1 < b.1) → ∀ p q,
    (p, q) ∈ matchPairs n x y ↔ ∃ j, (j, p) ∈ x ∧ (j, q) ∈ y
  | 0, x, y, h, _, _, p, q => by
    have : x = [] := List.length_eq_zero_iff.mp (by omega)
    simp [matchPairs, this]
  | n + 1, [], y, _, _, _, p, q => by simp [matchPairs]
  | n + 1, a :: as, [], _, _, _, p, q => by simp [matchPairs]
  | n + 1, a :: as, b :: bs, h, hx, hy, p, q => by
    obtain ⟨hx1, hx2⟩ := List.pairwise_cons.mp hx
    obtain ⟨hy1, hy2⟩ := List.pairwise_cons.mp hy
    simp only [List.length_cons] at h
    unfold matchPairs
    split
    · rename_i e
      rw [List.mem_cons, matchPairs_mem n as bs (by omega) hx2 hy2]
      constructor
      · rintro (h1 | ⟨j, h1, h2⟩)
        · simp only [Prod.mk.injEq] at h1
          exact ⟨a.1, by simp [h1.1], by rw [e]; simp [h1.2]⟩
        · exact ⟨j, by simp [h1], by simp [h2]⟩
      · rintro ⟨j, h1, h2⟩
        rcases List.mem_cons.mp h1 with h1 | h1 <;> rcases List.mem_cons.mp h2 with h2 | h2
        · left; simp [← h1, ← h2]
        · have := hy1 _ h2; simp only at this; rw [← h1] at e; simp only at e; omega
        · have := hx1 _ h1; simp only at this; rw [← h2] at e; simp only at e; omega
        · exact .inr ⟨j, h1, h2⟩
    · split
      · rename_i e e2
        rw [matchPairs_mem n as (b :: bs) (by simp; omega) hx2 hy]
        constructor
        · rintro ⟨j, h1, h2⟩
          exact ⟨j, by simp [h1], h2⟩
        · rintro ⟨j, h1, h2⟩
          rcases List.mem_cons.mp h1 with h1 | h1
          · exfalso
            rcases List.mem_cons.mp h2 with h2 | h2
            · rw [← h1, ← h2] at e; simp at e
            · have := hy1 _ h2; rw [← h1] at e2; simp only at this e2; omega
          · exact ⟨j, h1, h2⟩
      · rename_i e e2
        rw [matchPairs_mem n (a :: as) bs (by simp; omega) hx hy2]
        constructor
        · rintro ⟨j, h1, h2⟩
          exact ⟨j, h1, by simp [h2]⟩
        · rintro ⟨j, h1, h2⟩
          rcases List.mem_cons.mp h2 with h2 | h2
          · exfalso
            rcases List.mem_cons.mp h1 with h1 | h1
            · rw [← h1, ← h2] at e; simp at e
            · have := hx1 _ h1; rw [← h2] at e e2; simp only at this e e2; omega
          · exact ⟨j, h1, h2⟩

/-! ### the sum of INT8 products -/

/-- Additions modulo `2^32` over eight lanes are one sum. -/
theorem mergeSum_int (prods : List Word) : mergeSum (fun a b => a + b) 0 prods = prods.foldl (fun a b => a + b) 0 := by
  have hl : ∀ n, n ≤ prods.length → ∀ z : Nat → Word,
      (∀ lane, z lane = ((List.range n).filter fun m => m % 8 == lane).foldl (fun acc m => acc + prods.getD m 0) 0) →
      ((z 0 + z 1) + (z 2 + z 3)) + ((z 4 + z 5) + (z 6 + z 7)) = (prods.take n).foldl (fun a b => a + b) 0 := by
    intro n
    induction n with
    | zero =>
      intro _ z hz
      simp [hz]
    | succ n ih =>
      intro hn z hz
      have h1 := ih (by omega) (fun lane => ((List.range n).filter fun m => m % 8 == lane).foldl
        (fun acc m => acc + prods.getD m 0) 0) (fun _ => rfl)
      have hlt : n < prods.length := by omega
      have ht : prods.take (n + 1) = prods.take n ++ [prods.getD n 0] := by
        rw [List.take_add_one, List.getElem?_eq_getElem hlt]
        simp [List.getD, hlt]
      rw [ht, List.foldl_append, ← h1]
      have hz' : ∀ lane, z lane = ((List.range n).filter fun m => m % 8 == lane).foldl
          (fun acc m => acc + prods.getD m 0) 0 + (if n % 8 = lane then prods.getD n 0 else 0) := by
        intro lane
        rw [hz, List.range_succ, List.filter_append, List.foldl_append]
        by_cases h : n % 8 = lane
        · simp [h]
        · simp [h]
      simp only [hz', List.foldl_cons, List.foldl_nil]
      have : n % 8 = 0 ∨ n % 8 = 1 ∨ n % 8 = 2 ∨ n % 8 = 3 ∨ n % 8 = 4 ∨ n % 8 = 5 ∨ n % 8 = 6 ∨ n % 8 = 7 := by omega
      rcases this with h | h | h | h | h | h | h | h <;> simp [h] <;> ac_rfl
  have := hl prods.length (Nat.le_refl _) (fun lane => mergeLane (fun a b => a + b) 0 prods lane) (fun _ => rfl)
  rw [List.take_length] at this
  exact this

theorem foldl_ofInt (g : Nat × Nat → Int) : ∀ (l : List (Nat × Nat)) (n : Int),
    (l.map fun p => BitVec.ofInt 32 (g p)).foldl (fun a b => a + b) (BitVec.ofInt 32 n) =
      BitVec.ofInt 32 (l.foldl (fun n p => n + g p) n)
  | [], _ => rfl
  | p :: r, n => by
    simp only [List.map_cons, List.foldl_cons]
    rw [← BitVec.ofInt_add, foldl_ofInt g r]

theorem mergeElement_int8 (s : State) (a b : Desc) (x y : Stream) (h : a.format = fmtInt8) :
    mergeElement s a b x y = BitVec.ofInt 32 (int8Sum s a b
      (matchPairs (x.entries.length + y.entries.length) x.entries y.entries)) := by
  have e1 : mergeAdd (a.format == fmtInt8) = fun u v => u + v := by
    funext u v
    simp [mergeAdd, h]
  have e2 : pairProduct s a b = fun p => BitVec.ofInt 32 (signedOf 8 (elemBits s a [p.1]) * signedOf 8 (elemBits s b [p.2])) := by
    funext p
    simp [pairProduct, h]
  rw [mergeElement, e1, e2, mergeSum_int, int8Sum]
  exact foldl_ofInt _ _ 0

/-! ### the counters of a merge -/

theorem slotCount_regs (s : State) (t : SlotId) (k n : Nat) : (slotCount s t k n).regs = s.regs := by
  unfold slotCount
  simp only
  split <;> simp

theorem slotCount_kept (s : State) (t : SlotId) (k n : Nat) :
    (∀ v, v ≠ t → getSlot (slotCount s t k n) v = getSlot s v) ∧
    { getSlot (slotCount s t k n) t with counts := [] } = { getSlot s t with counts := [] } ∧
    (∀ c, { getCore (slotCount s t k n) c with slots := [] } = { getCore s c with slots := [] }) ∧
    SameBut [.cores] s (slotCount s t k n) := by
  unfold slotCount
  simp only
  split
  · exact ⟨fun _ _ => rfl, rfl, fun _ => rfl, sameBut_refl _ _⟩
  · refine ⟨fun v hv => getSlot_setSlot_other _ _ hv, ?_, fun c => getCore_setSlot .., by simp,
      fun p => by cases p <;> simp [Part.same]⟩
    rw [getSlot_setSlot_self]

/-- An event counted, flagged and counted for the task, where there is one. -/
theorem eventCount_does (s : State) (t : SlotId) (b o : Nat) (f : Nat × Nat) (k n : Nat) (h : o ≠ f.1) :
    let z := if n = 0 then s else slotCount (raise (count s b o n) b f) t k n
    Counted (b + o) n s z ∧ (∀ a, a ≠ b + o → a ≠ b + f.1 → rawReg z a = rawReg s a) ∧
    (∀ v, v ≠ t → getSlot z v = getSlot s v) ∧
    { getSlot z t with counts := [] } = { getSlot s t with counts := [] } ∧
    (∀ c, { getCore z c with slots := [] } = { getCore s c with slots := [] }) ∧ SameBut [.regs, .cores] s z := by
  simp only
  split
  · rename_i h0
    subst h0
    exact ⟨by rw [Counted, satAdd_zero], fun _ _ _ => rfl, fun _ _ => rfl, rfl, fun _ => rfl, sameBut_refl _ _⟩
  · obtain ⟨h1, h2, h3, h4⟩ := slotCount_kept (raise (count s b o n) b f) t k n
    have hs : ∀ v, getSlot (raise (count s b o n) b f) v = getSlot s v := fun v => by
      rw [getSlot_congr (raise_cores ..), getSlot_congr (count_cores ..)]
    have hc : ∀ c, getCore (raise (count s b o n) b f) c = getCore s c := fun v => by
      rw [getCore_congr (raise_cores ..), getCore_congr (count_cores ..)]
    refine ⟨?_, fun a ha hf => ?_, fun v hv => (h1 v hv).trans (hs v), by rw [h2, hs], fun c => by rw [h3, hc], ?_⟩
    · rw [Counted, rawReg_congr (slotCount_regs ..), rawReg_raise_other _ (by omega), rawReg_count_self]
    · rw [rawReg_congr (slotCount_regs ..), rawReg_raise_other _ hf, rawReg_count_other _ ha]
    · exact sameBut_trans (sameBut_trans (sameBut_mono (count_same ..) (by simp)) (sameBut_mono (raise_same ..) (by simp))
        (fun p hp => hp)) (sameBut_mono h4 (by simp : ∀ p ∈ [Part.cores], p ∈ [Part.regs, .cores])) (fun p hp => hp)

theorem drawChoice_same (s : State) : SameBut [.freeCount] s (drawChoice s).2 :=
  ⟨rfl, fun p => by cases p <;> simp [Part.same]⟩

theorem countMerge_does (s : State) (t : SlotId) (x y : Stream) (pairs : Nat) : ∃ n,
    (max x.read y.read + 7) / 8 ≤ n ∧ n ≤ (x.read + 7) / 8 + (y.read + 7) / 8 ∧
    Counted (spRegBase t.core + Ctr.JIG_MATCH_CNT) pairs s (countMerge s t x y pairs) ∧
    Counted (spRegBase t.core + Ctr.JIG_BUSY_CNT) n s (countMerge s t x y pairs) ∧
    Counted (spRegBase t.core + Ctr.SP_IDX_OOB_CNT) (x.oob + y.oob) s (countMerge s t x y pairs) ∧
    Counted (spRegBase t.core + Ctr.SP_ORDER_BREAK_CNT) (x.breaks + y.breaks) s (countMerge s t x y pairs) ∧
    VeCounted t.core n s (countMerge s t x y pairs) ∧ RegsBut (mergeRegs t.core) s (countMerge s t x y pairs) ∧
    (∀ v, v ≠ t → getSlot (countMerge s t x y pairs) v = getSlot s v) ∧
    { getSlot (countMerge s t x y pairs) t with counts := [] } = { getSlot s t with counts := [] } ∧
    (∀ c, { getCore (countMerge s t x y pairs) c with slots := [] } = { getCore s c with slots := [] }) ∧
    SameBut [.freeCount, .regs, .cores] s (countMerge s t x y pairs) := by
  let b := spRegBase t.core
  let lo := (max x.read y.read + 7) / 8
  let hi := (x.read + 7) / 8 + (y.read + 7) / 8
  let s1 := count s b Ctr.JIG_MATCH_CNT pairs
  let n := lo + (drawChoice s1).1 % (hi - lo + 1)
  let s2 := veDone (count (drawChoice s1).2 b Ctr.JIG_BUSY_CNT n) t.core n
  let s3 := if x.oob + y.oob = 0 then s2
    else slotCount (raise (count s2 b Ctr.SP_IDX_OOB_CNT (x.oob + y.oob)) b Flag.sp_IDX_OOB) t cntIdxOob (x.oob + y.oob)
  have e : countMerge s t x y pairs = if x.breaks + y.breaks = 0 then s3
    else slotCount (raise (count s3 b Ctr.SP_ORDER_BREAK_CNT (x.breaks + y.breaks)) b Flag.sp_ORDER_BREAK) t
      cntOrderBreak (x.breaks + y.breaks) := rfl
  rw [e]
  obtain ⟨a1, a2, a3, a4, a5, a6⟩ := eventCount_does s2 t b Ctr.SP_IDX_OOB_CNT Flag.sp_IDX_OOB cntIdxOob (x.oob + y.oob)
    (by decide)
  obtain ⟨b1, b2, b3, b4, b5, b6⟩ := eventCount_does s3 t b Ctr.SP_ORDER_BREAK_CNT Flag.sp_ORDER_BREAK cntOrderBreak
    (x.breaks + y.breaks) (by decide)
  have hlh : lo ≤ hi := by
    simp only [lo, hi]
    omega
  have hn : lo ≤ n ∧ n ≤ hi := by
    have := Nat.mod_lt (drawChoice s1).1 (show 0 < hi - lo + 1 by omega)
    simp only [n]
    omega
  have apart : ∀ k l, k < 0x400 → l < 0x400 → b + k ≠ coreRegBase t.core + l := by
    intro k l hk hl
    simp only [b, spRegBase, coreRegBase]
    omega
  have ve : ∀ k, k < 0x400 → rawReg s2 (b + k) = rawReg (count (drawChoice s1).2 b Ctr.JIG_BUSY_CNT n) (b + k) := fun k hk =>
    veDone_reg _ _ _ _ (apart _ _ hk (by decide)) (apart _ _ hk (by decide))
  have r1 : ∀ a, a ≠ b + Ctr.JIG_MATCH_CNT → a ≠ b + Ctr.JIG_BUSY_CNT → a ≠ coreRegBase t.core + Ctr.VE_BUSY_CNT →
      a ≠ coreRegBase t.core + Ctr.VE_INSN_CNT → rawReg s2 a = rawReg s a := fun a h1 h2 h3 h4 => by
    rw [veDone_reg _ _ _ _ h3 h4, rawReg_count_other _ h2, rawReg_congr (drawChoice_regs ..), rawReg_count_other _ h1]
  have c2 : s2.cores = s.cores := by simp [s2, s1]
  have n1 : Ctr.JIG_MATCH_CNT ≠ Ctr.JIG_BUSY_CNT ∧ Ctr.JIG_MATCH_CNT ≠ Ctr.SP_IDX_OOB_CNT ∧
    Ctr.JIG_MATCH_CNT ≠ Ctr.SP_ORDER_BREAK_CNT ∧ Ctr.JIG_BUSY_CNT ≠ Ctr.SP_IDX_OOB_CNT ∧
    Ctr.JIG_BUSY_CNT ≠ Ctr.SP_ORDER_BREAK_CNT ∧ Ctr.SP_IDX_OOB_CNT ≠ Ctr.SP_ORDER_BREAK_CNT ∧
    Ctr.JIG_MATCH_CNT ≠ Flag.sp_IDX_OOB.1 ∧ Ctr.JIG_MATCH_CNT ≠ Flag.sp_ORDER_BREAK.1 ∧
    Ctr.JIG_BUSY_CNT ≠ Flag.sp_IDX_OOB.1 ∧ Ctr.JIG_BUSY_CNT ≠ Flag.sp_ORDER_BREAK.1 ∧
    Ctr.SP_IDX_OOB_CNT ≠ Flag.sp_ORDER_BREAK.1 ∧ Ctr.SP_ORDER_BREAK_CNT ≠ Flag.sp_IDX_OOB.1 := by decide
  have hve : ∀ {k}, k < 0x400 → ∀ {l}, l < 0x400 → coreRegBase t.core + l ≠ b + k := fun hk _ hl => Ne.symm (apart _ _ hk hl)
  refine ⟨n, hn.1, hn.2, ?_, ?_, ?_, ?_, ?_, fun a => ?_, fun v hv => ?_, ?_, fun c => ?_, ?_⟩
  · rw [Counted, b2 _ (by omega) (by omega), a2 _ (by omega) (by omega), ve _ (by decide), rawReg_count_other _ (by omega),
      rawReg_congr (drawChoice_regs ..), rawReg_count_self]
  · rw [Counted, b2 _ (by omega) (by omega), a2 _ (by omega) (by omega), ve _ (by decide), rawReg_count_self,
      rawReg_congr (drawChoice_regs ..), rawReg_count_other _ (by omega)]
  · rw [Counted, b2 _ (by omega) (by omega), a1, r1 _ (by omega) (by omega) (apart _ _ (by decide) (by decide))
      (apart _ _ (by decide) (by decide))]
  · rw [Counted, b1, a2 _ (by omega) (by omega), r1 _ (by omega) (by omega) (apart _ _ (by decide) (by decide))
      (apart _ _ (by decide) (by decide))]
  · have hv := veCounted_veDone (count (drawChoice s1).2 b Ctr.JIG_BUSY_CNT n) t.core n
    have key : ∀ l, l < 0x400 → rawReg (count (drawChoice s1).2 b Ctr.JIG_BUSY_CNT n) (coreRegBase t.core + l) =
        rawReg s (coreRegBase t.core + l) := fun l hl => by
      rw [rawReg_count_other _ (hve (by decide) hl), rawReg_congr (drawChoice_regs ..), rawReg_count_other _ (hve (by decide) hl)]
    have out : ∀ l, l < 0x400 → rawReg (if x.breaks + y.breaks = 0 then s3 else slotCount (raise (count s3 b
        Ctr.SP_ORDER_BREAK_CNT (x.breaks + y.breaks)) b Flag.sp_ORDER_BREAK) t cntOrderBreak (x.breaks + y.breaks))
        (coreRegBase t.core + l) = rawReg s2 (coreRegBase t.core + l) := fun l hl => by
      rw [b2 _ (hve (by decide) hl) (hve (by decide) hl), a2 _ (hve (by decide) hl) (hve (by decide) hl)]
    obtain ⟨v1, v2⟩ := hv
    constructor
    · rw [Counted] at v1 ⊢
      rw [out _ (by decide), v1, key _ (by decide)]
    · rw [Counted] at v2 ⊢
      rw [out _ (by decide), v2, key _ (by decide)]
  · by_cases h : a ∈ mergeRegs t.core
    · exact .inl h
    · simp only [mergeRegs, List.mem_cons, List.not_mem_nil, or_false, not_or] at h
      obtain ⟨h1, h2, h3, h4, h5, h6, h7, h8⟩ := h
      exact .inr (by rw [b2 _ h4 h6, a2 _ h3 h5, r1 _ h1 h2 h7 h8])
  · rw [b3 v hv, a3 v hv, getSlot_congr c2]
  · rw [b4, a4, getSlot_congr c2]
  · rw [b5, a5, getCore_congr c2]
  · have h2 : SameBut [.freeCount, .regs, .cores] s s2 :=
      ⟨by simp [s2, s1, veDone], fun p => by cases p <;> simp [Part.same, s2, s1, veDone]⟩
    exact sameBut_trans (sameBut_trans h2 (sameBut_mono a6 (by simp)) (fun p hp => hp)) (sameBut_mono b6 (by simp))
      (fun p hp => hp)

end Sys2Proof.Machine
end

