-- ==== Sys2Proof/Laws/Arrays.lean ====
section
/-! SUPPORT. Arrays: what the operations do. -/

-- one theorem after the other: proofs side by side would need more memory than the check allows
set_option Elab.async false

namespace Sys2Proof.Machine

open Sys2Proof.Safety

theorem arrayIs_of {s t : State} {a : ArrayId} {x : ArrayState} (h : t.arrays = (setArray s a x).arrays) : ArrayIs a x s t :=
  ⟨by rw [getArray_congr h, getArray_setArray_self], fun b hb => by rw [getArray_congr h, getArray_setArray_other _ _ hb]⟩

theorem tilesChanged_of {s t : State} {c : CoreId} {v : VatTile} (h : t.cores = (putTile s c v).cores) :
    TilesChanged c v.base (fun _ => v) s t := by
  refine ⟨?_, fun d hd => ?_⟩
  · rw [getCore_congr h, putTile, getCore_setCore_self]
  · rw [getCore_congr h, putTile, getCore_setCore_other _ _ hd]

/-- A task marked as started. -/
theorem markStarted_gives (s : State) (u : SlotId) (h : (getSlot s u).state ≠ .empty) :
    SlotStarted u s (markStarted s u) ∧
    (∀ d, { getCore (markStarted s u) d with slots := [] } = ({ getCore s d with slots := [] } : CoreState)) ∧
    (LateStart s u (getSlot s u) →
      RegsAs (raise (count s hubClkBase Ctr.DL_LATE_START_CNT 1) hubClkBase Flag.hubClk_LATE_START) (markStarted s u)) ∧
    (¬ LateStart s u (getSlot s u) → RegsAs s (markStarted s u)) ∧
    Keeps (· ∈ [.regs, .cores]) s (markStarted s u) := by
  have hk : Keeps (· ∈ [.regs, .cores]) s (markStarted s u) := markStarted_keeps (.refl s) _ (Can.all _)
  by_cases hs : (getSlot s u).started = true
  · have e : markStarted s u = s := by
      unfold markStarted
      rw [if_pos (.inl hs)]
    rw [e] at hk ⊢
    refine ⟨⟨by rw [if_pos hs], fun _ _ => rfl⟩, fun _ => rfl, fun l => ?_, fun _ => rfl, hk⟩
    rw [l.1] at hs
    cases hs
  · have hn : ¬ ((getSlot s u).started = true ∨ (getSlot s u).state = .empty) := fun k => k.elim hs h
    let s1 := setSlot s u { getSlot s u with started := true, startedAt := s.clk.now }
    have hlate : LateStart s u (getSlot s u) ↔ (match startMark s u.core.seam.val
        (getCounter s u.core.seam.val (getSlot s u).counter) (getSlot s u).index with
        | some m => decide (m < (s.clk.now : Int)) | none => false) = true := by
      unfold LateStart
      simp only [Bool.not_eq_true] at hs
      rw [hs]
      cases startMark s u.core.seam.val (getCounter s u.core.seam.val (getSlot s u).counter) (getSlot s u).index with
      | none => simp
      | some m => simp
    have h1 : SlotStarted u s s1 :=
      ⟨by rw [getSlot_setSlot_self, if_neg hs], fun v hv => getSlot_setSlot_other _ _ hv⟩
    have h2 : ∀ d, { getCore s1 d with slots := [] } = ({ getCore s d with slots := [] } : CoreState) := fun d => getCore_setSlot ..
    have e : markStarted s u = if (match startMark s u.core.seam.val
        (getCounter s u.core.seam.val (getSlot s u).counter) (getSlot s u).index with
        | some m => decide (m < (s.clk.now : Int)) | none => false) = true then
        raise (count s1 hubClkBase Ctr.DL_LATE_START_CNT 1) hubClkBase Flag.hubClk_LATE_START else s1 := by
      unfold markStarted
      exact if_neg hn
    by_cases hl : LateStart s u (getSlot s u)
    · rw [if_pos (hlate.mp hl)] at e
      have hc : (markStarted s u).cores = s1.cores := by rw [e, raise_cores, count_cores]
      refine ⟨⟨by rw [getSlot_congr hc]; exact h1.1, fun v hv => by rw [getSlot_congr hc]; exact h1.2 v hv⟩,
        fun d => by rw [getCore_congr hc]; exact h2 d, fun _ => ?_, fun n => absurd hl n, hk⟩
      rw [RegsAs, e]
      exact raise_regs_congr (count_regs_congr (by simp only [s1, setSlot_regs]) _ _ _) _ _
    · rw [if_neg fun k => hl (hlate.mpr k)] at e
      rw [e] at hk ⊢
      exact ⟨h1, h2, fun l => absurd l hl, fun _ => by simp only [RegsAs, s1, setSlot_regs], hk⟩

theorem getCore_setSlot_other (s : State) {t : SlotId} {c : CoreId} (x : TaskSlot) (h : c ≠ t.core) :
    getCore (setSlot s t x) c = getCore s c := by
  rw [setSlot, getCore_setCore_other _ _ h]

theorem markStarted_other (s : State) (u : SlotId) (c : CoreId) (h : c ≠ u.core) :
    getCore (markStarted s u) c = getCore s c := by
  unfold markStarted
  extract_lets x late y
  by_cases hn : x.started = true ∨ x.state = .empty
  · rw [if_pos hn]
  · rw [if_neg hn]
    by_cases hl : late = true
    · rw [if_pos hl, getCore_congr (raise_cores ..), getCore_congr (count_cores ..)]
      exact getCore_setSlot_other _ _ h
    · rw [if_neg hl]
      exact getCore_setSlot_other _ _ h

theorem lateStart_congr {s t : State} (hd : t.dep = s.dep) (hc : t.counters = s.counters) (hk : t.clk = s.clk) (u : SlotId) (x : TaskSlot) : LateStart t u x ↔ LateStart s u x := by
  have e : ∀ m c i, startMark t m c i = startMark s m c i := fun m c i => by
    unfold startMark deadline meanTask jobNode jobImage getJob getGraphSlot getStage
    rw [hd]
  unfold LateStart getCounter
  rw [hc, hk]
  simp only [e]

theorem arrayIs_congr {s t u : State} {a : ArrayId} {x : ArrayState} (h : ArrayIs a x s t) (k : s.arrays = u.arrays) :
    ArrayIs a x u t :=
  ⟨h.1, fun b hb => by rw [h.2 b hb, getArray_congr k]⟩

theorem vectorCounted_regs_congr {s t : State} (h : t.regs = s.regs) (a : ArrayId) (n k : Nat) :
    (vectorCounted t a n k).regs = (vectorCounted s a n k).regs := by
  unfold vectorCounted
  exact count_regs_congr (count_regs_congr (count_regs_congr h _ _ _) _ _ _) _ _ _

theorem countMd_arrays (s : State) (c : CoreId) (k : MdCounts) : (countMd s c k).arrays = s.arrays :=
  (countMd_keeps (P := (· ∈ [.regs])) (.refl s) c k (Can.all _)).field .arrays (by decide)

theorem putTile_tiles (s : State) (c : CoreId) (v : VatTile) : TilesChanged c v.base (fun _ => v) s (putTile s c v) :=
  tilesChanged_of rfl

theorem findTile_base {s : State} {c : CoreId} {base : Nat} {v : VatTile} (h : findTile s c base = some v) : v.base = base := by
  have := List.find?_some h
  simpa using this

theorem findTile_congr {s t : State} (h : t.cores = s.cores) (c : CoreId) (base : Nat) : findTile t c base = findTile s c base := by
  unfold findTile
  rw [getCore_congr h]

theorem checksNoted_cores (s : State) (a : ArrayId) (t r c : Bool) : (checksNoted s a t r c).cores = s.cores := by
  unfold checksNoted
  cases t <;> cases r <;> cases c <;>
    simp only [if_true, Bool.false_eq_true, if_false, raise_cores, count_cores]

theorem checksNoted_arrays (s : State) (a : ArrayId) (t r c : Bool) : (checksNoted s a t r c).arrays = s.arrays := by
  unfold checksNoted
  cases t <;> cases r <;> cases c <;>
    simp only [if_true, Bool.false_eq_true, if_false, raise_arrays, count_arrays]

theorem tilesChanged_congr {s t u : State} {c : CoreId} {b : Nat} {f : VatTile → VatTile} (h : TilesChanged c b f s t)
    (k : s.cores = u.cores) : TilesChanged c b f u t :=
  ⟨by rw [h.1, getCore_congr k], fun d hd => by rw [h.2 d hd, getCore_congr k]⟩

theorem upsetOf_nil (n h : Nat) : upsetOf [] n h = 0 := rfl

/-! ### Row checks -/

theorem sum_add (l : List Nat) (f g : Nat → Int) :
    (l.map fun n => f n + g n).sum = (l.map f).sum + (l.map g).sum := by
  induction l with
  | nil => rfl
  | cons a r ih =>
    simp only [List.map_cons, List.sum_cons, ih]
    omega

theorem sum_zero (l : List Nat) : (l.map fun _ => (0 : Int)).sum = 0 := by
  induction l with
  | nil => rfl
  | cons a r ih =>
    simp only [List.map_cons, List.sum_cons, ih]
    rfl

theorem sum_mul (l : List Nat) (c : Int) (f : Nat → Int) : (l.map fun n => c * f n).sum = c * (l.map f).sum := by
  induction l with
  | nil => exact (Int.mul_zero c).symm
  | cons a r ih => simp only [List.map_cons, List.sum_cons, ih, Int.mul_add]

/-- Two sums in either order. -/
theorem sum_swap (l k : List Nat) (f : Nat → Nat → Int) :
    (l.map fun a => (k.map fun b => f a b).sum).sum = (k.map fun b => (l.map fun a => f a b).sum).sum := by
  induction l with
  | nil => simp only [List.map_nil, List.sum_nil, sum_zero]
  | cons a r ih => simp only [List.map_cons, List.sum_cons, ih, ← sum_add]

theorem sum_congr_mod {m : Int} (l : List Nat) (f g : Nat → Int) (h : ∀ n ∈ l, m ∣ f n - g n) :
    m ∣ (l.map f).sum - (l.map g).sum := by
  induction l with
  | nil => exact ⟨0, by simp⟩
  | cons a r ih =>
    have h1 := h a (List.mem_cons_self ..)
    have h2 := ih fun n hn => h n (List.mem_cons_of_mem _ hn)
    simp only [List.map_cons, List.sum_cons]
    have : f a + (r.map f).sum - (g a + (r.map g).sum) = (f a - g a) + ((r.map f).sum - (r.map g).sum) := by omega
    rw [this]
    exact Int.dvd_add h1 h2

theorem sum_getD (l : List Int) : ((List.range l.length).map fun n => l.getD n 0).sum = l.sum := by
  have : ((List.range l.length).map fun n => l.getD n 0) = l := by
    apply List.ext_getElem
    · simp
    · intro i h1 h2
      simp [List.getD_eq_getElem?_getD, List.getElem?_eq_getElem h2]
  rw [this]

theorem sum_one (k c : Nat) (e : Int) : ((List.range k).map fun n => if n = c then e else 0).sum = if c < k then e else 0 := by
  induction k with
  | zero => rfl
  | succ k ih =>
    rw [List.range_succ, List.map_append, List.sum_append, ih]
    simp only [List.map_cons, List.map_nil, List.sum_cons, List.sum_nil]
    by_cases h : k = c
    · subst h
      simp
    · rw [if_neg h]
      by_cases j : c < k
      · rw [if_pos j, if_pos (by omega)]
        simp
      · rw [if_neg j, if_neg (by omega)]
        simp

theorem upsetOf_one (u : Upset) (n h : Nat) :
    upsetOf [u] n h = if n = u.col.val then (if u.half.val = h then u.error else 0) else 0 := by
  by_cases h1 : n = u.col.val
  · subst h1
    by_cases h2 : u.half.val = h
    · simp [upsetOf, h2]
    · simp [upsetOf, h2]
  · simp [upsetOf, h1, Ne.symm h1]

theorem chargeTile_some {s : State} {a : ArrayId} {slot : Fin 4} {w : Nat × Nat × Nat × Bool} {v : VatTile} :
    chargeTile s a slot w = some v ↔ (arrayFenced s a = false ∧ coreUp s a.core = true ∧ (getArray s a).testing = false ∧
      (getArray s a).charge = none ∧ isLiveDom s (.seam a.core.seam .aclk) = true ∧
      (getSlot s ⟨a.core, slot⟩).state = .running) ∧ findPart s ⟨a.core, slot⟩ w.1 w.2.1 w.2.2.2 = some v ∧
      v.isOpen = true ∧ v.ready = true ∧ (v.array = none ∨ v.array = some a.array) ∧ v.failedOn ≠ some a.array ∧
      v.nextTile = w.2.2.1 := by
  obtain ⟨rt, ct, kt, assay⟩ := w
  unfold chargeTile
  simp only []
  by_cases h : (arrayFenced s a || !coreUp s a.core || (getArray s a).testing || (getArray s a).charge.isSome ||
      !isLiveDom s (.seam a.core.seam .aclk) || (getSlot s ⟨a.core, slot⟩).state != .running) = true
  · rw [if_pos h]
    refine ⟨fun k => (nomatch k), fun ⟨⟨h1, h2, h3, h4, h5, h6⟩, _⟩ => ?_⟩
    simp [h1, h2, h3, h4, h5, h6] at h
  · rw [if_neg h]
    simp only [Bool.or_eq_true, not_or, Bool.not_eq_true', Bool.not_eq_true, Bool.not_eq_false, Option.isSome_iff_ne_none, ne_eq,
      Classical.not_not, bne_iff_ne, and_assoc] at h
    have h : _ ∧ _ ∧ _ ∧ _ ∧ _ ∧ _ := h
    simp only [Option.filter_eq_some_iff, Bool.and_eq_true, Bool.or_eq_true, beq_iff_eq, bne_iff_ne,
      Option.isNone_iff_eq_none, and_assoc]
    exact ⟨fun k => ⟨h.1, h.2.1, h.2.2.1, h.2.2.2.1, h.2.2.2.2.1, h.2.2.2.2.2, k⟩, fun k => k.2.2.2.2.2.2⟩

theorem mayCharge_of {s : State} {a : ArrayId} {slot : Fin 4} {cmd rt ct kt : Nat} {assay : Bool} {c : TaskCtx} {src : RowSrc}
    {v : VatTile} : MayCharge s a slot cmd rt ct kt assay c src v ↔
      chargeOf (getSlot s ⟨a.core, slot⟩) cmd = some (rt, ct, kt, assay) ∧ taskCtx s ⟨a.core, slot⟩ = some c ∧
      rowSrcOf s c rt kt = some src ∧ rowsKnown s c (getSlot s ⟨a.core, slot⟩) rt ct assay = true ∧
      chargeTile s a slot (rt, ct, kt, assay) = some v := by
  rw [chargeTile_some]
  constructor
  · rintro ⟨h1, h2, h3, h4, h5, h6, h7, h8, h9, k1, k2, k3, k4, k5, k6, k7⟩
    exact ⟨h1, h2, h3, h4, ⟨h5, h6, h7, h8, h9, k1⟩, k2, k3, k4, k5, k6, k7⟩
  · rintro ⟨h1, h2, h3, h4, ⟨h5, h6, h7, h8, h9, k1⟩, k2, k3, k4, k5, k6, k7⟩
    exact ⟨h1, h2, h3, h4, h5, h6, h7, h8, h9, k1, k2, k3, k4, k5, k6, k7⟩

theorem startCharge_not {s : State} {a : ArrayId} {slot : Fin 4} {cmd : Nat}
    (h : ∀ rt ct kt assay c src v, ¬ MayCharge s a slot cmd rt ct kt assay c src v) : startCharge s a slot cmd = s := by
  unfold startCharge
  simp only
  split
  · rename_i w c h1 h2
    split
    · rename_i v src h3 h4
      split
      · rfl
      · rename_i h5
        exact (h _ _ _ _ _ _ _ (mayCharge_of.mpr ⟨h1, h2, h4, by simpa using h5, h3⟩)).elim
    · rfl
  · rfl

theorem startCharge_of {s : State} {a : ArrayId} {slot : Fin 4} {cmd rt ct kt : Nat} {assay : Bool} {c : TaskCtx} {src : RowSrc}
    {v : VatTile} (h : MayCharge s a slot cmd rt ct kt assay c src v) : startCharge s a slot cmd =
      (if (getCal s a.core.seam.val).idle = false then beginCharge s a c slot cmd (rt, ct, kt, assay) v src
      else if (getCal s a.core.seam.val).waking = true then s
      else setCal (count s (calRegBase a.core.seam.val) Ctr.CAL_WAKE_CNT 1) a.core.seam.val
        { getCal s a.core.seam.val with waking := true }) := by
  obtain ⟨h1, h2, h3, h4, h5⟩ := mayCharge_of.mp h
  unfold startCharge
  simp only [h1, h2, h5, h3, h4]
  by_cases k : (getCal s a.core.seam.val).idle = true <;> simp [k]

theorem advance_eq (v : VatTile) (parts : Nat) : advance v v.nextTile parts = advanced v parts := by
  unfold advance advanced tileAfter
  rfl

/-- The other cores of a state whose slots of core `c` are brought up to date. -/
theorem refreshSlots_other (s : State) {c d : CoreId} (h : d ≠ c) : getCore (refreshSlots s c) d = getCore s d := by
  unfold refreshSlots
  have key : ∀ (l : List SlotId), (∀ t ∈ l, t.core = c) → ∀ u : State, getCore (l.foldl (fun s t =>
      let x := getSlot s t
      match x.state with
      | .ready | .waiting => setSlot s t { x with state := idleState x }
      | _ => s) u) d = getCore u d := by
    intro l
    induction l with
    | nil => intro _ u; rfl
    | cons x r ih =>
      intro hl u
      rw [List.foldl_cons, ih fun t ht => hl t (List.mem_cons_of_mem _ ht)]
      have hx := hl x (List.mem_cons_self ..)
      dsimp only
      split <;> first
        | exact getCore_setSlot_other _ _ (by rw [hx]; exact h)
        | rfl
  exact key _ (fun t ht => (mem_slotsOfCore c t).mp ht) s

/-- The slots of a core brought up to date, one of them RUNNING where one is READY (R161, R162). -/
theorem settle_gives (s : State) (c : CoreId) : SlotsRun c (freshSlots s c) (settle s c) ∧
    (∀ d, { getCore (settle s c) d with slots := [] } = { getCore s d with slots := [] }) ∧
    (∀ d, d ≠ c → getCore (settle s c) d = getCore s d) ∧ Keeps (· ∈ [.cores]) s (settle s c) := by
  obtain ⟨h1, h2, h3⟩ := refreshSlots_gives s c
  refine ⟨slotsRun_congr (ensureRunning_gives (refreshSlots s c) c) h1, fun d => ?_, fun d hd => ?_, ?_⟩
  · exact (ensureRunning_cores ..).trans (h2 d)
  · rw [← refreshSlots_other s hd]
    unfold settle ensureRunning
    split
    · rfl
    · split
      · rename_i t ht
        have := (bestReady_gives (refreshSlots s c) c).1 t ht
        exact getCore_setSlot_other _ _ (by rw [this.1]; exact hd)
      · rfl
  · exact ensureRunning_keeps h3 _ (Can.all _)

/-- A command of a task marked as completed. -/
theorem finishCmd_gives (s : State) (u : SlotId) (i : Nat) : SlotChanged u (cmdDone i) s (finishCmd s u i) ∧
    (∀ d, { getCore (finishCmd s u i) d with slots := [] } = { getCore s d with slots := [] }) ∧
    (∀ d, d ≠ u.core → getCore (finishCmd s u i) d = getCore s d) ∧ Keeps (· ∈ [.cores]) s (finishCmd s u i) := by
  unfold finishCmd
  extract_lets x
  obtain ⟨h1, h2, h3, h4⟩ := settle_gives (setSlot s u { x with cmds := x.cmds.modify i fun c => { c with done := true } }) u.core
  refine ⟨slotsRun_congr h1 fun w => ?_, fun d => (h2 d).trans (getCore_setSlot ..), fun d hd => ?_, ?_⟩
  · unfold freshSlots freshOf
    by_cases hw : w = u
    · subst hw
      rw [getSlot_setSlot_self, if_pos rfl, if_pos rfl, if_pos rfl]
      rfl
    · rw [getSlot_setSlot_other _ _ hw, if_neg hw]
  · rw [h3 d hd, getCore_setSlot_other _ _ hd]
  · exact (setSlot_keeps (.refl s) _ _ (Can.all _)).trans h4

theorem getSlot_putTile (s : State) (c : CoreId) (v : VatTile) (u : SlotId) : getSlot (putTile s c v) u = getSlot s u := by
  unfold putTile getSlot
  extract_lets x
  by_cases h : u.core = c
  · rw [h, getCore_setCore_self]
  · rw [getCore_setCore_other _ _ h]

theorem tiles_of {c d : CoreState} (h : { c with slots := [] } = ({ d with slots := [] } : CoreState)) : c.tiles = d.tiles := by
  have k := congrArg CoreState.tiles h
  exact k

/-- A tile put back and a command of its task completed. -/
theorem putTile_finish {s s2 : State} {u : SlotId} {c : CoreId} {b : Nat} (hu : u.core = c) (hs : SlotStarted u s s2)
    (ht2 : ∀ d, (getCore s2 d).tiles = (getCore s d).tiles) (ho2 : ∀ d, d ≠ c → getCore s2 d = getCore s d) {w : VatTile}
    (hb : w.base = b) (cmd : Nat) : TilesChanged c b (fun _ => w) s (finishCmd (putTile s2 c w) u cmd) ∧
      SlotChanged u (fun x => cmdDone cmd (if x.started then x else { x with started := true, startedAt := s.clk.now })) s
        (finishCmd (putTile s2 c w) u cmd) := by
  subst hu hb
  obtain ⟨f1, f2, f3, f4⟩ := finishCmd_gives (putTile s2 u.core w) u cmd
  have p := putTile_tiles s2 u.core w
  refine ⟨⟨?_, fun d hd => ?_⟩, ?_⟩
  · rw [tiles_of (f2 u.core), p.1, ht2]
  · rw [f3 d hd, p.2 d hd, ho2 d hd]
  · refine slotsRun_congr f1 fun x => congrArg (freshOf u.core x) ?_
    rw [getSlot_putTile]
    by_cases e : x = u
    · rw [e, if_pos rfl, if_pos rfl]
      exact congrArg (cmdDone cmd) hs.1
    · rw [if_neg e, if_neg e]
      exact hs.2 x e

theorem advanced_base (v : VatTile) (n : Nat) : (advanced v n).base = v.base := by
  unfold advanced
  split <;> rfl

/-- A charge begun on an array. -/
theorem beginCharge_gives {s : State} {a : ArrayId} {c : TaskCtx} {slot : Fin 4} {cmd rt ct kt : Nat} {assay : Bool}
    {v : VatTile} {src : RowSrc} (he : (getSlot s ⟨a.core, slot⟩).state ≠ .empty) (hk : v.nextTile = kt) :
    let t := beginCharge s a c slot cmd (rt, ct, kt, assay) v src
    let u : SlotId := ⟨a.core, slot⟩
    let m := a.core.seam.val
    let rows := chargeRows c (getSlot s u) rt ct assay
    let next := advanced v (partsOf s c ct kt)
    (rows ≠ [] ∨ isDistance (ctxMode s c) = false →
      ArrayIs a { getArray s a with
        charge := some { slot := slot, cmd := cmd, tile := v.base, key := weightKey c ct kt v.nextPart, assay := assay,
                         src := src, rows := rows }
        tallySum := [] } s t ∧
      TilesChanged a.core v.base (fun _ => { next with array := some a.array, checked := false }) s t ∧ SlotStarted u s t) ∧
    (rows = [] → isDistance (ctxMode s c) = true → t.arrays = s.arrays ∧
      TilesChanged a.core v.base (fun _ => { next with array := some a.array }) s t ∧
      SlotChanged u (fun x => cmdDone cmd (if x.started then x else { x with started := true, startedAt := s.clk.now })) s t) ∧
    getCal t m = { getCal s m with lastCharge := s.clk.now } ∧ (∀ k, k ≠ m → getCal t k = getCal s k) ∧
    (LateStart s u (getSlot s u) →
      RegsAs (raise (count s hubClkBase Ctr.DL_LATE_START_CNT 1) hubClkBase Flag.hubClk_LATE_START) t) ∧
    (¬ LateStart s u (getSlot s u) → RegsAs s t) := by
  intro t u m rows next
  let s1 := setCal s m { getCal s m with lastCharge := s.clk.now }
  let s2 := markStarted s1 u
  obtain ⟨m1, m2, m3, m4, m5⟩ := markStarted_gives s1 u he
  have hs : SlotStarted u s s2 := ⟨m1.1, m1.2⟩
  have hc2 : ∀ d, { getCore s2 d with slots := [] } = ({ getCore s d with slots := [] } : CoreState) := m2
  have ht2 : ∀ d, (getCore s2 d).tiles = (getCore s d).tiles := fun d => tiles_of (hc2 d)
  have ho2 : ∀ d, d ≠ a.core → getCore s2 d = getCore s d := fun d hd => markStarted_other s1 u d hd
  have hcal : s2.cals = s1.cals := m5.field .cals (by decide)
  have harr : s2.arrays = s.arrays := m5.field .arrays (by decide)
  have hlate : LateStart s1 u (getSlot s1 u) ↔ LateStart s u (getSlot s u) := lateStart_congr rfl rfl rfl u _
  have hk' : advance v kt (partsOf s c ct kt) = next := by
    subst hk
    exact advance_eq ..
  have hput : ∀ (z : State) (w : VatTile), z.cores = s2.cores → w.base = v.base →
      TilesChanged a.core v.base (fun _ => w) s (putTile z a.core w) := by
    intro z w hz hw
    have := putTile_tiles z a.core w
    rw [hw] at this
    exact ⟨by rw [this.1, getCore_congr hz, ht2], fun d hd => by rw [this.2 d hd, getCore_congr hz, ho2 d hd]⟩
  have hb : next.base = v.base := advanced_base ..
  have ht : t = if (rows == [] && isDistance (ctxMode s c)) = true then
      finishCmd (putTile s2 a.core { next with array := some a.array }) u cmd
      else putTile (setArray s2 a { getArray s2 a with
          charge := some { slot := slot, cmd := cmd, tile := v.base, key := weightKey c ct kt v.nextPart, assay := assay,
                           src := src, rows := rows }
          tallySum := [] }) a.core { next with array := some a.array, checked := false } := by
    rw [← hk']
    rfl
  have hcals : t.cals = s1.cals := by
    rw [ht]
    split
    · exact ((finishCmd_gives _ u cmd).2.2.2.field .cals (by decide)).trans hcal
    · exact hcal
  have hregs : t.regs = s2.regs := by
    rw [ht]
    split
    · exact (finishCmd_gives _ u cmd).2.2.2.field .regs (by decide)
    · rfl
  clear_value next t rows
  refine ⟨fun h => ?_, fun h1 h2 => ?_, ?_, fun k hk => ?_, fun h => ?_, fun h => ?_⟩
  · rw [if_neg (by rcases h with h | h <;> simp [h])] at ht
    rw [ht]
    refine ⟨arrayIs_congr (arrayIs_of (s := s2) ?_) harr, hput _ _ rfl hb, ?_, ?_⟩
    · rw [getArray_congr harr]
      rfl
    · rw [getSlot_putTile]
      exact hs.1
    · intro w hw
      rw [getSlot_putTile]
      exact hs.2 w hw
  · rw [if_pos (by simp [h1, h2])] at ht
    have e := putTile_finish (u := u) (c := a.core) rfl hs ht2 ho2 (w := { next with array := some a.array }) hb cmd
    rw [ht]
    exact ⟨((finishCmd_gives _ u cmd).2.2.2.field .arrays (by decide)).trans harr, e.1, e.2⟩
  · unfold getCal
    rw [hcals]
    exact getCal_setCal_self ..
  · unfold getCal
    rw [hcals]
    exact getCal_setCal_other _ _ hk
  · rw [RegsAs, hregs]
    exact (m3 (hlate.mpr h)).trans rfl
  · rw [RegsAs, hregs]
    exact (m4 fun k => h (hlate.mp k)).trans rfl

theorem roomFor_gives (s : State) (a : ArrayId) (mode : ArrayMode) :
    (MayLoadWeights s a mode → ∃ y, roomFor s a mode = some y ∧
      (TakesBoth (getArray s a) mode → y = { getArray s a with active := none }) ∧
      (¬ TakesBoth (getArray s a) mode → y = getArray s a)) ∧
    (¬ MayLoadWeights s a mode → roomFor s a mode = none) := by
  have hb : takesBoth (getArray s a) mode = true ↔ TakesBoth (getArray s a) mode := by
    unfold TakesBoth takesBoth
    cases h : (getArray s a).active <;> simp
  have ha : shadowAwaited (getArray s a) = false ↔
      ∀ ch t, (getArray s a).charge = some ch → (getArray s a).shadow = some t → ch.begun = true ∨ ch.key ≠ t.key := by
    unfold shadowAwaited
    cases h1 : (getArray s a).charge with
    | none => simp
    | some ch =>
      cases h2 : (getArray s a).shadow with
      | none => simp
      | some t => cases h3 : ch.begun <;> simp [h3]
  have hu : ((getArray s a).charge.any (·.begun)) = false ↔
      ∀ ch, (getArray s a).charge = some ch → ch.begun = false := by
    cases h1 : (getArray s a).charge <;> simp
  unfold roomFor
  dsimp only
  generalize takesBoth (getArray s a) mode = two at *
  generalize shadowAwaited (getArray s a) = aw at *
  generalize (getArray s a).charge.any (·.begun) = un at *
  constructor
  · intro h
    rw [if_neg (by simp [h.fenced, h.testing, ha.mpr h.free])]
    cases two with
    | false =>
      rw [if_pos (show (!false) = true from rfl)]
      exact ⟨_, rfl, fun k => (nomatch hb.mpr k), fun _ => rfl⟩
    | true =>
      have k := hb.mp rfl
      obtain ⟨d1, d2⟩ := h.drained k
      rw [if_neg (by simp), if_pos (by simp [d1, hu.mpr d2])]
      exact ⟨_, rfl, fun _ => rfl, fun n => absurd k n⟩
  · intro h
    by_cases c : (arrayFenced s a || (getArray s a).testing || aw) = true
    · rw [if_pos c]
    · rw [if_neg c]
      simp only [Bool.or_eq_true, not_or, Bool.not_eq_true] at c
      cases two with
      | false => exact absurd ⟨c.1.1, c.1.2, ha.mp c.2, fun k => nomatch hb.mpr k⟩ h
      | true =>
        rw [if_neg (by simp), if_neg]
        intro j
        simp only [Bool.and_eq_true, beq_iff_eq, Bool.not_eq_true'] at j
        exact h ⟨c.1.1, c.1.2, ha.mp c.2, fun _ => ⟨j.1, hu.mp j.2⟩⟩

/-- Bytes with a place in a task's working scratch, or that need none. -/
theorem placeImage_gives (s : State) (u : SlotId) (stored : Bool) (off : Nat) (w : WeightTile) :
    (NoPlace s u off 64 (wl64Size w.width) stored → placeImage s u stored off w = none) ∧
    (¬ NoPlace s u off 64 (wl64Size w.width) stored → ∃ z, placeImage s u stored off w = some z ∧
      Placed s u off 64 (wl64Size w.width) (wl64Image w) stored z ∧ z.regs = s.regs ∧ z.arrays = s.arrays) := by
  unfold placeImage NoPlace
  cases stored with
  | true => exact ⟨fun h => (nomatch h.1), fun _ => ⟨s, rfl, .stored _ rfl, rfl, rfl⟩⟩
  | false =>
    rw [if_neg (by simp)]
    refine ⟨fun h => if_neg h.2, fun h => ?_⟩
    have h : off % 64 = 0 ∧ inWork (getSlot s u) off (wl64Size w.width) = true := Classical.not_not.mp fun k => h ⟨rfl, k⟩
    exact ⟨_, if_pos h, .written _ h.1 h.2 (writeScratch_mem ..), writeScratch_regs ..,
      (writeScratch_keeps (P := (· ∈ [.mem, .cores])) (.refl s) _ _ _ (Can.all _)).field .arrays (by decide)⟩

theorem countMd_regs {s t : State} (h : t.regs = s.regs) (c : CoreId) (k : MdCounts) :
    (countMd t c k).regs = (countMd s c k).regs := by
  unfold countMd
  dsimp only
  have step : ∀ (p : Prop) [Decidable p] (u w : State) (b n m : Nat) (f : Nat × Nat), u.regs = w.regs →
      (if p then u else raise (count u b n m) b f).regs = (if p then w else raise (count w b n m) b f).regs := by
    intro p _ u w b n f m e
    split
    · exact e
    · exact raise_regs_congr (count_regs_congr e _ _ _) _ _
  exact step _ _ _ _ _ _ _ (step _ _ _ _ _ _ _ (step _ _ _ _ _ _ _ h))

theorem swapped_iff (x y : ArrayState) (t : WeightTile) (ch : Charge) (h : x.charge = some ch) :
    swapped x ch = some (y, t) ↔ Swapped x y t ch := by
  have hs : swapped.takeShadow x ch = some (y, t) ↔ x.shadow = some t ∧ t.key = ch.key ∧
      y = { x with active := some t, shadow := none, sel := !x.sel } := by
    unfold swapped.takeShadow
    cases h1 : x.shadow with
    | none => simp
    | some w =>
      by_cases k : w.key = ch.key
      · simp only [beq_iff_eq, k, if_true, Option.some.injEq, Prod.mk.injEq]
        constructor
        · rintro ⟨rfl, rfl⟩
          exact ⟨rfl, k, rfl⟩
        · rintro ⟨rfl, -, rfl⟩
          exact ⟨rfl, rfl⟩
      · simp only [beq_iff_eq, k, if_false]
        constructor
        · exact nofun
        · rintro ⟨h, h2, -⟩
          cases h
          exact absurd h2 k
  have hn : (∀ w, ¬ ActiveFor x ch w) → (swapped x ch = swapped.takeShadow x ch) := by
    intro n
    unfold swapped
    cases h1 : x.active with
    | none => rfl
    | some w =>
      have := n w
      simp only [ActiveFor, h1, true_and] at this
      simp [this]
  constructor
  · intro e
    by_cases n : ∃ w, ActiveFor x ch w
    · obtain ⟨w, n1, n2⟩ := n
      unfold swapped at e
      simp only [n1, n2, beq_self_eq_true, if_true, Option.some.injEq, Prod.mk.injEq] at e
      obtain ⟨rfl, rfl⟩ := e
      exact .kept _ _ h ⟨n1, n2⟩
    · have n : ∀ w, ¬ ActiveFor x ch w := fun w k => n ⟨w, k⟩
      rw [hn n] at e
      obtain ⟨h1, h2, rfl⟩ := hs.mp e
      exact .swap _ _ h n h1 h2
  · intro e
    cases e with
    | kept _ _ h1 h2 => simp [swapped, h2.1, h2.2]
    | swap _ _ h1 h2 h3 h4 =>
      rw [hn h2]
      exact hs.mpr ⟨h3, h4, rfl⟩

theorem swapped_charge {x y : ArrayState} {w : WeightTile} {ch : Charge} (h : Swapped x y w ch) : x.charge = some ch := by
  cases h <;> assumption

theorem placeRecords_gives (s : State) (a : ArrayId) (ch : Charge) (p : Bool) (off : Nat) (bs : List Byte) :
    let u : SlotId := ⟨a.core, ch.slot⟩
    let stored := decide (p = true ∨ ch.tile = 80)
    (NoPlace s u off 8 bs.length stored → placeRecords s a ch p off bs = none) ∧
    (¬ NoPlace s u off 8 bs.length stored → ∃ z, placeRecords s a ch p off bs = some z ∧
      (∀ t, t.mem = z.mem → Placed s u off 8 bs.length bs stored t) ∧ z.regs = s.regs ∧ z.arrays = s.arrays) := by
  intro u stored
  unfold placeRecords NoPlace
  by_cases k : p = true ∨ ch.tile = noTile
  · have hs : stored = true := decide_eq_true k
    rw [if_pos k, hs]
    exact ⟨fun h => (nomatch h.1), fun _ => ⟨s, rfl, fun t h => .stored _ h, rfl, rfl⟩⟩
  · have hs : stored = false := decide_eq_false k
    rw [if_neg k, hs]
    refine ⟨fun h => if_neg h.2, fun h => ?_⟩
    have h : off % 8 = 0 ∧ inWork (getSlot s u) off bs.length = true := Classical.not_not.mp fun k => h ⟨rfl, k⟩
    exact ⟨_, if_pos h, fun t e => .written _ h.1 h.2 (e.trans (writeScratch_mem ..)), writeScratch_regs ..,
      (writeScratch_keeps (P := (· ∈ [.mem, .cores])) (.refl s) _ _ _ (Can.all _)).field .arrays (by decide)⟩

/-- A vector that enters an array. -/
theorem enterVector_gives (s : State) (a : ArrayId) (x : ArrayState) (w : WeightTile) (ch : Charge) (f : Feed) :
    getArray (enterVector s a x w ch f) a = { x with
      charge := if f.last then none else some ch
      flights := x.flights ++ [{ elems := f.vec.elems, upper := f.vec.upper, lower := f.vec.lower, planes := f.vec.planes,
                                 row := f.row, tally := f.tally, weights := w, slot := ch.slot, cmd := ch.cmd, tile := ch.tile,
                                 last := f.last }]
      queue := feedSlots w f.vec f.swap
      tallySum := if f.tally then x.tallySum else if x.tallySum = [] then f.vec.elems else List.zipWith (· + ·) x.tallySum f.vec.elems
      slotsLast := slotsOf w f.vec.planes
      frozen := false } ∧
    (∀ b, b ≠ a → getArray (enterVector s a x w ch f) b = getArray s b) ∧
    RegsAs (vectorCounted s a (slotsOf w f.vec.planes) (trimmedPlanes w f.from_ f.vec.planes)) (enterVector s a x w ch f) ∧
    (enterVector s a x w ch f).mem = s.mem := by
  unfold enterVector
  extract_lets b n sum fl s1 s2 s3 s4 s5
  have key : ∀ t : State, t.arrays = s1.arrays → t.regs = s4.regs → t.mem = s.mem → _ := fun t h1 h2 h3 =>
    (⟨by rw [getArray_congr h1, getArray_setArray_self], fun b hb => by rw [getArray_congr h1, getArray_setArray_other _ _ hb],
      by
        rw [RegsAs, h2]
        unfold vectorCounted
        exact count_regs_congr (count_regs_congr (count_regs_congr (setArray_regs ..) _ _ _) _ _ _) _ _ _, h3⟩ :
      getArray t a = _ ∧ (∀ b, b ≠ a → getArray t b = getArray s b) ∧
      RegsAs (vectorCounted s a (slotsOf w f.vec.planes) (trimmedPlanes w f.from_ f.vec.planes)) t ∧ t.mem = s.mem)
  have a4 : s4.arrays = s1.arrays := by simp only [s4, s3, s2, count_arrays]
  have m4 : s4.mem = s.mem := by simp only [s4, s3, s2, s1, count_mem, setArray_mem]
  have hs : ∀ (u : State) (id : SlotId) (k m : Nat), (slotCount u id k m).arrays = u.arrays ∧ (slotCount u id k m).regs = u.regs ∧
      (slotCount u id k m).mem = u.mem := fun u id k m => by
    have := slotCount_keeps (P := (· ∈ [.cores])) (.refl u) id k m (Can.all _)
    exact ⟨this.field .arrays (by decide), this.field .regs (by decide), this.field .mem (by decide)⟩
  split
  · exact key s4 a4 rfl m4
  · split
    · exact key _ ((hs ..).1.trans ((hs ..).1.trans a4)) ((hs ..).2.1.trans (hs ..).2.1) ((hs ..).2.2.trans ((hs ..).2.2.trans m4))
    · exact key _ ((hs ..).1.trans a4) (hs ..).2.1 ((hs ..).2.2.trans m4)

theorem rowNoted_regs {s t : State} (h : t.regs = s.regs) (c : CoreId) (n : Nat) (b : Bool) :
    (rowNoted t c n b).regs = (rowNoted s c n b).regs := by
  unfold rowNoted
  dsimp only
  by_cases h1 : n = 0
  · rw [if_pos h1, if_pos h1]
    cases b
    · exact h
    · exact raise_regs_congr (count_regs_congr h _ _ _) _ _
  · rw [if_neg h1, if_neg h1]
    have := raise_regs_congr (count_regs_congr h (spRegBase c) Ctr.SP_IDX_OOB_CNT n) (spRegBase c) Flag.sp_IDX_OOB
    cases b
    · exact this
    · exact raise_regs_congr (count_regs_congr this _ _ _) _ _

theorem tileCount_same (s : State) (c : CoreId) (base k n : Nat) : (tileCount s c base k n).regs = s.regs ∧
    (tileCount s c base k n).arrays = s.arrays ∧ (tileCount s c base k n).mem = s.mem := by
  have := tileCount_keeps (P := (· ∈ [.cores])) (.refl s) c base k n (Can.all _)
  exact ⟨this.field .regs (by decide), this.field .arrays (by decide), this.field .mem (by decide)⟩

theorem countRow_gives (s : State) (a : ArrayId) (ch : Charge) (l : RowLoad) :
    (countRow s a ch l).arrays = s.arrays ∧ (countRow s a ch l).mem = s.mem ∧ (countRow s a ch l).regs =
      (rowNoted s a.core (if ch.sub = 0 then l.malformed else 0) (decide (1 < l.vectors.length ∧ ch.sub = 0))).regs := by
  unfold countRow rowNoted
  dsimp only
  have t1 : ∀ (u : State) (p : Prop) [Decidable p] (b n m : Nat) (f : Nat × Nat),
      (if p then raise (count u b n m) b f else u).arrays = u.arrays ∧ (if p then raise (count u b n m) b f else u).mem = u.mem := by
    intro u p _ b n m f
    split
    · exact ⟨by rw [raise_arrays, count_arrays], by rw [raise_mem, count_mem]⟩
    · exact ⟨rfl, rfl⟩
  by_cases h1 : l.malformed = 0 ∨ ch.sub ≠ 0
  · have h2 : (if ch.sub = 0 then l.malformed else 0) = 0 := by
      rcases h1 with h | h
      · rw [h, ite_self]
      · rw [if_neg h]
    rw [if_pos h1, if_pos h2]
    refine ⟨(t1 ..).1, (t1 ..).2, ?_⟩
    by_cases h3 : 1 < l.vectors.length ∧ ch.sub = 0
    · simp only [if_pos h3, decide_eq_true h3, if_true]
    · simp only [if_neg h3, decide_eq_false h3, Bool.false_eq_true, if_false]
  · obtain ⟨h4, h5⟩ := not_or.mp h1
    have h5 : ch.sub = 0 := Classical.not_not.mp h5
    rw [if_neg h1, if_pos h5, if_neg h4]
    obtain ⟨c1, c2, c3⟩ := tileCount_same (raise (count s (spRegBase a.core) Ctr.SP_IDX_OOB_CNT l.malformed) (spRegBase a.core) Flag.sp_IDX_OOB)
      a.core ch.tile cntIdxOob l.malformed
    refine ⟨(t1 ..).1.trans (c2.trans ?_), (t1 ..).2.trans (c3.trans ?_), ?_⟩
    · rw [raise_arrays, count_arrays]
    · rw [raise_mem, count_mem]
    · by_cases h3 : 1 < l.vectors.length ∧ ch.sub = 0
      · simp only [if_pos h3, decide_eq_true h3, if_true]
        exact raise_regs_congr (count_regs_congr c1 _ _ _) _ _
      · simp only [if_neg h3, decide_eq_false h3, Bool.false_eq_true, if_false]
        exact c1

theorem scheduleVector_of {s : State} {a : ArrayId} {x : ArrayState} {w : WeightTile} {ch : Charge}
    (h : Swapped (getArray s a) x w ch) (record : Nat) :
    let y := match ch.rows with
      | m :: rest => scheduleRow s a x w ch ((getArray s a).sel != x.sel) record m rest
      | [] => scheduleTally s a x w ch ((getArray s a).sel != x.sel) record
    ∃ t, exec (.vectorSchedule a record) s = .next t ∧ (y = s → t = s) ∧ t.arrays = y.arrays ∧ t.mem = y.mem ∧ t.regs = y.regs := by
  intro y
  have e : exec (.vectorSchedule a record) s = .next (if ((getArray s a).sel != x.sel) && (getArray y a).sel != (getArray s a).sel then
      tileCounts y a.core ch.tile w.counts else y) := by
    refine congrArg Host.Outcome.next ?_
    unfold scheduleVector
    simp only [swapped_charge h, (swapped_iff _ _ _ _ (swapped_charge h)).mpr h]
    rfl
  have k := tileCounts_keeps (P := (· ∈ [.cores])) (.refl y) a.core ch.tile w.counts (Can.all _)
  refine ⟨_, e, fun hy => ?_, ?_, ?_, ?_⟩
  · rw [hy]
    rw [if_neg (by simp)]
  all_goals split
  · exact k.field .arrays (by decide)
  · rfl
  · exact k.field .mem (by decide)
  · rfl
  · exact k.field .regs (by decide)
  · rfl

theorem scheduleRow_gives (s : State) (a : ArrayId) (x : ArrayState) (w : WeightTile) (ch : Charge) (swap : Bool) (record m : Nat)
    (rest : List Nat) :
    let u : SlotId := ⟨a.core, ch.slot⟩
    let l := buildRow s (chargeDesc s ch) (64 * lineGain w.line) { ch.src with row := ch.src.row + m }
    let v0 := l.vectors.getD ch.sub (badVector (64 * lineGain w.line))
    let v := if ch.assay then assayVector v0 else v0
    let z := rowNoted s a.core (if ch.sub = 0 then l.malformed else 0) (decide (1 < l.vectors.length ∧ ch.sub = 0))
    let next : Charge := if l.vectors.length ≤ ch.sub + 1 then { ch with rows := rest, sub := 0, begun := true }
      else { ch with sub := ch.sub + 1, begun := true }
    let last := isDistance w.mode ∧ l.vectors.length ≤ ch.sub + 1 ∧ rest = []
    let stored := decide ((chargeDesc s ch).layout = layPi64 ∨ ch.tile = 80)
    let t := scheduleRow s a x w ch swap record m rest
    (NoPlace s u record 8 (nextRecords s ch w m).length stored → t = s) ∧
    (¬ NoPlace s u record 8 (nextRecords s ch w m).length stored →
      (∀ b, b ≠ a → getArray t b = getArray s b) ∧
      (∀ t', t'.mem = t.mem → Placed s u record 8 (nextRecords s ch w m).length (nextRecords s ch w m) stored t') ∧
      (skipVector w.mode v = true → getArray t a = { x with charge := some next } ∧
        RegsAs (count z (arrRegBase a) Ctr.ARR_SKIP_CNT 1) t) ∧
      (skipVector w.mode v = false →
        getArray t a = { x with
          charge := if last then none else some next
          flights := x.flights ++ [{ elems := v.elems, upper := v.upper, lower := v.lower, planes := v.planes, row := m,
                                     tally := false, weights := w, slot := ch.slot, cmd := ch.cmd, tile := ch.tile,
                                     last := decide last }]
          queue := feedSlots w v swap
          tallySum := if x.tallySum = [] then v.elems else List.zipWith (· + ·) x.tallySum v.elems
          slotsLast := slotsOf w v.planes
          frozen := false } ∧
        (ch.assay = false →
          RegsAs (vectorCounted z a (slotsOf w v.planes) (trimmedPlanes w (max ch.src.planes v.planes) v.planes)) t))) := by
  intro u l v0 v z next last stored t
  have hst : stored = decide (((chargeDesc s ch).layout == layPi64) = true ∨ ch.tile = 80) := by
    simp only [stored, beq_iff_eq]
  obtain ⟨p1, p2⟩ := placeRecords_gives s a ch ((chargeDesc s ch).layout == layPi64) record (nextRecords s ch w m)
  rw [← hst] at p1 p2
  have ht : t = match placeRecords s a ch ((chargeDesc s ch).layout == layPi64) record (nextRecords s ch w m) with
      | none => s
      | some y =>
        let y := countRow y a ch l
        if skipVector w.mode v then count (setArray y a { x with charge := some next }) (arrRegBase a) Ctr.ARR_SKIP_CNT 1
        else
          let full := max ch.src.planes v0.planes
          let y := if ch.assay then count y (arrRegBase a) Ctr.ARR_TRIM_CNT (trimmedPlanes w full v0.planes) else y
          enterVector y a x w next
            { vec := v, from_ := if ch.assay then min 2 v0.planes else full, row := m, tally := false,
              last := isDistance w.mode && decide (l.vectors.length ≤ ch.sub + 1) && rest == [], swap := swap } := by
    simp only [t, scheduleRow, nextRecords, next, decide_eq_true_eq]
    rfl
  refine ⟨fun h => by rw [ht, p1 h], fun h => ?_⟩
  obtain ⟨y, y1, y2, y3, y4⟩ := p2 h
  obtain ⟨r1, r2, r3⟩ := countRow_gives y a ch l
  have r3 : (countRow y a ch l).regs = z.regs := r3.trans (rowNoted_regs y3 _ _ _)
  simp only [y1] at ht
  have hlast : (isDistance w.mode && decide (l.vectors.length ≤ ch.sub + 1) && rest == []) = decide last := by
    simp only [last, Bool.decide_and, Bool.decide_eq_true, and_assoc, Bool.and_assoc]
    cases rest <;> rfl
  have hnext : next.slot = ch.slot ∧ next.cmd = ch.cmd ∧ next.tile = ch.tile := by
    simp only [next]
    split <;> exact ⟨rfl, rfl, rfl⟩
  cases hk : skipVector w.mode v with
  | true =>
    rw [if_pos hk] at ht
    rw [ht]
    refine ⟨fun b hb => ?_, fun t' e => y2 t' ?_, fun _ => ⟨?_, ?_⟩, nofun⟩
    · rw [getArray_congr (count_arrays ..), getArray_setArray_other _ _ hb, getArray_congr (r1.trans y4)]
    · rw [e, count_mem, setArray_mem, r2]
    · rw [getArray_congr (count_arrays ..), getArray_setArray_self]
    · exact count_regs_congr ((setArray_regs ..).trans r3) _ _ _
  | false =>
    rw [if_neg (by rw [hk]; exact Bool.false_ne_true)] at ht
    let full := max ch.src.planes v0.planes
    let q := if ch.assay then count (countRow y a ch l) (arrRegBase a) Ctr.ARR_TRIM_CNT (trimmedPlanes w full v0.planes) else countRow y a ch l
    have q1 : q.arrays = s.arrays ∧ q.mem = y.mem := by
      simp only [q]
      split
      · exact ⟨by rw [count_arrays, r1, y4], by rw [count_mem, r2]⟩
      · exact ⟨by rw [r1, y4], r2⟩
    obtain ⟨e1, e2, e3, e4⟩ := enterVector_gives q a x w next
            { vec := v, from_ := if ch.assay then min 2 v0.planes else full, row := m, tally := false,
              last := isDistance w.mode && decide (l.vectors.length ≤ ch.sub + 1) && rest == [], swap := swap }
    have ht : t = enterVector q a x w next
            { vec := v, from_ := if ch.assay then min 2 v0.planes else full, row := m, tally := false,
              last := isDistance w.mode && decide (l.vectors.length ≤ ch.sub + 1) && rest == [], swap := swap } := ht
    rw [ht]
    refine ⟨fun b hb => ?_, fun t' e => y2 t' ?_, nofun, fun _ => ⟨?_, fun ha => ?_⟩⟩
    · rw [e2 b hb, getArray_congr q1.1]
    · rw [e, e4, q1.2]
    · rw [e1]
      simp only [hlast, hnext, decide_eq_true_eq, Bool.false_eq_true, if_false]
    · have hq : q.regs = z.regs := by
        simp only [q, ha, Bool.false_eq_true, if_false]
        exact r3
      have hv : v = v0 := by simp only [v, ha, Bool.false_eq_true, if_false]
      simp only [ha, Bool.false_eq_true, if_false] at e3
      rw [RegsAs, ha] 
      simp only [Bool.false_eq_true, if_false]
      rw [e3]
      unfold vectorCounted
      simp only [full, hv]
      exact count_regs_congr (count_regs_congr (count_regs_congr hq _ _ _) _ _ _) _ _ _

theorem logicalRow_list (f : Option Nat) (h : ∀ r, f = some r → r ≤ 64) :
    (List.range 65).filterMap (logicalRow f) = List.range 64 := by
  cases f with
  | none => decide
  | some r =>
    have key : ∀ r : Fin 65, (List.range 65).filterMap (logicalRow (some r.val)) = List.range 64 := by decide
    exact key ⟨r, Nat.lt_succ_of_le (h r rfl)⟩

/-- The sum chain of a half adds its 32 logical rows, wherever a repair has put them (R38, R129). -/
theorem halfRows_eq {f : Option Nat} (hf : ∀ r, f = some r → r ≤ 64) {h : Nat} (hh : h < 2) :
    halfRows f h = (List.range 32).map fun i => 32 * h + i := by
  unfold halfRows
  rw [logicalRow_list f hf]
  have : h = 0 ∨ h = 1 := by omega
  rcases this with rfl | rfl <;> decide

theorem mem_halfRows {f : Option Nat} {h r : Nat} (hf : ∀ r, f = some r → r ≤ 64) (hh : h < 2) : r ∈ halfRows f h → r < 64 := by
  rw [halfRows_eq hf hh]
  simp only [List.mem_map, List.mem_range]
  rintro ⟨i, hi, rfl⟩
  omega

/-- The exact partials of a multiply-add vector that nothing special forces: one per live column and half with a sum other than
zero (R35, R43, R44). -/
theorem drainPartial_plain (acc e : Int) (o : Partial) : (drainPartial true acc e 0 0).out = some o ↔ acc ≠ 0 ∧ o = .exact acc e := by
  unfold drainPartial forcedPartial
  by_cases h : acc = 0
  · simp [h]
  · simp [h, eq_comm]

theorem countPartials_plain (s : State) (a : ArrayId) (base : Nat) (l : List PartialOut)
    (h : ∀ p ∈ l, p.special = 0 ∧ p.ovf = 0 ∧ p.ufl = 0 ∧ p.mismatch = 0) : countPartials s a base l = s := by
  have z : ∀ g : PartialOut → Nat, (∀ p ∈ l, g p = 0) → (l.map g).sum = 0 := by
    intro g hg
    induction l with
    | nil => rfl
    | cons p r ih =>
      rw [List.map_cons, List.sum_cons, hg p (List.mem_cons_self ..)]
      exact (Nat.zero_add _).trans (ih (fun q hq => h q (List.mem_cons_of_mem _ hq)) fun q hq => hg q (List.mem_cons_of_mem _ hq))
  have h1 := z (·.special) fun p hp => (h p hp).1
  have h2 := z (·.ovf) fun p hp => (h p hp).2.1
  have h3 := z (·.ufl) fun p hp => (h p hp).2.2.1
  have h4 := z (·.mismatch) fun p hp => (h p hp).2.2.2
  have t0 : ∀ k, tileCount s a.core base k 0 = s := fun k => by
    unfold tileCount
    split
    · rw [if_pos rfl]
    · rfl
  unfold countPartials
  simp only [h1, h2, h3, h4, if_true, t0, ite_self]

theorem drainPartial_mismatch (x64 : Bool) (acc e : Int) (sa sw : Nat) : (drainPartial x64 acc e sa sw).mismatch = 0 := by
  unfold drainPartial
  split
  · rfl
  · split
    · rfl
    · split <;> rfl

/-- Partials of a multiply-add mode meet no unequal scales. -/
theorem vectorPartials_mismatch {w : WeightTile} (hm : isDistance w.mode = false) (f : Flight) (b : Option Nat) (x64 : Bool)
    (us : List Upset) : ∀ p ∈ vectorPartials w f b x64 us, p.2.mismatch = 0 := by
  intro p hp
  unfold vectorPartials at hp
  simp only [hm, List.mem_flatMap, List.mem_range] at hp
  obtain ⟨q, hq, n, hn, h⟩ := hp
  split at h
  · cases h
  · simp only [List.mem_map, List.mem_range] at h
    obtain ⟨k, hk, rfl⟩ := h
    simp only [Bool.false_eq_true, if_false]
    exact drainPartial_mismatch ..

/-- The partials of a discarded part count nothing. -/
theorem countPartials_noTile {w : WeightTile} (hm : isDistance w.mode = false) (s : State) (a : ArrayId) (f : Flight)
    (b : Option Nat) (x64 : Bool) (us : List Upset) :
    countPartials s a 80 ((vectorPartials w f b x64 us).map (·.2)) = s := by
  have z : (((vectorPartials w f b x64 us).map (·.2)).map (·.mismatch)).sum = 0 := by
    have := vectorPartials_mismatch hm f b x64 us
    generalize vectorPartials w f b x64 us = l at this
    induction l with
    | nil => rfl
    | cons p r ih =>
      rw [List.map_cons, List.map_cons, List.sum_cons, this p (List.mem_cons_self ..), Nat.zero_add]
      exact ih fun q hq => this q (List.mem_cons_of_mem _ hq)
  unfold countPartials
  simp only [z, if_true, noTile]

theorem countPartials_same (s : State) (a : ArrayId) (base : Nat) (l : List PartialOut) :
    Keeps (· ∈ [.regs, .cores]) s (countPartials s a base l) :=
  countPartials_keeps (.refl s) _ _ _ (Can.all _)

/-- The checks of a vector of a multiply-add mode. -/
theorem tallyChecks_gives (s : State) (a : ArrayId) (f : Flight) (totals : List (Int × Int)) (us : List Upset) :
    let b := (getArray s a).badRow
    let row := rowCheck f.weights f b us
    let col := !f.tally || columnCheck totals (columnValues f.weights f b us)
    tallyChecks s a f totals us = (checksNoted s a f.tally row col, row && col) := rfl

theorem checksNoted_regs_congr {s t : State} (h : t.regs = s.regs) (a : ArrayId) (b r c : Bool) :
    (checksNoted t a b r c).regs = (checksNoted s a b r c).regs := by
  unfold checksNoted
  have h1 : (if b then count t (arrRegBase a) Ctr.TLY_CHECK_CNT 1 else t).regs =
      (if b then count s (arrRegBase a) Ctr.TLY_CHECK_CNT 1 else s).regs := by
    cases b
    · exact h
    · exact count_regs_congr h _ _ _
  have step : ∀ (p : Bool) (u v : State) (f : Nat × Nat), u.regs = v.regs →
      (if p then u else raise u (arrRegBase a) f).regs = (if p then v else raise v (arrRegBase a) f).regs := by
    intro p u v f e
    cases p
    · exact raise_regs_congr e _ _
    · exact e
  exact step _ _ _ _ (step _ _ _ _ h1)

/-- The steps of a vector of a multiply-add mode. -/
theorem drainVector_mac {s : State} {a : ArrayId} {f : Flight} {rest : List Flight}
    (h : Oldest (getArray s a) f rest) (hm : isDistance f.weights.mode = false) (us : List Upset) :
    let x := getArray s a
    let vs := columnValues f.weights f x.badRow us
    let row := rowCheck f.weights f x.badRow us
    let col := !f.tally || columnCheck x.totals vs
    let u := checksNoted (setArray s a { leftArray x rest with totals := if f.tally then [] else addTotals x.totals vs }) a f.tally row col
    exec (.drainPartial a us) s = .next (
      if !(row && col) then mismatch u a f.tile
      else if f.tally then endCharge u a f
      else handOver u a f us) := by
  intro x vs row col u
  refine congrArg Host.Outcome.next ?_
  unfold drainVector
  simp only [h.flights]
  rw [if_neg (by have := h.room; omega), hm]
  simp only [Bool.false_eq_true, if_false]
  rw [tallyChecks_gives]
  simp only [getArray_setArray_self]
  have e : ({ getArray s a with flights := rest, frozen := false, queue := if rest == [] then [] else (getArray s a).queue } : ArrayState) =
      leftArray x rest := by
    unfold leftArray
    cases rest <;> rfl
  simp only [u, leftArray]
  cases rest <;> rfl

theorem putTile_at (s : State) (c : CoreId) {w : VatTile} {b : Nat} (h : w.base = b) :
    TilesChanged c b (fun _ => w) s (putTile s c w) := by
  subst h
  exact putTile_tiles ..

theorem handOver_gives {s : State} {a : ArrayId} {f : Flight} {us : List Upset} (hm : isDistance f.weights.mode = false) :
    let x := getArray s a
    (f.tile = 80 → handOver s a f us = s) ∧
    (∀ v, f.tile ≠ 80 → TileAt s a.core f.tile v →
      ArrayIs a { x with out := x.out ++ [⟨f.tile, f.row, handedOver f.weights f x.badRow v.x64 us⟩] } s (handOver s a f us) ∧
      (PlainPartials f.weights f x.badRow v.x64 us → (handOver s a f us).regs = s.regs ∧ (handOver s a f us).cores = s.cores)) := by
  intro x
  refine ⟨fun h => ?_, fun v h hv => ?_⟩
  · unfold handOver
    simp only
    rw [if_pos (show f.tile = noTile from h), h]
    exact countPartials_noTile hm ..
  · have hv : findTile s a.core f.tile = some v := hv
    have e : handOver s a f us = countPartials (setArray s a { x with
        out := x.out ++ [⟨f.tile, f.row, handedOver f.weights f x.badRow v.x64 us⟩] }) a f.tile
        ((vectorPartials f.weights f x.badRow v.x64 us).map (·.2)) := by
      unfold handOver
      simp only [hv]
      rw [if_neg (show f.tile ≠ noTile from h)]
      rfl
    rw [e]
    refine ⟨arrayIs_of ((countPartials_same ..).field .arrays (by decide)), fun hp => ?_⟩
    rw [countPartials_plain _ _ _ _ (by
      intro p hp'
      obtain ⟨q, hq, rfl⟩ := List.mem_map.mp hp'
      exact hp q hq)]
    exact ⟨rfl, rfl⟩

theorem tally_diff (w : WeightTile) (f : Flight) (b : Option Nat) (hb : ∀ r, b = some r → r ≤ 64) (ht : TallyOfTile w) (h : Nat) (hh : h < 2) :
    (2 ^ 32 : Int) ∣ tallySumOf w f b h - ((List.range 64).map fun n => drainSum w f b id n h).sum := by
  have e : ((List.range 64).map fun n => drainSum w f b id n h).sum =
      ((halfRows b h).map fun r => ((List.range 64).map fun n => lineElem w f r n * cellWeight w r n).sum).sum := by
    simp only [drainSum, id]
    exact sum_swap ..
  rw [e]
  unfold tallySumOf
  refine sum_congr_mod _ _ _ fun r hr => ?_
  obtain ⟨h1, h2⟩ := ht.2.2 r (mem_halfRows hb hh hr)
  by_cases o : w.rowOff.contains r = true
  · have : ((List.range 64).map fun n => lineElem w f r n * cellWeight w r n).sum = 0 := by
      simp only [cellWeight, if_pos o, Int.mul_zero, sum_zero]
    rw [if_pos o, this]
    exact ⟨0, rfl⟩
  · have : ((List.range 64).map fun n => lineElem w f r n * cellWeight w r n).sum =
        f.elems.getD r 0 * (w.weights.getD r []).sum := by
      simp only [cellWeight, if_neg o, lineElem, ht.1, lineSel]
      rw [sum_mul]
      have := sum_getD (w.weights.getD r [])
      rw [h1] at this
      rw [this]
    rw [if_neg o, this, h2, ← Int.mul_sub]
    refine Int.dvd_mul_of_dvd_right ?_
    rw [Int.dvd_iff_emod_eq_zero]
    omega

theorem rowCheck_eq (w : WeightTile) (f : Flight) (b : Option Nat) (us : List Upset) (h0 : w.line = 0) : rowCheck w f b us = true ↔
    ∀ h, h < 2 → (tallySumOf w f b h + upsetOf us 64 h - (((List.range 64).map fun n => drainSum w f b id n h).sum +
      ((List.range 64).map fun n => upsetOf us n h).sum)) % ((if f.tally then 2 ^ 16 else 2 ^ 32 : Nat) : Int) = 0 := by
  simp only [rowCheck, h0, bne_self_eq_false, Bool.false_or, List.all_eq_true, List.mem_range, beq_iff_eq, columnValue, sum_add]

theorem dep_eq {s t : State} {P : Part → Prop} (h : Keeps P s t)
    (n : ¬ P .allocs ∧ ¬ P .descs ∧ ¬ P .graphs ∧ ¬ P .stages ∧ ¬ P .jobs ∧ ¬ P .waits ∧ ¬ P .fences ∧ ¬ P .voids ∧ ¬ P .dep) :
    t.dep = s.dep := by
  obtain ⟨n1, n2, n3, n4, n5, n6, n7, n8, n9⟩ := n
  have k := h.field .dep n9
  have e := fun (x y : Deputy) (q : { x with allocs := [], descs := [], graphs := [], stages := [], jobs := [], waits := [], fences := {}, voids := [] } = ({ y with allocs := [], descs := [], graphs := [], stages := [], jobs := [], waits := [], fences := {}, voids := [] } : Deputy))
    (q1 : x.allocs = y.allocs) (q2 : x.descs = y.descs) (q3 : x.graphs = y.graphs) (q4 : x.stages = y.stages) (q5 : x.jobs = y.jobs)
    (q6 : x.waits = y.waits) (q7 : x.fences = y.fences) (q8 : x.voids = y.voids) => (show x = y by
      cases x
      cases y
      simp only [Deputy.mk.injEq] at *
      simp_all)
  exact e _ _ k (h.field .allocs n1) (h.field .descs n2) (h.field .graphs n3) (h.field .stages n4) (h.field .jobs n5)
    (h.field .waits n6) (h.field .fences n7) (h.field .voids n8)

theorem liveArrays_congr {s t : State} (h : t.dep.fences = s.dep.fences) (c : CoreId) : liveArrays t c = liveArrays s c := by
  unfold liveArrays arrayFenced coreUp
  rw [h]

/-- A part put back to be run again: its charges' commands, its tile at its initial value. -/
theorem putBack_gives (s : State) (c : CoreId) (v w : VatTile) {base : Nat} (hb : w.base = base) :
    let t := settle (reissuePart (putTile s c w) c v) c
    let u : SlotId := ⟨c, v.slot⟩
    TilesChanged c base (fun _ => w) s t ∧ ((getSlot s u).state ≠ .empty → SlotChanged u (reissued v) s t) ∧
    Keeps (· ∈ [.cores]) s t := by
  intro t u
  let r := reissuePart (putTile s c w) c v
  obtain ⟨g1, g2, g3, g4⟩ := settle_gives r c
  have pt := putTile_at s c hb
  have hr : (getSlot s u).state ≠ .empty → r = setSlot (putTile s c w) u (reissued v (getSlot s u)) := by
    intro h
    have e : getSlot (putTile s c w) u = getSlot s u := getSlot_putTile ..
    simp only [r, reissuePart]
    rw [if_neg (by rw [e]; exact h)]
    congr 1
    rw [e]
    unfold reissued
    congr 1
    refine List.map_congr_left fun k _ => ?_
    unfold chargesInto
    cases k.cmd.work <;> simp [and_assoc]
  have hc : ∀ d, { getCore r d with slots := [] } = ({ getCore (putTile s c w) d with slots := [] } : CoreState) := by
    intro d
    simp only [r, reissuePart]
    split
    · rfl
    · exact getCore_setSlot ..
  have ho : ∀ d, d ≠ c → getCore r d = getCore (putTile s c w) d := by
    intro d hd
    simp only [r, reissuePart]
    split
    · rfl
    · exact getCore_setSlot_other _ _ hd
  refine ⟨⟨?_, fun d hd => ?_⟩, fun h => ?_, ?_⟩
  · rw [← pt.1, ← tiles_of (hc c)]
    exact tiles_of (g2 c)
  · exact (g3 d hd).trans ((ho d hd).trans (pt.2 d hd))
  · refine slotsRun_congr g1 fun x => ?_
    unfold freshSlots freshOf
    rw [hr h]
    by_cases e : x = u
    · rw [e, getSlot_setSlot_self, if_pos rfl, if_pos rfl, if_pos rfl]
    · rw [getSlot_setSlot_other _ _ e, getSlot_putTile, if_neg e]
  · have k : Keeps (· ∈ [.cores]) s r := reissuePart_keeps (putTile_keeps (.refl s) _ _ (Can.all _)) _ _ (Can.all _)
    exact k.trans g4

end Sys2Proof.Machine
end

