-- ==== Sys2Proof/Laws/Vats.lean ====
section
/-! SUPPORT. Vats: what the operations do. -/

-- one theorem after the other: proofs side by side would need more memory than the check allows
set_option Elab.async false

namespace Sys2Proof.Machine

open Sys2Proof.Safety

theorem signedOf_toNat (b : BitVec 64) : signedOf 64 b.toNat = b.toInt := by
  have := b.isLt
  simp only [signedOf, BitVec.toInt_eq_toNat_cond, Nat.mod_eq_of_lt this]
  by_cases h : b.toNat < 2 ^ 63
  · rw [if_pos (by omega), if_pos (by omega)]
  · rw [if_neg (by omega), if_neg (by omega)]

theorem fits_iff (v : Int) : fitsX64 v = true ↔ Fits64 v := by
  simp [fitsX64, Fits64]

theorem toInt_of_fits {v : Int} (h : Fits64 v) : (BitVec.ofInt 64 v).toInt = v := by
  obtain ⟨h1, h2⟩ := h
  rw [BitVec.toInt_ofInt, Int.bmod_eq_of_le] <;> omega

theorem toNat_of_fits {v : Int} (h : Fits64 v) : (BitVec.ofInt 64 v).toNat ≠ 2 ^ 63 := by
  intro k
  have e := toInt_of_fits h
  rw [BitVec.toInt_eq_toNat_cond, k] at e
  obtain ⟨h1, h2⟩ := h
  simp at e
  omega

theorem fits_code {t : VatTile} {j : Nat} (h : ¬ IsNan64 t j) : Fits64 (exactCode t j) := by
  unfold IsNan64 at h
  have hl := (tget t.entries 0 j).isLt
  unfold exactCode signedOf Fits64
  rw [Nat.mod_eq_of_lt hl]
  split <;> omega

theorem tget_map (t : Table (BitVec 64)) (g : BitVec 64 → BitVec 64) (h : g 0 = 0) (j : Nat) :
    tget (t.map fun e => (e.1, g e.2)) 0 j = g (tget t 0 j) := by
  induction t with
  | nil => exact h.symm
  | cons e r ih =>
    obtain ⟨k, x⟩ := e
    simp only [List.map_cons, tget]
    split
    · rfl
    · exact ih

/-- The shift of the entries of a tile that holds exact sums (R108). -/
theorem shiftEntries_some {t : VatTile} {k : Nat} {l : Table (BitVec 64)} (h : shiftEntries t k = some l) (j : Nat) :
    (tget l 0 j).toNat = 2 ^ 63 ∧ IsNan64 t j ∨
    ¬ IsNan64 t j ∧ (tget l 0 j).toNat ≠ 2 ^ 63 ∧ signedOf 64 (tget l 0 j).toNat = exactCode t j * 2 ^ k := by
  unfold shiftEntries at h
  split at h
  · rename_i ha
    injection h with h
    have hl : l = t.entries.map fun e => (e.1, if e.2.toNat = x64Nan then e.2 else BitVec.ofInt 64 (signedOf 64 e.2.toNat * 2 ^ k)) := by
      rw [← h]
      apply List.map_congr_left
      intro e _
      split <;> rfl
    rw [hl, tget_map _ (fun b => if b.toNat = x64Nan then b else BitVec.ofInt 64 (signedOf 64 b.toNat * 2 ^ k)) (by
      have : (0 : BitVec 64).toNat ≠ x64Nan := by decide
      rw [if_neg this]
      have : signedOf 64 (0 : BitVec 64).toNat = 0 := by decide
      rw [this, Int.zero_mul]
      rfl)]
    by_cases hn : (tget t.entries 0 j).toNat = x64Nan
    · rw [if_pos hn]
      exact .inl ⟨hn, hn⟩
    · rw [if_neg hn]
      have hf : Fits64 (exactCode t j * 2 ^ k) := by
        rcases tget_mem t.entries 0 j with hm | hm
        · have := List.all_eq_true.mp ha _ hm
          simp only [Bool.or_eq_true, beq_iff_eq] at this
          exact (fits_iff _).mp (this.resolve_left hn)
        · unfold exactCode
          rw [hm]
          have : signedOf 64 (0 : BitVec 64).toNat = 0 := by decide
          rw [this, Int.zero_mul]
          exact ⟨by decide, by decide⟩
      refine .inr ⟨hn, toNat_of_fits hf, ?_⟩
      rw [signedOf_toNat]
      exact toInt_of_fits hf
  · cases h

theorem shiftEntries_none {t : VatTile} {k : Nat} (h : shiftEntries t k = none) :
    ∃ x ∈ t.entries, ¬ Fits64 (signedOf 64 x.2.toNat * 2 ^ k) := by
  unfold shiftEntries at h
  split at h
  · cases h
  · rename_i ha
    rw [Bool.not_eq_true, List.all_eq_false] at ha
    obtain ⟨x, hx, h1⟩ := ha
    exact ⟨x, hx, fun k => h1 (by rw [(fits_iff _).mpr k, Bool.or_true])⟩

theorem addA40_lost (t : VatTile) (i x : Nat) : (addA40 t i x).1.lost = t.lost := rfl

theorem addLost_lost (t : VatTile) (i : Nat) (acc e : Int) : (addLost t i acc e).1.lost = t.lost := rfl

/-- The lowering of a reference in a tile that holds exact sums (R108). -/
theorem lowerRef_gives {t : VatTile} (h0 : t.lost = false) (hs : t.expSet = true) (e : Int) :
    let r := (lowerRef t e).1
    (r.lost = false → r.x64 = t.x64 ∧ r.expSet = true ∧ r.eTop = t.eTop ∧ r.eRef = min t.eRef e ∧
      (∀ j, IsNan64 r j ↔ IsNan64 t j) ∧
      ∀ j, ¬ IsNan64 t j → exactCode r j = exactCode t j * 2 ^ (t.eRef - r.eRef).toNat) ∧
    (r.lost = true → ∃ x ∈ t.entries, ¬ Fits64 (signedOf 64 x.2.toNat * 2 ^ (t.eRef - e).toNat)) := by
  unfold lowerRef
  by_cases hc : t.eRef ≤ e
  · rw [if_pos (by simp [h0, hs, hc])]
    refine ⟨fun _ => ⟨rfl, hs, rfl, (by show t.eRef = min t.eRef e; omega), fun _ => Iff.rfl, fun j _ => ?_⟩, fun k => ?_⟩
    · simp
    · rw [h0] at k
      cases k
  · rw [if_neg (by simp [h0, hs, hc])]
    cases hsh : shiftEntries t (t.eRef - e).toNat with
    | some l =>
      refine ⟨fun _ => ⟨rfl, hs, rfl, (by show e = min t.eRef e; omega), fun j => ?_, fun j hj => ?_⟩, fun k => ?_⟩
      · rcases shiftEntries_some hsh j with h | h
        · exact ⟨fun _ => h.2, fun _ => h.1⟩
        · exact ⟨fun k => absurd k h.2.1, fun k => absurd k h.1⟩
      · rcases shiftEntries_some hsh j with h | h
        · exact absurd h.2 hj
        · exact h.2.2
      · dsimp only at k
        rw [h0] at k
        cases k
    | none => exact ⟨fun k => by simp [loseTile] at k, fun _ => shiftEntries_none hsh⟩

theorem exactCode_tset (t : VatTile) (i j : Nat) (b : BitVec 64) :
    tget (tset t.entries 0 i b) 0 j = if j = i then b else tget t.entries 0 j := tget_tset ..

theorem countVat_cores (s : State) (c : CoreId) (k : VatCounts) : (countVat s c k).cores = s.cores :=
  (countVat_keeps (P := (· ∈ [.regs])) (.refl s) c k (Can.all _)).field .cores (by decide)

theorem countVat_arrays (s : State) (c : CoreId) (k : VatCounts) : (countVat s c k).arrays = s.arrays :=
  (countVat_keeps (P := (· ∈ [.regs])) (.refl s) c k (Can.all _)).field .arrays (by decide)

theorem findTile_putTile {s : State} {c : CoreId} {b : Nat} {w : VatTile} (hw : w.base = b) (d : Nat)
    (x : VatTile) (hx : TileAt s c d x) : TileAt (putTile s c w) c d (if d = b then w else x) := by
  unfold TileAt findTile at *
  rw [putTile, getCore_setCore_self]
  dsimp only
  have hm : ∀ l : List VatTile, (l.map fun u => if u.base = w.base then w else u).find? (fun t => t.base == d) =
      if d = b then (l.find? fun t => t.base == d).map fun _ => w else l.find? fun t => t.base == d := by
    intro l
    induction l with
    | nil => simp
    | cons y r ih =>
      simp only [List.map_cons, List.find?_cons, hw] at ih ⊢
      by_cases c1 : y.base = b
      · rw [if_pos c1, hw, c1]
        by_cases c2 : b = d
        · subst c2
          simp
        · have : ¬ d = b := fun k => c2 k.symm
          simp only [beq_eq_false_iff_ne.mpr c2, ih, if_neg this]
      · rw [if_neg c1]
        by_cases c2 : y.base = d
        · have : ¬ d = b := fun k => c1 (c2.trans k)
          simp [c2, this]
        · simp only [beq_eq_false_iff_ne.mpr c2, ih]
  rw [hm, hx]
  by_cases k : d = b <;> simp [k]

theorem addPartial_base (t : VatTile) (i : Nat) (p : Partial) : (addPartial t i p).1.base = t.base := by
  have hl : ∀ t : VatTile, (loseTile t).1.base = t.base := fun _ => rfl
  have ha : ∀ (t : VatTile) i a e, (addLost t i a e).1.base = t.base := fun _ _ _ _ => rfl
  have hr : ∀ (t : VatTile) e, (lowerRef t e).1.base = t.base := fun t e => by
    unfold lowerRef
    split
    · rfl
    · split
      · rfl
      · exact hl t
  cases p with
  | a40 b => rfl
  | forced b => rfl
  | exact acc e =>
    show (addExact t i acc e).1.base = t.base
    have ht : (if t.expSet then t else { t with expSet := true, eRef := e, eTop := e }).base = t.base := by split <;> rfl
    unfold addExact
    dsimp only
    generalize (if t.expSet = true then t else { t with expSet := true, eRef := e, eTop := e }) = t1 at ht
    split
    · exact ha ..
    · split
      · rfl
      · split
        · exact ht
        · split
          · rw [ha, hr, ht]
          · split
            · exact (hr t1 e).trans ht
            · exact (hr t1 e).trans ht
  | nan =>
    simp only [addPartial]
    split <;> rfl

theorem addOut_base (t : VatTile) (o : DrainOut) : (addOut t o).1.base = t.base := by
  have : ∀ (l : List (Nat × Partial)) (p : VatTile × VatCounts), (l.foldl (fun (p : VatTile × VatCounts) x =>
      let q := addPartial p.1 (64 * o.row + x.1) x.2
      (q.1, p.2.add q.2)) p).1.base = p.1.base := by
    intro l
    induction l with
    | nil => exact fun _ => rfl
    | cons x r ih =>
      intro p
      rw [List.foldl_cons, ih]
      exact addPartial_base ..
  exact this o.parts (t, {})

theorem countVat_zero (s : State) (c : CoreId) : countVat s c {} = s := rfl

theorem noteVat_base (t : VatTile) (k : VatCounts) : (noteVat t k).base = t.base := rfl

theorem tget_filter (l : Table (BitVec 64)) (h : l.Pairwise fun a b => a.1 < b.1) (j : Nat) :
    tget (l.filter fun e => e.2 != 0) 0 j = tget l 0 j := by
  induction l with
  | nil => rfl
  | cons e r ih =>
    obtain ⟨k, x⟩ := e
    have ih := ih (List.pairwise_cons.mp h).2
    by_cases c : x = 0
    · rw [List.filter_cons_of_neg (by simp [c]), ih]
      by_cases d : k = j
      · have hn : tget r 0 j = 0 := by
          rcases tget_mem r 0 j with m | m
          · have := (List.pairwise_cons.mp h).1 _ m
            dsimp only at this
            omega
          · exact m
        rw [hn]
        simp [tget, d, c]
      · simp [tget, d]
    · rw [List.filter_cons_of_pos (by simpa using c)]
      simp only [tget, ih]

theorem tget_range (f : Nat → BitVec 64) (j : Nat) :
    tget (((List.range 4096).map fun i => (i, f i)).filter fun e => e.2 != 0) 0 j = if j < 4096 then f j else 0 := by
  rw [tget_filter]
  · have : ∀ n k, tget ((List.range' k n).map fun i => (i, f i)) 0 j = if k ≤ j ∧ j < k + n then f j else 0 := by
      intro n
      induction n with
      | zero =>
        intro k
        rw [if_neg (by omega)]
        rfl
      | succ n ih =>
        intro k
        simp only [List.range'_succ, List.map_cons, tget, ih]
        by_cases c : k = j
        · subst c
          rw [if_pos rfl, if_pos (by omega)]
        · rw [if_neg c]
          by_cases d : k + 1 ≤ j ∧ j < k + 1 + n
          · rw [if_pos d, if_pos (by omega)]
          · rw [if_neg d, if_neg (by omega)]
    rw [List.range_eq_range', this]
    by_cases c : j < 4096
    · rw [if_pos c, if_pos (by omega)]
    · rw [if_neg c, if_neg (by omega)]
  · rw [List.pairwise_map]
    exact List.pairwise_lt_range

theorem x64ToA40_zero (e : Int) : BitVec.ofNat 64 (x64ToA40 (0 : BitVec 64).toNat e).1 = 0 := by
  have h : signedOf 64 0 = 0 := by decide
  have h2 : ¬ (0 : Nat) = x64Nan := by decide
  simp [x64ToA40, a40Int, a40Of, roundCode, withSign, h, h2]

theorem loseTile_gives (t : VatTile) (ht : TableOk t.entries 0) : (loseTile t).1.lost = true ∧ (loseTile t).1.base = t.base ∧
    (loseTile t).2 = { lost := 1, ovf := (t.entries.filter fun e => (x64ToA40 e.2.toNat t.eRef).2).length } ∧
    ∀ j, tget (loseTile t).1.entries 0 j = BitVec.ofNat 64 (x64ToA40 (tget t.entries 0 j).toNat t.eRef).1 := by
  refine ⟨rfl, rfl, ?_, fun j => ?_⟩
  · simp only [loseTile, List.filter_map, List.length_map]
    rfl
  · have e : (loseTile t).1.entries = (t.entries.map fun e => (e.1, BitVec.ofNat 64 (x64ToA40 e.2.toNat t.eRef).1)).filter
        fun e => e.2 != 0 := by
      simp only [loseTile, List.map_map]
      rfl
    rw [e, tget_filter]
    · exact tget_map _ (fun b => BitVec.ofNat 64 (x64ToA40 b.toNat t.eRef).1) (x64ToA40_zero _) j
    · rw [List.pairwise_map]
      exact ht.1

theorem noteVat_entries (t : VatTile) (k : VatCounts) : (noteVat t k).entries = t.entries := rfl

theorem find_sorted (l : List Nat) (p : Nat → Bool) (b : Nat) (hs : l.Pairwise (· < ·)) (hb : b ∈ l) (hp : p b = true)
    (hl : ∀ d ∈ l, d < b → p d = false) : l.find? p = some b := by
  induction l with
  | nil => cases hb
  | cons x r ih =>
    rw [List.find?_cons]
    by_cases e : x = b
    · subst e
      rw [hp]
    · have hm : b ∈ r := by
        rcases List.mem_cons.mp hb with h | h
        · exact absurd h.symm e
        · exact h
      have hlt : x < b := (List.pairwise_cons.mp hs).1 b hm
      rw [hl x (List.mem_cons_self ..) hlt]
      exact ih (List.pairwise_cons.mp hs).2 hm fun d hd => hl d (List.mem_cons_of_mem _ hd)

theorem mem_positions (x64 : Bool) (b : Nat) : b ∈ positions x64 ↔ Position x64 b := by
  cases x64 <;> simp only [positions, Position, Bool.false_eq_true, if_false, if_true, List.mem_map, List.mem_range] <;>
    exact ⟨fun ⟨k, h1, h2⟩ => ⟨k, h1, h2.symm⟩, fun ⟨k, h1, h2⟩ => ⟨k, h1, h2.symm⟩⟩

theorem positions_sorted (x64 : Bool) : (positions x64).Pairwise (· < ·) := by
  cases x64 <;> decide

theorem find_position {x64 : Bool} {q : Nat → Prop} {b : Nat} (h : LowestAt x64 q b) (p : Nat → Bool) (hp : ∀ d, p d = true ↔ q d) :
    (positions x64).find? p = some b :=
  find_sorted _ p b (positions_sorted x64) ((mem_positions x64 b).mpr h.1) ((hp b).mpr h.2.1) fun d hd hlt => by
    rw [← Bool.not_eq_true, hp]
    exact h.2.2 d ((mem_positions x64 d).mp hd) hlt

theorem choose_free {s : State} {c : CoreId} {x64 : Bool} {b : Nat} (h : LowestAt x64 (FreeAt s c x64) b) :
    choosePosition (getCore s c) x64 = some b := by
  unfold choosePosition
  rw [find_position h _ fun d => List.isEmpty_iff]

theorem yields_iff (s : State) (c : CoreId) (x64 : Bool) (d : Nat) :
    ((inTheWay (getCore s c) x64 d).all fun t => (tget (getCore s c).slots {} t.slot.val).state != .running) = true ↔
      YieldsAt s c x64 d := by
  simp only [List.all_eq_true, bne_iff_ne, ne_eq]
  exact Iff.rfl

theorem choose_yield {s : State} {c : CoreId} {x64 : Bool} {b : Nat} (h0 : ∀ d, Position x64 d → ¬ FreeAt s c x64 d)
    (h : LowestAt x64 (YieldsAt s c x64) b) : choosePosition (getCore s c) x64 = some b := by
  unfold choosePosition
  have : (positions x64).find? (fun b => (inTheWay (getCore s c) x64 b).isEmpty) = none := by
    rw [List.find?_eq_none]
    intro d hd k
    exact h0 d ((mem_positions x64 d).mp hd) (List.isEmpty_iff.mp k)
  rw [this]
  exact find_position h _ (yields_iff s c x64)

theorem writeScratch_core (s : State) (c : CoreId) (off : Nat) (bs : List Byte) (d : CoreId) :
    { getCore (writeScratch s c off bs) d with poisonedWords := [] } = ({ getCore s d with poisonedWords := [] } : CoreState) ∧
    (d ≠ c → getCore (writeScratch s c off bs) d = getCore s d) := by
  by_cases h : (getCore s c).poisonedWords = []
  · have hc : (writeScratch s c off bs).cores = s.cores := by
      unfold writeScratch
      simp only [if_pos h]
    exact ⟨by rw [getCore_congr hc], fun _ => getCore_congr hc d⟩
  · have hc : (writeScratch s c off bs).cores = (setCore s c { getCore s c with
        poisonedWords := unpoison (getCore s c).poisonedWords off bs.length }).cores := by
      unfold writeScratch
      simp only [if_neg h]
    refine ⟨?_, fun hd => by rw [getCore_congr hc, getCore_setCore_other _ _ hd]⟩
    rw [getCore_congr hc]
    by_cases e : d = c
    · subst e
      rw [getCore_setCore_self]
    · rw [getCore_setCore_other _ _ e]

theorem loadBytes_storeBytes (m : List Host.Cell) (a : Nat) (bs : List Byte) : loadBytes (storeBytes m a bs) a bs.length = bs := by
  refine List.ext_getElem (by simp [loadBytes]) fun i h1 h2 => ?_
  simp only [loadBytes, List.getElem_map, List.getElem_range]
  exact loadByte_storeBytes_self m a bs i h2

theorem addTile_gives (s : State) (c : CoreId) (v : VatTile) :
    TilesAre c ((getCore s c).tiles ++ [v]) s (addTile s c v) ∧ ∀ u, getSlot (addTile s c v) u = getSlot s u := by
  refine ⟨⟨by rw [addTile, getCore_setCore_self], fun d hd => by rw [addTile, getCore_setCore_other _ _ hd]⟩, fun u => ?_⟩
  simp only [getSlot, addTile]
  by_cases k : u.core = c
  · rw [k, getCore_setCore_self]
  · rw [getCore_setCore_other _ _ k]

theorem saveAll_nil (s : State) (c : CoreId) : saveAll s c [] = s := by
  unfold saveAll
  rw [List.mergeSort_nil]
  rfl

theorem makeRoom_free {s : State} {c : CoreId} {x64 : Bool} {b : Nat} (h : LowestAt x64 (FreeAt s c x64) b) :
    makeRoom s c x64 = (s, some b) := by
  unfold makeRoom
  simp only [choose_free h]
  rw [show inTheWay (getCore s c) x64 b = [] from h.2.1]
  simp only [List.any_nil, Bool.false_eq_true, if_false, saveAll_nil]

theorem initTile_base (s : State) (v : VatTile) : (initTile s v).base = v.base := by
  unfold initTile
  dsimp only
  split
  · rfl
  · split
    · rfl
    · split <;> rfl

theorem tileBusy_congr {s t : State} (h : t.arrays = s.arrays) (c : CoreId) (b : Nat) : tileBusy t c b = tileBusy s c b := by
  unfold tileBusy
  simp only [getArray_congr h]

/-! ### Save records -/

theorem entryList_length (v : VatTile) : (entryList v).length = 4096 * entryBytes v.x64 := by
  unfold entryList
  rw [List.length_flatMap]
  simp only [leBytes_length, List.map_const', List.length_range, List.sum_replicate_nat]

theorem flatMap_slice (w : Nat) (f : Nat → List Byte) (hf : ∀ i, (f i).length = w) : ∀ (n k i : Nat), k ≤ i → i < k + n →
    sliceBytes ((List.range' k n).flatMap f) (w * (i - k)) w = f i := by
  intro n
  induction n with
  | zero =>
    intro k i h1 h2
    omega
  | succ n ih =>
    intro k i h1 h2
    rw [List.range'_succ, List.flatMap_cons]
    by_cases e : k = i
    · subst e
      rw [Nat.sub_self, Nat.mul_zero, sliceBytes_left (by rw [hf]; omega)]
      have := sliceBytes_all (f k)
      rw [hf] at this
      exact this
    · have h3 : i - k = i - (k + 1) + 1 := by omega
      rw [h3, Nat.mul_add, Nat.mul_one, sliceBytes_right (by rw [hf]; omega), hf, Nat.add_sub_cancel]
      exact ih (k + 1) i (by omega) (by omega)

theorem entry_at (v : VatTile) (i : Nat) (h : i < 4096) :
    leAt (entryList v) (entryBytes v.x64 * i) (entryBytes v.x64) = (tget v.entries 0 i).toNat % 256 ^ entryBytes v.x64 := by
  have := flatMap_slice (entryBytes v.x64) (fun i => leBytes (entryBytes v.x64) (tget v.entries 0 i).toNat)
    (fun i => leBytes_length ..) 4096 0 i (by omega) (by omega)
  rw [Nat.sub_zero] at this
  rw [leAt, entryList, List.range_eq_range', this, leNat_leBytes]

theorem recordHeader_length (v : VatTile) : (recordHeader v).length = 60 := by
  simp [recordHeader]

theorem entryBytes_mul (x64 : Bool) : 4096 * entryBytes x64 = recordSize x64 - 64 := by
  cases x64 <;> rfl

theorem saveRecord_length (v : VatTile) : (saveRecord v).length = recordSize v.x64 := by
  simp only [saveRecord, List.length_append, recordHeader_length, leBytes_length, entryList_length, entryBytes_mul]
  cases v.x64 <;> rfl

theorem signed16 {v : Int} (h1 : -2 ^ 15 ≤ v) (h2 : v < 2 ^ 15) : signedOf 16 (unsignedOf 16 v) = v := by
  unfold signedOf unsignedOf
  have e : (v % ((2 ^ 16 : Nat) : Int)).toNat % 2 ^ 16 = (v % 65536).toNat := by
    have : (v % ((2 ^ 16 : Nat) : Int)) = v % 65536 := rfl
    rw [this]
    omega
  rw [e]
  split <;> omega

theorem unsigned16_lt (v : Int) : unsignedOf 16 v < 65536 := by
  unfold unsignedOf
  have : (v % ((2 ^ 16 : Nat) : Int)) = v % 65536 := rfl
  omega

theorem bit_flags (a b c d : Bool) : bitAt (bitOf a + 2 * bitOf b + 4 * bitOf c + 8 * bitOf d) 0 = a ∧
    bitAt (bitOf a + 2 * bitOf b + 4 * bitOf c + 8 * bitOf d) 1 = b ∧
    bitAt (bitOf a + 2 * bitOf b + 4 * bitOf c + 8 * bitOf d) 2 = c ∧
    bitAt (bitOf a + 2 * bitOf b + 4 * bitOf c + 8 * bitOf d) 3 = d ∧
    bitOf a + 2 * bitOf b + 4 * bitOf c + 8 * bitOf d < 256 := by
  cases a <;> cases b <;> cases c <;> cases d <;> decide

theorem parseEntries_get (v : VatTile) (hv : Savable v) (j : Nat) :
    tget (parseEntries (entryBytes v.x64) (entryList v)) 0 j = tget v.entries 0 j := by
  unfold parseEntries
  rw [tget_range]
  have hj := hv.entries j
  by_cases c : j < 4096
  · rw [if_pos c, entry_at v j c, Nat.mod_eq_of_lt, BitVec.ofNat_toNat, BitVec.setWidth_eq]
    cases h : v.x64 <;> rw [h] at hj
    · exact hj.1
    · exact hj.1
  · rw [if_neg c, hj.2 (by omega)]

theorem parse_save (v : VatTile) (b : Nat) (hv : Savable v) : ∃ u, parseRecord (saveRecord v) b = some u ∧ SameEntries u v ∧
    u = { base := b, x64 := v.x64, isOpen := v.isOpen, lost := v.lost, expSet := v.expSet, forced := v.forced,
          eRef := v.eRef, eTop := v.eTop, part := v.part, split := v.split, segment := v.segment, nextTile := v.nextTile,
          nextPart := v.nextPart, nextSub := v.nextSub, added := v.added, rowTile := v.rowTile, colTile := v.colTile,
          slot := v.slot, entries := u.entries, ready := true } := by
  have hlen := recordHeader_length v
  have hs : saveRecord v = recordHeader v ++ (leBytes 4 (crc32c (recordHeader v ++ entryList v)).toNat ++ entryList v) := by
    simp only [saveRecord, List.append_assoc]
  have hdrop : (saveRecord v).drop 64 = entryList v := by
    rw [hs, List.drop_append, List.drop_eq_nil_of_le (by omega), List.nil_append, hlen]
    have := drop_le (b := entryList v) (v := (crc32c (recordHeader v ++ entryList v)).toNat) (Nat.le_refl 4)
    rw [Nat.sub_self, List.drop_zero] at this
    exact this
  have htake : (saveRecord v).take 0x3C = recordHeader v := by
    rw [hs, List.take_append_of_le_length (by omega), List.take_of_length_le (by omega)]
  have hcrc : leAt (saveRecord v) 0x3C 4 = (crc32c (recordHeader v ++ entryList v)).toNat := by
    rw [hs, leAt_right (by omega), hlen, leAt_first]
    exact Nat.mod_eq_of_lt (crc32c (recordHeader v ++ entryList v)).isLt
  have hh : ∀ off n, off + n ≤ 60 → leAt (saveRecord v) off n = leAt (recordHeader v) off n := fun off n h => by
    rw [hs, leAt_left (by omega)]
  have f0 : leAt (saveRecord v) 0 1 = if v.x64 then fmtX64 else fmtA40 := by
    rw [hh _ _ (by decide), recordHeader]
    simp only [List.append_assoc]
    rw [leAt_first]
    cases v.x64 <;> decide
  have fx : (leAt (saveRecord v) 0 1 == fmtX64) = v.x64 := by
    rw [f0]
    cases v.x64 <;> decide
  have fbad : (leAt (saveRecord v) 0 1 != fmtA40 && leAt (saveRecord v) 0 1 != fmtX64) = false := by
    rw [f0]
    cases v.x64 <;> decide
  have hbody : ((saveRecord v).drop 64).take (recordSize v.x64 - 64) = entryList v := by
    rw [hdrop, List.take_of_length_le]
    apply Nat.le_of_eq
    rw [entryList_length, entryBytes_mul]
  obtain ⟨q1, q2, q3, q4, q5⟩ := bit_flags v.isOpen v.lost v.expSet v.forced
  have g1 : leAt (saveRecord v) 1 1 = bitOf v.isOpen + 2 * bitOf v.lost + 4 * bitOf v.expSet + 8 * bitOf v.forced := by
    rw [hh _ _ (by decide), recordHeader]
    simp only [List.append_assoc]
    rw [leAt_skip (by decide), leAt_first]
    exact Nat.mod_eq_of_lt q5
  have g2 : signedOf 16 (leAt (saveRecord v) 2 2) = v.eRef := by
    rw [hh _ _ (by decide), recordHeader]
    simp only [List.append_assoc]
    rw [leAt_skip (by decide), leAt_skip (by decide), leAt_first]
    cases h : v.x64
    · rw [hv.eRef.2.2 h]
      decide
    · rw [if_pos rfl, Nat.mod_eq_of_lt (show _ < 256 ^ 2 from unsigned16_lt _)]
      exact signed16 hv.eRef.1 hv.eRef.2.1
  have g3 : signedOf 16 (leAt (saveRecord v) 4 2) = v.eTop := by
    rw [hh _ _ (by decide), recordHeader]
    simp only [List.append_assoc]
    rw [leAt_skip (by decide), leAt_skip (by decide), leAt_skip (by decide), leAt_first]
    cases h : v.x64
    · rw [hv.eTop.2.2 h]
      decide
    · rw [if_pos rfl, Nat.mod_eq_of_lt (show _ < 256 ^ 2 from unsigned16_lt _)]
      exact signed16 hv.eTop.1 hv.eTop.2.1
  have g4 : leAt (saveRecord v) 6 2 = v.part := by
    rw [hh _ _ (by decide), recordHeader]
    simp only [List.append_assoc]
    repeat rw [leAt_skip (by decide)]
    rw [leAt_first]
    exact Nat.mod_eq_of_lt hv.part
  have g5 : leAt (saveRecord v) 8 2 = v.split := by
    rw [hh _ _ (by decide), recordHeader]
    simp only [List.append_assoc]
    repeat rw [leAt_skip (by decide)]
    rw [leAt_first]
    exact Nat.mod_eq_of_lt hv.split
  have g6 : leAt (saveRecord v) 0xA 2 = v.segment := by
    rw [hh _ _ (by decide), recordHeader]
    simp only [List.append_assoc]
    repeat rw [leAt_skip (by decide)]
    rw [leAt_first]
    exact Nat.mod_eq_of_lt hv.segment
  have g7 : leAt (saveRecord v) 0xC 4 = v.nextTile := by
    rw [hh _ _ (by decide), recordHeader]
    simp only [List.append_assoc]
    repeat rw [leAt_skip (by decide)]
    rw [leAt_first]
    exact Nat.mod_eq_of_lt hv.nextTile
  have g8 : leAt (saveRecord v) 0x10 4 = v.nextPart + 16 * v.nextSub := by
    rw [hh _ _ (by decide), recordHeader]
    simp only [List.append_assoc]
    repeat rw [leAt_skip (by decide)]
    rw [leAt_first, Nat.mod_eq_of_lt hv.nextPart, Nat.mod_eq_of_lt hv.nextSub]
    have h1 := hv.nextPart
    have h2 := hv.nextSub
    exact Nat.mod_eq_of_lt (by omega)
  have g9 : leAt (saveRecord v) 0x14 4 = v.added := by
    rw [hh _ _ (by decide), recordHeader]
    simp only [List.append_assoc]
    repeat rw [leAt_skip (by decide)]
    rw [leAt_first]
    exact Nat.mod_eq_of_lt hv.added
  have g10 : leAt (saveRecord v) 0x18 4 = v.rowTile := by
    rw [hh _ _ (by decide), recordHeader]
    simp only [List.append_assoc]
    repeat rw [leAt_skip (by decide)]
    rw [leAt_first]
    exact Nat.mod_eq_of_lt hv.rowTile
  have g11 : leAt (saveRecord v) 0x1C 4 = v.colTile := by
    rw [hh _ _ (by decide), recordHeader]
    simp only [List.append_assoc]
    repeat rw [leAt_skip (by decide)]
    rw [leAt_first]
    exact Nat.mod_eq_of_lt hv.colTile
  have g12 : Fin.ofNat 4 (leAt (saveRecord v) 0x20 1) = v.slot := by
    rw [hh _ _ (by decide), recordHeader]
    simp only [List.append_assoc]
    repeat rw [leAt_skip (by decide)]
    rw [leAt_first]
    have := v.slot.isLt
    apply Fin.ext
    simp only [Fin.ofNat]
    omega
  have hes := parseEntries_get v hv
  generalize hpe : parseEntries (entryBytes v.x64) (entryList v) = es at hes
  let u : VatTile :=
    { base := b, x64 := v.x64, isOpen := v.isOpen, lost := v.lost, expSet := v.expSet, forced := v.forced,
      eRef := v.eRef, eTop := v.eTop, part := v.part, split := v.split, segment := v.segment, nextTile := v.nextTile,
      nextPart := v.nextPart, nextSub := v.nextSub, added := v.added, rowTile := v.rowTile, colTile := v.colTile,
      slot := v.slot, entries := es, ready := true }
  refine ⟨u, ?_, hes, rfl⟩
  unfold parseRecord
  simp only [fx, hbody, htake, hcrc, fbad, bne_self_eq_false, Bool.or_self, Bool.false_eq_true, if_false, g1, g2, g3, g4, g5, g6,
    g7, g8, g9, g10, g11, g12, q1, q2, q3, q4, hpe]
  have n1 := hv.nextPart
  have n2 := hv.nextSub
  rw [show (v.nextPart + 16 * v.nextSub) % 16 = v.nextPart by omega, show (v.nextPart + 16 * v.nextSub) / 16 % 16 = v.nextSub by omega]

theorem combineTiles_base (l r : VatTile) : (combineTiles l r).1.base = l.base := by
  unfold combineTiles
  dsimp only
  split
  · split <;> rfl
  · rfl

theorem slotCount_tiles (s : State) (u : SlotId) (k n : Nat) (d : CoreId) :
    (getCore (slotCount s u k n) d).tiles = (getCore s d).tiles ∧ (d ≠ u.core → getCore (slotCount s u k n) d = getCore s d) := by
  unfold slotCount
  dsimp only
  split
  · exact ⟨rfl, fun _ => rfl⟩
  · refine ⟨?_, fun h => getCore_setSlot_other _ _ h⟩
    have h1 := congrArg CoreState.tiles (getCore_setSlot s u { getSlot s u with counts := addCount (getSlot s u).counts k n } d)
    dsimp only at h1
    exact h1

theorem combineA40_get (l r : VatTile) (hl : l.x64 = false) (hr : r.x64 = false) (i : Nat) (h : i < 4096) :
    tget (combineA40 l r).1 0 i = BitVec.ofNat 64 (vatAdd (tget l.entries 0 i).toNat (tget r.entries 0 i).toNat).1 := by
  have e : (combineA40 l r).1 = ((List.range 4096).map fun i =>
      (i, BitVec.ofNat 64 (vatAdd (entryA40 l i).1 (entryA40 r i).1).1)).filter fun e => e.2 != 0 := by
    rw [combineA40]
    simp only [List.map_map]
    rfl
  rw [e, tget_range, if_pos h]
  simp only [entryA40, hl, hr, Bool.false_and, Bool.false_eq_true, if_false]

/-- The multiplier of an entry when it is aligned to a lower reference (R110). -/
def alignBy (t : VatTile) (ref : Int) : Nat :=
  if t.expSet then (t.eRef - ref).toNat else 0

theorem countVat_regs_congr {s t : State} (h : t.regs = s.regs) (c : CoreId) (k : VatCounts) :
    (countVat t c k).regs = (countVat s c k).regs := by
  unfold countVat
  have r : ∀ {p q : State} (z : p.regs = q.regs) (n o : Nat) (f : Nat × Nat),
      (if n = 0 then p else raise (count p (vatRegBase c) o n) (vatRegBase c) f).regs =
      (if n = 0 then q else raise (count q (vatRegBase c) o n) (vatRegBase c) f).regs := by
    intro p q z n o f
    by_cases h : n = 0
    · rw [if_pos h, if_pos h, z]
    · rw [if_neg h, if_neg h]
      exact raise_regs_congr (count_regs_congr z _ _ _) _ _
  have r2 : ∀ {p q : State} (z : p.regs = q.regs) (n o : Nat),
      (if n = 0 then p else count p (vatRegBase c) o n).regs = (if n = 0 then q else count q (vatRegBase c) o n).regs := by
    intro p q z n o
    by_cases h : n = 0
    · rw [if_pos h, if_pos h, z]
    · rw [if_neg h, if_neg h]
      exact count_regs_congr z _ _ _
  exact r (r2 (r2 (r (r (r2 h _ _) _ _ _) _ _ _) _ _) _ _) _ _ _

/-- One drained vector taken by the vat. -/
theorem acceptOut_gives (s : State) (a : ArrayId) (o : DrainOut) :
    let t := acceptOut s a o
    (∀ b v, TileAt s a.core b v → TileAt t a.core b (if o.tile = b then tileTaking a v [o] else v)) ∧
      (∀ d, d ≠ a.core → getCore t d = getCore s d) ∧ t.arrays = s.arrays := by
  intro t
  let c := a.core
  let f (t : VatTile) : VatTile × VatCounts := if t.isOpen && t.array == some a.array then addOut t o else (t, {})
  by_cases hf : ∃ w, TileAt s c o.tile w
  · obtain ⟨w, hw⟩ := hf
    have e : t = countVat (putTile s c (noteVat (f w).1 (f w).2)) c (f w).2 := by
      simp only [t, acceptOut, onTile]
      rw [show findTile s a.core o.tile = some w from hw]
    have hr : (noteVat (f w).1 (f w).2).base = o.tile := by
      rw [noteVat_base, ← findTile_base hw]
      simp only [f]
      split
      · exact addOut_base ..
      · rfl
    have hc : t.cores = (putTile s c (noteVat (f w).1 (f w).2)).cores := by rw [e, countVat_cores]
    refine ⟨fun b v hv => ?_, fun d hd => ?_, ?_⟩
    · have := findTile_putTile hr b v hv
      unfold TileAt at *
      rw [findTile_congr hc, this]
      by_cases k : b = o.tile
      · subst k
        rw [hw] at hv
        cases hv
        rw [if_pos rfl, if_pos rfl]
        simp only [tileTaking, List.foldl_cons, List.foldl_nil, f]
        split
        · rfl
        · rfl
      · rw [if_neg k, if_neg (Ne.symm k)]
    · rw [getCore_congr hc, putTile, getCore_setCore_other _ _ hd]
    · rw [e, countVat_arrays]
      simp only [putTile, setCore_arrays]
  · have e : t = s := by
      simp only [t, acceptOut, onTile]
      cases hx : findTile s a.core o.tile with
      | none => rfl
      | some w => exact absurd ⟨w, hx⟩ hf
    rw [e]
    refine ⟨fun b v hv => ?_, fun _ _ => rfl, rfl⟩
    rw [if_neg fun k => hf ⟨v, by rw [k]; exact hv⟩]
    exact hv

theorem tileTaking_cons (a : ArrayId) (v : VatTile) (o : DrainOut) (l : List DrainOut) :
    tileTaking a v (o :: l) = tileTaking a (tileTaking a v [o]) l := rfl

theorem accept_fold (a : ArrayId) (l : List DrainOut) : ∀ s : State,
    let t := l.foldl (fun s o => acceptOut s a o) s
    (∀ b v, TileAt s a.core b v → TileAt t a.core b (tileTaking a v (l.filter (·.tile == b)))) ∧
      (∀ d, d ≠ a.core → getCore t d = getCore s d) ∧ t.arrays = s.arrays := by
  induction l with
  | nil => exact fun s => ⟨fun _ _ h => h, fun _ _ => rfl, rfl⟩
  | cons o r ih =>
    intro s t
    obtain ⟨h1, h2, h3⟩ := acceptOut_gives s a o
    obtain ⟨k1, k2, k3⟩ := ih (acceptOut s a o)
    refine ⟨fun b v hv => ?_, fun d hd => (k2 d hd).trans (h2 d hd), k3.trans h3⟩
    have := k1 b _ (h1 b v hv)
    by_cases e : o.tile = b
    · rw [if_pos e, ← tileTaking_cons] at this
      rw [List.filter_cons_of_pos (by simpa using e)]
      exact this
    · rw [if_neg e] at this
      rw [List.filter_cons_of_neg (by simpa using e)]
      exact this

/-- One tile saved. -/
theorem saveTile_gives (s : State) (c : CoreId) (v : VatTile) (off : Nat) (spill : Bool) : let t := saveTile s c v off spill
    t.mem = storeBytes s.mem (scratchAddr c off) (saveRecord v) ∧
    TilesAre c ((getCore s c).tiles.filter fun w => w.base != v.base) s t ∧
    getSlot t (tileSlot c v) = { getSlot s (tileSlot c v) with
      saved := (getSlot s (tileSlot c v)).saved ++ [{ offset := off, spill := spill, kept := keptOf v }] } ∧
    (∀ u, u ≠ tileSlot c v → getSlot t u = getSlot s u) ∧
    RegsAs (count (count s (vatRegBase c) Ctr.VAT_SAVE_CNT 1) (coreRegBase c) Ctr.CORE_SAVE_CYC_CNT
      (recordSize v.x64 / 64)) t ∧ t.arrays = s.arrays := by
  intro t
  let s1 := writeScratch s c off (saveRecord v)
  let s2 := dropTile s1 c v.base
  let s3 := setSlot s2 (tileSlot c v) { getSlot s2 (tileSlot c v) with
    saved := (getSlot s2 (tileSlot c v)).saved ++ [{ offset := off, spill := spill, kept := keptOf v }] }
  let s4 := count (count s3 (vatRegBase c) Ctr.VAT_SAVE_CNT 1) (coreRegBase c) Ctr.CORE_SAVE_CYC_CNT (recordSize v.x64 / 64)
  have e : t = s4 := rfl
  have c4 : s4.cores = s3.cores := by simp only [s4, count_cores]
  have q := fun d => (writeScratch_core s c off (saveRecord v) d)
  have hs : ∀ u, getSlot s2 u = getSlot s u := by
    intro u
    have h1 : (getCore s1 u.core).slots = (getCore s u.core).slots := by
      have := congrArg CoreState.slots (q u.core).1
      dsimp only at this
      exact this
    have h2 : (getCore s2 u.core).slots = (getCore s1 u.core).slots := by
      simp only [s2, dropTile]
      by_cases k : u.core = c
      · rw [k, getCore_setCore_self]
      · rw [getCore_setCore_other _ _ k]
    simp only [getSlot, h2, h1]
  refine ⟨?_, ⟨?_, fun d hd => ?_⟩, ?_, fun u hu => ?_, ?_, ?_⟩
  · rw [e]
    simp only [s4, count_mem, s3, setSlot_mem, s2, dropTile, setCore_mem, s1, writeScratch_mem]
  · rw [e, getCore_congr c4]
    have h1 := congrArg CoreState.tiles (getCore_setSlot s2 (tileSlot c v) { getSlot s2 (tileSlot c v) with
      saved := (getSlot s2 (tileSlot c v)).saved ++ [{ offset := off, spill := spill, kept := keptOf v }] } c)
    dsimp only at h1
    rw [show s3 = setSlot s2 _ _ from rfl, h1]
    simp only [s2, dropTile, getCore_setCore_self]
    have := congrArg CoreState.tiles (q c).1
    dsimp only at this
    rw [show s1 = writeScratch s c off (saveRecord v) from rfl, this]
  · rw [e, getCore_congr c4, show s3 = setSlot s2 _ _ from rfl, getCore_setSlot_other _ _ (show d ≠ (tileSlot c v).core from hd)]
    simp only [s2, dropTile]
    rw [getCore_setCore_other _ _ hd]
    exact (q d).2 hd
  · rw [e, getSlot_congr c4, show s3 = setSlot s2 _ _ from rfl, getSlot_setSlot_self, hs]
  · rw [e, getSlot_congr c4, show s3 = setSlot s2 _ _ from rfl, getSlot_setSlot_other _ _ hu, hs]
  · rw [e, RegsAs]
    refine count_regs_congr (count_regs_congr ?_ _ _ _) _ _ _
    simp only [s3, setSlot_regs, s2, dropTile, setCore_regs, s1, writeScratch_regs]
  · rw [e]
    have can := Can.all [.mem, .regs, .cores]
    exact (saveTile_keeps (P := (· ∈ [.mem, .regs, .cores])) (.refl s) c v off spill).field .arrays (by decide)

theorem combineExact_some {l r : VatTile} {ref : Int} {es : Table (BitVec 64)} (h : combineExact l r ref = some es) (i : Nat)
    (hi : i < 4096) :
    ((tget es 0 i).toNat = 2 ^ 63 ↔ IsNan64 l i ∨ IsNan64 r i) ∧
    (¬ (IsNan64 l i ∨ IsNan64 r i) → signedOf 64 (tget es 0 i).toNat =
      exactCode l i * 2 ^ alignBy l ref + exactCode r i * 2 ^ alignBy r ref) := by
  let at_ (t : VatTile) (i : Nat) : Option Int :=
    if (tget t.entries 0 i).toNat = x64Nan then none else some (exactCode t i * 2 ^ alignBy t ref)
  let fits (o : Option Int) : Bool := match o with | some v => fitsX64 v | none => true
  let sum (a b : Option Int) : Option Int := match a, b with | some x, some y => some (x + y) | _, _ => none
  let code (o : Option Int) : BitVec 64 :=
    match o with
    | some c => BitVec.ofInt 64 c
    | none => BitVec.ofNat 64 x64Nan
  have e : combineExact l r ref = if ((List.range 4096).map fun i => (i, at_ l i, at_ r i)).all fun e =>
      fits e.2.1 && fits e.2.2 && fits (sum e.2.1 e.2.2) then
      some ((((List.range 4096).map fun i => (i, at_ l i, at_ r i)).map fun e => (e.1, code (sum e.2.1 e.2.2))).filter fun e => e.2 != 0)
      else none := by
    have hc : (fun e : Nat × Option Int × Option Int => match sum e.2.1 e.2.2 with
        | some c => (e.1, BitVec.ofInt 64 c)
        | none => (e.1, BitVec.ofNat 64 x64Nan)) = fun e => (e.1, code (sum e.2.1 e.2.2)) := by
      funext e
      simp only [code]
      split <;> rfl
    rw [← hc]
    rfl
  rw [e] at h
  split at h
  · rename_i hall
    injection h with h
    rw [List.map_map] at h
    have hget : tget es 0 i = code (sum (at_ l i) (at_ r i)) := by
      rw [← h]
      refine (tget_range (fun i => code (sum (at_ l i) (at_ r i))) i).trans ?_
      rw [if_pos hi]
    have hok : (fits (at_ l i) && fits (at_ r i) && fits (sum (at_ l i) (at_ r i))) = true :=
      List.all_eq_true.mp hall (i, at_ l i, at_ r i) (List.mem_map.mpr ⟨i, List.mem_range.mpr hi, rfl⟩)
    rw [hget]
    by_cases hl : IsNan64 l i
    · have : sum (at_ l i) (at_ r i) = none := by
        simp only [sum, at_]
        rw [if_pos (show (tget l.entries 0 i).toNat = x64Nan from hl)]
      rw [this]
      exact ⟨⟨fun _ => .inl hl, fun _ => rfl⟩, fun k => absurd (.inl hl) k⟩
    · by_cases hr : IsNan64 r i
      · have : sum (at_ l i) (at_ r i) = none := by
          simp only [sum, at_]
          rw [if_pos (show (tget r.entries 0 i).toNat = x64Nan from hr), if_neg (show ¬ (tget l.entries 0 i).toNat = x64Nan from hl)]
        rw [this]
        exact ⟨⟨fun _ => .inr hr, fun _ => rfl⟩, fun k => absurd (.inr hr) k⟩
      · have : sum (at_ l i) (at_ r i) = some (exactCode l i * 2 ^ alignBy l ref + exactCode r i * 2 ^ alignBy r ref) := by
          simp only [sum, at_]
          rw [if_neg (show ¬ (tget r.entries 0 i).toNat = x64Nan from hr), if_neg (show ¬ (tget l.entries 0 i).toNat = x64Nan from hl)]
        rw [this] at hok ⊢
        simp only [fits, Bool.and_eq_true] at hok
        have hf := (fits_iff _).mp hok.2
        refine ⟨⟨fun k => absurd k (toNat_of_fits hf), fun k => absurd k (not_or.mpr ⟨hl, hr⟩)⟩, fun _ => ?_⟩
        simp only [code]
        rw [signedOf_toNat, toInt_of_fits hf]
  · cases h

/-- An operation on a tile that is placed. -/
theorem onTile_at {s : State} {c : CoreId} {b : Nat} {v : VatTile} (h : TileAt s c b v) (f : VatTile → VatTile × VatCounts)
    (hb : (f v).1.base = b) :
    TilesChanged c b (fun _ => noteVat (f v).1 (f v).2) s (onTile s c b f) ∧ RegsAs (countVat s c (f v).2) (onTile s c b f) ∧
      SameBut [.regs, .cores] s (onTile s c b f) := by
  have e : onTile s c b f = countVat (putTile s c (noteVat (f v).1 (f v).2)) c (f v).2 := by
    unfold onTile
    rw [show findTile s c b = some v from h]
  rw [e]
  refine ⟨?_, ?_, ?_⟩
  · have := putTile_tiles s c (noteVat (f v).1 (f v).2)
    rw [noteVat_base, hb] at this
    have hc : (countVat (putTile s c (noteVat (f v).1 (f v).2)) c (f v).2).cores = _ := countVat_cores ..
    exact ⟨by rw [getCore_congr hc]; exact this.1, fun d hd => by rw [getCore_congr hc]; exact this.2 d hd⟩
  · rw [RegsAs]
    exact countVat_regs_congr (by simp only [putTile, setCore_regs]) _ _
  · have can := Can.all [.regs, .cores]
    exact (countVat_keeps (P := (· ∈ [.regs, .cores])) (putTile_keeps (.refl s) ..) ..).sameBut

end Sys2Proof.Machine
end

