-- ==== Sys2Proof/Laws/Adits.lean ====
section
/-! SUPPORT. The adits and the assay: what the operations do. -/

-- one theorem after the other: proofs side by side would need more memory than the check allows
set_option Elab.async false

namespace Sys2Proof.Machine

open Sys2Proof.Safety

theorem countUnits_snd (s : State) (b o k r n : Nat) : (countUnits s b o k r n).2 = (r + n) % k := rfl

theorem setStage_of (s : State) (g n : Nat) (x : Stage) : getStage (setStage s g n x) g n = x ∧
    ∀ k m, (k, m) ≠ (g, n) → m < 65536 → n < 65536 → getStage (setStage s g n x) k m = getStage s k m := by
  refine ⟨tget_tset_self .., fun k m h h1 h2 => tget_tset_other _ _ _ fun e => h ?_⟩
  have : k = g ∧ m = n := by omega
  rw [this.1, this.2]

theorem assayElem (q : Nat) (e : Int) (hq : 3 ≤ q) (h1 : -(2 : Int) ^ (q - 1) ≤ e) (h2 : e < (2 : Int) ^ (q - 1)) :
    -2 ≤ e / 2 ^ (q - 2) ∧ e / 2 ^ (q - 2) ≤ 1 ∧ 0 ≤ e - 2 ^ (q - 2) * (e / 2 ^ (q - 2)) ∧
      e - 2 ^ (q - 2) * (e / 2 ^ (q - 2)) < 2 ^ (q - 2) := by
  have hp : (0 : Int) < 2 ^ (q - 2) := Int.pow_pos (by decide)
  have hd : (2 : Int) ^ (q - 1) = 2 ^ (q - 2) * 2 := by rw [← Int.pow_succ]; congr 1; omega
  have m1 := Int.emod_nonneg e (Int.ne_of_gt hp)
  have m2 := Int.emod_lt_of_pos e hp
  have m3 := Int.mul_ediv_add_emod e (2 ^ (q - 2))
  refine ⟨?_, ?_, by omega, by omega⟩
  · apply (Int.le_ediv_iff_mul_le hp).mpr; omega
  · have : e / 2 ^ (q - 2) < 2 := (Int.ediv_lt_iff_lt_mul hp).mpr (by omega)
    omega

theorem mem_auditRows (n : Nat) (l : List Nat) (r : Nat) :
    r ∈ auditRowsOf n l ↔ ∃ i, l[i]? = some r ∧ (n + i + 1) % 4096 = 0 := by
  unfold auditRowsOf
  rw [List.mem_filterMap]
  constructor
  · rintro ⟨i, -, h⟩
    split at h
    · exact ⟨i, h, ‹_›⟩
    · cases h
  · rintro ⟨i, h, k⟩
    refine ⟨i, List.mem_range.mpr ?_, by rw [if_pos k]; exact h⟩
    exact (List.getElem?_eq_some_iff.mp h).1

theorem abort_one (s : State) (u : SlotId) (h : (getSlot s u).state ≠ .empty) : Aborted u s (abortTask s u) := by
  have hu := mem_residentSlots h
  have e : abortTask s u = abortWork s [u] [] := by simp only [abortTask, if_neg h]
  let p := abortReach s [u] []
  let c := p.2.foldl resetChute s
  have kc : Keeps (· ∈ [.regs, .txQueue, .sessions, .outs, .chutes]) s c := by
    have can := Can.all [.regs, .txQueue, .sessions, .outs, .chutes]
    exact Keeps.foldl (.refl s) _ fun a b k => resetChute_keeps k b
  have hcores : c.cores = s.cores := kc.field .cores (by decide)
  have hho : c.hoists = s.hoists := kc.field .hoists (by decide)
  have hw : abortWork s [u] [] = (p.1.filter fun t => (getSlot c t).state != .empty).foldl dropTask c := rfl
  obtain ⟨a1, -⟩ := dropTasks_gives s (p.1.filter fun t => (getSlot c t).state != .empty) [] c (fun v h => by cases h)
    fun v _ => ⟨getSlot_congr hcores v, tilesOf_congr hcores v, getQueue_congr hho _⟩
  rw [e, hw]
  refine a1 u ?_
  rw [List.nil_append, List.mem_filter, abortReach_iff s u hu, getSlot_congr hcores]
  exact ⟨.self, by simpa using h⟩

/-- The jobs of `t` are those of `s`, with their nodes. -/
def NodesKept (s t : State) : Prop :=
  t.dep.jobs.map (fun j => (j.key, j.nodes)) = s.dep.jobs.map fun j => (j.key, j.nodes)

theorem nodesKept_same {s t : State} (h : t.dep.jobs = s.dep.jobs) : NodesKept s t := by
  rw [NodesKept, h]

theorem nodesKept_updJob (s : State) (k : Nat) (f : Job → Job) (hk : ∀ j, (f j).key = j.key) (hn : ∀ j, (f j).nodes = j.nodes) :
    NodesKept s (updJob s k f) := by
  show (s.dep.jobs.map _).map _ = _
  rw [List.map_map]
  refine List.map_congr_left fun j _ => ?_
  simp only [Function.comp]
  split
  · rw [hk, hn]
  · rfl

theorem nodesKept_holdJob (s : State) (k c : Nat) : NodesKept s (holdJob s k c) := by
  unfold holdJob
  split
  · split
    · exact nodesKept_same rfl
    · have h := nodesKept_updJob s k (fun j => { j with state := .held, holdCause := c }) (fun _ => rfl) fun _ => rfl
      have k1 : Keeps (· ∈ [.regs]) (updJob s k fun j => { j with state := .held, holdCause := c }) _ :=
        raise_keeps (count_keeps (.refl _) depBase Ctr.DEP_HELD_CNT 1 (Can.all _)) depBase Flag.dep_HELD (Can.all _)
      exact (nodesKept_same (k1.field .jobs (by decide))).trans h
  · exact nodesKept_same rfl

theorem nodesKept_by {z s t : State} (h : NodesKept z s) (e : t.dep.jobs = s.dep.jobs) : NodesKept z t :=
  (nodesKept_same e).trans h

theorem nodesKept_regs {z s t : State} (h : NodesKept z s) (k : Keeps (· ∈ [.regs]) s t) : NodesKept z t :=
  nodesKept_by h (k.field .jobs (by decide))

theorem nodesKept_trans {s t z : State} (h : NodesKept s t) (k : NodesKept t z) : NodesKept s z := Eq.trans k h

theorem aborted_from {u : SlotId} {s z t : State} (h : Aborted u z t) (hc : (getSlot z u).counter = (getSlot s u).counter)
    (hi : (getSlot z u).index = (getSlot s u).index) (hj : (getSlot z u).job = (getSlot s u).job) (hh : z.hoists = s.hoists) :
    Aborted u s t := by
  obtain ⟨h1, h2, h3, h4, h5⟩ := h
  refine ⟨h1, h2, h3, ?_, ?_⟩
  · rw [h4, getQueue_congr hh]
  · rw [hc, hi, hj] at h5
    exact h5

theorem aborted_congr {u : SlotId} {s t w : State} (h : Aborted u s t) (hc : w.cores = t.cores) (hd : w.dep.jobs = t.dep.jobs ∧ w.dep.reruns = t.dep.reruns)
    (hh : w.hoists = t.hoists) : Aborted u s w := by
  obtain ⟨h1, h2, h3, h4, h5⟩ := h
  have hj : ∀ k, getJob w k = getJob t k := fun k => by simp only [getJob, hd.1]
  refine ⟨by rw [getSlot_congr hc, h1], by rw [tilesOf_congr hc, h2], by rw [getQueue_congr hh, h3], by rw [getQueue_congr hh, h4], ?_⟩
  rw [hd.2]
  refine h5.imp_right fun g j e => g j ?_
  rw [← hj]
  exact e

theorem auditReports_keeps (c : CoreId) (l : List (Fin 4)) (s : State) :
    Keeps (· ∈ [.regs]) s (l.foldl (fun s a => reportFault s (.auditFail ⟨c, a⟩)) s) :=
  Keeps.foldl (.refl s) _ fun y a hy => by rw [reportFault]; exact logFault_keeps hy _ _ _ _ _ (Can.all _)

theorem writeModule_dram {s : State} {at_ : Addr} {bs : List Byte} (ha : InDram at_) :
    (writeModule s at_ bs).regs = s.regs ∧ (writeModule s at_ bs).mem = storeBytes s.mem at_ bs := by
  obtain ⟨x, y, hxy⟩ := ha
  unfold writeModule
  rw [hxy]
  dsimp only
  have q1 : ∀ z b c, Keeps (· ∈ [.assays]) z (staleAssays z b c) := fun z b c =>
    (staleAssays_keeps (P := (· ∈ [.assays])) (.refl z) b c (Can.all _))
  have q2 : ∀ z b c, Keeps (· ∈ [.voids, .dep]) z (revalidate z b c) := fun z b c =>
    (revalidate_keeps (P := (· ∈ [.voids, .dep])) (.refl z) b c (Can.all _))
  exact ⟨((q1 _ _ _).field .regs (by decide)).trans ((q2 _ _ _).field .regs (by decide)),
    ((q1 _ _ _).field .mem (by decide)).trans ((q2 _ _ _).field .mem (by decide))⟩

theorem nodesKept_get {s t : State} (h : NodesKept s t) {k : Nat} {j : Job} (hj : getJob s k = some j) :
    ∃ j', getJob t k = some j' ∧ j'.nodes = j.nodes := by
  unfold NodesKept at h
  unfold getJob at hj ⊢
  generalize s.dep.jobs = a at h hj
  generalize t.dep.jobs = b at h
  induction a generalizing b with
  | nil => cases hj
  | cons x r ih =>
    cases b with
    | nil => cases h
    | cons y q =>
      simp only [List.map_cons, List.cons.injEq, Prod.mk.injEq] at h
      rw [List.find?_cons] at hj ⊢
      rw [h.1.1]
      split at hj
      · exact ⟨y, rfl, by cases hj; exact h.1.2⟩
      · exact ih hj q h.2

theorem groupCtx_iff (s : State) (u : AditId) (k i : Nat) (c : TaskCtx) :
    groupCtx s u k i = some c ↔ MayGroup s u k i c := by
  unfold groupCtx
  extract_lets w
  constructor
  · intro h
    split at h
    · cases h
    · rename_i hn
      simp only [Bool.or_eq_true, not_or, Bool.not_eq_true, Bool.not_eq_false', Bool.not_eq_true', List.contains_eq_mem,
        decide_eq_true_eq, decide_eq_false_iff_not, and_assoc, Bool.not_eq_false, Decidable.not_not] at hn
      obtain ⟨h1, h2, h3, h4, h5, h6, h7, h8, h9⟩ := hn
      rw [Option.filter_eq_some_iff] at h
      obtain ⟨hc, hp⟩ := h
      simp only [Bool.and_eq_true, beq_iff_eq] at hp
      refine ⟨h1, (mayServe_iff s _).mp h2, h3, h4, h5, h6, h7, h8, fun d hd e => ?_, hc, hp⟩
      have := List.any_eq_false.mp h9 d hd
      simp [e.1, e.2] at this
  · intro h
    rw [if_neg, Option.filter_eq_some_iff]
    · exact ⟨h.task, by simp [h.path.1, h.path.2]⟩
    · have h2 := (mayServe_iff s _).mpr h.serves
      have h3 := h.given
      simp only [Bool.or_eq_true, not_or, Bool.not_eq_true, Bool.not_eq_false', Bool.not_eq_true', List.contains_eq_mem,
        decide_eq_true_eq, decide_eq_false_iff_not, and_assoc, Bool.not_eq_false, Decidable.not_not]
      refine ⟨h.module, h2, h3, h.unit, h.seam, h.dram, h.kclk, h.mclk, List.any_eq_false.mpr fun d hd e => ?_⟩
      simp only [Bool.and_eq_true, beq_iff_eq] at e
      exact h.open_ d hd e

theorem groupTranslates_iff (s : State) : groupTranslates s = true ↔ Translates s := by
  simp [groupTranslates, Translates]

/-- The four things that ADIT_COLUMN_GROUP may do. -/
theorem columnGroup_cases {s : State} {u : AditId} {k i : Nat} {core : CoreId} {c : TaskCtx} (h : MayGroup s u k i c)
    (hc : coreUp s core = true) (us : List AditUpset) (bad : Bool) : columnGroup s u k i core us bad =
      if bad && groupTranslates s then abortGroup s u k i c
      else if worksOn s u k i = false then beginGroup s u k i c
      else if aditWaits s u then s else runGroup s u k i core us c := by
  unfold columnGroup
  rw [(groupCtx_iff ..).mpr h]
  simp only [hc]
  cases worksOn s u k i <;> rfl

theorem columnGroup_none {s : State} {u : AditId} {k i : Nat} {core : CoreId} (us : List AditUpset) (bad : Bool)
    (h : (∀ c, ¬ MayGroup s u k i c) ∨ coreUp s core = false) : columnGroup s u k i core us bad = s := by
  unfold columnGroup
  split
  · rfl
  · rename_i c hc
    obtain h | h := h
    · exact absurd ((groupCtx_iff ..).mp hc) (h c)
    · rw [h]; rfl

theorem joinWrites_fst (l : List RowWrites) : (joinWrites l).1 = l.flatMap (·.1) := by
  have : ∀ (a : RowWrites), (l.foldl RowWrites.append a).1 = a.1 ++ l.flatMap (·.1) := by
    induction l with
    | nil => intro a; simp
    | cons x r ih => intro a; rw [List.foldl_cons, ih]; simp [RowWrites.append]
  rw [joinWrites, this]
  rfl

/-- What a row of a scalar output writes: its live columns, each converted, at its element's address (R28, R414). -/
theorem mem_rowWrites {d : Desc} (hb : isBlock d.format = false) (mods : CvtMod) (m first n ext : Nat) (val : Nat → Option FVal)
    (a : Addr) (bs : List Byte) : (a, bs) ∈ (rowWrites d mods m first n ext val).1 ↔
      ∃ i v, i < n ∧ first + i < ext ∧ val (first + i) = some v ∧ a = unitAddr d [first + i, m] ∧
        bs = leBytes (unitBytes d.format) (cvtScalar d.format mods v).1 := by
  unfold rowWrites
  extract_lets live
  rw [if_neg (by rw [hb]; decide), joinWrites_fst]
  simp only [List.mem_flatMap, List.mem_filterMap, List.mem_range, Option.map_eq_some_iff]
  constructor
  · rintro ⟨w, ⟨i, hi, v, hv, rfl⟩, hm⟩
    simp only [live] at hv
    split at hv
    · rename_i hl
      simp only [elemWrites, List.mem_singleton, Prod.mk.injEq] at hm
      exact ⟨i, v, hi, hl.2.2, hv, hm.1, hm.2⟩
    · cases hv
  · rintro ⟨i, v, hi, he, hv, rfl, rfl⟩
    exact ⟨_, ⟨i, hi, v, by simp only [live]; rw [if_pos ⟨by omega, by omega, he⟩]; exact hv, rfl⟩, by simp [elemWrites]⟩

/-- What the results of a column group write: the entries of its live rows and columns. -/
theorem mem_groupWrites (s : State) (c : TaskCtx) {d : Desc} (v : VatTile) (hb : isBlock d.format = false) (a : Addr)
    (bs : List Byte) : (a, bs) ∈ (groupWrites s c d v).1 ↔ ∃ m n, m < 64 ∧ n < 64 ∧ m < (ctxLens c).1 ∧ m ∉ c.run.maskM ∧
      m < extentHere s c.image d 1 ∧ 64 * c.task.colTile + n < extentHere s c.image d 0 ∧
      64 * c.task.colTile + n < (ctxLens c).2.2 ∧ 64 * c.task.colTile + n ∉ c.run.maskN ∧
      a = unitAddr d [64 * c.task.colTile + n, m] ∧
      bs = leBytes (unitBytes d.format) (cvtScalar d.format (nodeMods c.node) (vatEntryVal v (64 * m + n))).1 := by
  unfold groupWrites
  extract_lets ct dead
  rw [joinWrites_fst]
  simp only [List.mem_flatMap, List.mem_map, List.mem_filter, rowsOfTile, List.mem_range, Bool.and_eq_true, decide_eq_true_eq,
    Bool.not_eq_true', List.contains_eq_mem, decide_eq_false_iff_not, Nat.mul_zero, Nat.zero_add]
  constructor
  · rintro ⟨w, ⟨m, ⟨⟨h1, h2, h3⟩, h4⟩, rfl⟩, hm⟩
    obtain ⟨i, x, hi, he, hv, rfl, rfl⟩ := (mem_rowWrites hb ..).mp hm
    split at hv
    · cases hv
    · rename_i hd
      cases hv
      simp only [dead, deadCols, List.mem_filter, List.mem_range, Bool.or_eq_true, decide_eq_true_eq, List.contains_eq_mem,
        Nat.add_sub_cancel_left, ct, hi, true_and, not_or, Nat.not_le] at hd
      exact ⟨m, i, h1, hi, h2, h3, h4, he, hd.1, hd.2, rfl, by rw [Nat.add_sub_cancel_left]⟩
  · rintro ⟨m, n, h1, hn, h2, h3, h4, he, h5, h6, rfl, rfl⟩
    have hd : 64 * ct + n - 64 * ct ∉ dead := by
      simp only [dead, deadCols, List.mem_filter, List.mem_range, Bool.or_eq_true, decide_eq_true_eq, List.contains_eq_mem,
        Nat.add_sub_cancel_left, ct, hn, true_and, not_or, Nat.not_le]
      exact ⟨h5, h6⟩
    exact ⟨_, ⟨m, ⟨⟨h1, h2, h3⟩, h4⟩, rfl⟩, (mem_rowWrites hb ..).mpr ⟨n, _, hn, he, if_neg hd, rfl, by
      rw [Nat.add_sub_cancel_left]⟩⟩

theorem boundReady_iff (s : State) (u : SlotId) (rt ct : Nat) (c : TaskCtx) (v : VatTile) (t : AssayTable) :
    boundReady s u rt ct = some (c, v, t) ↔ AssayReady s u rt ct c v t := by
  unfold boundReady
  constructor
  · intro h
    split at h
    · rename_i c' v' e1 e2
      split at h
      · cases h
      · rename_i hn
        simp only [Bool.or_eq_true, not_or, Bool.not_eq_true, Bool.not_eq_false', Bool.not_eq_true', Bool.not_eq_false] at hn
        obtain ⟨t', ht, he⟩ := Option.map_eq_some_iff.mp h
        cases he
        exact ⟨e1, e2, hn.1.1, hn.2, by simpa using hn.1.2, ht⟩
    · cases h
  · intro h
    rw [h.task, h.tile]
    simp only [h.closed, h.first, h.on, h.table]
    rfl

theorem auditReady_iff (s : State) (u : SlotId) (rt ct m : Nat) (c : TaskCtx) (v f : VatTile) (t : AssayTable) :
    auditReady s u rt ct m = some (c, v, f, t) ↔ AuditDue s u rt ct m c v f t := by
  unfold auditReady
  constructor
  · intro h
    split at h
    · rename_i c' v' f' e1 e2 e3
      split at h
      · cases h
      · rename_i hn
        simp only [Bool.or_eq_true, not_or, Bool.not_eq_true, Bool.not_eq_false', Bool.not_eq_true', List.contains_eq_mem,
          decide_eq_true_eq, Bool.not_eq_false] at hn
        obtain ⟨t', ht, he⟩ := Option.map_eq_some_iff.mp h
        cases he
        exact ⟨e1, ⟨e2, hn.1.1⟩, ⟨e3, hn.1.2⟩, hn.2, ht⟩
    · cases h
  · intro h
    rw [h.task, h.assay.1, h.full.1]
    have := h.row
    simp only [h.assay.2, h.full.2, h.table]
    rw [if_neg (by simpa using this)]
    rfl

theorem auditHolds_iff (s : State) (c : TaskCtx) (v f : VatTile) (t : AssayTable) (m : Nat) :
    auditHolds s c v f t m = true ↔ WithinBounds s c v f t m := by
  unfold auditHolds WithinBounds
  simp only [List.all_eq_true, Bool.and_eq_true]
  constructor
  · intro h i n b hn hb
    have hm : (n, b) ∈ (liveCols c v.colTile).zip (rowBounds s c v t m) := by
      refine List.mem_of_getElem? (i := i) ?_
      rw [List.getElem?_zip_eq_some]
      exact ⟨hn, hb⟩
    exact h _ hm
  · rintro h ⟨n, b⟩ he
    obtain ⟨i, hi⟩ := List.getElem?_of_mem he
    rw [List.getElem?_zip_eq_some] at hi
    exact h i n b hi.1 hi.2

theorem nodesKept_noteIndexAbort (s : State) (seam counter index job unit sub : Nat) :
    NodesKept s (noteIndexAbort s seam counter index job unit sub) := by
  unfold noteIndexAbort
  extract_lets key n s1 s2 e counts running d4 s4 s5 s6
  have h1 : NodesKept s s1 := nodesKept_regs (nodesKept_same rfl) (count_keeps (.refl s) depBase Ctr.DEP_ABORT_CNT 1 (Can.all _))
  have h3 : NodesKept s s2 := nodesKept_trans h1 (nodesKept_updJob s1 job _ (fun _ => rfl) fun _ => rfl)
  clear_value s2
  split
  · have h4 : NodesKept s s4 := nodesKept_by h3 rfl
    have h5 : NodesKept s s5 := nodesKept_regs h4 (raise_keeps (.refl _) depBase Flag.dep_ABORT_LIMIT (Can.all _))
    clear_value s5
    exact nodesKept_trans (nodesKept_regs h5 (logFault_keeps (.refl _) _ _ _ _ _ (Can.all _))) (nodesKept_holdJob ..)
  · exact nodesKept_by h3 rfl

theorem nodesKept_noteAbort (s : State) (u : SlotId) : NodesKept s (noteAbort s u) := by
  unfold noteAbort
  have can := Can.all [.regs]
  exact nodesKept_trans (nodesKept_regs (nodesKept_same rfl) (raise_keeps (count_keeps (.refl s) ..) ..)) (nodesKept_noteIndexAbort ..)

theorem nodesKept_dropTask (s : State) (u : SlotId) : NodesKept s (dropTask s u) := by
  have kt := dropTask_fromClear s u
  have k2 : Keeps (· ∈ [.regs, .arrays, .hoists, .scatters]) s
      (cancelQueue (dropCharges (dropScatter s u) u) (slotQueue u)) := by
    have can := Can.all [.regs, .arrays, .hoists, .scatters]
    exact cancelQueue_keeps (dropCharges_keeps (dropScatter_keeps (.refl s) ..) ..) ..
  have hb : beforeClear s u = noteAbort (cancelQueue (dropCharges (dropScatter s u) u) (slotQueue u)) u := rfl
  rw [hb] at kt
  exact (nodesKept_same (kt.field .jobs (by decide))).trans
    ((nodesKept_noteAbort _ u).trans (nodesKept_same (k2.field .jobs (by decide))))

theorem nodesKept_abort (s : State) (u : SlotId) : NodesKept s (abortTask s u) := by
  unfold abortTask
  split
  · exact nodesKept_same rfl
  · let p := abortReach s [u] []
    let c := p.2.foldl resetChute s
    have kc : Keeps (· ∈ [.regs, .txQueue, .sessions, .outs, .chutes]) s c := by
      have can := Can.all [.regs, .txQueue, .sessions, .outs, .chutes]
      exact Keeps.foldl (.refl s) _ fun a b k => resetChute_keeps k b
    have hc : NodesKept s c := nodesKept_same (kc.field .jobs (by decide))
    show NodesKept s ((p.1.filter fun t => (getSlot c t).state != .empty).foldl dropTask c)
    generalize (p.1.filter fun t => (getSlot c t).state != .empty) = l
    clear kc
    generalize c = d at hc
    induction l generalizing d with
    | nil => exact hc
    | cons x r ih => exact ih (dropTask d x) ((nodesKept_dropTask d x).trans hc)

end Sys2Proof.Machine
end

