-- ==== Sys2Proof/Laws/Blocks.lean ====
section
/-! SUPPORT. Integer blocks and the vat window: what the operations do. -/

-- one theorem after the other: proofs side by side would need more memory than the check allows
set_option Elab.async false

namespace Sys2Proof.Machine

open Sys2Proof.Safety

theorem elemVal_int {f raw : Nat} (h : floatOf f = none) : elemVal f raw = .fin (decide (intElem f raw < 0)) (intElem f raw).natAbs (intStep f) := by
  simp only [elemVal, h]
  rfl

theorem isInt_scale {f raw x : Nat} {a e : Int} (h : floatOf f = none) (hx : x < 0xFF) (ha : intElem f raw = a)
    (he : intStep f + ((x : Int) - 127) = e) : IsInt a e (scaleVal x (elemVal f raw)) := by
  rw [elemVal_int h, ha]
  refine ⟨decide (a < 0), a.natAbs, ?_, ?_⟩
  · simp only [scaleVal, if_neg (Nat.ne_of_lt hx)]
    rw [← he, Int.add_sub_assoc]
  · split <;> rename_i g <;> simp only [decide_eq_true_eq] at g <;> omega

theorem signedOf_lt {w raw : Nat} (hw : 0 < w) (h : raw < 2 ^ w) :
    signedOf w raw = if raw < 2 ^ (w - 1) then (raw : Int) else raw - (2 ^ w : Nat) := by
  simp only [signedOf, Nat.mod_eq_of_lt h]

end Sys2Proof.Machine
end

