-- ==== Sys2Proof/Laws/Hoists.lean ====
section
/-! SUPPORT. Hoists: what the operations do. -/

-- one theorem after the other: proofs side by side would need more memory than the check allows
set_option Elab.async false

namespace Sys2Proof.Machine

open Sys2Proof.Safety

theorem queueTakes_iff (s : State) (q : QueueId) : queueTakes s q = true ↔ QueueTakes s q := by
  unfold queueTakes
  rw [Bool.and_eq_true]
  constructor
  · rintro ⟨h1, h2⟩
    refine ⟨h1, fun u hu => ?_⟩
    rw [hu] at h2
    simpa [and_assoc] using h2
  · rintro ⟨h1, h2⟩
    refine ⟨h1, ?_⟩
    split
    · rename_i u hu
      simpa [and_assoc] using h2 u hu
    · rfl

theorem queueTakes_not {s : State} {q : QueueId} (h : ¬ QueueTakes s q) : (!queueTakes s q) = true := by
  rw [Bool.not_eq_true', ← Bool.not_eq_true, queueTakes_iff]
  exact h

theorem queueTakes_yes {s : State} {q : QueueId} (h : QueueTakes s q) : ¬ (!queueTakes s q) = true := by
  rw [(queueTakes_iff s q).mpr h]
  decide

theorem pieceRange_some {r : MoveRun} {k : Nat} (h : pieceRange r = some k) : r.fill = none ∧ r.src / 4096 = k := by
  unfold pieceRange at h
  split at h
  · cases h
  · exact ⟨‹_›, Option.some.inj h⟩

theorem movedBytes_append (a b : List MoveRun) : movedBytes (a ++ b) = movedBytes a ++ movedBytes b := by
  simp only [movedBytes, List.flatMap_append]

theorem setQueue_twice (s : State) (q : QueueId) (x y : HoistQueue) (p : QueueId) :
    getQueue (setQueue (setQueue s q x) q y) p = if p = q then y else getQueue s p := by
  split
  · rename_i h; rw [h]; exact getQueue_setQueue_self ..
  · rename_i h; rw [getQueue_setQueue_other _ _ h, getQueue_setQueue_other _ _ h]

theorem insertKeyed_perm (x : Nat × MoveRun) (l : List (Nat × MoveRun)) : (insertKeyed x l).Perm (x :: l) := by
  induction l with
  | nil => exact .refl _
  | cons y r ih =>
    unfold insertKeyed
    split
    · exact .refl _
    · exact (List.Perm.cons y ih).trans (.swap ..)

theorem foldr_insertKeyed (l : List (Nat × MoveRun)) : (l.foldr insertKeyed []).Perm l := by
  induction l with
  | nil => exact .refl _
  | cons x r ih => exact (insertKeyed_perm x _).trans (.cons x ih)

theorem keyed_moves (f : Nat → Nat) (ms : List MoveRun) :
    ((List.range ms.length).filterMap fun i => ms[i]?.map fun m => (f i, m)).map (·.2) = ms := by
  have : ∀ (k : Nat) (l : List MoveRun), ms.drop k = l →
      ((List.range' k l.length).filterMap fun i => ms[i]?.map fun m => (f i, m)).map (·.2) = l := by
    intro k l
    induction l generalizing k with
    | nil => intro _; rfl
    | cons x r ih =>
      intro hk
      have hx : ms[k]? = some x := by
        have := congrArg List.head? hk
        simpa [List.head?_drop] using this
      have hr : ms.drop (k + 1) = r := by
        rw [← List.tail_drop, hk]; rfl
      rw [List.length_cons, List.range'_succ, List.filterMap_cons, hx]
      dsimp only [Option.map_some]
      rw [List.map_cons, ih (k + 1) hr]
  have h := this 0 ms rfl
  rw [← List.range_eq_range'] at h
  exact h

theorem countOob_gives (s : State) (q : QueueId) (n : Nat) : Keeps (· ∈ [.regs, .cores]) s (countOob s q n) ∧
    (∀ u, (getSlot (countOob s q n) u).state = (getSlot s u).state) ∧
    (0 < n → (countOob s q n).regs = (raise (count s (hoistRegBase q.seam q.hoist) Ctr.HOIST_IDX_OOB_CNT n) (hoistRegBase q.seam q.hoist)
      Flag.hoist_IDX_OOB).regs) := by
  have can := Can.all [.regs, .cores]
  refine ⟨countOob_keeps (.refl s) .., ?_, fun h => ?_⟩
  · intro u
    unfold countOob
    split
    · rfl
    · extract_lets b s1
      have h1 : s1.cores = s.cores := by rw [show s1 = raise (count s b Ctr.HOIST_IDX_OOB_CNT n) b Flag.hoist_IDX_OOB from rfl, raise_cores, count_cores]
      split
      · rename_i t ht
        by_cases hu : u = t
        · subst hu
          obtain ⟨-, h2, -⟩ := slotCount_kept s1 u cntIdxOob n
          have := congrArg TaskSlot.state h2
          dsimp only at this
          rw [this, getSlot_congr h1]
        · rw [(slotCount_kept s1 t cntIdxOob n).1 u hu, getSlot_congr h1]
      · exact congrArg TaskSlot.state (getSlot_congr h1 u)
  · unfold countOob
    rw [if_neg (by omega)]
    dsimp only
    split
    · exact slotCount_regs ..
    · rfl

theorem movedBytes_cons (r : MoveRun) (l : List MoveRun) : movedBytes (r :: l) = movedBytes [r] ++ movedBytes l :=
  movedBytes_append [r] l

theorem movedBytes_join (r q : MoveRun) (hr : r.fill = none) (hq : q.fill = none) (hd : r.dst + r.len = q.dst) (hs : r.src + r.len = q.src) :
    movedBytes [{ r with len := r.len + q.len }] = movedBytes [r] ++ movedBytes [q] := by
  simp only [movedBytes, List.flatMap_cons, List.flatMap_nil, List.append_nil, hr, hq]
  rw [List.range_add, List.map_append, List.map_map]
  congr 1
  refine List.map_congr_left fun i _ => ?_
  simp only [Function.comp]
  rw [← hd, ← hs, Nat.add_assoc, Nat.add_assoc]

theorem mem_tuples : ∀ (ext v : List Nat), v ∈ tuples ext → v.length = ext.length ∧ ∀ k (h : k < ext.length), v.getD k 0 < ext[k]
  | [], v, h => by
    simp only [tuples, List.mem_singleton] at h
    subst h
    exact ⟨rfl, fun k h => by cases h⟩
  | e :: r, v, h => by
    simp only [tuples, List.mem_flatMap, List.mem_map, List.mem_range] at h
    obtain ⟨t, ht, i, hi, rfl⟩ := h
    obtain ⟨h1, h2⟩ := mem_tuples r t ht
    refine ⟨by simp [h1], fun k hk => ?_⟩
    cases k with
    | zero => simpa using hi
    | succ k =>
      have := h2 k (by simpa using hk)
      simpa using this

theorem inBounds_iff (x : Int) (n : Nat) : inBounds x n = true ↔ 0 ≤ x ∧ x < n := by
  simp [inBounds]

theorem queueBefore_iff (s : State) (a b : Nat × Segment) : queueBefore s a b = true ↔ GoesBefore s a.1 a.2 b.1 b.2 := by
  unfold queueBefore GoesBefore
  dsimp only
  split
  · rename_i h
    split
    · rename_i hp
      simp only [beq_iff_eq, decide_eq_decide] at hp
      simp only [decide_eq_true_eq]
      constructor
      · intro k; exact .inr ⟨h, .inr ⟨hp, k⟩⟩
      · rintro (k | ⟨-, k | k⟩)
        · rw [h] at k; exact absurd k (Nat.lt_irrefl _)
        · have := hp.mp k.1; omega
        · exact k.2
    · rename_i hp
      simp only [beq_iff_eq, decide_eq_decide] at hp
      simp only [decide_eq_true_eq]
      constructor
      · intro k; exact .inr ⟨h, .inl ⟨k, by omega⟩⟩
      · rintro (k | ⟨-, k | k⟩)
        · rw [h] at k; exact absurd k (Nat.lt_irrefl _)
        · exact k.1
        · exact absurd k.1 hp
  · rename_i h
    simp only [decide_eq_true_eq]
    exact ⟨.inl, fun k => k.resolve_right fun ⟨e, _⟩ => h e⟩

theorem choose_fold (s : State) (l : List (Nat × Segment)) (c : Nat × Segment) : ∀ (acc : Option (Nat × Segment)),
    (c ∈ l ∨ acc = some c) → (∀ x, (x ∈ l ∨ acc = some x) → x = c ∨ (queueBefore s c x = true ∧ queueBefore s x c = false)) →
    l.foldl (fun best c => match best with
      | none => some c
      | some b => if queueBefore s c b then some c else some b) acc = some c := by
  induction l with
  | nil =>
    intro acc h _
    rcases h with h | h
    · cases h
    · exact h
  | cons x r ih =>
    intro acc h hm
    rw [List.foldl_cons]
    apply ih
    · cases acc with
      | none =>
        rcases h with h | h
        · rcases List.mem_cons.mp h with h | h
          · right; rw [h]
          · exact .inl h
        · cases h
      | some b =>
        dsimp only
        by_cases hc : c ∈ r
        · exact .inl hc
        · right
          have hx := hm x (.inl (List.mem_cons_self ..))
          have hb := hm b (.inr rfl)
          rcases h with h | h
          · rcases List.mem_cons.mp h with h | h
            · subst h
              rcases hb with hb | hb
              · subst hb; split <;> rfl
              · rw [if_pos hb.1]
            · exact absurd h hc
          · cases h
            rcases hx with hx | hx
            · subst hx; split <;> rfl
            · rw [if_neg (by rw [hx.2]; decide)]
    · intro y hy
      rcases hy with hy | hy
      · exact hm y (.inl (List.mem_cons_of_mem _ hy))
      · cases acc with
        | none => cases hy; exact hm x (.inl (List.mem_cons_self ..))
        | some b =>
          dsimp only at hy
          split at hy
          · cases hy; exact hm x (.inl (List.mem_cons_self ..))
          · cases hy; exact hm _ (.inr rfl)

theorem goesBefore_asymm {s : State} {n m : Nat} {g k : Segment} (h : GoesBefore s n g m k) : ¬ GoesBefore s m k n g := by
  unfold GoesBefore at h ⊢
  rcases h with h | ⟨e, h⟩
  · rintro (j | ⟨e, -⟩)
    · exact Nat.lt_asymm h j
    · rw [e] at h; exact Nat.lt_irrefl _ h
  · rintro (j | ⟨-, j⟩)
    · rw [e] at j; exact Nat.lt_irrefl _ j
    · rcases h with ⟨h1, h2⟩ | ⟨h1, h2⟩ <;> rcases j with ⟨j1, j2⟩ | ⟨j1, j2⟩ <;> omega

theorem xlateFault_eq (s : State) (q : QueueId) (a : Addr) : xlateFault s q a =
    match queueSlot q with
    | some t => abortTask (faultNoted s q a) t
    | none => if q.queue.val = 17 then reportFault (faultNoted s q a) (.translation q) else faultNoted s q a := rfl

theorem queueSlot_none {q : QueueId} (h : 16 ≤ q.queue.val) : queueSlot q = none := by
  unfold queueSlot
  rw [if_neg (by omega)]

theorem landedNoted_gives (s : State) (q : QueueId) (n : Nat) (slow : Bool) : let b := hoistRegBase q.seam q.hoist
    Counted (b + Ctr.HOIST_BYTES_CNT) (((getQueue s q).landed + n) / 4096) s (landedNoted s q n slow) ∧
    Counted (b + Ctr.HOIST_SEG_CNT) 1 s (landedNoted s q n slow) ∧
    Counted (b + Ctr.HOIST_SLOW_CNT) (if slow then ((getQueue s q).slow + n) / 4096 else 0) s (landedNoted s q n slow) ∧
    QueueIs q { getQueue s q with
      landed := ((getQueue s q).landed + n) % 4096
      slow := if slow then ((getQueue s q).slow + n) % 4096 else (getQueue s q).slow } s (landedNoted s q n slow) ∧
    Keeps (· ∈ [.regs, .hoists, .cores]) s (landedNoted s q n slow) := by
  intro b
  have can := Can.all [.regs, .hoists, .cores]
  let x := getQueue s q
  let y : HoistQueue := { x with
      landed := (x.landed + n) % 4096
      slow := if slow then (x.slow + n) % 4096 else x.slow }
  let s1 := setQueue (count s b Ctr.HOIST_BYTES_CNT ((x.landed + n) / 4096)) q y
  have k1 : Keeps (· ∈ [.regs, .hoists, .cores]) s s1 := setQueue_keeps (count_keeps (.refl s) ..) ..
  have h1 : s1.hoists = (setQueue s q y).hoists := by
    simp only [s1, setQueue, count_hoists]
  have r1 : ∀ a, rawReg s1 a = rawReg (count s b Ctr.HOIST_BYTES_CNT ((x.landed + n) / 4096)) a := fun a => rawReg_congr (setQueue_regs ..) a
  obtain ⟨z, hz, hr, hq⟩ : ∃ z, landBytes s q n slow = z ∧
      (∀ a, rawReg z a = rawReg (if slow then count s1 b Ctr.HOIST_SLOW_CNT ((x.slow + n) / 4096) else s1) a) ∧ z.hoists = s1.hoists := by
    refine ⟨_, rfl, fun a => ?_, ?_⟩
    · unfold landBytes
      dsimp only
      cases slow with
      | false => rfl
      | true =>
        simp only [if_true]
        split
        · exact rawReg_congr (slotCount_regs ..) a
        · rfl
    · unfold landBytes
      dsimp only
      cases slow with
      | false => rfl
      | true =>
        simp only [if_true]
        split
        · rw [(slotCount_keeps (P := (· ∈ [.cores])) (.refl _) _ _ _ (Can.all _)).field .hoists (by decide), count_hoists]
          rfl
        · rw [count_hoists]
          rfl
  have kz : Keeps (· ∈ [.regs, .hoists, .cores]) s z := by
    rw [← hz]
    exact landBytes_keeps (.refl s) ..
  have e : landedNoted s q n slow = count z b Ctr.HOIST_SEG_CNT 1 := by rw [landedNoted, hz]
  rw [e]
  refine ⟨?_, ?_, ?_, ?_, count_keeps kz ..⟩
  · rw [Counted, rawReg_count_other _ (by simp only [Ctr.HOIST_BYTES_CNT, Ctr.HOIST_SEG_CNT]; omega), hr]
    cases slow with
    | false => rw [if_neg (by decide), r1, rawReg_count_self]
    | true => rw [if_pos rfl, rawReg_count_other _ (by simp only [Ctr.HOIST_BYTES_CNT, Ctr.HOIST_SLOW_CNT]; omega), r1, rawReg_count_self]
  · rw [Counted, rawReg_count_self, hr]
    have e1 : rawReg s1 (b + Ctr.HOIST_SEG_CNT) = rawReg s (b + Ctr.HOIST_SEG_CNT) := by
      rw [r1, rawReg_count_other _ (by simp only [Ctr.HOIST_BYTES_CNT, Ctr.HOIST_SEG_CNT]; omega)]
    cases slow with
    | false => rw [if_neg (by decide), e1]
    | true => rw [if_pos rfl, rawReg_count_other _ (by simp only [Ctr.HOIST_SEG_CNT, Ctr.HOIST_SLOW_CNT]; omega), e1]
  · rw [Counted, rawReg_count_other _ (by simp only [Ctr.HOIST_SLOW_CNT, Ctr.HOIST_SEG_CNT]; omega), hr]
    have e1 : rawReg s1 (b + Ctr.HOIST_SLOW_CNT) = rawReg s (b + Ctr.HOIST_SLOW_CNT) := by
      rw [r1, rawReg_count_other _ (by simp only [Ctr.HOIST_BYTES_CNT, Ctr.HOIST_SLOW_CNT]; omega)]
    cases slow with
    | false => rw [if_neg (by decide), if_neg (by decide), e1, satAdd_zero]
    | true => rw [if_pos rfl, if_pos rfl, rawReg_count_self, e1]
  · have hh : (count z b Ctr.HOIST_SEG_CNT 1).hoists = (setQueue s q y).hoists := by rw [count_hoists, hq, h1]
    exact ⟨by rw [getQueue_congr hh, getQueue_setQueue_self], fun p hp => by rw [getQueue_congr hh, getQueue_setQueue_other _ _ hp]⟩

theorem loadBytes_length (m : List Host.Cell) (a n : Nat) : (loadBytes m a n).length = n := by
  simp [loadBytes]

theorem enqueueTo_gives (s : State) (q : QueueId) (cmd : HoistCmd) (sink : Sink) :
    Queued q cmd sink s (enqueueTo s q cmd sink) ∧ SameBut [.hoists] s (enqueueTo s q cmd sink) :=
  ⟨⟨getQueue_setQueue_self .., fun _ h => getQueue_setQueue_other _ _ h⟩, (setQueue_keeps (.refl s) _ _ (Can.all [.hoists])).sameBut⟩

theorem cutAll_ok (k w : Nat) : ∀ (r : MoveRun) (pos : Nat), r.fill = none → r.len ≤ 4096 * k + (4096 - r.src % 4096) →
    (∀ p ∈ cutAll r w k pos, p.run.fill = none ∧ p.run.len + p.run.src % 4096 ≤ 4096) ∧
      movedBytes ((cutAll r w k pos).map (·.run)) = movedBytes [r] := by
  induction k with
  | zero =>
    intro r b hf hl
    refine ⟨fun p hp => ?_, rfl⟩
    simp only [cutAll, List.mem_singleton] at hp
    subst hp
    exact ⟨hf, by dsimp only; omega⟩
  | succ k ih =>
    intro r b hf hl
    have hc : cutRun r = if r.len ≤ 4096 - r.src % 4096 then (r, none) else
        ({ r with len := 4096 - r.src % 4096 }, some (runAfter r (4096 - r.src % 4096))) := by
      unfold cutRun
      rw [hf]
    unfold cutAll
    rw [hc]
    by_cases h : r.len ≤ 4096 - r.src % 4096
    · rw [if_pos h]
      refine ⟨fun p hp => ?_, rfl⟩
      simp only [List.mem_singleton] at hp
      subst hp
      exact ⟨hf, by dsimp only; omega⟩
    · rw [if_neg h]
      dsimp only
      obtain ⟨i1, i2⟩ := ih (runAfter r (4096 - r.src % 4096)) (b + (4096 - r.src % 4096)) hf (by simp only [runAfter]; omega)
      refine ⟨fun p hp => ?_, ?_⟩
      · rcases List.mem_cons.mp hp with hp | hp
        · subst hp
          exact ⟨hf, by dsimp only; omega⟩
        · exact i1 p hp
      · rw [List.map_cons, movedBytes, List.flatMap_cons, ← movedBytes, i2]
        simp only [movedBytes, List.flatMap_cons, List.flatMap_nil, List.append_nil, hf, runAfter]
        have : r.len = (4096 - r.src % 4096) + (r.len - (4096 - r.src % 4096)) := by omega
        generalize (4096 - r.src % 4096) = n at *
        generalize r.len - n = m at *
        rw [this, List.range_add, List.map_append, List.map_map]
        congr 1
        refine List.map_congr_left fun i _ => ?_
        simp only [Function.comp]
        rw [Nat.add_assoc, Nat.add_assoc]

theorem cutAll_fill (k w pos : Nat) (r : MoveRun) (h : r.fill ≠ none) :
    cutAll r w k pos = [{ run := r, whole := w, at_ := pos }] := by
  cases k with
  | zero => rfl
  | succ k =>
    unfold cutAll
    have : cutRun r = (r, none) := by
      unfold cutRun
      split
      · rfl
      · exact absurd ‹_› h
    rw [this]

theorem groupPieces_ok : ∀ l : List RunMove, (∀ p ∈ l, p.run.fill = none → p.run.len + p.run.src % 4096 ≤ 4096) →
    (∀ g ∈ groupPieces l, g ≠ [] ∧ InOneRange (g.map (·.run))) ∧ (groupPieces l).flatten = l := by
  intro l
  induction l with
  | nil => exact fun _ => ⟨fun g hg => (by cases hg), rfl⟩
  | cons r rest ih =>
    intro h
    obtain ⟨i1, i2⟩ := ih fun p hp => h p (List.mem_cons_of_mem _ hp)
    have one : InOneRange [r.run] := by
      cases hf : r.run.fill with
      | some bs => exact .inl ⟨r.run, rfl, by rw [hf]; rfl⟩
      | none =>
        refine .inr ⟨r.run.src / 4096, fun q hq => ?_⟩
        rw [List.mem_singleton] at hq
        subst hq
        exact ⟨hf, rfl, h r (List.mem_cons_self ..) hf⟩
    unfold groupPieces
    split
    · rename_i q qs gs he
      rw [he] at i1 i2
      split
      · rename_i hq
        refine ⟨fun g hg => ?_, ?_⟩
        · rcases List.mem_cons.mp hg with hg | hg
          · subst hg
            refine ⟨by simp, .inr ?_⟩
            obtain ⟨m, hm⟩ := Option.isSome_iff_exists.mp hq.2
            obtain ⟨f1, f2⟩ := pieceRange_some hm
            obtain ⟨g1, g2⟩ := pieceRange_some (hq.1.symm.trans hm)
            have hr := h r (List.mem_cons_self ..) f1
            rcases (i1 _ (List.mem_cons_self ..)).2 with ⟨y, hy, hs⟩ | ⟨m', hm'⟩
            · simp only [List.map_cons, List.cons.injEq] at hy
              rw [← hy.1, g1] at hs
              cases hs
            · have := hm' q.run (List.mem_cons_self ..)
              refine ⟨m', fun y hy => ?_⟩
              rcases List.mem_cons.mp hy with hy | hy
              · subst hy
                exact ⟨f1, by rw [f2, ← g2]; exact this.2.1, hr⟩
              · exact hm' y hy
          · exact i1 g (List.mem_cons_of_mem _ hg)
        · simp only [List.flatten_cons, List.cons_append] at i2 ⊢
          rw [i2]
      · refine ⟨fun g hg => ?_, ?_⟩
        · rcases List.mem_cons.mp hg with hg | hg
          · subst hg; exact ⟨by simp, one⟩
          · exact i1 g hg
        · rw [List.flatten_cons, i2]; rfl
    · rename_i gs he
      refine ⟨fun g hg => ?_, ?_⟩
      · rcases List.mem_cons.mp hg with hg | hg
        · subst hg; exact ⟨by simp, one⟩
        · exact i1 g hg
      · rw [List.flatten_cons, i2]; rfl

/-- The segments of a transfer keep to one source range each, and together they carry every byte in order (R215). -/
theorem segmentRuns_ok (l : List MoveRun) : (∀ g ∈ segmentRuns l, InOneRange (g.map (·.run))) ∧
    movedBytes ((segmentRuns l).flatten.map (·.run)) = movedBytes l := by
  obtain ⟨g1, g2⟩ := groupPieces_ok (l.flatMap fun r => cutAll r r.len (r.len / 4096 + 1) 0) fun p hp hf => by
    obtain ⟨r, hr, hc⟩ := List.mem_flatMap.mp hp
    by_cases hn : r.fill = none
    · exact ((cutAll_ok (r.len / 4096 + 1) r.len r 0 hn (by omega)).1 p hc).2
    · rw [cutAll_fill _ _ _ _ hn, List.mem_singleton] at hc
      subst hc
      exact absurd hf hn
  refine ⟨fun g hg => (g1 g hg).2, ?_⟩
  rw [segmentRuns, g2]
  clear g1 g2
  induction l with
  | nil => rfl
  | cons r l ih =>
    rw [List.flatMap_cons, List.map_append, movedBytes_append, ih, movedBytes_cons r l]
    congr 1
    by_cases hn : r.fill = none
    · exact (cutAll_ok (r.len / 4096 + 1) r.len r 0 hn (by omega)).2
    · rw [cutAll_fill _ _ _ _ hn]
      rfl

theorem makeSegments_get (q : QueueId) (next : Nat) (now : Time) (cmd : HoistCmd) {i : Nat} {g : Segment}
    (h : (makeSegments q next now cmd .memory)[i]? = some g) : g.id = next + i ∧ g.cmd = next ∧ g.deps = cmd.deps ∧
      g.slow = cmd.slow ∧ g.enqueued = now ∧ g.dry = commandDry q now cmd.dry ∧ (segmentRuns cmd.runs)[i]? = some g.runs := by
  simp only [makeSegments, ne_eq, not_true, and_false, if_false, List.getElem?_map] at h
  cases hr : (List.range (segmentRuns cmd.runs).length)[i]? with
  | none => rw [hr] at h; cases h
  | some j =>
    rw [hr] at h
    obtain ⟨hi, hj⟩ := List.getElem?_eq_some_iff.mp hr
    rw [List.getElem_range] at hj
    rw [List.length_range] at hi
    subst hj
    rw [Option.map_some, Option.some.injEq] at h
    subst h
    refine ⟨rfl, rfl, rfl, rfl, rfl, rfl, ?_⟩
    rw [List.getD_eq_getElem?_getD, List.getElem?_eq_getElem hi, Option.getD_some]

theorem makeSegments_runs (q : QueueId) (next : Nat) (now : Time) (cmd : HoistCmd) :
    (makeSegments q next now cmd .memory).flatMap (·.runs) = (segmentRuns cmd.runs).flatten := by
  simp only [makeSegments, ne_eq, not_true, and_false, if_false, List.flatMap_map]
  generalize segmentRuns cmd.runs = l
  have : (List.range l.length).flatMap (fun i => l.getD i []) = ((List.range l.length).map fun i => l.getD i []).flatten := by
    rw [List.flatMap_def]
  rw [this]
  congr 1
  refine List.ext_getElem? fun i => ?_
  rw [List.getElem?_map]
  by_cases h : i < l.length
  · rw [List.getElem?_range h, Option.map_some, List.getD_eq_getElem?_getD, List.getElem?_eq_getElem h]
    rfl
  · rw [List.getElem?_eq_none (by simpa using h), List.getElem?_eq_none (by omega)]
    rfl

/-- What a transfer's segments are (R214, R215, R217). -/
theorem makeSegments_gives (q : QueueId) (next : Nat) (now : Time) (cmd : HoistCmd) :
    let segs := makeSegments q next now cmd .memory
    (∀ (i : Nat) (g : Segment), segs[i]? = some g → g.id = next + i ∧ g.cmd = next ∧ g.deps = cmd.deps ∧ g.slow = cmd.slow ∧
      g.enqueued = now ∧ (¬ ReceivesPort q → g.dry = cmd.dry) ∧ (ReceivesPort q → g.dry = some (now + 4000)) ∧
      InOneRange (g.runs.map (·.run))) ∧
    movedBytes ((segs.flatMap (·.runs)).map (·.run)) = movedBytes cmd.runs := by
  intro segs
  have hp : isPortRx q = true ↔ ReceivesPort q := by simp [isPortRx, ReceivesPort]
  refine ⟨fun i g h => ?_, ?_⟩
  · obtain ⟨h1, h2, h3, h4, h5, h6, h7⟩ := makeSegments_get q next now cmd h
    refine ⟨h1, h2, h3, h4, h5, fun k => ?_, fun k => ?_, (segmentRuns_ok cmd.runs).1 _ (List.mem_of_getElem? h7)⟩
    · rw [h6, commandDry, if_neg fun e => k (hp.mp e)]
    · rw [h6, commandDry, if_pos (hp.mpr k)]
  · show movedBytes (((makeSegments q next now cmd .memory).flatMap (·.runs)).map (·.run)) = _
    rw [makeSegments_runs]
    exact (segmentRuns_ok cmd.runs).2

theorem isTramFeed_iff (q : QueueId) : isTramFeed q = true ↔ FeedsTram q := by
  simp [isTramFeed, FeedsTram]

theorem isPortRx_iff (q : QueueId) : isPortRx q = true ↔ ReceivesPort q := by
  simp [isPortRx, ReceivesPort]

theorem enterCommand_none {s : State} {q : QueueId} (h : ¬ QueueTakes s q ∨ FeedsTram q) (cmd : HoistCmd) :
    enterCommand s q cmd = s := by
  unfold enterCommand
  rw [if_pos]
  rw [Bool.or_eq_true]
  exact h.imp queueTakes_not (isTramFeed_iff q).mpr

theorem enterCommand_plain {s : State} {q : QueueId} (h : QueueTakes s q) (hq : q.queue.val ≠ 16) (cmd : HoistCmd) :
    enterCommand s q cmd = enqueueCmd s q cmd := by
  have h1 : isTramFeed q = false := by rw [← Bool.not_eq_true, isTramFeed_iff]; exact fun k => hq k.1
  have h2 : isPortRx q = false := by rw [← Bool.not_eq_true, isPortRx_iff]; exact fun k => hq k.1
  unfold enterCommand
  rw [if_neg (by rw [(queueTakes_iff s q).mpr h, h1]; decide), if_neg (by rw [h2]; decide)]

/-- A PORT_RX queue takes the descriptor that it holds first (R220). -/
theorem enterCommand_port {s : State} {q : QueueId} (h : QueueTakes s q) (hq : ReceivesPort q) (cmd : HoistCmd) :
    ((getQueue s q).local_.head? ≠ some cmd → enterCommand s q cmd = s) ∧
    (∀ rest, (getQueue s q).local_ = cmd :: rest →
      enterCommand s q cmd = enqueueCmd (setQueue s q { getQueue s q with local_ := rest }) q cmd) := by
  have h1 : isTramFeed q = false := by
    rw [← Bool.not_eq_true, isTramFeed_iff]
    exact fun k => absurd k.2 (Nat.not_le.mpr hq.2)
  have e : enterCommand s q cmd = match (getQueue s q).local_ with
      | c :: rest => if c = cmd then enqueueCmd (setQueue s q { getQueue s q with local_ := rest }) q cmd else s
      | [] => s := by
    unfold enterCommand
    rw [if_neg (by rw [(queueTakes_iff s q).mpr h, h1]; decide), if_pos ((isPortRx_iff q).mpr hq)] <;> rfl
  rw [e]
  refine ⟨fun k => ?_, fun rest hr => by rw [hr]; exact if_pos rfl⟩
  split
  · rename_i c rest hr
    rw [hr] at k
    exact if_neg fun e => k (by rw [e]; rfl)
  · rfl

theorem freeOrder_gives (s : State) (ms : List MoveRun) : (freeOrder s ms).1.Perm ms ∧ Keeps (· ∈ [.freeCount]) s (freeOrder s ms).2 ∧
    (¬ Clash ms → freeOrder s ms = (ms, s)) := by
  unfold freeOrder freeOrderBy Clash
  refine ⟨?_, ?_, fun h => if_neg h⟩
  · split
    · have := (foldr_insertKeyed ((List.range ms.length).filterMap fun i => ms[i]?.map fun m => (Config.choice (s.freeCount + i), m))).map (·.2)
      rw [keyed_moves (fun i => Config.choice (s.freeCount + i))] at this
      exact this
    · exact .refl _
  · split
    · exact Keeps.same (.refl s) rfl rfl rfl rfl fun p => by cases p <;> first | exact .inl (by decide) | exact .inr rfl
    · exact .refl s

theorem movedBytes_joinFill (r q : MoveRun) (a b : List Byte) (hr : r.fill = some a) (hq : q.fill = some b) (ha : a.length = r.len)
    (hd : r.dst + r.len = q.dst) : movedBytes [{ r with len := r.len + q.len, fill := some (a ++ b) }] = movedBytes [r] ++ movedBytes [q] := by
  simp only [movedBytes, List.flatMap_cons, List.flatMap_nil, List.append_nil, hr, hq]
  rw [List.range_add, List.map_append, List.map_map]
  congr 1
  · refine List.map_congr_left fun i hi => ?_
    have := List.mem_range.mp hi
    rw [List.getD_eq_getElem?_getD, List.getElem?_append_left (by omega), ← List.getD_eq_getElem?_getD]
  · refine List.map_congr_left fun i _ => ?_
    simp only [Function.comp]
    rw [← hd, Nat.add_assoc, List.getD_eq_getElem?_getD, List.getElem?_append_right (by omega), ha, Nat.add_sub_cancel_left,
      ← List.getD_eq_getElem?_getD]

/-- Joined runs move the same bytes, and those with padding are runs of the list (R206). -/
theorem joinRuns_gives (ms : List MoveRun) : (FillsWhole ms → movedBytes (joinRuns ms) = movedBytes ms ∧ FillsWhole (joinRuns ms)) ∧
    ∀ r ∈ joinRuns ms, r.pad ≠ none → r ∈ ms := by
  induction ms with
  | nil => exact ⟨fun _ => ⟨rfl, fun r h => (nomatch h)⟩, fun r h => (nomatch h)⟩
  | cons r rest ih =>
    obtain ⟨i1, i2⟩ := ih
    have sub : FillsWhole (r :: rest) → FillsWhole rest := fun h q hq => h q (List.mem_cons_of_mem _ hq)
    unfold joinRuns
    split
    · rename_i e
      rw [e] at i1
      refine ⟨fun h => ⟨?_, fun q hq => h q ?_⟩, fun q hq _ => ?_⟩
      · rw [movedBytes_cons r rest, ← (i1 (sub h)).1]
        exact (List.append_nil _).symm
      · rw [List.mem_singleton.mp hq]; exact List.mem_cons_self ..
      · rw [List.mem_singleton.mp hq]; exact List.mem_cons_self ..
    · rename_i q qs e
      rw [e] at i1 i2
      have hin : ∀ y ∈ qs, y.pad ≠ none → y ∈ r :: rest := fun y hy hp =>
        List.mem_cons_of_mem _ (i2 y (List.mem_cons_of_mem _ hy) hp)
      have hfs : FillsWhole (r :: rest) → FillsWhole qs ∧ FillsWhole [q] ∧ FillsWhole [r] := fun h =>
        ⟨fun y hy => (i1 (sub h)).2 y (List.mem_cons_of_mem _ hy),
          fun y hy => (i1 (sub h)).2 y (by rw [List.mem_singleton.mp hy]; exact List.mem_cons_self ..),
          fun y hy => h y (by rw [List.mem_singleton.mp hy]; exact List.mem_cons_self ..)⟩
      have keep : (FillsWhole (r :: rest) → movedBytes (r :: q :: qs) = movedBytes (r :: rest) ∧ FillsWhole (r :: q :: qs)) ∧
          ∀ y ∈ r :: q :: qs, y.pad ≠ none → y ∈ r :: rest := by
        refine ⟨fun h => ⟨?_, fun y hy => ?_⟩, fun y hy hp => ?_⟩
        · rw [movedBytes_cons r rest, ← (i1 (sub h)).1, movedBytes_cons]
        · rcases List.mem_cons.mp hy with hy | hy
          · rw [hy]; exact h r (List.mem_cons_self ..)
          · exact (i1 (sub h)).2 y hy
        · rcases List.mem_cons.mp hy with hy | hy
          · rw [hy]; exact List.mem_cons_self ..
          · exact List.mem_cons_of_mem _ (i2 y hy hp)
      split
      · rename_i hc
        obtain ⟨hd, hr, hq, hs, p1, p2⟩ := hc
        refine ⟨fun h => ⟨?_, fun y hy bs hb => ?_⟩, fun y hy hp => ?_⟩
        · rw [movedBytes_cons, movedBytes_join r q hr hq hd hs, List.append_assoc, movedBytes_cons r rest, ← (i1 (sub h)).1,
            movedBytes_cons q qs]
        · rcases List.mem_cons.mp hy with hy | hy
          · rw [hy] at hb
            dsimp only at hb
            rw [hr] at hb
            cases hb
          · exact (hfs h).1 y hy bs hb
        · rcases List.mem_cons.mp hy with hy | hy
          · rw [hy] at hp
            exact absurd p1 hp
          · exact hin y hy hp
      · split
        · rename_i a b hr hq
          split
          · rename_i hc
            obtain ⟨hd, p1, p2⟩ := hc
            refine ⟨fun h => ⟨?_, fun y hy bs hb => ?_⟩, fun y hy hp => ?_⟩
            · have ha := (hfs h).2.2 r (List.mem_cons_self ..) a hr
              rw [movedBytes_cons, movedBytes_joinFill r q a b hr hq ha hd, List.append_assoc, movedBytes_cons r rest,
                ← (i1 (sub h)).1, movedBytes_cons q qs]
            · rcases List.mem_cons.mp hy with hy | hy
              · rw [hy] at hb ⊢
                dsimp only at hb ⊢
                cases hb
                rw [List.length_append, (hfs h).2.2 r (List.mem_cons_self ..) a hr, (hfs h).2.1 q (List.mem_cons_self ..) b hq]
              · exact (hfs h).1 y hy bs hb
            · rcases List.mem_cons.mp hy with hy | hy
              · rw [hy] at hp
                exact absurd p1 hp
              · exact hin y hy hp
          · exact keep
        · exact keep

theorem issuable_iff (s : State) (q : QueueId) (g : Segment) : issuable s q = some g ↔ MayIssueSegment s q g := by
  unfold issuable
  dsimp only
  constructor
  · intro h
    split at h
    · rename_i k rest hr
      split at h
      · rename_i hc
        cases h
        simp only [Bool.and_eq_true, Bool.not_eq_true', decide_eq_true_eq] at hc
        exact ⟨⟨rest, hr⟩, hc.1.1.1, hc.1.1.2, hc.1.2, hc.2⟩
      · cases h
    · cases h
  · rintro ⟨⟨rest, h1⟩, h2, h3, h4, h5⟩
    rw [h1]
    dsimp only
    rw [if_pos]
    simp only [Bool.and_eq_true, Bool.not_eq_true', decide_eq_true_eq]
    exact ⟨⟨⟨h2, h3⟩, h4⟩, h5⟩

theorem candidates (s : State) (seam : Fin 16) (h : Fin 8) (x : Nat × Segment) :
    x ∈ (List.range 18).filterMap (fun n => (issuable s ⟨seam, h, Fin.ofNat 18 n⟩).map fun g => (n, g)) ↔
      ∃ n : Fin 18, x.1 = n.val ∧ MayIssueSegment s ⟨seam, h, n⟩ x.2 := by
  rw [List.mem_filterMap]
  constructor
  · rintro ⟨n, hn, hx⟩
    obtain ⟨g, hg, rfl⟩ := Option.map_eq_some_iff.mp hx
    exact ⟨Fin.ofNat 18 n, by simp [Fin.ofNat, Nat.mod_eq_of_lt (List.mem_range.mp hn)], (issuable_iff ..).mp hg⟩
  · rintro ⟨n, hn, hx⟩
    refine ⟨n.val, List.mem_range.mpr n.isLt, ?_⟩
    rw [show Fin.ofNat 18 n.val = n from Fin.ext (by simp [Fin.ofNat, Nat.mod_eq_of_lt n.isLt]), (issuable_iff ..).mpr hx, Option.map_some, ← hn]

theorem chooseQueue_of {s : State} {seam : Fin 16} {h : Fin 8} {n : Fin 18} {g : Segment} (hi : Issues s seam h n g) :
    chooseQueue s seam h = some (n.val, g) := by
  unfold chooseQueue
  refine choose_fold s _ (n.val, g) none (.inl ((candidates ..).mpr ⟨n, rfl, hi.1⟩)) fun x hx => ?_
  rcases hx with hx | hx
  · obtain ⟨m, hm, hk⟩ := (candidates ..).mp hx
    by_cases he : m = n
    · left
      subst he
      obtain ⟨r1, h1⟩ := hk.head
      obtain ⟨r2, h2⟩ := hi.1.head
      rw [h1] at h2
      cases h2
      exact Prod.ext hm rfl
    · right
      have := hi.2 m x.2 he hk
      rw [← hm] at this
      refine ⟨(queueBefore_iff ..).mpr this, ?_⟩
      rw [← Bool.not_eq_true, queueBefore_iff]
      exact goesBefore_asymm this
  · cases hx

theorem chooseQueue_none {s : State} {seam : Fin 16} {h : Fin 8} (hn : ∀ n g, ¬ MayIssueSegment s ⟨seam, h, n⟩ g) :
    chooseQueue s seam h = none := by
  unfold chooseQueue
  have : (List.range 18).filterMap (fun n => (issuable s ⟨seam, h, Fin.ofNat 18 n⟩).map fun g => (n, g)) = [] := by
    refine List.eq_nil_iff_forall_not_mem.mpr fun x hx => ?_
    obtain ⟨n, -, hk⟩ := (candidates ..).mp hx
    exact hn n x.2 hk
  dsimp only
  rw [this]
  rfl

theorem issueOne_of {s : State} {seam : Fin 16} {h : Fin 8} {n : Fin 18} {g : Segment} (hd : isLiveDom s (.seam seam .fclk) = true)
    (hi : Issues s seam h n g) (l : List Addr) : issueOne s seam h l =
      if !g.runs.all (fun r => runLive s g r.run) then s
      else match badAddress s g l with
        | some a => xlateFault s ⟨seam, h, n⟩ a
        | none => issueSegment s ⟨seam, h, n⟩ g := by
  unfold issueOne
  rw [if_neg (by rw [hd]; decide), chooseQueue_of hi]
  dsimp only
  have e : Fin.ofNat 18 n.val = n := Fin.ext (by simp [Fin.ofNat, Nat.mod_eq_of_lt n.isLt])
  rw [e] <;> rfl

/-- What holds a segment back from completing. -/
theorem mayLand_iff (s : State) (q : QueueId) (g : Segment) : MayLand s q g ↔
    (segmentWaits s q g.id || !allEntered g || behindOverlap (getQueue s q) g || behindAdd (getQueue s q) g) = false := by
  simp only [Bool.or_eq_false_iff, Bool.not_eq_false']
  have h2 : allEntered g = true ↔ ∀ r ∈ g.runs, toDram g r = true → r.entered = true ∨ r.data = none := by
    simp only [allEntered, List.all_eq_true, Bool.or_eq_true, Bool.not_eq_true', Option.isNone_iff_eq_none]
    refine forall_congr' fun r => imp_congr_right fun _ => ?_
    cases toDram g r <;> simp
  have h3 : behindOverlap (getQueue s q) g = false ↔ (g.sink = .memory → ∀ h ∈ (getQueue s q).issued, h.cmd = g.cmd →
      h.id < g.id → ∀ a ∈ h.runs, ∀ b ∈ g.runs, overlap a.run.dst a.run.len b.run.dst b.run.len = false) := by
    simp only [behindOverlap, List.any_eq_false, Bool.and_eq_true, beq_iff_eq, decide_eq_true_eq, List.any_eq_true, not_and,
      not_exists, Bool.not_eq_true]
    exact ⟨fun k hs h hh hc hi a ha b hb => k h hh ⟨⟨hc, hi⟩, hs⟩ a ha b hb,
      fun k h hh ⟨⟨hc, hi⟩, hs⟩ a ha b hb => k hs h hh hc hi a ha b hb⟩
  have h4 : behindAdd (getQueue s q) g = false ↔ (isAdd g = true → ∀ h ∈ (getQueue s q).ready ++ (getQueue s q).issued,
      isAdd h = true → g.cmd ≤ h.cmd) := by
    simp only [behindAdd, Bool.and_eq_false_iff, List.any_eq_false, Bool.and_eq_true, decide_eq_true_eq, not_and, Nat.not_lt]
    cases isAdd g <;> simp
  rw [h2, h3, h4]
  exact ⟨fun h => ⟨⟨⟨h.served, h.gone⟩, h.order⟩, h.adds⟩, fun h => ⟨h.1.1.1, h.1.1.2, h.1.2, h.2⟩⟩

end Sys2Proof.Machine
end

