-- ==== Sys2Proof/Laws/Chutes.lean ====
section
/-! SUPPORT. Chutes: what the operations do. -/

-- one theorem after the other: proofs side by side would need more memory than the check allows
set_option Elab.async false

namespace Sys2Proof.Machine

open Sys2Proof.Safety

theorem epIs_of {s t : State} {ep : EndpointId} {e : Endpoint} (h : t.chutes = (setEp s ep e).chutes) : EpIs ep e s t :=
  ⟨by rw [getEp_congr h, getEp_setEp_self], fun x hx => by rw [getEp_congr h, getEp_setEp_other _ _ hx]⟩

theorem epRegBase_gt (ep : EndpointId) : depBase + 0x1000 ≤ epRegBase ep := by
  cases ep with
  | core c k => simp only [epRegBase, seamRegBase, depBase]; omega
  | hub i => simp only [epRegBase, depBase]; omega

/-- A step of a chain of counts: where it is taken, the register `b + o` counts `n`, and the registers of `b` outside the list
stay. -/
theorem step_count {c : Prop} [Decidable c] {s t z : State} {b o : Nat} (h : z = if c then t else s) (n : Nat)
    (ht : rawReg t (b + o) = satAdd (rawReg s (b + o)) n) : rawReg z (b + o) = satAdd (rawReg s (b + o)) (if c then n else 0) := by
  rw [h]
  split
  · exact ht
  · rw [satAdd_zero]

theorem step_other {c : Prop} [Decidable c] {s t z : State} {a : Nat} (h : z = if c then t else s) (ht : rawReg t a = rawReg s a) :
    rawReg z a = rawReg s a := by
  rw [h]
  split
  · exact ht
  · rfl

theorem countArrival_gives (s : State) (ep : EndpointId) (p : Packet) (k : ArrivalCounts) : let b := epRegBase ep
    Counted (b + Ctr.CH_PKT_CNT) (if k.committed then 1 else 0) s (countArrival s ep p k) ∧
    Counted (b + Ctr.CH_REWIND_CNT) (if k.rewound then 1 else 0) s (countArrival s ep p k) ∧
    Counted (b + Ctr.CH_OVERCREDIT_CNT) (if k.overcredit then 1 else 0) s (countArrival s ep p k) ∧
    Counted (b + Ctr.CH_ABANDON_CNT) k.abandoned s (countArrival s ep p k) := by
  have hb := epRegBase_gt ep
  unfold countArrival Counted
  extract_lets b s1 s2 s3 s4 s5
  have o1 : ∀ o, o ≠ Ctr.CH_CE_CNT → o ≠ 8 → rawReg s1 (b + o) = rawReg s (b + o) := fun o h1 h2 => by
    simp only [s1]
    split
    · rfl
    · rw [rawReg_count_other _ (by simp only [Ctr.DEP_CORRECTED_CNT]; omega), rawReg_raise_other _ (by simp only [Flag.ch_CE]; omega),
        rawReg_count_other _ (by omega)]
  have o2 : ∀ o, o ≠ Ctr.CH_UE_CNT → o ≠ 8 → rawReg s2 (b + o) = rawReg s1 (b + o) := fun o h1 h2 => step_other rfl (by
    rw [rawReg_raise_other _ (by simp only [Flag.ch_UE]; omega), rawReg_count_other _ (by omega)])
  have o3 : ∀ o, o ≠ Ctr.CH_PKT_CNT → rawReg s3 (b + o) = rawReg s2 (b + o) := fun o h1 => step_other rfl (rawReg_count_other _ (by omega))
  have o4 : ∀ o, o ≠ Ctr.CH_REWIND_CNT → o ≠ 8 → rawReg s4 (b + o) = rawReg s3 (b + o) := fun o h1 h2 => step_other rfl (by
    rw [rawReg_raise_other _ (by simp only [Flag.ch_REWIND]; omega), rawReg_count_other _ (by omega)])
  have o5 : ∀ o, o ≠ Ctr.CH_OVERCREDIT_CNT → o ≠ 8 → rawReg s5 (b + o) = rawReg s4 (b + o) := fun o h1 h2 => step_other rfl (by
    rw [rawReg_raise_other _ (by simp only [Flag.ch_OVERCREDIT]; omega), rawReg_count_other _ (by omega)])
  have o6 : ∀ o, o ≠ Ctr.CH_ABANDON_CNT → rawReg (if k.abandoned = 0 then s5 else count s5 b Ctr.CH_ABANDON_CNT k.abandoned) (b + o) =
      rawReg s5 (b + o) := fun o h => by
    split
    · rfl
    · exact rawReg_count_other _ (by omega)
  refine ⟨?_, ?_, ?_, ?_⟩
  · rw [o6 _ (by decide), o5 _ (by decide) (by decide), o4 _ (by decide) (by decide),
      step_count (b := b) (o := Ctr.CH_PKT_CNT) (z := s3) rfl 1 (rawReg_count_self ..), o2 _ (by decide) (by decide), o1 _ (by decide) (by decide)]
  · rw [o6 _ (by decide), o5 _ (by decide) (by decide), step_count (b := b) (o := Ctr.CH_REWIND_CNT) (z := s4) rfl 1 (by
        rw [rawReg_raise_other _ (by simp only [Flag.ch_REWIND, Ctr.CH_REWIND_CNT]; omega), rawReg_count_self]),
      o3 _ (by decide), o2 _ (by decide) (by decide), o1 _ (by decide) (by decide)]
  · rw [o6 _ (by decide), step_count (b := b) (o := Ctr.CH_OVERCREDIT_CNT) (z := s5) rfl 1 (by
        rw [rawReg_raise_other _ (by simp only [Flag.ch_OVERCREDIT, Ctr.CH_OVERCREDIT_CNT]; omega), rawReg_count_self]),
      o4 _ (by decide) (by decide), o3 _ (by decide), o2 _ (by decide) (by decide), o1 _ (by decide) (by decide)]
  · have e : rawReg s5 (b + Ctr.CH_ABANDON_CNT) = rawReg s (b + Ctr.CH_ABANDON_CNT) := by
      rw [o5 _ (by decide) (by decide), o4 _ (by decide) (by decide), o3 _ (by decide), o2 _ (by decide) (by decide), o1 _ (by decide) (by decide)]
    by_cases h : k.abandoned = 0
    · rw [if_pos h, h, satAdd_zero, e]
    · rw [if_neg h, rawReg_count_self, e]

theorem ite_regs {c : Prop} [Decidable c] {a b x y : State} (h1 : a.regs = x.regs) (h2 : b.regs = y.regs) :
    (if c then a else b).regs = (if c then x else y).regs := by
  split
  · exact h1
  · exact h2

theorem countArrival_regs_congr {s t : State} (h : t.regs = s.regs) (ep : EndpointId) (p : Packet) (k : ArrivalCounts) :
    (countArrival t ep p k).regs = (countArrival s ep p k).regs := by
  unfold countArrival
  dsimp only
  have h1 := ite_regs (c := p.fixed = 0) h (count_regs_congr (raise_regs_congr (count_regs_congr h (epRegBase ep) Ctr.CH_CE_CNT p.fixed)
    (epRegBase ep) Flag.ch_CE) depBase Ctr.DEP_CORRECTED_CNT p.fixed)
  have h2 := ite_regs (c := p.bad = true) (raise_regs_congr (count_regs_congr h1 (epRegBase ep) Ctr.CH_UE_CNT 1) (epRegBase ep) Flag.ch_UE) h1
  have h3 := ite_regs (c := k.committed = true) (count_regs_congr h2 (epRegBase ep) Ctr.CH_PKT_CNT 1) h2
  have h4 := ite_regs (c := k.rewound = true) (raise_regs_congr (count_regs_congr h3 (epRegBase ep) Ctr.CH_REWIND_CNT 1) (epRegBase ep) Flag.ch_REWIND) h3
  have h5 := ite_regs (c := k.overcredit = true) (raise_regs_congr (count_regs_congr h4 (epRegBase ep) Ctr.CH_OVERCREDIT_CNT 1) (epRegBase ep) Flag.ch_OVERCREDIT) h4
  exact ite_regs (c := k.abandoned = 0) h5 (count_regs_congr h5 (epRegBase ep) Ctr.CH_ABANDON_CNT k.abandoned)

/-! ### arrivals -/

theorem bankIn_some {e : Endpoint} {st : BankState} {one : Bool} (h : bankIn e st = some one) : (bankOf e one).state = st := by
  unfold bankIn at h
  split at h
  · cases h; assumption
  · split at h
    · cases h; assumption
    · cases h

theorem bankOf_setBank (e : Endpoint) (one : Bool) (b : Bank) : bankOf (setBank e one b) one = b ∧
    bankOf (setBank e one b) (!one) = bankOf e (!one) := by
  cases one <;> exact ⟨rfl, rfl⟩

theorem producerSend_banks (e : Endpoint) (n : Nat) (push : Bool) : (producerSend e n push).bank0 = e.bank0 ∧
    (producerSend e n push).bank1 = e.bank1 ∧ (producerSend e n push).answers = e.answers ∧ (producerSend e n push).reject = e.reject := by
  unfold producerSend
  split <;> exact ⟨rfl, rfl, rfl, rfl⟩

theorem swapBanks_answers (e : Endpoint) (now : Time) : (swapBanks e now).answers = e.answers ∧ (swapBanks e now).reject = e.reject := by
  unfold swapBanks
  split
  · rename_i one h
    split
    · cases one <;> exact ⟨rfl, rfl⟩
    · exact ⟨rfl, rfl⟩
  · exact ⟨rfl, rfl⟩

theorem closeBank_answers (e : Endpoint) (now : Time) : (closeBank e now).1.answers = e.answers ∧ (closeBank e now).1.reject = e.reject := by
  unfold closeBank
  split
  · rename_i one h
    obtain ⟨h1, h2⟩ := swapBanks_answers { setBank e one { bankOf e one with state := .closed } with fillTimer := none } now
    refine ⟨h1.trans ?_, h2.trans ?_⟩ <;> cases one <;> rfl
  · exact ⟨rfl, rfl⟩

theorem writePacket_answers (e : Endpoint) (p : Packet) (now : Time) : (writePacket e p now).1.answers = e.answers ∧
    (writePacket e p now).1.reject = e.reject := by
  unfold writePacket
  split
  · rename_i one h
    extract_lets b b' e1 e2
    have h2 : e2.answers = e.answers ∧ e2.reject = e.reject := by
      simp only [e2, e1]
      split <;> cases one <;> exact ⟨rfl, rfl⟩
    split
    · obtain ⟨a, b⟩ := closeBank_answers e2 now
      exact ⟨a.trans h2.1, b.trans h2.2⟩
    · exact h2
  · exact ⟨rfl, rfl⟩

theorem writePacket_bank {e : Endpoint} {p : Packet} {now : Time} {one : Bool} (h : bankIn e .filling = some one)
    (hw : (bankOf e one).words + packetLen p < 128) (hp : packetPush p = false) :
    bankOf (writePacket e p now).1 one = { bankOf e one with
      words := (bankOf e one).words + packetLen p
      packets := (bankOf e one).packets ++ [p] } ∧ bankOf (writePacket e p now).1 (!one) = bankOf e (!one) := by
  unfold writePacket
  rw [h]
  dsimp only
  rw [if_neg (by rw [hp]; simp; omega)]
  dsimp only
  split <;> cases one <;> exact ⟨rfl, rfl⟩

theorem packetArrive_eq (s : State) (ep : EndpointId) (p : Packet) (c : CoreId) (k : Fin 8) (h : ep = .core c k) :
    packetArrive s ep p = (countArrival (setEp s ep (arrive (getEp s ep) p false s.clk.now).1) ep p (arrive (getEp s ep) p false s.clk.now).2,
      (arrive (getEp s ep) p false s.clk.now).2) := by
  subst h
  rfl

theorem resendFailed_eq (e : Endpoint) (p : Packet) (hub : Bool) (now : Time) :
    ((arrive e p hub now).2.rewound && (arrive e p hub now).2.resendFailed) = ((arrive e p hub now).2.rewound && packetResend p) := by
  unfold arrive
  extract_lets
  split
  · rfl
  · split
    split <;> rfl

theorem arrive_dropped {e : Endpoint} {p : Packet} {now : Time} (h1 : e.reject = true) (h2 : packetResend p = false) :
    let r := arrive e p false now
    r.2 = {} ∧ r.1.bank0 = e.bank0 ∧ r.1.bank1 = e.bank1 ∧ r.1.answers = e.answers := by
  intro r
  let x := producerSend { e with
    resend := false
    unacked := e.unacked ++ [p] } (packetLen p) (packetPush p)
  obtain ⟨a, b, c, d⟩ := producerSend_banks { e with
    resend := false
    unacked := e.unacked ++ [p] } (packetLen p) (packetPush p)
  have : r = (x, {}) := by
    simp only [r]
    unfold arrive
    have d' : x.reject = e.reject := d
    exact if_pos (by
      show (x.reject && !packetResend p) = true
      rw [d', h1, h2]
      rfl)
  rw [this]
  exact ⟨rfl, a, b, c⟩

theorem arrive_eq {e : Endpoint} {p : Packet} {now : Time} (h : e.reject = false ∨ packetResend p = true) :
    ∃ x : Endpoint, x.bank0 = e.bank0 ∧ x.bank1 = e.bank1 ∧ x.answers = e.answers ∧ x.reject = false ∧
      arrive e p false now =
        let n := packetLen p
        let good := !p.bad && p.data.length == 64 * n && bitField p.header.toNat 31 24 == 0
        let credit := inCredit e n
        let spill := credit && (match bankIn x .filling with
          | some one => decide (128 < (bankOf x one).words + n)
          | none => false)
        let c := if spill then closeBank x now else (x, 0)
        if good && credit && (bankIn c.1 .filling).isSome then
          let w := writePacket c.1 p now
          ({ w.1 with answers := w.1.answers ++ [.commit] }, { committed := true, abandoned := c.2 + w.2 })
        else
          ({ c.1 with
              reject := true
              answers := c.1.answers ++ [.rewound] },
            { rewound := true, overcredit := !credit, abandoned := c.2, resendFailed := packetResend p }) := by
  let y := producerSend { e with
    resend := false
    unacked := e.unacked ++ [p] } (packetLen p) (packetPush p)
  obtain ⟨a, b, c, d⟩ := producerSend_banks { e with
    resend := false
    unacked := e.unacked ++ [p] } (packetLen p) (packetPush p)
  refine ⟨{ y with reject := false }, a, b, c, rfl, ?_⟩
  unfold arrive
  refine (if_neg ?_).trans rfl
  have d' : y.reject = e.reject := d
  show ¬ (y.reject && !packetResend p) = true
  rw [d']
  rcases h with h | h
  · simp [h]
  · simp [h]

theorem bankIn_congr {x e : Endpoint} (h0 : x.bank0 = e.bank0) (h1 : x.bank1 = e.bank1) (st : BankState) : bankIn x st = bankIn e st := by
  unfold bankIn; rw [h0, h1]

theorem bankOf_congr {x e : Endpoint} (h0 : x.bank0 = e.bank0) (h1 : x.bank1 = e.bank1) (one : Bool) : bankOf x one = bankOf e one := by
  unfold bankOf; rw [h0, h1]

theorem sound_iff (p : Packet) : (!p.bad && p.data.length == 64 * packetLen p && bitField p.header.toNat 31 24 == 0) = true ↔ SoundPacket p := by
  simp only [Bool.and_eq_true, Bool.not_eq_true', beq_iff_eq]
  exact ⟨fun h => ⟨h.1.2, h.1.1, h.2⟩, fun h => ⟨⟨h.clean, h.words⟩, h.reserved⟩⟩

theorem setEp_gives (s : State) (ep : EndpointId) (e : Endpoint) : EpIs ep e s (setEp s ep e) ∧ SameBut [.chutes] s (setEp s ep e) :=
  ⟨epIs_of rfl, (setEp_keeps (.refl s) _ _ (Can.all [.chutes])).sameBut⟩

theorem takePackets_gives : ∀ (ps : List Packet) (n : Nat), let r := takePackets ps n
    ps = r.1 ++ r.2 ∧ 64 * (r.1.map packetLen).sum ≤ n ∧
      ∀ q rest, r.2 = q :: rest → n < 64 * (r.1.map packetLen).sum + 64 * packetLen q
  | [], n => ⟨rfl, Nat.zero_le _, fun q rest h => by cases h⟩
  | p :: ps, n => by
    intro r
    have hr : r = if 64 * packetLen p ≤ n then (p :: (takePackets ps (n - 64 * packetLen p)).1, (takePackets ps (n - 64 * packetLen p)).2)
        else ([], p :: ps) := rfl
    obtain ⟨h1, h2, h3⟩ := takePackets_gives ps (n - 64 * packetLen p)
    by_cases h : 64 * packetLen p ≤ n
    · rw [if_pos h] at hr
      rw [hr]
      dsimp only
      refine ⟨by rw [List.cons_append, ← h1], ?_, fun q rest hq => ?_⟩
      · rw [List.map_cons, List.sum_cons]; omega
      · have := h3 q rest hq
        rw [List.map_cons, List.sum_cons]; omega
    · rw [if_neg h] at hr
      rw [hr]
      dsimp only
      refine ⟨rfl, by simp, fun q rest hq => ?_⟩
      cases hq
      simp only [List.map_nil, List.sum_nil]
      omega

theorem swapBanks_grants (e : Endpoint) (now : Time) : (swapBanks e now).grantsSent = e.grantsSent := by
  unfold swapBanks
  split
  · rename_i one h
    split
    · cases one <;> rfl
    · rfl
  · rfl

theorem readBank_gives {e : Endpoint} {one : Bool} (h : bankIn e .visible = some one) (n : Nat) (now : Time) :
    let p := takePackets (bankOf e one).packets n
    let r := readBank e n now
    r.2 = p.1 ∧ (p.1 ≠ [] → p.2 = [] → r.1.grantsSent = e.grantsSent + 1) ∧
      (p.1 ≠ [] → p.2 ≠ [] → r.1.grantsSent = e.grantsSent ∧ (bankOf r.1 one).state = (bankOf e one).state ∧
          (bankOf r.1 one).packets = p.2 ∧ r.1.readTimer = some now) := by
  intro p r
  have hr : r = if p.1 = [] then (e, []) else if p.2 = [] then
        (swapBanks { setBank e one {} with
          readTimer := none
          grantsSent := (setBank e one {}).grantsSent + 1 } now, p.1)
      else ({ setBank e one { bankOf e one with
          read := (bankOf e one).read + (p.1.map packetLen).sum
          packets := p.2 } with readTimer := some now }, p.1) := by
    simp only [r]
    unfold readBank
    rw [h]
  by_cases h1 : p.1 = []
  · rw [if_pos h1] at hr
    rw [hr]
    exact ⟨h1.symm, fun k => absurd h1 k, fun k => absurd h1 k⟩
  · rw [if_neg h1] at hr
    by_cases h2 : p.2 = []
    · rw [if_pos h2] at hr
      rw [hr]
      refine ⟨rfl, fun _ _ => ?_, fun _ k => absurd h2 k⟩
      refine (swapBanks_grants ..).trans ?_
      cases one <;> rfl
    · rw [if_neg h2] at hr
      rw [hr]
      refine ⟨rfl, fun _ k => absurd k h2, fun _ _ => ?_⟩
      cases one <;> exact ⟨rfl, rfl, rfl, rfl⟩

theorem swapBanks_swap {e : Endpoint} {one : Bool} (now : Time) (h : bankIn e .closed = some one) (he : (bankOf e (!one)).state = .empty) :
    swapBanks e now = { setBank (setBank e one { bankOf e one with state := .visible }) (!one) { state := .filling } with readTimer := some now } := by
  unfold swapBanks
  rw [h]
  exact if_pos he

theorem swapBanks_waits {e : Endpoint} {one : Bool} (now : Time) (h : bankIn e .closed = some one) (he : (bankOf e (!one)).state ≠ .empty) :
    swapBanks e now = e := by
  unfold swapBanks
  rw [h]
  exact if_neg he

/-- The endpoint whose filling bank has just been closed. -/
def closedBank (f : Endpoint) (one : Bool) : Endpoint :=
  { setBank f one { bankOf f one with state := .closed } with fillTimer := none }

theorem closeBank_fst {f : Endpoint} {one : Bool} (now : Time) (h : bankIn f .filling = some one) :
    (closeBank f now).1 = swapBanks (closedBank f one) now := by
  unfold closeBank
  rw [h]
  rfl

theorem closedBank_closed {f : Endpoint} {one : Bool} (he : (bankOf f (!one)).state ≠ .closed) :
    bankIn (closedBank f one) .closed = some one := by
  cases one
  · exact if_pos rfl
  · exact (if_neg he).trans (if_pos rfl)

theorem closeBank_swap {f : Endpoint} {one : Bool} (now : Time) (h : bankIn f .filling = some one) (he : (bankOf f (!one)).state = .empty) :
    bankOf (closeBank f now).1 one = { bankOf f one with state := .visible } ∧
      bankOf (closeBank f now).1 (!one) = { state := .filling } ∧ (closeBank f now).1.fillTimer = none ∧
      (closeBank f now).1.readTimer = some now := by
  have he' : (bankOf (closedBank f one) (!one)).state = .empty := by cases one <;> exact he
  rw [closeBank_fst now h, swapBanks_swap now (closedBank_closed (by rw [he]; decide)) he']
  cases one <;> exact ⟨rfl, rfl, rfl, rfl⟩

theorem closeBank_waits {f : Endpoint} {one : Bool} (now : Time) (h : bankIn f .filling = some one) (he : (bankOf f (!one)).state = .visible) :
    bankOf (closeBank f now).1 one = { bankOf f one with state := .closed } ∧
      bankOf (closeBank f now).1 (!one) = bankOf f (!one) ∧ (closeBank f now).1.fillTimer = none := by
  have he' : (bankOf (closedBank f one) (!one)).state ≠ .empty := fun k => by
    have k' : (bankOf f (!one)).state = .empty := by cases one <;> exact k
    rw [he] at k'
    cases k'
  rw [closeBank_fst now h, swapBanks_waits now (closedBank_closed (by rw [he]; decide)) he']
  cases one <;> exact ⟨rfl, rfl, rfl⟩

theorem closeMarkAt_none {s : State} {ep : EndpointId} (h : ∀ one : Bool, bankIn (getEp s ep) .filling = some one → (bankOf (getEp s ep) one).words = 0) :
    closeMarkAt s ep = setEp s ep { getEp s ep with tailPending := false } := by
  unfold closeMarkAt
  extract_lets e0 answered e1 nonempty b
  have : nonempty = false := by
    simp only [nonempty]
    cases hb : bankIn e1 .filling with
    | none => rfl
    | some one =>
      have k : (bankOf e1 one).words = 0 := h one hb
      dsimp only
      rw [k]
      rfl
  rw [this]
  exact if_neg Bool.false_ne_true

theorem closeMarkAt_some {s : State} {ep : EndpointId} {one : Bool} (h : bankIn (getEp s ep) .filling = some one)
    (hw : (bankOf (getEp s ep) one).words ≠ 0) : let e := getEp s ep
    let b := epRegBase ep
    let c := closeBank { e with tailPending := false } s.clk.now
    c.2 = 128 - (bankOf e one).words ∧
    closeMarkAt s ep =
      let z := setEp s ep { c.1 with room := 0 }
      let z := if c.2 = 0 then z else count z b Ctr.CH_ABANDON_CNT c.2
      if e.tailPending then raise (count z b Ctr.CH_TAIL_CNT 1) b Flag.ch_TAIL else z := by
  intro e b c
  have h' : bankIn { e with tailPending := false } .filling = some one := h
  refine ⟨?_, ?_⟩
  · simp only [c]
    unfold closeBank
    rw [h']
    rfl
  · unfold closeMarkAt
    extract_lets answered e1 nonempty src z1 z2
    have : nonempty = true := by
      have hw' : (bankOf e1 one).words ≠ 0 := hw
      simp only [nonempty]
      rw [show bankIn e1 .filling = some one from h']
      exact bne_iff_ne.2 hw'
    rw [this, if_pos rfl]

end Sys2Proof.Machine
end

