-- ==== Sys2Proof/Laws/Calibration.lean ====
section
/-! SUPPORT. Calibration: what the operations do. -/

-- one theorem after the other: proofs side by side would need more memory than the check allows
set_option Elab.async false

namespace Sys2Proof.Machine

open Sys2Proof.Safety

theorem calIs_set (s : State) (m : Nat) (x : CalState) : CalIs m x s (setCal s m x) :=
  ⟨getCal_setCal_self .., fun _ h => getCal_setCal_other _ _ h⟩

theorem calIs_of {s t : State} {m : Nat} {x : CalState} (h : t.cals = (setCal s m x).cals) : CalIs m x s t := by
  have e : ∀ j, getCal t j = getCal (setCal s m x) j := fun j => by
    unfold getCal
    rw [h]
  exact ⟨(e m).trans (getCal_setCal_self ..), fun j hj => (e j).trans (getCal_setCal_other _ _ hj)⟩

theorem givesCal {i : Instr} {s : State} {m : Nat} {x : CalState} (h : exec i s = .next (setCal s m x)) : GivesCal i m x s :=
  ⟨_, h, calIs_set s m x, (setCal_keeps (.refl s) _ _ (Can.all _)).sameBut⟩

theorem endsDescent {i : Instr} {s : State} {m : Nat} {c : CalState} (h : exec i s = .next (endDescent s m c)) :
    EndsDescent i m c s := by
  have can := Can.all [.regs, .cals]
  refine ⟨_, h, calIs_of ?_, ?_, (endDescent_keeps (.refl s) ..).sameBut⟩
  · unfold endDescent raiseIf
    dsimp only
    split
    · exact raise_cals ..
    · rfl
  · unfold endDescent raiseIf RegsAs
    dsimp only
    split
    · exact raise_regs_congr (setCal_regs ..) ..
    · exact setCal_regs ..

theorem windowNoted_eq (c : CalState) (load margin : Nat) : windowNoted c load margin =
    { c with
      load := min 100 load
      margin := min 31 margin
      highWindows := if decide (75 ≤ min 100 load) then c.highWindows + 1 else 0 } := by
  unfold windowNoted
  by_cases h : 75 ≤ min 100 load
  · rw [if_pos h, if_pos (decide_eq_true h)]
  · rw [if_neg h, if_neg (by rw [decide_eq_false h]; decide)]

theorem calWindow_eq {s : State} {m : Nat} (load margin : Nat) (h : calRuns s m = true) : let c := windowNoted (getCal s m) load margin
    calWindow s m load margin =
      if c.margin < 4 then raiseVset s m c
      else match c.descent with
        | some .full => if decide (75 ≤ c.load) && decide (c.margin < 8) then endDescent s m c else setCal s m c
        | some .light => if decide (c.load ≤ 25) && decide (c.margin < 8) then endDescent s m c else setCal s m c
        | none =>
          if !c.idle && fullEntry c == 0 && decide (windowsPerSecond ≤ c.highWindows) then
            setCal s m (beginDescent s m c .full)
          else setCal s m c := by
  intro c
  simp only [c, windowNoted_eq]
  unfold calWindow
  exact if_pos h

theorem fixDescent_gives (s : State) (m : Nat) (x : CalState) : let r := fixDescent s m x
      r.1.descent = none ∧ r.1.highWindows = 0 ∧
      (∀ j, j ≠ x.band → tget r.1.full 0 j = tget x.full 0 j ∧ tget r.1.light 0 j = tget x.light 0 j) ∧
      fullEntry r.1 = (if x.descent = some .full ∧ x.heldMv ≠ 0 then x.heldMv else fullEntry x) ∧
      lightEntry r.1 = (if x.descent = some .light ∧ x.heldMv ≠ 0 then x.heldMv else lightEntry x) ∧
      (r.2 = true ↔ x.descent = some .full ∧ x.heldMv ≠ 0) := by
  have sp : ∀ y : CalState, (setpoint s m y).descent = y.descent ∧ (setpoint s m y).highWindows = y.highWindows ∧
      (setpoint s m y).full = y.full ∧ (setpoint s m y).light = y.light ∧ (setpoint s m y).band = y.band := fun y => by
    unfold setpoint
    split
    · exact ⟨rfl, rfl, rfl, rfl, rfl⟩
    · split <;> exact ⟨rfl, rfl, rfl, rfl, rfl⟩
  intro r
  cases hd : x.descent with
  | none =>
    obtain ⟨q1, q2, q3, q4, q5⟩ := sp { noDescent x with highWindows := 0 }
    have e : r = (setpoint s m { noDescent x with highWindows := 0 }, false) := by
      simp only [r, fixDescent, hd]
      rfl
    rw [e]
    unfold fullEntry lightEntry
    dsimp only
    rw [q1, q2, q3, q4, q5]
    exact ⟨rfl, rfl, fun _ _ => ⟨rfl, rfl⟩, (if_neg (fun k => by cases k.1)).symm, (if_neg (fun k => by cases k.1)).symm, (fun k => by cases k), fun k => by cases k.1⟩
  | some d =>
    by_cases h0 : x.heldMv = 0
    · obtain ⟨q1, q2, q3, q4, q5⟩ := sp { noDescent x with highWindows := 0 }
      have e : r = (setpoint s m { noDescent x with highWindows := 0 }, false) := by
        simp only [r, fixDescent, hd, h0, if_pos, bne_self_eq_false, Bool.and_false]
        cases d <;> rfl
      rw [e]
      unfold fullEntry lightEntry
      dsimp only
      rw [q1, q2, q3, q4, q5]
      exact ⟨rfl, rfl, fun _ _ => ⟨rfl, rfl⟩, (if_neg (fun k => k.2 h0)).symm, (if_neg (fun k => k.2 h0)).symm, (fun k => by cases k), fun k => absurd h0 k.2⟩
    · cases d with
      | light =>
        obtain ⟨q1, q2, q3, q4, q5⟩ := sp { noDescent { x with light := tset x.light 0 x.band x.heldMv } with highWindows := 0 }
        have e : r = (setpoint s m { noDescent { x with light := tset x.light 0 x.band x.heldMv } with highWindows := 0 }, false) := by
          simp only [r, fixDescent, hd, if_neg h0]
          rfl
        rw [e]
        unfold fullEntry lightEntry
        dsimp only
        rw [q1, q2, q3, q4, q5]
        exact ⟨rfl, rfl, fun j hj => ⟨rfl, tget_tset_other _ _ _ hj⟩, (if_neg (fun k => by cases k.1)).symm,
          (tget_tset_self ..).trans (if_pos ⟨rfl, h0⟩).symm, (fun k => by cases k), fun k => by cases k.1⟩
      | full =>
        obtain ⟨q1, q2, q3, q4, q5⟩ := sp { noDescent { x with full := tset x.full 0 x.band x.heldMv } with highWindows := 0 }
        have e : r = (setpoint s m { noDescent { x with full := tset x.full 0 x.band x.heldMv } with highWindows := 0 }, true) := by
          simp only [r, fixDescent, hd, if_neg h0]
          rw [show (x.heldMv != 0) = true from bne_iff_ne.2 h0]
          rfl
        rw [e]
        unfold fullEntry lightEntry
        dsimp only
        rw [q1, q2, q3, q4, q5]
        exact ⟨rfl, rfl, fun j hj => ⟨tget_tset_other _ _ _ hj, rfl⟩, (tget_tset_self ..).trans (if_pos ⟨rfl, h0⟩).symm,
          (if_neg (fun k => by cases k.1)).symm, fun _ => ⟨rfl, h0⟩, fun _ => rfl⟩

end Sys2Proof.Machine
end

