-- ==== Sys2Proof/Laws/Scatter.lean ====
section
/-! SUPPORT. Scatter-add, the DRAM controllers and the links: what the operations do. -/

-- one theorem after the other: proofs side by side would need more memory than the check allows
set_option Elab.async false

namespace Sys2Proof.Machine

open Sys2Proof.Safety

theorem find_append {α : Type} (p : α → Bool) (l : List α) (x : α) :
    (l ++ [x]).find? p = (l.find? p).or (if p x then some x else none) := by
  rw [List.find?_append, List.find?_cons, List.find?_nil]
  cases p x <;> rfl

theorem putScatter_find (s : State) (c : ScatterBuffer) :
    findScatter (putScatter s c) c.job c.node c.task = some c ∧
    ∀ j n k, (j, n, k) ≠ (c.job, c.node, c.task) → findScatter (putScatter s c) j n k = findScatter s j n k := by
  have same : ∀ x : ScatterBuffer, (x.job == c.job && x.node == c.node && x.task == c.task) = true ↔ x.job = c.job ∧ x.node = c.node ∧ x.task = c.task := fun x => by
    simp [and_assoc]
  refine ⟨?_, fun j n k h => ?_⟩
  · unfold findScatter putScatter
    dsimp only
    split
    · rename_i hx
      rw [List.find?_map]
      obtain ⟨y, hy, hm⟩ := List.any_eq_true.mp hx
      have e : ((fun b : ScatterBuffer => b.job == c.job && b.node == c.node && b.task == c.task) ∘ fun x =>
          if (x.job == c.job && x.node == c.node && x.task == c.task) = true then c else x) =
          fun b => b.job == c.job && b.node == c.node && b.task == c.task := by
        funext x
        simp only [Function.comp]
        split
        · rename_i hm; rw [hm]; simp
        · rfl
      rw [e]
      cases hf : s.scatters.find? fun b => b.job == c.job && b.node == c.node && b.task == c.task with
      | none => rw [List.find?_eq_none] at hf; exact absurd hm (hf y hy)
      | some z =>
        have hz := List.find?_some hf
        rw [Option.map_some, if_pos hz]
    · rename_i hx
      rw [find_append]
      have : (s.scatters.find? fun b => b.job == c.job && b.node == c.node && b.task == c.task) = none := by
        rw [List.find?_eq_none]
        intro y hy hm
        exact hx (List.any_eq_true.mpr ⟨y, hy, hm⟩)
      rw [this]
      simp
  · have ne : ∀ x : ScatterBuffer, x.job = c.job ∧ x.node = c.node ∧ x.task = c.task →
        (x.job == j && x.node == n && x.task == k) = false := fun x hx => by
      rw [← Bool.not_eq_true]
      intro hm
      simp only [Bool.and_eq_true, beq_iff_eq] at hm
      exact h (by rw [← hm.1.1, ← hm.1.2, ← hm.2, hx.1, hx.2.1, hx.2.2])
    unfold findScatter putScatter
    dsimp only
    split
    · rw [List.find?_map]
      have e : ((fun b : ScatterBuffer => b.job == j && b.node == n && b.task == k) ∘ fun x =>
          if (x.job == c.job && x.node == c.node && x.task == c.task) = true then c else x) =
          fun b => b.job == j && b.node == n && b.task == k := by
        funext x
        simp only [Function.comp]
        split
        · rename_i hm
          rw [ne c ⟨rfl, rfl, rfl⟩, ne x ((same x).mp hm)]
        · rfl
      rw [e]
      cases hf : s.scatters.find? fun b => b.job == j && b.node == n && b.task == k with
      | none => rfl
      | some z =>
        have hz := List.find?_some hf
        rw [Option.map_some, if_neg]
        intro hm
        rw [ne z ((same z).mp hm)] at hz
        cases hz
    · rw [find_append, if_neg (by rw [ne c ⟨rfl, rfl, rfl⟩]; decide), Option.or_none]

theorem bufferOf_key (s : State) (job node task f : Nat) : let b := bufferOf s job node task f
    b.job = job ∧ b.node = node ∧ b.task = task := by
  unfold bufferOf
  cases h : findScatter s job node task with
  | none => exact ⟨rfl, rfl, rfl⟩
  | some b =>
    have := List.find?_some h
    simpa [and_assoc] using this

theorem scatterFormat_iff (f : Nat) : scatterFormat f = true ↔ f = fmtFp32 ∨ f = fmtBf16 ∨ f = fmtFp16 := by
  simp [scatterFormat, or_assoc]

theorem findScatter_congr {s t : State} (h : t.scatters = s.scatters) (j n k : Nat) : findScatter t j n k = findScatter s j n k := by
  unfold findScatter
  rw [h]

theorem lower_iff (s : State) (job node task : Nat) : lowerCommitted s job node task = true ↔
    ∀ e ∈ s.counters, e.2.active = true → e.2.job = job → e.2.node = node → ∀ t ∈ e.2.tasks, t.part < task →
      ∃ c, findScatter s job node t.part = some c ∧ c.committed = true := by
  unfold lowerCommitted
  rw [List.all_eq_true]
  constructor
  · intro h e he h1 h2 h3 t ht hp
    have := h e he
    rw [h1, h2, h3, Bool.or_eq_true] at this
    rcases this with k | k
    · simp at k
    · have := List.all_eq_true.mp k t ht
      rw [Bool.or_eq_true, decide_eq_true_eq] at this
      rcases this with k | k
      · omega
      · cases hf : findScatter s job node t.part with
        | none => rw [hf] at k; cases k
        | some c => rw [hf] at k; exact ⟨c, rfl, k⟩
  · intro h e he
    rw [Bool.or_eq_true]
    by_cases hc : e.2.active = true ∧ e.2.job = job ∧ e.2.node = node
    · refine .inr (List.all_eq_true.mpr fun t ht => ?_)
      rw [Bool.or_eq_true, decide_eq_true_eq]
      by_cases hp : task ≤ t.part
      · exact .inl hp
      · obtain ⟨c, c1, c2⟩ := h e he hc.1 hc.2.1 hc.2.2 t ht (by omega)
        rw [c1]
        exact .inr c2
    · left
      rw [Bool.not_eq_true', ← Bool.not_eq_true]
      intro k
      simp only [Bool.and_eq_true, beq_iff_eq] at k
      exact hc ⟨k.1.1, k.1.2, k.2⟩

theorem commitScatter_of {s : State} {job node task : Nat} {b : ScatterBuffer} (h : MayCommit s job node task b) :
    commitScatter s job node task = if b.recorded < pieceCount b then writePiece (formImage s b).2 (formImage s b).1
      else commitWrite s job node task (2 * pieceCount b) b.format [] := by
  unfold commitScatter
  split
  · rename_i e; rw [h.buffer] at e; cases e
  · rename_i c e
    cases Option.some.inj (h.buffer.symm.trans e)
    rw [if_neg]
    rw [h.going, h.deputy, h.idle, (lower_iff s job node task).mpr h.lower, h.last]
    decide

theorem commitScatter_not {s : State} {job node task : Nat} (h : ∀ b, ¬ MayCommit s job node task b) :
    commitScatter s job node task = s := by
  unfold commitScatter
  split
  · rfl
  · rename_i b e
    refine if_pos ?_
    rw [← Bool.not_eq_false]
    intro k
    simp only [Bool.or_eq_false_iff, Bool.not_eq_false'] at k
    exact h b ⟨e, k.1.1.1.1, k.1.1.1.2, k.1.1.2, (lower_iff ..).mp k.1.2, k.2⟩

theorem keeps_jnl {P : Part → Prop} {s t : State} (k : Keeps P s t) (h1 : ¬ P .jnl) (h2 : ¬ P .lotRing) (h3 : ¬ P .respLog) :
    t.jnl = s.jnl := by
  have e1 := k.field .jnl h1
  have e2 := k.field .lotRing h2
  have e3 := k.field .respLog h3
  simp only [Part.same] at e1 e2 e3
  generalize t.jnl = a at *
  generalize s.jnl = b at *
  cases a
  cases b
  simp only [Journal.mk.injEq] at *
  simp_all

theorem keeps_config {P : Part → Prop} {s t : State} (k : Keeps P s t) (h : ¬ P .pwr) : t.pwr.config = s.pwr.config := by
  have e := k.field .pwr h
  simp only [Part.same] at e
  have e := congrArg Power.config e
  dsimp only at e
  exact e

theorem keeps_now {P : Part → Prop} {s t : State} (k : Keeps P s t) (h : ¬ P .time) : t.clk.now = s.clk.now := by
  have e := k.field .time h
  simp only [Part.same, Prod.mk.injEq] at e
  exact e.1

theorem startWrite_jnl (s : State) (use : WriteUse) (kind : RecordKind) (key : Nat) (bytes : List Byte) :
    (∃ w, (startWrite s use kind key bytes).jnl.pendingWrites = s.jnl.pendingWrites ++ [w] ∧ w.use = use) ∧
      (startWrite s use kind key bytes).jnl.lotRing = s.jnl.lotRing := by
  have hm : ∀ z r, (sendMirror z r).jnl = z.jnl := fun z r =>
    keeps_jnl (sendMirror_keeps (P := (· ∈ [.txQueue, .outs])) (.refl z) r (Can.all _)) (by decide) (by decide) (by decide)
  unfold startWrite
  extract_lets lsn w j j1 j2 s2
  have hw : j2.pendingWrites = s.jnl.pendingWrites ++ [w] ∧ j2.lotRing = s.jnl.lotRing := by
    by_cases hm : mirrored s = true
    · rw [show j2 = _ from if_pos hm]; exact ⟨rfl, rfl⟩
    · rw [show j2 = _ from if_neg hm]; exact ⟨rfl, rfl⟩
  split
  · rw [hm]; exact ⟨⟨w, hw.1, rfl⟩, hw.2⟩
  · exact ⟨⟨w, hw.1, rfl⟩, hw.2⟩

theorem formImage_gives (s : State) (b : ScatterBuffer) : (formImage s b).1 = { b with image := (formImage s b).1.image } ∧
    Keeps (· ∈ [.jobs]) s (formImage s b).2 := by
  refine ⟨?_, formImage_keeps (.refl s) _ (Can.all _)⟩
  unfold formImage
  split <;> rfl

theorem chooseOf_mem {α : Type} (s : State) {l : List α} (h : l ≠ []) : ∃ x ∈ l, (chooseOf s l).1 = some x := by
  have hl : 0 < l.length := List.length_pos_iff.mpr h
  have hi : (drawChoice s).1 % l.length < l.length := Nat.mod_lt _ hl
  exact ⟨l[(drawChoice s).1 % l.length], List.getElem_mem hi, List.getElem?_eq_getElem hi⟩

theorem chanIs_of {s t : State} {c : ChanId} {x : ChanState} (h : t.chans = (setChan s c x).chans) : ChanIs c x s t :=
  ⟨by rw [getChan_congr h, getChan_setChan_self], fun d hd => by rw [getChan_congr h, getChan_setChan_other _ _ hd]⟩

theorem neighbour_back : ∀ (seam : Fin 16) (d : LinkDir) (t : Nat) (e : LinkDir), neighbour seam.val d = some (t, e) →
    t < 16 ∧ neighbour t e = some (seam.val, d) := by
  have : ∀ (seam : Fin 16) (d : LinkDir), (neighbour seam.val d).all (fun p => decide (p.1 < 16) && neighbour p.1 p.2 == some (seam.val, d)) = true := by
    intro seam d
    revert seam
    cases d <;> decide
  intro seam d t e h
  have k := this seam d
  rw [h, Option.all_some, Bool.and_eq_true, decide_eq_true_eq, beq_iff_eq] at k
  exact k

theorem chanLive_iff (s : State) (c : ChanId) : chanLive s c = true ↔ ChanServes s c := by
  unfold chanLive chanFenced
  have h : chanKey c / 32 = c.seam.val := by simp only [chanKey]; omega
  simp only [Bool.and_eq_true, Bool.not_eq_true', Bool.or_eq_false_iff, List.contains_eq_mem, decide_eq_false_iff_not, h]
  exact ⟨fun h => ⟨h.1, h.2.1, h.2.2⟩, fun h => ⟨h.live, h.chan, h.seam⟩⟩

theorem chanLive_no {s : State} {c : ChanId} (h : ¬ ChanServes s c) : (!chanLive s c) = true := by
  rw [Bool.not_eq_true', ← Bool.not_eq_true, chanLive_iff]; exact h

theorem chanLive_yes {s : State} {c : ChanId} (h : ChanServes s c) : ¬ (!chanLive s c) = true := by
  rw [(chanLive_iff s c).mpr h]; decide

/-- The servable requests are those that no earlier one touches a word of, in order of arrival (R211). -/
theorem mem_servable (x : ChanState) (i : Nat) (r : ChanRequest) : (i, r) ∈ servable x ↔ MayServe x i r := by
  unfold servable MayServe
  rw [List.mem_filterMap]
  constructor
  · rintro ⟨k, -, h⟩
    split at h
    · rename_i p hp
      split at h
      · cases h
      · rename_i hn
        simp only [Option.some.injEq, Prod.mk.injEq] at h
        obtain ⟨rfl, rfl⟩ := h
        refine ⟨hp, fun j p' hj hp' => ?_⟩
        rw [Bool.not_eq_true, List.any_eq_false] at hn
        have := hn p' (List.mem_of_getElem? (i := j) (by rw [List.getElem?_take_of_lt hj]; exact hp'))
        simpa using this
    · cases h
  · rintro ⟨h, k⟩
    refine ⟨i, List.mem_range.mpr (List.getElem?_eq_some_iff.mp h).1, ?_⟩
    rw [h]
    dsimp only
    rw [if_neg]
    rw [Bool.not_eq_true, List.any_eq_false]
    intro p hp
    obtain ⟨j, hj⟩ := List.getElem?_of_mem hp
    have hlt : j < i := by
      have := (List.getElem?_eq_some_iff.mp hj).1
      rw [List.length_take] at this
      omega
    rw [List.getElem?_take_of_lt hlt] at hj
    rw [k j p hlt hj]
    decide

theorem servable_sorted (x : ChanState) : (servable x).Pairwise fun a b => a.1 < b.1 := by
  unfold servable
  refine List.Pairwise.filterMap _ (fun a b hab p hp q hq => ?_) List.pairwise_lt_range
  have : ∀ (n : Nat) (z : Nat × ChanRequest), (match x.queue[n]? with
      | some r => if (List.take n x.queue).any (sharesWord r) = true then none else some (n, r)
      | none => none) = some z → z.1 = n := by
    intro n z h
    split at h
    · split at h
      · cases h
      · cases h; rfl
    · cases h
  rw [this a p hp, this b q hq]
  exact hab

theorem mem_classQueue (x : ChanState) (c : DramClass) (i : Nat) (r : ChanRequest) : (i, r) ∈ classQueue x c ↔
    MayServe x i r ∧ r.cls = c ∧ (r.origin = .scrub → ∀ j o, MayServe x j o → o.cls = c → o.origin = .scrub) := by
  unfold classQueue
  extract_lets l real
  have hl : ∀ j o, (j, o) ∈ l ↔ MayServe x j o ∧ o.cls = c := by
    intro j o
    simp only [l, List.mem_filter, mem_servable, beq_iff_eq]
  split
  · rename_i h
    rw [hl]
    refine ⟨fun k => ⟨k.1, k.2, fun _ j o h1 h2 => ?_⟩, fun k => ⟨k.1, k.2.1⟩⟩
    have := List.filter_eq_nil_iff.mp h (j, o) ((hl j o).mpr ⟨h1, h2⟩)
    simpa using this
  · rename_i h
    simp only [real, List.mem_filter, hl, bne_iff_ne, ne_eq]
    refine ⟨fun k => ⟨k.1.1, k.1.2, fun e => absurd e k.2⟩, fun k => ⟨⟨k.1, k.2.1⟩, fun e => h ?_⟩⟩
    refine List.filter_eq_nil_iff.mpr fun p hp => ?_
    have := (hl p.1 p.2).mp hp
    simp [k.2.2 e p.1 p.2 this.1 this.2]

theorem classQueue_sorted (x : ChanState) (c : DramClass) : (classQueue x c).Pairwise fun a b => a.1 < b.1 := by
  unfold classQueue
  extract_lets l real
  split
  · exact (servable_sorted x).filter _
  · exact ((servable_sorted x).filter _).filter _

/-- The first of the requests of a list with the earliest dry time. -/
theorem earliest (l : List (Nat × ChanRequest)) (hs : l.Pairwise fun a b => a.1 < b.1) :
    (l = [] → l.foldl earlierOf none = none) ∧ (l ≠ [] → ∃ m ∈ l, l.foldl earlierOf none = some m ∧
      ∀ o ∈ l, m.2.dry ≤ o.2.dry ∧ (o.2.dry = m.2.dry → m.1 ≤ o.1)) := by
  have go : ∀ (l : List (Nat × ChanRequest)) (b : Nat × ChanRequest), (b :: l).Pairwise (fun a b => a.1 < b.1) →
      ∃ m ∈ b :: l, l.foldl earlierOf (some b) = some m ∧
        ∀ o ∈ b :: l, m.2.dry ≤ o.2.dry ∧ (o.2.dry = m.2.dry → m.1 ≤ o.1) := by
    intro l
    induction l with
    | nil => intro b _; exact ⟨b, by simp, rfl, by simp⟩
    | cons x r ih =>
      intro b hb
      obtain ⟨h1, h2⟩ := List.pairwise_cons.mp hb
      obtain ⟨h3, h4⟩ := List.pairwise_cons.mp h2
      rw [List.foldl_cons]
      by_cases h : x.2.dry < b.2.dry
      · have e : earlierOf (some b) x = some x := if_pos h
        rw [e]
        obtain ⟨m, hm, he, hall⟩ := ih x h2
        refine ⟨m, List.mem_cons_of_mem _ hm, he, fun o ho => ?_⟩
        rcases List.mem_cons.mp ho with rfl | ho
        · have hl : m.2.dry < o.2.dry := Nat.lt_of_le_of_lt (hall x (by simp)).1 h
          exact ⟨Nat.le_of_lt hl, fun e => absurd hl (by rw [e]; exact Nat.lt_irrefl _)⟩
        · exact hall o ho
      · have e : earlierOf (some b) x = some b := if_neg h
        rw [e]
        obtain ⟨m, hm, he, hall⟩ := ih b (List.pairwise_cons.mpr ⟨fun a ha => h1 a (List.mem_cons_of_mem _ ha), h4⟩)
        refine ⟨m, ?_, he, fun o ho => ?_⟩
        · rcases List.mem_cons.mp hm with rfl | hm
          · simp
          · exact List.mem_cons_of_mem _ (List.mem_cons_of_mem _ hm)
        · rcases List.mem_cons.mp ho with rfl | ho
          · exact hall o (by simp)
          · rcases List.mem_cons.mp ho with rfl | ho
            · have hb' := hall b (by simp)
              have hx : b.2.dry ≤ o.2.dry := Nat.le_of_not_lt h
              refine ⟨Nat.le_trans hb'.1 hx, fun e => ?_⟩
              have e2 : b.2.dry = m.2.dry := Nat.le_antisymm (by rw [← e]; exact hx) hb'.1
              exact Nat.le_trans (hb'.2 e2) (Nat.le_of_lt (h1 o (by simp)))
            · exact hall o (List.mem_cons_of_mem _ ho)
  refine ⟨fun h => by rw [h]; rfl, fun h => ?_⟩
  cases l with
  | nil => exact absurd rfl h
  | cons x r => exact go r x hs

/-- The request of a class that is served next (R205, R211). -/
theorem pickRequest_gives (x : ChanState) (c : DramClass) : (classQueue x c = [] → pickRequest x c = none) ∧
    (classQueue x c ≠ [] → ∃ i r, pickRequest x c = some (i, r) ∧ (i, r) ∈ classQueue x c ∧
      ∀ j o, (j, o) ∈ classQueue x c → ServedBefore x i r j o) := by
  unfold pickRequest
  extract_lets l
  have hs := classQueue_sorted x c
  obtain ⟨e1, e2⟩ := earliest l hs
  refine ⟨fun h => by rw [e1 h], fun h => ?_⟩
  obtain ⟨m, hm, he, hall⟩ := e2 h
  rw [he]
  dsimp only
  generalize hh : (l.filter fun r => decide (r.2.dry ≤ m.2.dry + 1000) && hitsRow x r.2) = hits
  have hmem : ∀ o, o ∈ hits ↔ o ∈ l ∧ o.2.dry ≤ m.2.dry + 1000 ∧ hitsRow x o.2 = true := by
    intro o
    rw [← hh, List.mem_filter, Bool.and_eq_true, decide_eq_true_eq]
  split
  · rename_i hn
    refine ⟨m.1, m.2, rfl, hm, fun j o ho => ?_⟩
    have hno : ∀ p ∈ l, p.2.dry ≤ m.2.dry + 1000 → hitsRow x p.2 = false := fun p hp hd => by
      rw [← Bool.not_eq_true]
      intro k
      have := (hmem p).mpr ⟨hp, hd, k⟩
      rw [hn] at this
      cases this
    have ho' := hall (j, o) ho
    dsimp only at ho'
    refine ⟨Nat.le_trans ho'.1 (Nat.le_add_right _ _), fun _ _ => ho'.1, fun _ => ⟨ho'.1, fun hit => ?_⟩, fun _ e => ho'.2 e⟩
    apply Nat.lt_of_not_le
    intro k
    have := hno (j, o) ho k
    rw [hit] at this
    cases this
  · rename_i hn
    obtain ⟨-, f2⟩ := earliest hits (by rw [← hh]; exact hs.filter _)
    obtain ⟨k, hk, hke, hkall⟩ := f2 hn
    have hk' := (hmem k).mp hk
    refine ⟨k.1, k.2, hke, hk'.1, fun j o ho => ?_⟩
    have hm' := hall (j, o) ho
    dsimp only at hm'
    have hin : hitsRow x o = true → o.dry ≤ m.2.dry + 1000 → k.2.dry ≤ o.dry ∧ (o.dry = k.2.dry → k.1 ≤ j) := fun h1 h2 =>
      hkall (j, o) ((hmem _).mpr ⟨ho, h2, h1⟩)
    have hw : k.2.dry ≤ o.dry + 1000 := Nat.le_trans hk'.2.1 (Nat.add_le_add_right hm'.1 _)
    refine ⟨hw, fun _ h2 => ?_, fun hf => absurd hk'.2.2 (by rw [hf]; decide), fun h1 h2 => ?_⟩
    · rcases Nat.lt_or_ge (m.2.dry + 1000) o.dry with g | g
      · exact Nat.le_trans hk'.2.1 (Nat.le_of_lt g)
      · exact (hin h2 g).1
    · exact (hin (h1.trans hk'.2.2) (by rw [h2]; exact hk'.2.1)).2 h2

theorem share_pos (c : DramClass) : 0 < classShare c := by cases c <;> decide

theorem leastServed_gives (x : ChanState) (l : List DramClass) : (l = [] → leastServed x l = none) ∧
    (l ≠ [] → ∃ k ∈ l, leastServed x l = some k ∧ ∀ c ∈ l, classUsed x k * classShare c ≤ classUsed x c * classShare k) := by
  induction l with
  | nil => exact ⟨fun _ => rfl, fun h => absurd rfl h⟩
  | cons a r ih =>
    refine ⟨fun h => (nomatch h), fun _ => ?_⟩
    unfold leastServed
    by_cases hr : r = []
    · subst hr
      exact ⟨a, by simp, rfl, by simp⟩
    · obtain ⟨k, hk, he, hall⟩ := ih.2 hr
      rw [he]
      dsimp only
      by_cases h : lessServed x k a = true
      · rw [if_pos h]
        simp only [lessServed, decide_eq_true_eq] at h
        refine ⟨k, List.mem_cons_of_mem _ hk, rfl, fun c hc => ?_⟩
        rcases List.mem_cons.mp hc with rfl | hc
        · omega
        · exact hall c hc
      · rw [if_neg h]
        simp only [lessServed, decide_eq_true_eq, Nat.not_lt] at h
        refine ⟨a, by simp, rfl, fun c hc => ?_⟩
        rcases List.mem_cons.mp hc with rfl | hc
        · omega
        · have h2 := hall c hc
          have h3 : classUsed x a * classShare k * classShare c ≤ classUsed x c * classShare k * classShare a := by
            calc classUsed x a * classShare k * classShare c ≤ classUsed x k * classShare a * classShare c :=
                  Nat.mul_le_mul_right _ h
              _ = classUsed x k * classShare c * classShare a := by rw [Nat.mul_right_comm]
              _ ≤ classUsed x c * classShare k * classShare a := Nat.mul_le_mul_right _ h2
          have h4 : classShare k * (classUsed x a * classShare c) ≤ classShare k * (classUsed x c * classShare a) := by
            calc _ = classUsed x a * classShare k * classShare c := by rw [Nat.mul_left_comm, Nat.mul_assoc]
              _ ≤ classUsed x c * classShare k * classShare a := h3
              _ = _ := by rw [Nat.mul_assoc, Nat.mul_left_comm]
          exact Nat.le_of_mul_le_mul_left h4 (share_pos k)

/-- The class that a slot is granted to (R210). -/
theorem grantClass_gives (s : State) (x : ChanState) : (grantClass s x).2 = s ∨ (grantClass s x).2 = (drawChoice s).2 := by
  unfold grantClass
  extract_lets waiting due
  split
  · exact .inl rfl
  · exact .inr rfl

theorem waits_iff (x : ChanState) (k : DramClass) : classQueue x k ≠ [] ↔ ∃ i r, MayServe x i r ∧ r.cls = k := by
  constructor
  · intro h
    obtain ⟨⟨i, r⟩, hm⟩ := List.exists_mem_of_ne_nil _ h
    obtain ⟨h1, h2, -⟩ := (mem_classQueue ..).mp hm
    exact ⟨i, r, h1, h2⟩
  · rintro ⟨i, r, h1, h2⟩ h
    by_cases hs : r.origin = .scrub → ∀ j o, MayServe x j o → o.cls = k → o.origin = .scrub
    · have := (mem_classQueue x k i r).mpr ⟨h1, h2, hs⟩
      rw [h] at this
      cases this
    · simp only [Classical.not_imp, Classical.not_forall] at hs
      obtain ⟨-, j, o, h3, h4, h5⟩ := hs
      have := (mem_classQueue x k j o).mpr ⟨h3, h4, fun e => absurd e h5⟩
      rw [h] at this
      cases this

theorem grantClass_may (s : State) (x : ChanState) : (x.queue = [] → (grantClass s x).1 = none) ∧
    (x.queue ≠ [] → ∃ k, (grantClass s x).1 = some k ∧ MayGrant x k) := by
  have first : x.queue ≠ [] → ∃ i r, MayServe x i r := fun h => by
    cases hq : x.queue with
    | nil => exact absurd hq h
    | cons r t => exact ⟨0, r, by rw [hq]; rfl, fun j p hj => absurd hj (by omega)⟩
  have all : ∀ c : DramClass, c ∈ [DramClass.read, .write, .remote] := fun c => by cases c <;> simp
  unfold grantClass
  extract_lets waiting due
  have hw : ∀ c, c ∈ waiting ↔ ∃ i r, MayServe x i r ∧ r.cls = c := fun c => by
    simp only [waiting, List.mem_filter, all, true_and, bne_iff_ne, ne_eq]
    exact waits_iff x c
  constructor
  · intro h
    have hn : waiting = [] := by
      refine List.eq_nil_iff_forall_not_mem.mpr fun c hc => ?_
      obtain ⟨i, r, h1, -⟩ := (hw c).mp hc
      have := h1.1
      rw [h] at this
      cases this
    have hd : due = [] := by simp only [due, hn, List.filter_nil]
    rw [if_pos hd, hn]
    rfl
  · intro h
    obtain ⟨i, r, hr⟩ := first h
    have hne : waiting ≠ [] := List.ne_nil_of_mem ((hw r.cls).mpr ⟨i, r, hr, rfl⟩)
    by_cases hd : due = []
    · rw [if_pos hd]
      obtain ⟨k, hk, he, hall⟩ := (leastServed_gives x waiting).2 hne
      refine ⟨k, he, (hw k).mp hk, .inr fun j o ho => ⟨?_, hall o.cls ((hw _).mpr ⟨j, o, ho, rfl⟩)⟩⟩
      have := List.filter_eq_nil_iff.mp hd o.cls ((hw _).mpr ⟨j, o, ho, rfl⟩)
      simpa using this
    · rw [if_neg hd]
      obtain ⟨k, hm, he⟩ := chooseOf_mem s hd
      obtain ⟨h1, h2⟩ := List.mem_filter.mp hm
      exact ⟨k, he, (hw k).mp h1, .inl (by simpa using h2)⟩

/-- A slot goes to a request that the rules name (R205, R210, R211). -/
theorem slot_served (s : State) {x : ChanState} (h : x.queue ≠ []) :
    ∃ i r, (grantClass s x).1.bind (pickRequest x) = some (i, r) ∧ Served x i r := by
  obtain ⟨k, hk, hg⟩ := (grantClass_may s x).2 h
  obtain ⟨i, r, hp, hm, hb⟩ := (pickRequest_gives x k).2 ((waits_iff x k).mpr hg.1)
  obtain ⟨m1, m2, m3⟩ := (mem_classQueue ..).mp hm
  refine ⟨i, r, by rw [hk]; exact hp, m1, m2 ▸ hg, fun j o h1 h2 h3 => ?_, fun e j o h1 h2 => m3 e j o h1 (h2.trans m2)⟩
  refine hb j o ((mem_classQueue ..).mpr ⟨h1, h2.trans m2, fun e => ?_⟩)
  exact fun j' o' a b => m3 (h3 e) j' o' a b

theorem addEntry_self (l : List Contribution) (k : Nat × List Nat) (a : Addr) (v : Word) :
    entryOf (addEntry l k a v) k = some (match entryOf l k with | none => v | some w => fp32Sum w v) := by
  unfold addEntry entryOf
  by_cases h : l.any (·.1 == k) = true
  · rw [if_pos h, List.find?_map]
    have : ((fun e : Contribution => e.1 == k) ∘ fun e : Contribution => if e.1 = k then
        (k, a, BitVec.ofNat 32 (encodeF fp32 .rne (addF .rne (decodeF fp32 e.2.2.toNat) (decodeF fp32 v.toNat)))) else e) =
        fun e => e.1 == k := by
      funext e
      simp only [Function.comp]
      split
      · rename_i he; rw [he]
      · rfl
    rw [this]
    cases hf : l.find? (fun e => e.1 == k) with
    | none =>
      rw [List.find?_eq_none] at hf
      obtain ⟨e, he, hx⟩ := List.any_eq_true.mp h
      exact absurd hx (hf e he)
    | some e =>
      have he : e.1 = k := by simpa using List.find?_some hf
      simp only [Option.map_some]
      rw [if_pos he]
      rfl
  · rw [if_neg h]
    have hn : l.find? (fun e => e.1 == k) = none := by
      rw [List.find?_eq_none]
      intro e he hx
      exact h (List.any_eq_true.mpr ⟨e, he, hx⟩)
    rw [find_append, hn]
    simp

theorem addEntry_other (l : List Contribution) {k j : Nat × List Nat} (a : Addr) (v : Word) (h : j ≠ k) :
    entryOf (addEntry l k a v) j = entryOf l j := by
  unfold addEntry entryOf
  split
  · rw [List.find?_map]
    have : ((fun e : Contribution => e.1 == j) ∘ fun e : Contribution => if e.1 = k then
        (k, a, BitVec.ofNat 32 (encodeF fp32 .rne (addF .rne (decodeF fp32 e.2.2.toNat) (decodeF fp32 v.toNat)))) else e) =
        fun e => e.1 == j := by
      funext e
      simp only [Function.comp]
      split
      · rename_i he; rw [he]
      · rfl
    rw [this]
    cases hf : l.find? (fun e => e.1 == j) with
    | none => rfl
    | some e =>
      have he : e.1 = j := by simpa using List.find?_some hf
      simp only [Option.map_some]
      rw [if_neg (by rw [he]; exact h)]
  · rw [find_append]
    have : ((k == j) = true) = False := by simp [Ne.symm h]
    simp [this]

/-- The slices of an accumulation are added contribution by contribution (R194). -/
theorem addSlices_eq (s : State) (q : QueueId) (a b : Desc) (xs : List (Nat × Int)) (dim : Nat) : ∀ l : List Contribution,
    xs.foldl (addSlice s q a b dim) l =
      (contributions s q a b dim xs).foldl (fun l c => addEntry l c.1 c.2.1 c.2.2) l := by
  unfold contributions
  induction xs with
  | nil => intro l; rfl
  | cons e r ih =>
    intro l
    rw [List.foldl_cons, List.flatMap_cons, List.foldl_append, ih]
    congr 1
    unfold addSlice
    by_cases hb : 0 ≤ e.2 ∧ e.2 < ((extentOf b dim : Nat) : Int)
    · rw [if_pos ((inBounds_iff ..).mpr hb), if_pos hb]
      cases localIndex s q b dim e.2.toNat with
      | none => rfl
      | some x => rw [List.foldl_map]
    · rw [if_neg fun k => hb ((inBounds_iff ..).mp k), if_neg hb]
      rfl

end Sys2Proof.Machine
end

