-- ==== Sys2Proof/Laws/Faults.lean ====
section
/-! SUPPORT. Faults and fences: what the operations do. -/

-- one theorem after the other: proofs side by side would need more memory than the check allows
set_option Elab.async false

namespace Sys2Proof.Machine

open Sys2Proof.Safety

theorem bitSet_raise (s : State) (b : Nat) (f : Nat × Nat) (h : f.2 < 32) : BitSet (b + f.1) f.2 (raise s b f) := by
  unfold BitSet raise
  rw [rawReg_setRawReg_self, BitVec.getLsbD_or, BitVec.getLsbD_ofNat]
  simp [h, Nat.testBit_two_pow_self]

theorem bitSet_congr {s t : State} (h : t.regs = s.regs) {a k : Nat} (hb : BitSet a k s) : BitSet a k t := by
  unfold BitSet
  rw [rawReg_congr h]
  exact hb

theorem enterRecovery_fences (s : State) : (enterRecovery s).dep.fences = s.dep.fences :=
  (enterRecovery_keeps (.refl s) (Can.all _)).field .fences (by decide)

theorem faultLogged_logFault (s : State) (cls level seam core unit : Nat) : FaultLogged cls level seam core unit s (logFault s cls level seam core unit) := by
  unfold logFault
  extract_lets s1 s2 s3
  have e : ∀ a, a ≠ depBase + Ctr.DEP_CONTAINED_CNT → rawReg (if cls = 1 then count s3 depBase Ctr.DEP_CONTAINED_CNT 1 else s3) a = rawReg s3 a :=
    fun a h => step_other rfl (rawReg_count_other _ h)
  refine ⟨?_, ?_, ?_⟩
  · rw [e _ (by decide)]
    simp only [s3, s2, s1]
    rw [rawReg_setRawReg_other _ _ (by decide), rawReg_setRawReg_other _ _ (by decide), rawReg_setRawReg_self]
  · rw [e _ (by decide)]
    simp only [s3, s2]
    rw [rawReg_setRawReg_other _ _ (by decide), rawReg_setRawReg_self]
    rfl
  · rw [e _ (by decide)]
    simp only [s3]
    rw [rawReg_setRawReg_self]
    rfl

theorem faultLogged_raise {s t : State} {cls level seam core unit : Nat} (h : FaultLogged cls level seam core unit s t) (f : Nat × Nat)
    (hf : f.1 < 0x38 ∨ 0x40 < f.1) : FaultLogged cls level seam core unit s (raise t depBase f) := by
  refine ⟨(rawReg_raise_other _ ?_).trans h.what, (rawReg_raise_other _ ?_).trans h.low, (rawReg_raise_other _ ?_).trans h.high⟩ <;> omega

theorem faultLogged_congr {s t u : State} {cls level seam core unit : Nat} (h : FaultLogged cls level seam core unit s t) (e : u.regs = t.regs) :
    FaultLogged cls level seam core unit s u :=
  ⟨(rawReg_congr e _).trans h.what, (rawReg_congr e _).trans h.low, (rawReg_congr e _).trans h.high⟩

theorem faultLogged_now {s s' t : State} {cls level seam core unit : Nat} (h : FaultLogged cls level seam core unit s t) (e : s.clk.now = s'.clk.now) :
    FaultLogged cls level seam core unit s' t := ⟨h.what, e ▸ h.low, e ▸ h.high⟩

theorem fenceDone_gives (s : State) (cls level seam core unit : Nat) :
    Fenced s.dep.fences cls level seam core unit s (fenceDone s cls level seam core unit) := by
  have r : (fenceDone s cls level seam core unit).regs = (raise (logFault s cls level seam core unit) depBase Flag.dep_FENCE).regs :=
    (enterRecovery_keeps (.refl _) (Can.all _)).field .regs (by decide)
  refine ⟨?_, faultLogged_congr (faultLogged_raise (faultLogged_logFault ..) _ (by decide)) r, bitSet_congr r (bitSet_raise _ _ _ (by decide))⟩
  exact (fenceDone_keeps (.refl s) _ _ _ _ _ (Can.all _)).field .fences (by decide)

theorem fenced_of {z s t : State} {P : Part → Prop} {f : Fences} {cls level seam core unit : Nat} (k : Keeps P z s) (hp : ¬ P .time)
    (h : Fenced f cls level seam core unit s t) : Fenced f cls level seam core unit z t :=
  ⟨h.fences, faultLogged_now h.log (keeps_now k hp), h.flag⟩

theorem abortWork_gives (s : State) (tasks : List SlotId) (chutes : List (Nat × Nat)) : ∃ gone : List SlotId,
    (∀ u ∈ tasks, (getSlot s u).state ≠ .empty → u ∈ gone) ∧ (∀ v ∈ gone, Aborted v s (abortWork s tasks chutes)) ∧
    (∀ v, v ∉ gone → Spared v s (abortWork s tasks chutes)) := by
  let p := abortReach s tasks chutes
  let c := p.2.foldl resetChute s
  have kc : Keeps (· ∈ [.regs, .txQueue, .sessions, .outs, .chutes]) s c := by
    have can := Can.all [.regs, .txQueue, .sessions, .outs, .chutes]
    exact Keeps.foldl (.refl s) _ fun a b k => resetChute_keeps k b
  have hcores : c.cores = s.cores := kc.field .cores (by decide)
  have hho : c.hoists = s.hoists := kc.field .hoists (by decide)
  obtain ⟨a1, a2⟩ := dropTasks_gives s (p.1.filter fun t => (getSlot c t).state != .empty) [] c (fun v h => by cases h)
    fun v _ => ⟨getSlot_congr hcores v, tilesOf_congr hcores v, getQueue_congr hho _⟩
  refine ⟨p.1.filter fun t => (getSlot c t).state != .empty, fun u hu hn => ?_, a1, a2⟩
  refine List.mem_filter.2 ⟨?_, by rw [getSlot_congr hcores]; exact bne_iff_ne.2 hn⟩
  have grow : ∀ n, u ∈ (Nat.repeat (growAbort s) n (tasks, chutes)).1 := by
    intro n
    induction n with
    | zero => exact hu
    | succ n ih => exact (growAbort_tasks ..).2 ⟨mem_residentSlots hn, .inl ih⟩
  exact grow _

/-- After the residents that `p` holds of have been aborted, no slot that `p` holds of has a task. -/
theorem abortWork_empty (s : State) (p : SlotId → Bool) (chutes : List (Nat × Nat)) (u : SlotId) (hp : p u = true) :
    (getSlot (abortWork s ((residentSlots s).filter p) chutes) u).state = .empty := by
  obtain ⟨gone, h1, h2, h3⟩ := abortWork_gives s ((residentSlots s).filter p) chutes
  by_cases hu : u ∈ gone
  · rw [(h2 u hu).slot]
  · rw [(h3 u hu).slot]
    refine Classical.byContradiction fun hn => hu (h1 u (List.mem_filter.2 ⟨mem_residentSlots hn, hp⟩) hn)

theorem tile_of_abort {s : State} {tasks : List SlotId} {chutes : List (Nat × Nat)} {c : CoreId} {x : VatTile}
    (h : x ∈ (getCore (abortWork s tasks chutes) c).tiles) : x ∈ (getCore s c).tiles := by
  obtain ⟨gone, -, h2, h3⟩ := abortWork_gives s tasks chutes
  have hx : x ∈ tilesOf (abortWork s tasks chutes) ⟨c, x.slot⟩ := List.mem_filter.2 ⟨h, by simp⟩
  by_cases hu : (⟨c, x.slot⟩ : SlotId) ∈ gone
  · rw [(h2 _ hu).tiles] at hx
    cases hx
  · rw [(h3 _ hu).tiles] at hx
    exact (List.mem_filter.1 hx).1

theorem execFault {s : State} (h : s.pwr.phase ≠ .off) (r : FaultReport) : exec (.faultEvent r) s = .next (reportFault s r) := by
  have e : faultEvent s r = reportFault s r := if_neg h
  rw [exec, execFaultEvent, e]

theorem upd_fences {P : Part → Prop} {z s : State} (h : Keeps P z s) (f : Fences) (can : Can [.fences] P := by exact Can.sub (by assumption) (by decide)) :
    Keeps P z { s with dep := { s.dep with fences := f } } := by
  exact Keeps.upd h rfl rfl rfl

theorem fenceCore_gives {s : State} {c : CoreId} (h : s.dep.fences.cores.contains (coreKey c) = false) (hn : fencedCores s c.seam.val < 15) :
    let f := s.dep.fences
    Fenced { f with cores := coreKey c :: f.cores } 1 2 c.seam.val c.core.val 0 s (fenceCore s c) ∧
    (∀ u : SlotId, u.core = c → (getSlot (fenceCore s c) u).state = .empty) := by
  intro f
  obtain ⟨s1, e1⟩ : ∃ x, x = ({ s with dep := { s.dep with fences := { s.dep.fences with cores := coreKey c :: s.dep.fences.cores } } } : State) := ⟨_, rfl⟩
  obtain ⟨s2, e2⟩ : ∃ x, x = abortWork s1 ((residentSlots s1).filter fun t => t.core == c) (chutesOn s1 (· == c)) := ⟨_, rfl⟩
  obtain ⟨s3, e3⟩ : ∃ x, x = replaceNodes s2 := ⟨_, rfl⟩
  obtain ⟨s4, e4⟩ : ∃ x, x = fenceDone s3 1 2 c.seam.val c.core.val 0 := ⟨_, rfl⟩
  have k1 : Keeps (· ∈ [.fences]) s s1 := by rw [e1]; exact upd_fences (.refl s) _ (Can.all _)
  have k2 : Keeps (· ∈ [.regs, .jobs, .dep, .txQueue, .sessions, .outs, .arrays, .cores, .hoists, .scatters, .chutes]) s1 s2 := by
    rw [e2]; exact abortWork_keeps (.refl s1) _ _ (Can.all _)
  have k3 : Keeps (· ∈ [.freeCount, .regs, .graphs, .jobs, .chutes]) s2 s3 := by rw [e3]; exact replaceNodes_keeps (.refl s2) (Can.all _)
  have k4 : Keeps (· ∈ [.regs, .dep]) s3 s4 := by rw [e4]; exact fenceDone_keeps (.refl s3) _ _ _ _ _ (Can.all _)
  have f1 : s1.dep.fences = { f with cores := coreKey c :: f.cores } := by rw [e1]
  have f3 : s3.dep.fences = { f with cores := coreKey c :: f.cores } :=
    (k3.field .fences (by decide)).trans ((k2.field .fences (by decide)).trans f1)
  have f4 : s4.dep.fences = { f with cores := coreKey c :: f.cores } := (k4.field .fences (by decide)).trans f3
  have e : fenceCore s c = s4 := by
    unfold fenceCore
    rw [if_neg (by rw [h]; exact Bool.false_ne_true)]
    dsimp only
    rw [← e1, ← e2, ← e3, ← e4]
    refine if_neg ?_
    have : fencedCores s4 c.seam.val ≤ fencedCores s c.seam.val + 1 := by
      unfold fencedCores
      rw [f4]
      simp only [List.filter_cons]
      split
      · simp [f]
      · simp only [f]; omega
    omega
  rw [e]
  refine ⟨?_, fun u hu => ?_⟩
  · have g := fenceDone_gives s3 1 2 c.seam.val c.core.val 0
    rw [← e4, f3] at g
    exact ⟨g.fences, faultLogged_now g.log ((keeps_now k3 (by decide)).trans ((keeps_now k2 (by decide)).trans (keeps_now k1 (by decide)))), g.flag⟩
  · rw [getSlot_congr ((k4.field .cores (by decide)).trans (k3.field .cores (by decide))), e2]
    exact abortWork_empty _ _ _ _ (by simp [hu])

theorem getSlot_noCores {s : State} {u : SlotId} (h : getCore s u.core = {}) : (getSlot s u).state = .empty := by
  unfold getSlot
  rw [h]
  rfl

theorem getDom_of {s t : State} (h : t.clk.doms = s.clk.doms) (d : DomainId) : getDom t d = getDom s d := by
  unfold getDom
  rw [h]

theorem domainReset_doms (s : State) (d : DomainId) (n : Nat) :
    (domainReset s d n).clk.doms = (setDom s d { getDom s d with
      inReset := true
      live := false }).clk.doms := by
  unfold domainReset
  obtain ⟨z1, y1⟩ : ∃ x, x = flushPort (setDom s d { getDom s d with
      inReset := true
      live := false }) d := ⟨_, rfl⟩
  obtain ⟨z2, y2⟩ : ∃ x, x = abortWork z1 (domainTasks z1 d) (domainChutes z1 d) := ⟨_, rfl⟩
  show (countReset (clearDomain (abortWork (flushPort _ d) (domainTasks (flushPort _ d) d) (domainChutes (flushPort _ d) d)) d) d n).clk.doms = _
  rw [← y1, ← y2]
  have k1 : Keeps (· ∈ [.txQueue, .port]) (setDom s d { getDom s d with
      inReset := true
      live := false }) z1 := by rw [y1]; exact flushPort_keeps (.refl _) _ (Can.all _)
  have k2 : Keeps (· ∈ [.regs, .jobs, .dep, .txQueue, .sessions, .outs, .arrays, .cores, .hoists, .scatters, .chutes]) z1 z2 := by
    rw [y2]; exact abortWork_keeps (.refl z1) _ _ (Can.all _)
  have k3 : Keeps (· ∈ [.regs, .sessions, .arrays, .cores, .adits, .hoists, .chans, .links, .chutes, .hops, .counters]) z2 (clearDomain z2 d) :=
    clearDomain_keeps (.refl z2) _ (Can.all _)
  have k4 : Keeps (· ∈ [.regs]) (clearDomain z2 d) (countReset (clearDomain z2 d) d n) := countReset_keeps (.refl _) _ _ (Can.all _)
  exact (k4.field .doms (by decide)).trans ((k3.field .doms (by decide)).trans ((k2.field .doms (by decide)).trans (k1.field .doms (by decide))))

theorem domainHalt_dom (s : State) (d : DomainId) (n : Nat) :
    getDom (domainHalt s d n) d = { running := false, locked := false, inReset := true, live := false } ∧
    ∀ e, e ≠ d → getDom (domainHalt s d n) e = getDom s e := by
  unfold domainHalt
  refine ⟨getDom_setDom_self .., fun e he => ?_⟩
  rw [getDom_setDom_other _ _ he, getDom_of (domainReset_doms s d n), getDom_setDom_other _ _ he]

theorem haltIf_dom (s : State) (d : DomainId) (n : Nat) : DomStopped d s (haltIf s d n) ∧ ∀ e, e ≠ d → getDom (haltIf s d n) e = getDom s e := by
  unfold haltIf DomStopped
  by_cases h : (getDom s d).running = true
  · rw [if_pos h, if_pos h]
    exact domainHalt_dom s d n
  · rw [if_neg h, if_neg h]
    exact ⟨rfl, fun _ _ => rfl⟩

theorem tget_filterKey {α : Type} (t : Table α) (d : α) (p : Nat → Bool) (i : Nat) :
    tget (t.filter fun e => p e.1) d i = if p i then tget t d i else d := by
  induction t with
  | nil => show d = if p i = true then d else d; split <;> rfl
  | cons e r ih =>
    rw [List.filter_cons]
    by_cases he : e.1 = i
    · by_cases hp : p e.1 = true
      · rw [if_pos hp, if_pos (he ▸ hp)]
        unfold tget
        rw [if_pos he, if_pos he]
      · rw [if_neg hp, ih, if_neg (he ▸ hp), if_neg (he ▸ hp)]
    · have e2 : tget (e :: r) d i = tget r d i := by
        show (if e.1 = i then e.2 else tget r d i) = _
        exact if_neg he
      rw [e2, ← ih]
      split
      · show (if e.1 = i then e.2 else _) = _
        exact if_neg he
      · rfl

theorem clearDomain_core (s : State) (d : DomainId) (c : CoreId) : getCore (clearDomain s d) c = getCore s c ∨ getCore (clearDomain s d) c = {} := by
  have hr : (clearDomainRegs s d).cores = s.cores := rfl
  cases d with
  | seam m x =>
    cases x with
    | aclk => exact .inl (getCore_congr hr c)
    | mclk => exact .inl (getCore_congr hr c)
    | fclk =>
      refine .inl (getCore_congr ?_ c)
      show (restartSequencer _ m.val).cores = s.cores
      exact (restartSequencer_keeps (.refl _) _ (Can.all _)).field .cores (by decide)
    | kclk =>
      have : getCore (clearDomain s (.seam m .kclk)) c = if coreKey c / 32 != m.val then getCore s c else {} :=
        tget_filterKey s.cores {} (fun k => k / 32 != m.val) (coreKey c)
      rw [this]
      split
      · exact .inl rfl
      · exact .inr rfl
  | pclk => exact .inl (getCore_congr ((dropAllReceive_keeps (.refl _) (Can.all _)).field .cores (by decide)) c)
  | hubFclk => exact .inl (getCore_congr ((dropAllReceive_keeps (.refl _) (Can.all _)).field .cores (by decide)) c)

theorem haltIf_empty (s : State) (d : DomainId) (n : Nat) {u : SlotId} (h : (getSlot s u).state = .empty) :
    (getSlot (haltIf s d n) u).state = .empty := by
  unfold haltIf
  split
  · unfold domainHalt domainReset
    obtain ⟨z1, y1⟩ : ∃ x, x = flushPort (setDom s d { getDom s d with
      inReset := true
      live := false }) d := ⟨_, rfl⟩
    obtain ⟨z2, y2⟩ : ∃ x, x = abortWork z1 (domainTasks z1 d) (domainChutes z1 d) := ⟨_, rfl⟩
    show (getSlot (setDom (countReset (clearDomain (abortWork (flushPort _ d) (domainTasks (flushPort _ d) d) (domainChutes (flushPort _ d) d)) d) d n) d _) u).state = .empty
    rw [← y1, ← y2]
    have c1 : z1.cores = s.cores := by
      rw [y1]
      exact (flushPort_keeps (.refl _) _ (Can.all _)).field .cores (by decide)
    have h2 : (getSlot z2 u).state = .empty := by
      obtain ⟨gone, -, a2, a3⟩ := abortWork_gives z1 (domainTasks z1 d) (domainChutes z1 d)
      rw [← y2] at a2 a3
      by_cases hu : u ∈ gone
      · rw [(a2 u hu).slot]
      · rw [(a3 u hu).slot, getSlot_congr c1, h]
    have c3 : ∀ x, (setDom (countReset (clearDomain z2 d) d n) d x).cores = (clearDomain z2 d).cores := fun x =>
      (setDom_cores ..).trans ((countReset_keeps (.refl _) _ _ (Can.all _)).field .cores (by decide))
    rw [getSlot_congr (c3 _)]
    unfold getSlot
    rcases clearDomain_core z2 d u.core with k | k
    · rw [k]; exact h2
    · rw [k]; rfl
  · exact h

theorem fenceSeam_gives {s : State} {m : Fin 16} (h : s.dep.fences.seams.contains m.val = false) : let f := s.dep.fences
    let t := fenceSeam s m
    Fenced { f with seams := m.val :: f.seams } 1 5 m.val 0 0 s t ∧
      DomStopped (.seam m .aclk) s t ∧ DomStopped (.seam m .kclk) s t ∧
      (∀ d, d ≠ .seam m .aclk → d ≠ .seam m .kclk → getDom t d = getDom s d) ∧
      (∀ u : SlotId, u.core.seam = m → (getSlot t u).state = .empty) := by
  intro f t
  obtain ⟨s1, e1⟩ : ∃ x, x = ({ s with dep := { s.dep with fences := { s.dep.fences with seams := m.val :: s.dep.fences.seams } } } : State) := ⟨_, rfl⟩
  obtain ⟨s2, e2⟩ : ∃ x, x = abortWork s1 ((residentSlots s1).filter fun t => t.core.seam == m) (chutesOn s1 fun c => c.seam == m) := ⟨_, rfl⟩
  obtain ⟨s3, e3⟩ : ∃ x, x = haltIf s2 (.seam m .aclk) 0 := ⟨_, rfl⟩
  obtain ⟨s4, e4⟩ : ∃ x, x = haltIf s3 (.seam m .kclk) 0 := ⟨_, rfl⟩
  obtain ⟨s5, e5⟩ : ∃ x, x = replaceNodes (dealSeam s4 m.val) := ⟨_, rfl⟩
  obtain ⟨s6, e6⟩ : ∃ x, x = fenceDone s5 1 5 m.val 0 0 := ⟨_, rfl⟩
  have e : t = s6 := by
    simp only [t]
    unfold fenceSeam
    rw [if_neg (by rw [h]; exact Bool.false_ne_true)]
    dsimp only
    rw [← e1, ← e2, ← e3, ← e4, ← e5, ← e6]
  have can := Can.all [.regs, .doms, .jobs, .dep, .txQueue, .sessions, .outs, .port, .arrays, .cores, .adits, .hoists, .scatters, .chans, .links, .chutes, .hops, .counters]
  have k1 : Keeps (· ∈ [.fences]) s s1 := by rw [e1]; exact upd_fences (.refl s) _ (Can.all _)
  have k2 : Keeps (· ∈ [.regs, .jobs, .dep, .txQueue, .sessions, .outs, .arrays, .cores, .hoists, .scatters, .chutes]) s1 s2 := by
    rw [e2]; exact abortWork_keeps (.refl s1) _ _ (Can.all _)
  have k4 : Keeps (· ∈ [.regs, .doms, .jobs, .dep, .txQueue, .sessions, .outs, .port, .arrays, .cores, .adits, .hoists, .scatters, .chans, .links, .chutes, .hops, .counters]) s2 s4 := by
    rw [e4, e3]
    exact haltIf_keeps (haltIf_keeps (.refl s2) ..) ..
  have k5 : Keeps (· ∈ [.freeCount, .regs, .graphs, .jobs, .chutes, .dep, .counters]) s4 s5 := by
    rw [e5]
    have can := Can.all [.freeCount, .regs, .graphs, .jobs, .chutes, .dep, .counters]
    exact replaceNodes_keeps (dealSeam_keeps (.refl s4) ..)
  have k6 : Keeps (· ∈ [.regs, .dep]) s5 s6 := by rw [e6]; exact fenceDone_keeps (.refl s5) _ _ _ _ _ (Can.all _)
  have f5 : s5.dep.fences = { f with seams := m.val :: f.seams } :=
    (k5.field .fences (by decide)).trans ((k4.field .fences (by decide)).trans ((k2.field .fences (by decide)).trans (by rw [e1])))
  have d2 : s2.clk.doms = s.clk.doms := (k2.field .doms (by decide)).trans (k1.field .doms (by decide))
  have d6 : s6.clk.doms = s4.clk.doms := (k6.field .doms (by decide)).trans (k5.field .doms (by decide))
  have c6 : s6.cores = s4.cores := (k6.field .cores (by decide)).trans (k5.field .cores (by decide))
  obtain ⟨h3, h3'⟩ := haltIf_dom s2 (.seam m .aclk) 0
  obtain ⟨h4, h4'⟩ := haltIf_dom s3 (.seam m .kclk) 0
  rw [← e3] at h3 h3'
  rw [← e4] at h4 h4'
  rw [e]
  refine ⟨?_, ?_, ?_, fun d n1 n2 => ?_, fun u hu => ?_⟩
  · have g := fenceDone_gives s5 1 5 m.val 0 0
    rw [← e6, f5] at g
    exact ⟨g.fences, faultLogged_now g.log ((keeps_now k5 (by decide)).trans ((keeps_now k4 (by decide)).trans ((keeps_now k2 (by decide)).trans (keeps_now k1 (by decide))))), g.flag⟩
  · rw [DomStopped, getDom_of d6, h4' _ (by simp), h3, getDom_of d2]
  · rw [DomStopped, getDom_of d6, h4, h3' _ (by simp), getDom_of d2]
  · rw [getDom_of d6, h4' _ n2, h3' _ n1, getDom_of d2]
  · rw [getSlot_congr c6, e4]
    refine haltIf_empty _ _ _ ?_
    rw [e3]
    refine haltIf_empty _ _ _ ?_
    rw [e2]
    exact abortWork_empty _ _ _ _ (by simp [hu])

theorem haltIf_mem {s : State} (m : Fin 16) : (getDom (haltIf s (.seam m .mclk) 0) (.seam m .mclk)).running = false := by
  have h := (haltIf_dom s (.seam m .mclk) 0).1
  rw [h]
  cases hr : (getDom s (.seam m .mclk)).running with
  | true => rfl
  | false => rw [if_neg Bool.false_ne_true, hr]

theorem fenceSeam_or {s : State} (m : Fin 16) : m.val ∈ (fenceSeam s m).dep.fences.seams ∧ (fenceSeam s m).dep.fences.drams = s.dep.fences.drams ∧
    getDom (fenceSeam s m) (.seam m .mclk) = getDom s (.seam m .mclk) := by
  cases h : s.dep.fences.seams.contains m.val with
  | true =>
    have e : fenceSeam s m = s := if_pos h
    rw [e]
    exact ⟨List.contains_iff_mem.1 h, rfl, rfl⟩
  | false =>
    obtain ⟨g, -, -, g2, -⟩ := fenceSeam_gives h
    exact ⟨by rw [g.fences]; exact .head _, by rw [g.fences], g2 _ (by simp) (by simp)⟩

theorem rawReg_logFaultBut (s : State) (cls level seam core unit a : Nat) (h : a < depBase + 0x38) (h2 : a ≠ depBase + Ctr.DEP_CONTAINED_CNT) :
    rawReg (logFault s cls level seam core unit) a = rawReg s a := by
  unfold logFault
  extract_lets s1 s2 s3
  rw [step_other rfl (rawReg_count_other _ h2), rawReg_setRawReg_other _ _ (by omega), rawReg_setRawReg_other _ _ (by omega),
    rawReg_setRawReg_other _ _ (by omega)]

theorem loseCopy_gives (s : State) (second : Bool) : let has := if second then s.jnl.copy8 else s.jnl.copy0
    let other := if second then s.jnl.copy0 else s.jnl.copy8
    (has = false → loseCopy s second = s) ∧
    (has = true → (loseCopy s second).jnl = (if second then { s.jnl with copy8 := false } else { s.jnl with copy0 := false }) ∧
      BitSet (depBase + Flag.dep_JNL_SINGLE.1) Flag.dep_JNL_SINGLE.2 (loseCopy s second) ∧
      (loseCopy s second).dep = { s.dep with out := s.dep.out || !other }) := by
  intro has other
  refine ⟨fun h => if_neg (by rw [show (if second = true then s.jnl.copy8 else s.jnl.copy0) = false from h]; decide), fun h => ?_⟩
  obtain ⟨j, ej⟩ : ∃ j, j = (if second then { s.jnl with copy8 := false } else { s.jnl with copy0 := false } : Journal) := ⟨_, rfl⟩
  let z := raise { s with jnl := j } depBase Flag.dep_JNL_SINGLE
  have e : loseCopy s second = if j.copy0 || j.copy8 then z else moduleOut z := by
    unfold loseCopy
    rw [if_pos h]
    simp only [z, ej]
  have ho : (j.copy0 || j.copy8) = other := by
    rw [ej]
    cases second
    · exact Bool.false_or _
    · exact Bool.or_false _
  rw [e, ho, ← ej]
  have zj : z.jnl = j := raise_jnl ..
  have zd : z.dep = s.dep := raise_dep ..
  have zb : BitSet (depBase + Flag.dep_JNL_SINGLE.1) Flag.dep_JNL_SINGLE.2 z := bitSet_raise _ _ _ (by decide)
  cases ht : other with
  | true => exact ⟨zj, zb, by rw [if_pos rfl, zd]; simp⟩
  | false =>
    rw [if_neg Bool.false_ne_true]
    have m : Keeps (· ∈ [.regs, .dep]) z (moduleOut z) := moduleOut_keeps (.refl z) (Can.all _)
    refine ⟨(keeps_jnl m (by decide) (by decide) (by decide)).trans zj, ?_, ?_⟩
    · unfold BitSet
      rw [show rawReg (moduleOut z) (depBase + Flag.dep_JNL_SINGLE.1) = rawReg (logFault z 3 6 0 0 0) (depBase + Flag.dep_JNL_SINGLE.1) from rfl,
        rawReg_logFaultBut _ _ _ _ _ _ _ (by decide) (by decide)]
      exact zb
    · show { (logFault z 3 6 0 0 0).dep with out := true } = _
      rw [logFault_dep, zd]
      simp

theorem moduleOut_gives (s : State) : (moduleOut s).dep = { s.dep with out := true } ∧ FaultLogged 3 6 0 0 0 s (moduleOut s) ∧
    SameBut [.regs, .dep] s (moduleOut s) := by
  refine ⟨?_, faultLogged_congr (faultLogged_logFault ..) rfl, (moduleOut_keeps (.refl s) (Can.all _)).sameBut⟩
  show { (logFault s 3 6 0 0 0).dep with out := true } = _
  rw [logFault_dep]

theorem setSlot_tiles (z : State) (i : SlotId) (x : TaskSlot) (c : CoreId) :
    (getCore (setSlot z i x) c).tiles = (getCore z c).tiles := by
  have g := congrArg CoreState.tiles (getCore_setSlot z i x c)
  exact g

theorem resetTilesOf_tiles (s : State) (a : ArrayId) : (getCore (resetTilesOf s a) a.core).tiles =
    (getCore s a.core).tiles.map fun t => if t.isOpen && t.array == some a.array then resetTile t else t := by
  have go : ∀ (l : List VatTile) (z : State), (getCore (l.foldl (fun s t => reissuePart s a.core t) z) a.core).tiles =
      (getCore z a.core).tiles := by
    intro l
    induction l with
    | nil => exact fun z => rfl
    | cons t r ih =>
      intro z
      rw [List.foldl_cons, ih]
      unfold reissuePart
      dsimp only
      split
      · rfl
      · exact setSlot_tiles ..
  simp only [resetTilesOf]
  rw [go, getCore_setCore_self]

theorem fenceArray_gives {s : State} {a : ArrayId} (test : Bool) (h : arrayFenced s a = false) : let f := s.dep.fences
    Fenced { f with arrays := arrayKey a :: f.arrays } 1 0 a.core.seam.val a.core.core.val a.array.val s (fenceArray s a test) ∧
    (∀ x ∈ (getCore (fenceArray s a test) a.core).tiles, x.isOpen = true → x.array ≠ some a.array) := by
  intro f
  obtain ⟨x, hx⟩ : ∃ x, x = (if test then { getArray s a with fenceTest := true } else { getArray s a with fenceTally := true } : ArrayState) := ⟨_, rfl⟩
  let s1 := setArray s a { voidWork x (fun _ => true) with charge := none }
  let s2 : State := { s1 with dep := { s1.dep with fences := { s1.dep.fences with arrays := arrayKey a :: s1.dep.fences.arrays } } }
  let s3 := resetTilesOf s2 a
  let s4 := if (liveArrays s3 a.core).isEmpty then abortWork s3 (slotsOnArray s a) [] else s3
  let s5 := raise s4 (coreRegBase a.core) Flag.core_ARRAY_LOST
  have e : fenceArray s a test = fenceDone s5 1 0 a.core.seam.val a.core.core.val a.array.val := by
    unfold fenceArray
    rw [if_neg (by rw [h]; exact Bool.false_ne_true)]
    simp only [s5, s4, s3, s2, s1, hx]
  have k2 : Keeps (· ∈ [.fences, .arrays]) s s2 := by
    have can := Can.all [.fences, .arrays]
    exact Keeps.upd (setArray_keeps (.refl s) ..) rfl rfl rfl
  have k5 : Keeps (· ∈ [.regs, .jobs, .dep, .txQueue, .sessions, .outs, .arrays, .cores, .hoists, .scatters, .chutes]) s2 s5 := by
    have can := Can.all [.regs, .jobs, .dep, .txQueue, .sessions, .outs, .arrays, .cores, .hoists, .scatters, .chutes]
    have k3 : Keeps _ s2 s3 := resetTilesOf_keeps (.refl s2) a
    exact raise_keeps (Keeps.ite k3 (fun k3 => abortWork_keeps k3 ..)) ..
  have t5 : s5.clk.now = s.clk.now := (keeps_now k5 (by decide)).trans (keeps_now k2 (by decide))
  have f5 : s5.dep.fences = { f with arrays := arrayKey a :: f.arrays } := k5.field .fences (by decide)
  rw [e]
  refine ⟨?_, fun v hv ho => ?_⟩
  · have g := fenceDone_gives s5 1 0 a.core.seam.val a.core.core.val a.array.val
    rw [f5] at g
    exact ⟨g.fences, faultLogged_now g.log t5, g.flag⟩
  · have hc : (fenceDone s5 1 0 a.core.seam.val a.core.core.val a.array.val).cores = s4.cores :=
      ((fenceDone_keeps (.refl s5) _ _ _ _ _ (Can.all _)).field .cores (by decide)).trans (raise_cores ..)
    rw [getCore_congr hc] at hv
    have hv3 : v ∈ (getCore s3 a.core).tiles := by
      revert hv
      simp only [s4]
      split
      · exact tile_of_abort
      · exact id
    have e3 : (getCore s3 a.core).tiles = (getCore s2 a.core).tiles.map fun t =>
        if t.isOpen && t.array == some a.array then resetTile t else t := resetTilesOf_tiles s2 a
    rw [e3] at hv3
    obtain ⟨w, -, hw⟩ := List.mem_map.1 hv3
    subst hw
    by_cases hn : (w.isOpen && w.array == some a.array) = true
    · rw [if_pos hn]
      exact fun k => by cases k
    · rw [if_neg hn] at ho ⊢
      intro k
      exact hn (by rw [ho, k]; simp)

theorem fenceDram_gives {s : State} {m : Fin 16} (h : s.dep.fences.drams.contains m.val = false) :
    m.val ∈ (fenceDram s m).dep.fences.drams ∧ m.val ∈ (fenceDram s m).dep.fences.seams ∧
      (getDom (fenceDram s m) (.seam m .mclk)).running = false := by
  obtain ⟨s1, e1⟩ : ∃ x, x = ({ s with dep := { s.dep with fences := { s.dep.fences with drams := m.val :: s.dep.fences.drams } } } : State) := ⟨_, rfl⟩
  obtain ⟨s2, e2⟩ : ∃ x, x = haltIf s1 (.seam m .mclk) 0 := ⟨_, rfl⟩
  obtain ⟨s3, e3⟩ : ∃ x, x = voidGranules s2 (allocatedGranules s2 fun g => backGran s2 g * 4096 / Config.seamWindow == m.val) := ⟨_, rfl⟩
  obtain ⟨s4, e4⟩ : ∃ x, x = fenceDone (loseSeamCopy s3 m.val) 2 4 m.val 0 0 := ⟨_, rfl⟩
  have e : fenceDram s m = fenceSeam s4 m := by
    unfold fenceDram
    rw [if_neg (by rw [h]; exact Bool.false_ne_true)]
    dsimp only
    rw [← e1, ← e2, ← e3, ← e4]
  have k2 : Keeps (· ∈ [.regs, .doms, .jobs, .dep, .txQueue, .sessions, .outs, .port, .arrays, .cores, .adits, .hoists, .scatters, .chans, .links, .chutes, .hops, .counters]) s1 s2 := by
    rw [e2]; exact haltIf_keeps (.refl s1) _ _ (Can.all _)
  have k3 : Keeps (· ∈ [.regs, .jobs, .voids, .dep, .txQueue, .sessions, .outs, .arrays, .cores, .hoists, .scatters, .chutes]) s2 s3 := by
    rw [e3]; exact voidGranules_keeps (.refl s2) _ (Can.all _)
  have k4 : Keeps (· ∈ [.regs, .dep, .jnl]) s3 s4 := by
    rw [e4]
    have can := Can.all [.regs, .dep, .jnl]
    exact fenceDone_keeps (loseSeamCopy_keeps (.refl s3) ..) ..
  have f4 : s4.dep.fences = s1.dep.fences := (k4.field .fences (by decide)).trans ((k3.field .fences (by decide)).trans (k2.field .fences (by decide)))
  have d4 : s4.clk.doms = s2.clk.doms := (k4.field .doms (by decide)).trans (k3.field .doms (by decide))
  obtain ⟨g1, g2, g3⟩ := fenceSeam_or (s := s4) m
  rw [e]
  refine ⟨?_, g1, ?_⟩
  · rw [g2, f4, e1]
    exact .head _
  · rw [g3, getDom_of d4, e2]
    exact haltIf_mem m

theorem nextCmd_iff (x : TaskSlot) (u : UnitKind) (i : Nat) : nextCmd x u = some i ↔ ∃ d, x.cmds[i]? = some d ∧ d.cmd.unit = u ∧
    d.issued = false ∧ ∀ (j : Nat) (e : SlotCmd), j < i → x.cmds[j]? = some e → e.cmd.unit = u → e.issued = true := by
  unfold nextCmd
  rw [List.find?_range_eq_some]
  constructor
  · rintro ⟨h1, h2, h3⟩
    split at h1
    · rename_i d hd
      simp only [Bool.and_eq_true, beq_iff_eq, Bool.not_eq_true'] at h1
      refine ⟨d, hd, h1.1, h1.2, fun j e hj he hu => ?_⟩
      have := h3 j hj
      rw [he] at this
      simpa [hu] using this
    · cases h1
  · rintro ⟨d, hd, h1, h2, h3⟩
    refine ⟨by rw [hd]; simp [h1, h2], List.mem_range.mpr (List.getElem?_eq_some_iff.mp hd).1, fun j hj => ?_⟩
    cases he : x.cmds[j]? with
    | none => simp
    | some e =>
      simp only [Bool.not_eq_true', Bool.and_eq_false_iff, Bool.not_eq_false', beq_eq_false_iff_ne]
      by_cases hu : e.cmd.unit = u
      · exact .inr (h3 j e hj he hu)
      · exact .inl hu

theorem hasReady_iff (x : TaskSlot) : hasReady x = true ↔ ∃ (i : Nat) (d : SlotCmd), x.cmds[i]? = some d ∧ d.issued = false ∧
    (∀ (j : Nat) (e : SlotCmd), j < i → x.cmds[j]? = some e → e.cmd.unit = d.cmd.unit → e.issued = true) ∧
    (∀ k ∈ d.cmd.deps, ∀ e : SlotCmd, x.cmds[k]? = some e → e.done = true) ∧ ∀ p ∈ d.cmd.needs, piecePresent x p = true := by
  have units : ∀ u : UnitKind, u ∈ unitKinds := fun u => by cases u <;> simp [unitKinds]
  have ready : ∀ (i : Nat) (d : SlotCmd), x.cmds[i]? = some d → (cmdReady x i = true ↔ d.issued = false ∧
      (∀ k ∈ d.cmd.deps, ∀ e : SlotCmd, x.cmds[k]? = some e → e.done = true) ∧ ∀ p ∈ d.cmd.needs, piecePresent x p = true) := by
    intro i d hd
    unfold cmdReady
    rw [hd]
    simp only [Bool.and_eq_true, Bool.not_eq_true', List.all_eq_true, and_assoc]
    refine and_congr_right fun _ => and_congr_left fun _ => forall_congr' fun k => imp_congr_right fun _ => ?_
    cases x.cmds[k]? <;> simp
  unfold hasReady
  rw [List.any_eq_true]
  constructor
  · rintro ⟨u, -, h⟩
    split at h
    · rename_i i hi
      obtain ⟨d, hd, h1, h2, h3⟩ := (nextCmd_iff ..).mp hi
      obtain ⟨-, r2, r3⟩ := (ready i d hd).mp h
      exact ⟨i, d, hd, h2, fun j e hj he hu => h3 j e hj he (hu.trans h1), r2, r3⟩
    · cases h
  · rintro ⟨i, d, hd, h2, h3, r2, r3⟩
    refine ⟨d.cmd.unit, units _, ?_⟩
    rw [(nextCmd_iff x d.cmd.unit i).mpr ⟨d, hd, rfl, h2, h3⟩]
    exact (ready i d hd).mpr ⟨h2, r2, r3⟩

theorem stalled_iff (s : State) (c : CoreId) : stalled s c = true ↔ ∃ u : SlotId, u.core = c ∧ (getSlot s u).state = .running ∧
    ∃ (i : Nat) (d : SlotCmd), (getSlot s u).cmds[i]? = some d ∧ d.issued = false ∧
      (∀ (j : Nat) (e : SlotCmd), j < i → (getSlot s u).cmds[j]? = some e → e.cmd.unit = d.cmd.unit → e.issued = true) ∧
      (∀ k ∈ d.cmd.deps, ∀ e : SlotCmd, (getSlot s u).cmds[k]? = some e → e.done = true) ∧
      ∀ p ∈ d.cmd.needs, piecePresent (getSlot s u) p = true := by
  unfold stalled slotsOfCore
  simp only [List.any_eq_true, List.mem_map, List.mem_finRange, true_and, Bool.and_eq_true, decide_eq_true_eq, hasReady_iff]
  constructor
  · rintro ⟨u, ⟨k, rfl⟩, h1, h2⟩
    exact ⟨_, rfl, h1, h2⟩
  · rintro ⟨u, rfl, h1, h2⟩
    exact ⟨u, ⟨u.slot, rfl⟩, h1, h2⟩

end Sys2Proof.Machine
end

