-- ==== Sys2Proof/Laws/Clocks.lean ====
section
/-! SUPPORT. Clocks and domains: what the operations do. -/

-- one theorem after the other: proofs side by side would need more memory than the check allows
set_option Elab.async false

namespace Sys2Proof.Machine

open Sys2Proof.Safety

theorem domainReset_gives (s : State) (d : DomainId) (n : Nat) : DomIs d { getDom s d with
      inReset := true
      live := false } s (domainReset s d n) ∧ domainReset s d n = countReset (afterReset s d) d n := by
  refine ⟨⟨?_, fun e he => ?_⟩, rfl⟩
  · rw [getDom_of (domainReset_doms s d n), getDom_setDom_self]
  · rw [getDom_of (domainReset_doms s d n), getDom_setDom_other _ _ he]

theorem domainHalt_gives (s : State) (d : DomainId) (n : Nat) : DomIs d heldDomain s (domainHalt s d n) ∧
    RegsAs (countReset (afterReset s d) d n) (domainHalt s d n) ∧ Keeps (· ∈ resetParts) s (domainHalt s d n) :=
  ⟨domainHalt_dom s d n, setDom_regs .., domainHalt_keeps (.refl s) _ _ (Can.sub (Can.all resetParts) (by decide))⟩

theorem releaseDomain_gives (s : State) (d : DomainId) : let x := getDom s d
    (x.running = false ∨ x.inReset = false → releaseDomain s d = s) ∧
    (x.running = true → x.inReset = true → DomIs d { x with
        inReset := false
        live := true } s (releaseDomain s d) ∧ ReplicaLoaded d s (releaseDomain s d)) := by
  intro x
  refine ⟨fun h => if_neg ?_, fun h1 h2 => ?_⟩
  · show ¬ (x.running && x.inReset) = true
    rcases h with h | h <;> rw [h] <;> simp
  · let z := setDom s d { x with
        inReset := false
        live := true }
    have e : releaseDomain s d = loadReplica z d := if_pos (by show (x.running && x.inReset) = true; rw [h1, h2]; rfl)
    rw [e]
    have l : (loadReplica z d).clk.doms = z.clk.doms ∧ ReplicaLoaded d s (loadReplica z d) := by
      unfold loadReplica ReplicaLoaded
      cases replicaKey d with
      | none => exact ⟨rfl, rfl⟩
      | some k => exact ⟨rfl, rfl⟩
    exact ⟨⟨(getDom_of l.1 d).trans (getDom_setDom_self ..), fun e he => (getDom_of l.1 e).trans (getDom_setDom_other _ _ he)⟩, l.2⟩

theorem startDomain_gives (s : State) (d : DomainId) : DomIs d (startedDomain (getDom s d)) s (startDomain s d) ∧
    ((getDom s d).running = false ∨ (getDom s d).inReset = true → ReplicaLoaded d s (startDomain s d)) := by
  unfold startDomain startedDomain
  dsimp only
  by_cases h : (getDom s d).running = true
  · rw [if_pos h, if_pos h]
    by_cases h2 : (getDom s d).inReset = true
    · rw [if_pos h2]
      obtain ⟨a, b⟩ := (releaseDomain_gives s d).2 h h2
      exact ⟨a, fun _ => b⟩
    · rw [if_neg h2, (releaseDomain_gives s d).1 (.inr (by simpa using h2))]
      refine ⟨⟨rfl, fun _ _ => rfl⟩, fun k => ?_⟩
      rcases k with k | k
      · rw [h] at k; cases k
      · exact absurd k h2
  · rw [if_neg h, if_neg h]
    let z := setDom s d { running := true, locked := true, inReset := true, live := false }
    have hz : getDom z d = { running := true, locked := true, inReset := true, live := false } := getDom_setDom_self ..
    obtain ⟨a, b⟩ := (releaseDomain_gives z d).2 (by rw [hz]) (by rw [hz])
    rw [hz] at a
    refine ⟨⟨a.1, fun e he => (a.2 e he).trans (getDom_setDom_other _ _ he)⟩, fun _ => ?_⟩
    unfold ReplicaLoaded at b ⊢
    rw [b]
    cases replicaKey d with
    | none => rfl
    | some k => rfl

theorem countReset_gives (s : State) (d : DomainId) (n : Nat) : let b := (domainRegs d).1
    let seam := (domainRegs d).2
    Counted (b + if seam then Ctr.seamClk_XING_RESET_CNT else Ctr.hubClk_XING_RESET_CNT) 1 s (countReset s d n) ∧
    Counted (b + if seam then Ctr.seamClk_XING_DROP_CNT else Ctr.hubClk_XING_DROP_CNT) n s (countReset s d n) := by
  intro b seam
  unfold countReset Counted
  dsimp only
  show rawReg (raise (count (count s b (if seam then _ else _) 1) b (if seam then _ else _) n) b (if seam then _ else _)) _ = _ ∧
    rawReg (raise (count (count s b (if seam then _ else _) 1) b (if seam then _ else _) n) b (if seam then _ else _)) _ = _
  cases seam
  · refine ⟨?_, ?_⟩
    · rw [rawReg_raise_other _ (by simp [Ctr.hubClk_XING_RESET_CNT, Flag.hubClk_FLUSH]), rawReg_count_other _ (by simp [Ctr.hubClk_XING_RESET_CNT, Ctr.hubClk_XING_DROP_CNT]), rawReg_count_self]
    · rw [rawReg_raise_other _ (by simp [Ctr.hubClk_XING_DROP_CNT, Flag.hubClk_FLUSH]), rawReg_count_self, rawReg_count_other _ (by simp [Ctr.hubClk_XING_RESET_CNT, Ctr.hubClk_XING_DROP_CNT])]
  · refine ⟨?_, ?_⟩
    · rw [rawReg_raise_other _ (by simp [Ctr.seamClk_XING_RESET_CNT, Flag.seamClk_FLUSH]), rawReg_count_other _ (by simp [Ctr.seamClk_XING_RESET_CNT, Ctr.seamClk_XING_DROP_CNT]), rawReg_count_self]
    · rw [rawReg_raise_other _ (by simp [Ctr.seamClk_XING_DROP_CNT, Flag.seamClk_FLUSH]), rawReg_count_self, rawReg_count_other _ (by simp [Ctr.seamClk_XING_RESET_CNT, Ctr.seamClk_XING_DROP_CNT])]

theorem rawReg_clearDomainRegs (s : State) (d : DomainId) (a : Nat) (l : RegLoc) (h : locate a = some l) :
    rawReg (clearDomainRegs s d) a = if l.dom = some d then regReset a else rawReg s a := by
  have e : rawReg (clearDomainRegs s d) a = if (match locate a with
      | some l => l.dom != some d
      | none => true) then rawReg s a else regReset a := by
    unfold rawReg clearDomainRegs
    exact tget_filterKey s.regs (regReset a) (fun k => match locate k with
      | some l => l.dom != some d
      | none => true) a
  rw [e, h]
  dsimp only
  by_cases hd : l.dom = some d
  · rw [if_pos hd, if_neg (by rw [hd]; simp)]
  · rw [if_neg hd, if_pos (bne_iff_ne.2 hd)]

theorem setTries_gives (s : State) (fclk : Bool) (n : Nat) : hubTries (setTries s fclk n) fclk = n ∧ (setTries s fclk n).clk.doms = s.clk.doms ∧
    (setTries s fclk n).regs = s.regs ∧ (setTries s fclk n).clk.now = s.clk.now := by
  cases fclk <;> exact ⟨rfl, rfl, rfl, rfl⟩

theorem logFault_congr {s t : State} (hr : t.regs = s.regs) (hn : t.clk.now = s.clk.now) (a b c d e : Nat) :
    (logFault t a b c d e).regs = (logFault s a b c d e).regs := by
  have h1 : ∀ {x y : State}, x.regs = y.regs → ∀ r v, (setRawReg x r v).regs = (setRawReg y r v).regs := fun h r v => by
    show tset _ _ _ _ = tset _ _ _ _
    rw [h]
  unfold logFault
  extract_lets s1 s2 s3 t1 t2 t3
  have e1 : s1.regs = t1.regs := h1 hr ..
  have e2 : s2.regs = t2.regs := by
    simp only [s2, t2]
    rw [show s1.clk.now = t.clk.now from rfl, show t1.clk.now = s.clk.now from rfl, hn]
    exact h1 e1 ..
  have e3 : s3.regs = t3.regs := by
    simp only [s3, t3]
    rw [show s2.clk.now = t.clk.now from rfl, show t2.clk.now = s.clk.now from rfl, hn]
    exact h1 e2 ..
  split
  · exact count_regs_congr e3 ..
  · exact e3

theorem tries_startDomain (s : State) (d : DomainId) (fclk : Bool) : hubTries (startDomain s d) fclk = hubTries s fclk := by
  have l : ∀ z, hubTries (loadReplica z d) fclk = hubTries z fclk := fun z => by
    unfold loadReplica
    cases replicaKey d with
    | none => rfl
    | some k => rfl
  have r : ∀ z, hubTries (releaseDomain z d) fclk = hubTries z fclk := fun z => by
    unfold releaseDomain
    dsimp only
    split
    · exact l _
    · rfl
  unfold startDomain
  dsimp only
  split
  · exact r _
  · exact r _

theorem hubPllRestart_gives (s : State) (fclk locks : Bool) :
    let d := hubDomain fclk;
      ((getDom s d).running = true ∨ s.pwr.railsUp = false ∨ 3 ≤ hubTries s fclk → exec (.hubPllRestart fclk locks) s = .next s) ∧
      ((getDom s d).running = false → s.pwr.railsUp = true → hubTries s fclk < 3 →
        (∃ z, DomIs d { running := true, locked := true, inReset := false, live := true } s z ∧ hubTries z fclk = 0 ∧ SameBut [.doms, .clk] s z ∧
          exec (.hubPllRestart fclk true) s = .next ((z.port.sessions.map (·.1)).foldl resyncSession z)) ∧
        (∃ z, hubTries z fclk = hubTries s fclk + 1 ∧ SameBut [.clk] s z ∧
          exec (.hubPllRestart fclk false) s = .next (if hubTries s fclk = 2 then moduleOut z else z))) := by
  intro d
  refine ⟨fun h => ?_, fun h1 h2 h3 => ⟨?_, ?_⟩⟩
  · have e : hubPllRestart s fclk locks = s := if_pos (by
      simp only [Bool.or_eq_true, Bool.not_eq_true', decide_eq_true_eq]
      rcases h with h | h | h
      · exact .inl (.inl h)
      · exact .inl (.inr h)
      · exact .inr h)
    rw [exec, execHubPllRestart, e]
  · obtain ⟨y, ey⟩ : ∃ y, y = setTries s fclk 0 := ⟨_, rfl⟩
    obtain ⟨t1, t2, t3, t4⟩ := setTries_gives s fclk 0
    rw [← ey] at t1 t2 t3 t4
    obtain ⟨z, ez⟩ : ∃ z, z = startDomain y d := ⟨_, rfl⟩
    have e : hubPllRestart s fclk true = (z.port.sessions.map (·.1)).foldl resyncSession z := by
      rw [ez, ey]
      refine (if_neg ?_).trans (if_pos rfl)
      rw [show (getDom s (hubDomain fclk)).running = false from h1, h2, decide_eq_false (by omega)]
      decide
    obtain ⟨a, -⟩ := startDomain_gives y d
    rw [← ez, getDom_of t2, show startedDomain (getDom s d) = { running := true, locked := true, inReset := false, live := true } from
      if_neg (by rw [show (getDom s d).running = false from h1]; decide)] at a
    refine ⟨z, ⟨a.1, fun e he => (a.2 e he).trans (getDom_of t2 e)⟩, ?_, ?_, by rw [exec, execHubPllRestart, e]⟩
    · rw [ez, tries_startDomain, t1]
    · have can := Can.all [.doms, .clk]
      rw [ez, ey]
      exact (startDomain_keeps (setTries_keeps (.refl s) ..) ..).sameBut
  · obtain ⟨y, ey⟩ : ∃ y, y = setTries s fclk (hubTries s fclk + 1) := ⟨_, rfl⟩
    obtain ⟨t1, -⟩ := setTries_gives s fclk (hubTries s fclk + 1)
    rw [← ey] at t1
    have e : hubPllRestart s fclk false = if hubTries s fclk + 1 = 3 then moduleOut y else y := by
      rw [ey]
      refine (if_neg ?_).trans (if_neg Bool.false_ne_true)
      rw [show (getDom s (hubDomain fclk)).running = false from h1, h2, decide_eq_false (by omega)]
      decide
    refine ⟨y, t1, ?_, ?_⟩
    · have can := Can.all [.clk]
      rw [ey]
      exact (setTries_keeps (.refl s) ..).sameBut
    · rw [exec, execHubPllRestart, e]
      by_cases h : hubTries s fclk = 2
      · rw [if_pos h, if_pos (by omega)]
      · rw [if_neg h, if_neg (by omega)]

theorem timeGap_le (a b : Nat) : (a - b) + (b - a) ≤ 8 ↔ (if a ≤ b then b - a else a - b) ≤ 8 := by
  split <;> omega

theorem pllUnlock_gives (s : State) (n : Nat) (m : Fin 16) (x : SeamDomain) :
    let d : DomainId := .seam m x;
      ((getDom s d).locked = false → exec (.pllUnlock m x n) s = .next s) ∧
      ((getDom s d).locked = true → ∃ z, DomIs d heldDomain s z ∧ RegsAs (countReset (afterReset s d) d n) z ∧ SameBut resetParts s z ∧
        exec (.pllUnlock m x n) s = .next (endRecovery
          (if x = .mclk then fenceDram (raise (abandonIn z d) (seamClkBase m.val) (Flag.seamClk_UNLOCK.1, seamDomBit x)) m
          else fenceSeam (raise (abandonIn z d) (seamClkBase m.val) (Flag.seamClk_UNLOCK.1, seamDomBit x)) m))) := by
  intro d
  refine ⟨fun h => ?_, fun h => ?_⟩
  · have e : pllUnlock s m x n = s := if_neg (by rw [show (getDom s (.seam m x)).locked = false from h]; decide)
    rw [exec, execPllUnlock, e]
  · obtain ⟨a, b, c⟩ := domainHalt_gives s d n
    refine ⟨domainHalt s d n, a, b, c.sameBut, ?_⟩
    obtain ⟨y, ey⟩ : ∃ y, y = raise (abandonIn (domainHalt s d n) d) (seamClkBase m.val) (Flag.seamClk_UNLOCK.1, seamDomBit x) := ⟨_, rfl⟩
    have e : pllUnlock s m x n = endRecovery (reportFault y (if x = .mclk then .dramController m else .seamPll m)) := by
      rw [ey]
      exact if_pos h
    have e2 : reportFault y (if x = .mclk then .dramController m else .seamPll m) = if x = .mclk then fenceDram y m else fenceSeam y m := by
      split <;> rfl
    rw [exec, execPllUnlock, e, e2, ey]

theorem hubPllUnlock_gives (s : State) (n : Nat) (fclk : Bool) :
    let d := hubDomain fclk;
      ((getDom s d).locked = false → exec (.hubPllUnlock fclk n) s = .next s) ∧
      ((getDom s d).locked = true → ∃ z, DomIs d heldDomain s z ∧ RegsAs (countReset (afterReset s d) d n) z ∧ SameBut resetParts s z ∧
        exec (.hubPllUnlock fclk n) s =
          .next (logFault (raise (setTries (abandonIn z d) fclk 0) hubClkBase Flag.hubClk_UNLOCK) 1 6 0 0 0)) := by
  intro d
  refine ⟨fun h => ?_, fun h => ?_⟩
  · have e : hubPllUnlock s fclk n = s := if_neg (by rw [show (getDom s (hubDomain fclk)).locked = false from h]; decide)
    rw [exec, execHubPllUnlock, e]
  · obtain ⟨a, b, c⟩ := domainHalt_gives s d n
    refine ⟨domainHalt s d n, a, b, c.sameBut, ?_⟩
    have e : hubPllUnlock s fclk n = logFault (raise (setTries (abandonIn (domainHalt s d n) d) fclk 0) hubClkBase Flag.hubClk_UNLOCK) 1 6 0 0 0 :=
      if_pos h
    rw [exec, execHubPllUnlock, e]

end Sys2Proof.Machine
end

