-- ==== Sys2Proof/Laws/Convert.lean ====
section
/-! SUPPORT. CVT: what the operations do. -/

-- one theorem after the other: proofs side by side would need more memory than the check allows
set_option Elab.async false

namespace Sys2Proof.Machine

open Sys2Proof.Safety

theorem packNat_div (w : Nat) (l : List Nat) (k : Nat) : packNat w l / 2 ^ (w * k) % 2 ^ w = l.getD k 0 % 2 ^ w := by
  have hp := Nat.two_pow_pos w
  induction l generalizing k with
  | nil => simp [packNat]
  | cons x r ih =>
    have e : packNat w (x :: r) = x % 2 ^ w + 2 ^ w * packNat w r := rfl
    rw [e]
    cases k with
    | zero => simp
    | succ k =>
      rw [Nat.mul_succ, Nat.add_comm (w * k), Nat.pow_add, ← Nat.div_div_eq_div_mul,
        Nat.add_mul_div_left _ _ hp, Nat.div_eq_of_lt (Nat.mod_lt _ hp), Nat.zero_add, ih]
      simp

theorem bytes4 (v : Nat) : v / 256 ^ 0 % 2 ^ 8 + 256 * (v / 256 ^ 1 % 2 ^ 8 + 256 * (v / 256 ^ 2 % 2 ^ 8 +
    256 * (v / 256 ^ 3 % 2 ^ 8))) = v % 2 ^ 32 := by
  simp only [Nat.reducePow, Nat.div_one]
  omega

/-- Four of the bytes of a number. -/
theorem leAt_leBytes (n v k : Nat) (h : 4 * k + 4 ≤ n) : leAt (leBytes n v) (4 * k) 4 = v / 2 ^ (32 * k) % 2 ^ 32 := by
  have hp : ∀ j : Nat, v / 256 ^ (4 * k + j) = v / 2 ^ (32 * k) / 256 ^ j := by
    intro j
    rw [Nat.pow_add, ← Nat.div_div_eq_div_mul]
    congr 2
    rw [show (256 : Nat) = 2 ^ 8 from rfl, ← Nat.pow_mul]
    congr 1
    omega
  rw [leAt, sliceBytes, leNat_range]
  have hg : ∀ j, j < 4 → (leBytes n v).getD (4 * k + j) 0 = BitVec.ofNat 8 (v / 2 ^ (32 * k) / 256 ^ j) := by
    intro j hj
    rw [leBytes_getD _ _ _ (by omega), hp]
  have h0 := hg 0 (by omega)
  rw [hg 1 (by omega), hg 2 (by omega), hg 3 (by omega), show (leBytes n v).getD (4 * k) 0 = _ from h0]
  simp only [BitVec.toNat_ofNat]
  exact bytes4 _

theorem wordBytes_cons (w : Word) (r : List Word) : wordBytes (w :: r) = leBytes 4 w.toNat ++ wordBytes r := by
  simp [wordBytes]

theorem wordBytes_getD (ws : List Word) (k j : Nat) (hj : j < 4) (hk : k < ws.length) :
    (wordBytes ws).getD (4 * k + j) 0 = BitVec.ofNat 8 ((ws.getD k 0).toNat / 256 ^ j) := by
  induction ws generalizing k with
  | nil => simp at hk
  | cons w r ih =>
    have hl : (leBytes 4 w.toNat).length = 4 := by simp [leBytes]
    rw [wordBytes_cons]
    cases k with
    | zero =>
      have e : (leBytes 4 w.toNat ++ wordBytes r).getD (4 * 0 + j) 0 = (leBytes 4 w.toNat).getD j 0 := by
        simp [List.getD, List.getElem?_append_left (l₂ := wordBytes r) (show j < (leBytes 4 w.toNat).length by rw [hl]; exact hj)]
      rw [e, leBytes_getD _ _ _ hj]
      simp
    | succ k =>
      have e : (leBytes 4 w.toNat ++ wordBytes r).getD (4 * (k + 1) + j) 0 = (wordBytes r).getD (4 * k + j) 0 := by
        simp only [List.getD]
        rw [List.getElem?_append_right (by rw [hl]; omega), hl]
        congr 2
        omega
      rw [e, ih k (by simpa using hk)]
      simp

theorem leAt_wordBytes (ws : List Word) (k : Nat) (hk : k < ws.length) :
    leAt (wordBytes ws) (4 * k) 4 = (ws.getD k 0).toNat := by
  have h0 := wordBytes_getD ws k 0 (by omega) hk
  rw [leAt, sliceBytes, leNat_range, wordBytes_getD _ _ _ (by omega) hk, wordBytes_getD _ _ _ (by omega) hk,
    wordBytes_getD _ _ _ (by omega) hk, show (wordBytes ws).getD (4 * k) 0 = _ from h0]
  simp only [BitVec.toNat_ofNat]
  rw [bytes4, Nat.mod_eq_of_lt (ws.getD k 0).isLt]

/-- Element `k` of a register of 32-bit elements is its lane. -/
theorem regElem_lane {f : Nat} (hf : elemWidth f = 32) (s : State) (u : SlotId) (v : VReg) {k : Nat} (hk : k < 64) :
    regElem f (getLanes s u v) k = (lane s u v k).toNat := by
  have h1 : k * 32 / 8 = 4 * k := by omega
  have h2 : k * 32 % 8 = 0 := by omega
  simp only [regElem, payloadBits, hf, h1, h2, Nat.zero_add]
  have e : (32 + 7) / 8 = 4 := by decide
  rw [e, leAt_wordBytes _ _ (by simpa using hk)]
  have := (lane s u v k).isLt
  simp only [lane] at this ⊢
  omega

/-- The lanes that a CVT into a 32-bit scalar format leaves. -/
theorem cvtLanes_getD {f : Nat} (hf : elemWidth f = 32) (mods : CvtMod) (vals : List FVal) (s : State) (u : SlotId) (v : VReg)
    (cover : CvtCover) (k : Nat) (hk : k < 64) : (cvtLanes f mods vals (getLanes s u v) cover).1.getD k 0 =
      if cover.padded.contains k then 0 else if cover.dead.contains k then lane s u v k
      else BitVec.ofNat 32 (cvtScalar f mods (vals.getD k .nan)).1 := by
  simp only [cvtLanes, hf]
  have hd : (wordBytes (getLanes s u v)).drop (64 * 32 / 8) = [] := by
    exact List.drop_eq_nil_of_le (by simp [wordBytes_length, getLanes_length])
  rw [hd, List.append_nil]
  have hl : ∀ n v, (leBytes n v).length = n := fun n v => by simp [leBytes]
  simp only [leWords, List.getD, hl]
  rw [List.getElem?_map, List.getElem?_range (by omega)]
  simp only [Option.map_some, Option.getD_some]
  rw [leAt_leBytes _ _ _ (by omega), packNat_div]
  simp only [List.getD, List.getElem?_map, List.getElem?_range hk, Option.map_some, Option.getD_some]
  apply BitVec.eq_of_toNat_eq
  rw [BitVec.toNat_ofNat, Nat.mod_mod]
  split
  · rfl
  · split
    · show _ % 2 ^ 32 = _
      rw [regElem_lane hf s u v hk]
      have := (lane s u v k).isLt
      omega
    · rw [BitVec.toNat_ofNat]

theorem cvtLanes_length {f : Nat} (hf : elemWidth f = 32) (mods : CvtMod) (vals : List FVal) (s : State) (u : SlotId)
    (v : VReg) (cover : CvtCover) : (cvtLanes f mods vals (getLanes s u v) cover).1.length = 64 := by
  simp only [cvtLanes, hf, leWords_length, List.length_append]
  have hd : (wordBytes (getLanes s u v)).drop (64 * 32 / 8) = [] := by
    exact List.drop_eq_nil_of_le (by simp [wordBytes_length, getLanes_length])
  rw [hd]
  simp [leBytes]

/-- The registers of the conversions' counts. -/
theorem cvtCountRegs_kept (s : State) (c : CoreId) (n : CvtCounts) :
    (∀ a, a ∉ cvtRegs c → rawReg (cvtCountRegs s c n) a = rawReg s a) ∧ SameBut [.regs] s (cvtCountRegs s c n) := by
  unfold cvtCountRegs
  split
  · exact ⟨fun _ _ => rfl, sameBut_refl _ _⟩
  · refine ⟨fun a ha => ?_, by simp, fun p => by cases p <;> simp [Part.same]⟩
    simp only [cvtRegs, List.mem_cons, List.not_mem_nil, or_false, not_or] at ha
    obtain ⟨_, _, h1, h2, h3, h4, h5, h6, h7⟩ := ha
    rw [rawReg_raise_other _ h7, rawReg_count_other _ h6, rawReg_count_other _ h5, rawReg_count_other _ h4,
      rawReg_count_other _ h3, rawReg_count_other _ h2, rawReg_count_other _ h1]

theorem cvtCountCore_kept (s : State) (u : SlotId) (c : CvtCounts) :
    (∀ v, v ≠ u → getSlot (cvtCountCore s u c) v = getSlot s v) ∧
    { getSlot (cvtCountCore s u c) u with counts := [] } = { getSlot s u with counts := [] } ∧
    (∀ d, { getCore (cvtCountCore s u c) d with slots := [] } = { getCore s d with slots := [] }) ∧
    (∀ a, a ∉ cvtRegs u.core → rawReg (cvtCountCore s u c) a = rawReg s a) ∧
    SameBut [.regs, .cores] s (cvtCountCore s u c) := by
  unfold cvtCountCore
  split
  · exact ⟨fun _ _ => rfl, rfl, fun _ => rfl, fun _ _ => rfl, sameBut_refl _ _⟩
  · obtain ⟨k1, k2⟩ := cvtCountRegs_kept s u.core c
    have hc : (cvtCountRegs s u.core c).cores = s.cores := by simpa [Part.same] using k2.2 .cores
    refine ⟨fun v hv => ?_, ?_, fun d => ?_, fun a ha => ?_, ?_⟩
    · rw [getSlot_setSlot_other _ _ hv, getSlot_congr hc]
    · rw [getSlot_setSlot_self, getSlot_congr hc]
    · rw [getCore_setSlot, getCore_congr hc]
    · rw [rawReg_congr (setSlot_regs ..), k1 a ha]
    · have k3 : SameBut [.cores] (cvtCountRegs s u.core c) (setSlot (cvtCountRegs s u.core c) u
          { getSlot (cvtCountRegs s u.core c) u with counts := cvtTable c (getSlot (cvtCountRegs s u.core c) u).counts }) :=
        ⟨rfl, fun p => by cases p <;> simp [Part.same]⟩
      exact sameBut_trans (sameBut_mono k2 (by simp : ∀ p ∈ [Part.regs], p ∈ [Part.regs, .cores])) (sameBut_mono k3 (by simp))
        (fun _ hp => hp)

theorem cvtCountCore_vregs (s : State) (u : SlotId) (c : CvtCounts) (v : VReg) :
    getLanes (cvtCountCore s u c) u v = getLanes s u v := by
  apply getLanes_congr
  have h := (cvtCountCore_kept s u c).2.1
  simp only [TaskSlot.mk.injEq] at h
  simp [h]

/-- A CVT between vector registers of 32-bit formats. -/
theorem cvt_gives {src f : Nat} (hs : elemWidth src = 32) (hf : elemWidth f = 32) (s : State) (u : SlotId) (v dst : VReg)
    (mods : CvtMod) (cover : CvtCover) (P : Nat → Word → Prop) (w : VeWorks s u)
    (h : ∀ k, k < 64 → P k (BitVec.ofNat 32 (cvtScalar f mods (elemVal src (lane s u v k).toNat)).1)) :
    CvtGives u v dst src f mods cover P s := by
  let vals := (List.range 64).map fun i => elemVal src (regElem src (getLanes s u v) i)
  let r := cvtLanes f mods vals (getLanes s u dst) cover
  have hw : VeWrote u dst 1 (fun i => r.1.getD i 0) s (veResult s u dst r.1 1) :=
    veResult_wrote s u dst (cvtLanes_length hf ..) 1
  obtain ⟨k1, k2, k3, k4, k5⟩ := cvtCountCore_kept (veResult s u dst r.1 1) u r.2
  refine ⟨cvtCountCore (veResult s u dst r.1 1) u r.2, ?_, fun k hk => ?_, fun w hw' => ?_, ?_⟩
  · show execVeCvt .. = _
    rw [execVeCvt, onWindow_next w (by simp [accessAllowed, cvtRanges])]
    rfl
  · have e : lane (cvtCountCore (veResult s u dst r.1 1) u r.2) u dst k =
        if cover.padded.contains k then 0 else if cover.dead.contains k then lane s u dst k
        else BitVec.ofNat 32 (cvtScalar f mods (elemVal src (lane s u v k).toNat)).1 := by
      rw [lane, cvtCountCore_vregs]
      refine (hw.set.lanes k hk).trans ?_
      rw [cvtLanes_getD hf _ _ _ _ _ _ _ hk]
      simp [vals, hk, regElem_lane hs]
    rw [e]
    by_cases hp : k ∈ cover.padded
    · simp [hp]
    · by_cases hc : k ∈ cover.dead
      · simp [hp, hc]
      · simpa [hp, hc] using h k hk
  · rw [cvtCountCore_vregs, hw.set.others w hw']
  · refine ⟨fun w h1 => (k1 w h1).trans (hw.cores.others w h1), ?_, fun c => noPoison_congr ((k3 c).trans (hw.cores.cores c)),
      fun a => ?_, sameBut_trans hw.rest k5 (by simp)⟩
    · have h1 := hw.cores.rest
      simp only [TaskSlot.mk.injEq] at k2 h1 ⊢
      simp [k2, h1]
    · by_cases ha : a ∈ cvtRegs u.core
      · exact .inl ha
      · refine .inr ((k4 a ha).trans ((hw.regs a).resolve_left fun hx => ha ?_))
        simp only [veRegs, List.mem_cons, List.not_mem_nil, or_false] at hx
        rcases hx with rfl | rfl <;> simp [cvtRegs]

/-! ## The magnitude of a code is that code -/

theorem log2_normal {m : Nat} (h1 : 2 ^ 23 ≤ m) (h2 : m < 2 ^ 24) : Nat.log2 m = 23 := by
  rw [Nat.log2_eq_iff (by omega)]
  exact ⟨h1, h2⟩

/-- Rounding the magnitude of a finite FP32 code gives the code. -/
theorem roundCode_codeMag (rnd : Rounding) (neg : Bool) (c : Nat) (h : c ≤ maxCode fp32) :
    roundCode fp32 rnd neg (codeMag fp32 c).1 (codeMag fp32 c).2 false = c := by
  have hm : maxCode fp32 = 0x7F7FFFFF := by decide
  rw [hm] at h
  have hl : lsbExp fp32 = -149 := by decide
  have hb : fp32.fbits = 23 := rfl
  have hbias : fp32.bias = 127 := rfl
  have hstep : ∀ (m : Nat) (e : Int), roundStep rnd neg m e false e = m := by
    intro m e
    simp only [roundStep, Int.sub_self, pow2, Int.toNat_zero, Nat.pow_zero, Nat.mul_one, Nat.div_one, Nat.mod_one]
    cases rnd <;> simp
  simp only [codeMag, hb, hl]
  split
  · rename_i h0
    have hc : c % 2 ^ 23 = c := Nat.mod_eq_of_lt (by omega)
    simp only [hc, roundCode]
    split
    · omega
    · rename_i hz
      have hlog : Nat.log2 c < 23 := (Nat.log2_lt hz).mpr (by omega)
      have hq : stepOf fp32 c (-149) = -149 := by
        simp only [stepOf, hl, magOf, hb]
        omega
      rw [hq, hstep, encodeMag, if_neg hz, if_pos (by simp only [magOf, hbias]; omega), hl]
      simp [pow2]
  · rename_i h0
    have hfr : c % 2 ^ 23 < 2 ^ 23 := Nat.mod_lt _ (by decide)
    have hlog : Nat.log2 (2 ^ 23 + c % 2 ^ 23) = 23 := log2_normal (by omega) (by omega)
    have hz : 2 ^ 23 + c % 2 ^ 23 ≠ 0 := by omega
    have hex : 1 ≤ c / 2 ^ 23 := by omega
    have hq : stepOf fp32 (2 ^ 23 + c % 2 ^ 23) (-149 + ((c / 2 ^ 23 : Nat) - 1 : Int)) = -149 + ((c / 2 ^ 23 : Nat) - 1 : Int) := by
      simp only [stepOf, hl, magOf, hb, hlog]
      omega
    rw [roundCode, if_neg hz]
    simp only [hq, hstep]
    rw [encodeMag, if_neg hz, if_neg (by simp only [magOf, hbias, hlog]; omega)]
    simp only [magOf, hlog, hb, hbias, pow2]
    simp
    have e : (23 + (-149 + ((c : Int) / 8388608 - 1)) + 127).toNat = c / 8388608 := by omega
    rw [e]
    omega

theorem decode_encode_fp32 (mods : CvtMod) (w : Word) :
    BitVec.ofNat 32 (cvtScalar 0x01 mods (elemVal 0x01 w.toNat)).1 =
      if decodeF fp32 w.toNat = .nan then 0x7FC00000 else w := by
  have h1 : elemVal 0x01 w.toNat = decodeF fp32 w.toNat := rfl
  have h2 : ∀ v, cvtScalar 0x01 mods v = cvtToFloat fp32 mods v := fun v => rfl
  have hb : 2 ^ (fp32.ebits + fp32.fbits) = 2 ^ 31 := rfl
  have hlt := w.isLt
  have hsign : ∀ b c, b = (w.toNat / 2 ^ 31 % 2 == 1) → c = w.toNat % 2 ^ 31 → withSign fp32 b c = w.toNat := by
    intro b c hb' hc
    subst hb' hc
    simp only [withSign, hb]
    by_cases hx : w.toNat / 2 ^ 31 % 2 = 1
    · simp only [hx, beq_self_eq_true, if_true]; omega
    · simp only [beq_iff_eq, hx, if_false]; omega
  rw [h1, h2]
  simp only [decodeF, hb]
  split
  · rename_i h
    rw [if_neg (by simp)]
    simp only [cvtToFloat, roundCode_codeMag _ _ _ h, if_pos h]
    rw [hsign _ _ rfl rfl]
    exact BitVec.eq_of_toNat_eq (by simp)
  · split
    · rename_i h
      rw [if_neg (by simp)]
      simp only [cvtToFloat]
      simp only [Bool.and_eq_true, beq_iff_eq] at h
      rw [hsign _ _ rfl h.2.symm]
      exact BitVec.eq_of_toNat_eq (by simp)
    · simp [cvtToFloat]
      rfl

theorem int32_exact (mods : CvtMod) (w : Word) : BitVec.ofNat 32 (cvtScalar 0x05 mods (elemVal 0x05 w.toNat)).1 = w := by
  have h1 : elemVal 0x05 w.toNat = fvalOfInt (signedOf 32 w.toNat) 0 := rfl
  have h2 : ∀ v, cvtScalar 0x05 mods v = cvtToInt 32 mods v := fun v => rfl
  have hlt := w.isLt
  have hi : signedOf 32 w.toNat = if w.toNat < 2 ^ 31 then (w.toNat : Int) else w.toNat - 2 ^ 32 := by
    simp only [signedOf]
    rw [Nat.mod_eq_of_lt hlt]
    rfl
  have hstep : ∀ (rnd : Rounding) (n : Bool) (m : Nat), roundStep rnd n m 0 false 0 = m := by
    intro rnd n m
    simp only [roundStep, Int.sub_self, pow2, Int.toNat_zero, Nat.pow_zero, Nat.mul_one, Nat.div_one, Nat.mod_one]
    cases rnd <;> simp
  rw [h1, h2]
  simp only [fvalOfInt, cvtToInt, roundInt, hstep]
  have hr : (if decide (signedOf 32 w.toNat < 0) = true then -((signedOf 32 w.toNat).natAbs : Int)
      else ((signedOf 32 w.toNat).natAbs : Int)) = signedOf 32 w.toNat := by
    split <;> rename_i h <;> simp only [decide_eq_true_eq] at h <;> omega
  rw [hr]
  have hb : -2 ^ 31 ≤ signedOf 32 w.toNat ∧ signedOf 32 w.toNat ≤ 2 ^ 31 - 1 := by
    rw [hi]
    split <;> constructor <;> omega
  have hmin : intMin 32 = -2 ^ 31 := by decide
  have hmax : intMax 32 = 2 ^ 31 - 1 := by decide
  rw [hmin, hmax, if_neg (by omega), if_neg (by omega)]
  apply BitVec.eq_of_toNat_eq
  rw [BitVec.toNat_ofNat, unsignedOf, hi]
  split <;> simp <;> omega

end Sys2Proof.Machine
end

