-- ==== Sys2Proof/Laws/Management.lean ====
section
/-! SUPPORT. The management queue: what the operations do. -/

-- one theorem after the other: proofs side by side would need more memory than the check allows
set_option Elab.async false

namespace Sys2Proof.Machine

open Sys2Proof.Safety

theorem settle_held {s : State} (h : s.port.held.isSome = true) : settleQueue s = s := by
  unfold settleQueue
  rw [if_pos h]

theorem answerUnknown_known {q : List MgmtFrame} (h : FrontKnown q) (s : State) : answerUnknown q s = (q, s) := by
  cases q with
  | nil => rfl
  | cons r rest => rw [answerUnknown, if_pos (h r rfl)]

theorem settle_known {s : State} (h : FrontKnown s.port.mgmtQueue) : settleQueue s = s := by
  unfold settleQueue
  split
  · rfl
  · dsimp only
    rw [answerUnknown_known h]

theorem takeMgmt_front {r : MgmtFrame} {op : Nat} {s : State} (h : AtFront r op s) (ho : knownOp op = true) (f : State → State) :
    takeMgmt s r f = settleQueue (f (dequeue s)) := by
  unfold takeMgmt
  rw [settle_known (s := s) (fun x e => by rw [h.front] at e; cases e; rw [h.op]; exact ho)]
  dsimp only
  rw [if_pos h.front, if_neg (by rw [h.free]; simp)]
  rfl

theorem ofOp_front {r : MgmtFrame} {op : Nat} {s : State} (h : AtFront r op s) (ho : knownOp op = true) (f : State → State) :
    ofOp op s r f = settleQueue (f (dequeue s)) := by
  rw [ofOp, if_pos h.op, takeMgmt_front h ho]

/-- A request at the front executed, where what it does leaves the rest of the queue to stand. -/
theorem ofOp_done {r : MgmtFrame} {op : Nat} {s : State} (h : AtFront r op s) (ho : knownOp op = true) {f : State → State} {t : State}
    (e : f (dequeue s) = t) (q : t.port.mgmtQueue = s.port.mgmtQueue.tail) : ofOp op s r f = t := by
  rw [ofOp_front h ho, e]
  exact settle_known (by rw [q]; exact h.next)

theorem mgmtAnswer_dequeue (s : State) (r : MgmtFrame) (st : Nat) (b : List Byte) :
    mgmtAnswer (dequeue s) r st b = mgmtAnswer s r st b := rfl

theorem answerMgmt_port (s : State) (r : MgmtFrame) (st : Nat) (b : List Byte) :
    (answerMgmt s r st b).port = { s.port with txQueue := s.port.txQueue ++ [mgmtAnswer s r st b] } := by
  unfold answerMgmt
  dsimp only
  split <;> rfl

theorem rawReg_port_other {s : State} {a : Nat} (h : a ≠ portBase + Ctr.PORT_RX_FRAME_CNT) :
    rawReg (portCount s Ctr.PORT_RX_FRAME_CNT) a = rawReg s a :=
  rawReg_count_other s h

theorem rxCounted (s : State) : Counted (portBase + Ctr.PORT_RX_FRAME_CNT) 1 s (portCount s Ctr.PORT_RX_FRAME_CNT) ∧
    RegsBut [portBase + Ctr.PORT_RX_FRAME_CNT] s (portCount s Ctr.PORT_RX_FRAME_CNT) ∧
    SameBut [.regs] s (portCount s Ctr.PORT_RX_FRAME_CNT) :=
  ⟨rawReg_count_self .., fun a => (Classical.em (a = portBase + Ctr.PORT_RX_FRAME_CNT)).imp (fun h => List.mem_singleton.mpr h) (fun h => rawReg_count_other s h), (portCount_keeps (.refl s) _ (Can.all _)).sameBut⟩

theorem enqueue_plain {s : State} {r : MgmtFrame} (h : r.header.op.toNat ≠ 18) (hw : mgmtWaiting s < 64) :
    enqueueMgmt s r = withQueue s (s.port.mgmtQueue ++ [r]) := by
  unfold enqueueMgmt
  dsimp only
  rw [if_neg (by simpa [opAbort] using h), if_neg (by omega)]
  rfl

theorem enqueue_abort {s : State} {r : MgmtFrame} (h : r.header.op.toNat = 18) :
    enqueueMgmt s r = withQueue s (s.port.mgmtQueue.takeWhile (fun x => x.header.op.toNat == 18) ++ r ::
      s.port.mgmtQueue.dropWhile (fun x => x.header.op.toNat == 18)) := by
  unfold enqueueMgmt
  dsimp only
  rw [if_pos (by rw [h]; rfl)]
  simp only [List.append_assoc, List.singleton_append]
  rfl

theorem enqueue_full {s : State} {r : MgmtFrame} (h : r.header.op.toNat ≠ 18) (hw : 64 ≤ mgmtWaiting s) :
    enqueueMgmt s r = raise (portCount s Ctr.PORT_MG_DROP_CNT) portBase Flag.port_MG_DROP := by
  unfold enqueueMgmt
  dsimp only
  rw [if_neg (by simpa [opAbort] using h), if_pos hw]

theorem mgmtWaiting_eq (s : State) : mgmtWaiting s = s.port.mgmtQueue.length + (if s.port.held = none then 0 else 1) := by
  unfold mgmtWaiting
  cases s.port.held <;> rfl

theorem op_toNat {r : MgmtFrame} : r.header.op = 18 ↔ r.header.op.toNat = 18 :=
  ⟨fun h => by rw [h]; rfl, fun h => BitVec.eq_of_toNat_eq h⟩

theorem inMgmt_bad {r : MgmtFrame} {f : MgmtSession → State} {s : State} (h : requestOk r.header = false) :
    inMgmt s r f = answerMgmt s r stBadRequest [] := by
  rw [inMgmt, if_pos (by rw [h]; rfl)]

theorem inMgmt_none {r : MgmtFrame} {f : MgmtSession → State} {s : State} (h : requestOk r.header = true)
    (hm : getMgmt s r.header.session.toNat = none) : inMgmt s r f = answerMgmt s r stNoSession [] := by
  rw [inMgmt, if_neg (by rw [h]; decide), hm]

theorem inMgmt_token {r : MgmtFrame} {f : MgmtSession → State} {s : State} {x : MgmtSession} (h : requestOk r.header = true)
    (hm : getMgmt s r.header.session.toNat = some x) (ht : x.token ≠ r.header.token) :
    inMgmt s r f = answerMgmt s r stAuth [] := by
  rw [inMgmt, if_neg (by rw [h]; decide), hm]
  dsimp only
  rw [if_pos ht]

theorem inMgmt_again {r : MgmtFrame} {f : MgmtSession → State} {s : State} {x : MgmtSession} {a : TxFrame}
    (h : requestOk r.header = true) (hm : getMgmt s r.header.session.toNat = some x) (ht : x.token = r.header.token)
    (hl : x.lastReq = some r.header.reqId) (ha : x.lastAnswer = some a) : inMgmt s r f = pushTx s a := by
  rw [inMgmt, if_neg (by rw [h]; decide), hm]
  dsimp only
  rw [if_neg (by rw [ht]; simp), if_pos hl, ha]

theorem inMgmt_go {r : MgmtFrame} {f : MgmtSession → State} {s : State} {x : MgmtSession} (h : requestOk r.header = true)
    (hm : getMgmt s r.header.session.toNat = some x) (ht : x.token = r.header.token) (hl : x.lastReq ≠ some r.header.reqId) :
    inMgmt s r f = f x := by
  rw [inMgmt, if_neg (by rw [h]; decide), hm]
  dsimp only
  rw [if_neg (by rw [ht]; simp), if_neg hl]

/-- What a BAD_REQUEST does to the counters. -/
theorem badAnswer {s : State} {r : MgmtFrame} {b : List Byte} {t : State} (e : t = answerMgmt s r stBadRequest b) :
    Counted Ctr.MG_BADREQ_CNT 1 s t ∧ BitSet Flag.ident_BAD_REQUEST.1 Flag.ident_BAD_REQUEST.2 t ∧
    RegsBut [Ctr.MG_BADREQ_CNT, Flag.ident_BAD_REQUEST.1] s t := by
  subst e
  have e : answerMgmt s r stBadRequest b = raise (count (pushTx s (mgmtAnswer s r stBadRequest b)) 0 Ctr.MG_BADREQ_CNT 1) 0
    Flag.ident_BAD_REQUEST := by
    unfold answerMgmt
    rw [if_pos rfl]
  rw [e]
  have hp : ∀ a, rawReg (pushTx s (mgmtAnswer s r stBadRequest b)) a = rawReg s a := fun a => rfl
  generalize pushTx s (mgmtAnswer s r stBadRequest b) = z at hp
  refine ⟨?_, ?_, fun a => ?_⟩
  · unfold Counted
    rw [← hp, rawReg_raise_other _ (by decide)]
    exact rawReg_count_self z 0 Ctr.MG_BADREQ_CNT 1
  · exact bitSet_raise _ 0 Flag.ident_BAD_REQUEST (by decide)
  · by_cases h1 : a = 0 + Ctr.MG_BADREQ_CNT
    · exact .inl (by simp [h1])
    by_cases h2 : a = 0 + Flag.ident_BAD_REQUEST.1
    · exact .inl (by simp [h2])
    exact .inr (by rw [rawReg_raise_other _ h2, rawReg_count_other z h1, hp])

theorem dequeue_regs (s : State) (a : Nat) : rawReg (dequeue s) a = rawReg s a := rfl

theorem withQueue_keeps {P : Part → Prop} {z s : State} (h : Keeps P z s) (q : List MgmtFrame) (can : Can [.mgmt] P) :
    Keeps P z (withQueue s q) := by
  unfold withQueue
  exact Keeps.upd h rfl rfl rfl

/-- A row of R305 is its operation executed. -/
theorem rows_ofOp {r : MgmtFrame} {sig : SigVerdict} {c : Nat × Instr} (h : c ∈ mgmtRows r sig) :
    knownOp c.1 = true ∧ ∃ f : State → State, (∀ s, exec c.2 s = .next (ofOp c.1 s r f)) := by
  simp only [mgmtRows, List.mem_cons, List.not_mem_nil, or_false] at h
  rcases h with h | h | h | h | h | h <;> subst h <;> exact ⟨rfl, _, fun s => rfl⟩

theorem rows_session {r : MgmtFrame} {sig : SigVerdict} {c : Nat × Instr} (h : c ∈ (mgmtRows r sig).drop 2) :
    knownOp c.1 = true ∧ ∃ f : MgmtSession → State → State, ∀ s, exec c.2 s = .next (ofOp c.1 s r (fun s => inMgmt s r (fun x => f x s))) := by
  simp only [mgmtRows, List.drop, List.mem_cons, List.not_mem_nil, or_false] at h
  rcases h with h | h | h | h <;> subst h <;> exact ⟨rfl, _, fun s => rfl⟩

theorem answersOnly_of {r : MgmtFrame} {op : Nat} {s : State} {c : Instr} {f : State → State} {st : Nat} (h : AtFront r op s)
    (ho : knownOp op = true) (hc : exec c s = .next (ofOp op s r f)) (hs : st ≠ stBadRequest)
    (e : f (dequeue s) = answerMgmt (dequeue s) r st []) : AnswersOnly c r st s := by
  have ea : answerMgmt (dequeue s) r st [] = pushTx (dequeue s) (mgmtAnswer s r st []) := by
    unfold answerMgmt
    rw [if_neg hs]
    rfl
  have hd := ofOp_done (t := pushTx (dequeue s) (mgmtAnswer s r st [])) h ho (e.trans ea) rfl
  refine ⟨_, by rw [hc, hd], ?_, rfl⟩
  have can := Can.all [.txQueue, .mgmt]
  exact (pushTx_keeps (withQueue_keeps (.refl s) _ (can.sub (by decide))) _).sameBut

theorem receive_arrives {s : State} {f : RxFrame} {k : Bool} (h : Arrives s f) (hk : k = udpTo s f s.pwr.config.mgmtPort) :
    receiveFrame s f k = (portCount (frameEnds s f) Ctr.PORT_RX_FRAME_CNT, true) := by
  rw [hk, h.kept]
  simp [receiveFrame, h.live, h.size, fcsGood, h.fcs, h.fec]

theorem receive_mgmt {s : State} {r : MgmtFrame} (h : Arrives s r.frame) : mgmtFrameReceive s r =
    settleQueue (enqueueMgmt (portCount (frameEnds s r.frame) Ctr.PORT_RX_FRAME_CNT) r) := by
  unfold mgmtFrameReceive
  rw [receive_arrives (k := mgmtKept s r.frame) h rfl]

end Sys2Proof.Machine
end

