-- ==== Sys2Proof/Laws/Sessions.lean ====
section
/-! SUPPORT. Management requests: what the operations do. -/

-- one theorem after the other: proofs side by side would need more memory than the check allows
set_option Elab.async false

namespace Sys2Proof.Machine

open Sys2Proof.Safety

theorem finishMgmt_some {s : State} {r : MgmtFrame} {st : Nat} {b : List Byte} {x : MgmtSession}
    (h : getMgmt s r.header.session.toNat = some x) : finishMgmt s r st b =
    setMgmt (answerMgmt s r st b) r.header.session.toNat (some { x with lastReq := some r.header.reqId, lastAnswer := some (mgmtAnswer s r st b) }) := by
  have e : getMgmt (answerMgmt s r st b) r.header.session.toNat = some x := by
    unfold getMgmt
    rw [answerMgmt_port]
    exact h
  unfold finishMgmt
  dsimp only
  rw [e]

theorem finishMgmt_none {s : State} {r : MgmtFrame} {st : Nat} {b : List Byte}
    (h : getMgmt s r.header.session.toNat = none) : finishMgmt s r st b = answerMgmt s r st b := by
  have e : getMgmt (answerMgmt s r st b) r.header.session.toNat = none := by
    unfold getMgmt
    rw [answerMgmt_port]
    exact h
  unfold finishMgmt
  dsimp only
  rw [e]

theorem answerMgmt_good {s : State} {r : MgmtFrame} {st : Nat} {b : List Byte} (h : st ≠ 5) :
    answerMgmt s r st b = pushTx s (mgmtAnswer s r st b) := by
  unfold answerMgmt
  exact if_neg h

/-- What a finished request leaves. -/
theorem finish_gives (z : State) (r : MgmtFrame) (st : Nat) (b : List Byte) : Finished r st b z (finishMgmt z r st b) := by
  have k : SameBut [.regs, .txQueue, .mgmt] z (finishMgmt z r st b) := by
    have can := Can.all [.regs, .txQueue, .mgmt]
    exact (finishMgmt_keeps (.refl z) r st b).sameBut
  have hr : (finishMgmt z r st b).regs = (answerMgmt z r st b).regs := by
    cases h : getMgmt z r.header.session.toNat with
    | some x => rw [finishMgmt_some h]; rfl
    | none => rw [finishMgmt_none h]
  refine ⟨?_, fun h => ?_, fun h => ?_, k⟩
  · cases h : getMgmt z r.header.session.toNat with
    | some x =>
      rw [finishMgmt_some h]
      unfold setMgmt
      dsimp only
      rw [answerMgmt_port]
    | none =>
      rw [finishMgmt_none h]
      exact answerMgmt_port ..
  · rw [hr, answerMgmt_good h]
    rfl
  · subst h
    obtain ⟨h1, h2, h3⟩ := badAnswer (t := answerMgmt z r 5 b) rfl
    have e : ∀ a, rawReg (finishMgmt z r 5 b) a = rawReg (answerMgmt z r 5 b) a := fun a => by
      unfold rawReg; rw [hr]
    refine ⟨?_, ?_, fun a => ?_⟩
    · unfold Counted at *; rw [e]; exact h1
    · unfold BitSet at *; rw [e]; exact h2
    · rw [e]; exact h3 a

theorem finish_queue (z : State) (r : MgmtFrame) (st : Nat) (b : List Byte) :
    (finishMgmt z r st b).port.mgmtQueue = z.port.mgmtQueue := by
  rw [(finish_gives z r st b).port]

theorem addNonce_eq (l : List (BitVec 128 × Time)) (n : BitVec 128) (t : Time) :
    addNonce l n t = l.drop (l.length - 15) ++ [(n, t)] := by
  unfold addNonce
  split
  · rfl
  · rw [show l.length - 15 = 0 by omega]
    rfl

theorem badRequest_of {r : MgmtFrame} {op : Nat} {s : State} {c : Instr} {f : State → State} (h : AtFront r op s)
    (ho : knownOp op = true) (hc : exec c s = .next (ofOp op s r f))
    (e : f (dequeue s) = answerMgmt (dequeue s) r stBadRequest []) : BadRequest c r s := by
  obtain ⟨t, et⟩ : ∃ t, t = answerMgmt (dequeue s) r stBadRequest [] := ⟨_, rfl⟩
  have hp : t.port = { (dequeue s).port with txQueue := s.port.txQueue ++ [mgmtAnswer s r 5 []] } := by
    rw [et]; exact answerMgmt_port ..
  have hd := ofOp_done (t := t) h ho (e.trans et.symm) (by rw [hp]; rfl)
  obtain ⟨b1, b2, b3⟩ := badAnswer et
  refine ⟨t, by rw [hc, hd], b1, b2, b3, ?_, hp⟩
  have can := Can.all [.regs, .txQueue, .mgmt]
  rw [et]
  exact (answerMgmt_keeps (withQueue_keeps (.refl s) _ (can.sub (by decide))) ..).sameBut

theorem beq_list_nil {α : Type} (l : List α) : l.isEmpty = true ↔ l = [] := by
  cases l <;> simp

theorem mayOpen_iff {s : State} {f : RxFrame} {q : OpenReq} {sig : SigVerdict} (h : q.kind ≤ 3) :
    openAllowed s f q sig = true ↔ MayOpen s f q sig := by
  unfold openAllowed MayOpen OwnerSigned
  obtain h | h | h | h : q.kind = 0 ∨ q.kind = 1 ∨ q.kind = 2 ∨ q.kind = 3 := by omega
  all_goals rw [h]
  · cases s.pwr.ownerLost <;> simp
    · cases enrolled s <;> simp [and_assoc]
  · simp [and_assoc, and_left_comm]
  · cases chuteOpener s f q with
    | none => simp
    | some p => obtain ⟨a, b⟩ := p; simp
  · simp

theorem chuteOpener_gives {s : State} {f : RxFrame} {q : OpenReq} {slot m : Nat} (h : chuteOpener s f q = some (slot, m)) :
    ∃ x g d, (slot, x) ∈ s.dep.graphs ∧ x.live = some g ∧ sliceBytes (Config.sha512 x.raw) 0 64 = q.digest ∧
      g.edges[q.edge]? = some d ∧ d.kind = 1 ∧ m ∈ modulesOf g d.producer ∧ moduleIp s m s.pwr.config.side = f.srcIp := by
  unfold chuteOpener at h
  obtain ⟨e, he, h⟩ := List.exists_of_findSome?_eq_some h
  split at h
  · cases h
  · rename_i g hg
    split at h
    · rename_i hd
      split at h
      · rename_i d hx
        split at h
        · rename_i hk
          obtain ⟨k, hk1, hk2⟩ := Option.map_eq_some_iff.1 h
          cases hk2
          refine ⟨e.2, g, d, he, hg, hd, hx, hk, List.mem_of_find?_eq_some hk1, ?_⟩
          have := List.find?_some hk1
          simpa using this
        · cases h
      · cases h
    · cases h

theorem opening_eq (s : State) (q : OpenReq) : opening s q = closeMirror (useNonce (dequeue s) q.nonce) q := rfl

theorem openRun_ok {s : State} {r : MgmtFrame} {sig : SigVerdict} {q : OpenReq} (hp : parseOpen r.body = some q)
    (ho : openingOk r.header = true) (hk : q.kind ≤ 3) : openRun r sig (dequeue s) =
    if !nonceFresh s q.nonce || !openAllowed s r.frame q sig then answerMgmt (useNonce (dequeue s) q.nonce) r stAuth []
    else if !openFieldsOk q then answerMgmt (useNonce (dequeue s) q.nonce) r stBadRequest []
    else
      match openIndex (opening s q) q with
      | none => answerMgmt (opening s q) r stBusy []
      | some i =>
        let token := BitVec.ofNat 32 (Config.choice (opening s q).freeCount)
        answerMgmt (openSessionAt { opening s q with freeCount := (opening s q).freeCount + 1 } r.frame q
          (q.signed && sig.ed && sig.mldsa && enrolled (opening s q)) i token) r stOk (openAnswer q i token) := by
  unfold openRun
  rw [hp]
  dsimp only
  rw [if_neg (by rw [ho]; simp; omega)]
  rfl

theorem opening_keeps (s : State) (q : OpenReq) : Keeps (· ∈ [.sessions, .nonces, .mgmt, .chutes]) s (opening s q) := by
  have can := Can.all [.sessions, .nonces, .mgmt, .chutes]
  rw [opening_eq]
  exact closeMirror_keeps (useNonce_keeps (withQueue_keeps (.refl s) _ (can.sub (by decide))) _) _

theorem opening_other {s : State} {q : OpenReq} (h : q.kind ≠ 3) : opening s q = useNonce (dequeue s) q.nonce := by
  rw [opening_eq]
  unfold closeMirror
  split
  · exact if_neg h
  · rfl

theorem opening_port (s : State) (q : OpenReq) : (opening s q).port.mgmtQueue = s.port.mgmtQueue.tail ∧
    (opening s q).port.txQueue = s.port.txQueue := by
  rw [opening_eq]
  unfold closeMirror
  split
  · split <;> exact ⟨rfl, rfl⟩
  · exact ⟨rfl, rfl⟩

/-- The answer to a request is the same in every state with the same configuration and time. -/
theorem mgmtAnswer_same {z t : State} (hc : t.pwr.config = z.pwr.config) (hn : t.clk.now = z.clk.now) (r : MgmtFrame) (st : Nat)
    (b : List Byte) : mgmtAnswer t r st b = mgmtAnswer z r st b := by
  unfold mgmtAnswer answerMac
  rw [hc, hn]

theorem mgmtAnswer_keeps {P : Part → Prop} {z t : State} (k : Keeps P z t) (h : ¬ P .pwr) (h2 : ¬ P .time) (r : MgmtFrame) (st : Nat)
    (b : List Byte) : mgmtAnswer t r st b = mgmtAnswer z r st b :=
  mgmtAnswer_same (keeps_config k h) (keeps_now k h2) r st b

theorem freshChute_hub {i j : Nat} : (EndpointId.hub (Fin.ofNat 2048 i) = .hub (Fin.ofNat 2048 j)) ↔ i % 2048 = j % 2048 := by
  constructor
  · intro h
    injection h with h
    exact congrArg Fin.val h
  · intro h
    congr 1
    exact Fin.ext h

theorem bind_gives (s : State) (i : Nat) (x : Session) (tail : Nat) : let y := bindSession s i x tail
    getSession y i = x ∧ (∀ j, j ≠ i → getSession y j = getSession s j) ∧
    getEp y (.hub (Fin.ofNat 2048 i)) = freshEndpoint tail 0x3FF ∧ (∀ e, e ≠ .hub (Fin.ofNat 2048 i) → getEp y e = getEp s e) := by
  refine ⟨tget_tset_self .., fun j h => tget_tset_other _ _ _ h, getEp_setEp_self .., fun e h => ?_⟩
  exact (getEp_setEp_other _ _ h).trans rfl

/-- What is known of a state once a session has been opened in it stays when nothing but other parts change. -/
theorem opened_of {r : MgmtFrame} {q : OpenReq} {i : Nat} {token : Word} {x : Session} {tail : Nat} {z u y t : State}
    (hu : Keeps (· ∈ [.freeCount]) z u) (hb : y = bindSession u i x tail)
    (kt : Keeps (· ∈ [.graphs, .jnl, .txQueue, .outs]) y t) (a : TxFrame) (ha : a = mgmtAnswer z r 0 (openAnswer q i token))
    (w : State) (ew : w = pushTx t a) (hq : q.kind ≠ 1 ∨ z.pwr.config.twin = false → t.port.txQueue = z.port.txQueue) :
    Opened r q i token x tail z w := by
  obtain ⟨b1, b2, b3, b4⟩ := bind_gives u i x tail
  rw [← hb] at b1 b2 b3 b4
  have hs : ∀ j, getSession w j = getSession y j := fun j => by
    have e : t.port.sessions = y.port.sessions := kt.field .sessions (by decide)
    rw [ew]
    show tget t.port.sessions _ _ = _
    rw [e]
    rfl
  have he : ∀ e, getEp w e = getEp y e := fun e => by
    rw [ew]
    exact getEp_congr (kt.field .chutes (by decide)) e
  have us : ∀ j, getSession u j = getSession z j := fun j => by
    have e : u.port.sessions = z.port.sessions := hu.field .sessions (by decide)
    unfold getSession
    rw [e]
  have ue : ∀ e, getEp u e = getEp z e := getEp_congr (hu.field .chutes (by decide))
  refine ⟨(hs i).trans b1, fun j h => ((hs j).trans (b2 j h)).trans (us j), (he _).trans b3,
    fun e h => ((he e).trans (b4 e h)).trans (ue e), ⟨t.port.txQueue, by rw [ew, ha]; rfl, hq⟩, ?_⟩
  have can := Can.all [.freeCount, .graphs, .jnl, .txQueue, .sessions, .outs, .chutes]
  rw [ew]
  refine (pushTx_keeps ?_ _).sameBut
  refine (Keeps.trans (s := y) ?_ (kt.mono (by decide)))
  rw [hb]
  exact bindSession_keeps (hu.mono (by decide)) ..

theorem logSession_single {s : State} (h : s.pwr.config.twin = false) (i : Nat) (b : List Byte) :
    (logSession s i b).port = s.port := by
  unfold logSession mirrorNote mirrored
  rw [if_neg (by show ¬(s.pwr.config.twin = true); rw [h]; decide)]
  rfl

theorem keeps_draw {z u : State} (e : u = { z with freeCount := z.freeCount + 1 }) : Keeps (· ∈ [.freeCount]) z u := by
  have can := Can.all [.freeCount]
  rw [e]
  exact Keeps.upd (.refl z) rfl rfl rfl

theorem keeps_number {P : Part → Prop} {z t : State} (k : Keeps P z t) (h : ¬ P .pwr) : moduleNum t = moduleNum z := by
  have e := k.field .pwr h
  simp only [Part.same] at e
  have e := congrArg (fun p => (p.config.fieldBase + p.strapsRead) % 65536) e
  exact e

theorem mgmtRow_done {r : MgmtFrame} {op : Nat} {s : State} {c : Instr} {f : MgmtSession → State → State} (h : AtFront r op s)
    (ho : knownOp op = true) (hi : InSession r s)
    (hc : exec c s = .next (ofOp op s r fun s => inMgmt s r fun x => f x s)) (t : State)
    (e : ∀ x, getMgmt s r.header.session.toNat = some x → f x (dequeue s) = t) (q : t.port.mgmtQueue = s.port.mgmtQueue.tail) : exec c s = .next t := by
  obtain ⟨x, h1, h2, h3⟩ := hi.open_
  have hg : inMgmt (dequeue s) r (fun x => f x (dequeue s)) = t := by
    rw [inMgmt_go hi.header (show getMgmt (dequeue s) _ = some x from h1) h2 h3]
    exact e x h1
  rw [hc, ofOp_done h ho hg q]

/-- A session and its endpoint that are free stay so when grants are released. -/
theorem issue_free {s : State} {i : Nat} (h1 : getSession s i = {}) (h2 : getEp s (.hub (Fin.ofNat 2048 i)) = {}) (j : Nat) :
    getSession (issueGrants s j) i = {} ∧ getEp (issueGrants s j) (.hub (Fin.ofNat 2048 i)) = {} := by
  unfold issueGrants
  dsimp only
  generalize (if (getSession s j).kind = SessionKind.lot then _ else _ : Bool) = hold
  split
  · exact ⟨h1, h2⟩
  · rename_i hh
    have hg : (getEp s (.hub (Fin.ofNat 2048 j))).grantsSent ≠ 0 := by
      intro e
      rw [e] at hh
      simp at hh
    have hne : EndpointId.hub (Fin.ofNat 2048 i) ≠ .hub (Fin.ofNat 2048 j) := by
      intro e
      rw [← e, h2] at hg
      exact hg rfl
    have hij : i ≠ j := fun e => hne (by rw [e])
    obtain ⟨y, ey⟩ : ∃ y, y = setEp (setSession s j { getSession s j with
        grants := (getSession s j).grants + BitVec.ofNat 32 (getEp s (.hub (Fin.ofNat 2048 j))).grantsSent }) (.hub (Fin.ofNat 2048 j))
        { getEp s (.hub (Fin.ofNat 2048 j)) with
          heldGrants := (getEp s (.hub (Fin.ofNat 2048 j))).heldGrants + (getEp s (.hub (Fin.ofNat 2048 j))).grantsSent, grantsSent := 0 } := ⟨_, rfl⟩
    have k : Keeps (· ∈ [.txQueue]) y (sendAck y j) := by
      have can := Can.all [.txQueue]
      exact sendAck_keeps (.refl y) j
    have a1 : getSession y i = {} := by
      rw [ey]
      exact (tget_tset_other _ _ _ hij).trans h1
    have a2 : getEp y (.hub (Fin.ofNat 2048 i)) = {} := by
      rw [ey]
      exact (getEp_setEp_other _ _ hne).trans h2
    rw [← ey]
    constructor
    · have e : (sendAck y j).port.sessions = y.port.sessions := k.field .sessions (by decide)
      unfold getSession at *
      rw [e]
      exact a1
    · exact (getEp_congr (k.field .chutes (by decide)) _).trans a2

theorem release_free {s : State} {i : Nat} (h1 : getSession s i = {}) (h2 : getEp s (.hub (Fin.ofNat 2048 i)) = {}) :
    getSession (releaseGrants s) i = {} ∧ getEp (releaseGrants s) (.hub (Fin.ofNat 2048 i)) = {} := by
  unfold releaseGrants
  split
  · exact ⟨h1, h2⟩
  · rename_i hn
    clear hn
    generalize s.port.sessions.map (·.1) = l
    induction l generalizing s with
    | nil => exact ⟨h1, h2⟩
    | cons j l ih =>
      obtain ⟨a, b⟩ := issue_free h1 h2 j
      exact ih a b

theorem freshDead_pos (s : State) : 0 < freshDead s := by
  unfold freshDead
  omega

theorem shutLot_gives (s : State) (i : Nat) : LotShut i s (shutLot s i) := by
  obtain ⟨a, ea⟩ : ∃ a, a = ({ s with
      dep := { s.dep with
        jobs := s.dep.jobs.map fun j => { j with ctx := deadCtx i (freshDead s) j.ctx }
        waits := s.dep.waits.map fun w => { w with ctx := deadCtx i (freshDead s) w.ctx } }
      jnl := deadJournal i (freshDead s) s.jnl
      port := { s.port with
        orphans := if (getSession s i).backlog.map (fun c : LotCommand => ({ c with ctx := deadCtx i (freshDead s) c.ctx } : LotCommand)) = ([] : List LotCommand) then s.port.orphans
          else s.port.orphans ++ [(getSession s i).backlog.map fun c => { c with ctx := deadCtx i (freshDead s) c.ctx }] } } : State) := ⟨_, rfl⟩
  obtain ⟨b, eb⟩ : ∃ b, b = resetChuteOnly a (.hub (Fin.ofNat 2048 i)) := ⟨_, rfl⟩
  obtain ⟨c, ec⟩ : ∃ c, c = setEp (setSession b i {}) (.hub (Fin.ofNat 2048 i)) {} := ⟨_, rfl⟩
  obtain ⟨d, ed⟩ : ∃ d, d = logSession c i (leBytes 1 0x11 ++ leBytes 2 i) := ⟨_, rfl⟩
  have e : shutLot s i = releaseGrants d := by rw [ed, ec, eb, ea]; rfl
  have kb : Keeps (· ∈ [.regs, .chutes]) a b := by
    have can := Can.all [.regs, .chutes]
    rw [eb]
    exact resetChuteOnly_keeps (.refl a) _
  have kc : Keeps (· ∈ [.sessions, .chutes]) b c := by
    have can := Can.all [.sessions, .chutes]
    rw [ec]
    exact setEp_keeps (setSession_keeps (.refl b) ..) ..
  have kd : Keeps (· ∈ [.jnl, .txQueue, .outs]) c d := by
    have can := Can.all [.jnl, .txQueue, .outs]
    rw [ed]
    exact logSession_keeps (.refl c) ..
  have kr : Keeps (· ∈ [.txQueue, .sessions, .chutes]) d (releaseGrants d) := by
    have can := Can.all [.txQueue, .sessions, .chutes]
    exact releaseGrants_keeps (.refl d)
  have k : Keeps (· ∈ [.regs, .jnl, .txQueue, .sessions, .outs, .chutes]) a (releaseGrants d) :=
    ((kb.mono (by decide)).trans (kc.mono (by decide))).trans ((kd.mono (by decide)).trans (kr.mono (by decide)))
  have c1 : getSession c i = {} := by rw [ec]; exact tget_tset_self b.port.sessions {} i {}
  have c2 : getEp c (.hub (Fin.ofNat 2048 i)) = {} := by rw [ec]; exact getEp_setEp_self ..
  have d1 : getSession d i = {} := by
    have e : d.port.sessions = c.port.sessions := kd.field .sessions (by decide)
    unfold getSession at *
    rw [e]; exact c1
  have d2 : getEp d (.hub (Fin.ofNat 2048 i)) = {} := (getEp_congr (kd.field .chutes (by decide)) _).trans c2
  obtain ⟨r1, r2⟩ := release_free d1 d2
  have f1 : (releaseGrants d).dep.jobs = a.dep.jobs := k.field .jobs (by decide)
  have f2 : (releaseGrants d).dep.waits = a.dep.waits := k.field .waits (by decide)
  have f3 : (releaseGrants d).jnl.lotRing = a.jnl.lotRing := k.field .lotRing (by decide)
  have f4 : (releaseGrants d).port.orphans = a.port.orphans := k.field .orphans (by decide)
  refine ⟨by rw [e]; exact r1, by rw [e]; exact r2, ⟨freshDead s, freshDead_pos s, by rw [e, f1, ea], by rw [e, f2, ea],
    by rw [e, f3, ea]; rfl, ?_⟩, ?_⟩
  · rw [e, f4, ea]
    dsimp only
    cases hbl : (getSession s i).backlog <;> simp
  · have can := Can.all [.regs, .jobs, .waits, .respLog, .lotRing, .jnl, .txQueue, .sessions, .outs, .orphans, .chutes]
    exact (shutLot_keeps (.refl s) i).sameBut

theorem mgmtQueue_keeps {P : Part → Prop} {z t : State} (k : Keeps P z t) (h : ¬ P .mgmt) : t.port.mgmtQueue = z.port.mgmtQueue := by
  have e := k.field .mgmt h
  simp only [Part.same, Prod.mk.injEq] at e
  exact e.2.1

theorem readReg_same (s : State) (a : Nat) (x : RegLoc) : Keeps (· ∈ [.freeCount, .regs, .clk, .owner, .dep]) s (readReg s a x).2 := by
  have can := Can.all [.freeCount, .regs, .clk, .owner, .dep]
  exact readReg_keeps (.refl s) a x

theorem keeps_answers {P : Part → Prop} {z t : State} (k : Keeps P z t) (h : ¬ P .doms) (d : Option DomainId) : answers t d = answers z d := by
  have e : t.clk.doms = z.clk.doms := k.field .doms h
  unfold answers isLiveDom getDom
  rw [e]

theorem keeps_runs {P : Part → Prop} {z t : State} (k : Keeps P z t) (h : ¬ P .doms) (d : Option DomainId) : domRuns t d = domRuns z d := by
  have e : t.clk.doms = z.clk.doms := k.field .doms h
  unfold domRuns getDom
  rw [e]

theorem keeps_mgmt {P : Part → Prop} {z t : State} (k : Keeps P z t) (h : ¬ P .mgmt) (i : Nat) : getMgmt t i = getMgmt z i := by
  have e := k.field .mgmt h
  simp only [Part.same, Prod.mk.injEq] at e
  unfold getMgmt
  rw [e.1]

theorem reads_keeps {l : List Nat} {ws : List Word} {s t : State} (h : ReadsWords l ws s t) :
    Keeps (· ∈ [.freeCount, .regs, .clk, .owner, .dep]) s t ∧ ws.length = l.length := by
  induction l generalizing ws s with
  | nil =>
    obtain ⟨rfl, rfl⟩ := h
    exact ⟨.refl _, rfl⟩
  | cons a l ih =>
    obtain ⟨x, w, -, -, rfl, h⟩ := h
    obtain ⟨h1, h2⟩ := ih h
    exact ⟨(readReg_same s a x).trans h1, by simp [h2]⟩

theorem reads_exist {l : List Nat} {s : State} (h : ∀ a ∈ l, AddrAnswers s a) : ∃ ws t, ReadsWords l ws s t := by
  induction l generalizing s with
  | nil => exact ⟨[], s, rfl, rfl⟩
  | cons a l ih =>
    obtain ⟨x, h1, h2⟩ := h a (.head _)
    obtain ⟨ws, t, ht⟩ := ih (s := (readReg s a x).2) fun b hb => by
      obtain ⟨y, y1, y2⟩ := h b (.tail _ hb)
      exact ⟨y, y1, by rw [keeps_answers (readReg_same s a x) (by decide)]; exact y2⟩
    exact ⟨_, t, x, ws, h1, h2, rfl, ht⟩

theorem access_reads {r : MgmtFrame} {sig : SigVerdict} {d rest : List (Nat × Word)} {ws : List Word} {s t : State} {x : MgmtSession}
    (h : ReadsWords (d.map (·.1)) ws s t) (hm : getMgmt s r.header.session.toNat = some x) (n : Nat) (got : List Word) :
    accessWords r false sig (d ++ rest) n got s = accessWords r false sig rest (n + d.length) (got ++ ws) t := by
  induction d generalizing ws s n got with
  | nil =>
    obtain ⟨rfl, rfl⟩ := h
    simp
  | cons p d ih =>
    obtain ⟨y, w, h1, h2, rfl, h3⟩ := h
    have hm' : getMgmt (readReg s p.1 y).2 r.header.session.toNat = some x := by
      rw [keeps_mgmt (readReg_same s p.1 y) (by decide)]; exact hm
    rw [List.cons_append, accessWords.eq_def]
    dsimp only
    rw [hm, h1]
    dsimp only
    rw [if_pos h2, if_neg (by decide), ih h3 hm', List.append_assoc, List.length_cons]
    congr 1
    omega

theorem access_writes {r : MgmtFrame} {sig : SigVerdict} {d rest : List (Nat × Word)} {s t : State}
    (h : WritesWords r.header.session.toNat sig d s t) (n : Nat) (got : List Word) :
    accessWords r true sig (d ++ rest) n got s = accessWords r true sig rest (n + d.length) got t := by
  induction d generalizing s n with
  | nil =>
    obtain rfl := h
    simp
  | cons p d ih =>
    obtain ⟨y, m, h1, h2, h3, h4⟩ := h
    rw [List.cons_append, accessWords.eq_def]
    dsimp only
    rw [h3, h1]
    dsimp only
    rw [if_pos h2, if_pos rfl, ih h4, List.length_cons]
    congr 1
    omega

theorem access_stop {r : MgmtFrame} {w : Bool} {sig : SigVerdict} {p : Nat × Word} {e : List (Nat × Word)} {t : State} {x : RegLoc}
    (hm : getMgmt t r.header.session.toNat ≠ none) (hx : locate p.1 = some x) (ha : answers t x.dom = false) (n : Nat) (got : List Word) :
    accessWords r w sig (p :: e) n got t = if domRuns t x.dom then (.reset, n, got, t) else (.held, n, got, t) := by
  rw [accessWords.eq_def]
  dsimp only
  cases h : getMgmt t r.header.session.toNat with
  | none => exact absurd h hm
  | some m =>
    rw [hx]
    dsimp only
    rw [if_neg (by rw [ha]; decide)]

theorem count_done {r : MgmtFrame} {n : Nat} {ws : List Word} {y : State} :
    AccessDone r n ws y (count (finishMgmt y r stOk (accessBody r n ws)) 0 Ctr.MG_REQ_CNT 1) := by
  have fin := finish_gives y r 0 (accessBody r n ws)
  obtain ⟨u, eu⟩ : ∃ u, u = finishMgmt y r stOk (accessBody r n ws) := ⟨_, rfl⟩
  rw [← eu]
  refine ⟨u, by rw [eu]; exact fin, rawReg_count_self u 0 Ctr.MG_REQ_CNT 1, fun a => ?_, ?_⟩
  · by_cases h : a = 0 + Ctr.MG_REQ_CNT
    · exact .inl (by simp [h])
    · exact .inr (rawReg_count_other u h)
  · have can := Can.all [.regs]
    exact (count_keeps (.refl u) ..).sameBut

/-- A request of an open session executed to a state whose queue stands. -/
theorem mgmtRow_known {r : MgmtFrame} {op : Nat} {s : State} {c : Instr} {f : MgmtSession → State → State} (h : AtFront r op s)
    (ho : knownOp op = true) (hi : InSession r s)
    (hc : exec c s = .next (ofOp op s r fun s => inMgmt s r fun x => f x s)) (t : State)
    (e : ∀ x, getMgmt s r.header.session.toNat = some x → f x (dequeue s) = t) (q : FrontKnown t.port.mgmtQueue) : exec c s = .next t := by
  obtain ⟨x, h1, h2, h3⟩ := hi.open_
  have hg : inMgmt (dequeue s) r (fun x => f x (dequeue s)) = t := by
    rw [inMgmt_go hi.header (show getMgmt (dequeue s) _ = some x from h1) h2 h3]
    exact e x h1
  rw [hc, ofOp_front h ho, hg, settle_known q]

theorem count_queue (s : State) (b a n : Nat) : (count s b a n).port = s.port := rfl

theorem acts_not {s : State} {x : RegLoc} {v : Word} {sig : SigVerdict} {signed : Bool} (h : ¬ Acts x) : writeAction s x v sig signed = s := by
  unfold writeAction
  unfold Acts at h
  rw [if_neg (fun e => h (.inl e)), if_neg (fun e => h (.inr (.inl e))), if_neg (fun e => h (.inr (.inr ⟨e.1, .inl e.2⟩))),
    if_neg (fun e => h (.inr (.inr ⟨e.1, .inr (.inl e.2)⟩))), if_neg (fun e => h (.inr (.inr ⟨e.1, .inr (.inr e.2)⟩)))]

theorem writeReg_plain {s : State} {a : Nat} {x : RegLoc} {v : Word} {sig : SigVerdict} {signed : Bool} (h : ¬ Acts x) :
    writeReg s a x v sig signed = setRawReg s a (writtenWord (regDefOf x) (rawReg s a) v) :=
  acts_not h

theorem setRaw_same (s : State) (a : Nat) (w : Word) : Keeps (· ∈ [.regs]) s (setRawReg s a w) ∧ RegsBut [a] s (setRawReg s a w) := by
  have can := Can.all [.regs]
  refine ⟨setRawReg_keeps (.refl s) .., fun b => ?_⟩
  by_cases h : b = a
  · exact .inl (by simp [h])
  · exact .inr (rawReg_setRawReg_other _ _ h)

theorem written_bit (d : RegDef) (o v : Word) (k : Nat) (hk : k < 32) : (writtenWord d o v).getLsbD k =
    if d.rw.getLsbD k then v.getLsbD k else o.getLsbD k && !(d.w1c.getLsbD k && v.getLsbD k) := by
  unfold writtenWord
  simp only [BitVec.getLsbD_or, BitVec.getLsbD_and, BitVec.getLsbD_not, hk, decide_true, Bool.true_and]
  cases d.rw.getLsbD k <;> cases d.w1c.getLsbD k <;> cases v.getLsbD k <;> cases o.getLsbD k <;> rfl

theorem readReg_plain {s : State} {a : Nat} {x : RegLoc} (h : beforeRead s x = s) :
    (readReg s a x).1 = ((viewReg s x).getD (rawReg s a)) &&& ~~~(regDefOf x).wo ∧
    rawReg (readReg s a x).2 a = rawReg s a &&& ~~~(regDefOf x).rc ∧
    RegsBut [a] s (readReg s a x).2 ∧ SameBut [.regs] s (readReg s a x).2 := by
  unfold readReg
  dsimp only
  rw [h]
  refine ⟨rfl, ?_, ?_⟩
  · split
    · rename_i hr
      rw [hr, show (~~~(0 : Word)) = BitVec.allOnes 32 from rfl, BitVec.and_allOnes]
    · exact rawReg_setRawReg_self ..
  · split
    · exact ⟨fun b => .inr rfl, rfl, fun p => .inr (same_refl p s)⟩
    · obtain ⟨k, r⟩ := setRaw_same s a (rawReg s a &&& ~~~(regDefOf x).rc)
      exact ⟨r, k.sameBut⟩

theorem writes_keeps {i : Nat} {sig : SigVerdict} {l : List (Nat × Word)} {s : State}
    (h : ∀ p ∈ l, ∃ x, locate p.1 = some x ∧ answers s x.dom = true ∧ ¬ Acts x) (hm : getMgmt s i ≠ none) :
    ∃ t, WritesWords i sig l s t ∧ Keeps (· ∈ [.regs]) s t ∧ RegsBut (l.map (·.1)) s t := by
  induction l generalizing s with
  | nil => exact ⟨s, rfl, .refl s, fun a => .inr rfl⟩
  | cons p l ih =>
    obtain ⟨x, h1, h2, h3⟩ := h p (.head _)
    cases hx : getMgmt s i with
    | none => exact absurd hx hm
    | some m =>
      obtain ⟨k, r⟩ := setRaw_same s p.1 (writtenWord (regDefOf x) (rawReg s p.1) p.2)
      rw [← writeReg_plain (sig := sig) (signed := m.signed) h3] at k r
      obtain ⟨t, t1, t2, t3⟩ := ih (s := writeReg s p.1 x p.2 sig m.signed) (fun q hq => by
        obtain ⟨y, y1, y2, y3⟩ := h q (.tail _ hq)
        exact ⟨y, y1, by rw [keeps_answers k (by decide)]; exact y2, y3⟩) (by rw [keeps_mgmt k (by decide)]; exact hm)
      refine ⟨t, ⟨x, m, h1, h2, hx, t1⟩, k.trans t2, fun a => ?_⟩
      rcases t3 a with g | g
      · exact .inl (.tail _ g)
      · rcases r a with q | q
        · exact .inl (by simp at q; simp [q])
        · exact .inr (g.trans q)

theorem inSession_ne {r : MgmtFrame} {s : State} (h : InSession r s) : getMgmt s r.header.session.toNat ≠ none := by
  obtain ⟨x, hx, -⟩ := h.open_
  rw [hx]
  simp

theorem dequeue_keeps (s : State) : Keeps (· ∈ [.mgmt]) s (dequeue s) :=
  withQueue_keeps (.refl s) _ (Can.all [.mgmt])

theorem abort_front {r : MgmtFrame} {h : HeldAccess} {s t : State} (hf : AbortFront r h s) (hi : InSession r s)
    (e : ∀ x, getMgmt s r.header.session.toNat = some x →
      (match (dequeue s).port.held with
        | some h => if r.body.length = 4 ∧ beNat r.body = h.req.header.reqId.toNat then abandonHeld (finishMgmt (dequeue s) r stOk r.body) h
          else finishMgmt (dequeue s) r stBadRequest []
        | none => finishMgmt (dequeue s) r stBadRequest []) = t)
    (q : FrontKnown t.port.mgmtQueue) : exec (.abort r) s = .next t := by
  obtain ⟨x, h1, h2, h3⟩ := hi.open_
  refine congrArg Host.Outcome.next ?_
  rw [ofOp, if_pos (show r.header.op.toNat = opAbort from hf.op)]
  unfold takeMgmt
  rw [settle_held (s := s) (by rw [hf.held]; rfl)]
  dsimp only
  rw [if_pos hf.front, if_neg (by rw [hf.op]; simp [opAbort])]
  have hg : abortRun r (dequeue s) = t := by
    unfold abortRun
    rw [inMgmt_go hi.header (show getMgmt (dequeue s) _ = some x from h1) h2 h3]
    exact e x h1
  exact (congrArg settleQueue hg).trans (settle_known q)

end Sys2Proof.Machine
end

