-- ==== Sys2Proof/Laws/Start.lean ====
section
/-! SUPPORT. Power and start: what the operations do. -/

-- one theorem after the other: proofs side by side would need more memory than the check allows
set_option Elab.async false

namespace Sys2Proof.Machine

open Sys2Proof.Safety

theorem powerOff_gives (s : State) : Unpowered s (powerOff s) ∧ (powerOff s).pwr.tripLatch = s.pwr.tripLatch :=
  ⟨⟨rfl, ⟨rfl, rfl, rfl⟩, rfl, ⟨rfl, rfl⟩, ⟨rfl, rfl, rfl⟩, ⟨rfl, rfl, rfl⟩, ⟨rfl, rfl⟩, ⟨rfl, rfl, rfl⟩, ⟨rfl, rfl, rfl, rfl, rfl, rfl, rfl⟩⟩, rfl⟩

theorem shutdownDue_iff (cv ca ns : Nat) : shutdownDue cv ca ns = true ↔ ShutdownDue cv ca ns := by
  simp only [shutdownDue, ShutdownDue, Bool.or_eq_true, Bool.and_eq_true, decide_eq_true_eq, or_assoc]

theorem powered_iff (s : State) : powered s = true ↔ s.pwr.phase ≠ .off := by
  simp only [powered, decide_eq_true_eq]

theorem upd_pwr {s t : State} (h : t = { s with pwr := t.pwr })
    (h1 : (t.pwr.norA, t.pwr.norB) = (s.pwr.norA, s.pwr.norB)) (h2 : Part.same .owner s t) (h3 : Part.same .image s t) (h4 : Part.same .att s t)
    (h5 : Part.same .temps s t) : SameBut [.pwr] s t := by
  refine ⟨by rw [h], fun p => ?_⟩
  cases p
  case pwr => exact .inl (.head _)
  case nor => exact .inr h1
  case owner => exact .inr h2
  case image => exact .inr h3
  case att => exact .inr h4
  case temps => exact .inr h5
  all_goals exact .inr (by rw [h]; exact rfl)

theorem inputVoltage_gives {s : State} (cv : Nat) (hp : s.pwr.phase ≠ .off) : let t := inputVoltage s cv
      (cv < 4400 → BitSet (imgBase + Flag.img_UNDERVOLT.1) Flag.img_UNDERVOLT.2 t) ∧
      (5600 < cv → BitSet (imgBase + Flag.img_OVERVOLT.1) Flag.img_OVERVOLT.2 t) ∧
      (4400 ≤ cv → cv ≤ 5600 → RegsBut [imgBase + 0x60] s t) ∧
      RegsBut [imgBase + 0x60, imgBase + Flag.img_UNDERVOLT.1] s t ∧ SameBut [.regs] s t := by
  intro t
  obtain ⟨s1, e1⟩ : ∃ x, x = setRawField s (imgBase + 0x60) 15 0 cv := ⟨_, rfl⟩
  have o1 : ∀ a, a ≠ imgBase + 0x60 → rawReg s1 a = rawReg s a := fun a h => by
    rw [e1]
    unfold setRawField
    exact rawReg_setRawReg_other _ _ h
  obtain ⟨s2, e2⟩ : ∃ x, x = raiseIf (decide (cv < 4400)) s1 imgBase Flag.img_UNDERVOLT := ⟨_, rfl⟩
  have et : t = raiseIf (decide (5600 < cv)) s2 imgBase Flag.img_OVERVOLT := by
    rw [e2, e1]
    exact if_pos ((powered_iff s).2 hp)
  have k : SameBut [.regs] s t := by
    have can := Can.all [.regs]
    rw [et, e2, e1]
    exact (raiseIf_keeps (raiseIf_keeps (setRawField_keeps (.refl s) ..) ..) ..).sameBut
  have q2 : ∀ a, a ≠ imgBase + Flag.img_UNDERVOLT.1 → rawReg s2 a = rawReg s1 a := fun a h => by
    rw [e2]
    exact step_other rfl (rawReg_raise_other _ h)
  have qt : ∀ a, a ≠ imgBase + Flag.img_UNDERVOLT.1 → rawReg t a = rawReg s2 a := fun a h => by
    rw [et]
    exact step_other rfl (rawReg_raise_other _ h)
  refine ⟨fun h => ?_, fun h => ?_, fun h1 h2 a => ?_, fun a => ?_, k⟩
  · have : s2 = raise s1 imgBase Flag.img_UNDERVOLT := by rw [e2]; exact if_pos (decide_eq_true h)
    have e : t = s2 := by rw [et]; exact if_neg (by rw [decide_eq_false (by omega)]; decide)
    rw [e, this]
    exact bitSet_raise _ _ _ (by decide)
  · rw [et, show raiseIf (decide (5600 < cv)) s2 imgBase Flag.img_OVERVOLT = raise s2 imgBase Flag.img_OVERVOLT from if_pos (decide_eq_true h)]
    exact bitSet_raise _ _ _ (by decide)
  · have g2 : s2 = s1 := by rw [e2]; exact if_neg (by rw [decide_eq_false (by omega)]; decide)
    have g3 : t = s2 := by rw [et]; exact if_neg (by rw [decide_eq_false (by omega)]; decide)
    rw [g3, g2]
    by_cases ha : a = imgBase + 0x60
    · exact .inl (by rw [ha]; exact .head _)
    · exact .inr (o1 a ha)
  · by_cases ha : a = imgBase + 0x60
    · exact .inl (by rw [ha]; exact .head _)
    · by_cases hb : a = imgBase + Flag.img_UNDERVOLT.1
      · exact .inl (by rw [hb]; exact .tail _ (.head _))
      · exact .inr (by rw [qt a hb, q2 a hb, o1 a ha])

theorem tripDue_iff (f : Temperatures) : tripDue f = true ↔ TripDue f := by
  simp only [tripDue, TripDue, Bool.or_eq_true, List.any_eq_true, decide_eq_true_eq, or_assoc]

theorem warnDue_iff (f : Temperatures) : warnDue f = true ↔ (∃ x ∈ f.logic, 95 < x) ∨ (∃ x ∈ f.dram, 85 < x) ∨ 95 < f.hub := by
  simp only [warnDue, Bool.or_eq_true, List.any_eq_true, decide_eq_true_eq, or_assoc]

theorem loadByte_filter (m : List Host.Cell) (p : Nat → Bool) (a : Nat) :
    loadByte (m.filter fun c => p c.1) a = if p a then loadByte m a else loadByte [] a :=
  tget_filterKey m 0 p a

theorem startKind_gives (s : State) (c : WarmCause) : (startKindOf s c).2 = { s with freeCount := (startKindOf s c).2.freeCount } := by
  cases c <;> rfl

theorem locate_dep4 : ∀ l, locate (depBase + Flag.dep_VOID.1) = some l → l.dom = none := by
  intro l h
  have e : (locate (depBase + Flag.dep_VOID.1)).map (·.dom) = some none := by decide +kernel
  rw [h] at e
  exact Option.some.inj e

theorem warmReset_gives (s : State) (c : WarmCause) : WarmStarted (startKindOf s c).1 s (warmReset s c) := by
  obtain ⟨v, ev⟩ : ∃ v, v = (startKindOf s c).2 := ⟨_, rfl⟩
  have hv : Keeps (· ∈ [.freeCount]) s v := by
    have can := Can.all [.freeCount]
    rw [ev, startKind_gives]
    exact Keeps.upd (.refl s) rfl rfl rfl
  obtain ⟨y, ey⟩ : ∃ y, y = countResets v := ⟨_, rfl⟩
  have ky : Keeps (· ∈ [.regs]) v y := by
    have can := Can.all [.regs]
    rw [ey]
    exact Keeps.foldl (.refl v) _ fun s x hs => countReset_keeps hs ..
  obtain ⟨x, ex⟩ : ∃ x, x = keepDclkRegs y := ⟨_, rfl⟩
  obtain ⟨w, ew⟩ : ∃ w, w = raiseIf (x.dep.voids.any fun v => !v.void && v.home.isSome) x depBase Flag.dep_VOID := ⟨_, rfl⟩
  have kw : Keeps (· ∈ [.regs]) v w := by
    have can := Can.all [.regs]
    rw [ew, ex]
    exact raiseIf_keeps (keepDclkRegs_keeps ky ..) ..
  have k : Keeps (· ∈ [.freeCount, .regs]) s w := by
    refine (hv.mono ?_).trans (kw.mono ?_)
    all_goals intro p hp; simp only [List.mem_singleton] at hp; rw [hp]; decide
  have e : warmReset s c =
    { pending := w.pending, freeCount := w.freeCount, mem := w.mem.filter fun c => c.1 < Config.coreBase, regs := w.regs,
      clk := { w.clk with replicas := [], doms := [], dclkDead := false, pclkTries := 0, fclkTries := 0 }
      pwr := warmPower w.pwr (startKindOf s c).1, dep := warmDeputy w.dep, jnl := warmJournal w.jnl, port := warmPort w.port,
      scatters := warmScatters w.scatters, chutes := warmEndpoints (warmPort w.port) } := by
    rw [ew, ex, ey, ev]
    rfl
  have m : w.mem = s.mem := k.field .mem (by decide)
  have hl : w.clk.dclkLocked = s.clk.dclkLocked := by
    have h := k.field .clk (by decide)
    simp only [Part.same] at h
    have h := congrArg Clocks.dclkLocked h
    dsimp only at h
    exact h
  have hw : w.pwr.warmCount = s.pwr.warmCount := by
    have h := k.field .pwr (by decide)
    simp only [Part.same] at h
    have h := congrArg Power.warmCount h
    dsimp only at h
    exact h
  have hal : w.dep.allocs = s.dep.allocs := k.field .allocs (by decide)
  have hde : w.dep.descs = s.dep.descs := k.field .descs (by decide)
  have hjo : w.dep.jobs = s.dep.jobs := k.field .jobs (by decide)
  have hnow := keeps_now k (by decide)
  have f : ∀ a, loadByte (w.mem.filter fun c => c.1 < Config.coreBase) a = if decide (a < Config.coreBase) then loadByte s.mem a else loadByte [] a :=
    fun a => by rw [m]; exact loadByte_filter s.mem (fun a => decide (a < Config.coreBase)) a
  rw [e]
  refine ⟨⟨rfl, rfl, rfl, ?_⟩, ⟨hnow, hl⟩, fun d => rfl, fun a ha => ?_, fun a ha => ?_, ⟨hal, hde, hjo⟩, ⟨rfl, rfl, rfl⟩, fun q hq => ?_,
    ⟨rfl, rfl, rfl, rfl, rfl, rfl, rfl, rfl⟩, fun a l hloc hd => ?_⟩
  · show w.pwr.warmCount + 1 = _
    rw [hw]
  · exact (f a).trans (if_pos (decide_eq_true ha))
  · exact (f a).trans (if_neg (by rw [decide_eq_false (Nat.not_lt.2 ha)]; decide))
  · have hq' : q ∈ (w.port.sessions.map fun e => (e.1, warmSession e.2)).filter fun e => e.2 != {} := hq
    obtain ⟨h1, h2⟩ := List.mem_filter.1 hq'
    obtain ⟨z, -, hz⟩ := List.mem_map.1 h1
    subst hz
    dsimp only at h2 ⊢
    unfold warmSession at h2 ⊢
    by_cases hk : z.2.kind = .lot ∨ z.2.kind = .mirror
    · rw [if_pos hk]
      exact hk
    · rw [if_neg hk] at h2
      simp at h2
  · have hne : a ≠ depBase + Flag.dep_VOID.1 := fun h => hd (locate_dep4 l (h ▸ hloc))
    show rawReg w a = regReset a
    rw [ew, show rawReg (raiseIf _ x depBase Flag.dep_VOID) a = rawReg x a from step_other rfl (rawReg_raise_other _ hne), ex]
    have e2 : rawReg (keepDclkRegs y) a = if (match locate a with
        | some l => l.dom.isNone
        | none => true) then rawReg y a else regReset a := by
      unfold rawReg keepDclkRegs
      exact tget_filterKey y.regs (regReset a) (fun k => match locate k with
        | some l => l.dom.isNone
        | none => true) a
    rw [e2, hloc]
    dsimp only
    refine if_neg ?_
    rw [Option.isNone_iff_eq_none]
    exact hd

theorem canReset_iff (s : State) : canReset s = true ↔ s.pwr.phase = .running ∨ ∃ n, s.pwr.phase = .step n ∧ 2 ≤ n ∧ s.clk.dclkDead = false := by
  unfold canReset
  cases s.pwr.phase with
  | off => simp
  | step n => simp
  | running => simp

theorem execStart (s : State) (f : StartFindings) {t : State} (e : startStepDone s f = t) : exec (.startStepDone f) s = .next t := by
  rw [exec, execStartStepDone, e]

theorem toStep_gives (s : State) (n : Nat) : SameBut [.pwr] s (toStep s n) := (toStep_keeps (.refl s) n (Can.all _)).sameBut

theorem clk_pwr {s t : State} {c : Clocks} {p : Power} (h : t = { s with clk := c, pwr := p })
    (hd : c.doms = s.clk.doms) (hn : (c.now, c.tickThree) = (s.clk.now, s.clk.tickThree))
    (h1 : (p.norA, p.norB) = (s.pwr.norA, s.pwr.norB)) (h2 : Part.same .owner s t) (h3 : Part.same .image s t) (h4 : Part.same .att s t)
    (h5 : Part.same .temps s t) : SameBut [.clk, .pwr] s t := by
  refine ⟨by rw [h], fun q => ?_⟩
  cases q
  case pwr => exact .inl (.tail _ (.head _))
  case clk => exact .inl (.head _)
  case doms => exact .inr (by rw [h]; exact hd)
  case time => exact .inr (by rw [h]; exact hn)
  case nor => exact .inr (by rw [h]; exact h1)
  case owner => exact .inr h2
  case image => exact .inr h3
  case att => exact .inr h4
  case temps => exact .inr h5
  all_goals exact .inr (by rw [h]; exact rfl)

theorem startStep3_gives (s : State) (f : StartFindings) : let a := if s.pwr.aFailed then s.pwr.aReason else checkImage s s.pwr.norA f.imageA
      (a = 0 → startStep3 s f = { s with pwr := { s.pwr with
        phase := .step 4
        slotB := false } }) ∧
      (a ≠ 0 → checkImage s s.pwr.norB f.imageB = 0 → startStep3 s f = { s with pwr := { s.pwr with
        phase := .step 4
        slotB := true
        aFailed := true
        aReason := a } }) ∧
      (a ≠ 0 → checkImage s s.pwr.norB f.imageB ≠ 0 → startStep3 s f = { s with pwr := { s.pwr with
        phase := .step 4
        rescue := true
        aFailed := true
        aReason := a } }) := by
  intro a
  have hc : ∀ (b : Bool) (r : Nat), checkImage { s with pwr := { s.pwr with
      aFailed := b
      aReason := r } } s.pwr.norB f.imageB = checkImage s s.pwr.norB f.imageB := fun _ _ => rfl
  refine ⟨fun h => if_pos h, fun h1 h2 => ?_, fun h1 h2 => ?_⟩
  · exact (if_neg h1).trans (if_pos ((hc _ _).trans h2))
  · exact (if_neg h1).trans (if_neg (fun k => h2 ((hc _ _).symm.trans k)))

theorem startStep4_gives (s : State) (f : StartFindings) : (startStep4 s f).pwr.phase = .step 5 ∧
      (enrolled s = false → (startStep4 s f).pwr.ownerLost = false) ∧
      (enrolled s = true → ((startStep4 s f).pwr.ownerLost = true ↔ ownerBlockOf s = none)) ∧
      (enrolled s = true → ownerBlockOf s = none → (startStep4 s f).pwr.rescue = true) := by
  have ap : ∀ z, (applyConfig z f.userSig).pwr.ownerLost = z.pwr.ownerLost ∧ (applyConfig z f.userSig).pwr.rescue = z.pwr.rescue := fun z => by
    unfold applyConfig
    dsimp only
    split
    · exact ⟨rfl, rfl⟩
    · split <;> exact ⟨rfl, rfl⟩
  have sm : ∀ z, (settleMirror z).pwr = z.pwr := fun z => by
    unfold settleMirror
    split
    · rfl
    · split <;> rfl
  obtain ⟨z, ez⟩ : ∃ z, z = checkOwner s := ⟨_, rfl⟩
  obtain ⟨y, ey⟩ : ∃ y, y = if z.pwr.ownerLost then ({ z with pwr := { z.pwr with rescue := true } } : State) else z := ⟨_, rfl⟩
  have e : startStep4 s f = toStep (settleMirror (applyConfig y f.userSig)) 5 := by
    rw [ey, ez]
    rfl
  have hl : (startStep4 s f).pwr.ownerLost = z.pwr.ownerLost := by
    rw [e]
    show (settleMirror (applyConfig y f.userSig)).pwr.ownerLost = _
    rw [sm, (ap y).1, ey]
    split <;> rfl
  have hr : z.pwr.ownerLost = true → (startStep4 s f).pwr.rescue = true := fun h => by
    rw [e]
    show (settleMirror (applyConfig y f.userSig)).pwr.rescue = _
    rw [sm, (ap y).2, ey, if_pos h]
  refine ⟨by rw [e]; rfl, fun h => ?_, fun h => ?_, fun h1 h2 => hr ?_⟩
  · rw [hl, ez, show checkOwner s = _ from if_neg (by rw [h]; decide)]
  · rw [hl, ez, show checkOwner s = _ from if_pos h]
    cases ownerBlockOf s with
    | none => exact ⟨fun _ => rfl, fun _ => rfl⟩
    | some b => exact ⟨fun k => absurd (show false = true from k) (by decide), fun k => by cases k⟩
  · rw [ez, show checkOwner s = _ from if_pos h1, h2]

theorem started_live (x : Domain) (h : x.running = false ∨ x.live = true) : (startedDomain x).live = true := by
  unfold startedDomain
  by_cases hr : x.running = true
  · rw [if_pos hr]
    rcases h with h | h
    · rw [h] at hr; cases hr
    · split
      · rfl
      · exact h
  · rw [if_neg hr]

theorem domainStart_keepsPwr (s : State) (d : DomainId) : (domainStart s d).pwr = s.pwr ∧ (domainStart s d).dep = s.dep := by
  have l : ∀ z, (loadReplica z d).pwr = z.pwr ∧ (loadReplica z d).dep = z.dep := fun z => by
    unfold loadReplica
    cases replicaKey d with
    | none => exact ⟨rfl, rfl⟩
    | some k => exact ⟨rfl, rfl⟩
  have r : ∀ z, (releaseDomain z d).pwr = z.pwr ∧ (releaseDomain z d).dep = z.dep := fun z => by
    unfold releaseDomain
    dsimp only
    split
    · exact l _
    · exact ⟨rfl, rfl⟩
  unfold domainStart
  split
  · unfold startDomain
    dsimp only
    split
    · exact r _
    · exact r _
  · exact ⟨rfl, rfl⟩

theorem mayStart_congr {s t : State} (h1 : t.pwr = s.pwr) (h2 : t.dep = s.dep) (d : DomainId) : mayStart t d = mayStart s d := by
  unfold mayStart
  rw [h1, h2]

theorem startAll_live (l : List DomainId) (d : DomainId) : ∀ s, mayStart s d = true → ((getDom s d).running = false ∨ (getDom s d).live = true) →
    (d ∈ l ∨ (getDom s d).live = true) → (getDom (l.foldl domainStart s) d).live = true := by
  induction l with
  | nil =>
    intro s _ _ h
    exact h.elim (fun k => by cases k) id
  | cons x r ih =>
    intro s hm hq hd
    obtain ⟨p1, p2⟩ := domainStart_keepsPwr s x
    refine ih (domainStart s x) ((mayStart_congr p1 p2 d).trans hm) ?_ ?_
    all_goals by_cases hx : x = d
    · subst hx
      have e : domainStart s x = startDomain s x := if_pos hm
      rw [e, (startDomain_gives s x).1.1]
      exact .inr (started_live _ hq)
    · have : getDom (domainStart s x) d = getDom s d := by
        unfold domainStart
        split
        · exact (startDomain_gives s x).1.2 d (fun k => hx k.symm)
        · rfl
      rw [this]
      exact hq
    · subst hx
      have e : domainStart s x = startDomain s x := if_pos hm
      rw [e, (startDomain_gives s x).1.1]
      exact .inr (started_live _ hq)
    · have : getDom (domainStart s x) d = getDom s d := by
        unfold domainStart
        split
        · exact (startDomain_gives s x).1.2 d (fun k => hx k.symm)
        · rfl
      rw [this]
      exact hd.elim (fun k => .inl ((List.mem_cons.1 k).resolve_left (fun k => hx k.symm))) .inr

theorem mem_allDomains (d : DomainId) : d ∈ allDomains := by
  unfold allDomains
  rw [List.mem_append]
  cases d with
  | seam m x =>
    refine .inl (List.mem_flatMap.2 ⟨m, List.mem_finRange m, ?_⟩)
    cases x <;> simp
  | pclk => exact .inr (by simp)
  | hubFclk => exact .inr (by simp)

theorem haltAll_stopped (l : List DomainId) (d : DomainId) : ∀ s, (d ∈ l ∨ (getDom s d).running = false) →
    (getDom (l.foldl (fun s d => haltIf s d 0) s) d).running = false := by
  induction l with
  | nil => exact fun s h => h.elim (fun k => by cases k) id
  | cons x r ih =>
    intro s h
    obtain ⟨h1, h2⟩ := haltIf_dom s x 0
    refine ih _ ?_
    by_cases hx : x = d
    · subst hx
      refine .inr ?_
      rw [h1]
      cases hr : (getDom s x).running with
      | true => rfl
      | false => rw [if_neg Bool.false_ne_true, hr]
    · rw [h2 d (fun k => hx k.symm)]
      exact h.elim (fun k => .inl ((List.mem_cons.1 k).resolve_left (fun k => hx k.symm))) .inr

theorem startStep5_gives (s : State) : (startStep5 s).pwr.railsUp = true ∧ (startStep5 s).pwr.pwrGood = true ∧
      (s.pwr.rescue = false → (startStep5 s).pwr.phase = .step 6 ∧
        ∀ d, (getDom s d).running = false → s.dep.fences = {} → (getDom (startStep5 s) d).live = true) ∧
      (s.pwr.rescue = true → (startStep5 s).pwr.phase = .step 9 ∧ ∀ m x, (getDom (startStep5 s) (.seam m x)).running = false) := by
  obtain ⟨z, ez⟩ : ∃ z, z = ({ s with pwr := { s.pwr with
      railsUp := true
      pwrGood := true } } : State) := ⟨_, rfl⟩
  have pw : ∀ {P : Part → Prop} {y : State}, Keeps P z y → ¬ P .pwr → y.pwr.railsUp = true ∧ y.pwr.pwrGood = true := fun k hp => by
    have h := k.field .pwr hp
    simp only [Part.same] at h
    have h1 := congrArg Power.railsUp h
    have h2 := congrArg Power.pwrGood h
    dsimp only at h1 h2
    rw [h1, h2, ez]
    exact ⟨rfl, rfl⟩
  have dz : ∀ d, getDom z d = getDom s d := fun d => by rw [ez]; rfl
  cases hr : s.pwr.rescue with
  | false =>
    obtain ⟨y, ey⟩ : ∃ y, y = (List.range 16).foldl initCal (allDomains.foldl domainStart z) := ⟨_, rfl⟩
    have e : startStep5 s = toStep y 6 := by
      rw [ey, ez]
      exact if_neg (by show ¬ s.pwr.rescue = true; rw [hr]; decide)
    have k1 : Keeps (· ∈ [.doms, .clk]) z (allDomains.foldl domainStart z) := by
      have can := Can.all [.doms, .clk]
      exact Keeps.foldl (.refl z) _ fun s x hs => domainStart_keeps hs ..
    have k2 : Keeps (· ∈ [.cals]) (allDomains.foldl domainStart z) y := by
      have can := Can.all [.cals]
      rw [ey]
      exact Keeps.foldl (.refl _) _ fun s x hs => initCal_keeps hs ..
    have hp := pw ((k1.mono (fun p hp => List.mem_append_left [.cals] hp)).trans (k2.mono (fun p hp => List.mem_append_right [.doms, .clk] hp))) (by decide)
    rw [e]
    refine ⟨hp.1, hp.2, fun _ => ⟨rfl, fun d h1 h2 => ?_⟩, fun k => by cases k⟩
    show (getDom y d).live = true
    rw [getDom_of (k2.field .doms (by decide))]
    refine startAll_live _ d z ?_ (.inl (by rw [dz]; exact h1)) (.inl (mem_allDomains d))
    rw [ez]
    unfold mayStart
    dsimp only
    rw [h2, hr]
    cases d with
    | seam m x => cases x <;> rfl
    | pclk => rfl
    | hubFclk => rfl
  | true =>
    obtain ⟨w, ew⟩ : ∃ w, w = (allDomains.filter fun d => d != .pclk && d != .hubFclk).foldl (fun s d => haltIf s d 0) z := ⟨_, rfl⟩
    have e : startStep5 s = toStep (startDomain (startDomain w .pclk) .hubFclk) 9 := by
      rw [ew, ez]
      exact if_pos hr
    have can := Can.all (.clk :: resetParts)
    have k : Keeps (· ∈ .clk :: resetParts) z (startDomain (startDomain w .pclk) .hubFclk) := by
      rw [ew]
      refine startDomain_keeps (startDomain_keeps (Keeps.foldl (.refl z) _ fun s x hs => haltIf_keeps hs _ _ (Can.sub can (by decide))) _ (Can.sub can (by decide))) _ (Can.sub can (by decide))
    have hp := pw k (by decide)
    rw [e]
    refine ⟨hp.1, hp.2, (fun k => by cases k), fun _ => ⟨rfl, fun m x => ?_⟩⟩
    show (getDom (startDomain (startDomain w .pclk) .hubFclk) (.seam m x)).running = false
    rw [(startDomain_gives _ .hubFclk).1.2 _ (by simp), (startDomain_gives w .pclk).1.2 _ (by simp), ew]
    exact haltAll_stopped _ _ _ (.inl (List.mem_filter.2 ⟨mem_allDomains _, by simp⟩))

theorem idleAll (l : List Nat) (m : Nat) : ∀ s, (m ∈ l ∨ (getCal s m).idle = true) →
    (getCal (l.foldl (fun s m => setCal s m (setpoint s m { getCal s m with idle := true })) s) m).idle = true := by
  induction l with
  | nil => exact fun s h => h.elim (fun k => by cases k) id
  | cons x r ih =>
    intro s h
    refine ih _ ?_
    by_cases hx : m = x
    · subst hx
      refine .inr ?_
      rw [getCal_setCal_self, show setpoint s m { getCal s m with idle := true } = _ from if_pos rfl]
    · rw [getCal_setCal_other _ _ hx]
      exact h.elim (fun k => .inl ((List.mem_cons.1 k).resolve_left hx)) .inr

theorem startStep8_gives (s : State) (f : StartFindings) : (startStep8 s f).pwr.phase = .step 9 ∧ ∀ m < 16, (getCal (startStep8 s f) m).idle = true := by
  obtain ⟨z, ez⟩ : ∃ z, z = f.light.foldl applyLight (f.badAdits.foldl fenceAdit (f.arrays.foldl applyTest s)) := ⟨_, rfl⟩
  obtain ⟨y, ey⟩ : ∃ y, y = (List.range 16).foldl (fun s m => setCal s m (setpoint s m { getCal s m with idle := true })) z := ⟨_, rfl⟩
  have e : startStep8 s f = toStep (endRecovery y) 9 := by
    rw [ey, ez]
    rfl
  have kv : Keeps (· ∈ [.dep]) y (endRecovery y) := endRecovery_keeps (.refl y) (Can.all _)
  rw [e]
  refine ⟨rfl, fun m hm => ?_⟩
  have hc : (toStep (endRecovery y) 9).cals = y.cals := kv.field .cals (by decide)
  have hg : getCal (toStep (endRecovery y) 9) m = getCal y m := by
    unfold getCal
    rw [hc]
  rw [hg, ey]
  exact idleAll _ _ _ (.inl (List.mem_range.2 hm))

theorem decideTest_gives (x : ArrayFinding) : let d := decideTest x
      let rows := ((x.cells.filter fun c => c.1.val != 64).map (·.1.val)).eraseDups
      let spare := x.cells.any fun c => c.1.val == 64
      (x.chain ≠ none → d.result = 3) ∧
      (x.chain = none → rows = [] → d.result = 0 ∧ d.spareBad = spare) ∧
      (∀ r, x.chain = none → rows = [r] → d.result = (if spare = false ∧ x.retestOk = true then 1 else 2) ∧
        (d.result = 1 → d.row = some r)) ∧
      (x.chain = none → 2 ≤ rows.length → (d.result = 3 ↔ ∃ c, (x.cells.map (·.2.val)).eraseDups = [c]) ∧ (d.result ≠ 3 → d.result = 2)) ∧
      (d.result = 1 ↔ d.row.isSome = true) := by
  unfold decideTest
  dsimp only
  generalize ((x.cells.filter fun c => c.1.val != 64).map (·.1.val)).eraseDups = rows
  generalize (x.cells.any fun c => c.1.val == 64) = spare
  generalize (x.cells.map (·.2.val)).eraseDups = cols
  cases x.chain with
  | some c => simp
  | none =>
    match rows with
    | [] => simp
    | [r] => cases spare <;> cases x.retestOk <;> simp
    | a :: b :: r =>
      match cols with
      | [] => simp
      | [c] => simp
      | c :: d :: e => simp

theorem applyTest_gives (s : State) (x : ArrayFinding) : let d := decideTest x
      (2 ≤ d.result → arrayKey x.array ∈ (applyTest s x).dep.fences.arrays ∧ (getArray (applyTest s x) x.array).testResult = d.result) ∧
      (d.result < 2 → (applyTest s x).dep = s.dep ∧ (getArray (applyTest s x) x.array).latency = (if d.result = 1 then 135 else 134)) := by
  intro d
  have h1 : d.result = 1 ↔ d.row.isSome = true := (decideTest_gives x).2.2.2.2
  let y : ArrayState := { testResult := d.result, badRow := d.row, spareBad := d.spareBad, badCol := d.col, latency := if d.row.isSome then 135 else 134 }
  obtain ⟨z, ez⟩ : ∃ z, z = setArray s x.array y := ⟨_, rfl⟩
  have gz : getArray z x.array = y := by rw [ez, getArray_setArray_self]
  refine ⟨fun h => ?_, fun h => ?_⟩
  · obtain ⟨w, ew⟩ : ∃ w, w = ({ z with dep := { z.dep with fences := { z.dep.fences with
      arrays := arrayKey x.array :: z.dep.fences.arrays.filter (· != arrayKey x.array) } } } : State) := ⟨_, rfl⟩
    obtain ⟨v, ev⟩ : ∃ v, v = raise w (coreRegBase x.array.core) Flag.core_ARRAY_LOST := ⟨_, rfl⟩
    have e : applyTest s x = fenceDone v 1 0 x.array.core.seam.val x.array.core.core.val x.array.array.val := by
      rw [ev, ew, ez]
      exact if_neg (Nat.not_lt.2 h)
    have k : Keeps (· ∈ [.regs, .dep]) v (fenceDone v 1 0 x.array.core.seam.val x.array.core.core.val x.array.array.val) :=
      fenceDone_keeps (.refl v) _ _ _ _ _ (Can.all _)
    have f : v.dep.fences.arrays = arrayKey x.array :: z.dep.fences.arrays.filter (· != arrayKey x.array) := by rw [ev, raise_dep, ew]
    have a : v.arrays = z.arrays := by rw [ev, raise_arrays, ew]
    rw [e]
    refine ⟨?_, ?_⟩
    · rw [(fenceDone_gives v ..).fences, f]
      exact .head _
    · rw [getArray_congr ((k.field .arrays (by decide)).trans a), gz]
  · have e : applyTest s x = z := by
      rw [ez]
      exact if_pos h
    rw [e, gz]
    refine ⟨by rw [ez, setArray_dep], ?_⟩
    show (if d.row.isSome = true then 135 else 134) = _
    by_cases h2 : d.result = 1
    · rw [if_pos h2, if_pos (h1.1 h2)]
    · rw [if_neg h2, if_neg (fun k => h2 (h1.2 k))]

theorem startStep9_gives {s : State} (h1 : s.port.linkUp = true) (h2 : s.pwr.rescue = false) : (startStep9 s).pwr.phase = .step 10 ∧
        (s.pwr.config.twin = false ∨ s.pwr.warm = true → (startStep9 s).pwr = { s.pwr with phase := .step 10 } ∧ SameBut [.pwr] s (startStep9 s)) ∧
        (s.pwr.config.twin = true → s.pwr.warm = false → s.dep.restoreSkip = false → (startStep9 s).jnl.mirror = .restoring) ∧
        (s.pwr.config.twin = true → s.pwr.warm = false → s.dep.restoreSkip = true → (startStep9 s).jnl.mirror ≠ .restoring) := by
  obtain ⟨z, ez⟩ : ∃ z, z = toStep s 10 := ⟨_, rfl⟩
  have hz : z.pwr.config.twin = s.pwr.config.twin ∧ z.pwr.warm = s.pwr.warm ∧ z.dep.restoreSkip = s.dep.restoreSkip ∧ z.pwr.phase = .step 10 := by
    rw [ez]
    exact ⟨rfl, rfl, rfl, rfl⟩
  obtain ⟨z1, z2, z3, z4⟩ := hz
  have e : startStep9 s = if z.pwr.config.twin && !z.pwr.warm then
      if z.dep.restoreSkip then skipRestore z
      else openOut { z with jnl := { z.jnl with mirror := .restoring } } .mirror 0 0 (moduleNum z) (1 - z.pwr.config.side)
    else z := by
    rw [ez]
    exact if_pos (by rw [h1, h2]; rfl)
  rw [e, z1, z2, z3]
  have opn : ∀ y : State, (openOut y .mirror 0 0 (moduleNum z) (1 - z.pwr.config.side)).pwr.phase = y.pwr.phase ∧
      (openOut y .mirror 0 0 (moduleNum z) (1 - z.pwr.config.side)).jnl.mirror = y.jnl.mirror := fun y => by
    have k : Keeps (· ∈ [.txQueue, .outs]) y (openOut y .mirror 0 0 (moduleNum z) (1 - z.pwr.config.side)) := openOut_keeps (.refl y) _ _ _ _ _ (Can.all _)
    have p := k.field .pwr (by decide)
    simp only [Part.same] at p
    have p1 := congrArg Power.phase p
    dsimp only at p1
    exact ⟨p1, congrArg Journal.mirror (keeps_jnl k (by decide) (by decide) (by decide))⟩
  cases ht : s.pwr.config.twin with
  | false =>
    rw [Bool.false_and, if_neg Bool.false_ne_true]
    refine ⟨z4, fun _ => ?_, (fun k => by cases k), fun k => by cases k⟩
    rw [ez]
    exact ⟨rfl, toStep_gives s 10⟩
  | true =>
    cases hw : s.pwr.warm with
    | true =>
      rw [Bool.true_and, Bool.not_true, if_neg Bool.false_ne_true]
      refine ⟨z4, fun _ => ?_, (fun _ k => by cases k), fun _ k => by cases k⟩
      rw [ez]
      exact ⟨rfl, toStep_gives s 10⟩
    | false =>
      rw [Bool.true_and, Bool.not_false, if_pos rfl]
      cases hs : s.dep.restoreSkip with
      | false =>
        rw [if_neg Bool.false_ne_true]
        obtain ⟨a, b⟩ := opn { z with jnl := { z.jnl with mirror := .restoring } }
        exact ⟨a.trans z4, (fun k => k.elim (fun k => by cases k) (fun k => by cases k)), fun _ _ _ => b, fun _ _ k => by cases k⟩
      | true =>
        rw [if_pos rfl]
        refine ⟨?_, (fun k => k.elim (fun k => by cases k) (fun k => by cases k)), (fun _ _ k => by cases k), fun _ _ _ => ?_⟩
        · show (raise _ depBase Flag.dep_JNL_DISCARDED).pwr.phase = _
          rw [raise_pwr]
          exact z4
        · show (raise _ depBase Flag.dep_JNL_DISCARDED).jnl.mirror ≠ _
          rw [raise_jnl]
          dsimp only
          split <;> exact fun k => by cases k

theorem startStep7_eq (s : State) (f : StartFindings) (v : ImageVerdict) (hv : (if s.pwr.slotB then f.imageB else f.imageA) = v) :
    startStep7 s f = if v.stage2 = true then toStep (trainLinks s) 8
      else if s.pwr.slotB = true then toRescue s
      else toStep { s with pwr := { s.pwr with
        aFailed := true
        aReason := 9 } } 3 := by
  unfold startStep7
  dsimp only
  rw [hv]

theorem fenceDram_chans (s : State) (m : Fin 16) : (fenceDram s m).dep.fences.chans = s.dep.fences.chans := by
  have sm : ∀ z, (fenceSeam z m).dep.fences.chans = z.dep.fences.chans := fun z => by
    cases h : z.dep.fences.seams.contains m.val with
    | true => rw [show fenceSeam z m = z from if_pos h]
    | false => rw [(fenceSeam_gives h).1.fences]
  cases h : s.dep.fences.drams.contains m.val with
  | true => rw [show fenceDram s m = s from if_pos h]
  | false =>
    obtain ⟨s1, e1⟩ : ∃ x, x = ({ s with dep := { s.dep with fences := { s.dep.fences with drams := m.val :: s.dep.fences.drams } } } : State) := ⟨_, rfl⟩
    obtain ⟨s2, e2⟩ : ∃ x, x = haltIf s1 (.seam m .mclk) 0 := ⟨_, rfl⟩
    obtain ⟨s3, e3⟩ : ∃ x, x = voidGranules s2 (allocatedGranules s2 fun g => backGran s2 g * 4096 / Config.seamWindow == m.val) := ⟨_, rfl⟩
    obtain ⟨s4, e4⟩ : ∃ x, x = fenceDone (loseSeamCopy s3 m.val) 2 4 m.val 0 0 := ⟨_, rfl⟩
    have e : fenceDram s m = fenceSeam s4 m := by
      unfold fenceDram
      rw [if_neg (by rw [h]; exact Bool.false_ne_true)]
      dsimp only
      rw [← e1, ← e2, ← e3, ← e4]
    have k2 : Keeps (· ∈ [.regs, .doms, .jobs, .dep, .txQueue, .sessions, .outs, .port, .arrays, .cores, .adits, .hoists, .scatters, .chans, .links, .chutes, .hops, .counters]) s1 s2 := by
      rw [e2]; exact haltIf_keeps (.refl s1) _ _ (Can.all _)
    have k3 : Keeps (· ∈ [.regs, .jobs, .voids, .dep, .txQueue, .sessions, .outs, .arrays, .cores, .hoists, .scatters, .chutes]) s2 s3 := by
      rw [e3]; exact voidGranules_keeps (.refl s2) _ (Can.all _)
    have k4 : Keeps (· ∈ [.regs, .dep, .jnl]) s3 s4 := by
      rw [e4]
      have can := Can.all [.regs, .dep, .jnl]
      exact fenceDone_keeps (loseSeamCopy_keeps (.refl s3) ..) ..
    have f4 : s4.dep.fences = s1.dep.fences := (k4.field .fences (by decide)).trans ((k3.field .fences (by decide)).trans (k2.field .fences (by decide)))
    rw [e, sm, f4, e1]

theorem fenceChan_chans (s : State) (c : ChanId) : (fenceChan s c).dep.fences.chans =
    if s.dep.fences.chans.contains (chanKey c) then s.dep.fences.chans else chanKey c :: s.dep.fences.chans := by
  by_cases h : s.dep.fences.chans.contains (chanKey c) = true
  · rw [if_pos h, show fenceChan s c = s from if_pos h]
  · obtain ⟨s1, e1⟩ : ∃ x, x = ({ s with dep := { s.dep with fences := { s.dep.fences with chans := chanKey c :: s.dep.fences.chans } } } : State) := ⟨_, rfl⟩
    obtain ⟨s2, e2⟩ : ∃ x, x = voidGranules s1 (allocatedGranules s1 fun g =>
      backGran s1 g * 4096 / Config.seamWindow == c.seam.val && chanOf (backGran s1 g * 4096 % Config.seamWindow) == c.chan.val) := ⟨_, rfl⟩
    obtain ⟨s3, e3⟩ : ∃ x, x = fenceDone (loseSeamCopy s2 c.seam.val) 2 3 c.seam.val c.chan.val 0 := ⟨_, rfl⟩
    have e : fenceChan s c = if 4 ≤ fencedChans s3 c.seam.val then fenceDram s3 c.seam else s3 := by
      unfold fenceChan
      rw [if_neg h]
      dsimp only
      rw [← e1, ← e2, ← e3]
    have k2 : Keeps (· ∈ [.regs, .jobs, .voids, .dep, .txQueue, .sessions, .outs, .arrays, .cores, .hoists, .scatters, .chutes]) s1 s2 := by
      rw [e2]; exact voidGranules_keeps (.refl s1) _ (Can.all _)
    have k3 : Keeps (· ∈ [.regs, .dep, .jnl]) s2 s3 := by
      rw [e3]
      have can := Can.all [.regs, .dep, .jnl]
      exact fenceDone_keeps (loseSeamCopy_keeps (.refl s2) ..) ..
    have f3 : s3.dep.fences = s1.dep.fences := (k3.field .fences (by decide)).trans (k2.field .fences (by decide))
    rw [e, if_neg h]
    split
    · rw [fenceDram_chans, f3, e1]
    · rw [f3, e1]

theorem trainChannels_all (l : List (ChanId × Nat)) (k : Nat) : ∀ s, (k ∈ s.dep.fences.chans ∨ ∃ c ∈ l, 8 < c.2 ∧ chanKey c.1 = k) →
    k ∈ (l.foldl trainChannel s).dep.fences.chans := by
  induction l with
  | nil => exact fun s h => h.elim id (fun ⟨c, hc, _⟩ => nomatch hc)
  | cons x r ih =>
    intro s h
    refine ih _ ?_
    have hx := fenceChan_chans s x.1
    by_cases h8 : 8 < x.2
    · rw [show trainChannel s x = fenceChan s x.1 from if_pos h8, hx]
      by_cases hc : s.dep.fences.chans.contains (chanKey x.1) = true
      · rw [if_pos hc]
        rcases h with h | ⟨c, hm, h9, hk⟩
        · exact .inl h
        · rcases List.mem_cons.1 hm with e | e
          · subst e
            exact .inl (hk ▸ List.contains_iff_mem.1 hc)
          · exact .inr ⟨c, e, h9, hk⟩
      · rw [if_neg hc]
        rcases h with h | ⟨c, hm, h9, hk⟩
        · exact .inl (List.mem_cons_of_mem _ h)
        · rcases List.mem_cons.1 hm with e | e
          · subst e
            exact .inl (hk ▸ .head _)
          · exact .inr ⟨c, e, h9, hk⟩
    · rw [show trainChannel s x = _ from if_neg h8]
      rcases h with h | ⟨c, hm, h9, hk⟩
      · exact .inl h
      · rcases List.mem_cons.1 hm with e | e
        · subst e
          exact absurd h9 h8
        · exact .inr ⟨c, e, h9, hk⟩

theorem startStep6_gives (s : State) (f : StartFindings) : (startStep6 s f).pwr.phase = .step 7 ∧ (startStep6 s f).mem = (if s.pwr.warm then s.mem else []) ∧
    (∀ c ∈ f.trained, 8 < c.2 → chanKey c.1 ∈ (startStep6 s f).dep.fences.chans) := by
  obtain ⟨z, ez⟩ : ∃ z, z = if s.pwr.warm then s else ({ s with mem := [] } : State) := ⟨_, rfl⟩
  obtain ⟨z', ez'⟩ : ∃ z', z' = ({ z with chans := [] } : State) := ⟨_, rfl⟩
  obtain ⟨y, ey⟩ : ∃ y, y = f.trained.foldl trainChannel z' := ⟨_, rfl⟩
  obtain ⟨w, ew⟩ : ∃ w, w = if y.pwr.warm then rehomeAll y else y := ⟨_, rfl⟩
  have e : startStep6 s f = toStep (endRecovery w) 7 := by
    rw [ew, ey, ez', ez]
    rfl
  have ky : Keeps (· ∈ fencePartsAll) z' y := by
    rw [ey]
    exact Keeps.foldl (.refl z') _ fun s x hs => trainChannel_keeps hs _ (Can.sub (Can.all fencePartsAll) (by decide))
  have kw : Keeps (· ∈ [.regs, .voids, .dep]) y w := by
    rw [ew]
    exact Keeps.ite (.refl y) (fun h => rehomeAll_keeps h (Can.all _))
  have kv : Keeps (· ∈ [.dep]) w (endRecovery w) := endRecovery_keeps (.refl w) (Can.all _)
  have em : (endRecovery w).mem = z.mem := (kv.field .mem (by decide)).trans ((kw.field .mem (by decide)).trans ((ky.field .mem (by decide)).trans (by rw [ez'])))
  have ef : (endRecovery w).dep.fences = y.dep.fences := (kv.field .fences (by decide)).trans (kw.field .fences (by decide))
  rw [e]
  refine ⟨rfl, ?_, fun c hc h8 => ?_⟩
  · show (endRecovery w).mem = _
    rw [em, ez]
    split <;> rfl
  · show chanKey c.1 ∈ (endRecovery w).dep.fences.chans
    rw [ef, ey]
    exact trainChannels_all _ _ _ (.inr ⟨c, hc, h8, rfl⟩)

theorem trainLinks_links (s : State) {m : Nat} (hm : m < 16) {d : LinkDir} (hd : d ∈ linkDirs) (hp : linkPresent m d = true) :
    (tget (trainLinks s).links {} (5 * m + linkNum d)).up = true := by
  have fold : ∀ (l : List Nat) (t : Table LinkState) (i : Nat), (i ∈ l ∨ (tget t {} i).up = true) →
      (tget (l.foldl (fun t k => tset t {} k { up := true }) t) {} i).up = true := by
    intro l
    induction l with
    | nil => exact fun t i h => h.elim (fun k => by cases k) id
    | cons x r ih =>
      intro t i h
      refine ih _ _ ?_
      by_cases hx : i = x
      · exact .inr (by rw [hx, tget_tset_self])
      · rw [tget_tset_other _ _ _ hx]
        exact h.elim (fun k => .inl ((List.mem_cons.1 k).resolve_left hx)) .inr
  obtain ⟨keys, hk⟩ : ∃ keys, keys = (List.range 16).flatMap fun m => (linkDirs.filter (linkPresent m)).map fun d => 5 * m + linkNum d := ⟨_, rfl⟩
  have e : (trainLinks s).links = keys.foldl (fun l k => tset l {} k { up := true }) s.links := by
    rw [hk]
    unfold trainLinks
    dsimp only
  rw [e]
  refine fold _ _ _ (.inl ?_)
  rw [hk]
  exact List.mem_flatMap.2 ⟨m, List.mem_range.2 hm, List.mem_map.2 ⟨d, List.mem_filter.2 ⟨hd, hp⟩, rfl⟩⟩

theorem startReport_gives (s : State) : rawReg (startReport s) startBase = BitVec.ofNat 32 s.pwr.startKind ∧
    rawReg (startReport s) (startBase + 4) = BitVec.ofNat 32 s.pwr.warmCount := by
  have fold : ∀ (w : Nat → Word) (l : List Nat) (z : State) (a : Nat), a < startBase + 16 →
      rawReg (l.foldl (fun s m => setRawReg s (startBase + 16 + 4 * m) (w m)) z) a = rawReg z a := by
    intro w l
    induction l with
    | nil => exact fun z a h => rfl
    | cons x r ih =>
      intro z a h
      exact (ih _ a h).trans (rawReg_setRawReg_other _ _ (by omega))
  have fold' : ∀ (l : List Nat) (z : State) (a : Nat), a < startBase + 16 →
      rawReg (l.foldl (fun s m => setRawReg s (startBase + 16 + 4 * m) (reportWord s m)) z) a = rawReg z a := by
    intro l
    induction l with
    | nil => exact fun z a h => rfl
    | cons x r ih =>
      intro z a h
      exact (ih _ a h).trans (rawReg_setRawReg_other _ _ (by omega))
  unfold startReport
  extract_lets s1 s2 s3 s4
  refine ⟨?_, ?_⟩
  · rw [fold' _ _ _ (by decide), rawReg_setRawReg_other _ _ (by decide), rawReg_setRawReg_other _ _ (by decide), rawReg_setRawReg_other _ _ (by decide), rawReg_setRawReg_self]
  · rw [fold' _ _ _ (by decide), rawReg_setRawReg_other _ _ (by decide), rawReg_setRawReg_other _ _ (by decide), rawReg_setRawReg_self]
    rfl

theorem startStep11_gives (s : State) : let t := startStep11 s
    t.pwr.phase = .running ∧ t.dep.service = true ∧ t.port.inService = true ∧ t.pwr.tService = s.clk.now ∧
      rawReg t startBase = BitVec.ofNat 32 s.pwr.startKind ∧ rawReg t (startBase + 4) = BitVec.ofNat 32 s.pwr.warmCount := by
  intro t
  obtain ⟨z, ez⟩ : ∃ z, z = startReport s := ⟨_, rfl⟩
  have kz : Keeps (· ∈ [.regs]) s z := by rw [ez]; exact startReport_keeps (.refl s) (Can.all _)
  obtain ⟨y, ey⟩ : ∃ y, y = ({ z with
    pwr := { z.pwr with
      phase := .running
      tService := z.clk.now
      announced := 0
      announceStop := false }
    dep := { z.dep with service := true }
    port := { z.port with inService := true } } : State) := ⟨_, rfl⟩
  obtain ⟨x, ex⟩ : ∃ x, x = raiseFloor y := ⟨_, rfl⟩
  have e : t = releaseGrants x := by
    rw [ex, ey, ez]
    rfl
  have kx : Keeps (· ∈ [.txQueue, .sessions, .chutes]) x t := by rw [e]; exact releaseGrants_keeps (.refl x) (Can.all _)
  have hx : x.pwr.phase = y.pwr.phase ∧ x.pwr.tService = y.pwr.tService ∧ x.dep = y.dep ∧ x.port = y.port ∧ x.regs = y.regs := by
    rw [ex]
    unfold raiseFloor
    dsimp only
    split
    · exact ⟨rfl, rfl, rfl, rfl, rfl⟩
    · exact ⟨rfl, rfl, rfl, rfl, rfl⟩
  obtain ⟨h1, h2, h3, h4, h5⟩ := hx
  have p := kx.field .pwr (by decide)
  have q := kx.field .dep (by decide)
  have o := kx.field .port (by decide)
  simp only [Part.same] at p q o
  have p1 := congrArg Power.phase p
  have p2 := congrArg Power.tService p
  have q1 := congrArg Deputy.service q
  have o1 := congrArg Port.inService o
  dsimp only at p1 p2 q1 o1
  have r : t.regs = z.regs := (kx.field .regs (by decide)).trans (h5.trans (by rw [ey]))
  obtain ⟨g1, g2⟩ := startReport_gives s
  rw [← ez] at g1 g2
  refine ⟨p1.trans (h1.trans (by rw [ey])), ?_, ?_, ?_, (rawReg_congr r _).trans g1, (rawReg_congr r _).trans g2⟩
  · rw [q1, h3, ey]
  · rw [o1, h4, ey]
  · rw [p2, h2, ey]
    exact keeps_now kz (by decide)

end Sys2Proof.Machine
end

