-- ==== Sys2Proof/Laws/Owners.lean ====
section
/-! SUPPORT. Images, owner, attestation and register rows: what the operations do. -/

-- one theorem after the other: proofs side by side would need more memory than the check allows
set_option Elab.async false

namespace Sys2Proof.Machine

open Sys2Proof.Safety

theorem field_nat {p w k old v : Nat} (hp : 0 < p) (hw : 0 < w) (ho : old < p * w * k) (hv : v < w) :
    ∀ n, n = old - old / p % w * p + v * p →
    n < p * w * k ∧ n / p % w = v ∧ n % p = old % p ∧ n / (p * w) = old / (p * w) := by
  intro n hn
  have e1 := Nat.div_add_mod old p
  have e2 := Nat.div_add_mod (old / p) w
  have r1 := Nat.mod_lt old hp
  have r2 := Nat.mod_lt (old / p) hw
  generalize hr : old % p = r at *
  generalize hf : old / p % w = f at *
  have e3 : old / p / w = old / (p * w) := Nat.div_div_eq_div_mul ..
  generalize hq : old / p / w = q at *
  have eo : old = p * (w * q) + p * f + r := by
    rw [← e1, ← e2, Nat.mul_add]
  have en : n = p * (w * q + v) + r := by
    have c1 : f * p = p * f := Nat.mul_comm ..
    have c2 : v * p = p * v := Nat.mul_comm ..
    rw [hn, eo, c1, c2, Nat.mul_add]
    omega
  have d1 : n / p = w * q + v := by
    rw [en, Nat.mul_add_div hp, Nat.div_eq_of_lt r1, Nat.add_zero]
  have d2 : n / (p * w) = q := by
    rw [← Nat.div_div_eq_div_mul, d1, Nat.mul_add_div hw, Nat.div_eq_of_lt hv, Nat.add_zero]
  refine ⟨?_, ?_, ?_, d2.trans e3⟩
  · have hpw : 0 < p * w := Nat.mul_pos hp hw
    have : old / (p * w) < k := by
      rw [Nat.div_lt_iff_lt_mul hpw, Nat.mul_comm]
      exact ho
    have : n / (p * w) < k := by rw [d2, e3]; exact this
    rw [Nat.div_lt_iff_lt_mul hpw, Nat.mul_comm] at this
    exact this
  · rw [d1, Nat.mul_add_mod, Nat.mod_eq_of_lt hv]
  · rw [en, Nat.mul_add_mod, Nat.mod_eq_of_lt r1]

/-- What setting a field leaves. -/
theorem setField_gives (s : State) (a hi lo v : Nat) (h : lo ≤ hi) (hh : hi < 32) :
    FieldSet a hi lo (v % 2 ^ (hi + 1 - lo)) s (setRawField s a hi lo v) := by
  have e : 2 ^ lo * 2 ^ (hi + 1 - lo) * 2 ^ (31 - hi) = 2 ^ 32 := by
    rw [← Nat.pow_add, ← Nat.pow_add]
    congr 1
    omega
  have g := field_nat (p := 2 ^ lo) (w := 2 ^ (hi + 1 - lo)) (k := 2 ^ (31 - hi)) (old := (rawReg s a).toNat)
    (v := v % 2 ^ (hi + 1 - lo)) (Nat.two_pow_pos _) (Nat.two_pow_pos _) (by rw [e]; exact (rawReg s a).isLt)
    (Nat.mod_lt _ (Nat.two_pow_pos _)) _ rfl
  rw [e] at g
  have e2 : 2 ^ lo * 2 ^ (hi + 1 - lo) = 2 ^ (hi + 1) := by
    rw [← Nat.pow_add]
    congr 1
    omega
  rw [e2] at g
  obtain ⟨g1, g2, g3, g4⟩ := g
  have er : (rawReg (setRawField s a hi lo v) a).toNat =
      (rawReg s a).toNat - (rawReg s a).toNat / 2 ^ lo % 2 ^ (hi + 1 - lo) * 2 ^ lo + v % 2 ^ (hi + 1 - lo) * 2 ^ lo := by
    unfold setRawField
    rw [rawReg_setRawReg_self]
    show (BitVec.ofNat 32 _).toNat = _
    rw [BitVec.toNat_ofNat, bitField]
    exact Nat.mod_eq_of_lt g1
  refine ⟨?_, ?_, ?_, fun b => ?_⟩
  · rw [er]; exact g2
  · rw [er]; exact g3
  · rw [er]; exact g4
  · by_cases hb : b = a
    · exact .inl (by simp [hb])
    · refine .inr ?_
      unfold setRawField
      exact rawReg_setRawReg_other _ _ hb

theorem bitField_or (x y hi lo : Nat) : bitField (x ||| y) hi lo = bitField x hi lo ||| bitField y hi lo := by
  unfold bitField
  rw [← Nat.shiftRight_eq_div_pow, ← Nat.shiftRight_eq_div_pow, ← Nat.shiftRight_eq_div_pow, Nat.shiftRight_or_distrib, Nat.or_mod_two_pow]

/-- A flag raised leaves a field of its register that does not hold it. -/
theorem field_raise (s : State) (b : Nat) (f : Nat × Nat) (hi lo : Nat) (h : bitField (2 ^ f.2) hi lo = 0) (hf : f.2 < 32) :
    bitField (rawReg (raise s b f) (b + f.1)).toNat hi lo = bitField (rawReg s (b + f.1)).toNat hi lo := by
  unfold raise
  rw [rawReg_setRawReg_self, BitVec.toNat_or, BitVec.toNat_ofNat, Nat.mod_eq_of_lt (Nat.pow_lt_pow_right (by decide) hf), bitField_or, h]
  exact Nat.or_zero _

/-- A field below or above another is as it was when that one is set. -/
theorem field_other {x y lo hi' lo' : Nat} (hlo : y % 2 ^ lo = x % 2 ^ lo) (h : hi' < lo) : bitField y hi' lo' = bitField x hi' lo' := by
  unfold bitField
  by_cases hl : lo' ≤ hi'
  · have key : ∀ z : Nat, z / 2 ^ lo' % 2 ^ (hi' + 1 - lo') = z % 2 ^ lo / 2 ^ lo' % 2 ^ (hi' + 1 - lo') := fun z => by
      have e : 2 ^ lo = 2 ^ lo' * 2 ^ (hi' + 1 - lo') * 2 ^ (lo - hi' - 1) := by
        rw [← Nat.pow_add, ← Nat.pow_add]; congr 1; omega
      rw [e, Nat.mul_assoc, Nat.mod_mul_right_div_self, Nat.mod_mul_right_mod]
    rw [key y, hlo, ← key x]
  · rw [show hi' + 1 - lo' = 0 by omega]
    simp [Nat.mod_one]

theorem imgFail_gives (s : State) (code reason : Nat) (hc : code < 8) (hr : reason < 16) :
    ImgFailed code reason s (imgFail s code reason) ∧ SameBut [.regs] s (imgFail s code reason) := by
  obtain ⟨x, ex⟩ : ∃ x, x = setRawField s (imgBase + 0x10) 5 3 code := ⟨_, rfl⟩
  obtain ⟨y, ey⟩ : ∃ y, y = setRawField x (imgBase + 0x10) 9 6 reason := ⟨_, rfl⟩
  have e : imgFail s code reason = raise y imgBase Flag.img_ERROR := by rw [ey, ex]; rfl
  obtain ⟨x1, x2, x3, x4⟩ := setField_gives s (imgBase + 0x10) 5 3 code (by decide) (by decide)
  obtain ⟨y1, y2, y3, y4⟩ := setField_gives x (imgBase + 0x10) 9 6 reason (by decide) (by decide)
  rw [← ex] at x1 x2 x3 x4
  rw [← ey] at y1 y2 y3 y4
  have a : imgBase + Flag.img_ERROR.1 = imgBase + 0x10 := rfl
  refine ⟨⟨?_, ?_, ?_, fun b => ?_⟩, ?_⟩
  · rw [e]; exact bitSet_raise _ _ _ (by decide)
  · rw [e, ← a, field_raise _ _ _ _ _ (by decide) (by decide), a, field_other y2 (by decide), x1]
    exact Nat.mod_eq_of_lt hc
  · rw [e, ← a, field_raise _ _ _ _ _ (by decide) (by decide), a, y1]
    exact Nat.mod_eq_of_lt hr
  · by_cases hb : b = imgBase + 0x10
    · exact .inl (by simp [hb])
    · refine .inr ?_
      rw [e, rawReg_raise_other _ (by rw [a]; exact hb), (y4 b).resolve_left (by simpa using hb), (x4 b).resolve_left (by simpa using hb)]
  · have can := Can.all [.regs]
    exact (imgFail_keeps (.refl s) ..).sameBut

theorem bitAt_getLsbD (v : Word) (k : Nat) : bitAt v.toNat k = v.getLsbD k := by
  unfold bitAt
  rw [BitVec.getLsbD, Nat.testBit_eq_decide_div_mod_eq]
  rfl

theorem norStore_other (m : List Host.Cell) (a c : Nat) (bs : List Byte) (h : c < a ∨ a + bs.length ≤ c) :
    loadByteFill 0xFF (norStore m a bs) c = loadByteFill 0xFF m c := by
  induction bs generalizing m a with
  | nil => rfl
  | cons b r ih =>
    simp only [List.length_cons] at h
    rw [norStore, ih _ _ (by omega)]
    exact tget_tset_other m 0xFF b (by omega)

theorem norStore_self (m : List Host.Cell) (a : Nat) (bs : List Byte) (i : Nat) (h : i < bs.length) :
    loadByteFill 0xFF (norStore m a bs) (a + i) = bs[i] := by
  induction bs generalizing m a i with
  | nil => simp at h
  | cons b r ih =>
    cases i with
    | zero =>
      rw [norStore, norStore_other _ _ _ _ (by omega)]
      exact tget_tset_self m 0xFF a b
    | succ k =>
      have := ih (storeByteFill 0xFF m a b) (a + 1) k (by simpa using h)
      rw [norStore]
      have hk : a + (k + 1) = a + 1 + k := by omega
      rw [hk]
      simpa using this

theorem norOf_setNor (s : State) (b : Bool) (m : List Host.Cell) : norOf (setNor s b m) b = m ∧ norOf (setNor s b m) (!b) = norOf s (!b) := by
  cases b <;> exact ⟨rfl, rfl⟩

theorem norOf_raise (s : State) (b : Nat) (f : Nat × Nat) (x : Bool) : norOf (raise s b f) x = norOf s x := by
  unfold norOf
  rw [raise_pwr]

theorem setNor_gives (s : State) (b : Bool) (a n : Nat) (bs : List Byte) (hl : bs.length = n) :
    NorBut b a n s (setNor s b (norStore (norOf s b) a bs)) ∧ NorHolds b a bs (setNor s b (norStore (norOf s b) a bs)) := by
  obtain ⟨h1, h2⟩ := norOf_setNor s b (norStore (norOf s b) a bs)
  refine ⟨⟨h2, fun x hx => ?_⟩, fun i hi => ?_⟩
  · rw [h1]
    exact norStore_other _ _ _ _ (by rw [hl]; exact hx)
  · rw [h1]
    exact norStore_self _ _ _ _ hi

theorem keeps_nor {P : Part → Prop} {z t : State} (k : Keeps P z t) (h : ¬ P .nor) (b : Bool) : norOf t b = norOf z b := by
  have e := k.field .nor h
  simp only [Part.same, Prod.mk.injEq] at e
  cases b
  · exact e.1
  · exact e.2

theorem sliceBytes_length (l : List Byte) (a n : Nat) : (sliceBytes l a n).length = n := by
  unfold sliceBytes
  rw [List.length_map, List.length_range]

theorem checkAll_same {s t : State} (h1 : t.pwr.keySet0Revoked = s.pwr.keySet0Revoked) (h2 : t.pwr.secFloor = s.pwr.secFloor)
    (m : List Host.Cell) (v : ImageVerdict) : checkAll t m v = checkAll s m v := by
  unfold checkAll checkImage
  rw [h1, h2]

theorem setNor_imgOp (s : State) (b : Bool) (m : List Host.Cell) : (setNor s b m).pwr.imgOp = s.pwr.imgOp := by
  cases b <;> rfl

theorem setNor_reg (s : State) (b : Bool) (m : List Host.Cell) (a : Nat) : rawReg (setNor s b m) a = rawReg s a := by
  cases b <;> rfl

theorem openBlock_pwr (s : State) : (openBlock s).2.pwr = s.pwr := by
  unfold openBlock
  dsimp only

theorem stagingBytes_length (s : State) (off n : Nat) : (stagingBytes s off n).length = n := by
  unfold stagingBytes
  exact sliceBytes_length _ _ _

theorem openBlock_length (s : State) : (openBlock s).1.length = sectionBytes := by
  unfold openBlock
  dsimp only
  rw [List.length_map, List.length_range]

/-- What a PROGRAM or VERIFY that is asked for does. -/
theorem beginImg_gives {s : State} {op : ImgOp} (h1 : s.pwr.imgOp = none) (h2 : deputyRuns s = true) :
    beginImg s op = if (op.targetB == s.pwr.slotB && !s.pwr.rescue) || (!op.verify && op.chunk == offOwner / sectionBytes) then imgFail s 1 0
      else { s with pwr := { s.pwr with imgOp := some op } } := by
  unfold beginImg
  rw [if_neg (by rw [h1, h2]; decide)]

theorem img_row {v : Word} {c : Nat × Instr} (hc : c ∈ imgRows v) (s : State) : (c.1 = 1 ∨ c.1 = 2) ∧
    (v.toNat % 4 ≠ c.1 → exec c.2 s = .next s) ∧
    (v.toNat % 4 = c.1 → exec c.2 s = .next (beginImg s ⟨decide (c.1 = 2), v.getLsbD 2, v.toNat / 16 % 1024⟩)) := by
  have f1 : bitField v.toNat 1 0 = v.toNat % 4 := by simp [bitField]
  have f2 : bitField v.toNat 13 4 = v.toNat / 16 % 1024 := rfl
  simp only [imgRows, List.mem_cons, List.not_mem_nil, or_false] at hc
  rcases hc with h | h <;> subst h
  · refine ⟨.inl rfl, fun h => congrArg Host.Outcome.next (if_neg (by rw [f1]; exact h)), fun h => congrArg Host.Outcome.next ?_⟩
    dsimp only at h
    rw [if_pos (by rw [f1]; exact h)]
    unfold writeImgCtrl imgOpOf
    dsimp only
    rw [if_pos (by rw [f1]; exact h), bitAt_getLsbD, f2]
    rfl
  · refine ⟨.inr rfl, fun h => congrArg Host.Outcome.next (if_neg (by rw [f1]; exact h)), fun h => congrArg Host.Outcome.next ?_⟩
    dsimp only at h
    rw [if_pos (by rw [f1]; exact h)]
    unfold writeImgCtrl imgOpOf
    dsimp only
    rw [if_neg (by rw [f1]; omega), if_pos (by rw [f1]; exact h), bitAt_getLsbD, f2]
    rfl

theorem keeps_power {P : Part → Prop} {z t : State} (k : Keeps P z t) (h1 : ¬ P .nor) (h2 : ¬ P .owner) (h3 : ¬ P .image) (h4 : ¬ P .att)
    (h5 : ¬ P .temps) (h6 : ¬ P .pwr) : t.pwr = z.pwr := by
  have e1 := k.field .nor h1
  have e2 := k.field .owner h2
  have e3 := k.field .image h3
  have e4 := k.field .att h4
  have e5 := k.field .temps h5
  have e6 := k.field .pwr h6
  simp only [Part.same, Prod.mk.injEq] at e1 e2 e3 e4 e5 e6
  generalize t.pwr = p at *
  generalize z.pwr = q at *
  cases p
  cases q
  simp only [Power.mk.injEq] at *
  simp_all

theorem warmReset_power (s : State) (c : WarmCause) : (warmReset s c).pwr = warmPower s.pwr (startKindOf s c).1 := by
  obtain ⟨v, ev⟩ : ∃ v, v = (startKindOf s c).2 := ⟨_, rfl⟩
  have hv : v.pwr = s.pwr := by rw [ev, startKind_gives]
  obtain ⟨y, ey⟩ : ∃ y, y = countResets v := ⟨_, rfl⟩
  have ky : Keeps (· ∈ [.regs]) v y := by
    have can := Can.all [.regs]
    rw [ey]
    exact Keeps.foldl (.refl v) _ fun s x hs => countReset_keeps hs ..
  have hy : y.pwr = v.pwr := keeps_power ky (by decide) (by decide) (by decide) (by decide) (by decide) (by decide)
  obtain ⟨w, ew⟩ : ∃ w, w = raiseIf ((keepDclkRegs y).dep.voids.any fun v => !v.void && v.home.isSome) (keepDclkRegs y) depBase Flag.dep_VOID := ⟨_, rfl⟩
  have hw : w.pwr = y.pwr := by
    rw [ew]
    unfold raiseIf
    split
    · rw [raise_pwr]; rfl
    · rfl
  have e : (warmReset s c).pwr = warmPower w.pwr (startKindOf s c).1 := by
    rw [ew, ey, ev]
    rfl
  rw [e, hw, hy, hv]

theorem startKind_lt (s : State) (c : WarmCause) : (startKindOf s c).1 < 4 := by
  cases c
  case release => exact Nat.mod_lt _ (by decide)
  all_goals (show _ < 4; simp [startKindOf])

theorem norOf_writeOwner (s : State) (bs : List Byte) (b : Bool) : norOf (writeOwner s bs) b = norStore (norOf s b) offOwner bs := by
  cases b <;> rfl

theorem writeOwner_same (s : State) (bs : List Byte) : (writeOwner s bs).mem = s.mem ∧ (writeOwner s bs).dep = s.dep ∧
    (writeOwner s bs).clk = s.clk ∧ (writeOwner s bs).pwr.ownerSlots = s.pwr.ownerSlots ∧ (writeOwner s bs).pwr.warmCount = s.pwr.warmCount :=
  ⟨rfl, rfl, rfl, rfl, rfl⟩

theorem writeOwner_holds (s : State) (bs : List Byte) (b : Bool) : NorHolds b offOwner bs (writeOwner s bs) := by
  intro i hi
  rw [norOf_writeOwner]
  exact norStore_self _ _ _ _ hi

theorem norHolds_congr {s t : State} (h : ∀ b, norOf t b = norOf s b) {b : Bool} {a : Nat} {bs : List Byte} (k : NorHolds b a bs s) : NorHolds b a bs t := by
  intro i hi
  rw [h]
  exact k i hi

theorem enrolCode_eq (s : State) (sig : SigVerdict) (keys : List Byte) : ∃ fr : Bool,
    (fr = true ↔ ∃ t, s.pwr.enrolNonceAt = some t ∧ s.clk.now ≤ t + 10000000000) ∧
    enrolCode s sig keys = if !(sig.ed && sig.mldsa) then 2
      else if enrolled s && !s.pwr.ownerLost then 3
      else if s.pwr.ownerLost && (lastSlot s).any fun x => x.2.digest != keysDigest keys then 4
      else if !s.pwr.ownerLost && decide (64 ≤ s.pwr.ownerSlots.length) then 5
      else if !fr then 6
      else 0 := by
  unfold enrolCode
  cases s.pwr.enrolNonceAt with
  | none => exact ⟨false, by simp, rfl⟩
  | some t => exact ⟨decide (s.clk.now ≤ t + tenSeconds), by rw [decide_eq_true_eq]; simp [tenSeconds], rfl⟩

theorem mayEnrol_iff (s : State) (sig : SigVerdict) (keys : List Byte) : enrolCode s sig keys = 0 ↔ MayEnrol s sig keys := by
  obtain ⟨fr, hf, he⟩ := enrolCode_eq s sig keys
  rw [he]
  constructor
  · intro h
    by_cases h1 : (!(sig.ed && sig.mldsa)) = true
    · rw [if_pos h1] at h; cases h
    rw [if_neg h1] at h
    by_cases h2 : (enrolled s && !s.pwr.ownerLost) = true
    · rw [if_pos h2] at h; cases h
    rw [if_neg h2] at h
    by_cases h3 : (s.pwr.ownerLost && (lastSlot s).any fun x => x.2.digest != keysDigest keys) = true
    · rw [if_pos h3] at h; cases h
    rw [if_neg h3] at h
    by_cases h4 : (!s.pwr.ownerLost && decide (64 ≤ s.pwr.ownerSlots.length)) = true
    · rw [if_pos h4] at h; cases h
    rw [if_neg h4] at h
    refine ⟨?_, ?_, fun hl x hx => ?_, fun hl => ?_, ?_⟩
    · simpa using h1
    · cases he : enrolled s with
      | false => exact .inl rfl
      | true =>
        refine .inr ?_
        rw [he] at h2
        simpa using h2
    · rw [hl, hx] at h3
      simpa using h3
    · rw [hl] at h4
      simpa using h4
    · refine hf.1 ?_
      cases fr with
      | true => rfl
      | false => cases h
  · intro h
    rw [if_neg (by rw [h.signed.1, h.signed.2]; decide), if_neg ?_, if_neg ?_, if_neg ?_, if_neg ?_]
    · rw [hf.2 h.fresh]; decide
    · intro e
      rw [Bool.and_eq_true, Bool.not_eq_true', decide_eq_true_eq] at e
      have := h.slot e.1
      omega
    · intro e
      rw [Bool.and_eq_true, Option.any_eq_true] at e
      obtain ⟨hl, x, hx, hd⟩ := e
      exact (bne_iff_ne.1 hd) (h.same hl x hx)
    · intro e
      rw [Bool.and_eq_true, Bool.not_eq_true'] at e
      rcases h.free with g | g
      · rw [g] at e; cases e.1
      · rw [g] at e; cases e.2

theorem discard_power (s : State) : (discardWork s).pwr = s.pwr ∧ (discardWork s).mem = s.mem := by
  have k : Keeps (· ∈ [.regs, .allocs, .descs, .graphs, .stages, .jobs, .waits, .voids, .dep, .respLog, .lotRing, .jnl,
      .txQueue, .sessions, .outs, .orphans, .nonces, .mgmt, .port, .arrays, .cores, .hoists, .scatters, .assays,
      .chutes, .counters]) s (discardWork s) := by
    have can := Can.all [.regs, .allocs, .descs, .graphs, .stages, .jobs, .waits, .voids, .dep, .respLog, .lotRing, .jnl,
      .txQueue, .sessions, .outs, .orphans, .nonces, .mgmt, .port, .arrays, .cores, .hoists, .scatters, .assays,
      .chutes, .counters]
    exact discardWork_keeps (.refl s)
  exact ⟨keeps_power k (by decide) (by decide) (by decide) (by decide) (by decide) (by decide), k.field .mem (by decide)⟩

end Sys2Proof.Machine
end

