-- ==== Sys2Proof/Laws/Frames.lean ====
section
/-! SUPPORT. Frames at the port: what the operations do. -/

-- one theorem after the other: proofs side by side would need more memory than the check allows
set_option Elab.async false

namespace Sys2Proof.Machine

open Sys2Proof.Safety

theorem counts_refl (s : State) : Counts [] [] s s :=
  ⟨by simp, by simp, fun a => .inr rfl, rfl, fun p => .inr (same_refl p s)⟩

theorem sameBut_regs {s y t : State} (h : SameBut [.regs] s y) (k : SameBut [.regs] y t) : SameBut [.regs] s t :=
  ⟨k.1.trans h.1, fun p => (k.2 p).elim .inl fun e => (h.2 p).elim .inl fun d => .inr (same_trans d e)⟩

/-- One more counter counts. -/
theorem counts_count {l : List Nat} {fl : List (Nat × Nat)} {s y : State} (h : Counts l fl s y) (b o : Nat) (h1 : b + o ∉ l)
    (h2 : b + o ∉ fl.map (·.1)) : Counts (l ++ [b + o]) fl s (count y b o 1) := by
  refine ⟨fun a ha => ?_, fun f hf => ?_, fun a => ?_, sameBut_regs h.frame ?_⟩
  · rw [List.mem_append, List.mem_singleton] at ha
    unfold Counted
    by_cases e : a = b + o
    · subst e
      rw [rawReg_count_self, (h.others _).resolve_left (by simpa using ⟨h1, by simpa using h2⟩)]
    · rw [rawReg_count_other y e]
      exact h.counted a (ha.resolve_right e)
  · unfold BitSet
    rw [rawReg_count_other y fun e => h2 (List.mem_map.2 ⟨f, hf, e⟩)]
    exact h.flags f hf
  · by_cases e : a = b + o
    · exact .inl (by simp [e])
    · rw [rawReg_count_other y e]
      refine (h.others a).imp (fun g => ?_) id
      rw [List.mem_append] at g ⊢
      exact g.imp (fun g => List.mem_append_left _ g) id
  · have can := Can.all [.regs]
    exact (count_keeps (.refl y) ..).sameBut

theorem bitSet_mono {s : State} {f : Nat × Nat} {b : Nat} {g : Nat × Nat} (h : BitSet f.1 f.2 s) : BitSet f.1 f.2 (raise s b g) := by
  unfold BitSet at *
  by_cases e : f.1 = b + g.1
  · unfold raise
    rw [e, rawReg_setRawReg_self, BitVec.getLsbD_or, ← e, h]
    rfl
  · rw [rawReg_raise_other _ e]
    exact h

/-- One more flag is raised. -/
theorem counts_raise {l : List Nat} {fl : List (Nat × Nat)} {s y : State} (h : Counts l fl s y) (b : Nat) (f : Nat × Nat) (h1 : b + f.1 ∉ l)
    (h2 : f.2 < 32) : Counts l (fl ++ [(b + f.1, f.2)]) s (raise y b f) := by
  refine ⟨fun a ha => ?_, fun g hg => ?_, fun a => ?_, sameBut_regs h.frame ?_⟩
  · unfold Counted
    rw [rawReg_raise_other _ fun e => h1 (by rw [← e]; exact ha)]
    exact h.counted a ha
  · rw [List.mem_append, List.mem_singleton] at hg
    rcases hg with hg | hg
    · exact bitSet_mono (h.flags g hg)
    · rw [hg]
      exact bitSet_raise y b f h2
  · by_cases e : a = b + f.1
    · exact .inl (by simp [e])
    · rw [rawReg_raise_other _ e]
      refine (h.others a).imp (fun g => ?_) id
      rw [List.map_append, ← List.append_assoc]
      exact List.mem_append_left _ g
  · have can := Can.all [.regs]
    exact (raise_keeps (.refl y) ..).sameBut

theorem counts_one (s : State) (o : Nat) : Counts [pc o] [] s (portCount s o) :=
  counts_count (counts_refl s) portBase o (by simp) (by simp)

theorem counts_two (s : State) (o p : Nat) (h : p ≠ o) : Counts [pc o, pc p] [] s (portCount (portCount s o) p) :=
  counts_count (counts_one s o) portBase p (by simp [pc]; omega) (by simp)

/-- A frame's data does not share its session with another's. -/
def apart (a b : TxFrame) : Prop :=
  a.cls = .data → b.cls = .data → frameSession a ≠ frameSession b

theorem lex_compare {p q r u v w : Nat} (h : p < q ∨ (p = q ∧ u < v)) (h1 : u ≠ w) (h2 : w ≠ v) :
    p < r ∨ (p = r ∧ u < w) ∨ r < q ∨ (r = q ∧ w < v) := by
  omega

theorem lex_asymm {p q u v : Nat} (h : p < q ∨ (p = q ∧ u < v)) : ¬(q < p ∨ (q = p ∧ v < u)) := by
  omega

theorem before_iff (x y : TxFrame) : txBefore x y = true ↔ classRank x.cls < classRank y.cls ∨
    (x.cls = .data ∧ y.cls = .data ∧ frameSession x ≠ frameSession y ∧
      (x.dry < y.dry ∨ (x.dry = y.dry ∧ frameSession x < frameSession y))) := by
  unfold txBefore
  by_cases h : x.cls = y.cls
  · rw [if_pos h, h]
    simp [and_assoc]
  · rw [if_neg h, decide_eq_true_eq]
    exact ⟨.inl, fun g => g.elim id fun g => absurd (g.1.trans g.2.1.symm) h⟩

theorem before_compare {a b c : TxFrame} (h : txBefore a b = true) (hac : apart a c) (hcb : apart c b) :
    txBefore a c = true ∨ txBefore c b = true := by
  have key : ∀ x y : TxFrame, txBefore x y = true ↔ classRank x.cls < classRank y.cls ∨
      (x.cls = .data ∧ y.cls = .data ∧ frameSession x ≠ frameSession y ∧
        (x.dry < y.dry ∨ (x.dry = y.dry ∧ frameSession x < frameSession y))) := before_iff
  rw [key] at h
  rw [key, key]
  rcases h with h | ⟨ha, hb, h1, h2⟩
  · by_cases hx : classRank a.cls < classRank c.cls
    · exact .inl (.inl hx)
    · exact .inr (.inl (by omega))
  · rw [ha, hb]
    cases hc : c.cls with
    | data =>
      have g1 := hac ha hc
      have g2 := hcb hc hb
      have h1' : a.dry < c.dry ∨ (a.dry = c.dry ∧ frameSession a < frameSession c) ∨ c.dry < b.dry ∨ (c.dry = b.dry ∧ frameSession c < frameSession b) :=
        lex_compare h2 g1 g2
      rcases h1' with g | g | g | g
      · exact .inl (.inr ⟨rfl, rfl, g1, .inl g⟩)
      · exact .inl (.inr ⟨rfl, rfl, g1, .inr g⟩)
      · exact .inr (.inr ⟨rfl, rfl, g2, .inl g⟩)
      · exact .inr (.inr ⟨rfl, rfl, g2, .inr g⟩)
    | control => exact .inr (.inl (by decide))
    | management => exact .inr (.inl (by decide))

theorem before_asymm {a b : TxFrame} (h : txBefore a b = true) : txBefore b a = false := by
  cases e : txBefore b a with
  | false => rfl
  | true =>
    rw [before_iff] at h e
    rcases h with h | ⟨ha, hb, h1, h2⟩
    · rcases e with e | ⟨ha, hb, -, -⟩
      · omega
      · rw [ha, hb] at h
        exact absurd h (Nat.lt_irrefl _)
    · rw [ha, hb] at e
      rcases e with e | ⟨-, -, -, h3⟩
      · exact absurd e (Nat.lt_irrefl _)
      · exact absurd h3 (lex_asymm h2)

theorem maySend_apart {s : State} {i j : Nat} {f g : TxFrame} (h : MaySend s i f) (k : MaySend s j g) (hij : i ≠ j) : apart f g := by
  intro hf hg e
  rcases Nat.lt_or_ge i j with hl | hl
  · exact k.2.2 ⟨hg, i, f, hl, h.1, hf, e⟩
  · exact h.2.2 ⟨hf, j, g, by omega, k.1, hg, e.symm⟩

/-- What the choice among the first `n` frames has come to. -/
def Chosen (s : State) (n : Nat) (best : Option Nat) : Prop :=
  (best = none ∧ ∀ i f, i < n → ¬ MaySend s i f) ∨
  ∃ i f, best = some i ∧ i < n ∧ MaySend s i f ∧ ∀ j g, j < n → MaySend s j g → txBefore g f = false ∧ (j < i → txBefore f g = true)

theorem maySend_lt {s : State} {i : Nat} {f : TxFrame} (h : MaySend s i f) : i < s.port.txQueue.length :=
  (List.getElem?_eq_some_iff.1 h.1).1

theorem before_irrefl (f : TxFrame) : txBefore f f = false := by
  unfold txBefore
  rw [if_pos rfl]
  simp

theorem blocked_iff {s : State} {i : Nat} {f : TxFrame} :
    (f.cls = .data ∧ (s.port.txQueue.take i).any (fun g => g.cls == .data && frameSession g == frameSession f) = true) ↔
    (f.cls = .data ∧ ∃ j g, j < i ∧ s.port.txQueue[j]? = some g ∧ g.cls = .data ∧ frameSession g = frameSession f) := by
  refine and_congr_right fun _ => ?_
  rw [List.any_eq_true]
  constructor
  · rintro ⟨g, hg, hp⟩
    rw [Bool.and_eq_true, beq_iff_eq, beq_iff_eq] at hp
    obtain ⟨j, hj⟩ := List.getElem?_of_mem hg
    rw [List.getElem?_take] at hj
    split at hj
    · rename_i hlt
      exact ⟨j, g, hlt, hj, hp.1, hp.2⟩
    · cases hj
  · rintro ⟨j, g, hlt, hj, h1, h2⟩
    refine ⟨g, ?_, by rw [h1, h2]; simp⟩
    refine List.mem_of_getElem? (i := j) ?_
    rw [List.getElem?_take, if_pos hlt]
    exact hj

theorem chosen_all (s : State) : Chosen s s.port.txQueue.length (nextFrame s) := by
  unfold nextFrame
  dsimp only
  generalize hn : s.port.txQueue.length = n
  have hle : n ≤ s.port.txQueue.length := by omega
  clear hn
  induction n with
  | zero => exact .inl ⟨rfl, fun i f h => by omega⟩
  | succ n ih =>
    specialize ih (by omega)
    rw [List.range_succ, List.foldl_append, List.foldl_cons, List.foldl_nil]
    generalize List.foldl _ none (List.range n) = best at ih
    obtain ⟨f, hf⟩ : ∃ f, s.port.txQueue[n]? = some f := ⟨_, List.getElem?_eq_getElem (by omega)⟩
    rw [hf]
    dsimp only
    have skip : ¬ MaySend s n f → Chosen s (n + 1) best := fun hno => by
      have only : ∀ g, ¬ MaySend s n g := fun g hg => by
        have : g = f := by rw [hg.1] at hf; exact Option.some.inj hf
        exact hno (this ▸ hg)
      rcases ih with ⟨e, h⟩ | ⟨i, g, e, hi, hg, h⟩
      · refine .inl ⟨e, fun j g hj hg => ?_⟩
        by_cases hjn : j = n
        · exact only g (hjn ▸ hg)
        · exact h j g (by omega) hg
      · refine .inr ⟨i, g, e, by omega, hg, fun j k hj hk => ?_⟩
        by_cases hjn : j = n
        · exact absurd (hjn ▸ hk) (only k)
        · exact h j k (by omega) hk
    split
    · rename_i hp
      exact skip fun h => by rw [h.2.1] at hp; cases hp
    · rename_i hp
      split
      · rename_i hb
        exact skip fun h => h.2.2 (blocked_iff.1 hb)
      · rename_i hb
        have hm : MaySend s n f := ⟨hf, by simpa using hp, fun h => hb (blocked_iff.2 h)⟩
        rcases ih with ⟨e, h⟩ | ⟨i, g, e, hi, hg, h⟩
        · rw [e]
          refine .inr ⟨n, f, rfl, by omega, hm, fun j k hj hk => ?_⟩
          by_cases hjn : j = n
          · subst hjn
            have : k = f := by rw [hk.1] at hf; exact Option.some.inj hf
            rw [this]
            exact ⟨before_irrefl f, fun h => by omega⟩
          · exact absurd hk (h j k (by omega))
        · rw [e]
          dsimp only
          rw [hg.1]
          dsimp only
          split
          · rename_i hbf
            refine .inr ⟨n, f, rfl, by omega, hm, fun j k hj hk => ?_⟩
            by_cases hjn : j = n
            · subst hjn
              have : k = f := by rw [hk.1] at hf; exact Option.some.inj hf
              rw [this]
              exact ⟨before_irrefl f, fun h => by omega⟩
            · have hx : txBefore f k = true := by
                by_cases hji : j = i
                · subst hji
                  have : k = g := by
                    have := hk.1.symm.trans hg.1
                    exact Option.some.inj this
                  rw [this]
                  exact hbf
                · rcases before_compare hbf (maySend_apart hm hk (by omega)) (maySend_apart hk hg hji) with q | q
                  · exact q
                  · rw [(h j k (by omega) hk).1] at q
                    cases q
              exact ⟨before_asymm hx, fun _ => hx⟩
          · rename_i hbf
            refine .inr ⟨i, g, rfl, by omega, hg, fun j k hj hk => ?_⟩
            by_cases hjn : j = n
            · subst hjn
              have : k = f := by rw [hk.1] at hf; exact Option.some.inj hf
              rw [this]
              exact ⟨by simpa using hbf, fun h => by omega⟩
            · exact h j k (by omega) hk

theorem tget_setPauses (p : Table Nat) (en : Nat) (times : List Nat) (k : Nat) (hk : k < 8) :
    tget (setPauses p en times) 0 k = if bitAt en k then times.getD k 0 % 65536 else tget p 0 k := by
  have key : ∀ n p, tget ((List.range n).foldl (fun p k => if bitAt en k then tset p 0 k (times.getD k 0 % 65536) else p) p) 0 k =
      if k < n ∧ bitAt en k = true then times.getD k 0 % 65536 else tget p 0 k := by
    intro n p
    induction n with
    | zero => simp
    | succ n ih =>
      rw [List.range_succ, List.foldl_append, List.foldl_cons, List.foldl_nil]
      by_cases hkn : k = n
      · subst hkn
        by_cases hb : bitAt en k = true
        · rw [if_pos hb, tget_tset_self, if_pos ⟨by omega, hb⟩]
        · rw [if_neg hb, ih, if_neg (by omega), if_neg (by simp [hb])]
      · have e : (if bitAt en n = true then tset ((List.range n).foldl (fun p k => if bitAt en k then tset p 0 k (times.getD k 0 % 65536) else p) p) 0 n
            (times.getD n 0 % 65536) else (List.range n).foldl (fun p k => if bitAt en k then tset p 0 k (times.getD k 0 % 65536) else p) p) = _ := rfl
        by_cases hb : bitAt en n = true
        · rw [if_pos hb, tget_tset_other _ _ _ hkn, ih]
          by_cases h2 : k < n ∧ bitAt en k = true
          · rw [if_pos h2, if_pos ⟨by omega, h2.2⟩]
          · rw [if_neg h2, if_neg fun h => h2 ⟨by omega, h.2⟩]
        · rw [if_neg hb, ih]
          by_cases h2 : k < n ∧ bitAt en k = true
          · rw [if_pos h2, if_pos ⟨by omega, h2.2⟩]
          · rw [if_neg h2, if_neg fun h => h2 ⟨by omega, h.2⟩]
  unfold setPauses
  rw [key]
  by_cases hb : bitAt en k = true
  · rw [if_pos ⟨hk, hb⟩, if_pos hb]
  · rw [if_neg fun h => hb h.2, if_neg hb]

theorem rx_push {s : State} (f : TxFrame) : let t := pushTx (portCount s Ctr.PORT_RX_FRAME_CNT) f
    Counted (pc Ctr.PORT_RX_FRAME_CNT) 1 s t ∧ SameBut [.regs, .txQueue] s t ∧ t.port.txQueue = s.port.txQueue ++ [f] := by
  have can := Can.all [.regs, .txQueue]
  exact ⟨(counts_one s Ctr.PORT_RX_FRAME_CNT).counted _ (.head _), (pushTx_keeps (portCount_keeps (.refl s) _) _).sameBut, rfl⟩

/-- The filters of every row that receives a frame. -/
theorem frame_row {s : State} {c : Instr} {f : RxFrame} {k : Bool} (h : frameOf s c = some (f, k)) :
    (c = .rxFrameError f ∧ exec c s = .next (if sizeOk f && fcsGood f && k then s else (receiveFrame s f k).1)) ∨
    ((receiveFrame s f k).2 = false → exec c s = .next (receiveFrame s f k).1) := by
  have ilt : ∀ (p : IltPacket) (n : Nat), (receiveFrame s f (udpTo s f s.pwr.config.iltPort)).2 = false →
      iltFrame s f p n = ((receiveFrame s f (udpTo s f s.pwr.config.iltPort)).1, false) := fun p n e => by
    unfold iltFrame
    split
    · rename_i s1 he
      rw [he] at e
      cases e
    · rename_i s1 he
      rw [he]
  cases c <;> simp only [frameOf, Option.some.injEq, Prod.mk.injEq, reduceCtorEq] at h
  case rxFrameError g =>
    obtain ⟨rfl, rfl⟩ := h
    exact .inl ⟨rfl, rfl⟩
  case arpRequest g a =>
    obtain ⟨rfl, rfl⟩ := h
    refine .inr fun e => congrArg Host.Outcome.next ?_
    unfold arpRequest
    split
    · rename_i s1 he
      exact absurd ((congrArg Prod.snd he).symm.trans e) (by simp)
    · rename_i s1 he
      exact (congrArg Prod.fst he).symm
  case neighborSolicitation g a =>
    obtain ⟨rfl, rfl⟩ := h
    refine .inr fun e => congrArg Host.Outcome.next ?_
    unfold neighborSolicitation
    dsimp only
    split
    · rename_i s1 he
      exact absurd ((congrArg Prod.snd he).symm.trans e) (by simp)
    · rename_i s1 he
      exact (congrArg Prod.fst he).symm
  case pfcFrame g a b d =>
    obtain ⟨rfl, rfl⟩ := h
    refine .inr fun e => congrArg Host.Outcome.next ?_
    unfold pfcFrame
    split
    · rename_i s1 he
      exact absurd ((congrArg Prod.snd he).symm.trans e) (by simp)
    · rename_i s1 he
      exact (congrArg Prod.fst he).symm
  case pauseFrame g =>
    obtain ⟨rfl, rfl⟩ := h
    refine .inr fun e => congrArg Host.Outcome.next ?_
    unfold pauseFrame
    split
    · rename_i s1 he
      exact absurd ((congrArg Prod.snd he).symm.trans e) (by simp)
    · rename_i s1 he
      exact (congrArg Prod.fst he).symm
  case mgmtFrameReceive r =>
    obtain ⟨rfl, rfl⟩ := h
    refine .inr fun e => congrArg Host.Outcome.next ?_
    unfold mgmtFrameReceive
    split
    · rename_i s1 he
      exact absurd ((congrArg Prod.snd he).symm.trans e) (by simp)
    · rename_i s1 he
      exact (congrArg Prod.fst he).symm
  all_goals
    obtain ⟨rfl, rfl⟩ := h
    refine .inr fun e => congrArg Host.Outcome.next ?_
  · unfold dataPacket; rw [ilt _ _ e]
  · unfold ackPacket; rw [ilt _ _ e]
  · unfold nakPacket; rw [ilt _ _ e]
  · unfold tailPacket; rw [ilt _ _ e]
  · unfold closePacket; rw [ilt _ _ e]
  · unfold resetPacket; rw [ilt _ _ e]

theorem receive_gives (s : State) (f : RxFrame) (k : Bool) :
    (portLive s = false → receiveFrame s f k = (s, false)) ∧
    (portLive s = true → sizeOk f = false → receiveFrame s f k = (portCount (frameEnds s f) Ctr.PORT_SIZE_ERR_CNT, false)) ∧
    (portLive s = true → sizeOk f = true → fcsGood f = false → receiveFrame s f k = (portCount (frameEnds s f) Ctr.PORT_FCS_ERR_CNT, false)) ∧
    (Received s f → receiveFrame s f k = if k then (portCount (frameEnds s f) Ctr.PORT_RX_FRAME_CNT, true)
      else (portCount (portCount (frameEnds s f) Ctr.PORT_RX_FRAME_CNT) Ctr.PORT_FILTER_DROP_CNT, false)) := by
  refine ⟨fun h => ?_, fun h h1 => ?_, fun h h1 h2 => ?_, fun h => ?_⟩
  all_goals unfold receiveFrame
  · rw [if_pos (by rw [h]; rfl)]
  · rw [if_neg (by rw [h]; decide)]; dsimp only; rw [if_pos (by rw [h1]; rfl)]
  · rw [if_neg (by rw [h]; decide)]; dsimp only; rw [if_neg (by rw [h1]; decide), if_pos (by rw [h2]; rfl)]
  · obtain ⟨h1, h2, h3, h4, h5⟩ := h
    have hs : sizeOk f = true := by simp [sizeOk, h2, h3]
    have hf : fcsGood f = true := by simp [fcsGood, h4, h5]
    rw [if_neg (by rw [h1]; decide)]; dsimp only; rw [if_neg (by rw [hs]; decide), if_neg (by rw [hf]; decide)]

theorem received_ok {s : State} {f : RxFrame} (h : Received s f) : receiveFrame s f true = (portCount (frameEnds s f) Ctr.PORT_RX_FRAME_CNT, true) := by
  rw [(receive_gives s f true).2.2.2 h]
  rfl

end Sys2Proof.Machine
end

