-- ==== Sys2Proof/Laws/Ilts.lean ====
section
/-! SUPPORT. The inter-module link's packets: what the operations do. -/

-- one theorem after the other: proofs side by side would need more memory than the check allows
set_option Elab.async false

namespace Sys2Proof.Machine

open Sys2Proof.Safety

theorem sendAck_gives (s : State) (i : Nat) : AckSent i s (sendAck s i) := by
  refine ⟨rfl, ?_⟩
  have can := Can.all [.txQueue]
  exact (sendAck_keeps (.refl s) i).sameBut

theorem setSession_is (s : State) (i : Nat) (x : Session) : SessionIs i x s (setSession s i x) := by
  have can := Can.all [.sessions]
  exact ⟨tget_tset_self s.port.sessions {} i x, fun j h => tget_tset_other s.port.sessions {} x h, (setSession_keeps (.refl s) ..).sameBut⟩

theorem sendNakNow_keeps' (s : State) (i reason : Nat) : SameBut [.regs, .txQueue, .sessions] s (sendNakNow s i reason) := by
  have can := Can.all [.regs, .txQueue, .sessions]
  unfold sendNakNow
  exact (count_keeps (pushTx_keeps (setSession_keeps (.refl s) ..) _) ..).sameBut

theorem sendNakNow_gives (s : State) (i reason : Nat) : NakSent i reason s (sendNakNow s i reason) := by
  obtain ⟨y, ey⟩ : ∃ y, y = setSession s i { getSession s i with nakAt := some s.clk.now, nakReason := reason } := ⟨_, rfl⟩
  obtain ⟨u, eu⟩ : ∃ u, u = pushTx y (iltControl y i iltNak (getSession s i).expPsn (getSession s i).grants (BitVec.ofNat 32 reason)) := ⟨_, rfl⟩
  have e : sendNakNow s i reason = count u portBase Ctr.PORT_NAK_TX_CNT 1 := by rw [eu, ey]; rfl
  obtain ⟨y1, y2, -⟩ := setSession_is s i { getSession s i with nakAt := some s.clk.now, nakReason := reason }
  rw [← ey] at y1 y2
  have ur : ∀ a, rawReg u a = rawReg s a := fun a => by rw [eu, ey]; rfl
  refine ⟨?_, fun j h => ?_, ?_, ⟨?_, fun a => ?_⟩, sendNakNow_keeps' s i reason⟩
  · rw [e, eu]; exact y1
  · rw [e, eu]; exact y2 j h
  · have : iltControl y i iltNak (getSession s i).expPsn (getSession s i).grants (BitVec.ofNat 32 reason) =
        controlOf s i 3 (getSession s i).grants (BitVec.ofNat 32 reason) := by
      unfold iltControl controlOf
      rw [y1, ey]
      rfl
    rw [e]
    show u.port.txQueue = _
    rw [eu, this, ey]
    rfl
  · unfold Counted
    rw [e, ← ur]
    exact rawReg_count_self u portBase Ctr.PORT_NAK_TX_CNT 1
  · by_cases h : a = portBase + Ctr.PORT_NAK_TX_CNT
    · exact .inl (by simp [h, pc])
    · exact .inr (by rw [e, rawReg_count_other u h, ur])

theorem sendNak_gives (s : State) (i reason : Nat) : NakUnless i reason s (sendNak s i reason) := by
  unfold sendNak
  refine ⟨fun h => ?_, fun h => ?_⟩
  · rw [h]
    exact sendNakNow_gives s i reason
  · cases e : (getSession s i).nakAt with
    | none => exact absurd e h
    | some _ => rfl

theorem rxInOrder_some {s : State} {p : IltPacket} {data : Bool} {g : Nat → State → State} {i : Nat} (h : rxSession s p = some i) :
    rxInOrder s p data g =
      if !iltCrcOk p then rewindFrame (crcError s) i p data
      else if !headerOk p ((getSession s i).kind != .chute) then rewindFrame (dropPacket s) i p data
      else if !lengthOk p then rewindFrame s i p data
      else bySequence s i p.psn (g i) := by
  unfold rxInOrder
  rw [h]

theorem rxInOrder_sound {s : State} {p : IltPacket} {data : Bool} {g : Nat → State → State} {i : Nat} (h : rxSession s p = some i)
    (hs : SoundIlt p ((getSession s i).kind != .chute)) : rxInOrder s p data g = bySequence s i p.psn (g i) := by
  rw [rxInOrder_some h, if_neg (by rw [hs.1]; decide), if_neg (by rw [hs.2.1]; decide), if_neg (by rw [hs.2.2]; decide)]

theorem rewind_gives (y : State) (i : Nat) (p : IltPacket) (data : Bool) : let t := rewindFrame y i p data
    (p.psn ≠ (getSession y i).expPsn → t = y) ∧
    (p.psn = (getSession y i).expPsn → data = false → NakUnless i 2 y t) ∧
    (p.psn = (getSession y i).expPsn → data = true → ∃ u, Counts [hc i Ctr.CH_REWIND_CNT] [(hc i Flag.ch_REWIND.1, Flag.ch_REWIND.2)] y u ∧
      NakUnless i 2 u t) := by
  intro t
  refine ⟨fun h => if_neg h, fun h hd => ?_, fun h hd => ?_⟩
  · have e : t = sendNak y i 2 := by
      refine (if_pos h).trans ?_
      rw [hd]
      rfl
    rw [e]
    exact sendNak_gives y i 2
  · obtain ⟨u, eu⟩ : ∃ u, u = raise (count y (epRegBase (.hub (Fin.ofNat 2048 i))) Ctr.CH_REWIND_CNT 1) (epRegBase (.hub (Fin.ofNat 2048 i))) Flag.ch_REWIND := ⟨_, rfl⟩
    have e : t = sendNak u i 2 := by
      refine (if_pos h).trans ?_
      rw [hd, eu]
      rfl
    refine ⟨u, ?_, by rw [e]; exact sendNak_gives u i 2⟩
    rw [eu]
    exact counts_raise (counts_count (counts_refl y) _ Ctr.CH_REWIND_CNT (by simp) (by simp)) _ Flag.ch_REWIND (by simp [Ctr.CH_REWIND_CNT, Flag.ch_REWIND]) (by decide)

theorem packetArrive_gives (s : State) (ep : EndpointId) (p : Packet) : let r := arrive (getEp s ep) p (isHub ep) s.clk.now
    let t := (packetArrive s ep p).1
    (packetArrive s ep p).2 = r.2 ∧ EpIs ep r.1 s t ∧ RegsAs (countArrival s ep p r.2) t ∧ SameBut [.regs, .chutes] s t := by
  intro r t
  have et : t = countArrival (setEp s ep r.1) ep p r.2 := rfl
  have kc : Keeps (· ∈ [.regs]) (setEp s ep r.1) t := by
    have can := Can.all [.regs]
    rw [et]
    exact countArrival_keeps (.refl _) ..
  have k : SameBut [.regs, .chutes] s t := by
    have can := Can.all [.regs, .chutes]
    exact (packetArrive_keeps (.refl s) ep p).sameBut
  refine ⟨rfl, ⟨?_, fun x h => ?_⟩, ?_, k⟩
  · rw [getEp_congr (kc.field .chutes (by decide))]
    exact getEp_setEp_self ..
  · rw [getEp_congr (kc.field .chutes (by decide))]
    exact getEp_setEp_other _ _ h
  · rw [et]
    exact countArrival_regs_congr (s := s) (t := setEp s ep r.1) rfl ep p r.2

theorem psnCommitted_gives (s : State) (i : Nat) : SessionIs i (committedPsn (getSession s i)) s (psnCommitted s i) :=
  setSession_is s i _

theorem overCredit_gives (s : State) (i : Nat) : ∃ v, Counts [pc Ctr.PORT_OVERCREDIT_CNT] [pf Flag.port_OVERCREDIT] s v ∧ NakUnless i 3 v (overCredit s i) :=
  ⟨_, counts_raise (counts_one s Ctr.PORT_OVERCREDIT_CNT) portBase Flag.port_OVERCREDIT (by decide) (by decide), sendNak_gives ..⟩

theorem keeps_session {P : Part → Prop} {z t : State} (k : Keeps P z t) (h : ¬ P .sessions) (i : Nat) : getSession t i = getSession z i := by
  have e : t.port.sessions = z.port.sessions := k.field .sessions h
  unfold getSession
  rw [e]

theorem hub_count (s : State) (i c : Nat) (f : Nat × Nat) (h : f.1 ≠ c) (h2 : f.2 < 32) :
    Counts [hc i c] [(hc i f.1, f.2)] s (raise (count s (epRegBase (.hub (Fin.ofNat 2048 i))) c 1) (epRegBase (.hub (Fin.ofNat 2048 i))) f) :=
  counts_raise (counts_count (counts_refl s) _ c (by simp) (by simp)) _ f (by simp; omega) h2

theorem lotError_gives (s : State) : Counts [pc Ctr.PORT_LOT_ERR_CNT] [pf Flag.port_LOT_ERR] s (lotError s) :=
  counts_raise (counts_one s Ctr.PORT_LOT_ERR_CNT) portBase Flag.port_LOT_ERR (by decide) (by decide)

theorem startWrite_writes (s : State) (use : WriteUse) (kind : RecordKind) (key : Nat) (bytes : List Byte) :
    ∃ w : PendingWrite, (startWrite s use kind key bytes).jnl.pendingWrites = s.jnl.pendingWrites ++ [w] ∧
      (w.id, w.use, w.local_) = (s.jnl.nextId, use, false) ∧ (w.mirrorLsn.isSome = s.pwr.config.twin) := by
  have hm : ∀ z r, (sendMirror z r).jnl.pendingWrites = z.jnl.pendingWrites := fun z r => by
    have can := Can.all [.txQueue, .outs]
    have k : Keeps (· ∈ [.txQueue, .outs]) z (sendMirror z r) := sendMirror_keeps (.refl z) r
    have e := k.field .jnl (by decide)
    simp only [Part.same] at e
    exact (congrArg Journal.pendingWrites e : _)
  unfold startWrite mirrored
  dsimp only
  cases h : s.pwr.config.twin with
  | true => exact ⟨_, hm .., rfl, rfl⟩
  | false => exact ⟨_, rfl, rfl, rfl⟩

theorem startWrite_keeps' (s : State) (use : WriteUse) (kind : RecordKind) (key : Nat) (bytes : List Byte) :
    Keeps (· ∈ [.jnl, .txQueue, .outs]) s (startWrite s use kind key bytes) := by
  have can := Can.all [.jnl, .txQueue, .outs]
  exact startWrite_keeps (.refl s) ..

theorem forSender_out {z : State} {f : RxFrame} {p : IltPacket} {k : Nat} (h : outSession z f p = some k) (lot out : Nat → State → State) :
    forSender z f p lot out = if !iltCrcOk p then crcError z else if !headerOk p true || !lengthOk p then dropPacket z else out k z := by
  unfold forSender
  rw [h]

theorem forSender_lot {z : State} {f : RxFrame} {p : IltPacket} {i : Nat} (h : outSession z f p = none) (hi : FromPeer z f p i)
    (lot out : Nat → State → State) :
    forSender z f p lot out = if !iltCrcOk p then crcError z else if !headerOk p true || !lengthOk p then dropPacket z else lot i z := by
  unfold forSender
  rw [h, hi.1]
  exact if_pos hi.2

theorem forSender_none {z : State} {f : RxFrame} {p : IltPacket} (h : outSession z f p = none) (hi : ∀ i, ¬ FromPeer z f p i)
    (lot out : Nat → State → State) : forSender z f p lot out = dropPacket z := by
  unfold forSender
  rw [h]
  dsimp only
  cases e : rxSession z p with
  | none => rfl
  | some i => exact if_neg fun h => hi i ⟨e, h⟩

theorem sound_if {p : IltPacket} (h : SoundIlt p true) {a b c : State} :
    (if !iltCrcOk p then a else if !headerOk p true || !lengthOk p then b else c) = c := by
  rw [h.1, h.2.1, h.2.2]
  rfl

theorem pumpList_kind (s : State) (dry : Time) (l : List TxData) : ∀ o : OutSession, (pumpList s dry l o).1.kind = o.kind := by
  induction l with
  | nil => exact fun o => rfl
  | cons d l ih =>
    intro o
    unfold pumpList
    split
    · refine (ih _).trans ?_
      unfold outSend
      dsimp only
      split <;> rfl
    · rfl

theorem outs_set_self (s : State) {k : Nat} {o : OutSession} (h : s.port.outs[k]? = some o) (u : OutSession) :
    (s.port.outs.set k u)[k]? = some u := by
  rw [List.getElem?_set_self]
  exact (List.getElem?_eq_some_iff.mp h).1

theorem updOut_some {s : State} {k : Nat} {o : OutSession} (h : s.port.outs[k]? = some o) (g : OutSession → OutSession) :
    updOut s k g = withOut s k (g o) := by
  unfold updOut
  rw [h]
  rfl

theorem withOut_outs {s : State} {k : Nat} {o : OutSession} (h : s.port.outs[k]? = some o) (u : OutSession) :
    (withOut s k u).port.outs[k]? = some u := outs_set_self s h u

theorem pumpOut_kind {s : State} {k : Nat} {o : OutSession} (h : s.port.outs[k]? = some o) :
    (pumpOut s k).port.outs[k]?.map (·.kind) = some o.kind := by
  unfold pumpOut
  rw [h]
  dsimp only
  split
  · show Option.map _ (s.port.outs.set k _)[k]? = _
    rw [outs_set_self s h]
    exact congrArg some (pumpList_kind ..)
  · rw [h]
    rfl

theorem keepUnacked_splits (l : List TxData) (next : Word) : ∃ acked, l = acked ++ keepUnacked l next ∧ (∀ d ∈ acked, psnOld d.psn next = true) ∧
    (∀ d rest, keepUnacked l next = d :: rest → psnOld d.psn next = false) := by
  induction l with
  | nil => exact ⟨[], rfl, fun d h => (by cases h), fun d rest h => (by cases h)⟩
  | cons a l ih =>
    cases h : psnOld a.psn next with
    | true =>
      have e : keepUnacked (a :: l) next = keepUnacked l next := List.dropWhile_cons_of_pos h
      obtain ⟨acked, h1, h2, h3⟩ := ih
      refine ⟨a :: acked, ?_, fun d hd => ?_, fun d rest hk => h3 d rest (e ▸ hk)⟩
      · rw [e, List.cons_append, ← h1]
      · rcases List.mem_cons.mp hd with hd | hd
        · exact hd ▸ h
        · exact h2 d hd
    | false =>
      have e : keepUnacked (a :: l) next = a :: l := List.dropWhile_cons_of_neg (by rw [show ackedBy next a.psn = false from h]; decide)
      refine ⟨[], by rw [e]; rfl, fun d hd => (by cases hd), fun d rest hk => ?_⟩
      rw [e] at hk
      injection hk with h1 h2
      exact h1 ▸ h

/-- What of a sending session a frame of it shows. -/
abbrev outName (o : OutSession) : Nat × SessionKind × Nat × Word :=
  (o.peer, o.kind, o.session, o.token)

theorem outSend_name (o : OutSession) (d : TxData) : outName (outSend o d) = outName o := by
  unfold outSend outName
  dsimp only
  split <;> rfl

theorem outSend_unacked (o : OutSession) (d : TxData) : (outSend o d).unacked = o.unacked ++ [{ d with sends := 1 }] := by
  unfold outSend
  dsimp only
  split <;> rfl

theorem outData_name (s : State) {o u : OutSession} (h : outName o = outName u) (dry : Time) (d : TxData) : outData s o dry d = outData s u dry d := by
  simp only [outName, Prod.mk.injEq] at h
  unfold outData outFrame
  rw [h.1, h.2.1, h.2.2.1, h.2.2.2]

theorem pumpList_sends (s : State) (dry : Time) (l : List TxData) : ∀ o : OutSession, ∃ sent rest, l = sent ++ rest ∧
    (∀ d w, rest = d :: w → outCredit (sent.foldl outSend o) d = false) ∧
    (sent.foldl outSend o).unacked = o.unacked ++ sent.map (fun d => { d with sends := 1 }) ∧
    pumpList s dry l o = ({ sent.foldl outSend o with waiting := rest }, sent.map (outData s o dry)) := by
  induction l with
  | nil => exact fun o => ⟨[], [], rfl, fun d w h => (by cases h), (List.append_nil _).symm, rfl⟩
  | cons a l ih =>
    intro o
    unfold pumpList
    cases h : outCredit o a with
    | true =>
      obtain ⟨sent, rest, h1, h2, h3, h4⟩ := ih (outSend o a)
      refine ⟨a :: sent, rest, by rw [h1]; rfl, h2, ?_, ?_⟩
      · refine h3.trans ?_
        rw [outSend_unacked, List.append_assoc]
        rfl
      · rw [if_pos rfl, h4]
        refine congrArg (Prod.mk _) ?_
        exact congrArg (List.cons _) (List.map_congr_left fun d _ => outData_name s (outSend_name o a) dry d)
    | false =>
      refine ⟨[], a :: l, rfl, fun d w e => ?_, (List.append_nil _).symm, ?_⟩
      · injection e with e1 e2
        exact e1 ▸ h
      · exact if_neg (by decide)

theorem find_again (l : List TxData) (psn : Word) : l.find? (fun d => !psnOld d.psn psn) = (l.filter fun d => !psnOld d.psn psn).head? :=
  (List.head?_filter ..).symm

/-- Sessions alike in what a frame of a response shows. -/
abbrev peerName (x : Session) : Nat × Nat × Nat × Word :=
  (x.peerMac, x.peerIp, x.peerPort, x.token)

theorem responseFrame_congr {s t : State} {i : Nat} (h1 : peerName (getSession t i) = peerName (getSession s i)) (h2 : t.pwr = s.pwr)
    (h3 : t.clk = s.clk) (d : TxData) : responseFrame t i d = responseFrame s i d := by
  simp only [peerName, Prod.mk.injEq] at h1
  unfold responseFrame undatedDry
  dsimp only
  rw [h1.1, h1.2.1, h1.2.2.1, h1.2.2.2, h2, h3]

theorem unackedBytes_append (x : Session) (d : TxData) (n : Word) :
    unackedBytes { x with unacked := x.unacked ++ [{ d with sends := 1 }], sendPsn := n } = unackedBytes x + d.bytes.length := by
  unfold unackedBytes
  dsimp only
  rw [List.map_append, List.sum_append]
  simp

theorem sendPackets_sends (i : Nat) (l : List TxData) : ∀ s : State, let x := getSession s i
    let t := sendPackets i l s
    ∃ n, n ≤ l.length ∧ t.port.txQueue = s.port.txQueue ++ (l.take n).map (responseFrame s i) ∧
      getSession t i = { x with
        unacked := x.unacked ++ (l.take n).map (fun d => { d with sends := 1 })
        sendPsn := x.sendPsn + BitVec.ofNat 32 n } ∧
      (∀ j, j ≠ i → getSession t j = getSession s j) ∧
      (n ≠ 0 → unackedBytes (getSession t i) ≤ x.respWindow) ∧
      (∀ d, l[n]? = some d → x.respWindow < unackedBytes (getSession t i) + d.bytes.length) := by
  have none (s : State) (w : List TxData) : let x := getSession s i
      s.port.txQueue = s.port.txQueue ++ (w.take 0).map (responseFrame s i) ∧
      getSession s i = { x with
        unacked := x.unacked ++ (w.take 0).map (fun d => { d with sends := 1 })
        sendPsn := x.sendPsn + BitVec.ofNat 32 0 } := by
    intro x
    refine ⟨by simp, ?_⟩
    have e1 : x.unacked ++ (w.take 0).map (fun d => { d with sends := 1 }) = x.unacked := by simp
    have e2 : x.sendPsn + BitVec.ofNat 32 0 = x.sendPsn := by simp
    rw [e1, e2]
  induction l with
  | nil =>
    intro s x t
    obtain ⟨h1, h2⟩ := none s []
    exact ⟨0, Nat.le_refl _, h1, h2, fun _ _ => rfl, fun h => absurd rfl h, fun d h => (by cases h)⟩
  | cons d l ih =>
    intro s x t
    by_cases h : unackedBytes x + d.bytes.length ≤ x.respWindow
    · obtain ⟨y, ey⟩ : ∃ y, y = pushTx s (responseFrame s i d) := ⟨_, rfl⟩
      obtain ⟨z, ez⟩ : ∃ z, z = setSession y i { x with
          unacked := x.unacked ++ [{ d with sends := 1 }]
          sendPsn := x.sendPsn + 1 } := ⟨_, rfl⟩
      have et : t = sendPackets i l z := by
        show sendPackets i (d :: l) s = _
        rw [ez, ey]
        exact if_pos h
      obtain ⟨z1, z2, -⟩ := setSession_is y i { x with
          unacked := x.unacked ++ [{ d with sends := 1 }]
          sendPsn := x.sendPsn + 1 }
      rw [← ez] at z1 z2
      obtain ⟨n, n1, n2, n3, n4, n5, n6⟩ := ih z
      rw [← et] at n2 n3 n4 n5 n6
      have hf : ∀ d, responseFrame z i d = responseFrame s i d := responseFrame_congr (by rw [z1]) (by rw [ez, ey]; rfl) (by rw [ez, ey]; rfl)
      have hq : z.port.txQueue = s.port.txQueue ++ [responseFrame s i d] := by rw [ez, ey]; rfl
      refine ⟨n + 1, Nat.succ_le_succ n1, ?_, ?_, fun j hj => ?_, fun _ => ?_, fun d' hd => ?_⟩
      · rw [n2, hq, List.map_congr_left fun d _ => hf d]
        simp
      · rw [n3, z1]
        have e1 : (x.unacked ++ [{ d with sends := 1 }]) ++ (l.take n).map (fun d => { d with sends := 1 }) =
            x.unacked ++ ((d :: l).take (n + 1)).map (fun d => { d with sends := 1 }) := by simp
        have e2 : x.sendPsn + 1 + BitVec.ofNat 32 n = x.sendPsn + BitVec.ofNat 32 (n + 1) := by
          rw [Nat.add_comm n 1, BitVec.ofNat_add, BitVec.add_assoc]
          rfl
        dsimp only
        rw [e1, e2]
      · rw [n4 j hj, z2 j hj, ey]
        rfl
      · rw [z1] at n5 n6
        by_cases hn : n = 0
        · subst hn
          rw [n3, z1]
          simp only [List.take_zero, List.map_nil, List.append_nil]
          rw [show unackedBytes _ = _ from unackedBytes_append x d _]
          exact h
        · exact n5 hn
      · rw [z1] at n6
        exact n6 d' hd
    · have et : t = s := by
        show sendPackets i (d :: l) s = _
        exact if_neg h
      obtain ⟨h1, h2⟩ := none s (d :: l)
      rw [et]
      refine ⟨0, Nat.zero_le _, h1, h2, fun _ _ => rfl, fun h => absurd rfl h, fun d' hd => ?_⟩
      have : d' = d := by
        simp only [List.getElem?_cons_zero, Option.some.injEq] at hd
        exact hd.symm
      rw [this]
      exact Nat.lt_of_not_le h

theorem range_filter (p : Nat → Bool) (k : Nat) (hk : p k = true) (hu : ∀ j, p j = true → j = k) :
    ∀ n, (List.range n).filter p = if k < n then [k] else [] := by
  intro n
  induction n with
  | zero => rfl
  | succ n ih =>
    rw [List.range_succ, List.filter_append, ih]
    by_cases h : p n = true
    · have e := hu n h
      subst e
      rw [if_neg (Nat.lt_irrefl n), if_pos (Nat.lt_succ_self n), List.filter_cons_of_pos h]
      rfl
    · rw [List.filter_cons_of_neg h, List.filter_nil, List.append_nil]
      by_cases hn : k < n
      · rw [if_pos hn, if_pos (Nat.lt_succ_of_lt hn)]
      · have : ¬ k < n + 1 := fun hk' => h (by
          have : k = n := by omega
          exact this ▸ hk)
        rw [if_neg hn, if_neg this]

/-- The sending sessions with an index. -/
abbrev sendersOf (s : State) (i : Nat) : List Nat :=
  (List.range s.port.outs.length).filter fun k => (s.port.outs[k]?.map (·.session)) == some i

theorem sendersOf_none {s : State} {i : Nat} (h : NoneSends s i) : sendersOf s i = [] := by
  refine List.filter_eq_nil_iff.mpr fun k _ hk => ?_
  cases e : s.port.outs[k]? with
  | none =>
    rw [e] at hk
    exact absurd hk (by simp)
  | some o =>
    rw [e] at hk
    exact h o (List.mem_of_getElem? e) (by simpa using hk)

theorem sendersOf_only {s : State} {i k : Nat} {o : OutSession} (h : OnlySends s i k o) : sendersOf s i = [k] := by
  obtain ⟨h1, h2, h3⟩ := h
  unfold sendersOf
  rw [range_filter _ k (by rw [h1]; simpa using h2) (fun j hj => ?_), if_pos (List.getElem?_eq_some_iff.mp h1).1]
  cases e : s.port.outs[j]? with
  | none =>
    rw [e] at hj
    exact absurd hj (by simp)
  | some u =>
    rw [e] at hj
    exact h3 j u e (by simpa using hj)

theorem dropWhile_all {α : Type} (p : α → Bool) (l : List α) (h : ∀ a ∈ l, p a = true) : l.dropWhile p = [] := by
  induction l with
  | nil => rfl
  | cons a l ih =>
    rw [List.dropWhile_cons_of_pos (h a List.mem_cons_self)]
    exact ih fun b hb => h b (List.mem_cons_of_mem _ hb)

/-- RETRANSMIT_TIMEOUT of a LOT session's responses. -/
abbrev lotTimeout (s : State) (i : Nat) : State :=
  let x := getSession s i
  if x.kind = .lot then
    (match x.unacked with | d :: _ => retransmit s i d.psn | [] => s)
  else s

/-- RETRANSMIT_TIMEOUT of a session that this module sends in. -/
abbrev outTimeout (s : State) (k : Nat) : State :=
  match s.port.outs[k]?.bind (·.unacked.head?) with
  | some d => retransmitOut s k d.psn
  | none => s

theorem retransmitTimeout_eq (s : State) (i : Nat) : retransmitTimeout s i = (sendersOf (lotTimeout s i) i).foldl outTimeout (lotTimeout s i) := rfl

theorem acceptRecord_keeps' (s : State) (i : Nat) (lsn : Word) (n : Nat) : SameBut [.lotRing] s (acceptRecord s i lsn n) := by
  have can := Can.all [.lotRing]
  exact (acceptRecord_keeps (.refl s) ..).sameBut

/-- CHUTE_RESET_RETRY of the receiving session. -/
abbrev retryIn (s : State) (i : Nat) : State :=
  let x := getSession s i
  if x.kind = .chute ∧ 0 < x.resetSent ∧ x.resetSent < 16 ∧ x.resetSeen = false then
    pushTx (setSession s i { x with resetSent := x.resetSent + 1 }) (iltControl s i iltReset 0 0 0)
  else s

theorem chuteResetRetry_eq (s : State) (i : Nat) : chuteResetRetry s i = (sendersOf (retryIn s i) i).foldl resetRetryOut (retryIn s i) := rfl

theorem resetHub_gives (s : State) (i : Nat) (h : (getSession s i).kind = .chute) : ∃ y, SessionIs i { getSession s i with
      resetSent := 1
      resetSeen := false
      rxOpen := false
      rxBytes := []
      nakAt := none } s y ∧ resetHubSession s i = pushTx y (iltControl y i iltReset 0 0 0) ∧
      (y.clk = s.clk ∧ y.pwr = s.pwr ∧ y.chutes = s.chutes ∧ y.port.txQueue = s.port.txQueue) :=
  ⟨_, setSession_is .., if_pos h, rfl, rfl, rfl, rfl⟩

theorem resetChuteOnly_gives (s : State) (ep : EndpointId) : EpIs ep (resetEndpoint (getEp s ep)) s (resetChuteOnly s ep) ∧
    SameBut [.regs, .chutes] s (resetChuteOnly s ep) := by
  have can := Can.all [.regs, .chutes]
  have e : (resetChuteOnly s ep).chutes = (setEp s ep (resetEndpoint (getEp s ep))).chutes := by
    unfold resetChuteOnly
    dsimp only
    split <;> rfl
  refine ⟨⟨?_, fun x h => ?_⟩, (resetChuteOnly_keeps (.refl s) ep).sameBut⟩
  · rw [getEp_congr e]
    exact getEp_setEp_self ..
  · rw [getEp_congr e]
    exact getEp_setEp_other _ _ h

theorem resumeSession_gives (u : State) (i : Nat) (x : Session) (h : getSession u i = x) (h1 : 0 < x.resetSent) (h2 : x.resetSeen = true) :
    let ep : EndpointId := .hub (Fin.ofNat 2048 i)
    let t := resumeSession u i
    getSession t i = resumed x ∧ (∀ j, j ≠ i → getSession t j = getSession u j) ∧ EpIs ep (resetEndpoint (getEp u ep)) u t ∧
      SameBut [.sessions, .chutes] u t ∧ t.port.txQueue = u.port.txQueue := by
  intro ep t
  obtain ⟨y, ey⟩ : ∃ y, y = setSession u i (resumed x) := ⟨_, rfl⟩
  obtain ⟨y1, y2, -⟩ := setSession_is u i (resumed x)
  rw [← ey] at y1 y2
  have et : t = setEp y ep (resetEndpoint (getEp y ep)) := by
    rw [ey]
    show resumeSession u i = _
    unfold resumeSession
    rw [h]
    exact if_pos ⟨h1, h2⟩
  have ep' : ∀ e, getEp y e = getEp u e := fun e => by rw [ey]; rfl
  have hs : ∀ j, getSession t j = getSession y j := fun j => by rw [et]; rfl
  refine ⟨(hs i).trans y1, fun j hj => (hs j).trans (y2 j hj), ⟨?_, fun e he => ?_⟩, ?_, ?_⟩
  · rw [et, ep' ep]
    exact getEp_setEp_self ..
  · rw [et, ← ep' e]
    exact getEp_setEp_other _ _ he
  · have can := Can.all [.sessions, .chutes]
    exact (resumeSession_keeps (.refl u) i).sameBut
  · rw [et, ey]
    rfl

theorem arrived_eq (s : State) (f : RxFrame) : portCount (frameEnds s f) Ctr.PORT_RX_FRAME_CNT = arrived s f := rfl

theorem arrived_counts (s : State) (f : RxFrame) : Counts [pc Ctr.PORT_RX_FRAME_CNT] [] (frameEnds s f) (arrived s f) := counts_one _ _

theorem arrived_count (s : State) (f : RxFrame) (o : Nat) (h : o ≠ Ctr.PORT_RX_FRAME_CNT) :
    Counts [pc Ctr.PORT_RX_FRAME_CNT, pc o] [] (frameEnds s f) (portCount (arrived s f) o) := counts_two _ _ o h

theorem arrived_flag (s : State) (f : RxFrame) (o : Nat) (g : Nat × Nat) (h : o ≠ Ctr.PORT_RX_FRAME_CNT) (h1 : g.1 ≠ Ctr.PORT_RX_FRAME_CNT)
    (h2 : g.1 ≠ o) (h3 : g.2 < 32) :
    Counts [pc Ctr.PORT_RX_FRAME_CNT, pc o] [pf g] (frameEnds s f) (raise (portCount (arrived s f) o) portBase g) :=
  counts_raise (arrived_count s f o h) portBase g (by simp [pc]; omega) h3

theorem iltFrame_other {s : State} {f : RxFrame} {p : IltPacket} {n : Nat} (h : Received s f) (hk : udpTo s f s.pwr.config.iltPort = true)
    (ht : p.type.toNat ≠ n) : iltFrame s f p n = (portCount (arrived s f) Ctr.PORT_FILTER_DROP_CNT, false) := by
  unfold iltFrame
  rw [hk, received_ok h]
  exact if_neg ht

theorem iltFrame_ok {s : State} {f : RxFrame} {p : IltPacket} {n : Nat} (h : IltArrives s f p n) : iltFrame s f p n = (arrived s f, true) := by
  unfold iltFrame
  rw [h.kept, received_ok h.received]
  exact if_pos h.type

theorem rxInOrder_row {s : State} {f : RxFrame} {p : IltPacket} {c : Nat × Instr} (hc : c ∈ seqRows f p) (h : IltArrives s f p c.1) :
    ∃ g, exec c.2 s = .next (rxInOrder (arrived s f) p (decide (c.1 = 1)) g) ∧
      (c.1 = 1 → g = fun i s => dataInSequence s i p) ∧ (c.1 = 6 → g = fun i s => closeInSequence s i) ∧ (c.1 = 1 ∨ c.1 = 6) := by
  simp only [seqRows, List.mem_cons, List.not_mem_nil, or_false] at hc
  rcases hc with e | e <;> subst e
  · refine ⟨fun i s => dataInSequence s i p, congrArg Host.Outcome.next ?_, fun _ => rfl, fun h => (by cases h), .inl rfl⟩
    unfold dataPacket
    rw [show iltFrame s f p iltData = _ from iltFrame_ok h]
    rfl
  · refine ⟨fun i s => closeInSequence s i, congrArg Host.Outcome.next ?_, fun h => (by cases h), fun _ => rfl, .inr rfl⟩
    unfold closePacket
    rw [show iltFrame s f p iltClose = _ from iltFrame_ok h]
    rfl

theorem arrived_port (s : State) (f : RxFrame) : (arrived s f).port.sessions = s.port.sessions ∧ (arrived s f).port.outs = s.port.outs := by
  have can := Can.all [.regs]
  have k : Keeps (· ∈ [.regs]) s (arrived s f) := count_keeps (frameEnds_keeps (.refl s) ..) ..
  exact ⟨k.field .sessions (by decide), k.field .outs (by decide)⟩

theorem rxSession_arrived (s : State) (f : RxFrame) (p : IltPacket) : rxSession (arrived s f) p = rxSession s p := by
  have e : ∀ i, getSession (arrived s f) i = getSession s i := fun i => by simp only [getSession, (arrived_port s f).1]
  simp only [rxSession]
  rw [e]

theorem outSession_arrived (s : State) (f : RxFrame) (p : IltPacket) : outSession (arrived s f) f p = outSession s f p := by
  have hp : (arrived s f).pwr = s.pwr := by
    unfold arrived frameEnds portCount
    rw [count_pwr]
    extract_lets s1 s2
    have h1 : s1.pwr = s.pwr := by simp only [s1]; split <;> simp only [count_pwr]
    have h2 : s2.pwr = s.pwr := by simp only [s2]; split <;> simp only [raise_pwr, count_pwr, h1]
    split <;> simp only [count_pwr, h2]
  simp only [outSession, (arrived_port s f).2, moduleIp, hp]

/-- The record of a lot that has just been completed. -/
abbrev newLot (i : Nat) (lsn psn : Word) (bytes : List Byte) : LotRecord :=
  { session := i, lsn := lsn, psnAfter := psn, tAccept := 0, granules := granulesOf (64 + bytes.length), commands := 0, done := [], bytes := bytes }
theorem forSender_row {s : State} {f : RxFrame} {p : IltPacket} {c : Nat × Instr} (hc : c ∈ sendRows f p) (h : IltArrives s f p c.1) :
    ∃ lot out, exec c.2 s = .next (forSender (arrived s f) f p lot out) := by
  simp only [sendRows, List.mem_cons, List.not_mem_nil, or_false] at hc
  rcases hc with e | e | e <;> subst e
  · exact ⟨fun i s => ackResponses s i p.psn, fun k s =>
      if ((ackOut s k p.psn p.arg0).port.outs[k]?.map (·.kind)) = some .mirror then mirrorAcked (ackOut s k p.psn p.arg0) p.arg1
      else ackOut s k p.psn p.arg0, congrArg Host.Outcome.next (by
        unfold ackPacket
        rw [show iltFrame s f p iltAck = _ from iltFrame_ok h])⟩
  · exact ⟨fun i s => retransmit (ackResponses s i p.psn) i p.psn, fun k s => retransmitOut (ackOut s k p.psn p.arg0) k p.psn,
      congrArg Host.Outcome.next (by
        unfold nakPacket
        rw [show iltFrame s f p iltNak = _ from iltFrame_ok h])⟩
  · exact ⟨fun _ s => dropPacket s, fun k s =>
      match (updOut s k fun o => { o with grants := p.arg0 }).port.outs[k]? with
      | some o => sendOut (updOut s k fun o => { o with grants := p.arg0 }) k [closeData o]
      | none => updOut s k fun o => { o with grants := p.arg0 }, congrArg Host.Outcome.next (by
        unfold tailPacket
        rw [show iltFrame s f p iltTail = _ from iltFrame_ok h] <;> rfl)⟩

theorem arrived_drop (s : State) (f : RxFrame) : Counts [pc Ctr.PORT_RX_FRAME_CNT, pc Ctr.PORT_FILTER_DROP_CNT] [] (frameEnds s f) (dropPacket (arrived s f)) :=
  arrived_count s f _ (by decide)

theorem arrived_crc (s : State) (f : RxFrame) :
    Counts [pc Ctr.PORT_RX_FRAME_CNT, pc Ctr.PORT_CRC32C_ERR_CNT] [pf Flag.port_CRC32C_ERR] (frameEnds s f) (crcError (arrived s f)) :=
  arrived_flag s f _ _ (by decide) (by decide) (by decide) (by decide)

theorem resetPacket_eq {s : State} {f : RxFrame} {p : IltPacket} (h : IltArrives s f p 8) : let z := arrived s f
    resetPacket s f p = match outSession s f p with
    | some k =>
      if !iltCrcOk p then crcError z
      else if !headerOk p true || !lengthOk p || (z.port.outs[k]?.map (·.kind)) != some .chute then dropPacket z
      else resetOutReceived z k
    | none =>
      match rxSession s p with
      | some i =>
        if (getSession z i).kind ≠ .chute then dropPacket z
        else if !iltCrcOk p then crcError z
        else if !headerOk p true || !lengthOk p then dropPacket z
        else resetReceived z i
      | none => dropPacket z := by
  unfold resetPacket
  rw [show iltFrame s f p iltReset = _ from iltFrame_ok h]
  dsimp only
  rw [rxSession_arrived, outSession_arrived] <;> rfl

end Sys2Proof.Machine
end

