-- ==== Sys2Proof/Laws/Tram.lean ====
section
/-! SUPPORT. The tram: what the operations do. -/

-- one theorem after the other: proofs side by side would need more memory than the check allows
set_option Elab.async false

namespace Sys2Proof.Machine

open Sys2Proof.Safety

theorem coreAtPos_tramPos (c : CoreId) : tramPos c < 512 ∧ coreAtPos (tramPos c) = c := by
  obtain ⟨s, k⟩ := c
  revert s k
  decide +kernel

theorem tramPos_coreAtPos : ∀ z, z < 512 → tramPos (coreAtPos z) = z := by
  decide +kernel

theorem keepsCar_iff {s : State} {c : CoreId} {car : Car} : keepsCar s c car = true ↔ KeepsCar s c car := by
  simp only [keepsCar, inScratch, KeepsCar, Bool.and_eq_true, decide_eq_true_eq]
  constructor
  · intro ⟨⟨⟨⟨a, b⟩, d⟩, e⟩, f⟩
    exact ⟨⟨a, b⟩, d, e, f⟩
  · intro ⟨⟨a, b⟩, d, e, f⟩
    exact ⟨⟨⟨⟨a, b⟩, d⟩, e⟩, f⟩

theorem hop_mayGo {h : HopState} {injected : Bool} {car : Car} : mayGo h injected car = true ↔
    (if injected then h.feeding else h.arriving).head? = some car ∧
      (h.arriving = [] ∨ h.feeding = [] ∨ h.lastInjected ≠ injected) := by
  simp only [mayGo, Bool.and_eq_true, Bool.or_eq_true, beq_iff_eq, bne_iff_ne]
  constructor
  · intro ⟨a, b⟩
    exact ⟨a, b.elim (fun b => b.elim .inl (fun b => .inr (.inl b))) (fun b => .inr (.inr b))⟩
  · intro ⟨a, b⟩
    exact ⟨a, b.elim (fun b => .inl (.inl b)) (fun b => b.elim (fun b => .inl (.inr b)) .inr)⟩

/-- A hop stage after the car at the head of one of its sources has been kept or passed it by. -/
def hopAfter (h : HopState) (injected keeps : Bool) (n : Nat) : HopState :=
  { h with
    arriving := if injected then h.arriving else h.arriving.tail
    feeding := if injected then h.feeding.tail else h.feeding
    lastInjected := injected
    lines := if keeps then min 32 (h.lines + n / 32) else h.lines }

theorem poisonBut_refl (c : CoreId) (s : State) : PoisonBut c s s := ⟨fun _ _ => rfl, rfl⟩

theorem placeOf_scratchAddr (c : CoreId) (off : Nat) (h : off < 0x200000) : placeOf (scratchAddr c off) =
    if off < 0x100000 then .scratch c off else if off < 0x150000 then .vat c (off - 0x100000) else .none := by
  obtain ⟨⟨a, ha⟩, ⟨b, hb⟩⟩ := c
  have d1 : (a * 0x4000000 + b * 0x200000 + off) / 0x4000000 = a := by omega
  have d2 : (a * 0x4000000 + b * 0x200000 + off) % 0x4000000 / 0x200000 = b := by
    have : (a * 0x4000000 + b * 0x200000 + off) % 0x4000000 = b * 0x200000 + off := by omega
    have q : (b * 0x200000 + off) / 0x200000 = b := by
      rw [Nat.mul_comm, Nat.mul_add_div (by decide), Nat.div_eq_of_lt h, Nat.add_zero]
    exact (congrArg (· / 0x200000) this).trans q
  have e1 : Fin.ofNat 16 ((a * 0x4000000 + b * 0x200000 + off) / 0x4000000) = ⟨a, ha⟩ := Fin.ext (by rw [d1]; exact Nat.mod_eq_of_lt ha)
  have e2 : Fin.ofNat 32 ((a * 0x4000000 + b * 0x200000 + off) % 0x4000000 / 0x200000) = ⟨b, hb⟩ := Fin.ext (by
    rw [d2]; exact Nat.mod_eq_of_lt hb)
  have e3 : (a * 0x4000000 + b * 0x200000 + off) % 0x200000 = off := by omega
  have e4 : scratchAddr ⟨⟨a, ha⟩, ⟨b, hb⟩⟩ off = Config.coreBase + (a * 0x4000000 + b * 0x200000 + off) := by
    simp only [scratchAddr, Nat.add_assoc]
  rw [e4]
  unfold placeOf
  have hx : a * 0x4000000 + b * 0x200000 + off < 0x40000000 := by omega
  generalize a * 0x4000000 + b * 0x200000 + off = x at e1 e2 e3 hx
  rw [if_neg (Nat.not_lt.2 (Nat.le_trans (by decide : Config.coreBase / 2 ≤ Config.coreBase) (Nat.le_add_right _ x))),
    if_pos ⟨Nat.le_add_right _ x, Nat.add_lt_add_left hx _⟩]
  simp only [Nat.add_sub_cancel_left, e1, e2, e3]

theorem poisonAt_of {s : State} {a off : Nat} {c : CoreId} (n : Nat) (h : placeOf a = if off < 0x100000 then .scratch c off
    else if off < 0x150000 then .vat c (off - 0x100000) else .none) : PoisonBut c s (poisonAt s a n) := by
  unfold poisonAt
  rw [h]
  by_cases h1 : off < 0x100000
  · rw [if_pos h1]
    dsimp only
    generalize hx : ((getCore s c).poisonedWords ++ _).eraseDups = l
    refine ⟨fun d hd => getCore_setCore_other _ _ hd, ?_⟩
    exact congrArg (fun x : CoreState => { x with poisonedWords := [] }) (getCore_setCore_self s c _)
  · rw [if_neg h1]
    by_cases h2 : off < 0x150000
    · rw [if_pos h2]; exact poisonBut_refl c s
    · rw [if_neg h2]; exact poisonBut_refl c s

theorem poisonAt_poison (s : State) (c : CoreId) (off n : Nat) (h : off < 0x200000) : PoisonBut c s (poisonAt s (scratchAddr c off) n) :=
  poisonAt_of n (placeOf_scratchAddr c off h)

theorem keepCar_eq (s : State) (c : CoreId) (car : Car) : ∃ a, a = scratchAddr c car.offset ∧
    keepCar s c car =
      let s3 := count (writeScratch (setHop s c { getHop s c with lines := min 32 ((getHop s c).lines + car.payload.length / 32) })
        c car.offset car.payload) (tramRegBase c) Ctr.TRAM_KEEP_CNT 1
      if car.poisoned then raise (count (poisonAt s3 a car.payload.length) (tramRegBase c) Ctr.TRAM_UE_CNT 1) (tramRegBase c) Flag.tram_UE
      else s3 := by
  obtain ⟨a, ha⟩ : ∃ a, a = scratchAddr c car.offset := ⟨_, rfl⟩
  refine ⟨a, ha, ?_⟩
  subst ha
  unfold keepCar
  rfl

theorem keepCar_gives (s : State) (c : CoreId) (car : Car) (hk : car.offset + car.payload.length ≤ 0x100000) : let t := keepCar s c car
    let h := getHop s c
    let b := tramRegBase c
    t.regs = (if car.poisoned then raise (count (count s b Ctr.TRAM_KEEP_CNT 1) b Ctr.TRAM_UE_CNT 1) b Flag.tram_UE
      else count s b Ctr.TRAM_KEEP_CNT 1).regs ∧
    t.hops = (setHop s c { h with lines := min 32 (h.lines + car.payload.length / 32) }).hops ∧
    t.mem = storeBytes s.mem (scratchAddr c car.offset) car.payload ∧ PoisonBut c s t := by
  intro t h b
  obtain ⟨a, ha, ek⟩ := keepCar_eq s c car
  obtain ⟨s1, e1⟩ : ∃ x, x = setHop s c { h with lines := min 32 (h.lines + car.payload.length / 32) } := ⟨_, rfl⟩
  rw [← e1] at ek ⊢
  have k1 : Keeps (· ∈ [.hops]) s s1 := by rw [e1]; exact setHop_keeps (.refl s) _ _ (Can.all _)
  obtain ⟨s2, e2⟩ : ∃ x, x = writeScratch s1 c car.offset car.payload := ⟨_, rfl⟩
  rw [← e2] at ek
  have k2 : Keeps (· ∈ [.mem, .cores]) s1 s2 := by rw [e2]; exact writeScratch_keeps (.refl s1) _ _ _ (Can.all _)
  have r2 : s2.regs = s.regs := (k2.field .regs (by decide)).trans (k1.field .regs (by decide))
  have p2 : PoisonBut c s s2 := by
    have : PoisonBut c s1 s2 := by rw [e2]; exact writeScratch_poison ..
    have hc : s1.cores = s.cores := k1.field .cores (by decide)
    exact ⟨fun d hd => (this.others d hd).trans (getCore_congr hc d), this.rest.trans (by rw [getCore_congr hc])⟩
  have m2 : s2.mem = storeBytes s.mem (scratchAddr c car.offset) car.payload := by
    have q : s1.mem = s.mem := k1.field .mem (by decide)
    rw [e2, writeScratch_mem, q]
  have h2 : s2.hops = s1.hops := k2.field .hops (by decide)
  clear e1 e2
  let s3 := count s2 b Ctr.TRAM_KEEP_CNT 1
  have r3 : s3.regs = (count s b Ctr.TRAM_KEEP_CNT 1).regs := count_regs_congr r2 ..
  have p3 : PoisonBut c s s3 := by
    have q : s3.cores = s2.cores := count_cores ..
    exact poisonBut_trans p2 ⟨fun _ _ => getCore_congr q _, by rw [getCore_congr q]⟩
  have m3 : s3.mem = storeBytes s.mem (scratchAddr c car.offset) car.payload := (count_mem ..).trans m2
  have h3 : s3.hops = s1.hops := (count_hops ..).trans h2
  by_cases hp : car.poisoned = true
  · let s4 := poisonAt s3 a car.payload.length
    have k4 : Keeps (· ∈ [.cores]) s3 s4 := poisonAt_keeps (.refl s3) _ _ (Can.all _)
    have e : t = raise (count s4 b Ctr.TRAM_UE_CNT 1) b Flag.tram_UE := ek.trans (if_pos hp)
    rw [e, if_pos hp]
    refine ⟨raise_regs_congr (count_regs_congr ((k4.field .regs (by decide)).trans r3) ..) .., ?_, ?_, ?_⟩
    · rw [raise_hops, count_hops]; exact (k4.field .hops (by decide)).trans h3
    · rw [raise_mem, count_mem]; exact (k4.field .mem (by decide)).trans m3
    · have p4 : PoisonBut c s s4 := poisonBut_trans p3 (poisonAt_of (off := car.offset) car.payload.length (by rw [ha]; exact placeOf_scratchAddr c car.offset (by omega)))
      exact poisonBut_trans p4 ⟨fun _ _ => getCore_congr (by rw [raise_cores, count_cores]) _, by
        rw [getCore_congr (show (raise (count s4 b Ctr.TRAM_UE_CNT 1) b Flag.tram_UE).cores = s4.cores by rw [raise_cores, count_cores])]⟩
  · have e : t = s3 := ek.trans (if_neg hp)
    rw [e, if_neg hp]
    exact ⟨r3, h3, m3, p3⟩

theorem next_ne {c : CoreId} {car : Car} (h : GoesOn c car) : coreAtPos (tramPos c + 1) ≠ c := by
  intro k
  have := tramPos_coreAtPos (tramPos c + 1) (by have := h.1; omega)
  rw [k] at this
  omega

theorem trainOk_iff {s : State} {q : QueueId} {first : CarSpec} {rest : List CarSpec} :
    trainOk s q (first :: rest) = true ↔ MayFeed s q first rest := by
  simp only [trainOk, Bool.and_eq_true, beq_iff_eq, decide_eq_true_eq, List.all_eq_true, isTramFeed_iff]
  constructor
  · intro ⟨⟨⟨a, c⟩, d⟩, e⟩
    refine ⟨a, c, d, fun x hx => ?_⟩
    obtain ⟨⟨⟨⟨⟨e1, e2⟩, e3⟩, e4⟩, e5⟩, e6⟩ := e x hx
    exact ⟨e1, e2, e3, x.len / 64, by omega, by omega, by omega⟩
  · intro h
    refine ⟨⟨⟨h.queue, h.live⟩, h.seam⟩, fun x hx => ?_⟩
    obtain ⟨e1, e2, e3, n, e4, e5, e6⟩ := h.cars x hx
    omega

end Sys2Proof.Machine
end

