-- ==== Sys2Proof/Laws/Requests.lean ====
section
/-! SUPPORT. Management requests and register rows: what a whole request comes to. -/

-- one theorem after the other: proofs side by side would need more memory than the check allows
set_option Elab.async false

namespace Sys2Proof.Machine

open Sys2Proof.Safety

theorem some_of_ne {α : Type} {o : Option α} (h : o ≠ none) : o.isSome = true := by
  cases o with
  | none => exact absurd rfl h
  | some _ => rfl

theorem settle_ok {s : State} (h : s.port.held ≠ none ∨ FrontKnown s.port.mgmtQueue) : settleQueue s = s :=
  h.elim (fun h => settle_held (some_of_ne h)) settle_known

theorem take_settled {s : State} {r : MgmtFrame} {f : State → State} (h : settleQueue s = s) : takeMgmt s r f =
    if s.port.mgmtQueue.head? = some r then
      if s.port.held.isSome && r.header.op.toNat != opAbort then s
      else settleQueue (f { s with port := { s.port with mgmtQueue := s.port.mgmtQueue.tail } })
    else if takenAtOnce s r then
      match receiveFrame s r.frame (mgmtKept s r.frame) with
      | (s, true) => settleQueue (f s)
      | (s, false) => s
    else mgmtFrameReceive s r := by
  unfold takeMgmt
  rw [h] <;> rfl

theorem lowestFree_none {used : List Nat} {limit : Nat} (h : ∀ i, ¬ LowestFree used limit i) : lowestFree used limit = none := by
  cases e : lowestFree used limit with
  | none => rfl
  | some i =>
    refine absurd ?_ (h i)
    unfold lowestFree at e
    rw [List.find?_range_eq_some] at e
    obtain ⟨h1, h2, h3⟩ := e
    refine ⟨?_, by simpa using h1, fun j hj => by simpa using h3 j hj⟩
    have := List.mem_range.1 h2
    omega

theorem openIndex_place {z : State} {q : OpenReq} {i : Nat} (h : OpenPlace z q i) : openIndex z q = some i := by
  unfold openIndex
  rcases h with ⟨h0, h⟩ | ⟨h1, h2, h3, h⟩ | ⟨h2, h⟩
  · rw [if_pos h0]
    exact lowestFree_some h
  · rw [if_neg (by omega), if_neg (by rw [h2]; simp; omega)]
    exact lowestFree_some h
  · rw [if_neg (by omega), if_neg (by omega)]
    exact lowestFree_some h

theorem openIndex_none {z : State} {q : OpenReq} (hk : q.kind ≤ 3) (h : ∀ i, ¬ OpenPlace z q i) : openIndex z q = none := by
  unfold openIndex
  split
  · rename_i h0
    exact lowestFree_none fun i hi => h i (.inl ⟨h0, hi⟩)
  · split
    · rfl
    · rename_i h0 h1
      refine lowestFree_none fun i hi => h i ?_
      by_cases e : q.kind = 1
      · refine .inr (.inl ⟨e, ?_, ?_, hi⟩)
        · cases hs : z.port.inService with
          | true => rfl
          | false => exact absurd ⟨e, .inl hs⟩ h1
        · exact Nat.lt_of_not_le fun g => h1 ⟨e, .inr g⟩
      · exact .inr (.inr ⟨by omega, hi⟩)

theorem openFields_iff (q : OpenReq) : openFieldsOk q = true ↔ OpenFields q := by
  unfold openFieldsOk
  constructor
  · intro h
    rw [Bool.and_eq_true, Bool.and_eq_true, Bool.and_eq_true, Bool.and_eq_true] at h
    obtain ⟨⟨⟨⟨h1, h2⟩, h3⟩, h4⟩, h5⟩ := h
    refine ⟨⟨by simpa using h1, by simpa using h2⟩, by simpa using h3, ?_, fun hk => ?_⟩
    · split
      · rename_i hk
        rw [if_pos hk] at h4
        simpa [and_assoc] using h4
      · rename_i hk
        rw [if_neg hk] at h4
        simpa using h4
    · rw [Bool.or_eq_true] at h5
      have := h5.resolve_left (by simpa using hk)
      simpa using this
  · intro h
    rw [Bool.and_eq_true, Bool.and_eq_true, Bool.and_eq_true, Bool.and_eq_true]
    have h4 := h.window
    refine ⟨⟨⟨⟨by simpa using h.zero.1, by simpa using h.zero.2⟩, by simpa using h.port⟩, ?_⟩, ?_⟩
    · split
      · rename_i hk
        rw [if_pos hk] at h4
        simpa [and_assoc] using h4
      · rename_i hk
        rw [if_neg hk] at h4
        simpa using h4
    · by_cases hk : q.kind = 2
      · simp [hk]
      · have := h.chute hk
        simp [this.1, this.2]

theorem nonceStands_iff (s : State) (q : OpenReq) : nonceFresh s q.nonce = true ↔ NonceStands s q := by
  unfold nonceFresh NonceStands
  rw [List.any_eq_true]
  constructor
  · rintro ⟨⟨n, t⟩, h1, h2⟩
    rw [Bool.and_eq_true, beq_iff_eq, decide_eq_true_eq] at h2
    exact ⟨t, by rw [← h2.1]; exact h1, h2.2⟩
  · rintro ⟨t, h1, h2⟩
    exact ⟨(q.nonce, t), h1, by simp [tenSeconds, h2]⟩

/-- A request at the front answered in a state that its execution has come to. -/
theorem answered_front {r : MgmtFrame} {op : Nat} {s y : State} {c : Instr} {f : State → State} {st : Nat} {b : List Byte} (h : AtFront r op s)
    (ho : knownOp op = true) (hc : exec c s = .next (ofOp op s r f)) (e : f (dequeue s) = answerMgmt y r st b)
    (hq : y.port.mgmtQueue = s.port.mgmtQueue.tail) (ht : y.port.txQueue = s.port.txQueue) (hy : mgmtAnswer y r st b = mgmtAnswer s r st b) :
    exec c s = .next (answerMgmt y r st b) ∧
      (answerMgmt y r st b).port = { y.port with txQueue := s.port.txQueue ++ [mgmtAnswer s r st b] } := by
  have hp := answerMgmt_port y r st b
  refine ⟨?_, by rw [hp, ht, hy]⟩
  rw [hc, ofOp_done h ho e (by rw [hp]; exact hq)]

theorem getMgmt_push (s : State) (f : TxFrame) (i : Nat) : getMgmt (pushTx s f) i = getMgmt s i := rfl

theorem getMgmt_set (s : State) (i j : Nat) (x : Option MgmtSession) :
    getMgmt (setMgmt s i x) j = if j = i then x else getMgmt s j := by
  unfold getMgmt setMgmt
  exact tget_tset ..

theorem logSession_queue (s : State) (i : Nat) (b : List Byte) : (logSession s i b).port.mgmtQueue = s.port.mgmtQueue :=
  mgmtQueue_keeps (logSession_keeps (P := (· ∈ [.jnl, .txQueue, .outs])) (.refl s) i b (Can.all _)) (by decide)

theorem openAt_queue (u : State) (f : RxFrame) (q : OpenReq) (signed : Bool) (i : Nat) (token : Word) :
    (openSessionAt u f q signed i token).port.mgmtQueue = u.port.mgmtQueue := by
  unfold openSessionAt
  dsimp only
  split
  · rfl
  split
  · exact logSession_queue ..
  split
  · split <;> rfl
  · rfl

/-- What an OPEN comes to that is accepted and gets a place. -/
theorem open_placed {s : State} {r : MgmtFrame} {sig : SigVerdict} {q : OpenReq} {i : Nat} (h : AtFront r 2 s) (hp : parseOpen r.body = some q)
    (ho : openingOk r.header = true) (hk : q.kind ≤ 3) (hn : nonceFresh s q.nonce = true) (ha : openAllowed s r.frame q sig = true)
    (hf : openFieldsOk q = true) (hi : openIndex (opening s q) q = some i) : ∃ u v t token,
      u = { opening s q with freeCount := (opening s q).freeCount + 1 } ∧
      v = openSessionAt u r.frame q (q.signed && sig.ed && sig.mldsa && enrolled (opening s q)) i token ∧
      t = pushTx v (mgmtAnswer (opening s q) r 0 (openAnswer q i token)) ∧
      mgmtAnswer (opening s q) r 0 (openAnswer q i token) = mgmtAnswer s r 0 (openAnswer q i token) ∧ u.pwr = s.pwr ∧
      (∀ f, answerMac u f = answerMac s f) ∧ exec (.openSession r sig) s = .next t := by
  obtain ⟨o1, o2⟩ := opening_port s q
  obtain ⟨u, eu⟩ : ∃ u, u = { opening s q with freeCount := (opening s q).freeCount + 1 } := ⟨_, rfl⟩
  obtain ⟨tk, et⟩ : ∃ tk : Word, tk = BitVec.ofNat 32 (Config.choice (opening s q).freeCount) := ⟨_, rfl⟩
  have ku := keeps_draw eu
  obtain ⟨v, ev⟩ : ∃ v, v = openSessionAt u r.frame q (q.signed && sig.ed && sig.mldsa && enrolled (opening s q)) i tk := ⟨_, rfl⟩
  have e : openRun r sig (dequeue s) = answerMgmt v r stOk (openAnswer q i tk) := by
    rw [openRun_ok hp ho hk, if_neg (by rw [hn, ha]; decide), if_neg (by rw [hf]; decide), hi]
    rw [ev, eu, et]
  have kv : Keeps (· ∈ [.graphs, .jnl, .txQueue, .sessions, .outs, .mgmt, .chutes]) u v := by
    have can := Can.all [.graphs, .jnl, .txQueue, .sessions, .outs, .mgmt, .chutes]
    rw [ev]
    exact openSessionAt_keeps (.refl u) ..
  have kuv : Keeps (· ∈ [.freeCount, .graphs, .jnl, .txQueue, .sessions, .outs, .mgmt, .chutes]) (opening s q) v :=
    (ku.mono (by decide)).trans (kv.mono (by decide))
  have hv : mgmtAnswer v r 0 (openAnswer q i tk) = mgmtAnswer (opening s q) r 0 (openAnswer q i tk) :=
    mgmtAnswer_keeps kuv (by decide) (by decide) ..
  have hu : u.pwr = s.pwr := by
    have e1 : u.pwr = (opening s q).pwr := by rw [eu]
    rw [e1, opening_eq]
    unfold closeMirror
    split
    · split <;> rfl
    · rfl
  have hq : v.port.mgmtQueue = s.port.mgmtQueue.tail := by
    rw [ev, openAt_queue, eu]
    exact o1
  obtain ⟨t, ett⟩ : ∃ t, t = pushTx v (mgmtAnswer (opening s q) r 0 (openAnswer q i tk)) := ⟨_, rfl⟩
  have et' : answerMgmt v r stOk (openAnswer q i tk) = t := by
    rw [ett, ← hv]
    exact answerMgmt_good (by decide)
  refine ⟨u, v, t, tk, eu, ev, ett, mgmtAnswer_keeps (opening_keeps s q) (by decide) (by decide) .., hu,
    fun f => by unfold answerMac; rw [hu], ?_⟩
  exact congrArg Host.Outcome.next (ofOp_done h rfl (e.trans et') (by rw [ett]; exact hq))

theorem plan_some {r : MgmtFrame} {w : Bool} (h : AccessFields r w) : accessPlan r w = some (accessList r w) := by
  have hl := h.length
  unfold accessPlan
  dsimp only
  rw [if_pos, if_pos]
  · rfl
  · rw [List.all_eq_true]
    intro p hp
    obtain ⟨a, b⟩ := h.registers p hp
    rw [Bool.and_eq_true, decide_eq_true_eq]
    exact ⟨a, some_of_ne b⟩
  · refine ⟨?_, h.zero, h.count.1, h.count.2, hl⟩
    rw [hl]
    split <;> omega

theorem plan_none {r : MgmtFrame} {w : Bool} (h : ¬ AccessFields r w) : accessPlan r w = none := by
  unfold accessPlan
  dsimp only
  refine ite_eq_right_iff.2 fun e => ite_eq_right_iff.2 fun g => absurd ?_ h
  refine ⟨⟨e.2.2.1, e.2.2.2.1⟩, e.2.2.2.2, e.2.1, fun p hp => ?_⟩
  have := List.all_eq_true.1 g p hp
  rw [Bool.and_eq_true, decide_eq_true_eq] at this
  refine ⟨this.1, fun n => ?_⟩
  rw [n] at this
  cases this.2

/-- READ and WRITE in an open session. -/
theorem access_row {r : MgmtFrame} {sig : SigVerdict} {w : Bool} {s t : State} (h : AtFront r (if w then 17 else 16) s) (hi : InSession r s)
    (e : (match accessPlan r w with
      | none => finishMgmt (dequeue s) r stBadRequest []
      | some l =>
        match accessWords r w (if w then sig else ⟨false, false⟩) l 0 [] (dequeue s) with
        | (.done, n, got, s) =>
          if (getMgmt s r.header.session.toNat).isSome then
            count (finishMgmt s r stOk (accessBody r n got)) 0 Ctr.MG_REQ_CNT 1
          else s
        | (.reset, n, got, s) => finishMgmt s r stBusy (accessBody r n got)
        | (.held, n, got, s) => { s with port := { s.port with held := some { req := r, at_ := n, words := got } } }
        | (.gone, _, _, s) => s) = t)
    (q : settleQueue t = t) : exec (accessRow r sig w) s = .next t := by
  obtain ⟨x, h1, h2, h3⟩ := hi.open_
  have hg : accessRun r w (if w then sig else ⟨false, false⟩) (dequeue s) = t := by
    unfold accessRun
    rw [inMgmt_go hi.header (show getMgmt (dequeue s) _ = some x from h1) h2 h3]
    exact e
  cases w
  · refine congrArg Host.Outcome.next ?_
    show ofOp opRead s r (accessRun r false ⟨false, false⟩) = t
    rw [ofOp_front (op := opRead) h rfl]
    exact (congrArg settleQueue hg).trans q
  · refine congrArg Host.Outcome.next ?_
    show ofOp opWrite s r (accessRun r true sig) = t
    rw [ofOp_front (op := opWrite) h rfl]
    exact (congrArg settleQueue hg).trans q

theorem settle_queue {s t : State} {r : MgmtFrame} {op : Nat} (h : AtFront r op s) (q : t.port.mgmtQueue = s.port.mgmtQueue.tail) : settleQueue t = t :=
  settle_known (by rw [q]; exact h.next)

theorem count_finish_queue (z : State) (r : MgmtFrame) (st : Nat) (b : List Byte) (c : Nat) :
    (count (finishMgmt z r st b) 0 c 1).port.mgmtQueue = z.port.mgmtQueue :=
  finish_queue z r st b

/-- An access of which all words are made. -/
theorem access_done {r : MgmtFrame} {sig : SigVerdict} {w : Bool} {s z : State} {ws : List Word} (h : AtFront r (if w then 17 else 16) s)
    (hi : InSession r s) (hf : AccessFields r w)
    (e : accessWords r w (if w then sig else ⟨false, false⟩) (accessList r w) 0 [] (dequeue s) = (.done, (accessList r w).length, ws, z))
    (hm : getMgmt z r.header.session.toNat ≠ none) (q : z.port.mgmtQueue = s.port.mgmtQueue.tail) :
    ∃ t, exec (accessRow r sig w) s = .next t ∧ AccessDone r (accessList r w).length ws z t := by
  refine ⟨_, access_row h hi ?_ ?_, count_done⟩
  · rw [plan_some hf]
    dsimp only
    rw [e]
    dsimp only
    rw [if_pos (some_of_ne hm)]
  · exact settle_queue h ((count_finish_queue ..).trans q)

theorem access_stops {r : MgmtFrame} {sig : SigVerdict} {w : Bool} {s z : State} {n : Nat} {ws : List Word} {x : RegLoc} (h : AtFront r (if w then 17 else 16) s)
    (hi : InSession r s) (hf : AccessFields r w)
    (e : accessWords r w (if w then sig else ⟨false, false⟩) (accessList r w) 0 [] (dequeue s) =
      if domRuns s x.dom then (.reset, n, ws, z) else (.held, n, ws, z))
    (q : z.port.mgmtQueue = s.port.mgmtQueue.tail) : AccessStops (accessRow r sig w) r n ws x s z := by
  refine ⟨fun hd => ⟨_, access_row h hi ?_ ?_, finish_gives ..⟩, fun hd => access_row h hi ?_ ?_⟩
  · rw [plan_some hf]
    dsimp only
    rw [e, if_pos hd]
    rfl
  · exact settle_queue h ((finish_queue ..).trans q)
  · rw [plan_some hf]
    dsimp only
    rw [e, if_neg (by rw [hd]; decide)]
    rfl
  · exact settle_held rfl

theorem abandon_gives (u : State) (h : HeldAccess) : ∃ v, v.port = { u.port with held := none } ∧
    Counted Ctr.MG_ABANDON_CNT 1 u v ∧ BitSet Flag.ident_ABANDONED.1 Flag.ident_ABANDONED.2 v ∧
    RegsBut [Ctr.MG_ABANDON_CNT, Flag.ident_ABANDONED.1] u v ∧ SameBut [.regs, .mgmt] u v ∧
    abandonHeld u h = finishMgmt v h.req 4 (accessBody h.req h.at_ h.words) := by
  obtain ⟨x, ex⟩ : ∃ x, x = { u with port := { u.port with held := none } } := ⟨_, rfl⟩
  obtain ⟨v, ev⟩ : ∃ v, v = raise (count x 0 Ctr.MG_ABANDON_CNT 1) 0 Flag.ident_ABANDONED := ⟨_, rfl⟩
  have hx : ∀ a, rawReg x a = rawReg u a := fun a => by rw [ex]; rfl
  have kx : Keeps (· ∈ [.mgmt]) u x := by
    have can := Can.all [.mgmt]
    rw [ex]
    exact Keeps.upd (.refl u) rfl rfl rfl
  have kv : Keeps (· ∈ [.regs]) x v := by
    have can := Can.all [.regs]
    rw [ev]
    exact raise_keeps (count_keeps (.refl x) ..) ..
  refine ⟨v, ?_, ?_, ?_, fun a => ?_, ((kx.mono (by decide)).trans (kv.mono (by decide))).sameBut, by rw [ev, ex]; rfl⟩
  · have e : v.port = x.port := by
      rw [ev, raise_port]
      rfl
    rw [e, ex]
  · unfold Counted
    rw [← hx, ev, rawReg_raise_other _ (by decide)]
    exact rawReg_count_self x 0 Ctr.MG_ABANDON_CNT 1
  · rw [ev]
    exact bitSet_raise _ 0 Flag.ident_ABANDONED (by decide)
  · by_cases h1 : a = 0 + Ctr.MG_ABANDON_CNT
    · exact .inl (by simp [h1])
    by_cases h2 : a = 0 + Flag.ident_ABANDONED.1
    · exact .inl (by simp [h2])
    exact .inr (by rw [ev, rawReg_raise_other _ h2, rawReg_count_other x h1, hx])

theorem keyed_iff (v : Word) : keyed v = true ↔ v.toNat % 2 ^ 16 = Config.key := by
  unfold keyed bitField
  simp

end Sys2Proof.Machine
end

