-- ==== Sys2Proof/Laws/Images.lean ====
section
/-! SUPPORT. Image and owner commands, and frames: what a whole command comes to. -/

-- one theorem after the other: proofs side by side would need more memory than the check allows
set_option Elab.async false

namespace Sys2Proof.Machine

open Sys2Proof.Safety

theorem ownerCmd_iff (s : State) (v : Word) (bit other : Nat) (h : (bit = 16 ∧ other = 17) ∨ (bit = 17 ∧ other = 16)) :
    ownerCmd s v bit = true ↔ OwnerWrite v bit other s := by
  unfold ownerCmd OwnerWrite
  rw [bitAt_getLsbD, bitAt_getLsbD, bitAt_getLsbD]
  simp only [Bool.and_eq_true, keyed_iff, Option.isNone_iff_eq_none]
  rcases h with ⟨rfl, rfl⟩ | ⟨rfl, rfl⟩ <;> cases v.getLsbD 16 <;> cases v.getLsbD 17 <;> simp [and_assoc]

theorem enrol_outcome (s : State) (sig : SigVerdict) (keys : List Byte) : EnrolOutcome s sig keys (enrolCode s sig keys) := by
  obtain ⟨fr, hf, he⟩ := enrolCode_eq s sig keys
  refine ⟨mayEnrol_iff s sig keys, fun h => ?_, fun h1 h2 h3 h4 => ?_, ?_⟩
  · rw [he, if_pos]
    cases h1 : sig.ed <;> cases h2 : sig.mldsa <;> simp_all
  · rw [he, if_neg (by rw [h1, h2]; decide), if_pos (by rw [h3, h4]; decide)]
  · rw [he]
    split
    · omega
    split
    · omega
    split
    · omega
    split
    · omega
    split <;> omega

theorem ownerBlock_length (n : Nat) (keys : List Byte) : (ownerBlock n keys).length = sectionBytes := by
  unfold ownerBlock
  simp only [List.length_append, leBytes_length, List.length_replicate, sliceBytes_length]
  rfl

theorem writeOwner_sections (s : State) (bs : List Byte) (h : bs.length = sectionBytes) : OwnerSections bs s (writeOwner s bs) := by
  intro b
  refine ⟨writeOwner_holds s bs b, fun x hx => ?_⟩
  rw [norOf_writeOwner]
  exact norStore_other _ _ _ _ (by rw [h]; exact hx)

theorem sliceBytes_append {a b : List Byte} {off n : Nat} (h : a.length = off) : sliceBytes (a ++ b) off n = sliceBytes b 0 n := by
  unfold sliceBytes
  refine List.map_congr_left fun i _ => ?_
  rw [List.getD_eq_getElem?_getD, List.getD_eq_getElem?_getD, List.getElem?_append_right (by omega)]
  congr 2
  omega

/-- The report is its body and what follows it, and the body's nonce stands between two parts. -/
theorem attBody_parts (s : State) (op : AttOp) : ∃ a : List Byte, a.length = 0x100 ∧
    attBody s op = a ++ (wordBytes op.nonce ++ leBytes 32 0) ∧ leAt a 0 4 = 0x54535441 := by
  unfold attBody
  dsimp only
  refine ⟨_, ?_, List.append_assoc .., ?_⟩
  · have h1 : ∀ (c : Bool) (x : List Byte), (if c then sliceBytes x 0 64 else leBytes 64 0).length = 64 := fun c x => by
      split
      · exact sliceBytes_length ..
      · exact leBytes_length ..
    simp only [List.length_append, leBytes_length, sliceBytes_length, h1]
    cases ownerBlockOf s <;> simp only [leBytes_length, sliceBytes_length]
  · simp only [List.append_assoc]
    unfold leAt
    rw [sliceBytes_left (by rw [leBytes_length] <;> decide)]
    decide

theorem report_gives (s : State) (op : AttOp) : (op.nonce.length = 8 → (attReport s op).length = 3696) ∧
    (op.nonce.length = 8 → sliceBytes (attReport s op) 0x100 32 = wordBytes op.nonce) ∧ leAt (attReport s op) 0 4 = 0x54535441 := by
  obtain ⟨a, a1, a2, a3⟩ := attBody_parts s op
  unfold attReport
  dsimp only
  generalize Config.deviceSign 0 _ = x
  generalize Config.deviceSign 1 _ = y
  rw [a2]
  simp only [List.append_assoc]
  refine ⟨fun h => ?_, fun h => ?_, ?_⟩
  · simp only [List.length_append, leBytes_length, sliceBytes_length, wordBytes_length, a1, h]
  · rw [sliceBytes_append a1, sliceBytes_left (by rw [wordBytes_length, h] <;> decide), show 32 = (wordBytes op.nonce).length by rw [wordBytes_length, h], sliceBytes_all]
  · unfold leAt at *
    rw [sliceBytes_left (by rw [a1]; decide)]
    exact a3

theorem checkAll_le (s : State) (m : List Host.Cell) (v : ImageVerdict) : checkAll s m v < 16 := by
  have h : checkImage s m v ≤ 8 := by
    unfold checkImage
    dsimp only
    repeat' split
    all_goals omega
  unfold checkAll
  dsimp only
  split <;> omega

theorem raise_only (s : State) (b : Nat) (f : Nat × Nat) (hf : f.2 < 32) : BitSet (b + f.1) f.2 (raise s b f) ∧
    RegsBut [b + f.1] s (raise s b f) ∧ Keeps (· ∈ [.regs]) s (raise s b f) := by
  refine ⟨bitSet_raise _ _ _ hf, fun a => ?_, ?_⟩
  · by_cases h : a = b + f.1
    · exact .inl (by simp [h])
    · exact .inr (rawReg_raise_other _ h)
  · have can := Can.all [.regs]
    exact raise_keeps (.refl s) ..

theorem setNor_same (s : State) (b : Bool) (m : List Host.Cell) : SameBut [.nor] s (setNor s b m) := by
  unfold setNor
  split <;>
  · refine ⟨rfl, fun p => ?_⟩
    cases p <;> first
      | exact .inl (by decide)
      | exact .inr rfl

theorem sameBut_join {l m n : List Part} {r s t : State} (h : SameBut l r s) (k : SameBut m s t) (hl : ∀ p ∈ l, p ∈ n := by decide)
    (hm : ∀ p ∈ m, p ∈ n := by decide) : SameBut n r t :=
  ⟨k.1.trans h.1, fun p => (h.2 p).elim (fun e => .inl (hl p e)) fun e => (k.2 p).elim (fun f => .inl (hm p f)) fun f => .inr (same_trans e f)⟩

theorem norBut_raise {b : Bool} {a n : Nat} {s t : State} (h : ∀ x, norOf t x = norOf s x) {z : State} (k : NorBut b a n z s) : NorBut b a n z t := by
  obtain ⟨h1, h2⟩ := k
  exact ⟨(h _).trans h1, fun x hx => by rw [h]; exact h2 x hx⟩

theorem imgFail_pwr (s : State) (c r : Nat) : (imgFail s c r).pwr = s.pwr := by
  unfold imgFail
  dsimp only
  rw [raise_pwr]
  rfl

theorem regsBut_of {l : List Nat} {s t u : State} (h : RegsBut l t u) (e : ∀ a, rawReg t a = rawReg s a) : RegsBut l s u :=
  fun a => (h a).imp id fun h => h.trans (e a)

theorem imgFailed_of {c n : Nat} {s t u : State} (h : ImgFailed c n t u) (e : ∀ a, rawReg t a = rawReg s a) : ImgFailed c n s u := by
  obtain ⟨h1, h2, h3, h4⟩ := h
  exact ⟨h1, h2, h3, regsBut_of h4 e⟩

theorem release_eq (s : State) : completeRelease s = warmReset (writeOwner { s with
    mem := s.mem.filter fun c => Config.coreBase ≤ c.1
    pwr := { s.pwr with ownerSlots := match lastSlot s with
      | some x => s.pwr.ownerSlots.set x.1 { x.2 with released := true }
      | none => s.pwr.ownerSlots } } (List.replicate sectionBytes 0xFF)) .release := rfl

theorem size_iff (f : RxFrame) : sizeOk f = true ↔ 64 ≤ f.size ∧ f.size ≤ 9216 := by
  simp [sizeOk]

theorem answers_push {s : State} (f : TxFrame) : Answers f s (pushTx (portCount s Ctr.PORT_RX_FRAME_CNT) f) := by
  obtain ⟨h1, h2, h3⟩ := rx_push (s := s) f
  exact ⟨h3, h1, (counts_one s Ctr.PORT_RX_FRAME_CNT).others, h2⟩

theorem mode_iff (s : State) (m : Nat) : (1 ≤ m ∧ m ≤ 6 ∧ modeAllowed s m = true) ↔ ModeFits s m := by
  unfold modeAllowed ModeFits
  cases s.pwr.rescue <;> simp

theorem lex_flip {p q u v : Nat} (h : ¬ (p < q ∨ (p = q ∧ u < v))) (hn : u ≠ v) : q < p ∨ (q = p ∧ v < u) := by
  omega

theorem goes_before {s : State} {i j : Nat} {f g : TxFrame} (hf : MaySend s i f) (hg : MaySend s j g) (hij : j ≠ i)
    (h1 : txBefore g f = false) (h2 : j < i → txBefore f g = true) : SentBefore f g i j := by
  have n1 : ¬ txBefore g f = true := by rw [h1]; decide
  rw [before_iff] at n1 h2
  have ap := maySend_apart hg hf hij
  unfold SentBefore
  rcases Nat.lt_trichotomy (classRank f.cls) (classRank g.cls) with h | h | h
  · exact .inl h
  · have hc : f.cls = g.cls := by
      cases hfc : f.cls <;> cases hgc : g.cls <;> rw [hfc, hgc] at h <;> first | rfl | cases h
    refine .inr ⟨hc, ?_⟩
    split
    · rename_i hd
      have hd' : g.cls = .data := hc ▸ hd
      have hs := ap hd' hd
      exact lex_flip (fun e => n1 (.inr ⟨hd', hd, hs, e⟩)) hs
    · rename_i hd
      refine Nat.lt_of_not_le fun hle => ?_
      rcases h2 (by omega) with e | e
      · omega
      · exact hd e.1
  · exact absurd (.inl h) n1

end Sys2Proof.Machine
end

