-- ==== Sys2Proof/Laws/Links.lean ====
section
/-! SUPPORT. Packets of the inter-module link: what a whole packet comes to. -/

-- one theorem after the other: proofs side by side would need more memory than the check allows
set_option Elab.async false

namespace Sys2Proof.Machine

open Sys2Proof.Safety

theorem counts_session {l : List Nat} {fl : List (Nat × Nat)} {s y : State} (h : Counts l fl s y) (i : Nat) : getSession y i = getSession s i := by
  have e := (h.frame.2 .sessions).resolve_left (by decide)
  have e : y.port.sessions = s.port.sessions := e
  unfold getSession
  rw [e]

theorem closeMarkAt_same (s : State) (ep : EndpointId) : Keeps (· ∈ [.regs, .chutes]) s (closeMarkAt s ep) := by
  have can := Can.all [.regs, .chutes]
  exact closeMarkAt_keeps (.refl s) ep

theorem lotDone_gives {y : State} {i : Nat} {w : Session} (hw : getSession y i = w) (lsn : Word) (len : Nat) (bytes : List Byte) (psn : Word) :
    let t := lotDone y i lsn len bytes psn
    let again := (w.accLsn + BitVec.ofNat 32 w.lots.length - lsn).toNat < 2 ^ 31
    (again → ∃ v, Counts [pc Ctr.PORT_DUP_LOT_CNT] [pf Flag.port_DUP_LOT] y v ∧ AckSent i v t) ∧
    (¬ again → ¬ LotGood w lsn len bytes → Counts [pc Ctr.PORT_LOT_ERR_CNT] [pf Flag.port_LOT_ERR] y t) ∧
    (LotGood w lsn len bytes → t = storeLot y i lsn psn (bytes.take len)) := by
  intro t again
  have et : t = if again then sendAck (raise (portCount y Ctr.PORT_DUP_LOT_CNT) portBase Flag.port_DUP_LOT) i
      else if lsn ≠ w.accLsn + BitVec.ofNat 32 w.lots.length + 1 ∨ len < 8 ∨ (w.kind = .lot ∧ 2 ^ 20 < len) ∨ bytes.length < len then lotError y
      else storeLot y i lsn psn (bytes.take len) := by
    show lotDone y i lsn len bytes psn = _
    unfold lotDone
    rw [hw]
  have hg : LotGood w lsn len bytes ↔ ¬ (lsn ≠ w.accLsn + BitVec.ofNat 32 w.lots.length + 1 ∨ len < 8 ∨ (w.kind = .lot ∧ 2 ^ 20 < len) ∨ bytes.length < len) := by
    constructor
    · intro g e
      rcases e with e | e | e | e
      · exact e g.next
      · have := g.length.1; omega
      · have := g.length.2.2 e.1; omega
      · have := g.length.2.1; omega
    · intro g
      refine ⟨Classical.byContradiction fun e => g (.inl e), Nat.le_of_not_lt fun e => g (.inr (.inl e)), Nat.le_of_not_lt fun e => g (.inr (.inr (.inr e))), fun hk => ?_⟩
      exact Nat.le_of_not_lt fun e => g (.inr (.inr (.inl ⟨hk, e⟩)))
  rw [et]
  refine ⟨fun h => ⟨_, ?_, by rw [if_pos h]; exact sendAck_gives ..⟩, fun h h2 => ?_, fun h => ?_⟩
  · exact counts_raise (counts_one y Ctr.PORT_DUP_LOT_CNT) portBase Flag.port_DUP_LOT (by decide) (by decide)
  · rw [if_neg h, if_pos (Classical.byContradiction fun e => h2 (hg.2 e))]
    exact lotError_gives y
  · have : ¬ again := by
      intro e
      have e2 : w.accLsn + BitVec.ofNat 32 w.lots.length - lsn = -1 := by
        rw [h.next]
        generalize w.accLsn + BitVec.ofNat 32 w.lots.length = q
        bv_omega
      have e : (w.accLsn + BitVec.ofNat 32 w.lots.length - lsn).toNat < 2 ^ 31 := e
      rw [e2] at e
      exact absurd e (by decide)
    rw [if_neg this, if_neg (hg.1 h)]

theorem acked_gives (l : List TxData) (next : Word) : Acked next l (keepUnacked l next) := by
  obtain ⟨a, h1, h2, h3⟩ := keepUnacked_splits l next
  refine ⟨a, h1, fun d hd => ?_, fun d w hw => ?_⟩
  · have := h2 d hd
    unfold psnOld at this
    exact of_decide_eq_true this
  · have := h3 d w hw
    unfold psnOld at this
    exact Nat.lt_of_not_le (of_decide_eq_false this)

/-- A state with another queue of frames to send. -/
abbrev withTx (s : State) (q : List TxFrame) : State :=
  { s with port := { s.port with txQueue := q } }

theorem resent_gives (s : State) (i : Nat) (psn : Word) : Resent i psn s (resendFrom s i psn) := by
  obtain ⟨x, ex⟩ : ∃ x, x = getSession s i := ⟨_, rfl⟩
  obtain ⟨y, ey⟩ : ∃ y, y = setSession s i { x with unacked := countSends x.unacked psn } := ⟨_, rfl⟩
  obtain ⟨z, ez⟩ : ∃ z, z = withTx y ((y.port.txQueue.filter fun f => !isDataOf i f) ++
    (x.unacked.filter fun d => !psnOld d.psn psn).map (responseFrame y i)) := ⟨_, rfl⟩
  have e : resendFrom s i psn = count z portBase Ctr.PORT_RETX_CNT (x.unacked.filter fun d => !psnOld d.psn psn).length := by
    rw [ez, ey, ex]
    rfl
  obtain ⟨y1, y2, y3⟩ := setSession_is s i { x with unacked := countSends x.unacked psn }
  rw [← ey] at y1 y2 y3
  have hf : ∀ d, responseFrame y i d = responseFrame s i d := responseFrame_congr (by rw [y1, ex]) (by rw [ey]; rfl) (by rw [ey]; rfl)
  have ss : ∀ j, getSession (resendFrom s i psn) j = getSession y j := fun j => by rw [e, ez]; rfl
  refine ⟨?_, fun j hj => (ss j).trans (y2 j hj), ?_, ?_, ?_⟩
  · rw [ss, y1, ex]
  · rw [e]
    show z.port.txQueue = _
    rw [ez, ey, ← ex]
    show _ ++ List.map _ _ = _
    rw [← ey, List.map_congr_left fun d _ => hf d, show y.port.txQueue = s.port.txQueue by rw [ey]; rfl]
  · unfold Counted
    rw [e, ← ex]
    have : ∀ a, rawReg z a = rawReg s a := fun a => by rw [ez, ey]; rfl
    rw [← this]
    exact rawReg_count_self z portBase Ctr.PORT_RETX_CNT _
  · have can := Can.all [.regs, .txQueue, .sessions]
    exact (resendFrom_keeps (.refl s) i psn).sameBut

theorem outResent_gives {s : State} {k : Nat} {o : OutSession} (h : s.port.outs[k]? = some o) (psn : Word) : OutResent k psn o s (resendOut s k psn) := by
  obtain ⟨z, ez⟩ : ∃ z, z = withTx (withOut s k { o with unacked := countSends o.unacked psn })
    (s.port.txQueue ++ (o.unacked.filter fun d => !psnOld d.psn psn).map (outData s o (undatedDry s))) := ⟨_, rfl⟩
  have e : resendOut s k psn = count z portBase Ctr.PORT_RETX_CNT (o.unacked.filter fun d => !psnOld d.psn psn).length := by
    unfold resendOut
    rw [h]
    dsimp only
    rw [updOut_some h, ez]
    rfl
  refine ⟨by rw [e, ez]; rfl, by rw [e, ez]; rfl, ?_, ?_⟩
  · unfold Counted
    rw [e]
    have : ∀ a, rawReg z a = rawReg s a := fun a => by rw [ez]; rfl
    rw [← this]
    exact rawReg_count_self z portBase Ctr.PORT_RETX_CNT _
  · have can := Can.all [.regs, .txQueue, .outs]
    exact (resendOut_keeps (.refl s) k psn).sameBut

theorem header_or {p : IltPacket} : ¬ (headerOk p true = true ∧ lengthOk p = true) ↔ (!headerOk p true || !lengthOk p) = true := by
  cases headerOk p true <;> cases lengthOk p <;> simp

theorem filter_all {l : List TxData} {psn : Word} (h : ∀ d ∈ l, psnOld d.psn psn = true) : (l.filter fun d => !psnOld d.psn psn) = [] :=
  List.filter_eq_nil_iff.2 fun d hd => by rw [h d hd]; decide

theorem retransmit_gives (s : State) (i : Nat) (psn : Word) :
    ((∀ d ∈ (getSession s i).unacked, psnOld d.psn psn = true) → retransmit s i psn = s) ∧
    (∀ d w, (getSession s i).unacked.filter (fun d => !psnOld d.psn psn) = d :: w → d.sends < 16 → Resent i psn s (retransmit s i psn)) := by
  refine ⟨fun h => ?_, fun d w h hd => ?_⟩
  · unfold retransmit
    dsimp only
    rw [find_again, filter_all h]
    rfl
  · have e : retransmit s i psn = resendFrom s i psn := by
      unfold retransmit
      dsimp only
      rw [find_again, h]
      exact if_neg (by omega)
    rw [e]
    exact resent_gives s i psn

theorem first_again {d : TxData} {w : List TxData} : (d :: w).filter (fun e => !psnOld e.psn d.psn) = d :: w.filter (fun e => !psnOld e.psn d.psn) := by
  refine List.filter_cons_of_pos ?_
  unfold psnOld
  rw [BitVec.sub_self]
  decide

theorem resetReceived_as {s : State} {i : Nat} {w : State} (h : (if (getSession s i).resetSent = 0 then
      (match chutesAt s (.hub (Fin.ofNat 2048 i)) with
      | [] => resetHubSession (resetChuteOnly s (.hub (Fin.ofNat 2048 i))) i
      | l => abortWork s [] l) else s) = w) :
    resetReceived s i = resumeSession (setSession w i { getSession w i with resetSeen := true }) i := by
  subst h
  rfl

theorem ilt_other {s : State} {f : RxFrame} {p : IltPacket} (h : Received s f) (hk : udpTo s f s.pwr.config.iltPort = true)
    {c : Nat × Instr} (hc : c ∈ iltRows f p) (ht : p.type.toNat ≠ c.1) : PacketDrops c.2 f s := by
  refine ⟨portCount (arrived s f) Ctr.PORT_FILTER_DROP_CNT, ?_, arrived_count s f _ (by decide)⟩
  have key := fun n (hn : p.type.toNat ≠ n) => iltFrame_other (n := n) h hk hn
  simp only [iltRows, List.mem_cons, List.not_mem_nil, or_false] at hc
  rcases hc with e | e | e | e | e | e <;> subst e <;> refine congrArg Host.Outcome.next ?_
  · unfold dataPacket; rw [show iltFrame s f p iltData = _ from key _ ht]
  · unfold closePacket; rw [show iltFrame s f p iltClose = _ from key _ ht]
  · unfold ackPacket; rw [show iltFrame s f p iltAck = _ from key _ ht]
  · unfold nakPacket; rw [show iltFrame s f p iltNak = _ from key _ ht]
  · unfold tailPacket; rw [show iltFrame s f p iltTail = _ from key _ ht]
  · unfold resetPacket; rw [show iltFrame s f p iltReset = _ from key _ ht]

theorem storeLot_gives {s y : State} {i : Nat} {w : Session} (hs : SessionIs i w s y) (lsn psn : Word) (b : List Byte) :
    ∃ z, SessionIs i { w with lots := w.lots ++ [{ lsn := lsn, bytes := b, psnAfter := psn, write := s.jnl.nextId }] } s z ∧
      (w.kind ≠ .lot → storeLot y i lsn psn b = z) ∧ (w.kind = .lot → LotWritten i lsn psn b z (storeLot y i lsn psn b)) := by
  obtain ⟨h1, h2, h3⟩ := hs
  have hj : y.jnl = s.jnl := by
    have e1 := (h3.2 .jnl).resolve_left (by decide)
    have e2 := (h3.2 .respLog).resolve_left (by decide)
    have e3 := (h3.2 .lotRing).resolve_left (by decide)
    simp only [Part.same] at e1 e2 e3
    generalize y.jnl = j at *
    generalize s.jnl = k at *
    cases j
    cases k
    simp only [Journal.mk.injEq] at *
    simp_all
  obtain ⟨z, ez⟩ : ∃ z, z = setSession y i { w with lots := w.lots ++ [{ lsn := lsn, bytes := b, psnAfter := psn, write := s.jnl.nextId }] } := ⟨_, rfl⟩
  have hz := setSession_is y i { w with lots := w.lots ++ [{ lsn := lsn, bytes := b, psnAfter := psn, write := s.jnl.nextId }] }
  rw [← ez] at hz
  obtain ⟨z1, z2, z3⟩ := hz
  obtain ⟨u, eu⟩ : ∃ u, u = ({ z with jnl := { z.jnl with lotRing := z.jnl.lotRing ++ [newLot i lsn psn b] } } : State) := ⟨_, rfl⟩
  have e : storeLot y i lsn psn b = if w.kind = .lot then startWrite u (.lot i lsn) .lot (lotKey i lsn) (lotRecordBytes u i lsn psn b) else z := by
    unfold storeLot
    rw [h1, ← hj] at *
    rw [eu, ez]
  refine ⟨z, ⟨z1, fun j h => (z2 j h).trans (h2 j h), sameBut_join h3 z3⟩, fun h => by rw [e, if_neg h], fun h => ?_⟩
  rw [e, if_pos h]
  obtain ⟨pw, p1, p2, p3⟩ := startWrite_writes u (.lot i lsn) .lot (lotKey i lsn) (lotRecordBytes u i lsn psn b)
  have k := startWrite_keeps' u (.lot i lsn) .lot (lotKey i lsn) (lotRecordBytes u i lsn psn b)
  have ku : Keeps (· ∈ [.lotRing]) z u := by
    have can := Can.all [.lotRing]
    rw [eu]
    exact Keeps.upd (.refl z) rfl rfl rfl
  simp only [Prod.mk.injEq] at p2
  refine ⟨?_, ⟨pw, ?_, ?_, p2.2.1, p2.2.2, ?_⟩, ((ku.mono (by decide)).trans (k.mono (by decide))).sameBut⟩
  · have := k.field .lotRing (by decide)
    have this : (startWrite u (.lot i lsn) .lot (lotKey i lsn) (lotRecordBytes u i lsn psn b)).jnl.lotRing = u.jnl.lotRing := this
    rw [this, eu]
    rfl
  · rw [p1, eu]
  · rw [p2.1, eu]
  · rw [p3, eu]

end Sys2Proof.Machine
end

