-- ==== Sys2Proof/Laws/Journals.lean ====
section
/-! SUPPORT. The journal and its mirror: what the operations do. -/

-- one theorem after the other: proofs side by side would need more memory than the check allows
set_option Elab.async false

namespace Sys2Proof.Machine

open Sys2Proof.Safety

theorem copiesHold_iff (s : State) (ok0 ok8 : Bool) : copiesHold s ok0 ok8 = true ↔ CopiesHold s ok0 ok8 := by
  unfold copiesHold CopiesHold
  cases s.jnl.copy0 <;> cases s.jnl.copy8 <;> cases ok0 <;> cases ok8 <;> decide

theorem filter_id {α : Type} {p : α → Bool} {l : List α} (h : ∀ a ∈ l, p a = true) : l.filter p = l :=
  List.filter_eq_self.2 h

theorem findIdx_first {α : Type} {p : α → Bool} {l : List α} {k : Nat} {a : α} (h : l[k]? = some a) (ha : p a = true)
    (hf : ∀ j b, j < k → l[j]? = some b → p b = false) : l.findIdx? p = some k := by
  obtain ⟨hk, e⟩ := List.getElem?_eq_some_iff.1 h
  rw [List.findIdx?_eq_some_iff_getElem]
  refine ⟨hk, by rw [e]; exact ha, fun j hj => ?_⟩
  rw [hf j _ hj (List.getElem?_eq_getElem (Nat.lt_trans hj hk))]
  decide

theorem mirror_begins (s : State) : MirrorBegins s (reopenMirror s) := by
  unfold MirrorBegins
  intro side
  refine ⟨?_, ?_, fun k o ho hk hf => ?_, fun hn => ?_⟩
  · unfold reopenMirror
    split
    · show (updOut s _ _).port.txQueue ++ _ = _
      refine congrArg (· ++ _) ?_
      unfold updOut
      split <;> rfl
    · rfl
  · have can := Can.all [.txQueue, .outs]
    exact (reopenMirror_keeps (.refl s)).sameBut
  · unfold reopenMirror
    rw [findIdx_first ho (by rw [hk]; rfl) fun j u hj hu => by simpa using hf j u hj hu]
    dsimp only
    rw [updOut_some ho]
    rfl
  · unfold reopenMirror
    rw [List.findIdx?_eq_none_iff.2 fun o ho => by simpa using hn o ho]
    rfl

theorem count_gives (s : State) (b o n : Nat) : Counted (b + o) n s (count s b o n) := rawReg_count_self s b o n

theorem voidOne_allocs (s : State) (g : Nat) : (voidOne s g).dep.allocs = s.dep.allocs := by
  have can := Can.all [.regs, .voids, .dep]
  exact (voidOne_keeps (.refl s) g).field .allocs (by decide)

theorem holds_voids (s : State) (g : Nat) : (enterRecovery (holdReaders s g)).dep.voids = s.dep.voids ∧
    (enterRecovery (holdReaders s g)).dep.allocs = s.dep.allocs := by
  have can := Can.all [.regs, .jobs, .dep, .txQueue, .sessions, .outs, .arrays, .cores, .hoists, .scatters, .chutes]
  have k := enterRecovery_keeps (holdReaders_keeps (.refl s) g) (Can.sub can (by decide))
  exact ⟨k.field .voids (by decide), k.field .allocs (by decide)⟩

theorem isVoid_congr {s t : State} (h : t.dep.voids = s.dep.voids) (g : Nat) : isVoid t g = isVoid s g := by
  unfold isVoid
  rw [h]

theorem allocationOf_congr {s t : State} (h : t.dep.allocs = s.dep.allocs) (a : Addr) : allocationOf t a = allocationOf s a := by
  unfold allocationOf
  rw [h]

theorem allocationOf_granule {s : State} {a : Allocation} (h : a ∈ s.dep.allocs) (h1 : a.base % 4096 = 0) {k : Nat} (hk : k < a.size / 4096) :
    (allocationOf s ((a.base / 4096 + k) * 4096)).isSome = true := by
  unfold allocationOf
  rw [List.find?_isSome]
  refine ⟨a, h, ?_⟩
  simp only [Bool.and_eq_true, decide_eq_true_eq]
  have key : ∀ b n k : Nat, b % 4096 = 0 → k < n / 4096 → b ≤ (b / 4096 + k) * 4096 ∧ (b / 4096 + k) * 4096 < b + n := by
    intro b n k h1 hk
    omega
  exact key a.base a.size k h1 hk

theorem jnl_eq {a b : Journal} (h1 : a.respLog = b.respLog) (h2 : a.lotRing = b.lotRing) (h3 : { a with
      respLog := []
      lotRing := [] } = { b with
      respLog := []
      lotRing := [] }) : a = b := by
  cases a
  cases b
  simp only [Journal.mk.injEq] at h1 h2 h3 ⊢
  exact ⟨h3.1, h3.2.1, h2, h1, h3.2.2.2.2⟩

theorem warm_of {s t : State} (h : Part.pwr.same s t) : t.pwr.warm = s.pwr.warm := by
  unfold Part.same at h
  exact (congrArg Power.warm h : _)

theorem resync_gives (s : State) (i : Nat) : let t := resyncSession s i
    ((getSession s i).kind ≠ .lot → t = s) ∧
    ((getSession s i).kind = .lot → Resyncs (getSession t i)) ∧
    (∀ j, j ≠ i → getSession t j = getSession s j) ∧
    (∀ j, (getSession t j).kind = (getSession s j).kind ∧ (getSession t j).accPsn = (getSession s j).accPsn ∧
      (getSession t j).backlog = (getSession s j).backlog) := by
  intro t
  by_cases h : (getSession s i).kind = .lot
  · have et : t = _ := if_pos h
    obtain ⟨x, ex⟩ : ∃ x : Session, x.kind = (getSession s i).kind ∧ x.accPsn = (getSession s i).accPsn ∧ x.backlog = (getSession s i).backlog ∧
        x.expPsn = x.accPsn ∧ x.unacked = [] ∧ x.resync = true ∧ x.resyncs = 1 ∧ t = sendNakNow (setSession s i x) i 4 :=
      by
      refine ⟨_, ?_, ?_, ?_, ?_, ?_, ?_, ?_, et⟩ <;> rfl
    obtain ⟨x1, x2, x3, x4, x5, x6, x7, et⟩ := ex
    obtain ⟨y1, y2, -⟩ := setSession_is s i x
    have n := sendNakNow_gives (setSession s i x) i 4
    rw [← et] at n
    have g : getSession t i = { x with
        nakAt := some (setSession s i x).clk.now
        nakReason := 4 } := n.session.trans (by rw [y1])
    have o : ∀ j, j ≠ i → getSession t j = getSession s j := fun j hj => (n.others j hj).trans (y2 j hj)
    refine ⟨fun k => absurd h k, fun _ => ?_, o, fun j => ?_⟩
    · rw [g]
      exact ⟨x4, x5, x6, x7, (by intro k; cases k), rfl⟩
    · by_cases hj : j = i
      · subst hj
        rw [g]
        exact ⟨x1, x2, x3⟩
      · rw [o j hj]
        exact ⟨rfl, rfl, rfl⟩
  · have e : t = s := if_neg h
    rw [e]
    exact ⟨fun _ => rfl, fun k => absurd k h, fun _ _ => rfl, fun _ => ⟨rfl, rfl, rfl⟩⟩

theorem resync_all (l : List Nat) : ∀ s : State, let t := l.foldl resyncSession s
    (∀ j, (getSession t j).kind = (getSession s j).kind ∧ (getSession t j).accPsn = (getSession s j).accPsn ∧
      (getSession t j).backlog = (getSession s j).backlog) ∧
    (∀ i, (getSession s i).kind = .lot → i ∈ l ∨ Resyncs (getSession s i) → Resyncs (getSession t i)) := by
  induction l with
  | nil => exact fun s => ⟨fun _ => ⟨rfl, rfl, rfl⟩, fun i _ h => h.resolve_left (by simp)⟩
  | cons a l ih =>
    intro s t
    obtain ⟨r1, r2, r3, r4⟩ := resync_gives s a
    obtain ⟨i1, i2⟩ := ih (resyncSession s a)
    refine ⟨fun j => ⟨(i1 j).1.trans (r4 j).1, (i1 j).2.1.trans (r4 j).2.1, (i1 j).2.2.trans (r4 j).2.2⟩, fun i hi h => ?_⟩
    refine i2 i ((r4 i).1.trans hi) ?_
    by_cases e : i = a
    · subst e
      exact .inr (r2 hi)
    · rcases h with h | h
      · exact .inl ((List.mem_cons.1 h).resolve_left e)
      · rw [r3 i e]
        exact .inr h

theorem lot_listed {s : State} {i : Nat} (h : (getSession s i).kind = .lot) : i ∈ s.port.sessions.map (·.1) := by
  rcases tget_mem s.port.sessions {} i with g | g
  · exact List.mem_map.2 ⟨_, g, rfl⟩
  · have : getSession s i = {} := g
    rw [this] at h
    cases h

theorem voidOne_voids (s : State) (g : Nat) : isVoid (voidOne s g) g = true ∧ ∀ x, isVoid s x = true → isVoid (voidOne s g) x = true := by
  by_cases h : staysVoid s g = true
  · rw [show voidOne s g = s from if_pos h]
    unfold staysVoid at h
    rw [Bool.and_eq_true] at h
    exact ⟨h.1, fun x hx => hx⟩
  · have hv : ∃ home, (voidOne s g).dep.voids = { gran := g, void := true, home := home } :: s.dep.voids.filter fun v => v.gran != g := by
      have k : ∀ z : State, ∀ b c : Bool, (raise (if c then reportLoss z g b else z) depBase Flag.dep_VOID).dep.voids = z.dep.voids := fun z b c => by
        have can := Can.all [.regs, .dep]
        exact (raise_keeps (by cases c; exact .refl z; exact reportLoss_keeps (.refl z) g b) depBase Flag.dep_VOID).field .voids (by decide)
      exact ⟨_, (congrArg (fun t : State => t.dep.voids) (if_neg h)).trans (k _ _ _)⟩
    obtain ⟨home, hv⟩ := hv
    refine ⟨?_, fun x hx => ?_⟩
    · unfold isVoid
      rw [hv]
      simp
    · unfold isVoid at hx ⊢
      rw [hv]
      by_cases e : x = g
      · simp [e]
      · simp only [List.any_cons, List.any_filter, Bool.or_eq_true]
        refine .inr ?_
        rw [List.any_eq_true] at hx ⊢
        obtain ⟨v, hv, hp⟩ := hx
        refine ⟨v, hv, ?_⟩
        simp only [Bool.and_eq_true, beq_iff_eq, bne_iff_ne] at hp ⊢
        exact ⟨fun q => e (hp.1.symm.trans q), hp⟩

theorem voidGranules_voids (gs : List Nat) : ∀ s : State, (voidGranules s gs).dep.allocs = s.dep.allocs ∧
    (∀ g, isVoid s g = true → isVoid (voidGranules s gs) g = true) ∧
    ∀ g ∈ gs, (allocationOf s (g * 4096)).isSome = true → isVoid (voidGranules s gs) g = true := by
  induction gs with
  | nil => exact fun s => ⟨rfl, fun g h => h, fun g h => (by cases h)⟩
  | cons a gs ih =>
    intro s
    obtain ⟨y, ey⟩ : ∃ y, y = if (allocationOf s (a * 4096)).isSome && !staysVoid s a then enterRecovery (holdReaders (voidOne s a) a) else s := ⟨_, rfl⟩
    have e : voidGranules s (a :: gs) = voidGranules y gs := by rw [ey]; rfl
    have key : y.dep.allocs = s.dep.allocs ∧ (∀ g, isVoid s g = true → isVoid y g = true) ∧
        ((allocationOf s (a * 4096)).isSome = true → isVoid y a = true) := by
      by_cases h : ((allocationOf s (a * 4096)).isSome && !staysVoid s a) = true
      · rw [if_pos h] at ey
        obtain ⟨v1, v2⟩ := holds_voids (voidOne s a) a
        obtain ⟨w1, w2⟩ := voidOne_voids s a
        rw [ey]
        exact ⟨v2.trans (voidOne_allocs s a), fun g hg => (isVoid_congr v1 g).trans (w2 g hg), fun _ => (isVoid_congr v1 a).trans w1⟩
      · rw [if_neg h] at ey
        rw [ey]
        refine ⟨rfl, fun g hg => hg, fun ha => ?_⟩
        rw [ha] at h
        have k : staysVoid s a = true := by simpa using h
        unfold staysVoid at k
        rw [Bool.and_eq_true] at k
        exact k.1
    obtain ⟨i1, i2, i3⟩ := ih y
    rw [e]
    refine ⟨i1.trans key.1, fun g hg => i2 g (key.2.1 g hg), fun g hg ha => ?_⟩
    rcases List.mem_cons.1 hg with hg | hg
    · subst hg
      exact i2 g (key.2.2 ha)
    · refine i3 g hg ?_
      rw [allocationOf_congr key.1]
      exact ha

end Sys2Proof.Machine
end

