-- ==== Sys2Proof/Laws/Scratch.lean ====
section
/-! SUPPORT. Scratch banks: what the operations do. -/

-- one theorem after the other: proofs side by side would need more memory than the check allows
set_option Elab.async false

namespace Sys2Proof.Machine

open Sys2Proof.Safety

theorem scrOrder_inj {a b : ScrRequester} (h : scrOrder a = scrOrder b) : a = b := by
  cases a <;> cases b <;> simp [scrOrder] at h ⊢

theorem scrOrder_lt (a : ScrRequester) : scrOrder a < 8 := by
  cases a <;> decide

/-- Whether a request goes first where the promotions and the table say so. -/
theorem scrBefore_iff (x : CoreState) (b : Nat) (r q : ScrRequest) : scrBefore x b r q = true ↔
    ((b, scrOrder r.who) ∈ x.promoted ∧ (b, scrOrder q.who) ∉ x.promoted ∨
      (((b, scrOrder r.who) ∈ x.promoted ↔ (b, scrOrder q.who) ∈ x.promoted) ∧ scrOrder r.who < scrOrder q.who)) := by
  simp only [scrBefore]
  by_cases h1 : (b, scrOrder r.who) ∈ x.promoted <;> by_cases h2 : (b, scrOrder q.who) ∈ x.promoted <;>
    simp [h1, h2]

theorem filterMap_range_single {α : Type} (f : Nat → α) (n b : Nat) (hb : b < n) :
    ((List.range n).filterMap fun k => if k = b then some (f k) else none) = [f b] := by
  induction n with
  | zero => omega
  | succ n ih =>
    rw [List.range_succ, List.filterMap_append]
    by_cases e : n = b
    · subst e
      have : ((List.range n).filterMap fun k => if k = n then some (f k) else none) = [] := by
        rw [List.filterMap_eq_nil_iff]
        intro k hk
        rw [if_neg (by have := List.mem_range.mp hk; omega)]
      simp [this]
    · rw [ih (by omega)]
      simp [e]

theorem bankOfOffset_lt (off : Nat) : bankOfOffset off < 32 := Nat.mod_lt _ (by decide)

/-- The grants of a cycle whose requests all go to one bank. -/
theorem cycleGrants_one (x : CoreState) (rs : List ScrRequest) (b : Nat) (hb : b < 32)
    (h : ∀ r ∈ rs, r.offset < 0x100000 ∧ bankOfOffset r.offset = b) (g : ScrRequest × Nat)
    (hg : grantOf x b rs.zipIdx = some g) : requestsAt rs b = rs.zipIdx ∧ cycleGrants x rs = [(b, g)] := by
  have all : ∀ r ∈ rs.zipIdx, r.1.offset < 0x100000 ∧ bankOfOffset r.1.offset = b := fun r hr =>
    h r.1 (List.fst_mem_of_mem_zipIdx hr)
  have at_ : ∀ k, requestsAt rs k = if k = b then rs.zipIdx else [] := by
    intro k
    by_cases e : k = b
    · subst e
      rw [if_pos rfl, requestsAt, List.filter_eq_self]
      intro r hr
      simp [all r hr]
    · rw [if_neg e, requestsAt, List.filter_eq_nil_iff]
      intro r hr
      simp [all r hr, Ne.symm e]
  refine ⟨by rw [at_, if_pos rfl], ?_⟩
  have : (fun k => (grantOf x k (requestsAt rs k)).map fun g => (k, g)) =
      fun k => if k = b then some ((fun k => (k, g)) k) else none := by
    funext k
    rw [at_]
    by_cases e : k = b
    · subst e
      rw [if_pos rfl, if_pos rfl, hg]
      rfl
    · rw [if_neg e, if_neg e]
      rfl
  rw [cycleGrants, this, filterMap_range_single _ _ _ hb]

/-- A cycle in which two requesters meet at one bank. -/
theorem scratchAccess_two (s : State) (c : CoreId) (r q : ScrRequest) (bs cs : List Byte) (hr : LineWrite r bs)
    (hw : WholeWords r bs) (hq : LineWrite q cs) (hb : bankOfOffset r.offset = bankOfOffset q.offset) (hne : r.who ≠ q.who)
    (hbefore : scrBefore (getCore s c) (bankOfOffset r.offset) r q = true) (l : List ScrRequest)
    (hl : l = [r, q] ∨ l = [q, r]) :
    scratchAccess s c l =
      writeScratch (drainLine (count (setCore s c { getCore s c with
        refusals := tset [] 0 (refusalKey (bankOfOffset r.offset) q.who)
          (tget (getCore s c).refusals 0 (refusalKey (bankOfOffset r.offset) q.who) + 1),
        promoted := (getCore s c).promoted.filter fun p => !([(bankOfOffset r.offset, scrOrder r.who)].contains p) })
        (coreRegBase c) Ctr.SCR_CONFLICT_CNT 1) c r.who) c r.offset bs := by
  have h1 := hr.2.1
  have h2 := hq.2.1
  have hnot : scrBefore (getCore s c) (bankOfOffset r.offset) q r = false := by
    rw [Bool.eq_false_iff]
    intro h
    rw [scrBefore_iff] at h hbefore
    rcases h with h | h <;> rcases hbefore with k | k
    · exact h.2 k.1
    · exact h.2 (k.1.mpr h.1)
    · exact k.2 (h.1.mpr k.1)
    · omega
  have htake : bs.take (32 - r.offset % 32) = bs := List.take_of_length_le (by have := hr.2.2; omega)
  have hne' : q.who ≠ r.who := Ne.symm hne
  have hwh : wholeWords r.offset bs.length = true := by simpa [wholeWords, WholeWords] using hw
  obtain ⟨i, hi⟩ : ∃ i, grantOf (getCore s c) (bankOfOffset r.offset) l.zipIdx = some (r, i) := by
    rcases hl with rfl | rfl
    · exact ⟨0, by simp [grantOf, hnot]⟩
    · exact ⟨1, by simp [grantOf, hbefore]⟩
  obtain ⟨g1, g2⟩ := cycleGrants_one (getCore s c) l (bankOfOffset r.offset) (bankOfOffset_lt _)
    (by rcases hl with rfl | rfl <;> simp [h1, h2, hb]) _ hi
  have hk : refusedAt l (bankOfOffset r.offset, r, i) = [q.who] := by
    rw [refusedAt, g1]
    rcases hl with rfl | rfl <;> simp [List.eraseDups_cons, hne']
  have hn : (requestsAt l (bankOfOffset r.offset)).length = 2 := by
    rw [g1]
    rcases hl with rfl | rfl <;> rfl
  have hv : (l.filter fun r => decide (0x100000 ≤ r.offset)) = [] := by
    rcases hl with rfl | rfl <;> simp <;> omega
  unfold scratchAccess
  simp only [g2, hv, afterCycle, List.flatMap_cons, List.flatMap_nil, List.append_nil, hk, List.map_cons, List.map_nil, hn,
    List.foldl_cons, List.foldl_nil, List.sum_cons, List.sum_nil, Nat.add_one_sub_one, Nat.add_zero, Nat.one_ne_zero, if_false,
    scratchGrant, hr.1, htake, hwh, if_true]

theorem refusalKey_inj {b : Nat} {a w : ScrRequester} (h : refusalKey b a = refusalKey b w) : a = w := by
  apply scrOrder_inj
  simp only [refusalKey] at h
  omega

end Sys2Proof.Machine
end

