-- ==== Sys2Proof/Laws/Whole.lean ====
section
/-! SUPPORT. The whole block: what the operations do. -/

-- one theorem after the other: proofs side by side would need more memory than the check allows
set_option Elab.async false

namespace Sys2Proof.Machine

open Sys2Proof.Safety

theorem keeps_time {P : Part → Prop} {s t : State} (h : Keeps P s t) (n : ¬ P .time) :
    t.clk.now = s.clk.now ∧ t.clk.tickThree = s.clk.tickThree := by
  have := (h.parts .time).resolve_left n
  simpa [Part.same] using this

theorem powerOff_time (s : State) : (powerOff s).clk.now = 0 ∧ (powerOff s).pwr.phase = .off := by
  simp [powerOff]

end Sys2Proof.Machine
end

