-- ==== Sys2Proof/WellFormed.lean ====
section
/-! DEFINITION. Which commands are well formed: the ranges of their operands that the spec's own tables give. A command that
the spec answers with a status, a counter or a discard is well formed; these checks only refuse operands that no request, frame
or engine of the hardware can carry. -/

-- one theorem after the other: proofs side by side would need more memory than the check allows
set_option Elab.async false

namespace Sys2Proof

/-! ## Ranges -/

/-- An address or a length of 64 bits in a lot command (R246). -/
def wfWide (n : Nat) : Bool := decide (n < 2 ^ 64)

/-- A slot of the descriptor table (R177): 262,144 descriptors. -/
def wfDesc (n : Nat) : Bool := decide (n < 2 ^ 18)

/-- A byte offset of a scratch window (R154): 1 MiB. -/
def wfScratch (n : Nat) : Bool := decide (n < 2 ^ 20)

/-- A whole line of the core window (R154): the vector engine reads and writes no other (R168). -/
def wfLine (n : Nat) : Bool := decide (n < 2 ^ 21) && n % 32 == 0

/-- The place of a save record: 64 B aligned in scratch (R111). -/
def wfRecord (n : Nat) : Bool := wfScratch n && n % 64 == 0

/-- A granule of a vat (R94): 80 of 4 KiB. -/
def wfVatGranule (n : Nat) : Bool := decide (n < 80)

/-- Positions of a list all below a bound. -/
def wfBelow (l : List Nat) (n : Nat) : Bool := l.all fun x => decide (x < n)

/-! ## Operands -/

/-- A received frame (R281): every field within its width. -/
def RxFrame.wf (f : RxFrame) : Bool :=
  decide (f.dstMac < 2 ^ 48) && decide (f.srcMac < 2 ^ 48) && wfBelow f.vids 4096 && decide (f.etherType < 65536) &&
  decide (f.ipProto < 256) && decide (f.hopLimit < 256) && decide (f.dstIp < 2 ^ 128) && decide (f.srcIp < 2 ^ 128) &&
  decide (f.srcPort < 65536) && decide (f.dstPort < 65536)

/-- A management frame: header and body fit the frame that carries them (R280, R305). -/
def MgmtFrame.wf (r : MgmtFrame) : Bool :=
  r.frame.wf && decide (16 + r.body.length ≤ 9216)

/-- An ILT packet in its frame (R280, R288): header, payload and CRC fit the frame. -/
def wfIlt (f : RxFrame) (p : IltPacket) : Bool :=
  f.wf && decide (36 + p.payload.length ≤ 9216)

/-- A move run (R190, R206): one byte at least, within the address space; a fill carries exactly its bytes. -/
def MoveRun.wf (r : MoveRun) : Bool :=
  decide (0 < r.len) && wfWide (r.src + r.len) && wfWide (r.dst + r.len) &&
  match r.fill with
  | some b => b.length == r.len
  | none => true

/-- A car of a train that is fed (R237): whole payload words, at most 64. -/
def CarSpec.wf (c : CarSpec) : Bool :=
  wfScratch c.offset && c.len % 64 == 0 && decide (0 < c.len) && decide (c.len ≤ 4096) && wfWide (c.src + c.len)

/-- A hoist command (R214): some runs or a train, each part well formed. -/
def HoistCmd.wf (c : HoistCmd) : Bool :=
  (c.runs != [] || c.train != []) && c.runs.all MoveRun.wf && c.train.all CarSpec.wf

/-- An output tile (R260): its row tile and column tile are 26-bit numbers, for an extent has 32 bits (R175). -/
def wfTile (rt ct : Nat) : Bool := decide (rt < 2 ^ 26) && decide (ct < 2 ^ 26)

/-- A command of a task's stream (R159). -/
def TaskCmd.wf (c : TaskCmd) : Bool :=
  match c.work with
  | .charge rt ct kt _ => wfTile rt ct && decide (kt < 2 ^ 26)
  | .operator _ => true
  | .other => true

/-- A task's load (R161, R166): its areas lie in scratch, and a command of its stream depends on earlier ones only. -/
def TaskSpec.wf (t : TaskSpec) : Bool :=
  decide (t.base + t.saveBytes + t.workBytes ≤ 2 ^ 20) &&
  t.cmds.zipIdx.all fun c => c.1.wf && c.1.deps.all fun d => decide (d < c.2)

/-- The seam sequencer's plan (R258): some seams, none twice. -/
def NodePlan.wf (p : NodePlan) : Bool :=
  decide (p.seams.map (·.1)).Nodup

/-- A bank request (R155, R157): within the core window of 2 MiB and within one line. -/
def ScrRequest.wf (r : ScrRequest) : Bool :=
  decide (r.offset < 2 ^ 21) &&
  match r.write with
  | some b => decide (0 < b.length) && decide (r.offset % 32 + b.length ≤ 32)
  | none => true

/-- An indexed instruction (R173): its region begins in scratch. -/
def VeIndexed.wf (o : VeIndexed) : Bool :=
  wfScratch o.region

/-- A CVT's source or target. -/
def CvtSrc.wf : CvtSrc → Bool
  | .reg _ fmt => decide (fmt < 64)
  | .vat tile row => wfVatGranule tile && decide (row < 64)
  | .bundle offset fmt _ => wfScratch offset && decide (fmt < 64)

/-- A CVT's target. -/
def CvtDst.wf : CvtDst → Bool
  | .reg _ fmt => decide (fmt < 64)
  | .bundle offset fmt _ => wfScratch offset && decide (fmt < 64)

/-- A MERGE (R86): a result element in scratch. -/
def MergeSpec.wf (m : MergeSpec) : Bool :=
  wfScratch m.dst

/-- A disturbance of an adit unit's sums (R139): its row lies within the 8 of an operation (R134). -/
def AditUpset.wf (u : AditUpset) : Bool :=
  decide (u.row < 8)

/-- A tram car (R237): whole payload words. -/
def Car.wf (c : Car) : Bool :=
  wfScratch c.offset && c.payload.length % 64 == 0 && decide (0 < c.payload.length)

/-- Words found bad at a channel (R204): within the seam's DRAM, with at most 72 symbols each. -/
def wfErrors (l : List (Nat × Nat)) : Bool :=
  l.all fun e => decide (64 * e.1 < 0x600000000) && decide (e.2 ≤ 72)

/-- A packet at an endpoint (R228): whole words of 64 B, at most 64. -/
def Packet.wf (p : Packet) : Bool :=
  p.data.length % 64 == 0 && decide (p.data.length ≤ 4096)

/-- A sample of temperatures (R365): one value per seam die and per stack. -/
def Temperatures.wf (t : Temperatures) : Bool :=
  t.logic.length == 16 && t.dram.length == 16

/-- What an OPEN was answered (R305). -/
def OpenAnswer.wf (a : OpenAnswer) : Bool :=
  decide (a.status ≤ 5)

/-- A fault report (R333): its place exists. -/
def FaultReport.wf : FaultReport → Bool
  | .dramUe _ offset => decide (offset < 0x600000000)
  | _ => true

/-! ## Commands -/

/-- A well-formed command. -/
def Instr.wf : Instr → Bool
  | .alloc _ _ size => wfWide size
  | .free _ base => wfWide base
  | .allocationRelease base => wfWide base
  | .descCreate .. => true
  | .descDestroy .. => true
  | .descriptorDestroyed index => wfDesc index
  | .put _ addr _ => wfWide addr
  | .get _ addr len => wfWide addr && wfWide len
  | .graphLoad _ addr len => wfWide addr && wfWide len
  | .graphUnload .. => true
  | .run _ _ _ record => wfWide record
  | .cancel .. => true
  | .jobStart .. => true
  | .nodeStart _ node plan => decide (node < 4096) && plan.wf
  | .jobComplete .. => true
  | .fetchAndAdd .. => true
  | .taskComplete .. => true
  | .taskLoad _ spec => spec.wf
  | .commandIssue .. => true
  | .taskSwitch .. => true
  | .taskAbort .. => true
  | .chargeStart .. => true
  | .weightTileLoad .. => true
  | .vectorSchedule _ record => wfScratch record
  | .idleSlot .. => true
  | .arrayFreeze .. => true
  | .drainPartial .. => true
  | .vatAccept .. => true
  | .x64Shift .. => true
  | .x64Loss .. => true
  | .tileOpen _ rt ct _ => wfTile rt ct
  | .tileInitDone _ tile => wfVatGranule tile
  | .tileClose _ tile => wfVatGranule tile
  | .partCombine _ left right => wfVatGranule left && wfWide right
  | .vatSave _ tile offset => wfVatGranule tile && wfRecord offset
  | .vatRestore _ rt ct _ offset => wfTile rt ct && wfRecord offset
  | .scratchAccess _ requests => requests.all ScrRequest.wf
  | .scratchStarvePromote .. => true
  | .veAdd .. => true
  | .veSub .. => true
  | .veMul .. => true
  | .veFma .. => true
  | .veMin .. => true
  | .veMax .. => true
  | .veAbs .. => true
  | .veNeg .. => true
  | .veDot4 .. => true
  | .veAnd .. => true
  | .veOr .. => true
  | .veXor .. => true
  | .veNot .. => true
  | .veShl .. => true
  | .veShr .. => true
  | .veSar .. => true
  | .veCmp .. => true
  | .veSel .. => true
  | .veRcp .. => true
  | .veRsqrt .. => true
  | .veSqrt .. => true
  | .veDiv .. => true
  | .veExp2 .. => true
  | .veLog2 .. => true
  | .veTanh .. => true
  | .veErf .. => true
  | .veRedsum .. => true
  | .veRedmax .. => true
  | .veRedmin .. => true
  | .veCvt _ src dst _ cover => src.wf && dst.wf && wfBelow cover.dead 64 && wfBelow cover.padded 64
  | .veLd _ _ offset => wfLine offset
  | .veSt _ _ offset => wfLine offset
  | .veGather o => o.wf
  | .veScatter o => o.wf
  | .veScatterAdd o => o.wf
  | .merge m => m.wf
  | .aditColumnGroup _ _ _ _ upsets _ => upsets.all AditUpset.wf
  | .aditProbe _ node => decide (node < 4096)
  | .assayPass _ record => wfScratch record
  | .assayBound _ rt ct => wfTile rt ct
  | .assayAudit _ rt ct _ => wfTile rt ct
  | .assaySumsRecompute _ table => wfWide table
  | .hoistCommand _ cmd => cmd.wf
  | .copy _ src dst _ _ => wfDesc src && wfDesc dst
  | .hoistGather _ src idx dst _ _ => wfDesc src && wfDesc idx && wfDesc dst
  | .hoistScatter _ src idx dst _ _ => wfDesc src && wfDesc idx && wfDesc dst
  | .hoistScatterAdd _ _ _ _ src idx dst _ _ _ => wfDesc src && wfDesc idx && wfDesc dst
  | .scatterAddCommit .. => true
  | .broadcast _ cars => cars.all CarSpec.wf
  | .segmentIssue .. => true
  | .segmentComplete .. => true
  | .descriptorBatchFetch _ cmds => decide (cmds.length ≤ 16) && cmds.all HoistCmd.wf
  | .doorbell _ cmds => cmds.all HoistCmd.wf
  | .descriptorRefetchTimeout _ cmds => cmds.all HoistCmd.wf
  | .dramSlot _ errors => wfErrors errors
  | .scrub .. => true
  | .refresh .. => true
  | .linkWord .. => true
  | .packetCommit _ packet => packet.wf
  | .commitReceived .. => true
  | .rewoundReceived .. => true
  | .grantReceived .. => true
  | .consumerRead _ addr len _ => wfWide (addr + len)
  | .closeMark .. => true
  | .fillTimerExpiry .. => true
  | .tailNotice .. => true
  | .readTimerExpiry .. => true
  | .chuteReset .. => true
  | .carHop _ car _ _ => car.wf
  | .tramStall .. => true
  | .hello req => req.wf
  | .openSession req _ => req.wf
  | .shut req => req.wf
  | .mgmtFrameReceive req => req.wf
  | .read req => req.wf
  | .write req _ => req.wf
  | .abort req => req.wf
  | .announce => true
  | .hqCfgWrite .. => true
  | .chCtrlReset .. => true
  | .depCtrlWarm .. => true
  | .depCtrlRestoreSkip .. => true
  | .program .. => true
  | .verify .. => true
  | .imgProgDone .. => true
  | .enrol .. => true
  | .release .. => true
  | .ownerOpDone => true
  | .go .. => true
  | .attestationReady => true
  | .rxFrameError frame => frame.wf
  | .data frame p => wfIlt frame p
  | .ack frame p => wfIlt frame p
  | .nak frame p => wfIlt frame p
  | .tail frame p => wfIlt frame p
  | .close frame p => wfIlt frame p
  | .reset frame p => wfIlt frame p
  | .chuteResetRetry .. => true
  | .lotAccept .. => true
  | .responseSend .. => true
  | .retransmitTimeout .. => true
  | .nakRepeat .. => true
  | .resyncNak .. => true
  | .frameTransmit => true
  | .arpRequest frame target => frame.wf && decide (target < 2 ^ 32)
  | .neighborSolicitation frame target => frame.wf && decide (target < 2 ^ 128)
  | .pfcFrame frame opcode _ times => frame.wf && decide (opcode < 65536) && times.length == 8 && wfBelow times 65536
  | .pauseExpiry .. => true
  | .pauseFrame frame => frame.wf
  | .linkUp .. => true
  | .linkDown => true
  | .journalWriteDone .. => true
  | .mirrorAck .. => true
  | .mirrorRecord .. => true
  | .mirrorReopen => true
  | .journalRestore .. => true
  | .restoreRetry => true
  | .journalReplay => true
  | .faultEvent r => r.wf
  | .heldJobResume .. => true
  | .coreStallTimeout .. => true
  | .arrayTestPeriodic .. => true
  | .lockstepMismatch => true
  | .warmReset .. => true
  | .powerOn => true
  | .startStepDone f => wfBelow (f.trained.map (·.2)) 297 && wfBelow (f.light.map (·.2)) 1024
  | .resetNAssert .. => true
  | .resetNRelease => true
  | .inputVoltageEvent centivolts => decide (centivolts < 65536)
  | .shutdown centivolts centiamps _ => decide (centivolts < 65536) && decide (centiamps < 65536)
  | .mateRemoval => true
  | .temperatureSample t => t.wf
  | .tripLatchClear => true
  | .refClockLost => true
  | .pllUnlock .. => true
  | .hubPllUnlock .. => true
  | .hubPllRestart .. => true
  | .dclkUnlock => true
  | .dclkLockTimeout => true
  | .domainStop .. => true
  | .domainStart .. => true
  | .domainResetAssert .. => true
  | .domainResetRelease .. => true
  | .replicaCompare _ reading => wfWide reading
  | .calWindow _ load margin => decide (load ≤ 100) && decide (margin < 256)
  | .calDescentStep .. => true
  | .seamIdle .. => true
  | .seamWake .. => true
  | .arrayTestDone .. => true
  | .openResponse _ answer => answer.wf
  | .helloResponse .. => true
  | .refClockRestored => true

end Sys2Proof
end

