-- ==== Sys2Proof/Tests/Slice0.lean ====
section
/-! SUPPORT. Tests: ill-formed commands that each check of WellFormed refuses; worked examples of the spec; and for the
statements with hypotheses a state and operands that meet them. Expected values come from the spec's text. -/

-- one theorem after the other: proofs side by side would need more memory than the check allows
set_option Elab.async false
namespace Sys2Proof.Tests
open Sys2Proof Sys2Proof.Machine Sys2Proof.Safety

/-! ## WellFormed -/
def ctx0 : CmdCtx := { session := 0, lsn := 0, index := 0, tag := 0, tAccept := 0 }
def frame0 : RxFrame :=
  { size := 64, fcsOk := true, dstMac := 0, srcMac := 0x0200_0000_0001, vids := [], etherType := 0x86DD, ipOk := true,
    ipProto := 17, hopLimit := 64, dstIp := 0, srcIp := 7, udpOk := true, srcPort := 9, dstPort := 28161 }
def header0 (op : Byte) : MgmtHeader :=
  { ver := 1, op := op, status := 0, session := 0, rsvd := 0, token := 0, reqId := 5 }
def mgmt0 (op : Byte) (body : List Byte) : MgmtFrame := { frame := frame0, header := header0 op, body := body }
def packet0 : IltPacket :=
  { ver := 1, type := 1, session := 0, token := 0, psn := 0, lsn := 0, chdr := 0, plen := 64, flags := 0, rsvd := 0,
    arg0 := 0, arg1 := 0, payload := List.replicate 64 0, crc := 0 }
def core0 : CoreId := ⟨0, 0⟩
def slot0 : SlotId := ⟨core0, 0⟩
def array0 : ArrayId := ⟨core0, 0⟩
def queue0 : QueueId := ⟨0, 0, 0⟩
def chan0 : ChanId := ⟨0, 0⟩
def ep0 : EndpointId := .core core0 0
def run0 : MoveRun := { src := 0, dst := 4096, len := 64, fill := none }
def cmd0 : HoistCmd := { runs := [run0], dry := none, deps := [], slow := false }
def cmdOf (unit : UnitKind) (deps : List Nat) (work : CmdWork) : TaskCmd :=
  { unit := unit, deps := deps, work := work, needs := [], brings := [], chute := false, releases := [] }
def spec0 : TaskSpec :=
  { counter := 0, index := 0, saveBytes := 0, workBytes := 0, base := 0, dry := none, maxOut := 16,
    cmds := [cmdOf .vector [] .other, cmdOf .jig [0] .other] }
def merge0 : MergeSpec := { at_ := slot0, row := 0, col := 0, lenK := 64, dst := 0 }
def car0 : Car := { firstZ := 0, lastZ := 1, offset := 0, train := 0, payload := List.replicate 64 0, poisoned := false }
def carSpec0 : CarSpec := { firstZ := 0, lastZ := 1, offset := 0, train := 0, src := 0, len := 64 }
def indexed0 : VeIndexed := { at_ := slot0, data := 0, index := 1, region := 0, count := 64, fill := 0 }
def image0 : ImageVerdict := { sfdp := true, keyDigest := true, sig := ⟨true, true⟩, stage1 := true, factory := true, stage2 := true }
def findings0 : StartFindings :=
  { imageA := image0, imageB := image0, userSig := ⟨true, true⟩, trained := [], arrays := [], badAdits := [], light := [] }
def plan0 : NodePlan := { split := 1, scatterTasks := 0, blockM := 1, blockN := 1, kOuter := false, seams := [(0, 0, 16)] }
theorem test_wf_accepts :
    ([.alloc ctx0 0 4096, .nodeStart 0 0 plan0, .taskLoad slot0 spec0, .chargeStart array0 0 0, .weightTileLoad array0 0 0 0,
      .vectorSchedule array0 0, .tileOpen slot0 0 0 false, .vatRestore slot0 0 0 false 64, .veLd slot0 0 32, .veGather indexed0,
      .merge merge0, .aditColumnGroup ⟨0, 0⟩ 0 0 core0 [] false, .assayBound slot0 0 0, .hoistCommand queue0 cmd0,
      .broadcast queue0 [carSpec0], .dramSlot chan0 [(0, 4)], .hello (mgmt0 1 []), .data frame0 packet0, .startStepDone findings0] :
      List Instr).all Instr.wf = true := by decide
theorem test_wf_wide : (Instr.alloc ctx0 0 (2 ^ 64)).wf = false := by decide
theorem test_wf_desc : (Instr.descriptorDestroyed 262144).wf = false := by decide
theorem test_wf_node : (Instr.nodeStart 0 4096 plan0).wf = false := by decide
theorem test_wf_plan : (Instr.nodeStart 0 0 { plan0 with seams := [(0, 0, 1), (0, 1, 1)] }).wf = false := by decide
theorem test_wf_task_area : (Instr.taskLoad slot0 { spec0 with workBytes := 2 ^ 20 + 1 }).wf = false := by decide
theorem test_wf_task_deps : (Instr.taskLoad slot0 { spec0 with cmds := [cmdOf .array [0] .other] }).wf = false := by decide
theorem test_wf_charge_tile : (Instr.taskLoad slot0 { spec0 with cmds := [cmdOf .array [] (.charge (2 ^ 26) 0 0 false)] }).wf = false := by decide
theorem test_wf_charge_weights : (Instr.taskLoad slot0 { spec0 with cmds := [cmdOf .array [] (.charge 0 0 (2 ^ 26) false)] }).wf = false := by decide
theorem test_wf_record : (Instr.vectorSchedule array0 (2 ^ 20)).wf = false := by decide
theorem test_wf_tile_part : (Instr.tileOpen slot0 0 (2 ^ 26) false).wf = false := by decide
theorem test_wf_save_line : (Instr.vatSave core0 0 8).wf = false := by decide
theorem test_wf_scratch_line :
    (Instr.scratchAccess core0 [⟨.vector, 28, some (List.replicate 8 0), .clean⟩]).wf = false := by decide
theorem test_wf_scratch_window : (Instr.scratchAccess core0 [⟨.vector, 2 ^ 21, none, .clean⟩]).wf = false := by decide
theorem test_wf_ld_line : (Instr.veLd slot0 0 4).wf = false := by decide
theorem test_wf_indexed : (Instr.veGather { indexed0 with region := 2 ^ 20 }).wf = false := by decide
theorem test_wf_cvt_row : (Instr.veCvt slot0 (.vat 0 64) (.reg 0 1) ⟨false, false, false⟩ ⟨[], []⟩).wf = false := by decide
theorem test_wf_cvt_cover : (Instr.veCvt slot0 (.reg 0 1) (.reg 0 1) ⟨false, false, false⟩ ⟨[64], []⟩).wf = false := by decide
theorem test_wf_merge : (Instr.merge { merge0 with dst := 2 ^ 20 }).wf = false := by decide
theorem test_wf_adit : (Instr.aditColumnGroup ⟨0, 0⟩ 0 0 core0 [⟨8, 0, ⟨0, 0, 1⟩⟩] false).wf = false := by decide
theorem test_wf_assay_rows : (Instr.assayPass array0 (2 ^ 20)).wf = false := by decide
theorem test_wf_assay_row : (Instr.assayAudit slot0 (2 ^ 26) 0 0).wf = false := by decide
theorem test_wf_hoist_empty : (Instr.hoistCommand queue0 { cmd0 with runs := [] }).wf = false := by decide
theorem test_wf_run_fill : (Instr.hoistCommand queue0 { cmd0 with runs := [{ run0 with fill := some [0] }] }).wf = false := by decide
theorem test_wf_batch : (Instr.descriptorBatchFetch queue0 (List.replicate 17 cmd0)).wf = false := by decide
theorem test_wf_car : (Instr.broadcast queue0 [{ carSpec0 with len := 4160 }]).wf = false := by decide
theorem test_wf_hop : (Instr.carHop core0 { car0 with payload := [0] } false .clean).wf = false := by decide
theorem test_wf_dram : (Instr.dramSlot chan0 [(0x18000000, 1)]).wf = false := by decide
theorem test_wf_scrub : (Instr.dramSlot chan0 [(0, 73)]).wf = false := by decide
theorem test_wf_packet : (Instr.packetCommit ep0 ⟨0, [0], false, 0⟩).wf = false := by decide
theorem test_wf_frame_mac : (Instr.rxFrameError { frame0 with srcMac := 2 ^ 48 }).wf = false := by decide
theorem test_wf_frame_vid : (Instr.rxFrameError { frame0 with vids := [4096] }).wf = false := by decide
theorem test_wf_frame_port : (Instr.rxFrameError { frame0 with srcPort := 65536 }).wf = false := by decide
theorem test_wf_mgmt_body : (Instr.read (mgmt0 16 (List.replicate 9201 0))).wf = false := by decide +kernel
theorem test_wf_ilt : (Instr.data frame0 { packet0 with payload := List.replicate 9181 0 }).wf = false := by decide +kernel
theorem test_wf_arp : (Instr.arpRequest frame0 (2 ^ 32)).wf = false := by decide
theorem test_wf_neighbor : (Instr.neighborSolicitation frame0 (2 ^ 128)).wf = false := by decide
theorem test_wf_pfc : (Instr.pfcFrame frame0 0x0101 1 [5]).wf = false := by decide
theorem test_wf_fault : (Instr.faultEvent (.dramUe chan0 0x600000000)).wf = false := by decide
theorem test_wf_light : (Instr.startStepDone { findings0 with light := [(0, 1024)] }).wf = false := by decide
theorem test_wf_bonds : (Instr.startStepDone { findings0 with trained := [(chan0, 297)] }).wf = false := by decide
theorem test_wf_voltage : (Instr.inputVoltageEvent 65536).wf = false := by decide
theorem test_wf_shutdown : (Instr.shutdown 5000 65536 0).wf = false := by decide
theorem test_wf_temperature : (Instr.temperatureSample ⟨[], [], 0⟩).wf = false := by decide
theorem test_wf_replica : (Instr.replicaCompare 0 (2 ^ 64)).wf = false := by decide
theorem test_wf_window : (Instr.calWindow 0 101 0).wf = false := by decide
theorem test_wf_open : (Instr.openResponse 0 ⟨6, 0, 0, 0⟩).wf = false := by decide

/-! ## States and operands that meet the hypotheses of the statements -/

/-! ### Tables, lots, graphs and jobs -/
def alloc0 : Allocation := { base := 4096, size := 8192 }
def desc0 : Desc :=
  { base := 4096, format := 0x01, rank := 1, extent := [64, 1, 1, 1, 1], stride := [4, 0, 0, 0, 0],
    shard := [{}, {}, {}, {}, {}] }
def graph0 : Image :=
  { nodes := [{ op := 0x10, place := [0xFF, 0xFF, 0xFF, 0xFF] }], pool := [], edges := [], lists := [], grid := [0, 0, 0, 0],
    spillBase := 0, spillLen := 0 }
def job0 : Job := { key := 0, ctx := { ctx0 with index := 1 }, jobId := 7, graph := 0, gen := 1, record := 0 }
/-- An allocation with a descriptor against it, a loaded graph, and the jobs `l` of it. -/
def tables0 (l : List Job) : State :=
  { State.reset with
    dep := { allocs := [alloc0], descs := [(0, ⟨1, some desc0, false⟩)], graphs := [(0, { gen := 1, live := some graph0 })]
             jobs := l } }
/-- The same, the free and the destruction asked for. -/
def tables1 : State :=
  { State.reset with
    dep := { allocs := [{ alloc0 with freePending := true }], descs := [(0, ⟨1, some desc0, true⟩)], graphs := [] } }
theorem meets_StepRunsFront : { State.reset with pending := [Instr.powerOn] }.pending = .powerOn :: [] := rfl
theorem meets_LocalCounter : State.reset.pending = [] ∧ State.reset.clk.dclkLocked = false ∧
    { State.reset with clk := { dclkLocked := true } }.clk.dclkLocked = true ∧
    ∃ t, exec .resetNRelease State.reset = .next t := ⟨rfl, rfl, rfl, _, rfl⟩
theorem meets_InvKept : Inv { State.reset with pending := [.resetNRelease] } ∧
    ∃ t, step { State.reset with pending := [.resetNRelease] } = .next t :=
  ⟨⟨by decide, by decide, by decide, by decide, by decide⟩, _, rfl⟩
theorem meets_FusesKept : ∃ t, step { State.reset with pending := [.resetNRelease] } = .next t := ⟨_, rfl⟩
theorem meets_CommandFrame : ∃ t, exec .resetNRelease State.reset = .next t := ⟨_, rfl⟩
theorem meets_Allocations_placed : LiveCmd ctx0 (tables0 []) ∧ WholeAllocs (tables0 []) ∧
    FreeRange (tables0 []) 15 (seamDram 15) (roundUp 1 4096) := by
  refine ⟨by unfold LiveCmd; decide, by unfold WholeAllocs; decide, by decide, by decide, by decide, by decide, ?_⟩
  intro v h
  cases h
theorem meets_Allocations_full : let s := { State.reset with dep := { allocs := [⟨seamDram 1, Config.hostBytes 1, false⟩] } }
    WholeAllocs s ∧ ∀ b, ¬ FreeRange s 1 b 4096 := by
  refine ⟨by unfold WholeAllocs; decide, fun b h => ?_⟩
  have l := h.low
  have g := h.high
  have a : b + 4096 ≤ seamDram 1 ∨ seamDram 1 + Config.hostBytes 1 ≤ b := h.allocs _ (List.mem_singleton.2 rfl)
  have e : Config.hostBytes 1 = 0x5FC000000 := rfl
  simp only [e, seamDram, Config.seamWindow] at *
  simp only [Addr] at *
  omega
theorem meets_Allocations_free : AllocAt (tables0 []) 4096 alloc0 ∧ Pinned (tables0 []) alloc0 ∧
    AllocAt tables1 4096 { alloc0 with freePending := true } ∧
    (∀ a ∈ (tables0 []).dep.allocs, a.base ≠ 0) ∧ ¬ Pinned State.reset alloc0 := by
  refine ⟨by unfold AllocAt; decide, ⟨_, List.mem_singleton.2 rfl, _, rfl, by decide, by decide⟩, by unfold AllocAt; decide,
    by decide, ?_⟩
  rintro ⟨e, h, _⟩
  cases h
/-- The record of a descriptor: FP32, rank 1, 64 elements of stride 4 from byte 4096. -/
def record0 : List Byte :=
  leBytes 8 4096 ++ [0x01, 0, 0, 1] ++ List.replicate 4 0 ++ leBytes 4 64 ++ List.replicate 20 0 ++ leBytes 8 4 ++
    List.replicate 112 0
theorem meets_Descriptors_create : record0.length = 160 ∧ firstFailing (descChecks (tables0 []) record0) = 0 ∧
    ¬ (Config.descSlots ≤ (usedDescs (tables0 [])).length ∨ tableFull (tables0 []) 160 = true) ∧
    LowestFree (usedDescs (tables0 [])) Config.descSlots 1 ∧ firstFailing (descChecks (tables0 []) (0 :: 8 :: record0.drop 2)) = 2 := by
  unfold LowestFree
  decide +kernel
theorem meets_Descriptors_destroy : NamesDesc (tables0 []) 0x40000 0 ∧ ¬ HeldByGraph (tables0 []) 0 ∧
    HeldByGraph { tables0 [] with dep := { graphs := [(0, { gen := 1, live := some { graph0 with pool := [0x40000] } })] } } 0 ∧
    (getDescSlot tables1 0).destroyPending = true := by
  refine ⟨by unfold NamesDesc; decide, ?_, ⟨_, List.mem_singleton.2 rfl, _, rfl, _, List.mem_singleton.2 rfl, by decide⟩,
    by decide⟩
  rintro ⟨e, h, g, hg, x, hx, _⟩
  cases List.mem_singleton.1 h
  cases hg
  cases hx
def voids0 (home : Option Nat) : State :=
  { tables0 [] with dep := { (tables0 []).dep with voids := [{ gran := 1, void := true, home := home }] } }
def unhomed0 : VoidGranule := { gran := 1, void := true, home := none }
theorem meets_LotData_fails : LiveCmd ctx0 (tables0 []) ∧ DeadDesc (tables0 []) 1 ∧ ¬ InLive (tables0 []) 0 1 ∧
    TouchesUnhomed (voids0 none) 4096 1 ∧ TouchesVoid (voids0 (some 0x800000)) 4096 1 ∧
    (∀ i, ¬ NamesGraph (tables0 []) 1 i) ∧ NamesGraph (tables0 []) 0x40000 0 ∧
    (getGraphSlot (tables0 []) 0).live = some graph0 ∧ ¬ InLive (tables0 []) 16384 (128 + 64 * graph0.nodes.length) := by
  refine ⟨by unfold LiveCmd; decide, fun i h => ?_, by unfold InLive; decide, by unfold TouchesUnhomed; decide,
    by unfold TouchesVoid; decide, fun i h => ?_, by unfold NamesGraph; decide, rfl, by unfold InLive; decide⟩
  · exact absurd h.2.1 (by rw [h.1]; decide)
  · exact absurd h.2.1 (by rw [h.1]; decide)
theorem meets_LotData_done : InLive (tables0 []) 4096 64 ∧ ¬ TouchesUnhomed (tables0 []) 4096 64 ∧
    ¬ TouchesVoid (tables0 []) 4096 64 ∧ InDram 4096 :=
  ⟨by unfold InLive; decide, by unfold TouchesUnhomed; decide, by unfold TouchesVoid; decide, 0, 4096, by decide⟩
/-- A slot with a task of job 0, and a core that holds it. -/
def busy0 (x : TaskSlot) (s : State) : State :=
  { s with cores := [(0, { slots := [(0, x)] })] }
theorem meets_RunAndCancel : NamesGraph (tables0 [job0]) 0x40000 0 ∧ (∀ j ∈ (tables0 [job0]).dep.jobs, OtherCmd j.ctx ctx0) ∧
    OnlyJob (tables0 [job0]) 7 job0 ∧ jobSlots (tables0 [job0]) 0 = [] ∧
    (let s := busy0 { state := .running, started := true } (tables0 [{ job0 with state := .running }])
     jobSlots s 0 ≠ [] ∧ ∀ u ∈ jobSlots s 0, (getSlot s u).started = true) := by
  unfold NamesGraph OtherCmd OnlyJob
  decide
/-- An image of one ELEMENTWISE node, ADD, from and to the descriptor of `tables0`. -/
def imageBody0 : List Byte :=
  leBytes 4 0x47575849 ++ leBytes 2 1 ++ leBytes 2 1 ++ leBytes 4 1 ++ List.replicate 52 0 ++ leBytes 4 0x10 ++
    List.replicate 8 0 ++ List.replicate 4 0xFF ++ List.replicate 4 0 ++ List.replicate 4 0xFF ++ List.replicate 4 0 ++
    List.replicate 32 0xFF ++ List.replicate 68 0 ++ leBytes 4 0x40000
def imageBytes0 : List Byte := imageBody0 ++ leBytes 4 0xA2BB0083
def stored0 : State :=
  { tables0 [] with mem := storeBytes [] 8192 imageBytes0, dep := { (tables0 []).dep with graphs := [] } }
theorem meets_Graphs_load : imageBytes0.length = 200 ∧ InLive stored0 8192 200 ∧ ¬ TouchesVoid stored0 8192 200 ∧
    LowestFree (usedGraphs stored0) Config.graphSlots 0 ∧
    ¬ (Config.graphSlots ≤ (usedGraphs stored0).length ∨ tableFull stored0 200 = true) := by
  unfold InLive TouchesVoid LowestFree
  decide +kernel
theorem stored_image : loadBytes stored0.mem 8192 200 = imageBytes0 := by decide +kernel
/-- The CRC32C of the image, 28 bytes at a time. -/
def crcPart (i : Nat) (a : Word) : Word := ((imageBody0.drop (28 * i)).take 28).foldl crcByte a
theorem image_crc : crc32c imageBody0 = 0xA2BB0083 := by
  have h : imageBody0 = (List.range 7).flatMap fun i => (imageBody0.drop (28 * i)).take 28 := by decide +kernel
  have e : imageBody0.foldl crcByte 0xFFFFFFFF = (List.range 7).foldl (fun a i => crcPart i a) 0xFFFFFFFF := by
    conv => lhs; rw [h, List.foldl_flatMap]
    rfl
  have h0 : crcPart 0 0xFFFFFFFF = 0x905ee764 := by decide +kernel
  have h1 : crcPart 1 0x905ee764 = 0x11dbc3eb := by decide +kernel
  have h2 : crcPart 2 0x11dbc3eb = 0xb3cd5db2 := by decide +kernel
  have h3 : crcPart 3 0xb3cd5db2 = 0x594507cb := by decide +kernel
  have h4 : crcPart 4 0x594507cb = 0xb9833e12 := by decide +kernel
  have h5 : crcPart 5 0xb9833e12 = 0xb0444f0d := by decide +kernel
  have h6 : crcPart 6 0xb0444f0d = 0x5d44ff7c := by decide +kernel
  have l : List.range 7 = [0, 1, 2, 3, 4, 5, 6] := rfl
  simp only [crc32c, e, l, List.foldl_cons, List.foldl_nil, h0, h1, h2, h3, h4, h5, h6]
  rfl
theorem image_ok : badImage imageBytes0 = false := by
  have t : imageBytes0.take (imageBytes0.length - 4) = imageBody0 := by decide +kernel
  simp only [badImage, t, image_crc]
  decide +kernel
theorem meets_Graphs_load_status : loadStatus stored0 (loadBytes stored0.mem 8192 200) = 0 := by
  rw [stored_image, loadStatus, image_ok]
  decide +kernel
theorem meets_Graphs_unload : NamesGraph (tables0 []) 0x40000 0 ∧ (∀ j ∈ (tables0 []).dep.jobs, j.graph ≠ 0) ∧
    (tables0 []).dep.waits = [] ∧ (∀ r ∈ allChutes (tables0 []), r.1 ≠ 0) := by
  unfold NamesGraph
  decide
theorem meets_JobsStartAndEnd_start : getJob (tables0 [job0]) 0 = some job0 ∧ FirstOfGraph (tables0 [job0]) job0 ∧
    (∃ a b, (tables0 [job0, { job0 with key := 1 }]).dep.jobs = a ++ { job0 with key := 1 } :: b ∧ ∃ x ∈ a, x.graph = 0 ∧ ∀ y ∈ a, y.key ≠ 1) ∧
    ¬ NeedsVoid (tables0 []) { job0 with state := .held, holdCause := 1 } :=
  ⟨by decide, ⟨[], [], rfl, by decide⟩, ⟨[job0], [], rfl, by decide⟩, by unfold NeedsVoid; decide⟩
/-- A job whose one node has completed its one task. -/
def doneJob0 : Job := { job0 with state := .running, nodes := [(0, { started := true, total := 1, doneTasks := 1 })] }
theorem meets_JobsStartAndEnd_end : let s := tables0 [doneJob0]
    getJob s 0 = some doneJob0 ∧ (∀ n ∈ jobNodes s doneJob0, NodeDone doneJob0 n.1) ∧ jobNodes s doneJob0 ≠ [] ∧
    (∀ b ∈ s.scatters, b.job = 0 → b.committed = true) ∧ s.dep.waits.Pairwise (fun a b => OtherCmd a.ctx b.ctx) ∧
    jobSlots (tables0 [{ job0 with ending := some 1 }]) 0 = [] := by
  unfold NodeDone OtherCmd
  decide

/-! ### Nodes, tasks and the sequencer -/
/-- A graph whose one node reads the descriptor of `tables0`. -/
def graph1 : Image :=
  { graph0 with pool := [0x40000], nodes := [{ op := 0x10, place := [0xFF, 0xFF, 0xFF, 0xFF], operand := [0, 0xFFFFFFFF, 0] }] }
def running0 : Job := { job0 with state := .running }
/-- A running job of `graph1`, with void granules. -/
def nodes0 (v : List VoidGranule) : State :=
  { tables0 [running0] with
    dep := { (tables0 [running0]).dep with graphs := [(0, { gen := 1, live := some graph1 })], voids := v } }
theorem node_ready (v : List VoidGranule) : NodeReady (nodes0 v) 0 0 plan0 running0 graph1 (graph1.nodes.getD 0 {}) where
  job := rfl
  image := rfl
  node := rfl
  service := rfl
  running := rfl
  going := rfl
  here := rfl
  fresh := rfl
  deps := fun _ h => (nomatch h)
  some_ := by decide
  order := by decide
  free := by
    rintro x h
    cases List.mem_singleton.1 h
    exact ⟨List.not_mem_nil, rfl, by decide⟩
theorem meets_NodeStart : NodeReady (nodes0 []) 0 0 plan0 running0 graph1 (graph1.nodes.getD 0 {}) ∧
    ¬ ReadsVoid (nodes0 []) graph1 (graph1.nodes.getD 0 {}) ∧
    PlanCovers (nodes0 []) 0 plan0 running0 graph1 (graph1.nodes.getD 0 {}) ∧
    NodeReady (nodes0 [unhomed0]) 0 0 plan0 running0 graph1 (graph1.nodes.getD 0 {}) ∧
    ReadsVoid (nodes0 [unhomed0]) graph1 (graph1.nodes.getD 0 {}) :=
  ⟨node_ready _, by unfold ReadsVoid; decide, ⟨by decide, by decide⟩, node_ready _, by unfold ReadsVoid; decide⟩
def counter0 : WorkCounter := { limit := 2, active := true, given := [(0, 0)], tasks := [⟨0, 0, 0, 0, 1, 1, 1⟩, ⟨0, 1, 0, 0, 1, 1, 1⟩] }
/-- The running job's work counter `c`, and a task `x` of it in slot 0 of core 0. -/
def work0 (c : WorkCounter) (x : TaskSlot) : State :=
  { busy0 x (tables0 [running0]) with counters := [(0, c)] }
theorem serves (c : WorkCounter) (x : TaskSlot) (h : c.active = true) (j : c.job = 0) : Serves (work0 c x) c :=
  ⟨h, running0, by rw [j]; rfl, rfl, rfl⟩
/-- Task `i` of the job's counter is one that a core takes. -/
theorem core_takes (d : Deputy) (h : d.jobs = [running0]) (g : d.graphs = (tables0 []).dep.graphs) (i : Nat) :
    TakesTask { work0 counter0 {} with dep := d } 0 (.core 0) counter0 i := by
  have e : counterCtx { work0 counter0 {} with dep := d } counter0 i = counterCtx (work0 counter0 {}) counter0 i := by
    simp only [counterCtx, getJob, jobImage, jobNode, getGraphSlot, h, g]
    rfl
  intro x hx
  rw [e] at hx
  match i, hx with
  | 0, hx => cases hx; exact ⟨rfl, fun h => absurd h (by decide)⟩
  | 1, hx => cases hx; exact ⟨rfl, fun h => absurd h (by decide)⟩
  | _ + 2, hx => cases hx
theorem meets_WorkCounters_fetch : RequesterUp (work0 counter0 {}) 0 (.core 0) ∧ NoneLeaves (work0 counter0 {}) 0 0 ∧
    NoRerun (work0 counter0 {}) 0 (.core 0) ∧ Serves (work0 counter0 {}) (getCounter (work0 counter0 {}) 0 0) ∧
    TurnsTo (work0 counter0 {}) 0 0 (.core 0) ∧ Offers (work0 counter0 {}) 0 0 (.core 0) ∧
    ¬ Offers (work0 { counter0 with next := 2 } {}) 0 0 (.core 0) ∧ ¬ Serves State.reset {} ∧
    HeadRerun { work0 counter0 {} with dep := { (work0 counter0 {}).dep with reruns := [⟨0, 0, 1⟩] } } 0 (.core 0) ⟨0, 0, 1⟩ := by
  refine ⟨by unfold RequesterUp; decide, ?_, fun r ⟨a, b, h, _⟩ => ?_, serves _ _ rfl rfl, fun _ h => (nomatch h),
    ⟨serves _ _ rfl rfl, by decide, core_takes (tables0 [running0]).dep rfl rfl 0⟩, fun h => absurd h.2.1 (by decide), fun h => (nomatch h.1),
    [], [], rfl, ⟨rfl, ⟨rfl, running0, rfl, rfl, rfl⟩, core_takes { (tables0 [running0]).dep with reruns := [⟨0, 0, 1⟩] } rfl rfl 1⟩, fun _ h => (nomatch h)⟩
  · intro i hi x hx ha
    match i, hx with
    | 0, hx => cases hx; exact absurd ha (by decide)
    | 1, hx => cases hx; exact absurd ha (by decide)
    | _ + 2, hx => cases hx
  · cases a with
    | nil => cases h
    | cons x y => cases h
theorem meets_WorkCounters_complete : LandedIn (work0 counter0 { state := .running }) 0 0 0 slot0 ∧
    (getCounter (work0 counter0 { state := .running }) 0 0).active = true ∧ ¬ LandedIn (work0 counter0 {}) 0 0 0 slot0 ∧
    finishers (work0 counter0 {}) 0 0 0 = [] ∧
    finishers { work0 counter0 {} with adits := [(0, { finished := [⟨0, 0, [], 0⟩] })] } 0 0 0 ≠ [] :=
  ⟨⟨rfl, by decide, rfl, rfl, (fun _ h => nomatch h), by decide, fun _ h => (nomatch h)⟩, rfl, fun h => h.busy rfl, by decide, by decide⟩
/-- Every domain runs. -/
def live0 (s : State) : State :=
  { s with clk := { s.clk with doms := (List.range 66).map fun i => (i, ⟨true, true, false, true⟩) } }
def taskCmd0 : SlotCmd := { cmd := cmdOf .vector [] .other }
/-- A run of a vector operator and a task's stream of it. -/
def run1 : OpRun := { in0 := 0, in1 := 0, in3 := 0, out := 0 }
def spec1 : TaskSpec := { spec0 with cmds := [cmdOf .vector [] (.operator run1)] }
theorem meets_TaskStreams_load : MayLoad (work0 counter0 {}) slot0 spec1 ∧ ¬ MayLoad (work0 counter0 {}) slot0 { spec1 with index := 1 } ∧
    counterCtx (work0 counter0 {}) counter0 7 = none := by
  refine ⟨⟨rfl, rfl, by decide, serves _ _ rfl rfl, by decide, by decide, by decide, fun x h => ?_⟩, fun h => absurd h.given (by decide), rfl⟩
  cases h
  exact ⟨by decide, by decide, fun h => absurd h (by decide), by decide⟩
theorem meets_TaskStreams_issue : let s := live0 (work0 counter0 { state := .running, cmds := [taskCmd0] })
    MayIssue s slot0 (withDone [] (getSlot s slot0)) .vector 0 ∧ (∀ z u, Issue z u taskCmd0.cmd.work (some false) false) ∧
    ∀ i, ¬ MayIssue s slot0 (withDone [] (getSlot s slot0)) .jig i :=
  ⟨⟨rfl, rfl, by decide, ⟨_, rfl, (fun _ h => nomatch h), fun _ h => nomatch h⟩, by decide, by decide⟩, fun _ _ => .other,
    fun _ h => by have e := h.next; revert e; nofun⟩
/-- The running job's graph gives its node a budget of 1 ns, which is long past. -/
def late0 : State :=
  { work0 counter0 { state := .running, cmds := [taskCmd0] } with
    clk := { now := 1000 }
    dep := { (tables0 [running0]).dep with
      graphs := [(0, { gen := 1, live := some { graph0 with nodes := [{ op := 0x10, budget := 1 }] } })] } }
theorem meets_TaskStreams_late : LateStart late0 slot0 (withDone [] (getSlot late0 slot0)) := by
  refine ⟨rfl, _, rfl, ?_⟩
  decide
def switch0 : State :=
  { State.reset with cores := [(0, { slots := [(0, { state := .running }), (1, { state := .ready, started := true, dry := some 5, cmds := [taskCmd0] })] })] }
theorem meets_TaskSwitches : let f := freshSlots switch0 core0
    (f slot0).state = .running ∧ (∀ u, u.core = core0 → (f u).state = .running → u = slot0) ∧
    ComesToRun core0 f switch0 ⟨core0, 1⟩ ∧ hasReady (f slot0) = false ∧
    DryGap switch0 (dryOf switch0 slot0 (f slot0)) (dryOf switch0 ⟨core0, 1⟩ (f ⟨core0, 1⟩)) ∧ ¬ DryGap switch0 none none ∧
    (∀ u, u.core = core0 → (freshSlots State.reset core0 u).state ≠ .running ∧ (freshSlots State.reset core0 u).state ≠ .ready) := by
  refine ⟨by decide, ?_, ⟨rfl, by decide, ?_⟩, by decide, ⟨by decide, 5, by decide, fun x h => ?_⟩, ?_, ?_⟩
  · rintro ⟨c, k⟩ rfl
    revert k
    decide
  · rintro ⟨c, k⟩ rfl
    revert k
    decide
  · have e : dryOf switch0 slot0 (freshSlots switch0 core0 slot0) = none := by decide
    rw [e] at h
    cases h
  · rintro ⟨_, r, h, _⟩
    cases h
  · rintro ⟨c, k⟩ rfl
    revert k
    decide
theorem meets_TaskSwitches_abort : let s := work0 counter0 { state := .running }
    (getSlot s slot0).state ≠ .empty ∧ (∀ r ∈ allChutes s, atEnd s r slot0 = false) ∧ abortCount s slot0 < 16 ∧
    (getSlot State.reset slot0).state = .empty ∧
    16 ≤ abortCount { s with dep := { s.dep with abortCounts := [(0, 0, 0, 15)] } } slot0 := by
  decide

/-! ### Arrays and vats -/
def vat0 : VatTile := { base := 0, x64 := true, ready := true, tiles := [0], stop := 1 }
def src0 : RowSrc := { desc := 1, row := 0, kt := 0, planes := 8, extK := 64, lenK := 64, maskK := [] }
def charge0 : Charge :=
  { slot := 0, cmd := 0, tile := 0, key := [0, 0, 0, 0, 0, 0], assay := false, src := src0, rows := [0] }
def weights0 : WeightTile :=
  { mode := .mac, line := 0, width := 8, part := 0, parts := 1, rowOff := [], colMask := [],
    weights := List.replicate 64 (List.replicate 64 1), codes := [], tags := [], tally := List.replicate 64 64, height := 64,
    key := [0, 0, 0, 0, 0, 0] }
def flight0 : Flight :=
  { elems := List.replicate 64 1, upper := {}, lower := {}, planes := 8, row := 0, tally := false, weights := weights0 }
/-- An INT8 tensor of one row of 64. -/
def acts0 : Desc := { desc0 with format := 0x04, rank := 2, extent := [64, 1, 1, 1, 1], stride := [1, 64, 0, 0, 0] }
/-- A product in X64 of one row of INT8 activations and 64 columns of INT8 weights. -/
def matNode0 : Node := { op := 1, flags := 1, place := [0xFF, 0xFF, 0xFF, 0xFF], operand := [0, 1, 2, 0xFFFFFFFF] }
/-- A distance of the same tensors. -/
def distNode0 : Node := { matNode0 with op := 2, variant := 3, flags := 0 }
def matGraph0 (n : Node) : Image := { graph0 with pool := [0x40001, 0x40002, 0x40003], nodes := [n] }
def matRun0 (m k split : Nat) : NodeRun :=
  { started := true, names := [(0, 0, 1), (0, 1, 2), (0, 2, 3)], lens := [(0, m, k, 64)], total := 1, split := split }
/-- The running job of such a node: core 0 with its task `d`, in slot 0 as `y`, and array 0 as `x`; all domains live. -/
def mats0 (n : Node) (r : NodeRun) (d : TaskDef) (k : CoreState) (x : ArrayState) : State :=
  live0 { State.reset with
    dep := { descs := [(1, ⟨1, some acts0, false⟩), (2, ⟨1, some { acts0 with base := 8192, extent := [64, 64, 1, 1, 1] }, false⟩),
                       (3, ⟨1, some { desc0 with rank := 2, extent := [64, 1, 1, 1, 1], stride := [4, 256, 0, 0, 0] }, false⟩)]
             graphs := [(0, { gen := 1, live := some (matGraph0 n) })]
             jobs := [{ running0 with nodes := [(0, r)] }] }
    counters := [(0, { limit := 1, active := true, given := [(0, 0)], tasks := [d] })]
    cores := [(0, k)], arrays := [(0, x)] }
def task0 : TaskDef := ⟨0, 0, 0, 0, 1, 1, 1⟩
def ctxMat0 (n : Node) (r : NodeRun) : TaskCtx := ⟨0, 0, 0, matGraph0 n, n, r, task0⟩
/-- The task with its charge issued. -/
def matSlot0 : TaskSlot :=
  { state := .running, workBytes := 65536, cmds := [{ cmd := cmdOf .array [] (.charge 0 0 0 false), issued := true }] }
def matCore0 (l : List VatTile) : CoreState := { tiles := l, slots := [(0, matSlot0)] }
/-- Core 0 with the product's task and the vat tiles `l`, and array 0 in the state `x`. -/
def vats0 (l : List VatTile) (x : ArrayState) : State := mats0 matNode0 (matRun0 1 64 1) task0 (matCore0 l) x
theorem may_charge (k : Table CalState) : MayCharge { vats0 [vat0] {} with cals := k } array0 0 0 0 0 0 false
    (ctxMat0 matNode0 (matRun0 1 64 1)) src0 vat0 where
  asked := rfl
  task := rfl
  acts := rfl
  rows := rfl
  fenced := rfl
  up := rfl
  testing := rfl
  charge := rfl
  live := rfl
  running := rfl
  tile := rfl
  isOpen := rfl
  ready := rfl
  bound := .inl rfl
  sound := by decide
  come := rfl
theorem meets_ArrayStreams_charge : MayCharge { vats0 [vat0] {} with cals := [] } array0 0 0 0 0 0 false
      (ctxMat0 matNode0 (matRun0 1 64 1)) src0 vat0 ∧ (getCal { vats0 [vat0] {} with cals := [] } 0).idle = false ∧
    chargeRows (ctxMat0 matNode0 (matRun0 1 64 1)) matSlot0 0 0 false = [0] ∧
    (getCal { vats0 [vat0] {} with cals := [(0, { idle := true, waking := true })] } 0).waking = true ∧
    (∀ rt ct kt assay c src v, ¬ MayCharge State.reset array0 0 0 rt ct kt assay c src v) :=
  ⟨may_charge _, rfl, by decide, rfl, fun _ _ _ _ _ _ _ h => absurd h.running (by decide)⟩
theorem meets_ArrayStreams_charge_empty : MayCharge (mats0 distNode0 (matRun0 0 64 1) task0 (matCore0 [vat0]) {}) array0 0 0 0 0 0 false
      (ctxMat0 distNode0 (matRun0 0 64 1)) src0 vat0 ∧ chargeRows (ctxMat0 distNode0 (matRun0 0 64 1)) matSlot0 0 0 false = [] ∧
    isDistance (ctxMode State.reset (ctxMat0 distNode0 (matRun0 0 64 1))) = true :=
  ⟨⟨rfl, rfl, rfl, rfl, rfl, rfl, rfl, rfl, rfl, rfl, rfl, rfl, rfl, .inl rfl, by decide, rfl⟩, by decide, rfl⟩
theorem meets_ArrayStreams_load : let s := vats0 [vat0] {}
    chargeOf (getSlot s slot0) 0 = some (0, 0, 0, false) ∧ taskCtx s slot0 = some (ctxMat0 matNode0 (matRun0 1 64 1)) ∧
    (∃ l, loadOf s (ctxMat0 matNode0 (matRun0 1 64 1)) 0 0 (partToLoad s array0 0 0 (0, 0, 0, false)) = some l ∧
      MayLoadWeights s array0 l.tile.mode) ∧
    ¬ MayLoadWeights (vats0 [] { testing := true }) array0 .mac ∧
    ¬ NoPlace s slot0 0 64 (wl64Size 8) false ∧ NoPlace s slot0 1 64 (wl64Size 8) false ∧ ¬ NoPlace s slot0 1 64 (wl64Size 8) true :=
  ⟨rfl, rfl, ⟨_, rfl, rfl, rfl, (fun _ _ h => nomatch h), fun _ => ⟨rfl, fun _ h => nomatch h⟩⟩, fun h => (nomatch h.testing),
    fun h => h.2 (by decide), ⟨rfl, by decide⟩, fun h => (nomatch h.1)⟩
def charged0 (m : List Host.Cell) : State :=
  { vats0 [vat0] { active := some weights0, charge := some charge0 } with mem := m }
theorem meets_ArrayStreams_row : Swapped (getArray (charged0 []) array0) (getArray (charged0 []) array0) weights0 charge0 ∧
    charge0.rows = 0 :: [] ∧ ¬ NoPlace (charged0 []) slot0 0 8 1000 false ∧ NoPlace (charged0 []) slot0 1 8 1000 false ∧
    ((buildRow (charged0 []) acts0 64 src0).vectors[0]?.map (skipVector .mac)) = some true ∧
    ((buildRow (charged0 [(4096, 1)]) acts0 64 src0).vectors[0]?.map (skipVector .mac)) = some false :=
  ⟨.kept _ _ rfl ⟨rfl, rfl⟩, rfl, fun h => h.2 (by decide), ⟨rfl, by decide⟩, by decide +kernel, by decide +kernel⟩
theorem meets_ArrayStreams_swap : let x : ArrayState := { shadow := some weights0, charge := some { charge0 with rows := [] } }
    Swapped x { x with active := some weights0, shadow := none, sel := !x.sel } weights0 { charge0 with rows := [] } :=
  .swap weights0 { charge0 with rows := [] } rfl (fun _ h => nomatch h.1) rfl rfl
theorem meets_ArrayStreams_idle : WeightsWait { charge := some charge0 } ∧ ¬ WeightsWait {} ∧
    { queue := [⟨[], false, false, false, false⟩] : ArrayState }.queue ≠ [] := by
  refine ⟨⟨charge0, rfl, rfl, fun _ _ h => ?_⟩, fun ⟨_, h, _⟩ => (nomatch h), by decide⟩
  cases h with
  | kept _ _ _ a => exact nomatch a.1
  | swap _ _ _ _ b => exact nomatch b
theorem tally_of_tile : TallyOfTile weights0 := by
  unfold TallyOfTile
  decide +kernel
/-- A vector in array 0. -/
def flying0 (f : Flight) : ArrayState := { active := some weights0, charge := some charge0, flights := [f] }
theorem meets_DrainVector : Oldest (getArray (vats0 [vat0] (flying0 flight0)) array0) flight0 [] ∧
    TileAt (vats0 [vat0] (flying0 flight0)) core0 flight0.tile vat0 ∧ isDistance flight0.weights.mode = false ∧ flight0.tile ≠ 80 ∧
    columnCheck ((getArray (vats0 [vat0] (flying0 flight0)) array0)).totals (columnValues weights0 { flight0 with elems := [], tally := true } none []) = true :=
  ⟨⟨rfl, by decide⟩, rfl, rfl, by decide, by decide +kernel⟩
theorem meets_DrainVector_checks : rowCheck weights0 flight0 none [] = true ∧ PlainPartials weights0 flight0 none true [] ∧
    rowCheck weights0 { flight0 with elems := [], tally := true } none [] = true := by
  unfold PlainPartials
  decide +kernel
theorem meets_DrainVector_tags : ∀ n h, (halfTags weights0 flight0 n h).1.special = 0 ∧ (halfTags weights0 flight0 n h).2.special = 0 := by
  intro n h
  unfold halfTags
  split <;> exact ⟨rfl, rfl⟩
theorem meets_ArrayChecks : let s := vats0 [vat0] (flying0 flight0)
    rowCheck weights0 flight0 none [⟨0, 0, 1⟩] = false ∧ vat0.failedOn = none ∧
    (addEvent s (tget s.dep.mismatches [] (arrayKey array0))).length < 3 ∧ operandGone (getSlot s slot0) vat0 = false ∧
    ∃ b ∈ liveArrays s core0, b ≠ array0 :=
  ⟨by decide +kernel, rfl, by decide, rfl, ⟨core0, 1⟩, by decide, by decide⟩
theorem meets_ExactSums : Exact vat0 ∧ ¬ IsNan64 vat0 0 ∧ Exact { vat0 with expSet := true, entries := [(0, 2 ^ 63)] } ∧
    IsNan64 { vat0 with expSet := true, entries := [(0, 2 ^ 63)] } 0 ∧ (addPartial vat0 0 (.exact 1 0)).1.lost = false ∧
    (addPartial { vat0 with expSet := true } 0 (.exact 1 34)).1.lost = true := by
  refine ⟨⟨rfl, rfl, fun h => (nomatch h), fun _ _ => .inl rfl⟩, by unfold IsNan64; decide,
    ⟨rfl, rfl, fun _ => by decide, fun h => (nomatch h)⟩, by unfold IsNan64; decide +kernel, by decide +kernel, by decide +kernel⟩
theorem meets_VatAccept : let v : VatTile := { vat0 with expSet := true, entries := [(0, 5)] }
    let s (e : Int) : State := vats0 [v] { out := [⟨0, 0, [(0, .exact 1 e)]⟩] }
    NextExact (s 34) array0 v 0 1 34 ∧ NextExact (s (-1)) array0 v 0 1 (-1) ∧ TableOk v.entries 0 ∧
    (addPartial v 0 (.exact 1 34)).1.lost = true ∧ (addPartial v 0 (.exact 1 (-1))).1.lost = false ∧
    ∀ w i acc e, ¬ NextExact State.reset array0 w i acc e := by
  refine ⟨⟨⟨_, _, 0, rfl, rfl, rfl, rfl⟩, rfl, rfl, rfl, ?_⟩, ⟨⟨_, _, 0, rfl, rfl, rfl, rfl⟩, rfl, rfl, rfl, ?_⟩, by decide,
    by decide +kernel, by decide +kernel, fun _ _ _ _ h => ?_⟩
  · unfold IsNan64
    decide
  · unfold IsNan64
    decide
  · obtain ⟨_, _, _, e, _⟩ := h.head
    exact nomatch e
/-- Ten X64 tiles of slot 1: every position is taken. -/
def full0 (st : SlotState) (x : ArrayState) : State :=
  mats0 matNode0 (matRun0 1 64 1) task0
    { tiles := (List.range 10).map fun i => { vat0 with base := 8 * i, slot := 1 }
      slots := [(0, matSlot0), (1, { state := st, saveBytes := 65664 })] } x
theorem may_open : MayOpenTile (vats0 [] {}) slot0 (ctxMat0 matNode0 (matRun0 1 64 1)) 0 0 false :=
  ⟨rfl, rfl, rfl, rfl, ⟨rfl, rfl⟩, rfl, fun _ => rfl, fun h => (nomatch h), .inr (by decide)⟩
theorem meets_TileLife_open : MayOpenTile (full0 .waiting {}) slot0 (ctxMat0 matNode0 (matRun0 1 64 1)) 0 0 false ∧
    (∀ c, ¬ MayOpenTile State.reset slot0 c 0 0 false) ∧
    LowestAt true (FreeAt (tilesReleased (vats0 [] {}) slot0) core0 true) 0 ∧
    (∀ d, Position true d → ¬ FreeAt (tilesReleased (full0 .waiting {}) slot0) core0 true d) ∧
    LowestAt true (YieldsAt (tilesReleased (full0 .waiting {}) slot0) core0 true) 0 ∧
    (∀ v ∈ inTheWay (getCore (tilesReleased (full0 .waiting {}) slot0) core0) true 0, tileBusy (full0 .waiting {}) core0 v.base = false) ∧
    (∀ v ∈ keptTiles (full0 .waiting {}) slot0, ∀ w ∈ keptTiles (full0 .waiting {}) slot0, v.base = w.base → v = w) ∧
    ∃ v ∈ inTheWay (getCore (tilesReleased (full0 .waiting { charge := some charge0 }) slot0) core0) true 0,
      tileBusy (full0 .waiting { charge := some charge0 }) core0 v.base = true := by
  refine ⟨⟨rfl, rfl, rfl, rfl, ⟨rfl, rfl⟩, rfl, fun _ => rfl, fun h => (nomatch h), .inr (by decide)⟩,
    fun c h => absurd h.running (by decide), ⟨⟨0, by decide, rfl⟩, rfl, fun d _ h => (nomatch h)⟩, ?_,
    ⟨⟨0, by decide, rfl⟩, ?_, fun d _ h => (nomatch h)⟩, by decide +kernel, by decide +kernel, by decide +kernel⟩
  · rintro d ⟨k, h, rfl⟩ f
    revert k
    unfold FreeAt
    decide +kernel
  · unfold YieldsAt
    decide +kernel
theorem saves_one (s : State) (v : VatTile) (h : saveOffset (getSlot s (tileSlot core0 v)) v.x64 = some 0) :
    saveAll s core0 [v] ≠ none := by
  simp [saveAll, h]
theorem meets_TileLife_saves : let s := tilesReleased (full0 .waiting {}) slot0
    saveAll s core0 (inTheWay (getCore s core0) true 0) ≠ none ∧ saveAll s core0 [{ vat0 with slot := 2 }] = none := by
  have e : inTheWay (getCore (tilesReleased (full0 .waiting {}) slot0) core0) true 0 = [{ vat0 with slot := 1 }] := by decide +kernel
  refine ⟨?_, ?_⟩
  · rw [e]
    exact saves_one _ _ (by decide +kernel)
  · simp only [saveAll, List.mergeSort_singleton]
    decide +kernel
theorem meets_TileLife_steps : TileAt (vats0 [vat0] {}) core0 0 vat0 ∧ vat0.isOpen = true ∧ vat0.ready = true ∧ vat0.checked = true ∧
    tileBusy (vats0 [vat0] {}) core0 0 = false ∧ { vat0 with ready := false }.ready = false ∧
    { vat0 with nextTile := 1 }.nextTile = vat0.stop ∧ vat0.nextTile ≠ vat0.stop ∧
    { vat0 with init := .load 3 0 0 }.init = .load 3 0 0 ∧ (descAt (vats0 [vat0] {}) 3).isSome = true ∧
    tileBusy (vats0 [vat0] { charge := some charge0 }) core0 0 = true := by
  unfold TileAt
  decide
/-- The second of two closed A40 parts, which holds nothing. -/
def part1 : VatTile := { vat0 with x64 := false, isOpen := false, part := 1, split := 2 }
theorem savable_vat0 : Savable vat0 :=
  ⟨by decide, by decide, by decide, by decide, by decide, by decide, by decide, by decide, by decide, by decide, by decide,
    fun _ => ⟨by show (0 : BitVec 64).toNat < ite _ _ _; decide, fun _ => rfl⟩⟩
theorem savable_part1 : Savable part1 :=
  ⟨by decide, by decide, by decide, by decide, by decide, by decide, by decide, by decide, by decide, by decide, by decide,
    fun _ => ⟨by show (0 : BitVec 64).toNat < ite _ _ _; decide, fun _ => rfl⟩⟩
def left0 : VatTile := { part1 with part := 0 }
/-- Its save record at an address of memory. -/
def saved0 (a : Addr) (s : State) : State :=
  { s with mem := storeBytes [] a (saveRecord part1) }
theorem saved_record (a : Addr) (s : State) : loadBytes (saved0 a s).mem a (recordSize false) = saveRecord part1 := by
  have h := loadBytes_storeBytes [] a (saveRecord part1)
  rw [saveRecord_length] at h
  simpa only [saved0, part1] using h
/-- A product of two weight tiles, split in two. -/
def halves0 (l : List VatTile) : State := mats0 { matNode0 with flags := 0 } (matRun0 1 128 2) task0 (matCore0 l) {}
theorem meets_TileLife_combine : let s := saved0 65536 (halves0 [left0])
    TileAt s core0 0 left0 ∧ ∃ r, parseRecord (readModule s 65536 (recordSize (leNat (readModule s 65536 1) == fmtX64))) 0 = some r ∧
      MayCombine s core0 left0 r (ctxMat0 { matNode0 with flags := 0 } (matRun0 1 128 2)) ⟨0, 0, 0, 0, 0, 2, 1⟩ := by
  refine ⟨rfl, ?_⟩
  obtain ⟨u, hu, _, e⟩ := parse_save part1 0 savable_part1
  have p : placeOf 65536 = .dram 0 65536 := by decide
  have h := loadByte_storeBytes_self [] 65536 (saveRecord part1) 0 (by rw [saveRecord_length]; decide)
  have b : (saveRecord part1)[0]'(by rw [saveRecord_length]; decide) = BitVec.ofNat 8 fmtA40 := rfl
  have f : leNat (loadBytes (saved0 65536 (halves0 [left0])).mem 65536 1) = fmtA40 := by
    simp only [saved0, loadBytes, List.range_one, List.map_cons, List.map_nil, h, b]
    decide
  have g : (fmtA40 == fmtX64) = false := by decide
  refine ⟨u, ?_, rfl, ⟨rfl, ?_, rfl⟩, ⟨?_, ?_, ?_, ?_⟩, ?_⟩
  · simp only [readModule, p, f, g, saved_record, hu]
  all_goals rw [e]; rfl
theorem meets_SaveRecords_save : Savable vat0 ∧ (let s := full0 .waiting {}
    let v : VatTile := { vat0 with slot := 1 }
    TileAt s core0 0 v ∧ v.ready = true ∧ tileBusy s core0 0 = false ∧ (getSlot s ⟨core0, 1⟩).state ≠ .running ∧
      inNeed s core0 v = true ∧ saveOffset (getSlot s ⟨core0, 1⟩) true = some 0 ∧ 0 + (saveRecord v).length ≤ 2 ^ 20) :=
  ⟨savable_vat0, rfl, rfl, by decide, by decide, by decide +kernel, by decide,
    by rw [saveRecord_length]; decide⟩
theorem meets_SaveRecords_spill : let r : NodeRun := { matRun0 65 64 1 with kOuter := true }
    let d : TaskDef := { task0 with blockM := 2 }
    let s := mats0 matNode0 r d { tiles := vat0 :: (List.range 9).map fun i => { vat0 with base := 8 * (i + 1), slot := 1 }
                                  slots := [(0, matSlot0)] } {}
    TileAt s core0 0 vat0 ∧ (getSlot s slot0).state = .running ∧ taskCtx s slot0 = some { ctxMat0 matNode0 r with task := d } ∧
      tileSpills s slot0 { ctxMat0 matNode0 r with task := d } vat0 = true ∧
      inWork (getSlot s slot0) 0 (recordSize true) = true ∧ clearOfRecords (getSlot s slot0) 0 (recordSize true) = true := by
  refine ⟨rfl, rfl, rfl, by decide +kernel, by decide, by decide⟩
def savedSlot0 : SaveRecord := { offset := 0, kept := keptOf part1 }
def restore0 (s : State) : State :=
  { s with cores := [(0, { slots := [(0, { matSlot0 with saved := [savedSlot0] })] })] }
theorem meets_SaveRecords_restore : findSaved (getSlot (restore0 State.reset) slot0) 0 0 false = some savedSlot0 ∧
    tileNeeded (getSlot (restore0 State.reset) slot0) savedSlot0.kept = true ∧
    LowestAt false (FreeAt (restore0 State.reset) core0 false) 0 ∧
    (let s := restore0 (saved0 (scratchAddr core0 0) State.reset)
     ∃ v, parseRecord (readScratch s core0 0 (recordSize savedSlot0.kept.x64)) 0 = some v ∧ v.x64 = false) ∧
    parseRecord (readScratch (restore0 State.reset) core0 0 (recordSize savedSlot0.kept.x64)) 0 = none := by
  refine ⟨by decide, by decide, ⟨⟨0, by decide, rfl⟩, rfl, fun d _ h => (nomatch h)⟩, ?_, ?_⟩
  · obtain ⟨u, hu, _, e⟩ := parse_save part1 0 savable_part1
    refine ⟨u, ?_, by rw [e]; rfl⟩
    have k : savedSlot0.kept.x64 = false := rfl
    simp only [readScratch, restore0, k, saved_record, hu]
  · rw [parseRecord, if_pos]
    have : leAt (readScratch (restore0 State.reset) core0 0 (recordSize savedSlot0.kept.x64)) 0 1 = 0 := by decide +kernel
    simp only [this]
    rfl
theorem meets_ScratchBanks : let r : ScrRequest := ⟨.fabricWrite, 0, some (List.replicate 8 1), .clean⟩
    let q : ScrRequest := ⟨.vector, 1, some [2], .clean⟩
    LineWrite r (List.replicate 8 1) ∧ WholeWords r (List.replicate 8 1) ∧ LineWrite q [2] ∧ ¬ WholeWords q [2] ∧
    bankOfOffset r.offset = bankOfOffset q.offset ∧ r.who ≠ q.who ∧
    scrOrder r.who < scrOrder q.who ∧ (getCore State.reset core0).promoted = [] ∧ CleanLine State.reset core0 1 ∧
    8 ≤ refusedTimes { State.reset with cores := [(0, { refusals := [(refusalKey 3 .vector, 8)] })] } core0 3 .vector := by
  unfold LineWrite WholeWords CleanLine
  decide

/-! ### The vector engine, merges, adits and the assay -/
def bin0 (fmt : VeFormat) : VeBin := { at_ := slot0, fmt := fmt, rnd := .rne, dst := 2, a := 0, b := 1 }
def un0 (fmt : VeFormat) : VeUn := { at_ := slot0, fmt := fmt, rnd := .rne, dst := 2, a := 0 }
/-- Vector registers v0 and v1 of slot 0 hold 64 lanes of `x` and of `y`, and the engine works on a command of its task. -/
def lanes0 (x y : Word) : State :=
  busy0 { state := .running, vregs := [(0, List.replicate 64 x), (1, List.replicate 64 y)], cmds := [{ taskCmd0 with issued := true }] }
    { State.reset with pwr := { phase := .running } }
theorem ve_works (x y : Word) : VeWorks (lanes0 x y) slot0 := ⟨_, List.mem_singleton.2 rfl, rfl, rfl, rfl⟩
theorem ve_waits : ¬ VeWorks State.reset slot0 := by
  unfold VeWorks
  decide
theorem meets_VeIntegers : (bin0 .int32).fmt = .int32 ∧ (un0 .int32).fmt = .int32 ∧ VeWorks (lanes0 7 5) slot0 ∧
    ¬ VeWorks State.reset slot0 ∧
    InInt32 ((lane (lanes0 7 5) slot0 0 3).toInt * (lane (lanes0 7 5) slot0 1 3).toInt) ∧ (lane (lanes0 7 5) slot0 1 63).toNat < 32 := by
  refine ⟨rfl, rfl, ve_works _ _, ve_waits, ?_, by decide⟩
  unfold InInt32
  decide
theorem meets_VeFloatNan : (bin0 .bf16).fmt ≠ .int32 ∧ (un0 .fp32).fmt ≠ .int32 ∧ VeWorks (lanes0 0x7F800001 0) (bin0 .bf16).at_ ∧
    ¬ VeWorks State.reset (un0 .fp32).at_ ∧ IsNan .fp32 ((elemsOf .fp32 (lane (lanes0 0x7F800001 0) slot0 0 0)).getD 0 0) := by
  refine ⟨by decide, by decide, ve_works _ _, ve_waits, ?_⟩
  unfold IsNan
  decide
theorem meets_VeCompareReduce : (bin0 .int32).fmt = .int32 ∧ VeWorks (lanes0 0xFFFFFFFF 0) slot0 ∧
    IntRel .lt (lane (lanes0 0xFFFFFFFF 0) slot0 0 5).toInt (lane (lanes0 0xFFFFFFFF 0) slot0 1 5).toInt ∧
    ¬ IntRel .eq (lane (lanes0 0xFFFFFFFF 0) slot0 0 5).toInt (lane (lanes0 0xFFFFFFFF 0) slot0 1 5).toInt ∧
    (un0 .fp32).fmt = .fp32 ∧ IsNan .fp32 (lane (lanes0 0x7F800001 0) slot0 0 63).toNat := by
  unfold IntRel IsNan
  exact ⟨rfl, ve_works _ _, by decide, by decide, rfl, by decide⟩
theorem meets_VeConvert : VeWorks (lanes0 0x7F800001 0xFF800000) slot0 ∧
    CvtMay (lanes0 0 0) slot0 (.reg 0 0x01) (.bundle 0 0x15 0) ∧ isBlock 0x15 = true ∧ 0 + unitBytes 0x15 ≤ 0x100000 ∧
    (cvtSource (lanes0 0 0) slot0 [] (.reg 0 0x01)).isSome = true ∧ cvtSource (lanes0 0 0) slot0 [] (.vat 0 0) = none ∧
    IsNan .fp32 (lane (lanes0 0x7F800001 0xFF800000) slot0 0 0).toNat ∧
    ¬ IsNan .fp32 (lane (lanes0 0x7F800001 0xFF800000) slot0 1 0).toNat ∧ lane (lanes0 0x7F800001 0xFF800000) slot0 1 0 = 0xFF800000 ∧
    lane (lanes0 0x7F800000 0) slot0 0 0 = 0x7F800000 := by
  refine ⟨ve_works _ _, ⟨rfl, rfl⟩, by decide, by decide, rfl, rfl, ?_⟩
  unfold IsNan
  decide
theorem meets_VeLoadStore : VeWorks (lanes0 0 0) slot0 ∧ accessAllowed (lanes0 0 0) slot0 [(0, 256)] = true ∧
    (getCore (lanes0 0 0) core0).poisonedWords = [] ∧ 0xFFF00 + 256 ≤ 0x100000 ∧ 0x100000 ≤ 0x150000 ∧
    accessAllowed { lanes0 0 0 with pwr := {} } slot0 [(0x150000, 256)] = false :=
  ⟨ve_works _ _, rfl, rfl, by decide, by decide, by decide⟩
theorem meets_IndexedAccess : indexed0.region + 4 * indexed0.count ≤ 0x100000 ∧ MayIndex (lanes0 1 63) indexed0 ∧
    (lane (lanes0 1 63) slot0 indexed0.index 0).toNat < indexed0.count ∧
    ¬ (lane (lanes0 1 64) slot0 indexed0.index 0).toNat < indexed0.count ∧
    accessAllowed { lanes0 1 63 with pwr := {} } slot0 (indexedRanges { indexed0 with region := 0x150000 } (lanes0 1 63)) = false :=
  ⟨by decide, ⟨ve_works _ _, rfl, rfl⟩, by decide, by decide, by decide +kernel⟩
/-- A MERGE whose operands are each three times the descriptor of `tables0`. -/
def mergeGraph0 : Image :=
  let l : GList := { count := 3, kind := 0, use := 0, entries := [0, 0, 0] }
  { graph0 with pool := [0x40000], lists := [l, l]
                nodes := [{ op := 3, place := [0xFF, 0xFF, 0xFF, 0xFF], operand := [0x80000000, 0x80000001, 0xFFFFFFFF] }] }
def merging0 : State :=
  let s := work0 counter0 { state := .running, cmds := [{ cmd := cmdOf .jig [] .other, issued := true }] }
  { s with dep := { s.dep with graphs := [(0, { gen := 1, live := some mergeGraph0 })] } }
def sparse0 : SparseOp := ⟨desc0, desc0, desc0, 64, 64, 64⟩
theorem meets_Merge : MayMerge merging0 merge0 sparse0 sparse0 ∧ (∀ a b, ¬ MayMerge State.reset merge0 a b) ∧
    merge0.dst + 4 ≤ 0x100000 ∧ (getCore merging0 core0).poisonedWords = [] ∧
    (readStream merging0 sparse0 0 64).descends = false := by
  refine ⟨⟨⟨_, List.mem_singleton.2 rfl, rfl, rfl, rfl⟩, by decide⟩, fun a b h => ?_, by decide, rfl, by decide +kernel⟩
  obtain ⟨_, h, _⟩ := h.works
  exact nomatch h
/-- The product on the adit path: its one column group is given to unit 0 of seam 0, which works on it as `x`. -/
def aditRun0 : NodeRun := { matRun0 1 64 1 with paths := [(0, true)] }
def adits0 (x : AditState) : State :=
  { mats0 matNode0 aditRun0 task0 {} {} with
    counters := [(0, { limit := 1, active := true, given := [(0, 32)], tasks := [task0] })], adits := [(0, x)] }
def aditOp0 : AditOp :=
  { counter := 0, elem := 0, rows := 1, x64 := true, chunked := false, buffer := [], group := 0, since := 0, isOpen := true }
theorem meets_AditUnits : MayGroup (adits0 {}) ⟨0, 0⟩ 0 0 (ctxMat0 matNode0 aditRun0) ∧ (∀ c, ¬ MayGroup State.reset ⟨0, 0⟩ 0 0 c) ∧
    coreUp (adits0 {}) core0 = true ∧ coreUp { adits0 {} with dep := { fences := { cores := [0] } } } core0 = false ∧
    Translates (adits0 {}) ∧ ¬ Translates { adits0 {} with pwr := { phase := .running } } ∧
    worksOn (adits0 {}) ⟨0, 0⟩ 0 0 = false ∧ worksOn (adits0 { op := some aditOp0 }) ⟨0, 0⟩ 0 0 = true ∧
    aditWaits (adits0 {}) ⟨0, 0⟩ = false ∧ (ctxDesc (adits0 {}) (ctxMat0 matNode0 aditRun0) 2).isSome = true ∧
    (addEvent (adits0 {}) (tget (adits0 {}).dep.residues [] 0)).length < 3 ∧
    3 ≤ (addEvent { adits0 {} with dep := { residues := [(0, [0, 0])] } } [0, 0]).length := by
  refine ⟨⟨rfl, ⟨rfl, _, rfl, rfl, rfl⟩, by decide, by decide, by decide, by decide, by decide, by decide, (fun _ h => nomatch h),
    rfl, by decide, by decide⟩, fun c h => absurd h.kclk (by decide), by decide, by decide, .inl (by decide), ?_, rfl, rfl, by decide,
    rfl, by decide, by decide⟩
  rintro (h | h)
  · exact h rfl
  · exact nomatch h
theorem meets_AditUnits_group : (aditGroup (adits0 {}) (ctxMat0 matNode0 aditRun0) []).isSome = true := by
  decide +kernel
/-- A stage of a graph on AUTO, at threshold `t`, with runs at `m` rows in which one path beats the other. -/
def stage0 (t m : Nat) (adit : Bool) : State :=
  { tables0 [] with dep := { (tables0 []).dep with
      stages := [(0, { threshold := t, costs := [⟨adit, m, 94⟩, ⟨!adit, m, 100⟩] })] } }
theorem meets_AditUnits_probe : (getGraphSlot (stage0 7 7 false) 0).live = some graph0 ∧ graph0.nodes[0]?.map nodePath = some 0 ∧
    (stage0 7 7 false).pwr.config.aditAdapt = true ∧
    meanCost (getStage (stage0 7 7 false) 0 0) false 7 = some 94 ∧ meanCost (getStage (stage0 7 7 false) 0 0) true 7 = some 100 ∧
    meanCost (getStage (stage0 7 8 true) 0 0) true 8 = some 94 ∧ meanCost (getStage (stage0 7 8 true) 0 0) false 8 = some 100 ∧
    100 * 94 < 95 * 100 ∧ meanCost {} false 7 = none := by decide
theorem meets_AssayPass_vector : let v : Vector64 := ⟨[-4, 3], {}, {}, 3⟩
    3 ≤ v.planes ∧ ∀ e ∈ v.elems, -(2 : Int) ^ (v.planes - 1) ≤ e ∧ e < (2 : Int) ^ (v.planes - 1) := by decide
/-- A product with an assay pass, whose results a RELU takes. -/
def assayNode0 : Node := { matNode0 with flags := 5 }
def assayGraph0 : Image :=
  { matGraph0 assayNode0 with nodes := [assayNode0, { op := 0x10, variant := 1, place := [0xFF, 0xFF, 0xFF, 0xFF] }]
                              edges := [{ producer := 0, consumer := 1, kind := 0, slot := 0, tag := 0, tail := 0 }] }
def table0 (stale : Bool) : AssayTable :=
  { slices := [(2, 64)], ranges := [(8192, 4096)], addr := 65536, segs := 1, cols := 0, extK := 64, width := 8, stale := stale,
    generation := 0 }
/-- The closed tiles of its task, full and assay, with a table of assay sums; the task's slot as `y`. -/
def closed0 (assay : Bool) : VatTile := { vat0 with base := if assay then 8 else 0, isOpen := false, assay := assay }
def assayed0 (stale : Bool) (y : TaskSlot) : State :=
  let s := mats0 assayNode0 (matRun0 1 64 1) task0 { tiles := [closed0 false, closed0 true], slots := [(0, y)] } {}
  { s with assays := [table0 stale], dep := { s.dep with graphs := [(0, { gen := 1, live := some assayGraph0 })] } }
def ctxAssay0 : TaskCtx := ⟨0, 0, 0, assayGraph0, assayNode0, matRun0 1 64 1, task0⟩
theorem meets_AssayPass_stream : (getArray (vats0 [] { charge := some { charge0 with assay := true } }) array0).charge =
      some { charge0 with assay := true } ∧
    taskCtx (vats0 [] { charge := some { charge0 with assay := true } }) slot0 = some (ctxMat0 matNode0 (matRun0 1 64 1)) ∧
    ∀ ch, (getArray State.reset array0).charge = some ch → ch.assay = false :=
  ⟨rfl, rfl, fun _ h => nomatch h⟩
theorem meets_AssayPass_bound : AssayReady (assayed0 false matSlot0) slot0 0 0 ctxAssay0 (closed0 true) (table0 false) ∧
    (∀ c v t, ¬ AssayReady State.reset slot0 0 0 c v t) ∧ (ctxCut (assayed0 false matSlot0) ctxAssay0).2 = (1, 1) :=
  ⟨⟨rfl, rfl, rfl, by decide, rfl, by decide +kernel⟩, fun _ _ _ h => (nomatch h.task), rfl⟩
def audited0 : TaskSlot := { matSlot0 with rowMasks := [(0, 0, [0])], auditRows := [(0, 0, 0)] }
theorem meets_AssayPass_audit : AuditDue (assayed0 false audited0) slot0 0 0 0 ctxAssay0 (closed0 true) (closed0 false) (table0 false) ∧
    (∀ c v f t, ¬ AuditDue State.reset slot0 0 0 0 c v f t) :=
  ⟨⟨rfl, ⟨rfl, rfl⟩, ⟨rfl, rfl⟩, by decide, by decide +kernel⟩, fun _ _ _ _ h => (nomatch h.task)⟩
theorem meets_AssayPass_recompute : let s := assayed0 true matSlot0
    (s.assays.find? fun t => t.addr == 65536) = some (table0 true) ∧ (table0 true).stale = true ∧
    assayCrcBad (assayed0 false matSlot0) (table0 false) = false :=
  ⟨rfl, rfl, by decide +kernel⟩

/-! ### Hoists, scatters, DRAM and links -/
def ring0 : QueueId := ⟨0, 0, 16⟩
/-- A task with a command at work in the fabric. -/
def fabricSlot0 : TaskSlot := { state := .running, cmds := [{ cmd := cmdOf .fabric [] .other, issued := true }] }
def moving0 (s : State) : State := live0 (busy0 fabricSlot0 s)
theorem meets_HoistQueues : let s := moving0 State.reset
    QueueTakes s queue0 ∧ ¬ QueueTakes State.reset queue0 ∧ queue0.queue.val ≠ 16 ∧ FeedsTram ⟨0, 4, 16⟩ ∧ ¬ FeedsTram queue0 ∧
    QueueTakes s ring0 ∧ ReceivesPort ring0 ∧ (getQueue s ring0).local_.head? ≠ some cmd0 ∧
    (getQueue { s with hoists := [(16, { local_ := [cmd0] })] } ring0).local_ = cmd0 :: [] := by
  refine ⟨⟨rfl, fun u h => ?_⟩, fun h => absurd h.live (by decide), by decide, by unfold FeedsTram; decide, by unfold FeedsTram; decide,
    ⟨rfl, fun u h => ?_⟩, by unfold ReceivesPort; decide, by decide, by decide⟩
  · cases (show some slot0 = some u from h)
    decide
  · cases (show none = some u from h)
theorem meets_HoistQueues_moves : let s := moving0 (tables0 [])
    IndexedTensors s 0 0 0 desc0 desc0 desc0 ∧ ¬ Clash (copyMoves s queue0 desc0 desc0 (List.range 1)) ∧
    WithinUnits s queue0 desc0 [0, 0, 0, 0, 0] ∧ IndexWithin desc0 0 0 ∧ ¬ IndexWithin desc0 0 64 ∧
    ¬ Clash ((gatherMoves s queue0 desc0 desc0 (indexStream s queue0 desc0) 0).flatMap joinRuns) ∧
    (∀ l ∈ scatterMoves s queue0 desc0 desc0 (indexStream s queue0 desc0) 0, ¬ Clash (joinRuns l)) ∧ FillsWhole [run0] := by
  refine ⟨⟨rfl, rfl, rfl⟩, by unfold Clash; decide +kernel, by unfold WithinUnits; decide +kernel, by unfold IndexWithin; decide,
    by unfold IndexWithin; decide, by unfold Clash; decide +kernel, by unfold Clash; decide +kernel, by unfold FillsWhole; decide⟩
def segment0 : Segment :=
  { id := 3, cmd := 3, runs := [{ run := run0, whole := 64 }], small := 1, dry := some 5, enqueued := 0, deps := [], slow := false,
    write := true }
/-- A hoist queue with a segment, its outstanding limit 16, all domains live. -/
def hoist0 (q : HoistQueue) : State :=
  { live0 State.reset with hoists := [(0, q)], regs := [(queueRegBase queue0, 16)] }
theorem meets_HoistSegments_issue : Issues (hoist0 { ready := [segment0] }) 0 0 0 segment0 ∧
    (∀ n g, ¬ MayIssueSegment State.reset ⟨0, 0, n⟩ g) ∧
    (∀ r ∈ segment0.runs, runLive (hoist0 {}) segment0 r.run = true) ∧ badAddress (hoist0 {}) segment0 [] = none ∧
    (∀ r ∈ segment0.runs, sourcePoison (hoist0 {}) r = []) ∧
    badAddress (hoist0 {}) segment0 [4096] = some 4096 ∧ ∃ r ∈ segment0.runs, runLive State.reset segment0 r.run = false := by
  refine ⟨⟨⟨⟨[], rfl⟩, rfl, by decide, rfl, by decide⟩, fun m k h i => ?_⟩, fun n g h => ?_, by decide, by decide, by decide, by decide,
    by decide⟩
  · obtain ⟨r, e⟩ := i.head
    have q : ∀ m : Fin 18, m ≠ 0 → (getQueue (hoist0 { ready := [segment0] }) ⟨0, 0, m⟩).ready = [] := by decide
    rw [q m h] at e
    cases e
  · obtain ⟨r, e⟩ := h.head
    cases e
theorem meets_HoistSegments_complete : (getQueue (hoist0 { issued := [segment0] }) queue0).issued.find? (·.id == 3) = some segment0 ∧
    MayLand (hoist0 { issued := [segment0] }) queue0 segment0 ∧
    ¬ MayLand (hoist0 { issued := [{ segment0 with id := 2 }, segment0] }) queue0 segment0 ∧ queueSlot queue0 = some slot0 ∧
    toDram segment0 { run := run0, whole := 64 } = true ∧ toDram segment0 { run := { run0 with dst := scratchAddr core0 0 }, whole := 64 } = false ∧
    touchesVoid State.reset run0.src run0.len = false ∧ InDram run0.src ∧ placeOf (scratchAddr core0 0) = .scratch core0 0 := by
  refine ⟨by decide, ⟨by decide, by decide, by decide, by decide⟩, fun h => ?_, by decide, by decide, by decide, by decide,
    ⟨0, 0, by decide⟩, by decide⟩
  exact absurd (h.order rfl { segment0 with id := 2 } (by decide) rfl (by decide) _ (List.mem_singleton.2 rfl) _ (List.mem_singleton.2 rfl))
    (by decide)
theorem meets_HoistSegments_fetch : ring0.queue.val = 16 ∧ (getQueue (live0 State.reset) ring0).local_.length ≤ 16 ∧
    isLiveDom (live0 State.reset) (.seam 0 .fclk) = true := by decide
def buffer0 : ScatterBuffer :=
  { job := 0, node := 0, task := 0, format := 1, entries := [((0, [0, 0, 0, 0, 0]), 4096, 0x3F800000)], image := [] }
/-- A running task of the scatter, with its buffer `b`. -/
def scatter0 (b : ScatterBuffer) : State :=
  { moving0 (tables0 [running0]) with scatters := [b] }
theorem meets_ScatterAdds : MayAccumulate (scatter0 buffer0) queue0 desc0 desc0 buffer0 ∧
    IndexedTensors (scatter0 buffer0) 0 0 0 desc0 desc0 desc0 ∧ bufferOf (scatter0 buffer0) 0 0 0 1 = buffer0 ∧
    ¬ MayAccumulate (scatter0 buffer0) queue0 desc0 desc0 { buffer0 with committed := true } := by
  refine ⟨⟨⟨rfl, fun u h => ?_⟩, by decide, .inl rfl, .inl rfl, rfl⟩, ⟨rfl, rfl, rfl⟩, by decide, fun h => (nomatch h.going)⟩
  cases (show some slot0 = some u from h)
  decide
def addOp0 : AddOp := { job := 0, node := 0, task := 0, src := 0, idx := 0, dst := 0, dim := 0, first := 0, count := 1 }
theorem meets_ScatterAdds_last : let g : Segment := { segment0 with sink := .accumulation addOp0, write := false }
    let s : State := { scatter0 buffer0 with hoists := [(0, { issued := [g] })] }
    IndexedTensors s 0 0 0 desc0 desc0 desc0 ∧ (getQueue s queue0).issued.find? (·.id == 3) = some g ∧ MayLand s queue0 g ∧
    (∀ h ∈ (getQueue s queue0).ready, h.cmd ≠ g.cmd) ∧ ∀ h ∈ (getQueue s queue0).issued, h.cmd = g.cmd → h.id = 3 :=
  ⟨⟨rfl, rfl, rfl⟩, by decide, ⟨by decide, by decide, by decide, by decide⟩, by decide, by decide⟩
/-- A task of the scatter that has made its last contribution. -/
def committing0 (b : ScatterBuffer) : State :=
  { busy0 { state := .running } (tables0 [running0]) with scatters := [b] }
theorem meets_ScatterAdds_commit : let c := { buffer0 with recorded := 1 }
    MayCommit (committing0 buffer0) 0 0 0 buffer0 ∧ buffer0.recorded < pieceCount buffer0 ∧ MayCommit (committing0 c) 0 0 0 c ∧
    pieceCount c ≤ c.recorded ∧ lotUsed (committing0 buffer0) + 1 ≤ lotRingSize (committing0 buffer0) ∧
    (∀ b, ¬ MayCommit State.reset 0 0 0 b) :=
  ⟨⟨rfl, rfl, rfl, rfl, (fun _ h => nomatch h), by decide⟩, by decide, ⟨rfl, rfl, rfl, rfl, (fun _ h => nomatch h), by decide⟩,
    by decide, by decide, fun _ h => (nomatch h.buffer)⟩
/-- A read of one 64 B word for a run of a segment, and a channel at which it waits. -/
def request0 : ChanRequest := mkRequest .read 5 (.hoist queue0 3 0) 4096 64 0 64 none
def channed0 : State := { live0 State.reset with chans := [(0, { queue := [request0] })] }
theorem meets_DramAndLinks : ChanServes (live0 State.reset) chan0 ∧ ¬ ChanServes State.reset chan0 ∧
    (getChan (live0 State.reset) chan0).queue = [] ∧ (getChan channed0 chan0).queue ≠ [] ∧ request0.origin = .hoist queue0 3 0 ∧
    request0.write = none ∧ (∀ v ∈ State.reset.dep.voids, v.home = none) ∧
    linkUp { State.reset with links := [(0, { up := true })] } 0 .east = true ∧ linkUp State.reset 0 .east = false ∧
    neighbour 0 .east = some (1, .west) :=
  ⟨⟨by decide, by decide, by decide⟩, fun h => absurd h.live (by decide), rfl, by decide, rfl, rfl, fun _ h => (nomatch h), by decide,
    by decide, by decide⟩
theorem meets_DramAndLinks_served : Served (getChan channed0 chan0) 0 request0 := by
  have f : ∀ i r, (getChan channed0 chan0).queue[i]? = some r → i = 0 ∧ r = request0 := by
    rintro (_ | i) r h
    · exact ⟨rfl, (Option.some.inj h).symm⟩
    · exact nomatch h
  have m : MayServe (getChan channed0 chan0) 0 request0 := ⟨rfl, fun j _ h => absurd h (Nat.not_lt_zero j)⟩
  refine ⟨m, ⟨⟨0, _, m, rfl⟩, .inl (by decide)⟩, fun j o h _ _ => ?_, fun h => (nomatch h)⟩
  obtain ⟨rfl, rfl⟩ := f j o h.1
  exact ⟨by decide, by decide, by decide, by decide⟩

/-! ### Chutes, the tram, calibration and faults -/
def core1 : EndpointId := .core core0 0
/-- Endpoint 0 of core 0 as `e`, all domains live; the chute of edge 0 of a graph is bound to it. -/
def chute0 (e : Endpoint) : State :=
  { live0 State.reset with
    chutes := [(0, e)]
    dep := { graphs := [(0, { gen := 1, live := some { graph0 with edges := [⟨0, 0, 1, 0, 0, 1000, true⟩] }, chutes := [(0, ep0)] })] } }
def packet1 (header : Word) : Packet := { header := header, data := List.replicate 64 0, bad := false, fixed := 0 }
def fresh0 : Endpoint := freshEndpoint 1000 0
theorem meets_ChutePackets : epWorks (chute0 fresh0) ep0 = true ∧ epWorks State.reset ep0 = false ∧
    (arrive fresh0 (packet1 0) false 0).2.rewound = false ∧ (arrive fresh0 (packet1 0x01000080) false 0).2.rewound = true ∧
    packetResend (packet1 0x01000080) = true ∧ packetResend (packet1 0) = false ∧ inCredit fresh0 1 = true ∧
    bankIn fresh0 .filling = some false ∧ (bankOf fresh0 false).words + 1 < 128 ∧ packetPush (packet1 0) = false := by decide
theorem meets_ChutePackets_sound : SoundPacket (packet1 0) ∧ FitsBank fresh0 1 ∧ ¬ (SoundPacket (packet1 0x01000080)) :=
  ⟨⟨by decide, rfl, by decide⟩, ⟨false, rfl, by decide⟩, fun h => absurd h.reserved (by decide)⟩
theorem meets_ChutePackets_answers : (getEp (chute0 { fresh0 with answers := [.commit] }) ep0).answers = .commit :: [] ∧
    (getEp (chute0 { fresh0 with answers := [.rewound] }) ep0).answers = .rewound :: [] ∧
    (getEp (chute0 fresh0) ep0).answers.head? ≠ some .commit ∧ isHub ep0 = false ∧
    0 < (getEp (chute0 { fresh0 with grantsSent := 1 }) ep0).grantsSent ∧ fresh0.grantsSent ≤ emptyBanks fresh0 := by decide
/-- An endpoint with one packet in its VISIBLE bank, the other FILLING. -/
def visible0 : Endpoint :=
  { fresh0 with bank1 := { state := .visible, words := 1, packets := [packet1 0] }, readTimer := some 0, fillTimer := some 0, notice := true }
theorem meets_ChuteReads : epWorks (chute0 visible0) ep0 = true ∧ bufferOk ep0 (scratchAddr core0 0) 64 = true ∧
    (readBank (getEp (chute0 visible0) ep0) 64 0).2 ≠ [] ∧ bankIn visible0 .visible = some true ∧
    (readBank (getEp (chute0 fresh0) ep0) 64 0).2 = [] ∧ bankIn fresh0 .visible = none := by decide
theorem meets_ChuteReads_events : (∀ one, bankIn fresh0 .filling = some one → (bankOf fresh0 one).words = 0) ∧
    bankIn { visible0 with bank0 := { state := .filling, words := 5 } } .filling = some false ∧
    (bankOf { visible0 with bank0 := { state := .filling, words := 5 } } false).words ≠ 0 ∧ (bankOf visible0 true).state = .visible ∧
    (bankOf fresh0 true).state = .empty ∧ fresh0.fillTimer = none ∧ visible0.fillTimer.isSome = true ∧ visible0.notice = true ∧
    fresh0.notice = false ∧ fresh0.readTimer = none ∧ visible0.readTimer.isSome = true := by decide
theorem meets_ChuteReads_reset : chutesAt (chute0 fresh0) ep0 ≠ [] ∧ chutesAt State.reset ep0 = [] ∧
    (getEp State.reset ep0).active = false ∧ (getEp { chute0 fresh0 with dep := {} } ep0).active = true := by decide
def tramQueue0 : QueueId := ⟨0, 4, 16⟩
/-- Core 0 with a car that has come from upstream, and an ingress buffer that holds `n` lines. -/
def hop0 (n : Nat) : State :=
  { live0 State.reset with hops := [(0, { arriving := [car0], lines := n })] }
theorem meets_TramCars_feed : MayFeed (live0 State.reset) tramQueue0 carSpec0 [] ∧ ¬ MayFeed State.reset tramQueue0 carSpec0 [] ∧
    (let s : State := { live0 State.reset with hoists := [(queueKey tramQueue0, { local_ := [{ cmd0 with train := [carSpec0] }] })] }
     (getQueue s tramQueue0).local_ = { cmd0 with train := [carSpec0] } :: []) ∧
    (getQueue State.reset tramQueue0).local_.head?.map (·.train) ≠ some [carSpec0] ∧
    (let x : HoistQueue := { cars := loadingCars [carSpec0] }
     x.cars[0]?.isSome = true ∧ (x.cars[0]?.map fun d => decide (0 + 64 ≤ d.car.payload.length)) = some true) :=
  ⟨⟨by unfold FeedsTram; decide, by decide, by decide, fun d h => by
    cases List.mem_singleton.1 h
    exact ⟨by decide, by decide, by decide, 1, by decide, by decide, by decide⟩⟩, fun h => absurd h.live (by decide), by decide, by decide,
    by decide⟩
theorem meets_TramCars_hop : MayHop (hop0 0) core0 car0 false ∧ KeepsCar (hop0 0) core0 car0 ∧ GoesOn core0 car0 ∧
    ¬ MayHop (hop0 32) core0 car0 false ∧ ¬ KeepsCar State.reset core0 car0 ∧ (getHop (hop0 0) core0).lines < 32 ∧
    32 ≤ (getHop (hop0 32) core0).lines := by
  have k : KeepsCar (hop0 0) core0 car0 := by unfold KeepsCar; decide
  have f : KeepsCar (hop0 32) core0 car0 := by unfold KeepsCar; decide
  exact ⟨⟨by decide, by decide, by decide, fun _ => by decide, by decide, fun _ => by decide⟩, k, by unfold GoesOn; decide,
    fun h => absurd (h.room f) (by decide), by unfold KeepsCar; decide, by decide, by decide⟩
/-- Seam 0 with the calibration `c`, its clocks live. -/
def cal0 (c : CalState) : State := { live0 State.reset with cals := [(0, c)] }
theorem meets_Calibration_window : calRuns (cal0 {}) 0 = true ∧ calRuns State.reset 0 = false ∧
    (windowNoted {} 80 3).margin < 4 ∧ 4 ≤ (windowNoted {} 80 7).margin ∧ (windowNoted {} 80 7).margin < 8 ∧
    (windowNoted { descent := some .full } 80 7).descent = some .full ∧ 75 ≤ (windowNoted {} 80 7).load ∧
    (windowNoted { descent := some .light } 25 7).descent = some .light ∧ (windowNoted {} 25 7).load ≤ 25 ∧
    100000 ≤ (windowNoted { highWindows := 99999 } 75 8).highWindows ∧ fullEntry (windowNoted { highWindows := 99999 } 75 8) = 0 ∧
    (windowNoted { highWindows := 99999 } 75 8).idle = false := by decide
theorem meets_Calibration_descent : (getCal (cal0 { descent := some .light, vset := 700 }) 0).descent = some .light ∧
    ¬ (((Descent.light) = .full ∧ 16 ≤ 0) ∨ 700 < 652) ∧ (getCal (cal0 { descent := some .full, steps := 16 }) 0).descent = some .full ∧
    ¬ (Descent.full = .full ∧ (getCal (cal0 { descent := some .full, steps := 16 }) 0).idle = true) ∧
    seamCharging (cal0 {}) 0 = false ∧ (getCal (cal0 {}) 0).idle = false ∧ lightEntry (getCal (cal0 {}) 0) = 0 ∧
    (getCal (cal0 { idle := true }) 0).idle = true ∧ lightEntry (getCal (cal0 { light := [(0, 700)] }) 0) ≠ 0 := by decide
/-- The module at a phase. -/
def at0 (p : Phase) : State := { live0 State.reset with pwr := { phase := p } }
def fencedAt0 (f : Fences) : State := { at0 .running with dep := { fences := f } }
theorem meets_Fences : (at0 .running).pwr.phase ≠ .off ∧ arrayFenced (at0 .running) array0 = false ∧
    arrayFenced (fencedAt0 { arrays := [0] }) array0 = true ∧ (at0 .running).dep.fences.cores.contains (coreKey core0) = false ∧
    fencedCores (at0 .running) 0 < 15 ∧ (fencedAt0 { cores := [0] }).dep.fences.cores.contains (coreKey core0) = true ∧
    (fencedAt0 { seams := [0] }).dep.fences.seams.contains 0 = true ∧ (at0 .running).dep.fences.seams.contains 0 = false ∧
    (fencedAt0 { drams := [0] }).dep.fences.drams.contains 0 = true := by decide
theorem meets_FaultReports : State.reset.pwr.phase = .off ∧ (at0 .running).pwr.phase ≠ .off ∧
    (recentEvents (at0 .running) []).length < 3 ∧ 3 ≤ (recentEvents (at0 .running) [0, 0]).length ∧ 0 < Config.hostBytes 0 ∧
    (at0 .running).jnl.copy8 = true ∧ { (at0 .running).jnl with copy8 := false }.copy8 = false := by decide
theorem meets_CoreAndArrayTests : stalled (busy0 { state := .running, cmds := [taskCmd0] } State.reset) core0 = true ∧
    stalled State.reset core0 = false ∧ canTest (at0 .running) array0 = true ∧ canTest State.reset array0 = false ∧
    (getArray (vats0 [] { testing := true }) array0).testing = true := by decide

/-! ### Clocks, power and the start -/
theorem meets_DomainControl : (getDom State.reset .pclk).running = false ∧ (getDom (at0 .running) .pclk).running = true ∧
    (getDom State.reset .pclk).inReset = true ∧ (getDom (at0 .running) .pclk).inReset = false ∧ mayStart State.reset .pclk = false ∧
    mayStart { State.reset with pwr := { railsUp := true } } .pclk = true ∧
    (getDom { State.reset with clk := { doms := [(64, { running := true })] } } .pclk).inReset = true ∧
    (locate 0x108042C).isSome = true := by decide
theorem meets_DomainControl_time : let s := { live0 State.reset with clk := { (live0 State.reset).clk with dclkLocked := true, now := 100 } }
    (s.clk.dclkLocked = true ∧ isLiveDom s (replicaDomain 33) = true) ∧ 100 - 92 ≤ 8 ∧ ¬ 100 - 91 ≤ 8 ∧
    State.reset.clk.dclkLocked = false ∧
    { State.reset with pwr := { warm := true, phase := .step 2 } }.pwr.phase = .step 2 ∧ canReset (at0 .running) = true := by decide
theorem meets_PllLoss : (getDom (at0 .running) (.seam 0 .mclk)).locked = true ∧ (getDom State.reset (.seam 0 .mclk)).locked = false ∧
    (getDom (at0 .running) (hubDomain true)).locked = true ∧ (getDom State.reset (hubDomain true)).running = false ∧
    { State.reset with pwr := { railsUp := true } }.pwr.railsUp = true ∧ hubTries State.reset true < 3 ∧
    3 ≤ hubTries { State.reset with clk := { fclkTries := 3 } } true := by decide
theorem meets_PowerEvents : State.reset.pwr.phase = .off ∧ State.reset.pwr.tripLatch = false ∧ (at0 .running).pwr.phase ≠ .off ∧
    ShutdownDue 4099 0 20000 ∧ ¬ ShutdownDue 4099 0 19999 ∧ TripDue ⟨[111], [], 0⟩ ∧ ¬ TripDue ⟨[110], [100], 110⟩ := by
  unfold ShutdownDue TripDue
  decide
theorem meets_WarmResets : canReset (at0 .running) = true ∧ canReset (at0 (.step 2)) = true ∧ canReset (at0 (.step 1)) = false := by
  decide
theorem meets_StartSequence : (at0 (.step 1)).pwr.resetN = false ∧ (at0 (.step 2)).pwr.refOk = true ∧
    (at0 (.step 2)).clk.dclkDead = false ∧ (at0 (.step 3)).pwr.aFailed = false ∧ enrolled (at0 (.step 4)) = false ∧
    enrolled { at0 (.step 4) with pwr := { ownerSlots := [⟨[], false⟩] } } = true ∧ (at0 (.step 5)).pwr.rescue = false ∧
    (at0 (.step 5)).dep.fences = {} ∧ findings0.imageA.stage2 = true ∧ { findings0.imageA with stage2 := false }.stage2 = false ∧
    { (at0 (.step 9)).port with linkUp := true }.linkUp = true ∧ (at0 (.step 9)).pwr.config.twin = false ∧
    (at0 (.step 10)).jnl.mirror ≠ .restoring ∧ (at0 (.step 10)).pwr.warm = false ∧ (at0 (.step 11)).pwr.phase = .step 11 := by
  decide
theorem meets_StartSequence_images : checkImage (at0 (.step 3)) [] { image0 with sfdp := false } = 1 ∧
    checkImage (at0 (.step 3)) [] image0 = 2 := by
  have h : imageHeaderOk (headerOf []) = false := by decide +kernel
  refine ⟨rfl, ?_⟩
  rw [checkImage, h]
  rfl
theorem meets_StartSequence_tests : let x : ArrayFinding := ⟨array0, [(3, 4)], none, true⟩
    ((x.cells.filter fun c => c.1.val != 64).map (·.1.val)).eraseDups = [3] ∧ (decideTest x).result < 2 ∧
    2 ≤ (decideTest { x with chain := some 0 }).result ∧
    2 ≤ (((([(3, 4), (5, 4)] : List (Fin 65 × Fin 65)).filter fun c => c.1.val != 64).map (·.1.val)).eraseDups).length := by decide
theorem meets_IntegerBlocks : 126 < 0xFF ∧ 0x7F < 2 ^ 7 ∧ 0xFF < 2 ^ 8 ∧ 1 ≤ 16 ∧ 0xFFFF < 2 ^ 16 := by decide
theorem meets_VatWindow : ∀ g, vat0.base ≤ g → g < vat0.base + 8 → tileAt { tiles := [vat0] } g = some vat0 := by
  intro g _ h
  change g < 0 + 8 at h
  have e : g = 0 ∨ g = 1 ∨ g = 2 ∨ g = 3 ∨ g = 4 ∨ g = 5 ∨ g = 6 ∨ g = 7 := by omega
  rcases e with rfl | rfl | rfl | rfl | rfl | rfl | rfl | rfl <;> decide

/-! ### Management, registers, images and the owner -/
/-- A frame of 64 bytes for the module's IPv6 address. -/
def frameTo0 (port : Nat) : RxFrame := { frame0 with dstIp := 0xfd0000000000000000000000 * 2 ^ 32, dstPort := port }
/-- The link is up and every domain runs; `p` is the rest of the port. -/
def port0 (p : Port) : State := { at0 .running with port := { p with linkUp := true } }
theorem meets_ManagementQueue : let r := { mgmt0 16 [] with frame := frameTo0 28161 }
    Arrives (port0 {}) r.frame ∧ FrontKnown ([] ++ [r]) ∧ knownOp 9 = false ∧
    64 ≤ (List.replicate 64 (mgmt0 16 [])).length + 0 ∧ FrontKnown (List.replicate 64 (mgmt0 16 [])) ∧
    (port0 {}).port.mgmtQueue.head? ≠ some r := by
  refine ⟨⟨by decide, by decide, by decide, by decide, by decide⟩, by unfold FrontKnown; rintro r h; cases h; decide, by decide, by decide,
    by unfold FrontKnown; rintro r h; cases h; decide, by decide⟩
/-- Request `r` at the front of the queue, in management session 0. -/
def front0 (r : MgmtFrame) (x : Option MgmtSession) : State := port0 { mgmtQueue := [r], mgmt := [(0, x)] }
theorem at_front (r : MgmtFrame) (x : Option MgmtSession) : AtFront r r.header.op.toNat (front0 r x) :=
  ⟨rfl, rfl, rfl, fun _ h => (nomatch h)⟩
theorem meets_ManagementQueue_answers : AtFront (mgmt0 16 []) 16 (front0 (mgmt0 16 []) none) ∧
    requestOk (mgmt0 16 []).header = true ∧ requestOk { (mgmt0 16 []).header with ver := 2 } = false ∧
    getMgmt (front0 (mgmt0 16 []) none) 0 = none ∧
    getMgmt (front0 (mgmt0 16 []) (some { token := 1, signed := false })) 0 = some { token := 1, signed := false } ∧
    getMgmt (front0 (mgmt0 16 []) (some { token := 0, signed := false, lastReq := some 5 })) 0 =
      some { token := 0, signed := false, lastReq := some (mgmt0 16 []).header.reqId } :=
  ⟨at_front _ _, rfl, rfl, rfl, rfl, rfl⟩
theorem meets_SessionRequests_hello : AtFront (mgmt0 1 []) 1 (front0 (mgmt0 1 []) none) ∧ openingOk (mgmt0 1 []).header = true ∧
    openingOk { (mgmt0 1 []).header with token := 1 } = false := ⟨at_front _ _, rfl, rfl⟩
/-- The body of an unsigned OPEN of a management session, or with `n` more bytes of signature, of a LOT session. -/
def openBody0 (kind port window n : Nat) : List Byte :=
  beBytes 1 kind ++ [0] ++ beBytes 2 port ++ beBytes 4 window ++ List.replicate (88 + n) 0
def open0 (kind port window n : Nat) : OpenReq :=
  { kind := kind, zero1 := 0, port := port, window := window, nonce := 0, digest := List.replicate 64 0, edge := 0, zero2 := 0,
    signed := n == 3373 }
def opening0 (body : List Byte) (p : Port) : State :=
  { port0 { p with mgmtQueue := [mgmt0 2 body], inService := true } with
    pwr := { phase := .running, ownerSlots := if body.length = 96 then [] else [⟨[], false⟩] } }
theorem meets_SessionRequests_open : let s := opening0 (openBody0 0 9 0 0) { nonces := [(0, 0)] }
    AtFront (mgmt0 2 (openBody0 0 9 0 0)) 2 s ∧ parseOpen (openBody0 0 9 0 0) = some (open0 0 9 0 0) ∧
    openingOk (mgmt0 2 []).header = true ∧ NonceStands s (open0 0 9 0 0) ∧ MayOpen s frame0 (open0 0 9 0 0) ⟨false, false⟩ ∧
    OpenFields (open0 0 9 0 0) ∧ OpenPlace (opening s (open0 0 9 0 0)) (open0 0 9 0 0) 0 ∧ ¬ OpenFields (open0 0 0 0 0) ∧
    ¬ NonceStands (opening0 [] {}) (open0 0 9 0 0) ∧ parseOpen [] = none ∧ 3 < (open0 4 9 0 0).kind := by
  refine ⟨⟨rfl, rfl, rfl, fun _ h => (nomatch h)⟩, by decide +kernel, rfl, ⟨0, by decide, by decide⟩, .inr (.inl ⟨rfl, rfl, .inl (by decide +kernel)⟩),
    ⟨by decide, by decide, by decide, by decide⟩, .inl ⟨rfl, by decide, by decide, by decide⟩, fun h => h.port rfl,
    fun ⟨t, h, _⟩ => (nomatch h), rfl, by decide⟩
theorem meets_SessionRequests_lot : let s := opening0 (openBody0 1 9 16384 3373) { nonces := [(0, 0)] }
    parseOpen (openBody0 1 9 16384 3373) = some (open0 1 9 16384 3373) ∧ NonceStands s (open0 1 9 16384 3373) ∧
    MayOpen s frame0 (open0 1 9 16384 3373) ⟨true, true⟩ ∧ OpenFields (open0 1 9 16384 3373) ∧
    OpenPlace (opening s (open0 1 9 16384 3373)) (open0 1 9 16384 3373) 0 := by
  refine ⟨by decide +kernel, ⟨0, by decide, by decide⟩, .inr (.inr (.inl ⟨rfl, by decide +kernel, rfl, rfl, rfl, rfl⟩)),
    ⟨by decide, by decide, by decide, by decide⟩, .inr (.inl ⟨rfl, rfl, by decide, by decide, by decide, by decide⟩)⟩
theorem meets_SessionRequests_busy : let s := opening0 [] { mgmt := (List.range 4).map fun i => (i, some { token := 0, signed := false }) }
    ∀ i, ¬ OpenPlace s (open0 0 9 0 0) i := by
  rintro s i (⟨_, h⟩ | ⟨h, _⟩ | ⟨h | h, _⟩)
  · have hi := h.1
    have e : mgmtOpen s = [0, 1, 2, 3] := by decide
    have : i = 0 ∨ i = 1 ∨ i = 2 ∨ i = 3 := by omega
    exact h.2.1 (by rw [e]; simpa using this)
  · cases h
  · cases h
  · cases h
def token0 : MgmtSession := { token := 0, signed := false }
theorem in_session (op : Byte) (body : List Byte) : InSession (mgmt0 op body) (front0 (mgmt0 op body) (some token0)) :=
  ⟨rfl, token0, rfl, rfl, by simp [token0]⟩
theorem meets_SessionRequests_shut : AtFront (mgmt0 3 [0, 0, 0, 0]) 3 (front0 (mgmt0 3 [0, 0, 0, 0]) (some token0)) ∧
    InSession (mgmt0 3 [0, 0, 0, 0]) (front0 (mgmt0 3 [0, 0, 0, 0]) (some token0)) ∧
    getMgmt (front0 (mgmt0 3 [0, 0, 0, 0]) (some token0)) 0 ≠ none ∧ beAt ([1, 0, 0, 0] : List Byte) 0 1 = 1 ∧
    (getSession (port0 { sessions := [(0, { kind := .lot })] }) 0).kind = .lot ∧
    (getSession (port0 { sessions := [(0, { kind := .chute })] }) 0).kind = .chute ∧ (getSession (port0 {}) 0).kind = .free :=
  ⟨at_front _ _, in_session _ _, by decide, by decide, rfl, rfl, rfl⟩
theorem meets_SessionRequests_announce : let s := { port0 { inService := true } with
      pwr := { config := { announcePort := 7, nextHopMac := 9 } } }
    s.port.inService = true ∧ s.pwr.config.announcePort ≠ 0 ∧ s.pwr.config.nextHopMac ≠ 0 ∧ s.pwr.announceStop = false ∧
    s.pwr.announced < 60 := by decide
/-- READ of one word at an address, and WRITE of a word there. -/
def read0 (a : Nat) : MgmtFrame := mgmt0 16 (beBytes 4 a ++ [0, 1, 0, 0])
def write0 (a v : Nat) : MgmtFrame := mgmt0 17 (beBytes 4 a ++ [0, 1, 0, 0] ++ beBytes 4 v)
theorem meets_RegisterAccess_read : AtFront (read0 0x2000) 16 (front0 (read0 0x2000) (some token0)) ∧
    InSession (read0 0x2000) (front0 (read0 0x2000) (some token0)) ∧ AccessFields (read0 0x2000) false ∧
    (∀ p ∈ accessList (read0 0x2000) false, AddrAnswers (front0 (read0 0x2000) (some token0)) p.1) ∧
    ¬ AccessFields (read0 0x2002) false := by
  refine ⟨at_front _ _, in_session _ _, ⟨by decide, by decide, by decide, by decide⟩, ?_, fun h => ?_⟩
  · intro p h
    rw [show accessList (read0 0x2000) false = [(0x2000, 0)] from by decide] at h
    cases List.mem_singleton.1 h
    exact ⟨⟨.dep, 0, 0, none⟩, by decide, rfl⟩
  · exact absurd (h.registers (0x2002, 0) (by decide)).2 (by decide)
theorem meets_RegisterAccess_stops : accessList (read0 0x100000) false = [] ++ (0x100000, 0) :: [] ∧
    locate 0x100000 = some ⟨.port, 0, 0, some .pclk⟩ ∧ answers State.reset (some .pclk) = false ∧
    domRuns State.reset (some .pclk) = false ∧
    domRuns { State.reset with clk := { doms := [(64, { running := true })] } } (some .pclk) = true := by decide
theorem meets_RegisterAccess_write : AtFront (write0 0x2000 1) 17 (front0 (write0 0x2000 1) (some token0)) ∧
    AccessFields (write0 0x2000 1) true ∧ accessList (write0 0x2000 1) true = [(0x2000, 1)] ∧
    locate 0x2000 = some ⟨.dep, 0, 0, none⟩ ∧ ¬ Acts ⟨.dep, 0, 0, none⟩ ∧ beforeRead State.reset ⟨.dep, 0, 0, none⟩ = State.reset ∧
    ∃ z, WritesWords 0 ⟨false, false⟩ [(0x2000, 1)] (front0 (write0 0x2000 1) (some token0)) z :=
  ⟨at_front _ _, ⟨by decide, by decide, by decide, by decide⟩, by decide, by decide, by unfold Acts; decide, rfl, _,
    ⟨.dep, 0, 0, none⟩, token0, by decide, rfl, rfl, rfl⟩
theorem meets_RegisterAccess_abort : let r := mgmt0 18 (beBytes 4 5)
    AtFront r 18 (front0 r (some token0)) ∧ InSession r (front0 r (some token0)) ∧
    (let h : HeldAccess := ⟨read0 0x100000, 0, []⟩
     AbortFront r h (port0 { mgmtQueue := [r], mgmt := [(0, some token0)], held := some h }) ∧
     r.body.length = 4 ∧ beNat r.body = h.req.header.reqId.toNat) :=
  ⟨at_front _ _, in_session _ _, ⟨rfl, rfl, rfl, fun _ h => (nomatch h)⟩, by decide, by decide⟩
/-- The deputy runs: DCLK locked, the module in service. -/
def deputy0 (p : Power) : State := { at0 .running with clk := { (at0 .running).clk with dclkLocked := true }, pwr := { p with phase := .running } }
theorem meets_RegisterAccess_acts : isLiveDom (deputy0 {}) (.seam 0 .fclk) = true ∧ isLiveDom (deputy0 {}) (epDomain ep0) = true ∧
    (0x3A5C3 : Word).toNat % 2 ^ 16 = Config.key ∧ (0x3A5C3 : Word).getLsbD 16 = true ∧ (0x3A5C3 : Word).getLsbD 17 = true ∧
    (deputy0 { config := { twin := true } }).pwr.config.twin = true ∧ (deputy0 {}).dep.service = false ∧ deputyRuns (deputy0 {}) = true := by
  decide
theorem meets_ImagesAndOwner_commands : (0x11 : Word).toNat % 4 = 1 ∧ (deputy0 {}).pwr.imgOp = none ∧
    (0x15 : Word).getLsbD 2 = true ∧ (deputy0 {}).pwr.slotB = false ∧ (0x15 : Word).toNat / 16 % 1024 ≠ 1008 ∧
    (deputy0 { imgOp := some ⟨true, true, 1⟩ }).pwr.imgOp = some ⟨true, true, 1⟩ ∧ checkAll (deputy0 {}) [] { image0 with sfdp := false } = 1 := by
  refine ⟨rfl, rfl, rfl, rfl, by decide, rfl, ?_⟩
  rfl
theorem meets_ImagesAndOwner_owner : OwnerWrite 0x1A5C3 16 17 (deputy0 {}) ∧ OwnerWrite 0x2A5C3 17 16 (deputy0 {}) ∧
    ¬ OwnerWrite 0x3A5C3 16 17 (deputy0 {}) ∧ enrolled (deputy0 { ownerSlots := [⟨[], false⟩] }) = true ∧
    MayEnrol (deputy0 { enrolNonceAt := some 0 }) ⟨true, true⟩ [] := by
  refine ⟨by unfold OwnerWrite; decide, by unfold OwnerWrite; decide, by unfold OwnerWrite; decide, by decide,
    ⟨⟨rfl, rfl⟩, .inl rfl, fun h => (nomatch h), fun _ => by decide, 0, rfl, by decide⟩⟩
theorem meets_ImagesAndOwner_ends : (deputy0 { ownerOp := some ⟨false, 0, []⟩ }).pwr.ownerOp = some ⟨false, 0, []⟩ ∧
    (deputy0 { ownerOp := some ⟨true, 0, []⟩ }).pwr.ownerOp = some ⟨true, 0, []⟩ ∧ (1 : Word).getLsbD 0 = true ∧
    (deputy0 {}).pwr.att = none ∧ (deputy0 { att := some ⟨List.replicate 8 0, 0⟩ }).pwr.att = some ⟨List.replicate 8 0, 0⟩ ∧
    (List.replicate 8 (0 : Word)).length = 8 := by decide
/-- An image header that says nothing but its magic number, with its CRC32C. -/
def headBytes0 : List Byte := leBytes 4 0x36314D49 ++ List.replicate 8184 0
def header1 : List Byte := headBytes0 ++ leBytes 4 (crc32c headBytes0).toNat
def nor0 : List Host.Cell := norStore [] 0 header1
theorem head_length : headBytes0.length = 0x1FFC := by
  rw [headBytes0, List.length_append, leBytes_length, List.length_replicate]
theorem header_length : header1.length = 8192 := by
  rw [header1, List.length_append, leBytes_length, head_length]
theorem header_stored : headerOf nor0 = header1 := by
  refine List.ext_getElem (by simp [headerOf, norBytes, header_length]) fun i h1 h2 => ?_
  simp only [headerOf, norBytes, List.getElem_map, List.getElem_range]
  exact norStore_self [] 0 header1 i h2
theorem header_field (off n : Nat) (h : off + n ≤ 0x1FFC) : leAt header1 off n = leAt headBytes0 off n :=
  leAt_left (Nat.le_trans h (Nat.le_of_eq head_length.symm))
theorem header_ok : imageHeaderOk header1 = true := by
  have c : leAt header1 0x1FFC 4 = (crc32c headBytes0).toNat := by
    rw [header1, leAt_right (Nat.le_of_eq head_length), head_length, Nat.sub_self, leAt_self]
    exact Nat.mod_eq_of_lt (crc32c headBytes0).isLt
  have t : header1.take 0x1FFC = headBytes0 := by rw [header1, ← head_length, List.take_left]
  have m : leAt headBytes0 0 4 = 0x36314D49 := by rw [headBytes0, leAt_first] <;> decide +kernel
  have z (off n : Nat) (h : 4 ≤ off) : leAt headBytes0 off n = leAt (List.replicate 8184 0) (off - 4) n := leAt_skip h
  simp only [imageHeaderOk, hdrStage1, hdrStage2, c, t, header_field 0 4 (by decide), m, header_field 0x0C 4 (by decide),
    header_field 0x10 4 (by decide), z 0x0C 4 (by decide), z 0x10 4 (by decide), beq_self_eq_true]
  decide +kernel
theorem factory_fields : factoryFields nor0 = some [] := by
  have e : leAt (norBytes nor0 offFactory sectionBytes) 0 2 = 0xFFFF := by
    have b (i : Nat) : loadByteFill 0xFF nor0 (offFactory + i) = 0xFF := by
      have h : 0 + header1.length ≤ offFactory + i := by
        rw [header_length]
        unfold offFactory
        omega
      rw [nor0, norStore_other [] 0 (offFactory + i) header1 (.inr h)]
      rfl
    have g (i : Nat) (h : i < sectionBytes) : (norBytes nor0 offFactory sectionBytes).getD i 0 = 0xFF := by
      simp only [List.getD_eq_getElem?_getD, norBytes, List.getElem?_map, List.getElem?_range h, Option.map_some, Option.getD_some, b]
    have l : List.range 2 = [0, 1] := rfl
    simp only [leAt, sliceBytes, l, List.map_cons, List.map_nil, Nat.zero_add, g 0 (by decide), g 1 (by decide)]
    decide
  rw [factoryFields, show sectionBytes = 65535 + 1 from rfl, parseFields, if_pos (.inr e)]
theorem meets_StartSequence_image_a : checkImage (at0 (.step 3)) nor0 image0 = 0 := by
  have k : hdrKeySet header1 = false := by
    rw [hdrKeySet, header_field 7 1 (by decide), headBytes0, leAt_skip (by decide)]
    decide +kernel
  have c : hdrSec header1 = 0 := by
    rw [hdrSec, header_field 6 1 (by decide), headBytes0, leAt_skip (by decide)]
    decide +kernel
  simp only [checkImage, header_stored, header_ok, factory_fields, k, c]
  rfl

/-! ### Frames and packets -/
theorem meets_Frames : frameOf (port0 {}) (.rxFrameError (frameTo0 28161)) = some (frameTo0 28161, true) ∧
    Received (port0 {}) (frameTo0 28161) ∧ portLive State.reset = false ∧
    frameOf (port0 {}) (.rxFrameError (frameTo0 1)) = some (frameTo0 1, false) ∧ ¬ (64 ≤ 63 ∧ 63 ≤ 9216) := by
  unfold Received
  decide
theorem meets_Frames_answered :
    frameOf (port0 {}) (.arpRequest { frame0 with etherType := 0x0806 } (ownIp4 (port0 {}))) = some ({ frame0 with etherType := 0x0806 }, true) ∧
    (let f := { frameTo0 0 with ipProto := 58, hopLimit := 255 }
     frameOf (port0 {}) (.neighborSolicitation f (ownIp6 (port0 {}))) = some (f, true)) ∧
    frameOf (port0 {}) (.pauseFrame { frame0 with etherType := 0x8808 }) = some ({ frame0 with etherType := 0x8808 }, true) ∧
    frameOf (port0 {}) (.pfcFrame { frame0 with etherType := 0x8808 } 0x0101 1 [5]) = some ({ frame0 with etherType := 0x8808 }, true) := by
  decide
def queued0 : TxFrame := { cls := .control, dstMac := 0, dstIp := 0, dstPort := 0, pcp := 3, dry := 0, body := .arp 0 }
theorem meets_Frames_transmit : portLive (port0 { txQueue := [queued0] }) = true ∧ MaySend (port0 { txQueue := [queued0] }) 0 queued0 ∧
    (∀ i f, ¬ MaySend (port0 { txQueue := [queued0], paused := [(3, 1)] }) i f) := by
  refine ⟨by decide, ⟨rfl, by decide, fun h => (nomatch h.1)⟩, fun i f h => ?_⟩
  obtain ⟨g, p, _⟩ := h
  match i, g with
  | 0, g =>
    cases (show some queued0 = some f from g)
    exact absurd p (by decide)
theorem meets_Frames_link : (at0 .running).port.linkUp = false ∧ linkPhase (at0 .running) = true ∧ isLiveDom (at0 .running) .pclk = true ∧
    ModeFits (at0 .running) 1 ∧ ¬ ModeFits (at0 .running) 5 ∧ (port0 {}).port.linkUp = true := by
  unfold ModeFits
  decide
def withCrc (p : IltPacket) : IltPacket := { p with crc := crc32c (iltHeader p ++ p.payload) }
theorem withCrc_ok (p : IltPacket) : iltCrcOk (withCrc p) = true := beq_self_eq_true (crc32c (iltHeader p ++ p.payload))
theorem crc_wrong (p : IltPacket) : iltCrcOk { withCrc p with crc := (withCrc p).crc + 1 } = false := by
  have h (c : Word) : (c == c + 1) = false := by
    rw [beq_eq_false_iff_ne]
    intro h
    bv_omega
  exact h (crc32c (iltHeader p ++ p.payload))
/-- A packet with its own CRC32C and `n` bytes of payload, of a session with index and TOKEN 0. -/
def ilt0 (type flags : Byte) (psn lsn arg0 : Word) (n : Nat) : IltPacket :=
  withCrc { packet0 with
    type := type, flags := flags, psn := psn, lsn := lsn, arg0 := arg0, plen := BitVec.ofNat 16 n, payload := List.replicate n 0 }
theorem ilt_crc (type flags : Byte) (psn lsn arg0 : Word) (n : Nat) : iltCrcOk (ilt0 type flags psn lsn arg0 n) = true :=
  withCrc_ok _
def toIlt0 : RxFrame := frameTo0 28160
/-- The port runs with session 0 as `x` and the sending sessions `l`. -/
def session0 (x : Session) (l : List OutSession) : State := port0 { sessions := [(0, x)], outs := l, inService := true }
def lot0 : Session := { kind := .lot, peerIp := 7 }
/-- A sending session as this module has it after its OPEN. -/
def out0 (kind : SessionKind) : OutSession := { kind := kind, graph := 0, edge := 0, stage := .open_, peer := 0 }
/-- The frame of the module that `out0` sends to. -/
def fromPeer0 (x : Session) (k : SessionKind) : RxFrame :=
  { toIlt0 with srcIp := moduleIp (session0 x [out0 k]) 0 (if k = .mirror then 1 else 0) }
theorem meets_IltPackets : Received (session0 lot0 []) toIlt0 ∧ udpTo (session0 lot0 []) toIlt0 28160 = true ∧
    IltArrives (session0 lot0 []) toIlt0 (ilt0 1 3 0 1 64 64) 1 ∧ rxSession (session0 lot0 []) (ilt0 1 3 0 1 64 64) = some 0 ∧
    rxSession (session0 {} []) (ilt0 1 3 0 1 64 64) = none ∧ (ilt0 6 0 0 0 0 0).type.toNat ≠ 1 := by
  have u : udpTo (session0 lot0 []) toIlt0 28160 = true := by decide
  have r : Received (session0 lot0 []) toIlt0 := by unfold Received; decide
  exact ⟨r, u, ⟨r, u, rfl⟩, rfl, rfl, by decide⟩
theorem meets_IltPackets_damaged : iltCrcOk { withCrc packet0 with crc := (withCrc packet0).crc + 1 } = false ∧ headerOk (ilt0 1 4 0 1 64 64) true = false ∧
    headerOk (ilt0 1 3 0 1 64 65) true = true ∧ lengthOk (ilt0 1 3 0 1 64 65) = false := by
  refine ⟨crc_wrong packet0, rfl, rfl, rfl⟩
theorem meets_IltPackets_sequence : SoundIlt (ilt0 1 3 0 1 64 64) true ∧ SoundIlt (ilt0 6 0 0 0 0 0) true ∧
    SoundIlt (ilt0 1 0 0 0 0 64) false ∧ (ilt0 1 3 0 1 64 64).psn = lot0.expPsn ∧
    (let p := ilt0 1 3 0xFFFFFFFF 1 64 64
     p.psn ≠ lot0.expPsn ∧ 2 ^ 31 ≤ (p.psn - lot0.expPsn).toNat ∧ SoundIlt p true) ∧
    (let p := ilt0 1 3 0x7FFFFFFF 1 64 64
     p.psn ≠ lot0.expPsn ∧ (p.psn - lot0.expPsn).toNat < 2 ^ 31 ∧ SoundIlt p true) :=
  ⟨⟨ilt_crc .., rfl, rfl⟩, ⟨ilt_crc .., rfl, rfl⟩, ⟨ilt_crc .., rfl, rfl⟩, rfl, ⟨by decide, by decide, ilt_crc .., rfl, rfl⟩,
    by decide, by decide, ilt_crc .., rfl, rfl⟩
theorem meets_IltPackets_data :
    (let s := session0 lot0 []
     (arrive (getEp s (.hub 0)) (bankPacket lot0 (ilt0 1 3 0 1 64 64)) true 0).2.committed = false ∧
     (arrive (getEp s (.hub 0)) (bankPacket lot0 (ilt0 1 3 0 1 64 64)) true 0).2.overcredit = true) ∧
    (arrive fresh0 (bankPacket lot0 (ilt0 1 3 0 1 64 64)) true 0).2.committed = true ∧
    (arrive fresh0 { packet1 0 with bad := true } true 0).2.committed = false ∧
    (arrive fresh0 { packet1 0 with bad := true } true 0).2.overcredit = false ∧
    (port0 { sessions := [(0, lot0)] }).port.inService = false ∧ epWorks (setEp (chute0 fresh0) (.hub 0) fresh0) (.hub 0) = true := by
  decide +kernel
def bytes0 : List Byte := List.replicate 64 0 ++ List.replicate 64 0
theorem meets_IltPackets_lots :
    (let p := ilt0 1 1 0 1 128 64
     lotFirst p = true ∧ lotLast p = false ∧ lot0.rxOpen = false) ∧
    (let p := ilt0 1 2 1 1 0 64
     let x := { lot0 with rxOpen := true, rxLsn := 1, rxLen := 128, rxBytes := List.replicate 64 0 }
     lotFirst p = false ∧ x.rxOpen = true ∧ LotEnd x p 1 128 bytes0 false ∧ LotGood x 1 128 bytes0 ∧
     LotEnd x { p with lsn := 2 } 1 128 bytes0 true) ∧
    LotEnd lot0 (ilt0 1 3 0 1 7 64) 1 7 (List.replicate 64 0) false ∧ ¬ LotGood lot0 1 7 (List.replicate 64 0) ∧
    LotEnd lot0 (ilt0 1 3 0 0 64 64) 0 64 (List.replicate 64 0) false ∧
    (lot0.accLsn + BitVec.ofNat 32 lot0.lots.length - 0).toNat < 2 ^ 31 := by
  refine ⟨⟨rfl, rfl, rfl⟩, ⟨rfl, rfl, ⟨rfl, .inr ⟨rfl, rfl, rfl, rfl, rfl, rfl⟩⟩, ⟨by decide, by decide, by simp [bytes0], fun _ => by decide⟩,
    ⟨rfl, .inr ⟨rfl, rfl, rfl, rfl, rfl, rfl⟩⟩⟩, ⟨rfl, .inl ⟨rfl, rfl, rfl, rfl, rfl, rfl⟩⟩, fun h => absurd h.length.1 (by decide),
    ⟨rfl, .inl ⟨rfl, rfl, rfl, rfl, rfl, rfl⟩⟩, by decide⟩
theorem meets_IltPackets_acks : outSession (session0 lot0 []) toIlt0 (ilt0 2 0 1 0 3 0) = none ∧
    FromPeer (session0 lot0 []) toIlt0 (ilt0 2 0 1 0 3 0) 0 ∧ SoundIlt (ilt0 2 0 1 0 3 0) true ∧ SoundIlt (ilt0 3 0 1 0 3 0) true ∧
    SoundIlt (ilt0 4 0 1 0 3 0) true ∧ outSession (session0 {} [out0 .chute]) (fromPeer0 {} .chute) (ilt0 4 0 1 0 3 0) = some 0 ∧
    outSession (session0 {} [out0 .mirror]) (fromPeer0 {} .mirror) (ilt0 2 0 1 0 3 0) = some 0 ∧
    (∀ i, ¬ FromPeer (session0 {} []) toIlt0 (ilt0 2 0 1 0 3 0) i) ∧ iltCrcOk (ilt0 2 1 1 0 3 0) = true ∧
    headerOk (ilt0 2 1 1 0 3 0) true = false := by
  refine ⟨rfl, ⟨rfl, rfl, rfl⟩, ⟨ilt_crc .., rfl, rfl⟩, ⟨ilt_crc .., rfl, rfl⟩, ⟨ilt_crc .., rfl, rfl⟩, by decide +kernel,
    by decide +kernel, fun i h => ?_, ilt_crc .., rfl⟩
  have e : rxSession (session0 {} []) (ilt0 2 0 1 0 3 0) = none := rfl
  exact nomatch e.symm.trans h.1
def data0 (psn : Word) (sends : Nat) : TxData :=
  { psn := psn, lsn := 1, index := 0, first := true, last := true, total := 64, bytes := List.replicate 64 0, sends := sends }
theorem meets_IltPackets_sends : (session0 {} [out0 .chute]).port.outs[0]? = some (out0 .chute) ∧ (out0 .chute).resetSent = 0 ∧
    outCredit (out0 .chute) (data0 0 0) = false ∧ ([data0 1 1] : List TxData).filter (fun d => !psnOld d.psn 1) = data0 1 1 :: [] ∧
    (∀ d ∈ ([data0 0 1] : List TxData), psnOld d.psn 1 = true) ∧ 16 ≤ (data0 1 16).sends ∧ (out0 .mirror).kind ≠ .chute ∧
    ¬ ({ out0 .chute with stage := .hello }.stage = .open_) := by decide
theorem meets_IltPackets_reset : let x : Session := { kind := .chute }
    IltArrives (session0 x []) toIlt0 (ilt0 8 0 0 0 0 0) 8 ∧ outSession (session0 x []) toIlt0 (ilt0 8 0 0 0 0 0) = none ∧
    rxSession (session0 x []) (ilt0 8 0 0 0 0 0) = some 0 ∧ SoundIlt (ilt0 8 0 0 0 0 0) true ∧ 0 < { x with resetSent := 1 }.resetSent ∧
    chutesAt (session0 x []) (.hub 0) = [] ∧
    chutesAt { session0 x [] with dep := { graphs := [(0, { gen := 1, chutes := [(0, .hub 0)] })] } } (.hub 0) ≠ [] ∧
    outSession (session0 {} [out0 .chute]) (fromPeer0 {} .chute) (ilt0 8 0 0 0 0 0) = some 0 :=
  ⟨⟨by unfold Received; decide, by decide, rfl⟩, rfl, rfl, ⟨ilt_crc .., rfl, rfl⟩, by decide, by decide, by decide, by decide +kernel⟩
def pending0 (stored : Bool) : PendingLot := { lsn := 1, bytes := [], psnAfter := 1, write := 0, stored := stored }
def response0 : Response := { ctx := ctx0, bytes := List.replicate 64 0, psn := 0, written := true }
theorem meets_IltPackets_timers :
    (getSession (session0 { lot0 with lots := [pending0 true] } []) 0).lots = pending0 true :: [] ∧
    (pending0 false).stored = false ∧
    nextResponse { session0 lot0 [] with jnl := { respLog := [response0] } } 0 = some response0 ∧ nextResponse (session0 lot0 []) 0 = none ∧
    NoneSends (session0 { lot0 with unacked := [data0 0 1] } []) 0 ∧
    (getSession (session0 { lot0 with unacked := [data0 0 1] } []) 0).unacked = data0 0 1 :: [] ∧
    OnlySends (session0 {} [{ out0 .chute with unacked := [data0 0 1] }]) 0 0 { out0 .chute with unacked := [data0 0 1] } ∧
    (let x := { lot0 with nakAt := some 0, resync := false }
     x.kind ≠ .free ∧ x.nakAt ≠ none) ∧ { lot0 with resync := true }.resyncs < 16 ∧
    (let x : Session := { kind := .chute, resetSent := 1 }
     0 < x.resetSent ∧ x.resetSent < 16 ∧ x.resetSeen = false) ∧
    ¬ (0 < (getSession (session0 {} [{ out0 .chute with resetSent := 1 }]) 0).resetSent) := by
  refine ⟨rfl, rfl, by decide, by decide, by unfold NoneSends; decide, rfl, ⟨rfl, rfl, fun j u h e => ?_⟩, by decide, by decide, by decide,
    by decide⟩
  match j, h with
  | 0, _ => rfl

/-! ### The journal and the mirror -/
def begun0 (use : WriteUse) : PendingWrite := { id := 5, use := use }
/-- The journal `j` in a running module. -/
def jnl0 (j : Journal) : State := { at0 .running with jnl := j }
theorem meets_JournalAndMirror : (jnl0 {}).jnl.pendingWrites = [] ∧
    (∀ u, (jnl0 { pendingWrites := [begun0 u] }).jnl.pendingWrites.find? (fun w => w.id == 5) = some (begun0 u)) ∧
    CopiesHold (jnl0 {}) true true ∧ ¬ CopiesHold (jnl0 {}) false true ∧
    ¬ CopiesHold (jnl0 { copy0 := false, copy8 := false }) true true ∧
    (jnl0 { respLog := [response0] }).jnl.respLog.find? (fun r => sameCmd r.ctx 0 0 0 && !r.left) = some response0 ∧
    (∀ r ∈ (jnl0 { respLog := [response0] }).jnl.respLog, (sameCmd r.ctx 0 0 1 && !r.left) = false) := by
  unfold CopiesHold
  exact ⟨rfl, fun _ => rfl, by decide, by decide, by decide, by decide, by decide⟩
theorem meets_JournalAndMirror_acts (u : WriteUse) : let w := { begun0 u with local_ := true }
    (jnl0 { pendingWrites := [w] }).jnl.pendingWrites.filter ActsNow = [w] ∧ ActsNow (begun0 u) = false ∧
    ActsNow { w with mirrorLsn := some 1 } = false ∧ findScatter (jnl0 {}) 0 0 0 = none ∧
    findScatter { jnl0 {} with scatters := [⟨0, 0, 0, 1, [], [], 0, 0, false⟩] } 0 0 0 = some ⟨0, 0, 0, 1, [], [], 0, 0, false⟩ :=
  ⟨rfl, rfl, rfl, rfl, rfl⟩
def record1 (k : RecordKind) (key : Nat) : MirrorRecord := { lsn := 1, kind := k, key := key, bytes := [] }
theorem meets_JournalAndMirror_records : (jnl0 {}).pwr.config.twin = false ∧
    { jnl0 {} with pwr := { config := { twin := true } } }.pwr.config.twin = true ∧
    (let x : Session := { kind := .mirror, lots := [pending0 true] }
     mirrorSession (session0 x []) = some 0 ∧ (getSession (session0 x []) 0).lots = pending0 true :: [] ∧
     (pending0 true).lsn = (record1 .retire (2 ^ 63)).lsn) ∧
    (∀ e ∈ (session0 lot0 []).port.sessions, e.2.kind ≠ .mirror) ∧ (2 ^ 63 % 2 ^ 64 = 2 ^ 63 ∧ 2 ^ 63 < 2 ^ 256) ∧
    ¬ (1 % 2 ^ 64 = 2 ^ 63) ∧ (record1 .lot 0).kind = .lot := by decide
theorem meets_JournalAndMirror_opening :
    (session0 {} [{ out0 .mirror with stage := .hello }]).port.outs[0]? = some { out0 .mirror with stage := .hello } ∧
    (session0 {} [{ out0 .chute with stage := .opening }]).port.outs[0]? = some { out0 .chute with stage := .opening } ∧
    (⟨0, 0, 0, 2⟩ : OpenAnswer).status = 0 ∧ (⟨1, 0, 0, 0⟩ : OpenAnswer).status ≠ 0 ∧
    (∀ o, (session0 {} []).port.outs[0]? = some o → o.stage ≠ .hello) := by
  refine ⟨rfl, rfl, rfl, by decide, fun o h => ?_⟩
  cases h
theorem meets_JournalAndMirror_restore : (jnl0 { mirror := .lost }).jnl.mirror = .lost ∧
    (jnl0 { mirror := .restoring }).jnl.mirror = .restoring ∧ (jnl0 {}).jnl.mirror ≠ .lost ∧ (jnl0 {}).jnl.mirror ≠ .restoring ∧
    (at0 (.step 10)).pwr.phase = .step 10 ∧ (at0 (.step 10)).dep.replayed = false ∧ (at0 (.step 10)).jnl.mirror ≠ .restoring ∧
    (at0 .running).pwr.phase ≠ .step 10 := by decide
def kept0 : LotRecord := { session := 0, lsn := 1, psnAfter := 1, tAccept := 0, granules := 1, commands := 1, done := [], accepted := true,
                           bytes := [3, 8, 0, 0, 1, 0, 0, 0] ++ List.replicate 8 0 }
theorem meets_JournalAndMirror_replay : kept0.dead = 0 ∧ kept0.accepted = true ∧ kept0.piece = none ∧ kept0.retired = false ∧
    undone (jnl0 {}) kept0 ≠ [] ∧ (lotCommands 0 1 0 kept0.bytes).length = 1 ∧ undone (jnl0 {}) { kept0 with retired := true } = [] := by
  decide
end Sys2Proof.Tests
end

/-! Block scales and integer elements (R13 to R15): the codes of the integer block formats, the range of a two's complement
field, and the statement O52. -/

namespace Sys2Proof.Safety

open Sys2Proof.Machine

/-! ## Scales (R13) -/

theorem scaleVal_nan (v : FVal) : scaleVal 0xFF v = .nan :=
  if_pos rfl

theorem scaleVal_fin {x : Nat} (hx : x < 0xFF) (n : Bool) (m : Nat) (e : Int) :
    scaleVal x (.fin n m e) = .fin n m (e + ((x : Int) - 127)) := by
  simp only [scaleVal, if_neg (Nat.ne_of_lt hx), Int.add_sub_assoc]

/-! ## Two's complement -/

theorem two_pow_cast (k : Nat) : ((2 ^ k : Nat) : Int) = 2 ^ k :=
  Int.natCast_pow 2 k

/-- `signedOf_lt` with the power of two as an integer. -/
theorem signedOf_lt_int {w raw : Nat} (hw : 0 < w) (h : raw < 2 ^ w) :
    signedOf w raw = if raw < 2 ^ (w - 1) then (raw : Int) else raw - 2 ^ w := by
  rw [signedOf_lt hw h, two_pow_cast]

theorem signedOf_range {w raw : Nat} (hw : 0 < w) (h : raw < 2 ^ w) :
    -(2 : Int) ^ (w - 1) ≤ signedOf w raw ∧ signedOf w raw ≤ 2 ^ (w - 1) - 1 := by
  have double : 2 ^ w = 2 ^ (w - 1) * 2 := (Nat.pow_pred_mul hw).symm
  rw [signedOf_lt hw h, ← two_pow_cast]
  split <;> omega

/-! ## The codes of VWB-w (R9) -/

theorem isVwb_vwb {w : Nat} (h1 : 1 ≤ w) (h16 : w ≤ 16) : isVwb (0x1F + w) = true := by
  simp only [isVwb, Bool.and_eq_true, decide_eq_true_eq]
  omega

theorem elemWidth_vwb {w : Nat} (h1 : 1 ≤ w) (h16 : w ≤ 16) : elemWidth (0x1F + w) = w := by
  rw [elemWidth, if_pos (isVwb_vwb h1 h16), Nat.add_sub_cancel_left]

/-- No VWB code is that of a floating format: all of those lie below 0x20 or, as A40's, above 0x2F. -/
theorem floatOf_vwb {w : Nat} (h1 : 1 ≤ w) (h16 : w ≤ 16) : floatOf (0x1F + w) = none := by
  unfold floatOf fmtA40
  repeat rw [if_neg (by omega)]

theorem intStep_vwb {w : Nat} (h1 : 1 ≤ w) : intStep (0x1F + w) = 0 :=
  if_neg (by unfold fmtMxInt8; omega)

theorem intElem_vwb {w : Nat} (h1 : 1 ≤ w) (h16 : w ≤ 16) (raw : Nat) : intElem (0x1F + w) raw = signedOf w raw := by
  rw [intElem, elemWidth_vwb h1 h16]

/-! ## Elements under a scale (R14, R15) -/

theorem isInt_mxInt8 {x raw : Nat} (hx : x < 0xFF) (hr : raw < 2 ^ 8) :
    IsInt (if raw < 2 ^ 7 then (raw : Int) else raw - 2 ^ 8) (-6 + ((x : Int) - 127)) (scaleVal x (elemVal 0x15 raw)) :=
  isInt_scale rfl hx (signedOf_lt_int (w := 8) (by decide) hr) rfl

theorem isInt_vwb {w x : Nat} (h1 : 1 ≤ w) (h16 : w ≤ 16) (hx : x < 0xFF) (raw : Nat) :
    IsInt (signedOf w raw) ((x : Int) - 127) (scaleVal x (elemVal (0x1F + w) raw)) :=
  isInt_scale (floatOf_vwb h1 h16) hx (intElem_vwb h1 h16 raw) (by rw [intStep_vwb h1, Int.zero_add])

theorem signedOf_one {raw : Nat} (h : raw < 2 ^ 1) : signedOf 1 raw = -1 ∨ signedOf 1 raw = 0 := by
  obtain ⟨lower, upper⟩ := signedOf_range Nat.one_pos h
  change -1 ≤ signedOf 1 raw at lower
  change signedOf 1 raw ≤ 0 at upper
  omega

/-- Settles O52: the scale adds its exponent to that of a finite value, and an integer element is its two's complement field. -/
theorem integerBlocks : Obligations.IntegerBlocks := by
  unfold Obligations.IntegerBlocks
  refine ⟨scaleVal_nan, fun _ n m e hx => scaleVal_fin hx n m e, fun _ _ hx hr => isInt_mxInt8 hx hr, by decide,
    fun w x raw h1 h16 hx hr => ?_⟩
  obtain ⟨lower, upper⟩ := signedOf_range h1 hr
  refine ⟨signedOf w raw, signedOf_lt_int h1 hr, lower, upper, isInt_vwb h1 h16 hx raw, fun hw => ?_⟩
  subst hw
  exact signedOf_one hr

end Sys2Proof.Safety

/-! The vat window (R95): which byte of which entry lies at an offset of an output tile, and the statement O53. -/

namespace Sys2Proof.Safety

open Sys2Proof.Machine

/-! ## Bytes of an entry -/

/-- What a byte of the window is, from the tile that holds its granule and the offset `r` within that tile. -/
theorem vatByte_of_tileAt {c : CoreState} {t : VatTile} {r : Nat} (ht : tileAt c ((4096 * t.base + r) / 4096) = some t)
    (hr : r / entryBytes t.x64 < 4096) : vatByte c (4096 * t.base + r) =
      BitVec.ofNat 8 ((tget t.entries 0 (r / entryBytes t.x64)).toNat / 256 ^ (r % entryBytes t.x64)) := by
  have offset : 4096 * t.base + r - t.base * 4096 = r := by omega
  simp only [vatByte, ht, offset, if_pos hr]

/-- The entries of a tile fill as many granules as an entry has bytes, so an offset of theirs lies in a granule of the tile. -/
theorem granule_of_entry {base w i k : Nat} (hi : i < 4096) (hk : k < w) :
    base ≤ (4096 * base + (w * i + k)) / 4096 ∧ (4096 * base + (w * i + k)) / 4096 < base + w := by
  have inside : w * i + k < 4096 * w := calc
    w * i + k < w * (i + 1) := by rw [Nat.mul_succ]; omega
    _ ≤ w * 4096 := Nat.mul_le_mul_left w hi
    _ = 4096 * w := Nat.mul_comm w 4096
  omega

/-- Byte `k` of entry `i` of a tile that holds its granules, least significant first. -/
theorem vatByte_entry {c : CoreState} {t : VatTile} {i k : Nat}
    (ht : ∀ g, t.base ≤ g → g < t.base + entryBytes t.x64 → tileAt c g = some t) (hi : i < 4096) (hk : k < entryBytes t.x64) :
    vatByte c (4096 * t.base + entryBytes t.x64 * i + k) = BitVec.ofNat 8 ((tget t.entries 0 i).toNat / 256 ^ k) := by
  obtain ⟨lower, upper⟩ := granule_of_entry (base := t.base) hi hk
  have entry : (entryBytes t.x64 * i + k) / entryBytes t.x64 = i := by
    rw [Nat.mul_add_div (Nat.zero_lt_of_lt hk), Nat.div_eq_of_lt hk, Nat.add_zero]
  have byte : (entryBytes t.x64 * i + k) % entryBytes t.x64 = k := by
    rw [Nat.mul_add_mod, Nat.mod_eq_of_lt hk]
  rw [Nat.add_assoc, vatByte_of_tileAt (ht _ lower upper) (by rwa [entry]), entry, byte]

/-! ## The exponent reference -/

/-- Where a tile lies does not depend on its exponent reference. -/
theorem tileAt_eRef (c : CoreState) (ts : List VatTile) (e : Int) (g : Nat) :
    tileAt { c with tiles := ts.map fun t => { t with eRef := e } } g =
      (tileAt { c with tiles := ts } g).map fun t => { t with eRef := e } :=
  List.find?_map

theorem vatByte_eRef (c : CoreState) (ts : List VatTile) (e : Int) (off : Nat) :
    vatByte { c with tiles := ts.map fun t => { t with eRef := e } } off = vatByte { c with tiles := ts } off := by
  rw [vatByte, tileAt_eRef, vatByte]
  cases tileAt { c with tiles := ts } (off / 4096) <;> rfl

/-- Settles O53: entry (m, n) is entry 64m + n of the tile, and neither its place nor its bytes depend on the reference. -/
theorem vatWindow : Obligations.VatWindow := by
  unfold Obligations.VatWindow
  intro c t w ht
  refine ⟨fun m n k hm hn hk => vatByte_entry ht ?_ hk, vatByte_eRef c [t]⟩
  omega

end Sys2Proof.Safety

section
/-! The whole block: what a step takes, and what every command leaves as it was. -/

-- one theorem after the other: proofs side by side would need more memory than the check allows
set_option Elab.async false

namespace Sys2Proof.Safety

open Sys2Proof.Machine

/-! ## One step -/

theorem step_idle {s : State} (h : s.pending = []) : step s = .next (dclkCycle s) := by
  rw [step, h]

theorem step_front {s : State} {c : Instr} {rest : List Instr} (h : s.pending = c :: rest) :
    step s = exec c { s with pending := rest } := by
  rw [step, h]

/-- No arm of the dispatch ends in a fault or a refusal. -/
theorem exec_next (i : Instr) (s : State) : ∃ t, exec i s = .next t := by
  cases i <;> exact ⟨_, rfl⟩

/-- Settles O1: the step on a queue with a command in front is that command's execution on the queue's rest. -/
theorem stepRunsFront : Obligations.StepRunsFront := by
  unfold Obligations.StepRunsFront
  exact fun _ _ _ => step_front

/-- Settles O7: every arm answers a next state, and `exec_keeps` bounds what that state changes. -/
theorem commandFrame : Obligations.CommandFrame := by
  unfold Obligations.CommandFrame
  intro i s
  obtain ⟨t, ht⟩ := exec_next i s
  exact ⟨t, ht, (exec_keeps ht (Can.all (touches i))).sameBut⟩

/-! ## The state before power -/

theorem rawReg_reset (a : Nat) : rawReg State.reset a = regReset a :=
  tget_nil (regReset a) a

/-- Settles O3: the reset state lists no entry of any table, so every word reads as its table gives it. -/
theorem resetValues : Obligations.ResetValues := by
  unfold Obligations.ResetValues
  refine ⟨rawReg_reset, by decide, by decide, by decide, fun a => tget_nil 0 a, ?_⟩
  repeat' constructor

/-- Settles O4: before power every store is empty, which is its canonical form. -/
theorem invAtReset : Obligations.InvAtReset := by
  unfold Obligations.InvAtReset
  exact ⟨nil_wf, ⟨.nil, List.forall_mem_nil _⟩, ⟨.nil, List.forall_mem_nil _⟩, by decide, by decide⟩

/-! ## The idle step -/

/-- A cycle of DCLK moves the clocks only, and of them neither the domains nor the fuses. -/
theorem dclkCycle_keeps (s : State) : Keeps (· ∈ [.time, .clk]) s (dclkCycle s) := by
  have can : Can [.time, .clk] (· ∈ [Part.time, .clk]) := Can.all _
  unfold dclkCycle
  exact Keeps.ite (.refl s) fun _ => (Keeps.refl s).upd rfl rfl rfl

theorem advanceReplicas_eq (s : State) (d : Nat) :
    advanceReplicas s (s.clk.now + d) d = s.clk.replicas.map fun e => (e.1, replicaAfter s d e.1 e.2) := by
  unfold advanceReplicas
  refine List.map_congr_left fun e _ => ?_
  unfold replicaAfter advanceReplica
  cases isLiveDom s (replicaDomain e.1) <;> cases e.2.held <;> simp

theorem dclkCycle_locked {s : State} (h : s.clk.dclkLocked = true) :
    let d := if s.clk.tickThree then 3 else 2
    (dclkCycle s).clk = { s.clk with
      now := s.clk.now + d
      tickThree := !s.clk.tickThree
      replicas := s.clk.replicas.map fun e => (e.1, replicaAfter s d e.1 e.2) } := by
  intro d
  rw [dclkCycle, if_pos h, ← advanceReplicas_eq]

theorem dclkCycle_unlocked {s : State} (h : s.clk.dclkLocked = false) : dclkCycle s = s := by
  rw [dclkCycle, h]
  rfl

/-! ## What every step keeps -/

/-- A step keeps the invariant and the fuses, and takes the front of the queue. -/
theorem step_keeps {s t : State} (h : step s = .next t) :
    t.pending = s.pending.tail ∧ (Inv s → Inv t) ∧ Fixed s.pwr t.pwr := by
  cases hp : s.pending with
  | nil =>
    rw [step_idle hp] at h
    cases h
    have k := dclkCycle_keeps s
    exact ⟨k.pending.trans hp, k.inv, k.fixed⟩
  | cons c rest =>
    rw [step_front hp] at h
    have k := exec_keeps h (Can.all (touches c))
    exact ⟨k.pending, fun i => k.inv ⟨i.mem, i.norA, i.norB, i.nonces, i.announced⟩, k.fixed⟩

/-- Settles O5: the invariant is carried through both kinds of step by `Keeps`. -/
theorem invKept : Obligations.InvKept := by
  unfold Obligations.InvKept
  exact fun _ _ inv h => (step_keeps h).2.1 inv

/-- Settles O6: the queue loses its front, and `Keeps` carries the fuses. -/
theorem fusesKept : Obligations.FusesKept := by
  unfold Obligations.FusesKept
  intro s t h
  obtain ⟨pending, _, fixed⟩ := step_keeps h
  exact ⟨pending, fixed⟩

/-! ## The local counter -/

/-- The rows that may move the local counter are those that can take all power. -/
theorem touches_time {i : Instr} (h : Part.time ∈ touches i) :
    (∃ cv ca ns, i = .shutdown cv ca ns) ∨ i = .mateRemoval ∨ ∃ f, i = .temperatureSample f := by
  cases i
  case shutdown cv ca ns => exact .inl ⟨cv, ca, ns, rfl⟩
  case mateRemoval => exact .inr (.inl rfl)
  case temperatureSample f => exact .inr (.inr ⟨f, rfl⟩)
  all_goals simp [touches] at h

/-- What a row may do to the local counter: nothing, or clear it with the power. -/
def CounterKept (s t : State) : Prop :=
  (t.clk.now = s.clk.now ∧ t.clk.tickThree = s.clk.tickThree) ∨ (t.clk.now = 0 ∧ t.pwr.phase = .off)

theorem powerOff_counter (s z : State) : CounterKept s (powerOff z) :=
  .inr (powerOff_time z)

theorem shutdown_counter (s : State) (cv ca ns : Nat) : CounterKept s (shutdown s cv ca ns) := by
  unfold shutdown
  split
  · exact powerOff_counter s s
  · exact .inl ⟨rfl, rfl⟩

theorem mateRemoval_counter (s : State) : CounterKept s (mateRemoval s) :=
  powerOff_counter s s

/-- A sample without a trip notes readings, flags and bands. -/
theorem temperatureSample_counter (s : State) (f : Temperatures) : CounterKept s (temperatureSample s f) := by
  have can : Can [.temps, .regs, .cals] (· ∈ [Part.temps, .regs, .cals]) := Can.all _
  unfold temperatureSample
  split
  · exact .inl ⟨rfl, rfl⟩
  split
  · exact powerOff_counter s _
  · refine .inl (keeps_time (P := (· ∈ [Part.temps, .regs, .cals])) ?_ (by decide))
    refine Keeps.foldl (Keeps.foldl (raiseIf_keeps ?_ ..) _ fun _ _ k => noteHot_keeps k ..) _ fun _ _ k => updateBand_keeps k ..
    exact (Keeps.refl s).upd rfl rfl rfl

theorem exec_counter {i : Instr} {s t : State} (h : exec i s = .next t) : CounterKept s t := by
  by_cases touched : Part.time ∈ touches i
  · obtain ⟨cv, ca, ns, rfl⟩ | rfl | ⟨f, rfl⟩ := touches_time touched <;> cases h
    · exact shutdown_counter s cv ca ns
    · exact mateRemoval_counter s
    · exact temperatureSample_counter s f
  · exact .inl (keeps_time (exec_keeps h (Can.all (touches i))) touched)

/-- Settles O2: the idle step is a cycle of DCLK, and of the commands only a loss of power moves the local counter. -/
theorem localCounter : Obligations.LocalCounter := by
  unfold Obligations.LocalCounter
  refine ⟨fun s idle => ⟨fun unlocked => ?_, fun locked => ?_⟩, fun _ _ _ => exec_counter⟩
  · rw [step_idle idle, dclkCycle_unlocked unlocked]
  · exact ⟨_, step_idle idle, (dclkCycle_keeps s).sameBut, dclkCycle_locked locked⟩

end Sys2Proof.Safety

end

section
/-! Allocations and descriptors (R177 to R185, R245, R248): what ALLOC, FREE, DESC_CREATE and DESC_DESTROY answer, and what they
leave in the tables. -/

-- one theorem after the other: proofs side by side would need more memory than the check allows
set_option Elab.async false

namespace Sys2Proof.Safety

open Sys2Proof.Machine

/-! ## Allocations -/

/-- The state in which ALLOC answers: the range taken, and noted as void where an earlier loss left it so. -/
def allocated (s : State) (base n : Nat) : State :=
  let s := (drawChoice s).2
  voidAtAlloc { s with dep := { s.dep with allocs := { base := base, size := n } :: s.dep.allocs } } base n

theorem allocated_keeps (s : State) (base n : Nat) :
    (allocated s base n).mem = s.mem ∧ (allocated s base n).dep.allocs = { base := base, size := n } :: s.dep.allocs := by
  have k := voidAtAlloc_keeps (P := (· ∈ [.regs, .jobs, .voids, .dep, .txQueue, .sessions, .outs, .arrays, .cores, .hoists,
    .scatters, .chutes])) (.refl { (drawChoice s).2 with dep := { s.dep with
      allocs := { base := base, size := n } :: s.dep.allocs } }) base n (Can.all _)
  exact ⟨k.field .mem (by decide), k.field .allocs (by decide)⟩

theorem allocCmd_placed {s : State} {ctx : CmdCtx} {seam size b : Nat} (hseam : seam ≤ 15) (h0 : 0 < size)
    (hsize : size ≤ Config.hostBytes seam)
    (hb : placeAlloc s seam (roundUp size 4096) = (some b, (drawChoice s).2)) :
    allocCmd s ctx seam size = tableRespond (allocated s b (roundUp size 4096)) ctx 0x01 0 (leBytes 8 b)
      (leBytes 8 b ++ leBytes 8 (roundUp size 4096)) := by
  rw [allocCmd, if_neg (by omega), if_neg (by omega), hb]
  rfl

theorem allocCmd_full {s : State} {ctx : CmdCtx} {seam size : Nat} (hseam : seam ≤ 15) (h0 : 0 < size)
    (hsize : size ≤ Config.hostBytes seam) (none_ : lowestRange s seam (roundUp size 4096) = none) :
    allocCmd s ctx seam size = failCmd s ctx 0x01 0x0300 := by
  rw [allocCmd, if_neg (by omega), if_neg (by omega), placeAlloc, none_]

/-- ALLOC of a size that the seam can hold: it takes a free range where one is, and fails otherwise. -/
theorem alloc_answers {s : State} {ctx : CmdCtx} (live : LiveCmd ctx s) {seam : Byte} {size : Nat} (hseam : seam.toNat ≤ 15)
    (h0 : 0 < size) (hsize : size ≤ Config.hostBytes seam.toNat) (whole : WholeAllocs s) :
    let n := roundUp size 4096
    (∀ b, FreeRange s seam.toNat b n →
      ∃ t b, exec (.alloc ctx seam size) s = .next t ∧ FreeRange s seam.toNat b n ∧ t.mem = s.mem ∧
        t.dep.allocs = { base := b, size := n } :: s.dep.allocs ∧ Answered ctx 0x01 0 (leBytes 8 b) t) ∧
    ((∀ b, ¬ FreeRange s seam.toNat b n) → Fails (.alloc ctx seam size) ctx 0x01 0x0300 s) := by
  intro n
  refine ⟨fun b free => ?_, fun full => ?_⟩
  · cases low : lowestRange s seam.toNat n with
    | none => exact absurd free ((lowestRange_none whole).1 low b)
    | some c =>
      obtain ⟨b, placed, isFree⟩ := placeAlloc_some low
      obtain ⟨mem, allocs⟩ := allocated_keeps s b n
      have same := tableRespond_same (allocated s b n) ctx 0x01 0 (leBytes 8 b) (leBytes 8 b ++ leBytes 8 n)
      refine ⟨_, b, by rw [allocCmd_next live, allocCmd_placed hseam h0 hsize placed], isFree, ?_, ?_,
        tableRespond_answers _ live.2 ..⟩
      · exact (same.field .mem (by decide)).trans mem
      · exact (same.field .allocs (by decide)).trans allocs
  · refine fails_of live ?_
    rw [allocCmd_next live, allocCmd_full hseam h0 hsize ((lowestRange_none whole).2 full)]

/-- The search of FREE and of ALLOCATION_RELEASE, which tell the allocations at a base by whether a free of them waits. -/
theorem find_allocAt {s : State} {base : Addr} {a : Allocation} (h : AllocAt s base a) (p : Allocation → Bool) :
    (s.dep.allocs.find? fun x => x.base == base && p x) = if p a then some a else none := by
  obtain ⟨mem, atBase, only⟩ := h
  cases hp : p a with
  | true =>
    exact find?_unique mem (by simp [atBase, hp]) fun x hx e => only x hx (by simp at e; exact e.1)
  | false =>
    refine List.find?_eq_none.2 fun x hx e => ?_
    simp only [Bool.and_eq_true, beq_iff_eq] at e
    rw [only x hx e.1, hp] at e
    exact absurd e.2 (by decide)

theorem find_noAlloc {s : State} {base : Addr} (h : ∀ a ∈ s.dep.allocs, a.base ≠ base) (p : Allocation → Bool) :
    (s.dep.allocs.find? fun x => x.base == base && p x) = none :=
  List.find?_eq_none.2 fun x hx e => by
    simp only [Bool.and_eq_true, beq_iff_eq] at e
    exact h x hx e.1

/-- FREE of an allocation whose free does not wait yet. -/
theorem free_answers {s : State} {ctx : CmdCtx} (live : LiveCmd ctx s) {base : Addr} {a : Allocation} (h : AllocAt s base a)
    (fresh : a.freePending = false) :
    ∃ t, exec (.free ctx base) s = .next t ∧ Answered ctx 0x02 0 [] t ∧
      (Pinned s a → t.dep.allocs = pendingAt base s.dep.allocs ∧ t.dep.voids = s.dep.voids) ∧
      (¬ Pinned s a → t.dep.allocs = s.dep.allocs.filter (·.base != base)) := by
  have found : (s.dep.allocs.find? fun x => x.base == base && !x.freePending) = some a := by
    rw [find_allocAt h (fun x => !x.freePending), fresh]
    rfl
  have e : freeCmd s ctx base = tableRespond (if allocationPinned s a then pendFree s base else dropAllocation s a)
      ctx 0x02 0 [] (leBytes 8 base) := by
    rw [freeCmd, found]
  have same := tableRespond_same (if allocationPinned s a then pendFree s base else dropAllocation s a)
    ctx 0x02 0 [] (leBytes 8 base)
  refine ⟨_, by rw [freeCmd_next live, e], tableRespond_answers _ live.2 .., fun pinned => ?_, fun free => ?_⟩
  · rw [if_pos ((pinned_iff s a).2 pinned)] at same ⊢
    exact ⟨same.field .allocs (by decide), same.field .voids (by decide)⟩
  · rw [if_neg (mt (pinned_iff s a).1 free)] at same ⊢
    have dropped : _ = s.dep.allocs.filter (·.base != a.base) := same.field .allocs (by decide)
    rwa [h.2.1] at dropped

theorem free_fails {s : State} {ctx : CmdCtx} (live : LiveCmd ctx s) {base : Addr}
    (none_ : (s.dep.allocs.find? fun x => x.base == base && !x.freePending) = none) :
    Fails (.free ctx base) ctx 0x02 0x0304 s :=
  fails_of live (by rw [freeCmd_next live, freeCmd, none_])

theorem allocationRelease_next {s : State} {ctx : CmdCtx} (live : LiveCmd ctx s) (base : Addr) :
    exec (.allocationRelease base) s = .next (releaseAllocation s base) := by
  simp only [exec, execAllocationRelease, inService_live live]

/-- ALLOCATION_RELEASE of an allocation whose free waits. -/
theorem allocationRelease_does {s : State} {ctx : CmdCtx} (live : LiveCmd ctx s) {base : Addr} {a : Allocation}
    (h : AllocAt s base a) (waits : a.freePending = true) :
    ∃ t, exec (.allocationRelease base) s = .next t ∧ (Pinned s a → t = s) ∧
      (¬ Pinned s a → t.dep.allocs = s.dep.allocs.filter (·.base != base) ∧ t.dep.descs = s.dep.descs) := by
  have found : (s.dep.allocs.find? fun x => x.base == base && x.freePending) = some a := by
    rw [find_allocAt h (·.freePending), waits]
    rfl
  have e : releaseAllocation s base = if allocationPinned s a then s else logTable (dropAllocation s a) 8 := by
    rw [releaseAllocation, found]
  refine ⟨_, by rw [allocationRelease_next live, e], fun pinned => if_pos ((pinned_iff s a).2 pinned), fun free => ?_⟩
  rw [if_neg (mt (pinned_iff s a).1 free), ← h.2.1]
  exact ⟨rfl, rfl⟩

/-- Settles O8: a free range exists exactly when the search for the lowest finds one, and an allocation goes once nothing pins
it. -/
theorem allocations : Obligations.Allocations := by
  unfold Obligations.Allocations
  intro s ctx live
  refine ⟨fun seam size hseam h0 hsize whole => alloc_answers live hseam h0 hsize whole, fun base a h => ⟨fun fresh => ?_,
    fun waits => ⟨free_fails live ?_, allocationRelease_does live h waits⟩⟩, fun base absent => ⟨free_fails live ?_, ?_⟩⟩
  · exact free_answers live h fresh
  · rw [find_allocAt h (fun x => !x.freePending), waits]
    rfl
  · exact find_noAlloc absent _
  · rw [allocationRelease_next live, releaseAllocation, find_noAlloc absent]

/-! ## Descriptors -/

theorem descCreate_fails {s : State} {ctx : CmdCtx} (live : LiveCmd ctx s) {record : List Byte} (len : record.length = 160)
    {n : Nat} (hn : n ≠ 0) (e : (if descStatus s record = 0 ∧ (Config.descSlots ≤ (usedDescs s).length ∨
      tableFull s 160 = true) then 9 else descStatus s record) = n) :
    ∃ t, exec (.descCreate ctx record) s = .next t ∧ Answered ctx 0x03 (0x0100 + n) [] t ∧
      RegsAs (setRawReg (raiseIf (n == 9) (raise (count s descBase Ctr.DT_FAIL_CNT 1) descBase Flag.desc_CREATE_FAIL)
        descBase Flag.desc_FULL) (descBase + 0xC) (BitVec.ofNat 32 (n + 256 * (ctx.lsn.toNat % 2 ^ 24)))) t ∧
      SameBut (.regs :: answerParts) s t :=
  descFail live (by rw [descCreateCmd, if_neg (Classical.not_not.2 len)]; dsimp only; rw [e, if_pos hn]) rfl

theorem descCreate_takes {s : State} {ctx : CmdCtx} (live : LiveCmd ctx s) {record : List Byte} (len : record.length = 160)
    (sound : descStatus s record = 0) (room : ¬ (Config.descSlots ≤ (usedDescs s).length ∨ tableFull s 160 = true)) {i : Nat}
    (low : LowestFree (usedDescs s) Config.descSlots i) :
    let g := nextGen (getDescSlot s i).gen
    ∃ t, exec (.descCreate ctx record) s = .next t ∧ Answered ctx 0x03 0 (leBytes 4 (handleOf i g)) t ∧
      DescSet i { gen := g, live := some (parseDesc record) } s t ∧ SameBut (.descs :: answerParts) s t := by
  intro g
  have e : descCreateCmd s ctx record = tableRespond (setDescSlot s i { gen := g, live := some (parseDesc record) }) ctx 0x03 0
      (leBytes 4 (handleOf i g)) (leBytes 4 i ++ leBytes 4 g ++ record) := by
    rw [descCreateCmd, if_neg (Classical.not_not.2 len)]
    dsimp only
    rw [if_neg (fun h : descStatus s record = 0 ∧ _ => room h.2), if_neg (Classical.not_not.2 sound), lowestFree_some low]
  have same := tableRespond_same (setDescSlot s i { gen := g, live := some (parseDesc record) }) ctx 0x03 0
    (leBytes 4 (handleOf i g)) (leBytes 4 i ++ leBytes 4 g ++ record)
  refine ⟨_, by rw [descCreate_next live, e], tableRespond_answers _ live.2 .., descSet_of s _ i _ ?_, ?_⟩
  · exact same.field .descs (by decide)
  · exact ((setDescSlot_keeps (.refl s) i _ (Can.sub (Can.all (.descs :: answerParts)) (by decide))).trans
      (same.mono (m := .descs :: answerParts))).sameBut

theorem descDestroy_answers {s : State} {ctx : CmdCtx} (live : LiveCmd ctx s) {handle : Word} {i : Nat}
    (names : NamesDesc s handle.toNat i) :
    ∃ t, exec (.descDestroy ctx handle) s = .next t ∧ Answered ctx 0x04 0 [] t ∧
      (HeldByGraph s i → DescSet i { getDescSlot s i with destroyPending := true } s t) ∧
      (¬ HeldByGraph s i → DescSet i { gen := (getDescSlot s i).gen } s t) ∧ SameBut (.descs :: answerParts) s t := by
  have alive := (liveHandle_iff s handle.toNat).2 ⟨i, names⟩
  obtain ⟨slot, -⟩ := names
  have e : exec (.descDestroy ctx handle) s = .next (tableRespond
      (if descHeld s i then setDescSlot s i { getDescSlot s i with destroyPending := true } else dropDesc s i)
      ctx 0x04 0 [] (leBytes 4 i)) := by
    simp only [exec, execDescDestroy, inService_live live, descDestroyCmd, alive, slot, handleSlot]
    rfl
  have same := tableRespond_same
    (if descHeld s i then setDescSlot s i { getDescSlot s i with destroyPending := true } else dropDesc s i)
    ctx 0x04 0 [] (leBytes 4 i)
  have can : Can [.descs] (· ∈ .descs :: answerParts) := Can.sub (Can.all _) (by decide)
  refine ⟨_, e, tableRespond_answers _ live.2 .., fun held => ?_, fun free => ?_, ?_⟩
  · rw [if_pos ((descHeld_iff s i).2 held)] at same ⊢
    exact descSet_of s _ i _ (same.field .descs (by decide))
  · rw [if_neg (mt (descHeld_iff s i).1 free)] at same ⊢
    exact descSet_of s _ i _ (same.field .descs (by decide))
  · refine Keeps.sameBut (Keeps.trans ?_ (same.mono (m := .descs :: answerParts)))
    split
    · exact setDescSlot_keeps (.refl s) i _ can
    · exact setDescSlot_keeps (.refl s) i _ can

theorem descriptorDestroyed_does {s : State} {ctx : CmdCtx} (live : LiveCmd ctx s) (i : Nat) :
    ∃ t, exec (.descriptorDestroyed i) s = .next t ∧
      (((getDescSlot s i).destroyPending = true ∧ ¬ HeldByGraph s i) →
        DescSet i { gen := (getDescSlot s i).gen } s t ∧ SameBut [.descs, .jnl] s t) ∧
      (¬ ((getDescSlot s i).destroyPending = true ∧ ¬ HeldByGraph s i) → t = s) := by
  have due : ((getDescSlot s i).destroyPending && !descHeld s i) = true ↔
      (getDescSlot s i).destroyPending = true ∧ ¬ HeldByGraph s i := by
    rw [Bool.and_eq_true, Bool.not_eq_true', ← descHeld_iff, Bool.not_eq_true]
  have can := Can.all [Part.descs, .jnl]
  refine ⟨destroyPendingDesc s i, by simp only [exec, execDescriptorDestroyed, inService_live live], fun h => ?_, fun h => ?_⟩
  · rw [destroyPendingDesc, if_pos (due.2 h)]
    exact ⟨descSet_of s _ i _ rfl, (logTable_keeps (setDescSlot_keeps (.refl s) i _ (Can.sub can (by decide))) 4).sameBut⟩
  · rw [destroyPendingDesc, if_neg (mt due.1 h)]

/-- Settles O9: the status of a record is its first failing check, a sound one takes the lowest free slot, and a destroy takes
effect once no loaded graph names the slot. -/
theorem descriptors : Obligations.Descriptors := by
  unfold Obligations.Descriptors
  intro s ctx live
  refine ⟨fun record len => ?_, fun handle i => descDestroy_answers live, descriptorDestroyed_does live⟩
  rw [← descStatus_first]
  refine ⟨fun bad => ?_, fun sound room i low => descCreate_takes live len sound room low⟩
  by_cases sound : descStatus s record = 0
  · have full := bad.resolve_left (Classical.not_not.2 sound)
    exact descCreate_fails live len (by rw [if_pos sound]; decide) (by rw [if_pos ⟨sound, full⟩, if_pos sound])
  · exact descCreate_fails live len (by rw [if_neg sound]; exact sound) (by rw [if_neg (fun h => sound h.1), if_neg sound])

end Sys2Proof.Safety

end

section
/-! PUT and GET, and the commands of a lot that fail (R245, R248, R249, R350). -/

-- one theorem after the other: proofs side by side would need more memory than the check allows
set_option Elab.async false

namespace Sys2Proof.Safety

open Sys2Proof.Machine

/-! ## Writes and reads of DRAM -/

/-- A write to DRAM touches no register and no core, as one into a core's window may. -/
theorem writeModule_dram_keeps {s : State} {a : Addr} (h : InDram a) (bs : List Byte) :
    Keeps (· ∈ [.mem, .voids, .dep, .assays]) s (writeModule s a bs) := by
  obtain ⟨m, o, place⟩ := h
  have can := Can.all [Part.mem, .voids, .dep, .assays]
  rw [writeModule, place]
  refine staleAssays_keeps (revalidate_keeps ?_ ..) ..
  exact (Keeps.refl s).of rfl (fun i => { i with mem := storeBytes_wf _ _ i.mem }) (fixed_refl _)

theorem staleAssays_marks {s : State} {a : Addr} {n : Nat} {x : AssayTable} (hx : x ∈ (staleAssays s a n).assays)
    (hit : ∃ r ∈ x.ranges, overlap a n r.1 r.2 = true) : x.stale = true := by
  unfold staleAssays at hx
  dsimp only at hx
  split at hx
  · obtain ⟨y, hy, rfl⟩ := List.mem_map.1 hx
    by_cases reached : (y.ranges.any fun r => overlap a n r.1 r.2) = true
    · rw [if_pos reached]
    · rw [if_neg reached] at hit
      exact absurd (List.any_eq_true.2 hit) reached
  · rename_i none_
    exact absurd (List.any_eq_true.2 ⟨x, hx, List.any_eq_true.2 hit⟩) none_

theorem writeModule_dram_stale {s : State} {a : Addr} (h : InDram a) (bs : List Byte) :
    ∀ x ∈ (writeModule s a bs).assays, (∃ r ∈ x.ranges, overlap a bs.length r.1 r.2 = true) → x.stale = true := by
  obtain ⟨m, o, place⟩ := h
  intro x hx
  rw [writeModule, place] at hx
  exact staleAssays_marks hx

theorem readModule_dram {s : State} {a : Addr} (h : InDram a) (n : Nat) : readModule s a n = loadBytes s.mem a n := by
  obtain ⟨m, o, place⟩ := h
  rw [readModule, place]

theorem loadBytes_getElem (m : List Host.Cell) (a n k : Nat) (h : k < (loadBytes m a n).length) :
    (loadBytes m a n)[k] = loadByte m (a + k) := by
  simp only [loadBytes, List.getElem_map, List.getElem_range]

/-- Bytes stored are there, and no other byte has changed. -/
theorem stored_bytes {s t : State} {a : Addr} {bs : List Byte} (h : t.mem = storeBytes s.mem a bs) :
    (∀ k (hk : k < bs.length), loadByte t.mem (a + k) = bs[k]) ∧ BytesBut a bs.length s t := by
  refine ⟨fun k hk => ?_, fun x hx => ?_⟩ <;> rw [h]
  · exact loadByte_storeBytes_self s.mem a bs k hk
  · exact loadByte_storeBytes_other s.mem a x bs hx

/-! ## PUT and GET -/

theorem put_next {s : State} {ctx : CmdCtx} (live : LiveCmd ctx s) (addr : Addr) (data : List Byte) :
    exec (.put ctx addr data) s = .next (putCmd s ctx addr data) := by
  simp only [exec, execPut, inService_live live]

theorem get_next {s : State} {ctx : CmdCtx} (live : LiveCmd ctx s) (addr : Addr) (n : Nat) :
    exec (.get ctx addr n) s = .next (getCmd s ctx addr n) := by
  simp only [exec, execGet, inService_live live]

theorem put_answers {s : State} {ctx : CmdCtx} (live : LiveCmd ctx s) {addr : Addr} {data : List Byte} (h0 : 0 < data.length)
    (hmax : data.length ≤ 65536) (inLive : InLive s addr data.length) (homed : ¬ TouchesUnhomed s addr data.length)
    (dram : InDram addr) :
    ∃ t, exec (.put ctx addr data) s = .next t ∧ Answered ctx 0x05 0 [] t ∧
      (∀ k (h : k < data.length), loadByte t.mem (addr + k) = data[k]) ∧ BytesBut addr data.length s t ∧
      t.dep.allocs = s.dep.allocs ∧ t.regs = s.regs ∧ t.cores = s.cores ∧
      ∀ x ∈ t.assays, (∃ r ∈ x.ranges, overlap addr data.length r.1 r.2 = true) → x.stale = true := by
  have good : ¬ ((!inAllocation s addr data.length || touchesUnhomed s addr data.length) = true) := fun h =>
    ((badPut_iff s addr data.length).1 h).elim (absurd inLive) homed
  have e : putCmd s ctx addr data = respond (writeModule s addr data) ctx 0x05 0 [] := by
    rw [putCmd, if_neg (by omega), if_neg good]
  have written := writeModule_dram_keeps (s := s) dram data
  have same := respondWith_same (writeModule s addr data) ctx 0x05 0 [] []
  have mem : (respond (writeModule s addr data) ctx 0x05 0 []).mem = storeBytes s.mem addr data :=
    (same.field .mem (by decide)).trans (writeModule_dram dram).2
  have assays : (respond (writeModule s addr data) ctx 0x05 0 []).assays = (writeModule s addr data).assays :=
    same.field .assays (by decide)
  obtain ⟨there, others⟩ := stored_bytes mem
  refine ⟨_, by rw [put_next live, e], respond_answers _ live.2 .., there, others,
    (same.field .allocs (by decide)).trans (written.field .allocs (by decide)),
    (same.field .regs (by decide)).trans (written.field .regs (by decide)),
    (same.field .cores (by decide)).trans (written.field .cores (by decide)), ?_⟩
  rw [assays]
  exact writeModule_dram_stale dram data

theorem get_answers {s : State} {ctx : CmdCtx} (live : LiveCmd ctx s) {addr : Addr} {n : Nat} (h0 : 0 < n) (hmax : n ≤ 65536)
    (inLive : InLive s addr n) (sound : ¬ TouchesVoid s addr n) (dram : InDram addr) :
    ∃ t bs, exec (.get ctx addr n) s = .next t ∧ Answered ctx 0x06 0 bs t ∧ bs.length = n ∧
      (∀ k (h : k < bs.length), bs[k] = loadByte s.mem (addr + k)) ∧ SameBut answerParts s t := by
  have good : ¬ ((!inAllocation s addr n || touchesVoid s addr n) = true) := fun h =>
    ((badGet_iff s addr n).1 h).elim (absurd inLive) sound
  have e : getCmd s ctx addr n = respond s ctx 0x06 0 (loadBytes s.mem addr n) := by
    rw [getCmd, if_neg (by omega), if_neg good, readModule_dram dram]
  exact ⟨_, loadBytes s.mem addr n, by rw [get_next live, e], respond_answers s live.2 .., loadBytes_length ..,
    fun k => loadBytes_getElem s.mem addr n k, (respondWith_same ..).sameBut⟩

/-! ## Commands that fail -/

theorem graphLoad_next {s : State} {ctx : CmdCtx} (live : LiveCmd ctx s) (addr : Addr) (n : Nat) :
    exec (.graphLoad ctx addr n) s = .next (graphLoadCmd s ctx addr n) := by
  simp only [exec, execGraphLoad, inService_live live]

theorem graphUnload_next {s : State} {ctx : CmdCtx} (live : LiveCmd ctx s) (handle : Word) :
    exec (.graphUnload ctx handle) s = .next (graphUnloadCmd s ctx handle.toNat) := by
  simp only [exec, execGraphUnload, inService_live live]

theorem run_next {s : State} {ctx : CmdCtx} (live : LiveCmd ctx s) (handle job : Word) (record : Addr) :
    exec (.run ctx handle job record) s = .next (runCmd s ctx handle.toNat job record) := by
  simp only [exec, execRun, inService_live live]

theorem cancel_next {s : State} {ctx : CmdCtx} (live : LiveCmd ctx s) (job : Word) :
    exec (.cancel ctx job) s = .next (cancelCmd s ctx job) := by
  simp only [exec, execCancel, inService_live live]

theorem alloc_badSeam {s : State} {ctx : CmdCtx} (live : LiveCmd ctx s) {seam : Byte} (h : 15 < seam.toNat) (size : Nat) :
    Fails (.alloc ctx seam size) ctx 0x01 0x0302 s :=
  fails_of live (by rw [allocCmd_next live, allocCmd, if_pos h])

theorem alloc_badSize {s : State} {ctx : CmdCtx} (live : LiveCmd ctx s) {seam : Byte} {size : Nat} (hseam : seam.toNat ≤ 15)
    (h : size = 0 ∨ Config.hostBytes seam.toNat < size) : Fails (.alloc ctx seam size) ctx 0x01 0x0303 s :=
  fails_of live (by rw [allocCmd_next live, allocCmd, if_neg (by omega), if_pos h])

theorem descCreate_badLength {s : State} {ctx : CmdCtx} (live : LiveCmd ctx s) {record : List Byte} (h : record.length ≠ 160) :
    Fails (.descCreate ctx record) ctx 0x03 0x0401 s :=
  fails_of live (by rw [descCreate_next live, descCreateCmd, if_pos h])

theorem descDestroy_dead {s : State} {ctx : CmdCtx} (live : LiveCmd ctx s) {handle : Word} (h : DeadDesc s handle.toNat) :
    Fails (.descDestroy ctx handle) ctx 0x04 0x0402 s := by
  have dead : liveHandle s handle.toNat = false :=
    Bool.eq_false_iff.2 fun e => ((liveHandle_iff s handle.toNat).1 e).elim h
  exact fails_of live (by simp only [exec, execDescDestroy, inService_live live, descDestroyCmd, dead]; rfl)

theorem put_badLength {s : State} {ctx : CmdCtx} (live : LiveCmd ctx s) {addr : Addr} {data : List Byte}
    (h : data.length = 0 ∨ 65536 < data.length) : Fails (.put ctx addr data) ctx 0x05 0x0401 s :=
  fails_of live (by rw [put_next live, putCmd, if_pos h])

theorem put_badRange {s : State} {ctx : CmdCtx} (live : LiveCmd ctx s) {addr : Addr} {data : List Byte} (h0 : 0 < data.length)
    (hmax : data.length ≤ 65536) (h : ¬ InLive s addr data.length ∨ TouchesUnhomed s addr data.length) :
    Fails (.put ctx addr data) ctx 0x05 0x0301 s :=
  fails_of live (by rw [put_next live, putCmd, if_neg (by omega), if_pos ((badPut_iff ..).2 h)])

theorem get_badLength {s : State} {ctx : CmdCtx} (live : LiveCmd ctx s) {addr : Addr} {n : Nat} (h : n = 0 ∨ 65536 < n) :
    Fails (.get ctx addr n) ctx 0x06 0x0303 s :=
  fails_of live (by rw [get_next live, getCmd, if_pos h])

theorem get_badRange {s : State} {ctx : CmdCtx} (live : LiveCmd ctx s) {addr : Addr} {n : Nat} (h0 : 0 < n) (hmax : n ≤ 65536)
    (h : ¬ InLive s addr n ∨ TouchesVoid s addr n) : Fails (.get ctx addr n) ctx 0x06 0x0301 s :=
  fails_of live (by rw [get_next live, getCmd, if_neg (by omega), if_pos ((badGet_iff ..).2 h)])

theorem graphLoad_empty {s : State} {ctx : CmdCtx} (live : LiveCmd ctx s) (addr : Addr) :
    Fails (.graphLoad ctx addr 0) ctx 0x07 0x0303 s :=
  fails_of live (by rw [graphLoad_next live, graphLoadCmd, if_pos rfl])

theorem graphLoad_badRange {s : State} {ctx : CmdCtx} (live : LiveCmd ctx s) {addr : Addr} {n : Nat} (h0 : 0 < n)
    (h : ¬ InLive s addr n ∨ TouchesVoid s addr n) : Fails (.graphLoad ctx addr n) ctx 0x07 0x0301 s :=
  fails_of live (by rw [graphLoad_next live, graphLoadCmd, if_neg (by omega), if_pos ((badGet_iff ..).2 h)])

theorem liveGraph_none {s : State} {handle : Nat} (h : ∀ i, ¬ NamesGraph s handle i) : liveGraph s handle = false :=
  Bool.eq_false_iff.2 fun e => ((liveGraph_iff s handle).1 e).elim h

theorem graphUnload_dead {s : State} {ctx : CmdCtx} (live : LiveCmd ctx s) {handle : Word}
    (h : ∀ i, ¬ NamesGraph s handle.toNat i) : Fails (.graphUnload ctx handle) ctx 0x08 0x0402 s :=
  fails_of live (by rw [graphUnload_next live, graphUnloadCmd, liveGraph_none h]; rfl)

theorem run_dead {s : State} {ctx : CmdCtx} (live : LiveCmd ctx s) {handle : Word} (h : ∀ i, ¬ NamesGraph s handle.toNat i)
    (job : Word) (record : Addr) : Fails (.run ctx handle job record) ctx 0x09 0x0402 s := by
  refine fails_of live ?_
  rw [run_next live, runCmd]
  dsimp only
  split
  · rfl
  · rw [liveGraph_none h]
    rfl

theorem run_badRecord {s : State} {ctx : CmdCtx} (live : LiveCmd ctx s) {handle : Word} {job : Word} {record : Addr} {i : Nat}
    {g : Image} (names : NamesGraph s handle.toNat i) (held : (getGraphSlot s i).live = some g) (h0 : record ≠ 0)
    (h : ¬ InLive s record (128 + 64 * g.nodes.length)) : Fails (.run ctx handle job record) ctx 0x09 0x0301 s := by
  have alive := (liveGraph_iff s handle.toNat).2 ⟨i, names⟩
  have slot : handleSlot handle.toNat = i := names.1.symm
  have outside : inAllocation s record (128 + 64 * g.nodes.length) = false :=
    Bool.eq_false_iff.2 (mt (inAllocation_iff ..).1 h)
  refine fails_of live ?_
  rw [run_next live, runCmd, slot, held]
  dsimp only
  rw [alive, if_neg (by decide), if_pos ⟨h0, outside⟩]

theorem cancel_unknown {s : State} {ctx : CmdCtx} (live : LiveCmd ctx s) {job : Word} (h : ∀ j ∈ s.dep.jobs, j.jobId ≠ job) :
    Fails (.cancel ctx job) ctx 0x0A 0x0403 s := by
  have none_ : s.dep.jobs.filter (·.jobId == job) = [] :=
    List.filter_eq_nil_iff.2 fun j hj => by simpa using h j hj
  exact fails_of live (by rw [cancel_next live, cancelCmd, none_]; rfl)

theorem inService_out {s : State} (h : s.dep.out = true) (t : State) : inService s t = s :=
  if_pos h

/-- Out of service no command of a lot does anything (R350). -/
theorem lot_outOfService (s : State) (ctx : CmdCtx) (seam : Byte) (size : Nat) (base : Addr) (record : List Byte)
    (handle job : Word) (addr : Addr) (data : List Byte) (n : Nat) :
    ∀ i ∈ [Instr.alloc ctx seam size, .free ctx base, .descCreate ctx record, .descDestroy ctx handle, .put ctx addr data,
        .get ctx addr n, .graphLoad ctx addr n, .graphUnload ctx handle, .run ctx handle job addr, .cancel ctx job],
      ∀ d : Deputy, d.out = true → exec i { s with dep := d } = .next { s with dep := d } := by
  intro i hi d out
  have still : ∀ t, inService { s with dep := d } t = { s with dep := d } := inService_out out
  simp only [List.mem_cons, List.not_mem_nil, or_false] at hi
  rcases hi with rfl | rfl | rfl | rfl | rfl | rfl | rfl | rfl | rfl | rfl <;> exact congrArg _ (still _)

/-- Settles O10: each check of a lot command answers its code, and PUT and GET move the bytes of a range that passes them. -/
theorem lotData : Obligations.LotData := by
  unfold Obligations.LotData
  refine ⟨fun s ctx live => ⟨fun seam size h => alloc_badSeam live h size, fun seam size => alloc_badSize live,
    fun record => descCreate_badLength live, fun handle => descDestroy_dead live, fun addr data => put_badLength live,
    fun addr data => put_badRange live, fun addr n => get_badLength live, fun addr n => get_badRange live,
    graphLoad_empty live, fun addr n => graphLoad_badRange live,
    fun handle h => ⟨graphUnload_dead live h, fun job record => run_dead live h job record⟩,
    fun handle job record i g names held => run_badRecord live names held, fun job => cancel_unknown live,
    fun seam size base record handle job addr data n => lot_outOfService s ctx seam size base record handle job addr data n⟩,
    fun s ctx live => ⟨fun addr data => put_answers live, fun addr n => get_answers live⟩⟩

end Sys2Proof.Safety

end

section
/-! RUN, CANCEL, GRAPH_LOAD and GRAPH_UNLOAD (R140, R246, R249, R252, R276). -/

-- one theorem after the other: proofs side by side would need more memory than the check allows
set_option Elab.async false

namespace Sys2Proof.Safety

open Sys2Proof.Machine

/-! ## RUN -/

theorem sameCmd_other {a b : CmdCtx} (h : OtherCmd a b) : sameCmd a b.session.val b.lsn b.index = false := by
  refine Bool.eq_false_iff.2 fun e => h ?_
  simp only [sameCmd, Bool.and_eq_true, beq_iff_eq] at e
  obtain ⟨⟨session, lsn⟩, index⟩ := e
  exact ⟨Fin.ext session, lsn, index⟩

theorem runCmd_queues {s : State} {ctx : CmdCtx} {handle : Nat} {id : Word} {record : Addr} {i : Nat} {g : Image}
    (names : NamesGraph s handle i) (held : (getGraphSlot s i).live = some g)
    (place : record = 0 ∨ InLive s record (128 + 64 * g.nodes.length)) (fresh : ∀ j ∈ s.dep.jobs, OtherCmd j.ctx ctx) :
    runCmd s ctx handle id record = { s with dep := { s.dep with
      jobs := s.dep.jobs ++ [⟨s.dep.nextJob, ctx, id, i, handleGen handle, record, .queued, 0, none, [], []⟩]
      nextJob := s.dep.nextJob + 1 } } := by
  have alive := (liveGraph_iff s handle).2 ⟨i, names⟩
  have slot : handleSlot handle = i := names.1.symm
  have inside : ¬ (record ≠ 0 ∧ inAllocation s record (128 + 64 * g.nodes.length) = false) := fun h =>
    absurd ((inAllocation_iff ..).2 (place.resolve_left h.1)) (by rw [h.2]; decide)
  have noneSame : s.dep.jobs.find? (fun j => sameCmd j.ctx ctx.session.val ctx.lsn ctx.index) = none :=
    List.find?_eq_none.2 fun j hj => by rw [sameCmd_other (fresh j hj)]; decide
  have allKept : s.dep.jobs.filter (fun j => !sameCmd j.ctx ctx.session.val ctx.lsn ctx.index) = s.dep.jobs :=
    List.filter_eq_self.2 fun j hj => by rw [sameCmd_other (fresh j hj)]; rfl
  rw [runCmd, slot, held]
  dsimp only
  rw [alive, if_neg (by decide), if_neg inside, noneSame, allKept]
  simp

theorem run_queues {s : State} {ctx : CmdCtx} (live : LiveCmd ctx s) {handle id : Word} {record : Addr} {i : Nat} {g : Image}
    (names : NamesGraph s handle.toNat i) (held : (getGraphSlot s i).live = some g)
    (place : record = 0 ∨ InLive s record (128 + 64 * g.nodes.length)) (fresh : ∀ j ∈ s.dep.jobs, OtherCmd j.ctx ctx) :
    ∃ t, exec (.run ctx handle id record) s = .next t ∧
      t.dep.jobs = s.dep.jobs ++ [⟨s.dep.nextJob, ctx, id, i, handleGen handle.toNat, record, .queued, 0, none, [], []⟩] ∧
      t.dep.nextJob = s.dep.nextJob + 1 ∧ SameBut [.jobs, .dep] s t := by
  have can := Can.all [Part.jobs, .dep]
  exact ⟨_, by rw [run_next live, runCmd_queues names held place fresh], rfl, rfl, ((Keeps.refl s).upd rfl rfl rfl).sameBut⟩

/-! ## CANCEL -/

theorem cancelCmd_single {s : State} {ctx : CmdCtx} {id : Word} {j : Job} (h : s.dep.jobs.filter (·.jobId == id) = [j]) :
    cancelCmd s ctx id = waitFor (stopJob s j.key 1) ctx 0x0A [j.key] none := by
  rw [cancelCmd, h]
  rfl

theorem onlyJob_mem {s : State} {id : Word} {j : Job} (h : OnlyJob s id j) : j ∈ s.dep.jobs :=
  (List.mem_filter.1 (h.1 ▸ List.mem_singleton_self j)).1

theorem getJob_removed {s t : State} {key : Nat} (h : t.dep.jobs = s.dep.jobs.filter (·.key != key)) : getJob t key = none := by
  rw [getJob, h]
  exact List.find?_eq_none.2 fun x hx e => by simp_all

/-- The end of a job that nothing holds, with its record and the answer to its RUN. -/
theorem stopJob_ends {s : State} {id : Word} {j : Job} (only : OnlyJob s id j) (waits : s.dep.waits = [])
    (hi : j.ctx.index < 2 ^ 32) (none_ : jobSlots s j.key = []) (dram : j.record = 0 ∨ InDram j.record) :
    ∃ bs, RecordIs j 1 bs ∧ Answered j.ctx 0x09 0 bs (stopJob s j.key 1) ∧
      (stopJob s j.key 1).dep.jobs = s.dep.jobs.filter (·.key != j.key) ∧ (stopJob s j.key 1).dep.waits = [] ∧
      (j.record ≠ 0 → (stopJob s j.key 1).mem = storeBytes s.mem j.record bs) ∧
      (j.record = 0 → (stopJob s j.key 1).mem = s.mem) := by
  have unstarted : (jobSlots s j.key).filter (fun t => !(getSlot s t).started) = [] := by rw [none_]; rfl
  obtain ⟨kept, jobs, slots⟩ := stopState_keeps (status := 1) unstarted
  have got := stopState_get (status := 1) (onlyJob_mem only) only.2 unstarted
  have e : stopJob s j.key 1 = endJob (stopState s j.key 1) j.key 1 := by
    rw [stopJob_eq, if_pos (slots.trans none_)]
  have noWaits : (stopState s j.key 1).dep.waits = [] := (kept.field .waits (by decide)).trans waits
  have mem : (stopState s j.key 1).mem = s.mem := kept.field .mem (by decide)
  obtain ⟨bs, record, answered, left, waitsLeft, written, unwritten⟩ :=
    endJob_of (j := endingJob j 1) got noWaits hi dram 1 (by decide)
  rw [e]
  refine ⟨bs, ⟨record.jobId, record.handle, record.status, record.accepted⟩, answered, ?_, waitsLeft, ?_, ?_⟩
  · rw [← filter_ending s.dep.jobs j.key 1, ← jobs]
    exact left
  · rw [← mem]
    exact written
  · rw [← mem]
    exact unwritten

/-- CANCEL of a job none of whose tasks is resident. -/
theorem cancel_ends {s : State} {ctx : CmdCtx} (live : LiveCmd ctx s) {id : Word} {j : Job} (only : OnlyJob s id j)
    (waits : s.dep.waits = []) (other : OtherCmd j.ctx ctx) (hi : j.ctx.index < 2 ^ 32) (none_ : jobSlots s j.key = [])
    (dram : j.record = 0 ∨ InDram j.record) :
    ∃ t bs, exec (.cancel ctx id) s = .next t ∧ t.dep.jobs = s.dep.jobs.filter (·.key != j.key) ∧ t.dep.waits = [] ∧
      Answered ctx 0x0A 0 [] t ∧ Answered j.ctx 0x09 0 bs t ∧ RecordIs j 1 bs ∧
      (j.record ≠ 0 → ∀ k (h : k < bs.length), loadByte t.mem (j.record + k) = bs[k]) ∧
      (j.record = 0 → t.mem = s.mem) ∧ (j.record ≠ 0 → BytesBut j.record bs.length s t) := by
  obtain ⟨bs, record, answered, left, waitsLeft, written, unwritten⟩ := stopJob_ends only waits hi none_ dram
  have e : cancelCmd s ctx id = respond (stopJob s j.key 1) ctx 0x0A 0 [] := by
    rw [cancelCmd_single only.1]
    refine waitFor_done waitsLeft fun k hk => ?_
    rw [List.mem_singleton.1 hk]
    exact getJob_removed left
  have same := respondWith_same (stopJob s j.key 1) ctx 0x0A 0 [] []
  have mem : (respond (stopJob s j.key 1) ctx 0x0A 0 []).mem = (stopJob s j.key 1).mem := same.field .mem (by decide)
  exact ⟨respond (stopJob s j.key 1) ctx 0x0A 0 [], bs, by rw [cancel_next live, e], (same.field .jobs (by decide)).trans left,
    (same.field .waits (by decide)).trans waitsLeft, respond_answers _ live.2 .., answered_other answered other .., record,
    fun h => (stored_bytes (mem.trans (written h))).1, fun h => mem.trans (unwritten h),
    fun h => (stored_bytes (mem.trans (written h))).2⟩

/-- A wait for a job that is still there. -/
theorem waitFor_waits {s : State} {ctx : CmdCtx} {op key : Nat} {j : Job} (h : getJob s key = some j) :
    waitFor s ctx op [key] none = { s with dep := { s.dep with waits := s.dep.waits ++ [⟨ctx, op, [key], none⟩] } } := by
  have held : ∀ w : List Wait, getJob { s with dep := { s.dep with waits := w } } key = some j := fun _ => h
  simp only [waitFor, finishWait, List.all_cons, held, Option.isNone_some, Bool.false_and, Bool.false_eq_true, if_false]

/-- CANCEL of a job all of whose resident tasks have started. -/
theorem cancel_marks {s : State} {ctx : CmdCtx} (live : LiveCmd ctx s) {id : Word} {j : Job} (only : OnlyJob s id j)
    (waits : s.dep.waits = []) (some_ : jobSlots s j.key ≠ []) (started : ∀ u ∈ jobSlots s j.key, (getSlot s u).started = true) :
    ∃ t, exec (.cancel ctx id) s = .next t ∧
      t.dep.jobs = s.dep.jobs.map (fun x => if x.key = j.key then { x with ending := some (x.ending.getD 1) } else x) ∧
      t.dep.waits = [{ ctx := ctx, opcode := 0x0A, jobs := [j.key], graph := none }] ∧
      SameBut [.jobs, .waits, .counters] s t := by
  have unstarted : (jobSlots s j.key).filter (fun t => !(getSlot s t).started) = [] :=
    List.filter_eq_nil_iff.2 fun u hu => by rw [started u hu]; decide
  obtain ⟨kept, jobs, slots⟩ := stopState_keeps (status := 1) unstarted
  have got := stopState_get (status := 1) (onlyJob_mem only) only.2 unstarted
  have e : stopJob s j.key 1 = stopState s j.key 1 := by rw [stopJob_eq, if_neg (slots ▸ some_)]
  have noWaits : (stopState s j.key 1).dep.waits = [] := (kept.field .waits (by decide)).trans waits
  have can := Can.all [Part.jobs, .waits, .counters]
  refine ⟨waitFor (stopState s j.key 1) ctx 0x0A [j.key] none, by rw [cancel_next live, cancelCmd_single only.1, e], ?_⟩
  rw [waitFor_waits got]
  refine ⟨jobs, ?_, ?_⟩
  · dsimp only
    rw [noWaits]
    rfl
  · exact ((kept.mono (m := [.jobs, .waits, .counters])).upd rfl rfl rfl).sameBut

/-- Settles O11: RUN appends its job; CANCEL ends a job that nothing holds, and marks one that runs on. -/
theorem runAndCancel : Obligations.RunAndCancel := by
  unfold Obligations.RunAndCancel
  exact fun s ctx live => ⟨fun handle id record i g names held place fresh => run_queues live names held place fresh,
    fun id j only waits other hi => ⟨fun none_ dram _ => cancel_ends live only waits other hi none_ dram,
      fun some_ started => cancel_marks live only waits some_ started⟩⟩

/-! ## GRAPH_LOAD -/

/-- An image in a range that may be read is judged by its first failing check, then by the room of the table. -/
theorem graphLoadCmd_reads {s : State} {ctx : CmdCtx} {addr : Addr} {n : Nat} (h0 : 0 < n) (inLive : InLive s addr n)
    (sound : ¬ TouchesVoid s addr n) (dram : InDram addr) :
    let b := loadBytes s.mem addr n
    graphLoadCmd s ctx addr n =
      if loadStatus s b ≠ 0 then failCmd s ctx 0x07 (0x0200 + loadStatus s b)
      else if Config.graphSlots ≤ (usedGraphs s).length || tableFull s n then failCmd s ctx 0x07 0x0207
      else
        match lowestFree (usedGraphs s) Config.graphSlots with
        | none => failCmd s ctx 0x07 0x0207
        | some i =>
          let g := (parseImage b).1
          let gen := nextGen (getGraphSlot s i).gen
          tableRespond (placeGraph (setGraphSlot s i { gen := gen, live := some g, raw := b }) i g) ctx 0x07 0
            (leBytes 4 (handleOf i gen)) (leBytes 4 i ++ leBytes 4 gen ++ b) := by
  have good : ¬ ((!inAllocation s addr n || touchesVoid s addr n) = true) := fun h =>
    ((badGet_iff s addr n).1 h).elim (absurd inLive) sound
  intro b
  rw [graphLoadCmd, if_neg (by omega), if_neg good, readModule_dram dram] <;> rfl

theorem graphFull_iff (s : State) (n : Nat) :
    (Config.graphSlots ≤ (usedGraphs s).length || tableFull s n) = true ↔
      Config.graphSlots ≤ (usedGraphs s).length ∨ tableFull s n = true := by
  rw [Bool.or_eq_true, decide_eq_true_eq]

/-- A slot of the graph table filled. -/
theorem setGraphSlot_held (s : State) (i gen : Nat) (g : Image) (raw : List Byte) :
    GraphHeld i gen g raw s (setGraphSlot s i { gen := gen, live := some g, raw := raw }) := by
  have self := getGraphSlot_set s i i { gen := gen, live := some g, raw := raw }
  rw [if_pos rfl] at self
  exact ⟨by rw [self], by rw [self], by rw [self], by rw [self], fun j hj => by rw [getGraphSlot_set, if_neg hj]⟩

theorem getStage_congr {s t : State} (h : t.dep.stages = s.dep.stages) (i k : Nat) : getStage t i k = getStage s i k := by
  simp only [getStage, h]

theorem graphLoad_takes {s : State} {ctx : CmdCtx} (live : LiveCmd ctx s) {addr : Addr} {n : Nat} (h0 : 0 < n)
    (inLive : InLive s addr n) (sound : ¬ TouchesVoid s addr n) (dram : InDram addr)
    (passes : loadStatus s (loadBytes s.mem addr n) = 0)
    (room : ¬ (Config.graphSlots ≤ (usedGraphs s).length ∨ tableFull s n = true)) {i : Nat}
    (low : LowestFree (usedGraphs s) Config.graphSlots i) :
    let b := loadBytes s.mem addr n
    let g := nextGen (getGraphSlot s i).gen
    ∃ t, exec (.graphLoad ctx addr n) s = .next t ∧ Answered ctx 0x07 0 (leBytes 4 (handleOf i g)) t ∧
      GraphHeld i g (parseImage b).1 b s t ∧
      (∀ k, k < (parseImage b).1.nodes.length → getStage t i k = { threshold := s.pwr.config.aditThreshold }) ∧
      t.dep.jobs = s.dep.jobs ∧ t.dep.descs = s.dep.descs ∧ t.dep.allocs = s.dep.allocs := by
  intro b g
  obtain ⟨filled, hfilled⟩ : ∃ x, x = setGraphSlot s i { gen := g, live := some (parseImage b).1, raw := b } := ⟨_, rfl⟩
  obtain ⟨placed, hplaced⟩ : ∃ x, x = placeGraph filled i (parseImage b).1 := ⟨_, rfl⟩
  have e : graphLoadCmd s ctx addr n = tableRespond placed ctx 0x07 0 (leBytes 4 (handleOf i g))
      (leBytes 4 i ++ leBytes 4 g ++ b) := by
    rw [graphLoadCmd_reads h0 inLive sound dram, if_neg (Classical.not_not.2 passes), if_neg (mt (graphFull_iff s n).1 room),
      lowestFree_some low, hplaced, hfilled]
  have held : GraphHeld i g (parseImage b).1 b s filled := hfilled ▸ setGraphSlot_held s i g (parseImage b).1 b
  obtain ⟨heldPlaced, stages⟩ := placeGraph_held held
  have can : Can [.freeCount, .mem, .regs, .graphs, .stages, .voids, .dep, .txQueue, .outs, .cores, .assays, .chutes]
      (· ∈ [Part.freeCount, .mem, .regs, .graphs, .stages, .voids, .dep, .txQueue, .outs, .cores, .assays, .chutes]) := Can.all _
  have same := tableRespond_same placed ctx 0x07 0 (leBytes 4 (handleOf i g)) (leBytes 4 i ++ leBytes 4 g ++ b)
  have kept : Keeps (· ∈ [.freeCount, .mem, .regs, .graphs, .stages, .voids, .dep, .txQueue, .outs, .cores, .assays,
      .chutes]) s placed := by
    rw [hplaced, hfilled]
    exact placeGraph_keeps (setGraphSlot_keeps (.refl s) ..) ..
  rw [← hplaced] at heldPlaced stages
  refine ⟨_, by rw [graphLoad_next live, e], tableRespond_answers _ live.2 .., graphHeld_congr heldPlaced
    (same.field .graphs (by decide)), fun k hk => ?_, (same.field .jobs (by decide)).trans (kept.field .jobs (by decide)),
    (same.field .descs (by decide)).trans (kept.field .descs (by decide)),
    (same.field .allocs (by decide)).trans (kept.field .allocs (by decide))⟩
  rw [getStage_congr (same.field .stages (by decide)), stages k hk, hfilled]
  rfl

/-! ## GRAPH_UNLOAD -/

/-- A slot of the graph table marked names no chute that it did not name before. -/
theorem allChutes_marked {s : State} {i : Nat} (h : ∀ r ∈ allChutes s, r.1 ≠ i) (x : GraphSlot)
    (hx : x.chutes = (getGraphSlot s i).chutes) : ∀ r ∈ allChutes (setGraphSlot s i x), r.1 ≠ i := by
  have noChutes : (getGraphSlot s i).chutes = [] := by
    rcases tget_mem s.dep.graphs {} i with mem | default
    · refine List.eq_nil_iff_forall_not_mem.2 fun c hc => h (i, c.1) ?_ rfl
      exact List.mem_append_left _ (List.mem_flatMap.2 ⟨_, mem, List.mem_map.2 ⟨c, hc, rfl⟩⟩)
    · rw [getGraphSlot, default]
  intro r hr
  rcases List.mem_append.1 hr with inGraphs | inOuts
  · obtain ⟨e, he, hc⟩ := List.mem_flatMap.1 inGraphs
    rcases tset_mem s.dep.graphs {} i x e he with rfl | old
    · rw [hx, noChutes] at hc
      exact absurd hc (List.not_mem_nil)
    · exact h r (List.mem_append_left _ (List.mem_flatMap.2 ⟨e, old, hc⟩))
  · exact h r (List.mem_append_right _ inOuts)

theorem releaseGraph_plain {s : State} {i : Nat} (h : ∀ r ∈ allChutes s, r.1 ≠ i) :
    releaseGraph s i = { setGraphSlot s i { gen := (getGraphSlot s i).gen } with dep :=
      { (setGraphSlot s i { gen := (getGraphSlot s i).gen }).dep with
        stages := s.dep.stages.filter fun e => e.1 / 65536 != i } } := by
  have none_ : (allChutes s).filter (fun r => r.1 == i) = [] := List.filter_eq_nil_iff.2 fun r hr => by simpa using h r hr
  rw [releaseGraph, none_]
  rfl

theorem releaseGraph_plain_keeps {s : State} {i : Nat} (h : ∀ r ∈ allChutes s, r.1 ≠ i) :
    Keeps (· ∈ [.graphs, .stages]) s (releaseGraph s i) := by
  have can := Can.all [Part.graphs, .stages]
  have stagesSet : ∀ (u : State) l, Keeps (· ∈ [.graphs, .stages]) u { u with dep := { u.dep with stages := l } } :=
    fun u _ => (Keeps.refl u).upd rfl rfl rfl
  rw [releaseGraph_plain h]
  exact (setGraphSlot_keeps (.refl s) ..).trans (stagesSet _ _)

/-- The unloading of a graph that no job and no chute holds. -/
theorem graphUnloadCmd_releases {s : State} {ctx : CmdCtx} {handle i : Nat} (names : NamesGraph s handle i)
    (noJobs : ∀ j ∈ s.dep.jobs, j.graph ≠ i) (waits : s.dep.waits = []) :
    graphUnloadCmd s ctx handle = respondWith
      (logTable (releaseGraph (setGraphSlot s i { getGraphSlot s i with unloading := true }) i) 5)
      ctx 0x08 0 [] (leBytes 1 8 ++ leBytes 4 i) := by
  have alive := (liveGraph_iff s handle).2 ⟨i, names⟩
  have slot : handleSlot handle = i := names.1.symm
  have none_ : s.dep.jobs.filter (·.graph == i) = [] := List.filter_eq_nil_iff.2 fun j hj => by simpa using noJobs j hj
  have jobs : (setGraphSlot s i { getGraphSlot s i with unloading := true }).dep.jobs = s.dep.jobs := rfl
  have noWaits : (setGraphSlot s i { getGraphSlot s i with unloading := true }).dep.waits = [] := waits
  have own : [(⟨ctx, 0x08, [], some i⟩ : Wait)].filter (· != ⟨ctx, 0x08, [], some i⟩) =
      (setGraphSlot s i { getGraphSlot s i with unloading := true }).dep.waits := by
    rw [noWaits]
    simp
  rw [graphUnloadCmd, alive, if_neg (by decide)]
  dsimp only
  rw [slot, jobs, none_, List.foldl_nil, List.map_nil, waitFor, finishWait, if_pos (List.all_nil)]
  dsimp only
  rw [noWaits, List.nil_append, own]

theorem graphUnload_frees {s : State} {ctx : CmdCtx} (live : LiveCmd ctx s) {handle : Word} {i : Nat}
    (names : NamesGraph s handle.toNat i) (noJobs : ∀ j ∈ s.dep.jobs, j.graph ≠ i) (waits : s.dep.waits = [])
    (noChutes : ∀ r ∈ allChutes s, r.1 ≠ i) :
    ∃ t, exec (.graphUnload ctx handle) s = .next t ∧ Answered ctx 0x08 0 [] t ∧
      getGraphSlot t i = { gen := (getGraphSlot s i).gen } ∧ (∀ j, j ≠ i → getGraphSlot t j = getGraphSlot s j) ∧
      t.dep.stages = s.dep.stages.filter (fun e => e.1 / 65536 != i) ∧ t.dep.waits = [] ∧
      SameBut (.graphs :: .stages :: answerParts) s t := by
  obtain ⟨marked, hmarked⟩ : ∃ x, x = setGraphSlot s i { getGraphSlot s i with unloading := true } := ⟨_, rfl⟩
  obtain ⟨freed, hfreed⟩ : ∃ x, x = logTable (releaseGraph marked i) 5 := ⟨_, rfl⟩
  have unbound := allChutes_marked noChutes { getGraphSlot s i with unloading := true } rfl
  rw [← hmarked] at unbound
  have released := releaseGraph_plain unbound
  have gen : (getGraphSlot marked i).gen = (getGraphSlot s i).gen := by rw [hmarked, getGraphSlot_set, if_pos rfl]
  have slots : ∀ j, getGraphSlot freed j = if j = i then { gen := (getGraphSlot s i).gen } else getGraphSlot s j := by
    intro j
    have : getGraphSlot freed j = getGraphSlot (setGraphSlot marked i { gen := (getGraphSlot marked i).gen }) j :=
      getGraphSlot_congr (by rw [hfreed, released]; rfl) j
    rw [this, getGraphSlot_set, gen, hmarked, getGraphSlot_set]
    split <;> rfl
  have can := Can.all [Part.graphs, .stages, .jnl]
  have kept : Keeps (· ∈ [.graphs, .stages, .jnl]) s freed := by
    rw [hfreed]
    refine logTable_keeps (Keeps.trans ?_ (releaseGraph_plain_keeps unbound).mono) ..
    rw [hmarked]
    exact setGraphSlot_keeps (.refl s) ..
  have same := respondWith_same freed ctx 0x08 0 [] (leBytes 1 8 ++ leBytes 4 i)
  have graphs := getGraphSlot_congr (same.field .graphs (by decide))
  refine ⟨_, by rw [graphUnload_next live, graphUnloadCmd_releases names noJobs waits, ← hmarked, ← hfreed],
    respondWith_answers _ live.2 .., by rw [graphs, slots, if_pos rfl], fun j hj => by rw [graphs, slots, if_neg hj],
    (same.field .stages (by decide)).trans ?_, (same.field .waits (by decide)).trans ((kept.field .waits (by decide)).trans waits),
    ((kept.mono (m := .graphs :: .stages :: answerParts)).trans (same.mono (m := .graphs :: .stages :: answerParts))).sameBut⟩
  rw [hfreed, released, hmarked]
  rfl

/-- Settles O12: GRAPH_LOAD answers its first failing check or fills the lowest free slot; GRAPH_UNLOAD empties a slot that no job
and no chute holds. -/
theorem graphs : Obligations.Graphs := by
  unfold Obligations.Graphs
  refine fun s ctx live => ⟨fun addr n h0 inLive sound dram => ⟨fun bad => ?_, fun passes full => ?_,
    fun passes room i low => graphLoad_takes live h0 inLive sound dram passes room low⟩,
    fun handle i names noJobs waits noChutes => graphUnload_frees live names noJobs waits noChutes⟩
  · exact fails_of live (by rw [graphLoad_next live, graphLoadCmd_reads h0 inLive sound dram, if_pos bad])
  · exact fails_of live (by rw [graphLoad_next live, graphLoadCmd_reads h0 inLive sound dram, if_neg (Classical.not_not.2 passes),
      if_pos ((graphFull_iff s n).2 full)])

end Sys2Proof.Safety

end

section
/-! JOB_START, HELD_JOB_RESUME and JOB_COMPLETE (R246, R249, R275, R340). -/

-- one theorem after the other: proofs side by side would need more memory than the check allows
set_option Elab.async false

namespace Sys2Proof.Safety

open Sys2Proof.Machine

/-! ## JOB_START -/

theorem updJob_changes (s : State) (key : Nat) (f : Job → Job) :
    JobChanged key f s (updJob s key f) ∧ SameBut [.jobs] s (updJob s key f) :=
  ⟨rfl, (updJob_keeps (.refl s) key f (Can.all [Part.jobs])).sameBut⟩

theorem getJob_key {s : State} {key : Nat} {j : Job} (h : getJob s key = some j) : j.key = key := by
  simpa using List.find?_some h

theorem startJob_eq {s : State} {key : Nat} {j : Job} (h : getJob s key = some j) : startJob s key =
    if !s.dep.out && j.state = .queued && (s.dep.jobs.find? fun x => x.graph == j.graph).map (·.key) = some key then
      updJob s key fun j => { j with state := .running }
    else s := by
  rw [startJob, h]

theorem startJob_first {s : State} {key : Nat} {j : Job} (h : getJob s key = some j) (up : s.dep.out = false)
    (queued : j.state = .queued) (first : FirstOfGraph s j) :
    startJob s key = updJob s key fun j => { j with state := .running } := by
  obtain ⟨a, b, jobs, before⟩ := first
  have noneBefore : a.find? (fun x => x.graph == j.graph) = none :=
    List.find?_eq_none.2 fun x hx => by simpa using (before x hx).1
  have found : (s.dep.jobs.find? fun x => x.graph == j.graph) = some j := by
    rw [jobs, List.find?_append, noneBefore, Option.none_or, List.find?_cons, beq_self_eq_true]
  rw [startJob_eq h, found]
  simp [up, queued, getJob_key h]

theorem startJob_behind {s : State} {key : Nat} {j : Job} (h : getJob s key = some j)
    (behind : ∃ a b, s.dep.jobs = a ++ j :: b ∧ ∃ x ∈ a, x.graph = j.graph ∧ ∀ y ∈ a, y.key ≠ key) :
    startJob s key = s := by
  obtain ⟨a, b, jobs, x, hx, graph, keys⟩ := behind
  have earlier : (a.find? fun x => x.graph == j.graph).isSome := List.find?_isSome.2 ⟨x, hx, beq_iff_eq.2 graph⟩
  obtain ⟨y, hy⟩ := Option.isSome_iff_exists.1 earlier
  have found : (s.dep.jobs.find? fun x => x.graph == j.graph) = some y := by
    rw [jobs, List.find?_append, hy, Option.some_or]
  have other : y.key ≠ key := keys y (List.mem_of_find?_eq_some hy)
  rw [startJob_eq h, found]
  simp [other]

/-! ## HELD_JOB_RESUME -/

theorem readsValid_iff (s : State) (j : Job) : readsValid s j = true ↔ ¬ NeedsVoid s j := by
  simp only [readsValid, List.all_eq_true, Bool.or_eq_true, Bool.not_eq_true', beq_iff_eq, NeedsVoid, not_exists, not_and,
    Classical.not_not]
  refine forall₂_congr fun v _ => ?_
  cases v.void <;> simp

theorem heldJobResume_eq {s : State} {key : Nat} {j : Job} (h : getJob s key = some j) : heldJobResume s key =
    if j.state = .held ∧ j.holdCause = 1 ∧ readsValid s j = true then
      updJob s key fun j => { j with state := .running, holdCause := 0 }
    else s := by
  rw [heldJobResume, h]

/-! ## JOB_COMPLETE -/

theorem jobDone_of {s : State} {j : Job} (nodes : ∀ n ∈ jobNodes s j, NodeDone j n.1)
    (commits : ∀ b ∈ s.scatters, b.job = j.key → b.committed = true) : jobDone s j = true := by
  rw [jobDone, Bool.and_eq_true, List.all_eq_true, List.all_eq_true]
  refine ⟨fun n hn => ?_, fun b hb => ?_⟩
  · obtain ⟨started, done⟩ := nodes n hn
    exact Bool.and_eq_true_iff.2 ⟨started, beq_iff_eq.2 done⟩
  · by_cases own : b.job = j.key
    · simp [commits b hb own]
    · simp [own]

/-- A job that has done its work, or that ends with none of its tasks resident. -/
def JobOver (s : State) (key : Nat) (j : Job) (status : Nat) : Prop :=
  (j.ending = none ∧ status = 0 ∧ j.state = .running ∧ (∀ n ∈ jobNodes s j, NodeDone j n.1) ∧
      ∀ b ∈ s.scatters, b.job = key → b.committed = true) ∨
    (j.ending = some status ∧ status ≤ 2 ∧ jobSlots s key = [])

theorem completeJob_over {s : State} {key status : Nat} {j : Job} (h : getJob s key = some j) (ended : JobOver s key j status) :
    completeJob s key = drainAll (endJob s key status) ∧ status < 2 ^ 16 := by
  rw [completeJob, h]
  dsimp only
  rcases ended with ⟨going, rfl, running, nodes, commits⟩ | ⟨ending, le, none_⟩
  · have done := jobDone_of nodes (getJob_key h ▸ commits)
    rw [going]
    simp [running, done]
  · rw [ending]
    exact ⟨if_pos none_, by omega⟩

/-- Settles O13: the first queued run of a graph starts, a job held for granules resumes with the last of them, and a job that is
over ends with its record. -/
theorem jobsStartAndEnd : Obligations.JobsStartAndEnd := by
  unfold Obligations.JobsStartAndEnd
  refine ⟨fun s key j h => ⟨fun up queued first => ?_, fun behind => ?_, fun held cause sound => ?_, fun no => ?_⟩,
    fun s key j h hi dram waits apart status ended => ?_⟩
  · exact ⟨_, congrArg Host.Outcome.next (startJob_first h up queued first), updJob_changes ..⟩
  · exact congrArg Host.Outcome.next (startJob_behind h behind)
  · refine ⟨_, congrArg Host.Outcome.next ((heldJobResume_eq h).trans (if_pos ⟨held, cause, (readsValid_iff s j).2 sound⟩)), updJob_changes ..⟩
  · refine congrArg Host.Outcome.next ((heldJobResume_eq h).trans (if_neg fun ⟨held, cause, sound⟩ => ?_))
    exact no.elim (absurd held) fun no => no.elim (absurd cause) ((readsValid_iff s j).1 sound)
  · obtain ⟨done, small⟩ := completeJob_over h ended
    obtain ⟨bs, record, answered, left, waitsLeft, waitsOver, written, unwritten⟩ :=
      endJob_gives h hi dram status small waits apart
    exact ⟨_, bs, congrArg Host.Outcome.next done, record, answered, left, waitsLeft, waitsOver, unwritten, fun h => stored_bytes (written h)⟩

end Sys2Proof.Safety

end

section
/-! FETCH_AND_ADD on a work counter that lists tasks beyond its limit: what leaves the adit path draws such a task within the limit,
and no state that answers the same has every task where it belongs (R134, R139, R269). -/

-- one theorem after the other: proofs side by side would need more memory than the check allows
set_option Elab.async false

namespace Sys2Proof.Safety

open Sys2Proof.Machine

/-! ## A counter that nothing leaves -/

theorem leaveAdit_of_noneLeaves {z : State} {seam : Fin 16} {k : Nat} (h : NoneLeaves z seam k) : leaveAdit z seam k = z := by
  have stays : ((List.range (getCounter z seam.val k).limit).filterMap (counterCtx z (getCounter z seam.val k))).filter
      (mustLeave z) = [] := by
    refine List.filter_eq_nil_iff.2 fun x hx leaves => ?_
    obtain ⟨i, hi, ctx⟩ := List.mem_filterMap.1 hx
    simp only [mustLeave, Bool.and_eq_true, Bool.not_eq_true', Bool.eq_false_iff, ne_eq, List.all_eq_true] at leaves
    obtain ⟨adit, away⟩ := leaves
    exact away (h i (List.mem_range.1 hi) x ctx adit)
  rw [leaveAdit, stays]
  rfl

/-- FETCH_AND_ADD on such a counter gives nothing and changes nothing, or it leaves a trace of the requester. -/
theorem fetchAdd_of_noneLeaves {z : State} {seam : Fin 16} {k : Fin 64} {who : Requester} (h : NoneLeaves z seam k.val) :
    let t := fetchAdd z seam k who
    let c := getCounter z seam.val k.val
    t = z ∨ t.dep.rerunning ≠ [] ∨ (getCounter t seam.val k.val).received ≠ none ∨
      (Serves z c ∧ t.dep.jobs = z.dep.jobs ∧ getCounter t seam.val k.val = { c with received := none }) := by
  intro t c
  have read : ∀ x, getCounter (setCounter z seam.val k.val x) seam.val k.val = x := fun x => tget_tset_self ..
  have e : t = fetchAdd z seam k who := rfl
  rw [fetchAdd, leaveAdit_of_noneLeaves h] at e
  split at e
  · exact .inl e
  · dsimp only at e
    split at e
    · refine .inr (.inl ?_)
      rw [e]
      exact List.append_ne_nil_of_right_ne_nil _ (List.cons_ne_nil _ _)
    · split at e
      · exact .inl e
      · rename_i turns
        split at e
        · refine .inr (.inr (.inl ?_))
          rw [e, giveIndex, read]
          exact Option.some_ne_none _
        · refine .inr (.inr (.inr ⟨?_, by rw [e]; rfl, by rw [e, read]⟩))
          simp only [Bool.or_eq_true, Bool.not_eq_true', not_or, Bool.not_eq_false] at turns
          exact (mayServe_iff z c).1 turns.1

/-! ## The counterexample -/

/-- A weight tensor in a format that no adit unit loads. -/
def strayDesc : Desc :=
  { base := 4096, format := 0, rank := 1, extent := [64, 1, 1, 1, 1], stride := [4, 0, 0, 0, 0], shard := [{}, {}, {}, {}, {}] }

def strayImage : Image :=
  { nodes := [{ op := 0x01, operand := [0, 0] }], pool := [0], edges := [], lists := [], grid := [0, 0, 0, 0],
    spillBase := 0, spillLen := 0 }

/-- A queued job whose two batch elements stand on the adit path; element 0 becomes two parts on the arrays. -/
def strayJob : Job :=
  { key := 0, ctx := ⟨0, 0, 0, 0, 0⟩, jobId := 0, graph := 0, gen := 1, record := 0
    nodes := [(0, { paths := [(0, true), (1, true)], lens := [(0, 1, 128, 1)], split := 2 })] }

/-- A counter with a task of each element, of which its limit counts the first only. -/
def strayState : State :=
  { State.reset with
    dep := { descs := [(0, { gen := 1, live := some strayDesc })], graphs := [(0, { gen := 1, live := some strayImage })]
             jobs := [strayJob] }
    counters := [(0, { limit := 1, active := true, tasks := [⟨0, 0, 0, 0, 0, 1, 1⟩, ⟨1, 0, 0, 0, 0, 1, 1⟩] })] }

/-- The state that FETCH_AND_ADD answers: element 0 has left the adit path, and the limit counts the task of element 1. -/
def strayNext : State :=
  leaveAdit strayState 0 0

theorem fetchAdd_stray : exec (.fetchAndAdd 0 0 (.core 0)) strayState = .next strayNext :=
  congrArg Host.Outcome.next (by decide : fetchAdd strayState 0 0 (.core 0) = leaveAdit strayState 0 0)

/-- The task of element 1 is within the limit, on the adit path, and no adit unit can load its weights. -/
theorem strayNext_leaves : ¬ NoneLeaves strayNext 0 0 := fun h => by
  obtain ⟨x, ctx, adit, weights⟩ : ∃ x, counterCtx strayNext (getCounter strayNext 0 0) 1 = some x ∧ onAdit x = true ∧
      strayDesc ∈ weightDescs strayNext x.image x.node x.task.elem ∧ aditWeights strayNext x.image strayDesc = false :=
    ⟨_, rfl, by decide⟩
  have loads := h 1 (by decide) x ctx adit strayDesc weights.1
  rw [weights.2] at loads
  exact absurd loads (by decide)

/-- No state whose counter nothing leaves answers what `strayState` answers: it would be that answer itself. -/
theorem fetchAdd_ne_stray {z : State} (h : NoneLeaves z 0 0) : fetchAdd z 0 0 (.core 0) ≠ strayNext := fun e => by
  have outcomes := fetchAdd_of_noneLeaves (k := 0) (who := .core 0) h
  dsimp only at outcomes
  rw [e] at outcomes
  obtain same | rerun | given | ⟨⟨_, j, job, running, _⟩, jobs, counter⟩ := outcomes
  · exact strayNext_leaves (same ▸ h)
  · exact rerun (by decide)
  · exact given (by decide)
  · have number : (getCounter z 0 0).job = 0 := congrArg WorkCounter.job counter.symm
    have only : getJob z 0 = getJob strayNext 0 := getJob_congr jobs.symm 0
    have queued : (getJob strayNext 0).map (·.state) = some .queued := by decide
    change getJob z (getCounter z 0 0).job = some j at job
    rw [number, only] at job
    rw [job, Option.map_some, running] at queued
    exact absurd queued (by decide)

/-- Refutes O15: the task of `strayState` beyond its counter's limit comes within it when the other one leaves the adit path, so
something has still to leave in every state that answers the same. -/
theorem not_workCounters : ¬ Obligations.WorkCounters := by
  unfold Obligations.WorkCounters
  intro h
  obtain ⟨-, z, same, stays, -⟩ := h.1 strayState 0 0 (.core 0) rfl (show coreUp strayState ⟨0, 0⟩ = true by decide)
  rw [fetchAdd_stray] at same
  exact fetchAdd_ne_stray stays (Host.Outcome.next.inj same).symm

end Sys2Proof.Safety

end

section
/-! Exact accumulation in an X64 tile: a partial is added at the lowered reference, or the tile is lost for a named reason
(R108, R109). -/

-- one theorem after the other: proofs side by side would need more memory than the check allows
set_option Elab.async false

namespace Sys2Proof.Safety

open Sys2Proof.Machine

/-- The tile with the exponents of its first partial, where it has none yet (R108). -/
def withExponent (t : VatTile) (e : Int) : VatTile :=
  if t.expSet then t else { t with expSet := true, eRef := e, eTop := e }

/-- The greatest exponent of a tile, or that of a first partial. -/
def topOr (t : VatTile) (e : Int) : Int :=
  if t.expSet then t.eTop else e

@[simp] theorem withExponent_expSet (t : VatTile) (e : Int) : (withExponent t e).expSet = true := by
  unfold withExponent
  split <;> simp [*]

@[simp] theorem withExponent_lost (t : VatTile) (e : Int) : (withExponent t e).lost = t.lost := by
  unfold withExponent
  split <;> rfl

@[simp] theorem withExponent_x64 (t : VatTile) (e : Int) : (withExponent t e).x64 = t.x64 := by
  unfold withExponent
  split <;> rfl

@[simp] theorem withExponent_entries (t : VatTile) (e : Int) : (withExponent t e).entries = t.entries := by
  unfold withExponent
  split <;> rfl

@[simp] theorem withExponent_eRef (t : VatTile) (e : Int) : (withExponent t e).eRef = refOr t e := by
  unfold withExponent refOr
  split <;> rfl

@[simp] theorem withExponent_eTop (t : VatTile) (e : Int) : (withExponent t e).eTop = topOr t e := by
  unfold withExponent topOr
  split <;> rfl

theorem withExponent_isNan64 (t : VatTile) (e : Int) (j : Nat) : IsNan64 (withExponent t e) j ↔ IsNan64 t j := by
  simp [IsNan64]

theorem withExponent_exactCode (t : VatTile) (e : Int) (j : Nat) : exactCode (withExponent t e) j = exactCode t j := by
  simp [exactCode]

theorem refOr_le_topOr {t : VatTile} (h : Exact t) (e : Int) : refOr t e ≤ topOr t e := by
  unfold refOr topOr
  split
  · exact (h.span ‹_›).1
  · exact Int.le_refl _

/-! ## The four ways of an addition -/

theorem addExact_nan {t : VatTile} {i : Nat} (h : t.lost = false) (nan : IsNan64 t i) (acc e : Int) :
    (addExact t i acc e).1 = t := by
  rw [addExact, if_neg (by simp [h]), if_pos (show (tget t.entries 0 i).toNat = x64Nan from nan)]

/-- What an entry of the lowered tile holds after the partial is added to it. -/
def exactSum (l : VatTile) (i : Nat) (acc e : Int) : Int :=
  exactCode l i + acc * 2 ^ (e - l.eRef).toNat

/-- The addition as its three questions: the exponents' spread, the shift, the sum (R108, R109). -/
theorem addExact_number {t : VatTile} {i : Nat} (h : t.lost = false) (num : ¬ IsNan64 t i) (acc e : Int) :
    let w := withExponent t e
    let l := (lowerRef w e).1
    (addExact t i acc e).1 =
      if 33 < max w.eTop e - min w.eRef e then (addLost (loseTile w).1 i acc e).1
      else if l.lost then (addLost l i acc e).1
      else if fitsX64 (exactSum l i acc e) then
        { l with eTop := max l.eTop e, entries := tset l.entries 0 i (BitVec.ofInt 64 (exactSum l i acc e)) }
      else (addLost (loseTile { l with eTop := max l.eTop e }).1 i acc e).1 := by
  intro w l
  rw [addExact, if_neg (by simp [h]), if_neg (show ¬ (tget t.entries 0 i).toNat = x64Nan from num)]
  change Prod.fst (if 33 < max w.eTop e - min w.eRef e then _ else
    if l.lost then _ else if fitsX64 (exactSum l i acc e) then _ else _) = _
  split
  · rfl
  split
  · rfl
  split <;> rfl

theorem addExact_span {t : VatTile} {i : Nat} (h : t.lost = false) (num : ¬ IsNan64 t i) {acc e : Int}
    (wide : 33 < max (topOr t e) e - min (refOr t e) e) : (addExact t i acc e).1.lost = true := by
  rw [addExact_number h num, if_pos (by simpa using wide)]
  rfl

section
variable {t : VatTile} {i : Nat} (h : t.lost = false) (num : ¬ IsNan64 t i) {acc e : Int}
  (near : ¬ 33 < max (topOr t e) e - min (refOr t e) e)
include h num near

theorem addExact_shift (lost : (lowerRef (withExponent t e) e).1.lost = true) : (addExact t i acc e).1.lost = true := by
  rw [addExact_number h num, if_neg (by simpa using near), if_pos lost]
  exact lost

theorem addExact_overflow (kept : (lowerRef (withExponent t e) e).1.lost = false)
    (big : ¬ Fits64 (exactSum (lowerRef (withExponent t e) e).1 i acc e)) : (addExact t i acc e).1.lost = true := by
  rw [addExact_number h num, if_neg (by simpa using near), if_neg (by simp [kept]), if_neg fun k => big ((fits_iff _).1 k)]
  rfl

theorem addExact_sum (kept : (lowerRef (withExponent t e) e).1.lost = false)
    (fits : Fits64 (exactSum (lowerRef (withExponent t e) e).1 i acc e)) :
    let l := (lowerRef (withExponent t e) e).1
    (addExact t i acc e).1 =
      { l with eTop := max l.eTop e, entries := tset l.entries 0 i (BitVec.ofInt 64 (exactSum l i acc e)) } := by
  rw [addExact_number h num, if_neg (by simpa using near), if_neg (by simp [kept]), if_pos ((fits_iff _).2 fits)]

end

/-! ## The sum -/

section
variable {t : VatTile} (exact : Exact t) {i : Nat} (num : ¬ IsNan64 t i) (acc e : Int)
include exact num

omit num in
/-- A lowered tile that is not lost holds the tile's values at the least exponent (R108). -/
theorem lowered_exact (kept : (lowerRef (withExponent t e) e).1.lost = false) :
    let l := (lowerRef (withExponent t e) e).1
    l.x64 = true ∧ l.expSet = true ∧ l.eTop = topOr t e ∧ l.eRef = min (refOr t e) e ∧ (∀ j, IsNan64 l j ↔ IsNan64 t j) ∧
      (∀ j, ¬ IsNan64 t j → exactCode l j = exactCode t j * 2 ^ (refOr t e - l.eRef).toNat) := by
  obtain ⟨x64, set, top, ref, nans, codes⟩ := (lowerRef_gives (t := withExponent t e) (by simp [exact.lost]) (by simp) e).1 kept
  refine ⟨by rw [x64, withExponent_x64, exact.x64], set, by rw [top, withExponent_eTop],
    by rw [ref, withExponent_eRef], fun j => (nans j).trans (withExponent_isNan64 t e j), fun j hj => ?_⟩
  rw [codes j (fun k => hj ((withExponent_isNan64 t e j).1 k)), withExponent_exactCode, withExponent_eRef]

theorem addExact_kept (keeps : (addExact t i acc e).1.lost = false) :
    let r := (addExact t i acc e).1
    Exact r ∧ r.expSet = true ∧ r.eRef = min (refOr t e) e ∧ (∀ j, IsNan64 r j ↔ IsNan64 t j) ∧
      ∀ j, ¬ IsNan64 t j → exactCode r j = exactCode t j * 2 ^ (refOr t e - r.eRef).toNat +
        if j = i then acc * 2 ^ (e - r.eRef).toNat else 0 := by
  intro r
  have stays {p : Prop} (h : (addExact t i acc e).1.lost = true) : p := absurd (h.symm.trans keeps) (by decide)
  by_cases near : 33 < max (topOr t e) e - min (refOr t e) e
  · exact stays (addExact_span exact.lost num near)
  cases kept : (lowerRef (withExponent t e) e).1.lost with
  | true => exact stays (addExact_shift exact.lost num near kept)
  | false =>
    by_cases fits : Fits64 (exactSum (lowerRef (withExponent t e) e).1 i acc e)
    · obtain ⟨x64, set, top, ref, nans, codes⟩ := lowered_exact exact e kept
      have sum : r = _ := addExact_sum exact.lost num near kept fits
      generalize (lowerRef (withExponent t e) e).1 = l at *
      have entry (j : Nat) : tget r.entries 0 j =
          if j = i then BitVec.ofInt 64 (exactSum l i acc e) else tget l.entries 0 j := by
        rw [sum]
        exact exactCode_tset l i j _
      have refs : r.eRef = l.eRef := by rw [sum]
      have tops : r.eTop = max l.eTop e := by rw [sum]
      have sets : r.expSet = true := by rw [sum, ← set]
      refine ⟨⟨by rw [sum, ← x64], keeps, fun _ => ?_, fun unset => absurd (sets.symm.trans unset) (by decide)⟩, sets,
        refs.trans ref, fun j => ?_, fun j hj => ?_⟩
      · have := refOr_le_topOr exact e
        rw [refs, tops, top, ref]
        omega
      · by_cases hji : j = i
        · subst hji
          refine ⟨fun k => absurd k ?_, fun k => absurd k num⟩
          rw [IsNan64, entry, if_pos rfl]
          exact toNat_of_fits fits
        · rw [IsNan64, entry, if_neg hji]
          exact nans j
      · rw [refs]
        by_cases hji : j = i
        · subst hji
          rw [if_pos rfl, exactCode, entry, if_pos rfl, signedOf_toNat, toInt_of_fits fits, exactSum, codes j hj]
        · rw [if_neg hji, exactCode, entry, if_neg hji, Int.add_zero]
          exact codes j hj
    · exact stays (addExact_overflow exact.lost num near kept fits)

theorem addExact_lost (lost : (addExact t i acc e).1.lost = true) :
    33 < max (topOr t e) e - min (refOr t e) e ∨
    (∃ x ∈ t.entries, ¬ Fits64 (signedOf 64 x.2.toNat * 2 ^ (refOr t e - e).toNat)) ∨
    ¬ Fits64 (exactCode t i * 2 ^ (refOr t e - min (refOr t e) e).toNat + acc * 2 ^ (e - min (refOr t e) e).toNat) := by
  by_cases near : 33 < max (topOr t e) e - min (refOr t e) e
  · exact .inl near
  cases kept : (lowerRef (withExponent t e) e).1.lost with
  | true =>
    have := (lowerRef_gives (t := withExponent t e) (by simp [exact.lost]) (by simp) e).2 kept
    rw [withExponent_entries, withExponent_eRef] at this
    exact .inr (.inl this)
  | false =>
    obtain ⟨x64, -, -, ref, -, codes⟩ := lowered_exact exact e kept
    refine .inr (.inr fun fits => ?_)
    have fits : Fits64 (exactSum (lowerRef (withExponent t e) e).1 i acc e) := by
      rwa [exactSum, codes i num, ref]
    rw [addExact_sum exact.lost num near kept fits] at lost
    exact absurd (lost.symm.trans kept) (by decide)

end

theorem addNan_exact {t : VatTile} (exact : Exact t) (i : Nat) : (addPartial t i .nan).1 =
    { t with forced := true, entries := tset t.entries 0 i (BitVec.ofNat 64 x64Nan) } := by
  rw [addPartial, if_pos (by rw [exact.x64, exact.lost]; rfl)]

/-- Settles O21: a NaN entry stays; otherwise the exponents, the shift and the sum decide, in this order, whether the tile is
lost, and where none does the lowered tile takes the sum. -/
theorem exactSums : Obligations.ExactSums := by
  unfold Obligations.ExactSums
  intro t i exact _
  refine ⟨fun acc e => ⟨fun nan => addExact_nan exact.lost nan acc e, fun num keeps => addExact_kept exact num acc e keeps,
    fun num lost => addExact_lost exact num acc e lost⟩, ?_⟩
  rintro r rfl
  rw [addNan_exact exact]
  refine ⟨?_, fun j hj => ?_, rfl, exact.lost⟩
  · rw [IsNan64, exactCode_tset, if_pos rfl]
    decide
  · rw [exactCode_tset, if_neg hj]

end Sys2Proof.Safety

end

section
/-! VAT_SAVE and VAT_RESTORE: the record of one tile written or placed, with what the counts of the task leave alone
(R111, R112, R164, R166). -/

-- one theorem after the other: proofs side by side would need more memory than the check allows
set_option Elab.async false

namespace Sys2Proof.Safety

open Sys2Proof.Machine

/-! ## A count of a task -/

theorem slotCount_saved (s : State) (t : SlotId) (k n : Nat) (u : SlotId) :
    (getSlot (slotCount s t k n) u).saved = (getSlot s u).saved := by
  obtain ⟨others, own, -, -⟩ := slotCount_kept s t k n
  by_cases h : u = t
  · subst h
    have := congrArg TaskSlot.saved own
    exact this
  · rw [others u h]

theorem TilesAre.slotCount {c : CoreId} {l : List VatTile} {s t : State} (h : TilesAre c l s t) (u : SlotId) (k n : Nat)
    (hu : u.core = c) : TilesAre c l s (slotCount t u k n) := by
  refine ⟨(slotCount_tiles t u k n c).1.trans h.1, fun d hd => ?_⟩
  rw [(slotCount_tiles t u k n d).2 (by rwa [hu]), h.2 d hd]

/-! ## Saving -/

/-- What a state holds after a tile was saved at `o`, a spill of its own task or not (R111, R164, R273). -/
def TileSaved (s : State) (c : CoreId) (v : VatTile) (o : Nat) (spill : Bool) (t : State) : Prop :=
  readScratch t c o (saveRecord v).length = saveRecord v ∧
  BytesBut (scratchAddr c o) (saveRecord v).length s t ∧
  TilesAre c ((getCore s c).tiles.filter fun w => w.base != v.base) s t ∧
  (getSlot t (tileSlot c v)).saved =
    (getSlot s (tileSlot c v)).saved ++ [{ offset := o, spill := spill, kept := keptOf v }] ∧
  RegsAs (count (count s (vatRegBase c) Ctr.VAT_SAVE_CNT 1) (coreRegBase c) Ctr.CORE_SAVE_CYC_CNT
    ((saveRecord v).length / 64)) t ∧
  SameBut [.mem, .regs, .cores] s t

theorem saveTile_saved (s : State) (c : CoreId) (v : VatTile) (o : Nat) (spill : Bool) :
    TileSaved s c v o spill (saveTile s c v o spill) := by
  obtain ⟨mem, tiles, slot, -, regs, -⟩ := saveTile_gives s c v o spill
  refine ⟨?_, (stored_bytes mem).2, tiles, by rw [slot], by rwa [saveRecord_length], ?_⟩
  · rw [readScratch, mem]
    exact loadBytes_storeBytes _ _ _
  · have can : Can [.mem, .regs, .cores] (· ∈ [.mem, .regs, .cores]) := Can.all _
    exact (saveTile_keeps (.refl s) c v o spill).sameBut

theorem TileSaved.slotCount {s : State} {c : CoreId} {v : VatTile} {o : Nat} {spill : Bool} {t : State}
    (h : TileSaved s c v o spill t) (k n : Nat) : TileSaved s c v o spill (slotCount t (tileSlot c v) k n) := by
  obtain ⟨read, bytes, tiles, saved, regs, same⟩ := h
  have can : Can [.cores] (· ∈ [.cores]) := Can.all _
  have keeps := slotCount_keeps (.refl t) (tileSlot c v) k n
  have mem : (Machine.slotCount t (tileSlot c v) k n).mem = t.mem := keeps.field .mem (by decide)
  refine ⟨by rw [readScratch, mem]; exact read, fun x hx => by rw [mem]; exact bytes x hx, tiles.slotCount _ k n rfl,
    by rw [slotCount_saved, saved], (slotCount_regs t _ k n).trans regs, ?_⟩
  exact sameBut_join same keeps.sameBut

theorem spillTile_saved {s : State} {c : CoreId} {v : VatTile} {o : Nat} (aligned : o % 64 = 0)
    (work : inWork (getSlot s (tileSlot c v)) o (recordSize v.x64) = true)
    (clear : clearOfRecords (getSlot s (tileSlot c v)) o (recordSize v.x64) = true) :
    TileSaved s c v o true (spillTile s c v o) := by
  rw [spillTile, if_pos ⟨aligned, work, clear⟩]
  exact ((saveTile_saved s c v o true).slotCount _ _).slotCount _ _

theorem saveVat_yields {s : State} {c : CoreId} {b off o : Nat} {v : VatTile} (at_ : TileAt s c b v) (ready : v.ready = true)
    (idle : tileBusy s c b = false) (waits : (getSlot s (tileSlot c v)).state ≠ .running) (need : inNeed s c v = true)
    (place : saveOffset (getSlot s (tileSlot c v)) v.x64 = some o) : saveVat s c b off = saveTile s c v o false := by
  rw [saveVat, show findTile s c b = some v from at_]
  simp [idle, ready, waits, need, place]

theorem saveVat_spills {s : State} {c : CoreId} {b off : Nat} {v : VatTile} {k : TaskCtx} (at_ : TileAt s c b v)
    (ready : v.ready = true) (idle : tileBusy s c b = false) (runs : (getSlot s (tileSlot c v)).state = .running)
    (isOpen : v.isOpen = true) (ctx : taskCtx s (tileSlot c v) = some k) (spills : tileSpills s (tileSlot c v) k v = true) :
    saveVat s c b off = spillTile s c v off := by
  rw [saveVat, show findTile s c b = some v from at_]
  simp [idle, ready, runs, isOpen, ctx, spills]

/-! ## Restoring -/

/-- What a state holds after the tile of record `r` was placed at `b` (R112, R164). -/
def TileRestored (s : State) (u : SlotId) (r : SaveRecord) (v : VatTile) (b : Nat) (t : State) : Prop :=
  TilesAre u.core ((getCore s u.core).tiles ++ [restoredTile s u r.kept v b]) s t ∧
  (getSlot t u).saved = (getSlot s u).saved.erase r ∧
  RegsAs (count (count s (vatRegBase u.core) Ctr.VAT_RESTORE_CNT 1) (coreRegBase u.core) Ctr.CORE_RESTORE_CYC_CNT
    (recordSize v.x64 / 64)) t ∧
  SameBut [.regs, .cores] s t

theorem TileRestored.slotCount {s : State} {u : SlotId} {r : SaveRecord} {v : VatTile} {b : Nat} {t : State}
    (h : TileRestored s u r v b t) (k n : Nat) : TileRestored s u r v b (slotCount t u k n) := by
  obtain ⟨tiles, saved, regs, same⟩ := h
  have can : Can [.cores] (· ∈ [.cores]) := Can.all _
  refine ⟨tiles.slotCount u k n rfl, by rw [slotCount_saved, saved], (slotCount_regs t _ k n).trans regs, ?_⟩
  exact sameBut_join same (slotCount_keeps (.refl t) u k n).sameBut

/-- The state with the record of a tile gone from its slot. -/
def recordTaken (s : State) (u : SlotId) (r : SaveRecord) : State :=
  setSlot s u { getSlot s u with saved := (getSlot s u).saved.erase r }

theorem recordTaken_tiles (s : State) (u : SlotId) (r : SaveRecord) :
    (getCore (recordTaken s u r) u.core).tiles = (getCore s u.core).tiles := by
  rw [recordTaken, setSlot, getCore_setCore_self]

theorem placed_restored (s : State) (u : SlotId) (r : SaveRecord) (v : VatTile) (b : Nat) :
    TileRestored s u r v b (count (count (addTile (recordTaken s u r) u.core (restoredTile s u r.kept v b))
      (vatRegBase u.core) Ctr.VAT_RESTORE_CNT 1) (coreRegBase u.core) Ctr.CORE_RESTORE_CYC_CNT (recordSize v.x64 / 64)) := by
  obtain ⟨⟨tiles, others⟩, slots⟩ := addTile_gives (recordTaken s u r) u.core (restoredTile s u r.kept v b)
  refine ⟨⟨?_, fun d hd => ?_⟩, ?_, ?_, ?_⟩
  · simp only [getCore, count_cores] at tiles ⊢
    exact tiles.trans (congrArg (· ++ _) (recordTaken_tiles s u r))
  · have := others d hd
    simp only [getCore, count_cores] at this ⊢
    exact this.trans (getCore_setSlot_other _ _ hd)
  · have := congrArg TaskSlot.saved (slots u)
    simp only [getSlot, getCore, count_cores] at this ⊢
    refine this.trans ?_
    change (getSlot (recordTaken s u r) u).saved = _
    rw [recordTaken, getSlot_setSlot_self]
    rfl
  · exact count_regs_congr (count_regs_congr rfl ..) ..
  · have can : Can [.regs, .cores] (· ∈ [.regs, .cores]) := Can.all _
    have taken : Keeps (· ∈ [.regs, .cores]) s (recordTaken s u r) := setSlot_keeps (.refl s) ..
    exact (count_keeps (count_keeps (addTile_keeps taken ..) ..) ..).sameBut

theorem placeRestored_restored {s : State} {u : SlotId} {r : SaveRecord} {v : VatTile} {b : Nat}
    (free : LowestAt v.x64 (FreeAt s u.core v.x64) b) : TileRestored s u r v b (placeRestored s u r v) := by
  rw [placeRestored, makeRoom_free free]
  dsimp only
  split
  · exact (placed_restored s u r v b).slotCount _ _
  · exact placed_restored s u r v b

section
variable {s : State} {u : SlotId} {rt ct off : Nat} {assay : Bool} {r : SaveRecord}
  (found : findSaved (getSlot s u) rt ct assay = some r) (runs : (getSlot s u).state = .running)
  (needed : tileNeeded (getSlot s u) r.kept = true) (here : r.inDram = false → off = r.offset)
  (brought : r.inDram = true → inWork (getSlot s u) off (recordSize r.kept.x64) = true)
include found runs needed here brought

theorem restoreTile_reads : restoreTile s u rt ct assay off =
    match parseRecord (readScratch s u.core off (recordSize r.kept.x64)) 0 with
    | none => abortTask (raise s (vatRegBase u.core) Flag.vat_RESTORE_FAIL) u
    | some v => placeRestored s u r v := by
  have place : (if r.inDram then inWork (getSlot s u) off (recordSize r.kept.x64) else off == r.offset) = true := by
    cases h : r.inDram with
    | false => simpa using here h
    | true => simpa using brought h
  simp only [restoreTile, found]
  rw [if_neg (by simp only [runs, needed, place]; decide)] <;>
    cases parseRecord (readScratch s u.core off (recordSize r.kept.x64)) 0 <;> rfl

end

/-- Settles O24: the record round trip is `parse_save`; the commands come down to one tile saved or placed, whose task's counts
change nothing of it. -/
theorem saveRecords : Obligations.SaveRecords := by
  unfold Obligations.SaveRecords
  refine ⟨fun v b hv => parse_save v b hv, fun s c b off o v spill at_ ready idle _ => ?_,
    fun s u rt ct off assay r found runs needed here brought => ⟨fun bad => ?_, fun v b good free => ?_⟩⟩
  · have base : v.base = b := findTile_base at_
    subst base
    intro u
    rintro (⟨rfl, waits, need, place⟩ | ⟨rfl, runs, isOpen, rfl, aligned, ⟨k, ctx, spills⟩, work, clear⟩)
    · exact ⟨saveTile s c v o false, congrArg Host.Outcome.next (saveVat_yields at_ ready idle waits need place),
        saveTile_saved s c v o false⟩
    · exact ⟨spillTile s c v o, congrArg Host.Outcome.next (saveVat_spills at_ ready idle runs isOpen ctx spills),
        spillTile_saved aligned work clear⟩
  · have := restoreTile_reads found runs needed here brought
    rw [bad] at this
    exact congrArg Host.Outcome.next this
  · have := restoreTile_reads found runs needed here brought
    rw [good] at this
    exact ⟨placeRestored s u r v, congrArg Host.Outcome.next this, placeRestored_restored free⟩

end Sys2Proof.Safety

end

section
/-! VAT_ACCEPT, X64_SHIFT and X64_LOSS: the partial that an array hands over next decides between a shift and a loss (R108,
R109). -/

-- one theorem after the other: proofs side by side would need more memory than the check allows
set_option Elab.async false

namespace Sys2Proof.Safety

open Sys2Proof.Machine

theorem headExact_iff (s : State) (a : ArrayId) (v : VatTile) (i : Nat) (acc e : Int) :
    headExact s a = some (v, i, acc, e) ↔ NextExact s a v i acc e := by
  constructor
  · intro h
    unfold headExact at h
    split at h
    case h_2 => cases h
    case h_1 o rest out =>
      split at h
      case h_2 => cases h
      case h_1 n acc' e' w part place =>
        split at h
        case isFalse => cases h
        case isTrue takes =>
          cases h
          simp only [Bool.and_eq_true, Bool.not_eq_true', bne_iff_ne, ne_eq] at takes
          obtain ⟨⟨⟨x64, lost⟩, isOpen⟩, num⟩ := takes
          exact ⟨⟨o, rest, n, out, part, rfl, place⟩, x64, lost, isOpen, num⟩
  · rintro ⟨⟨o, rest, n, out, part, rfl, place⟩, x64, lost, isOpen, num⟩
    have num : (tget v.entries 0 (64 * o.row + n)).toNat ≠ x64Nan := num
    simp only [headExact, out, part, show findTile s a.core o.tile = some v from place]
    rw [if_pos (by rw [x64, lost, isOpen, bne_iff_ne.2 num]; rfl)]

theorem headExact_none {s : State} {a : ArrayId} (h : ∀ v i acc e, ¬ NextExact s a v i acc e) : headExact s a = none :=
  Option.eq_none_iff_forall_not_mem.2 fun ⟨v, i, acc, e⟩ k => h v i acc e ((headExact_iff s a v i acc e).1 k)

/-- The next partial's tile stands at its own base. -/
theorem NextExact.place {s : State} {a : ArrayId} {v : VatTile} {i : Nat} {acc e : Int} (h : NextExact s a v i acc e) :
    TileAt s a.core v.base v := by
  obtain ⟨o, -, -, -, -, -, place⟩ := h.head
  rw [findTile_base place]
  exact place

/-- A tile that takes the partial without loss can be lowered to its exponent (R108). -/
theorem lowerRef_kept {v : VatTile} {i : Nat} {acc e : Int} (lost : v.lost = false) (num : ¬ IsNan64 v i)
    (set : v.expSet = true) (keeps : (addExact v i acc e).1.lost = false) : (lowerRef v e).1.lost = false := by
  refine Classical.byContradiction fun shifted => ?_
  rw [Bool.not_eq_false] at shifted
  refine absurd (Eq.trans (Eq.symm ?_) keeps) (by decide : true ≠ false)
  by_cases near : 33 < max (topOr v e) e - min (refOr v e) e
  · exact addExact_span lost num near
  · exact addExact_shift lost num near (by rwa [withExponent, if_pos set])

theorem lowerRef_shifts {v : VatTile} {e : Int} (lost : v.lost = false) (set : v.expSet = true) (below : e < v.eRef)
    (kept : (lowerRef v e).1.lost = false) : (lowerRef v e).2 = { shifts := 1 } := by
  unfold lowerRef at kept ⊢
  rw [if_neg (by simp [lost, set, below])] at kept ⊢
  split
  · rfl
  · rename_i none
    rw [none] at kept
    exact absurd kept (by simp [loseTile])

theorem lowerRef_base (v : VatTile) (e : Int) : (lowerRef v e).1.base = v.base := by
  unfold lowerRef
  split
  · rfl
  · split <;> rfl

theorem shiftTile_gives {s : State} {a : ArrayId} {v : VatTile} {i : Nat} {acc e : Int} (next : NextExact s a v i acc e)
    (keeps : (addExact v i acc e).1.lost = false) (set : v.expSet = true) (below : e < v.eRef) :
    ∃ w, TilesChanged a.core v.base (fun _ => w) s (shiftTile s a) ∧ w.eRef = e ∧ w.lost = false ∧
      (∀ j, (IsNan64 w j ↔ IsNan64 v j) ∧ (¬ IsNan64 v j → exactCode w j = exactCode v j * 2 ^ (v.eRef - e).toNat)) ∧
      RegsAs (count s (vatRegBase a.core) Ctr.VAT_SHIFT_CNT 1) (shiftTile s a) ∧ SameBut [.regs, .cores] s (shiftTile s a) := by
  obtain ⟨-, lost, -, num⟩ := next.tile
  have kept := lowerRef_kept lost num set keeps
  have run : shiftTile s a = onTile s a.core v.base fun t => lowerRef t e := by
    simp [shiftTile, (headExact_iff s a v i acc e).2 next, keeps]
  obtain ⟨tiles, regs, same⟩ := onTile_at next.place (fun t => lowerRef t e) (lowerRef_base v e)
  rw [lowerRef_shifts lost set below kept] at regs
  obtain ⟨-, -, -, ref, nans, codes⟩ := (lowerRef_gives lost set e).1 kept
  have ref : (lowerRef v e).1.eRef = e := by omega
  rw [ref] at codes
  rw [run]
  exact ⟨_, tiles, ref, kept, fun j => ⟨nans j, codes j⟩, regs, same⟩

theorem lossTile_gives {s : State} {a : ArrayId} {v : VatTile} {i : Nat} {acc e : Int} (next : NextExact s a v i acc e)
    (table : TableOk v.entries 0) (lost : (addExact v i acc e).1.lost = true) :
    ∃ w, TilesChanged a.core v.base (fun _ => w) s (lossTile s a) ∧ w.lost = true ∧
      (∀ j, tget w.entries 0 j = BitVec.ofNat 64 (x64ToA40 (tget v.entries 0 j).toNat v.eRef).1) ∧
      RegsAs (countVat s a.core { lost := 1, ovf := (v.entries.filter fun e => (x64ToA40 e.2.toNat v.eRef).2).length })
        (lossTile s a) ∧
      SameBut [.regs, .cores] s (lossTile s a) := by
  obtain ⟨isLost, base, counts, codes⟩ := loseTile_gives v table
  obtain ⟨tiles, regs, same⟩ := onTile_at next.place loseTile base
  have run : lossTile s a = onTile s a.core v.base loseTile := by
    simp [lossTile, (headExact_iff s a v i acc e).2 next, lost]
  rw [counts] at regs
  rw [run]
  exact ⟨_, tiles, isLost, codes, regs, same⟩

theorem acceptVectors_gives (s : State) (a : ArrayId) : let x := getArray s a
    let t := acceptVectors s a
    ArrayIs a { x with out := x.out.drop 2 } s t ∧
      (∀ b v, TileAt s a.core b v → TileAt t a.core b (tileTaking a v ((x.out.take 2).filter (·.tile == b)))) ∧
      (∀ d, d ≠ a.core → getCore t d = getCore s d) ∧ SameBut [.regs, .arrays, .cores] s t := by
  intro x t
  obtain ⟨tiles, others, arrays⟩ := accept_fold a (x.out.take 2) (setArray s a { x with out := x.out.drop 2 })
  have arrays (b : ArrayId) : getArray t b = getArray (setArray s a { x with out := x.out.drop 2 }) b := by
    rw [getArray, getArray]
    exact congrArg (fun l => tget l {} (arrayKey b)) arrays
  have can := Can.all [.regs, .arrays, .cores]
  refine ⟨⟨?_, fun b hb => ?_⟩, tiles, others, (acceptVectors_keeps (P := (· ∈ [.regs, .arrays, .cores])) (.refl s) a).sameBut⟩
  · rw [arrays, getArray_setArray_self]
  · rw [arrays, getArray_setArray_other _ _ hb]

/-- Settles O22: the vectors are taken one after the other; of X64_SHIFT and X64_LOSS the one acts that the next exact partial
asks for. -/
theorem vatAccept : Obligations.VatAccept := by
  unfold Obligations.VatAccept
  refine ⟨fun s a => ⟨_, rfl, acceptVectors_gives s a⟩, fun s a v i acc e next table => ⟨fun lost => ⟨?_, ?_⟩,
    fun keeps => ⟨?_, fun set below => ?_⟩⟩, fun s a none => ⟨?_, ?_⟩⟩
  · change (addExact v i acc e).1.lost = true at lost
    exact congrArg Host.Outcome.next (by simp [shiftTile, (headExact_iff s a v i acc e).2 next, lost])
  · obtain ⟨w, h⟩ := lossTile_gives next table lost
    exact ⟨lossTile s a, w, rfl, h⟩
  · change (addExact v i acc e).1.lost = false at keeps
    exact congrArg Host.Outcome.next (by simp [lossTile, (headExact_iff s a v i acc e).2 next, keeps])
  · obtain ⟨w, h⟩ := shiftTile_gives next keeps set below
    exact ⟨shiftTile s a, w, rfl, h⟩
  · exact congrArg Host.Outcome.next (by rw [shiftTile, headExact_none none])
  · exact congrArg Host.Outcome.next (by rw [lossTile, headExact_none none])

end Sys2Proof.Safety

end

section
/-! The life of a vat tile: TILE_OPEN makes room and places it, TILE_INIT_DONE gives it its initial value, TILE_CLOSE ends it
(R96, R97, R164). -/

-- one theorem after the other: proofs side by side would need more memory than the check allows
set_option Elab.async false

namespace Sys2Proof.Safety

open Sys2Proof.Machine

/-! ## Room in the vat -/

/-- Tiles `ts` of core `c` have been saved, one after the other (R164, R166). -/
structure TilesSaved (c : CoreId) (ts : List VatTile) (s t : State) : Prop where
  tiles : TilesAre c ((getCore s c).tiles.filter fun w => decide (w.base ∉ ts.map VatTile.base)) s t
  kept : ∀ u, ∀ r ∈ (getSlot s u).saved, r ∈ (getSlot t u).saved
  records : ∀ v ∈ ts, ∃ off, ({ offset := off, kept := keptOf v } : SaveRecord) ∈ (getSlot t (tileSlot c v)).saved
  same : SameBut [.mem, .regs, .cores] s t

/-- Saves each of `ts` into its task's save area. -/
def saveEach (c : CoreId) (ts : List VatTile) (o : Option State) : Option State :=
  ts.foldl (fun o t =>
    o.bind fun s => (saveOffset (getSlot s (tileSlot c t)) t.x64).map fun off => saveTile s c t off false) o

theorem saveEach_none (c : CoreId) (ts : List VatTile) : saveEach c ts none = none := by
  induction ts with
  | nil => rfl
  | cons v vs ih => exact ih

theorem saveEach_saved (c : CoreId) (ts : List VatTile) : ∀ s t, saveEach c ts (some s) = some t → TilesSaved c ts s t := by
  induction ts with
  | nil =>
    rintro s t ⟨⟩
    exact ⟨⟨(List.filter_eq_self.2 fun _ _ => rfl).symm, fun _ _ => rfl⟩, fun _ _ h => h, fun _ h => (nomatch h), sameBut_refl _ _⟩
  | cons v vs ih =>
    intro s t done
    cases place : saveOffset (getSlot s (tileSlot c v)) v.x64 with
    | none =>
      have : saveEach c (v :: vs) (some s) = saveEach c vs none := by simp [saveEach, place]
      rw [this, saveEach_none] at done
      cases done
    | some off =>
      have first : saveEach c (v :: vs) (some s) = saveEach c vs (some (saveTile s c v off false)) := by simp [saveEach, place]
      obtain ⟨⟨tiles, others⟩, kept, records, same⟩ := ih _ _ (first.symm.trans done)
      obtain ⟨-, ⟨tiles1, others1⟩, slot, slots, -, -⟩ := saveTile_gives s c v off false
      have mono (u : SlotId) : ∀ r ∈ (getSlot s u).saved, r ∈ (getSlot (saveTile s c v off false) u).saved := by
        intro r hr
        by_cases hu : u = tileSlot c v
        · subst hu
          rw [slot]
          exact List.mem_append_left _ hr
        · rwa [slots u hu]
      refine ⟨⟨?_, fun d hd => (others d hd).trans (others1 d hd)⟩, fun u r hr => kept u r (mono u r hr), ?_, ?_⟩
      · rw [tiles, tiles1, List.filter_filter]
        refine List.filter_congr fun w _ => ?_
        rw [Bool.eq_iff_iff]
        simp [and_comm]
      · rintro w (_ | ⟨_, hw⟩)
        · refine ⟨off, kept _ _ ?_⟩
          rw [slot]
          exact List.mem_append_right _ (List.mem_singleton.2 rfl)
        · exact records w hw
      · exact sameBut_join (saveTile_saved s c v off false).2.2.2.2.2 same

theorem saveAll_saved {s t : State} {c : CoreId} {ts : List VatTile} (h : saveAll s c ts = some t) : TilesSaved c ts s t := by
  obtain ⟨⟨tiles, others⟩, kept, records, same⟩ := saveEach_saved c _ s t h
  refine ⟨⟨?_, others⟩, kept, fun v hv => records v (List.mem_mergeSort.2 hv), same⟩
  rw [tiles]
  refine List.filter_congr fun w _ => ?_
  simp [List.mem_mergeSort]

section
variable {s : State} {c : CoreId} {x64 : Bool} {b : Nat} (full : ∀ d, Position x64 d → ¬ FreeAt s c x64 d)
  (low : LowestAt x64 (YieldsAt s c x64) b)
include full low

theorem makeRoom_busy (busy : ∃ v ∈ inTheWay (getCore s c) x64 b, tileBusy s c v.base = true) : makeRoom s c x64 = (s, none) := by
  simp only [makeRoom, choose_yield full low]
  rw [if_pos (List.any_eq_true.2 busy)]

theorem makeRoom_unsaved (none : saveAll s c (inTheWay (getCore s c) x64 b) = none) : makeRoom s c x64 = (s, .none) := by
  simp only [makeRoom, choose_yield full low, none]
  split <;> rfl

theorem makeRoom_saved {t : State} (idle : ∀ v ∈ inTheWay (getCore s c) x64 b, tileBusy s c v.base = false)
    (saved : saveAll s c (inTheWay (getCore s c) x64 b) = some t) : makeRoom s c x64 = (t, some b) := by
  simp only [makeRoom, choose_yield full low, saved]
  rw [if_neg]
  rw [Bool.not_eq_true, List.any_eq_false]
  exact fun v hv => Bool.eq_false_iff.1 (idle v hv)

end

/-! ## TILE_OPEN -/

theorem mayOpen_iff {s : State} {u : SlotId} {c : TaskCtx} (ctx : taskCtx s u = some c) (rt ct : Nat) (assay : Bool) :
    mayOpen s u c rt ct assay = true ↔ MayOpenTile s u c rt ct assay := by
  simp only [mayOpen, Bool.and_eq_true, beq_iff_eq, Option.isNone_iff_eq_none, Bool.or_eq_true, decide_eq_true_eq]
  constructor
  · rintro ⟨⟨⟨⟨⟨⟨⟨running, path⟩, block⟩, fresh⟩, unsaved⟩, rows⟩, kind⟩, room⟩
    refine ⟨ctx, running, path, block, ⟨fresh, unsaved⟩, rows, fun full => ?_, fun isAssay => ?_, room⟩
    · simpa [full] using kind
    · simpa [isAssay, and_assoc, Option.isSome_iff_ne_none] using kind
  · rintro ⟨-, running, path, block, ⟨fresh, unsaved⟩, rows, full, assayed, room⟩
    refine ⟨⟨⟨⟨⟨⟨⟨running, path⟩, block⟩, fresh⟩, unsaved⟩, rows⟩, ?_⟩, room⟩
    cases assay with
    | false => simpa using full rfl
    | true => simpa [and_assoc, Option.isSome_iff_ne_none] using assayed rfl

theorem openTile_refused {s : State} {u : SlotId} {rt ct : Nat} {assay : Bool} (h : ∀ c, ¬ MayOpenTile s u c rt ct assay) :
    openTile s u rt ct assay = s := by
  unfold openTile
  split
  · rfl
  · rename_i c ctx
    rw [if_pos (by rw [Bool.eq_false_iff.2 (mt (mayOpen_iff ctx rt ct assay).1 (h c))]; rfl)]

theorem newTile_free (s : State) (u : SlotId) (c : TaskCtx) (rt ct : Nat) (assay : Bool) :
    ∀ k ∈ (newTile s u c rt ct assay).tiles, blkBit s c.image c.node (ctxCols s c) k ct = false := by
  intro k hk
  simp only [newTile] at hk
  split at hk
  · cases hk
  · simpa using (List.mem_filter.1 hk).2

theorem tilesReleased_tiles (s : State) (u : SlotId) :
    (getCore (tilesReleased s u) u.core).tiles = keptTiles s u ∧
      ∀ d, d ≠ u.core → getCore (tilesReleased s u) d = getCore s d :=
  ⟨by rw [tilesReleased, getCore_setCore_self], fun d hd => by rw [tilesReleased, getCore_setCore_other _ _ hd]⟩

theorem tilesReleased_same (s : State) (u : SlotId) : SameBut [.cores] s (tilesReleased s u) := by
  have can := Can.all [.cores]
  exact (setCore_keeps (.refl s) u.core _).sameBut

theorem addTile_same (s : State) (c : CoreId) (v : VatTile) : SameBut [.cores] s (addTile s c v) := by
  have can := Can.all [.cores]
  exact (addTile_keeps (.refl s) c v).sameBut

section
variable {s : State} {u : SlotId} {c : TaskCtx} {rt ct : Nat} {assay : Bool} (may : MayOpenTile s u c rt ct assay)
include may

theorem openTile_eq : openTile s u rt ct assay =
    match makeRoom (tilesReleased s u) u.core (nodeX64 c.node) with
    | (t, some b) => addTile t u.core { newTile s u c rt ct assay with base := b }
    | (_, none) => s := by
  rw [openTile, may.task]
  dsimp only
  rw [if_neg (by simp [(mayOpen_iff may.task rt ct assay).2 may])] <;> rfl

theorem openTile_free {b : Nat} (low : LowestAt (nodeX64 c.node) (FreeAt (tilesReleased s u) u.core (nodeX64 c.node)) b) :
    let t := openTile s u rt ct assay
    TilesAre u.core (keptTiles s u ++ [{ newTile s u c rt ct assay with base := b }]) s t ∧ SameBut [.cores] s t := by
  intro t
  have run : t = addTile (tilesReleased s u) u.core { newTile s u c rt ct assay with base := b } := by
    simp only [t, openTile_eq may, makeRoom_free low]
  obtain ⟨⟨tiles, others⟩, -⟩ := addTile_gives (tilesReleased s u) u.core { newTile s u c rt ct assay with base := b }
  obtain ⟨kept, rest⟩ := tilesReleased_tiles s u
  rw [run]
  exact ⟨⟨by rw [tiles, kept], fun d hd => (others d hd).trans (rest d hd)⟩,
    sameBut_join (tilesReleased_same s u) (addTile_same ..)⟩

theorem openTile_yields {b : Nat} (full : ∀ d, Position (nodeX64 c.node) d →
      ¬ FreeAt (tilesReleased s u) u.core (nodeX64 c.node) d)
    (low : LowestAt (nodeX64 c.node) (YieldsAt (tilesReleased s u) u.core (nodeX64 c.node)) b) :
    let way := inTheWay (getCore (tilesReleased s u) u.core) (nodeX64 c.node) b
    let t := openTile s u rt ct assay
    (∀ v ∈ way, tileBusy s u.core v.base = false) → saveAll (tilesReleased s u) u.core way ≠ none →
    (∀ v ∈ keptTiles s u, ∀ w ∈ keptTiles s u, v.base = w.base → v = w) →
    TilesAre u.core (((keptTiles s u).filter fun v => v ∉ way) ++ [{ newTile s u c rt ct assay with base := b }]) s t ∧
      (∀ v ∈ way, ∃ off, ({ offset := off, kept := keptOf v } : SaveRecord) ∈ (getSlot t (tileSlot u.core v)).saved) ∧
      SameBut [.mem, .regs, .cores] s t := by
  intro way t idle saves unique
  obtain ⟨z, saved⟩ := Option.ne_none_iff_exists'.1 saves
  obtain ⟨⟨tiles, others⟩, -, records, same⟩ := saveAll_saved saved
  obtain ⟨kept, rest⟩ := tilesReleased_tiles s u
  have run : t = addTile z u.core { newTile s u c rt ct assay with base := b } := by
    simp only [t, openTile_eq may]
    rw [makeRoom_saved full low (fun v hv => (tileBusy_congr (s := s) rfl ..).trans (idle v hv)) saved]
  obtain ⟨⟨added, others'⟩, slots⟩ := addTile_gives z u.core { newTile s u c rt ct assay with base := b }
  have inKept : ∀ v ∈ way, v ∈ keptTiles s u := fun v hv => kept ▸ (List.mem_filter.1 hv).1
  rw [run]
  refine ⟨⟨?_, fun d hd => ((others' d hd).trans (others d hd)).trans (rest d hd)⟩, fun v hv => ?_,
    sameBut_join (sameBut_join (n := [.mem, .regs, .cores]) (tilesReleased_same s u) same) (addTile_same ..)⟩
  · rw [added, tiles, kept]
    congr 1
    refine List.filter_congr fun w hw => decide_eq_decide.2 (not_congr ⟨fun hb => ?_, fun hm => List.mem_map_of_mem hm⟩)
    obtain ⟨v, hv, same⟩ := List.mem_map.1 hb
    exact unique v (inKept v hv) w hw same ▸ hv
  · rw [slots]
    exact records v hv

theorem openTile_stuck {b : Nat} (full : ∀ d, Position (nodeX64 c.node) d →
      ¬ FreeAt (tilesReleased s u) u.core (nodeX64 c.node) d)
    (low : LowestAt (nodeX64 c.node) (YieldsAt (tilesReleased s u) u.core (nodeX64 c.node)) b) :
    let way := inTheWay (getCore (tilesReleased s u) u.core) (nodeX64 c.node) b
    (∃ v ∈ way, tileBusy s u.core v.base = true) ∨ saveAll (tilesReleased s u) u.core way = none →
    openTile s u rt ct assay = s := by
  rintro way (⟨v, hv, busy⟩ | none)
  · rw [openTile_eq may, makeRoom_busy full low ⟨v, hv, (tileBusy_congr (s := s) rfl ..).trans busy⟩]
  · rw [openTile_eq may, makeRoom_unsaved full low none]

end

theorem tileOpen_next (s : State) (u : SlotId) (rt ct : Nat) (assay : Bool) :
    exec (.tileOpen u rt ct assay) s = .next (openTile s u rt ct assay) := rfl

/-! ## TILE_INIT_DONE -/

section
variable {s : State} {c : CoreId} {b : Nat} {v : VatTile} (place : TileAt s c b v)
include place

theorem tileInitDone_next (isOpen : v.isOpen = true) (unready : v.ready = false) :
    exec (.tileInitDone c b) s = .next (putTile s c (initTile s v)) := by
  change execTileInitDone c b s = _
  rw [execTileInitDone, show findTile s c b = some v from place]
  simp [isOpen, unready]

theorem initTile_changed : let t := putTile s c (initTile s v)
    TilesChanged c b (fun _ => initTile s v) s t ∧ SameBut [.cores] s t := by
  have tiles := putTile_tiles s c (initTile s v)
  rw [initTile_base, findTile_base place] at tiles
  have can := Can.all [.cores]
  exact ⟨tiles, (putTile_keeps (.refl s) ..).sameBut⟩

end

theorem initTile_ready (s : State) (v : VatTile) : (initTile s v).ready = true := by
  unfold initTile
  dsimp only
  split
  · rfl
  · split
    · rfl
    · split <;> rfl

theorem initTile_zero {s : State} {v : VatTile} (h : v.init = .zero ∨ v.part ≠ 0 ∨ v.segment ≠ 0) :
    initTile s v = { v with ready := true, entries := [] } := by
  unfold initTile
  dsimp only
  split
  · rfl
  · rename_i init
    rw [init] at h
    rw [if_pos (h.resolve_left (by simp))]

theorem initTile_load {s : State} {v : VatTile} {desc rt ct : Nat} {d : Desc} (init : v.init = .load desc rt ct)
    (part : v.part = 0) (segment : v.segment = 0) (live : descAt s desc = some d) :
    (initTile s v).entries = loadEntries s d v.x64 rt ct := by
  simp [initTile, init, part, segment, live]

theorem ofInt_eq_ofNat_unsigned (i : Int) : BitVec.ofInt 64 i = BitVec.ofNat 64 (unsignedOf 64 i) := by
  refine BitVec.eq_of_toNat_eq ?_
  rw [BitVec.toNat_ofInt, BitVec.toNat_ofNat, unsignedOf]
  omega

/-- The code that entry `i` of a LOAD tile takes, zero outside the tensor's extents. -/
def loadCode (s : State) (d : Desc) (x64 : Bool) (rt ct i : Nat) : BitVec 64 :=
  match loadElem d rt ct (i / 64) (i % 64) with
  | some idx => loadEntry d x64 i (elemBits s d idx) (elemValue s d idx)
  | none => 0

theorem loadEntries_eq (s : State) (d : Desc) (x64 : Bool) (rt ct : Nat) :
    loadEntries s d x64 rt ct = ((List.range 4096).map fun i => (i, loadCode s d x64 rt ct i)).filter fun e => e.2 != 0 := by
  refine congrArg (List.filter _) (List.map_congr_left fun i _ => ?_)
  unfold loadCode
  cases loadElem d rt ct (i / 64) (i % 64) <;> rfl

theorem loadEntries_get (s : State) {d : Desc} {x64 : Bool} (known : x64 = false ∨ d.format = fmtInt32) (rt ct : Nat) {m n : Nat}
    (hm : m < 64) (hn : n < 64) : tget (loadEntries s d x64 rt ct) 0 (64 * m + n) =
      match loadElem d rt ct m n with
      | some i => BitVec.ofNat 64 (if x64 then unsignedOf 64 (signedOf 32 (elemBits s d i))
          else encodeF a40 .rne (elemValue s d i))
      | none => 0 := by
  rw [loadEntries_eq, tget_range, if_pos (by omega), loadCode, show (64 * m + n) / 64 = m by omega,
    show (64 * m + n) % 64 = n by omega]
  cases loadElem d rt ct m n with
  | none => rfl
  | some idx =>
    cases x64 with
    | false => rfl
    | true =>
      have int32 := known.resolve_left (by decide)
      simp only [loadEntry, int32, if_true]
      exact ofInt_eq_ofNat_unsigned _

/-! ## TILE_CLOSE -/

/-- The tile as TILE_CLOSE leaves it. -/
def closedTile (v : VatTile) : VatTile :=
  { v with isOpen := false, failedOn := none, counts := [] }

theorem closeTile_refused {s : State} {c : CoreId} {b : Nat} {v : VatTile} (place : TileAt s c b v) (isOpen : v.isOpen = true)
    (h : ¬ (v.ready = true ∧ v.checked = true ∧ v.nextTile = v.stop ∧ v.nextPart = 0 ∧ tileBusy s c b = false)) :
    closeTile s c b = s := by
  rw [closeTile, show findTile s c b = some v from place]
  dsimp only
  rw [if_neg]
  simpa [tileComplete, isOpen, findTile_base place, and_assoc] using h

theorem forgetSpan_same (s : State) (t : SlotId) (v : VatTile) : SameBut [.jobs] s (forgetSpan s t v) := by
  have can := Can.all [.jobs]
  exact (forgetSpan_keeps (.refl s) t v).sameBut

/-- The state before the events of the part join those of its task. -/
def spanForgotten (s : State) (c : CoreId) (v : VatTile) : State :=
  let z := putTile s c (closedTile v)
  if v.assay then z else forgetSpan z (tileSlot c v) v

section
variable {s : State} {c : CoreId} {b : Nat} {v : VatTile} (place : TileAt s c b v) (isOpen : v.isOpen = true)
  (done : v.ready = true ∧ v.checked = true ∧ v.nextTile = v.stop ∧ v.nextPart = 0 ∧ tileBusy s c b = false)
include place isOpen done

theorem closeTile_eq : closeTile s c b =
    let z := spanForgotten s c v
    raiseIf (decide (1 < v.segments)) (setSlot z (tileSlot c v) { getSlot z (tileSlot c v) with
      counts := addCount (mergeCounts (getSlot z (tileSlot c v)).counts v.counts) cntLongSum (bitOf (decide (1 < v.segments))) })
      (vatRegBase c) Flag.vat_LONG_SUM := by
  obtain ⟨ready, checked, tile, part, idle⟩ := done
  rw [closeTile, show findTile s c b = some v from place]
  dsimp only
  rw [if_pos (by simp [tileComplete, isOpen, ready, checked, tile, part, findTile_base place, idle])]
  rfl

end

theorem spanForgotten_same (s : State) (c : CoreId) (v : VatTile) :
    (spanForgotten s c v).cores = (putTile s c (closedTile v)).cores ∧ (spanForgotten s c v).regs = s.regs ∧
      SameBut [.jobs, .cores] s (spanForgotten s c v) := by
  have put : SameBut [.cores] s (putTile s c (closedTile v)) :=
    (putTile_keeps (P := (· ∈ [.cores])) (.refl s) c _ (Can.all _)).sameBut
  have span : SameBut [.jobs] (putTile s c (closedTile v)) (spanForgotten s c v) := by
    unfold spanForgotten
    dsimp only
    split
    · exact sameBut_refl _ _
    · exact forgetSpan_same ..
  have all : SameBut [.jobs, .cores] s (spanForgotten s c v) := sameBut_join put span
  exact ⟨(span.2 .cores).resolve_left (by decide), (all.2 .regs).resolve_left (by decide), all⟩

theorem closeTile_gives {s : State} {c : CoreId} {b : Nat} {v : VatTile} (place : TileAt s c b v) (isOpen : v.isOpen = true)
    (done : v.ready = true ∧ v.checked = true ∧ v.nextTile = v.stop ∧ v.nextPart = 0 ∧ tileBusy s c b = false) :
    let t := closeTile s c b
    TilesChanged c b (fun _ => closedTile v) s t ∧
      (getSlot t (tileSlot c v)).counts =
        addCount (mergeCounts (getSlot s (tileSlot c v)).counts v.counts) cntLongSum (if 1 < v.segments then 1 else 0) ∧
      RegsAs (if 1 < v.segments then raise s (vatRegBase c) Flag.vat_LONG_SUM else s) t ∧ SameBut [.regs, .jobs, .cores] s t := by
  intro t
  obtain ⟨cores, regs, same⟩ := spanForgotten_same s c v
  have run : t = _ := closeTile_eq place isOpen done
  have put := putTile_tiles s c (closedTile v)
  rw [show (closedTile v).base = b from (findTile_base place : v.base = b)] at put
  have slot : getSlot (spanForgotten s c v) (tileSlot c v) = getSlot s (tileSlot c v) := by
    rw [getSlot, getCore_congr cores, putTile, show (tileSlot c v).core = c from rfl, getCore_setCore_self]
    rfl
  have bit : bitOf (decide (1 < v.segments)) = if 1 < v.segments then 1 else 0 := by simp [bitOf]
  dsimp only at run
  rw [slot, bit] at run
  generalize spanForgotten s c v = z at *
  rw [run]
  refine ⟨⟨?_, fun d hd => ?_⟩, ?_, ?_, ?_⟩
  · rw [getCore_congr (raiseIf_cores ..), setSlot, show (tileSlot c v).core = c from rfl, getCore_setCore_self, getCore_congr cores]
    exact put.1
  · rw [getCore_congr (raiseIf_cores ..), getCore_setSlot_other _ _ hd, getCore_congr cores]
    exact put.2 d hd
  · rw [getSlot, getCore_congr (raiseIf_cores ..)]
    exact congrArg TaskSlot.counts (getSlot_setSlot_self ..)
  · rw [RegsAs]
    by_cases long : 1 < v.segments
    · simp only [raiseIf, long, decide_true, if_true]
      exact raise_regs_congr regs _ _
    · simp only [raiseIf, long, decide_false, Bool.false_eq_true, if_false]
      exact regs
  · have can := Can.all [.regs, .cores]
    have noted := raiseIf_keeps (setSlot_keeps (.refl z) (tileSlot c v) { getSlot s (tileSlot c v) with
      counts := addCount (mergeCounts (getSlot s (tileSlot c v)).counts v.counts) cntLongSum (if 1 < v.segments then 1 else 0) })
      (decide (1 < v.segments)) (vatRegBase c) Flag.vat_LONG_SUM (P := (· ∈ [.regs, .cores]))
    exact sameBut_join same noted.sameBut

end Sys2Proof.Safety

end

section
/-! PART_COMBINE: the left-aligned tree of R106, the sums of two tiles, and the span that the node's run notes (R106, R110). -/

-- one theorem after the other: proofs side by side would need more memory than the check allows
set_option Elab.async false

namespace Sys2Proof.Safety

open Sys2Proof.Machine

/-! ## The tree of R106

A node lies at a multiple of a power of two and is as wide as that power, but for the last leaf of all. -/

/-- A span of the tree over `n` leaves by its place: `2 ^ j` leaves at a multiple of `2 ^ j`, cut at the last leaf. -/
def Aligned (n j l w : Nat) : Prop :=
  2 ^ j ∣ l ∧ l < n ∧ w = min (2 ^ j) (n - l)

theorem aligned_left {n j k l w : Nat} (h : Aligned n j l w) (cut : 2 ^ k < w) : Aligned n k l (2 ^ k) ∧ k < j := by
  obtain ⟨dvd, inside, rfl⟩ := h
  have lt : k < j := (Nat.pow_lt_pow_iff_right (by decide)).1 (Nat.lt_of_lt_of_le cut (Nat.min_le_left _ _))
  exact ⟨⟨Nat.dvd_trans (Nat.pow_dvd_pow 2 (Nat.le_of_lt lt)) dvd, inside, by omega⟩, lt⟩

theorem aligned_right {n j k l w : Nat} (h : Aligned n j l w) (cut : 2 ^ k < w) (le : w ≤ 2 ^ (k + 1)) :
    Aligned n k (l + 2 ^ k) (w - 2 ^ k) := by
  obtain ⟨⟨dvd, -, -⟩, lt⟩ := aligned_left h cut
  obtain ⟨-, inside, rfl⟩ := h
  have step : 2 ^ (k + 1) = 2 * 2 ^ k := Nat.pow_succ' ..
  have le' : 2 ^ (k + 1) ≤ 2 ^ j := Nat.pow_le_pow_right (by decide) lt
  exact ⟨Nat.dvd_add dvd (Nat.dvd_refl _), by omega, by omega⟩

theorem treeNode_aligned {n l w : Nat} (h : TreeNode n l w) : ∃ j, Aligned n j l w := by
  induction h with
  | root pos => exact ⟨n, Nat.dvd_zero _, pos, by have := Nat.lt_two_pow_self (n := n); omega⟩
  | left k _ cut _ ih =>
    obtain ⟨j, h⟩ := ih
    exact ⟨k, (aligned_left h cut).1⟩
  | right k _ cut le ih =>
    obtain ⟨j, h⟩ := ih
    exact ⟨k, aligned_right h cut le⟩

/-- From the root down: every aligned span is a node. -/
theorem aligned_treeNode {n : Nat} (d : Nat) : ∀ {j l w : Nat}, n ≤ 2 ^ (j + d) → Aligned n j l w → TreeNode n l w := by
  induction d with
  | zero =>
    rintro j l w big ⟨⟨q, rfl⟩, inside, rfl⟩
    have : q = 0 := by
      refine Classical.byContradiction fun pos => ?_
      have := Nat.le_mul_of_pos_right (2 ^ j) (Nat.pos_of_ne_zero pos)
      rw [Nat.add_zero] at big
      omega
    subst this
    rw [Nat.mul_zero] at inside ⊢
    rw [Nat.sub_zero, Nat.min_eq_right (by simpa using big)]
    exact .root inside
  | succ d ih =>
    rintro j l w big ⟨⟨q, rfl⟩, inside, rfl⟩
    have big : n ≤ 2 ^ (j + 1 + d) := by rwa [Nat.add_right_comm, Nat.add_assoc]
    have step : 2 ^ (j + 1) = 2 * 2 ^ j := Nat.pow_succ' ..
    have pos : 0 < 2 ^ j := Nat.two_pow_pos j
    obtain ⟨p, rfl | rfl⟩ : ∃ p, q = 2 * p ∨ q = 2 * p + 1 := ⟨q / 2, by omega⟩
    · have place : 2 ^ j * (2 * p) = 2 ^ (j + 1) * p := by rw [step, Nat.mul_left_comm, Nat.mul_assoc]
      rw [place] at inside ⊢
      have parent := ih big ⟨⟨p, rfl⟩, inside, rfl⟩
      by_cases wide : 2 ^ j < n - 2 ^ (j + 1) * p
      · rw [Nat.min_eq_left (Nat.le_of_lt wide)]
        exact .left j parent (by omega) (by omega)
      · rw [show min (2 ^ j) (n - 2 ^ (j + 1) * p) = min (2 ^ (j + 1)) (n - 2 ^ (j + 1) * p) by omega]
        exact parent
    · have place : 2 ^ j * (2 * p + 1) = 2 ^ (j + 1) * p + 2 ^ j := by rw [step, Nat.mul_add_one, Nat.mul_left_comm, Nat.mul_assoc]
      rw [place] at inside ⊢
      have right := TreeNode.right j (ih big ⟨⟨p, rfl⟩, by omega, rfl⟩) (by omega) (by omega)
      rwa [show min (2 ^ (j + 1)) (n - 2 ^ (j + 1) * p) - 2 ^ j = min (2 ^ j) (n - (2 ^ (j + 1) * p + 2 ^ j)) by omega] at right

/-- The condition of `treeJoin` in terms of aligned spans. -/
theorem treeJoin_aligned (n l wl r wr w : Nat) : treeJoin n l wl r wr = some w ↔
    ∃ k, Aligned n (k + 1) l w ∧ 2 ^ k < w ∧ wl = 2 ^ k ∧ r = l + 2 ^ k ∧ wr = w - 2 ^ k := by
  unfold treeJoin
  constructor
  · intro h
    split at h
    case isFalse => cases h
    case isTrue c =>
      obtain ⟨power, aligned, rfl, inside, rfl⟩ := c
      cases h
      have pos : 0 < wl := power ▸ Nat.two_pow_pos _
      have step : 2 ^ (wl.log2 + 1) = 2 * wl := by rw [Nat.pow_succ', ← power]
      refine ⟨wl.log2, ⟨by rw [step]; exact Nat.dvd_of_mod_eq_zero aligned, by omega, by rw [step]; omega⟩, ?_, power, ?_, ?_⟩ <;>
        rw [← power]
      · omega
      · omega
  · rintro ⟨k, ⟨dvd, inside, rfl⟩, cut, rfl, rfl, rfl⟩
    have step : 2 ^ (k + 1) = 2 * 2 ^ k := Nat.pow_succ' ..
    rw [if_pos ⟨by rw [Nat.log2_two_pow], Nat.mod_eq_zero_of_dvd (step ▸ dvd), rfl, by omega, by omega⟩]
    exact congrArg some (by omega)

theorem treeJoin_iff (n l wl r wr w : Nat) : treeJoin n l wl r wr = some w ↔
    TreeNode n l w ∧ ∃ k, 2 ^ k < w ∧ w ≤ 2 ^ (k + 1) ∧ wl = 2 ^ k ∧ r = l + 2 ^ k ∧ wr = w - 2 ^ k := by
  rw [treeJoin_aligned]
  constructor
  · rintro ⟨k, aligned, cut, left, right, width⟩
    have big : n ≤ 2 ^ (k + 1 + n) := Nat.le_trans (Nat.le_of_lt Nat.lt_two_pow_self) (Nat.pow_le_pow_right (by decide) (by omega))
    exact ⟨aligned_treeNode n big aligned, k, cut, aligned.2.2 ▸ Nat.min_le_left _ _, left, right, width⟩
  · rintro ⟨node, k, cut, le, left, right, width⟩
    obtain ⟨j, aligned⟩ := treeNode_aligned node
    obtain ⟨-, lt⟩ := aligned_left aligned cut
    obtain ⟨dvd, inside, rfl⟩ := aligned
    have le' : 2 ^ (k + 1) ≤ 2 ^ j := Nat.pow_le_pow_right (by decide) lt
    exact ⟨k, ⟨Nat.dvd_trans (Nat.pow_dvd_pow 2 lt) dvd, inside, by omega⟩, cut, left, right, width⟩

/-! ## The sum of two tiles -/

/-- The reference at which two tiles of exact sums meet (R110). -/
def joinRef (l r : VatTile) : Int :=
  if l.expSet && r.expSet then min l.eRef r.eRef else if l.expSet then l.eRef else r.eRef

theorem combineTiles_kept {l r : VatTile} (hl : Exact l) (hr : Exact r) (kept : (combineTiles l r).1.lost = false) :
    (combineTiles l r).1.eRef = joinRef l r ∧
      ∃ es, combineExact l r (joinRef l r) = some es ∧ (combineTiles l r).1.entries = es := by
  have exact : (l.x64 && !l.lost && r.x64 && !r.lost) = true := by rw [hl.x64, hl.lost, hr.x64, hr.lost]; rfl
  unfold combineTiles at kept ⊢
  dsimp only at kept ⊢
  rw [if_pos exact] at kept ⊢
  split at kept
  case h_2 => cases kept
  case h_1 es some_ =>
    by_cases wide : 33 < (if l.expSet && r.expSet then max l.eTop r.eTop else if l.expSet then l.eTop else r.eTop) - joinRef l r
    · exact absurd ((if_pos (decide_eq_true wide)).symm.trans some_) (by simp)
    · refine ⟨rfl, es, ?_, rfl⟩
      rw [← some_]
      exact (if_neg (mt of_decide_eq_true wide)).symm

theorem joinRef_le {l r t : VatTile} (ht : t = l ∨ t = r) (set : t.expSet = true) : joinRef l r ≤ t.eRef := by
  unfold joinRef
  split
  · rcases ht with rfl | rfl
    · exact Int.min_le_left _ _
    · exact Int.min_le_right _ _
  · rename_i both
    rcases ht with rfl | rfl
    · exact Int.le_of_eq (if_pos set)
    · exact Int.le_of_eq (if_neg (by simpa [set] using both))

theorem alignBy_joinRef {l r t : VatTile} (ht : t = l ∨ t = r) :
    alignBy t (joinRef l r) = ((if t.expSet then t.eRef else joinRef l r) - joinRef l r).toNat ∧
      joinRef l r ≤ if t.expSet then t.eRef else joinRef l r := by
  unfold alignBy
  cases set : t.expSet with
  | false => simp
  | true => exact ⟨rfl, joinRef_le ht set⟩

theorem combineTiles_exact {l r : VatTile} (hl : Exact l) (hr : Exact r) (kept : (combineTiles l r).1.lost = false) {i : Nat}
    (hi : i < 4096) : let k := (combineTiles l r).1
    let ref (t : VatTile) : Int := if t.expSet then t.eRef else k.eRef
    (IsNan64 k i ↔ IsNan64 l i ∨ IsNan64 r i) ∧
      (¬ IsNan64 k i → k.eRef ≤ ref l ∧ k.eRef ≤ ref r ∧
        exactCode k i = exactCode l i * 2 ^ (ref l - k.eRef).toNat + exactCode r i * 2 ^ (ref r - k.eRef).toNat) := by
  intro k ref
  obtain ⟨place, es, sums, entries⟩ := combineTiles_kept hl hr kept
  obtain ⟨nans, codes⟩ := combineExact_some sums i hi
  rw [← entries] at nans codes
  obtain ⟨shiftL, leL⟩ := alignBy_joinRef (l := l) (r := r) (t := l) (.inl rfl)
  obtain ⟨shiftR, leR⟩ := alignBy_joinRef (l := l) (r := r) (t := r) (.inr rfl)
  rw [← place] at shiftL shiftR leL leR
  refine ⟨nans, fun num => ⟨leL, leR, ?_⟩⟩
  rw [← shiftL, ← shiftR, place]
  exact codes (fun h => num (nans.2 h))

theorem combineA40_entries (l r : VatTile) (hl : l.x64 = false) (hr : r.x64 = false) (i : Nat) (hi : i < 4096) :
    tget (combineTiles l r).1.entries 0 i =
      BitVec.ofNat 64 (vatAdd (tget l.entries 0 i).toNat (tget r.entries 0 i).toNat).1 := by
  have : (combineTiles l r).1.entries = (combineA40 l r).1 := by
    unfold combineTiles
    dsimp only
    rw [if_neg (by simp [hl])]
  rw [this, combineA40_get l r hl hr i hi]

/-! ## PART_COMBINE -/

/-- The span that PART_COMBINE may note for the two tiles. -/
def combinedSpan (s : State) (x : TaskCtx) (l r : VatTile) : Option CombinedSpan :=
  if l.isOpen || r.isOpen || l.assay || r.rowTile != l.rowTile || r.colTile != l.colTile || r.split != l.split ||
    r.x64 != l.x64 then none
  else joinSpan (spanOfTile x l) (spanOfTile x r) (ctxCut s x).2.2 (ctxCut s x).2.1

theorem combinedSpan_iff {s : State} {c : CoreId} {l r : VatTile} {x : TaskCtx} (ctx : taskCtx s (tileSlot c l) = some x)
    (n : CombinedSpan) : combinedSpan s x l r = some n ↔ MayCombine s c l r x n := by
  unfold combinedSpan
  constructor
  · intro h
    split at h
    · cases h
    · rename_i fits
      simp only [Bool.or_eq_true, not_or, Bool.not_eq_true, bne_eq_false_iff_eq] at fits
      obtain ⟨⟨⟨⟨⟨⟨left, right⟩, full⟩, row⟩, col⟩, split⟩, x64⟩ := fits
      exact ⟨ctx, ⟨left, right, full⟩, ⟨row, col, split, x64⟩, h⟩
  · rintro ⟨-, ⟨left, right, full⟩, ⟨row, col, split, x64⟩, span⟩
    rw [if_neg (by simp [left, right, full, row, col, split, x64]), span]

/-- The sum entered in the vat and in the counts of the task. -/
def sumEntered (s : State) (c : CoreId) (l r : VatTile) : State :=
  let k := combineTiles l r
  let id := tileSlot c l
  slotCount (slotCount (slotCount (countVat (putTile s c k.1) c k.2) id cntVatOvf k.2.ovf) id cntVatNan k.2.nan) id cntExactLost
    (bitOf (l.x64 && k.1.lost && !l.lost && !r.lost))

section
variable {s : State} {c : CoreId} {b : Nat} {a : Addr} {l r : VatTile} (place : TileAt s c b l)
  (record : parseRecord (readModule s a (recordSize (leNat (readModule s a 1) == fmtX64))) 0 = some r)
include place record

theorem combineParts_eq : combineParts s c b a =
    match taskCtx s (tileSlot c l) with
    | none => s
    | some x => match combinedSpan s x l r with
      | none => s
      | some n => noteSpan (sumEntered s c l r) x n := by
  unfold combineParts
  simp only [show findTile s c b = some l from place, record]
  cases taskCtx s (tileSlot c l) with
  | none => rfl
  | some x => rfl

theorem combineParts_refused (h : ∀ x n, ¬ MayCombine s c l r x n) : combineParts s c b a = s := by
  rw [combineParts_eq place record]
  cases ctx : taskCtx s (tileSlot c l) with
  | none => rfl
  | some x =>
    dsimp only
    rw [Option.eq_none_iff_forall_not_mem.2 fun n k => h x n ((combinedSpan_iff ctx n).1 k)]

theorem combineParts_may {x : TaskCtx} {n : CombinedSpan} (may : MayCombine s c l r x n) :
    combineParts s c b a = noteSpan (sumEntered s c l r) x n := by
  rw [combineParts_eq place record, may.task]
  dsimp only
  rw [(combinedSpan_iff may.task n).2 may]

end

theorem TilesChanged.slotCount {c : CoreId} {b : Nat} {f : VatTile → VatTile} {s t : State} (h : TilesChanged c b f s t)
    (u : SlotId) (k n : Nat) (hu : u.core = c) : TilesChanged c b f s (slotCount t u k n) := by
  refine ⟨(slotCount_tiles t u k n c).1.trans h.1, fun d hd => ?_⟩
  rw [(slotCount_tiles t u k n d).2 (by rwa [hu]), h.2 d hd]

theorem sumEntered_gives (s : State) (c : CoreId) (l r : VatTile) : let t := sumEntered s c l r
    TilesChanged c l.base (fun _ => (combineTiles l r).1) s t ∧ RegsAs (countVat s c (combineTiles l r).2) t ∧
      SameBut [.regs, .cores] s t := by
  intro t
  have put := putTile_tiles s c (combineTiles l r).1
  rw [combineTiles_base] at put
  have counted : TilesChanged c l.base (fun _ => (combineTiles l r).1) s
      (countVat (putTile s c (combineTiles l r).1) c (combineTiles l r).2) :=
    ⟨by rw [getCore_congr (countVat_cores ..)]; exact put.1, fun d hd => by rw [getCore_congr (countVat_cores ..)]; exact put.2 d hd⟩
  have can := Can.all [.regs, .cores]
  refine ⟨((counted.slotCount _ _ _ rfl).slotCount _ _ _ rfl).slotCount _ _ _ rfl, ?_, ?_⟩
  · simp only [RegsAs, t, sumEntered, slotCount_regs]
    exact countVat_regs_congr (s := s) (by simp only [putTile, setCore_regs]) ..
  · exact (slotCount_keeps (slotCount_keeps (slotCount_keeps (countVat_keeps (P := (· ∈ [.regs, .cores]))
      (putTile_keeps (.refl s) ..) ..) ..) ..) ..).sameBut

theorem noteSpan_same (s : State) (x : TaskCtx) (n : CombinedSpan) : SameBut [.jobs] s (noteSpan s x n) := by
  have can := Can.all [.jobs]
  exact (noteSpan_keeps (.refl s) x n).sameBut

theorem noteSpan_spans {s : State} {x : TaskCtx} {n : CombinedSpan} {j : Job} (h : getJob (noteSpan s x n) x.job = some j) :
    n ∈ (runOf j x.stage).spans := by
  have key := getJob_key h
  have mem := List.mem_of_find?_eq_some h
  rw [noteSpan, updRun_jobs] at mem
  obtain ⟨i, -, rfl⟩ := List.mem_map.1 mem
  by_cases same : i.key = x.job
  · rw [if_pos same, runOf, tget_tset, if_pos rfl]
    exact List.mem_cons_self
  · rw [if_neg same] at key
    exact absurd key same

/-- Settles O23: a tile is placed where `makeRoom` finds a position, initialised and closed on its own; the sum of two is noted
where the tree joins their spans. -/
theorem tileLife : Obligations.TileLife := by
  unfold Obligations.TileLife
  refine ⟨⟨fun s u rt ct assay => ⟨fun h => ?_, fun c may => ?_⟩, fun s c b v place isOpen => ⟨fun unready => ?_, ?_⟩⟩,
    ⟨fun s c b a l r place record => ⟨fun h => ?_, fun x n may => ?_⟩, treeJoin_iff,
      fun l r hl hr => fun kept i hi => combineTiles_exact hl hr kept hi,
      combineA40_entries⟩⟩
  · rw [tileOpen_next, openTile_refused h]
  · refine ⟨fun b => ⟨rfl, rfl, rfl, rfl, rfl, rfl, rfl, rfl, newTile_free s u c rt ct assay⟩, fun b low => ?_,
      fun b full low => ⟨fun stuck => ?_, fun idle saves unique => ?_⟩⟩
    · exact ⟨_, rfl, openTile_free may low⟩
    · rw [tileOpen_next, openTile_stuck may full low stuck]
    · exact ⟨_, rfl, openTile_yields may full low idle saves unique⟩
  · obtain ⟨tiles, same⟩ := initTile_changed place
    refine ⟨_, initTile s v, tileInitDone_next place isOpen unready, tiles, same, initTile_ready s v, initTile_zero,
      fun desc rt ct d init part segment live known m n hm hn => ?_⟩
    rw [initTile_load init part segment live]
    exact loadEntries_get s known rt ct hm hn
  · exact ⟨fun done => ⟨_, rfl, closeTile_gives place isOpen done⟩,
      fun h => congrArg Host.Outcome.next (closeTile_refused place isOpen h)⟩
  · exact congrArg Host.Outcome.next (combineParts_refused place record h)
  · obtain ⟨tiles, regs, same⟩ := sumEntered_gives s c l r
    have noted := noteSpan_same (sumEntered s c l r) x n
    have cores := (noted.2 .cores).resolve_left (by decide)
    refine ⟨noteSpan (sumEntered s c l r) x n, congrArg Host.Outcome.next (combineParts_may place record may), ?_,
      ((noted.2 .regs).resolve_left (by decide)).trans regs, fun j hj => noteSpan_spans hj, sameBut_join same noted⟩
    rw [← findTile_base place]
    exact ⟨by rw [getCore_congr cores]; exact tiles.1, fun d hd => by rw [getCore_congr cores]; exact tiles.2 d hd⟩

end Sys2Proof.Safety

end

section
/-! SCRATCH_ACCESS of two requesters and of one, and the promotion (R155 to R158). -/

-- one theorem after the other: proofs side by side would need more memory than the check allows
set_option Elab.async false

namespace Sys2Proof.Safety

open Sys2Proof.Machine

/-! ## The line of the ingress buffer -/

theorem drainLine_getHop (s : State) (c : CoreId) (w : ScrRequester) :
    getHop (drainLine s c w) c = (if w = .fabricWrite then { getHop s c with lines := (getHop s c).lines - 1, stalled := false }
      else getHop s c) ∧ ∀ d, d ≠ c → getHop (drainLine s c w) d = getHop s d := by
  unfold drainLine
  split
  · exact ⟨getHop_setHop_self .., fun d hd => getHop_setHop_other _ _ hd⟩
  · exact ⟨rfl, fun _ _ => rfl⟩

theorem drainLine_same (s : State) (c : CoreId) (w : ScrRequester) : SameBut [.hops] s (drainLine s c w) :=
  (drainLine_keeps (P := (· ∈ [.hops])) (.refl s) c w (Can.all _)).sameBut

/-! ## Two requesters at a bank -/

/-- The core after a cycle in which its bank `b` granted `r` and refused `q`. -/
def coreAfterRefusal (x : CoreState) (b : Nat) (r q : ScrRequester) : CoreState :=
  { x with
    refusals := tset [] 0 (refusalKey b q) (tget x.refusals 0 (refusalKey b q) + 1)
    promoted := x.promoted.filter fun p => !([(b, scrOrder r)].contains p) }

/-- The state before the granted write: the refusal counted, the line of the ingress buffer freed. -/
def refusalNoted (s : State) (c : CoreId) (b : Nat) (r q : ScrRequester) : State :=
  drainLine (count (setCore s c (coreAfterRefusal (getCore s c) b r q)) (coreRegBase c) Ctr.SCR_CONFLICT_CNT 1) c r

theorem refusalNoted_cores (s : State) (c : CoreId) (b : Nat) (r q : ScrRequester) :
    getCore (refusalNoted s c b r q) c = coreAfterRefusal (getCore s c) b r q ∧
      ∀ d, d ≠ c → getCore (refusalNoted s c b r q) d = getCore s d := by
  have cores : (refusalNoted s c b r q).cores = (setCore s c (coreAfterRefusal (getCore s c) b r q)).cores := by
    rw [refusalNoted, ((drainLine_same _ c r).2 .cores).resolve_left (by decide), count_cores]
  exact ⟨by rw [getCore_congr cores, getCore_setCore_self],
    fun d hd => by rw [getCore_congr cores, getCore_setCore_other _ _ hd]⟩

theorem refusalNoted_same (s : State) (c : CoreId) (b : Nat) (r q : ScrRequester) :
    SameBut [.regs, .cores, .hops] s (refusalNoted s c b r q) := by
  have can := Can.all [.regs, .cores, .hops]
  exact (drainLine_keeps (P := (· ∈ [.regs, .cores, .hops])) (count_keeps (setCore_keeps (.refl s) ..) ..) c r).sameBut

theorem refusalNoted_regs (s : State) (c : CoreId) (b : Nat) (r q : ScrRequester) :
    RegsAs (count s (coreRegBase c) Ctr.SCR_CONFLICT_CNT 1) (refusalNoted s c b r q) := by
  rw [RegsAs, refusalNoted, ((drainLine_same _ c r).2 .regs).resolve_left (by decide)]
  exact count_regs_congr (by simp only [setCore_regs]) ..

theorem refusalNoted_hops (s : State) (c : CoreId) (b : Nat) (r q : ScrRequester) :
    getHop (refusalNoted s c b r q) c =
      (if r = .fabricWrite then { getHop s c with lines := (getHop s c).lines - 1, stalled := false } else getHop s c) ∧
    ∀ d, d ≠ c → getHop (refusalNoted s c b r q) d = getHop s d := by
  have before (d : CoreId) : getHop (count (setCore s c (coreAfterRefusal (getCore s c) b r q)) (coreRegBase c)
      Ctr.SCR_CONFLICT_CNT 1) d = getHop s d := getHop_congr (by simp) d
  obtain ⟨own, others⟩ := drainLine_getHop
    (count (setCore s c (coreAfterRefusal (getCore s c) b r q)) (coreRegBase c) Ctr.SCR_CONFLICT_CNT 1) c r
  exact ⟨by rw [refusalNoted, own, before], fun d hd => (others d hd).trans (before d)⟩

/-- What a write into scratch leaves of every core and slot. -/
theorem writeScratch_cores (s : State) (c : CoreId) (off : Nat) (bs : List Byte) :
    (∀ d, d ≠ c → getCore (writeScratch s c off bs) d = getCore s d) ∧
    (getCore (writeScratch s c off bs) c).refusals = (getCore s c).refusals ∧
    (getCore (writeScratch s c off bs) c).halfWrites = (getCore s c).halfWrites ∧
    ∀ d, (getCore (writeScratch s c off bs) d).slots = (getCore s d).slots :=
  have core (d : CoreId) := (writeScratch_core s c off bs d).1
  ⟨fun d => (writeScratch_core s c off bs d).2, congrArg (·.refusals) (core c), congrArg (·.halfWrites) (core c),
    fun d => congrArg (·.slots) (core d)⟩

theorem scratchAccess_conflict {s : State} {c : CoreId} {r q : ScrRequest} {bs cs : List Byte} (hr : LineWrite r bs)
    (whole : WholeWords r bs) (hq : LineWrite q cs) (bank : bankOfOffset r.offset = bankOfOffset q.offset) (who : r.who ≠ q.who)
    (first : scrBefore (getCore s c) (bankOfOffset r.offset) r q = true) {l : List ScrRequest} (hl : l = [r, q] ∨ l = [q, r]) :
    let b := bankOfOffset r.offset
    let t := scratchAccess s c l
    (∀ i (h : i < bs.length), loadByte t.mem (scratchAddr c r.offset + i) = bs[i]) ∧
      BytesBut (scratchAddr c r.offset) bs.length s t ∧
      refusedTimes t c b q.who = refusedTimes s c b q.who + 1 ∧ refusedTimes t c b r.who = 0 ∧
      Counted (coreRegBase c + Ctr.SCR_CONFLICT_CNT) 1 s t ∧ RegsBut [coreRegBase c + Ctr.SCR_CONFLICT_CNT] s t ∧
      (∀ d, d ≠ c → getCore t d = getCore s d) ∧ (∀ u, getSlot t u = getSlot s u) ∧
      getHop t c = (if r.who = .fabricWrite then { getHop s c with lines := (getHop s c).lines - 1, stalled := false }
        else getHop s c) ∧ (∀ d, d ≠ c → getHop t d = getHop s d) ∧
      SameBut [.mem, .regs, .cores, .hops] s t := by
  intro b t
  have run : t = writeScratch (refusalNoted s c b r.who q.who) c r.offset bs :=
    scratchAccess_two s c r q bs cs hr whole hq bank who first l hl
  obtain ⟨own, others⟩ := refusalNoted_cores s c b r.who q.who
  have regs := refusalNoted_regs s c b r.who q.who
  obtain ⟨hop, hops⟩ := refusalNoted_hops s c b r.who q.who
  have noted := refusalNoted_same s c b r.who q.who
  have mem : (refusalNoted s c b r.who q.who).mem = s.mem := (noted.2 .mem).resolve_left (by decide)
  generalize refusalNoted s c b r.who q.who = z at *
  have written := writeScratch_same z c r.offset bs
  obtain ⟨away, refusals, -, slots⟩ := writeScratch_cores z c r.offset bs
  have stores : t.mem = storeBytes s.mem (scratchAddr c r.offset) bs := by rw [run, writeScratch_mem, mem]
  have table : (getCore t c).refusals = tset [] 0 (refusalKey b q.who) (refusedTimes s c b q.who + 1) := by
    rw [run, refusals, own]
    rfl
  have counted (a : Nat) : rawReg t a = rawReg (count s (coreRegBase c) Ctr.SCR_CONFLICT_CNT 1) a := by
    have : t.regs = (count s (coreRegBase c) Ctr.SCR_CONFLICT_CNT 1).regs := by rw [run, writeScratch_regs, regs]
    rw [rawReg, rawReg, this]
  obtain ⟨bytes, rest⟩ := stored_bytes stores
  refine ⟨bytes, rest, ?_, ?_, (counted _).trans (rawReg_count_self ..), fun a => ?_, fun d hd => ?_, fun u => ?_, ?_, fun d hd => ?_, ?_⟩
  · rw [refusedTimes, table, tget_tset_self]
  · rw [refusedTimes, table, tget_tset_other _ _ _ fun k => who (refusalKey_inj k)]
    rfl
  · exact (Classical.em (a = coreRegBase c + Ctr.SCR_CONFLICT_CNT)).imp List.mem_singleton.2
      fun h => (counted a).trans (rawReg_count_other s h)
  · rw [run, away d hd, others d hd]
  · rw [getSlot, getSlot, run, slots]
    by_cases h : u.core = c
    · rw [h, own]
      rfl
    · rw [others _ h]
  · rw [run, getHop_congr ((written.2 .hops).resolve_left (by decide)), hop]
  · rw [run, getHop_congr ((written.2 .hops).resolve_left (by decide)), hops d hd]
  · rw [run]
    exact sameBut_join noted written

/-! ## One requester -/

/-- The core after a cycle in which its bank `b` granted its only requester. -/
def coreAfterGrant (x : CoreState) (b : Nat) (r : ScrRequester) : CoreState :=
  { x with refusals := [], promoted := x.promoted.filter fun p => !([(b, scrOrder r)].contains p) }

theorem scratchAccess_one (s : State) (c : CoreId) {r : ScrRequest} (inside : r.offset < 0x100000) :
    scratchAccess s c [r] =
      scratchGrant (drainLine (setCore s c (coreAfterGrant (getCore s c) (bankOfOffset r.offset) r.who)) c r.who) c r := by
  obtain ⟨asked, grants⟩ := cycleGrants_one (getCore s c) [r] (bankOfOffset r.offset) (bankOfOffset_lt _)
    (by simp [inside]) (r, 0) (by simp [grantOf])
  have refused : refusedAt [r] (bankOfOffset r.offset, r, 0) = [] := by
    rw [refusedAt, asked]
    simp [List.eraseDups_cons]
  have vat : ([r].filter fun r => decide (0x100000 ≤ r.offset)) = [] := by simp; omega
  unfold scratchAccess
  simp only [grants, vat, afterCycle, List.flatMap_cons, List.flatMap_nil, refused, List.map_nil, List.append_nil, List.map_cons,
    asked, List.zipIdx_cons, List.zipIdx_nil, List.length_cons, List.length_nil, List.foldl_cons, List.foldl_nil, List.sum_cons,
    List.sum_nil, Nat.zero_add, Nat.sub_self, if_true]
  rfl

theorem readCheck_clean {s : State} {c : CoreId} {off : Nat} (h : CleanLine s c off) : readCheck s c off .clean = s := by
  have none : poisonedIn s c (off / 32 * 32) 32 = [] := by
    refine List.filter_eq_nil_iff.2 fun w hw => ?_
    have := h w hw
    simp only [Bool.and_eq_true, decide_eq_true_eq, not_and, Nat.not_lt]
    omega
  rw [readCheck, none]

section
variable {s : State} {c : CoreId} {r : ScrRequest} {bs : List Byte} (write : LineWrite r bs) (part : ¬ WholeWords r bs)
include write part

theorem scratchGrant_part : scratchGrant s c r =
    if (getCore s c).halfWrites.contains (scrOrder r.who, r.offset) then
      writeScratch (setCore s c { getCore s c with halfWrites := (getCore s c).halfWrites.erase (scrOrder r.who, r.offset) }) c
        r.offset bs
    else readCheck (setCore s c { getCore s c with halfWrites := (scrOrder r.who, r.offset) :: (getCore s c).halfWrites }) c
      r.offset r.ecc := by
  obtain ⟨asks, -, line⟩ := write
  have take : bs.take (32 - r.offset % 32) = bs := List.take_of_length_le (by omega)
  have part : wholeWords r.offset bs.length = false := by
    rw [Bool.eq_false_iff]
    intro h
    exact part (by simpa [wholeWords, WholeWords] using h)
  simp only [scratchGrant, asks, take, part]
  rw [if_neg (by decide)]

end

/-- The state in which the only request of a cycle is granted. -/
def grantNoted (s : State) (c : CoreId) (r : ScrRequest) : State :=
  drainLine (setCore s c (coreAfterGrant (getCore s c) (bankOfOffset r.offset) r.who)) c r.who

theorem grantNoted_gives (s : State) (c : CoreId) (r : ScrRequest) : let z := grantNoted s c r
    (getCore z c).halfWrites = (getCore s c).halfWrites ∧ (getCore z c).poisonedWords = (getCore s c).poisonedWords ∧
      z.mem = s.mem ∧ SameBut [.cores, .hops] s z := by
  intro z
  have can := Can.all [.cores, .hops]
  have same : SameBut [.cores, .hops] s z :=
    (drainLine_keeps (P := (· ∈ [.cores, .hops])) (setCore_keeps (.refl s) ..) c r.who).sameBut
  have own : getCore z c = coreAfterGrant (getCore s c) (bankOfOffset r.offset) r.who := by
    rw [show z = grantNoted s c r from rfl, grantNoted, getCore_congr (((drainLine_same _ c r.who).2 .cores).resolve_left (by decide)), getCore_setCore_self]
  exact ⟨by rw [own]; rfl, by rw [own]; rfl, (same.2 .mem).resolve_left (by decide), same⟩

theorem scratchAccess_first {s : State} {c : CoreId} {r : ScrRequest} {bs : List Byte} (write : LineWrite r bs)
    (part : ¬ WholeWords r bs) (ecc : r.ecc = .clean) (clean : CleanLine s c r.offset)
    (fresh : (scrOrder r.who, r.offset) ∉ (getCore s c).halfWrites) : let t := scratchAccess s c [r]
    t.mem = s.mem ∧ (getCore t c).halfWrites = (scrOrder r.who, r.offset) :: (getCore s c).halfWrites ∧
      SameBut [.cores, .hops] s t := by
  intro t
  obtain ⟨half, poison, mem, same⟩ := grantNoted_gives s c r
  have run : t = scratchGrant (grantNoted s c r) c r := scratchAccess_one s c write.2.1
  generalize grantNoted s c r = z at *
  rw [scratchGrant_part write part, if_neg (by rw [half]; simpa using fresh), ecc, readCheck_clean] at run
  · rw [run]
    have can := Can.all [.cores]
    exact ⟨mem, by rw [getCore_setCore_self, half], sameBut_join same (setCore_keeps (.refl z) c _).sameBut⟩
  · rw [CleanLine, getCore_setCore_self, poison]
    exact clean

theorem scratchAccess_second {s : State} {c : CoreId} {r : ScrRequest} {bs : List Byte} (write : LineWrite r bs)
    (part : ¬ WholeWords r bs) (begun : (scrOrder r.who, r.offset) ∈ (getCore s c).halfWrites) :
    let t := scratchAccess s c [r]
    (∀ i (h : i < bs.length), loadByte t.mem (scratchAddr c r.offset + i) = bs[i]) ∧
      BytesBut (scratchAddr c r.offset) bs.length s t ∧
      (getCore t c).halfWrites = (getCore s c).halfWrites.erase (scrOrder r.who, r.offset) ∧
      SameBut [.mem, .cores, .hops] s t := by
  intro t
  obtain ⟨half, -, mem, same⟩ := grantNoted_gives s c r
  have run : t = scratchGrant (grantNoted s c r) c r := scratchAccess_one s c write.2.1
  generalize grantNoted s c r = z at *
  rw [scratchGrant_part write part, if_pos (by rw [half]; simpa using begun)] at run
  obtain ⟨y, hy⟩ : ∃ y, y = setCore z c { getCore z c with
    halfWrites := (getCore z c).halfWrites.erase (scrOrder r.who, r.offset) } := ⟨_, rfl⟩
  rw [← hy] at run
  have stores : t.mem = storeBytes s.mem (scratchAddr c r.offset) bs := by rw [run, writeScratch_mem, hy, setCore_mem, mem]
  obtain ⟨bytes, rest⟩ := stored_bytes stores
  have can := Can.all [.cores]
  have erased : SameBut [.cores] z y := hy ▸ (setCore_keeps (.refl z) c _).sameBut
  refine ⟨bytes, rest, ?_, ?_⟩
  · rw [run, (writeScratch_cores y c r.offset bs).2.2.1, hy, getCore_setCore_self, half]
  · rw [run]
    exact sameBut_join (sameBut_join (n := [.cores, .hops]) same erased) (writeScratch_same ..)

/-! ## The promotion -/

theorem promoteRequester_gives {s : State} {c : CoreId} {bank : Nat} {w : ScrRequester} (often : 8 ≤ refusedTimes s c bank w)
    (fresh : (bank, scrOrder w) ∉ (getCore s c).promoted) : let t := promoteRequester s c bank w
    getCore t c = { getCore s c with promoted := (bank, scrOrder w) :: (getCore s c).promoted } ∧
      (∀ d, d ≠ c → getCore t d = getCore s d) ∧
      Counted (coreRegBase c + Ctr.SCR_STARVE_CNT) 1 s t ∧ RegsBut [coreRegBase c + Ctr.SCR_STARVE_CNT] s t ∧
      SameBut [.regs, .cores] s t := by
  intro t
  have same : SameBut [.regs, .cores] s t :=
    (promoteRequester_keeps (P := (· ∈ [.regs, .cores])) (.refl s) c bank w (Can.all _)).sameBut
  have run : t = count (setCore s c { getCore s c with promoted := (bank, scrOrder w) :: (getCore s c).promoted })
      (coreRegBase c) Ctr.SCR_STARVE_CNT 1 := if_pos ⟨often, by simpa using fresh⟩
  have counted (a : Nat) : rawReg t a = rawReg (count s (coreRegBase c) Ctr.SCR_STARVE_CNT 1) a := by
    have : t.regs = (count s (coreRegBase c) Ctr.SCR_STARVE_CNT 1).regs := by
      rw [run]
      exact count_regs_congr (by simp only [setCore_regs]) ..
    rw [rawReg, rawReg, this]
  refine ⟨?_, fun d hd => ?_, (counted _).trans (rawReg_count_self ..), fun a => ?_, same⟩
  · rw [run, getCore_congr (count_cores ..), getCore_setCore_self]
  · rw [run, getCore_congr (count_cores ..), getCore_setCore_other _ _ hd]
  · exact (Classical.em (a = coreRegBase c + Ctr.SCR_STARVE_CNT)).imp List.mem_singleton.2
      fun h => (counted a).trans (rawReg_count_other s h)

/-- Settles O25: the grant of a cycle is decided by promotion, then by the table; a write of part of a word comes twice. -/
theorem scratchBanks : Obligations.ScratchBanks := by
  unfold Obligations.ScratchBanks
  refine ⟨fun s c r q bs cs hr whole hq bank who => ?_, fun s c bank w often fresh => ?_,
    fun s c r bs write part ecc clean => ⟨fun fresh => ?_, fun begun => ?_⟩⟩
  · intro b rp qp order l hl
    exact ⟨_, rfl, scratchAccess_conflict hr whole hq bank who ((scrBefore_iff ..).2 order) hl⟩
  · exact ⟨_, rfl, promoteRequester_gives often fresh⟩
  · exact ⟨_, rfl, scratchAccess_first write part ecc clean fresh⟩
  · exact ⟨_, rfl, scratchAccess_second write part begun⟩

end Sys2Proof.Safety

end

section
/-! The vector engine: instructions on lanes, the canonical NaN, CMP with SEL, and the reductions (R11, R168 to R172). -/

-- one theorem after the other: proofs side by side would need more memory than the check allows
set_option Elab.async false

namespace Sys2Proof.Safety

open Sys2Proof.Machine

/-! ## An instruction on lanes -/

theorem veWorks_iff (s : State) (u : SlotId) : unitActive (getSlot s u) .vector = true ↔ VeWorks s u := by
  simp [unitActive, VeWorks, and_assoc]

theorem onUnit_works {s : State} {u : SlotId} (works : VeWorks s u) (f : State → State) :
    onUnit .vector u f s = .next (f s) := by
  rw [onUnit, if_pos ((veWorks_iff s u).2 works)]

theorem onUnit_waits {s : State} {u : SlotId} (waits : ¬ VeWorks s u) (f : State → State) : onUnit .vector u f s = .next s := by
  rw [onUnit, if_neg (mt (veWorks_iff s u).1 waits)]

/-- An instruction of slot `u` is `f` where the engine works on a command of its task (R159). -/
def RunsAs (i : Instr) (u : SlotId) (f : State → State) : Prop :=
  ∀ s, exec i s = onUnit .vector u f s

theorem RunsAs.waits {i : Instr} {u : SlotId} {f : State → State} (h : RunsAs i u f) {s : State} (waits : ¬ VeWorks s u) :
    exec i s = .next s := (h s).trans (onUnit_waits waits f)

theorem RunsAs.gives {i : Instr} {u : SlotId} {f : State → State} (h : RunsAs i u f) {s : State} (works : VeWorks s u)
    {dst : VReg} {n : Nat} {g : Nat → Word} (wrote : VeWrote u dst n g s (f s)) : VeGives i u dst n g s :=
  ⟨f s, (h s).trans (onUnit_works works f), wrote⟩

/-- An instruction of two sources of an INT32 lane is counted for one cycle, and its lanes are those of `f`. -/
theorem RunsAs.logic {i : Instr} {o : VeLogic} {f : Word → Word → Word}
    (h : RunsAs i o.at_ fun s => veResult s o.at_ o.dst (lanes2 f (getLanes s o.at_ o.a) (getLanes s o.at_ o.b)) 1)
    {s : State} (works : VeWorks s o.at_) :
    VeGives i o.at_ o.dst 1 (fun k => f (lane s o.at_ o.a k) (lane s o.at_ o.b k)) s :=
  h.gives works (veBin_gives f s o.at_ o.dst o.a o.b 1)

/-! ## INT32 arithmetic -/

theorem veInteger_of {i : Instr} {u : SlotId} {dst : VReg} {f : Nat → Word} {exact : Nat → Int} {s : State}
    (gives : VeGives i u dst 1 f s) (same : ∀ k, InInt32 (exact k) → (f k).toInt = exact k) : VeInteger i u dst exact s :=
  ⟨f, gives, fun k _ => same k⟩

theorem minMax_toInt (op : Nat) (a b : Word) :
    (minMaxLane op .int32 a b).toInt = if op = 4 then min a.toInt b.toInt else max a.toInt b.toInt := by
  simp only [minMaxLane, veFloat]
  by_cases h : a.toInt < b.toInt <;> by_cases k : op = 4 <;> simp [h, k] <;> omega

theorem abs_toInt (a : Word) (h : InInt32 (a.toInt.natAbs : Int)) : (absNegLane false .int32 a).toInt = a.toInt.natAbs := by
  simp only [absNegLane, veFloat]
  have : (if a.toInt < 0 then -a.toInt else a.toInt) = (a.toInt.natAbs : Int) := by omega
  rw [if_neg (by decide), this]
  exact intResult_toInt _ _ _ _ h

theorem neg_toInt (a : Word) (h : InInt32 (-a.toInt)) : (absNegLane true .int32 a).toInt = -a.toInt :=
  intResult_toInt _ _ _ _ h

theorem dot4_toInt (acc a b : Word)
    (h : InInt32 (acc.toInt + signedByte a 0 * signedByte b 0 + signedByte a 1 * signedByte b 1 +
      signedByte a 2 * signedByte b 2 + signedByte a 3 * signedByte b 3)) :
    (dot4Lane acc a b).toInt = acc.toInt + signedByte a 0 * signedByte b 0 + signedByte a 1 * signedByte b 1 +
      signedByte a 2 * signedByte b 2 + signedByte a 3 * signedByte b 3 := by
  simp only [← signedOf_byte] at h ⊢
  exact intResult_toInt _ _ _ _ h

/-! ## Shifts -/

theorem shl_toNat {a b : Word} (h : b.toNat < 32) : (shiftLane 0 a b).toNat = a.toNat * 2 ^ b.toNat % 2 ^ 32 := by
  unfold shiftLane
  rw [if_neg (by omega)]
  simp [Nat.shiftLeft_eq]

theorem shr_toNat {a b : Word} (h : b.toNat < 32) : (shiftLane 1 a b).toNat = a.toNat / 2 ^ b.toNat := by
  unfold shiftLane
  rw [if_neg (by omega)]
  simp [Nat.shiftRight_eq_div_pow]

theorem sar_toInt {a b : Word} (h : b.toNat < 32) : (shiftLane 2 a b).toInt = a.toInt / (2 ^ b.toNat : Nat) := by
  unfold shiftLane
  rw [if_neg (by omega)]
  exact (BitVec.toInt_sshiftRight ..).trans (Int.shiftRight_eq_div_pow ..)

/-- Settles O26: each instruction writes a function of its lanes, and that function is the integer operation where the lane can
hold its result. -/
theorem veIntegers : Obligations.VeIntegers := by
  unfold Obligations.VeIntegers
  refine ⟨?_, fun s o => ⟨fun waits i hi => ?_, ?_⟩⟩
  · rintro s ⟨u, -, rnd, dst, a, b⟩ c ⟨v, -, rnd', dst', a'⟩ d rfl rfl works works' works''
    intro x y z n dot
    have bin {i : Instr} {f : Word → Word → Word} (h : RunsAs i u fun s =>
        veResult s u dst (lanes2 f (getLanes s u a) (getLanes s u b)) 1) :
        VeGives i u dst 1 (fun k => f (lane s u a k) (lane s u b k)) s := h.gives works (veBin_gives f s u dst a b 1)
    have un {i : Instr} {f : Word → Word} (h : RunsAs i v fun s => veResult s v dst' ((getLanes s v a').map f) 1) :
        VeGives i v dst' 1 (fun k => f (lane s v a' k)) s := h.gives works' (veUn_gives f s v dst' a' 1)
    refine ⟨veInteger_of (bin fun _ => rfl) fun k => intResult_toInt _ _ _ _,
      veInteger_of (bin fun _ => rfl) fun k => intResult_toInt _ _ _ _,
      veInteger_of (bin fun _ => rfl) fun k => intResult_toInt _ _ _ _,
      veInteger_of (RunsAs.gives (fun _ => rfl) works (veTri_gives (fmaLane .int32 rnd) s u dst a b c 1)) fun k =>
        intResult_toInt _ _ _ _,
      veInteger_of (bin fun _ => rfl) fun k _ => minMax_toInt 4 _ _,
      veInteger_of (bin fun _ => rfl) fun k _ => minMax_toInt 5 _ _,
      veInteger_of (un fun _ => rfl) fun k => abs_toInt _, veInteger_of (un fun _ => rfl) fun k => neg_toInt _,
      veInteger_of (RunsAs.gives (fun _ => rfl) works'' (veTri_gives dot4Lane s d.at_ d.dst d.dst d.a d.b 1)) fun k =>
        dot4_toInt _ _ _⟩
  · simp only [List.mem_cons, List.not_mem_nil, or_false] at hi
    rcases hi with rfl | rfl | rfl | rfl | rfl | rfl | rfl | rfl <;> exact RunsAs.waits (f := _) (by exact fun _ => rfl) waits
  · intro works x y
    exact ⟨RunsAs.logic (fun _ => rfl) works, RunsAs.logic (fun _ => rfl) works, RunsAs.logic (fun _ => rfl) works,
      RunsAs.logic (f := fun a _ => ~~~ a) (fun _ => rfl) works,
      ⟨_, RunsAs.logic (f := shiftLane 0) (fun _ => rfl) works, fun k _ => shl_toNat⟩,
      ⟨_, RunsAs.logic (f := shiftLane 1) (fun _ => rfl) works, fun k _ => shr_toNat⟩,
      ⟨_, RunsAs.logic (f := shiftLane 2) (fun _ => rfl) works, fun k _ => sar_toInt⟩⟩

/-! ## NaNs -/

theorem fmaLane_right {fmt : VeFormat} {f : FFormat} (h : veFloat fmt = some f) (rnd : Rounding) (x y z : Word) :
    NanRight fmt [x, y, z] (fmaLane fmt rnd x y z) := by
  obtain ⟨canonical, carried⟩ := fmaLane_nan h rnd x y z
  refine ⟨canonical, fun w hw => carried w ?_⟩
  simp only [List.mem_cons, List.not_mem_nil, or_false] at hw ⊢
  rcases hw with rfl | rfl | rfl
  · exact .inr (.inl rfl)
  · exact .inr (.inr rfl)
  · exact .inl rfl

theorem divLane_right {fmt : VeFormat} {f : FFormat} (h : veFloat fmt = some f) (rnd : Rounding) (x y : Word) :
    NanRight fmt [x, y] (divLane fmt rnd x y) := by
  simp only [divLane, h, Option.getD_some]
  refine lane2_nan h _ (fun a b _ _ => encode_good h rnd _ _) (fun a b nan => ?_) x y
  rw [divF_nan _ _ (nan.imp (decode_nan h a).2 (decode_nan h b).2)]
  exact encode_nan h rnd false

theorem minMaxLane_canonical {fmt : VeFormat} {f : FFormat} (h : veFloat fmt = some f) (op : Nat) (x y : Word) :
    NanCanonical fmt (minMaxLane op fmt x y) := by
  simp only [minMaxLane, h]
  exact nanCanonical_lane2 h _ (fun a b ha hb => minMaxF_good h op a b ha hb) x y

theorem canonF_good {fmt : VeFormat} {f : FFormat} (h : veFloat fmt = some f) {c : Nat} (hc : c < eWidth fmt) :
    GoodCode fmt (canonF f c) := by
  unfold canonF
  split
  · have := encode_good h .rne .nan false
    rwa [show encodeF f .rne .nan false = nanCode f from rfl] at this
  · rename_i num
    exact ⟨hc, fun nan => absurd ((decode_nan h c).2 nan) num⟩

/-- The element that SEL takes of a packed lane (log entry 15). -/
def pickHalf (f : FFormat) (x y z : Nat) : Nat :=
  canonF f (if z = cmpHalf true then x else if z = cmpHalf false then y else if Config.selOpen (BitVec.ofNat 32 z) then x else y)

theorem pickHalf_good {fmt : VeFormat} {f : FFormat} (h : veFloat fmt = some f) {x y : Nat} (hx : x < eWidth fmt)
    (hy : y < eWidth fmt) (z : Nat) : GoodCode fmt (pickHalf f x y z) := by
  refine canonF_good h ?_
  split
  · exact hx
  split
  · exact hy
  split
  · exact hx
  · exact hy

theorem selLane_canonical {fmt : VeFormat} {f : FFormat} (h : veFloat fmt = some f) (x y z : Word) :
    NanCanonical fmt (selLane fmt x y z) := by
  cases packed : vePacked fmt with
  | true =>
    have width : eWidth fmt = 65536 := by simp [eWidth, packed]
    have sel : selLane fmt x y z = BitVec.ofNat 32 (pickHalf f (x.toNat % 65536) (y.toNat % 65536) (z.toNat % 65536) +
        65536 * pickHalf f (x.toNat / 65536) (y.toNat / 65536) (z.toNat / 65536)) := by
      rw [selLane, if_pos packed, h]
      rfl
    have low := pickHalf_good h (x := x.toNat % 65536) (y := y.toNat % 65536) (by omega) (by omega) (z.toNat % 65536)
    have high := pickHalf_good h (x := x.toNat / 65536) (y := y.toNat / 65536) (by have := x.isLt; omega)
      (by have := y.isLt; omega) (z.toNat / 65536)
    intro c hc nan
    rw [sel, elemsOf_ofNat (width ▸ low.1) (width ▸ high.1) packed] at hc
    simp only [List.mem_cons, List.not_mem_nil, or_false] at hc
    rcases hc with rfl | rfl
    · exact low.2 nan
    · exact high.2 nan
  | false =>
    have single : fmt = .fp32 := by cases fmt <;> simp [vePacked, veFloat] at packed h ⊢
    subst single
    intro c hc
    simp only [selLane, packed, h, Bool.false_eq_true, if_false, elemsOf, List.mem_singleton] at hc
    rw [hc]
    exact (toNat_ofNat_good (canonF_good h (BitVec.isLt _))).2

/-- What R11 says of the functions of a floating format. -/
theorem floatLanes_nan {fmt : VeFormat} (float : fmt ≠ .int32) (rnd : Rounding) (x y z : Word) :
    NanRight fmt [x, y] (addLane fmt rnd x y) ∧ NanRight fmt [x, y] (subLane fmt rnd x y) ∧
    NanRight fmt [x, y] (mulLane fmt rnd x y) ∧ NanRight fmt [x, y, z] (fmaLane fmt rnd x y z) ∧
    NanRight fmt [x, y] (divLane fmt rnd x y) ∧ NanCanonical fmt (minMaxLane 4 fmt x y) ∧
    NanCanonical fmt (minMaxLane 5 fmt x y) ∧ NanRight fmt [x] (absNegLane false fmt x) ∧
    NanRight fmt [x] (absNegLane true fmt x) ∧ NanCanonical fmt (selLane fmt x y z) := by
  obtain ⟨f, h⟩ := exists_float float
  refine ⟨?_, ?_, ?_, fmaLane_right h rnd x y z, divLane_right h rnd x y, minMaxLane_canonical h 4 x y,
    minMaxLane_canonical h 5 x y, absNeg_nan h false x, absNeg_nan h true x, selLane_canonical h x y z⟩
  · simp only [addLane, h]
    exact fop2_nan h rnd _ (addF_nan rnd) x y
  · simp only [subLane, h]
    exact fop2_nan h rnd _ (fun a b nan => addF_nan rnd _ _ (nan.imp_right (negF_nan b))) x y
  · simp only [mulLane, h]
    exact fop2_nan h rnd _ mulF_nan x y

/-! ## The reductions -/

theorem reduceRows_gives {s : State} {p : VeUn} {i : Instr} {f : Word → Word → Word}
    (h : RunsAs i p.at_ fun s => veResult s p.at_ p.dst (reduceLanes f (getLanes s p.at_ p.a)) 8) (works : VeWorks s p.at_) :
    VeGives i p.at_ p.dst 8 (fun _ => joinAll f (getLanes s p.at_ p.a)) s :=
  h.gives works (veWrote_lanes (reduce_gives f s p) fun _ _ => treeFold_all f _ (getLanes_length ..))

/-- Settles O27: each instruction is one function of its lanes, whose NaNs are the canonical ones. -/
theorem veFloatNan : Obligations.VeFloatNan := by
  unfold Obligations.VeFloatNan
  refine ⟨fun s o c rel r hr => ?_, fun s p => ⟨fun works => ⟨fun r hr => ?_, fun r hr => ?_⟩,
    fun waits => ⟨fun r hr => ?_, fun r hr => ?_⟩⟩, fun s q r hr => ?_, fun fmt rnd x y z float => floatLanes_nan float rnd x y z,
    fun rnd fn x => ⟨one_nan (sqrtLane_good rnd x) (sqrtLane_nan rnd x), one_nan (specialF_good fn rnd x) (specialF_nan fn rnd x)⟩⟩
  · have bin {i : Instr} {n : Nat} {f : Word → Word → Word} (h : RunsAs i o.at_ fun s =>
        veResult s o.at_ o.dst (lanes2 f (getLanes s o.at_ o.a) (getLanes s o.at_ o.b)) n) :
        (VeWorks s o.at_ → VeGives i o.at_ o.dst n (fun k => f (lane s o.at_ o.a k) (lane s o.at_ o.b k)) s) ∧
          (¬ VeWorks s o.at_ → exec i s = .next s) :=
      ⟨fun works => h.gives works (veBin_gives f s o.at_ o.dst o.a o.b n), h.waits⟩
    have tri {i : Instr} {n : Nat} {f : Word → Word → Word → Word} (h : RunsAs i o.at_ fun s =>
        veResult s o.at_ o.dst (lanes3 f (getLanes s o.at_ o.a) (getLanes s o.at_ o.b) (getLanes s o.at_ c)) n) :
        (VeWorks s o.at_ →
          VeGives i o.at_ o.dst n (fun k => f (lane s o.at_ o.a k) (lane s o.at_ o.b k) (lane s o.at_ c k)) s) ∧
          (¬ VeWorks s o.at_ → exec i s = .next s) :=
      ⟨fun works => h.gives works (veTri_gives f s o.at_ o.dst o.a o.b c n), h.waits⟩
    have cycles : (if o.fmt = .bf16 ∨ o.fmt = .fp16 then 2 else 1) = compareCycles o.fmt := by
      unfold compareCycles vePacked
      cases o.fmt <;> simp
    simp only [laneRows, cycles, List.mem_cons, List.not_mem_nil, or_false] at hr
    rcases hr with rfl | rfl | rfl | rfl | rfl | rfl | rfl | rfl | rfl
    · exact bin (i := .veAdd o) (f := addLane o.fmt o.rnd) fun _ => rfl
    · exact bin (i := .veSub o) (f := subLane o.fmt o.rnd) fun _ => rfl
    · exact bin (i := .veMul o) (f := mulLane o.fmt o.rnd) fun _ => rfl
    · exact tri (by exact fun _ => rfl)
    · exact bin (i := .veMin o) (f := minMaxLane 4 o.fmt) fun _ => rfl
    · exact bin (i := .veMax o) (f := minMaxLane 5 o.fmt) fun _ => rfl
    · exact bin (i := .veDiv o) (f := divLane o.fmt o.rnd) fun _ => rfl
    · exact bin (i := .veCmp o rel) (f := cmpLane o.fmt rel) fun _ => rfl
    · exact tri (by exact fun _ => rfl)
  · simp only [signRows, List.mem_cons, List.not_mem_nil, or_false] at hr
    rcases hr with rfl | rfl <;> exact RunsAs.gives (by exact fun _ => rfl) works (veUn_gives _ s p.at_ p.dst p.a 1)
  · simp only [reduceRows, List.mem_cons, List.not_mem_nil, or_false] at hr
    rcases hr with rfl | rfl | rfl <;> exact reduceRows_gives (by exact fun _ => rfl) works
  · simp only [signRows, List.mem_cons, List.not_mem_nil, or_false] at hr
    rcases hr with rfl | rfl <;> exact RunsAs.waits (f := _) (by exact fun _ => rfl) waits
  · simp only [reduceRows, List.mem_cons, List.not_mem_nil, or_false] at hr
    rcases hr with rfl | rfl | rfl <;> exact RunsAs.waits (f := _) (by exact fun _ => rfl) waits
  · have un {i : Instr} {f : Word → Word} (h : RunsAs i q.at_ fun s => veResult s q.at_ q.dst ((getLanes s q.at_ q.a).map f) 4) :
        (VeWorks s q.at_ → VeGives i q.at_ q.dst 4 (fun k => f (lane s q.at_ q.a k)) s) ∧
          (¬ VeWorks s q.at_ → exec i s = .next s) :=
      ⟨fun works => h.gives works (veUn_gives f s q.at_ q.dst q.a 4), h.waits⟩
    simp only [specialRows, List.mem_cons, List.not_mem_nil, or_false] at hr
    rcases hr with rfl | rfl | rfl | rfl | rfl | rfl | rfl <;> exact un (by exact fun _ => rfl)

/-! ## CMP, SEL, the greatest and the least -/

theorem selLane_int (a b c : Word) (holds : Bool) (h : c = Config.cmpWord holds) :
    selLane .int32 a b c = if holds then a else b := by
  subst h
  cases holds with
  | true => simp [selLane, vePacked, veFloat]
  | false => simp [selLane, vePacked, veFloat, cmpWord_ne.symm]

/-- The greatest of joined INT32 lanes where `big`, the least otherwise. -/
def Extreme (big : Bool) (l : List Word) (r : Word) : Prop :=
  r ∈ l ∧ ∀ x ∈ l, if big then x.toInt ≤ r.toInt else r.toInt ≤ x.toInt

theorem redLane_extreme (big : Bool) (a b : List Word) (x y : Word) (hx : Extreme big a x) (hy : Extreme big b y) :
    Extreme big (a ++ b) (redLane big .int32 x y) := by
  obtain ⟨memX, boundX⟩ := hx
  obtain ⟨memY, boundY⟩ := hy
  simp only [redLane, veFloat]
  refine ⟨?_, fun w hw => ?_⟩
  · split
    · exact List.mem_append_right _ memY
    · exact List.mem_append_left _ memX
  · have bound := (List.mem_append.1 hw).imp (boundX w) (boundY w)
    cases big <;> by_cases lt : x.toInt < y.toInt <;> simp [lt] at bound ⊢ <;> omega

theorem joinAll_ind {P : List Word → Word → Prop} (f : Word → Word → Word) (one : ∀ a, P [a] a)
    (join : ∀ a b x y, P a x → P b y → P (a ++ b) (f x y)) {l : List Word} (h : l.length = 64) : P l (joinAll f l) := by
  obtain ⟨x, tree, holds⟩ := treeFold_ind f P one join 6 l (by omega) (by omega)
  rwa [← treeFold_all f l h, tree]

theorem joinAll_extreme (big : Bool) {l : List Word} (h : l.length = 64) : Extreme big l (joinAll (redLane big .int32) l) := by
  refine joinAll_ind _ (fun a => ⟨List.mem_singleton.2 rfl, fun x hx => ?_⟩) (redLane_extreme big) h
  obtain rfl := List.mem_singleton.1 hx
  cases big <;> exact Int.le_refl _

/-- A NaN among the lanes makes the join a NaN, the canonical one once two have been joined. -/
theorem joinAll_fp32_nan (big : Bool) {l : List Word} (h : l.length = 64) {x : Word} (hx : x ∈ l) (nan : IsNan .fp32 x.toNat) :
    joinAll (redLane big .fp32) l = 0x7FC00000 := by
  have canonical : IsNan .fp32 (0x7FC00000 : Word).toNat := by
    unfold IsNan
    decide
  have spread : ∀ x ∈ l, IsNan .fp32 x.toNat → IsNan .fp32 (joinAll (redLane big .fp32) l).toNat ∧
      (1 < l.length → joinAll (redLane big .fp32) l = 0x7FC00000) := by
    refine joinAll_ind (P := fun l r => ∀ x ∈ l, IsNan .fp32 x.toNat → IsNan .fp32 r.toNat ∧ (1 < l.length → r = 0x7FC00000)) _
      (fun a x hx nan => ⟨by rwa [← List.mem_singleton.1 hx], fun long => absurd long (by simp)⟩)
      (fun a b u v hu hv x hx nan => ?_) h
    have join : redLane big .fp32 u v = 0x7FC00000 :=
      redF_nan big u v ((List.mem_append.1 hx).imp (fun m => (hu x m nan).1) fun m => (hv x m nan).1)
    rw [join]
    exact ⟨canonical, fun _ => rfl⟩
  exact (spread x hx nan).2 (by omega)

theorem cmp_gives {s : State} {o : VeBin} (into : o.fmt = .int32) (rel : CmpRel) (works : VeWorks s o.at_) :
    VeGives (.veCmp o rel) o.at_ o.dst 1
      (fun k => cmpLane .int32 rel (lane s o.at_ o.a k) (lane s o.at_ o.b k)) s := by
  obtain ⟨u, fmt, rnd, dst, a, b⟩ := o
  obtain rfl : fmt = .int32 := into
  exact RunsAs.gives (fun _ => rfl) works (veBin_gives (cmpLane .int32 rel) s u dst a b 1)

theorem sel_gives {s : State} {p : VeBin} (intp : p.fmt = .int32) (c : VReg) (works : VeWorks s p.at_) :
    VeGives (.veSel p c) p.at_ p.dst 1
      (fun k => selLane .int32 (lane s p.at_ p.a k) (lane s p.at_ p.b k) (lane s p.at_ c k)) s := by
  obtain ⟨u, fmt, rnd, dst, a, b⟩ := p
  obtain rfl : fmt = .int32 := intp
  exact RunsAs.gives (fun _ => rfl) works (veTri_gives (selLane .int32) s u dst a b c 1)

/-- Settles O28: CMP's two words differ and SEL tells them apart; a property of joined lanes that each join keeps holds of the
whole tree. -/
theorem veCompareReduce : Obligations.VeCompareReduce := by
  unfold Obligations.VeCompareReduce
  refine ⟨fun s o rel p c into intp works => ⟨_, cmp_gives into rel works, fun z worksz => ⟨_, sel_gives intp c worksz,
    fun k j _ _ same => ?_⟩⟩, fun s o works => ⟨⟨_, reduceRows_gives (fun _ => rfl) works, rfl⟩, fun int => ?_, fun int => ?_,
    fun float => ?_⟩⟩
  · rw [selLane_int _ _ _ (relI rel (lane s o.at_ o.a k).toInt (lane s o.at_ o.b k).toInt) same]
    exact ⟨fun holds => if_pos ((relI_iff ..).2 holds), fun fails => if_neg (mt (relI_iff ..).1 fails)⟩
  · obtain ⟨mem, bound⟩ := joinAll_extreme true (getLanes_length s o.at_ o.a)
    refine ⟨_, reduceRows_gives (f := redLane true o.fmt) (fun _ => rfl) works, ?_⟩
    rw [int]
    exact ⟨mem_lane mem, fun j hj => bound _ (lane_mem hj)⟩
  · obtain ⟨mem, bound⟩ := joinAll_extreme false (getLanes_length s o.at_ o.a)
    refine ⟨_, reduceRows_gives (f := redLane false o.fmt) (fun _ => rfl) works, ?_⟩
    rw [int]
    exact ⟨mem_lane mem, fun j hj => bound _ (lane_mem hj)⟩
  · refine ⟨_, _, reduceRows_gives (f := redLane true o.fmt) (fun _ => rfl) works,
      reduceRows_gives (f := redLane false o.fmt) (fun _ => rfl) works, fun j hj nan => ?_⟩
    rw [float]
    exact ⟨joinAll_fp32_nan true (getLanes_length ..) (lane_mem hj) nan, joinAll_fp32_nan false (getLanes_length ..) (lane_mem hj) nan⟩

end Sys2Proof.Safety

end

section
/-! The vector engine's accesses to scratch: LD and ST, the indexed instructions, and the jig's MERGE (R86 to R90, R158, R173,
R186). -/

-- one theorem after the other: proofs side by side would need more memory than the check allows
set_option Elab.async false

namespace Sys2Proof.Safety

open Sys2Proof.Machine

/-! ## Accesses of the core window -/

/-- An instruction of slot `u` is `f` where the engine works on a command of its task and its accesses pass protection. -/
def WindowAs (i : Instr) (u : SlotId) (r : State → List (Nat × Nat)) (f : State → State) : Prop :=
  ∀ s, exec i s = onWindow u r f s

theorem WindowAs.mk {i : Instr} {u : SlotId} {r : State → List (Nat × Nat)} {f : State → State}
    (h : ∀ s, exec i s = onWindow u r f s) : WindowAs i u r f := h

section
variable {i : Instr} {u : SlotId} {r : State → List (Nat × Nat)} {f : State → State} (h : WindowAs i u r f) {s : State}
include h

theorem WindowAs.waits (waits : ¬ VeWorks s u) : exec i s = .next s := (h s).trans (onUnit_waits waits _)

theorem WindowAs.refused (works : VeWorks s u) (refused : accessAllowed s u (r s) = false) :
    exec i s = .next (abortTask s u) := by
  rw [h, onWindow, onUnit_works works, refused]
  rfl

end

theorem partialPoison_clean {s : State} {c : CoreId} (clean : (getCore s c).poisonedWords = []) (off n : Nat) :
    partialPoison s c off n = [] := by
  rw [partialPoison, poisonedIn_clean clean]
  rfl

/-! ## LD and ST -/

theorem veLd_next {s : State} {u : SlotId} {off : Nat} (works : VeWorks s u) (allowed : accessAllowed s u [(off, 256)] = true)
    (clean : (getCore s u.core).poisonedWords = []) (v : VReg) :
    exec (.veLd u v off) s = .next (veResult s u v (leWords (readWindow s u.core off 256)) 1) := by
  change execVeLd u v off s = _
  rw [execVeLd, onWindow_next works allowed, takeWindow_clean clean, poisonedIn_clean clean]
  rfl

theorem veSt_next {s : State} {u : SlotId} {off : Nat} (works : VeWorks s u) (allowed : accessAllowed s u [(off, 256)] = true)
    (clean : (getCore s u.core).poisonedWords = []) (v : VReg) :
    exec (.veSt u v off) s = .next (veDone (writeWindow s u.core off (wordBytes (getLanes s u v))) u.core 1) := by
  change execVeSt u v off s = _
  rw [execVeSt, onWindow_next works allowed, partialPoison_clean clean]
  rfl

theorem readWindow_length (s : State) (c : CoreId) (off n : Nat) : (readWindow s c off n).length = n := by
  unfold readWindow
  split <;> simp [readScratch, loadBytes]

theorem windowWord (s : State) (c : CoreId) {off k : Nat} (out : ¬ inScratch off 256) (hk : k < 64) :
    (leWords (readWindow s c off 256)).getD k 0 =
      windowByte s c (off + 4 * k + 3) ++ windowByte s c (off + 4 * k + 2) ++ windowByte s c (off + 4 * k + 1) ++
        windowByte s c (off + 4 * k) := by
  have byte {j : Nat} (hj : j < 256) : (readWindow s c off 256).getD j 0 = windowByte s c (off + j) := by
    rw [readWindow, if_neg out]
    simp [List.getD, hj]
  rw [word_of_bytes, leWords, readWindow_length]
  simp only [List.getD, List.getElem?_map, List.getElem?_range (show k < 256 / 4 by omega), Option.map_some, Option.getD_some]
  rw [leAt, sliceBytes, leNat_range, byte (by omega), byte (by omega), byte (by omega), byte (by omega)]
  rfl

/-- A store from the vat's window on reaches no byte of memory, one from the reserved part on nothing but the counters (R6,
R96). -/
theorem writeWindow_above (s : State) (c : CoreId) {off : Nat} {bs : List Byte} (above : 0x100000 ≤ off) (some_ : bs ≠ []) :
    (writeWindow s c off bs).mem = s.mem ∧ (0x150000 ≤ off → writeWindow s c off bs = s) := by
  have out : ¬ inScratch off bs.length = true := by
    have := List.length_pos_iff.2 some_
    simp only [inScratch, decide_eq_true_eq]
    omega
  have low : 0x100000 - off = 0 := by omega
  have high (reserved : 0x150000 ≤ off) : 0x150000 - max off 0x100000 = 0 := by omega
  unfold writeWindow
  rw [if_neg out, low]
  simp only [List.take_zero, if_true]
  refine ⟨?_, fun reserved => by rw [high reserved, List.take_zero, if_pos rfl]⟩
  split
  · rfl
  · exact (writeVat_keeps (P := (· ∈ [.regs, .cores])) (.refl s) c _ _ (Can.all _)).field .mem (by decide)

theorem lanes_ne_nil (s : State) (u : SlotId) (v : VReg) : wordBytes (getLanes s u v) ≠ [] := by
  rw [← List.length_pos_iff, wordBytes_length, getLanes_length]
  decide

/-- Settles O30: within scratch the window is scratch, above it a load reads bytes and a store reaches no memory. -/
theorem veLoadStore : Obligations.VeLoadStore := by
  unfold Obligations.VeLoadStore
  have ld (u : SlotId) (v : VReg) (off : Nat) := WindowAs.mk (i := .veLd u v off) (u := u) (r := fun _ => [(off, 256)]) fun _ => rfl
  have st (u : SlotId) (v : VReg) (off : Nat) := WindowAs.mk (i := .veSt u v off) (u := u) (r := fun _ => [(off, 256)]) fun _ => rfl
  refine fun s u v off => ⟨fun waits => ⟨(ld u v off).waits waits, (st u v off).waits waits⟩,
    fun works refused => ⟨(ld u v off).refused works refused, (st u v off).refused works refused⟩,
    fun works allowed clean => ⟨fun inside => ⟨?_, ?_⟩, fun above => ⟨?_, ?_⟩⟩⟩
  · refine ⟨_, veLd_next works allowed clean v, veWrote_lanes (veResult_wrote s u v
      (by rw [leWords_length, readWindow_length]) 1) fun k hk => ?_⟩
    rw [readWindow_inScratch s u.core off 256 inside]
    exact leWords_load s.mem (scratchAddr u.core off) 64 k hk
  · refine ⟨_, veSt_next works allowed clean v, ?_⟩
    rw [writeWindow_inScratch s u.core off _ (by rw [wordBytes_length, getLanes_length]; exact inside)]
    exact st_does s u v off
  · have out : ¬ inScratch off 256 = true := by simp only [inScratch, decide_eq_true_eq]; omega
    exact ⟨_, veLd_next works allowed clean v, veWrote_lanes (veResult_wrote s u v
      (by rw [leWords_length, readWindow_length]) 1) fun k hk => windowWord s u.core out hk⟩
  · obtain ⟨mem, reserved⟩ := writeWindow_above s u.core above (lanes_ne_nil s u v)
    refine ⟨_, veSt_next works allowed clean v, (veDone_mem ..).trans mem, fun top => ?_⟩
    rw [reserved top]
    exact ⟨by rw [getCore_congr (veDone_cores ..)], veCounted_veDone ..⟩

/-! ## The indexed instructions -/

theorem indexedPoison_clean {s : State} {c : CoreId} (clean : (getCore s c).poisonedWords = []) (idx : List Word)
    (region n : Nat) : indexedPoison s c idx region n = [] := by
  have none : ((idx.filter fun i => i.toNat < n).flatMap fun i => poisonedIn s c (region + 4 * i.toNat) 4) = [] :=
    List.flatMap_eq_nil_iff.2 fun _ _ => poisonedIn_clean clean ..
  rw [indexedPoison, none]
  rfl

/-- The lane that GATHER gives for an index. -/
def gatherLane (s : State) (o : VeIndexed) (i : Word) : Word :=
  if i.toNat < o.count then BitVec.ofNat 32 (leNat (takeWindow s o.at_.core (o.region + 4 * i.toNat) 4)) else o.fill

theorem gatherLane_eq {s : State} {o : VeIndexed} (inside : o.region + 4 * o.count ≤ 0x100000)
    (clean : (getCore s o.at_.core).poisonedWords = []) (i : Word) :
    gatherLane s o i = if i.toNat < o.count then elemAt s o.at_.core o.region i.toNat else o.fill := by
  unfold gatherLane
  split
  · rw [takeWindow_clean clean, readWindow_inScratch _ _ _ _ (by omega), elemAt, memWord_eq, readScratch, scratchAddr, scratchAddr,
      Nat.add_assoc _ o.region]
  · rfl

/-- The state after GATHER has written its register and before the indices out of bounds are counted. -/
def gathered (s : State) (o : VeIndexed) : State :=
  veResult s o.at_ o.data ((getLanes s o.at_ o.index).map (gatherLane s o))
    (indexedCycles (getLanes s o.at_ o.index) o.region o.count)

theorem veGather_next {s : State} {o : VeIndexed} (may : MayIndex s o) :
    exec (.veGather o) s = .next (veOob (gathered s o) o.at_ (oobLanes s o)) := by
  obtain ⟨works, allowed, clean⟩ := may
  change execVeGather o s = _
  rw [execVeGather, onWindow_next works allowed]
  dsimp only
  rw [indexedPoison_clean clean, ← oobCount_eq]
  rfl

theorem gather_gives {s : State} {o : VeIndexed} (inside : o.region + 4 * o.count ≤ 0x100000) (may : MayIndex s o) :
    let t := veOob (gathered s o) o.at_ (oobLanes s o)
    (∀ k, k < 64 → lane t o.at_ o.data k =
      if (lane s o.at_ o.index k).toNat < o.count
      then elemAt s o.at_.core o.region (lane s o.at_ o.index k).toNat else o.fill) ∧
    (∀ v, v ≠ o.data → getLanes t o.at_ v = getLanes s o.at_ v) ∧
    OobNoted o.at_ (oobLanes s o) s t ∧ IndexedKept o.at_ [.regs, .cores] s t := by
  intro t
  have wrote := veUn_gives (gatherLane s o) s o.at_ o.data o.index (indexedCycles (getLanes s o.at_ o.index) o.region o.count)
  change VeWrote o.at_ o.data _ _ s (gathered s o) at wrote
  obtain ⟨⟨lanes, registers⟩, ⟨others, cores, own⟩, counts, -, regs, rest⟩ := wrote
  obtain ⟨slots, slot, cores', rest'⟩ := veOob_slots (gathered s o) o.at_ (oobLanes s o)
  have reg (a : Nat) (busy : a ≠ coreRegBase o.at_.core + Ctr.VE_BUSY_CNT) (insn : a ≠ coreRegBase o.at_.core + Ctr.VE_INSN_CNT) :
      rawReg (gathered s o) a = rawReg s a := (regs a).resolve_left (by simp [veRegs, busy, insn])
  refine ⟨fun k hk => ?_, fun v hv => (veOob_vregs ..).trans (registers v hv), ?_, ?_⟩
  · rw [lane, veOob_vregs]
    exact (lanes k hk).trans (gatherLane_eq inside may.clean _)
  · refine oobNoted_from (veOob_noted ..) (reg _ ?_ ?_) (reg _ ?_ ?_) counts <;>
      simp [Ctr.VE_BUSY_CNT, Ctr.VE_INSN_CNT, Ctr.VE_IDX_OOB_CNT, Flag.core_IDX_OOB]
  · refine ⟨fun v hv => (slots v hv).trans (others v hv), (congrArg (fun x : TaskSlot => { x with vregs := [] }) slot).trans own, fun c => noPoison_congr ((cores' c).trans (cores c)),
      indexedRegs_but fun a busy insn oob flag => (veOob_regs _ _ _ _ oob flag).trans (reg a busy insn),
      sameBut_trans rest rest' fun _ h => h⟩

/-- The last of the places that satisfy `p` decides what is left of them. -/
theorem foldl_last_wins (v : Nat → Word) (p : Nat → Bool) (n : Nat) {k : Nat} (hk : k < n) (holds : p k = true)
    (last : ∀ l, k < l → l < n → p l = false) (a : Word) : ((List.range n).filter p).foldl (fun _ l => v l) a = v k := by
  induction n with
  | zero => omega
  | succ n ih =>
    rw [List.range_succ, List.filter_append, List.foldl_append]
    by_cases top : k = n
    · subst top
      simp [holds]
    · have : [n].filter p = [] := by simp [last n (by omega) (by omega)]
      rw [this]
      exact ih (by omega) fun l hl hn => last l hl (by omega)

/-- Settles O31: GATHER lane by lane; both scatters join each element with the lanes that name it, in their order. -/
theorem indexedAccess : Obligations.IndexedAccess := by
  unfold Obligations.IndexedAccess
  refine ⟨fun s o inside may => ⟨_, veGather_next may, gather_gives inside may⟩, fun s o inside may => ?_, fun s o i hi => ?_⟩
  · intro idx val
    obtain ⟨t, run, elems, bytes, rest⟩ := scatter_does (fun _ v => v) s o inside may
    refine ⟨⟨t, run, fun k hk named last => ?_, fun j hj free => ?_, bytes, rest⟩,
      scatter_does (fun old v => addLane .fp32 .rne old v) s o inside may⟩
    · rw [elems _ named]
      exact foldl_last_wins val (fun l => decide (idx l = idx k)) 64 hk (by simp) (fun l hl hn => by simpa using last l hl hn) _
    · rw [elems j hj, List.filter_eq_nil_iff.2 fun k hk => by simpa using free k (List.mem_range.1 hk)]
      rfl
  · simp only [List.mem_cons, List.not_mem_nil, or_false] at hi
    rcases hi with rfl | rfl | rfl <;>
      exact ⟨(WindowAs.mk (r := indexedRanges o) fun _ => rfl).waits, (WindowAs.mk (r := indexedRanges o) fun _ => rfl).refused⟩

/-! ## MERGE -/

theorem jigWorks_iff {s : State} {u : SlotId} : unitActive (getSlot s u) .jig = true ↔
    ∃ c ∈ (getSlot s u).cmds, c.cmd.unit = .jig ∧ c.issued = true ∧ c.done = false := by
  simp [unitActive, and_assoc]

theorem merge_refused {s : State} {m : MergeSpec} (h : ∀ a b, ¬ MayMerge s m a b) : exec (.merge m) s = .next s := by
  change execMerge m s = _
  rw [execMerge, onUnit]
  split
  · rename_i works
    cases ops : mergeOps s m with
    | none => rfl
    | some p => exact absurd ⟨jigWorks_iff.1 works, ops⟩ (h p.1 p.2)
  · rfl

theorem merge_next {s : State} {m : MergeSpec} {a b : SparseOp} (may : MayMerge s m a b) :
    exec (.merge m) s = .next (mergeCmd s m a b) := by
  obtain ⟨works, ops⟩ := may
  change execMerge m s = _
  rw [execMerge, onUnit, if_pos (jigWorks_iff.2 works), ops]

/-- A choice of the implementation drawn where `open_`. -/
def drawnIf (s : State) (open_ : Bool) : State :=
  if open_ then { s with freeCount := s.freeCount + 1 } else s

theorem drawnIf_same (s : State) (open_ : Bool) : (drawnIf s open_).cores = s.cores ∧ (drawnIf s open_).mem = s.mem ∧
    (drawnIf s open_).regs = s.regs ∧ SameBut [.freeCount] s (drawnIf s open_) := by
  cases open_ with
  | false => exact ⟨rfl, rfl, rfl, sameBut_refl _ _⟩
  | true => exact ⟨rfl, rfl, rfl, drawChoice_same s⟩

section
variable (s : State) (m : MergeSpec) (a b : SparseOp) (inside : m.dst + 4 ≤ 0x100000)
  (clean : (getCore s m.at_.core).poisonedWords = [])

/-- The value that MERGE writes: the element, or an open one where a stream breaks order (R90). -/
def mergeValue (s : State) (m : MergeSpec) (a b : SparseOp) : Word :=
  let x := readStream s a m.row m.lenK
  let y := readStream s b m.col m.lenK
  if x.descends || y.descends then Config.mergeOpen s.freeCount else mergeElement s a.val b.val x y

/-- The state in which the merge has been counted. -/
def mergeCounted (s : State) (m : MergeSpec) (a b : SparseOp) : State :=
  let x := readStream s a m.row m.lenK
  let y := readStream s b m.col m.lenK
  countMerge (drawnIf s (x.descends || y.descends)) m.at_ x y
    (matchPairs (x.entries.length + y.entries.length) x.entries y.entries).length

include inside clean in
theorem mergeCmd_eq : mergeCmd s m a b = writeScratch (mergeCounted s m a b) m.at_.core m.dst (leBytes 4 (mergeValue s m a b).toNat) := by
  obtain ⟨cores, -⟩ := drawnIf_same s
    ((readStream s a m.row m.lenK).descends || (readStream s b m.col m.lenK).descends)
  have clean : (getCore (drawnIf s ((readStream s a m.row m.lenK).descends || (readStream s b m.col m.lenK).descends))
      m.at_.core).poisonedWords = [] := by rw [getCore_congr cores, clean]
  have bytes (w : Word) : wordBytes [w] = leBytes 4 w.toNat := by simp [wordBytes]
  have run : mergeCmd s m a b = afterPoison
      (drawnIf s ((readStream s a m.row m.lenK).descends || (readStream s b m.col m.lenK).descends)) m.at_
      (partialPoison (drawnIf s ((readStream s a m.row m.lenK).descends || (readStream s b m.col m.lenK).descends))
        m.at_.core m.dst 4)
      fun z => writeWindow (countMerge z m.at_ (readStream s a m.row m.lenK) (readStream s b m.col m.lenK)
        (matchPairs ((readStream s a m.row m.lenK).entries.length + (readStream s b m.col m.lenK).entries.length)
          (readStream s a m.row m.lenK).entries (readStream s b m.col m.lenK).entries).length) m.at_.core m.dst
        (wordBytes [mergeValue s m a b]) := rfl
  rw [run, partialPoison_clean clean, afterPoison, if_pos rfl, writeWindow_inScratch _ _ _ _ (by rw [wordBytes_length]; exact inside), bytes]
  rfl

include inside clean in
theorem mergeCmd_gives : let t := mergeCmd s m a b
    let x := readStream s a m.row m.lenK
    let y := readStream s b m.col m.lenK
    memWord t.mem (scratchAddr m.at_.core m.dst) = mergeValue s m a b ∧
    ∃ n, Counted (spRegBase m.at_.core + Ctr.JIG_MATCH_CNT)
        (matchPairs (x.entries.length + y.entries.length) x.entries y.entries).length s t ∧
      (max x.read y.read + 7) / 8 ≤ n ∧ n ≤ (x.read + 7) / 8 + (y.read + 7) / 8 ∧
      Counted (spRegBase m.at_.core + Ctr.JIG_BUSY_CNT) n s t ∧ VeCounted m.at_.core n s t ∧
      Counted (spRegBase m.at_.core + Ctr.SP_IDX_OOB_CNT) (x.oob + y.oob) s t ∧
      Counted (spRegBase m.at_.core + Ctr.SP_ORDER_BREAK_CNT) (x.breaks + y.breaks) s t ∧
      BytesBut (scratchAddr m.at_.core m.dst) 4 s t ∧ RegsBut (mergeRegs m.at_.core) s t ∧
      (∀ v, v ≠ m.at_ → getSlot t v = getSlot s v) ∧
      { getSlot t m.at_ with counts := [] } = { getSlot s m.at_ with counts := [] } ∧
      (∀ c, { getCore t c with slots := [], poisonedWords := [] } =
        { getCore s c with slots := [], poisonedWords := [] }) ∧
      SameBut [.freeCount, .mem, .regs, .cores] s t := by
  intro t x y
  obtain ⟨cores, mem, regs, drawn⟩ := drawnIf_same s (x.descends || y.descends)
  obtain ⟨n, low, high, matched, busy, oob, breaks, counted, regsBut, slots, slot, cores', same⟩ :=
    countMerge_does (drawnIf s (x.descends || y.descends)) m.at_ x y
      (matchPairs (x.entries.length + y.entries.length) x.entries y.entries).length
  have run : t = _ := mergeCmd_eq s m a b inside clean
  change t = writeScratch (countMerge (drawnIf s (x.descends || y.descends)) m.at_ x y _) _ _ _ at run
  have same' := same
  have mem' := (same.2 .mem).resolve_left (by decide)
  have poison := writeScratch_poison (countMerge (drawnIf s (x.descends || y.descends)) m.at_ x y
    (matchPairs (x.entries.length + y.entries.length) x.entries y.entries).length) m.at_.core m.dst
    (leBytes 4 (mergeValue s m a b).toNat)
  have written := writeScratch_same (countMerge (drawnIf s (x.descends || y.descends)) m.at_ x y
    (matchPairs (x.entries.length + y.entries.length) x.entries y.entries).length) m.at_.core m.dst
    (leBytes 4 (mergeValue s m a b).toNat)
  generalize countMerge (drawnIf s (x.descends || y.descends)) m.at_ x y _ = z at *
  have before (k : Nat) : rawReg (drawnIf s (x.descends || y.descends)) k = rawReg s k := rawReg_congr regs k
  have after (k : Nat) : rawReg t k = rawReg z k := rawReg_congr (by rw [run, writeScratch_regs]) k
  have stores : t.mem = storeBytes s.mem (scratchAddr m.at_.core m.dst) (leBytes 4 (mergeValue s m a b).toNat) := by
    rw [run, writeScratch_mem]
    exact congrArg (storeBytes · _ _) (mem'.trans mem)
  have counts {k c : Nat} (h : Counted k c (drawnIf s (x.descends || y.descends)) z) : Counted k c s t := by
    rw [Counted, before] at h
    rw [Counted, after, h]
  have slotEq (v : SlotId) : getSlot t v = getSlot z v := run ▸ poison_slots poison v
  refine ⟨by rw [stores, memWord_store], n, counts matched, low, high, counts busy, ⟨counts counted.1, counts counted.2⟩, counts oob,
    counts breaks, ?_, fun k => (regsBut k).imp_right fun h => by rw [after, h, before], fun v hv => ?_, ?_, fun c => ?_, ?_⟩
  · have := (stored_bytes stores).2
    simpa [leBytes] using this
  · rw [slotEq, slots v hv, getSlot_congr cores]
  · rw [slotEq, slot, getSlot_congr cores]
  · rw [run]
    refine (poison_cores poison c).trans ((noPoison_congr (cores' c)).trans ?_)
    rw [getCore_congr cores]
  · rw [run]
    exact sameBut_join (sameBut_join (n := [.freeCount, .regs, .cores]) drawn same) written

end

/-- Settles O32: MERGE writes the sum over the matched pairs, which ascending streams make the places of their common indices. -/
theorem merge : Obligations.Merge := by
  unfold Obligations.Merge
  refine ⟨fun s m h => merge_refused h, fun s m a b may inside clean => ?_⟩
  intro av bv x y pairs
  obtain ⟨value, n, rest⟩ := mergeCmd_gives s m a b inside clean
  refine ⟨_, n, merge_next may, fun hx hy => ⟨matchPairs_mem _ _ _ (Nat.le_refl _) (readStream_ascends s a m.row m.lenK hx)
    (readStream_ascends s b m.col m.lenK hy), ?_, mergeElement_int8 s av bv x y⟩, rest⟩
  rw [value]
  exact if_neg (by rw [hx, hy]; decide)

end Sys2Proof.Safety

end

section
/-! CVT: into a vector register, and block by block into a bundle in scratch (R17, R28 to R31, R414). -/

-- one theorem after the other: proofs side by side would need more memory than the check allows
set_option Elab.async false

namespace Sys2Proof.Safety

open Sys2Proof.Machine

/-! ## What a CVT keeps, step by step -/

theorem CvtKept.join {u : SlotId} {l m n : List Part} {r s t : State} (h : CvtKept u l r s) (k : CvtKept u m s t)
    (hl : ∀ p ∈ l, p ∈ n := by decide) (hm : ∀ p ∈ m, p ∈ n := by decide) : CvtKept u n r t :=
  ⟨fun v hv => (k.slots v hv).trans (h.slots v hv), k.slot.trans h.slot, fun c => (k.cores c).trans (h.cores c),
    fun a => (h.regs a).elim .inl fun e => (k.regs a).imp_right fun f => f.trans e, sameBut_join h.rest k.rest hl hm⟩

theorem veDone_kept (s : State) (u : SlotId) (n : Nat) : CvtKept u [.regs] s (veDone s u.core n) := by
  refine ⟨fun v _ => getSlot_congr (veDone_cores ..) v, by rw [getSlot_congr (veDone_cores ..)],
    fun c => by rw [getCore_congr (veDone_cores ..)], fun a => ?_, veDone_same ..⟩
  refine (regsBut_veDone s u.core n a).imp_left fun h => ?_
  simp only [veRegs, List.mem_cons, List.not_mem_nil, or_false] at h
  rcases h with rfl | rfl <;> simp [cvtRegs]

theorem cvtCountCore_keeps' (s : State) (u : SlotId) (c : CvtCounts) : CvtKept u [.regs, .cores] s (cvtCountCore s u c) := by
  obtain ⟨slots, slot, cores, regs, same⟩ := cvtCountCore_kept s u c
  exact ⟨slots, congrArg (fun x : TaskSlot => { x with vregs := [] }) slot, fun c => noPoison_congr (cores c),
    fun a => (Classical.em (a ∈ cvtRegs u.core)).imp_right (regs a), same⟩

theorem writeScratch_cvtKept (s : State) (u : SlotId) (off : Nat) (bs : List Byte) :
    CvtKept u [.mem, .cores] s (writeScratch s u.core off bs) := by
  have poison := writeScratch_poison s u.core off bs
  exact ⟨fun v _ => poison_slots poison v, by rw [poison_slots poison], poison_cores poison,
    fun a => .inr (rawReg_congr (writeScratch_regs ..) a), writeScratch_same ..⟩

theorem getLanes_setLanes (s : State) (u : SlotId) (v : VReg) (l : List Word) {k : Nat} (hk : k < 64) :
    lane (setLanes s u v l) u v k = l.getD k 0 := by
  rw [lane, getLanes, setLanes, getSlot_setSlot_self, slotWithLanes, tget_tset_self]
  simp [laneCount, hk]

theorem setLanes_kept (s : State) (u : SlotId) (v : VReg) (l : List Word) : CvtKept u [.cores] s (setLanes s u v l) := by
  have can := Can.all [.cores]
  refine ⟨fun w hw => getSlot_setSlot_other _ _ hw, ?_, fun c => ?_, fun a => .inr (rawReg_congr (by simp [setLanes]) a),
    (setLanes_keeps (.refl s) u v l).sameBut⟩
  · rw [setLanes, getSlot_setSlot_self]
    rfl
  · exact noPoison_congr (getCore_setSlot s u _ c)

/-! ## A vector register -/

theorem cvtStore_reg (s : State) (u : SlotId) (v : VReg) (f : Nat) (mods : CvtMod) (cover : CvtCover) (vals : List FVal) :
    let t := cvtStore s u (.reg v f) mods cover vals
    (∀ k, k < 64 → lane t u v k = (cvtLanes f mods vals (getLanes s u v) cover).1.getD k 0) ∧
      (∀ w, w ≠ v → getLanes t u w = getLanes s u w) ∧ CvtKept u [.regs, .cores] s t := by
  intro t
  have done (w : VReg) : getLanes t u w = getLanes (setLanes s u v (cvtLanes f mods vals (getLanes s u v) cover).1) u w := by
    refine (cvtCountCore_vregs ..).trans (getLanes_congr u ?_ w)
    rw [veResult, getSlot_congr (veDone_cores ..)]
  refine ⟨fun k hk => ?_, fun w hw => by rw [done, getLanes_setLanes_other _ _ _ hw], ?_⟩
  · rw [lane, done]
    exact getLanes_setLanes s u v _ hk
  · exact ((setLanes_kept s u v _).join (n := [.regs, .cores]) (veDone_kept _ u 1)).join (cvtCountCore_keeps' _ u _)

/-! ## One block of a bundle -/

/-- Bytes of memory are as they were but for the scale byte at `a` and the payload of `n` bytes at `b`. -/
def BlockBut (a b n : Nat) (s t : State) : Prop :=
  ∀ x, x ≠ a → x < b ∨ b + n ≤ x → loadByte t.mem x = loadByte s.mem x

/-- The memory of a block whose scale byte `x` and payload `bs` have been stored. -/
theorem blockStored {s t : State} {a b : Nat} {x : Byte} {bs : List Byte}
    (h : t.mem = storeBytes (storeBytes s.mem a [x]) b bs) (apart : a < b) :
    loadByte t.mem a = x ∧ loadBytes t.mem b bs.length = bs ∧ BlockBut a b bs.length s t := by
  refine ⟨?_, by rw [h, loadBytes_storeBytes], fun y hy out => ?_⟩
  · rw [h, loadByte_storeBytes_other _ _ _ _ (.inl apart)]
    exact loadByte_storeBytes_self s.mem a [x] 0 Nat.zero_lt_one
  · rw [h, loadByte_storeBytes_other _ _ _ _ out, loadByte_storeBytes_other _ _ _ _ (by simp; omega)]

/-- The values of a block, none for a position that is dead or padding. -/
def blockLive (vals : List FVal) (dead padded : List Nat) : List (Option FVal) :=
  (List.range 32).map fun i => if dead.contains i || padded.contains i then none else some (vals.getD i .nan)

/-- The scale byte and the payload that a CVT stores for a block: zeros where all is padding, nothing where no position is
live. -/
def blockBytes (f : Nat) (mods : CvtMod) (vals : List FVal) (dead padded : List Nat) : Option (Byte × List Byte) :=
  let w := elemWidth f
  let live := blockLive vals dead padded
  if (List.range 32).all padded.contains then some (0, List.replicate (4 * w) 0)
  else if live.all Option.isNone then none
  else some (BitVec.ofNat 8 (cvtBlock f mods live).1, packBlock w (cvtBlock f mods live).2.1)

theorem blockBytes_length {f : Nat} {mods : CvtMod} {vals : List FVal} {dead padded : List Nat} {p : Byte × List Byte}
    (h : blockBytes f mods vals dead padded = some p) : p.2.length = 4 * elemWidth f := by
  unfold blockBytes at h
  dsimp only at h
  split at h
  · cases h
    simp
  split at h
  · cases h
  · cases h
    simp [packBlock]

/-- The places of a block in a bundle (R16). -/
def scalePlace (u : SlotId) (off blk : Nat) : Nat :=
  scratchAddr u.core (off + blk)

def payloadPlace (u : SlotId) (off f blk : Nat) : Nat :=
  scratchAddr u.core (off + 8 + 4 * elemWidth f * blk)

/-- What storing a block changes. -/
structure BlockWritten (u : SlotId) (off f blk : Nat) (bytes : Option (Byte × List Byte)) (s t : State) : Prop where
  bytes : ∀ p, bytes = some p → loadByte t.mem (scalePlace u off blk) = p.1 ∧
    loadBytes t.mem (payloadPlace u off f blk) (4 * elemWidth f) = p.2
  but : BlockBut (scalePlace u off blk) (payloadPlace u off f blk) (4 * elemWidth f) s t
  lanes : ∀ w, getLanes t u w = getLanes s u w
  kept : CvtKept u [.mem, .regs, .cores] s t

/-- The window writes of one block. -/
def storeBlock (s : State) (u : SlotId) (off f blk : Nat) (p : Byte × List Byte) : State :=
  writeWindow (writeWindow s u.core (off + blk) [p.1]) u.core (off + 8 + 4 * elemWidth f * blk) p.2

theorem cvtStoreBlock_eq (s : State) (u : SlotId) (off f blk : Nat) (mods : CvtMod) (vals : List FVal) (dead padded : List Nat) :
    ∃ counts, cvtStoreBlock s u off f blk mods vals dead padded =
      match blockBytes f mods vals dead padded with
      | none => s
      | some p => cvtCountCore (storeBlock s u off f blk p) u counts := by
  unfold cvtStoreBlock blockBytes
  dsimp only
  split
  · exact ⟨{}, by simp only [cvtCountCore, if_true]; rfl⟩
  change ∃ counts, (if (blockLive vals dead padded).all Option.isNone then s else _) = _
  split
  · exact ⟨{}, rfl⟩
  · exact ⟨_, rfl⟩

theorem isBlock_bytes {f blk : Nat} (block : isBlock f = true) (number : blk < 8) :
    8 + 4 * elemWidth f * blk + 4 * elemWidth f ≤ unitBytes f := by
  have := Nat.mul_le_mul_left (4 * elemWidth f) (show blk ≤ 7 by omega)
  rw [unitBytes, if_pos block]
  omega

theorem storeBlock_written (s : State) (u : SlotId) {off f blk : Nat} (block : isBlock f = true)
    (inside : off + unitBytes f ≤ 0x100000) (number : blk < 8) {p : Byte × List Byte} (size : p.2.length = 4 * elemWidth f) :
    BlockWritten u off f blk (some p) s (storeBlock s u off f blk p) := by
  have fits := isBlock_bytes block number
  have run : storeBlock s u off f blk p =
      writeScratch (writeScratch s u.core (off + blk) [p.1]) u.core (off + 8 + 4 * elemWidth f * blk) p.2 := by
    rw [storeBlock, writeWindow_inScratch s _ _ _ (by rw [List.length_singleton]; omega),
      writeWindow_inScratch _ _ _ _ (by rw [size]; omega)]
  have stored : (storeBlock s u off f blk p).mem =
      storeBytes (storeBytes s.mem (scalePlace u off blk) [p.1]) (payloadPlace u off f blk) p.2 := by
    rw [run, writeScratch_mem, writeScratch_mem]
    rfl
  obtain ⟨scale, payload, but⟩ := blockStored stored (by simp only [scalePlace, payloadPlace, scratchAddr]; omega)
  rw [size] at payload but
  refine ⟨fun q hq => ?_, but, fun w => ?_, ?_⟩
  · cases hq
    exact ⟨scale, payload⟩
  · rw [run]
    exact getLanes_congr u (by rw [poison_slots (writeScratch_poison ..), poison_slots (writeScratch_poison ..)]) w
  · rw [run]
    exact (writeScratch_cvtKept s u _ _).join (writeScratch_cvtKept _ u _ _)

theorem cvtStoreBlock_gives (s : State) (u : SlotId) {off f blk : Nat} (block : isBlock f = true)
    (inside : off + unitBytes f ≤ 0x100000) (number : blk < 8) (mods : CvtMod) (vals : List FVal) (dead padded : List Nat) :
    BlockWritten u off f blk (blockBytes f mods vals dead padded) s (cvtStoreBlock s u off f blk mods vals dead padded) := by
  obtain ⟨counts, run⟩ := cvtStoreBlock_eq s u off f blk mods vals dead padded
  rw [run]
  cases bytes : blockBytes f mods vals dead padded with
  | none =>
    exact ⟨fun p hp => (nomatch hp), fun _ _ _ => rfl, fun _ => rfl, fun _ _ => rfl, rfl, fun _ => rfl, fun _ => .inr rfl, sameBut_refl _ _⟩
  | some p =>
    obtain ⟨at_, but, lanes, kept⟩ := storeBlock_written s u block inside number (blockBytes_length bytes)
    have counted := cvtCountCore_keeps' (storeBlock s u off f blk p) u counts
    have mem : (cvtCountCore (storeBlock s u off f blk p) u counts).mem = _ := (counted.rest.2 .mem).resolve_left (by decide)
    refine ⟨?_, ?_, fun w => (cvtCountCore_vregs ..).trans (lanes w), kept.join counted⟩
    · dsimp only
      rw [mem]
      exact at_
    · dsimp only
      rw [BlockBut, mem]
      exact but

/-! ## Both blocks -/

/-- A block of a bundle apart from another keeps its bytes. -/
theorem BlockBut.keeps {u : SlotId} {off f i j : Nat} {s t : State} (h : BlockBut (scalePlace u off j) (payloadPlace u off f j)
    (4 * elemWidth f) s t) (apart : i ≠ j) (hi : i < 8) (hj : j < 8) :
    loadByte t.mem (scalePlace u off i) = loadByte s.mem (scalePlace u off i) ∧
      loadBytes t.mem (payloadPlace u off f i) (4 * elemWidth f) = loadBytes s.mem (payloadPlace u off f i) (4 * elemWidth f) := by
  refine ⟨h _ ?_ ?_, List.map_congr_left fun k hk => h _ ?_ ?_⟩
  · simp only [scalePlace, scratchAddr]
    omega
  · simp only [scalePlace, payloadPlace, scratchAddr]
    omega
  · simp only [scalePlace, payloadPlace, scratchAddr]
    omega
  · have hk := List.mem_range.1 hk
    simp only [payloadPlace, scratchAddr]
    rcases Nat.lt_or_gt_of_ne apart with lt | lt
    · have := Nat.mul_le_mul_left (4 * elemWidth f) (show i + 1 ≤ j from lt)
      rw [Nat.mul_succ] at this
      omega
    · have := Nat.mul_le_mul_left (4 * elemWidth f) (show j + 1 ≤ i from lt)
      rw [Nat.mul_succ] at this
      omega

theorem inBlock_contains (l : List Nat) {b i : Nat} (hi : i < 32) : (inBlock l b).contains i = true ↔ 32 * b + i ∈ l := by
  simp only [inBlock, List.contains_iff_mem, List.mem_map, List.mem_filter, beq_iff_eq]
  constructor
  · rintro ⟨x, ⟨hx, place⟩, rest⟩
    rwa [show 32 * b + i = x by omega]
  · exact fun h => ⟨32 * b + i, ⟨h, by omega⟩, by omega⟩

/-- Block `b` of the values and the cover of a CVT is what `cvtLive` says. -/
theorem blockLive_cover (vals : List FVal) (cover : CvtCover) {b : Nat} {half : List FVal}
    (same : ∀ i, i < 32 → half.getD i .nan = vals.getD (32 * b + i) .nan) :
    blockLive half (inBlock cover.dead b) (inBlock cover.padded b) = cvtLive vals cover b := by
  refine List.map_congr_left fun i hi => ?_
  have hi := List.mem_range.1 hi
  simp only [Bool.or_eq_true, inBlock_contains _ hi, same i hi]

theorem allPadded_iff (cover : CvtCover) (b : Nat) :
    (List.range 32).all (inBlock cover.padded b).contains = true ↔ ∀ i, i < 32 → 32 * b + i ∈ cover.padded := by
  rw [List.all_eq_true]
  exact ⟨fun h i hi => (inBlock_contains _ hi).1 (h i (List.mem_range.2 hi)),
    fun h i hi => (inBlock_contains _ (List.mem_range.1 hi)).2 (h i (List.mem_range.1 hi))⟩

/-- The bytes of block `b` of a CVT. -/
def coverBytes (f : Nat) (mods : CvtMod) (vals : List FVal) (cover : CvtCover) (b : Nat) : Option (Byte × List Byte) :=
  blockBytes f mods (if b = 0 then vals.take 32 else vals.drop 32) (inBlock cover.dead b) (inBlock cover.padded b)

theorem half_getD (vals : List FVal) {b i : Nat} (hb : b < 2) (hi : i < 32) :
    (if b = 0 then vals.take 32 else vals.drop 32).getD i .nan = vals.getD (32 * b + i) .nan := by
  obtain rfl | rfl : b = 0 ∨ b = 1 := by omega
  · simp [List.getD, hi]
  · simp [List.getD, List.getElem?_drop]

theorem coverBytes_live (f : Nat) (mods : CvtMod) (vals : List FVal) (cover : CvtCover) {b : Nat} (hb : b < 2)
    (some_ : ∃ x ∈ cvtLive vals cover b, x ≠ none) : coverBytes f mods vals cover b =
      some (BitVec.ofNat 8 (cvtBlock f mods (cvtLive vals cover b)).1,
        packBlock (elemWidth f) (cvtBlock f mods (cvtLive vals cover b)).2.1) := by
  obtain ⟨x, hx, live⟩ := some_
  unfold coverBytes blockBytes
  rw [blockLive_cover vals cover fun i => half_getD vals hb]
  rw [if_neg, if_neg]
  · rw [List.all_eq_true]
    exact fun h => live (Option.isNone_iff_eq_none.1 (h x hx))
  · rw [allPadded_iff]
    intro h
    obtain ⟨i, hi, rfl⟩ := List.mem_map.1 hx
    exact live (if_pos (.inr (h i (List.mem_range.1 hi))))

theorem coverBytes_padded (f : Nat) (mods : CvtMod) (vals : List FVal) (cover : CvtCover) {b : Nat}
    (all : ∀ i, i < 32 → 32 * b + i ∈ cover.padded) :
    coverBytes f mods vals cover b = some (0, List.replicate (4 * elemWidth f) 0) := by
  unfold coverBytes blockBytes
  exact if_pos ((allPadded_iff cover b).2 all)

theorem cvtStore_bundle (s : State) (u : SlotId) {off f : Nat} (pair : Fin 4) (mods : CvtMod) (cover : CvtCover)
    (vals : List FVal) (block : isBlock f = true) (inside : off + unitBytes f ≤ 0x100000) :
    let t := cvtStore s u (.bundle off f pair) mods cover vals
    (∀ b, b < 2 → ∀ p, coverBytes f mods vals cover b = some p →
      loadByte t.mem (scalePlace u off (2 * pair.val + b)) = p.1 ∧
      loadBytes t.mem (payloadPlace u off f (2 * pair.val + b)) (4 * elemWidth f) = p.2) ∧
    BytesBut (scratchAddr u.core off) (unitBytes f) s t ∧ (∀ w, getLanes t u w = getLanes s u w) ∧
    CvtKept u [.mem, .regs, .cores] s t := by
  intro t
  have first := cvtStoreBlock_gives s u block inside (show 2 * pair.val + 0 < 8 by omega) mods (vals.take 32)
    (inBlock cover.dead 0) (inBlock cover.padded 0)
  obtain ⟨y, hy⟩ : ∃ y, y = cvtStoreBlock s u off f (2 * pair.val + 0) mods (vals.take 32) (inBlock cover.dead 0)
    (inBlock cover.padded 0) := ⟨_, rfl⟩
  have second := cvtStoreBlock_gives y u block inside (show 2 * pair.val + 1 < 8 by omega) mods (vals.drop 32)
    (inBlock cover.dead 1) (inBlock cover.padded 1)
  obtain ⟨z, hz⟩ : ∃ z, z = cvtStoreBlock y u off f (2 * pair.val + 1) mods (vals.drop 32) (inBlock cover.dead 1)
    (inBlock cover.padded 1) := ⟨_, rfl⟩
  have run : t = veDone z u.core 1 := by rw [hz, hy]; rfl
  rw [← hy] at first
  rw [← hz] at second
  have mem : t.mem = z.mem := by rw [run, veDone_mem]
  have done := veDone_kept z u 1
  rw [← run] at done
  refine ⟨fun b hb p hp => ?_, fun x hx => ?_, fun w => ?_, (first.kept.join (n := [.mem, .regs, .cores]) second.kept).join done⟩
  · rw [mem]
    obtain rfl | rfl : b = 0 ∨ b = 1 := by omega
    · obtain ⟨scale, payload⟩ := second.but.keeps (i := 2 * pair.val + 0) (by omega) (by omega) (by omega)
      rw [scale, payload]
      exact first.bytes p hp
    · exact second.bytes p hp
  · have fits0 := isBlock_bytes block (show 2 * pair.val + 0 < 8 by omega)
    have fits1 := isBlock_bytes block (show 2 * pair.val + 1 < 8 by omega)
    have header : 8 ≤ unitBytes f := by omega
    rw [mem]
    refine (second.but x ?_ ?_).trans (first.but x ?_ ?_) <;> simp only [scalePlace, payloadPlace, scratchAddr] at hx ⊢ <;> omega
  · exact (getLanes_congr (s := z) u (by rw [run, getSlot_congr (veDone_cores ..)]) w).trans
      ((second.lanes w).trans (first.lanes w))

/-! ## The instruction -/

section
variable {s : State} {u : SlotId} {src : CvtSrc} {dst : CvtDst} (works : VeWorks s u) (may : CvtMay s u src dst)
include works may

omit works in
theorem cvtPoison_clean : cvtPoison s u src = [] := by
  cases src with
  | bundle off f pair => exact poisonedIn_clean may.1 ..
  | reg v f => rfl
  | vat tile row => rfl

theorem veCvt_next (mods : CvtMod) (cover : CvtCover) : exec (.veCvt u src dst mods cover) s =
    .next (((cvtSource s u cover.padded src).map (cvtStore s u dst mods cover)).getD s) := by
  change execVeCvt u src dst mods cover s = _
  rw [execVeCvt, onWindow_next works may.2]
  cases cvtSource s u cover.padded src with
  | none => rfl
  | some vals =>
    dsimp only
    rw [cvtPoison_clean may]
    rfl

end

theorem cvt_int32 (mods : CvtMod) (v : FVal) : cvtScalar 0x05 mods v = cvtToInt 32 mods v := rfl

theorem decode_posInf : decodeF fp32 (0x7F800000 : Word).toNat = .inf false := by decide

theorem decode_negInf : decodeF fp32 (0xFF800000 : Word).toNat = .inf true := by decide

/-- Settles O29: a register takes the converted lanes, a bundle its two blocks one after the other, which lie apart. -/
theorem veConvert : Obligations.VeConvert := by
  unfold Obligations.VeConvert
  refine ⟨fun s u src dst mods cover => ⟨fun waits => ?_, fun works may => ⟨fun none => ?_, fun vals some_ => ⟨?_, ?_⟩⟩⟩,
    fun s u v dst mods cover works => ⟨cvt_gives rfl rfl s u v dst mods cover _ works fun k _ => ?_,
      cvt_gives rfl rfl s u v dst mods cover _ works fun k _ => int32_exact mods _,
      cvt_gives rfl rfl s u v dst mods cover _ works fun k _ => ?_⟩⟩
  · exact (WindowAs.mk (r := fun _ => cvtRanges src dst) fun _ => rfl).waits waits
  · rw [veCvt_next works may, none]
    rfl
  · rintro v f rfl
    exact ⟨_, (veCvt_next works may mods cover).trans (by rw [some_]; rfl), cvtStore_reg s u v f mods cover vals⟩
  · rintro off f pair rfl block inside
    obtain ⟨bytes, but, lanes, kept⟩ := cvtStore_bundle s u pair mods cover vals block inside
    refine ⟨_, (veCvt_next works may mods cover).trans (by rw [some_]; rfl), fun b hb => ⟨fun live => ?_, fun padded => ?_⟩,
      but, lanes, kept⟩
    · exact bytes b hb _ (coverBytes_live f mods vals cover hb live)
    · exact bytes b hb _ (coverBytes_padded f mods vals cover padded)
  · rw [decode_encode_fp32]
    have nan := decode_nan (fmt := .fp32) rfl (lane s u v k).toNat
    exact ⟨fun h => if_pos (nan.2 h), fun h => if_neg (mt nan.1 h)⟩
  · have nan := decode_nan (fmt := .fp32) rfl (lane s u v k).toNat
    have value : elemVal 0x01 (lane s u v k).toNat = decodeF fp32 (lane s u v k).toNat := rfl
    rw [cvt_int32, value]
    refine ⟨fun h => ?_, fun h => ?_, fun h => ?_⟩
    · rw [nan.2 h]
      rfl
    · rw [h, decode_posInf]
      rfl
    · rw [h, decode_negInf]
      rfl

end Sys2Proof.Safety

end

section
/-! Calibration: a window, a step of a descent, and the setpoints of the IDLE and ACTIVE points (R383 to R386). -/

-- one theorem after the other: proofs side by side would need more memory than the check allows
set_option Elab.async false

namespace Sys2Proof.Safety

open Sys2Proof.Machine

/-! ## CAL_WINDOW -/

section
variable {s : State} {seam : Fin 16} {load margin : Nat}

theorem calWindow_stopped (stopped : calRuns s seam.val = false) : exec (.calWindow seam load margin) s = .next s := by
  change execCalWindow seam load margin s = _
  rw [execCalWindow, calWindow, if_neg (by rw [stopped]; decide)]

variable (runs : calRuns s seam.val = true)
include runs

theorem calWindow_low (low : (windowNoted (getCal s seam.val) load margin).margin < 4) :
    exec (.calWindow seam load margin) s = .next (raiseVset s seam.val (windowNoted (getCal s seam.val) load margin)) := by
  change execCalWindow seam load margin s = _
  rw [execCalWindow, calWindow_eq load margin runs]
  exact congrArg Host.Outcome.next (if_pos low)

theorem calWindow_kept (above : 4 ≤ (windowNoted (getCal s seam.val) load margin).margin) :
    let c := windowNoted (getCal s seam.val) load margin
    exec (.calWindow seam load margin) s = .next (match c.descent with
      | some .full => if decide (75 ≤ c.load) && decide (c.margin < 8) then endDescent s seam.val c else setCal s seam.val c
      | some .light => if decide (c.load ≤ 25) && decide (c.margin < 8) then endDescent s seam.val c else setCal s seam.val c
      | none =>
        if !c.idle && fullEntry c == 0 && decide (windowsPerSecond ≤ c.highWindows) then
          setCal s seam.val (beginDescent s seam.val c .full)
        else setCal s seam.val c) := by
  intro c
  change execCalWindow seam load margin s = _
  rw [execCalWindow, calWindow_eq load margin runs]
  exact congrArg Host.Outcome.next (if_neg (by change ¬ c.margin < 4; exact Nat.not_lt.2 above))

end

/-- VSEAM raised after a window below the floor (R386). -/
theorem raiseVset_gives (s : State) (m : Nat) (c : CalState) : let t := raiseVset s m c
    let b := calRegBase m
    let v := min 850 (c.vset + 10)
    CalIs m { c with
      descent := none, heldMv := 0, steps := 0, vset := v, full := tset c.full 0 c.band 0, guard := c.guard || !c.idle,
      highWindows := 0 } s t ∧
    Counted (b + Ctr.CAL_LOW_CNT) 1 s t ∧
    RegsAs (let z := raise (count s b Ctr.CAL_LOW_CNT 1) b Flag.cal_MARGIN_LOW
      if v = 850 then raise (raise z b Flag.cal_AT_MAX) imgBase Flag.img_CAL_AT_MAX else z) t ∧ SameBut [.regs, .cals] s t := by
  intro t b v
  obtain ⟨y, hy⟩ : ∃ y, y = raise (count (setCal s m { c with
      descent := none, heldMv := 0, steps := 0, vset := v, full := tset c.full 0 c.band 0, guard := c.guard || !c.idle,
      highWindows := 0 }) b Ctr.CAL_LOW_CNT 1) b Flag.cal_MARGIN_LOW := ⟨_, rfl⟩
  have run : t = if v = 850 then raise (raise y b Flag.cal_AT_MAX) imgBase Flag.img_CAL_AT_MAX else y := by rw [hy]; rfl
  have regs : y.regs = (raise (count s b Ctr.CAL_LOW_CNT 1) b Flag.cal_MARGIN_LOW).regs := by
    rw [hy]
    exact raise_regs_congr (count_regs_congr (setCal_regs ..) ..) ..
  have counted : Counted (b + Ctr.CAL_LOW_CNT) 1 s y := by
    rw [Counted, rawReg_congr regs, rawReg_raise_other _ (by simp [Ctr.CAL_LOW_CNT, Flag.cal_MARGIN_LOW]), rawReg_count_self]
  have same : SameBut [.regs, .cals] s t := (raiseVset_keeps (P := (· ∈ [.regs, .cals])) (.refl s) m c (Can.all _)).sameBut
  have cals : y.cals = (setCal s m { c with
      descent := none, heldMv := 0, steps := 0, vset := v, full := tset c.full 0 c.band 0, guard := c.guard || !c.idle,
      highWindows := 0 }).cals := by rw [hy, raise_cals, count_cals]
  by_cases top : v = 850
  · rw [if_pos top] at run
    refine ⟨calIs_of (by rw [run, raise_cals, raise_cals, cals]), ?_, ?_, same⟩
    · rw [Counted, run, rawReg_raise_other _ ?_, rawReg_raise_other _ (by simp [Ctr.CAL_LOW_CNT, Flag.cal_AT_MAX])]
      · exact counted
      · simp only [b, calRegBase, seamRegBase, imgBase, Ctr.CAL_LOW_CNT, Flag.img_CAL_AT_MAX]
        omega
    · rw [RegsAs, run]
      dsimp only
      rw [if_pos top]
      exact raise_regs_congr (raise_regs_congr regs ..) ..
  · rw [if_neg top] at run
    refine ⟨calIs_of (by rw [run, cals]), run ▸ counted, ?_, same⟩
    rw [RegsAs, run]
    dsimp only
    rw [if_neg top]
    exact regs

/-! ## CAL_DESCENT_STEP, SEAM_IDLE and SEAM_WAKE -/

theorem descentStep_pauses {s : State} {m : Nat} {held : Bool}
    (pauses : (getCal s m).descent = none ∨ ((getCal s m).descent = some .full ∧ (getCal s m).idle = true)) :
    descentStep s m held = s := by
  unfold descentStep
  rcases pauses with none | ⟨full, idle⟩
  · simp only [none]
  · simp only [full]
    rw [if_pos (by simp [idle])]

theorem descentStep_runs {s : State} {m : Nat} {d : Descent} (descends : (getCal s m).descent = some d)
    (runs : ¬ (d = .full ∧ (getCal s m).idle = true)) (held : Bool) : let c := getCal s m
    descentStep s m held =
      if held = false then endDescent s m c
      else if (d = .full ∧ 16 ≤ c.steps) ∨ c.vset < 652 then endDescent s m { c with heldMv := c.vset }
      else setCal s m { c with heldMv := c.vset, vset := c.vset - 2, steps := c.steps + 1 } := by
  intro c
  unfold descentStep
  simp only [descends]
  rw [if_neg (by simpa using runs)]
  cases held with
  | false => rfl
  | true =>
    simp only [Bool.not_true, Bool.false_eq_true, if_false, reduceCtorEq]
    refine ite_congr (propext ?_) (fun _ => by rw [← descends]) fun _ => by rw [← descends]
    rw [Bool.or_eq_true, Bool.and_eq_true, decide_eq_true_iff, decide_eq_true_iff]
    exact or_congr Iff.rfl decide_eq_true_iff

theorem seamIdle_gives {s : State} {m : Nat} (active : (getCal s m).idle = false) (still : seamCharging s m = false)
    (runs : calRuns s m = true) : let c := getCal s m
    seamIdle s m = setCal s m (seekLight s m { c with idle := true, waking := false, vset := idleSet s m c, guard := false }) := by
  unfold seamIdle
  rw [if_neg (by simp [active, still, runs])]

theorem seekLight_seeks {s : State} {m : Nat} {c : CalState} (idle : c.idle = true) (none : c.descent = none)
    (dark : lightEntry c = 0) : seekLight s m c = beginDescent s m c .light := by
  unfold seekLight
  rw [if_pos (by simp [idle, none, dark])]

theorem seekLight_stays {s : State} {m : Nat} {c : CalState} (h : lightEntry c ≠ 0 ∨ c.descent ≠ none) : seekLight s m c = c := by
  unfold seekLight
  rw [if_neg]
  rcases h with h | h
  · simp [h]
  · simp [h]

theorem wakeSet_eq (s : State) (m : Nat) (c : CalState) : wakeSet s m c =
    if c.descent = some .full then { c with
      idle := false, waking := false, vset := max (calFactory s m c.band) (lightEntry c) + 6 - 2 * c.steps, guard := true }
    else setpoint s m { c with idle := false, waking := false, descent := none, heldMv := 0, steps := 0 } := by
  unfold wakeSet
  cases h : c.descent with
  | none => rfl
  | some d => cases d <;> rfl

theorem wakeSet_congr {s t : State} (h : t.pwr = s.pwr) (m : Nat) (c : CalState) : wakeSet t m c = wakeSet s m c := by
  have factory (b : Nat) : calFactory t m b = calFactory s m b := by rw [calFactory, calFactory, h]
  rw [wakeSet_eq, wakeSet_eq]
  simp only [setpoint, idleSet, guardSet, factory]

theorem seamWake_gives {s : State} {m : Nat} (idle : (getCal s m).idle = true) : let c := getCal s m
    let t := seamWake s m
    Counted (calRegBase m + Ctr.CAL_WAKE_CNT) (if c.waking then 0 else 1) s t ∧ RegsBut [calRegBase m + Ctr.CAL_WAKE_CNT] s t ∧
      CalIs m (wakeSet s m c) s t ∧ SameBut [.regs, .cals] s t := by
  intro c t
  obtain ⟨y, hy⟩ : ∃ y, y = if c.waking then s else count s (calRegBase m) Ctr.CAL_WAKE_CNT 1 := ⟨_, rfl⟩
  have run : t = setCal y m (wakeSet y m c) := by
    rw [hy]
    exact if_pos idle
  have wake : wakeSet y m c = wakeSet s m c := by
    refine wakeSet_congr ?_ m c
    rw [hy]
    split
    · rfl
    · exact count_pwr ..
  have regs (a : Nat) : rawReg t a = rawReg y a := rawReg_congr (by rw [run, setCal_regs]) a
  have cals : y.cals = s.cals := by
    rw [hy]
    split
    · rfl
    · exact count_cals ..
  refine ⟨?_, fun a => ?_, calIs_of (by rw [run, wake, setCal, setCal, cals]), ?_⟩
  · rw [Counted, regs, hy]
    split
    · exact (satAdd_zero _).symm
    · exact rawReg_count_self ..
  · rw [regs, hy]
    split
    · exact .inr rfl
    · exact (Classical.em (a = calRegBase m + Ctr.CAL_WAKE_CNT)).imp List.mem_singleton.2 (rawReg_count_other s)
  · exact (seamWake_keeps (P := (· ∈ [.regs, .cals])) (.refl s) m (Can.all _)).sameBut

/-- What a window at or above the floor does to a descent that it does not end. -/
theorem calWindow_descends {s : State} {seam : Fin 16} {load margin : Nat} (runs : calRuns s seam.val = true)
    (above : 4 ≤ (windowNoted (getCal s seam.val) load margin).margin) {d : Descent} :
    let c := windowNoted (getCal s seam.val) load margin
    c.descent = some d → (8 ≤ c.margin ∨ (d = .full ∧ c.load < 75) ∨ (d = .light ∧ 25 < c.load)) →
    exec (.calWindow seam load margin) s = .next (setCal s seam.val c) := by
  intro c descends stays
  refine (calWindow_kept runs above).trans (congrArg Host.Outcome.next ?_)
  simp only [show (windowNoted (getCal s seam.val) load margin).descent = some d from descends]
  cases d with
  | full =>
    refine if_neg ?_
    simp only [Bool.and_eq_true, decide_eq_true_eq]
    rcases stays with wide | ⟨-, low⟩ | ⟨other, -⟩
    · exact fun h => Nat.not_lt.2 wide h.2
    · exact fun h => Nat.not_lt.2 h.1 low
    · cases other
  | light =>
    refine if_neg ?_
    simp only [Bool.and_eq_true, decide_eq_true_eq]
    rcases stays with wide | ⟨other, -⟩ | ⟨-, high⟩
    · exact fun h => Nat.not_lt.2 wide h.2
    · cases other
    · exact fun h => Nat.not_lt.2 h.1 high

/-- What a window at or above the floor does with no descent running. -/
theorem calWindow_rests {s : State} {seam : Fin 16} {load margin : Nat} (runs : calRuns s seam.val = true)
    (above : 4 ≤ (windowNoted (getCal s seam.val) load margin).margin) :
    let c := windowNoted (getCal s seam.val) load margin
    c.descent = none → exec (.calWindow seam load margin) s = .next
      (if c.idle = false ∧ fullEntry c = 0 ∧ 100000 ≤ c.highWindows then
        setCal s seam.val (beginDescent s seam.val c .full) else setCal s seam.val c) := by
  intro c none
  refine (calWindow_kept runs above).trans (congrArg Host.Outcome.next ?_)
  simp only [show (windowNoted (getCal s seam.val) load margin).descent = .none from none]
  refine ite_congr (propext ?_) (fun _ => rfl) fun _ => rfl
  rw [Bool.and_eq_true, Bool.and_eq_true, Bool.not_eq_true', beq_iff_eq, and_assoc]
  exact and_congr Iff.rfl (and_congr Iff.rfl decide_eq_true_iff)

theorem setpoint_vset (s : State) (m : Nat) (x : CalState) :
    (x.idle = true → (setpoint s m x).vset = (if lightEntry x = 0 then calFactory s m x.band else lightEntry x) ∧
      (setpoint s m x).guard = false) ∧
    (x.idle = false → fullEntry x ≠ 0 → (setpoint s m x).vset = fullEntry x ∧ (setpoint s m x).guard = false) ∧
    (x.idle = false → fullEntry x = 0 → (setpoint s m x).vset = max (calFactory s m x.band) (lightEntry x) + 6 ∧
      (setpoint s m x).guard = true) := by
  refine ⟨fun idle => ?_, fun active entry => ?_, fun active noEntry => ?_⟩
  · rw [setpoint, if_pos idle]
    exact ⟨rfl, rfl⟩
  · rw [setpoint, if_neg (by simp [active]), if_neg entry]
    exact ⟨rfl, rfl⟩
  · rw [setpoint, if_neg (by simp [active]), if_pos noEntry]
    exact ⟨rfl, rfl⟩

/-- Settles O43: each command comes down to one calibration of the seam, by the branches of R384 to R386. -/
theorem calibration : Obligations.Calibration := by
  unfold Obligations.Calibration
  refine ⟨fun s seam load margin => ?_, fun s seam => ?_⟩
  · intro m b c
    refine ⟨calWindow_stopped, fun runs low => ⟨_, calWindow_low runs low, raiseVset_gives s m c⟩,
      fun runs above below => ⟨fun full high => ?_, fun light low => ?_⟩,
      fun runs above => ⟨fun d descends stays => givesCal (calWindow_descends runs above descends stays),
        fun none => ⟨fun rests => ?_, fun full => ?_⟩⟩⟩
    · refine endsDescent ((calWindow_kept runs above).trans ?_)
      simp only [show (windowNoted (getCal s seam.val) load margin).descent = some .full from full]
      exact congrArg Host.Outcome.next (if_pos (Bool.and_eq_true_iff.2 ⟨decide_eq_true high, decide_eq_true below⟩))
    · refine endsDescent ((calWindow_kept runs above).trans ?_)
      simp only [show (windowNoted (getCal s seam.val) load margin).descent = some .light from light]
      exact congrArg Host.Outcome.next (if_pos (Bool.and_eq_true_iff.2 ⟨decide_eq_true low, decide_eq_true below⟩))
    · exact givesCal ((calWindow_rests runs above none).trans (congrArg _ (if_neg rests)))
    · exact givesCal ((calWindow_rests runs above none).trans (congrArg _ (if_pos full)))
  · intro m c
    refine ⟨setpoint_vset s m, fixDescent_gives s m, fun held pauses => congrArg _ (descentStep_pauses pauses),
      fun d descends runs => ⟨endsDescent ?_, fun last => endsDescent ?_, fun more => givesCal ?_⟩, fun h => ?_,
      fun active still runs => ⟨fun kept => givesCal ?_, fun dark none => givesCal ?_⟩, fun active => ?_,
      fun idle => ?_⟩
    · exact congrArg Host.Outcome.next ((descentStep_runs descends runs false).trans (if_pos rfl))
    · exact congrArg Host.Outcome.next
        ((descentStep_runs descends runs true).trans ((if_neg (by decide)).trans (if_pos last)))
    · exact congrArg Host.Outcome.next
        ((descentStep_runs descends runs true).trans ((if_neg (by decide)).trans (if_neg more)))
    · refine congrArg Host.Outcome.next (if_pos ?_)
      rw [Bool.or_eq_true, Bool.or_eq_true, Bool.not_eq_true', or_assoc]
      exact h
    · exact congrArg Host.Outcome.next ((seamIdle_gives active still runs).trans (congrArg _ (seekLight_stays kept)))
    · exact congrArg Host.Outcome.next ((seamIdle_gives active still runs).trans (congrArg _ (seekLight_seeks rfl none dark)))
    · exact congrArg Host.Outcome.next (if_neg (by rw [active]; decide))
    · obtain ⟨counted, regs, cal, same⟩ := seamWake_gives (s := s) (m := m) idle
      exact ⟨_, rfl, counted, regs, wakeSet_eq s m c ▸ cal, same⟩

end Sys2Proof.Safety

end

section
/-! Fences, reports to the deputy, stalled cores and the tests of arrays (R125, R127, R316, R333 to R335). -/

-- one theorem after the other: proofs side by side would need more memory than the check allows
set_option Elab.async false

namespace Sys2Proof.Safety

open Sys2Proof.Machine

/-- Settles O44: each report comes down to the fence of its unit. -/
theorem fences : Obligations.Fences := by
  unfold Obligations.Fences
  intro s on f
  have can := Can.all fenceParts
  refine ⟨fun a fenced => ?_, fun a free => ?_, fun a fenced => ?_, fun a => ?_, fun m fenced => ?_,
    fun m free => ?_, fun q => ?_, fun m free => ?_, fun m fenced => ?_⟩
  · exact (execFault on _).trans (congrArg Host.Outcome.next (if_pos fenced))
  · obtain ⟨fence, tiles⟩ := fenceArray_gives true free
    exact ⟨_, execFault on _, fence, tiles, (fenceArray_keeps (P := (· ∈ fenceParts)) (.refl s) a true).sameBut⟩
  · exact (execFault on _).trans (congrArg Host.Outcome.next (if_pos fenced))
  · intro c free few
    obtain ⟨fence, empty⟩ := fenceCore_gives free few
    exact ⟨_, execFault on _, fence, empty, (fenceCore_keeps (P := (· ∈ fenceParts)) (.refl s) a.core).sameBut⟩
  · exact (execFault on _).trans (congrArg Host.Outcome.next (if_pos fenced))
  · obtain ⟨fence, aclk, kclk, others, empty⟩ := fenceSeam_gives free
    exact ⟨_, execFault on _, fence, aclk, kclk, others, empty,
      (fenceSeam_keeps (P := (· ∈ fenceParts)) (.refl s) m).sameBut⟩
  · rw [execFault on, execFault on]
    rfl
  · exact ⟨_, execFault on _, fenceDram_gives free⟩
  · exact (execFault on _).trans (congrArg Host.Outcome.next (if_pos fenced))

/-! ## Reports -/

/-- A fault of class CONTAINED counts in DEP_CONTAINED_CNT. -/
theorem counted_logFault (s : State) (level seam core unit : Nat) :
    Counted (depBase + Ctr.DEP_CONTAINED_CNT) 1 s (logFault s 1 level seam core unit) := by
  unfold logFault
  extract_lets s1 s2 s3
  have kept : rawReg s3 (depBase + Ctr.DEP_CONTAINED_CNT) = rawReg s (depBase + Ctr.DEP_CONTAINED_CNT) := by
    rw [rawReg_setRawReg_other _ _ (by decide), rawReg_setRawReg_other _ _ (by decide), rawReg_setRawReg_other _ _ (by decide)]
  rw [if_pos rfl, Counted, rawReg_count_self, kept]

/-- A report that the deputy hears keeps every granule where it is. -/
theorem granuleHeld_logFault (s : State) (m : Table (List Time)) (cls level seam core unit g : Nat) :
    granuleHeld (logFault { s with dep := { s.dep with dramUes := m } } cls level seam core unit) g = granuleHeld s g := by
  unfold granuleHeld
  rw [logFault_dep]

theorem moduleOut_reported {s : State} (on : s.pwr.phase ≠ .off) {r : FaultReport}
    (report : (∃ m, r = .fabric m) ∨ r = .hubUe ∨ r = .hubPll ∨ r = .thermalTrip) :
    exec (.faultEvent r) s = .next (moduleOut s) := by
  rcases report with ⟨m, rfl⟩ | rfl | rfl | rfl <;> exact execFault on _

theorem loseCopy_sameBut (s : State) (second : Bool) : SameBut [.regs, .dep, .jnl] s (loseCopy s second) :=
  (loseCopy_keeps (P := (· ∈ [.regs, .dep, .jnl])) (.refl s) second (Can.all _)).sameBut

theorem keeps_phase {P : Part → Prop} {s t : State} (k : Keeps P s t) (h : ¬ P .pwr) : t.pwr.phase = s.pwr.phase := by
  have same := k.field .pwr h
  simp only [Part.same] at same
  exact (congrArg Power.phase same :)

/-- Settles O45, report by report. -/
theorem faultReports : Obligations.FaultReports := by
  unfold Obligations.FaultReports
  refine fun s => ⟨fun off r => congrArg Host.Outcome.next (if_pos off), fun on => ⟨?_, fun a => ?_, fun a => ?_, fun u => ?_,
    fun c => ?_, fun c off host => ?_, fun m => ?_, fun r report => ?_, fun second => ?_⟩⟩
  · exact ⟨_, execFault on _, rawReg_count_self .., fun a =>
      (Classical.em (a = depBase + Ctr.DEP_CORRECTED_CNT)).imp List.mem_singleton.2 (rawReg_count_other s), count_same ..⟩
  · have can := Can.all [.regs]
    exact ⟨_, execFault on _, faultLogged_logFault .., counted_logFault ..,
      (logFault_keeps (P := (· ∈ [.regs])) (.refl s) 1 0 a.core.seam.val a.core.core.val a.array.val).sameBut⟩
  · exact ⟨fun few => (execFault on _).trans (congrArg Host.Outcome.next (if_neg (Nat.not_le.2 few))),
      fun many => (execFault on _).trans (congrArg Host.Outcome.next (if_pos many))⟩
  · exact ⟨fun few => (execFault on _).trans (congrArg Host.Outcome.next (if_neg (Nat.not_le.2 few))),
      fun many => (execFault on _).trans (congrArg Host.Outcome.next (if_pos many))⟩
  · exact ⟨fun few => (execFault on _).trans (congrArg Host.Outcome.next (if_neg (Nat.not_le.2 few))),
      fun many => (execFault on _).trans (congrArg Host.Outcome.next (if_pos many))⟩
  · intro k l z
    have lost : loseGranule (logFault { s with dep := { s.dep with dramUes := tset s.dep.dramUes [] k l } } 2 3 c.seam.val
        c.chan.val 0) c.seam.val off = z := by
      rw [loseGranule, if_pos host, granuleHeld_logFault]
    refine ⟨fun few => (execFault on _).trans (congrArg Host.Outcome.next ?_),
      fun many => (execFault on _).trans (congrArg Host.Outcome.next ?_)⟩
    · exact (if_neg (Nat.not_le.2 few)).trans lost
    · exact (if_pos many).trans (congrArg (fenceChan · c) lost)
  · have kept : (restartSequencer s m.val).pwr.phase = s.pwr.phase := keeps_phase
      (restartSequencer_keeps (P := (· ∈ [.regs, .counters])) (.refl s) m.val (Can.all _)) (by decide)
    rw [execFault on, execFault (by rw [kept]; exact on)]
    rfl
  · exact ⟨_, moduleOut_reported on report, moduleOut_gives s⟩
  · obtain ⟨none, lost⟩ := loseCopy_gives s second
    refine ⟨fun gone => (execFault on _).trans (congrArg Host.Outcome.next (none gone)), fun has => ?_⟩
    obtain ⟨jnl, single, out⟩ := lost has
    exact ⟨_, execFault on _, jnl, single, out, loseCopy_sameBut s second⟩

/-- Settles O46. -/
theorem coreAndArrayTests : Obligations.CoreAndArrayTests := by
  unfold Obligations.CoreAndArrayTests
  refine ⟨fun s c => ⟨stalled_iff s c, fun runs => ?_, fun stall => congrArg Host.Outcome.next (if_pos stall)⟩, fun s a => ?_⟩
  · exact congrArg Host.Outcome.next (if_neg (by rw [runs]; decide))
  · intro x
    refine ⟨fun busy => congrArg Host.Outcome.next (if_neg (by rw [busy]; decide)), fun idle => ?_, fun rests failing => ?_,
      fun tests => ?_⟩
    · exact ⟨_, congrArg Host.Outcome.next (if_pos idle), arrayIs_of rfl, (setArray_keeps (P := (· ∈ [.arrays])) (.refl s) _ _ (Can.all _)).sameBut⟩
    · exact congrArg Host.Outcome.next (if_neg (by rw [show (getArray s a).testing = false from rests]; decide))
    · obtain ⟨z, hz⟩ : ∃ z, z = setArray s a { x with testing := false } := ⟨_, rfl⟩
      have regs : z.regs = s.regs := by rw [hz, setArray_regs]
      have counted (a : Nat) : rawReg z a = rawReg s a := rawReg_congr regs a
      refine ⟨count z (arrRegBase a) Ctr.ARR_TEST_CNT 1, ?_, ?_, ?_, ?_, ?_, ?_⟩
      · exact arrayIs_of (by rw [count_arrays, hz])
      · rw [Counted, rawReg_count_self, counted]
      · exact fun r => (Classical.em (r = arrRegBase a + Ctr.ARR_TEST_CNT)).imp List.mem_singleton.2 fun other =>
          (rawReg_count_other z other).trans (counted r)
      · have can := Can.all [.regs, .arrays]
        rw [hz]
        exact (count_keeps (P := (· ∈ [.regs, .arrays])) (setArray_keeps (.refl s) ..) ..).sameBut
      · subst hz; exact congrArg Host.Outcome.next (if_pos tests)
      · subst hz; exact congrArg Host.Outcome.next (if_pos tests)

end Sys2Proof.Safety

end

section
/-! Clock domains: stops, starts and resets, the replicas of the local counter, DCLK and the PLLs (R314 to R322). -/

-- one theorem after the other: proofs side by side would need more memory than the check allows
set_option Elab.async false

namespace Sys2Proof.Safety

open Sys2Proof.Machine

/-! ## The queue of requests moved on -/

theorem bitSet_raise_any {s : State} {a k : Nat} (set : BitSet a k s) (b : Nat) (f : Nat × Nat) : BitSet a k (raise s b f) := by
  by_cases here : a = b + f.1
  · subst here
    rw [BitSet, rawReg_raise_self, BitVec.getLsbD_or, show (rawReg s (b + f.1)).getLsbD k = true from set, Bool.true_or]
  · rw [BitSet, rawReg_raise_other _ here]
    exact set

theorem answerMgmt_abandoned {s : State} (set : BitSet Flag.ident_ABANDONED.1 Flag.ident_ABANDONED.2 s) (r : MgmtFrame) (st : Nat)
    (b : List Byte) : BitSet Flag.ident_ABANDONED.1 Flag.ident_ABANDONED.2 (answerMgmt s r st b) := by
  unfold answerMgmt
  dsimp only
  split
  · refine bitSet_raise_any ?_ ..
    rw [BitSet, rawReg_count_other _ (by decide)]
    exact set
  · exact set

theorem answerMgmt_abandonCount (s : State) (r : MgmtFrame) (b : List Byte) :
    rawReg (answerMgmt s r stBadRequest b) Ctr.MG_ABANDON_CNT = rawReg s Ctr.MG_ABANDON_CNT :=
  ((badAnswer (b := b) (r := r) rfl).2.2 Ctr.MG_ABANDON_CNT).resolve_left (by decide)

/-- The requests that name no operation are answered from the front on, and nothing else of the port changes. -/
theorem answerUnknown_gives (q : List MgmtFrame) (s : State) : let r := answerUnknown q s
    FrontKnown r.1 ∧ (∃ l, r.2.port = { s.port with txQueue := s.port.txQueue ++ l }) ∧
    rawReg r.2 Ctr.MG_ABANDON_CNT = rawReg s Ctr.MG_ABANDON_CNT ∧
    (BitSet Flag.ident_ABANDONED.1 Flag.ident_ABANDONED.2 s → BitSet Flag.ident_ABANDONED.1 Flag.ident_ABANDONED.2 r.2) := by
  induction q generalizing s with
  | nil =>
    refine ⟨fun r front => ?_, ⟨[], ?_⟩, rfl, id⟩
    · cases front
    · rw [List.append_nil]
      rfl
  | cons r rest ih =>
    unfold answerUnknown
    split
    case isTrue known =>
      refine ⟨fun x front => ?_, ⟨[], ?_⟩, rfl, id⟩
      · cases front
        exact known
      · rw [List.append_nil]
    case isFalse unknown =>
      obtain ⟨front, ⟨l, port⟩, counter, flag⟩ := ih (answerMgmt s r stBadRequest [])
      rw [answerMgmt_port] at port
      exact ⟨front, ⟨_ :: l, port.trans (by rw [List.append_assoc]; rfl)⟩, counter.trans (answerMgmt_abandonCount ..),
        fun set => flag (answerMgmt_abandoned set ..)⟩

theorem settleQueue_gives {s : State} (free : s.port.held = none) : let t := settleQueue s
    FrontKnown t.port.mgmtQueue ∧ (∃ l, t.port.txQueue = s.port.txQueue ++ l) ∧ t.port.held = none ∧
    rawReg t Ctr.MG_ABANDON_CNT = rawReg s Ctr.MG_ABANDON_CNT ∧
    (BitSet Flag.ident_ABANDONED.1 Flag.ident_ABANDONED.2 s → BitSet Flag.ident_ABANDONED.1 Flag.ident_ABANDONED.2 t) := by
  obtain ⟨front, ⟨l, port⟩, counter, flag⟩ := answerUnknown_gives s.port.mgmtQueue s
  have run : settleQueue s = withQueue (answerUnknown s.port.mgmtQueue s).2 (answerUnknown s.port.mgmtQueue s).1 :=
    if_neg (by rw [free]; decide)
  rw [run]
  exact ⟨front, ⟨l, congrArg Port.txQueue port⟩, (congrArg Port.held port).trans free, counter, flag⟩

/-! ## Held accesses abandoned -/

theorem abandonIn_none {s : State} {d : DomainId} (h : ∀ h, s.port.held = some h → heldIn d h = false) : abandonIn s d = s := by
  unfold abandonIn
  split
  · rename_i x held
    rw [if_neg (by rw [h x held]; decide)]
  · rfl

theorem mgmtAnswer_congr {s t : State} {ps : List Part} (same : SameBut ps s t) (time : .time ∉ ps) (pwr : .pwr ∉ ps) (r : MgmtFrame)
    (st : Nat) (b : List Byte) : mgmtAnswer t r st b = mgmtAnswer s r st b := by
  have now : t.clk.now = s.clk.now := (Prod.mk.inj ((same.2 .time).resolve_left time)).1
  have config : t.pwr.config = s.pwr.config := by
    have power := (same.2 .pwr).resolve_left pwr
    simp only [Part.same] at power
    exact (congrArg Power.config power :)
  unfold mgmtAnswer answerMac
  rw [now, config]

theorem abandonIn_held {s : State} {d : DomainId} {h : HeldAccess} (held : s.port.held = some h) (inside : heldIn d h = true) :
    let t := abandonIn s d
    t.port.held = none ∧ Counted Ctr.MG_ABANDON_CNT 1 s t ∧ BitSet Flag.ident_ABANDONED.1 Flag.ident_ABANDONED.2 t ∧
    (∃ l, t.port.txQueue = s.port.txQueue ++ mgmtAnswer s h.req 4 (accessBody h.req h.at_ h.words) :: l) ∧
    FrontKnown t.port.mgmtQueue ∧ SameBut [.regs, .txQueue, .mgmt] s t := by
  intro t
  obtain ⟨v, port, counter, flag, -, vSame, run⟩ := abandon_gives s h
  obtain ⟨y, hy⟩ : ∃ y, y = finishMgmt v h.req 4 (accessBody h.req h.at_ h.words) := ⟨_, rfl⟩
  have settled : t = settleQueue y := by
    rw [hy, ← run]
    change abandonIn s d = _
    unfold abandonIn
    rw [held]
    exact if_pos inside
  have done : Finished h.req 4 (accessBody h.req h.at_ h.words) v y := hy ▸ finish_gives v h.req 4 _
  have regs (a : Nat) : rawReg y a = rawReg v a := rawReg_congr (done.good (by decide)) a
  have answer : mgmtAnswer v h.req 4 (accessBody h.req h.at_ h.words) = mgmtAnswer s h.req 4 (accessBody h.req h.at_ h.words) :=
    mgmtAnswer_congr vSame (by decide) (by decide) ..
  have queue : y.port.txQueue = s.port.txQueue ++ [mgmtAnswer s h.req 4 (accessBody h.req h.at_ h.words)] := by
    rw [done.port, port, answer]
  have free : y.port.held = none := by rw [done.port, port]
  obtain ⟨front, ⟨l, sent⟩, freed, kept, flagged⟩ := settleQueue_gives free
  rw [← settled] at front sent freed kept flagged
  refine ⟨freed, ?_, flagged ?_, ⟨l, ?_⟩, front, ?_⟩
  · rw [Counted, kept, regs]
    exact counter
  · rw [BitSet, regs]
    exact flag
  · rw [sent, queue, List.append_assoc]
    rfl
  · exact (abandonIn_keeps (P := (· ∈ [.regs, .txQueue, .mgmt])) (.refl s) d (Can.all _)).sameBut

/-! ## Replicas and DCLK -/

theorem replicas_sameBut (s : State) (l : Table Replica) : SameBut [.clk] s { s with clk := { s.clk with replicas := l } } := by
  have can := Can.all [.clk]
  exact (Keeps.upd (.refl s) rfl rfl rfl).sameBut

theorem dclkLocked_sameBut (s : State) (b : Bool) : SameBut [.clk] s { s with clk := { s.clk with dclkLocked := b } } := by
  have can := Can.all [.clk]
  exact (Keeps.upd (.refl s) rfl rfl rfl).sameBut

theorem dclkDead_sameBut (s : State) (b : Bool) : SameBut [.clk] s { s with clk := { s.clk with dclkDead := b } } := by
  have can := Can.all [.clk]
  exact (Keeps.upd (.refl s) rfl rfl rfl).sameBut

section
variable {s : State} {k : Fin 34} {r : Time}

theorem replicaCompare_rests (h : ¬ (s.clk.dclkLocked = true ∧ isLiveDom s (replicaDomain k.val) = true)) :
    exec (.replicaCompare k r) s = .next s :=
  congrArg Host.Outcome.next (if_neg fun works => h (Bool.and_eq_true_iff.1 works))

variable (works : s.clk.dclkLocked = true ∧ isLiveDom s (replicaDomain k.val) = true)
include works

theorem replicaCompare_near (near : (if r ≤ s.clk.now then s.clk.now - r else r - s.clk.now) ≤ 8) :
    ∃ t, exec (.replicaCompare k r) s = .next t ∧
      t.clk = { s.clk with replicas := tset s.clk.replicas {} k.val { value := r, held := false } } ∧ SameBut [.clk] s t :=
  ⟨{ s with clk := { s.clk with replicas := tset s.clk.replicas {} k.val { value := r, held := false } } },
    congrArg Host.Outcome.next ((if_pos (Bool.and_eq_true_iff.2 works)).trans (if_pos ((timeGap_le ..).2 near))), rfl,
    replicas_sameBut ..⟩

theorem replicaCompare_far (far : ¬ (if r ≤ s.clk.now then s.clk.now - r else r - s.clk.now) ≤ 8) :
    ∃ t, exec (.replicaCompare k r) s = .next t ∧
      t.clk = { s.clk with replicas := tset s.clk.replicas {} k.val (if r ≤ s.clk.now then { value := s.clk.now, held := false }
        else { value := r, held := true }) } ∧
      RegsAs (raise s hubClkBase Flag.hubClk_TIME_SLIP) t ∧ SameBut [.regs, .clk] s t := by
  obtain ⟨y, hy⟩ : ∃ y, y = ({ s with clk := { s.clk with
      replicas := tset s.clk.replicas {} k.val
        (if r ≤ s.clk.now then { value := s.clk.now, held := false } else { value := r, held := true }) } } : State) := ⟨_, rfl⟩
  have run : exec (.replicaCompare k r) s = .next (raise y hubClkBase Flag.hubClk_TIME_SLIP) := by
    rw [hy]
    exact congrArg Host.Outcome.next
      ((if_pos (Bool.and_eq_true_iff.2 works)).trans (if_neg fun near => far ((timeGap_le ..).1 near)))
  have same : SameBut [.clk] s y := hy ▸ replicas_sameBut ..
  exact ⟨_, run, by rw [raise_clk, hy], raise_regs_congr (by rw [hy]) .., sameBut_join same (raise_same ..)⟩

end

/-- Settles O47. -/
theorem domainControl : Obligations.DomainControl := by
  unfold Obligations.DomainControl
  refine ⟨⟨fun s d n => ?_, countReset_gives, fun s d a l h => rawReg_clearDomainRegs s d a l h,
    fun s d => ⟨abandonIn_none, fun h held inside => abandonIn_held held inside⟩⟩, fun s => ⟨fun k r => ?_, fun lost => ?_,
    fun locked => ?_, fun waits => ?_, fun other => ?_⟩⟩
  · intro x
    refine ⟨fun stopped => ?_, fun runs => ?_, fun held => ?_, fun released => ?_, fun barred => ?_, fun may => ?_, fun h => ?_,
      fun runs held => ?_⟩
    · exact congrArg Host.Outcome.next (if_neg (by rw [show (getDom s d).running = false from stopped]; decide))
    · obtain ⟨dom, regs, kept⟩ := domainHalt_gives s d n
      exact ⟨_, congrArg Host.Outcome.next (if_pos runs), dom, regs, kept.sameBut⟩
    · exact congrArg Host.Outcome.next (if_pos held)
    · obtain ⟨dom, run⟩ := domainReset_gives s d n
      exact ⟨_, congrArg Host.Outcome.next (if_neg (by rw [show (getDom s d).inReset = false from released]; decide)), dom,
        congrArg State.regs run, (domainReset_keeps (P := (· ∈ resetParts)) (.refl s) d n (Can.sub (Can.all resetParts) (by decide))).sameBut⟩
    · exact congrArg Host.Outcome.next (if_neg (by rw [barred]; decide))
    · obtain ⟨dom, loaded⟩ := startDomain_gives s d
      exact ⟨_, congrArg Host.Outcome.next (if_pos may), dom, loaded,
        (startDomain_keeps (P := (· ∈ [.doms, .clk])) (.refl s) d (Can.all _)).sameBut⟩
    · exact congrArg Host.Outcome.next ((releaseDomain_gives s d).1 h)
    · obtain ⟨dom, loaded⟩ := (releaseDomain_gives s d).2 runs held
      exact ⟨_, rfl, dom, loaded, (releaseDomain_keeps (P := (· ∈ [.doms, .clk])) (.refl s) d (Can.all _)).sameBut⟩
  · exact ⟨replicaCompare_rests, replicaCompare_near, replicaCompare_far⟩
  · exact congrArg Host.Outcome.next (if_neg (by rw [lost]; decide))
  · exact ⟨{ s with clk := { s.clk with dclkLocked := false } }, rfl, dclkLocked_sameBut .., congrArg Host.Outcome.next (if_pos locked)⟩
  · obtain ⟨lost, warm, step⟩ := waits
    exact ⟨{ s with clk := { s.clk with dclkDead := true } }, congrArg Host.Outcome.next (if_pos (by rw [lost, warm, step]; rfl)), rfl,
      dclkDead_sameBut ..⟩
  · refine congrArg Host.Outcome.next (if_neg fun all => other ?_)
    rw [Bool.and_eq_true, Bool.and_eq_true, Bool.not_eq_true', decide_eq_true_iff, and_assoc] at all
    exact all

/-- Settles O48, PLL by PLL. -/
theorem pllLoss : Obligations.PllLoss := by
  unfold Obligations.PllLoss
  exact fun s n => ⟨pllUnlock_gives s n, hubPllUnlock_gives s n, hubPllRestart_gives s⟩

end Sys2Proof.Safety

end

section
/-! Power, temperature and warm resets (R332, R352, R359, R365, R366, R383, R393, R395). -/

-- one theorem after the other: proofs side by side would need more memory than the check allows
set_option Elab.async false

namespace Sys2Proof.Safety

open Sys2Proof.Machine

/-! ## Power -/

theorem powered_off {s : State} (off : s.pwr.phase = .off) : powered s = false := by
  rw [powered, off]
  rfl

theorem powered_on {s : State} (on : s.pwr.phase ≠ .off) : powered s = true :=
  (powered_iff s).2 on

theorem powerOn_regs (s : State) : RegsBut [imgBase + 0x60] s
    (setRawReg { s with pwr := { s.pwr with phase := .step 1, mated := true } } (imgBase + 0x60) 4200) := by
  intro a
  exact (Classical.em (a = imgBase + 0x60)).imp List.mem_singleton.2 (rawReg_setRawReg_other _ _)

theorem powerOn_sameBut (s : State) : SameBut [.regs, .pwr] s
    (setRawReg { s with pwr := { s.pwr with phase := .step 1, mated := true } } (imgBase + 0x60) 4200) := by
  refine sameBut_join (m := [.regs]) (upd_pwr (s := s) (t := { s with pwr := { s.pwr with phase := .step 1, mated := true } })
    rfl rfl rfl rfl rfl rfl) ?_
  exact (setRawReg_keeps (P := (· ∈ [.regs])) (.refl _) _ _ (Can.all _)).sameBut

/-! ## Temperature -/

/-- The readings of a temperature sample noted, with the warnings and the bands that follow from them (R365, R383). -/
def noteTemps (s : State) (f : Temperatures) : State :=
  { s with pwr := { s.pwr with tempLogic := f.logic, tempDram := f.dram, tempHub := f.hub } }

theorem noteTemps_sameBut (s : State) (f : Temperatures) : SameBut [.temps] s (noteTemps s f) := by
  refine ⟨rfl, fun p => ?_⟩
  cases p
  case temps => exact .inl (.head _)
  all_goals exact .inr rfl

theorem temperatureSample_cool {s : State} (on : s.pwr.phase ≠ .off) {f : Temperatures} (cool : ¬ TripDue f) :
    temperatureSample s f = (List.range 16).foldl updateBand
      ((List.range 16).foldl (noteHot f) (raiseIf (warnDue f) (noteTemps s f) imgBase Flag.img_THERM_WARN)) := by
  unfold temperatureSample
  rw [if_neg (by rw [powered_on on]; decide), if_neg (by rw [tripDue_iff]; exact cool)]
  rfl

theorem bitSet_raiseIf {s : State} {a k : Nat} (set : BitSet a k s) (c : Bool) (b : Nat) (f : Nat × Nat) :
    BitSet a k (raiseIf c s b f) := by
  unfold raiseIf
  split
  · exact bitSet_raise_any set ..
  · exact set

theorem bitSet_noteHot {a k : Nat} (f : Temperatures) (l : List Nat) {s : State} (set : BitSet a k s) :
    BitSet a k (l.foldl (noteHot f) s) := by
  induction l generalizing s with
  | nil => exact set
  | cons m l ih => exact ih (bitSet_raiseIf set ..)

theorem bands_keep (l : List Nat) (s : State) : SameBut [.cals] s (l.foldl updateBand s) := by
  have can := Can.all [.cals]
  exact (Keeps.foldl (P := (· ∈ [.cals])) (.refl s) l fun a b k => updateBand_keeps k b).sameBut

theorem temperatureSample_noted {s : State} (on : s.pwr.phase ≠ .off) {f : Temperatures} (cool : ¬ TripDue f) :
    ∃ t, exec (.temperatureSample f) s = .next t ∧ t.pwr.tempLogic = f.logic ∧ t.pwr.tempDram = f.dram ∧
      t.pwr.tempHub = f.hub ∧
      ((∃ x ∈ f.logic, 95 < x) ∨ (∃ x ∈ f.dram, 85 < x) ∨ 95 < f.hub →
        BitSet (imgBase + Flag.img_THERM_WARN.1) Flag.img_THERM_WARN.2 t) ∧ SameBut [.regs, .temps, .cals] s t := by
  have can := Can.all [.regs]
  obtain ⟨w, hw⟩ : ∃ w, w = raiseIf (warnDue f) (noteTemps s f) imgBase Flag.img_THERM_WARN := ⟨_, rfl⟩
  obtain ⟨h, hh⟩ : ∃ h, h = (List.range 16).foldl (noteHot f) w := ⟨_, rfl⟩
  have toW : Keeps (· ∈ [.regs]) (noteTemps s f) w := hw ▸ raiseIf_keeps (.refl _) ..
  have toH : Keeps (· ∈ [.regs]) w h := hh ▸ Keeps.foldl (.refl w) _ fun a b k => noteHot_keeps k f b
  have bands : SameBut [.cals] h ((List.range 16).foldl updateBand h) := bands_keep ..
  have same : SameBut [.regs, .cals] (noteTemps s f) ((List.range 16).foldl updateBand h) :=
    sameBut_join (toW.trans toH).sameBut bands
  have temps := (same.2 .temps).resolve_left (by decide)
  obtain ⟨logic, rest⟩ := Prod.mk.inj temps
  obtain ⟨dram, hub⟩ := Prod.mk.inj rest
  refine ⟨_, congrArg Host.Outcome.next (temperatureSample_cool on cool), ?_⟩
  rw [← hw, ← hh]
  refine ⟨logic, dram, hub, fun warn => ?_, ?_⟩
  · refine bitSet_congr (s := h) ((bands.2 .regs).resolve_left (by decide)) ?_
    rw [hh, hw, (warnDue_iff f).2 warn]
    exact bitSet_noteHot f _ (bitSet_raise _ _ _ (by decide))
  · exact sameBut_join (noteTemps_sameBut s f) same

/-- How the band follows the temperature (R383): it moves only past its edge by 2 °C. -/
theorem nextBand_gives (b x : Nat) (low : b ≤ 8) : let n := nextBand b x
    n ≤ 8 ∧ (n = b ↔ (b = 8 ∨ x < 10 * b + 32) ∧ (b = 0 ∨ 10 * b + 19 ≤ x)) ∧
    (b < n → 10 * n + 22 ≤ x) ∧ (n < b → x < 10 * (n + 1) + 19) := by
  unfold nextBand
  dsimp only
  split
  · omega
  · split
    · omega
    · omega

/-- Settles O49, event by event. -/
theorem powerEvents : Obligations.PowerEvents := by
  unfold Obligations.PowerEvents
  refine ⟨fun s => ⟨fun dark => ?_, fun h => congrArg Host.Outcome.next (if_neg h), fun cv off => ?_, fun cv on => ?_,
    fun cv ca ns on due => ?_, fun cv ca ns h => ?_, ?_, fun on => congrArg Host.Outcome.next (if_pos (powered_on on)),
    fun off => ?_, ?_, ?_, ?_⟩, fun s f => ⟨fun off => ?_, fun on trip => ?_, fun on cool => temperatureSample_noted on cool⟩,
    nextBand_gives⟩
  · exact ⟨_, congrArg Host.Outcome.next (if_pos dark), rfl, powerOn_regs s, powerOn_sameBut s⟩
  · exact congrArg Host.Outcome.next (if_neg (by rw [powered_off off]; decide))
  · exact ⟨_, rfl, inputVoltage_gives cv on⟩
  · obtain ⟨off, latch⟩ := powerOff_gives s
    exact ⟨_, congrArg Host.Outcome.next (if_pos (Bool.and_eq_true_iff.2 ⟨powered_on on, (shutdownDue_iff ..).2 due⟩)), off, latch⟩
  · refine congrArg Host.Outcome.next (if_neg fun both => h ?_)
    obtain ⟨on, due⟩ := Bool.and_eq_true_iff.1 both
    exact ⟨(powered_iff s).1 on, (shutdownDue_iff ..).1 due⟩
  · obtain ⟨off, latch⟩ := powerOff_gives s
    exact ⟨_, rfl, ⟨off.pending, off.phase, off.clock, off.nor, off.fuses, off.board, off.memory, off.deputy, off.units⟩, rfl,
      latch⟩
  · exact ⟨_, congrArg Host.Outcome.next (if_neg (by rw [powered_off off]; decide)), rfl, upd_pwr rfl rfl rfl rfl rfl rfl⟩
  · exact ⟨_, rfl, rfl, upd_pwr rfl rfl rfl rfl rfl rfl⟩
  · exact ⟨_, rfl, rfl, upd_pwr rfl rfl rfl rfl rfl rfl⟩
  · exact ⟨_, rfl, rfl, upd_pwr rfl rfl rfl rfl rfl rfl⟩
  · exact congrArg Host.Outcome.next (if_pos (by rw [powered_off off]; rfl))
  · obtain ⟨off, latch⟩ := powerOff_gives { s with pwr := { s.pwr with tripLatch := true } }
    refine ⟨_, congrArg Host.Outcome.next ((if_neg (by rw [powered_on on]; decide)).trans (if_pos ((tripDue_iff f).2 trip))), ?_,
      latch⟩
    exact ⟨off.pending, off.phase, off.clock, off.nor, off.fuses, off.board, off.memory, off.deputy, off.units⟩

/-! ## Warm resets -/

theorem warmReset_runs {s : State} (can : canReset s = true) (c : WarmCause) :
    exec (.warmReset c) s = .next (warmReset s c) :=
  congrArg Host.Outcome.next (if_pos can)

/-- Settles O50. -/
theorem warmResets : Obligations.WarmResets := by
  unfold Obligations.WarmResets
  refine fun s => ⟨canReset_iff s, fun cannot => ?_, fun can => ⟨?_, ?_, ?_, ?_, ?_, rfl⟩, fun ns short => ?_, fun ns long => ?_⟩
  · have stays (c : WarmCause) : exec (.warmReset c) s = .next s :=
      congrArg Host.Outcome.next (if_neg (by rw [cannot]; decide))
    exact ⟨stays, stays .lockstep⟩
  · exact ⟨_, warmReset_runs can .pin, warmReset_gives s .pin⟩
  · exact ⟨_, warmReset_runs can .depCtrl, warmReset_gives s .depCtrl⟩
  · exact ⟨_, warmReset_runs can .lockstep, warmReset_gives s .lockstep⟩
  · exact ⟨_, warmReset_runs can .dclk, warmReset_gives s .dclk⟩
  · exact ⟨_, _, warmReset_runs can .release, Nat.mod_lt _ (by decide), warmReset_gives s .release⟩
  · exact congrArg Host.Outcome.next (if_neg (Nat.not_le.2 short))
  · exact ⟨{ s with pwr := { s.pwr with resetN := true } }, rfl, upd_pwr rfl rfl rfl rfl rfl rfl,
      congrArg Host.Outcome.next (if_pos long)⟩

end Sys2Proof.Safety

end

section
/-! The management queue and the checks of a request (R305, R306). -/

-- one theorem after the other: proofs side by side would need more memory than the check allows
set_option Elab.async false

namespace Sys2Proof.Safety

open Sys2Proof.Machine

/-! ## What the end of a frame leaves -/

theorem frameEnds_port (s : State) (f : RxFrame) : (frameEnds s f).port = s.port := by
  unfold frameEnds
  dsimp only
  split <;> split <;> split <;> rfl

theorem rawReg_frameEnds (s : State) (f : RxFrame) {a : Nat} (low : a < portBase) : rawReg (frameEnds s f) a = rawReg s a := by
  have counted (z : State) (o n : Nat) : rawReg (count z portBase o n) a = rawReg z a := rawReg_count_other z (by omega)
  have raised (z : State) (g : Nat × Nat) : rawReg (raise z portBase g) a = rawReg z a := rawReg_raise_other z (by omega)
  unfold frameEnds portCount
  dsimp only
  split <;> split <;> split <;> simp only [counted, raised]

theorem arrived_port (s : State) (f : RxFrame) : (arrived s f).port = s.port :=
  frameEnds_port s f

theorem rawReg_arrived (s : State) (f : RxFrame) {a : Nat} (low : a < portBase) : rawReg (arrived s f) a = rawReg s a :=
  (rawReg_count_other _ (by omega)).trans (rawReg_frameEnds s f low)

theorem withQueue_port (s : State) (q : List MgmtFrame) : (withQueue s q).port = { s.port with mgmtQueue := q } := rfl

theorem arrived_same (s : State) (f : RxFrame) : SameBut [.regs] s (arrived s f) := by
  have can := Can.all [.regs]
  exact (count_keeps (P := (· ∈ [.regs])) (frameEnds_keeps (.refl s) f) ..).sameBut

theorem arrived_waiting (s : State) (f : RxFrame) : mgmtWaiting (arrived s f) = mgmtWaiting s := by
  rw [mgmtWaiting, mgmtWaiting, arrived_port]

/-! ## MGMT_FRAME_RECEIVE -/

section
variable {s : State} {r : MgmtFrame} (arrives : Arrives s r.frame)
include arrives

theorem mgmtFrame_queued : exec (.mgmtFrameReceive r) s = .next (settleQueue (enqueueMgmt (arrived s r.frame) r)) :=
  congrArg Host.Outcome.next (receive_mgmt arrives)

theorem mgmtFrame_abort (abort : r.header.op.toNat = 18) :
    exec (.mgmtFrameReceive r) s = .next (withQueue (arrived s r.frame)
      (s.port.mgmtQueue.takeWhile (fun x => x.header.op.toNat == 18) ++ r ::
        s.port.mgmtQueue.dropWhile (fun x => x.header.op.toNat == 18))) := by
  rw [mgmtFrame_queued arrives, enqueue_abort abort, arrived_port, settle_known]
  intro x front
  change List.head? _ = _ at front
  have op : x.header.op.toNat = 18 := by
    cases ahead : s.port.mgmtQueue.takeWhile fun x => x.header.op.toNat == 18 with
    | nil =>
      rw [ahead] at front
      cases front
      exact abort
    | cons y l =>
      rw [ahead] at front
      cases front
      have leads := List.all_eq_true.1 (List.all_takeWhile (p := fun x : MgmtFrame => x.header.op.toNat == 18)) x (ahead ▸ List.mem_cons_self)
      exact beq_iff_eq.1 leads
  rw [op]
  rfl

theorem mgmtFrame_plain (plain : r.header.op.toNat ≠ 18) (room : mgmtWaiting s < 64)
    (rests : s.port.held ≠ none ∨ FrontKnown (s.port.mgmtQueue ++ [r])) :
    exec (.mgmtFrameReceive r) s = .next (withQueue (arrived s r.frame) (s.port.mgmtQueue ++ [r])) := by
  rw [mgmtFrame_queued arrives, enqueue_plain plain (by rw [arrived_waiting]; exact room), arrived_port, settle_ok]
  refine rests.imp (fun held => ?_) id
  rw [show (withQueue (arrived s r.frame) (s.port.mgmtQueue ++ [r])).port.held = (arrived s r.frame).port.held from rfl, arrived_port]
  exact held

theorem mgmtFrame_unknown (free : s.port.held = none) (empty : s.port.mgmtQueue = []) (unknown : knownOp r.header.op.toNat = false) :
    ∃ t, exec (.mgmtFrameReceive r) s = .next t ∧
      t.port = { s.port with txQueue := s.port.txQueue ++ [mgmtAnswer s r 5 []] } ∧ Counted Ctr.MG_BADREQ_CNT 1 s t ∧
      BitSet Flag.ident_BAD_REQUEST.1 Flag.ident_BAD_REQUEST.2 t ∧ SameBut [.regs, .txQueue, .mgmt] s t := by
  have plain : r.header.op.toNat ≠ 18 := fun abort => by
    rw [abort] at unknown
    cases unknown
  have room : mgmtWaiting (arrived s r.frame) < 64 := by
    rw [arrived_waiting, mgmtWaiting_eq, free, empty]
    decide
  obtain ⟨z, hz⟩ : ∃ z, z = withQueue (arrived s r.frame) [r] := ⟨_, rfl⟩
  have queued : exec (.mgmtFrameReceive r) s = .next (settleQueue z) := by
    rw [mgmtFrame_queued arrives, enqueue_plain plain room, arrived_port, empty, hz, List.nil_append]
  have settled : settleQueue z = withQueue (answerMgmt z r stBadRequest []) [] := by
    rw [hz, settleQueue, if_neg (by
      rw [show (withQueue (arrived s r.frame) [r]).port.held = (arrived s r.frame).port.held from rfl, arrived_port, free]
      decide)]
    change withQueue (answerUnknown [r] _).2 (answerUnknown [r] _).1 = _
    rw [answerUnknown, if_neg (by rw [unknown]; decide), answerUnknown]
  have regs {a : Nat} (low : a < portBase) : rawReg z a = rawReg s a := hz ▸ rawReg_arrived s r.frame low
  have same : SameBut [.regs, .mgmt] s z := by
    have can := Can.all [.mgmt]
    rw [hz]
    exact sameBut_join (arrived_same s r.frame) (withQueue_keeps (P := (· ∈ [.mgmt])) (.refl _) _ can).sameBut
  obtain ⟨counted, flag, -⟩ := badAnswer (s := z) (r := r) (b := []) rfl
  refine ⟨_, queued.trans (congrArg _ settled), ?_, ?_, flag, ?_⟩
  · change { (answerMgmt z r stBadRequest []).port with mgmtQueue := [] } = _
    rw [answerMgmt_port, mgmtAnswer_congr same (by decide) (by decide), hz]
    rw [withQueue_port, arrived_port]
    dsimp only
    rw [empty]
    rfl
  · rw [Counted, ← regs (by decide)]
    exact counted
  · have can := Can.all [.regs, .txQueue, .mgmt]
    refine sameBut_join same (withQueue_keeps (P := (· ∈ [.regs, .txQueue, .mgmt])) (answerMgmt_keeps (.refl z) ..) _ (can.sub (by decide))).sameBut

theorem mgmtFrame_full (plain : r.header.op.toNat ≠ 18) (full : 64 ≤ mgmtWaiting s)
    (rests : s.port.held ≠ none ∨ FrontKnown s.port.mgmtQueue) : ∃ t, exec (.mgmtFrameReceive r) s = .next t ∧
      Counts [pc Ctr.PORT_RX_FRAME_CNT, pc Ctr.PORT_MG_DROP_CNT] [pf Flag.port_MG_DROP] (frameEnds s r.frame) t := by
  obtain ⟨t, ht⟩ : ∃ t, t = raise (portCount (arrived s r.frame) Ctr.PORT_MG_DROP_CNT) portBase Flag.port_MG_DROP := ⟨_, rfl⟩
  have port : t.port = s.port := by
    rw [ht, raise_port]
    exact arrived_port s r.frame
  refine ⟨t, ?_, ?_⟩
  · rw [mgmtFrame_queued arrives, enqueue_full plain (by rw [arrived_waiting]; exact full), ← ht,
      settle_ok (by rw [port]; exact rests)]
  · rw [ht]
    exact counts_raise (counts_two (frameEnds s r.frame) Ctr.PORT_RX_FRAME_CNT Ctr.PORT_MG_DROP_CNT (by decide)) portBase
      Flag.port_MG_DROP (by decide) (by decide)

end

/-! ## The rows of R305 -/

theorem takenAtOnce_iff (s : State) (r : MgmtFrame) :
    takenAtOnce s r = true ↔ r.header.op.toNat = 18 ∨ (s.port.held = none ∧ s.port.mgmtQueue = []) := by
  unfold takenAtOnce
  rw [Bool.or_eq_true, Bool.and_eq_true, List.isEmpty_iff, Option.isNone_iff_eq_none, beq_iff_eq, or_comm, and_comm]
  rfl

section
variable {r : MgmtFrame} {sig : SigVerdict} {c : Nat × Instr} (row : c ∈ mgmtRows r sig) (s : State)
include row

theorem row_otherOp (other : r.header.op.toNat ≠ c.1) : exec c.2 s = .next s := by
  obtain ⟨-, f, run⟩ := rows_ofOp row
  rw [run, ofOp, if_neg other]

theorem row_behindHeld (op : r.header.op.toNat = c.1) (held : s.port.held ≠ none) (front : s.port.mgmtQueue.head? = some r)
    (plain : c.1 ≠ 18) : exec c.2 s = .next s := by
  obtain ⟨-, f, run⟩ := rows_ofOp row
  rw [run, ofOp, if_pos op, take_settled (settle_ok (.inl held)), if_pos front, if_pos]
  rw [some_of_ne held, Bool.true_and, bne_iff_ne, op]
  exact plain

theorem row_atOnce (op : r.header.op.toNat = c.1) (behind : s.port.mgmtQueue.head? ≠ some r)
    (rests : s.port.held ≠ none ∨ FrontKnown s.port.mgmtQueue)
    (first : c.1 = 18 ∨ (s.port.held = none ∧ s.port.mgmtQueue = [])) (arrives : Arrives s r.frame) :
    exec c.2 s = exec c.2 (withQueue (arrived s r.frame) (r :: s.port.mgmtQueue)) := by
  obtain ⟨known, f, run⟩ := rows_ofOp row
  obtain ⟨y, hy⟩ : ∃ y, y = withQueue (arrived s r.frame) (r :: s.port.mgmtQueue) := ⟨_, rfl⟩
  have port : y.port = { s.port with mgmtQueue := r :: s.port.mgmtQueue } := by rw [hy, withQueue_port, arrived_port]
  have settled : settleQueue y = y := settle_known fun x front => by
    rw [port] at front
    cases front
    rw [op]
    exact known
  have free : ¬ (y.port.held.isSome && r.header.op.toNat != opAbort) = true := by
    rw [port, Bool.and_eq_true, bne_iff_ne, op]
    rintro ⟨held, plain⟩
    rcases first with abort | ⟨none, -⟩
    · exact plain abort
    · rw [none] at held
      cases held
  have back : ({ y with port := { y.port with mgmtQueue := y.port.mgmtQueue.tail } } : State) = arrived s r.frame := by
    rw [port, hy]
    change { arrived s r.frame with port := s.port } = _
    rw [← arrived_port s r.frame]
  rw [← hy, run, run, ofOp, ofOp, if_pos op, if_pos op, take_settled (settle_ok rests), take_settled settled, if_neg behind,
    if_pos ((takenAtOnce_iff s r).2 (op ▸ first)), if_pos (by rw [port]; rfl), if_neg free, back,
    receive_arrives (k := mgmtKept s r.frame) arrives rfl]
  rfl

theorem row_queues (op : r.header.op.toNat = c.1) (behind : s.port.mgmtQueue.head? ≠ some r)
    (rests : s.port.held ≠ none ∨ FrontKnown s.port.mgmtQueue)
    (later : ¬ (c.1 = 18 ∨ (s.port.held = none ∧ s.port.mgmtQueue = []))) : exec c.2 s = exec (.mgmtFrameReceive r) s := by
  obtain ⟨-, f, run⟩ := rows_ofOp row
  rw [run, ofOp, if_pos op, take_settled (settle_ok rests), if_neg behind,
    if_neg (fun taken => later (op ▸ (takenAtOnce_iff s r).1 taken))]
  rfl

end

/-! ## The checks of a request of a session -/

section
variable {r : MgmtFrame} {sig : SigVerdict} {c : Nat × Instr} (row : c ∈ (mgmtRows r sig).drop 2) {s : State} (front : AtFront r c.1 s)
include row front

theorem row_badHeader (bad : requestOk r.header = false) : BadRequest c.2 r s := by
  obtain ⟨known, f, run⟩ := rows_session row
  exact badRequest_of front known (run s) (inMgmt_bad bad)

variable (ok : requestOk r.header = true)
include ok

theorem row_noSession (none : getMgmt s r.header.session.toNat = none) : AnswersOnly c.2 r 2 s := by
  obtain ⟨known, f, run⟩ := rows_session row
  exact answersOnly_of front known (run s) (by decide) (inMgmt_none ok none)

variable {x : MgmtSession} (open_ : getMgmt s r.header.session.toNat = some x)
include open_

theorem row_badToken (token : x.token ≠ r.header.token) : AnswersOnly c.2 r 1 s := by
  obtain ⟨known, f, run⟩ := rows_session row
  exact answersOnly_of front known (run s) (by decide) (inMgmt_token ok open_ token)

theorem row_again (token : x.token = r.header.token) (last : x.lastReq = some r.header.reqId) {a : TxFrame}
    (stored : x.lastAnswer = some a) : ∃ t, exec c.2 s = .next t ∧
      t.port = { (dequeue s).port with txQueue := s.port.txQueue ++ [a] } ∧ SameBut [.txQueue, .mgmt] s t := by
  obtain ⟨known, f, run⟩ := rows_session row
  have can := Can.all [.txQueue, .mgmt]
  exact ⟨_, (run s).trans (congrArg _ (ofOp_done front known (inMgmt_again ok open_ token last stored) rfl)), rfl,
    (pushTx_keeps (withQueue_keeps (.refl s) _ (can.sub (by decide))) _).sameBut⟩

end

/-- Settles O54. -/
theorem managementQueue : Obligations.ManagementQueue := by
  unfold Obligations.ManagementQueue
  refine ⟨fun s r arrives => ?_, fun s r sig c row => ⟨row_otherOp row s, row_behindHeld row s, fun op behind rests => ?_⟩,
    fun s r sig c row front => ⟨row_badHeader row front, row_noSession row front, fun ok x open_ => ?_⟩⟩
  · intro z q isAbort waiting
    have same : mgmtWaiting s = waiting := mgmtWaiting_eq s
    exact ⟨counts_one .., mgmtFrame_abort arrives, fun plain room => mgmtFrame_plain arrives plain (same ▸ room),
      mgmtFrame_unknown arrives, fun plain full => mgmtFrame_full arrives plain (same ▸ full)⟩
  · exact ⟨row_atOnce row s op behind rests, row_queues row s op behind rests⟩
  · exact ⟨row_badToken row front ok open_, fun token last a stored => row_again row front ok open_ token last stored⟩

end Sys2Proof.Safety

end

section
/-! HELLO, OPEN, SHUT and ANNOUNCE (R286, R287, R305, R379). -/

-- one theorem after the other: proofs side by side would need more memory than the check allows
set_option Elab.async false

namespace Sys2Proof.Safety

open Sys2Proof.Machine

/-! ## HELLO -/

/-- The state in which a HELLO is answered: its nonce is held, and the announcement may have ended. -/
def greeted (s : State) (r : MgmtFrame) (nonce : BitVec 128) : State :=
  { s with
    freeCount := s.freeCount + 1
    port := { s.port with nonces := addNonce s.port.nonces nonce s.clk.now }
    pwr := { s.pwr with announceStop := s.pwr.announceStop || isAnnounceAddr s r.frame } }

theorem greeted_sameBut (s : State) (r : MgmtFrame) (nonce : BitVec 128) : SameBut [.freeCount, .pwr, .nonces] s (greeted s r nonce) := by
  refine ⟨rfl, fun p => ?_⟩
  cases p
  case freeCount => exact .inl (by decide)
  case pwr => exact .inl (by decide)
  case nonces => exact .inl (by decide)
  all_goals exact .inr rfl

section
variable {s : State} {r : MgmtFrame} (front : AtFront r 1 s)
include front

theorem hello_bad (bad : ¬ (openingOk r.header = true ∧ r.body = [])) : BadRequest (.hello r) r s := by
  refine badRequest_of front (c := .hello r) (f := helloRun r) rfl rfl (if_pos ?_)
  rw [Bool.or_eq_true, Bool.not_eq_true', bne_iff_ne]
  by_cases ok : openingOk r.header = true
  · exact .inr fun empty => bad ⟨ok, empty⟩
  · exact .inl (Bool.not_eq_true _ ▸ ok)

theorem hello_answers (ok : openingOk r.header = true) (empty : r.body = []) : ∃ t nonce, exec (.hello r) s = .next t ∧
    t.port = { (dequeue s).port with
      nonces := s.port.nonces.drop (s.port.nonces.length - 15) ++ [(nonce, s.clk.now)]
      txQueue := s.port.txQueue ++ [mgmtAnswer s r 0 (helloBody s nonce)] } ∧
    t.pwr = { s.pwr with announceStop := s.pwr.announceStop || isAnnounceAddr s r.frame } ∧
    SameBut [.freeCount, .pwr, .txQueue, .nonces, .mgmt] s t := by
  obtain ⟨nonce, hn⟩ : ∃ nonce, nonce = BitVec.ofNat 128 (Config.choice s.freeCount) := ⟨_, rfl⟩
  obtain ⟨z, hz⟩ : ∃ z, z = greeted (dequeue s) r nonce := ⟨_, rfl⟩
  have run : helloRun r (dequeue s) = pushTx z (mgmtAnswer s r 0 (helloBody s nonce)) := by
    rw [hz, hn]
    exact (if_neg (by rw [ok, empty]; decide)).trans (answerMgmt_good (by decide))
  have toZ : SameBut [.freeCount, .pwr, .nonces, .mgmt] s z := by
    have can := Can.all [.mgmt]
    rw [hz]
    exact sameBut_join (m := [.freeCount, .pwr, .nonces]) (withQueue_keeps (P := (· ∈ [.mgmt])) (.refl s) _ can).sameBut
      (greeted_sameBut ..)
  refine ⟨_, nonce, congrArg Host.Outcome.next (ofOp_done front rfl run (by rw [hz]; rfl)), ?_, by rw [hz]; rfl, ?_⟩
  · rw [hz, ← addNonce_eq]
    rfl
  · have can := Can.all [.txQueue]
    exact sameBut_join toZ (pushTx_keeps (P := (· ∈ [.txQueue])) (.refl z) _).sameBut

end

/-! ## OPEN -/

theorem useNonce_sameBut (s : State) (n : BitVec 128) : SameBut [.nonces, .mgmt] s (useNonce (dequeue s) n) := by
  have can := Can.all [.nonces, .mgmt]
  exact (useNonce_keeps (P := (· ∈ [.nonces, .mgmt])) (withQueue_keeps (.refl s) _ (can.sub (by decide))) _).sameBut

/-! What the session opened is, by its kind. -/

section
variable {u s : State} {r : MgmtFrame} {q : OpenReq} (mac : answerMac u r.frame = answerMac s r.frame) (signed : Bool) (i : Nat)
  (token : Word)

theorem openAt_mgmt (k : q.kind = 0) :
    openSessionAt u r.frame q signed i token = setMgmt u i (some { token := token, signed := signed }) :=
  if_pos k

include mac

theorem openAt_lot (k : q.kind = 1) : let x := { peerSession s r q token with kind := .lot, respWindow := q.window }
    openSessionAt u r.frame q signed i token = logSession (bindSession u i x 1000) i (openEntry i x) := by
  intro x
  refine (if_neg (by omega)).trans ((if_pos k).trans ?_)
  dsimp only
  rw [mac]
  rfl

theorem openAt_chute (k : q.kind = 2) {slot m : Nat} {g : Image} {d : Edge} (opener : chuteOpener u r.frame q = some (slot, m))
    (live : (getGraphSlot u slot).live = some g) (edge : g.edges[q.edge]? = some d) :
    let x := { peerSession s r q token with kind := .chute, peerModule := m, peerSide := u.pwr.config.side, edge := q.edge }
    openSessionAt u r.frame q signed i token = setGraphSlot (bindSession u i x d.tail) slot
      { getGraphSlot u slot with chutes := (getGraphSlot u slot).chutes ++ [(q.edge, .hub (Fin.ofNat 2048 i))] } := by
  intro x
  refine (if_neg (by omega)).trans ((if_neg (by omega)).trans ((if_pos k).trans ?_))
  rw [opener]
  dsimp only
  rw [mac, live]
  simp only [Option.bind_some, edge, Option.map_some, Option.getD_some]
  rfl

theorem openAt_mirror (k : q.kind = 3) :
    let x := { peerSession s r q token with kind := .mirror, peerModule := moduleNum u, peerSide := 1 - u.pwr.config.side }
    openSessionAt u r.frame q signed i token = bindSession u i x 1000 := by
  intro x
  refine (if_neg (by omega)).trans ((if_neg (by omega)).trans ((if_neg (by omega)).trans ?_))
  rw [mac]
  rfl

end

/-! What is known of the session opened and of its answer, by its kind. -/

section
variable {s u v t : State} {r : MgmtFrame} {q : OpenReq} {signed : Bool} {i : Nat} {token : Word}
  (drawn : u = { opening s q with freeCount := (opening s q).freeCount + 1 })
  (bound : v = openSessionAt u r.frame q signed i token)
  (sent : t = pushTx v (mgmtAnswer (opening s q) r 0 (openAnswer q i token)))
include drawn bound sent

theorem mgmt_opens (k : q.kind = 0)
    (answer : mgmtAnswer (opening s q) r 0 (openAnswer q i token) = mgmtAnswer s r 0 (openAnswer q i token)) :
    getMgmt t i = some { token := token, signed := signed } ∧ (∀ j, j ≠ i → getMgmt t j = getMgmt s j) ∧
      t.port.txQueue = s.port.txQueue ++ [mgmtAnswer s r 0 (openAnswer q i token)] ∧
      SameBut [.freeCount, .txQueue, .nonces, .mgmt] s t := by
  have draws : Keeps (· ∈ [.freeCount]) (opening s q) u := keeps_draw drawn
  rw [opening_other (by omega)] at drawn draws sent answer
  rw [openAt_mgmt signed i token k] at bound
  have sessions (j : Nat) : getMgmt t j = if j = i then some { token := token, signed := signed } else getMgmt s j := by
    rw [sent, getMgmt_push, bound, getMgmt_set, drawn]
    rfl
  refine ⟨(sessions i).trans (if_pos rfl), fun j other => (sessions j).trans (if_neg other), ?_, ?_⟩
  · rw [sent, answer, bound, drawn]
    rfl
  · have can := Can.all [.freeCount, .txQueue, .mgmt]
    refine sameBut_join (m := [.freeCount, .txQueue, .mgmt]) (useNonce_sameBut s q.nonce) ?_
    rw [sent, bound]
    exact (pushTx_keeps (setMgmt_keeps (draws.mono (by decide)) ..) ..).sameBut

omit bound in
/-- A session bound in its place, with no more done than its graph or the journal asks for. -/
theorem opened_bound {x : Session} {tail : Nat}
    (last : Keeps (· ∈ [.graphs, .jnl, .txQueue, .outs]) (bindSession u i x tail) v)
    (quiet : q.kind ≠ 1 ∨ (opening s q).pwr.config.twin = false → v.port.txQueue = (opening s q).port.txQueue) :
    Opened r q i token x tail (opening s q) t :=
  opened_of (keeps_draw drawn) rfl last _ rfl t sent quiet

variable (mac : answerMac u r.frame = answerMac s r.frame)
include mac

theorem opened_lot (k : q.kind = 1) :
    Opened r q i token { peerSession s r q token with kind := .lot, respWindow := q.window } 1000 (opening s q) t := by
  have at_ := bound.trans (openAt_lot mac signed i token k)
  refine opened_bound drawn sent ?_ fun single => ?_
  · rw [at_]
    exact (logSession_keeps (P := (· ∈ [.jnl, .txQueue, .outs])) (.refl _) _ _ (Can.all _)).mono (by decide)
  · rw [at_, logSession_single, drawn]
    · rfl
    · rw [drawn]
      exact single.resolve_left (· k)

variable (pwr : u.pwr = s.pwr)
include pwr

theorem opened_chute (k : q.kind = 2) (slot m : Nat) (g : Image) (d : Edge) (opener : chuteOpener s r.frame q = some (slot, m))
    (live : (getGraphSlot s slot).live = some g) (edge : g.edges[q.edge]? = some d) :
    Opened r q i token { peerSession s r q token with kind := .chute, peerModule := m, peerSide := s.pwr.config.side, edge := q.edge }
        d.tail (opening s q) t ∧
      (getGraphSlot t slot).chutes = (getGraphSlot s slot).chutes ++ [(q.edge, .hub (Fin.ofNat 2048 i))] := by
  have dep : u.dep = s.dep := by
    rw [drawn, opening_other (by omega)]
    rfl
  have slots : getGraphSlot u slot = getGraphSlot s slot := by rw [getGraphSlot, getGraphSlot, dep]
  have opener' : chuteOpener u r.frame q = some (slot, m) := by
    rw [← opener]
    unfold chuteOpener moduleIp
    rw [dep, pwr]
  have at_ := bound.trans (openAt_chute mac signed i token k opener' (by rw [slots]; exact live) edge)
  rw [slots, pwr] at at_
  refine ⟨opened_bound drawn sent ?_ fun _ => ?_, ?_⟩
  · rw [at_]
    exact (setGraphSlot_keeps (P := (· ∈ [.graphs])) (.refl _) _ _ (Can.all _)).mono (by decide)
  · rw [at_, drawn]
    rfl
  · rw [sent, at_]
    exact congrArg GraphSlot.chutes (tget_tset_self ..)

theorem opened_mirror (k : q.kind = 3) :
    Opened r q i token { peerSession s r q token with kind := .mirror, peerModule := moduleNum s, peerSide := 1 - s.pwr.config.side }
      1000 (opening s q) t := by
  have at_ := bound.trans (openAt_mirror mac signed i token k)
  have num : moduleNum u = moduleNum s := by rw [moduleNum, moduleNum, pwr]
  rw [num, pwr] at at_
  refine opened_bound drawn sent ?_ fun _ => ?_
  · rw [at_]
    exact (Keeps.refl (P := (· ∈ [])) _).mono (by decide)
  · rw [at_, drawn]
    rfl

end

section
variable {s : State} {r : MgmtFrame} {sig : SigVerdict} (front : AtFront r 2 s)
include front

theorem open_bad (bad : parseOpen r.body = none ∨ openingOk r.header = false ∨ ∃ q, parseOpen r.body = some q ∧ 3 < q.kind) :
    BadRequest (.openSession r sig) r s := by
  refine badRequest_of front (c := .openSession r sig) (f := openRun r sig) rfl rfl ?_
  unfold openRun
  cases parsed : parseOpen r.body with
  | none => rfl
  | some q =>
    refine if_pos ?_
    rw [Bool.or_eq_true, Bool.not_eq_true', decide_eq_true_iff]
    rcases bad with none | header | ⟨p, same, kind⟩
    · rw [parsed] at none
      cases none
    · exact .inl header
    · rw [parsed] at same
      cases same
      exact .inr kind

variable {q : OpenReq} (parsed : parseOpen r.body = some q) (header : openingOk r.header = true) (kind : q.kind ≤ 3)
include parsed header kind

theorem open_refused (no : ¬ (NonceStands s q ∧ MayOpen s r.frame q sig)) : ∃ t, exec (.openSession r sig) s = .next t ∧
    t.port = { (useNonce (dequeue s) q.nonce).port with txQueue := s.port.txQueue ++ [mgmtAnswer s r 1 []] } ∧
    SameBut [.txQueue, .nonces, .mgmt] s t := by
  have run : openRun r sig (dequeue s) = answerMgmt (useNonce (dequeue s) q.nonce) r stAuth [] := by
    rw [openRun_ok parsed header kind, if_pos]
    rw [Bool.or_eq_true, Bool.not_eq_true', Bool.not_eq_true', ← Bool.not_eq_true, ← Bool.not_eq_true, nonceStands_iff,
      Machine.mayOpen_iff kind]
    exact Classical.not_and_iff_not_or_not.1 no
  obtain ⟨done, port⟩ := answered_front (c := .openSession r sig) front rfl rfl run rfl rfl rfl
  refine ⟨_, done, port, ?_⟩
  have can := Can.all [.txQueue]
  rw [answerMgmt_good (by decide)]
  exact sameBut_join (useNonce_sameBut s q.nonce) (pushTx_keeps (P := (· ∈ [.txQueue])) (.refl _) _).sameBut

variable (may : NonceStands s q ∧ MayOpen s r.frame q sig)
include may

omit front parsed header in
theorem open_allowed : (!nonceFresh s q.nonce || !openAllowed s r.frame q sig) = false := by
  rw [(nonceStands_iff s q).2 may.1, (Machine.mayOpen_iff kind).2 may.2]
  rfl

theorem open_fields (bad : ¬ OpenFields q) : ∃ t, exec (.openSession r sig) s = .next t ∧
    t.port = { (useNonce (dequeue s) q.nonce).port with txQueue := s.port.txQueue ++ [mgmtAnswer s r 5 []] } ∧
    Counted Ctr.MG_BADREQ_CNT 1 s t ∧ BitSet Flag.ident_BAD_REQUEST.1 Flag.ident_BAD_REQUEST.2 t ∧
    SameBut [.regs, .txQueue, .nonces, .mgmt] s t := by
  have run : openRun r sig (dequeue s) = answerMgmt (useNonce (dequeue s) q.nonce) r stBadRequest [] := by
    rw [openRun_ok parsed header kind, if_neg (by rw [open_allowed kind may]; decide), if_pos]
    rw [Bool.not_eq_true', ← Bool.not_eq_true, openFields_iff]
    exact bad
  obtain ⟨done, port⟩ := answered_front (c := .openSession r sig) front rfl rfl run rfl rfl rfl
  obtain ⟨counted, flag, -⟩ := badAnswer (s := useNonce (dequeue s) q.nonce) (r := r) (b := []) rfl
  refine ⟨_, done, port, counted, flag, ?_⟩
  have can := Can.all [.regs, .txQueue]
  exact sameBut_join (useNonce_sameBut s q.nonce) (answerMgmt_keeps (P := (· ∈ [.regs, .txQueue])) (.refl _) ..).sameBut

variable (fields : OpenFields q)
include fields

theorem open_busy (none : ∀ i, ¬ OpenPlace (opening s q) q i) : ∃ t, exec (.openSession r sig) s = .next t ∧
    t.port = { (opening s q).port with txQueue := s.port.txQueue ++ [mgmtAnswer s r 3 []] } ∧ SameBut [.txQueue] (opening s q) t := by
  have run : openRun r sig (dequeue s) = answerMgmt (opening s q) r stBusy [] := by
    rw [openRun_ok parsed header kind, if_neg (by rw [open_allowed kind may]; decide),
      if_neg (by rw [(openFields_iff q).2 fields]; decide), openIndex_none kind none]
  obtain ⟨queue, sent⟩ := opening_port s q
  obtain ⟨done, port⟩ := answered_front (c := .openSession r sig) front rfl rfl run queue sent
    (mgmtAnswer_keeps (opening_keeps s q) (by decide) (by decide) ..)
  refine ⟨_, done, port, ?_⟩
  have can := Can.all [.txQueue]
  rw [answerMgmt_good (by decide)]
  exact (pushTx_keeps (P := (· ∈ [.txQueue])) (.refl _) _).sameBut

variable {i : Nat} (place : OpenPlace (opening s q) q i)
include place

/-- What an OPEN that gets a place leads to, by the kind of its session. -/
theorem open_opens : ∃ t token, exec (.openSession r sig) s = .next t ∧
    (let x := peerSession s r q token
    (q.kind = 0 → getMgmt t i = some { token := token, signed := q.signed && sig.ed && sig.mldsa && enrolled s } ∧
      (∀ j, j ≠ i → getMgmt t j = getMgmt s j) ∧ t.port.txQueue = s.port.txQueue ++ [mgmtAnswer s r 0 (openAnswer q i token)] ∧
      SameBut [.freeCount, .txQueue, .nonces, .mgmt] s t) ∧
    (q.kind = 1 → Opened r q i token { x with kind := .lot, respWindow := q.window } 1000 (opening s q) t) ∧
    (q.kind = 2 → ∀ slot m g d, chuteOpener s r.frame q = some (slot, m) → (getGraphSlot s slot).live = some g →
      g.edges[q.edge]? = some d →
      Opened r q i token { x with kind := .chute, peerModule := m, peerSide := s.pwr.config.side, edge := q.edge } d.tail (opening s q) t ∧
      (getGraphSlot t slot).chutes = (getGraphSlot s slot).chutes ++ [(q.edge, .hub (Fin.ofNat 2048 i))]) ∧
    (q.kind = 3 →
      Opened r q i token { x with kind := .mirror, peerModule := moduleNum s, peerSide := 1 - s.pwr.config.side } 1000 (opening s q) t)) := by
  obtain ⟨u, v, t, token, hu, hv, ht, answer, pwr, mac, run⟩ := open_placed front parsed header kind
    ((nonceStands_iff s q).2 may.1) ((Machine.mayOpen_iff kind).2 may.2) ((openFields_iff q).2 fields) (openIndex_place place)
  have enrolment : enrolled (opening s q) = enrolled s := by
    unfold enrolled lastSlot
    rw [show (opening s q).pwr = u.pwr by rw [hu], pwr]
  rw [enrolment] at hv
  exact ⟨t, token, run, fun k => (mgmt_opens hu hv ht k answer :), opened_lot hu hv ht (mac _), opened_chute hu hv ht (mac _) pwr,
    opened_mirror hu hv ht (mac _) pwr⟩

end

/-! ## SHUT -/

/-- What SHUT does in an open session (R287, R305). -/
def shutIn (r : MgmtFrame) (s : State) : State :=
  let b := r.body
  let i := beAt b 2 2
  if b.length ≠ 4 ∨ 1 < beAt b 0 1 ∨ beAt b 1 1 ≠ 0 then finishMgmt s r stBadRequest []
  else if beAt b 0 1 = 0 then
    if (getMgmt s i).isSome then finishMgmt (setMgmt s i none) r stOk [] else finishMgmt s r stNoSession []
  else if i < 2048 ∧ (getSession s i).kind = .lot then finishMgmt (shutLot s i) r stOk []
  else if i < 2048 ∧ (getSession s i).kind ≠ .free then finishMgmt s r stBadRequest []
  else finishMgmt s r stNoSession []

theorem shut_runs {s t : State} {r : MgmtFrame} (front : AtFront r 3 s) (inside : InSession r s) (run : shutIn r (dequeue s) = t)
    (queue : t.port.mgmtQueue = s.port.mgmtQueue.tail) : exec (.shut r) s = .next t :=
  mgmtRow_done (c := .shut r) (op := 3) (f := fun _ s => shutIn r s) front rfl inside rfl t (fun _ _ => run) queue

theorem shutLot_queue (s : State) (i : Nat) : (shutLot s i).port.mgmtQueue = s.port.mgmtQueue :=
  congrArg Prod.fst (congrArg Prod.snd (((shutLot_gives s i).frame.2 .mgmt).resolve_left (by decide) :))

section
variable {s : State} {r : MgmtFrame} (front : AtFront r 3 s) (inside : InSession r s)
include front inside

theorem shut_bad (bad : ¬ (r.body.length = 4 ∧ beAt r.body 0 1 ≤ 1 ∧ beAt r.body 1 1 = 0)) :
    ∃ t, exec (.shut r) s = .next t ∧ Finished r 5 [] (dequeue s) t :=
  ⟨_, shut_runs front inside (if_pos (by omega)) (finish_queue ..), finish_gives ..⟩

variable (good : r.body.length = 4 ∧ beAt r.body 0 1 ≤ 1 ∧ beAt r.body 1 1 = 0)
include good

theorem shut_mgmt (k : beAt r.body 0 1 = 0) :
    (getMgmt s (beAt r.body 2 2) ≠ none → ∃ t, exec (.shut r) s = .next t ∧ Finished r 0 [] (mgmtClosed (dequeue s) (beAt r.body 2 2)) t) ∧
    (getMgmt s (beAt r.body 2 2) = none → ∃ t, exec (.shut r) s = .next t ∧ Finished r 2 [] (dequeue s) t) := by
  refine ⟨fun open_ => ⟨finishMgmt (mgmtClosed (dequeue s) (beAt r.body 2 2)) r 0 [], shut_runs front inside ?_ (finish_queue ..), finish_gives ..⟩,
    fun closed => ⟨finishMgmt (dequeue s) r 2 [], shut_runs front inside ?_ (finish_queue ..), finish_gives ..⟩⟩
  · exact (if_neg (by omega)).trans ((if_pos k).trans (if_pos (some_of_ne open_)))
  · exact (if_neg (by omega)).trans ((if_pos k).trans (if_neg (by
      rw [show getMgmt (dequeue s) (beAt r.body 2 2) = none from closed]
      decide)))

theorem shut_session (k : beAt r.body 0 1 = 1) :
    (beAt r.body 2 2 < 2048 → (getSession s (beAt r.body 2 2)).kind = .lot → ∃ t z, exec (.shut r) s = .next t ∧
      LotShut (beAt r.body 2 2) (dequeue s) z ∧ Finished r 0 [] z t) ∧
    (beAt r.body 2 2 < 2048 → (getSession s (beAt r.body 2 2)).kind = .chute ∨ (getSession s (beAt r.body 2 2)).kind = .mirror →
      ∃ t, exec (.shut r) s = .next t ∧ Finished r 5 [] (dequeue s) t) ∧
    (2048 ≤ beAt r.body 2 2 ∨ (getSession s (beAt r.body 2 2)).kind = .free →
      ∃ t, exec (.shut r) s = .next t ∧ Finished r 2 [] (dequeue s) t) := by
  refine ⟨fun low lot => ⟨_, shutLot (dequeue s) (beAt r.body 2 2), shut_runs front inside (t := finishMgmt _ r 0 []) ?_ ?_,
      shutLot_gives .., finish_gives ..⟩,
    fun low other => ⟨finishMgmt (dequeue s) r 5 [], shut_runs front inside ?_ (finish_queue ..), finish_gives ..⟩,
    fun none => ⟨finishMgmt (dequeue s) r 2 [], shut_runs front inside ?_ (finish_queue ..), finish_gives ..⟩⟩
  · exact (if_neg (by omega)).trans ((if_neg (by omega)).trans (if_pos ⟨low, lot⟩))
  · rw [finish_queue, shutLot_queue]
    rfl
  · refine (if_neg (by omega)).trans ((if_neg (by omega)).trans ((if_neg ?_).trans (if_pos ⟨low, ?_⟩)))
    · rintro ⟨-, lot⟩
      rcases other with chute | mirror
      · exact nomatch chute.symm.trans lot
      · exact nomatch mirror.symm.trans lot
    · intro free
      rcases other with chute | mirror
      · exact nomatch chute.symm.trans free
      · exact nomatch mirror.symm.trans free
  · refine (if_neg (by omega)).trans ((if_neg (by omega)).trans ((if_neg ?_).trans (if_neg ?_)))
    · rintro ⟨low, lot⟩
      rcases none with high | free
      · omega
      · exact nomatch free.symm.trans lot
    · rintro ⟨low, held⟩
      rcases none with high | free
      · omega
      · exact held free

end

/-! ## ANNOUNCE -/

theorem announce_iff (s : State) : (s.port.inService && s.pwr.config.announcePort != 0 && s.pwr.config.nextHopMac != 0 &&
      !s.pwr.announceStop && decide (s.pwr.announced < 60)) = true ↔
    s.port.inService = true ∧ s.pwr.config.announcePort ≠ 0 ∧ s.pwr.config.nextHopMac ≠ 0 ∧ s.pwr.announceStop = false ∧
      s.pwr.announced < 60 := by
  simp only [Bool.and_eq_true, bne_iff_ne, Bool.not_eq_true', decide_eq_true_eq, and_assoc]

theorem announced_sameBut (s : State) (n : Nat) (f : TxFrame) :
    SameBut [.pwr, .txQueue] s (pushTx { s with pwr := { s.pwr with announced := n } } f) := by
  have can := Can.all [.txQueue]
  exact sameBut_join (upd_pwr (t := { s with pwr := { s.pwr with announced := n } }) rfl rfl rfl rfl rfl rfl)
    (pushTx_keeps (P := (· ∈ [.txQueue])) (.refl _) _).sameBut

/-- Settles O55. -/
theorem sessionRequests : Obligations.SessionRequests := by
  unfold Obligations.SessionRequests
  refine ⟨fun s r front => ⟨hello_bad front, hello_answers front⟩, fun s r sig front => ⟨open_bad front, fun q parsed header kind =>
    ⟨open_refused front parsed header kind, open_fields front parsed header kind, open_busy front parsed header kind,
      fun may fields i place => open_opens front parsed header kind may fields place⟩⟩, fun s r front inside => ?_, fun s => ?_⟩
  · intro y k i good
    exact ⟨shut_bad front inside, fun ok k0 => (shut_mgmt front inside ok k0).1, fun ok k0 => (shut_mgmt front inside ok k0).2,
      fun ok k1 => (shut_session front inside ok k1).1, fun ok k1 => (shut_session front inside ok k1).2.1,
      fun ok k1 => (shut_session front inside ok k1).2.2⟩
  · intro c may
    exact ⟨fun no => congrArg Host.Outcome.next (if_neg fun all => no ((announce_iff s).1 all)),
      fun all => ⟨_, _, congrArg Host.Outcome.next (if_pos ((announce_iff s).2 all)), rfl, rfl, rfl, rfl, rfl, rfl, rfl,
        announced_sameBut ..⟩⟩

end Sys2Proof.Safety

end

section
/-! READ, WRITE, ABORT and the rows that write a register (R216, R234, R306, R320, R352, R356, R358, R399 to R406). -/

-- one theorem after the other: proofs side by side would need more memory than the check allows
set_option Elab.async false

namespace Sys2Proof.Safety

open Sys2Proof.Machine

/-! ## READ and WRITE -/

/-- The session of a request is open for as long as nothing changes the management sessions. -/
theorem session_stays {P : Part → Prop} {s z : State} {r : MgmtFrame} (inside : InSession r s) (kept : Keeps P (dequeue s) z)
    (h : ¬ P .mgmt) : getMgmt z r.header.session.toNat ≠ none := by
  have open_ := inSession_ne inside
  rw [keeps_mgmt kept h]
  exact open_

section
variable {s : State} {r : MgmtFrame} {sig : SigVerdict} {write : Bool} (front : AtFront r (if write then 17 else 16) s)
  (inside : InSession r s)
include front inside

theorem access_bad (bad : ¬ AccessFields r write) :
    ∃ t, exec (accessRow r sig write) s = .next t ∧ Finished r 5 [] (dequeue s) t := by
  refine ⟨_, access_row front inside (t := finishMgmt (dequeue s) r 5 []) ?_ (settle_queue front (finish_queue ..)), finish_gives ..⟩
  rw [plan_none bad]
  rfl

variable (fields : AccessFields r write)
include fields

/-- A READ of words that all answer (R400, R401). -/
theorem read_done (isRead : write = false) (answer : ∀ p ∈ accessList r write, AddrAnswers s p.1) :
    ∃ t z ws, exec (accessRow r sig write) s = .next t ∧ ReadsWords ((accessList r write).map (·.1)) ws (dequeue s) z ∧
      ws.length = (accessList r write).length ∧ AccessDone r (accessList r write).length ws z t := by
  subst isRead
  obtain ⟨x, open_, -⟩ := inside.open_
  obtain ⟨ws, z, reads⟩ := reads_exist (s := dequeue s) (l := (accessList r false).map (·.1)) fun a mem => by
    obtain ⟨p, listed, rfl⟩ := List.mem_map.1 mem
    exact answer p listed
  obtain ⟨kept, length⟩ := reads_keeps reads
  have run := access_reads (sig := ⟨false, false⟩) (rest := []) reads (show getMgmt (dequeue s) r.header.session.toNat = some x from open_) 0 []
  rw [List.append_nil, List.nil_append, Nat.zero_add] at run
  obtain ⟨t, done, answered⟩ := access_done (sig := sig) front inside fields (run.trans rfl)
    (session_stays inside kept (by decide)) (mgmtQueue_keeps kept (by decide))
  exact ⟨t, z, ws, done, reads, by rw [length, List.length_map], answered⟩

/-- A READ that meets a word that does not answer (R320, R401). -/
theorem read_stops (isRead : write = false) {d e : List (Nat × Word)} {p : Nat × Word} {x : RegLoc}
    (list : accessList r write = d ++ p :: e) (answer : ∀ q ∈ d, AddrAnswers s q.1) (here : locate p.1 = some x)
    (silent : answers s x.dom = false) :
    ∃ z ws, ReadsWords (d.map (·.1)) ws (dequeue s) z ∧ AccessStops (accessRow r sig write) r d.length ws x s z := by
  subst isRead
  obtain ⟨m, open_, -⟩ := inside.open_
  obtain ⟨ws, z, reads⟩ := reads_exist (s := dequeue s) (l := d.map (·.1)) fun a mem => by
    obtain ⟨q, listed, rfl⟩ := List.mem_map.1 mem
    exact answer q listed
  obtain ⟨kept, -⟩ := reads_keeps reads
  have run := access_reads (sig := ⟨false, false⟩) (rest := p :: e) reads (show getMgmt (dequeue s) r.header.session.toNat = some m from open_) 0 []
  rw [access_stop (session_stays inside kept (by decide)) here
    (by rw [keeps_answers kept (by decide)]; exact silent), keeps_runs kept (by decide), List.nil_append, Nat.zero_add] at run
  exact ⟨z, ws, reads, access_stops front inside fields (by rw [list]; exact run) (mgmtQueue_keeps kept (by decide))⟩

/-- A WRITE whose words are all written (R400, R401). -/
theorem write_done (isWrite : write = true) {z : State} (writes : WritesWords r.header.session.toNat sig (accessList r write) (dequeue s) z)
    (open_ : getMgmt z r.header.session.toNat ≠ none) (queue : z.port.mgmtQueue = s.port.mgmtQueue.tail) :
    ∃ t, exec (accessRow r sig write) s = .next t ∧ AccessDone r (accessList r write).length [] z t := by
  subst isWrite
  have run := access_writes (rest := []) writes 0 []
  rw [List.append_nil, Nat.zero_add] at run
  exact access_done front inside fields (run.trans rfl) open_ queue

theorem write_plain (isWrite : write = true)
    (plain : ∀ p ∈ accessList r write, ∃ x, locate p.1 = some x ∧ answers s x.dom = true ∧ ¬ Acts x) :
    ∃ t z, exec (accessRow r sig write) s = .next t ∧
      WritesWords r.header.session.toNat sig (accessList r write) (dequeue s) z ∧
      RegsBut ((accessList r write).map (·.1)) (dequeue s) z ∧ SameBut [.regs] (dequeue s) z ∧
      AccessDone r (accessList r write).length [] z t := by
  obtain ⟨z, writes, kept, regs⟩ := writes_keeps (s := dequeue s) (sig := sig) plain (session_stays inside (.refl (P := (· ∈ [])) _) (by decide))
  obtain ⟨t, done, answered⟩ := write_done front inside fields isWrite writes
    (session_stays inside kept (by decide)) (mgmtQueue_keeps kept (by decide))
  exact ⟨t, z, done, writes, regs, kept.sameBut, answered⟩

theorem write_stops (isWrite : write = true) {d e : List (Nat × Word)} {p : Nat × Word} {x : RegLoc}
    (list : accessList r write = d ++ p :: e)
    (plain : ∀ q ∈ d, ∃ x, locate q.1 = some x ∧ answers s x.dom = true ∧ ¬ Acts x) (here : locate p.1 = some x)
    (silent : answers s x.dom = false) :
    ∃ z, WritesWords r.header.session.toNat sig d (dequeue s) z ∧ AccessStops (accessRow r sig write) r d.length [] x s z := by
  subst isWrite
  obtain ⟨z, writes, kept, -⟩ := writes_keeps (s := dequeue s) (sig := sig) plain (session_stays inside (.refl (P := (· ∈ [])) _) (by decide))
  have run := access_writes (rest := p :: e) writes 0 []
  rw [access_stop (session_stays inside kept (by decide)) here
    (by rw [keeps_answers kept (by decide)]; exact silent), keeps_runs kept (by decide), Nat.zero_add] at run
  exact ⟨z, writes, access_stops front inside fields (by rw [list]; exact run) (mgmtQueue_keeps kept (by decide))⟩

end

/-! ## ABORT -/

/-- What ABORT does in an open session (R306, R401). -/
def abortIn (r : MgmtFrame) (s : State) : State :=
  match s.port.held with
  | some h =>
    if r.body.length = 4 ∧ beNat r.body = h.req.header.reqId.toNat then abandonHeld (finishMgmt s r stOk r.body) h
    else finishMgmt s r stBadRequest []
  | none => finishMgmt s r stBadRequest []

section
variable {s : State} {r : MgmtFrame} (inside : InSession r s)
include inside

theorem abort_nothing (front : AtFront r 18 s) : ∃ t, exec (.abort r) s = .next t ∧ Finished r 5 [] (dequeue s) t := by
  refine ⟨_, mgmtRow_done (c := .abort r) (f := fun _ => abortIn r) front rfl inside rfl (finishMgmt (dequeue s) r 5 [])
    (fun x _ => ?_) (finish_queue ..), finish_gives ..⟩
  unfold abortIn
  rw [show (dequeue s).port.held = none from front.free]
  rfl

variable {h : HeldAccess} (front : AbortFront r h s)
include front

theorem abort_other (other : ¬ (r.body.length = 4 ∧ beNat r.body = h.req.header.reqId.toNat)) :
    ∃ t, exec (.abort r) s = .next t ∧ Finished r 5 [] (dequeue s) t := by
  refine ⟨finishMgmt (dequeue s) r 5 [], abort_front front inside (fun x _ => ?_) ?_, finish_gives ..⟩
  · rw [show (dequeue s).port.held = some h from front.held]
    exact if_neg other
  · rw [finish_queue]
    exact front.next

theorem abort_held (mine : r.body.length = 4 ∧ beNat r.body = h.req.header.reqId.toNat) :
    ∃ t u v, exec (.abort r) s = .next t ∧ Finished r 0 r.body (dequeue s) u ∧ v.port = { u.port with held := none } ∧
      Counted Ctr.MG_ABANDON_CNT 1 u v ∧ BitSet Flag.ident_ABANDONED.1 Flag.ident_ABANDONED.2 v ∧
      RegsBut [Ctr.MG_ABANDON_CNT, Flag.ident_ABANDONED.1] u v ∧ SameBut [.regs, .mgmt] u v ∧
      Finished h.req 4 (accessBody h.req h.at_ h.words) v t := by
  obtain ⟨u, hu⟩ : ∃ u, u = finishMgmt (dequeue s) r 0 r.body := ⟨_, rfl⟩
  obtain ⟨v, port, counted, flag, regs, same, run⟩ := abandon_gives u h
  have queue : (finishMgmt v h.req 4 (accessBody h.req h.at_ h.words)).port.mgmtQueue = s.port.mgmtQueue.tail := by
    rw [finish_queue, port, hu]
    exact finish_queue ..
  refine ⟨_, u, v, abort_front front inside (t := finishMgmt v h.req 4 (accessBody h.req h.at_ h.words)) (fun x _ => ?_) ?_,
    hu ▸ finish_gives .., port, counted, flag, regs, same, finish_gives ..⟩
  · rw [show (dequeue s).port.held = some h from front.held, ← run, hu]
    exact if_pos mine
  · rw [queue]
    exact front.next

end

/-! ## Rows that write a register -/

theorem hqCfgWrite_gives (s : State) (v : Word) (q : QueueId) : let live := isLiveDom s (.seam q.seam .fclk) = true
    (live → ∃ t, exec (.hqCfgWrite q v) s = .next t ∧ FieldSet (queueRegBase q) 6 0 (v.toNat % 128) s t ∧ SameBut [.regs] s t) ∧
    (¬ live → exec (.hqCfgWrite q v) s = .next s) := by
  refine ⟨fun live => ⟨_, congrArg Host.Outcome.next (if_pos live), ?_, ?_⟩, fun dead => congrArg Host.Outcome.next (if_neg dead)⟩
  · have field := setField_gives s (queueRegBase q) 6 0 (bitField v.toNat 6 0) (by decide) (by decide)
    rwa [show bitField v.toNat 6 0 % 2 ^ (6 + 1 - 0) = v.toNat % 128 by unfold bitField; omega] at field
  · have can := Can.all [.regs]
    exact (setRawField_keeps (P := (· ∈ [.regs])) (.refl s) ..).sameBut

theorem chCtrlReset_gives (s : State) (v : Word) (ep : EndpointId) : let act := v.getLsbD 0 = true ∧ isLiveDom s (epDomain ep) = true
    (act → exec (.chCtrlReset ep v) s = exec (.chuteReset ep) s) ∧ (¬ act → exec (.chCtrlReset ep v) s = .next s) := by
  intro act
  have run : exec (.chCtrlReset ep v) s = .next (if isLiveDom s (epDomain ep) then (if bitAt v.toNat 0 then resetAt s ep else s) else s) := rfl
  rw [run, bitAt_getLsbD]
  refine ⟨fun ⟨bit, live⟩ => ?_, fun no => ?_⟩
  · rw [if_pos live, if_pos bit]
    rfl
  · by_cases live : isLiveDom s (epDomain ep) = true
    · rw [if_pos live, if_neg fun bit => no ⟨bit, live⟩]
    · rw [if_neg live]

theorem keyedBit_iff (v : Word) (k : Nat) : (keyed v && bitAt v.toNat k) = true ↔ v.toNat % 2 ^ 16 = Config.key ∧ v.getLsbD k = true := by
  rw [Bool.and_eq_true, keyed_iff, bitAt_getLsbD]

theorem depCtrlWarm_gives (s : State) (v : Word) : let act := v.toNat % 2 ^ 16 = Config.key ∧ v.getLsbD 16 = true
    (act → exec (.depCtrlWarm v) s = exec (.warmReset .depCtrl) s) ∧ (¬ act → exec (.depCtrlWarm v) s = .next s) :=
  ⟨fun act => congrArg Host.Outcome.next (if_pos ((keyedBit_iff v 16).2 act)),
    fun no => congrArg Host.Outcome.next (if_neg fun act => no ((keyedBit_iff v 16).1 act))⟩

/-- The restore given up leaves the journal without one, and reports it (R356). -/
theorem skipRestore_gives (s : State) : let t := skipRestore s
    t.dep = s.dep ∧ t.jnl.mirror ≠ .restoring ∧ BitSet (depBase + Flag.dep_JNL_DISCARDED.1) Flag.dep_JNL_DISCARDED.2 t ∧
      RegsBut [depBase + Flag.dep_JNL_DISCARDED.1] s t ∧ SameBut [.regs, .jnl] s t := by
  obtain ⟨y, hy⟩ : ∃ y, y = ({ s with jnl := { s.jnl with
    mirror := if s.port.outs.any fun o => o.kind == .mirror && o.stage == .open_ then .up else .lost } } : State) := ⟨_, rfl⟩
  have run : skipRestore s = raise y depBase Flag.dep_JNL_DISCARDED := by
    rw [hy]
    rfl
  have can := Can.all [.regs, .jnl]
  have kept : Keeps (· ∈ [.regs, .jnl]) s y := by
    rw [hy]
    exact Keeps.upd (.refl s) rfl rfl rfl
  rw [run]
  refine ⟨by rw [raise_dep, hy], ?_, bitSet_raise _ _ _ (by decide), fun a => ?_, (raise_keeps kept ..).sameBut⟩
  · rw [raise_jnl, hy]
    dsimp only
    split <;> exact nofun
  · refine (Classical.em (a = depBase + Flag.dep_JNL_DISCARDED.1)).imp List.mem_singleton.2 fun other => ?_
    rw [rawReg_raise_other _ other, hy]
    rfl

theorem restoreSkip_iff (s : State) : (s.pwr.config.twin && !s.pwr.warm && !s.dep.service && deputyRuns s) = true ↔
    s.pwr.config.twin = true ∧ s.pwr.warm = false ∧ s.dep.service = false ∧ deputyRuns s = true := by
  simp only [Bool.and_eq_true, Bool.not_eq_true', and_assoc]

theorem depCtrlRestoreSkip_gives (s : State) (v : Word) :
    let act := v.toNat % 2 ^ 16 = Config.key ∧ v.getLsbD 17 = true ∧ s.pwr.config.twin = true ∧ s.pwr.warm = false ∧
      s.dep.service = false ∧ deputyRuns s = true
    (¬ act → exec (.depCtrlRestoreSkip v) s = .next s) ∧
    (act → ∃ t, exec (.depCtrlRestoreSkip v) s = .next t ∧ t.dep = { s.dep with restoreSkip := true } ∧
      (s.jnl.mirror ≠ .restoring → SameBut [.dep] s t) ∧
      (s.jnl.mirror = .restoring → t.jnl.mirror ≠ .restoring ∧ BitSet (depBase + Flag.dep_JNL_DISCARDED.1) Flag.dep_JNL_DISCARDED.2 t ∧
        RegsBut [depBase + Flag.dep_JNL_DISCARDED.1] s t ∧ SameBut [.regs, .dep, .jnl] s t)) := by
  intro act
  obtain ⟨y, hy⟩ : ∃ y, y = ({ s with dep := { s.dep with restoreSkip := true } } : State) := ⟨_, rfl⟩
  have same : SameBut [.dep] s y := by
    have can := Can.all [.dep]
    rw [hy]
    exact (Keeps.upd (.refl s) rfl rfl rfl).sameBut
  refine ⟨fun no => congrArg Host.Outcome.next ?_, fun ⟨key, bit, rest⟩ => ?_⟩
  · by_cases keyedBit : (keyed v && bitAt v.toNat 17) = true
    · rw [if_pos keyedBit]
      obtain ⟨key, bit⟩ := (keyedBit_iff v 17).1 keyedBit
      exact if_neg fun all => no ⟨key, bit, (restoreSkip_iff s).1 all⟩
    · exact if_neg keyedBit
  · have run : exec (.depCtrlRestoreSkip v) s = .next (if y.jnl.mirror = .restoring then skipRestore y else y) := by
      rw [hy]
      exact congrArg Host.Outcome.next ((if_pos ((keyedBit_iff v 17).2 ⟨key, bit⟩)).trans (if_pos ((restoreSkip_iff s).2 rest)))
    have mirror : y.jnl.mirror = s.jnl.mirror := by rw [hy]
    by_cases restoring : s.jnl.mirror = .restoring
    · obtain ⟨dep, ends, flag, regs, kept⟩ := skipRestore_gives y
      refine ⟨skipRestore y, run.trans (congrArg _ (if_pos (mirror.trans restoring))), by rw [dep, hy], fun no => absurd restoring no,
        fun _ => ⟨ends, flag, fun a => ?_, sameBut_join same kept⟩⟩
      exact (regs a).imp id fun e => e.trans (by rw [hy]; rfl)
    · exact ⟨y, run.trans (congrArg _ (if_neg (by rw [mirror]; exact restoring))), by rw [hy], fun _ => same,
        fun yes => absurd yes restoring⟩

/-- Settles O56. -/
theorem registerAccess : Obligations.RegisterAccess := by
  unfold Obligations.RegisterAccess
  refine ⟨fun s r sig write front inside => ?_, fun s a x still => readReg_plain still, fun s a x v sig signed plain => ?_,
    fun s r inside => ⟨abort_nothing inside, fun h held => ⟨abort_other inside held, abort_held inside held⟩⟩,
    fun s v => ⟨hqCfgWrite_gives s v, chCtrlReset_gives s v, depCtrlWarm_gives s v, depCtrlRestoreSkip_gives s v⟩⟩
  · intro c y l i
    exact ⟨access_bad front inside, fun fields isRead => ⟨read_done front inside fields isRead,
        fun d p e x list answer here silent => read_stops front inside fields isRead list answer here silent⟩,
      fun fields isWrite => ⟨write_plain front inside fields isWrite,
        fun z writes open_ queue => write_done front inside fields isWrite writes open_ queue,
        fun d p e x list plain here silent => write_stops front inside fields isWrite list plain here silent⟩⟩
  · intro t d
    have run : t = setRawReg s a (writtenWord d (rawReg s a) v) := writeReg_plain plain
    obtain ⟨kept, regs⟩ := setRaw_same s a (writtenWord d (rawReg s a) v)
    rw [run]
    exact ⟨fun k low => by rw [rawReg_setRawReg_self]; exact written_bit d _ v k low, regs, kept.sameBut⟩

end Sys2Proof.Safety

end

section
/-! Programming of images, owner enrolment and release, and attestation (R373 to R376, R382, R387). -/

-- one theorem after the other: proofs side by side would need more memory than the check allows
set_option Elab.async false

namespace Sys2Proof.Safety

open Sys2Proof.Machine

/-! ## PROGRAM and VERIFY -/

section
variable {v : Word} {c : Nat × Instr} (row : c ∈ imgRows v) {s : State}
include row

theorem image_ignored (h : v.toNat % 4 ≠ c.1 ∨ s.pwr.imgOp ≠ none ∨ deputyRuns s = false) : exec c.2 s = .next s := by
  obtain ⟨-, other, mine⟩ := img_row row s
  by_cases cmd : v.toNat % 4 = c.1
  · refine (mine cmd).trans (congrArg Host.Outcome.next (if_pos ?_))
    rw [Bool.or_eq_true, Bool.not_eq_true']
    exact (h.resolve_left (fun no => no cmd)).imp some_of_ne id
  · exact other cmd

theorem image_begins (cmd : v.toNat % 4 = c.1) (idle : s.pwr.imgOp = none) (runs : deputyRuns s = true) :
    let op : ImgOp := ⟨decide (c.1 = 2), v.getLsbD 2, v.toNat / 16 % 1024⟩
    let refused := (op.targetB = s.pwr.slotB ∧ s.pwr.rescue = false) ∨ (c.1 = 1 ∧ op.chunk = 1008)
    (refused → ∃ t, exec c.2 s = .next t ∧ ImgFailed 1 0 s t ∧ SameBut [.regs] s t) ∧
    (¬ refused → exec c.2 s = .next { s with pwr := { s.pwr with imgOp := some op } }) := by
  intro op refused
  obtain ⟨code, -, mine⟩ := img_row row s
  have begins := (mine cmd).trans (congrArg Host.Outcome.next (beginImg_gives (op := op) idle runs))
  have same : ((op.targetB == s.pwr.slotB && !s.pwr.rescue) || (!op.verify && op.chunk == offOwner / sectionBytes)) = true ↔ refused := by
    have program : op.verify = false ↔ c.1 = 1 := by
      change decide (c.1 = 2) = false ↔ _
      rw [decide_eq_false_iff_not]
      omega
    rw [Bool.or_eq_true, Bool.and_eq_true, Bool.and_eq_true, beq_iff_eq, beq_iff_eq, Bool.not_eq_true', Bool.not_eq_true', program]
    rfl
  obtain ⟨failed, frame⟩ := imgFail_gives s 1 0 (by decide) (by decide)
  exact ⟨fun no => ⟨_, begins.trans (congrArg _ (if_pos (same.2 no))), failed, frame⟩,
    fun yes => begins.trans (congrArg _ (if_neg fun no => yes (same.1 no)))⟩

end

/-! ## IMG_PROG_DONE -/

/-- The state in which the command of IMG_CTRL that ran has ended (R373). -/
def imgIdle (s : State) : State :=
  { s with pwr := { s.pwr with imgOp := none } }

theorem imgIdle_sameBut (s : State) : SameBut [.image] s (imgIdle s) := by
  refine ⟨rfl, fun p => ?_⟩
  cases p
  case image => exact .inl (.head _)
  all_goals exact .inr rfl

section
variable {s : State} {op : ImgOp} (runs : s.pwr.imgOp = some op) (ok : Bool) (e : Fin 8) (v : ImageVerdict)
include runs

theorem verify_done (verify : op.verify = true) : let n := checkAll s (norOf s op.targetB) v
    ∃ t, exec (.imgProgDone ok e v) s = .next t ∧ t.pwr.imgOp = none ∧ SameBut [.regs, .image] s t ∧
      (n = 0 → BitSet (imgBase + Flag.img_DONE.1) Flag.img_DONE.2 t ∧ RegsBut [imgBase + Flag.img_DONE.1] s t) ∧
      (n ≠ 0 → ImgFailed 4 n s t) := by
  intro n
  have run : exec (.imgProgDone ok e v) s = .next (if n = 0 then raise (imgIdle s) imgBase Flag.img_DONE else imgFail (imgIdle s) 4 n) := by
    change Host.Outcome.next (imgProgDone s ok e.val v) = _
    unfold imgProgDone
    rw [runs]
    rw [show n = checkAll (imgIdle s) (norOf (imgIdle s) op.targetB) v from (checkAll_same (s := s) (t := imgIdle s) rfl rfl _ v).symm]
    exact congrArg Host.Outcome.next (if_pos verify)
  by_cases good : n = 0
  · obtain ⟨flag, regs, kept⟩ := raise_only (imgIdle s) imgBase Flag.img_DONE (by decide)
    exact ⟨_, run.trans (congrArg _ (if_pos good)), by rw [raise_pwr]; rfl, sameBut_join (imgIdle_sameBut s) kept.sameBut,
      fun _ => ⟨flag, regs⟩, fun bad => absurd good bad⟩
  · obtain ⟨failed, frame⟩ := imgFail_gives (imgIdle s) 4 n (by decide) (checkAll_le ..)
    exact ⟨_, run.trans (congrArg _ (if_neg good)), by rw [imgFail_pwr]; rfl, sameBut_join (imgIdle_sameBut s) frame,
      fun zero => absurd zero good, fun _ => failed⟩

variable (program : op.verify = false)
include program

theorem program_done : let a := op.chunk * sectionBytes
    ∃ t, exec (.imgProgDone true e v) s = .next t ∧ t.pwr.imgOp = none ∧ NorBut op.targetB a sectionBytes s t ∧
      NorHolds op.targetB a (stagingBytes s 0 sectionBytes) t ∧ BitSet (imgBase + Flag.img_DONE.1) Flag.img_DONE.2 t ∧
      RegsBut [imgBase + Flag.img_DONE.1] s t ∧ SameBut [.regs, .nor, .image] s t := by
  intro a
  obtain ⟨z, hz⟩ : ∃ z, z = setNor (imgIdle s) op.targetB (norStore (norOf (imgIdle s) op.targetB) a (stagingBytes s 0 sectionBytes)) := ⟨_, rfl⟩
  have run : exec (.imgProgDone true e v) s = .next (raise z imgBase Flag.img_DONE) := by
    rw [hz]
    change Host.Outcome.next (imgProgDone s true e.val v) = _
    unfold imgProgDone
    rw [runs]
    exact congrArg Host.Outcome.next ((if_neg (by rw [program]; decide)).trans (if_pos rfl))
  obtain ⟨but, holds⟩ := setNor_gives (imgIdle s) op.targetB a sectionBytes (stagingBytes s 0 sectionBytes) (stagingBytes_length ..)
  rw [← hz] at but holds
  obtain ⟨flag, regs, kept⟩ := raise_only z imgBase Flag.img_DONE (by decide)
  refine ⟨_, run, ?_, norBut_raise (norOf_raise z _ _) but, norHolds_congr (norOf_raise z _ _) holds, flag, ?_, ?_⟩
  · rw [raise_pwr, hz, setNor_imgOp]
    rfl
  · exact regsBut_of regs fun r => by rw [hz, setNor_reg]; rfl
  · exact sameBut_join (n := [.regs, .nor, .image])
      (sameBut_join (n := [.nor, .image]) (imgIdle_sameBut s) (hz ▸ setNor_same ..)) kept.sameBut

theorem program_fails : let a := op.chunk * sectionBytes
    ∃ t, exec (.imgProgDone false e v) s = .next t ∧ t.pwr.imgOp = none ∧ NorBut op.targetB a sectionBytes s t ∧
      ImgFailed (if e.val = 3 then 3 else 2) 0 s t ∧ SameBut [.freeCount, .regs, .nor, .image] s t := by
  intro a
  obtain ⟨y, hy⟩ : ∃ y, y = (openBlock (imgIdle s)).2 := ⟨_, rfl⟩
  obtain ⟨z, hz⟩ : ∃ z, z = setNor y op.targetB (norStore (norOf y op.targetB) a (openBlock (imgIdle s)).1) := ⟨_, rfl⟩
  have run : exec (.imgProgDone false e v) s = .next (imgFail z (if e.val = 3 then 3 else 2) 0) := by
    rw [hz, hy]
    change Host.Outcome.next (imgProgDone s false e.val v) = _
    unfold imgProgDone
    rw [runs]
    exact congrArg Host.Outcome.next ((if_neg (by rw [program]; decide)).trans (if_neg (by decide)))
  have power : y.pwr = (imgIdle s).pwr := hy ▸ openBlock_pwr _
  have drawn : Keeps (· ∈ [.freeCount]) (imgIdle s) y := by
    have can := Can.all [.freeCount]
    rw [hy]
    exact Keeps.upd (.refl _) rfl rfl rfl
  obtain ⟨but, -⟩ := setNor_gives y op.targetB a sectionBytes (openBlock (imgIdle s)).1 (openBlock_length _)
  rw [← hz] at but
  obtain ⟨failed, frame⟩ := imgFail_gives z (if e.val = 3 then 3 else 2) 0 (by split <;> decide) (by decide)
  have device (b : Bool) : norOf y b = norOf s b := by
    unfold norOf
    rw [power]
    rfl
  refine ⟨_, run, ?_, ?_, imgFailed_of failed fun r => ?_, ?_⟩
  · rw [imgFail_pwr, hz, setNor_imgOp, power]
    rfl
  · refine norBut_raise (s := z) (fun b => by unfold norOf; rw [imgFail_pwr]) ?_
    exact ⟨but.1.trans (device _), fun x far => (but.2 x far).trans (by rw [device])⟩
  · rw [hz, setNor_reg, hy]
    rfl
  · exact sameBut_join (n := [.freeCount, .regs, .nor, .image]) (sameBut_join (n := [.freeCount, .image]) (imgIdle_sameBut s) drawn.sameBut)
      (sameBut_join (n := [.regs, .nor]) (hz ▸ setNor_same ..) frame)

end

/-! ## Owner enrolment and release -/

/-- The state in which an owner's operation has ended (R387). -/
def ownerIdle (s : State) : State :=
  { s with pwr := { s.pwr with ownerOp := none } }

theorem writeOwner_port (s : State) (bs : List Byte) : (writeOwner s bs).port = s.port := rfl

theorem loadByte_dramZero (m : List Host.Cell) {a : Addr} (low : a < Config.coreBase) :
    loadByte (m.filter fun c => Config.coreBase ≤ c.1) a = loadByte [] a :=
  (loadByte_filter m (fun x => decide (Config.coreBase ≤ x)) a).trans
    (if_neg fun high => Nat.not_le.2 low (of_decide_eq_true high))

theorem set_last {α : Type} {l : List α} {x : α} (last : l.getLast? = some x) (y : α) :
    l.set (l.length - 1) y = l.dropLast ++ [y] := by
  obtain ⟨front, rfl⟩ := List.getLast?_eq_some_iff.1 last
  simp

theorem ownerOpDone_some {s : State} {op : OwnerOp} (runs : s.pwr.ownerOp = some op) : exec .ownerOpDone s = .next
    (if op.release then completeRelease (raise (ownerIdle s) imgBase Flag.img_OWNER_DONE)
    else if op.failCode = 0 then raise (completeEnrol (ownerIdle s) op.keys) imgBase Flag.img_OWNER_DONE
    else raise (setRawField (ownerIdle s) (imgBase + 0x28) 5 3 op.failCode) imgBase Flag.img_FAIL) := by
  change Host.Outcome.next (ownerOpDone s) = _
  unfold ownerOpDone
  rw [runs]
  rfl

theorem ownerIdle_sameBut (s : State) : SameBut [.owner] s (ownerIdle s) := by
  refine ⟨rfl, fun p => ?_⟩
  cases p
  case owner => exact .inl (.head _)
  all_goals exact .inr rfl

section
variable {s : State} {op : OwnerOp} (runs : s.pwr.ownerOp = some op)
include runs

theorem enrol_done (enrols : op.release = false) (passed : op.failCode = 0) : ∃ t slots, exec .ownerOpDone s = .next t ∧
    slots = (if s.pwr.ownerLost then s.pwr.ownerSlots else s.pwr.ownerSlots ++ [{ digest := keysDigest op.keys, released := false }]) ∧
    t.pwr.ownerSlots = slots ∧ t.pwr.ownerLost = false ∧ t.pwr.ownerOp = none ∧
    OwnerSections (ownerBlock (slots.length - 1) op.keys) s t ∧ t.port = { s.port with mgmt := [], held := none } ∧
    BitSet (imgBase + Flag.img_OWNER_DONE.1) Flag.img_OWNER_DONE.2 t ∧ RegsBut [imgBase + Flag.img_OWNER_DONE.1] s t ∧
    SameBut [.regs, .nor, .owner, .mgmt] s t := by
  obtain ⟨slots, hs⟩ : ∃ slots, slots = (if s.pwr.ownerLost then s.pwr.ownerSlots
    else s.pwr.ownerSlots ++ [{ digest := keysDigest op.keys, released := false }]) := ⟨_, rfl⟩
  obtain ⟨y, hy⟩ : ∃ y, y = ({ s with pwr := { s.pwr with ownerOp := none, ownerSlots := slots, ownerLost := false } } : State) := ⟨_, rfl⟩
  obtain ⟨w, hw⟩ : ∃ w, w = writeOwner y (ownerBlock (slots.length - 1) op.keys) := ⟨_, rfl⟩
  have run : exec .ownerOpDone s = .next (raise (closeMgmt w) imgBase Flag.img_OWNER_DONE) := by
    rw [ownerOpDone_some runs, if_neg (by rw [enrols]; decide), if_pos passed, hw, hy, hs]
    rfl
  have toY : SameBut [.owner] s y := by
    rw [hy]
    refine ⟨rfl, fun p => ?_⟩
    cases p
    case owner => exact .inl (.head _)
    all_goals exact .inr rfl
  have toW : Keeps (· ∈ [.nor]) y w := hw ▸ writeOwner_keeps (.refl y) _ (Can.all _)
  have closed : Keeps (· ∈ [.mgmt]) w (closeMgmt w) := closeMgmt_keeps (.refl w) (Can.all _)
  obtain ⟨flag, regs, kept⟩ := raise_only (closeMgmt w) imgBase Flag.img_OWNER_DONE (by decide)
  have written := writeOwner_sections y (ownerBlock (slots.length - 1) op.keys) (ownerBlock_length ..)
  have device (b : Bool) : norOf (raise (closeMgmt w) imgBase Flag.img_OWNER_DONE) b = norOf w b := norOf_raise ..
  refine ⟨_, slots, run, hs, ?_, ?_, ?_, fun b => ?_, ?_, flag, regsBut_of regs fun r => ?_, ?_⟩
  · rw [raise_pwr, show (closeMgmt w).pwr = w.pwr from rfl, hw, hy]
    rfl
  · rw [raise_pwr, show (closeMgmt w).pwr = w.pwr from rfl, hw, hy]
    rfl
  · rw [raise_pwr, show (closeMgmt w).pwr = w.pwr from rfl, hw, hy]
    rfl
  · obtain ⟨holds, others⟩ := written b
    rw [← hw] at holds others
    refine ⟨norHolds_congr device holds, fun x far => ?_⟩
    rw [device, others x far, show norOf y b = norOf s b by rw [hy]; rfl]
  · rw [raise_port, closeMgmt, hw, writeOwner_port, hy]
  · rw [rawReg_congr (closed.field .regs (by decide)), rawReg_congr (toW.field .regs (by decide)), hy]
    rfl
  · exact sameBut_join (n := [.regs, .nor, .owner, .mgmt]) (sameBut_join (n := [.nor, .owner]) toY toW.sameBut)
      (sameBut_join (n := [.regs, .mgmt]) closed.sameBut kept.sameBut)

theorem enrol_fails (enrols : op.release = false) (failed : op.failCode ≠ 0) : ∃ t, exec .ownerOpDone s = .next t ∧
    t.pwr = { s.pwr with ownerOp := none } ∧ BitSet (imgBase + Flag.img_FAIL.1) Flag.img_FAIL.2 t ∧
    bitField (rawReg t (imgBase + 0x28)).toNat 5 3 = op.failCode % 8 ∧
    RegsBut [imgBase + 0x28, imgBase + Flag.img_FAIL.1] s t ∧ SameBut [.regs, .owner] s t := by
  obtain ⟨z, hz⟩ : ∃ z, z = setRawField (ownerIdle s) (imgBase + 0x28) 5 3 op.failCode := ⟨_, rfl⟩
  have run : exec .ownerOpDone s = .next (raise z imgBase Flag.img_FAIL) := by
    rw [ownerOpDone_some runs, if_neg (by rw [enrols]; decide), if_neg failed, hz]
  obtain ⟨field, -, -, others⟩ := setField_gives (ownerIdle s) (imgBase + 0x28) 5 3 op.failCode (by decide) (by decide)
  rw [← hz] at field others
  obtain ⟨flag, regs, kept⟩ := raise_only z imgBase Flag.img_FAIL (by decide)
  have can := Can.all [.regs]
  have set : SameBut [.regs] (ownerIdle s) z := hz ▸ (setRawField_keeps (P := (· ∈ [.regs])) (.refl _) ..).sameBut
  refine ⟨_, run, ?_, flag, (field_raise z imgBase Flag.img_FAIL 5 3 (by decide) (by decide)).trans field, fun a => ?_,
    sameBut_join (n := [.regs, .owner]) (ownerIdle_sameBut s) (sameBut_join (n := [.regs]) set kept.sameBut)⟩
  · rw [raise_pwr, hz]
    rfl
  · rcases others a with here | same
    · exact .inl (List.mem_cons.2 (.inl (List.mem_singleton.1 here)))
    · exact (regs a).imp (fun here => List.mem_cons_of_mem _ here) fun e => e.trans same

/-- The end of a release: a warm reset from a state `z` with the slot released, the owner sections erased and DRAM zero. -/
theorem release_done (releases : op.release = true) : ∃ t z kind, exec .ownerOpDone s = .next t ∧ WarmStarted kind z t ∧ kind < 4 ∧
    SameBut [.regs, .mem, .nor, .owner] s z ∧ (∀ a, a < Config.coreBase → loadByte t.mem a = loadByte [] a) ∧
    (∀ b, NorHolds b offOwner (List.replicate sectionBytes 0xFF) t) ∧
    (∀ x, s.pwr.ownerSlots.getLast? = some x → t.pwr.ownerSlots = s.pwr.ownerSlots.dropLast ++ [{ x with released := true }]) := by
  obtain ⟨y, hy⟩ : ∃ y, y = raise (ownerIdle s) imgBase Flag.img_OWNER_DONE := ⟨_, rfl⟩
  obtain ⟨slots, hs⟩ : ∃ slots, slots = (match lastSlot y with
      | some x => y.pwr.ownerSlots.set x.1 { x.2 with released := true }
      | none => y.pwr.ownerSlots) := ⟨_, rfl⟩
  obtain ⟨w, hw⟩ : ∃ w, w = ({ y with
    mem := y.mem.filter fun c => Config.coreBase ≤ c.1
    pwr := { y.pwr with ownerSlots := slots } } : State) := ⟨_, rfl⟩
  obtain ⟨z, hz⟩ : ∃ z, z = writeOwner w (List.replicate sectionBytes 0xFF) := ⟨_, rfl⟩
  have run : exec .ownerOpDone s = .next (warmReset z .release) := by
    rw [ownerOpDone_some runs, if_pos releases, hz, hw, hs, hy]
    exact congrArg Host.Outcome.next (release_eq _)
  obtain ⟨-, -, kept⟩ := raise_only (ownerIdle s) imgBase Flag.img_OWNER_DONE (by decide)
  rw [← hy] at kept
  have power : y.pwr = (ownerIdle s).pwr := by rw [hy, raise_pwr]
  have toW : SameBut [.mem, .owner] y w := by
    rw [hw]
    refine ⟨rfl, fun p => ?_⟩
    cases p
    case mem => exact .inl (by decide)
    case owner => exact .inl (by decide)
    all_goals exact .inr rfl
  have toZ : Keeps (· ∈ [.nor]) w z := hz ▸ writeOwner_keeps (.refl w) _ (Can.all _)
  have warm := warmReset_gives z .release
  have reset : (warmReset z .release).pwr = warmPower z.pwr (startKindOf z .release).1 := warmReset_power ..
  refine ⟨_, z, _, run, warm, startKind_lt .., ?_, fun a low => ?_, fun b => norHolds_congr (s := z) (fun d => ?_) ?_, fun x last => ?_⟩
  · exact sameBut_join (n := [.regs, .mem, .nor, .owner]) (sameBut_join (n := [.regs, .owner]) (ownerIdle_sameBut s) kept.sameBut)
      (sameBut_join (n := [.mem, .nor, .owner]) toW toZ.sameBut)
  · rw [warm.dram a low, toZ.field .mem (by decide), hw]
    exact loadByte_dramZero y.mem low
  · unfold norOf
    rw [reset]
    rfl
  · rw [hz]
    exact writeOwner_holds w _ b
  · have burned : y.pwr.ownerSlots = s.pwr.ownerSlots := by
      rw [power]
      rfl
    have lastSlots : lastSlot y = some (s.pwr.ownerSlots.length - 1, x) := by
      rw [lastSlot, burned, last]
      rfl
    rw [lastSlots, burned] at hs
    rw [reset, show (warmPower z.pwr (startKindOf z .release).1).ownerSlots = z.pwr.ownerSlots from rfl, hz,
      (writeOwner_same w _).2.2.2.1, hw, hs]
    exact set_last last _

end

/-! ## Attestation -/

/-- Settles O57. -/
theorem imagesAndOwner : Obligations.ImagesAndOwner := by
  unfold Obligations.ImagesAndOwner
  refine ⟨fun s v c row => ?_, fun s ok e v => ?_, fun s v sig => ?_, fun s v signed => ?_, fun s => ?_, fun s v => ?_⟩
  · intro op refused
    exact ⟨image_ignored row, image_begins row⟩
  · intro done
    refine ⟨fun idle => ?_, fun op runs => ?_⟩
    · change Host.Outcome.next (imgProgDone s ok e.val v) = _
      unfold imgProgDone
      rw [idle]
    · intro n a
      cases verify : op.verify with
      | true =>
        obtain ⟨t, run, idle, frame, good, bad⟩ := verify_done runs ok e v verify
        exact ⟨t, run, idle, fun _ => ⟨frame, good, bad⟩, nofun⟩
      | false =>
        cases ok with
        | true =>
          obtain ⟨t, run, idle, but, holds, flag, regs, frame⟩ := program_done runs e v verify
          exact ⟨t, run, idle, nofun, fun _ => ⟨but, fun _ => ⟨holds, flag, regs, frame⟩, nofun⟩⟩
        | false =>
          obtain ⟨t, run, idle, but, failed, frame⟩ := program_fails runs e v verify
          exact ⟨t, run, idle, nofun, fun _ => ⟨but, nofun, fun _ => ⟨failed, frame⟩⟩⟩
  · intro keys
    have may := ownerCmd_iff s v 16 17 (.inl ⟨rfl, rfl⟩)
    exact ⟨fun no => congrArg Host.Outcome.next (if_neg fun yes => no (may.1 yes)),
      fun yes => ⟨_, enrol_outcome s sig keys, congrArg Host.Outcome.next (if_pos (may.2 yes))⟩⟩
  · intro may
    have same : (ownerCmd s v 17 && signed && enrolled s) = true ↔ may := by
      rw [Bool.and_eq_true, Bool.and_eq_true, ownerCmd_iff s v 17 16 (.inr ⟨rfl, rfl⟩), and_assoc]
    obtain ⟨power, memory⟩ := discard_power s
    refine ⟨fun no => congrArg Host.Outcome.next (if_neg fun yes => no (same.1 yes)),
      fun yes => ⟨_, congrArg Host.Outcome.next (if_pos (same.2 yes)), ?_, memory, ⟨rfl, rfl, rfl, rfl, rfl⟩, ⟨rfl, rfl⟩, rfl, rfl, rfl, rfl, rfl⟩⟩
    change ({ (discardWork s).pwr with ownerOp := some { release := true, failCode := 0 } } : Power) = _
    rw [power]
  · refine ⟨fun idle => ?_, fun op runs => ⟨enrol_done runs, enrol_fails runs, release_done runs⟩⟩
    change Host.Outcome.next (ownerOpDone s) = _
    unfold ownerOpDone
    rw [idle]
  · intro may
    have same : (bitAt v.toNat 0 && s.pwr.att.isNone && deputyRuns s) = true ↔ may := by
      rw [Bool.and_eq_true, Bool.and_eq_true, bitAt_getLsbD, Option.isNone_iff_eq_none, and_assoc]
    refine ⟨fun no => congrArg Host.Outcome.next (if_neg fun yes => no (same.1 yes)), fun yes => ?_, fun idle => ?_, fun op runs => ?_⟩
    · exact ⟨(List.range 8).map fun i => rawReg s (imgBase + 0x30 + 4 * i), by simp, fun i low => by simp [low],
        congrArg Host.Outcome.next (if_pos (same.2 yes))⟩
    · change Host.Outcome.next (attestationReady s) = _
      unfold attestationReady
      rw [idle]
    · obtain ⟨length, nonce, magic⟩ := report_gives s op
      refine ⟨attReport s op, length, nonce, magic, ?_⟩
      change Host.Outcome.next (attestationReady s) = _
      unfold attestationReady
      rw [runs]

end Sys2Proof.Safety

end

section
/-! Frames received and sent, pause, and the link (R278 to R282, R292, R302 to R304, R308). -/

-- one theorem after the other: proofs side by side would need more memory than the check allows
set_option Elab.async false

namespace Sys2Proof.Safety

open Sys2Proof.Machine

/-! ## The receive filters -/

section
variable {s : State} {c : Instr} {f : RxFrame} {kept : Bool} (row : frameOf s c = some (f, kept))
include row

/-- A row whose frame is not received does nothing but what receiving it counts; RX_FRAME_ERROR leaves a good frame to its own row. -/
theorem exec_refused (good : sizeOk f = true → fcsGood f = true → kept = false) (refused : (receiveFrame s f kept).2 = false) :
    exec c s = .next (receiveFrame s f kept).1 := by
  rcases frame_row row with ⟨-, runs⟩ | runs
  · rw [runs, if_neg]
    intro all
    rw [Bool.and_eq_true, Bool.and_eq_true] at all
    obtain ⟨⟨size, fcs⟩, keep⟩ := all
    rw [good size fcs] at keep
    cases keep
  · exact runs refused

theorem frame_dead (dead : portLive s = false) : exec c s = .next s := by
  have none := (receive_gives s f kept).1 dead
  rcases frame_row row with ⟨-, runs⟩ | runs
  · rw [runs, none, ite_self]
  · rw [runs (by rw [none]), none]

theorem frame_size (live : portLive s = true) (size : ¬ (64 ≤ f.size ∧ f.size ≤ 9216)) :
    ∃ t, exec c s = .next t ∧ Counts [pc Ctr.PORT_SIZE_ERR_CNT] [] (frameEnds s f) t := by
  have wrong : sizeOk f = false := Bool.eq_false_iff.2 fun ok => size ((size_iff f).1 ok)
  have gives := (receive_gives s f kept).2.1 live wrong
  refine ⟨_, exec_refused row (fun ok => ?_) (by rw [gives]), by rw [gives]; exact counts_one ..⟩
  rw [wrong] at ok
  cases ok

theorem frame_fcs (live : portLive s = true) (least : 64 ≤ f.size) (most : f.size ≤ 9216) (bad : f.fcsOk = false ∨ f.fecBad ≠ 0) :
    ∃ t, exec c s = .next t ∧ Counts [pc Ctr.PORT_FCS_ERR_CNT] [] (frameEnds s f) t := by
  have wrong : fcsGood f = false := by
    rcases bad with bad | bad
    · simp [fcsGood, bad]
    · simp [fcsGood, bad]
  have gives := (receive_gives s f kept).2.2.1 live ((size_iff f).2 ⟨least, most⟩) wrong
  refine ⟨_, exec_refused row (fun _ ok => ?_) (by rw [gives]), by rw [gives]; exact counts_one ..⟩
  rw [wrong] at ok
  cases ok

theorem frame_filtered (good : Received s f) (dropped : kept = false) :
    ∃ t, exec c s = .next t ∧ Counts [pc Ctr.PORT_RX_FRAME_CNT, pc Ctr.PORT_FILTER_DROP_CNT] [] (frameEnds s f) t := by
  subst dropped
  have gives := (receive_gives s f false).2.2.2 good
  rw [if_neg Bool.false_ne_true] at gives
  exact ⟨_, exec_refused row (fun _ _ => rfl) (by rw [gives]), by rw [gives]; exact counts_two _ _ _ (by decide)⟩

end

/-- A good frame is no error (R280). -/
theorem rxFrameError_good {s : State} {f : RxFrame} (good : Received s f) (kept : frameKept s f = true) :
    exec (.rxFrameError f) s = .next s := by
  obtain ⟨-, least, most, fcs, fec⟩ := good
  refine congrArg Host.Outcome.next (if_pos ?_)
  rw [(size_iff f).2 ⟨least, most⟩, kept]
  simp [fcsGood, fcs, fec]

/-! ## What the end of a frame counts -/

/-- What counts a frame's corrected codewords, then its uncorrectable ones. -/
def fecFixedCounted (s : State) (f : RxFrame) : State :=
  if f.fecFixed = 0 then s else count s portBase Ctr.PORT_FEC_CORR_CNT f.fecFixed

def fecBadCounted (s : State) (f : RxFrame) : State :=
  if f.fecBad = 0 then s else raise (count s portBase Ctr.PORT_FEC_UNCORR_CNT f.fecBad) portBase Flag.port_FEC_UNCORR

def twoEndsCounted (s : State) (f : RxFrame) : State :=
  if f.sameCycle then portCount s Ctr.PORT_TWO_END_CNT else s

theorem frameEnds_eq (s : State) (f : RxFrame) : frameEnds s f = twoEndsCounted (fecBadCounted (fecFixedCounted s f) f) f := rfl

section
variable (s : State) (f : RxFrame)

theorem fecFixedCounted_self : Counted (pc Ctr.PORT_FEC_CORR_CNT) f.fecFixed s (fecFixedCounted s f) := by
  unfold fecFixedCounted
  split
  case isTrue none => rw [none]; exact (satAdd_zero _).symm
  case isFalse => exact rawReg_count_self ..

theorem fecFixedCounted_other {a : Nat} (h : a ≠ pc Ctr.PORT_FEC_CORR_CNT) : rawReg (fecFixedCounted s f) a = rawReg s a := by
  unfold fecFixedCounted
  split
  · rfl
  · exact rawReg_count_other _ h

theorem fecBadCounted_self : Counted (pc Ctr.PORT_FEC_UNCORR_CNT) f.fecBad s (fecBadCounted s f) := by
  unfold fecBadCounted
  split
  case isTrue none => rw [none]; exact (satAdd_zero _).symm
  case isFalse => exact (rawReg_raise_other _ (by decide)).trans (rawReg_count_self ..)

theorem fecBadCounted_other {a : Nat} (h : a ≠ pc Ctr.PORT_FEC_UNCORR_CNT) (h' : a ≠ (pf Flag.port_FEC_UNCORR).1) :
    rawReg (fecBadCounted s f) a = rawReg s a := by
  unfold fecBadCounted
  split
  · rfl
  · exact (rawReg_raise_other _ h').trans (rawReg_count_other _ h)

theorem fecBadCounted_flag (bad : 0 < f.fecBad) :
    BitSet (pf Flag.port_FEC_UNCORR).1 (pf Flag.port_FEC_UNCORR).2 (fecBadCounted s f) := by
  rw [fecBadCounted, if_neg (by omega)]
  exact bitSet_raise _ _ _ (by decide)

theorem twoEndsCounted_self : Counted (pc Ctr.PORT_TWO_END_CNT) (if f.sameCycle then 1 else 0) s (twoEndsCounted s f) := by
  unfold twoEndsCounted
  split
  · exact rawReg_count_self ..
  · exact (satAdd_zero _).symm

theorem twoEndsCounted_other {a : Nat} (h : a ≠ pc Ctr.PORT_TWO_END_CNT) : rawReg (twoEndsCounted s f) a = rawReg s a := by
  unfold twoEndsCounted
  split
  · exact rawReg_count_other _ h
  · rfl

theorem frameEnds_counts : let t := frameEnds s f
    Counted (pc Ctr.PORT_FEC_CORR_CNT) f.fecFixed s t ∧ Counted (pc Ctr.PORT_FEC_UNCORR_CNT) f.fecBad s t ∧
    Counted (pc Ctr.PORT_TWO_END_CNT) (if f.sameCycle then 1 else 0) s t ∧
    (0 < f.fecBad → BitSet (pf Flag.port_FEC_UNCORR).1 (pf Flag.port_FEC_UNCORR).2 t) ∧
    RegsBut [pc Ctr.PORT_FEC_CORR_CNT, pc Ctr.PORT_FEC_UNCORR_CNT, pc Ctr.PORT_TWO_END_CNT, (pf Flag.port_FEC_UNCORR).1] s t ∧
    SameBut [.regs] s t := by
  rw [frameEnds_eq]
  refine ⟨?_, ?_, ?_, fun bad => ?_, fun a => ?_, ?_⟩
  · rw [Counted, twoEndsCounted_other _ _ (by decide), fecBadCounted_other _ _ (by decide) (by decide)]
    exact fecFixedCounted_self s f
  · rw [Counted, twoEndsCounted_other _ _ (by decide), ← fecFixedCounted_other s f (a := pc Ctr.PORT_FEC_UNCORR_CNT) (by decide)]
    exact fecBadCounted_self _ f
  · rw [Counted, ← fecFixedCounted_other s f (a := pc Ctr.PORT_TWO_END_CNT) (by decide),
      ← fecBadCounted_other (fecFixedCounted s f) f (a := pc Ctr.PORT_TWO_END_CNT) (by decide) (by decide)]
    exact twoEndsCounted_self _ f
  · rw [BitSet, twoEndsCounted_other _ _ (by decide)]
    exact fecBadCounted_flag _ f bad
  · by_cases listed : a ∈ [pc Ctr.PORT_FEC_CORR_CNT, pc Ctr.PORT_FEC_UNCORR_CNT, pc Ctr.PORT_TWO_END_CNT, (pf Flag.port_FEC_UNCORR).1]
    · exact .inl listed
    · simp only [List.mem_cons, List.not_mem_nil, or_false, not_or] at listed
      obtain ⟨fixed, bad, two, flag⟩ := listed
      exact .inr (by rw [twoEndsCounted_other _ _ two, fecBadCounted_other _ _ bad flag, fecFixedCounted_other _ _ fixed])
  · rw [← frameEnds_eq]
    have can := Can.all [.regs]
    exact (frameEnds_keeps (P := (· ∈ [.regs])) (.refl s) f).sameBut

theorem frameEnds_config : (frameEnds s f).pwr = s.pwr := by
  rw [frameEnds_eq]
  unfold twoEndsCounted fecBadCounted fecFixedCounted
  split <;> split <;> split <;> rfl

theorem frameEnds_clk : (frameEnds s f).clk = s.clk := by
  rw [frameEnds_eq]
  unfold twoEndsCounted fecBadCounted fecFixedCounted
  split <;> split <;> split <;> rfl

end

/-! ## Address requests and flow control -/

section
variable {s : State} {f : RxFrame} (good : Received s f)
include good

omit good in
theorem answer_received (body : TxBody) :
    Answers (addressAnswer s f body) (frameEnds s f) (pushTx (portCount (frameEnds s f) Ctr.PORT_RX_FRAME_CNT)
      (addressAnswer (portCount (frameEnds s f) Ctr.PORT_RX_FRAME_CNT) f body)) := by
  have same : addressAnswer (portCount (frameEnds s f) Ctr.PORT_RX_FRAME_CNT) f body = addressAnswer s f body := by
    unfold addressAnswer answerMac
    rw [show (portCount (frameEnds s f) Ctr.PORT_RX_FRAME_CNT).pwr = s.pwr from frameEnds_config s f,
      show (portCount (frameEnds s f) Ctr.PORT_RX_FRAME_CNT).clk = s.clk from frameEnds_clk s f]
  rw [same]
  exact answers_push _

theorem arp_received (a : Nat) (kept : frameOf s (.arpRequest f a) = some (f, true)) :
    (a = ownIp4 s → ∃ t, exec (.arpRequest f a) s = .next t ∧ Answers (addressAnswer s f (.arp a)) (frameEnds s f) t) ∧
    (a ≠ ownIp4 s → ∃ t, exec (.arpRequest f a) s = .next t ∧ Counts [pc Ctr.PORT_RX_FRAME_CNT] [] (frameEnds s f) t) := by
  have keep : (macOk s f && vlanOk s f && f.etherType == etArp) = true := (Prod.mk.inj (Option.some.inj kept)).2
  have runs : exec (.arpRequest f a) s = .next (let t := portCount (frameEnds s f) Ctr.PORT_RX_FRAME_CNT
      if a = ownIp4 t then pushTx t (addressAnswer t f (.arp a)) else t) := by
    refine congrArg Host.Outcome.next ?_
    unfold arpRequest
    rw [keep, received_ok good]
  have own : ownIp4 (portCount (frameEnds s f) Ctr.PORT_RX_FRAME_CNT) = ownIp4 s := by
    have config : (portCount (frameEnds s f) Ctr.PORT_RX_FRAME_CNT).pwr = s.pwr := frameEnds_config s f
    unfold ownIp4 moduleNum
    rw [config]
  dsimp only at runs
  rw [own] at runs
  refine ⟨fun mine => ?_, fun other => ?_⟩
  · rw [if_pos mine] at runs
    exact ⟨_, runs, answer_received _⟩
  · rw [if_neg other] at runs
    exact ⟨_, runs, counts_one ..⟩

theorem neighbor_received (a : Nat) (kept : frameOf s (.neighborSolicitation f a) = some (f, true)) :
    ∃ t, exec (.neighborSolicitation f a) s = .next t ∧ Answers (addressAnswer s f (.neighbor a)) (frameEnds s f) t := by
  have keep : (macOk s f && vlanOk s f && f.etherType == etIpv6 && f.ipOk && f.ipProto == 58 && f.hopLimit == 255 &&
    a == ownIp6 s && (f.dstIp == ownIp6 s || f.dstIp == solicitedIp s)) = true := (Prod.mk.inj (Option.some.inj kept)).2
  refine ⟨_, congrArg Host.Outcome.next ?_, answer_received _⟩
  unfold neighborSolicitation
  dsimp only
  rw [keep, received_ok good]

theorem pause_received (kept : frameOf s (.pauseFrame f) = some (f, true)) :
    ∃ t, exec (.pauseFrame f) s = .next t ∧ Counts [pc Ctr.PORT_RX_FRAME_CNT, pc Ctr.PORT_PAUSE_DROP_CNT] [] (frameEnds s f) t := by
  have keep : (f.etherType == etControl && vlanOk s f && (f.dstMac == macControl || f.dstMac == s.pwr.mac)) = true :=
    (Prod.mk.inj (Option.some.inj kept)).2
  refine ⟨_, congrArg Host.Outcome.next ?_, counts_two _ _ _ (by decide)⟩
  unfold pauseFrame
  rw [keep, received_ok good]

/-- The priorities' pauses set, and nothing else. -/
def withPauses (s : State) (enable : Byte) (times : List Nat) : State :=
  { s with port := { s.port with paused := setPauses s.port.paused enable.toNat times } }

omit good in
theorem bitAt_byte (b : Byte) (k : Nat) : bitAt b.toNat k = b.getLsbD k := by
  unfold bitAt
  rw [BitVec.getLsbD, Nat.testBit_eq_decide_div_mod_eq]
  rfl

theorem pfc_received (op : Nat) (enable : Byte) (times : List Nat) (kept : frameOf s (.pfcFrame f op enable times) = some (f, true)) :
    let c := Instr.pfcFrame f op enable times
    (op = 0x0101 ∧ enable ≠ 0 → ∃ t z, exec c s = .next t ∧ SameBut [.port] (frameEnds s f) z ∧
      (∀ k < 8, tget z.port.paused 0 k = if enable.getLsbD k then times.getD k 0 % 65536 else tget s.port.paused 0 k) ∧
      Counts [pc Ctr.PORT_RX_FRAME_CNT, pc Ctr.PORT_PFC_RX_CNT] [pf Flag.port_PFC_RX] z t) ∧
    (¬ (op = 0x0101 ∧ enable ≠ 0) → ∃ t, exec c s = .next t ∧ Counts [pc Ctr.PORT_RX_FRAME_CNT] [] (frameEnds s f) t) := by
  have keep : (macOk s f && vlanOk s f && f.etherType == etControl) = true := (Prod.mk.inj (Option.some.inj kept)).2
  have runs : exec (.pfcFrame f op enable times) s = .next (let t := portCount (frameEnds s f) Ctr.PORT_RX_FRAME_CNT
      if op = 0x0101 ∧ enable ≠ 0 then raise (portCount (withPauses t enable times) Ctr.PORT_PFC_RX_CNT) portBase Flag.port_PFC_RX
      else t) := by
    refine congrArg Host.Outcome.next ?_
    unfold pfcFrame
    rw [keep, received_ok good]
    rfl
  dsimp only at runs ⊢
  refine ⟨fun sets => ?_, fun other => ?_⟩
  · rw [if_pos sets] at runs
    refine ⟨_, withPauses (frameEnds s f) enable times, runs, ?_, fun k small => ?_, ?_⟩
    · have can := Can.all [.port]
      exact (Keeps.upd (P := (· ∈ [.port])) (.refl (frameEnds s f)) rfl rfl rfl :
        Keeps _ _ (withPauses (frameEnds s f) enable times)).sameBut
    · rw [← bitAt_byte, ← frameEnds_port s f]
      exact tget_setPauses _ _ _ k small
    · exact counts_raise (counts_two (withPauses (frameEnds s f) enable times) Ctr.PORT_RX_FRAME_CNT Ctr.PORT_PFC_RX_CNT (by decide))
        portBase Flag.port_PFC_RX (by decide) (by decide)
  · rw [if_neg other] at runs
    exact ⟨_, runs, counts_one ..⟩

end

/-! ## Pauses that end, the transmitter, the link -/

theorem pauseExpiry_ends (s : State) (k : Fin 8) : ∃ t, exec (.pauseExpiry k) s = .next t ∧ tget t.port.paused 0 k.val = 0 ∧
    (∀ j, j ≠ k.val → tget t.port.paused 0 j = tget s.port.paused 0 j) ∧ SameBut [.port] s t := by
  refine ⟨pauseExpiry s k.val, rfl, tget_tset_self s.port.paused 0 k.val 0, fun j other => tget_tset_other s.port.paused 0 0 other, ?_⟩
  have can := Can.all [.port]
  exact (Keeps.upd (P := (· ∈ [.port])) (.refl s) rfl rfl rfl : Keeps _ _ (pauseExpiry s k.val)).sameBut

theorem transmit_idle {s : State} (idle : portLive s = false ∨ (∀ i f, ¬ MaySend s i f)) : exec .frameTransmit s = .next s := by
  refine congrArg Host.Outcome.next ?_
  unfold frameTransmit
  by_cases live : portLive s = true
  · have none := idle.resolve_left (by rw [live]; decide)
    rcases chosen_all s with ⟨chosen, -⟩ | ⟨i, f, -, -, may, -⟩
    · rw [if_neg (by rw [live]; decide), chosen]
    · exact absurd may (none i f)
  · exact if_pos (by simpa using live)

/-- The frame `f` at place `i` gone from the queue. -/
def frameGone (s : State) (i : Nat) (f : TxFrame) : State :=
  { s with port := { s.port with txQueue := s.port.txQueue.eraseIdx i, lastTx := some f } }

theorem transmit_sends {s : State} (live : portLive s = true) (waiting : ∃ i f, MaySend s i f) :
    ∃ t i f, exec .frameTransmit s = .next t ∧ MaySend s i f ∧ (∀ j g, MaySend s j g → j ≠ i → SentBefore f g i j) ∧
      t.port = { s.port with txQueue := s.port.txQueue.eraseIdx i, lastTx := some f } ∧ Counted (pc Ctr.PORT_TX_FRAME_CNT) 1 s t ∧
      RegsBut [pc Ctr.PORT_TX_FRAME_CNT] s t ∧ SameBut [.regs, .txQueue, .port] s t := by
  obtain ⟨j, g, other⟩ := waiting
  rcases chosen_all s with ⟨-, none⟩ | ⟨i, f, chosen, -, may, first⟩
  · exact absurd other (none j g (maySend_lt other))
  have runs : exec .frameTransmit s = .next (portCount (frameGone s i f) Ctr.PORT_TX_FRAME_CNT) := by
    refine congrArg Host.Outcome.next ?_
    unfold frameTransmit
    rw [if_neg (by rw [live]; decide), chosen]
    dsimp only
    rw [may.1]
    rfl
  refine ⟨_, i, f, runs, may, fun j g waits apart => ?_, rfl, rawReg_count_self .., fun a => ?_, ?_⟩
  · obtain ⟨notAfter, before⟩ := first j g (maySend_lt waits) waits
    exact goes_before may waits apart notAfter before
  · by_cases here : a = pc Ctr.PORT_TX_FRAME_CNT
    · exact .inl (by simp [here])
    · exact .inr (rawReg_count_other _ here)
  · have can := Can.all [.regs, .txQueue, .port]
    have gone : Keeps (· ∈ [.regs, .txQueue, .port]) s (frameGone s i f) := Keeps.upd (.refl s) rfl rfl rfl
    exact (portCount_keeps gone _).sameBut

theorem linkUp_gives (s : State) (m : Fin 8) :
    let may := s.port.linkUp = false ∧ linkPhase s = true ∧ isLiveDom s .pclk = true ∧ ModeFits s m.val
    (¬ may → exec (.linkUp m) s = .next s) ∧
    (may → exec (.linkUp m) s = .next { s with port := { s.port with linkUp := true, mode := m.val } }) := by
  have guard : (!s.port.linkUp && linkPhase s && isLiveDom s .pclk && 1 ≤ m.val && m.val ≤ 6 && modeAllowed s m.val) = true ↔
      (s.port.linkUp = false ∧ linkPhase s = true ∧ isLiveDom s .pclk = true ∧ ModeFits s m.val) := by
    rw [← mode_iff]
    simp only [Bool.and_eq_true, Bool.not_eq_true', decide_eq_true_eq, and_assoc]
  exact ⟨fun no => congrArg Host.Outcome.next (if_neg fun g => no (guard.1 g)),
    fun may => congrArg Host.Outcome.next (if_pos (guard.2 may))⟩

theorem linkDown_falls {s : State} (up : s.port.linkUp = true) : ∃ t, exec .linkDown s = .next t ∧
    t.port = { s.port with linkUp := false, mode := 0 } ∧ BitSet (pf Flag.port_LINK_DOWN).1 (pf Flag.port_LINK_DOWN).2 t ∧
    RegsBut [(pf Flag.port_LINK_DOWN).1] s t ∧ SameBut [.regs, .port] s t := by
  let z : State := { s with port := { s.port with linkUp := false, mode := 0 } }
  obtain ⟨set, others, raised⟩ := raise_only z portBase Flag.port_LINK_DOWN (by decide)
  have can := Can.all [.regs, .port]
  have down : Keeps (· ∈ [.regs, .port]) s z := Keeps.upd (.refl s) rfl rfl rfl
  exact ⟨_, congrArg Host.Outcome.next (if_pos up), rfl, set, others, (down.trans (raised.mono (by decide))).sameBut⟩

/-- Settles O58: the filters of every row, then the rows one by one. -/
theorem frames : Obligations.Frames := by
  unfold Obligations.Frames
  refine ⟨fun s c f kept row => ⟨frame_dead row, frame_size row, frame_fcs row, frame_filtered row, fun good keep which => ?_⟩,
    frameEnds_counts, fun s f a good => ⟨arp_received good a, neighbor_received good a, pause_received good, pfc_received good⟩,
    fun s => ⟨pauseExpiry_ends s, transmit_idle, transmit_sends⟩, fun s => ⟨linkUp_gives s, fun down => ?_, linkDown_falls⟩⟩
  · subst which
    obtain ⟨-, hk⟩ := Prod.mk.inj (Option.some.inj row)
    exact rxFrameError_good good (hk.trans keep)
  · exact congrArg Host.Outcome.next (if_neg (by rw [down]; decide))

end Sys2Proof.Safety

end

section
/-! Packets of the inter-module link that are received in order (R290 to R296). -/

-- one theorem after the other: proofs side by side would need more memory than the check allows
set_option Elab.async false

namespace Sys2Proof.Safety

open Sys2Proof.Machine

theorem arrived_session (s : State) (f : RxFrame) (i : Nat) : getSession (arrived s f) i = getSession s i := by
  unfold getSession
  rw [arrived_port]

theorem arrived_part (s : State) (f : RxFrame) {part : Part} (other : part ≠ .regs) : Part.same part s (arrived s f) :=
  ((arrived_same s f).2 part).resolve_left (by simpa using other)

theorem arrived_clk (s : State) (f : RxFrame) : (arrived s f).clk = s.clk :=
  frameEnds_clk s f

theorem arrived_chutes (s : State) (f : RxFrame) : (arrived s f).chutes = s.chutes :=
  arrived_part s f (part := .chutes) (by decide)

theorem arrived_ep (s : State) (f : RxFrame) (ep : EndpointId) : getEp (arrived s f) ep = getEp s ep :=
  getEp_congr (arrived_chutes s f) ep

/-! ## The checks before the sequence -/

section
variable {s : State} {f : RxFrame} {p : IltPacket} {c : Nat × Instr} (row : c ∈ seqRows f p) (arrives : IltArrives s f p c.1)
include row arrives

theorem seq_stranger (none : rxSession s p = none) : PacketDrops c.2 f s := by
  obtain ⟨g, runs, -⟩ := rxInOrder_row row arrives
  refine ⟨_, runs.trans (congrArg Host.Outcome.next ?_), arrived_drop s f⟩
  unfold rxInOrder
  rw [rxSession_arrived, none]

variable {i : Nat} (mine : rxSession s p = some i)
include mine

/-- The checks of a packet of an open session. -/
theorem seq_checked : ∃ g : Nat → State → State, exec c.2 s = .next
    (if !iltCrcOk p then rewindFrame (crcError (arrived s f)) i p (decide (c.1 = 1))
      else if !headerOk p ((getSession s i).kind != .chute) then rewindFrame (dropPacket (arrived s f)) i p (decide (c.1 = 1))
      else if !lengthOk p then rewindFrame (arrived s f) i p (decide (c.1 = 1))
      else bySequence (arrived s f) i p.psn (g i)) := by
  obtain ⟨g, runs, -⟩ := rxInOrder_row row arrives
  refine ⟨g, runs.trans (congrArg Host.Outcome.next ?_)⟩
  rw [rxInOrder_some (by rw [rxSession_arrived]; exact mine), arrived_session]

theorem seq_crc (bad : iltCrcOk p = false) :
    ∃ t y, exec c.2 s = .next t ∧ CrcCounts f s y ∧ Rewound i p (decide (c.1 = 1)) y t := by
  obtain ⟨g, runs⟩ := seq_checked row arrives mine
  rw [if_pos (by rw [bad]; rfl)] at runs
  exact ⟨_, _, runs, arrived_crc s f, rewind_gives ..⟩

theorem seq_header (crc : iltCrcOk p = true) (bad : headerOk p ((getSession s i).kind != .chute) = false) :
    ∃ t y, exec c.2 s = .next t ∧
      Counts [pc Ctr.PORT_RX_FRAME_CNT, pc Ctr.PORT_FILTER_DROP_CNT] [] (frameEnds s f) y ∧ Rewound i p (decide (c.1 = 1)) y t := by
  obtain ⟨g, runs⟩ := seq_checked row arrives mine
  rw [if_neg (by rw [crc]; decide), if_pos (by rw [bad]; rfl)] at runs
  exact ⟨_, _, runs, arrived_drop s f, rewind_gives ..⟩

theorem seq_length (crc : iltCrcOk p = true) (header : headerOk p ((getSession s i).kind != .chute) = true) (bad : lengthOk p = false) :
    ∃ t, exec c.2 s = .next t ∧ Rewound i p (decide (c.1 = 1)) (arrived s f) t := by
  obtain ⟨g, runs⟩ := seq_checked row arrives mine
  rw [if_neg (by rw [crc]; decide), if_neg (by rw [header]; decide), if_pos (by rw [bad]; rfl)] at runs
  exact ⟨_, runs, rewind_gives ..⟩

variable (sound : SoundIlt p ((getSession s i).kind != .chute))
include sound

/-- A sound packet goes by its PSN. -/
theorem seq_sound : ∃ g : Nat → State → State, exec c.2 s = .next
      (if p.psn = (getSession s i).expPsn then g i (arrived s f)
        else if psnOld p.psn (getSession s i).expPsn then sendAck (portCount (arrived s f) Ctr.PORT_DUP_PKT_CNT) i
        else sendNak (raise (portCount (arrived s f) Ctr.PORT_SEQ_GAP_CNT) portBase Flag.port_SEQ_GAP) i 1) ∧
    (c.1 = 1 → g = fun i s => dataInSequence s i p) ∧ (c.1 = 6 → g = fun i s => closeInSequence s i) := by
  obtain ⟨g, runs, data, close, -⟩ := rxInOrder_row row arrives
  refine ⟨g, runs.trans (congrArg Host.Outcome.next ?_), data, close⟩
  rw [rxInOrder_sound (by rw [rxSession_arrived]; exact mine) (by rw [arrived_session]; exact sound), bySequence, arrived_session]

theorem seq_behind (off : p.psn ≠ (getSession s i).expPsn) (behind : 2 ^ 31 ≤ (p.psn - (getSession s i).expPsn).toNat) :
    ∃ t y, exec c.2 s = .next t ∧ Counts [pc Ctr.PORT_RX_FRAME_CNT, pc Ctr.PORT_DUP_PKT_CNT] [] (frameEnds s f) y ∧ AckSent i y t := by
  obtain ⟨g, runs, -⟩ := seq_sound row arrives mine sound
  have old : psnOld p.psn (getSession s i).expPsn = true := decide_eq_true behind
  rw [if_neg off, if_pos old] at runs
  exact ⟨_, _, runs, arrived_count s f _ (by decide), sendAck_gives ..⟩

theorem seq_ahead (off : p.psn ≠ (getSession s i).expPsn) (ahead : (p.psn - (getSession s i).expPsn).toNat < 2 ^ 31) :
    ∃ t y, exec c.2 s = .next t ∧
      Counts [pc Ctr.PORT_RX_FRAME_CNT, pc Ctr.PORT_SEQ_GAP_CNT] [pf Flag.port_SEQ_GAP] (frameEnds s f) y ∧ NakUnless i 1 y t := by
  obtain ⟨g, runs, -⟩ := seq_sound row arrives mine sound
  have new : ¬ psnOld p.psn (getSession s i).expPsn = true := fun old => absurd (of_decide_eq_true old) (Nat.not_le_of_lt ahead)
  rw [if_neg off, if_neg new] at runs
  exact ⟨_, _, runs, arrived_flag s f _ _ (by decide) (by decide) (by decide) (by decide), sendNak_gives ..⟩

end

/-! ## In sequence -/

section
variable {s : State} {f : RxFrame} {p : IltPacket} {i : Nat} (mine : rxSession s p = some i)
  (sound : SoundIlt p ((getSession s i).kind != .chute)) (next : p.psn = (getSession s i).expPsn)
include mine sound next

theorem data_inSequence (arrives : IltArrives s f p 1) : exec (.data f p) s = .next (dataInSequence (arrived s f) i p) := by
  obtain ⟨g, runs, data, -⟩ := seq_sound (c := (1, .data f p)) (by simp [seqRows]) arrives mine sound
  rw [if_pos next, data rfl] at runs
  exact runs

theorem close_inSequence (arrives : IltArrives s f p 6) : exec (.close f p) s = .next (closeInSequence (arrived s f) i) := by
  obtain ⟨g, runs, -, close⟩ := seq_sound (c := (6, .close f p)) (by simp [seqRows]) arrives mine sound
  rw [if_pos next, close rfl] at runs
  exact runs

theorem close_marks (arrives : IltArrives s f p 6) : let z := arrived s f
    let ep : EndpointId := .hub (Fin.ofNat 2048 i)
    ∃ t y u, exec (.close f p) s = .next t ∧ (epWorks z ep = true → exec (.closeMark ep) z = .next y) ∧ SameBut [.regs, .chutes] z y ∧
      SessionIs i (committedPsn (getSession s i)) y u ∧ AckSent i u t := by
  intro z ep
  have marked := closeMarkAt_same z ep
  have same : getSession (closeMarkAt z ep) i = getSession s i := (keeps_session marked (by decide) i).trans (arrived_session s f i)
  refine ⟨_, closeMarkAt z ep, _, close_inSequence mine sound next arrives, fun works => congrArg Host.Outcome.next ?_,
    marked.sameBut, by rw [← same]; exact psnCommitted_gives .., sendAck_gives ..⟩
  unfold closeMarkCmd
  rw [works]
  rfl

theorem data_early (arrives : IltArrives s f p 1) (lot : (getSession s i).kind = .lot) (early : s.port.inService = false) :
    ∃ t u v w, exec (.data f p) s = .next t ∧
      Counts [hc i Ctr.CH_REWIND_CNT] [(hc i Flag.ch_REWIND.1, Flag.ch_REWIND.2)] (arrived s f) u ∧
      Counts [hc i Ctr.CH_OVERCREDIT_CNT] [(hc i Flag.ch_OVERCREDIT.1, Flag.ch_OVERCREDIT.2)] u v ∧
      Counts [pc Ctr.PORT_OVERCREDIT_CNT] [pf Flag.port_OVERCREDIT] v w ∧ NakUnless i 3 w t := by
  have runs := data_inSequence mine sound next arrives
  have refused : (getSession (arrived s f) i).kind = .lot ∧ (arrived s f).port.inService = false := by
    rw [arrived_session, arrived_port]
    exact ⟨lot, early⟩
  rw [dataInSequence, if_pos refused] at runs
  obtain ⟨w, counted, nak⟩ := overCredit_gives (raise (count (raise (count (arrived s f) (epRegBase (.hub (Fin.ofNat 2048 i)))
    Ctr.CH_REWIND_CNT 1) (epRegBase (.hub (Fin.ofNat 2048 i))) Flag.ch_REWIND) (epRegBase (.hub (Fin.ofNat 2048 i)))
    Ctr.CH_OVERCREDIT_CNT 1) (epRegBase (.hub (Fin.ofNat 2048 i))) Flag.ch_OVERCREDIT) i
  exact ⟨_, _, _, w, runs, hub_count _ i Ctr.CH_REWIND_CNT Flag.ch_REWIND (by decide) (by decide),
    hub_count _ i Ctr.CH_OVERCREDIT_CNT Flag.ch_OVERCREDIT (by decide) (by decide), counted, nak⟩

/-- DATA put to the bank of its endpoint. -/
theorem data_banked (arrives : IltArrives s f p 1) (ready : (getSession s i).kind ≠ .lot ∨ s.port.inService = true) :
    let r := packetArrive (arrived s f) (.hub (Fin.ofNat 2048 i)) (bankPacket (getSession s i) p)
    exec (.data f p) s = .next (if r.2.committed then
        sendAck (if (getSession s i).kind = .chute then psnCommitted r.1 i else lotPacket (psnCommitted r.1 i) i p) i
      else if r.2.overcredit then overCredit r.1 i else sendNak r.1 i 2) := by
  have runs := data_inSequence mine sound next arrives
  have taken : ¬ ((getSession s i).kind = .lot ∧ s.port.inService = false) := by
    rintro ⟨lot, early⟩
    rcases ready with other | serves
    · exact other lot
    · rw [early] at serves
      cases serves
  rw [dataInSequence, arrived_session, arrived_port, if_neg taken] at runs
  exact runs

theorem data_arrives (arrives : IltArrives s f p 1) (ready : (getSession s i).kind ≠ .lot ∨ s.port.inService = true) :
    let x := getSession s i
    let z := arrived s f
    let ep : EndpointId := .hub (Fin.ofNat 2048 i)
    let q := bankPacket x p
    let r := arrive (getEp s ep) q true s.clk.now
    ∃ y, EpIs ep r.1 z y ∧ RegsAs (countArrival z ep q r.2) y ∧ SameBut [.regs, .chutes] z y ∧
      (r.2.committed = true → ∃ t u v, exec (.data f p) s = .next t ∧ SessionIs i (committedPsn x) y u ∧
        v = (if x.kind = .chute then u else lotPacket u i p) ∧ AckSent i v t) ∧
      (r.2.committed = false → r.2.overcredit = true → ∃ t v, exec (.data f p) s = .next t ∧
        Counts [pc Ctr.PORT_OVERCREDIT_CNT] [pf Flag.port_OVERCREDIT] y v ∧ NakUnless i 3 v t) ∧
      (r.2.committed = false → r.2.overcredit = false → ∃ t, exec (.data f p) s = .next t ∧ NakUnless i 2 y t) := by
  intro x z ep q r
  have runs := data_banked mine sound next arrives ready
  have gives := packetArrive_gives z ep q
  dsimp only at runs gives
  rw [arrived_ep, arrived_clk, show isHub ep = true from rfl] at gives
  obtain ⟨counts, endpoint, regs, same⟩ := gives
  rw [counts] at runs
  have session : getSession (packetArrive z ep q).1 i = x := by
    have kept : (packetArrive z ep q).1.port.sessions = z.port.sessions := (same.2 .sessions).resolve_left (by decide)
    rw [getSession, kept]
    exact arrived_session s f i
  refine ⟨(packetArrive z ep q).1, endpoint, regs, same, fun committed => ?_, fun refused beyond => ?_, fun refused within => ?_⟩
  · rw [if_pos committed] at runs
    exact ⟨_, _, _, runs, by rw [← session]; exact psnCommitted_gives .., rfl, sendAck_gives ..⟩
  · rw [if_neg (by rw [refused]; decide), if_pos beyond] at runs
    obtain ⟨v, counted, nak⟩ := overCredit_gives (packetArrive z ep q).1 i
    exact ⟨_, v, runs, counted, nak⟩
  · rw [if_neg (by rw [refused]; decide), if_neg (by rw [within]; decide)] at runs
    exact ⟨_, runs, sendNak_gives ..⟩

end

/-! ## Lots -/

section
variable {s : State} {i : Nat} {p : IltPacket}

theorem idle_kept (none : (getSession s i).rxOpen = false) : (if (getSession s i).rxOpen = true then lotError s else s) = s :=
  if_neg (by rw [none]; decide)

theorem lotPacket_begins (first : lotFirst p = true) (more : lotLast p = false) (none : (getSession s i).rxOpen = false) :
    SessionIs i { getSession s i with rxOpen := true, rxLsn := p.lsn, rxLen := p.arg0.toNat, rxBytes := p.payload, rxBad := false }
      s (lotPacket s i p) := by
  rw [lotPacket, if_pos first]
  dsimp only
  rw [if_neg (by rw [more]; decide), idle_kept none]
  exact setSession_is ..

theorem lotPacket_middle (first : lotFirst p = false) (more : lotLast p = false) (begun : (getSession s i).rxOpen = true) :
    SessionIs i { getSession s i with
      rxBytes := (getSession s i).rxBytes ++ p.payload, rxBad := (getSession s i).rxBad || p.lsn != (getSession s i).rxLsn }
      s (lotPacket s i p) := by
  rw [lotPacket, if_neg (by rw [first]; decide), if_pos begun]
  dsimp only
  rw [if_neg (by rw [more]; decide)]
  exact setSession_is ..

theorem lotPacket_stray (first : lotFirst p = false) (none : (getSession s i).rxOpen = false) :
    (lotLast p = false → lotPacket s i p = s) ∧
    (lotLast p = true → Counts [pc Ctr.PORT_LOT_ERR_CNT] [pf Flag.port_LOT_ERR] s (lotPacket s i p)) := by
  rw [lotPacket, if_neg (by rw [first]; decide), if_neg (by rw [none]; decide)]
  refine ⟨fun more => if_neg (by rw [more]; decide), fun last => ?_⟩
  rw [if_pos last]
  exact lotError_gives s

/-- The session of a lot that has ended. -/
def lotClosed (x : Session) : Session := { x with rxOpen := false, rxBytes := [] }

theorem lotPacket_ends {lsn : Word} {len : Nat} {bytes : List Byte} {bad : Bool}
    (ends : LotEnd (getSession s i) p lsn len bytes bad) : lotPacket s i p =
      let y := setSession s i (lotClosed (getSession s i))
      if bad then lotError y else lotDone y i lsn len bytes (p.psn + 1) := by
  obtain ⟨last, whole⟩ := ends
  rcases whole with ⟨first, none, rfl, rfl, rfl, rfl⟩ | ⟨first, begun, rfl, rfl, rfl, rfl⟩
  · rw [lotPacket, if_pos first]
    dsimp only
    rw [if_pos last, idle_kept none]
    rfl
  · rw [lotPacket, if_neg (by rw [first]; decide), if_pos begun]
    dsimp only
    rw [if_pos last]
    rfl

theorem lotGood_closed {x : Session} {lsn : Word} {len : Nat} {bytes : List Byte} :
    LotGood (lotClosed x) lsn len bytes ↔ LotGood x lsn len bytes :=
  ⟨fun ⟨next, length⟩ => ⟨next, length⟩, fun ⟨next, length⟩ => ⟨next, length⟩⟩

theorem lotPacket_whole (lsn : Word) (len : Nat) (bytes : List Byte) (bad : Bool)
    (ends : LotEnd (getSession s i) p lsn len bytes bad) : let x := getSession s i
    let t := lotPacket s i p
    let err := fun y u => Counts [pc Ctr.PORT_LOT_ERR_CNT] [pf Flag.port_LOT_ERR] y u
    let w := { x with rxOpen := false, rxBytes := [] }
    let again := (x.accLsn + BitVec.ofNat 32 x.lots.length - lsn).toNat < 2 ^ 31
    (bad = true → ∃ y, SessionIs i w s y ∧ err y t) ∧
    (bad = false → again → ∃ y v, SessionIs i w s y ∧ Counts [pc Ctr.PORT_DUP_LOT_CNT] [pf Flag.port_DUP_LOT] y v ∧ AckSent i v t) ∧
    (bad = false → ¬ again → ¬ LotGood x lsn len bytes → ∃ y, SessionIs i w s y ∧ err y t) ∧
    (bad = false → LotGood x lsn len bytes → let b := bytes.take len
      ∃ y, SessionIs i { w with lots := x.lots ++ [{ lsn := lsn, bytes := b, psnAfter := p.psn + 1, write := s.jnl.nextId }] } s y ∧
        (x.kind ≠ .lot → t = y) ∧ (x.kind = .lot → LotWritten i lsn (p.psn + 1) b y t)) := by
  intro x t err w again
  have result : t = _ := lotPacket_ends ends
  have closed := setSession_is s i (lotClosed x)
  obtain ⟨dup, wrong, stored⟩ := lotDone_gives (closed.1 : getSession (setSession s i (lotClosed x)) i = lotClosed x) lsn len bytes (p.psn + 1)
  refine ⟨fun spoiled => ?_, fun good old => ?_, fun good new not => ?_, fun good fits => ?_⟩
  · rw [spoiled, if_pos rfl] at result
    exact ⟨_, closed, by rw [result]; exact lotError_gives _⟩
  · rw [good, if_neg Bool.false_ne_true] at result
    obtain ⟨v, counted, ack⟩ := dup old
    exact ⟨_, v, closed, counted, by rw [result]; exact ack⟩
  · rw [good, if_neg Bool.false_ne_true] at result
    exact ⟨_, closed, by rw [result]; exact wrong new fun fits => not (lotGood_closed.1 fits)⟩
  · rw [good, if_neg Bool.false_ne_true, stored (lotGood_closed.2 fits)] at result
    obtain ⟨y, session, other, lot⟩ := storeLot_gives closed lsn (p.psn + 1) (bytes.take len)
    exact ⟨y, session, fun kind => result.trans (other kind), fun kind => by rw [result]; exact lot kind⟩

end

end Sys2Proof.Safety

end

section
/-! Acknowledgements, RESET and the timers of the inter-module link (R294 to R301). -/

-- one theorem after the other: proofs side by side would need more memory than the check allows
set_option Elab.async false

namespace Sys2Proof.Safety

open Sys2Proof.Machine

/-! ## ACK, NAK and TAIL -/

theorem fromPeer_arrived (s : State) (f : RxFrame) (p : IltPacket) (i : Nat) : FromPeer (arrived s f) f p i ↔ FromPeer s f p i := by
  unfold FromPeer
  rw [rxSession_arrived, arrived_session]

section
variable {s : State} {f : RxFrame} {p : IltPacket}

/-- The checks of a packet that goes to a sender of this module. -/
theorem sender_checked {c : Nat × Instr} (row : c ∈ sendRows f p) (arrives : IltArrives s f p c.1)
    (mine : outSession s f p ≠ none ∨ ∃ i, FromPeer s f p i) : ∃ t, exec c.2 s = .next
      (if !iltCrcOk p then crcError (arrived s f) else if !headerOk p true || !lengthOk p then dropPacket (arrived s f) else t) := by
  obtain ⟨lot, out, runs⟩ := forSender_row row arrives
  rw [← outSession_arrived] at mine
  cases sends : outSession (arrived s f) f p with
  | some k =>
    rw [forSender_out sends] at runs
    exact ⟨_, runs⟩
  | none =>
    obtain ⟨i, peer⟩ := mine.resolve_left (fun no => no sends)
    rw [forSender_lot sends ((fromPeer_arrived s f p i).2 peer)] at runs
    exact ⟨_, runs⟩

theorem sender_stranger {c : Nat × Instr} (row : c ∈ sendRows f p) (arrives : IltArrives s f p c.1)
    (stranger : ¬ (outSession s f p ≠ none ∨ ∃ i, FromPeer s f p i)) : PacketDrops c.2 f s := by
  obtain ⟨lot, out, runs⟩ := forSender_row row arrives
  rw [not_or, Classical.not_not, not_exists] at stranger
  obtain ⟨none, peer⟩ := stranger
  rw [forSender_none (by rw [outSession_arrived]; exact none) fun i h => peer i ((fromPeer_arrived s f p i).1 h)] at runs
  exact ⟨_, runs, arrived_drop s f⟩

theorem sender_rows : ∀ c ∈ sendRows f p, IltArrives s f p c.1 →
    let mine := outSession s f p ≠ none ∨ ∃ i, FromPeer s f p i
    (¬ mine → PacketDrops c.2 f s) ∧
    (mine → iltCrcOk p = false → ∃ t, exec c.2 s = .next t ∧ CrcCounts f s t) ∧
    (mine → iltCrcOk p = true → ¬ (headerOk p true = true ∧ lengthOk p = true) → PacketDrops c.2 f s) := by
  intro c row arrives mine
  refine ⟨sender_stranger row arrives, fun known bad => ?_, fun known crc bad => ?_⟩
  · obtain ⟨t, runs⟩ := sender_checked row arrives known
    rw [if_pos (by rw [bad]; rfl)] at runs
    exact ⟨_, runs, arrived_crc s f⟩
  · obtain ⟨t, runs⟩ := sender_checked row arrives known
    rw [if_neg (by rw [crc]; decide), if_pos (header_or.1 bad)] at runs
    exact ⟨_, runs, arrived_drop s f⟩

variable (sound : SoundIlt p true)
include sound

/-- The responses of a LOT session acknowledged by its peer. -/
theorem lot_acknowledged {i : Nat} (none : outSession s f p = none) (peer : FromPeer s f p i) :
    let z := arrived s f
    let x := getSession s i
    ∃ y rest, Acked p.psn x.unacked rest ∧ SessionIs i { x with unacked := rest } z y ∧
      let w := drainAll (releaseGrants (leaveLog y i))
      (IltArrives s f p 2 → exec (.ack f p) s = .next w) ∧ (IltArrives s f p 3 → exec (.nak f p) s = .next (retransmit w i p.psn)) ∧
      (IltArrives s f p 4 → PacketDrops (.tail f p) f s) := by
  intro z x
  have lot := forSender_lot (by rw [outSession_arrived]; exact none) ((fromPeer_arrived s f p i).2 peer)
  have same : getSession z i = x := arrived_session s f i
  have acknowledged : ackResponses z i p.psn =
      drainAll (releaseGrants (leaveLog (setSession z i { x with unacked := keepUnacked x.unacked p.psn }) i)) := by
    rw [ackResponses, same]
  refine ⟨_, _, acked_gives x.unacked p.psn, setSession_is z i _, fun arrives => congrArg Host.Outcome.next ?_,
    fun arrives => congrArg Host.Outcome.next ?_, fun arrives => ⟨_, congrArg Host.Outcome.next ?_, arrived_drop s f⟩⟩
  · unfold ackPacket
    rw [show iltFrame s f p iltAck = _ from iltFrame_ok arrives]
    exact (lot ..).trans ((sound_if sound).trans acknowledged)
  · unfold nakPacket
    rw [show iltFrame s f p iltNak = _ from iltFrame_ok arrives]
    exact (lot ..).trans ((sound_if sound).trans (congrArg (retransmit · i p.psn) acknowledged))
  · unfold tailPacket
    rw [show iltFrame s f p iltTail = _ from iltFrame_ok arrives]
    exact (lot ..).trans (sound_if sound)

omit sound in
theorem withOut_twice (s : State) (k : Nat) (o u : OutSession) : withOut (withOut s k o) k u = withOut s k u := by
  unfold withOut
  dsimp only
  rw [List.set_set]

/-- A sending session acknowledged by its receiver. -/
theorem out_acknowledged {k : Nat} {o : OutSession} (sends : outSession s f p = some k) (out : s.port.outs[k]? = some o) :
    let z := arrived s f
    (∃ rest, Acked p.psn o.unacked rest ∧ let y := pumpOut (withOut z k { o with unacked := rest, grants := p.arg0 }) k
      (IltArrives s f p 2 → exec (.ack f p) s = .next (if o.kind = .mirror then mirrorAcked y p.arg1 else y)) ∧
      (IltArrives s f p 3 → exec (.nak f p) s = .next (retransmitOut y k p.psn))) ∧
    (IltArrives s f p 4 → exec (.tail f p) s = .next (pumpOut (withOut z k { o with
      grants := p.arg0
      waiting := o.waiting ++ [closeOf o]
      txPsn := o.txPsn + 1 }) k)) := by
  intro z
  have here : z.port.outs[k]? = some o := by rw [arrived_port]; exact out
  have sender := forSender_out (z := z) (by rw [outSession_arrived]; exact sends)
  have acknowledged : ackOut z k p.psn p.arg0 =
      pumpOut (withOut z k { o with unacked := keepUnacked o.unacked p.psn, grants := p.arg0 }) k :=
    congrArg (pumpOut · k) (updOut_some here _)
  refine ⟨⟨_, acked_gives o.unacked p.psn, fun arrives => congrArg Host.Outcome.next ?_,
    fun arrives => congrArg Host.Outcome.next ?_⟩, fun arrives => congrArg Host.Outcome.next ?_⟩
  · unfold ackPacket
    rw [show iltFrame s f p iltAck = _ from iltFrame_ok arrives]
    refine (sender ..).trans ((sound_if sound).trans ?_)
    rw [acknowledged]
    dsimp only
    rw [pumpOut_kind (withOut_outs here _)]
    by_cases mirror : o.kind = .mirror
    · rw [if_pos mirror, if_pos (congrArg some mirror)]
    · rw [if_neg mirror, if_neg fun same => mirror (Option.some.inj same)]
  · unfold nakPacket
    rw [show iltFrame s f p iltNak = _ from iltFrame_ok arrives]
    exact (sender ..).trans ((sound_if sound).trans (congrArg (retransmitOut · k p.psn) acknowledged))
  · unfold tailPacket
    rw [show iltFrame s f p iltTail = _ from iltFrame_ok arrives]
    refine (sender ..).trans ((sound_if sound).trans ?_)
    rw [updOut_some here]
    dsimp only
    rw [withOut_outs here]
    refine Eq.trans ?_ (congrArg (pumpOut · k) (withOut_twice z k { o with grants := p.arg0 } _))
    unfold sendOut
    rw [withOut_outs here]
    rfl

end

/-! ## Packets sent, and sent again -/

section
variable {s : State} {k : Nat} {o : OutSession} (out : s.port.outs[k]? = some o)
include out

theorem pumpOut_rests (shut : ¬ (o.stage = .open_ ∧ o.resetSent = 0)) : pumpOut s k = s := by
  unfold pumpOut
  rw [out]
  exact if_neg shut

theorem pumpOut_sends (opened : o.stage = .open_) (none : o.resetSent = 0) : ∃ sent rest, o.waiting = sent ++ rest ∧
    (∀ d w, rest = d :: w → outCredit (sent.foldl outSend o) d = false) ∧
    (sent.foldl outSend o).unacked = o.unacked ++ sent.map (fun d => { d with sends := 1 }) ∧
    (pumpOut s k).port = { s.port with
      outs := s.port.outs.set k { sent.foldl outSend o with waiting := rest }
      txQueue := s.port.txQueue ++ sent.map (outData s o (undatedDry s)) } ∧ SameBut [.txQueue, .outs] s (pumpOut s k) := by
  obtain ⟨sent, rest, split, stops, unacked, list⟩ := pumpList_sends s (undatedDry s) o.waiting o
  refine ⟨sent, rest, split, stops, unacked, ?_, ?_⟩
  · unfold pumpOut
    rw [out]
    dsimp only
    rw [if_pos ⟨opened, none⟩, list]
  · have can := Can.all [.txQueue, .outs]
    exact (pumpOut_keeps (P := (· ∈ [.txQueue, .outs])) (.refl s) k).sameBut

theorem retransmitOut_none {psn : Word} (all : ∀ d ∈ o.unacked, psnOld d.psn psn = true) : retransmitOut s k psn = s := by
  unfold retransmitOut
  rw [out]
  dsimp only
  rw [find_again, filter_all all]
  rfl

variable {psn : Word} {d : TxData} {w : List TxData} (first : o.unacked.filter (fun d => !psnOld d.psn psn) = d :: w)
include first

theorem retransmitOut_eq : retransmitOut s k psn =
    if d.sends < 16 then resendOut s k psn else if o.kind = .mirror then mirrorFails s else abortWork s [] [(o.graph, o.edge)] := by
  unfold retransmitOut
  rw [out]
  dsimp only
  rw [find_again, first]
  rfl

theorem retransmitOut_again (few : d.sends < 16) : OutResent k psn o s (retransmitOut s k psn) := by
  rw [retransmitOut_eq out first, if_pos few]
  exact outResent_gives out psn

theorem retransmitOut_mirror (many : 16 ≤ d.sends) (mirror : o.kind = .mirror) : let t := retransmitOut s k psn
    t.jnl = { s.jnl with mirror := .lost } ∧ BitSet (depBase + Flag.dep_MIRROR_LOST.1) Flag.dep_MIRROR_LOST.2 t ∧
    SameBut [.regs, .jnl] s t := by
  rw [retransmitOut_eq out first, if_neg (by omega), if_pos mirror]
  have can := Can.all [.regs, .jnl]
  exact ⟨rfl, bitSet_raise _ _ _ (by decide), (mirrorFails_keeps (P := (· ∈ [.regs, .jnl])) (.refl s)).sameBut⟩

theorem retransmitOut_aborts (many : 16 ≤ d.sends) (other : o.kind ≠ .mirror) :
    retransmitOut s k psn = abortWork s [] [(o.graph, o.edge)] := by
  rw [retransmitOut_eq out first, if_neg (by omega), if_neg other]

end

/-! ## RESET -/

theorem chutesAt_arrived (s : State) (f : RxFrame) (ep : EndpointId) : chutesAt (arrived s f) ep = chutesAt s ep := by
  have graphs : (arrived s f).dep.graphs = s.dep.graphs := arrived_part s f (part := .graphs) (by decide)
  unfold chutesAt
  rw [graphs]

theorem arrived_pwr (s : State) (f : RxFrame) : (arrived s f).pwr = s.pwr :=
  frameEnds_config s f

theorem resetChuteOnly_rest (s : State) (ep : EndpointId) : let t := resetChuteOnly s ep
    t.pwr = s.pwr ∧ t.clk = s.clk ∧ t.port = s.port := by
  unfold resetChuteOnly
  dsimp only
  split <;> exact ⟨rfl, rfl, rfl⟩

section
variable {s : State} {f : RxFrame} {p : IltPacket} (arrives : IltArrives s f p 8)
include arrives

theorem reset_in (notOut : outSession s f p = none) : exec (.reset f p) s = .next
    (match rxSession s p with
      | some i =>
        if (getSession (arrived s f) i).kind ≠ .chute then dropPacket (arrived s f)
        else if !iltCrcOk p then crcError (arrived s f)
        else if !headerOk p true || !lengthOk p then dropPacket (arrived s f)
        else resetReceived (arrived s f) i
      | none => dropPacket (arrived s f)) := by
  refine congrArg Host.Outcome.next ((resetPacket_eq arrives).trans ?_)
  rw [notOut] <;> rfl

theorem reset_stranger (notOut : outSession s f p = none) (other : ∀ i, rxSession s p = some i → (getSession s i).kind ≠ .chute) :
    PacketDrops (.reset f p) f s := by
  refine ⟨_, (reset_in arrives notOut).trans (congrArg Host.Outcome.next ?_), arrived_drop s f⟩
  cases session : rxSession s p with
  | none => rfl
  | some i => exact if_pos (by rw [arrived_session]; exact other i session)

section
variable {i : Nat} (notOut : outSession s f p = none) (mine : rxSession s p = some i) (chute : (getSession s i).kind = .chute)
include notOut mine chute

theorem reset_checked : exec (.reset f p) s = .next
    (if !iltCrcOk p then crcError (arrived s f)
      else if !headerOk p true || !lengthOk p then dropPacket (arrived s f) else resetReceived (arrived s f) i) := by
  refine (reset_in arrives notOut).trans (congrArg Host.Outcome.next ?_)
  rw [mine]
  exact if_neg (by rw [arrived_session]; exact fun other => other chute)

theorem reset_crc (bad : iltCrcOk p = false) : ∃ t, exec (.reset f p) s = .next t ∧ CrcCounts f s t := by
  have runs := reset_checked arrives notOut mine chute
  rw [if_pos (by rw [bad]; rfl)] at runs
  exact ⟨_, runs, arrived_crc s f⟩

theorem reset_header (crc : iltCrcOk p = true) (bad : ¬ (headerOk p true = true ∧ lengthOk p = true)) : PacketDrops (.reset f p) f s := by
  have runs := reset_checked arrives notOut mine chute
  rw [if_neg (by rw [crc]; decide), if_pos (header_or.1 bad)] at runs
  exact ⟨_, runs, arrived_drop s f⟩

variable (sound : SoundIlt p true)
include sound

theorem reset_received : exec (.reset f p) s = .next (resetReceived (arrived s f) i) :=
  (reset_checked arrives notOut mine chute).trans (congrArg Host.Outcome.next (sound_if sound))

theorem reset_answered (sent : 0 < (getSession s i).resetSent) :
    ∃ t, exec (.reset f p) s = .next t ∧ Resumes i (getSession s i) s t ∧ SameBut [.sessions, .chutes] (arrived s f) t := by
  have same := arrived_session s f i
  have received : resetReceived (arrived s f) i =
      resumeSession (setSession (arrived s f) i { getSession s i with resetSeen := true }) i := by
    rw [resetReceived_as (if_neg (by rw [same]; omega)), same]
  obtain ⟨self, others, inner⟩ := setSession_is (arrived s f) i { getSession s i with resetSeen := true }
  obtain ⟨resumes, rest, endpoint, frame, -⟩ := resumeSession_gives _ i _ self sent rfl
  refine ⟨_, reset_received arrives notOut mine chute sound, ?_, ?_⟩
  · rw [received]
    exact ⟨resumes, fun j other => (rest j other).trans ((others j other).trans (arrived_session s f j)),
      endpoint.1.trans (congrArg resetEndpoint (arrived_ep s f _)), fun e other => (endpoint.2 e other).trans (arrived_ep s f e)⟩
  · rw [received]
    exact sameBut_join (n := [.sessions, .chutes]) inner frame

theorem reset_alone (unsent : (getSession s i).resetSent = 0) (alone : chutesAt s (.hub (Fin.ofNat 2048 i)) = []) :
    let ep : EndpointId := .hub (Fin.ofNat 2048 i)
    ∃ t, exec (.reset f p) s = .next t ∧ getSession t i = resumed { getSession s i with rxOpen := false, rxBytes := [] } ∧
      (∀ j, j ≠ i → getSession t j = getSession s j) ∧ EpIs ep (resetEndpoint (resetEndpoint (getEp s ep))) s t ∧
      t.port.txQueue = s.port.txQueue ++ [controlOf s i 8 0 0] ∧ SameBut [.regs, .txQueue, .sessions, .chutes] s t := by
  intro ep
  obtain ⟨c, hc⟩ : ∃ c, c = resetChuteOnly (arrived s f) ep := ⟨_, rfl⟩
  obtain ⟨clean, -⟩ := resetChuteOnly_gives (arrived s f) ep
  obtain ⟨pwr, clk, port⟩ := resetChuteOnly_rest (arrived s f) ep
  rw [← hc] at clean pwr clk port
  have session (j : Nat) : getSession c j = getSession s j := by
    rw [getSession, port]
    exact arrived_session s f j
  obtain ⟨y, ⟨self, others, -⟩, pushed, yclk, ypwr, ychutes, yqueue⟩ := resetHub_gives c i (by rw [session]; exact chute)
  rw [session] at self
  have received : resetReceived (arrived s f) i =
      resumeSession (setSession (resetHubSession c i) i { getSession (resetHubSession c i) i with resetSeen := true }) i := by
    refine resetReceived_as ?_
    rw [if_pos (by rw [arrived_session]; exact unsent), chutesAt_arrived, alone, hc]
  have frame : Keeps (· ∈ [.regs, .txQueue, .sessions, .chutes]) s (resetReceived (arrived s f) i) := by
    have can := Can.all [.regs, .txQueue, .sessions, .chutes]
    rw [received, hc]
    exact resumeSession_keeps (setSession_keeps (resetHubSession_keeps (resetChuteOnly_keeps (portCount_keeps
      (frameEnds_keeps (.refl s) f) _) _) _) ..) _
  have middle (j : Nat) : getSession (resetHubSession c i) j = getSession y j := by
    rw [pushed]
    rfl
  obtain ⟨seen, rest, -⟩ := setSession_is (resetHubSession c i) i { getSession (resetHubSession c i) i with resetSeen := true }
  have before (e : EndpointId) : getEp (setSession (resetHubSession c i) i
      { getSession (resetHubSession c i) i with resetSeen := true }) e = getEp c e := by
    refine getEp_congr ?_ e
    rw [pushed]
    exact ychutes
  obtain ⟨resumes, kept, endpoint, -, queue⟩ := resumeSession_gives _ i _ seen (by rw [middle, self]; exact Nat.one_pos) rfl
  refine ⟨_, reset_received arrives notOut mine chute sound, ?_, fun j other => ?_, ⟨?_, fun e other => ?_⟩, ?_, frame.sameBut⟩
  all_goals rw [received]
  · rw [resumes, middle, self]
    rfl
  · rw [kept j other, rest j other, middle, others j other, session]
  · rw [endpoint.1, before, clean.1, arrived_ep]
  · rw [endpoint.2 e other, before, clean.2 e other, arrived_ep]
  · have control : iltControl y i iltReset 0 0 0 = controlOf s i 8 0 0 := by
      unfold iltControl controlOf
      rw [self, ypwr, yclk, pwr, clk, arrived_clk, arrived_pwr]
      rfl
    rw [queue, pushed, control, ← arrived_port s f, ← port]
    exact congrArg (· ++ [controlOf s i 8 0 0]) yqueue

theorem reset_chutes (unsent : (getSession s i).resetSent = 0) (chutes : chutesAt s (.hub (Fin.ofNat 2048 i)) ≠ []) :
    ∃ y, y = abortWork (arrived s f) [] (chutesAt s (.hub (Fin.ofNat 2048 i))) ∧
      exec (.reset f p) s = .next (resumeSession (setSession y i { getSession y i with resetSeen := true }) i) := by
  refine ⟨_, rfl, (reset_received arrives notOut mine chute sound).trans (congrArg Host.Outcome.next (resetReceived_as ?_))⟩
  rw [if_pos (by rw [arrived_session]; exact unsent), chutesAt_arrived]
  cases list : chutesAt s (.hub (Fin.ofNat 2048 i)) with
  | nil => exact absurd list chutes
  | cons c l => rfl

end

section
variable {k : Nat} {o : OutSession} (sends : outSession s f p = some k) (out : s.port.outs[k]? = some o)
include sends out

theorem reset_out : exec (.reset f p) s = .next
    (if !iltCrcOk p then crcError (arrived s f)
      else if !headerOk p true || !lengthOk p || some o.kind != some .chute then dropPacket (arrived s f)
      else resetOutReceived (arrived s f) k) := by
  refine congrArg Host.Outcome.next ((resetPacket_eq arrives).trans ?_)
  rw [sends]
  dsimp only
  rw [arrived_port, out]
  rfl

theorem resetOut_crc (bad : iltCrcOk p = false) : ∃ t, exec (.reset f p) s = .next t ∧ CrcCounts f s t := by
  have runs := reset_out arrives sends out
  rw [if_pos (by rw [bad]; rfl)] at runs
  exact ⟨_, runs, arrived_crc s f⟩

theorem resetOut_header (crc : iltCrcOk p = true) (bad : ¬ (headerOk p true = true ∧ lengthOk p = true ∧ o.kind = .chute)) :
    PacketDrops (.reset f p) f s := by
  have runs := reset_out arrives sends out
  have wrong : (!headerOk p true || !lengthOk p || some o.kind != some .chute) = true := by
    refine Classical.byContradiction fun fits => ?_
    simp only [Bool.or_eq_true, Bool.not_eq_true', not_or, Bool.not_eq_false, bne_iff_ne, ne_eq, Option.some.injEq, Classical.not_not] at fits
    exact bad ⟨fits.1.1, fits.1.2, fits.2⟩
  rw [if_neg (by rw [crc]; decide), if_pos wrong] at runs
  exact ⟨_, runs, arrived_drop s f⟩

variable (sound : SoundIlt p true) (chute : o.kind = .chute)
include sound chute

theorem resetOut_received : exec (.reset f p) s = .next
    (updOut (if o.resetSent = 0 then abortWork (arrived s f) [] [(o.graph, o.edge)] else arrived s f) k
      fun o => resumeOut { o with resetSeen := true }) := by
  have runs := reset_out arrives sends out
  obtain ⟨crc, header, length⟩ := sound
  rw [if_neg (by rw [crc]; decide), if_neg (by rw [header, length, chute]; decide)] at runs
  refine runs.trans (congrArg Host.Outcome.next ?_)
  unfold resetOutReceived
  rw [arrived_port, out]

theorem resetOut_resumes (sent : 0 < o.resetSent) : exec (.reset f p) s = .next (withOut (arrived s f) k (resumedOut o)) := by
  refine (resetOut_received arrives sends out sound chute).trans (congrArg Host.Outcome.next ?_)
  rw [if_neg (by omega), updOut_some (by rw [arrived_port]; exact out)]
  exact congrArg (withOut _ k) (if_pos ⟨sent, rfl⟩)

theorem resetOut_aborts (unsent : o.resetSent = 0) : exec (.reset f p) s =
    .next (updOut (abortWork (arrived s f) [] [(o.graph, o.edge)]) k fun o => resumeOut { o with resetSeen := true }) := by
  refine (resetOut_received arrives sends out sound chute).trans (congrArg Host.Outcome.next ?_)
  rw [if_pos unsent]

end

end

end Sys2Proof.Safety

end

section
/-! The timers of the inter-module link, LOT_ACCEPT and RESPONSE_SEND; its packets settled. -/

-- one theorem after the other: proofs side by side would need more memory than the check allows
set_option Elab.async false

namespace Sys2Proof.Safety

open Sys2Proof.Machine

/-! ## LOT_ACCEPT and RESPONSE_SEND -/

section
variable {s : State} {n : Fin 2048}

theorem lotAccept_accepts (l : PendingLot) (rest : List PendingLot) (oldest : (getSession s n.val).lots = l :: rest)
    (lot : (getSession s n.val).kind = .lot) (stored : l.stored = true) : let i := n.val
    let x := getSession s i
    let cmds := lotCommands n l.lsn s.clk.now l.bytes
    ∃ y u v, SessionIs i { x with lots := rest, accLsn := l.lsn, accPsn := l.psnAfter, backlog := x.backlog ++ cmds } s y ∧
      u.jnl.lotRing = reclaimLots (s.jnl.lotRing.map fun r =>
        if r.piece = none ∧ r.session = i ∧ r.lsn = l.lsn ∧ r.dead = 0 then
          { r with accepted := true, tAccept := s.clk.now, commands := cmds.length, retired := cmds.length == 0 } else r) ∧
      SameBut [.lotRing] y u ∧ AckSent i u v ∧ exec (.lotAccept n) s = .next (drainAll v) := by
  intro i x cmds
  refine ⟨_, _, _, setSession_is s i _, rfl, acceptRecord_keeps' _ i l.lsn cmds.length, sendAck_gives _ i,
    congrArg Host.Outcome.next ?_⟩
  unfold lotAccept
  dsimp only
  rw [oldest]
  exact if_pos ⟨lot, stored⟩

theorem lotAccept_waits (waits : (getSession s n.val).lots = [] ∨ (getSession s n.val).kind ≠ .lot ∨
    (∃ l rest, (getSession s n.val).lots = l :: rest ∧ l.stored = false)) : exec (.lotAccept n) s = .next s := by
  refine congrArg Host.Outcome.next ?_
  unfold lotAccept
  dsimp only
  cases oldest : (getSession s n.val).lots with
  | nil => rfl
  | cons l rest =>
    refine if_neg ?_
    rintro ⟨lot, stored⟩
    rcases waits with none | other | ⟨m, more, first, unstored⟩
    · rw [oldest] at none
      cases none
    · exact other lot
    · rw [oldest] at first
      cases first
      rw [stored] at unstored
      cases unstored

theorem responseSend_rests (rests : (getSession s n.val).kind ≠ .lot ∨ nextResponse s n.val = none) :
    exec (.responseSend n) s = .next s := by
  refine congrArg Host.Outcome.next ?_
  unfold responseSend
  by_cases lot : (getSession s n.val).kind = .lot
  · rw [if_pos lot, rests.resolve_left (fun other => other lot)]
  · exact if_neg lot

theorem responseSend_sends (r : Response) (lot : (getSession s n.val).kind = .lot) (next : nextResponse s n.val = some r) :
    let i := n.val
    let x := getSession s i
    let l := (chunkMessage r.ctx.lsn r.psn r.ctx.index r.bytes).drop (x.sendPsn - r.psn).toNat
    ∃ t m, exec (.responseSend n) s = .next t ∧ m ≤ l.length ∧
      t.port.txQueue = s.port.txQueue ++ (l.take m).map (responseFrame s i) ∧
      getSession t i = { x with
        unacked := x.unacked ++ (l.take m).map (fun d => { d with sends := 1 })
        sendPsn := x.sendPsn + BitVec.ofNat 32 m } ∧ (∀ j, j ≠ i → getSession t j = getSession s j) ∧
      (m ≠ 0 → unackedBytes (getSession t i) ≤ x.respWindow) ∧
      (∀ d, l[m]? = some d → x.respWindow < unackedBytes (getSession t i) + d.bytes.length) ∧ SameBut [.txQueue, .sessions] s t := by
  intro i x l
  obtain ⟨m, most, queue, self, others, room, full⟩ := sendPackets_sends i l s
  have runs : responseSend s i = sendPackets i l s := by
    unfold responseSend
    rw [if_pos lot, next]
  have can := Can.all [.txQueue, .sessions]
  exact ⟨_, m, congrArg Host.Outcome.next runs, most, queue, self, others, room, full,
    (sendPackets_keeps (P := (· ∈ [.txQueue, .sessions])) (.refl s) i l).sameBut⟩

/-! ## RETRANSMIT_TIMEOUT -/

theorem noneSends_congr {s t : State} {i : Nat} (outs : t.port.outs = s.port.outs) (none : NoneSends s i) : NoneSends t i := by
  unfold NoneSends
  rw [outs]
  exact none

theorem lotTimeout_other {i : Nat} (other : (getSession s i).kind ≠ .lot) : lotTimeout s i = s :=
  if_neg other

theorem lotTimeout_empty {i : Nat} (empty : (getSession s i).unacked = []) : lotTimeout s i = s := by
  unfold lotTimeout
  dsimp only
  rw [empty]
  exact ite_self s

theorem timeout_resends (d : TxData) (w : List TxData) (none : NoneSends s n.val) (lot : (getSession s n.val).kind = .lot)
    (oldest : (getSession s n.val).unacked = d :: w) (few : d.sends < 16) :
    ∃ t, exec (.retransmitTimeout n) s = .next t ∧ Resent n.val d.psn s t := by
  have resent : Resent n.val d.psn s (retransmit s n.val d.psn) :=
    (retransmit_gives s n.val d.psn).2 d _ (by rw [oldest]; exact first_again) few
  have timeout : lotTimeout s n.val = retransmit s n.val d.psn := by
    unfold lotTimeout
    dsimp only
    rw [if_pos lot, oldest]
  have outs : (retransmit s n.val d.psn).port.outs = s.port.outs := (resent.frame.2 .outs).resolve_left (by decide)
  refine ⟨_, congrArg Host.Outcome.next ?_, resent⟩
  rw [retransmitTimeout_eq, timeout, sendersOf_none (noneSends_congr outs none)]
  rfl

theorem timeout_rests (none : NoneSends s n.val) (rests : (getSession s n.val).kind ≠ .lot ∨ (getSession s n.val).unacked = []) :
    exec (.retransmitTimeout n) s = .next s := by
  refine congrArg Host.Outcome.next ?_
  rw [retransmitTimeout_eq, rests.elim lotTimeout_other lotTimeout_empty, sendersOf_none none]
  rfl

theorem timeout_out (k : Nat) (o : OutSession) (only : OnlySends s n.val k o) (other : (getSession s n.val).kind ≠ .lot) :
    (∀ d w, o.unacked = d :: w → exec (.retransmitTimeout n) s = .next (retransmitOut s k d.psn)) ∧
    (o.unacked = [] → exec (.retransmitTimeout n) s = .next s) := by
  have runs : exec (.retransmitTimeout n) s = .next (outTimeout s k) := by
    refine congrArg Host.Outcome.next ?_
    rw [retransmitTimeout_eq, lotTimeout_other other, sendersOf_only only]
    rfl
  obtain ⟨out, -, -⟩ := only
  refine ⟨fun d w oldest => runs.trans (congrArg Host.Outcome.next ?_), fun empty => runs.trans (congrArg Host.Outcome.next ?_)⟩
  all_goals unfold outTimeout
  · rw [out, Option.bind_some, oldest] <;> rfl
  · rw [out, Option.bind_some, empty] <;> rfl

/-! ## NAKs and RESETs repeated -/

theorem nakRepeat_gives (s : State) (n : Fin 2048) : let i := n.val
    let x := getSession s i
    let due := x.kind ≠ .free ∧ x.nakAt ≠ none ∧ x.resync = false
    (due → ∃ t, exec (.nakRepeat n) s = .next t ∧ NakSent i x.nakReason s t) ∧ (¬ due → exec (.nakRepeat n) s = .next s) := by
  intro i x due
  have guard : (x.kind ≠ .free ∧ x.nakAt.isSome = true ∧ x.resync = false) ↔ due := by
    rw [Option.isSome_iff_ne_none]
  exact ⟨fun h => ⟨_, congrArg Host.Outcome.next (if_pos (guard.2 h)), sendNakNow_gives ..⟩,
    fun h => congrArg Host.Outcome.next (if_neg fun g => h (guard.1 g))⟩

theorem resyncNak_gives (s : State) (n : Fin 2048) : let i := n.val
    let x := getSession s i
    let due := x.kind = .lot ∧ x.resync = true ∧ x.resyncs < 16
    (due → ∃ t y, exec (.resyncNak n) s = .next t ∧ SessionIs i { x with resyncs := x.resyncs + 1 } s y ∧ NakSent i 4 y t) ∧
    (¬ due → exec (.resyncNak n) s = .next s) := by
  intro i x due
  exact ⟨fun h => ⟨_, _, congrArg Host.Outcome.next (if_pos h), setSession_is .., sendNakNow_gives ..⟩,
    fun h => congrArg Host.Outcome.next (if_neg h)⟩

theorem retry_receiver (none : NoneSends s n.val) : let i := n.val
    let x := getSession s i
    let due := x.kind = .chute ∧ 0 < x.resetSent ∧ x.resetSent < 16 ∧ x.resetSeen = false
    (due → ∃ t y, exec (.chuteResetRetry n) s = .next t ∧
      SessionIs i { x with resetSent := x.resetSent + 1 } s y ∧ t.port.txQueue = s.port.txQueue ++ [controlOf s i 8 0 0] ∧
      SameBut [.txQueue] y t) ∧
    (¬ due → exec (.chuteResetRetry n) s = .next s) := by
  intro i x due
  refine ⟨fun h => ?_, fun h => congrArg Host.Outcome.next ?_⟩
  · have retried : retryIn s i = pushTx (setSession s i { x with resetSent := x.resetSent + 1 }) (iltControl s i iltReset 0 0 0) :=
      if_pos h
    have can := Can.all [.txQueue]
    refine ⟨_, _, congrArg Host.Outcome.next ?_, setSession_is s i { x with resetSent := x.resetSent + 1 }, ?_,
      (pushTx_keeps (P := (· ∈ [.txQueue])) (.refl _) (iltControl s i iltReset 0 0 0)).sameBut⟩
    · rw [chuteResetRetry_eq, retried, sendersOf_none (noneSends_congr (by rfl) none)]
      rfl
    · rfl
  · have rests : retryIn s i = s := if_neg h
    rw [chuteResetRetry_eq, rests, sendersOf_none none]
    rfl

theorem retry_sender (k : Nat) (o : OutSession) (only : OnlySends s n.val k o) : let i := n.val
    let x := getSession s i
    ¬ (x.kind = .chute ∧ 0 < x.resetSent ∧ x.resetSent < 16 ∧ x.resetSeen = false) →
    let again := 0 < o.resetSent ∧ o.resetSent < 16 ∧ o.resetSeen = false
    (again → exec (.chuteResetRetry n) s = .next (pushTx (withOut s k { o with resetSent := o.resetSent + 1 })
      (outFrame s o .control 8 0 0 0 0 0 [] s.clk.now))) ∧
    (¬ again → exec (.chuteResetRetry n) s = .next s) := by
  intro i x rests again
  have runs : exec (.chuteResetRetry n) s = .next (resetRetryOut s k) := by
    refine congrArg Host.Outcome.next ?_
    rw [chuteResetRetry_eq, show retryIn s n.val = s from if_neg rests, sendersOf_only only]
    rfl
  obtain ⟨out, -, -⟩ := only
  refine ⟨fun h => runs.trans (congrArg Host.Outcome.next ?_), fun h => runs.trans (congrArg Host.Outcome.next ?_)⟩
  all_goals unfold resetRetryOut
  · rw [out]
    dsimp only
    rw [if_pos h, updOut_some out] <;> rfl
  · rw [out]
    exact if_neg h

end

/-- Settles O59: the packets by row, the sessions' lists, then the timers. -/
theorem iltPackets : Obligations.IltPackets := by
  unfold Obligations.IltPackets
  refine ⟨fun s f p received kept c row type => ilt_other received kept row type, fun s f p c row arrives => ?_,
    fun s f p i mine => ?_, fun s i p => ?_, fun s f p => sender_rows,
    fun s f p i none peer sound => lot_acknowledged sound none peer,
    fun s f p k o sends out sound => out_acknowledged sound sends out, fun s k o out => ?_,
    retransmit_gives, fun s f p arrives => ?_, fun s n => ?_⟩
  · intro z
    refine ⟨seq_stranger row arrives, fun i mine => ?_⟩
    exact ⟨seq_crc row arrives mine, seq_header row arrives mine, seq_length row arrives mine,
      fun sound => seq_behind row arrives mine sound, fun sound => seq_ahead row arrives mine sound⟩
  · intro x z ep sound next
    exact ⟨close_marks mine sound next, data_early mine sound next, data_arrives mine sound next⟩
  · exact ⟨lotPacket_begins, lotPacket_middle, lotPacket_stray, lotPacket_whole⟩
  · exact ⟨pumpOut_rests out, pumpOut_sends out, fun psn => ⟨retransmitOut_none out, fun d w first =>
      ⟨retransmitOut_again out first, retransmitOut_mirror out first, retransmitOut_aborts out first⟩⟩⟩
  · intro c z
    refine ⟨reset_stranger arrives, fun i none mine chute => ?_, fun k o sends out => ?_⟩
    · exact ⟨reset_crc arrives none mine chute, reset_header arrives none mine chute, reset_answered arrives none mine chute,
        reset_alone arrives none mine chute, reset_chutes arrives none mine chute⟩
    · exact ⟨resetOut_crc arrives sends out, resetOut_header arrives sends out, resetOut_resumes arrives sends out,
        resetOut_aborts arrives sends out⟩
  · intro i x
    exact ⟨lotAccept_accepts, lotAccept_waits, responseSend_rests, responseSend_sends, timeout_resends, timeout_rests, timeout_out,
      nakRepeat_gives s n, resyncNak_gives s n, fun none => (retry_receiver none).1, fun none => (retry_receiver none).2, retry_sender⟩

end Sys2Proof.Safety

end

section
/-! Journal writes, the mirror, and the sessions that this module opens (R286, R287, R345, R354 to R356). -/

-- one theorem after the other: proofs side by side would need more memory than the check allows
set_option Elab.async false

namespace Sys2Proof.Safety

open Sys2Proof.Machine

/-! ## JOURNAL_WRITE_DONE -/

theorem withWrites_same (s : State) (l : List PendingWrite) : SameBut [.jnl] s (withWrites s l) := by
  have can := Can.all [.jnl]
  exact (Keeps.upd (P := (· ∈ [.jnl])) (.refl s) rfl rfl rfl : Keeps _ _ (withWrites s l)).sameBut

section
variable {s : State} {id : Nat} {ok0 ok8 : Bool}

theorem journalWrite_unknown (unknown : ∀ w ∈ s.jnl.pendingWrites, w.id ≠ id) : exec (.journalWriteDone id ok0 ok8) s = .next s := by
  have none : s.jnl.pendingWrites.find? (fun w => w.id == id) = none :=
    List.find?_eq_none.2 fun w here => by simpa using unknown w here
  refine congrArg Host.Outcome.next ?_
  unfold journalWriteDone
  rw [none]

variable {w : PendingWrite} (found : s.jnl.pendingWrites.find? (fun w => w.id == id) = some w)
include found

theorem journalWrite_eq : exec (.journalWriteDone id ok0 ok8) s = .next
    (if copiesHold s ok0 ok8 then
        actWrites (withWrites s (s.jnl.pendingWrites.map fun x => if x.id = id then { x with local_ := true } else x))
      else failedWrite (withWrites s (s.jnl.pendingWrites.filter fun x => x.id != id)) w) := by
  refine congrArg Host.Outcome.next ?_
  unfold journalWriteDone
  rw [found] <;> rfl

theorem journalWrite_held (hold : CopiesHold s ok0 ok8) : exec (.journalWriteDone id ok0 ok8) s =
    .next (actWrites (withWrites s (s.jnl.pendingWrites.map fun x => if x.id = id then { x with local_ := true } else x))) := by
  rw [journalWrite_eq found, if_pos ((copiesHold_iff ..).2 hold)]

variable (failed : ¬ CopiesHold s ok0 ok8)
include failed

theorem journalWrite_failed : exec (.journalWriteDone id ok0 ok8) s =
    .next (failedWrite (withWrites s (s.jnl.pendingWrites.filter fun x => x.id != id)) w) := by
  rw [journalWrite_eq found, if_neg fun hold => failed ((copiesHold_iff ..).1 hold)]

theorem lotWrite_failed (i : Nat) (lsn : Word) (use : w.use = .lot i lsn) : let x := getSession s i
    let z := withWrites s (s.jnl.pendingWrites.filter fun x => x.id != id)
    ∃ t y, exec (.journalWriteDone id ok0 ok8) s = .next t ∧
      SessionIs i { x with lots := x.lots.takeWhile fun l => l.lsn != lsn } z y ∧ SameBut [.lotRing] y t ∧
      t.jnl.lotRing = reclaimLots (s.jnl.lotRing.map fun r =>
        if unwritten i (x.lots.dropWhile fun l => l.lsn != lsn) r then { r with retired := true } else r) := by
  intro x z
  let y := setSession z i { x with lots := x.lots.takeWhile fun l => l.lsn != lsn }
  let t : State := { y with jnl := { y.jnl with lotRing := reclaimLots (s.jnl.lotRing.map fun r =>
    if unwritten i (x.lots.dropWhile fun l => l.lsn != lsn) r then { r with retired := true } else r) } }
  have result : failedWrite z w = t := by
    unfold failedWrite
    rw [use] <;> rfl
  have can := Can.all [.lotRing]
  have kept : Keeps (· ∈ [.lotRing]) y t := Keeps.upd (.refl y) rfl rfl rfl
  exact ⟨t, y, (journalWrite_failed found failed).trans (congrArg Host.Outcome.next result), setSession_is z i _, kept.sameBut, rfl⟩

theorem responseWrite_failed (i : Nat) (lsn : Word) (index : Nat) (use : w.use = .response i lsn index) :
    let mine := fun r : Response => sameCmd r.ctx i lsn index && !r.left
    let z := withWrites s (s.jnl.pendingWrites.filter fun x => x.id != id)
    (∀ r, s.jnl.respLog.find? mine = some r → ∃ t v, exec (.journalWriteDone id ok0 ok8) s = .next t ∧
      t.jnl.pendingWrites = z.jnl.pendingWrites ++ [v] ∧ v.id = s.jnl.nextId ∧ v.use = w.use ∧ v.local_ = false ∧
      v.mirrorLsn.isSome = s.pwr.config.twin ∧ SameBut [.jnl, .txQueue, .outs] s t) ∧
    ((∀ r ∈ s.jnl.respLog, mine r = false) → exec (.journalWriteDone id ok0 ok8) s = .next z) := by
  intro mine z
  have runs := journalWrite_failed found failed
  have result : failedWrite z w = match z.jnl.respLog.find? mine with
      | some r => startWrite z w.use .response (recordKey i lsn index) (leBytes 4 0 ++ leBytes 4 r.psn.toNat ++ r.bytes)
      | none => z := by
    unfold failedWrite
    rw [use] <;> rfl
  refine ⟨fun r logged => ?_, fun none => ?_⟩
  · have again : failedWrite z w = startWrite z w.use .response (recordKey i lsn index)
        (leBytes 4 0 ++ leBytes 4 r.psn.toNat ++ r.bytes) := by
      rw [result, show z.jnl.respLog.find? mine = some r from logged]
    obtain ⟨v, writes, known, twin⟩ := startWrite_writes z w.use .response (recordKey i lsn index)
      (leBytes 4 0 ++ leBytes 4 r.psn.toNat ++ r.bytes)
    have kept := (startWrite_keeps' z w.use .response (recordKey i lsn index)
      (leBytes 4 0 ++ leBytes 4 r.psn.toNat ++ r.bytes)).sameBut
    rw [← again] at writes kept
    simp only [Prod.mk.injEq] at known
    exact ⟨_, v, runs, writes, known.1, known.2.1, known.2.2, twin,
      sameBut_join (n := [.jnl, .txQueue, .outs]) (withWrites_same s _) kept⟩
  · have off : z.jnl.respLog.find? mine = Option.none := List.find?_eq_none.2 fun r here => by rw [none r here]; decide
    rw [result, off] at runs
    exact runs

theorem pieceWrite_failed (job node task k : Nat) (use : w.use = .piece job node task k) :
    let z := withWrites s (s.jnl.pendingWrites.filter fun x => x.id != id)
    exec (.journalWriteDone id ok0 ok8) s =
      .next (if k % 2 = 0 then retirePiece z (job, node, task, k / 2) else commitWrite z job node task k 0 []) := by
  refine (journalWrite_failed found failed).trans (congrArg Host.Outcome.next ?_)
  unfold failedWrite
  rw [use] <;> rfl

end

/-! ## Writes acted on -/

section
variable {y : State}

theorem actWrites_none (none : ∀ w ∈ y.jnl.pendingWrites, ActsNow w = false) : actWrites y = y := by
  have ready : y.jnl.pendingWrites.filter ActsNow = [] := List.filter_eq_nil_iff.2 fun w here => by rw [none w here]; decide
  have rest : y.jnl.pendingWrites.filter (fun w => !ActsNow w) = y.jnl.pendingWrites := filter_id fun w here => by rw [none w here]; rfl
  show (y.jnl.pendingWrites.filter ActsNow).foldl (fun s w => actWrite s w.use)
    (withWrites y (y.jnl.pendingWrites.filter fun w => !ActsNow w)) = y
  rw [ready, rest]
  rfl

variable {w : PendingWrite} (one : y.jnl.pendingWrites.filter ActsNow = [w])
include one

theorem actWrites_one : actWrites y = actWrite (withWrites y (y.jnl.pendingWrites.filter fun x => !ActsNow x)) w.use := by
  show (y.jnl.pendingWrites.filter ActsNow).foldl (fun s w => actWrite s w.use)
    (withWrites y (y.jnl.pendingWrites.filter fun w => !ActsNow w)) = _
  rw [one]
  rfl

theorem actWrites_single : let z := withWrites y (y.jnl.pendingWrites.filter fun x => !ActsNow x)
    let t := actWrites y
    (∀ i lsn, w.use = .lot i lsn → let x := getSession y i
      SessionIs i { x with lots := x.lots.map fun l => if l.lsn = lsn then { l with stored := true } else l } z t) ∧
    (∀ i lsn index, w.use = .response i lsn index → t = drainAll (responseWritten z i lsn index)) ∧
    (∀ job node task k, w.use = .piece job node task k → (findScatter y job node task = none → t = z) ∧
      ∀ b, findScatter y job node task = some b → k % 2 = 1 →
        t = mirrorNote (retirePiece (putScatter z { b with done := k / 2 + 1 }) (job, node, task, k / 2)) .retire
          (pieceKey job node task (k - 1)) []) := by
  intro z t
  have acts : t = actWrite z w.use := actWrites_one one
  refine ⟨fun i lsn use => ?_, fun i lsn index use => ?_, fun job node task k use => ?_⟩
  all_goals rw [use] at acts
  · rw [acts]
    exact setSession_is z i _
  · exact acts
  · have written : t = pieceWritten z job node task k := acts
    refine ⟨fun none => written.trans ?_, fun b found odd => written.trans ?_⟩
    all_goals unfold pieceWritten
    · rw [show findScatter z job node task = Option.none from none]
    · rw [show findScatter z job node task = some b from found]
      exact if_pos odd

end

/-! ## The mirror -/

theorem mirrorAck_alone {s : State} (alone : s.pwr.config.twin = false) (lsn : Word) : exec (.mirrorAck lsn) s = .next s :=
  congrArg Host.Outcome.next (if_neg (by rw [mirrored, alone]; decide))

theorem mirrorAck_acks {s : State} (twin : s.pwr.config.twin = true) (lsn : Word) : ∃ y, exec (.mirrorAck lsn) s = .next (actWrites y) ∧
    y = { s with jnl := { s.jnl with
      pendingWrites := s.jnl.pendingWrites.map fun w =>
        if ∃ l, w.mirrorLsn = some l ∧ (lsn - l).toNat < 2 ^ 31 then { w with mirrorLsn := none } else w
      unmirrored := s.jnl.unmirrored.filter fun r => decide (2 ^ 31 ≤ (lsn - r.lsn).toNat) } } := by
  have writes : (fun w : PendingWrite => if ∃ l, w.mirrorLsn = some l ∧ (lsn - l).toNat < 2 ^ 31 then { w with mirrorLsn := none } else w) =
      fun w => match w.mirrorLsn with
        | some l => if decide ((lsn - l).toNat < 2 ^ 31) then { w with mirrorLsn := none } else w
        | none => w := by
    funext w
    cases waits : w.mirrorLsn with
    | none => exact if_neg fun ⟨l, have_, _⟩ => by cases have_
    | some l =>
      by_cases covered : (lsn - l).toNat < 2 ^ 31
      · rw [if_pos ⟨l, rfl, covered⟩]
        exact (if_pos (decide_eq_true covered)).symm
      · rw [if_neg fun ⟨m, same, within⟩ => covered (Option.some.inj same ▸ within)]
        exact (if_neg fun h => covered (of_decide_eq_true h)).symm
  have rest : (fun r : MirrorRecord => decide (2 ^ 31 ≤ (lsn - r.lsn).toNat)) = fun r => !decide ((lsn - r.lsn).toNat < 2 ^ 31) := by
    funext r
    rw [Bool.eq_iff_iff]
    simp only [decide_eq_true_eq, Bool.not_eq_true', decide_eq_false_iff_not, Nat.not_lt]
  refine ⟨_, congrArg Host.Outcome.next ((if_pos twin).trans ?_), rfl⟩
  rw [writes, rest]
  rfl

section
variable {s : State} {r : MirrorRecord}

theorem mirrorRecord_closed (closed : ∀ e ∈ s.port.sessions, e.2.kind ≠ .mirror) : exec (.mirrorRecord r) s = .next s := by
  refine congrArg Host.Outcome.next ?_
  have none : mirrorSession s = none := by
    rw [mirrorSession, List.find?_eq_none.2 fun e here => by simpa using closed e here]
    rfl
  unfold mirrorRecordCmd
  rw [none]

variable {i : Nat} (mirror : mirrorSession s = some i)
include mirror

theorem mirrorRecord_other (other : ∀ l, (getSession s i).lots.head? = some l → l.lsn ≠ r.lsn) : exec (.mirrorRecord r) s = .next s := by
  refine congrArg Host.Outcome.next ?_
  unfold mirrorRecordCmd
  rw [mirror]
  dsimp only
  cases lots : (getSession s i).lots with
  | nil => rfl
  | cons l rest => exact if_neg (other l (by rw [lots]; rfl))

/-- The record stored. -/
def mirrorStored (s : State) (r : MirrorRecord) : State :=
  { s with jnl := { s.jnl with mirrorStore := storeMirror s.jnl.mirrorStore r } }

theorem mirrorRecord_stores (l : PendingLot) (rest : List PendingLot) (lots : (getSession s i).lots = l :: rest) (same : l.lsn = r.lsn) :
    let x := getSession s i
    ∃ t y u, exec (.mirrorRecord r) s = .next t ∧
      SessionIs i { x with
        lots := rest
        accLsn := r.lsn
        accPsn := l.psnAfter } s y ∧ SameBut [.jnl] y u ∧ AckSent i u t ∧
      (r.kind ≠ .retire → u.jnl.mirrorStore = s.jnl.mirrorStore ++ [r]) ∧
      (r.kind = .retire → let lot := r.key % 2 ^ 64 = 2 ^ 63 ∧ r.key < 2 ^ 256
        (lot → u.jnl.mirrorStore = s.jnl.mirrorStore.filter fun q => q.kind == .table || q.key / 2 ^ 64 != r.key / 2 ^ 64) ∧
        (¬ lot → u.jnl.mirrorStore = (s.jnl.mirrorStore.filter fun q => q.kind == .table || q.key != r.key) ++ [r])) := by
  intro x
  have runs : exec (.mirrorRecord r) s = .next (sendAck (mirrorStored (setSession s i { x with
      lots := rest, accLsn := r.lsn, accPsn := l.psnAfter }) r) i) := by
    refine congrArg Host.Outcome.next ?_
    unfold mirrorRecordCmd
    rw [mirror]
    dsimp only
    rw [lots]
    exact if_pos same
  have can := Can.all [.jnl]
  have stored (y : State) : Keeps (· ∈ [.jnl]) y (mirrorStored y r) := Keeps.upd (.refl y) rfl rfl rfl
  have kept (a b : Nat) (q : MirrorRecord) : (q.kind == .table || a != b) = !(a == b && q.kind != .table) := by
    rw [Bool.not_and, Bool.or_comm]
    simp [bne]
  refine ⟨_, _, _, runs, setSession_is .., (stored _).sameBut, sendAck_gives .., fun other => if_neg other, fun retire =>
    ⟨fun lot => ?_, fun no => ?_⟩⟩
  · refine (if_pos retire).trans ((if_pos lot).trans (List.filter_congr fun q _ => (kept ..).symm))
  · refine (if_pos retire).trans ((if_neg no).trans (congrArg (· ++ [r]) (List.filter_congr fun q _ => (kept ..).symm)))

end

/-! ## Sessions that this module opens -/

section
variable {s : State} {k : Nat}

theorem helloResponse_stray (nonce : BitVec 128) (stray : ∀ o, s.port.outs[k]? = some o → o.stage ≠ .hello) :
    exec (.helloResponse k nonce) s = .next s := by
  refine congrArg Host.Outcome.next ?_
  unfold helloResponse
  cases out : s.port.outs[k]? with
  | none => rfl
  | some o => exact if_neg (stray o out)

theorem helloResponse_opens (nonce : BitVec 128) (o : OutSession) (out : s.port.outs[k]? = some o) (waits : o.stage = .hello) :
    ∃ t, exec (.helloResponse k nonce) s = .next t ∧ t.port.outs = s.port.outs.set k { o with
        stage := .opening
        nonce := nonce } ∧
      t.port.txQueue = s.port.txQueue ++ [outMgmt s o 2 (openBody s o nonce)] ∧ SameBut [.txQueue, .outs] s t := by
  have runs : helloResponse s k nonce = pushTx (withOut s k { o with stage := .opening, nonce := nonce })
      (outMgmt s o 2 (openBody s o nonce)) := by
    unfold helloResponse
    rw [out]
    dsimp only
    rw [if_pos waits, updOut_some out]
  have can := Can.all [.txQueue, .outs]
  have kept : Keeps (· ∈ [.txQueue, .outs]) s (helloResponse s k nonce) := helloResponse_keeps (.refl s) ..
  exact ⟨_, rfl, by rw [runs]; rfl, by rw [runs]; rfl, kept.sameBut⟩

variable (a : OpenAnswer)

theorem openResponse_stray (stray : ∀ o, s.port.outs[k]? = some o → o.stage ≠ .opening) : exec (.openResponse k a) s = .next s := by
  refine congrArg Host.Outcome.next ?_
  unfold openResponse
  cases out : s.port.outs[k]? with
  | none => rfl
  | some o => exact if_neg (stray o out)

variable (o : OutSession) (out : s.port.outs[k]? = some o) (waits : o.stage = .opening)
include out waits

theorem openResponse_failed (failed : a.status ≠ 0) : exec (.openResponse k a) s = .next (withOut s k { o with
    stage := .failed
    status := a.status }) := by
  refine congrArg Host.Outcome.next ?_
  unfold openResponse
  rw [out]
  dsimp only
  rw [if_pos waits, if_neg failed, updOut_some out]

/-- The mirror up again with its session. -/
def mirrorUp (s : State) : State :=
  { s with jnl := { s.jnl with mirror := if s.jnl.mirror = .restoring then .restoring else .up } }

theorem openResponse_opened (opened : a.status = 0) : openResponse s k a =
    if o.kind = .mirror then releaseGrants (resendMirror (mirrorUp (withOut s k (openedOut o a)))) else withOut s k (openedOut o a) := by
  unfold openResponse
  rw [out]
  dsimp only
  rw [if_pos waits, if_pos opened, updOut_some out]
  rfl

theorem openResponse_other (opened : a.status = 0) (other : o.kind ≠ .mirror) :
    exec (.openResponse k a) s = .next (withOut s k (openedOut o a)) :=
  congrArg Host.Outcome.next ((openResponse_opened a o out waits opened).trans (if_neg other))

theorem openResponse_mirror (opened : a.status = 0) (mirror : o.kind = .mirror) : ∃ y, y.jnl = { s.jnl with
      mirror := if s.jnl.mirror = .restoring then .restoring else .up } ∧ y.port = { s.port with
      outs := s.port.outs.set k (openedOut o a) } ∧ SameBut [.jnl, .outs] s y ∧
    exec (.openResponse k a) s = .next (releaseGrants (y.jnl.unmirrored.foldl sendMirror y)) := by
  have can := Can.all [.jnl, .outs]
  have granted : Keeps (· ∈ [.jnl, .outs]) s (withOut s k (openedOut o a)) := Keeps.upd (.refl s) rfl rfl rfl
  have kept : Keeps (· ∈ [.jnl, .outs]) s (mirrorUp (withOut s k (openedOut o a))) := Keeps.upd granted rfl rfl rfl
  exact ⟨mirrorUp (withOut s k (openedOut o a)), rfl, rfl, kept.sameBut,
    congrArg Host.Outcome.next ((openResponse_opened a o out waits opened).trans (if_pos mirror))⟩

end

theorem mirror_reopens (s : State) : (s.jnl.mirror = .lost → ∃ t, exec .mirrorReopen s = .next t ∧ MirrorBegins s t) ∧
    (s.jnl.mirror ≠ .lost → exec .mirrorReopen s = .next s) ∧
    (s.jnl.mirror = .restoring → ∃ t, exec .restoreRetry s = .next t ∧ MirrorBegins s t) ∧
    (s.jnl.mirror ≠ .restoring → exec .restoreRetry s = .next s) :=
  ⟨fun lost => ⟨_, congrArg Host.Outcome.next (if_pos lost), mirror_begins s⟩, fun other => congrArg Host.Outcome.next (if_neg other),
    fun restores => ⟨_, congrArg Host.Outcome.next (if_pos restores), mirror_begins s⟩, fun other => congrArg Host.Outcome.next (if_neg other)⟩

end Sys2Proof.Safety

end

section
/-! Restore and replay of the journal (R353, R356); the journal and its mirror settled. -/

-- one theorem after the other: proofs side by side would need more memory than the check allows
set_option Elab.async false

namespace Sys2Proof.Safety

open Sys2Proof.Machine

/-! ## Restore -/

/-- The state with its journal restored, before its allocations go void. -/
def restored (s : State) (l : List MirrorRecord) : State :=
  let y := l.foldl restoreRecord s
  { y with jnl := { y.jnl with lotRing := reclaimLots y.jnl.lotRing, mirror := .up } }

section
variable {s : State} {l : List MirrorRecord}

theorem restore_idle (idle : s.jnl.mirror ≠ .restoring) : exec (.journalRestore l) s = .next s :=
  congrArg Host.Outcome.next (if_neg idle)

variable (restores : s.jnl.mirror = .restoring)
include restores

theorem journalRestore_eq : journalRestore s l = voidGranules (restored s l) (allocatedGranules (restored s l) fun _ => true) :=
  if_pos restores

theorem journalRestore_after : Keeps (· ∈ [.regs, .jobs, .voids, .dep, .txQueue, .sessions, .outs, .arrays, .cores, .hoists, .scatters,
    .chutes]) (restored s l) (journalRestore s l) := by
  have can := Can.all [.regs, .jobs, .voids, .dep, .txQueue, .sessions, .outs, .arrays, .cores, .hoists, .scatters, .chutes]
  rw [journalRestore_eq restores]
  exact voidGranules_keeps (.refl _) _

theorem journalRestore_jnl : (journalRestore s l).jnl = (restored s l).jnl :=
  jnl_eq ((journalRestore_after restores).field .respLog (by decide)) ((journalRestore_after restores).field .lotRing (by decide))
    ((journalRestore_after restores).field .jnl (by decide))

/-- Every granule of an allocation is void after a restore (R356). -/
theorem journalRestore_void : ∀ a ∈ (journalRestore s l).dep.allocs, a.base % 4096 = 0 →
    ∀ k, k < a.size / 4096 → isVoid (journalRestore s l) (a.base / 4096 + k) = true := by
  intro a here aligned k within
  obtain ⟨allocs, -, void⟩ := voidGranules_voids (allocatedGranules (restored s l) fun _ => true) (restored s l)
  rw [journalRestore_eq restores] at here ⊢
  rw [allocs] at here
  refine void _ ?_ (allocationOf_granule here aligned within)
  refine List.mem_flatMap.2 ⟨a, here, List.mem_filter.2 ⟨List.mem_map.2 ⟨k, List.mem_range.2 within, rfl⟩, rfl⟩⟩

theorem journalRestore_gives : ∃ t, exec (.journalRestore l) s = .next t ∧ t.jnl.mirror = .up ∧
    (∀ a ∈ t.dep.allocs, a.base % 4096 = 0 → ∀ k, k < a.size / 4096 → isVoid t (a.base / 4096 + k) = true) ∧
    (l = [] → t.jnl.lotRing = reclaimLots s.jnl.lotRing ∧ t.jnl.respLog = s.jnl.respLog ∧ t.dep.allocs = s.dep.allocs ∧
      t.dep.descs = s.dep.descs ∧ t.dep.graphs = s.dep.graphs) ∧
    SameBut [.regs, .allocs, .descs, .graphs, .jobs, .voids, .dep, .respLog, .lotRing, .jnl, .txQueue, .sessions, .outs, .arrays,
      .cores, .hoists, .scatters, .chutes] s t := by
  have kept := journalRestore_after restores (l := l)
  refine ⟨journalRestore s l, rfl, ?_, journalRestore_void restores, fun none => ?_, ?_⟩
  · rw [journalRestore_jnl restores]
    rfl
  · subst none
    rw [journalRestore_jnl restores]
    exact ⟨rfl, rfl, kept.field .allocs (by decide), kept.field .descs (by decide), kept.field .graphs (by decide)⟩
  · have can := Can.all [.regs, .allocs, .descs, .graphs, .jobs, .voids, .dep, .respLog, .lotRing, .jnl, .txQueue, .sessions, .outs,
      .arrays, .cores, .hoists, .scatters, .chutes]
    exact (journalRestore_keeps (.refl s) l).sameBut

end

theorem restoreRecord_lot (s : State) (r : MirrorRecord) (lot : r.kind = .lot) : let i := leAt r.bytes 4 2
    let t := restoreRecord s r
    let lsn : Word := BitVec.ofNat 32 (leAt r.bytes 8 4)
    let psn : Word := BitVec.ofNat 32 (leAt r.bytes 12 4)
    t.jnl.mirrorLsn = r.lsn ∧ getSession t i = { getSession s i with
      accLsn := lsn
      accPsn := psn
      expPsn := psn } ∧ (∀ j, j ≠ i → getSession t j = getSession s j) ∧
    (∃ q, t.jnl.lotRing = s.jnl.lotRing ++ [q] ∧ q.session = i ∧ q.lsn = lsn ∧ q.psnAfter = psn ∧ q.tAccept = leAt r.bytes 24 8 ∧
      q.bytes = r.bytes.drop 64 ∧ q.accepted = true ∧ q.retired = false ∧ q.done = []) ∧ SameBut [.lotRing, .jnl, .sessions] s t := by
  intro i t lsn psn
  let z : State := { s with jnl := { s.jnl with mirrorLsn := r.lsn } }
  have result : t = restoreLot z r.bytes := by
    show restoreRecord s r = _
    unfold restoreRecord
    rw [lot]
  obtain ⟨self, others, -⟩ := setSession_is z i { getSession z i with accLsn := lsn, accPsn := psn, expPsn := psn }
  have can := Can.all [.lotRing, .jnl, .sessions]
  have noted : Keeps (· ∈ [.lotRing, .jnl, .sessions]) s z := Keeps.upd (.refl s) rfl rfl rfl
  rw [result]
  exact ⟨rfl, self, others, ⟨_, rfl, rfl, rfl, rfl, rfl, rfl, rfl, rfl, rfl⟩, (restoreLot_keeps noted r.bytes).sameBut⟩

/-! ## Replay -/

section
variable {s : State} {r : LotRecord}

theorem replayRecord_live (live : r.dead = 0) : let cs := undone s r
    ∃ y, Counted (depBase + Ctr.DEP_REPLAY_CNT) cs.length s y ∧ SameBut [.regs] s y ∧
      SessionIs r.session { getSession s r.session with backlog := (getSession s r.session).backlog ++ cs } y (replayRecord s r) := by
  intro cs
  have replayed : replayRecord s r = setSession (count s depBase Ctr.DEP_REPLAY_CNT cs.length) r.session
      { getSession s r.session with backlog := (getSession s r.session).backlog ++ cs } := if_pos live
  have can := Can.all [.regs]
  refine ⟨_, count_gives s depBase Ctr.DEP_REPLAY_CNT cs.length, (count_keeps (P := (· ∈ [.regs])) (.refl s) ..).sameBut, ?_⟩
  rw [replayed]
  exact setSession_is ..

theorem undone_none (done : r.accepted = false ∨ r.piece ≠ none ∨ r.retired = true) : undone s r = [] := by
  refine if_neg ?_
  rw [Bool.and_eq_true, Bool.and_eq_true]
  rintro ⟨⟨accepted, plain⟩, open_⟩
  rcases done with no | piece | retired
  · rw [no] at accepted
    cases accepted
  · exact piece (Option.isNone_iff_eq_none.1 plain)
  · rw [retired] at open_
    cases open_

theorem undone_mem (accepted : r.accepted = true) (plain : r.piece = none) (open_ : r.retired = false) (live : r.dead = 0)
    (c : LotCommand) : c ∈ undone s r ↔ c ∈ lotCommands (Fin.ofNat 2048 r.session) r.lsn r.tAccept r.bytes ∧ c.ctx.index ∉ r.done ∧
      ∀ x ∈ s.jnl.respLog, sameCmd x.ctx r.session r.lsn c.ctx.index = true → x.written = false := by
  have guard : (r.accepted && r.piece.isNone && !r.retired) = true := by rw [accepted, plain, open_]; rfl
  have all : undone s r = (lotCommands (Fin.ofNat 2048 r.session) r.lsn r.tAccept r.bytes).filter fun c =>
      !r.done.contains c.ctx.index && !(s.jnl.respLog.any fun x => sameCmd x.ctx r.session r.lsn c.ctx.index && x.written) := by
    refine (if_pos guard).trans ?_
    rw [live]
    exact List.map_id _
  rw [all, List.mem_filter]
  simp

end

/-- Replay puts the commands of every record to their sessions. -/
def replayPut (s : State) : State :=
  let z := restartJobs (replaceGraphs (redoPieces s))
  z.jnl.lotRing.foldl replayRecord z

/-- Replay asks every LOT session to begin again where the journal ends. -/
def replayAsked (s : State) : State :=
  ((replayPut s).port.sessions.map (·.1)).foldl resyncSession (replayPut s)

/-- Replay marked done. -/
def replayMarked (s : State) : State :=
  let w := replayAsked s
  let v : State := { w with dep := { w.dep with replayed := true } }
  if v.pwr.warm then raise v depBase Flag.dep_WARM_RESET else v

section
variable (s : State)

theorem replayAsked_keeps : Keeps (· ∈ [.regs, .sessions, .orphans, .txQueue]) (restartJobs (replaceGraphs (redoPieces s))) (replayAsked s) := by
  have can := Can.all [.regs, .sessions, .orphans, .txQueue]
  exact Keeps.foldl (Keeps.foldl (.refl _) _ fun u r kept => replayRecord_keeps kept r) _ fun u i kept => resyncSession_keeps kept i

theorem replayMarked_keeps : Keeps (· ∈ [.regs, .dep]) (replayAsked s) (replayMarked s) := by
  have can := Can.all [.regs, .dep]
  unfold replayMarked
  dsimp only
  split
  · exact raise_keeps (Keeps.upd (.refl _) rfl rfl rfl) ..
  · exact Keeps.upd (.refl _) rfl rfl rfl

theorem replayMarked_after : Keeps (· ∈ [.regs, .sessions, .orphans, .txQueue, .dep]) (restartJobs (replaceGraphs (redoPieces s)))
    (replayMarked s) :=
  ((replayAsked_keeps s).mono (by decide)).trans ((replayMarked_keeps s).mono (by decide))

theorem replayMarked_jnl : (replayMarked s).jnl = (restartJobs (replaceGraphs (redoPieces s))).jnl :=
  jnl_eq ((replayMarked_after s).field .respLog (by decide)) ((replayMarked_after s).field .lotRing (by decide))
    ((replayMarked_after s).field .jnl (by decide))

theorem replayMarked_jobs : ∀ j ∈ (replayMarked s).dep.jobs, j.state = .held ∧ j.holdCause = 4 := by
  intro j here
  have jobs : (replayMarked s).dep.jobs = (restartJobs (replaceGraphs (redoPieces s))).dep.jobs := (replayMarked_after s).field .jobs (by decide)
  rw [jobs] at here
  obtain ⟨old, -, rfl⟩ := List.mem_map.1 here
  exact ⟨rfl, rfl⟩

theorem replayMarked_replayed : (replayMarked s).dep.replayed = true := by
  unfold replayMarked
  dsimp only
  split <;> rfl

theorem replayAsked_warm : (replayAsked s).pwr.warm = s.pwr.warm := by
  have can := Can.all [.freeCount, .mem, .regs, .graphs, .stages, .jobs, .voids, .dep, .jnl, .txQueue, .outs, .cores, .assays, .chutes]
  have before : Keeps (· ∈ [.freeCount, .mem, .regs, .graphs, .stages, .jobs, .voids, .dep, .jnl, .txQueue, .outs, .cores, .assays,
      .chutes]) s (restartJobs (replaceGraphs (redoPieces s))) :=
    restartJobs_keeps (replaceGraphs_keeps (redoPieces_keeps (.refl s)))
  exact (warm_of ((replayAsked_keeps s).field .pwr (by decide))).trans (warm_of (before.field .pwr (by decide)))

theorem replayMarked_warm (warm : s.pwr.warm = true) :
    BitSet (depBase + Flag.dep_WARM_RESET.1) Flag.dep_WARM_RESET.2 (replayMarked s) := by
  unfold replayMarked
  dsimp only
  rw [if_pos ((replayAsked_warm s).trans warm)]
  exact bitSet_raise _ _ _ (by decide)

theorem replayMarked_session (i : Nat) : getSession (replayMarked s) i = getSession (replayAsked s) i :=
  keeps_session (replayMarked_keeps s) (by decide) i

theorem replayMarked_resyncs : (∀ i, (getSession (replayMarked s) i).kind = (getSession (replayPut s) i).kind ∧
      (getSession (replayMarked s) i).accPsn = (getSession (replayPut s) i).accPsn ∧
      (getSession (replayMarked s) i).backlog = (getSession (replayPut s) i).backlog) ∧
    (∀ i, (getSession (replayMarked s) i).kind = .lot → Resyncs (getSession (replayMarked s) i)) := by
  obtain ⟨same, asked⟩ := resync_all ((replayPut s).port.sessions.map (·.1)) (replayPut s)
  refine ⟨fun i => by rw [replayMarked_session]; exact same i, fun i lot => ?_⟩
  rw [replayMarked_session] at lot ⊢
  obtain ⟨kind, -, -⟩ := same i
  have before : (getSession (replayPut s) i).kind = .lot := kind.symm.trans lot
  exact asked i before (.inl (lot_listed before))

end

/-- Settles O60: the writes, the mirror, the sessions opened, then restore and replay. -/
theorem journalAndMirror : Obligations.JournalAndMirror := by
  unfold Obligations.JournalAndMirror
  refine ⟨fun s id ok0 ok8 => ⟨journalWrite_unknown, fun w found => ⟨journalWrite_held found, fun i lsn failed => ?_,
      fun i lsn index failed => ?_, fun job node task k failed => ?_⟩⟩,
    fun y => ⟨actWrites_none, fun w one => actWrites_single one⟩, fun s lsn => ⟨fun alone => mirrorAck_alone alone lsn,
    fun twin => mirrorAck_acks twin lsn⟩, fun s r => ⟨mirrorRecord_closed, fun i mirror => ⟨mirrorRecord_other mirror, mirrorRecord_stores mirror⟩⟩,
    fun s k nonce => ⟨helloResponse_stray nonce, helloResponse_opens nonce⟩, fun s k a => ⟨openResponse_stray a, fun o out waits =>
      ⟨openResponse_failed a o out waits, openResponse_other a o out waits, openResponse_mirror a o out waits⟩⟩,
    mirror_reopens, fun s l => ⟨restore_idle, journalRestore_gives⟩, restoreRecord_lot, fun s => ?_,
    fun s r => ⟨replayRecord_live, undone_none, undone_mem⟩⟩
  · exact lotWrite_failed found failed i lsn
  · exact responseWrite_failed found failed i lsn index
  · exact pieceWrite_failed found failed job node task k
  · intro due
    refine ⟨fun no => congrArg Host.Outcome.next (if_neg no), fun yes => ?_⟩
    obtain ⟨same, resyncs⟩ := replayMarked_resyncs s
    exact ⟨_, replayPut s, replayMarked s, rfl, rfl, congrArg Host.Outcome.next (if_pos yes), replayMarked_replayed s,
      replayMarked_warm s, replayMarked_jobs s, replayMarked_jnl s, same, resyncs⟩

end Sys2Proof.Safety

end

section
/-! The tram: trains fed, cars that hop, stalls (R236 to R242). -/

-- one theorem after the other: proofs side by side would need more memory than the check allows
set_option Elab.async false

namespace Sys2Proof.Safety

open Sys2Proof.Machine

/-! ## BROADCAST -/

section
variable {s : State} {q : QueueId} {cars : List CarSpec}

theorem feedTrain_refused (refused : ¬ (((getQueue s q).local_.head?.map (·.train)) = some cars ∧ trainOk s q cars = true)) :
    exec (.broadcast q cars) s = .next s := by
  refine congrArg Host.Outcome.next ?_
  unfold feedTrain
  dsimp only
  cases held : (getQueue s q).local_ with
  | nil => rfl
  | cons d more =>
    refine if_neg fun ⟨train, fits⟩ => refused ⟨?_, fits⟩
    rw [held]
    exact congrArg some train

theorem broadcast_noTrain (none : ∀ first rest, cars = first :: rest → ¬ MayFeed s q first rest) : exec (.broadcast q cars) s = .next s := by
  refine feedTrain_refused fun ⟨_, fits⟩ => ?_
  cases cars with
  | nil => cases fits
  | cons first rest => exact none first rest rfl (trainOk_iff.1 fits)

theorem broadcast_notHeld (other : (getQueue s q).local_.head?.map (·.train) ≠ some cars) : exec (.broadcast q cars) s = .next s :=
  feedTrain_refused fun ⟨held, _⟩ => other held

theorem broadcast_feeds (first : CarSpec) (rest : List CarSpec) (d : HoistCmd) (more : List HoistCmd) (train : cars = first :: rest)
    (may : MayFeed s q first rest) (held : (getQueue s q).local_ = d :: more) (same : d.train = cars) :
    let x := getQueue s q
    let cmd : HoistCmd := { runs := carRuns (x.firstCar + x.cars.length) cars, dry := trainDry s cars, deps := [], slow := false }
    let segs := makeSegments q x.nextId s.clk.now cmd .tram
    ∃ t, exec (.broadcast q cars) s = .next t ∧ SameBut [.hoists] s t ∧
      QueueIs q { x with
        local_ := more
        cars := x.cars ++ loadingCars cars
        ready := x.ready ++ segs
        nextId := x.nextId + segs.length } s t := by
  intro x cmd segs
  let z := setQueue s q { x with local_ := more, cars := x.cars ++ loadingCars cars }
  have runs : feedTrain s q cars = enqueueTo z q cmd .tram := by
    unfold feedTrain
    dsimp only
    rw [held]
    exact if_pos ⟨same, by rw [train]; exact trainOk_iff.2 may⟩
  have set : getQueue z q = { x with local_ := more, cars := x.cars ++ loadingCars cars } := getQueue_setQueue_self ..
  have can := Can.all [.hoists]
  have frame : Keeps (· ∈ [.hoists]) s (enqueueTo z q cmd .tram) := enqueueTo_keeps (setQueue_keeps (.refl s) ..) ..
  refine ⟨_, congrArg Host.Outcome.next runs, frame.sameBut, ?_, fun p other => ?_⟩
  · refine (getQueue_setQueue_self ..).trans ?_
    rw [set]
    rfl
  · exact (getQueue_setQueue_other _ _ other).trans (getQueue_setQueue_other _ _ other)

end

/-! ## Cars released into the chain -/

/-- A car put behind those that are fed at its entry. -/
def feedCar (s : State) (c : LoadingCar) : State :=
  setHop s (coreAtPos c.entry) { getHop s (coreAtPos c.entry) with feeding := (getHop s (coreAtPos c.entry)).feeding ++ [c.car] }

theorem feedCars_feeding (l : List LoadingCar) (c : CoreId) : ∀ s : State, (getHop (l.foldl feedCar s) c).feeding =
    (getHop s c).feeding ++ (l.filter fun d => coreAtPos d.entry == c).map (·.car) := by
  induction l with
  | nil => exact fun s => (List.append_nil _).symm
  | cons d l ih =>
    intro s
    rw [List.foldl_cons, ih]
    by_cases here : coreAtPos d.entry = c
    · subst here
      rw [feedCar, getHop_setHop_self, List.filter_cons_of_pos (by simp), List.append_assoc]
      rfl
    · rw [feedCar, getHop_setHop_other _ _ fun e => here e.symm, List.filter_cons_of_neg (by simpa using here)]

theorem feedCars_keeps (l : List LoadingCar) (s : State) : Keeps (· ∈ [.hops]) s (l.foldl feedCar s) := by
  have can := Can.all [.hops]
  exact Keeps.foldl (.refl s) l fun t d kept => setHop_keeps kept ..

theorem releaseCars_gives (s : State) (q : QueueId) : let whole := (getQueue s q).cars.takeWhile fun c => c.left == 0
    (getQueue (releaseCars s q) q).cars = (getQueue s q).cars.drop whole.length ∧
    (∀ c, (getHop (releaseCars s q) c).feeding =
      (getHop s c).feeding ++ (whole.filter fun d => coreAtPos d.entry == c).map (·.car)) ∧
    SameBut [.hoists, .hops] s (releaseCars s q) := by
  intro whole
  let z := setQueue s q { getQueue s q with
    cars := (getQueue s q).cars.drop whole.length, firstCar := (getQueue s q).firstCar + whole.length }
  have result : releaseCars s q = whole.foldl feedCar z := rfl
  have can := Can.all [.hoists, .hops]
  refine ⟨?_, fun c => ?_, (releaseCars_keeps (P := (· ∈ [.hoists, .hops])) (.refl s) q).sameBut⟩
  · have hoists : (whole.foldl feedCar z).hoists = z.hoists := (feedCars_keeps whole z).field .hoists (by decide)
    rw [result, getQueue_congr hoists, getQueue_setQueue_self]
  · rw [result, feedCars_feeding]
    rfl

theorem bytes_put (old new : List Byte) (a : Nat) (fits : a + new.length ≤ old.length) :
    let l := old.take a ++ new ++ old.drop (a + new.length)
    l.length = old.length ∧ (∀ i, i < new.length → l[a + i]? = new[i]?) ∧ (∀ i, i < a ∨ a + new.length ≤ i → l[i]? = old[i]?) := by
  intro l
  have first : (old.take a).length = a := by rw [List.length_take]; omega
  have parts : l = old.take a ++ (new ++ old.drop (a + new.length)) := List.append_assoc ..
  refine ⟨?_, fun i within => ?_, fun i outside => ?_⟩
  · simp only [l, List.length_append, List.length_take, List.length_drop]
    omega
  · rw [parts, List.getElem?_append_right (by omega), List.getElem?_append_left (by omega)]
    congr 1
    omega
  · rcases outside with before | behind
    · rw [parts, List.getElem?_append_left (by omega), List.getElem?_take_of_lt before]
    · rw [show l = old.take a ++ new ++ old.drop (a + new.length) from rfl,
        List.getElem?_append_right (by rw [List.length_append]; omega), List.getElem?_drop, List.length_append, first]
      congr 1
      omega

theorem fillCar_fills (x : HoistQueue) (r : RunMove) (bs : List Byte) (k : Nat) (d : LoadingCar) (data : r.data = some bs) (some_ : bs ≠ [])
    (sound : r.bad = []) (place : k = r.run.dst / 4096 - x.firstCar) (car : x.cars[k]? = some d)
    (fits : r.run.dst % 4096 + bs.length ≤ d.car.payload.length) :
    ∃ e, (fillCar false x r).cars[k]? = some e ∧ e.left = d.left - r.run.len ∧ e.car.poisoned = d.car.poisoned ∧
      e.car.payload.length = d.car.payload.length ∧
      (∀ i, i < bs.length → e.car.payload[r.run.dst % 4096 + i]? = bs[i]?) ∧
      (∀ i, i < r.run.dst % 4096 ∨ r.run.dst % 4096 + bs.length ≤ i → e.car.payload[i]? = d.car.payload[i]?) ∧
      ∀ j, j ≠ k → (fillCar false x r).cars[j]? = x.cars[j]? := by
  obtain ⟨length, new, old⟩ := bytes_put d.car.payload bs (r.run.dst % 4096) fits
  unfold fillCar
  rw [data]
  dsimp only
  rw [← place]
  refine ⟨_, by rw [List.getElem?_modify_eq, car]; rfl, rfl, ?_, length, new, old, fun j other => List.getElem?_modify_ne _ _ (Ne.symm other)⟩
  dsimp only
  rw [sound, List.isEmpty_eq_false_iff.2 some_]
  simp

/-! ## CAR_HOP -/

/-- The stage's error counted, then a kept car's. -/
def eccNoted (s : State) (c : CoreId) (ecc : EccFinding) : State :=
  if ecc = .corrected then
    count (raise (count s (tramRegBase c) Ctr.TRAM_CE_CNT 1) (tramRegBase c) Flag.tram_CE) depBase Ctr.DEP_CORRECTED_CNT 1
  else s

def keepNoted (s : State) (c : CoreId) (keeps poisoned : Bool) : State :=
  let b := tramRegBase c
  let s := if keeps then count s b Ctr.TRAM_KEEP_CNT 1 else s
  if keeps && poisoned then raise (count s b Ctr.TRAM_UE_CNT 1) b Flag.tram_UE else s

def onNoted (s : State) (c : CoreId) (on : Bool) : State :=
  if on then count s (tramRegBase c) Ctr.TRAM_FWD_CNT 1 else s

theorem hopNoted_eq (s : State) (c : CoreId) (keeps on poisoned : Bool) (ecc : EccFinding) :
    hopNoted s c keeps on poisoned ecc = onNoted (keepNoted (eccNoted s c ecc) c keeps poisoned) c on := by
  unfold hopNoted
  extract_lets b s1 s2 s3
  have ecc : s1 = eccNoted s c ecc := rfl
  have kept : s3 = keepNoted s1 c keeps poisoned := rfl
  rw [← ecc, ← kept]
  rfl

theorem eccNoted_regs {s t : State} (regs : t.regs = s.regs) (c : CoreId) (ecc : EccFinding) : (eccNoted t c ecc).regs = (eccNoted s c ecc).regs := by
  unfold eccNoted
  split
  · exact count_regs_congr (raise_regs_congr (count_regs_congr regs ..) ..) ..
  · exact regs

theorem keepNoted_regs {s t : State} (regs : t.regs = s.regs) (c : CoreId) (keeps poisoned : Bool) :
    (keepNoted t c keeps poisoned).regs = (keepNoted s c keeps poisoned).regs := by
  cases keeps <;> cases poisoned
  case true.true => exact raise_regs_congr (count_regs_congr (count_regs_congr regs ..) ..) ..
  case true.false => exact count_regs_congr regs ..
  all_goals exact regs

theorem onNoted_regs {s t : State} (regs : t.regs = s.regs) (c : CoreId) (on : Bool) : (onNoted t c on).regs = (onNoted s c on).regs := by
  cases on
  · exact regs
  · exact count_regs_congr regs ..

theorem eccNoted_rest (s : State) (c : CoreId) (ecc : EccFinding) : let t := eccNoted s c ecc
    t.hops = s.hops ∧ t.mem = s.mem ∧ t.cores = s.cores := by
  unfold eccNoted
  dsimp only
  split
  · exact ⟨by rw [count_hops, raise_hops, count_hops], by rw [count_mem, raise_mem, count_mem],
      by rw [count_cores, raise_cores, count_cores]⟩
  · exact ⟨rfl, rfl, rfl⟩

/-- A stage whose next car has left its source. -/
def hopTaken (h : HopState) (injected : Bool) : HopState :=
  { h with
    arriving := if injected then h.arriving else h.arriving.tail
    feeding := if injected then h.feeding.tail else h.feeding
    lastInjected := injected }

/-- The car out of its source, and what its words show counted. -/
def hopLeft (s : State) (c : CoreId) (injected : Bool) (ecc : EccFinding) : State :=
  eccNoted (setHop s c (hopTaken (getHop s c) injected)) c ecc

/-- The car kept where the core keeps it. -/
def hopKept (s : State) (c : CoreId) (car : Car) (keeps : Bool) : State :=
  if keeps then keepCar s c car else s

/-- The car passed on where it goes on. -/
def hopPassed (s : State) (c : CoreId) (car : Car) (on : Bool) : State :=
  let n := coreAtPos (tramPos c + 1)
  if on then count (setHop s n { getHop s n with arriving := (getHop s n).arriving ++ [car] }) (tramRegBase c) Ctr.TRAM_FWD_CNT 1 else s

theorem goesOn_iff (c : CoreId) (car : Car) : (decide (tramPos c < 511) && decide (tramPos c < car.lastZ)) = true ↔ GoesOn c car := by
  simp [GoesOn]

section
variable {s : State} {c : CoreId} {car : Car} {injected : Bool}

theorem hop_guard : (!isLiveDom s (.seam c.seam .fclk) || !mayGo (getHop s c) injected car ||
      ((decide (tramPos c < 511) && decide (tramPos c < car.lastZ)) && !nextStageLive s (tramPos c)) || (getHop s c).stalled ||
      (keepsCar s c car && decide (32 ≤ (getHop s c).lines))) = false ↔ MayHop s c car injected := by
  rw [Bool.or_eq_false_iff, Bool.or_eq_false_iff, Bool.or_eq_false_iff, Bool.or_eq_false_iff, Bool.not_eq_false', Bool.not_eq_false', hop_mayGo]
  constructor
  · rintro ⟨⟨⟨⟨live, head, turn⟩, next⟩, moving⟩, room⟩
    refine ⟨live, head, turn, fun on => ?_, moving, fun keeps => ?_⟩
    · rw [(goesOn_iff c car).2 on, Bool.true_and, Bool.not_eq_false'] at next
      exact next
    · rw [keepsCar_iff.2 keeps, Bool.true_and, decide_eq_false_iff_not] at room
      omega
  · rintro ⟨live, head, turn, next, moving, room⟩
    refine ⟨⟨⟨⟨live, head, turn⟩, Bool.eq_false_iff.2 fun stuck => ?_⟩, moving⟩, Bool.eq_false_iff.2 fun full => ?_⟩
    · rw [Bool.and_eq_true, Bool.not_eq_true'] at stuck
      have live := next ((goesOn_iff c car).1 stuck.1)
      rw [nextStageLive, live] at stuck
      exact Bool.noConfusion stuck.2
    · rw [Bool.and_eq_true, decide_eq_true_eq] at full
      have := room (keepsCar_iff.1 full.1)
      omega

theorem hop_stays (ecc : EccFinding) (no : ¬ MayHop s c car injected) : exec (.carHop c car injected ecc) s = .next s := by
  refine congrArg Host.Outcome.next (if_pos ?_)
  refine Classical.byContradiction fun guard => ?_
  exact no (hop_guard.1 (by simpa using guard))

theorem hopTaken_eq (h : HopState) (injected : Bool) : hopTaken h injected =
    { (if injected then { h with feeding := h.feeding.drop 1 } else { h with arriving := h.arriving.drop 1 }) with
      lastInjected := injected } := by
  cases injected <;> simp [hopTaken]

theorem hop_runs (ecc : EccFinding) (may : MayHop s c car injected) : exec (.carHop c car injected ecc) s = .next
    (hopPassed (hopKept (hopLeft s c injected ecc) c (carAfter car ecc) (keepsCar s c car)) c (carAfter car ecc)
      (decide (tramPos c < 511) && decide (tramPos c < car.lastZ))) := by
  refine congrArg Host.Outcome.next ((if_neg fun stuck => ?_).trans ?_)
  · rw [hop_guard.2 may] at stuck
    cases stuck
  · rw [hopLeft, hopTaken_eq]
    simp only [hopPassed, hopKept, eccNoted, carAfter]

theorem hopLeft_rest (ecc : EccFinding) : let t := hopLeft s c injected ecc
    t.regs = (eccNoted s c ecc).regs ∧ getHop t c = hopTaken (getHop s c) injected ∧ (∀ d, d ≠ c → getHop t d = getHop s d) ∧
      t.mem = s.mem ∧ t.cores = s.cores := by
  obtain ⟨hops, mem, cores⟩ := eccNoted_rest (setHop s c (hopTaken (getHop s c) injected)) c ecc
  exact ⟨eccNoted_regs (setHop_regs ..) c ecc, (getHop_congr hops c).trans (getHop_setHop_self ..),
    fun d other => (getHop_congr hops d).trans (getHop_setHop_other _ _ other), mem, cores⟩

theorem hopKept_rest (keeps : Bool) (fits : keeps = true → car.offset + car.payload.length ≤ 0x100000) : let t := hopKept s c car keeps
    t.regs = (keepNoted s c keeps car.poisoned).regs ∧
    getHop t c = { getHop s c with lines := if keeps then min 32 ((getHop s c).lines + car.payload.length / 32) else (getHop s c).lines } ∧
    (∀ d, d ≠ c → getHop t d = getHop s d) ∧
    (keeps = true → t.mem = storeBytes s.mem (scratchAddr c car.offset) car.payload ∧ PoisonBut c s t) ∧
    (keeps = false → t.mem = s.mem ∧ t.cores = s.cores) := by
  intro t
  cases keeps with
  | false => exact ⟨rfl, rfl, fun d _ => rfl, fun h => Bool.noConfusion h, fun _ => ⟨rfl, rfl⟩⟩
  | true =>
    obtain ⟨regs, hops, mem, poison⟩ := keepCar_gives s c car (fits rfl)
    refine ⟨regs.trans ?_, (getHop_congr hops c).trans (getHop_setHop_self ..),
      fun d other => (getHop_congr hops d).trans (getHop_setHop_other _ _ other), fun _ => ⟨mem, poison⟩, fun h => Bool.noConfusion h⟩
    unfold keepNoted
    cases car.poisoned <;> rfl

theorem hopPassed_on : hopPassed s c car true =
    count (setHop s (coreAtPos (tramPos c + 1)) { getHop s (coreAtPos (tramPos c + 1)) with
      arriving := (getHop s (coreAtPos (tramPos c + 1))).arriving ++ [car] }) (tramRegBase c) Ctr.TRAM_FWD_CNT 1 := by
  unfold hopPassed
  exact if_pos rfl

theorem hopPassed_off : hopPassed s c car false = s := by
  unfold hopPassed
  exact if_neg Bool.false_ne_true

theorem onNoted_on : onNoted s c true = count s (tramRegBase c) Ctr.TRAM_FWD_CNT 1 := by
  unfold onNoted
  exact if_pos rfl

theorem onNoted_off : onNoted s c false = s := by
  unfold onNoted
  exact if_neg Bool.false_ne_true

theorem hopPassed_rest (on : Bool) (apart : on = true → coreAtPos (tramPos c + 1) ≠ c) :
    (hopPassed s c car on).regs = (onNoted s c on).regs ∧ getHop (hopPassed s c car on) c = getHop s c ∧
    (on = true → getHop (hopPassed s c car on) (coreAtPos (tramPos c + 1)) = { getHop s (coreAtPos (tramPos c + 1)) with
      arriving := (getHop s (coreAtPos (tramPos c + 1))).arriving ++ [car] }) ∧
    (∀ d, some d ≠ (if on then some (coreAtPos (tramPos c + 1)) else none) → getHop (hopPassed s c car on) d = getHop s d) ∧
    (hopPassed s c car on).mem = s.mem ∧ (hopPassed s c car on).cores = s.cores := by
  cases on with
  | false =>
    rw [hopPassed_off, onNoted_off]
    exact ⟨rfl, rfl, fun h => Bool.noConfusion h, fun d _ => rfl, rfl, rfl⟩
  | true =>
    have next := apart rfl
    rw [hopPassed_on, onNoted_on]
    generalize coreAtPos (tramPos c + 1) = n at next ⊢
    refine ⟨count_regs_congr (setHop_regs ..) .., ?_, fun _ => ?_, fun d other => ?_, ?_, ?_⟩
    · rw [getHop_congr (count_hops ..), getHop_setHop_other _ _ next.symm]
    · rw [getHop_congr (count_hops ..), getHop_setHop_self]
    · rw [getHop_congr (count_hops ..), getHop_setHop_other _ _ fun same => other (by rw [same]; rfl)]
    · rw [count_mem, setHop_mem]
    · rw [count_cores, setHop_cores]

theorem hop_gives (ecc : EccFinding) (may : MayHop s c car injected) : let h := getHop s c
    let n := coreAtPos (tramPos c + 1)
    ∃ t, exec (.carHop c car injected ecc) s = .next t ∧
      (∀ keeps on : Bool, (keeps = true ↔ KeepsCar s c car) → (on = true ↔ GoesOn c car) →
        RegsAs (hopNoted s c keeps on (carAfter car ecc).poisoned ecc) t ∧
        getHop t c = { h with
          arriving := if injected then h.arriving else h.arriving.tail
          feeding := if injected then h.feeding.tail else h.feeding
          lastInjected := injected
          lines := if keeps then min 32 (h.lines + car.payload.length / 32) else h.lines } ∧
        (on = true → getHop t n = { getHop s n with arriving := (getHop s n).arriving ++ [carAfter car ecc] }) ∧
        HopsBut c (if on then some n else none) s t) ∧
      (KeepsCar s c car → (∀ k (hk : k < car.payload.length), loadByte t.mem (scratchAddr c car.offset + k) = car.payload[k]) ∧
        BytesBut (scratchAddr c car.offset) car.payload.length s t ∧ PoisonBut c s t) ∧
      (¬ KeepsCar s c car → t.mem = s.mem ∧ t.cores = s.cores) ∧
      SameBut [.mem, .regs, .cores, .hops] s t := by
  intro h n
  have runs := hop_runs ecc may
  obtain ⟨keeps, hkeeps⟩ : ∃ k, k = keepsCar s c car := ⟨_, rfl⟩
  obtain ⟨on, hon⟩ : ∃ o, o = (decide (tramPos c < 511) && decide (tramPos c < car.lastZ)) := ⟨_, rfl⟩
  have kept : keeps = true ↔ KeepsCar s c car := by rw [hkeeps]; exact keepsCar_iff
  have goes : on = true ↔ GoesOn c car := by rw [hon]; exact goesOn_iff c car
  rw [← hkeeps, ← hon] at runs
  obtain ⟨y, hy⟩ : ∃ y, y = hopLeft s c injected ecc := ⟨_, rfl⟩
  obtain ⟨z, hz⟩ : ∃ z, z = hopKept y c (carAfter car ecc) keeps := ⟨_, rfl⟩
  have apart : on = true → n ≠ c := fun yes => next_ne (goes.1 yes)
  obtain ⟨regs, self, others, mem, cores⟩ := hopLeft_rest (s := s) (c := c) (injected := injected) ecc
  obtain ⟨kregs, kself, kothers, stored, left⟩ := hopKept_rest (s := y) (c := c) (car := carAfter car ecc) keeps fun yes => (kept.1 yes).2.2.2
  obtain ⟨pregs, pself, pnext, pothers, pmem, pcores⟩ := hopPassed_rest (s := z) (c := c) (car := carAfter car ecc) on apart
  rw [← hy] at regs self others mem cores
  rw [← hy, ← hz] at runs
  rw [← hz] at kregs kself kothers stored left
  refine ⟨_, runs, fun keeps' on' hk ho => ?_, fun yes => ?_, fun no => ?_, ?_⟩
  · have ek : keeps' = keeps := Bool.eq_iff_iff.2 (hk.trans kept.symm)
    have eo : on' = on := Bool.eq_iff_iff.2 (ho.trans goes.symm)
    rw [ek, eo, hopNoted_eq]
    refine ⟨?_, ?_, fun yes => ?_, fun d other next => ?_⟩
    · exact pregs.trans (onNoted_regs (kregs.trans (keepNoted_regs regs c keeps _)) c on)
    · rw [pself, kself, self]
      rfl
    · rw [pnext yes, kothers n (apart yes), others n (apart yes)]
    · rw [pothers d next, kothers d other, others d other]
  · obtain ⟨memz, poison⟩ := stored (kept.2 yes)
    rw [mem] at memz
    have all : (hopPassed z c (carAfter car ecc) on).mem = storeBytes s.mem (scratchAddr c car.offset) car.payload := pmem.trans memz
    refine ⟨fun k within => ?_, fun a outside => ?_, fun d other => ?_, ?_⟩
    · rw [all]
      exact loadByte_storeBytes_self _ _ _ k within
    · rw [all]
      exact loadByte_storeBytes_other _ _ _ _ outside
    · rw [getCore_congr pcores, poison.others d other, getCore_congr cores]
    · rw [getCore_congr pcores, poison.rest, getCore_congr cores]
  · obtain ⟨memz, coresz⟩ := left (Bool.eq_false_iff.2 fun yes => no (kept.1 yes))
    exact ⟨pmem.trans (memz.trans mem), pcores.trans (coresz.trans cores)⟩
  · have frame : Keeps (· ∈ [.mem, .regs, .cores, .hops]) s (hopCar s c car injected ecc) := hopCar_keeps (.refl s) _ _ _ _ (Can.all _)
    have result : hopCar s c car injected ecc = hopPassed z c (carAfter car ecc) on := Host.Outcome.next.inj runs
    rw [← result]
    exact frame.sameBut

end

/-! ## TRAM_STALL -/

theorem stall_gives (s : State) (c : CoreId) :
    ((getHop s c).lines < 32 → exec (.tramStall c) s = .next s) ∧
    (32 ≤ (getHop s c).lines → ∃ t, exec (.tramStall c) s = .next t ∧ getHop t c = { getHop s c with stalled := true } ∧
      HopsBut c none s t ∧ Counted (tramRegBase c + Ctr.TRAM_STALL_CNT) 1 s t ∧ RegsBut [tramRegBase c + Ctr.TRAM_STALL_CNT] s t ∧
      SameBut [.regs, .hops] s t) := by
  refine ⟨fun room => congrArg Host.Outcome.next (if_neg (by omega)), fun full =>
    ⟨_, congrArg Host.Outcome.next (if_pos full), ?_, fun d other _ => ?_, rawReg_count_self .., fun a => ?_, ?_⟩⟩
  · rw [getHop_congr (count_hops ..), getHop_setHop_self]
  · rw [getHop_congr (count_hops ..), getHop_setHop_other _ _ other]
  · by_cases here : a = tramRegBase c + Ctr.TRAM_STALL_CNT
    · exact .inl (by simp [here])
    · exact .inr (rawReg_count_other _ here)
  · have can := Can.all [.regs, .hops]
    exact (count_keeps (P := (· ∈ [.regs, .hops])) (setHop_keeps (.refl s) ..) ..).sameBut

/-- Settles O42: the train fed, its cars released and filled, the hop, the stall. -/
theorem tramCars : Obligations.TramCars := by
  unfold Obligations.TramCars
  refine ⟨⟨fun s q cars => ⟨broadcast_noTrain, broadcast_notHeld, broadcast_feeds⟩, releaseCars_gives,
    fun x r bs k d data some_ sound _ place car fits => fillCar_fills x r bs k d data some_ sound place car fits⟩,
    fun s c car injected ecc => ⟨hop_stays ecc, hop_gives ecc⟩, stall_gives⟩

end Sys2Proof.Safety

end

section
/-! Hoist queues: commands, copies, gathers and scatters (R159, R188 to R220). -/

-- one theorem after the other: proofs side by side would need more memory than the check allows
set_option Elab.async false

namespace Sys2Proof.Safety

open Sys2Proof.Machine

/-! ## A command of a queue -/

theorem getQueue_sameBut {l : List Part} {s t : State} (same : SameBut l s t) (off : Part.hoists ∉ l) (q : QueueId) :
    getQueue t q = getQueue s q :=
  getQueue_congr ((same.2 .hoists).resolve_left off) q

theorem hoistCommand_refused {s : State} {q : QueueId} (refused : ¬ QueueTakes s q ∨ FeedsTram q) (cmd : HoistCmd) :
    exec (.hoistCommand q cmd) s = .next s :=
  congrArg Host.Outcome.next (enterCommand_none refused cmd)

theorem hoistCommand_queues {s : State} {q : QueueId} (takes : QueueTakes s q) (plain : q.queue.val ≠ 16) (cmd : HoistCmd) :
    ∃ t, exec (.hoistCommand q cmd) s = .next t ∧ Queued q cmd .memory s t ∧ SameBut [.hoists] s t := by
  obtain ⟨queued, same⟩ := enqueueTo_gives s q cmd .memory
  exact ⟨_, congrArg Host.Outcome.next (enterCommand_plain takes plain cmd), queued, same⟩

theorem hoistCommand_port {s : State} {q : QueueId} (takes : QueueTakes s q) (port : ReceivesPort q) (cmd : HoistCmd) :
    ((getQueue s q).local_.head? ≠ some cmd → exec (.hoistCommand q cmd) s = .next s) ∧
    (∀ rest, (getQueue s q).local_ = cmd :: rest → ∃ t, exec (.hoistCommand q cmd) s = .next t ∧
      Queued q cmd .memory (setQueue s q { getQueue s q with local_ := rest }) t ∧ SameBut [.hoists] s t) := by
  obtain ⟨other, held⟩ := enterCommand_port takes port cmd
  refine ⟨fun no => congrArg Host.Outcome.next (other no), fun rest first => ?_⟩
  obtain ⟨queued, same⟩ := enqueueTo_gives (setQueue s q { getQueue s q with local_ := rest }) q cmd .memory
  have can := Can.all [.hoists]
  have taken : Keeps (· ∈ [.hoists]) s (setQueue s q { getQueue s q with local_ := rest }) := setQueue_keeps (.refl s) ..
  exact ⟨_, congrArg Host.Outcome.next (held rest first), queued, sameBut_join (n := [.hoists]) taken.sameBut same⟩

/-- What a hoist looks at before it takes a command. -/
theorem queueTakes_of {s t : State} {q : QueueId} (takes : QueueTakes s q) (doms : t.clk.doms = s.clk.doms) (out : t.dep.out = s.dep.out)
    (slots : ∀ u, (getSlot t u).state = (getSlot s u).state ∧ (getSlot t u).cmds = (getSlot s u).cmds) : QueueTakes t q := by
  obtain ⟨live, owner⟩ := takes
  refine ⟨?_, fun u owns => ?_⟩
  · have same : isLiveDom t (.seam q.seam .fclk) = isLiveDom s (.seam q.seam .fclk) := by
      unfold isLiveDom getDom
      rw [doms]
    rw [same]
    exact live
  · obtain ⟨state, cmds⟩ := slots u
    have active : unitActive (getSlot t u) .fabric = unitActive (getSlot s u) .fabric := by
      unfold unitActive
      rw [cmds]
    rw [state, active, out]
    exact owner u owns

/-- A transfer of whole tensors, formed in `s`, is its queue's command in `z`. -/
theorem givesCommand_of {i : Instr} {q : QueueId} {cmd : HoistCmd} {s z : State} (runs : exec i s = exec (.hoistCommand q cmd) z)
    (same : SameBut [.freeCount, .regs, .cores] s z)
    (slots : ∀ u, (getSlot z u).state = (getSlot s u).state ∧ (getSlot z u).cmds = (getSlot s u).cmds) :
    GivesCommand i q cmd s z := by
  refine ⟨runs, fun takes plain => ?_⟩
  have doms : z.clk.doms = s.clk.doms := (same.2 .doms).resolve_left (by decide)
  have dep := (same.2 .dep).resolve_left (by decide)
  have time := (same.2 .time).resolve_left (by decide)
  simp only [Part.same, Prod.mk.injEq] at dep time
  have out : z.dep.out = s.dep.out := (congrArg Deputy.out dep :)
  obtain ⟨t, exec_, queued, frame⟩ := hoistCommand_queues (queueTakes_of takes doms out slots) plain cmd
  refine ⟨t, runs.trans exec_, ?_, frame⟩
  have queue (p : QueueId) : getQueue z p = getQueue s p := getQueue_sameBut same (by decide) p
  unfold Queued QueueIs at queued ⊢
  rw [queue, time.1] at queued
  exact ⟨queued.1, fun p other => (queued.2 p other).trans (queue p)⟩

/-! ## Storage units -/

theorem tuples_complete : ∀ (ext v : List Nat), v.length = ext.length → (∀ k (h : k < ext.length), v.getD k 0 < ext[k]) → v ∈ tuples ext
  | [], v, length, _ => by
    rw [List.length_eq_zero_iff.1 length]
    exact List.mem_singleton.2 rfl
  | e :: r, [], length, _ => by cases length
  | e :: r, i :: t, length, below => by
    refine List.mem_flatMap.2 ⟨t, tuples_complete r t (Nat.succ.inj length) fun k h => below (k + 1) (Nat.succ_lt_succ h), ?_⟩
    exact List.mem_map.2 ⟨i, List.mem_range.2 (below 0 (Nat.zero_lt_succ _)), rfl⟩

section
variable (s : State) (q : QueueId)

theorem getD_of_lt {α : Type} (l : List α) (d : α) {i : Nat} (within : i < l.length) : l.getD i d = l[i] := by
  rw [List.getD_eq_getElem?_getD, List.getElem?_eq_getElem within, Option.getD_some]

theorem unitsHere_length (d : Desc) : (unitsHere s q d).length = 5 := by simp [unitsHere]

theorem withinUnits_iff (d : Desc) (v : List Nat) (length : v.length = 5) : v ∈ tuples (unitsHere s q d) ↔ WithinUnits s q d v := by
  have five := unitsHere_length s q d
  constructor
  · intro mem k small
    obtain ⟨-, below⟩ := mem_tuples _ _ mem
    rw [getD_of_lt _ 1 (five ▸ small)]
    exact below k (five ▸ small)
  · intro within
    refine tuples_complete _ _ (length.trans five.symm) fun k h => ?_
    have := within k (five ▸ h)
    rwa [getD_of_lt _ 1 h] at this

theorem tuples_five (d : Desc) (v : List Nat) (mem : v ∈ tuples (unitsHere s q d)) : v.length = 5 :=
  (mem_tuples _ _ mem).1.trans (unitsHere_length s q d)

theorem unitMove_moves (a b : Desc) (w v : List Nat) : MovesUnit s q a b w v (unitMove s q a b w v) := by
  refine ⟨rfl, rfl, rfl, fun size within => ⟨if_pos ⟨size, within⟩, if_pos ⟨size, within⟩⟩, fun no => ?_⟩
  refine ⟨openBytes s.freeCount (unitAt b v) (descUnit b), if_neg no, ?_⟩
  unfold openBytes
  rw [List.length_map, List.length_range]

theorem copyMoves_gives (a b : Desc) (perm : List Nat) :
    (∀ m ∈ copyMoves s q a b perm, ∃ v, WithinUnits s q b v ∧ MovesUnit s q a b (permuted perm v) v m) ∧
    (∀ v : List Nat, v.length = 5 → WithinUnits s q b v → ∃ m ∈ copyMoves s q a b perm, MovesUnit s q a b (permuted perm v) v m) := by
  refine ⟨fun m mem => ?_, fun v length within => ?_⟩
  · obtain ⟨v, here, rfl⟩ := List.mem_map.1 mem
    exact ⟨v, (withinUnits_iff s q b v (tuples_five s q b v here)).1 here, unitMove_moves ..⟩
  · exact ⟨_, List.mem_map.2 ⟨v, (withinUnits_iff s q b v length).2 within, rfl⟩, unitMove_moves ..⟩

/-! ## Index streams -/

theorem sliceTuples_at {ext : List Nat} (five : ext.length = 5) (dim x : Nat) {v : List Nat} (mem : v ∈ sliceTuples ext dim x) :
    dim < 5 → v.getD dim 0 = x := by
  intro small
  obtain ⟨w, here, rfl⟩ := List.mem_map.1 mem
  have length : w.length = 5 := (mem_tuples _ _ here).1.trans (by rw [List.length_set, five])
  rw [getD_of_lt _ 0 (by rw [List.length_set]; omega), List.getElem_set_self]

theorem gatherMoves_at (a b : Desc) (xs : List Int) (dim i : Nat) (x : Int) (l : List MoveRun) (index : xs[i]? = some x)
    (slice : (gatherMoves s q a b xs dim)[i]? = some l) : l =
      if inBounds x (extentOf a dim) then
        match localIndex s q a dim x.toNat with
        | some lx => (sliceTuples (unitsHere s q b) dim i).map fun v => unitMove s q a b (v.set dim lx) v
        | none => []
      else (sliceTuples (unitsHere s q b) dim i).map (fillMove s q a b) := by
  have here : xs.getD i 0 = x := by rw [List.getD_eq_getElem?_getD, index]; rfl
  unfold gatherMoves at slice
  dsimp only at slice
  rw [List.getElem?_map, Option.map_eq_some_iff] at slice
  obtain ⟨j, at_, made⟩ := slice
  obtain ⟨_, same⟩ := List.getElem?_eq_some_iff.1 at_
  rw [List.getElem_range] at same
  subst same
  rw [here] at made
  exact made.symm

theorem gatherMoves_gives (a b : Desc) (xs : List Int) (dim i : Nat) (x : Int) (l : List MoveRun) (index : xs[i]? = some x)
    (slice : (gatherMoves s q a b xs dim)[i]? = some l) : ∀ m ∈ l,
    ∃ v : List Nat, (dim < 5 → v.getD dim 0 = i) ∧
      (IndexWithin a dim x → ∃ lx, localIndex s q a dim x.toNat = some lx ∧ MovesUnit s q a b (v.set dim lx) v m) ∧
      (¬ IndexWithin a dim x → m.fill = some ((fillUnit a).take (descUnit b)) ∧ m.dst = unitAt b v ∧ m.len = descUnit b ∧
        m.pad = padAt s q b v) := by
  intro m mem
  have made := gatherMoves_at s q a b xs dim i x l index slice
  have five := unitsHere_length s q b
  by_cases within : IndexWithin a dim x
  · rw [if_pos ((inBounds_iff ..).2 within)] at made
    cases place : localIndex s q a dim x.toNat with
    | none =>
      rw [place] at made
      subst made
      cases mem
    | some lx =>
      rw [place] at made
      subst made
      obtain ⟨v, here, rfl⟩ := List.mem_map.1 mem
      exact ⟨v, sliceTuples_at five dim i here, fun _ => ⟨lx, rfl, unitMove_moves ..⟩, fun no => absurd within no⟩
  · rw [if_neg fun inside => within ((inBounds_iff ..).1 inside)] at made
    subst made
    obtain ⟨v, here, rfl⟩ := List.mem_map.1 mem
    exact ⟨v, sliceTuples_at five dim i here, fun yes => absurd yes within, fun _ => ⟨rfl, rfl, rfl, rfl⟩⟩

theorem scatterMoves_gives (a b : Desc) (xs : List Int) (dim : Nat) : ∀ l ∈ scatterMoves s q a b xs dim,
    ∃ (i : Nat) (x : Int) (lx : Nat), xs[i]? = some x ∧ IndexWithin b dim x ∧ localIndex s q b dim x.toNat = some lx ∧
      ∀ m ∈ l, ∃ v : List Nat, (dim < 5 → v.getD dim 0 = lx) ∧ MovesUnit s q a b (v.set dim i) v m := by
  intro l mem
  obtain ⟨i, within, made⟩ := List.mem_filterMap.1 mem
  have small : i < xs.length := Nat.lt_of_lt_of_le (List.mem_range.1 within) (Nat.min_le_left _ _)
  have index : xs[i]? = some (xs.getD i 0) := by
    rw [getD_of_lt _ 0 small]
    exact List.getElem?_eq_getElem small
  dsimp only at made
  split at made
  next inside =>
    obtain ⟨lx, place, rfl⟩ := Option.map_eq_some_iff.1 made
    refine ⟨i, _, lx, index, (inBounds_iff ..).1 inside, place, fun m here => ?_⟩
    obtain ⟨v, at_, rfl⟩ := List.mem_map.1 here
    exact ⟨v, sliceTuples_at (unitsHere_length s q b) dim lx at_, unitMove_moves ..⟩
  next => cases made

/-! ## Sharding -/

theorem localIndex_whole (d : Desc) (k i : Nat) (whole : d.sharded = false ∨ ((d.shard.getD k {}).kind ≠ 1 ∧ (d.shard.getD k {}).kind ≠ 2)) :
    localIndex s q d k i = some i := by
  unfold localIndex
  rcases whole with no | ⟨block, cyclic⟩
  · exact if_neg (by rw [no]; decide)
  · have place : shardPlace (d.shard.getD k {}) (extentOf d k) i = (none, i) := by
      unfold shardPlace
      split
      next kind => exact absurd kind block
      next kind => exact absurd kind cyclic
      next => rfl
    split
    next =>
      dsimp only
      rw [place]
      rfl
    next => rfl

theorem localIndex_block (d : Desc) (k i : Nat) (sharded : d.sharded = true) (kind : (d.shard.getD k {}).kind = 1) :
    let sh := d.shard.getD k {}
    let part := (extentOf d k + sh.n - 1) / sh.n
    localIndex s q d k i = if i / part = gridCoord (queueGrid s q) (moduleNum s) sh.axis then some (i % part) else none := by
  intro sh part
  have place : shardPlace sh (extentOf d k) i = (some (i / part), i % part) := by
    have rest : i - i / part * part = i % part := by rw [Nat.mul_comm, Nat.sub_eq_iff_eq_add (Nat.mul_div_le i part), Nat.mod_add_div]
    unfold shardPlace
    rw [kind]
    exact congrArg (Prod.mk _) rest
  unfold localIndex
  dsimp only
  rw [if_pos sharded, place]
  simp only [holdsPart, beq_iff_eq]
  rfl

theorem localIndex_cyclic (d : Desc) (k i : Nat) (sharded : d.sharded = true) (kind : (d.shard.getD k {}).kind = 2) :
    let sh := d.shard.getD k {}
    localIndex s q d k i = if i / sh.c % sh.n = gridCoord (queueGrid s q) (moduleNum s) sh.axis then
      some (i / (sh.c * sh.n) * sh.c + i % sh.c) else none := by
  intro sh
  have place : shardPlace sh (extentOf d k) i = (some (i / sh.c % sh.n), i / (sh.c * sh.n) * sh.c + i % sh.c) := by
    unfold shardPlace
    rw [kind] <;> rfl
  unfold localIndex
  dsimp only
  rw [if_pos sharded, place]
  simp only [holdsPart, beq_iff_eq]
  rfl

/-! ## Indices out of bounds -/

theorem countOob_notes (n : Nat) : let b := hoistRegBase q.seam q.hoist
    0 < n → Counted (b + Ctr.HOIST_IDX_OOB_CNT) n s (countOob s q n) ∧
      rawReg (countOob s q n) (b + Flag.hoist_IDX_OOB.1) =
        rawReg s (b + Flag.hoist_IDX_OOB.1) ||| BitVec.ofNat 32 (2 ^ Flag.hoist_IDX_OOB.2) ∧
      SameBut [.regs, .cores] s (countOob s q n) := by
  intro b some_
  obtain ⟨kept, -, regs⟩ := countOob_gives s q n
  have same (a : Nat) := rawReg_congr (regs some_) a
  have apart : ¬ b + Ctr.HOIST_IDX_OOB_CNT = b + Flag.hoist_IDX_OOB.1 := fun e => absurd (Nat.add_left_cancel e) (by decide)
  refine ⟨?_, ?_, kept.sameBut⟩
  · rw [Counted, same, rawReg_raise_other _ (apart ·), rawReg_count_self]
  · rw [same, rawReg_raise_self, rawReg_count_other _ (apart ·.symm)]

theorem countOob_slots (n : Nat) (u : SlotId) :
    (getSlot (countOob s q n) u).state = (getSlot s u).state ∧ (getSlot (countOob s q n) u).cmds = (getSlot s u).cmds := by
  unfold countOob
  split
  · exact ⟨rfl, rfl⟩
  · extract_lets b z
    have cores : z.cores = s.cores := by
      rw [show z = raise (count s b Ctr.HOIST_IDX_OOB_CNT n) b Flag.hoist_IDX_OOB from rfl, raise_cores, count_cores]
    split
    next t owns =>
      by_cases mine : u = t
      · subst mine
        obtain ⟨-, slot, -⟩ := slotCount_kept z u cntIdxOob n
        rw [getSlot_congr cores] at slot
        exact ⟨(congrArg TaskSlot.state slot :), (congrArg TaskSlot.cmds slot :)⟩
      · rw [(slotCount_kept z t cntIdxOob n).1 u mine, getSlot_congr cores]
        exact ⟨rfl, rfl⟩
    next =>
      rw [getSlot_congr cores]
      exact ⟨rfl, rfl⟩

end

/-! ## Whole tensors -/

section
variable {s : State} {q : QueueId}

theorem whole_refused (refused : ¬ QueueTakes s q ∨ FeedsTram q) : (!queueTakes s q || isTramFeed q) = true := by
  rw [Bool.or_eq_true]
  exact refused.imp queueTakes_not (isTramFeed_iff q).2

theorem whole_taken (takes : QueueTakes s q) (plain : ¬ FeedsTram q) : ¬ (!queueTakes s q || isTramFeed q) = true := by
  rw [Bool.or_eq_true]
  rintro (no | tram)
  · exact queueTakes_yes takes no
  · exact plain ((isTramFeed_iff q).1 tram)

theorem hoistCopy_gives (src dst : Nat) (perm : List Nat) (dry : Option Time) (a b : Desc) (from_ : descAt s src = some a)
    (onto : descAt s dst = some b) : let p := if perm = [] then List.range a.rank else perm
    let moves := copyMoves s q a b p
    (¬ QueueTakes s q ∨ FeedsTram q → exec (.copy q src dst perm dry) s = .next s) ∧
    (QueueTakes s q → ¬ FeedsTram q → ∃ ms z, ms.Perm moves ∧ (¬ Clash moves → ms = moves) ∧ SameBut [.freeCount] s z ∧
      GivesCommand (.copy q src dst perm dry) q { runs := joinRuns ms, dry := dry, deps := [], slow := slowPerm a p } s z) := by
  intro p moves
  obtain ⟨r, hr⟩ : ∃ r, r = freeOrder (spendOpen s moves) moves := ⟨_, rfl⟩
  obtain ⟨perm_, kept, order⟩ := freeOrder_gives (spendOpen s moves) moves
  rw [← hr] at perm_ kept order
  have can := Can.all [.freeCount]
  have frame := (spendOpen_keeps (.refl s) moves).trans kept
  refine ⟨fun refused => congrArg Host.Outcome.next ?_, fun takes plain =>
    ⟨r.1, r.2, perm_, fun apart => by rw [order apart], frame.sameBut, givesCommand_of ?_ (frame.mono (by decide)).sameBut fun u => ?_⟩⟩
  · unfold copyTensor
    rw [from_, onto]
    exact if_pos (whole_refused refused)
  · refine congrArg Host.Outcome.next ?_
    unfold copyTensor
    rw [from_, onto]
    dsimp only
    rw [if_neg (whole_taken takes plain), hr]
  · have cores := frame.field .cores (by decide)
    rw [getSlot_congr cores]
    exact ⟨rfl, rfl⟩

variable {src idx dst dim : Nat} {a ix b : Desc} (tensors : IndexedTensors s src idx dst a ix b) (dry : Option Time)
include tensors

theorem hoistGather_gives : let xs := (indexStream s q ix).take ((unitsHere s q b).getD dim 1)
    let runs := (gatherMoves s q a b xs dim).flatMap joinRuns
    (¬ QueueTakes s q ∨ FeedsTram q → exec (.hoistGather q src idx dst dim dry) s = .next s) ∧
    (QueueTakes s q → ¬ FeedsTram q → ∃ ms z, ms.Perm runs ∧ (¬ Clash runs → ms = runs) ∧ SameBut [.freeCount] s z ∧
      GivesCommand (.hoistGather q src idx dst dim dry) q { runs := ms, dry := dry, deps := [], slow := false } s
        (countOob z q (oobOf xs (extentOf a dim)))) := by
  intro xs runs
  obtain ⟨from_, by_, onto⟩ := tensors
  obtain ⟨perm_, kept, order⟩ := freeOrder_gives (spendOpen s (gatherMoves s q a b xs dim).flatten) runs
  have can := Can.all [.freeCount]
  have frame := (spendOpen_keeps (.refl s) (gatherMoves s q a b xs dim).flatten).trans kept
  obtain ⟨z, hz⟩ : ∃ z, z = (freeOrder (spendOpen s (gatherMoves s q a b xs dim).flatten) runs).2 := ⟨_, rfl⟩
  rw [← hz] at frame
  obtain ⟨counted, -⟩ := countOob_gives z q (oobOf xs (extentOf a dim))
  refine ⟨fun refused => congrArg Host.Outcome.next ?_, fun takes plain => ⟨_, z, perm_, fun apart => by rw [order apart], frame.sameBut,
    givesCommand_of ?_ (sameBut_join (n := [.freeCount, .regs, .cores]) frame.sameBut counted.sameBut) fun u => ?_⟩⟩
  · unfold gatherTensor
    rw [from_, by_, onto]
    exact if_pos (whole_refused refused)
  · refine congrArg Host.Outcome.next ?_
    unfold gatherTensor
    rw [from_, by_, onto, hz]
    dsimp only
    rw [if_neg (whole_taken takes plain)]
  · obtain ⟨state, cmds⟩ := countOob_slots z q (oobOf xs (extentOf a dim)) u
    rw [state, cmds, getSlot_congr (frame.field .cores (by decide))]
    exact ⟨rfl, rfl⟩

omit tensors in
/-- The slices of a scatter, each in its own order. -/
theorem orderSlices_gives (slices : List (List MoveRun)) : ∀ (done : List MoveRun) (y : State), ∃ ls : List (List MoveRun),
    ls.length = slices.length ∧
    (∀ (i : Nat) (x l : List MoveRun), slices[i]? = some x → ls[i]? = some l → l.Perm (joinRuns x) ∧ (¬ Clash (joinRuns x) → l = joinRuns x)) ∧
    (slices.foldl orderSlice (done, y)).1 = done ++ ls.flatten ∧ Keeps (· ∈ [.freeCount]) y (slices.foldl orderSlice (done, y)).2 := by
  induction slices with
  | nil => exact fun done y => ⟨[], rfl, fun i x l none => (by cases none), (List.append_nil _).symm, Keeps.refl y⟩
  | cons x slices ih =>
    intro done y
    obtain ⟨perm_, kept, order⟩ := freeOrder_gives y (joinRuns x)
    obtain ⟨ls, length, each, all, rest⟩ := ih (done ++ (freeOrder y (joinRuns x)).1) (freeOrder y (joinRuns x)).2
    refine ⟨(freeOrder y (joinRuns x)).1 :: ls, congrArg Nat.succ length, fun i u l at_ made => ?_, ?_, kept.trans rest⟩
    · cases i with
      | zero =>
        cases at_
        cases made
        exact ⟨perm_, fun apart => by rw [order apart]⟩
      | succ i => exact each i u l at_ made
    · refine all.trans ?_
      rw [List.flatten_cons, List.append_assoc]

theorem hoistScatter_gives : let xs := (indexStream s q ix).take ((unitsHere s q a).getD dim 1)
    let slices := scatterMoves s q a b xs dim
    (¬ QueueTakes s q ∨ FeedsTram q → exec (.hoistScatter q src idx dst dim dry) s = .next s) ∧
    (QueueTakes s q → ¬ FeedsTram q → ∃ (ls : List (List MoveRun)) (z : State), ls.length = slices.length ∧
      (∀ (i : Nat) (x y : List MoveRun), slices[i]? = some x → ls[i]? = some y → y.Perm (joinRuns x) ∧ (¬ Clash (joinRuns x) → y = joinRuns x)) ∧
      SameBut [.freeCount] s z ∧
      GivesCommand (.hoistScatter q src idx dst dim dry) q { runs := ls.flatten, dry := dry, deps := [], slow := false } s
        (countOob z q (oobOf xs (extentOf b dim)))) := by
  intro xs slices
  obtain ⟨from_, by_, onto⟩ := tensors
  obtain ⟨ls, length, each, all, rest⟩ := orderSlices_gives slices [] (spendOpen s slices.flatten)
  have can := Can.all [.freeCount]
  have frame := (spendOpen_keeps (.refl s) slices.flatten).trans rest
  obtain ⟨z, hz⟩ : ∃ z, z = (slices.foldl orderSlice ([], spendOpen s slices.flatten)).2 := ⟨_, rfl⟩
  rw [← hz] at frame
  obtain ⟨counted, -⟩ := countOob_gives z q (oobOf xs (extentOf b dim))
  refine ⟨fun refused => congrArg Host.Outcome.next ?_, fun takes plain => ⟨ls, z, length, each, frame.sameBut,
    givesCommand_of ?_ (sameBut_join (n := [.freeCount, .regs, .cores]) frame.sameBut counted.sameBut) fun u => ?_⟩⟩
  · unfold scatterTensor
    rw [from_, by_, onto]
    exact if_pos (whole_refused refused)
  · refine congrArg Host.Outcome.next ?_
    rw [List.nil_append] at all
    unfold scatterTensor
    rw [from_, by_, onto, hz, ← all]
    dsimp only
    rw [if_neg (whole_taken takes plain)]
  · obtain ⟨state, cmds⟩ := countOob_slots z q (oobOf xs (extentOf b dim)) u
    rw [state, cmds, getSlot_congr (frame.field .cores (by decide))]
    exact ⟨rfl, rfl⟩

end

/-- Settles O35: the commands, the segments, then the transfers of whole tensors. -/
theorem hoistQueues : Obligations.HoistQueues := by
  unfold Obligations.HoistQueues
  refine ⟨⟨fun s q cmd => ⟨fun refused => hoistCommand_refused refused cmd, fun takes plain => hoistCommand_queues takes plain cmd,
      fun takes port => (hoistCommand_port takes port cmd).1, fun takes port => (hoistCommand_port takes port cmd).2⟩,
    makeSegments_gives⟩, fun s q src dst perm dry a b from_ onto => hoistCopy_gives src dst perm dry a b from_ onto, copyMoves_gives,
    fun s q src idx dst dim dry a ix b tensors => ?_, fun s q src idx dst dim dry a ix b tensors => ?_, fun s q d k i => ?_,
    countOob_notes, fun ms => ?_⟩
  · intro xs runs
    obtain ⟨refused, taken⟩ := hoistGather_gives (q := q) (dim := dim) tensors dry
    exact ⟨refused, taken, fun i x l => gatherMoves_gives s q a b xs dim i x l⟩
  · intro xs slices
    obtain ⟨refused, taken⟩ := hoistScatter_gives (q := q) (dim := dim) tensors dry
    exact ⟨refused, taken, scatterMoves_gives s q a b xs dim⟩
  · exact ⟨localIndex_whole s q d k i, localIndex_block s q d k i, localIndex_cyclic s q d k i⟩
  · obtain ⟨moves, padded⟩ := joinRuns_gives ms
    exact ⟨fun whole => (moves whole).1, padded⟩

end Sys2Proof.Safety

end

section
/-! Scatters that add: accumulation in a task's buffer, and its journaled commit (R190 to R195, R345 to R349). -/

-- one theorem after the other: proofs side by side would need more memory than the check allows
set_option Elab.async false

namespace Sys2Proof.Safety

open Sys2Proof.Machine

/-! ## What a transfer reads -/

/-- Two states give a transfer of `q` the same tensors: they differ in counts of tasks and in what no transfer reads. -/
structure SameSources (s t : State) : Prop where
  kept : Keeps (· ∈ [.regs, .cores, .hoists, .scatters]) s t
  cores : ∀ c, { getCore t c with slots := [] } = { getCore s c with slots := [] }
  slots : ∀ u, (getSlot t u).job = (getSlot s u).job

section
variable {s t : State} (same : SameSources s t) (q : QueueId)
include same

theorem descAt_sources (i : Nat) : descAt t i = descAt s i := by
  unfold descAt
  rw [getDescSlot_congr (same.kept.field .descs (by decide))]

theorem readModule_sources (a : Addr) (n : Nat) : readModule t a n = readModule s a n := by
  have vat (c : CoreId) (off : Nat) : vatByte (getCore t c) off = vatByte (getCore s c) off := by
    have tiles : (getCore t c).tiles = (getCore s c).tiles := (congrArg CoreState.tiles (same.cores c) :)
    unfold vatByte tileAt
    rw [tiles]
  unfold readModule
  split
  · exact List.map_congr_left fun i _ => vat _ _
  · rfl
  · rw [(same.kept.field .mem (by decide) : t.mem = s.mem)]

theorem queueGrid_sources : queueGrid t q = queueGrid s q := by
  have graph (i : Nat) : getGraphSlot t i = getGraphSlot s i := by
    unfold getGraphSlot
    rw [(same.kept.field .graphs (by decide) : t.dep.graphs = s.dep.graphs)]
  unfold queueGrid
  split
  · rename_i u _
    simp only [same.slots u, getJob_congr (same.kept.field .jobs (by decide)), graph]
  · rfl

theorem unitsHere_sources (d : Desc) : unitsHere t q d = unitsHere s q d := by
  unfold unitsHere extHere
  rw [queueGrid_sources same, keeps_number same.kept (by decide)]

theorem localIndex_sources (d : Desc) (k i : Nat) : localIndex t q d k i = localIndex s q d k i := by
  unfold localIndex
  rw [queueGrid_sources same, keeps_number same.kept (by decide)]

theorem addRuns_sources (a b : Desc) (xs : List (Nat × Int)) (dim : Nat) : addRuns t q a b xs dim = addRuns s q a b xs dim := by
  unfold addRuns
  simp only [unitsHere_sources same, localIndex_sources same]

theorem addStream_sources (a ix : Desc) (o : AddOp) : addStream t q a ix o = streamPart s q a ix o := by
  unfold addStream streamPart indexStream
  simp only [unitsHere_sources same, readModule_sources same]

theorem addSlice_sources (a b : Desc) (dim : Nat) : addSlice t q a b dim = addSlice s q a b dim := by
  have word (v : List Nat) : sourceWord t q a v = sourceWord s q a v := by
    unfold sourceWord
    rw [unitsHere_sources same, readModule_sources same, (same.kept.field .freeCount (by decide) : t.freeCount = s.freeCount)]
  funext l e
  unfold addSlice
  simp only [unitsHere_sources same, localIndex_sources same, word]

end

theorem slotCount_sources (s : State) (u : SlotId) (k n : Nat) : SameSources s (slotCount s u k n) := by
  obtain ⟨others, own, cores, -⟩ := slotCount_kept s u k n
  have can := Can.all [.regs, .cores, .hoists, .scatters]
  refine ⟨slotCount_keeps (.refl s) .., cores, fun v => ?_⟩
  by_cases mine : v = u
  · subst mine
    exact (congrArg TaskSlot.job own :)
  · rw [others v mine]

theorem SameSources.of_cores {s t : State} (kept : Keeps (· ∈ [.regs, .cores, .hoists, .scatters]) s t) (cores : t.cores = s.cores) :
    SameSources s t :=
  ⟨kept, fun c => by rw [getCore_congr cores], fun u => by rw [getSlot_congr cores]⟩

theorem SameSources.trans {r s t : State} (first : SameSources r s) (next : SameSources s t) : SameSources r t :=
  ⟨first.kept.trans next.kept, fun c => (next.cores c).trans (first.cores c), fun u => (next.slots u).trans (first.slots u)⟩

theorem countOob_sources (s : State) (q : QueueId) (n : Nat) : SameSources s (countOob s q n) := by
  have can := Can.all [.regs, .cores, .hoists, .scatters]
  unfold countOob
  split
  · exact .of_cores (.refl s) rfl
  · extract_lets b z
    have noted : SameSources s z := .of_cores (raise_keeps (count_keeps (.refl s) ..) ..) (by
      rw [show z = raise (count s b Ctr.HOIST_IDX_OOB_CNT n) b Flag.hoist_IDX_OOB from rfl, raise_cores, count_cores])
    split
    · exact noted.trans (slotCount_sources ..)
    · exact noted

theorem count_sources (s : State) (b k n : Nat) : SameSources s (count s b k n) := by
  have can := Can.all [.regs, .cores, .hoists, .scatters]
  exact .of_cores (count_keeps (.refl s) ..) (count_cores ..)

theorem setQueue_sources (s : State) (q : QueueId) (x : HoistQueue) : SameSources s (setQueue s q x) := by
  have can := Can.all [.regs, .cores, .hoists, .scatters]
  exact .of_cores (setQueue_keeps (.refl s) ..) rfl

theorem landBytes_sources (s : State) (q : QueueId) (n : Nat) (slow : Bool) : SameSources s (landBytes s q n slow) := by
  have here (x : HoistQueue) (b m : Nat) : SameSources s (setQueue (count s b Ctr.HOIST_BYTES_CNT m) q x) :=
    (count_sources ..).trans (setQueue_sources ..)
  unfold landBytes
  cases slow
  · exact here ..
  · dsimp only
    rw [if_pos rfl]
    split
    · exact ((here ..).trans (count_sources ..)).trans (slotCount_sources ..)
    · exact (here ..).trans (count_sources ..)

theorem landedNoted_sources (s : State) (q : QueueId) (n : Nat) (slow : Bool) : SameSources s (landedNoted s q n slow) :=
  (landBytes_sources ..).trans (count_sources ..)

/-! ## HOIST_SCATTER_ADD -/

section
variable {s : State} {q : QueueId} {o : AddOp} {a ix b : Desc}

theorem mayAccumulate_iff (buf : ScatterBuffer) : MayAccumulate s q a b buf ↔
    ¬ (!queueTakes s q || decide (16 ≤ q.queue.val) || !scatterFormat a.format || !scatterFormat b.format || buf.committed) = true := by
  rw [Bool.not_eq_true]
  simp only [Bool.or_eq_false_iff, Bool.not_eq_false', decide_eq_false_iff_not, queueTakes_iff, scatterFormat_iff, Nat.not_le]
  exact ⟨fun ⟨takes, task, src, dst, going⟩ => ⟨⟨⟨⟨takes, task⟩, src⟩, dst⟩, going⟩,
    fun ⟨⟨⟨⟨takes, task⟩, src⟩, dst⟩, going⟩ => ⟨takes, task, src, dst, going⟩⟩

theorem countOob_counted (s : State) (q : QueueId) (n : Nat) :
    Counted (hoistRegBase q.seam q.hoist + Ctr.HOIST_IDX_OOB_CNT) n s (countOob s q n) := by
  rcases Nat.eq_zero_or_pos n with none_ | some_
  · subst none_
    rw [Counted, satAdd_zero]
    rfl
  · exact (countOob_notes s q n some_).1

variable (tensors : IndexedTensors s o.src o.idx o.dst a ix b)
include tensors

theorem scatterAdd_queues (may : MayAccumulate s q a b (bufferOf s o.job o.node o.task b.format)) :
    let buf := bufferOf s o.job o.node o.task b.format
    let xs := streamPart s q a ix o
    ∃ t, scatterAdd s q o = t ∧ findScatter t o.job o.node o.task = some buf ∧
      (∀ j n k, (j, n, k) ≠ (o.job, o.node, o.task) → findScatter t j n k = findScatter s j n k) ∧
      Queued q { runs := addRuns s q a b xs o.dim, dry := none, deps := [], slow := false } (.accumulation o) s t ∧
      Counted (hoistRegBase q.seam q.hoist + Ctr.HOIST_IDX_OOB_CNT) (oobOf (xs.map (·.2)) (extentOf b o.dim)) s t ∧
      SameBut [.regs, .cores, .hoists, .scatters] s t := by
  intro buf xs
  obtain ⟨from_, index, onto⟩ := tensors
  obtain ⟨n, hn⟩ : ∃ n, n = oobOf (xs.map (·.2)) (extentOf b o.dim) := ⟨_, rfl⟩
  obtain ⟨cmd, hcmd⟩ : ∃ cmd : HoistCmd, cmd = { runs := addRuns s q a b xs o.dim, dry := none, deps := [], slow := false } := ⟨_, rfl⟩
  rw [← hn, ← hcmd]
  have makes : scatterAdd s q o = enqueueTo (putScatter (countOob s q n) buf) q cmd (.accumulation o) := by
    rw [hn, hcmd, ← addRuns_sources (countOob_sources s q (oobOf (xs.map (·.2)) (extentOf b o.dim)))]
    unfold scatterAdd
    rw [from_, index, onto]
    dsimp only
    rw [if_neg ((mayAccumulate_iff _).1 may)]
    rfl
  obtain ⟨counted, -⟩ := countOob_gives s q n
  obtain ⟨z, hz⟩ : ∃ z, z = countOob s q n := ⟨_, rfl⟩
  have count := countOob_counted s q n
  rw [← hz] at makes counted count
  obtain ⟨job, node, task⟩ := bufferOf_key s o.job o.node o.task b.format
  obtain ⟨own, others⟩ := putScatter_find z buf
  rw [job, node, task] at own others
  obtain ⟨queued, frame⟩ := enqueueTo_gives (putScatter z buf) q cmd (.accumulation o)
  have can := Can.all [.scatters]
  have put : Keeps (· ∈ [.scatters]) z (putScatter z buf) := putScatter_keeps (.refl z) _
  have scatters := findScatter_congr ((frame.2 .scatters).resolve_left (by decide))
  have whole := sameBut_join (n := [.regs, .cores, .scatters]) counted.sameBut put.sameBut
  refine ⟨_, makes, (scatters ..).trans own, fun j n k other => ?_, ?_, ?_, sameBut_join (n := [.regs, .cores, .hoists, .scatters]) whole frame⟩
  · rw [scatters, others j n k other, findScatter_congr (counted.field .scatters (by decide))]
  · have queue (p : QueueId) : getQueue (putScatter z buf) p = getQueue s p := getQueue_sameBut whole (by decide) p
    have time := (whole.2 .time).resolve_left (by decide)
    simp only [Part.same, Prod.mk.injEq] at time
    unfold Queued QueueIs at queued ⊢
    rw [queue, time.1] at queued
    exact ⟨queued.1, fun p other => (queued.2 p other).trans (queue p)⟩
  · rw [Counted, rawReg_congr ((frame.2 .regs).resolve_left (by decide))]
    exact count

theorem hoistScatterAdd_gives : let buf := bufferOf s o.job o.node o.task b.format
    let i := Instr.hoistScatterAdd q o.job o.node o.task o.src o.idx o.dst o.dim o.first o.count
    (¬ MayAccumulate s q a b buf → exec i s = .next s) ∧
    (MayAccumulate s q a b buf → let xs := streamPart s q a ix o
      ∃ t, exec i s = .next t ∧ findScatter t o.job o.node o.task = some buf ∧
        (∀ j n k, (j, n, k) ≠ (o.job, o.node, o.task) → findScatter t j n k = findScatter s j n k) ∧
        Queued q { runs := addRuns s q a b xs o.dim, dry := none, deps := [], slow := false } (.accumulation o) s t ∧
        Counted (hoistRegBase q.seam q.hoist + Ctr.HOIST_IDX_OOB_CNT) (oobOf (xs.map (·.2)) (extentOf b o.dim)) s t ∧
        SameBut [.regs, .cores, .hoists, .scatters] s t) := by
  intro buf i
  refine ⟨fun refused => congrArg Host.Outcome.next ?_, fun may => ?_⟩
  · obtain ⟨from_, index, onto⟩ := tensors
    unfold scatterAdd
    rw [from_, index, onto]
    exact if_pos (Classical.not_not.1 fun taken => refused ((mayAccumulate_iff _).2 taken))
  · obtain ⟨t, gives, rest⟩ := scatterAdd_queues tensors may
    exact ⟨t, congrArg Host.Outcome.next gives, rest⟩

/-! ## The last segment of an accumulation -/

/-- What an accumulation adds, read from a state that gives the same tensors. -/
theorem accumulate_gives {t : State} (same : SameSources s t) (scatters : t.scatters = s.scatters) :
    let buf := bufferOf s o.job o.node o.task b.format
    (accumulate t q o).mem = s.mem ∧
    findScatter (accumulate t q o) o.job o.node o.task = some { buf with
      entries := (contributions s q a b o.dim (streamPart s q a ix o)).foldl
        (fun l c => addEntry l c.1 c.2.1 c.2.2) buf.entries } ∧
    (∀ j n k, (j, n, k) ≠ (o.job, o.node, o.task) → findScatter (accumulate t q o) j n k = findScatter s j n k) := by
  intro buf
  obtain ⟨from_, index, onto⟩ := tensors
  have found := findScatter_congr scatters
  have buffer : bufferOf t o.job o.node o.task b.format = buf := by
    unfold bufferOf
    rw [found]
    rfl
  obtain ⟨full, hfull⟩ : ∃ full : ScatterBuffer, full = { buf with
      entries := (contributions s q a b o.dim (streamPart s q a ix o)).foldl (fun l c => addEntry l c.1 c.2.1 c.2.2) buf.entries } := ⟨_, rfl⟩
  have makes : accumulate t q o = { putScatter t full with freeCount := t.freeCount + 1 } := by
    unfold accumulate
    rw [descAt_sources same, descAt_sources same, descAt_sources same, from_, index, onto]
    dsimp only
    rw [buffer, addStream_sources same, addSlice_sources same, addSlices_eq, hfull]
  obtain ⟨job, node, task⟩ := bufferOf_key s o.job o.node o.task b.format
  have keys : full.job = o.job ∧ full.node = o.node ∧ full.task = o.task := by
    rw [hfull]
    exact ⟨job, node, task⟩
  obtain ⟨own, others⟩ := putScatter_find t full
  rw [keys.1, keys.2.1, keys.2.2] at own others
  rw [makes, ← hfull]
  exact ⟨same.kept.field .mem (by decide), own, fun j n k other => (others j n k other).trans (found ..)⟩

theorem lastSegment_adds {id : Nat} {g : Segment} (at_ : (getQueue s q).issued.find? (·.id == id) = some g) (sink : g.sink = .accumulation o)
    (may : MayLand s q g) (ready : ∀ h ∈ (getQueue s q).ready, h.cmd ≠ g.cmd)
    (issued : ∀ h ∈ (getQueue s q).issued, h.cmd = g.cmd → h.id = id) :
    let buf := bufferOf s o.job o.node o.task b.format
    ∃ t, exec (.segmentComplete q id false) s = .next t ∧ t.mem = s.mem ∧
      findScatter t o.job o.node o.task = some { buf with
        entries := (contributions s q a b o.dim (streamPart s q a ix o)).foldl
          (fun l c => addEntry l c.1 c.2.1 c.2.2) buf.entries } ∧
      (∀ j n k, (j, n, k) ≠ (o.job, o.node, o.task) → findScatter t j n k = findScatter s j n k) := by
  intro buf
  have number : g.id = id := eq_of_beq (List.find?_some at_ :)
  obtain ⟨x, hx⟩ : ∃ x : HoistQueue, x = { getQueue s q with issued := (getQueue s q).issued.filter (·.id != id) } := ⟨_, rfl⟩
  obtain ⟨z, hz⟩ : ∃ z, z = landedNoted (setQueue s q x) q (g.runs.map (·.run.len)).sum g.slow := ⟨_, rfl⟩
  have can := Can.all [.regs, .cores, .hoists, .scatters]
  have taken : SameSources s (setQueue s q x) := .of_cores (setQueue_keeps (.refl s) ..) rfl
  have same : SameSources s z := hz ▸ taken.trans (landedNoted_sources ..)
  obtain ⟨-, -, -, ⟨queue, -⟩, kept⟩ := landedNoted_gives (setQueue s q x) q (g.runs.map (·.run.len)).sum g.slow
  rw [← hz] at queue kept
  have none_ : ((getQueue z q).ready ++ (getQueue z q).issued).any (fun h => h.cmd == g.cmd) = false := by
    rw [queue, getQueue_setQueue_self, hx, List.any_eq_false]
    dsimp only
    intro h mem
    rw [beq_iff_eq]
    rcases List.mem_append.1 mem with here | here
    · exact ready h here
    · obtain ⟨there, other⟩ := List.mem_filter.1 here
      exact fun cmd => (bne_iff_ne.1 other) (issued h there cmd)
  have lands : completeSegment s q id false = accumulate z q o := by
    have free := (mayLand_iff s q g).1 may
    rw [number] at free
    have finish : finishAdd z q g = accumulate z q o := by
      unfold finishAdd
      rw [sink]
      exact if_neg (by rw [none_]; decide)
    have land : landSegment (setQueue s q x) q g false = setQueue s q x := by
      unfold landSegment
      rw [sink]
    unfold completeSegment
    dsimp only
    rw [at_]
    dsimp only
    rw [free, if_neg (by decide), if_neg (by decide), ← finish, hz, ← land, hx]
    rfl
  exact ⟨_, congrArg Host.Outcome.next lands, accumulate_gives tensors same (kept.field .scatters (by decide))⟩

end

/-! ## SCATTER_ADD_COMMIT -/

section
variable {s : State} {job node task : Nat} {b : ScatterBuffer}

theorem writePiece_waits (full : lotRingSize s < lotUsed s + granulesOf (pieceBytes (b.image.take pieceEntries)).length) :
    writePiece s b = putScatter s b :=
  if_pos full

/-- A piece's commit record, behind those of the lot ring. -/
def pieceRecord (s : State) (b : ScatterBuffer) : LotRecord :=
  let bytes := pieceBytes (b.image.take pieceEntries)
  { session := 0, lsn := 0, psnAfter := 0, tAccept := s.clk.now, granules := granulesOf bytes.length, commands := 0, done := [],
    bytes := bytes, piece := some (b.job, b.node, b.task, b.recorded) }

def withRecord (s : State) (r : LotRecord) : State :=
  { s with jnl := { s.jnl with lotRing := s.jnl.lotRing ++ [r] } }

theorem writePiece_writes (room : lotUsed s + granulesOf (pieceBytes (b.image.take pieceEntries)).length ≤ lotRingSize s) :
    writePiece s b = commitWrite (withRecord (putScatter s b) (pieceRecord s b)) b.job b.node b.task (2 * b.recorded) b.format
      (pieceBytes (b.image.take pieceEntries)) :=
  if_neg (Nat.not_lt.2 room)

theorem commit_piece (may : MayCommit s job node task b) (left : b.recorded < pieceCount b) :
    ∃ t, exec (.scatterAddCommit job node task) s = .next t ∧ t.mem = s.mem ∧
      findScatter t job node task = some (formImage s b).1 ∧
      let bytes := pieceBytes ((formImage s b).1.image.take pieceEntries)
      let n := granulesOf bytes.length
      (lotRingSize s < lotUsed s + n → t.jnl = s.jnl ∧ SameBut [.jobs, .scatters] s t) ∧
      (lotUsed s + n ≤ lotRingSize s → ∃ r, t.jnl.lotRing = s.jnl.lotRing ++ [r] ∧ r.bytes = bytes ∧ r.granules = n ∧
        r.piece = some (job, node, task, b.recorded) ∧
        (∃ w, t.jnl.pendingWrites = s.jnl.pendingWrites ++ [w] ∧ w.use = .piece job node task (2 * b.recorded)) ∧
        SameBut [.jobs, .lotRing, .jnl, .txQueue, .outs, .scatters] s t) := by
  have runs : commitScatter s job node task = writePiece (formImage s b).2 (formImage s b).1 := (commitScatter_of may).trans (if_pos left)
  have can := Can.all [.jobs, .lotRing, .jnl, .txQueue, .outs, .scatters]
  have whole : Keeps (· ∈ [.jobs, .lotRing, .jnl, .txQueue, .outs, .scatters]) s (commitScatter s job node task) :=
    commitScatter_keeps (.refl s) ..
  have keys := List.find?_some may.buffer
  simp only [Bool.and_eq_true, beq_iff_eq] at keys
  obtain ⟨⟨rfl, rfl⟩, rfl⟩ := keys
  obtain ⟨form, formed⟩ := formImage_gives s b
  obtain ⟨c, hc⟩ : ∃ c, c = (formImage s b).1 := ⟨_, rfl⟩
  obtain ⟨z, hz⟩ : ∃ z, z = (formImage s b).2 := ⟨_, rfl⟩
  rw [← hc] at form ⊢
  rw [← hc, ← hz] at runs
  rw [← hz] at formed
  have job : c.job = b.job := by rw [form]
  have node : c.node = b.node := by rw [form]
  have task : c.task = b.task := by rw [form]
  have recorded : c.recorded = b.recorded := by rw [form]
  have jnl : z.jnl = s.jnl := keeps_jnl formed (by decide) (by decide) (by decide)
  have size : lotRingSize z = lotRingSize s := by
    unfold lotRingSize
    rw [keeps_config formed (by decide)]
  have used : lotUsed z = lotUsed s := by
    unfold lotUsed
    rw [jnl]
  have own := (putScatter_find z c).1
  rw [job, node, task] at own
  have put : Keeps (· ∈ [.jobs, .lotRing, .jnl, .txQueue, .outs, .scatters]) z (putScatter z c) := putScatter_keeps (.refl z) _
  refine ⟨_, rfl, whole.field .mem (by decide), ?_, fun full => ?_, fun room => ?_⟩
  · rw [runs]
    by_cases full : lotRingSize z < lotUsed z + granulesOf (pieceBytes (c.image.take pieceEntries)).length
    · rw [writePiece_waits full]
      exact own
    · rw [writePiece_writes (Nat.not_lt.1 full)]
      refine (findScatter_congr ?_ ..).trans own
      exact (commitWrite_keeps (P := (· ∈ [.jnl, .txQueue, .outs])) (.refl _) _ _ _ _ _ _ (Can.all _)).field .scatters (by decide)
  · rw [← size, ← used] at full
    have same : commitScatter s b.job b.node b.task = putScatter z c := runs.trans (writePiece_waits full)
    rw [same]
    have can := Can.all [.scatters]
    have mine : Keeps (· ∈ [.scatters]) z (putScatter z c) := putScatter_keeps (.refl z) _
    exact ⟨jnl, sameBut_join (n := [.jobs, .scatters]) formed.sameBut mine.sameBut⟩
  · rw [← size, ← used] at room
    have same := runs.trans (writePiece_writes room)
    obtain ⟨⟨w, writes, use⟩, ring⟩ := startWrite_jnl (withRecord (putScatter z c) (pieceRecord z c)) (.piece c.job c.node c.task (2 * c.recorded))
      .commit (pieceKey c.job c.node c.task (2 * c.recorded))
      (commitBytes (withRecord (putScatter z c) (pieceRecord z c)) c.job c.node c.task (2 * c.recorded) c.format
        (pieceBytes (c.image.take pieceEntries)))
    have before : (withRecord (putScatter z c) (pieceRecord z c)).jnl = { s.jnl with lotRing := s.jnl.lotRing ++ [pieceRecord z c] } := by
      rw [← jnl]
      rfl
    rw [before] at writes ring
    refine ⟨pieceRecord z c, ?_, rfl, rfl, ?_, ⟨w, ?_, ?_⟩, whole.sameBut⟩
    · rw [same]
      exact ring
    · rw [← job, ← node, ← task, ← recorded]
      rfl
    · rw [same]
      exact writes
    · rw [use, job, node, task, recorded]

theorem scatterAddCommit_gives (s : State) (job node task : Nat) : let i := Instr.scatterAddCommit job node task
    ((∀ b, ¬ MayCommit s job node task b) → exec i s = .next s) ∧
    (∀ b, MayCommit s job node task b →
      (pieceCount b ≤ b.recorded → exec i s = .next (commitWrite s job node task (2 * pieceCount b) b.format []))) :=
  ⟨fun no => congrArg Host.Outcome.next (commitScatter_not no),
    fun _ may done => congrArg Host.Outcome.next ((commitScatter_of may).trans (if_neg (Nat.not_lt.2 done)))⟩

/-- Each new value of an image is the destination's value plus the entry (R194). -/
theorem formImage_values (s : State) (b : ScatterBuffer) (fresh : b.image = []) : (formImage s b).1.image =
    (((b.entries.map (·.2)).foldr insertEntry []).drop (b.recorded * pieceEntries)).map fun e =>
      let old := elemVal b.format (leNat (readModule s e.1 (unitBytes b.format)))
      let sum := encodeF fp32 .rne (addF .rne old (decodeF fp32 e.2.toNat))
      (e.1, (cvtScalar b.format { rtz := false, inf := false, ocp := false } (decodeF fp32 sum)).1) := by
  unfold formImage
  rw [if_pos fresh]
  dsimp only
  rw [List.map_map]
  rfl

end

/-- Settles O37: the accumulation enters its queue, its last segment adds in stream order, and the commit goes to the journal first. -/
theorem scatterAdds : Obligations.ScatterAdds := by
  unfold Obligations.ScatterAdds
  refine ⟨⟨fun s q o a ix b tensors => hoistScatterAdd_gives tensors,
    fun s q id g o a ix b tensors at_ sink may ready issued => lastSegment_adds tensors at_ sink may ready issued,
    fun l k a v => ⟨addEntry_self l k a v, fun j other => addEntry_other l a v other⟩⟩,
    fun s job node task => ?_, formImage_values⟩
  obtain ⟨stays, marks⟩ := scatterAddCommit_gives s job node task
  exact ⟨stays, fun b may => ⟨marks b may, commit_piece may⟩⟩

end Sys2Proof.Safety

end

section
/-! Array streams: charges, weight tiles, vectors, idle slots and freezes (R36 to R51, R117, R160, R180). -/

-- one theorem after the other: proofs side by side would need more memory than the check allows
set_option Elab.async false

namespace Sys2Proof.Safety

open Sys2Proof.Machine

/-! ## CHARGE_START -/

section
variable {s : State} {a : ArrayId} {slot : Fin 4} {cmd rt ct kt : Nat} {assay : Bool} {c : TaskCtx} {src : RowSrc} {v : VatTile}
  (may : MayCharge s a slot cmd rt ct kt assay c src v)
include may

/-- A charge of an idle seam wakes the seam first (R384). -/
theorem chargeStart_wakes (idle : (getCal s a.core.seam.val).idle = true) (asleep : (getCal s a.core.seam.val).waking = false) :
    let m := a.core.seam.val
    ∃ t, exec (.chargeStart a slot cmd) s = .next t ∧
      getCal t m = { getCal s m with waking := true } ∧ (∀ k, k ≠ m → getCal t k = getCal s k) ∧
      RegsAs (count s (calRegBase m) Ctr.CAL_WAKE_CNT 1) t ∧ SameBut [.regs, .cals] s t := by
  intro m
  have runs : startCharge s a slot cmd = setCal (count s (calRegBase m) Ctr.CAL_WAKE_CNT 1) m { getCal s m with waking := true } := by
    rw [startCharge_of may, if_neg (by rw [idle]; decide), if_neg (by rw [asleep]; decide)]
  have can := Can.all [.regs, .cals]
  refine ⟨_, congrArg Host.Outcome.next runs, getCal_setCal_self .., fun k other => ?_, rfl,
    (setCal_keeps (count_keeps (.refl s) ..) ..).sameBut⟩
  rw [getCal_setCal_other _ _ other]
  unfold getCal
  rw [count_cals]

theorem chargeStart_begins (awake : (getCal s a.core.seam.val).idle = false) : let m := a.core.seam.val
    let u : SlotId := ⟨a.core, slot⟩
    ∃ t, exec (.chargeStart a slot cmd) s = .next t ∧
      (let rows := chargeRows c (getSlot s u) rt ct assay
       let next := advanced v (partsOf s c ct kt)
       (rows ≠ [] ∨ isDistance (ctxMode s c) = false →
        ArrayIs a { getArray s a with
          charge := some { slot := slot, cmd := cmd, tile := v.base, key := weightKey c ct kt v.nextPart, assay := assay,
                           src := src, rows := rows }
          tallySum := [] } s t ∧
        TilesChanged a.core v.base (fun _ => { next with array := some a.array, checked := false }) s t ∧
        SlotStarted u s t) ∧
       (rows = [] → isDistance (ctxMode s c) = true → t.arrays = s.arrays ∧
        TilesChanged a.core v.base (fun _ => { next with array := some a.array }) s t ∧
        SlotChanged u (fun x => cmdDone cmd (if x.started then x else { x with started := true, startedAt := s.clk.now })) s t)) ∧
      getCal t m = { getCal s m with lastCharge := s.clk.now } ∧ (∀ k, k ≠ m → getCal t k = getCal s k) ∧
      (LateStart s u (getSlot s u) →
        RegsAs (raise (count s hubClkBase Ctr.DL_LATE_START_CNT 1) hubClkBase Flag.hubClk_LATE_START) t) ∧
      (¬ LateStart s u (getSlot s u) → RegsAs s t) ∧
      SameBut [.regs, .arrays, .cores, .cals] s t := by
  intro m u
  have runs := (startCharge_of may).trans (if_pos awake)
  have can := Can.all [.regs, .arrays, .cores, .cals]
  have frame : Keeps (· ∈ [.regs, .arrays, .cores, .cals]) s (startCharge s a slot cmd) := startCharge_keeps (.refl s) ..
  rw [runs] at frame
  have filled : (getSlot s u).state ≠ .empty := by
    rw [may.running]
    decide
  obtain ⟨some_, none_, cal, cals, late, early⟩ := beginCharge_gives (cmd := cmd) (rt := rt) (ct := ct) (assay := assay) (c := c) (src := src) filled may.come
  exact ⟨_, congrArg Host.Outcome.next runs, ⟨some_, none_⟩, cal, cals, late, early, frame.sameBut⟩

end

/-! ## WEIGHT_TILE_LOAD -/

theorem placed_congr {s z t : State} {u : SlotId} {off unit n : Nat} {bs : List Byte} {stored : Bool} (placed : Placed s u off unit n bs stored z)
    (mem : t.mem = z.mem) : Placed s u off unit n bs stored t := by
  cases placed with
  | stored _ same => exact .stored _ (mem.trans same)
  | written _ aligned within same => exact .written _ aligned within (mem.trans same)

section
variable {s : State} {a : ArrayId} {slot : Fin 4} {cmd image rt ct kt : Nat} {assay : Bool} {c : TaskCtx} {l : TileLoad}
  (asked : chargeOf (getSlot s ⟨a.core, slot⟩) cmd = some (rt, ct, kt, assay)) (task : taskCtx s ⟨a.core, slot⟩ = some c)
  (load : loadOf s c ct kt (partToLoad s a slot cmd (rt, ct, kt, assay)) = some l)
include asked task load

theorem weightTileLoad_waits (refused : ¬ MayLoadWeights s a l.tile.mode ∨
    NoPlace s ⟨a.core, slot⟩ image 64 (wl64Size l.tile.width) ((ctxWeight s c).any fun d => d.layout == layWl64)) :
    exec (.weightTileLoad a slot cmd image) s = .next s := by
  refine congrArg Host.Outcome.next ?_
  unfold loadWeights
  simp only [asked, task, load]
  rcases refused with no | nowhere
  · rw [(roomFor_gives s a l.tile.mode).2 no]
  · rw [(placeImage_gives ..).1 nowhere]
    cases roomFor s a l.tile.mode <;> rfl

theorem weightTileLoad_loads (may : MayLoadWeights s a l.tile.mode) :
    let u : SlotId := ⟨a.core, slot⟩
    let part := partToLoad s a slot cmd (rt, ct, kt, assay)
    let k := loadCounts l part
    let stored := (ctxWeight s c).any fun d => d.layout == layWl64
    ¬ NoPlace s u image 64 (wl64Size l.tile.width) stored →
      ∃ t, exec (.weightTileLoad a slot cmd image) s = .next t ∧
        (∃ y, (TakesBoth (getArray s a) l.tile.mode → y = { getArray s a with active := none }) ∧
          (¬ TakesBoth (getArray s a) l.tile.mode → y = getArray s a) ∧
          ArrayIs a { y with shadow := some { l.tile with
            kt := kt
            key := weightKey c ct kt part
            counts := addCount (addCount (addCount [] cntMdDrop k.drop) cntDupPos k.dup) cntIdxOob k.oob } } s t) ∧
        Placed s u image 64 (wl64Size l.tile.width) (wl64Image l.tile) stored t ∧
        RegsAs (loadNoted s a.core k (decide (1 < l.tile.parts ∧ part = 0))) t ∧
        SameBut [.mem, .regs, .arrays, .cores] s t := by
  intro u part k stored room
  obtain ⟨y, found, both, single⟩ := (roomFor_gives s a l.tile.mode).1 may
  obtain ⟨z, places, placed, regs, arrays⟩ := (placeImage_gives s u stored image l.tile).2 room
  have can := Can.all [.mem, .regs, .arrays, .cores]
  have frame : Keeps (· ∈ [.mem, .regs, .arrays, .cores]) s (loadWeights s a slot cmd image) := loadWeights_keeps (.refl s) ..
  obtain ⟨x, hx⟩ : ∃ x : ArrayState, x = { y with shadow := some { l.tile with
      kt := kt
      key := weightKey c ct kt part
      counts := addCount (addCount (addCount [] cntMdDrop k.drop) cntDupPos k.dup) cntIdxOob k.oob } } := ⟨_, rfl⟩
  have runs : loadWeights s a slot cmd image = setArray (loadNoted z a.core k (decide (1 < l.tile.parts ∧ part = 0))) a x := by
    unfold loadWeights loadNoted
    simp only [asked, task, load, found, decide_eq_true_eq]
    rw [show placeImage s ⟨a.core, slot⟩ ((ctxWeight s c).any fun d => d.layout == layWl64) image l.tile = some z from places, hx]
  have noted : Keeps (· ∈ [.regs]) z (loadNoted z a.core k (decide (1 < l.tile.parts ∧ part = 0))) := by
    have can := Can.all [.regs]
    unfold loadNoted
    dsimp only
    split
    · exact raise_keeps (count_keeps (countMd_keeps (.refl z) ..) ..) ..
    · exact countMd_keeps (.refl z) ..
  refine ⟨_, congrArg Host.Outcome.next runs, ⟨y, both, single, ?_⟩, placed_congr placed ?_, ?_, runs ▸ frame.sameBut⟩
  · rw [← hx]
    refine ⟨getArray_setArray_self .., fun b other => ?_⟩
    rw [getArray_setArray_other _ _ other, getArray_congr (noted.field .arrays (by decide)), getArray_congr arrays]
  · rw [setArray_mem]
    exact noted.field .mem (by decide)
  · rw [RegsAs, setArray_regs]
    unfold loadNoted
    dsimp only
    split
    · exact raise_regs_congr (count_regs_congr (countMd_regs regs ..) ..) ..
    · exact countMd_regs regs ..

end

/-! ## VECTOR_SCHEDULE -/

section
variable {s : State} {a : ArrayId} {x : ArrayState} {w : WeightTile} {ch : Charge}

/-- The tally vector ends a charge (R117). -/
theorem scheduleTally_gives (swap : Bool) (record : Nat) : let u : SlotId := ⟨a.core, ch.slot⟩
    let sum := if x.tallySum = [] then List.replicate (64 * lineGain w.line) 0 else x.tallySum
    let v := tallyVector sum
    let bs := vectorRecords v 16 [] true false
    let stored := decide (ch.tile = 80)
    let t := scheduleTally s a x w ch swap record
    (NoPlace s u record 8 bs.length stored → t = s) ∧
    (¬ NoPlace s u record 8 bs.length stored →
      getArray t a = { x with
        charge := none
        flights := x.flights ++ [{ elems := v.elems, upper := ⟨0, 0, false⟩, lower := ⟨0, 0, false⟩, planes := v.planes,
                                   row := 0, tally := true, weights := w, slot := ch.slot, cmd := ch.cmd, tile := ch.tile,
                                   last := true }]
        queue := feedSlots w v swap
        slotsLast := slotsOf w v.planes
        frozen := false } ∧
      (∀ b, b ≠ a → getArray t b = getArray s b) ∧
      RegsAs (vectorCounted s a (slotsOf w v.planes) (trimmedPlanes w 16 v.planes)) t ∧
      (∀ t', t'.mem = t.mem → Placed s u record 8 bs.length bs stored t')) := by
  intro u sum v bs stored t
  obtain ⟨nowhere, there⟩ := placeRecords_gives s a ch false record bs
  have same : decide (false = true ∨ ch.tile = 80) = stored := decide_eq_decide.2 (by simp)
  rw [same] at nowhere there
  refine ⟨fun no => ?_, fun room => ?_⟩
  · have none_ := nowhere no
    simp only [t, scheduleTally]
    rw [show placeRecords s a ch false record (vectorRecords (tallyVector _) 16 [] true false) = none from none_]
  · obtain ⟨z, places, placed, regs, arrays⟩ := there room
    have enters : t = enterVector z a x w { ch with begun := true }
        { vec := v, from_ := 16, row := 0, tally := true, last := true, swap := swap } := by
      simp only [t, scheduleTally]
      rw [show placeRecords s a ch false record (vectorRecords (tallyVector _) 16 [] true false) = some z from places]
    obtain ⟨array, others, counted, mem⟩ := enterVector_gives z a x w { ch with begun := true }
        { vec := v, from_ := 16, row := 0, tally := true, last := true, swap := swap }
    rw [enters]
    refine ⟨array, fun b other => ?_, ?_, fun t' same => placed t' (same.trans mem)⟩
    · rw [others b other, getArray_congr arrays]
    · exact counted.trans (vectorCounted_regs_congr regs ..)

variable (found : Swapped (getArray s a) x w ch) (record : Nat)
include found

theorem vectorSchedule_row (m : Nat) (rest : List Nat) (rows : ch.rows = m :: rest) : let u : SlotId := ⟨a.core, ch.slot⟩
    let l := buildRow s (chargeDesc s ch) (64 * lineGain w.line) { ch.src with row := ch.src.row + m }
    let v0 := l.vectors.getD ch.sub (badVector (64 * lineGain w.line))
    let v := if ch.assay then assayVector v0 else v0
    let z := rowNoted s a.core (if ch.sub = 0 then l.malformed else 0) (decide (1 < l.vectors.length ∧ ch.sub = 0))
    let next : Charge := if l.vectors.length ≤ ch.sub + 1 then { ch with rows := rest, sub := 0, begun := true }
      else { ch with sub := ch.sub + 1, begun := true }
    let last := isDistance w.mode ∧ l.vectors.length ≤ ch.sub + 1 ∧ rest = []
    let stored := decide ((chargeDesc s ch).layout = layPi64 ∨ ch.tile = 80)
    (NoPlace s u record 8 (nextRecords s ch w m).length stored → exec (.vectorSchedule a record) s = .next s) ∧
    (¬ NoPlace s u record 8 (nextRecords s ch w m).length stored →
      (skipVector w.mode v = true → ∃ t, exec (.vectorSchedule a record) s = .next t ∧
        ArrayIs a { x with charge := some next } s t ∧ RegsAs (count z (arrRegBase a) Ctr.ARR_SKIP_CNT 1) t ∧
        Placed s u record 8 (nextRecords s ch w m).length (nextRecords s ch w m) stored t ∧ SameBut [.mem, .regs, .arrays, .cores] s t) ∧
      (skipVector w.mode v = false → ∃ t, exec (.vectorSchedule a record) s = .next t ∧
        ArrayIs a { x with
          charge := if last then none else some next
          flights := x.flights ++ [{ elems := v.elems, upper := v.upper, lower := v.lower, planes := v.planes, row := m,
                                     tally := false, weights := w, slot := ch.slot, cmd := ch.cmd, tile := ch.tile,
                                     last := decide last }]
          queue := feedSlots w v ((getArray s a).sel != x.sel)
          tallySum := if x.tallySum = [] then v.elems else List.zipWith (· + ·) x.tallySum v.elems
          slotsLast := slotsOf w v.planes
          frozen := false } s t ∧
        (ch.assay = false →
          RegsAs (vectorCounted z a (slotsOf w v.planes) (trimmedPlanes w (max ch.src.planes v.planes) v.planes)) t) ∧
        Placed s u record 8 (nextRecords s ch w m).length (nextRecords s ch w m) stored t ∧ SameBut [.mem, .regs, .arrays, .cores] s t)) := by
  intro u l v0 v z next last stored
  obtain ⟨t, runs, stays, arrays, mem, regs⟩ := scheduleVector_of found record
  rw [rows] at stays arrays mem regs
  obtain ⟨nowhere, there⟩ := scheduleRow_gives s a x w ch ((getArray s a).sel != x.sel) record m rest
  have can := Can.all [.mem, .regs, .arrays, .cores]
  have frame : Keeps (· ∈ [.mem, .regs, .arrays, .cores]) s (scheduleVector s a record) := scheduleVector_keeps (.refl s) ..
  rw [Host.Outcome.next.inj runs] at frame
  refine ⟨fun no => ?_, fun room => ?_⟩
  · rw [runs, stays (nowhere no)]
  · obtain ⟨others, placed, skipped, entered⟩ := there room
    have array {y : ArrayState} (own : getArray (scheduleRow s a x w ch ((getArray s a).sel != x.sel) record m rest) a = y) :
        ArrayIs a y s t :=
      ⟨(getArray_congr arrays a).trans own, fun b other => (getArray_congr arrays b).trans (others b other)⟩
    refine ⟨fun skip => ?_, fun enter => ?_⟩
    · obtain ⟨own, noted⟩ := skipped skip
      exact ⟨t, runs, array own, regs.trans noted, placed t mem, frame.sameBut⟩
    · obtain ⟨own, noted⟩ := entered enter
      exact ⟨t, runs, array own, fun plain => regs.trans (noted plain), placed t mem, frame.sameBut⟩

theorem vectorSchedule_tally (rows : ch.rows = []) : let u : SlotId := ⟨a.core, ch.slot⟩
    let sum := if x.tallySum = [] then List.replicate (64 * lineGain w.line) 0 else x.tallySum
    let v := tallyVector sum
    let bs := vectorRecords v 16 [] true false
    let stored := decide (ch.tile = 80)
    v.elems = sum.map (fun e => signedOf 16 (unsignedOf 16 e)) ∧
    (NoPlace s u record 8 bs.length stored → exec (.vectorSchedule a record) s = .next s) ∧
    (¬ NoPlace s u record 8 bs.length stored → ∃ t, exec (.vectorSchedule a record) s = .next t ∧
      ArrayIs a { x with
        charge := none
        flights := x.flights ++ [{ elems := v.elems, upper := ⟨0, 0, false⟩, lower := ⟨0, 0, false⟩, planes := v.planes,
                                   row := 0, tally := true, weights := w, slot := ch.slot, cmd := ch.cmd, tile := ch.tile,
                                   last := true }]
        queue := feedSlots w v ((getArray s a).sel != x.sel)
        slotsLast := slotsOf w v.planes
        frozen := false } s t ∧
      RegsAs (vectorCounted s a (slotsOf w v.planes) (trimmedPlanes w 16 v.planes)) t ∧
      Placed s u record 8 bs.length bs stored t ∧ SameBut [.mem, .regs, .arrays, .cores] s t) := by
  intro u sum v bs stored
  obtain ⟨t, runs, stays, arrays, mem, regs⟩ := scheduleVector_of found record
  rw [rows] at stays arrays mem regs
  obtain ⟨nowhere, there⟩ := scheduleTally_gives (s := s) (a := a) (x := x) (w := w) (ch := ch) ((getArray s a).sel != x.sel) record
  have can := Can.all [.mem, .regs, .arrays, .cores]
  have frame : Keeps (· ∈ [.mem, .regs, .arrays, .cores]) s (scheduleVector s a record) := scheduleVector_keeps (.refl s) ..
  rw [Host.Outcome.next.inj runs] at frame
  refine ⟨rfl, fun no => ?_, fun room => ?_⟩
  · rw [runs, stays (nowhere no)]
  · obtain ⟨own, others, noted, placed⟩ := there room
    exact ⟨t, runs, ⟨(getArray_congr arrays a).trans own, fun b other => (getArray_congr arrays b).trans (others b other)⟩,
      regs.trans noted, placed t mem, frame.sameBut⟩

end

/-! ## IDLE_SLOT and ARRAY_FREEZE -/

section
variable (s : State) (a : ArrayId)

theorem waitsForWeights_iff (x : ArrayState) : waitsForWeights x = true ↔ WeightsWait x := by
  unfold waitsForWeights WeightsWait
  cases charge : x.charge with
  | none => exact ⟨nofun, fun ⟨_, none_, _⟩ => nomatch none_⟩
  | some ch =>
    simp only [Bool.and_eq_true, Bool.not_eq_true', Option.isNone_iff_eq_none, Option.some.injEq, exists_eq_left']
    refine and_congr_right fun _ => ?_
    rw [Option.eq_none_iff_forall_not_mem]
    exact ⟨fun no y w found => no (y, w) ((swapped_iff x y w ch charge).2 found),
      fun no p found => no p.1 p.2 ((swapped_iff x p.1 p.2 ch charge).1 found)⟩

theorem idleSlot_gives : let x := getArray s a
    let b := arrRegBase a
    ∃ t z, exec (.idleSlot a) s = .next t ∧ ArrayIs a { x with frozen := false, queue := [] } s t ∧
      (x.active = none → z = s) ∧ (x.active ≠ none → z = count s b Ctr.ARR_IDLE_CNT 1) ∧
      (¬ WeightsWait x → RegsAs z t) ∧
      (WeightsWait x → RegsAs (raise (count z b Ctr.ARR_WLOAD_WAIT_CNT 1) b Flag.arr_WLOAD_WAIT) t) ∧
      SameBut [.regs, .arrays] s t := by
  intro x b
  have can := Can.all [.regs, .arrays]
  have frame : Keeps (· ∈ [.regs, .arrays]) s (idleSlot s a) := idleSlot_keeps (.refl s) ..
  obtain ⟨y, hy⟩ : ∃ y, y = setArray s a { x with frozen := false, queue := [] } := ⟨_, rfl⟩
  obtain ⟨z, hz⟩ : ∃ z, z = if x.active.isSome then count s b Ctr.ARR_IDLE_CNT 1 else s := ⟨_, rfl⟩
  obtain ⟨z', hz'⟩ : ∃ z', z' = if x.active.isSome then count y b Ctr.ARR_IDLE_CNT 1 else y := ⟨_, rfl⟩
  have runs : idleSlot s a = if waitsForWeights x then raise (count z' b Ctr.ARR_WLOAD_WAIT_CNT 1) b Flag.arr_WLOAD_WAIT else z' := by
    rw [hz', hy]
    rfl
  have regs : z'.regs = z.regs := by
    have same : y.regs = s.regs := by rw [hy, setArray_regs]
    rw [hz, hz']
    split
    · exact count_regs_congr same ..
    · exact same
  have arrays : (idleSlot s a).arrays = y.arrays := by
    have here : z'.arrays = y.arrays := by
      rw [hz']
      split
      · exact count_arrays ..
      · rfl
    rw [runs]
    split
    · rw [raise_arrays, count_arrays, here]
    · exact here
  refine ⟨_, z, rfl, arrayIs_of (arrays.trans (by rw [hy])), fun none_ => by rw [hz, none_]; rfl, fun some_ => ?_, fun no => ?_,
    fun waits => ?_, frame.sameBut⟩
  · rw [hz, if_pos (Option.isSome_iff_ne_none.2 some_)]
  · exact (congrArg State.regs (runs.trans (if_neg fun yes => no ((waitsForWeights_iff x).1 yes)))).trans regs
  · exact (congrArg State.regs (runs.trans (if_pos ((waitsForWeights_iff x).2 waits)))).trans
      (raise_regs_congr (count_regs_congr regs ..) ..)

theorem arrayFreeze_freezes : let x := getArray s a
    let b := arrRegBase a
    (x.queue ≠ [] ∨ (8 ≤ x.out.length ∧ x.flights ≠ []) →
      ∃ t z, exec (.arrayFreeze a) s = .next t ∧ ArrayIs a { x with frozen := true } s t ∧
        (x.active = none → z = raise s b Flag.arr_FROZE) ∧
        (x.active ≠ none → z = raise (count s b Ctr.ARR_FREEZE_CNT 1) b Flag.arr_FROZE) ∧
        RegsAs (if 8 ≤ x.out.length then raise (count z b Ctr.ARR_DRAIN_FREEZE_CNT 1) b Flag.arr_DRAIN_BACKUP else z) t ∧
        SameBut [.regs, .arrays] s t) ∧
    (x.queue = [] → (x.out.length < 8 ∨ x.flights = []) → exec (.arrayFreeze a) s = .next s) := by
  intro x b
  have stands : (x.queue == [] && !drainBlocked x) = true ↔ x.queue = [] ∧ (x.out.length < 8 ∨ x.flights = []) := by
    simp only [drainBlocked, Bool.and_eq_true, Bool.not_eq_true', Bool.and_eq_false_iff, beq_iff_eq, decide_eq_false_iff_not, Nat.not_le,
      bne_eq_false_iff_eq]
  refine ⟨fun held => ?_, fun empty free => congrArg Host.Outcome.next (if_pos (stands.2 ⟨empty, free⟩))⟩
  have moves : ¬ (x.queue == [] && !drainBlocked x) = true := fun yes => by
    obtain ⟨empty, free⟩ := stands.1 yes
    rcases held with full | ⟨out, flights⟩
    · exact full empty
    · exact free.elim (fun small => absurd out (Nat.not_le.2 small)) flights
  have can := Can.all [.regs, .arrays]
  have frame : Keeps (· ∈ [.regs, .arrays]) s (freezeArray s a) := freezeArray_keeps (.refl s) ..
  obtain ⟨y, hy⟩ : ∃ y, y = setArray s a { x with frozen := true } := ⟨_, rfl⟩
  obtain ⟨z, hz⟩ : ∃ z, z = raise (if x.active.isSome then count s b Ctr.ARR_FREEZE_CNT 1 else s) b Flag.arr_FROZE := ⟨_, rfl⟩
  obtain ⟨z', hz'⟩ : ∃ z', z' = raise (if x.active.isSome then count y b Ctr.ARR_FREEZE_CNT 1 else y) b Flag.arr_FROZE := ⟨_, rfl⟩
  have runs : freezeArray s a = if 8 ≤ x.out.length then raise (count z' b Ctr.ARR_DRAIN_FREEZE_CNT 1) b Flag.arr_DRAIN_BACKUP else z' := by
    rw [hz', hy]
    exact if_neg moves
  have regs : z'.regs = z.regs := by
    have same : y.regs = s.regs := by rw [hy, setArray_regs]
    rw [hz, hz']
    refine raise_regs_congr ?_ _ _
    split
    · exact count_regs_congr same ..
    · exact same
  have arrays : (freezeArray s a).arrays = y.arrays := by
    have here : z'.arrays = y.arrays := by
      rw [hz', raise_arrays]
      split
      · exact count_arrays ..
      · rfl
    rw [runs]
    split
    · rw [raise_arrays, count_arrays, here]
    · exact here
  refine ⟨_, z, rfl, arrayIs_of (arrays.trans (by rw [hy])), fun none_ => by rw [hz, none_]; rfl, fun some_ => ?_, ?_, frame.sameBut⟩
  · rw [hz, if_pos (Option.isSome_iff_ne_none.2 some_)]
  · refine (congrArg State.regs runs).trans ?_
    split
    · exact raise_regs_congr (count_regs_congr regs ..) ..
    · exact regs

end

/-- Settles O18: the charge, its weight tile, its vectors, and the slots in which an array idles or freezes. -/
theorem arrayStreams : Obligations.ArrayStreams := by
  unfold Obligations.ArrayStreams
  refine ⟨fun s a slot cmd => ⟨fun no => congrArg Host.Outcome.next (startCharge_not no), fun rt ct kt assay c src v may =>
      ⟨fun idle waking => ?_, fun idle asleep => chargeStart_wakes may idle asleep, fun awake => chargeStart_begins may awake⟩⟩,
    ⟨fun s a slot cmd image rt ct kt assay c l asked task load => ⟨fun may room => weightTileLoad_loads asked task load may room,
      fun refused => weightTileLoad_waits asked task load refused⟩,
    fun s a x w ch record found => ⟨fun m rest rows => vectorSchedule_row found record m rest rows,
      fun rows => vectorSchedule_tally found record rows⟩⟩,
    fun s a => ⟨idleSlot_gives s a, arrayFreeze_freezes s a⟩⟩
  refine congrArg Host.Outcome.next ((startCharge_of may).trans ?_)
  rw [if_neg (by rw [idle]; decide), if_pos waking]

end Sys2Proof.Safety

end

section
/-! Drains: the oldest vector of an array, its checks and its partials (R35, R43 to R45, R119 to R123). -/

-- one theorem after the other: proofs side by side would need more memory than the check allows
set_option Elab.async false

namespace Sys2Proof.Safety

open Sys2Proof.Machine

/-! ## Checks -/

theorem checksNoted_kept (s : State) (a : ArrayId) (tally row col : Bool) : Keeps (· ∈ [.regs]) s (checksNoted s a tally row col) := by
  have can := Can.all [.regs]
  unfold checksNoted
  extract_lets counted z
  have checked : Keeps (· ∈ [.regs]) s counted := Keeps.ite (.refl s) fun k => count_keeps k ..
  have noted : Keeps (· ∈ [.regs]) s z := by
    simp only [z]
    split
    · exact checked
    · exact raise_keeps checked ..
  split
  · exact noted
  · exact raise_keeps noted ..

theorem checksNoted_pass (s : State) (a : ArrayId) : checksNoted s a false true true = s := rfl

theorem checksNoted_tally (s : State) (a : ArrayId) : checksNoted s a true true true = count s (arrRegBase a) Ctr.TLY_CHECK_CNT 1 := rfl

/-! ## DRAIN_PARTIAL -/

/-- A frame without parts that have not changed. -/
theorem sameBut_without {l m : List Part} {s t : State} (h : SameBut l s t) (k : ∀ p ∈ l, p ∉ m → p.same s t) : SameBut m s t :=
  ⟨h.1, fun p => by
    by_cases mine : p ∈ m
    · exact .inl mine
    · exact .inr ((h.2 p).elim (fun mem => k p mem mine) id)⟩

section
variable {s : State} {a : ArrayId} {us : List Upset} {f : Flight} {rest : List Flight}

theorem drainPartial_stays (full : 8 ≤ (getArray s a).out.length ∨ (getArray s a).flights = []) : exec (.drainPartial a us) s = .next s := by
  refine congrArg Host.Outcome.next ?_
  unfold drainVector
  dsimp only
  cases flights : (getArray s a).flights with
  | nil => rfl
  | cons f rest => exact if_pos (full.resolve_right (by rw [flights]; exact List.cons_ne_nil _ _))

variable (oldest : Oldest (getArray s a) f rest) (product : isDistance f.weights.mode = false)
  (row : rowCheck f.weights f (getArray s a).badRow us = true)
include oldest product row

/-- A vector that passes its row check, and is not the tally vector, hands over its partials. -/
theorem drainPartial_hands (plain : f.tally = false) : let x := getArray s a
    exec (.drainPartial a us) s = .next (handOver (setArray s a { leftArray x rest with
      totals := addTotals x.totals (columnValues f.weights f x.badRow us) }) a f us) := by
  intro x
  have runs := drainVector_mac oldest product us
  dsimp only at runs
  rw [row, plain] at runs
  exact runs

theorem drain_discarded (plain : f.tally = false) (none_ : f.tile = 80) : let x := getArray s a
    ∃ t, exec (.drainPartial a us) s = .next t ∧
      ArrayIs a { leftArray x rest with totals := addTotals x.totals (columnValues f.weights f x.badRow us) } s t ∧
      SameBut [.regs, .arrays] s t := by
  intro x
  have can := Can.all [.regs, .arrays]
  refine ⟨_, drainPartial_hands oldest product row plain, ?_⟩
  rw [(handOver_gives product).1 none_]
  exact ⟨arrayIs_of rfl, (setArray_keeps (.refl s) ..).sameBut⟩

theorem drain_vector {v : VatTile} (plain : f.tally = false) (live : f.tile ≠ 80) (tile : TileAt s a.core f.tile v) : let x := getArray s a
    let w := f.weights
    ∃ t, exec (.drainPartial a us) s = .next t ∧
      ArrayIs a { leftArray x rest with
        totals := addTotals x.totals (columnValues w f x.badRow us)
        out := x.out ++ [⟨f.tile, f.row, handedOver w f x.badRow v.x64 us⟩] } s t ∧
      (PlainPartials w f x.badRow v.x64 us → RegsAs s t ∧ SameBut [.arrays] s t) ∧ SameBut [.regs, .arrays, .cores] s t := by
  intro x w
  obtain ⟨y, hy⟩ : ∃ y : ArrayState, y = { leftArray x rest with totals := addTotals x.totals (columnValues w f x.badRow us) } := ⟨_, rfl⟩
  obtain ⟨z, hz⟩ : ∃ z, z = setArray s a y := ⟨_, rfl⟩
  have runs : exec (.drainPartial a us) s = .next (handOver z a f us) := by
    rw [hz, hy]
    exact drainPartial_hands oldest product row plain
  have own : getArray z a = y := by rw [hz, getArray_setArray_self]
  have tile' : TileAt z a.core f.tile v := by rw [TileAt, hz, findTile_congr (setArray_cores ..)]; exact tile
  obtain ⟨array, quiet⟩ := (handOver_gives (s := z) (a := a) (us := us) product).2 v live tile'
  have can := Can.all [.regs, .arrays, .cores]
  have frame : Keeps (· ∈ [.regs, .arrays, .cores]) s (handOver z a f us) := by
    rw [hz]
    exact handOver_keeps (setArray_keeps (.refl s) ..) ..
  refine ⟨_, runs, ⟨?_, fun b other => ?_⟩, fun plain => ?_, frame.sameBut⟩
  · rw [array.1, own, hy]
    rfl
  · rw [array.2 b other, hz, getArray_setArray_other _ _ other]
  · have same : PlainPartials f.weights f (getArray z a).badRow v.x64 us := by
      rw [own, hy]
      exact plain
    obtain ⟨regs, cores⟩ := quiet same
    have regs' : (handOver z a f us).regs = s.regs := by rw [regs, hz, setArray_regs]
    have cores' : (handOver z a f us).cores = s.cores := by rw [cores, hz, setArray_cores]
    refine ⟨regs', sameBut_without frame.sameBut fun p mem other => ?_⟩
    simp only [List.mem_cons, List.not_mem_nil, or_false] at mem other
    rcases mem with rfl | rfl | rfl
    · exact regs'
    · exact absurd rfl other
    · exact cores'

theorem drain_tally {v : VatTile} (tally : f.tally = true) (tile : TileAt s a.core f.tile v)
    (col : columnCheck (getArray s a).totals (columnValues f.weights f (getArray s a).badRow us) = true) : let x := getArray s a
    let w := f.weights
    ∃ t, exec (.drainPartial a us) s = .next t ∧ ArrayIs a { leftArray x rest with totals := [] } s t ∧
      TilesChanged a.core f.tile (fun _ => { v with checked := true }) s t ∧
      (w.part + 1 < w.parts → ∀ u, getSlot t u = getSlot s u) ∧
      (w.parts ≤ w.part + 1 → SlotChanged ⟨a.core, f.slot⟩ (cmdDone f.cmd) s t) ∧
      RegsAs (count s (arrRegBase a) Ctr.TLY_CHECK_CNT 1) t ∧ SameBut [.regs, .arrays, .cores] s t := by
  intro x w
  obtain ⟨z, hz⟩ : ∃ z, z = count (setArray s a { leftArray x rest with totals := [] }) (arrRegBase a) Ctr.TLY_CHECK_CNT 1 := ⟨_, rfl⟩
  have runs : exec (.drainPartial a us) s = .next (endCharge z a f) := by
    have runs := drainVector_mac oldest product us
    dsimp only at runs
    rw [row, tally, col] at runs
    rw [hz]
    exact runs
  have cores : z.cores = s.cores := by rw [hz, count_cores, setArray_cores]
  have arrays : z.arrays = (setArray s a { leftArray x rest with totals := [] }).arrays := by rw [hz, count_arrays]
  have regs : z.regs = (count s (arrRegBase a) Ctr.TLY_CHECK_CNT 1).regs := by
    rw [hz]
    exact count_regs_congr (setArray_regs ..) ..
  have tile' : findTile z a.core f.tile = some v := (findTile_congr cores ..).trans tile
  have can := Can.all [.regs, .arrays, .cores]
  have frame : Keeps (· ∈ [.regs, .arrays, .cores]) s (endCharge z a f) := by
    rw [hz]
    exact endCharge_keeps (count_keeps (setArray_keeps (.refl s) ..) ..) ..
  have ended : Keeps (· ∈ [.cores]) z (endCharge z a f) := endCharge_keeps (.refl z) _ _ (Can.all _)
  obtain ⟨p, hp⟩ : ∃ p, p = putTile z a.core { v with checked := true } := ⟨_, rfl⟩
  have put : TilesChanged a.core f.tile (fun _ => { v with checked := true }) z p := by
    rw [hp]
    have base : v.base = f.tile := findTile_base tile
    exact putTile_at z a.core base
  have slots (u : SlotId) : getSlot p u = getSlot s u := by rw [hp, getSlot_putTile, getSlot_congr cores]
  have ends : endCharge z a f = if w.part + 1 < w.parts then p else finishCmd p ⟨a.core, f.slot⟩ f.cmd := by
    unfold endCharge
    rw [tile', hp]
  obtain ⟨changed, kept, others, -⟩ := finishCmd_gives p ⟨a.core, f.slot⟩ f.cmd
  refine ⟨_, runs, arrayIs_of ((ended.field .arrays (by decide)).trans arrays), ?_, fun more u => ?_, fun last => ?_,
    (ended.field .regs (by decide)).trans regs, frame.sameBut⟩
  · refine tilesChanged_congr ?_ cores
    rw [ends]
    split
    · exact put
    · exact ⟨(tiles_of (kept a.core)).trans put.1, fun d other => (others d other).trans (put.2 d other)⟩
  · rw [ends, if_pos more, slots]
  · rw [ends, if_neg (Nat.not_lt.2 last)]
    refine slotsRun_congr changed fun u => ?_
    rw [slots]

end

/-! ## The partials of MAC -/

section
variable (w : WeightTile) (f : Flight) {b : Option Nat}

theorem drainSum_rows (repair : ∀ r, b = some r → r ≤ 64) (n : Nat) {h : Nat} (half : h < 2) : drainSum w f b id n h =
    ((List.range 32).map fun i => lineElem w f (32 * h + i) n * cellWeight w (32 * h + i) n).sum := by
  unfold drainSum
  rw [halfRows_eq repair half, List.map_map]
  rfl

theorem mem_macPartials (mac : w.mode = .mac) (n : Nat) (o : PartialOut) : (n, o) ∈ vectorPartials w f b true [] ↔
    n < 64 ∧ n ∉ w.colMask ∧ ∃ h, h < 2 ∧ o = drainPartial true (drainSum w f b id n h)
      ((halfTags w f n h).1.beff + (halfTags w f n h).2.beff) (halfTags w f n h).1.special (halfTags w f n h).2.special := by
  have product : isDistance ArrayMode.mac = false := rfl
  unfold vectorPartials
  simp only [mac, reduceCtorEq, if_false, product, Bool.false_eq_true, List.flatMap_cons, List.flatMap_nil, List.append_nil,
    List.mem_flatMap, List.mem_range, upsetOf_nil, ite_self, Int.add_zero]
  constructor
  · rintro ⟨m, small, mem⟩
    split at mem
    · cases mem
    next live =>
      obtain ⟨h, half, made⟩ := List.mem_map.1 mem
      cases made
      exact ⟨small, fun masked => live (List.contains_iff_mem.2 masked), h, List.mem_range.1 half, rfl⟩
  · rintro ⟨small, live, h, half, rfl⟩
    refine ⟨n, small, ?_⟩
    rw [if_neg fun masked => live (List.contains_iff_mem.1 masked)]
    exact List.mem_map.2 ⟨h, List.mem_range.2 half, rfl⟩

theorem macPartials (mac : w.mode = .mac) (repair : ∀ r, b = some r → r ≤ 64)
    (plain : ∀ n h, (halfTags w f n h).1.special = 0 ∧ (halfTags w f n h).2.special = 0) (n : Nat) (p : Partial) :
    (n, p) ∈ handedOver w f b true [] ↔ n < 64 ∧ n ∉ w.colMask ∧ ∃ h acc, h < 2 ∧ acc ≠ 0 ∧
      acc = ((List.range 32).map fun i => lineElem w f (32 * h + i) n * cellWeight w (32 * h + i) n).sum ∧
      p = .exact acc ((halfTags w f n h).1.beff + (halfTags w f n h).2.beff) := by
  have given : (n, p) ∈ handedOver w f b true [] ↔ ∃ o, (n, o) ∈ vectorPartials w f b true [] ∧ o.out = some p := by
    unfold handedOver
    rw [List.mem_filterMap]
    constructor
    · rintro ⟨⟨m, o⟩, mem, made⟩
      obtain ⟨q, out, pair⟩ := Option.map_eq_some_iff.1 made
      cases pair
      exact ⟨o, mem, out⟩
    · rintro ⟨o, mem, out⟩
      exact ⟨(n, o), mem, by rw [out]; rfl⟩
  rw [given]
  constructor
  · rintro ⟨o, mem, out⟩
    obtain ⟨small, live, h, half, rfl⟩ := (mem_macPartials w f mac n o).1 mem
    rw [(plain n h).1, (plain n h).2, drainPartial_plain] at out
    exact ⟨small, live, h, _, half, out.1, drainSum_rows w f repair n half, out.2⟩
  · rintro ⟨small, live, h, acc, half, some_, sum, exact_⟩
    refine ⟨_, (mem_macPartials w f mac n _).2 ⟨small, live, h, half, rfl⟩, ?_⟩
    rw [(plain n h).1, (plain n h).2, drainPartial_plain, drainSum_rows w f repair n half, ← sum]
    exact ⟨some_, exact_⟩

end

/-- Settles O19: the oldest vector's drain by kind, and the partials of MAC. -/
theorem drainVector : Obligations.DrainVector := by
  unfold Obligations.DrainVector
  exact ⟨fun s a us => ⟨drainPartial_stays, fun f rest oldest product row => ⟨drain_discarded oldest product row,
    fun v live tile => ⟨fun plain => drain_vector oldest product row plain live tile, fun tally col => drain_tally oldest product row tally tile col⟩⟩⟩,
    fun w f b mac repair plain n p => macPartials w f mac repair plain n p⟩

end Sys2Proof.Safety

end

section
/-! Array checks: what the row check finds, and what a failed check does (R115 to R125). -/

-- one theorem after the other: proofs side by side would need more memory than the check allows
set_option Elab.async false

namespace Sys2Proof.Safety

open Sys2Proof.Machine

/-! ## Dry times -/

/-- Two states give the tasks of a core the same start marks (R325). -/
structure SameMarks (s t : State) : Prop where
  jobs : ∀ k, (getJob t k).map (fun j => (j.graph, j.ctx)) = (getJob s k).map (fun j => (j.graph, j.ctx))
  graphs : t.dep.graphs = s.dep.graphs
  stages : t.dep.stages = s.dep.stages
  counters : t.counters = s.counters

theorem SameMarks.of_keeps {P : Part → Prop} {s t : State} (h : Keeps P s t) (jobs : ¬ P .jobs) (graphs : ¬ P .graphs)
    (stages : ¬ P .stages) (counters : ¬ P .counters) : SameMarks s t :=
  ⟨fun k => by rw [getJob_congr (h.field .jobs jobs)], h.field .graphs graphs, h.field .stages stages, h.field .counters counters⟩

section
variable {s t : State} (same : SameMarks s t)
include same

theorem startMark_same (seam : Nat) (c : WorkCounter) (i : Nat) : startMark t seam c i = startMark s seam c i := by
  obtain ⟨jobs, graphs, stages, -⟩ := same
  have graph (k : Nat) : getGraphSlot t k = getGraphSlot s k := getGraphSlot_congr graphs k
  have stage (g n : Nat) : getStage t g n = getStage s g n := by
    unfold getStage
    rw [stages]
  have job := jobs c.job
  unfold startMark
  cases here : getJob s c.job with
  | none =>
    rw [here, Option.map_none, Option.map_eq_none_iff] at job
    rw [job]
  | some j =>
    rw [here, Option.map_some, Option.map_eq_some_iff] at job
    obtain ⟨k, there, pair⟩ := job
    obtain ⟨number, ctx⟩ := Prod.mk.inj pair
    simp only [there, deadline, meanTask, jobNode, jobImage, graph, stage, number, ctx]

theorem dryOf_same (u : SlotId) (x : TaskSlot) : dryOf t u x = dryOf s u x := by
  have counter (m k : Nat) : getCounter t m k = getCounter s m k := by
    unfold getCounter
    rw [same.counters]
  unfold dryOf
  rw [startMark_same same, counter]

theorem slotsRun_same {c : CoreId} {f : SlotId → TaskSlot} (run : SlotsRun c f s) (slots : ∀ u, getSlot t u = getSlot s u) :
    SlotsRun c f t := by
  have comes (u : SlotId) (h : ComesToRun c f s u) : ComesToRun c f t u := by
    unfold ComesToRun at h ⊢
    simp only [dryOf_same same]
    exact h
  refine ⟨fun u => ?_, fun waits => ?_⟩
  · rw [slots]
    exact (run.each u).imp_right fun ⟨first, idle, runs⟩ => ⟨comes u first, idle, runs⟩
  · obtain ⟨u, core, runs⟩ := run.one waits
    exact ⟨u, core, by rw [slots]; exact runs⟩

end

/-! ## The row check -/

/-- A single disturbance stands on one side of the check only. -/
theorem upset_once (u : Upset) (h : Nat) : upsetOf [u] 64 h - ((List.range 64).map fun n => upsetOf [u] n h).sum =
    if u.half.val = h then (if u.col.val = 64 then u.error else -u.error) else 0 := by
  have columns : ((List.range 64).map fun n => upsetOf [u] n h).sum = if u.col.val < 64 then (if u.half.val = h then u.error else 0) else 0 := by
    simp only [upsetOf_one]
    exact sum_one ..
  have col := u.col.isLt
  rw [columns, upsetOf_one]
  by_cases last : u.col.val = 64
  · rw [if_pos last.symm, if_neg (show ¬ u.col.val < 64 by omega), if_pos last, Int.sub_zero]
  · rw [if_neg (Ne.symm last), if_pos (show u.col.val < 64 by omega), if_neg last]
    split
    · exact Int.zero_sub _
    · rfl

theorem add_sub_add_apart (a b c d : Int) : a + b - (c + d) = a - c + (b - d) := by
  omega

section
variable (w : WeightTile) (f : Flight) (b : Option Nat) (tally : TallyOfTile w) (repair : ∀ r, b = some r → r ≤ 64)
include tally repair

/-- What the tally column drains is what the columns drain, modulo the check's modulus (R119). -/
theorem tally_agrees {h : Nat} (half : h < 2) : (((if f.tally then 2 ^ 16 else 2 ^ 32 : Nat) : Nat) : Int) ∣
    tallySumOf w f b h - ((List.range 64).map fun n => drainSum w f b id n h).sum := by
  refine Int.dvd_trans ?_ (tally_diff w f b repair tally h half)
  split
  · exact ⟨2 ^ 16, by decide⟩
  · exact ⟨1, by decide⟩

theorem rowCheck_undisturbed : rowCheck w f b [] = true := by
  rw [rowCheck_eq w f b [] tally.1]
  intro h half
  simp only [upsetOf_nil, sum_zero, Int.add_zero]
  exact Int.emod_eq_zero_of_dvd (tally_agrees w f b tally repair half)

theorem rowCheck_disturbed (u : Upset) :
    rowCheck w f b [u] = true ↔ u.error % ((if f.tally then 2 ^ 16 else 2 ^ 32 : Nat) : Int) = 0 := by
  have agrees {h : Nat} (half : h < 2) := tally_agrees w f b tally repair half
  rw [rowCheck_eq w f b [u] tally.1]
  generalize ((if f.tally then 2 ^ 16 else 2 ^ 32 : Nat) : Int) = m at agrees ⊢
  have apart (h : Nat) (half : h < 2) : (tallySumOf w f b h + upsetOf [u] 64 h - (((List.range 64).map fun n => drainSum w f b id n h).sum +
      ((List.range 64).map fun n => upsetOf [u] n h).sum)) % m = 0 ↔
      m ∣ (if u.half.val = h then (if u.col.val = 64 then u.error else -u.error) else 0) := by
    rw [← Int.dvd_iff_emod_eq_zero, add_sub_add_apart, Int.dvd_add_right (agrees half), upset_once]
  have sign : m ∣ (if u.col.val = 64 then u.error else -u.error) ↔ u.error % m = 0 := by
    rw [← Int.dvd_iff_emod_eq_zero]
    split
    · rfl
    · exact Int.dvd_neg
  constructor
  · intro all
    have here := (apart u.half.val u.half.isLt).1 (all _ u.half.isLt)
    rw [if_pos rfl] at here
    exact sign.1 here
  · intro zero h half
    refine (apart h half).2 ?_
    split
    · exact sign.2 zero
    · exact ⟨0, (Int.mul_zero m).symm⟩

end

/-! ## A failed check -/

/-- A tally mismatch kept with those of the array in the window (R125). -/
def eventKept (s : State) (a : ArrayId) : State :=
  { s with dep := { s.dep with mismatches := tset s.dep.mismatches [] (arrayKey a) (addEvent s (tget s.dep.mismatches [] (arrayKey a))) } }

theorem arrayMismatch_keeps_only {s : State} {a : ArrayId} (few : (addEvent s (tget s.dep.mismatches [] (arrayKey a))).length < 3) :
    arrayMismatch s a = eventKept s a :=
  if_neg (Nat.not_le.2 few)

theorem eventKept_kept (s : State) (a : ArrayId) : Keeps (· ∈ [.dep]) s (eventKept s a) := by
  have can := Can.all [.dep]
  exact Keeps.upd (.refl s) rfl rfl rfl

theorem addEvent_congr {s t : State} (now : t.clk.now = s.clk.now) (config : t.pwr.config = s.pwr.config) (l : List Time) :
    addEvent t l = addEvent s l := by
  unfold addEvent tallyNs
  rw [now, config]

/-- The state of a part discarded by a failed check, but for the kept event (R122). -/
def partDiscarded (z : State) (a : ArrayId) (base : Nat) (v : VatTile) : State :=
  let s := updJob (count z (arrRegBase a) Ctr.TLY_MISMATCH_CNT 1) (getSlot z ⟨a.core, v.slot⟩).job fun j =>
    { j with counts := addCount j.counts cntMismatch 1 }
  let s := setArray s a (voidWork (getArray s a) (· == base))
  let s := putTile s a.core { resetTile v with failedOn := some a.array }
  settle (reissuePart s a.core v) a.core

theorem partDiscarded_gives (z : State) (a : ArrayId) {base : Nat} {v : VatTile} (tile : v.base = base) :
    let t := partDiscarded z a base v
    let u : SlotId := ⟨a.core, v.slot⟩
    ArrayIs a (voided (getArray z a) base) z t ∧
    TilesChanged a.core base (fun _ => { resetTile v with failedOn := some a.array }) z t ∧
    ((getSlot z u).state ≠ .empty → SlotChanged u (reissued v) z t) ∧
    RegsAs (count z (arrRegBase a) Ctr.TLY_MISMATCH_CNT 1) t ∧
    JobChanged (getSlot z u).job (fun j => { j with counts := addCount j.counts cntMismatch 1 }) z t ∧
    Keeps (· ∈ [.regs, .jobs, .arrays, .cores]) z t := by
  intro t u
  obtain ⟨c, hc⟩ : ∃ c, c = count z (arrRegBase a) Ctr.TLY_MISMATCH_CNT 1 := ⟨_, rfl⟩
  have counted : Keeps (· ∈ [.regs]) z c := hc ▸ count_keeps (.refl z) _ _ _ (Can.all _)
  obtain ⟨x, hx⟩ : ∃ x, x = updJob c (getSlot z u).job fun j => { j with counts := addCount j.counts cntMismatch 1 } := ⟨_, rfl⟩
  have job : Keeps (· ∈ [.jobs]) c x := hx ▸ updJob_keeps (.refl c) _ _ (Can.all _)
  have arrays : x.arrays = z.arrays := (job.field .arrays (by decide)).trans (counted.field .arrays (by decide))
  obtain ⟨y, hy⟩ : ∃ y, y = setArray x a (voided (getArray z a) base) := ⟨_, rfl⟩
  have made : t = settle (reissuePart (putTile y a.core { resetTile v with failedOn := some a.array }) a.core v) a.core := by
    rw [hy, ← getArray_congr arrays, hx, hc]
    rfl
  have can := Can.all [.regs, .jobs, .arrays, .cores]
  have first : Keeps (· ∈ [.regs, .jobs, .arrays, .cores]) z y := by
    rw [hy]
    exact setArray_keeps ((counted.mono (by decide)).trans (job.mono (by decide))) ..
  obtain ⟨tiles, slots, kept⟩ := putBack_gives y a.core v { resetTile v with failedOn := some a.array } (base := base) tile
  rw [← made] at tiles slots kept
  have cores : y.cores = z.cores := by
    rw [hy, setArray_cores]
    exact (job.field .cores (by decide)).trans (counted.field .cores (by decide))
  have slot (w : SlotId) : getSlot y w = getSlot z w := getSlot_congr cores w
  refine ⟨?_, tilesChanged_congr tiles cores, fun filled => ?_, ?_, ?_, first.trans (kept.mono (by decide))⟩
  · refine arrayIs_congr (arrayIs_of ((kept.field .arrays (by decide)).trans ?_)) arrays
    rw [hy]
  · refine slotsRun_congr (slots (by rw [slot]; exact filled)) fun w => ?_
    rw [slot]
  · refine (kept.field .regs (by decide)).trans ?_
    rw [hy, setArray_regs, ← hc]
    exact job.field .regs (by decide)
  · refine (kept.field .jobs (by decide)).trans ?_
    rw [hy, setArray_dep, hx, ← (counted.field .jobs (by decide) : c.dep.jobs = z.dep.jobs)]
    rfl

section
variable {s : State} {a : ArrayId} {us : List Upset} {f : Flight} {rest : List Flight} {v : VatTile}

/-- The first mismatch of a part that nothing else follows is its discarding and the kept event (R122, R124). -/
theorem mismatch_first {z : State} {base : Nat} (tile : findTile z a.core base = some v) (first : v.failedOn = none)
    (few : (addEvent z (tget z.dep.mismatches [] (arrayKey a))).length < 3)
    (there : operandGone (getSlot z ⟨a.core, v.slot⟩) v = false) (others : ∃ b ∈ liveArrays z a.core, b ≠ a) :
    mismatch z a base = eventKept (partDiscarded z a base v) a := by
  have base' : v.base = base := findTile_base tile
  obtain ⟨-, -, -, -, -, kept⟩ := partDiscarded_gives z a base'
  obtain ⟨p, hp⟩ : ∃ p, p = partDiscarded z a base v := ⟨_, rfl⟩
  have runs : mismatch z a base = if operandGone (getSlot z ⟨a.core, v.slot⟩) v || (liveArrays (arrayMismatch p a) a.core).all (· == a)
      then abortTask (arrayMismatch p a) ⟨a.core, v.slot⟩ else arrayMismatch p a := by
    unfold mismatch
    simp -zeta only [tile, first]
    extract_lets u x s1 s2 s3 reset s4 s5 s6
    have discarded : s5 = p := hp.symm
    have noted : s6 = arrayMismatch p a := congrArg (arrayMismatch · a) discarded
    rw [noted]
  rw [← hp] at kept ⊢
  have events : p.dep.mismatches = z.dep.mismatches := (congrArg Deputy.mismatches (kept.field .dep (by decide) :) :)
  have few' : (addEvent p (tget p.dep.mismatches [] (arrayKey a))).length < 3 := by
    rw [addEvent_congr (keeps_now kept (by decide)) (keeps_config kept (by decide)), events]
    exact few
  have live : (liveArrays (eventKept p a) a.core).all (· == a) = false := by
    rw [liveArrays_congr (show (eventKept p a).dep.fences = z.dep.fences from kept.field .fences (by decide))]
    obtain ⟨b, mem, other⟩ := others
    exact List.all_eq_false.2 ⟨b, mem, by simpa using other⟩
  rw [runs, arrayMismatch_keeps_only few', there, live]
  rfl

theorem drain_mismatch : let x := getArray s a
    let w := f.weights
    let sums := columnValues w f x.badRow us
    let u : SlotId := ⟨a.core, v.slot⟩
    Oldest x f rest → isDistance w.mode = false → TileAt s a.core f.tile v →
    let col := !f.tally || columnCheck x.totals sums
    rowCheck w f x.badRow us = false ∨ col = false →
    v.failedOn = none → (addEvent s (tget s.dep.mismatches [] (arrayKey a))).length < 3 →
    operandGone (getSlot s u) v = false → (∃ b ∈ liveArrays s a.core, b ≠ a) →
    ∃ t, exec (.drainPartial a us) s = .next t ∧
      ArrayIs a (voided { leftArray x rest with totals := if f.tally then [] else addTotals x.totals sums } f.tile) s t ∧
      TilesChanged a.core f.tile (fun _ => { resetTile v with failedOn := some a.array }) s t ∧
      ((getSlot s u).state ≠ .empty → SlotChanged u (reissued v) s t) ∧
      RegsAs (count (checksNoted s a f.tally (rowCheck w f x.badRow us) col) (arrRegBase a) Ctr.TLY_MISMATCH_CNT 1) t ∧
      t.dep.mismatches = tset s.dep.mismatches [] (arrayKey a) (addEvent s (tget s.dep.mismatches [] (arrayKey a))) ∧
      JobChanged (getSlot s u).job (fun j => { j with counts := addCount j.counts cntMismatch 1 }) s t ∧
      SameBut [.regs, .jobs, .dep, .arrays, .cores] s t := by
  intro x w sums u oldest product tile col failed first few there others
  obtain ⟨y, hy⟩ : ∃ y : ArrayState, y = { leftArray x rest with totals := if f.tally then [] else addTotals x.totals sums } := ⟨_, rfl⟩
  obtain ⟨row, hrow⟩ : ∃ row, row = rowCheck w f x.badRow us := ⟨_, rfl⟩
  obtain ⟨z, hz⟩ : ∃ z, z = checksNoted (setArray s a y) a f.tally row col := ⟨_, rfl⟩
  rw [← hrow] at failed ⊢
  rw [← hy]
  have fails : (row && col) = false := Bool.and_eq_false_iff.2 failed
  have runs : exec (.drainPartial a us) s = .next (mismatch z a f.tile) := by
    refine (drainVector_mac oldest product us).trans (congrArg Host.Outcome.next ?_)
    dsimp only
    rw [show (rowCheck f.weights f (getArray s a).badRow us && (!f.tally || columnCheck (getArray s a).totals
      (columnValues f.weights f (getArray s a).badRow us))) = false from hrow ▸ fails, hz, hy, hrow]
    rfl
  have noted : Keeps (· ∈ [.regs]) (setArray s a y) z := hz ▸ checksNoted_kept ..
  have set_ : Keeps (· ∈ [.arrays]) s (setArray s a y) := setArray_keeps (.refl s) _ _ (Can.all _)
  have whole : Keeps (· ∈ [.regs, .arrays]) s z := (set_.mono (by decide)).trans (noted.mono (by decide))
  have cores : z.cores = s.cores := whole.field .cores (by decide)
  have arrays : z.arrays = (setArray s a y).arrays := noted.field .arrays (by decide)
  have dep : z.dep = s.dep := dep_eq whole (by decide)
  have slot (k : SlotId) : getSlot z k = getSlot s k := getSlot_congr cores k
  have tile' : findTile z a.core f.tile = some v := (findTile_congr cores ..).trans tile
  have event (l : List Time) : addEvent z l = addEvent s l :=
    addEvent_congr (keeps_now whole (by decide)) (keeps_config whole (by decide)) l
  have runs' := runs.trans (congrArg Host.Outcome.next (mismatch_first tile' first (by rw [dep, event]; exact few)
    (by rw [slot]; exact there) (by rw [liveArrays_congr (congrArg Deputy.fences dep)]; exact others)))
  have base : v.base = f.tile := findTile_base tile'
  obtain ⟨array, tiles, slots, regs, jobs, kept⟩ := partDiscarded_gives z a base
  obtain ⟨p, hp⟩ : ∃ p, p = partDiscarded z a f.tile v := ⟨_, rfl⟩
  rw [← hp] at array tiles slots regs jobs kept runs'
  have last := eventKept_kept p a
  have own : getArray z a = y := (getArray_congr arrays a).trans (getArray_setArray_self ..)
  refine ⟨_, runs', ⟨?_, fun b other => ?_⟩, tilesChanged_congr tiles cores, fun filled => ?_, ?_, ?_, ?_, ?_⟩
  · rw [← own]
    exact array.1
  · exact (array.2 b other).trans ((getArray_congr arrays b).trans (getArray_setArray_other _ _ other))
  · refine slotsRun_same (.of_keeps last (by decide) (by decide) (by decide) (by decide)) ?_ fun k => rfl
    refine slotsRun_congr (slots (by rw [slot]; exact filled)) fun k => ?_
    rw [slot]
  · refine regs.trans (count_regs_congr ?_ ..)
    rw [hz]
    exact checksNoted_regs_congr (setArray_regs ..) ..
  · have before := kept.field .dep (by decide)
    have mismatches : p.dep.mismatches = s.dep.mismatches := by
      rw [← dep]
      exact (congrArg Deputy.mismatches before :)
    change tset p.dep.mismatches [] (arrayKey a) (addEvent p (tget p.dep.mismatches [] (arrayKey a))) = _
    rw [mismatches, addEvent_congr (keeps_now kept (by decide)) (keeps_config kept (by decide)), event]
  · have jobs' : p.dep.jobs = _ := jobs
    rw [slot, dep] at jobs'
    exact jobs'
  · exact sameBut_join (n := [.regs, .jobs, .dep, .arrays, .cores]) ((whole.mono (by decide)).trans kept).sameBut last.sameBut

end

/-- Settles O20: the row check by its sums modulo the check's modulus, then the part that a failed check discards. -/
theorem arrayChecks : Obligations.ArrayChecks := by
  unfold Obligations.ArrayChecks
  exact ⟨fun w f b tally repair => ⟨rowCheck_undisturbed w f b tally repair, rowCheck_disturbed w f b tally repair⟩,
    fun s a us f rest v => drain_mismatch⟩

end Sys2Proof.Safety

end

section
/-! Task switches and aborts (R161 to R163, R174, R219, R234, R338, R339). -/

-- one theorem after the other: proofs side by side would need more memory than the check allows
set_option Elab.async false

namespace Sys2Proof.Safety

open Sys2Proof.Machine

/-! ## TASK_SWITCH -/

section
variable {s : State} {c : CoreId}

theorem refreshed_marks (s : State) (c : CoreId) : SameMarks s (refreshSlots s c) :=
  .of_keeps (refreshSlots_gives s c).2.2 (by decide) (by decide) (by decide) (by decide)

/-- The slot that comes to run among the slots brought up to date. -/
theorem bestReady_refreshed {new : SlotId} (first : ComesToRun c (freshSlots s c) s new) : bestReady (refreshSlots s c) c = some new := by
  refine bestReady_of ?_
  rw [funext (refreshSlots_gives s c).1]
  unfold ComesToRun at first ⊢
  simp only [dryOf_same (refreshed_marks s c)]
  exact first

theorem bestReady_none (idle : ∀ u, u.core = c → (getSlot s u).state ≠ .ready) : bestReady s c = none := by
  cases best : bestReady s c with
  | none => rfl
  | some u =>
    obtain ⟨core, ready, -⟩ := (bestReady_gives s c).1 u best
    exact absurd ready (idle u core)

theorem runningSlot_idle (idle : ∀ u, u.core = c → (getSlot s u).state ≠ .running) : runningSlot s c = none := by
  cases runs : runningSlot s c with
  | none => rfl
  | some u =>
    obtain ⟨core, running⟩ := runningSlot_some runs
    exact absurd running (idle u core)

theorem ensureRunning_idle (running : ∀ u, u.core = c → (getSlot s u).state ≠ .running) (ready : ∀ u, u.core = c → (getSlot s u).state ≠ .ready) :
    ensureRunning s c = s := by
  unfold ensureRunning
  rw [runningSlot_idle running, bestReady_none ready]

/-- What a switch that only brings the slots up to date leaves. -/
theorem refreshed_tiles (s : State) (c : CoreId) : TilesFreed c none s (refreshSlots s c) :=
  tilesFreed_of (refreshSlots_gives s c).2.1

theorem counted_tiles {t : State} (b k n : Nat) (freed : TilesFreed c none s t) : TilesFreed c none s (count t b k n) :=
  fun d => by rw [getCore_congr (count_cores ..)]; exact freed d

theorem switch_runs (running : ∀ u, u.core = c → (freshSlots s c u).state ≠ .running)
    (ready : ∃ u, u.core = c ∧ (freshSlots s c u).state = .ready) (cause : SwitchCause) :
    ∃ t, exec (.taskSwitch c cause) s = .next t ∧ SlotsRun c (freshSlots s c) t ∧ TilesFreed c none s t ∧ SameBut [.cores] s t := by
  obtain ⟨slots, cores, kept⟩ := refreshSlots_gives s c
  obtain ⟨z, hz⟩ : ∃ z, z = refreshSlots s c := ⟨_, rfl⟩
  rw [← hz] at slots cores kept
  have none_ : runningSlot z c = none := runningSlot_idle fun u core => by rw [slots]; exact running u core
  have run := slotsRun_congr (ensureRunning_gives z c) slots
  obtain ⟨u, core, runs⟩ := run.one ready
  have switch : switchTask s c cause = ensureRunning z c := by
    unfold switchTask
    rw [← hz]
    dsimp only
    rw [none_]
    dsimp only
    cases next : runningSlot (ensureRunning z c) c with
    | none => exact absurd runs (runningSlot_none next u core)
    | some v => cases cause <;> rfl
  have can := Can.all [.cores]
  exact ⟨_, congrArg Host.Outcome.next switch, run, tilesFreed_of fun d => (ensureRunning_cores z c d).trans (cores d),
    (ensureRunning_keeps kept ..).sameBut⟩

theorem switch_waits (running : ∀ u, u.core = c → (freshSlots s c u).state ≠ .running)
    (ready : ∀ u, u.core = c → (freshSlots s c u).state ≠ .ready) (cause : SwitchCause) :
    ∃ t, exec (.taskSwitch c cause) s = .next t ∧ (∀ u, getSlot t u = freshSlots s c u) ∧ TilesFreed c none s t ∧
      (∀ n, cause = .wait n → RegsAs (count s (coreRegBase c) Ctr.CORE_NOREADY_CNT n) t) ∧
      (cause = .dry → RegsAs s t) ∧ SameBut [.regs, .cores] s t := by
  obtain ⟨slots, -, kept⟩ := refreshSlots_gives s c
  have freed := refreshed_tiles s c
  obtain ⟨z, hz⟩ : ∃ z, z = refreshSlots s c := ⟨_, rfl⟩
  rw [← hz] at slots kept freed
  have none_ : runningSlot z c = none := runningSlot_idle fun u core => by rw [slots]; exact running u core
  have stays : ensureRunning z c = z := ensureRunning_idle (fun u core => by rw [slots]; exact running u core)
    fun u core => by rw [slots]; exact ready u core
  have regs : z.regs = s.regs := kept.field .regs (by decide)
  cases cause with
  | wait n =>
    have counts : switchTask s c (.wait n) = count z (coreRegBase c) Ctr.CORE_NOREADY_CNT n := by
      unfold switchTask
      rw [← hz]
      dsimp only
      rw [none_]
      dsimp only
      rw [stays, none_]
    have can := Can.all [.regs, .cores]
    have frame : Keeps (· ∈ [.regs, .cores]) s (count z (coreRegBase c) Ctr.CORE_NOREADY_CNT n) := count_keeps (kept.mono (by decide)) ..
    exact ⟨_, congrArg Host.Outcome.next counts, fun u => (getSlot_congr (count_cores ..) u).trans (slots u), counted_tiles _ _ _ freed,
      fun m wait => SwitchCause.wait.inj wait ▸ count_regs_congr regs .., nofun, frame.sameBut⟩
  | dry =>
    have quiet : switchTask s c .dry = z := by
      unfold switchTask
      rw [← hz]
      dsimp only
      rw [none_]
      exact stays
    exact ⟨_, congrArg Host.Outcome.next quiet, slots, freed, nofun, fun _ => regs, (kept.mono (by decide)).sameBut⟩

/-- A switch that is not due only brings the slots up to date. -/
theorem switch_stays {cause : SwitchCause} (stays : switchTask s c cause = refreshSlots s c) :
    ∃ t, exec (.taskSwitch c cause) s = .next t ∧ (∀ u, getSlot t u = freshSlots s c u) ∧ TilesFreed c none s t ∧ SameBut [.cores] s t := by
  obtain ⟨slots, -, kept⟩ := refreshSlots_gives s c
  exact ⟨_, congrArg Host.Outcome.next stays, slots, refreshed_tiles s c, kept.sameBut⟩

variable {old : SlotId} (core : old.core = c) (runs : (freshSlots s c old).state = .running)
  (one : ∀ u, u.core = c → (freshSlots s c u).state = .running → u = old)
include core runs one

/-- The RUNNING slot of a core whose slots have been brought up to date. -/
theorem runningSlot_refreshed : runningSlot (refreshSlots s c) c = some old := by
  have slots := (refreshSlots_gives s c).1
  exact runningSlot_of core (by rw [slots]; exact runs) fun v at_ running => one v at_ (by rw [← slots]; exact running)

omit core one in
/-- A switch to the slot that comes to run (R162, R163). -/
theorem switch_moves {cause : SwitchCause} {new : SlotId} (dry : Bool) (first : ComesToRun c (freshSlots s c) s new)
    (moves : switchTask s c cause = switchTo (refreshSlots s c) c old new dry) :
    let counted := raise (count s (coreRegBase c) Ctr.CORE_SWITCH_CNT 1) (coreRegBase c) Flag.core_SWITCH
    ∃ t, exec (.taskSwitch c cause) s = .next t ∧ Switched (freshSlots s c) old new t ∧ TilesFreed c none s t ∧
      RegsAs (if dry then raise (count counted (coreRegBase c) Ctr.CORE_PREEMPT_CNT 1) (coreRegBase c) Flag.core_PREEMPT else counted) t ∧
      SameBut [.regs, .cores] s t := by
  intro counted
  obtain ⟨slots, cores, kept⟩ := refreshSlots_gives s c
  obtain ⟨z, hz⟩ : ∃ z, z = refreshSlots s c := ⟨_, rfl⟩
  rw [← hz] at slots cores kept moves
  have apart : new ≠ old := fun same => by
    have ready := first.2.1
    rw [same, runs] at ready
    cases ready
  obtain ⟨switched, tiles, regs⟩ := switchTo_gives z c old new dry apart
  rw [funext slots] at switched
  have can := Can.all [.regs, .cores]
  have frame : Keeps (· ∈ [.regs, .cores]) s (switchTask s c cause) := switchTask_keeps (.refl s) ..
  have same : z.regs = s.regs := kept.field .regs (by decide)
  have noted := raise_regs_congr (count_regs_congr same (coreRegBase c) Ctr.CORE_SWITCH_CNT 1) (coreRegBase c) Flag.core_SWITCH
  refine ⟨_, congrArg Host.Outcome.next moves, switched, tilesFreed_of fun d => (tiles d).trans (cores d), ?_, moves ▸ frame.sameBut⟩
  refine Eq.trans regs ?_
  cases dry
  · exact noted
  · exact raise_regs_congr (count_regs_congr noted ..) ..

theorem switch_to {new : SlotId} (first : ComesToRun c (freshSlots s c) s new) : let f := freshSlots s c
    let counted := raise (count s (coreRegBase c) Ctr.CORE_SWITCH_CNT 1) (coreRegBase c) Flag.core_SWITCH
    (∀ n, hasReady (f old) = false → s.pwr.config.switchWait ≤ n → ∃ t, exec (.taskSwitch c (.wait n)) s = .next t ∧
      Switched f old new t ∧ TilesFreed c none s t ∧ RegsAs counted t ∧ SameBut [.regs, .cores] s t) ∧
    (∀ n, hasReady (f old) = true ∨ n < s.pwr.config.switchWait → ∃ t, exec (.taskSwitch c (.wait n)) s = .next t ∧
      (∀ u, getSlot t u = f u) ∧ TilesFreed c none s t ∧ SameBut [.cores] s t) ∧
    (DryGap s (dryOf s old (f old)) (dryOf s new (f new)) → ∃ t, exec (.taskSwitch c .dry) s = .next t ∧
      Switched f old new t ∧ TilesFreed c none s t ∧ SameBut [.regs, .cores] s t ∧
      RegsAs (raise (count counted (coreRegBase c) Ctr.CORE_PREEMPT_CNT 1) (coreRegBase c) Flag.core_PREEMPT) t) ∧
    (¬ DryGap s (dryOf s old (f old)) (dryOf s new (f new)) → ∃ t, exec (.taskSwitch c .dry) s = .next t ∧
      (∀ u, getSlot t u = f u) ∧ TilesFreed c none s t ∧ SameBut [.cores] s t) := by
  intro f counted
  obtain ⟨slots, -, kept⟩ := refreshSlots_gives s c
  have running := runningSlot_refreshed core runs one
  have best := bestReady_refreshed first
  have config := keeps_config kept (by decide)
  have due (n : Nat) : switchTask s c (.wait n) = if !hasReady (f old) && decide (s.pwr.config.switchWait ≤ n) then
      switchTo (refreshSlots s c) c old new false else refreshSlots s c := by
    unfold switchTask
    dsimp only
    rw [running]
    dsimp only
    rw [best, slots, config]
  have dry (u : SlotId) : slotDry (refreshSlots s c) u = dryOf s u (f u) := by
    have slot : getSlot (refreshSlots s c) u = f u := slots u
    rw [← dryOf_same (refreshed_marks s c), ← slot]
    rfl
  have gap : dryGap (refreshSlots s c) (dryOf s old (f old)) (dryOf s new (f new)) = true ↔
      DryGap s (dryOf s old (f old)) (dryOf s new (f new)) := by
    rw [dryGap_iff]
    unfold DryGap
    rw [config]
  have early : switchTask s c .dry = if dryGap (refreshSlots s c) (dryOf s old (f old)) (dryOf s new (f new)) then
      switchTo (refreshSlots s c) c old new true else refreshSlots s c := by
    unfold switchTask
    dsimp only
    rw [running]
    dsimp only
    rw [best]
    dsimp only
    rw [dry, dry]
  refine ⟨fun n unready long => ?_, fun n stays => ?_, fun yes => ?_, fun no => ?_⟩
  · exact switch_moves runs false first ((due n).trans (if_pos (by rw [unready, decide_eq_true long]; rfl)))
  · refine switch_stays ((due n).trans (if_neg fun yes => ?_))
    obtain ⟨unready, long⟩ := Bool.and_eq_true_iff.1 yes
    rcases stays with ready | short
    · rw [ready] at unready
      cases unready
    · exact absurd (of_decide_eq_true long) (Nat.not_le.2 short)
  · obtain ⟨t, exec_, switched, freed, regs, frame⟩ := switch_moves runs true first (early.trans (if_pos (gap.2 yes)))
    exact ⟨t, exec_, switched, freed, frame, regs⟩
  · exact switch_stays (early.trans (if_neg fun yes => no (gap.1 yes)))

theorem switch_alone (ready : ∀ u, u.core = c → (freshSlots s c u).state ≠ .ready) : let f := freshSlots s c
    (∀ n, hasReady (f old) = false → ∃ t, exec (.taskSwitch c (.wait n)) s = .next t ∧ (∀ u, getSlot t u = f u) ∧
      TilesFreed c none s t ∧ RegsAs (count s (coreRegBase c) Ctr.CORE_NOREADY_CNT n) t ∧ SameBut [.regs, .cores] s t) ∧
    (∀ cause, (∀ n, cause = .wait n → hasReady (f old) = true) → ∃ t, exec (.taskSwitch c cause) s = .next t ∧
      (∀ u, getSlot t u = f u) ∧ TilesFreed c none s t ∧ SameBut [.cores] s t) := by
  intro f
  obtain ⟨slots, -, kept⟩ := refreshSlots_gives s c
  have running := runningSlot_refreshed core runs one
  have best : bestReady (refreshSlots s c) c = none := bestReady_none fun u at_ => by rw [slots]; exact ready u at_
  have due (cause : SwitchCause) : switchTask s c cause = match cause with
      | .wait n => if hasReady (f old) then refreshSlots s c else count (refreshSlots s c) (coreRegBase c) Ctr.CORE_NOREADY_CNT n
      | .dry => refreshSlots s c := by
    unfold switchTask
    dsimp only
    rw [running]
    dsimp only
    rw [best, slots]
    cases cause <;> rfl
  refine ⟨fun n unready => ?_, fun cause some_ => ?_⟩
  · have moves := (due (.wait n)).trans (if_neg (by rw [unready]; decide))
    have can := Can.all [.regs, .cores]
    have frame : Keeps (· ∈ [.regs, .cores]) s (switchTask s c (.wait n)) := switchTask_keeps (.refl s) ..
    exact ⟨_, congrArg Host.Outcome.next moves, fun u => (getSlot_congr (count_cores ..) u).trans (slots u),
      counted_tiles _ _ _ (refreshed_tiles s c), count_regs_congr (kept.field .regs (by decide)) .., moves ▸ frame.sameBut⟩
  · refine switch_stays ((due cause).trans ?_)
    cases cause with
    | wait n => exact if_pos (some_ n rfl)
    | dry => rfl

end

/-! ## TASK_ABORT -/

section
variable {s : State} {u : SlotId}

/-- What an abort drops, after the chutes that it reaches have been reset. -/
theorem taskAbort_drops (filled : (getSlot s u).state ≠ .empty) :
    let r := abortReach s [u] []
    let z := r.2.foldl resetChute s
    exec (.taskAbort u) s = .next ((r.1.filter fun t => (getSlot z t).state != .empty).foldl dropTask z) :=
  congrArg Host.Outcome.next (if_neg filled)

theorem taskAbort_reaches (filled : (getSlot s u).state ≠ .empty) : ∃ t, exec (.taskAbort u) s = .next t ∧
    (∀ v, Reached s u v → (getSlot s v).state ≠ .empty → Aborted v s t) ∧
    (∀ v, ¬ (Reached s u v ∧ (getSlot s v).state ≠ .empty) → Spared v s t) := by
  have drops := taskAbort_drops filled
  dsimp only at drops
  have can := Can.all [.regs, .txQueue, .sessions, .outs, .chutes]
  obtain ⟨z, hz⟩ : ∃ z, z = (abortReach s [u] []).2.foldl resetChute s := ⟨_, rfl⟩
  have kept : Keeps (· ∈ [.regs, .txQueue, .sessions, .outs, .chutes]) s z := by
    rw [hz]
    exact Keeps.foldl (.refl s) _ fun z r k => resetChute_keeps k ..
  rw [← hz] at drops
  have cores : z.cores = s.cores := kept.field .cores (by decide)
  have slot (v : SlotId) : getSlot z v = getSlot s v := getSlot_congr cores v
  have hit (v : SlotId) : v ∈ ((abortReach s [u] []).1.filter fun t => (getSlot z t).state != .empty) ↔
      Reached s u v ∧ (getSlot s v).state ≠ .empty := by
    rw [List.mem_filter, abortReach_iff s u (mem_residentSlots filled), slot, bne_iff_ne]
  obtain ⟨aborted, spared⟩ := dropTasks_gives s ((abortReach s [u] []).1.filter fun t => (getSlot z t).state != .empty) [] z nofun
    fun v _ => ⟨slot v, tilesOf_congr cores v, getQueue_congr (kept.field .hoists (by decide)) _⟩
  exact ⟨_, drops, fun v reached there => aborted v ((hit v).2 ⟨reached, there⟩), fun v no => spared v fun mem => no ((hit v).1 mem)⟩

/-- An abort of a task at no chute reaches that task alone. -/
theorem abortReach_alone (filled : (getSlot s u).state ≠ .empty) (alone : ∀ r ∈ allChutes s, atEnd s r u = false) :
    abortReach s [u] [] = ([u], []) := by
  have grow : growAbort s ([u], []) = ([u], []) := by
    have chutes : (growAbort s ([u], [])).2 = [] := by
      refine List.eq_nil_iff_forall_not_mem.2 fun r mem => ?_
      obtain ⟨here, ends⟩ := (growAbort_chutes ..).1 mem
      rcases ends with none_ | ⟨w, mem, at_⟩
      · cases none_
      · rw [List.mem_singleton.1 mem, alone r here] at at_
        cases at_
    have tasks : (growAbort s ([u], [])).1 = [u] := by
      have only : ∀ w, w ∈ (growAbort s ([u], [])).1 → w = u := fun w mem => by
        obtain ⟨-, task | ⟨r, chute, -⟩⟩ := (growAbort_tasks ..).1 mem
        · exact List.mem_singleton.1 task
        · rw [chutes] at chute
          cases chute
      have self : u ∈ (growAbort s ([u], [])).1 := (growAbort_tasks ..).2 ⟨mem_residentSlots filled, .inl (List.mem_singleton.2 rfl)⟩
      unfold growAbort at only self ⊢
      dsimp only at only self ⊢
      exact eraseDups_single _ (List.mem_eraseDups.1 self) fun x mem => only x (List.mem_eraseDups.2 mem)
    exact Prod.ext tasks chutes
  unfold abortReach
  generalize (residentSlots s).length + 1 = n
  induction n with
  | zero => rfl
  | succ n ih => rw [repeat_succ, ih, grow]

theorem taskAbort_alone (filled : (getSlot s u).state ≠ .empty) (alone : ∀ r ∈ allChutes s, atEnd s r u = false) :
    exec (.taskAbort u) s = .next (dropTask s u) := by
  rw [taskAbort_drops filled, abortReach_alone filled alone]
  dsimp only [List.foldl_nil]
  rw [List.filter_cons_of_pos (by simpa using filled)]
  rfl

theorem dropTask_counts (s : State) (u : SlotId) : Counted (coreRegBase u.core + Ctr.CORE_ABORT_CNT) 1 s (dropTask s u) ∧
    Counted (depBase + Ctr.DEP_ABORT_CNT) 1 s (dropTask s u) := by
  have high := coreRegBase_pos u.core
  have hoist : hoistRegBase (slotQueue u).seam (slotQueue u).hoist + 0x20 ≤ coreRegBase u.core ∧
      0x1000000 ≤ hoistRegBase (slotQueue u).seam (slotQueue u).hoist := by
    have small := (slotQueue u).hoist.isLt
    have seam : (slotQueue u).seam = u.core.seam := rfl
    rw [seam]
    unfold hoistRegBase coreRegBase seamRegBase
    omega
  have dep : depBase = 0x2000 := rfl
  have core_ : Ctr.CORE_ABORT_CNT = 0x64 := rfl
  have dep_ : Ctr.DEP_ABORT_CNT = 0x20 := rfl
  have flag : Flag.core_ABORT.1 = 4 := rfl
  constructor
  · obtain ⟨v, same, counts⟩ := rawReg_dropTask s u (coreRegBase u.core + Ctr.CORE_ABORT_CNT) (by omega) (by omega) (by omega) (by omega) (by omega)
    rw [Counted, counts, rawReg_count_other _ (by omega), rawReg_raise_other _ (by omega), rawReg_count_self, same]
  · obtain ⟨v, same, counts⟩ := rawReg_dropTask s u (depBase + Ctr.DEP_ABORT_CNT) (by omega) (by omega) (by omega) (by omega) (by omega)
    rw [Counted, counts, rawReg_count_self, rawReg_raise_other _ (by omega), rawReg_count_other _ (by omega), same]

end

/-- Settles O17: a core without and with a RUNNING task, and the tasks that an abort reaches. -/
theorem taskSwitches : Obligations.TaskSwitches := by
  unfold Obligations.TaskSwitches
  refine ⟨fun s c => ⟨fun running => ⟨fun ready cause => switch_runs running ready cause, fun ready cause => switch_waits running ready cause⟩,
    fun old core runs one => ⟨fun new first => switch_to core runs one first, fun ready => switch_alone core runs one ready⟩⟩,
    fun s u => ⟨fun empty => congrArg Host.Outcome.next (if_pos empty), fun filled => ?_⟩⟩
  obtain ⟨t, runs, aborted, spared⟩ := taskAbort_reaches filled
  refine ⟨t, runs, aborted, spared, fun alone => ?_⟩
  cases Host.Outcome.next.inj (runs.symm.trans (taskAbort_alone filled alone))
  obtain ⟨-, -, kept⟩ := dropTask_gives s u
  obtain ⟨core, dep⟩ := dropTask_counts s u
  obtain ⟨-, -, -, again, held⟩ := dropTask_dep s u
  exact ⟨kept.sameBut, core, dep, again, held⟩

end Sys2Proof.Safety

end

section
/-! TASK_LOAD, and what a task's context reads (R148, R161, R166, R167, R216, R269). -/

-- one theorem after the other: proofs side by side would need more memory than the check allows
set_option Elab.async false

namespace Sys2Proof.Safety

open Sys2Proof.Machine

/-! ## What a task's context reads -/

section
variable {s t : State} (same : SameSources s t)
include same

theorem sources_marks : SameMarks s t :=
  .of_keeps same.kept (by decide) (by decide) (by decide) (by decide)

theorem counterCtx_sources (c : WorkCounter) (i : Nat) : counterCtx t c i = counterCtx s c i := by
  have graph (k : Nat) : getGraphSlot t k = getGraphSlot s k := getGraphSlot_congr (same.kept.field .graphs (by decide)) k
  have image (j : Job) : jobImage t j = jobImage s j := by
    unfold jobImage
    rw [graph]
  have node (j : Job) (n : Nat) : jobNode t j n = jobNode s j n := by
    unfold jobNode
    rw [image]
  unfold counterCtx
  rw [getJob_congr (same.kept.field .jobs (by decide))]
  simp only [image, node]

theorem getCounter_sources (m k : Nat) : getCounter t m k = getCounter s m k := by
  unfold getCounter
  rw [(same.kept.field .counters (by decide) : t.counters = s.counters)]

theorem descs_sources : descAt t = descAt s := funext (descAt_sources same)

theorem extentHere_sources (g : Image) (d : Desc) (k : Nat) : extentHere t g d k = extentHere s g d k := by
  unfold extentHere
  rw [keeps_number same.kept (by decide)]

theorem elemBits_sources (d : Desc) (idx : List Nat) : elemBits t d idx = elemBits s d idx := by
  unfold elemBits readUnit
  rw [readModule_sources same]

theorem elemDesc_sources (g : Image) (n : Node) (k b : Nat) : elemDesc t g n k b = elemDesc s g n k b := by
  have slot : elemSlot t g (operandOf g n k) b = elemSlot s g (operandOf g n k) b := by
    unfold elemSlot indexElem
    simp only [descs_sources same, elemBits_sources same]
  unfold elemDesc
  rw [slot, descs_sources same]

theorem assayOn_sources (c : TaskCtx) : assayOn t c = assayOn s c := by
  unfold assayOn assayIgnored
  rw [getStage_congr (same.kept.field .stages (by decide)), elemDesc_sources same]

theorem rowsKnown_sources (c : TaskCtx) (x : TaskSlot) (rt ct : Nat) (assay : Bool) :
    rowsKnown t c x rt ct assay = rowsKnown s c x rt ct assay := by
  unfold rowsKnown
  rw [assayOn_sources same]

theorem ctxSlices_sources (c : TaskCtx) : ctxSlices t c = ctxSlices s c := by
  unfold ctxSlices
  simp only [descs_sources same, extentHere_sources same]

theorem blkBit_sources (c : TaskCtx) (kt ct : Nat) :
    blkBit t c.image c.node (ctxCols t c) kt ct = blkBit s c.image c.node (ctxCols s c) kt ct := by
  unfold blkBit operandDesc operandDescs bitmapBit ctxCols
  simp only [descs_sources same, elemBits_sources same, ctxSlices_sources same]

theorem ctxCut_sources (c : TaskCtx) : ctxCut t c = ctxCut s c := by
  unfold ctxCut ctxGain ctxWeight
  simp only [descs_sources same, ctxSlices_sources same]

theorem ctxTiles_sources (c : TaskCtx) (ct : Nat) (assay : Bool) : ctxTiles t c ct assay = ctxTiles s c ct assay := by
  unfold ctxTiles ctxPart
  simp only [ctxCut_sources same, blkBit_sources same]

theorem opTensors_sources (u : SlotId) (c : TaskCtx) (o : OpRun) : opTensors t u c o = opTensors s u c o := by
  unfold opTensors ctxDesc vectorRows
  simp only [descs_sources same, extentHere_sources same]

end

/-! ## TASK_LOAD -/

section
variable {s : State} {u : SlotId} {p : TaskSpec}

theorem mem_arraysOfCore (c : CoreId) (a : ArrayId) : a ∈ arraysOfCore c ↔ a.core = c := by
  unfold arraysOfCore
  rw [List.mem_map]
  constructor
  · rintro ⟨k, -, rfl⟩
    rfl
  · rintro rfl
    exact ⟨a.array, List.mem_finRange _, rfl⟩

theorem scratchFits_iff (s : State) (c : CoreId) (p : TaskSpec) : scratchFits s c p = true ↔
    (p.base % 64 = 0 ∧ p.base + p.saveBytes + p.workBytes ≤ 0x100000) ∧
    ∀ k, overlap p.base (p.saveBytes + p.workBytes) (getSlot s ⟨c, k⟩).base
      ((getSlot s ⟨c, k⟩).saveBytes + (getSlot s ⟨c, k⟩).workBytes) = false := by
  unfold scratchFits
  simp only [Bool.and_eq_true, beq_iff_eq, decide_eq_true_eq, List.all_eq_true, mem_slotsOfCore, Bool.not_eq_true']
  refine and_congr_right fun _ => ⟨fun all k => all ⟨c, k⟩ rfl, fun each v core => ?_⟩
  subst core
  exact each v.slot

theorem suitsCore_iff (up : coreUp s u.core = true) (x : TaskCtx) : (suitsCore s u.core x p && streamOk s x p) = true ↔ SuitsTask s u.core x p := by
  have live : liveArrays s u.core ≠ [] ↔ ∃ a : ArrayId, a.core = u.core ∧ arrayFenced s a = false := by
    constructor
    · intro some_
      obtain ⟨a, mem⟩ := List.exists_mem_of_ne_nil _ some_
      obtain ⟨at_, sound⟩ := List.mem_filter.1 mem
      exact ⟨a, (mem_arraysOfCore ..).1 at_, by simpa using (Bool.and_eq_true_iff.1 sound).1⟩
    · rintro ⟨a, core, sound⟩
      exact List.ne_nil_of_mem (List.mem_filter.2 ⟨(mem_arraysOfCore ..).2 core, by rw [sound, up]; rfl⟩)
  unfold suitsCore recordSize
  simp only [Bool.and_eq_true, Bool.not_eq_true', decide_eq_true_eq, Bool.or_eq_true, bne_iff_ne, live]
  constructor
  · rintro ⟨⟨⟨path, area⟩, arrays⟩, stream⟩
    exact ⟨path, area, fun on => arrays.resolve_left (by rw [on]; decide), stream⟩
  · rintro ⟨path, area, arrays, stream⟩
    refine ⟨⟨⟨path, area⟩, ?_⟩, stream⟩
    cases on : onArrays x with
    | false => exact .inl rfl
    | true => exact .inr (arrays on)

theorem mayLoad_iff (s : State) (u : SlotId) (p : TaskSpec) : MayLoad s u p ↔ ¬ (s.dep.out || !canLoadTask s u p) = true := by
  rw [Bool.not_eq_true, Bool.or_eq_false_iff, Bool.not_eq_false']
  unfold canLoadTask
  simp only [Bool.and_eq_true, beq_iff_eq, mayServe_iff, List.contains_iff_mem, scratchFits_iff]
  constructor
  · rintro ⟨service, empty, up, serves, given, place, apart, suits⟩
    refine ⟨service, ⟨⟨⟨⟨empty, up⟩, serves⟩, given⟩, place, apart⟩, ?_⟩
    split
    next x ctx => exact (suitsCore_iff up x).2 (suits x ctx)
    next => rfl
  · rintro ⟨service, ⟨⟨⟨⟨⟨empty, up⟩, serves⟩, given⟩, place, apart⟩, suits⟩⟩
    refine ⟨service, empty, up, serves, given, place, apart, fun x ctx => ?_⟩
    rw [ctx] at suits
    exact (suitsCore_iff up x).1 suits

/-- The state with a task loaded, before an earlier run's inactive outputs are forgotten. -/
def taskPlaced (s : State) (u : SlotId) (p : TaskSpec) : State :=
  ensureRunning (setSlot (setMaxOut s (slotQueue u) p.maxOut.val) u (loadedSlot s u p)) u.core

theorem taskPlaced_gives (s : State) (u : SlotId) (p : TaskSpec) :
    SlotsRun u.core (fun w => if w = u then loadedSlot s u p else getSlot s w) (taskPlaced s u p) ∧
    (∀ d, { getCore (taskPlaced s u p) d with slots := [] } = { getCore s d with slots := [] }) ∧
    RegsAs (setRawReg s (queueRegBase (slotQueue u))
      (BitVec.ofNat 32 ((rawReg s (queueRegBase (slotQueue u))).toNat / 128 * 128 + p.maxOut.val))) (taskPlaced s u p) ∧
    Keeps (· ∈ [.regs, .cores]) s (taskPlaced s u p) := by
  obtain ⟨z, hz⟩ : ∃ z, z = setMaxOut s (slotQueue u) p.maxOut.val := ⟨_, rfl⟩
  have limit := setMaxOut_eq s (slotQueue u) p.maxOut.val p.maxOut.isLt
  have cores : z.cores = s.cores := by rw [hz, limit, setRawReg_cores]
  have can := Can.all [.regs, .cores]
  have kept : Keeps (· ∈ [.regs, .cores]) s z := hz ▸ setMaxOut_keeps (.refl s) ..
  have placed : taskPlaced s u p = ensureRunning (setSlot z u (loadedSlot s u p)) u.core := by rw [hz]; rfl
  have runs : Keeps (· ∈ [.cores]) (setSlot z u (loadedSlot s u p)) (taskPlaced s u p) := placed ▸ ensureRunning_keeps (.refl _) _ (Can.all _)
  refine ⟨?_, fun d => ?_, ?_, ?_⟩
  · rw [placed]
    refine slotsRun_congr (ensureRunning_gives ..) fun w => ?_
    by_cases mine : w = u
    · rw [mine, getSlot_setSlot_self, if_pos rfl]
    · rw [getSlot_setSlot_other _ _ mine, if_neg mine, getSlot_congr cores]
  · rw [placed]
    exact (ensureRunning_cores ..).trans ((getCore_setSlot ..).trans (by rw [getCore_congr cores]))
  · refine (runs.field .regs (by decide)).trans ?_
    rw [setSlot_regs, hz, limit]
  · rw [placed]
    exact ensureRunning_keeps (setSlot_keeps kept ..) ..

theorem taskPlaced_ctx (s : State) (u : SlotId) (p : TaskSpec) (c : WorkCounter) (i : Nat) :
    counterCtx (taskPlaced s u p) c i = counterCtx s c i := by
  obtain ⟨-, -, -, kept⟩ := taskPlaced_gives s u p
  have image (j : Job) : jobImage (taskPlaced s u p) j = jobImage s j := by
    unfold jobImage
    rw [getGraphSlot_congr (kept.field .graphs (by decide))]
  have node (j : Job) (n : Nat) : jobNode (taskPlaced s u p) j n = jobNode s j n := by
    unfold jobNode
    rw [image]
  unfold counterCtx
  rw [getJob_congr (kept.field .jobs (by decide))]
  simp only [image, node]

theorem loadTask_places (may : MayLoad s u p) : loadTask s u p =
    match counterCtx s (getCounter s u.core.seam.val p.counter.val) p.index with
    | some y => forgetInactive (taskPlaced s u p) y
    | none => taskPlaced s u p := by
  have moves := (mayLoad_iff s u p).1 may
  rw [← taskPlaced_ctx s u p]
  unfold loadTask
  rw [if_neg moves]
  rfl

theorem forgetInactive_marks (s : State) (c : TaskCtx) : SameMarks s (forgetInactive s c) := by
  refine ⟨fun k => ?_, rfl, rfl, rfl⟩
  unfold getJob forgetInactive
  rw [updRun_jobs, List.find?_map]
  have key : ((fun j : Job => j.key == k) ∘ fun j : Job => if j.key = c.job then
      { j with nodes := tset j.nodes {} c.stage { runOf j c.stage with
        inactive := (runOf j c.stage).inactive.filter fun e => !(e.1 == c.task.elem && inTaskBlock c e.2.1 e.2.2.1) } } else j) =
      fun j => j.key == k := by
    funext j
    dsimp only [Function.comp]
    split <;> rfl
  rw [key, Option.map_map]
  congr 1
  funext j
  dsimp only [Function.comp]
  split <;> rfl

theorem taskLoad_loads (may : MayLoad s u p) : let c := getCounter s u.core.seam.val p.counter.val
    ∃ t, exec (.taskLoad u p) s = .next t ∧
      SlotsRun u.core (fun w => if w = u then loadedSlot s u p else getSlot s w) t ∧ TilesFreed u.core none s t ∧
      (let a := queueRegBase (slotQueue u)
       RegsAs (setRawReg s a (BitVec.ofNat 32 ((rawReg s a).toNat / 128 * 128 + p.maxOut.val))) t) ∧
      (counterCtx s c p.index = none → t.dep.jobs = s.dep.jobs) ∧
      (∀ x, counterCtx s c p.index = some x → JobChanged x.job (fun j => { j with
        nodes := tset j.nodes {} x.stage { runOf j x.stage with
          inactive := (runOf j x.stage).inactive.filter fun e =>
            !(e.1 == x.task.elem && inTaskBlock x e.2.1 e.2.2.1) } }) s t) ∧
      SameBut [.regs, .jobs, .cores] s t := by
  intro c
  have loads := loadTask_places may
  obtain ⟨run, cores, regs, kept⟩ := taskPlaced_gives s u p
  have jobs : (taskPlaced s u p).dep.jobs = s.dep.jobs := kept.field .jobs (by decide)
  have can := Can.all [.regs, .jobs, .cores]
  have frame : Keeps (· ∈ [.regs, .jobs, .cores]) s (loadTask s u p) := loadTask_keeps (.refl s) ..
  cases ctx : counterCtx s c p.index with
  | none =>
    rw [ctx] at loads
    exact ⟨_, congrArg Host.Outcome.next loads, run, tilesFreed_of cores, regs, fun _ => jobs, nofun, loads ▸ frame.sameBut⟩
  | some y =>
    rw [ctx] at loads
    refine ⟨_, congrArg Host.Outcome.next loads, slotsRun_same (forgetInactive_marks ..) run fun _ => rfl, tilesFreed_of cores, regs,
      nofun, fun x same => ?_, loads ▸ frame.sameBut⟩
    cases same
    unfold JobChanged
    rw [← jobs]
    exact updRun_jobs ..

end

end Sys2Proof.Safety

end

section
/-! COMMAND_ISSUE: completed commands, the next one of a unit, and the start of a task (R85, R148, R159, R160, R325, R329). -/

-- one theorem after the other: proofs side by side would need more memory than the check allows
set_option Elab.async false

namespace Sys2Proof.Safety

open Sys2Proof.Machine

/-! ## What a started task's context reads -/

/-- A task's slot but for whether and when the task started. -/
def unstarted (x : TaskSlot) : TaskSlot :=
  { x with started := false, startedAt := 0 }

section
variable {s t : State} {u : SlotId}

theorem started_slot (start : SlotStarted u s t) : unstarted (getSlot t u) = unstarted (getSlot s u) := by
  rw [start.1]
  split <;> rfl

theorem started_sources (start : SlotStarted u s t)
    (cores : ∀ d, { getCore t d with slots := [] } = ({ getCore s d with slots := [] } : CoreState))
    (kept : Keeps (· ∈ [.regs, .cores]) s t) : SameSources s t := by
  refine ⟨kept.mono (by decide), cores, fun v => ?_⟩
  by_cases mine : v = u
  · rw [mine]
    have job := congrArg TaskSlot.job (started_slot start)
    exact job
  · rw [start.2 v mine]

variable (same : SameSources s t) (slot : unstarted (getSlot t u) = unstarted (getSlot s u))
include same slot

theorem taskCtx_started : taskCtx t u = taskCtx s u := by
  have state : (getSlot t u).state = (getSlot s u).state := (congrArg TaskSlot.state slot :)
  have counter : (getSlot t u).counter = (getSlot s u).counter := (congrArg TaskSlot.counter slot :)
  have index : (getSlot t u).index = (getSlot s u).index := (congrArg TaskSlot.index slot :)
  unfold taskCtx
  dsimp only
  rw [state, counter, index, counterCtx_sources same, getCounter_sources same]

theorem rowsKnown_started (c : TaskCtx) (rt ct : Nat) (assay : Bool) :
    rowsKnown t c (getSlot t u) rt ct assay = rowsKnown s c (getSlot s u) rt ct assay := by
  have masks : (getSlot t u).rowMasks = (getSlot s u).rowMasks := (congrArg TaskSlot.rowMasks slot :)
  rw [rowsKnown_sources same]
  unfold rowsKnown maskedRows
  rw [masks]

omit same in
theorem fullyMasked_started (c : TaskCtx) (rt ct : Nat) : fullyMasked c (getSlot t u) rt ct = fullyMasked c (getSlot s u) rt ct := by
  have masks : (getSlot t u).rowMasks = (getSlot s u).rowMasks := (congrArg TaskSlot.rowMasks slot :)
  have audits : (getSlot t u).auditRows = (getSlot s u).auditRows := (congrArg TaskSlot.auditRows slot :)
  unfold fullyMasked chargeRows maskedRows
  rw [masks, audits]

theorem opReady_started (o : OpRun) : opReady t u o = opReady s u o := by
  have base : (getSlot t u).base = (getSlot s u).base := (congrArg TaskSlot.base slot :)
  have save : (getSlot t u).saveBytes = (getSlot s u).saveBytes := (congrArg TaskSlot.saveBytes slot :)
  have work : (getSlot t u).workBytes = (getSlot s u).workBytes := (congrArg TaskSlot.workBytes slot :)
  unfold opReady inWork
  simp only [taskCtx_started same slot, opTensors_sources same, base, save, work]

end

/-! ## What becomes of a command -/

section
variable {s m : State} {u : SlotId} {i : Nat} {work : CmdWork} (same : SameSources s m)
  (slot : unstarted (getSlot m u) = unstarted (getSlot s u)) (at_ : workOf (getSlot m u) i = some work)
include same slot at_

/-- A command that is issued, or issued and done at once. -/
theorem issueWork_issues {done skipped : Bool} (issue : Issue s u work (some done) skipped) : issueWork m u i =
    some (if skipped then count (setIssued m u i done) (spRegBase u.core) Ctr.SP_BLK_SKIP_CNT 1 else setIssued m u i done) := by
  have masked := fullyMasked_started slot
  unfold issueWork
  rw [at_]
  cases issue with
  | other => rfl
  | begun c rt ct kt assay ctx path block rows runs left tile =>
    have goes : ((assay && !assayOn m c) || (!assay && fullyMasked c (getSlot m u) rt ct)) = false := by
      rw [assayOn_sources same, masked]
      cases assay with
      | false => rw [left rfl]; rfl
      | true => rw [runs rfl]; rfl
    unfold issueCharge
    simp only [taskCtx_started same slot, ctx, path, block, rowsKnown_started same slot, rows, goes, ctxTiles_sources same,
      List.contains_iff_mem, tile, Bool.not_true, Bool.or_false, Bool.false_eq_true, if_false, if_true]
  | empty c rt ct kt assay ctx path block rows none_ =>
    have gone : ((assay && !assayOn m c) || (!assay && fullyMasked c (getSlot m u) rt ct)) = true := by
      rw [assayOn_sources same, masked]
      rcases none_ with ⟨rfl, off⟩ | ⟨rfl, all⟩
      · rw [off]; rfl
      · rw [all]; rfl
    unfold issueCharge
    simp only [taskCtx_started same slot, ctx, path, block, rowsKnown_started same slot, rows, gone, Bool.not_true, Bool.or_false,
      Bool.false_eq_true, if_false, if_true]
  | skipped c rt ct kt assay ctx path block rows runs left tile bit =>
    have goes : ((assay && !assayOn m c) || (!assay && fullyMasked c (getSlot m u) rt ct)) = false := by
      rw [assayOn_sources same, masked]
      cases assay with
      | false => rw [left rfl]; rfl
      | true => rw [runs rfl]; rfl
    unfold issueCharge
    simp only [taskCtx_started same slot, ctx, path, block, rowsKnown_started same slot, rows, goes, ctxTiles_sources same,
      List.contains_iff_mem, tile, blkBit_sources same, bit, Bool.not_true, Bool.or_false, Bool.false_eq_true, if_false, if_true]

/-- A charge waits until the rows of its tile are known (R148). -/
theorem issueWork_waits (issue : Issue s u work none false) : issueWork m u i = none := by
  cases issue with
  | unknown c rt ct kt assay ctx rows =>
    unfold issueWork
    rw [at_]
    unfold issueCharge
    simp only [taskCtx_started same slot, ctx, rowsKnown_started same slot, rows, Bool.not_false, Bool.or_true, if_true]

theorem issueWork_runs {o : OpRun} {y : TaskCtx × OpTensors} (runs : work = .operator o) (ready : opReady s u o = some y) :
    issueWork m u i = some (runOperator (setIssued m u i true) u o y.1 y.2) := by
  unfold issueWork
  rw [at_, runs]
  dsimp only
  rw [opReady_started same slot, ready]
  rfl

end

/-! ## The run of a vector operator -/

section
variable (s : State) (u : SlotId)

theorem setCore_slots (c : CoreId) (x : CoreState) (slots : x.slots = (getCore s c).slots) (v : SlotId) : getSlot (setCore s c x) v = getSlot s v := by
  unfold getSlot
  by_cases mine : v.core = c
  · rw [mine, getCore_setCore_self, slots]
  · rw [getCore_setCore_other _ _ mine]

theorem vatWrite_slots (bs : List Byte) : ∀ (c : CoreState) (off : Nat), (vatWrite c off bs).slots = c.slots := by
  induction bs with
  | nil => intro c off; rfl
  | cons b r ih => intro c off; exact ih _ _

theorem writeVat_slots (c : CoreId) (off : Nat) (bs : List Byte) (v : SlotId) : getSlot (writeVat s c off bs) v = getSlot s v := by
  have set_ := setCore_slots s c (vatWrite (getCore s c) off bs) (vatWrite_slots bs _ off) v
  unfold writeVat
  extract_lets x z
  split
  · rw [getSlot_congr (raise_cores ..), getSlot_congr (count_cores ..)]
    exact set_
  · exact set_

theorem writeModule_slots (a : Addr) (bs : List Byte) (v : SlotId) : getSlot (writeModule s a bs) v = getSlot s v := by
  unfold writeModule
  split
  · have can := Can.all [.voids, .dep, .assays]
    have kept : Keeps (· ∈ [.voids, .dep, .assays]) { s with mem := storeBytes s.mem a bs }
        (staleAssays (revalidate { s with mem := storeBytes s.mem a bs } a bs.length) a bs.length) :=
      staleAssays_keeps (revalidate_keeps (.refl _) ..) ..
    exact getSlot_congr (kept.field .cores (by decide)) v
  · exact poison_slots (writeScratch_poison ..) v
  · exact writeVat_slots ..
  · rfl

theorem applyWrites_slots (ws : List (Addr × List Byte)) (v : SlotId) : getSlot (applyWrites s ws) v = getSlot s v := by
  have each (l : List (Addr × List Byte)) : ∀ z, getSlot (l.foldl (fun z w => writeModule z w.1 w.2) z) v = getSlot z v := by
    induction l with
    | nil => intro z; rfl
    | cons w r ih => intro z; exact (ih _).trans (writeModule_slots ..)
  have order : Keeps (· ∈ [.freeCount]) s (freeOrderBy (fun w : Addr × List Byte => (w.1, w.2.length)) s ws).2 :=
    freeOrderBy_keeps (.refl s) _ _ (Can.all _)
  exact (each _ _).trans (getSlot_congr (order.field .cores (by decide)) v)

/-- A run that meets no poisoned word writes its results and counts, on a state with the same slots. -/
theorem runOperator_clean (o : OpRun) (c : TaskCtx) (x : OpTensors) (clean : (getCore s u.core).poisonedWords = []) :
    ∃ (z : State) (w : RowWrites), z.cores = s.cores ∧ runOperator s u o c x = cvtCountCore (applyWrites z w.1) u w.2 := by
  have bad : ((opRanges x o).1.flatMap fun p => poisonedIn s u.core p.1 p.2).eraseDups = [] := by
    have none_ : ((opRanges x o).1.flatMap fun p => poisonedIn s u.core p.1 p.2) = [] := by
      refine List.flatMap_eq_nil_iff.2 fun p _ => ?_
      unfold poisonedIn
      rw [clean]
      rfl
    rw [none_]
    rfl
  unfold runOperator
  dsimp only
  rw [bad]
  unfold afterPoison
  rw [if_pos rfl]
  refine ⟨_, _, ?_, rfl⟩
  rw [count_cores, count_cores]
  rfl

/-- Such a run leaves the slots but for their counts. -/
theorem runOperator_slots (o : OpRun) (c : TaskCtx) (x : OpTensors) (clean : (getCore s u.core).poisonedWords = []) :
    (∀ v, v ≠ u → getSlot (runOperator s u o c x) v = getSlot s v) ∧
    { getSlot (runOperator s u o c x) u with counts := [] } = { getSlot s u with counts := [] } := by
  obtain ⟨z, w, cores, runs⟩ := runOperator_clean s u o c x clean
  obtain ⟨others, own, -⟩ := cvtCountCore_kept (applyWrites z w.1) u w.2
  have slot (v : SlotId) : getSlot (applyWrites z w.1) v = getSlot s v := (applyWrites_slots ..).trans (getSlot_congr cores v)
  rw [runs]
  exact ⟨fun v other => (others v other).trans (slot v), own.trans (by rw [slot])⟩

end

/-! ## COMMAND_ISSUE -/

section
variable {s : State} {u : SlotId} {unit : UnitKind} {x : TaskSlot} {i : Nat}

theorem piecePresent_iff (x : TaskSlot) (p : Nat) : piecePresent x p = true ↔
    (∃ e ∈ x.cmds, e.done = true ∧ p ∈ e.cmd.brings) ∧ ∀ e ∈ x.cmds, e.done = true → p ∉ e.cmd.releases := by
  unfold piecePresent
  simp only [Bool.and_eq_true, Bool.not_eq_true', List.any_eq_true, List.any_eq_false, List.contains_iff_mem, not_and]

theorem cmdReady_iff (x : TaskSlot) (i : Nat) : cmdReady x i = true ↔ ∃ c, x.cmds[i]? = some c ∧ c.issued = false ∧
    (∀ d ∈ c.cmd.deps, ∀ e, x.cmds[d]? = some e → e.done = true) ∧
    ∀ p ∈ c.cmd.needs, (∃ e ∈ x.cmds, e.done = true ∧ p ∈ e.cmd.brings) ∧ ∀ e ∈ x.cmds, e.done = true → p ∉ e.cmd.releases := by
  have met (d : Nat) : ((x.cmds[d]?).map (·.done)).getD true = true ↔ ∀ e, x.cmds[d]? = some e → e.done = true := by
    cases x.cmds[d]? <;> simp
  unfold cmdReady
  cases x.cmds[i]? with
  | none => exact ⟨nofun, fun ⟨_, none_, _⟩ => nomatch none_⟩
  | some c =>
    simp only [Bool.and_eq_true, Bool.not_eq_true', List.all_eq_true, met, piecePresent_iff, Option.some.injEq, exists_eq_left', and_assoc]

theorem nextCmd_fresh (next : nextCmd x unit = some i) {c : SlotCmd} (at_ : x.cmds[i]? = some c) : c.issued = false := by
  have found := List.find?_some next
  rw [at_] at found
  simpa using (Bool.and_eq_true_iff.1 found).2

theorem mayIssue_iff (s : State) (u : SlotId) (x : TaskSlot) (unit : UnitKind) (i : Nat) : MayIssue s u x unit i ↔ nextCmd x unit = some i ∧
    (decide (x.state = .running) && !s.dep.out && cmdReady x i && coreUp s u.core && isLiveDom s (unitDomain u.core.seam unit)) = true := by
  simp only [Bool.and_eq_true, decide_eq_true_eq, Bool.not_eq_true', cmdReady_iff]
  constructor
  · rintro ⟨running, service, next, ⟨c, at_, deps, needs⟩, up, live⟩
    exact ⟨next, ⟨⟨⟨running, service⟩, c, at_, nextCmd_fresh next at_, deps, needs⟩, up⟩, live⟩
  · rintro ⟨next, ⟨⟨⟨running, service⟩, c, at_, -, deps, needs⟩, up⟩, live⟩
    exact ⟨running, service, next, ⟨c, at_, deps, needs⟩, up, live⟩

theorem issueCommand_of {completed : List Nat} (hx : x = withDone completed (getSlot s u)) (may : MayIssue s u x unit i) :
    issueCommand s u unit completed = settle ((issueWork (markStarted (setSlot s u x) u) u i).getD (setSlot s u x)) u.core := by
  obtain ⟨next, goes⟩ := (mayIssue_iff ..).1 may
  unfold issueCommand
  rw [markDone_eq, ← hx]
  dsimp only
  rw [next]
  dsimp only
  exact congrArg (settle · u.core) (if_pos goes)

theorem issueCommand_not {completed : List Nat} (hx : x = withDone completed (getSlot s u)) (no : ∀ i, ¬ MayIssue s u x unit i) :
    issueCommand s u unit completed = settle (setSlot s u x) u.core := by
  unfold issueCommand
  rw [markDone_eq, ← hx]
  dsimp only
  split
  next i next => exact congrArg (settle · u.core) (if_neg fun goes => no i ((mayIssue_iff ..).2 ⟨next, goes⟩))
  next => rfl

/-- A slot put in place and its core brought up to date. -/
theorem settled_slot (s : State) (u : SlotId) (x : TaskSlot) :
    SlotsRun u.core (fun w => freshOf u.core w (if w = u then x else getSlot s w)) (settle (setSlot s u x) u.core) ∧
    TilesFreed u.core none s (settle (setSlot s u x) u.core) ∧ SameBut [.cores] s (settle (setSlot s u x) u.core) := by
  obtain ⟨run, cores, -, kept⟩ := settle_gives (setSlot s u x) u.core
  have can := Can.all [.cores]
  have set_ : Keeps (· ∈ [.cores]) s (setSlot s u x) := setSlot_keeps (.refl s) ..
  refine ⟨slotsRun_congr run fun w => ?_, tilesFreed_of fun d => (cores d).trans (getCore_setSlot ..), (set_.trans kept).sameBut⟩
  unfold freshSlots freshOf
  by_cases mine : w = u
  · rw [mine, getSlot_setSlot_self, if_pos rfl, if_pos rfl, if_pos rfl]
  · rw [getSlot_setSlot_other _ _ mine, if_neg mine]

/-- The slot of a task whose command has been issued, the task having started. -/
theorem issuedSlot (x : TaskSlot) (i : Nat) (done : Bool) (now : Time) :
    let y := if x.started then x else { x with started := true, startedAt := now }
    { y with cmds := y.cmds.modify i fun c => { c with issued := true, done := done } } = withIssued i done now x := by
  have cmds : x.cmds.modify i (fun c => { c with issued := true, done := done }) =
      x.cmds.mapIdx fun k c => if k = i then { c with issued := true, done := done } else c := by
    refine List.ext_getElem? fun k => ?_
    rw [List.getElem?_modify, List.getElem?_mapIdx]
    by_cases here : i = k
    · subst here
      simp
    · simp [here, Ne.symm here]
  unfold withIssued
  cases started : x.started
  · simp only [cmds, Bool.false_eq_true, if_false]
  · simp only [cmds, started, if_true]

/-- The task of a slot that takes `x`, started (R325, R329). -/
theorem started_gives (running : x.state = .running) : let z := setSlot s u x
    let m := markStarted z u
    getSlot m u = (if x.started then x else { x with started := true, startedAt := s.clk.now }) ∧
    (∀ v, v ≠ u → getSlot m v = getSlot s v) ∧
    (∀ d, { getCore m d with slots := [] } = ({ getCore s d with slots := [] } : CoreState)) ∧
    SameSources z m ∧ unstarted (getSlot m u) = unstarted (getSlot z u) ∧
    (LateStart s u x → RegsAs (issueNoted s u true false) m) ∧ (¬ LateStart s u x → RegsAs (issueNoted s u false false) m) ∧
    Keeps (· ∈ [.regs, .cores]) s m := by
  intro z m
  have slot : getSlot z u = x := getSlot_setSlot_self ..
  have filled : (getSlot z u).state ≠ .empty := by
    rw [slot, running]
    decide
  obtain ⟨start, cores, late, early, kept⟩ := markStarted_gives z u filled
  have can := Can.all [.cores]
  have set_ : Keeps (· ∈ [.cores]) s z := setSlot_keeps (.refl s) ..
  have lateness : LateStart z u (getSlot z u) ↔ LateStart s u x := by
    rw [slot]
    exact lateStart_congr (dep_eq set_ (by decide)) (set_.field .counters (by decide)) rfl u x
  rw [lateness] at late early
  refine ⟨?_, fun v other => (start.2 v other).trans (getSlot_setSlot_other _ _ other), fun d => (cores d).trans (getCore_setSlot ..),
    started_sources start cores kept, started_slot start, fun yes => (late yes).trans ?_, fun no => (early no).trans ?_,
    (set_.mono (by decide)).trans kept⟩
  · rw [start.1, slot]
    rfl
  · exact raise_regs_congr (count_regs_congr (setSlot_regs ..) ..) ..
  · exact setSlot_regs ..

variable {completed : List Nat} {c : SlotCmd} (hx : x = withDone completed (getSlot s u)) (may : MayIssue s u x unit i)
  (at_ : x.cmds[i]? = some c)
include may at_

/-- The commands of the started task are those of the slot. -/
theorem started_work : workOf (getSlot (markStarted (setSlot s u x) u) u) i = some c.cmd.work := by
  obtain ⟨slot, -⟩ := started_gives (s := s) (u := u) may.running
  have cmds : (getSlot (markStarted (setSlot s u x) u) u).cmds = x.cmds := by
    rw [slot]
    split <;> rfl
  unfold workOf
  rw [cmds, at_]
  rfl

include hx

theorem commandIssue_issues {done skipped : Bool} (issue : Issue (setSlot s u x) u c.cmd.work (some done) skipped) :
    ∃ t, exec (.commandIssue u unit completed) s = .next t ∧
      SlotsRun u.core (fun w => freshOf u.core w (if w = u then withIssued i done s.clk.now x else getSlot s w)) t ∧
      TilesFreed u.core none s t ∧ SameBut [.regs, .cores] s t ∧
      (LateStart s u x → RegsAs (issueNoted s u true skipped) t) ∧
      (¬ LateStart s u x → RegsAs (issueNoted s u false skipped) t) := by
  obtain ⟨slot, others, cores, same, mine, late, early, kept⟩ := started_gives (s := s) (u := u) may.running
  have issues := issueWork_issues same mine (started_work may at_) issue
  have runs := issueCommand_of hx may
  rw [issues, Option.getD_some] at runs
  obtain ⟨m, hm⟩ : ∃ m, m = markStarted (setSlot s u x) u := ⟨_, rfl⟩
  rw [← hm] at slot others cores late early kept runs
  obtain ⟨w, hw⟩ : ∃ w, w = setSlot m u (withIssued i done s.clk.now x) := ⟨_, rfl⟩
  have issued : setIssued m u i done = w := by
    rw [hw, ← issuedSlot]
    unfold setIssued
    rw [slot]
  rw [issued] at runs
  obtain ⟨y, hy⟩ : ∃ y, y = if skipped then count w (spRegBase u.core) Ctr.SP_BLK_SKIP_CNT 1 else w := ⟨_, rfl⟩
  rw [← hy] at runs
  have can := Can.all [.regs, .cores]
  have set_ : Keeps (· ∈ [.regs, .cores]) s w := hw ▸ setSlot_keeps kept ..
  have whole : Keeps (· ∈ [.regs, .cores]) s y := by
    rw [hy]
    split
    · exact count_keeps set_ ..
    · exact set_
  have ycores : y.cores = w.cores := by
    rw [hy]
    split
    · exact count_cores ..
    · rfl
  have noted {b : Bool} (regs : RegsAs (issueNoted s u b false) m) : RegsAs (issueNoted s u b skipped) y := by
    have here : w.regs = (issueNoted s u b false).regs := by
      rw [hw, setSlot_regs]
      exact regs
    rw [hy]
    cases skipped
    · exact here
    · exact count_regs_congr here ..
  obtain ⟨run, freed, -, settled⟩ := settle_gives y u.core
  refine ⟨_, congrArg Host.Outcome.next runs, slotsRun_congr run fun v => ?_, tilesFreed_of fun d => ?_,
    (whole.trans (settled.mono (by decide))).sameBut, fun yes => ?_, fun no => ?_⟩
  · unfold freshSlots freshOf
    rw [getSlot_congr ycores, hw]
    by_cases own : v = u
    · rw [own, getSlot_setSlot_self, if_pos rfl, if_pos rfl, if_pos rfl]
    · rw [getSlot_setSlot_other _ _ own, if_neg own, others v own]
  · refine (freed d).trans ?_
    rw [getCore_congr ycores, hw]
    exact (getCore_setSlot ..).trans (cores d)
  · exact (settled.field .regs (by decide)).trans (noted (late yes))
  · exact (settled.field .regs (by decide)).trans (noted (early no))

theorem commandIssue_waits (issue : Issue (setSlot s u x) u c.cmd.work none false) :
    ∃ t, exec (.commandIssue u unit completed) s = .next t ∧
      SlotsRun u.core (fun w => freshOf u.core w (if w = u then x else getSlot s w)) t ∧
      TilesFreed u.core none s t ∧ SameBut [.cores] s t := by
  obtain ⟨-, -, -, same, mine, -⟩ := started_gives (s := s) (u := u) may.running
  have runs := issueCommand_of hx may
  rw [issueWork_waits same mine (started_work may at_) issue, Option.getD_none] at runs
  exact ⟨_, congrArg Host.Outcome.next runs, settled_slot s u x⟩

theorem commandIssue_runs {o : OpRun} {y : TaskCtx × OpTensors} (work : c.cmd.work = .operator o)
    (ready : opReady (setSlot s u x) u o = some y) (clean : (getCore s u.core).poisonedWords = []) :
    ∃ t, exec (.commandIssue u unit completed) s = .next t ∧
      (getSlot t u).cmds = (withIssued i true s.clk.now x).cmds ∧ (getSlot t u).started = true ∧
      (∀ v, v.core ≠ u.core → getSlot t v = getSlot s v) := by
  obtain ⟨slot, others, cores, same, mine, -⟩ := started_gives (s := s) (u := u) may.running
  have runs := issueCommand_of hx may
  rw [issueWork_runs same mine (started_work may at_) work ready, Option.getD_some] at runs
  obtain ⟨m, hm⟩ : ∃ m, m = markStarted (setSlot s u x) u := ⟨_, rfl⟩
  rw [← hm] at slot others cores runs
  obtain ⟨w, hw⟩ : ∃ w, w = setSlot m u (withIssued i true s.clk.now x) := ⟨_, rfl⟩
  have issued : setIssued m u i true = w := by
    rw [hw, ← issuedSlot]
    unfold setIssued
    rw [slot]
  rw [issued] at runs
  have own : getSlot w u = withIssued i true s.clk.now x := by rw [hw, getSlot_setSlot_self]
  have rest (v : SlotId) (other : v ≠ u) : getSlot w v = getSlot s v := by
    rw [hw, getSlot_setSlot_other _ _ other, others v other]
  have clean' : (getCore w u.core).poisonedWords = [] := by
    have core : { getCore w u.core with slots := [] } = ({ getCore s u.core with slots := [] } : CoreState) := by
      rw [hw]
      exact (getCore_setSlot ..).trans (cores u.core)
    exact (congrArg CoreState.poisonedWords core :).trans clean
  obtain ⟨kept, counted⟩ := runOperator_slots w u o y.1 y.2 clean'
  obtain ⟨r, hr⟩ : ∃ r, r = runOperator w u o y.1 y.2 := ⟨_, rfl⟩
  rw [← hr] at kept counted runs
  have cmds : (getSlot r u).cmds = (withIssued i true s.clk.now x).cmds := by
    rw [← own]
    exact (congrArg TaskSlot.cmds counted :)
  have started : (getSlot r u).started = true := by
    have same : (getSlot r u).started = (getSlot w u).started := (congrArg TaskSlot.started counted :)
    rw [same, own]
    unfold withIssued
    cases was : x.started <;> rfl
  obtain ⟨run, -, away, -⟩ := settle_gives r u.core
  have fresh : (freshSlots r u.core u).cmds = (getSlot r u).cmds ∧ (freshSlots r u.core u).started = (getSlot r u).started := by
    unfold freshSlots freshState
    rw [if_pos rfl]
    split <;> exact ⟨rfl, rfl⟩
  refine ⟨_, congrArg Host.Outcome.next runs, ?_, ?_, fun v other => ?_⟩
  · rw [← cmds, ← fresh.1]
    rcases run.each u with here | ⟨-, -, here⟩ <;> rw [here]
  · rw [← started, ← fresh.2]
    rcases run.each u with here | ⟨-, -, here⟩ <;> rw [here]
  · have apart : v ≠ u := fun same => other (by rw [same])
    unfold getSlot
    rw [away v.core other]
    exact (kept v apart).trans (rest v apart)

end

/-- Settles O16: the load of a task, then the next command of a unit by what becomes of it. -/
theorem taskStreams : Obligations.TaskStreams := by
  unfold Obligations.TaskStreams
  refine ⟨fun s u p => ⟨taskLoad_loads, fun no => congrArg Host.Outcome.next (if_pos (Classical.not_not.1 fun goes => no ((mayLoad_iff s u p).2 goes)))⟩,
    fun s u unit completed => ⟨fun i c may at_ => ⟨fun done skipped issue => commandIssue_issues rfl may at_ issue,
      fun issue => commandIssue_waits rfl may at_ issue, fun o y work ready clean => commandIssue_runs rfl may at_ work ready clean⟩, fun no => ?_⟩⟩
  exact ⟨_, congrArg Host.Outcome.next (issueCommand_not rfl no), settled_slot s u _⟩

end Sys2Proof.Safety

end
